-- ==== Sys2Proof/Word.lean ====
section
/-! DEFINITION.  The number types of the model. -/

namespace Sys2Proof

/-- An absolute Warp instant (00 R10): bits [63:4] nanoseconds, bits [3:0] sixteenths. -/
abbrev Instant := BitVec 64

/-- A 32-bit register or data word (00 R14). -/
abbrev Word := BitVec 32

/-- One byte of a record, frame or memory. -/
abbrev Byte := BitVec 8

/-- A SHA-384 digest. -/
abbrev Digest := BitVec 384

end Sys2Proof
end

