-- ==== Sys2Proof/Syntax.lean ====
section
/-! DEFINITION.  The commands of the block: one constructor per row of
`spec/opcode_table.json`.  A command bears the Warp instant `t` at which it takes place
(notes/assumptions/2.md); further operands are what the row acts on and what the
environment decides. -/

namespace Sys2Proof

/-- The requesters of 64-bit quantities (00 R15). -/
inductive Requester where
  | pcie
  | steward
  | shuttle (n : Fin 48)
  | debug
  deriving DecidableEq, Repr


/-- The stamped inputs of the Warp (02 R51). -/
inductive StampInput where
  | pps | sync
  deriving DecidableEq, Repr


/-- An end condition of a step (05 Table 5.4): KIND, OP, NEXT, SRC and the 64 bits of ARG. -/
structure EndCond where
  kind : Nat
  op : Nat
  next : Nat
  src : Nat
  arg : Nat
  deriving DecidableEq, Repr

/-- A step record (05 Table 5.3); `reserved` is the OR of the bytes that must be zero. -/
structure StepRec where
  step : Nat
  flags : Nat
  actFirst : Nat
  actCount : Nat
  ends : List EndCond
  label : Nat
  reserved : Nat
  deriving DecidableEq, Repr

/-- An entry of the action pool (05 Table 5.5). -/
structure PoolEntry where
  opcode : Nat
  flags : Nat
  target : Nat
  arg0 : Nat
  arg1 : Nat
  arg2 : Nat
  deriving DecidableEq, Repr

/-- A step-table image (05 Tables 5.1, 5.2).  `bodyHash` is the digest of the bytes that came,
`sigOk` whether the signature verifies under the key that KEY_ID names, `reserved` the OR of
the header bytes that must be zero. -/
structure StepTable where
  magic : Nat
  format : Nat
  partition : Nat
  missReact : Nat
  stepCount : Nat
  poolCount : Nat
  entryStep : Nat
  stopStep : Nat
  tickNs : Nat
  branchNs : Nat
  version : Nat
  keyId : Nat
  beamDigest : Digest
  bodyDigest : Digest
  bodyHash : Digest
  sigOk : Bool
  reserved : Nat
  /-- BUILT, and NAME and SIGNATURE as the little-endian numbers of their bytes. -/
  built : Nat
  name : Nat
  signature : Nat
  steps : List StepRec
  pool : List PoolEntry
  deriving DecidableEq, Repr

/-- The generator registers that the host writes under 05 R144. -/
inductive GenReg where
  | target | vmax | win
  deriving DecidableEq, Repr

/-- A profile generator beyond its registers (05 R140). -/
structure Gen where
  q : Int
  /-- The target in fine units, and the target that the next update takes. -/
  t : Int
  nextT : Option Int
  jump : Option Int
  /-- Limits that an update with DONE takes: VMAX, M1, M2 (R142). -/
  limits : Option (Nat × Nat × Nat)
  /-- The windows, oldest first, and their sums. -/
  h1 : List Int
  h2 : List Int
  s1 : Int
  s2 : Int
  lastDir : Int
  zeroRun : Nat
  /-- A staged jump (PG_SET), a staged target and staged limits (R128). -/
  stJump : Option Int
  stTarget : Bool
  stLimits : Bool
  deriving DecidableEq, Repr


/-- A segment record (06 Table 6.2): DUR_NS, END_POS and END_VEL. -/
structure SegRec where
  dur : Nat
  endPos : Int
  endVel : Int
  deriving DecidableEq, Repr

/-- A segment container (06 Table 6.3) with its records.  `bodyHash` is the digest of the
record bytes that came, `sigOk` whether the signature verifies under the key that KEY_ID
names, `reserved` the OR of the header bytes that must be zero. -/
structure SegImage where
  magic : Nat
  format : Nat
  axis : Nat
  partition : Nat
  first : Nat
  count : Nat
  version : Nat
  keyId : Nat
  beamDigest : Digest
  bodyDigest : Digest
  bodyHash : Digest
  sigOk : Bool
  reserved : Nat
  records : List SegRec
  deriving DecidableEq, Repr


/-- An envelope container (08 Tables 8.7, 8.8): points are T_NS, LO and HI; `bodyHash` is the
digest of the points that came, `reserved` the OR of the bytes that must be zero, `sigOk`
whether the signature verifies under the key that KEY_ID names. -/
structure Envelope where
  magic : Nat
  format : Nat
  env : Nat
  partition : Nat
  count : Nat
  version : Nat
  keyId : Nat
  reserved : Nat
  beamDigest : Digest
  bodyDigest : Digest
  bodyHash : Digest
  sigOk : Bool
  points : List (Nat × Int × Int)
  deriving DecidableEq, Repr


/-- A frame of a Beam or draft (09 Table 9.7): the fields of FADDR, LEN, FTYPE, OWNER, whether
the CRC matches, and the LEN payload bytes as a little-endian number. -/
structure BeamFrame where
  space : Nat
  kind : Nat
  index : Nat
  len : Nat
  ftype : Nat
  owner : Nat
  crcOk : Bool
  payload : Nat
  deriving DecidableEq, Repr

/-- A Beam image (09 Table 9.6).  `digest` is the SHA-384 of the header, `bodyHash` that of the
body that came, `sigOk` and `tagOk` whether the signature and the authentication tag of the
encrypted body verify, `reserved` the OR of the header bytes that must be zero. -/
structure BeamImg where
  magic : Nat
  format : Nat
  reserved : Nat
  version : Nat
  keyId : Nat
  bodyBytes : Nat
  digest : Digest
  bodyDigest : Digest
  bodyHash : Digest
  sigOk : Bool
  tagOk : Bool
  frames : List BeamFrame
  deriving DecidableEq, Repr

/-- A draft container (09 Table 9.14), as a Beam image is given. -/
structure DraftImg where
  magic : Nat
  format : Nat
  reserved : Nat
  partition : Nat
  slot : Nat
  version : Nat
  keyId : Nat
  name : List Word
  beamDigest : Digest
  bodyDigest : Digest
  bodyHash : Digest
  sigOk : Bool
  bytes : Nat
  frames : List BeamFrame
  deriving DecidableEq, Repr


/-- A task descriptor (10 Table 10.1); `reserved` is the OR of the reserved bytes. -/
structure TaskDesc where
  entry : Nat
  arg0 : Nat
  arg1 : Nat
  prio : Nat
  flags : Nat
  flow : Nat
  dep : Nat
  cq : Nat
  retryMax : Nat
  runMs : Nat
  nsucc : Nat
  succ : List Nat
  tag : Nat
  reserved : Nat
  deriving DecidableEq, Repr

/-- A hardware queue entry (10 Table 10.5). -/
structure QEntry where
  type : Nat
  flags : Nat
  src : Nat
  w0 : Nat
  w1 : Nat
  w2 : Nat
  deriving DecidableEq, Repr

/-- The faults of Table 10.7 that a Shuttle raises: three program faults and four hardware
faults. -/
inductive TaskCause where
  | illegal | prot | misalign | residue | parity | decode | ecc
  /-- No task's fault: a dispatch decision computed twice differed, the recomputed one (R256). -/
  | dispatch (again : Bool)
  deriving DecidableEq, Repr


/-- An entry of a program image's directory (11 Table 11.1). -/
structure SectEntry where
  type : Nat
  offset : Nat
  len : Nat
  load : Nat
  deriving DecidableEq, Repr

/-- A variable entry (11 Table 11.4).  `size` is the number of bytes that its TYPE spans, which
the type code fixes and the manual does not list. -/
structure VarEntry where
  name : Nat
  type : Nat
  kind : Nat
  task : Nat
  addr : Nat
  size : Nat
  deriving DecidableEq, Repr

/-- A cyclic task entry (11 Table 11.3). -/
structure CyclicEntry where
  period : Nat
  phase : Nat
  rel : Nat
  template : Nat
  inAddr : Nat
  outAddr : Nat
  inBytes : Nat
  outBytes : Nat
  retAddr : Nat
  retBytes : Nat
  deriving DecidableEq, Repr

/-- An image map entry (11 Table 11.5). -/
structure MapEntry where
  task : Nat
  dir : Nat
  kind : Nat
  safe : Nat
  src : Nat
  off : Nat
  len : Nat
  deriving DecidableEq, Repr

/-- A program image (11 R270): the header's fields and the sections' content.  `headOk` says
that MAGIC and FORMAT are right and every reserved field is 0, `sigOk` that SIGNATURE verifies
under the key of KEY_ID, `bodyOk` that BODY_DIGEST matches.  A window is its base page, its
attributes and its last page; a binding is an event input, a template index and EN.  `digest` is
the SHA-384 of the image. -/
structure Program where
  headOk : Bool
  sigOk : Bool
  bodyOk : Bool
  partition : Nat
  flags : Nat
  version : Nat
  keyId : Nat
  retainKib : Nat
  imageBytes : Nat
  beamDigest : Digest
  sections : List SectEntry
  code : List Byte
  data : List Byte
  vars : List VarEntry
  tasks : List CyclicEntry
  map : List MapEntry
  templates : List TaskDesc
  windows : List (Nat × Nat × Nat)
  binds : List (Nat × Nat × Bool)
  digest : Digest
  deriving DecidableEq, Repr


/-- A station's descriptor (12 Table 12.6). -/
structure StationDesc where
  vendor : Nat
  product : Nat
  caps : Nat
  outLen : Nat
  inLen : Nat
  fwdNs : Nat
  revNs : Nat
  deriving DecidableEq, Repr

/-- A segment as it returns (12 R298): the station, its STATUS word, whether its IN_TAG verifies
(R299) and its input bytes. -/
structure SegRx where
  station : Nat
  status : Nat
  tagOk : Bool
  input : List Byte
  deriving DecidableEq, Repr

/-- The mailbox slot of a frame that returns (12 R308). -/
structure MbxSlot where
  station : Nat
  seq : Nat
  kind : Nat
  payload : List Byte
  /-- The descriptor an IDENT response holds. -/
  desc : Option StationDesc
  deriving DecidableEq, Repr

/-- A cyclic or ECHO frame as it is received (12 R297, R316): whether its CRC holds, whether it is
an ECHO, FLAGS.TANDEM, REVERSE, HOP, MASTER_ID, CYCLE, the lease stamp, the segments and the
mailbox slot. -/
structure RxFrame where
  crcOk : Bool
  echo : Bool
  tandem : Bool
  reverse : Bool
  hop : Nat
  masterId : Nat
  cycle : Nat
  lease : Nat
  segs : List SegRx
  mailbox : MbxSlot
  deriving DecidableEq, Repr


/-- INPUT[i] of a matrix image (13 Table 13.2). -/
structure MatrixIn where
  discMs : Nat
  mode : Nat
  test : Nat
  deriving DecidableEq, Repr

/-- TERM[t] of a matrix image. -/
structure MatrixTerm where
  mask : Nat
  tmode : Nat
  timeMs : Nat
  deriving DecidableEq, Repr

/-- OUTPUT[o] of a matrix image. -/
structure MatrixOut where
  terms : Nat
  nb : Nat
  used : Bool
  test : Bool
  tpw : Nat
  deriving DecidableEq, Repr

/-- A matrix image (13 R322): its fields, its CRC field, whether the CRC holds, and the SHA-384
of its 1,024 bytes. -/
structure MatrixImg where
  version : Nat
  ovcS : Nat
  filterUs : Nat
  inputs : List MatrixIn
  terms : List MatrixTerm
  outputs : List MatrixOut
  crc : Nat
  crcOk : Bool
  digest : Digest
  deriving DecidableEq, Repr

/-- A matrix container (13 R323).  `headOk`: MAGIC, FORMAT, PARTITION, SLOT and the reserved
bytes as they must be; `beamZero`: BEAM_DIGEST all zero; `sigOk` and `bodyOk` as the signature
and BODY_DIGEST verify. -/
structure MatrixCont where
  headOk : Bool
  frameCount : Nat
  beamZero : Bool
  version : Nat
  keyId : Nat
  sigOk : Bool
  bodyOk : Bool
  image : MatrixImg
  deriving DecidableEq, Repr

/-- A Weft connection entry (13 Table 13.6). -/
structure WeftEntry where
  conn : Nat
  role : Nat
  transport : Nat
  slot : Nat
  deadline : Nat
  len : Nat
  auto : Bool
  deriving DecidableEq, Repr

/-- An interlock program image (13 Table 13.1).  Its code is the environment's: what a cycle
evaluates comes with SAFETY_CYCLE.  `digest` is the SHA-384 of the image. -/
structure SafProg where
  headOk : Bool
  sigOk : Bool
  bodyOk : Bool
  cycleUs : Nat
  version : Nat
  keyId : Nat
  matrixDigest : Digest
  digest : Digest
  conns : List WeftEntry
  deriving DecidableEq, Repr

/-- A Weft frame as it arrives (13 Table 13.5): whether its CRC holds and it came from the
connection's peer, and its fields. -/
structure WeftRx where
  crcOk : Bool
  conn : Nat
  seq : Nat
  safe : Bool
  restart : Bool
  data : List Byte
  deriving DecidableEq, Repr

/-- What the interlock program does in a safety cycle (13 R319): the permit word it evaluates to,
the phase it requests (0 none, 1 TEST, 2 NORMAL), the connections it acknowledges, and the data
of its producers: connection, SAFE and bytes. -/
structure SafCycle where
  permit : Nat
  request : Nat
  acks : List Nat
  produced : List (Nat × Bool × List Byte)
  deriving DecidableEq, Repr


/-- A Treadle in a warm-restart checkpoint (05 R139): its state and step, τ in sixteenths, its
pause causes and the latches, counts and qualification runs of its conditions. -/
structure CkptTreadle where
  state : Nat
  step : Nat
  tau : Nat
  causes : Nat
  conds : List Nat
  deriving DecidableEq, Repr

/-- A generator in a checkpoint (05 R139): its number, ENABLE, the values of its registers
PG_TARGET, PG_VMAX, PG_WIN M1 and M2, PG_SP, PG_SP_DOT and the state bits DONE and DWELL, and
its windows. -/
structure CkptGen where
  gen : Nat
  enabled : Bool
  values : List Nat
  body : Gen
  deriving DecidableEq, Repr

/-- A loop cell in a checkpoint (17 R420): its number, ENABLE, MODE and active bank. -/
structure CkptCell where
  cell : Nat
  enabled : Bool
  mode : Nat
  bank : Nat
  deriving DecidableEq, Repr

/-- An axis in a checkpoint (06 R168): its number, whether it is enabled, its commanded position
and HOMED. -/
structure CkptAxis where
  axis : Nat
  enabled : Bool
  pos : Int
  homed : Nat
  deriving DecidableEq, Repr

/-- A partition in a checkpoint (17 R420): the program state and VERSION, the class P timer
records by address, the Treadle with its generators, the loop cells, the axes and the words of
RJ_STATE. -/
structure CkptPart where
  part : Nat
  state : Nat
  version : Nat
  timers : List (Nat × List Byte)
  treadle : CkptTreadle
  gens : List CkptGen
  cells : List CkptCell
  axes : List CkptAxis
  rejoin : List Nat
  deriving DecidableEq, Repr

/-- A warm-restart checkpoint (17 R420): SEQ, K, the compensated instant of K, whether the Warp was on the TAI epoch, the first
16 bytes of BEAM_DIGEST and of the booted manifest's SHA-384, the active draft slot of every
partition, each ring's cycle number, each stream's ST_CONSUMED, the partitions, and the odometers
as register field, instance and value. -/
structure Checkpoint where
  seq : Nat
  k : Instant
  comp : Instant
  tai : Bool
  beam : Nat
  manifest : Nat
  slots : List Nat
  cycles : List Nat
  consumed : List Nat
  parts : List CkptPart
  odo : List (Nat × Nat × Nat)
  /-- Writes of the odometer area before it, which say which of the two is later (17 R421). -/
  odoWrites : Nat
  deriving DecidableEq, Repr

/-- A loop cell in a Tandem snapshot (14 R354): CS, the level, the dwell memory, the model's
state and the history of u. -/
structure SnapCell where
  cell : Nat
  cs : Int
  level : Nat
  move : Option (Instant × Bool)
  yms : Int
  warmup : Nat
  uHist : List Int
  deriving DecidableEq, Repr

/-- A snapshot of the covered partitions (14 R354): what the warm-restart checkpoint holds of
them, their loop cells, and the released copies of their cyclic tasks by 8p + k. -/
structure Snapshot where
  parts : List CkptPart
  cells : List SnapCell
  tasks : List (Nat × List Byte × List Byte)
  deriving DecidableEq, Repr

/-- What every Contrail frame carries (14 Table 14.2): whether its CRC holds, its SEQ, and T, the
stamped instant of its SOF at the sender. -/
structure Contrail where
  crcOk : Bool
  seq : Word
  sent : Instant
  deriving DecidableEq, Repr


/-- An authority record (15 Table 15.4): whether MAGIC, FORMAT and the reserved fields are right,
its fields, whether SIGNATURE verifies under the key of KEY_ID, the public key of the payload,
and, for RING_KEY, whether the GCM tag verifies and the key it unwraps to. -/
structure AuthRec where
  formOk : Bool
  op : Nat
  target : Nat
  parts : Nat
  value : Nat
  keyId : Nat
  device : Nat
  sigOk : Bool
  key : List Byte
  tagOk : Bool
  ringKey : BitVec 256
  deriving DecidableEq, Repr

/-- A debug response (15 Table 15.7): whether MAGIC, FORMAT and the reserved fields are right, its
fields, and whether SIGNATURE verifies. -/
structure DebugResp where
  formOk : Bool
  level : Nat
  durationS : Nat
  keyId : Nat
  serial : Nat
  nonce : BitVec 256
  sigOk : Bool
  deriving DecidableEq, Repr

/-- A component of a bundle (15 Tables 15.10, 15.11): TYPE, VERSION and the SHA-384 of its plain
form. -/
structure BundleComp where
  type : Nat
  version : Nat
  digest : Digest
  deriving DecidableEq, Repr

/-- A bundle in a slot (15 Table 15.10): the SHA-384 of its manifest, FW_SVN, BEAM_FLOOR,
BUNDLE_VERSION, SLOT_BYTES and its components. -/
structure Bundle where
  digest : Digest
  svn : Nat
  beamFloor : Nat
  version : Nat
  bytes : Nat
  comps : List BundleComp
  deriving DecidableEq, Repr

/-- An operation of a delta container (15 R388). -/
structure DeltaOp where
  op : Nat
  len : Nat
  arg : Nat
  deriving DecidableEq, Repr

/-- A delta container (15 Table 15.12): whether MAGIC, FORMAT and the reserved fields are right,
its fields and operations, whether SIGNATURE verifies under the key of KEY_ID, and whether
BODY_DIGEST matches. -/
structure Delta where
  formOk : Bool
  kind : Nat
  version : Nat
  keyId : Nat
  sigOk : Bool
  ops : List DeltaOp
  targetBytes : Nat
  base : Digest
  target : Digest
  bodyOk : Bool
  deriving DecidableEq, Repr


/-- A register whose write selects the power state again (16 R400): PWR_TOL_DEV, PWR_PART_TOL of
a partition, and PWR_CTRL. -/
inductive TolReg where
  | device
  | part (p : Fin 16)
  | ctrl
  deriving DecidableEq, Repr


/-- What the boot of a device meets (17 R417, R418): step 1's supplies and REFCLK; step 2's
PUF, the key-block entries that do not match, the floors whose copies both failed (class of 15
Table 15.5 and partition), ZENITH_FW's verification in slots A and B, and of a trial slot its GCM
tags and its components' own digests and signatures; Steward's verification; DRAM training with
its data rate in MT/s and the populated GiB; the checkpoint slots and ring reservations whose
check fails; the Beam as read, and as read again; the items that neither flash device gives:
kind (0 step table, 1 segments, 2 envelope, 3 program, 4 draft) and number; the bundle's SAFEPROG
component; the island firmware's verification and the matrix image's read-back; the converters'
coefficients; and the TAI instant, where IEEE 1588 time was acquired within SYNC_WAIT_MS. -/
structure BootRec where
  ready : Bool
  pufOk : Bool
  absent : List Nat
  lost : List (Nat × Nat)
  fwOk : Bool × Bool
  gcmOk : Bool
  compsOk : Bool
  stewardOk : Bool
  dramOk : Bool
  rate : Nat
  gib : Nat
  badCkpts : List Nat
  badRings : List Nat
  beam : Option BeamImg
  beamAgain : Option BeamImg
  unread : List (Nat × Nat)
  safeprog : Option SafProg
  islandOk : Bool
  matrixOk : Bool
  cals : List (Nat × Int)
  tai : Option Instant
  deriving DecidableEq, Repr

/-- An error that a scrubber meets (01 R27, Table 1.4): the memory (0 SRAM, 1 MRAM, 2 DRAM), its
address, whether it is a double-bit error, and the partitions that Table 1.4 then sends to STOP. -/
structure ScrubHit where
  mem : Fin 3
  addr : Nat
  double : Bool
  stops : List (Fin 16)
  deriving DecidableEq, Repr

/-- What a read of the core regulator gives (19 R460): READ_VOUT in mV, READ_IOUT in mA,
READ_TEMPERATURE_1, STATUS_WORD; and the highest of the die's sensors at that time, in sixteenths
of a degree (19 R471). -/
structure PmbRead where
  mv : BitVec 12
  ma : BitVec 16
  temp : BitVec 16
  status : BitVec 16
  tj : BitVec 16
  deriving DecidableEq, Repr


/-- A command of the block. -/
inductive Instr where
  /-- `REGISTER_WRITE`. A host write to BAR0 (00 R16). -/
  | registerWrite (t : Instant) (r : Requester) (offset : Fin 268435456) (value : Word) (byteEnables : Fin 16)
  /-- `LO_READ_LATCH`. A read of a _LO word (00 R15). -/
  | loReadLatch (t : Instant) (r : Requester) (offset : Fin 268435456)
  /-- `HI_WRITE_COMMIT`. A write of a _HI word (00 R15). -/
  | hiWriteCommit (t : Instant) (r : Requester) (offset : Fin 268435456) (value : Word)
  /-- `RC_READ`. A read of an RC field (00 R16). -/
  | rcRead (t : Instant) (offset : Fin 268435456)
  /-- `SLEW_NS_WRITE`. A write of SLEW_NS (02 R37). -/
  | slewNsWrite (t : Instant) (offset : Word)
  /-- `SLEW_END`. The remaining slew offset reaches zero (02 R37). -/
  | slewEnd (t : Instant)
  /-- `RATE_ADJ_WRITE`. A write of RATE_ADJ (02 R34). -/
  | rateAdjWrite (t : Instant) (rate : Word)
  /-- `STEP_GO`. A write of STEP_CTRL with GO (02 R38). -/
  | stepGo (t : Instant) (value : Word)
  /-- `REF_WINDOW_END`. A reference window ends with n monitor cycles counted (02 R41). -/
  | refWindowEnd (t : Instant) (n : Word)
  /-- `WARP_WINDOW_END`. A Warp-clock window ends with m monitor cycles counted (02 R41). -/
  | warpWindowEnd (t : Instant) (m : Word)
  /-- `REF_LOST`. REFCLK shows no edge for 100 ns (02 R41). -/
  | refLost (t : Instant)
  /-- `HOLDOVER_EXIT`. REFCLK has been good for RELOCK_MS (02 R43). -/
  | holdoverExit (t : Instant)
  /-- `WARP_WRAP`. The nanosecond count wraps to zero (00 R12, 02 R46). -/
  | warpWrap (t : Instant)
  /-- `PPS_OUT_RISE`. An instant of the PPS grid (02 R50). -/
  | ppsOutRise (t : Instant)
  /-- `PPS_OUT_FALL`. The end of a PPS_OUT pulse (02 R50). -/
  | ppsOutFall (t : Instant)
  /-- `STAMP_INPUT_EDGE`. An edge of PPS_IN or SYNC_IN (02 R51). -/
  | stampInputEdge (t : Instant) (pin : StampInput) (rising : Bool)
  /-- `STAMP_INPUT_QUALIFIED`. A pulse has lasted MIN_NS (02 R51). -/
  | stampInputQualified (t : Instant) (pin : StampInput)
  /-- `SYNC_OUT_ARM`. A write of SYNC_OUT_CFG; armFirst is the arbiter's order where the instant and the admission coincide (02 R52). -/
  | syncOutArm (t : Instant) (value : Word) (armFirst : Bool)
  /-- `SYNC_OUT_PULSE`. The instant SYNC_OUT_AT (02 R52). -/
  | syncOutPulse (t : Instant)
  /-- `SLACK_WINDOW_END`. A slack window ends (02 R54). -/
  | slackWindowEnd (t : Instant)
  /-- `AVS_TIMEOUT`. A regulator transaction is not acknowledged within 100 us (02 R58). -/
  | avsTimeout (t : Instant)
  /-- `AVS_MODE_WRITE`. A write of AVS_CTRL (02 R58). -/
  | avsModeWrite (t : Instant) (value : Word)
  /-- `LC_ENABLE`. A write of LC_CTRL with ENABLE = 1 (03 R66, R83). -/
  | lcEnable (t : Instant) (n : Fin 1024) (value : Word)
  /-- `LC_DISABLE`. A write of LC_CTRL with ENABLE = 0 (03 R75). -/
  | lcDisable (t : Instant) (n : Fin 1024) (value : Word)
  /-- `SWAP`. A write of LC_CTRL.SWAP (03 R82). -/
  | swap (t : Instant) (n : Fin 1024)
  /-- `COPY`. A write of LC_CTRL.COPY (03 R79). -/
  | copy (t : Instant) (n : Fin 1024)
  /-- `BANK_WINDOW_WRITE`. A write of word k of the bank window (03 R78). -/
  | bankWindowWrite (t : Instant) (n : Fin 1024) (k : Fin 24) (value : Word)
  /-- `C_STATE_WRITE`. A commit of C_STATE by a write of C_STATE_HI (03 R63). -/
  | cStateWrite (t : Instant) (n : Fin 1024) (value : BitVec 48)
  /-- `LC_SNAPSHOT_READ`. A read of SP (03 R68). -/
  | lcSnapshotRead (t : Instant) (n : Fin 1024)
  /-- `LOOP_STROBE`. A strobe instant of a loop cell (03 R64). -/
  | loopStrobe (t : Instant) (n : Fin 1024)
  /-- `LOOP_RESULT_READY`. The result of an evaluation is ready, or a late one ends; arith and parity: a residue or parity check failed in it (02 R53, 04 R107). -/
  | loopResultReady (t : Instant) (n : Fin 1024) (arith parity : Bool)
  /-- `LOOP_RELEASE`. A release instant of a loop cell; resultFirst is the arbiter's order where the result becomes ready at that instant (03 R68). -/
  | loopRelease (t : Instant) (n : Fin 1024) (resultFirst : Bool)
  /-- `COMPARATOR_TRIP`. A comparator of an AIN's pair trips (03 R86). -/
  | comparatorTrip (t : Instant) (ain : Fin 96) (rise : Bool)
  /-- `EVENT_HOLD_END`. A dwell or blanking hold of an event-mode cell ends (03 R87). -/
  | eventHoldEnd (t : Instant) (n : Fin 1024)
  /-- `CONVERSION_DONE`. An AIN conversion ends; spareRaw is the spare's conversion of the same sample, used during a cross-check (04 R91, R110). -/
  | conversionDone (t : Instant) (ain : Fin 96) (raw spareRaw : BitVec 16)
  /-- `LOOP_STALL`. The stall watchdog of a loop cell expires (04 R108). -/
  | loopStall (t : Instant) (n : Fin 1024)
  /-- `FAULT_CLEAR`. A write of DIAG.FAULT_CLEAR (04 R101). -/
  | faultClear (t : Instant) (n : Fin 1024)
  /-- `PLAUS_CLEAR`. A write of DIAG.PLAUS_CLEAR (04 R104). -/
  | plausClear (t : Instant) (n : Fin 1024)
  /-- `ROTATION_SLOT`. A rotation slot begins (04 R110). -/
  | rotationSlot (t : Instant)
  /-- `ROTATION_CONVERSION`. A conversion the rotation makes of its own (04 R110). -/
  | rotationConversion (t : Instant) (raw spareRaw : BitVec 16)
  /-- `CALIBRATION_DONE`. The 2 ms calibration of the freed converter ends (04 R110, R111). -/
  | calibrationDone (t : Instant) (gain : BitVec 16) (offs : BitVec 16)
  /-- `CAL_REQUEST`. A write of ANA_CAL_REQ with GO (04 R112). -/
  | calRequest (t : Instant) (conv : Fin 25)
  /-- `ST_GO`. A write of DIAG.ST_GO (04 R113). -/
  | stGo (t : Instant) (n : Fin 1024)
  /-- `SELF_TEST_BEGIN`. A queued self-test starts (04 R113). -/
  | selfTestBegin (t : Instant) (n : Fin 1024)
  /-- `SELF_TEST_DONE`. A self-test ends; fail is its first failing check, 0 for a pass (04 R113). -/
  | selfTestDone (t : Instant) (n : Fin 1024) (fail : Fin 5)
  /-- `ST_CANCEL`. A write of DIAG.ST_CANCEL (04 R113). -/
  | stCancel (t : Instant) (n : Fin 1024)
  /-- `LOAD_TABLE`. The LOAD_TABLE command: a step-table image for a partition (05 R119, R120). -/
  | loadTable (t : Instant) (p : Fin 16) (img : StepTable) (room : Bool)
  /-- `TR_START`. A write of TR_CTRL with START (05 R134). -/
  | trStart (t : Instant) (p : Fin 16) (value : Word)
  /-- `TR_PAUSE`. A write of TR_CTRL with PAUSE (05 R134). -/
  | trPause (t : Instant) (p : Fin 16) (value : Word)
  /-- `TR_RESUME`. A write of TR_CTRL with RESUME (05 R134). -/
  | trResume (t : Instant) (p : Fin 16) (value : Word)
  /-- `TR_ABORT`. A write of TR_CTRL with ABORT (05 R134, R137). -/
  | trAbort (t : Instant) (p : Fin 16) (value : Word)
  /-- `TR_CLEAR_FAULT`. A write of TR_CTRL with CLEAR_FAULT (05 R134, R138). -/
  | trClearFault (t : Instant) (p : Fin 16) (value : Word)
  /-- `TREADLE_TICK`. A condition tick of a partition's Treadle (05 R121). -/
  | treadleTick (t : Instant) (p : Fin 16)
  /-- `TIME_DECISION`. The decision instant of a TIME condition (05 R121). -/
  | timeDecision (t : Instant) (p : Fin 16)
  /-- `STEP_BOUNDARY`. The boundary of a decided step (05 R123). -/
  | stepBoundary (t : Instant) (p : Fin 16)
  /-- `STAGING_DONE`. A staging finishes (05 R124 to R127). -/
  | stagingDone (t : Instant) (p : Fin 16)
  /-- `STEP_COMMIT`. The scheduled commit instant (05 R126, R130). -/
  | stepCommit (t : Instant) (p : Fin 16)
  /-- `VALVE_CHANGE`. The instant of a delayed VALVE change (05 R130, R131). -/
  | valveChange (t : Instant) (p : Fin 16)
  /-- `TREADLE_FAULT`. The duplicated step state machine of a Treadle disagrees (05 R138). -/
  | treadleFault (t : Instant) (p : Fin 16)
  /-- `PG_ENABLE`. A write of PG_CTRL (05 R140, R145). -/
  | pgEnable (t : Instant) (n : Fin 256) (value : Word)
  /-- `PG_UPDATE`. A strobe of a profile generator (05 R140). -/
  | pgUpdate (t : Instant) (n : Fin 256)
  /-- `PG_HOST_WRITE`. A host write of PG_TARGET, PG_VMAX or PG_WIN (05 R144). -/
  | pgHostWrite (t : Instant) (n : Fin 256) (r : GenReg) (value : Word)
  /-- `AX_ENABLE`. A write of AX_CTRL with ENABLE = 1 (06 R165). -/
  | axEnable (t : Instant) (n : Fin 128) (value : Word)
  /-- `AX_DISABLE`. A write of AX_CTRL with ENABLE = 0 (06 R148). -/
  | axDisable (t : Instant) (n : Fin 128) (value : Word)
  /-- `AX_GO`. A write of AX_CTRL with GO (06 R151). -/
  | axGo (t : Instant) (n : Fin 128)
  /-- `AX_HALT`. A write of AX_CTRL with HALT (06 R158). -/
  | axHalt (t : Instant) (n : Fin 128)
  /-- `AX_HOME`. A write of AX_CTRL with HOME (06 R161). -/
  | axHome (t : Instant) (n : Fin 128)
  /-- `AX_CLEAR`. A write of AX_CTRL with CLEAR (06 R166). -/
  | axClear (t : Instant) (n : Fin 128)
  /-- `LOAD_SEGMENTS`. The LOAD_SEGMENTS command: a segment container for an axis (06 R150). -/
  | loadSegments (t : Instant) (p : Fin 16) (img : SegImage) (room : Bool)
  /-- `AX_STROBE`. A strobe instant of an axis; runAhead: the segment in force carries a run-ahead fault (06 R151, R153). -/
  | axStrobe (t : Instant) (n : Fin 128) (runAhead : Bool)
  /-- `AX_RESULT_READY`. The result of an evaluation is ready, or a late one ends; arith and parity: a residue or parity check failed in it (06 R147, R166). -/
  | axResultReady (t : Instant) (n : Fin 128) (arith parity : Bool)
  /-- `AX_RELEASE`. A release instant of an axis; resultFirst is the arbiter's order where the result becomes ready at that instant (06 R154). -/
  | axRelease (t : Instant) (n : Fin 128) (resultFirst : Bool)
  /-- `STEP_PULSE`. A scheduled step pulse rises (06 R154). -/
  | stepPulse (t : Instant) (n : Fin 128)
  /-- `AX_STALL`. The stall watchdog of an axis expires (06 R166). -/
  | axStall (t : Instant) (n : Fin 128)
  /-- `AXG_ARM`. A write of AXG_CTRL with ARM (06 R152). -/
  | axgArm (t : Instant) (g : Fin 4) (value : Word)
  /-- `AXG_CANCEL`. A write of AXG_CTRL with CANCEL (06 Table 6.8). -/
  | axgCancel (t : Instant) (g : Fin 4) (value : Word)
  /-- `GROUP_START`. An armed group reaches its start instant (06 R152). -/
  | groupStart (t : Instant) (g : Fin 4)
  /-- `LIMIT_EDGE`. An edge of a hard limit switch of an axis (06 R160). -/
  | limitEdge (t : Instant) (n : Fin 128) (positive : Bool)
  /-- `HOME_SWITCH_EDGE`. An edge of the home switch of an axis (06 R162). -/
  | homeSwitchEdge (t : Instant) (n : Fin 128)
  /-- `BURST_QUALIFIED`. HOME_DEB_NS passes with no further edge of the home switch (06 R162). -/
  | burstQualified (t : Instant) (n : Fin 128)
  /-- `INDEX_EDGE`. An edge of the encoder index of an axis (06 R163). -/
  | indexEdge (t : Instant) (n : Fin 128)
  /-- `TAP_SAMPLE`. A sample instant of a tap: its instant, and the data word of an event route's event (07 R172). -/
  | tapSample (t : Instant) (n : Fin 8192) (at_ : Instant) (data : Word)
  /-- `BLOCK_SEAL`. The open block of a stream has been open for SEAL_MS (07 R180). -/
  | blockSeal (t : Instant) (k : Fin 17)
  /-- `SKEIN_CHECKPOINT`. A whole second: every stream seals and a checkpoint is queued (07 R182). -/
  | skeinCheckpoint (t : Instant)
  /-- `CHECKPOINT_SIGNED`. Zenith finishes the oldest checkpoint signature of a stream (07 R182). -/
  | checkpointSigned (t : Instant) (k : Fin 17)
  /-- `BLOCK_WRITE_DONE`. A block's DRAM write has been read back (07 R186). -/
  | blockWriteDone (t : Instant) (k : Fin 17) (seq : BitVec 64) (good : Bool)
  /-- `EXPORT_DONE`. The export in progress of a stream ends (07 R187). -/
  | exportDone (t : Instant) (k : Fin 17)
  /-- `ST_CONSUMED_WRITE`. A write of ST_CONSUMED (07 R187). -/
  | stConsumedWrite (t : Instant) (k : Fin 17) (seq : BitVec 64)
  /-- `FLUSH`. A write of ST_CTRL.FLUSH (07 R180). -/
  | flush (t : Instant) (k : Fin 17)
  /-- `RESEND_BLOCK`. The RESEND_BLOCK command (07 R188, 18 R443). -/
  | resendBlock (t : Instant) (k : Fin 17) (seq : BitVec 64)
  /-- `TS_ARM`. A write of TS_CTRL.ARM (08 R197). -/
  | tsArm (t : Instant) (n : Fin 32)
  /-- `TS_DISARM`. A write of TS_CTRL.DISARM (08 R197). -/
  | tsDisarm (t : Instant) (n : Fin 32)
  /-- `TS_SAMPLE`. A sample instant of a sequencer (08 R195). -/
  | tsSample (t : Instant) (n : Fin 32)
  /-- `CAPTURE_READY`. PRE_NS has elapsed since a set entered FILLING (08 R200). -/
  | captureReady (t : Instant) (n : Fin 32)
  /-- `FORCE`. A write of CS_CTRL.FORCE (08 R202). -/
  | force (t : Instant) (n : Fin 32)
  /-- `AUTO_FIRE`. AUTO_US has passed since a set entered READY (08 R202). -/
  | autoFire (t : Instant) (n : Fin 32)
  /-- `CAPTURE_END`. T + POST_NS is reached (08 R200). -/
  | captureEnd (t : Instant) (n : Fin 32)
  /-- `CAPTURE_SLOT_DONE`. The slot of a set in WRITING is complete (08 R206, R207). -/
  | captureSlotDone (t : Instant) (n : Fin 32)
  /-- `CS_CONSUMED_WRITE`. A write of CS_CONSUMED (08 R201). -/
  | csConsumedWrite (t : Instant) (n : Fin 32) (seq : BitVec 64)
  /-- `CHUNK_ACK`. A write of CS_CHUNK_ACK (08 R205). -/
  | chunkAck (t : Instant) (n : Fin 32) (count : BitVec 13)
  /-- `LOAD_ENVELOPE`. The LOAD_ENVELOPE command (08 R208, 18 R443). -/
  | loadEnvelope (t : Instant) (p : Fin 16) (img : Envelope) (room : Bool)
  /-- `MU_ARM`. A write of MU_CTRL.ARM (08 R209). -/
  | muArm (t : Instant) (n : Fin 64)
  /-- `MU_DISARM`. A write of MU_CTRL.DISARM (08 R209). -/
  | muDisarm (t : Instant) (n : Fin 64)
  /-- `POINT_FETCH_DONE`. The first 128 points of a host ARM are fetched (08 R209). -/
  | pointFetchDone (t : Instant) (n : Fin 64)
  /-- `MU_SAMPLE`. A grid sample of a mask unit; have_ is how many points of the envelope its buffer holds (08 R210). -/
  | muSample (t : Instant) (n : Fin 64) (have_ : Nat)
  /-- `FIO_INPUT_EDGE`. A raw edge on an FIO pin to the given level (09 R476). -/
  | fioInputEdge (t : Instant) (pin : Fin 192) (level : Bool)
  /-- `FILTER_TAKE`. A level has held for FILTER_NS (09 R476). -/
  | filterTake (t : Instant) (pin : Fin 192)
  /-- `LE_INPUT_CHANGE`. A change of a net, which took effect at its source at `since`, reaches a logic element (09 R219). -/
  | leInputChange (t : Instant) (n : Fin 16384) (since : Instant)
  /-- `LE_TIMER_EXPIRY`. The timer of a logic element runs out (09 R219). -/
  | leTimerExpiry (t : Instant) (n : Fin 16384)
  /-- `EVENT_ROUTE_EVENT`. An event emitted on an event route by its source (09 R217). -/
  | eventRouteEvent (t : Instant) (er : Fin 8192) (data : Word)
  /-- `ROUTE_STALL`. The stall watchdog of a logic element (kind 0), value route (1) or event route (2) expires (09 R215). -/
  | routeStall (t : Instant) (kind : Fin 3) (id : Fin 16384)
  /-- `CONFIG_SCAN`. A scan of the planes finds the frames of the given FADDRs failing; the flag says that the DRAM copy fails too (09 R233). -/
  | configScan (t : Instant) (bad : List (Nat × Bool))
  /-- `CONFIG_FIELD_WRITE`. A host write to a configuration field at a BAR0 offset (09 R234). -/
  | configFieldWrite (t : Instant) (offset : Fin 268435456) (value : Word)
  /-- `EDIT_COMMIT`. A write of LP_CTRL with EDIT_COMMIT (09 R234). -/
  | editCommit (t : Instant) (p : Fin 16)
  /-- `EDIT_DISCARD`. A write of LP_CTRL with EDIT_DISCARD (09 R234). -/
  | editDiscard (t : Instant) (p : Fin 16)
  /-- `PLANE_FLIP`. The flip instant of a partition's records (09 R231, R232). -/
  | planeFlip (t : Instant) (p : Fin 16)
  /-- `LOAD_DRAFT`. The LOAD_DRAFT command (09 R237). -/
  | loadDraft (t : Instant) (p : Fin 16) (img : DraftImg) (room : Bool)
  /-- `APPLY`. A write of LP_CTRL with APPLY (09 R238). -/
  | apply (t : Instant) (p : Fin 16) (value : Word)
  /-- `APPLY_STAGED`. Phase 1 of an application has written and read back its words (09 R239). -/
  | applyStaged (t : Instant) (p : Fin 16) (verified : Bool)
  /-- `JOURNAL_WRITE_DONE`. The journal record reads back, good or not (09 R239). -/
  | journalWriteDone (t : Instant) (p : Fin 16) (good : Bool)
  /-- `QSUB`. The task on a Shuttle submits the descriptor at addr, whose 64 bytes are given as a little-endian number; qtmo is its QTMO (10 R251, R258). -/
  | qsub (t : Instant) (sh : Fin 48) (addr : Word) (desc : BitVec 512) (nowait : Bool) (qtmo : Word)
  /-- `QCAN`. The task on a Shuttle cancels a task (10 R260). -/
  | qcan (t : Instant) (sh : Fin 48) (handle : Word)
  /-- `QPUSH`. The task on a Shuttle pushes the entry at addr (10 R268). -/
  | qpush (t : Instant) (sh : Fin 48) (h : Fin 128) (addr : Word) (e : QEntry) (nowait : Bool) (qtmo : Word)
  /-- `QPOP`. The task on a Shuttle pops an entry into the buffer at addr (10 R268). -/
  | qpop (t : Instant) (sh : Fin 48) (h : Fin 128) (addr : Word) (nowait : Bool) (qtmo : Word)
  /-- `QDONE`. The task on a Shuttle completes with a code (10 R268). -/
  | qdone (t : Instant) (sh : Fin 48) (code : Word)
  /-- `QYIELD`. The task on a Shuttle yields (10 R268). -/
  | qyield (t : Instant) (sh : Fin 48)
  /-- `QREL`. The task on a Shuttle releases a flow (10 R264, R268). -/
  | qrel (t : Instant) (sh : Fin 48) (flow : Fin 64) (drop : Bool)
  /-- `QSTAT`. The task on a Shuttle reads a selector (10 R268). -/
  | qstat (t : Instant) (sh : Fin 48) (sel : Word)
  /-- `TASK_FAULT`. A fault in the task on a Shuttle (10 R263). -/
  | taskFault (t : Instant) (sh : Fin 48) (cause : TaskCause) (detail : Word)
  /-- `RUNTIME_EXPIRY`. RUN_MS of running time of the task on a Shuttle passes (10 Table 10.7). -/
  | runtimeExpiry (t : Instant) (sh : Fin 48)
  /-- `WAIT_TIMEOUT`. The deadline of a parked task passes (10 R258). -/
  | waitTimeout (t : Instant) (slot : Fin 4096)
  /-- `SELF_CHECK_DONE`. A Shuttle's self-check ends (10 R265). -/
  | selfCheckDone (t : Instant) (sh : Fin 48) (pass : Bool)
  /-- `RESTORE`. A write of SH_CTRL.RESTORE (10 R265). -/
  | restore (t : Instant) (sh : Fin 48)
  /-- `RELEASE`. A write of RELEASE to FLOW_STATE (10 R264). -/
  | release (t : Instant) (f : Fin 1024) (drop : Bool)
  /-- `SUBMIT_TASK`. The SUBMIT_TASK command with its 64-byte descriptor (10 R251, 18 R443). -/
  | submitTask (t : Instant) (p : Fin 16) (desc : BitVec 512)
  /-- `CANCEL_TASK`. The CANCEL_TASK command (10 R260, 18 R443). -/
  | cancelTask (t : Instant) (p : Fin 16) (handle : Word)
  /-- `HQ_PUSH`. The HQ_PUSH command (18 R443). -/
  | hqPush (t : Instant) (p : Fin 16) (h : Fin 128) (es : List QEntry)
  /-- `HQ_POP`. The HQ_POP command (18 R443). -/
  | hqPop (t : Instant) (p : Fin 16) (h : Fin 128) (max : Word)
  /-- `LOAD_PROGRAM`. The LOAD_PROGRAM command (11 R271). -/
  | loadProgram (t : Instant) (p : Fin 16) (img : Program) (room : Bool)
  /-- `HOST_INPUT`. The HOST_INPUT command (11 R273, 18 R443). -/
  | hostInput (t : Instant) (p : Fin 16) (task : Word) (data : List Byte)
  /-- `SCAN_LATCH`. A latch instant of cyclic task `k` (11 R273). -/
  | scanLatch (t : Instant) (p : Fin 16) (k : Fin 8)
  /-- `SCAN_CLOSE`. The end of the copy to the released copies (11 R274). -/
  | scanClose (t : Instant) (p : Fin 16) (k : Fin 8)
  /-- `SCAN_RELEASE`. The release instant R of a scan (11 R275, R276). -/
  | scanRelease (t : Instant) (p : Fin 16) (k : Fin 8)
  /-- `CP_START`. A write of `value` with START to CP_CTRL (11 R280). -/
  | cpStart (t : Instant) (p : Fin 16) (value : Word)
  /-- `CP_HOLD`. A write of `value` with HOLD to CP_CTRL (11 R279). -/
  | cpHold (t : Instant) (p : Fin 16) (value : Word)
  /-- `CP_RESUME`. A write of `value` with RESUME to CP_CTRL (11 R279). -/
  | cpResume (t : Instant) (p : Fin 16) (value : Word)
  /-- `CP_STOP`. A write of `value` with STOP to CP_CTRL (11 R278). -/
  | cpStop (t : Instant) (p : Fin 16) (value : Word)
  /-- `RETAIN_CHECKPOINT`. The checkpoint commit of a whole second (11 R285). -/
  | retainCheckpoint (t : Instant)
  /-- `POWER_FAIL`. An edge of POWER_FAIL_N: falling with `low`, else rising, which changes the pin's level alone (11 R285). -/
  | powerFail (t : Instant) (low : Bool)
  /-- `RETAIN_COMMIT_DONE`. A retain commit has been read back, its CRC good or not (11 R285). -/
  | retainCommitDone (t : Instant) (p : Fin 16) (good : Bool)
  /-- `RJ_STATE_WRITE`. A host write of RJ_STATE word `w` (11 R290). -/
  | rjStateWrite (t : Instant) (p : Fin 16) (w : Fin 16) (value : Word)
  /-- `RING_EN_WRITE`. A write of RING_CTRL that sets or clears EN (12 R312). -/
  | ringEnWrite (t : Instant) (r : Fin 4) (value : Word)
  /-- `INSERTION_LOCKED`. Both receivers of an inserting ring lock (12 R314). -/
  | insertionLocked (t : Instant) (r : Fin 4)
  /-- `INSERTION_TIMEOUT`. An inserting ring has not locked in 10 ms (12 R314). -/
  | insertionTimeout (t : Instant) (r : Fin 4)
  /-- `DISCOVER`. A write of RING_CTRL with DISCOVER (12 R306). -/
  | discover (t : Instant) (r : Fin 4)
  /-- `ENUM_RETURN`. The ENUM frame returns with the stations' descriptors (12 R306). -/
  | enumReturn (t : Instant) (r : Fin 4) (descs : List StationDesc)
  /-- `DELAY_RETURN`. A pass of the DELAY frame returns: the master's stamps and the stations' (12 R304). -/
  | delayReturn (t : Instant) (r : Fin 4) (reverse : Bool) (tx rx : Instant) (times : List Instant)
  /-- `DISC_FAIL`. The ENUM frame has not returned in 10 ms (12 R306). -/
  | discFail (t : Instant) (r : Fin 4)
  /-- `RING_START`. A write of RING_CTRL with START (12 R314). -/
  | ringStart (t : Instant) (r : Fin 4)
  /-- `RING_STOP`. A write of RING_CTRL with STOP (12 R314). -/
  | ringStop (t : Instant) (r : Fin 4)
  /-- `CYCLE_START`. A cycle start, the ring's output release (12 R295). -/
  | cycleStart (t : Instant) (r : Fin 4)
  /-- `RECEPTION_END`. The EOF of a frame on the F or R receive lane (12 R301). -/
  | receptionEnd (t : Instant) (r : Fin 4) (onF : Bool) (frame : RxFrame)
  /-- `RX_LIMIT`. C plus RX_LIMIT_NS; linkLost says that the R lane lost its link in the cycle (12 R301, R310). -/
  | rxLimit (t : Instant) (r : Fin 4) (linkLost : Bool)
  /-- `MBX_GO`. A write of MBX_CTRL with GO (12 R308). -/
  | mbxGo (t : Instant) (r : Fin 4) (value : Word)
  /-- `MBX_TMO`. MBX_TMO_MS passes for a mailbox request (12 R308, R309). -/
  | mbxTmo (t : Instant) (r : Fin 4)
  /-- `RESERVATION_WRITTEN`. A raised cycle reservation is read back (12 R315). -/
  | reservationWritten (t : Instant) (r : Fin 4) (good : Bool)
  /-- `SAFETY_CYCLE`. A safety cycle start (13 R319). -/
  | safetyCycle (t : Instant) (c : SafCycle)
  /-- `PERMIT_WORD`. A word of the permit link: its code valid and its sequence advancing, or not (13 R324). -/
  | permitWord (t : Instant) (valid : Bool)
  /-- `LINK_SILENT`. 50 us without a valid permit word (13 R324). -/
  | linkSilent (t : Instant)
  /-- `DIE_TICK`. A 10 us tick of the safety die (13 R320). -/
  | dieTick (t : Instant)
  /-- `SIN_CHANNEL_CHANGE`. A filtered change of a safety input's channel (13 R328). -/
  | sinChannelChange (t : Instant) (pair : Fin 32) (chanB level : Bool)
  /-- `DISCREPANCY_FAULT`. The first tick at or after a disagreement's stamp + DISC_MS (13 R328). -/
  | discrepancyFault (t : Instant) (pair : Fin 32)
  /-- `TEST_PULSE`. A test pulse on SAFE_TP_A or SAFE_TP_B, with the channels that fail it (13 R330). -/
  | testPulse (t : Instant) (chanB : Bool) (fails : BitVec 32)
  /-- `OUTPUT_TEST`. An output test: 0 passed, 1 to 3 the FAULT_CAUSE found, 4 abandoned (13 R331). -/
  | outputTest (t : Instant) (o : Fin 16) (result : Fin 5)
  /-- `TERM_COMPARISON`. The island's 1 ms comparison of term states (13 R325). -/
  | termComparison (t : Instant) (agree : Bool)
  /-- `ISLAND_FAULT`. A lockstep, ECC or program-flow fault of the island (13 R317). -/
  | islandFault (t : Instant)
  /-- `MATRIX_LOAD`. The die loads its image from EEPROM, its CRC good or not (13 R322). -/
  | matrixLoad (t : Instant) (good : Bool)
  /-- `OVERCAST_WINDOW_END`. The end of the Overcast window (13 R334). -/
  | overcastWindowEnd (t : Instant)
  /-- `OVERCAST_ARMED`. NORMAL has held for 60 s (13 R335). -/
  | overcastArmed (t : Instant)
  /-- `SCLK_CROSSCHECK`. The safety clock against the Warp over 10 ms; `bad` above 1 % (13 R318). -/
  | sclkCrosscheck (t : Instant) (bad : Bool)
  /-- `WEFT_FRAME`. A Weft frame at a connection's slot (13 R339). -/
  | weftFrame (t : Instant) (n : Fin 256) (f : WeftRx)
  /-- `WEFT_DEADLINE`. A consumer's deadline (13 R340). -/
  | weftDeadline (t : Instant) (n : Fin 256)
  /-- `PROGRAM_MATRIX`. The PROGRAM_MATRIX command; the read-back agrees or not (13 R323). -/
  | programMatrix (t : Instant) (c : MatrixCont) (readBack room : Bool)
  /-- `LOAD_SAFETY`. The LOAD_SAFETY command (13 R323). -/
  | loadSafety (t : Instant) (img : SafProg) (readBack room : Bool)
  /-- `SAFETY_PHASE`. The SAFETY_PHASE command (13 R326). -/
  | safetyPhase (t : Instant) (phase : Word)
  /-- `SAFETY_RESET`. The SAFETY_RESET command (13 R332). -/
  | safetyReset (t : Instant) (mask : BitVec 16)
  /-- `STATUS`. A Contrail STATUS frame: the partner's role, flags, TERM and ring states (14 R348). -/
  | status (t : Instant) (c : Contrail) (role : Fin 5) (flags : Word) (term : BitVec 16) (rings : List Nat)
  /-- `RENEW`. A RENEW frame (14 R357). -/
  | renew (t : Instant) (c : Contrail) (term : BitVec 16) (e : Instant)
  /-- `RENEW_ACK`. A RENEW_ACK frame (14 R357). -/
  | renewAck (t : Instant) (c : Contrail) (term : BitVec 16) (e : Instant)
  /-- `DIGEST`. A DIGEST frame: the partner's digest of a cycle (14 R352). -/
  | digest (t : Instant) (c : Contrail) (r : Fin 4) (cycle : Instant) (digest : BitVec 64)
  /-- `HAVE`. A HAVE frame (14 R350). -/
  | have_ (t : Instant) (c : Contrail) (r : Fin 4) (cycle : Instant) (have_ : Bool)
  /-- `INPUTS`. An INPUTS frame: the merged input bytes of a cycle (14 R350). -/
  | inputs (t : Instant) (c : Contrail) (r : Fin 4) (cycle : Instant) (bytes : List Byte)
  /-- `TIME`. A TIME frame with the stamps T1 and T2, and the RATE_ADJ of the sender, which a non-holder follows (14 R349). -/
  | time (t : Instant) (c : Contrail) (t1 t2 : Instant) (rate : Word)
  /-- `HANDOVER`. A HANDOVER frame (14 R361). -/
  | handover (t : Instant) (c : Contrail) (term : BitVec 16) (x : Instant)
  /-- `HANDOVER_ACK`. A HANDOVER_ACK frame (14 R361). -/
  | handoverAck (t : Instant) (c : Contrail) (term : BitVec 16) (x : Instant)
  /-- `COMMIT`. A COMMIT frame (14 R361). -/
  | commit (t : Instant) (c : Contrail) (term : BitVec 16) (x : Instant)
  /-- `HANDOVER_INSTANT`. The instant X of a hand-over (14 R361). -/
  | handoverInstant (t : Instant)
  /-- `CHECK`. A CHECK frame with the partner's result, passed or not; none where 10 ms have passed without one (14 R353). -/
  | check (t : Instant) (c : Contrail) (report : Option Bool)
  /-- `RAPID_SELF_CHECK_DONE`. The unit's rapid self-check ends, or 10 ms pass (14 R353). -/
  | rapidSelfCheckDone (t : Instant) (pass : Bool)
  /-- `CMD`. A CMD frame: a covered command forwarded with its execution instant (14 R356). -/
  | cmd (t : Instant) (c : Contrail) (at_ : Instant)
  /-- `EXECUTION_INSTANT`. The execution instant of a covered command; whether the partner has acknowledged its CMD frame (14 R356). -/
  | executionInstant (t : Instant) (acked : Bool)
  /-- `SNAP`. A SNAP chunk, of `chunks` that make up the snapshot `whole` (14 R354). -/
  | snap (t : Instant) (c : Contrail) (chunk chunks : Word) (whole : Snapshot)
  /-- `SNAP_ACK`. A SNAP_ACK frame (14 R354). -/
  | snapAck (t : Instant) (c : Contrail) (chunk : Word)
  /-- `RENEWAL_INSTANT`. A renewal instant (14 R357, R358). -/
  | renewalInstant (t : Instant)
  /-- `LINK_LOST`. LINK_TMO_US without a good frame (14 R348). -/
  | linkLost (t : Instant)
  /-- `LINK_UP`. 100 ms without a loss condition; whether the image check of a synchronisation finds no difference (14 R348, R354). -/
  | linkUp (t : Instant) (same : Bool)
  /-- `LAPSE`. The holder's stop instant (14 R363). -/
  | lapse (t : Instant)
  /-- `TAKEOVER`. The partner's instant of R359 (14 R362). -/
  | takeover (t : Instant)
  /-- `REPLAY_TIMEOUT`. REPLAY_MS after S without having reached the present (14 R354). -/
  | replayTimeout (t : Instant)
  /-- `RESYNC_RETRY`. A REPAIRED unit's next attempt, with the outcome of its image check (14 R354). -/
  | resyncRetry (t : Instant) (same : Bool)
  /-- `SOLO_START`. 2(L + G) after the rings reached LISTENING without a partner frame (14 R365). -/
  | soloStart (t : Instant)
  /-- `JOIN`. A write of TD_CTRL with JOIN (14 R365). -/
  | join (t : Instant) (value : Word)
  /-- `LEAVE`. A write of TD_CTRL with LEAVE (14). -/
  | leave (t : Instant) (value : Word)
  /-- `RESYNC`. A write of TD_CTRL with RESYNC, with the outcome of the image check (14 R355). -/
  | resync (t : Instant) (value : Word) (same : Bool)
  /-- `SWITCH`. A write of TD_CTRL with SWITCH (14 R361). -/
  | switch (t : Instant) (value : Word)
  /-- `AUTHORITY`. The AUTHORITY command; its OTP and MRAM writes read back, or not (15 R375, R376). -/
  | authority (t : Instant) (a : AuthRec) (readBack : Bool)
  /-- `APPLY_DELTA`. The APPLY_DELTA command (15 R388, R389). -/
  | applyDelta (t : Instant) (d : Delta)
  /-- `DELTA_APPLY_DONE`. The running application ends with the bundle it wrote, or with a result of Table 15.13, at a rate (15 R389). -/
  | deltaApplyDone (t : Instant) (result : Bundle) (code : Fin 8) (kibS : Word)
  /-- `DEBUG_CHALLENGE`. The DEBUG_CHALLENGE command, from the host or through the JTAG mailbox (15 R382). -/
  | debugChallenge (t : Instant) (jtag : Bool)
  /-- `DEBUG_OPEN`. The DEBUG_OPEN command with its response (15 R382). -/
  | debugOpen (t : Instant) (jtag : Bool) (r : DebugResp)
  /-- `DEBUG_CLOSE`. The DEBUG_CLOSE command (15 R383). -/
  | debugClose (t : Instant) (jtag : Bool)
  /-- `DEBUG_EXPIRY`. DURATION_S has elapsed (15 R383). -/
  | debugExpiry (t : Instant)
  /-- `ATTEST`. The ATTEST command (15 R384). -/
  | attest (t : Instant) (nonce : BitVec 256)
  /-- `ACTIVATE`. A write of UPD_CTRL with ACTIVATE (15 R391). -/
  | activate (t : Instant) (value : Word)
  /-- `UPD_CANCEL`. A write of UPD_CTRL with CANCEL (15 R391). -/
  | updCancel (t : Instant) (value : Word)
  /-- `CONFIRM`. A write of UPD_CTRL with CONFIRM (15 R392). -/
  | confirm (t : Instant) (value : Word)
  /-- `ACTIVATION_CHECK`. WARP_NOW is at or after UPD_AT (15 R391). -/
  | activationCheck (t : Instant)
  /-- `BAR2_ACCESS`. A host access through BAR2, or through the SRAM window of BAR0 where `sram`: a write of `data`, or a read of `len` bytes (15 R378). -/
  | bar2Access (t : Instant) (sram : Bool) (offset : Fin 1073741824) (len : Nat) (data : Option (List Byte))
  /-- `BACKOFF_END`. RETRY_MS after a refusal or an abort has passed (16 R400). -/
  | backoffEnd (t : Instant)
  /-- `WAKE_HOLD_END`. WAKE_HOLD_MS after a wake has passed (16 R400). -/
  | wakeHoldEnd (t : Instant)
  /-- `PWR_TOL_WRITE`. A host write of a tolerance or of PWR_CTRL (16 R400). -/
  | pwrTolWrite (t : Instant) (r : TolReg) (value : Word)
  /-- `BLOCK_ANSWER`. The block now asked answers; `busy` says whether it has work that its registers do not show: a load, a host command, outstanding DRAM writes or an AVS transaction (16 R402). -/
  | blockAnswer (t : Instant) (busy : Bool)
  /-- `ENTRY_TIMEOUT`. An answer has been outstanding for ENTRY_TMO_US (16 R402). -/
  | entryTimeout (t : Instant)
  /-- `LULL_FRAME`. The 16th symbol of a Lull frame is acknowledged; `bothHigh` says whether a symbol showed both rails high (16 R409). -/
  | lullFrame (t : Instant) (frame : BitVec 16) (bothHigh : Bool)
  /-- `WAKE_N`. WAKE_N has been low for `lowUs`; `takes` says how its filter decides between the limits (16 R410). -/
  | wakeN (t : Instant) (lowUs : Nat) (takes : Bool)
  /-- `ALARM`. The Warp reaches PWR_ALARM (16 R405). -/
  | alarm (t : Instant)
  /-- `HOST_WAKE`. A BAR0 access or a PCIe L1 exit (16 R405). -/
  | hostWake (t : Instant)
  /-- `WAKE_DONE`. An exit completes (16 R397). -/
  | wakeDone (t : Instant)
  /-- `WAKE_TIMEOUT`. Power-good or REFCLK is not ready WAKE_TMO_MS after the wake instant (16 R411). -/
  | wakeTimeout (t : Instant)
  /-- `WAKE_RETRY`. WAKE_RETRY_MS after a failed attempt have passed (16 R411). -/
  | wakeRetry (t : Instant)
  /-- `QUADRANT_READY`. The scan of a powered quadrant has ended; `bad` lists the frames that failed, as at CONFIG_SCAN (16 R396). -/
  | quadrantReady (t : Instant) (q : Fin 4) (bad : List (Nat × Bool))
  /-- `RESET_PIN`. RESET_N has been low for `lowNs`; `takes` says how its filter decides between the limits (17 R414). -/
  | resetPin (t : Instant) (lowNs : Nat) (takes : Bool)
  /-- `DEVICE_RESET`. A host write of RST_CTRL (17 R413). -/
  | deviceReset (t : Instant) (value : Word)
  /-- `WATCHDOG`. Steward has not served the device watchdog for WDT_MS (17 R413). -/
  | watchdog (t : Instant)
  /-- `POWER_GOOD_CHANGE`. A power-good input rises or falls; `lost` says whether a fall leaves the device unpowered (17 R413). -/
  | powerGoodChange (t : Instant) (good lost : Bool)
  /-- `RESET_RELEASE`. Reset is released and the boot runs to its step 9, with what it meets (17 R417, R418). -/
  | resetRelease (t : Instant) (b : BootRec)
  /-- `RESUME_INSTANT`. Q, the resume instant (17 R421, R422). -/
  | resumeInstant (t : Instant)
  /-- `WARM_CHECKPOINT`. K, the instant of a warm-restart checkpoint, and whether it is completed in time (17 R420). -/
  | warmCheckpoint (t : Instant) (completed : Bool)
  /-- `PARTITION_RESET`. A host write of RST_PART (17 R416). -/
  | partitionReset (t : Instant) (p : Fin 16) (value : Word)
  /-- `PR_DONE`. A partition reset completes (17 R416). -/
  | prDone (t : Instant) (p : Fin 16)
  /-- `MBX_DB`. A host write of MBX_DB: the producer index of a command ring (18 R437). -/
  | mbxDb (t : Instant) (m : Fin 17) (value : Word)
  /-- `COMMAND_DATAGRAM`. A management datagram on Ethernet port `q`: its destination port, its source address, its command entry and what follows the entry (18 R433, R442). -/
  | commandDatagram (t : Instant) (q : Fin 2) (port : BitVec 16) (src : Word) (entry data : List Byte)
  /-- `MWRITE`. The MWRITE command (18 R443). -/
  | mwrite (t : Instant) (obj : Fin 17) (offset : Word) (data : List Byte)
  /-- `VIEW`. The VIEW command; `refresh` says whether Steward updates the view first (18 R445). -/
  | view (t : Instant) (p : Fin 16) (refresh : Bool)
  /-- `ODO_CLEAR`. The ODO_CLEAR command (18 R443). -/
  | odoClear (t : Instant) (p : Fin 16) (kind index : Word)
  /-- `PV_STATE_READ`. A read of PV_STATE; `refresh` says whether Steward updates the view first (18 R445). -/
  | pvStateRead (t : Instant) (r : Requester) (p : Fin 16) (refresh : Bool)
  /-- `MGMT_DIVERGE`. A field of the view has differed from the data path for more than 1 ms (18 R445). -/
  | mgmtDiverge (t : Instant) (p : Fin 16)
  /-- `PTP_EVENT_MESSAGE`. An IEEE 1588 event message passes port `q`; `served` is the STATE and the offset that Steward's firmware then reports (18 R434). -/
  | ptpEventMessage (t : Instant) (q : Fin 2) (ingress : Bool) (served : Option (BitVec 2 × Word))
  /-- `PMBUS_POLL`. POLL_MS has passed: the PMBus master reads the core regulator (19 R460). -/
  | pmbusPoll (t : Instant) (x : PmbRead)
  /-- `PMB_ALERT`. PMB_ALERT_N is low: the master reads at once (19 R460). -/
  | pmbAlert (t : Instant) (x : PmbRead)
  /-- `LIFE_UPDATE`. The life figures are written to MRAM, with the averages over powered time; `hour` says whether an hour of powered time has ended (19 R473). -/
  | lifeUpdate (t : Instant) (hour : Bool) (tjAvg : BitVec 16) (mvAvg : BitVec 12)
  /-- `SCRUB`. A pass of the scrubbers, with the errors that it meets (01 R27). -/
  | scrub (t : Instant) (hits : List ScrubHit)
  /-- `REFCLK_RETURN`. REFCLK shows its first edge after a loss (02 R41). -/
  | refclkReturn (t : Instant)
  /-- `WARP_COUNTER_MISMATCH`. The duplicated Warp counters differ (01 R26). -/
  | warpCounterMismatch (t : Instant)
  /-- `COMPARATOR_RELEASE`. A tripped comparator releases (03 R475). -/
  | comparatorRelease (t : Instant) (ain : Fin 96) (rise : Bool)
  /-- `CHANNEL_SAMPLE`. A sample instant on the own grid of a periodic capture channel (08 R198). -/
  | channelSample (t : Instant) (n : Fin 256)
  /-- `PWM_EDGE`. A PWM edge of an FIO pin (03 R73, 06 R156). -/
  | pwmEdge (t : Instant) (pin : Fin 192)
  /-- `SYNC_OUT_FALL`. The end of the SYNC_OUT pulse (02 R52). -/
  | syncOutFall (t : Instant)
  /-- `STEP_PULSE_FALL`. A step pulse ends (06 R154). -/
  | stepPulseFall (t : Instant) (n : Fin 128)
  /-- `LULL_FRAME_GAP`. Both Lull rails have stayed low for 4 crystal periods inside a frame (16 R408). -/
  | lullFrameGap (t : Instant)
  /-- `HAVE_SEND`. C + RX_LIMIT_NS - 1,000 ns (14 R350). -/
  | haveSend (t : Instant) (r : Fin 4)
  /-- `STATUS_SEND`. The unit's 10 us STATUS instant (14 R348). -/
  | statusSend (t : Instant)
  /-- `TIME_SEND`. The non-holder's 1 ms TIME instant (14 R349). -/
  | timeSend (t : Instant)
  /-- `COMMIT_DEADLINE`. X - 5 us (14 R361). -/
  | commitDeadline (t : Instant)
  /-- `SYNC_INSTANT`. A sync instant S; the number of SNAP chunks the snapshot takes (14 R354). -/
  | syncInstant (t : Instant) (chunks : Word)
  /-- `CATCH_UP_DONE`. Replay reaches the present with the state `state` (14 R354). -/
  | catchUpDone (t : Instant) (state : Snapshot)
  /-- `ISLAND_RELOAD_DONE`. The restarted island has reloaded and verified its firmware and program, or could not (13 R334). -/
  | islandReloadDone (t : Instant) (ok : Bool)
  /-- `SERDES_LANE_READY_CHANGE`. A ring SerDes lane starts or stops reporting ready (12 R312). -/
  | serdesLaneReadyChange (t : Instant) (r : Fin 4) (laneF : Bool) (ready : Bool)
  deriving DecidableEq, Repr

end Sys2Proof
end

