-- ==== Sys2Proof/Decode.lean ====
section
/-! DEFINITION.  The command that a word spells.  No row of `spec/opcode_table.json` gives its
operands bits: the block has no encoded commands, and no word spells one. -/

namespace Sys2Proof

/-- The command that a word of `nbits` bits spells by the table's bits: none. -/
def decodeTableWord (nbits w : Nat) : Option Instr :=
  match nbits, w with
  | _, _ => none

end Sys2Proof
end

