-- ==== Sys2Proof/Config.lean ====
section
/-! DEFINITION.  What the spec leaves to the implementation, to a named outside standard or
to nobody: each is an opaque constant, so that no proof can see its value. -/

namespace Sys2Proof.Config

/-- The value an operation leaves undefined or unstated: the n-th such value of a run
(notes/assumptions/1.md). -/
opaque freeValue : Nat → BitVec 64

/-- SHA-384 of a byte string (07 R179, 15 R366); the algorithm is outside the spec. -/
opaque sha384 : List Byte → Digest

/-- CRC-32C of a byte string (07 R179); the polynomial arithmetic is outside the spec. -/
opaque crc32c : List Byte → Word

/-- CRC-64 with the ECMA-182 polynomial of a byte string (14 R352). -/
opaque crc64 : List Byte → BitVec 64

/-- The 96-byte ECDSA P-384 signature (r, s) that the device's key number `k` gives over a
byte string (07 R182, 15 R366). -/
opaque ecdsaSign : (k : Nat) → List Byte → BitVec 768

/-- A random number the device draws: the n-th of a run (15 R382, R384). -/
opaque random : Nat → BitVec 256

/-- The uncompressed encoding of the public key that belongs to the device's key number `k`:
0 sealing, 1 identity (15 R370, Table 15.8). -/
opaque publicKey : (k : Nat) → List Byte

/-- The DER form of the identity certificate (15 R384). -/
opaque certificate : List Byte

/-- The 64-bit serial number fused at manufacture (15 R368). -/
opaque serial : BitVec 64

/-- The 32-bit data word by which a step event carries the step number and LABEL (05 R130, 09 R217): the
packing is not stated. -/
opaque stepEventWord : (step label : Nat) → Word

/-- Whether channel A leading channel B counts an encoder up (06, Feedback and following error:
not stated). -/
opaque encoderUp : Bool

/-- The DIR level of upward motion before DIR_POL (06 R154: not stated). -/
opaque dirUp : Bool

end Sys2Proof.Config
end

