-- ==== Sys2Proof/Machine/Tbl.lean ====
section
/-! DEFINITION.  Sparse tables: the per-instance state of the block.  A table lists
(number, value) pairs with strictly rising numbers; a number it does not list holds the
default that the reader names. -/

namespace Sys2Proof.Machine

/-- A sparse table of values keyed by instance number. -/
structure Tbl (α : Type) where
  entries : List (Nat × α)
  deriving DecidableEq, Repr

/-- The table that lists nothing. -/
def Tbl.empty {α : Type} : Tbl α := ⟨[]⟩

/-- The value listed under `k`. -/
def lookupNat {α : Type} (k : Nat) : List (Nat × α) → Option α
  | [] => none
  | (i, a) :: r => if i = k then some a else lookupNat k r

/-- The list with `k` holding `a`, its numbers still rising. -/
def insertNat {α : Type} (k : Nat) (a : α) : List (Nat × α) → List (Nat × α)
  | [] => [(k, a)]
  | (i, b) :: r =>
    if k < i then (k, a) :: (i, b) :: r
    else if k = i then (k, a) :: r
    else (i, b) :: insertNat k a r

/-- The value of instance `k`, `d` where the table does not list it. -/
def Tbl.get {α : Type} (t : Tbl α) (k : Nat) (d : α) : α := (lookupNat k t.entries).getD d

/-- The value listed under `k`, if any. -/
def Tbl.find {α : Type} (t : Tbl α) (k : Nat) : Option α := lookupNat k t.entries

/-- The table in which instance `k` holds `a`. -/
def Tbl.set {α : Type} (t : Tbl α) (k : Nat) (a : α) : Tbl α := ⟨insertNat k a t.entries⟩

/-- The table in which `k` is not listed. -/
def Tbl.erase {α : Type} (t : Tbl α) (k : Nat) : Tbl α := ⟨t.entries.filter (fun e => e.1 ≠ k)⟩

/-- The table with instance `k` changed by `f`. -/
def Tbl.modify {α : Type} (t : Tbl α) (k : Nat) (d : α) (f : α → α) : Tbl α := t.set k (f (t.get k d))

/-- The instance numbers the table lists. -/
def Tbl.keys {α : Type} (t : Tbl α) : List Nat := t.entries.map (·.1)

/-- A list of numbers that rises strictly. -/
def rising : List Nat → Bool
  | [] => true
  | [_] => true
  | a :: b :: r => decide (a < b) && rising (b :: r)

/-- The canonical form of a table: its numbers rise strictly. -/
def Tbl.wf {α : Type} (t : Tbl α) : Bool := rising t.keys

end Sys2Proof.Machine
end

