-- ==== Sys2Proof/Machine/RegMap.lean ====
section
/-! DEFINITION.  The register map: every software-visible register field of the
PQ7410, transcribed from the register tables of `spec/` (00 to 19).

A field is one cell of the register file: `F.<REGISTER>_<FIELD>`, or `F.<REGISTER>`
when the register has a single field.  A 64-bit quantity (00 R15) is one field that
its `_LO` and `_HI` words show by halves.  A field whose reset column names Beam,
Program or Matrix resets to 0 and is set by that load; one whose column names MRAM,
OTP, Flash, EEPROM, a fuse or the board record keeps its value over a reset (`nv`)
and holds the value of the table below when the model starts (DESIGN CHOICE, unsafe,
notes/assumptions/3.md). -/

namespace Sys2Proof.Machine

/-- The access types of Table 0.4 (00 R16). -/
inductive Access where
  | ro | rw | wo | w1c | w1s | rc | rwl
  deriving DecidableEq, Repr

/-- One register field: its number in the register file, its width in bits, its value
at reset and whether it lies in a non-volatile store. -/
structure Fld where
  id : Nat
  width : Nat
  reset : Nat
  nv : Bool
  deriving DecidableEq, Repr

/-- Where bits of a field appear in a 32-bit register: from register bit `lo`, `width`
bits, showing the field from its bit `from_` on. -/
structure FieldBits where
  fld : Fld
  lo : Nat
  width : Nat
  from_ : Nat
  access : Access
  deriving DecidableEq, Repr

/-- Whether a register is an ordinary word, or the lower or upper word of a 64-bit
quantity (00 R15). -/
inductive RegHalf where
  | word | low | high
  deriving DecidableEq, Repr

/-- A register: its name, the BAR0 offset of its first instance, the stride and count of
each dimension it is repeated in, and its fields. -/
structure RegRow where
  name : String
  addr : Nat
  dims : List (Nat × Nat)
  half : RegHalf
  fields : List FieldBits
  deriving DecidableEq, Repr

namespace F

/-! Fields of `spec/00_scope.md`. -/
def SYS_ID_FAMILY : Fld := ⟨0, 16, 20561, false⟩
def SYS_ID_PART : Fld := ⟨1, 16, 29712, false⟩
def SYS_STEP_MAJOR : Fld := ⟨2, 4, 11, false⟩
def SYS_STEP_MINOR : Fld := ⟨3, 4, 1, false⟩
def SYS_GRADE : Fld := ⟨4, 8, 73, true⟩
/-! Fields of `spec/02_warp_time_base.md`. -/
def WARP_NOW : Fld := ⟨5, 64, 0, false⟩
def WARP_STATUS_MON_OK : Fld := ⟨6, 1, 0, false⟩
def WARP_STATUS_RATE_CLAMPED : Fld := ⟨7, 1, 0, false⟩
def WARP_STATUS_SLEW_ACTIVE : Fld := ⟨8, 1, 0, false⟩
def WARP_STATUS_EPOCH : Fld := ⟨9, 1, 0, false⟩
def WARP_STATUS_COARSE : Fld := ⟨10, 1, 0, false⟩
def WARP_STATUS_HOLDOVER : Fld := ⟨11, 1, 0, false⟩
def WARP_STATUS_LOCKED : Fld := ⟨12, 1, 0, false⟩
def WARP_STATUS_REF_OK : Fld := ⟨13, 1, 0, false⟩
def WARP_EVENT_AVS_FAULT : Fld := ⟨14, 1, 0, false⟩
def WARP_EVENT_SLACK_ALARM : Fld := ⟨15, 1, 0, false⟩
def WARP_EVENT_COARSE_USED : Fld := ⟨16, 1, 0, false⟩
def WARP_EVENT_SYNC_LATE : Fld := ⟨17, 1, 0, false⟩
def WARP_EVENT_STEP_REFUSED : Fld := ⟨18, 1, 0, false⟩
def WARP_EVENT_STEP_DONE : Fld := ⟨19, 1, 0, false⟩
def WARP_EVENT_HOLDOVER_EXIT : Fld := ⟨20, 1, 0, false⟩
def WARP_EVENT_REF_FREQ : Fld := ⟨21, 1, 0, false⟩
def WARP_EVENT_REF_LOST : Fld := ⟨22, 1, 0, false⟩
def RATE_ADJ : Fld := ⟨23, 32, 0, false⟩
def SLEW_NS : Fld := ⟨24, 32, 0, false⟩
def SLEW_CFG : Fld := ⟨25, 9, 100, false⟩
def STEP_TO : Fld := ⟨26, 64, 0, false⟩
def STEP_CTRL_RESULT : Fld := ⟨27, 3, 0, false⟩
def STEP_CTRL_EPOCH_TAI : Fld := ⟨28, 1, 0, false⟩
def STEP_CTRL_GO : Fld := ⟨29, 1, 0, false⟩
def WARP_REF_MON_WARP_ERR : Fld := ⟨30, 16, 0, false⟩
def WARP_REF_MON_FREQ_ERR : Fld := ⟨31, 16, 0, false⟩
def HOLDOVER_CFG : Fld := ⟨32, 16, 100, false⟩
def COARSE_NS : Fld := ⟨33, 64, 0, false⟩
def PPS_IN : Fld := ⟨34, 64, 0, false⟩
def SYNC_IN : Fld := ⟨35, 64, 0, false⟩
def PPS_OUT_CFG_WIDTH_US : Fld := ⟨36, 19, 100000, false⟩
def PPS_OUT_CFG_EN : Fld := ⟨37, 1, 0, false⟩
def PPS_OUT_OFFSET : Fld := ⟨38, 32, 0, false⟩
def SYNC_IN_CFG_MIN_NS : Fld := ⟨39, 8, 20, false⟩
def SYNC_IN_CFG_POL : Fld := ⟨40, 1, 0, false⟩
def SYNC_OUT_AT : Fld := ⟨41, 64, 0, false⟩
def SYNC_OUT_CFG_WIDTH_NS : Fld := ⟨42, 16, 1000, false⟩
def SYNC_OUT_CFG_POL : Fld := ⟨43, 1, 0, false⟩
def SYNC_OUT_CFG_ARM : Fld := ⟨44, 1, 0, false⟩
def SLACK_WINDOW : Fld := ⟨45, 16, 1000, false⟩
def SLACK_TARGET_HYST_NS : Fld := ⟨46, 16, 250, false⟩
def SLACK_TARGET_TARGET_NS : Fld := ⟨47, 16, 250, false⟩
def SLACK_MIN : Fld := ⟨48, 32, 0, false⟩
def SLACK_SRC_VALID : Fld := ⟨49, 1, 0, false⟩
def SLACK_SRC_KIND : Fld := ⟨50, 2, 0, false⟩
def SLACK_SRC_ID : Fld := ⟨51, 10, 0, false⟩
def SLACK_LOW : Fld := ⟨52, 32, 2147483647, false⟩
def AVS_CTRL_LATE_MV : Fld := ⟨53, 8, 25, false⟩
def AVS_CTRL_DOWN_MV : Fld := ⟨54, 8, 2, false⟩
def AVS_CTRL_UP_MV : Fld := ⟨55, 8, 10, false⟩
def AVS_CTRL_MODE : Fld := ⟨56, 2, 0, false⟩
def AVS_LIMITS_VMAX_MV : Fld := ⟨57, 12, 900, false⟩
def AVS_LIMITS_VMIN_MV : Fld := ⟨58, 12, 550, false⟩
def AVS_SET_BOOT_MV : Fld := ⟨59, 12, 850, false⟩
def AVS_SET_FIXED_MV : Fld := ⟨60, 12, 850, false⟩
def AVS_STATUS_FAULT : Fld := ⟨61, 1, 0, false⟩
def AVS_STATUS_AT_MAX : Fld := ⟨62, 1, 0, false⟩
def AVS_STATUS_READ_MV : Fld := ⟨63, 12, 0, false⟩
def AVS_STATUS_CMD_MV : Fld := ⟨64, 12, 850, false⟩
/-! Fields of `spec/03_loop_control_law.md`. -/
def LC_CTRL_INIT_LEVEL : Fld := ⟨65, 2, 0, false⟩
def LC_CTRL_VIEW : Fld := ⟨66, 1, 0, false⟩
def LC_CTRL_COPY : Fld := ⟨67, 1, 0, false⟩
def LC_CTRL_SWAP : Fld := ⟨68, 1, 0, false⟩
def LC_CTRL_MODE : Fld := ⟨69, 1, 0, false⟩
def LC_CTRL_ENABLE : Fld := ⟨70, 1, 0, false⟩
def LC_STATUS_CFG_ERR : Fld := ⟨71, 4, 0, false⟩
def LC_STATUS_EVT_ARMED : Fld := ⟨72, 1, 0, false⟩
def LC_STATUS_DWELL_WAIT : Fld := ⟨73, 1, 0, false⟩
def LC_STATUS_SHADOW_VALID : Fld := ⟨74, 1, 0, false⟩
def LC_STATUS_ACTIVE_BANK : Fld := ⟨75, 1, 0, false⟩
def LC_STATUS_RUNNING : Fld := ⟨76, 1, 0, false⟩
def LC_STATUS_SAT_LO : Fld := ⟨77, 1, 0, false⟩
def LC_STATUS_SAT_HI : Fld := ⟨78, 1, 0, false⟩
def LC_STATUS_LEVEL : Fld := ⟨79, 2, 0, false⟩
def LC_EVENT_ODO_SAT : Fld := ⟨80, 1, 0, false⟩
def LC_EVENT_LEVEL_CLAMPED : Fld := ⟨81, 1, 0, false⟩
def LC_EVENT_ENABLE_REFUSED : Fld := ⟨82, 1, 0, false⟩
def LC_EVENT_SHADOW_DROP : Fld := ⟨83, 1, 0, false⟩
def LC_EVENT_SWAP_REFUSED : Fld := ⟨84, 1, 0, false⟩
def LC_EVENT_SWAP_DONE : Fld := ⟨85, 1, 0, false⟩
def LC_ROUTE_DEST_KIND : Fld := ⟨86, 2, 0, false⟩
def LC_ROUTE_RING_FMT : Fld := ⟨87, 1, 0, false⟩
def LC_ROUTE_Y_WIDE : Fld := ⟨88, 1, 0, false⟩
def LC_ROUTE_Y_KIND : Fld := ⟨89, 2, 0, false⟩
def LC_ROUTE_SP_SRC : Fld := ⟨90, 2, 0, false⟩
def LC_ROUTE_SPD_DIFF : Fld := ⟨91, 1, 0, false⟩
def LC_SRC_SP_ID : Fld := ⟨92, 14, 0, false⟩
def LC_SRC_Y_ID : Fld := ⟨93, 14, 0, false⟩
def LC_DEST_RING : Fld := ⟨94, 2, 0, false⟩
def LC_DEST_DEST_ID : Fld := ⟨95, 14, 0, false⟩
def LC_PERIOD : Fld := ⟨96, 32, 0, false⟩
def LC_PHASE : Fld := ⟨97, 32, 0, false⟩
def LC_LATENCY : Fld := ⟨98, 32, 0, false⟩
def LC_PWM_PERIOD : Fld := ⟨99, 24, 0, false⟩
def LC_EVT_CFG : Fld := ⟨100, 10, 50, false⟩
def LC_EVT_CODES_HI_CODE : Fld := ⟨101, 12, 0, false⟩
def LC_EVT_CODES_LO_CODE : Fld := ⟨102, 12, 0, false⟩
def LC_SP : Fld := ⟨103, 32, 0, false⟩
def LC_SP_DOT : Fld := ⟨104, 32, 0, false⟩
def LC_Y : Fld := ⟨105, 32, 0, false⟩
def LC_E : Fld := ⟨106, 32, 0, false⟩
def LC_C : Fld := ⟨107, 32, 0, false⟩
def LC_W : Fld := ⟨108, 32, 0, false⟩
def LC_U : Fld := ⟨109, 32, 0, false⟩
def LC_C_STATE : Fld := ⟨110, 48, 0, false⟩
def LC_SAT_CNT : Fld := ⟨111, 32, 0, false⟩
def LC_SAT_SRC : Fld := ⟨112, 7, 0, false⟩
def LC_ODO : Fld := ⟨113, 48, 0, true⟩
def LC_DWELL_BLOCK : Fld := ⟨114, 32, 0, false⟩
def LC_SAFE_U : Fld := ⟨115, 32, 0, false⟩
/-! Fields of `spec/04_loop_timing_and_supervision.md`. -/
def LC_SUP_CFG_LATE_LIMIT : Fld := ⟨116, 4, 2, false⟩
def LC_SUP_CFG_NR : Fld := ⟨117, 8, 0, false⟩
def LC_SUP_CFG_SUP_EN : Fld := ⟨118, 1, 0, false⟩
def LC_SUP_CFG_FAULT_REACT : Fld := ⟨119, 1, 0, false⟩
def LC_SUP_CFG_SUB_AT_COMMIT : Fld := ⟨120, 1, 0, false⟩
def LC_SUP_CFG_SUB_ESC : Fld := ⟨121, 1, 0, false⟩
def LC_SUP_CFG_PRE_SUB : Fld := ⟨122, 1, 0, false⟩
def LC_SUP_CFG_REACT : Fld := ⟨123, 2, 0, false⟩
def LC_RES_LIM : Fld := ⟨124, 31, 0, false⟩
def LC_MODEL_K : Fld := ⟨125, 32, 0, false⟩
def LC_MODEL_B : Fld := ⟨126, 32, 0, false⟩
def LC_MODEL_CFG_DEAD : Fld := ⟨127, 6, 0, false⟩
def LC_MODEL_CFG_S_K : Fld := ⟨128, 6, 0, false⟩
def LC_MODEL_CFG_MODEL_A : Fld := ⟨129, 16, 0, false⟩
def LC_SUP_TIME_STALL_US : Fld := ⟨130, 10, 10, false⟩
def LC_SUP_TIME_SUB_TIME_MS : Fld := ⟨131, 16, 0, false⟩
def LC_YM : Fld := ⟨132, 32, 0, false⟩
def LC_RESID : Fld := ⟨133, 32, 0, false⟩
def LC_SUP_STATUS_FAULT_CAUSE : Fld := ⟨134, 6, 0, false⟩
def LC_SUP_STATUS_OK_RUN : Fld := ⟨135, 8, 0, false⟩
def LC_SUP_STATUS_VIOL_RUN : Fld := ⟨136, 8, 0, false⟩
def LC_SUP_STATUS_LATE_RUN : Fld := ⟨137, 4, 0, false⟩
def LC_SUP_STATUS_SUP_STATE : Fld := ⟨138, 2, 0, false⟩
def LC_SUP_EVENT_CLEAR_REFUSED : Fld := ⟨139, 1, 0, false⟩
def LC_SUP_EVENT_ST_DONE : Fld := ⟨140, 1, 0, false⟩
def LC_SUP_EVENT_Y_STALE : Fld := ⟨141, 1, 0, false⟩
def LC_SUP_EVENT_LATE : Fld := ⟨142, 1, 0, false⟩
def LC_SUP_EVENT_LOOP_FAULT : Fld := ⟨143, 1, 0, false⟩
def LC_SUP_EVENT_SUB_ENDED : Fld := ⟨144, 1, 0, false⟩
def LC_SUP_EVENT_SUB_START : Fld := ⟨145, 1, 0, false⟩
def LC_SUP_EVENT_PLAUS_VIOL : Fld := ⟨146, 1, 0, false⟩
def LC_DIAG_CNT_STALE_CNT : Fld := ⟨147, 16, 0, false⟩
def LC_DIAG_CNT_LATE_CNT : Fld := ⟨148, 16, 0, false⟩
def LC_DIAG_ST_FAIL : Fld := ⟨149, 8, 0, false⟩
def LC_DIAG_ST_STATE : Fld := ⟨150, 2, 0, false⟩
def LC_DIAG_PLAUS_CLEAR : Fld := ⟨151, 1, 0, false⟩
def LC_DIAG_FAULT_CLEAR : Fld := ⟨152, 1, 0, false⟩
def LC_DIAG_ST_CANCEL : Fld := ⟨153, 1, 0, false⟩
def LC_DIAG_ST_GO : Fld := ⟨154, 1, 0, false⟩
/-! Fields of `spec/05_treadle_recipes_and_profiles.md`. -/
def TR_CTRL_START_STEP : Fld := ⟨155, 16, 65535, false⟩
def TR_CTRL_EXPECT : Fld := ⟨156, 2, 0, false⟩
def TR_CTRL_CLEAR_FAULT : Fld := ⟨157, 1, 0, false⟩
def TR_CTRL_ABORT : Fld := ⟨158, 1, 0, false⟩
def TR_CTRL_RESUME : Fld := ⟨159, 1, 0, false⟩
def TR_CTRL_PAUSE : Fld := ⟨160, 1, 0, false⟩
def TR_CTRL_START : Fld := ⟨161, 1, 0, false⟩
def TR_STATUS_TABLE_OK : Fld := ⟨162, 1, 0, false⟩
def TR_STATUS_STAGE_STATE : Fld := ⟨163, 2, 0, false⟩
def TR_STATUS_PAUSE_CAUSE : Fld := ⟨164, 4, 0, false⟩
def TR_STATUS_FAULT : Fld := ⟨165, 1, 0, false⟩
def TR_STATUS_DEFERRED : Fld := ⟨166, 1, 0, false⟩
def TR_STATUS_STATE : Fld := ⟨167, 2, 0, false⟩
def TR_EVENT_LOAD_DONE : Fld := ⟨168, 1, 0, false⟩
def TR_EVENT_TR_FAULT : Fld := ⟨169, 1, 0, false⟩
def TR_EVENT_SPAWN_DROP : Fld := ⟨170, 1, 0, false⟩
def TR_EVENT_VALVE_REPLACED : Fld := ⟨171, 1, 0, false⟩
def TR_EVENT_ABORT_IGNORED : Fld := ⟨172, 1, 0, false⟩
def TR_EVENT_STATE_MISMATCH : Fld := ⟨173, 1, 0, false⟩
def TR_EVENT_CMD_REFUSED : Fld := ⟨174, 1, 0, false⟩
def TR_EVENT_CANCELLED : Fld := ⟨175, 1, 0, false⟩
def TR_EVENT_STAGE_INVALID : Fld := ⟨176, 1, 0, false⟩
def TR_EVENT_STAGE_MISS : Fld := ⟨177, 1, 0, false⟩
def TR_EVENT_STOP_DONE : Fld := ⟨178, 1, 0, false⟩
def TR_EVENT_END_REACHED : Fld := ⟨179, 1, 0, false⟩
def TR_TIMING_BRANCH_NS : Fld := ⟨180, 15, 0, false⟩
def TR_TIMING_TICK_NS : Fld := ⟨181, 17, 0, false⟩
def TR_STEPS_STAGED_STEP : Fld := ⟨182, 16, 65535, false⟩
def TR_STEPS_CUR_STEP : Fld := ⟨183, 16, 65535, false⟩
def TR_LABEL : Fld := ⟨184, 32, 0, false⟩
def TR_COMMIT : Fld := ⟨185, 64, 0, false⟩
def TR_NEXT : Fld := ⟨186, 64, 0, false⟩
def TR_DECIDE_NEXT : Fld := ⟨187, 16, 65535, false⟩
def TR_DECIDE_TRUE_MASK : Fld := ⟨188, 4, 0, false⟩
def TR_DECIDE_END_IDX : Fld := ⟨189, 2, 0, false⟩
def TR_DECIDE_ON_DEMAND : Fld := ⟨190, 1, 0, false⟩
def TR_DECIDE_DECIDED : Fld := ⟨191, 1, 0, false⟩
def TR_TAU : Fld := ⟨192, 64, 0, false⟩
def TR_START_AT : Fld := ⟨193, 64, 0, false⟩
def TR_LOAD_RESULT : Fld := ⟨194, 8, 0, false⟩
def TR_LOAD_MISS_REACT : Fld := ⟨195, 1, 0, false⟩
def TR_LOAD_STEP_COUNT : Fld := ⟨196, 16, 0, false⟩
def TR_TABLE_ID : Fld := ⟨197, 32, 0, false⟩
def TR_COMMITS : Fld := ⟨198, 32, 0, false⟩
def TR_MISS_CNT : Fld := ⟨199, 32, 0, false⟩
def TR_CANCEL_CNT : Fld := ⟨200, 32, 0, false⟩
def TR_STAGE_AVG : Fld := ⟨201, 32, 0, false⟩
def TR_STAGE_MAX : Fld := ⟨202, 32, 0, false⟩
def TR_ENTRY_STOP_STEP : Fld := ⟨203, 16, 0, false⟩
def TR_ENTRY_ENTRY_STEP : Fld := ⟨204, 16, 0, false⟩
def TR_COND : Fld := ⟨205, 32, 0, false⟩
def PG_CTRL : Fld := ⟨206, 1, 0, false⟩
def PG_STATUS_RUNNING : Fld := ⟨207, 1, 0, false⟩
def PG_STATUS_DWELL : Fld := ⟨208, 1, 0, false⟩
def PG_STATUS_LIMITS_PENDING : Fld := ⟨209, 1, 0, false⟩
def PG_STATUS_HELD : Fld := ⟨210, 1, 0, false⟩
def PG_STATUS_DONE : Fld := ⟨211, 1, 0, false⟩
def PG_EVENT_ENABLE_REFUSED : Fld := ⟨212, 1, 0, false⟩
def PG_EVENT_TARGET_DROP : Fld := ⟨213, 1, 0, false⟩
def PG_EVENT_DONE_EVT : Fld := ⟨214, 1, 0, false⟩
def PG_PERIOD : Fld := ⟨215, 32, 0, false⟩
def PG_PHASE : Fld := ⟨216, 32, 0, false⟩
def PG_TARGET : Fld := ⟨217, 32, 0, false⟩
def PG_VMAX : Fld := ⟨218, 31, 0, false⟩
def PG_WIN_M2 : Fld := ⟨219, 11, 0, false⟩
def PG_WIN_M1 : Fld := ⟨220, 11, 0, false⟩
def PG_SHADOW_TARGET : Fld := ⟨221, 32, 0, false⟩
def PG_SHADOW_VMAX : Fld := ⟨222, 31, 0, false⟩
def PG_SHADOW_WIN_M2 : Fld := ⟨223, 11, 0, false⟩
def PG_SHADOW_WIN_M1 : Fld := ⟨224, 11, 0, false⟩
def PG_SP : Fld := ⟨225, 32, 0, false⟩
def PG_SP_DOT : Fld := ⟨226, 32, 0, false⟩
def PG_Q : Fld := ⟨227, 64, 0, false⟩
def PG_INIT : Fld := ⟨228, 32, 0, false⟩
/-! Fields of `spec/04_loop_timing_and_supervision.md`. -/
def ANA_ROT_CFG_ROT_EN : Fld := ⟨229, 1, 1, false⟩
def ANA_ROT_CFG_XCHK_LSB : Fld := ⟨230, 8, 8, false⟩
def ANA_ROT_CFG_ROT_MS : Fld := ⟨231, 16, 40, false⟩
def ANA_ROT_STATUS_SPARE_BAD : Fld := ⟨232, 1, 0, false⟩
def ANA_ROT_STATUS_NEXT_GROUP : Fld := ⟨233, 5, 0, false⟩
def ANA_ROT_STATUS_SPARE : Fld := ⟨234, 5, 24, false⟩
def ANA_CAL_REQ_GO : Fld := ⟨235, 1, 0, false⟩
def ANA_CAL_REQ_POS : Fld := ⟨236, 5, 0, false⟩
def ANA_CAL_REQ_STATE : Fld := ⟨237, 2, 0, false⟩
def ANA_CAL_REQ_CONV : Fld := ⟨238, 5, 0, false⟩
def ANA_EVENT_CAL_FAIL : Fld := ⟨239, 1, 0, false⟩
def ANA_EVENT_XCHK_FAIL : Fld := ⟨240, 1, 0, false⟩
def ANA_MAP_G0 : Fld := ⟨241, 5, 0, false⟩
def ANA_MAP_G1 : Fld := ⟨242, 5, 0, false⟩
def ANA_MAP_G2 : Fld := ⟨243, 5, 0, false⟩
def ANA_MAP_G3 : Fld := ⟨244, 5, 0, false⟩
def ANA_MAP_G4 : Fld := ⟨245, 5, 0, false⟩
def ANA_MAP_G5 : Fld := ⟨246, 5, 0, false⟩
/-! Fields of `spec/06_motion_axes.md`. -/
def AX_CTRL_VLIM_EN : Fld := ⟨247, 1, 0, false⟩
def AX_CTRL_FAULT_REACT : Fld := ⟨248, 1, 0, false⟩
def AX_CTRL_CLEAR : Fld := ⟨249, 1, 0, false⟩
def AX_CTRL_HOME : Fld := ⟨250, 1, 0, false⟩
def AX_CTRL_HALT : Fld := ⟨251, 1, 0, false⟩
def AX_CTRL_GO : Fld := ⟨252, 1, 0, false⟩
def AX_CTRL_ENABLE : Fld := ⟨253, 1, 0, false⟩
def AX_STATUS_FAULT_CAUSE : Fld := ⟨254, 10, 0, false⟩
def AX_STATUS_CFG_ERR : Fld := ⟨255, 4, 0, false⟩
def AX_STATUS_HOME_RESULT : Fld := ⟨256, 3, 0, false⟩
def AX_STATUS_HOME_SW : Fld := ⟨257, 1, 0, false⟩
def AX_STATUS_LIMN : Fld := ⟨258, 1, 0, false⟩
def AX_STATUS_LIMP : Fld := ⟨259, 1, 0, false⟩
def AX_STATUS_DIR : Fld := ⟨260, 1, 0, false⟩
def AX_STATUS_HOMED : Fld := ⟨261, 1, 0, false⟩
def AX_STATUS_STATE : Fld := ⟨262, 3, 0, false⟩
def AX_EVENT : Fld := ⟨263, 16, 0, false⟩
def AX_ROUTE_OUT_KIND : Fld := ⟨264, 2, 0, false⟩
def AX_ROUTE_RING : Fld := ⟨265, 2, 0, false⟩
def AX_ROUTE_RING_FMT : Fld := ⟨266, 2, 0, false⟩
def AX_ROUTE_FB_KIND : Fld := ⟨267, 2, 0, false⟩
def AX_ROUTE_OUT_ID : Fld := ⟨268, 14, 0, false⟩
def AX_FB : Fld := ⟨269, 14, 0, false⟩
def AX_HOME_SRC : Fld := ⟨270, 32, 0, false⟩
def AX_LIMP_SRC : Fld := ⟨271, 32, 0, false⟩
def AX_LIMN_SRC : Fld := ⟨272, 32, 0, false⟩
def AX_PERIOD : Fld := ⟨273, 32, 0, false⟩
def AX_PHASE : Fld := ⟨274, 32, 0, false⟩
def AX_LATENCY : Fld := ⟨275, 32, 0, false⟩
def AX_STEP_CFG_STEP_MIN_NS : Fld := ⟨276, 16, 200, false⟩
def AX_STEP_CFG_STEP_WIDTH_NS : Fld := ⟨277, 16, 100, false⟩
def AX_STEP_CFG2_DIR_POL : Fld := ⟨278, 1, 0, false⟩
def AX_STEP_CFG2_STEP_POL : Fld := ⟨279, 1, 0, false⟩
def AX_STEP_CFG2_DIR_SETUP_NS : Fld := ⟨280, 16, 1000, false⟩
def AX_PWM_CFG_DECAY : Fld := ⟨281, 1, 0, false⟩
def AX_PWM_CFG_PWM_PERIOD_NS : Fld := ⟨282, 16, 40000, false⟩
def AX_COIL_RL_L_UH : Fld := ⟨283, 16, 0, false⟩
def AX_COIL_RL_R_MOHM : Fld := ⟨284, 16, 0, false⟩
def AX_COIL_KE : Fld := ⟨285, 32, 0, false⟩
def AX_COIL_I_I_HOLD_MA : Fld := ⟨286, 16, 0, false⟩
def AX_COIL_I_I_RUN_MA : Fld := ⟨287, 16, 0, false⟩
def AX_COIL_V_VBUS_MV : Fld := ⟨288, 16, 24000, false⟩
def AX_COIL_V_VBUS_AIN : Fld := ⟨289, 7, 127, false⟩
def AX_VBUS_SCALE : Fld := ⟨290, 32, 0, false⟩
def AX_HOLD_CFG_DUTY_MAX : Fld := ⟨291, 16, 31130, false⟩
def AX_HOLD_CFG_HOLD_DELAY_MS : Fld := ⟨292, 16, 500, false⟩
def AX_STOP_DECEL : Fld := ⟨293, 32, 0, false⟩
def AX_VLIM_LO : Fld := ⟨294, 32, 0, false⟩
def AX_VLIM_HI : Fld := ⟨295, 32, 0, false⟩
def AX_FE_LIMIT : Fld := ⟨296, 31, 0, false⟩
def AX_FE_CFG_STALL_US : Fld := ⟨297, 12, 10, false⟩
def AX_FE_CFG_LATE_LIMIT : Fld := ⟨298, 4, 2, false⟩
def AX_FE_CFG_HOME_FE_N : Fld := ⟨299, 4, 4, false⟩
def AX_FE_CFG_FE_N : Fld := ⟨300, 4, 2, false⟩
def AX_ENC_SCALE : Fld := ⟨301, 32, 0, false⟩
def AX_HOME_CFG_DEB_NS : Fld := ⟨302, 20, 1000, false⟩
def AX_HOME_CFG_HOME_DIR : Fld := ⟨303, 1, 0, false⟩
def AX_HOME_CFG_MODE : Fld := ⟨304, 2, 0, false⟩
def AX_HOME_VEL : Fld := ⟨305, 32, 0, false⟩
def AX_HOME_POS : Fld := ⟨306, 32, 0, false⟩
def AX_HOME_MAX : Fld := ⟨307, 31, 0, false⟩
def AX_HOME_FE : Fld := ⟨308, 31, 0, false⟩
def AX_NEXT_SEG_COUNT : Fld := ⟨309, 13, 0, false⟩
def AX_NEXT_SEG_FIRST : Fld := ⟨310, 12, 0, false⟩
def AX_POS : Fld := ⟨311, 32, 0, false⟩
def AX_VEL : Fld := ⟨312, 32, 0, false⟩
def AX_FBPOS : Fld := ⟨313, 32, 0, false⟩
def AX_FE : Fld := ⟨314, 32, 0, false⟩
def AX_STEP_POS : Fld := ⟨315, 32, 0, false⟩
def AX_SEG_NOW_SEG : Fld := ⟨316, 12, 0, false⟩
def AX_SEG_NOW_LEFT : Fld := ⟨317, 13, 0, false⟩
def AX_HOME_LATCH : Fld := ⟨318, 32, 0, false⟩
def AX_CHATTER_LIM_CHATTER : Fld := ⟨319, 16, 0, false⟩
def AX_CHATTER_HOME_CHATTER : Fld := ⟨320, 16, 0, false⟩
def AX_DIAG_CNT_DUTY_SAT_CNT : Fld := ⟨321, 16, 0, false⟩
def AX_DIAG_CNT_LATE_CNT : Fld := ⟨322, 16, 0, false⟩
def AX_ODO_STEPS : Fld := ⟨323, 48, 0, true⟩
def AX_ODO_MOVES : Fld := ⟨324, 48, 0, true⟩
def AX_SEG_LOAD : Fld := ⟨325, 8, 0, false⟩
def AXG_MASK : Fld := ⟨326, 32, 0, false⟩
def AXG_AT : Fld := ⟨327, 64, 0, false⟩
def AXG_CTRL_RESULT : Fld := ⟨328, 8, 0, false⟩
def AXG_CTRL_STATE : Fld := ⟨329, 2, 0, false⟩
def AXG_CTRL_CANCEL : Fld := ⟨330, 1, 0, false⟩
def AXG_CTRL_KIND : Fld := ⟨331, 1, 0, false⟩
def AXG_CTRL_ARM : Fld := ⟨332, 1, 0, false⟩
/-! Fields of `spec/07_recording_skein.md`. -/
def SK_CTRL : Fld := ⟨333, 16, 10, false⟩
def SK_STATUS_BURST_FREE_KIB : Fld := ⟨334, 15, 16384, false⟩
def SK_STATUS_CKPT_PENDING : Fld := ⟨335, 1, 0, false⟩
def SK_EVENT : Fld := ⟨336, 8, 0, false⟩
def SK_RATE_AVG : Fld := ⟨337, 32, 0, false⟩
def SK_EPOCH : Fld := ⟨338, 32, 0, true⟩
def SKS_CTRL_FLUSH : Fld := ⟨339, 1, 0, false⟩
def SKS_CTRL_EXPORT : Fld := ⟨340, 2, 0, false⟩
def SKS_CTRL_POLICY : Fld := ⟨341, 1, 0, false⟩
def SKS_REGION : Fld := ⟨342, 64, 0, false⟩
def SKS_REGION_SIZE : Fld := ⟨343, 24, 256, false⟩
def SKS_BURST : Fld := ⟨344, 15, 0, false⟩
def SKS_SEQ : Fld := ⟨345, 64, 0, true⟩
def SKS_VISIBLE : Fld := ⟨346, 64, 0, false⟩
def SKS_CONSUMED : Fld := ⟨347, 64, 0, false⟩
def SKS_STATUS_RESIDENT : Fld := ⟨348, 24, 0, false⟩
def SKS_STATUS_GAP_OPEN : Fld := ⟨349, 1, 0, false⟩
def SKS_STATUS_RETRYING : Fld := ⟨350, 1, 0, false⟩
def SKS_DISCARD : Fld := ⟨351, 32, 0, false⟩
def SKS_RETRY : Fld := ⟨352, 16, 0, false⟩
def SKS_OVERWRITE : Fld := ⟨353, 32, 0, false⟩
def SKS_OUT_AVG : Fld := ⟨354, 32, 0, false⟩
def SKS_DMA_BASE : Fld := ⟨355, 64, 0, false⟩
def SKS_DMA_ENTRIES : Fld := ⟨356, 16, 0, false⟩
def TAP_SRC_KIND : Fld := ⟨357, 4, 0, false⟩
def TAP_SRC_SIGNAL : Fld := ⟨358, 4, 0, false⟩
def TAP_SRC_STREAM : Fld := ⟨359, 5, 0, false⟩
def TAP_SRC_RING : Fld := ⟨360, 2, 0, false⟩
def TAP_SRC_ID : Fld := ⟨361, 14, 0, false⟩
def TAP_CFG_N : Fld := ⟨362, 16, 0, false⟩
def TAP_CFG_POLICY : Fld := ⟨363, 2, 0, false⟩
def TAP_PERIOD : Fld := ⟨364, 32, 0, false⟩
def TAP_DISCARD : Fld := ⟨365, 32, 0, false⟩
/-! Fields of `spec/08_trigger_and_capture.md`. -/
def TS_CTRL_DISARM : Fld := ⟨366, 1, 0, false⟩
def TS_CTRL_ARM : Fld := ⟨367, 1, 0, false⟩
def TS_STATUS_RUNNING : Fld := ⟨368, 1, 0, false⟩
def TS_STATUS_STATE : Fld := ⟨369, 4, 0, false⟩
def TS_EVENT : Fld := ⟨370, 4, 0, false⟩
def TS_CFG : Fld := ⟨371, 4, 0, false⟩
def TS_PERIOD : Fld := ⟨372, 32, 0, false⟩
def TS_PHASE : Fld := ⟨373, 32, 0, false⟩
def TS_COUNTER : Fld := ⟨374, 32, 0, false⟩
def TS_TIMER : Fld := ⟨375, 32, 0, false⟩
def TS_WORD : Fld := ⟨376, 32, 0, false⟩
def TS_MISSED : Fld := ⟨377, 32, 0, false⟩
def TS_TRIG : Fld := ⟨378, 64, 0, false⟩
def TS_ST_CFG_CNT_KIND : Fld := ⟨379, 2, 0, false⟩
def TS_ST_CFG_KEEP : Fld := ⟨380, 1, 0, false⟩
def TS_ST_CFG_CNT_SRC : Fld := ⟨381, 14, 0, false⟩
def TS_COND_CFG_KIND : Fld := ⟨382, 4, 0, false⟩
def TS_COND_CFG_OP : Fld := ⟨383, 4, 0, false⟩
def TS_COND_CFG_NEXT : Fld := ⟨384, 4, 0, false⟩
def TS_COND_CFG_SRC : Fld := ⟨385, 14, 0, false⟩
def TS_COND_ARG : Fld := ⟨386, 32, 0, false⟩
def CS_CTRL_STREAM_OUT : Fld := ⟨387, 1, 0, false⟩
def CS_CTRL_REARM : Fld := ⟨388, 1, 0, false⟩
def CS_CTRL_FORCE : Fld := ⟨389, 1, 0, false⟩
def CS_STATUS_ARM_RESULT : Fld := ⟨390, 8, 0, false⟩
def CS_STATUS_STATE : Fld := ⟨391, 3, 0, false⟩
def CS_EVENT : Fld := ⟨392, 7, 0, false⟩
def CS_PRE_NS : Fld := ⟨393, 32, 0, false⟩
def CS_POST_NS : Fld := ⟨394, 32, 0, false⟩
def CS_AUTO_US : Fld := ⟨395, 32, 0, false⟩
def CS_REGION : Fld := ⟨396, 64, 0, false⟩
def CS_SLOT_CFG_SLOTS : Fld := ⟨397, 16, 0, false⟩
def CS_SLOT_CFG_SLOT_KIB : Fld := ⟨398, 16, 0, false⟩
def CS_HQ_CHUNKS : Fld := ⟨399, 13, 0, false⟩
def CS_HQ_HQ : Fld := ⟨400, 7, 0, false⟩
def CS_CAP_SEQ : Fld := ⟨401, 64, 0, true⟩
def CS_CONSUMED : Fld := ⟨402, 64, 0, false⟩
def CS_PRE_BYTES : Fld := ⟨403, 32, 0, false⟩
def CS_NEED_BYTES : Fld := ⟨404, 32, 0, false⟩
def CS_CHUNK_ACK : Fld := ⟨405, 13, 0, false⟩
def CH_SRC_KIND : Fld := ⟨406, 4, 0, false⟩
def CH_SRC_SIGNAL : Fld := ⟨407, 4, 0, false⟩
def CH_SRC_SET : Fld := ⟨408, 6, 0, false⟩
def CH_SRC_RING : Fld := ⟨409, 2, 0, false⟩
def CH_SRC_ID : Fld := ⟨410, 14, 0, false⟩
def CH_CFG_TIMED : Fld := ⟨411, 1, 0, false⟩
def CH_CFG_EDGE_MAX : Fld := ⟨412, 16, 64, false⟩
def CH_PERIOD : Fld := ⟨413, 32, 0, false⟩
def MU_CTRL_DISARM : Fld := ⟨414, 1, 0, false⟩
def MU_CTRL_ARM : Fld := ⟨415, 1, 0, false⟩
def MU_STATUS_VIOL_RUN : Fld := ⟨416, 8, 0, false⟩
def MU_STATUS_ENV_NOW : Fld := ⟨417, 8, 0, false⟩
def MU_STATUS_STATE : Fld := ⟨418, 2, 0, false⟩
def MU_EVENT : Fld := ⟨419, 5, 0, false⟩
def MU_CFG_VIOL_N : Fld := ⟨420, 8, 1, false⟩
def MU_CFG_FREEZE_SET : Fld := ⟨421, 5, 0, false⟩
def MU_CFG_ALIGN_TS : Fld := ⟨422, 5, 0, false⟩
def MU_CFG_ALIGN_TRIG : Fld := ⟨423, 1, 0, false⟩
def MU_CFG_STEP_SCOPED : Fld := ⟨424, 1, 1, false⟩
def MU_CFG_ACT : Fld := ⟨425, 4, 0, false⟩
def MU_PERIOD : Fld := ⟨426, 32, 0, false⟩
def MU_PHASE : Fld := ⟨427, 32, 0, false⟩
def MU_SRC : Fld := ⟨428, 14, 0, false⟩
def MU_ENV : Fld := ⟨429, 8, 0, false⟩
def MU_A : Fld := ⟨430, 64, 0, false⟩
def MU_VIOL_CNT : Fld := ⟨431, 32, 0, false⟩
def MU_UNTESTED : Fld := ⟨432, 32, 0, false⟩
def MU_LAST_V : Fld := ⟨433, 32, 0, false⟩
def POOL_FREE : Fld := ⟨434, 24, 131072, false⟩
def ENV_REGION : Fld := ⟨435, 64, 0, false⟩
def ENV_COUNT : Fld := ⟨436, 9, 0, false⟩
def ENV_LOAD : Fld := ⟨437, 8, 0, false⟩
/-! Fields of `spec/09_loom_beam_and_drafts.md`. -/
def LOOM_BEAM_STATUS_RESULT : Fld := ⟨438, 8, 0, false⟩
def LOOM_BEAM_STATUS_STATE : Fld := ⟨439, 2, 0, false⟩
def LOOM_BEAM_PROGRESS : Fld := ⟨440, 32, 0, false⟩
def LOOM_BEAM_VERSION : Fld := ⟨441, 32, 0, false⟩
def LOOM_BEAM_FRAMES : Fld := ⟨442, 32, 0, false⟩
def LOOM_BEAM_DIGEST : Fld := ⟨443, 32, 0, false⟩
def LOOM_STALL_CFG : Fld := ⟨444, 10, 10, false⟩
def LOOM_EVENT : Fld := ⟨445, 6, 0, false⟩
def LOOM_SCAN_ERR : Fld := ⟨446, 32, 0, false⟩
def LOOM_REPAIRS : Fld := ⟨447, 32, 0, false⟩
def LOOM_STALL_SRC_KIND : Fld := ⟨448, 4, 0, false⟩
def LOOM_STALL_SRC_ID : Fld := ⟨449, 14, 0, false⟩
def LOOM_EVT_OVF : Fld := ⟨450, 32, 0, false⟩
def LOOM_OVF_ROUTE : Fld := ⟨451, 13, 0, false⟩
def LP_CTRL_EXPECT : Fld := ⟨452, 4, 0, false⟩
def LP_CTRL_SLOT : Fld := ⟨453, 4, 15, false⟩
def LP_CTRL_EDIT_DISCARD : Fld := ⟨454, 1, 0, false⟩
def LP_CTRL_EDIT_COMMIT : Fld := ⟨455, 1, 0, false⟩
def LP_CTRL_APPLY : Fld := ⟨456, 1, 0, false⟩
def LP_STATUS_RESULT : Fld := ⟨457, 8, 0, false⟩
def LP_STATUS_ACTIVE : Fld := ⟨458, 4, 15, true⟩
def LP_STATUS_APPLY_STATE : Fld := ⟨459, 2, 0, false⟩
def LP_STATUS_FRAME_LOST : Fld := ⟨460, 1, 0, false⟩
def LP_STATUS_EDITS_PENDING : Fld := ⟨461, 1, 0, false⟩
def LP_EVENT : Fld := ⟨462, 8, 0, false⟩
def LP_LIBRARY_STAGE_KIB : Fld := ⟨463, 12, 0, false⟩
def LP_LIBRARY_STALE : Fld := ⟨464, 8, 0, false⟩
def LP_LIBRARY_VALID : Fld := ⟨465, 8, 0, false⟩
def LP_FLIP : Fld := ⟨466, 64, 0, false⟩
def LP_AT : Fld := ⟨467, 64, 0, false⟩
def LP_APPLY_AVG : Fld := ⟨468, 32, 0, false⟩
def LP_JSEQ : Fld := ⟨469, 64, 0, true⟩
def LP_EDIT_DROP : Fld := ⟨470, 32, 0, false⟩
def DS_STATE_RESULT : Fld := ⟨471, 8, 0, false⟩
def DS_STATE_STATE : Fld := ⟨472, 2, 0, true⟩
def DS_VERSION : Fld := ⟨473, 32, 0, true⟩
def DS_SIZE_FRAMES : Fld := ⟨474, 16, 0, true⟩
def DS_SIZE_UNITS16 : Fld := ⟨475, 16, 0, true⟩
def DS_NAME : Fld := ⟨476, 32, 0, true⟩
def ODO_OUT : Fld := ⟨477, 48, 0, true⟩
def ODO_OUT_SAT : Fld := ⟨478, 1, 0, true⟩
def VR_VALUE : Fld := ⟨479, 32, 0, false⟩
def LE_NET : Fld := ⟨480, 32, 0, false⟩
/-! Fields of `spec/10_shuttles_and_task_scheduler.md`. -/
def SCHED_STATUS_FREE_SLOTS : Fld := ⟨481, 13, 4096, false⟩
def SCHED_STATUS_INFLIGHT : Fld := ⟨482, 11, 0, false⟩
def SCHED_EVENT : Fld := ⟨483, 7, 0, false⟩
def SCHED_DISPATCH_CNT : Fld := ⟨484, 32, 0, false⟩
def SCHED_RETRY_CNT : Fld := ⟨485, 32, 0, false⟩
def SCHED_CANCEL_CNT : Fld := ⟨486, 32, 0, false⟩
def SCHED_CANCEL_LATE_CNT : Fld := ⟨487, 32, 0, false⟩
def SCHED_POISON_CNT : Fld := ⟨488, 32, 0, false⟩
def SCHED_TIMEOUT_CNT : Fld := ⟨489, 32, 0, false⟩
def SCHED_MISMATCH_CNT : Fld := ⟨490, 32, 0, false⟩
def SCHED_EVT_UNBOUND_CNT : Fld := ⟨491, 32, 0, false⟩
def SCHED_TEMPLATE_MISS_CNT : Fld := ⟨492, 32, 0, false⟩
def PS_QUOTA : Fld := ⟨493, 13, 256, false⟩
def PS_CFG : Fld := ⟨494, 1, 0, false⟩
def PS_USED : Fld := ⟨495, 13, 0, false⟩
def PS_WAIT_DEFAULT : Fld := ⟨496, 32, 1000000, false⟩
def PS_BUSY_CNT : Fld := ⟨497, 32, 0, false⟩
def PS_DISCARD_CNT : Fld := ⟨498, 32, 0, false⟩
def PS_HELD : Fld := ⟨499, 64, 0, false⟩
def WIN_BASE_BASE : Fld := ⟨500, 20, 0, false⟩
def WIN_BASE_ATTR : Fld := ⟨501, 3, 0, false⟩
def WIN_LIMIT : Fld := ⟨502, 20, 0, false⟩
def HQ_CFG_KIND : Fld := ⟨503, 4, 0, false⟩
def HQ_CFG_DEPTH_LOG2 : Fld := ⟨504, 4, 0, false⟩
def HQ_CFG_OWNER : Fld := ⟨505, 5, 0, false⟩
def HQ_CFG_EVENT : Fld := ⟨506, 16, 0, false⟩
def HQ_DEPTH : Fld := ⟨507, 15, 0, false⟩
def HQ_MAXDEPTH : Fld := ⟨508, 15, 0, false⟩
def HQ_PUSH_CNT : Fld := ⟨509, 32, 0, false⟩
def HQ_BUSY_CNT : Fld := ⟨510, 32, 0, false⟩
def HQ_DISCARD : Fld := ⟨511, 32, 0, false⟩
def SH_STATUS_STATE : Fld := ⟨512, 2, 0, false⟩
def SH_STATUS_RESERVED : Fld := ⟨513, 1, 0, false⟩
def SH_STATUS_RES_PART : Fld := ⟨514, 4, 0, false⟩
def SH_STATUS_SLOT : Fld := ⟨515, 12, 0, false⟩
def SH_LOAD : Fld := ⟨516, 16, 0, false⟩
def SH_FAULTS_LAST_CAUSE : Fld := ⟨517, 8, 0, false⟩
def SH_FAULTS_COUNT : Fld := ⟨518, 16, 0, false⟩
def SH_CTRL : Fld := ⟨519, 1, 0, false⟩
def LVL_RDY_DEPTH : Fld := ⟨520, 13, 0, false⟩
def LVL_WAIT_AVG : Fld := ⟨521, 32, 0, false⟩
def LVL_HIST : Fld := ⟨522, 32, 0, false⟩
def FLOW_STATE_HELD : Fld := ⟨523, 1, 0, false⟩
def FLOW_STATE_IN_SERVICE : Fld := ⟨524, 1, 0, false⟩
def FLOW_STATE_RELEASE : Fld := ⟨525, 1, 0, false⟩
def FLOW_STATE_DROP : Fld := ⟨526, 1, 0, false⟩
def FLOW_STATE_HELD_CAUSE : Fld := ⟨527, 8, 0, false⟩
def FLOW_STATE_PENDING : Fld := ⟨528, 16, 0, false⟩
def EVT_BIND_EN : Fld := ⟨529, 1, 0, false⟩
def EVT_BIND_TEMPLATE : Fld := ⟨530, 10, 0, false⟩
/-! Fields of `spec/11_cyclic_programs.md`. -/
def CP_CTRL_EXPECT : Fld := ⟨531, 2, 0, false⟩
def CP_CTRL_MODE : Fld := ⟨532, 2, 0, false⟩
def CP_CTRL_RESUME : Fld := ⟨533, 1, 0, false⟩
def CP_CTRL_HOLD : Fld := ⟨534, 1, 0, false⟩
def CP_CTRL_STOP : Fld := ⟨535, 1, 0, false⟩
def CP_CTRL_START : Fld := ⟨536, 1, 0, false⟩
def CP_STATUS_LOAD_RESULT : Fld := ⟨537, 8, 0, false⟩
def CP_STATUS_STOP_CAUSE : Fld := ⟨538, 8, 0, false⟩
def CP_STATUS_RETAIN_OK : Fld := ⟨539, 1, 0, false⟩
def CP_STATUS_DETERMINISTIC : Fld := ⟨540, 1, 0, false⟩
def CP_STATUS_LOADED : Fld := ⟨541, 1, 0, false⟩
def CP_STATUS_STATE : Fld := ⟨542, 2, 0, false⟩
def CP_EVENT : Fld := ⟨543, 10, 0, false⟩
def CP_VERSION : Fld := ⟨544, 32, 0, false⟩
def CP_STOP_T : Fld := ⟨545, 64, 0, false⟩
def CP_RETAIN : Fld := ⟨546, 9, 0, false⟩
def CP_RETAIN_SEQ : Fld := ⟨547, 64, 0, true⟩
def CP_OVERRUN_CNT : Fld := ⟨548, 32, 0, false⟩
def CP_PF_NS : Fld := ⟨549, 32, 0, false⟩
def CT_CFG_EN : Fld := ⟨550, 1, 0, false⟩
def CT_CFG_TEMPLATE : Fld := ⟨551, 6, 0, false⟩
def CT_PERIOD : Fld := ⟨552, 32, 0, false⟩
def CT_PHASE : Fld := ⟨553, 32, 0, false⟩
def CT_REL : Fld := ⟨554, 32, 0, false⟩
def CT_SCAN : Fld := ⟨555, 64, 0, false⟩
def CT_MARGIN : Fld := ⟨556, 32, 2147483647, false⟩
def CT_CLOSE_AVG : Fld := ⟨557, 32, 0, false⟩
def RJ_STATE : Fld := ⟨558, 32, 0, false⟩
/-! Fields of `spec/12_naend_field_ring.md`. -/
def RING_CTRL_DISCOVER : Fld := ⟨559, 1, 0, false⟩
def RING_CTRL_STOP : Fld := ⟨560, 1, 0, false⟩
def RING_CTRL_START : Fld := ⟨561, 1, 0, false⟩
def RING_CTRL_ROLE : Fld := ⟨562, 1, 0, false⟩
def RING_CTRL_EN : Fld := ⟨563, 1, 0, false⟩
def RING_STATUS_BREAK_POS : Fld := ⟨564, 8, 255, false⟩
def RING_STATUS_STATIONS : Fld := ⟨565, 8, 0, false⟩
def RING_STATUS_AUTH : Fld := ⟨566, 1, 0, false⟩
def RING_STATUS_BROKEN : Fld := ⟨567, 1, 0, false⟩
def RING_STATUS_BYPASSED : Fld := ⟨568, 1, 1, false⟩
def RING_STATUS_STATE : Fld := ⟨569, 3, 0, false⟩
def RING_EVENT : Fld := ⟨570, 13, 0, false⟩
def RING_PERIOD : Fld := ⟨571, 32, 1000000, false⟩
def RING_PHASE : Fld := ⟨572, 32, 0, false⟩
def RING_RX_LIMIT : Fld := ⟨573, 32, 20000, false⟩
def RING_LEAD_IN_LEAD_US : Fld := ⟨574, 16, 10, false⟩
def RING_LEAD_APPLY_US : Fld := ⟨575, 16, 25, false⟩
def RING_CFG_HOLD_MS : Fld := ⟨576, 16, 500, false⟩
def RING_CFG_AUTH_EN : Fld := ⟨577, 1, 0, false⟩
def RING_CFG_MISS_LIMIT : Fld := ⟨578, 4, 3, false⟩
def RING_WEFT : Fld := ⟨579, 9, 0, false⟩
def RING_CYCLE : Fld := ⟨580, 64, 0, false⟩
def RING_RX_LAST : Fld := ⟨581, 32, 0, false⟩
def RING_RX_WORST : Fld := ⟨582, 32, 0, false⟩
def RING_RESULT : Fld := ⟨583, 8, 0, false⟩
def RING_MASTER_ID : Fld := ⟨584, 32, 0, false⟩
def RING_LOST_CNT : Fld := ⟨585, 32, 0, false⟩
def RING_BREAK_CNT_COUNT : Fld := ⟨586, 16, 0, false⟩
def RING_BREAK_CNT_SEL_CNT : Fld := ⟨587, 16, 0, false⟩
def RING_AUTH_CNT : Fld := ⟨588, 32, 0, false⟩
def RING_MBX_CTRL_GO : Fld := ⟨589, 1, 0, false⟩
def RING_MBX_CTRL_LEN : Fld := ⟨590, 8, 0, false⟩
def RING_MBX_CTRL_STATION : Fld := ⟨591, 7, 0, false⟩
def RING_MBX_STATUS_RSP_LEN : Fld := ⟨592, 8, 0, false⟩
def RING_MBX_STATUS_SEQ : Fld := ⟨593, 8, 0, false⟩
def RING_MBX_STATUS_STATE : Fld := ⟨594, 2, 0, false⟩
def RING_MBX_TMO : Fld := ⟨595, 16, 100, false⟩
def RING_MBX_TX : Fld := ⟨596, 32, 0, false⟩
def RING_MBX_RX : Fld := ⟨597, 32, 0, false⟩
def RS_ST_EXPECT_VENDOR : Fld := ⟨598, 16, 0, false⟩
def RS_ST_EXPECT_PRODUCT : Fld := ⟨599, 16, 0, false⟩
def RS_ST_OUT_OFF : Fld := ⟨600, 14, 0, false⟩
def RS_ST_OUT_LEN : Fld := ⟨601, 12, 0, false⟩
def RS_ST_IN_OFF : Fld := ⟨602, 14, 0, false⟩
def RS_ST_IN_LEN : Fld := ⟨603, 12, 0, false⟩
def RS_ST_STATUS_OK : Fld := ⟨604, 1, 0, false⟩
def RS_ST_STATUS_ADMITTED : Fld := ⟨605, 1, 0, false⟩
def RS_ST_STATUS_AUTH : Fld := ⟨606, 1, 0, false⟩
def RS_ST_STATUS_REVERSE_FED : Fld := ⟨607, 1, 0, false⟩
def RS_ST_STATUS_MISS_RUN : Fld := ⟨608, 8, 0, false⟩
def RS_ST_STATUS_LAST_STATUS : Fld := ⟨609, 16, 0, false⟩
def RS_ST_DELAY : Fld := ⟨610, 32, 0, false⟩
def RS_ST_LAT_REV_NS : Fld := ⟨611, 16, 0, false⟩
def RS_ST_LAT_FWD_NS : Fld := ⟨612, 16, 0, false⟩
/-! Fields of `spec/13_safety.md`. -/
def SAF_STATUS_START_WAIT : Fld := ⟨613, 3, 1, false⟩
def SAF_STATUS_SCLK_FREE : Fld := ⟨614, 1, 0, false⟩
def SAF_STATUS_MATRIX_FAULT : Fld := ⟨615, 1, 0, false⟩
def SAF_STATUS_LINK_OK : Fld := ⟨616, 1, 0, false⟩
def SAF_STATUS_PROG_OK : Fld := ⟨617, 1, 0, false⟩
def SAF_STATUS_MATRIX_OK : Fld := ⟨618, 1, 0, false⟩
def SAF_STATUS_START_BLOCKED : Fld := ⟨619, 1, 0, false⟩
def SAF_STATUS_OVC_ARMED : Fld := ⟨620, 1, 0, false⟩
def SAF_STATUS_PHASE : Fld := ⟨621, 3, 0, false⟩
def SAF_PHASE_T : Fld := ⟨622, 64, 0, false⟩
def SAF_OVC_REMAIN_S : Fld := ⟨623, 12, 0, false⟩
def SAF_OVC_WINDOW_S : Fld := ⟨624, 12, 0, false⟩
def SAF_CNT_OVC_ENTRIES : Fld := ⟨625, 16, 0, false⟩
def SAF_CNT_CMP_MISMATCH : Fld := ⟨626, 16, 0, false⟩
def SAF_SIN : Fld := ⟨627, 32, 0, false⟩
def SAF_SIN_FAULT : Fld := ⟨628, 32, 0, false⟩
def SAF_SIN_A : Fld := ⟨629, 32, 0, false⟩
def SAF_SIN_B : Fld := ⟨630, 32, 0, false⟩
def SAF_SOUT_MATRIX : Fld := ⟨631, 16, 0, false⟩
def SAF_SOUT_PERMIT : Fld := ⟨632, 16, 0, false⟩
def SAF_SOUT_STATE_FAULT : Fld := ⟨633, 16, 0, false⟩
def SAF_SOUT_STATE_ENERGISED : Fld := ⟨634, 16, 0, false⟩
def SAF_TERMS : Fld := ⟨635, 64, 0, false⟩
def SAF_MATRIX_VER : Fld := ⟨636, 32, 0, false⟩
def SAF_MATRIX_CRC : Fld := ⟨637, 32, 0, false⟩
def SAF_PROG_VER : Fld := ⟨638, 32, 0, false⟩
def SAF_MATRIX_WRITES : Fld := ⟨639, 16, 0, true⟩
def SAF_CYCLE : Fld := ⟨640, 10, 0, false⟩
def SIN_CFG_FAULT_CAUSE : Fld := ⟨641, 8, 0, false⟩
def SIN_CFG_TEST : Fld := ⟨642, 2, 0, false⟩
def SIN_CFG_MODE : Fld := ⟨643, 2, 0, false⟩
def SIN_CFG_DISC_MS : Fld := ⟨644, 16, 0, false⟩
def SOUT_CFG_FAULT_CAUSE : Fld := ⟨645, 4, 0, false⟩
def SOUT_CFG_TPW_US : Fld := ⟨646, 10, 0, false⟩
def SOUT_CFG_TEST : Fld := ⟨647, 1, 0, false⟩
def SOUT_CFG_USED : Fld := ⟨648, 1, 0, false⟩
def SOUT_CFG_NB : Fld := ⟨649, 8, 0, false⟩
def WC_CONN : Fld := ⟨650, 32, 0, false⟩
def WC_STATUS_SEQ : Fld := ⟨651, 16, 0, false⟩
def WC_STATUS_ROLE : Fld := ⟨652, 1, 0, false⟩
def WC_STATUS_STATE : Fld := ⟨653, 3, 0, false⟩
def WC_ERR_SEQ_ERR : Fld := ⟨654, 16, 0, false⟩
def WC_ERR_CRC_ERR : Fld := ⟨655, 16, 0, false⟩
def WC_EXP_DEADLINE_MS : Fld := ⟨656, 10, 0, false⟩
def WC_EXP_EXPIRIES : Fld := ⟨657, 16, 0, false⟩
/-! Fields of `spec/14_tandem_redundancy.md`. -/
def TD_CFG_SOLO_START : Fld := ⟨658, 1, 0, false⟩
def TD_CFG_TAKEOVER_STALE : Fld := ⟨659, 1, 0, false⟩
def TD_CFG_UNIT : Fld := ⟨660, 1, 0, false⟩
def TD_CFG_EN : Fld := ⟨661, 1, 0, false⟩
def TD_PARTS : Fld := ⟨662, 16, 0, false⟩
def TD_LEASE_GUARD_US : Fld := ⟨663, 16, 100, false⟩
def TD_LEASE_LEASE_US : Fld := ⟨664, 16, 2000, false⟩
def TD_LINK_REPLAY_MS : Fld := ⟨665, 16, 5000, false⟩
def TD_LINK_MATCH_N : Fld := ⟨666, 8, 100, false⟩
def TD_CTRL_EXPECT : Fld := ⟨667, 3, 0, false⟩
def TD_CTRL_LEAVE : Fld := ⟨668, 1, 0, false⟩
def TD_CTRL_RESYNC : Fld := ⟨669, 1, 0, false⟩
def TD_CTRL_SWITCH : Fld := ⟨670, 1, 0, false⟩
def TD_CTRL_JOIN : Fld := ⟨671, 1, 0, false⟩
def TD_STATUS_TERM : Fld := ⟨672, 16, 0, false⟩
def TD_STATUS_PARTNER_ROLE : Fld := ⟨673, 3, 4, false⟩
def TD_STATUS_ROLE : Fld := ⟨674, 3, 4, false⟩
def TD_STATUS_ARBITRATING : Fld := ⟨675, 1, 0, false⟩
def TD_STATUS_WARP_SYNC : Fld := ⟨676, 1, 0, false⟩
def TD_STATUS_LINK_UP : Fld := ⟨677, 1, 0, false⟩
def TD_STATUS_SYNC_PHASE : Fld := ⟨678, 2, 0, false⟩
def TD_EVENT : Fld := ⟨679, 15, 0, false⟩
def TD_RESULT : Fld := ⟨680, 8, 0, false⟩
def TD_EXPIRY : Fld := ⟨681, 64, 0, false⟩
def TD_LOST_T : Fld := ⟨682, 64, 0, false⟩
def TD_GUARD_EFF : Fld := ⟨683, 32, 0, false⟩
def TD_OFFSET : Fld := ⟨684, 32, 0, false⟩
def TD_DIV_CNT : Fld := ⟨685, 32, 0, false⟩
def TD_DIV_WHERE_RING : Fld := ⟨686, 2, 0, false⟩
def TD_DIV_WHERE_CYCLE : Fld := ⟨687, 30, 0, false⟩
def TD_WITNESS : Fld := ⟨688, 4, 0, false⟩
def TD_MISS_CNT : Fld := ⟨689, 32, 0, false⟩
def LINK_ERR : Fld := ⟨690, 32, 0, false⟩
def TD_SYNC_AVG : Fld := ⟨691, 32, 0, false⟩
def TD_SWITCH_AT : Fld := ⟨692, 64, 0, false⟩
def TD_LAST_SWITCH : Fld := ⟨693, 64, 0, false⟩
def TD_PARTNER_ID : Fld := ⟨694, 32, 0, false⟩
def TD_LINK_TMO : Fld := ⟨695, 12, 50, false⟩
/-! Fields of `spec/15_security_and_updates.md`. -/
def SEC_STATUS_PUF_OK : Fld := ⟨696, 1, 0, false⟩
def SEC_STATUS_LIFECYCLE : Fld := ⟨697, 2, 0, true⟩
def SEC_STATUS_REVOKED : Fld := ⟨698, 4, 0, true⟩
def SEC_STATUS_PROGRAMMED : Fld := ⟨699, 4, 0, true⟩
def SEC_STATUS_DEBUG_LEVEL : Fld := ⟨700, 2, 0, false⟩
def SEC_STATUS_FLOOR_LOST : Fld := ⟨701, 1, 0, false⟩
def SEC_STATUS_KEYBLOCK_OK : Fld := ⟨702, 1, 0, false⟩
def SEC_EVENT : Fld := ⟨703, 8, 0, false⟩
def SEC_AUTH_RESULT_OP : Fld := ⟨704, 8, 0, false⟩
def SEC_AUTH_RESULT_RESULT : Fld := ⟨705, 8, 0, false⟩
def SEC_SERIAL : Fld := ⟨706, 64, 0, true⟩
def SEC_FW_FLOOR : Fld := ⟨707, 7, 0, true⟩
def SEC_BEAM_FLOOR : Fld := ⟨708, 32, 0, true⟩
def SEC_MATRIX_FLOOR : Fld := ⟨709, 32, 0, true⟩
def SEC_SAFEPROG_FLOOR : Fld := ⟨710, 32, 0, true⟩
def SEC_DEBUG_REMAIN : Fld := ⟨711, 17, 0, false⟩
def SEC_HOST_REFUSE_CNT : Fld := ⟨712, 32, 0, false⟩
def SEC_AUTHOR_KEYS : Fld := ⟨713, 64, 0, true⟩
def SEC_RING_KEYS_PENDING : Fld := ⟨714, 4, 0, false⟩
def SEC_RING_KEYS_KEYED : Fld := ⟨715, 4, 0, true⟩
def SEC_RECIPE_FLOOR : Fld := ⟨716, 32, 0, true⟩
def SEC_DRAFT_FLOOR : Fld := ⟨717, 32, 0, true⟩
def SEC_PROG_FLOOR : Fld := ⟨718, 32, 0, true⟩
def UPD_CTRL_EXPECT : Fld := ⟨719, 3, 0, false⟩
def UPD_CTRL_CANCEL : Fld := ⟨720, 1, 0, false⟩
def UPD_CTRL_CONFIRM : Fld := ⟨721, 1, 0, false⟩
def UPD_CTRL_ACTIVATE : Fld := ⟨722, 1, 0, false⟩
def UPD_STATUS_CHECK_RESULT : Fld := ⟨723, 8, 0, true⟩
def UPD_STATUS_APPLY_RESULT : Fld := ⟨724, 8, 0, false⟩
def UPD_STATUS_ACTIVE_SLOT : Fld := ⟨725, 1, 0, true⟩
def UPD_STATUS_STATE : Fld := ⟨726, 3, 0, true⟩
def UPD_EVENT : Fld := ⟨727, 8, 0, false⟩
def UPD_AT : Fld := ⟨728, 64, 0, false⟩
def UPD_ACT_T : Fld := ⟨729, 64, 0, true⟩
def UPD_PROGRESS : Fld := ⟨730, 32, 0, false⟩
def UPD_APPLY_AVG : Fld := ⟨731, 32, 0, false⟩
def UPD_SLOT_A_FW_SVN : Fld := ⟨732, 8, 0, true⟩
def UPD_SLOT_A_STATE : Fld := ⟨733, 2, 0, true⟩
def UPD_SLOT_B_FW_SVN : Fld := ⟨734, 8, 0, true⟩
def UPD_SLOT_B_STATE : Fld := ⟨735, 2, 0, true⟩
def BUNDLE_VER_A : Fld := ⟨736, 32, 0, true⟩
def BUNDLE_VER_B : Fld := ⟨737, 32, 0, true⟩
/-! Fields of `spec/16_power_states.md`. -/
def PWR_CTRL_MAX_STATE : Fld := ⟨738, 3, 3, false⟩
def PWR_CTRL_BOOST : Fld := ⟨739, 1, 0, false⟩
def PWR_STATUS_WAKE_PEND : Fld := ⟨740, 1, 0, false⟩
def PWR_STATUS_FAULT : Fld := ⟨741, 1, 0, false⟩
def PWR_STATUS_LOOM_ON : Fld := ⟨742, 4, 0, false⟩
def PWR_STATUS_PHASE : Fld := ⟨743, 2, 0, false⟩
def PWR_STATUS_TARGET : Fld := ⟨744, 3, 0, false⟩
def PWR_STATUS_STATE : Fld := ⟨745, 3, 0, false⟩
def PWR_EVENT : Fld := ⟨746, 7, 0, false⟩
def PWR_TOL_DEV : Fld := ⟨747, 32, 0, false⟩
def PWR_WAKE_EN_HOST : Fld := ⟨748, 1, 1, false⟩
def PWR_WAKE_EN_ALARM : Fld := ⟨749, 1, 0, false⟩
def PWR_WAKE_EN_WAKE_N : Fld := ⟨750, 1, 1, false⟩
def PWR_WAKE_EN_LULL : Fld := ⟨751, 1, 0, false⟩
def PWR_WAKE_SRC : Fld := ⟨752, 8, 0, false⟩
def PWR_ALARM : Fld := ⟨753, 64, 0, false⟩
def PWR_ENTRY_CFG_RETRY_MS : Fld := ⟨754, 8, 10, false⟩
def PWR_ENTRY_CFG_ENTRY_TMO_US : Fld := ⟨755, 16, 5000, false⟩
def PWR_WAKE_CFG_RET_MV : Fld := ⟨756, 12, 600, false⟩
def PWR_WAKE_CFG_WAKE_RETRY_MS : Fld := ⟨757, 8, 10, false⟩
def PWR_WAKE_CFG_WAKE_TMO_MS : Fld := ⟨758, 8, 20, false⟩
def PWR_REFUSE_CAUSE : Fld := ⟨759, 2, 0, false⟩
def PWR_REFUSE_TARGET : Fld := ⟨760, 3, 0, false⟩
def PWR_REFUSE_REFUSER : Fld := ⟨761, 8, 0, false⟩
def PWR_REFUSE_CNT : Fld := ⟨762, 32, 0, false⟩
def PWR_ABORT_CNT : Fld := ⟨763, 32, 0, false⟩
def PWR_WAKE_FAIL_CNT : Fld := ⟨764, 16, 0, false⟩
def PWR_WAKE_MERGED : Fld := ⟨765, 16, 0, false⟩
def PWR_HOLD : Fld := ⟨766, 16, 1000, false⟩
def LULL_CFG_BCAST_EN : Fld := ⟨767, 1, 0, false⟩
def LULL_CFG_ADDR : Fld := ⟨768, 8, 1, false⟩
def LULL_STATUS_LAST_CMD : Fld := ⟨769, 4, 0, false⟩
def LULL_STATUS_LAST_ADDR : Fld := ⟨770, 8, 0, false⟩
def LULL_CNT_MATCH : Fld := ⟨771, 16, 0, false⟩
def LULL_CNT_ERR : Fld := ⟨772, 16, 0, false⟩
def PWR_RES : Fld := ⟨773, 64, 0, false⟩
def PWR_ENTRIES : Fld := ⟨774, 32, 0, false⟩
def PWR_PART_TOL : Fld := ⟨775, 32, 0, false⟩
def PWR_PART_CFG : Fld := ⟨776, 1, 0, false⟩
/-! Fields of `spec/17_reset_and_startup.md`. -/
def RST_CAUSE_WARM : Fld := ⟨777, 1, 0, false⟩
def RST_CAUSE_CKPT_FOUND : Fld := ⟨778, 1, 0, false⟩
def RST_CAUSE_WARP_KEPT : Fld := ⟨779, 1, 0, false⟩
def RST_CAUSE_CAUSE : Fld := ⟨780, 8, 0, false⟩
def RST_STAGE_FAIL_CODE : Fld := ⟨781, 8, 0, false⟩
def RST_STAGE_FAIL_STEP : Fld := ⟨782, 8, 0, false⟩
def RST_STAGE_STAGE : Fld := ⟨783, 8, 1, false⟩
def RST_CTRL_KEY : Fld := ⟨784, 16, 0, false⟩
def RST_CTRL_DEVICE : Fld := ⟨785, 1, 0, false⟩
def RST_CFG_SYNC_WAIT_MS : Fld := ⟨786, 16, 0, false⟩
def RST_CFG_WDT_MS : Fld := ⟨787, 15, 1000, false⟩
def RST_CFG_WARM_EN : Fld := ⟨788, 1, 1, false⟩
def CKPT_SEQ : Fld := ⟨789, 64, 0, true⟩
def CKPT_T : Fld := ⟨790, 64, 0, true⟩
def RST_BOOT_US : Fld := ⟨791, 32, 0, false⟩
def RST_PART_AVG : Fld := ⟨792, 32, 0, false⟩
def RST_PART_PR_DONE : Fld := ⟨793, 1, 0, false⟩
def RST_PART_IN_RESET : Fld := ⟨794, 1, 0, false⟩
def RST_PART_EXPECT : Fld := ⟨795, 2, 0, false⟩
def RST_PART_STATE_MISMATCH : Fld := ⟨796, 1, 0, false⟩
def RST_PART_RESET : Fld := ⟨797, 1, 0, false⟩
def RESUME_CFG_RESUME_RESULT : Fld := ⟨798, 8, 0, false⟩
def RESUME_CFG_RESUME_UNTIMED : Fld := ⟨799, 1, 0, false⟩
def RESUME_CFG_RESUME_MS : Fld := ⟨800, 16, 2000, false⟩
/-! Fields of `spec/18_host_memory_and_address_map.md`. -/
def SYS_FAULT : Fld := ⟨801, 21, 0, false⟩
def SYS_FAULT_LAST : Fld := ⟨802, 5, 0, false⟩
def SYS_FAULT_T : Fld := ⟨803, 64, 0, false⟩
def SYS_DEVFAULT : Fld := ⟨804, 8, 0, false⟩
def SYS_DISCARD_REASON : Fld := ⟨805, 4, 0, false⟩
def SYS_DISCARD_OFFSET : Fld := ⟨806, 28, 0, false⟩
def SYS_DISCARD_CNT : Fld := ⟨807, 32, 0, false⟩
def HOST_STATUS_PCIE_GEN : Fld := ⟨808, 4, 0, false⟩
def HOST_STATUS_PCIE_WIDTH : Fld := ⟨809, 4, 0, false⟩
def HOST_STATUS_BOOTING : Fld := ⟨810, 1, 1, false⟩
def HOST_STATUS_ETH_UP : Fld := ⟨811, 2, 0, false⟩
def HOST_EVENT : Fld := ⟨812, 4, 0, false⟩
def BAR2_BASE : Fld := ⟨813, 8, 0, false⟩
def MGMT_DIV_CNT : Fld := ⟨814, 32, 0, false⟩
def MBX_DB : Fld := ⟨815, 7, 0, false⟩
def MBX_STATE_CONS : Fld := ⟨816, 7, 0, false⟩
def MBX_STATE_COMP : Fld := ⟨817, 7, 0, false⟩
def PV_STATE_ACTIVE : Fld := ⟨818, 4, 15, false⟩
def PV_STATE_TREADLE : Fld := ⟨819, 2, 0, false⟩
def PV_STATE_PROGRAM : Fld := ⟨820, 2, 0, false⟩
def PV_STEP : Fld := ⟨821, 16, 65535, false⟩
def PV_T : Fld := ⟨822, 64, 0, false⟩
def PV_SEQ : Fld := ⟨823, 32, 0, false⟩
def INT_MAP_EN : Fld := ⟨824, 1, 0, false⟩
def INT_MAP_VECTOR : Fld := ⟨825, 6, 0, false⟩
def ETH_CFG_VLAN_ID : Fld := ⟨826, 12, 0, false⟩
def ETH_CFG_VLAN_EN : Fld := ⟨827, 1, 0, false⟩
def ETH_CFG_MGMT_EN : Fld := ⟨828, 1, 0, false⟩
def ETH_CFG_MODE : Fld := ⟨829, 2, 0, false⟩
def ETH_IP : Fld := ⟨830, 32, 0, false⟩
def ETH_MASK : Fld := ⟨831, 32, 0, false⟩
def ETH_GW : Fld := ⟨832, 32, 0, false⟩
def ETH_MTU : Fld := ⟨833, 14, 1500, false⟩
def ETH_MGMT_PORT : Fld := ⟨834, 16, 20410, false⟩
def ETH_ALLOW : Fld := ⟨835, 32, 0, false⟩
def SK_COLLECT_IP : Fld := ⟨836, 32, 0, false⟩
def SK_COLLECT_PORT_DST : Fld := ⟨837, 16, 0, false⟩
def SK_COLLECT_PORT_SRC : Fld := ⟨838, 16, 0, false⟩
def SK_STREAMS : Fld := ⟨839, 17, 0, false⟩
def PTP_CFG_DOMAIN : Fld := ⟨840, 8, 0, false⟩
def PTP_CFG_MASTER_EN : Fld := ⟨841, 1, 0, false⟩
def PTP_CFG_PROFILE : Fld := ⟨842, 2, 0, false⟩
def PTP_CFG_ONE_STEP : Fld := ⟨843, 1, 0, false⟩
def PTP_CFG_EN : Fld := ⟨844, 1, 0, false⟩
def PTP_LAT_EGR_LAT_NS : Fld := ⟨845, 16, 0, false⟩
def PTP_LAT_ING_LAT_NS : Fld := ⟨846, 16, 0, false⟩
def PTP_STATUS : Fld := ⟨847, 2, 0, false⟩
def PTP_OFFSET : Fld := ⟨848, 32, 0, false⟩
def ETH_RX_DROP : Fld := ⟨849, 32, 0, false⟩
def WEFT_PEER_IP : Fld := ⟨850, 32, 0, false⟩
def WEFT_PEER_PORT_DST : Fld := ⟨851, 16, 0, false⟩
def WEFT_PEER_PORT_SRC : Fld := ⟨852, 16, 0, false⟩
def MEM_DRAM_STATUS_RATE : Fld := ⟨853, 8, 0, false⟩
def MEM_DRAM_STATUS_POP_GIB : Fld := ⟨854, 8, 0, false⟩
def MEM_DRAM_STATUS_TRAINED : Fld := ⟨855, 1, 0, false⟩
def MEM_DRAM_STATUS_ECC_ON : Fld := ⟨856, 1, 0, false⟩
def MEM_DRAM_USABLE : Fld := ⟨857, 32, 0, false⟩
def MEM_CE_SRAM : Fld := ⟨858, 32, 0, false⟩
def MEM_CE_MRAM : Fld := ⟨859, 32, 0, false⟩
def MEM_CE_DRAM : Fld := ⟨860, 32, 0, false⟩
def MEM_ECC_UE_CNT_SRAM : Fld := ⟨861, 8, 0, false⟩
def MEM_ECC_UE_CNT_MRAM : Fld := ⟨862, 8, 0, false⟩
def MEM_ECC_UE_CNT_DRAM : Fld := ⟨863, 8, 0, false⟩
def MEM_ECC_ADDR : Fld := ⟨864, 36, 0, false⟩
def MEM_ECC_LAST_MEM : Fld := ⟨865, 2, 0, false⟩
def MEM_ECC_LAST_UE : Fld := ⟨866, 1, 0, false⟩
def MEM_DRAM_SCRUB : Fld := ⟨867, 16, 0, false⟩
/-! Fields of `spec/19_electrical_and_package.md`. -/
def TJ_NOW : Fld := ⟨868, 16, 0, false⟩
def TJ_PEAK : Fld := ⟨869, 16, 32768, false⟩
def LIFE_HOURS : Fld := ⟨870, 32, 0, true⟩
def LIFE_TJ_AVG : Fld := ⟨871, 16, 0, true⟩
def LIFE_VCORE_AVG : Fld := ⟨872, 12, 0, true⟩
def PMB_ICORE : Fld := ⟨873, 16, 0, false⟩
def PMB_STATUS : Fld := ⟨874, 16, 0, false⟩
def PMB_CFG_POLL_MS : Fld := ⟨875, 8, 10, false⟩
def PMB_CFG_CORE_ADDR : Fld := ⟨876, 7, 0, true⟩
/-! The MSI-X table and pending bits (18 R428), in PCI Express's layout (PRESUMED, assumption 84). -/
def MSIX_ADDR_LO : Fld := ⟨877, 32, 0, false⟩
def MSIX_ADDR_HI : Fld := ⟨878, 32, 0, false⟩
def MSIX_DATA : Fld := ⟨879, 32, 0, false⟩
def MSIX_MASK : Fld := ⟨880, 1, 1, false⟩
def MSIX_PBA : Fld := ⟨881, 32, 0, false⟩

end F

/-- Registers of `spec/00_scope.md`. -/
def regRows00 : List RegRow := [
  ⟨"SYS_ID", 0x0000000, [], .word, [⟨F.SYS_ID_FAMILY, 16, 16, 0, .ro⟩, ⟨F.SYS_ID_PART, 0, 16, 0, .ro⟩]⟩,
  ⟨"SYS_STEP", 0x0000004, [], .word, [⟨F.SYS_STEP_MAJOR, 4, 4, 0, .ro⟩, ⟨F.SYS_STEP_MINOR, 0, 4, 0, .ro⟩]⟩,
  ⟨"SYS_GRADE", 0x0000008, [], .word, [⟨F.SYS_GRADE, 0, 8, 0, .ro⟩]⟩]

/-- Registers of `spec/02_warp_time_base.md`. -/
def regRows01 : List RegRow := [
  ⟨"WARP_NOW_LO", 0x0100000, [], .low, [⟨F.WARP_NOW, 0, 32, 0, .ro⟩]⟩,
  ⟨"WARP_NOW_HI", 0x0100004, [], .high, [⟨F.WARP_NOW, 0, 32, 32, .ro⟩]⟩,
  ⟨"WARP_STATUS", 0x0100008, [], .word, [⟨F.WARP_STATUS_MON_OK, 7, 1, 0, .ro⟩, ⟨F.WARP_STATUS_RATE_CLAMPED, 6, 1, 0, .ro⟩, ⟨F.WARP_STATUS_SLEW_ACTIVE, 5, 1, 0, .ro⟩, ⟨F.WARP_STATUS_EPOCH, 4, 1, 0, .ro⟩, ⟨F.WARP_STATUS_COARSE, 3, 1, 0, .ro⟩, ⟨F.WARP_STATUS_HOLDOVER, 2, 1, 0, .ro⟩, ⟨F.WARP_STATUS_LOCKED, 1, 1, 0, .ro⟩, ⟨F.WARP_STATUS_REF_OK, 0, 1, 0, .ro⟩]⟩,
  ⟨"WARP_EVENT", 0x010000C, [], .word, [⟨F.WARP_EVENT_AVS_FAULT, 8, 1, 0, .w1c⟩, ⟨F.WARP_EVENT_SLACK_ALARM, 7, 1, 0, .w1c⟩, ⟨F.WARP_EVENT_COARSE_USED, 6, 1, 0, .w1c⟩, ⟨F.WARP_EVENT_SYNC_LATE, 5, 1, 0, .w1c⟩, ⟨F.WARP_EVENT_STEP_REFUSED, 4, 1, 0, .w1c⟩, ⟨F.WARP_EVENT_STEP_DONE, 3, 1, 0, .w1c⟩, ⟨F.WARP_EVENT_HOLDOVER_EXIT, 2, 1, 0, .w1c⟩, ⟨F.WARP_EVENT_REF_FREQ, 1, 1, 0, .w1c⟩, ⟨F.WARP_EVENT_REF_LOST, 0, 1, 0, .w1c⟩]⟩,
  ⟨"RATE_ADJ", 0x0100010, [], .word, [⟨F.RATE_ADJ, 0, 32, 0, .rw⟩]⟩,
  ⟨"SLEW_NS", 0x0100014, [], .word, [⟨F.SLEW_NS, 0, 32, 0, .rw⟩]⟩,
  ⟨"SLEW_CFG", 0x0100018, [], .word, [⟨F.SLEW_CFG, 0, 9, 0, .rw⟩]⟩,
  ⟨"STEP_TO_LO", 0x0100020, [], .low, [⟨F.STEP_TO, 0, 32, 0, .rw⟩]⟩,
  ⟨"STEP_TO_HI", 0x0100024, [], .high, [⟨F.STEP_TO, 0, 32, 32, .rw⟩]⟩,
  ⟨"STEP_CTRL", 0x0100028, [], .word, [⟨F.STEP_CTRL_RESULT, 8, 3, 0, .ro⟩, ⟨F.STEP_CTRL_EPOCH_TAI, 1, 1, 0, .rw⟩, ⟨F.STEP_CTRL_GO, 0, 1, 0, .wo⟩]⟩,
  ⟨"WARP_REF_MON", 0x0100030, [], .word, [⟨F.WARP_REF_MON_WARP_ERR, 16, 16, 0, .ro⟩, ⟨F.WARP_REF_MON_FREQ_ERR, 0, 16, 0, .ro⟩]⟩,
  ⟨"HOLDOVER_CFG", 0x0100034, [], .word, [⟨F.HOLDOVER_CFG, 0, 16, 0, .rw⟩]⟩,
  ⟨"COARSE_NS_LO", 0x0100038, [], .low, [⟨F.COARSE_NS, 0, 32, 0, .ro⟩]⟩,
  ⟨"COARSE_NS_HI", 0x010003C, [], .high, [⟨F.COARSE_NS, 0, 32, 32, .ro⟩]⟩,
  ⟨"PPS_IN_LO", 0x0100040, [], .low, [⟨F.PPS_IN, 0, 32, 0, .ro⟩]⟩,
  ⟨"PPS_IN_HI", 0x0100044, [], .high, [⟨F.PPS_IN, 0, 32, 32, .ro⟩]⟩,
  ⟨"SYNC_IN_LO", 0x0100050, [], .low, [⟨F.SYNC_IN, 0, 32, 0, .ro⟩]⟩,
  ⟨"SYNC_IN_HI", 0x0100054, [], .high, [⟨F.SYNC_IN, 0, 32, 32, .ro⟩]⟩,
  ⟨"PPS_OUT_CFG", 0x0100048, [], .word, [⟨F.PPS_OUT_CFG_WIDTH_US, 8, 19, 0, .rw⟩, ⟨F.PPS_OUT_CFG_EN, 0, 1, 0, .rw⟩]⟩,
  ⟨"PPS_OUT_OFFSET", 0x010004C, [], .word, [⟨F.PPS_OUT_OFFSET, 0, 32, 0, .rw⟩]⟩,
  ⟨"SYNC_IN_CFG", 0x0100058, [], .word, [⟨F.SYNC_IN_CFG_MIN_NS, 8, 8, 0, .rw⟩, ⟨F.SYNC_IN_CFG_POL, 0, 1, 0, .rw⟩]⟩,
  ⟨"SYNC_OUT_AT_LO", 0x0100060, [], .low, [⟨F.SYNC_OUT_AT, 0, 32, 0, .rw⟩]⟩,
  ⟨"SYNC_OUT_AT_HI", 0x0100064, [], .high, [⟨F.SYNC_OUT_AT, 0, 32, 32, .rw⟩]⟩,
  ⟨"SYNC_OUT_CFG", 0x0100068, [], .word, [⟨F.SYNC_OUT_CFG_WIDTH_NS, 16, 16, 0, .rw⟩, ⟨F.SYNC_OUT_CFG_POL, 1, 1, 0, .rw⟩, ⟨F.SYNC_OUT_CFG_ARM, 0, 1, 0, .rw⟩]⟩]

/-- Registers of `spec/02_warp_time_base.md`. -/
def regRows02 : List RegRow := [
  ⟨"SLACK_WINDOW", 0x0100070, [], .word, [⟨F.SLACK_WINDOW, 0, 16, 0, .rw⟩]⟩,
  ⟨"SLACK_TARGET", 0x0100074, [], .word, [⟨F.SLACK_TARGET_HYST_NS, 16, 16, 0, .rw⟩, ⟨F.SLACK_TARGET_TARGET_NS, 0, 16, 0, .rw⟩]⟩,
  ⟨"SLACK_MIN", 0x0100078, [], .word, [⟨F.SLACK_MIN, 0, 32, 0, .ro⟩]⟩,
  ⟨"SLACK_SRC", 0x010007C, [], .word, [⟨F.SLACK_SRC_VALID, 31, 1, 0, .ro⟩, ⟨F.SLACK_SRC_KIND, 12, 2, 0, .ro⟩, ⟨F.SLACK_SRC_ID, 0, 10, 0, .ro⟩]⟩,
  ⟨"SLACK_LOW", 0x0100080, [], .word, [⟨F.SLACK_LOW, 0, 32, 0, .rc⟩]⟩,
  ⟨"AVS_CTRL", 0x0100084, [], .word, [⟨F.AVS_CTRL_LATE_MV, 24, 8, 0, .rw⟩, ⟨F.AVS_CTRL_DOWN_MV, 16, 8, 0, .rw⟩, ⟨F.AVS_CTRL_UP_MV, 8, 8, 0, .rw⟩, ⟨F.AVS_CTRL_MODE, 0, 2, 0, .rw⟩]⟩,
  ⟨"AVS_LIMITS", 0x0100088, [], .word, [⟨F.AVS_LIMITS_VMAX_MV, 16, 12, 0, .rwl⟩, ⟨F.AVS_LIMITS_VMIN_MV, 0, 12, 0, .rwl⟩]⟩,
  ⟨"AVS_SET", 0x010008C, [], .word, [⟨F.AVS_SET_BOOT_MV, 16, 12, 0, .rwl⟩, ⟨F.AVS_SET_FIXED_MV, 0, 12, 0, .rwl⟩]⟩,
  ⟨"AVS_STATUS", 0x0100090, [], .word, [⟨F.AVS_STATUS_FAULT, 29, 1, 0, .ro⟩, ⟨F.AVS_STATUS_AT_MAX, 28, 1, 0, .ro⟩, ⟨F.AVS_STATUS_READ_MV, 16, 12, 0, .ro⟩, ⟨F.AVS_STATUS_CMD_MV, 0, 12, 0, .ro⟩]⟩]

/-- Registers of `spec/03_loop_control_law.md`. -/
def regRows03 : List RegRow := [
  ⟨"LC_CTRL", 0x0200000, [(0x100, 1024)], .word, [⟨F.LC_CTRL_INIT_LEVEL, 16, 2, 0, .rwl⟩, ⟨F.LC_CTRL_VIEW, 10, 1, 0, .rw⟩, ⟨F.LC_CTRL_COPY, 9, 1, 0, .wo⟩, ⟨F.LC_CTRL_SWAP, 8, 1, 0, .wo⟩, ⟨F.LC_CTRL_MODE, 1, 1, 0, .rwl⟩, ⟨F.LC_CTRL_ENABLE, 0, 1, 0, .rwl⟩]⟩,
  ⟨"LC_STATUS", 0x0200004, [(0x100, 1024)], .word, [⟨F.LC_STATUS_CFG_ERR, 16, 4, 0, .ro⟩, ⟨F.LC_STATUS_EVT_ARMED, 8, 1, 0, .ro⟩, ⟨F.LC_STATUS_DWELL_WAIT, 7, 1, 0, .ro⟩, ⟨F.LC_STATUS_SHADOW_VALID, 6, 1, 0, .ro⟩, ⟨F.LC_STATUS_ACTIVE_BANK, 5, 1, 0, .ro⟩, ⟨F.LC_STATUS_RUNNING, 4, 1, 0, .ro⟩, ⟨F.LC_STATUS_SAT_LO, 3, 1, 0, .ro⟩, ⟨F.LC_STATUS_SAT_HI, 2, 1, 0, .ro⟩, ⟨F.LC_STATUS_LEVEL, 0, 2, 0, .ro⟩]⟩,
  ⟨"LC_EVENT", 0x0200008, [(0x100, 1024)], .word, [⟨F.LC_EVENT_ODO_SAT, 5, 1, 0, .w1c⟩, ⟨F.LC_EVENT_LEVEL_CLAMPED, 4, 1, 0, .w1c⟩, ⟨F.LC_EVENT_ENABLE_REFUSED, 3, 1, 0, .w1c⟩, ⟨F.LC_EVENT_SHADOW_DROP, 2, 1, 0, .w1c⟩, ⟨F.LC_EVENT_SWAP_REFUSED, 1, 1, 0, .w1c⟩, ⟨F.LC_EVENT_SWAP_DONE, 0, 1, 0, .w1c⟩]⟩,
  ⟨"LC_ROUTE", 0x020000C, [(0x100, 1024)], .word, [⟨F.LC_ROUTE_DEST_KIND, 30, 2, 0, .ro⟩, ⟨F.LC_ROUTE_RING_FMT, 29, 1, 0, .ro⟩, ⟨F.LC_ROUTE_Y_WIDE, 28, 1, 0, .ro⟩, ⟨F.LC_ROUTE_Y_KIND, 26, 2, 0, .ro⟩, ⟨F.LC_ROUTE_SP_SRC, 24, 2, 0, .ro⟩, ⟨F.LC_ROUTE_SPD_DIFF, 23, 1, 0, .ro⟩]⟩,
  ⟨"LC_SRC", 0x0200010, [(0x100, 1024)], .word, [⟨F.LC_SRC_SP_ID, 16, 14, 0, .ro⟩, ⟨F.LC_SRC_Y_ID, 0, 14, 0, .ro⟩]⟩,
  ⟨"LC_DEST", 0x0200014, [(0x100, 1024)], .word, [⟨F.LC_DEST_RING, 30, 2, 0, .ro⟩, ⟨F.LC_DEST_DEST_ID, 0, 14, 0, .ro⟩]⟩,
  ⟨"LC_PERIOD", 0x0200018, [(0x100, 1024)], .word, [⟨F.LC_PERIOD, 0, 32, 0, .rwl⟩]⟩,
  ⟨"LC_PHASE", 0x020001C, [(0x100, 1024)], .word, [⟨F.LC_PHASE, 0, 32, 0, .rwl⟩]⟩,
  ⟨"LC_LATENCY", 0x0200020, [(0x100, 1024)], .word, [⟨F.LC_LATENCY, 0, 32, 0, .rwl⟩]⟩,
  ⟨"LC_PWM_PERIOD", 0x0200024, [(0x100, 1024)], .word, [⟨F.LC_PWM_PERIOD, 0, 24, 0, .rwl⟩]⟩,
  ⟨"LC_EVT_CFG", 0x0200028, [(0x100, 1024)], .word, [⟨F.LC_EVT_CFG, 0, 10, 0, .rwl⟩]⟩,
  ⟨"LC_EVT_CODES", 0x020002C, [(0x100, 1024)], .word, [⟨F.LC_EVT_CODES_HI_CODE, 16, 12, 0, .ro⟩, ⟨F.LC_EVT_CODES_LO_CODE, 0, 12, 0, .ro⟩]⟩,
  ⟨"LC_SP", 0x0200030, [(0x100, 1024)], .word, [⟨F.LC_SP, 0, 32, 0, .ro⟩]⟩,
  ⟨"LC_SP_DOT", 0x0200034, [(0x100, 1024)], .word, [⟨F.LC_SP_DOT, 0, 32, 0, .ro⟩]⟩,
  ⟨"LC_Y", 0x0200038, [(0x100, 1024)], .word, [⟨F.LC_Y, 0, 32, 0, .ro⟩]⟩,
  ⟨"LC_E", 0x020003C, [(0x100, 1024)], .word, [⟨F.LC_E, 0, 32, 0, .ro⟩]⟩,
  ⟨"LC_C", 0x0200040, [(0x100, 1024)], .word, [⟨F.LC_C, 0, 32, 0, .ro⟩]⟩,
  ⟨"LC_W", 0x0200044, [(0x100, 1024)], .word, [⟨F.LC_W, 0, 32, 0, .ro⟩]⟩,
  ⟨"LC_U", 0x0200048, [(0x100, 1024)], .word, [⟨F.LC_U, 0, 32, 0, .ro⟩]⟩,
  ⟨"LC_C_STATE_LO", 0x020004C, [(0x100, 1024)], .low, [⟨F.LC_C_STATE, 0, 32, 0, .rwl⟩]⟩,
  ⟨"LC_C_STATE_HI", 0x0200050, [(0x100, 1024)], .high, [⟨F.LC_C_STATE, 0, 16, 32, .rwl⟩]⟩,
  ⟨"LC_SAT_CNT", 0x0200054, [(0x100, 1024)], .word, [⟨F.LC_SAT_CNT, 0, 32, 0, .rc⟩]⟩,
  ⟨"LC_SAT_SRC", 0x0200058, [(0x100, 1024)], .word, [⟨F.LC_SAT_SRC, 0, 7, 0, .w1c⟩]⟩,
  ⟨"LC_ODO_LO", 0x020005C, [(0x100, 1024)], .low, [⟨F.LC_ODO, 0, 32, 0, .ro⟩]⟩]

/-- Registers of `spec/03_loop_control_law.md`. -/
def regRows04 : List RegRow := [
  ⟨"LC_ODO_HI", 0x0200060, [(0x100, 1024)], .high, [⟨F.LC_ODO, 0, 16, 32, .ro⟩]⟩,
  ⟨"LC_DWELL_BLOCK", 0x0200064, [(0x100, 1024)], .word, [⟨F.LC_DWELL_BLOCK, 0, 32, 0, .rc⟩]⟩,
  ⟨"LC_SAFE_U", 0x0200068, [(0x100, 1024)], .word, [⟨F.LC_SAFE_U, 0, 32, 0, .rwl⟩]⟩]

/-- Registers of `spec/04_loop_timing_and_supervision.md`. -/
def regRows05 : List RegRow := [
  ⟨"LC_SUP_CFG", 0x0200070, [(0x100, 1024)], .word, [⟨F.LC_SUP_CFG_LATE_LIMIT, 16, 4, 0, .rwl⟩, ⟨F.LC_SUP_CFG_NR, 8, 8, 0, .rwl⟩, ⟨F.LC_SUP_CFG_SUP_EN, 6, 1, 0, .rwl⟩, ⟨F.LC_SUP_CFG_FAULT_REACT, 5, 1, 0, .rwl⟩, ⟨F.LC_SUP_CFG_SUB_AT_COMMIT, 4, 1, 0, .rwl⟩, ⟨F.LC_SUP_CFG_SUB_ESC, 3, 1, 0, .rwl⟩, ⟨F.LC_SUP_CFG_PRE_SUB, 2, 1, 0, .rwl⟩, ⟨F.LC_SUP_CFG_REACT, 0, 2, 0, .rwl⟩]⟩,
  ⟨"LC_RES_LIM", 0x0200074, [(0x100, 1024)], .word, [⟨F.LC_RES_LIM, 0, 31, 0, .rwl⟩]⟩,
  ⟨"LC_MODEL_K", 0x0200078, [(0x100, 1024)], .word, [⟨F.LC_MODEL_K, 0, 32, 0, .rwl⟩]⟩,
  ⟨"LC_MODEL_B", 0x020007C, [(0x100, 1024)], .word, [⟨F.LC_MODEL_B, 0, 32, 0, .rwl⟩]⟩,
  ⟨"LC_MODEL_CFG", 0x0200080, [(0x100, 1024)], .word, [⟨F.LC_MODEL_CFG_DEAD, 24, 6, 0, .rwl⟩, ⟨F.LC_MODEL_CFG_S_K, 16, 6, 0, .rwl⟩, ⟨F.LC_MODEL_CFG_MODEL_A, 0, 16, 0, .rwl⟩]⟩,
  ⟨"LC_SUP_TIME", 0x0200084, [(0x100, 1024)], .word, [⟨F.LC_SUP_TIME_STALL_US, 16, 10, 0, .rwl⟩, ⟨F.LC_SUP_TIME_SUB_TIME_MS, 0, 16, 0, .rwl⟩]⟩,
  ⟨"LC_YM", 0x0200088, [(0x100, 1024)], .word, [⟨F.LC_YM, 0, 32, 0, .ro⟩]⟩,
  ⟨"LC_RESID", 0x020008C, [(0x100, 1024)], .word, [⟨F.LC_RESID, 0, 32, 0, .ro⟩]⟩,
  ⟨"LC_SUP_STATUS", 0x0200090, [(0x100, 1024)], .word, [⟨F.LC_SUP_STATUS_FAULT_CAUSE, 24, 6, 0, .ro⟩, ⟨F.LC_SUP_STATUS_OK_RUN, 16, 8, 0, .ro⟩, ⟨F.LC_SUP_STATUS_VIOL_RUN, 8, 8, 0, .ro⟩, ⟨F.LC_SUP_STATUS_LATE_RUN, 4, 4, 0, .ro⟩, ⟨F.LC_SUP_STATUS_SUP_STATE, 0, 2, 0, .ro⟩]⟩,
  ⟨"LC_SUP_EVENT", 0x0200094, [(0x100, 1024)], .word, [⟨F.LC_SUP_EVENT_CLEAR_REFUSED, 7, 1, 0, .w1c⟩, ⟨F.LC_SUP_EVENT_ST_DONE, 6, 1, 0, .w1c⟩, ⟨F.LC_SUP_EVENT_Y_STALE, 5, 1, 0, .w1c⟩, ⟨F.LC_SUP_EVENT_LATE, 4, 1, 0, .w1c⟩, ⟨F.LC_SUP_EVENT_LOOP_FAULT, 3, 1, 0, .w1c⟩, ⟨F.LC_SUP_EVENT_SUB_ENDED, 2, 1, 0, .w1c⟩, ⟨F.LC_SUP_EVENT_SUB_START, 1, 1, 0, .w1c⟩, ⟨F.LC_SUP_EVENT_PLAUS_VIOL, 0, 1, 0, .w1c⟩]⟩,
  ⟨"LC_DIAG_CNT", 0x0200098, [(0x100, 1024)], .word, [⟨F.LC_DIAG_CNT_STALE_CNT, 16, 16, 0, .rc⟩, ⟨F.LC_DIAG_CNT_LATE_CNT, 0, 16, 0, .rc⟩]⟩,
  ⟨"LC_DIAG", 0x020009C, [(0x100, 1024)], .word, [⟨F.LC_DIAG_ST_FAIL, 16, 8, 0, .ro⟩, ⟨F.LC_DIAG_ST_STATE, 8, 2, 0, .ro⟩, ⟨F.LC_DIAG_PLAUS_CLEAR, 3, 1, 0, .wo⟩, ⟨F.LC_DIAG_FAULT_CLEAR, 2, 1, 0, .wo⟩, ⟨F.LC_DIAG_ST_CANCEL, 1, 1, 0, .wo⟩, ⟨F.LC_DIAG_ST_GO, 0, 1, 0, .wo⟩]⟩]

/-- Registers of `spec/05_treadle_recipes_and_profiles.md`. -/
def regRows06 : List RegRow := [
  ⟨"TR_CTRL", 0x0300000, [(0x100, 16)], .word, [⟨F.TR_CTRL_START_STEP, 16, 16, 0, .rw⟩, ⟨F.TR_CTRL_EXPECT, 8, 2, 0, .wo⟩, ⟨F.TR_CTRL_CLEAR_FAULT, 4, 1, 0, .wo⟩, ⟨F.TR_CTRL_ABORT, 3, 1, 0, .wo⟩, ⟨F.TR_CTRL_RESUME, 2, 1, 0, .wo⟩, ⟨F.TR_CTRL_PAUSE, 1, 1, 0, .wo⟩, ⟨F.TR_CTRL_START, 0, 1, 0, .wo⟩]⟩,
  ⟨"TR_STATUS", 0x0300004, [(0x100, 16)], .word, [⟨F.TR_STATUS_TABLE_OK, 16, 1, 0, .ro⟩, ⟨F.TR_STATUS_STAGE_STATE, 12, 2, 0, .ro⟩, ⟨F.TR_STATUS_PAUSE_CAUSE, 8, 4, 0, .ro⟩, ⟨F.TR_STATUS_FAULT, 4, 1, 0, .ro⟩, ⟨F.TR_STATUS_DEFERRED, 3, 1, 0, .ro⟩, ⟨F.TR_STATUS_STATE, 0, 2, 0, .ro⟩]⟩,
  ⟨"TR_EVENT", 0x0300008, [(0x100, 16)], .word, [⟨F.TR_EVENT_LOAD_DONE, 11, 1, 0, .w1c⟩, ⟨F.TR_EVENT_TR_FAULT, 10, 1, 0, .w1c⟩, ⟨F.TR_EVENT_SPAWN_DROP, 9, 1, 0, .w1c⟩, ⟨F.TR_EVENT_VALVE_REPLACED, 8, 1, 0, .w1c⟩, ⟨F.TR_EVENT_ABORT_IGNORED, 7, 1, 0, .w1c⟩, ⟨F.TR_EVENT_STATE_MISMATCH, 6, 1, 0, .w1c⟩, ⟨F.TR_EVENT_CMD_REFUSED, 5, 1, 0, .w1c⟩, ⟨F.TR_EVENT_CANCELLED, 4, 1, 0, .w1c⟩, ⟨F.TR_EVENT_STAGE_INVALID, 3, 1, 0, .w1c⟩, ⟨F.TR_EVENT_STAGE_MISS, 2, 1, 0, .w1c⟩, ⟨F.TR_EVENT_STOP_DONE, 1, 1, 0, .w1c⟩, ⟨F.TR_EVENT_END_REACHED, 0, 1, 0, .w1c⟩]⟩,
  ⟨"TR_TIMING", 0x030000C, [(0x100, 16)], .word, [⟨F.TR_TIMING_BRANCH_NS, 17, 15, 0, .ro⟩, ⟨F.TR_TIMING_TICK_NS, 0, 17, 0, .ro⟩]⟩,
  ⟨"TR_STEPS", 0x0300010, [(0x100, 16)], .word, [⟨F.TR_STEPS_STAGED_STEP, 16, 16, 0, .ro⟩, ⟨F.TR_STEPS_CUR_STEP, 0, 16, 0, .ro⟩]⟩,
  ⟨"TR_LABEL", 0x0300014, [(0x100, 16)], .word, [⟨F.TR_LABEL, 0, 32, 0, .ro⟩]⟩,
  ⟨"TR_COMMIT_LO", 0x0300018, [(0x100, 16)], .low, [⟨F.TR_COMMIT, 0, 32, 0, .ro⟩]⟩,
  ⟨"TR_COMMIT_HI", 0x030001C, [(0x100, 16)], .high, [⟨F.TR_COMMIT, 0, 32, 32, .ro⟩]⟩,
  ⟨"TR_NEXT_LO", 0x0300020, [(0x100, 16)], .low, [⟨F.TR_NEXT, 0, 32, 0, .ro⟩]⟩,
  ⟨"TR_NEXT_HI", 0x0300024, [(0x100, 16)], .high, [⟨F.TR_NEXT, 0, 32, 32, .ro⟩]⟩,
  ⟨"TR_DECIDE", 0x0300028, [(0x100, 16)], .word, [⟨F.TR_DECIDE_NEXT, 16, 16, 0, .ro⟩, ⟨F.TR_DECIDE_TRUE_MASK, 8, 4, 0, .ro⟩, ⟨F.TR_DECIDE_END_IDX, 4, 2, 0, .ro⟩, ⟨F.TR_DECIDE_ON_DEMAND, 1, 1, 0, .ro⟩, ⟨F.TR_DECIDE_DECIDED, 0, 1, 0, .ro⟩]⟩,
  ⟨"TR_TAU_LO", 0x030002C, [(0x100, 16)], .low, [⟨F.TR_TAU, 0, 32, 0, .ro⟩]⟩,
  ⟨"TR_TAU_HI", 0x0300030, [(0x100, 16)], .high, [⟨F.TR_TAU, 0, 32, 32, .ro⟩]⟩,
  ⟨"TR_START_AT_LO", 0x0300034, [(0x100, 16)], .low, [⟨F.TR_START_AT, 0, 32, 0, .rw⟩]⟩,
  ⟨"TR_START_AT_HI", 0x0300038, [(0x100, 16)], .high, [⟨F.TR_START_AT, 0, 32, 32, .rw⟩]⟩,
  ⟨"TR_LOAD", 0x030003C, [(0x100, 16)], .word, [⟨F.TR_LOAD_RESULT, 24, 8, 0, .ro⟩, ⟨F.TR_LOAD_MISS_REACT, 16, 1, 0, .ro⟩, ⟨F.TR_LOAD_STEP_COUNT, 0, 16, 0, .ro⟩]⟩,
  ⟨"TR_TABLE_ID", 0x0300040, [(0x100, 16)], .word, [⟨F.TR_TABLE_ID, 0, 32, 0, .ro⟩]⟩,
  ⟨"TR_COMMITS", 0x0300044, [(0x100, 16)], .word, [⟨F.TR_COMMITS, 0, 32, 0, .ro⟩]⟩,
  ⟨"TR_MISS_CNT", 0x0300048, [(0x100, 16)], .word, [⟨F.TR_MISS_CNT, 0, 32, 0, .rc⟩]⟩,
  ⟨"TR_CANCEL_CNT", 0x030004C, [(0x100, 16)], .word, [⟨F.TR_CANCEL_CNT, 0, 32, 0, .rc⟩]⟩,
  ⟨"TR_STAGE_AVG", 0x0300050, [(0x100, 16)], .word, [⟨F.TR_STAGE_AVG, 0, 32, 0, .ro⟩]⟩,
  ⟨"TR_STAGE_MAX", 0x0300054, [(0x100, 16)], .word, [⟨F.TR_STAGE_MAX, 0, 32, 0, .rc⟩]⟩,
  ⟨"TR_ENTRY", 0x0300058, [(0x100, 16)], .word, [⟨F.TR_ENTRY_STOP_STEP, 16, 16, 0, .ro⟩, ⟨F.TR_ENTRY_ENTRY_STEP, 0, 16, 0, .ro⟩]⟩,
  ⟨"TR_COND", 0x0300060, [(0x100, 16), (0x4, 4)], .word, [⟨F.TR_COND, 0, 32, 0, .ro⟩]⟩]

/-- Registers of `spec/05_treadle_recipes_and_profiles.md`. -/
def regRows07 : List RegRow := [
  ⟨"PG_CTRL", 0x0310000, [(0x40, 256)], .word, [⟨F.PG_CTRL, 0, 1, 0, .rwl⟩]⟩,
  ⟨"PG_STATUS", 0x0310004, [(0x40, 256)], .word, [⟨F.PG_STATUS_RUNNING, 4, 1, 0, .ro⟩, ⟨F.PG_STATUS_DWELL, 3, 1, 0, .ro⟩, ⟨F.PG_STATUS_LIMITS_PENDING, 2, 1, 0, .ro⟩, ⟨F.PG_STATUS_HELD, 1, 1, 0, .ro⟩, ⟨F.PG_STATUS_DONE, 0, 1, 0, .ro⟩]⟩,
  ⟨"PG_EVENT", 0x0310008, [(0x40, 256)], .word, [⟨F.PG_EVENT_ENABLE_REFUSED, 2, 1, 0, .w1c⟩, ⟨F.PG_EVENT_TARGET_DROP, 1, 1, 0, .w1c⟩, ⟨F.PG_EVENT_DONE_EVT, 0, 1, 0, .w1c⟩]⟩,
  ⟨"PG_PERIOD", 0x031000C, [(0x40, 256)], .word, [⟨F.PG_PERIOD, 0, 32, 0, .rwl⟩]⟩,
  ⟨"PG_PHASE", 0x0310010, [(0x40, 256)], .word, [⟨F.PG_PHASE, 0, 32, 0, .rwl⟩]⟩,
  ⟨"PG_TARGET", 0x0310014, [(0x40, 256)], .word, [⟨F.PG_TARGET, 0, 32, 0, .rw⟩]⟩,
  ⟨"PG_VMAX", 0x0310018, [(0x40, 256)], .word, [⟨F.PG_VMAX, 0, 31, 0, .rw⟩]⟩,
  ⟨"PG_WIN", 0x031001C, [(0x40, 256)], .word, [⟨F.PG_WIN_M2, 16, 11, 0, .rw⟩, ⟨F.PG_WIN_M1, 0, 11, 0, .rw⟩]⟩,
  ⟨"PG_SHADOW_TARGET", 0x0310020, [(0x40, 256)], .word, [⟨F.PG_SHADOW_TARGET, 0, 32, 0, .ro⟩]⟩,
  ⟨"PG_SHADOW_VMAX", 0x0310024, [(0x40, 256)], .word, [⟨F.PG_SHADOW_VMAX, 0, 31, 0, .ro⟩]⟩,
  ⟨"PG_SHADOW_WIN", 0x0310028, [(0x40, 256)], .word, [⟨F.PG_SHADOW_WIN_M2, 16, 11, 0, .ro⟩, ⟨F.PG_SHADOW_WIN_M1, 0, 11, 0, .ro⟩]⟩,
  ⟨"PG_SP", 0x031002C, [(0x40, 256)], .word, [⟨F.PG_SP, 0, 32, 0, .ro⟩]⟩,
  ⟨"PG_SP_DOT", 0x0310030, [(0x40, 256)], .word, [⟨F.PG_SP_DOT, 0, 32, 0, .ro⟩]⟩,
  ⟨"PG_Q_LO", 0x0310034, [(0x40, 256)], .low, [⟨F.PG_Q, 0, 32, 0, .ro⟩]⟩,
  ⟨"PG_Q_HI", 0x0310038, [(0x40, 256)], .high, [⟨F.PG_Q, 0, 32, 32, .ro⟩]⟩,
  ⟨"PG_INIT", 0x031003C, [(0x40, 256)], .word, [⟨F.PG_INIT, 0, 32, 0, .rwl⟩]⟩]

/-- Registers of `spec/04_loop_timing_and_supervision.md`. -/
def regRows08 : List RegRow := [
  ⟨"ANA_ROT_CFG", 0x0240000, [], .word, [⟨F.ANA_ROT_CFG_ROT_EN, 31, 1, 0, .rwl⟩, ⟨F.ANA_ROT_CFG_XCHK_LSB, 16, 8, 0, .rwl⟩, ⟨F.ANA_ROT_CFG_ROT_MS, 0, 16, 0, .rwl⟩]⟩,
  ⟨"ANA_ROT_STATUS", 0x0240004, [], .word, [⟨F.ANA_ROT_STATUS_SPARE_BAD, 16, 1, 0, .ro⟩, ⟨F.ANA_ROT_STATUS_NEXT_GROUP, 8, 5, 0, .ro⟩, ⟨F.ANA_ROT_STATUS_SPARE, 0, 5, 0, .ro⟩]⟩,
  ⟨"ANA_CAL_REQ", 0x0240008, [], .word, [⟨F.ANA_CAL_REQ_GO, 31, 1, 0, .wo⟩, ⟨F.ANA_CAL_REQ_POS, 16, 5, 0, .ro⟩, ⟨F.ANA_CAL_REQ_STATE, 8, 2, 0, .ro⟩, ⟨F.ANA_CAL_REQ_CONV, 0, 5, 0, .rw⟩]⟩,
  ⟨"ANA_EVENT", 0x024000C, [], .word, [⟨F.ANA_EVENT_CAL_FAIL, 1, 1, 0, .w1c⟩, ⟨F.ANA_EVENT_XCHK_FAIL, 0, 1, 0, .w1c⟩]⟩,
  ⟨"ANA_MAP", 0x0240010, [(0x4, 4)], .word, [⟨F.ANA_MAP_G0, 0, 5, 0, .ro⟩, ⟨F.ANA_MAP_G1, 5, 5, 0, .ro⟩, ⟨F.ANA_MAP_G2, 10, 5, 0, .ro⟩, ⟨F.ANA_MAP_G3, 15, 5, 0, .ro⟩, ⟨F.ANA_MAP_G4, 20, 5, 0, .ro⟩, ⟨F.ANA_MAP_G5, 25, 5, 0, .ro⟩]⟩]

/-- Registers of `spec/06_motion_axes.md`. -/
def regRows09 : List RegRow := [
  ⟨"AX_CTRL", 0x0400000, [(0x100, 128)], .word, [⟨F.AX_CTRL_VLIM_EN, 6, 1, 0, .rwl⟩, ⟨F.AX_CTRL_FAULT_REACT, 5, 1, 0, .rwl⟩, ⟨F.AX_CTRL_CLEAR, 4, 1, 0, .wo⟩, ⟨F.AX_CTRL_HOME, 3, 1, 0, .wo⟩, ⟨F.AX_CTRL_HALT, 2, 1, 0, .wo⟩, ⟨F.AX_CTRL_GO, 1, 1, 0, .wo⟩, ⟨F.AX_CTRL_ENABLE, 0, 1, 0, .rwl⟩]⟩,
  ⟨"AX_STATUS", 0x0400004, [(0x100, 128)], .word, [⟨F.AX_STATUS_FAULT_CAUSE, 20, 10, 0, .ro⟩, ⟨F.AX_STATUS_CFG_ERR, 16, 4, 0, .ro⟩, ⟨F.AX_STATUS_HOME_RESULT, 12, 3, 0, .ro⟩, ⟨F.AX_STATUS_HOME_SW, 7, 1, 0, .ro⟩, ⟨F.AX_STATUS_LIMN, 6, 1, 0, .ro⟩, ⟨F.AX_STATUS_LIMP, 5, 1, 0, .ro⟩, ⟨F.AX_STATUS_DIR, 4, 1, 0, .ro⟩, ⟨F.AX_STATUS_HOMED, 3, 1, 0, .ro⟩, ⟨F.AX_STATUS_STATE, 0, 3, 0, .ro⟩]⟩,
  ⟨"AX_EVENT", 0x0400008, [(0x100, 128)], .word, [⟨F.AX_EVENT, 0, 16, 0, .w1c⟩]⟩,
  ⟨"AX_ROUTE", 0x040000C, [(0x100, 128)], .word, [⟨F.AX_ROUTE_OUT_KIND, 30, 2, 0, .ro⟩, ⟨F.AX_ROUTE_RING, 28, 2, 0, .ro⟩, ⟨F.AX_ROUTE_RING_FMT, 26, 2, 0, .ro⟩, ⟨F.AX_ROUTE_FB_KIND, 24, 2, 0, .ro⟩, ⟨F.AX_ROUTE_OUT_ID, 0, 14, 0, .ro⟩]⟩,
  ⟨"AX_FB", 0x0400010, [(0x100, 128)], .word, [⟨F.AX_FB, 0, 14, 0, .ro⟩]⟩,
  ⟨"AX_HOME_SRC", 0x0400014, [(0x100, 128)], .word, [⟨F.AX_HOME_SRC, 0, 32, 0, .ro⟩]⟩,
  ⟨"AX_LIMP_SRC", 0x0400018, [(0x100, 128)], .word, [⟨F.AX_LIMP_SRC, 0, 32, 0, .ro⟩]⟩,
  ⟨"AX_LIMN_SRC", 0x040001C, [(0x100, 128)], .word, [⟨F.AX_LIMN_SRC, 0, 32, 0, .ro⟩]⟩,
  ⟨"AX_PERIOD", 0x0400020, [(0x100, 128)], .word, [⟨F.AX_PERIOD, 0, 32, 0, .rwl⟩]⟩,
  ⟨"AX_PHASE", 0x0400024, [(0x100, 128)], .word, [⟨F.AX_PHASE, 0, 32, 0, .rwl⟩]⟩,
  ⟨"AX_LATENCY", 0x0400028, [(0x100, 128)], .word, [⟨F.AX_LATENCY, 0, 32, 0, .rwl⟩]⟩,
  ⟨"AX_STEP_CFG", 0x040002C, [(0x100, 128)], .word, [⟨F.AX_STEP_CFG_STEP_MIN_NS, 16, 16, 0, .rwl⟩, ⟨F.AX_STEP_CFG_STEP_WIDTH_NS, 0, 16, 0, .rwl⟩]⟩,
  ⟨"AX_STEP_CFG2", 0x0400030, [(0x100, 128)], .word, [⟨F.AX_STEP_CFG2_DIR_POL, 17, 1, 0, .rwl⟩, ⟨F.AX_STEP_CFG2_STEP_POL, 16, 1, 0, .rwl⟩, ⟨F.AX_STEP_CFG2_DIR_SETUP_NS, 0, 16, 0, .rwl⟩]⟩,
  ⟨"AX_PWM_CFG", 0x0400034, [(0x100, 128)], .word, [⟨F.AX_PWM_CFG_DECAY, 16, 1, 0, .rwl⟩, ⟨F.AX_PWM_CFG_PWM_PERIOD_NS, 0, 16, 0, .rwl⟩]⟩,
  ⟨"AX_COIL_RL", 0x0400038, [(0x100, 128)], .word, [⟨F.AX_COIL_RL_L_UH, 16, 16, 0, .rwl⟩, ⟨F.AX_COIL_RL_R_MOHM, 0, 16, 0, .rwl⟩]⟩,
  ⟨"AX_COIL_KE", 0x040003C, [(0x100, 128)], .word, [⟨F.AX_COIL_KE, 0, 32, 0, .rwl⟩]⟩,
  ⟨"AX_COIL_I", 0x0400040, [(0x100, 128)], .word, [⟨F.AX_COIL_I_I_HOLD_MA, 16, 16, 0, .rwl⟩, ⟨F.AX_COIL_I_I_RUN_MA, 0, 16, 0, .rwl⟩]⟩,
  ⟨"AX_COIL_V", 0x0400044, [(0x100, 128)], .word, [⟨F.AX_COIL_V_VBUS_MV, 16, 16, 0, .rwl⟩, ⟨F.AX_COIL_V_VBUS_AIN, 8, 7, 0, .rwl⟩]⟩,
  ⟨"AX_VBUS_SCALE", 0x0400048, [(0x100, 128)], .word, [⟨F.AX_VBUS_SCALE, 0, 32, 0, .rwl⟩]⟩,
  ⟨"AX_HOLD_CFG", 0x040004C, [(0x100, 128)], .word, [⟨F.AX_HOLD_CFG_DUTY_MAX, 16, 16, 0, .rwl⟩, ⟨F.AX_HOLD_CFG_HOLD_DELAY_MS, 0, 16, 0, .rwl⟩]⟩,
  ⟨"AX_STOP_DECEL", 0x0400050, [(0x100, 128)], .word, [⟨F.AX_STOP_DECEL, 0, 32, 0, .rwl⟩]⟩,
  ⟨"AX_VLIM_LO", 0x0400054, [(0x100, 128)], .word, [⟨F.AX_VLIM_LO, 0, 32, 0, .rwl⟩]⟩,
  ⟨"AX_VLIM_HI", 0x0400058, [(0x100, 128)], .word, [⟨F.AX_VLIM_HI, 0, 32, 0, .rwl⟩]⟩,
  ⟨"AX_FE_LIMIT", 0x040005C, [(0x100, 128)], .word, [⟨F.AX_FE_LIMIT, 0, 31, 0, .rwl⟩]⟩]

/-- Registers of `spec/06_motion_axes.md`. -/
def regRows10 : List RegRow := [
  ⟨"AX_FE_CFG", 0x0400060, [(0x100, 128)], .word, [⟨F.AX_FE_CFG_STALL_US, 16, 12, 0, .rwl⟩, ⟨F.AX_FE_CFG_LATE_LIMIT, 12, 4, 0, .rwl⟩, ⟨F.AX_FE_CFG_HOME_FE_N, 4, 4, 0, .rwl⟩, ⟨F.AX_FE_CFG_FE_N, 0, 4, 0, .rwl⟩]⟩,
  ⟨"AX_ENC_SCALE", 0x0400064, [(0x100, 128)], .word, [⟨F.AX_ENC_SCALE, 0, 32, 0, .rwl⟩]⟩,
  ⟨"AX_HOME_CFG", 0x0400068, [(0x100, 128)], .word, [⟨F.AX_HOME_CFG_DEB_NS, 12, 20, 0, .rwl⟩, ⟨F.AX_HOME_CFG_HOME_DIR, 2, 1, 0, .rwl⟩, ⟨F.AX_HOME_CFG_MODE, 0, 2, 0, .rwl⟩]⟩,
  ⟨"AX_HOME_VEL", 0x040006C, [(0x100, 128)], .word, [⟨F.AX_HOME_VEL, 0, 32, 0, .rwl⟩]⟩,
  ⟨"AX_HOME_POS", 0x0400070, [(0x100, 128)], .word, [⟨F.AX_HOME_POS, 0, 32, 0, .rwl⟩]⟩,
  ⟨"AX_HOME_MAX", 0x0400074, [(0x100, 128)], .word, [⟨F.AX_HOME_MAX, 0, 31, 0, .rwl⟩]⟩,
  ⟨"AX_HOME_FE", 0x0400078, [(0x100, 128)], .word, [⟨F.AX_HOME_FE, 0, 31, 0, .rwl⟩]⟩,
  ⟨"AX_NEXT_SEG", 0x040007C, [(0x100, 128)], .word, [⟨F.AX_NEXT_SEG_COUNT, 16, 13, 0, .rw⟩, ⟨F.AX_NEXT_SEG_FIRST, 0, 12, 0, .rw⟩]⟩,
  ⟨"AX_POS", 0x0400080, [(0x100, 128)], .word, [⟨F.AX_POS, 0, 32, 0, .ro⟩]⟩,
  ⟨"AX_VEL", 0x0400084, [(0x100, 128)], .word, [⟨F.AX_VEL, 0, 32, 0, .ro⟩]⟩,
  ⟨"AX_FBPOS", 0x0400088, [(0x100, 128)], .word, [⟨F.AX_FBPOS, 0, 32, 0, .ro⟩]⟩,
  ⟨"AX_FE", 0x040008C, [(0x100, 128)], .word, [⟨F.AX_FE, 0, 32, 0, .ro⟩]⟩,
  ⟨"AX_STEP_POS", 0x0400090, [(0x100, 128)], .word, [⟨F.AX_STEP_POS, 0, 32, 0, .ro⟩]⟩,
  ⟨"AX_SEG_NOW", 0x0400094, [(0x100, 128)], .word, [⟨F.AX_SEG_NOW_SEG, 16, 12, 0, .ro⟩, ⟨F.AX_SEG_NOW_LEFT, 0, 13, 0, .ro⟩]⟩,
  ⟨"AX_HOME_LATCH", 0x0400098, [(0x100, 128)], .word, [⟨F.AX_HOME_LATCH, 0, 32, 0, .ro⟩]⟩,
  ⟨"AX_CHATTER", 0x040009C, [(0x100, 128)], .word, [⟨F.AX_CHATTER_LIM_CHATTER, 16, 16, 0, .rc⟩, ⟨F.AX_CHATTER_HOME_CHATTER, 0, 16, 0, .ro⟩]⟩,
  ⟨"AX_DIAG_CNT", 0x04000A0, [(0x100, 128)], .word, [⟨F.AX_DIAG_CNT_DUTY_SAT_CNT, 16, 16, 0, .rc⟩, ⟨F.AX_DIAG_CNT_LATE_CNT, 0, 16, 0, .rc⟩]⟩,
  ⟨"AX_ODO_STEPS_LO", 0x04000A4, [(0x100, 128)], .low, [⟨F.AX_ODO_STEPS, 0, 32, 0, .ro⟩]⟩,
  ⟨"AX_ODO_STEPS_HI", 0x04000A8, [(0x100, 128)], .high, [⟨F.AX_ODO_STEPS, 0, 16, 32, .ro⟩]⟩,
  ⟨"AX_ODO_MOVES_LO", 0x04000AC, [(0x100, 128)], .low, [⟨F.AX_ODO_MOVES, 0, 32, 0, .ro⟩]⟩,
  ⟨"AX_ODO_MOVES_HI", 0x04000B0, [(0x100, 128)], .high, [⟨F.AX_ODO_MOVES, 0, 16, 32, .ro⟩]⟩,
  ⟨"AX_SEG_LOAD", 0x04000B4, [(0x100, 128)], .word, [⟨F.AX_SEG_LOAD, 0, 8, 0, .ro⟩]⟩,
  ⟨"AXG_MASK", 0x0410000, [(0x20, 4), (0x4, 4)], .word, [⟨F.AXG_MASK, 0, 32, 0, .rw⟩]⟩,
  ⟨"AXG_AT_LO", 0x0410010, [(0x20, 4)], .low, [⟨F.AXG_AT, 0, 32, 0, .rw⟩]⟩]

/-- Registers of `spec/06_motion_axes.md`. -/
def regRows11 : List RegRow := [
  ⟨"AXG_AT_HI", 0x0410014, [(0x20, 4)], .high, [⟨F.AXG_AT, 0, 32, 32, .rw⟩]⟩,
  ⟨"AXG_CTRL", 0x0410018, [(0x20, 4)], .word, [⟨F.AXG_CTRL_RESULT, 16, 8, 0, .ro⟩, ⟨F.AXG_CTRL_STATE, 8, 2, 0, .ro⟩, ⟨F.AXG_CTRL_CANCEL, 2, 1, 0, .wo⟩, ⟨F.AXG_CTRL_KIND, 1, 1, 0, .rw⟩, ⟨F.AXG_CTRL_ARM, 0, 1, 0, .wo⟩]⟩]

/-- Registers of `spec/07_recording_skein.md`. -/
def regRows12 : List RegRow := [
  ⟨"SK_CTRL", 0x0500000, [], .word, [⟨F.SK_CTRL, 0, 16, 0, .rw⟩]⟩,
  ⟨"SK_STATUS", 0x0500004, [], .word, [⟨F.SK_STATUS_BURST_FREE_KIB, 16, 15, 0, .ro⟩, ⟨F.SK_STATUS_CKPT_PENDING, 0, 1, 0, .ro⟩]⟩,
  ⟨"SK_EVENT", 0x0500008, [], .word, [⟨F.SK_EVENT, 0, 8, 0, .w1c⟩]⟩,
  ⟨"SK_RATE_AVG", 0x050000C, [], .word, [⟨F.SK_RATE_AVG, 0, 32, 0, .ro⟩]⟩,
  ⟨"SK_EPOCH", 0x0500010, [], .word, [⟨F.SK_EPOCH, 0, 32, 0, .ro⟩]⟩,
  ⟨"SKS_CTRL", 0x0501000, [(0x80, 17)], .word, [⟨F.SKS_CTRL_FLUSH, 8, 1, 0, .wo⟩, ⟨F.SKS_CTRL_EXPORT, 4, 2, 0, .rwl⟩, ⟨F.SKS_CTRL_POLICY, 0, 1, 0, .rwl⟩]⟩,
  ⟨"SKS_REGION_LO", 0x0501004, [(0x80, 17)], .low, [⟨F.SKS_REGION, 0, 32, 0, .rwl⟩]⟩,
  ⟨"SKS_REGION_HI", 0x0501008, [(0x80, 17)], .high, [⟨F.SKS_REGION, 0, 32, 32, .rwl⟩]⟩,
  ⟨"SKS_REGION_SIZE", 0x050100C, [(0x80, 17)], .word, [⟨F.SKS_REGION_SIZE, 0, 24, 0, .rwl⟩]⟩,
  ⟨"SKS_BURST", 0x0501010, [(0x80, 17)], .word, [⟨F.SKS_BURST, 0, 15, 0, .ro⟩]⟩,
  ⟨"SKS_SEQ_LO", 0x0501014, [(0x80, 17)], .low, [⟨F.SKS_SEQ, 0, 32, 0, .ro⟩]⟩,
  ⟨"SKS_SEQ_HI", 0x0501018, [(0x80, 17)], .high, [⟨F.SKS_SEQ, 0, 32, 32, .ro⟩]⟩,
  ⟨"SKS_VISIBLE_LO", 0x050101C, [(0x80, 17)], .low, [⟨F.SKS_VISIBLE, 0, 32, 0, .ro⟩]⟩,
  ⟨"SKS_VISIBLE_HI", 0x0501020, [(0x80, 17)], .high, [⟨F.SKS_VISIBLE, 0, 32, 32, .ro⟩]⟩,
  ⟨"SKS_CONSUMED_LO", 0x0501024, [(0x80, 17)], .low, [⟨F.SKS_CONSUMED, 0, 32, 0, .rw⟩]⟩,
  ⟨"SKS_CONSUMED_HI", 0x0501028, [(0x80, 17)], .high, [⟨F.SKS_CONSUMED, 0, 32, 32, .rw⟩]⟩,
  ⟨"SKS_STATUS", 0x050102C, [(0x80, 17)], .word, [⟨F.SKS_STATUS_RESIDENT, 0, 24, 0, .ro⟩, ⟨F.SKS_STATUS_GAP_OPEN, 31, 1, 0, .ro⟩, ⟨F.SKS_STATUS_RETRYING, 30, 1, 0, .ro⟩]⟩,
  ⟨"SKS_DISCARD", 0x0501030, [(0x80, 17)], .word, [⟨F.SKS_DISCARD, 0, 32, 0, .rc⟩]⟩,
  ⟨"SKS_RETRY", 0x0501034, [(0x80, 17)], .word, [⟨F.SKS_RETRY, 0, 16, 0, .rc⟩]⟩,
  ⟨"SKS_OVERWRITE", 0x0501038, [(0x80, 17)], .word, [⟨F.SKS_OVERWRITE, 0, 32, 0, .rc⟩]⟩,
  ⟨"SKS_OUT_AVG", 0x050103C, [(0x80, 17)], .word, [⟨F.SKS_OUT_AVG, 0, 32, 0, .ro⟩]⟩,
  ⟨"SKS_DMA_BASE_LO", 0x0501040, [(0x80, 17)], .low, [⟨F.SKS_DMA_BASE, 0, 32, 0, .rwl⟩]⟩,
  ⟨"SKS_DMA_BASE_HI", 0x0501044, [(0x80, 17)], .high, [⟨F.SKS_DMA_BASE, 0, 32, 32, .rwl⟩]⟩,
  ⟨"SKS_DMA_ENTRIES", 0x0501048, [(0x80, 17)], .word, [⟨F.SKS_DMA_ENTRIES, 0, 16, 0, .rwl⟩]⟩]

/-- Registers of `spec/07_recording_skein.md`. -/
def regRows13 : List RegRow := [
  ⟨"TAP_SRC", 0x0520000, [(0x10, 8192)], .word, [⟨F.TAP_SRC_KIND, 28, 4, 0, .ro⟩, ⟨F.TAP_SRC_SIGNAL, 24, 4, 0, .ro⟩, ⟨F.TAP_SRC_STREAM, 16, 5, 0, .ro⟩, ⟨F.TAP_SRC_RING, 14, 2, 0, .ro⟩, ⟨F.TAP_SRC_ID, 0, 14, 0, .ro⟩]⟩,
  ⟨"TAP_CFG", 0x0520004, [(0x10, 8192)], .word, [⟨F.TAP_CFG_N, 16, 16, 0, .rwl⟩, ⟨F.TAP_CFG_POLICY, 0, 2, 0, .rwl⟩]⟩,
  ⟨"TAP_PERIOD", 0x0520008, [(0x10, 8192)], .word, [⟨F.TAP_PERIOD, 0, 32, 0, .rwl⟩]⟩,
  ⟨"TAP_DISCARD", 0x052000C, [(0x10, 8192)], .word, [⟨F.TAP_DISCARD, 0, 32, 0, .rc⟩]⟩]

/-- Registers of `spec/08_trigger_and_capture.md`. -/
def regRows14 : List RegRow := [
  ⟨"TS_CTRL", 0x0600000, [(0x800, 32)], .word, [⟨F.TS_CTRL_DISARM, 2, 1, 0, .wo⟩, ⟨F.TS_CTRL_ARM, 1, 1, 0, .wo⟩]⟩,
  ⟨"TS_STATUS", 0x0600004, [(0x800, 32)], .word, [⟨F.TS_STATUS_RUNNING, 31, 1, 0, .ro⟩, ⟨F.TS_STATUS_STATE, 0, 4, 0, .ro⟩]⟩,
  ⟨"TS_EVENT", 0x0600008, [(0x800, 32)], .word, [⟨F.TS_EVENT, 0, 4, 0, .w1c⟩]⟩,
  ⟨"TS_CFG", 0x060000C, [(0x800, 32)], .word, [⟨F.TS_CFG, 0, 4, 0, .rwl⟩]⟩,
  ⟨"TS_PERIOD", 0x0600010, [(0x800, 32)], .word, [⟨F.TS_PERIOD, 0, 32, 0, .rwl⟩]⟩,
  ⟨"TS_PHASE", 0x0600014, [(0x800, 32)], .word, [⟨F.TS_PHASE, 0, 32, 0, .rwl⟩]⟩,
  ⟨"TS_COUNTER", 0x0600018, [(0x800, 32)], .word, [⟨F.TS_COUNTER, 0, 32, 0, .ro⟩]⟩,
  ⟨"TS_TIMER", 0x060001C, [(0x800, 32)], .word, [⟨F.TS_TIMER, 0, 32, 0, .ro⟩]⟩,
  ⟨"TS_WORD", 0x0600020, [(0x800, 32)], .word, [⟨F.TS_WORD, 0, 32, 0, .ro⟩]⟩,
  ⟨"TS_MISSED", 0x0600024, [(0x800, 32)], .word, [⟨F.TS_MISSED, 0, 32, 0, .rc⟩]⟩,
  ⟨"TS_TRIG_LO", 0x0600028, [(0x800, 32)], .low, [⟨F.TS_TRIG, 0, 32, 0, .ro⟩]⟩,
  ⟨"TS_TRIG_HI", 0x060002C, [(0x800, 32)], .high, [⟨F.TS_TRIG, 0, 32, 32, .ro⟩]⟩,
  ⟨"TS_ST_CFG", 0x0600100, [(0x800, 32), (0x40, 16)], .word, [⟨F.TS_ST_CFG_CNT_KIND, 28, 2, 0, .rwl⟩, ⟨F.TS_ST_CFG_KEEP, 16, 1, 0, .rwl⟩, ⟨F.TS_ST_CFG_CNT_SRC, 0, 14, 0, .rwl⟩]⟩,
  ⟨"TS_COND_CFG", 0x0600108, [(0x800, 32), (0x40, 16), (0x8, 4)], .word, [⟨F.TS_COND_CFG_KIND, 28, 4, 0, .rwl⟩, ⟨F.TS_COND_CFG_OP, 24, 4, 0, .rwl⟩, ⟨F.TS_COND_CFG_NEXT, 16, 4, 0, .rwl⟩, ⟨F.TS_COND_CFG_SRC, 0, 14, 0, .rwl⟩]⟩,
  ⟨"TS_COND_ARG", 0x060010C, [(0x800, 32), (0x40, 16), (0x8, 4)], .word, [⟨F.TS_COND_ARG, 0, 32, 0, .rwl⟩]⟩,
  ⟨"CS_CTRL", 0x0610000, [(0x100, 32)], .word, [⟨F.CS_CTRL_STREAM_OUT, 3, 1, 0, .rwl⟩, ⟨F.CS_CTRL_REARM, 2, 1, 0, .rwl⟩, ⟨F.CS_CTRL_FORCE, 1, 1, 0, .wo⟩]⟩,
  ⟨"CS_STATUS", 0x0610004, [(0x100, 32)], .word, [⟨F.CS_STATUS_ARM_RESULT, 8, 8, 0, .ro⟩, ⟨F.CS_STATUS_STATE, 0, 3, 0, .ro⟩]⟩,
  ⟨"CS_EVENT", 0x0610008, [(0x100, 32)], .word, [⟨F.CS_EVENT, 0, 7, 0, .w1c⟩]⟩,
  ⟨"CS_PRE_NS", 0x061000C, [(0x100, 32)], .word, [⟨F.CS_PRE_NS, 0, 32, 0, .rwl⟩]⟩,
  ⟨"CS_POST_NS", 0x0610010, [(0x100, 32)], .word, [⟨F.CS_POST_NS, 0, 32, 0, .rwl⟩]⟩,
  ⟨"CS_AUTO_US", 0x0610014, [(0x100, 32)], .word, [⟨F.CS_AUTO_US, 0, 32, 0, .rwl⟩]⟩,
  ⟨"CS_REGION_LO", 0x0610018, [(0x100, 32)], .low, [⟨F.CS_REGION, 0, 32, 0, .rwl⟩]⟩,
  ⟨"CS_REGION_HI", 0x061001C, [(0x100, 32)], .high, [⟨F.CS_REGION, 0, 32, 32, .rwl⟩]⟩,
  ⟨"CS_SLOT_CFG", 0x0610020, [(0x100, 32)], .word, [⟨F.CS_SLOT_CFG_SLOTS, 16, 16, 0, .rwl⟩, ⟨F.CS_SLOT_CFG_SLOT_KIB, 0, 16, 0, .rwl⟩]⟩]

/-- Registers of `spec/08_trigger_and_capture.md`. -/
def regRows15 : List RegRow := [
  ⟨"CS_HQ", 0x0610024, [(0x100, 32)], .word, [⟨F.CS_HQ_CHUNKS, 16, 13, 0, .rwl⟩, ⟨F.CS_HQ_HQ, 0, 7, 0, .rwl⟩]⟩,
  ⟨"CS_CAP_SEQ_LO", 0x0610028, [(0x100, 32)], .low, [⟨F.CS_CAP_SEQ, 0, 32, 0, .ro⟩]⟩,
  ⟨"CS_CAP_SEQ_HI", 0x061002C, [(0x100, 32)], .high, [⟨F.CS_CAP_SEQ, 0, 32, 32, .ro⟩]⟩,
  ⟨"CS_CONSUMED_LO", 0x0610030, [(0x100, 32)], .low, [⟨F.CS_CONSUMED, 0, 32, 0, .rw⟩]⟩,
  ⟨"CS_CONSUMED_HI", 0x0610034, [(0x100, 32)], .high, [⟨F.CS_CONSUMED, 0, 32, 32, .rw⟩]⟩,
  ⟨"CS_PRE_BYTES", 0x0610038, [(0x100, 32)], .word, [⟨F.CS_PRE_BYTES, 0, 32, 0, .ro⟩]⟩,
  ⟨"CS_NEED_BYTES", 0x061003C, [(0x100, 32)], .word, [⟨F.CS_NEED_BYTES, 0, 32, 0, .ro⟩]⟩,
  ⟨"CS_CHUNK_ACK", 0x0610040, [(0x100, 32)], .word, [⟨F.CS_CHUNK_ACK, 0, 13, 0, .rw⟩]⟩,
  ⟨"CH_SRC", 0x0620000, [(0x10, 256)], .word, [⟨F.CH_SRC_KIND, 28, 4, 0, .ro⟩, ⟨F.CH_SRC_SIGNAL, 24, 4, 0, .ro⟩, ⟨F.CH_SRC_SET, 16, 6, 0, .ro⟩, ⟨F.CH_SRC_RING, 14, 2, 0, .ro⟩, ⟨F.CH_SRC_ID, 0, 14, 0, .ro⟩]⟩,
  ⟨"CH_CFG", 0x0620004, [(0x10, 256)], .word, [⟨F.CH_CFG_TIMED, 31, 1, 0, .ro⟩, ⟨F.CH_CFG_EDGE_MAX, 0, 16, 0, .rwl⟩]⟩,
  ⟨"CH_PERIOD", 0x0620008, [(0x10, 256)], .word, [⟨F.CH_PERIOD, 0, 32, 0, .rwl⟩]⟩,
  ⟨"MU_CTRL", 0x0630000, [(0x40, 64)], .word, [⟨F.MU_CTRL_DISARM, 2, 1, 0, .wo⟩, ⟨F.MU_CTRL_ARM, 1, 1, 0, .wo⟩]⟩,
  ⟨"MU_STATUS", 0x0630004, [(0x40, 64)], .word, [⟨F.MU_STATUS_VIOL_RUN, 16, 8, 0, .ro⟩, ⟨F.MU_STATUS_ENV_NOW, 8, 8, 0, .ro⟩, ⟨F.MU_STATUS_STATE, 0, 2, 0, .ro⟩]⟩,
  ⟨"MU_EVENT", 0x0630008, [(0x40, 64)], .word, [⟨F.MU_EVENT, 0, 5, 0, .w1c⟩]⟩,
  ⟨"MU_CFG", 0x063000C, [(0x40, 64)], .word, [⟨F.MU_CFG_VIOL_N, 24, 8, 0, .rwl⟩, ⟨F.MU_CFG_FREEZE_SET, 16, 5, 0, .rwl⟩, ⟨F.MU_CFG_ALIGN_TS, 8, 5, 0, .rwl⟩, ⟨F.MU_CFG_ALIGN_TRIG, 7, 1, 0, .rwl⟩, ⟨F.MU_CFG_STEP_SCOPED, 6, 1, 0, .rwl⟩, ⟨F.MU_CFG_ACT, 0, 4, 0, .rwl⟩]⟩,
  ⟨"MU_PERIOD", 0x0630010, [(0x40, 64)], .word, [⟨F.MU_PERIOD, 0, 32, 0, .rwl⟩]⟩,
  ⟨"MU_PHASE", 0x0630014, [(0x40, 64)], .word, [⟨F.MU_PHASE, 0, 32, 0, .rwl⟩]⟩,
  ⟨"MU_SRC", 0x0630018, [(0x40, 64)], .word, [⟨F.MU_SRC, 0, 14, 0, .ro⟩]⟩,
  ⟨"MU_ENV", 0x063001C, [(0x40, 64)], .word, [⟨F.MU_ENV, 0, 8, 0, .rw⟩]⟩,
  ⟨"MU_A_LO", 0x0630020, [(0x40, 64)], .low, [⟨F.MU_A, 0, 32, 0, .ro⟩]⟩,
  ⟨"MU_A_HI", 0x0630024, [(0x40, 64)], .high, [⟨F.MU_A, 0, 32, 32, .ro⟩]⟩,
  ⟨"MU_VIOL_CNT", 0x0630028, [(0x40, 64)], .word, [⟨F.MU_VIOL_CNT, 0, 32, 0, .rc⟩]⟩,
  ⟨"MU_UNTESTED", 0x063002C, [(0x40, 64)], .word, [⟨F.MU_UNTESTED, 0, 32, 0, .rc⟩]⟩,
  ⟨"MU_LAST_V", 0x0630030, [(0x40, 64)], .word, [⟨F.MU_LAST_V, 0, 32, 0, .ro⟩]⟩]

/-- Registers of `spec/08_trigger_and_capture.md`. -/
def regRows16 : List RegRow := [
  ⟨"POOL_FREE", 0x0640000, [], .word, [⟨F.POOL_FREE, 0, 24, 0, .ro⟩]⟩,
  ⟨"ENV_REGION_LO", 0x0640004, [], .low, [⟨F.ENV_REGION, 0, 32, 0, .rwl⟩]⟩,
  ⟨"ENV_REGION_HI", 0x0640008, [], .high, [⟨F.ENV_REGION, 0, 32, 32, .rwl⟩]⟩,
  ⟨"ENV_COUNT", 0x064000C, [], .word, [⟨F.ENV_COUNT, 0, 9, 0, .rwl⟩]⟩,
  ⟨"ENV_LOAD", 0x0640010, [], .word, [⟨F.ENV_LOAD, 0, 8, 0, .ro⟩]⟩]

/-- Registers of `spec/09_loom_beam_and_drafts.md`. -/
def regRows17 : List RegRow := [
  ⟨"LOOM_BEAM_STATUS", 0x0700000, [], .word, [⟨F.LOOM_BEAM_STATUS_RESULT, 24, 8, 0, .ro⟩, ⟨F.LOOM_BEAM_STATUS_STATE, 16, 2, 0, .ro⟩]⟩,
  ⟨"LOOM_BEAM_PROGRESS", 0x0700004, [], .word, [⟨F.LOOM_BEAM_PROGRESS, 0, 32, 0, .ro⟩]⟩,
  ⟨"LOOM_BEAM_VERSION", 0x0700008, [], .word, [⟨F.LOOM_BEAM_VERSION, 0, 32, 0, .ro⟩]⟩,
  ⟨"LOOM_BEAM_FRAMES", 0x070000C, [], .word, [⟨F.LOOM_BEAM_FRAMES, 0, 32, 0, .ro⟩]⟩,
  ⟨"LOOM_BEAM_DIGEST", 0x0700010, [(0x4, 12)], .word, [⟨F.LOOM_BEAM_DIGEST, 0, 32, 0, .ro⟩]⟩,
  ⟨"LOOM_STALL_CFG", 0x0700040, [], .word, [⟨F.LOOM_STALL_CFG, 0, 10, 0, .rwl⟩]⟩,
  ⟨"LOOM_EVENT", 0x0700044, [], .word, [⟨F.LOOM_EVENT, 0, 6, 0, .w1c⟩]⟩,
  ⟨"LOOM_SCAN_ERR", 0x0700048, [], .word, [⟨F.LOOM_SCAN_ERR, 0, 32, 0, .ro⟩]⟩,
  ⟨"LOOM_REPAIRS", 0x070004C, [], .word, [⟨F.LOOM_REPAIRS, 0, 32, 0, .rc⟩]⟩,
  ⟨"LOOM_STALL_SRC", 0x0700050, [], .word, [⟨F.LOOM_STALL_SRC_KIND, 28, 4, 0, .ro⟩, ⟨F.LOOM_STALL_SRC_ID, 0, 14, 0, .ro⟩]⟩,
  ⟨"LOOM_EVT_OVF", 0x0700054, [], .word, [⟨F.LOOM_EVT_OVF, 0, 32, 0, .rc⟩]⟩,
  ⟨"LOOM_OVF_ROUTE", 0x0700058, [], .word, [⟨F.LOOM_OVF_ROUTE, 0, 13, 0, .ro⟩]⟩,
  ⟨"LP_CTRL", 0x0701000, [(0x40, 16)], .word, [⟨F.LP_CTRL_EXPECT, 28, 4, 0, .wo⟩, ⟨F.LP_CTRL_SLOT, 24, 4, 0, .rw⟩, ⟨F.LP_CTRL_EDIT_DISCARD, 3, 1, 0, .wo⟩, ⟨F.LP_CTRL_EDIT_COMMIT, 2, 1, 0, .wo⟩, ⟨F.LP_CTRL_APPLY, 0, 1, 0, .wo⟩]⟩,
  ⟨"LP_STATUS", 0x0701004, [(0x40, 16)], .word, [⟨F.LP_STATUS_RESULT, 24, 8, 0, .ro⟩, ⟨F.LP_STATUS_ACTIVE, 16, 4, 0, .ro⟩, ⟨F.LP_STATUS_APPLY_STATE, 8, 2, 0, .ro⟩, ⟨F.LP_STATUS_FRAME_LOST, 5, 1, 0, .ro⟩, ⟨F.LP_STATUS_EDITS_PENDING, 4, 1, 0, .ro⟩]⟩,
  ⟨"LP_EVENT", 0x0701008, [(0x40, 16)], .word, [⟨F.LP_EVENT, 0, 8, 0, .w1c⟩]⟩,
  ⟨"LP_LIBRARY", 0x070100C, [(0x40, 16)], .word, [⟨F.LP_LIBRARY_STAGE_KIB, 16, 12, 0, .ro⟩, ⟨F.LP_LIBRARY_STALE, 8, 8, 0, .ro⟩, ⟨F.LP_LIBRARY_VALID, 0, 8, 0, .ro⟩]⟩,
  ⟨"LP_FLIP_LO", 0x0701010, [(0x40, 16)], .low, [⟨F.LP_FLIP, 0, 32, 0, .ro⟩]⟩,
  ⟨"LP_FLIP_HI", 0x0701014, [(0x40, 16)], .high, [⟨F.LP_FLIP, 0, 32, 32, .ro⟩]⟩,
  ⟨"LP_AT_LO", 0x0701018, [(0x40, 16)], .low, [⟨F.LP_AT, 0, 32, 0, .rw⟩]⟩,
  ⟨"LP_AT_HI", 0x070101C, [(0x40, 16)], .high, [⟨F.LP_AT, 0, 32, 32, .rw⟩]⟩,
  ⟨"LP_APPLY_AVG", 0x0701020, [(0x40, 16)], .word, [⟨F.LP_APPLY_AVG, 0, 32, 0, .ro⟩]⟩,
  ⟨"LP_JSEQ_LO", 0x0701024, [(0x40, 16)], .low, [⟨F.LP_JSEQ, 0, 32, 0, .ro⟩]⟩,
  ⟨"LP_JSEQ_HI", 0x0701028, [(0x40, 16)], .high, [⟨F.LP_JSEQ, 0, 32, 32, .ro⟩]⟩,
  ⟨"LP_EDIT_DROP", 0x070102C, [(0x40, 16)], .word, [⟨F.LP_EDIT_DROP, 0, 32, 0, .rc⟩]⟩]

/-- Registers of `spec/09_loom_beam_and_drafts.md`. -/
def regRows18 : List RegRow := [
  ⟨"DS_STATE", 0x0702000, [(0x100, 16), (0x20, 8)], .word, [⟨F.DS_STATE_RESULT, 24, 8, 0, .ro⟩, ⟨F.DS_STATE_STATE, 0, 2, 0, .ro⟩]⟩,
  ⟨"DS_VERSION", 0x0702004, [(0x100, 16), (0x20, 8)], .word, [⟨F.DS_VERSION, 0, 32, 0, .ro⟩]⟩,
  ⟨"DS_SIZE", 0x0702008, [(0x100, 16), (0x20, 8)], .word, [⟨F.DS_SIZE_FRAMES, 16, 16, 0, .ro⟩, ⟨F.DS_SIZE_UNITS16, 0, 16, 0, .ro⟩]⟩,
  ⟨"DS_NAME", 0x070200C, [(0x100, 16), (0x20, 8), (0x4, 4)], .word, [⟨F.DS_NAME, 0, 32, 0, .ro⟩]⟩,
  ⟨"ODO_OUT_LO", 0x0708000, [(0x8, 8192)], .low, [⟨F.ODO_OUT, 0, 32, 0, .ro⟩]⟩,
  ⟨"ODO_OUT_HI", 0x0708004, [(0x8, 8192)], .high, [⟨F.ODO_OUT_SAT, 31, 1, 0, .ro⟩, ⟨F.ODO_OUT, 0, 16, 32, .ro⟩]⟩,
  ⟨"VR_VALUE", 0x0720000, [(0x4, 12288)], .word, [⟨F.VR_VALUE, 0, 32, 0, .ro⟩]⟩,
  ⟨"LE_NET", 0x0730000, [(0x4, 512)], .word, [⟨F.LE_NET, 0, 32, 0, .ro⟩]⟩]

/-- Registers of `spec/10_shuttles_and_task_scheduler.md`. -/
def regRows19 : List RegRow := [
  ⟨"SCHED_STATUS", 0x0800000, [], .word, [⟨F.SCHED_STATUS_FREE_SLOTS, 16, 13, 0, .ro⟩, ⟨F.SCHED_STATUS_INFLIGHT, 0, 11, 0, .ro⟩]⟩,
  ⟨"SCHED_EVENT", 0x0800004, [], .word, [⟨F.SCHED_EVENT, 0, 7, 0, .w1c⟩]⟩,
  ⟨"SCHED_DISPATCH_CNT", 0x0800008, [], .word, [⟨F.SCHED_DISPATCH_CNT, 0, 32, 0, .ro⟩]⟩,
  ⟨"SCHED_RETRY_CNT", 0x080000C, [], .word, [⟨F.SCHED_RETRY_CNT, 0, 32, 0, .rc⟩]⟩,
  ⟨"SCHED_CANCEL_CNT", 0x0800010, [], .word, [⟨F.SCHED_CANCEL_CNT, 0, 32, 0, .rc⟩]⟩,
  ⟨"SCHED_CANCEL_LATE_CNT", 0x0800014, [], .word, [⟨F.SCHED_CANCEL_LATE_CNT, 0, 32, 0, .rc⟩]⟩,
  ⟨"SCHED_POISON_CNT", 0x0800018, [], .word, [⟨F.SCHED_POISON_CNT, 0, 32, 0, .rc⟩]⟩,
  ⟨"SCHED_TIMEOUT_CNT", 0x080001C, [], .word, [⟨F.SCHED_TIMEOUT_CNT, 0, 32, 0, .rc⟩]⟩,
  ⟨"SCHED_MISMATCH_CNT", 0x0800020, [], .word, [⟨F.SCHED_MISMATCH_CNT, 0, 32, 0, .rc⟩]⟩,
  ⟨"SCHED_EVT_UNBOUND_CNT", 0x0800024, [], .word, [⟨F.SCHED_EVT_UNBOUND_CNT, 0, 32, 0, .rc⟩]⟩,
  ⟨"SCHED_TEMPLATE_MISS_CNT", 0x0800028, [], .word, [⟨F.SCHED_TEMPLATE_MISS_CNT, 0, 32, 0, .rc⟩]⟩,
  ⟨"PS_QUOTA", 0x0801000, [(0x40, 16)], .word, [⟨F.PS_QUOTA, 0, 13, 0, .rwl⟩]⟩,
  ⟨"PS_CFG", 0x0801004, [(0x40, 16)], .word, [⟨F.PS_CFG, 0, 1, 0, .rwl⟩]⟩,
  ⟨"PS_USED", 0x0801008, [(0x40, 16)], .word, [⟨F.PS_USED, 0, 13, 0, .ro⟩]⟩,
  ⟨"PS_WAIT_DEFAULT", 0x080100C, [(0x40, 16)], .word, [⟨F.PS_WAIT_DEFAULT, 0, 32, 0, .rwl⟩]⟩,
  ⟨"PS_BUSY_CNT", 0x0801010, [(0x40, 16)], .word, [⟨F.PS_BUSY_CNT, 0, 32, 0, .rc⟩]⟩,
  ⟨"PS_DISCARD_CNT", 0x0801014, [(0x40, 16)], .word, [⟨F.PS_DISCARD_CNT, 0, 32, 0, .rc⟩]⟩,
  ⟨"PS_HELD_LO", 0x0801018, [(0x40, 16)], .low, [⟨F.PS_HELD, 0, 32, 0, .ro⟩]⟩,
  ⟨"PS_HELD_HI", 0x080101C, [(0x40, 16)], .high, [⟨F.PS_HELD, 0, 32, 32, .ro⟩]⟩,
  ⟨"WIN_BASE", 0x0801020, [(0x40, 16), (0x8, 4)], .word, [⟨F.WIN_BASE_BASE, 12, 20, 0, .ro⟩, ⟨F.WIN_BASE_ATTR, 0, 3, 0, .ro⟩]⟩,
  ⟨"WIN_LIMIT", 0x0801024, [(0x40, 16), (0x8, 4)], .word, [⟨F.WIN_LIMIT, 12, 20, 0, .ro⟩]⟩,
  ⟨"HQ_CFG", 0x0802000, [(0x20, 128)], .word, [⟨F.HQ_CFG_KIND, 28, 4, 0, .ro⟩, ⟨F.HQ_CFG_DEPTH_LOG2, 24, 4, 0, .ro⟩, ⟨F.HQ_CFG_OWNER, 16, 5, 0, .ro⟩, ⟨F.HQ_CFG_EVENT, 0, 16, 0, .ro⟩]⟩,
  ⟨"HQ_DEPTH", 0x0802004, [(0x20, 128)], .word, [⟨F.HQ_DEPTH, 0, 15, 0, .ro⟩]⟩,
  ⟨"HQ_MAXDEPTH", 0x0802008, [(0x20, 128)], .word, [⟨F.HQ_MAXDEPTH, 0, 15, 0, .rc⟩]⟩]

/-- Registers of `spec/10_shuttles_and_task_scheduler.md`. -/
def regRows20 : List RegRow := [
  ⟨"HQ_PUSH_CNT", 0x080200C, [(0x20, 128)], .word, [⟨F.HQ_PUSH_CNT, 0, 32, 0, .ro⟩]⟩,
  ⟨"HQ_BUSY_CNT", 0x0802010, [(0x20, 128)], .word, [⟨F.HQ_BUSY_CNT, 0, 32, 0, .rc⟩]⟩,
  ⟨"HQ_DISCARD", 0x0802014, [(0x20, 128)], .word, [⟨F.HQ_DISCARD, 0, 32, 0, .rc⟩]⟩,
  ⟨"SH_STATUS", 0x0803000, [(0x10, 48)], .word, [⟨F.SH_STATUS_STATE, 30, 2, 0, .ro⟩, ⟨F.SH_STATUS_RESERVED, 29, 1, 0, .ro⟩, ⟨F.SH_STATUS_RES_PART, 16, 4, 0, .ro⟩, ⟨F.SH_STATUS_SLOT, 0, 12, 0, .ro⟩]⟩,
  ⟨"SH_LOAD", 0x0803004, [(0x10, 48)], .word, [⟨F.SH_LOAD, 0, 16, 0, .ro⟩]⟩,
  ⟨"SH_FAULTS", 0x0803008, [(0x10, 48)], .word, [⟨F.SH_FAULTS_LAST_CAUSE, 16, 8, 0, .ro⟩, ⟨F.SH_FAULTS_COUNT, 0, 16, 0, .rc⟩]⟩,
  ⟨"SH_CTRL", 0x080300C, [(0x10, 48)], .word, [⟨F.SH_CTRL, 0, 1, 0, .wo⟩]⟩,
  ⟨"LVL_RDY_DEPTH", 0x0804000, [(0x80, 64)], .word, [⟨F.LVL_RDY_DEPTH, 0, 13, 0, .ro⟩]⟩,
  ⟨"LVL_WAIT_AVG", 0x0804004, [(0x80, 64)], .word, [⟨F.LVL_WAIT_AVG, 0, 32, 0, .ro⟩]⟩,
  ⟨"LVL_HIST", 0x0804040, [(0x80, 64), (0x4, 8)], .word, [⟨F.LVL_HIST, 0, 32, 0, .rc⟩]⟩,
  ⟨"FLOW_STATE", 0x0806000, [(0x4, 1024)], .word, [⟨F.FLOW_STATE_HELD, 31, 1, 0, .ro⟩, ⟨F.FLOW_STATE_IN_SERVICE, 30, 1, 0, .ro⟩, ⟨F.FLOW_STATE_RELEASE, 29, 1, 0, .wo⟩, ⟨F.FLOW_STATE_DROP, 28, 1, 0, .wo⟩, ⟨F.FLOW_STATE_HELD_CAUSE, 16, 8, 0, .ro⟩, ⟨F.FLOW_STATE_PENDING, 0, 16, 0, .ro⟩]⟩,
  ⟨"EVT_BIND", 0x0808000, [(0x4, 2048)], .word, [⟨F.EVT_BIND_EN, 31, 1, 0, .rwl⟩, ⟨F.EVT_BIND_TEMPLATE, 0, 10, 0, .rwl⟩]⟩]

/-- Registers of `spec/11_cyclic_programs.md`. -/
def regRows21 : List RegRow := [
  ⟨"CP_CTRL", 0x0900000, [(0x200, 16)], .word, [⟨F.CP_CTRL_EXPECT, 8, 2, 0, .wo⟩, ⟨F.CP_CTRL_MODE, 4, 2, 0, .rw⟩, ⟨F.CP_CTRL_RESUME, 3, 1, 0, .wo⟩, ⟨F.CP_CTRL_HOLD, 2, 1, 0, .wo⟩, ⟨F.CP_CTRL_STOP, 1, 1, 0, .wo⟩, ⟨F.CP_CTRL_START, 0, 1, 0, .wo⟩]⟩,
  ⟨"CP_STATUS", 0x0900004, [(0x200, 16)], .word, [⟨F.CP_STATUS_LOAD_RESULT, 24, 8, 0, .ro⟩, ⟨F.CP_STATUS_STOP_CAUSE, 16, 8, 0, .ro⟩, ⟨F.CP_STATUS_RETAIN_OK, 6, 1, 0, .ro⟩, ⟨F.CP_STATUS_DETERMINISTIC, 5, 1, 0, .ro⟩, ⟨F.CP_STATUS_LOADED, 4, 1, 0, .ro⟩, ⟨F.CP_STATUS_STATE, 0, 2, 0, .ro⟩]⟩,
  ⟨"CP_EVENT", 0x0900008, [(0x200, 16)], .word, [⟨F.CP_EVENT, 0, 10, 0, .w1c⟩]⟩,
  ⟨"CP_VERSION", 0x090000C, [(0x200, 16)], .word, [⟨F.CP_VERSION, 0, 32, 0, .ro⟩]⟩,
  ⟨"CP_STOP_T_LO", 0x0900010, [(0x200, 16)], .low, [⟨F.CP_STOP_T, 0, 32, 0, .ro⟩]⟩,
  ⟨"CP_STOP_T_HI", 0x0900014, [(0x200, 16)], .high, [⟨F.CP_STOP_T, 0, 32, 32, .ro⟩]⟩,
  ⟨"CP_RETAIN", 0x0900018, [(0x200, 16)], .word, [⟨F.CP_RETAIN, 0, 9, 0, .ro⟩]⟩,
  ⟨"CP_RETAIN_SEQ_LO", 0x090001C, [(0x200, 16)], .low, [⟨F.CP_RETAIN_SEQ, 0, 32, 0, .ro⟩]⟩,
  ⟨"CP_RETAIN_SEQ_HI", 0x0900020, [(0x200, 16)], .high, [⟨F.CP_RETAIN_SEQ, 0, 32, 32, .ro⟩]⟩,
  ⟨"CP_OVERRUN_CNT", 0x0900024, [(0x200, 16)], .word, [⟨F.CP_OVERRUN_CNT, 0, 32, 0, .rc⟩]⟩,
  ⟨"CP_PF_NS", 0x0900028, [(0x200, 16)], .word, [⟨F.CP_PF_NS, 0, 32, 0, .ro⟩]⟩,
  ⟨"CT_CFG", 0x0900040, [(0x200, 16), (0x20, 8)], .word, [⟨F.CT_CFG_EN, 31, 1, 0, .ro⟩, ⟨F.CT_CFG_TEMPLATE, 0, 6, 0, .ro⟩]⟩,
  ⟨"CT_PERIOD", 0x0900044, [(0x200, 16), (0x20, 8)], .word, [⟨F.CT_PERIOD, 0, 32, 0, .ro⟩]⟩,
  ⟨"CT_PHASE", 0x0900048, [(0x200, 16), (0x20, 8)], .word, [⟨F.CT_PHASE, 0, 32, 0, .ro⟩]⟩,
  ⟨"CT_REL", 0x090004C, [(0x200, 16), (0x20, 8)], .word, [⟨F.CT_REL, 0, 32, 0, .ro⟩]⟩,
  ⟨"CT_SCAN_LO", 0x0900050, [(0x200, 16), (0x20, 8)], .low, [⟨F.CT_SCAN, 0, 32, 0, .ro⟩]⟩,
  ⟨"CT_SCAN_HI", 0x0900054, [(0x200, 16), (0x20, 8)], .high, [⟨F.CT_SCAN, 0, 32, 32, .ro⟩]⟩,
  ⟨"CT_MARGIN", 0x0900058, [(0x200, 16), (0x20, 8)], .word, [⟨F.CT_MARGIN, 0, 32, 0, .rc⟩]⟩,
  ⟨"CT_CLOSE_AVG", 0x090005C, [(0x200, 16), (0x20, 8)], .word, [⟨F.CT_CLOSE_AVG, 0, 32, 0, .ro⟩]⟩,
  ⟨"RJ_STATE", 0x0920000, [(0x40, 16), (0x4, 16)], .word, [⟨F.RJ_STATE, 0, 32, 0, .w1s⟩]⟩]

/-- Registers of `spec/12_naend_field_ring.md`. -/
def regRows22 : List RegRow := [
  ⟨"RING_CTRL", 0x0A00000, [(0x1000, 4)], .word, [⟨F.RING_CTRL_DISCOVER, 4, 1, 0, .wo⟩, ⟨F.RING_CTRL_STOP, 3, 1, 0, .wo⟩, ⟨F.RING_CTRL_START, 2, 1, 0, .wo⟩, ⟨F.RING_CTRL_ROLE, 1, 1, 0, .ro⟩, ⟨F.RING_CTRL_EN, 0, 1, 0, .rw⟩]⟩,
  ⟨"RING_STATUS", 0x0A00004, [(0x1000, 4)], .word, [⟨F.RING_STATUS_BREAK_POS, 24, 8, 0, .ro⟩, ⟨F.RING_STATUS_STATIONS, 16, 8, 0, .ro⟩, ⟨F.RING_STATUS_AUTH, 5, 1, 0, .ro⟩, ⟨F.RING_STATUS_BROKEN, 4, 1, 0, .ro⟩, ⟨F.RING_STATUS_BYPASSED, 3, 1, 0, .ro⟩, ⟨F.RING_STATUS_STATE, 0, 3, 0, .ro⟩]⟩,
  ⟨"RING_EVENT", 0x0A00008, [(0x1000, 4)], .word, [⟨F.RING_EVENT, 0, 13, 0, .w1c⟩]⟩,
  ⟨"RING_PERIOD", 0x0A0000C, [(0x1000, 4)], .word, [⟨F.RING_PERIOD, 0, 32, 0, .rw⟩]⟩,
  ⟨"RING_PHASE", 0x0A00010, [(0x1000, 4)], .word, [⟨F.RING_PHASE, 0, 32, 0, .rw⟩]⟩,
  ⟨"RING_RX_LIMIT", 0x0A00014, [(0x1000, 4)], .word, [⟨F.RING_RX_LIMIT, 0, 32, 0, .rw⟩]⟩,
  ⟨"RING_LEAD", 0x0A00018, [(0x1000, 4)], .word, [⟨F.RING_LEAD_IN_LEAD_US, 16, 16, 0, .rw⟩, ⟨F.RING_LEAD_APPLY_US, 0, 16, 0, .rw⟩]⟩,
  ⟨"RING_CFG", 0x0A0001C, [(0x1000, 4)], .word, [⟨F.RING_CFG_HOLD_MS, 16, 16, 0, .rw⟩, ⟨F.RING_CFG_AUTH_EN, 8, 1, 0, .rw⟩, ⟨F.RING_CFG_MISS_LIMIT, 0, 4, 0, .rw⟩]⟩,
  ⟨"RING_WEFT", 0x0A00020, [(0x1000, 4)], .word, [⟨F.RING_WEFT, 0, 9, 0, .rw⟩]⟩,
  ⟨"RING_CYCLE_LO", 0x0A00024, [(0x1000, 4)], .low, [⟨F.RING_CYCLE, 0, 32, 0, .ro⟩]⟩,
  ⟨"RING_CYCLE_HI", 0x0A00028, [(0x1000, 4)], .high, [⟨F.RING_CYCLE, 0, 32, 32, .ro⟩]⟩,
  ⟨"RING_RX_LAST", 0x0A0002C, [(0x1000, 4)], .word, [⟨F.RING_RX_LAST, 0, 32, 0, .ro⟩]⟩,
  ⟨"RING_RX_WORST", 0x0A00030, [(0x1000, 4)], .word, [⟨F.RING_RX_WORST, 0, 32, 0, .ro⟩]⟩,
  ⟨"RING_RESULT", 0x0A00034, [(0x1000, 4)], .word, [⟨F.RING_RESULT, 0, 8, 0, .ro⟩]⟩,
  ⟨"RING_MASTER_ID", 0x0A00038, [(0x1000, 4)], .word, [⟨F.RING_MASTER_ID, 0, 32, 0, .ro⟩]⟩,
  ⟨"RING_LOST_CNT", 0x0A0003C, [(0x1000, 4)], .word, [⟨F.RING_LOST_CNT, 0, 32, 0, .rc⟩]⟩,
  ⟨"RING_BREAK_CNT", 0x0A00040, [(0x1000, 4)], .word, [⟨F.RING_BREAK_CNT_COUNT, 0, 16, 0, .rc⟩, ⟨F.RING_BREAK_CNT_SEL_CNT, 16, 16, 0, .rc⟩]⟩,
  ⟨"RING_AUTH_CNT", 0x0A00044, [(0x1000, 4)], .word, [⟨F.RING_AUTH_CNT, 0, 32, 0, .rc⟩]⟩,
  ⟨"RING_MBX_CTRL", 0x0A00100, [(0x1000, 4)], .word, [⟨F.RING_MBX_CTRL_GO, 31, 1, 0, .wo⟩, ⟨F.RING_MBX_CTRL_LEN, 16, 8, 0, .rw⟩, ⟨F.RING_MBX_CTRL_STATION, 0, 7, 0, .rw⟩]⟩,
  ⟨"RING_MBX_STATUS", 0x0A00104, [(0x1000, 4)], .word, [⟨F.RING_MBX_STATUS_RSP_LEN, 16, 8, 0, .ro⟩, ⟨F.RING_MBX_STATUS_SEQ, 8, 8, 0, .ro⟩, ⟨F.RING_MBX_STATUS_STATE, 0, 2, 0, .ro⟩]⟩,
  ⟨"RING_MBX_TMO", 0x0A00108, [(0x1000, 4)], .word, [⟨F.RING_MBX_TMO, 0, 16, 0, .rw⟩]⟩,
  ⟨"RING_MBX_TX", 0x0A00140, [(0x1000, 4), (0x4, 16)], .word, [⟨F.RING_MBX_TX, 0, 32, 0, .rw⟩]⟩,
  ⟨"RING_MBX_RX", 0x0A00180, [(0x1000, 4), (0x4, 16)], .word, [⟨F.RING_MBX_RX, 0, 32, 0, .ro⟩]⟩,
  ⟨"RS_ST_EXPECT", 0x0A10000, [(0x1000, 4), (0x20, 128)], .word, [⟨F.RS_ST_EXPECT_VENDOR, 16, 16, 0, .rw⟩, ⟨F.RS_ST_EXPECT_PRODUCT, 0, 16, 0, .rw⟩]⟩]

/-- Registers of `spec/12_naend_field_ring.md`. -/
def regRows23 : List RegRow := [
  ⟨"RS_ST_OUT", 0x0A10004, [(0x1000, 4), (0x20, 128)], .word, [⟨F.RS_ST_OUT_OFF, 16, 14, 0, .rw⟩, ⟨F.RS_ST_OUT_LEN, 0, 12, 0, .rw⟩]⟩,
  ⟨"RS_ST_IN", 0x0A10008, [(0x1000, 4), (0x20, 128)], .word, [⟨F.RS_ST_IN_OFF, 16, 14, 0, .rw⟩, ⟨F.RS_ST_IN_LEN, 0, 12, 0, .rw⟩]⟩,
  ⟨"RS_ST_STATUS", 0x0A1000C, [(0x1000, 4), (0x20, 128)], .word, [⟨F.RS_ST_STATUS_OK, 31, 1, 0, .ro⟩, ⟨F.RS_ST_STATUS_ADMITTED, 30, 1, 0, .ro⟩, ⟨F.RS_ST_STATUS_AUTH, 29, 1, 0, .ro⟩, ⟨F.RS_ST_STATUS_REVERSE_FED, 28, 1, 0, .ro⟩, ⟨F.RS_ST_STATUS_MISS_RUN, 16, 8, 0, .ro⟩, ⟨F.RS_ST_STATUS_LAST_STATUS, 0, 16, 0, .ro⟩]⟩,
  ⟨"RS_ST_DELAY", 0x0A10010, [(0x1000, 4), (0x20, 128)], .word, [⟨F.RS_ST_DELAY, 0, 32, 0, .ro⟩]⟩,
  ⟨"RS_ST_LAT", 0x0A10014, [(0x1000, 4), (0x20, 128)], .word, [⟨F.RS_ST_LAT_REV_NS, 16, 16, 0, .ro⟩, ⟨F.RS_ST_LAT_FWD_NS, 0, 16, 0, .ro⟩]⟩]

/-- Registers of `spec/13_safety.md`. -/
def regRows24 : List RegRow := [
  ⟨"SAF_STATUS", 0x0B00000, [], .word, [⟨F.SAF_STATUS_START_WAIT, 16, 3, 0, .ro⟩, ⟨F.SAF_STATUS_SCLK_FREE, 10, 1, 0, .ro⟩, ⟨F.SAF_STATUS_MATRIX_FAULT, 9, 1, 0, .ro⟩, ⟨F.SAF_STATUS_LINK_OK, 8, 1, 0, .ro⟩, ⟨F.SAF_STATUS_PROG_OK, 7, 1, 0, .ro⟩, ⟨F.SAF_STATUS_MATRIX_OK, 6, 1, 0, .ro⟩, ⟨F.SAF_STATUS_START_BLOCKED, 5, 1, 0, .ro⟩, ⟨F.SAF_STATUS_OVC_ARMED, 4, 1, 0, .ro⟩, ⟨F.SAF_STATUS_PHASE, 0, 3, 0, .ro⟩]⟩,
  ⟨"SAF_PHASE_T_LO", 0x0B00004, [], .low, [⟨F.SAF_PHASE_T, 0, 32, 0, .ro⟩]⟩,
  ⟨"SAF_PHASE_T_HI", 0x0B00008, [], .high, [⟨F.SAF_PHASE_T, 0, 32, 32, .ro⟩]⟩,
  ⟨"SAF_OVC", 0x0B0000C, [], .word, [⟨F.SAF_OVC_REMAIN_S, 20, 12, 0, .ro⟩, ⟨F.SAF_OVC_WINDOW_S, 0, 12, 0, .ro⟩]⟩,
  ⟨"SAF_CNT", 0x0B00010, [], .word, [⟨F.SAF_CNT_OVC_ENTRIES, 16, 16, 0, .ro⟩, ⟨F.SAF_CNT_CMP_MISMATCH, 0, 16, 0, .ro⟩]⟩,
  ⟨"SAF_SIN", 0x0B00014, [], .word, [⟨F.SAF_SIN, 0, 32, 0, .ro⟩]⟩,
  ⟨"SAF_SIN_FAULT", 0x0B00018, [], .word, [⟨F.SAF_SIN_FAULT, 0, 32, 0, .ro⟩]⟩,
  ⟨"SAF_SIN_A", 0x0B0001C, [], .word, [⟨F.SAF_SIN_A, 0, 32, 0, .ro⟩]⟩,
  ⟨"SAF_SIN_B", 0x0B00020, [], .word, [⟨F.SAF_SIN_B, 0, 32, 0, .ro⟩]⟩,
  ⟨"SAF_SOUT", 0x0B00024, [], .word, [⟨F.SAF_SOUT_MATRIX, 16, 16, 0, .ro⟩, ⟨F.SAF_SOUT_PERMIT, 0, 16, 0, .ro⟩]⟩,
  ⟨"SAF_SOUT_STATE", 0x0B00028, [], .word, [⟨F.SAF_SOUT_STATE_FAULT, 16, 16, 0, .ro⟩, ⟨F.SAF_SOUT_STATE_ENERGISED, 0, 16, 0, .ro⟩]⟩,
  ⟨"SAF_TERMS_LO", 0x0B0002C, [], .low, [⟨F.SAF_TERMS, 0, 32, 0, .ro⟩]⟩,
  ⟨"SAF_TERMS_HI", 0x0B00030, [], .high, [⟨F.SAF_TERMS, 0, 32, 32, .ro⟩]⟩,
  ⟨"SAF_MATRIX_VER", 0x0B00034, [], .word, [⟨F.SAF_MATRIX_VER, 0, 32, 0, .ro⟩]⟩,
  ⟨"SAF_MATRIX_CRC", 0x0B00038, [], .word, [⟨F.SAF_MATRIX_CRC, 0, 32, 0, .ro⟩]⟩,
  ⟨"SAF_PROG_VER", 0x0B0003C, [], .word, [⟨F.SAF_PROG_VER, 0, 32, 0, .ro⟩]⟩,
  ⟨"SAF_MATRIX_WRITES", 0x0B00040, [], .word, [⟨F.SAF_MATRIX_WRITES, 0, 16, 0, .ro⟩]⟩,
  ⟨"SAF_CYCLE", 0x0B00044, [], .word, [⟨F.SAF_CYCLE, 0, 10, 0, .ro⟩]⟩,
  ⟨"SIN_CFG", 0x0B00100, [(0x4, 32)], .word, [⟨F.SIN_CFG_FAULT_CAUSE, 24, 8, 0, .ro⟩, ⟨F.SIN_CFG_TEST, 18, 2, 0, .ro⟩, ⟨F.SIN_CFG_MODE, 16, 2, 0, .ro⟩, ⟨F.SIN_CFG_DISC_MS, 0, 16, 0, .ro⟩]⟩,
  ⟨"SOUT_CFG", 0x0B00200, [(0x4, 16)], .word, [⟨F.SOUT_CFG_FAULT_CAUSE, 28, 4, 0, .ro⟩, ⟨F.SOUT_CFG_TPW_US, 16, 10, 0, .ro⟩, ⟨F.SOUT_CFG_TEST, 9, 1, 0, .ro⟩, ⟨F.SOUT_CFG_USED, 8, 1, 0, .ro⟩, ⟨F.SOUT_CFG_NB, 0, 8, 0, .ro⟩]⟩,
  ⟨"WC_CONN", 0x0B01000, [(0x10, 256)], .word, [⟨F.WC_CONN, 0, 32, 0, .ro⟩]⟩,
  ⟨"WC_STATUS", 0x0B01004, [(0x10, 256)], .word, [⟨F.WC_STATUS_SEQ, 16, 16, 0, .ro⟩, ⟨F.WC_STATUS_ROLE, 4, 1, 0, .ro⟩, ⟨F.WC_STATUS_STATE, 0, 3, 0, .ro⟩]⟩,
  ⟨"WC_ERR", 0x0B01008, [(0x10, 256)], .word, [⟨F.WC_ERR_SEQ_ERR, 16, 16, 0, .ro⟩, ⟨F.WC_ERR_CRC_ERR, 0, 16, 0, .ro⟩]⟩,
  ⟨"WC_EXP", 0x0B0100C, [(0x10, 256)], .word, [⟨F.WC_EXP_DEADLINE_MS, 16, 10, 0, .ro⟩, ⟨F.WC_EXP_EXPIRIES, 0, 16, 0, .ro⟩]⟩]

/-- Registers of `spec/14_tandem_redundancy.md`. -/
def regRows25 : List RegRow := [
  ⟨"TD_CFG", 0x0C00000, [], .word, [⟨F.TD_CFG_SOLO_START, 3, 1, 0, .rwl⟩, ⟨F.TD_CFG_TAKEOVER_STALE, 2, 1, 0, .rwl⟩, ⟨F.TD_CFG_UNIT, 1, 1, 0, .rwl⟩, ⟨F.TD_CFG_EN, 0, 1, 0, .rwl⟩]⟩,
  ⟨"TD_PARTS", 0x0C00004, [], .word, [⟨F.TD_PARTS, 0, 16, 0, .rwl⟩]⟩,
  ⟨"TD_LEASE", 0x0C00008, [], .word, [⟨F.TD_LEASE_GUARD_US, 16, 16, 0, .rwl⟩, ⟨F.TD_LEASE_LEASE_US, 0, 16, 0, .rwl⟩]⟩,
  ⟨"TD_LINK", 0x0C0000C, [], .word, [⟨F.TD_LINK_REPLAY_MS, 16, 16, 0, .rwl⟩, ⟨F.TD_LINK_MATCH_N, 8, 8, 0, .rwl⟩]⟩,
  ⟨"TD_CTRL", 0x0C00010, [], .word, [⟨F.TD_CTRL_EXPECT, 8, 3, 0, .wo⟩, ⟨F.TD_CTRL_LEAVE, 3, 1, 0, .wo⟩, ⟨F.TD_CTRL_RESYNC, 2, 1, 0, .wo⟩, ⟨F.TD_CTRL_SWITCH, 1, 1, 0, .wo⟩, ⟨F.TD_CTRL_JOIN, 0, 1, 0, .wo⟩]⟩,
  ⟨"TD_STATUS", 0x0C00014, [], .word, [⟨F.TD_STATUS_TERM, 16, 16, 0, .ro⟩, ⟨F.TD_STATUS_PARTNER_ROLE, 11, 3, 0, .ro⟩, ⟨F.TD_STATUS_ROLE, 8, 3, 0, .ro⟩, ⟨F.TD_STATUS_ARBITRATING, 4, 1, 0, .ro⟩, ⟨F.TD_STATUS_WARP_SYNC, 3, 1, 0, .ro⟩, ⟨F.TD_STATUS_LINK_UP, 2, 1, 0, .ro⟩, ⟨F.TD_STATUS_SYNC_PHASE, 0, 2, 0, .ro⟩]⟩,
  ⟨"TD_EVENT", 0x0C00018, [], .word, [⟨F.TD_EVENT, 0, 15, 0, .w1c⟩]⟩,
  ⟨"TD_RESULT", 0x0C0001C, [], .word, [⟨F.TD_RESULT, 0, 8, 0, .ro⟩]⟩,
  ⟨"TD_EXPIRY_LO", 0x0C00020, [], .low, [⟨F.TD_EXPIRY, 0, 32, 0, .ro⟩]⟩,
  ⟨"TD_EXPIRY_HI", 0x0C00024, [], .high, [⟨F.TD_EXPIRY, 0, 32, 32, .ro⟩]⟩,
  ⟨"TD_LOST_T_LO", 0x0C00028, [], .low, [⟨F.TD_LOST_T, 0, 32, 0, .ro⟩]⟩,
  ⟨"TD_LOST_T_HI", 0x0C0002C, [], .high, [⟨F.TD_LOST_T, 0, 32, 32, .ro⟩]⟩,
  ⟨"TD_GUARD_EFF", 0x0C00030, [], .word, [⟨F.TD_GUARD_EFF, 0, 32, 0, .ro⟩]⟩,
  ⟨"TD_OFFSET", 0x0C00034, [], .word, [⟨F.TD_OFFSET, 0, 32, 0, .ro⟩]⟩,
  ⟨"TD_DIV_CNT", 0x0C00038, [], .word, [⟨F.TD_DIV_CNT, 0, 32, 0, .rc⟩]⟩,
  ⟨"TD_DIV_WHERE", 0x0C0003C, [], .word, [⟨F.TD_DIV_WHERE_RING, 30, 2, 0, .ro⟩, ⟨F.TD_DIV_WHERE_CYCLE, 0, 30, 0, .ro⟩]⟩,
  ⟨"TD_WITNESS", 0x0C00040, [], .word, [⟨F.TD_WITNESS, 0, 4, 0, .ro⟩]⟩,
  ⟨"TD_MISS_CNT", 0x0C00044, [], .word, [⟨F.TD_MISS_CNT, 0, 32, 0, .rc⟩]⟩,
  ⟨"LINK_ERR", 0x0C00048, [], .word, [⟨F.LINK_ERR, 0, 32, 0, .rc⟩]⟩,
  ⟨"TD_SYNC_AVG", 0x0C0004C, [], .word, [⟨F.TD_SYNC_AVG, 0, 32, 0, .ro⟩]⟩,
  ⟨"TD_SWITCH_AT_LO", 0x0C00050, [], .low, [⟨F.TD_SWITCH_AT, 0, 32, 0, .rw⟩]⟩,
  ⟨"TD_SWITCH_AT_HI", 0x0C00054, [], .high, [⟨F.TD_SWITCH_AT, 0, 32, 32, .rw⟩]⟩,
  ⟨"TD_LAST_SWITCH_LO", 0x0C00058, [], .low, [⟨F.TD_LAST_SWITCH, 0, 32, 0, .ro⟩]⟩,
  ⟨"TD_LAST_SWITCH_HI", 0x0C0005C, [], .high, [⟨F.TD_LAST_SWITCH, 0, 32, 32, .ro⟩]⟩]

/-- Registers of `spec/14_tandem_redundancy.md`. -/
def regRows26 : List RegRow := [
  ⟨"TD_PARTNER_ID", 0x0C00060, [], .word, [⟨F.TD_PARTNER_ID, 0, 32, 0, .ro⟩]⟩,
  ⟨"TD_LINK_TMO", 0x0C00064, [], .word, [⟨F.TD_LINK_TMO, 0, 12, 0, .rwl⟩]⟩]

/-- Registers of `spec/15_security_and_updates.md`. -/
def regRows27 : List RegRow := [
  ⟨"SEC_STATUS", 0x0D00000, [], .word, [⟨F.SEC_STATUS_PUF_OK, 20, 1, 0, .ro⟩, ⟨F.SEC_STATUS_LIFECYCLE, 16, 2, 0, .ro⟩, ⟨F.SEC_STATUS_REVOKED, 12, 4, 0, .ro⟩, ⟨F.SEC_STATUS_PROGRAMMED, 8, 4, 0, .ro⟩, ⟨F.SEC_STATUS_DEBUG_LEVEL, 4, 2, 0, .ro⟩, ⟨F.SEC_STATUS_FLOOR_LOST, 1, 1, 0, .ro⟩, ⟨F.SEC_STATUS_KEYBLOCK_OK, 0, 1, 0, .ro⟩]⟩,
  ⟨"SEC_EVENT", 0x0D00004, [], .word, [⟨F.SEC_EVENT, 0, 8, 0, .w1c⟩]⟩,
  ⟨"SEC_AUTH_RESULT", 0x0D00008, [], .word, [⟨F.SEC_AUTH_RESULT_OP, 8, 8, 0, .ro⟩, ⟨F.SEC_AUTH_RESULT_RESULT, 0, 8, 0, .ro⟩]⟩,
  ⟨"SEC_SERIAL_LO", 0x0D0000C, [], .low, [⟨F.SEC_SERIAL, 0, 32, 0, .ro⟩]⟩,
  ⟨"SEC_SERIAL_HI", 0x0D00010, [], .high, [⟨F.SEC_SERIAL, 0, 32, 32, .ro⟩]⟩,
  ⟨"SEC_FW_FLOOR", 0x0D00014, [], .word, [⟨F.SEC_FW_FLOOR, 0, 7, 0, .ro⟩]⟩,
  ⟨"SEC_BEAM_FLOOR", 0x0D00018, [], .word, [⟨F.SEC_BEAM_FLOOR, 0, 32, 0, .ro⟩]⟩,
  ⟨"SEC_MATRIX_FLOOR", 0x0D0001C, [], .word, [⟨F.SEC_MATRIX_FLOOR, 0, 32, 0, .ro⟩]⟩,
  ⟨"SEC_SAFEPROG_FLOOR", 0x0D00020, [], .word, [⟨F.SEC_SAFEPROG_FLOOR, 0, 32, 0, .ro⟩]⟩,
  ⟨"SEC_DEBUG_REMAIN", 0x0D00024, [], .word, [⟨F.SEC_DEBUG_REMAIN, 0, 17, 0, .ro⟩]⟩,
  ⟨"SEC_HOST_REFUSE_CNT", 0x0D00028, [], .word, [⟨F.SEC_HOST_REFUSE_CNT, 0, 32, 0, .rc⟩]⟩,
  ⟨"SEC_AUTHOR_KEYS_LO", 0x0D0002C, [], .low, [⟨F.SEC_AUTHOR_KEYS, 0, 32, 0, .ro⟩]⟩,
  ⟨"SEC_AUTHOR_KEYS_HI", 0x0D00030, [], .high, [⟨F.SEC_AUTHOR_KEYS, 0, 32, 32, .ro⟩]⟩,
  ⟨"SEC_RING_KEYS", 0x0D00034, [], .word, [⟨F.SEC_RING_KEYS_PENDING, 8, 4, 0, .ro⟩, ⟨F.SEC_RING_KEYS_KEYED, 0, 4, 0, .ro⟩]⟩,
  ⟨"SEC_RECIPE_FLOOR", 0x0D00100, [(0x10, 16)], .word, [⟨F.SEC_RECIPE_FLOOR, 0, 32, 0, .ro⟩]⟩,
  ⟨"SEC_DRAFT_FLOOR", 0x0D00104, [(0x10, 16)], .word, [⟨F.SEC_DRAFT_FLOOR, 0, 32, 0, .ro⟩]⟩,
  ⟨"SEC_PROG_FLOOR", 0x0D00108, [(0x10, 16)], .word, [⟨F.SEC_PROG_FLOOR, 0, 32, 0, .ro⟩]⟩,
  ⟨"UPD_CTRL", 0x0D00200, [], .word, [⟨F.UPD_CTRL_EXPECT, 8, 3, 0, .wo⟩, ⟨F.UPD_CTRL_CANCEL, 2, 1, 0, .wo⟩, ⟨F.UPD_CTRL_CONFIRM, 1, 1, 0, .wo⟩, ⟨F.UPD_CTRL_ACTIVATE, 0, 1, 0, .wo⟩]⟩,
  ⟨"UPD_STATUS", 0x0D00204, [], .word, [⟨F.UPD_STATUS_CHECK_RESULT, 24, 8, 0, .ro⟩, ⟨F.UPD_STATUS_APPLY_RESULT, 16, 8, 0, .ro⟩, ⟨F.UPD_STATUS_ACTIVE_SLOT, 4, 1, 0, .ro⟩, ⟨F.UPD_STATUS_STATE, 0, 3, 0, .ro⟩]⟩,
  ⟨"UPD_EVENT", 0x0D00208, [], .word, [⟨F.UPD_EVENT, 0, 8, 0, .w1c⟩]⟩,
  ⟨"UPD_AT_LO", 0x0D0020C, [], .low, [⟨F.UPD_AT, 0, 32, 0, .rw⟩]⟩,
  ⟨"UPD_AT_HI", 0x0D00210, [], .high, [⟨F.UPD_AT, 0, 32, 32, .rw⟩]⟩,
  ⟨"UPD_ACT_T_LO", 0x0D00214, [], .low, [⟨F.UPD_ACT_T, 0, 32, 0, .ro⟩]⟩,
  ⟨"UPD_ACT_T_HI", 0x0D00218, [], .high, [⟨F.UPD_ACT_T, 0, 32, 32, .ro⟩]⟩]

/-- Registers of `spec/15_security_and_updates.md`. -/
def regRows28 : List RegRow := [
  ⟨"UPD_PROGRESS", 0x0D0021C, [], .word, [⟨F.UPD_PROGRESS, 0, 32, 0, .ro⟩]⟩,
  ⟨"UPD_APPLY_AVG", 0x0D00220, [], .word, [⟨F.UPD_APPLY_AVG, 0, 32, 0, .ro⟩]⟩,
  ⟨"UPD_SLOT_A", 0x0D00224, [], .word, [⟨F.UPD_SLOT_A_FW_SVN, 8, 8, 0, .ro⟩, ⟨F.UPD_SLOT_A_STATE, 0, 2, 0, .ro⟩]⟩,
  ⟨"UPD_SLOT_B", 0x0D00228, [], .word, [⟨F.UPD_SLOT_B_FW_SVN, 8, 8, 0, .ro⟩, ⟨F.UPD_SLOT_B_STATE, 0, 2, 0, .ro⟩]⟩,
  ⟨"BUNDLE_VER_A", 0x0D0022C, [], .word, [⟨F.BUNDLE_VER_A, 0, 32, 0, .ro⟩]⟩,
  ⟨"BUNDLE_VER_B", 0x0D00230, [], .word, [⟨F.BUNDLE_VER_B, 0, 32, 0, .ro⟩]⟩]

/-- Registers of `spec/16_power_states.md`. -/
def regRows29 : List RegRow := [
  ⟨"PWR_CTRL", 0x0E00000, [], .word, [⟨F.PWR_CTRL_MAX_STATE, 4, 3, 0, .rw⟩, ⟨F.PWR_CTRL_BOOST, 1, 1, 0, .rw⟩]⟩,
  ⟨"PWR_STATUS", 0x0E00004, [], .word, [⟨F.PWR_STATUS_WAKE_PEND, 25, 1, 0, .ro⟩, ⟨F.PWR_STATUS_FAULT, 24, 1, 0, .ro⟩, ⟨F.PWR_STATUS_LOOM_ON, 16, 4, 0, .ro⟩, ⟨F.PWR_STATUS_PHASE, 8, 2, 0, .ro⟩, ⟨F.PWR_STATUS_TARGET, 4, 3, 0, .ro⟩, ⟨F.PWR_STATUS_STATE, 0, 3, 0, .ro⟩]⟩,
  ⟨"PWR_EVENT", 0x0E00008, [], .word, [⟨F.PWR_EVENT, 0, 7, 0, .w1c⟩]⟩,
  ⟨"PWR_TOL_DEV", 0x0E0000C, [], .word, [⟨F.PWR_TOL_DEV, 0, 32, 0, .rw⟩]⟩,
  ⟨"PWR_WAKE_EN", 0x0E00010, [], .word, [⟨F.PWR_WAKE_EN_HOST, 3, 1, 0, .rw⟩, ⟨F.PWR_WAKE_EN_ALARM, 2, 1, 0, .rw⟩, ⟨F.PWR_WAKE_EN_WAKE_N, 1, 1, 0, .rw⟩, ⟨F.PWR_WAKE_EN_LULL, 0, 1, 0, .rw⟩]⟩,
  ⟨"PWR_WAKE_SRC", 0x0E00014, [], .word, [⟨F.PWR_WAKE_SRC, 0, 8, 0, .ro⟩]⟩,
  ⟨"PWR_ALARM_LO", 0x0E00018, [], .low, [⟨F.PWR_ALARM, 0, 32, 0, .rw⟩]⟩,
  ⟨"PWR_ALARM_HI", 0x0E0001C, [], .high, [⟨F.PWR_ALARM, 0, 32, 32, .rw⟩]⟩,
  ⟨"PWR_ENTRY_CFG", 0x0E00020, [], .word, [⟨F.PWR_ENTRY_CFG_RETRY_MS, 16, 8, 0, .rw⟩, ⟨F.PWR_ENTRY_CFG_ENTRY_TMO_US, 0, 16, 0, .rw⟩]⟩,
  ⟨"PWR_WAKE_CFG", 0x0E00024, [], .word, [⟨F.PWR_WAKE_CFG_RET_MV, 16, 12, 0, .rwl⟩, ⟨F.PWR_WAKE_CFG_WAKE_RETRY_MS, 8, 8, 0, .rw⟩, ⟨F.PWR_WAKE_CFG_WAKE_TMO_MS, 0, 8, 0, .rw⟩]⟩,
  ⟨"PWR_REFUSE", 0x0E00028, [], .word, [⟨F.PWR_REFUSE_CAUSE, 12, 2, 0, .ro⟩, ⟨F.PWR_REFUSE_TARGET, 8, 3, 0, .ro⟩, ⟨F.PWR_REFUSE_REFUSER, 0, 8, 0, .ro⟩]⟩,
  ⟨"PWR_REFUSE_CNT", 0x0E0002C, [], .word, [⟨F.PWR_REFUSE_CNT, 0, 32, 0, .rc⟩]⟩,
  ⟨"PWR_ABORT_CNT", 0x0E00030, [], .word, [⟨F.PWR_ABORT_CNT, 0, 32, 0, .rc⟩]⟩,
  ⟨"PWR_WAKE_FAIL_CNT", 0x0E00034, [], .word, [⟨F.PWR_WAKE_FAIL_CNT, 0, 16, 0, .rc⟩]⟩,
  ⟨"PWR_WAKE_MERGED", 0x0E00038, [], .word, [⟨F.PWR_WAKE_MERGED, 0, 16, 0, .rc⟩]⟩,
  ⟨"PWR_HOLD", 0x0E0003C, [], .word, [⟨F.PWR_HOLD, 0, 16, 0, .rw⟩]⟩,
  ⟨"LULL_CFG", 0x0E00040, [], .word, [⟨F.LULL_CFG_BCAST_EN, 8, 1, 0, .rw⟩, ⟨F.LULL_CFG_ADDR, 0, 8, 0, .rw⟩]⟩,
  ⟨"LULL_STATUS", 0x0E00044, [], .word, [⟨F.LULL_STATUS_LAST_CMD, 8, 4, 0, .ro⟩, ⟨F.LULL_STATUS_LAST_ADDR, 0, 8, 0, .ro⟩]⟩,
  ⟨"LULL_CNT", 0x0E00048, [], .word, [⟨F.LULL_CNT_MATCH, 16, 16, 0, .rc⟩, ⟨F.LULL_CNT_ERR, 0, 16, 0, .rc⟩]⟩,
  ⟨"PWR_RES_LO", 0x0E00050, [(0x8, 5)], .low, [⟨F.PWR_RES, 0, 32, 0, .ro⟩]⟩,
  ⟨"PWR_RES_HI", 0x0E00054, [(0x8, 5)], .high, [⟨F.PWR_RES, 0, 32, 32, .ro⟩]⟩,
  ⟨"PWR_ENTRIES", 0x0E00078, [(0x4, 5)], .word, [⟨F.PWR_ENTRIES, 0, 32, 0, .ro⟩]⟩,
  ⟨"PWR_PART_TOL", 0x0E00100, [(0x8, 16)], .word, [⟨F.PWR_PART_TOL, 0, 32, 0, .rw⟩]⟩,
  ⟨"PWR_PART_CFG", 0x0E00104, [(0x8, 16)], .word, [⟨F.PWR_PART_CFG, 0, 1, 0, .rwl⟩]⟩]

/-- Registers of `spec/17_reset_and_startup.md`. -/
def regRows30 : List RegRow := [
  ⟨"RST_CAUSE", 0x0E00200, [], .word, [⟨F.RST_CAUSE_WARM, 10, 1, 0, .ro⟩, ⟨F.RST_CAUSE_CKPT_FOUND, 9, 1, 0, .ro⟩, ⟨F.RST_CAUSE_WARP_KEPT, 8, 1, 0, .ro⟩, ⟨F.RST_CAUSE_CAUSE, 0, 8, 0, .ro⟩]⟩,
  ⟨"RST_STAGE", 0x0E00204, [], .word, [⟨F.RST_STAGE_FAIL_CODE, 16, 8, 0, .ro⟩, ⟨F.RST_STAGE_FAIL_STEP, 8, 8, 0, .ro⟩, ⟨F.RST_STAGE_STAGE, 0, 8, 0, .ro⟩]⟩,
  ⟨"RST_CTRL", 0x0E00208, [], .word, [⟨F.RST_CTRL_KEY, 16, 16, 0, .wo⟩, ⟨F.RST_CTRL_DEVICE, 0, 1, 0, .wo⟩]⟩,
  ⟨"RST_CFG", 0x0E0020C, [], .word, [⟨F.RST_CFG_SYNC_WAIT_MS, 16, 16, 0, .rwl⟩, ⟨F.RST_CFG_WDT_MS, 1, 15, 0, .rwl⟩, ⟨F.RST_CFG_WARM_EN, 0, 1, 0, .rwl⟩]⟩,
  ⟨"CKPT_SEQ_LO", 0x0E00210, [], .low, [⟨F.CKPT_SEQ, 0, 32, 0, .ro⟩]⟩,
  ⟨"CKPT_SEQ_HI", 0x0E00214, [], .high, [⟨F.CKPT_SEQ, 0, 32, 32, .ro⟩]⟩,
  ⟨"CKPT_T_LO", 0x0E00218, [], .low, [⟨F.CKPT_T, 0, 32, 0, .ro⟩]⟩,
  ⟨"CKPT_T_HI", 0x0E0021C, [], .high, [⟨F.CKPT_T, 0, 32, 32, .ro⟩]⟩,
  ⟨"RST_BOOT_US", 0x0E00220, [], .word, [⟨F.RST_BOOT_US, 0, 32, 0, .ro⟩]⟩,
  ⟨"RST_PART_AVG", 0x0E00224, [], .word, [⟨F.RST_PART_AVG, 0, 32, 0, .ro⟩]⟩,
  ⟨"RST_PART", 0x0E00300, [(0x8, 16)], .word, [⟨F.RST_PART_PR_DONE, 17, 1, 0, .w1c⟩, ⟨F.RST_PART_IN_RESET, 16, 1, 0, .ro⟩, ⟨F.RST_PART_EXPECT, 8, 2, 0, .wo⟩, ⟨F.RST_PART_STATE_MISMATCH, 1, 1, 0, .w1c⟩, ⟨F.RST_PART_RESET, 0, 1, 0, .wo⟩]⟩,
  ⟨"RESUME_CFG", 0x0E00304, [(0x8, 16)], .word, [⟨F.RESUME_CFG_RESUME_RESULT, 24, 8, 0, .ro⟩, ⟨F.RESUME_CFG_RESUME_UNTIMED, 16, 1, 0, .rwl⟩, ⟨F.RESUME_CFG_RESUME_MS, 0, 16, 0, .rwl⟩]⟩]

/-- Registers of `spec/18_host_memory_and_address_map.md`. -/
def regRows31 : List RegRow := [
  ⟨"SYS_FAULT", 0x0000010, [], .word, [⟨F.SYS_FAULT, 0, 21, 0, .w1c⟩]⟩,
  ⟨"SYS_FAULT_LAST", 0x0000014, [], .word, [⟨F.SYS_FAULT_LAST, 0, 5, 0, .ro⟩]⟩,
  ⟨"SYS_FAULT_T_LO", 0x0000018, [], .low, [⟨F.SYS_FAULT_T, 0, 32, 0, .ro⟩]⟩,
  ⟨"SYS_FAULT_T_HI", 0x000001C, [], .high, [⟨F.SYS_FAULT_T, 0, 32, 32, .ro⟩]⟩,
  ⟨"SYS_DEVFAULT", 0x0000020, [], .word, [⟨F.SYS_DEVFAULT, 0, 8, 0, .ro⟩]⟩,
  ⟨"SYS_DISCARD", 0x0000024, [], .word, [⟨F.SYS_DISCARD_REASON, 28, 4, 0, .ro⟩, ⟨F.SYS_DISCARD_OFFSET, 0, 28, 0, .ro⟩]⟩,
  ⟨"SYS_DISCARD_CNT", 0x0000028, [], .word, [⟨F.SYS_DISCARD_CNT, 0, 32, 0, .rc⟩]⟩,
  ⟨"HOST_STATUS", 0x0F00000, [], .word, [⟨F.HOST_STATUS_PCIE_GEN, 28, 4, 0, .ro⟩, ⟨F.HOST_STATUS_PCIE_WIDTH, 24, 4, 0, .ro⟩, ⟨F.HOST_STATUS_BOOTING, 8, 1, 0, .ro⟩, ⟨F.HOST_STATUS_ETH_UP, 0, 2, 0, .ro⟩]⟩,
  ⟨"HOST_EVENT", 0x0F00004, [], .word, [⟨F.HOST_EVENT, 0, 4, 0, .w1c⟩]⟩,
  ⟨"BAR2_BASE", 0x0F00008, [], .word, [⟨F.BAR2_BASE, 0, 8, 0, .rw⟩]⟩,
  ⟨"MGMT_DIV_CNT", 0x0F0000C, [], .word, [⟨F.MGMT_DIV_CNT, 0, 32, 0, .rc⟩]⟩,
  ⟨"MBX_DB", 0x0F00100, [(0x4, 17)], .word, [⟨F.MBX_DB, 0, 7, 0, .rw⟩]⟩,
  ⟨"MBX_STATE", 0x0F00180, [(0x4, 17)], .word, [⟨F.MBX_STATE_CONS, 16, 7, 0, .ro⟩, ⟨F.MBX_STATE_COMP, 8, 7, 0, .ro⟩]⟩,
  ⟨"PV_STATE", 0x0F01000, [(0x20, 16)], .word, [⟨F.PV_STATE_ACTIVE, 24, 4, 0, .ro⟩, ⟨F.PV_STATE_TREADLE, 20, 2, 0, .ro⟩, ⟨F.PV_STATE_PROGRAM, 16, 2, 0, .ro⟩]⟩,
  ⟨"PV_STEP", 0x0F01004, [(0x20, 16)], .word, [⟨F.PV_STEP, 0, 16, 0, .ro⟩]⟩,
  ⟨"PV_T_LO", 0x0F01008, [(0x20, 16)], .low, [⟨F.PV_T, 0, 32, 0, .ro⟩]⟩,
  ⟨"PV_T_HI", 0x0F0100C, [(0x20, 16)], .high, [⟨F.PV_T, 0, 32, 32, .ro⟩]⟩,
  ⟨"PV_SEQ", 0x0F01010, [(0x20, 16)], .word, [⟨F.PV_SEQ, 0, 32, 0, .ro⟩]⟩,
  ⟨"INT_MAP", 0x0F03000, [(0x4, 200)], .word, [⟨F.INT_MAP_EN, 31, 1, 0, .rw⟩, ⟨F.INT_MAP_VECTOR, 0, 6, 0, .rw⟩]⟩,
  ⟨"ETH_CFG", 0x0F04000, [(0x100, 2)], .word, [⟨F.ETH_CFG_VLAN_ID, 16, 12, 0, .rw⟩, ⟨F.ETH_CFG_VLAN_EN, 5, 1, 0, .rw⟩, ⟨F.ETH_CFG_MGMT_EN, 4, 1, 0, .rw⟩, ⟨F.ETH_CFG_MODE, 0, 2, 0, .rw⟩]⟩,
  ⟨"ETH_IP", 0x0F04004, [(0x100, 2)], .word, [⟨F.ETH_IP, 0, 32, 0, .rw⟩]⟩,
  ⟨"ETH_MASK", 0x0F04008, [(0x100, 2)], .word, [⟨F.ETH_MASK, 0, 32, 0, .rw⟩]⟩,
  ⟨"ETH_GW", 0x0F0400C, [(0x100, 2)], .word, [⟨F.ETH_GW, 0, 32, 0, .rw⟩]⟩,
  ⟨"ETH_MTU", 0x0F04010, [(0x100, 2)], .word, [⟨F.ETH_MTU, 0, 14, 0, .rw⟩]⟩]

/-- Registers of `spec/18_host_memory_and_address_map.md`. -/
def regRows32 : List RegRow := [
  ⟨"ETH_MGMT_PORT", 0x0F04014, [(0x100, 2)], .word, [⟨F.ETH_MGMT_PORT, 0, 16, 0, .rw⟩]⟩,
  ⟨"ETH_ALLOW", 0x0F04018, [(0x100, 2), (0x4, 4)], .word, [⟨F.ETH_ALLOW, 0, 32, 0, .rw⟩]⟩,
  ⟨"SK_COLLECT_IP", 0x0F04028, [(0x100, 2)], .word, [⟨F.SK_COLLECT_IP, 0, 32, 0, .rw⟩]⟩,
  ⟨"SK_COLLECT_PORT", 0x0F0402C, [(0x100, 2)], .word, [⟨F.SK_COLLECT_PORT_DST, 16, 16, 0, .rw⟩, ⟨F.SK_COLLECT_PORT_SRC, 0, 16, 0, .rw⟩]⟩,
  ⟨"SK_STREAMS", 0x0F04030, [(0x100, 2)], .word, [⟨F.SK_STREAMS, 0, 17, 0, .rw⟩]⟩,
  ⟨"PTP_CFG", 0x0F04034, [(0x100, 2)], .word, [⟨F.PTP_CFG_DOMAIN, 8, 8, 0, .rw⟩, ⟨F.PTP_CFG_MASTER_EN, 4, 1, 0, .rw⟩, ⟨F.PTP_CFG_PROFILE, 2, 2, 0, .rw⟩, ⟨F.PTP_CFG_ONE_STEP, 1, 1, 0, .rw⟩, ⟨F.PTP_CFG_EN, 0, 1, 0, .rw⟩]⟩,
  ⟨"PTP_LAT", 0x0F04038, [(0x100, 2)], .word, [⟨F.PTP_LAT_EGR_LAT_NS, 16, 16, 0, .rw⟩, ⟨F.PTP_LAT_ING_LAT_NS, 0, 16, 0, .rw⟩]⟩,
  ⟨"PTP_STATUS", 0x0F0403C, [(0x100, 2)], .word, [⟨F.PTP_STATUS, 0, 2, 0, .ro⟩]⟩,
  ⟨"PTP_OFFSET", 0x0F04040, [(0x100, 2)], .word, [⟨F.PTP_OFFSET, 0, 32, 0, .ro⟩]⟩,
  ⟨"ETH_RX_DROP", 0x0F04044, [(0x100, 2)], .word, [⟨F.ETH_RX_DROP, 0, 32, 0, .rc⟩]⟩,
  ⟨"WEFT_PEER_IP", 0x0F05000, [(0x100, 2), (0x8, 32)], .word, [⟨F.WEFT_PEER_IP, 0, 32, 0, .rw⟩]⟩,
  ⟨"WEFT_PEER_PORT", 0x0F05004, [(0x100, 2), (0x8, 32)], .word, [⟨F.WEFT_PEER_PORT_DST, 16, 16, 0, .rw⟩, ⟨F.WEFT_PEER_PORT_SRC, 0, 16, 0, .rw⟩]⟩,
  ⟨"MEM_DRAM_STATUS", 0x0F08000, [], .word, [⟨F.MEM_DRAM_STATUS_RATE, 24, 8, 0, .ro⟩, ⟨F.MEM_DRAM_STATUS_POP_GIB, 16, 8, 0, .ro⟩, ⟨F.MEM_DRAM_STATUS_TRAINED, 1, 1, 0, .ro⟩, ⟨F.MEM_DRAM_STATUS_ECC_ON, 0, 1, 0, .ro⟩]⟩,
  ⟨"MEM_DRAM_USABLE", 0x0F08004, [], .word, [⟨F.MEM_DRAM_USABLE, 0, 32, 0, .ro⟩]⟩,
  ⟨"MEM_CE_SRAM", 0x0F08008, [], .word, [⟨F.MEM_CE_SRAM, 0, 32, 0, .rc⟩]⟩,
  ⟨"MEM_CE_MRAM", 0x0F0800C, [], .word, [⟨F.MEM_CE_MRAM, 0, 32, 0, .rc⟩]⟩,
  ⟨"MEM_CE_DRAM", 0x0F08010, [], .word, [⟨F.MEM_CE_DRAM, 0, 32, 0, .rc⟩]⟩,
  ⟨"MEM_ECC_UE_CNT", 0x0F08014, [], .word, [⟨F.MEM_ECC_UE_CNT_SRAM, 16, 8, 0, .rc⟩, ⟨F.MEM_ECC_UE_CNT_MRAM, 8, 8, 0, .rc⟩, ⟨F.MEM_ECC_UE_CNT_DRAM, 0, 8, 0, .rc⟩]⟩,
  ⟨"MEM_ECC_ADDR_LO", 0x0F08018, [], .low, [⟨F.MEM_ECC_ADDR, 0, 32, 0, .ro⟩]⟩,
  ⟨"MEM_ECC_ADDR_HI", 0x0F0801C, [], .high, [⟨F.MEM_ECC_ADDR, 0, 4, 32, .ro⟩]⟩,
  ⟨"MEM_ECC_LAST", 0x0F08020, [], .word, [⟨F.MEM_ECC_LAST_MEM, 30, 2, 0, .ro⟩, ⟨F.MEM_ECC_LAST_UE, 29, 1, 0, .ro⟩]⟩,
  ⟨"MEM_DRAM_SCRUB", 0x0F08024, [], .word, [⟨F.MEM_DRAM_SCRUB, 0, 16, 0, .ro⟩]⟩]

/-- Registers of `spec/19_electrical_and_package.md`. -/
def regRows33 : List RegRow := [
  ⟨"TJ_NOW", 0x0E00400, [], .word, [⟨F.TJ_NOW, 0, 16, 0, .ro⟩]⟩,
  ⟨"TJ_PEAK", 0x0E00404, [], .word, [⟨F.TJ_PEAK, 0, 16, 0, .rc⟩]⟩,
  ⟨"LIFE_HOURS", 0x0E00408, [], .word, [⟨F.LIFE_HOURS, 0, 32, 0, .ro⟩]⟩,
  ⟨"LIFE_TJ_AVG", 0x0E0040C, [], .word, [⟨F.LIFE_TJ_AVG, 0, 16, 0, .ro⟩]⟩,
  ⟨"LIFE_VCORE_AVG", 0x0E00410, [], .word, [⟨F.LIFE_VCORE_AVG, 0, 12, 0, .ro⟩]⟩,
  ⟨"PMB_ICORE", 0x0E00414, [], .word, [⟨F.PMB_ICORE, 0, 16, 0, .ro⟩]⟩,
  ⟨"PMB_STATUS", 0x0E00418, [], .word, [⟨F.PMB_STATUS, 0, 16, 0, .ro⟩]⟩,
  ⟨"PMB_CFG", 0x0E0041C, [], .word, [⟨F.PMB_CFG_POLL_MS, 8, 8, 0, .rw⟩, ⟨F.PMB_CFG_CORE_ADDR, 0, 7, 0, .ro⟩]⟩,
  ⟨"MSIX_ADDR_LO", 0x0F02000, [(0x10, 64)], .word, [⟨F.MSIX_ADDR_LO, 0, 32, 0, .rw⟩]⟩,
  ⟨"MSIX_ADDR_HI", 0x0F02004, [(0x10, 64)], .word, [⟨F.MSIX_ADDR_HI, 0, 32, 0, .rw⟩]⟩,
  ⟨"MSIX_DATA", 0x0F02008, [(0x10, 64)], .word, [⟨F.MSIX_DATA, 0, 32, 0, .rw⟩]⟩,
  ⟨"MSIX_CTRL", 0x0F0200C, [(0x10, 64)], .word, [⟨F.MSIX_MASK, 0, 1, 0, .rw⟩]⟩,
  ⟨"MSIX_PBA", 0x0F02800, [(0x4, 2)], .word, [⟨F.MSIX_PBA, 0, 32, 0, .ro⟩]⟩]

/-- Every register of the spec, in the order of its files. -/
def regMap : List RegRow :=
  regRows00 ++
  regRows01 ++
  regRows02 ++
  regRows03 ++
  regRows04 ++
  regRows05 ++
  regRows06 ++
  regRows07 ++
  regRows08 ++
  regRows09 ++
  regRows10 ++
  regRows11 ++
  regRows12 ++
  regRows13 ++
  regRows14 ++
  regRows15 ++
  regRows16 ++
  regRows17 ++
  regRows18 ++
  regRows19 ++
  regRows20 ++
  regRows21 ++
  regRows22 ++
  regRows23 ++
  regRows24 ++
  regRows25 ++
  regRows26 ++
  regRows27 ++
  regRows28 ++
  regRows29 ++
  regRows30 ++
  regRows31 ++
  regRows32 ++
  regRows33

end Sys2Proof.Machine
end

