-- ==== Sys2Proof/Machine/Mem.lean ====
section
/-! DEFINITION.  The addressed memories of the device (18 R446, R450; 10 R243): bytes in one
canonical form. -/

namespace Sys2Proof.Machine

/-- A memory: addresses strictly rising, and no byte equal to what an unlisted address reads
as. -/
structure Memory where
  cells : List Host.Cell
  deriving DecidableEq, Repr

/-- What a byte that nothing has written reads as (notes/assumptions/4.md). -/
def unlistedByte : Byte := 0

/-- The byte at `a` in a list of cells. -/
def readCell (a : Nat) : List Host.Cell → Byte
  | [] => unlistedByte
  | (k, b) :: rest => if k = a then b else readCell a rest

/-- A cell inserted in rising order, in the place of one with its address. -/
def putCellAt (a : Nat) (b : Byte) : List Host.Cell → List Host.Cell
  | [] => [(a, b)]
  | (k, c) :: rest =>
    if a < k then (a, b) :: (k, c) :: rest
    else if a = k then (a, b) :: rest
    else (k, c) :: putCellAt a b rest

/-- The cells without the one at `a`. -/
def dropCell (a : Nat) (l : List Host.Cell) : List Host.Cell := l.filter (fun e => e.1 != a)

/-- The byte at an address. -/
def Memory.read (m : Memory) (a : Nat) : Byte := readCell a m.cells

/-- A byte written: one equal to what an unlisted address reads as is not listed. -/
def Memory.write (m : Memory) (a : Nat) (b : Byte) : Memory :=
  if b = unlistedByte then ⟨dropCell a m.cells⟩ else ⟨putCellAt a b m.cells⟩

/-- `n` bytes from an address. -/
def Memory.readBytes (m : Memory) (a n : Nat) : List Byte := (List.range n).map (fun i => m.read (a + i))

/-- Bytes written from an address on. -/
def Memory.writeBytes (m : Memory) (a : Nat) : List Byte → Memory
  | [] => m
  | b :: rest => (m.write a b).writeBytes (a + 1) rest

/-- `n` bytes from an address returned to what an unlisted byte reads as. -/
def Memory.clear (m : Memory) (a n : Nat) : Memory := ⟨m.cells.filter (fun e => !(decide (a ≤ e.1) && decide (e.1 < a + n)))⟩

/-- The addresses of a list of cells rise strictly, from above `lo`. -/
def cellsRise : Option Nat → List Host.Cell → Bool
  | _, [] => true
  | lo, (k, _) :: rest => lo.all (fun x => decide (x < k)) && cellsRise (some k) rest

/-- The canonical form of a memory. -/
def Memory.wf (m : Memory) : Bool := cellsRise none m.cells && m.cells.all (fun e => e.2 != unlistedByte)

end Sys2Proof.Machine
end

