-- ==== Sys2Proof/Machine/State.lean ====
section
/-! DEFINITION.  The state of the block: everything the spec gives the machine, as plain
data, and the state right after reset. -/

namespace Sys2Proof.Machine

/-- The Warp (02): the instant now, the hidden fraction below it, what is left of a slew and
the state of the monitors, pins and slack windows. -/
structure Warp where
  /-- WARP_NOW (R10). -/
  now : Instant
  /-- The hidden 40-bit fraction below bit 0 of WARP_NOW. -/
  frac : Nat
  /-- The offset a slew has left, in units of 2^-40 sixteenths (R37). -/
  slewLeft : Int
  /-- What the compensated instant leaves out (11 R281): offsets absorbed by slews and steps, in
  units of 2^-40 sixteenths. -/
  removed : Int
  /-- The 2-bit fraction of the coarse count, in quarter sixteenths. -/
  coarseQuarter : Nat
  /-- The instant the coarse interval began (R48). -/
  coarseStart : Instant
  /-- In holdover: the instant since which REFCLK has been good without a break (R43). -/
  relockFrom : Option Instant
  /-- The lowest slack of the window in progress: slack in ns, KIND and ID (R54). -/
  slackLow : Option (Int × Nat × Nat)
  /-- What of the slack window in progress has passed, in units of 2^-40 Warp clock edges, and its
  WINDOW_US as taken at its start (R54). -/
  slackEdges : Nat
  slackUs : Nat
  /-- An active edge of PPS_IN or SYNC_IN that has not yet qualified (R51), and whether the Warp was
  coarse at it (R49). -/
  ppsEdge : Option (Instant × Bool)
  syncEdge : Option (Instant × Bool)
  /-- Levels of the pins PPS_OUT and SYNC_OUT; SYNC_OUT is true during its pulse. -/
  ppsOut : Bool
  syncOut : Bool
  /-- Whether the stamps in PPS_IN and SYNC_IN carry the coarse flag (R49). -/
  ppsCoarse : Bool
  syncCoarse : Bool
  /-- End of the PPS_OUT and SYNC_OUT pulse in progress. -/
  ppsFall : Instant
  syncFall : Instant
  /-- Unacknowledged attempts of the last AVS transaction that missed an acknowledgement, and the instant of
  the last timeout (R58). -/
  avsTries : Nat
  avsAt : Instant
  /-- The pin FAULT_N, true while asserted (01 R26). -/
  faultN : Bool
  deriving DecidableEq, Repr

/-- A coefficient bank (03 R88): the 24 words of Table 3.8, by word index from 0x0A0. -/
structure Bank where
  words : Tbl Nat
  deriving DecidableEq, Repr

/-- The inputs of one evaluation of the law (03 R64). -/
structure LawIn where
  bank : Bank
  sp : Int
  spDot : Int
  /-- The feedback: the sensor value or the model's. -/
  y : Int
  cs : Int
  j : Nat
  lastMove : Option (Instant × Bool)
  at_ : Instant
  /-- Event mode: step 4 is not run (R84). -/
  event : Bool
  deriving DecidableEq, Repr

/-- The plausibility model's configuration and state before an evaluation (04 R102). -/
structure ModelIn where
  k : Int
  b : Int
  sK : Nat
  a : Nat
  /-- u_hist[d]. -/
  u : Int
  yms : Int
  warmupLeft : Nat
  resLim : Nat
  violRun : Nat
  okRun : Nat
  deriving DecidableEq, Repr

/-- How an evaluation is supervised (04 R102 to R104): SUP_EN, REACT, PRE_SUB, NR and SUB_ESC; whether
a substitution is in progress, and whether this evaluation ends it. -/
structure Supervision where
  on : Bool
  react : Nat
  preSub : Bool
  nr : Nat
  esc : Bool
  substituting : Bool
  ends : Bool
  deriving DecidableEq, Repr

/-- What a strobe takes for its evaluation, whatever changes before the release (03 R82, 09 R232): the
release instant, the PWM period, and the inputs but for y. -/
structure Latched where
  due : Instant
  pwm : Nat
  law : LawIn
  model : ModelIn
  sup : Supervision
  deriving DecidableEq, Repr

/-- An evaluation in flight (03 R64, 04 R102): everything it computed, held until its release
(R68). -/
structure Eval where
  /-- The strobe instant, the release instant and the PWM period of the strobe; the bank it uses and
  whether the cell was in event mode. -/
  at_ : Instant
  due : Instant
  pwm : Nat
  bank : Bank
  event : Bool
  /-- Supervised: its model values are taken at the release (04 R102). -/
  sup : Bool
  /-- The instant its result was ready; none until then (02 R53). -/
  ready : Option Instant
  sp : Int
  spDot : Int
  /-- The sensor value, and the value the law used. -/
  y : Int
  e : Int
  c : Int
  w : Int
  u : Int
  cs : Int
  j : Nat
  /-- The feed-forward product of step 5. -/
  ff : Int
  /-- Stages of Table 3.1 that saturated, as bits. -/
  sats : Nat
  /-- A transition made: rise or fall. -/
  moved : Option Bool
  /-- A transition that dwell blocked. -/
  blocked : Bool
  /-- Comparator codes (lo, hi) per level (R84). -/
  codes : List (Nat × Nat)
  yms : Int
  ym : Int
  resid : Int
  warmupLeft : Nat
  violRun : Nat
  okRun : Nat
  warming : Bool
  /-- A plausibility violation declared; a substitution started or ended in it. -/
  violated : Bool
  subStart : Bool
  subEnd : Bool
  /-- Loop-fault causes declared, as bits of FAULT_CAUSE, and whether a reaction is STOP. -/
  causes : Nat
  stops : Bool
  deriving DecidableEq, Repr

/-- A loop cell beyond its registers (03, 04). -/
structure LoopCell where
  bankA : Bank
  bankB : Bank
  /-- The level after the last released evaluation or transition. -/
  j : Nat
  /-- The last transition since enable: its instant and whether it rose (R66). -/
  lastMove : Option (Instant × Bool)
  /-- sp of the evaluation before (R70). -/
  prevSp : Option Int
  /-- The strobe whose AIN conversion is awaited (04 R90), and the evaluation in flight. -/
  latched : Option Latched
  eval : Option Eval
  /-- A swap since the strobe of the evaluation in flight: steps 2 to 4 of R81 again (R82). -/
  reclamp : Bool
  /-- C_STATE was written since that strobe: the written state stands. -/
  keepCs : Bool
  /-- A host SWAP awaits the first strobe (R82). -/
  swapAsked : Bool
  /-- Late evaluations still running, oldest first: the release instants they missed (04 R95, R96). -/
  lates : List Instant
  /-- A parity error read that awaits the next release instant (04 R98, R107). -/
  parityDue : Bool
  /-- A fault declared between releases that awaits the next release instant (04 R99). -/
  faultDue : Bool
  /-- Feed-forward product of the last released evaluation (R86). -/
  ff : Int
  codes : List (Nat × Nat)
  tripRise : Bool
  tripFall : Bool
  blankEnd : Instant
  /-- The strobe before (04 R94). -/
  lastStrobe : Option Instant
  /-- u in force at the destination, and at the last 64 strobes, newest first (04). -/
  inForce : Int
  uHist : List Int
  /-- A ring cycle since the strobe before brought no good input bytes (04 R94). -/
  stale : Bool
  yms : Int
  warmupLeft : Nat
  /-- The deadline of the substitution, the evaluation instant that declared it, and the partition's
  last Treadle commit (R104). -/
  subDeadline : Instant
  subFrom : Instant
  commitAt : Option Instant
  /-- The copy a read of SP latches: SP to U, YM, RESID (R68). -/
  snapshot : List Nat
  deriving DecidableEq, Repr

/-- A loop cell right after reset. -/
def LoopCell.init : LoopCell :=
  { bankA := ⟨.empty⟩, bankB := ⟨.empty⟩, j := 0, lastMove := none, prevSp := none, latched := none, eval := none
    reclamp := false, keepCs := false, swapAsked := false, lates := [], parityDue := false, faultDue := false, ff := 0, codes := []
    tripRise := false, tripFall := false, blankEnd := 0, lastStrobe := none, inForce := 0, uHist := [], stale := false, yms := 0
    warmupLeft := 0, subDeadline := 0, subFrom := 0, commitAt := none, snapshot := [] }

/-- A PWM course of a pin (03 R73, 06 R156): its start, period and high time, the level during
the high time and the level for the rest. -/
structure PwmRun where
  start : Instant
  period : Nat
  high : Nat
  first : Bool
  rest : Bool
  deriving DecidableEq, Repr

/-- An FIO pin: the level driven and its PWM, the level at the ball and the filtered input
level (03 R73, 09 R476). -/
structure FioPin where
  out : Bool
  pwm : Option PwmRun
  /-- The course that takes over at its start (06 R156). -/
  nextPwm : Option PwmRun
  raw : Bool
  level : Bool
  /-- The instant of the last raw edge, while the filter has not taken it. -/
  edge : Option Instant
  /-- The stamp of the last change taken. -/
  stamp : Instant
  deriving DecidableEq, Repr

/-- A pin right after reset. -/
def FioPin.init : FioPin := ⟨false, none, none, false, false, none, 0⟩

/-- Who awaits a conversion beside cells and axes: a tap, a capture channel, or a mapped input
of a partition's input image (04 R90, 11 R273). -/
inductive Reader where
  | tap (n : Nat)
  | chan (n : Nat)
  | image (p addr : Nat)
  deriving DecidableEq, Repr

/-- An analog input's track-and-hold and conversion (04 R90, R91). -/
structure Ain where
  /-- The strobe whose sample is held and awaits its conversion. -/
  held : Option Instant
  /-- When the track-and-hold returned to tracking. -/
  tracking : Instant
  /-- The last result: the calibrated q, its strobe instant and the instant it was ready. -/
  q : Nat
  at_ : Instant
  ready : Instant
  /-- Readers that await the conversion, with their strobe instants (R90). -/
  readers : List (Reader × Instant)
  deriving DecidableEq, Repr

/-- An analog input right after reset. -/
def Ain.init : Ain := ⟨none, 0, 0, 0, 0, []⟩

/-- A converter (04 R109): its coefficients and whether it is retired (R111). -/
structure Converter where
  gain : Nat
  offs : Int
  retired : Bool
  deriving DecidableEq, Repr

/-- A converter right after reset: unity coefficients. -/
def Converter.init : Converter := ⟨16384, 0, false⟩

/-- The converter rotation (04 R110, R112). -/
structure Rotation where
  /-- The group being cross-checked, the pairs compared and whether all agreed. -/
  slot : Option (Nat × Nat × Bool)
  /-- The converter being calibrated. -/
  calibrating : Option Nat
  /-- The group against which the spare failed in the last slot (R111). -/
  failed : Option Nat
  /-- Requested converters in order of admission. -/
  queue : List Nat
  /-- When the last slot began, and the conversions of its own that the rotation has made in it. -/
  slotAt : Option Instant
  own : Nat
  deriving DecidableEq, Repr

/-- A VALVE change that a commit scheduled (05 R130, R131): output selector, level, instant. -/
structure PendingValve where
  sel : Nat
  level : Bool
  at_ : Instant
  deriving DecidableEq, Repr

/-- A staging (05 R124): the step, when it began, whether it has finished and is invalid, the
loop cells and generators it touches, and whether its commit instant was missed. -/
structure Staging where
  step : Nat
  start : Instant
  finished : Bool
  invalid : Bool
  cells : List Nat
  gens : List Nat
  missed : Bool
  deriving DecidableEq, Repr

/-- What a Treadle has scheduled (05 R123): a commit, or at the boundary END or STOP. -/
inductive DueKind where
  | commit | finish | stop
  deriving DecidableEq, Repr

/-- A Treadle (05): the verified table, what it has scheduled, its staging and the rest of the
step in progress. -/
structure Treadle where
  table : Option StepTable
  staging : Option Staging
  /-- The instant and kind of what a decision or START scheduled. -/
  due : Option (Instant × DueKind)
  /-- The boundary of the decided step. -/
  boundary : Instant
  /-- Time spent PAUSED since C in sixteenths, and the instant the pause in progress began. -/
  paused : Nat
  pausedAt : Option Instant
  /-- The instant of the last evaluation of the conditions. -/
  lastEval : Option Instant
  /-- Generators moved and axes started by the step in progress. -/
  moved : List Nat
  started : List Nat
  /-- Of those axes, the ones that have finished their segments since C (Table 5.6). -/
  finished : List Nat
  /-- VALVE changes replaced before their instant (R131). -/
  replaced : Nat
  valves : List PendingValve
  /-- Spawns holding a credit that wait for a task slot: template and argument (R132). -/
  spawns : List (Nat × Nat)
  /-- The last 256 staging times in ns, newest first. -/
  stageTimes : List Nat
  /-- What a warm resume commits the step with, and the τ in sixteenths with which the step in
  progress began: 0 but after a warm resume (17 R422). -/
  resume : Option CkptTreadle
  credit : Nat
  deriving DecidableEq, Repr

/-- A Treadle right after reset. -/
def Treadle.init : Treadle := ⟨none, none, none, 0, 0, none, none, [], [], [], 0, [], [], [], none, 0⟩

/-- A generator right after reset. -/
def Gen.init : Gen := ⟨0, 0, none, none, none, [0], [0], 0, 0, 0, 1, none, false, false⟩

/-- A segment of a trajectory (06 R153): its start instant, duration and end states; a stop is
clamped (R158). -/
structure AxSeg where
  start : Instant
  dur : Nat
  p0 : Int
  v0 : Int
  p1 : Int
  v1 : Int
  clamp : Bool
  deriving DecidableEq, Repr

/-- An evaluation of an axis in flight (06 R153 to R157), held until its release. -/
structure AxEval where
  at_ : Instant
  /-- Its release instant. -/
  due : Instant
  ready : Option Instant
  p : Int
  v : Int
  fb : Int
  /-- The AIN whose conversion it awaits for the bus voltage (R155). -/
  awaits : Option Nat
  /-- Coil currents, duties, and how many of the duties were clamped (R155). -/
  ia : Int
  ib : Int
  da : Int
  db : Int
  sats : Nat
  /-- Faults found, as bits of FAULT_CAUSE. -/
  causes : Nat
  deriving DecidableEq, Repr

/-- A homing in progress (06 R161 to R164). -/
structure Homing where
  /-- The commanded position at its start. -/
  from_ : Int
  /-- A qualified burst has been seen, and the latched L. -/
  seen : Bool
  latch : Option Int
  /-- HOME_RESULT that it ends with once at rest; 1 while undecided. -/
  result : Nat
  /-- Consecutive evaluations beyond HOME_FE, and fb at the first. -/
  feRun : Nat
  feFirst : Int
  deriving DecidableEq, Repr

/-- A burst of home-switch edges (06 R162): the last edge, their number, and the position L at
the first edge into the active level. -/
structure Burst where
  last : Instant
  edges : Nat
  latch : Option Int
  deriving DecidableEq, Repr

/-- An axis engine beyond its registers (06). -/
structure Axis where
  /-- The segments of the start in force; none: the axis holds `hold`. -/
  traj : List AxSeg
  hold : Int
  /-- The trajectory is a stop. -/
  isStop : Bool
  /-- First segment number of the start in force. -/
  first : Nat
  /-- Strobes before it release the held position (R152). -/
  holdUntil : Option Instant
  /-- Start instant of a segment that cannot be run (R151, cause SEG). -/
  bad : Option Instant
  eval : Option AxEval
  /-- Late evaluations still running, oldest first: the release instants they missed. -/
  lates : List Instant
  /-- GO (true) and HALT (false) admitted since the last strobe, in order (R151, R479). -/
  asks : List Bool
  /-- Stopping for a fault, and halted at once (R166). -/
  faultStop : Bool
  halted : Bool
  lateRun : Nat
  feRun : Nat
  /-- Strobe instant of the last released state. -/
  relAt : Instant
  /-- Strobe instant of the last evaluation with v ≠ 0. -/
  moved : Option Instant
  /-- Step pulses to rise, and those to fall. -/
  pulses : List Instant
  falls : List Instant
  /-- The encoder count, its changes of the last 2 µs, and the homing offset. -/
  count : Int
  edges : List (Instant × Int)
  offset : Int
  homing : Option Homing
  burst : Option Burst
  /-- The last active edge of the positive and of the negative limit on which no released evaluation has
  acted (R160). -/
  hitP : Option Instant
  hitN : Option Instant
  /-- ia, ib, da and db of the last release. -/
  coil : List Int
  /-- The first release after a warm resume decides HOMED (R168). -/
  checkHomed : Bool
  /-- AX_POS, AX_VEL, AX_FBPOS, AX_FE and STEP_POS as the last read of AX_POS latched them (R146);
  none before the first. -/
  snapshot : List Nat
  /-- The segment table (R149). -/
  segs : Tbl SegRec
  deriving DecidableEq, Repr

/-- An axis right after reset. -/
def Axis.init : Axis :=
  { traj := [], hold := 0, isStop := false, first := 0, holdUntil := none, bad := none, eval := none, lates := []
    asks := [], faultStop := false, halted := false, lateRun := 0, feRun := 0, relAt := 0, moved := none, pulses := []
    falls := [], count := 0, edges := [], offset := 0, homing := none, burst := none, hitP := none, hitN := none, coil := [0, 0, 0, 0], checkHomed := false, snapshot := [], segs := .empty }

/-- An armed axis group (06 R152): its members, KIND, the start instant where known, and the
SYNC_IN edge that came before the ARM. -/
structure AxGroup where
  members : List Nat
  sync : Bool
  at_ : Option Instant
  ignore : Option Instant
  deriving DecidableEq, Repr

/-- A Skein record (07 R175): kind, flags, body and what a block's header needs of it. -/
structure SkRec where
  kind : Nat
  flags : Nat
  body : List Byte
  first : Instant
  last : Instant
  /-- Samples the record holds: tap and count (R181). -/
  samples : List (Nat × Nat)
  deriving DecidableEq, Repr

/-- The adaptive state of the coder (07 R178). -/
structure Coder where
  a : Nat
  n : Nat
  /-- The difference before the last sample. -/
  dprev : Nat
  deriving DecidableEq, Repr

/-- A run of samples being coded (07 R177). -/
structure Run where
  tap : Nat
  timed : Bool
  count : Nat
  t0 : Instant
  step : Nat
  v0 : Word
  lastT : Instant
  lastV : Word
  time : Coder
  value : Coder
  bits : List Bool
  flags : Nat
  deriving DecidableEq, Repr

/-- A sealed block (07 R179): the header's fields, its records and its digest. -/
structure SkBlock where
  seq : Nat
  flags : Nat
  first : Instant
  last : Instant
  prevHash : Digest
  records : List SkRec
  epoch : Nat
  digest : Digest
  deriving DecidableEq, Repr

/-- Where a block of a DRAM region stands (07 R186, R187). -/
inductive SlotPhase where
  /-- Being written, or waiting for a retry. -/
  | writing
  /-- Written and checked, not yet visible. -/
  | written
  /-- Visible; its export has not begun. -/
  | visible
  /-- Its DMA or UDP export is in progress. -/
  | exporting
  /-- Consumed: its slot may be reused without a record. -/
  | consumed
  deriving DecidableEq, Repr

/-- A block in a stream's DRAM region. -/
structure SkSlot where
  block : SkBlock
  phase : SlotPhase
  retries : Nat
  deriving DecidableEq, Repr

/-- A gap in progress (07 R184). -/
structure Gap where
  start : Instant
  cause : Nat
  counts : List (Nat × Nat)
  deriving DecidableEq, Repr

/-- A checkpoint awaiting its signature (07 R182). -/
structure Ckpt where
  at_ : Instant
  headSeq : Nat
  headHash : Digest
  discards : Nat
  deriving DecidableEq, Repr

/-- One stream of the Skein (07 R169). -/
structure Stream where
  /-- The instant the open block got its first record; none while it is empty. -/
  openAt : Option Instant
  recs : List SkRec
  runs : List Run
  /-- SHA-384 of the last sealed block: the stream's slot in MRAM (R180). -/
  headHash : Digest
  /-- Whether any block was ever sealed. -/
  everSealed : Bool
  /-- Sealed blocks in the burst buffer, oldest first. -/
  burst : List SkBlock
  /-- Blocks in the DRAM region, oldest first. -/
  region : List SkSlot
  gap : Option Gap
  /-- Blocks overwritten since the last sealed block: FIRST, LAST, START, END (R185). -/
  overwritten : Option (Nat × Nat × Instant × Instant)
  /-- Samples discarded since the start (R182). -/
  discards : Nat
  ckpts : List Ckpt
  /-- Whether a block has become visible since the start, the SEQs in the host's DMA ring that
  it has not consumed, and the bytes exported in this second (R187). -/
  shown : Bool
  ring : List Nat
  outBytes : Nat
  /-- Records made before recording resumes: they follow the RESTART record of the first block (R189). -/
  early : List SkRec
  deriving DecidableEq, Repr

/-- A stream as it stands right after reset: nothing open, nothing sealed. -/
def Stream.init : Stream :=
  ⟨none, [], [], 0, false, [], [], none, none, 0, [], false, [], 0, []⟩

/-- What a tap remembers (07 R172): its last recorded value and how many sample instants it
has seen since its enable. -/
structure TapMem where
  last : Option Word
  seen : Nat
  deriving DecidableEq, Repr

/-- The Skein (07). -/
structure Skein where
  streams : Tbl Stream
  taps : Tbl TapMem
  /-- The Warp millisecond in progress and the samples accepted in it (R183). -/
  rateMs : Nat
  rateCount : Nat
  /-- Samples accepted in the second in progress. -/
  rateSecond : Nat
  deriving DecidableEq, Repr

/-- A trigger sequencer beyond its registers (08). -/
structure TrigSeq where
  /-- First instant at which it samples, and the entry instant of its state. -/
  armedAt : Instant
  entered : Instant
  /-- The counter of every state. -/
  counters : Tbl Nat
  /-- Events latched since the last sample: route and stamp; and the steps committed (R193). -/
  events : List (Nat × Instant)
  steps : List Nat
  deriving DecidableEq, Repr

/-- A sequencer right after reset. -/
def TrigSeq.init : TrigSeq := ⟨0, 0, .empty, [], []⟩

/-- A channel of an armed capture set (08 R198): timed or its period, its capacities, and the
samples taken: instant and value, oldest first. -/
structure CapChan where
  timed : Bool
  period : Nat
  nPre : Nat
  nPost : Nat
  pre : List (Instant × Word)
  post : List (Instant × Word)
  late : Bool
  deriving DecidableEq, Repr

/-- A capture set beyond its registers (08). -/
structure CapSet where
  chans : Tbl CapChan
  preNs : Nat
  postNs : Nat
  streamOut : Bool
  chunks : Nat
  hq : Nat
  /-- The reference instant of R203 and the requests missed since. -/
  reference : Instant
  missed : Nat
  /-- The instant of the DISARM that took the set out of FILLING or READY (Table 8.10). -/
  disarmed : Option Instant
  filling : Instant
  ready : Instant
  /-- The fire served: T, EVENT_T, the trigger word, the requests missed before it and DEAD_NS. -/
  trigT : Instant
  eventT : Instant
  word : Nat
  missedAt : Nat
  dead : Nat
  /-- FLAGS of the header (Table 8.5) and OVF_CH, OVF_T. -/
  flags : Nat
  ovf : Option (Nat × Instant)
  end_ : Instant
  /-- Post bytes taken since T; items not yet enqueued: channel, instant and value, in order; the index of
  the open chunk; and the chunks returned (R205). -/
  bytes : Nat
  items : List (Nat × Instant × Word)
  chunk : Nat
  acked : Nat
  deriving DecidableEq, Repr

/-- A capture set right after reset. -/
def CapSet.init : CapSet :=
  { chans := .empty, preNs := 0, postNs := 0, streamOut := false, chunks := 0, hq := 0, reference := 0, missed := 0, disarmed := none, filling := 0
    ready := 0, trigT := 0, eventT := 0, word := 0, missedAt := 0, dead := 0, flags := 0, ovf := none, end_ := 0, bytes := 0
    items := [], chunk := 0, acked := 0 }

/-- A mask unit beyond its registers (08). -/
structure MaskUnit where
  /-- Armed by a commit (R209). -/
  byCommit : Bool
  /-- The envelope of a host ARM whose points are being fetched. -/
  fetching : Option Nat
  deriving DecidableEq, Repr

/-- Trigger, capture and mask test (08): a loaded envelope is its partition and COUNT. -/
structure Trig where
  seqs : Tbl TrigSeq
  sets : Tbl CapSet
  masks : Tbl MaskUnit
  envs : Tbl (Nat × Nat)
  deriving DecidableEq, Repr

/-- A record of the Beam (09 R226, R231): the partition that owns it, its Beam content and
MUTMASK, and the two plane copies, each as a little-endian number. -/
structure BeamRec where
  owner : Option Nat
  beam : Nat
  mask : Nat
  active : Nat
  shadow : Nat
  /-- A host edit of this record is pending in the shadow (R234). -/
  edited : Bool
  deriving DecidableEq, Repr

/-- A logic element beyond its record and output (09 R219): the function value for the inputs
it last saw and the end of the timer that runs. -/
structure LogicElem where
  f : Bool
  deadline : Option Instant
  deriving DecidableEq, Repr

/-- A discrete output (09 R222): the commanded level and the level last at the pin or sent. -/
structure OutState where
  cmd : Bool
  level : Bool
  deriving DecidableEq, Repr

/-- A journal record (09 Table 9.17); `good` says that its CRC holds. -/
structure Journal where
  seq : Nat
  slot : Nat
  version : Nat
  flip : Instant
  digest : Digest
  good : Bool
  deriving DecidableEq, Repr

/-- Why a partition's records are to flip (09 R234, R239). -/
inductive FlipKind where
  /-- A draft application. -/
  | apply
  /-- Pending host edits. -/
  | edit
  /-- Back to the configuration before, after a failed journal write or a partition reset. -/
  | back
  deriving DecidableEq, Repr

/-- What a partition's draft application holds (09 R239). -/
structure Apply where
  target : Nat
  previous : Nat
  /-- The records written to the shadow, and how many words. -/
  keys : List Nat
  words : Nat
  began : Instant
  verifyFails : Nat
  journalFails : Nat
  /-- The flip that is due. -/
  flip : Option (Instant × FlipKind)
  /-- A partition reset came while the journal record was being written (R241). -/
  superseded : Bool
  /-- RESULT that the application ends with at a flip back. -/
  result : Nat
  /-- Times of the last 16 phases 1. -/
  times : List Nat
  deriving DecidableEq, Repr

/-- No application and no flip due. -/
def Apply.init : Apply := ⟨15, 15, [], 0, 0, 0, 0, none, false, 0, []⟩

/-- The Loom's configuration (09). -/
structure Loom where
  records : Tbl BeamRec
  /-- CONFIG frames of the Beam: FADDR, LEN and OWNER. -/
  frames : List (Nat × Nat × Option Nat)
  /-- BEAM_DIGEST. -/
  digest : Digest
  les : Tbl LogicElem
  outs : Tbl OutState
  /-- Draft slots, by 8p + s. -/
  drafts : Tbl DraftImg
  journals : Tbl (List Journal)
  applies : Tbl Apply
  deriving DecidableEq, Repr

/-- Where a task stands (10 Table 10.3). -/
inductive TaskPhase where
  | waiting
  | ready
  | running
  | parked
  /-- Completed, its completion entry waiting for a credit of its CQ. -/
  | ended
  deriving DecidableEq, Repr

/-- What a parked task waits for (10 R258). -/
inductive WaitFor where
  | slot (d : TaskDesc)
  | credit (h : Nat) (e : QEntry)
  | entry (h : Nat) (addr : Nat)
  deriving DecidableEq, Repr

/-- A task in its slot (10 R246, R250). -/
structure Task where
  partition : Nat
  desc : TaskDesc
  phase : TaskPhase
  /-- Dependences left, and the poison mark (R253). -/
  count : Nat
  poisoned : Bool
  readyAt : Instant
  /-- The ready instant of its first dispatch, which a retry keeps (R250). -/
  firstReady : Instant
  /-- READY as a resume or as a retry. -/
  resume : Bool
  retry : Bool
  faultedOn : Option Nat
  retries : Nat
  cancelLate : Bool
  /-- Cancelled, and keeping its place in its flow's FIFO (R261). -/
  cancelled : Bool
  /-- In flight since its first dispatch (R255). -/
  inflight : Bool
  shuttle : Option Nat
  /-- Start of the present run, and running time before it in sixteenths. -/
  runFrom : Instant
  ran : Nat
  wait : Option (WaitFor × Instant)
  /-- The blocking instruction's result, delivered in rd at the resume. -/
  result : Int
  /-- Dispatch flags a3 of its last start (R257), its park context: pc and x1 to x31 (R255), and an entry
  popped while parked for a buffer in the local data memory of whichever Shuttle resumes it. -/
  flags : Nat
  context : Option (Nat × List Nat)
  buffer : Option (Nat × List Byte)
  /-- Status, cause and code of its completion (phase `ended`). -/
  outcome : Nat × Nat × Nat
  /-- The cyclic task whose scan root it is (11 R274). -/
  root : Option Nat
  /-- The cyclic task whose scan it belongs to: the root and what is submitted from it. -/
  scan : Option Nat
  deriving DecidableEq, Repr

/-- A claimant for a slot of a partition's quota (10 R252). -/
inductive Claim where
  | qsub (slot : Nat)
  | spawn
  | root (k : Nat)
  | event (fifo : Nat)
  deriving DecidableEq, Repr

/-- Who waits for a credit of a queue (10 R258, R262). -/
inductive PushWait where
  | task (slot : Nat)
  | completion (slot : Nat)
  deriving DecidableEq, Repr

/-- A hardware queue beyond its registers (10 R262). -/
structure HwQueue where
  entries : List QEntry
  pushers : List PushWait
  poppers : List Nat
  deriving DecidableEq, Repr

/-- A queue right after reset. -/
def HwQueue.init : HwQueue := ⟨[], [], []⟩

/-- A memory-protection window (10 R244): its first and last 4 KiB page and its attributes. -/
structure Window where
  base : Nat
  last : Nat
  attr : Nat
  deriving DecidableEq, Repr

/-- A Shuttle beyond its registers (10): rd of its last queue instruction, its last hardware
faults, and its load window. -/
structure Shuttle where
  result : Int
  faults : List Instant
  /-- Dispatch flags a3 of the task it runs (R257). -/
  flags : Nat
  /-- In machine mode: the runtime, when no task runs (R242). -/
  machine : Bool
  /-- pc and x1 to x31 as the dispatch loaded them (R257), and the QTMO of the last instruction that
  used it (R269). -/
  pc : Nat
  x : List Nat
  qtmo : Nat
  /-- The windows set at the dispatch (R244, R257). -/
  windows : List Window
  /-- The 1 ms window being counted, the time in it running, and the instant counted to. -/
  window : Nat
  busy : Nat
  counted : Instant
  deriving DecidableEq, Repr

/-- A Shuttle right after reset. -/
def Shuttle.init : Shuttle := ⟨0, [], 0, true, 0, [], 0, [], 0, 0, 0⟩

/-- The task scheduler (10). -/
structure Sched where
  /-- Tasks by slot, and the generation of every slot that has been used. -/
  tasks : Tbl Task
  gens : Tbl Nat
  /-- Flow FIFOs, in order of ready instant (R253). -/
  flows : Tbl (List Nat)
  /-- The ready list, in order of admission (R256). -/
  ready : List Nat
  /-- Claimants with their partition, in the order in which they began to wait. -/
  claims : List (Nat × Claim)
  queues : Tbl HwQueue
  /-- Event FIFOs by route, and by 8,192 + input for queue signals: data words, oldest first;
  and the events that sources hold (09 R217). -/
  fifos : Tbl (List Nat)
  held : Tbl (List Nat)
  templates : Tbl TaskDesc
  shuttles : Tbl Shuttle
  /-- Waiting times per level of the last second: dispatch instant and ns. -/
  waits : Tbl (List (Instant × Nat))
  /-- Scan roots completed since they were last asked for: cyclic task and status. -/
  rootEnds : Tbl Nat
  deriving DecidableEq, Repr

/-- The answer of the last host command: its STATUS (0 EXECUTED; 1 STATE_MISMATCH; 2 WINDOW;
3 MALFORMED; 4 NOT_ACTIVE; 5 NO_SPACE), RESULT and returned data (18 R442, R443). -/
structure Answer where
  status : Nat
  result : Int
  data : List Byte
  deriving DecidableEq, Repr

/-- A scan between its latch and its release (11 R272): L, R, the STATION_OK bits of its input
image (bit 128r + s), and whether its image has closed. -/
structure Scan where
  at_ : Instant
  release : Instant
  ok : Nat
  closed : Bool
  deriving DecidableEq, Repr

/-- A cyclic task beyond its registers (11): the scan in flight, the flags of its next first
scan, the host input block, the released copies of its output image and retain section, and
close minus L of the last 256 scans, newest first. -/
structure CycTask where
  scan : Option Scan
  flags : Nat
  host : List Byte
  out : List Byte
  ret : List Byte
  closes : List Nat
  deriving DecidableEq, Repr

/-- A cyclic task right after reset. -/
def CycTask.init : CycTask := ⟨none, 0, [], [], [], []⟩

/-- A retain bank in MRAM (11 R285): its header, the released copies in task order, the layout
they have, and whether its CRC is good. -/
structure RetBank where
  seq : Nat
  at_ : Instant
  version : Nat
  data : List (List Byte)
  vars : List VarEntry
  tasks : List CyclicEntry
  good : Bool
  deriving DecidableEq, Repr

/-- A bank that was never written. -/
def RetBank.init : RetBank := ⟨0, 0, 0, [], [], [], false⟩

/-- A retain commit in progress (11 R285): what it writes, to which bank, and whether it is a
power-fail commit. -/
structure RetCommit where
  bank : Nat
  image : RetBank
  powerFail : Bool
  began : Instant
  deriving DecidableEq, Repr

/-- A partition's program (11). -/
structure CycPart where
  prog : Option Program
  /-- The next START's first scan carries EXCHANGED (R288). -/
  exchanged : Bool
  commit : Option RetCommit
  deriving DecidableEq, Repr

/-- A partition without a program. -/
def CycPart.init : CycPart := ⟨none, false, none⟩

/-- Cyclic programs (11): partitions, cyclic tasks by 8p + k, the MRAM retain banks by 2p + b,
the odometers as MRAM holds them with their instant and how often they were written (03 R77, 18
R447), and whether POWER_FAIL_N is low. -/
structure Cyclic where
  parts : Tbl CycPart
  tasks : Tbl CycTask
  banks : Tbl RetBank
  odo : Tbl (Tbl Nat)
  odoAt : Instant
  odoWrites : Nat
  powerLow : Bool
  deriving DecidableEq, Repr

/-- The configuration of a station that a discovery latched (12 R306). -/
structure StationCfg where
  vendor : Nat
  product : Nat
  outOff : Nat
  outLen : Nat
  inOff : Nat
  inLen : Nat
  deriving DecidableEq, Repr

/-- The configuration of a ring that a discovery latched (12 R306). -/
structure RingCfg where
  period : Nat
  phase : Nat
  rxLimit : Nat
  inLead : Nat
  applyNs : Nat
  holdMs : Nat
  authEn : Bool
  missLimit : Nat
  wefts : Nat
  stations : List StationCfg
  deriving DecidableEq, Repr

/-- A ring beyond its registers (12). -/
structure Ring where
  /-- Its byte spaces: outputs as released, inputs as last received (R294, R301). -/
  outs : Tbl Nat
  ins : Tbl Nat
  /-- The output bytes of the last frame sent (R298). -/
  sent : Tbl Nat
  cfg : RingCfg
  /-- Descriptors by position (R306). -/
  descs : List StationDesc
  /-- Ready lanes F and R; an insertion has failed since the conditions last began (R312). -/
  laneF : Bool
  laneR : Bool
  failed : Bool
  insertAt : Instant
  discAt : Instant
  /-- The cycle start whose frame is awaited; the copies that returned (R301, R310). -/
  cycleAt : Option Instant
  copyF : Option RxFrame
  copyR : Option RxFrame
  lastCycle : Option Instant
  lastGood : Instant
  /-- The copies of this cycle passed every station: the ring heals at the next cycle. -/
  healDue : Bool
  /-- The next cycle number, the greatest read, the reservation, whether its copies hold, and
  a raise being written (R315). -/
  nextCycle : Nat
  readMax : Nat
  reserve : Nat
  reserveOk : Bool
  raising : Option Nat
  /-- RING_KEY's KEYED withheld and AUTH_EN without effect (R315). -/
  authDead : Bool
  /-- The host's request: when GO was admitted and whether it was sent; the station being
  identified and since when (R308, R309). -/
  hostAt : Option Instant
  hostSent : Bool
  identAt : Option (Nat × Instant)
  /-- The station last asked to identify itself. -/
  identLast : Nat
  /-- The awaited cycle's reception has ended; a frame of it was lost; one came back on the port
  it left from; a copy passed every station forward, and in reverse (R301, R310, R311). -/
  got : Bool
  lost : Bool
  looped : Bool
  throughF : Bool
  throughR : Bool
  /-- START waits for its first cycle start; discovery's ENUM frame has returned, and the
  stamps of its forward DELAY pass (R304, R314). -/
  startDue : Bool
  enumDone : Bool
  fwdTimes : List Instant
  fwdTx : Instant
  fwdRx : Instant
  /-- LEASE of the last frame sent, and the cycle last sent as an ECHO (R316). -/
  lease : Nat
  echo : Option Nat
  deriving DecidableEq, Repr

/-- A ring right after reset. -/
def Ring.init : Ring :=
  { outs := .empty, ins := .empty, sent := .empty, cfg := ⟨1000000, 0, 20000, 10000, 25000, 500, false, 3, 0, []⟩, descs := []
    laneF := false, laneR := false, failed := false, insertAt := 0, discAt := 0, cycleAt := none, copyF := none, copyR := none
    lastCycle := none, lastGood := 0, healDue := false, nextCycle := 0, readMax := 0, reserve := 0, reserveOk := true
    raising := none, authDead := false, hostAt := none, hostSent := false, identAt := none, identLast := 0
    got := false, lost := false, looped := false, throughF := false, throughR := false, startDue := false, enumDone := false, fwdTimes := [], fwdTx := 0, fwdRx := 0, lease := 0, echo := none }

/-- A Weft connection beyond its registers (13 R338 to R340): the last SEQ accepted, or sent, if
any; the safety time of the last accepted frame; accepted frames in a row since the expiry; the
last data accepted or sent, and its SAFE bit; and whether the next frame is the first since the island started. -/
structure WeftConn where
  seq : Option Nat
  arrived : Instant
  run : Nat
  data : List Byte
  safe : Bool
  first : Bool
  deriving DecidableEq, Repr

/-- A connection right after the island starts. -/
def WeftConn.init : WeftConn := ⟨none, 0, 0, [], false, true⟩

/-- A term of the matrix (13 R320): whether its condition held at the last tick, and the tick at
which it rose. -/
structure TermState where
  cond : Bool
  since : Nat
  deriving DecidableEq, Repr

/-- The safety island and the safety die beyond their registers (13). -/
structure Island where
  /-- The last copy of a loop-fault or violation report (04 R100): cell, event bit and FAULT_CAUSE. -/
  report : Option (Nat × Nat × Nat)
  /-- The interlock program in flash, the matrix image in EEPROM, and the image the die has
  loaded with a good CRC. -/
  prog : Option SafProg
  eeprom : Option MatrixImg
  matrix : Option MatrixImg
  /-- The island runs its program; its firmware is verified. -/
  running : Bool
  /-- Disagreeing inputs with the safety time of the first channel's change; latched inputs with
  whether both channels have since been inactive together (R328, R329). -/
  apart : Tbl Instant
  latched : Tbl Bool
  /-- Channels A and B that have passed a test pulse, outputs that have passed a switch test, and
  consecutive passes of each output while de-energised (R326, R332). -/
  pulsedA : Nat
  pulsedB : Nat
  switched : Nat
  passes : Tbl Nat
  /-- Outputs whose low-side switch is tested next (R331). -/
  side : Nat
  /-- Ticks of the die since it started, and the terms. -/
  tick : Nat
  terms : Tbl TermState
  /-- The word the island sends, the result of the cycle in progress, and the phase it
  proposes (0 none, 1 TEST, 2 NORMAL). -/
  word : Nat
  result : Nat
  proposal : Nat
  /-- The die's last valid word: its permit, when, and since when words have been valid without
  a silence. -/
  live : Nat
  wordAt : Instant
  wordsFrom : Option Instant
  /-- The phase request input, and as latched at the last cycle start (R326). -/
  request : Nat
  latchedReq : Nat
  /-- Consecutive comparisons that agreed, and that differed. -/
  agreed : Nat
  differed : Nat
  /-- Safety time of the last phase change, and since when RECOVERY has had agreement. -/
  phaseAt : Instant
  agreeFrom : Instant
  conns : Tbl WeftConn
  deriving DecidableEq, Repr

/-- The safety function right after reset: nothing loaded. -/
def Island.init : Island :=
  { report := none, prog := none, eeprom := none, matrix := none, running := false, apart := .empty, latched := .empty, pulsedA := 0
    pulsedB := 0, switched := 0, passes := .empty, side := 0, tick := 0, terms := .empty, word := 0, result := 0, proposal := 0
    live := 0, wordAt := 0, wordsFrom := none, request := 0, latchedReq := 0, agreed := 0, differed := 0, phaseAt := 0
    agreeFrom := 0, conns := .empty }

/-- What a unit of a pair holds as its copy of a ring cycle (14 R350): segments and mailbox slots
of a frame or of merged copies, or the merged input bytes of an INPUTS frame. -/
inductive CopyOf where
  | frame (segs : List SegRx) (mailbox : List MbxSlot)
  | inputs (bytes : List Byte)
  deriving DecidableEq, Repr

/-- A ring in a Tandem pair (14). -/
structure PairRing where
  /-- The copy of a cycle, by CYCLE (R350). -/
  copy : Option (Nat × CopyOf)
  /-- HAVE sent and received: CYCLE and value. -/
  have_ : Option (Nat × Bool)
  theirs : Option (Nat × Bool)
  /-- The digest of the last cycle computed, and the last received: CYCLE and digest (R352). -/
  digest : Option (Nat × Nat)
  theirDigest : Option (Nat × Nat)
  /-- A frame has returned whole since the previous renewal instant; the witness has lapsed
  (R358). -/
  whole : Bool
  lapsed : Bool
  /-- The last good frame of the partner read on it, and when it reached LISTENING (R362, R365). -/
  heard : Option Instant
  listenAt : Option Instant
  /-- Matching cycles of a synchronisation (R354). -/
  matches_ : Nat
  deriving DecidableEq, Repr

/-- A ring of no pair. -/
def PairRing.init : PairRing := ⟨none, none, none, none, none, false, false, none, none, 0⟩

/-- A hand-over (14 R361): X, the new TERM, whether COMMIT binds the unit, and whether the holder
becomes OFFLINE (Table 14.4). -/
structure Handover where
  x : Instant
  term : Nat
  committed : Bool
  offline : Bool
  deriving DecidableEq, Repr

/-- A snapshot on its way (14 R354): S, the snapshot (on the joining unit once complete), the
number of its chunks, and the chunks received or acknowledged. -/
structure Syncing where
  at_ : Instant
  snap : Option Snapshot
  chunks : Nat
  done : List Nat
  deriving DecidableEq, Repr

/-- The Tandem block beyond its registers (14). -/
structure Tandem where
  rings : Tbl PairRing
  /-- Contrail (R347, R348): the next SEQ to send, the last received, the last frame sent of each
  TYPE (SEQ, T and payload), the last good frame, since when no loss condition has occurred, and
  whether the partner's last STATUS reported LINK_LOST. -/
  txSeq : Nat
  rxSeq : Option Nat
  sent : Tbl (Nat × Instant × List Byte)
  heardAt : Option Instant
  clearFrom : Instant
  partnerLost : Bool
  /-- The states of the partner's rings, from its STATUS. -/
  partnerRings : List Nat
  /-- WARP_SYNC has read 1 since the link last came up; a Warp step at join was asked for
  (R349). -/
  synced : Bool
  stepAsked : Bool
  /-- The hand-over that the holder proposed, and the one offered to the partner. -/
  handover : Option Handover
  offered : Option Handover
  /-- Since when a divergence is arbitrated, and both units' results (R353). -/
  arbAt : Instant
  ownCheck : Option Bool
  theirCheck : Option Bool
  /-- The snapshot on its way, when the next attempt is due, and whether the unit leaves OFFLINE
  once R365 allows it. -/
  sync : Option Syncing
  retryAt : Option Instant
  joins : Bool
  /-- Execution instants of covered commands admitted or forwarded, and the one now executing
  (R356). -/
  admitted : List Instant
  execAt : Option Instant
  deriving DecidableEq, Repr

/-- The Tandem block right after reset. -/
def Tandem.init : Tandem :=
  { rings := .empty, txSeq := 0, rxSeq := none, sent := .empty, heardAt := none, clearFrom := 0, partnerLost := false, partnerRings := []
    synced := false, stepAsked := false, handover := none, offered := none, arbAt := 0, ownCheck := none, theirCheck := none
    sync := none, retryAt := none, joins := true, admitted := [], execAt := none }

/-- Zenith and the update slots beyond their registers (15). -/
structure Security where
  /-- The OTP hashes and the public keys of the root-key block (R366, R367), and the slots whose
  entry did not match at the last start. -/
  rootHash : Tbl Digest
  rootKey : Tbl (List Byte)
  absent : List Nat
  /-- Enrolled recipe-author keys with their partition masks (R376). -/
  authors : Tbl (List Byte × Nat)
  /-- Floors whose copies both failed: class of Table 15.5 and partition (R373). -/
  lost : List (Nat × Nat)
  /-- Ring keys in force, and those that await a discovery (R381). -/
  ringKeys : Tbl (BitVec 256)
  ringPending : Tbl (BitVec 256)
  /-- The outstanding nonce and when it was given; the end of an open debug session (R382). -/
  nonce : Option (BitVec 256 × Instant)
  debugEnd : Instant
  /-- The bundles of slots A and B, the pending record with its slot, the application that runs,
  the slot named for trial, and the slot of the boot-select record (R386 to R392). -/
  slots : Tbl Bundle
  record : Option (Nat × Delta)
  running : Option Delta
  tryNext : Option Nat
  active : Nat
  /-- SHA-384 of the manifest booted (R392). -/
  manifest : Digest
  deriving DecidableEq, Repr

/-- Zenith right after reset. -/
def Security.init : Security :=
  { rootHash := .empty, rootKey := .empty, absent := [], authors := .empty, lost := [], ringKeys := .empty, ringPending := .empty
    nonce := none, debugEnd := 0, slots := .empty, record := none, running := none, tryNext := none, active := 0, manifest := 0 }

/-- The supply of the SRAM (16 Table 16.3): nominal with assist on, 0.50 V with assist off, or off. -/
inductive SramSupply where
  | nominal
  | retention
  | off
  deriving DecidableEq, Repr

/-- The power controller beyond its registers (16). -/
structure Power where
  /-- Body bias in mV, of PD_LOOM0 to 3 and PD_SHUT_A and B, and of retained logic; and the SRAM's
  supply (R398). -/
  bias : Int
  heldBias : Int
  sramSupply : SramSupply
  /-- Blocks of Table 16.4 that have granted in the handshake in progress, and the instant at
  which the block now asked was asked. -/
  granted : Nat
  askedAt : Instant
  /-- End of the backoff of a state, and of the time after a completed wake (R400). -/
  backoff : Tbl Instant
  holdEnd : Option Instant
  /-- The instant of the wake attempt in progress, its retries, and the instant of the next
  (R411). -/
  wakeAt : Instant
  retries : Nat
  retryAt : Option Instant
  /-- The last retry failed: a new external wake starts a new series. -/
  escalated : Bool
  /-- Quadrants being powered (R396). -/
  rising : List Nat
  /-- Since when the device is in its state, and the time spent in each state in sixteenths. -/
  since : Instant
  spent : Tbl Nat
  deriving DecidableEq, Repr

/-- The power controller right after reset. -/
def Power.init : Power := ⟨0, 0, .nominal, 0, 0, .empty, none, 0, 0, none, false, [], 0, .empty⟩

/-- The reset and boot controller (17). -/
structure BootCtl where
  /-- A device reset has begun and has not been released; the device has its supplies. -/
  held : Bool
  powered : Bool
  /-- When reset was released; the boot has come to step 9 and waits for Q (R421). -/
  releasedAt : Instant
  waiting : Bool
  /-- The checkpoint ring in MRAM by slot, and the slot that the next one takes (R420). -/
  ckpts : Tbl Checkpoint
  next : Nat
  /-- The checkpoint selected at step 5, and the partitions with an item that failed at step 7. -/
  selected : Option Checkpoint
  failed : List Nat
  /-- Ring stations whose RJ_STATE was restored and that have sent no valid segment since:
  partition, ring and station (R422). -/
  watched : List (Nat × Nat × Nat)
  /-- Partition resets in progress, with their instant, and the last durations (R416). -/
  partAt : Tbl Instant
  partNs : List Nat
  deriving DecidableEq, Repr

/-- Right after reset: reset is still to be released. -/
def BootCtl.init : BootCtl := ⟨true, true, 0, false, .empty, 0, none, [], [], .empty, []⟩
/-- An accepted host command that has not executed (18 Table 18.2): its entry, its SEQ, whether it
came over Ethernet, and the STATUS with which it completes unexecuted, 0 where it executes; a BAR0
command that waits behind others has its register in `off` and what it writes in `write`. -/
structure HostCmd where
  opcode : Nat
  tag : Nat
  kind : Nat
  expect : Nat
  arg0 : Nat
  arg1 : Nat
  off : Nat
  len : Nat
  seq : Nat
  eth : Bool
  status : Nat
  write : Option Nat
  deriving DecidableEq, Repr

/-- The item store in flash (18 R453): step tables, segment containers, envelopes by number with
their partition, and program images, and the interlock program that LOAD_SAFETY wrote.  Drafts
and the matrix image stand in `Loom` and `Island`. -/
structure Items where
  tables : Tbl StepTable
  segs : Tbl (List SegImage)
  envs : Tbl (Nat × Envelope)
  progs : Tbl Program
  safe : Option SafProg
  deriving DecidableEq, Repr

/-- The host paths beyond their registers (18): accepted commands by object 0 to 16, the next SEQ
of each, the last Ethernet reply, MSI-X messages sent by vector, the views latched by a read of
PV_STATE, and the item store. -/
structure HostPaths where
  cmds : Tbl (List HostCmd)
  seqs : Tbl Nat
  reply : List Byte
  msix : Tbl Nat
  views : List ((Requester × Nat) × List Nat)
  /-- Stamps of the last event message, by 2q + direction (R434). -/
  stamps : Tbl Instant
  items : Items
  deriving DecidableEq, Repr

/-- The host paths right after reset. -/
def HostPaths.init : HostPaths := ⟨.empty, .empty, [], .empty, [], .empty, ⟨.empty, .empty, .empty, .empty, none⟩⟩

/-- Why a command faults: no command of this block does. -/
inductive Fault where
  /-- Raised by nothing: the block has no fault that stops it (safe). -/
  | none
  deriving DecidableEq, Repr

/-- Why a command is refused. -/
inductive Refusal where
  /-- Raised by an arm of `exec` whose command has no meaning yet (safe). -/
  | notModelled (mnemonic : String)
  deriving DecidableEq, Repr

/-- The state of the PQ7410. -/
structure State where
  /-- The register file: field number, then instance, then value. -/
  regs : Tbl (Tbl Nat)
  /-- The 64-bit latches of reads: requester and register to the latched upper half (00 R15). -/
  latches : List ((Requester × Nat) × Nat)
  /-- The staged lower halves of writes (00 R15). -/
  staged : List ((Requester × Nat) × Nat)
  warp : Warp
  skein : Skein
  /-- Loop cells (03, 04). -/
  cells : Tbl LoopCell
  /-- FIO pins and AOUT codes (03 R73). -/
  fio : Tbl FioPin
  aout : Tbl Nat
  /-- Analog inputs, converters and their rotation (04). -/
  ain : Tbl Ain
  conv : Tbl Converter
  rot : Rotation
  /-- Treadles and profile generators (05). -/
  treadles : Tbl Treadle
  gens : Tbl Gen
  /-- Axis engines and armed axis groups (06). -/
  axes : Tbl Axis
  groups : Tbl AxGroup
  /-- Trigger sequencers, capture sets and mask units (08). -/
  trig : Trig
  /-- The Loom's configuration (09). -/
  loom : Loom
  /-- The task scheduler (10). -/
  sched : Sched
  /-- Cyclic programs (11). -/
  cyc : Cyclic
  /-- The safety island and the safety die (13). -/
  island : Island
  /-- The Tandem block (14). -/
  tandem : Tandem
  /-- Zenith and the update slots (15). -/
  sec : Security
  /-- The host paths (18). -/
  host : HostPaths
  /-- The reset and boot controller (17). -/
  boot : BootCtl
  /-- The answer of the last host command. -/
  answer : Answer
  /-- The power controller (16). -/
  power : Power
  /-- The field rings (12). -/
  rings : Tbl Ring
  /-- SRAM, DRAM, and the local data memories of the Shuttles, 32 KiB each (18, 10 R243). -/
  sram : Memory
  dram : Memory
  dlm : Memory
  /-- How many free values have been drawn (the model's own field; notes/assumptions/1.md). -/
  freeCtr : Nat
  /-- The commands that wait, first in first out (the model's own field). -/
  pending : List Instr
  deriving DecidableEq, Repr

/-- The register file right after reset: every field at the value of the register map, and
ANA_MAP showing CVg serving group g (04); the fused SERIAL, and the Maelantok roots that final
test programs (15 R366, Table 15.1). -/
def resetRegs : Tbl (Tbl Nat) :=
  ⟨[(F.ANA_MAP_G0.id, ⟨[(0, 0), (1, 6), (2, 12), (3, 18)]⟩), (F.ANA_MAP_G1.id, ⟨[(0, 1), (1, 7), (2, 13), (3, 19)]⟩),
    (F.ANA_MAP_G2.id, ⟨[(0, 2), (1, 8), (2, 14), (3, 20)]⟩), (F.ANA_MAP_G3.id, ⟨[(0, 3), (1, 9), (2, 15), (3, 21)]⟩),
    (F.ANA_MAP_G4.id, ⟨[(0, 4), (1, 10), (2, 16), (3, 22)]⟩), (F.ANA_MAP_G5.id, ⟨[(0, 5), (1, 11), (2, 17), (3, 23)]⟩),
    (F.SEC_STATUS_PROGRAMMED.id, ⟨[(0, 3)]⟩), (F.SEC_SERIAL.id, ⟨[(0, Config.serial.toNat)]⟩)]⟩

/-- The state right after reset. -/
def State.reset : State :=
  { regs := resetRegs, latches := [], staged := []
    warp := { now := 0, frac := 0, slewLeft := 0, removed := 0, coarseQuarter := 0, coarseStart := 0, relockFrom := none, slackLow := none, slackEdges := 0, slackUs := 1000, ppsEdge := none, syncEdge := none, ppsOut := false, syncOut := false, ppsCoarse := false, syncCoarse := false, ppsFall := 0, syncFall := 0, avsTries := 0, avsAt := 0, faultN := true }
    skein := { streams := .empty, taps := .empty, rateMs := 0, rateCount := 0, rateSecond := 0 }
    cells := .empty, fio := .empty, aout := .empty, ain := .empty, conv := .empty, rot := ⟨none, none, none, [], none, 0⟩
    treadles := .empty, gens := .empty, axes := .empty, groups := .empty
    trig := ⟨.empty, .empty, .empty, .empty⟩
    loom := { records := .empty, frames := [], digest := 0, les := .empty, outs := .empty, drafts := .empty, journals := .empty, applies := .empty }
    sched := { tasks := .empty, gens := .empty, flows := .empty, ready := [], claims := [], queues := .empty, fifos := .empty, held := .empty, templates := .empty, shuttles := .empty, waits := .empty, rootEnds := .empty }
    cyc := ⟨.empty, .empty, .empty, .empty, 0, 0, false⟩
    island := Island.init
    tandem := Tandem.init
    sec := Security.init
    host := HostPaths.init
    boot := BootCtl.init
    answer := ⟨0, 0, []⟩
    power := Power.init
    rings := .empty
    sram := ⟨[]⟩, dram := ⟨[]⟩, dlm := ⟨[]⟩
    freeCtr := 0, pending := [] }

end Sys2Proof.Machine
end

