-- ==== Sys2Proof/Machine/Ops.lean ====
section
/-! DEFINITION.  The named operations over the register file, numbers and instants, and the
movement of the Warp. -/

namespace Sys2Proof.Machine

/-! ### Numbers -/

/-- The integer that `w` bits of two's complement spell (00 R9). -/
def toSigned (w v : Nat) : Int := if v % 2 ^ w < 2 ^ (w - 1) then (v % 2 ^ w : Nat) else (v % 2 ^ w : Nat) - (2 ^ w : Nat)

/-- The `w` bits of two's complement of an integer. -/
def ofSigned (w : Nat) (x : Int) : Nat := (x % (2 ^ w : Nat)).toNat

/-- An integer held within limits. -/
def clampInt (lo hi x : Int) : Int := if x < lo then lo else if hi < x then hi else x

/-- A natural number held within limits. -/
def clampNat (lo hi x : Nat) : Nat := if x < lo then lo else if hi < x then hi else x

/-- Bit `k` of a number. -/
def bitOf (v k : Nat) : Bool := v.testBit k

/-- `v` with bit `k` set. -/
def withBit (v k : Nat) : Nat := v ||| 2 ^ k

/-- `v` with bit `k` as `b`. -/
def putBit (v k : Nat) (b : Bool) : Nat := if b then v ||| 2 ^ k else if v.testBit k then v - 2 ^ k else v

/-- A truth value as a bit. -/
def b2n (b : Bool) : Nat := if b then 1 else 0

/-- The low `n` bytes of a number, least significant first (00 R14). -/
def leBytes : Nat → Nat → List Byte
  | 0, _ => []
  | n + 1, v => BitVec.ofNat 8 v :: leBytes n (v / 256)

/-- The number that bytes spell, least significant first. -/
def ofLeBytes : List Byte → Nat
  | [] => 0
  | b :: r => b.toNat + 256 * ofLeBytes r

/-! ### Instants (00 R10, R12, R45) -/

/-- The nanosecond count of an instant. -/
def nsOf (t : Instant) : Nat := t.toNat / 16

/-- The instant of a nanosecond count. -/
def atNs (n : Nat) : Instant := BitVec.ofNat 64 (16 * n)

/-- `t` later by `n` nanoseconds. -/
def addNs (t : Instant) (n : Nat) : Instant := t + BitVec.ofNat 64 (16 * n)

/-- `t` moved by a signed number of nanoseconds. -/
def shiftNs (t : Instant) (n : Int) : Instant := t + BitVec.ofInt 64 (16 * n)

/-- `a` minus `b` in sixteenths, read as a signed number (R12). -/
def sinceS (a b : Instant) : Int := (a - b).toInt

/-- `a` minus `b` in whole nanoseconds, rounded down. -/
def sinceNs (a b : Instant) : Int := sinceS a b / 16

/-- `a` is earlier than `b` (R12). -/
def earlier (a b : Instant) : Bool := decide (sinceS a b < 0)

/-- `a` is not later than `b`. -/
def notLater (a b : Instant) : Bool := decide (sinceS a b ≤ 0)

/-- `t` lies on the grid PHASE + k × PERIOD of whole nanoseconds (R45). -/
def onGrid (period phase : Nat) (t : Instant) : Bool :=
  t.toNat % 16 == 0 && period != 0 && ((nsOf t : Int) - phase) % (period : Int) == 0

/-- The first instant of the grid strictly after `t` (R45); at the wrap the grid restarts
from nanosecond 0 (R46). -/
def nextGrid (period phase : Nat) (t : Instant) : Instant :=
  let n : Int := nsOf t
  let k := (n - phase) / (max period 1 : Nat) + 1
  let next := phase + k * (max period 1 : Nat)
  if next < (2 ^ 60 : Nat) then atNs next.toNat else atNs (phase % max period 1)

/-! ### The register file -/

/-- The value of field `f` of instance `i`. -/
def State.rd (s : State) (f : Fld) (i : Nat := 0) : Nat := (s.regs.get f.id .empty).get i f.reset

/-- The value of a field, read as two's complement. -/
def State.rdI (s : State) (f : Fld) (i : Nat := 0) : Int := toSigned f.width (s.rd f i)

/-- The register numbered `id`, instance `i`, set to `v`. -/
def State.putReg (s : State) (id i v : Nat) : State :=
  { s with regs := s.regs.set id ((s.regs.get id .empty).set i v) }

/-- Field `f` of instance `i` set to `v`, cut to the field's width. -/
def State.wr (s : State) (f : Fld) (v : Nat) (i : Nat := 0) : State := s.putReg f.id i (v % 2 ^ f.width)

/-- Field `f` of instance `i` set to an integer in two's complement. -/
def State.wrI (s : State) (f : Fld) (x : Int) (i : Nat := 0) : State := s.wr f (ofSigned f.width x) i

/-- An instant held in a 64-bit field. -/
def State.rdT (s : State) (f : Fld) (i : Nat := 0) : Instant := BitVec.ofNat 64 (s.rd f i)

/-- A 64-bit field set to an instant. -/
def State.wrT (s : State) (f : Fld) (t : Instant) (i : Nat := 0) : State := s.wr f t.toNat i

/-- Whether a field is not 0. -/
def State.on (s : State) (f : Fld) (i : Nat := 0) : Bool := s.rd f i != 0

/-- Bit `k` of a field set: an event, latched until cleared. -/
def State.setBit (s : State) (f : Fld) (k : Nat) (i : Nat := 0) : State := s.wr f (withBit (s.rd f i) k) i

/-- A counter advanced by `n`, stopping at its greatest value. -/
def State.bump (s : State) (f : Fld) (i : Nat := 0) (n : Nat := 1) : State :=
  s.wr f (min (s.rd f i + n) (2 ^ f.width - 1)) i

/-- A counter advanced by `n`, wrapping at its width. -/
def State.roll (s : State) (f : Fld) (i : Nat := 0) (n : Nat := 1) : State := s.wr f (s.rd f i + n) i

/-- The instances of a field that hold something other than never written. -/
def State.keysOf (s : State) (f : Fld) : List Nat := (s.regs.get f.id .empty).keys

/-- A free value (notes/assumptions/1.md): a value that nothing constrains, and the state in
which it has been drawn. -/
def State.draw (s : State) : BitVec 64 × State :=
  (Config.freeValue s.freeCtr, { s with freeCtr := s.freeCtr + 1 })

/-! ### Host writes (18 R427, R431) -/

/-- A host write to BAR0 offset `off` discarded for `reason` (18 R427, Table 18.7): 1 RO field,
2 partial write, 3 RWL outside STOP, 4 window or address check, 5 reserved offset, 6 BOOTING. -/
def State.discard (s : State) (reason off : Nat) : State :=
  ((s.wr F.SYS_DISCARD_REASON reason).wr F.SYS_DISCARD_OFFSET off).bump F.SYS_DISCARD_CNT

/-- A host write at `off` discarded by a rule to which Table 18.7 gives no REASON: it is reported
and counted as every discarded write (18 R427), with a REASON that is a free value. -/
def State.discardOther (s : State) (off : Nat) : State := s.draw.2.discard s.draw.1.toNat off

/-- Whether BAR0 offset `off` lies in a block that takes writes while the device boots: SYS,
SEC, PWR or HOST (18 R431). -/
def bootOpen (off : Nat) : Bool :=
  off / 2 ^ 20 == 0 || off / 2 ^ 20 == 0x0D || off / 2 ^ 20 == 0x0E || off / 2 ^ 20 == 0x0F

/-- A host write at BAR0 offset `off` of a register that no partition owns, other than a command:
`f`, unless the device is booting (18 R431). -/
def State.deviceWrite (s : State) (off : Nat) (f : State → State) : State :=
  if s.on F.HOST_STATUS_BOOTING && !bootOpen off then s.discard 6 off else f s

/-! ### The Warp (02 R34, R35, R37) -/

/-- The greatest effective rate (R34). -/
def rateLimit : Int := 549755813

/-- The standing rate and the slew's share of the effective rate, the sum within the clamp
of R34. -/
def State.slewRate (s : State) : Int :=
  let ppm := s.rd F.SLEW_CFG
  let ppm := if ppm = 0 ∨ 500 < ppm then 500 else ppm
  let mag : Int := (2 * ppm * 2 ^ 40 + 1000000) / 2000000
  if s.warp.slewLeft = 0 then 0 else if s.warp.slewLeft < 0 then -mag else mag

/-- RATE_ADJ plus the slew in progress, before the clamp. -/
def State.rateSum (s : State) : Int := s.rdI F.RATE_ADJ + s.slewRate

/-- The effective rate (R34). -/
def State.rate (s : State) : Int := clampInt (-rateLimit) rateLimit s.rateSum

/-- The part of the effective rate that absorbs the slew (R37): what the clamp leaves of it. -/
def State.slewShare (s : State) : Int :=
  s.rate - clampInt (-rateLimit) rateLimit (s.rdI F.RATE_ADJ)

/-- What is left of a slew, in whole nanoseconds rounded away from zero (R37). -/
def slewNs (left : Int) : Int :=
  let unit : Int := 16 * 2 ^ 40
  if left < 0 then -((-left + unit - 1) / unit) else (left + unit - 1) / unit

/-- The slew's remainder stored, with the fields that show it. -/
def State.putSlew (s : State) (left : Int) : State :=
  let s := { s with warp := { s.warp with slewLeft := left } }
  let s := s.wrI F.SLEW_NS (slewNs left)
  let s := s.wr F.WARP_STATUS_SLEW_ACTIVE (b2n (left != 0))
  s.wr F.WARP_STATUS_RATE_CLAMPED (b2n (s.rateSum != s.rate))

/-- `left` less what `edges` Warp clock edges absorb of it, never past zero. -/
def absorb (left share : Int) (edges : Nat) : Int :=
  let used := 16 * share * edges
  if left < 0 then min 0 (left - used) else max 0 (left - used)

/-- A slew's remainder after some of it was absorbed; the offset absorbed counts in what the
compensated instant leaves out (11 R281). -/
def State.absorbTo (s : State) (left : Int) : State :=
  { s with warp := { s.warp with removed := s.warp.removed + (s.warp.slewLeft - left) } }.putSlew left

/-- The compensated instant of now (11 R281): Warp time less the offsets absorbed by slews and
less the steps. -/
def State.compensated (s : State) : Instant := s.warp.now - BitVec.ofInt 64 (s.warp.removed / 2 ^ 40)

/-- One edge of the crystal that carries the coarse count (02, Coarse Warp): 488,281.25
sixteenths, the quarter in a hidden fraction. -/
def State.coarseEdge (s : State) : State :=
  let q := s.warp.coarseQuarter + 1
  { s with warp := { s.warp with now := s.warp.now + BitVec.ofNat 64 (488281 + q / 4), coarseQuarter := q % 4 } }

/-- The slack window in progress grown by `n` units of 2^-40 Warp clock edges (R54). -/
def State.windowGrows (s : State) (n : Nat) : State :=
  { s with warp := { s.warp with slackEdges := s.warp.slackEdges + n } }

/-- One edge of the fine Warp clock (02, Counter and references): the count gains 16 sixteenths
corrected by the effective rate. -/
def State.fineEdge (s : State) : State :=
  let gain : Int := 16 * 2 ^ 40 + 16 * s.rate + s.warp.frac
  let left := absorb s.warp.slewLeft s.slewShare 1
  let now := s.warp.now + BitVec.ofInt 64 (gain / 2 ^ 40)
  let s := { s with warp := { s.warp with now := now, frac := (gain % 2 ^ 40).toNat } }
  let s := s.windowGrows (2 ^ 40)
  if s.warp.slewLeft = (0 : Int) then s else s.absorbTo left

/-- One edge of the clock that the Warp counts: the crystal in DEEP_SLEEP, else the Warp clock. -/
def State.warpEdge (s : State) : State := if s.on F.WARP_STATUS_COARSE then s.coarseEdge else s.fineEdge

/-- The Warp moved to `t` when `t` is later than now (notes/assumptions/2.md).  It never goes
back (R35).  A slew in progress absorbs what the Warp clock edges of the interval give, none while the Warp
is coarse. -/
def State.advance (s : State) (t : Instant) : State :=
  if earlier s.warp.now t then
    let d := sinceS t s.warp.now
    let edges := (d * 2 ^ 40 / (16 * (2 ^ 40 + s.rate))).toNat
    let left := absorb s.warp.slewLeft s.slewShare edges
    let s' := { s with warp := { s.warp with now := t } }
    if s.on F.WARP_STATUS_COARSE then s'
    else
      let s' := s'.windowGrows (d * 2 ^ 80 / (16 * (2 ^ 40 + s.rate))).toNat
      if s.warp.slewLeft = 0 then s' else s'.absorbTo left
  else s

/-- Interrupt source `n` of 18 R430: its MSI-X vector is raised where INT_MAP enables it; a masked
vector's pending bit is set (assumption 84). -/
def State.interrupt (s : State) (n : Nat) : State :=
  if s.on F.INT_MAP_EN n then
    let v := s.rd F.INT_MAP_VECTOR n
    let s := { s with host := { s.host with msix := s.host.msix.modify v 0 (· + 1) } }
    if s.on F.MSIX_MASK v then s.wr F.MSIX_PBA (putBit (s.rd F.MSIX_PBA (v / 32)) (v % 32) true) (v / 32) else s
  else s

/-- The Warp instant now. -/
def State.now (s : State) : Instant := s.warp.now

/-- `f` where `c` holds, the state as it is otherwise. -/
def State.when (s : State) (c : Bool) (f : State → State) : State := if c then f s else s

/-- `f` applied for each number of a list, first to last. -/
def State.each (s : State) (l : List Nat) (f : State → Nat → State) : State := l.foldl f s

end Sys2Proof.Machine
end

