-- ==== Sys2Proof/Machine/AxisGroups.lean ====
section
/-! DEFINITION.  Axis engines and armed groups as parts of the state (06 R152). -/

namespace Sys2Proof.Machine

/-- Axis `n`. -/
def State.axis (s : State) (n : Nat) : Axis := s.axes.get n Axis.init
/-- Axis `n` set. -/
def State.putAxis (s : State) (n : Nat) (x : Axis) : State := { s with axes := s.axes.set n x }
/-- Axis `n` changed by `f`. -/
def State.onAxis (s : State) (n : Nat) (f : Axis → Axis) : State := s.putAxis n (f (s.axis n))

/-- The armed group `g`, if it is. -/
def State.group (s : State) (g : Nat) : Option AxGroup := s.groups.find g

/-- A qualified SYNC_IN edge stamped `t` (R152): the start instant of every armed group of
KIND 1 whose ARM came before the edge. -/
def State.syncGroups (s : State) (t : Instant) : State :=
  { s with groups := ⟨s.groups.entries.map (fun e =>
      if e.2.sync && e.2.at_.isNone && e.2.ignore != some t then (e.1, { e.2 with at_ := some t }) else e)⟩ }

end Sys2Proof.Machine
end

