-- ==== Sys2Proof/Machine/Flags.lean ====
section
/-! DEFINITION.  The arithmetic primitives of the datapaths: rounding, saturation and their
flags (03 R60, R61). -/

namespace Sys2Proof.Machine

/-- sat32 (R61). -/
def sat32 (x : Int) : Int := clampInt (-(2 ^ 31)) (2 ^ 31 - 1) x

/-- Saturation to 48 bits (R64). -/
def sat48 (x : Int) : Int := clampInt (-(2 ^ 47)) (2 ^ 47 - 1) x

/-- Saturation to 16 bits (R73). -/
def sat16 (x : Int) : Int := clampInt (-(2 ^ 15)) (2 ^ 15 - 1) x

/-- rshr: a right shift that rounds half away from zero (R61). -/
def rshr (p : Int) (s : Nat) : Int :=
  if s = 0 then p
  else
    let m : Int := (p.natAbs + 2 ^ (s - 1)) / 2 ^ s
    if p < 0 then -m else m

/-- mulsh: the product of a coefficient, shifted right and saturated (R61). -/
def mulsh (k x : Int) (s : Nat) : Int := sat32 (rshr (k * x) s)

/-- Whether the sat32 inside mulsh changes the value (R62). -/
def mulshSat (k x : Int) (s : Nat) : Bool := decide (sat32 (rshr (k * x) s) ≠ rshr (k * x) s)

/-- rdiv: a quotient rounded half away from zero; the divisor is positive (05 R142). -/
def rdiv (p : Int) (n : Nat) : Int :=
  let m : Int := (2 * p.natAbs + n) / (2 * n)
  if p < 0 then -m else m

/-- The number of bits set among the low `n`. -/
def popcount (v : Nat) : Nat → Nat
  | 0 => 0
  | n + 1 => popcount v n + b2n (v.testBit n)

end Sys2Proof.Machine
end

