-- ==== Sys2Proof/Machine/SkeinOps.lean ====
section
/-! DEFINITION.  The record of the Skein (07): records, blocks, the chain and the regions. -/

namespace Sys2Proof.Machine

/-- Stream `k`. -/
def State.stream (s : State) (k : Nat) : Stream := s.skein.streams.get k Stream.init

/-- Stream `k` set. -/
def State.putStream (s : State) (k : Nat) (x : Stream) : State :=
  { s with skein := { s.skein with streams := s.skein.streams.set k x } }

/-- The system stream (R169). -/
def sysStream : Nat := 16

/-- The bytes of a record: its 4-byte header and its body (R175). -/
def recBytes (r : SkRec) : List Byte :=
  leBytes 1 r.kind ++ leBytes 1 r.flags ++ leBytes 2 r.body.length ++ r.body

/-- The length of a record in bytes. -/
def recLen (r : SkRec) : Nat := 4 + r.body.length

/-- The greatest payload of a block (R179). -/
def payloadMax : Nat := 3964

/-! ### The coder (R178) -/

/-- zz of a 32-bit difference. -/
def zz (x : Nat) : Nat := if x % 2 ^ 32 < 2 ^ 31 then 2 * (x % 2 ^ 32) else 2 * (2 ^ 32 - x % 2 ^ 32) - 1

/-- The least k with n × 2^k ≥ a, at most 31; `fuel` bounds the search. -/
def riceK (a n : Nat) : Nat → Nat → Nat
  | 0, k => k
  | fuel + 1, k => if n * 2 ^ k < a then riceK a n fuel (k + 1) else k

/-- The low `k` bits of `m`, most significant first. -/
def bitsOf : Nat → Nat → List Bool
  | 0, _ => []
  | k + 1, m => m.testBit k :: bitsOf k m

/-- The bits that put(m, st) emits and the coder after it. -/
def riceBits (c : Coder) (m : Nat) : List Bool × Coder :=
  let k := riceK c.a c.n 31 0
  let q := m / 2 ^ k
  let out := if q < 24 then List.replicate q true ++ [false] ++ bitsOf k m
    else List.replicate 24 true ++ bitsOf 32 m
  let a := c.a + m
  let n := c.n + 1
  (out, if n = 64 then { c with a := a / 2, n := n / 2 } else { c with a := a, n := n })

/-- One symbol: the second difference of `x` after `prev`. -/
def codeOne (c : Coder) (prev x : Nat) : List Bool × Coder :=
  let d := (x + 2 ^ 32 - prev % 2 ^ 32) % 2 ^ 32
  let r := riceBits c (zz ((d + 2 ^ 32 - c.dprev) % 2 ^ 32))
  (r.1, { r.2 with dprev := d })

/-- A coder at the start of a run. -/
def Coder.init : Coder := ⟨16, 1, 0⟩

/-- Bits packed into bytes, most significant first, padded with 0; `fuel` bounds the length. -/
def packBits : Nat → List Bool → List Byte
  | 0, _ => []
  | _ + 1, [] => []
  | fuel + 1, b :: r =>
    let eight := (b :: r).take 8 ++ List.replicate (8 - ((b :: r).take 8).length) false
    BitVec.ofNat 8 (eight.foldl (fun n x => 2 * n + b2n x) 0) :: packBits fuel ((b :: r).drop 8)

/-- The SAMPLES record of a run (R177). -/
def runRec (r : Run) : SkRec :=
  { kind := 1, flags := r.flags
    body := leBytes 2 r.tap ++ leBytes 1 (b2n r.timed) ++ [0] ++ leBytes 2 r.count ++ [0, 0] ++
      leBytes 8 r.t0.toNat ++ leBytes 4 r.step ++ leBytes 4 r.v0.toNat ++ packBits (r.bits.length + 1) r.bits
    first := r.t0, last := r.lastT, samples := [(r.tap, r.count)] }

/-- The bytes a run takes as a record. -/
def runLen (r : Run) : Nat := 28 + (r.bits.length + 7) / 8

/-! ### Blocks (R179, R180) -/

/-- The bytes an open block's records and runs take. -/
def Stream.used (x : Stream) : Nat :=
  (x.recs.map recLen).sum + (x.runs.map runLen).sum

/-- The earlier and the later of two instants. -/
def minT (a b : Instant) : Instant := if earlier b a then b else a
/-- The later of two instants. -/
def maxT (a b : Instant) : Instant := if earlier a b then b else a

/-- FLAGS of a block (R179): DEBUG, COARSE, LOSS and CKPT from its records. -/
def blockFlags (rs : List SkRec) : Nat :=
  b2n (rs.any (fun r => bitOf r.flags 1)) + 2 * b2n (rs.any (fun r => bitOf r.flags 2)) +
  4 * b2n (rs.any (fun r => r.kind == 3 || r.kind == 4 || r.kind == 0x0A || r.kind == 0x0C)) +
  8 * b2n (rs.any (fun r => r.kind == 8))

/-- The bytes 0x000 to 0x07F of a block. -/
def blockHeader (k : Nat) (b : SkBlock) : List Byte :=
  leBytes 4 0x4E494B53 ++ leBytes 2 1 ++ leBytes 1 k ++ leBytes 1 b.flags ++ leBytes 8 b.seq ++
  leBytes 8 b.first.toNat ++ leBytes 8 b.last.toNat ++ leBytes 48 b.prevHash.toNat ++
  leBytes 2 ((b.records.map recLen).sum) ++ leBytes 2 b.records.length ++ leBytes 4 b.epoch ++
  List.replicate 40 0

/-- The 4,096 bytes of a block of stream `k` (Table 7.4). -/
def blockBytes (k : Nat) (b : SkBlock) : List Byte :=
  let pay := (b.records.map recBytes).flatten
  let body := blockHeader k b ++ pay ++ List.replicate (payloadMax - pay.length) 0
  body ++ leBytes 4 (Config.crc32c body).toNat

/-- The samples per tap of a block's records. -/
def tapCounts (rs : List SkRec) : List (Nat × Nat) :=
  let all := (rs.map (·.samples)).flatten
  let taps := (all.map (·.1)).eraseDups
  taps.map (fun t => (t, ((all.filter (fun e => e.1 == t)).map (·.2)).sum))

/-- Free bytes of the burst buffer shared by all streams: what the quotas leave (R183). -/
def State.burstUsed (s : State) : Nat :=
  (s.skein.streams.entries.map (fun e => e.2.used + 4096 * e.2.burst.length)).sum

/-- SK_STATUS.BURST_FREE_KIB as the buffer stands. -/
def State.showBurst (s : State) : State :=
  s.wr F.SK_STATUS_BURST_FREE_KIB (16384 - min 16384 ((s.burstUsed + 1023) / 1024))

/-- The blocks of a stream's region that have not been consumed. -/
def Stream.resident (x : Stream) : Nat := (x.region.filter (fun e => e.phase != .consumed)).length

/-- The first slot that is not consumed and whose export has not begun, removed from a region
(R185). -/
def dropOldest : List SkSlot → Option (SkBlock × List SkSlot)
  | [] => none
  | e :: r =>
    match e.phase with
    | .visible => some (e.block, r)
    | .written => some (e.block, r)
    | .writing => none
    | .exporting => none
    | .consumed => (dropOldest r).map (fun p => (p.1, e :: p.2))

/-- The oldest sealed block of the burst buffer moved into the DRAM region where the region
has room, or, under OVERWRITE_OLDEST, over the oldest block not consumed (R185). -/
def State.placeBlock (s : State) (k : Nat) : State :=
  let x := s.stream k
  match x.burst with
  | [] => s
  | b :: rest =>
    let size := s.rd F.SKS_REGION_SIZE k
    if x.resident < size then
      let keep := x.region.filter (fun e => e.phase != .consumed)
      let used := x.region.filter (fun e => e.phase == .consumed)
      let s := s.putStream k { x with burst := rest, region := used.drop (keep.length + used.length + 1 - size) ++ keep ++ [⟨b, .writing, 0⟩] }
      s.wr F.SKS_STATUS_RESIDENT ((s.stream k).resident) k
    else if s.rd F.SKS_CTRL_POLICY k = 1 then
      match dropOldest x.region with
      | none => s
      | some (o, left) =>
        let ov := match x.overwritten with
          | none => (o.seq, o.seq, o.first, o.last)
          | some (f, _, a, z) => (f, o.seq, minT a o.first, maxT z o.last)
        let s := s.putStream k { x with burst := rest, region := left ++ [⟨b, .writing, 0⟩], overwritten := some ov }
        (s.bump F.SKS_OVERWRITE k).setBit F.SK_EVENT 1
    else s

/-- `placeBlock` until the burst buffer is empty or the region takes no more; `n` bounds the
blocks moved. -/
def State.placeAll (s : State) (k : Nat) : Nat → State
  | 0 => s
  | n + 1 => (s.placeBlock k).placeAll k n

/-- The OVERWRITE record of the blocks overwritten (R185). -/
def overwriteRec (o : Nat × Nat × Instant × Instant) (flags : Nat) : SkRec :=
  { kind := 4, flags := flags, body := leBytes 8 o.1 ++ leBytes 8 o.2.1 ++ leBytes 8 o.2.2.1.toNat ++ leBytes 8 o.2.2.2.toNat
    first := o.2.2.1, last := o.2.2.2, samples := [] }

/-- The flags every record takes from the machine: DEBUG while debug is open (R190), COARSE
while the coarse Warp counts (R49). -/
def State.recFlags (s : State) : Nat :=
  2 * b2n (s.on F.SEC_STATUS_DEBUG_LEVEL) + 4 * s.rd F.WARP_STATUS_COARSE

/-- An EVENT record: SOURCE KIND, SOURCE ID, CODE as bit, register selector and result, and
the detail. -/
def eventRec (t : Instant) (kind id bit sel res : Nat) (detail : List Byte) : SkRec :=
  { kind := 9, flags := 0
    body := leBytes 1 kind ++ [0] ++ leBytes 2 id ++ leBytes 4 (bit + 256 * sel + 65536 * res) ++ leBytes 8 t.toNat ++ detail
    first := t, last := t, samples := [] }

/-- The open block of stream `k` sealed (R180): its runs become records, the header is
filled, and SEQ and the digest go to the stream's slot in MRAM.  An empty block is not
sealed.  What it overwrites is recorded in the next block, with its SK_EVENT (R185, R477). -/
def State.seal (s : State) (k : Nat) : State :=
  let x := s.stream k
  let recs := x.recs ++ x.runs.map runRec
  match recs with
  | [] => s
  | r0 :: _ =>
    let b0 : SkBlock :=
      { seq := s.rd F.SKS_SEQ k, flags := blockFlags recs
        first := recs.foldl (fun t r => minT t r.first) r0.first
        last := recs.foldl (fun t r => maxT t r.last) r0.last
        prevHash := x.headHash, records := recs, epoch := s.rd F.SK_EPOCH, digest := 0 }
    let b := { b0 with digest := Config.sha384 (blockBytes k b0) }
    let s := s.putStream k { x with openAt := none, recs := [], runs := [], headHash := b.digest, everSealed := true, burst := x.burst ++ [b] }
    let s := s.roll F.SKS_SEQ k
    let s := s.placeBlock k
    let x := s.stream k
    let s := match x.overwritten with
      | none => s
      | some o => s.putStream k { x with overwritten := none, openAt := some s.now, recs := [overwriteRec o s.recFlags, { eventRec s.now 15 k 1 0 0 [] with flags := s.recFlags }] }
    s.showBurst

/-- A record put into the open block of stream `k` (R175, R180): a block that it does not fit is sealed
first; one that does not fit the block then open either is cut into parts, of which every one but the last
carries CONT; `fuel` bounds the parts. -/
def State.putRec (s : State) (k : Nat) (r : SkRec) : Nat → State
  | 0 => s
  | fuel + 1 =>
    let used := (s.stream k).used
    let s := if payloadMax < used + recLen r ∧ used ≠ 0 then s.seal k else s
    let x := s.stream k
    let room := payloadMax - x.used
    let put := fun (s : State) (r : SkRec) => s.putStream k { x with recs := x.recs ++ [r], openAt := some (x.openAt.getD s.now) }
    if recLen r ≤ room then put s r
    else
      (put s { r with flags := withBit r.flags 0, body := r.body.take (room - 4) }).putRec k { r with body := r.body.drop (room - 4), samples := [] } fuel

/-- A record other than a sample, which is never discarded (R184), appended to stream `k`; until recording
resumes after a start it waits behind the RESTART record (R189). -/
def State.record (s : State) (k : Nat) (r : SkRec) : State :=
  let r := { r with flags := r.flags ||| s.recFlags }
  if s.on F.HOST_STATUS_BOOTING then s.putStream k { s.stream k with early := (s.stream k).early ++ [r] } else s.putRec k r 128

/-- The runs of tap `tap` in stream `k` ended: they become records (R177). -/
def State.endRun (s : State) (k tap : Nat) : State :=
  let x := s.stream k
  s.putStream k { x with runs := x.runs.filter (fun r => r.tap != tap), recs := x.recs ++ (x.runs.filter (fun r => r.tap == tap)).map runRec }

/-! ### EVENT records (R477) -/

/-- An EVENT record of the instant now in stream `k`. -/
def State.event (s : State) (k kind id bit : Nat) (sel : Nat := 0) (res : Nat := 0) (detail : List Byte := []) : State :=
  s.record k (eventRec s.now kind id bit sel res detail)

/-- The stream that a resource's records go to: its partition's, or the system stream when
it has none (R169). -/
def streamOf (owner : Option Nat) : Nat := owner.getD sysStream

/-- A Warp event set and recorded in the system stream (02, WARP registers). -/
def State.warpEvent (s : State) (f : Fld) (bit : Nat) (res : Nat := 0) (detail : List Byte := []) : State :=
  (s.wr f 1).event sysStream 9 0 bit 0 res detail

/-- A Skein event of stream `k` set and recorded (R477). -/
def State.skEvent (s : State) (k bit : Nat) : State := (s.setBit F.SK_EVENT bit).event k 15 k bit

end Sys2Proof.Machine
end

