-- ==== Sys2Proof/Machine/TandemLink.lean ====
section
/-! DEFINITION.  The Contrail link and the Halo lease: frames sent, events, the instants of the
lease, and a hand-over proposed (14 R347 to R361). -/

namespace Sys2Proof.Machine

open Sys2Proof

/-- The Tandem block changed by `f`. -/
def State.onTandem (s : State) (f : Tandem → Tandem) : State := { s with tandem := f s.tandem }

/-- ROLE: 0 ACTIVE, 1 STANDBY, 2 SYNC_LOST, 3 REPAIRED, 4 OFFLINE (Table 14.8). -/
def State.role (s : State) : Nat := s.rd F.TD_STATUS_ROLE

/-- The unit is in a Tandem pair (R344). -/
def State.inPair (s : State) : Bool := s.on F.TD_CFG_EN

/-- The unit of a pair holds the Halo token. -/
def State.holds (s : State) : Bool := s.inPair && s.role == 0

/-- Partition `p` is covered (R344). -/
def State.covered (s : State) (p : Nat) : Bool := s.inPair && bitOf (s.rd F.TD_PARTS) p

/-! ### Events -/

/-- A bit of TD_EVENT set, with its interrupt (18 R430). -/
def State.tdEvent (s : State) (bit : Nat) : State := (s.setBit F.TD_EVENT bit).interrupt 198

/-- An EVENT record of the Tandem block (07 Table 7.9). -/
def State.tdRecord (s : State) (bit : Nat) (res : Nat := 0) : State :=
  s.event sysStream 14 0 bit 0 res (leBytes 2 (s.rd F.TD_STATUS_TERM) ++ [0, 0] ++ leBytes 1 s.role ++ [0, 0, 0])

/-- A bit of TD_EVENT set and recorded. -/
def State.tdNote (s : State) (bit : Nat) (res : Nat := 0) : State := (s.tdEvent bit).tdRecord bit res

/-! ### Frames (R347) -/

/-- A Contrail frame sent: the last of each TYPE is kept with its SEQ and T. -/
def State.sendFrame (s : State) (type : Nat) (payload : List Byte) : State :=
  s.onTandem (fun x => { x with txSeq := (x.txSeq + 1) % 2 ^ 32, sent := x.sent.set type (x.txSeq, s.now, payload) })

/-- The payload of RENEW, HANDOVER and their kin (Table 14.3). -/
def termPayload (term : Nat) (at_ : Instant) : List Byte := leBytes 2 term ++ List.replicate 6 0 ++ leBytes 8 at_.toNat

/-! ### The lease (R357, R359) -/

/-- L in nanoseconds. -/
def State.leaseNs (s : State) : Nat := 1000 * s.rd F.TD_LEASE_LEASE_US
/-- G in nanoseconds. -/
def State.guardNs (s : State) : Nat := 1000 * s.rd F.TD_LEASE_GUARD_US

/-- The expiry: E, or E_p where the unit does not hold the token. -/
def State.expiry (s : State) : Instant := s.rdT F.TD_EXPIRY

/-- The drift term d(t) (R359). -/
def State.drift (s : State) (at_ : Instant) : Nat :=
  if s.on F.TD_STATUS_WARP_SYNC then 0 else (((sinceNs at_ (s.rdT F.TD_LOST_T)).toNat * 50 + 999999) / 1000000)

/-- The holder sends no cyclic frame at any cycle start at or after this instant. -/
def State.stopInstant (s : State) : Instant := shiftNs s.expiry (-((s.guardNs + s.drift s.expiry : Nat) : Int))

/-- The partner may act at the first cycle start at or after this instant. -/
def State.actInstant (s : State) : Instant := addNs s.expiry (s.guardNs + s.drift s.expiry)

/-- TD_GUARD_EFF made G + d(E). -/
def State.showGuard (s : State) : State := s.wr F.TD_GUARD_EFF (s.guardNs + s.drift s.expiry)

/-- The expiry set. -/
def State.putExpiry (s : State) (e : Instant) : State := (s.wrT F.TD_EXPIRY e).showGuard

/-- The lease stamp of a header (R357): bits [63:4] the nanosecond count of E, [3:1] TERM mod 8,
[0] the holder's UNIT. -/
def State.leaseStamp (s : State) : Nat :=
  16 * nsOf s.expiry + 2 * (s.rd F.TD_STATUS_TERM % 8) + s.rd F.TD_CFG_UNIT

/-- Whether the holder may send a cyclic frame now (R357, R359, R361). -/
def State.mayDrive (s : State) : Bool :=
  !s.inPair || (s.role == 0 && earlier s.now s.stopInstant &&
    s.tandem.handover.all (fun h => !h.committed || earlier s.now h.x))

/-! ### A hand-over proposed (R361) -/

/-- HANDOVER sent, with TERM + 1 and X. -/
def State.startHandover (s : State) (x : Instant) (offline : Bool) : State :=
  let term := (s.rd F.TD_STATUS_TERM + 1) % 2 ^ 16
  (s.onTandem (fun y => { y with handover := some ⟨x, term, false, offline⟩ })).sendFrame 8 (termPayload term x)

/-- A device fault of the holder hands the token over while the partner is STANDBY (R361). -/
def State.faultHandover (s : State) : State :=
  if s.holds && s.rd F.TD_STATUS_PARTNER_ROLE == 1 && s.tandem.handover.isNone then s.startHandover (addNs s.now 100000) false else s

/-! ### The rings of the pair -/

/-- Ring `r` in the pair. -/
def State.pairRing (s : State) (r : Nat) : PairRing := s.tandem.rings.get r PairRing.init
/-- Ring `r` in the pair set. -/
def State.putPair (s : State) (r : Nat) (x : PairRing) : State := s.onTandem (fun y => { y with rings := y.rings.set r x })

/-- The witness of ring `r` lapses until the link is up again: at its entry to BROKEN and at a
Selvage transition (R358). -/
def State.lapseWitness (s : State) (r : Nat) : State :=
  if s.inPair && !s.on F.TD_STATUS_LINK_UP then
    let s := s.putPair r { s.pairRing r with lapsed := true }
    s.wr F.TD_WITNESS (putBit (s.rd F.TD_WITNESS) r false)
  else s

end Sys2Proof.Machine
end

