-- ==== Sys2Proof/Machine/Faults.lean ====
section
/-! DEFINITION.  The SYS fault registers (01 Table 1.4, 18 R426). -/

namespace Sys2Proof.Machine

/-- A fault of class `cls` (row of Table 1.4 counted from 0) detected: latched, and recorded
in the system stream with the affected word or instance (R426, 07 R477). -/
def State.sysFault (s : State) (cls : Nat) (what : Nat := 0) : State :=
  let s := (((s.setBit F.SYS_FAULT cls).wr F.SYS_FAULT_LAST cls).wrT F.SYS_FAULT_T s.now).interrupt 194
  s.event sysStream 0 0 cls 0 0 (leBytes 8 what)

/-- A cause that asserts FAULT_N (R426), latched and recorded; a holder whose partner is STANDBY
hands over (14 R361), but for TANDEM_CHECK, at which it keeps the token (14 Table 14.4). -/
def State.devFault (s : State) (cause : Nat) : State :=
  let s := s.setBit F.SYS_DEVFAULT cause
  let s := { s with warp := { s.warp with faultN := true } }
  let s := s.event sysStream 0 0 cause 1
  if cause = 7 then s else s.faultHandover

end Sys2Proof.Machine
end

