-- ==== Sys2Proof/Machine/RegFind.lean ====
section
/-! DEFINITION.  Registers by their BAR0 offset, and the fields of a register image that a
Beam may hold (09 R227, R228). -/

namespace Sys2Proof.Machine

/-- The instance that offset `off` from the first instance names, first dimension first, and
whether one is there. -/
def instanceAt : List (Nat × Nat) → Nat → Option Nat
  | [], off => if off = 0 then some 0 else none
  | (stride, count) :: rest, off =>
    let i := min (off / stride) (count - 1)
    match instanceAt rest (off - i * stride) with
    | some j => some (i * (rest.foldl (fun n d => n * d.2) 1) + j)
    | none => none

/-- The first row of a list that has a register at `addr`, with the instance. -/
def findRow (addr : Nat) : List RegRow → Option (RegRow × Nat)
  | [] => none
  | r :: rest =>
    if r.addr ≤ addr then
      match instanceAt r.dims (addr - r.addr) with
      | some i => some (r, i)
      | none => findRow addr rest
    else findRow addr rest

/-- The register at BAR0 offset `addr`. -/
def findReg (addr : Nat) : Option (RegRow × Nat) := findRow addr regMap

/-- Configuration fields that no draft may change, part 0. -/
def cfgOnly0 : List Nat :=
  [F.LC_ROUTE_DEST_KIND.id, F.LC_ROUTE_RING_FMT.id, F.LC_ROUTE_Y_WIDE.id, F.LC_ROUTE_Y_KIND.id, F.LC_ROUTE_SP_SRC.id,
   F.LC_ROUTE_SPD_DIFF.id, F.LC_SRC_SP_ID.id, F.LC_SRC_Y_ID.id, F.LC_DEST_RING.id, F.LC_DEST_DEST_ID.id,
   F.AX_ROUTE_OUT_KIND.id, F.AX_ROUTE_RING.id, F.AX_ROUTE_RING_FMT.id, F.AX_ROUTE_FB_KIND.id, F.AX_ROUTE_OUT_ID.id,
   F.AX_FB.id, F.AX_HOME_SRC.id, F.AX_LIMP_SRC.id, F.AX_LIMN_SRC.id, F.AX_ENC_SCALE.id, F.SKS_BURST.id,
   F.TAP_SRC_KIND.id, F.TAP_SRC_SIGNAL.id, F.TAP_SRC_STREAM.id, F.TAP_SRC_RING.id, F.TAP_SRC_ID.id, F.CH_SRC_KIND.id,
   F.CH_SRC_SIGNAL.id, F.CH_SRC_SET.id, F.CH_SRC_RING.id, F.CH_SRC_ID.id, F.MU_SRC.id,
   F.HQ_CFG_KIND.id, F.HQ_CFG_DEPTH_LOG2.id, F.HQ_CFG_OWNER.id, F.HQ_CFG_EVENT.id]

/-- Configuration fields that no draft may change. -/
def cfgOnly : List Nat := cfgOnly0

/-- Configuration fields that a draft may change (Table 9.11), part 0. -/
def eligFields0 : List Nat :=
  [F.LC_PERIOD.id, F.LC_PHASE.id, F.LC_LATENCY.id, F.LC_PWM_PERIOD.id, F.LC_EVT_CFG.id, F.LC_SAFE_U.id,
   F.LC_SUP_CFG_LATE_LIMIT.id, F.LC_SUP_CFG_NR.id, F.LC_SUP_CFG_SUP_EN.id, F.LC_SUP_CFG_FAULT_REACT.id,
   F.LC_SUP_CFG_SUB_AT_COMMIT.id, F.LC_SUP_CFG_SUB_ESC.id, F.LC_SUP_CFG_PRE_SUB.id, F.LC_SUP_CFG_REACT.id,
   F.LC_RES_LIM.id, F.LC_MODEL_K.id, F.LC_MODEL_B.id, F.LC_MODEL_CFG_DEAD.id, F.LC_MODEL_CFG_S_K.id,
   F.LC_MODEL_CFG_MODEL_A.id, F.LC_SUP_TIME_STALL_US.id, F.LC_SUP_TIME_SUB_TIME_MS.id, F.PG_PERIOD.id, F.PG_PHASE.id,
   F.PG_INIT.id, F.AX_PERIOD.id, F.AX_PHASE.id, F.AX_LATENCY.id, F.AX_STEP_CFG_STEP_MIN_NS.id,
   F.AX_STEP_CFG_STEP_WIDTH_NS.id, F.AX_STEP_CFG2_DIR_POL.id, F.AX_STEP_CFG2_STEP_POL.id,
   F.AX_STEP_CFG2_DIR_SETUP_NS.id, F.AX_PWM_CFG_DECAY.id, F.AX_PWM_CFG_PWM_PERIOD_NS.id, F.AX_COIL_RL_L_UH.id,
   F.AX_COIL_RL_R_MOHM.id, F.AX_COIL_KE.id, F.AX_COIL_I_I_HOLD_MA.id, F.AX_COIL_I_I_RUN_MA.id]

/-- Configuration fields that a draft may change (Table 9.11), part 1. -/
def eligFields1 : List Nat :=
  [F.AX_COIL_V_VBUS_MV.id, F.AX_COIL_V_VBUS_AIN.id, F.AX_VBUS_SCALE.id, F.AX_HOLD_CFG_DUTY_MAX.id,
   F.AX_HOLD_CFG_HOLD_DELAY_MS.id, F.AX_STOP_DECEL.id, F.AX_VLIM_LO.id, F.AX_VLIM_HI.id, F.AX_FE_LIMIT.id,
   F.AX_FE_CFG_STALL_US.id, F.AX_FE_CFG_LATE_LIMIT.id, F.AX_FE_CFG_HOME_FE_N.id, F.AX_FE_CFG_FE_N.id,
   F.AX_HOME_CFG_DEB_NS.id, F.AX_HOME_CFG_HOME_DIR.id, F.AX_HOME_CFG_MODE.id, F.AX_HOME_VEL.id, F.AX_HOME_POS.id,
   F.AX_HOME_MAX.id, F.AX_HOME_FE.id, F.TAP_CFG_N.id, F.TAP_CFG_POLICY.id, F.TAP_PERIOD.id, F.TS_CFG.id,
   F.TS_PERIOD.id, F.TS_PHASE.id, F.TS_ST_CFG_CNT_KIND.id, F.TS_ST_CFG_KEEP.id, F.TS_ST_CFG_CNT_SRC.id,
   F.TS_COND_CFG_KIND.id, F.TS_COND_CFG_OP.id, F.TS_COND_CFG_NEXT.id, F.TS_COND_CFG_SRC.id, F.TS_COND_ARG.id,
   F.CS_PRE_NS.id, F.CS_POST_NS.id, F.CS_AUTO_US.id, F.CH_CFG_TIMED.id, F.CH_CFG_EDGE_MAX.id, F.CH_PERIOD.id, F.MU_CFG_VIOL_N.id]

/-- Configuration fields that a draft may change (Table 9.11), part 2. -/
def eligFields2 : List Nat :=
  [F.MU_CFG_FREEZE_SET.id, F.MU_CFG_ALIGN_TS.id, F.MU_CFG_ALIGN_TRIG.id, F.MU_CFG_STEP_SCOPED.id, F.MU_CFG_ACT.id,
   F.MU_PERIOD.id, F.MU_PHASE.id]

/-- Configuration fields that a draft may change (Table 9.11). -/
def eligFields : List Nat := eligFields0 ++ eligFields1 ++ eligFields2

/-- Configuration fields of the register images (R227). -/
def cfgFields : List Nat := cfgOnly ++ eligFields

/-- Initial-value fields of the register images (Table 9.10), the bank window apart. -/
def initFields : List Nat :=
  [F.LC_C_STATE.id, F.PG_TARGET.id, F.PG_VMAX.id, F.PG_WIN_M2.id, F.PG_WIN_M1.id, F.AX_NEXT_SEG_COUNT.id,
   F.AX_NEXT_SEG_FIRST.id]

/-- The bits of a register that fields of a list occupy. -/
def fieldMask (ids : List Nat) (r : RegRow) : Nat :=
  r.fields.foldl (fun m b => if ids.contains b.fld.id then m ||| ((2 ^ b.width - 1) * 2 ^ b.lo) else m) 0

end Sys2Proof.Machine
end

