-- ==== Sys2Proof/Machine/Beam.lean ====
section
/-! DEFINITION.  The Beam's records, who owns what, nets, discrete outputs and value routes
(09). -/

namespace Sys2Proof.Machine

open Sys2Proof

/-! ### Records (R226, Table 9.8) -/

/-- FADDR of one record: SPACE, KIND and index. -/
def recKey (space kind index : Nat) : Nat := (space * 16 + kind) * 2 ^ 24 + index

/-- SPACE, KIND and index of a FADDR. -/
def keySpace (k : Nat) : Nat := k / 2 ^ 28
/-- KIND of a FADDR. -/
def keyKind (k : Nat) : Nat := k / 2 ^ 24 % 16
/-- Index of a FADDR. -/
def keyIndex (k : Nat) : Nat := k % 2 ^ 24

/-- Bytes of a record; none for a kind outside Table 9.8. -/
def recBytesOf (space kind : Nat) : Option Nat :=
  if space < 4 then
    match kind with
    | 0 => some 256 | 1 => some 64 | 2 => some 256 | 3 => some 24 | 4 => some 8 | 5 => some 8 | 15 => some 1 | _ => none
  else if space = 4 then
    match kind with
    | 0 => some 8 | 1 => some 12 | 2 => some 16 | 3 => some 1280 | 4 => some 80 | 5 => some 16 | 6 => some 64 | 7 => some 128
    | 8 => some 16 | 9 => some 4 | 10 => some 1 | 11 => some 2 | _ => none
  else if space = 5 ∧ kind = 0 then some 8
  else none

/-- Whether an index lies in the range of its kind (Table 9.8). -/
def recIndexOk (space kind index : Nat) : Bool :=
  if space < 4 then
    match kind with
    | 0 => decide (index < 256) | 1 => decide (index < 64) | 2 => decide (index < 32) | 3 => decide (index < 4096)
    | 4 => decide (index < 3072) | 5 => decide (index < 2048) | 15 => true | _ => false
  else if space = 4 then
    match kind with
    | 0 => decide (index < 192) || (decide (256 ≤ index) && decide (index < 352)) || (decide (512 ≤ index) && decide (index < 544))
    | 1 => decide (index < 8192) | 2 => decide (index < 8192) | 3 => decide (index < 32) | 4 => decide (index < 32)
    | 5 => decide (index < 256) | 6 => decide (index < 64) | 7 => decide (index < 17) | 8 => decide (index < 128)
    | 9 => decide (index < 48) | 10 => decide (index < 65536) | 11 => decide (index < 65536) | _ => false
  else space == 5 && kind == 0 && decide (index < 4096)

/-- FADDR of the record of loop cell `n`, and of the other resources by their global numbers
(R213). -/
def loopKey (n : Nat) : Nat := recKey (n / 256) 0 (n % 256)
/-- FADDR of generator `n`. -/
def genKey (n : Nat) : Nat := recKey (n / 64) 1 (n % 64)
/-- FADDR of axis `n`. -/
def axisKey (n : Nat) : Nat := recKey (n / 32) 2 (n % 32)
/-- FADDR of logic element `n`. -/
def leKey (n : Nat) : Nat := recKey (n / 4096) 3 (n % 4096)
/-- FADDR of value route `n`. -/
def vrKey (n : Nat) : Nat := recKey (n / 3072) 4 (n % 3072)
/-- FADDR of event route `n`. -/
def erKey (n : Nat) : Nat := recKey (n / 2048) 5 (n % 2048)
/-- FADDR of a pin: FIO n, AIN at 256 + n, AOUT at 512 + n. -/
def pinKey (n : Nat) : Nat := recKey 4 0 n
/-- FADDR of OUTPUT record `k`. -/
def outKey (k : Nat) : Nat := recKey 4 1 k
/-- FADDR of tap `n`. -/
def tapKey (n : Nat) : Nat := recKey 4 2 n
/-- FADDR of trigger sequencer `n`. -/
def tseqKey (n : Nat) : Nat := recKey 4 3 n
/-- FADDR of capture set `n`. -/
def csetKey (n : Nat) : Nat := recKey 4 4 n
/-- FADDR of capture channel `n`. -/
def chanKey (n : Nat) : Nat := recKey 4 5 n
/-- FADDR of mask unit `n`. -/
def maskKey (n : Nat) : Nat := recKey 4 6 n
/-- FADDR of stream `n`. -/
def streamKey (n : Nat) : Nat := recKey 4 7 n
/-- FADDR of queue `n`. -/
def queueKey (n : Nat) : Nat := recKey 4 8 n
/-- FADDR of Shuttle `n`. -/
def shuttleKey (n : Nat) : Nat := recKey 4 9 n

/-- The global number of the resource a FADDR names within its kind. -/
def keyNumber (k : Nat) : Nat :=
  let i := keyIndex k
  if 3 < keySpace k then i
  else
    match keyKind k with
    | 0 => 256 * keySpace k + i | 1 => 64 * keySpace k + i | 2 => 32 * keySpace k + i | 3 => 4096 * keySpace k + i
    | 4 => 3072 * keySpace k + i | 5 => 2048 * keySpace k + i | _ => i

/-- A record that no CONFIG frame holds. -/
def BeamRec.init : BeamRec := ⟨none, 0, 0, 0, 0, false⟩

/-- The record at a FADDR. -/
def State.recOf (s : State) (key : Nat) : BeamRec := s.loom.records.get key BeamRec.init
/-- The record at a FADDR set. -/
def State.putRecord (s : State) (key : Nat) (r : BeamRec) : State :=
  { s with loom := { s.loom with records := s.loom.records.set key r } }

/-- The resource at a FADDR appears in a CONFIG frame; one that appears in none stays disabled and keeps
its reset values (R226). -/
def State.placed (s : State) (key : Nat) : Bool := (s.loom.records.find key).isSome
/-- The partition that a resource is assigned to (01 R20, R226). -/
def State.owner (s : State) (key : Nat) : Option Nat := (s.recOf key).owner
/-- The owner of loop cell `n`. -/
def State.ownerLC (s : State) (n : Nat) : Option Nat := s.owner (loopKey n)

/-- `size` bytes of a record's content from byte `off`. -/
def bytesAt (v off size : Nat) : Nat := v / 2 ^ (8 * off) % 2 ^ (8 * size)
/-- Word `w` of a record's content. -/
def wordAt (v w : Nat) : Nat := v / 2 ^ (32 * w) % 2 ^ 32

/-- Bytes of the active copy of the record at a FADDR. -/
def State.cfg (s : State) (key off size : Nat) : Nat := bytesAt (s.recOf key).active off size

/-- The records of one SPACE and KIND: FADDR and record. -/
def State.recsOf (s : State) (space kind : Nat) : List (Nat × BeamRec) :=
  s.loom.records.entries.filter (fun e => keySpace e.1 == space && keyKind e.1 == kind)
/-- The records of one KIND in the four quadrants. -/
def State.quadRecs (s : State) (kind : Nat) : List (Nat × BeamRec) :=
  s.loom.records.entries.filter (fun e => decide (keySpace e.1 < 4) && keyKind e.1 == kind)
/-- The records of partition `p`. -/
def State.recsOwned (s : State) (p : Nat) : List (Nat × BeamRec) :=
  s.loom.records.entries.filter (fun e => e.2.owner == some p)

/-- A Loom event set and recorded (07 Table 7.9). -/
def State.loomEvent (s : State) (stream id bit : Nat) (detail : List Byte := []) : State :=
  (s.setBit F.LOOM_EVENT bit).event stream 10 id bit 0 0 detail

/-! ### Exports (01 R21) -/

/-- A resource that EXPORT calls `res` is exported to partition `p`. -/
def State.exported (s : State) (p res : Nat) : Bool :=
  (s.recsOf 5 0).any (fun e => bytesAt e.2.active 0 4 == res && bitOf (bytesAt e.2.active 4 2) p)

/-- Whether partition `p` may read a pin or route that EXPORT calls `res`, held at `key`: its own, or
another partition's that is exported to it.  One that the Beam assigns to no partition is read by none. -/
def State.mayRead (s : State) (p key res : Nat) : Bool :=
  s.owner key == some p || ((s.owner key).isSome && s.exported p res)

/-- FADDR of the resource that an EXPORT record names (Table 9.8). -/
def exportKey (res : Nat) : Nat :=
  let x := res % 2 ^ 28
  match res / 2 ^ 28 with
  | 0 => pinKey x
  | 1 => pinKey (256 + x)
  | 2 => recKey 4 11 x
  | 3 => vrKey x
  | _ => erKey x

/-- The VALID bit of EXPORT `k` (R21): 0 while the exporting partition is in partition reset. -/
def State.exportValid (s : State) (k : Nat) : Bool :=
  match s.owner (exportKey (s.cfg (recKey 5 0 k) 0 4)) with
  | some p => !s.on F.RST_PART_IN_RESET p
  | none => true

/-- The numbers of the resources of one quadrant kind that partition `p` owns. -/
def State.owned (s : State) (kind p : Nat) : List Nat :=
  (s.quadRecs kind).filterMap (fun e => if e.2.owner = some p then some (keyNumber e.1) else none)

/-- Whether partition `p` is running (01): its program in RUN or HOLD, its Treadle RUNNING or
PAUSED, or a loop cell or axis of it enabled. -/
def State.partRunning (s : State) (p : Nat) : Bool :=
  s.rd F.CP_STATUS_STATE p != 0 || s.rd F.TR_STATUS_STATE p == 1 || s.rd F.TR_STATUS_STATE p == 2 ||
  (s.owned 0 p).any (fun n => s.on F.LC_CTRL_ENABLE n) || (s.owned 2 p).any (fun n => s.on F.AX_CTRL_ENABLE n)

/-! ### Ring bytes and nets (R218, Table 9.4) -/

/-- Ring `r`. -/
def State.ring (s : State) (r : Nat) : Ring := s.rings.get r Ring.init
/-- Ring `r` set. -/
def State.putRing (s : State) (r : Nat) (x : Ring) : State := { s with rings := s.rings.set r x }

/-- The byte at offset `o` of ring `r`'s input image, from the last good frame (12 R301). -/
def State.ringIn (s : State) (r o : Nat) : Nat := (s.ring r).ins.get o 0

/-- The commanded level of output `k` before its gate: of a cell's or axis's pin, what it
drives. -/
def State.outCmd (s : State) (k : Nat) : Bool :=
  let w := s.cfg (outKey k) 8 1
  if w = 3 ∨ w = 4 then (s.fio.get (s.cfg (outKey k) 0 4 % 256) FioPin.init).out
  else (s.loom.outs.get k ⟨false, false⟩).cmd

/-- A partition status net (Table 9.4, kind 6). -/
def State.statusNet (s : State) (p b : Nat) : Bool :=
  match b with
  | 0 => s.rd F.CP_STATUS_STATE p == 1
  | 1 => s.rd F.CP_STATUS_STATE p == 0
  | 2 => s.rd F.CP_STATUS_STATE p == 2
  | 3 => s.rd F.TR_STATUS_STATE p == 1
  | 4 => s.rd F.TR_STATUS_STATE p == 2
  | 5 => s.rd F.LP_STATUS_APPLY_STATE p != 0
  | _ => false

/-- Whether logic element `n` puts out 1. -/
def State.leOut (s : State) (n : Nat) : Bool := bitOf (s.rd F.LE_NET (n / 32)) (n % 32)

/-- STATION_OK of station `x` of ring `r` (12 R309). -/
def State.stationOk (s : State) (r x : Nat) : Bool := s.on F.RS_ST_STATUS_OK (128 * r + x)

/-- Loom quadrant `q` is powered. -/
def State.quadOn (s : State) (q : Nat) : Bool := bitOf (s.rd F.PWR_STATUS_LOOM_ON) q

/-- A net lies in a gated quadrant: a logic element's output or a loop cell's level (16 R396). -/
def State.netGated (s : State) (sel : Nat) : Bool :=
  let x := sel % 2 ^ 28
  match sel / 2 ^ 28 with
  | 1 => !s.quadOn (x / 4096)
  | 4 => !s.quadOn (x / 256)
  | _ => false

/-- The level of a net (Table 9.4). -/
def State.net (s : State) (sel : Nat) : Bool :=
  let x := sel % 2 ^ 28
  match sel / 2 ^ 28 with
  | 0 => x == 1
  | 1 => s.leOut x
  | 2 => (s.fio.get x FioPin.init).level
  | 3 => bitOf (s.ringIn (x / 131072) (x % 131072 / 8)) (x % 8)
  | 4 => s.rd F.LC_STATUS_LEVEL x != 0
  | 5 => s.outCmd x
  | 6 => s.statusNet (x / 8) (x % 8)
  | 7 => s.stationOk (x / 128) (x % 128)
  | _ => false

/-! ### Discrete outputs (R222 to R224) -/

/-- One actuation counted by output odometer `k` (R224, 03 R77). -/
def State.countOut (s : State) (k : Nat) : State :=
  if s.rd F.ODO_OUT k + 1 < 2 ^ 48 then s.wr F.ODO_OUT (s.rd F.ODO_OUT k + 1) k
  else (s.wr F.ODO_OUT (2 ^ 48 - 1) k).wr F.ODO_OUT_SAT 1 k

/-- The level of output `k` (R222): its gate net for WRITER 5, else the commanded level, ANDed
with the gate where GATE_EN is 1.  While its gate net lies in a gated quadrant the output keeps its
level (16 R396). -/
def State.outLevel (s : State) (k : Nat) : Bool :=
  let gate := s.cfg (outKey k) 4 4
  let logic := decide (s.cfg (outKey k) 8 1 = 5)
  let gated := bitOf (s.cfg (outKey k) 9 1) 1
  if (logic || gated) && s.netGated gate then (s.loom.outs.get k ⟨false, false⟩).level
  else if logic then s.net gate
  else s.outCmd k && (!gated || s.net gate)

/-- The state of output `k` set. -/
def State.putOut (s : State) (k : Nat) (x : OutState) : State :=
  { s with loom := { s.loom with outs := s.loom.outs.set k x } }

/-- Output `k` at level `b`: a change of the level counts one actuation where ODO is set. -/
def State.takeLevel (s : State) (k : Nat) (b : Bool) : State :=
  let x := s.loom.outs.get k ⟨false, false⟩
  if x.level = b then s
  else
    let s := s.putOut k { x with level := b }
    if bitOf (s.cfg (outKey k) 9 1) 0 then s.countOut k else s

/-- The FIO outputs that the Treadle, the program or logic write, brought to their levels
(R222, R223). -/
def State.settle (s : State) : State :=
  (s.recsOf 4 1).foldl (fun s e =>
    let k := keyIndex e.1
    let out := s.cfg e.1 0 4
    let w := s.cfg e.1 8 1
    if out / 2 ^ 30 = 0 ∧ w ≠ 3 ∧ w ≠ 4 then
      let b := s.outLevel k
      let pin := s.fio.get (out % 256) FioPin.init
      let s := if pin.out = b then s else { s with fio := s.fio.set (out % 256) { pin with out := b } }
      s.takeLevel k b
    else s) s

/-- The output index of an output selector with the writer `w`, if the Beam has one. -/
def State.outIndex (s : State) (sel w : Nat) : Option Nat :=
  ((s.recsOf 4 1).find? (fun e => bytesAt e.2.active 0 4 == sel && bytesAt e.2.active 8 1 == w)).map (fun e => keyIndex e.1)

/-- The command of output `k` set by its writer. -/
def State.command (s : State) (k : Nat) (b : Bool) : State :=
  (s.putOut k { s.loom.outs.get k ⟨false, false⟩ with cmd := b }).settle

/-! ### Value routes (R216, Table 9.9) -/

/-- A value released by a source of value-route kind `kind`, index `id`: every route sourced
from it carries the value, but one in a gated quadrant, which holds its last (16 R396). -/
def State.publish (s : State) (kind id v : Nat) : State :=
  (s.quadRecs 4).foldl (fun s e =>
    if bytesAt e.2.active 0 4 = kind * 2 ^ 28 + id ∧ s.quadOn (keySpace e.1) = true then s.wr F.VR_VALUE v (keyNumber e.1) else s) s

/-! ### Cyclic programs (11) -/

/-- The program of partition `p`. -/
def State.cycPart (s : State) (p : Nat) : CycPart := s.cyc.parts.get p CycPart.init
/-- The program of partition `p` set. -/
def State.putCycPart (s : State) (p : Nat) (x : CycPart) : State := { s with cyc := { s.cyc with parts := s.cyc.parts.set p x } }
/-- Cyclic task `k` (8p + i). -/
def State.cycTask (s : State) (k : Nat) : CycTask := s.cyc.tasks.get k CycTask.init
/-- Cyclic task `k` set. -/
def State.putCycTask (s : State) (k : Nat) (x : CycTask) : State := { s with cyc := { s.cyc with tasks := s.cyc.tasks.set k x } }
/-- The scan that cyclic task `k` has latched and not released. -/
def State.scan (s : State) (k : Nat) : Option Scan := (s.cycTask k).scan
/-- The eight cyclic tasks of partition `p`. -/
def cycTasks (p : Nat) : List Nat := (List.range 8).map (8 * p + ·)

end Sys2Proof.Machine
end

