-- ==== Sys2Proof/Machine/LoopLaw.lean ====
section
/-! DEFINITION.  The sliding-band law and the plausibility model of a loop cell, as functions
of their inputs (03 R62 to R65, R84; 04 R102 to R104). -/

namespace Sys2Proof.Machine

/-! ### The coefficient bank (R88, Table 3.8) -/

/-- Word `k` of a bank. -/
def Bank.word (b : Bank) (k : Nat) : Nat := b.words.get k 0
/-- Word `k` as a signed value. -/
def Bank.int (b : Bank) (k : Nat) : Int := toSigned 32 (b.word k)
/-- The bits of word `k` that are not reserved. -/
def bankMask (k : Nat) : Nat :=
  if k = 4 then 0x073F3F3F else if 16 ≤ k ∧ k ≤ 19 then 0x7FFFFFFF else if k = 23 then 0 else 0xFFFFFFFF
/-- Word `k` written; reserved bits stay 0. -/
def Bank.put (b : Bank) (k v : Nat) : Bank := ⟨b.words.set k (v % 2 ^ 32 &&& bankMask k)⟩

def Bank.ki (b : Bank) : Int := b.int 0
def Bank.kw (b : Bank) : Int := b.int 1
def Bank.kf (b : Bank) : Int := b.int 2
def Bank.kb (b : Bank) : Int := b.int 3
def Bank.nlev (b : Bank) : Nat := b.word 4 / 2 ^ 24 % 8
def Bank.sKf (b : Bank) : Nat := b.word 4 / 2 ^ 16 % 64
def Bank.sKw (b : Bank) : Nat := b.word 4 / 2 ^ 8 % 64
def Bank.sKi (b : Bank) : Nat := b.word 4 % 64
def Bank.w0 (b : Bank) : Int := b.int 5
def Bank.wmin (b : Bank) : Int := b.int 6
def Bank.wmax (b : Bank) : Int := b.int 7
def Bank.cmin (b : Bank) : Int := b.int 8
def Bank.cmax (b : Bank) : Int := b.int 9
def Bank.umin (b : Bank) : Int := b.int 10
def Bank.umax (b : Bank) : Int := b.int 11
def Bank.level (b : Bank) (j : Nat) : Int := b.int (12 + j)
def Bank.dw (b : Bank) (j : Nat) : Nat := b.word (16 + j) % 2 ^ 31
def Bank.minOff (b : Bank) : Nat := b.word 20 / 2 ^ 16
def Bank.minOn (b : Bank) : Nat := b.word 20 % 2 ^ 16
def Bank.spFix (b : Bank) : Int := b.int 21
def Bank.spdFix (b : Bank) : Int := b.int 22

/-- The checks of R80. -/
def Bank.valid (b : Bank) : Bool :=
  decide (2 ≤ b.nlev ∧ b.nlev ≤ 4 ∧ b.sKi ≤ 62 ∧ b.sKw ≤ 62 ∧ b.sKf ≤ 62 ∧
    0 ≤ b.wmin ∧ b.wmin ≤ b.wmax ∧ b.cmin ≤ b.cmax ∧ b.umin ≤ b.umax)

/-- CS clamped to the limits of a bank (R63). -/
def Bank.clampCs (b : Bank) (cs : Int) : Int := clampInt (b.cmin * 2 ^ 16) (b.cmax * 2 ^ 16) cs

/-! ### The law (R64) -/

/-- What one evaluation gives. -/
structure LawOut where
  e : Int
  c : Int
  w : Int
  u : Int
  cs : Int
  j : Nat
  ff : Int
  sats : Nat
  moved : Option Bool
  blocked : Bool

/-- dwell_ok (R64, R66): whether a transition may be made at `t`. -/
def dwellOk (b : Bank) (last : Option (Instant × Bool)) (t : Instant) : Bool :=
  match last with
  | none => true
  | some (lt, up) => decide ((if up then b.minOn else b.minOff : Nat) * 1000 * 16 ≤ sinceS t lt)

/-- Step 2: the exact increment of the integrator, before sat48. -/
def incr (b : Bank) (e : Int) : Int :=
  let p := b.ki * e
  if b.sKi ≤ 16 then p * 2 ^ (16 - b.sKi) else rshr p (b.sKi - 16)

/-- Step 3 before the clamp: w0 + mulsh(kw, a, s_kw). -/
def bandRaw (b : Bank) (spDot : Int) : Int := b.w0 + mulsh b.kw (min spDot.natAbs (2 ^ 31 - 1)) b.sKw

/-- Step 5 before the clamp. -/
def outRaw (b : Bank) (j : Nat) (ff : Int) : Int := b.level j + ff + b.kb

/-- One evaluation of the law, in the order of R64. -/
def law (i : LawIn) : LawOut :=
  let b := i.bank
  let e := sat32 (i.sp - i.y)
  let d := sat48 (incr b e)
  let cs := b.clampCs (i.cs - d)
  let c := rshr cs 16
  let a : Int := min i.spDot.natAbs (2 ^ 31 - 1)
  let w := clampInt b.wmin b.wmax (bandRaw b i.spDot)
  let wj := w + b.dw i.j
  let up := !i.event && decide (i.j + 1 < b.nlev ∧ c + wj < e)
  let down := !i.event && decide (0 < i.j ∧ e < c - wj)
  let ok := dwellOk b i.lastMove i.at_
  let j := if ok then (if up then i.j + 1 else if down then i.j - 1 else i.j) else i.j
  let ff := mulsh b.kf i.spDot b.sKf
  let raw := outRaw b j ff
  { e := e, c := c, w := w, u := clampInt b.umin b.umax raw, cs := cs, j := j, ff := ff
    sats := b2n (e != i.sp - i.y) + 2 * b2n (d != incr b e) + 4 * b2n (cs != i.cs - d) +
      8 * b2n (mulshSat b.kw a b.sKw) + 16 * b2n (w != bandRaw b i.spDot) +
      32 * b2n (mulshSat b.kf i.spDot b.sKf) + 64 * b2n (clampInt b.umin b.umax raw != raw)
    moved := if ok then (if up then some true else if down then some false else none) else none
    blocked := (up || down) && !ok }

/-- A comparator code (R84). -/
def codeOf (t : Int) : Nat := (clampInt 0 4095 (rshr t 20 + 2048)).toNat

/-- The code pairs (lo, hi) of every level (R84). -/
def lawCodes (b : Bank) (sp c w : Int) : List (Nat × Nat) :=
  (List.range b.nlev).map (fun j => (codeOf (sp - c - (w + b.dw j)), codeOf (sp - c + (w + b.dw j))))

/-! ### The plausibility model (04 R102) -/

/-- The model's state after an evaluation. -/
structure ModelOut where
  yms : Int
  ym : Int
  resid : Int
  warming : Bool
  warmupLeft : Nat
  violRun : Nat
  okRun : Nat

/-- One model step on the sensor value `y` (R102). -/
def model (m : ModelIn) (y : Int) : ModelOut :=
  let warming := decide (0 < m.warmupLeft)
  let tgt := sat32 (mulsh m.k m.u m.sK + m.b)
  let inc := rshr ((tgt * 2 ^ 16 - m.yms) * m.a) 16
  let yms := if warming then y * 2 ^ 16 else sat48 (m.yms + inc)
  let ym := rshr yms 16
  let out := decide (m.resLim < (y - ym).natAbs)
  { yms := yms, ym := ym, resid := sat32 (y - ym), warming := warming, warmupLeft := m.warmupLeft - 1
    violRun := if warming then 0 else if out then min (m.violRun + 1) 255 else 0
    okRun := if warming then 0 else if out then 0 else min (m.okRun + 1) 255 }

/-- The evaluation that a strobe has latched, with sensor value `y`: the model step of R102, the
declarations of R102 to R104 and the law of R64. -/
def Latched.evaluate (l : Latched) (y : Int) : Eval :=
  let p := l.sup
  let m := Machine.model l.model y
  let violated := p.on && m.violRun == p.nr && m.violRun != l.model.violRun
  let start := violated && p.react == 1 && !p.substituting
  let useModel := p.on && (p.substituting || start || (p.react == 1 && p.preSub && decide (0 < m.violRun)))
  let o := Machine.law { l.law with y := if useModel then m.ym else y }
  let plaus := violated && 2 ≤ p.react
  { at_ := l.law.at_, due := l.due, pwm := l.pwm, bank := l.law.bank, event := l.law.event, sup := p.on, ready := none
    sp := l.law.sp, spDot := l.law.spDot, y := y, e := o.e, c := o.c, w := o.w, u := o.u, cs := o.cs, j := o.j, ff := o.ff
    sats := o.sats, moved := o.moved, blocked := o.blocked, codes := lawCodes l.law.bank l.law.sp o.c o.w
    yms := m.yms, ym := m.ym, resid := m.resid, warmupLeft := m.warmupLeft, violRun := m.violRun, okRun := m.okRun, warming := m.warming
    violated := violated, subStart := start && !plaus, subEnd := p.ends
    causes := 16 * b2n plaus + 32 * b2n p.ends
    stops := (plaus && p.react == 3) || (p.ends && p.esc) }

end Sys2Proof.Machine
end

