-- ==== Sys2Proof/Machine/PowerOps.lean ====
section
/-! DEFINITION.  The power controller: selection, entry, wakes and quadrant power (16). -/

namespace Sys2Proof.Machine

/-- The power controller changed by `f`. -/
def State.onPower (s : State) (f : Power → Power) : State := { s with power := f s.power }

/-! ### Bias and assist (R398, Table 16.3) -/

/-- The body bias of a state (0 RUN to 4 OFF): BOOST gives +200 mV in RUN and IDLE, retained logic takes
-300 mV in SLEEP and -500 mV in DEEP_SLEEP. -/
def State.putBias (s : State) (x : Nat) : State :=
  s.onPower (fun w => { w with bias := if x < 2 ∧ s.on F.PWR_CTRL_BOOST = true then 200 else 0, heldBias := if x = 2 then -300 else if x = 3 then -500 else 0 })

/-- The SRAM's supply and assist in a state. -/
def State.putAssist (s : State) (x : Nat) : State :=
  s.onPower (fun w => { w with sramSupply := if x < 3 then .nominal else if x = 3 then .retention else .off })

/-! ### Residency (Table 16.9) -/

/-- The time in the state brought up to now. -/
def State.accrue (s : State) : State :=
  let x := s.rd F.PWR_STATUS_STATE
  let all := s.power.spent.get x 0 + (s.compensated - s.power.since).toNat
  let s := s.onPower (fun w => { w with spent := w.spent.set x all, since := s.compensated })
  if x < 4 then s.wr F.PWR_RES (all / 16000) x else s

/-- The device in state `x` (0 RUN to 4 OFF): body bias and then SRAM assist follow (R398), the time in
the state before is added to its residency, and an entry below RUN is counted. -/
def State.putPwrState (s : State) (x : Nat) : State :=
  if s.rd F.PWR_STATUS_STATE = x then s
  else
    let s := ((s.putBias x).putAssist x).accrue
    let s := if x = 0 ∨ 3 < x then s else s.roll F.PWR_ENTRIES (x - 1)
    s.wr F.PWR_STATUS_STATE x

/-! ### Events (07 Table 7.9) -/

/-- PWR_REFUSE as a word. -/
def State.pwrRefuse (s : State) : Nat :=
  s.rd F.PWR_REFUSE_CAUSE * 2 ^ 12 + s.rd F.PWR_REFUSE_TARGET * 2 ^ 8 + s.rd F.PWR_REFUSE_REFUSER

/-- A power event set. -/
def State.pwrFlag (s : State) (bit : Nat) : State := (s.setBit F.PWR_EVENT bit).interrupt 199

/-- A power event set and recorded. -/
def State.pwrEvent (s : State) (bit : Nat) : State :=
  (s.pwrFlag bit).event sysStream 17 0 bit 0 0 (leBytes 4 s.pwrRefuse)

/-! ### Quadrants (R24, R396) -/

/-- Quadrant `q` may not be gated: a running partition holds a resource in it (R24), or a logic
element or route in it is assigned to a partition whose LOGIC_HOLD is 0. -/
def State.quadNeeded (s : State) (q : Nat) : Bool :=
  s.loom.records.entries.any (fun e =>
    keySpace e.1 == q &&
    e.2.owner.any (fun p =>
      s.partRunning p ||
      ((keyKind e.1 == 3 || keyKind e.1 == 4 || keyKind e.1 == 5) && !s.on F.PWR_PART_CFG p)))

/-- Quadrant `q` being powered, unless it is or will be. -/
def State.wakeQuadrant (s : State) (q : Nat) : State :=
  if s.quadOn q || s.power.rising.contains q then s
  else s.onPower (fun w => { w with rising := w.rising ++ [q] })

/-- Every quadrant gated or powered as R396 has it. -/
def State.regate (s : State) : State :=
  s.each (List.range 4) (fun s q =>
    if s.quadNeeded q then s.wakeQuadrant q
    else if s.quadOn q then s.wr F.PWR_STATUS_LOOM_ON (putBit (s.rd F.PWR_STATUS_LOOM_ON) q false)
    else s)

/-! ### Selection (R400, R401) -/

/-- The device's tolerance in us: PWR_TOL_DEV, and that of every running partition. -/
def State.tolerance (s : State) : Nat :=
  (List.range 16).foldl (fun t p => if s.partRunning p then min t (s.rd F.PWR_PART_TOL p) else t) (s.rd F.PWR_TOL_DEV)

/-- MAX_STATE as taken. -/
def State.maxState (s : State) : Nat := if 4 < s.rd F.PWR_CTRL_MAX_STATE then 3 else s.rd F.PWR_CTRL_MAX_STATE

/-- Exit latency of a state in us (Table 16.2). -/
def exitLatency : Nat → Nat
  | 0 => 0
  | 1 => 2
  | 2 => 150
  | 3 => 4000
  | _ => 350000

/-- Whether a state fits the tolerance and MAX_STATE. -/
def State.stateFits (s : State) (x : Nat) : Bool := decide (x ≤ s.maxState) && decide (exitLatency x ≤ s.tolerance)

/-- No task READY or RUNNING, every Shuttle idle (Table 16.2). -/
def State.shuttlesIdle (s : State) : Bool :=
  s.sched.tasks.entries.all (fun e => e.2.phase != .ready && e.2.phase != .running) &&
  (List.range 48).all (fun k => s.rd F.SH_STATUS_STATE k == 0 || s.rd F.SH_STATUS_STATE k == 3)

/-- The static conditions of a state (Table 16.2). -/
def State.staticOk (s : State) (x : Nat) : Bool :=
  let sleep := (List.range 16).all (fun p => s.rd F.CP_STATUS_STATE p != 1 && s.rd F.TR_STATUS_STATE p == 0) &&
    (List.range 4).all (fun r => s.rd F.RING_STATUS_STATE r == 0 || s.rd F.RING_STATUS_STATE r == 3 || s.rd F.RING_STATUS_STATE r == 6)
  match x with
  | 1 => s.shuttlesIdle
  | 2 => sleep
  | _ => sleep && (List.range 16).all (fun p => !s.partRunning p)

/-- An enabled external wake source acts in a state (R405, Table 16.5). -/
def State.wakeAvailable (s : State) (x : Nat) : Bool :=
  x == 4 || s.on F.PWR_WAKE_EN_LULL || s.on F.PWR_WAKE_EN_WAKE_N || s.on F.PWR_WAKE_EN_ALARM || (x == 2 && s.on F.PWR_WAKE_EN_HOST)

/-- backoff(x) and wake_hold (R400). -/
def State.heldOff (s : State) (x : Nat) : Bool :=
  (s.power.backoff.find x).any (fun e => earlier s.now e) || s.power.holdEnd.any (fun e => earlier s.now e)

/-- select() of R400. -/
def State.chosen (s : State) : Nat :=
  (([4, 3, 2, 1].find? (fun x =>
    s.stateFits x && (x == 1 || (s.wakeAvailable x && !s.heldOff x)) && s.staticOk x))).getD 0

/-- IDLE entered or left as R401 has it, in RUN or IDLE with no handshake in progress. -/
def State.idleCheck (s : State) : State :=
  if 1 < s.rd F.PWR_STATUS_STATE ∨ s.rd F.PWR_STATUS_PHASE ≠ 0 then s
  else s.putPwrState (b2n (s.stateFits 1 && s.shuttlesIdle))

/-- The state selected again (R400): from RUN the handshake of a deeper state begins (R402). -/
def State.select (s : State) : State :=
  if 1 < s.rd F.PWR_STATUS_STATE ∨ s.rd F.PWR_STATUS_PHASE ≠ 0 then s
  else if s.chosen ≤ 1 then s.putPwrState s.chosen
  else
    let x := s.chosen
    let s := s.putPwrState 0
    ((s.onPower (fun w => { w with granted := 0, askedAt := s.now })).wr F.PWR_STATUS_PHASE 1).wr F.PWR_STATUS_TARGET x

/-- A change in whether a partition is running. -/
def State.runChange (s : State) : State := s.regate.select

/-! ### Entries that fail (R404) -/

/-- WAKE_HOLD_MS begins (R400). -/
def State.beginHold (s : State) : State :=
  s.onPower (fun w => { w with holdEnd := if s.rd F.PWR_HOLD = 0 then none else some (addNs s.now (1000000 * s.rd F.PWR_HOLD)) })

/-- The entry in progress ends in RUN: refused (cause 0), timed out (1) or aborted (2) at a
block's code; a wake that was latched is served. -/
def State.entryFails (s : State) (code cause : Nat) : State :=
  let x := s.rd F.PWR_STATUS_TARGET
  let s := if cause = 0 then s.bump F.PWR_REFUSE_CNT else s.bump F.PWR_ABORT_CNT
  let s := ((s.wr F.PWR_REFUSE_CAUSE cause).wr F.PWR_REFUSE_TARGET x).wr F.PWR_REFUSE_REFUSER code
  let s := s.pwrEvent (if cause = 0 then 0 else 1)
  let s := s.onPower (fun w => { w with backoff := w.backoff.set x (addNs s.now (1000000 * max 1 (s.rd F.PWR_ENTRY_CFG_RETRY_MS))) })
  let s := (s.wr F.PWR_STATUS_PHASE 0).wr F.PWR_STATUS_TARGET 0
  if s.on F.PWR_STATUS_WAKE_PEND then (s.wr F.PWR_STATUS_WAKE_PEND 0).beginHold else s

/-! ### Wakes (R403, R406, R411) -/

/-- An exit begun for the latched wake.  From DEEP_SLEEP the quadrants that may not stay gated are
powered and scanned on the way (Table 16.6). -/
def State.beginExit (s : State) : State :=
  let s := if s.rd F.PWR_STATUS_STATE = 3 then s.each ((List.range 4).filter s.quadNeeded) State.wakeQuadrant else s
  (s.onPower (fun w => { w with wakeAt := s.now, retryAt := none, escalated := false })).wr F.PWR_STATUS_PHASE 2

/-- A wake with a code admitted below RUN or during a handshake: the first is latched and
recorded, the others are merged into it (R406). -/
def State.wake (s : State) (code : Nat) : State :=
  if s.on F.PWR_STATUS_WAKE_PEND && !s.power.escalated then s.bump F.PWR_WAKE_MERGED
  else
    let s := (s.wr F.PWR_STATUS_WAKE_PEND 1).wr F.PWR_WAKE_SRC code
    if s.rd F.PWR_STATUS_PHASE = 1 then s
    else (s.onPower (fun w => { w with retries := b2n w.escalated })).beginExit

/-- The blocks of Table 16.4 in the order in which they are asked. -/
def askOrder : List Nat := [0x01, 0x02, 0x03, 0x04, 0x05, 0x06, 0x07, 0x08, 0x09, 0x0A, 0x0B]

/-- Table 16.4, PART: what makes it refuse state `x`; `busy` says that a load is in progress. -/
def State.partRefuses (s : State) (x : Nat) (busy : Bool) : Bool :=
  if 3 ≤ x then (List.range 16).any s.partRunning
  else busy || (List.range 16).any (fun p => s.rd F.CP_STATUS_STATE p == 1 || s.on F.TR_STATUS_STATE p || s.on F.LP_STATUS_APPLY_STATE p)

/-- An event that would have made block `code` refuse (R403): a wake where the block is bound
by its grant.  After an escalation only an external wake begins a new series (R411): an internal one is
merged. -/
def State.internalWake (s : State) (code : Nat) : State :=
  let st := s.rd F.PWR_STATUS_STATE
  if (2 ≤ st ∧ st < 4) ∨ (s.rd F.PWR_STATUS_PHASE = 1 ∧ (askOrder.take s.power.granted).contains code) then
    if s.power.escalated then s.bump F.PWR_WAKE_MERGED else s.wake code
  else s

/-- The state that is being entered, or else the state. -/
def State.goalState (s : State) : Nat :=
  if s.rd F.PWR_STATUS_PHASE = 1 then s.rd F.PWR_STATUS_TARGET else s.rd F.PWR_STATUS_STATE

/-- The start of a program, Treadle, loop cell or axis for which PART would have refused the state that
is being entered, or the state below RUN (R24, R403). -/
def State.startWake (s : State) : State :=
  if s.partRefuses s.goalState false then s.internalWake 2 else s

end Sys2Proof.Machine
end

