-- ==== Sys2Proof/Machine/Banks.lean ====
section
/-! DEFINITION.  A loop cell's place in the state, its coefficient banks and their swap (03). -/

namespace Sys2Proof.Machine

/-- Loop cell `n`. -/
def State.cell (s : State) (n : Nat) : LoopCell := s.cells.get n LoopCell.init
/-- Loop cell `n` set. -/
def State.putCell (s : State) (n : Nat) (c : LoopCell) : State := { s with cells := s.cells.set n c }
/-- Pin FIOn. -/
def State.pin (s : State) (n : Nat) : FioPin := s.fio.get n FioPin.init
/-- Pin FIOn set. -/
def State.putPin (s : State) (n : Nat) (x : FioPin) : State := { s with fio := s.fio.set n x }
/-- Analog input AINn. -/
def State.ainOf (s : State) (n : Nat) : Ain := s.ain.get n Ain.init

/-- BAR0 offset of the register at `x` of cell `n`. -/
def lcOff (n x : Nat) : Nat := 0x200000 + x + 0x100 * n

/-- The active bank of cell `n` (R78). -/
def State.active (s : State) (n : Nat) : Bank :=
  if s.on F.LC_STATUS_ACTIVE_BANK n then (s.cell n).bankB else (s.cell n).bankA
/-- The shadow bank of cell `n`. -/
def State.shadow (s : State) (n : Nat) : Bank :=
  if s.on F.LC_STATUS_ACTIVE_BANK n then (s.cell n).bankA else (s.cell n).bankB

/-- The shadow bank of cell `n` set; SHADOW_VALID is recomputed (R80). -/
def State.putShadow (s : State) (n : Nat) (b : Bank) : State :=
  let c := s.cell n
  let s := s.putCell n (if s.on F.LC_STATUS_ACTIVE_BANK n then { c with bankA := b } else { c with bankB := b })
  s.wr F.LC_STATUS_SHADOW_VALID (b2n b.valid) n

/-- CS of cell `n`. -/
def State.cs (s : State) (n : Nat) : Int := toSigned 48 (s.rd F.LC_C_STATE n)

/-- CS set, clamped to the active bank, and SAT_HI and SAT_LO recomputed (R63). -/
def State.putCs (s : State) (n : Nat) (cs : Int) : State :=
  let b := s.active n
  let cs := b.clampCs cs
  let s := s.wr F.LC_C_STATE (ofSigned 48 cs) n
  (s.wr F.LC_STATUS_SAT_HI (b2n (cs == b.cmax * 2 ^ 16)) n).wr F.LC_STATUS_SAT_LO (b2n (cs == b.cmin * 2 ^ 16)) n

/-- One transition counted by the odometer (R76): it stops at 2^48 - 1 and sets ODO_SAT. -/
def State.countMove (s : State) (n : Nat) : State :=
  if s.rd F.LC_ODO n + 1 < 2 ^ 48 then s.wr F.LC_ODO (s.rd F.LC_ODO n + 1) n
  else (s.wr F.LC_ODO (2 ^ 48 - 1) n).wr F.LC_EVENT_ODO_SAT 1 n

/-- Steps 2 to 4 of R81: CS clamped to the active bank, and a level above its greatest
clamped, which counts as a fall now. -/
def State.swapClamp (s : State) (n : Nat) : State :=
  let s := s.putCs n (s.cs n)
  let c := s.cell n
  let top := (s.active n).nlev - 1
  if top < c.j then
    let s := s.putCell n { c with j := top, lastMove := some (s.now, false) }
    ((s.wr F.LC_STATUS_LEVEL top n).wr F.LC_EVENT_LEVEL_CLAMPED 1 n).countMove n |>.settle
  else s

/-- A swap now (R81); an evaluation in flight is completed with the old bank (R82). -/
def State.doSwap (s : State) (n : Nat) : State :=
  let c := s.cell n
  let s := s.putCell n { c with reclamp := c.eval.isSome || c.latched.isSome || c.reclamp, swapAsked := false }
  let s := s.wr F.LC_STATUS_ACTIVE_BANK (1 - s.rd F.LC_STATUS_ACTIVE_BANK n) n
  let s := s.wr F.LC_STATUS_SHADOW_VALID (b2n (s.shadow n).valid) n
  (s.swapClamp n).wr F.LC_EVENT_SWAP_DONE 1 n

/-- A swap where SHADOW_VALID is 1; otherwise it is refused and the active bank kept (R80). -/
def State.trySwap (s : State) (n : Nat) : State :=
  if s.on F.LC_STATUS_SHADOW_VALID n then s.doSwap n
  else
    let s := s.putCell n { s.cell n with swapAsked := false }
    s.wr F.LC_EVENT_SWAP_REFUSED 1 n

/-- A loop cell's shadow overwritten with its active bank (05 R129). -/
def State.shadowReset (s : State) (n : Nat) : State := s.putShadow n (s.active n)

end Sys2Proof.Machine
end

