-- ==== Sys2Proof/Machine/Gens.lean ====
section
/-! DEFINITION.  The profile generators (05 R140 to R145). -/

namespace Sys2Proof.Machine

/-- Generator `n` beyond its registers. -/
def State.gen (s : State) (n : Nat) : Gen := s.gens.get n Gen.init
/-- Generator `n` set. -/
def State.putGen (s : State) (n : Nat) (g : Gen) : State := { s with gens := s.gens.set n g }
/-- The owner of generator `n`. -/
def State.ownerPG (s : State) (n : Nat) : Option Nat := s.owner (genKey n)
/-- BAR0 offset of register `x` of generator `n`. -/
def pgOff (n x : Nat) : Nat := 0x310000 + x + 0x40 * n

/-- rdiv of R140: a quotient rounded half away from zero by `(|p| + m // 2) // m`. -/
def rdivHalf (p : Int) (m : Nat) : Int :=
  let r : Int := (p.natAbs + m / 2) / m
  if p < 0 then -r else r

/-- The sign of an integer. -/
def signOf (x : Int) : Int := if x < 0 then -1 else if x = 0 then 0 else 1

/-- Limits held to their ranges (R142). -/
def genLimits (vmax m1 m2 : Nat) : Nat × Nat × Nat :=
  (clampNat 1 0x7FFFFFFF vmax, clampNat 1 1024 m1, clampNat 1 1024 m2)

/-- The limits in force. -/
def State.limitsOf (s : State) (n : Nat) : Nat × Nat × Nat :=
  genLimits (s.rd F.PG_VMAX n) (s.rd F.PG_WIN_M1 n) (s.rd F.PG_WIN_M2 n)

end Sys2Proof.Machine

namespace Sys2Proof

/-- Both windows filled with q and the sums consistent with them (R140, R142). -/
def Gen.refill (g : Gen) (m1 m2 : Nat) : Gen :=
  { g with h1 := List.replicate m1 g.q, h2 := List.replicate m2 g.q, s1 := g.q * m1, s2 := g.q * m2, zeroRun := m1, lastDir := 0 }

/-- q, t and the windows at a value in sp units: on enable and on PG_SET (R140). -/
def Gen.restart (g : Gen) (v : Int) (m1 m2 : Nat) : Gen := { g with q := v * 65536, t := v * 65536, nextT := none }.refill m1 m2

end Sys2Proof

namespace Sys2Proof.Machine

/-- The shadow registers of generator `n` set. -/
def State.wrShadow (s : State) (n : Nat) (target : Nat) (l : Nat × Nat × Nat) : State :=
  (((s.wr F.PG_SHADOW_TARGET target n).wr F.PG_SHADOW_VMAX l.1 n).wr F.PG_SHADOW_WIN_M1 l.2.1 n).wr F.PG_SHADOW_WIN_M2 l.2.2 n

/-- The generator's shadow set equal to its active values (R129). -/
def State.genShadowReset (s : State) (n : Nat) : State :=
  let g := s.gen n
  (s.putGen n { g with stJump := none, stTarget := false, stLimits := false }).wrShadow n (s.rd F.PG_TARGET n) (s.limitsOf n)

/-- New limits (R142): pending on an enabled generator until an update finds DONE; otherwise
in force at once. -/
def State.giveLimits (s : State) (n : Nat) (l : Nat × Nat × Nat) : State :=
  if s.on F.PG_CTRL n then (s.putGen n { s.gen n with limits := some l }).wr F.PG_STATUS_LIMITS_PENDING 1 n
  else
    let s := ((s.wr F.PG_VMAX l.1 n).wr F.PG_WIN_M1 l.2.1 n).wr F.PG_WIN_M2 l.2.2 n
    (s.putGen n ({ s.gen n with limits := none }.refill l.2.1 l.2.2)).wr F.PG_STATUS_LIMITS_PENDING 0 n

/-- A new target (R141): PG_TARGET shows it, and it replaces t at the next update. -/
def State.giveTarget (s : State) (n : Nat) (v : Nat) : State :=
  let s := s.wr F.PG_TARGET v n
  if s.on F.PG_CTRL n then s.putGen n { s.gen n with nextT := some (toSigned 32 v * 65536) } else s

/-- A generator action staged (05 Table 5.7, R128). -/
def State.stageGen (s : State) (n op a0 a1 a2 : Nat) : State :=
  let g := s.gen n
  let shown := (s.rd F.PG_SHADOW_VMAX n, s.rd F.PG_SHADOW_WIN_M1 n, s.rd F.PG_SHADOW_WIN_M2 n)
  match op with
  | 3 => (s.putGen n { g with stTarget := true }).wrShadow n a0 shown
  | 4 => (s.putGen n { g with stLimits := true }).wrShadow n (s.rd F.PG_SHADOW_TARGET n) (genLimits a0 a1 a2)
  | _ => (s.putGen n { g with stTarget := true, stJump := some (toSigned 32 a0) }).wrShadow n a0 shown

/-- A staged generator takes its commit (Table 5.10): at its first update from here on; a jump that an earlier
commit gave and no update has taken yet stays due before it. -/
def State.commitGen (s : State) (n : Nat) : State :=
  let g := s.gen n
  let s := s.putGen n { g with stJump := none, stTarget := false, stLimits := false, jump := if s.on F.PG_CTRL n then g.stJump.orElse (fun _ => g.jump) else none }
  let s := if g.stTarget then s.giveTarget n (s.rd F.PG_SHADOW_TARGET n) else s
  if g.stLimits then s.giveLimits n (s.rd F.PG_SHADOW_VMAX n, s.rd F.PG_SHADOW_WIN_M1 n, s.rd F.PG_SHADOW_WIN_M2 n) else s

/-- The generator's q, sp and sp_dot shown in its registers. -/
def State.shapeGen (s : State) (n : Nat) (sp spDot : Int) : State :=
  ((s.wrI F.PG_Q (s.gen n).q n).wrI F.PG_SP sp n).wrI F.PG_SP_DOT spDot n

/-- The generator's q, sp and sp_dot released: shown, and carried by the routes sourced from sp. -/
def State.showGen (s : State) (n : Nat) (sp spDot : Int) : State := (s.shapeGen n sp spDot).publish 2 n (ofSigned 32 sp)

/-- Pending limits taken where the update before left DONE set (R142). -/
def State.applyLimits (s : State) (n : Nat) : State :=
  match (s.gen n).limits with
  | some l =>
    if s.on F.PG_STATUS_DONE n then
      let s := ((s.wr F.PG_VMAX l.1 n).wr F.PG_WIN_M1 l.2.1 n).wr F.PG_WIN_M2 l.2.2 n
      (s.putGen n ({ s.gen n with limits := none }.refill l.2.1 l.2.2)).wr F.PG_STATUS_LIMITS_PENDING 0 n
    else s
  | none => s

/-- What one update computes (R140): the generator after it, sp, sp_dot, whether the reversal
dwell held it and whether it is DONE (R143). -/
structure GenOut where
  g : Gen
  sp : Int
  spDot : Int
  dwell : Bool
  done : Bool

/-- The update algorithm of R140, with t the effective target. -/
def genStep (g : Gen) (t : Int) (vmax m1 m2 : Nat) : GenOut :=
  let want := clampInt (-vmax) vmax (t - g.q)
  let dwell := want ≠ 0 ∧ signOf want = -g.lastDir ∧ g.zeroRun < m1
  let step := if dwell then 0 else want
  let q := g.q + step
  let s1 := g.s1 + q - g.h1.headD 0
  let h1 := g.h1.drop 1 ++ [q]
  let x1 := rdivHalf s1 m1
  let s2 := g.s2 + x1 - g.h2.headD 0
  let h2 := g.h2.drop 1 ++ [x1]
  let sp := sat32 (rdivHalf s2 (m2 * 65536))
  let spDot := sat32 (rdivHalf (s2 - g.s2) m2)
  { g := { g with q := q, h1 := h1, h2 := h2, s1 := s1, s2 := s2, lastDir := if step = 0 then g.lastDir else signOf step, zeroRun := if step = 0 then min (g.zeroRun + 1) m1 else 0 }
    sp := sp, spDot := spDot, dwell := decide dwell
    done := q == t && spDot == 0 && h1.all (· == q) && h2.all (· == q) }

/-- An update of generator `n` (R140 to R143): pending limits, a jump and a new target first. -/
def State.updateGen (s : State) (n : Nat) : State :=
  let s := s.applyLimits n
  let l := s.limitsOf n
  let g := s.gen n
  let g := match g.jump with
    | some v => { (g.restart v l.2.1 l.2.2) with jump := none, nextT := g.nextT }
    | none => g
  let g := { g with t := g.nextT.getD g.t, nextT := none }
  let o := genStep g (if s.on F.PG_STATUS_HELD n then g.q else g.t) l.1 l.2.1 l.2.2
  let s := if o.done && !s.on F.PG_STATUS_DONE n then s.wr F.PG_EVENT_DONE_EVT 1 n else s
  let s := (s.wr F.PG_STATUS_DONE (b2n o.done) n).wr F.PG_STATUS_DWELL (b2n o.dwell) n
  (s.putGen n o.g).showGen n o.sp o.spDot

/-- The generators of partition `p` held at their inner position, or let go (R135). -/
def State.holdGens (s : State) (p : Nat) (held : Bool) : State :=
  s.each (s.owned 1 p) (fun s n => s.wr F.PG_STATUS_HELD (b2n held) n)

/-- A generator started at PG_INIT (R140).  DONE reads 0 until its first update (R143; assumption 25);
limits that were pending stay so (R142), and a staging keeps its shadow. -/
def State.startGen (s : State) (n : Nat) : State :=
  let l := s.limitsOf n
  let v := s.rdI F.PG_INIT n
  let g := s.gen n
  let s := s.putGen n { g.restart v l.2.1 l.2.2 with jump := none }
  let s := ((s.wr F.PG_TARGET (s.rd F.PG_INIT n) n).wr F.PG_CTRL 1 n).wr F.PG_STATUS_RUNNING 1 n
  let s := (s.wr F.PG_STATUS_DONE 0 n).wr F.PG_STATUS_DWELL 0 n
  (if g.stTarget || g.stLimits then s else s.wrShadow n (s.rd F.PG_TARGET n) l).showGen n (sat32 v) 0

/-- A generator's enable taken away. -/
def State.stopGen (s : State) (n : Nat) : State :=
  ((s.wr F.PG_CTRL 0 n).wr F.PG_STATUS_RUNNING 0 n).wr F.PG_STATUS_DWELL 0 n

end Sys2Proof.Machine
end

