-- ==== Sys2Proof/Machine/AxisLaw.lean ====
section
/-! DEFINITION.  The arithmetic of an axis engine as functions of their inputs: interpolation,
stops and coil duties (06 R153, R155, R158). -/

namespace Sys2Proof.Machine

/-! ### Segments and stops (R153, R158) -/

/-- The factor between 1/256 steps and velocity times nanoseconds (R153). -/
def stepUnit : Nat := 256000000

/-- An integer divided by 2, truncated toward zero (R158). -/
def halfToZero (m : Int) : Int := if m < 0 then -((m.natAbs / 2 : Nat) : Int) else (m.natAbs / 2 : Nat)

/-- m0 or m1 of R153 for a velocity over a duration. -/
def segMoment (dur : Nat) (v : Int) : Int := rdivHalf (dur * v) stepUnit

/-- The instant at which a segment ends. -/
def AxSeg.ends (g : AxSeg) : Instant := addNs g.start g.dur

/-- Position and velocity of a segment at `t16` sixteenths after its start (R153). -/
def AxSeg.at16 (g : AxSeg) (t16 : Nat) : Int × Int :=
  if t16 = 0 then (g.p0, g.v0)
  else
    let m0 := segMoment g.dur g.v0
    let m1 := segMoment g.dur g.v1
    let dl := g.p1 - g.p0
    let a2 := 3 * dl - 2 * m0 - m1
    let a3 := -2 * dl + m0 + m1
    let s := rdivHalf (t16 * 2 ^ 32) (16 * g.dur)
    let acc := rshr (a3 * s) 32 + a2
    let acc := rshr (acc * s) 32 + m0
    let p := g.p0 + rshr (acc * s) 32
    let vn := rshr (3 * a3 * s) 32 + 2 * a2
    let vn := rshr (vn * s) 32 + m0
    let v := rdivHalf (vn * stepUnit) g.dur
    (if g.clamp then clampInt (min g.p0 g.p1) (max g.p0 g.p1) p else p, v)

/-- The state of a segment at an instant within it. -/
def AxSeg.stateAt (g : AxSeg) (t : Instant) : Int × Int := g.at16 (sinceS t g.start).toNat

/-- T of a stop from velocity `v` (R158). -/
def stopTime (period decel : Nat) (v : Int) : Nat :=
  let need := (v.natAbs * 1000000 + max 1 decel - 1) / max 1 decel
  (need + max 1 period - 1) / max 1 period * max 1 period

/-- The position at which a stop from (p, v) ends (R158, R159). -/
def stopEnd (period decel : Nat) (p v : Int) : Int := p + halfToZero (segMoment (stopTime period decel v) v)

/-- The stop segment from (p, v) at an instant (R158). -/
def stopSeg (period decel : Nat) (p v : Int) (at_ : Instant) : AxSeg :=
  ⟨at_, stopTime period decel v, p, v, stopEnd period decel p v, 0, true⟩

/-- The segment of a list whose span contains `t`, with its place in the list. -/
def segAt (t : Instant) : Nat → List AxSeg → Option (Nat × AxSeg)
  | _, [] => none
  | i, g :: rest => if earlier t g.ends then some (i, g) else segAt t (i + 1) rest

/-! ### Coil duties (R155) -/

/-- Entries 0 to 63 of the first quarter of SIN. -/
def sinQuarter0 : List Nat :=
  [0, 201, 402, 603, 804, 1005, 1206, 1407, 1608, 1809, 2009, 2210, 2410, 2611, 2811, 3012,
   3212, 3412, 3612, 3811, 4011, 4210, 4410, 4609, 4808, 5007, 5205, 5404, 5602, 5800, 5998, 6195,
   6393, 6590, 6786, 6983, 7179, 7375, 7571, 7767, 7962, 8157, 8351, 8545, 8739, 8933, 9126, 9319,
   9512, 9704, 9896, 10087, 10278, 10469, 10659, 10849, 11039, 11228, 11417, 11605, 11793, 11980, 12167, 12353]

/-- Entries 64 to 127 of the first quarter of SIN. -/
def sinQuarter1 : List Nat :=
  [12539, 12725, 12910, 13094, 13279, 13462, 13645, 13828, 14010, 14191, 14372, 14553, 14732, 14912, 15090, 15269,
   15446, 15623, 15800, 15976, 16151, 16325, 16499, 16673, 16846, 17018, 17189, 17360, 17530, 17700, 17869, 18037,
   18204, 18371, 18537, 18703, 18868, 19032, 19195, 19357, 19519, 19680, 19841, 20000, 20159, 20317, 20475, 20631,
   20787, 20942, 21096, 21250, 21403, 21554, 21705, 21856, 22005, 22154, 22301, 22448, 22594, 22739, 22884, 23027]

/-- Entries 128 to 191 of the first quarter of SIN. -/
def sinQuarter2 : List Nat :=
  [23170, 23311, 23452, 23592, 23731, 23870, 24007, 24143, 24279, 24413, 24547, 24680, 24811, 24942, 25072, 25201,
   25329, 25456, 25582, 25708, 25832, 25955, 26077, 26198, 26319, 26438, 26556, 26674, 26790, 26905, 27019, 27133,
   27245, 27356, 27466, 27575, 27683, 27790, 27896, 28001, 28105, 28208, 28310, 28411, 28510, 28609, 28706, 28803,
   28898, 28992, 29085, 29177, 29268, 29358, 29447, 29534, 29621, 29706, 29791, 29874, 29956, 30037, 30117, 30195]

/-- Entries 192 to 255 of the first quarter of SIN. -/
def sinQuarter3 : List Nat :=
  [30273, 30349, 30424, 30498, 30571, 30643, 30714, 30783, 30852, 30919, 30985, 31050, 31113, 31176, 31237, 31297,
   31356, 31414, 31470, 31526, 31580, 31633, 31685, 31736, 31785, 31833, 31880, 31926, 31971, 32014, 32057, 32098,
   32137, 32176, 32213, 32250, 32285, 32318, 32351, 32382, 32412, 32441, 32469, 32495, 32521, 32545, 32567, 32589,
   32609, 32628, 32646, 32663, 32678, 32692, 32705, 32717, 32728, 32737, 32745, 32752, 32757, 32761, 32765, 32766]

/-- Entries 256 to 256 of the first quarter of SIN. -/
def sinQuarter4 : List Nat :=
  [32767]

/-- An entry of the first quarter of SIN. -/
def sinAt (k : Nat) : Int :=
  ((sinQuarter0 ++ sinQuarter1 ++ sinQuarter2 ++ sinQuarter3 ++ sinQuarter4).getD k 0 : Nat)

/-- SIN[k] (R155): round(32,767 × sin(2πk ÷ 1,024)). -/
def sinTable (k : Nat) : Int :=
  let k := k % 1024
  if k ≤ 256 then sinAt k
  else if k ≤ 512 then sinAt (512 - k)
  else if k ≤ 768 then -sinAt (k - 512)
  else -sinAt (1024 - k)

/-- What the coil drive takes from the registers (R155). -/
structure CoilIn where
  iamp : Int
  rMohm : Int
  lUh : Int
  keUv : Int
  vbus : Int
  dutyMax : Int

/-- Currents, duties and the number of clamped duties of one evaluation (R155). -/
def coilDuty (c : CoilIn) (p v : Int) : Int × Int × Int × Int × Nat :=
  let k := ofSigned 10 p
  let sa := sinTable k
  let ca := sinTable (k + 256)
  let vsps := rshr (v * 1000) 16
  let ia := rshr (c.iamp * ca) 15
  let ib := rshr (c.iamp * sa) 15
  let mot := rdivHalf (c.lUh * c.iamp * vsps * 51472) (1000 * 32768) + c.keUv * vsps
  let va := c.rMohm * ia - rshr (mot * sa) 15
  let vb := c.rMohm * ib + rshr (mot * ca) 15
  let da := rdivHalf (va * 32768) (c.vbus * 1000).toNat
  let db := rdivHalf (vb * 32768) (c.vbus * 1000).toNat
  let da' := clampInt (-c.dutyMax) c.dutyMax da
  let db' := clampInt (-c.dutyMax) c.dutyMax db
  (ia, ib, da', db', b2n (da != da') + b2n (db != db'))

end Sys2Proof.Machine
end

