-- ==== Sys2Proof/Machine/TreadleOps.lean ====
section
/-! DEFINITION.  The operations of a Treadle: step time, staging, cancellation, pause, abort
(05 R121 to R139). -/

namespace Sys2Proof

open Machine

/-- A record of nothing, where a table has no such record. -/
def StepRec.none : StepRec := ⟨0, 0, 0, 0, [], 0, 0⟩
/-- A pool entry of zeros. -/
def PoolEntry.none : PoolEntry := ⟨0, 0, 0, 0, 0, 0⟩
/-- A condition of KIND NONE. -/
def EndCond.none : EndCond := ⟨0, 0, 0, 0, 0⟩

/-- Step `n` of a table. -/
def StepTable.step (t : StepTable) (n : Nat) : StepRec := t.steps[n]?.getD StepRec.none
/-- Pool entry `i` of a table. -/
def StepTable.entry (t : StepTable) (i : Nat) : PoolEntry := t.pool[i]?.getD PoolEntry.none
/-- The actions of step `n`, in pool order. -/
def StepTable.actions (t : StepTable) (n : Nat) : List PoolEntry :=
  (List.range (t.step n).actCount).map (fun i => t.entry ((t.step n).actFirst + i))

/-- The four 32-bit words of a pool entry (Table 5.5). -/
def PoolEntry.words (e : PoolEntry) : List Nat :=
  [e.opcode % 256 + 256 * (e.flags % 256) + 65536 * (e.target % 65536), e.arg0, e.arg1, e.arg2]
/-- The 16 bytes of a pool entry. -/
def PoolEntry.bytes (e : PoolEntry) : List Byte := (e.words.map (leBytes 4)).flatten
/-- The 16 bytes of an end condition (Table 5.4). -/
def EndCond.bytes (c : EndCond) : List Byte := leBytes 1 c.kind ++ leBytes 1 c.op ++ leBytes 2 c.next ++ leBytes 4 c.src ++ leBytes 8 c.arg
/-- The 128 bytes of a step record (Table 5.3). -/
def StepRec.bytes (r : StepRec) : List Byte :=
  leBytes 2 r.step ++ leBytes 2 r.flags ++ leBytes 2 r.actFirst ++ leBytes 2 r.actCount ++
  (List.range 4).flatMap (fun i => (r.ends.getD i EndCond.none).bytes) ++ leBytes 4 r.label ++ List.replicate 52 0
/-- The 4 KiB of a header (Table 5.2). -/
def StepTable.header (t : StepTable) : List Byte :=
  leBytes 4 t.magic ++ leBytes 2 t.format ++ leBytes 2 0 ++ leBytes 1 t.partition ++ leBytes 1 t.missReact ++ leBytes 2 t.stepCount ++
  leBytes 4 t.poolCount ++ leBytes 2 t.entryStep ++ leBytes 2 t.stopStep ++ leBytes 4 t.tickNs ++ leBytes 4 t.branchNs ++ leBytes 4 0 ++
  leBytes 4 t.version ++ leBytes 4 t.keyId ++ leBytes 8 t.built ++ leBytes 32 t.name ++ leBytes 48 t.beamDigest.toNat ++
  leBytes 48 t.bodyDigest.toNat ++ List.replicate 3664 0 ++ leBytes 96 t.signature ++ List.replicate 160 0

/-- The 24 words that an LC_LOAD takes from six consecutive entries (Table 5.7). -/
def StepTable.loadWords (t : StepTable) (i : Nat) : List Nat :=
  ((List.range 6).map (fun k => (t.entry (i + k)).words)).flatten

end Sys2Proof

namespace Sys2Proof.Machine

open Sys2Proof

/-- The Treadle of partition `p`. -/
def State.treadle (s : State) (p : Nat) : Treadle := s.treadles.get p Treadle.init
/-- The Treadle of partition `p` set. -/
def State.putTreadle (s : State) (p : Nat) (x : Treadle) : State := { s with treadles := s.treadles.set p x }

/-- SRAM address of the step-table region of partition `p` (R114, 18 R446). -/
def stepRegion (p : Nat) : Nat := 0x2200000 + 0x100000 * p

/-- An image copied into the step-table region of partition `p`, laid out as in Table 5.1 (R119); what the
image does not use is zero. -/
def State.copyTable (s : State) (p : Nat) (t : StepTable) : State :=
  let m := (s.sram.clear (stepRegion p) 0x100000).writeBytes (stepRegion p) t.header
  let m := m.writeBytes (stepRegion p + 0x1000) ((t.steps.take t.stepCount).flatMap StepRec.bytes)
  { s with sram := m.writeBytes (stepRegion p + 0x81000) ((t.pool.take t.poolCount).flatMap PoolEntry.bytes) }

/-- NEXT values that name no step (Table 5.4). -/
def nextStop : Nat := 0xFFFE
/-- NEXT = END. -/
def nextEnd : Nat := 0xFFFF

/-- TICK_NS of the loaded table. -/
def State.tickNs (s : State) (p : Nat) : Nat := max 1 (s.rd F.TR_TIMING_TICK_NS p)
/-- The current step of partition `p`'s Treadle. -/
def State.curStep (s : State) (p : Nat) : StepRec :=
  match (s.treadle p).table with
  | some t => t.step (s.rd F.TR_STEPS_CUR_STEP p)
  | none => StepRec.none

/-- τ in sixteenths of a nanosecond: the time since C less the time spent PAUSED, on top of the τ
with which the step began. -/
def State.tau (s : State) (p : Nat) : Nat :=
  let x := s.treadle p
  let since := (s.now - s.rdT F.TR_COMMIT p).toNat
  let here := match x.pausedAt with
    | some a => (s.now - a).toNat
    | none => 0
  since + x.credit - x.paused - here

/-- The first tick at or after an instant (R134, R137). -/
def tickFrom (tick : Nat) (t : Instant) : Instant :=
  if onGrid tick 0 t then t else nextGrid tick 0 t

/-! ### Records and events -/

/-- An EVENT record of a Treadle (07 Table 7.9): CUR_STEP, the step concerned and LABEL. -/
def State.treadleEvent (s : State) (p bit step : Nat) : State :=
  s.event p 3 p bit 0 0 (leBytes 2 (s.rd F.TR_STEPS_CUR_STEP p) ++ leBytes 2 step ++ leBytes 4 (s.rd F.TR_LABEL p))

/-- The STAGE record of a finished staging (07 Table 7.2, R190). -/
def stageRec (now : Instant) (t : StepTable) (step : Nat) : SkRec :=
  let acts := (t.actions step).map (fun a => a.bytes ++ if a.opcode = 2 then ((List.range 6).map (fun k => (t.entry (a.arg0 + k)).bytes)).flatten else [])
  { kind := 5, flags := 8, body := leBytes 2 step ++ leBytes 2 0 ++ leBytes 4 (t.step step).label ++ acts.flatten
    first := now, last := now, samples := [] }

/-- The CANCEL record (07 Table 7.2). -/
def cancelRec (now : Instant) (step reason : Nat) : SkRec :=
  { kind := 6, flags := 0, body := leBytes 2 step ++ leBytes 1 reason ++ List.replicate 5 0 ++ leBytes 8 now.toNat
    first := now, last := now, samples := [] }

/-- The COMMIT record (07 Table 7.2). -/
def commitRec (c : Instant) (step endIdx label : Nat) : SkRec :=
  { kind := 7, flags := 0, body := leBytes 2 step ++ leBytes 1 endIdx ++ [0] ++ leBytes 4 label ++ leBytes 8 c.toNat
    first := c, last := c, samples := [] }

/-! ### Staging (R124, R129) -/

/-- One action written into its shadow: an LC_FIELD that touches its cell first is preceded by
a COPY of the active bank. -/
def State.stageAction (s : State) (t : StepTable) (touched : List Nat) (a : PoolEntry) : State :=
  match a.opcode with
  | 1 =>
    let s := if touched.contains a.target then s else s.shadowReset a.target
    s.putShadow a.target ((s.shadow a.target).put ((a.arg0 - 0xA0) / 4) a.arg1)
  | 2 =>
    let ws := t.loadWords a.arg0
    s.putShadow a.target ((List.range 24).foldl (fun b k => b.put k (ws.getD k 0)) (s.shadow a.target))
  | 3 => s.stageGen a.target 3 a.arg0 a.arg1 a.arg2
  | 4 => s.stageGen a.target 4 a.arg0 a.arg1 a.arg2
  | 5 => s.stageGen a.target 5 a.arg0 a.arg1 a.arg2
  | _ => s

/-- The actions of a step written into their shadows, in pool order. -/
def State.stageActions (s : State) (t : StepTable) (touched : List Nat) : List PoolEntry → State
  | [] => s
  | a :: rest =>
    (s.stageAction t touched a).stageActions t (if a.opcode = 1 ∨ a.opcode = 2 then a.target :: touched else touched) rest

/-- The staging of step `n` begun (R124, R125). -/
def State.stage (s : State) (p n : Nat) : State :=
  match (s.treadle p).table with
  | none => s
  | some t =>
    let acts := t.actions n
    let cells := ((acts.filter (fun a => a.opcode == 1 || a.opcode == 2)).map (·.target)).eraseDups
    let gens := ((acts.filter (fun a => a.opcode == 3 || a.opcode == 4 || a.opcode == 5)).map (·.target)).eraseDups
    let s := s.stageActions t [] acts
    let s := s.putTreadle p { s.treadle p with staging := some ⟨n, s.now, false, false, cells, gens, false⟩ }
    (s.wr F.TR_STATUS_STAGE_STATE 1 p).wr F.TR_STEPS_STAGED_STEP 0xFFFF p

/-- A staging cancelled (R129): the shadows equal their active values again, and a CANCEL
record names the step.  REASON: 0 other branch, 1 abort, 2 partition reset, 3 END. -/
def State.cancelStaging (s : State) (p reason : Nat) : State :=
  match (s.treadle p).staging with
  | none => s
  | some x =>
    let s := s.putTreadle p { s.treadle p with staging := none }
    let s := (s.each x.cells State.shadowReset).each x.gens State.genShadowReset
    let s := ((s.wr F.TR_STEPS_STAGED_STEP 0xFFFF p).wr F.TR_STATUS_STAGE_STATE 0 p).wr F.TR_STATUS_DEFERRED 0 p
    ((s.bump F.TR_CANCEL_CNT p).wr F.TR_EVENT_CANCELLED 1 p).record p (cancelRec s.now x.step reason)

/-- What the Treadle has scheduled set; TR_NEXT shows a commit's instant. -/
def State.schedule (s : State) (p : Nat) (d : Option (Instant × DueKind)) : State :=
  let s := s.putTreadle p { s.treadle p with due := d }
  s.wrT F.TR_NEXT (match d with
    | some (t, .commit) => t
    | _ => 0) p

/-! ### Pause (R135, R136) -/

/-- The Treadle PAUSED from now on: τ stops and its generators hold. -/
def State.enterPause (s : State) (p : Nat) : State :=
  let s := s.putTreadle p { s.treadle p with pausedAt := some s.now }
  ((s.wr F.TR_STATUS_STATE 2 p).holdGens p true).settle

/-- The pause ended: τ runs again. -/
def State.leavePause (s : State) (p : Nat) : State :=
  let x := s.treadle p
  let gone := match x.pausedAt with
    | some a => (s.now - a).toNat
    | none => 0
  let s := s.putTreadle p { x with pausedAt := none, paused := x.paused + gone }
  ((s.wr F.TR_STATUS_STATE 1 p).holdGens p false).settle

/-- Pause cause `k` set (bit of PAUSE_CAUSE: 0 HOLD, 1 HOST, 2 MASK, 3 STEP): a RUNNING Treadle
pauses at once, or, after a decision, from its commit (R136). -/
def State.pauseCause (s : State) (p k : Nat) : State :=
  if s.rd F.TR_STATUS_STATE p = 1 ∨ s.rd F.TR_STATUS_STATE p = 2 then
    let s := s.wr F.TR_STATUS_PAUSE_CAUSE (withBit (s.rd F.TR_STATUS_PAUSE_CAUSE p) k) p
    if s.rd F.TR_STATUS_STATE p = 1 ∧ (s.treadle p).due = none then s.enterPause p else s
  else s

/-- Pause causes cleared (those of `mask`): PAUSED with none left, the Treadle runs again. -/
def State.clearPause (s : State) (p mask : Nat) : State :=
  let left := s.rd F.TR_STATUS_PAUSE_CAUSE p &&& (15 - mask)
  let s := s.wr F.TR_STATUS_PAUSE_CAUSE left p
  if s.rd F.TR_STATUS_STATE p = 2 ∧ left = 0 then s.leavePause p else s

/-! ### Abort, END and fault (R123, R137, R138) -/

/-- An abort now (R137): a scheduled commit is withdrawn, any staging cancelled, and STOP_STEP
staged on demand; ABORTING ignores it. -/
def State.abortTreadle (s : State) (p : Nat) : State :=
  if s.rd F.TR_STATUS_STATE p = 3 then s.wr F.TR_EVENT_ABORT_IGNORED 1 p
  else if s.rd F.TR_STATUS_STATE p = 0 then s
  else
    let s := s.cancelStaging p 1
    let s := if s.rd F.TR_STATUS_STATE p = 2 then s.leavePause p else s
    let s := (s.wr F.TR_STATUS_STATE 3 p).wr F.TR_STATUS_PAUSE_CAUSE 0 p
    let s := ((s.wr F.TR_DECIDE_DECIDED 0 p).wr F.TR_DECIDE_END_IDX 0 p).stage p (s.rd F.TR_ENTRY_STOP_STEP p)
    (s.schedule p (some (tickFrom (s.tickNs p) (addNs s.now (s.rd F.TR_TIMING_BRANCH_NS p)), .commit))).settle.runChange

/-- The Treadle IDLE: nothing scheduled, no pause; outputs keep the last step's values. -/
def State.idleTreadle (s : State) (p : Nat) : State :=
  let s := if s.rd F.TR_STATUS_STATE p = 0 then s else s.wr F.TR_TAU (s.tau p / 16) p
  let s := if s.rd F.TR_STATUS_STATE p = 2 then s.leavePause p else s
  let s := (s.wr F.TR_STATUS_STATE 0 p).wr F.TR_STATUS_PAUSE_CAUSE 0 p
  (((s.wr F.TR_STATUS_DEFERRED 0 p).wr F.TR_DECIDE_DECIDED 0 p).schedule p none).settle.runChange

/-- A boundary with NEXT = END (R123, Table 5.11). -/
def State.endTreadle (s : State) (p : Nat) : State :=
  let stop := s.rd F.TR_STATUS_STATE p == 3
  let s := (s.cancelStaging p 3).idleTreadle p
  if stop then s.wr F.TR_EVENT_STOP_DONE 1 p else s.wr F.TR_EVENT_END_REACHED 1 p

/-- A partition reset's effect on its Treadle (R131, Table 5.11). -/
def State.resetTreadle (s : State) (p : Nat) : State :=
  let s := (s.cancelStaging p 2).idleTreadle p
  s.putTreadle p { s.treadle p with valves := [], resume := none }

/-! ### Conditions (R121, R122) -/

/-- The value that a COMPARE reads (Table 5.6). -/
def State.condValue (s : State) (src : Nat) : Int :=
  let x := src % 2 ^ 14
  match src / 2 ^ 28 with
  | 0 => s.rdI F.VR_VALUE x
  | 1 => s.rdI F.LC_Y x
  | 2 => s.rdI F.LC_E x
  | 3 => s.rdI F.LC_U x
  | _ => s.rdI F.LC_YM x

/-- The comparison OP (Table 5.4). -/
def compareOp (op : Nat) (a b : Int) : Bool :=
  match op with
  | 0 => decide (b < a)
  | 1 => decide (b ≤ a)
  | 2 => decide (a < b)
  | 3 => decide (a ≤ b)
  | 4 => a == b
  | _ => a != b

/-- An event of a source of Table 5.6 seen by the Treadle of partition `p`: where its current step waits for
it, an EVENT latches and a COUNT counts (R121, R135). -/
def State.latchIn (s : State) (p srcKind id : Nat) : State :=
  if s.rd F.TR_STATUS_STATE p = 0 then s
  else
    s.each (List.range 4) (fun s i =>
      let c := (s.curStep p).ends.getD i EndCond.none
      if c.src = srcKind * 2 ^ 28 + id then
        if c.kind = 3 then s.wr F.TR_COND 1 (4 * p + i)
        else if c.kind = 4 ∧ srcKind = 0 then s.bump F.TR_COND (4 * p + i)
        else s
      else s)

/-- An event of a source of Table 5.6 seen by every Treadle. -/
def State.latchConds (s : State) (srcKind id : Nat) : State := s.each s.treadles.keys (fun s p => s.latchIn p srcKind id)

/-- PROFILES_DONE and AXES_DONE of the step in progress, latched where they have occurred since C (R121,
Table 5.6; R135 while PAUSED): every generator that the step moves has taken its target and reads DONE;
every axis that it started has finished its segments. -/
def State.latchDone (s : State) (p : Nat) : State :=
  let x := s.treadle p
  let done := fun n => s.on F.PG_STATUS_DONE n && (s.gen n).nextT.isNone && (s.gen n).jump.isNone
  let s := if x.moved.all done then s.latchIn p 1 0 else s
  if x.started.all x.finished.contains then s.latchIn p 2 0 else s

/-- Axis `n` of partition `p` has finished its segments. -/
def State.segmentsDone (s : State) (p n : Nat) : State :=
  (s.putTreadle p { s.treadle p with finished := n :: (s.treadle p).finished }).latchDone p

end Sys2Proof.Machine
end

