-- ==== Sys2Proof/Machine/SchedOps.lean ====
section
/-! DEFINITION.  The task scheduler: slots, flows, dispatch, queues, events and completion
(10). -/

namespace Sys2Proof

/-- A descriptor of nothing. -/
def TaskDesc.none : TaskDesc := ⟨0, 0, 0, 0, 0, 0, 0, 0, 0, 0, 0, [], 0, 0⟩
/-- FLAGS bits of Table 10.1. -/
def TaskDesc.idempotent (d : TaskDesc) : Bool := d.flags.testBit 0
/-- TOLERANT. -/
def TaskDesc.tolerant (d : TaskDesc) : Bool := d.flags.testBit 1
/-- SUPERVISOR. -/
def TaskDesc.supervisor (d : TaskDesc) : Bool := d.flags.testBit 2
/-- NOFLOW. -/
def TaskDesc.noflow (d : TaskDesc) : Bool := d.flags.testBit 3
/-- CQ_EN. -/
def TaskDesc.cqEn (d : TaskDesc) : Bool := d.flags.testBit 4

/-- CAUSE of a fault (10 Table 10.7). -/
def TaskCause.code : TaskCause → Nat
  | .illegal => 2 | .prot => 3 | .misalign => 4 | .residue => 16 | .parity => 17 | .decode => 18 | .ecc => 19
  | .dispatch _ => 0

/-- The descriptor that 64 bytes spell, given as a little-endian number (10 Table 10.1). -/
def TaskDesc.ofBytes (v : Nat) : TaskDesc :=
  let at_ := fun (off n : Nat) => Machine.bytesAt v off n
  { entry := at_ 0 4, arg0 := at_ 4 4, arg1 := at_ 8 4, prio := at_ 12 1, flags := at_ 13 1, flow := at_ 14 1, dep := at_ 15 1
    cq := at_ 16 1, retryMax := at_ 17 1, runMs := at_ 18 2, nsucc := at_ 20 1, succ := (List.range 8).map (fun i => at_ (24 + 4 * i) 4)
    tag := at_ 56 4, reserved := at_ 21 3 ||| at_ 60 4 }

/-- The 64 bytes of a descriptor (10 Table 10.1). -/
def TaskDesc.bytes (d : TaskDesc) : List Byte :=
  let w := Machine.leBytes
  w 4 d.entry ++ w 4 d.arg0 ++ w 4 d.arg1 ++ w 1 d.prio ++ w 1 d.flags ++ w 1 d.flow ++ w 1 d.dep ++ w 1 d.cq ++ w 1 d.retryMax ++
  w 2 d.runMs ++ w 1 d.nsucc ++ w 3 0 ++ ((List.range 8).map (fun i => w 4 (d.succ.getD i 0))).flatten ++ w 4 d.tag ++ w 4 0

/-- The 16 bytes of a queue entry (10 Table 10.5). -/
def QEntry.bytes (e : QEntry) : List Byte :=
  Machine.leBytes 1 e.type ++ Machine.leBytes 1 e.flags ++ Machine.leBytes 2 e.src ++ Machine.leBytes 4 e.w0 ++ Machine.leBytes 4 e.w1 ++ Machine.leBytes 4 e.w2

end Sys2Proof

namespace Sys2Proof.Machine

open Sys2Proof

/-- A task that holds no slot. -/
def Task.none : Task :=
  { partition := 0, desc := TaskDesc.none, phase := .ended, count := 0, poisoned := false, readyAt := 0, firstReady := 0, resume := false, retry := false, faultedOn := Option.none, retries := 0, cancelLate := false, cancelled := false, inflight := false, shuttle := Option.none, runFrom := 0, ran := 0, wait := Option.none, result := 0, flags := 0, context := Option.none, buffer := Option.none, outcome := (0, 0, 0), root := Option.none, scan := Option.none }

/-- The device flow of a task, none with NOFLOW (R247). -/
def Task.flow (x : Task) : Option Nat := if x.desc.noflow then Option.none else some (64 * x.partition + x.desc.flow)

/-! ### Parts of the state -/

/-- The scheduler changed by `f`. -/
def State.onSched (s : State) (f : Sched → Sched) : State := { s with sched := f s.sched }
/-- The task in slot `i`. -/
def State.task (s : State) (i : Nat) : Task := s.sched.tasks.get i Task.none
/-- Whether slot `i` is allocated. -/
def State.slotUsed (s : State) (i : Nat) : Bool := (s.sched.tasks.find i).isSome
/-- The task in slot `i` set. -/
def State.putTask (s : State) (i : Nat) (x : Task) : State := s.onSched (fun c => { c with tasks := c.tasks.set i x })
/-- The FIFO of flow `f`. -/
def State.flow (s : State) (f : Nat) : List Nat := s.sched.flows.get f []
/-- The FIFO of flow `f` set; PENDING shows its items. -/
def State.putFlow (s : State) (f : Nat) (l : List Nat) : State :=
  (s.onSched (fun c => { c with flows := c.flows.set f l })).wr F.FLOW_STATE_PENDING l.length f
/-- Queue `h`. -/
def State.queue (s : State) (h : Nat) : HwQueue := s.sched.queues.get h HwQueue.init
/-- Queue `h` set; HQ_DEPTH and HQ_MAXDEPTH follow. -/
def State.putQueue (s : State) (h : Nat) (x : HwQueue) : State :=
  let s := s.onSched (fun c => { c with queues := c.queues.set h x })
  (s.wr F.HQ_DEPTH x.entries.length h).wr F.HQ_MAXDEPTH (max (s.rd F.HQ_MAXDEPTH h) x.entries.length) h
/-- Shuttle `k`. -/
def State.shuttle (s : State) (k : Nat) : Shuttle := s.sched.shuttles.get k Shuttle.init
/-- Shuttle `k` set. -/
def State.putShuttle (s : State) (k : Nat) (x : Shuttle) : State := s.onSched (fun c => { c with shuttles := c.shuttles.set k x })
/-- The result of a queue instruction on Shuttle `k`, in its rd. -/
def State.answerShuttle (s : State) (k : Nat) (r : Int) : State := s.putShuttle k { s.shuttle k with result := r }
/-- A SCHED_EVENT bit set and recorded, for the partition concerned (07 R477). -/
def State.schedEvent (s : State) (p : Option Nat) (bit : Nat) : State := (s.setBit F.SCHED_EVENT bit).event (streamOf p) 11 (p.getD 0) bit

/-- The slot of the task that runs on Shuttle `k`, if it is running. -/
def State.runningOn (s : State) (k : Nat) : Option Nat :=
  if s.rd F.SH_STATUS_STATE k = 1 then some (s.rd F.SH_STATUS_SLOT k) else none

/-- The generation of slot `i`. -/
def State.generation (s : State) (i : Nat) : Nat := s.sched.gens.get i 0
/-- The handle of the task in slot `i`. -/
def State.handleOf (s : State) (i : Nat) : Nat := s.generation i * 2 ^ 12 + i
/-- The slot that a handle names, none when it is stale. -/
def State.slotOf (s : State) (h : Nat) : Option Nat :=
  if h < 2 ^ 31 ∧ s.slotUsed (h % 2 ^ 12) ∧ s.generation (h % 2 ^ 12) = h / 2 ^ 12 then some (h % 2 ^ 12) else none

/-- Whether partition `p`'s quota has a free slot (R252). -/
def State.slotFree (s : State) (p : Nat) : Bool :=
  decide (s.rd F.PS_USED p < s.rd F.PS_QUOTA p) && decide (s.sched.tasks.entries.length < 4096)

/-! ### The ready list (R253, R256) -/

/-- Slot `i` in the ready list; RDY_DEPTH counts it. -/
def State.enlist (s : State) (i : Nat) : State :=
  if s.sched.ready.contains i then s
  else (s.onSched (fun c => { c with ready := c.ready ++ [i] })).roll F.LVL_RDY_DEPTH (s.task i).desc.prio

/-- Slot `i` no longer in the ready list. -/
def State.unlist (s : State) (i : Nat) : State :=
  if s.sched.ready.contains i then
    let l := (s.task i).desc.prio
    (s.onSched (fun c => { c with ready := c.ready.filter (· != i) })).wr F.LVL_RDY_DEPTH (s.rd F.LVL_RDY_DEPTH l - 1) l
  else s

/-- The head of flow `f`'s FIFO enters the ready list where the flow is neither in service nor
held (R253). -/
def State.offerHead (s : State) (f : Nat) : State :=
  match s.flow f with
  | [] => s
  | i :: _ =>
    if s.on F.FLOW_STATE_IN_SERVICE f || s.on F.FLOW_STATE_HELD f || (s.task i).cancelled then s else s.enlist i

/-- A new task READY from now on (R250, R253). -/
def State.makeReady (s : State) (i : Nat) : State :=
  let s := s.putTask i { s.task i with phase := .ready, readyAt := s.now, firstReady := s.now }
  match (s.task i).flow with
  | some f => (s.putFlow f (s.flow f ++ [i])).offerHead f
  | none => s.enlist i

/-- A parked or yielded task READY as a resume, with the result of its instruction (R250). -/
def State.makeResume (s : State) (i : Nat) (r : Int) : State :=
  (s.putTask i { s.task i with phase := .ready, readyAt := s.now, resume := true, wait := none, result := r }).enlist i

/-! ### Slots (R246, R248, R252) -/

/-- The checks of R248 on a descriptor of partition `p` that do not depend on other tasks.  A FLOW above
63 is refused where it is not ignored: a descriptor names only its own partition's flows (R247; DEDUCED,
assumption 80). -/
def State.descOk (s : State) (p : Nat) (d : TaskDesc) (maySupervise : Bool) : Bool :=
  d.reserved == 0 && decide (d.prio < 64) && decide (d.retryMax < 4) && decide (d.nsucc ≤ 8) && decide (d.flags < 32) && (d.noflow || decide (d.flow < 64)) &&
  (d.succ.drop d.nsucc).all (· == 0) &&
  (!d.cqEn || (decide (d.cq < 128) && s.owner (queueKey d.cq) == some p && s.rd F.HQ_CFG_KIND d.cq != 2)) &&
  (!d.supervisor || maySupervise)

/-- The check of R248 on a successor handle. -/
def State.succOk (s : State) (p h : Nat) : Bool :=
  match s.slotOf h with
  | some i => (s.task i).partition == p && (s.task i).phase == .waiting && (s.task i).count != 0
  | none => false

/-- Whether a submission is accepted (R248). -/
def State.submitOk (s : State) (p : Nat) (d : TaskDesc) (maySupervise : Bool) : Bool :=
  s.descOk p d maySupervise && (d.succ.take d.nsucc).all (s.succOk p)

/-- The first free slot from `k` on, cyclically; `fuel` bounds the search. -/
def State.freeSlotFrom (s : State) : Nat → Nat → Nat
  | 0, k => k % 4096
  | fuel + 1, k => if s.slotUsed (k % 4096) then s.freeSlotFrom fuel (k + 1) else k % 4096

/-- A task created in a free slot of partition `p`: WAITING, or READY where its count is 0.
Which free slot it takes is not stated: a free value (notes/assumptions/1.md). -/
def State.createTask (s : State) (p : Nat) (d : TaskDesc) (root : Option Nat) (scan : Option Nat := root) : State × Nat :=
  let v := s.draw
  let s := v.2
  let i := s.freeSlotFrom 4096 v.1.toNat
  let g := match s.sched.gens.find i with
    | some g => (g + 1) % 2 ^ 19
    | none => 0
  let s := s.onSched (fun c => { c with gens := c.gens.set i g })
  let s := s.putTask i { Task.none with partition := p, desc := d, phase := .waiting, count := d.dep, root := root, scan := scan }
  let s := (s.wr F.PS_USED (s.rd F.PS_USED p + 1) p).wr F.SCHED_STATUS_FREE_SLOTS (s.rd F.SCHED_STATUS_FREE_SLOTS - 1)
  (if d.dep = 0 then s.makeReady i else s, i)

/-- The task in slot `i` no longer in flight (R255). -/
def State.landTask (s : State) (i : Nat) : State :=
  if (s.task i).inflight then (s.putTask i { s.task i with inflight := false }).wr F.SCHED_STATUS_INFLIGHT (s.rd F.SCHED_STATUS_INFLIGHT - 1)
  else s

/-- Slot `i` freed. -/
def State.freeTask (s : State) (i : Nat) : State :=
  let p := (s.task i).partition
  let s := (s.unlist i).landTask i
  let s := s.onSched (fun c => { c with tasks := c.tasks.erase i })
  (s.wr F.PS_USED (s.rd F.PS_USED p - 1) p).wr F.SCHED_STATUS_FREE_SLOTS (s.rd F.SCHED_STATUS_FREE_SLOTS + 1)

/-- A template of partition `p` instantiated with an argument (R248, R251); where it is not
installed, no task is created and TEMPLATE_MISS counts. -/
def State.instantiate (s : State) (p tpl arg : Nat) (root : Option Nat) : State × Bool :=
  match s.sched.templates.find tpl with
  | some d => ((s.createTask p { d with arg1 := arg } root).1, true)
  | none => ((s.schedEvent (some p) 6).bump F.SCHED_TEMPLATE_MISS_CNT, false)

/-! ### Queues (R258, R259, R262) -/

/-- Credits of queue `h`: its free entries, none without a QUEUE record. -/
def State.credits (s : State) (h : Nat) : Nat :=
  if (s.loom.records.find (queueKey h)).isNone then 0
  else 2 ^ s.rd F.HQ_CFG_DEPTH_LOG2 h - (s.queue h).entries.length

/-- The memory byte place of an address of a Shuttle's task (18 R451): 0 SRAM, 1 DRAM, 2 DLM. -/
def shuttlePlace (p sh a : Nat) : Option (Nat × Nat) :=
  if a < 0x60000 then some (0, 0x3A00000 + 0x60000 * p + a)
  else if 0x10000000 ≤ a ∧ a < 0x20000000 then some (1, 0x80000000 + 0x10000000 * p + (a - 0x10000000))
  else if 0xF0000000 ≤ a ∧ a < 0xF0008000 then some (2, 0x8000 * sh + (a - 0xF0000000))
  else none

/-- Bytes written at a place of `shuttlePlace`. -/
def State.storeAt (s : State) (place : Nat × Nat) (bs : List Byte) : State :=
  match place.1 with
  | 0 => { s with sram := s.sram.writeBytes place.2 bs }
  | 1 => { s with dram := s.dram.writeBytes place.2 bs }
  | _ => { s with dlm := s.dlm.writeBytes place.2 bs }

/-- Bytes stored at an address of partition `p`'s memory. -/
def State.partStore (s : State) (p a : Nat) (bs : List Byte) : State :=
  match shuttlePlace p 0 a with
  | some w => s.storeAt w bs
  | none => s

/-- `n` bytes at an address of partition `p`'s memory. -/
def State.partRead (s : State) (p a n : Nat) : List Byte :=
  match shuttlePlace p 0 a with
  | some (0, x) => s.sram.readBytes x n
  | some (1, x) => s.dram.readBytes x n
  | some (_, x) => s.dlm.readBytes x n
  | none => []

/-- WIN0 to WIN3 of partition `p`. -/
def State.windowsOf (s : State) (p : Nat) : List Window :=
  (List.range 4).map (fun i => ⟨s.rd F.WIN_BASE_BASE (4 * p + i), s.rd F.WIN_LIMIT (4 * p + i), s.rd F.WIN_BASE_ATTR (4 * p + i)⟩)

/-- Whether `n` bytes at an address lie in a window that Shuttle `sh` got at its dispatch, with attribute
bit `attr` (0 read, 1 write, 2 execute), or in the DLM (R244, 18 R451). -/
def State.windowOk (s : State) (sh a n attr : Nat) : Bool :=
  (decide (0xF0000000 ≤ a) && decide (a + n ≤ 0xF0008000)) ||
  (s.shuttle sh).windows.any (fun w => bitOf w.attr attr && decide (w.base * 4096 ≤ a) && decide (a + n ≤ (w.last + 1) * 4096))

/-- Bytes copied into the buffer of a task on Shuttle `sh`. -/
def State.fillBuffer (s : State) (p sh a : Nat) (bs : List Byte) : State :=
  match shuttlePlace p sh a with
  | some w => s.storeAt w bs
  | none => s

/-- An entry copied for the parked task in slot `i`: at once, or, where its buffer is in the local data
memory, when it resumes, on the Shuttle that it then gets (R243; assumption 80). -/
def State.deliver (s : State) (i a : Nat) (e : QEntry) : State :=
  let x := s.task i
  if 0xF0000000 ≤ a then s.putTask i { x with buffer := some (a, e.bytes) } else s.fillBuffer x.partition 0 a e.bytes

/-- SRAM address of the task and queue area (Table 10.2, 18 R446). -/
def taskArea : Nat := 0x1800000

/-- An entry written into queue `h`'s ring in the queue area, at the place that the count of entries
admitted before it gives (Table 10.2, R262). -/
def State.storeEntry (s : State) (h : Nat) (e : QEntry) : State :=
  let at_ := s.cfg (queueKey h) 4 4 + s.rd F.HQ_PUSH_CNT h % 2 ^ s.rd F.HQ_CFG_DEPTH_LOG2 h
  { s with sram := s.sram.writeBytes (taskArea + 0x140000 + 16 * at_) e.bytes }

/-- Template `k` installed or taken out, as its place in the template area shows (Table 10.2). -/
def State.putTemplate (s : State) (k : Nat) (d : Option TaskDesc) : State :=
  let s := s.onSched (fun c => { c with templates := match d with
      | some d => c.templates.set k d
      | none => c.templates.erase k })
  { s with sram := s.sram.writeBytes (taskArea + 0x120000 + 64 * k) ((d.map (·.bytes)).getD (List.replicate 64 0)) }

/-- The event of a queue that goes from empty to non-empty is signalled on this input; none for
0xFFFF. -/
def State.queueEvent (s : State) (h : Nat) : Option Nat :=
  if s.rd F.HQ_CFG_EVENT h = 0xFFFF then none else some (s.rd F.HQ_CFG_EVENT h)

/-- What a queue does while it can: a waiting QPOP takes the oldest entry, a waiting producer
takes a credit; `fuel` bounds it.  Slots whose completion entry went in are answered. -/
def State.serveQueue (s : State) (h : Nat) : Nat → List Nat → State × List Nat
  | 0, done => (s, done)
  | fuel + 1, done =>
    let q := s.queue h
    match q.entries, q.poppers with
    | e :: es, i :: is =>
      let s := s.putQueue h { q with entries := es, poppers := is }
      let a := match (s.task i).wait with
        | some (.entry _ a, _) => a
        | _ => 0
      ((s.deliver i a e).makeResume i 0).serveQueue h fuel done
    | _, _ =>
      if s.credits h = 0 then (s, done)
      else
        match q.pushers with
        | [] => (s, done)
        | .task i :: rest =>
          let e := match (s.task i).wait with
            | some (.credit _ e, _) => e
            | _ => ⟨0, 0, 0, 0, 0, 0⟩
          let s := (s.putQueue h { q with entries := q.entries ++ [e], pushers := rest }).storeEntry h e
          ((s.roll F.HQ_PUSH_CNT h).makeResume i 0).serveQueue h fuel done
        | .completion i :: rest =>
          let x := s.task i
          let e : QEntry := ⟨1, b2n x.cancelLate + 2 * b2n x.poisoned + 4 * b2n (x.retries != 0), x.outcome.1 + 256 * x.outcome.2.1, s.handleOf i, x.desc.tag, x.outcome.2.2⟩
          let s := (s.putQueue h { q with entries := q.entries ++ [e], pushers := rest }).storeEntry h e
          (s.roll F.HQ_PUSH_CNT h).serveQueue h fuel (done ++ [i])

/-! ### Claimants and events (R251, R252, 09 R217) -/

/-- The FIFO of an event input's source. -/
def State.fifo (s : State) (k : Nat) : List Nat := s.sched.fifos.get k []
/-- The FIFO set. -/
def State.putFifo (s : State) (k : Nat) (l : List Nat) : State := s.onSched (fun c => { c with fifos := c.fifos.set k l })
/-- The events that a source holds for a full FIFO. -/
def State.heldEvents (s : State) (k : Nat) : List Nat := s.sched.held.get k []
/-- The held events set. -/
def State.putHeld (s : State) (k : Nat) (l : List Nat) : State := s.onSched (fun c => { c with held := c.held.set k l })
/-- The event input that FIFO `k` feeds: a route's SCHED field, or a queue's signal. -/
def State.inputOf (s : State) (k : Nat) : Nat := if k < 8192 then s.cfg (erKey k) 4 2 else k - 8192
/-- The partition of an input's template. -/
def State.inputPart (s : State) (e : Nat) : Nat := s.rd F.EVT_BIND_TEMPLATE e / 64

/-- A claimant that begins to wait. -/
def State.addClaim (s : State) (p : Nat) (c : Claim) : State := s.onSched (fun x => { x with claims := x.claims ++ [(p, c)] })

/-- An event that finds room in FIFO `k`. -/
def State.enterFifo (s : State) (k data : Nat) : State :=
  (s.putFifo k (s.fifo k ++ [data])).addClaim (s.inputPart (s.inputOf k)) (.event k)

/-- The oldest event of FIFO `k` taken: discarded and counted where the binding is disabled,
else a task of its template; a held event then enters the FIFO. -/
def State.takeEvent (s : State) (k : Nat) : State :=
  match s.fifo k with
  | [] => s
  | data :: rest =>
    let e := s.inputOf k
    let s := s.putFifo k rest
    let s :=
      if s.on F.EVT_BIND_EN e then (s.instantiate (s.inputPart e) (s.rd F.EVT_BIND_TEMPLATE e) data none).1
      else (s.schedEvent (some (s.inputPart e)) 5).bump F.SCHED_EVT_UNBOUND_CNT
    match s.heldEvents k with
    | [] => s
    | d :: more => (s.putHeld k more).enterFifo k d

/-- A claim served with a free slot of partition `p` (R252). -/
def State.serveClaim (s : State) (p : Nat) : Claim → State
  | .qsub i =>
    let x := s.task i
    match x.wait with
    | some (.slot d, _) =>
      if s.submitOk p d x.desc.supervisor then
        let r := s.createTask p d none x.scan
        r.1.makeResume i (r.1.handleOf r.2)
      else s.makeResume i (-3)
    | _ => s
  | .spawn =>
    match (s.treadle p).spawns with
    | [] => s
    | (tpl, arg) :: rest =>
      let s := s.putTreadle p { s.treadle p with spawns := rest }
      let r := s.instantiate p tpl arg none
      if r.2 then r.1 else (r.1.wr F.TR_EVENT_SPAWN_DROP 1 p).treadleEvent p 9 (s.rd F.TR_STEPS_CUR_STEP p)
  | .root k => (s.instantiate p (64 * p + s.rd F.CT_CFG_TEMPLATE k) (s.rd F.CT_SCAN k % 2 ^ 32) (some k)).1
  | .event k => s.takeEvent k

/-- Claims served while partition `p` has a free slot, in the order in which they began to
wait; `fuel` bounds it. -/
def State.serveClaims (s : State) (p : Nat) : Nat → State
  | 0 => s
  | fuel + 1 =>
    if s.slotFree p then
      match s.sched.claims.find? (fun c => c.1 == p) with
      | none => s
      | some c => ((s.onSched (fun x => { x with claims := x.claims.erase c })).serveClaim p c.2).serveClaims p fuel
    else s

/-- The claims of partition `p` served. -/
def State.serve (s : State) (p : Nat) : State := s.serveClaims p (s.sched.claims.length + 1)

/-- The partition of the source of event route `er` (09 Table 9.9); that of the route where the source
is a program or the scheduler. -/
def State.sourcePart (s : State) (er : Nat) : Option Nat :=
  let src := s.cfg (erKey er) 0 4
  let x := src % 2 ^ 28
  match src / 2 ^ 28 with
  | 0 => s.owner (pinKey (x % 2 ^ 26))
  | 1 => s.owner (leKey (x % 2 ^ 26))
  | 2 => s.owner (loopKey x)
  | 3 => s.owner (axisKey x)
  | 4 => some x
  | 5 => s.owner (maskKey x)
  | 6 => s.owner (csetKey x)
  | _ => s.owner (erKey er)

/-- An event for the scheduler on FIFO `k` (R251, 09 R217): taken with a free slot, kept in the
FIFO of 4, held by its source, or lost; a waiting source (the scheduler, a program) holds any
number. -/
def State.offerEvent (s : State) (k data : Nat) (waits : Bool) : State :=
  let e := s.inputOf k
  if !s.on F.EVT_BIND_EN e && (s.fifo k).isEmpty then (s.schedEvent (some (s.inputPart e)) 5).bump F.SCHED_EVT_UNBOUND_CNT
  else if (s.fifo k).length < 4 then
    let s := s.enterFifo k data
    let s := s.when (s.on F.EVT_BIND_EN e) (·.serve (s.inputPart e))
    if (s.fifo k).isEmpty then s else s.internalWake 1
  else if waits || (s.heldEvents k).isEmpty then s.putHeld k (s.heldEvents k ++ [data])
  else ((s.bump F.LOOM_EVT_OVF).wr F.LOOM_OVF_ROUTE k).loomEvent (streamOf (s.sourcePart k)) k 4

/-- An event for the scheduler on event route `er`. -/
def State.schedPut (s : State) (er data : Nat) : State :=
  s.offerEvent er data (s.cfg (erKey er) 0 4 / 2 ^ 28 == 7)

/-- An entry admitted to queue `h`, which has a credit (R262): waiting consumers and producers
are served, and a queue that was empty signals its event input. -/
def State.admitEntry (s : State) (h : Nat) (e : QEntry) : State × List Nat :=
  let q := s.queue h
  let s := ((s.putQueue h { q with entries := q.entries ++ [e] }).storeEntry h e).roll F.HQ_PUSH_CNT h
  let s := if q.entries.isEmpty && s.rd F.HQ_CFG_KIND h == 1 then s.interrupt (66 + h) else s
  let s := match q.entries, s.queueEvent h with
    | [], some input => s.offerEvent (8192 + input) 0 true
    | _, _ => s
  s.serveQueue h (q.pushers.length + q.poppers.length + 2) []

/-! ### Shuttles and dispatch (R245, R254 to R257) -/

/-- The load of Shuttle `k` counted up to now: at the end of a 1 ms window SH_LOAD takes the
fraction in which it ran. -/
def State.countLoad (s : State) (k : Nat) : State :=
  let x := s.shuttle k
  let now := nsOf s.now
  let w := now / 1000000
  let on := s.rd F.SH_STATUS_STATE k == 1
  let into := now % 1000000
  let elapsed := (sinceNs s.now x.counted).toNat
  let fresh := if on then min elapsed into else 0
  if w = x.window then s.putShuttle k { x with busy := x.busy + fresh, counted := s.now }
  else
    let ended := if elapsed ≤ into + 1000000 then x.busy + (if on then elapsed - into else 0) else if on then 1000000 else 0
    (s.putShuttle k { x with window := w, busy := fresh, counted := s.now }).wr F.SH_LOAD (min 0xFFFF (ended * 65536 / 1000000)) k

/-- STATE and SLOT of Shuttle `k` set. -/
def State.putShState (s : State) (k st slot : Nat) : State := ((s.countLoad k).wr F.SH_STATUS_STATE st k).wr F.SH_STATUS_SLOT slot k

/-- Shuttle `k` may run tasks of partition `p` (R245). -/
def State.eligible (s : State) (k p : Nat) : Bool :=
  s.rd F.SH_STATUS_STATE k != 3 && (!s.on F.SH_STATUS_RESERVED k || s.rd F.SH_STATUS_RES_PART k == p) &&
  (!s.on F.PS_CFG p || (s.on F.SH_STATUS_RESERVED k && s.rd F.SH_STATUS_RES_PART k == p))

/-- The Shuttle that a ready task would take, if any (R256). -/
def State.placeFor (s : State) (i : Nat) : Option Nat :=
  let x := s.task i
  let all := (List.range 48).filter (fun k => s.eligible k x.partition)
  let idle := fun k => s.rd F.SH_STATUS_STATE k == 0
  if !(x.resume || x.retry) && (x.flow.any (fun f => s.on F.FLOW_STATE_IN_SERVICE f || s.on F.FLOW_STATE_HELD f) || 1024 ≤ s.rd F.SCHED_STATUS_INFLIGHT) then none
  else if x.retry && all.any (fun k => some k != x.faultedOn) then (all.filter (fun k => some k != x.faultedOn)).find? idle
  else all.find? idle

/-- Slots in order of ready instant, those of one instant in order of admission. -/
def insertReady (s : State) (i : Nat) : List Nat → List Nat
  | [] => [i]
  | j :: rest => if earlier (s.task i).readyAt (s.task j).readyAt then i :: j :: rest else j :: insertReady s i rest

/-- The ready list of level `l` in dispatch order. -/
def State.levelList (s : State) (l : Nat) : List Nat :=
  (s.sched.ready.filter (fun i => (s.task i).desc.prio == l)).foldl (fun acc i => insertReady s i acc) []

/-- The first task of R256's search with the Shuttle it takes. -/
def State.nextPair (s : State) : Option (Nat × Nat) :=
  ((List.range 64).flatMap s.levelList).findSome? (fun i => (s.placeFor i).map (fun k => (i, k)))

/-- The histogram bucket of a waiting time in ns. -/
def waitBucket (ns : Nat) : Nat := min 15 (Nat.log2 (2 * (ns / 1000) + 1))

/-- The waiting time of a new task recorded (R257): the histogram and the average of the last
second of its level. -/
def State.noteWait (s : State) (l ns : Nat) : State :=
  let s := s.bump F.LVL_HIST (16 * l + waitBucket ns)
  let keep := (s.sched.waits.get l []).filter (fun e => decide (sinceNs s.now e.1 < 1000000000)) ++ [(s.now, ns)]
  let s := s.onSched (fun c => { c with waits := c.waits.set l keep })
  s.wr F.LVL_WAIT_AVG ((keep.map (·.2)).sum / keep.length) l

/-- x1 to x31 at the start of a task (R257): a0 to a3 hold its arguments, its handle and the dispatch
flags. -/
def startRegs (d : TaskDesc) (handle flags : Nat) : List Nat :=
  (List.range 31).map (fun i => if i = 9 then d.arg0 else if i = 10 then d.arg1 else if i = 11 then handle else if i = 12 then flags else 0)

/-- A task dispatched to a Shuttle (R257): the registers, the windows and the user mode of the Shuttle. -/
def State.startTask (s : State) (i k : Nat) : State :=
  let x := s.task i
  let s := (s.unlist i).putShState k 1 i
  let flags := if x.resume then x.flags else b2n x.poisoned + 2 * b2n x.retry
  let ctx := if x.resume then x.context.getD (x.desc.entry, []) else (x.desc.entry, startRegs x.desc (s.handleOf i) flags)
  let s := s.putShuttle k { s.shuttle k with
    result := if x.resume then x.result else 0, flags := flags, machine := false, pc := ctx.1, x := ctx.2, qtmo := 0, windows := s.windowsOf x.partition }
  let s := match x.buffer with
    | some (a, bs) => s.fillBuffer x.partition k a bs
    | none => s
  let s := s.putTask i { x with
    phase := .running, shuttle := some k, runFrom := s.now, resume := false, retry := false, inflight := true, result := 0, flags := flags
    context := none, buffer := none, ran := if x.retry then 0 else x.ran }
  if x.resume || x.retry then s
  else
    let s := (s.roll F.SCHED_DISPATCH_CNT).wr F.SCHED_STATUS_INFLIGHT (s.rd F.SCHED_STATUS_INFLIGHT + 1)
    let s := match x.flow with
      | some f => (s.putFlow f ((s.flow f).filter (· != i))).wr F.FLOW_STATE_IN_SERVICE 1 f
      | none => s
    s.noteWait x.desc.prio (sinceNs s.now x.readyAt).toNat

/-- dispatch() of R256; `fuel` bounds its repetitions. -/
def State.dispatchLoop (s : State) : Nat → State
  | 0 => s
  | fuel + 1 =>
    match s.nextPair with
    | some (i, k) => (s.startTask i k).dispatchLoop fuel
    | none => s

/-- The dispatcher run until no pair remains (R256).  In IDLE a ready task wakes the Shuttles
(16 R401); in a deeper state it is an internal wake, and nothing is dispatched. -/
def State.dispatch (s : State) : State :=
  if s.sched.ready.isEmpty then s.idleCheck
  else if 2 ≤ s.rd F.PWR_STATUS_STATE then s.internalWake 1
  else ((s.putPwrState 0).internalWake 1).dispatchLoop 49

/-- The task that runs on Shuttle `k` off it: the running time counted, its registers in its park
context, the Shuttle idle in its runtime. -/
def State.leaveShuttle (s : State) (k i : Nat) (st : Nat := 0) : State :=
  let x := s.task i
  let h := s.shuttle k
  let s := s.putTask i { x with ran := x.ran + (s.now - x.runFrom).toNat, context := some (h.pc, h.x) }
  (s.putShuttle k { h with machine := true, windows := [] }).putShState k st 0

/-! ### Completion (R253, R261, R263, R264) -/

/-- An item of work: a slot that completes, with STATUS, CAUSE and code. -/
abbrev Ending := Nat × Nat × Nat × Nat

/-- Whether an ERROR of this cause holds its flow (Table 10.7). -/
def holdsFlow (cause : Nat) : Bool := (decide (2 ≤ cause) && decide (cause ≤ 5)) || (decide (16 ≤ cause) && decide (cause ≤ 19))

/-- Flow `f` held with a cause (R264). -/
def State.holdFlow (s : State) (f cause : Nat) : State :=
  let s := ((s.wr F.FLOW_STATE_HELD 1 f).wr F.FLOW_STATE_HELD_CAUSE cause f).schedEvent (some (f / 64)) 2
  s.wr F.PS_HELD (withBit (s.rd F.PS_HELD (f / 64)) (f % 64)) (f / 64)

/-- The head of flow `f` where it was cancelled and every earlier item has completed (R261). -/
def State.cancelledHead (s : State) (f : Nat) : List Ending :=
  match s.flow f with
  | i :: _ => if (s.task i).cancelled && !s.on F.FLOW_STATE_IN_SERVICE f then [(i, 2, 32, 0)] else []
  | [] => []

/-- A completion's mark on one successor (R253): what completes in its turn. -/
def State.notifyOne (s : State) (p h : Nat) (poison : Bool) : State × List Ending :=
  match s.slotOf h with
  | some j =>
    let y := s.task j
    if y.partition = p ∧ y.phase = .waiting ∧ y.count ≠ 0 then
      let y := { y with count := y.count - 1, poisoned := y.poisoned || poison }
      let s := s.putTask j y
      if y.count ≠ 0 then (s, [])
      else if y.poisoned && !y.desc.tolerant then (s.bump F.SCHED_POISON_CNT, [(j, 2, 33, 0)])
      else (s.makeReady j, [])
    else (s, [])
  | none => (s, [])

/-- The successors of a completion, in SUCC order. -/
def State.notifyAll (s : State) (p : Nat) (poison : Bool) : List Nat → State × List Ending
  | [] => (s, [])
  | h :: rest =>
    let r := s.notifyOne p h poison
    let q := r.1.notifyAll p poison rest
    (q.1, r.2 ++ q.2)

/-- The slots whose completion entries have gone in, freed, and their claimants served. -/
def State.freeAll (s : State) (l : List Nat) : State :=
  s.each l (fun s i => let p := (s.task i).partition; (s.freeTask i).serve p)

/-- One completion (R250, R253, R261, R264): flow, successors, completion entry, slot. -/
def State.endOne (s : State) (e : Ending) : State × List Ending :=
  let i := e.1
  let x := s.task i
  let s := (s.unlist i).landTask i
  let s := match x.flow with
    | some f =>
      let s := s.putFlow f ((s.flow f).filter (· != i))
      let s := if x.inflight then s.wr F.FLOW_STATE_IN_SERVICE 0 f else s
      if e.2.1 = 1 ∧ holdsFlow e.2.2.1 then s.holdFlow f e.2.2.1 else s.offerHead f
    | none => s
  let next := match x.flow with
    | some f => s.cancelledHead f
    | none => []
  let r := s.notifyAll x.partition (e.2.1 != 0) (x.desc.succ.take x.desc.nsucc)
  let s := match x.root with
    | some k => r.1.onSched (fun c => { c with rootEnds := c.rootEnds.set k e.2.1 })
    | none => r.1
  let s := s.putTask i { s.task i with phase := .ended, outcome := (e.2.1, e.2.2.1, e.2.2.2) }
  let s :=
    if x.desc.cqEn then
      let h := x.desc.cq
      let q := s.queue h
      let s := if s.credits h = 0 then s.bump F.HQ_BUSY_CNT h else s
      let was := q.entries.isEmpty && q.pushers.isEmpty
      let s := s.putQueue h { q with pushers := q.pushers ++ [.completion i] }
      let done := s.serveQueue h (q.pushers.length + q.poppers.length + 3) []
      let first := was && !done.2.isEmpty
      let s := done.1.when (first && done.1.rd F.HQ_CFG_KIND h == 1) (·.interrupt (66 + h))
      let s := match s.queueEvent h with
        | some input => s.when first (·.offerEvent (8192 + input) 0 true)
        | none => s
      s.freeAll done.2
    else s.freeAll [i]
  (s, r.2 ++ next)

/-- Completions, each with those that follow from it; `fuel` bounds their number. -/
def State.endings (s : State) : Nat → List Ending → State
  | 0, _ => s
  | _ + 1, [] => s
  | fuel + 1, e :: rest =>
    if s.slotUsed e.1 && (s.task e.1).phase != .ended then
      let r := s.endOne e
      r.1.endings fuel (rest ++ r.2)
    else s.endings fuel rest

/-- The completion of the task in slot `i`, what follows from it, and the dispatcher. -/
def State.complete (s : State) (i status cause code : Nat) : State :=
  (s.endings (2 * s.sched.tasks.entries.length + 2) [(i, status, cause, code)]).dispatch

/-- What a command has changed brought to an end: claimants of every partition, cancelled heads
and the dispatcher. -/
def State.settleFlow (s : State) (f : Nat) : State :=
  ((s.endings (2 * s.sched.tasks.entries.length + 2) (s.cancelledHead f)).offerHead f).dispatch

/-- An entry pushed on a queue that has a credit, and what follows from it. -/
def State.pushEntry (s : State) (h : Nat) (e : QEntry) : State :=
  let r := s.admitEntry h e
  r.1.freeAll r.2

/-- The oldest entry of queue `h` taken, its credit freed and given to who waits for one. -/
def State.popEntry (s : State) (h : Nat) : State :=
  let q := s.queue h
  let r := (s.putQueue h { q with entries := q.entries.drop 1 }).serveQueue h (q.pushers.length + 1) []
  r.1.freeAll r.2

/-! ### Cancelling and releasing (R260, R261, R264) -/

/-- A cancel of the task in slot `i` (R260): whether it won. -/
def State.cancelSlot (s : State) (i : Nat) : State × Bool :=
  let x := s.task i
  if x.phase = .waiting then ((s.bump F.SCHED_CANCEL_CNT).complete i 2 32 0, true)
  else if x.phase = .ready ∧ !x.inflight then
    let s := (s.bump F.SCHED_CANCEL_CNT).unlist i
    match x.flow with
    | some f => ((s.putTask i { x with cancelled := true }).settleFlow f, true)
    | none => (s.complete i 2 32 0, true)
  else if x.phase = .ended then (s, false)
  else ((s.putTask i { x with cancelLate := true }).bump F.SCHED_CANCEL_LATE_CNT, false)

/-- A cancel by handle from partition `p`: the result of R260. -/
def State.cancelHandle (s : State) (p h : Nat) : State × Int :=
  match s.slotOf h with
  | none => (s, -4)
  | some i =>
    if (s.task i).partition ≠ p then (s, -3)
    else
      let r := s.cancelSlot i
      (r.1, if r.2 then 0 else 1)

/-- Flow `f` released (R264): with DROP every item of its FIFO is cancelled first. -/
def State.releaseFlow (s : State) (f : Nat) (drop : Bool) : State :=
  let s := (s.wr F.FLOW_STATE_HELD 0 f).wr F.FLOW_STATE_HELD_CAUSE 0 f
  let s := s.wr F.PS_HELD (putBit (s.rd F.PS_HELD (f / 64)) (f % 64) false) (f / 64)
  let s := if drop then s.each ((s.flow f).filter (fun i => !(s.task i).cancelled)) (fun s i => (s.putTask i { s.task i with cancelled := true }).bump F.SCHED_CANCEL_CNT) else s
  s.settleFlow f

/-! ### Spawns and partition reset (R132, R266) -/

/-- A spawn of a commit (05 R132): a task at once where a slot is free and no claimant waits,
else it waits with its credit; without a credit it is lost. -/
def State.spawnTask (s : State) (p tpl arg : Nat) : State :=
  let x := s.treadle p
  if 64 ≤ x.spawns.length then (s.wr F.TR_EVENT_SPAWN_DROP 1 p).treadleEvent p 9 (s.rd F.TR_STEPS_CUR_STEP p)
  else (((s.putTreadle p { x with spawns := x.spawns ++ [(tpl, arg)] }).addClaim p .spawn).serve p).dispatch

/-- The event FIFOs of partition `p`'s routes emptied (09 R217). -/
def State.emptyFifos (s : State) (p : Nat) : State :=
  s.each s.sched.fifos.keys (fun s k =>
    if k < 8192 ∧ s.owner (erKey k) = some p then
      let n := (s.fifo k).length + (s.heldEvents k).length
      ((s.putFifo k []).putHeld k []).bump F.LOOM_EVT_OVF 0 n
    else s)

/-- Queue `h` emptied by a partition reset (R266). -/
def State.emptyQueue (s : State) (h : Nat) : State :=
  let q := s.queue h
  (s.putQueue h HwQueue.init).wr F.HQ_DISCARD (s.rd F.HQ_DISCARD h + q.entries.length) h

/-- The scheduler's part of a partition reset (R266): the partition's tasks, spawns and queue
entries are discarded and counted, its flows cleared. -/
def State.resetTasks (s : State) (p : Nat) : State :=
  let mine := s.sched.tasks.keys.filter (fun i => (s.task i).partition == p)
  let queues := (List.range 128).filter (fun h => s.owner (queueKey h) == some p)
  let n := mine.length + ((queues.map (fun h => (s.queue h).entries.length)).sum) + (s.treadle p).spawns.length
  let s := s.each mine (fun s i =>
    let s := match (s.task i).phase, (s.task i).shuttle with
      | .running, some k => s.leaveShuttle k i
      | _, _ => s
    s.freeTask i)
  let s := s.each queues State.emptyQueue
  let s := s.putTreadle p { s.treadle p with spawns := [] }
  let s := s.onSched (fun c => { c with claims := c.claims.filter (fun e => e.1 != p) })
  let s := s.emptyFifos p
  let s := s.each ((List.range 64).map (64 * p + ·)) (fun s f =>
    if s.sched.flows.find f = none then s
    else (((s.putFlow f []).wr F.FLOW_STATE_IN_SERVICE 0 f).wr F.FLOW_STATE_HELD 0 f).wr F.FLOW_STATE_HELD_CAUSE 0 f)
  let s := s.wr F.PS_HELD 0 p
  let s := if n = 0 then s else (s.bump F.PS_DISCARD_CNT p n).schedEvent (some p) 3
  s.dispatch

end Sys2Proof.Machine
end

