-- ==== Sys2Proof/Machine/RingOps.lean ====
section
/-! DEFINITION.  The operations of a field ring: its Selvage pair, byte spaces, cycle, stations
and mailbox (12). -/

namespace Sys2Proof.Machine

open Sys2Proof

/-- A ring event set. -/
def State.ringEvent (s : State) (r bit : Nat) : State := s.setBit F.RING_EVENT bit r

/-- A ring event set and recorded in the system stream (07 Table 7.9). -/
def State.ringRecord (s : State) (r bit : Nat) (res : Nat := 0) (detail : List Byte := []) : State :=
  (s.ringEvent r bit).event sysStream 13 r bit 0 res detail

/-! ### The Selvage pair (R312, R313) -/

/-- Whether EN, power and both lanes allow ring `r`'s pair to open (R312). -/
def State.ringMayOpen (s : State) (r : Nat) : Bool :=
  s.on F.RING_CTRL_EN r && decide (s.rd F.PWR_STATUS_STATE ≤ 1) && (s.ring r).laneF && (s.ring r).laneR

/-- A switch transition of ring `r` (R313), at which its witness lapses (14 R358). -/
def State.switchPair (s : State) (r : Nat) (closed : Bool) : State :=
  if s.on F.RING_STATUS_BYPASSED r = closed then s
  else (((s.wr F.RING_STATUS_BYPASSED (b2n closed) r).bump F.RING_BREAK_CNT_SEL_CNT r).ringEvent r 12).lapseWitness r

/-- The stations of ring `r` that its break leaves to the reverse path: those from `hop` on
(R310). -/
def State.feedReverse (s : State) (r hop : Nat) : State :=
  s.each (List.range (s.ring r).descs.length) (fun s i => s.wr F.RS_ST_STATUS_REVERSE_FED (b2n (decide (hop ≤ i))) (128 * r + i))

/-- A break past the first `hop` stations (R310). -/
def State.noteBreak (s : State) (r hop : Nat) : State := (s.wr F.RING_STATUS_BREAK_POS (min 255 hop) r).feedReverse r hop

/-- The ring in BYPASS: its pair closed, nothing awaited. -/
def State.bypassRing (s : State) (r : Nat) : State :=
  let x := s.ring r
  let s := (s.switchPair r true).wr F.RING_STATUS_STATE 0 r
  let s := (s.wr F.RING_STATUS_BROKEN 0 r).feedReverse r 128
  s.putRing r { x with cycleAt := none, copyF := none, copyR := none, startDue := false, healDue := false, enumDone := false }

/-- The ring's state after a condition of R312 changed: inserting where all hold, BYPASS where
one has ceased. -/
def State.syncRing (s : State) (r : Nat) : State :=
  if s.ringMayOpen r then
    if s.rd F.RING_STATUS_STATE r = 0 ∧ !(s.ring r).failed then
      ((s.switchPair r false).wr F.RING_STATUS_STATE 1 r).putRing r { s.ring r with insertAt := s.now }
    else s
  else
    let s := if s.rd F.RING_STATUS_STATE r = 0 then s else s.bypassRing r
    s.putRing r { s.ring r with failed := false }

/-! ### Output bytes and acknowledgements (11 R289, R290) -/

/-- The partition that owns output byte `o` of ring `r` (Table 9.8, RING_OUT). -/
def State.ringOwner (s : State) (r o : Nat) : Option Nat :=
  let key := recKey 4 10 (16384 * r + o)
  if s.cfg key 0 1 = 1 then s.owner key else none

/-- RJ_STATE of partition `p` for station `x` of ring `r`. -/
def State.rejoined (s : State) (p r x : Nat) : Bool := bitOf (s.rd F.RJ_STATE (16 * p + (128 * r + x) / 32)) ((128 * r + x) % 32)

/-- RJ_STATE set or cleared. -/
def State.putRejoin (s : State) (p r x : Nat) (b : Bool) : State :=
  let i := 16 * p + (128 * r + x) / 32
  s.wr F.RJ_STATE (putBit (s.rd F.RJ_STATE i) ((128 * r + x) % 32) b) i

/-- The station whose output range of the last discovery holds byte `o`. -/
def Ring.stationOf (x : Ring) (o : Nat) : Option Nat :=
  x.cfg.stations.findIdx? (fun c => decide (c.outOff ≤ o) && decide (o < c.outOff + c.outLen))

/-- Whether a release of byte `o` by its owner is discarded: the owner's acknowledgement bit for
its station is 0 (11 R289). -/
def State.ringDiscards (s : State) (r o : Nat) : Bool :=
  match (s.ring r).stationOf o, s.ringOwner r o with
  | some x, some p => !s.rejoined p r x
  | _, _ => false

/-- Bytes released into ring `r`'s output space from byte `o` on (03 R73, R74). -/
def State.ringSend (s : State) (r o : Nat) : List Byte → State
  | [] => s
  | b :: rest =>
    let s := if s.ringDiscards r o then s
      else s.putRing r { s.ring r with outs := (s.ring r).outs.set o b.toNat }
    s.ringSend r (o + 1) rest

/-- The OUTPUT records on byte `o` of ring `r`: bit and output index. -/
def State.ringBits (s : State) (r o : Nat) : List (Nat × Nat) :=
  (s.recsOf 4 1).filterMap (fun e =>
    let sel := bytesAt e.2.active 0 4
    if sel / 2 ^ 30 = 1 ∧ sel / 2 ^ 28 % 4 = r ∧ sel / 2 ^ 13 % 2 ^ 14 = o then some (sel % 8, keyIndex e.1) else none)

/-- Byte `o` as released: what its writers put there, with the levels of its discrete outputs
in their bits (09 R222). -/
def State.releasedByte (s : State) (r o : Nat) : Nat :=
  (s.ringBits r o).foldl (fun v b => putBit v b.1 (s.outLevel b.2)) ((s.ring r).outs.get o 0)

/-- The owners of a station's output bytes. -/
def State.stationOwners (s : State) (r : Nat) (c : StationCfg) : List Nat :=
  ((List.range c.outLen).filterMap (fun i => s.ringOwner r (c.outOff + i))).eraseDups

/-- OUT_VALID of station `x` (R298). -/
def State.outValid (s : State) (r x : Nat) (c : StationCfg) : Bool :=
  s.stationOk r x && (s.stationOwners r c).any (fun p => s.rejoined p r x)

/-- The output bytes of station `x` sent in a frame: each owner's released bytes, 0 for an owner
that has not acknowledged the station; without OUT_VALID the last values stand (R298).  Each
discrete output whose sent level changes counts one actuation (09 R224). -/
def State.sendStation (s : State) (r x : Nat) (c : StationCfg) : State :=
  if s.outValid r x c then
    s.each (List.range c.outLen) (fun s i =>
      let o := c.outOff + i
      let live := match s.ringOwner r o with
        | some p => s.rejoined p r x
        | none => true
      let v := if live then s.releasedByte r o else 0
      let s := (s.ringBits r o).foldl (fun s b => s.takeLevel b.2 (bitOf v b.1)) s
      s.putRing r { s.ring r with sent := (s.ring r).sent.set o v })
  else s

/-! ### Discovery (R302, R304, R306) -/

/-- The configuration that discovery latches (R306). -/
def State.latchRing (s : State) (r : Nat) : RingCfg :=
  { period := s.rd F.RING_PERIOD r, phase := s.rd F.RING_PHASE r, rxLimit := s.rd F.RING_RX_LIMIT r
    inLead := 1000 * s.rd F.RING_LEAD_IN_LEAD_US r, applyNs := 1000 * s.rd F.RING_LEAD_APPLY_US r, holdMs := s.rd F.RING_CFG_HOLD_MS r
    authEn := s.on F.RING_CFG_AUTH_EN r && bitOf (s.rd F.SEC_RING_KEYS_KEYED) r && !(s.ring r).authDead
    missLimit := max 1 (s.rd F.RING_CFG_MISS_LIMIT r), wefts := s.rd F.RING_WEFT r
    stations := (List.range 128).map (fun i =>
      let k := 128 * r + i
      ⟨s.rd F.RS_ST_EXPECT_VENDOR k, s.rd F.RS_ST_EXPECT_PRODUCT k, s.rd F.RS_ST_OUT_OFF k, s.rd F.RS_ST_OUT_LEN k, s.rd F.RS_ST_IN_OFF k, s.rd F.RS_ST_IN_LEN k⟩) }

/-- The ring key that awaits ring `r`'s discovery takes effect (15 R381): the ring is keyed, and a
reservation that was lost no longer withholds it (R315). -/
def State.takeRingKey (s : State) (r : Nat) : State :=
  match s.sec.ringPending.find r with
  | some k =>
    let s := { s with sec := { s.sec with ringKeys := s.sec.ringKeys.set r k, ringPending := s.sec.ringPending.erase r } }
    let s := s.putRing r { s.ring r with authDead := false, reserveOk := true }
    (s.wr F.SEC_RING_KEYS_KEYED (withBit (s.rd F.SEC_RING_KEYS_KEYED) r)).wr F.SEC_RING_KEYS_PENDING (putBit (s.rd F.SEC_RING_KEYS_PENDING) r false)
  | none => s

/-- Whether a station is expected at a position. -/
def expectedStation (c : StationCfg) : Bool := c.vendor != 0 || c.product != 0

/-- The bytes of the cyclic frame, from TYPE to the CRC (R297, R298). -/
def frameLen (c : RingCfg) (descs : List StationDesc) : Nat :=
  let auth := fun (d : StationDesc) => if c.authEn && bitOf d.caps 0 then 16 else 0
  32 + 80 + (descs.map (fun d => 12 + d.outLen + d.inLen + auth d)).sum + 32 * c.wefts + (if c.authEn then 16 else 0) + 4

/-- Two ranges of bytes have a byte in common. -/
def overlaps (a la b lb : Nat) : Bool := decide (a < b + lb) && decide (b < a + la) && decide (0 < la) && decide (0 < lb)

/-- Whether no two ranges of a list overlap. -/
def disjointRanges : List (Nat × Nat) → Bool
  | [] => true
  | (a, la) :: rest => rest.all (fun x => !overlaps a la x.1 x.2) && disjointRanges rest

/-- The links' delays in sixteenths from the stamps of both DELAY passes (R304): the master to
station 0, between stations, and the last station to the master. -/
def linkDelays (txF rxR txR rxF : Instant) (fwd rev : List Instant) (descs : List StationDesc) : List Int :=
  let n := descs.length
  let d := fun (i : Nat) => if i = 0 then sinceS rxF txF else if i ≤ n then sinceS (rev.getD (i - 1) 0) (fwd.getD (i - 1) 0) else sinceS txR rxR
  let f := fun (i : Nat) => if i = 0 ∨ n < i then (0 : Int) else 16 * ((descs.map (·.fwdNs)).getD (i - 1) 0 : Nat)
  let v := fun (i : Nat) => if i = 0 ∨ n < i then (0 : Int) else 16 * ((descs.map (·.revNs)).getD (i - 1) 0 : Nat)
  (List.range (n + 1)).map (fun i => (d i - d (i + 1) - f i - v (i + 1)) / 2)

/-- DELAY of each station on the forward path, in sixteenths (R298, R304). -/
def stationDelays (links : List Int) (descs : List StationDesc) : List Int :=
  (List.range descs.length).map (fun i => (links.take (i + 1)).sum + ((descs.take i).map (fun d => (16 * d.fwdNs : Int))).sum)

/-- RING_RX_WORST (R302, Table 12.4), in ns rounded up. -/
def rxWorst (c : RingCfg) (descs : List StationDesc) (links : List Int) : Nat :=
  let tenths : Int := 32 + 32 * ((frameLen c descs : Int) + 8) + 10 * ((descs.map (·.fwdNs)).sum : Nat) + 10 * links.sum / 16 + 2000
  ((tenths + 9) / 10).toNat

/-- Whether every ring byte the Beam assigns lies in the range of a station (check 6). -/
def State.beamBytesOk (s : State) (r : Nat) (st : List StationCfg) : Bool :=
  (s.recsOf 4 10).all (fun e => keyIndex e.1 / 16384 != r || bytesAt e.2.active 0 1 == 0 ||
    st.any (fun c => decide (c.outOff ≤ keyIndex e.1 % 16384) && decide (keyIndex e.1 % 16384 < c.outOff + c.outLen))) &&
  (s.recsOf 4 11).all (fun e => keyIndex e.1 / 16384 != r || bytesAt e.2.active 0 2 == 0 ||
    st.any (fun c => decide (c.inOff ≤ keyIndex e.1 % 16384) && decide (keyIndex e.1 % 16384 < c.inOff + c.inLen)))

/-- The first failing check of Table 12.7 from check 2 on, 0 when all pass; in a pair the
budgets of 14 R351 count with check 7. -/
def State.discoveryResult (s : State) (r : Nat) (c : RingCfg) (descs : List StationDesc) (worst : Nat) : Nat :=
  let st := c.stations.takeWhile expectedStation
  let pairs := st.zip descs
  if 128 < descs.length then 2
  else if descs.length ≠ (c.stations.filter expectedStation).length ∨ st.length ≠ descs.length then 3
  else if pairs.any (fun p => p.1.vendor != p.2.vendor || p.1.product != p.2.product) then 4
  else if pairs.any (fun p => p.1.outLen != p.2.outLen || p.1.inLen != p.2.inLen) then 5
  else if !disjointRanges (st.map (fun x => (x.outOff, x.outLen))) || !disjointRanges (st.map (fun x => (x.inOff, x.inLen))) || !s.beamBytesOk r st then 6
  else if s.inPair && (decide (c.rxLimit < 2 * worst + 1200) || decide (2 * c.rxLimit < 2 * worst + 2600 + (st.map (·.inLen)).sum)) then 7
  else if c.period < 25000 ∨ 10000000 < c.period ∨ c.period ≤ c.phase ∨ c.applyNs < c.rxLimit ∨ c.period < c.applyNs ∨ c.period ≤ c.inLead ∨ c.rxLimit < worst ∨ c.period < c.rxLimit + 2000 then 7
  else 0

/-- Discovery failed (R306): ERROR with its RESULT. -/
def State.discoveryFails (s : State) (r res : Nat) : State :=
  ((s.wr F.RING_STATUS_STATE 6 r).wr F.RING_RESULT res r).ringRecord r 6 res

/-- Discovery begun (R306): the timing and station registers are latched and the ENUM frame
leaves. -/
def State.startDiscovery (s : State) (r : Nat) : State :=
  let s := s.takeRingKey r
  let s := s.putRing r { s.ring r with cfg := s.latchRing r, discAt := s.now, enumDone := false, descs := [], startDue := false }
  s.wr F.RING_STATUS_STATE 2 r

/-- Discovery succeeded: the ring is READY and its stations admitted (R306, R307). -/
def State.discovered (s : State) (r : Nat) (delays : List Int) : State :=
  let x := s.ring r
  let n := x.descs.length
  let s := s.putRing r { x with cfg := { x.cfg with stations := x.cfg.stations.take n } }
  let s := s.each (List.range 128) (fun s i =>
    let k := 128 * r + i
    let d := x.descs[i]?.getD ⟨0, 0, 0, 0, 0, 0, 0⟩
    let s := (s.wr F.RS_ST_STATUS_ADMITTED (b2n (decide (i < n))) k).wr F.RS_ST_STATUS_AUTH (b2n (x.cfg.authEn && bitOf d.caps 0)) k
    ((s.wr F.RS_ST_LAT_FWD_NS d.fwdNs k).wr F.RS_ST_LAT_REV_NS d.revNs k).wrI F.RS_ST_DELAY (delays.getD i 0) k)
  let s := (s.wr F.RING_STATUS_STATE 3 r).wr F.RING_RESULT 0 r
  s.wr F.RING_STATUS_AUTH (b2n x.cfg.authEn) r

/-! ### Reception (R298, R301, R308, R309) -/

/-- STATION_OK of a station falls (R309): the acknowledgements of every partition clear, and
STATION_LOST is set where a latched scan saw the station OK (11 R289). -/
def State.dropStation (s : State) (r i : Nat) : State :=
  let s := s.wr F.RS_ST_STATUS_OK 0 (128 * r + i)
  let s := s.each (List.range 16) (fun s p => if s.rejoined p r i then s.putRejoin p r i false else s)
  let owners := s.stationOwners r ((s.ring r).cfg.stations.getD i ⟨0, 0, 0, 0, 0, 0⟩)
  let s := s.each (owners.filter (fun p => (cycTasks p).any (fun k => (s.scan k).any (fun x => x.ok.testBit (128 * r + i)))))
    (fun s p => (s.setBit F.CP_EVENT 8 p).event p 8 p 8 0 0 [BitVec.ofNat 8 r, BitVec.ofNat 8 i, 0, 0])
  s.ringRecord r 3 0 (leBytes 4 i)

/-- Whether cell `n` reads input bytes of station `i` of ring `r` (03 R71). -/
def State.readsStation (s : State) (r i n : Nat) : Bool :=
  let c := (s.ring r).cfg.stations.getD i ⟨0, 0, 0, 0, 0, 0⟩
  let o := s.rd F.LC_SRC_Y_ID n
  s.rd F.LC_ROUTE_Y_KIND n == 1 && s.rd F.LC_DEST_RING n == r && decide (o < c.inOff + c.inLen) && decide (c.inOff < o + (if s.on F.LC_ROUTE_Y_WIDE n then 4 else 2))

/-- A cycle brought no good input bytes of station `i`: it is stale for the cells that read them and
have not strobed since the cycle began (R301, 04 R94). -/
def State.staleCells (s : State) (r i : Nat) : State :=
  let since := (s.ring r).lastCycle.getD s.now
  { s with cells := ⟨s.cells.entries.map (fun e =>
      if s.readsStation r i e.1 && e.2.lastStrobe.all (fun x => notLater x since) then (e.1, { e.2 with stale := true }) else e)⟩ }

/-- A station's segment was not valid in a cycle (R301, R309). -/
def State.missStation (s : State) (r i : Nat) : State :=
  let s := s.staleCells r i
  let s := s.bump F.RS_ST_STATUS_MISS_RUN (128 * r + i)
  if s.stationOk r i && decide ((s.ring r).cfg.missLimit ≤ s.rd F.RS_ST_STATUS_MISS_RUN (128 * r + i)) then s.dropStation r i else s

/-- Whether a returned segment is valid (R298). -/
def State.segValid (s : State) (r : Nat) (cycle : Nat) (g : SegRx) : Bool :=
  bitOf g.status 0 && (bitOf g.status 1 == bitOf cycle 0) && (!s.on F.RS_ST_STATUS_AUTH (128 * r + g.station) || g.tagOk)

/-- The first valid segment of station `i` after a warm resume (17 R422): where it shows WDOG, the
restored RJ_STATE bits of the station clear. -/
def State.firstSegment (s : State) (r i : Nat) (wdog : Bool) : State :=
  let mine := s.boot.watched.filter (fun w => w.2 == (r, i))
  if mine.isEmpty then s
  else
    let s := { s with boot := { s.boot with watched := s.boot.watched.filter (fun w => w.2 != (r, i)) } }
    if wdog then mine.foldl (fun s w => s.putRejoin w.1 r i false) s else s

/-- A valid segment taken: its input bytes and STATUS become visible (R301). -/
def State.takeSegment (s : State) (r : Nat) (g : SegRx) : State :=
  let x := s.ring r
  let c := x.cfg.stations[g.station]?.getD ⟨0, 0, 0, 0, 0, 0⟩
  let ins := ((List.range c.inLen).zip g.input).foldl (fun m e => m.set (c.inOff + e.1) e.2.toNat) x.ins
  let s := s.putRing r { x with ins := ins }
  let s := (s.wr F.RS_ST_STATUS_MISS_RUN 0 (128 * r + g.station)).wr F.RS_ST_STATUS_LAST_STATUS g.status (128 * r + g.station)
  s.firstSegment r g.station (bitOf g.status 2)

/-- The value routes that read input bytes of ring `r` take them as they are now (R301, 09 R216). -/
def State.ringRoutes (s : State) (r : Nat) : State :=
  s.each ((s.quadRecs 4).filterMap (fun e =>
      let src := bytesAt e.2.active 0 4
      if src / 2 ^ 28 = 5 ∧ src / 2 ^ 26 % 4 = r then some (keyNumber e.1) else none))
    (fun s v =>
      let o := s.cfg (vrKey v) 0 4 % 2 ^ 14
      s.wr F.VR_VALUE (s.ringIn r o + 256 * s.ringIn r (o + 1) + 65536 * s.ringIn r (o + 2) + 16777216 * s.ringIn r (o + 3)) v)

/-- The segments of a cycle taken: each admitted station's, where one of the copies holds it
valid; the others miss (R301, R309, R310). -/
def State.takeSegments (s : State) (r cycle : Nat) (segs : List SegRx) : State :=
  let n := (s.ring r).descs.length
  let s := s.each (List.range n) (fun s i =>
    let mine := segs.filter (fun g => g.station == i)
    let s := if mine.any (fun g => s.on F.RS_ST_STATUS_AUTH (128 * r + i) && !g.tagOk) then (s.roll F.RING_AUTH_CNT r).ringEvent r 10 else s
    match mine.find? (s.segValid r cycle) with
    | some g => s.takeSegment r g
    | none => s.missStation r i)
  s.ringRoutes r

/-- Whether a descriptor is the one that the last discovery latched for station `i` (R309). -/
def Ring.matches (x : Ring) (i : Nat) (d : StationDesc) : Bool :=
  match x.cfg.stations[i]? with
  | some c => c.vendor == d.vendor && c.product == d.product && c.outLen == d.outLen && c.inLen == d.inLen
  | none => false

/-- The mailbox slot of a returned frame (R308, R309): a response with the SEQ of the host's request ends it; an
IDENT response that matches, in a frame with a valid segment of the station, raises
STATION_OK. -/
def State.takeMailbox (s : State) (r cycle : Nat) (m : MbxSlot) (segs : List SegRx) : State :=
  let x := s.ring r
  match m.kind, m.desc with
  | 2, _ =>
    if x.hostAt.isSome && x.hostSent && m.station == s.rd F.RING_MBX_CTRL_STATION r && m.seq == s.rd F.RING_MBX_STATUS_SEQ r then
      let s := s.putRing r { x with hostAt := none, hostSent := false }
      let s := (s.wr F.RING_MBX_STATUS_STATE 2 r).wr F.RING_MBX_STATUS_RSP_LEN m.payload.length r
      let s := s.each (List.range 16) (fun s i => s.wr F.RING_MBX_RX (ofLeBytes ((m.payload.drop (4 * i)).take 4)) (16 * r + i))
      s.ringEvent r 7
    else s
  | 5, some d =>
    let s := s.putRing r { x with identAt := none }
    if x.matches m.station d then
      if segs.any (fun g => g.station == m.station && s.segValid r cycle g) && !s.stationOk r m.station then
        (s.wr F.RS_ST_STATUS_OK 1 (128 * r + m.station)).ringRecord r 4 0 (leBytes 4 m.station)
      else s
    else s.ringRecord r 5 0 (leBytes 4 m.station)
  | _, _ => s

/-- The reception end of a cycle (R301): segments, mailbox and the reception's offset. -/
def State.endCycle (s : State) (r : Nat) (c : Instant) (cycle : Nat) (segs : List SegRx) (mbx : List MbxSlot) : State :=
  let s := s.takeSegments r cycle segs
  let s := mbx.foldl (fun s m => s.takeMailbox r cycle m segs) s
  let s := s.putRing r { s.ring r with got := true, lastGood := s.now }
  (s.wr F.RING_RX_LAST (sinceNs s.now c).toNat r).settle

/-- A lost frame (R301). -/
def State.loseFrame (s : State) (r : Nat) : State :=
  let s := s.putRing r { s.ring r with lost := true }
  (s.bump F.RING_LOST_CNT r).ringEvent r 0

/-- Whether the last cycle of ring `r` fell since the instant `prev` and no good frame of it has arrived
(04 R94). -/
def State.ringStale (s : State) (r : Nat) (prev : Instant) : Bool :=
  match (s.ring r).lastCycle with
  | some c => notLater prev c && !(s.ring r).got
  | none => false

/-! ### The cycle number and its reservation (R315) -/

/-- A cycle number sent or read: the reservation is raised in the background once it comes
within 2^31 of it. -/
def State.noteCycle (s : State) (r k : Nat) : State :=
  let x := s.ring r
  if x.raising = none ∧ x.reserve ≤ k + 2 ^ 31 then s.putRing r { x with raising := some (x.reserve + 2 ^ 32) } else s

end Sys2Proof.Machine
end

