-- ==== Sys2Proof/Machine/TapOps.lean ====
section
/-! DEFINITION.  Taps: sources, acceptance, gaps and runs (07 R170 to R174, R177, R183, R184). -/

namespace Sys2Proof.Machine

/-- The released value of a source of Table 7.1, as a 32-bit word. -/
def State.sourceValue (s : State) (kind signal id ring : Nat) : Nat :=
  (match kind with
    | 0 =>
      if signal = 9 then s.rd F.LC_STATUS_LEVEL id
      else s.rd (([F.LC_SP, F.LC_SP_DOT, F.LC_Y, F.LC_E, F.LC_C, F.LC_W, F.LC_U, F.LC_YM, F.LC_RESID] : List Fld).getD signal F.LC_SP) id
    | 1 =>
      if 5 ≤ signal then ofSigned 32 ((s.axis id).coil.getD (signal - 5) 0)
      else s.rd (([F.AX_POS, F.AX_VEL, F.AX_FBPOS, F.AX_FE, F.AX_STEP_POS] : List Fld).getD signal F.AX_POS) id
    | 2 => s.rd F.VR_VALUE id
    | 4 => (s.ainOf id).q
    | 5 => b2n (s.fio.get id FioPin.init).level
    | 6 =>
      let byte := fun o => if signal = 0 then s.ringIn ring o else s.releasedByte ring o
      byte id + 256 * byte (id + 1) + 65536 * byte (id + 2) + 16777216 * byte (id + 3)
    | _ => 0) % 2 ^ 32

/-- A source whose samples come at stamped instants beside its grid: SIGNAL 6 or 9 of an
event-mode cell. -/
def State.eventSignal (s : State) (kind signal id : Nat) : Bool :=
  kind == 0 && (signal == 6 || signal == 9) && s.on F.LC_CTRL_MODE id

/-- PERIOD and PHASE of a tap: its source's for a cell or axis, else its own with PHASE 0. -/
def State.tapGrid (s : State) (n : Nat) : Nat × Nat :=
  let id := s.rd F.TAP_SRC_ID n
  match s.rd F.TAP_SRC_KIND n with
  | 0 => (s.rd F.LC_PERIOD id, s.rd F.LC_PHASE id)
  | 1 => (s.rd F.AX_PERIOD id, s.rd F.AX_PHASE id)
  | 2 => (s.rd F.TAP_PERIOD n, 0)
  | 4 => (s.rd F.TAP_PERIOD n, 0)
  | 5 => (s.rd F.TAP_PERIOD n, 0)
  | _ => (0, 0)

/-- The taps of stream `k`. -/
def State.tapsOf (s : State) (k : Nat) : List Nat :=
  (s.recsOf 4 2).filterMap (fun e => if s.rd F.TAP_SRC_STREAM (keyIndex e.1) = k then some (keyIndex e.1) else none)

/-- What tap `n` remembers. -/
def State.tapMem (s : State) (n : Nat) : TapMem := s.skein.taps.get n ⟨none, 0⟩
/-- What tap `n` remembers set. -/
def State.putTapMem (s : State) (n : Nat) (m : TapMem) : State := { s with skein := { s.skein with taps := s.skein.taps.set n m } }

/-- MODE of a tap's runs (R177): timed for ON_CHANGE taps and for stamped instants. -/
def State.tapTimed (s : State) (n : Nat) : Bool :=
  let kind := s.rd F.TAP_SRC_KIND n
  s.rd F.TAP_CFG_POLICY n == 2 || kind == 3 || kind == 6 || s.eventSignal kind (s.rd F.TAP_SRC_SIGNAL n) (s.rd F.TAP_SRC_ID n)

/-- STEP of a periodic run: PERIOD, or PERIOD × n under DECIMATE. -/
def State.tapStep (s : State) (n : Nat) : Nat :=
  if s.tapTimed n then 0
  else (s.tapGrid n).1 * (if s.rd F.TAP_CFG_POLICY n = 3 then s.rd F.TAP_CFG_N n else 1)

/-! ### Runs (R177, R178) -/

/-- The run extended by a sample. -/
def Run.add (r : Run) (at_ : Instant) (v : Word) : Run :=
  let time := if r.timed then codeOne r.time (r.lastT.toNat % 2 ^ 32) (at_.toNat % 2 ^ 32) else ([], r.time)
  let val := codeOne r.value r.lastV.toNat v.toNat
  { r with count := r.count + 1, lastT := at_, lastV := v, time := time.2, value := val.2, bits := r.bits ++ time.1 ++ val.1 }

/-- Whether a sample continues a run: same flags, room in the record, and the instant that a
periodic run implies, or less than 2^31 sixteenths after the last of a timed one. -/
def Run.takes (r : Run) (timed : Bool) (step flags : Nat) (at_ : Instant) : Bool :=
  r.timed == timed && r.step == step && r.flags == flags && decide (r.count < 1024) &&
  (if timed then decide ((at_ - r.lastT).toNat < 2 ^ 31) else at_ == addNs r.lastT step)

/-- The stream with a sample of tap `n` in its run, or in a new one. -/
def Stream.withSample (x : Stream) (now : Instant) (n : Nat) (timed : Bool) (step flags : Nat) (at_ : Instant) (v : Word) : Stream :=
  match x.runs.find? (fun r => r.tap == n) with
  | some r =>
    if r.takes timed step flags at_ then { x with runs := x.runs.map (fun q => if q.tap = n then q.add at_ v else q) }
    else
      { x with recs := x.recs ++ [runRec r], runs := x.runs.filter (fun q => q.tap != n) ++ [⟨n, timed, 1, at_, step, v, at_, v, Coder.init, Coder.init, [], flags⟩] }
  | none =>
    { x with runs := x.runs ++ [⟨n, timed, 1, at_, step, v, at_, v, Coder.init, Coder.init, [], flags⟩], openAt := some (x.openAt.getD now) }

/-- Flags of a sample of tap `n`: those of now, LOSSY of a DECIMATE tap, and `extra`. -/
def State.sampleFlags (s : State) (n extra : Nat) : Nat := s.recFlags ||| extra ||| (if s.rd F.TAP_CFG_POLICY n = 3 then 16 else 0)

/-- The samples accepted in the Warp millisecond that now lies in (R183). -/
def State.rateNow (s : State) : Nat := if s.skein.rateMs = nsOf s.now / 1000000 then s.skein.rateCount else 0

/-- An accepted sample of tap `n` put into its stream's open block and counted; a block it does not fit is
sealed first. -/
def State.putSample (s : State) (k n : Nat) (at_ : Instant) (v : Word) (extra : Nat) : State :=
  let next := fun (x : Stream) => x.withSample s.now n (s.tapTimed n) (s.tapStep n) (s.sampleFlags n extra) at_ v
  let grown := next (s.stream k)
  let s := if grown.used ≤ payloadMax then s.putStream k grown else (fun (s : State) => s.putStream k (next (s.stream k))) (s.seal k)
  let s := { s with skein := { s.skein with rateMs := nsOf s.now / 1000000, rateCount := s.rateNow + 1, rateSecond := s.skein.rateSecond + 1 } }
  s.putTapMem n { s.tapMem n with last := some v }

/-! ### Room (R183) -/

/-- Bytes of the records that are not samples: they take from the reserve of 64 KiB (R184). -/
def reserveBytes (rs : List SkRec) : Nat := ((rs.filter (·.kind != 1)).map recLen).sum

/-- Bytes of the burst buffer that a stream's samples take: those of its open block, and its sealed blocks but
for the records in them that take from the reserve (R183, R184). -/
def Stream.held (x : Stream) : Nat :=
  x.used - reserveBytes x.recs + (x.burst.map (fun b => if b.records.all (·.kind != 1) then 0 else 4096 - reserveBytes b.records)).sum

/-- Bytes of the quota of stream `k`. -/
def State.quota (s : State) (k : Nat) : Nat := 1024 * s.rd F.SKS_BURST k

/-- Whether stream `k` finds room for `n` more bytes, in its quota or in the shared remainder;
the reserve of 64 KiB takes no samples. -/
def State.roomFor (s : State) (k n : Nat) : Bool :=
  let excess := fun j more => (s.stream j).held + more - s.quota j
  let shared := 16320 * 1024 - ((List.range 17).map s.quota).sum
  decide ((s.stream k).held + n ≤ s.quota k) ||
  decide (((List.range 17).map (fun j => excess j (if j = k then n else 0))).sum ≤ shared)

/-- Why a sample finds no room: CAUSE of R184, none where it finds room. -/
def State.discardCause (s : State) (k n : Nat) (at_ : Instant) (v : Word) : Option Nat :=
  let x := s.stream k
  let grown := x.withSample s.now n (s.tapTimed n) (s.tapStep n) (s.sampleFlags n 0) at_ v
  if 400000 ≤ s.rateNow then some 2
  else if s.roomFor k (grown.used - x.used) then none
  else if s.rd F.SKS_REGION_SIZE k ≤ x.resident then some 0
  else some 1

/-! ### Gaps (R173, R184) -/

/-- The GAP record of a gap that ends at an instant. -/
def gapRec (g : Gap) (end_ : Instant) : SkRec :=
  { kind := 3, flags := 0
    body := leBytes 1 g.cause ++ [0] ++ leBytes 2 g.counts.length ++ leBytes 4 0 ++ leBytes 8 g.start.toNat ++ leBytes 8 end_.toNat ++
      (g.counts.map (fun c => leBytes 2 c.1 ++ leBytes 4 c.2)).flatten
    first := g.start, last := end_, samples := [] }

/-- One more sample counted against a tap. -/
def countTap (n : Nat) : List (Nat × Nat) → List (Nat × Nat)
  | [] => [(n, 1)]
  | (m, c) :: r => if m = n then (m, c + 1) :: r else (m, c) :: countTap n r

/-- A sample of tap `n` discarded (R184). -/
def State.dropSample (s : State) (k n cause : Nat) (at_ : Instant) : State :=
  let s := match (s.stream k).gap with
    | some _ => s
    | none =>
      let s := s.each (s.tapsOf k) (fun s m => s.endRun k m)
      ((s.putStream k { s.stream k with gap := some ⟨at_, cause, []⟩ }).wr F.SKS_STATUS_GAP_OPEN 1 k).skEvent k 0
  let s := s.when (cause == 2 && !bitOf (s.rd F.SK_EVENT) 4) (·.skEvent k 4)
  let x := s.stream k
  let s := s.putStream k { x with gap := x.gap.map (fun g => { g with counts := countTap n g.counts }), discards := x.discards + 1 }
  (s.bump F.SKS_DISCARD k).bump F.TAP_DISCARD n

/-- A gap of stream `k` ended by the acceptance of a sample at `at_`: its record (R184). -/
def State.endGap (s : State) (k : Nat) (g : Gap) (at_ : Instant) : State :=
  ((s.putStream k { s.stream k with gap := none }).wr F.SKS_STATUS_GAP_OPEN 0 k).record k (gapRec g at_)

/-- The current value of tap `m` as its source shows it. -/
def State.tapValue (s : State) (m : Nat) : Word :=
  BitVec.ofNat 32 (s.sourceValue (s.rd F.TAP_SRC_KIND m) (s.rd F.TAP_SRC_SIGNAL m) (s.rd F.TAP_SRC_ID m) (s.rd F.TAP_SRC_RING m))

/-- A sample of tap `n` offered to its stream: accepted, with the GAP record of the gap that it ends before
it, or discarded (R183, R184). -/
def State.offerOne (s : State) (k n : Nat) (at_ : Instant) (v : Word) (extra : Nat) : State :=
  match s.discardCause k n at_ v, (s.stream k).gap with
  | some cause, _ => s.dropSample k n cause at_
  | none, some g => (s.endGap k g at_).putSample k n at_ v extra
  | none, none => s.putSample k n at_ v extra

/-- A sample of tap `n` offered to its stream; one that ends a gap is followed by the current value of every
ON_CHANGE tap of the stream, flagged RESYNC, as it is itself where its tap is one (R173, R184).  In SLEEP
a burst buffer half full wakes the device (16 R403). -/
def State.offerSample (s : State) (k n : Nat) (at_ : Instant) (v : Word) : State :=
  let ends := (s.stream k).gap.isSome && (s.discardCause k n at_ v).isNone
  let s := s.offerOne k n at_ v (if ends && s.rd F.TAP_CFG_POLICY n == 2 then 32 else 0)
  let s := s.when ends (fun s => s.each ((s.tapsOf k).filter (fun m => s.rd F.TAP_CFG_POLICY m == 2 && m != n)) (fun s m => s.offerOne k m at_ (s.tapValue m) 32))
  let s := s.showBurst
  if s.rd F.PWR_STATUS_STATE = 2 ∧ s.quota k ≤ 2 * (s.stream k).held then s.internalWake 3 else s

/-- A sample of tap `n` at one of its instants (R172): its policy decides whether it is
recorded.  Before recording resumes after a start no sample is recorded (R189). -/
def State.takeTap (s : State) (n : Nat) (at_ : Instant) (v : Word) : State :=
  let k := s.rd F.TAP_SRC_STREAM n
  let kind := s.rd F.TAP_SRC_KIND n
  let m := s.tapMem n
  if 17 ≤ k ∨ s.on F.HOST_STATUS_BOOTING then s
  else
    match s.rd F.TAP_CFG_POLICY n with
    | 1 => s.offerSample k n at_ v
    | 2 => if kind = 3 ∨ kind = 5 ∨ m.last ≠ some v then s.offerSample k n at_ v else s
    | 3 =>
      let s := s.putTapMem n { m with seen := m.seen + 1 }
      if m.seen % max 1 (s.rd F.TAP_CFG_N n) = 0 then s.offerSample k n at_ v else s
    | _ => s

/-! ### Late evaluations (R174) -/

/-- The LATE record of tap `n`. -/
def lateRec (n : Nat) (at_ : Instant) : SkRec :=
  { kind := 2, flags := 0, body := leBytes 2 n ++ List.replicate 6 0 ++ leBytes 8 at_.toNat, first := at_, last := at_, samples := [] }

/-- The taps on a cell or axis whose evaluation at a strobe instant is late: EVERY and counted
DECIMATE taps write a LATE record (R174). -/
def State.lateTap (s : State) (at_ : Instant) (n : Nat) : State :=
  let k := s.rd F.TAP_SRC_STREAM n
  let m := s.tapMem n
  let hit := s.rd F.TAP_CFG_POLICY n == 1 || (s.rd F.TAP_CFG_POLICY n == 3 && m.seen % max 1 (s.rd F.TAP_CFG_N n) == 0)
  let s := s.putTapMem n { m with seen := m.seen + 1 }
  if hit && decide (k < 17) && !s.on F.HOST_STATUS_BOOTING then (s.endRun k n).record k (lateRec n at_) else s

/-- The taps on source `kind`, `id`. -/
def State.tapsOn (s : State) (kind id : Nat) : List Nat :=
  (s.recsOf 4 2).filterMap (fun e => let n := keyIndex e.1; if s.rd F.TAP_SRC_KIND n = kind ∧ s.rd F.TAP_SRC_ID n = id then some n else none)

/-- R174 for every tap on a source. -/
def State.lateTaps (s : State) (kind id : Nat) (at_ : Instant) : State := s.each (s.tapsOn kind id) (fun s n => s.lateTap at_ n)

end Sys2Proof.Machine
end

