-- ==== Sys2Proof/Machine/CaptureOps.lean ====
section
/-! DEFINITION.  Sequencers, capture sets and mask units: arming, sampling, overflow and the
slot (08). -/

namespace Sys2Proof.Machine

open Sys2Proof

/-- Sequencer `n` beyond its registers. -/
def State.seq (s : State) (n : Nat) : TrigSeq := s.trig.seqs.get n TrigSeq.init
/-- Sequencer `n` set. -/
def State.putSeq (s : State) (n : Nat) (x : TrigSeq) : State := { s with trig := { s.trig with seqs := s.trig.seqs.set n x } }
/-- Capture set `n` beyond its registers. -/
def State.cset (s : State) (n : Nat) : CapSet := s.trig.sets.get n CapSet.init
/-- Capture set `n` set. -/
def State.putCset (s : State) (n : Nat) (x : CapSet) : State := { s with trig := { s.trig with sets := s.trig.sets.set n x } }
/-- Mask unit `n` beyond its registers. -/
def State.maskUnit (s : State) (n : Nat) : MaskUnit := s.trig.masks.get n ⟨false, none⟩
/-- Mask unit `n` set. -/
def State.putMask (s : State) (n : Nat) (x : MaskUnit) : State := { s with trig := { s.trig with masks := s.trig.masks.set n x } }
/-- STATE of capture set `n`: 0 IDLE, 1 FILLING, 2 READY, 3 POST, 4 WRITING, 5 DONE. -/
def State.capState (s : State) (n : Nat) : Nat := s.rd F.CS_STATUS_STATE n
/-- The partition of sequencer `n` and its capture set (R191). -/
def State.ownerTS (s : State) (n : Nat) : Option Nat := s.owner (tseqKey n)
/-- A TS_EVENT bit set and recorded (07 R477). -/
def State.tsEvent (s : State) (n bit : Nat) : State :=
  (s.setBit F.TS_EVENT bit n).event (streamOf (s.ownerTS n)) 6 n bit 0 0 (leBytes 4 (s.rd F.TS_WORD n))
/-- The partition of mask unit `n`. -/
def State.ownerMU (s : State) (n : Nat) : Option Nat := s.owner (maskKey n)

/-! ### Sequencers (R193, R194, R197) -/

/-- State `x` of sequencer `n` entered at an instant (R194). -/
def State.enterState (s : State) (n x : Nat) (at_ : Instant) : State :=
  let q := s.seq n
  let c := if s.on F.TS_ST_CFG_KEEP (16 * n + x) then q.counters.get x 0 else 0
  let s := s.putSeq n { q with entered := at_, counters := q.counters.set x c }
  ((s.wr F.TS_STATUS_STATE x n).wr F.TS_COUNTER c n).wr F.TS_TIMER 0 n

/-- An event on route `er` stamped `at_` latched by the sequencers whose current state uses it (R193,
R194). -/
def State.latchSeqs (s : State) (er : Nat) (at_ : Instant) : State :=
  s.each (s.trig.seqs.keys.filter (fun n => s.on F.TS_STATUS_RUNNING n)) (fun s n =>
    let x := 16 * n + s.rd F.TS_STATUS_STATE n
    let counts := s.rd F.TS_ST_CFG_CNT_KIND x == 1 && s.rd F.TS_ST_CFG_CNT_SRC x == er
    let waits := (List.range 4).any (fun i => s.rd F.TS_COND_CFG_KIND (4 * x + i) == 2 && s.rd F.TS_COND_CFG_SRC (4 * x + i) == er)
    if counts || waits then s.putSeq n { s.seq n with events := (s.seq n).events ++ [(er, at_)] } else s)

/-- A commit of step `step` of partition `p` latched by its sequencers (R193). -/
def State.latchStep (s : State) (p step : Nat) : State :=
  s.each (s.trig.seqs.keys.filter (fun n => s.on F.TS_STATUS_RUNNING n && s.ownerTS n == some p)) (fun s n =>
    s.putSeq n { s.seq n with steps := (s.seq n).steps ++ [step] })

/-! ### Arming a capture set (R198, R199) -/

/-- The channels of capture set `n`, ascending. -/
def State.chansOf (s : State) (n : Nat) : List Nat :=
  (s.recsOf 4 5).filterMap (fun e => if s.rd F.CH_SRC_SET (keyIndex e.1) = n then some (keyIndex e.1) else none)

/-- A quotient rounded up. -/
def ceilDiv (a b : Nat) : Nat := (a + b - 1) / b

/-- Channel `c` as its settings have it for windows of `pre` and `post` ns; none where one is out
of range (R198, Table 8.14). -/
def State.channel (s : State) (c pre post : Nat) : Option CapChan :=
  let kind := s.rd F.CH_SRC_KIND c
  let id := s.rd F.CH_SRC_ID c
  let own := s.rd F.CH_PERIOD c
  let periodic := fun p => if p = 0 then none else some (⟨false, p, ceilDiv pre p, ceilDiv post p, [], [], false⟩ : CapChan)
  if s.on F.CH_CFG_TIMED c then
    let em := s.rd F.CH_CFG_EDGE_MAX c
    let ok := kind == 3 || kind == 6 || (kind == 5 && own == 0) || s.eventSignal kind (s.rd F.CH_SRC_SIGNAL c) id
    if ok && em != 0 then some ⟨true, 0, em, em, [], [], false⟩ else none
  else
    match kind with
    | 0 => periodic (s.rd F.LC_PERIOD id)
    | 1 => periodic (s.rd F.AX_PERIOD id)
    | 2 => if 200 ≤ own ∧ own ≤ 1000000000 then periodic own else none
    | 4 => if 800 ≤ own ∧ own ≤ 1000000000 then periodic own else none
    | 5 => if 200 ≤ own ∧ own ≤ 1000000000 then periodic own else none
    | _ => none

/-- Bytes of one sample of a channel. -/
def CapChan.size (c : CapChan) : Nat := if c.timed then 12 else 4
/-- Pre-trigger bytes of a channel. -/
def CapChan.preBytes (c : CapChan) : Nat := c.nPre * c.size
/-- Post-trigger bytes of a channel. -/
def CapChan.postBytes (c : CapChan) : Nat := c.nPost * c.size

/-- Pre bytes of a set. -/
def CapSet.preBytes (x : CapSet) : Nat := (x.chans.entries.map (fun e => e.2.preBytes)).sum
/-- Need of a set (R198). -/
def CapSet.need (x : CapSet) : Nat :=
  256 + 32 * x.chans.entries.length + x.preBytes +
    (if x.streamOut then 4096 * x.chunks else (x.chans.entries.map (fun e => e.2.postBytes)).sum)

/-- Set `n` as it would be armed now, with ARM_RESULT (Table 8.3). -/
def State.armSetResult (s : State) (n : Nat) : CapSet × Nat :=
  let pre := s.rd F.CS_PRE_NS n
  let post := s.rd F.CS_POST_NS n
  let cs := (s.chansOf n).map (fun c => (c, s.channel c pre post))
  let x : CapSet := { CapSet.init with
    chans := cs.foldl (fun t e => match e.2 with | some c => t.set e.1 c | none => t) .empty
    preNs := pre, postNs := post, streamOut := s.on F.CS_CTRL_STREAM_OUT n, chunks := s.rd F.CS_HQ_CHUNKS n, hq := s.rd F.CS_HQ_HQ n, reference := s.now }
  let inRange := fun v => decide (1000 ≤ v) && decide (v ≤ 4000000000)
  let r :=
    if cs.isEmpty || cs.any (fun e => e.2.isNone) || !inRange pre || !inRange post then 1
    else if s.rd F.CS_SLOT_CFG_SLOTS n = 0 ∨ s.rd F.CS_REGION n = 0 then 2
    else if x.streamOut && (s.owner (queueKey x.hq) != s.ownerTS n || decide (x.chunks < 2) || decide (4096 < x.chunks)) then 3
    else if s.rd F.POOL_FREE < ceilDiv x.preBytes 64 then 4
    else if 1024 * s.rd F.CS_SLOT_CFG_SLOT_KIB n < x.need then 5
    else 0
  (x, r)

/-- Set `n` in FILLING from now on, its windows empty (Table 8.4). -/
def State.beginFilling (s : State) (n : Nat) : State :=
  let x := s.cset n
  let s := s.putCset n { x with filling := s.now, chans := ⟨x.chans.entries.map (fun e => (e.1, { e.2 with pre := [], post := [], late := false }))⟩ }
  s.wr F.CS_STATUS_STATE 1 n

/-- An EVENT record of capture set `n` (07 Table 7.9). -/
def State.csRecord (s : State) (n bit res : Nat) : State :=
  s.event (streamOf (s.ownerTS n)) 5 n bit 0 res (leBytes 8 (s.rd F.CS_CAP_SEQ n))

/-- A CS_EVENT bit set and recorded (07 Table 7.9, source kind 5). -/
def State.csEvent (s : State) (n bit : Nat) (res : Nat := 0) : State := (s.setBit F.CS_EVENT bit n).csRecord n bit res

/-- Capture set `n` armed (R199). -/
def State.armSet (s : State) (n : Nat) : State :=
  let a := s.armSetResult n
  let s := s.wr F.CS_STATUS_ARM_RESULT a.2 n
  if a.2 ≠ 0 then s.csEvent n 3 a.2
  else
    let s := s.wr F.POOL_FREE (s.rd F.POOL_FREE - ceilDiv a.1.preBytes 64)
    let s := (s.wr F.CS_PRE_BYTES a.1.preBytes n).wr F.CS_NEED_BYTES a.1.need n
    (s.putCset n a.1).beginFilling n

/-- Set `n` IDLE, its pre bytes returned to the pool. -/
def State.idleSet (s : State) (n : Nat) : State :=
  let s := s.wr F.POOL_FREE (s.rd F.POOL_FREE + ceilDiv (s.rd F.CS_PRE_BYTES n) 64)
  (s.wr F.CS_PRE_BYTES 0 n).wr F.CS_STATUS_STATE 0 n

/-- Sequencer `n` armed at this instant (R192, R197). -/
def State.armTrig (s : State) (n : Nat) : State :=
  let per := s.rd F.TS_PERIOD n
  if s.ownerTS n = none ∨ per < 500 ∨ 1000000000 < per ∨ per ≤ s.rd F.TS_PHASE n then s.tsEvent n 3
  else
    let s := s.putSeq n { s.seq n with armedAt := s.now, events := [], steps := [] }
    let s := (s.wr F.TS_STATUS_RUNNING 1 n).enterState n 0 s.now
    if s.capState n = 0 then s.armSet n else s

/-! ### Streaming out (R205) -/

/-- The place of the next item: its instant, then its channel. -/
def insertItem (e : Nat × Instant × Word) : List (Nat × Instant × Word) → List (Nat × Instant × Word)
  | [] => [e]
  | f :: r => if earlier e.2.1 f.2.1 || (e.2.1 == f.2.1 && decide (e.1 < f.1)) then e :: f :: r else f :: insertItem e r

/-- The 16 bytes of an item. -/
def itemBytes (e : Nat × Instant × Word) : List Byte := leBytes 2 e.1 ++ [0, 0] ++ leBytes 4 e.2.2.toNat ++ leBytes 8 e.2.1.toNat

/-- DRAM address of the slot of a CAP_SEQ (R201). -/
def State.slotBase (s : State) (n seq : Nat) : Nat :=
  s.rd F.CS_REGION n + (seq % max 1 (s.rd F.CS_SLOT_CFG_SLOTS n)) * (1024 * s.rd F.CS_SLOT_CFG_SLOT_KIB n)

/-- Offset of the data after the descriptors. -/
def CapSet.dataOff (x : CapSet) : Nat := 256 + 32 * x.chans.entries.length

/-- The oldest 256 items not yet enqueued, or all of them if they are fewer, written into the slot as one
chunk and enqueued: whether the enqueue found a credit. -/
def State.closeChunk (s : State) (n : Nat) : State × Bool :=
  let x := s.cset n
  let bytes := ((x.items.take 256).map itemBytes).flatten
  let at_ := s.slotBase n (s.rd F.CS_CAP_SEQ n) + x.dataOff + x.preBytes + (x.chunk % max 1 x.chunks) * 4096
  let s := { s with dram := s.dram.writeBytes at_ bytes }
  let s := s.putCset n { x with items := x.items.drop 256, chunk := x.chunk + 1 }
  if s.credits x.hq = 0 then (s.bump F.HQ_BUSY_CNT x.hq, false)
  else ((s.pushEntry x.hq ⟨2, 0, n, s.rd F.CS_CAP_SEQ n % 2 ^ 32, x.chunk, bytes.length⟩).dispatch, true)

/-- How long after its instant a sample of channel `c` can still come: the release of an evaluation, the
conversions of a group (04 R91), the widest input filter (09 R476). -/
def State.chanLag (s : State) (c : Nat) : Nat :=
  match s.rd F.CH_SRC_KIND c with
  | 0 => s.rd F.LC_LATENCY (s.rd F.CH_SRC_ID c)
  | 1 => s.rd F.AX_LATENCY (s.rd F.CH_SRC_ID c)
  | 2 => 0
  | 4 => 800
  | 6 => 0
  | _ => if s.on F.CH_CFG_TIMED c then 1000 else 0

/-- Every sample of set `n` up to an instant has come. -/
def State.allCome (s : State) (n : Nat) (at_ : Instant) : Bool :=
  (s.cset n).chans.entries.all (fun e => notLater (addNs at_ (s.chanLag e.1)) s.now)

/-! ### The end of the post-trigger window (R200, R204) -/

/-- A set's samples and items cut off at an end instant (R200, R204). -/
def CapSet.cut (x : CapSet) (end_ : Instant) : CapSet :=
  { x with
    end_ := end_, reference := end_, items := x.items.filter (fun i => earlier i.2.1 end_)
    chans := ⟨x.chans.entries.map (fun e => (e.1, { e.2 with post := e.2.post.filter (fun p => earlier p.1 end_) }))⟩ }

/-- An overflow of set `n` in channel `c` at an instant, its end instant (R204). -/
def State.overflow (s : State) (n c : Nat) (at_ : Instant) : State :=
  let x := s.cset n
  let x := if s.capState n = 3 then { x with missed := 0 } else x
  ((s.putCset n { x.cut at_ with flags := x.flags ||| 2, ovf := some (c, at_) }).csEvent n 2).wr F.CS_STATUS_STATE 4 n

/-- Items of set `n` enqueued in chunks as long as `full` leaves a chunk to close: a chunk that is full of
samples before which no other can come; with `rest`, the open one too.  A chunk that finds no credit is
the overflow of R204: at the instant of its last sample, or, the window being over, at the end. -/
def State.closeChunks (s : State) (n : Nat) (rest : Bool) : Nat → State
  | 0 => s
  | fuel + 1 =>
    let x := s.cset n
    match x.items[if rest then min 255 (x.items.length - 1) else 255]? with
    | none => s
    | some i =>
      if !rest && !s.allCome n i.2.1 then s
      else
        let past := decide (s.capState n ≠ 3)
        let r := s.closeChunk n
        if r.2 then r.1.closeChunks n rest fuel
        else if past then
          let y := r.1.cset n
          if bitOf y.flags 1 then r.1 else (r.1.putCset n { y with flags := y.flags ||| 2, ovf := some (i.1, y.end_) }).csEvent n 2
        else r.1.overflow n i.1 i.2.1

/-- The chunks of set `n` that can be enqueued now: full ones, and the open one once the window is over and
every sample before the end has come. -/
def State.streamChunks (s : State) (n : Nat) : State :=
  let x := s.cset n
  if x.streamOut then
    let rest := decide (s.capState n = 4) && s.allCome n x.end_
    s.closeChunks n rest (x.items.length / 256 + 1)
  else s

/-- Set `n` in WRITING, its end instant set. -/
def State.endPost (s : State) (n : Nat) (end_ : Instant) : State :=
  let s := s.putCset n { (s.cset n).cut end_ with missed := 0 }
  (s.wr F.CS_STATUS_STATE 4 n).streamChunks n

/-! ### Samples (R198, R204) -/

/-- The last `k` of a list. -/
def lastOf {α : Type} (k : Nat) (l : List α) : List α := l.drop (l.length - k)

/-- A sample in its place by its instant, after those of the same instant. -/
def insertSample (e : Instant × Word) : List (Instant × Word) → List (Instant × Word)
  | [] => [e]
  | f :: r => if earlier e.1 f.1 then e :: f :: r else f :: insertSample e r

/-- A sample put into a pre ring: those of the newest instant and the last `n` before it. -/
def putPre (n : Nat) (l : List (Instant × Word)) (e : Instant × Word) : List (Instant × Word) :=
  let l := insertSample e l
  let newest := (l.getLast?.getD e).1
  lastOf n (l.filter (fun x => x.1 != newest)) ++ l.filter (fun x => x.1 == newest)

/-- A post-trigger sample of channel `c` of set `n`: kept, streamed, or the overflow of R204: beyond the
capacity of a timed channel the sample with the last instant is the one too many.  Once 16 KiB have come,
whether the FIFO is full is an average matter: a free value (notes/assumptions/1.md). -/
def State.putPost (s : State) (n c : Nat) (at_ : Instant) (v : Word) : State :=
  let x := s.cset n
  match x.chans.find c with
  | none => s
  | some ch =>
    if ch.nPost ≤ ch.post.length ∧ !ch.timed then s
    else
      let size := if x.streamOut then 16 else ch.size
      let d := s.draw
      let full := decide (16384 < x.bytes + size) && d.1.getLsbD 0
      let s := if 16384 < x.bytes + size then d.2 else s
      let opens := decide (x.items.length % 256 = 0) && decide (x.acked + x.chunks ≤ x.chunk + x.items.length / 256)
      if full || (x.streamOut && opens) then s.overflow n c at_
      else
        let post := insertSample (at_, v) ch.post
        let x := { x with bytes := x.bytes + size, chans := x.chans.set c { ch with post := post } }
        let x := if x.streamOut then { x with items := insertItem (c, at_, v) x.items } else x
        let s := s.putCset n x
        match post[ch.nPost]? with
        | some extra => (s.overflow n c extra.1).streamChunks n
        | none => s.streamChunks n

/-- A sample of channel `c` at an instant: into the pre ring before T, into the post window from
T on and before the end; a released value strobed before the end still counts while the slot
is being written. -/
def State.capSample (s : State) (c : Nat) (at_ : Instant) (v : Word) : State :=
  let n := s.rd F.CH_SRC_SET c
  let x := s.cset n
  match x.chans.find c with
  | none => s
  | some ch =>
    let pre := s.putCset n { x with chans := x.chans.set c { ch with pre := putPre ch.nPre ch.pre (at_, v) } }
    if earlier at_ x.filling then s
    else
      match s.capState n with
      | 1 => pre
      | 2 => pre
      | 3 => if earlier at_ x.trigT then pre else if earlier at_ (addNs x.trigT x.postNs) then s.putPost n c at_ v else s
      | 4 => if earlier at_ x.trigT then pre else if earlier at_ x.end_ then s.putPost n c at_ v else s
      | _ => s

/-- The capture channels on source `kind`, `id` that satisfy `f`. -/
def State.chansOn (s : State) (kind id : Nat) (f : Nat → Bool) : List Nat :=
  (s.recsOf 4 5).filterMap (fun e =>
    let c := keyIndex e.1
    if s.rd F.CH_SRC_KIND c = kind ∧ s.rd F.CH_SRC_ID c = id ∧ s.rd F.CH_SRC_SET c < 32 ∧ f c then some c else none)

/-- The value of channel `c`'s source now. -/
def State.chanValue (s : State) (c : Nat) : Word :=
  BitVec.ofNat 32 (s.sourceValue (s.rd F.CH_SRC_KIND c) (s.rd F.CH_SRC_SIGNAL c) (s.rd F.CH_SRC_ID c) (s.rd F.CH_SRC_RING c))

/-- The channels of a cell (kind 0) or axis (kind 1) sampled at the release of an evaluation
strobed at an instant. -/
def State.releaseChans (s : State) (kind id : Nat) (at_ : Instant) : State :=
  s.each (s.chansOn kind id (fun _ => true)) (fun s c => s.capSample c at_ (s.chanValue c))

/-- The timed channels of a cell at a comparator transition now (R198). -/
def State.crossingChans (s : State) (id : Nat) : State :=
  s.each (s.chansOn 0 id (fun c => s.on F.CH_CFG_TIMED c)) (fun s c => s.capSample c s.now (s.chanValue c))

/-- The timed channels of an FIO pin at an edge stamped `at_`. -/
def State.edgeChans (s : State) (id : Nat) (at_ : Instant) : State :=
  s.each (s.chansOn 5 id (fun c => s.on F.CH_CFG_TIMED c)) (fun s c => s.capSample c at_ (s.chanValue c))

/-- The channels of ring `r`: input words at the end of a reception (signal 0), output words at
an output release (signal 1). -/
def State.ringChans (s : State) (r signal : Nat) : State :=
  s.each ((s.recsOf 4 5).filterMap (fun e =>
      let c := keyIndex e.1
      if s.rd F.CH_SRC_KIND c = 6 ∧ s.rd F.CH_SRC_RING c = r ∧ s.rd F.CH_SRC_SIGNAL c = signal ∧ s.rd F.CH_SRC_SET c < 32 then some c else none))
    (fun s c => s.capSample c s.now (s.chanValue c))

/-- A late evaluation (R198): a periodic channel keeps the previous value and sets LATE_SEEN;
where there is none, the value is not stated (notes/assumptions/1.md). -/
def State.lateChans (s : State) (kind id : Nat) (at_ : Instant) : State :=
  s.each (s.chansOn kind id (fun c => !s.on F.CH_CFG_TIMED c)) (fun s c =>
    let n := s.rd F.CH_SRC_SET c
    match (s.cset n).chans.find c with
    | none => s
    | some ch =>
      let s := s.putCset n { s.cset n with chans := (s.cset n).chans.set c { ch with late := true } }
      match (ch.pre ++ ch.post).getLast? with
      | some e => s.capSample c at_ e.2
      | none => (s.draw.2).capSample c at_ (s.draw.1.setWidth 32))

/-- A late evaluation's marks on taps and channels (R174, R198). -/
def State.lateSamples (s : State) (kind id : Nat) (at_ : Instant) : State := (s.lateTaps kind id at_).lateChans kind id at_

/-- An event on route `er` stamped `at_` (09 R476) seen by the sequencers and by the timed channels on
it. -/
def State.trigEvent (s : State) (er data : Nat) (at_ : Instant) : State :=
  let s := s.latchSeqs er at_
  s.each (s.chansOn 3 er (fun c => s.on F.CH_CFG_TIMED c)) (fun s c => s.capSample c at_ (BitVec.ofNat 32 data))

/-! ### Mask units (R209) -/

/-- A mask unit's envelope is loaded for its partition. -/
def State.envOk (s : State) (n env : Nat) : Bool :=
  match s.trig.envs.find env, s.ownerMU n with
  | some e, some p => e.1 == p
  | _, _ => false

/-- Whether a mask unit's limits hold and it has a partition (R191, R192). -/
def State.maskLimits (s : State) (n : Nat) : Bool :=
  let per := s.rd F.MU_PERIOD n
  (s.ownerMU n).isSome && decide (1000 ≤ per) && decide (per ≤ 1000000000) && decide (s.rd F.MU_PHASE n < per)

/-- An MU_EVENT bit set and recorded (07 Table 7.9). -/
def State.muEvent (s : State) (n bit : Nat) (detail : List Byte := []) : State :=
  (s.setBit F.MU_EVENT bit n).event (streamOf (s.ownerMU n)) 7 n bit 0 0 detail

/-- An arming that names an envelope not loaded for the unit's partition (R209). -/
def State.envRefused (s : State) (n env : Nat) : State :=
  s.muEvent n 4 (leBytes 4 env)

/-- Mask unit `n` armed with an envelope and A (R209). -/
def State.armMaskAt (s : State) (n env : Nat) (a : Instant) (byCommit : Bool) : State :=
  if !s.maskLimits n then s
  else if !s.envOk n env then s.envRefused n env
  else
    let s := s.putMask n ⟨byCommit, none⟩
    (((s.wr F.MU_STATUS_STATE 1 n).wr F.MU_STATUS_ENV_NOW env n).wrT F.MU_A a n).wr F.MU_STATUS_VIOL_RUN 0 n

/-- ARM_MASK at a commit. -/
def State.armMask (s : State) (n env : Nat) : State := s.armMaskAt n env s.now true

/-- Mask unit `n` disarmed. -/
def State.disarmMask (s : State) (n : Nat) : State :=
  (s.putMask n ⟨false, none⟩).wr F.MU_STATUS_STATE 0 n

/-- What a commit does before its own arms (R193, R209): its step is latched, and scoped units
armed by an earlier commit are disarmed. -/
def State.trigStep (s : State) (p step : Nat) : State :=
  let s := s.latchStep p step
  s.each (s.trig.masks.keys.filter (fun n => (s.maskUnit n).byCommit && s.on F.MU_CFG_STEP_SCOPED n && s.ownerMU n == some p)) State.disarmMask

/-! ### Disarming (R197, R200) -/

/-- Capture set `n` disarmed (Table 8.4). -/
def State.disarmSet (s : State) (n : Nat) : State :=
  match s.capState n with
  | 1 => (s.putCset n { s.cset n with disarmed := some s.now }).idleSet n
  | 2 => (s.putCset n { s.cset n with disarmed := some s.now }).idleSet n
  | 3 =>
    let x := s.cset n
    ((s.putCset n { x with flags := x.flags ||| 8 }).csEvent n 4).endPost n s.now
  | _ => s

/-- Sequencer `n` stopped and its set disarmed. -/
def State.disarmTrig (s : State) (n : Nat) : State := (s.wr F.TS_STATUS_RUNNING 0 n).disarmSet n

/-- A partition reset's effect on its sequencers, sets and mask units (R197, R209). -/
def State.resetTrig (s : State) (p : Nat) : State :=
  let s := s.each ((List.range 32).filter (fun n => s.ownerTS n == some p)) State.disarmTrig
  s.each ((List.range 64).filter (fun n => s.ownerMU n == some p)) State.disarmMask

/-! ### Slots (R201, R206) -/

/-- The slot of the next capture of set `n` is free (R201). -/
def State.slotReady (s : State) (n : Nat) : Bool :=
  let seq := s.rd F.CS_CAP_SEQ n
  let slots := s.rd F.CS_SLOT_CFG_SLOTS n
  decide (seq < slots) || decide (seq - slots < s.rd F.CS_CONSUMED n)

/-- Bytes padded with zeros to a length. -/
def padTo (n : Nat) (l : List Byte) : List Byte := l ++ List.replicate (n - l.length) 0

/-- The samples of a channel as its slot holds them. -/
def CapChan.bytes (c : CapChan) (l : List (Instant × Word)) : List Byte :=
  (l.map (fun e => (if c.timed then leBytes 8 e.1.toNat else []) ++ leBytes 4 e.2.toNat)).flatten

/-- The data of a channel: its pre capacity, then its post capacity. -/
def CapChan.data (c : CapChan) (streamed : Bool) : List Byte :=
  padTo c.preBytes (c.bytes (lastOf c.nPre c.pre)) ++ (if streamed then [] else padTo c.postBytes (c.bytes c.post))

/-- The descriptor of channel `c` (Table 8.6) with its DATA_OFF. -/
def State.descriptor (s : State) (c : Nat) (ch : CapChan) (off : Nat) : List Byte :=
  let pre := lastOf ch.nPre ch.pre
  let id := s.rd F.CH_SRC_ID c + 2 ^ 14 * s.rd F.CH_SRC_RING c
  let first := if ch.timed then 0 else ((pre.head?.orElse (fun _ => ch.post.head?)).map (fun e => e.1.toNat)).getD 0
  leBytes 2 c ++ leBytes 1 (s.rd F.CH_SRC_KIND c) ++ leBytes 1 (s.rd F.CH_SRC_SIGNAL c) ++ leBytes 2 id ++ leBytes 1 (b2n ch.timed) ++
  leBytes 1 (b2n ch.late) ++ leBytes 4 ch.period ++ leBytes 4 pre.length ++ leBytes 4 ch.post.length ++ leBytes 4 off ++ leBytes 8 first

/-- Descriptors and data of a list of channels, the data from an offset on. -/
def State.slotParts (s : State) (streamed : Bool) : Nat → List (Nat × CapChan) → List Byte × List Byte
  | _, [] => ([], [])
  | off, (c, ch) :: rest =>
    let d := ch.data streamed
    let r := s.slotParts streamed (off + d.length) rest
    (s.descriptor c ch off ++ r.1, d ++ r.2)

/-- The header of Table 8.5 with a digest. -/
def State.capHeader (s : State) (n : Nat) (digest : Nat) : List Byte :=
  let x := s.cset n
  leBytes 4 0x54504143 ++ leBytes 2 1 ++ leBytes 1 n ++ leBytes 1 ((s.ownerTS n).getD 0) ++ leBytes 8 (s.rd F.CS_CAP_SEQ n) ++
  leBytes 8 x.trigT.toNat ++ leBytes 8 x.eventT.toNat ++ leBytes 4 x.word ++ leBytes 4 (x.flags ||| 4 * b2n x.streamOut) ++ leBytes 8 x.dead ++
  leBytes 4 x.missedAt ++ leBytes 2 x.chans.entries.length ++ leBytes 2 ((x.ovf.map (·.1)).getD 0xFFFF) ++
  leBytes 8 ((x.ovf.map (fun o => o.2.toNat)).getD 0) ++ leBytes 4 x.preNs ++ leBytes 4 x.postNs ++ leBytes 4 x.need ++
  leBytes 4 (s.rd F.SK_EPOCH) ++ leBytes 48 digest ++ List.replicate 128 0

/-- The bytes of set `n`'s slot before the ring of chunks, with a digest in the header. -/
def State.slotHead (s : State) (n digest : Nat) : List Byte :=
  let x := s.cset n
  let parts := s.slotParts x.streamOut x.dataOff x.chans.entries
  s.capHeader n digest ++ parts.1 ++ parts.2

/-- DIGEST of set `n`'s capture (Table 8.5): over the slot with the field zero. -/
def State.capDigest (s : State) (n : Nat) : Digest :=
  let x := s.cset n
  let head := s.slotHead n 0
  let rest := if x.streamOut then s.dram.readBytes (s.slotBase n (s.rd F.CS_CAP_SEQ n) + head.length) (x.need - head.length) else []
  Config.sha384 (head ++ rest)

end Sys2Proof.Machine
end

