-- ==== Sys2Proof/Machine/SecOps.lean ====
section
/-! DEFINITION.  Zenith's keys and floors (15 R366 to R374). -/

namespace Sys2Proof.Machine

open Sys2Proof

/-- Zenith changed by `f`. -/
def State.onSec (s : State) (f : Security → Security) : State := { s with sec := f s.sec }

/-- A bit of SEC_EVENT set. -/
def State.secEvent (s : State) (bit : Nat) : State := s.setBit F.SEC_EVENT bit

/-- Root slot `k` holds a present key: programmed, not revoked, its key-block entry matching
(R367, R368). -/
def State.rootPresent (s : State) (k : Nat) : Bool :=
  decide (k < 4) && bitOf (s.rd F.SEC_STATUS_PROGRAMMED) k && !bitOf (s.rd F.SEC_STATUS_REVOKED) k && !s.sec.absent.contains k

/-- KEY_ID `k` names a present Maelantok root. -/
def State.makerOk (s : State) (k : Nat) : Bool := decide (k < 2) && s.rootPresent k

/-- KEY_ID `k` names a present tool-builder root (R372, Table 15.3). -/
def State.rootOk (s : State) (k : Nat) : Bool := decide (2 ≤ k) && s.rootPresent k

/-- KEY_ID `k` names a recipe-author key enrolled for partition `p` (R372). -/
def State.recipeKeyOk (s : State) (p k : Nat) : Bool :=
  decide (0x100 ≤ k) && decide (k < 0x140) && (s.sec.authors.find (k - 0x100)).any (fun e => bitOf e.2 p)

/-- The floor register of class `c` of Table 15.5. -/
def floorField (c : Nat) : Fld :=
  match c with
  | 0 => F.SEC_BEAM_FLOOR
  | 1 => F.SEC_MATRIX_FLOOR
  | 2 => F.SEC_SAFEPROG_FLOOR
  | 3 => F.SEC_RECIPE_FLOOR
  | 4 => F.SEC_DRAFT_FLOOR
  | _ => F.SEC_PROG_FLOOR

/-- VERSION `v` is below the floor of class `c` (of partition `p` where it has one), or that
floor is lost (R372, R373). -/
def State.belowFloor (s : State) (c p v : Nat) : Bool :=
  s.sec.lost.contains (c, p) || decide (v < s.rd (floorField c) p)

end Sys2Proof.Machine
end

