-- ==== Sys2Proof/Machine/StopOps.lean ====
section
/-! DEFINITION.  What a cyclic program puts out, and entry to STOP (11 R275, R278). -/

namespace Sys2Proof

/-- The output entries of a program for cyclic task `i`. -/
def Program.outputs (g : Program) (i : Nat) : List MapEntry := g.map.filter (fun e => e.dir == 1 && e.task == i)

end Sys2Proof

namespace Sys2Proof.Machine

open Sys2Proof

/-- A CP_EVENT bit of partition `p` set. -/
def State.cpEvent (s : State) (p bit : Nat) : State := s.setBit F.CP_EVENT bit p

/-- The bytes of a mapped output released (R275): a discrete output takes bit 0 of its byte, ring
bytes enter the ring's output space, a program output variable reaches its routes. -/
def State.putMapped (s : State) (e : MapEntry) (bs : List Byte) : State :=
  match e.kind with
  | 4 => s.command e.src ((bs.headD 0).getLsbD 0)
  | 5 => s.ringSend (e.src / 2 ^ 30) (e.src % 2 ^ 14) bs
  | _ => s.publish 6 (s.cfg (vrKey e.src) 0 4 % 2 ^ 28) (ofLeBytes bs)

/-- A mapped output at its SAFE setting (Table 11.5). -/
def State.safeMapped (s : State) (e : MapEntry) : State :=
  if e.safe = 2 then s else s.putMapped e (List.replicate e.len (if e.safe = 1 then 0xFF else 0))

/-- A cyclic task's waiting root is not created (R274). -/
def State.dropRoot (s : State) (p k : Nat) : State :=
  s.onSched (fun c => { c with claims := c.claims.filter (· != (p, .root k)) })

/-- The scan of cyclic task `k` ended without release: its waiting root is not created, its
tasks are cancelled under R260, and its image is discarded (R278). -/
def State.dropScan (s : State) (p k : Nat) : State :=
  match s.scan k with
  | none => s
  | some _ =>
    let s := (s.putCycTask k { s.cycTask k with scan := none }).dropRoot p k
    let mine := s.sched.tasks.keys.filter (fun i => (s.task i).scan == some k)
    let s := s.each mine (fun s i => s.putTask i { s.task i with root := none, scan := none })
    let s := s.each mine (fun s i => if s.slotUsed i then (s.cancelSlot i).1 else s)
    s.onSched (fun c => { c with rootEnds := c.rootEnds.erase k })

/-- Every mapped output of partition `p`'s program at its SAFE setting. -/
def State.safeOutputs (s : State) (p : Nat) : State :=
  match (s.cycPart p).prog with
  | some g => (g.map.filter (·.dir == 1)).foldl State.safeMapped s
  | none => s

/-- The record of a stop cause (07 Table 7.9). -/
def State.stopRecord (s : State) (p cause : Nat) : State := s.event p 8 p 1 0 cause

/-- Entry of partition `p` to STOP now (R278). -/
def State.enterStop (s : State) (p cause : Nat) : State :=
  let s := ((s.wr F.CP_STATUS_STATE 0 p).wr F.CP_STATUS_STOP_CAUSE cause p).wrT F.CP_STOP_T s.now p
  let s := s.each (cycTasks p) (fun s k => s.dropScan p k)
  let s := (s.safeOutputs p).abortTreadle p
  (((s.cpEvent p 1).stopRecord p cause).settle).runChange

/-- A stop cause of Table 11.10 for partition `p` (R277, R278): from RUN or HOLD the partition
enters STOP; a further cause at the same instant has its own record and changes nothing else. -/
def State.partStop (s : State) (p cause : Nat) : State :=
  if s.rd F.CP_STATUS_STATE p = 0 then
    if (s.cycPart p).prog.isSome && s.rdT F.CP_STOP_T p == s.now then s.stopRecord p cause else s
  else s.enterStop p cause

/-- A device fault's effect on the partitions (01 Table 1.4): every one goes to STOP. -/
def State.stopAll (s : State) (cause : Nat) : State := s.each (List.range 16) (fun s p => s.partStop p cause)

end Sys2Proof.Machine
end

