-- ==== Sys2Proof/Machine/LoomOps.lean ====
section
/-! DEFINITION.  Event routes, logic elements, and records taking effect: the load's initial
values, flips and edits (09). -/

namespace Sys2Proof.Machine

open Sys2Proof

/-! ### Event routes (R217, Table 9.9) -/

/-- An event emitted on event route `er` with its data word and stamp: every latching sink takes it, and
the scheduler sink's FIFO takes it, or the source holds it, or it is lost (R217). -/
def State.emit (s : State) (er data : Nat) (at_ : Instant) : State :=
  let s := (s.latchConds 0 er).trigEvent er data at_
  if s.cfg (erKey er) 4 2 = 0xFFFF ∨ s.loom.records.find (erKey er) = none then s else (s.schedPut er data).dispatch

/-- An event of a source of event-route kind `kind`, index `id`, on every route sourced from
it, but those in a gated quadrant, which deliver none (16 R396). -/
def State.emitFrom (s : State) (kind id data : Nat) : State :=
  s.each ((s.quadRecs 5).filterMap (fun e => if bytesAt e.2.active 0 4 = kind * 2 ^ 28 + id ∧ s.quadOn (keySpace e.1) = true then some (keyNumber e.1) else none))
    (fun s er => s.emit er data s.now)

/-- An edge stamped `at_` of an FIO pin (kind 0) or a logic element output (kind 1): routes that select
this direction, in powered quadrants. -/
def State.emitEdge (s : State) (kind id : Nat) (rising : Bool) (at_ : Instant) : State :=
  s.each ((s.quadRecs 5).filterMap (fun e =>
      let src := bytesAt e.2.active 0 4
      if src / 2 ^ 28 = kind ∧ src % 2 ^ 26 = id ∧ bitOf src (if rising then 26 else 27) = true ∧ s.quadOn (keySpace e.1) = true then some (keyNumber e.1) else none))
    (fun s er => s.emit er 0 at_)

/-! ### Logic elements (R218, R219) -/

/-- Logic element `n` beyond its record and output. -/
def State.le (s : State) (n : Nat) : LogicElem := s.loom.les.get n ⟨false, none⟩
/-- Logic element `n` set. -/
def State.putLe (s : State) (n : Nat) (x : LogicElem) : State := { s with loom := { s.loom with les := s.loom.les.set n x } }

/-- The output of logic element `n` set: an edge reaches its event routes and its gates. -/
def State.setLe (s : State) (n : Nat) (b : Bool) : State :=
  if s.leOut n = b then s
  else ((s.wr F.LE_NET (putBit (s.rd F.LE_NET (n / 32)) (n % 32) b) (n / 32)).emitEdge 1 n b s.now).settle

/-- f: the LUT value for the present inputs, with the output in the place of in3 for a LATCH. -/
def State.lutValue (s : State) (n : Nat) : Bool :=
  let key := leKey n
  let i := fun k => b2n (s.net (s.cfg key (8 + 4 * k) 4))
  let top := if s.cfg key 2 1 = 1 then b2n (s.leOut n) else i 3
  bitOf (s.cfg key 0 2) (8 * top + 4 * i 2 + 2 * i 1 + i 0)

/-- Logic element `n` re-evaluated for an input change whose instant at its source is `since`
(R219): a timer measures from it, and one already past acts now. -/
def State.evalLe (s : State) (n : Nat) (since : Instant) : State :=
  let f := s.lutValue n
  let x := s.le n
  let ends := addNs since (1000 * s.cfg (leKey n) 4 4)
  let s := s.putLe n { x with f := f }
  match s.cfg (leKey n) 2 1 with
  | 2 =>
    if f && !x.f then
      if notLater ends s.now then s.setLe n true else s.putLe n ⟨f, some ends⟩
    else if !f then (s.putLe n ⟨f, none⟩).setLe n false
    else s
  | 3 =>
    if f then (s.putLe n ⟨f, none⟩).setLe n true
    else if x.f then
      if notLater ends s.now then s.setLe n false else s.putLe n ⟨f, some ends⟩
    else s
  | 4 =>
    if f && !x.f && x.deadline.isNone then
      if notLater ends s.now then s else (s.putLe n ⟨f, some ends⟩).setLe n true
    else s
  | _ => s.setLe n f

/-! ### Register images (R226, R227) -/

/-- BAR0 offset of the register image of a record. -/
def imageBase (key : Nat) : Option Nat :=
  let n := keyNumber key
  if keySpace key < 4 then
    match keyKind key with
    | 0 => some (0x200000 + 0x100 * n) | 1 => some (0x310000 + 0x40 * n) | 2 => some (0x400000 + 0x100 * n) | _ => none
  else if keySpace key = 4 then
    match keyKind key with
    | 2 => some (0x520000 + 0x10 * n) | 3 => some (0x600000 + 0x800 * n) | 4 => some (0x610000 + 0x100 * n)
    | 5 => some (0x620000 + 0x10 * n) | 6 => some (0x630000 + 0x40 * n) | 7 => some (0x501000 + 0x80 * n)
    | _ => none
  else none

/-- The record whose register image holds BAR0 offset `a`. -/
def keyAt (a : Nat) : Option Nat :=
  let q := fun (base stride count size : Nat) (f : Nat → Nat) =>
    if base ≤ a ∧ a < base + stride * count ∧ (a - base) % stride < size then some (f ((a - base) / stride)) else none
  ((q 0x200000 0x100 1024 0x100 loopKey).orElse (fun _ => q 0x310000 0x40 256 0x40 genKey)).orElse (fun _ =>
  ((q 0x400000 0x100 128 0x100 axisKey).orElse (fun _ => q 0x520000 0x10 8192 0x10 tapKey)).orElse (fun _ =>
  ((q 0x600000 0x800 32 0x500 tseqKey).orElse (fun _ => q 0x610000 0x100 32 0x50 csetKey)).orElse (fun _ =>
  ((q 0x620000 0x10 256 0x10 chanKey).orElse (fun _ => q 0x630000 0x40 64 0x40 maskKey)).orElse (fun _ =>
    q 0x501000 0x80 17 0x80 streamKey))))

/-- The part of a register's field that `v` holds at the field's place in the register. -/
def State.wrPart (s : State) (b : FieldBits) (i v : Nat) : State :=
  let x := v / 2 ^ b.lo % 2 ^ b.width
  let old := s.rd b.fld i
  s.wr b.fld (old - old / 2 ^ b.from_ % 2 ^ b.width * 2 ^ b.from_ + x * 2 ^ b.from_) i

/-- The fields of a list that the register at `addr` shows, set from a word. -/
def State.applyWord (s : State) (ids : List Nat) (addr v : Nat) : State :=
  match findReg addr with
  | some (r, i) => r.fields.foldl (fun s b => if ids.contains b.fld.id then s.wrPart b i v else s) s
  | none => s

/-- The words of a record that differ between two contents, with the new word. -/
def changedWords (key old new : Nat) : List (Nat × Nat) :=
  let size := ((recBytesOf (keySpace key) (keyKind key)).getD 0 + 3) / 4
  ((List.range size).filter (fun w => wordAt old w != wordAt new w)).map (fun w => (w, wordAt new w))

/-- The configuration fields of a record's image set from its words. -/
def State.applyImage (s : State) (key : Nat) (ws : List (Nat × Nat)) : State :=
  match imageBase key with
  | some b => ws.foldl (fun s e => s.applyWord cfgFields (b + 4 * e.1) e.2) s
  | none => s

/-- A loop cell's bank words among the words of its record (Table 3.8: words 40 to 63). -/
def bankWords (ws : List (Nat × Nat)) : List (Nat × Nat) :=
  (ws.filter (fun e => decide (40 ≤ e.1) && decide (e.1 < 64))).map (fun e => (e.1 - 40, e.2))

/-! ### The load's initial values (Table 9.10) -/

/-- A record's content taken as the load leaves it: configuration fields and initial values. -/
def State.takeLoaded (s : State) (key : Nat) : State :=
  let v := (s.recOf key).active
  let n := keyNumber key
  let size := ((recBytesOf (keySpace key) (keyKind key)).getD 0 + 3) / 4
  let ws := (List.range size).map (fun w => (w, wordAt v w))
  let s := s.applyImage key ws
  if keySpace key < 4 then
    match keyKind key with
    | 0 =>
      let b := (bankWords ws).foldl (fun b e => b.put e.1 e.2) (⟨.empty⟩ : Bank)
      let s := s.putCell n { s.cell n with bankA := b, bankB := b }
      let s := s.wr F.LC_STATUS_SHADOW_VALID (b2n b.valid) n
      s.putCs n (toSigned 48 (wordAt v 19 + 2 ^ 32 * wordAt v 20))
    | 1 =>
      let l := genLimits (wordAt v 6) (wordAt v 7 % 2 ^ 11) (wordAt v 7 / 2 ^ 16 % 2 ^ 11)
      let s := ((s.wr F.PG_VMAX l.1 n).wr F.PG_WIN_M1 l.2.1 n).wr F.PG_WIN_M2 l.2.2 n
      let s := s.wr F.PG_TARGET (wordAt v 5) n
      let s := s.putGen n (Gen.init.restart (s.rdI F.PG_INIT n) l.2.1 l.2.2)
      (s.wrShadow n (wordAt v 5) l).shapeGen n (s.rdI F.PG_INIT n) 0
    | 2 => (s.wr F.AX_NEXT_SEG_COUNT (wordAt v 31 / 2 ^ 16) n).wr F.AX_NEXT_SEG_FIRST (wordAt v 31) n
    | 3 => s.wr F.LE_NET (putBit (s.rd F.LE_NET (n / 32)) (n % 32) (bitOf (bytesAt v 3 1) 0)) (n / 32)
    | _ => s
  else if keySpace key = 4 ∧ keyKind key = 1 then
    let init := bitOf (bytesAt v 9 1) 2
    let w := bytesAt v 8 1
    let pin := bytesAt v 0 4
    let s := s.putOut n { s.loom.outs.get n ⟨false, false⟩ with cmd := init }
    if pin / 2 ^ 30 = 0 ∧ (w = 3 ∨ w = 4) then s.putPin (pin % 256) { s.pin (pin % 256) with out := init } else s
  else if keySpace key = 4 ∧ keyKind key = 8 then
    let s := (s.wr F.HQ_CFG_KIND (bytesAt v 0 1) n).wr F.HQ_CFG_DEPTH_LOG2 (bytesAt v 1 1) n
    (s.wr F.HQ_CFG_EVENT (bytesAt v 2 2) n).wr F.HQ_CFG_OWNER ((s.owner key).getD 31) n
  else if keySpace key = 4 ∧ keyKind key = 9 then
    match s.owner key with
    | some p => if bytesAt v 0 1 = 1 then (s.wr F.SH_STATUS_RESERVED 1 n).wr F.SH_STATUS_RES_PART p n else s
    | none => s
  else s

/-! ### Taps (07 R176) -/

/-- The TAPCFG record of stream `k` from instant `at_` on (07 Table 7.2). -/
def State.tapCfg (s : State) (k : Nat) (at_ : Instant) : State :=
  let one := fun n =>
    let g := s.tapGrid n
    leBytes 2 n ++ leBytes 1 (s.rd F.TAP_SRC_KIND n) ++ leBytes 1 (s.rd F.TAP_SRC_SIGNAL n) ++ leBytes 2 (s.rd F.TAP_SRC_ID n) ++
    leBytes 1 (s.rd F.TAP_CFG_POLICY n) ++ [0] ++ leBytes 2 (s.rd F.TAP_CFG_N n) ++ [0, 0] ++ leBytes 4 g.1 ++ leBytes 4 g.2
  s.record k { kind := 0x0B, flags := 0, body := leBytes 8 at_.toNat ++ ((s.tapsOf k).map one).flatten, first := at_, last := at_, samples := [] }

/-- The runs of a stream's taps ended by a change of configuration, and the change announced
(07 R176, R177). -/
def State.announceTaps (s : State) (k : Nat) : State :=
  (s.each (s.tapsOf k) (fun s n => s.endRun k n)).tapCfg k s.now

/-! ### Flips (R231, R232) -/

/-- A record's changed content taking effect at a flip (R232): its configuration fields; for a
loop cell the changed bank words as a swap at F without SWAP_DONE; for a generator its changed
initial values; a logic element whose LUT or MODE changed re-evaluates. -/
def State.takeChanged (s : State) (key old new : Nat) : State :=
  let ws := changedWords key old new
  let n := keyNumber key
  let s := s.applyImage key ws
  if keySpace key < 4 then
    match keyKind key with
    | 0 =>
      let bw := bankWords ws
      let s := if bw.isEmpty then s
        else
          let b := bw.foldl (fun b e => b.put e.1 e.2) (s.active n)
          let c := s.cell n
          let s := s.putCell n { c with bankA := b, bankB := b, reclamp := c.eval.isSome || c.latched.isSome || c.reclamp }
          (s.wr F.LC_STATUS_SHADOW_VALID (b2n b.valid) n).swapClamp n
      if ws.any (fun e => e.1 == 19 || e.1 == 20) then s.putCs n (toSigned 48 (wordAt new 19 + 2 ^ 32 * wordAt new 20)) else s
    | 1 =>
      let s := if ws.any (fun e => e.1 == 5) then s.giveTarget n (wordAt new 5) else s
      if ws.any (fun e => e.1 == 6 || e.1 == 7) then
        s.giveLimits n (genLimits (wordAt new 6) (wordAt new 7 % 2 ^ 11) (wordAt new 7 / 2 ^ 16 % 2 ^ 11))
      else s
    | 2 =>
      if ws.any (fun e => e.1 == 31) then (s.wr F.AX_NEXT_SEG_COUNT (wordAt new 31 / 2 ^ 16) n).wr F.AX_NEXT_SEG_FIRST (wordAt new 31) n else s
    | 3 => if ws.any (fun e => e.1 == 0) then s.evalLe n s.now else s
    | _ => s
  else s

/-- The records at `keys` flipped in one sweep: every record's copies are exchanged first, then
each takes effect; the taps changed count their sample instants anew (07 R172) and are announced. -/
def State.flipRecords (s : State) (keys : List Nat) : State :=
  let before := keys.map (fun k => (k, (s.recOf k).active, (s.recOf k).shadow))
  let s := keys.foldl (fun s k =>
    let r := s.recOf k
    s.putRecord k { r with active := r.shadow, shadow := r.active, edited := false }) s
  let s := before.foldl (fun s e => s.takeChanged e.1 e.2.1 e.2.2) s
  let taps := ((before.filter (fun e => keySpace e.1 == 4 && keyKind e.1 == 2 && e.2.1 != e.2.2)).map (fun e => keyIndex e.1))
  let streams := (taps.map (fun n => s.rd F.TAP_SRC_STREAM n)).eraseDups
  let s := s.each taps (fun s n => s.putTapMem n { s.tapMem n with seen := 0 })
  (s.each (streams.filter (· < 17)) State.announceTaps).settle

/-! ### Edits (R234) -/

/-- The records of partition `p` with an edit pending. -/
def State.editedKeys (s : State) (p : Nat) : List Nat := ((s.recsOwned p).filter (fun e => e.2.edited)).map (·.1)

/-- Pending edits discarded: every shadow equals its active copy again (R234). -/
def State.discardEdits (s : State) (p : Nat) : State :=
  let s := (s.editedKeys p).foldl (fun s k =>
    let r := s.recOf k
    s.putRecord k { r with shadow := r.active, edited := false }) s
  s.wr F.LP_STATUS_EDITS_PENDING 0 p


/-- A word of a record changed in the bits of `mask`. -/
def withWord (v w mask x : Nat) : Nat :=
  let old := wordAt v w
  let new := (old &&& (2 ^ 32 - 1 - mask)) ||| (x &&& mask)
  v - old * 2 ^ (32 * w) + new * 2 ^ (32 * w)

/-! ### Applications (R238, R239, R241) -/

/-- The application of partition `p`. -/
def State.applying (s : State) (p : Nat) : Apply := s.loom.applies.get p Apply.init
/-- The application of partition `p` set. -/
def State.putApply (s : State) (p : Nat) (a : Apply) : State := { s with loom := { s.loom with applies := s.loom.applies.set p a } }

/-- Pending edits take effect by a flip now (R234): at EDIT_COMMIT's instant, or as the
partition leaves STOP, which is then the flip that an EDIT_COMMIT still awaited. -/
def State.flipEdits (s : State) (p : Nat) : State :=
  let ks := s.editedKeys p
  let a := s.applying p
  let s := match a.flip with
    | some (_, .edit) => s.putApply p { a with flip := none }
    | _ => s
  if ks.isEmpty then s
  else ((s.flipRecords ks).wr F.LP_STATUS_EDITS_PENDING 0 p).wrT F.LP_FLIP s.now p

/-- An LP event of partition `p` set. -/
def State.lpEvent (s : State) (p bit : Nat) : State := s.setBit F.LP_EVENT bit p

/-- The first instant at or after `t` whose nanosecond count is a multiple of 1,000. -/
def nextMicro (t : Instant) : Instant := tickFrom 1000 t

/-- The content of the record at `key` under draft slot `d` of partition `p` (R236): the draft's
frame of the same FADDR, else the Beam's. -/
def State.target (s : State) (p d key : Nat) : Nat :=
  let beam := (s.recOf key).beam
  if d = 15 then beam
  else
    match s.loom.drafts.find (8 * p + d) with
    | none => beam
    | some img =>
      let size := (recBytesOf (keySpace key) (keyKind key)).getD 1
      match img.frames.find? (fun f => decide (recKey f.space f.kind f.index ≤ key) && decide (key < recKey f.space f.kind f.index + f.len / size)) with
      | some f => bytesAt f.payload ((key - recKey f.space f.kind f.index) * size) size
      | none => beam

/-- The end of an application with RESULT `res` (Table 9.16). -/
def State.endApply (s : State) (p res : Nat) : State :=
  let s := s.putApply p { s.applying p with keys := [], flip := none, verifyFails := 0, journalFails := 0 }
  let s := (s.wr F.LP_STATUS_RESULT res p).wr F.LP_STATUS_APPLY_STATE 0 p |>.settle
  if res = 0 then s.lpEvent p 0 else (s.lpEvent p 1).event p 10 p 1 1 res

/-- The shadows of the records of an application equal to their active copies again. -/
def State.restoreShadows (s : State) (p : Nat) : State :=
  (s.applying p).keys.foldl (fun s k =>
    let r := s.recOf k
    s.putRecord k { r with shadow := r.active }) s

/-- A partition reset's effect on its application (R241).  In phase 3 the application ends with the flip
back, and until then it stays in progress (assumption 79). -/
def State.resetApply (s : State) (p : Nat) : State :=
  match s.rd F.LP_STATUS_APPLY_STATE p with
  | 1 => (s.restoreShadows p).endApply p 6
  | 2 => (s.restoreShadows p).endApply p 6
  | 3 =>
    let a := s.applying p
    let writing := a.flip.isNone
    s.putApply p { a with flip := some ((a.flip.map (·.1)).getD (nextGrid 1000 0 s.now), .back), result := 6, superseded := a.superseded || writing }
  | _ => s

end Sys2Proof.Machine
end

