-- ==== Sys2Proof/Machine/RegOps.lean ====
section
/-! DEFINITION.  Discarded writes and the conditions on host writes (00 R16, R17; 18 R427,
R431). -/

namespace Sys2Proof.Machine

/-- The word that the register at BAR0 offset `off` holds, its fields in their places; an
instant or count of two words gives the half that the register shows. -/
def State.regWord (s : State) (off : Nat) : Nat :=
  match findReg off with
  | some (r, i) => r.fields.foldl (fun v b => v ||| (s.rd b.fld i / 2 ^ b.from_ % 2 ^ b.width * 2 ^ b.lo)) 0
  | none => 0

/-- Partition `p` is in STOP. -/
def State.inStop (s : State) (p : Nat) : Bool := s.rd F.CP_STATUS_STATE p == 0

/-- Whether an RWL field of an owner is writable (R16, R17): its partition is in STOP, or,
with no owner, every partition is. -/
def State.rwlOpen (s : State) (owner : Option Nat) : Bool :=
  match owner with
  | some p => s.inStop p
  | none => (List.range 16).all s.inStop

/-- The object whose command register lies at `off`, a register that carries EXPECT (18 R439):
TR_CTRL, CP_CTRL, LP_CTRL and RST_PART of a partition, TD_CTRL and UPD_CTRL of the device. -/
def commandObject (off : Nat) : Option Nat :=
  let at_ := fun (base stride : Nat) => if base ≤ off ∧ off < base + stride * 16 ∧ (off - base) % stride = 0 then some ((off - base) / stride) else none
  [at_ 0x300000 0x100, at_ 0x900000 0x200, at_ 0x701000 0x40, at_ 0xE00300 8, if off = 0xC00010 ∨ off = 0xD00200 then some 16 else none].findSome? id

/-- The next SEQ of an object taken (18 R439). -/
def State.takeSeq (s : State) (obj : Nat) : State :=
  { s with host := { s.host with seqs := s.host.seqs.modify obj 0 (· + 1) } }

/-- The partition of the resource whose registers lie at BAR0 offset `off` (18 Table 18.1). -/
def State.regPartition (s : State) (off : Nat) : Option Nat :=
  let at_ := fun (base stride count : Nat) (f : Nat → Option Nat) =>
    if base ≤ off ∧ off < base + stride * count then f ((off - base) / stride) else none
  let own := fun (base stride count : Nat) (key : Nat → Nat) => at_ base stride count (fun n => s.owner (key n))
  let part := fun (base stride : Nat) => at_ base stride 16 some
  [own 0x200000 0x100 1024 loopKey, part 0x300000 0x100, own 0x310000 0x40 256 genKey, own 0x400000 0x100 128 axisKey,
   at_ 0x702000 0x100 16 some, own 0x708000 8 8192 outKey, own 0x720000 4 12288 vrKey,
   part 0x501000 0x80, own 0x520000 0x10 8192 tapKey, own 0x600000 0x800 32 tseqKey, own 0x610000 0x100 32 csetKey,
   own 0x620000 0x10 256 chanKey, own 0x630000 0x40 64 maskKey, part 0x701000 0x40, part 0x801000 0x40,
   at_ 0x802000 0x20 128 (fun h => s.owner (queueKey h)), at_ 0x806000 4 1024 (fun f => some (f / 64)), part 0x900000 0x200,
   at_ 0xE00100 8 16 some, at_ 0xE00300 8 16 some].findSome? id

/-- A host command or a write of a register that belongs to partition `p` (14 R356): on a covered
partition the holder, while its partner is STANDBY, admits it now and lets it take effect at the
execution instant, 50 µs later, when it comes again; a unit that does not hold the token
refuses it. -/
def State.coveredGate (s : State) (p : Option Nat) (refuse f : State → State) : State :=
  if p.any s.covered && s.tandem.execAt != some s.now then
    if s.role ≠ 0 then refuse (s.tdEvent 14)
    else if s.rd F.TD_STATUS_PARTNER_ROLE = 1 then
      let at_ := addNs s.now 50000
      (s.onTandem (fun x => { x with admitted := x.admitted ++ [at_] })).sendFrame 12 (leBytes 8 at_.toNat)
    else f s
  else f s

/-- A host write at BAR0 offset `off` that is no command: `f`, unless the device is booting (18
R431); a write of a covered partition's register goes by 14 R356. -/
def State.plainWrite (s : State) (off : Nat) (f : State → State) : State :=
  if s.on F.HOST_STATUS_BOOTING && !bootOpen off then s.discard 6 off else s.coveredGate (s.regPartition off) id f

/-- The host paths changed by `f`. -/
def State.onHost (s : State) (f : HostPaths → HostPaths) : State := { s with host := f s.host }

/-- Accepted commands of an object that have not completed, in SEQ order. -/
def State.waiting (s : State) (obj : Nat) : List HostCmd := s.host.cmds.get obj []
/-- Accepted commands of an object set. -/
def State.putWaiting (s : State) (obj : Nat) (l : List HostCmd) : State := s.onHost (fun h => { h with cmds := h.cmds.set obj l })

/-- DRAM address of the window of mailbox `m` (R437). -/
def windowBase (m : Nat) : Nat := 0x20000000 + 0x4000000 * m

/-- A completion entry (Table 18.3). -/
def completionBytes (c : HostCmd) (a : Answer) (t : Instant) : List Byte :=
  leBytes 4 c.tag ++ leBytes 2 c.opcode ++ leBytes 2 a.status ++ leBytes 4 (ofSigned 32 a.result) ++ leBytes 4 c.seq ++
  leBytes 8 t.toNat ++ leBytes 4 a.data.length ++ leBytes 4 0

/-- PV_SEQ of a partition: the last SEQ executed (R445). -/
def State.showSeq (s : State) (obj seq : Nat) : State := if obj < 16 then s.wr F.PV_SEQ seq obj else s

/-- A command completed with the answer (R441, R442): in its mailbox's completion ring with the
returned data at DATA_OFF, or in a reply datagram. -/
def State.completeCmd (s : State) (obj : Nat) (c : HostCmd) (a : Answer) : State :=
  let bytes := completionBytes c a s.now
  let s := s.showSeq obj c.seq
  let s := { s with answer := a }
  if c.eth then s.onHost (fun h => { h with reply := bytes ++ a.data.take 8192 })
  else
    let i := s.rd F.MBX_STATE_COMP obj
    let m := (s.dram.writeBytes (windowBase obj + 0x1000 + 32 * (i % 64)) bytes).writeBytes (windowBase obj + c.off) a.data
    (({ s with dram := m }).wr F.MBX_STATE_COMP (i + 1) obj).interrupt obj

/-- Commands at the head of an object's queue that complete without execution: malformed, or
with data beyond the window (R440, R441). -/
def State.drainRefused (s : State) (obj : Nat) : Nat → State
  | 0 => s
  | n + 1 =>
    match s.waiting obj with
    | [] => s
    | c :: rest =>
      if c.status = 0 then s
      else ((s.putWaiting obj rest).completeCmd obj c ⟨c.status, 0, []⟩).drainRefused obj n

/-- A BAR0 command accepted behind others of its object (18 R439): it waits, and executes when it comes
again at the head of them. -/
def State.acceptWrite (s : State) (obj off tag : Nat) : State :=
  let c : HostCmd :=
    { opcode := 0, tag := 0, kind := 0, expect := 0, arg0 := 0, arg1 := 0, off := off, len := 0, seq := s.host.seqs.get obj 0, eth := false
      status := 0, write := some tag }
  (s.takeSeq obj).putWaiting obj (s.waiting obj ++ [c])

/-- A host write at BAR0 offset `off`: one that sets a command bit of a register with EXPECT, as
`command` says, takes its object's next SEQ, waits for the commands accepted before it, and executes
alone (18 R439); `tag` is what tells two waiting writes of one register apart. -/
def State.hostWrite (s : State) (off : Nat) (f : State → State) (tag : Nat := 0) (command : Bool := true) : State :=
  if s.on F.HOST_STATUS_BOOTING && !bootOpen off then s.discard 6 off
  else
    let go := fun (s : State) (f : State → State) => s.coveredGate (s.regPartition off) id f
    match if command then commandObject off else none with
    | none => go s f
    | some obj =>
      match s.waiting obj with
      | [] =>
        let s := s.when (s.tandem.execAt != some s.now) (·.takeSeq obj)
        go s (fun s => f (s.showSeq obj (s.host.seqs.get obj 0 - 1)))
      | c :: rest =>
        if c.write = some tag ∧ c.off = off then (go (s.putWaiting obj rest) (fun s => f (s.showSeq obj c.seq))).drainRefused obj (rest.length + 1)
        else s.acceptWrite obj off tag

/-- A host write of an RWL field at `off` (00 R16, R17). -/
def State.rwlWrite (s : State) (off : Nat) (owner : Option Nat) (f : State → State) : State :=
  s.hostWrite off (fun s => if s.rwlOpen owner then f s else s.discard 3 off)

/-- The partition's Treadle is RUNNING or PAUSED. -/
def State.treadleBusy (s : State) (owner : Option Nat) : Bool :=
  match owner with
  | some p => s.rd F.TR_STATUS_STATE p == 1 || s.rd F.TR_STATUS_STATE p == 2
  | none => false

/-- What the device answers to the command being executed: RESULT and returned data. -/
def State.reply (s : State) (r : Int) (data : List Byte := []) : State := { s with answer := ⟨0, r, data⟩ }

/-- A command that completes with a STATUS other than EXECUTED (Table 18.3). -/
def State.replyStatus (s : State) (status : Nat) : State := { s with answer := ⟨status, 0, []⟩ }

/-- A word that a read gives the requester. -/
def State.answerWord (s : State) (v : Nat) : State := s.reply 0 (leBytes 4 v)

end Sys2Proof.Machine
end

