-- ==== Sys2Proof/Machine/Warp.lean ====
section
/-! DEFINITION.  The Warp time base (02): discipline, steps, monitors, pins and the
core-voltage controller. -/

namespace Sys2Proof.Machine

open Sys2Proof

/-- What a command answers: every command of this block answers a next state unless it says
otherwise. -/
abbrev Out := Host.Outcome State Fault Refusal

/-- A write of SLEW_NS replaces the remaining offset and starts the slew (R37). -/
def execSlewNsWrite (t : Instant) (offset : Word) (s : State) : Out := .next (
  (s.advance t).deviceWrite 0x100014 (·.putSlew (offset.toInt * (16 * 2 ^ 40))))

/-- The remaining offset reaches zero and SLEW_ACTIVE clears (R37): at the Warp clock edge that absorbs
what is left of it.  An offset that no one edge absorbs goes on. -/
def execSlewEnd (t : Instant) (s : State) : Out := .next (
  let s := s.advance t
  if absorb s.warp.slewLeft s.slewShare 1 = 0 then s.absorbTo 0 else s)

/-- A write of RATE_ADJ; the effective rate is clamped (R34). -/
def execRateAdjWrite (t : Instant) (rate : Word) (s : State) : Out := .next (
  (s.advance t).deviceWrite 0x100010 (fun s =>
    let s := s.wr F.RATE_ADJ rate.toNat
    s.wr F.WARP_STATUS_RATE_CLAMPED (b2n (s.rateSum != s.rate))))

/-- The lowest refusal code of a step that holds, 0 when none does (R38). -/
def State.stepRefusal (s : State) : Nat :=
  if (List.range 16).any (fun p => s.rd F.CP_STATUS_STATE p == 1) then 1
  else if (List.range 16).any s.partRunning then 2
  else if s.on F.TD_STATUS_WARP_SYNC then 3
  else if (s.rdT F.STEP_TO).getLsbD 63 != s.now.getLsbD 63 then 4
  else 0

/-- The grids re-anchored by a step of `d` sixteenths (R40).  A grid is fixed by Warp time alone
(R45); what is counted from an instant before the step, a pulse or an interval in progress, a pin's
filter or the cycle of a ring, keeps its length (assumption 76), and ring cycle numbers go on without
a gap. -/
def State.shiftGrids (s : State) (d : BitVec 64) : State :=
  let edge := fun (e : Option (Instant × Bool)) => e.map (fun x => (x.1 + d, x.2))
  let s := { s with warp := { s.warp with ppsFall := s.warp.ppsFall + d, syncFall := s.warp.syncFall + d, relockFrom := s.warp.relockFrom.map (· + d), avsAt := s.warp.avsAt + d, ppsEdge := edge s.warp.ppsEdge, syncEdge := edge s.warp.syncEdge } }
  let s := { s with fio := ⟨s.fio.entries.map (fun (e : Nat × FioPin) => (e.1, { e.2 with edge := e.2.edge.map (· + d) }))⟩ }
  s.each s.rings.keys (fun s r =>
    let x := s.ring r
    s.putRing r { x with insertAt := x.insertAt + d, discAt := x.discAt + d, cycleAt := x.cycleAt.map (· + d), lastCycle := x.lastCycle.map (· + d), lastGood := x.lastGood + d, hostAt := x.hostAt.map (· + d), identAt := x.identAt.map (fun (e : Nat × Instant) => (e.1, e.2 + d)) })

/-- A step of the Warp to `new` and an epoch (R40): the counter and the epoch load, an armed
SYNC_OUT is cancelled, the grids are re-anchored and the old and new instants are recorded. -/
def State.stepWarp (s : State) (new : Instant) (epoch : Nat) : State :=
  let old := s.now
  let s := { s with warp := { s.warp with now := new, removed := s.warp.removed + sinceS new old * 2 ^ 40 } }
  let s := (s.wr F.WARP_STATUS_EPOCH epoch).shiftGrids (new - old)
  let s := if s.on F.SYNC_OUT_CFG_ARM then (s.wr F.SYNC_OUT_CFG_ARM 0).warpEvent F.WARP_EVENT_SYNC_LATE 5 else s
  s.warpEvent F.WARP_EVENT_STEP_DONE 3 0 (leBytes 8 old.toNat ++ leBytes 8 new.toNat)

/-- What an accepted step does (R40). -/
def State.doStep (s : State) : State :=
  (s.wr F.STEP_CTRL_RESULT 0).stepWarp (s.rdT F.STEP_TO) (s.rd F.STEP_CTRL_EPOCH_TAI)

/-- A write of STEP_CTRL (R38, R39): EPOCH_TAI takes the written bit; GO requests the step,
which is refused with the lowest code that holds or accepted. -/
def execStepGo (t : Instant) (value : Word) (s : State) : Out := .next (
  (s.advance t).deviceWrite 0x100028 (fun s =>
    let s := s.wr F.STEP_CTRL_EPOCH_TAI (b2n (value.getLsbD 1))
    if value.getLsbD 0 then
      let c := s.stepRefusal
      if c = 0 then s.doStep
      else (s.wr F.STEP_CTRL_RESULT c).warpEvent F.WARP_EVENT_STEP_REFUSED 4 c
    else s))

/-- FREQ_ERR and WARP_ERR of a window in which the monitor counted `n` cycles (R41). -/
def monitorErr (n : Nat) : Int := 25 * (400000 - n)

/-- The PLL enters holdover (R42). -/
def State.enterHoldover (s : State) : State :=
  if s.on F.WARP_STATUS_HOLDOVER then s
  else (s.wr F.WARP_STATUS_HOLDOVER 1).wr F.WARP_STATUS_LOCKED 0

/-- A reference window ends (R41): FREQ_ERR is published; an error above 2,000 starts
holdover (R42); in holdover an error above 1,600 restarts the relock interval (R43). -/
def execRefWindowEnd (t : Instant) (n : Word) (s : State) : Out := .next (
  let s := s.advance t
  let e := monitorErr n.toNat
  let s := (s.wrI F.WARP_REF_MON_FREQ_ERR e).wr F.WARP_STATUS_REF_OK (b2n (e.natAbs ≤ 2000))
  let s := if 2000 < e.natAbs then
      ((s.warpEvent F.WARP_EVENT_REF_FREQ 1).sysFault 13).enterHoldover
    else s
  let s := if s.on F.WARP_STATUS_HOLDOVER && decide (1600 < e.natAbs) then
      { s with warp := { s.warp with relockFrom := some s.now } }
    else s
  s)

/-- A Warp-clock window ends (R41): WARP_ERR is published; in holdover an error above 5,000
is a Warp fault: FAULT_N is asserted and every partition goes to STOP (R44). -/
def execWarpWindowEnd (t : Instant) (m : Word) (s : State) : Out := .next (
  let s := s.advance t
  let e := monitorErr m.toNat
  let s := s.wrI F.WARP_REF_MON_WARP_ERR e
  if s.on F.WARP_STATUS_HOLDOVER && decide (5000 < e.natAbs) then
     (((s.sysFault 12).devFault 2).stopAll 7)
  else s)

/-- REFCLK shows no edge for 100 ns (R41, R42). -/
def execRefLost (t : Instant) (s : State) : Out := .next (
  let s := (s.advance t).warpEvent F.WARP_EVENT_REF_LOST 0
  let s := (s.wr F.WARP_STATUS_REF_OK 0).enterHoldover
  { s with warp := { s.warp with relockFrom := none } })

/-- REFCLK's first edge after a loss: the reference window and the relock interval start
again (R41, R43).  REF_OK stays 0 until that window ends (assumption 81). -/
def execRefclkReturn (t : Instant) (s : State) : Out := .next (
  let s := s.advance t
  if s.on F.WARP_STATUS_HOLDOVER && s.warp.relockFrom == none then
    { s with warp := { s.warp with relockFrom := some s.now } }
  else s)

/-- Holdover ends when REFCLK has been good for RELOCK_MS (R43); the count does not step.
A RELOCK_MS outside its range is used as written (assumption 81). -/
def execHoldoverExit (t : Instant) (s : State) : Out := .next (
  let s := s.advance t
  match s.warp.relockFrom with
  | some from_ =>
    if s.on F.WARP_STATUS_HOLDOVER && decide ((s.rd F.HOLDOVER_CFG : Int) * 1000000 ≤ sinceNs s.now from_) then
      let s := { s with warp := { s.warp with relockFrom := none } }
      let s := (s.wr F.WARP_STATUS_HOLDOVER 0).wr F.WARP_STATUS_LOCKED 1
      s.warpEvent F.WARP_EVENT_HOLDOVER_EXIT 2
    else s
  | none => s)

/-- The nanosecond count wraps (00 R12): instants compare by their signed difference and each
grid restarts from nanosecond 0 (R46), both of which the instants' arithmetic gives; nothing
else changes. -/
def execWarpWrap (t : Instant) (s : State) : Out := .next ((s.advance t))

/-- PPS_OUT rises at each multiple of 1,000,000,000 ns displaced by PPS_OUT_OFFSET (R50). -/
def execPpsOutRise (t : Instant) (s : State) : Out := .next (
  let s := s.advance t
  let grid := s.now.toNat % 16 == 0 && ((nsOf s.now : Int) - s.rdI F.PPS_OUT_OFFSET) % 1000000000 == 0
  if s.on F.PPS_OUT_CFG_EN && grid then
    { s with warp := { s.warp with ppsOut := true, ppsFall := addNs s.now (1000 * s.rd F.PPS_OUT_CFG_WIDTH_US) } }
  else s)

/-- PPS_OUT falls WIDTH_US after it rose (R50). -/
def execPpsOutFall (t : Instant) (s : State) : Out := .next (
  let s := s.advance t
  if s.warp.ppsOut && notLater s.warp.ppsFall s.now then
    { s with warp := { s.warp with ppsOut := false } }
  else s)

/-- Whether an edge is the active edge of the input: the rising one of PPS_IN, of SYNC_IN the one that
SYNC_IN_CFG.POL names (R51). -/
def State.activeEdge (s : State) (i : StampInput) (rising : Bool) : Bool :=
  match i with
  | .pps => rising
  | .sync => rising != s.on F.SYNC_IN_CFG_POL

/-- An edge of PPS_IN or SYNC_IN: the active one is stamped, with the coarse flag of R49, and awaits
qualification; the other ends the pulse, and one shorter than MIN_NS is ignored (R51). -/
def execStampInputEdge (t : Instant) (i : StampInput) (rising : Bool) (s : State) : Out := .next (
  let s := s.advance t
  let e := if s.activeEdge i rising then some (s.now, s.on F.WARP_STATUS_COARSE) else none
  match i with
  | .pps => { s with warp := { s.warp with ppsEdge := e } }
  | .sync => { s with warp := { s.warp with syncEdge := e } })

/-- A pulse has lasted MIN_NS: its stamp becomes visible to PPS_IN or SYNC_IN and to every
user of it (R51), with the coarse flag taken at its edge (R49). -/
def execStampInputQualified (t : Instant) (i : StampInput) (s : State) : Out := .next (
  let s := s.advance t
  let ripe (e : Instant) := decide ((s.rd F.SYNC_IN_CFG_MIN_NS : Int) ≤ sinceNs s.now e)
  match i with
  | .pps => match s.warp.ppsEdge with
    | some (e, coarse) => if ripe e then
        let s := { s with warp := { s.warp with ppsEdge := none, ppsCoarse := coarse } }
        s.wrT F.PPS_IN e
      else s
    | none => s
  | .sync => match s.warp.syncEdge with
    | some (e, coarse) => if ripe e then
        let s := { s with warp := { s.warp with syncEdge := none, syncCoarse := coarse } }
        (s.wrT F.SYNC_IN e).syncGroups e
      else s
    | none => s)

/-- A write of SYNC_OUT_CFG (R52): an ARM whose instant has passed, or coincides and is
ordered behind the comparator, emits no pulse, clears ARM and sets SYNC_LATE. -/
def execSyncOutArm (t : Instant) (value : Word) (armFirst : Bool) (s : State) : Out := .next (
  (s.advance t).deviceWrite 0x100068 (fun s =>
    let s := (s.wr F.SYNC_OUT_CFG_WIDTH_NS (value.toNat / 65536)).wr F.SYNC_OUT_CFG_POL (b2n (value.getLsbD 1))
    let at_ := s.rdT F.SYNC_OUT_AT
    if value.getLsbD 0 then
      if earlier at_ s.now || (at_ == s.now && !armFirst) then (s.wr F.SYNC_OUT_CFG_ARM 0).warpEvent F.WARP_EVENT_SYNC_LATE 5
      else s.wr F.SYNC_OUT_CFG_ARM 1
    else s.wr F.SYNC_OUT_CFG_ARM 0))

/-- The armed pulse of SYNC_OUT at SYNC_OUT_AT; ARM clears (R52). -/
def execSyncOutPulse (t : Instant) (s : State) : Out := .next (
  let s := s.advance t
  if s.on F.SYNC_OUT_CFG_ARM && s.now == s.rdT F.SYNC_OUT_AT then
    let s := { s with warp := { s.warp with syncOut := true, syncFall := addNs s.now (s.rd F.SYNC_OUT_CFG_WIDTH_NS) } }
    s.wr F.SYNC_OUT_CFG_ARM 0
  else s)

/-- The pulse of SYNC_OUT ends after WIDTH_NS (02, SYNC_OUT_CFG). -/
def execSyncOutFall (t : Instant) (s : State) : Out := .next (
  let s := s.advance t
  if s.warp.syncOut && notLater s.warp.syncFall s.now then
    { s with warp := { s.warp with syncOut := false } }
  else s)

/-! ### Slack and the core voltage (R53 to R58) -/

/-- VMAX_MV and VMIN_MV as the controller uses them (02, AVS_LIMITS). -/
def State.vmax (s : State) : Nat := min 900 (s.rd F.AVS_LIMITS_VMAX_MV)
/-- The lower limit: at least 550 and at most VMAX_MV. -/
def State.vmin (s : State) : Nat := min s.vmax (max 550 (s.rd F.AVS_LIMITS_VMIN_MV))

/-- A voltage within the controller's limits (02, AVS_SET). -/
def State.clampVolt (s : State) (mv : Nat) : Nat := clampNat s.vmin s.vmax mv

/-- VDD_CORE commanded to `mv` (R55). -/
def State.setVolt (s : State) (mv : Nat) : State :=
  (s.wr F.AVS_STATUS_CMD_MV mv).wr F.AVS_STATUS_AT_MAX (b2n (mv == s.vmax))

/-- FIXED mode holds VDD_CORE at FIXED_MV within the limits (R57); AT_MAX follows the limits in every
mode. -/
def State.holdVolt (s : State) : State :=
  s.setVolt (if s.rd F.AVS_CTRL_MODE = 1 then s.clampVolt (s.rd F.AVS_SET_FIXED_MV) else s.rd F.AVS_STATUS_CMD_MV)

/-- The controller starts at an exit from OFF or DEEP_SLEEP (R57): at BOOT_MV within the limits, from
where FIXED mode goes to FIXED_MV; the PLL locks and a slack window begins (R54). -/
def State.startVolt (s : State) : State :=
  let s := { s with warp := { s.warp with slackEdges := 0, slackUs := clampNat 100 10000 (s.rd F.SLACK_WINDOW), slackLow := none } }
  (s.setVolt (s.clampVolt (s.rd F.AVS_SET_BOOT_MV))).holdVolt

/-- A raise by `mv` that is due in AUTO mode (R55, R56): up to VMAX_MV; at VMAX_MV it sets
SLACK_ALARM. -/
def State.raiseVolt (s : State) (mv : Nat) : State :=
  let v := s.rd F.AVS_STATUS_CMD_MV
  let s := if v = s.vmax then s.warpEvent F.WARP_EVENT_SLACK_ALARM 7 else s
  s.setVolt (min (v + mv) s.vmax)

/-- The slack of a release of source KIND `kind`, ID `id` enters the window and SLACK_LOW
(R54); the first source of the lowest value is kept. -/
def State.noteSlack (s : State) (ns : Int) (kind id : Nat) : State :=
  let s := match s.warp.slackLow with
    | some (v, _, _) => if ns < v then { s with warp := { s.warp with slackLow := some (ns, kind, id) } } else s
    | none => { s with warp := { s.warp with slackLow := some (ns, kind, id) } }
  if ns < s.rdI F.SLACK_LOW then s.wrI F.SLACK_LOW ns else s

/-- A late result (R56): in AUTO mode VDD_CORE rises at once by LATE_MV. -/
def State.lateRaise (s : State) : State :=
  if s.rd F.AVS_CTRL_MODE = 0 then s.raiseVolt (s.rd F.AVS_CTRL_LATE_MV) else s

/-- The slack window in progress has lasted its WINDOW_US × 1,000 Warp clock edges (R54). -/
def State.slackDue (s : State) : Bool := decide (s.warp.slackUs * 1000 * 2 ^ 40 ≤ s.warp.slackEdges + 2 ^ 39)

/-- The next slack window begins at the edge at which the last ended (R54); WINDOW_US is taken, within
its limits. -/
def State.nextSlackWindow (s : State) : State :=
  { s with warp := { s.warp with slackLow := none, slackEdges := s.warp.slackEdges - s.warp.slackUs * 1000 * 2 ^ 40, slackUs := clampNat 100 10000 (s.rd F.SLACK_WINDOW) } }

/-- A slack window ends (R54, R55): SLACK_MIN and SLACK_SRC are published and, in AUTO mode,
the controller steps VDD_CORE.  A window with no results clears VALID, and MIN_NS, KIND and ID keep the
last published values (assumption 77). -/
def execSlackWindowEnd (t : Instant) (s : State) : Out := .next (
  let s := s.advance t
  let low := s.warp.slackLow
  if !s.slackDue then s
  else
  let s := s.nextSlackWindow
  match low with
  | none => (s.wr F.SLACK_SRC_VALID 0)
  | some (v, k, id) =>
    let s := (((s.wrI F.SLACK_MIN v).wr F.SLACK_SRC_VALID 1).wr F.SLACK_SRC_KIND k).wr F.SLACK_SRC_ID id
    if s.rd F.AVS_CTRL_MODE = 0 then
      let target : Int := s.rd F.SLACK_TARGET_TARGET_NS
      if v < target then (s.raiseVolt (s.rd F.AVS_CTRL_UP_MV))
      else if target + s.rd F.SLACK_TARGET_HYST_NS < v then
        s.setVolt (max (s.rd F.AVS_STATUS_CMD_MV - s.rd F.AVS_CTRL_DOWN_MV) s.vmin)
      else s
    else s)

/-- The attempts of a transaction that were not acknowledged before now.  A retry begins at the timeout
before it, so that its own timeout comes 100 µs later; a timeout after that is a first attempt's
(assumption 18). -/
def State.avsAttempts (s : State) : Nat := if sinceNs s.now s.warp.avsAt ≤ 100000 then s.warp.avsTries else 0

/-- The regulator does not acknowledge a transaction within 100 µs (R58): two retries, then AVS_FAULT
and HOLD. -/
def execAvsTimeout (t : Instant) (s : State) : Out := .next (
  let s := s.advance t
  let tries := s.avsAttempts
  if tries < 2 then { s with warp := { s.warp with avsTries := tries + 1, avsAt := s.now } }
  else
    let s := { s with warp := { s.warp with avsTries := 0 } }
    let s := (s.wr F.AVS_CTRL_MODE 2).wr F.AVS_STATUS_FAULT 1
    (s.warpEvent F.WARP_EVENT_AVS_FAULT 8))

/-- A write of AVS_CTRL (R57, R58): MODE AUTO or FIXED clears FAULT; FIXED holds VDD_CORE at
FIXED_MV within the limits. -/
def execAvsModeWrite (t : Instant) (value : Word) (s : State) : Out := .next (
  (s.advance t).deviceWrite 0x100084 (fun s =>
    let v := value.toNat
    let mode := v % 4
    let s := (((s.wr F.AVS_CTRL_LATE_MV (v / 2 ^ 24)).wr F.AVS_CTRL_DOWN_MV (v / 2 ^ 16)).wr F.AVS_CTRL_UP_MV (v / 2 ^ 8)).wr F.AVS_CTRL_MODE mode
    if mode < 2 then (s.wr F.AVS_STATUS_FAULT 0).holdVolt else s))

/-- The duplicated Warp counters differ (01 R26, Table 1.4): FAULT_N and every partition to
STOP. -/
def execWarpCounterMismatch (t : Instant) (s : State) : Out := .next (
  ((((s.advance t).sysFault 12).devFault 1).stopAll 7))

end Sys2Proof.Machine
end

