-- ==== Sys2Proof/Machine/LoopOps.lean ====
section
/-! DEFINITION.  The operations of a loop cell on the state: banks, destinations, evaluation,
release and faults (03, 04). -/

namespace Sys2Proof.Machine

/-! ### Destinations (R73, Table 3.5) -/

/-- A PWM pin given a high time and a period that starts now. -/
def State.drivePwm (s : State) (pin period high : Nat) : State :=
  s.putPin pin { s.pin pin with pwm := some ⟨s.now, period, high, true, false⟩, nextPwm := none, out := decide (0 < high) } |>.settle

/-- A pin driven to a level. -/
def State.driveLevel (s : State) (pin : Nat) (b : Bool) : State :=
  s.putPin pin { s.pin pin with pwm := none, nextPwm := none, out := b } |>.settle

/-- PWM_PERIOD_NS as the cell uses it. -/
def State.pwmPeriod (s : State) (n : Nat) : Nat :=
  let p := s.rd F.LC_PWM_PERIOD n
  if 1000 ≤ p ∧ p ≤ 10000000 then p else 0

/-- u delivered to the cell's destination (Table 3.5), with PWM period `p`.  In event mode an FIO pin
shows the level (R86). -/
def State.driveWith (s : State) (n p : Nat) (u : Int) : State :=
  let s := s.putCell n { s.cell n with inForce := u }
  let id := s.rd F.LC_DEST_DEST_ID n
  match s.rd F.LC_ROUTE_DEST_KIND n with
  | 0 =>
    if p = 0 then
      s.driveLevel id (if s.on F.LC_STATUS_EVT_ARMED n then (s.cell n).j != 0 else decide (0 < u))
    else s.drivePwm id p (rshr (max u 0 * p) 31).toNat
  | 1 => { s with aout := s.aout.set id (clampInt 0 65535 (rshr u 16 + 32768)).toNat }
  | 2 =>
    if s.on F.LC_ROUTE_RING_FMT n then s.ringSend (s.rd F.LC_DEST_RING n) id (leBytes 2 (ofSigned 16 (sat16 (rshr u 16))))
    else s.ringSend (s.rd F.LC_DEST_RING n) id (leBytes 4 (ofSigned 32 u))
  | _ => s

/-- u delivered to the cell's destination with the PWM period in force. -/
def State.driveCell (s : State) (n : Nat) (u : Int) : State := s.driveWith n (s.pwmPeriod n) u

/-- u made visible with PWM period `p`: the register U, the routes sourced from it and the
destination. -/
def State.putUWith (s : State) (n p : Nat) (u : Int) : State :=
  ((s.wrI F.LC_U u n).publish 0 n (ofSigned 32 u)).driveWith n p u

/-- u made visible with the PWM period in force. -/
def State.putU (s : State) (n : Nat) (u : Int) : State := s.putUWith n (s.pwmPeriod n) u

/-! ### Enable (R66, R83, R89) -/

/-- Whether another enabled event-mode cell uses the same AIN (R83). -/
def State.ainTaken (s : State) (n : Nat) : Bool :=
  (s.keysOf F.LC_CTRL_ENABLE).any (fun m => m != n && s.on F.LC_CTRL_ENABLE m && s.on F.LC_CTRL_MODE m &&
    s.rd F.LC_ROUTE_Y_KIND m == 0 && s.rd F.LC_SRC_Y_ID m == s.rd F.LC_SRC_Y_ID n)

/-- The lowest CFG_ERR that applies to an enable, 0 when none does (03, LC_CTRL; 04 R89). -/
def State.cfgErr (s : State) (n : Nat) : Nat :=
  let ev := s.on F.LC_CTRL_MODE n
  let per := s.rd F.LC_PERIOD n
  let lat := s.rd F.LC_LATENCY n
  let kind := s.rd F.LC_ROUTE_Y_KIND n
  let dest := s.rd F.LC_ROUTE_DEST_KIND n
  let pwm := s.pwmPeriod n
  if pwm ≠ 0 ∧ per % pwm ≠ 0 then 1
  else if ev ∧ kind ≠ 0 then 2
  else if ev ∧ dest = 0 ∧ (pwm ≠ 0 ∨ (s.active n).nlev ≠ 2) then 3
  else if ev ∧ s.ainTaken n then 4
  else if !(s.active n).valid then 5
  else if per < 1000 ∨ 1000000000 < per ∨ per ≤ s.rd F.LC_PHASE n ∨ lat < (if kind = 0 then 1500 else 500) ∨ per < lat then 6
  else if ev ∧ dest ≠ 0 ∧ dest ≠ 1 then 7
  else 0

/-- A cell started or restarted (R66, 04 R101, R102): the level set, the dwell memory cleared,
CS clamped and the model's warm-up begun, which runs once SUP_EN is 1. -/
def State.startCell (s : State) (n : Nat) : State :=
  let b := s.active n
  let j := min (s.rd F.LC_CTRL_INIT_LEVEL n) (b.nlev - 1)
  let sup := s.on F.LC_SUP_CFG_SUP_EN n
  let c := s.cell n
  let s := s.putCell n { c with j := j, lastMove := none, prevSp := none, latched := none, eval := none, reclamp := false, keepCs := false, lates := [], parityDue := false, faultDue := false, ff := 0, codes := [], tripRise := false, tripFall := false, blankEnd := s.now, lastStrobe := none, stale := false, warmupLeft := s.rd F.LC_MODEL_CFG_DEAD n + 1 }
  let s := (s.wr F.LC_STATUS_LEVEL j n).wr F.LC_STATUS_DWELL_WAIT 0 n
  let s := (s.wr F.LC_SUP_STATUS_VIOL_RUN 0 n).wr F.LC_SUP_STATUS_OK_RUN 0 n
  let s := s.wr F.LC_SUP_STATUS_SUP_STATE (if sup then 1 else 0) n
  let s := s.wr F.LC_STATUS_EVT_ARMED (s.rd F.LC_CTRL_MODE n) n
  (s.putCs n (s.cs n)).settle

/-- A cell's enable taken away: it evaluates no more and its destination keeps its value (R75).  A host
SWAP that waits for its strobe stays asked (assumption 78). -/
def State.haltCell (s : State) (n : Nat) : State :=
  let s := s.putCell n { s.cell n with latched := none, eval := none, lates := [], parityDue := false }
  (((s.wr F.LC_CTRL_ENABLE 0 n).wr F.LC_STATUS_RUNNING 0 n).wr F.LC_STATUS_EVT_ARMED 0 n).runChange

/-! ### Faults (04 R98 to R100) -/

/-- SUP_STATUS as a word. -/
def State.supStatus (s : State) (n : Nat) : Nat :=
  s.rd F.LC_SUP_STATUS_FAULT_CAUSE n * 2 ^ 24 + s.rd F.LC_SUP_STATUS_OK_RUN n * 2 ^ 16 +
  s.rd F.LC_SUP_STATUS_VIOL_RUN n * 2 ^ 8 + s.rd F.LC_SUP_STATUS_LATE_RUN n * 2 ^ 4 + s.rd F.LC_SUP_STATUS_SUP_STATE n

/-- A loop fault or plausibility violation reported (R100): the event bit `bit` is set by the
caller; the supervision event route is signalled, a record written with y, y_m and u of the declaring
evaluation, and the safety island given a copy as a diagnostic input. -/
def State.reportCell (s : State) (n bit res : Nat) (y ym u : Int) : State :=
  let o := s.ownerLC n
  let det := leBytes 4 (s.supStatus n) ++ leBytes 4 (ofSigned 32 y) ++ leBytes 4 (ofSigned 32 ym) ++ leBytes 4 (ofSigned 32 u)
  let s := { s with island := { s.island with report := some (n, bit, res) } }
  (s.emitFrom 2 n 0).event (streamOf o) 1 n bit 0 res det

/-- The SYS fault class of a loop-fault cause (01 Table 1.4): ARITH, PARITY, STALL, LATE. -/
def State.causeClass (s : State) (n causes : Nat) : State :=
  let s := s.when (bitOf causes 0) (·.sysFault 0 n)
  let s := s.when (bitOf causes 1) (·.sysFault 1 n)
  let s := s.when (bitOf causes 2) (·.sysFault 2 n)
  s.when (bitOf causes 3) (·.sysFault 3 n)

/-- A loop fault with causes `causes` (bits of FAULT_CAUSE) declared: the cell enters FAULTED,
and for STOP its partition is asked to stop (R99). -/
def State.declareFault (s : State) (n causes : Nat) (stop : Bool) (y ym u : Int) : State :=
  let all := s.rd F.LC_SUP_STATUS_FAULT_CAUSE n ||| causes
  let s := (s.wr F.LC_SUP_STATUS_FAULT_CAUSE all n).wr F.LC_SUP_STATUS_SUP_STATE 3 n
  let s := (s.wr F.LC_SUP_EVENT_LOOP_FAULT 1 n).reportCell n 3 all y ym u
  let s := s.causeClass n causes
  match s.ownerLC n with
  | some p => if stop then s.partStop p 3 else s
  | none => s

/-- The destination takes SAFE_U, the cell stops evaluating and its comparators are released
(R99). -/
def State.enterSafe (s : State) (n : Nat) : State :=
  let s := s.putCell n { s.cell n with latched := none, eval := none, lates := [], parityDue := false, faultDue := false }
  (s.wr F.LC_STATUS_EVT_ARMED 0 n).putU n (s.rdI F.LC_SAFE_U n)

/-! ### Inputs (R69 to R71, 04 R90 to R94) -/

/-- The set-point pair of cell `n` at a strobe (Table 3.3, R70). -/
def State.setPoint (s : State) (n : Nat) : Int × Int :=
  let b := s.active n
  let id := s.rd F.LC_SRC_SP_ID n
  let diff (sp : Int) : Int :=
    if s.on F.LC_ROUTE_SPD_DIFF n then sat32 (sp - (s.cell n).prevSp.getD sp) else 0
  match s.rd F.LC_ROUTE_SP_SRC n with
  | 0 => (b.spFix, b.spdFix)
  | 1 => (s.rdI F.PG_SP id, s.rdI F.PG_SP_DOT id)
  | 2 => (s.rdI F.LC_U id, diff (s.rdI F.LC_U id))
  | _ => (s.rdI F.VR_VALUE id, diff (s.rdI F.VR_VALUE id))

/-- y of a converted q (Table 3.4). -/
def ainY (q : Nat) : Int := ((q : Int) - 32768) * 65536

/-- y of ring input bytes at the offset of cell `n` (Table 3.4). -/
def State.ringY (s : State) (n : Nat) : Int :=
  let r := s.rd F.LC_DEST_RING n
  let o := s.rd F.LC_SRC_Y_ID n
  let w := s.ringIn r o + 256 * s.ringIn r (o + 1)
  if s.on F.LC_ROUTE_Y_WIDE n then toSigned 32 (w + 65536 * (s.ringIn r (o + 2) + 256 * s.ringIn r (o + 3)))
  else toSigned 16 w * 65536

/-- A strobe of AINn (R90): the track-and-hold freezes, unless it still holds or has tracked
for less than 600 ns; in the latter case the reader takes the previous result, which is
answered with the instant of its strobe. -/
def State.strobeAin (s : State) (a : Nat) : State × Option (Nat × Instant) :=
  let x := s.ainOf a
  match x.held with
  | some _ => (s, none)
  | none =>
    if x.tracking != 0 && decide (sinceNs s.now x.tracking < 600) then (s, some (x.q, x.at_))
    else ({ s with ain := s.ain.set a { x with held := some s.now } }, none)

/-- A reader awaits the conversion of AINn that is in progress; the sample carries the instant at
which it was held (R90). -/
def State.awaitAin (s : State) (a : Nat) (r : Reader) : State :=
  let x := s.ainOf a
  { s with ain := s.ain.set a { x with readers := x.readers ++ [(r, x.held.getD s.now)] } }

/-! ### Evaluation and release (R64, R68, 04 R95 to R104) -/

/-- NR as the model uses it. -/
def State.nr (s : State) (n : Nat) : Nat := max 1 (s.rd F.LC_SUP_CFG_NR n)

/-- Whether the evaluation of cell `n` at `at_` ends its substitution (R104): the deadline has come, or
with SUB_AT_COMMIT the first Treadle commit after the evaluation that declared it. -/
def State.subEnds (s : State) (n : Nat) (at_ : Instant) : Bool :=
  let c := s.cell n
  s.rd F.LC_SUP_STATUS_SUP_STATE n == 2 &&
  (notLater c.subDeadline at_ || (s.on F.LC_SUP_CFG_SUB_AT_COMMIT n && c.commitAt.any (fun k => earlier c.subFrom k && notLater k at_)))

/-- What the strobe of cell `n` now takes for its evaluation (R64, R102): the set-point pair, the active
bank, the cell's state and the model's. -/
def State.latch (s : State) (n : Nat) (sp spDot : Int) : Latched :=
  let c := s.cell n
  { due := addNs s.now (s.rd F.LC_LATENCY n), pwm := s.pwmPeriod n
    law := { bank := s.active n, sp := sp, spDot := spDot, y := 0, cs := s.cs n, j := c.j, lastMove := c.lastMove, at_ := s.now, event := s.on F.LC_CTRL_MODE n }
    model := { k := s.rdI F.LC_MODEL_K n, b := s.rdI F.LC_MODEL_B n, sK := s.rd F.LC_MODEL_CFG_S_K n, a := s.rd F.LC_MODEL_CFG_MODEL_A n, u := c.uHist.getD (s.rd F.LC_MODEL_CFG_DEAD n) 0, yms := c.yms, warmupLeft := c.warmupLeft, resLim := s.rd F.LC_RES_LIM n, violRun := s.rd F.LC_SUP_STATUS_VIOL_RUN n, okRun := s.rd F.LC_SUP_STATUS_OK_RUN n }
    sup := { on := s.on F.LC_SUP_CFG_SUP_EN n, react := s.rd F.LC_SUP_CFG_REACT n, preSub := s.on F.LC_SUP_CFG_PRE_SUB n, nr := s.nr n, esc := s.on F.LC_SUP_CFG_SUB_ESC n, substituting := s.rd F.LC_SUP_STATUS_SUP_STATE n == 2, ends := s.subEnds n s.now } }

/-- The evaluation of cell `n` put in flight. -/
def State.launch (s : State) (n : Nat) (l : Latched) (y : Int) : State :=
  s.putCell n { s.cell n with latched := none, eval := some (l.evaluate y) }

/-- The comparator codes of a release loaded (R85): a comparator whose code changes is no
longer tripped, and EVT_CODES shows the pair of the level. -/
def State.loadCodes (s : State) (n : Nat) (codes : List (Nat × Nat)) : State :=
  let c := s.cell n
  let pair := codes.getD c.j (0, 0)
  let rise := c.tripRise && pair.1 == s.rd F.LC_EVT_CODES_LO_CODE n
  let fall := c.tripFall && pair.2 == s.rd F.LC_EVT_CODES_HI_CODE n
  let s := s.putCell n { c with codes := codes, tripRise := rise, tripFall := fall }
  (s.wr F.LC_EVT_CODES_LO_CODE pair.1 n).wr F.LC_EVT_CODES_HI_CODE pair.2 n

/-- The model values of a released evaluation (R102): with SUP_EN at 0 the model takes no step and
they stay. -/
def State.applyModel (s : State) (n : Nat) (ev : Eval) : State :=
  if ev.sup then
    let s := s.putCell n { s.cell n with yms := ev.yms, warmupLeft := ev.warmupLeft }
    let s := (s.wr F.LC_SUP_STATUS_VIOL_RUN ev.violRun n).wr F.LC_SUP_STATUS_OK_RUN ev.okRun n
    let s := if s.rd F.LC_SUP_STATUS_SUP_STATE n < 2 then s.wr F.LC_SUP_STATUS_SUP_STATE (b2n (decide (0 < ev.warmupLeft))) n else s
    (s.wrI F.LC_YM ev.ym n).wrI F.LC_RESID ev.resid n
  else s

/-- The saturation stages of a released evaluation (R62): in event mode U_CLAMP is that of the u
formed at the release. -/
def Eval.stages (ev : Eval) (clamped : Bool) : Nat := if ev.event then ev.sats % 64 + 64 * b2n clamped else ev.sats

/-- What a released evaluation leaves in the cell (R68): CS, the level, the dwell memory, the
counters, the model state, the registers and the output.  In event mode u is formed with the level in
force at the release, from the bank of the evaluation (assumption 21). -/
def State.applyEval (s : State) (n : Nat) (ev : Eval) : State :=
  let c := s.cell n
  let j := if ev.event then c.j else ev.j
  let raw := outRaw ev.bank j ev.ff
  let u := if ev.event then clampInt ev.bank.umin ev.bank.umax raw else ev.u
  let sats := ev.stages (u != raw)
  let s := s.putCell n { c with eval := none, j := j, lastMove := match ev.moved with | some up => some (ev.at_, up) | none => c.lastMove, ff := ev.ff, keepCs := false, reclamp := false }
  let s := if c.keepCs then s else s.putCs n ev.cs
  let s := s.wr F.LC_STATUS_LEVEL j n
  let s := if ev.moved.isSome then s.countMove n else s
  let s := (s.wr F.LC_STATUS_DWELL_WAIT (b2n ev.blocked) n).when ev.blocked (·.bump F.LC_DWELL_BLOCK n)
  let s := s.bump F.LC_SAT_CNT n (popcount sats 7)
  let s := s.wr F.LC_SAT_SRC (s.rd F.LC_SAT_SRC n ||| sats) n
  let s := (s.wr F.LC_SUP_STATUS_LATE_RUN 0 n).applyModel n ev
  let s := ((s.wrI F.LC_SP ev.sp n).wrI F.LC_SP_DOT ev.spDot n).wrI F.LC_Y ev.y n
  let s := ((s.wrI F.LC_E ev.e n).wrI F.LC_C ev.c n).wrI F.LC_W ev.w n
  let s := s.wr F.LC_STATUS_RUNNING 1 n
  let s := if ev.event then s.loadCodes n ev.codes else s
  ((s.publish 1 n (ofSigned 32 ev.y)).putUWith n ev.pwm u).settle

/-- The declarations of a released evaluation (R100, R102 to R104). -/
def State.declareEval (s : State) (n : Nat) (ev : Eval) : State :=
  let s := if ev.violated then (s.wr F.LC_SUP_EVENT_PLAUS_VIOL 1 n).reportCell n 0 0 ev.y ev.ym ev.u else s
  let s := if ev.subEnd then s.wr F.LC_SUP_EVENT_SUB_ENDED 1 n else s
  let s := if ev.subStart && ev.causes == 0 then
      let ms := clampNat 1 60000 (s.rd F.LC_SUP_TIME_SUB_TIME_MS n)
      let s := s.putCell n { s.cell n with subDeadline := addNs ev.at_ (ms * 1000000), subFrom := ev.at_ }
      (s.wr F.LC_SUP_STATUS_SUP_STATE 2 n).wr F.LC_SUP_EVENT_SUB_START 1 n
    else s
  if ev.causes ≠ 0 then (s.declareFault n ev.causes ev.stops ev.y ev.ym ev.u).enterSafe n else s

/-- LATE_LIMIT as the cell uses it. -/
def State.lateLimit (s : State) (n : Nat) : Nat := max 1 (s.rd F.LC_SUP_CFG_LATE_LIMIT n)

/-- A loop fault declared at a release instant without an evaluation of its own: the destination takes
SAFE_U (R99). -/
def State.faultNow (s : State) (n causes : Nat) : State :=
  (s.declareFault n causes (s.on F.LC_SUP_CFG_FAULT_REACT n) (s.rdI F.LC_Y n) (s.rdI F.LC_YM n) (s.rdI F.LC_U n)).enterSafe n

/-- The lates counted and the core voltage raised (R95, R97). -/
def State.countLate (s : State) (n : Nat) : State :=
  let s := (s.bump F.LC_DIAG_CNT_LATE_CNT n).wr F.LC_SUP_EVENT_LATE 1 n
  (s.bump F.LC_SUP_STATUS_LATE_RUN n).lateRaise

/-- A late sample (R95 to R97): the evaluation is discarded whole, the lates are counted and
the core voltage rises; at LATE_LIMIT it is a loop fault, as is a parity error read (R107). -/
def State.lateCell (s : State) (n : Nat) (at_ : Instant) (tie : Bool) : State :=
  let c := s.cell n
  let parity := c.parityDue
  let s := s.putCell n { c with latched := none, eval := none, reclamp := false, keepCs := false, parityDue := false, lates := if tie then c.lates else c.lates ++ [s.now] }
  let s := (s.when tie (·.noteSlack (-1) 0 n)).countLate n
  let s := s.lateSamples 0 n at_
  let causes := 2 * b2n parity + 8 * b2n (s.rd F.LC_SUP_STATUS_LATE_RUN n == s.lateLimit n)
  if causes ≠ 0 then s.faultNow n causes else s

/-- The release instant at which a cell whose fault was declared before takes SAFE_U (R99); an
evaluation that is not ready is also late (R108). -/
def State.safeRelease (s : State) (n : Nat) (late : Bool) : State :=
  let s := if late then
      let s := s.countLate n
      if s.rd F.LC_SUP_STATUS_LATE_RUN n = s.lateLimit n then (s.wr F.LC_SUP_STATUS_FAULT_CAUSE (withBit (s.rd F.LC_SUP_STATUS_FAULT_CAUSE n) 3) n).causeClass n 8 else s
    else s
  s.enterSafe n

/-- A released evaluation (R68, R82, 04 R99).  Its slack counts in event mode's sampled path as well
(02 R54, assumption 77). -/
def State.releaseEval (s : State) (n : Nat) (ev : Eval) (ready : Instant) : State :=
  let re := (s.cell n).reclamp
  let s := s.noteSlack (sinceNs s.now ready) 0 n
  let s := if bitOf ev.causes 0 then s else (s.applyEval n ev).releaseChans 0 n ev.at_
  let s := s.when re (·.swapClamp n)
  s.declareEval n ev

/-! ### Event mode (R86, R87) -/

/-- Whether a comparator decision of cell `n` may act now: armed at this level, past its
dwell and not blanked. -/
def State.mayMove (s : State) (n : Nat) (up : Bool) : Bool :=
  let c := s.cell n
  let b := s.active n
  let inRange := if up then decide (c.j + 1 < b.nlev) else decide (0 < c.j)
  let blank := match c.lastMove with
    | some (_, was) => up != was && earlier s.now c.blankEnd
    | none => false
  s.on F.LC_STATUS_EVT_ARMED n && !c.codes.isEmpty && inRange && dwellOk b c.lastMove s.now && !blank

/-- A comparator transition now (R86): the level moves by one, u is formed with the last
feed-forward product, the pad is driven and the code pair of the new level is selected. -/
def State.eventMove (s : State) (n : Nat) (up : Bool) : State :=
  let c := s.cell n
  let b := s.active n
  let j := if up then c.j + 1 else c.j - 1
  let raw := outRaw b j c.ff
  let u := clampInt b.umin b.umax raw
  let blank := min 1000 (s.rd F.LC_EVT_CFG n)
  let s := s.putCell n { c with j := j, lastMove := some (s.now, up), blankEnd := addNs s.now blank }
  let s := ((s.wr F.LC_STATUS_LEVEL j n).countMove n).wr F.LC_STATUS_DWELL_WAIT 0 n
  let s := if u = raw then s else (s.bump F.LC_SAT_CNT n).setBit F.LC_SAT_SRC 6 n
  ((s.loadCodes n c.codes).putU n u).settle.crossingChans n

/-- The enabled event-mode cell that controls the comparators of AINn, if any. -/
def State.eventCell (s : State) (a : Nat) : Option Nat :=
  (s.keysOf F.LC_STATUS_EVT_ARMED).find? (fun n => s.on F.LC_STATUS_EVT_ARMED n && s.rd F.LC_SRC_Y_ID n == a)

end Sys2Proof.Machine
end

