-- ==== Sys2Proof/Machine/AxisOps.lean ====
section
/-! DEFINITION.  The operations of an axis engine on the state: trajectory, starts, faults,
outputs, homing and evaluation (06). -/

namespace Sys2Proof.Machine

open Sys2Proof

/-- BAR0 offset of AX_CTRL of axis `n`. -/
def axOff (n : Nat) : Nat := 0x400000 + 0x100 * n

/-- The owner of axis `n`. -/
def State.ownerAX (s : State) (n : Nat) : Option Nat := s.owner (axisKey n)

/-- STATE of axis `n`: 0 DISABLED, 1 IDLE, 2 MOVING, 3 STOPPING, 4 HOMING, 5 FAULTED. -/
def State.axState (s : State) (n : Nat) : Nat := s.rd F.AX_STATUS_STATE n
/-- STATE set. -/
def State.putAxState (s : State) (n k : Nat) : State := s.wr F.AX_STATUS_STATE k n
/-- An AX_EVENT bit set. -/
def State.axEvent (s : State) (n bit : Nat) : State := s.setBit F.AX_EVENT bit n

/-- AX_STATUS as a word. -/
def State.axStatus (s : State) (n : Nat) : Nat :=
  s.rd F.AX_STATUS_FAULT_CAUSE n * 2 ^ 20 + s.rd F.AX_STATUS_CFG_ERR n * 2 ^ 16 + s.rd F.AX_STATUS_HOME_RESULT n * 2 ^ 12 +
  s.rd F.AX_STATUS_HOME_SW n * 2 ^ 7 + s.rd F.AX_STATUS_LIMN n * 2 ^ 6 + s.rd F.AX_STATUS_LIMP n * 2 ^ 5 +
  s.rd F.AX_STATUS_DIR n * 2 ^ 4 + s.rd F.AX_STATUS_HOMED n * 2 ^ 3 + s.axState n

/-- An EVENT record of an axis (07 Table 7.9): AX_STATUS, AX_POS and AX_FE. -/
def State.axRecord (s : State) (n bit res : Nat) : State :=
  s.event (streamOf (s.ownerAX n)) 2 n bit 0 res (leBytes 4 (s.axStatus n) ++ leBytes 4 (s.rd F.AX_POS n) ++ leBytes 4 (s.rd F.AX_FE n))

/-! ### Trajectory (R149 to R153, R158) -/

/-- A stop of axis `n` from (p, v) at an instant: it replaces the trajectory (R158). -/
def State.axStop (s : State) (n : Nat) (p v : Int) (at_ : Instant) : State :=
  let g := stopSeg (s.rd F.AX_PERIOD n) (s.rd F.AX_STOP_DECEL n) p v at_
  s.onAxis n (fun x => { x with traj := if g.dur = 0 then [] else [g], hold := p, isStop := true, bad := none, holdUntil := none })

/-- The state that the trajectory of axis `n` gives at `t` (R151, R153, R161): a cruise goes on
after the ramp of a homing. -/
def State.axAt (s : State) (n : Nat) (t : Instant) : Int × Int :=
  let x := s.axis n
  match segAt t 0 x.traj with
  | some (_, g) => if earlier t (x.holdUntil.getD t) || earlier t g.start then (g.p0, g.v0) else g.stateAt t
  | none =>
    match x.traj.getLast? with
    | none => (x.hold, 0)
    | some g =>
      if x.isStop || g.v1 == 0 then (g.p1, 0)
      else if x.homing.isSome then (g.p1 + rdivHalf (g.v1 * sinceS t g.ends) (16 * stepUnit), g.v1)
      else (g.p1, g.v1)

/-- SEG_NOW of axis `n` at this instant. -/
def State.showSeg (s : State) (n : Nat) : State :=
  let x := s.axis n
  match segAt s.now 0 x.traj with
  | some (i, _) =>
    if x.isStop || x.homing.isSome then s.wr F.AX_SEG_NOW_LEFT 0 n
    else (s.wr F.AX_SEG_NOW_SEG (x.first + i) n).wr F.AX_SEG_NOW_LEFT (x.traj.length - i) n
  | none => s.wr F.AX_SEG_NOW_LEFT 0 n

/-- The trajectory of axis `n` at its end: the axis holds the end position, stops for no fault any more, and
is IDLE unless it is FAULTED (R153, R166, Table 6.1). -/
def State.axRest (s : State) (n : Nat) (p : Int) : State :=
  let s := s.onAxis n (fun x => { x with traj := [], hold := p, isStop := false, holdUntil := none, faultStop := false, hitP := none, hitN := none })
  if s.axState n = 2 ∨ s.axState n = 3 then s.putAxState n 1 else s

/-- Axis `n` has finished the segments of its start: its Treadle's step learns it (05 Table 5.6). -/
def State.finishSegs (s : State) (n : Nat) : State :=
  match s.ownerAX n with
  | some p => s.when ((s.treadle p).started.contains n) (·.segmentsDone p n)
  | none => s

/-- A start whose last segment has ended with a velocity: OPEN_END, and the axis stops from
there (R153). -/
def State.axOpenEnd (s : State) (n : Nat) : State :=
  let x := s.axis n
  match x.traj.getLast? with
  | some g =>
    if !x.isStop && x.homing.isNone && x.bad.isNone && g.v1 != 0 && notLater g.ends s.now then
      (((s.finishSegs n).axStop n g.p1 g.v1 g.ends).putAxState n 3).axEvent n 2
    else s
  | none => s

/-- A trajectory that has ended at rest by now. -/
def State.axEnded (s : State) (n : Nat) : State :=
  let x := s.axis n
  if x.homing.isSome then s
  else
    match x.traj.getLast? with
    | some g => if (x.isStop || (g.v1 == 0 && x.bad.isNone)) && notLater g.ends s.now then (s.when (!x.isStop) (·.finishSegs n)).axRest n g.p1 else s
    | none => if x.isStop then s.axRest n x.hold else s

/-- The trajectory of axis `n` brought up to this instant: an open end stops it, an ended one is held. -/
def State.axCatchUp (s : State) (n : Nat) : State := ((s.axOpenEnd n).axEnded n).showSeg n

/-- A fault that run-ahead finds in the segment after the one in force: declared at that segment's start
instant (R151). -/
def State.runAheadFault (s : State) (n : Nat) : State :=
  let x := s.axis n
  match segAt s.now 0 x.traj with
  | some (i, g) => if i + 1 < x.traj.length then s.putAxis n { x with traj := x.traj.take (i + 1), bad := some g.ends } else s
  | none => s

/-- GO requests that no strobe will serve any more, refused and recorded (R151). -/
def State.refuseAsks (s : State) (n : Nat) : State :=
  let gos := (s.axis n).asks.filter id
  gos.foldl (fun s _ => (s.axEvent n 0).axRecord n 0 0) (s.onAxis n (fun x => { x with asks := [] }))

/-! ### Faults (R166) -/

/-- Every step pulse stopped and the bridge pins low: the immediate halt of R166. -/
def State.axImmediate (s : State) (n : Nat) : State :=
  let high := !(s.axis n).falls.isEmpty
  let s := s.onAxis n (fun x => { x with traj := [], hold := s.rdI F.AX_POS n, isStop := false, bad := none, holdUntil := none, eval := none, lates := [], pulses := [], falls := [], halted := true })
  let base := s.rd F.AX_ROUTE_OUT_ID n
  match s.rd F.AX_ROUTE_OUT_KIND n with
  | 0 => s.when high (·.driveLevel base (s.on F.AX_STEP_CFG2_STEP_POL n))
  | 1 => s.each [base, base + 1, base + 2, base + 3] (fun s k => s.driveLevel k false)
  | _ => s

/-- An axis fault with causes `causes` (bits of FAULT_CAUSE): reported, and the axis stops from
its last released state, or halts at once for STALL and while it stops for a fault (R166). -/
def State.axFault (s : State) (n causes : Nat) : State :=
  let s := s.wr F.AX_STATUS_FAULT_CAUSE (s.rd F.AX_STATUS_FAULT_CAUSE n ||| causes) n
  let s := (s.causeClass n causes).axEvent n 8
  let x := s.axis n
  let s :=
    if bitOf causes 2 || x.faultStop then s.axImmediate n
    else if x.isStop && !x.traj.isEmpty then s
    else s.axStop n (s.rdI F.AX_POS n) (s.rdI F.AX_VEL n) x.relAt
  let s := s.onAxis n (fun x => { x with faultStop := true, homing := none, lateRun := 0, feRun := 0 })
  let s := (s.putAxState n 5).axRecord n 8 (s.rd F.AX_STATUS_FAULT_CAUSE n)
  let s := s.when (s.axis n).halted (·.refuseAsks n)
  let s := s.emitFrom 3 n 0
  match s.ownerAX n with
  | some p => if bitOf causes 2 || s.on F.AX_CTRL_FAULT_REACT n then s.partStop p 4 else s
  | none => s

/-- Axis `n` brought up to this instant: its trajectory, and a segment that cannot be run at its start
instant (R151, cause SEG). -/
def State.axUpdate (s : State) (n : Nat) : State :=
  let s := s.axCatchUp n
  if (s.axis n).bad.any (fun b => notLater b s.now) then (s.axFault n 256).axCatchUp n else s

/-! ### Starts (R151, R152, R167) -/

/-- One counted by an axis odometer, which stops at 2^48 - 1 and sets ODO_SAT (R167, 03 R76). -/
def State.axCount (s : State) (n : Nat) (f : Fld) (k : Nat) : State :=
  if s.rd f n + k < 2 ^ 48 then s.wr f (s.rd f n + k) n else (s.wr f (2 ^ 48 - 1) n).axEvent n 13

/-- The segments of `count` records from `first`, starting from (p, v) at an instant, up to the
first record that cannot be run: then the instant at which it would start. -/
def planSegs (segs : Tbl SegRec) : Nat → Nat → Int → Int → Instant → List AxSeg × Option Instant
  | 0, _, _, _, _ => ([], none)
  | count + 1, first, p, v, t =>
    match segs.find first with
    | none => ([], some t)
    | some r =>
      let rest := planSegs segs count (first + 1) r.endPos r.endVel (addNs t r.dur)
      (⟨t, r.dur, p, v, r.endPos, r.endVel, false⟩ :: rest.1, rest.2)

/-- A start of axis `n` at S (R151): refused and recorded unless the axis is IDLE or MOVING with
no HALT admitted before it. -/
def State.axStart (s : State) (n first count : Nat) (at_ : Instant) (hold : Option Instant := none) : State :=
  let s := s.axUpdate n
  let x := s.axis n
  let k := s.axState n
  if (k ≠ 1 ∧ k ≠ 2) ∨ x.asks.contains false ∨ count = 0 ∨ 4096 < first + count then (s.axEvent n 0).axRecord n 0 0
  else
    let from_ := if k = 2 then s.axAt n at_ else (x.hold, 0)
    let plan := planSegs x.segs count first from_.1 from_.2 at_
    let s := if k = 2 then s.axEvent n 1 else s
    let s := s.putAxis n { x with traj := plan.1, bad := plan.2, hold := from_.1, isStop := false, first := first, holdUntil := hold }
    ((s.putAxState n 2).axCount n F.AX_ODO_MOVES 1).axUpdate n

/-- The axes that a commit starts, as one group (05 R130): axis, first segment and count. -/
def State.startAxes (s : State) (l : List (Nat × Nat × Nat)) : State :=
  l.foldl (fun s e => s.axStart e.1 e.2.1 e.2.2 s.now) s

/-- Axis `n` disabled (R148): it samples no more. -/
def State.axDisabled (s : State) (n : Nat) : State :=
  let s := s.onAxis n (fun x => { x with traj := [], hold := s.rdI F.AX_POS n, isStop := false, holdUntil := none, bad := none, eval := none, lates := [], homing := none, burst := none, hitP := none, hitN := none, faultStop := false })
  ((((s.wr F.AX_CTRL_ENABLE 0 n).putAxState n 0).wr F.AX_SEG_NOW_LEFT 0 n).refuseAsks n).runChange

/-- The axes of partition `p` halted at once and disabled by its reset (R148). -/
def State.resetAxes (s : State) (p : Nat) : State :=
  s.each (s.owned 2 p) (fun s n => (s.axImmediate n).axDisabled n)

/-! ### Switches, encoder and homing (R160 to R164) -/

/-- The level of a switch selector, inverted by bit 8; none where it is not connected. -/
def State.switchLevel (s : State) (sel : Nat) : Option Bool :=
  match sel / 2 ^ 30 with
  | 0 => some ((s.pin (sel % 256)).level != bitOf sel 8)
  | 1 => some (bitOf (s.ringIn (sel / 2 ^ 28 % 4) (sel / 2 ^ 13 % 2 ^ 14)) (sel % 8) != bitOf sel 8)
  | _ => none

/-- The instant of the last edge of a switch: a pin's stamp, or the reception that is now. -/
def State.switchEdge (s : State) (sel : Nat) : Instant :=
  if sel / 2 ^ 30 = 0 then (s.pin (sel % 256)).stamp else s.now

/-- fb of axis `n` at this instant: the encoder, or a ring position; both with the homing
offset (Feedback and following error, R163). -/
def State.axFeedback (s : State) (n : Nat) : Int :=
  let x := s.axis n
  let r := s.rd F.AX_ROUTE_RING n
  let o := s.rd F.AX_FB n
  if s.rd F.AX_ROUTE_FB_KIND n = 1 then rshr (x.count * s.rdI F.AX_ENC_SCALE n) 8 + x.offset
  else toSigned 32 (s.ringIn r o + 256 * (s.ringIn r (o + 1) + 256 * (s.ringIn r (o + 2) + 256 * s.ringIn r (o + 3)))) + x.offset

/-- The encoder count that axis `n` had at an instant of the last 2 µs: the position captured in hardware at an
edge (R163). -/
def Axis.countAt (x : Axis) (t : Instant) : Int := x.count - ((x.edges.filter (fun e => earlier t e.1)).map (·.2)).sum

/-- A change of the filtered level of pin `pin` counted by the encoders on it, on all four
edges.  Which direction counts up is not stated: `Config.encoderUp`. -/
def State.encoderEdge (s : State) (pin : Nat) : State :=
  s.each (s.keysOf F.AX_ROUTE_FB_KIND) (fun s n =>
    let base := s.rd F.AX_FB n
    if s.rd F.AX_ROUTE_FB_KIND n = 1 ∧ (pin = base ∨ pin = base + 1) then
      let a := (s.pin base).level
      let b := (s.pin (base + 1)).level
      let lead := if pin = base then a != b else a == b
      let d : Int := if lead == Config.encoderUp then 1 else -1
      s.onAxis n (fun x => { x with count := x.count + d, edges := x.edges.filter (fun e => decide (sinceNs s.now e.1 ≤ 2000)) ++ [(s.now, d)] })
    else s)

/-- The positions of axis `n` shifted together by `d` (R163): no step pulse results. -/
def State.axShift (s : State) (n : Nat) (d : Int) : State :=
  let x := s.axis n
  let steps := rshr (x.hold + d) 8 - rshr x.hold 8
  let s := s.putAxis n { x with hold := x.hold + d, offset := x.offset + d, eval := x.eval.map (fun e => { e with p := e.p + d, fb := e.fb + d }) }
  let s := (s.wrI F.AX_POS (s.rdI F.AX_POS n + d) n).wrI F.AX_STEP_POS (s.rdI F.AX_STEP_POS n + steps) n
  s.wrI F.AX_FBPOS (s.rdI F.AX_FBPOS n + d) n

/-- A homing that latched L, at rest (R163): the shift by HOME_POS - L, and HOMED. -/
def State.axHomed (s : State) (n : Nat) (l : Int) : State :=
  let s := s.axShift n (s.rdI F.AX_HOME_POS n - l)
  let s := s.onAxis n (fun x => { x with homing := none, checkHomed := false })
  let s := (s.wrI F.AX_HOME_LATCH l n).wr F.AX_STATUS_HOMED 1 n
  ((s.wr F.AX_STATUS_HOME_RESULT 2 n).axEvent n 6).putAxState n 1

/-- A homing at rest: done, or failed with its result (R163, R164). -/
def State.endHoming (s : State) (n : Nat) : State :=
  let x := s.axis n
  match x.homing with
  | some h =>
    if s.axState n = 4 ∧ x.isStop ∧ x.traj.all (fun g => notLater g.ends s.now) then
      let s := s.onAxis n (fun x => { x with traj := [], hold := (x.traj.getLast?.map (·.p1)).getD x.hold, isStop := false, hitP := none, hitN := none })
      match h.result, h.latch with
      | 2, some l => s.axHomed n l
      | r, _ => ((s.onAxis n (fun x => { x with homing := none })).wr F.AX_STATUS_HOME_RESULT r n).putAxState n 1
    else s
  | none => s

/-- The homing of axis `n` given its result, with the stop that ends it (R163, R164); a failed
one sets HOME_RESULT now, and `event` HOMING_LIMIT. -/
def State.homeStop (s : State) (n result : Nat) (event : Bool) (p v : Int) (at_ : Instant) : State :=
  let stopping := (s.axis n).isStop
  let s := s.onAxis n (fun x => { x with homing := x.homing.map (fun h => { h with result := result }) })
  let s := if result = 2 then s else s.wr F.AX_STATUS_HOME_RESULT result n
  let s := s.when event (fun s => (s.axEvent n 7).axRecord n 7 result)
  if stopping then s else s.axStop n p v at_

/-- L seen by a homing of MODE SWITCH or SWITCH_INDEX: the axis stops at its next strobe. -/
def State.homeSeen (s : State) (n : Nat) (l : Int) : State :=
  s.onAxis n (fun x => { x with homing := x.homing.map (fun h => if h.result = 1 ∧ h.latch.isNone then { h with latch := some l } else h) })

/-! ### Evaluation (R153 to R160) -/

/-- The bus voltage of axis `n` for a calibrated conversion (R155). -/
def State.busVoltage (s : State) (n q : Nat) : Int :=
  if s.rd F.AX_COIL_V_VBUS_AIN n = 127 then s.rd F.AX_COIL_V_VBUS_MV n else rshr (q * s.rd F.AX_VBUS_SCALE n) 16

/-- Whether axis `n` computes coil duties: phase drive, or ring format 2. -/
def State.hasCoils (s : State) (n : Nat) : Bool :=
  s.rd F.AX_ROUTE_OUT_KIND n == 1 || (s.rd F.AX_ROUTE_OUT_KIND n == 2 && s.rd F.AX_ROUTE_RING_FMT n == 2)

/-- The duties of an evaluation (R155), or its VBUS fault. -/
def State.withDuty (s : State) (n : Nat) (e : AxEval) (q : Nat) : AxEval :=
  let x := s.axis n
  let k := s.axState n
  let recent := k == 2 || k == 3 || k == 4 || x.moved.any (fun m => decide (sinceNs e.at_ m < (s.rd F.AX_HOLD_CFG_HOLD_DELAY_MS n * 1000000 : Nat)))
  let vbus := s.busVoltage n q
  if vbus < 1000 then { e with awaits := none, causes := withBit e.causes 9 }
  else
    let c : CoilIn := { iamp := if recent then s.rd F.AX_COIL_I_I_RUN_MA n else s.rd F.AX_COIL_I_I_HOLD_MA n, rMohm := s.rd F.AX_COIL_RL_R_MOHM n, lUh := s.rd F.AX_COIL_RL_L_UH n, keUv := s.rd F.AX_COIL_KE n, vbus := vbus, dutyMax := s.rd F.AX_HOLD_CFG_DUTY_MAX n }
    let o := coilDuty c e.p e.v
    { e with awaits := none, ia := o.1, ib := o.2.1, da := o.2.2.1, db := o.2.2.2.1, sats := o.2.2.2.2 }

/-- The virtual-limit test of a candidate in MOVING (R159): on rejection the axis stops from
its last released state. -/
def State.virtualLimit (s : State) (n : Nat) : State :=
  if s.axState n = 2 ∧ s.on F.AX_CTRL_VLIM_EN n ∧ s.on F.AX_STATUS_HOMED n then
    let per := s.rd F.AX_PERIOD n
    let dec := s.rd F.AX_STOP_DECEL n
    let c := s.axAt n s.now
    let e := stopEnd per dec c.1 c.2
    let pr := s.rdI F.AX_POS n
    let hi := s.rdI F.AX_VLIM_HI n
    let lo := s.rdI F.AX_VLIM_LO n
    let up := decide (hi < e) && decide (pr < e)
    if up || (decide (e < lo) && decide (e < pr)) then
      let er := stopEnd per dec pr (s.rdI F.AX_VEL n)
      let late := if up then decide (hi < er) && decide (pr < er) else decide (er < lo) && decide (er < pr)
      let s := (s.axEvent n (if up then 3 else 4)).when late (·.axEvent n 5)
      (s.axStop n pr (s.rdI F.AX_VEL n) (s.axis n).relAt).putAxState n 3
    else s
  else s

/-- Whether the candidate of axis `n` moves into a hard limit that is active, or whose active edge no evaluation
has acted on yet (R160). -/
def State.hitsLimit (s : State) (n : Nat) (c : Int × Int) : Bool :=
  let pr := s.rdI F.AX_POS n
  ((s.on F.AX_STATUS_LIMP n || (s.axis n).hitP.isSome) && (decide (pr < c.1) || decide (0 < c.2))) ||
  ((s.on F.AX_STATUS_LIMN n || (s.axis n).hitN.isSome) && (decide (c.1 < pr) || decide (c.2 < 0)))

/-- What an evaluation decides for a homing in progress (R163, R164): a limit first, then the
travel, then a latched L. -/
def State.homingStep (s : State) (n : Nat) : State :=
  let x := s.axis n
  match x.homing with
  | none => s
  | some h =>
    let c := s.axAt n s.now
    if s.hitsLimit n c && h.result != 3 then s.homeStop n 3 true (s.rdI F.AX_POS n) (s.rdI F.AX_VEL n) x.relAt
    else if h.result ≠ 1 then s
    else if s.rd F.AX_HOME_MAX n < (c.1 - h.from_).natAbs then s.homeStop n 4 true (s.rdI F.AX_POS n) (s.rdI F.AX_VEL n) x.relAt
    else if h.latch.isSome then s.homeStop n 2 false c.1 c.2 s.now
    else s

/-- A released evaluation of a HARD_STOP homing (R163): with |FE| beyond HOME_FE in HOME_FE_N consecutive
ones, L is fb at the first, and the commanded position becomes fb at rest. -/
def State.hardStop (s : State) (n : Nat) (e : AxEval) : State × AxEval :=
  let x := s.axis n
  match x.homing with
  | some h =>
    if s.axState n ≠ 4 ∨ s.rd F.AX_HOME_CFG_MODE n ≠ 2 ∨ h.result ≠ 1 then (s, e)
    else if s.rd F.AX_HOME_FE n < (sat32 (e.p - e.fb)).natAbs then
      let first := if h.feRun = 0 then e.fb else h.feFirst
      if max 1 (s.rd F.AX_FE_CFG_HOME_FE_N n) ≤ h.feRun + 1 then
        (s.putAxis n { x with traj := [], hold := e.fb, isStop := true, homing := some { h with latch := some first, result := 2 } }, { e with p := e.fb, v := 0 })
      else (s.putAxis n { x with homing := some { h with feRun := h.feRun + 1, feFirst := first } }, e)
    else (s.putAxis n { x with homing := some { h with feRun := 0 } }, e)
  | none => (s, e)

/-- GO and HALT requests served at a strobe, in the order of their admission (R151, R158, R479). -/
def State.serveAsks (s : State) (n : Nat) : List Bool → Bool → State
  | [], _ => s
  | true :: rest, stopped =>
    let s :=
      if stopped then (s.axEvent n 0).axRecord n 0 0
      else s.axStart n (s.rd F.AX_NEXT_SEG_FIRST n) (s.rd F.AX_NEXT_SEG_COUNT n) s.now
    s.serveAsks n rest stopped
  | false :: rest, _ =>
    let c := s.axAt n s.now
    let s :=
      if s.axState n = 2 then ((s.axStop n c.1 c.2 s.now).putAxState n 3).axEnded n
      else if s.axState n = 4 ∧ (s.axis n).homing.any (fun h => h.result == 1 || h.result == 2) then s.homeStop n 3 false c.1 c.2 s.now
      else s
    s.serveAsks n rest true

/-- The evaluation of axis `n` at this strobe, put in flight (R153 to R157). -/
def State.axEvaluate (s : State) (n : Nat) : State :=
  let c := s.axAt n s.now
  let hits := s.hitsLimit n c && (s.axState n == 2 || s.axState n == 3 || (s.axState n == 5 && !bitOf (s.rd F.AX_STATUS_FAULT_CAUSE n) 5))
  let s := if c.2 = 0 then s else s.onAxis n (fun x => { x with moved := some s.now })
  let free := s.draw
  let known := s.rd F.AX_ROUTE_FB_KIND n == 1 || s.rd F.AX_ROUTE_FB_KIND n == 2
  let fb := if known then s.axFeedback n else toSigned 32 free.1.toNat
  let s := if known then s else free.2
  let e : AxEval := { at_ := s.now, due := addNs s.now (s.rd F.AX_LATENCY n), ready := none, p := c.1, v := c.2, fb := fb, awaits := none, ia := 0, ib := 0, da := 0, db := 0, sats := 0, causes := if hits then 32 else 0 }
  let put := fun (s : State) (e : AxEval) => s.onAxis n (fun x => { x with eval := some e })
  if s.hasCoils n then
    let a := s.rd F.AX_COIL_V_VBUS_AIN n
    if a = 127 then put s (s.withDuty n e 0)
    else
      let r := s.strobeAin a
      let s := r.1
      match r.2 with
      | some q => put s (s.withDuty n e q.1)
      | none => put s { e with awaits := some a }
  else put s e

/-- The conversion of AINn that axes await for their bus voltage (R155, 04 R91). -/
def State.axConversion (s : State) (a q : Nat) : State :=
  s.each (s.axes.keys.filter (fun n => (s.axis n).eval.any (fun e => e.awaits == some a))) (fun s n =>
    s.onAxis n (fun x => { x with eval := x.eval.map (fun e => s.withDuty n e q) }))

/-! ### Release (R147, R154 to R157) -/

/-- The course of the two pins of one phase (R156). -/
def State.drivePhase (s : State) (n pin : Nat) (d : Int) (start : Instant) : State :=
  let per := s.rd F.AX_PWM_CFG_PWM_PERIOD_NS n
  let decay := s.on F.AX_PWM_CFG_DECAY n
  let high := (rshr ((d.natAbs * per : Nat) : Int) 15).toNat
  let give := fun (s : State) (k : Nat) (first : Bool) =>
    let r : PwmRun := ⟨start, per, high, first, decay⟩
    if notLater start s.now then (s.putPin k { s.pin k with pwm := some r, nextPwm := none, out := if 0 < high then first else decay }).settle
    else s.putPin k { s.pin k with nextPwm := some r }
  give (give s pin (decide (0 < d))) (pin + 1) (decide (d < 0))

/-- The outputs of a released evaluation (R154 to R156): DIR and step pulses, bridge duties, or
ring bytes; `k` is N - STEP_POS.  The DIR level of upward motion is not stated:
`Config.dirUp`. -/
def State.axDrive (s : State) (n : Nat) (e : AxEval) (k : Int) : State :=
  let base := s.rd F.AX_ROUTE_OUT_ID n
  match s.rd F.AX_ROUTE_OUT_KIND n with
  | 0 =>
    if k = 0 then s
    else
      let setup : Int := s.rd F.AX_STEP_CFG2_DIR_SETUP_NS n
      let span : Int := s.rd F.AX_PERIOD n - setup
      let dir := (decide (0 < k) == Config.dirUp) != s.on F.AX_STEP_CFG2_DIR_POL n
      let s := (s.driveLevel (base + 1) dir).wr F.AX_STATUS_DIR (b2n dir) n
      let rises := (List.range k.natAbs).map (fun (j : Nat) => shiftNs s.now (setup + (j : Int) * span / (k.natAbs : Int)))
      s.onAxis n (fun x => { x with pulses := x.pulses ++ rises })
  | 1 => (s.drivePhase n base e.da s.now).drivePhase n (base + 2) e.db (addNs s.now (s.rd F.AX_PWM_CFG_PWM_PERIOD_NS n / 2))
  | _ =>
    let r := s.rd F.AX_ROUTE_RING n
    let word := fun (w : Nat) (x : Int) => leBytes w (ofSigned (8 * w) x)
    match s.rd F.AX_ROUTE_RING_FMT n with
    | 0 => s.ringSend r base (word 4 e.p ++ word 4 e.v)
    | 1 => s.ringSend r base (word 4 e.p)
    | 2 => s.ringSend r base (word 2 e.da ++ word 2 e.db)
    | _ => s

/-- The following error of a released evaluation (R157): |FE| beyond FE_LIMIT in FE_N
consecutive ones is a FOLLOW fault, except in HARD_STOP homing. -/
def State.followCheck (s : State) (n : Nat) (fe : Int) : State :=
  let lim := s.rd F.AX_FE_LIMIT n
  let off := s.axState n == 4 && s.rd F.AX_HOME_CFG_MODE n == 2
  let run := if lim ≠ 0 ∧ lim < fe.natAbs ∧ !off then (s.axis n).feRun + 1 else 0
  let s := s.onAxis n (fun x => { x with feRun := run })
  if run ≠ 0 ∧ max 1 (s.rd F.AX_FE_CFG_FE_N n) ≤ run then s.axFault n 16 else s

/-- Feedback is connected to axis `n`: FB_KIND 1 or 2. -/
def State.hasFeedback (s : State) (n : Nat) : Bool := s.rd F.AX_ROUTE_FB_KIND n == 1 || s.rd F.AX_ROUTE_FB_KIND n == 2

/-- HOMED after a warm resume (R168): kept only with feedback whose |FE| is within FE_LIMIT. -/
def State.resumedHomed (s : State) (n : Nat) (fe : Int) : State :=
  if (s.axis n).checkHomed then
    let s := s.onAxis n (fun x => { x with checkHomed := false })
    if s.hasFeedback n ∧ fe.natAbs ≤ s.rd F.AX_FE_LIMIT n then s else s.wr F.AX_STATUS_HOMED 0 n
  else s

/-- Whether `k` pulses exceed what a period holds (R154). -/
def State.rateExceeded (s : State) (n k : Nat) : Bool :=
  s.rd F.AX_ROUTE_OUT_KIND n == 0 &&
  decide (((s.rd F.AX_PERIOD n : Int) - s.rd F.AX_STEP_CFG2_DIR_SETUP_NS n) / (max 1 (s.rd F.AX_STEP_CFG_STEP_MIN_NS n) : Nat) < k)

/-- An integer fits 32 bits of two's complement. -/
def fits32 (x : Int) : Bool := sat32 x == x

/-- A result in time at its release instant (R153 to R157): the faults that keep it back, or
its registers and outputs. -/
def State.axRelease (s : State) (n : Nat) (e : AxEval) (ready : Instant) : State :=
  let s := s.noteSlack (sinceNs s.now ready) 1 n
  let acted := fun (h : Option Instant) => h.filter (fun i => (s.axis n).isStop || earlier e.at_ i)
  let s := s.onAxis n (fun x => { x with eval := none, lateRun := 0, hitP := acted x.hitP, hitN := acted x.hitN })
  let fit := fits32 e.p && fits32 e.v
  let steps := rshr e.p 8 - s.rdI F.AX_STEP_POS n
  let causes := e.causes ||| (if fit then if s.rateExceeded n steps.natAbs then 64 else 0 else 128)
  if causes ≠ 0 then
    let s := if fit then s else s.wr F.AX_STATUS_HOMED 0 n
    s.axFault n causes
  else
    let fe := sat32 (e.p - e.fb)
    let r := s.hardStop n e
    let e := r.2
    let steps := rshr e.p 8 - s.rdI F.AX_STEP_POS n
    let s := r.1.axDrive n e steps
    let s := ((s.wrI F.AX_POS e.p n).wrI F.AX_VEL e.v n).wrI F.AX_FBPOS e.fb n
    let s := (s.wrI F.AX_FE fe n).wrI F.AX_STEP_POS (rshr e.p 8) n
    let s := s.onAxis n (fun x => { x with relAt := e.at_, coil := [e.ia, e.ib, e.da, e.db] })
    let s := s.bump F.AX_DIAG_CNT_DUTY_SAT_CNT n e.sats
    let s := if steps = 0 then s else s.axCount n F.AX_ODO_STEPS steps.natAbs
    ((((s.publish 3 n (ofSigned 32 e.p)).releaseChans 1 n e.at_).resumedHomed n fe).followCheck n fe).endHoming n

/-- A late result (R147): discarded, counted, and at LATE_LIMIT a fault. -/
def State.axLate (s : State) (n : Nat) (e : AxEval) (tie : Bool) : State :=
  let s := s.onAxis n (fun x => { x with eval := none, lates := if tie then x.lates else x.lates ++ [s.now], lateRun := x.lateRun + 1 })
  let s := s.when tie (·.noteSlack (-1) 1 n)
  let s := ((s.bump F.AX_DIAG_CNT_LATE_CNT n).axEvent n 9).lateRaise
  let s := s.lateSamples 1 n e.at_
  if (s.axis n).lateRun = max 1 (s.rd F.AX_FE_CFG_LATE_LIMIT n) then s.axFault n 8 else s

end Sys2Proof.Machine
end

