-- ==== Sys2Proof/Machine/HostOps.lean ====
section
/-! DEFINITION.  The host's mailbox and Ethernet commands: their execution and completion (18
R437 to R443). -/

namespace Sys2Proof.Machine

open Sys2Proof

/-- The state that EXPECT is compared with (Table 18.2). -/
def State.expected (s : State) (obj kind : Nat) : Nat :=
  match kind with
  | 1 => s.rd F.CP_STATUS_STATE obj
  | 2 => s.rd F.TR_STATUS_STATE obj
  | 3 => s.rd F.LP_STATUS_ACTIVE obj
  | 4 => s.rd F.SAF_STATUS_PHASE
  | 5 => s.rd F.UPD_STATUS_STATE
  | 6 => s.rd F.SEC_STATUS_LIFECYCLE
  | _ => s.rd F.SEC_STATUS_DEBUG_LEVEL

/-- The commands that execute while the device boots (R431). -/
def bootCommand (opcode : Nat) : Bool := [0x20, 0x21, 0x22, 0x23, 0x24, 0x25].contains opcode

/-- The execution of the command at the head of an object's queue (R439 to R441), where its
OPCODE and arguments are those given: EXPECT is compared now, a command on a covered partition
goes by 14 R356, and the command completes.  A command that no one has submitted does not
execute. -/
def State.hostCommand (s : State) (opcode obj : Nat) (args : HostCmd → Bool) (f : State → State) : State :=
  match s.waiting obj with
  | [] => s
  | c :: rest =>
    if c.write.isSome ∨ c.opcode ≠ opcode ∨ c.status ≠ 0 ∨ !args c ∨ (s.on F.HOST_STATUS_BOOTING && !bootCommand opcode) = true then s
    else
      let done := fun (s : State) => ((s.putWaiting obj rest).completeCmd obj c s.answer).drainRefused obj (rest.length + 1)
      if c.kind ≠ 0 ∧ s.expected obj c.kind ≠ c.expect then done ((s.setBit F.HOST_EVENT 0).replyStatus 1)
      else s.coveredGate (if obj < 16 then some obj else none) (fun s => done (s.replyStatus 4)) (fun s => done (f (s.reply 0)))

/-- The item store changed by `f` (R453). -/
def State.store (s : State) (f : Items → Items) : State := s.onHost (fun h => { h with items := f h.items })

/-- A load whose item finds too little free space in flash (R453): STATUS 5, nothing changed. -/
def State.loading (s : State) (room : Bool) (f : State → State) : State := if room then f s else s.replyStatus 5

/-- Any arguments. -/
def anyArgs : HostCmd → Bool := fun _ => true

end Sys2Proof.Machine
end

