-- ==== Sys2Proof/Machine/Axis.lean ====
section
/-! DEFINITION.  The commands of the axis engines and axis groups (06). -/

namespace Sys2Proof.Machine

open Sys2Proof

/-! ### AX_CTRL (R148, R151, R158, R161, R165, R166) -/

/-- VLIM_EN and FAULT_REACT of an AX_CTRL write, where the partition is in STOP (00 R16). -/
def State.axCtrlFields (s : State) (n v : Nat) (open_ : Bool) : State :=
  if open_ then (s.wr F.AX_CTRL_VLIM_EN (v / 64) n).wr F.AX_CTRL_FAULT_REACT (v / 32) n else s

/-- The lowest CFG_ERR that applies to an enable, 0 when none does (R165). -/
def State.axCfgErr (s : State) (n : Nat) : Nat :=
  let per := s.rd F.AX_PERIOD n
  let lat := s.rd F.AX_LATENCY n
  let pwm := s.rd F.AX_PWM_CFG_PWM_PERIOD_NS n
  let min := s.rd F.AX_STEP_CFG_STEP_MIN_NS n
  if per < 10000 ∨ 10000000 < per ∨ per ≤ s.rd F.AX_PHASE n ∨ lat < 1000 ∨ per < lat then 1
  else if s.rd F.AX_ROUTE_OUT_KIND n = 1 ∧ (pwm = 0 ∨ per % pwm ≠ 0) then 2
  else if min < 200 ∨ min ≤ s.rd F.AX_STEP_CFG_STEP_WIDTH_NS n then 3
  else 0

/-- A write of AX_CTRL with ENABLE = 1 (R165): refused with CFG_ERR, or IDLE at AX_POS. -/
def execAxEnable (t : Instant) (n : Fin 128) (value : Word) (s : State) : Out := .next (
  let s := s.advance t
  let op := s.rwlOpen (s.ownerAX n)
  s.hostWrite (axOff n) (fun s =>
    let s := s.axCtrlFields n value.toNat op
    if !op then s.discard 3 (axOff n)
    else if s.on F.AX_CTRL_ENABLE n then s
    else
      let e := s.axCfgErr n
      if e ≠ 0 then s.wr F.AX_STATUS_CFG_ERR e n
      else
        let s := ((s.wr F.AX_STATUS_CFG_ERR 0 n).wr F.AX_CTRL_ENABLE 1 n).wr F.AX_VEL 0 n
        let s := s.onAxis n (fun x => { x with traj := [], hold := s.rdI F.AX_POS n, isStop := false, holdUntil := none, bad := none, eval := none, lates := [], asks := [], faultStop := false, halted := false, lateRun := 0, feRun := 0, relAt := s.now, homing := none, burst := none, hitP := none, hitN := none })
        let s := if s.rd F.AX_ROUTE_OUT_KIND n = 0 then s.driveLevel (s.rd F.AX_ROUTE_OUT_ID n) (s.on F.AX_STEP_CFG2_STEP_POL n) else s
        ((s.putAxState n 1).wakeQuadrant (n / 32)).runChange))

/-- A write of AX_CTRL with ENABLE = 0 (R148): the axis is DISABLED. -/
def execAxDisable (t : Instant) (n : Fin 128) (value : Word) (s : State) : Out := .next (
  let s := s.advance t
  let op := s.rwlOpen (s.ownerAX n)
  s.hostWrite (axOff n) (fun s =>
    let s := s.axCtrlFields n value.toNat op
    if op then s.axDisabled n else s.discard 3 (axOff n)))

/-- A host GO (R151): the start is served at the first strobe; discarded unless the Treadle is
IDLE. -/
def execAxGo (t : Instant) (n : Fin 128) (s : State) : Out := .next (
  let s := s.advance t
  s.hostWrite (axOff n) (fun s =>
    let s := s.axUpdate n
    if (s.ownerAX n).any (fun p => s.rd F.TR_STATUS_STATE p != 0) then s.axEvent n 10
    else if s.on F.AX_CTRL_ENABLE n && !(s.axis n).halted then s.onAxis n (fun x => { x with asks := x.asks ++ [true] })
    else (s.axEvent n 0).axRecord n 0 0))

/-- A host HALT (R158): accepted in MOVING and HOMING, and behind a GO not yet served. -/
def execAxHalt (t : Instant) (n : Fin 128) (s : State) : Out := .next (
  let s := s.advance t
  s.hostWrite (axOff n) (fun s =>
    let s := s.axUpdate n
    if s.axState n = 2 ∨ s.axState n = 4 ∨ !(s.axis n).asks.isEmpty then s.onAxis n (fun x => { x with asks := x.asks ++ [false] }) else s))

/-- The ramp of a homing from the held position (R161). -/
def State.homeRamp (s : State) (n : Nat) (at_ : Instant) : AxSeg :=
  let p := (s.axis n).hold
  let mag : Int := s.rd F.AX_HOME_VEL n
  let v := if s.on F.AX_HOME_CFG_HOME_DIR n then -mag else mag
  let dur := stopTime (s.rd F.AX_PERIOD n) (s.rd F.AX_STOP_DECEL n) v
  ⟨at_, dur, p, 0, p + halfToZero (segMoment dur v), v, false⟩

/-- Whether the requirement of a homing mode is met (R161). -/
def State.homeOk (s : State) (n : Nat) : Bool :=
  let sw := (s.switchLevel (s.rd F.AX_HOME_SRC n)).isSome
  let fb := s.rd F.AX_ROUTE_FB_KIND n
  match s.rd F.AX_HOME_CFG_MODE n with
  | 0 => sw
  | 1 => sw && fb == 1
  | 2 => fb == 1 || fb == 2
  | _ => true

/-- HOME (R161): accepted in IDLE while the Treadle is IDLE; HERE succeeds at once, the other
modes begin their ramp now. -/
def execAxHome (t : Instant) (n : Fin 128) (s : State) : Out := .next (
  let s := s.advance t
  s.hostWrite (axOff n) (fun s =>
    let s := s.axUpdate n
    if s.axState n ≠ 1 ∨ (s.ownerAX n).any (fun p => s.rd F.TR_STATUS_STATE p != 0) then s
    else if !s.homeOk n then s.wr F.AX_STATUS_HOME_RESULT 5 n
    else
      let s := (s.wr F.AX_STATUS_HOMED 0 n).axCount n F.AX_ODO_MOVES 1
      if s.rd F.AX_HOME_CFG_MODE n = 3 then s.axHomed n (s.axis n).hold
      else
        let s := (s.wr F.AX_STATUS_HOME_RESULT 1 n).putAxState n 4
        s.onAxis n (fun x => { x with traj := [s.homeRamp n s.now], isStop := false, burst := none, homing := some ⟨x.hold, false, none, 1, 0, 0⟩ })))

/-- CLEAR (R166): accepted while the partition is in STOP. -/
def execAxClear (t : Instant) (n : Fin 128) (s : State) : Out := .next (
  let s := s.advance t
  s.hostWrite (axOff n) (fun s =>
    if !s.rwlOpen (s.ownerAX n) then s.axEvent n 11
    else
      let s := s.wr F.AX_STATUS_FAULT_CAUSE 0 n
      if s.axState n = 5 then
        let s := s.onAxis n (fun x => { x with traj := [], hold := s.rdI F.AX_POS n, isStop := false, bad := none, eval := none, faultStop := false, halted := false, lateRun := 0, feRun := 0, hitP := none, hitN := none })
        (s.wr F.AX_VEL 0 n).putAxState n 1
      else s))

/-! ### Segment tables (R150, Table 6.4) -/

/-- The first failing check of Table 6.4, 0 when every check passes. -/
def State.segResult (s : State) (p : Nat) (i : SegImage) : Nat :=
  let k := s.axState i.axis
  if (k ≠ 0 ∧ k ≠ 1) ∨ s.rd F.TR_STATUS_STATE p ≠ 0 then 1
  else if i.magic ≠ 0x54474553 ∨ i.format ≠ 1 ∨ i.reserved ≠ 0 then 2
  else if i.partition ≠ p ∨ s.ownerAX i.axis ≠ some p ∨ 128 ≤ i.axis then 3
  else if i.beamDigest ≠ s.loom.digest then 4
  else if !i.sigOk || !s.recipeKeyOk p i.keyId then 5
  else if s.belowFloor 3 p i.version = true then 6
  else if i.bodyDigest ≠ i.bodyHash then 7
  else if i.count = 0 ∨ 4096 < i.first + i.count ∨ i.records.length ≠ i.count ∨ i.records.any (fun r => decide (r.dur < 1000)) then 8
  else 0

/-- The records of a container written from FIRST on. -/
def putSegs (segs : Tbl SegRec) : Nat → List SegRec → Tbl SegRec
  | _, [] => segs
  | k, r :: rest => putSegs (segs.set k r) (k + 1) rest

/-- The 12 bytes of a segment record (Table 6.2). -/
def SegRec.bytes (r : SegRec) : List Byte := leBytes 4 r.dur ++ leBytes 4 (ofSigned 32 r.endPos) ++ leBytes 4 (ofSigned 32 r.endVel)

/-- SRAM address of the segment records of axis `n` (R149, 18 R446). -/
def segRegion (n : Nat) : Nat := 0x1C00000 + 0xC000 * n

/-- The records of an accepted container written to their places (R149, R150). -/
def State.takeSegs (s : State) (img : SegImage) : State :=
  let s := { s with sram := s.sram.writeBytes (segRegion img.axis + 12 * img.first) (img.records.flatMap SegRec.bytes) }
  (s.onAxis img.axis (fun x => { x with segs := putSegs x.segs img.first img.records })).axEvent img.axis 12

/-- LOAD_SEGMENTS (R150): every check passed, the records are written; otherwise only RESULT. -/
def execLoadSegments (t : Instant) (p : Fin 16) (img : SegImage) (room : Bool) (s : State) : Out := .next (
  (s.advance t).hostCommand 2 p.val anyArgs (·.loading room (fun s =>
  let s := s.axUpdate img.axis
  let r := s.segResult p img
  let s := (if img.axis < 128 then s.wr F.AX_SEG_LOAD r img.axis else s).reply r
  if r ≠ 0 then s
  else
    let s := s.store (fun x => { x with segs := x.segs.modify img.axis [] (fun l => l.filter (fun o => o.first != img.first) ++ [img]) })
    s.takeSegs img)))

/-! ### Strobe and release (R146, R147, R153 to R160) -/

/-- Axis `n` samples at this instant: enabled and not halted, its quadrant powered, on its
grid. -/
def State.axSamples (s : State) (n : Nat) : Bool :=
  s.on F.AX_CTRL_ENABLE n && !(s.axis n).halted && s.quadOn (n / 32) && !s.on F.WARP_STATUS_COARSE &&
  onGrid (s.rd F.AX_PERIOD n) (s.rd F.AX_PHASE n) s.now

/-- A strobe of an axis (R146, R153): requests served, homing and limits decided, and the evaluation put in
flight; `runAhead` says that run-ahead has found a fault in the next segment. -/
def execAxStrobe (t : Instant) (n : Fin 128) (runAhead : Bool) (s : State) : Out := .next (
  let s := s.advance t
  if s.axSamples n then
    let s := s.axUpdate n
    let asks := (s.axis n).asks
    let s := (s.onAxis n (fun x => { x with asks := [] })).serveAsks n asks false
    let s := (s.when (runAhead && s.axState n == 2) (·.runAheadFault n)).axUpdate n
    if (s.axis n).halted then s
    else (((s.homingStep n).endHoming n).virtualLimit n).axEvaluate n
  else s)

/-- The result of an axis evaluation is ready (02 R53); the end of a late one gives its
negative slack (02 R54).  A failed check declares its fault at the release (R166). -/
def execAxResultReady (t : Instant) (n : Fin 128) (arith parity : Bool) (s : State) : Out := .next (
  let s := s.advance t
  let x := s.axis n
  match x.lates with
  | r :: rest => (s.putAxis n { x with lates := rest }).noteSlack (min (-1) (sinceNs r s.now)) 1 n
  | [] =>
    match x.eval with
    | some e =>
      if e.awaits.isSome ∨ e.ready.isSome then s
      else s.putAxis n { x with eval := some { e with ready := some s.now, causes := e.causes ||| (b2n arith + 2 * b2n parity) } }
    | none => s)

/-- A release instant of an axis (R146, R147): the result takes effect, or it is late. -/
def execAxRelease (t : Instant) (n : Fin 128) (resultFirst : Bool) (s : State) : Out := .next (
  let s := s.advance t
  match (s.axis n).eval with
  | some e =>
    if s.now = e.due then
      match e.ready with
      | some r => if earlier r s.now || (r == s.now && resultFirst) then s.axRelease n e r else s.axLate n e (r == s.now)
      | none => s.axLate n e false
    else s
  | none => s)

/-- A step pulse rises (R154); STEP_POL inverts the level. -/
def execStepPulse (t : Instant) (n : Fin 128) (s : State) : Out := .next (
  let s := s.advance t
  let x := s.axis n
  if x.pulses.contains s.now then
    let s := s.putAxis n { x with pulses := x.pulses.filter (· != s.now), falls := x.falls ++ [addNs s.now (s.rd F.AX_STEP_CFG_STEP_WIDTH_NS n)] }
    s.driveLevel (s.rd F.AX_ROUTE_OUT_ID n) (!s.on F.AX_STEP_CFG2_STEP_POL n)
  else s)

/-- A step pulse ends (R154). -/
def execStepPulseFall (t : Instant) (n : Fin 128) (s : State) : Out := .next (
  let s := s.advance t
  let x := s.axis n
  if x.falls.contains s.now then
    let s := s.putAxis n { x with falls := x.falls.filter (· != s.now) }
    s.driveLevel (s.rd F.AX_ROUTE_OUT_ID n) (s.on F.AX_STEP_CFG2_STEP_POL n)
  else s)

/-- The stall watchdog of an axis expires (R166): an immediate halt, and its partition to
STOP. -/
def execAxStall (t : Instant) (n : Fin 128) (s : State) : Out := .next (
  let s := s.advance t
  if s.on F.AX_CTRL_ENABLE n then (s.axUpdate n).axFault n 4 else s)

/-! ### Groups (R152, Table 6.8) -/

/-- The members that AXG_MASK of group `g` names. -/
def State.groupMembers (s : State) (g : Nat) : List Nat :=
  (List.range 128).filter (fun n => bitOf (s.rd F.AXG_MASK (4 * g + n / 32)) (n % 32))

/-- RESULT of an ARM (Table 6.8): 0 when it is accepted. -/
def State.armResult (s : State) (g : Nat) : Nat :=
  let m := s.groupMembers g
  let owners := (m.map s.ownerAX).eraseDups
  if m.any (fun n => s.axState n != 1) then 1
  else if 1 < owners.length ∨ owners.contains none then 2
  else if owners.any (fun o => o.any (fun p => s.rd F.TR_STATUS_STATE p != 0)) then 3
  else if !s.on F.AXG_CTRL_KIND g && notLater (s.rdT F.AXG_AT g) s.now then 4
  else 0

/-- ARM (R152): the members and the start are taken, or RESULT gives the cause. -/
def execAxgArm (t : Instant) (g : Fin 4) (value : Word) (s : State) : Out := .next (
  let s := s.advance t
  s.hostWrite (0x410018 + 0x20 * g) (fun s =>
    let s := s.wr F.AXG_CTRL_KIND (value.toNat / 2) g
    let s := s.each (s.groupMembers g) State.axUpdate
    let r := s.armResult g
    let s := (s.wr F.AXG_CTRL_RESULT r g).wr F.AXG_CTRL_STATE (if r = 0 then 1 else 3) g
    if r ≠ 0 then { s with groups := s.groups.erase g }
    else
      let k := s.on F.AXG_CTRL_KIND g
      { s with groups := s.groups.set g ⟨s.groupMembers g, k, if k then none else some (s.rdT F.AXG_AT g), s.warp.syncEdge.map (·.1)⟩ }))

/-- CANCEL (Table 6.8): an armed group is disarmed; after the start it is discarded. -/
def execAxgCancel (t : Instant) (g : Fin 4) (value : Word) (s : State) : Out := .next (
  let s := s.advance t
  s.hostWrite (0x410018 + 0x20 * g) (fun s =>
    let s := s.wr F.AXG_CTRL_KIND (value.toNat / 2) g
    if s.rd F.AXG_CTRL_STATE g = 1 then { s.wr F.AXG_CTRL_STATE 0 g with groups := s.groups.erase g } else s))

/-- The start instant of an armed group (R152): every member begins its first segment at S; for
KIND 1 the first evaluation is at or after S + 1,000 ns. -/
def execGroupStart (t : Instant) (g : Fin 4) (s : State) : Out := .next (
  let s := s.advance t
  match s.group g with
  | some x =>
    match x.at_ with
    | some at_ =>
      if s.rd F.AXG_CTRL_STATE g = 1 ∧ (at_ = s.now ∨ (x.sync ∧ notLater at_ s.now)) then
        let s := { s.wr F.AXG_CTRL_STATE 2 g with groups := s.groups.erase g }
        s.each x.members (fun s n =>
          s.axStart n (s.rd F.AX_NEXT_SEG_FIRST n) (s.rd F.AX_NEXT_SEG_COUNT n) at_ (if x.sync then some (addNs at_ 1000) else none))
      else s
    | none => s
  | none => s)

/-! ### Switches (R160, R162, R163) -/

/-- An edge of a hard limit (R160): LIMP or LIMN follows the switch, and an active edge is kept for the next
evaluation; each edge after the first active one counts as chatter while the axis is stopping. -/
def execLimitEdge (t : Instant) (n : Fin 128) (positive : Bool) (s : State) : Out := .next (
  let s := (s.advance t).axUpdate n
  let f := if positive then F.AX_STATUS_LIMP else F.AX_STATUS_LIMN
  match s.switchLevel (s.rd (if positive then F.AX_LIMP_SRC else F.AX_LIMN_SRC) n) with
  | some b =>
    if s.rd f n = b2n b then s
    else
      let x := s.axis n
      let before := if positive then x.hitP else x.hitN
      let seen := if b then before.orElse (fun _ => some s.now) else before
      let s := (s.wr f (b2n b) n).putAxis n (if positive then { x with hitP := seen } else { x with hitN := seen })
      s.when (x.isStop && before.isSome) (·.bump F.AX_CHATTER_LIM_CHATTER n)
  | none => s)

/-- The position at an edge (R163): the encoder's as captured at it where FB_KIND is 1, else the
trajectory's. -/
def State.edgePosition (s : State) (n : Nat) (at_ : Instant) : Int :=
  if s.rd F.AX_ROUTE_FB_KIND n = 1 then rshr ((s.axis n).countAt at_ * s.rdI F.AX_ENC_SCALE n) 8 + (s.axis n).offset else (s.axAt n at_).1

/-- An edge of the home switch (R162): closer than HOME_DEB_NS to the last it joins the burst,
else it starts one; the first into the active level captures L. -/
def execHomeSwitchEdge (t : Instant) (n : Fin 128) (s : State) : Out := .next (
  let s := (s.advance t).axUpdate n
  let sel := s.rd F.AX_HOME_SRC n
  match s.switchLevel sel with
  | some b =>
    if s.rd F.AX_STATUS_HOME_SW n = b2n b then s
    else
      let at_ := s.switchEdge sel
      let s := s.wr F.AX_STATUS_HOME_SW (b2n b) n
      let here := if b then some (s.edgePosition n at_) else none
      s.onAxis n (fun x =>
        match x.burst with
        | some u =>
          if sinceS at_ u.last < (16 * s.rd F.AX_HOME_CFG_DEB_NS n : Nat) then { x with burst := some ⟨at_, u.edges + 1, u.latch.orElse (fun _ => here)⟩ }
          else { x with burst := some ⟨at_, 1, here⟩ }
        | none => { x with burst := some ⟨at_, 1, here⟩ })
  | none => s)

/-- HOME_DEB_NS without a further edge (R162, R163): at its active level the burst is
qualified, and a homing takes L or goes on to the index. -/
def execBurstQualified (t : Instant) (n : Fin 128) (s : State) : Out := .next (
  let s := (s.advance t).axUpdate n
  match (s.axis n).burst with
  | some u =>
    if (s.rd F.AX_HOME_CFG_DEB_NS n : Int) ≤ sinceNs s.now u.last then
      let s := s.onAxis n (fun x => { x with burst := none })
      match u.latch with
      | some l =>
        if !s.on F.AX_STATUS_HOME_SW n then s
        else
          let s := s.wr F.AX_CHATTER_HOME_CHATTER (min (u.edges - 1) 0xFFFF) n
          if s.rd F.AX_HOME_CFG_MODE n = 0 then s.homeSeen n l
          else if s.rd F.AX_HOME_CFG_MODE n = 1 then s.onAxis n (fun x => { x with homing := x.homing.map (fun h => { h with seen := true }) })
          else s
      | none => s
    else s
  | none => s)

/-- An index edge (R163): in SWITCH_INDEX homing the first after a qualified burst gives L. -/
def execIndexEdge (t : Instant) (n : Fin 128) (s : State) : Out := .next (
  let s := (s.advance t).axUpdate n
  if s.rd F.AX_HOME_CFG_MODE n = 1 ∧ s.rd F.AX_ROUTE_FB_KIND n = 1 ∧ (s.axis n).homing.any (fun h => h.seen) then s.homeSeen n (s.edgePosition n (s.pin (s.rd F.AX_FB n + 2)).stamp)
  else s)

end Sys2Proof.Machine
end

