-- ==== Sys2Proof/Machine/Sched.lean ====
section
/-! DEFINITION.  The commands of the Shuttles, the scheduler and the hardware queues (10). -/

namespace Sys2Proof.Machine

open Sys2Proof

/-- What a queue instruction on Shuttle `sh` does to the task that runs there; nothing where
none runs. -/
def State.onTask (s : State) (sh : Nat) (f : State → Nat → State) : State :=
  match s.runningOn sh with
  | some i => f s i
  | none => s

/-- A program fault of the task in slot `i` on Shuttle `sh` (R263). -/
def State.programFault (s : State) (sh i cause detail : Nat) : State := (s.leaveShuttle sh i).complete i 1 cause detail

/-- An operand of `n` bytes at an address (R268): a misaligned one is a MISALIGN fault, one
outside the windows a PROT fault. -/
def State.operand (s : State) (sh i a n attr : Nat) (f : State → State) : State :=
  if a % n ≠ 0 then s.programFault sh i 4 a
  else if !s.windowOk sh a n attr then s.programFault sh i 3 a
  else f s

/-- The task in slot `i` parked (R258): its deadline is QTMO us from now, or the partition's
default. -/
def State.park (s : State) (sh i : Nat) (w : WaitFor) (qtmo : Nat) : State :=
  let s := s.putShuttle sh { s.shuttle sh with qtmo := qtmo }
  let us := if qtmo = 0 then max 1 (s.rd F.PS_WAIT_DEFAULT (s.task i).partition) else qtmo
  let s := s.leaveShuttle sh i
  s.putTask i { s.task i with phase := .parked, wait := some (w, addNs s.now (1000 * us)) }

/-- BUSY for the task in slot `i` (Table 10.9). -/
def State.busy (s : State) (sh i : Nat) : State := (s.bump F.PS_BUSY_CNT (s.task i).partition).answerShuttle sh (-1)

/-- QSUB (R248, R251): the handle, DENIED, BUSY or a wait for a slot. -/
def execQsub (t : Instant) (sh : Fin 48) (addr : Word) (desc : BitVec 512) (nowait : Bool) (qtmo : Word) (s : State) : Out := .next (
  let s := s.advance t
  s.onTask sh (fun s i => s.operand sh i addr.toNat 64 0 (fun s =>
    let x := s.task i
    let p := x.partition
    let d := TaskDesc.ofBytes desc.toNat
    if !s.submitOk p d x.desc.supervisor then s.answerShuttle sh (-3)
    else if s.slotFree p then
      let r := s.createTask p d none x.scan
      (r.1.answerShuttle sh (r.1.handleOf r.2)).dispatch
    else if nowait then s.busy sh i
    else ((s.park sh i (.slot d) qtmo.toNat).addClaim p (.qsub i)).dispatch)))

/-- QCAN (R260). -/
def execQcan (t : Instant) (sh : Fin 48) (handle : Word) (s : State) : Out := .next (
  let s := s.advance t
  s.onTask sh (fun s i =>
    let r := s.cancelHandle (s.task i).partition handle.toNat
    r.1.answerShuttle sh r.2))

/-- QPUSH (R258, R259, R262, R268). -/
def execQpush (t : Instant) (sh : Fin 48) (h : Fin 128) (addr : Word) (e : QEntry) (nowait : Bool) (qtmo : Word) (s : State) : Out := .next (
  let s := s.advance t
  s.onTask sh (fun s i => s.operand sh i addr.toNat 16 0 (fun s =>
    let p := (s.task i).partition
    if s.owner (queueKey h) ≠ some p ∨ s.rd F.HQ_CFG_KIND h = 2 ∨ (1 ≤ e.type ∧ e.type ≤ 0x7F) then s.answerShuttle sh (-3)
    else if 0 < s.credits h then ((s.answerShuttle sh 0).pushEntry h e).dispatch
    else if nowait then (s.bump F.HQ_BUSY_CNT h).busy sh i
    else
      let s := s.park sh i (.credit h e) qtmo.toNat
      (s.putQueue h { s.queue h with pushers := (s.queue h).pushers ++ [.task i] }).dispatch)))

/-- QPOP (R258, R259, R262, R268). -/
def execQpop (t : Instant) (sh : Fin 48) (h : Fin 128) (addr : Word) (nowait : Bool) (qtmo : Word) (s : State) : Out := .next (
  let s := s.advance t
  s.onTask sh (fun s i => s.operand sh i addr.toNat 16 1 (fun s =>
    let p := (s.task i).partition
    if s.owner (queueKey h) ≠ some p ∨ s.rd F.HQ_CFG_KIND h = 1 then s.answerShuttle sh (-3)
    else
      match (s.queue h).entries with
      | e :: _ => (((s.fillBuffer p sh addr.toNat e.bytes).answerShuttle sh 0).popEntry h).dispatch
      | [] =>
        if nowait then (s.bump F.HQ_BUSY_CNT h).busy sh i
        else
          let s := s.park sh i (.entry h addr.toNat) qtmo.toNat
          (s.putQueue h { s.queue h with poppers := (s.queue h).poppers ++ [i] }).dispatch)))

/-- QDONE (R250, R268): completion OK, or ERROR with cause APP for a nonzero code. -/
def execQdone (t : Instant) (sh : Fin 48) (code : Word) (s : State) : Out := .next (
  let s := s.advance t
  s.onTask sh (fun s i =>
    let bad := b2n (code.toNat != 0)
    (s.leaveShuttle sh i).complete i bad bad code.toNat))

/-- QYIELD (R250, R268): READY again, as a resume. -/
def execQyield (t : Instant) (sh : Fin 48) (s : State) : Out := .next (
  let s := s.advance t
  s.onTask sh (fun s i => ((s.leaveShuttle sh i).makeResume i 0).dispatch))

/-- QREL (R264, R268): only a SUPERVISOR task, and only a held flow. -/
def execQrel (t : Instant) (sh : Fin 48) (flow : Fin 64) (drop : Bool) (s : State) : Out := .next (
  let s := s.advance t
  s.onTask sh (fun s i =>
    let f := 64 * (s.task i).partition + flow
    if !(s.task i).desc.supervisor || !s.on F.FLOW_STATE_HELD f then s.answerShuttle sh (-3)
    else (s.answerShuttle sh 0).releaseFlow f drop))

/-- The value of QSTAT's selector for the task in slot `i` on Shuttle `sh` (R268). -/
def State.statValue (s : State) (sh i sel : Nat) : Int :=
  let p := (s.task i).partition
  if sel < 0x80 then (s.queue sel).entries.length
  else if 0x100 ≤ sel ∧ sel < 0x180 then s.credits (sel - 0x100)
  else if sel = 0x200 then (s.shuttle sh).flags
  else if sel = 0x201 then (s.task i).retries
  else if sel = 0x202 then (s.rd F.PS_QUOTA p - s.rd F.PS_USED p : Nat)
  else -3

/-- QSTAT (R268). -/
def execQstat (t : Instant) (sh : Fin 48) (sel : Word) (s : State) : Out := .next (
  let s := s.advance t
  s.onTask sh (fun s i => s.answerShuttle sh (s.statValue sh i sel.toNat)))

/-- A Shuttle OFFLINE (R265): SHUTTLE_OFF, and a record in the system stream. -/
def State.shuttleOff (s : State) (sh : Nat) : State :=
  let s := (s.putShState sh 3 0).setBit F.SCHED_EVENT 1
  let last := s.rd F.SH_FAULTS_LAST_CAUSE sh
  s.event sysStream 11 sh 1 0 last (leBytes 4 (last * 65536 + s.rd F.SH_FAULTS_COUNT sh))

/-- A hardware fault of Shuttle `sh` counted (R265, 01 Table 1.4): it runs its self-check, or
goes OFFLINE at the third within 1 s. -/
def State.shuttleFault (s : State) (sh cause : Nat) : State :=
  let s := s.sysFault (if cause = 19 then 7 else 6) sh
  let s := (s.bump F.SH_FAULTS_COUNT sh).wr F.SH_FAULTS_LAST_CAUSE cause sh
  let x := s.shuttle sh
  let recent := x.faults.filter (fun f => decide (sinceNs s.now f ≤ 1000000000)) ++ [s.now]
  let s := s.putShuttle sh { x with faults := recent }
  if 3 ≤ recent.length then s.shuttleOff sh else s.putShState sh 2 0

/-- A dispatch decision that differed from its second computation (R256, 01 Table 1.4): counted, and
recomputed once; a second mismatch is a device fault, which sends every partition to STOP. -/
def State.dispatchMismatch (s : State) (again : Bool) : State :=
  let s := ((s.sysFault 8).bump F.SCHED_MISMATCH_CNT).schedEvent none 0
  if again then (s.devFault 0).stopAll 7 else s.dispatch

/-- A fault in the task on a Shuttle (R263): a program fault ends it; after a hardware fault it
is retried where it is IDEMPOTENT and has retries left, else it ends. -/
def execTaskFault (t : Instant) (sh : Fin 48) (cause : TaskCause) (detail : Word) (s : State) : Out := .next (
  let s := s.advance t
  match cause with
  | .dispatch again => s.dispatchMismatch again
  | cause =>
  s.onTask sh (fun s i =>
    if cause.code < 16 then s.programFault sh i cause.code detail.toNat
    else
      let s := (s.leaveShuttle sh i 2).shuttleFault sh cause.code
      let x := s.task i
      if x.desc.idempotent && decide (x.retries < x.desc.retryMax) then
        let s := s.putTask i { x with phase := .ready, retry := true, resume := false, readyAt := x.firstReady, context := none, faultedOn := some sh.val, retries := x.retries + 1, shuttle := none }
        ((s.bump F.SCHED_RETRY_CNT).enlist i).dispatch
      else s.complete i 1 cause.code detail.toNat))

/-- RUN_MS of running time reached by the task on a Shuttle (Table 10.7). -/
def execRuntimeExpiry (t : Instant) (sh : Fin 48) (s : State) : Out := .next (
  let s := s.advance t
  s.onTask sh (fun s i =>
    let x := s.task i
    if x.desc.runMs ≠ 0 ∧ 16000000 * x.desc.runMs ≤ x.ran + (s.now - x.runFrom).toNat then s.programFault sh i 5 0 else s))

/-- The task in slot `i` waits no longer. -/
def State.dropWait (s : State) (i : Nat) : State :=
  match (s.task i).wait with
  | some (.slot _, _) => s.onSched (fun c => { c with claims := c.claims.erase ((s.task i).partition, .qsub i) })
  | some (.credit h _, _) => s.putQueue h { s.queue h with pushers := (s.queue h).pushers.filter (· != .task i) }
  | some (.entry h _, _) => s.putQueue h { s.queue h with poppers := (s.queue h).poppers.filter (· != i) }
  | none => s

/-- A parked task's deadline (R258): it resumes with TIMEOUT and nothing is taken. -/
def execWaitTimeout (t : Instant) (slot : Fin 4096) (s : State) : Out := .next (
  let s := s.advance t
  let x := s.task slot
  match x.phase, x.wait with
  | .parked, some (_, d) =>
    if s.slotUsed slot && notLater d s.now then (((s.dropWait slot).bump F.SCHED_TIMEOUT_CNT).makeResume slot (-2)).dispatch else s
  | _, _ => s)

/-- A Shuttle's self-check ends (R265). -/
def execSelfCheckDone (t : Instant) (sh : Fin 48) (pass : Bool) (s : State) : Out := .next (
  let s := s.advance t
  if s.rd F.SH_STATUS_STATE sh ≠ 2 then s
  else if pass then (s.putShState sh 0 0).dispatch
  else s.shuttleOff sh)

/-- RESTORE (R265): the self-check of an OFFLINE Shuttle runs again. -/
def execRestore (t : Instant) (sh : Fin 48) (s : State) : Out := .next (
  let s := s.advance t
  s.hostWrite (0x80300C + 0x10 * sh) (fun s => if s.rd F.SH_STATUS_STATE sh = 3 then s.putShState sh 2 0 else s))

/-- A write of RELEASE (R264): refused for a flow that is not HELD. -/
def execRelease (t : Instant) (f : Fin 1024) (drop : Bool) (s : State) : Out := .next (
  let s := s.advance t
  s.hostWrite (0x806000 + 4 * f) (fun s => if s.on F.FLOW_STATE_HELD f then s.releaseFlow f drop else s.schedEvent (some (f / 64)) 4))

/-- SUBMIT_TASK (R248, R251, 18 R443): the handle, BUSY or DENIED. -/
def execSubmitTask (t : Instant) (p : Fin 16) (desc : BitVec 512) (s : State) : Out := .next (
  (s.advance t).hostCommand 7 p.val anyArgs (fun s =>
  let d := TaskDesc.ofBytes desc.toNat
  if !s.submitOk p d true then s.reply (-3)
  else if !s.slotFree p then s.reply (-1)
  else
    let r := s.createTask p d none
    (r.1.reply (r.1.handleOf r.2)).dispatch))

/-- CANCEL_TASK (R260, 18 R443). -/
def execCancelTask (t : Instant) (p : Fin 16) (handle : Word) (s : State) : Out := .next (
  (s.advance t).hostCommand 8 p.val (fun c => c.arg0 == handle.toNat) (fun s =>
  let r := s.cancelHandle p handle.toNat
  r.1.reply r.2))

/-- Entries pushed by the host until the credits run out, with the number admitted. -/
def State.hostPush (s : State) (h : Nat) (n : Nat) : List QEntry → State × Nat
  | [] => (s, n)
  | e :: rest => if s.credits h = 0 then (s, n) else (s.pushEntry h e).hostPush h (n + 1) rest

/-- HQ_PUSH (18 R443): a FROM_HOST queue of the partition; a reserved TYPE is DENIED. -/
def execHqPush (t : Instant) (p : Fin 16) (h : Fin 128) (es : List QEntry) (s : State) : Out := .next (
  (s.advance t).hostCommand 9 p.val (fun c => c.arg0 == h.val) (fun s =>
  if s.owner (queueKey h) ≠ some p.val ∨ s.rd F.HQ_CFG_KIND h ≠ 2 ∨ es.any (fun e => decide (1 ≤ e.type) && decide (e.type ≤ 0x7F)) = true then s.reply (-3)
  else
    let r := s.hostPush h 0 es
    (r.1.reply r.2).dispatch))

/-- Up to `max` entries taken by the host, with their bytes. -/
def State.hostPop (s : State) (h : Nat) (data : List Byte) : Nat → State × List Byte
  | 0 => (s, data)
  | n + 1 =>
    match (s.queue h).entries with
    | [] => (s, data)
    | e :: _ => (s.popEntry h).hostPop h (data ++ e.bytes) n

/-- HQ_POP (18 R443): a TO_HOST queue of the partition. -/
def execHqPop (t : Instant) (p : Fin 16) (h : Fin 128) (max : Word) (s : State) : Out := .next (
  (s.advance t).hostCommand 0xA p.val (fun c => c.arg0 == h.val && c.arg1 == max.toNat) (fun s =>
  if s.owner (queueKey h) ≠ some p.val ∨ s.rd F.HQ_CFG_KIND h ≠ 1 then s.reply (-3)
  else
    let r := s.hostPop h [] (min max.toNat (s.queue h).entries.length)
    (r.1.reply (r.2.length / 16) r.2).dispatch))

end Sys2Proof.Machine
end

