-- ==== Sys2Proof/Machine/TrigOps.lean ====
section
/-! DEFINITION.  Fire requests, envelopes and violations (08 R202, R203, R208 to R211). -/

namespace Sys2Proof.Machine

open Sys2Proof

/-! ### Firing (R202, R203) -/

/-- Capture set `n` fires at this instant with a cause (0 SEQ, 1 MASK, 2 AUTO, 3 HOST), a
trigger word and EVENT_T: POST begins, the event is emitted, and the mask units aligned to the
fire are armed (R209). -/
def State.fire (s : State) (n cause word : Nat) (eventT : Instant) : State :=
  let x := s.cset n
  let forced := decide (2 ≤ cause)
  let split := x.chans.entries.map (fun e =>
    (e.1, { e.2 with pre := e.2.pre.filter (fun p => earlier p.1 s.now), post := e.2.pre.filter (fun p => !earlier p.1 s.now) }))
  let items := (split.map (fun e => e.2.post.map (fun p => (e.1, p.1, p.2)))).flatten
  let bytes := (split.map (fun e => e.2.post.length * (if x.streamOut then 16 else e.2.size))).sum
  let s := s.putCset n { x with
    chans := ⟨split⟩, trigT := s.now, eventT := eventT, word := word, missedAt := x.missed, dead := (sinceNs x.ready x.reference).toNat
    flags := x.flags ||| b2n forced, ovf := none, bytes := bytes, items := if x.streamOut then items.foldl (fun l e => insertItem e l) [] else []
    chunk := 0, acked := 0 }
  let s := ((s.wr F.CS_STATUS_STATE 3 n).wr F.CS_CHUNK_ACK 0 n).when forced (·.csEvent n 1)
  let s := (((s.wr F.TS_WORD word n).wrT F.TS_TRIG s.now n).tsEvent n 0).internalWake 3
  let s := (s.latchConds 4 n).emitFrom 6 n 0
  s.each ((s.recsOf 4 6).map (fun e => keyIndex e.1)) (fun s m =>
    if s.on F.MU_CFG_ALIGN_TRIG m && s.rd F.MU_CFG_ALIGN_TS m == n then s.armMaskAt m (s.rd F.MU_ENV m) s.now false else s)

/-- A fire request missed (R202); one ordered after a DISARM of its instant is not counted (Table 8.10). -/
def State.missFire (s : State) (n cause : Nat) : State :=
  let x := s.cset n
  if x.disarmed = some s.now then s
  else
  let hit := if cause = 1 ∧ s.capState n = 3 then 32 else 0
  let s := s.putCset n { x with missed := x.missed + 1, flags := x.flags ||| hit }
  (s.bump F.TS_MISSED n).tsEvent n 1

/-- A fire request to set `n`: served in READY, else missed. -/
def State.fireRequest (s : State) (n cause word : Nat) (eventT : Instant) : State :=
  if s.capState n = 2 then s.fire n cause word eventT else s.missFire n cause

/-- The trigger word of a cause other than SEQ (Table 8.2). -/
def causeWord (cause mu : Nat) : Nat := cause * 2 ^ 12 + mu * 2 ^ 16

/-! ### A sequencer's sample (R193 to R196) -/

/-- The conditions of state `x` that hold at a sample of sequencer `n`: condition, and the
earliest stamp of an event it latched. -/
def State.trueConds (s : State) (n x c : Nat) : List (Nat × Option Instant) :=
  let q := s.seq n
  (List.range 4).filterMap (fun i =>
    let k := 4 * (16 * n + x) + i
    let arg := s.rd F.TS_COND_ARG k
    let src := s.rd F.TS_COND_CFG_SRC k
    let plain := fun b => if b then some (i, none) else none
    match s.rd F.TS_COND_CFG_KIND k with
    | 1 => plain (decide (s.rd F.TS_COND_CFG_OP k ≤ 5) && compareOp (s.rd F.TS_COND_CFG_OP k) (s.rdI F.VR_VALUE src) (toSigned 32 arg))
    | 2 =>
      match (q.events.filter (fun e => e.1 == src)).map (·.2) with
      | [] => none
      | e :: rest => some (i, some (rest.foldl minT e))
    | 3 => plain (q.steps.any (fun st => arg == 0xFFFF || st == arg))
    | 4 => plain (decide (arg ≤ c))
    | 5 => plain (decide ((arg : Int) ≤ sinceNs s.now q.entered))
    | _ => none)

/-- Events that the counter of state `x` counts in this sample (R194). -/
def State.countedEvents (s : State) (n x : Nat) : Nat :=
  let q := s.seq n
  match s.rd F.TS_ST_CFG_CNT_KIND (16 * n + x) with
  | 1 => (q.events.filter (fun e => e.1 == s.rd F.TS_ST_CFG_CNT_SRC (16 * n + x))).length
  | 2 => q.steps.length
  | _ => 0

/-- A sample of sequencer `n`. -/
def State.sampleSeq (s : State) (n : Nat) : State :=
  let x := s.rd F.TS_STATUS_STATE n
  let q := s.seq n
  let c := min (q.counters.get x 0 + s.countedEvents n x) (2 ^ 32 - 1)
  let conds := s.trueConds n x c
  let s := s.putSeq n { q with counters := q.counters.set x c, events := [], steps := [] }
  let s := (s.wr F.TS_COUNTER c n).wr F.TS_TIMER (min (2 ^ 32 - 1) (sinceNs s.now q.entered).toNat) n
  match conds with
  | [] => s
  | (i, _) :: _ =>
    let next := s.rd F.TS_COND_CFG_NEXT (4 * (16 * n + x) + i)
    let mask := (conds.map (fun e => 2 ^ e.1)).sum
    let stamps := conds.filterMap (·.2)
    let eventT := match stamps with
      | [] => 0
      | e :: rest => rest.foldl minT e
    let s := s.enterState n next s.now
    if next = s.rd F.TS_CFG n then s.fireRequest n 0 (x + 16 * i + 256 * mask) eventT else s

/-! ### Envelopes (R208, R210) -/

/-- DRAM address of point `i` of an envelope. -/
def State.pointAddr (s : State) (env i : Nat) : Nat := s.rd F.ENV_REGION + env * 2 ^ 20 + 16 * i

/-- T_NS, LO and HI of a point. -/
def State.point (s : State) (env i : Nat) : Nat × Int × Int :=
  let b := s.dram.readBytes (s.pointAddr env i) 16
  (ofLeBytes (b.take 8), toSigned 32 (ofLeBytes ((b.drop 8).take 4)), toSigned 32 (ofLeBytes (b.drop 12)))

/-- The 16 bytes of a point. -/
def pointBytes (p : Nat × Int × Int) : List Byte := leBytes 8 p.1 ++ leBytes 4 (ofSigned 32 p.2.1) ++ leBytes 4 (ofSigned 32 p.2.2)

/-- The last point at or before τ, in sixteenths; `fuel` bounds the search from point `i`. -/
def State.lastPoint (s : State) (env count tau : Nat) : Nat → Nat → Nat
  | 0, i => i
  | fuel + 1, i => if i + 1 < count ∧ 16 * (s.point env (i + 1)).1 ≤ tau then s.lastPoint env count tau fuel (i + 1) else i

/-- The bounds of an envelope at τ from point `i`. -/
def State.bounds (s : State) (env count i tau : Nat) : Int × Int :=
  let a := s.point env i
  if i + 1 = count then (a.2.1, a.2.2)
  else
    let b := s.point env (i + 1)
    let span := 16 * (b.1 - a.1)
    let at_ := fun (x y : Int) => x + rdiv ((y - x) * (tau - 16 * a.1 : Nat)) span
    (at_ a.2.1 b.2.1, at_ a.2.2 b.2.2)

/-! ### Violations (R211) -/

/-- A violation of mask unit `m` with value `v` outside its bounds. -/
def State.violation (s : State) (m tau : Nat) (v : Int) (b : Int × Int) : State :=
  let p := s.ownerMU m
  let act := s.rd F.MU_CFG_ACT m
  let detail := leBytes 4 (tau / 16) ++ leBytes 4 (ofSigned 32 v) ++ leBytes 4 (ofSigned 32 b.1) ++ leBytes 4 (ofSigned 32 b.2)
  let s := ((s.bump F.MU_VIOL_CNT m).wrI F.MU_LAST_V v m).muEvent m 0 detail
  let set := s.rd F.MU_CFG_FREEZE_SET m
  let s := s.when (bitOf act 0 && s.ownerTS set == p) (·.fireRequest set 1 (causeWord 1 m) 0)
  let s := s.when (bitOf act 1) (·.emitFrom 5 m 0)
  let s := s.when (bitOf act 2) (·.latchConds 3 m)
  match p with
  | some p => s.when (bitOf act 3) (·.pauseCause p 2)
  | none => s

/-- The test of mask unit `m` at a sample (R210), its buffer holding `have_` points. -/
def State.testMask (s : State) (m have_ : Nat) : State :=
  let env := s.rd F.MU_STATUS_ENV_NOW m
  let count := ((s.trig.envs.get env (0, 0))).2
  let tau := (s.now - s.rdT F.MU_A m).toNat
  let i := s.lastPoint env count tau count 0
  let last := decide (i + 1 = count)
  let s :=
    if have_ ≤ (if last then i else i + 1) then
      ((s.bump F.MU_UNTESTED m).muEvent m 2).wr F.MU_STATUS_VIOL_RUN 0 m
    else
      let b := s.bounds env count i tau
      let v := s.rdI F.VR_VALUE (s.rd F.MU_SRC m)
      let run := if v < b.1 ∨ b.2 < v then min (s.rd F.MU_STATUS_VIOL_RUN m + 1) 255 else 0
      let s := s.wr F.MU_STATUS_VIOL_RUN run m
      let s := if run = max 1 (s.rd F.MU_CFG_VIOL_N m) then s.violation m tau v b else s
      if last then ((s.putMask m ⟨false, none⟩).wr F.MU_STATUS_STATE 2 m).muEvent m 1 else s
  s

end Sys2Proof.Machine
end

