-- ==== Sys2Proof/Machine/Capture.lean ====
section
/-! DEFINITION.  The commands of sequencers, capture sets and mask units (08). -/

namespace Sys2Proof.Machine

open Sys2Proof

/-- A host ARM or DISARM of a resource of an owner (R197): taken only while its Treadle is IDLE
or ABORTING; else `drop`. -/
def State.hostArm (s : State) (owner : Option Nat) (drop : State → State) (f : State → State) : State :=
  match owner with
  | some p => if s.rd F.TR_STATUS_STATE p = 0 ∨ s.rd F.TR_STATUS_STATE p = 3 then f s else drop s
  | none => f s

/-- ARM of a sequencer (R197). -/
def execTsArm (t : Instant) (n : Fin 32) (s : State) : Out := .next (
  let s := s.advance t
  s.hostWrite (0x600000 + 0x800 * n) (fun s => s.hostArm (s.ownerTS n) (·.tsEvent n 2) (·.armTrig n)))

/-- DISARM of a sequencer (R197, R200). -/
def execTsDisarm (t : Instant) (n : Fin 32) (s : State) : Out := .next (
  let s := s.advance t
  s.hostWrite (0x600000 + 0x800 * n) (fun s => s.hostArm (s.ownerTS n) (·.tsEvent n 2) (·.disarmTrig n)))

/-- A sample instant of a sequencer (R195, R196). -/
def execTsSample (t : Instant) (n : Fin 32) (s : State) : Out := .next (
  let s := s.advance t
  if s.on F.TS_STATUS_RUNNING n && !s.on F.WARP_STATUS_COARSE && onGrid (s.rd F.TS_PERIOD n) (s.rd F.TS_PHASE n) s.now && !earlier s.now (s.seq n).armedAt then s.sampleSeq n
  else s)

/-- PRE_NS elapsed in FILLING (R200). -/
def execCaptureReady (t : Instant) (n : Fin 32) (s : State) : Out := .next (
  let s := s.advance t
  let x := s.cset n
  if s.capState n = 1 ∧ notLater (addNs x.filling x.preNs) s.now then
    (s.putCset n { x with ready := addNs x.filling x.preNs, flags := 16 * b2n (s.on F.SEC_STATUS_DEBUG_LEVEL) }).wr F.CS_STATUS_STATE 2 n
  else s)

/-- FORCE (R202): a fire request with cause HOST. -/
def execForce (t : Instant) (n : Fin 32) (s : State) : Out := .next (
  let s := s.advance t
  s.hostWrite (0x610000 + 0x100 * n) (fun s => s.fireRequest n 3 (causeWord 3 0) 0))

/-- AUTO_US in READY (R202): a fire request with cause AUTO; an expiry at the instant of another fire that
was ordered before it is missed. -/
def execAutoFire (t : Instant) (n : Fin 32) (s : State) : Out := .next (
  let s := s.advance t
  let us := s.rd F.CS_AUTO_US n
  let due := addNs (s.cset n).ready (1000 * us)
  let served := decide (s.capState n = 2) && notLater due s.now
  let second := decide (s.capState n = 3 ∧ (s.cset n).trigT = s.now ∧ due = s.now) && (s.cset n).word / 2 ^ 12 % 2 ^ 4 != 2
  if us ≠ 0 ∧ (served || second) then s.fireRequest n 2 (causeWord 2 0) 0 else s)

/-- T + POST_NS (R200). -/
def execCaptureEnd (t : Instant) (n : Fin 32) (s : State) : Out := .next (
  let s := s.advance t
  let x := s.cset n
  let e := addNs x.trigT x.postNs
  if s.capState n = 3 ∧ notLater e s.now then s.endPost n e else s)

/-- A slot complete (R200, R206, R207): the set is DONE, with REARM it fills again once its next
slot is free, else it is IDLE. -/
def execCaptureSlotDone (t : Instant) (n : Fin 32) (s : State) : Out := .next (
  let s := s.advance t
  if s.capState n ≠ 4 then s
  else
    let x := s.cset n
    let s := s.when x.streamOut (·.closeChunks n true (x.items.length / 256 + 1))
    let seq := s.rd F.CS_CAP_SEQ n
    let digest := s.capDigest n
    let s := { s with dram := s.dram.writeBytes (s.slotBase n seq) (s.slotHead n digest.toNat) }
    let s := ((s.wr F.CS_STATUS_STATE 5 n).setBit F.CS_EVENT 0 n).interrupt (34 + n)
    let s := s.record (streamOf (s.ownerTS n)) (eventRec (s.cset n).trigT 4 n (seq % 2 ^ 32) 0 0 (leBytes 48 digest.toNat))
    let s := s.wr F.CS_CAP_SEQ (seq + 1) n
    if !s.on F.CS_CTRL_REARM n then s.idleSet n
    else if s.slotReady n then s.beginFilling n
    else s.csEvent n 5)

/-- A write of CS_CONSUMED (R201): a set that waits for the slot it frees fills from now. -/
def execCsConsumedWrite (t : Instant) (n : Fin 32) (seq : BitVec 64) (s : State) : Out := .next (
  let s := s.advance t
  s.hostWrite (0x610034 + 0x100 * n) (fun s =>
    if seq.toNat < s.rd F.CS_CONSUMED n ∨ s.rd F.CS_CAP_SEQ n < seq.toNat then (s.csEvent n 6).discardOther (0x610034 + 0x100 * n)
    else
      let s := s.wr F.CS_CONSUMED seq.toNat n
      if s.capState n = 5 ∧ s.on F.CS_CTRL_REARM n ∧ s.slotReady n then s.beginFilling n else s))

/-- A write of CS_CHUNK_ACK (R205): chunks enqueued and not yet returned are returned. -/
def execChunkAck (t : Instant) (n : Fin 32) (count : BitVec 13) (s : State) : Out := .next (
  let s := s.advance t
  s.hostWrite (0x610040 + 0x100 * n) (fun s =>
    let x := s.cset n
    let d := (count.toNat + 8192 - x.acked % 8192) % 8192
    if x.acked + d ≤ x.chunk then (s.putCset n { x with acked := x.acked + d }).wr F.CS_CHUNK_ACK count.toNat n else s))

/-- Whether the points of an envelope satisfy Table 8.8. -/
def pointsOk : Option Nat → List (Nat × Int × Int) → Bool
  | _, [] => true
  | prev, (at_, lo, hi) :: rest =>
    (match prev with
      | none => at_ == 0
      | some p => decide (p < at_)) && decide (at_ < 2 ^ 64) && decide (lo ≤ hi) && pointsOk (some at_) rest

/-- The first failing check of Table 8.9, 0 when every check passes. -/
def State.envResult (s : State) (p : Nat) (e : Envelope) : Nat :=
  if (List.range 64).any (fun m => (s.rd F.MU_STATUS_STATE m == 1 && s.rd F.MU_STATUS_ENV_NOW m == e.env) || (s.maskUnit m).fetching == some e.env) then 1
  else if e.magic ≠ 0x4C564E45 ∨ e.format ≠ 1 ∨ e.reserved ≠ 0 then 2
  else if s.rd F.ENV_COUNT ≤ e.env ∨ e.partition ≠ p then 3
  else if e.beamDigest ≠ s.loom.digest then 4
  else if !e.sigOk || !s.recipeKeyOk p e.keyId then 5
  else if s.belowFloor 3 p e.version = true then 6
  else if e.bodyDigest ≠ e.bodyHash then 7
  else if e.count < 2 ∨ 65536 < e.count ∨ e.points.length ≠ e.count ∨ pointsOk none e.points = false then 8
  else 0

/-- An accepted envelope in its DRAM region (R208). -/
def State.takeEnvelope (s : State) (p : Nat) (img : Envelope) : State :=
  let s := { s with dram := s.dram.writeBytes (s.pointAddr img.env 0) (img.points.map pointBytes).flatten }
  { s with trig := { s.trig with envs := s.trig.envs.set img.env (p, img.count) } }

/-- LOAD_ENVELOPE (R208): an accepted envelope lies in its DRAM region; a refused one changes
only RESULT. -/
def execLoadEnvelope (t : Instant) (p : Fin 16) (img : Envelope) (room : Bool) (s : State) : Out := .next (
  (s.advance t).hostCommand 3 p.val anyArgs (·.loading room (fun s =>
  let r := s.envResult p img
  let s := (s.wr F.ENV_LOAD r).reply r
  if r ≠ 0 then s
  else (s.store (fun x => { x with envs := x.envs.set img.env (p.val, img) })).takeEnvelope p img)))

/-- ARM of a mask unit (R209): the first points of MU_ENV's envelope are fetched. -/
def execMuArm (t : Instant) (n : Fin 64) (s : State) : Out := .next (
  let s := s.advance t
  s.hostWrite (0x630000 + 0x40 * n) (fun s => s.hostArm (s.ownerMU n) (·.muEvent n 3) (fun s =>
    let env := s.rd F.MU_ENV n
    if !s.maskLimits n then s
    else if !s.envOk n env then s.envRefused n env
    else s.putMask n { s.maskUnit n with fetching := some env })))

/-- The points of a host ARM fetched (R209): A is the first grid instant after. -/
def execPointFetchDone (t : Instant) (n : Fin 64) (s : State) : Out := .next (
  let s := s.advance t
  match (s.maskUnit n).fetching with
  | some env => s.armMaskAt n env (nextGrid (s.rd F.MU_PERIOD n) (s.rd F.MU_PHASE n) s.now) false
  | none => s)

/-- DISARM of a mask unit (R209). -/
def execMuDisarm (t : Instant) (n : Fin 64) (s : State) : Out := .next (
  let s := s.advance t
  s.hostWrite (0x630000 + 0x40 * n) (fun s => s.hostArm (s.ownerMU n) (·.muEvent n 3) (·.disarmMask n)))

/-- A grid sample of a mask unit (R210). -/
def execMuSample (t : Instant) (n : Fin 64) (have_ : Nat) (s : State) : Out := .next (
  let s := s.advance t
  if s.rd F.MU_STATUS_STATE n = 1 ∧ !s.on F.WARP_STATUS_COARSE ∧ onGrid (s.rd F.MU_PERIOD n) (s.rd F.MU_PHASE n) s.now ∧ !earlier s.now (s.rdT F.MU_A n) then s.testMask n have_
  else s)

/-- A sample instant of a channel with its own grid (R198), while its set takes samples: an
analog input is strobed and its sample taken when the conversion ends (04 R90). -/
def execChannelSample (t : Instant) (n : Fin 256) (s : State) : Out := .next (
  let s := s.advance t
  let kind := s.rd F.CH_SRC_KIND n
  let id := s.rd F.CH_SRC_ID n
  if s.on F.CH_CFG_TIMED n ∨ !(kind == 2 || kind == 4 || kind == 5) ∨ 32 ≤ s.rd F.CH_SRC_SET n ∨ !onGrid (s.rd F.CH_PERIOD n) 0 s.now then s
  else if kind = 4 then
    let r := s.strobeAin id
    let s := r.1
    match r.2 with
    | some q => s.capSample n q.2 (BitVec.ofNat 32 q.1)
    | none => s.awaitAin id (.chan n)
  else s.capSample n s.now (s.chanValue n))

end Sys2Proof.Machine
end

