-- ==== Sys2Proof/Machine/CyclicOps.lean ====
section
/-! DEFINITION.  Cyclic programs: the checks of an image, variables, retain banks and input
images (11). -/

namespace Sys2Proof

/-- The DETERMINISTIC flag (Table 11.1). -/
def Program.deterministic (g : Program) : Bool := g.flags % 2 == 1

/-- Cyclic task entry `i`. -/
def Program.task (g : Program) (i : Nat) : CyclicEntry := g.tasks[i]?.getD ⟨0, 0, 0, 0, 0, 0, 0, 0, 0, 0⟩

/-- Where a section is copied to, if the image has it. -/
def Program.loadOf (g : Program) (type : Nat) : Option Nat := (g.sections.find? (·.type == type)).map (·.load)

/-- The bytes a variable takes: its TYPE's, a timer record's 16 or an edge detector's 4. -/
def VarEntry.bytes (v : VarEntry) : Nat := if v.kind = 2 ∨ v.kind = 3 then 16 else if v.kind = 4 then 4 else v.size

/-- Whether a variable lies in a retain section (Table 11.4). -/
def VarEntry.retained (v : VarEntry) : Bool := v.kind == 1 || v.kind == 2

/-- Equal NAME_HASH, TYPE and KIND (R288). -/
def VarEntry.matches (v o : VarEntry) : Bool := v.name == o.name && v.type == o.type && v.kind == o.kind

end Sys2Proof

namespace Sys2Proof.Machine

open Sys2Proof

/-! ### The checks of Table 11.6 -/

/-- Whether `n` bytes at an address lie in a window of the image. -/
def inWindows (w : List (Nat × Nat × Nat)) (a n : Nat) : Bool :=
  w.any (fun e => e.2.1 != 0 && decide (e.1 * 4096 ≤ a) && decide (a + n ≤ (e.2.2 + 1) * 4096))

/-- Whether a window lies in the partition's memory (18 R451): the application area, the program
region, or, for reads only, the register range. -/
def windowFits (e : Nat × Nat × Nat) : Bool :=
  let (base, attr, last) := e
  attr == 0 ||
  (decide (base ≤ last) &&
    (decide (last < 0x60) || (decide (0x10000 ≤ base) && decide (last < 0x20000)) ||
      (decide (0x40000 ≤ base) && decide (last < 0x41000) && attr == 1)))

/-- Result 8: the sections and windows of an image (Table 11.2). -/
def sectionsOk (g : Program) : Bool :=
  decide (g.sections.length ≤ 16) && decide (1 ≤ g.sections.length) && decide (g.imageBytes ≤ 2 ^ 26) &&
  (g.sections.map (·.type)).eraseDups.length == g.sections.length &&
  g.sections.all (fun e => decide (1 ≤ e.type) && decide (e.type ≤ 8) && decide (e.offset + e.len ≤ g.imageBytes) &&
    (2 < e.type || inWindows g.windows e.load e.len)) &&
  decide (g.templates.length ≤ 64) && decide (g.windows.length ≤ 4) && g.windows.all windowFits

/-- A used cyclic task entry within Table 11.3, its regions in the windows. -/
def taskOk (g : Program) (e : CyclicEntry) : Bool :=
  e.period == 0 ||
  (decide (100 ≤ e.period) && decide (e.period ≤ 10000000) && decide (e.phase < e.period) &&
    decide (10 ≤ e.rel) && decide (e.rel ≤ e.period) && decide (e.template < g.templates.length) &&
    e.inAddr % 64 == 0 && e.outAddr % 64 == 0 && e.retAddr % 64 == 0 &&
    decide (96 ≤ e.inBytes) && decide (e.inBytes ≤ 65536) && decide (64 ≤ e.outBytes) && decide (e.outBytes ≤ 16384) &&
    e.retBytes % 64 == 0 && decide (e.retBytes ≤ 262144) &&
    inWindows g.windows e.inAddr e.inBytes && inWindows g.windows e.outAddr e.outBytes &&
    (e.retAddr == 0 || e.retBytes == 0 || inWindows g.windows e.retAddr e.retBytes))

/-- Whether the LEN of a map entry is its KIND's (Table 11.5). -/
def mapLenOk (e : MapEntry) : Bool :=
  match e.kind with
  | 0 => e.len == 1
  | 4 => e.len == 1
  | 1 => e.len == 4
  | 3 => e.len == 4
  | 6 => e.len == 4
  | _ => decide (1 ≤ e.len) && decide (e.len ≤ 4096)

/-- Whether partition `p` reads ring input byte `o` of ring `r` (01 R21, Table 9.8 RING_IN). -/
def State.readsRing (s : State) (p r o : Nat) : Bool :=
  bitOf (s.cfg (recKey 4 11 (16384 * r + o)) 0 2) p || s.exported p (2 * 2 ^ 28 + 16384 * r + o)

/-- Whether what a map entry names is the partition's to read or to write (Table 11.6). -/
def State.mapOk (s : State) (p : Nat) (g : Program) (e : MapEntry) : Bool :=
  let t := g.task e.task
  let r := e.src / 2 ^ 30
  let o := e.src % 2 ^ 14
  let bytes := (List.range e.len).map (o + ·)
  decide (e.task < 8) && t.period != 0 && mapLenOk e && decide (e.safe ≤ 2) &&
  (match e.dir, e.kind with
    | 0, 0 => decide (e.src < 192) && s.mayRead p (pinKey e.src) e.src
    | 0, 1 => decide (e.src < 96) && s.mayRead p (pinKey (256 + e.src)) (2 ^ 28 + e.src)
    | 0, 2 => decide (o + e.len ≤ 16384) && bytes.all (s.readsRing p r)
    | 0, 3 => decide (e.src < 12288) && s.mayRead p (vrKey e.src) (3 * 2 ^ 28 + e.src)
    | 0, 7 => true
    | 1, 4 => s.owner (outKey e.src) == some p && s.cfg (outKey e.src) 8 1 == 2
    | 1, 5 => decide (o + e.len ≤ 16384) && bytes.all (fun b => s.ringOwner r b == some p)
    | 1, 6 => decide (e.src < 12288) && s.owner (vrKey e.src) == some p && s.cfg (vrKey e.src) 0 4 / 2 ^ 28 == 6
    | _, _ => false) &&
  (if e.dir = 0 then decide (e.off + e.len + 96 ≤ t.inBytes) else decide (e.off + e.len + 64 ≤ t.outBytes))

/-- What an output entry writes, as numbers that differ between outputs. -/
def outputsOf (e : MapEntry) : List Nat :=
  if e.kind = 5 then (List.range e.len).map (fun i => 5 * 2 ^ 32 + e.src + i) else [e.kind * 2 ^ 32 + e.src]

/-- No output is mapped in two tasks. -/
def mapsApart (g : Program) : Bool :=
  let outs := g.map.filter (·.dir == 1)
  outs.all (fun a => outs.all (fun b => a.task == b.task || (outputsOf a).all (fun x => !(outputsOf b).contains x)))

/-- A template that R248 accepts, with DEP and NSUCC 0. -/
def State.templateOk (s : State) (p : Nat) (d : TaskDesc) : Bool := s.descOk p d true && d.dep == 0 && d.nsucc == 0

/-- Result 9: tasks, map, templates and bindings. -/
def State.tasksOk (s : State) (p : Nat) (g : Program) : Bool :=
  decide (g.tasks.length ≤ 8) && g.tasks.all (taskOk g) && g.map.all (s.mapOk p g) && mapsApart g &&
  g.templates.all (s.templateOk p) && g.binds.all (fun b => decide (b.1 < 2048) && decide (b.2.1 < g.templates.length))

/-- RETAIN_KIB of all loaded programs but that of partition `p`. -/
def State.retainOthers (s : State) (p : Nat) : Nat :=
  (((List.range 16).filter (fun q => q != p && s.on F.CP_STATUS_LOADED q)).map (s.rd F.CP_RETAIN ·)).sum

/-- LOAD_RESULT of an image for partition `p` (Table 11.6): the first check that fails. -/
def State.programResult (s : State) (p : Nat) (g : Program) : Nat :=
  if !s.inStop p || s.rd F.TR_STATUS_STATE p != 0 || s.rd F.LP_STATUS_APPLY_STATE p != 0 then 1
  else if !g.headOk then 2
  else if g.partition ≠ p then 3
  else if g.beamDigest ≠ s.loom.digest then 4
  else if !g.sigOk || !s.rootOk g.keyId then 5
  else if s.belowFloor 5 p g.version = true then 6
  else if !g.bodyOk then 7
  else if !sectionsOk g then 8
  else if !s.tasksOk p g then 9
  else if 256 < g.retainKib ∨ 2048 < s.retainOthers p + g.retainKib then 10
  else if s.inPair && !g.deterministic then 11
  else 0

/-! ### Variables (R280, R283, R288) -/

/-- CODE or DATA copied to its LOAD address. -/
def State.copySection (s : State) (p : Nat) (g : Program) (type : Nat) (bs : List Byte) : State :=
  match g.loadOf type with
  | some a => s.partStore p a bs
  | none => s

/-- A variable's bytes in the partition's memory. -/
def State.varBytes (s : State) (p : Nat) (v : VarEntry) : List Byte := s.partRead p v.addr v.bytes

/-- What a matched variable takes of the old value (R288): the value, a timer's STAMP, RUNNING
and Q, or an edge detector's PREV with NEW 0. -/
def keptBytes (kind : Nat) (old fresh : List Byte) : List Byte :=
  match kind with
  | 2 => old.take 8 ++ (fresh.drop 8).take 4 ++ leBytes 4 (ofLeBytes ((old.drop 12).take 4) % 4)
  | 3 => old.take 8 ++ (fresh.drop 8).take 4 ++ leBytes 4 (ofLeBytes ((old.drop 12).take 4) % 4)
  | 4 => leBytes 4 (ofLeBytes old % 2)
  | _ => old

/-- What a variable without a match takes (R288): its DATA value, a cleared timer, or NEW 1. -/
def freshBytes (kind : Nat) (fresh : List Byte) : List Byte :=
  match kind with
  | 2 => List.replicate 16 0
  | 3 => List.replicate 16 0
  | 4 => leBytes 4 2
  | _ => fresh

/-- The new variables of an image mapped onto old values (R288): `old` gives the bytes of an old
variable that matches. -/
def State.mapVars (s : State) (p : Nat) (vars : List VarEntry) (old : VarEntry → Option (List Byte)) : State :=
  vars.foldl (fun s v =>
    match old v with
    | some b => s.partStore p v.addr (keptBytes v.kind b (s.varBytes p v))
    | none => s.partStore p v.addr (freshBytes v.kind (s.varBytes p v))) s

/-- The bytes of the variable of a list of old variables, with their values, that matches. -/
def findOld (l : List (VarEntry × List Byte)) (v : VarEntry) : Option (List Byte) := (l.find? (fun e => v.matches e.1)).map (·.2)

/-- The start values of a START (R280): WARM keeps every variable; COLD takes DATA but for the
retained variables; COLD_RETAIN takes all of DATA. -/
def State.startVars (s : State) (p mode : Nat) (g : Program) : State :=
  if mode = 0 then s
  else
    let kept := (g.vars.filter (fun v => v.kind == 1 && mode != 2)).map (fun v => (v.addr, s.varBytes p v))
    kept.foldl (fun s e => s.partStore p e.1 e.2) (s.copySection p g 2 g.data)

/-! ### Retain banks (R284, R285, R287) -/

/-- Retain bank `b` of partition `p`. -/
def State.bank (s : State) (p b : Nat) : RetBank := s.cyc.banks.get (2 * p + b) RetBank.init
/-- Retain bank `b` of partition `p` set. -/
def State.putBank (s : State) (p b : Nat) (x : RetBank) : State := { s with cyc := { s.cyc with banks := s.cyc.banks.set (2 * p + b) x } }

/-- SEQ of a bank for the choice of the bank to write: a bad bank counts as the lower. -/
def RetBank.order (x : RetBank) : Nat := if x.good then x.seq + 1 else 0

/-- The bank that a commit writes: the one with the lower SEQ (R285). -/
def State.bankToWrite (s : State) (p : Nat) : Nat := if (s.bank p 1).order < (s.bank p 0).order then 1 else 0

/-- The bank in force (R287): good, with the higher SEQ. -/
def State.bankInForce (s : State) (p : Nat) : Option RetBank :=
  let a := s.bank p 0
  let b := s.bank p 1
  if a.good && (!b.good || decide (b.seq ≤ a.seq)) then some a else if b.good then some b else none

/-- The snapshot that a commit of partition `p` takes now: the released copies of every task. -/
def State.retainImage (s : State) (p : Nat) (g : Program) : RetBank :=
  let b := s.bankToWrite p
  { seq := (s.bank p (1 - b)).seq + 1, at_ := s.now, version := g.version, data := (cycTasks p).map (fun k => (s.cycTask k).ret), vars := g.vars.filter VarEntry.retained, tasks := g.tasks, good := true }

/-- A commit begun: the bank it writes is not good until it completes. -/
def State.beginCommit (s : State) (p : Nat) (powerFail : Bool) : State :=
  match (s.cycPart p).prog with
  | none => s
  | some g =>
    let b := s.bankToWrite p
    let x := s.retainImage p g
    let s := s.putCycPart p { s.cycPart p with commit := some ⟨b, x, powerFail, s.now⟩ }
    s.putBank p b { s.bank p b with good := false }

/-- A commit that has read back good: RETAIN_SEQ takes the new SEQ. -/
def State.takeBank (s : State) (p b : Nat) (x : RetBank) : State :=
  ((s.putBank p b x).wr F.CP_RETAIN_SEQ x.seq p).wr F.CP_STATUS_RETAIN_OK 1 p

/-- The bytes of a retained variable in a bank. -/
def RetBank.varBytes (x : RetBank) (v : VarEntry) : List Byte :=
  let base := (x.tasks[v.task]?.getD ⟨0, 0, 0, 0, 0, 0, 0, 0, 0, 0⟩).retAddr
  (((x.data[v.task]?).getD []).drop (v.addr - base)).take v.bytes

/-- A bank's bytes put back into the retain sections of the same program. -/
def State.putSections (s : State) (p : Nat) (g : Program) (x : RetBank) : State :=
  s.each (List.range 8) (fun s i =>
    if (g.task i).retAddr = 0 then s else s.partStore p (g.task i).retAddr (((x.data[i]?).getD []).take (g.task i).retBytes))

/-- Retained data taken at a load or a start (R287): from the bank in force, mapped where its
VERSION differs; where both banks are bad, DATA values stand and timer records are cleared. -/
def State.restoreRetained (s : State) (p : Nat) (g : Program) : State :=
  let mine := g.vars.filter VarEntry.retained
  if g.tasks.all (fun e => e.retAddr == 0 || e.retBytes == 0) then s
  else
    match s.bankInForce p with
    | some x =>
      let worse := if (s.bank p 0).good then s.bank p 1 else s.bank p 0
      let s := if !worse.good && decide (x.seq < worse.seq) then s.cpEvent p 5 else s
      let s := (s.wr F.CP_STATUS_RETAIN_OK 1 p).wr F.CP_RETAIN_SEQ x.seq p
      if x.version = g.version then s.putSections p g x
      else s.mapVars p mine (fun v => (x.vars.find? (fun o => v.matches o)).map x.varBytes)
    | none =>
      let s := s.mapVars p (mine.filter (·.kind == 2)) (fun _ => none)
      (s.cpEvent p 6).wr F.CP_STATUS_RETAIN_OK 0 p

/-- The released copies of the retain sections made equal to the sections. -/
def State.releaseSections (s : State) (p : Nat) (g : Program) : State :=
  s.each (List.range 8) (fun s i =>
    let e := g.task i
    s.putCycTask (8 * p + i) { s.cycTask (8 * p + i) with ret := if e.retAddr = 0 then [] else s.partRead p e.retAddr e.retBytes })

/-- The odometers as they stand written to MRAM (03 R77). -/
def State.saveOdometers (s : State) : State :=
  let ids := [F.LC_ODO, F.AX_ODO_STEPS, F.AX_ODO_MOVES, F.ODO_OUT, F.ODO_OUT_SAT].map (·.id)
  { s with cyc := { s.cyc with odo := ids.foldl (fun t i => t.set i (s.regs.get i .empty)) s.cyc.odo, odoAt := s.now, odoWrites := s.cyc.odoWrites + 1 } }

/-! ### Installing an image (R271, R288) -/

/-- Templates, windows, bindings and task registers of an image installed. -/
def State.installProgram (s : State) (p : Nat) (g : Program) : State :=
  let s := s.each (List.range 64) (fun s i => s.putTemplate (64 * p + i) g.templates[i]?)
  let s := s.each (List.range 4) (fun s i =>
    let w := g.windows[i]?.getD (0, 0, 0)
    ((s.wr F.WIN_BASE_BASE w.1 (4 * p + i)).wr F.WIN_BASE_ATTR w.2.1 (4 * p + i)).wr F.WIN_LIMIT w.2.2 (4 * p + i))
  let s := g.binds.foldl (fun s b => (s.wr F.EVT_BIND_TEMPLATE (64 * p + b.2.1) b.1).wr F.EVT_BIND_EN (b2n b.2.2) b.1) s
  s.each (List.range 8) (fun s i =>
    let k := 8 * p + i
    let e := g.task i
    let s := s.putCycTask k CycTask.init
    let s := ((s.wr F.CT_CFG_EN (b2n (e.period != 0)) k).wr F.CT_CFG_TEMPLATE e.template k).wr F.CT_PERIOD e.period k
    ((s.wr F.CT_PHASE e.phase k).wr F.CT_REL e.rel k).wr F.CT_SCAN 0 k)

/-- An accepted image loaded (R271): sections copied, the exchange made, LOADED set. -/
def State.takeProgram (s : State) (p : Nat) (g : Program) : State :=
  let old := (s.cycPart p).prog
  let olds := match old with
    | some o => o.vars.map (fun v => (v, s.varBytes p v))
    | none => []
  let s := (s.copySection p g 1 g.code).copySection p g 2 g.data
  let s := s.installProgram p g
  let s := match old with
    | some _ => s.mapVars p g.vars (findOld olds)
    | none => s.restoreRetained p g
  let s := s.releaseSections p g
  let s := s.putCycPart p { prog := some g, exchanged := old.isSome, commit := none }
  let s := if old.isSome then s.takeBank p (s.bankToWrite p) (s.retainImage p g) else s
  let s := ((s.wr F.CP_STATUS_DETERMINISTIC (b2n g.deterministic) p).wr F.CP_VERSION g.version p).wr F.CP_RETAIN g.retainKib p
  (((s.wr F.CP_STATUS_LOADED 1 p).cpEvent p 4).serve p).dispatch

/-! ### The input image (R273) -/

/-- STATION_OK of every station of every ring, bit 128r + s. -/
def State.stationBits (s : State) : Nat := (s.keysOf F.RS_ST_STATUS_OK).foldl (fun v i => putBit v i (s.on F.RS_ST_STATUS_OK i)) 0

/-- The 96-byte header of an input image (Table 11.7). -/
def State.inputHeader (s : State) (k flags ok : Nat) : List Byte :=
  leBytes 8 (s.rd F.CT_SCAN k) ++ leBytes 8 s.now.toNat ++ leBytes 8 s.compensated.toNat ++ leBytes 4 (s.rd F.CT_PERIOD k) ++
  leBytes 4 flags ++ leBytes 64 ok

/-- A mapped input written to the input image at `a`: AIN q follows when its conversion ends. -/
def State.putInput (s : State) (p a : Nat) (host : List Byte) (e : MapEntry) : State :=
  match e.kind with
  | 0 => s.partStore p a [BitVec.ofNat 8 (b2n (s.fio.get e.src FioPin.init).level)]
  | 1 =>
    let r := s.strobeAin e.src
    let s := r.1
    match r.2 with
    | some q => s.partStore p a (leBytes 4 q.1)
    | none => s.awaitAin e.src (.image p a)
  | 2 => s.partStore p a ((List.range e.len).map (fun i => BitVec.ofNat 8 (s.ringIn (e.src / 2 ^ 30) (e.src % 2 ^ 14 + i))))
  | 3 => s.partStore p a (leBytes 4 (s.rd F.VR_VALUE e.src))
  | _ => s.partStore p a ((host ++ List.replicate e.len 0).take e.len)

/-- The mapped inputs of a task, its host input block given out in map order. -/
def State.putInputs (s : State) (p base : Nat) (host : List Byte) : List MapEntry → State
  | [] => s
  | e :: rest =>
    let s := s.putInput p (base + 96 + e.off) host e
    s.putInputs p base (if e.kind = 7 then host.drop e.len else host) rest

/-- The length of task `i`'s host input block (18 R443). -/
def hostBytes (g : Program) (i : Nat) : Nat := ((g.map.filter (fun e => e.dir == 0 && e.kind == 7 && e.task == i)).map (·.len)).sum

end Sys2Proof.Machine
end

