-- ==== Sys2Proof/Machine/Cyclic.lean ====
section
/-! DEFINITION.  The commands of cyclic programs (11). -/

namespace Sys2Proof.Machine

open Sys2Proof

/-! ### Loading and host input -/

/-- LOAD_PROGRAM (R271): the first check of Table 11.6 that fails, or the image loaded. -/
def execLoadProgram (t : Instant) (p : Fin 16) (img : Program) (room : Bool) (s : State) : Out := .next (
  (s.advance t).hostCommand 4 p.val anyArgs (·.loading room (fun s =>
  let r := s.programResult p img
  let s := (s.wr F.CP_STATUS_LOAD_RESULT r p).reply r
  if r = 0 then ((s.store (fun x => { x with progs := x.progs.set p.val img })).takeProgram p img).dispatch else s)))

/-- HOST_INPUT (R273): the block applied whole, or refused where its length is not the map's. -/
def execHostInput (t : Instant) (p : Fin 16) (task : Word) (data : List Byte) (s : State) : Out := .next (
  (s.advance t).hostCommand 6 p.val (fun c => c.arg0 == task.toNat) (fun s =>
  match (s.cycPart p).prog with
  | none => s.reply 1
  | some g =>
    if 8 ≤ task.toNat ∨ data.length ≠ hostBytes g task.toNat then s.reply 1
    else
      let k := 8 * p.val + task.toNat
      (s.putCycTask k { s.cycTask k with host := data }).reply 0))

/-! ### Scans -/

/-- A latch instant (R272 to R274): the input image is written and the root task created or made
to wait. -/
def execScanLatch (t : Instant) (p : Fin 16) (k : Fin 8) (s : State) : Out := .next (
  let s := s.advance t
  let n := 8 * p.val + k.val
  match (s.cycPart p).prog, s.scan n with
  | some g, none =>
    if s.rd F.CP_STATUS_STATE p = 1 ∧ s.on F.CT_CFG_EN n ∧ onGrid (1000 * s.rd F.CT_PERIOD n) (1000 * s.rd F.CT_PHASE n) s.now then
      let s := s.roll F.CT_SCAN n
      let x := s.cycTask n
      let ok := s.stationBits
      let s := s.putCycTask n { x with scan := some ⟨s.now, addNs s.now (1000 * s.rd F.CT_REL n), ok, false⟩, flags := 0 }
      let e := g.task k
      let s := s.partStore p e.inAddr (s.inputHeader n (x.flags + 16 * b2n s.cyc.powerLow) ok)
      let s := s.putInputs p e.inAddr x.host (g.map.filter (fun m => m.dir == 0 && m.task == k.val))
      let s := s.onSched (fun c => { c with rootEnds := c.rootEnds.erase n })
      ((s.addClaim p (.root n)).serve p).dispatch
    else s
  | _, _ => s)

/-- The end of the copy after the root completed OK (R274): the image closes. -/
def execScanClose (t : Instant) (p : Fin 16) (k : Fin 8) (s : State) : Out := .next (
  let s := s.advance t
  let n := 8 * p.val + k.val
  match (s.cycPart p).prog, s.scan n with
  | some g, some c =>
    if s.sched.rootEnds.find n = some 0 ∧ c.closed = false ∧ notLater s.now c.release = true then
      let s := s.onSched (fun c => { c with rootEnds := c.rootEnds.erase n })
      let e := g.task k
      let took := (sinceNs s.now c.at_).toNat
      let x := s.cycTask n
      let closes := (took :: x.closes).take 256
      let s := s.putCycTask n { x with scan := some { c with closed := true }, out := s.partRead p e.outAddr e.outBytes, ret := if e.retAddr = 0 then [] else s.partRead p e.retAddr e.retBytes, closes := closes }
      let s := s.wr F.CT_MARGIN (min (s.rd F.CT_MARGIN n) (min 0x7FFFFFFF (sinceNs c.release s.now).toNat)) n
      s.wr F.CT_CLOSE_AVG (closes.sum / closes.length) n
    else s
  | _, _ => s)

/-- The acknowledgements of a released image (R290). -/
def State.takeRejoin (s : State) (p ok ack : Nat) : State :=
  s.each (List.range 512) (fun s b =>
    let r := b / 128
    let x := b % 128
    let owns := (s.stationOwners r ((s.ring r).cfg.stations.getD x ⟨0, 0, 0, 0, 0, 0⟩)).contains p
    if ack.testBit b && ok.testBit b && s.stationOk r x && owns then s.putRejoin p r x true else s)

/-- The bytes of a mapped output in a released copy. -/
def mappedBytes (out : List Byte) (e : MapEntry) : List Byte := (out.drop (64 + e.off)).take e.len

/-- R of a scan (R275, R276): the released image takes effect, or the scan has overrun and the
partition enters STOP. -/
def execScanRelease (t : Instant) (p : Fin 16) (k : Fin 8) (s : State) : Out := .next (
  let s := s.advance t
  let n := 8 * p.val + k.val
  match (s.cycPart p).prog, s.scan n with
  | some g, some c =>
    if c.release ≠ s.now then s
    else if c.closed then
      let x := s.cycTask n
      let s := s.putCycTask n { x with scan := none }
      let s := s.takeRejoin p c.ok (ofLeBytes (x.out.take 64))
      (g.outputs k).foldl (fun s e => s.putMapped e (mappedBytes x.out e)) s
    else (((s.cpEvent p 0).bump F.CP_OVERRUN_CNT p).dropRoot p n).partStop p 2
  | _, _ => s)

/-! ### CP_CTRL (R277 to R280) -/

/-- Command bits of a CP_CTRL write: 0 START, 1 STOP, 2 HOLD, 3 RESUME. -/
def cpBits (value : Word) : List Nat := (List.range 4).filter (fun b => value.getLsbD b)

/-- A write of CP_CTRL with command bit `bit` accepted in the states `from_`: MODE takes the
written bits; the command is refused by EXPECT, by a second command bit or by the state; without a
command bit nothing else happens. -/
def State.cpCommand (s : State) (p : Fin 16) (value : Word) (bit : Nat) (from_ : List Nat) (f : State → State) : State :=
  s.hostWrite (0x900000 + 0x200 * p) (fun s =>
    let s := s.wr F.CP_CTRL_MODE (value.toNat / 16 % 4) p
    if cpBits value = [] then s
    else if cpBits value ≠ [bit] then s.cpEvent p 3
    else if value.toNat / 256 % 4 ≠ s.rd F.CP_STATUS_STATE p then s.cpEvent p 2
    else if from_.contains (s.rd F.CP_STATUS_STATE p) then f s
    else s.cpEvent p 3) value.toNat (!(cpBits value).isEmpty)

/-- Whether partition `p` may leave STOP (R280). -/
def State.mayStart (s : State) (p : Nat) : Bool :=
  s.on F.CP_STATUS_LOADED p && s.rd F.LOOM_BEAM_STATUS_STATE == 2 && !s.on F.LP_STATUS_FRAME_LOST p && s.rd F.LP_STATUS_APPLY_STATE p == 0

/-- RUN entered from STOP with the first scan's flags (R280): pending edits take effect first
(09 R234). -/
def State.enterRun (s : State) (p flags : Nat) : State :=
  let s := s.flipEdits p
  let s := s.each (cycTasks p) (fun s k => s.putCycTask k { s.cycTask k with flags := flags })
  let s := s.putCycPart p { s.cycPart p with exchanged := false }
  ((s.wr F.CP_STATUS_STATE 1 p).settle.startWake).runChange

/-- START (R280). -/
def execCpStart (t : Instant) (p : Fin 16) (value : Word) (s : State) : Out := .next (
  (s.advance t).cpCommand p value 0 [0] (fun s =>
    if s.mayStart p then
      let mode := if s.rd F.CP_CTRL_MODE p = 3 then 1 else s.rd F.CP_CTRL_MODE p
      let flags := 1 + 2 * b2n (mode != 0) + 8 * b2n (s.cycPart p).exchanged
      match (s.cycPart p).prog with
      | some g => (s.startVars p mode g).enterRun p flags
      | none => s
    else
      let s := s.cpEvent p 3
      if s.rd F.LP_STATUS_APPLY_STATE p = 0 then s else s.lpEvent p 6))

/-- HOLD (R279): no further latch, and pause cause HOLD on the Treadle. -/
def execCpHold (t : Instant) (p : Fin 16) (value : Word) (s : State) : Out := .next (
  (s.advance t).cpCommand p value 2 [1] (fun s => ((s.wr F.CP_STATUS_STATE 2 p).settle.pauseCause p 0).runChange))

/-- RESUME (R279). -/
def execCpResume (t : Instant) (p : Fin 16) (value : Word) (s : State) : Out := .next (
  (s.advance t).cpCommand p value 3 [2] (fun s => ((s.wr F.CP_STATUS_STATE 1 p).settle.clearPause p 1).runChange))

/-- STOP (R278), cause 1. -/
def execCpStop (t : Instant) (p : Fin 16) (value : Word) (s : State) : Out := .next (
  (s.advance t).cpCommand p value 1 [1, 2] (fun s => s.partStop p 1))

/-! ### Retain commits (R285) -/

/-- Partitions with a loaded program. -/
def State.loaded (s : State) : List Nat := (List.range 16).filter (fun p => s.on F.CP_STATUS_LOADED p)

/-- A checkpoint commit of every loaded program (R285), at a whole second. -/
def execRetainCheckpoint (t : Instant) (s : State) : Out := .next (
  let s := s.advance t
  if onGrid 1000000000 0 s.now && decide (s.rd F.PWR_STATUS_STATE < 3) then
    s.each s.loaded (fun s p => if (s.cycPart p).commit.isNone then s.beginCommit p false else s)
  else s)

/-- An edge of POWER_FAIL_N (R285, Table 16.8): a falling one starts the power-fail commit, which
takes the place of a checkpoint commit; it aborts an entry to a power state. -/
def execPowerFail (t : Instant) (low : Bool) (s : State) : Out := .next (
  let s := s.advance t
  let was := s.cyc.powerLow
  let s := { s with cyc := { s.cyc with powerLow := low } }
  if !low || was || decide (3 ≤ s.rd F.PWR_STATUS_STATE) || s.loaded.any (fun p => (s.cycPart p).commit.any (·.powerFail)) then s
  else
    let s := if s.rd F.PWR_STATUS_PHASE = 1 then s.entryFails 2 2 else s
    s.saveOdometers.each s.loaded (fun s p => s.beginCommit p true))

/-- A commit read back (R285): complete where the CRC is good. -/
def execRetainCommitDone (t : Instant) (p : Fin 16) (good : Bool) (s : State) : Out := .next (
  let s := s.advance t
  match (s.cycPart p).commit with
  | none => s
  | some c =>
    let s := s.putCycPart p { s.cycPart p with commit := none }
    if good then
      let s := s.takeBank p c.bank c.image
      if c.powerFail then (s.cpEvent p 7).wr F.CP_PF_NS (sinceNs s.now c.began).toNat p else s
    else s)

/-! ### RJ_STATE (R290) -/

/-- A host write of RJ_STATE: acknowledgements for a partition whose program is not in RUN, of
stations that are OK and in which it owns output bytes. -/
def execRjStateWrite (t : Instant) (p : Fin 16) (w : Fin 16) (value : Word) (s : State) : Out := .next (
  (s.advance t).hostWrite (0x920000 + 0x40 * p + 4 * w) (fun s =>
    if s.rd F.CP_STATUS_STATE p = 1 then s
    else s.takeRejoin p (2 ^ 512 - 1) (value.toNat * 2 ^ (32 * w.val))))

end Sys2Proof.Machine
end

