-- ==== Sys2Proof/Machine/Host.lean ====
section
/-! DEFINITION.  The commands of the host paths: mailboxes, datagrams, views and windows (18), the
scrubbers (01 R27) and the telemetry (19). -/

namespace Sys2Proof.Machine

open Sys2Proof

/-! ### Command entries (Tables 18.2 and 18.4) -/

/-- Which objects an opcode names, and its EXPECT_KIND: 0 a partition, 1 the device, 2 either. -/
def opcodeForm (op : Nat) : Option (Nat × Nat) :=
  match op with
  | 0x01 => some (0, 2)
  | 0x02 => some (0, 2)
  | 0x03 => some (0, 2)
  | 0x04 => some (0, 1)
  | 0x05 => some (0, 3)
  | 0x06 => some (0, 1)
  | 0x07 => some (0, 1)
  | 0x08 => some (0, 1)
  | 0x09 => some (0, 1)
  | 0x0A => some (0, 1)
  | 0x0B => some (0, 1)
  | 0x0C => some (2, 0)
  | 0x0D => some (0, 0)
  | 0x10 => some (1, 4)
  | 0x11 => some (1, 4)
  | 0x12 => some (1, 4)
  | 0x13 => some (1, 4)
  | 0x20 => some (1, 6)
  | 0x21 => some (1, 5)
  | 0x22 => some (1, 7)
  | 0x23 => some (1, 7)
  | 0x24 => some (1, 7)
  | 0x25 => some (1, 0)
  | 0x30 => some (2, 0)
  | _ => none

/-- Whether an opcode names object `obj`. -/
def namesObject (form obj : Nat) : Bool :=
  match form with
  | 0 => decide (obj < 16)
  | 1 => obj == 16
  | _ => decide (obj < 17)

/-- Bytes that a command may return at DATA_OFF: entries of 16 bytes, at most ARG1 and what queue
ARG0 can hold; the view; the nonce; the report with the certificate. -/
def State.returnLen (s : State) (op arg0 arg1 : Nat) : Nat :=
  match op with
  | 0x0A => 16 * min arg1 (2 ^ s.rd F.HQ_CFG_DEPTH_LOG2 (arg0 % 128))
  | 0x0D => 32
  | 0x22 => 32
  | 0x25 => 1888 + Config.certificate.length
  | _ => 0

/-- Size of a mailbox window (R437). -/
def windowBytes : Nat := 0x4000000

/-- `n` bytes at `off` lie in the data area of a window; none lie anywhere. -/
def inWindow (off n : Nat) : Bool := n == 0 || (decide (0x10000 ≤ off) && decide (off + n ≤ windowBytes))

/-- Field of an entry: `n` bytes at `off`. -/
def entryField (e : List Byte) (off n : Nat) : Nat := ofLeBytes ((e.drop off).take n)

/-- A command entry admitted to object `obj` with its SEQ (R438, R440, R380): STATUS 3 where it is
malformed, 2 where its data would reach beyond the window, else 0.  Over Ethernet, `inline` is the
data that follows the entry. -/
def State.parseEntry (s : State) (obj : Nat) (eth : Bool) (e inline : List Byte) : HostCmd :=
  let op := entryField e 0 2
  let flags := entryField e 2 2
  let arg0 := entryField e 12 4
  let arg1 := entryField e 16 4
  let off := entryField e 20 4
  let len := entryField e 24 4
  let kind := entryField e 9 1
  let inl := eth && flags == 1
  let formed := e.length == 64 && (flags == 0 || inl) && entryField e 8 1 == obj && entryField e 28 36 == 0 &&
    (opcodeForm op).any (fun f => namesObject f.1 obj && f.2 == kind) && (op != 0x30 || inl) &&
    (if inl then inline.length == len && decide (len ≤ 8192) else inline.isEmpty)
  let fits := (inl || inWindow off len) && (eth || inWindow off (s.returnLen op arg0 arg1)) && (op != 0x30 || decide (arg0 + len ≤ windowBytes))
  { opcode := op, tag := entryField e 4 4, kind := kind, expect := entryField e 10 2, arg0 := arg0, arg1 := arg1, off := off, len := len
    seq := s.host.seqs.get obj 0, eth := eth, status := if !formed then 3 else if !fits then 2 else 0
    write := none }

/-- An entry accepted for object `obj` (R439): it takes the next SEQ and waits behind the others. -/
def State.accept (s : State) (obj : Nat) (eth : Bool) (e inline : List Byte) : State :=
  let c := s.parseEntry obj eth e inline
  let s := (s.takeSeq obj).putWaiting obj (s.waiting obj ++ [c])
  if c.status = 2 then s.setBit F.HOST_EVENT 1 else s

/-- The entries of mailbox `m` from its consumer index on, `n` of them. -/
def State.consume (s : State) (m : Nat) : Nat → State
  | 0 => s
  | n + 1 =>
    let i := s.rd F.MBX_STATE_CONS m
    let s := s.accept m false (s.dram.readBytes (windowBase m + 64 * (i % 64)) 64) []
    (s.wr F.MBX_STATE_CONS (i + 1) m).consume m n

/-- MBX_DB (R437, R439): the entries up to the producer index are accepted in ring order.  A ring
holds 64. -/
def execMbxDb (t : Instant) (m : Fin 17) (value : Word) (s : State) : Out := .next (
  let off := 0xF00100 + 4 * m.val
  (s.advance t).hostWrite off (fun s =>
    let s := (s.wr F.MBX_DB value.toNat m.val).internalWake 7
    let n := (value.toNat % 128 + 128 - s.rd F.MBX_STATE_CONS m.val) % 128
    let s := s.consume m.val (min 64 n)
    s.drainRefused m.val (s.waiting m.val).length))

/-- A management datagram (R433, R442): dropped where the port does not take it; otherwise its
entry is accepted for the object that it names.  One that names no object is malformed at once,
with a SEQ that no rule gives: a free value. -/
def execCommandDatagram (t : Instant) (q : Fin 2) (port : BitVec 16) (src : Word) (entry data : List Byte) (s : State) : Out := .next (
  let s := s.advance t
  let listed := (List.range 4).any (fun i => s.rd F.ETH_ALLOW (4 * q.val + i) == src.toNat && src.toNat != 0)
  if s.on F.ETH_CFG_MGMT_EN q.val && port.toNat == s.rd F.ETH_MGMT_PORT q.val && listed then
    let obj := entryField entry 8 1
    if obj < 17 then
      let s := (s.internalWake 7).accept obj true entry data
      s.drainRefused obj (s.waiting obj).length
    else
      let d := s.draw
      let c := { d.2.parseEntry obj true entry data with seq := d.1.toNat % 2 ^ 32, status := 3 }
      d.2.onHost (fun h => { h with reply := completionBytes c ⟨3, 0, []⟩ d.2.now })
  else (s.setBit F.HOST_EVENT 3).bump F.ETH_RX_DROP q.val)

/-! ### Commands (Table 18.4) -/

/-- MWRITE: the inline data at a window offset. -/
def execMwrite (t : Instant) (obj : Fin 17) (offset : Word) (data : List Byte) (s : State) : Out := .next (
  (s.advance t).hostCommand 0x30 obj.val (fun c => c.arg0 == offset.toNat && c.len == data.length) (fun s =>
    { s with dram := s.dram.writeBytes (windowBase obj.val + offset.toNat) data }.reply 0))

/-- ODO_CLEAR: the odometer and its index, the partition that owns it. -/
def State.odometer (s : State) (kind index : Nat) : Option (Fld × Option Nat) :=
  match kind with
  | 0 => if index < 1024 then some (F.LC_ODO, s.ownerLC index) else none
  | 1 => if index < 128 then some (F.AX_ODO_STEPS, s.owner (axisKey index)) else none
  | 2 => if index < 128 then some (F.AX_ODO_MOVES, s.owner (axisKey index)) else none
  | 3 => if (s.loom.records.find (outKey index)).isSome then some (F.ODO_OUT, s.owner (outKey index)) else none
  | _ => none

/-- ODO_CLEAR: the odometer is cleared and its old value recorded in the system stream, or it is
not owned by the partition. -/
def execOdoClear (t : Instant) (p : Fin 16) (kind index : Word) (s : State) : Out := .next (
  (s.advance t).hostCommand 0x0B p.val (fun c => c.arg0 == kind.toNat && c.arg1 == index.toNat) (fun s =>
    match s.odometer kind.toNat index.toNat with
    | some (f, some o) =>
      if o = p.val then
        let old := s.rd f index.toNat
        let s := s.wr f 0 index.toNat
        let s := if kind.toNat = 3 then s.wr F.ODO_OUT_SAT 0 index.toNat else s
        (s.event sysStream 0 0 kind.toNat 3 0 (leBytes 4 index.toNat ++ [0, 0, 0, 0] ++ leBytes 8 old)).reply 0
      else s.reply 1
    | _ => s.reply 1))

/-! ### Views (R445) -/

/-- The view of partition `p` taken from the data path, with PV_T. -/
def State.refreshView (s : State) (p : Nat) : State :=
  let s := (s.wr F.PV_STATE_ACTIVE (s.rd F.LP_STATUS_ACTIVE p) p).wr F.PV_STATE_TREADLE (s.rd F.TR_STATUS_STATE p) p
  ((s.wr F.PV_STATE_PROGRAM (s.rd F.CP_STATUS_STATE p) p).wr F.PV_STEP (s.rd F.TR_STEPS_CUR_STEP p) p).wrT F.PV_T s.now p

/-- The words of partition `p`'s view. -/
def State.viewWords (s : State) (p : Nat) : List Nat :=
  [0, 4, 8, 0x0C, 0x10, 0x14, 0x18, 0x1C].map (fun x => s.regWord (0xF01000 + 0x20 * p + x))

/-- Whether a field of the view differs from the data path. -/
def State.viewDiffers (s : State) (p : Nat) : Bool :=
  s.rd F.PV_STATE_ACTIVE p != s.rd F.LP_STATUS_ACTIVE p || s.rd F.PV_STATE_TREADLE p != s.rd F.TR_STATUS_STATE p ||
  s.rd F.PV_STATE_PROGRAM p != s.rd F.CP_STATUS_STATE p || s.rd F.PV_STEP p != s.rd F.TR_STEPS_CUR_STEP p

/-- VIEW: the 32 bytes of the view. -/
def execView (t : Instant) (p : Fin 16) (refresh : Bool) (s : State) : Out := .next (
  (s.advance t).hostCommand 0x0D p.val anyArgs (fun s =>
    let s := s.when refresh (·.refreshView p.val)
    s.reply 0 ((s.viewWords p.val).map (leBytes 4)).flatten))

/-- The view of partition `p` latched for a requester, its first word answered (R445). -/
def State.latchPv (s : State) (r : Requester) (p : Nat) : State :=
  let ws := s.viewWords p
  let key := (r, p)
  (s.onHost (fun h => { h with views := h.views.filter (·.1 != key) ++ [(key, ws)] })).answerWord (ws.headD 0)

/-- A read of PV_STATE latches the whole view for the requester. -/
def execPvStateRead (t : Instant) (r : Requester) (p : Fin 16) (refresh : Bool) (s : State) : Out := .next (
  ((s.advance t).when refresh (·.refreshView p.val)).latchPv r p.val)

/-- MGMT_DIVERGE: a view that differs is replaced from the data path. -/
def execMgmtDiverge (t : Instant) (p : Fin 16) (s : State) : Out := .next (
  let s := s.advance t
  if s.viewDiffers p.val then
    let s := ((s.setBit F.HOST_EVENT 2).bump F.MGMT_DIV_CNT).interrupt 195
    (s.sysFault 19 p.val).refreshView p.val
  else s)

/-! ### Windows (15 R378, R429) -/

/-- The bytes `a` to `a + n` of DRAM lie wholly in a window of the host: a mailbox window, or for
reads a stream region in PULL mode or a capture region. -/
def State.hostWindow (s : State) (a n : Nat) (write : Bool) : Bool :=
  let within := fun (base size : Nat) => decide (base ≤ a) && decide (a + n ≤ base + size)
  (List.range 17).any (fun m => within (windowBase m) windowBytes) ||
  (!write && (
    (List.range 17).any (fun k => (s.rd F.SKS_CTRL_EXPORT k == 0 || s.rd F.SKS_CTRL_EXPORT k == 3) && within (s.rd F.SKS_REGION k) (4096 * s.rd F.SKS_REGION_SIZE k)) ||
    (List.range 32).any (fun c => within (s.rd F.CS_REGION c) (s.rd F.CS_SLOT_CFG_SLOTS c * (1024 * s.rd F.CS_SLOT_CFG_SLOT_KIB c)))))

/-- An access refused (R378): a write is discarded and a read gives ones. -/
def State.refuseAccess (s : State) (n : Nat) : State :=
  ((s.secEvent 4).bump F.SEC_HOST_REFUSE_CNT).reply 0 (List.replicate n 0xFF)

/-- A host access through BAR2 or the SRAM window, which holds no host window (R425). -/
def execBar2Access (t : Instant) (sram : Bool) (offset : Fin 1073741824) (len : Nat) (data : Option (List Byte)) (s : State) : Out := .next (
  let s := s.advance t
  let a := 0x10000000 * s.rd F.BAR2_BASE + offset.val
  match sram, data with
  | true, some _ => (s.refuseAccess 0).discard 4 (0x1000000 + offset.val)
  | true, none => s.refuseAccess len
  | false, some bs => if s.hostWindow a bs.length true then { s with dram := s.dram.writeBytes a bs }.reply 0 else s.refuseAccess 0
  | false, none => if s.hostWindow a len false then s.reply 0 (s.dram.readBytes a len) else s.refuseAccess len)

/-! ### IEEE 1588 (R434) -/

/-- An event message: its start-of-frame delimiter is stamped, referred to the medium by the
port's latency; while the port's PTP is on, Steward reports its state and offset. -/
def execPtpEventMessage (t : Instant) (q : Fin 2) (ingress : Bool) (served : Option (BitVec 2 × Word)) (s : State) : Out := .next (
  let s := s.advance t
  let stamp := if ingress then shiftNs s.now (-(s.rd F.PTP_LAT_ING_LAT_NS q.val : Int)) else addNs s.now (s.rd F.PTP_LAT_EGR_LAT_NS q.val)
  let s := s.onHost (fun h => { h with stamps := h.stamps.set (2 * q.val + b2n (!ingress)) stamp })
  match served with
  | some v => if s.on F.PTP_CFG_EN q.val then (s.wr F.PTP_STATUS v.1.toNat q.val).wr F.PTP_OFFSET v.2.toNat q.val else s
  | none => s)

/-! ### Scrubbing (01 R27, Table 1.4) -/

/-- Counter of corrected errors, counter of double-bit errors and fault class of a memory. -/
def memFields : Fin 3 → Fld × Fld × Nat
  | 0 => (F.MEM_CE_SRAM, F.MEM_ECC_UE_CNT_SRAM, 9)
  | 1 => (F.MEM_CE_MRAM, F.MEM_ECC_UE_CNT_MRAM, 10)
  | 2 => (F.MEM_CE_DRAM, F.MEM_ECC_UE_CNT_DRAM, 11)

/-- An error met: a single-bit error is corrected and counted; a double-bit one is a fault. -/
def State.eccError (s : State) (h : ScrubHit) : State :=
  let f := memFields h.mem
  let s := ((s.wr F.MEM_ECC_ADDR h.addr).wr F.MEM_ECC_LAST_MEM h.mem.val).wr F.MEM_ECC_LAST_UE (b2n h.double)
  if h.double then ((s.bump f.2.1).sysFault f.2.2 h.addr).each (h.stops.map (·.val)) (fun s p => s.partStop p 11) else s.bump f.1

/-- A pass of the scrubbers. -/
def execScrub (t : Instant) (hits : List ScrubHit) (s : State) : Out := .next (hits.foldl State.eccError (s.advance t))

/-! ### Telemetry (19 R460, R471, R473) -/

/-- What a read of the regulator leaves in the registers, with Tj; Tj is a signed number. -/
def State.takeTelemetry (s : State) (x : PmbRead) : State :=
  let s := ((s.wr F.AVS_STATUS_READ_MV x.mv.toNat).wr F.PMB_ICORE x.ma.toNat).wr F.PMB_STATUS x.status.toNat
  let s := s.wr F.TJ_NOW x.tj.toNat
  if toSigned 16 (s.rd F.TJ_PEAK) < x.tj.toInt then s.wr F.TJ_PEAK x.tj.toNat else s

/-- A poll of the regulator. -/
def execPmbusPoll (t : Instant) (x : PmbRead) (s : State) : Out := .next ((s.advance t).takeTelemetry x)

/-- A read that PMB_ALERT_N started. -/
def execPmbAlert (t : Instant) (x : PmbRead) (s : State) : Out := .next ((s.advance t).takeTelemetry x)

/-- The life figures (R473). -/
def execLifeUpdate (t : Instant) (hour : Bool) (tjAvg : BitVec 16) (mvAvg : BitVec 12) (s : State) : Out := .next (
  let s := (s.advance t).when hour (·.roll F.LIFE_HOURS)
  (s.wr F.LIFE_TJ_AVG tjAvg.toNat).wr F.LIFE_VCORE_AVG mvAvg.toNat)

end Sys2Proof.Machine
end

