-- ==== Sys2Proof/Machine/IslandOps.lean ====
section
/-! DEFINITION.  The operations of the safety island and the safety die: inputs, terms, outputs,
phases and Weft connections (13). -/

namespace Sys2Proof

/-- An input of the image. -/
def MatrixImg.input (m : MatrixImg) (i : Nat) : MatrixIn := m.inputs[i]?.getD ⟨0, 0, 0⟩
/-- A term of the image. -/
def MatrixImg.term (m : MatrixImg) (t : Nat) : MatrixTerm := m.terms[t]?.getD ⟨0, 0, 0⟩
/-- An output of the image. -/
def MatrixImg.output (m : MatrixImg) (o : Nat) : MatrixOut := m.outputs[o]?.getD ⟨0, 0xFF, false, false, 0⟩

end Sys2Proof

namespace Sys2Proof.Machine

open Sys2Proof

/-- The island and die changed by `f`. -/
def State.onIsland (s : State) (f : Island → Island) : State := { s with island := f s.island }

/-- The phase (Table 13.10): 0 START, 1 NORMAL, 2 TEST, 3 RECOVERY, 4 OVERCAST. -/
def State.phase (s : State) : Nat := s.rd F.SAF_STATUS_PHASE

/-! ### Time (R318) -/

/-- Safety time: the compensated Warp, which no step touches. -/
def State.safeNow (s : State) : Instant := s.compensated

/-- The safety clock runs free: the Warp is in holdover or has a fault. -/
def State.sclkFree (s : State) : Bool := s.on F.WARP_STATUS_HOLDOVER || bitOf (s.rd F.SYS_FAULT) 12

/-- Whether `us` microseconds of the safety clock can have passed since safety time `at_`, within
its tolerance: ±10 ppm, or ±0.5 % while it runs free. -/
def State.safeSince (s : State) (at_ : Instant) (us : Nat) : Bool :=
  decide ((us : Int) * 1000 * 1000000 ≤ sinceNs s.safeNow at_ * (1000000 + if s.sclkFree then 5000 else 10))

/-! ### Inputs (R328, R329) -/

/-- MODE of input `i`, 0 without a loaded image. -/
def State.sinMode (s : State) (i : Nat) : Nat := (s.island.matrix.map (fun m => (m.input i).mode)).getD 0

/-- Both channels of input `i` say active, under its MODE. -/
def State.sinBoth (s : State) (i : Nat) : Bool :=
  bitOf (s.rd F.SAF_SIN_A) i && (bitOf (s.rd F.SAF_SIN_B) i == (s.sinMode i == 1))

/-- Both channels of input `i` say inactive, under its MODE. -/
def State.sinNeither (s : State) (i : Nat) : Bool :=
  !bitOf (s.rd F.SAF_SIN_A) i && (bitOf (s.rd F.SAF_SIN_B) i == (s.sinMode i == 2))

/-- Input `i` as evaluated: active, with no fault latched. -/
def State.sinActive (s : State) (i : Nat) : Bool := s.sinMode i != 0 && s.sinBoth i && !bitOf (s.rd F.SAF_SIN_FAULT) i

/-- SAF_SIN made the evaluation of every input. -/
def State.showSins (s : State) : State := s.wr F.SAF_SIN ((List.range 32).foldl (fun v i => putBit v i (s.sinActive i)) 0)

/-- A fault of input `i` latched with its cause (R329, R330), and recorded. -/
def State.latchSin (s : State) (i cause : Nat) : State :=
  let s := (s.setBit F.SAF_SIN_FAULT i).wr F.SIN_CFG_FAULT_CAUSE cause i
  let s := s.onIsland (fun x => { x with latched := x.latched.set i false })
  ((s.sysFault 16 i).event sysStream 12 i cause 1).showSins

/-- What a channel change means for input `i`: the disagreement's stamp, the re-arm of a latched
fault and its clearing (R328, R329). -/
def State.noteSin (s : State) (i : Nat) : State :=
  let s :=
    if s.sinBoth i || s.sinNeither i then s.onIsland (fun x => { x with apart := x.apart.erase i })
    else if (s.island.apart.find i).isSome then s
    else s.onIsland (fun x => { x with apart := x.apart.set i s.safeNow })
  match s.island.latched.find i with
  | none => s.showSins
  | some seen =>
    if s.sinNeither i then s.onIsland (fun x => { x with latched := x.latched.set i true })
    else if seen && s.sinBoth i then
      let s := s.onIsland (fun x => { x with latched := x.latched.erase i })
      ((s.wr F.SAF_SIN_FAULT (putBit (s.rd F.SAF_SIN_FAULT) i false)).wr F.SIN_CFG_FAULT_CAUSE 0 i).showSins
    else s

/-! ### The matrix (R320, R321) -/

/-- The condition of a term: every selected input active; a MASK of 0 is never true. -/
def State.termCond (s : State) (t : MatrixTerm) : Bool := t.mask != 0 && (List.range 32).all (fun i => !bitOf t.mask i || s.sinActive i)

/-- A term after a tick with its condition. -/
def TermState.next (x : TermState) (cond : Bool) (tick : Nat) : TermState := if cond then (if x.cond then x else ⟨true, tick⟩) else ⟨false, 0⟩

/-- Whether a term is true at a tick (R320). -/
def TermState.holds (x : TermState) (t : MatrixTerm) (tick : Nat) : Bool :=
  match t.tmode with
  | 1 => x.cond && decide (100 * t.timeMs ≤ tick - x.since)
  | 2 => x.cond && decide (tick - x.since < 100 * t.timeMs)
  | _ => x.cond

/-- The terms evaluated at a tick. -/
def State.evalTerms (s : State) : State :=
  match s.island.matrix with
  | none => s
  | some m =>
    let n := s.island.tick
    let s := s.each (List.range 64) (fun s k => s.onIsland (fun x => { x with terms := x.terms.modify k ⟨false, 0⟩ (fun y => y.next (s.termCond (m.term k)) n) }))
    s.wr F.SAF_TERMS ((List.range 64).foldl (fun v k => putBit v k ((s.island.terms.get k ⟨false, 0⟩).holds (m.term k) n)) 0)

/-- NB_o (R321). -/
def State.nb (s : State) (m : MatrixImg) (o : Nat) : Bool := (m.output o).nb == 0xFF || bitOf (s.rd F.SAF_TERMS) (m.output o).nb

/-- terms_o: the OR of the terms in the output's mask. -/
def State.orTerms (s : State) (m : MatrixImg) (o : Nat) : Bool := (s.rd F.SAF_TERMS) &&& (m.output o).terms != 0

/-! ### Outputs (R324) -/

/-- Whether SOUT `o` is energised by the rule of Table 13.3. -/
def State.soutRule (s : State) (o : Nat) : Bool :=
  match s.island.matrix with
  | none => false
  | some m =>
    (m.output o).used && !bitOf (s.rd F.SAF_SOUT_STATE_FAULT) o && !s.on F.SAF_STATUS_MATRIX_FAULT && s.on F.SAF_STATUS_MATRIX_OK &&
    bitOf (s.rd F.SAF_SOUT_PERMIT) o && s.nb m o && (s.phase == 1 || s.orTerms m o)

/-- Every output brought to its rule; in OVERCAST a frozen bit whose terms, NB term or output
fails stays 0 from then on (R334).  A first energised output wakes a device that goes deeper than SLEEP
(16 R403). -/
def State.drive (s : State) : State :=
  match s.island.matrix with
  | none => (s.wr F.SAF_SOUT_STATE_ENERGISED 0).wr F.SAF_SOUT_MATRIX 0
  | some m =>
    let s := s.wr F.SAF_SOUT_MATRIX ((List.range 16).foldl (fun v o => putBit v o (s.orTerms m o && s.nb m o)) 0)
    let lit := (List.range 16).foldl (fun v o => putBit v o (s.soutRule o)) 0
    let s := if s.on F.SAF_SOUT_STATE_ENERGISED = false ∧ lit ≠ 0 ∧ 3 ≤ s.goalState then s.internalWake 6 else s
    let s := s.wr F.SAF_SOUT_STATE_ENERGISED lit
    if s.phase = 4 then s.wr F.SAF_SOUT_PERMIT (s.rd F.SAF_SOUT_PERMIT &&& lit) else s

/-! ### Phases (R325 to R327, R335) -/

/-- SAF_STATUS as a word. -/
def State.safStatus (s : State) : Nat :=
  s.phase + 16 * s.rd F.SAF_STATUS_OVC_ARMED + 32 * s.rd F.SAF_STATUS_START_BLOCKED + 64 * s.rd F.SAF_STATUS_MATRIX_OK +
  128 * s.rd F.SAF_STATUS_PROG_OK + 256 * s.rd F.SAF_STATUS_LINK_OK + 512 * s.rd F.SAF_STATUS_MATRIX_FAULT +
  1024 * s.rd F.SAF_STATUS_SCLK_FREE + 65536 * s.rd F.SAF_STATUS_START_WAIT

/-- Items 1 to 4 of R326: the first that is not met, 0 where all are. -/
def State.startWait (s : State) : Nat :=
  if !s.island.running || !s.on F.SAF_STATUS_PROG_OK then 1
  else
    match s.island.matrix with
    | none => 2
    | some m =>
      if !s.on F.SAF_STATUS_MATRIX_OK then 2
      else if (List.range 32).any (fun i => (m.input i).mode != 0 &&
          ((bitOf (m.input i).test 0 && !bitOf s.island.pulsedA i) || (bitOf (m.input i).test 1 && !bitOf s.island.pulsedB i))) ||
        (List.range 16).any (fun o => (m.output o).used && !bitOf s.island.switched o) then 3
      else if s.island.agreed < 10 then 4
      else 0

/-- START_WAIT shown. -/
def State.showWait (s : State) : State := s.wr F.SAF_STATUS_START_WAIT s.startWait

/-- A phase change (Table 13.4), recorded in the system stream (R342); RECOVERY and OVERCAST wake the
device from SLEEP (16 R403). -/
def State.putPhase (s : State) (ph : Nat) : State :=
  let old := s.phase
  if old = ph then s
  else
    let s := (((s.interrupt 197).wr F.SAF_STATUS_PHASE ph).wrT F.SAF_PHASE_T s.now).wr F.SAF_STATUS_START_BLOCKED 0
    let s := s.onIsland (fun x => { x with phaseAt := s.safeNow, agreeFrom := s.safeNow, proposal := 0 })
    let s := s.wr F.SAF_OVC_REMAIN_S (if ph = 4 then s.rd F.SAF_OVC_WINDOW_S else 0)
    let s := if 3 ≤ ph ∧ s.goalState = 2 then s.internalWake 6 else s
    s.event sysStream 12 0 ph 0 old (leBytes 4 s.safStatus)

/-- The island restarts: its program stops until it is reloaded, and the tests and comparisons of
R326 begin again. -/
def State.restartIsland (s : State) : State :=
  let s := s.onIsland (fun x => { x with running := false, word := 0, result := 0, proposal := 0, pulsedA := 0, pulsedB := 0, switched := 0, agreed := 0, differed := 0, wordsFrom := none })
  (s.wr F.SAF_STATUS_PROG_OK 0).showWait

/-- START entered (Table 13.4): permit word 0, every SOUT de-energised, Overcast disarmed. -/
def State.toStart (s : State) : State :=
  let s := s.onIsland (fun x => { x with live := 0 })
  let s := (s.wr F.SAF_SOUT_PERMIT 0).wr F.SAF_STATUS_OVC_ARMED 0
  (s.putPhase 0).drive.showWait

/-- An island fault or a silent link (Table 13.4, R333): OVERCAST from NORMAL or RECOVERY where
armed, with the permit word frozen, else START; the island restarts. -/
def State.islandLost (s : State) : State :=
  let s := s.restartIsland
  if s.phase = 4 then s
  else if (s.phase = 1 ∨ s.phase = 3) ∧ s.on F.SAF_STATUS_OVC_ARMED then
    (((s.wr F.SAF_STATUS_OVC_ARMED 0).roll F.SAF_CNT_OVC_ENTRIES).putPhase 4).drive
  else s.toStart

/-- A matrix fault (Table 13.4): START, every SOUT de-energised, FAULT_N asserted. -/
def State.matrixFault (s : State) : State :=
  let s := (s.wr F.SAF_STATUS_MATRIX_FAULT 1).sysFault 15
  (s.toStart.devFault 3)

/-- The hand-over rule (R327): permit bit o AND NB_o equals the level of every output. -/
def State.handoverOk (s : State) : Bool :=
  s.island.matrix.any (fun m => (List.range 16).all (fun o =>
    ((bitOf s.island.live o && s.nb m o) && (m.output o).used && !bitOf (s.rd F.SAF_SOUT_STATE_FAULT) o) == bitOf (s.rd F.SAF_SOUT_STATE_ENERGISED) o))

/-- A hand-over to NORMAL, or START_BLOCKED while the rule is not met. -/
def State.handover (s : State) : State :=
  if s.handoverOk then (s.putPhase 1).drive else s.wr F.SAF_STATUS_START_BLOCKED 1

/-- Recovery from OVERCAST (R334) where the island is recovered: items 1 to 4 of R326 and valid
words for 10 ms; the live permit replaces the frozen one. -/
def State.tryRecover (s : State) : State :=
  if s.phase = 4 ∧ s.startWait = 0 ∧ s.island.wordsFrom.any (fun w => s.safeSince w 10000) = true then
    ((s.wr F.SAF_SOUT_PERMIT s.island.live).putPhase 3).drive
  else s

/-! ### The matrix image (R322) -/

/-- The image that the EEPROM holds loaded by the die, its CRC good or not. -/
def State.loadMatrix (s : State) (good : Bool) : State :=
  match s.island.eeprom with
  | some m =>
    if good && m.crcOk then
      let s := s.onIsland (fun x => { x with matrix := some m, terms := .empty, tick := 0, latched := .empty, apart := .empty })
      let s := ((s.wr F.SAF_STATUS_MATRIX_OK 1).wr F.SAF_STATUS_MATRIX_FAULT 0).wr F.SAF_SIN_FAULT 0
      let s := ((s.wr F.SAF_OVC_WINDOW_S m.ovcS).wr F.SAF_MATRIX_VER m.version).wr F.SAF_MATRIX_CRC m.crc
      let s := s.each (List.range 32) (fun s i =>
        (((s.wr F.SIN_CFG_FAULT_CAUSE 0 i).wr F.SIN_CFG_TEST (m.input i).test i).wr F.SIN_CFG_MODE (m.input i).mode i).wr F.SIN_CFG_DISC_MS (m.input i).discMs i)
      let s := s.each (List.range 16) (fun s o =>
        let x := m.output o
        (((s.wr F.SOUT_CFG_TPW_US x.tpw o).wr F.SOUT_CFG_TEST (b2n x.test) o).wr F.SOUT_CFG_USED (b2n x.used) o).wr F.SOUT_CFG_NB x.nb o)
      (s.showSins.evalTerms).drive
    else ((s.onIsland (fun x => { x with matrix := none })).wr F.SAF_STATUS_MATRIX_OK 0).matrixFault
  | none => ((s.onIsland (fun x => { x with matrix := none })).wr F.SAF_STATUS_MATRIX_OK 0).matrixFault

/-! ### Weft connections (R336 to R340) -/

/-- Connection `n`. -/
def State.weft (s : State) (n : Nat) : WeftConn := s.island.conns.get n WeftConn.init
/-- Connection `n` set. -/
def State.putWeft (s : State) (n : Nat) (x : WeftConn) : State := s.onIsland (fun y => { y with conns := y.conns.set n x })

/-- The data of connection `n` in force: the safe value unless it reads OK (R340). -/
def State.weftValue (s : State) (n : Nat) : List Byte :=
  if s.rd F.WC_STATUS_STATE n = 1 then (s.weft n).data else List.replicate (s.weft n).data.length 0

/-- A connection whose ring has no such slot, or too long a period for its deadline (R337). -/
def State.weftCfgErr (s : State) (e : WeftEntry) : Bool :=
  decide (e.transport < 4) && (decide (s.rd F.RING_WEFT e.transport ≤ e.slot) || decide (1000000 * e.deadline < 2 * s.rd F.RING_PERIOD e.transport))

/-- The connections of the program as the island starts it: consumers expired, with the safe
value. -/
def State.startWefts (s : State) (g : SafProg) : State :=
  s.each (List.range 256) (fun s n =>
    match g.conns[n]? with
    | none => s.wr F.WC_STATUS_STATE 0 n
    | some e =>
      let s := s.putWeft n WeftConn.init
      let s := ((s.wr F.WC_CONN e.conn n).wr F.WC_STATUS_ROLE e.role n).wr F.WC_EXP_DEADLINE_MS e.deadline n
      s.wr F.WC_STATUS_STATE (if s.weftCfgErr e then 4 else if e.role = 1 then 1 else 2) n)

/-- The island's program started (R319, R323): PROG_OK where its MATRIX_DIGEST is that of the
installed image. -/
def State.startProgram (s : State) (ok : Bool) : State :=
  match s.island.prog with
  | none => s.showWait
  | some g =>
    if ok && s.island.eeprom.any (fun m => m.digest == g.matrixDigest) then
      let s := (s.onIsland (fun x => { x with running := true, word := 0, result := 0, proposal := 0 })).wr F.SAF_STATUS_PROG_OK 1
      (((s.wr F.SAF_PROG_VER g.version).wr F.SAF_CYCLE g.cycleUs).startWefts g).showWait
    else (s.wr F.SAF_STATUS_PROG_OK 0).showWait

/-- A producer's new frame (R338). -/
def State.produce (s : State) (n : Nat) (safe : Bool) (data : List Byte) : State :=
  let x := s.weft n
  let seq := match x.seq with
    | some q => (q + 1) % 2 ^ 16
    | none => 0
  (s.putWeft n { x with seq := some seq, data := data, safe := safe, first := false, run := b2n x.first }).wr F.WC_STATUS_SEQ seq n

/-- The conditions under which PROGRAM_MATRIX and LOAD_SAFETY are accepted (R323). -/
def State.safetyOpen (s : State) : Bool := s.phase == 0 && s.rd F.SAF_SOUT_STATE_ENERGISED == 0 && (List.range 16).all s.inStop

end Sys2Proof.Machine
end

