-- ==== Sys2Proof/Machine/Island.lean ====
section
/-! DEFINITION.  The commands of the safety function (13). -/

namespace Sys2Proof.Machine

open Sys2Proof

/-- A safety cycle start (R319): the result of the cycle before goes out as the permit word, the
phase request is latched, every producer forms its frame (R338), with the data it had where the program gave
none, and the program's result for the new cycle comes with the command. -/
def execSafetyCycle (t : Instant) (c : SafCycle) (s : State) : Out := .next (
  let s := s.advance t
  let s := s.wr F.SAF_STATUS_SCLK_FREE (b2n s.sclkFree)
  if s.island.running then
    let s := s.onIsland (fun x => { x with word := x.result, result := c.permit % 2 ^ 16, latchedReq := x.request, proposal := if c.request = 0 then x.proposal else c.request })
    let s := s.each (c.acks.filter (fun n => s.rd F.WC_STATUS_STATE n == 3)) (fun s n => s.wr F.WC_STATUS_STATE 1 n)
    s.each ((List.range 256).filter (fun n => s.rd F.WC_STATUS_ROLE n == 1 && s.rd F.WC_STATUS_STATE n == 1)) (fun s n =>
      let d := ((c.produced.find? (fun e => e.1 == n)).map (·.2)).getD ((s.weft n).safe, (s.weft n).data)
      s.produce n d.1 d.2)
  else s)

/-- A word of the permit link (R324): accepted where its code is valid and its sequence advances.
A TEST proposal is taken only in NORMAL (R326). -/
def execPermitWord (t : Instant) (valid : Bool) (s : State) : Out := .next (
  let s := s.advance t
  if s.island.running && valid then
    let s := s.onIsland (fun x => { x with live := x.word, wordAt := s.safeNow, wordsFrom := some (x.wordsFrom.getD s.safeNow) })
    let s := s.wr F.SAF_STATUS_LINK_OK 1
    let s := if s.phase = 4 then s else s.wr F.SAF_SOUT_PERMIT s.island.live
    let s :=
      if s.island.proposal = 1 then
        if s.phase = 1 then s.putPhase 2 else s.onIsland (fun x => { x with proposal := 0 })
      else s
    s.drive.tryRecover
  else s)

/-- The link falls silent (R324). -/
def execLinkSilent (t : Instant) (s : State) : Out := .next (
  let s := s.advance t
  if s.on F.SAF_STATUS_LINK_OK && s.safeSince s.island.wordAt 50 then
    ((s.wr F.SAF_STATUS_LINK_OK 0).onIsland (fun x => { x with wordsFrom := none })).islandLost
  else s)

/-- A tick of the die (R320, R324): terms and outputs. -/
def execDieTick (t : Instant) (s : State) : Out := .next (
  let s := s.advance t
  let s := s.onIsland (fun x => { x with tick := x.tick + 1 })
  let s := if s.phase = 4 then s.wr F.SAF_OVC_REMAIN_S (s.rd F.SAF_OVC_WINDOW_S - (sinceNs s.safeNow s.island.phaseAt).toNat / 1000000000) else s
  s.evalTerms.drive)

/-- A filtered channel change (R328), seen by the die and forwarded to the island. -/
def execSinChannelChange (t : Instant) (i : Fin 32) (chanB level : Bool) (s : State) : Out := .next (
  let s := s.advance t
  let f := if chanB then F.SAF_SIN_B else F.SAF_SIN_A
  ((s.wr f (putBit (s.rd f) i level)).noteSin i))

/-- A disagreement that has persisted for DISC_MS is declared a fault once (R328). -/
def execDiscrepancyFault (t : Instant) (i : Fin 32) (s : State) : Out := .next (
  let s := s.advance t
  match s.island.apart.find i with
  | some a => if s.sinMode i ≠ 0 ∧ s.safeSince a (1000 * s.rd F.SIN_CFG_DISC_MS i) = true then
      (s.latchSin i 1).onIsland (fun x => { x with apart := x.apart.erase i })
    else s
  | none => s)

/-- A test pulse (R330): every active channel with its TEST bit set passes or has a pad fault. -/
def execTestPulse (t : Instant) (chanB : Bool) (fails : BitVec 32) (s : State) : Out := .next (
  let s := s.advance t
  match s.island.matrix with
  | none => s
  | some m =>
    let level := s.rd (if chanB then F.SAF_SIN_B else F.SAF_SIN_A)
    let tested := (List.range 32).filter (fun i => (m.input i).mode != 0 && bitOf (m.input i).test (b2n chanB) && bitOf level i)
    (s.each tested (fun s i =>
      if fails.getLsbD i then s.latchSin i (if chanB then 3 else 2)
      else if chanB then s.onIsland (fun x => { x with pulsedB := withBit x.pulsedB i })
      else s.onIsland (fun x => { x with pulsedA := withBit x.pulsedA i }))).showWait)

/-- A test of an output's switch (R331). -/
def execOutputTest (t : Instant) (o : Fin 16) (result : Fin 5) (s : State) : Out := .next (
  let s := s.advance t
  if !s.on F.SOUT_CFG_USED o || result.val == 4 then s
  else
    let s := s.onIsland (fun x => { x with side := putBit x.side o (!bitOf x.side o) })
    if result.val = 0 then
      let lit := bitOf (s.rd F.SAF_SOUT_STATE_ENERGISED) o
      (s.onIsland (fun x => { x with switched := withBit x.switched o, passes := x.passes.set o (if lit then 0 else x.passes.get o 0 + 1) })).showWait
    else
      let s := ((s.setBit F.SAF_SOUT_STATE_FAULT o).wr F.SOUT_CFG_FAULT_CAUSE result o).onIsland (fun x => { x with passes := x.passes.set o 0 })
      (((s.sysFault 17 o).event sysStream 12 o result 2).drive))

/-- The island's comparison of term states (R325 to R327): hand-overs at a comparison that agrees;
two that differ in a row are a matrix fault. -/
def execTermComparison (t : Instant) (agree : Bool) (s : State) : Out := .next (
  let s := s.advance t
  if !s.island.running then s
  else if agree then
    let s := (s.onIsland (fun x => { x with agreed := x.agreed + 1, differed := 0 })).showWait
    if s.phase = 0 then (if s.startWait = 0 ∧ s.on F.SAF_STATUS_MATRIX_FAULT = false then s.handover else s)
    else if s.phase = 2 then (if s.island.proposal = 2 then s.handover else s)
    else if s.phase = 3 then (if s.safeSince s.island.agreeFrom 1000000 && decide (10 ≤ s.island.agreed) then s.handover else s)
    else s.tryRecover
  else
    let s := (s.onIsland (fun x => { x with agreed := 0, differed := x.differed + 1, agreeFrom := s.safeNow })).roll F.SAF_CNT_CMP_MISMATCH
    (if 2 ≤ s.island.differed then s.matrixFault else s).showWait)

/-- An island fault (R317, Table 13.4, R333). -/
def execIslandFault (t : Instant) (s : State) : Out := .next (((s.advance t).sysFault 14).islandLost)

/-- The die loads its image (R322). -/
def execMatrixLoad (t : Instant) (good : Bool) (s : State) : Out := .next (
  (((s.advance t).loadMatrix good).showWait))

/-- The Overcast window ends (R334): the die's oscillator makes it at least 96 % of OVC_S. -/
def execOvercastWindowEnd (t : Instant) (s : State) : Out := .next (
  let s := s.advance t
  if s.phase = 4 ∧ s.safeSince s.island.phaseAt (960000 * s.rd F.SAF_OVC_WINDOW_S) = true then s.toStart else s)

/-- Overcast armed after 60 s of NORMAL (R335). -/
def execOvercastArmed (t : Instant) (s : State) : Out := .next (
  let s := s.advance t
  if s.phase = 1 ∧ s.safeSince s.island.phaseAt 60000000 = true then s.wr F.SAF_STATUS_OVC_ARMED 1 else s)

/-- The safety clock compared with the Warp (R318): while the Warp is healthy a deviation above
1 % is an island fault. -/
def execSclkCrosscheck (t : Instant) (bad : Bool) (s : State) : Out := .next (
  let s := s.advance t
  let free := s.sclkFree
  let s := s.wr F.SAF_STATUS_SCLK_FREE (b2n free)
  if !free && bad then (s.sysFault 14).islandLost else s)

/-- A frame accepted by consumer `n` (R339, R340). -/
def State.acceptWeft (s : State) (n : Nat) (e : WeftEntry) (f : WeftRx) : State :=
  let x := s.weft n
  let data := if f.safe then List.replicate e.len 0 else f.data
  let s := s.wr F.WC_STATUS_SEQ f.seq n
  let st := s.rd F.WC_STATUS_STATE n
  let run := x.run + 1
  let st := if st = 1 then 1 else if e.auto then (if 3 ≤ run then 1 else 2) else 3
  (s.putWeft n { x with seq := some f.seq, arrived := s.safeNow, run := if st = 1 then 0 else run, data := data, safe := f.safe }).wr F.WC_STATUS_STATE st n

/-- A Weft frame at a consumer (R339): discarded, accepted, repeated or out of sequence. -/
def execWeftFrame (t : Instant) (n : Fin 256) (f : WeftRx) (s : State) : Out := .next (
  let s := s.advance t
  match s.island.prog.bind (fun g => g.conns[n.val]?) with
  | none => s
  | some e =>
    let st := s.rd F.WC_STATUS_STATE n
    if !s.island.running || e.role != 0 || st == 0 || st == 4 then s
    else if !f.crcOk || f.conn != e.conn then (s.putWeft n { s.weft n with run := 0 }).roll F.WC_ERR_CRC_ERR n
    else
      let d := match (s.weft n).seq with
        | some q => (f.seq + 65536 - q) % 65536
        | none => 1
      if f.restart || (decide (1 ≤ d) && decide (d ≤ 1000)) then s.acceptWeft n e f
      else if d = 0 then s
      else (s.putWeft n { s.weft n with run := 0 }).roll F.WC_ERR_SEQ_ERR n)

/-- A consumer's deadline (R340): the connection expires and its data becomes all zero. -/
def execWeftDeadline (t : Instant) (n : Fin 256) (s : State) : Out := .next (
  let s := s.advance t
  let st := s.rd F.WC_STATUS_STATE n
  if s.island.running ∧ s.on F.WC_STATUS_ROLE n = false ∧ (st = 1 ∨ st = 3) ∧ s.safeSince (s.weft n).arrived (1000 * s.rd F.WC_EXP_DEADLINE_MS n) = true then
    let s := s.putWeft n { s.weft n with run := 0, data := List.replicate (s.weft n).data.length 0 }
    ((s.wr F.WC_STATUS_STATE 2 n).roll F.WC_EXP_EXPIRIES n).event sysStream 12 n 0 3
  else s)

/-- Whether a matrix container passes R323 and R372. -/
def State.containerOk (s : State) (c : MatrixCont) : Bool :=
  s.rootOk c.keyId && c.sigOk && !s.belowFloor 1 0 c.version && c.headOk && c.bodyOk && c.frameCount == 1 && c.beamZero && c.version == c.image.version

/-- PROGRAM_MATRIX (R323): the image written to the EEPROM, read back and loaded; START again. -/
def execProgramMatrix (t : Instant) (c : MatrixCont) (readBack room : Bool) (s : State) : Out := .next (
  (s.advance t).hostCommand 0x10 16 anyArgs (·.loading room (fun s =>
  if !s.safetyOpen then s.reply 1
  else if !s.containerOk c then s.reply 2
  else
    let s := (s.onIsland (fun x => { x with eeprom := some c.image })).roll F.SAF_MATRIX_WRITES
    let s := (s.restartIsland.loadMatrix readBack).toStart
    s.reply (if readBack then 0 else 3))))

/-- Whether an interlock program passes R323 and R372. -/
def State.safProgOk (s : State) (g : SafProg) : Bool :=
  s.rootOk g.keyId && g.sigOk && !s.belowFloor 2 0 g.version && g.headOk && g.bodyOk

/-- LOAD_SAFETY (R323): the program written to flash and started afresh; START again. -/
def execLoadSafety (t : Instant) (img : SafProg) (readBack room : Bool) (s : State) : Out := .next (
  (s.advance t).hostCommand 0x11 16 anyArgs (·.loading room (fun s =>
  if !s.safetyOpen then s.reply 1
  else if !s.safProgOk img then s.reply 2
  else if !readBack then s.reply 3
  else ((((s.store (fun x => { x with safe := some img })).onIsland (fun x => { x with prog := some img })).restartIsland).toStart).reply 0)))

/-- SAFETY_PHASE (R326): the phase request input. -/
def execSafetyPhase (t : Instant) (phase : Word) (s : State) : Out := .next (
  (s.advance t).hostCommand 0x12 16 (fun c => c.arg0 == phase.toNat) (fun s =>
  (s.onIsland (fun x => { x with request := phase.toNat })).reply 0))

/-- SAFETY_RESET (R332): the named outputs' faults clear, or nothing where one of them has not
passed 10 consecutive tests while de-energised. -/
def execSafetyReset (t : Instant) (mask : BitVec 16) (s : State) : Out := .next (
  (s.advance t).hostCommand 0x13 16 (fun c => c.arg0 == mask.toNat) (fun s =>
  let named := (List.range 16).filter (fun o => mask.getLsbD o && bitOf (s.rd F.SAF_SOUT_STATE_FAULT) o)
  if named.all (fun o => decide (10 ≤ s.island.passes.get o 0)) then
    let s := s.each named (fun s o => (s.wr F.SAF_SOUT_STATE_FAULT (putBit (s.rd F.SAF_SOUT_STATE_FAULT) o false)).wr F.SOUT_CFG_FAULT_CAUSE 0 o)
    s.drive.reply 0
  else s.reply 1))

/-- The restarted island's reload ends (R319, R334). -/
def execIslandReloadDone (t : Instant) (ok : Bool) (s : State) : Out := .next (
  let s := s.advance t
  if s.island.running then s else s.startProgram ok)

end Sys2Proof.Machine
end

