-- ==== Sys2Proof/Machine/Loom.lean ====
section
/-! DEFINITION.  The commands of the Loom: input filters, logic elements, event routes, scans,
edits and drafts (09). -/

namespace Sys2Proof.Machine

open Sys2Proof

/-! ### FIO inputs (R476) -/

/-- The filtered level of a pin taken: a change, stamped with its raw edge, reaches its event routes and
gates; a suppressed pulse reaches nothing. -/
def State.takePin (s : State) (pin : Nat) : State :=
  let x := s.pin pin
  let stamp := x.edge.getD s.now
  if x.level = x.raw then s.putPin pin { x with edge := none }
  else
    let s := s.putPin pin { x with level := x.raw, edge := none, stamp := stamp }
    (((s.encoderEdge pin).edgeChans pin stamp).emitEdge 0 pin x.raw stamp).settle

/-- A raw edge (R476): it starts or restarts the filter; with FILTER_NS 0 it passes at once. -/
def execFioInputEdge (t : Instant) (pin : Fin 192) (level : Bool) (s : State) : Out := .next (
  let s := s.advance t
  let s := s.putPin pin { s.pin pin with raw := level, edge := some s.now }
  if s.cfg (pinKey pin) 2 2 = 0 then s.takePin pin else s)

/-- A level has held for FILTER_NS with no further edge (R476). -/
def execFilterTake (t : Instant) (pin : Fin 192) (s : State) : Out := .next (
  let s := s.advance t
  match (s.pin pin).edge with
  | some e => if (s.cfg (pinKey pin) 2 2 : Int) ≤ sinceNs s.now e then s.takePin pin else s
  | none => s)

/-! ### Logic elements and routes (R215 to R219) -/

/-- A net input of a logic element changed (R219); while its quadrant is gated its output
holds (16 R396). -/
def execLeInputChange (t : Instant) (n : Fin 16384) (since : Instant) (s : State) : Out := .next (
  let s := s.advance t
  if s.quadOn (n / 4096) then s.evalLe n since else s)

/-- The timer of a logic element runs out (R219): TON rises; TOF and TP fall.  A timer that ran when a
draft changed MODE acts as the new mode has it: COMB and LATCH have no timer (R232). -/
def execLeTimerExpiry (t : Instant) (n : Fin 16384) (s : State) : Out := .next (
  let s := s.advance t
  let x := s.le n
  match x.deadline with
  | some d =>
    if notLater d s.now && s.quadOn (n / 4096) then
      let s := s.putLe n { x with deadline := none }
      match s.cfg (leKey n) 2 1 with
      | 2 => s.when x.f (·.setLe n true)
      | 3 => s.when (!x.f) (·.setLe n false)
      | 4 => s.setLe n false
      | _ => s
    else s
  | none => s)

/-- An event on an event route (R217); a gated quadrant's routes deliver none (16 R396). -/
def execEventRouteEvent (t : Instant) (er : Fin 8192) (data : Word) (s : State) : Out := .next (
  let s := s.advance t
  if s.quadOn (er / 2048) then s.emit er data.toNat s.now else s)

/-- A stall of a logic element or route (R215, 01 Table 1.4): its partition goes to STOP with
cause 10; an unassigned one is logged only.  An event route with a full FIFO does not stall. -/
def execRouteStall (t : Instant) (kind : Fin 3) (id : Fin 16384) (s : State) : Out := .next (
  let s := s.advance t
  if kind.val = 2 ∧ 4 ≤ (s.fifo id).length then s
  else
    let key := match kind.val with
      | 0 => leKey id
      | 1 => vrKey id
      | _ => erKey id
    let s := ((s.wr F.LOOM_STALL_SRC_KIND kind).wr F.LOOM_STALL_SRC_ID id).setBit F.LOOM_EVENT 5
    let s := s.sysFault 2 id
    match s.owner key with
    | some p => s.partStop p 10
    | none => s)

/-! ### Scans (R233) -/

/-- One failing frame of a scan: rewritten from the DRAM copy, or lost where that fails too;
its partition goes to STOP with cause 9. -/
def State.scanError (s : State) (faddr : Nat) (dramBad : Bool) : State :=
  let o := s.owner faddr
  let s := (s.wr F.LOOM_SCAN_ERR faddr).loomEvent sysStream 0 2 (leBytes 4 faddr)
  let s := s.sysFault 4 faddr
  let s := if dramBad then
      let s := s.loomEvent sysStream 0 3 (leBytes 4 faddr)
      match o with
      | some p => s.wr F.LP_STATUS_FRAME_LOST 1 p
      | none => s
    else
      let s := s.bump F.LOOM_REPAIRS
      match o with
      | some p => s.lpEvent p 5
      | none => s
  match o with
  | some p => if dramBad && s.inStop p then s.wr F.CP_STATUS_STOP_CAUSE 9 p else s.partStop p 9
  | none => s

/-- The scan of every 1 ms (R233), with the frames that fail. -/
def execConfigScan (t : Instant) (bad : List (Nat × Bool)) (s : State) : Out := .next (
  let s := s.advance t
  bad.foldl (fun s e => s.scanError e.1 e.2) s)

/-! ### Edits (R234) -/

/-- The bits of the register at `a` that a host write may edit: configuration fields of access
RW or RWL. -/
def editMask (r : RegRow) : Nat :=
  fieldMask cfgFields { r with fields := r.fields.filter (fun b => b.access == .rwl || b.access == .rw) }

/-- Whether a TAP_CFG write sets DECIMATE with an N below 2 (07 Table 7.8). -/
def badTapCfg (key w v : Nat) : Bool :=
  keySpace key == 4 && keyKind key == 2 && w == 1 && v % 4 == 3 && decide (v / 2 ^ 16 < 2)

/-- A host write of a configuration field (R234, R241): to the shadow copy of an owned record,
discarded during an application; at once where the frame of the record has no owner; discarded where the
resource appears in no CONFIG frame, since it then keeps its reset values (R226). -/
def State.editField (s : State) (a v : Nat) : State :=
  match keyAt a, findReg a with
  | some key, some (r, _) =>
    let w := (a - (imageBase key).getD a) / 4
    let x := s.recOf key
    if badTapCfg key w v then s.discardOther a
    else
      match x.owner with
      | some p =>
        if s.on F.LP_STATUS_APPLY_STATE p then ((s.bump F.LP_EDIT_DROP p).lpEvent p 7).discardOther a
        else
          let base := if x.edited then x.shadow else x.active
          (s.putRecord key { x with shadow := withWord base w (editMask r) v, edited := true }).wr F.LP_STATUS_EDITS_PENDING 1 p
      | none =>
        if !s.placed key then s.discardOther a
        else if s.rwlOpen none then
          let s := s.putRecord key { x with active := withWord x.active w (editMask r) v }
          r.fields.foldl (fun s b => if cfgFields.contains b.fld.id && (b.access == .rwl || b.access == .rw) then s.wrPart b ((findReg a).elim 0 (·.2)) v else s) s
        else s.discard 3 a
  | _, _ => s

/-- A host write to a configuration field (R234). -/
def execConfigFieldWrite (t : Instant) (offset : Fin 268435456) (value : Word) (s : State) : Out := .next (
  let s := s.advance t
  s.hostWrite offset (fun s => s.editField offset value.toNat))

/-- BAR0 offset of LP_CTRL of partition `p`. -/
def lpOff (p : Nat) : Nat := 0x701000 + 0x40 * p

/-- EDIT_COMMIT (R234): in STOP, the pending edits flip at the first instant whose nanosecond
count is a multiple of 1,000. -/
def execEditCommit (t : Instant) (p : Fin 16) (s : State) : Out := .next (
  let s := s.advance t
  s.hostWrite (lpOff p) (fun s =>
    if !s.inStop p || s.on F.LP_STATUS_APPLY_STATE p then s.lpEvent p 7
    else if (s.applying p).flip.isSome then s
    else s.putApply p { s.applying p with flip := some (nextMicro s.now, .edit) }) 4)

/-- EDIT_DISCARD (R234). -/
def execEditDiscard (t : Instant) (p : Fin 16) (s : State) : Out := .next (
  let s := s.advance t
  s.hostWrite (lpOff p) (fun s => s.discardEdits p) 8)

/-! ### Drafts (R235 to R241) -/

/-- The bytes of staging that partition `p`'s drafts take, with `bytes` more in slot `d`. -/
def State.stageBytes (s : State) (p d bytes : Nat) : Nat :=
  ((List.range 8).map (fun i =>
    if i = d then bytes
    else if s.rd F.DS_STATE_STATE (8 * p + i) < 2 then 0
    else ((s.loom.drafts.find (8 * p + i)).map (·.bytes)).getD 0)).sum

/-- Whether every frame of a draft repeats a Beam CONFIG frame of the partition (check 8). -/
def State.draftFramesOk (s : State) (p : Nat) (img : DraftImg) : Bool :=
  img.frames.all (fun f => f.ftype == 0 && f.owner == p && f.crcOk &&
    s.loom.frames.any (fun b => b.1 == recKey f.space f.kind f.index && b.2.1 == f.len && b.2.2 == some p))

/-- Whether a draft frame differs from the Beam only in bits of the MUTMASK (R236). -/
def State.draftBitsOk (s : State) (img : DraftImg) : Bool :=
  img.frames.all (fun f =>
    let size := (recBytesOf f.space f.kind).getD 1
    (List.range (f.len / size)).all (fun j =>
      let r := s.recOf (recKey f.space f.kind f.index + j)
      let diff := bytesAt f.payload (j * size) size ^^^ r.beam
      diff &&& r.mask == diff))

/-- The first failing check of Table 9.15 for a container sent to partition `t`: one for another
partition has its PARTITION out of range (DEDUCED, assumption 40). -/
def State.draftResult (s : State) (t : Nat) (img : DraftImg) : Nat :=
  let p := img.partition
  let d := img.slot
  if p < 16 ∧ d < 8 ∧ (s.rd F.LP_STATUS_ACTIVE p = d ∨ s.rd F.DS_STATE_STATE (8 * p + d) = 1 ∨ (s.on F.LP_STATUS_APPLY_STATE p ∧ (s.applying p).target = d)) then 1
  else if img.magic ≠ 0x54465244 ∨ img.format ≠ 1 ∨ img.reserved ≠ 0 then 2
  else if p ≠ t ∨ 7 < d then 3
  else if img.beamDigest ≠ s.loom.digest then 4
  else if !img.sigOk || !s.rootOk img.keyId then 5
  else if s.belowFloor 4 p img.version = true then 6
  else if img.bodyDigest ≠ img.bodyHash then 7
  else if !s.draftFramesOk p img then 8
  else if !s.draftBitsOk img then 9
  else if 512 * 1024 < s.stageBytes p d img.bytes then 10
  else 0

/-- LP_LIBRARY and the slot registers of partition `p`, slot `d`, for an installed draft. -/
def State.showDraft (s : State) (p d : Nat) (img : DraftImg) (stale : Bool) : State :=
  let k := 8 * p + d
  let s := (s.wr F.DS_STATE_STATE (if stale then 3 else 2) k).wr F.DS_VERSION img.version k
  let s := (s.wr F.DS_SIZE_FRAMES img.frames.length k).wr F.DS_SIZE_UNITS16 ((img.bytes + 15) / 16) k
  let s := s.each (List.range 4) (fun s i => s.wr F.DS_NAME ((img.name.getD i 0).toNat) (4 * k + i))
  let s := s.wr F.LP_LIBRARY_STAGE_KIB ((s.stageBytes p 8 0 + 1023) / 1024) p
  let s := s.wr F.LP_LIBRARY_VALID (withBit (s.rd F.LP_LIBRARY_VALID p) d) p
  s.wr F.LP_LIBRARY_STALE (putBit (s.rd F.LP_LIBRARY_STALE p) d stale) p

/-- LOAD_DRAFT (R237): a draft that passes Table 9.15 is written to its slot; a refused one
leaves the slot unchanged. -/
def execLoadDraft (t : Instant) (p : Fin 16) (img : DraftImg) (room : Bool) (s : State) : Out := .next (
  (s.advance t).hostCommand 5 p.val anyArgs (·.loading room (fun s =>
  let r := s.draftResult p.val img
  let s := s.reply r
  let k := 8 * img.partition + img.slot
  if img.partition ≠ p.val ∨ 7 < img.slot then s
  else if r ≠ 0 then s.wr F.DS_STATE_RESULT r k
  else
    let s := { s with loom := { s.loom with drafts := s.loom.drafts.set k img } }
    (s.wr F.DS_STATE_RESULT 0 k).showDraft img.partition img.slot img false)))

/-- An application refused with RESULT `res` (Table 9.16). -/
def State.refuseApply (s : State) (p res : Nat) : State :=
  ((s.wr F.LP_STATUS_RESULT res p).lpEvent p 1).event p 10 p 1 1 res

/-- The records of partition `p` whose target content differs from the active copy (R239). -/
def State.differing (s : State) (p d : Nat) : List Nat :=
  ((s.recsOwned p).filter (fun e => s.target p d e.1 != s.target p (s.rd F.LP_STATUS_ACTIVE p) e.1)).map (·.1)

/-- APPLY (R238, R239): refused by Table 9.16, or admitted; pending edits are discarded and
phase 1 writes the differing records to their shadows. -/
def execApply (t : Instant) (p : Fin 16) (value : Word) (s : State) : Out := .next (
  let s := s.advance t
  s.hostWrite (lpOff p) (fun s =>
    let d := value.toNat / 2 ^ 24 % 16
    let expect := value.toNat / 2 ^ 28
    let s := s.wr F.LP_CTRL_SLOT d p
    if s.on F.LP_STATUS_APPLY_STATE p || (s.applying p).flip.isSome then s.refuseApply p 4
    else if !s.inStop p || s.on F.TR_STATUS_STATE p then s.refuseApply p 1
    else if d ≠ 15 ∧ s.rd F.DS_STATE_STATE (8 * p + d) ≠ 2 then s.refuseApply p 2
    else if expect ≠ s.rd F.LP_STATUS_ACTIVE p then (s.lpEvent p 2).refuseApply p 3
    else
      let edits := (s.editedKeys p).length
      let s := if edits = 0 then s else ((s.discardEdits p).bump F.LP_EDIT_DROP p edits).lpEvent p 3
      let keys := s.differing p d
      let words := (keys.map (fun k => ((recBytesOf (keySpace k) (keyKind k)).getD 0 + 3) / 4)).sum
      let s := keys.foldl (fun s k => s.putRecord k { s.recOf k with shadow := s.target p d k }) s
      let a := s.applying p
      (s.putApply p { a with target := d, previous := s.rd F.LP_STATUS_ACTIVE p, keys := keys, words := words, began := s.now, verifyFails := 0, journalFails := 0, superseded := false }).wr F.LP_STATUS_APPLY_STATE 1 p |>.settle.internalWake 2) value.toNat)

/-- The end of phase 1 (R239): verified, the flip instant is set; a failure restarts the phase
once and then ends the application with RESULT 5. -/
def execApplyStaged (t : Instant) (p : Fin 16) (verified : Bool) (s : State) : Out := .next (
  let s := s.advance t
  let a := s.applying p
  if s.rd F.LP_STATUS_APPLY_STATE p ≠ 1 then s
  else if verified then
    let at_ := s.rdT F.LP_AT p
    let f := nextMicro (if at_ = 0 then s.now else maxT s.now at_)
    let times := ((sinceNs s.now a.began).toNat :: a.times).take 16
    let s := s.putApply p { a with flip := some (f, .apply), times := times }
    (s.wr F.LP_APPLY_AVG (times.sum / times.length) p).wr F.LP_STATUS_APPLY_STATE 2 p
  else if a.verifyFails = 0 then s.putApply p { a with verifyFails := 1 }
  else (s.restoreShadows p).endApply p 5)

/-- The flip instant F (R231, R232, R239): the due flip of the partition's records. -/
def execPlaneFlip (t : Instant) (p : Fin 16) (s : State) : Out := .next (
  let s := s.advance t
  let a := s.applying p
  match a.flip with
  | some (f, kind) =>
    if f ≠ s.now then s
    else
      let s := s.putApply p { a with flip := none }
      match kind with
      | .apply => ((s.flipRecords a.keys).wrT F.LP_FLIP f p).wr F.LP_STATUS_APPLY_STATE 3 p
      | .edit => s.when (s.inStop p) (·.flipEdits p)
      | .back =>
        let s := (s.flipRecords a.keys).wrT F.LP_FLIP f p
        s.endApply p a.result
  | none => s)

/-- The journal records of partition `p`, newest first. -/
def State.journal (s : State) (p : Nat) : List Journal := s.loom.journals.get p []

/-- A journal record written over the older one (R239). -/
def State.writeJournal (s : State) (p d : Nat) (f : Instant) : State :=
  let seq := ((s.journal p).map (·.seq)).foldl max 0 + 1
  let img := s.loom.drafts.find (8 * p + d)
  let j : Journal := ⟨seq, d, (img.map (·.version)).getD 0, f, (img.map (·.bodyDigest)).getD 0, true⟩
  let s := { s with loom := { s.loom with journals := s.loom.journals.set p ((j :: s.journal p).take 2) } }
  s.wr F.LP_JSEQ seq p

/-- The journal record reads back (R239, R241): good, the slot is ACTIVE; a failed write is
retried once, then the partition flips back; after a partition reset the record is superseded
by one that names the previous slot. -/
def execJournalWriteDone (t : Instant) (p : Fin 16) (good : Bool) (s : State) : Out := .next (
  let s := s.advance t
  let a := s.applying p
  if a.superseded then
    let s := if good then (s.writeJournal p a.target (s.rdT F.LP_FLIP p)).writeJournal p a.previous s.now else s
    s.putApply p { s.applying p with superseded := false }
  else if s.rd F.LP_STATUS_APPLY_STATE p = 3 ∧ a.flip = none then
    if good then
      let s := (s.writeJournal p a.target (s.rdT F.LP_FLIP p)).wr F.LP_STATUS_ACTIVE a.target p
      let s := a.keys.foldl (fun s k => s.putRecord k { s.recOf k with shadow := (s.recOf k).active }) s
      s.endApply p 0
    else if a.journalFails = 0 then s.putApply p { a with journalFails := 1 }
    else s.putApply p { a with flip := some (nextGrid 1000 0 s.now, .back), result := 7 }
  else s)

end Sys2Proof.Machine
end

