-- ==== Sys2Proof/Machine/Loop.lean ====
section
/-! DEFINITION.  The commands of a loop cell: enable, banks, strobe, release and event mode
(03). -/

namespace Sys2Proof.Machine

open Sys2Proof

/-- The fields of an LC_CTRL write other than its commands: VIEW, and INIT_LEVEL and MODE
where the partition is in STOP (00 R16); on an enabled cell they are written without the checks of R83, and
EVT_ARMED stays (assumption 20). -/
def State.lcCtrlFields (s : State) (n : Nat) (v : Nat) (open_ : Bool) : State :=
  let s := s.wr F.LC_CTRL_VIEW (v / 2 ^ 10) n
  if open_ then (s.wr F.LC_CTRL_INIT_LEVEL (v / 2 ^ 16) n).wr F.LC_CTRL_MODE (v / 2) n else s

/-- A write of LC_CTRL with ENABLE = 1 (R66, R83): refused with the lowest CFG_ERR that
applies, or accepted; a FAULTED cell stays FAULTED (04 R101), a gated quadrant is powered (16 R396) and a
DEEP_SLEEP entry in progress ends (01 R24).  A cell in no CONFIG frame of the Beam stays disabled (09
R226).  On a cell that is enabled only MODE, INIT_LEVEL and VIEW are written (assumption 20). -/
def execLcEnable (t : Instant) (n : Fin 1024) (value : Word) (s : State) : Out := .next (
  let s := s.advance t
  let op := s.rwlOpen (s.ownerLC n)
  s.hostWrite (lcOff n 0) (fun s =>
    if !s.placed (loopKey n) then s.discardOther (lcOff n 0)
    else
    let s := s.lcCtrlFields n value.toNat op
    if !op then s.discard 3 (lcOff n 0)
    else if s.on F.LC_CTRL_ENABLE n then s
    else
      let e := s.cfgErr n
      if e ≠ 0 then (s.wr F.LC_STATUS_CFG_ERR e n).wr F.LC_EVENT_ENABLE_REFUSED 1 n
      else
        let s := (s.wr F.LC_STATUS_CFG_ERR 0 n).wr F.LC_CTRL_ENABLE 1 n
        let s := if s.rd F.LC_SUP_STATUS_SUP_STATE n = 3 then s else s.startCell n
        ((s.wakeQuadrant (n / 256)).runChange).startWake))

/-- A write of LC_CTRL with ENABLE = 0: the cell stops and its destination keeps the last
released value (R75). -/
def execLcDisable (t : Instant) (n : Fin 1024) (value : Word) (s : State) : Out := .next (
  let s := s.advance t
  let op := s.rwlOpen (s.ownerLC n)
  s.hostWrite (lcOff n 0) (fun s =>
    let s := s.lcCtrlFields n value.toNat op
    if op then s.haltCell n else s.discard 3 (lcOff n 0)))

/-- A host SWAP (R79, R80, R82): refused while the Treadle holds the shadow bank or
SHADOW_VALID is 0; at once on a disabled cell; otherwise at the first strobe. -/
def execSwap (t : Instant) (n : Fin 1024) (s : State) : Out := .next (
  let s := s.advance t
  s.hostWrite (lcOff n 0) (fun s =>
    if s.treadleBusy (s.ownerLC n) then (s.wr F.LC_EVENT_SWAP_REFUSED 1 n).discardOther (lcOff n 0)
    else if s.on F.LC_CTRL_ENABLE n then
      if s.on F.LC_STATUS_SHADOW_VALID n then s.putCell n { s.cell n with swapAsked := true }
      else s.wr F.LC_EVENT_SWAP_REFUSED 1 n
    else s.trySwap n))

/-- A COPY writes the active bank into the shadow (R79, R82). -/
def execCopy (t : Instant) (n : Fin 1024) (s : State) : Out := .next (
  let s := s.advance t
  s.hostWrite (lcOff n 0) (fun s =>
    if s.treadleBusy (s.ownerLC n) then (s.wr F.LC_EVENT_SHADOW_DROP 1 n).discardOther (lcOff n 0)
    else s.putShadow n (s.active n)))

/-- A write of the bank window goes to the shadow bank (R78), or is discarded while the
Treadle holds it (R79). -/
def execBankWindowWrite (t : Instant) (n : Fin 1024) (k : Fin 24) (value : Word) (s : State) : Out := .next (
  let s := s.advance t
  s.hostWrite (lcOff n (0xA0 + 4 * k)) (fun s =>
    if s.treadleBusy (s.ownerLC n) then (s.wr F.LC_EVENT_SHADOW_DROP 1 n).discardOther (lcOff n (0xA0 + 4 * k))
    else s.putShadow n ((s.shadow n).put k value.toNat)))

/-- A write of C_STATE commits CS for the next evaluation, clamped to the active bank (R63). -/
def execCStateWrite (t : Instant) (n : Fin 1024) (value : BitVec 48) (s : State) : Out := .next (
  let s := s.advance t
  s.rwlWrite (lcOff n 0x50) (s.ownerLC n) (fun s =>
    let s := s.putCs n value.toInt
    let c := s.cell n
    s.putCell n { c with keepCs := c.eval.isSome || c.latched.isSome }))

/-- The registers of the view that a read of SP latches together (R68; 04, YM and RESID). -/
def snapshotFields : List Fld := [F.LC_SP, F.LC_SP_DOT, F.LC_Y, F.LC_E, F.LC_C, F.LC_W, F.LC_U, F.LC_YM, F.LC_RESID]

/-- The values of the last released evaluation latched together (R68). -/
def State.takeSnapshotOf (s : State) (n : Nat) : State :=
  s.putCell n { s.cell n with snapshot := snapshotFields.map (fun f => s.rd f n) }

/-- A read of SP latches the values of the last released evaluation together and answers SP (R68). -/
def execLcSnapshotRead (t : Instant) (n : Fin 1024) (s : State) : Out := .next (
  let s := s.advance t
  (s.takeSnapshotOf n).answerWord (s.rd F.LC_SP n))

/-- Whether cell `n` strobes now: enabled, not FAULTED, not in self-test, its quadrant powered,
the Warp not coarse and the instant on its grid (02 R45, 04 R99, R113). -/
def State.strobesNow (s : State) (n : Nat) : Bool :=
  s.on F.LC_CTRL_ENABLE n && s.rd F.LC_SUP_STATUS_SUP_STATE n != 3 && s.rd F.LC_DIAG_ST_STATE n != 2 &&
  s.quadOn (n / 256) && !s.on F.WARP_STATUS_COARSE && onGrid (s.rd F.LC_PERIOD n) (s.rd F.LC_PHASE n) s.now

/-- The staleness of a ring-fed cell at a strobe (04 R94; 12 R301): a ring cycle that fell since the
strobe before brought no good input bytes. -/
def State.noteStale (s : State) (n : Nat) : State :=
  match (s.cell n).lastStrobe with
  | some prev =>
    if s.rd F.LC_ROUTE_Y_KIND n = 1 ∧ ((s.cell n).stale || s.ringStale (s.rd F.LC_DEST_RING n) prev) then
      (s.bump F.LC_DIAG_CNT_STALE_CNT n).wr F.LC_SUP_EVENT_Y_STALE 1 n
    else s
  | none => s

/-- A strobe (R64, R82, 04 R90 to R94): a host SWAP that waits takes place first; the inputs
are latched and the law and the model are evaluated, at once or when the AIN's conversion
ends.  Its sp is sp_(k-1) of the next strobe, whether or not the sample is late (assumption 78). -/
def execLoopStrobe (t : Instant) (n : Fin 1024) (s : State) : Out := .next (
  let s := s.advance t
  if s.strobesNow n then
    let s := if (s.cell n).swapAsked then s.trySwap n else s
    let s := s.noteStale n
    let sp := s.setPoint n
    let c := s.cell n
    let s := s.putCell n { c with prevSp := some sp.1, lastStrobe := some s.now, stale := false, uHist := (c.inForce :: c.uHist).take 64 }
    let l := s.latch n sp.1 sp.2
    match s.rd F.LC_ROUTE_Y_KIND n with
    | 0 =>
      let r := s.strobeAin (s.rd F.LC_SRC_Y_ID n)
      let s := r.1
      match r.2 with
      | some q => s.launch n l (ainY q.1)
      | none => s.putCell n { s.cell n with latched := some l, eval := none }
    | 1 => s.launch n l (s.ringY n)
    | _ => s.launch n l (s.rdI F.VR_VALUE (s.rd F.LC_SRC_Y_ID n))
  else s)

/-- The result of an evaluation is ready (02 R53); the end of a late one gives its negative
slack (02 R54, 04 R95), the oldest first (04 R96).  A failed residue check declares its fault at the
release of its evaluation, and a parity error, of any read of the cell's words, at the first release
instant at or after it (04 R98, R107). -/
def execLoopResultReady (t : Instant) (n : Fin 1024) (arith parity : Bool) (s : State) : Out := .next (
  let s := s.advance t
  let s := s.putCell n { s.cell n with parityDue := (s.cell n).parityDue || parity }
  let c := s.cell n
  match c.lates, c.eval with
  | r :: rest, _ => (s.putCell n { c with lates := rest }).noteSlack (min (-1) (sinceNs r s.now)) 0 n
  | [], some ev =>
    s.putCell n { c with eval := some { ev with ready := some (ev.ready.getD s.now), causes := ev.causes ||| b2n arith, stops := ev.stops || (arith && s.on F.LC_SUP_CFG_FAULT_REACT n) } }
  | [], none => s)

/-- Whether now is a release instant of cell `n` (02 R45): that of its evaluation, or of its grid. -/
def State.releasesNow (s : State) (n : Nat) : Bool :=
  match (s.cell n).eval, (s.cell n).latched with
  | some ev, _ => ev.due == s.now
  | none, some l => l.due == s.now
  | none, none => onGrid (s.rd F.LC_PERIOD n) (s.rd F.LC_PHASE n + s.rd F.LC_LATENCY n) s.now

/-- An evaluation with the causes that a parity error adds (04 R98). -/
def State.withParity (s : State) (n : Nat) (ev : Eval) : Eval :=
  if (s.cell n).parityDue then { ev with causes := ev.causes ||| 2, stops := ev.stops || s.on F.LC_SUP_CFG_FAULT_REACT n } else ev

/-- Whether a result that is ready at `r` is released now (02 R53). -/
def State.inTime (s : State) (r : Option Instant) (resultFirst : Bool) : Bool :=
  r.any (fun x => earlier x s.now || (x == s.now && resultFirst))

/-- A release instant (R68, 04 R95 to R99, R108): a fault already declared takes SAFE_U; a result
that is ready is released; one that is not is late. -/
def execLoopRelease (t : Instant) (n : Fin 1024) (resultFirst : Bool) (s : State) : Out := .next (
  let s := s.advance t
  let c := s.cell n
  if s.releasesNow n then
    if c.faultDue then s.safeRelease n (c.latched.isSome || c.eval.any (fun ev => !s.inTime ev.ready resultFirst))
    else
      match c.eval, c.latched with
      | some ev, _ =>
        match s.inTime ev.ready resultFirst, ev.ready with
        | true, some r => (s.putCell n { c with parityDue := false }).releaseEval n (s.withParity n ev) r
        | _, r => s.lateCell n ev.at_ (r == some s.now)
      | none, some l => s.lateCell n l.law.at_ false
      | none, none => if c.parityDue && s.on F.LC_CTRL_ENABLE n then s.faultNow n 2 else s
  else s)

/-- A comparator trips (R475, R86, R87): the cell moves one level at once, or when a hold by
dwell or blanking ends. -/
def execComparatorTrip (t : Instant) (ain : Fin 96) (rise : Bool) (s : State) : Out := .next (
  let s := s.advance t
  match s.eventCell ain with
  | some n =>
    let c := s.cell n
    let s := s.putCell n (if rise then { c with tripRise := true } else { c with tripFall := true })
    if s.mayMove n rise then s.eventMove n rise else s.wr F.LC_STATUS_DWELL_WAIT (b2n (!dwellOk (s.active n) c.lastMove s.now)) n
  | none => s)

/-- A tripped comparator releases: the input has returned past its threshold by the
hysteresis (R475). -/
def execComparatorRelease (t : Instant) (ain : Fin 96) (rise : Bool) (s : State) : Out := .next (
  let s := s.advance t
  match s.eventCell ain with
  | some n =>
    let c := s.cell n
    s.putCell n (if rise then { c with tripRise := false } else { c with tripFall := false })
  | none => s)

/-- A dwell or blanking hold ends (R87): a comparator still tripped acts now. -/
def execEventHoldEnd (t : Instant) (n : Fin 1024) (s : State) : Out := .next (
  let s := s.advance t
  let c := s.cell n
  if c.tripRise && s.mayMove n true then s.eventMove n true
  else if c.tripFall && s.mayMove n false then s.eventMove n false
  else s)

/-- A PWM edge of a pin (R73, R75; 06 R156): in each PWM period from the start of its course
the pin shows the one level for the high time and the other for the rest; a course that has
begun takes over. -/
def execPwmEdge (t : Instant) (pin : Fin 192) (s : State) : Out := .next (
  let s := s.advance t
  let x := s.pin pin
  let x := match x.nextPwm with
    | some r => if notLater r.start s.now then { x with pwm := some r, nextPwm := none } else x
    | none => x
  match x.pwm with
  | some r => (s.putPin pin { x with out := if sinceNs s.now r.start % (r.period : Int) < r.high then r.first else r.rest }).settle
  | none => s)

end Sys2Proof.Machine
end

