-- ==== Sys2Proof/Machine/LoopSup.lean ====
section
/-! DEFINITION.  Conversions, rotation and calibration, fault clearing and self-tests of the
loop cells (04). -/

namespace Sys2Proof.Machine

open Sys2Proof

/-! ### Converters (R109 to R112) -/

/-- The field of ANA_MAP that shows group `g` (Table 4.6). -/
def anaMapFld (g : Nat) : Fld :=
  match g % 6 with
  | 0 => F.ANA_MAP_G0
  | 1 => F.ANA_MAP_G1
  | 2 => F.ANA_MAP_G2
  | 3 => F.ANA_MAP_G3
  | 4 => F.ANA_MAP_G4
  | _ => F.ANA_MAP_G5

/-- The converter that serves group `g`. -/
def State.serving (s : State) (g : Nat) : Nat := s.rd (anaMapFld g) (g / 6)
/-- Converter `v`. -/
def State.converter (s : State) (v : Nat) : Converter := s.conv.get v Converter.init

/-- The calibrated q of a raw result (R109). -/
def calibrate (c : Converter) (raw : Nat) : Nat :=
  (clampInt 0 65535 (rshr ((raw : Int) * c.gain) 14 + c.offs)).toNat

/-- The rotation set. -/
def State.putRot (s : State) (r : Rotation) : State := { s with rot := r }

/-- POS and STATE of ANA_CAL_REQ for the converter last requested (R112). -/
def State.showCal (s : State) : State :=
  let v := s.rd F.ANA_CAL_REQ_CONV
  match s.rot.queue.findIdx? (· == v) with
  | some i => (s.wr F.ANA_CAL_REQ_STATE 1).wr F.ANA_CAL_REQ_POS i
  | none => s.wr F.ANA_CAL_REQ_POS 0

/-- A converter retired (R111): no spare remains and the rotation stops. -/
def State.retire (s : State) (v : Nat) : State :=
  let s := { s with conv := s.conv.set v { s.converter v with retired := true } }
  let s := s.putRot { s.rot with slot := none, calibrating := none, failed := none }
  (s.wr F.ANA_EVENT_CAL_FAIL 1).wr F.ANA_ROT_STATUS_SPARE_BAD 1

/-- The normal order goes on after group `g` (R110); a group taken for a request out of turn leaves it
as it is (R112). -/
def State.nextGroup (s : State) (g : Nat) : State :=
  if s.rd F.ANA_ROT_STATUS_NEXT_GROUP = g then s.wr F.ANA_ROT_STATUS_NEXT_GROUP ((g + 1) % 24) else s

/-- Eight pairs have been compared (R110, R111): where all agreed the spare takes over the group and
its converter is calibrated; else the group keeps its converter, and the failure against two groups in
a row retires the spare. -/
def State.endSlot (s : State) (g : Nat) (agree : Bool) : State :=
  let spare := s.rd F.ANA_ROT_STATUS_SPARE
  if agree then
    let freed := s.serving g
    let s := s.putRot { s.rot with slot := none, calibrating := some freed, failed := none, queue := s.rot.queue.filter (· != freed) }
    let s := (s.wr (anaMapFld g) spare (g / 6)).nextGroup g
    (if s.rd F.ANA_CAL_REQ_CONV = freed ∧ s.rd F.ANA_CAL_REQ_STATE = 1 then s.wr F.ANA_CAL_REQ_STATE 2 else s).showCal
  else
    let s := (s.wr F.ANA_EVENT_XCHK_FAIL 1).nextGroup g
    if s.rot.failed.any (· != g) then s.retire spare
    else s.putRot { s.rot with slot := none, failed := some g }

/-- One pair of results of the cross-check (R110). -/
def State.crossCheck (s : State) (g raw spareRaw : Nat) : State :=
  match s.rot.slot with
  | some (g', k, ok) =>
    if g' ≠ g then s
    else
      let a := calibrate (s.converter (s.serving g)) raw
      let b := calibrate (s.converter (s.rd F.ANA_ROT_STATUS_SPARE)) spareRaw
      let agree := ok && decide (((a : Int) - b).natAbs ≤ s.rd F.ANA_ROT_CFG_XCHK_LSB)
      if k + 1 < 8 then s.putRot { s.rot with slot := some (g, k + 1, agree) } else s.endSlot g agree
  | none => s

/-! ### Conversions (R90, R91) -/

/-- The held input of a group that is converted next: the earliest strobe, and of inputs with one strobe
instant the lowest AIN (R91). -/
def State.nextHeld (s : State) (g : Nat) : Option Nat :=
  ((List.range 4).map (4 * g + ·)).foldl (fun best a =>
    match (s.ainOf a).held, best with
    | none, _ => best
    | some _, none => some a
    | some h, some b => if (s.ainOf b).held.any (fun x => earlier h x) then some a else best) none

/-- The strobe grids, PERIOD and PHASE in ns, of the readers of AINn (R90): loop cells, taps, capture
channels, axes that measure their bus voltage on it, and cyclic tasks whose input image holds it. -/
def State.ainGrids (s : State) (a : Nat) : List (Nat × Nat) :=
  ((s.keysOf F.LC_CTRL_ENABLE).filter (fun n => s.on F.LC_CTRL_ENABLE n && s.rd F.LC_ROUTE_Y_KIND n == 0 && s.rd F.LC_SRC_Y_ID n == a)).map (fun n => (s.rd F.LC_PERIOD n, s.rd F.LC_PHASE n)) ++
  ((s.tapsOn 4 a).filter (fun n => s.on F.TAP_CFG_POLICY n)).map s.tapGrid ++
  ((s.keysOf F.CH_SRC_ID).filter (fun n => s.rd F.CH_SRC_KIND n == 4 && s.rd F.CH_SRC_ID n == a && s.on F.CS_STATUS_STATE (s.rd F.CH_SRC_SET n))).map (fun n => (s.rd F.CH_PERIOD n, 0)) ++
  ((s.keysOf F.AX_CTRL_ENABLE).filter (fun n => s.on F.AX_CTRL_ENABLE n && s.hasCoils n && s.rd F.AX_COIL_V_VBUS_AIN n == a)).map (fun n => (s.rd F.AX_PERIOD n, s.rd F.AX_PHASE n)) ++
  ((List.range 128).filter (fun k => s.rd F.CP_STATUS_STATE (k / 8) == 1 && s.on F.CT_CFG_EN k &&
    (s.cycPart (k / 8)).prog.any (fun g => g.map.any (fun e => e.dir == 0 && e.kind == 1 && e.src == a && e.task == k % 8)))).map (fun k => (1000 * s.rd F.CT_PERIOD k, 1000 * s.rd F.CT_PHASE k))

/-- A strobe of AINn falls within the next 2 µs (R110). -/
def State.strobeSoon (s : State) (a : Nat) : Bool :=
  (s.ainGrids a).any (fun p => p.1 != 0 && decide (sinceNs (nextGrid p.1 p.2 s.now) s.now ≤ 2000))

/-- Whether the rotation may freeze AINn for a conversion of its own (R110): nothing of its group waits,
no strobe of it is near, and its track-and-hold has tracked for 600 ns. -/
def State.mayFreeze (s : State) (a : Nat) : Bool :=
  (s.nextHeld (a / 4)).isNone && !s.strobeSoon a &&
  ((s.ainOf a).tracking == 0 || decide (600 ≤ sinceNs s.now (s.ainOf a).tracking))

/-- The cells whose latched strobe awaits a conversion of AINn. -/
def State.awaiting (s : State) (a : Nat) : List Nat :=
  s.cells.keys.filter (fun n => (s.cell n).latched.isSome && s.rd F.LC_ROUTE_Y_KIND n == 0 && s.rd F.LC_SRC_Y_ID n == a)

/-- An AIN conversion ends (R91): the inputs of a group one at a time, in order of strobe instant and then
of AIN.  The result calibrated by the serving converter becomes ready for its readers, whose evaluations
start, and enters the cross-check of its group. -/
def execConversionDone (t : Instant) (ain : Fin 96) (raw spareRaw : BitVec 16) (s : State) : Out := .next (
  let s := s.advance t
  let x := s.ainOf ain
  match x.held with
  | none => s
  | some strobe =>
    let g := ain.val / 4
    if s.nextHeld g ≠ some ain.val then s
    else
    let q := calibrate (s.converter (s.serving g)) raw.toNat
    let s := { s with ain := s.ain.set ain ⟨none, s.now, q, strobe, s.now, []⟩ }
    let s := x.readers.foldl (fun s r =>
      match r.1 with
      | .tap n => s.takeTap n r.2 (BitVec.ofNat 32 q)
      | .chan n => s.capSample n r.2 (BitVec.ofNat 32 q)
      | .image p a => s.partStore p a (leBytes 4 q)) s
    let s := s.each (s.awaiting ain) (fun s n =>
      match (s.cell n).latched with
      | some l => s.launch n l (ainY q)
      | none => s)
    ((s.axConversion ain q).publish 4 ain q).crossCheck g raw.toNat spareRaw.toNat)

/-- ROT_MS as taken, in ns: 10 to 10,000 ms (Table 4.6). -/
def State.rotNs (s : State) : Nat := 1000000 * clampNat 10 10000 (s.rd F.ANA_ROT_CFG_ROT_MS)

/-- The group of the next slot (R110 to R112): that of the first queued request, unless the spare has just
failed against it, else the next group in turn. -/
def State.slotGroup (s : State) : Nat :=
  ((s.rot.queue.filterMap (fun v => (List.range 24).find? (fun g => s.serving g == v))).find? (fun g => s.rot.failed != some g)).getD (s.rd F.ANA_ROT_STATUS_NEXT_GROUP)

/-- A rotation slot begins, ROT_MS after the one before (R110, R112). -/
def execRotationSlot (t : Instant) (s : State) : Out := .next (
  let s := s.advance t
  let due := s.rot.slotAt.all (fun b => decide ((s.rotNs : Int) ≤ sinceNs s.now b))
  if due && s.on F.ANA_ROT_CFG_ROT_EN && !s.on F.ANA_ROT_STATUS_SPARE_BAD && s.rot.slot.isNone && s.rot.calibrating.isNone then
    s.putRot { s.rot with slot := some (s.slotGroup, 0, true), slotAt := some s.now, own := 0 }
  else s)

/-- A conversion that the rotation makes of its own (R110): of the group's inputs in ascending AIN order,
at an instant at which it may freeze the next one; it feeds the cross-check alone. -/
def execRotationConversion (t : Instant) (raw spareRaw : BitVec 16) (s : State) : Out := .next (
  let s := s.advance t
  match s.rot.slot with
  | some (g, _, _) =>
    if s.mayFreeze (4 * g + s.rot.own % 4) then (s.putRot { s.rot with own := s.rot.own + 1 }).crossCheck g raw.toNat spareRaw.toNat else s
  | none => s)

/-- The calibration of a freed converter ends (R110, R111): it becomes the spare with its new
coefficients, or is retired when they lie outside their limits. -/
def execCalibrationDone (t : Instant) (gain offs : BitVec 16) (s : State) : Out := .next (
  let s := s.advance t
  match s.rot.calibrating with
  | none => s
  | some v =>
    let s := if s.rd F.ANA_CAL_REQ_CONV = v ∧ s.rd F.ANA_CAL_REQ_STATE = 2 then s.wr F.ANA_CAL_REQ_STATE 3 else s
    if gain.toNat < 14746 ∨ 18022 < gain.toNat ∨ 512 < offs.toInt.natAbs then s.retire v
    else
      let s := { s with conv := s.conv.set v ⟨gain.toNat, offs.toInt, false⟩ }
      let s := s.putRot { s.rot with calibrating := none }
      s.wr F.ANA_ROT_STATUS_SPARE v)

/-- A calibration request (R112): the spare is calibrated at once, ahead of a slot that uses it, which is
given up and taken again; a converter being calibrated reads RUNNING; any other is queued for the next
rotation slot. -/
def execCalRequest (t : Instant) (conv : Fin 25) (s : State) : Out := .next (
  let s := s.advance t
  s.hostWrite 0x240008 (fun s =>
    let s := s.wr F.ANA_CAL_REQ_CONV conv
    if s.rot.calibrating = some conv.val then s.wr F.ANA_CAL_REQ_STATE 2
    else if s.rd F.ANA_ROT_STATUS_SPARE = conv ∧ s.rot.calibrating = none ∧ s.on F.ANA_ROT_CFG_ROT_EN ∧ !s.on F.ANA_ROT_STATUS_SPARE_BAD then
      (s.putRot { s.rot with calibrating := some conv.val, slot := none }).wr F.ANA_CAL_REQ_STATE 2
    else
      let s := if s.rot.queue.contains conv.val then s else s.putRot { s.rot with queue := s.rot.queue ++ [conv.val] }
      s.showCal))

/-! ### Faults, substitution and self-test (R101, R104, R108, R113) -/

/-- The stall watchdog of a cell expires (R108): a loop fault at once; SAFE_U follows at the
next release instant (R99). -/
def execLoopStall (t : Instant) (n : Fin 1024) (s : State) : Out := .next (
  let s := s.advance t
  if s.on F.LC_CTRL_ENABLE n then
    if s.rd F.LC_SUP_STATUS_SUP_STATE n = 3 then
      s.wr F.LC_SUP_STATUS_FAULT_CAUSE (withBit (s.rd F.LC_SUP_STATUS_FAULT_CAUSE n) 2) n
    else
      let s := s.declareFault n 4 (s.on F.LC_SUP_CFG_FAULT_REACT n) (s.rdI F.LC_Y n) (s.rdI F.LC_YM n) (s.rdI F.LC_U n)
      s.putCell n { s.cell n with faultDue := true }
  else s)

/-- FAULT_CLEAR (R101): accepted only while the partition is in STOP; an enabled cell restarts
as on enable.  LATE_RUN becomes 0 and a SAFE_U still to come is withdrawn (assumption 78). -/
def execFaultClear (t : Instant) (n : Fin 1024) (s : State) : Out := .next (
  let s := s.advance t
  s.hostWrite (lcOff n 0x9C) (fun s =>
    if s.rwlOpen (s.ownerLC n) then
      if s.rd F.LC_SUP_STATUS_SUP_STATE n = 3 then
        let s := (s.wr F.LC_SUP_STATUS_FAULT_CAUSE 0 n).wr F.LC_SUP_STATUS_SUP_STATE 0 n
        let s := (s.wr F.LC_SUP_STATUS_LATE_RUN 0 n).putCell n { s.cell n with faultDue := false }
        if s.on F.LC_CTRL_ENABLE n then s.startCell n else s
      else s.wr F.LC_SUP_STATUS_FAULT_CAUSE 0 n
    else s.wr F.LC_SUP_EVENT_CLEAR_REFUSED 1 n))

/-- The evaluation in flight ends the substitution of cell `n` (R104). -/
def State.subEnding (s : State) (n : Nat) : Bool :=
  (s.cell n).eval.any (·.subEnd) || (s.cell n).latched.any (·.sup.ends)

/-- PLAUS_CLEAR (R104): ends a substitution without a fault when OK_RUN is at least NR; one that comes
after the ending evaluation is discarded. -/
def execPlausClear (t : Instant) (n : Fin 1024) (s : State) : Out := .next (
  let s := s.advance t
  s.hostWrite (lcOff n 0x9C) (fun s =>
    if s.rd F.LC_SUP_STATUS_SUP_STATE n = 3 ∨ s.subEnding n = true ∨ s.rd F.LC_SUP_STATUS_OK_RUN n < s.nr n then
      s.wr F.LC_SUP_EVENT_CLEAR_REFUSED 1 n
    else if s.rd F.LC_SUP_STATUS_SUP_STATE n = 2 then
      (s.wr F.LC_SUP_STATUS_SUP_STATE 0 n).wr F.LC_SUP_EVENT_SUB_ENDED 1 n
    else s))

/-- ST_GO (R113): the self-test is queued until its condition holds. -/
def execStGo (t : Instant) (n : Fin 1024) (s : State) : Out := .next (
  let s := s.advance t
  s.hostWrite (lcOff n 0x9C) (fun s =>
    if s.rd F.LC_DIAG_ST_STATE n = 2 then s else s.wr F.LC_DIAG_ST_STATE 1 n))

/-- Whether a self-test may run on cell `n` now (R113). -/
def State.selfTestOk (s : State) (n : Nat) : Bool :=
  match s.ownerLC n with
  | none => true
  | some p => !s.on F.LC_CTRL_ENABLE n && s.inStop p

/-- A queued self-test starts (R113). -/
def execSelfTestBegin (t : Instant) (n : Fin 1024) (s : State) : Out := .next (
  let s := s.advance t
  if s.rd F.LC_DIAG_ST_STATE n = 1 ∧ s.selfTestOk n then s.wr F.LC_DIAG_ST_STATE 2 n else s)

/-- A self-test ends (R113): its result is shown; no bank, CS, odometer or SAFE_U changes. -/
def execSelfTestDone (t : Instant) (n : Fin 1024) (fail : Fin 5) (s : State) : Out := .next (
  let s := s.advance t
  if s.rd F.LC_DIAG_ST_STATE n = 2 then
    ((s.wr F.LC_DIAG_ST_STATE 3 n).wr F.LC_DIAG_ST_FAIL fail n).wr F.LC_SUP_EVENT_ST_DONE 1 n
  else s)

/-- ST_CANCEL (R113): withdraws a queued self-test, not a running one. -/
def execStCancel (t : Instant) (n : Fin 1024) (s : State) : Out := .next (
  let s := s.advance t
  s.hostWrite (lcOff n 0x9C) (fun s =>
    if s.rd F.LC_DIAG_ST_STATE n = 1 then s.wr F.LC_DIAG_ST_STATE 0 n else s))

end Sys2Proof.Machine
end

