-- ==== Sys2Proof/Machine/CkptOps.lean ====
section
/-! DEFINITION.  The warm-restart checkpoint and the Tandem snapshot: what they hold and how a
partition takes it back (17 R420, R422; 14 R354). -/

namespace Sys2Proof.Machine

open Sys2Proof

/-! ### What a checkpoint holds (17 R420) -/

/-- The registers of a generator that a checkpoint holds. -/
def genFields : List Fld := [F.PG_TARGET, F.PG_VMAX, F.PG_WIN_M1, F.PG_WIN_M2, F.PG_Q, F.PG_SP, F.PG_SP_DOT, F.PG_STATUS_DONE, F.PG_STATUS_DWELL, F.PG_STATUS_LIMITS_PENDING]

/-- The Treadle of partition `p` as a checkpoint holds it (05 R139). -/
def State.ckptTreadle (s : State) (p : Nat) : CkptTreadle :=
  { state := s.rd F.TR_STATUS_STATE p, step := s.rd F.TR_STEPS_CUR_STEP p, tau := s.tau p, causes := s.rd F.TR_STATUS_PAUSE_CAUSE p
    conds := (List.range 4).map (fun i => s.rd F.TR_COND (4 * p + i)) }

/-- The class P timer records of partition `p`'s program (11 R292). -/
def State.ckptTimers (s : State) (p : Nat) : List (Nat × List Byte) :=
  match (s.cycPart p).prog with
  | some g => (g.vars.filter (·.kind == 2)).map (fun v => (v.addr, s.varBytes p v))
  | none => []

/-- Partition `p` as a checkpoint holds it. -/
def State.ckptPart (s : State) (p : Nat) : CkptPart :=
  { part := p, state := s.rd F.CP_STATUS_STATE p, version := s.rd F.CP_VERSION p, timers := s.ckptTimers p, treadle := s.ckptTreadle p
    gens := (s.owned 1 p).map (fun n => ⟨n, s.on F.PG_CTRL n, genFields.map (s.rd · n), s.gen n⟩)
    cells := (s.owned 0 p).map (fun n => ⟨n, s.on F.LC_CTRL_ENABLE n, s.rd F.LC_CTRL_MODE n, s.rd F.LC_STATUS_ACTIVE_BANK n⟩)
    axes := (s.owned 2 p).map (fun n => ⟨n, s.on F.AX_CTRL_ENABLE n, s.rdI F.AX_POS n, s.rd F.AX_STATUS_HOMED n⟩)
    rejoin := (List.range 16).map (fun w => s.rd F.RJ_STATE (16 * p + w)) }

/-- Every odometer (03 R77, 06 R167, 09 R224). -/
def State.odometers (s : State) : List (Nat × Nat × Nat) :=
  ([F.LC_ODO, F.AX_ODO_STEPS, F.AX_ODO_MOVES, F.ODO_OUT, F.ODO_OUT_SAT] : List Fld).foldl
    (fun l f => l ++ (s.keysOf f).map (fun i => (f.id, i, s.rd f i))) []

/-- The checkpoint of now, with its SEQ. -/
def State.takeCheckpoint (s : State) (seq : Nat) : Checkpoint :=
  { seq := seq, k := s.now, comp := s.compensated, tai := s.rd F.WARP_STATUS_EPOCH == 1, beam := s.loom.digest.toNat % 2 ^ 128, manifest := s.sec.manifest.toNat % 2 ^ 128
    slots := (List.range 16).map (s.rd F.LP_STATUS_ACTIVE ·), cycles := (List.range 4).map (fun r => (s.ring r).nextCycle)
    consumed := (List.range 17).map (s.rd F.SKS_CONSUMED ·), parts := (List.range 16).map s.ckptPart, odo := s.odometers, odoWrites := s.cyc.odoWrites }

/-! ### Taking it back -/

/-- A generator as a checkpoint holds it. -/
def State.restoreGen (s : State) (c : CkptGen) : State :=
  let s := (s.putGen c.gen c.body).wr F.PG_CTRL (b2n c.enabled) c.gen
  let s := s.wr F.PG_STATUS_RUNNING (b2n c.enabled) c.gen
  ((genFields.zip c.values).foldl (fun s e => s.wr e.1 e.2 c.gen) s).genShadowReset c.gen

/-- A loop cell re-enabled as a checkpoint shows: it starts as on enable (17 R420). -/
def State.restoreCell (s : State) (c : CkptCell) : State :=
  let s := (s.wr F.LC_CTRL_MODE c.mode c.cell).wr F.LC_STATUS_ACTIVE_BANK c.bank c.cell
  if c.enabled then ((s.wr F.LC_CTRL_ENABLE 1 c.cell).startCell c.cell).wakeQuadrant (c.cell / 256) else s

/-- An axis IDLE at its checkpointed position, or DISABLED there; without feedback HOMED is not kept, with it
the first evaluation decides (06 R168). -/
def State.restoreAxis (s : State) (c : CkptAxis) : State :=
  let homed := if s.hasFeedback c.axis then c.homed else 0
  let s := (s.wrI F.AX_POS c.pos c.axis).wr F.AX_STATUS_HOMED homed c.axis
  if c.enabled then
    let s := (s.wr F.AX_CTRL_ENABLE 1 c.axis).onAxis c.axis (fun x => { x with traj := [], hold := c.pos, eval := none, homing := none, checkHomed := true, relAt := s.now })
    (s.putAxState c.axis 1).wakeQuadrant (c.axis / 32)
  else s.onAxis c.axis (fun x => { x with hold := c.pos, checkHomed := true })

/-- The Treadle of a checkpoint in a table that holds its step: it stages that step on demand and
commits it at the first tick at or after now + BRANCH_NS (17 R422). -/
def State.restoreTreadle (s : State) (p : Nat) (c : CkptTreadle) : State :=
  if c.state = 1 ∨ c.state = 2 then
    let s := (s.wr F.TR_STATUS_STATE 1 p).wr F.TR_STATUS_PAUSE_CAUSE c.causes p
    let s := (s.wr F.TR_STEPS_CUR_STEP c.step p).stage p c.step
    let s := s.putTreadle p { s.treadle p with resume := some c }
    s.schedule p (some (tickFrom (s.tickNs p) (addNs s.now (s.rd F.TR_TIMING_BRANCH_NS p)), .commit)) |>.settle
  else s

/-- The words of RJ_STATE of a checkpoint (17 R422). -/
def State.restoreRejoin (s : State) (c : CkptPart) : State :=
  ((List.range 16).zip c.rejoin).foldl (fun s e => s.wr F.RJ_STATE e.2 (16 * c.part + e.1)) s

/-! ### The Tandem snapshot (14 R354) -/

/-- The snapshot of the covered partitions. -/
def State.takeSnapshot (s : State) : Snapshot :=
  let ps := (List.range 16).filter s.covered
  { parts := ps.map s.ckptPart
    cells := ((ps.map (s.owned 0 ·)).flatten).map (fun n =>
      let c := s.cell n
      ⟨n, s.cs n, c.j, c.lastMove, c.yms, c.warmupLeft, c.uHist⟩)
    tasks := ((ps.map cycTasks).flatten).map (fun k => (k, (s.cycTask k).out, (s.cycTask k).ret)) }

/-- A loop cell's law and model state put back. -/
def State.restoreSnapCell (s : State) (c : SnapCell) : State :=
  let s := s.putCell c.cell { s.cell c.cell with j := c.level, lastMove := c.move, yms := c.yms, warmupLeft := c.warmup, uHist := c.uHist }
  ((s.putCs c.cell c.cs).wr F.LC_STATUS_LEVEL c.level c.cell).settle

/-- The Treadle as it stands in a snapshot: in its step, with its τ. -/
def State.restoreStep (s : State) (p : Nat) (c : CkptTreadle) : State :=
  let s := ((s.wr F.TR_STATUS_STATE c.state p).wr F.TR_STATUS_PAUSE_CAUSE c.causes p).wr F.TR_STEPS_CUR_STEP c.step p
  let s := ((List.range 4).zip c.conds).foldl (fun s e => s.wr F.TR_COND e.2 (4 * p + e.1)) s
  let s := s.wrT F.TR_COMMIT (s.now - BitVec.ofNat 64 c.tau) p
  s.putTreadle p { s.treadle p with paused := 0, credit := 0, pausedAt := if c.state = 2 then some s.now else none, lastEval := none }

/-- The snapshot taken by the joining unit: every covered partition as the holder has it. -/
def State.restoreSnapshot (s : State) (x : Snapshot) : State :=
  let s := x.parts.foldl (fun s c =>
    let s := (c.gens.foldl State.restoreGen s).restoreRejoin c
    let s := (c.axes.foldl State.restoreAxis (c.cells.foldl State.restoreCell s)).restoreStep c.part c.treadle
    let s := c.timers.foldl (fun s e => s.partStore c.part e.1 e.2) s
    s.wr F.CP_STATUS_STATE c.state c.part) s
  let s := x.cells.foldl State.restoreSnapCell s
  (x.tasks.foldl (fun s e => s.putCycTask e.1 { s.cycTask e.1 with out := e.2.1, ret := e.2.2 }) s).settle.runChange

end Sys2Proof.Machine
end

