-- ==== Sys2Proof/Machine/ResetOps.lean ====
section
/-! DEFINITION.  The beginning of a device reset: what survives it (17 R413 to R415, R423; 15
R394; 18 R444). -/

namespace Sys2Proof.Machine

open Sys2Proof

/-- The reset and boot controller changed by `f`. -/
def State.onBoot (s : State) (f : BootCtl → BootCtl) : State := { s with boot := f s.boot }

/-! ### What survives -/

/-- Registers whose value is kept in MRAM, flash or OTP, but for the odometers, which step 5 of
the boot takes from a checkpoint or the odometer area. -/
def keptFields : List Nat :=
  [F.SYS_GRADE, F.SK_EPOCH, F.SKS_SEQ, F.CS_CAP_SEQ, F.LP_STATUS_ACTIVE, F.LP_JSEQ, F.DS_STATE_STATE, F.DS_VERSION, F.DS_SIZE_FRAMES,
   F.DS_SIZE_UNITS16, F.DS_NAME, F.CP_RETAIN_SEQ, F.SAF_MATRIX_WRITES, F.SEC_STATUS_LIFECYCLE, F.SEC_STATUS_REVOKED,
   F.SEC_STATUS_PROGRAMMED, F.SEC_SERIAL, F.SEC_FW_FLOOR, F.SEC_BEAM_FLOOR, F.SEC_MATRIX_FLOOR, F.SEC_SAFEPROG_FLOOR, F.SEC_AUTHOR_KEYS,
   F.SEC_RING_KEYS_KEYED, F.SEC_RECIPE_FLOOR, F.SEC_DRAFT_FLOOR, F.SEC_PROG_FLOOR, F.UPD_STATUS_CHECK_RESULT, F.UPD_STATUS_ACTIVE_SLOT,
   F.UPD_STATUS_STATE, F.UPD_ACT_T, F.UPD_SLOT_A_FW_SVN, F.UPD_SLOT_A_STATE, F.UPD_SLOT_B_FW_SVN, F.UPD_SLOT_B_STATE, F.BUNDLE_VER_A,
   F.BUNDLE_VER_B, F.CKPT_SEQ, F.CKPT_T, F.LIFE_HOURS, F.LIFE_TJ_AVG, F.LIFE_VCORE_AVG, F.PMB_CFG_CORE_ADDR].map (·.id)

/-- Registers that outlast a reset at which the Warp is kept: its epoch, and the settings of the
boot, which PD_AON holds and which would otherwise never be in effect (DEDUCED; assumption 42). -/
def heldFields : List Nat :=
  [F.WARP_STATUS_EPOCH, F.RST_CFG_SYNC_WAIT_MS, F.RST_CFG_WDT_MS, F.RST_CFG_WARM_EN, F.RESUME_CFG_RESUME_UNTIMED, F.RESUME_CFG_RESUME_MS].map (·.id)

/-- The register file after a reset: what is kept, and every other field at its reset value. -/
def State.keptRegs (s : State) (warp : Bool) : Tbl (Tbl Nat) :=
  (s.regs.entries.filter (fun e => keptFields.contains e.1 || (warp && heldFields.contains e.1))).foldl (fun t e => t.set e.1 e.2) State.reset.regs

/-- The Warp after a reset (R413): kept, it counts on at the standing rate of reset; cleared, it
restarts from 0. -/
def State.keptWarp (s : State) (kept : Bool) : Warp :=
  if kept then { State.reset.warp with now := s.warp.now, frac := s.warp.frac, removed := s.warp.removed } else State.reset.warp

/-- A stream's slot in MRAM (07 R180, R189). -/
def keptStream (x : Stream) : Stream := { Stream.init with headHash := x.headHash, everSealed := x.everSealed }

/-- A ring's reservation in MRAM (12 R315). -/
def keptRing (x : Ring) : Ring := { Ring.init with reserve := x.reserve, reserveOk := x.reserveOk }

/-- The state in which a device reset leaves the device: what MRAM, flash, EEPROM and OTP hold,
the Warp where it is kept, and nothing else. -/
def State.restart (s : State) (kept : Bool) : State :=
  { State.reset with
    regs := s.keptRegs kept
    warp := s.keptWarp kept
    power := { Power.init with since := if kept then s.compensated else 0 }
    skein := { State.reset.skein with streams := ⟨s.skein.streams.entries.map (fun e => (e.1, keptStream e.2))⟩ }
    loom := { State.reset.loom with drafts := s.loom.drafts, journals := s.loom.journals }
    cyc := { State.reset.cyc with banks := s.cyc.banks, odo := s.cyc.odo, odoAt := s.cyc.odoAt, odoWrites := s.cyc.odoWrites }
    island := { Island.init with eeprom := s.island.eeprom }
    sec := { s.sec with nonce := none, debugEnd := 0, running := none, ringPending := .empty }
    host := { HostPaths.init with items := s.host.items }
    rings := ⟨s.rings.entries.map (fun e => (e.1, keptRing e.2))⟩
    boot := { BootCtl.init with powered := s.boot.powered, ckpts := s.boot.ckpts, next := s.boot.next }
    freeCtr := s.freeCtr
    pending := s.pending }

/-- A device reset begins, with its cause of Table 17.1. -/
def State.beginReset (s : State) (cause : Nat) : State :=
  let kept := decide (1 ≤ cause) && decide (cause ≤ 4)
  ((s.restart kept).wr F.RST_CAUSE_CAUSE cause).wr F.RST_CAUSE_WARP_KEPT (b2n kept)

end Sys2Proof.Machine
end

