-- ==== Sys2Proof/Machine/Power.lean ====
section
/-! DEFINITION.  The commands of the power controller and the Lull port (16). -/

namespace Sys2Proof.Machine

open Sys2Proof

/-! ### Selection (R400) -/

/-- The end of backoffs: the state is selected again. -/
def execBackoffEnd (t : Instant) (s : State) : Out := .next (
  let s := s.advance t
  if s.power.backoff.entries.any (fun e => notLater e.2 s.now) then
    (s.onPower (fun w => { w with backoff := ⟨w.backoff.entries.filter (fun e => !notLater e.2 s.now)⟩ })).select
  else s)

/-- The end of WAKE_HOLD_MS: the state is selected again. -/
def execWakeHoldEnd (t : Instant) (s : State) : Out := .next (
  let s := s.advance t
  if s.power.holdEnd.any (fun e => notLater e s.now) then (s.onPower (fun w => { w with holdEnd := none })).select else s)

/-- Where a register of R400 lies. -/
def TolReg.offset : TolReg → Nat
  | .device => 0xE0000C
  | .part p => 0xE00100 + 8 * p.val
  | .ctrl => 0xE00000

/-- A tolerance or PWR_CTRL written: a handshake whose target no longer fits is aborted with
refuser TOLERANCE (R412), and outside one the state is selected again; BOOST biases the state (R398). -/
def execPwrTolWrite (t : Instant) (r : TolReg) (value : Word) (s : State) : Out := .next (
  (s.advance t).hostWrite (TolReg.offset r) (fun s =>
    let s := match r with
      | .device => s.wr F.PWR_TOL_DEV value.toNat
      | .part p => s.wr F.PWR_PART_TOL value.toNat p.val
      | .ctrl =>
        let s := (s.wr F.PWR_CTRL_MAX_STATE (value.toNat / 2 ^ 4)).wr F.PWR_CTRL_BOOST (value.toNat / 2)
        s.putBias (s.rd F.PWR_STATUS_STATE)
    if s.rd F.PWR_STATUS_PHASE = 1 then (if s.stateFits (s.rd F.PWR_STATUS_TARGET) then s else s.entryFails 0x0D 2)
    else s.select))

/-! ### The handshake (R402 to R404) -/

/-- What a block answers. -/
inductive BlockSays where
  | grant
  | refuse
  | delay
  deriving DecidableEq, Repr

/-- Some capture set is in one of the states. -/
def State.anySet (s : State) (sts : List Nat) : Bool := (List.range 32).any (fun n => sts.contains (s.rd F.CS_STATUS_STATE n))

/-- Every partition with a loaded program has a retain commit of this handshake (R399). -/
def State.entryCommitted (s : State) : Bool :=
  s.loaded.all (fun p => (s.cycPart p).commit.isNone && (s.bankInForce p).any (fun b => notLater s.power.askedAt b.at_))

/-- Every open block sealed and written to DRAM. -/
def State.streamsWritten (s : State) : Bool :=
  s.skein.streams.entries.all (fun e => e.2.recs.isEmpty && e.2.runs.isEmpty && e.2.burst.isEmpty && e.2.region.all (fun b => b.phase != .writing))

/-- Table 16.4: what block `code` answers for target `x`. -/
def State.blockSays (s : State) (code x : Nat) (busy : Bool) : BlockSays :=
  let deep := decide (3 ≤ x)
  let refuseIf := fun (b : Bool) => if b then BlockSays.refuse else .grant
  let delayIf := fun (b : Bool) => if b then BlockSays.delay else .grant
  match code with
  | 0x01 => refuseIf (if deep then !s.sched.tasks.entries.isEmpty
      else s.sched.tasks.entries.any (fun e => e.2.phase == .ready || e.2.phase == .running || e.2.phase == .parked) ||
        s.sched.fifos.entries.any (fun e => !e.2.isEmpty))
  | 0x02 =>
    if s.partRefuses x busy then .refuse else delayIf (deep && !s.entryCommitted)
  | 0x03 =>
    if x = 2 then refuseIf (s.anySet [3, 4])
    else if x = 3 then delayIf (!s.streamsWritten)
    else delayIf (s.anySet [4] || (List.range 17).any (fun k => s.on F.SKS_STATUS_RESIDENT k))
  | 0x04 => refuseIf ((List.range 4).any (fun r => [1, 2, 4, 5].contains (s.rd F.RING_STATUS_STATE r)))
  | 0x05 => refuseIf (s.inPair && s.role != 4)
  | 0x06 => refuseIf (if deep then s.on F.SAF_SOUT_STATE_ENERGISED else s.rd F.SAF_STATUS_PHASE == 3 || s.rd F.SAF_STATUS_PHASE == 4)
  | 0x07 => refuseIf (busy || (List.range 17).any (fun m => !(s.waiting m).isEmpty) || (List.range 16).any (fun m => s.rd F.MBX_DB m != s.rd F.MBX_STATE_CONS m) ||
      (deep && (s.rd F.UPD_STATUS_STATE == 1 || s.rd F.UPD_STATUS_STATE == 3)))
  | 0x08 => if deep && s.on F.SEC_STATUS_DEBUG_LEVEL then .refuse else delayIf (s.on F.SK_STATUS_CKPT_PENDING)
  | 0x09 => delayIf s.rot.calibrating.isSome
  | 0x0A => delayIf busy
  | _ => delayIf (deep && busy)

/-- DEEP_SLEEP entered (02 Coarse Warp, R399; 13 R342): VDD_CORE at RET_MV, the Warp coarse, the
island off. -/
def State.enterDeep (s : State) : State :=
  let s := (s.putPwrState 3).setVolt (min s.vmin (max 550 (s.rd F.PWR_WAKE_CFG_RET_MV)))
  let s := { s with warp := { s.warp with coarseStart := s.now, coarseQuarter := 0 } }
  let s := (s.wr F.WARP_STATUS_COARSE 1).wr F.PWR_STATUS_LOOM_ON 0
  (s.onPower (fun w => { w with rising := [] })).restartIsland.toStart

/-- The commit point of an entry (R402): the domains of the target state are powered down. -/
def State.commitEntry (s : State) : State :=
  let x := s.rd F.PWR_STATUS_TARGET
  let s := (s.wr F.PWR_STATUS_PHASE 0).wr F.PWR_STATUS_TARGET 0
  let s := match x with
    | 2 => s.putPwrState 2
    | 3 => s.enterDeep
    | _ =>
      let s := (s.putPwrState 4).restartIsland.toStart
      { s with sram := ⟨[]⟩, dram := ⟨[]⟩, dlm := ⟨[]⟩ }
  s.each (List.range 4) State.syncRing

/-- The block now asked answers (R402): a refusal ends the entry; a grant passes to the next
block, or, where a wake was latched, ends the entry too; the last grant is the commit point.  PART
begins the commits of R399 and grants once they are made, with the odometers and a checkpoint
written. -/
def execBlockAnswer (t : Instant) (busy : Bool) (s : State) : Out := .next (
  let s := s.advance t
  let x := s.rd F.PWR_STATUS_TARGET
  match s.rd F.PWR_STATUS_PHASE, askOrder[s.power.granted]? with
  | 1, some code =>
    match s.blockSays code x busy with
    | .refuse => s.entryFails code 0
    | .delay => if code = 2 then s.each s.loaded (fun s p => if (s.cycPart p).commit.isNone then s.beginCommit p false else s) else s
    | .grant =>
      if s.on F.PWR_STATUS_WAKE_PEND then s.entryFails 0xFE 2
      else
        let s := if code = 2 ∧ 3 ≤ x then
            let s := s.saveOdometers
            let c := s.takeCheckpoint (s.rd F.CKPT_SEQ + 1)
            let s := { s with boot := { s.boot with ckpts := s.boot.ckpts.set s.boot.next c, next := (s.boot.next + 1) % 16 } }
            (s.wr F.CKPT_SEQ c.seq).wrT F.CKPT_T c.k
          else s
        let s := s.onPower (fun w => { w with granted := w.granted + 1, askedAt := s.now })
        if s.power.granted = askOrder.length then s.commitEntry else s
  | _, _ => s)

/-- The answer is overdue: the entry aborts with CAUSE 1. -/
def execEntryTimeout (t : Instant) (s : State) : Out := .next (
  let s := s.advance t
  match s.rd F.PWR_STATUS_PHASE, askOrder[s.power.granted]? with
  | 1, some code =>
    if 1000 * ((max 100 (s.rd F.PWR_ENTRY_CFG_ENTRY_TMO_US) : Nat) : Int) ≤ sinceNs s.now s.power.askedAt then s.entryFails code 1 else s
  | _, _ => s)

/-! ### Wakes (R405 to R410) -/

/-- An external wake with code `code`, enabled or not, that acts in SLEEP, in DEEP_SLEEP where
`deep`, and during an entry to such a state (R405, Table 16.5). -/
def State.externalWake (s : State) (code : Nat) (enabled deep : Bool) : State :=
  let x := if s.rd F.PWR_STATUS_PHASE = 1 then s.rd F.PWR_STATUS_TARGET else s.rd F.PWR_STATUS_STATE
  if enabled && (x == 2 || (x == 3 && deep)) then s.wake code else s

/-- A Lull error (R407 to R409). -/
def State.lullError (s : State) : State := (s.bump F.LULL_CNT_ERR).pwrFlag 6

/-- CHK of a Lull frame. -/
def lullChk (f : BitVec 16) : Nat := (f.toNat / 2 ^ 12 % 16).xor ((f.toNat / 2 ^ 8 % 16).xor (f.toNat / 2 ^ 4 % 16))

/-- A Lull frame (R407 to R409): in OFF the port has no power. -/
def execLullFrame (t : Instant) (frame : BitVec 16) (bothHigh : Bool) (s : State) : Out := .next (
  let s := s.advance t
  let addr := frame.toNat / 2 ^ 8
  let cmd := frame.toNat / 2 ^ 4 % 16
  if s.rd F.PWR_STATUS_STATE = 4 then s
  else if bothHigh || frame.toNat % 16 != lullChk frame then s.lullError
  else
    let s := s.wr F.LULL_STATUS_LAST_ADDR addr
    if addr = s.rd F.LULL_CFG_ADDR ∨ (addr = 0xFF ∧ s.on F.LULL_CFG_BCAST_EN) then
      let s := (s.wr F.LULL_STATUS_LAST_CMD cmd).bump F.LULL_CNT_MATCH
      match cmd with
      | 1 => if s.rd F.PWR_STATUS_STATE ≤ 1 ∧ s.rd F.PWR_STATUS_PHASE = 0 then s.beginHold else s.externalWake 1 (s.on F.PWR_WAKE_EN_LULL) true
      | 2 => s.pwrFlag 5
      | _ => s.lullError
    else s)

/-- A gap of 4 crystal periods inside a Lull frame (R408): an error. -/
def execLullFrameGap (t : Instant) (s : State) : Out := .next (
  let s := s.advance t
  if s.rd F.PWR_STATUS_STATE = 4 then s else s.lullError)

/-- WAKE_N low (R410): a wake from SLEEP and DEEP_SLEEP where enabled, and always from OFF, which
starts the boot, with up to three attempts after an escalation (R411). -/
def execWakeN (t : Instant) (lowUs : Nat) (takes : Bool) (s : State) : Out := .next (
  let s := s.advance t
  if decide (50 ≤ lowUs) || (decide (10 ≤ lowUs) && takes) then
    if s.rd F.PWR_STATUS_STATE = 4 then (s.beginReset 5).onPower (fun w => { w with retries := b2n s.power.escalated }) else s.externalWake 2 (s.on F.PWR_WAKE_EN_WAKE_N) true
  else s)

/-- The Warp at PWR_ALARM; in DEEP_SLEEP at the first crystal edge at or after it. -/
def execAlarm (t : Instant) (s : State) : Out := .next (
  let s := s.advance t
  let at_ := s.rdT F.PWR_ALARM
  if s.now = at_ ∨ (s.on F.WARP_STATUS_COARSE = true ∧ notLater at_ s.now = true) then s.externalWake 3 (s.on F.PWR_WAKE_EN_ALARM) true else s)

/-- A BAR0 access or a PCIe L1 exit wakes from SLEEP. -/
def execHostWake (t : Instant) (s : State) : Out := .next ((s.advance t).externalWake 4 (s.on F.PWR_WAKE_EN_HOST) false)

/-! ### Exits (R397, R411) -/

/-- Quadrant `q` powered and released (R396): its logic elements take their inputs again. -/
def State.releaseQuadrant (s : State) (q : Nat) : State :=
  let s := s.onPower (fun w => { w with rising := w.rising.filter (· != q) })
  let s := s.wr F.PWR_STATUS_LOOM_ON (putBit (s.rd F.PWR_STATUS_LOOM_ON) q true)
  let les := (s.recsOf q 3).map (fun e => keyNumber e.1)
  (s.each les (fun s n => s.evalLe n s.now)).settle

/-- The end of DEEP_SLEEP (02 R48, R57; 13 R342): the fine Warp goes on from the coarse count,
VDD_CORE starts at BOOT_MV, the quadrants in use whose scan was not reported (QUADRANT_READY) are clean
and released, and the island starts in START. -/
def State.leaveDeep (s : State) : State :=
  if s.on F.WARP_STATUS_COARSE then
    let ns := (sinceNs s.now s.warp.coarseStart).toNat
    let s := (s.wr F.WARP_STATUS_COARSE 0).wr F.COARSE_NS ns
    let s := (s.warpEvent F.WARP_EVENT_COARSE_USED 6 0 (leBytes 8 ns)).startVolt
    ((s.each s.power.rising State.releaseQuadrant).startProgram true).toStart
  else s

/-- The exit completes: the device is in RUN, and WAKE_HOLD_MS begins. -/
def execWakeDone (t : Instant) (s : State) : Out := .next (
  let s := s.advance t
  if s.rd F.PWR_STATUS_PHASE = 2 then
    let s := ((s.putPwrState 0).wr F.PWR_STATUS_PHASE 0).wr F.PWR_STATUS_WAKE_PEND 0
    let s := if s.on F.PWR_STATUS_FAULT then
        let left := putBit (s.rd F.SYS_DEVFAULT) 4 false
        { (s.wr F.PWR_STATUS_FAULT 0).wr F.SYS_DEVFAULT left with warp := { s.warp with faultN := left != 0 } }
      else s
    let s := (s.leaveDeep.each (List.range 4) State.syncRing).onPower (fun w => { w with retries := 0, retryAt := none })
    ((s.pwrFlag 2).beginHold).runChange
  else s)

/-- The attempt fails (R411): the state it was waking from, and a retry, at most three; after the
third FAULT_N, and DEEP_SLEEP. -/
def execWakeTimeout (t : Instant) (s : State) : Out := .next (
  let s := s.advance t
  let ms := if s.rd F.PWR_WAKE_CFG_WAKE_TMO_MS = 0 then 20 else s.rd F.PWR_WAKE_CFG_WAKE_TMO_MS
  if s.rd F.PWR_STATUS_PHASE = 2 ∧ 1000000 * (ms : Int) ≤ sinceNs s.now s.power.wakeAt then
    let s := ((s.wr F.PWR_STATUS_PHASE 0).bump F.PWR_WAKE_FAIL_CNT).pwrFlag 3
    let s := if s.rd F.PWR_STATUS_STATE = 3 then (s.wr F.PWR_STATUS_LOOM_ON 0).onPower (fun w => { w with rising := [] }) else s
    if s.power.retries < 3 then s.onPower (fun w => { w with retryAt := some (addNs s.now (1000000 * s.rd F.PWR_WAKE_CFG_WAKE_RETRY_MS)) })
    else
      let s := (s.onPower (fun w => { w with escalated := true, retryAt := none })).wr F.PWR_STATUS_FAULT 1
      let s := (s.pwrFlag 4).devFault 4
      if s.rd F.PWR_STATUS_STATE = 2 then s.enterDeep else s
  else s)

/-- The wake is tried again. -/
def execWakeRetry (t : Instant) (s : State) : Out := .next (
  let s := s.advance t
  if s.power.retryAt.any (fun r => notLater r s.now) then (s.onPower (fun w => { w with retries := w.retries + 1 })).beginExit else s)

/-- A powered quadrant has been scanned: its nets are released (R396). -/
def execQuadrantReady (t : Instant) (q : Fin 4) (bad : List (Nat × Bool)) (s : State) : Out := .next (
  let s := s.advance t
  if s.power.rising.contains q.val then (bad.foldl (fun s e => s.scanError e.1 e.2) s).releaseQuadrant q.val else s)

end Sys2Proof.Machine
end

