-- ==== Sys2Proof/Machine/BeamLoad.lean ====
section
/-! DEFINITION.  Loading the Beam at start (09 R225 to R230), the draft library and the journals
(09 R237, R240). -/

namespace Sys2Proof

/-- FADDR of a frame's first record. -/
def BeamFrame.faddr (f : BeamFrame) : Nat := Machine.recKey f.space f.kind f.index

/-- The partition that OWNER of a frame names. -/
def BeamFrame.part (f : BeamFrame) : Option Nat := if f.owner < 16 then some f.owner else none

/-- The records of a frame: FADDR and content. -/
def BeamFrame.records (f : BeamFrame) : List (Nat × Nat) :=
  match Machine.recBytesOf f.space f.kind with
  | some n => (List.range (f.len / n)).map (fun i => (f.faddr + i, Machine.bytesAt f.payload (i * n) n))
  | none => []

/-- A frame as Table 9.7 and Table 9.8 want it (Table 9.12, result 4). -/
def BeamFrame.formed (f : BeamFrame) : Bool :=
  match Machine.recBytesOf f.space f.kind with
  | some n =>
    decide (1 ≤ f.len) && decide (f.len ≤ 4096) && f.len % n == 0 && (List.range (f.len / n)).all (fun i => Machine.recIndexOk f.space f.kind (f.index + i)) &&
    decide (f.ftype ≤ 1) && (decide (f.owner < 16) || f.owner == 0xFF) && f.crcOk
  | none => false

/-- The body bytes that a load with result `r` has processed: none before the body is read, the frames
before the first that fails its check, or the whole body (assumption 79). -/
def BeamImg.processed (b : BeamImg) (r : Nat) : Nat :=
  let good := b.frames.takeWhile (·.formed)
  if r < 4 ∧ r ≠ 0 then 0
  else if r = 4 ∧ good.length < b.frames.length then (good.map (fun f => 32 + f.len)).sum
  else b.bodyBytes

end Sys2Proof

namespace Sys2Proof.Machine

open Sys2Proof

/-! ### The order of frames (R226) -/

/-- CONFIG frames ascend without overlap from FADDR `next` on, and each MUTMASK frame follows the
CONFIG frame of its FADDR and LEN, the last one being `prev`. -/
def framesOrdered (prev : Option (Nat × Nat)) (next : Nat) : List BeamFrame → Bool
  | [] => true
  | f :: rest =>
    if f.ftype = 0 then decide (next ≤ f.faddr) && framesOrdered (some (f.faddr, f.len)) (f.faddr + f.records.length) rest
    else prev == some (f.faddr, f.len) && framesOrdered none next rest

/-! ### What a resource reads (01 R21) -/

/-- Whether partition `p` may read number `x` of a class: 0 FIO pin, 1 AIN, 2 ring input byte,
3 value route, 4 event route, which may be exported to it; 5 loop cell, 6 axis, 7 generator, 8
logic element, 9 discrete output, 10 ring output byte, 11 Treadle by its partition, 12 mask unit, 13
capture set, which must be its own. -/
def State.canRead (s : State) (p : Nat) (r : Nat × Nat) : Bool :=
  let x := r.2
  match r.1 with
  | 0 => s.mayRead p (pinKey x) x
  | 1 => s.mayRead p (pinKey (256 + x)) (2 ^ 28 + x)
  | 2 => s.readsRing p (x / 16384) (x % 16384)
  | 3 => s.mayRead p (vrKey x) (3 * 2 ^ 28 + x)
  | 4 => s.mayRead p (erKey x) (4 * 2 ^ 28 + x)
  | 5 => s.owner (loopKey x) == some p
  | 6 => s.owner (axisKey x) == some p
  | 7 => s.owner (genKey x) == some p
  | 8 => s.owner (leKey x) == some p
  | 9 => s.owner (outKey x) == some p
  | 10 => s.owner (recKey 4 10 x) == some p
  | 11 => x == p
  | 12 => s.owner (maskKey x) == some p
  | _ => s.owner (csetKey x) == some p

/-- Bytes of ring input. -/
def ringReads (r o n : Nat) : List (Nat × Nat) := (List.range n).map (fun i => (2, 16384 * r + (o + i) % 16384))
/-- Bytes of ring output. -/
def ringOutReads (r o n : Nat) : List (Nat × Nat) := (ringReads r o n).map (fun e => (10, e.2))

/-- What a net selector reads (Table 9.4): partition status and STATION_OK are everyone's. -/
def netReads (sel : Nat) : List (Nat × Nat) :=
  let x := sel % 2 ^ 28
  match sel / 2 ^ 28 with
  | 1 => [(8, x)]
  | 2 => [(0, x)]
  | 3 => [(2, 16384 * (x / 131072) + x % 131072 / 8)]
  | 4 => [(5, x)]
  | 5 => [(9, x)]
  | _ => []

/-- What a recorder or capture source reads (07 Table 7.1). -/
def signalReads (kind signal ring id : Nat) : List (Nat × Nat) :=
  match kind with
  | 0 => [(5, id)]
  | 1 => [(6, id)]
  | 2 => [(3, id)]
  | 3 => [(4, id)]
  | 4 => [(1, id)]
  | 5 => [(0, id)]
  | 6 => if signal = 0 then ringReads ring id 4 else ringOutReads ring id 4
  | _ => []

/-- What a switch selector of an axis reads (06, AX_HOME_SRC): an FIO pin or a ring input bit. -/
def switchReads (sel : Nat) : List (Nat × Nat) :=
  match sel / 2 ^ 30 with
  | 0 => [(0, sel % 2 ^ 8)]
  | 1 => ringReads (sel / 2 ^ 28 % 4) (sel / 2 ^ 13 % 2 ^ 14) 1
  | _ => []

/-- What loop cell `n` reads (03 Tables 3.3, 3.4). -/
def State.cellReads (s : State) (n : Nat) : List (Nat × Nat) :=
  let sp := s.rd F.LC_SRC_SP_ID n
  let y := s.rd F.LC_SRC_Y_ID n
  (match s.rd F.LC_ROUTE_SP_SRC n with | 1 => [(7, sp)] | 2 => [(5, sp)] | 3 => [(3, sp)] | _ => []) ++
  (match s.rd F.LC_ROUTE_Y_KIND n with
    | 0 => [(1, y)]
    | 1 => ringReads (s.rd F.LC_DEST_RING n) y (if s.on F.LC_ROUTE_Y_WIDE n then 4 else 2)
    | 2 => [(3, y)]
    | _ => [])

/-- What axis `n` reads: its feedback and its switches (06). -/
def State.axisReads (s : State) (n : Nat) : List (Nat × Nat) :=
  let fb := s.rd F.AX_FB n
  (match s.rd F.AX_ROUTE_FB_KIND n with
    | 1 => [(0, fb), (0, fb + 1)]
    | 2 => ringReads (s.rd F.AX_ROUTE_RING n) fb 4
    | _ => []) ++
  switchReads (s.rd F.AX_HOME_SRC n) ++ switchReads (s.rd F.AX_LIMP_SRC n) ++ switchReads (s.rd F.AX_LIMN_SRC n)

/-- What trigger sequencer `n` reads (08): its counters and conditions. -/
def State.seqReads (s : State) (n : Nat) : List (Nat × Nat) :=
  ((List.range 16).filterMap (fun x => if s.rd F.TS_ST_CFG_CNT_KIND (16 * n + x) = 1 then some (4, s.rd F.TS_ST_CFG_CNT_SRC (16 * n + x)) else none)) ++
  ((List.range 64).filterMap (fun x =>
    let k := 64 * n + x
    match s.rd F.TS_COND_CFG_KIND k with
    | 1 => some (3, s.rd F.TS_COND_CFG_SRC k)
    | 2 => some (4, s.rd F.TS_COND_CFG_SRC k)
    | _ => none))

/-- What a route's source reads (Table 9.9); a program output variable and an event of a program or
of the scheduler name no resource (assumption 79). -/
def routeReads (event : Bool) (src : Nat) : List (Nat × Nat) :=
  let x := src % 2 ^ 28
  match event, src / 2 ^ 28 with
  | false, 0 => [(5, x)]
  | false, 1 => [(5, x)]
  | false, 2 => [(7, x)]
  | false, 3 => [(6, x)]
  | false, 4 => [(1, x)]
  | false, 5 => ringReads (x / 2 ^ 26) (x % 2 ^ 14) 4
  | true, 0 => [(0, x % 2 ^ 26)]
  | true, 1 => [(8, x % 2 ^ 26)]
  | true, 2 => [(5, x)]
  | true, 3 => [(6, x)]
  | true, 4 => [(11, x)]
  | true, 5 => [(12, x)]
  | true, 6 => [(13, x)]
  | _, _ => []

/-- What the resource of a record reads. -/
def State.recReads (s : State) (key : Nat) : List (Nat × Nat) :=
  let n := keyNumber key
  if keySpace key < 4 then
    match keyKind key with
    | 0 => s.cellReads n
    | 2 => s.axisReads n
    | 3 => ((List.range 4).map (fun i => netReads (s.cfg key (8 + 4 * i) 4))).flatten
    | 4 => routeReads false (s.cfg key 0 4)
    | 5 => routeReads true (s.cfg key 0 4)
    | _ => []
  else if keySpace key = 4 then
    match keyKind key with
    | 1 => if s.cfg key 8 1 = 5 ∨ bitOf (s.cfg key 9 1) 1 then netReads (s.cfg key 4 4) else []
    | 2 => signalReads (s.rd F.TAP_SRC_KIND n) (s.rd F.TAP_SRC_SIGNAL n) (s.rd F.TAP_SRC_RING n) (s.rd F.TAP_SRC_ID n)
    | 3 => s.seqReads n
    | 5 => signalReads (s.rd F.CH_SRC_KIND n) (s.rd F.CH_SRC_SIGNAL n) (s.rd F.CH_SRC_RING n) (s.rd F.CH_SRC_ID n)
    | 6 => [(3, s.rd F.MU_SRC n)]
    | _ => []
  else []

/-- The partition for which a record's resource reads: the stream's for a tap, none for a tap of
the system stream (07 R170); the partition of its set for a capture channel (08 R191). -/
def State.readerOf (s : State) (key : Nat) (r : BeamRec) : Option Nat :=
  if keySpace key = 4 ∧ keyKind key = 2 then
    let k := s.rd F.TAP_SRC_STREAM (keyIndex key)
    if k < 16 then some k else none
  else if keySpace key = 4 ∧ keyKind key = 5 then
    let k := s.rd F.CH_SRC_SET (keyIndex key)
    if k < 32 then s.owner (tseqKey k) else none
  else r.owner

/-! ### The reference checks (Table 9.12, result 7) -/

/-- The words of a register image that may be nonzero byte by byte: the bits of configuration
fields and initial values. -/
def imageMask (key base w : Nat) : Nat :=
  if keySpace key < 4 ∧ keyKind key = 0 ∧ 40 ≤ w then 2 ^ 32 - 1
  else
    match findReg (base + 4 * w) with
    | some (r, _) => fieldMask (cfgFields ++ initFields) r
    | none => 0

/-- No nonzero byte of a record stands where no configuration field or initial value does. -/
def zeroElsewhere (key v : Nat) : Bool :=
  match imageBase key with
  | some base =>
    (List.range (((recBytesOf (keySpace key) (keyKind key)).getD 0) / 4)).all (fun w =>
      (List.range 4).all (fun b => bytesAt v (4 * w + b) 1 == 0 || imageMask key base w / 2 ^ (8 * b) % 256 != 0))
  | none =>
    match keySpace key, keyKind key with
    | 4, 0 => bytesAt v 4 4 == 0
    | 4, 1 => bytesAt v 10 2 == 0
    | 4, 8 => bytesAt v 8 8 == 0
    | 4, 9 => bytesAt v 1 3 == 0
    | 5, _ => bytesAt v 6 2 == 0
    | _, 4 => bytesAt v 7 1 == 0
    | _, 5 => bytesAt v 7 1 == 0
    | _, _ => true

/-- The quadrants of a value route's source and sinks among the Loom's resources (R214). -/
def State.routeQuads (s : State) (key : Nat) : List Nat :=
  let src := s.cfg key 0 4
  let x := src % 2 ^ 28
  let sources := if keyKind key = 4 then
      match src / 2 ^ 28 with | 0 => [x / 256] | 1 => [x / 256] | 2 => [x / 64] | 3 => [x / 32] | _ => []
    else
      match src / 2 ^ 28 with | 1 => [x % 2 ^ 26 / 4096] | 2 => [x / 256] | 3 => [x / 32] | _ => []
  let sinks := if keyKind key = 4 then
      (s.quadRecs 0).filterMap (fun e => if (s.cellReads (keyNumber e.1)).contains (3, keyNumber key) then some (keySpace e.1) else none)
    else []
  sources ++ sinks

/-- A route's CLASS is that of R214: 0 where the route, its source and its sinks lie in one
quadrant. -/
def State.classOk (s : State) (key : Nat) : Bool :=
  s.cfg key 6 1 == (if (s.routeQuads key).all (· == keySpace key) then 0 else 1)

/-- Every discrete output has exactly one writer (05 R118, R222): its selector stands in one
OUTPUT record with a WRITER of Table 9.5, and cells and axes keep their own odometers. -/
def State.writersOk (s : State) : Bool :=
  let outs := (s.recsOf 4 1).map (fun e => (bytesAt e.2.active 0 4, bytesAt e.2.active 8 1, bytesAt e.2.active 9 1))
  outs.all (fun o => decide (1 ≤ o.2.1) && decide (o.2.1 ≤ 5) && (o.2.1 != 3 && o.2.1 != 4 || o.2.2 % 4 == 0)) &&
  (outs.map (·.1)).eraseDups.length == outs.length

/-- No event input of the scheduler is named by event routes of two partitions (10 R251). -/
def State.inputsOk (s : State) : Bool :=
  let ers := (s.quadRecs 5).map (fun e => (bytesAt e.2.active 4 2, e.2.owner))
  ers.all (fun a => a.1 == 0xFFFF || ers.all (fun b => a.1 != b.1 || a.2 == b.2))

/-- The queues keep the layout of 10 R262: a DEPTH_LOG2 of Table 10.4, a BASE that is a multiple of the
depth, entries within the queue area, and no two queues over one entry. -/
def State.queuesOk (s : State) : Bool :=
  let qs := (s.recsOf 4 8).map (fun e => (bytesAt e.2.active 4 4, 2 ^ bytesAt e.2.active 1 1, bytesAt e.2.active 1 1))
  qs.all (fun q => decide (4 ≤ q.2.2) && decide (q.2.2 ≤ 14) && q.1 % q.2.1 == 0 && decide (q.1 + q.2.1 ≤ 131072)) &&
  qs.all (fun q => (qs.filter (fun r => decide (q.1 < r.1 + r.2.1) && decide (r.1 < q.1 + q.2.1))).length == 1)

/-- The reference checks of a loaded Beam. -/
def State.refsOk (s : State) : Bool :=
  s.loom.records.entries.all (fun e =>
    zeroElsewhere e.1 e.2.beam &&
    (match s.readerOf e.1 e.2 with | some p => (s.recReads e.1).all (s.canRead p) | none => true) &&
    (decide (3 < keySpace e.1) || (keyKind e.1 != 4 && keyKind e.1 != 5) || s.classOk e.1) &&
    (decide (3 < keySpace e.1) || keyKind e.1 != 2 || s.rd F.AX_ROUTE_OUT_KIND (keyNumber e.1) != 1 || decide (keyIndex e.1 < 6))) &&
  s.writersOk && s.inputsOk && s.queuesOk && decide (((List.range 17).map (s.rd F.SKS_BURST ·)).sum ≤ 16320)

/-! ### Draft-eligible bits (R228, result 8) -/

/-- The bits of word `w` of a record that a MUTMASK may mark (Table 9.11). -/
def eligMask (key w : Nat) : Nat :=
  if keySpace key < 4 ∧ keyKind key = 3 then (if w = 0 then 2 ^ 24 - 1 else if w = 1 then 2 ^ 32 - 1 else 0)
  else if keySpace key = 4 ∧ keyKind key = 1 then (if w = 2 then 2 ^ 9 else 0)
  else
    match imageBase key with
    | some base =>
      if keySpace key < 4 ∧ keyKind key = 0 ∧ 40 ≤ w then 2 ^ 32 - 1
      else (findReg (base + 4 * w)).elim 0 (fun r => fieldMask eligFields r.1)
    | none => 0

/-- A record's MUTMASK marks eligible bits alone. -/
def maskOk (key mask : Nat) : Bool :=
  (List.range ((((recBytesOf (keySpace key) (keyKind key)).getD 0) + 3) / 4)).all (fun w =>
    wordAt mask w &&& eligMask key w == wordAt mask w)

/-! ### Combinational cycles (R220, result 9) -/

/-- The logic elements that are COMB or LATCH, each with those it reads; a LATCH's own output
does not count. -/
def State.combEdges (s : State) : List (Nat × List Nat) :=
  (s.quadRecs 3).filterMap (fun e =>
    let n := keyNumber e.1
    let mode := bytesAt e.2.active 2 1
    let ins := ((List.range 4).map (fun i => bytesAt e.2.active (8 + 4 * i) 4)).filterMap (fun sel => if sel / 2 ^ 28 = 1 then some (sel % 2 ^ 28) else none)
    if mode = 0 then some (n, ins) else if mode = 1 then some (n, ins.filter (· != n)) else none)

/-- The elements of a list read one another in no cycle: those that read none of the others are
taken away until none is left. -/
def acyclic : Nat → List (Nat × List Nat) → Bool
  | 0, l => l.isEmpty
  | k + 1, l =>
    let rest := l.filter (fun e => e.2.any (fun i => l.any (fun o => o.1 == i)))
    if rest.length = l.length then l.isEmpty else acyclic k rest

/-! ### The load -/

/-- The frames written to the planes (R229): a CONFIG frame's records, and the masks of a MUTMASK
frame. -/
def State.writeFrames (s : State) : List BeamFrame → State
  | [] => s
  | f :: rest =>
    let s := f.records.foldl (fun s e =>
      if f.ftype = 0 then s.putRecord e.1 ⟨f.part, e.2, 0, e.2, e.2, false⟩
      else s.putRecord e.1 { s.recOf e.1 with mask := e.2 }) s
    s.writeFrames rest

/-- The planes as the frames of an image fill them, every record taken. -/
def State.plane (s : State) (img : BeamImg) : State :=
  let s := s.writeFrames img.frames
  let s := { s with loom := { s.loom with digest := img.digest, frames := (img.frames.filter (fun (f : BeamFrame) => f.ftype == 0)).map (fun (f : BeamFrame) => (f.faddr, f.len, f.part)) } }
  s.loom.records.keys.foldl State.takeLoaded s

/-- The first failing check of Table 9.12. -/
def State.beamResult (s : State) (img : Option BeamImg) : Nat :=
  match img with
  | none => 1
  | some b =>
    if b.magic ≠ 0x4D414542 ∨ b.format ≠ 1 ∨ b.reserved ≠ 0 then 1
    else if !s.rootOk b.keyId || !b.sigOk then 2
    else if s.belowFloor 0 0 b.version = true then 3
    else if !b.frames.all (·.formed) || !framesOrdered none 0 b.frames || decide (b.bodyBytes < (b.frames.map (fun f => 32 + f.len)).sum) ||
        decide (50327552 < b.bodyBytes) then 4
    else if !b.tagOk then 5
    else if b.bodyDigest ≠ b.bodyHash then 6
    else
      let x := s.plane b
      if !x.refsOk then 7
      else if !x.loom.records.entries.all (fun e => maskOk e.1 e.2.mask) then 8
      else if !acyclic (x.combEdges.length + 1) x.combEdges then 9
      else 0

/-- The Beam load (R229, R230): the image in force, or every plane clear. -/
def State.beamLoad (s : State) (img : Option BeamImg) : State :=
  let r := s.beamResult img
  match r, img with
  | 0, some b =>
    let s := s.plane b
    let s := ((s.wr F.LOOM_BEAM_STATUS_STATE 2).wr F.LOOM_BEAM_STATUS_RESULT 0).wr F.LOOM_BEAM_PROGRESS ((b.processed 0 + 1023) / 1024)
    let s := (s.wr F.LOOM_BEAM_VERSION b.version).wr F.LOOM_BEAM_FRAMES b.frames.length
    let s := s.each (List.range 12) (fun s i => s.wr F.LOOM_BEAM_DIGEST (b.digest.toNat / 2 ^ (32 * i)) i)
    ((s.loomEvent sysStream 0 0).settle).regate
  | _, _ =>
    let s := { s with loom := { s.loom with records := .empty, frames := [], digest := 0 } }
    let s := s.wr F.LOOM_BEAM_PROGRESS ((((img.map (·.processed r)).getD 0) + 1023) / 1024)
    ((s.wr F.LOOM_BEAM_STATUS_STATE 3).wr F.LOOM_BEAM_STATUS_RESULT r).loomEvent sysStream 0 1

/-! ### Drafts and journals at start (R237, R240) -/

/-- A draft reloaded from flash (R237): STALE where the Beam is another, checked as at its install
otherwise; the partition and the result of one that fails are answered. -/
def State.reloadDraft (s : State) (k : Nat) (img : DraftImg) : State × List (Nat × Option Nat) :=
  if img.beamDigest ≠ s.loom.digest then (s.showDraft (k / 8) (k % 8) img true, [])
  else
    let r := s.draftResult (k / 8) img
    if r = 0 then (s.showDraft (k / 8) (k % 8) img false, [])
    else ((s.wr F.DS_STATE_STATE 0 k).wr F.DS_STATE_RESULT r k, [(k / 8, some r)])

/-- The library reloaded, but for slots whose copies could not be read; the partitions with a
draft that failed, and its result. -/
def State.reloadDrafts (s : State) (unread : List Nat) : State × List (Nat × Option Nat) :=
  let s := s.each (List.range 16) (fun s p => s.wr F.LP_STATUS_ACTIVE 15 p)
  let s := s.each (s.keysOf F.DS_STATE_STATE) (fun s k => s.wr F.DS_STATE_STATE 0 k)
  s.loom.drafts.entries.foldl (fun x e =>
    if unread.contains e.1 then (x.1, x.2 ++ [(e.1 / 8, none)])
    else
      let y := x.1.reloadDraft e.1 e.2
      (y.1, x.2 ++ y.2)) (s, [])

/-- The journal record of partition `p` in force: good, with the highest SEQ. -/
def State.journalInForce (s : State) (p : Nat) : Option Journal :=
  ((s.journal p).filter (·.good)).foldl (fun b j => match b with | none => some j | some o => if o.seq < j.seq then some j else some o) none

/-- The journalled draft of partition `p` applied again by phases 1 and 2; otherwise the Beam alone,
with JOURNAL_FALLBACK (R240). -/
def State.replayJournal (s : State) (p : Nat) : State :=
  match s.journalInForce p with
  | none => s.lpEvent p 4
  | some j =>
    let s := s.wr F.LP_JSEQ j.seq p
    if j.slot = 15 then s.lpEvent p 4
    else
      match s.loom.drafts.find (8 * p + j.slot) with
      | some img =>
        if s.rd F.DS_STATE_STATE (8 * p + j.slot) = 2 ∧ img.version = j.version ∧ img.bodyDigest.toNat % 2 ^ 128 = j.digest.toNat % 2 ^ 128 then
          let keys := s.differing p j.slot
          let s := keys.foldl (fun s k => s.putRecord k { s.recOf k with shadow := s.target p j.slot k }) s
          let s := (s.flipRecords keys).wrT F.LP_FLIP s.now p
          let s := keys.foldl (fun s k => s.putRecord k { s.recOf k with shadow := (s.recOf k).active }) s
          s.wr F.LP_STATUS_ACTIVE j.slot p
        else s.lpEvent p 4
      | none => s.lpEvent p 4

/-- The journals of every partition replayed. -/
def State.replayJournals (s : State) : State := s.each (List.range 16) State.replayJournal

end Sys2Proof.Machine
end

