-- ==== Sys2Proof/Machine/Sec.lean ====
section
/-! DEFINITION.  The commands of Zenith and of field updates (15). -/

namespace Sys2Proof.Machine

open Sys2Proof

/-! ### Authority records (R375, R376, R381) -/

/-- A record whose form, OP and TARGET are right (Table 15.6, check 1): PARTS and VALUE are 0
where Table 15.4 gives them no meaning. -/
def AuthRec.shaped (a : AuthRec) : Bool :=
  a.formOk && decide (1 ≤ a.op) && decide (a.op ≤ 6) &&
  (match a.op with
    | 1 => a.target == 2 || a.target == 3
    | 2 => decide (a.target < 4)
    | 5 => decide (a.target < 6)
    | 6 => decide (a.target < 16)
    | _ => decide (a.target < 64)) &&
  (a.op == 3 || (if a.op = 5 ∧ 3 ≤ a.target then decide (a.parts < 16) else a.parts == 0)) && (a.op == 5 || a.value == 0)

/-- Whether KEY_ID may sign the record (Tables 15.1, 15.5) and is present. -/
def State.signerOk (s : State) (a : AuthRec) : Bool :=
  match a.op with
  | 1 => s.makerOk a.keyId || (a.target == 3 && a.keyId == 2 && s.rootPresent 2)
  | 2 => a.keyId == (if a.target % 2 = 0 then a.target + 1 else a.target - 1) && s.rootPresent a.keyId
  | _ => s.rootOk a.keyId

/-- The conditions of Table 15.5 beyond the signer. -/
def State.authOpen (s : State) (a : AuthRec) : Bool :=
  match a.op with
  | 1 => !bitOf (s.rd F.SEC_STATUS_PROGRAMMED) a.target
  | 3 => a.parts != 0
  | 6 => a.tagOk
  | _ => true

/-- The first failing check of Table 15.6, 0 when all pass. -/
def State.authResult (s : State) (a : AuthRec) (readBack : Bool) : Nat :=
  if !AuthRec.shaped a then 1
  else if (a.device ≠ 0 ∧ a.device ≠ s.rd F.SEC_SERIAL) ∨ (a.device = 0 ∧ (a.op = 1 ∨ a.op = 6)) then 2
  else if !s.signerOk a then 3
  else if !a.sigOk then 4
  else if !s.authOpen a then 5
  else if !readBack then 6
  else 0

/-- A floor set by a record (R373, R374): it never falls, unless it was lost. -/
def State.setFloor (s : State) (c p v : Nat) : State :=
  if s.sec.lost.contains (c, p) then
    let s := (s.wr (floorField c) v p).onSec (fun x => { x with lost := x.lost.filter (· != (c, p)) })
    s.wr F.SEC_STATUS_FLOOR_LOST (b2n (!s.sec.lost.isEmpty))
  else s.wr (floorField c) (max v (s.rd (floorField c) p)) p

/-- What an accepted record does (Table 15.5). -/
def State.takeAuth (s : State) (a : AuthRec) : State :=
  match a.op with
  | 1 =>
    let s := s.onSec (fun x => { x with rootHash := x.rootHash.set a.target (Config.sha384 a.key), rootKey := x.rootKey.set a.target a.key, absent := x.absent.filter (· != a.target) })
    (s.wr F.SEC_STATUS_PROGRAMMED (withBit (s.rd F.SEC_STATUS_PROGRAMMED) a.target)).wr F.SEC_STATUS_LIFECYCLE 1
  | 2 => s.wr F.SEC_STATUS_REVOKED (withBit (s.rd F.SEC_STATUS_REVOKED) a.target)
  | 3 =>
    let s := s.onSec (fun x => { x with authors := x.authors.set a.target (a.key, a.parts) })
    s.wr F.SEC_AUTHOR_KEYS (withBit (s.rd F.SEC_AUTHOR_KEYS) a.target)
  | 4 =>
    let s := s.onSec (fun x => { x with authors := x.authors.erase a.target })
    s.wr F.SEC_AUTHOR_KEYS (putBit (s.rd F.SEC_AUTHOR_KEYS) a.target false)
  | 5 => s.setFloor a.target (if 3 ≤ a.target then a.parts else 0) a.value
  | _ =>
    s.each ((List.range 4).filter (bitOf a.target)) (fun s r =>
      let s := s.onSec (fun x => { x with ringPending := x.ringPending.set r a.ringKey })
      s.wr F.SEC_RING_KEYS_PENDING (withBit (s.rd F.SEC_RING_KEYS_PENDING) r))

/-- AUTHORITY (R376): the first failing check, or the record's effect; either is recorded. -/
def execAuthority (t : Instant) (a : AuthRec) (readBack : Bool) (s : State) : Out := .next (
  (s.advance t).hostCommand 0x20 16 anyArgs (fun s =>
    let r := s.authResult a readBack
    let s := ((s.wr F.SEC_AUTH_RESULT_OP a.op).wr F.SEC_AUTH_RESULT_RESULT r).reply r
    let s := if r = 0 then s.takeAuth a else s
    let bit := if r = 0 then 0 else 1
    (s.secEvent bit).event sysStream 16 0 bit 0 r (leBytes 1 a.op ++ leBytes 1 a.target ++ [0, 0])))

/-! ### Debug (R382, R383) -/

/-- A debug command: through the host path as a command, or through the JTAG mailbox. -/
def State.debugCommand (s : State) (jtag : Bool) (opcode : Nat) (f : State → State) : State :=
  if jtag then f (s.reply 0) else s.hostCommand opcode 16 anyArgs f

/-- A random number drawn. -/
def State.drawRandom (s : State) : BitVec 256 × State := (Config.random s.freeCtr, { s with freeCtr := s.freeCtr + 1 })

/-- DEBUG_CHALLENGE: a fresh nonce, returned and outstanding. -/
def execDebugChallenge (t : Instant) (jtag : Bool) (s : State) : Out := .next (
  (s.advance t).debugCommand jtag 0x22 (fun s =>
    let d := s.drawRandom
    (d.2.onSec (fun x => { x with nonce := some (d.1, d.2.compensated) })).reply 0 (leBytes 32 d.1.toNat)))

/-- Whether a response opens debug (R382, Table 15.7): the nonce is the outstanding one and no
more than 60 s old, and the signer's role permits LEVEL. -/
def State.responseOk (s : State) (r : DebugResp) : Bool :=
  r.formOk && r.serial == s.rd F.SEC_SERIAL &&
  s.sec.nonce.any (fun n => n.1 == r.nonce && decide (sinceNs s.compensated n.2 ≤ 60000000000)) &&
  decide (1 ≤ r.durationS) && decide (r.durationS ≤ 86400) &&
  ((r.level == 1 && s.rootOk r.keyId) || (r.level == 2 && s.makerOk r.keyId)) && r.sigOk

/-- DEBUG_OPEN: the nonce is used; debug opens at the response's level, or stays as it is. -/
def execDebugOpen (t : Instant) (jtag : Bool) (r : DebugResp) (s : State) : Out := .next (
  (s.advance t).debugCommand jtag 0x23 (fun s =>
    let ok := s.responseOk r
    let s := if s.sec.nonce.any (·.1 == r.nonce) then s.onSec (fun x => { x with nonce := none }) else s
    if ok then
      let s := s.onSec (fun x => { x with debugEnd := addNs s.compensated (1000000000 * r.durationS) })
      let s := s.each ((List.range 32).filter (fun n => s.capState n == 2 || s.capState n == 3)) (fun s n =>
        s.putCset n { s.cset n with flags := (s.cset n).flags ||| 16 })
      let s := ((s.wr F.SEC_STATUS_DEBUG_LEVEL r.level).wr F.SEC_DEBUG_REMAIN r.durationS).secEvent 2
      ((s.event sysStream 0 0 0 2 0 (leBytes 1 r.level ++ [0, 0, 0] ++ leBytes 4 r.keyId)).internalWake 8).reply 0
    else s.reply 1))

/-- Debug closed. -/
def State.closeDebug (s : State) : State :=
  if s.on F.SEC_STATUS_DEBUG_LEVEL then
    let s := s.event sysStream 0 0 1 2
    ((s.wr F.SEC_STATUS_DEBUG_LEVEL 0).wr F.SEC_DEBUG_REMAIN 0).secEvent 3
  else s

/-- DEBUG_CLOSE. -/
def execDebugClose (t : Instant) (jtag : Bool) (s : State) : Out := .next (
  (s.advance t).debugCommand jtag 0x24 (fun s => s.closeDebug.reply 0))

/-- DURATION_S has elapsed. -/
def execDebugExpiry (t : Instant) (s : State) : Out := .next (
  let s := s.advance t
  if notLater s.sec.debugEnd s.compensated then s.closeDebug else s)

/-! ### Attestation (R384) -/

/-- A key's 97 bytes in a field of 112. -/
def keyField (k : Nat) : List Byte := (Config.publicKey k ++ List.replicate 112 0).take 97 ++ List.replicate 15 0

/-- The 64 bytes of partition `p` in the report (Table 15.8). -/
def State.attestPart (s : State) (p : Nat) : List Byte :=
  let prog := (s.cycPart p).prog
  leBytes 1 (s.rd F.LP_STATUS_ACTIVE p) ++ leBytes 1 (s.rd F.CP_STATUS_STATE p) ++ leBytes 1 (s.rd F.TR_STATUS_STATE p) ++ [0] ++
  leBytes 4 (s.rd F.CP_VERSION p) ++ leBytes 4 (s.rd F.TR_TABLE_ID p) ++ leBytes 4 (s.rd F.SEC_RECIPE_FLOOR p) ++
  leBytes 4 (s.rd F.SEC_DRAFT_FLOOR p) ++ leBytes 4 (s.rd F.SEC_PROG_FLOOR p) ++ List.replicate 8 0 ++
  leBytes 32 ((prog.map (·.digest.toNat)).getD 0)

/-- The report up to its signature (Table 15.8). -/
def State.attestBody (s : State) (nonce : BitVec 256) : List Byte :=
  let flags := b2n (s.on F.SEC_STATUS_DEBUG_LEVEL) + 2 * b2n (s.rd F.UPD_STATUS_STATE == 4) + 4 * s.rd F.SEC_STATUS_FLOOR_LOST + 8 * s.rd F.SEC_STATUS_KEYBLOCK_OK
  leBytes 4 0x54535441 ++ leBytes 2 1 ++ leBytes 2 flags ++ leBytes 32 nonce.toNat ++ leBytes 8 s.now.toNat ++
  leBytes 4 (s.regWord 0) ++ leBytes 4 (s.regWord 4) ++
  leBytes 1 (s.rd F.SYS_GRADE) ++ leBytes 1 (s.rd F.SEC_STATUS_LIFECYCLE) ++ leBytes 1 (s.rd F.SEC_STATUS_PROGRAMMED) ++ leBytes 1 (s.rd F.SEC_STATUS_REVOKED) ++
  leBytes 4 (s.rd F.SK_EPOCH) ++ leBytes 8 (s.rd F.SEC_SERIAL) ++
  leBytes 1 (s.rd F.UPD_STATUS_ACTIVE_SLOT) ++ leBytes 1 (s.rd F.SEC_FW_FLOOR) ++ [0, 0] ++ leBytes 4 (s.rd F.SEC_BEAM_FLOOR) ++
  leBytes 48 s.sec.manifest.toNat ++ leBytes 48 s.loom.digest.toNat ++
  leBytes 48 ((s.island.eeprom.map (·.digest.toNat)).getD 0) ++ leBytes 48 ((s.island.prog.map (·.digest.toNat)).getD 0) ++
  ((List.range 4).map (fun k => leBytes 48 (s.sec.rootHash.get k 0).toNat)).flatten ++ keyField 0 ++ keyField 1 ++
  ((List.range 16).map s.attestPart).flatten ++ List.replicate 80 0

/-- ATTEST: the report signed by the identity key, then the identity certificate. -/
def execAttest (t : Instant) (nonce : BitVec 256) (s : State) : Out := .next (
  (s.advance t).hostCommand 0x25 16 anyArgs (fun s =>
    let body := s.attestBody nonce
    (s.secEvent 6).reply 0 (body ++ leBytes 96 (Config.ecdsaSign 1 body).toNat ++ Config.certificate)))

/-! ### Field updates (R386 to R392) -/

/-- An update event set; an outcome, bit 0 to 5, is recorded with its result. -/
def State.updEvent (s : State) (bit : Nat) (res : Nat := 0) : State :=
  let s := (s.setBit F.UPD_EVENT bit).interrupt 196
  if bit < 6 then s.event sysStream 16 0 bit 1 res else s

/-- The state of slot `k` as shown: STATE, and from its manifest FW_SVN and BUNDLE_VERSION. -/
def State.showSlot (s : State) (k st : Nat) : State :=
  let b := s.sec.slots.find k
  let svn := (b.map (·.svn)).getD 0
  let ver := (b.map (·.version)).getD 0
  if k = 0 then ((s.wr F.UPD_SLOT_A_STATE st).wr F.UPD_SLOT_A_FW_SVN svn).wr F.BUNDLE_VER_A ver
  else ((s.wr F.UPD_SLOT_B_STATE st).wr F.UPD_SLOT_B_FW_SVN svn).wr F.BUNDLE_VER_B ver

/-- STATE of slot `k`. -/
def State.slotState (s : State) (k : Nat) : Nat := if k = 0 then s.rd F.UPD_SLOT_A_STATE else s.rd F.UPD_SLOT_B_STATE

/-- The inactive slot (R386). -/
def State.inactive (s : State) : Nat := 1 - s.sec.active

/-- Slot `k` emptied. -/
def State.emptySlot (s : State) (k : Nat) : State := (s.onSec (fun x => { x with slots := x.slots.erase k, record := none })).showSlot k 0

/-- Capacity of a slot: 192 MiB (18 R452). -/
def slotBytes : Nat := 192 * 2 ^ 20

/-- Whether the operations of a container are well formed on an active bundle of `size` bytes
(Table 15.13, result 4). -/
def Delta.opsOk (d : Delta) (size : Nat) : Bool :=
  (d.ops.map (·.len)).sum == d.targetBytes && decide (d.targetBytes ≤ slotBytes) &&
  d.ops.all (fun o => match o.op with
    | 1 => d.kind != 2 && decide (o.arg + o.len ≤ size)
    | 2 => true
    | 3 => true
    | _ => false)

/-- The first structural check of Table 15.13 that fails. -/
def State.deltaResult (s : State) (d : Delta) : Nat :=
  let active := s.sec.slots.find s.sec.active
  let base := (active.map (·.digest)).getD 0
  if (s.rd F.UPD_STATUS_STATE ≠ 0 ∧ s.rd F.UPD_STATUS_STATE ≠ 2) ∨ s.sec.running.isSome = true then 1
  else if !d.formOk || decide (2 < d.kind) then 2
  else if (if d.kind = 2 then d.base ≠ 0 else d.base = 0 ∨ d.base ≠ base) then 3
  else if !Delta.opsOk d ((active.map (·.bytes)).getD 0) then 4
  else if !d.bodyOk then 5
  else 0

/-- APPLY_DELTA (R389): refused by Table 15.13, or run in the background into the inactive slot. -/
def execApplyDelta (t : Instant) (d : Delta) (s : State) : Out := .next (
  (s.advance t).hostCommand 0x21 16 anyArgs (fun s =>
    let r := s.deltaResult d
    let s := s.reply r
    if r ≠ 0 then (s.wr F.UPD_STATUS_APPLY_RESULT r).updEvent 1 r
    else
      let s := (s.emptySlot s.inactive).onSec (fun x => { x with running := some d })
      (s.wr F.UPD_STATUS_STATE 1).wr F.UPD_PROGRESS 0))

/-- The application ends (R389): the slot holds the bundle and reads STAGED, with the container
as its pending record; or a check failed during the run and the slot reads EMPTY. -/
def execDeltaApplyDone (t : Instant) (result : Bundle) (code : Fin 8) (kibS : Word) (s : State) : Out := .next (
  let s := s.advance t
  match s.sec.running with
  | none => s
  | some d =>
    let s := (s.onSec (fun x => { x with running := none })).wr F.UPD_STATUS_APPLY_RESULT code.val
    let k := s.inactive
    if code.val = 0 then
      let s := (s.onSec (fun x => { x with slots := x.slots.set k result, record := some (k, d) })).showSlot k 2
      let s := (s.wr F.UPD_PROGRESS ((d.targetBytes + 1023) / 1024)).wr F.UPD_APPLY_AVG kibS.toNat
      (s.wr F.UPD_STATUS_STATE 2).updEvent 0
    else ((s.emptySlot k).wr F.UPD_STATUS_STATE 0).updEvent 1 code.val)

/-- A write of UPD_CTRL with command bit `bit`, accepted where EXPECT is the state and the state
is `from_` (R391, R392); a second command bit is refused, and without one nothing happens. -/
def State.updCommand (s : State) (bit value from_ : Nat) (f : State → State) : State :=
  s.hostWrite 0xD00200 (fun s =>
    if value % 8 = 0 then s
    else if value % 8 ≠ 2 ^ bit then s.updEvent 7
    else if value / 256 % 8 ≠ s.rd F.UPD_STATUS_STATE then s.updEvent 6
    else if s.rd F.UPD_STATUS_STATE ≠ from_ then s.updEvent 7
    else f s) value (value % 8 != 0)

/-- ACTIVATE: ARMED at UPD_AT, which lies at least 10 ms ahead. -/
def execActivate (t : Instant) (value : Word) (s : State) : Out := .next (
  (s.advance t).updCommand 0 value.toNat 2 (fun s =>
    if sinceNs (s.rdT F.UPD_AT) s.now < 10000000 then s.updEvent 7 else s.wr F.UPD_STATUS_STATE 3))

/-- CANCEL: back to STAGED. -/
def execUpdCancel (t : Instant) (value : Word) (s : State) : Out := .next (
  (s.advance t).updCommand 2 value.toNat 3 (·.wr F.UPD_STATUS_STATE 2))

/-- CONFIRM (R374, R392): the trial slot becomes active, floors rise. -/
def execConfirm (t : Instant) (value : Word) (s : State) : Out := .next (
  (s.advance t).updCommand 1 value.toNat 4 (fun s =>
    let k := s.rd F.UPD_STATUS_ACTIVE_SLOT
    let b := s.sec.slots.find k
    let s := s.wr F.SEC_FW_FLOOR (max (s.rd F.SEC_FW_FLOOR) ((b.map (·.svn)).getD 0))
    let s := if s.sec.lost.contains (0, 0) then s else s.wr F.SEC_BEAM_FLOOR (max (s.rd F.SEC_BEAM_FLOOR) ((b.map (·.beamFloor)).getD 0))
    let s := (s.onSec (fun x => { x with active := k, record := none })).showSlot k 1
    (s.wr F.UPD_STATUS_STATE 0).updEvent 5))

/-- The activation check (R391): with every partition in STOP the unit restarts for the trial of
the staged slot; otherwise the activation is deferred. -/
def execActivationCheck (t : Instant) (s : State) : Out := .next (
  let s := s.advance t
  if s.rd F.UPD_STATUS_STATE = 3 ∧ notLater (s.rdT F.UPD_AT) s.now then
    if (List.range 16).all s.inStop then
      let s := s.wrT F.UPD_ACT_T s.now
      let k := s.inactive
      (s.onSec (fun x => { x with tryNext := some k })).beginReset 4
    else (s.wr F.UPD_STATUS_STATE 2).updEvent 2
  else s)

end Sys2Proof.Machine
end

