-- ==== Sys2Proof/Machine/Treadle.lean ====
section
/-! DEFINITION.  The commands of the Treadles and profile generators (05). -/

namespace Sys2Proof.Machine

open Sys2Proof

/-! ### Loading a table (R114 to R120, Table 5.8) -/

/-- Whether SRC is laid out as Table 5.6 gives for the KIND: SRC[13:0] is 0 for PROFILES_DONE and AXES_DONE,
and the bits between it and the source are 0. -/
def srcOk (c : EndCond) : Bool :=
  c.src / 2 ^ 14 % 2 ^ 14 == 0 && !(c.kind == 3 && (c.src / 2 ^ 28 == 1 || c.src / 2 ^ 28 == 2) && c.src % 2 ^ 14 != 0)

/-- Whether an end condition is well formed (Table 5.4). -/
def condOk (t : StepTable) (c : EndCond) : Bool :=
  let next := (c.next < t.stepCount || c.next == nextStop || c.next == nextEnd) && srcOk c
  match c.kind with
  | 0 => true
  | 1 => next && c.src == 0 && decide (100000 ≤ c.arg) && decide (c.arg < 2 ^ 50)
  | 2 => next && decide (c.op ≤ 5) && decide (1 ≤ c.arg / 2 ^ 32) && decide (c.arg / 2 ^ 32 ≤ 65535) && decide (c.src / 2 ^ 28 ≤ 4)
  | 3 => next && c.arg == 0 && decide (c.src / 2 ^ 28 ≤ 4)
  | 4 => next && decide (1 ≤ c.arg) && decide (c.arg < 2 ^ 32) && decide (c.src / 2 ^ 28 = 0)
  | _ => false

/-- Whether step record `n` is well formed (Table 5.8, check 9). -/
def stepOk (t : StepTable) (n : Nat) : Bool :=
  let r := t.step n
  r.step == n && decide (r.flags ≤ 1) && r.reserved == 0 && decide (r.actCount ≤ 512) && decide (r.actFirst + r.actCount ≤ t.poolCount) &&
  decide (r.ends.length ≤ 4) && r.ends.any (fun c => c.kind != 0) && r.ends.all (condOk t)

/-- Whether partition `p` may read the source of a condition (R117). -/
def State.sourceOk (s : State) (p : Nat) (c : EndCond) : Bool :=
  let x := c.src % 2 ^ 14
  match c.kind, c.src / 2 ^ 28 with
  | 2, 0 => s.mayRead p (vrKey x) (3 * 2 ^ 28 + x)
  | 2, _ => s.ownerLC x == some p
  | 3, 0 => s.mayRead p (erKey x) (4 * 2 ^ 28 + x)
  | 3, 3 => s.owner (maskKey x) == some p
  | 3, 4 => s.owner (tseqKey x) == some p
  | 4, _ => s.mayRead p (erKey x) (4 * 2 ^ 28 + x)
  | _, _ => true

/-- Whether six entries from `i` lie in the pool and outside every step's actions (R118). -/
def dataOk (t : StepTable) (i : Nat) : Bool :=
  decide (i + 6 ≤ t.poolCount) &&
  (List.range t.stepCount).all (fun n =>
    let r := t.step n
    r.actCount == 0 || decide (i + 6 ≤ r.actFirst) || decide (r.actFirst + r.actCount ≤ i))

/-- Whether an action is valid for partition `p` (Table 5.8, check 10). -/
def State.actionOk (s : State) (p : Nat) (t : StepTable) (a : PoolEntry) : Bool :=
  a.flags == 0 &&
  match a.opcode with
  | 0 => true
  | 1 => s.ownerLC a.target == some p && decide (0xA0 ≤ a.arg0) && decide (a.arg0 ≤ 0xF8) && a.arg0 % 4 == 0
  | 2 => s.ownerLC a.target == some p && dataOk t a.arg0
  | 3 => s.ownerPG a.target == some p
  | 4 => s.ownerPG a.target == some p && genLimits a.arg0 a.arg1 a.arg2 == (a.arg0, a.arg1, a.arg2)
  | 5 => s.ownerPG a.target == some p
  | 6 =>
    match s.outIndex a.arg0 1 with
    | some k => s.owner (outKey k) == some p && decide (a.arg1 ≤ 1)
    | none => false
  | 7 => s.owner (axisKey a.target) == some p && decide (1 ≤ a.arg1) && decide (a.arg0 + a.arg1 ≤ 4096) && a.arg2 == 0
  | 8 => s.owner (tseqKey a.target) == some p
  | 9 => s.owner (maskKey a.target) == some p && decide (a.arg0 < 256)
  | 10 => decide (a.arg0 ≤ 63)
  | _ => false

/-- Whether the image's unused step records and pool entries are zero (R114). -/
def unusedZero (t : StepTable) : Bool :=
  (t.steps.drop t.stepCount).all (fun r => r.bytes.all (· == 0)) && (t.pool.drop t.poolCount).all (fun e => e.bytes.all (· == 0))

/-- Whether the VALVE actions of a step name different outputs. -/
def valvesDiffer (acts : List PoolEntry) : Bool :=
  let sels := (acts.filter (fun a => a.opcode == 6)).map (·.arg0)
  sels.eraseDups.length == sels.length

/-- The steps reachable from those of a list; `fuel` bounds the search. -/
def reachable (t : StepTable) : Nat → List Nat → List Nat
  | 0, seen => seen
  | fuel + 1, seen =>
    let next := (seen.map (fun n => (((t.step n).ends.filter (fun c => c.kind != 0)).map (·.next)).filter (· < t.stepCount))).flatten
    let more := (seen ++ next).eraseDups
    if more.length = seen.length then seen else reachable t fuel more

/-- Whether every step of the stop chain has a TIME condition and none names STOP (check 11). -/
def stopChainOk (t : StepTable) : Bool :=
  (reachable t t.stepCount [t.stopStep]).all (fun n =>
    (t.step n).ends.any (fun c => c.kind == 1) && (t.step n).ends.all (fun c => c.kind == 0 || c.next != nextStop))

/-- Whether the header's fields lie in their ranges (check 8). -/
def headerOk (t : StepTable) : Bool :=
  decide (t.missReact ≤ 1) && decide (1 ≤ t.stepCount) && decide (t.stepCount ≤ 4096) && decide (t.poolCount ≤ 32512) &&
  decide (t.entryStep < t.stepCount) && decide (t.stopStep < t.stepCount) && decide (1000 ≤ t.tickNs) && decide (t.tickNs ≤ 100000) &&
  decide (t.branchNs ≤ 20000)

/-- The first failing check of Table 5.8, 0 when every check passes. -/
def State.tableResult (s : State) (p : Nat) (t : StepTable) : Nat :=
  if s.rd F.TR_STATUS_STATE p ≠ 0 then 1
  else if t.magic ≠ 0x4C445254 ∨ t.format ≠ 1 ∨ t.reserved ≠ 0 ∨ !unusedZero t then 2
  else if t.partition ≠ p then 3
  else if t.beamDigest ≠ s.loom.digest then 4
  else if !t.sigOk || !s.recipeKeyOk p t.keyId then 5
  else if s.belowFloor 3 p t.version = true then 6
  else if t.bodyDigest ≠ t.bodyHash then 7
  else if !headerOk t then 8
  else if !(List.range t.stepCount).all (stepOk t) then 9
  else if !(List.range t.stepCount).all (fun n =>
      (t.actions n).all (s.actionOk p t) && valvesDiffer (t.actions n) && (t.step n).ends.all (s.sourceOk p)) then 10
  else if !stopChainOk t then 11
  else 0

/-- An accepted image copied into the region becomes the Treadle's table (R119). -/
def State.takeTable (s : State) (p : Nat) (img : StepTable) : State :=
  let s := (s.copyTable p img).putTreadle p { s.treadle p with table := some img }
  let s := (s.wr F.TR_STATUS_TABLE_OK 1 p).wr F.TR_EVENT_LOAD_DONE 1 p
  let s := (s.wr F.TR_TIMING_TICK_NS img.tickNs p).wr F.TR_TIMING_BRANCH_NS img.branchNs p
  let s := (s.wr F.TR_LOAD_MISS_REACT img.missReact p).wr F.TR_LOAD_STEP_COUNT img.stepCount p
  let s := (s.wr F.TR_ENTRY_ENTRY_STEP img.entryStep p).wr F.TR_ENTRY_STOP_STEP img.stopStep p
  s.wr F.TR_TABLE_ID img.version p

/-- LOAD_TABLE (R119): an accepted image becomes the Treadle's table; a refused one changes
only RESULT. -/
def execLoadTable (t : Instant) (p : Fin 16) (img : StepTable) (room : Bool) (s : State) : Out := .next (
  (s.advance t).hostCommand 1 p.val anyArgs (·.loading room (fun s =>
  let r := s.tableResult p img
  let s := (s.wr F.TR_LOAD_RESULT r p).reply r
  if r ≠ 0 then s
  else (s.store (fun x => { x with tables := x.tables.set p.val img })).takeTable p img)))

/-! ### Commands (R134) -/

/-- A write of TR_CTRL that sets command bit `bit`: START_STEP is written; more than one
command is refused, and so is one whose EXPECT is not the state. -/
def State.trCommand (s : State) (p bit value : Nat) (f : State → State) : State :=
  s.hostWrite (0x300000 + 0x100 * p) (fun s =>
    let s := s.wr F.TR_CTRL_START_STEP (value / 2 ^ 16) p
    if value % 32 = 0 then s
    else if value % 32 ≠ 2 ^ bit then s.wr F.TR_EVENT_CMD_REFUSED 1 p
    else if value / 2 ^ 8 % 4 ≠ s.rd F.TR_STATUS_STATE p then s.wr F.TR_EVENT_STATE_MISMATCH 1 p
    else f s) value (value % 32 != 0)

/-- A command refused. -/
def State.trRefuse (s : State) (p : Nat) : State := s.wr F.TR_EVENT_CMD_REFUSED 1 p

/-- START (R134): the entry step is staged on demand and commits at the start instant. -/
def execTrStart (t : Instant) (p : Fin 16) (value : Word) (s : State) : Out := .next (
  let s := s.advance t
  s.trCommand p 0 value.toNat (fun s =>
    let ask := s.rd F.TR_CTRL_START_STEP p
    let step := if ask = 0xFFFF then s.rd F.TR_ENTRY_ENTRY_STEP p else ask
    let at_ := s.rdT F.TR_START_AT p
    if s.rd F.TR_STATUS_STATE p ≠ 0 ∨ !s.on F.TR_STATUS_TABLE_OK p ∨ s.on F.TR_STATUS_FAULT p ∨ s.rd F.CP_STATUS_STATE p ≠ 1 ∨ s.on F.LP_STATUS_FRAME_LOST p then s.trRefuse p
    else if at_ ≠ 0 ∧ notLater at_ s.now then s.trRefuse p
    else if s.rd F.TR_LOAD_STEP_COUNT p ≤ step then s.trRefuse p
    else
      let start := if at_ = 0 then tickFrom (s.tickNs p) (addNs s.now (s.rd F.TR_TIMING_BRANCH_NS p)) else at_
      let s := (s.wr F.TR_STATUS_STATE 1 p).wr F.TR_DECIDE_END_IDX 0 p
      ((s.stage p step).schedule p (some (start, .commit))).runChange))

/-- PAUSE (R134): pause cause HOST. -/
def execTrPause (t : Instant) (p : Fin 16) (value : Word) (s : State) : Out := .next (
  let s := s.advance t
  s.trCommand p 1 value.toNat (fun s =>
    if s.rd F.TR_STATUS_STATE p = 1 ∨ s.rd F.TR_STATUS_STATE p = 2 then s.pauseCause p 1 else s.trRefuse p))

/-- RESUME (R134): clears causes HOST, MASK and STEP of a PAUSED Treadle. -/
def execTrResume (t : Instant) (p : Fin 16) (value : Word) (s : State) : Out := .next (
  let s := s.advance t
  s.trCommand p 2 value.toNat (fun s =>
    if s.rd F.TR_STATUS_STATE p = 2 then s.clearPause p 14 else s.trRefuse p))

/-- ABORT (R134, R137). -/
def execTrAbort (t : Instant) (p : Fin 16) (value : Word) (s : State) : Out := .next (
  let s := s.advance t
  s.trCommand p 3 value.toNat (fun s =>
    if s.rd F.TR_STATUS_STATE p = 0 then s.trRefuse p else s.abortTreadle p))

/-- CLEAR_FAULT (R134): accepted in IDLE with FAULT at 1. -/
def execTrClearFault (t : Instant) (p : Fin 16) (value : Word) (s : State) : Out := .next (
  let s := s.advance t
  s.trCommand p 4 value.toNat (fun s =>
    if s.rd F.TR_STATUS_STATE p = 0 ∧ s.on F.TR_STATUS_FAULT p then s.wr F.TR_STATUS_FAULT 0 p else s.trRefuse p))

/-! ### Decisions (R121 to R125) -/

/-- Whether condition `i` holds now, with what it remembers brought up to date: TIME by τ; the
others only at a tick from τ = 100,000 - TICK_NS on (R121). -/
def State.evalCond (s : State) (p i : Nat) : State × Bool :=
  let c := (s.curStep p).ends.getD i EndCond.none
  let tick := s.tickNs p
  let tau := s.tau p
  let due := onGrid tick 0 s.now && decide (16 * (100000 - tick) ≤ tau)
  let k := 4 * p + i
  match c.kind with
  | 1 => (s, decide (16 * (c.arg - tick) ≤ tau))
  | 2 =>
    if due then
      let s := if compareOp c.op (s.condValue c.src) (toSigned 32 c.arg) then s.bump F.TR_COND k else s.wr F.TR_COND 0 k
      (s, decide (c.arg / 2 ^ 32 ≤ s.rd F.TR_COND k))
    else (s, false)
  | 3 =>
    if due then (s, s.on F.TR_COND k) else (s, false)
  | 4 => (s, due && decide (c.arg % 2 ^ 32 ≤ s.rd F.TR_COND k))
  | _ => (s, false)

/-- The conditions that hold now, as bits. -/
def State.evalConds (s : State) (p : Nat) : State × Nat :=
  (List.range 4).foldl (fun a i =>
    let r := a.1.evalCond p i
    (r.1, if r.2 then withBit a.2 i else a.2)) (s, 0)

/-- The lowest bit set, of the low 4. -/
def lowestBit (m : Nat) : Nat := ((List.range 4).find? (bitOf m)).getD 0

/-- The decision for the conditions of `mask` (R122, R123, R125): the lowest-numbered chooses;
a successor not staged is staged on demand and commits BRANCH_NS after the boundary. -/
def State.takeDecision (s : State) (p mask : Nat) : State :=
  let i := lowestBit mask
  let next := ((s.curStep p).ends.getD i EndCond.none).next
  let bound := addNs s.now (s.tickNs p)
  let s := ((s.wr F.TR_DECIDE_NEXT next p).wr F.TR_DECIDE_TRUE_MASK mask p).wr F.TR_DECIDE_END_IDX i p
  let s := (s.wr F.TR_DECIDE_DECIDED 1 p).wr F.TR_DECIDE_ON_DEMAND 0 p
  let s := s.putTreadle p { s.treadle p with boundary := bound }
  if next = nextEnd then s.schedule p (some (bound, .finish))
  else if next = nextStop then s.schedule p (some (bound, .stop))
  else if (s.treadle p).staging.any (fun x => x.step == next) then s.schedule p (some (bound, .commit))
  else
    let s := ((s.cancelStaging p 0).stage p next).wr F.TR_DECIDE_ON_DEMAND 1 p
    s.schedule p (some (addNs bound (s.rd F.TR_TIMING_BRANCH_NS p), .commit))

/-- The conditions evaluated now and, where one holds, the decision. -/
def State.evaluateStep (s : State) (p : Nat) : State :=
  let x := s.treadle p
  if (s.rd F.TR_STATUS_STATE p = 1 ∨ s.rd F.TR_STATUS_STATE p = 3) ∧ x.due = none ∧ x.lastEval ≠ some s.now then
    let s := (s.each x.started State.axUpdate).latchDone p
    let r := (s.putTreadle p { s.treadle p with lastEval := some s.now }).evalConds p
    if r.2 = 0 then r.1 else r.1.takeDecision p r.2
  else s

/-- A condition tick (R121): an instant whose nanosecond count is a multiple of TICK_NS. -/
def execTreadleTick (t : Instant) (p : Fin 16) (s : State) : Out := .next (
  let s := s.advance t
  if onGrid (s.tickNs p) 0 s.now then s.evaluateStep p else s)

/-- The decision instant of a TIME condition (R121): τ has reached ARG - TICK_NS. -/
def execTimeDecision (t : Instant) (p : Fin 16) (s : State) : Out := .next (
  let s := s.advance t
  let tick := s.tickNs p
  if (s.curStep p).ends.any (fun c => c.kind == 1 && decide (16 * (c.arg - tick) ≤ s.tau p)) then s.evaluateStep p else s)

/-! ### The commit (R126 to R132) -/

/-- The VALVE changes of a commit (R130, R131): an earlier change of the same output is
replaced and counted; a change whose delay the τ of the commit covers takes effect at once (17 R422). -/
def State.commitValves (s : State) (p : Nat) (acts : List PoolEntry) : State :=
  let vs := acts.filter (fun a => a.opcode == 6)
  let sels := vs.map (·.arg0)
  let old := (s.treadle p).valves
  let tau := (s.treadle p).credit
  let gone := (old.filter (fun v => sels.contains v.sel)).length
  let s := s.when (gone != 0) (·.wr F.TR_EVENT_VALVE_REPLACED 1 p)
  let later := (vs.filter (fun a => decide (tau < 16 * a.arg2))).map (fun a => (⟨a.arg0, a.arg1 == 1, s.now + BitVec.ofNat 64 (16 * a.arg2 - tau)⟩ : PendingValve))
  let s := s.putTreadle p { s.treadle p with valves := old.filter (fun v => !sels.contains v.sel) ++ later, replaced := (s.treadle p).replaced + gone }
  (vs.filter (fun a => decide (16 * a.arg2 ≤ tau))).foldl (fun s a =>
    match s.outIndex a.arg0 1 with
    | some k => s.command k (a.arg1 == 1)
    | none => s) s

/-- One spawn of a commit (R132). -/
def State.spawn (s : State) (p : Nat) (a : PoolEntry) : State :=
  s.spawnTask p (64 * p + a.arg0) a.arg1

/-- The actions of a commit whose resources lie outside the Treadle: axes started as one group,
sequencers and mask units armed, tasks spawned (Table 5.10). -/
def State.commitActions (s : State) (p : Nat) (acts : List PoolEntry) : State :=
  let s := s.startAxes ((acts.filter (fun a => a.opcode == 7)).map (fun a => (a.target, a.arg0, a.arg1)))
  acts.foldl (fun s a =>
    match a.opcode with
    | 8 => s.armTrig a.target
    | 9 => s.armMask a.target a.arg0
    | 10 => s.spawn p a
    | _ => s) s

/-- The first-listed successor of a step (R124): the NEXT of its lowest-numbered condition. -/
def firstNext (r : StepRec) : Nat := ((r.ends.find? (fun c => c.kind != 0)).map (·.next)).getD nextEnd

/-- The commit of a finished staging at this instant (R130 to R132): every resource of the
partition takes the step, and run-ahead staging of its first-listed successor begins.  At a warm
resume τ and what the conditions hold are the checkpointed ones, and axes, sequencers, mask units and tasks are not started again
(17 R422). -/
def State.commitStep (s : State) (p : Nat) (t : StepTable) (x : Staging) : State :=
  let acts := t.actions x.step
  let r := t.step x.step
  let tr := s.treadle p
  let s := s.putTreadle p { tr with resume := none, credit := (tr.resume.map (·.tau)).getD 0, staging := none, due := none, paused := 0, pausedAt := none, lastEval := none, moved := (acts.filter (fun a => a.opcode == 3)).map (·.target), started := if tr.resume.isSome then [] else (acts.filter (fun a => a.opcode == 7)).map (·.target), finished := [] }
  let s := (s.wr F.TR_STEPS_CUR_STEP x.step p).wr F.TR_STEPS_STAGED_STEP 0xFFFF p
  let s := (s.wr F.TR_STATUS_STAGE_STATE 0 p).wr F.TR_STATUS_DEFERRED 0 p
  let s := ((s.wr F.TR_LABEL r.label p).wrT F.TR_COMMIT s.now p).wrT F.TR_NEXT 0 p
  let s := (s.wr F.TR_DECIDE_DECIDED 0 p).roll F.TR_COMMITS p
  let held := (tr.resume.map (·.conds)).getD []
  let s := s.each (List.range 4) (fun s i => s.wr F.TR_COND (held.getD i 0) (4 * p + i))
  let s := (s.each x.cells State.trySwap).each x.gens State.commitGen
  let s := s.each (s.owned 0 p) (fun s n => s.putCell n { s.cell n with commitAt := some s.now })
  let s := (s.trigStep p x.step).commitValves p acts
  let s := if tr.resume.isSome then s else s.commitActions p acts
  let s := s.record p (commitRec s.now x.step (s.rd F.TR_DECIDE_END_IDX p) r.label)
  let s := (s.emitFrom 4 p (Config.stepEventWord x.step r.label).toNat).latchDone p
  let s := if bitOf r.flags 0 ∧ s.rd F.TR_STATUS_STATE p = 1 then s.wr F.TR_STATUS_PAUSE_CAUSE (withBit (s.rd F.TR_STATUS_PAUSE_CAUSE p) 3) p else s
  let s := if s.rd F.TR_STATUS_STATE p = 1 ∧ s.on F.TR_STATUS_PAUSE_CAUSE p then s.enterPause p else s
  let next := firstNext r
  if next = nextEnd ∨ next = nextStop then s else s.stage p next

/-- A staging miss (R126): nothing is committed; the commit is deferred, or the Treadle aborts. -/
def State.stagingMiss (s : State) (p : Nat) : State :=
  let step := match (s.treadle p).staging with
    | some x => x.step
    | none => 0xFFFF
  let s := ((s.bump F.TR_MISS_CNT p).wr F.TR_EVENT_STAGE_MISS 1 p).treadleEvent p 2 step
  if s.rd F.TR_LOAD_MISS_REACT p = 1 ∧ s.rd F.TR_STATUS_STATE p ≠ 3 then s.abortTreadle p
  else
    let s := s.schedule p none
    let s := s.putTreadle p { s.treadle p with staging := (s.treadle p).staging.map (fun x => { x with missed := true }), due := some (s.now, .commit) }
    s.wr F.TR_STATUS_DEFERRED 1 p

/-- What a commit instant brings: a miss, an abort for an invalid staging (R127), or the
commit. -/
def State.commitDue (s : State) (p : Nat) : State :=
  match (s.treadle p).table, (s.treadle p).staging with
  | some t, some x =>
    if !x.finished then s.stagingMiss p
    else if x.invalid then
      let s := s.wr F.TR_EVENT_STAGE_INVALID 1 p
      if s.rd F.TR_STATUS_STATE p = 3 then (s.wr F.TR_EVENT_ABORT_IGNORED 1 p).commitStep p t x else s.abortTreadle p
    else s.commitStep p t x
  | _, _ => s

/-- The boundary of a decided step (R123): a staged successor commits, END makes the Treadle
IDLE, STOP aborts. -/
def execStepBoundary (t : Instant) (p : Fin 16) (s : State) : Out := .next (
  let s := s.advance t
  match (s.treadle p).due with
  | some (at_, .finish) => if at_ = s.now then s.endTreadle p else s
  | some (at_, .stop) =>
    if at_ = s.now then (s.schedule p none).abortTreadle p else s
  | some (at_, .commit) => if at_ = s.now ∧ (s.treadle p).boundary = at_ then s.commitDue p else s
  | none => s)

/-- A staging finishes (R124, R127): its record is written and it is checked for validity; one
whose commit instant it missed commits at the first tick from now (R126). -/
def execStagingDone (t : Instant) (p : Fin 16) (s : State) : Out := .next (
  let s := s.advance t
  match (s.treadle p).table, (s.treadle p).staging with
  | some tbl, some x =>
    if x.finished then s
    else
      let bad := x.cells.any (fun n => !s.on F.LC_STATUS_SHADOW_VALID n)
      let took := (sinceNs s.now x.start).toNat
      let times := (took :: (s.treadle p).stageTimes).take 256
      let s := s.putTreadle p { s.treadle p with staging := some { x with finished := true, invalid := bad }, stageTimes := times }
      let s := (s.wr F.TR_STATUS_STAGE_STATE (if bad then 3 else 2) p).wr F.TR_STEPS_STAGED_STEP x.step p
      let s := (s.wr F.TR_STAGE_AVG (times.sum / times.length) p).wr F.TR_STAGE_MAX (max took (s.rd F.TR_STAGE_MAX p)) p
      let s := s.record p (stageRec s.now tbl x.step)
      if x.missed then s.schedule p (some (tickFrom (s.tickNs p) s.now, .commit)) else s
  | _, _ => s)

/-- The scheduled commit instant (R126, R130). -/
def execStepCommit (t : Instant) (p : Fin 16) (s : State) : Out := .next (
  let s := s.advance t
  match (s.treadle p).due with
  | some (at_, .commit) =>
    if at_ = s.now ∧ !((s.treadle p).staging.any (fun x => x.missed && !x.finished)) then s.commitDue p else s
  | _ => s)

/-- The pending VALVE changes whose instant is now take effect (R130). -/
def execValveChange (t : Instant) (p : Fin 16) (s : State) : Out := .next (
  let s := s.advance t
  let due := (s.treadle p).valves.filter (fun v => v.at_ == s.now)
  let s := s.putTreadle p { s.treadle p with valves := (s.treadle p).valves.filter (fun v => v.at_ != s.now) }
  due.foldl (fun s v =>
    match s.outIndex v.sel 1 with
    | some k => s.command k v.level
    | none => s) s)

/-- A Treadle fault (R138): IDLE without the stop chain, and the partition to STOP. -/
def execTreadleFault (t : Instant) (p : Fin 16) (s : State) : Out := .next (
  let s := s.advance t
  let s := (s.wr F.TR_STATUS_FAULT 1 p).wr F.TR_EVENT_TR_FAULT 1 p
  let s := (s.cancelStaging p 1).idleTreadle p
  (s.sysFault 5 p).partStop p 5)

/-! ### Profile generators (R140 to R145) -/

/-- A write of PG_CTRL (R140, R145). -/
def execPgEnable (t : Instant) (n : Fin 256) (value : Word) (s : State) : Out := .next (
  let s := s.advance t
  s.rwlWrite (pgOff n 0) (s.ownerPG n) (fun s =>
    if value.toNat % 2 = 0 then s.stopGen n
    else if s.on F.PG_CTRL n then s
    else if s.rd F.PG_PERIOD n < 1000 ∨ 1000000000 < s.rd F.PG_PERIOD n ∨ s.rd F.PG_PERIOD n ≤ s.rd F.PG_PHASE n then s.wr F.PG_EVENT_ENABLE_REFUSED 1 n
    else ((s.startGen n).wakeQuadrant (n / 64)).runChange))

/-- An update of a generator on its strobe grid (R140). -/
def execPgUpdate (t : Instant) (n : Fin 256) (s : State) : Out := .next (
  let s := s.advance t
  if s.on F.PG_CTRL n && s.quadOn (n / 64) && !s.on F.WARP_STATUS_COARSE && onGrid (s.rd F.PG_PERIOD n) (s.rd F.PG_PHASE n) s.now then
    let s := s.updateGen n
    match s.ownerPG n with
    | some p => s.latchDone p
    | none => s
  else s)

/-- Offset of a generator register in its instance. -/
def GenReg.offset : GenReg → Nat
  | .target => 0x14
  | .vmax => 0x18
  | .win => 0x1C

/-- A host write of PG_TARGET, PG_VMAX or PG_WIN (R144): discarded unless the Treadle is IDLE
or ABORTING. -/
def execPgHostWrite (t : Instant) (n : Fin 256) (r : GenReg) (value : Word) (s : State) : Out := .next (
  let s := s.advance t
  s.hostWrite (pgOff n (GenReg.offset r)) (fun s =>
    if s.treadleBusy (s.ownerPG n) then (s.wr F.PG_EVENT_TARGET_DROP 1 n).discardOther (pgOff n (GenReg.offset r))
    else
      let cur := (s.gen n).limits.getD (s.limitsOf n)
      match r with
      | .target => s.giveTarget n value.toNat
      | .vmax => s.giveLimits n (genLimits (value.toNat % 2 ^ 31) cur.2.1 cur.2.2)
      | .win => s.giveLimits n (genLimits cur.1 (value.toNat % 2 ^ 11) (value.toNat / 2 ^ 16 % 2 ^ 11))))

end Sys2Proof.Machine
end

