-- ==== Sys2Proof/Machine/BootOps.lean ====
section
/-! DEFINITION.  The steps of the boot (17 R417 to R419; 15 R366 to R393) and the restoring of a
partition (17 R421, R422). -/

namespace Sys2Proof.Machine

open Sys2Proof

/-! ### Reporting (R418) -/

/-- A failure of boot step `n` with the result code of its chapter, a free value where that chapter
gives none; the first failure stays reported. -/
def State.bootFails (s : State) (n : Nat) (code : Option Nat) : State :=
  if s.on F.RST_STAGE_FAIL_STEP then s
  else
    let d := s.draw
    match code with
    | some c => (s.wr F.RST_STAGE_FAIL_STEP n).wr F.RST_STAGE_FAIL_CODE c
    | none => (d.2.wr F.RST_STAGE_FAIL_STEP n).wr F.RST_STAGE_FAIL_CODE d.1.toNat

/-- The next step of the boot, unless it has ended. -/
def andThen (x : State × Bool) (f : State → State × Bool) : State × Bool := if x.2 then f x.1 else x

/-- A boot that halts at step `n` with FAULT_N (Table 17.5). -/
def State.bootHalts (s : State) (n cause : Nat) (code : Option Nat) : State × Bool := ((s.bootFails n code).devFault cause, false)

/-- Step `n` in progress. -/
def State.bootAt (s : State) (n : Nat) : State := s.wr F.RST_STAGE_STAGE n

/-! ### Step 1 (Table 17.5, 16 R411) -/

/-- Supplies and REFCLK: not ready, the device is held in reset and the attempt counts.  A wake from OFF
then fails as R411 has it, and after its third retry ends in OFF with FAULT_N asserted. -/
def State.bootStep1 (s : State) (b : BootRec) : State × Bool :=
  let s := s.bootAt 1
  if b.ready then ((((s.wr F.WARP_STATUS_MON_OK 1).wr F.WARP_STATUS_LOCKED (b2n (!s.on F.WARP_STATUS_HOLDOVER))).startVolt).onBoot (fun x => { x with held := false }), true)
  else
    let s := (s.bootFails 1 none).onPower (fun w => { w with retries := w.retries + 1 })
    let wake := s.rd F.RST_CAUSE_CAUSE = 5
    let s := if wake then (s.bump F.PWR_WAKE_FAIL_CNT).pwrFlag 3 else s
    if s.power.retries ≤ 3 then (s, false)
    else if wake then
      let s := ((s.onBoot (fun x => { x with held := false })).putPwrState 4).onPower (fun w => { w with escalated := true })
      (((s.wr F.PWR_STATUS_FAULT 1).pwrFlag 4).devFault 4, false)
    else (s.devFault 4, false)

/-! ### Step 2: Zenith (15 R366 to R374, R390, R392) -/

/-- Whether a component's VERSION is below its floor (15 Table 15.3). -/
def State.compBelow (s : State) (c : BundleComp) : Bool :=
  if c.type < 16 then decide (c.version < s.rd F.SEC_FW_FLOOR) else s.belowFloor (if c.type = 16 then 0 else 2) 0 c.version

/-- Whether the components of one class are those of another bundle. -/
def sameClass (firmware : Bool) (a b : Bundle) : Bool :=
  let of_ := fun (x : Bundle) => (x.comps.filter (fun c => decide (c.type < 16) == firmware)).map (fun c => (c.type, c.digest))
  (of_ a).all (of_ b).contains && (of_ b).all (of_ a).contains

/-- The next-boot check of slot `k` (15 Table 15.14): the first check that fails. -/
def State.trialResult (s : State) (k : Nat) (b : BootRec) : Nat :=
  match s.sec.record, s.sec.slots.find k, s.sec.slots.find (1 - k) with
  | some (r, d), some x, active =>
    if r ≠ k ∨ s.slotState k ≠ 2 then 1
    else if !d.sigOk || !(match d.kind with | 0 => s.makerOk d.keyId | 1 => s.rootOk d.keyId | _ => s.rootPresent d.keyId) then 2
    else if !b.gcmOk then 3
    else if x.digest ≠ d.target then 4
    else if !b.compsOk then 5
    else if d.kind = 0 ∧ active.any (sameClass false x) = false ∨ d.kind = 1 ∧ active.any (sameClass true x) = false then 6
    else if x.comps.any s.compBelow then 7
    else 0
  | _, _, _ => 1

/-- ZENITH_FW of slot `k` verifies. -/
def BootRec.zenithOk (b : BootRec) (k : Nat) : Bool := if k = 0 then b.fwOk.1 else b.fwOk.2

/-- The update state at a start (15 R390, R392, R394): an application or an armed activation is
lost, a trial reverts, and a named slot is checked. -/
def State.bootSelect (s : State) (b : BootRec) : State :=
  let s := s.wr F.UPD_STATUS_ACTIVE_SLOT s.sec.active
  let named := s.sec.tryNext
  let s := s.onSec (fun x => { x with tryNext := none })
  match named with
  | some k =>
    let r := s.trialResult k b
    let s := s.wr F.UPD_STATUS_CHECK_RESULT r
    if r = 0 then ((s.wr F.UPD_STATUS_STATE 4).wr F.UPD_STATUS_ACTIVE_SLOT k).showSlot k 1
    else (((s.onSec (fun x => { x with record := none })).showSlot k 3).wr F.UPD_STATUS_STATE 0).updEvent 3 r
  | none =>
    match s.rd F.UPD_STATUS_STATE with
    | 1 => (s.emptySlot s.inactive).wr F.UPD_STATUS_STATE 0
    | 3 => s.wr F.UPD_STATUS_STATE 2
    | 4 => ((s.showSlot s.inactive 2).wr F.UPD_STATUS_STATE 2).updEvent 4
    | _ => s

/-- Step 2: PUF, key block, floors, boot-select record and ZENITH_FW. -/
def State.bootStep2 (s : State) (b : BootRec) : State × Bool :=
  let s := s.bootAt 2
  if !b.pufOk then s.bootHalts 2 5 none
  else
    let s := (s.onSec (fun x => { x with absent := b.absent, lost := b.lost })).wr F.SEC_STATUS_PUF_OK 1
    let s := s.wr F.SEC_STATUS_KEYBLOCK_OK (b2n b.absent.isEmpty)
    let s := if b.lost.isEmpty then s else (s.wr F.SEC_STATUS_FLOOR_LOST 1).secEvent 5
    let s := b.lost.foldl (fun s e => s.wr (floorField e.1) 0xFFFFFFFF e.2) s
    let s := s.bootSelect b
    let k := s.rd F.UPD_STATUS_ACTIVE_SLOT
    let take := fun (s : State) (k : Nat) => s.onSec (fun x => { x with manifest := ((x.slots.find k).map (·.digest)).getD 0 })
    if BootRec.zenithOk b k then (take s k, true)
    else if BootRec.zenithOk b (1 - k) && s.slotState (1 - k) == 1 && (s.sec.slots.find (1 - k)).any (fun (x : Bundle) => !x.comps.any s.compBelow) then
      let s := s.wr F.UPD_STATUS_ACTIVE_SLOT (1 - k)
      (take (if s.rd F.UPD_STATUS_STATE = 4 then (s.showSlot k 2).wr F.UPD_STATUS_STATE 2 else s) (1 - k), true)
    else s.bootHalts 2 6 none

/-! ### Steps 3 to 5 -/

/-- Step 3: Steward; FAULT_N released unless a fault is latched. -/
def State.bootStep3 (s : State) (b : BootRec) : State × Bool :=
  let s := s.bootAt 3
  if b.stewardOk then ({ s with warp := { s.warp with faultN := s.on F.SYS_DEVFAULT } }, true) else s.bootHalts 3 6 none

/-- Step 4: both DRAM channels trained, in-line ECC enabled (18 R450, R451).  PASS_S is rounded
down where 1,800 × POP_GIB / 64 is no whole number (assumption 81); RATE is rounded to the nearest. -/
def State.bootStep4 (s : State) (b : BootRec) : State × Bool :=
  let s := s.bootAt 4
  if b.dramOk then
    let s := ((s.wr F.MEM_DRAM_STATUS_RATE ((b.rate + 50) / 100)).wr F.MEM_DRAM_STATUS_POP_GIB b.gib).wr F.MEM_DRAM_STATUS_TRAINED 1
    (((s.wr F.MEM_DRAM_STATUS_ECC_ON 1).wr F.MEM_DRAM_USABLE (b.gib * 1024 * 7 / 8)).wr F.MEM_DRAM_SCRUB (1800 * b.gib / 64), true)
  else s.bootHalts 4 6 none

/-- The checkpoint with a good CRC and the highest SEQ (R420). -/
def State.newestCkpt (s : State) (bad : List Nat) : Option Checkpoint :=
  ((s.boot.ckpts.entries.filter (fun e => !bad.contains e.1)).map (·.2)).foldl
    (fun b c => match b with | none => some c | some o => if o.seq < c.seq then some c else some o) none

/-- The odometers restored (17 R421): from the checkpoint or from the odometer area, whichever was
written later: a checkpoint counts the writes of the area before it, since Warp time need not order
the two. -/
def State.restoreOdometers (s : State) : State :=
  let area := s.cyc.odo.entries.foldl (fun (s : State) e => e.2.entries.foldl (fun (s : State) x => s.putReg e.1 x.1 x.2) s) s
  match s.boot.selected with
  | some c =>
    if c.odoWrites < s.cyc.odoWrites then area
    else c.odo.foldl (fun (s : State) e => s.putReg e.1 e.2.1 e.2.2) s
  | none => area

/-- Step 5: what MRAM holds; each start has an epoch of its own (07 R180). -/
def State.bootStep5 (s : State) (b : BootRec) : State × Bool :=
  let s := (s.bootAt 5).roll F.SK_EPOCH
  let c := s.newestCkpt b.badCkpts
  let s := s.onBoot (fun x => { x with selected := c })
  let s := s.wr F.RST_CAUSE_CKPT_FOUND (b2n c.isSome)
  let s := match c with
    | some c => (s.wr F.CKPT_SEQ c.seq).wrT F.CKPT_T c.k
    | none => s
  (s.restoreOdometers, true)

/-! ### Steps 6 to 9 -/

/-- Step 6: the Beam, retried once. -/
def State.bootStep6 (s : State) (b : BootRec) : State × Bool :=
  let s := (s.bootAt 6).beamLoad b.beam
  if s.rd F.LOOM_BEAM_STATUS_STATE = 2 then (s, true)
  else
    let s := s.beamLoad b.beamAgain
    if s.rd F.LOOM_BEAM_STATUS_STATE = 2 then (s, true) else s.bootHalts 6 6 (some (s.rd F.LOOM_BEAM_STATUS_RESULT))

/-- An item of partition `p` that failed at step 7. -/
def State.itemFails (s : State) (p : Nat) (code : Option Nat) : State :=
  (s.bootFails 7 code).onBoot (fun x => { x with failed := if x.failed.contains p then x.failed else x.failed ++ [p] })

/-- The items of one kind of the store reloaded: unreadable, failing or taken. -/
def State.reloadItems {α : Type} (s : State) (b : BootRec) (kind : Nat) (l : List (Nat × α)) (part : Nat × α → Nat)
    (check : State → Nat × α → Nat) (take : State → Nat × α → State) : State :=
  l.foldl (fun s e =>
    if b.unread.contains (kind, e.1) then s.itemFails (part e) none
    else
      let r := check s e
      if r = 0 then take s e else s.itemFails (part e) (some r)) s

/-- Step 7: drafts, journals, programs, step tables, segment containers and envelopes, checked as
at their loads. -/
def State.bootStep7 (s : State) (b : BootRec) : State × Bool :=
  let x := (s.bootAt 7).reloadDrafts ((b.unread.filter (·.1 == 4)).map (·.2))
  let s := (x.2.foldl (fun s e => s.itemFails e.1 e.2) x.1).replayJournals
  let i := s.host.items
  let s := s.reloadItems b 3 i.progs.entries (·.1) (fun s e => s.programResult e.1 e.2) (fun s e => s.takeProgram e.1 e.2)
  let s := s.reloadItems b 0 i.tables.entries (·.1) (fun s e => s.tableResult e.1 e.2) (fun s e => s.takeTable e.1 e.2)
  let segs := (i.segs.entries.map (fun e => e.2.map (fun g => (e.1, g)))).flatten
  let s := s.reloadItems b 1 segs (·.2.partition) (fun s e => s.segResult e.2.partition e.2) (fun s e => s.takeSegs e.2)
  let s := s.reloadItems b 2 i.envs.entries (·.2.1) (fun s e => s.envResult e.2.1 e.2.2) (fun s e => s.takeEnvelope e.2.1 e.2.2)
  (s, true)

/-- The interlock program that the flash holds: the one LOAD_SAFETY wrote, or the bundle's where
that is newer or alone (DEDUCED). -/
def State.bootProgram (s : State) (b : BootRec) : Option SafProg :=
  match s.host.items.safe, b.safeprog with
  | some g, some h => if g.version < h.version then some h else some g
  | some g, none => some g
  | none, h => h

/-- Step 8: the safety island and the matrix, phase START; the converters calibrated. -/
def State.bootStep8 (s : State) (b : BootRec) : State × Bool :=
  let s := (s.bootAt 8).loadMatrix b.matrixOk
  let g := s.bootProgram b
  let s := s.onIsland (fun x => { x with prog := g })
  let ok := b.islandOk && g.any s.safProgOk
  let s := if ok then s else s.bootFails 8 none
  let s := (s.startProgram ok).toStart
  ({ s with conv := ⟨((List.range 25).zip b.cals).map (fun e => (e.1, ⟨e.2.1, e.2.2, false⟩))⟩ }, true)

/-- A ring's cycle number and reservation at a start (12 R315). -/
def State.bootRing (s : State) (b : BootRec) (r : Nat) : State :=
  let x := s.ring r
  if b.badRings.contains r then
    let s := s.putRing r { x with nextCycle := 0, readMax := 0, reserve := 2 ^ 32, reserveOk := true, authDead := true }
    s.wr F.SEC_RING_KEYS_KEYED (putBit (s.rd F.SEC_RING_KEYS_KEYED) r false)
  else s.putRing r { x with nextCycle := x.reserve, reserve := x.reserve + 2 ^ 32 }

/-- Step 9: the rings begin insertion and the Warp's epoch is set (R419); the boot waits for Q. -/
def State.bootStep9 (s : State) (b : BootRec) : State × Bool :=
  let s := s.bootAt 9
  let s := s.each (List.range 4) (fun s r => (s.bootRing b r).syncRing r)
  let s := match b.tai with
    | some t => if s.on F.RST_CAUSE_WARP_KEPT || !s.on F.RST_CFG_SYNC_WAIT_MS then s else s.stepWarp t 1
    | none => s
  (s.onBoot (fun x => { x with waiting := true }), true)

/-! ### Resume (R421, R422) -/

/-- K of the checkpoint lies a known time before now: the Warp was kept, or both instants are on
the TAI epoch. -/
def State.elapsedKnown (s : State) (c : Checkpoint) : Bool :=
  s.on F.RST_CAUSE_WARP_KEPT || (c.tai && s.rd F.WARP_STATUS_EPOCH == 1)

/-- RESUME_RESULT of partition `p`: the first condition that fails. -/
def State.resumeResult (s : State) (p : Nat) : Nat :=
  match s.boot.selected with
  | none => 2
  | some c =>
    let x := c.parts.find? (fun (x : CkptPart) => x.part == p)
    let ms := s.rd F.RESUME_CFG_RESUME_MS p
    if x.any (fun (x : CkptPart) => x.state == 1) = false then 1
    else if !s.on F.RST_CFG_WARM_EN then 2
    else if c.beam ≠ s.loom.digest.toNat % 2 ^ 128 ∨ c.manifest ≠ s.sec.manifest.toNat % 2 ^ 128 ∨ c.slots[p]? ≠ some (s.rd F.LP_STATUS_ACTIVE p) ∨
        x.any (fun (x : CkptPart) => x.version == s.rd F.CP_VERSION p) = false then 3
    else if ms = 0 ∨ (s.elapsedKnown c = true ∧ 1000000 * (ms : Int) < sinceNs s.now c.k) then 4
    else if !s.elapsedKnown c && !s.on F.RESUME_CFG_RESUME_UNTIMED p then 5
    else if s.boot.failed.contains p then 6
    else 0

/-- Ring `r` is in ERROR and partition `p` owns an output byte of it (Table 17.5, step 9). -/
def State.ringLost (s : State) (p r : Nat) : Bool :=
  s.rd F.RING_STATUS_STATE r == 6 &&
  (s.recsOwned p).any (fun e => keySpace e.1 == 4 && keyKind e.1 == 10 && keyIndex e.1 / 16384 == r)

/-- The first latch of partition `p` at or after now. -/
def State.firstLatch (s : State) (p : Nat) : Instant :=
  let ls := ((cycTasks p).filter (fun k => s.on F.CT_CFG_EN k)).map (fun k =>
    let a := 1000 * s.rd F.CT_PERIOD k
    let b := 1000 * s.rd F.CT_PHASE k
    if onGrid a b s.now then s.now else nextGrid a b s.now)
  ls.foldl (fun x l => if earlier l x then l else x) (ls.headD s.now)

/-- A class P timer record of a checkpoint as a resume restores it (11 R292): a running one keeps
its elapsed time, and gains D. -/
def rebase (shift : BitVec 64) (bs : List Byte) : List Byte :=
  if ofLeBytes (bs.drop 12) % 2 = 1 then leBytes 8 (BitVec.ofNat 64 (ofLeBytes (bs.take 8)) + shift).toNat ++ bs.drop 8 else bs

/-- The variables of a resuming partition (11 R292): class P timers from the checkpoint, edge
detectors new; the others stand as the reload left them. -/
def State.resumeVars (s : State) (c : Checkpoint) (x : CkptPart) : State :=
  let tai := c.tai && s.rd F.WARP_STATUS_EPOCH == 1
  let shift := if tai then s.compensated - s.now - (c.comp - c.k) else s.firstLatch x.part + (s.compensated - s.now) - c.comp
  let s := x.timers.foldl (fun s e => s.partStore x.part e.1 (rebase shift e.2)) s
  let edges := (((s.cycPart x.part).prog.map (·.vars)).getD []).filter (fun (v : VarEntry) => v.kind == 4)
  edges.foldl (fun s (v : VarEntry) => s.partStore x.part v.addr (freshBytes 4 (s.varBytes x.part v))) s

/-- Partition `x` restored at Q from checkpoint `c` (R422). -/
def State.resumePart (s : State) (c : Checkpoint) (x : CkptPart) : State :=
  let p := x.part
  let s := s.resumeVars c x
  let s := x.axes.foldl State.restoreAxis (x.cells.foldl State.restoreCell (x.gens.foldl State.restoreGen s))
  let s := (s.restoreRejoin x).restoreTreadle p x.treadle
  let s := s.onBoot (fun b => { b with watched := b.watched ++ ((List.range 512).filter (fun i => s.rejoined p (i / 128) (i % 128))).map (fun i => (p, i / 128, i % 128)) })
  let tai := c.tai && s.rd F.WARP_STATUS_EPOCH == 1
  let s := if tai then s else s.cpEvent p 9
  s.enterRun p (if tai then 4 else 36)

/-- Partition `p` at the resume decision: restored, or left in STOP; where an ERROR ring keeps it
in STOP, RESUME_RESULT is not stated: a free value. -/
def State.decideResume (s : State) (p : Nat) : State :=
  let r := s.resumeResult p
  if r ≠ 0 then (s.wr F.RESUME_CFG_RESUME_RESULT r p).wr F.CP_STATUS_STOP_CAUSE (if r = 4 ∨ r = 5 then 8 else 0) p
  else if (List.range 4).any (s.ringLost p) then
    let d := s.draw
    (d.2.wr F.RESUME_CFG_RESUME_RESULT d.1.toNat p).wr F.CP_STATUS_STOP_CAUSE 0 p
  else
    match s.boot.selected with
    | some c =>
      match c.parts.find? (fun (x : CkptPart) => x.part == p) with
      | some x => ((s.resumePart c x).wr F.RESUME_CFG_RESUME_RESULT 0 p).wr F.RST_CAUSE_WARM 1
      | none => s
    | none => s

/-- The RESTART record of stream `k` (07 R189), ahead of what its first block holds: the TAPCFG record of its
taps (R176) and the records made since the reset.  Without a checkpoint LAST_CONSUMED and START are
not stated: free values. -/
def State.restartStream (s : State) (k : Nat) : State :=
  let a := s.draw
  let b := a.2.draw
  let (consumed, start, s) := match s.boot.selected with
    | some c => ((c.consumed[k]?).getD 0, c.k, s)
    | none => (a.1.toNat, b.1, b.2)
  let body := leBytes 4 (s.rd F.SK_EPOCH) ++ leBytes 1 (s.rd F.RST_CAUSE_CAUSE) ++ [0, 0, 0] ++
    leBytes 8 ((s.rd F.SKS_SEQ k + 2 ^ 64 - 1) % 2 ^ 64) ++ leBytes 8 consumed ++ leBytes 8 start.toNat ++ leBytes 8 s.now.toNat
  let early := (s.stream k).early
  let s := s.putStream k { s.stream k with early := [] }
  let s := (s.record k { kind := 0x0A, flags := 0, body := body, first := s.now, last := s.now, samples := [] }).tapCfg k s.now
  early.foldl (fun s r => s.putRec k r 128) s

end Sys2Proof.Machine
end

