-- ==== Sys2Proof/Machine/Reset.lean ====
section
/-! DEFINITION.  The commands of reset, boot and warm restart (17). -/

namespace Sys2Proof.Machine

open Sys2Proof

/-! ### Reset sources (R413, R414) -/

/-- RESET_N low (R414): shorter than 1.6 µs never resets, 2.4 µs or longer always does, and
between the two the filter decides. -/
def execResetPin (t : Instant) (lowNs : Nat) (takes : Bool) (s : State) : Out := .next (
  let s := s.advance t
  if decide (2400 ≤ lowNs) || (decide (1600 ≤ lowNs) && takes) then s.beginReset 1 else s)

/-- A write of RST_CTRL: DEVICE acts with its key. -/
def execDeviceReset (t : Instant) (value : Word) (s : State) : Out := .next (
  (s.advance t).hostWrite 0xE00208 (fun s => if value.toNat / 2 ^ 16 = 0x5253 ∧ value.getLsbD 0 = true then s.beginReset 2 else s))

/-- The device watchdog has run out: Steward, which serves it, is up in RUN and IDLE (16 Table 16.1) from
step 3 of the boot on. -/
def execWatchdog (t : Instant) (s : State) : Out := .next (
  let s := s.advance t
  if s.rd F.PWR_STATUS_STATE ≤ 1 ∧ 3 ≤ s.rd F.RST_STAGE_STAGE then s.beginReset 3 else s)

/-- A power-good input rises after the device was unpowered, or falls while it is powered; an
unpowered device meets no fall, and in OFF the inputs do not matter. -/
def execPowerGoodChange (t : Instant) (good lost : Bool) (s : State) : Out := .next (
  let s := s.advance t
  if good then (if s.boot.powered then s else (s.onBoot (fun b => { b with powered := true })).beginReset 0)
  else if s.boot.powered && s.rd F.PWR_STATUS_STATE != 4 then (s.beginReset 6).onBoot (fun b => { b with powered := !lost })
  else s)

/-! ### The boot (R417) -/

/-- The start of the boot at the release of reset: a Warp that was cleared counts from 0 (R11). -/
def State.released (s : State) : State :=
  let s := if s.on F.RST_CAUSE_WARP_KEPT then s else { s with warp := { s.warp with now := 0, frac := 0 } }
  s.onBoot (fun x => { x with releasedAt := s.compensated })

/-- Reset released: the boot runs to its step 9, or to the step at which it ends. -/
def execResetRelease (t : Instant) (b : BootRec) (s : State) : Out := .next (
  let s := s.advance t
  if s.boot.held then
    (andThen (andThen (andThen (andThen (andThen (andThen (andThen (andThen (s.released.bootStep1 b) (·.bootStep2 b)) (·.bootStep3 b)) (·.bootStep4 b))
      (·.bootStep5 b)) (·.bootStep6 b)) (·.bootStep7 b)) (·.bootStep8 b)) (·.bootStep9 b)).1
  else s)

/-- Q (R421, R422): a whole millisecond at which no ring is still inserted or discovered.  The
resuming partitions are restored, every stream takes its RESTART record, and the boot is done. -/
def execResumeInstant (t : Instant) (s : State) : Out := .next (
  let s := s.advance t
  let busy := (List.range 4).any (fun r => s.rd F.RING_STATUS_STATE r == 1 || s.rd F.RING_STATUS_STATE r == 2)
  if s.boot.waiting && onGrid 1000000 0 s.now && !busy then
    let s := if (List.range 4).any (fun r => s.rd F.RING_STATUS_STATE r == 6) then s.bootFails 9 none else s
    let s := (s.onBoot (fun b => { b with waiting := false })).wr F.HOST_STATUS_BOOTING 0
    let s := s.each (List.range 17) State.restartStream
    let s := s.each (List.range 16) State.decideResume
    let s := (s.bootAt 10).wr F.RST_BOOT_US (sinceNs s.compensated s.boot.releasedAt / 1000).toNat
    s.settle.runChange
  else s)

/-! ### Checkpoints (R420) -/

/-- K: a checkpoint goes to the next slot while any partition is running; one that cannot be
completed by the next K is abandoned, and the next takes the same slot. -/
def execWarmCheckpoint (t : Instant) (completed : Bool) (s : State) : Out := .next (
  let s := s.advance t
  if onGrid 10000000 0 s.now && (List.range 16).any s.partRunning && completed then
    let c := s.takeCheckpoint (s.rd F.CKPT_SEQ + 1)
    let s := s.onBoot (fun b => { b with ckpts := b.ckpts.set b.next c, next := (b.next + 1) % 16 })
    (s.wr F.CKPT_SEQ c.seq).wrT F.CKPT_T c.k
  else s)

/-! ### Partition reset (R416) -/

/-- A loop cell of a partition in reset: its destination takes SAFE_U, while its u stays the last
released one for cascades and routes (03 R72, 09 R216); it is disabled and leaves FAULTED. -/
def State.resetCell (s : State) (n : Nat) : State :=
  let s := (s.haltCell n).driveCell n (s.rdI F.LC_SAFE_U n)
  let s := s.putCell n { s.cell n with faultDue := false }
  (((s.settle).wr F.LC_SUP_STATUS_FAULT_CAUSE 0 n).wr F.LC_SUP_STATUS_SUP_STATE 0 n)

/-- The registers of a resource in its effective configuration; a cell's CS is clamped. -/
def State.reconfigure (s : State) (key : Nat) : State :=
  let s := s.takeLoaded key
  if keyKind key = 0 then s.putCs (keyNumber key) (s.cs (keyNumber key)) else s

/-- What an accepted partition reset does (R416). -/
def State.resetPartition (s : State) (p : Nat) : State :=
  let s := s.each (s.owned 0 p) State.resetCell
  let s := s.resetAxes p
  let s := s.resetTreadle p
  let s := if s.rd F.CP_STATUS_STATE p = 0 then (s.safeOutputs p).wr F.CP_STATUS_STOP_CAUSE 6 p else s.enterStop p 6
  let s := (s.resetTasks p).resetTrig p
  let s := (s.each (s.owned 1 p) State.stopGen).resetApply p
  let keys := ((s.recsOwned p).filter (fun e => decide (keySpace e.1 < 4) && decide (keyKind e.1 < 3))).map (·.1)
  let s := (s.each keys State.reconfigure).onBoot (fun b => { b with partAt := b.partAt.set p s.now })
  (s.wr F.RST_PART_IN_RESET 1 p).settle.runChange

/-- A write of RST_PART: PR_DONE and STATE_MISMATCH clear where written 1; RESET is refused where
EXPECT is not the program state. -/
def execPartitionReset (t : Instant) (p : Fin 16) (value : Word) (s : State) : Out := .next (
  (s.advance t).hostWrite (0xE00300 + 8 * p.val) (fun s =>
    let s := if value.getLsbD 17 then s.wr F.RST_PART_PR_DONE 0 p.val else s
    let s := if value.getLsbD 1 then s.wr F.RST_PART_STATE_MISMATCH 0 p.val else s
    if !value.getLsbD 0 then s
    else if value.toNat / 2 ^ 8 % 4 ≠ s.rd F.CP_STATUS_STATE p.val then s.wr F.RST_PART_STATE_MISMATCH 1 p.val
    else s.resetPartition p.val) value.toNat (value.getLsbD 0))

/-- The reset of a partition is done: its time enters the average of the last 256. -/
def execPrDone (t : Instant) (p : Fin 16) (s : State) : Out := .next (
  let s := s.advance t
  match s.boot.partAt.find p.val with
  | none => s
  | some at_ =>
    let times := ((sinceNs s.now at_).toNat :: s.boot.partNs).take 256
    let s := s.onBoot (fun b => { b with partAt := b.partAt.erase p.val, partNs := times })
    ((s.wr F.RST_PART_IN_RESET 0 p.val).wr F.RST_PART_PR_DONE 1 p.val).wr F.RST_PART_AVG (times.sum / times.length))

end Sys2Proof.Machine
end

