-- ==== Sys2Proof/Machine/TandemOps.lean ====
section
/-! DEFINITION.  The operations of a Tandem pair: roles, the link, copies of cycles, digests,
divergences, synchronisation (14). -/

namespace Sys2Proof.Machine

open Sys2Proof

/-! ### Ring roles (12 R314, R316, 14 R346) -/

/-- Ring `r` made master: LISTENING becomes RUNNING. -/
def State.ringMaster (s : State) (r : Nat) : State :=
  let s := s.wr F.RING_CTRL_ROLE 0 r
  if s.rd F.RING_STATUS_STATE r = 5 then (s.wr F.RING_STATUS_STATE 4 r).putRing r { s.ring r with cycleAt := none } else s

/-- Ring `r` made a listener: RUNNING becomes LISTENING. -/
def State.ringListener (s : State) (r : Nat) : State :=
  let s := s.wr F.RING_CTRL_ROLE 1 r
  if s.rd F.RING_STATUS_STATE r = 4 then
    let s := (s.wr F.RING_STATUS_STATE 5 r).putRing r { s.ring r with cycleAt := none }
    s.putPair r { s.pairRing r with listenAt := some s.now }
  else s

/-- A listener's ring reaches LISTENING (R314): its configuration is latched as at a discovery,
its stations are the expected ones. -/
def State.startListening (s : State) (r : Nat) : State :=
  let s := s.takeRingKey r
  let cfg := s.latchRing r
  let st := cfg.stations.takeWhile expectedStation
  let s := s.putRing r { s.ring r with cfg := { cfg with stations := st }, descs := st.map (fun c => ⟨c.vendor, c.product, 0, c.outLen, c.inLen, 0, 0⟩), cycleAt := none }
  let s := s.each (List.range st.length) (fun s i => (s.wr F.RS_ST_STATUS_ADMITTED 1 (128 * r + i)).wr F.RS_ST_STATUS_OK 1 (128 * r + i))
  (s.settle.wr F.RING_STATUS_STATE 5 r).putPair r { s.pairRing r with listenAt := some s.now }

/-- The rings' roles follow TD_CFG.EN and the unit's role (R346). -/
def State.ringRoles (s : State) : State :=
  s.each (List.range 4) (fun s r => if s.inPair && s.role != 0 then s.ringListener r else s.ringMaster r)

/-! ### Roles (Table 14.1) -/

/-- A new role, its rings following, is recorded (R364); where no bit of TD_EVENT stands for it, the bit
that the record names is not stated: a free value. -/
def State.putRole (s : State) (role : Nat) (bit : Option Nat) : State :=
  let s := if s.inPair && s.role == 4 && role != 4 then s.internalWake 5 else s
  let s := (s.wr F.TD_STATUS_ROLE role).ringRoles
  match bit with
  | some b => s.tdNote b
  | none => s.draw.2.tdRecord (s.draw.1.toNat % 256)

/-- The token taken with `term` (R361, R362): the rings become masters, the lease runs from now,
and the first frame of each Weft producer carries RESTART. -/
def State.takeToken (s : State) (term : Nat) (bit : Option Nat) : State :=
  let s := s.onTandem (fun x => { x with handover := none, offered := none })
  let s := (s.wr F.TD_STATUS_TERM term).putExpiry (addNs s.now s.leaseNs)
  let s := s.onIsland (fun x => { x with conns := ⟨x.conns.entries.map (fun e => (e.1, { e.2 with first := true }))⟩ })
  s.putRole 0 bit

/-- The unit becomes SYNC_LOST. -/
def State.loseSync (s : State) (bit : Nat := 1) : State :=
  let s := if bit = 1 then s else s.tdEvent 1
  s.putRole 2 (some bit)

/-- Number of covered partitions (R355). -/
def State.coveredCount (s : State) : Nat := ((List.range 16).filter s.covered).length

/-- The unit becomes REPAIRED; with at most 8 covered partitions its first attempt is due now
(R355). -/
def State.becomeRepaired (s : State) : State :=
  let s := s.onTandem (fun x => { x with retryAt := if s.coveredCount ≤ 8 then some s.now else none, joins := false, sync := none })
  s.putRole 3 none

/-- The unit becomes OFFLINE. -/
def State.becomeOffline (s : State) (bit : Option Nat := none) : State :=
  let s := s.onTandem (fun x => { x with joins := false, sync := none, retryAt := none })
  (s.wr F.TD_STATUS_SYNC_PHASE 0).putRole 4 bit

/-- OFFLINE left once the Beam is loaded and the link is up with a partner that holds the token
(R365). -/
def State.tryJoin (s : State) : State :=
  if s.inPair && s.role == 4 && s.tandem.joins && s.rd F.LOOM_BEAM_STATUS_STATE == 2 && s.on F.TD_STATUS_LINK_UP && s.rd F.TD_STATUS_PARTNER_ROLE == 0
  then s.becomeRepaired else s

/-! ### Synchronisation (R345, R351, R354) -/

/-- A failed attempt: the unit stays REPAIRED and may try again after 1 s. -/
def State.syncFails (s : State) (res : Nat) : State :=
  let s := ((s.wr F.TD_RESULT res).wr F.TD_STATUS_SYNC_PHASE 0).onTandem (fun x => { x with sync := none, retryAt := some (addNs s.now 1000000000) })
  s.tdNote 10 res

/-- The Beam assigns an AIN, AOUT or FIO pin, or a capture channel of kind AIN or FIO, to a covered
partition (R345). -/
def State.localIo (s : State) : Bool :=
  (s.recsOf 4 0).any (fun e => e.2.owner.any s.covered) ||
  (s.recsOf 4 5).any (fun e => e.2.owner.any s.covered && (s.rd F.CH_SRC_KIND (keyIndex e.1) == 4 || s.rd F.CH_SRC_KIND (keyIndex e.1) == 5))

/-- Every ring that the holder runs is LISTENING here (Table 14.5). -/
def State.ringsThere (s : State) : Bool :=
  (List.range 4).all (fun r => s.tandem.partnerRings.getD r 0 != 4 || s.rd F.RING_STATUS_STATE r == 5)

/-- A synchronisation begun, its image check finding no difference where `same`. -/
def State.startSync (s : State) (same : Bool) : State :=
  let s := s.onTandem (fun x => { x with retryAt := none })
  if !s.on F.TD_STATUS_LINK_UP || s.rd F.TD_STATUS_PARTNER_ROLE != 0 then s.syncFails 1
  else if s.localIo || !s.ringsThere then s.syncFails 7
  else if !same then (s.tdNote 11).syncFails 2
  else (s.wr F.TD_STATUS_SYNC_PHASE 1).each (List.range 4) (fun s r => s.putPair r { s.pairRing r with matches_ := 0 })

/-- A matching cycle counted: STANDBY after MATCH_N of them on every RUNNING ring. -/
def State.matchCycle (s : State) (r : Nat) : State :=
  let s := s.putPair r { s.pairRing r with matches_ := (s.pairRing r).matches_ + 1 }
  if (List.range 4).all (fun q => s.tandem.partnerRings.getD q 0 != 4 || decide (max 1 (s.rd F.TD_LINK_MATCH_N) ≤ (s.pairRing q).matches_)) then
    let s := ((s.wr F.TD_RESULT 0).wr F.TD_STATUS_SYNC_PHASE 0).onTandem (fun x => { x with sync := none })
    s.putRole 1 (some 9)
  else s

/-! ### Divergence (R352, R353) -/

/-- A mismatching digest of cycle `c` (R352, R353): counted, and arbitrated unless an arbitration
runs. -/
def State.diverge (s : State) (r c : Nat) : State :=
  let s := ((s.bump F.TD_DIV_CNT).wr F.TD_DIV_WHERE_RING r).wr F.TD_DIV_WHERE_CYCLE (c % 2 ^ 30)
  if s.on F.TD_STATUS_ARBITRATING then s
  else
    let s := s.onTandem (fun x => { x with arbAt := s.now, ownCheck := none, theirCheck := none })
    ((s.wr F.TD_STATUS_ARBITRATING 1).sysFault 20 r).tdRecord 0

/-- Both digests of a cycle compared (R352, R354). -/
def State.compareDigests (s : State) (r : Nat) : State :=
  match (s.pairRing r).digest, (s.pairRing r).theirDigest with
  | some (c, d), some (c', d') =>
    if c ≠ c' then s
    else
      let s := s.putPair r { s.pairRing r with theirDigest := none }
      if s.rd F.TD_STATUS_SYNC_PHASE = 3 ∧ s.role = 3 then (if d = d' then s.matchCycle r else s.syncFails 6)
      else if (s.role = 0 ∧ s.rd F.TD_STATUS_PARTNER_ROLE = 1) ∨ s.role = 1 then (if d = d' then s else s.diverge r c)
      else s
  | _, _ => s

/-- The bytes that a cycle's digest is taken over (R352): the output byte space as it stands. -/
def State.digestBytes (s : State) (r cycle : Nat) : List Byte :=
  let x := s.ring r
  let owned := fun o => (s.ringOwner r o).any s.covered
  leBytes 1 r ++ leBytes 8 cycle ++
  (List.range 16384).map (fun o => if owned o then BitVec.ofNat 8 (s.releasedByte r o) else 0) ++
  (x.cfg.stations.zip (List.range x.cfg.stations.length)).map (fun e => if s.outValid r e.2 e.1 then 1 else 0)

/-- The digest of the cycle that starts, computed and sent (R352). -/
def State.sendDigest (s : State) (r cycle : Nat) : State :=
  let d := (Config.crc64 (s.digestBytes r cycle)).toNat
  let s := (s.putPair r { s.pairRing r with digest := some (cycle, d) }).sendFrame 4 (leBytes 1 r ++ List.replicate 7 0 ++ leBytes 8 cycle ++ leBytes 8 d)
  s.compareDigests r

/-- The outcome of an arbitration once both results are known (Table 14.4); a unit that it leaves SYNC_LOST
with the link up and at most 8 covered partitions becomes REPAIRED at once (R355). -/
def State.judge (s : State) : State :=
  match s.tandem.ownCheck, s.tandem.theirCheck with
  | some own, some theirs =>
    let s := s.wr F.TD_STATUS_ARBITRATING 0
    if s.role = 0 then
      match own, theirs with
      | true, true => s.tdNote 0
      | true, false => s.tdNote 8
      | false, true => s.startHandover (addNs s.now 20000) true
      | false, false => s.devFault 7
    else
      match theirs, own with
      | true, true => s.loseSync.when (s.on F.TD_STATUS_LINK_UP && decide (s.coveredCount ≤ 8)) (·.becomeRepaired)
      | true, false => s.becomeOffline (some 8)
      | false, true => s
      | false, false => s.becomeOffline
  | _, _ => s

/-! ### The link (R347 to R349) -/

/-- The link is lost at this unit (R348): a STANDBY becomes SYNC_LOST, an arbitration is
abandoned, a synchronisation fails. -/
def State.loseLink (s : State) : State :=
  let s := s.onTandem (fun x => { x with clearFrom := s.now, synced := false, stepAsked := false })
  if s.on F.TD_STATUS_LINK_UP then
    let s := ((s.wr F.TD_STATUS_LINK_UP 0).wrT F.TD_LOST_T s.now).wr F.TD_STATUS_WARP_SYNC 0
    let s := (s.wr F.TD_STATUS_ARBITRATING 0).showGuard
    let s := if s.rd F.TD_STATUS_SYNC_PHASE = 0 then s else s.syncFails 1
    if s.role = 1 then s.loseSync else s
  else s

/-- A frame with a good CRC (R347, R348): a gap longer than the time-out begins the 100 ms
anew, and a skipped SEQ counts. -/
def State.hearFrame (s : State) (c : Contrail) : State :=
  let tmo : Int := 1000 * (s.rd F.TD_LINK_TMO : Nat)
  let gap := match s.tandem.heardAt with
    | some a => decide (tmo ≤ sinceNs s.now a)
    | none => true
  let s := match s.tandem.rxSeq with
    | some q => if (q + 1) % 2 ^ 32 = c.seq.toNat then s else s.bump F.LINK_ERR
    | none => s
  s.onTandem (fun x => { x with rxSeq := some c.seq.toNat, heardAt := some s.now, clearFrom := if gap then s.now else x.clearFrom })

/-- A Contrail frame received at `t` by a unit of a pair: `f`, or nothing where its CRC fails. -/
def State.onFrame (s : State) (t : Instant) (c : Contrail) (f : State → State) : State :=
  let s := s.advance t
  if c.crcOk && s.inPair then f (s.hearFrame c) else s

/-- WARP_SYNC after an exchange or at link up (R349). -/
def State.showSync (s : State) : State :=
  let ok := s.on F.TD_STATUS_LINK_UP && decide ((s.rdI F.TD_OFFSET).natAbs ≤ 32)
  let s := s.onTandem (fun x => { x with synced := x.synced || ok })
  (s.wr F.TD_STATUS_WARP_SYNC (b2n ok)).showGuard

/-- The measured offset of a non-holder, in sixteenths (R349): above 20 ns a loss of a link that
has been in step; at join above 1 ms a step of the Warp; otherwise slewed away. -/
def State.takeOffset (s : State) (d : Int) : State :=
  let s := (s.wrI F.TD_OFFSET d).showSync
  if s.tandem.synced && decide (320 < d.natAbs) then s.loseLink
  else
    let slew := fun (s : State) => s.putSlew (rshr d 4 * (16 * 2 ^ 40))
    if decide (16000000 < d.natAbs) && !s.tandem.stepAsked then
      let s := (s.onTandem (fun x => { x with stepAsked := true })).wrT F.STEP_TO (s.now + BitVec.ofInt 64 d)
      let c := s.stepRefusal
      if c = 0 then s.doStep else slew ((s.wr F.STEP_CTRL_RESULT c).warpEvent F.WARP_EVENT_STEP_REFUSED 4 c)
    else slew s

/-! ### The ring witness (R358) -/

/-- Ring `r` counts toward the witness. -/
def State.witness (s : State) (r : Nat) : Bool := !(s.pairRing r).lapsed && (s.pairRing r).whole

/-- TD_WITNESS made the rings that count. -/
def State.showWitness (s : State) : State :=
  s.wr F.TD_WITNESS (((List.range 4).map (fun r => b2n (s.witness r) * 2 ^ r)).sum)

/-! ### Frames of the partner on a ring (R357, R360, R362, R364) -/

/-- TERM of a frame's lease stamp, mod 8, and its expiry. -/
def stampTerm (lease : Nat) : Nat := lease / 2 % 8

/-- A good frame of the partner on ring `r`: the observed cycle number follows it; a non-holder
takes the later expiry; a holder that hears one ahead of it, or of unit 0 with its own TERM,
stops (R364). -/
def State.partnerFrame (s : State) (r : Nat) (f : RxFrame) : State :=
  if !s.inPair || f.masterId == s.rd F.RING_MASTER_ID r then s
  else
    let s := (s.putPair r { s.pairRing r with heard := some s.now }).wr F.TD_PARTNER_ID f.masterId
    let s := if s.role ≠ 0 ∨ s.rd F.RING_STATUS_STATE r = 5 then s.putRing r { s.ring r with nextCycle := f.cycle + 1 } else s
    if f.tandem && f.lease != 0 then
      if s.role = 0 then
        let ahead := (stampTerm f.lease + 8 - s.rd F.TD_STATUS_TERM % 8) % 8
        if (1 ≤ ahead ∧ ahead ≤ 3) ∨ (ahead = 0 ∧ f.lease % 2 = 0) then s.loseSync 12 else s
      else
        let e := BitVec.ofNat 64 (f.lease / 16 * 16)
        if earlier s.expiry e then s.putExpiry e else s
    else s

/-! ### Copies of a cycle (R350) -/

/-- The unit's copy of cycle `c` of ring `r`. -/
def State.copyAt (s : State) (r c : Nat) : Option CopyOf :=
  match (s.pairRing r).copy with
  | some (k, x) => if k = c then some x else none
  | none => none

/-- The merged input bytes of ring `r`, station by station: the payload of INPUTS. -/
def Ring.mergedBytes (x : Ring) (segs : List SegRx) : List Byte :=
  ((x.cfg.stations.zip (List.range x.descs.length)).map (fun e =>
    match segs.find? (fun g => g.station == e.2 && bitOf g.status 0) with
    | some g => (g.input ++ List.replicate e.1.inLen 0).take e.1.inLen
    | none => (List.range e.1.inLen).map (fun i => BitVec.ofNat 8 (x.ins.get (e.1.inOff + i) 0)))).flatten

/-- The bytes of an INPUTS frame taken into the input space, station by station. -/
def takeInputs : List StationCfg → List Byte → Tbl Nat → Tbl Nat
  | [], _, m => m
  | c :: rest, bs, m => takeInputs rest (bs.drop c.inLen) (((List.range c.inLen).zip bs).foldl (fun m e => m.set (c.inOff + e.1) e.2.toNat) m)

/-- Whether both units hold a good copy of cycle `c` (R350). -/
def State.bothHave (s : State) (r c : Nat) : Bool :=
  (s.pairRing r).have_ == some (c, true) && (s.pairRing r).theirs == some (c, true)

/-- The reception end of cycle `c` in a pair, at C + RX_LIMIT_NS (R350): the unit uses its copy
where the link is lost or both units hold one; otherwise the frame is lost. -/
def State.pairReception (s : State) (r : Nat) (at_ : Instant) (c : Nat) : State :=
  let lose := fun (s : State) =>
    ((s.each (List.range (s.ring r).descs.length) (fun s i => s.missStation r i)).loseFrame r).bump F.TD_MISS_CNT
  if s.on F.TD_STATUS_LINK_UP && !s.bothHave r c then (lose s).settle
  else
    match s.copyAt r c with
    | some (.frame segs mbx) => (s.endCycle r at_ c segs mbx).ringChans r 0
    | some (.inputs bs) => ((s.putRing r { s.ring r with ins := takeInputs (s.ring r).cfg.stations bs (s.ring r).ins, got := true, lastGood := s.now }).ringRoutes r).settle.ringChans r 0
    | none => (lose s).settle

end Sys2Proof.Machine
end

