-- ==== Sys2Proof/Machine/Rings.lean ====
section
/-! DEFINITION.  The commands of the field rings (12). -/

namespace Sys2Proof.Machine

open Sys2Proof

/-- BAR0 offset of register `x` of ring `r`. -/
def ringOff (r x : Nat) : Nat := 0xA00000 + 0x1000 * r + x

/-- A write of RING_CTRL.EN (R312): 1 opens the pair where the other conditions hold; 0 closes
it, and is discarded in RUNNING. -/
def execRingEnWrite (t : Instant) (r : Fin 4) (value : Word) (s : State) : Out := .next (
  let s := s.advance t
  s.hostWrite (ringOff r 0) (fun s =>
    if value.toNat % 2 = 0 ∧ s.rd F.RING_STATUS_STATE r = 4 then s.discardOther (ringOff r 0)
    else (((s.wr F.RING_CTRL_EN (value.toNat % 2) r).syncRing r).when (value.toNat % 2 == 1) (·.internalWake 4))))

/-- A SerDes lane starts or stops reporting ready (R312). -/
def execSerdesLaneReadyChange (t : Instant) (r : Fin 4) (laneF ready : Bool) (s : State) : Out := .next (
  let s := s.advance t
  let x := s.ring r
  (s.putRing r (if laneF then { x with laneF := ready } else { x with laneR := ready })).syncRing r)

/-- Both receivers lock (R314): the master discovers, a listener listens. -/
def execInsertionLocked (t : Instant) (r : Fin 4) (s : State) : Out := .next (
  let s := s.advance t
  if s.rd F.RING_STATUS_STATE r = 1 ∧ sinceNs s.now (s.ring r).insertAt ≤ 10000000 then
    if s.on F.RING_CTRL_ROLE r then s.startListening r else s.startDiscovery r
  else s)

/-- No lock in 10 ms (R314): BYPASS with RESULT 1, until a condition ceases and holds again. -/
def execInsertionTimeout (t : Instant) (r : Fin 4) (s : State) : Out := .next (
  let s := s.advance t
  if s.rd F.RING_STATUS_STATE r = 1 ∧ 10000000 ≤ sinceNs s.now (s.ring r).insertAt then
    let s := (s.wr F.RING_RESULT 1 r).bypassRing r
    s.putRing r { s.ring r with failed := true }
  else s)

/-- A command of RING_CTRL refused (R314). -/
def State.ringRefuse (s : State) (r : Nat) : State := s.ringEvent r 11

/-- DISCOVER (R306): admitted in READY and ERROR. -/
def execDiscover (t : Instant) (r : Fin 4) (s : State) : Out := .next (
  let s := s.advance t
  s.hostWrite (ringOff r 0) (fun s =>
    if s.rd F.RING_STATUS_STATE r = 3 ∨ s.rd F.RING_STATUS_STATE r = 6 then s.startDiscovery r else s.ringRefuse r))

/-- The ENUM frame returns (R306): the descriptors in its slots, before the DELAY frame; a
listener reads them as the frame passes. -/
def execEnumReturn (t : Instant) (r : Fin 4) (descs : List StationDesc) (s : State) : Out := .next (
  let s := s.advance t
  if s.rd F.RING_STATUS_STATE r = 2 ∧ sinceNs s.now (s.ring r).discAt ≤ 10000000 then
    (s.putRing r { s.ring r with descs := descs, enumDone := true, fwdTimes := [] }).wr F.RING_STATUS_STATIONS (min 255 descs.length) r
  else if s.rd F.RING_STATUS_STATE r = 5 ∧ descs.length = (s.ring r).cfg.stations.length then s.putRing r { s.ring r with descs := descs }
  else s)

/-- A pass of the DELAY frame returns (R304): the forward pass's stamps are kept; with the
reverse pass's the links' delays are computed and the checks of Table 12.7 made. -/
def execDelayReturn (t : Instant) (r : Fin 4) (reverse : Bool) (tx rx : Instant) (times : List Instant) (s : State) : Out := .next (
  let s := s.advance t
  let x := s.ring r
  if s.rd F.RING_STATUS_STATE r = 2 ∧ x.enumDone then
    if !reverse then s.putRing r { x with fwdTimes := times, fwdTx := tx, fwdRx := rx }
    else
      let links := linkDelays x.fwdTx x.fwdRx tx rx x.fwdTimes times x.descs
      let worst := rxWorst x.cfg x.descs links
      let res := s.discoveryResult r x.cfg x.descs worst
      let s := s.wr F.RING_RX_WORST worst r
      if res = 0 then s.discovered r (stationDelays links x.descs) else s.discoveryFails r res
  else s)

/-- The ENUM frame has not returned on R within 10 ms (R306, Table 12.7). -/
def execDiscFail (t : Instant) (r : Fin 4) (s : State) : Out := .next (
  let s := s.advance t
  if s.rd F.RING_STATUS_STATE r = 2 ∧ !(s.ring r).enumDone ∧ 10000000 ≤ sinceNs s.now (s.ring r).discAt then s.discoveryFails r 1
  else s)

/-- START (R314): a READY ring runs from its first cycle start at or after the admission. -/
def execRingStart (t : Instant) (r : Fin 4) (s : State) : Out := .next (
  let s := s.advance t
  s.hostWrite (ringOff r 0) (fun s =>
    if s.rd F.RING_STATUS_STATE r = 3 then s.putRing r { s.ring r with startDue := true } else s.ringRefuse r))

/-- Whether every partition that owns bytes of ring `r` is in STOP (R314). -/
def State.ringOwnersStopped (s : State) (r : Nat) : Bool :=
  (s.recsOf 4 10).all (fun e => keyIndex e.1 / 16384 != r || (match e.2.owner with
    | some p => s.inStop p
    | none => true))

/-- STOP (R314): a RUNNING ring becomes READY while its partitions are in STOP. -/
def execRingStop (t : Instant) (r : Fin 4) (s : State) : Out := .next (
  let s := s.advance t
  s.hostWrite (ringOff r 0) (fun s =>
    if s.rd F.RING_STATUS_STATE r = 4 ∧ s.ringOwnersStopped r then
      (s.wr F.RING_STATUS_STATE 3 r).putRing r { s.ring r with cycleAt := none }
    else s.ringRefuse r))

/-- The mailbox slot of the frame being sent (R308, R309): an IDENT request for a dropped
station goes before the host's request; of several dropped stations, the next after the last asked. -/
def State.fillMailbox (s : State) (r : Nat) : State :=
  let x := s.ring r
  let n := x.descs.length
  match ((List.range n).map (fun i => (x.identLast + 1 + i) % n)).find? (fun i => !s.stationOk r i), x.identAt with
  | some i, none => s.putRing r { x with identAt := some (i, s.now), identLast := i }
  | _, _ =>
    if x.hostAt.isSome && !x.hostSent then
      (s.putRing r { x with hostSent := true }).roll F.RING_MBX_STATUS_SEQ r
    else s

/-- The image of a cycle's frame: every station's output bytes (R298). -/
def State.fillFrame (s : State) (r : Nat) : State :=
  let c := (s.ring r).cfg
  (c.stations.zip (List.range c.stations.length)).foldl (fun s e => s.sendStation r e.2 e.1) s

/-- The cycle `k` of ring `r` begun now: nothing of it has returned. -/
def State.beginCycle (s : State) (r k : Nat) : State :=
  let s := (s.wr F.RING_CYCLE k r).ringChans r 1
  s.putRing r { s.ring r with cycleAt := some s.now, lastCycle := some s.now, nextCycle := k + 1, healDue := false, copyF := none, copyR := none, got := false, lost := false, looped := false, throughF := false, throughR := false }

/-- A cycle start (R295, R307, R311, R315): a ring that waits for it starts, a healed break
ends, and the frame leaves with the output byte space as it stands.  In a pair only the holder
sends, within its lease (14 R357); a listener's observed cycle number rises and it forms the
image as if it were master (14 R352, R360). -/
def execCycleStart (t : Instant) (r : Fin 4) (s : State) : Out := .next (
  let s := s.advance t
  let x := s.ring r
  let runs := s.rd F.RING_STATUS_STATE r == 4 || (s.rd F.RING_STATUS_STATE r == 3 && x.startDue)
  let here := !s.on F.WARP_STATUS_COARSE && onGrid x.cfg.period x.cfg.phase s.now
  if runs && !s.on F.RING_CTRL_ROLE r && here && s.mayDrive then
    let s := if s.rd F.RING_STATUS_STATE r = 4 then s
      else (s.each (List.range x.descs.length) (fun s i => s.wr F.RS_ST_STATUS_OK 1 (128 * r + i))).settle
    let s := (s.wr F.RING_STATUS_STATE 4 r).putRing r { x with startDue := false }
    let s := s.noteCycle r x.nextCycle
    if x.reserve ≤ x.nextCycle then (s.wr F.RING_STATUS_STATE 6 r).putRing r { s.ring r with cycleAt := none }
    else
      let s := if x.healDue then
          (((s.wr F.RING_STATUS_BROKEN 0 r).feedReverse r 128).wr F.RING_STATUS_BREAK_POS 0xFF r).ringEvent r 2
        else s
      let s := ((s.fillMailbox r).fillFrame r).beginCycle r x.nextCycle
      let s := s.putRing r { s.ring r with lease := if s.inPair then s.leaseStamp else 0 }
      if s.inPair then s.sendDigest r x.nextCycle else s
  else if s.rd F.RING_STATUS_STATE r == 5 && s.inPair && here then
    ((s.fillFrame r).beginCycle r x.nextCycle).sendDigest r x.nextCycle
  else s)

/-- What the copies of a cycle of a BROKEN ring hold between them (R310), with the break's
position. -/
def State.copies (s : State) (r : Nat) : State × List SegRx × List MbxSlot :=
  let x := s.ring r
  let l := x.copyF.toList ++ x.copyR.toList
  let s := match x.copyF with
    | some f => s.noteBreak r f.hop
    | none => s
  (s, (l.map (·.segs)).flatten, l.map (·.mailbox))

/-- Both copies of a cycle of a BROKEN ring (R310): each segment from the copy in which it is
valid.  In a pair the merged bytes leave as INPUTS and wait for C + RX_LIMIT_NS (14 R350). -/
def State.mergeCopies (s : State) (r : Nat) (c : Instant) : State :=
  let m := s.copies r
  let k := m.1.rd F.RING_CYCLE r
  if m.1.inPair then
    let s := m.1.putPair r { m.1.pairRing r with copy := some (k, .frame m.2.1 m.2.2) }
    s.sendFrame 6 (leBytes 1 r ++ List.replicate 7 0 ++ leBytes 8 k ++ (s.ring r).mergedBytes m.2.1)
  else (m.1.endCycle r c k m.2.1 m.2.2).ringChans r 0

/-- A frame read while the device listens: its cycle number counts for the reservation
(R315). -/
def State.heardFrame (s : State) (r : Nat) (f : RxFrame) : State :=
  let s := s.putRing r { s.ring r with readMax := max (s.ring r).readMax f.cycle }
  s.noteCycle r f.cycle

/-- A good frame of the awaited cycle has returned whole (R301): its valid segments become
visible; in a pair it is the unit's copy, it goes out again as an ECHO, and the ring counts
toward the witness (R316, 14 R350, R358). -/
def State.wholeFrame (s : State) (r : Nat) (c : Instant) (f : RxFrame) : State :=
  if s.inPair then
    let s := s.putPair r { s.pairRing r with copy := some (f.cycle, .frame f.segs [f.mailbox]), whole := true }
    s.putRing r { s.ring r with echo := some f.cycle }
  else (s.endCycle r c f.cycle f.segs [f.mailbox]).ringChans r 0

/-- A frame read by a listener (R314, R316): the holder's frames pass, and an ECHO of the cycle
is the unit's copy. -/
def State.listen (s : State) (r : Nat) (f : RxFrame) : State :=
  let s := (s.partnerFrame r f).heardFrame r f
  if s.inPair && f.echo then s.putPair r { s.pairRing r with copy := some (f.cycle, .frame f.segs [f.mailbox]) } else s

/-- The EOF of a frame (R301, R310, R311): a good frame of the awaited cycle makes its valid
segments visible; a bad one is lost; on a BROKEN ring the cycle ends with its later copy, and a lost copy leaves only its
segments invalid. -/
def execReceptionEnd (t : Instant) (r : Fin 4) (onF : Bool) (frame : RxFrame) (s : State) : Out := .next (
  let s := s.advance t
  let x := s.ring r
  if s.rd F.RING_STATUS_STATE r = 5 then
    if frame.crcOk then s.listen r frame else s
  else if s.rd F.RING_STATUS_STATE r = 4 then
    if frame.crcOk && frame.masterId != s.rd F.RING_MASTER_ID r then s.partnerFrame r frame
    else match x.cycleAt with
    | none => s
    | some c =>
      if x.got || frame.echo || decide ((x.cfg.rxLimit : Int) < sinceNs s.now c) then s
      else if !frame.crcOk then (if s.inPair || s.on F.RING_STATUS_BROKEN r then s else s.loseFrame r)
      else if frame.cycle ≠ s.rd F.RING_CYCLE r then s
      else
        let s := s.heardFrame r frame
        let x := s.ring r
        if s.on F.RING_STATUS_BROKEN r then
          let s := s.putRing r (if frame.reverse then { x with copyR := some frame, throughR := onF } else { x with copyF := some frame, throughF := !onF })
          let x := s.ring r
          if x.copyF.isSome && x.copyR.isSome then
            let s := s.mergeCopies r c
            if x.throughF && x.throughR then s.putRing r { s.ring r with healDue := true } else s
          else s
        else if onF then s.putRing r { x with looped := true, copyF := some frame }
        else s.wholeFrame r c frame
  else s)

/-- C plus RX_LIMIT_NS (R301, R310): a frame not received is lost and every admitted station
misses the cycle; a frame looped back or a lost link makes the ring BROKEN.  In a pair this is
the reception end (14 R350). -/
def execRxLimit (t : Instant) (r : Fin 4) (linkLost : Bool) (s : State) : Out := .next (
  let s := s.advance t
  let x := s.ring r
  match x.cycleAt with
  | none => s
  | some c =>
    let state := s.rd F.RING_STATUS_STATE r
    if (state = 4 ∨ (state = 5 ∧ s.inPair = true)) ∧ sinceNs s.now c = x.cfg.rxLimit then
      let s := if s.inPair then s.pairReception r c (s.rd F.RING_CYCLE r)
        else if x.got then s
        else if s.on F.RING_STATUS_BROKEN r && (x.copyF.isSome || x.copyR.isSome) then s.mergeCopies r c
        else
          let s := if x.lost then s else s.loseFrame r
          (s.each (List.range x.descs.length) (fun s i => s.missStation r i)).settle
      let s := s.putRing r { s.ring r with cycleAt := none }
      if state == 4 && !s.on F.RING_STATUS_BROKEN r && (x.looped || linkLost) then
        let s := match x.copyF with
          | some f => s.noteBreak r f.hop
          | none => s
        (((s.wr F.RING_STATUS_BROKEN 1 r).bump F.RING_BREAK_CNT_COUNT r).ringEvent r 1).lapseWitness r
      else s
    else s)

/-- GO of the mailbox (R308): a request while one is pending is discarded. -/
def execMbxGo (t : Instant) (r : Fin 4) (value : Word) (s : State) : Out := .next (
  let s := s.advance t
  s.hostWrite (ringOff r 0x100) (fun s =>
    let x := s.ring r
    if x.hostAt.isSome then s.ringEvent r 9
    else
      let s := (s.wr F.RING_MBX_CTRL_STATION (value.toNat % 128) r).wr F.RING_MBX_CTRL_LEN (value.toNat / 2 ^ 16 % 2 ^ 8) r
      (s.putRing r { x with hostAt := some s.now, hostSent := false }).wr F.RING_MBX_STATUS_STATE 1 r))

/-- MBX_TMO_MS passes (R308, R309): the host's request ends with MBX_TMO; an IDENT request
ends quietly. -/
def execMbxTmo (t : Instant) (r : Fin 4) (s : State) : Out := .next (
  let s := s.advance t
  let ms : Int := 1000000 * (max 1 (s.rd F.RING_MBX_TMO r) : Nat)
  let x := s.ring r
  let s := match x.identAt with
    | some (_, a) => if ms ≤ sinceNs s.now a then s.putRing r { x with identAt := none } else s
    | none => s
  match x.hostAt with
  | some a =>
    if ms ≤ sinceNs s.now a then
      ((s.putRing r { s.ring r with hostAt := none, hostSent := false }).wr F.RING_MBX_STATUS_STATE 3 r).ringEvent r 8
    else s
  | none => s)

/-- A raised cycle reservation read back (R315). -/
def execReservationWritten (t : Instant) (r : Fin 4) (good : Bool) (s : State) : Out := .next (
  let s := s.advance t
  let x := s.ring r
  match x.raising with
  | some n => if good then s.putRing r { x with reserve := n, raising := none } else s
  | none => s)

end Sys2Proof.Machine
end

