-- ==== Sys2Proof/Machine/Skein.lean ====
section
/-! DEFINITION.  The commands of the Skein (07). -/

namespace Sys2Proof.Machine

open Sys2Proof

/-- Whether an instant is a sample instant of tap `n` as far as its grid says (Table 7.1). -/
def State.tapDue (s : State) (n : Nat) (at_ : Instant) : Bool :=
  let kind := s.rd F.TAP_SRC_KIND n
  notLater at_ s.now &&
  (s.rd F.TAP_CFG_POLICY n == 2 || kind == 3 || kind == 6 || s.eventSignal kind (s.rd F.TAP_SRC_SIGNAL n) (s.rd F.TAP_SRC_ID n) ||
    onGrid (s.tapGrid n).1 (s.tapGrid n).2 at_)

/-- A sample instant of a tap (R172).  A tap on an analog input strobes it and takes the sample
when the conversion that it shares ends (04 R90). -/
def execTapSample (t : Instant) (n : Fin 8192) (at_ : Instant) (data : Word) (s : State) : Out := .next (
  let s := s.advance t
  let kind := s.rd F.TAP_SRC_KIND n
  let id := s.rd F.TAP_SRC_ID n
  if !s.tapDue n at_ then s
  else if kind = 4 then
    if at_ ≠ s.now then s
    else
      let r := s.strobeAin id
      let s := r.1
      match r.2 with
      | some q => s.takeTap n q.2 (BitVec.ofNat 32 q.1)
      | none => s.awaitAin id (.tap n)
  else if kind = 3 then s.takeTap n at_ data
  else s.takeTap n at_ (BitVec.ofNat 32 (s.sourceValue kind (s.rd F.TAP_SRC_SIGNAL n) id (s.rd F.TAP_SRC_RING n))))

/-- SEAL_MS as taken. -/
def State.sealMs (s : State) : Nat := if 1 ≤ s.rd F.SK_CTRL ∧ s.rd F.SK_CTRL ≤ 1000 then s.rd F.SK_CTRL else 10

/-- An open block's age reaches SEAL_MS (R180). -/
def execBlockSeal (t : Instant) (k : Fin 17) (s : State) : Out := .next (
  let s := s.advance t
  match (s.stream k).openAt with
  | some o => if notLater (addNs o (1000000 * s.sealMs)) s.now then s.seal k else s
  | none => s)

/-- The checkpoint of stream `k` at this instant (R182): the block sealed, its signature asked
for; one that still waits is late. -/
def State.checkpoint (s : State) (k : Nat) : State :=
  let s := s.seal k
  let x := s.stream k
  let s := s.wr F.SKS_OUT_AVG (x.outBytes / 1024) k
  let s := s.putStream k { x with outBytes := 0 }
  if !x.everSealed then s
  else
    let s := if x.ckpts.isEmpty then s else s.skEvent k 5
    let c : Ckpt := ⟨s.now, s.rd F.SKS_SEQ k - 1, x.headHash, x.discards⟩
    (s.putStream k { s.stream k with ckpts := x.ckpts ++ [c] }).wr F.SK_STATUS_CKPT_PENDING 1

/-- A whole second of the Warp (R182). -/
def execSkeinCheckpoint (t : Instant) (s : State) : Out := .next (
  let s := s.advance t
  if onGrid 1000000000 0 s.now then
    let s := s.wr F.SK_RATE_AVG s.skein.rateSecond
    let s := { s with skein := { s.skein with rateSecond := 0 } }
    s.each (List.range 17) State.checkpoint
  else s)

/-- The body of a CHECKPOINT record before its signature (R182). -/
def ckptBody (k epoch : Nat) (c : Ckpt) : List Byte :=
  leBytes 8 c.at_.toNat ++ leBytes 8 c.headSeq ++ leBytes 48 c.headHash.toNat ++ leBytes 4 epoch ++ leBytes 1 k ++ [0, 0, 0] ++ leBytes 8 c.discards

/-- The key that seals the Skein, among those of `Config.ecdsaSign`. -/
def sealingKey : Nat := 0

/-- A signature over bytes, as 96 bytes. -/
def sign (key : Nat) (b : List Byte) : List Byte := leBytes 96 (Config.ecdsaSign key b).toNat

/-- A checkpoint signature ends (R182): its record enters the stream. -/
def execCheckpointSigned (t : Instant) (k : Fin 17) (s : State) : Out := .next (
  let s := s.advance t
  let x := s.stream k
  match x.ckpts with
  | [] => s
  | c :: rest =>
    let b := ckptBody k (s.rd F.SK_EPOCH) c
    let s := s.putStream k { x with ckpts := rest }
    let s := s.record k { kind := 8, flags := 0, body := b ++ sign sealingKey b, first := c.at_, last := c.at_, samples := [] }
    if (List.range 17).all (fun j => (s.stream j).ckpts.isEmpty) then s.wr F.SK_STATUS_CKPT_PENDING 0 else s)

/-! ### The region (R181, R186, R187) -/

/-- The LOST block that takes the place of a block (R181), its BLOCKGAP record with the flags of now. -/
def lostBlock (k : Nat) (b : SkBlock) (flags : Nat) : SkBlock :=
  let counts := tapCounts b.records
  let body := leBytes 48 b.digest.toNat ++ leBytes 8 b.first.toNat ++ leBytes 8 b.last.toNat ++ leBytes 2 counts.length ++ List.replicate 6 0 ++
    (counts.map (fun c => leBytes 2 c.1 ++ leBytes 4 c.2)).flatten
  let rec_ : List Byte → SkRec := fun body => { kind := 0x0C, flags := flags, body := body, first := b.first, last := b.last, samples := [] }
  let shell : SkBlock := { b with flags := 16 + blockFlags [rec_ []], records := [rec_ (body ++ List.replicate 96 0)] }
  let full := body ++ sign sealingKey (blockHeader k shell ++ body)
  { shell with records := [rec_ full] }

/-- DRAM address of the block with a SEQ in its stream's region. -/
def State.slotAddr (s : State) (k seq : Nat) : Nat := s.rd F.SKS_REGION k + 4096 * (seq % max 1 (s.rd F.SKS_REGION_SIZE k))

/-- A block's bytes in its DRAM slot. -/
def State.storeBlock (s : State) (k : Nat) (b : SkBlock) : State :=
  { s with dram := s.dram.writeBytes (s.slotAddr k b.seq) (blockBytes k b) }

/-- Blocks made visible in SEQ order (R186). -/
def showBlocks : List SkSlot → List SkSlot
  | [] => []
  | e :: r => if e.phase = .writing then e :: r else (if e.phase = .written then { e with phase := .visible } else e) :: showBlocks r

/-- The first visible block's export begun, where the mode exports and none is in progress: in
DMA mode only with a free ring entry (R187). -/
def State.startExport (s : State) (k : Nat) : State :=
  let x := s.stream k
  let mode := s.rd F.SKS_CTRL_EXPORT k
  let may := mode == 2 || (mode == 1 && decide (x.ring.length < s.rd F.SKS_DMA_ENTRIES k))
  if !may || x.region.any (fun e => e.phase == .exporting) then s
  else
    match x.region.find? (fun e => e.phase == .visible) with
    | some v => s.putStream k { x with region := x.region.map (fun e => if e.block.seq = v.block.seq then { e with phase := .exporting } else e) }
    | none => s

/-- What follows a change of a region: visible blocks, RESIDENT, waiting blocks and exports. -/
def State.refreshRegion (s : State) (k : Nat) : State :=
  let x := s.stream k
  let region := showBlocks x.region
  let seen := region.takeWhile (fun e => e.phase != .writing)
  let s := s.putStream k { x with region := region, shown := x.shown || !seen.isEmpty }
  let s := match seen.getLast? with
    | some e => s.wr F.SKS_VISIBLE (max (s.rd F.SKS_VISIBLE k) e.block.seq) k
    | none => s
  let s := s.placeAll k x.burst.length
  let s := s.wr F.SKS_STATUS_RESIDENT ((s.stream k).resident) k
  (s.startExport k).showBurst

/-- The slot that holds a SEQ changed. -/
def State.onSlot (s : State) (k seq : Nat) (f : SkSlot → SkSlot) : State :=
  let x := s.stream k
  s.putStream k { x with region := x.region.map (fun e => if e.block.seq = seq then f e else e) }

/-- A block's write read back (R186): good, retried, or replaced by a LOST block. -/
def execBlockWriteDone (t : Instant) (k : Fin 17) (seq : BitVec 64) (good : Bool) (s : State) : Out := .next (
  let s := s.advance t
  match (s.stream k).region.find? (fun e => e.block.seq == seq.toNat && e.phase == .writing) with
  | none => s
  | some e =>
    let s :=
      if good then (s.storeBlock k e.block).onSlot k seq.toNat (fun e => { e with phase := .written })
      else if e.retries < 3 then ((s.onSlot k seq.toNat (fun e => { e with retries := e.retries + 1 })).bump F.SKS_RETRY k).skEvent k 2
      else
        let b := lostBlock k e.block s.recFlags
        ((s.storeBlock k b).onSlot k seq.toNat (fun e => { e with block := b, phase := .written })).skEvent k 3
    let s := if ((s.stream k).region.find? (fun e => e.block.seq == seq.toNat && e.phase == .written)).isSome then s.interrupt (17 + k) else s
    let s := s.wr F.SKS_STATUS_RETRYING (b2n ((s.stream k).region.any (fun e => e.phase == .writing && e.retries != 0))) k
    s.refreshRegion k)

/-- The export in progress ends (R187): the block is consumed; in DMA mode its ring entry waits
for the host. -/
def execExportDone (t : Instant) (k : Fin 17) (s : State) : Out := .next (
  let s := s.advance t
  let x := s.stream k
  match x.region.find? (fun e => e.phase == .exporting) with
  | none => s
  | some e =>
    let ring := if s.rd F.SKS_CTRL_EXPORT k = 1 then x.ring ++ [e.block.seq] else x.ring
    let s := s.putStream k { x with ring := ring, outBytes := x.outBytes + 4096 }
    (s.onSlot k e.block.seq (fun e => { e with phase := .consumed })).refreshRegion k)

/-- A write of ST_CONSUMED (R187). -/
def execStConsumedWrite (t : Instant) (k : Fin 17) (seq : BitVec 64) (s : State) : Out := .next (
  let s := s.advance t
  s.hostWrite (0x501028 + 0x80 * k) (fun s =>
    let x := s.stream k
    let v := seq.toNat
    if v < s.rd F.SKS_CONSUMED k ∨ s.rd F.SKS_VISIBLE k < v ∨ x.shown = false then (s.skEvent k 6).discardOther (0x501028 + 0x80 * k)
    else
      let s := s.wr F.SKS_CONSUMED v k
      let pull := s.rd F.SKS_CTRL_EXPORT k != 1 && s.rd F.SKS_CTRL_EXPORT k != 2
      let region := if pull then x.region.map (fun e => if e.block.seq ≤ v ∧ e.phase = .visible then { e with phase := .consumed } else e) else x.region
      (s.putStream k { x with region := region, ring := x.ring.filter (fun q => decide (v < q)) }).refreshRegion k))

/-- FLUSH (R180). -/
def execFlush (t : Instant) (k : Fin 17) (s : State) : Out := .next (
  let s := s.advance t
  s.hostWrite (0x501000 + 0x80 * k) (fun s => s.seal k))

/-- RESEND_BLOCK (R188, 18 R443): a block that was sent and is still resident is sent again. -/
def execResendBlock (t : Instant) (k : Fin 17) (seq : BitVec 64) (s : State) : Out := .next (
  (s.advance t).hostCommand 0xC k.val (fun c => c.arg0 + 2 ^ 32 * c.arg1 == seq.toNat) (fun s =>
  if s.rd F.SKS_CTRL_EXPORT k = 2 ∧ (s.stream k).region.any (fun e => e.block.seq == seq.toNat && e.phase == .consumed) = true then
    (s.putStream k { s.stream k with outBytes := (s.stream k).outBytes + 4096 }).reply 0
  else (s.reply 1).skEvent k 7))

end Sys2Proof.Machine
end

