-- ==== Sys2Proof/Machine/Tandem.lean ====
section
/-! DEFINITION.  The commands of a Tandem pair (14). -/

namespace Sys2Proof.Machine

open Sys2Proof

/-! ### The link (R347 to R349) -/

/-- A STATUS frame (R348): the partner's role and ring states; one that begins to report
LINK_LOST makes the link lost here.  An OFFLINE unit may join its holder (R365). -/
def execStatus (t : Instant) (c : Contrail) (role : Fin 5) (flags : Word) (term : BitVec 16) (rings : List Nat) (s : State) : Out := .next (
  s.onFrame t c (fun s =>
    let lost := flags.getLsbD 1
    let began := lost && !s.tandem.partnerLost
    let s := (s.onTandem (fun x => { x with partnerLost := lost, partnerRings := rings })).wr F.TD_STATUS_PARTNER_ROLE role
    let s := if role.val = 0 ∧ s.role ≠ 0 then s.wr F.TD_STATUS_TERM term.toNat else s
    (if began then s.loseLink else s).tryJoin))

/-- The unit's STATUS (R348): role, IN_STEP, LINK_LOST, SELFCHECK_RUNNING, TERM and ring states. -/
def execStatusSend (t : Instant) (s : State) : Out := .next (
  let s := s.advance t
  if s.inPair then
    let inStep := s.role == 1 || (s.role == 0 && s.rd F.TD_STATUS_PARTNER_ROLE == 1)
    let flags := b2n inStep + 2 * b2n (!s.on F.TD_STATUS_LINK_UP) + 4 * b2n (s.on F.TD_STATUS_ARBITRATING && s.tandem.ownCheck.isNone)
    s.sendFrame 1 (leBytes 1 s.role ++ leBytes 1 flags ++ leBytes 2 (s.rd F.TD_STATUS_TERM) ++ ((List.range 4).map (fun r => leBytes 1 (s.rd F.RING_STATUS_STATE r))).flatten)
  else s)

/-- No good frame for LINK_TMO_US (R348). -/
def execLinkLost (t : Instant) (s : State) : Out := .next (
  let s := s.advance t
  let quiet := match s.tandem.heardAt with
    | some a => decide (1000 * (s.rd F.TD_LINK_TMO : Int) ≤ sinceNs s.now a)
    | none => true
  if s.inPair && quiet then s.loseLink else s)

/-- The link is up (R348): the witnesses stand again, and a SYNC_LOST unit of at most 8 covered
partitions becomes REPAIRED and synchronises (R355). -/
def execLinkUp (t : Instant) (same : Bool) (s : State) : Out := .next (
  let s := s.advance t
  let alive := match s.tandem.heardAt with
    | some a => decide (sinceNs s.now a < 1000 * (s.rd F.TD_LINK_TMO : Int))
    | none => false
  if s.inPair && !s.on F.TD_STATUS_LINK_UP && alive && decide (100000000 ≤ sinceNs s.now s.tandem.clearFrom) then
    let s := (s.wr F.TD_STATUS_LINK_UP 1).each (List.range 4) (fun s r => s.putPair r { s.pairRing r with lapsed := false })
    let s := s.showSync.tryJoin
    if s.role = 2 ∧ s.coveredCount ≤ 8 then s.becomeRepaired.startSync same else s
  else s)

/-- The non-holder's TIME request (R349). -/
def execTimeSend (t : Instant) (s : State) : Out := .next (
  let s := s.advance t
  if s.inPair && s.role != 0 then s.sendFrame 7 (leBytes 8 s.now.toNat ++ leBytes 8 0) else s)

/-- A TIME frame (R349): the holder answers with its stamps; a non-holder takes the offset and
follows the holder's rate. -/
def execTime (t : Instant) (c : Contrail) (t1 t2 : Instant) (rate : Word) (s : State) : Out := .next (
  s.onFrame t c (fun s =>
    if s.role = 0 then s.sendFrame 7 (leBytes 8 c.sent.toNat ++ leBytes 8 s.now.toNat)
    else (s.wr F.RATE_ADJ rate.toNat).takeOffset ((sinceS t2 t1 - sinceS s.now c.sent) / 2)))

/-! ### In step (R350, R352, R353) -/

/-- C + RX_LIMIT_NS − 1,000 ns (R350): HAVE says whether the unit holds a good copy of the cycle;
copies of a BROKEN ring that have come by then are merged. -/
def execHaveSend (t : Instant) (r : Fin 4) (s : State) : Out := .next (
  let s := s.advance t
  match (s.ring r).cycleAt with
  | none => s
  | some c =>
    if s.inPair ∧ sinceNs s.now c + 1000 = (s.ring r).cfg.rxLimit then
      let k := s.rd F.RING_CYCLE r
      let one := (s.ring r).copyF.isSome || (s.ring r).copyR.isSome
      let s := if s.on F.RING_STATUS_BROKEN r && one && (s.copyAt r k).isNone then s.mergeCopies r c else s
      let ok := (s.copyAt r k).isSome
      (s.putPair r { s.pairRing r with have_ := some (k, ok) }).sendFrame 5 (leBytes 1 r ++ leBytes 1 (b2n ok) ++ List.replicate 6 0 ++ leBytes 8 k)
    else s)

/-- A HAVE frame (R350). -/
def execHave_ (t : Instant) (c : Contrail) (r : Fin 4) (cycle : Instant) (have_ : Bool) (s : State) : Out := .next (
  s.onFrame t c (fun s => s.putPair r { s.pairRing r with theirs := some (cycle.toNat, have_) }))

/-- An INPUTS frame (R350): a non-holder's copy of the cycle. -/
def execInputs (t : Instant) (c : Contrail) (r : Fin 4) (cycle : Instant) (bytes : List Byte) (s : State) : Out := .next (
  s.onFrame t c (fun s => if s.role = 0 then s else s.putPair r { s.pairRing r with copy := some (cycle.toNat, .inputs bytes) }))

/-- A DIGEST frame (R352). -/
def execDigest (t : Instant) (c : Contrail) (r : Fin 4) (cycle : Instant) (digest : BitVec 64) (s : State) : Out := .next (
  s.onFrame t c (fun s => (s.putPair r { s.pairRing r with theirDigest := some (cycle.toNat, digest.toNat) }).compareDigests r))

/-- The unit's rapid self-check ends (R353); after 10 ms it counts as failed. -/
def execRapidSelfCheckDone (t : Instant) (pass : Bool) (s : State) : Out := .next (
  let s := s.advance t
  if s.on F.TD_STATUS_ARBITRATING && s.tandem.ownCheck.isNone then
    let ok := pass && decide (sinceNs s.now s.tandem.arbAt ≤ 10000000)
    let s := s.onTandem (fun x => { x with ownCheck := some ok })
    (s.sendFrame 11 (leBytes 8 (s.rd F.TD_DIV_WHERE_CYCLE) ++ leBytes 1 (s.rd F.TD_DIV_WHERE_RING) ++ leBytes 1 (b2n (!ok)) ++ List.replicate 6 0)).judge
  else s)

/-- A CHECK frame, or 10 ms without one (R353). -/
def execCheck (t : Instant) (c : Contrail) (report : Option Bool) (s : State) : Out := .next (
  let take := fun (s : State) (ok : Bool) =>
    if s.on F.TD_STATUS_ARBITRATING && s.tandem.theirCheck.isNone then (s.onTandem (fun x => { x with theirCheck := some ok })).judge else s
  match report with
  | some ok => s.onFrame t c (fun s => take s ok)
  | none =>
    let s := s.advance t
    if 10000000 ≤ sinceNs s.now s.tandem.arbAt then take s false else s)

/-! ### Synchronisation (R354, R355) -/

/-- A sync instant S (R354): the holder takes the snapshot and sends its first chunk; the joining
unit buffers from S on. -/
def execSyncInstant (t : Instant) (chunks : Word) (s : State) : Out := .next (
  let s := s.advance t
  if s.inPair && s.on F.TD_STATUS_LINK_UP && onGrid 1000000 0 s.now && s.tandem.sync.isNone then
    if s.role = 0 ∧ s.rd F.TD_STATUS_PARTNER_ROLE = 3 then
      (s.onTandem (fun x => { x with sync := some ⟨s.now, some s.takeSnapshot, chunks.toNat, []⟩ })).sendFrame 13 (leBytes 4 0 ++ leBytes 4 0)
    else if s.role = 3 ∧ s.rd F.TD_STATUS_SYNC_PHASE = 1 then s.onTandem (fun x => { x with sync := some ⟨s.now, none, chunks.toNat, []⟩ })
    else s
  else s)

/-- The snapshot's transfer over: its duration in TD_SYNC_AVG (R354). -/
def State.transferred (s : State) (x : Syncing) : State := s.wr F.TD_SYNC_AVG ((sinceNs s.now x.at_).toNat / 1000000)

/-- A SNAP chunk (R354): acknowledged; with the last one catch-up begins. -/
def execSnap (t : Instant) (c : Contrail) (chunk chunks : Word) (whole : Snapshot) (s : State) : Out := .next (
  s.onFrame t c (fun s =>
    match s.tandem.sync with
    | some x =>
      if s.role = 3 ∧ s.rd F.TD_STATUS_SYNC_PHASE = 1 then
        let s := s.sendFrame 14 (leBytes 4 chunk.toNat ++ leBytes 4 0)
        let x := { x with chunks := chunks.toNat, done := if x.done.contains chunk.toNat then x.done else chunk.toNat :: x.done }
        if (List.range x.chunks).all (fun i => x.done.contains i) then
          let s := s.onTandem (fun y => { y with sync := some { x with snap := some whole } })
          (s.transferred x).wr F.TD_STATUS_SYNC_PHASE 2
        else s.onTandem (fun y => { y with sync := some x })
      else s
    | none => s))

/-- A SNAP_ACK (R354): the first chunk that is not acknowledged goes out next. -/
def execSnapAck (t : Instant) (c : Contrail) (chunk : Word) (s : State) : Out := .next (
  s.onFrame t c (fun s =>
    match s.tandem.sync with
    | some x =>
      if s.role = 0 then
        let x := { x with done := if x.done.contains chunk.toNat then x.done else chunk.toNat :: x.done }
        match (List.range x.chunks).find? (fun i => !x.done.contains i) with
        | some i => (s.onTandem (fun y => { y with sync := some x })).sendFrame 13 (leBytes 4 i ++ leBytes 4 0)
        | none => (s.onTandem (fun y => { y with sync := none })).transferred x
      else s
    | none => s))

/-- Replay has reached the present (R354): the joining unit has the holder's state and the match
phase begins. -/
def execCatchUpDone (t : Instant) (state : Snapshot) (s : State) : Out := .next (
  let s := s.advance t
  if s.role = 3 ∧ s.rd F.TD_STATUS_SYNC_PHASE = 2 then (s.restoreSnapshot state).wr F.TD_STATUS_SYNC_PHASE 3 else s)

/-- REPLAY_MS after S without having reached the present (R354): RESULT 5. -/
def execReplayTimeout (t : Instant) (s : State) : Out := .next (
  let s := s.advance t
  match s.tandem.sync with
  | some x =>
    if s.role = 3 ∧ (s.rd F.TD_STATUS_SYNC_PHASE = 1 ∨ s.rd F.TD_STATUS_SYNC_PHASE = 2) ∧ 1000000 * (s.rd F.TD_LINK_REPLAY_MS : Int) ≤ sinceNs s.now x.at_ then s.syncFails 5
    else s
  | none => s)

/-- The next attempt of a REPAIRED unit is due (R354, R355). -/
def execResyncRetry (t : Instant) (same : Bool) (s : State) : Out := .next (
  let s := s.advance t
  if s.role = 3 ∧ s.rd F.TD_STATUS_SYNC_PHASE = 0 ∧ s.coveredCount ≤ 8 ∧ s.tandem.retryAt.any (fun a => notLater a s.now) = true then s.startSync same else s)

/-! ### TD_CTRL (Table 14.8) -/

/-- A write of TD_CTRL with command bit `bit` (0 JOIN, 1 SWITCH, 2 RESYNC, 3 LEAVE): EXPECT other
than ROLE refuses it with STATE_MISMATCH, a further command bit or `ok` not holding with
CMD_REFUSED. -/
def State.tdCommand (s : State) (value : Word) (bit : Nat) (ok : State → Bool) (f : State → State) : State :=
  s.hostWrite 0xC00010 (fun s =>
    if value.toNat % 16 = 0 then s
    else if value.toNat / 2 ^ 8 % 8 ≠ s.role then s.tdEvent 13
    else if value.toNat % 16 ≠ 2 ^ bit ∨ !s.inPair ∨ !ok s then s.tdEvent 14
    else f s) value.toNat (value.toNat % 16 != 0)

/-- JOIN (R365): an OFFLINE unit becomes REPAIRED once R365 allows it. -/
def execJoin (t : Instant) (value : Word) (s : State) : Out := .next (
  (s.advance t).tdCommand value 0 (fun s => s.role == 4) (fun s => (s.onTandem (fun x => { x with joins := true })).tryJoin))

/-- LEAVE (Table 14.8): accepted unless the unit holds the token and its partner is not STANDBY. -/
def execLeave (t : Instant) (value : Word) (s : State) : Out := .next (
  (s.advance t).tdCommand value 3 (fun s => s.role != 0 || s.rd F.TD_STATUS_PARTNER_ROLE == 1) (fun s => s.becomeOffline))

/-- RESYNC (R355): the unit becomes REPAIRED and synchronises. -/
def execResync (t : Instant) (value : Word) (same : Bool) (s : State) : Out := .next (
  (s.advance t).tdCommand value 2 (fun s => (s.role == 2 || s.role == 3) && s.rd F.TD_STATUS_SYNC_PHASE == 0)
    (fun s => (if s.role = 2 then s.becomeRepaired else s).startSync same))

/-- SWITCH (R361): accepted in ACTIVE with the partner STANDBY, outside an arbitration. -/
def execSwitch (t : Instant) (value : Word) (s : State) : Out := .next (
  (s.advance t).tdCommand value 1
    (fun s => s.role == 0 && s.rd F.TD_STATUS_PARTNER_ROLE == 1 && !s.on F.TD_STATUS_ARBITRATING && s.tandem.handover.isNone)
    (fun s =>
      let at_ := s.rdT F.TD_SWITCH_AT
      s.startHandover (if at_ ≠ 0 ∧ 100000 ≤ sinceNs at_ s.now then at_ else addNs s.now 100000) false))

/-! ### Hand-over (R361) -/

/-- A HANDOVER frame: a STANDBY unit acknowledges it. -/
def execHandover (t : Instant) (c : Contrail) (term : BitVec 16) (x : Instant) (s : State) : Out := .next (
  s.onFrame t c (fun s =>
    if s.role = 1 then (s.onTandem (fun y => { y with offered := some ⟨x, term.toNat, false, false⟩ })).sendFrame 9 (termPayload term.toNat x)
    else s))

/-- A HANDOVER_ACK by X − 5 µs: the holder sends COMMIT and is bound by it. -/
def execHandoverAck (t : Instant) (c : Contrail) (term : BitVec 16) (x : Instant) (s : State) : Out := .next (
  s.onFrame t c (fun s =>
    match s.tandem.handover with
    | some h =>
      if s.role = 0 ∧ h.x = x ∧ h.term = term.toNat ∧ h.committed = false ∧ 5000 ≤ sinceNs x s.now then
        (s.onTandem (fun y => { y with handover := some { h with committed := true } })).sendFrame 10 (termPayload h.term h.x)
      else s
    | none => s))

/-- X − 5 µs without an acknowledgement: the holder keeps the token. -/
def execCommitDeadline (t : Instant) (s : State) : Out := .next (
  let s := s.advance t
  match s.tandem.handover with
  | some h =>
    if !h.committed && decide (sinceNs h.x s.now ≤ 5000) then (s.onTandem (fun y => { y with handover := none })).tdNote 7 else s
  | none => s)

/-- A COMMIT by X − 2 µs binds the partner. -/
def execCommit (t : Instant) (c : Contrail) (term : BitVec 16) (x : Instant) (s : State) : Out := .next (
  s.onFrame t c (fun s =>
    match s.tandem.offered with
    | some h =>
      if h.x = x ∧ h.term = term.toNat ∧ 2000 ≤ sinceNs x s.now then s.onTandem (fun y => { y with offered := some { h with committed := true } })
      else s
    | none => s))

/-- X: the old holder stops and becomes STANDBY, or OFFLINE after a failed self-check; the
partner takes the token. -/
def execHandoverInstant (t : Instant) (s : State) : Out := .next (
  let s := s.advance t
  let done := fun (s : State) (h : Handover) => s.wrT F.TD_LAST_SWITCH h.x
  match s.tandem.handover, s.tandem.offered with
  | some h, _ =>
    if h.committed ∧ h.x = s.now ∧ s.role = 0 then
      let s := done (s.onTandem (fun y => { y with handover := none })) h
      let s := s.wr F.TD_STATUS_TERM h.term
      if h.offline then (s.tdNote 6).becomeOffline else s.putRole 1 (some 6)
    else s
  | none, some h =>
    if h.committed ∧ h.x = s.now ∧ s.role ≠ 0 then (done (s.onTandem (fun y => { y with offered := none })) h).takeToken h.term (some 6)
    else s
  | none, none => s)

/-! ### The lease (R357, R358, R362 to R365) -/

/-- A renewal instant: the holder sends RENEW; with the link lost the rings that count extend E
(R358). -/
def execRenewalInstant (t : Instant) (s : State) : Out := .next (
  let s := s.advance t
  if s.holds && onGrid (s.leaseNs / 4) 0 s.now then
    let s := s.showWitness
    let e := addNs s.now s.leaseNs
    let s := if s.on F.TD_STATUS_LINK_UP then s.sendFrame 2 (termPayload (s.rd F.TD_STATUS_TERM) e)
      else if s.rd F.TD_WITNESS = 0 then s else s.putExpiry e
    s.each (List.range 4) (fun s r => s.putPair r { s.pairRing r with whole := false })
  else s)

/-- A RENEW frame: the partner's expiry, acknowledged. -/
def execRenew (t : Instant) (c : Contrail) (term : BitVec 16) (e : Instant) (s : State) : Out := .next (
  s.onFrame t c (fun s =>
    if s.role = 0 then s
    else ((s.wr F.TD_STATUS_TERM term.toNat).putExpiry e).sendFrame 3 (termPayload term.toNat e)))

/-- A RENEW_ACK frame: the holder's expiry. -/
def execRenewAck (t : Instant) (c : Contrail) (term : BitVec 16) (e : Instant) (s : State) : Out := .next (
  s.onFrame t c (fun s => if s.role = 0 ∧ term.toNat = s.rd F.TD_STATUS_TERM then s.putExpiry e else s))

/-- The holder's stop instant (R363). -/
def execLapse (t : Instant) (s : State) : Out := .next (
  let s := s.advance t
  if s.holds && notLater s.stopInstant s.now then s.loseSync 4 else s)

/-- Whether a frame of the holder has been read since E_p − L ÷ 4 (R362). -/
def State.heardSince (s : State) : Bool :=
  let from_ := shiftNs s.expiry (-((s.leaseNs / 4 : Nat) : Int))
  (List.range 4).any (fun r => (s.pairRing r).heard.any (fun a => notLater from_ a))

/-- The partner's instant (R362): a STANDBY takes the token; a SYNC_LOST or REPAIRED unit only with
TAKEOVER_STALE; any other stays passive. -/
def execTakeover (t : Instant) (s : State) : Out := .next (
  let s := s.advance t
  if s.inPair && s.role != 0 && notLater s.actInstant s.now && !s.heardSince then
    let term := (s.rd F.TD_STATUS_TERM + 1) % 2 ^ 16
    if s.role = 1 then s.takeToken term (some 2)
    else if (s.role = 2 ∨ s.role = 3) ∧ s.on F.TD_CFG_TAKEOVER_STALE then
      ((s.wr F.TD_STATUS_SYNC_PHASE 0).onTandem (fun x => { x with sync := none, retryAt := none })).takeToken term (some 3)
    else s.tdNote 5
  else s)

/-- A lone start (R365): no partner frame on any inserted ring for 2(L + G) after the rings
reached LISTENING. -/
def execSoloStart (t : Instant) (s : State) : Out := .next (
  let s := s.advance t
  let rings := (List.range 4).filter (fun r => s.rd F.RING_STATUS_STATE r == 5)
  let inserted := (List.range 4).all (fun r => !s.on F.RING_CTRL_EN r || s.rd F.RING_STATUS_STATE r == 5)
  let quiet := rings.all (fun r =>
    (s.pairRing r).listenAt.any (fun a => decide ((2 * (s.leaseNs + s.guardNs) : Int) ≤ sinceNs s.now a)
      && (s.pairRing r).heard.all (fun h => earlier h a)))
  if s.inPair && s.role == 4 && s.on F.TD_CFG_SOLO_START && !rings.isEmpty && inserted && quiet then
    s.takeToken ((s.rd F.TD_STATUS_TERM + 1) % 2 ^ 16) none
  else s)

/-! ### Covered commands (R356) -/

/-- A CMD frame: the partner executes the command at the same instant. -/
def execCmd (t : Instant) (c : Contrail) (at_ : Instant) (s : State) : Out := .next (
  s.onFrame t c (fun s => if s.role = 0 then s else s.onTandem (fun x => { x with admitted := x.admitted ++ [at_] })))

/-- An execution instant: the covered command that follows now takes effect.  A holder whose
partner has not acknowledged takes it to be SYNC_LOST. -/
def execExecutionInstant (t : Instant) (acked : Bool) (s : State) : Out := .next (
  let s := s.advance t
  if s.tandem.admitted.contains s.now then
    let s := s.onTandem (fun x => { x with admitted := x.admitted.erase s.now, execAt := some s.now })
    if s.holds && !acked then s.wr F.TD_STATUS_PARTNER_ROLE 2 else s
  else s)

end Sys2Proof.Machine
end

