-- ==== Sys2Proof/Machine/WriteRows.lean ====
section
/-! DEFINITION.  The registers whose writes have rows of their own: what a write of such a
register at BAR0 runs (00 R16; 95). -/

namespace Sys2Proof.Machine

open Sys2Proof

/-- The instance of a register array that lies at `off`. -/
def instOf (base stride count off : Nat) : Option Nat :=
  if base ≤ off ∧ off < base + stride * count ∧ (off - base) % stride = 0 then some ((off - base) / stride) else none

/-- The state after a meaning, which always answers a next state. -/
def ran (f : State → Out) (s : State) : State :=
  match f s with
  | .next s' => s'
  | _ => s

/-- Rows, with whether the general rule writes the other fields of the register first. -/
abbrev Rows := Bool × List (State → Out)

/-- The rows whose bits are set in a word, in the order given. -/
def picked (v : Word) (l : List (Nat × (State → Out))) : List (State → Out) :=
  (l.filter (fun e => v.getLsbD e.1)).map (·.2)

/-- Command bits of a register: their rows, or the other fields where none is set. -/
def commandRows (fields : Bool) (v : Word) (l : List (Nat × (State → Out))) : Rows := (fields || (picked v l).isEmpty, picked v l)

/-- Command bits of a register that refuses a word with more than one: the first bit's row, which
refuses it. -/
def oneCommand (v : Word) (l : List (Nat × (State → Out))) : Rows := ((picked v l).isEmpty, (picked v l).take 1)

/-- WARP, LOOP and ANA registers. -/
def State.rows0 (s : State) (t : Instant) (off : Nat) (v : Word) : List (Option Rows) :=
  [if off = 0x100010 then some (false, [execRateAdjWrite t v]) else none,
   if off = 0x100014 then some (false, [execSlewNsWrite t v]) else none,
   if off = 0x100028 then some (false, [execStepGo t v]) else none,
   if off = 0x100068 then some (false, [fun s => execSyncOutArm t v (s.draw.1.getLsbD 0) s.draw.2]) else none,
   if off = 0x100084 then some (false, [execAvsModeWrite t v]) else none,
   (instOf 0x200000 0x100 1024 off).map (fun i =>
     let n := Fin.ofNat 1024 i
     let on := s.on F.LC_CTRL_ENABLE i
     let enable : List (State → Out) := if v.getLsbD 0 && !on then [execLcEnable t n v] else if !v.getLsbD 0 && on then [execLcDisable t n v] else []
     (enable.isEmpty, enable ++ picked v [(8, execSwap t n), (9, execCopy t n)])),
   (instOf 0x20009C 0x100 1024 off).map (fun i =>
     let n := Fin.ofNat 1024 i
     (false, picked v [(0, execStGo t n), (1, execStCancel t n), (2, execFaultClear t n), (3, execPlausClear t n)])),
   if 0x2000A0 ≤ off ∧ off < 0x240000 ∧ 0xA0 ≤ off % 0x100 ∧ off % 0x100 < 0xFC ∧ off % 4 = 0 then
     some (false, [execBankWindowWrite t (Fin.ofNat 1024 ((off - 0x200000) / 0x100)) (Fin.ofNat 24 ((off % 0x100 - 0xA0) / 4)) v]) else none,
   if off = 0x240008 then some (commandRows false v (if v.toNat % 32 < 25 then [(31, execCalRequest t (Fin.ofNat 25 (v.toNat % 32)))] else [])) else none]

/-- TREADLE, PROFILE, AXIS and SKEIN registers. -/
def State.rows1 (s : State) (t : Instant) (off : Nat) (v : Word) : List (Option Rows) :=
  [(instOf 0x300000 0x100 16 off).map (fun i =>
     let p := Fin.ofNat 16 i
     oneCommand v [(0, execTrStart t p v), (1, execTrPause t p v), (2, execTrResume t p v), (3, execTrAbort t p v), (4, execTrClearFault t p v)]),
   (instOf 0x310000 0x40 256 off).map (fun i => (false, [execPgEnable t (Fin.ofNat 256 i) v])),
   (instOf 0x310014 0x40 256 off).map (fun i => (false, [execPgHostWrite t (Fin.ofNat 256 i) .target v])),
   (instOf 0x310018 0x40 256 off).map (fun i => (false, [execPgHostWrite t (Fin.ofNat 256 i) .vmax v])),
   (instOf 0x31001C 0x40 256 off).map (fun i => (false, [execPgHostWrite t (Fin.ofNat 256 i) .win v])),
   (instOf 0x400000 0x100 128 off).map (fun i =>
     let n := Fin.ofNat 128 i
     let on := s.on F.AX_CTRL_ENABLE i
     let enable : List (State → Out) := if v.getLsbD 0 && !on then [execAxEnable t n v] else if !v.getLsbD 0 && on then [execAxDisable t n v] else []
     (enable.isEmpty, enable ++ picked v [(1, execAxGo t n), (2, execAxHalt t n), (3, execAxHome t n), (4, execAxClear t n)])),
   (instOf 0x410018 0x20 4 off).map (fun i =>
     let g := Fin.ofNat 4 i
     commandRows false v [(0, execAxgArm t g v), (2, execAxgCancel t g v)]),
   (instOf 0x501000 0x80 17 off).map (fun i => commandRows true v [(8, execFlush t (Fin.ofNat 17 i))])]

/-- TRIG, LOOM and SCHED registers. -/
def rows2 (t : Instant) (off : Nat) (v : Word) : List (Option Rows) :=
  [(instOf 0x600000 0x800 32 off).map (fun i => commandRows false v [(1, execTsArm t (Fin.ofNat 32 i)), (2, execTsDisarm t (Fin.ofNat 32 i))]),
   (instOf 0x610000 0x100 32 off).map (fun i => commandRows true v [(1, execForce t (Fin.ofNat 32 i))]),
   (instOf 0x610040 0x100 32 off).map (fun i => (false, [execChunkAck t (Fin.ofNat 32 i) (BitVec.ofNat 13 v.toNat)])),
   (instOf 0x630000 0x40 64 off).map (fun i => commandRows false v [(1, execMuArm t (Fin.ofNat 64 i)), (2, execMuDisarm t (Fin.ofNat 64 i))]),
   (instOf 0x701000 0x40 16 off).map (fun i =>
     let p := Fin.ofNat 16 i
     commandRows true v [(0, execApply t p v), (2, execEditCommit t p), (3, execEditDiscard t p)]),
   (instOf 0x80300C 0x10 48 off).map (fun i => commandRows false v [(0, execRestore t (Fin.ofNat 48 i))]),
   (instOf 0x806000 4 1024 off).map (fun i => (false, picked v [(29, execRelease t (Fin.ofNat 1024 i) (v.getLsbD 28))]))]

/-- CYCLIC, RING, TANDEM, SEC, PWR and HOST registers. -/
def rows3 (t : Instant) (off : Nat) (v : Word) : List (Option Rows) :=
  [(instOf 0x900000 0x200 16 off).map (fun i =>
     let p := Fin.ofNat 16 i
     oneCommand v [(0, execCpStart t p v), (1, execCpStop t p v), (2, execCpHold t p v), (3, execCpResume t p v)]),
   (instOf 0x920000 4 256 off).map (fun i => (false, [execRjStateWrite t (Fin.ofNat 16 (i / 16)) (Fin.ofNat 16 (i % 16)) v])),
   (instOf 0xA00000 0x1000 4 off).map (fun i =>
     let r := Fin.ofNat 4 i
     (false, execRingEnWrite t r v :: picked v [(2, execRingStart t r), (3, execRingStop t r), (4, execDiscover t r)])),
   (instOf 0xA00100 0x1000 4 off).map (fun i => commandRows false v [(31, execMbxGo t (Fin.ofNat 4 i) v)]),
   if off = 0xC00010 then
     some (oneCommand v [(0, execJoin t v), (1, execSwitch t v), (2, fun s => execResync t v (s.draw.1.getLsbD 0) s.draw.2), (3, execLeave t v)]) else none,
   if off = 0xD00200 then some (oneCommand v [(0, execActivate t v), (1, execConfirm t v), (2, execUpdCancel t v)]) else none,
   if off = 0xE00208 then some (false, [execDeviceReset t v]) else none,
   (instOf 0xE00300 8 16 off).map (fun i => (false, [execPartitionReset t (Fin.ofNat 16 i) v])),
   if off = 0xE00000 then some (false, [execPwrTolWrite t .ctrl v]) else none,
   if off = 0xE0000C then some (false, [execPwrTolWrite t .device v]) else none,
   (instOf 0xE00100 8 16 off).map (fun i => (false, [execPwrTolWrite t (.part (Fin.ofNat 16 i)) v])),
   (instOf 0xF00100 4 17 off).map (fun i => (false, [execMbxDb t (Fin.ofNat 17 i) v]))]

/-- The rows that a write of `v` at BAR0 offset `off` runs, where the register has rows. -/
def State.rowsAt (s : State) (t : Instant) (off : Nat) (v : Word) : Option Rows :=
  (s.rows0 t off v ++ s.rows1 t off v ++ rows2 t off v ++ rows3 t off v).findSome? id

end Sys2Proof.Machine
end

