-- ==== Sys2Proof/Machine/Write.lean ====
section
/-! DEFINITION.  The rows of chapter 00: register writes by access type, 64-bit latches and staged
halves, and reads of RC fields (R14 to R17; 15 R378, R379; 18 R425, R427, R431). -/

namespace Sys2Proof.Machine

open Sys2Proof

/-! ### What the general rule writes (Table 0.4) -/

/-- The owner of an RWL register at `off` (R17); an event input belongs to the partition of the
routes that name it (10 Table 10.16). -/
def State.rwlOwner (s : State) (off : Nat) : Option Nat :=
  match instOf 0x808000 4 2048 off with
  | some e => ((s.recsOf 1 2).find? (fun x => s.inputOf (keyNumber x.1) == e && x.2.owner.isSome)).bind (·.2.owner)
  | none => s.regPartition off

/-- One field of a register written with the register's word (Table 0.4). -/
def State.writeField (s : State) (b : FieldBits) (i v : Nat) (rwl : Bool) : State :=
  match b.access with
  | .rw => s.wrPart b i v
  | .rwl => if rwl then s.wrPart b i v else s
  | .w1c => s.wr b.fld ((List.range b.width).foldl (fun x k => if bitOf v (b.lo + k) then putBit x (b.from_ + k) false else x) (s.rd b.fld i)) i
  | .w1s => s.wr b.fld (s.rd b.fld i ||| (v / 2 ^ b.lo % 2 ^ b.width * 2 ^ b.from_)) i
  | .ro => s
  | .wo => s
  | .rc => s

/-- Whether a write of `v` would change an RWL field of the register. -/
def State.rwlChanges (s : State) (r : RegRow) (i v : Nat) : Bool :=
  r.fields.any (fun b => b.access == .rwl && s.rd b.fld i / 2 ^ b.from_ % 2 ^ b.width != v / 2 ^ b.lo % 2 ^ b.width)

/-- Whether some field of the register has one of the access types. -/
def RegRow.has (r : RegRow) (l : List Access) : Bool := r.fields.any (fun b => l.contains b.access)

/-- Whether a DRAM range lies in the host-assignable area (15 R379, 18 R450). -/
def State.assignable (s : State) (a n : Nat) : Bool :=
  decide (0x180000000 ≤ a) && decide (a + n ≤ s.rd F.MEM_DRAM_USABLE * 2 ^ 20)

/-- Whether the register at `off` names a DRAM range that, with the value written, lies outside
the host-assignable area (15 R379): `a` is the address or the size word. -/
def State.badRange (s : State) (off v : Nat) : Bool :=
  match instOf 0x501008 0x80 17 off, instOf 0x50100C 0x80 17 off, instOf 0x61001C 0x100 32 off, instOf 0x610020 0x100 32 off with
  | some k, _, _, _ => !s.assignable v (4096 * s.rd F.SKS_REGION_SIZE k)
  | _, some k, _, _ => !s.assignable (s.rd F.SKS_REGION k) (4096 * (v % 2 ^ 24))
  | _, _, some n, _ => !s.assignable v (1024 * s.rd F.CS_SLOT_CFG_SLOTS n * s.rd F.CS_SLOT_CFG_SLOT_KIB n)
  | _, _, _, some n => !s.assignable (s.rd F.CS_REGION n) (1024 * (v / 2 ^ 16 % 2 ^ 16) * (v % 2 ^ 16))
  | _, _, _, _ =>
    if off = 0x640008 then !s.assignable v (2 ^ 20 * s.rd F.ENV_COUNT)
    else if off = 0x64000C then !s.assignable (s.rd F.ENV_REGION) (2 ^ 20 * (v % 2 ^ 9))
    else false

/-- Whether a rule of the register's own chapter discards a write of `v`: a stream's region while
blocks are resident (07), a quota beyond 4,096 in total (10 R252), a binding to another partition's
template (10 Table 10.16). -/
def State.ownRuleDiscards (s : State) (off v : Nat) : Bool :=
  match (instOf 0x501008 0x80 17 off).or (instOf 0x50100C 0x80 17 off), instOf 0x801000 0x40 16 off, instOf 0x808000 4 2048 off with
  | some k, _, _ => s.on F.SKS_STATUS_RESIDENT k
  | _, some p, _ => decide (4096 < (((List.range 16).filter (· != p)).map (fun q => s.rd F.PS_QUOTA q)).sum + v % 2 ^ 13)
  | _, _, some _ => (s.rwlOwner off).any (fun p => v % 2 ^ 10 / 64 != p)
  | _, _, _ => false

/-- What follows a register write that took effect: a raised quota serves its claimants, an enabled
binding its events (10 R252), TD_CFG.EN the roles of the rings (14 R346), a stream's EXPORT or region what may be exported or placed (07 R187), LOGIC_HOLD the quadrants
(16 R396), SLEW_CFG what the clamp leaves of a slew (02 R34), AVS_LIMITS and AVS_SET the voltage that FIXED holds (02 R57), an unmasked MSI-X vector is sent, an alarm instant already past wakes (16 R412). -/
def State.afterWrite (s : State) (off : Nat) : State :=
  match instOf 0x801000 0x40 16 off, instOf 0x808000 4 2048 off, instOf 0xE00104 8 16 off with
  | some p, _, _ => (s.serve p).dispatch
  | _, some e, _ => (s.serve (s.inputPart e)).dispatch
  | _, _, some _ => s.regate
  | _, _, _ =>
    if 0x501000 ≤ off ∧ off < 0x501000 + 0x80 * 17 then s.refreshRegion ((off - 0x501000) / 0x80)
    else if 0x610000 ≤ off ∧ off < 0x612000 ∧ off % 0x100 = 0 then
      let n := (off - 0x610000) / 0x100
      if s.capState n = 5 ∧ !s.on F.CS_CTRL_REARM n then s.idleSet n else s
    else if 0xF02000 ≤ off ∧ off < 0xF02400 ∧ off % 16 = 12 then
      let v := (off - 0xF02000) / 16
      if s.on F.MSIX_MASK v then s else s.wr F.MSIX_PBA (putBit (s.rd F.MSIX_PBA (v / 32)) (v % 32) false) (v / 32)
    else if off = 0xC00000 then s.ringRoles.when (s.inPair && s.role != 4) (·.internalWake 5)
    else if off = 0x100018 then s.putSlew s.warp.slewLeft
    else if off = 0x100088 ∨ off = 0x10008C then s.holdVolt
    else if off = 0xE0001C then (if notLater (s.rdT F.PWR_ALARM) s.now then s.externalWake 3 (s.on F.PWR_WAKE_EN_ALARM) true else s)
    else s

/-- The fields of a register written by their access types, where no rule discards the write. -/
def State.writeWord (s : State) (off v : Nat) (r : RegRow) (i : Nat) : State :=
  let rwl := s.rwlOpen (s.rwlOwner off)
  if !r.has [.rw, .rwl, .w1c, .w1s, .wo] then s.discard 1 off
  else if s.badRange off v then (s.secEvent 7).discard 4 off
  else if s.ownRuleDiscards off v then s.discardOther off
  else
    let lost := !rwl && r.has [.rwl] && (s.rwlChanges r i v || !r.has [.rw, .w1c, .w1s, .wo])
    let s := r.fields.foldl (fun s b => s.writeField b i v rwl) s
    if lost then s.discard 3 off else s.afterWrite off

/-! ### 64-bit quantities (R15) -/

/-- The lower half staged by a requester. -/
def State.stagedHalf (s : State) (q : Requester) (off : Nat) : Option Nat := (s.staged.find? (fun e => e.1 == (q, off))).map (·.2)

/-- The 64-bit value that a write of the _HI word at `off` commits. -/
def State.wholeValue (s : State) (q : Requester) (off hi : Nat) : Nat := hi * 2 ^ 32 + (s.stagedHalf q (off - 4)).getD (s.regWord (off - 4))

/-- The commit of a 64-bit register of its own row: C_STATE, ST_CONSUMED, CS_CONSUMED. -/
def commitRow (t : Instant) (off v : Nat) : Option (State → Out) :=
  match instOf 0x200050 0x100 1024 off, instOf 0x501028 0x80 17 off, instOf 0x610034 0x100 32 off with
  | some n, _, _ => some (execCStateWrite t (Fin.ofNat 1024 n) (BitVec.ofNat 48 v))
  | _, some k, _ => some (execStConsumedWrite t (Fin.ofNat 17 k) (BitVec.ofNat 64 v))
  | _, _, some n => some (execCsConsumedWrite t (Fin.ofNat 32 n) (BitVec.ofNat 64 v))
  | _, _, _ => none

/-- A write of a _HI word: the staged lower half and this upper half together; with none staged
the lower half keeps its value. -/
def State.commitHigh (s : State) (t : Instant) (q : Requester) (off hi : Nat) (r : RegRow) (i : Nat) : State :=
  let v := s.wholeValue q off hi
  let s := { s with staged := s.staged.filter (fun e => !(e.1 == (q, off - 4))) }
  match commitRow t off v with
  | some f => ran f s
  | none =>
    let whole := { r with fields := r.fields.map (fun b => { b with lo := 0, width := b.fld.width, from_ := 0 }) }
    s.plainWrite off (fun s => s.writeWord off v whole i)

/-- A write of a _LO word stages the lower half, for this register and requester. -/
def State.stageLow (s : State) (q : Requester) (off v : Nat) : State :=
  { s with staged := s.staged.filter (fun e => !(e.1 == (q, off))) ++ [((q, off), v)] }

/-! ### The write -/

/-- The rows that a write runs, after the other fields of the register where they are not the rows'. -/
def State.writeReg (s : State) (t : Instant) (q : Requester) (off : Nat) (value : Word) : State :=
  match s.rowsAt t off value, findReg off with
  | some (fields, rows), reg =>
    s.plainWrite off (fun s =>
      let s := match reg with
        | some (r, i) => if fields then s.writeWord off value.toNat r i else s
        | none => s
      rows.foldl (fun s f => ran f s) s)
  | none, none => s.discard 5 off
  | none, some (r, i) =>
    match r.half with
    | .high => s.commitHigh t q off value.toNat r i
    | .low => if r.has [.rw, .rwl] then s.plainWrite off (·.stageLow q off value.toNat) else s.discard 1 off
    | .word =>
      if editMask r ≠ 0 then ran (execConfigFieldWrite t (Fin.ofNat 268435456 off) value) s
      else s.plainWrite off (fun s => s.writeWord off value.toNat r i)

/-- Whether the requester's writes reach BAR0: a Shuttle only reads (18 R451), debug is locked
unless open (15 R382). -/
def State.mayWrite (s : State) (q : Requester) : Bool :=
  match q with
  | .shuttle _ => false
  | .debug => s.on F.SEC_STATUS_DEBUG_LEVEL
  | _ => true

/-- The offset lies in the SRAM window of BAR0 (18 Table 18.1). -/
def inSramWindow (off : Nat) : Bool := decide (0x1000000 ≤ off) && decide (off < 0x5000000)

/-- The SRAM window (18 R425, 15 R378, R383): debug access at level DEVICE; every host access is
refused. -/
def State.windowWrite (s : State) (q : Requester) (off : Nat) (value : Word) : State :=
  if q = .debug ∧ s.rd F.SEC_STATUS_DEBUG_LEVEL = 2 then { s with sram := s.sram.writeBytes (off - 0x1000000) (leBytes 4 value.toNat) }
  else ((s.secEvent 4).bump F.SEC_HOST_REFUSE_CNT).discard 4 off

/-- A read in the SRAM window (18 R425, 15 R378, R383): as a write. -/
def State.windowRead (s : State) (q : Requester) (off : Nat) : State :=
  if q = .debug ∧ s.rd F.SEC_STATUS_DEBUG_LEVEL = 2 then s.reply 0 (s.sram.readBytes (off - 0x1000000) 4) else s.refuseAccess 4

/-- A host write to BAR0 (R14, R16). -/
def execRegisterWrite (t : Instant) (r : Requester) (offset : Fin 268435456) (value : Word) (byteEnables : Fin 16) (s : State) : Out := .next (
  let s := s.advance t
  if !s.mayWrite r then s
  else if byteEnables.val ≠ 15 ∨ offset.val % 4 ≠ 0 then s.discard 2 offset.val
  else if inSramWindow offset.val then s.windowWrite r offset.val value
  else s.writeReg t r offset.val value)

/-- A write of a _HI word (R15). -/
def execHiWriteCommit (t : Instant) (r : Requester) (offset : Fin 268435456) (value : Word) (s : State) : Out := .next (
  let s := s.advance t
  match findReg offset.val with
  | some (row, i) => if s.mayWrite r ∧ row.half = .high then s.commitHigh t r offset.val value.toNat row i else s
  | none => s)

/-! ### Reads -/

/-- Whether a Shuttle's read of the register at `off` is admitted (18 R451): in a window, and a register of
its task's partition, of a value route exported to it, or an RO register of SYS or WARP. -/
def State.shuttleReads (s : State) (k : Nat) (off : Nat) : Bool :=
  match s.runningOn k with
  | none => false
  | some i =>
    let p := (s.task i).partition
    s.windowOk k (0x40000000 + off) 4 0 && (s.regPartition off == some p ||
      (instOf 0x720000 4 12288 off).any (fun v => s.mayRead p (vrKey v) (3 * 2 ^ 28 + v)) || (off / 2 ^ 20 ≤ 1 && (findReg off).any (fun x => !x.1.has [.rw, .wo, .w1c, .w1s, .rc, .rwl])))

/-- Whether the requester may read the register. -/
def State.mayReadReg (s : State) (q : Requester) (off : Nat) : Bool :=
  match q with
  | .shuttle n => s.shuttleReads n.val off
  | .debug => s.on F.SEC_STATUS_DEBUG_LEVEL
  | _ => true

/-- A read that is not admitted answers nothing (15 R382); a Shuttle's is a PROT fault of its task (18
R451). -/
def State.refuseRead (s : State) (q : Requester) (off : Nat) : State :=
  match q with
  | .shuttle n =>
    match s.runningOn n.val with
    | some i => s.programFault n.val i 3 (0x40000000 + off)
    | none => s
  | _ => s

/-- The upper half that a requester has latched of the register whose _LO word is at `off`. -/
def State.latchOf (s : State) (q : Requester) (off : Nat) : Option Nat := (s.latches.find? (fun e => e.1 == (q, off))).map (·.2)

/-- A latch set, or ended. -/
def State.putLatch (s : State) (q : Requester) (off : Nat) (v : Option Nat) : State :=
  let rest := s.latches.filter (fun e => !(e.1 == (q, off)))
  { s with latches := match v with
      | some x => rest ++ [((q, off), x)]
      | none => rest }

/-- Registers that move with the Warp brought up to now: WARP_NOW, TR_TAU, PWR_RES. -/
def State.refreshReg (s : State) (off : Nat) : State :=
  match instOf 0x30002C 0x100 16 off, instOf 0xE00050 8 5 off with
  | some p, _ => s.wr F.TR_TAU (if s.rd F.TR_STATUS_STATE p = 0 then s.rd F.TR_TAU p else s.tau p / 16) p
  | _, some _ => s.accrue
  | _, _ => if off = 0x100000 then s.wrT F.WARP_NOW s.now else s

/-- The registers of an axis's view that a read of AX_POS latches together (06 R146). -/
def axisFields : List Fld := [F.AX_POS, F.AX_VEL, F.AX_FBPOS, F.AX_FE, F.AX_STEP_POS]

/-- A read of SP or of AX_POS latches the view of its cell or axis (03 R68, 06 R146). -/
def State.latchView (s : State) (off : Nat) : State :=
  match instOf 0x200030 0x100 1024 off, instOf 0x400080 0x100 128 off with
  | some n, _ => s.takeSnapshotOf n
  | _, some n => s.putAxis n { s.axis n with snapshot := axisFields.map (fun f => s.rd f n) }
  | _, _ => s

/-- The word that the bank window of cell `n` shows at `k`: of the shadow bank with VIEW 1, of the active
bank with VIEW 0 (03 R78, R88). -/
def State.bankShown (s : State) (n k : Nat) : Nat :=
  if s.on F.LC_CTRL_VIEW n then (s.shadow n).word k else (s.active n).word k

/-- The offset lies in the bank window of a loop cell (03 Table 3.8). -/
def inBankWindow (off : Nat) : Bool := off / 0x40000 == 8 && decide (0xA0 ≤ off % 0x100) && off % 4 == 0

/-- The word that a read at `off` answers: a latched view's copy (03 R68, 06 R146), a bank's word (R78), the
register. -/
def State.shownWord (s : State) (off : Nat) : Nat :=
  let n := off / 0x100 % 0x1000
  let k := off % 0x100
  if inBankWindow off then s.bankShown n ((k - 0xA0) / 4)
  else if off / 0x40000 = 8 ∧ off % 4 = 0 then
    if 0x34 ≤ k ∧ k < 0x4C then ((s.cell n).snapshot[(k - 0x30) / 4]?).getD (s.regWord off)
    else if k = 0x88 ∨ k = 0x8C then ((s.cell n).snapshot[7 + (k - 0x88) / 4]?).getD (s.regWord off)
    else s.regWord off
  else if off / 0x8000 = 0x80 ∧ off % 4 = 0 ∧ 0x84 ≤ k ∧ k < 0x94 then ((s.axis n).snapshot[(k - 0x80) / 4]?).getD (s.regWord off)
  else s.regWord off

/-- The word that a read by `r` at `off` answers: of a partition's view that it has latched (18 R445), or
as any requester reads it. -/
def State.viewWord (s : State) (r : Requester) (off : Nat) : Nat :=
  let view := if 0xF01000 ≤ off ∧ off < 0xF01200 then (s.host.views.find? (fun e => e.1 == (r, (off - 0xF01000) / 0x20))).map (·.2) else none
  (view.bind (·[off % 0x20 / 4]?)).getD (s.shownWord off)

/-- A read of the _LO word latches the whole value for the requester; a read of the _HI word
returns the latched half and ends the latch, or with none the half that is current (R15).  During
the boot only SYS, SEC, PWR and HOST answer (18 R431); the words of a partition's view come from the
view that the requester latched at its read of PV_STATE (18 R445). -/
def execLoReadLatch (t : Instant) (r : Requester) (offset : Fin 268435456) (s : State) : Out := .next (
  let s := s.advance t
  let off := offset.val
  if !s.mayReadReg r off then s.refuseRead r off
  else if s.on F.HOST_STATUS_BOOTING && !bootOpen off then s.answerWord 0
  else if inSramWindow off then s.windowRead r off
  else match findReg off with
    | none => s.answerWord (s.shownWord off)
    | some (row, _) =>
      match row.half with
      | .low =>
        let s := s.refreshReg off
        (s.putLatch r off (some (s.viewWord r (off + 4)))).answerWord (s.viewWord r off)
      | .high =>
        let v := (s.latchOf r (off - 4)).getD ((s.refreshReg (off - 4)).regWord off)
        (s.putLatch r (off - 4) none).answerWord v
      | .word =>
        match instOf 0xF01000 0x20 16 off with
        | some p => s.latchPv r p
        | none => let s := s.latchView off; s.answerWord (s.viewWord r off))

/-- A read of a register with RC fields by the PCIe host or Steward (Table 0.4): the value is
returned and the fields are cleared, to the value that says that nothing has occurred. -/
def execRcRead (t : Instant) (offset : Fin 268435456) (s : State) : Out := .next (
  let s := s.advance t
  let off := offset.val
  if s.on F.HOST_STATUS_BOOTING && !bootOpen off then s.answerWord 0
  else if inSramWindow off then s.refuseAccess 4
  else match findReg off with
    | none => s.answerWord (s.shownWord off)
    | some (row, i) =>
      let v := s.shownWord off
      (row.fields.foldl (fun s b => if b.access = .rc then s.wr b.fld b.fld.reset i else s) s).answerWord v)

end Sys2Proof.Machine
end

