-- ==== Sys2Proof/Machine/Dispatch.lean ====
section
/-! DEFINITION.  One arm per command. -/

namespace Sys2Proof.Machine

open Sys2Proof

def exec (i : Instr) (s : State) : Host.Outcome State Fault Refusal :=
  match i with
  | .registerWrite t r offset value byteEnables => Sys2Proof.Machine.execRegisterWrite t r offset value byteEnables s
  | .loReadLatch t r offset => Sys2Proof.Machine.execLoReadLatch t r offset s
  | .hiWriteCommit t r offset value => Sys2Proof.Machine.execHiWriteCommit t r offset value s
  | .rcRead t offset => Sys2Proof.Machine.execRcRead t offset s
  | .slewNsWrite t offset => Sys2Proof.Machine.execSlewNsWrite t offset s
  | .slewEnd t => Sys2Proof.Machine.execSlewEnd t s
  | .rateAdjWrite t rate => Sys2Proof.Machine.execRateAdjWrite t rate s
  | .stepGo t value => Sys2Proof.Machine.execStepGo t value s
  | .refWindowEnd t n => Sys2Proof.Machine.execRefWindowEnd t n s
  | .warpWindowEnd t m => Sys2Proof.Machine.execWarpWindowEnd t m s
  | .refLost t => Sys2Proof.Machine.execRefLost t s
  | .holdoverExit t => Sys2Proof.Machine.execHoldoverExit t s
  | .warpWrap t => Sys2Proof.Machine.execWarpWrap t s
  | .ppsOutRise t => Sys2Proof.Machine.execPpsOutRise t s
  | .ppsOutFall t => Sys2Proof.Machine.execPpsOutFall t s
  | .stampInputEdge t pin rising => Sys2Proof.Machine.execStampInputEdge t pin rising s
  | .stampInputQualified t pin => Sys2Proof.Machine.execStampInputQualified t pin s
  | .syncOutArm t value armFirst => Sys2Proof.Machine.execSyncOutArm t value armFirst s
  | .syncOutPulse t => Sys2Proof.Machine.execSyncOutPulse t s
  | .slackWindowEnd t => Sys2Proof.Machine.execSlackWindowEnd t s
  | .avsTimeout t => Sys2Proof.Machine.execAvsTimeout t s
  | .avsModeWrite t value => Sys2Proof.Machine.execAvsModeWrite t value s
  | .lcEnable t n value => Sys2Proof.Machine.execLcEnable t n value s
  | .lcDisable t n value => Sys2Proof.Machine.execLcDisable t n value s
  | .swap t n => Sys2Proof.Machine.execSwap t n s
  | .copy t n => Sys2Proof.Machine.execCopy t n s
  | .bankWindowWrite t n k value => Sys2Proof.Machine.execBankWindowWrite t n k value s
  | .cStateWrite t n value => Sys2Proof.Machine.execCStateWrite t n value s
  | .lcSnapshotRead t n => Sys2Proof.Machine.execLcSnapshotRead t n s
  | .loopStrobe t n => Sys2Proof.Machine.execLoopStrobe t n s
  | .loopResultReady t n arith parity => Sys2Proof.Machine.execLoopResultReady t n arith parity s
  | .loopRelease t n resultFirst => Sys2Proof.Machine.execLoopRelease t n resultFirst s
  | .comparatorTrip t ain rise => Sys2Proof.Machine.execComparatorTrip t ain rise s
  | .eventHoldEnd t n => Sys2Proof.Machine.execEventHoldEnd t n s
  | .conversionDone t ain raw spareRaw => Sys2Proof.Machine.execConversionDone t ain raw spareRaw s
  | .loopStall t n => Sys2Proof.Machine.execLoopStall t n s
  | .faultClear t n => Sys2Proof.Machine.execFaultClear t n s
  | .plausClear t n => Sys2Proof.Machine.execPlausClear t n s
  | .rotationSlot t => Sys2Proof.Machine.execRotationSlot t s
  | .rotationConversion t raw spareRaw => Sys2Proof.Machine.execRotationConversion t raw spareRaw s
  | .calibrationDone t gain offs => Sys2Proof.Machine.execCalibrationDone t gain offs s
  | .calRequest t conv => Sys2Proof.Machine.execCalRequest t conv s
  | .stGo t n => Sys2Proof.Machine.execStGo t n s
  | .selfTestBegin t n => Sys2Proof.Machine.execSelfTestBegin t n s
  | .selfTestDone t n fail => Sys2Proof.Machine.execSelfTestDone t n fail s
  | .stCancel t n => Sys2Proof.Machine.execStCancel t n s
  | .loadTable t p img room => Sys2Proof.Machine.execLoadTable t p img room s
  | .trStart t p value => Sys2Proof.Machine.execTrStart t p value s
  | .trPause t p value => Sys2Proof.Machine.execTrPause t p value s
  | .trResume t p value => Sys2Proof.Machine.execTrResume t p value s
  | .trAbort t p value => Sys2Proof.Machine.execTrAbort t p value s
  | .trClearFault t p value => Sys2Proof.Machine.execTrClearFault t p value s
  | .treadleTick t p => Sys2Proof.Machine.execTreadleTick t p s
  | .timeDecision t p => Sys2Proof.Machine.execTimeDecision t p s
  | .stepBoundary t p => Sys2Proof.Machine.execStepBoundary t p s
  | .stagingDone t p => Sys2Proof.Machine.execStagingDone t p s
  | .stepCommit t p => Sys2Proof.Machine.execStepCommit t p s
  | .valveChange t p => Sys2Proof.Machine.execValveChange t p s
  | .treadleFault t p => Sys2Proof.Machine.execTreadleFault t p s
  | .pgEnable t n value => Sys2Proof.Machine.execPgEnable t n value s
  | .pgUpdate t n => Sys2Proof.Machine.execPgUpdate t n s
  | .pgHostWrite t n r value => Sys2Proof.Machine.execPgHostWrite t n r value s
  | .axEnable t n value => Sys2Proof.Machine.execAxEnable t n value s
  | .axDisable t n value => Sys2Proof.Machine.execAxDisable t n value s
  | .axGo t n => Sys2Proof.Machine.execAxGo t n s
  | .axHalt t n => Sys2Proof.Machine.execAxHalt t n s
  | .axHome t n => Sys2Proof.Machine.execAxHome t n s
  | .axClear t n => Sys2Proof.Machine.execAxClear t n s
  | .loadSegments t p img room => Sys2Proof.Machine.execLoadSegments t p img room s
  | .axStrobe t n runAhead => Sys2Proof.Machine.execAxStrobe t n runAhead s
  | .axResultReady t n arith parity => Sys2Proof.Machine.execAxResultReady t n arith parity s
  | .axRelease t n resultFirst => Sys2Proof.Machine.execAxRelease t n resultFirst s
  | .stepPulse t n => Sys2Proof.Machine.execStepPulse t n s
  | .axStall t n => Sys2Proof.Machine.execAxStall t n s
  | .axgArm t g value => Sys2Proof.Machine.execAxgArm t g value s
  | .axgCancel t g value => Sys2Proof.Machine.execAxgCancel t g value s
  | .groupStart t g => Sys2Proof.Machine.execGroupStart t g s
  | .limitEdge t n positive => Sys2Proof.Machine.execLimitEdge t n positive s
  | .homeSwitchEdge t n => Sys2Proof.Machine.execHomeSwitchEdge t n s
  | .burstQualified t n => Sys2Proof.Machine.execBurstQualified t n s
  | .indexEdge t n => Sys2Proof.Machine.execIndexEdge t n s
  | .tapSample t n at_ data => Sys2Proof.Machine.execTapSample t n at_ data s
  | .blockSeal t k => Sys2Proof.Machine.execBlockSeal t k s
  | .skeinCheckpoint t => Sys2Proof.Machine.execSkeinCheckpoint t s
  | .checkpointSigned t k => Sys2Proof.Machine.execCheckpointSigned t k s
  | .blockWriteDone t k seq good => Sys2Proof.Machine.execBlockWriteDone t k seq good s
  | .exportDone t k => Sys2Proof.Machine.execExportDone t k s
  | .stConsumedWrite t k seq => Sys2Proof.Machine.execStConsumedWrite t k seq s
  | .flush t k => Sys2Proof.Machine.execFlush t k s
  | .resendBlock t k seq => Sys2Proof.Machine.execResendBlock t k seq s
  | .tsArm t n => Sys2Proof.Machine.execTsArm t n s
  | .tsDisarm t n => Sys2Proof.Machine.execTsDisarm t n s
  | .tsSample t n => Sys2Proof.Machine.execTsSample t n s
  | .captureReady t n => Sys2Proof.Machine.execCaptureReady t n s
  | .force t n => Sys2Proof.Machine.execForce t n s
  | .autoFire t n => Sys2Proof.Machine.execAutoFire t n s
  | .captureEnd t n => Sys2Proof.Machine.execCaptureEnd t n s
  | .captureSlotDone t n => Sys2Proof.Machine.execCaptureSlotDone t n s
  | .csConsumedWrite t n seq => Sys2Proof.Machine.execCsConsumedWrite t n seq s
  | .chunkAck t n count => Sys2Proof.Machine.execChunkAck t n count s
  | .loadEnvelope t p img room => Sys2Proof.Machine.execLoadEnvelope t p img room s
  | .muArm t n => Sys2Proof.Machine.execMuArm t n s
  | .muDisarm t n => Sys2Proof.Machine.execMuDisarm t n s
  | .pointFetchDone t n => Sys2Proof.Machine.execPointFetchDone t n s
  | .muSample t n have_ => Sys2Proof.Machine.execMuSample t n have_ s
  | .fioInputEdge t pin level => Sys2Proof.Machine.execFioInputEdge t pin level s
  | .filterTake t pin => Sys2Proof.Machine.execFilterTake t pin s
  | .leInputChange t n since => Sys2Proof.Machine.execLeInputChange t n since s
  | .leTimerExpiry t n => Sys2Proof.Machine.execLeTimerExpiry t n s
  | .eventRouteEvent t er data => Sys2Proof.Machine.execEventRouteEvent t er data s
  | .routeStall t kind id => Sys2Proof.Machine.execRouteStall t kind id s
  | .configScan t bad => Sys2Proof.Machine.execConfigScan t bad s
  | .configFieldWrite t offset value => Sys2Proof.Machine.execConfigFieldWrite t offset value s
  | .editCommit t p => Sys2Proof.Machine.execEditCommit t p s
  | .editDiscard t p => Sys2Proof.Machine.execEditDiscard t p s
  | .planeFlip t p => Sys2Proof.Machine.execPlaneFlip t p s
  | .loadDraft t p img room => Sys2Proof.Machine.execLoadDraft t p img room s
  | .apply t p value => Sys2Proof.Machine.execApply t p value s
  | .applyStaged t p verified => Sys2Proof.Machine.execApplyStaged t p verified s
  | .journalWriteDone t p good => Sys2Proof.Machine.execJournalWriteDone t p good s
  | .qsub t sh addr desc nowait qtmo => Sys2Proof.Machine.execQsub t sh addr desc nowait qtmo s
  | .qcan t sh handle => Sys2Proof.Machine.execQcan t sh handle s
  | .qpush t sh h addr e nowait qtmo => Sys2Proof.Machine.execQpush t sh h addr e nowait qtmo s
  | .qpop t sh h addr nowait qtmo => Sys2Proof.Machine.execQpop t sh h addr nowait qtmo s
  | .qdone t sh code => Sys2Proof.Machine.execQdone t sh code s
  | .qyield t sh => Sys2Proof.Machine.execQyield t sh s
  | .qrel t sh flow drop => Sys2Proof.Machine.execQrel t sh flow drop s
  | .qstat t sh sel => Sys2Proof.Machine.execQstat t sh sel s
  | .taskFault t sh cause detail => Sys2Proof.Machine.execTaskFault t sh cause detail s
  | .runtimeExpiry t sh => Sys2Proof.Machine.execRuntimeExpiry t sh s
  | .waitTimeout t slot => Sys2Proof.Machine.execWaitTimeout t slot s
  | .selfCheckDone t sh pass => Sys2Proof.Machine.execSelfCheckDone t sh pass s
  | .restore t sh => Sys2Proof.Machine.execRestore t sh s
  | .release t f drop => Sys2Proof.Machine.execRelease t f drop s
  | .submitTask t p desc => Sys2Proof.Machine.execSubmitTask t p desc s
  | .cancelTask t p handle => Sys2Proof.Machine.execCancelTask t p handle s
  | .hqPush t p h es => Sys2Proof.Machine.execHqPush t p h es s
  | .hqPop t p h max => Sys2Proof.Machine.execHqPop t p h max s
  | .loadProgram t p img room => Sys2Proof.Machine.execLoadProgram t p img room s
  | .hostInput t p task data => Sys2Proof.Machine.execHostInput t p task data s
  | .scanLatch t p k => Sys2Proof.Machine.execScanLatch t p k s
  | .scanClose t p k => Sys2Proof.Machine.execScanClose t p k s
  | .scanRelease t p k => Sys2Proof.Machine.execScanRelease t p k s
  | .cpStart t p value => Sys2Proof.Machine.execCpStart t p value s
  | .cpHold t p value => Sys2Proof.Machine.execCpHold t p value s
  | .cpResume t p value => Sys2Proof.Machine.execCpResume t p value s
  | .cpStop t p value => Sys2Proof.Machine.execCpStop t p value s
  | .retainCheckpoint t => Sys2Proof.Machine.execRetainCheckpoint t s
  | .powerFail t low => Sys2Proof.Machine.execPowerFail t low s
  | .retainCommitDone t p good => Sys2Proof.Machine.execRetainCommitDone t p good s
  | .rjStateWrite t p w value => Sys2Proof.Machine.execRjStateWrite t p w value s
  | .ringEnWrite t r value => Sys2Proof.Machine.execRingEnWrite t r value s
  | .insertionLocked t r => Sys2Proof.Machine.execInsertionLocked t r s
  | .insertionTimeout t r => Sys2Proof.Machine.execInsertionTimeout t r s
  | .discover t r => Sys2Proof.Machine.execDiscover t r s
  | .enumReturn t r descs => Sys2Proof.Machine.execEnumReturn t r descs s
  | .delayReturn t r reverse tx rx times => Sys2Proof.Machine.execDelayReturn t r reverse tx rx times s
  | .discFail t r => Sys2Proof.Machine.execDiscFail t r s
  | .ringStart t r => Sys2Proof.Machine.execRingStart t r s
  | .ringStop t r => Sys2Proof.Machine.execRingStop t r s
  | .cycleStart t r => Sys2Proof.Machine.execCycleStart t r s
  | .receptionEnd t r onF frame => Sys2Proof.Machine.execReceptionEnd t r onF frame s
  | .rxLimit t r linkLost => Sys2Proof.Machine.execRxLimit t r linkLost s
  | .mbxGo t r value => Sys2Proof.Machine.execMbxGo t r value s
  | .mbxTmo t r => Sys2Proof.Machine.execMbxTmo t r s
  | .reservationWritten t r good => Sys2Proof.Machine.execReservationWritten t r good s
  | .safetyCycle t c => Sys2Proof.Machine.execSafetyCycle t c s
  | .permitWord t valid => Sys2Proof.Machine.execPermitWord t valid s
  | .linkSilent t => Sys2Proof.Machine.execLinkSilent t s
  | .dieTick t => Sys2Proof.Machine.execDieTick t s
  | .sinChannelChange t pair chanB level => Sys2Proof.Machine.execSinChannelChange t pair chanB level s
  | .discrepancyFault t pair => Sys2Proof.Machine.execDiscrepancyFault t pair s
  | .testPulse t chanB fails => Sys2Proof.Machine.execTestPulse t chanB fails s
  | .outputTest t o result => Sys2Proof.Machine.execOutputTest t o result s
  | .termComparison t agree => Sys2Proof.Machine.execTermComparison t agree s
  | .islandFault t => Sys2Proof.Machine.execIslandFault t s
  | .matrixLoad t good => Sys2Proof.Machine.execMatrixLoad t good s
  | .overcastWindowEnd t => Sys2Proof.Machine.execOvercastWindowEnd t s
  | .overcastArmed t => Sys2Proof.Machine.execOvercastArmed t s
  | .sclkCrosscheck t bad => Sys2Proof.Machine.execSclkCrosscheck t bad s
  | .weftFrame t n f => Sys2Proof.Machine.execWeftFrame t n f s
  | .weftDeadline t n => Sys2Proof.Machine.execWeftDeadline t n s
  | .programMatrix t c readBack room => Sys2Proof.Machine.execProgramMatrix t c readBack room s
  | .loadSafety t img readBack room => Sys2Proof.Machine.execLoadSafety t img readBack room s
  | .safetyPhase t phase => Sys2Proof.Machine.execSafetyPhase t phase s
  | .safetyReset t mask => Sys2Proof.Machine.execSafetyReset t mask s
  | .status t c role flags term rings => Sys2Proof.Machine.execStatus t c role flags term rings s
  | .renew t c term e => Sys2Proof.Machine.execRenew t c term e s
  | .renewAck t c term e => Sys2Proof.Machine.execRenewAck t c term e s
  | .digest t c r cycle digest => Sys2Proof.Machine.execDigest t c r cycle digest s
  | .have_ t c r cycle have_ => Sys2Proof.Machine.execHave_ t c r cycle have_ s
  | .inputs t c r cycle bytes => Sys2Proof.Machine.execInputs t c r cycle bytes s
  | .time t c t1 t2 rate => Sys2Proof.Machine.execTime t c t1 t2 rate s
  | .handover t c term x => Sys2Proof.Machine.execHandover t c term x s
  | .handoverAck t c term x => Sys2Proof.Machine.execHandoverAck t c term x s
  | .commit t c term x => Sys2Proof.Machine.execCommit t c term x s
  | .handoverInstant t => Sys2Proof.Machine.execHandoverInstant t s
  | .check t c report => Sys2Proof.Machine.execCheck t c report s
  | .rapidSelfCheckDone t pass => Sys2Proof.Machine.execRapidSelfCheckDone t pass s
  | .cmd t c at_ => Sys2Proof.Machine.execCmd t c at_ s
  | .executionInstant t acked => Sys2Proof.Machine.execExecutionInstant t acked s
  | .snap t c chunk chunks whole => Sys2Proof.Machine.execSnap t c chunk chunks whole s
  | .snapAck t c chunk => Sys2Proof.Machine.execSnapAck t c chunk s
  | .renewalInstant t => Sys2Proof.Machine.execRenewalInstant t s
  | .linkLost t => Sys2Proof.Machine.execLinkLost t s
  | .linkUp t same => Sys2Proof.Machine.execLinkUp t same s
  | .lapse t => Sys2Proof.Machine.execLapse t s
  | .takeover t => Sys2Proof.Machine.execTakeover t s
  | .replayTimeout t => Sys2Proof.Machine.execReplayTimeout t s
  | .resyncRetry t same => Sys2Proof.Machine.execResyncRetry t same s
  | .soloStart t => Sys2Proof.Machine.execSoloStart t s
  | .join t value => Sys2Proof.Machine.execJoin t value s
  | .leave t value => Sys2Proof.Machine.execLeave t value s
  | .resync t value same => Sys2Proof.Machine.execResync t value same s
  | .switch t value => Sys2Proof.Machine.execSwitch t value s
  | .authority t a readBack => Sys2Proof.Machine.execAuthority t a readBack s
  | .applyDelta t d => Sys2Proof.Machine.execApplyDelta t d s
  | .deltaApplyDone t result code kibS => Sys2Proof.Machine.execDeltaApplyDone t result code kibS s
  | .debugChallenge t jtag => Sys2Proof.Machine.execDebugChallenge t jtag s
  | .debugOpen t jtag r => Sys2Proof.Machine.execDebugOpen t jtag r s
  | .debugClose t jtag => Sys2Proof.Machine.execDebugClose t jtag s
  | .debugExpiry t => Sys2Proof.Machine.execDebugExpiry t s
  | .attest t nonce => Sys2Proof.Machine.execAttest t nonce s
  | .activate t value => Sys2Proof.Machine.execActivate t value s
  | .updCancel t value => Sys2Proof.Machine.execUpdCancel t value s
  | .confirm t value => Sys2Proof.Machine.execConfirm t value s
  | .activationCheck t => Sys2Proof.Machine.execActivationCheck t s
  | .bar2Access t sram offset len data => Sys2Proof.Machine.execBar2Access t sram offset len data s
  | .backoffEnd t => Sys2Proof.Machine.execBackoffEnd t s
  | .wakeHoldEnd t => Sys2Proof.Machine.execWakeHoldEnd t s
  | .pwrTolWrite t r value => Sys2Proof.Machine.execPwrTolWrite t r value s
  | .blockAnswer t busy => Sys2Proof.Machine.execBlockAnswer t busy s
  | .entryTimeout t => Sys2Proof.Machine.execEntryTimeout t s
  | .lullFrame t frame bothHigh => Sys2Proof.Machine.execLullFrame t frame bothHigh s
  | .wakeN t lowUs takes => Sys2Proof.Machine.execWakeN t lowUs takes s
  | .alarm t => Sys2Proof.Machine.execAlarm t s
  | .hostWake t => Sys2Proof.Machine.execHostWake t s
  | .wakeDone t => Sys2Proof.Machine.execWakeDone t s
  | .wakeTimeout t => Sys2Proof.Machine.execWakeTimeout t s
  | .wakeRetry t => Sys2Proof.Machine.execWakeRetry t s
  | .quadrantReady t q bad => Sys2Proof.Machine.execQuadrantReady t q bad s
  | .resetPin t lowNs takes => Sys2Proof.Machine.execResetPin t lowNs takes s
  | .deviceReset t value => Sys2Proof.Machine.execDeviceReset t value s
  | .watchdog t => Sys2Proof.Machine.execWatchdog t s
  | .powerGoodChange t good lost => Sys2Proof.Machine.execPowerGoodChange t good lost s
  | .resetRelease t b => Sys2Proof.Machine.execResetRelease t b s
  | .resumeInstant t => Sys2Proof.Machine.execResumeInstant t s
  | .warmCheckpoint t completed => Sys2Proof.Machine.execWarmCheckpoint t completed s
  | .partitionReset t p value => Sys2Proof.Machine.execPartitionReset t p value s
  | .prDone t p => Sys2Proof.Machine.execPrDone t p s
  | .mbxDb t m value => Sys2Proof.Machine.execMbxDb t m value s
  | .commandDatagram t q port src entry data => Sys2Proof.Machine.execCommandDatagram t q port src entry data s
  | .mwrite t obj offset data => Sys2Proof.Machine.execMwrite t obj offset data s
  | .view t p refresh => Sys2Proof.Machine.execView t p refresh s
  | .odoClear t p kind index => Sys2Proof.Machine.execOdoClear t p kind index s
  | .pvStateRead t r p refresh => Sys2Proof.Machine.execPvStateRead t r p refresh s
  | .mgmtDiverge t p => Sys2Proof.Machine.execMgmtDiverge t p s
  | .ptpEventMessage t q ingress served => Sys2Proof.Machine.execPtpEventMessage t q ingress served s
  | .pmbusPoll t x => Sys2Proof.Machine.execPmbusPoll t x s
  | .pmbAlert t x => Sys2Proof.Machine.execPmbAlert t x s
  | .lifeUpdate t hour tjAvg mvAvg => Sys2Proof.Machine.execLifeUpdate t hour tjAvg mvAvg s
  | .scrub t hits => Sys2Proof.Machine.execScrub t hits s
  | .refclkReturn t => Sys2Proof.Machine.execRefclkReturn t s
  | .warpCounterMismatch t => Sys2Proof.Machine.execWarpCounterMismatch t s
  | .comparatorRelease t ain rise => Sys2Proof.Machine.execComparatorRelease t ain rise s
  | .channelSample t n => Sys2Proof.Machine.execChannelSample t n s
  | .pwmEdge t pin => Sys2Proof.Machine.execPwmEdge t pin s
  | .syncOutFall t => Sys2Proof.Machine.execSyncOutFall t s
  | .stepPulseFall t n => Sys2Proof.Machine.execStepPulseFall t n s
  | .lullFrameGap t => Sys2Proof.Machine.execLullFrameGap t s
  | .haveSend t r => Sys2Proof.Machine.execHaveSend t r s
  | .statusSend t => Sys2Proof.Machine.execStatusSend t s
  | .timeSend t => Sys2Proof.Machine.execTimeSend t s
  | .commitDeadline t => Sys2Proof.Machine.execCommitDeadline t s
  | .syncInstant t chunks => Sys2Proof.Machine.execSyncInstant t chunks s
  | .catchUpDone t state => Sys2Proof.Machine.execCatchUpDone t state s
  | .islandReloadDone t ok => Sys2Proof.Machine.execIslandReloadDone t ok s
  | .serdesLaneReadyChange t r laneF ready => Sys2Proof.Machine.execSerdesLaneReadyChange t r laneF ready s

end Sys2Proof.Machine
end

