-- ==== Sys2Proof/Machine/Step.lean ====
section
/-! DEFINITION.  One step of the block: the command at the front of the queue takes place; with no
command waiting, the clock that the Warp counts has one edge (notes/assumptions/2.md). -/

namespace Sys2Proof.Machine

/-- One step: the front command, executed with the rest of the queue waiting; on an empty queue one
edge of the clock that the Warp counts (DESIGN CHOICE, notes/assumptions/2.md). -/
def step (s : State) : Host.Outcome State Fault Refusal :=
  match s.pending with
  | [] => .next s.warpEdge
  | c :: rest => exec c { s with pending := rest }

/-- The state with the command that a word spells in front of its queue; unchanged where the word
spells none. -/
def State.withFetchWord (s : State) (nbits w : Nat) : State :=
  match decodeTableWord nbits w with
  | some c => { s with pending := c :: s.pending }
  | none => s

end Sys2Proof.Machine
end

