-- ==== Sys2Proof/Machine/Touch.lean ====
section
/-! DEFINITION.  What an operation may change: register fields, and parts of the state beside the
registers; and the frame that an operation leaves. -/

namespace Sys2Proof.Machine

/-- The parts of the state beside the register file and the queue. -/
inductive Part where
  | latches | staged | warp | skein | cells | fio | aout | ain | conv | rot | treadles | gens | axes | groups | trig | loom | sched | cyc | island | tandem | sec | host | boot | answer | power | rings | sram | dram | dlm | freeCtr
  deriving DecidableEq, Repr

/-- A part is the same in two states. -/
def Part.same (p : Part) (s u : State) : Prop :=
  match p with
  | .latches => u.latches = s.latches
  | .staged => u.staged = s.staged
  | .warp => u.warp = s.warp
  | .skein => u.skein = s.skein
  | .cells => u.cells = s.cells
  | .fio => u.fio = s.fio
  | .aout => u.aout = s.aout
  | .ain => u.ain = s.ain
  | .conv => u.conv = s.conv
  | .rot => u.rot = s.rot
  | .treadles => u.treadles = s.treadles
  | .gens => u.gens = s.gens
  | .axes => u.axes = s.axes
  | .groups => u.groups = s.groups
  | .trig => u.trig = s.trig
  | .loom => u.loom = s.loom
  | .sched => u.sched = s.sched
  | .cyc => u.cyc = s.cyc
  | .island => u.island = s.island
  | .tandem => u.tandem = s.tandem
  | .sec => u.sec = s.sec
  | .host => u.host = s.host
  | .boot => u.boot = s.boot
  | .answer => u.answer = s.answer
  | .power => u.power = s.power
  | .rings => u.rings = s.rings
  | .sram => u.sram = s.sram
  | .dram => u.dram = s.dram
  | .dlm => u.dlm = s.dlm
  | .freeCtr => u.freeCtr = s.freeCtr

/-- What an operation may change: `anyReg` every register field, else the fields listed; and the
parts listed. -/
structure Touch where
  anyReg : Bool := false
  regs : List Fld := []
  parts : List Part := []
  deriving DecidableEq, Repr

/-- The field numbered `id` may change. -/
def Touch.has (t : Touch) (id : Nat) : Bool := t.anyReg || t.regs.any (fun f => f.id == id)

/-- A part may change. -/
def Touch.hasPart (t : Touch) (p : Part) : Bool := t.parts.contains p

/-- Every change that `t` allows, `u` allows. -/
def Touch.within (t u : Touch) : Bool :=
  (!t.anyReg || u.anyReg) && (u.anyReg || t.regs.all (fun f => u.has f.id)) && t.parts.all (fun p => u.hasPart p)

/-- Every change. -/
def Touch.all : Touch := { anyReg := true, parts := [.latches, .staged, .warp, .skein, .cells, .fio, .aout, .ain, .conv, .rot, .treadles, .gens, .axes, .groups, .trig, .loom, .sched, .cyc, .island, .tandem, .sec, .host, .boot, .answer, .power, .rings, .sram, .dram, .dlm, .freeCtr] }

/-- The frame: from `s` to `u` no register field, in no instance, and no part has changed but those
that `t` allows, and the queue is the same. -/
def Frame (t : Touch) (s u : State) : Prop :=
  (∀ id, t.has id = false → u.regs.get id .empty = s.regs.get id .empty) ∧ (∀ p, t.hasPart p = false → p.same s u) ∧ u.pending = s.pending

end Sys2Proof.Machine
end

