-- ==== Sys2Proof/Machine/Touches.lean ====
section
/-! DEFINITION.  What each command may change: the register fields, in whatever instance, and the
parts of the state that its effect, by the rules cited at its meaning, can reach. -/

namespace Sys2Proof.Machine

def Touches.registerWrite : Touch :=
  { anyReg := true,
    parts := [.latches, .staged, .warp, .skein, .cells, .fio, .aout, .ain, .conv, .rot, .treadles, .gens, .axes, .groups, .trig, .loom, .sched, .cyc, .island, .tandem, .sec, .host, .boot, .answer, .power, .rings, .sram, .dram, .dlm, .freeCtr] }

def Touches.loReadLatch : Touch :=
  { regs := [F.WARP_NOW, F.WARP_STATUS_RATE_CLAMPED, F.WARP_STATUS_SLEW_ACTIVE, F.SLEW_NS, F.TR_EVENT_SPAWN_DROP,
      F.TR_TAU, F.SK_STATUS_BURST_FREE_KIB, F.SK_EVENT, F.SKS_SEQ, F.SKS_STATUS_RESIDENT, F.SKS_OVERWRITE,
      F.LOOM_EVENT, F.LOOM_EVT_OVF, F.LOOM_OVF_ROUTE, F.SCHED_STATUS_FREE_SLOTS, F.SCHED_STATUS_INFLIGHT,
      F.SCHED_EVENT, F.SCHED_DISPATCH_CNT, F.SCHED_POISON_CNT, F.SCHED_EVT_UNBOUND_CNT, F.SCHED_TEMPLATE_MISS_CNT,
      F.PS_USED, F.PS_HELD, F.HQ_DEPTH, F.HQ_MAXDEPTH, F.HQ_PUSH_CNT, F.HQ_BUSY_CNT, F.SH_STATUS_STATE,
      F.SH_STATUS_SLOT, F.SH_LOAD, F.LVL_RDY_DEPTH, F.LVL_WAIT_AVG, F.LVL_HIST, F.FLOW_STATE_HELD,
      F.FLOW_STATE_IN_SERVICE, F.FLOW_STATE_HELD_CAUSE, F.FLOW_STATE_PENDING, F.SEC_EVENT, F.SEC_HOST_REFUSE_CNT,
      F.PWR_STATUS_WAKE_PEND, F.PWR_STATUS_PHASE, F.PWR_STATUS_STATE, F.PWR_WAKE_SRC, F.PWR_WAKE_MERGED, F.PWR_RES,
      F.PWR_ENTRIES, F.MSIX_PBA],
    parts := [.latches, .warp, .skein, .cells, .treadles, .axes, .sched, .host, .answer, .power, .sram, .dram, .dlm, .freeCtr] }

def Touches.hiWriteCommit : Touch :=
  { anyReg := true,
    parts := [.latches, .staged, .warp, .skein, .cells, .fio, .aout, .ain, .conv, .rot, .treadles, .gens, .axes, .groups, .trig, .loom, .sched, .cyc, .island, .tandem, .sec, .host, .boot, .answer, .power, .rings, .sram, .dram, .dlm, .freeCtr] }

def Touches.rcRead : Touch :=
  { anyReg := true, parts := [.warp, .answer] }

def Touches.slewNsWrite : Touch :=
  { regs := [F.WARP_STATUS_RATE_CLAMPED, F.WARP_STATUS_SLEW_ACTIVE, F.SLEW_NS, F.SYS_DISCARD_REASON, F.SYS_DISCARD_OFFSET,
      F.SYS_DISCARD_CNT],
    parts := [.warp] }

def Touches.slewEnd : Touch :=
  { regs := [F.WARP_STATUS_RATE_CLAMPED, F.WARP_STATUS_SLEW_ACTIVE, F.SLEW_NS], parts := [.warp] }

def Touches.rateAdjWrite : Touch :=
  { regs := [F.WARP_STATUS_RATE_CLAMPED, F.WARP_STATUS_SLEW_ACTIVE, F.RATE_ADJ, F.SLEW_NS, F.SYS_DISCARD_REASON,
      F.SYS_DISCARD_OFFSET, F.SYS_DISCARD_CNT],
    parts := [.warp] }

def Touches.stepGo : Touch :=
  { regs := [F.WARP_STATUS_RATE_CLAMPED, F.WARP_STATUS_SLEW_ACTIVE, F.WARP_STATUS_EPOCH, F.WARP_EVENT_SYNC_LATE,
      F.WARP_EVENT_STEP_REFUSED, F.WARP_EVENT_STEP_DONE, F.SLEW_NS, F.STEP_CTRL_RESULT, F.STEP_CTRL_EPOCH_TAI,
      F.SYNC_OUT_CFG_ARM, F.SK_STATUS_BURST_FREE_KIB, F.SK_EVENT, F.SKS_SEQ, F.SKS_STATUS_RESIDENT,
      F.SKS_OVERWRITE, F.SYS_DISCARD_REASON, F.SYS_DISCARD_OFFSET, F.SYS_DISCARD_CNT],
    parts := [.warp, .skein, .fio, .rings] }

def Touches.refWindowEnd : Touch :=
  { regs := [F.WARP_STATUS_RATE_CLAMPED, F.WARP_STATUS_SLEW_ACTIVE, F.WARP_STATUS_HOLDOVER, F.WARP_STATUS_LOCKED,
      F.WARP_STATUS_REF_OK, F.WARP_EVENT_REF_FREQ, F.SLEW_NS, F.WARP_REF_MON_FREQ_ERR, F.SK_STATUS_BURST_FREE_KIB,
      F.SK_EVENT, F.SKS_SEQ, F.SKS_STATUS_RESIDENT, F.SKS_OVERWRITE, F.SYS_FAULT, F.SYS_FAULT_LAST, F.SYS_FAULT_T,
      F.MSIX_PBA],
    parts := [.warp, .skein, .host] }

def Touches.warpWindowEnd : Touch :=
  { regs := [F.WARP_STATUS_RATE_CLAMPED, F.WARP_STATUS_SLEW_ACTIVE, F.SLEW_NS, F.WARP_REF_MON_WARP_ERR,
      F.LC_STATUS_SHADOW_VALID, F.TR_STATUS_STAGE_STATE, F.TR_STATUS_PAUSE_CAUSE, F.TR_STATUS_DEFERRED,
      F.TR_STATUS_STATE, F.TR_EVENT_SPAWN_DROP, F.TR_EVENT_ABORT_IGNORED, F.TR_EVENT_CANCELLED,
      F.TR_STEPS_STAGED_STEP, F.TR_NEXT, F.TR_DECIDE_END_IDX, F.TR_DECIDE_DECIDED, F.TR_CANCEL_CNT,
      F.PG_STATUS_HELD, F.PG_SHADOW_TARGET, F.PG_SHADOW_VMAX, F.PG_SHADOW_WIN_M2, F.PG_SHADOW_WIN_M1,
      F.SK_STATUS_BURST_FREE_KIB, F.SK_EVENT, F.SKS_SEQ, F.SKS_STATUS_RESIDENT, F.SKS_OVERWRITE, F.LOOM_EVENT,
      F.LOOM_EVT_OVF, F.LOOM_OVF_ROUTE, F.ODO_OUT, F.ODO_OUT_SAT, F.VR_VALUE, F.SCHED_STATUS_FREE_SLOTS,
      F.SCHED_STATUS_INFLIGHT, F.SCHED_EVENT, F.SCHED_DISPATCH_CNT, F.SCHED_CANCEL_CNT, F.SCHED_CANCEL_LATE_CNT,
      F.SCHED_POISON_CNT, F.SCHED_EVT_UNBOUND_CNT, F.SCHED_TEMPLATE_MISS_CNT, F.PS_USED, F.PS_HELD, F.HQ_DEPTH,
      F.HQ_MAXDEPTH, F.HQ_PUSH_CNT, F.HQ_BUSY_CNT, F.SH_STATUS_STATE, F.SH_STATUS_SLOT, F.SH_LOAD, F.LVL_RDY_DEPTH,
      F.LVL_WAIT_AVG, F.LVL_HIST, F.FLOW_STATE_HELD, F.FLOW_STATE_IN_SERVICE, F.FLOW_STATE_HELD_CAUSE,
      F.FLOW_STATE_PENDING, F.CP_STATUS_STOP_CAUSE, F.CP_STATUS_STATE, F.CP_EVENT, F.CP_STOP_T,
      F.PWR_STATUS_WAKE_PEND, F.PWR_STATUS_LOOM_ON, F.PWR_STATUS_PHASE, F.PWR_STATUS_TARGET, F.PWR_STATUS_STATE,
      F.PWR_WAKE_SRC, F.PWR_WAKE_MERGED, F.PWR_RES, F.PWR_ENTRIES, F.SYS_FAULT, F.SYS_FAULT_LAST, F.SYS_FAULT_T,
      F.SYS_DEVFAULT, F.MSIX_PBA],
    parts := [.warp, .skein, .cells, .fio, .treadles, .gens, .loom, .sched, .cyc, .tandem, .host, .power, .rings, .sram, .dram, .dlm, .freeCtr] }

def Touches.refLost : Touch :=
  { regs := [F.WARP_STATUS_RATE_CLAMPED, F.WARP_STATUS_SLEW_ACTIVE, F.WARP_STATUS_HOLDOVER, F.WARP_STATUS_LOCKED,
      F.WARP_STATUS_REF_OK, F.WARP_EVENT_REF_LOST, F.SLEW_NS, F.SK_STATUS_BURST_FREE_KIB, F.SK_EVENT, F.SKS_SEQ,
      F.SKS_STATUS_RESIDENT, F.SKS_OVERWRITE],
    parts := [.warp, .skein] }

def Touches.holdoverExit : Touch :=
  { regs := [F.WARP_STATUS_RATE_CLAMPED, F.WARP_STATUS_SLEW_ACTIVE, F.WARP_STATUS_HOLDOVER, F.WARP_STATUS_LOCKED,
      F.WARP_EVENT_HOLDOVER_EXIT, F.SLEW_NS, F.SK_STATUS_BURST_FREE_KIB, F.SK_EVENT, F.SKS_SEQ,
      F.SKS_STATUS_RESIDENT, F.SKS_OVERWRITE],
    parts := [.warp, .skein] }

def Touches.warpWrap : Touch :=
  { regs := [F.WARP_STATUS_RATE_CLAMPED, F.WARP_STATUS_SLEW_ACTIVE, F.SLEW_NS], parts := [.warp] }

def Touches.ppsOutRise : Touch :=
  { regs := [F.WARP_STATUS_RATE_CLAMPED, F.WARP_STATUS_SLEW_ACTIVE, F.SLEW_NS], parts := [.warp] }

def Touches.ppsOutFall : Touch :=
  { regs := [F.WARP_STATUS_RATE_CLAMPED, F.WARP_STATUS_SLEW_ACTIVE, F.SLEW_NS], parts := [.warp] }

def Touches.stampInputEdge : Touch :=
  { regs := [F.WARP_STATUS_RATE_CLAMPED, F.WARP_STATUS_SLEW_ACTIVE, F.SLEW_NS], parts := [.warp] }

def Touches.stampInputQualified : Touch :=
  { regs := [F.WARP_STATUS_RATE_CLAMPED, F.WARP_STATUS_SLEW_ACTIVE, F.SLEW_NS, F.PPS_IN, F.SYNC_IN],
    parts := [.warp, .groups] }

def Touches.syncOutArm : Touch :=
  { regs := [F.WARP_STATUS_RATE_CLAMPED, F.WARP_STATUS_SLEW_ACTIVE, F.WARP_EVENT_SYNC_LATE, F.SLEW_NS,
      F.SYNC_OUT_CFG_WIDTH_NS, F.SYNC_OUT_CFG_POL, F.SYNC_OUT_CFG_ARM, F.SK_STATUS_BURST_FREE_KIB, F.SK_EVENT,
      F.SKS_SEQ, F.SKS_STATUS_RESIDENT, F.SKS_OVERWRITE, F.SYS_DISCARD_REASON, F.SYS_DISCARD_OFFSET,
      F.SYS_DISCARD_CNT],
    parts := [.warp, .skein] }

def Touches.syncOutPulse : Touch :=
  { regs := [F.WARP_STATUS_RATE_CLAMPED, F.WARP_STATUS_SLEW_ACTIVE, F.SLEW_NS, F.SYNC_OUT_CFG_ARM],
    parts := [.warp] }

def Touches.slackWindowEnd : Touch :=
  { regs := [F.WARP_STATUS_RATE_CLAMPED, F.WARP_STATUS_SLEW_ACTIVE, F.WARP_EVENT_SLACK_ALARM, F.SLEW_NS, F.SLACK_MIN,
      F.SLACK_SRC_VALID, F.SLACK_SRC_KIND, F.SLACK_SRC_ID, F.AVS_STATUS_AT_MAX, F.AVS_STATUS_CMD_MV,
      F.SK_STATUS_BURST_FREE_KIB, F.SK_EVENT, F.SKS_SEQ, F.SKS_STATUS_RESIDENT, F.SKS_OVERWRITE],
    parts := [.warp, .skein] }

def Touches.avsTimeout : Touch :=
  { regs := [F.WARP_STATUS_RATE_CLAMPED, F.WARP_STATUS_SLEW_ACTIVE, F.WARP_EVENT_AVS_FAULT, F.SLEW_NS, F.AVS_CTRL_MODE,
      F.AVS_STATUS_FAULT, F.SK_STATUS_BURST_FREE_KIB, F.SK_EVENT, F.SKS_SEQ, F.SKS_STATUS_RESIDENT, F.SKS_OVERWRITE],
    parts := [.warp, .skein] }

def Touches.avsModeWrite : Touch :=
  { regs := [F.WARP_STATUS_RATE_CLAMPED, F.WARP_STATUS_SLEW_ACTIVE, F.SLEW_NS, F.AVS_CTRL_LATE_MV, F.AVS_CTRL_DOWN_MV,
      F.AVS_CTRL_UP_MV, F.AVS_CTRL_MODE, F.AVS_STATUS_FAULT, F.AVS_STATUS_AT_MAX, F.AVS_STATUS_CMD_MV,
      F.SYS_DISCARD_REASON, F.SYS_DISCARD_OFFSET, F.SYS_DISCARD_CNT],
    parts := [.warp] }

def Touches.lcEnable : Touch :=
  { regs := [F.WARP_STATUS_RATE_CLAMPED, F.WARP_STATUS_SLEW_ACTIVE, F.SLEW_NS, F.LC_CTRL_INIT_LEVEL, F.LC_CTRL_VIEW,
      F.LC_CTRL_MODE, F.LC_CTRL_ENABLE, F.LC_STATUS_CFG_ERR, F.LC_STATUS_EVT_ARMED, F.LC_STATUS_DWELL_WAIT,
      F.LC_STATUS_SAT_LO, F.LC_STATUS_SAT_HI, F.LC_STATUS_LEVEL, F.LC_EVENT_ENABLE_REFUSED, F.LC_C_STATE,
      F.LC_SUP_STATUS_OK_RUN, F.LC_SUP_STATUS_VIOL_RUN, F.LC_SUP_STATUS_SUP_STATE, F.ODO_OUT, F.ODO_OUT_SAT,
      F.TD_EVENT, F.PWR_STATUS_WAKE_PEND, F.PWR_STATUS_LOOM_ON, F.PWR_STATUS_PHASE, F.PWR_STATUS_TARGET,
      F.PWR_STATUS_STATE, F.PWR_WAKE_SRC, F.PWR_WAKE_MERGED, F.PWR_RES, F.PWR_ENTRIES, F.SYS_DISCARD_REASON,
      F.SYS_DISCARD_OFFSET, F.SYS_DISCARD_CNT, F.MBX_STATE_COMP, F.PV_SEQ, F.MSIX_PBA],
    parts := [.warp, .cells, .fio, .loom, .tandem, .host, .answer, .power, .dram, .freeCtr] }

def Touches.lcDisable : Touch :=
  { regs := [F.WARP_STATUS_RATE_CLAMPED, F.WARP_STATUS_SLEW_ACTIVE, F.SLEW_NS, F.LC_CTRL_INIT_LEVEL, F.LC_CTRL_VIEW,
      F.LC_CTRL_MODE, F.LC_CTRL_ENABLE, F.LC_STATUS_EVT_ARMED, F.LC_STATUS_RUNNING, F.TD_EVENT,
      F.PWR_STATUS_LOOM_ON, F.PWR_STATUS_PHASE, F.PWR_STATUS_TARGET, F.PWR_STATUS_STATE, F.PWR_RES, F.PWR_ENTRIES,
      F.SYS_DISCARD_REASON, F.SYS_DISCARD_OFFSET, F.SYS_DISCARD_CNT, F.MBX_STATE_COMP, F.PV_SEQ, F.MSIX_PBA],
    parts := [.warp, .cells, .tandem, .host, .answer, .power, .dram] }

def Touches.swap : Touch :=
  { regs := [F.WARP_STATUS_RATE_CLAMPED, F.WARP_STATUS_SLEW_ACTIVE, F.SLEW_NS, F.LC_STATUS_SHADOW_VALID,
      F.LC_STATUS_ACTIVE_BANK, F.LC_STATUS_SAT_LO, F.LC_STATUS_SAT_HI, F.LC_STATUS_LEVEL, F.LC_EVENT_ODO_SAT,
      F.LC_EVENT_LEVEL_CLAMPED, F.LC_EVENT_SWAP_REFUSED, F.LC_EVENT_SWAP_DONE, F.LC_C_STATE, F.LC_ODO, F.ODO_OUT,
      F.ODO_OUT_SAT, F.TD_EVENT, F.SYS_DISCARD_REASON, F.SYS_DISCARD_OFFSET, F.SYS_DISCARD_CNT, F.MBX_STATE_COMP,
      F.PV_SEQ, F.MSIX_PBA],
    parts := [.warp, .cells, .fio, .loom, .tandem, .host, .answer, .dram, .freeCtr] }

def Touches.copy : Touch :=
  { regs := [F.WARP_STATUS_RATE_CLAMPED, F.WARP_STATUS_SLEW_ACTIVE, F.SLEW_NS, F.LC_STATUS_SHADOW_VALID,
      F.LC_EVENT_SHADOW_DROP, F.TD_EVENT, F.SYS_DISCARD_REASON, F.SYS_DISCARD_OFFSET, F.SYS_DISCARD_CNT,
      F.MBX_STATE_COMP, F.PV_SEQ, F.MSIX_PBA],
    parts := [.warp, .cells, .tandem, .host, .answer, .dram, .freeCtr] }

def Touches.bankWindowWrite : Touch :=
  { regs := [F.WARP_STATUS_RATE_CLAMPED, F.WARP_STATUS_SLEW_ACTIVE, F.SLEW_NS, F.LC_STATUS_SHADOW_VALID,
      F.LC_EVENT_SHADOW_DROP, F.TD_EVENT, F.SYS_DISCARD_REASON, F.SYS_DISCARD_OFFSET, F.SYS_DISCARD_CNT,
      F.MBX_STATE_COMP, F.PV_SEQ, F.MSIX_PBA],
    parts := [.warp, .cells, .tandem, .host, .answer, .dram, .freeCtr] }

def Touches.cStateWrite : Touch :=
  { regs := [F.WARP_STATUS_RATE_CLAMPED, F.WARP_STATUS_SLEW_ACTIVE, F.SLEW_NS, F.LC_STATUS_SAT_LO, F.LC_STATUS_SAT_HI,
      F.LC_C_STATE, F.TD_EVENT, F.SYS_DISCARD_REASON, F.SYS_DISCARD_OFFSET, F.SYS_DISCARD_CNT, F.MBX_STATE_COMP,
      F.PV_SEQ, F.MSIX_PBA],
    parts := [.warp, .cells, .tandem, .host, .answer, .dram] }

def Touches.lcSnapshotRead : Touch :=
  { regs := [F.WARP_STATUS_RATE_CLAMPED, F.WARP_STATUS_SLEW_ACTIVE, F.SLEW_NS],
    parts := [.warp, .cells, .answer] }

def Touches.loopStrobe : Touch :=
  { regs := [F.WARP_STATUS_RATE_CLAMPED, F.WARP_STATUS_SLEW_ACTIVE, F.SLEW_NS, F.LC_STATUS_SHADOW_VALID,
      F.LC_STATUS_ACTIVE_BANK, F.LC_STATUS_SAT_LO, F.LC_STATUS_SAT_HI, F.LC_STATUS_LEVEL, F.LC_EVENT_ODO_SAT,
      F.LC_EVENT_LEVEL_CLAMPED, F.LC_EVENT_SWAP_REFUSED, F.LC_EVENT_SWAP_DONE, F.LC_C_STATE, F.LC_ODO,
      F.LC_SUP_EVENT_Y_STALE, F.LC_DIAG_CNT_STALE_CNT, F.ODO_OUT, F.ODO_OUT_SAT],
    parts := [.warp, .cells, .fio, .ain, .loom] }

def Touches.loopResultReady : Touch :=
  { regs := [F.WARP_STATUS_RATE_CLAMPED, F.WARP_STATUS_SLEW_ACTIVE, F.SLEW_NS, F.SLACK_LOW],
    parts := [.warp, .cells] }

def Touches.loopRelease : Touch :=
  { regs := [F.WARP_STATUS_RATE_CLAMPED, F.WARP_STATUS_SLEW_ACTIVE, F.WARP_EVENT_SLACK_ALARM, F.SLEW_NS, F.SLACK_LOW,
      F.AVS_STATUS_AT_MAX, F.AVS_STATUS_CMD_MV, F.LC_STATUS_EVT_ARMED, F.LC_STATUS_DWELL_WAIT,
      F.LC_STATUS_SHADOW_VALID, F.LC_STATUS_RUNNING, F.LC_STATUS_SAT_LO, F.LC_STATUS_SAT_HI, F.LC_STATUS_LEVEL,
      F.LC_EVENT_ODO_SAT, F.LC_EVENT_LEVEL_CLAMPED, F.LC_EVT_CODES_HI_CODE, F.LC_EVT_CODES_LO_CODE, F.LC_SP,
      F.LC_SP_DOT, F.LC_Y, F.LC_E, F.LC_C, F.LC_W, F.LC_U, F.LC_C_STATE, F.LC_SAT_CNT, F.LC_SAT_SRC, F.LC_ODO,
      F.LC_DWELL_BLOCK, F.LC_YM, F.LC_RESID, F.LC_SUP_STATUS_FAULT_CAUSE, F.LC_SUP_STATUS_OK_RUN,
      F.LC_SUP_STATUS_VIOL_RUN, F.LC_SUP_STATUS_LATE_RUN, F.LC_SUP_STATUS_SUP_STATE, F.LC_SUP_EVENT_LATE,
      F.LC_SUP_EVENT_LOOP_FAULT, F.LC_SUP_EVENT_SUB_ENDED, F.LC_SUP_EVENT_SUB_START, F.LC_SUP_EVENT_PLAUS_VIOL,
      F.LC_DIAG_CNT_LATE_CNT, F.TR_STATUS_STAGE_STATE, F.TR_STATUS_PAUSE_CAUSE, F.TR_STATUS_DEFERRED,
      F.TR_STATUS_STATE, F.TR_EVENT_SPAWN_DROP, F.TR_EVENT_ABORT_IGNORED, F.TR_EVENT_CANCELLED,
      F.TR_STEPS_STAGED_STEP, F.TR_NEXT, F.TR_DECIDE_END_IDX, F.TR_DECIDE_DECIDED, F.TR_CANCEL_CNT, F.TR_COND,
      F.PG_STATUS_HELD, F.PG_SHADOW_TARGET, F.PG_SHADOW_VMAX, F.PG_SHADOW_WIN_M2, F.PG_SHADOW_WIN_M1,
      F.SK_STATUS_BURST_FREE_KIB, F.SK_EVENT, F.SKS_SEQ, F.SKS_STATUS_RESIDENT, F.SKS_OVERWRITE, F.CS_STATUS_STATE,
      F.CS_EVENT, F.LOOM_EVENT, F.LOOM_EVT_OVF, F.LOOM_OVF_ROUTE, F.ODO_OUT, F.ODO_OUT_SAT, F.VR_VALUE,
      F.SCHED_STATUS_FREE_SLOTS, F.SCHED_STATUS_INFLIGHT, F.SCHED_EVENT, F.SCHED_DISPATCH_CNT, F.SCHED_CANCEL_CNT,
      F.SCHED_CANCEL_LATE_CNT, F.SCHED_POISON_CNT, F.SCHED_EVT_UNBOUND_CNT, F.SCHED_TEMPLATE_MISS_CNT, F.PS_USED,
      F.PS_HELD, F.HQ_DEPTH, F.HQ_MAXDEPTH, F.HQ_PUSH_CNT, F.HQ_BUSY_CNT, F.SH_STATUS_STATE, F.SH_STATUS_SLOT,
      F.SH_LOAD, F.LVL_RDY_DEPTH, F.LVL_WAIT_AVG, F.LVL_HIST, F.FLOW_STATE_HELD, F.FLOW_STATE_IN_SERVICE,
      F.FLOW_STATE_HELD_CAUSE, F.FLOW_STATE_PENDING, F.CP_STATUS_STOP_CAUSE, F.CP_STATUS_STATE, F.CP_EVENT,
      F.CP_STOP_T, F.PWR_STATUS_WAKE_PEND, F.PWR_STATUS_LOOM_ON, F.PWR_STATUS_PHASE, F.PWR_STATUS_TARGET,
      F.PWR_STATUS_STATE, F.PWR_WAKE_SRC, F.PWR_WAKE_MERGED, F.PWR_RES, F.PWR_ENTRIES, F.SYS_FAULT,
      F.SYS_FAULT_LAST, F.SYS_FAULT_T, F.MSIX_PBA],
    parts := [.warp, .skein, .cells, .fio, .aout, .treadles, .gens, .trig, .loom, .sched, .cyc, .island, .host, .power, .rings, .sram, .dram, .dlm, .freeCtr] }

def Touches.comparatorTrip : Touch :=
  { regs := [F.WARP_STATUS_RATE_CLAMPED, F.WARP_STATUS_SLEW_ACTIVE, F.SLEW_NS, F.LC_STATUS_DWELL_WAIT, F.LC_STATUS_LEVEL,
      F.LC_EVENT_ODO_SAT, F.LC_EVT_CODES_HI_CODE, F.LC_EVT_CODES_LO_CODE, F.LC_U, F.LC_SAT_CNT, F.LC_SAT_SRC,
      F.LC_ODO, F.TR_EVENT_SPAWN_DROP, F.SK_STATUS_BURST_FREE_KIB, F.SK_EVENT, F.SKS_SEQ, F.SKS_STATUS_RESIDENT,
      F.SKS_OVERWRITE, F.CS_STATUS_STATE, F.CS_EVENT, F.LOOM_EVENT, F.LOOM_EVT_OVF, F.LOOM_OVF_ROUTE, F.ODO_OUT,
      F.ODO_OUT_SAT, F.VR_VALUE, F.SCHED_STATUS_FREE_SLOTS, F.SCHED_STATUS_INFLIGHT, F.SCHED_EVENT,
      F.SCHED_DISPATCH_CNT, F.SCHED_EVT_UNBOUND_CNT, F.SCHED_TEMPLATE_MISS_CNT, F.PS_USED, F.HQ_DEPTH,
      F.HQ_MAXDEPTH, F.HQ_PUSH_CNT, F.HQ_BUSY_CNT, F.SH_STATUS_STATE, F.SH_STATUS_SLOT, F.SH_LOAD, F.LVL_RDY_DEPTH,
      F.LVL_WAIT_AVG, F.LVL_HIST, F.FLOW_STATE_IN_SERVICE, F.FLOW_STATE_PENDING, F.PWR_STATUS_WAKE_PEND,
      F.PWR_STATUS_PHASE, F.PWR_STATUS_STATE, F.PWR_WAKE_SRC, F.PWR_WAKE_MERGED, F.PWR_RES, F.PWR_ENTRIES,
      F.MSIX_PBA],
    parts := [.warp, .skein, .cells, .fio, .aout, .treadles, .trig, .loom, .sched, .host, .power, .rings, .sram, .dram, .dlm, .freeCtr] }

def Touches.eventHoldEnd : Touch :=
  { regs := [F.WARP_STATUS_RATE_CLAMPED, F.WARP_STATUS_SLEW_ACTIVE, F.SLEW_NS, F.LC_STATUS_DWELL_WAIT, F.LC_STATUS_LEVEL,
      F.LC_EVENT_ODO_SAT, F.LC_EVT_CODES_HI_CODE, F.LC_EVT_CODES_LO_CODE, F.LC_U, F.LC_SAT_CNT, F.LC_SAT_SRC,
      F.LC_ODO, F.TR_EVENT_SPAWN_DROP, F.SK_STATUS_BURST_FREE_KIB, F.SK_EVENT, F.SKS_SEQ, F.SKS_STATUS_RESIDENT,
      F.SKS_OVERWRITE, F.CS_STATUS_STATE, F.CS_EVENT, F.LOOM_EVENT, F.LOOM_EVT_OVF, F.LOOM_OVF_ROUTE, F.ODO_OUT,
      F.ODO_OUT_SAT, F.VR_VALUE, F.SCHED_STATUS_FREE_SLOTS, F.SCHED_STATUS_INFLIGHT, F.SCHED_EVENT,
      F.SCHED_DISPATCH_CNT, F.SCHED_EVT_UNBOUND_CNT, F.SCHED_TEMPLATE_MISS_CNT, F.PS_USED, F.HQ_DEPTH,
      F.HQ_MAXDEPTH, F.HQ_PUSH_CNT, F.HQ_BUSY_CNT, F.SH_STATUS_STATE, F.SH_STATUS_SLOT, F.SH_LOAD, F.LVL_RDY_DEPTH,
      F.LVL_WAIT_AVG, F.LVL_HIST, F.FLOW_STATE_IN_SERVICE, F.FLOW_STATE_PENDING, F.PWR_STATUS_WAKE_PEND,
      F.PWR_STATUS_PHASE, F.PWR_STATUS_STATE, F.PWR_WAKE_SRC, F.PWR_WAKE_MERGED, F.PWR_RES, F.PWR_ENTRIES,
      F.MSIX_PBA],
    parts := [.warp, .skein, .cells, .fio, .aout, .treadles, .trig, .loom, .sched, .host, .power, .rings, .sram, .dram, .dlm, .freeCtr] }

def Touches.conversionDone : Touch :=
  { anyReg := true,
    parts := [.warp, .skein, .cells, .ain, .conv, .rot, .treadles, .axes, .trig, .sched, .host, .power, .sram, .dram, .dlm, .freeCtr] }

def Touches.loopStall : Touch :=
  { regs := [F.WARP_STATUS_RATE_CLAMPED, F.WARP_STATUS_SLEW_ACTIVE, F.SLEW_NS, F.LC_STATUS_SHADOW_VALID,
      F.LC_SUP_STATUS_FAULT_CAUSE, F.LC_SUP_STATUS_SUP_STATE, F.LC_SUP_EVENT_LOOP_FAULT, F.TR_STATUS_STAGE_STATE,
      F.TR_STATUS_PAUSE_CAUSE, F.TR_STATUS_DEFERRED, F.TR_STATUS_STATE, F.TR_EVENT_SPAWN_DROP,
      F.TR_EVENT_ABORT_IGNORED, F.TR_EVENT_CANCELLED, F.TR_STEPS_STAGED_STEP, F.TR_NEXT, F.TR_DECIDE_END_IDX,
      F.TR_DECIDE_DECIDED, F.TR_CANCEL_CNT, F.TR_COND, F.PG_STATUS_HELD, F.PG_SHADOW_TARGET, F.PG_SHADOW_VMAX,
      F.PG_SHADOW_WIN_M2, F.PG_SHADOW_WIN_M1, F.SK_STATUS_BURST_FREE_KIB, F.SK_EVENT, F.SKS_SEQ,
      F.SKS_STATUS_RESIDENT, F.SKS_OVERWRITE, F.CS_STATUS_STATE, F.CS_EVENT, F.LOOM_EVENT, F.LOOM_EVT_OVF,
      F.LOOM_OVF_ROUTE, F.ODO_OUT, F.ODO_OUT_SAT, F.VR_VALUE, F.SCHED_STATUS_FREE_SLOTS, F.SCHED_STATUS_INFLIGHT,
      F.SCHED_EVENT, F.SCHED_DISPATCH_CNT, F.SCHED_CANCEL_CNT, F.SCHED_CANCEL_LATE_CNT, F.SCHED_POISON_CNT,
      F.SCHED_EVT_UNBOUND_CNT, F.SCHED_TEMPLATE_MISS_CNT, F.PS_USED, F.PS_HELD, F.HQ_DEPTH, F.HQ_MAXDEPTH,
      F.HQ_PUSH_CNT, F.HQ_BUSY_CNT, F.SH_STATUS_STATE, F.SH_STATUS_SLOT, F.SH_LOAD, F.LVL_RDY_DEPTH,
      F.LVL_WAIT_AVG, F.LVL_HIST, F.FLOW_STATE_HELD, F.FLOW_STATE_IN_SERVICE, F.FLOW_STATE_HELD_CAUSE,
      F.FLOW_STATE_PENDING, F.CP_STATUS_STOP_CAUSE, F.CP_STATUS_STATE, F.CP_EVENT, F.CP_STOP_T,
      F.PWR_STATUS_WAKE_PEND, F.PWR_STATUS_LOOM_ON, F.PWR_STATUS_PHASE, F.PWR_STATUS_TARGET, F.PWR_STATUS_STATE,
      F.PWR_WAKE_SRC, F.PWR_WAKE_MERGED, F.PWR_RES, F.PWR_ENTRIES, F.SYS_FAULT, F.SYS_FAULT_LAST, F.SYS_FAULT_T,
      F.MSIX_PBA],
    parts := [.warp, .skein, .cells, .fio, .treadles, .gens, .trig, .loom, .sched, .cyc, .island, .host, .power, .rings, .sram, .dram, .dlm, .freeCtr] }

def Touches.faultClear : Touch :=
  { regs := [F.WARP_STATUS_RATE_CLAMPED, F.WARP_STATUS_SLEW_ACTIVE, F.SLEW_NS, F.LC_STATUS_EVT_ARMED,
      F.LC_STATUS_DWELL_WAIT, F.LC_STATUS_SAT_LO, F.LC_STATUS_SAT_HI, F.LC_STATUS_LEVEL, F.LC_C_STATE,
      F.LC_SUP_STATUS_FAULT_CAUSE, F.LC_SUP_STATUS_OK_RUN, F.LC_SUP_STATUS_VIOL_RUN, F.LC_SUP_STATUS_LATE_RUN,
      F.LC_SUP_STATUS_SUP_STATE, F.LC_SUP_EVENT_CLEAR_REFUSED, F.ODO_OUT, F.ODO_OUT_SAT, F.TD_EVENT,
      F.SYS_DISCARD_REASON, F.SYS_DISCARD_OFFSET, F.SYS_DISCARD_CNT, F.MBX_STATE_COMP, F.PV_SEQ, F.MSIX_PBA],
    parts := [.warp, .cells, .fio, .loom, .tandem, .host, .answer, .dram] }

def Touches.plausClear : Touch :=
  { regs := [F.WARP_STATUS_RATE_CLAMPED, F.WARP_STATUS_SLEW_ACTIVE, F.SLEW_NS, F.LC_SUP_STATUS_SUP_STATE,
      F.LC_SUP_EVENT_CLEAR_REFUSED, F.LC_SUP_EVENT_SUB_ENDED, F.TD_EVENT, F.SYS_DISCARD_REASON,
      F.SYS_DISCARD_OFFSET, F.SYS_DISCARD_CNT, F.MBX_STATE_COMP, F.PV_SEQ, F.MSIX_PBA],
    parts := [.warp, .tandem, .host, .answer, .dram] }

def Touches.rotationSlot : Touch :=
  { regs := [F.WARP_STATUS_RATE_CLAMPED, F.WARP_STATUS_SLEW_ACTIVE, F.SLEW_NS], parts := [.warp, .rot] }

def Touches.rotationConversion : Touch :=
  { anyReg := true, parts := [.warp, .conv, .rot] }

def Touches.calibrationDone : Touch :=
  { regs := [F.WARP_STATUS_RATE_CLAMPED, F.WARP_STATUS_SLEW_ACTIVE, F.SLEW_NS, F.ANA_ROT_STATUS_SPARE_BAD,
      F.ANA_ROT_STATUS_SPARE, F.ANA_CAL_REQ_STATE, F.ANA_EVENT_CAL_FAIL],
    parts := [.warp, .conv, .rot] }

def Touches.calRequest : Touch :=
  { regs := [F.WARP_STATUS_RATE_CLAMPED, F.WARP_STATUS_SLEW_ACTIVE, F.SLEW_NS, F.ANA_CAL_REQ_POS, F.ANA_CAL_REQ_STATE,
      F.ANA_CAL_REQ_CONV, F.TD_EVENT, F.SYS_DISCARD_REASON, F.SYS_DISCARD_OFFSET, F.SYS_DISCARD_CNT,
      F.MBX_STATE_COMP, F.PV_SEQ, F.MSIX_PBA],
    parts := [.warp, .rot, .tandem, .host, .answer, .dram] }

def Touches.stGo : Touch :=
  { regs := [F.WARP_STATUS_RATE_CLAMPED, F.WARP_STATUS_SLEW_ACTIVE, F.SLEW_NS, F.LC_DIAG_ST_STATE, F.TD_EVENT,
      F.SYS_DISCARD_REASON, F.SYS_DISCARD_OFFSET, F.SYS_DISCARD_CNT, F.MBX_STATE_COMP, F.PV_SEQ, F.MSIX_PBA],
    parts := [.warp, .tandem, .host, .answer, .dram] }

def Touches.selfTestBegin : Touch :=
  { regs := [F.WARP_STATUS_RATE_CLAMPED, F.WARP_STATUS_SLEW_ACTIVE, F.SLEW_NS, F.LC_DIAG_ST_STATE],
    parts := [.warp] }

def Touches.selfTestDone : Touch :=
  { regs := [F.WARP_STATUS_RATE_CLAMPED, F.WARP_STATUS_SLEW_ACTIVE, F.SLEW_NS, F.LC_SUP_EVENT_ST_DONE, F.LC_DIAG_ST_FAIL,
      F.LC_DIAG_ST_STATE],
    parts := [.warp] }

def Touches.stCancel : Touch :=
  { regs := [F.WARP_STATUS_RATE_CLAMPED, F.WARP_STATUS_SLEW_ACTIVE, F.SLEW_NS, F.LC_DIAG_ST_STATE, F.TD_EVENT,
      F.SYS_DISCARD_REASON, F.SYS_DISCARD_OFFSET, F.SYS_DISCARD_CNT, F.MBX_STATE_COMP, F.PV_SEQ, F.MSIX_PBA],
    parts := [.warp, .tandem, .host, .answer, .dram] }

def Touches.loadTable : Touch :=
  { regs := [F.WARP_STATUS_RATE_CLAMPED, F.WARP_STATUS_SLEW_ACTIVE, F.SLEW_NS, F.TR_STATUS_TABLE_OK, F.TR_EVENT_LOAD_DONE,
      F.TR_TIMING_BRANCH_NS, F.TR_TIMING_TICK_NS, F.TR_LOAD_RESULT, F.TR_LOAD_MISS_REACT, F.TR_LOAD_STEP_COUNT,
      F.TR_TABLE_ID, F.TR_ENTRY_STOP_STEP, F.TR_ENTRY_ENTRY_STEP, F.TD_EVENT, F.HOST_EVENT, F.MBX_STATE_COMP,
      F.PV_SEQ, F.MSIX_PBA],
    parts := [.warp, .treadles, .tandem, .host, .answer, .sram, .dram] }

def Touches.trStart : Touch :=
  { regs := [F.WARP_STATUS_RATE_CLAMPED, F.WARP_STATUS_SLEW_ACTIVE, F.SLEW_NS, F.LC_STATUS_SHADOW_VALID,
      F.TR_CTRL_START_STEP, F.TR_STATUS_STAGE_STATE, F.TR_STATUS_STATE, F.TR_EVENT_STATE_MISMATCH,
      F.TR_EVENT_CMD_REFUSED, F.TR_STEPS_STAGED_STEP, F.TR_NEXT, F.TR_DECIDE_END_IDX, F.PG_SHADOW_TARGET,
      F.PG_SHADOW_VMAX, F.PG_SHADOW_WIN_M2, F.PG_SHADOW_WIN_M1, F.TD_EVENT, F.PWR_STATUS_LOOM_ON,
      F.PWR_STATUS_PHASE, F.PWR_STATUS_TARGET, F.PWR_STATUS_STATE, F.PWR_RES, F.PWR_ENTRIES, F.SYS_DISCARD_REASON,
      F.SYS_DISCARD_OFFSET, F.SYS_DISCARD_CNT, F.MBX_STATE_COMP, F.PV_SEQ, F.MSIX_PBA],
    parts := [.warp, .cells, .treadles, .gens, .tandem, .host, .answer, .power, .dram] }

def Touches.trPause : Touch :=
  { regs := [F.WARP_STATUS_RATE_CLAMPED, F.WARP_STATUS_SLEW_ACTIVE, F.SLEW_NS, F.TR_CTRL_START_STEP,
      F.TR_STATUS_PAUSE_CAUSE, F.TR_STATUS_STATE, F.TR_EVENT_STATE_MISMATCH, F.TR_EVENT_CMD_REFUSED,
      F.PG_STATUS_HELD, F.ODO_OUT, F.ODO_OUT_SAT, F.TD_EVENT, F.SYS_DISCARD_REASON, F.SYS_DISCARD_OFFSET,
      F.SYS_DISCARD_CNT, F.MBX_STATE_COMP, F.PV_SEQ, F.MSIX_PBA],
    parts := [.warp, .fio, .treadles, .loom, .tandem, .host, .answer, .dram] }

def Touches.trResume : Touch :=
  { regs := [F.WARP_STATUS_RATE_CLAMPED, F.WARP_STATUS_SLEW_ACTIVE, F.SLEW_NS, F.TR_CTRL_START_STEP,
      F.TR_STATUS_PAUSE_CAUSE, F.TR_STATUS_STATE, F.TR_EVENT_STATE_MISMATCH, F.TR_EVENT_CMD_REFUSED,
      F.PG_STATUS_HELD, F.ODO_OUT, F.ODO_OUT_SAT, F.TD_EVENT, F.SYS_DISCARD_REASON, F.SYS_DISCARD_OFFSET,
      F.SYS_DISCARD_CNT, F.MBX_STATE_COMP, F.PV_SEQ, F.MSIX_PBA],
    parts := [.warp, .fio, .treadles, .loom, .tandem, .host, .answer, .dram] }

def Touches.trAbort : Touch :=
  { regs := [F.WARP_STATUS_RATE_CLAMPED, F.WARP_STATUS_SLEW_ACTIVE, F.SLEW_NS, F.LC_STATUS_SHADOW_VALID,
      F.TR_CTRL_START_STEP, F.TR_STATUS_STAGE_STATE, F.TR_STATUS_PAUSE_CAUSE, F.TR_STATUS_DEFERRED,
      F.TR_STATUS_STATE, F.TR_EVENT_ABORT_IGNORED, F.TR_EVENT_STATE_MISMATCH, F.TR_EVENT_CMD_REFUSED,
      F.TR_EVENT_CANCELLED, F.TR_STEPS_STAGED_STEP, F.TR_NEXT, F.TR_DECIDE_END_IDX, F.TR_DECIDE_DECIDED,
      F.TR_CANCEL_CNT, F.PG_STATUS_HELD, F.PG_SHADOW_TARGET, F.PG_SHADOW_VMAX, F.PG_SHADOW_WIN_M2,
      F.PG_SHADOW_WIN_M1, F.SK_STATUS_BURST_FREE_KIB, F.SK_EVENT, F.SKS_SEQ, F.SKS_STATUS_RESIDENT,
      F.SKS_OVERWRITE, F.ODO_OUT, F.ODO_OUT_SAT, F.TD_EVENT, F.PWR_STATUS_LOOM_ON, F.PWR_STATUS_PHASE,
      F.PWR_STATUS_TARGET, F.PWR_STATUS_STATE, F.PWR_RES, F.PWR_ENTRIES, F.SYS_DISCARD_REASON,
      F.SYS_DISCARD_OFFSET, F.SYS_DISCARD_CNT, F.MBX_STATE_COMP, F.PV_SEQ, F.MSIX_PBA],
    parts := [.warp, .skein, .cells, .fio, .treadles, .gens, .loom, .tandem, .host, .answer, .power, .dram] }

def Touches.trClearFault : Touch :=
  { regs := [F.WARP_STATUS_RATE_CLAMPED, F.WARP_STATUS_SLEW_ACTIVE, F.SLEW_NS, F.TR_CTRL_START_STEP, F.TR_STATUS_FAULT,
      F.TR_EVENT_STATE_MISMATCH, F.TR_EVENT_CMD_REFUSED, F.TD_EVENT, F.SYS_DISCARD_REASON, F.SYS_DISCARD_OFFSET,
      F.SYS_DISCARD_CNT, F.MBX_STATE_COMP, F.PV_SEQ, F.MSIX_PBA],
    parts := [.warp, .tandem, .host, .answer, .dram] }

def Touches.treadleTick : Touch :=
  { regs := [F.WARP_STATUS_RATE_CLAMPED, F.WARP_STATUS_SLEW_ACTIVE, F.SLEW_NS, F.LC_STATUS_SHADOW_VALID,
      F.TR_STATUS_STAGE_STATE, F.TR_STATUS_PAUSE_CAUSE, F.TR_STATUS_DEFERRED, F.TR_STATUS_STATE,
      F.TR_EVENT_SPAWN_DROP, F.TR_EVENT_ABORT_IGNORED, F.TR_EVENT_CANCELLED, F.TR_STEPS_STAGED_STEP, F.TR_NEXT,
      F.TR_DECIDE_NEXT, F.TR_DECIDE_TRUE_MASK, F.TR_DECIDE_END_IDX, F.TR_DECIDE_ON_DEMAND, F.TR_DECIDE_DECIDED,
      F.TR_CANCEL_CNT, F.TR_COND, F.PG_STATUS_HELD, F.PG_SHADOW_TARGET, F.PG_SHADOW_VMAX, F.PG_SHADOW_WIN_M2,
      F.PG_SHADOW_WIN_M1, F.AX_STATUS_FAULT_CAUSE, F.AX_STATUS_STATE, F.AX_EVENT, F.AX_SEG_NOW_SEG,
      F.AX_SEG_NOW_LEFT, F.SK_STATUS_BURST_FREE_KIB, F.SK_EVENT, F.SKS_SEQ, F.SKS_STATUS_RESIDENT, F.SKS_OVERWRITE,
      F.CS_STATUS_STATE, F.CS_EVENT, F.LOOM_EVENT, F.LOOM_EVT_OVF, F.LOOM_OVF_ROUTE, F.ODO_OUT, F.ODO_OUT_SAT,
      F.VR_VALUE, F.SCHED_STATUS_FREE_SLOTS, F.SCHED_STATUS_INFLIGHT, F.SCHED_EVENT, F.SCHED_DISPATCH_CNT,
      F.SCHED_CANCEL_CNT, F.SCHED_CANCEL_LATE_CNT, F.SCHED_POISON_CNT, F.SCHED_EVT_UNBOUND_CNT,
      F.SCHED_TEMPLATE_MISS_CNT, F.PS_USED, F.PS_HELD, F.HQ_DEPTH, F.HQ_MAXDEPTH, F.HQ_PUSH_CNT, F.HQ_BUSY_CNT,
      F.SH_STATUS_STATE, F.SH_STATUS_SLOT, F.SH_LOAD, F.LVL_RDY_DEPTH, F.LVL_WAIT_AVG, F.LVL_HIST,
      F.FLOW_STATE_HELD, F.FLOW_STATE_IN_SERVICE, F.FLOW_STATE_HELD_CAUSE, F.FLOW_STATE_PENDING,
      F.CP_STATUS_STOP_CAUSE, F.CP_STATUS_STATE, F.CP_EVENT, F.CP_STOP_T, F.PWR_STATUS_WAKE_PEND,
      F.PWR_STATUS_LOOM_ON, F.PWR_STATUS_PHASE, F.PWR_STATUS_TARGET, F.PWR_STATUS_STATE, F.PWR_WAKE_SRC,
      F.PWR_WAKE_MERGED, F.PWR_RES, F.PWR_ENTRIES, F.SYS_FAULT, F.SYS_FAULT_LAST, F.SYS_FAULT_T, F.MSIX_PBA],
    parts := [.warp, .skein, .cells, .fio, .treadles, .gens, .axes, .trig, .loom, .sched, .cyc, .host, .power, .rings, .sram, .dram, .dlm, .freeCtr] }

def Touches.timeDecision : Touch :=
  { regs := [F.WARP_STATUS_RATE_CLAMPED, F.WARP_STATUS_SLEW_ACTIVE, F.SLEW_NS, F.LC_STATUS_SHADOW_VALID,
      F.TR_STATUS_STAGE_STATE, F.TR_STATUS_PAUSE_CAUSE, F.TR_STATUS_DEFERRED, F.TR_STATUS_STATE,
      F.TR_EVENT_SPAWN_DROP, F.TR_EVENT_ABORT_IGNORED, F.TR_EVENT_CANCELLED, F.TR_STEPS_STAGED_STEP, F.TR_NEXT,
      F.TR_DECIDE_NEXT, F.TR_DECIDE_TRUE_MASK, F.TR_DECIDE_END_IDX, F.TR_DECIDE_ON_DEMAND, F.TR_DECIDE_DECIDED,
      F.TR_CANCEL_CNT, F.TR_COND, F.PG_STATUS_HELD, F.PG_SHADOW_TARGET, F.PG_SHADOW_VMAX, F.PG_SHADOW_WIN_M2,
      F.PG_SHADOW_WIN_M1, F.AX_STATUS_FAULT_CAUSE, F.AX_STATUS_STATE, F.AX_EVENT, F.AX_SEG_NOW_SEG,
      F.AX_SEG_NOW_LEFT, F.SK_STATUS_BURST_FREE_KIB, F.SK_EVENT, F.SKS_SEQ, F.SKS_STATUS_RESIDENT, F.SKS_OVERWRITE,
      F.CS_STATUS_STATE, F.CS_EVENT, F.LOOM_EVENT, F.LOOM_EVT_OVF, F.LOOM_OVF_ROUTE, F.ODO_OUT, F.ODO_OUT_SAT,
      F.VR_VALUE, F.SCHED_STATUS_FREE_SLOTS, F.SCHED_STATUS_INFLIGHT, F.SCHED_EVENT, F.SCHED_DISPATCH_CNT,
      F.SCHED_CANCEL_CNT, F.SCHED_CANCEL_LATE_CNT, F.SCHED_POISON_CNT, F.SCHED_EVT_UNBOUND_CNT,
      F.SCHED_TEMPLATE_MISS_CNT, F.PS_USED, F.PS_HELD, F.HQ_DEPTH, F.HQ_MAXDEPTH, F.HQ_PUSH_CNT, F.HQ_BUSY_CNT,
      F.SH_STATUS_STATE, F.SH_STATUS_SLOT, F.SH_LOAD, F.LVL_RDY_DEPTH, F.LVL_WAIT_AVG, F.LVL_HIST,
      F.FLOW_STATE_HELD, F.FLOW_STATE_IN_SERVICE, F.FLOW_STATE_HELD_CAUSE, F.FLOW_STATE_PENDING,
      F.CP_STATUS_STOP_CAUSE, F.CP_STATUS_STATE, F.CP_EVENT, F.CP_STOP_T, F.PWR_STATUS_WAKE_PEND,
      F.PWR_STATUS_LOOM_ON, F.PWR_STATUS_PHASE, F.PWR_STATUS_TARGET, F.PWR_STATUS_STATE, F.PWR_WAKE_SRC,
      F.PWR_WAKE_MERGED, F.PWR_RES, F.PWR_ENTRIES, F.SYS_FAULT, F.SYS_FAULT_LAST, F.SYS_FAULT_T, F.MSIX_PBA],
    parts := [.warp, .skein, .cells, .fio, .treadles, .gens, .axes, .trig, .loom, .sched, .cyc, .host, .power, .rings, .sram, .dram, .dlm, .freeCtr] }

def Touches.stepBoundary : Touch :=
  { regs := [F.WARP_STATUS_RATE_CLAMPED, F.WARP_STATUS_SLEW_ACTIVE, F.SLEW_NS, F.LC_STATUS_SHADOW_VALID,
      F.LC_STATUS_ACTIVE_BANK, F.LC_STATUS_SAT_LO, F.LC_STATUS_SAT_HI, F.LC_STATUS_LEVEL, F.LC_EVENT_ODO_SAT,
      F.LC_EVENT_LEVEL_CLAMPED, F.LC_EVENT_SWAP_REFUSED, F.LC_EVENT_SWAP_DONE, F.LC_C_STATE, F.LC_ODO,
      F.TR_STATUS_STAGE_STATE, F.TR_STATUS_PAUSE_CAUSE, F.TR_STATUS_DEFERRED, F.TR_STATUS_STATE,
      F.TR_EVENT_SPAWN_DROP, F.TR_EVENT_VALVE_REPLACED, F.TR_EVENT_ABORT_IGNORED, F.TR_EVENT_CANCELLED,
      F.TR_EVENT_STAGE_INVALID, F.TR_EVENT_STAGE_MISS, F.TR_EVENT_STOP_DONE, F.TR_EVENT_END_REACHED,
      F.TR_STEPS_STAGED_STEP, F.TR_STEPS_CUR_STEP, F.TR_LABEL, F.TR_COMMIT, F.TR_NEXT, F.TR_DECIDE_END_IDX,
      F.TR_DECIDE_DECIDED, F.TR_TAU, F.TR_COMMITS, F.TR_MISS_CNT, F.TR_CANCEL_CNT, F.TR_COND,
      F.PG_STATUS_LIMITS_PENDING, F.PG_STATUS_HELD, F.PG_TARGET, F.PG_VMAX, F.PG_WIN_M2, F.PG_WIN_M1,
      F.PG_SHADOW_TARGET, F.PG_SHADOW_VMAX, F.PG_SHADOW_WIN_M2, F.PG_SHADOW_WIN_M1, F.AX_STATUS_FAULT_CAUSE,
      F.AX_STATUS_STATE, F.AX_EVENT, F.AX_SEG_NOW_SEG, F.AX_SEG_NOW_LEFT, F.AX_ODO_MOVES,
      F.SK_STATUS_BURST_FREE_KIB, F.SK_EVENT, F.SKS_SEQ, F.SKS_STATUS_RESIDENT, F.SKS_OVERWRITE,
      F.TS_STATUS_RUNNING, F.TS_STATUS_STATE, F.TS_EVENT, F.TS_COUNTER, F.TS_TIMER, F.CS_STATUS_ARM_RESULT,
      F.CS_STATUS_STATE, F.CS_EVENT, F.CS_PRE_BYTES, F.CS_NEED_BYTES, F.MU_STATUS_VIOL_RUN, F.MU_STATUS_ENV_NOW,
      F.MU_STATUS_STATE, F.MU_EVENT, F.MU_A, F.POOL_FREE, F.LOOM_EVENT, F.LOOM_EVT_OVF, F.LOOM_OVF_ROUTE,
      F.ODO_OUT, F.ODO_OUT_SAT, F.VR_VALUE, F.SCHED_STATUS_FREE_SLOTS, F.SCHED_STATUS_INFLIGHT, F.SCHED_EVENT,
      F.SCHED_DISPATCH_CNT, F.SCHED_CANCEL_CNT, F.SCHED_CANCEL_LATE_CNT, F.SCHED_POISON_CNT,
      F.SCHED_EVT_UNBOUND_CNT, F.SCHED_TEMPLATE_MISS_CNT, F.PS_USED, F.PS_HELD, F.HQ_DEPTH, F.HQ_MAXDEPTH,
      F.HQ_PUSH_CNT, F.HQ_BUSY_CNT, F.SH_STATUS_STATE, F.SH_STATUS_SLOT, F.SH_LOAD, F.LVL_RDY_DEPTH,
      F.LVL_WAIT_AVG, F.LVL_HIST, F.FLOW_STATE_HELD, F.FLOW_STATE_IN_SERVICE, F.FLOW_STATE_HELD_CAUSE,
      F.FLOW_STATE_PENDING, F.CP_STATUS_STOP_CAUSE, F.CP_STATUS_STATE, F.CP_EVENT, F.CP_STOP_T,
      F.PWR_STATUS_WAKE_PEND, F.PWR_STATUS_LOOM_ON, F.PWR_STATUS_PHASE, F.PWR_STATUS_TARGET, F.PWR_STATUS_STATE,
      F.PWR_WAKE_SRC, F.PWR_WAKE_MERGED, F.PWR_RES, F.PWR_ENTRIES, F.SYS_FAULT, F.SYS_FAULT_LAST, F.SYS_FAULT_T,
      F.MSIX_PBA],
    parts := [.warp, .skein, .cells, .fio, .treadles, .gens, .axes, .trig, .loom, .sched, .cyc, .host, .power, .rings, .sram, .dram, .dlm, .freeCtr] }

def Touches.stagingDone : Touch :=
  { regs := [F.WARP_STATUS_RATE_CLAMPED, F.WARP_STATUS_SLEW_ACTIVE, F.SLEW_NS, F.TR_STATUS_STAGE_STATE,
      F.TR_STEPS_STAGED_STEP, F.TR_NEXT, F.TR_STAGE_AVG, F.TR_STAGE_MAX, F.SK_STATUS_BURST_FREE_KIB, F.SK_EVENT,
      F.SKS_SEQ, F.SKS_STATUS_RESIDENT, F.SKS_OVERWRITE],
    parts := [.warp, .skein, .treadles] }

def Touches.stepCommit : Touch :=
  { regs := [F.WARP_STATUS_RATE_CLAMPED, F.WARP_STATUS_SLEW_ACTIVE, F.SLEW_NS, F.LC_STATUS_SHADOW_VALID,
      F.LC_STATUS_ACTIVE_BANK, F.LC_STATUS_SAT_LO, F.LC_STATUS_SAT_HI, F.LC_STATUS_LEVEL, F.LC_EVENT_ODO_SAT,
      F.LC_EVENT_LEVEL_CLAMPED, F.LC_EVENT_SWAP_REFUSED, F.LC_EVENT_SWAP_DONE, F.LC_C_STATE, F.LC_ODO,
      F.TR_STATUS_STAGE_STATE, F.TR_STATUS_PAUSE_CAUSE, F.TR_STATUS_DEFERRED, F.TR_STATUS_STATE,
      F.TR_EVENT_SPAWN_DROP, F.TR_EVENT_VALVE_REPLACED, F.TR_EVENT_ABORT_IGNORED, F.TR_EVENT_CANCELLED,
      F.TR_EVENT_STAGE_INVALID, F.TR_EVENT_STAGE_MISS, F.TR_STEPS_STAGED_STEP, F.TR_STEPS_CUR_STEP, F.TR_LABEL,
      F.TR_COMMIT, F.TR_NEXT, F.TR_DECIDE_END_IDX, F.TR_DECIDE_DECIDED, F.TR_COMMITS, F.TR_MISS_CNT,
      F.TR_CANCEL_CNT, F.TR_COND, F.PG_STATUS_LIMITS_PENDING, F.PG_STATUS_HELD, F.PG_TARGET, F.PG_VMAX,
      F.PG_WIN_M2, F.PG_WIN_M1, F.PG_SHADOW_TARGET, F.PG_SHADOW_VMAX, F.PG_SHADOW_WIN_M2, F.PG_SHADOW_WIN_M1,
      F.AX_STATUS_FAULT_CAUSE, F.AX_STATUS_STATE, F.AX_EVENT, F.AX_SEG_NOW_SEG, F.AX_SEG_NOW_LEFT, F.AX_ODO_MOVES,
      F.SK_STATUS_BURST_FREE_KIB, F.SK_EVENT, F.SKS_SEQ, F.SKS_STATUS_RESIDENT, F.SKS_OVERWRITE,
      F.TS_STATUS_RUNNING, F.TS_STATUS_STATE, F.TS_EVENT, F.TS_COUNTER, F.TS_TIMER, F.CS_STATUS_ARM_RESULT,
      F.CS_STATUS_STATE, F.CS_EVENT, F.CS_PRE_BYTES, F.CS_NEED_BYTES, F.MU_STATUS_VIOL_RUN, F.MU_STATUS_ENV_NOW,
      F.MU_STATUS_STATE, F.MU_EVENT, F.MU_A, F.POOL_FREE, F.LOOM_EVENT, F.LOOM_EVT_OVF, F.LOOM_OVF_ROUTE,
      F.ODO_OUT, F.ODO_OUT_SAT, F.VR_VALUE, F.SCHED_STATUS_FREE_SLOTS, F.SCHED_STATUS_INFLIGHT, F.SCHED_EVENT,
      F.SCHED_DISPATCH_CNT, F.SCHED_CANCEL_CNT, F.SCHED_CANCEL_LATE_CNT, F.SCHED_POISON_CNT,
      F.SCHED_EVT_UNBOUND_CNT, F.SCHED_TEMPLATE_MISS_CNT, F.PS_USED, F.PS_HELD, F.HQ_DEPTH, F.HQ_MAXDEPTH,
      F.HQ_PUSH_CNT, F.HQ_BUSY_CNT, F.SH_STATUS_STATE, F.SH_STATUS_SLOT, F.SH_LOAD, F.LVL_RDY_DEPTH,
      F.LVL_WAIT_AVG, F.LVL_HIST, F.FLOW_STATE_HELD, F.FLOW_STATE_IN_SERVICE, F.FLOW_STATE_HELD_CAUSE,
      F.FLOW_STATE_PENDING, F.CP_STATUS_STOP_CAUSE, F.CP_STATUS_STATE, F.CP_EVENT, F.CP_STOP_T,
      F.PWR_STATUS_WAKE_PEND, F.PWR_STATUS_LOOM_ON, F.PWR_STATUS_PHASE, F.PWR_STATUS_TARGET, F.PWR_STATUS_STATE,
      F.PWR_WAKE_SRC, F.PWR_WAKE_MERGED, F.PWR_RES, F.PWR_ENTRIES, F.SYS_FAULT, F.SYS_FAULT_LAST, F.SYS_FAULT_T,
      F.MSIX_PBA],
    parts := [.warp, .skein, .cells, .fio, .treadles, .gens, .axes, .trig, .loom, .sched, .cyc, .host, .power, .rings, .sram, .dram, .dlm, .freeCtr] }

def Touches.valveChange : Touch :=
  { regs := [F.WARP_STATUS_RATE_CLAMPED, F.WARP_STATUS_SLEW_ACTIVE, F.SLEW_NS, F.ODO_OUT, F.ODO_OUT_SAT],
    parts := [.warp, .fio, .treadles, .loom] }

def Touches.treadleFault : Touch :=
  { regs := [F.WARP_STATUS_RATE_CLAMPED, F.WARP_STATUS_SLEW_ACTIVE, F.SLEW_NS, F.LC_STATUS_SHADOW_VALID,
      F.TR_STATUS_STAGE_STATE, F.TR_STATUS_PAUSE_CAUSE, F.TR_STATUS_FAULT, F.TR_STATUS_DEFERRED, F.TR_STATUS_STATE,
      F.TR_EVENT_TR_FAULT, F.TR_EVENT_SPAWN_DROP, F.TR_EVENT_ABORT_IGNORED, F.TR_EVENT_CANCELLED,
      F.TR_STEPS_STAGED_STEP, F.TR_NEXT, F.TR_DECIDE_END_IDX, F.TR_DECIDE_DECIDED, F.TR_TAU, F.TR_CANCEL_CNT,
      F.PG_STATUS_HELD, F.PG_SHADOW_TARGET, F.PG_SHADOW_VMAX, F.PG_SHADOW_WIN_M2, F.PG_SHADOW_WIN_M1,
      F.SK_STATUS_BURST_FREE_KIB, F.SK_EVENT, F.SKS_SEQ, F.SKS_STATUS_RESIDENT, F.SKS_OVERWRITE, F.LOOM_EVENT,
      F.LOOM_EVT_OVF, F.LOOM_OVF_ROUTE, F.ODO_OUT, F.ODO_OUT_SAT, F.VR_VALUE, F.SCHED_STATUS_FREE_SLOTS,
      F.SCHED_STATUS_INFLIGHT, F.SCHED_EVENT, F.SCHED_DISPATCH_CNT, F.SCHED_CANCEL_CNT, F.SCHED_CANCEL_LATE_CNT,
      F.SCHED_POISON_CNT, F.SCHED_EVT_UNBOUND_CNT, F.SCHED_TEMPLATE_MISS_CNT, F.PS_USED, F.PS_HELD, F.HQ_DEPTH,
      F.HQ_MAXDEPTH, F.HQ_PUSH_CNT, F.HQ_BUSY_CNT, F.SH_STATUS_STATE, F.SH_STATUS_SLOT, F.SH_LOAD, F.LVL_RDY_DEPTH,
      F.LVL_WAIT_AVG, F.LVL_HIST, F.FLOW_STATE_HELD, F.FLOW_STATE_IN_SERVICE, F.FLOW_STATE_HELD_CAUSE,
      F.FLOW_STATE_PENDING, F.CP_STATUS_STOP_CAUSE, F.CP_STATUS_STATE, F.CP_EVENT, F.CP_STOP_T,
      F.PWR_STATUS_WAKE_PEND, F.PWR_STATUS_LOOM_ON, F.PWR_STATUS_PHASE, F.PWR_STATUS_TARGET, F.PWR_STATUS_STATE,
      F.PWR_WAKE_SRC, F.PWR_WAKE_MERGED, F.PWR_RES, F.PWR_ENTRIES, F.SYS_FAULT, F.SYS_FAULT_LAST, F.SYS_FAULT_T,
      F.MSIX_PBA],
    parts := [.warp, .skein, .cells, .fio, .treadles, .gens, .loom, .sched, .cyc, .host, .power, .rings, .sram, .dram, .dlm, .freeCtr] }

def Touches.pgEnable : Touch :=
  { regs := [F.WARP_STATUS_RATE_CLAMPED, F.WARP_STATUS_SLEW_ACTIVE, F.SLEW_NS, F.PG_CTRL, F.PG_STATUS_RUNNING,
      F.PG_STATUS_DWELL, F.PG_STATUS_DONE, F.PG_EVENT_ENABLE_REFUSED, F.PG_TARGET, F.PG_SHADOW_TARGET,
      F.PG_SHADOW_VMAX, F.PG_SHADOW_WIN_M2, F.PG_SHADOW_WIN_M1, F.PG_SP, F.PG_SP_DOT, F.PG_Q, F.VR_VALUE,
      F.TD_EVENT, F.PWR_STATUS_LOOM_ON, F.PWR_STATUS_PHASE, F.PWR_STATUS_TARGET, F.PWR_STATUS_STATE, F.PWR_RES,
      F.PWR_ENTRIES, F.SYS_DISCARD_REASON, F.SYS_DISCARD_OFFSET, F.SYS_DISCARD_CNT, F.MBX_STATE_COMP, F.PV_SEQ,
      F.MSIX_PBA],
    parts := [.warp, .gens, .tandem, .host, .answer, .power, .dram] }

def Touches.pgUpdate : Touch :=
  { regs := [F.WARP_STATUS_RATE_CLAMPED, F.WARP_STATUS_SLEW_ACTIVE, F.SLEW_NS, F.TR_COND, F.PG_STATUS_DWELL,
      F.PG_STATUS_LIMITS_PENDING, F.PG_STATUS_DONE, F.PG_EVENT_DONE_EVT, F.PG_VMAX, F.PG_WIN_M2, F.PG_WIN_M1,
      F.PG_SP, F.PG_SP_DOT, F.PG_Q, F.VR_VALUE],
    parts := [.warp, .gens] }

def Touches.pgHostWrite : Touch :=
  { regs := [F.WARP_STATUS_RATE_CLAMPED, F.WARP_STATUS_SLEW_ACTIVE, F.SLEW_NS, F.PG_STATUS_LIMITS_PENDING,
      F.PG_EVENT_TARGET_DROP, F.PG_TARGET, F.PG_VMAX, F.PG_WIN_M2, F.PG_WIN_M1, F.TD_EVENT, F.SYS_DISCARD_REASON,
      F.SYS_DISCARD_OFFSET, F.SYS_DISCARD_CNT, F.MBX_STATE_COMP, F.PV_SEQ, F.MSIX_PBA],
    parts := [.warp, .gens, .tandem, .host, .answer, .dram, .freeCtr] }

def Touches.axEnable : Touch :=
  { regs := [F.WARP_STATUS_RATE_CLAMPED, F.WARP_STATUS_SLEW_ACTIVE, F.SLEW_NS, F.AX_CTRL_VLIM_EN, F.AX_CTRL_FAULT_REACT,
      F.AX_CTRL_ENABLE, F.AX_STATUS_CFG_ERR, F.AX_STATUS_STATE, F.AX_VEL, F.ODO_OUT, F.ODO_OUT_SAT, F.TD_EVENT,
      F.PWR_STATUS_LOOM_ON, F.PWR_STATUS_PHASE, F.PWR_STATUS_TARGET, F.PWR_STATUS_STATE, F.PWR_RES, F.PWR_ENTRIES,
      F.SYS_DISCARD_REASON, F.SYS_DISCARD_OFFSET, F.SYS_DISCARD_CNT, F.MBX_STATE_COMP, F.PV_SEQ, F.MSIX_PBA],
    parts := [.warp, .fio, .axes, .loom, .tandem, .host, .answer, .power, .dram] }

def Touches.axDisable : Touch :=
  { regs := [F.WARP_STATUS_RATE_CLAMPED, F.WARP_STATUS_SLEW_ACTIVE, F.SLEW_NS, F.AX_CTRL_VLIM_EN, F.AX_CTRL_FAULT_REACT,
      F.AX_CTRL_ENABLE, F.AX_STATUS_STATE, F.AX_EVENT, F.AX_SEG_NOW_LEFT, F.SK_STATUS_BURST_FREE_KIB, F.SK_EVENT,
      F.SKS_SEQ, F.SKS_STATUS_RESIDENT, F.SKS_OVERWRITE, F.TD_EVENT, F.PWR_STATUS_LOOM_ON, F.PWR_STATUS_PHASE,
      F.PWR_STATUS_TARGET, F.PWR_STATUS_STATE, F.PWR_RES, F.PWR_ENTRIES, F.SYS_DISCARD_REASON,
      F.SYS_DISCARD_OFFSET, F.SYS_DISCARD_CNT, F.MBX_STATE_COMP, F.PV_SEQ, F.MSIX_PBA],
    parts := [.warp, .skein, .axes, .tandem, .host, .answer, .power, .dram] }

def Touches.axGo : Touch :=
  { regs := [F.WARP_STATUS_RATE_CLAMPED, F.WARP_STATUS_SLEW_ACTIVE, F.SLEW_NS, F.LC_STATUS_SHADOW_VALID,
      F.TR_STATUS_STAGE_STATE, F.TR_STATUS_PAUSE_CAUSE, F.TR_STATUS_DEFERRED, F.TR_STATUS_STATE,
      F.TR_EVENT_SPAWN_DROP, F.TR_EVENT_ABORT_IGNORED, F.TR_EVENT_CANCELLED, F.TR_STEPS_STAGED_STEP, F.TR_NEXT,
      F.TR_DECIDE_END_IDX, F.TR_DECIDE_DECIDED, F.TR_CANCEL_CNT, F.TR_COND, F.PG_STATUS_HELD, F.PG_SHADOW_TARGET,
      F.PG_SHADOW_VMAX, F.PG_SHADOW_WIN_M2, F.PG_SHADOW_WIN_M1, F.AX_STATUS_FAULT_CAUSE, F.AX_STATUS_STATE,
      F.AX_EVENT, F.AX_SEG_NOW_SEG, F.AX_SEG_NOW_LEFT, F.SK_STATUS_BURST_FREE_KIB, F.SK_EVENT, F.SKS_SEQ,
      F.SKS_STATUS_RESIDENT, F.SKS_OVERWRITE, F.CS_STATUS_STATE, F.CS_EVENT, F.LOOM_EVENT, F.LOOM_EVT_OVF,
      F.LOOM_OVF_ROUTE, F.ODO_OUT, F.ODO_OUT_SAT, F.VR_VALUE, F.SCHED_STATUS_FREE_SLOTS, F.SCHED_STATUS_INFLIGHT,
      F.SCHED_EVENT, F.SCHED_DISPATCH_CNT, F.SCHED_CANCEL_CNT, F.SCHED_CANCEL_LATE_CNT, F.SCHED_POISON_CNT,
      F.SCHED_EVT_UNBOUND_CNT, F.SCHED_TEMPLATE_MISS_CNT, F.PS_USED, F.PS_HELD, F.HQ_DEPTH, F.HQ_MAXDEPTH,
      F.HQ_PUSH_CNT, F.HQ_BUSY_CNT, F.SH_STATUS_STATE, F.SH_STATUS_SLOT, F.SH_LOAD, F.LVL_RDY_DEPTH,
      F.LVL_WAIT_AVG, F.LVL_HIST, F.FLOW_STATE_HELD, F.FLOW_STATE_IN_SERVICE, F.FLOW_STATE_HELD_CAUSE,
      F.FLOW_STATE_PENDING, F.CP_STATUS_STOP_CAUSE, F.CP_STATUS_STATE, F.CP_EVENT, F.CP_STOP_T, F.TD_EVENT,
      F.PWR_STATUS_WAKE_PEND, F.PWR_STATUS_LOOM_ON, F.PWR_STATUS_PHASE, F.PWR_STATUS_TARGET, F.PWR_STATUS_STATE,
      F.PWR_WAKE_SRC, F.PWR_WAKE_MERGED, F.PWR_RES, F.PWR_ENTRIES, F.SYS_FAULT, F.SYS_FAULT_LAST, F.SYS_FAULT_T,
      F.SYS_DISCARD_REASON, F.SYS_DISCARD_OFFSET, F.SYS_DISCARD_CNT, F.MBX_STATE_COMP, F.PV_SEQ, F.MSIX_PBA],
    parts := [.warp, .skein, .cells, .fio, .treadles, .gens, .axes, .trig, .loom, .sched, .cyc, .tandem, .host, .answer, .power, .rings, .sram, .dram, .dlm, .freeCtr] }

def Touches.axHalt : Touch :=
  { regs := [F.WARP_STATUS_RATE_CLAMPED, F.WARP_STATUS_SLEW_ACTIVE, F.SLEW_NS, F.LC_STATUS_SHADOW_VALID,
      F.TR_STATUS_STAGE_STATE, F.TR_STATUS_PAUSE_CAUSE, F.TR_STATUS_DEFERRED, F.TR_STATUS_STATE,
      F.TR_EVENT_SPAWN_DROP, F.TR_EVENT_ABORT_IGNORED, F.TR_EVENT_CANCELLED, F.TR_STEPS_STAGED_STEP, F.TR_NEXT,
      F.TR_DECIDE_END_IDX, F.TR_DECIDE_DECIDED, F.TR_CANCEL_CNT, F.TR_COND, F.PG_STATUS_HELD, F.PG_SHADOW_TARGET,
      F.PG_SHADOW_VMAX, F.PG_SHADOW_WIN_M2, F.PG_SHADOW_WIN_M1, F.AX_STATUS_FAULT_CAUSE, F.AX_STATUS_STATE,
      F.AX_EVENT, F.AX_SEG_NOW_SEG, F.AX_SEG_NOW_LEFT, F.SK_STATUS_BURST_FREE_KIB, F.SK_EVENT, F.SKS_SEQ,
      F.SKS_STATUS_RESIDENT, F.SKS_OVERWRITE, F.CS_STATUS_STATE, F.CS_EVENT, F.LOOM_EVENT, F.LOOM_EVT_OVF,
      F.LOOM_OVF_ROUTE, F.ODO_OUT, F.ODO_OUT_SAT, F.VR_VALUE, F.SCHED_STATUS_FREE_SLOTS, F.SCHED_STATUS_INFLIGHT,
      F.SCHED_EVENT, F.SCHED_DISPATCH_CNT, F.SCHED_CANCEL_CNT, F.SCHED_CANCEL_LATE_CNT, F.SCHED_POISON_CNT,
      F.SCHED_EVT_UNBOUND_CNT, F.SCHED_TEMPLATE_MISS_CNT, F.PS_USED, F.PS_HELD, F.HQ_DEPTH, F.HQ_MAXDEPTH,
      F.HQ_PUSH_CNT, F.HQ_BUSY_CNT, F.SH_STATUS_STATE, F.SH_STATUS_SLOT, F.SH_LOAD, F.LVL_RDY_DEPTH,
      F.LVL_WAIT_AVG, F.LVL_HIST, F.FLOW_STATE_HELD, F.FLOW_STATE_IN_SERVICE, F.FLOW_STATE_HELD_CAUSE,
      F.FLOW_STATE_PENDING, F.CP_STATUS_STOP_CAUSE, F.CP_STATUS_STATE, F.CP_EVENT, F.CP_STOP_T, F.TD_EVENT,
      F.PWR_STATUS_WAKE_PEND, F.PWR_STATUS_LOOM_ON, F.PWR_STATUS_PHASE, F.PWR_STATUS_TARGET, F.PWR_STATUS_STATE,
      F.PWR_WAKE_SRC, F.PWR_WAKE_MERGED, F.PWR_RES, F.PWR_ENTRIES, F.SYS_FAULT, F.SYS_FAULT_LAST, F.SYS_FAULT_T,
      F.SYS_DISCARD_REASON, F.SYS_DISCARD_OFFSET, F.SYS_DISCARD_CNT, F.MBX_STATE_COMP, F.PV_SEQ, F.MSIX_PBA],
    parts := [.warp, .skein, .cells, .fio, .treadles, .gens, .axes, .trig, .loom, .sched, .cyc, .tandem, .host, .answer, .power, .rings, .sram, .dram, .dlm, .freeCtr] }

def Touches.axHome : Touch :=
  { regs := [F.WARP_STATUS_RATE_CLAMPED, F.WARP_STATUS_SLEW_ACTIVE, F.SLEW_NS, F.LC_STATUS_SHADOW_VALID,
      F.TR_STATUS_STAGE_STATE, F.TR_STATUS_PAUSE_CAUSE, F.TR_STATUS_DEFERRED, F.TR_STATUS_STATE,
      F.TR_EVENT_SPAWN_DROP, F.TR_EVENT_ABORT_IGNORED, F.TR_EVENT_CANCELLED, F.TR_STEPS_STAGED_STEP, F.TR_NEXT,
      F.TR_DECIDE_END_IDX, F.TR_DECIDE_DECIDED, F.TR_CANCEL_CNT, F.TR_COND, F.PG_STATUS_HELD, F.PG_SHADOW_TARGET,
      F.PG_SHADOW_VMAX, F.PG_SHADOW_WIN_M2, F.PG_SHADOW_WIN_M1, F.AX_STATUS_FAULT_CAUSE, F.AX_STATUS_HOME_RESULT,
      F.AX_STATUS_HOMED, F.AX_STATUS_STATE, F.AX_EVENT, F.AX_POS, F.AX_FBPOS, F.AX_STEP_POS, F.AX_SEG_NOW_SEG,
      F.AX_SEG_NOW_LEFT, F.AX_HOME_LATCH, F.AX_ODO_MOVES, F.SK_STATUS_BURST_FREE_KIB, F.SK_EVENT, F.SKS_SEQ,
      F.SKS_STATUS_RESIDENT, F.SKS_OVERWRITE, F.CS_STATUS_STATE, F.CS_EVENT, F.LOOM_EVENT, F.LOOM_EVT_OVF,
      F.LOOM_OVF_ROUTE, F.ODO_OUT, F.ODO_OUT_SAT, F.VR_VALUE, F.SCHED_STATUS_FREE_SLOTS, F.SCHED_STATUS_INFLIGHT,
      F.SCHED_EVENT, F.SCHED_DISPATCH_CNT, F.SCHED_CANCEL_CNT, F.SCHED_CANCEL_LATE_CNT, F.SCHED_POISON_CNT,
      F.SCHED_EVT_UNBOUND_CNT, F.SCHED_TEMPLATE_MISS_CNT, F.PS_USED, F.PS_HELD, F.HQ_DEPTH, F.HQ_MAXDEPTH,
      F.HQ_PUSH_CNT, F.HQ_BUSY_CNT, F.SH_STATUS_STATE, F.SH_STATUS_SLOT, F.SH_LOAD, F.LVL_RDY_DEPTH,
      F.LVL_WAIT_AVG, F.LVL_HIST, F.FLOW_STATE_HELD, F.FLOW_STATE_IN_SERVICE, F.FLOW_STATE_HELD_CAUSE,
      F.FLOW_STATE_PENDING, F.CP_STATUS_STOP_CAUSE, F.CP_STATUS_STATE, F.CP_EVENT, F.CP_STOP_T, F.TD_EVENT,
      F.PWR_STATUS_WAKE_PEND, F.PWR_STATUS_LOOM_ON, F.PWR_STATUS_PHASE, F.PWR_STATUS_TARGET, F.PWR_STATUS_STATE,
      F.PWR_WAKE_SRC, F.PWR_WAKE_MERGED, F.PWR_RES, F.PWR_ENTRIES, F.SYS_FAULT, F.SYS_FAULT_LAST, F.SYS_FAULT_T,
      F.SYS_DISCARD_REASON, F.SYS_DISCARD_OFFSET, F.SYS_DISCARD_CNT, F.MBX_STATE_COMP, F.PV_SEQ, F.MSIX_PBA],
    parts := [.warp, .skein, .cells, .fio, .treadles, .gens, .axes, .trig, .loom, .sched, .cyc, .tandem, .host, .answer, .power, .rings, .sram, .dram, .dlm, .freeCtr] }

def Touches.axClear : Touch :=
  { regs := [F.WARP_STATUS_RATE_CLAMPED, F.WARP_STATUS_SLEW_ACTIVE, F.SLEW_NS, F.AX_STATUS_FAULT_CAUSE, F.AX_STATUS_STATE,
      F.AX_EVENT, F.AX_VEL, F.TD_EVENT, F.SYS_DISCARD_REASON, F.SYS_DISCARD_OFFSET, F.SYS_DISCARD_CNT,
      F.MBX_STATE_COMP, F.PV_SEQ, F.MSIX_PBA],
    parts := [.warp, .axes, .tandem, .host, .answer, .dram] }

def Touches.loadSegments : Touch :=
  { regs := [F.WARP_STATUS_RATE_CLAMPED, F.WARP_STATUS_SLEW_ACTIVE, F.SLEW_NS, F.LC_STATUS_SHADOW_VALID,
      F.TR_STATUS_STAGE_STATE, F.TR_STATUS_PAUSE_CAUSE, F.TR_STATUS_DEFERRED, F.TR_STATUS_STATE,
      F.TR_EVENT_SPAWN_DROP, F.TR_EVENT_ABORT_IGNORED, F.TR_EVENT_CANCELLED, F.TR_STEPS_STAGED_STEP, F.TR_NEXT,
      F.TR_DECIDE_END_IDX, F.TR_DECIDE_DECIDED, F.TR_CANCEL_CNT, F.TR_COND, F.PG_STATUS_HELD, F.PG_SHADOW_TARGET,
      F.PG_SHADOW_VMAX, F.PG_SHADOW_WIN_M2, F.PG_SHADOW_WIN_M1, F.AX_STATUS_FAULT_CAUSE, F.AX_STATUS_STATE,
      F.AX_EVENT, F.AX_SEG_NOW_SEG, F.AX_SEG_NOW_LEFT, F.AX_SEG_LOAD, F.SK_STATUS_BURST_FREE_KIB, F.SK_EVENT,
      F.SKS_SEQ, F.SKS_STATUS_RESIDENT, F.SKS_OVERWRITE, F.CS_STATUS_STATE, F.CS_EVENT, F.LOOM_EVENT,
      F.LOOM_EVT_OVF, F.LOOM_OVF_ROUTE, F.ODO_OUT, F.ODO_OUT_SAT, F.VR_VALUE, F.SCHED_STATUS_FREE_SLOTS,
      F.SCHED_STATUS_INFLIGHT, F.SCHED_EVENT, F.SCHED_DISPATCH_CNT, F.SCHED_CANCEL_CNT, F.SCHED_CANCEL_LATE_CNT,
      F.SCHED_POISON_CNT, F.SCHED_EVT_UNBOUND_CNT, F.SCHED_TEMPLATE_MISS_CNT, F.PS_USED, F.PS_HELD, F.HQ_DEPTH,
      F.HQ_MAXDEPTH, F.HQ_PUSH_CNT, F.HQ_BUSY_CNT, F.SH_STATUS_STATE, F.SH_STATUS_SLOT, F.SH_LOAD, F.LVL_RDY_DEPTH,
      F.LVL_WAIT_AVG, F.LVL_HIST, F.FLOW_STATE_HELD, F.FLOW_STATE_IN_SERVICE, F.FLOW_STATE_HELD_CAUSE,
      F.FLOW_STATE_PENDING, F.CP_STATUS_STOP_CAUSE, F.CP_STATUS_STATE, F.CP_EVENT, F.CP_STOP_T, F.TD_EVENT,
      F.PWR_STATUS_WAKE_PEND, F.PWR_STATUS_LOOM_ON, F.PWR_STATUS_PHASE, F.PWR_STATUS_TARGET, F.PWR_STATUS_STATE,
      F.PWR_WAKE_SRC, F.PWR_WAKE_MERGED, F.PWR_RES, F.PWR_ENTRIES, F.SYS_FAULT, F.SYS_FAULT_LAST, F.SYS_FAULT_T,
      F.HOST_EVENT, F.MBX_STATE_COMP, F.PV_SEQ, F.MSIX_PBA],
    parts := [.warp, .skein, .cells, .fio, .treadles, .gens, .axes, .trig, .loom, .sched, .cyc, .tandem, .host, .answer, .power, .rings, .sram, .dram, .dlm, .freeCtr] }

def Touches.axStrobe : Touch :=
  { regs := [F.WARP_STATUS_RATE_CLAMPED, F.WARP_STATUS_SLEW_ACTIVE, F.SLEW_NS, F.LC_STATUS_SHADOW_VALID,
      F.TR_STATUS_STAGE_STATE, F.TR_STATUS_PAUSE_CAUSE, F.TR_STATUS_DEFERRED, F.TR_STATUS_STATE,
      F.TR_EVENT_SPAWN_DROP, F.TR_EVENT_ABORT_IGNORED, F.TR_EVENT_CANCELLED, F.TR_STEPS_STAGED_STEP, F.TR_NEXT,
      F.TR_DECIDE_END_IDX, F.TR_DECIDE_DECIDED, F.TR_CANCEL_CNT, F.TR_COND, F.PG_STATUS_HELD, F.PG_SHADOW_TARGET,
      F.PG_SHADOW_VMAX, F.PG_SHADOW_WIN_M2, F.PG_SHADOW_WIN_M1, F.AX_STATUS_FAULT_CAUSE, F.AX_STATUS_HOME_RESULT,
      F.AX_STATUS_HOMED, F.AX_STATUS_STATE, F.AX_EVENT, F.AX_POS, F.AX_FBPOS, F.AX_STEP_POS, F.AX_SEG_NOW_SEG,
      F.AX_SEG_NOW_LEFT, F.AX_HOME_LATCH, F.AX_ODO_MOVES, F.SK_STATUS_BURST_FREE_KIB, F.SK_EVENT, F.SKS_SEQ,
      F.SKS_STATUS_RESIDENT, F.SKS_OVERWRITE, F.CS_STATUS_STATE, F.CS_EVENT, F.LOOM_EVENT, F.LOOM_EVT_OVF,
      F.LOOM_OVF_ROUTE, F.ODO_OUT, F.ODO_OUT_SAT, F.VR_VALUE, F.SCHED_STATUS_FREE_SLOTS, F.SCHED_STATUS_INFLIGHT,
      F.SCHED_EVENT, F.SCHED_DISPATCH_CNT, F.SCHED_CANCEL_CNT, F.SCHED_CANCEL_LATE_CNT, F.SCHED_POISON_CNT,
      F.SCHED_EVT_UNBOUND_CNT, F.SCHED_TEMPLATE_MISS_CNT, F.PS_USED, F.PS_HELD, F.HQ_DEPTH, F.HQ_MAXDEPTH,
      F.HQ_PUSH_CNT, F.HQ_BUSY_CNT, F.SH_STATUS_STATE, F.SH_STATUS_SLOT, F.SH_LOAD, F.LVL_RDY_DEPTH,
      F.LVL_WAIT_AVG, F.LVL_HIST, F.FLOW_STATE_HELD, F.FLOW_STATE_IN_SERVICE, F.FLOW_STATE_HELD_CAUSE,
      F.FLOW_STATE_PENDING, F.CP_STATUS_STOP_CAUSE, F.CP_STATUS_STATE, F.CP_EVENT, F.CP_STOP_T,
      F.PWR_STATUS_WAKE_PEND, F.PWR_STATUS_LOOM_ON, F.PWR_STATUS_PHASE, F.PWR_STATUS_TARGET, F.PWR_STATUS_STATE,
      F.PWR_WAKE_SRC, F.PWR_WAKE_MERGED, F.PWR_RES, F.PWR_ENTRIES, F.SYS_FAULT, F.SYS_FAULT_LAST, F.SYS_FAULT_T,
      F.MSIX_PBA],
    parts := [.warp, .skein, .cells, .fio, .ain, .treadles, .gens, .axes, .trig, .loom, .sched, .cyc, .host, .power, .rings, .sram, .dram, .dlm, .freeCtr] }

def Touches.axResultReady : Touch :=
  { regs := [F.WARP_STATUS_RATE_CLAMPED, F.WARP_STATUS_SLEW_ACTIVE, F.SLEW_NS, F.SLACK_LOW],
    parts := [.warp, .axes] }

def Touches.axRelease : Touch :=
  { regs := [F.WARP_STATUS_RATE_CLAMPED, F.WARP_STATUS_SLEW_ACTIVE, F.WARP_EVENT_SLACK_ALARM, F.SLEW_NS, F.SLACK_LOW,
      F.AVS_STATUS_AT_MAX, F.AVS_STATUS_CMD_MV, F.LC_STATUS_SHADOW_VALID, F.TR_STATUS_STAGE_STATE,
      F.TR_STATUS_PAUSE_CAUSE, F.TR_STATUS_DEFERRED, F.TR_STATUS_STATE, F.TR_EVENT_SPAWN_DROP,
      F.TR_EVENT_ABORT_IGNORED, F.TR_EVENT_CANCELLED, F.TR_STEPS_STAGED_STEP, F.TR_NEXT, F.TR_DECIDE_END_IDX,
      F.TR_DECIDE_DECIDED, F.TR_CANCEL_CNT, F.TR_COND, F.PG_STATUS_HELD, F.PG_SHADOW_TARGET, F.PG_SHADOW_VMAX,
      F.PG_SHADOW_WIN_M2, F.PG_SHADOW_WIN_M1, F.AX_STATUS_FAULT_CAUSE, F.AX_STATUS_HOME_RESULT, F.AX_STATUS_DIR,
      F.AX_STATUS_HOMED, F.AX_STATUS_STATE, F.AX_EVENT, F.AX_POS, F.AX_VEL, F.AX_FBPOS, F.AX_FE, F.AX_STEP_POS,
      F.AX_HOME_LATCH, F.AX_DIAG_CNT_DUTY_SAT_CNT, F.AX_DIAG_CNT_LATE_CNT, F.AX_ODO_STEPS,
      F.SK_STATUS_BURST_FREE_KIB, F.SK_EVENT, F.SKS_SEQ, F.SKS_STATUS_RESIDENT, F.SKS_OVERWRITE, F.CS_STATUS_STATE,
      F.CS_EVENT, F.LOOM_EVENT, F.LOOM_EVT_OVF, F.LOOM_OVF_ROUTE, F.ODO_OUT, F.ODO_OUT_SAT, F.VR_VALUE,
      F.SCHED_STATUS_FREE_SLOTS, F.SCHED_STATUS_INFLIGHT, F.SCHED_EVENT, F.SCHED_DISPATCH_CNT, F.SCHED_CANCEL_CNT,
      F.SCHED_CANCEL_LATE_CNT, F.SCHED_POISON_CNT, F.SCHED_EVT_UNBOUND_CNT, F.SCHED_TEMPLATE_MISS_CNT, F.PS_USED,
      F.PS_HELD, F.HQ_DEPTH, F.HQ_MAXDEPTH, F.HQ_PUSH_CNT, F.HQ_BUSY_CNT, F.SH_STATUS_STATE, F.SH_STATUS_SLOT,
      F.SH_LOAD, F.LVL_RDY_DEPTH, F.LVL_WAIT_AVG, F.LVL_HIST, F.FLOW_STATE_HELD, F.FLOW_STATE_IN_SERVICE,
      F.FLOW_STATE_HELD_CAUSE, F.FLOW_STATE_PENDING, F.CP_STATUS_STOP_CAUSE, F.CP_STATUS_STATE, F.CP_EVENT,
      F.CP_STOP_T, F.PWR_STATUS_WAKE_PEND, F.PWR_STATUS_LOOM_ON, F.PWR_STATUS_PHASE, F.PWR_STATUS_TARGET,
      F.PWR_STATUS_STATE, F.PWR_WAKE_SRC, F.PWR_WAKE_MERGED, F.PWR_RES, F.PWR_ENTRIES, F.SYS_FAULT,
      F.SYS_FAULT_LAST, F.SYS_FAULT_T, F.MSIX_PBA],
    parts := [.warp, .skein, .cells, .fio, .treadles, .gens, .axes, .trig, .loom, .sched, .cyc, .host, .power, .rings, .sram, .dram, .dlm, .freeCtr] }

def Touches.stepPulse : Touch :=
  { regs := [F.WARP_STATUS_RATE_CLAMPED, F.WARP_STATUS_SLEW_ACTIVE, F.SLEW_NS, F.ODO_OUT, F.ODO_OUT_SAT],
    parts := [.warp, .fio, .axes, .loom] }

def Touches.axStall : Touch :=
  { regs := [F.WARP_STATUS_RATE_CLAMPED, F.WARP_STATUS_SLEW_ACTIVE, F.SLEW_NS, F.LC_STATUS_SHADOW_VALID,
      F.TR_STATUS_STAGE_STATE, F.TR_STATUS_PAUSE_CAUSE, F.TR_STATUS_DEFERRED, F.TR_STATUS_STATE,
      F.TR_EVENT_SPAWN_DROP, F.TR_EVENT_ABORT_IGNORED, F.TR_EVENT_CANCELLED, F.TR_STEPS_STAGED_STEP, F.TR_NEXT,
      F.TR_DECIDE_END_IDX, F.TR_DECIDE_DECIDED, F.TR_CANCEL_CNT, F.TR_COND, F.PG_STATUS_HELD, F.PG_SHADOW_TARGET,
      F.PG_SHADOW_VMAX, F.PG_SHADOW_WIN_M2, F.PG_SHADOW_WIN_M1, F.AX_STATUS_FAULT_CAUSE, F.AX_STATUS_STATE,
      F.AX_EVENT, F.AX_SEG_NOW_SEG, F.AX_SEG_NOW_LEFT, F.SK_STATUS_BURST_FREE_KIB, F.SK_EVENT, F.SKS_SEQ,
      F.SKS_STATUS_RESIDENT, F.SKS_OVERWRITE, F.CS_STATUS_STATE, F.CS_EVENT, F.LOOM_EVENT, F.LOOM_EVT_OVF,
      F.LOOM_OVF_ROUTE, F.ODO_OUT, F.ODO_OUT_SAT, F.VR_VALUE, F.SCHED_STATUS_FREE_SLOTS, F.SCHED_STATUS_INFLIGHT,
      F.SCHED_EVENT, F.SCHED_DISPATCH_CNT, F.SCHED_CANCEL_CNT, F.SCHED_CANCEL_LATE_CNT, F.SCHED_POISON_CNT,
      F.SCHED_EVT_UNBOUND_CNT, F.SCHED_TEMPLATE_MISS_CNT, F.PS_USED, F.PS_HELD, F.HQ_DEPTH, F.HQ_MAXDEPTH,
      F.HQ_PUSH_CNT, F.HQ_BUSY_CNT, F.SH_STATUS_STATE, F.SH_STATUS_SLOT, F.SH_LOAD, F.LVL_RDY_DEPTH,
      F.LVL_WAIT_AVG, F.LVL_HIST, F.FLOW_STATE_HELD, F.FLOW_STATE_IN_SERVICE, F.FLOW_STATE_HELD_CAUSE,
      F.FLOW_STATE_PENDING, F.CP_STATUS_STOP_CAUSE, F.CP_STATUS_STATE, F.CP_EVENT, F.CP_STOP_T,
      F.PWR_STATUS_WAKE_PEND, F.PWR_STATUS_LOOM_ON, F.PWR_STATUS_PHASE, F.PWR_STATUS_TARGET, F.PWR_STATUS_STATE,
      F.PWR_WAKE_SRC, F.PWR_WAKE_MERGED, F.PWR_RES, F.PWR_ENTRIES, F.SYS_FAULT, F.SYS_FAULT_LAST, F.SYS_FAULT_T,
      F.MSIX_PBA],
    parts := [.warp, .skein, .cells, .fio, .treadles, .gens, .axes, .trig, .loom, .sched, .cyc, .host, .power, .rings, .sram, .dram, .dlm, .freeCtr] }

def Touches.axgArm : Touch :=
  { regs := [F.WARP_STATUS_RATE_CLAMPED, F.WARP_STATUS_SLEW_ACTIVE, F.SLEW_NS, F.LC_STATUS_SHADOW_VALID,
      F.TR_STATUS_STAGE_STATE, F.TR_STATUS_PAUSE_CAUSE, F.TR_STATUS_DEFERRED, F.TR_STATUS_STATE,
      F.TR_EVENT_SPAWN_DROP, F.TR_EVENT_ABORT_IGNORED, F.TR_EVENT_CANCELLED, F.TR_STEPS_STAGED_STEP, F.TR_NEXT,
      F.TR_DECIDE_END_IDX, F.TR_DECIDE_DECIDED, F.TR_CANCEL_CNT, F.TR_COND, F.PG_STATUS_HELD, F.PG_SHADOW_TARGET,
      F.PG_SHADOW_VMAX, F.PG_SHADOW_WIN_M2, F.PG_SHADOW_WIN_M1, F.AX_STATUS_FAULT_CAUSE, F.AX_STATUS_STATE,
      F.AX_EVENT, F.AX_SEG_NOW_SEG, F.AX_SEG_NOW_LEFT, F.AXG_CTRL_RESULT, F.AXG_CTRL_STATE, F.AXG_CTRL_KIND,
      F.SK_STATUS_BURST_FREE_KIB, F.SK_EVENT, F.SKS_SEQ, F.SKS_STATUS_RESIDENT, F.SKS_OVERWRITE, F.CS_STATUS_STATE,
      F.CS_EVENT, F.LOOM_EVENT, F.LOOM_EVT_OVF, F.LOOM_OVF_ROUTE, F.ODO_OUT, F.ODO_OUT_SAT, F.VR_VALUE,
      F.SCHED_STATUS_FREE_SLOTS, F.SCHED_STATUS_INFLIGHT, F.SCHED_EVENT, F.SCHED_DISPATCH_CNT, F.SCHED_CANCEL_CNT,
      F.SCHED_CANCEL_LATE_CNT, F.SCHED_POISON_CNT, F.SCHED_EVT_UNBOUND_CNT, F.SCHED_TEMPLATE_MISS_CNT, F.PS_USED,
      F.PS_HELD, F.HQ_DEPTH, F.HQ_MAXDEPTH, F.HQ_PUSH_CNT, F.HQ_BUSY_CNT, F.SH_STATUS_STATE, F.SH_STATUS_SLOT,
      F.SH_LOAD, F.LVL_RDY_DEPTH, F.LVL_WAIT_AVG, F.LVL_HIST, F.FLOW_STATE_HELD, F.FLOW_STATE_IN_SERVICE,
      F.FLOW_STATE_HELD_CAUSE, F.FLOW_STATE_PENDING, F.CP_STATUS_STOP_CAUSE, F.CP_STATUS_STATE, F.CP_EVENT,
      F.CP_STOP_T, F.TD_EVENT, F.PWR_STATUS_WAKE_PEND, F.PWR_STATUS_LOOM_ON, F.PWR_STATUS_PHASE,
      F.PWR_STATUS_TARGET, F.PWR_STATUS_STATE, F.PWR_WAKE_SRC, F.PWR_WAKE_MERGED, F.PWR_RES, F.PWR_ENTRIES,
      F.SYS_FAULT, F.SYS_FAULT_LAST, F.SYS_FAULT_T, F.SYS_DISCARD_REASON, F.SYS_DISCARD_OFFSET, F.SYS_DISCARD_CNT,
      F.MBX_STATE_COMP, F.PV_SEQ, F.MSIX_PBA],
    parts := [.warp, .skein, .cells, .fio, .treadles, .gens, .axes, .groups, .trig, .loom, .sched, .cyc, .tandem, .host, .answer, .power, .rings, .sram, .dram, .dlm, .freeCtr] }

def Touches.axgCancel : Touch :=
  { regs := [F.WARP_STATUS_RATE_CLAMPED, F.WARP_STATUS_SLEW_ACTIVE, F.SLEW_NS, F.AXG_CTRL_STATE, F.AXG_CTRL_KIND,
      F.TD_EVENT, F.SYS_DISCARD_REASON, F.SYS_DISCARD_OFFSET, F.SYS_DISCARD_CNT, F.MBX_STATE_COMP, F.PV_SEQ,
      F.MSIX_PBA],
    parts := [.warp, .groups, .tandem, .host, .answer, .dram] }

def Touches.groupStart : Touch :=
  { regs := [F.WARP_STATUS_RATE_CLAMPED, F.WARP_STATUS_SLEW_ACTIVE, F.SLEW_NS, F.LC_STATUS_SHADOW_VALID,
      F.TR_STATUS_STAGE_STATE, F.TR_STATUS_PAUSE_CAUSE, F.TR_STATUS_DEFERRED, F.TR_STATUS_STATE,
      F.TR_EVENT_SPAWN_DROP, F.TR_EVENT_ABORT_IGNORED, F.TR_EVENT_CANCELLED, F.TR_STEPS_STAGED_STEP, F.TR_NEXT,
      F.TR_DECIDE_END_IDX, F.TR_DECIDE_DECIDED, F.TR_CANCEL_CNT, F.TR_COND, F.PG_STATUS_HELD, F.PG_SHADOW_TARGET,
      F.PG_SHADOW_VMAX, F.PG_SHADOW_WIN_M2, F.PG_SHADOW_WIN_M1, F.AX_STATUS_FAULT_CAUSE, F.AX_STATUS_STATE,
      F.AX_EVENT, F.AX_SEG_NOW_SEG, F.AX_SEG_NOW_LEFT, F.AX_ODO_MOVES, F.AXG_CTRL_STATE,
      F.SK_STATUS_BURST_FREE_KIB, F.SK_EVENT, F.SKS_SEQ, F.SKS_STATUS_RESIDENT, F.SKS_OVERWRITE, F.CS_STATUS_STATE,
      F.CS_EVENT, F.LOOM_EVENT, F.LOOM_EVT_OVF, F.LOOM_OVF_ROUTE, F.ODO_OUT, F.ODO_OUT_SAT, F.VR_VALUE,
      F.SCHED_STATUS_FREE_SLOTS, F.SCHED_STATUS_INFLIGHT, F.SCHED_EVENT, F.SCHED_DISPATCH_CNT, F.SCHED_CANCEL_CNT,
      F.SCHED_CANCEL_LATE_CNT, F.SCHED_POISON_CNT, F.SCHED_EVT_UNBOUND_CNT, F.SCHED_TEMPLATE_MISS_CNT, F.PS_USED,
      F.PS_HELD, F.HQ_DEPTH, F.HQ_MAXDEPTH, F.HQ_PUSH_CNT, F.HQ_BUSY_CNT, F.SH_STATUS_STATE, F.SH_STATUS_SLOT,
      F.SH_LOAD, F.LVL_RDY_DEPTH, F.LVL_WAIT_AVG, F.LVL_HIST, F.FLOW_STATE_HELD, F.FLOW_STATE_IN_SERVICE,
      F.FLOW_STATE_HELD_CAUSE, F.FLOW_STATE_PENDING, F.CP_STATUS_STOP_CAUSE, F.CP_STATUS_STATE, F.CP_EVENT,
      F.CP_STOP_T, F.PWR_STATUS_WAKE_PEND, F.PWR_STATUS_LOOM_ON, F.PWR_STATUS_PHASE, F.PWR_STATUS_TARGET,
      F.PWR_STATUS_STATE, F.PWR_WAKE_SRC, F.PWR_WAKE_MERGED, F.PWR_RES, F.PWR_ENTRIES, F.SYS_FAULT,
      F.SYS_FAULT_LAST, F.SYS_FAULT_T, F.MSIX_PBA],
    parts := [.warp, .skein, .cells, .fio, .treadles, .gens, .axes, .groups, .trig, .loom, .sched, .cyc, .host, .power, .rings, .sram, .dram, .dlm, .freeCtr] }

def Touches.limitEdge : Touch :=
  { regs := [F.WARP_STATUS_RATE_CLAMPED, F.WARP_STATUS_SLEW_ACTIVE, F.SLEW_NS, F.LC_STATUS_SHADOW_VALID,
      F.TR_STATUS_STAGE_STATE, F.TR_STATUS_PAUSE_CAUSE, F.TR_STATUS_DEFERRED, F.TR_STATUS_STATE,
      F.TR_EVENT_SPAWN_DROP, F.TR_EVENT_ABORT_IGNORED, F.TR_EVENT_CANCELLED, F.TR_STEPS_STAGED_STEP, F.TR_NEXT,
      F.TR_DECIDE_END_IDX, F.TR_DECIDE_DECIDED, F.TR_CANCEL_CNT, F.TR_COND, F.PG_STATUS_HELD, F.PG_SHADOW_TARGET,
      F.PG_SHADOW_VMAX, F.PG_SHADOW_WIN_M2, F.PG_SHADOW_WIN_M1, F.AX_STATUS_FAULT_CAUSE, F.AX_STATUS_LIMN,
      F.AX_STATUS_LIMP, F.AX_STATUS_STATE, F.AX_EVENT, F.AX_SEG_NOW_SEG, F.AX_SEG_NOW_LEFT,
      F.AX_CHATTER_LIM_CHATTER, F.SK_STATUS_BURST_FREE_KIB, F.SK_EVENT, F.SKS_SEQ, F.SKS_STATUS_RESIDENT,
      F.SKS_OVERWRITE, F.CS_STATUS_STATE, F.CS_EVENT, F.LOOM_EVENT, F.LOOM_EVT_OVF, F.LOOM_OVF_ROUTE, F.ODO_OUT,
      F.ODO_OUT_SAT, F.VR_VALUE, F.SCHED_STATUS_FREE_SLOTS, F.SCHED_STATUS_INFLIGHT, F.SCHED_EVENT,
      F.SCHED_DISPATCH_CNT, F.SCHED_CANCEL_CNT, F.SCHED_CANCEL_LATE_CNT, F.SCHED_POISON_CNT,
      F.SCHED_EVT_UNBOUND_CNT, F.SCHED_TEMPLATE_MISS_CNT, F.PS_USED, F.PS_HELD, F.HQ_DEPTH, F.HQ_MAXDEPTH,
      F.HQ_PUSH_CNT, F.HQ_BUSY_CNT, F.SH_STATUS_STATE, F.SH_STATUS_SLOT, F.SH_LOAD, F.LVL_RDY_DEPTH,
      F.LVL_WAIT_AVG, F.LVL_HIST, F.FLOW_STATE_HELD, F.FLOW_STATE_IN_SERVICE, F.FLOW_STATE_HELD_CAUSE,
      F.FLOW_STATE_PENDING, F.CP_STATUS_STOP_CAUSE, F.CP_STATUS_STATE, F.CP_EVENT, F.CP_STOP_T,
      F.PWR_STATUS_WAKE_PEND, F.PWR_STATUS_LOOM_ON, F.PWR_STATUS_PHASE, F.PWR_STATUS_TARGET, F.PWR_STATUS_STATE,
      F.PWR_WAKE_SRC, F.PWR_WAKE_MERGED, F.PWR_RES, F.PWR_ENTRIES, F.SYS_FAULT, F.SYS_FAULT_LAST, F.SYS_FAULT_T,
      F.MSIX_PBA],
    parts := [.warp, .skein, .cells, .fio, .treadles, .gens, .axes, .trig, .loom, .sched, .cyc, .host, .power, .rings, .sram, .dram, .dlm, .freeCtr] }

def Touches.homeSwitchEdge : Touch :=
  { regs := [F.WARP_STATUS_RATE_CLAMPED, F.WARP_STATUS_SLEW_ACTIVE, F.SLEW_NS, F.LC_STATUS_SHADOW_VALID,
      F.TR_STATUS_STAGE_STATE, F.TR_STATUS_PAUSE_CAUSE, F.TR_STATUS_DEFERRED, F.TR_STATUS_STATE,
      F.TR_EVENT_SPAWN_DROP, F.TR_EVENT_ABORT_IGNORED, F.TR_EVENT_CANCELLED, F.TR_STEPS_STAGED_STEP, F.TR_NEXT,
      F.TR_DECIDE_END_IDX, F.TR_DECIDE_DECIDED, F.TR_CANCEL_CNT, F.TR_COND, F.PG_STATUS_HELD, F.PG_SHADOW_TARGET,
      F.PG_SHADOW_VMAX, F.PG_SHADOW_WIN_M2, F.PG_SHADOW_WIN_M1, F.AX_STATUS_FAULT_CAUSE, F.AX_STATUS_HOME_SW,
      F.AX_STATUS_STATE, F.AX_EVENT, F.AX_SEG_NOW_SEG, F.AX_SEG_NOW_LEFT, F.SK_STATUS_BURST_FREE_KIB, F.SK_EVENT,
      F.SKS_SEQ, F.SKS_STATUS_RESIDENT, F.SKS_OVERWRITE, F.CS_STATUS_STATE, F.CS_EVENT, F.LOOM_EVENT,
      F.LOOM_EVT_OVF, F.LOOM_OVF_ROUTE, F.ODO_OUT, F.ODO_OUT_SAT, F.VR_VALUE, F.SCHED_STATUS_FREE_SLOTS,
      F.SCHED_STATUS_INFLIGHT, F.SCHED_EVENT, F.SCHED_DISPATCH_CNT, F.SCHED_CANCEL_CNT, F.SCHED_CANCEL_LATE_CNT,
      F.SCHED_POISON_CNT, F.SCHED_EVT_UNBOUND_CNT, F.SCHED_TEMPLATE_MISS_CNT, F.PS_USED, F.PS_HELD, F.HQ_DEPTH,
      F.HQ_MAXDEPTH, F.HQ_PUSH_CNT, F.HQ_BUSY_CNT, F.SH_STATUS_STATE, F.SH_STATUS_SLOT, F.SH_LOAD, F.LVL_RDY_DEPTH,
      F.LVL_WAIT_AVG, F.LVL_HIST, F.FLOW_STATE_HELD, F.FLOW_STATE_IN_SERVICE, F.FLOW_STATE_HELD_CAUSE,
      F.FLOW_STATE_PENDING, F.CP_STATUS_STOP_CAUSE, F.CP_STATUS_STATE, F.CP_EVENT, F.CP_STOP_T,
      F.PWR_STATUS_WAKE_PEND, F.PWR_STATUS_LOOM_ON, F.PWR_STATUS_PHASE, F.PWR_STATUS_TARGET, F.PWR_STATUS_STATE,
      F.PWR_WAKE_SRC, F.PWR_WAKE_MERGED, F.PWR_RES, F.PWR_ENTRIES, F.SYS_FAULT, F.SYS_FAULT_LAST, F.SYS_FAULT_T,
      F.MSIX_PBA],
    parts := [.warp, .skein, .cells, .fio, .treadles, .gens, .axes, .trig, .loom, .sched, .cyc, .host, .power, .rings, .sram, .dram, .dlm, .freeCtr] }

def Touches.burstQualified : Touch :=
  { regs := [F.WARP_STATUS_RATE_CLAMPED, F.WARP_STATUS_SLEW_ACTIVE, F.SLEW_NS, F.LC_STATUS_SHADOW_VALID,
      F.TR_STATUS_STAGE_STATE, F.TR_STATUS_PAUSE_CAUSE, F.TR_STATUS_DEFERRED, F.TR_STATUS_STATE,
      F.TR_EVENT_SPAWN_DROP, F.TR_EVENT_ABORT_IGNORED, F.TR_EVENT_CANCELLED, F.TR_STEPS_STAGED_STEP, F.TR_NEXT,
      F.TR_DECIDE_END_IDX, F.TR_DECIDE_DECIDED, F.TR_CANCEL_CNT, F.TR_COND, F.PG_STATUS_HELD, F.PG_SHADOW_TARGET,
      F.PG_SHADOW_VMAX, F.PG_SHADOW_WIN_M2, F.PG_SHADOW_WIN_M1, F.AX_STATUS_FAULT_CAUSE, F.AX_STATUS_STATE,
      F.AX_EVENT, F.AX_SEG_NOW_SEG, F.AX_SEG_NOW_LEFT, F.AX_CHATTER_HOME_CHATTER, F.SK_STATUS_BURST_FREE_KIB,
      F.SK_EVENT, F.SKS_SEQ, F.SKS_STATUS_RESIDENT, F.SKS_OVERWRITE, F.CS_STATUS_STATE, F.CS_EVENT, F.LOOM_EVENT,
      F.LOOM_EVT_OVF, F.LOOM_OVF_ROUTE, F.ODO_OUT, F.ODO_OUT_SAT, F.VR_VALUE, F.SCHED_STATUS_FREE_SLOTS,
      F.SCHED_STATUS_INFLIGHT, F.SCHED_EVENT, F.SCHED_DISPATCH_CNT, F.SCHED_CANCEL_CNT, F.SCHED_CANCEL_LATE_CNT,
      F.SCHED_POISON_CNT, F.SCHED_EVT_UNBOUND_CNT, F.SCHED_TEMPLATE_MISS_CNT, F.PS_USED, F.PS_HELD, F.HQ_DEPTH,
      F.HQ_MAXDEPTH, F.HQ_PUSH_CNT, F.HQ_BUSY_CNT, F.SH_STATUS_STATE, F.SH_STATUS_SLOT, F.SH_LOAD, F.LVL_RDY_DEPTH,
      F.LVL_WAIT_AVG, F.LVL_HIST, F.FLOW_STATE_HELD, F.FLOW_STATE_IN_SERVICE, F.FLOW_STATE_HELD_CAUSE,
      F.FLOW_STATE_PENDING, F.CP_STATUS_STOP_CAUSE, F.CP_STATUS_STATE, F.CP_EVENT, F.CP_STOP_T,
      F.PWR_STATUS_WAKE_PEND, F.PWR_STATUS_LOOM_ON, F.PWR_STATUS_PHASE, F.PWR_STATUS_TARGET, F.PWR_STATUS_STATE,
      F.PWR_WAKE_SRC, F.PWR_WAKE_MERGED, F.PWR_RES, F.PWR_ENTRIES, F.SYS_FAULT, F.SYS_FAULT_LAST, F.SYS_FAULT_T,
      F.MSIX_PBA],
    parts := [.warp, .skein, .cells, .fio, .treadles, .gens, .axes, .trig, .loom, .sched, .cyc, .host, .power, .rings, .sram, .dram, .dlm, .freeCtr] }

def Touches.indexEdge : Touch :=
  { regs := [F.WARP_STATUS_RATE_CLAMPED, F.WARP_STATUS_SLEW_ACTIVE, F.SLEW_NS, F.LC_STATUS_SHADOW_VALID,
      F.TR_STATUS_STAGE_STATE, F.TR_STATUS_PAUSE_CAUSE, F.TR_STATUS_DEFERRED, F.TR_STATUS_STATE,
      F.TR_EVENT_SPAWN_DROP, F.TR_EVENT_ABORT_IGNORED, F.TR_EVENT_CANCELLED, F.TR_STEPS_STAGED_STEP, F.TR_NEXT,
      F.TR_DECIDE_END_IDX, F.TR_DECIDE_DECIDED, F.TR_CANCEL_CNT, F.TR_COND, F.PG_STATUS_HELD, F.PG_SHADOW_TARGET,
      F.PG_SHADOW_VMAX, F.PG_SHADOW_WIN_M2, F.PG_SHADOW_WIN_M1, F.AX_STATUS_FAULT_CAUSE, F.AX_STATUS_STATE,
      F.AX_EVENT, F.AX_SEG_NOW_SEG, F.AX_SEG_NOW_LEFT, F.SK_STATUS_BURST_FREE_KIB, F.SK_EVENT, F.SKS_SEQ,
      F.SKS_STATUS_RESIDENT, F.SKS_OVERWRITE, F.CS_STATUS_STATE, F.CS_EVENT, F.LOOM_EVENT, F.LOOM_EVT_OVF,
      F.LOOM_OVF_ROUTE, F.ODO_OUT, F.ODO_OUT_SAT, F.VR_VALUE, F.SCHED_STATUS_FREE_SLOTS, F.SCHED_STATUS_INFLIGHT,
      F.SCHED_EVENT, F.SCHED_DISPATCH_CNT, F.SCHED_CANCEL_CNT, F.SCHED_CANCEL_LATE_CNT, F.SCHED_POISON_CNT,
      F.SCHED_EVT_UNBOUND_CNT, F.SCHED_TEMPLATE_MISS_CNT, F.PS_USED, F.PS_HELD, F.HQ_DEPTH, F.HQ_MAXDEPTH,
      F.HQ_PUSH_CNT, F.HQ_BUSY_CNT, F.SH_STATUS_STATE, F.SH_STATUS_SLOT, F.SH_LOAD, F.LVL_RDY_DEPTH,
      F.LVL_WAIT_AVG, F.LVL_HIST, F.FLOW_STATE_HELD, F.FLOW_STATE_IN_SERVICE, F.FLOW_STATE_HELD_CAUSE,
      F.FLOW_STATE_PENDING, F.CP_STATUS_STOP_CAUSE, F.CP_STATUS_STATE, F.CP_EVENT, F.CP_STOP_T,
      F.PWR_STATUS_WAKE_PEND, F.PWR_STATUS_LOOM_ON, F.PWR_STATUS_PHASE, F.PWR_STATUS_TARGET, F.PWR_STATUS_STATE,
      F.PWR_WAKE_SRC, F.PWR_WAKE_MERGED, F.PWR_RES, F.PWR_ENTRIES, F.SYS_FAULT, F.SYS_FAULT_LAST, F.SYS_FAULT_T,
      F.MSIX_PBA],
    parts := [.warp, .skein, .cells, .fio, .treadles, .gens, .axes, .trig, .loom, .sched, .cyc, .host, .power, .rings, .sram, .dram, .dlm, .freeCtr] }

def Touches.tapSample : Touch :=
  { regs := [F.WARP_STATUS_RATE_CLAMPED, F.WARP_STATUS_SLEW_ACTIVE, F.SLEW_NS, F.SK_STATUS_BURST_FREE_KIB, F.SK_EVENT,
      F.SKS_SEQ, F.SKS_STATUS_RESIDENT, F.SKS_STATUS_GAP_OPEN, F.SKS_DISCARD, F.SKS_OVERWRITE, F.TAP_DISCARD,
      F.PWR_STATUS_WAKE_PEND, F.PWR_STATUS_PHASE, F.PWR_WAKE_SRC, F.PWR_WAKE_MERGED],
    parts := [.warp, .skein, .ain, .power] }

def Touches.blockSeal : Touch :=
  { regs := [F.WARP_STATUS_RATE_CLAMPED, F.WARP_STATUS_SLEW_ACTIVE, F.SLEW_NS, F.SK_STATUS_BURST_FREE_KIB, F.SK_EVENT,
      F.SKS_SEQ, F.SKS_STATUS_RESIDENT, F.SKS_OVERWRITE],
    parts := [.warp, .skein] }

def Touches.skeinCheckpoint : Touch :=
  { regs := [F.WARP_STATUS_RATE_CLAMPED, F.WARP_STATUS_SLEW_ACTIVE, F.SLEW_NS, F.SK_STATUS_BURST_FREE_KIB,
      F.SK_STATUS_CKPT_PENDING, F.SK_EVENT, F.SK_RATE_AVG, F.SKS_SEQ, F.SKS_STATUS_RESIDENT, F.SKS_OVERWRITE,
      F.SKS_OUT_AVG],
    parts := [.warp, .skein] }

def Touches.checkpointSigned : Touch :=
  { regs := [F.WARP_STATUS_RATE_CLAMPED, F.WARP_STATUS_SLEW_ACTIVE, F.SLEW_NS, F.SK_STATUS_BURST_FREE_KIB,
      F.SK_STATUS_CKPT_PENDING, F.SK_EVENT, F.SKS_SEQ, F.SKS_STATUS_RESIDENT, F.SKS_OVERWRITE],
    parts := [.warp, .skein] }

def Touches.blockWriteDone : Touch :=
  { regs := [F.WARP_STATUS_RATE_CLAMPED, F.WARP_STATUS_SLEW_ACTIVE, F.SLEW_NS, F.SK_STATUS_BURST_FREE_KIB, F.SK_EVENT,
      F.SKS_SEQ, F.SKS_VISIBLE, F.SKS_STATUS_RESIDENT, F.SKS_STATUS_RETRYING, F.SKS_RETRY, F.SKS_OVERWRITE,
      F.MSIX_PBA],
    parts := [.warp, .skein, .host, .dram] }

def Touches.exportDone : Touch :=
  { regs := [F.WARP_STATUS_RATE_CLAMPED, F.WARP_STATUS_SLEW_ACTIVE, F.SLEW_NS, F.SK_STATUS_BURST_FREE_KIB, F.SK_EVENT,
      F.SKS_VISIBLE, F.SKS_STATUS_RESIDENT, F.SKS_OVERWRITE],
    parts := [.warp, .skein] }

def Touches.stConsumedWrite : Touch :=
  { regs := [F.WARP_STATUS_RATE_CLAMPED, F.WARP_STATUS_SLEW_ACTIVE, F.SLEW_NS, F.SK_STATUS_BURST_FREE_KIB, F.SK_EVENT,
      F.SKS_SEQ, F.SKS_VISIBLE, F.SKS_CONSUMED, F.SKS_STATUS_RESIDENT, F.SKS_OVERWRITE, F.TD_EVENT,
      F.SYS_DISCARD_REASON, F.SYS_DISCARD_OFFSET, F.SYS_DISCARD_CNT, F.MBX_STATE_COMP, F.PV_SEQ, F.MSIX_PBA],
    parts := [.warp, .skein, .tandem, .host, .answer, .dram, .freeCtr] }

def Touches.flush : Touch :=
  { regs := [F.WARP_STATUS_RATE_CLAMPED, F.WARP_STATUS_SLEW_ACTIVE, F.SLEW_NS, F.SK_STATUS_BURST_FREE_KIB, F.SK_EVENT,
      F.SKS_SEQ, F.SKS_STATUS_RESIDENT, F.SKS_OVERWRITE, F.TD_EVENT, F.SYS_DISCARD_REASON, F.SYS_DISCARD_OFFSET,
      F.SYS_DISCARD_CNT, F.MBX_STATE_COMP, F.PV_SEQ, F.MSIX_PBA],
    parts := [.warp, .skein, .tandem, .host, .answer, .dram] }

def Touches.resendBlock : Touch :=
  { regs := [F.WARP_STATUS_RATE_CLAMPED, F.WARP_STATUS_SLEW_ACTIVE, F.SLEW_NS, F.SK_STATUS_BURST_FREE_KIB, F.SK_EVENT,
      F.SKS_SEQ, F.SKS_STATUS_RESIDENT, F.SKS_OVERWRITE, F.TD_EVENT, F.HOST_EVENT, F.MBX_STATE_COMP, F.PV_SEQ,
      F.MSIX_PBA],
    parts := [.warp, .skein, .tandem, .host, .answer, .dram] }

def Touches.tsArm : Touch :=
  { regs := [F.WARP_STATUS_RATE_CLAMPED, F.WARP_STATUS_SLEW_ACTIVE, F.SLEW_NS, F.SK_STATUS_BURST_FREE_KIB, F.SK_EVENT,
      F.SKS_SEQ, F.SKS_STATUS_RESIDENT, F.SKS_OVERWRITE, F.TS_STATUS_RUNNING, F.TS_STATUS_STATE, F.TS_EVENT,
      F.TS_COUNTER, F.TS_TIMER, F.CS_STATUS_ARM_RESULT, F.CS_STATUS_STATE, F.CS_EVENT, F.CS_PRE_BYTES,
      F.CS_NEED_BYTES, F.POOL_FREE, F.TD_EVENT, F.SYS_DISCARD_REASON, F.SYS_DISCARD_OFFSET, F.SYS_DISCARD_CNT,
      F.MBX_STATE_COMP, F.PV_SEQ, F.MSIX_PBA],
    parts := [.warp, .skein, .trig, .tandem, .host, .answer, .dram] }

def Touches.tsDisarm : Touch :=
  { regs := [F.WARP_STATUS_RATE_CLAMPED, F.WARP_STATUS_SLEW_ACTIVE, F.SLEW_NS, F.TR_EVENT_SPAWN_DROP,
      F.SK_STATUS_BURST_FREE_KIB, F.SK_EVENT, F.SKS_SEQ, F.SKS_STATUS_RESIDENT, F.SKS_OVERWRITE,
      F.TS_STATUS_RUNNING, F.TS_EVENT, F.CS_STATUS_STATE, F.CS_EVENT, F.CS_PRE_BYTES, F.POOL_FREE, F.LOOM_EVENT,
      F.LOOM_EVT_OVF, F.LOOM_OVF_ROUTE, F.SCHED_STATUS_FREE_SLOTS, F.SCHED_STATUS_INFLIGHT, F.SCHED_EVENT,
      F.SCHED_DISPATCH_CNT, F.SCHED_EVT_UNBOUND_CNT, F.SCHED_TEMPLATE_MISS_CNT, F.PS_USED, F.HQ_DEPTH,
      F.HQ_MAXDEPTH, F.HQ_PUSH_CNT, F.HQ_BUSY_CNT, F.SH_STATUS_STATE, F.SH_STATUS_SLOT, F.SH_LOAD, F.LVL_RDY_DEPTH,
      F.LVL_WAIT_AVG, F.LVL_HIST, F.FLOW_STATE_IN_SERVICE, F.FLOW_STATE_PENDING, F.TD_EVENT,
      F.PWR_STATUS_WAKE_PEND, F.PWR_STATUS_PHASE, F.PWR_STATUS_STATE, F.PWR_WAKE_SRC, F.PWR_WAKE_MERGED, F.PWR_RES,
      F.PWR_ENTRIES, F.SYS_DISCARD_REASON, F.SYS_DISCARD_OFFSET, F.SYS_DISCARD_CNT, F.MBX_STATE_COMP, F.PV_SEQ,
      F.MSIX_PBA],
    parts := [.warp, .skein, .treadles, .trig, .sched, .tandem, .host, .answer, .power, .sram, .dram, .dlm, .freeCtr] }

def Touches.tsSample : Touch :=
  { regs := [F.WARP_STATUS_RATE_CLAMPED, F.WARP_STATUS_SLEW_ACTIVE, F.SLEW_NS, F.TR_EVENT_SPAWN_DROP, F.TR_COND,
      F.SK_STATUS_BURST_FREE_KIB, F.SK_EVENT, F.SKS_SEQ, F.SKS_STATUS_RESIDENT, F.SKS_OVERWRITE, F.TS_STATUS_STATE,
      F.TS_EVENT, F.TS_COUNTER, F.TS_TIMER, F.TS_WORD, F.TS_MISSED, F.TS_TRIG, F.CS_STATUS_STATE, F.CS_EVENT,
      F.CS_CHUNK_ACK, F.MU_STATUS_VIOL_RUN, F.MU_STATUS_ENV_NOW, F.MU_STATUS_STATE, F.MU_EVENT, F.MU_A,
      F.LOOM_EVENT, F.LOOM_EVT_OVF, F.LOOM_OVF_ROUTE, F.SCHED_STATUS_FREE_SLOTS, F.SCHED_STATUS_INFLIGHT,
      F.SCHED_EVENT, F.SCHED_DISPATCH_CNT, F.SCHED_EVT_UNBOUND_CNT, F.SCHED_TEMPLATE_MISS_CNT, F.PS_USED,
      F.HQ_DEPTH, F.HQ_MAXDEPTH, F.HQ_PUSH_CNT, F.HQ_BUSY_CNT, F.SH_STATUS_STATE, F.SH_STATUS_SLOT, F.SH_LOAD,
      F.LVL_RDY_DEPTH, F.LVL_WAIT_AVG, F.LVL_HIST, F.FLOW_STATE_IN_SERVICE, F.FLOW_STATE_PENDING,
      F.PWR_STATUS_WAKE_PEND, F.PWR_STATUS_PHASE, F.PWR_STATUS_STATE, F.PWR_WAKE_SRC, F.PWR_WAKE_MERGED, F.PWR_RES,
      F.PWR_ENTRIES, F.MSIX_PBA],
    parts := [.warp, .skein, .treadles, .trig, .sched, .host, .power, .sram, .dram, .dlm, .freeCtr] }

def Touches.captureReady : Touch :=
  { regs := [F.WARP_STATUS_RATE_CLAMPED, F.WARP_STATUS_SLEW_ACTIVE, F.SLEW_NS, F.CS_STATUS_STATE],
    parts := [.warp, .trig] }

def Touches.force : Touch :=
  { regs := [F.WARP_STATUS_RATE_CLAMPED, F.WARP_STATUS_SLEW_ACTIVE, F.SLEW_NS, F.TR_EVENT_SPAWN_DROP, F.TR_COND,
      F.SK_STATUS_BURST_FREE_KIB, F.SK_EVENT, F.SKS_SEQ, F.SKS_STATUS_RESIDENT, F.SKS_OVERWRITE, F.TS_EVENT,
      F.TS_WORD, F.TS_MISSED, F.TS_TRIG, F.CS_STATUS_STATE, F.CS_EVENT, F.CS_CHUNK_ACK, F.MU_STATUS_VIOL_RUN,
      F.MU_STATUS_ENV_NOW, F.MU_STATUS_STATE, F.MU_EVENT, F.MU_A, F.LOOM_EVENT, F.LOOM_EVT_OVF, F.LOOM_OVF_ROUTE,
      F.SCHED_STATUS_FREE_SLOTS, F.SCHED_STATUS_INFLIGHT, F.SCHED_EVENT, F.SCHED_DISPATCH_CNT,
      F.SCHED_EVT_UNBOUND_CNT, F.SCHED_TEMPLATE_MISS_CNT, F.PS_USED, F.HQ_DEPTH, F.HQ_MAXDEPTH, F.HQ_PUSH_CNT,
      F.HQ_BUSY_CNT, F.SH_STATUS_STATE, F.SH_STATUS_SLOT, F.SH_LOAD, F.LVL_RDY_DEPTH, F.LVL_WAIT_AVG, F.LVL_HIST,
      F.FLOW_STATE_IN_SERVICE, F.FLOW_STATE_PENDING, F.TD_EVENT, F.PWR_STATUS_WAKE_PEND, F.PWR_STATUS_PHASE,
      F.PWR_STATUS_STATE, F.PWR_WAKE_SRC, F.PWR_WAKE_MERGED, F.PWR_RES, F.PWR_ENTRIES, F.SYS_DISCARD_REASON,
      F.SYS_DISCARD_OFFSET, F.SYS_DISCARD_CNT, F.MBX_STATE_COMP, F.PV_SEQ, F.MSIX_PBA],
    parts := [.warp, .skein, .treadles, .trig, .sched, .tandem, .host, .answer, .power, .sram, .dram, .dlm, .freeCtr] }

def Touches.autoFire : Touch :=
  { regs := [F.WARP_STATUS_RATE_CLAMPED, F.WARP_STATUS_SLEW_ACTIVE, F.SLEW_NS, F.TR_EVENT_SPAWN_DROP, F.TR_COND,
      F.SK_STATUS_BURST_FREE_KIB, F.SK_EVENT, F.SKS_SEQ, F.SKS_STATUS_RESIDENT, F.SKS_OVERWRITE, F.TS_EVENT,
      F.TS_WORD, F.TS_MISSED, F.TS_TRIG, F.CS_STATUS_STATE, F.CS_EVENT, F.CS_CHUNK_ACK, F.MU_STATUS_VIOL_RUN,
      F.MU_STATUS_ENV_NOW, F.MU_STATUS_STATE, F.MU_EVENT, F.MU_A, F.LOOM_EVENT, F.LOOM_EVT_OVF, F.LOOM_OVF_ROUTE,
      F.SCHED_STATUS_FREE_SLOTS, F.SCHED_STATUS_INFLIGHT, F.SCHED_EVENT, F.SCHED_DISPATCH_CNT,
      F.SCHED_EVT_UNBOUND_CNT, F.SCHED_TEMPLATE_MISS_CNT, F.PS_USED, F.HQ_DEPTH, F.HQ_MAXDEPTH, F.HQ_PUSH_CNT,
      F.HQ_BUSY_CNT, F.SH_STATUS_STATE, F.SH_STATUS_SLOT, F.SH_LOAD, F.LVL_RDY_DEPTH, F.LVL_WAIT_AVG, F.LVL_HIST,
      F.FLOW_STATE_IN_SERVICE, F.FLOW_STATE_PENDING, F.PWR_STATUS_WAKE_PEND, F.PWR_STATUS_PHASE,
      F.PWR_STATUS_STATE, F.PWR_WAKE_SRC, F.PWR_WAKE_MERGED, F.PWR_RES, F.PWR_ENTRIES, F.MSIX_PBA],
    parts := [.warp, .skein, .treadles, .trig, .sched, .host, .power, .sram, .dram, .dlm, .freeCtr] }

def Touches.captureEnd : Touch :=
  { regs := [F.WARP_STATUS_RATE_CLAMPED, F.WARP_STATUS_SLEW_ACTIVE, F.SLEW_NS, F.TR_EVENT_SPAWN_DROP,
      F.SK_STATUS_BURST_FREE_KIB, F.SK_EVENT, F.SKS_SEQ, F.SKS_STATUS_RESIDENT, F.SKS_OVERWRITE, F.CS_STATUS_STATE,
      F.CS_EVENT, F.LOOM_EVENT, F.LOOM_EVT_OVF, F.LOOM_OVF_ROUTE, F.SCHED_STATUS_FREE_SLOTS,
      F.SCHED_STATUS_INFLIGHT, F.SCHED_EVENT, F.SCHED_DISPATCH_CNT, F.SCHED_EVT_UNBOUND_CNT,
      F.SCHED_TEMPLATE_MISS_CNT, F.PS_USED, F.HQ_DEPTH, F.HQ_MAXDEPTH, F.HQ_PUSH_CNT, F.HQ_BUSY_CNT,
      F.SH_STATUS_STATE, F.SH_STATUS_SLOT, F.SH_LOAD, F.LVL_RDY_DEPTH, F.LVL_WAIT_AVG, F.LVL_HIST,
      F.FLOW_STATE_IN_SERVICE, F.FLOW_STATE_PENDING, F.PWR_STATUS_WAKE_PEND, F.PWR_STATUS_PHASE,
      F.PWR_STATUS_STATE, F.PWR_WAKE_SRC, F.PWR_WAKE_MERGED, F.PWR_RES, F.PWR_ENTRIES, F.MSIX_PBA],
    parts := [.warp, .skein, .treadles, .trig, .sched, .host, .power, .sram, .dram, .dlm, .freeCtr] }

def Touches.captureSlotDone : Touch :=
  { regs := [F.WARP_STATUS_RATE_CLAMPED, F.WARP_STATUS_SLEW_ACTIVE, F.SLEW_NS, F.TR_EVENT_SPAWN_DROP,
      F.SK_STATUS_BURST_FREE_KIB, F.SK_EVENT, F.SKS_SEQ, F.SKS_STATUS_RESIDENT, F.SKS_OVERWRITE, F.CS_STATUS_STATE,
      F.CS_EVENT, F.CS_CAP_SEQ, F.CS_PRE_BYTES, F.POOL_FREE, F.LOOM_EVENT, F.LOOM_EVT_OVF, F.LOOM_OVF_ROUTE,
      F.SCHED_STATUS_FREE_SLOTS, F.SCHED_STATUS_INFLIGHT, F.SCHED_EVENT, F.SCHED_DISPATCH_CNT,
      F.SCHED_EVT_UNBOUND_CNT, F.SCHED_TEMPLATE_MISS_CNT, F.PS_USED, F.HQ_DEPTH, F.HQ_MAXDEPTH, F.HQ_PUSH_CNT,
      F.HQ_BUSY_CNT, F.SH_STATUS_STATE, F.SH_STATUS_SLOT, F.SH_LOAD, F.LVL_RDY_DEPTH, F.LVL_WAIT_AVG, F.LVL_HIST,
      F.FLOW_STATE_IN_SERVICE, F.FLOW_STATE_PENDING, F.PWR_STATUS_WAKE_PEND, F.PWR_STATUS_PHASE,
      F.PWR_STATUS_STATE, F.PWR_WAKE_SRC, F.PWR_WAKE_MERGED, F.PWR_RES, F.PWR_ENTRIES, F.MSIX_PBA],
    parts := [.warp, .skein, .treadles, .trig, .sched, .host, .power, .sram, .dram, .dlm, .freeCtr] }

def Touches.csConsumedWrite : Touch :=
  { regs := [F.WARP_STATUS_RATE_CLAMPED, F.WARP_STATUS_SLEW_ACTIVE, F.SLEW_NS, F.SK_STATUS_BURST_FREE_KIB, F.SK_EVENT,
      F.SKS_SEQ, F.SKS_STATUS_RESIDENT, F.SKS_OVERWRITE, F.CS_STATUS_STATE, F.CS_EVENT, F.CS_CONSUMED, F.TD_EVENT,
      F.SYS_DISCARD_REASON, F.SYS_DISCARD_OFFSET, F.SYS_DISCARD_CNT, F.MBX_STATE_COMP, F.PV_SEQ, F.MSIX_PBA],
    parts := [.warp, .skein, .trig, .tandem, .host, .answer, .dram, .freeCtr] }

def Touches.chunkAck : Touch :=
  { regs := [F.WARP_STATUS_RATE_CLAMPED, F.WARP_STATUS_SLEW_ACTIVE, F.SLEW_NS, F.CS_CHUNK_ACK, F.TD_EVENT,
      F.SYS_DISCARD_REASON, F.SYS_DISCARD_OFFSET, F.SYS_DISCARD_CNT, F.MBX_STATE_COMP, F.PV_SEQ, F.MSIX_PBA],
    parts := [.warp, .trig, .tandem, .host, .answer, .dram] }

def Touches.loadEnvelope : Touch :=
  { regs := [F.WARP_STATUS_RATE_CLAMPED, F.WARP_STATUS_SLEW_ACTIVE, F.SLEW_NS, F.ENV_LOAD, F.TD_EVENT, F.HOST_EVENT,
      F.MBX_STATE_COMP, F.PV_SEQ, F.MSIX_PBA],
    parts := [.warp, .trig, .tandem, .host, .answer, .dram] }

def Touches.muArm : Touch :=
  { regs := [F.WARP_STATUS_RATE_CLAMPED, F.WARP_STATUS_SLEW_ACTIVE, F.SLEW_NS, F.SK_STATUS_BURST_FREE_KIB, F.SK_EVENT,
      F.SKS_SEQ, F.SKS_STATUS_RESIDENT, F.SKS_OVERWRITE, F.MU_EVENT, F.TD_EVENT, F.SYS_DISCARD_REASON,
      F.SYS_DISCARD_OFFSET, F.SYS_DISCARD_CNT, F.MBX_STATE_COMP, F.PV_SEQ, F.MSIX_PBA],
    parts := [.warp, .skein, .trig, .tandem, .host, .answer, .dram] }

def Touches.muDisarm : Touch :=
  { regs := [F.WARP_STATUS_RATE_CLAMPED, F.WARP_STATUS_SLEW_ACTIVE, F.SLEW_NS, F.SK_STATUS_BURST_FREE_KIB, F.SK_EVENT,
      F.SKS_SEQ, F.SKS_STATUS_RESIDENT, F.SKS_OVERWRITE, F.MU_STATUS_STATE, F.MU_EVENT, F.TD_EVENT,
      F.SYS_DISCARD_REASON, F.SYS_DISCARD_OFFSET, F.SYS_DISCARD_CNT, F.MBX_STATE_COMP, F.PV_SEQ, F.MSIX_PBA],
    parts := [.warp, .skein, .trig, .tandem, .host, .answer, .dram] }

def Touches.pointFetchDone : Touch :=
  { regs := [F.WARP_STATUS_RATE_CLAMPED, F.WARP_STATUS_SLEW_ACTIVE, F.SLEW_NS, F.SK_STATUS_BURST_FREE_KIB, F.SK_EVENT,
      F.SKS_SEQ, F.SKS_STATUS_RESIDENT, F.SKS_OVERWRITE, F.MU_STATUS_VIOL_RUN, F.MU_STATUS_ENV_NOW,
      F.MU_STATUS_STATE, F.MU_EVENT, F.MU_A],
    parts := [.warp, .skein, .trig] }

def Touches.muSample : Touch :=
  { regs := [F.WARP_STATUS_RATE_CLAMPED, F.WARP_STATUS_SLEW_ACTIVE, F.SLEW_NS, F.TR_STATUS_PAUSE_CAUSE, F.TR_STATUS_STATE,
      F.TR_EVENT_SPAWN_DROP, F.TR_COND, F.PG_STATUS_HELD, F.SK_STATUS_BURST_FREE_KIB, F.SK_EVENT, F.SKS_SEQ,
      F.SKS_STATUS_RESIDENT, F.SKS_OVERWRITE, F.TS_EVENT, F.TS_WORD, F.TS_MISSED, F.TS_TRIG, F.CS_STATUS_STATE,
      F.CS_EVENT, F.CS_CHUNK_ACK, F.MU_STATUS_VIOL_RUN, F.MU_STATUS_ENV_NOW, F.MU_STATUS_STATE, F.MU_EVENT, F.MU_A,
      F.MU_VIOL_CNT, F.MU_UNTESTED, F.MU_LAST_V, F.LOOM_EVENT, F.LOOM_EVT_OVF, F.LOOM_OVF_ROUTE, F.ODO_OUT,
      F.ODO_OUT_SAT, F.SCHED_STATUS_FREE_SLOTS, F.SCHED_STATUS_INFLIGHT, F.SCHED_EVENT, F.SCHED_DISPATCH_CNT,
      F.SCHED_EVT_UNBOUND_CNT, F.SCHED_TEMPLATE_MISS_CNT, F.PS_USED, F.HQ_DEPTH, F.HQ_MAXDEPTH, F.HQ_PUSH_CNT,
      F.HQ_BUSY_CNT, F.SH_STATUS_STATE, F.SH_STATUS_SLOT, F.SH_LOAD, F.LVL_RDY_DEPTH, F.LVL_WAIT_AVG, F.LVL_HIST,
      F.FLOW_STATE_IN_SERVICE, F.FLOW_STATE_PENDING, F.PWR_STATUS_WAKE_PEND, F.PWR_STATUS_PHASE,
      F.PWR_STATUS_STATE, F.PWR_WAKE_SRC, F.PWR_WAKE_MERGED, F.PWR_RES, F.PWR_ENTRIES, F.MSIX_PBA],
    parts := [.warp, .skein, .fio, .treadles, .trig, .loom, .sched, .host, .power, .sram, .dram, .dlm, .freeCtr] }

def Touches.fioInputEdge : Touch :=
  { regs := [F.WARP_STATUS_RATE_CLAMPED, F.WARP_STATUS_SLEW_ACTIVE, F.SLEW_NS, F.TR_EVENT_SPAWN_DROP, F.TR_COND,
      F.SK_STATUS_BURST_FREE_KIB, F.SK_EVENT, F.SKS_SEQ, F.SKS_STATUS_RESIDENT, F.SKS_OVERWRITE, F.CS_STATUS_STATE,
      F.CS_EVENT, F.LOOM_EVENT, F.LOOM_EVT_OVF, F.LOOM_OVF_ROUTE, F.ODO_OUT, F.ODO_OUT_SAT,
      F.SCHED_STATUS_FREE_SLOTS, F.SCHED_STATUS_INFLIGHT, F.SCHED_EVENT, F.SCHED_DISPATCH_CNT,
      F.SCHED_EVT_UNBOUND_CNT, F.SCHED_TEMPLATE_MISS_CNT, F.PS_USED, F.HQ_DEPTH, F.HQ_MAXDEPTH, F.HQ_PUSH_CNT,
      F.HQ_BUSY_CNT, F.SH_STATUS_STATE, F.SH_STATUS_SLOT, F.SH_LOAD, F.LVL_RDY_DEPTH, F.LVL_WAIT_AVG, F.LVL_HIST,
      F.FLOW_STATE_IN_SERVICE, F.FLOW_STATE_PENDING, F.PWR_STATUS_WAKE_PEND, F.PWR_STATUS_PHASE,
      F.PWR_STATUS_STATE, F.PWR_WAKE_SRC, F.PWR_WAKE_MERGED, F.PWR_RES, F.PWR_ENTRIES, F.MSIX_PBA],
    parts := [.warp, .skein, .fio, .treadles, .axes, .trig, .loom, .sched, .host, .power, .sram, .dram, .dlm, .freeCtr] }

def Touches.filterTake : Touch :=
  { regs := [F.WARP_STATUS_RATE_CLAMPED, F.WARP_STATUS_SLEW_ACTIVE, F.SLEW_NS, F.TR_EVENT_SPAWN_DROP, F.TR_COND,
      F.SK_STATUS_BURST_FREE_KIB, F.SK_EVENT, F.SKS_SEQ, F.SKS_STATUS_RESIDENT, F.SKS_OVERWRITE, F.CS_STATUS_STATE,
      F.CS_EVENT, F.LOOM_EVENT, F.LOOM_EVT_OVF, F.LOOM_OVF_ROUTE, F.ODO_OUT, F.ODO_OUT_SAT,
      F.SCHED_STATUS_FREE_SLOTS, F.SCHED_STATUS_INFLIGHT, F.SCHED_EVENT, F.SCHED_DISPATCH_CNT,
      F.SCHED_EVT_UNBOUND_CNT, F.SCHED_TEMPLATE_MISS_CNT, F.PS_USED, F.HQ_DEPTH, F.HQ_MAXDEPTH, F.HQ_PUSH_CNT,
      F.HQ_BUSY_CNT, F.SH_STATUS_STATE, F.SH_STATUS_SLOT, F.SH_LOAD, F.LVL_RDY_DEPTH, F.LVL_WAIT_AVG, F.LVL_HIST,
      F.FLOW_STATE_IN_SERVICE, F.FLOW_STATE_PENDING, F.PWR_STATUS_WAKE_PEND, F.PWR_STATUS_PHASE,
      F.PWR_STATUS_STATE, F.PWR_WAKE_SRC, F.PWR_WAKE_MERGED, F.PWR_RES, F.PWR_ENTRIES, F.MSIX_PBA],
    parts := [.warp, .skein, .fio, .treadles, .axes, .trig, .loom, .sched, .host, .power, .sram, .dram, .dlm, .freeCtr] }

def Touches.leInputChange : Touch :=
  { regs := [F.WARP_STATUS_RATE_CLAMPED, F.WARP_STATUS_SLEW_ACTIVE, F.SLEW_NS, F.TR_EVENT_SPAWN_DROP, F.TR_COND,
      F.SK_STATUS_BURST_FREE_KIB, F.SK_EVENT, F.SKS_SEQ, F.SKS_STATUS_RESIDENT, F.SKS_OVERWRITE, F.CS_STATUS_STATE,
      F.CS_EVENT, F.LOOM_EVENT, F.LOOM_EVT_OVF, F.LOOM_OVF_ROUTE, F.ODO_OUT, F.ODO_OUT_SAT, F.LE_NET,
      F.SCHED_STATUS_FREE_SLOTS, F.SCHED_STATUS_INFLIGHT, F.SCHED_EVENT, F.SCHED_DISPATCH_CNT,
      F.SCHED_EVT_UNBOUND_CNT, F.SCHED_TEMPLATE_MISS_CNT, F.PS_USED, F.HQ_DEPTH, F.HQ_MAXDEPTH, F.HQ_PUSH_CNT,
      F.HQ_BUSY_CNT, F.SH_STATUS_STATE, F.SH_STATUS_SLOT, F.SH_LOAD, F.LVL_RDY_DEPTH, F.LVL_WAIT_AVG, F.LVL_HIST,
      F.FLOW_STATE_IN_SERVICE, F.FLOW_STATE_PENDING, F.PWR_STATUS_WAKE_PEND, F.PWR_STATUS_PHASE,
      F.PWR_STATUS_STATE, F.PWR_WAKE_SRC, F.PWR_WAKE_MERGED, F.PWR_RES, F.PWR_ENTRIES, F.MSIX_PBA],
    parts := [.warp, .skein, .fio, .treadles, .trig, .loom, .sched, .host, .power, .sram, .dram, .dlm, .freeCtr] }

def Touches.leTimerExpiry : Touch :=
  { regs := [F.WARP_STATUS_RATE_CLAMPED, F.WARP_STATUS_SLEW_ACTIVE, F.SLEW_NS, F.TR_EVENT_SPAWN_DROP, F.TR_COND,
      F.SK_STATUS_BURST_FREE_KIB, F.SK_EVENT, F.SKS_SEQ, F.SKS_STATUS_RESIDENT, F.SKS_OVERWRITE, F.CS_STATUS_STATE,
      F.CS_EVENT, F.LOOM_EVENT, F.LOOM_EVT_OVF, F.LOOM_OVF_ROUTE, F.ODO_OUT, F.ODO_OUT_SAT, F.LE_NET,
      F.SCHED_STATUS_FREE_SLOTS, F.SCHED_STATUS_INFLIGHT, F.SCHED_EVENT, F.SCHED_DISPATCH_CNT,
      F.SCHED_EVT_UNBOUND_CNT, F.SCHED_TEMPLATE_MISS_CNT, F.PS_USED, F.HQ_DEPTH, F.HQ_MAXDEPTH, F.HQ_PUSH_CNT,
      F.HQ_BUSY_CNT, F.SH_STATUS_STATE, F.SH_STATUS_SLOT, F.SH_LOAD, F.LVL_RDY_DEPTH, F.LVL_WAIT_AVG, F.LVL_HIST,
      F.FLOW_STATE_IN_SERVICE, F.FLOW_STATE_PENDING, F.PWR_STATUS_WAKE_PEND, F.PWR_STATUS_PHASE,
      F.PWR_STATUS_STATE, F.PWR_WAKE_SRC, F.PWR_WAKE_MERGED, F.PWR_RES, F.PWR_ENTRIES, F.MSIX_PBA],
    parts := [.warp, .skein, .fio, .treadles, .trig, .loom, .sched, .host, .power, .sram, .dram, .dlm, .freeCtr] }

def Touches.eventRouteEvent : Touch :=
  { regs := [F.WARP_STATUS_RATE_CLAMPED, F.WARP_STATUS_SLEW_ACTIVE, F.SLEW_NS, F.TR_EVENT_SPAWN_DROP, F.TR_COND,
      F.SK_STATUS_BURST_FREE_KIB, F.SK_EVENT, F.SKS_SEQ, F.SKS_STATUS_RESIDENT, F.SKS_OVERWRITE, F.CS_STATUS_STATE,
      F.CS_EVENT, F.LOOM_EVENT, F.LOOM_EVT_OVF, F.LOOM_OVF_ROUTE, F.SCHED_STATUS_FREE_SLOTS,
      F.SCHED_STATUS_INFLIGHT, F.SCHED_EVENT, F.SCHED_DISPATCH_CNT, F.SCHED_EVT_UNBOUND_CNT,
      F.SCHED_TEMPLATE_MISS_CNT, F.PS_USED, F.HQ_DEPTH, F.HQ_MAXDEPTH, F.HQ_PUSH_CNT, F.HQ_BUSY_CNT,
      F.SH_STATUS_STATE, F.SH_STATUS_SLOT, F.SH_LOAD, F.LVL_RDY_DEPTH, F.LVL_WAIT_AVG, F.LVL_HIST,
      F.FLOW_STATE_IN_SERVICE, F.FLOW_STATE_PENDING, F.PWR_STATUS_WAKE_PEND, F.PWR_STATUS_PHASE,
      F.PWR_STATUS_STATE, F.PWR_WAKE_SRC, F.PWR_WAKE_MERGED, F.PWR_RES, F.PWR_ENTRIES, F.MSIX_PBA],
    parts := [.warp, .skein, .treadles, .trig, .sched, .host, .power, .sram, .dram, .dlm, .freeCtr] }

def Touches.routeStall : Touch :=
  { regs := [F.WARP_STATUS_RATE_CLAMPED, F.WARP_STATUS_SLEW_ACTIVE, F.SLEW_NS, F.LC_STATUS_SHADOW_VALID,
      F.TR_STATUS_STAGE_STATE, F.TR_STATUS_PAUSE_CAUSE, F.TR_STATUS_DEFERRED, F.TR_STATUS_STATE,
      F.TR_EVENT_SPAWN_DROP, F.TR_EVENT_ABORT_IGNORED, F.TR_EVENT_CANCELLED, F.TR_STEPS_STAGED_STEP, F.TR_NEXT,
      F.TR_DECIDE_END_IDX, F.TR_DECIDE_DECIDED, F.TR_CANCEL_CNT, F.PG_STATUS_HELD, F.PG_SHADOW_TARGET,
      F.PG_SHADOW_VMAX, F.PG_SHADOW_WIN_M2, F.PG_SHADOW_WIN_M1, F.SK_STATUS_BURST_FREE_KIB, F.SK_EVENT, F.SKS_SEQ,
      F.SKS_STATUS_RESIDENT, F.SKS_OVERWRITE, F.LOOM_EVENT, F.LOOM_STALL_SRC_KIND, F.LOOM_STALL_SRC_ID,
      F.LOOM_EVT_OVF, F.LOOM_OVF_ROUTE, F.ODO_OUT, F.ODO_OUT_SAT, F.VR_VALUE, F.SCHED_STATUS_FREE_SLOTS,
      F.SCHED_STATUS_INFLIGHT, F.SCHED_EVENT, F.SCHED_DISPATCH_CNT, F.SCHED_CANCEL_CNT, F.SCHED_CANCEL_LATE_CNT,
      F.SCHED_POISON_CNT, F.SCHED_EVT_UNBOUND_CNT, F.SCHED_TEMPLATE_MISS_CNT, F.PS_USED, F.PS_HELD, F.HQ_DEPTH,
      F.HQ_MAXDEPTH, F.HQ_PUSH_CNT, F.HQ_BUSY_CNT, F.SH_STATUS_STATE, F.SH_STATUS_SLOT, F.SH_LOAD, F.LVL_RDY_DEPTH,
      F.LVL_WAIT_AVG, F.LVL_HIST, F.FLOW_STATE_HELD, F.FLOW_STATE_IN_SERVICE, F.FLOW_STATE_HELD_CAUSE,
      F.FLOW_STATE_PENDING, F.CP_STATUS_STOP_CAUSE, F.CP_STATUS_STATE, F.CP_EVENT, F.CP_STOP_T,
      F.PWR_STATUS_WAKE_PEND, F.PWR_STATUS_LOOM_ON, F.PWR_STATUS_PHASE, F.PWR_STATUS_TARGET, F.PWR_STATUS_STATE,
      F.PWR_WAKE_SRC, F.PWR_WAKE_MERGED, F.PWR_RES, F.PWR_ENTRIES, F.SYS_FAULT, F.SYS_FAULT_LAST, F.SYS_FAULT_T,
      F.MSIX_PBA],
    parts := [.warp, .skein, .cells, .fio, .treadles, .gens, .loom, .sched, .cyc, .host, .power, .rings, .sram, .dram, .dlm, .freeCtr] }

def Touches.configScan : Touch :=
  { regs := [F.WARP_STATUS_RATE_CLAMPED, F.WARP_STATUS_SLEW_ACTIVE, F.SLEW_NS, F.LC_STATUS_SHADOW_VALID,
      F.TR_STATUS_STAGE_STATE, F.TR_STATUS_PAUSE_CAUSE, F.TR_STATUS_DEFERRED, F.TR_STATUS_STATE,
      F.TR_EVENT_SPAWN_DROP, F.TR_EVENT_ABORT_IGNORED, F.TR_EVENT_CANCELLED, F.TR_STEPS_STAGED_STEP, F.TR_NEXT,
      F.TR_DECIDE_END_IDX, F.TR_DECIDE_DECIDED, F.TR_CANCEL_CNT, F.PG_STATUS_HELD, F.PG_SHADOW_TARGET,
      F.PG_SHADOW_VMAX, F.PG_SHADOW_WIN_M2, F.PG_SHADOW_WIN_M1, F.SK_STATUS_BURST_FREE_KIB, F.SK_EVENT, F.SKS_SEQ,
      F.SKS_STATUS_RESIDENT, F.SKS_OVERWRITE, F.LOOM_EVENT, F.LOOM_SCAN_ERR, F.LOOM_REPAIRS, F.LOOM_EVT_OVF,
      F.LOOM_OVF_ROUTE, F.LP_STATUS_FRAME_LOST, F.LP_EVENT, F.ODO_OUT, F.ODO_OUT_SAT, F.VR_VALUE,
      F.SCHED_STATUS_FREE_SLOTS, F.SCHED_STATUS_INFLIGHT, F.SCHED_EVENT, F.SCHED_DISPATCH_CNT, F.SCHED_CANCEL_CNT,
      F.SCHED_CANCEL_LATE_CNT, F.SCHED_POISON_CNT, F.SCHED_EVT_UNBOUND_CNT, F.SCHED_TEMPLATE_MISS_CNT, F.PS_USED,
      F.PS_HELD, F.HQ_DEPTH, F.HQ_MAXDEPTH, F.HQ_PUSH_CNT, F.HQ_BUSY_CNT, F.SH_STATUS_STATE, F.SH_STATUS_SLOT,
      F.SH_LOAD, F.LVL_RDY_DEPTH, F.LVL_WAIT_AVG, F.LVL_HIST, F.FLOW_STATE_HELD, F.FLOW_STATE_IN_SERVICE,
      F.FLOW_STATE_HELD_CAUSE, F.FLOW_STATE_PENDING, F.CP_STATUS_STOP_CAUSE, F.CP_STATUS_STATE, F.CP_EVENT,
      F.CP_STOP_T, F.PWR_STATUS_WAKE_PEND, F.PWR_STATUS_LOOM_ON, F.PWR_STATUS_PHASE, F.PWR_STATUS_TARGET,
      F.PWR_STATUS_STATE, F.PWR_WAKE_SRC, F.PWR_WAKE_MERGED, F.PWR_RES, F.PWR_ENTRIES, F.SYS_FAULT,
      F.SYS_FAULT_LAST, F.SYS_FAULT_T, F.MSIX_PBA],
    parts := [.warp, .skein, .cells, .fio, .treadles, .gens, .loom, .sched, .cyc, .host, .power, .rings, .sram, .dram, .dlm, .freeCtr] }

def Touches.configFieldWrite : Touch :=
  { anyReg := true, parts := [.warp, .loom, .tandem, .host, .answer, .dram, .freeCtr] }

def Touches.editCommit : Touch :=
  { regs := [F.WARP_STATUS_RATE_CLAMPED, F.WARP_STATUS_SLEW_ACTIVE, F.SLEW_NS, F.LP_EVENT, F.TD_EVENT,
      F.SYS_DISCARD_REASON, F.SYS_DISCARD_OFFSET, F.SYS_DISCARD_CNT, F.MBX_STATE_COMP, F.PV_SEQ, F.MSIX_PBA],
    parts := [.warp, .loom, .tandem, .host, .answer, .dram] }

def Touches.editDiscard : Touch :=
  { regs := [F.WARP_STATUS_RATE_CLAMPED, F.WARP_STATUS_SLEW_ACTIVE, F.SLEW_NS, F.LP_STATUS_EDITS_PENDING, F.TD_EVENT,
      F.SYS_DISCARD_REASON, F.SYS_DISCARD_OFFSET, F.SYS_DISCARD_CNT, F.MBX_STATE_COMP, F.PV_SEQ, F.MSIX_PBA],
    parts := [.warp, .loom, .tandem, .host, .answer, .dram] }

def Touches.planeFlip : Touch :=
  { anyReg := true,
    parts := [.warp, .skein, .cells, .fio, .treadles, .gens, .trig, .loom, .sched, .host, .power, .sram, .dram, .dlm, .freeCtr] }

def Touches.loadDraft : Touch :=
  { regs := [F.WARP_STATUS_RATE_CLAMPED, F.WARP_STATUS_SLEW_ACTIVE, F.SLEW_NS, F.LP_LIBRARY_STAGE_KIB, F.LP_LIBRARY_STALE,
      F.LP_LIBRARY_VALID, F.DS_STATE_RESULT, F.DS_STATE_STATE, F.DS_VERSION, F.DS_SIZE_FRAMES, F.DS_SIZE_UNITS16,
      F.DS_NAME, F.TD_EVENT, F.HOST_EVENT, F.MBX_STATE_COMP, F.PV_SEQ, F.MSIX_PBA],
    parts := [.warp, .loom, .tandem, .host, .answer, .dram] }

def Touches.apply : Touch :=
  { regs := [F.WARP_STATUS_RATE_CLAMPED, F.WARP_STATUS_SLEW_ACTIVE, F.SLEW_NS, F.SK_STATUS_BURST_FREE_KIB, F.SK_EVENT,
      F.SKS_SEQ, F.SKS_STATUS_RESIDENT, F.SKS_OVERWRITE, F.LP_CTRL_SLOT, F.LP_STATUS_RESULT,
      F.LP_STATUS_APPLY_STATE, F.LP_STATUS_EDITS_PENDING, F.LP_EVENT, F.LP_EDIT_DROP, F.ODO_OUT, F.ODO_OUT_SAT,
      F.TD_EVENT, F.PWR_STATUS_WAKE_PEND, F.PWR_STATUS_PHASE, F.PWR_WAKE_SRC, F.PWR_WAKE_MERGED,
      F.SYS_DISCARD_REASON, F.SYS_DISCARD_OFFSET, F.SYS_DISCARD_CNT, F.MBX_STATE_COMP, F.PV_SEQ, F.MSIX_PBA],
    parts := [.warp, .skein, .fio, .loom, .tandem, .host, .answer, .power, .dram] }

def Touches.applyStaged : Touch :=
  { regs := [F.WARP_STATUS_RATE_CLAMPED, F.WARP_STATUS_SLEW_ACTIVE, F.SLEW_NS, F.SK_STATUS_BURST_FREE_KIB, F.SK_EVENT,
      F.SKS_SEQ, F.SKS_STATUS_RESIDENT, F.SKS_OVERWRITE, F.LP_STATUS_RESULT, F.LP_STATUS_APPLY_STATE, F.LP_EVENT,
      F.LP_APPLY_AVG, F.ODO_OUT, F.ODO_OUT_SAT],
    parts := [.warp, .skein, .fio, .loom] }

def Touches.journalWriteDone : Touch :=
  { regs := [F.WARP_STATUS_RATE_CLAMPED, F.WARP_STATUS_SLEW_ACTIVE, F.SLEW_NS, F.SK_STATUS_BURST_FREE_KIB, F.SK_EVENT,
      F.SKS_SEQ, F.SKS_STATUS_RESIDENT, F.SKS_OVERWRITE, F.LP_STATUS_RESULT, F.LP_STATUS_ACTIVE,
      F.LP_STATUS_APPLY_STATE, F.LP_EVENT, F.LP_JSEQ, F.ODO_OUT, F.ODO_OUT_SAT],
    parts := [.warp, .skein, .fio, .loom] }

def Touches.qsub : Touch :=
  { regs := [F.WARP_STATUS_RATE_CLAMPED, F.WARP_STATUS_SLEW_ACTIVE, F.SLEW_NS, F.TR_EVENT_SPAWN_DROP,
      F.SK_STATUS_BURST_FREE_KIB, F.SK_EVENT, F.SKS_SEQ, F.SKS_STATUS_RESIDENT, F.SKS_OVERWRITE, F.LOOM_EVENT,
      F.LOOM_EVT_OVF, F.LOOM_OVF_ROUTE, F.SCHED_STATUS_FREE_SLOTS, F.SCHED_STATUS_INFLIGHT, F.SCHED_EVENT,
      F.SCHED_DISPATCH_CNT, F.SCHED_POISON_CNT, F.SCHED_EVT_UNBOUND_CNT, F.SCHED_TEMPLATE_MISS_CNT, F.PS_USED,
      F.PS_BUSY_CNT, F.PS_HELD, F.HQ_DEPTH, F.HQ_MAXDEPTH, F.HQ_PUSH_CNT, F.HQ_BUSY_CNT, F.SH_STATUS_STATE,
      F.SH_STATUS_SLOT, F.SH_LOAD, F.LVL_RDY_DEPTH, F.LVL_WAIT_AVG, F.LVL_HIST, F.FLOW_STATE_HELD,
      F.FLOW_STATE_IN_SERVICE, F.FLOW_STATE_HELD_CAUSE, F.FLOW_STATE_PENDING, F.PWR_STATUS_WAKE_PEND,
      F.PWR_STATUS_PHASE, F.PWR_STATUS_STATE, F.PWR_WAKE_SRC, F.PWR_WAKE_MERGED, F.PWR_RES, F.PWR_ENTRIES,
      F.MSIX_PBA],
    parts := [.warp, .skein, .treadles, .sched, .host, .power, .sram, .dram, .dlm, .freeCtr] }

def Touches.qcan : Touch :=
  { regs := [F.WARP_STATUS_RATE_CLAMPED, F.WARP_STATUS_SLEW_ACTIVE, F.SLEW_NS, F.TR_EVENT_SPAWN_DROP,
      F.SK_STATUS_BURST_FREE_KIB, F.SK_EVENT, F.SKS_SEQ, F.SKS_STATUS_RESIDENT, F.SKS_OVERWRITE, F.LOOM_EVENT,
      F.LOOM_EVT_OVF, F.LOOM_OVF_ROUTE, F.SCHED_STATUS_FREE_SLOTS, F.SCHED_STATUS_INFLIGHT, F.SCHED_EVENT,
      F.SCHED_DISPATCH_CNT, F.SCHED_CANCEL_CNT, F.SCHED_CANCEL_LATE_CNT, F.SCHED_POISON_CNT,
      F.SCHED_EVT_UNBOUND_CNT, F.SCHED_TEMPLATE_MISS_CNT, F.PS_USED, F.PS_HELD, F.HQ_DEPTH, F.HQ_MAXDEPTH,
      F.HQ_PUSH_CNT, F.HQ_BUSY_CNT, F.SH_STATUS_STATE, F.SH_STATUS_SLOT, F.SH_LOAD, F.LVL_RDY_DEPTH,
      F.LVL_WAIT_AVG, F.LVL_HIST, F.FLOW_STATE_HELD, F.FLOW_STATE_IN_SERVICE, F.FLOW_STATE_HELD_CAUSE,
      F.FLOW_STATE_PENDING, F.PWR_STATUS_WAKE_PEND, F.PWR_STATUS_PHASE, F.PWR_STATUS_STATE, F.PWR_WAKE_SRC,
      F.PWR_WAKE_MERGED, F.PWR_RES, F.PWR_ENTRIES, F.MSIX_PBA],
    parts := [.warp, .skein, .treadles, .sched, .host, .power, .sram, .dram, .dlm, .freeCtr] }

def Touches.qpush : Touch :=
  { regs := [F.WARP_STATUS_RATE_CLAMPED, F.WARP_STATUS_SLEW_ACTIVE, F.SLEW_NS, F.TR_EVENT_SPAWN_DROP,
      F.SK_STATUS_BURST_FREE_KIB, F.SK_EVENT, F.SKS_SEQ, F.SKS_STATUS_RESIDENT, F.SKS_OVERWRITE, F.LOOM_EVENT,
      F.LOOM_EVT_OVF, F.LOOM_OVF_ROUTE, F.SCHED_STATUS_FREE_SLOTS, F.SCHED_STATUS_INFLIGHT, F.SCHED_EVENT,
      F.SCHED_DISPATCH_CNT, F.SCHED_POISON_CNT, F.SCHED_EVT_UNBOUND_CNT, F.SCHED_TEMPLATE_MISS_CNT, F.PS_USED,
      F.PS_BUSY_CNT, F.PS_HELD, F.HQ_DEPTH, F.HQ_MAXDEPTH, F.HQ_PUSH_CNT, F.HQ_BUSY_CNT, F.SH_STATUS_STATE,
      F.SH_STATUS_SLOT, F.SH_LOAD, F.LVL_RDY_DEPTH, F.LVL_WAIT_AVG, F.LVL_HIST, F.FLOW_STATE_HELD,
      F.FLOW_STATE_IN_SERVICE, F.FLOW_STATE_HELD_CAUSE, F.FLOW_STATE_PENDING, F.PWR_STATUS_WAKE_PEND,
      F.PWR_STATUS_PHASE, F.PWR_STATUS_STATE, F.PWR_WAKE_SRC, F.PWR_WAKE_MERGED, F.PWR_RES, F.PWR_ENTRIES,
      F.MSIX_PBA],
    parts := [.warp, .skein, .treadles, .sched, .host, .power, .sram, .dram, .dlm, .freeCtr] }

def Touches.qpop : Touch :=
  { regs := [F.WARP_STATUS_RATE_CLAMPED, F.WARP_STATUS_SLEW_ACTIVE, F.SLEW_NS, F.TR_EVENT_SPAWN_DROP,
      F.SK_STATUS_BURST_FREE_KIB, F.SK_EVENT, F.SKS_SEQ, F.SKS_STATUS_RESIDENT, F.SKS_OVERWRITE, F.LOOM_EVENT,
      F.LOOM_EVT_OVF, F.LOOM_OVF_ROUTE, F.SCHED_STATUS_FREE_SLOTS, F.SCHED_STATUS_INFLIGHT, F.SCHED_EVENT,
      F.SCHED_DISPATCH_CNT, F.SCHED_POISON_CNT, F.SCHED_EVT_UNBOUND_CNT, F.SCHED_TEMPLATE_MISS_CNT, F.PS_USED,
      F.PS_BUSY_CNT, F.PS_HELD, F.HQ_DEPTH, F.HQ_MAXDEPTH, F.HQ_PUSH_CNT, F.HQ_BUSY_CNT, F.SH_STATUS_STATE,
      F.SH_STATUS_SLOT, F.SH_LOAD, F.LVL_RDY_DEPTH, F.LVL_WAIT_AVG, F.LVL_HIST, F.FLOW_STATE_HELD,
      F.FLOW_STATE_IN_SERVICE, F.FLOW_STATE_HELD_CAUSE, F.FLOW_STATE_PENDING, F.PWR_STATUS_WAKE_PEND,
      F.PWR_STATUS_PHASE, F.PWR_STATUS_STATE, F.PWR_WAKE_SRC, F.PWR_WAKE_MERGED, F.PWR_RES, F.PWR_ENTRIES,
      F.MSIX_PBA],
    parts := [.warp, .skein, .treadles, .sched, .host, .power, .sram, .dram, .dlm, .freeCtr] }

def Touches.qdone : Touch :=
  { regs := [F.WARP_STATUS_RATE_CLAMPED, F.WARP_STATUS_SLEW_ACTIVE, F.SLEW_NS, F.TR_EVENT_SPAWN_DROP,
      F.SK_STATUS_BURST_FREE_KIB, F.SK_EVENT, F.SKS_SEQ, F.SKS_STATUS_RESIDENT, F.SKS_OVERWRITE, F.LOOM_EVENT,
      F.LOOM_EVT_OVF, F.LOOM_OVF_ROUTE, F.SCHED_STATUS_FREE_SLOTS, F.SCHED_STATUS_INFLIGHT, F.SCHED_EVENT,
      F.SCHED_DISPATCH_CNT, F.SCHED_POISON_CNT, F.SCHED_EVT_UNBOUND_CNT, F.SCHED_TEMPLATE_MISS_CNT, F.PS_USED,
      F.PS_HELD, F.HQ_DEPTH, F.HQ_MAXDEPTH, F.HQ_PUSH_CNT, F.HQ_BUSY_CNT, F.SH_STATUS_STATE, F.SH_STATUS_SLOT,
      F.SH_LOAD, F.LVL_RDY_DEPTH, F.LVL_WAIT_AVG, F.LVL_HIST, F.FLOW_STATE_HELD, F.FLOW_STATE_IN_SERVICE,
      F.FLOW_STATE_HELD_CAUSE, F.FLOW_STATE_PENDING, F.PWR_STATUS_WAKE_PEND, F.PWR_STATUS_PHASE,
      F.PWR_STATUS_STATE, F.PWR_WAKE_SRC, F.PWR_WAKE_MERGED, F.PWR_RES, F.PWR_ENTRIES, F.MSIX_PBA],
    parts := [.warp, .skein, .treadles, .sched, .host, .power, .sram, .dram, .dlm, .freeCtr] }

def Touches.qyield : Touch :=
  { regs := [F.WARP_STATUS_RATE_CLAMPED, F.WARP_STATUS_SLEW_ACTIVE, F.SLEW_NS, F.SCHED_STATUS_INFLIGHT,
      F.SCHED_DISPATCH_CNT, F.SH_STATUS_STATE, F.SH_STATUS_SLOT, F.SH_LOAD, F.LVL_RDY_DEPTH, F.LVL_WAIT_AVG,
      F.LVL_HIST, F.FLOW_STATE_IN_SERVICE, F.FLOW_STATE_PENDING, F.PWR_STATUS_WAKE_PEND, F.PWR_STATUS_PHASE,
      F.PWR_STATUS_STATE, F.PWR_WAKE_SRC, F.PWR_WAKE_MERGED, F.PWR_RES, F.PWR_ENTRIES],
    parts := [.warp, .sched, .power, .sram, .dram, .dlm] }

def Touches.qrel : Touch :=
  { regs := [F.WARP_STATUS_RATE_CLAMPED, F.WARP_STATUS_SLEW_ACTIVE, F.SLEW_NS, F.TR_EVENT_SPAWN_DROP,
      F.SK_STATUS_BURST_FREE_KIB, F.SK_EVENT, F.SKS_SEQ, F.SKS_STATUS_RESIDENT, F.SKS_OVERWRITE, F.LOOM_EVENT,
      F.LOOM_EVT_OVF, F.LOOM_OVF_ROUTE, F.SCHED_STATUS_FREE_SLOTS, F.SCHED_STATUS_INFLIGHT, F.SCHED_EVENT,
      F.SCHED_DISPATCH_CNT, F.SCHED_CANCEL_CNT, F.SCHED_POISON_CNT, F.SCHED_EVT_UNBOUND_CNT,
      F.SCHED_TEMPLATE_MISS_CNT, F.PS_USED, F.PS_HELD, F.HQ_DEPTH, F.HQ_MAXDEPTH, F.HQ_PUSH_CNT, F.HQ_BUSY_CNT,
      F.SH_STATUS_STATE, F.SH_STATUS_SLOT, F.SH_LOAD, F.LVL_RDY_DEPTH, F.LVL_WAIT_AVG, F.LVL_HIST,
      F.FLOW_STATE_HELD, F.FLOW_STATE_IN_SERVICE, F.FLOW_STATE_HELD_CAUSE, F.FLOW_STATE_PENDING,
      F.PWR_STATUS_WAKE_PEND, F.PWR_STATUS_PHASE, F.PWR_STATUS_STATE, F.PWR_WAKE_SRC, F.PWR_WAKE_MERGED, F.PWR_RES,
      F.PWR_ENTRIES, F.MSIX_PBA],
    parts := [.warp, .skein, .treadles, .sched, .host, .power, .sram, .dram, .dlm, .freeCtr] }

def Touches.qstat : Touch :=
  { regs := [F.WARP_STATUS_RATE_CLAMPED, F.WARP_STATUS_SLEW_ACTIVE, F.SLEW_NS], parts := [.warp, .sched] }

def Touches.taskFault : Touch :=
  { regs := [F.WARP_STATUS_RATE_CLAMPED, F.WARP_STATUS_SLEW_ACTIVE, F.SLEW_NS, F.LC_STATUS_SHADOW_VALID,
      F.TR_STATUS_STAGE_STATE, F.TR_STATUS_PAUSE_CAUSE, F.TR_STATUS_DEFERRED, F.TR_STATUS_STATE,
      F.TR_EVENT_SPAWN_DROP, F.TR_EVENT_ABORT_IGNORED, F.TR_EVENT_CANCELLED, F.TR_STEPS_STAGED_STEP, F.TR_NEXT,
      F.TR_DECIDE_END_IDX, F.TR_DECIDE_DECIDED, F.TR_CANCEL_CNT, F.PG_STATUS_HELD, F.PG_SHADOW_TARGET,
      F.PG_SHADOW_VMAX, F.PG_SHADOW_WIN_M2, F.PG_SHADOW_WIN_M1, F.SK_STATUS_BURST_FREE_KIB, F.SK_EVENT, F.SKS_SEQ,
      F.SKS_STATUS_RESIDENT, F.SKS_OVERWRITE, F.LOOM_EVENT, F.LOOM_EVT_OVF, F.LOOM_OVF_ROUTE, F.ODO_OUT,
      F.ODO_OUT_SAT, F.VR_VALUE, F.SCHED_STATUS_FREE_SLOTS, F.SCHED_STATUS_INFLIGHT, F.SCHED_EVENT,
      F.SCHED_DISPATCH_CNT, F.SCHED_RETRY_CNT, F.SCHED_CANCEL_CNT, F.SCHED_CANCEL_LATE_CNT, F.SCHED_POISON_CNT,
      F.SCHED_MISMATCH_CNT, F.SCHED_EVT_UNBOUND_CNT, F.SCHED_TEMPLATE_MISS_CNT, F.PS_USED, F.PS_HELD, F.HQ_DEPTH,
      F.HQ_MAXDEPTH, F.HQ_PUSH_CNT, F.HQ_BUSY_CNT, F.SH_STATUS_STATE, F.SH_STATUS_SLOT, F.SH_LOAD,
      F.SH_FAULTS_LAST_CAUSE, F.SH_FAULTS_COUNT, F.LVL_RDY_DEPTH, F.LVL_WAIT_AVG, F.LVL_HIST, F.FLOW_STATE_HELD,
      F.FLOW_STATE_IN_SERVICE, F.FLOW_STATE_HELD_CAUSE, F.FLOW_STATE_PENDING, F.CP_STATUS_STOP_CAUSE,
      F.CP_STATUS_STATE, F.CP_EVENT, F.CP_STOP_T, F.PWR_STATUS_WAKE_PEND, F.PWR_STATUS_LOOM_ON, F.PWR_STATUS_PHASE,
      F.PWR_STATUS_TARGET, F.PWR_STATUS_STATE, F.PWR_WAKE_SRC, F.PWR_WAKE_MERGED, F.PWR_RES, F.PWR_ENTRIES,
      F.SYS_FAULT, F.SYS_FAULT_LAST, F.SYS_FAULT_T, F.SYS_DEVFAULT, F.MSIX_PBA],
    parts := [.warp, .skein, .cells, .fio, .treadles, .gens, .loom, .sched, .cyc, .tandem, .host, .power, .rings, .sram, .dram, .dlm, .freeCtr] }

def Touches.runtimeExpiry : Touch :=
  { regs := [F.WARP_STATUS_RATE_CLAMPED, F.WARP_STATUS_SLEW_ACTIVE, F.SLEW_NS, F.TR_EVENT_SPAWN_DROP,
      F.SK_STATUS_BURST_FREE_KIB, F.SK_EVENT, F.SKS_SEQ, F.SKS_STATUS_RESIDENT, F.SKS_OVERWRITE, F.LOOM_EVENT,
      F.LOOM_EVT_OVF, F.LOOM_OVF_ROUTE, F.SCHED_STATUS_FREE_SLOTS, F.SCHED_STATUS_INFLIGHT, F.SCHED_EVENT,
      F.SCHED_DISPATCH_CNT, F.SCHED_POISON_CNT, F.SCHED_EVT_UNBOUND_CNT, F.SCHED_TEMPLATE_MISS_CNT, F.PS_USED,
      F.PS_HELD, F.HQ_DEPTH, F.HQ_MAXDEPTH, F.HQ_PUSH_CNT, F.HQ_BUSY_CNT, F.SH_STATUS_STATE, F.SH_STATUS_SLOT,
      F.SH_LOAD, F.LVL_RDY_DEPTH, F.LVL_WAIT_AVG, F.LVL_HIST, F.FLOW_STATE_HELD, F.FLOW_STATE_IN_SERVICE,
      F.FLOW_STATE_HELD_CAUSE, F.FLOW_STATE_PENDING, F.PWR_STATUS_WAKE_PEND, F.PWR_STATUS_PHASE,
      F.PWR_STATUS_STATE, F.PWR_WAKE_SRC, F.PWR_WAKE_MERGED, F.PWR_RES, F.PWR_ENTRIES, F.MSIX_PBA],
    parts := [.warp, .skein, .treadles, .sched, .host, .power, .sram, .dram, .dlm, .freeCtr] }

def Touches.waitTimeout : Touch :=
  { regs := [F.WARP_STATUS_RATE_CLAMPED, F.WARP_STATUS_SLEW_ACTIVE, F.SLEW_NS, F.SCHED_STATUS_INFLIGHT,
      F.SCHED_DISPATCH_CNT, F.SCHED_TIMEOUT_CNT, F.HQ_DEPTH, F.HQ_MAXDEPTH, F.SH_STATUS_STATE, F.SH_STATUS_SLOT,
      F.SH_LOAD, F.LVL_RDY_DEPTH, F.LVL_WAIT_AVG, F.LVL_HIST, F.FLOW_STATE_IN_SERVICE, F.FLOW_STATE_PENDING,
      F.PWR_STATUS_WAKE_PEND, F.PWR_STATUS_PHASE, F.PWR_STATUS_STATE, F.PWR_WAKE_SRC, F.PWR_WAKE_MERGED, F.PWR_RES,
      F.PWR_ENTRIES],
    parts := [.warp, .sched, .power, .sram, .dram, .dlm] }

def Touches.selfCheckDone : Touch :=
  { regs := [F.WARP_STATUS_RATE_CLAMPED, F.WARP_STATUS_SLEW_ACTIVE, F.SLEW_NS, F.SK_STATUS_BURST_FREE_KIB, F.SK_EVENT,
      F.SKS_SEQ, F.SKS_STATUS_RESIDENT, F.SKS_OVERWRITE, F.SCHED_STATUS_INFLIGHT, F.SCHED_EVENT,
      F.SCHED_DISPATCH_CNT, F.SH_STATUS_STATE, F.SH_STATUS_SLOT, F.SH_LOAD, F.LVL_RDY_DEPTH, F.LVL_WAIT_AVG,
      F.LVL_HIST, F.FLOW_STATE_IN_SERVICE, F.FLOW_STATE_PENDING, F.PWR_STATUS_WAKE_PEND, F.PWR_STATUS_PHASE,
      F.PWR_STATUS_STATE, F.PWR_WAKE_SRC, F.PWR_WAKE_MERGED, F.PWR_RES, F.PWR_ENTRIES],
    parts := [.warp, .skein, .sched, .power, .sram, .dram, .dlm] }

def Touches.restore : Touch :=
  { regs := [F.WARP_STATUS_RATE_CLAMPED, F.WARP_STATUS_SLEW_ACTIVE, F.SLEW_NS, F.SH_STATUS_STATE, F.SH_STATUS_SLOT,
      F.SH_LOAD, F.TD_EVENT, F.SYS_DISCARD_REASON, F.SYS_DISCARD_OFFSET, F.SYS_DISCARD_CNT, F.MBX_STATE_COMP,
      F.PV_SEQ, F.MSIX_PBA],
    parts := [.warp, .sched, .tandem, .host, .answer, .dram] }

def Touches.release : Touch :=
  { regs := [F.WARP_STATUS_RATE_CLAMPED, F.WARP_STATUS_SLEW_ACTIVE, F.SLEW_NS, F.TR_EVENT_SPAWN_DROP,
      F.SK_STATUS_BURST_FREE_KIB, F.SK_EVENT, F.SKS_SEQ, F.SKS_STATUS_RESIDENT, F.SKS_OVERWRITE, F.LOOM_EVENT,
      F.LOOM_EVT_OVF, F.LOOM_OVF_ROUTE, F.SCHED_STATUS_FREE_SLOTS, F.SCHED_STATUS_INFLIGHT, F.SCHED_EVENT,
      F.SCHED_DISPATCH_CNT, F.SCHED_CANCEL_CNT, F.SCHED_POISON_CNT, F.SCHED_EVT_UNBOUND_CNT,
      F.SCHED_TEMPLATE_MISS_CNT, F.PS_USED, F.PS_HELD, F.HQ_DEPTH, F.HQ_MAXDEPTH, F.HQ_PUSH_CNT, F.HQ_BUSY_CNT,
      F.SH_STATUS_STATE, F.SH_STATUS_SLOT, F.SH_LOAD, F.LVL_RDY_DEPTH, F.LVL_WAIT_AVG, F.LVL_HIST,
      F.FLOW_STATE_HELD, F.FLOW_STATE_IN_SERVICE, F.FLOW_STATE_HELD_CAUSE, F.FLOW_STATE_PENDING, F.TD_EVENT,
      F.PWR_STATUS_WAKE_PEND, F.PWR_STATUS_PHASE, F.PWR_STATUS_STATE, F.PWR_WAKE_SRC, F.PWR_WAKE_MERGED, F.PWR_RES,
      F.PWR_ENTRIES, F.SYS_DISCARD_REASON, F.SYS_DISCARD_OFFSET, F.SYS_DISCARD_CNT, F.MBX_STATE_COMP, F.PV_SEQ,
      F.MSIX_PBA],
    parts := [.warp, .skein, .treadles, .sched, .tandem, .host, .answer, .power, .sram, .dram, .dlm, .freeCtr] }

def Touches.submitTask : Touch :=
  { regs := [F.WARP_STATUS_RATE_CLAMPED, F.WARP_STATUS_SLEW_ACTIVE, F.SLEW_NS, F.SCHED_STATUS_FREE_SLOTS,
      F.SCHED_STATUS_INFLIGHT, F.SCHED_DISPATCH_CNT, F.PS_USED, F.SH_STATUS_STATE, F.SH_STATUS_SLOT, F.SH_LOAD,
      F.LVL_RDY_DEPTH, F.LVL_WAIT_AVG, F.LVL_HIST, F.FLOW_STATE_IN_SERVICE, F.FLOW_STATE_PENDING, F.TD_EVENT,
      F.PWR_STATUS_WAKE_PEND, F.PWR_STATUS_PHASE, F.PWR_STATUS_STATE, F.PWR_WAKE_SRC, F.PWR_WAKE_MERGED, F.PWR_RES,
      F.PWR_ENTRIES, F.HOST_EVENT, F.MBX_STATE_COMP, F.PV_SEQ, F.MSIX_PBA],
    parts := [.warp, .sched, .tandem, .host, .answer, .power, .sram, .dram, .dlm, .freeCtr] }

def Touches.cancelTask : Touch :=
  { regs := [F.WARP_STATUS_RATE_CLAMPED, F.WARP_STATUS_SLEW_ACTIVE, F.SLEW_NS, F.TR_EVENT_SPAWN_DROP,
      F.SK_STATUS_BURST_FREE_KIB, F.SK_EVENT, F.SKS_SEQ, F.SKS_STATUS_RESIDENT, F.SKS_OVERWRITE, F.LOOM_EVENT,
      F.LOOM_EVT_OVF, F.LOOM_OVF_ROUTE, F.SCHED_STATUS_FREE_SLOTS, F.SCHED_STATUS_INFLIGHT, F.SCHED_EVENT,
      F.SCHED_DISPATCH_CNT, F.SCHED_CANCEL_CNT, F.SCHED_CANCEL_LATE_CNT, F.SCHED_POISON_CNT,
      F.SCHED_EVT_UNBOUND_CNT, F.SCHED_TEMPLATE_MISS_CNT, F.PS_USED, F.PS_HELD, F.HQ_DEPTH, F.HQ_MAXDEPTH,
      F.HQ_PUSH_CNT, F.HQ_BUSY_CNT, F.SH_STATUS_STATE, F.SH_STATUS_SLOT, F.SH_LOAD, F.LVL_RDY_DEPTH,
      F.LVL_WAIT_AVG, F.LVL_HIST, F.FLOW_STATE_HELD, F.FLOW_STATE_IN_SERVICE, F.FLOW_STATE_HELD_CAUSE,
      F.FLOW_STATE_PENDING, F.TD_EVENT, F.PWR_STATUS_WAKE_PEND, F.PWR_STATUS_PHASE, F.PWR_STATUS_STATE,
      F.PWR_WAKE_SRC, F.PWR_WAKE_MERGED, F.PWR_RES, F.PWR_ENTRIES, F.HOST_EVENT, F.MBX_STATE_COMP, F.PV_SEQ,
      F.MSIX_PBA],
    parts := [.warp, .skein, .treadles, .sched, .tandem, .host, .answer, .power, .sram, .dram, .dlm, .freeCtr] }

def Touches.hqPush : Touch :=
  { regs := [F.WARP_STATUS_RATE_CLAMPED, F.WARP_STATUS_SLEW_ACTIVE, F.SLEW_NS, F.TR_EVENT_SPAWN_DROP,
      F.SK_STATUS_BURST_FREE_KIB, F.SK_EVENT, F.SKS_SEQ, F.SKS_STATUS_RESIDENT, F.SKS_OVERWRITE, F.LOOM_EVENT,
      F.LOOM_EVT_OVF, F.LOOM_OVF_ROUTE, F.SCHED_STATUS_FREE_SLOTS, F.SCHED_STATUS_INFLIGHT, F.SCHED_EVENT,
      F.SCHED_DISPATCH_CNT, F.SCHED_EVT_UNBOUND_CNT, F.SCHED_TEMPLATE_MISS_CNT, F.PS_USED, F.HQ_DEPTH,
      F.HQ_MAXDEPTH, F.HQ_PUSH_CNT, F.SH_STATUS_STATE, F.SH_STATUS_SLOT, F.SH_LOAD, F.LVL_RDY_DEPTH,
      F.LVL_WAIT_AVG, F.LVL_HIST, F.FLOW_STATE_IN_SERVICE, F.FLOW_STATE_PENDING, F.TD_EVENT,
      F.PWR_STATUS_WAKE_PEND, F.PWR_STATUS_PHASE, F.PWR_STATUS_STATE, F.PWR_WAKE_SRC, F.PWR_WAKE_MERGED, F.PWR_RES,
      F.PWR_ENTRIES, F.HOST_EVENT, F.MBX_STATE_COMP, F.PV_SEQ, F.MSIX_PBA],
    parts := [.warp, .skein, .treadles, .sched, .tandem, .host, .answer, .power, .sram, .dram, .dlm, .freeCtr] }

def Touches.hqPop : Touch :=
  { regs := [F.WARP_STATUS_RATE_CLAMPED, F.WARP_STATUS_SLEW_ACTIVE, F.SLEW_NS, F.TR_EVENT_SPAWN_DROP,
      F.SK_STATUS_BURST_FREE_KIB, F.SK_EVENT, F.SKS_SEQ, F.SKS_STATUS_RESIDENT, F.SKS_OVERWRITE,
      F.SCHED_STATUS_FREE_SLOTS, F.SCHED_STATUS_INFLIGHT, F.SCHED_EVENT, F.SCHED_DISPATCH_CNT,
      F.SCHED_EVT_UNBOUND_CNT, F.SCHED_TEMPLATE_MISS_CNT, F.PS_USED, F.HQ_DEPTH, F.HQ_MAXDEPTH, F.HQ_PUSH_CNT,
      F.SH_STATUS_STATE, F.SH_STATUS_SLOT, F.SH_LOAD, F.LVL_RDY_DEPTH, F.LVL_WAIT_AVG, F.LVL_HIST,
      F.FLOW_STATE_IN_SERVICE, F.FLOW_STATE_PENDING, F.TD_EVENT, F.PWR_STATUS_WAKE_PEND, F.PWR_STATUS_PHASE,
      F.PWR_STATUS_STATE, F.PWR_WAKE_SRC, F.PWR_WAKE_MERGED, F.PWR_RES, F.PWR_ENTRIES, F.HOST_EVENT,
      F.MBX_STATE_COMP, F.PV_SEQ, F.MSIX_PBA],
    parts := [.warp, .skein, .treadles, .sched, .tandem, .host, .answer, .power, .sram, .dram, .dlm, .freeCtr] }

def Touches.loadProgram : Touch :=
  { regs := [F.WARP_STATUS_RATE_CLAMPED, F.WARP_STATUS_SLEW_ACTIVE, F.SLEW_NS, F.TR_EVENT_SPAWN_DROP,
      F.SK_STATUS_BURST_FREE_KIB, F.SK_EVENT, F.SKS_SEQ, F.SKS_STATUS_RESIDENT, F.SKS_OVERWRITE,
      F.SCHED_STATUS_FREE_SLOTS, F.SCHED_STATUS_INFLIGHT, F.SCHED_EVENT, F.SCHED_DISPATCH_CNT,
      F.SCHED_EVT_UNBOUND_CNT, F.SCHED_TEMPLATE_MISS_CNT, F.PS_USED, F.WIN_BASE_BASE, F.WIN_BASE_ATTR, F.WIN_LIMIT,
      F.SH_STATUS_STATE, F.SH_STATUS_SLOT, F.SH_LOAD, F.LVL_RDY_DEPTH, F.LVL_WAIT_AVG, F.LVL_HIST,
      F.FLOW_STATE_IN_SERVICE, F.FLOW_STATE_PENDING, F.EVT_BIND_EN, F.EVT_BIND_TEMPLATE, F.CP_STATUS_LOAD_RESULT,
      F.CP_STATUS_RETAIN_OK, F.CP_STATUS_DETERMINISTIC, F.CP_STATUS_LOADED, F.CP_EVENT, F.CP_VERSION, F.CP_RETAIN,
      F.CP_RETAIN_SEQ, F.CT_CFG_EN, F.CT_CFG_TEMPLATE, F.CT_PERIOD, F.CT_PHASE, F.CT_REL, F.CT_SCAN, F.TD_EVENT,
      F.PWR_STATUS_WAKE_PEND, F.PWR_STATUS_PHASE, F.PWR_STATUS_STATE, F.PWR_WAKE_SRC, F.PWR_WAKE_MERGED, F.PWR_RES,
      F.PWR_ENTRIES, F.HOST_EVENT, F.MBX_STATE_COMP, F.PV_SEQ, F.MSIX_PBA],
    parts := [.warp, .skein, .treadles, .sched, .cyc, .tandem, .host, .answer, .power, .sram, .dram, .dlm, .freeCtr] }

def Touches.hostInput : Touch :=
  { regs := [F.WARP_STATUS_RATE_CLAMPED, F.WARP_STATUS_SLEW_ACTIVE, F.SLEW_NS, F.TD_EVENT, F.HOST_EVENT, F.MBX_STATE_COMP,
      F.PV_SEQ, F.MSIX_PBA],
    parts := [.warp, .cyc, .tandem, .host, .answer, .dram] }

def Touches.scanLatch : Touch :=
  { regs := [F.WARP_STATUS_RATE_CLAMPED, F.WARP_STATUS_SLEW_ACTIVE, F.SLEW_NS, F.TR_EVENT_SPAWN_DROP,
      F.SK_STATUS_BURST_FREE_KIB, F.SK_EVENT, F.SKS_SEQ, F.SKS_STATUS_RESIDENT, F.SKS_OVERWRITE,
      F.SCHED_STATUS_FREE_SLOTS, F.SCHED_STATUS_INFLIGHT, F.SCHED_EVENT, F.SCHED_DISPATCH_CNT,
      F.SCHED_EVT_UNBOUND_CNT, F.SCHED_TEMPLATE_MISS_CNT, F.PS_USED, F.SH_STATUS_STATE, F.SH_STATUS_SLOT,
      F.SH_LOAD, F.LVL_RDY_DEPTH, F.LVL_WAIT_AVG, F.LVL_HIST, F.FLOW_STATE_IN_SERVICE, F.FLOW_STATE_PENDING,
      F.CT_SCAN, F.PWR_STATUS_WAKE_PEND, F.PWR_STATUS_PHASE, F.PWR_STATUS_STATE, F.PWR_WAKE_SRC, F.PWR_WAKE_MERGED,
      F.PWR_RES, F.PWR_ENTRIES],
    parts := [.warp, .skein, .ain, .treadles, .sched, .cyc, .power, .sram, .dram, .dlm, .freeCtr] }

def Touches.scanClose : Touch :=
  { regs := [F.WARP_STATUS_RATE_CLAMPED, F.WARP_STATUS_SLEW_ACTIVE, F.SLEW_NS, F.CT_MARGIN, F.CT_CLOSE_AVG],
    parts := [.warp, .sched, .cyc] }

def Touches.scanRelease : Touch :=
  { regs := [F.WARP_STATUS_RATE_CLAMPED, F.WARP_STATUS_SLEW_ACTIVE, F.SLEW_NS, F.LC_STATUS_SHADOW_VALID,
      F.TR_STATUS_STAGE_STATE, F.TR_STATUS_PAUSE_CAUSE, F.TR_STATUS_DEFERRED, F.TR_STATUS_STATE,
      F.TR_EVENT_SPAWN_DROP, F.TR_EVENT_ABORT_IGNORED, F.TR_EVENT_CANCELLED, F.TR_STEPS_STAGED_STEP, F.TR_NEXT,
      F.TR_DECIDE_END_IDX, F.TR_DECIDE_DECIDED, F.TR_CANCEL_CNT, F.PG_STATUS_HELD, F.PG_SHADOW_TARGET,
      F.PG_SHADOW_VMAX, F.PG_SHADOW_WIN_M2, F.PG_SHADOW_WIN_M1, F.SK_STATUS_BURST_FREE_KIB, F.SK_EVENT, F.SKS_SEQ,
      F.SKS_STATUS_RESIDENT, F.SKS_OVERWRITE, F.LOOM_EVENT, F.LOOM_EVT_OVF, F.LOOM_OVF_ROUTE, F.ODO_OUT,
      F.ODO_OUT_SAT, F.VR_VALUE, F.SCHED_STATUS_FREE_SLOTS, F.SCHED_STATUS_INFLIGHT, F.SCHED_EVENT,
      F.SCHED_DISPATCH_CNT, F.SCHED_CANCEL_CNT, F.SCHED_CANCEL_LATE_CNT, F.SCHED_POISON_CNT,
      F.SCHED_EVT_UNBOUND_CNT, F.SCHED_TEMPLATE_MISS_CNT, F.PS_USED, F.PS_HELD, F.HQ_DEPTH, F.HQ_MAXDEPTH,
      F.HQ_PUSH_CNT, F.HQ_BUSY_CNT, F.SH_STATUS_STATE, F.SH_STATUS_SLOT, F.SH_LOAD, F.LVL_RDY_DEPTH,
      F.LVL_WAIT_AVG, F.LVL_HIST, F.FLOW_STATE_HELD, F.FLOW_STATE_IN_SERVICE, F.FLOW_STATE_HELD_CAUSE,
      F.FLOW_STATE_PENDING, F.CP_STATUS_STOP_CAUSE, F.CP_STATUS_STATE, F.CP_EVENT, F.CP_STOP_T, F.CP_OVERRUN_CNT,
      F.RJ_STATE, F.PWR_STATUS_WAKE_PEND, F.PWR_STATUS_LOOM_ON, F.PWR_STATUS_PHASE, F.PWR_STATUS_TARGET,
      F.PWR_STATUS_STATE, F.PWR_WAKE_SRC, F.PWR_WAKE_MERGED, F.PWR_RES, F.PWR_ENTRIES, F.MSIX_PBA],
    parts := [.warp, .skein, .cells, .fio, .treadles, .gens, .loom, .sched, .cyc, .host, .power, .rings, .sram, .dram, .dlm, .freeCtr] }

def Touches.cpStart : Touch :=
  { anyReg := true,
    parts := [.warp, .skein, .cells, .fio, .treadles, .gens, .trig, .loom, .sched, .cyc, .tandem, .host, .answer, .power, .sram, .dram, .dlm, .freeCtr] }

def Touches.cpHold : Touch :=
  { regs := [F.WARP_STATUS_RATE_CLAMPED, F.WARP_STATUS_SLEW_ACTIVE, F.SLEW_NS, F.TR_STATUS_PAUSE_CAUSE, F.TR_STATUS_STATE,
      F.PG_STATUS_HELD, F.ODO_OUT, F.ODO_OUT_SAT, F.CP_CTRL_MODE, F.CP_STATUS_STATE, F.CP_EVENT, F.TD_EVENT,
      F.PWR_STATUS_LOOM_ON, F.PWR_STATUS_PHASE, F.PWR_STATUS_TARGET, F.PWR_STATUS_STATE, F.PWR_RES, F.PWR_ENTRIES,
      F.SYS_DISCARD_REASON, F.SYS_DISCARD_OFFSET, F.SYS_DISCARD_CNT, F.MBX_STATE_COMP, F.PV_SEQ, F.MSIX_PBA],
    parts := [.warp, .fio, .treadles, .loom, .tandem, .host, .answer, .power, .dram] }

def Touches.cpResume : Touch :=
  { regs := [F.WARP_STATUS_RATE_CLAMPED, F.WARP_STATUS_SLEW_ACTIVE, F.SLEW_NS, F.TR_STATUS_PAUSE_CAUSE, F.TR_STATUS_STATE,
      F.PG_STATUS_HELD, F.ODO_OUT, F.ODO_OUT_SAT, F.CP_CTRL_MODE, F.CP_STATUS_STATE, F.CP_EVENT, F.TD_EVENT,
      F.PWR_STATUS_LOOM_ON, F.PWR_STATUS_PHASE, F.PWR_STATUS_TARGET, F.PWR_STATUS_STATE, F.PWR_RES, F.PWR_ENTRIES,
      F.SYS_DISCARD_REASON, F.SYS_DISCARD_OFFSET, F.SYS_DISCARD_CNT, F.MBX_STATE_COMP, F.PV_SEQ, F.MSIX_PBA],
    parts := [.warp, .fio, .treadles, .loom, .tandem, .host, .answer, .power, .dram] }

def Touches.cpStop : Touch :=
  { regs := [F.WARP_STATUS_RATE_CLAMPED, F.WARP_STATUS_SLEW_ACTIVE, F.SLEW_NS, F.LC_STATUS_SHADOW_VALID,
      F.TR_STATUS_STAGE_STATE, F.TR_STATUS_PAUSE_CAUSE, F.TR_STATUS_DEFERRED, F.TR_STATUS_STATE,
      F.TR_EVENT_SPAWN_DROP, F.TR_EVENT_ABORT_IGNORED, F.TR_EVENT_CANCELLED, F.TR_STEPS_STAGED_STEP, F.TR_NEXT,
      F.TR_DECIDE_END_IDX, F.TR_DECIDE_DECIDED, F.TR_CANCEL_CNT, F.PG_STATUS_HELD, F.PG_SHADOW_TARGET,
      F.PG_SHADOW_VMAX, F.PG_SHADOW_WIN_M2, F.PG_SHADOW_WIN_M1, F.SK_STATUS_BURST_FREE_KIB, F.SK_EVENT, F.SKS_SEQ,
      F.SKS_STATUS_RESIDENT, F.SKS_OVERWRITE, F.LOOM_EVENT, F.LOOM_EVT_OVF, F.LOOM_OVF_ROUTE, F.ODO_OUT,
      F.ODO_OUT_SAT, F.VR_VALUE, F.SCHED_STATUS_FREE_SLOTS, F.SCHED_STATUS_INFLIGHT, F.SCHED_EVENT,
      F.SCHED_DISPATCH_CNT, F.SCHED_CANCEL_CNT, F.SCHED_CANCEL_LATE_CNT, F.SCHED_POISON_CNT,
      F.SCHED_EVT_UNBOUND_CNT, F.SCHED_TEMPLATE_MISS_CNT, F.PS_USED, F.PS_HELD, F.HQ_DEPTH, F.HQ_MAXDEPTH,
      F.HQ_PUSH_CNT, F.HQ_BUSY_CNT, F.SH_STATUS_STATE, F.SH_STATUS_SLOT, F.SH_LOAD, F.LVL_RDY_DEPTH,
      F.LVL_WAIT_AVG, F.LVL_HIST, F.FLOW_STATE_HELD, F.FLOW_STATE_IN_SERVICE, F.FLOW_STATE_HELD_CAUSE,
      F.FLOW_STATE_PENDING, F.CP_CTRL_MODE, F.CP_STATUS_STOP_CAUSE, F.CP_STATUS_STATE, F.CP_EVENT, F.CP_STOP_T,
      F.TD_EVENT, F.PWR_STATUS_WAKE_PEND, F.PWR_STATUS_LOOM_ON, F.PWR_STATUS_PHASE, F.PWR_STATUS_TARGET,
      F.PWR_STATUS_STATE, F.PWR_WAKE_SRC, F.PWR_WAKE_MERGED, F.PWR_RES, F.PWR_ENTRIES, F.SYS_DISCARD_REASON,
      F.SYS_DISCARD_OFFSET, F.SYS_DISCARD_CNT, F.MBX_STATE_COMP, F.PV_SEQ, F.MSIX_PBA],
    parts := [.warp, .skein, .cells, .fio, .treadles, .gens, .loom, .sched, .cyc, .tandem, .host, .answer, .power, .rings, .sram, .dram, .dlm, .freeCtr] }

def Touches.retainCheckpoint : Touch :=
  { regs := [F.WARP_STATUS_RATE_CLAMPED, F.WARP_STATUS_SLEW_ACTIVE, F.SLEW_NS], parts := [.warp, .cyc] }

def Touches.powerFail : Touch :=
  { regs := [F.WARP_STATUS_RATE_CLAMPED, F.WARP_STATUS_SLEW_ACTIVE, F.SLEW_NS, F.SK_STATUS_BURST_FREE_KIB, F.SK_EVENT,
      F.SKS_SEQ, F.SKS_STATUS_RESIDENT, F.SKS_OVERWRITE, F.PWR_STATUS_WAKE_PEND, F.PWR_STATUS_PHASE,
      F.PWR_STATUS_TARGET, F.PWR_EVENT, F.PWR_REFUSE_CAUSE, F.PWR_REFUSE_TARGET, F.PWR_REFUSE_REFUSER,
      F.PWR_REFUSE_CNT, F.PWR_ABORT_CNT, F.MSIX_PBA],
    parts := [.warp, .skein, .cyc, .host, .power] }

def Touches.retainCommitDone : Touch :=
  { regs := [F.WARP_STATUS_RATE_CLAMPED, F.WARP_STATUS_SLEW_ACTIVE, F.SLEW_NS, F.CP_STATUS_RETAIN_OK, F.CP_EVENT,
      F.CP_RETAIN_SEQ, F.CP_PF_NS],
    parts := [.warp, .cyc] }

def Touches.rjStateWrite : Touch :=
  { regs := [F.WARP_STATUS_RATE_CLAMPED, F.WARP_STATUS_SLEW_ACTIVE, F.SLEW_NS, F.RJ_STATE, F.TD_EVENT,
      F.SYS_DISCARD_REASON, F.SYS_DISCARD_OFFSET, F.SYS_DISCARD_CNT, F.MBX_STATE_COMP, F.PV_SEQ, F.MSIX_PBA],
    parts := [.warp, .tandem, .host, .answer, .dram] }

def Touches.ringEnWrite : Touch :=
  { regs := [F.WARP_STATUS_RATE_CLAMPED, F.WARP_STATUS_SLEW_ACTIVE, F.SLEW_NS, F.RING_CTRL_EN, F.RING_STATUS_BROKEN,
      F.RING_STATUS_BYPASSED, F.RING_STATUS_STATE, F.RING_EVENT, F.RING_BREAK_CNT_SEL_CNT,
      F.RS_ST_STATUS_REVERSE_FED, F.TD_EVENT, F.TD_WITNESS, F.PWR_STATUS_WAKE_PEND, F.PWR_STATUS_PHASE,
      F.PWR_WAKE_SRC, F.PWR_WAKE_MERGED, F.SYS_DISCARD_REASON, F.SYS_DISCARD_OFFSET, F.SYS_DISCARD_CNT,
      F.MBX_STATE_COMP, F.PV_SEQ, F.MSIX_PBA],
    parts := [.warp, .tandem, .host, .answer, .power, .rings, .dram, .freeCtr] }

def Touches.insertionLocked : Touch :=
  { regs := [F.WARP_STATUS_RATE_CLAMPED, F.WARP_STATUS_SLEW_ACTIVE, F.SLEW_NS, F.ODO_OUT, F.ODO_OUT_SAT,
      F.RING_STATUS_STATE, F.RS_ST_STATUS_OK, F.RS_ST_STATUS_ADMITTED, F.SEC_RING_KEYS_PENDING,
      F.SEC_RING_KEYS_KEYED],
    parts := [.warp, .fio, .loom, .tandem, .sec, .rings] }

def Touches.insertionTimeout : Touch :=
  { regs := [F.WARP_STATUS_RATE_CLAMPED, F.WARP_STATUS_SLEW_ACTIVE, F.SLEW_NS, F.RING_STATUS_BROKEN,
      F.RING_STATUS_BYPASSED, F.RING_STATUS_STATE, F.RING_EVENT, F.RING_RESULT, F.RING_BREAK_CNT_SEL_CNT,
      F.RS_ST_STATUS_REVERSE_FED, F.TD_WITNESS],
    parts := [.warp, .tandem, .rings] }

def Touches.discover : Touch :=
  { regs := [F.WARP_STATUS_RATE_CLAMPED, F.WARP_STATUS_SLEW_ACTIVE, F.SLEW_NS, F.RING_STATUS_STATE, F.RING_EVENT,
      F.TD_EVENT, F.SEC_RING_KEYS_PENDING, F.SEC_RING_KEYS_KEYED, F.SYS_DISCARD_REASON, F.SYS_DISCARD_OFFSET,
      F.SYS_DISCARD_CNT, F.MBX_STATE_COMP, F.PV_SEQ, F.MSIX_PBA],
    parts := [.warp, .tandem, .sec, .host, .answer, .rings, .dram] }

def Touches.enumReturn : Touch :=
  { regs := [F.WARP_STATUS_RATE_CLAMPED, F.WARP_STATUS_SLEW_ACTIVE, F.SLEW_NS, F.RING_STATUS_STATIONS],
    parts := [.warp, .rings] }

def Touches.delayReturn : Touch :=
  { regs := [F.WARP_STATUS_RATE_CLAMPED, F.WARP_STATUS_SLEW_ACTIVE, F.SLEW_NS, F.SK_STATUS_BURST_FREE_KIB, F.SK_EVENT,
      F.SKS_SEQ, F.SKS_STATUS_RESIDENT, F.SKS_OVERWRITE, F.RING_STATUS_AUTH, F.RING_STATUS_STATE, F.RING_EVENT,
      F.RING_RX_WORST, F.RING_RESULT, F.RS_ST_STATUS_ADMITTED, F.RS_ST_STATUS_AUTH, F.RS_ST_DELAY,
      F.RS_ST_LAT_REV_NS, F.RS_ST_LAT_FWD_NS],
    parts := [.warp, .skein, .rings] }

def Touches.discFail : Touch :=
  { regs := [F.WARP_STATUS_RATE_CLAMPED, F.WARP_STATUS_SLEW_ACTIVE, F.SLEW_NS, F.SK_STATUS_BURST_FREE_KIB, F.SK_EVENT,
      F.SKS_SEQ, F.SKS_STATUS_RESIDENT, F.SKS_OVERWRITE, F.RING_STATUS_STATE, F.RING_EVENT, F.RING_RESULT],
    parts := [.warp, .skein] }

def Touches.ringStart : Touch :=
  { regs := [F.WARP_STATUS_RATE_CLAMPED, F.WARP_STATUS_SLEW_ACTIVE, F.SLEW_NS, F.RING_EVENT, F.TD_EVENT,
      F.SYS_DISCARD_REASON, F.SYS_DISCARD_OFFSET, F.SYS_DISCARD_CNT, F.MBX_STATE_COMP, F.PV_SEQ, F.MSIX_PBA],
    parts := [.warp, .tandem, .host, .answer, .rings, .dram] }

def Touches.ringStop : Touch :=
  { regs := [F.WARP_STATUS_RATE_CLAMPED, F.WARP_STATUS_SLEW_ACTIVE, F.SLEW_NS, F.RING_STATUS_STATE, F.RING_EVENT,
      F.TD_EVENT, F.SYS_DISCARD_REASON, F.SYS_DISCARD_OFFSET, F.SYS_DISCARD_CNT, F.MBX_STATE_COMP, F.PV_SEQ,
      F.MSIX_PBA],
    parts := [.warp, .tandem, .host, .answer, .rings, .dram] }

def Touches.cycleStart : Touch :=
  { regs := [F.WARP_STATUS_RATE_CLAMPED, F.WARP_STATUS_SLEW_ACTIVE, F.SLEW_NS, F.TR_EVENT_SPAWN_DROP,
      F.SK_STATUS_BURST_FREE_KIB, F.SK_EVENT, F.SKS_SEQ, F.SKS_STATUS_RESIDENT, F.SKS_OVERWRITE, F.CS_STATUS_STATE,
      F.CS_EVENT, F.LOOM_EVENT, F.LOOM_EVT_OVF, F.LOOM_OVF_ROUTE, F.ODO_OUT, F.ODO_OUT_SAT,
      F.SCHED_STATUS_FREE_SLOTS, F.SCHED_STATUS_INFLIGHT, F.SCHED_EVENT, F.SCHED_DISPATCH_CNT,
      F.SCHED_EVT_UNBOUND_CNT, F.SCHED_TEMPLATE_MISS_CNT, F.PS_USED, F.HQ_DEPTH, F.HQ_MAXDEPTH, F.HQ_PUSH_CNT,
      F.HQ_BUSY_CNT, F.SH_STATUS_STATE, F.SH_STATUS_SLOT, F.SH_LOAD, F.LVL_RDY_DEPTH, F.LVL_WAIT_AVG, F.LVL_HIST,
      F.FLOW_STATE_IN_SERVICE, F.FLOW_STATE_PENDING, F.RING_CTRL_ROLE, F.RING_STATUS_BREAK_POS,
      F.RING_STATUS_BROKEN, F.RING_STATUS_STATE, F.RING_EVENT, F.RING_CYCLE, F.RING_MBX_STATUS_SEQ,
      F.RS_ST_STATUS_OK, F.RS_ST_STATUS_REVERSE_FED, F.TD_STATUS_ROLE, F.TD_STATUS_ARBITRATING,
      F.TD_STATUS_SYNC_PHASE, F.TD_EVENT, F.TD_RESULT, F.TD_DIV_CNT, F.TD_DIV_WHERE_RING, F.TD_DIV_WHERE_CYCLE,
      F.PWR_STATUS_WAKE_PEND, F.PWR_STATUS_PHASE, F.PWR_STATUS_STATE, F.PWR_WAKE_SRC, F.PWR_WAKE_MERGED, F.PWR_RES,
      F.PWR_ENTRIES, F.SYS_FAULT, F.SYS_FAULT_LAST, F.SYS_FAULT_T, F.MSIX_PBA],
    parts := [.warp, .skein, .fio, .treadles, .trig, .loom, .sched, .tandem, .host, .power, .rings, .sram, .dram, .dlm, .freeCtr] }

def Touches.receptionEnd : Touch :=
  { regs := [F.WARP_STATUS_RATE_CLAMPED, F.WARP_STATUS_SLEW_ACTIVE, F.SLEW_NS, F.TR_EVENT_SPAWN_DROP,
      F.SK_STATUS_BURST_FREE_KIB, F.SK_EVENT, F.SKS_SEQ, F.SKS_STATUS_RESIDENT, F.SKS_OVERWRITE, F.CS_STATUS_STATE,
      F.CS_EVENT, F.LOOM_EVENT, F.LOOM_EVT_OVF, F.LOOM_OVF_ROUTE, F.ODO_OUT, F.ODO_OUT_SAT, F.VR_VALUE,
      F.SCHED_STATUS_FREE_SLOTS, F.SCHED_STATUS_INFLIGHT, F.SCHED_EVENT, F.SCHED_DISPATCH_CNT,
      F.SCHED_EVT_UNBOUND_CNT, F.SCHED_TEMPLATE_MISS_CNT, F.PS_USED, F.HQ_DEPTH, F.HQ_MAXDEPTH, F.HQ_PUSH_CNT,
      F.HQ_BUSY_CNT, F.SH_STATUS_STATE, F.SH_STATUS_SLOT, F.SH_LOAD, F.LVL_RDY_DEPTH, F.LVL_WAIT_AVG, F.LVL_HIST,
      F.FLOW_STATE_IN_SERVICE, F.FLOW_STATE_PENDING, F.CP_EVENT, F.RJ_STATE, F.RING_CTRL_ROLE,
      F.RING_STATUS_BREAK_POS, F.RING_STATUS_STATE, F.RING_EVENT, F.RING_RX_LAST, F.RING_LOST_CNT, F.RING_AUTH_CNT,
      F.RING_MBX_STATUS_RSP_LEN, F.RING_MBX_STATUS_STATE, F.RING_MBX_RX, F.RS_ST_STATUS_OK,
      F.RS_ST_STATUS_REVERSE_FED, F.RS_ST_STATUS_MISS_RUN, F.RS_ST_STATUS_LAST_STATUS, F.TD_STATUS_ROLE,
      F.TD_EVENT, F.TD_EXPIRY, F.TD_GUARD_EFF, F.TD_PARTNER_ID, F.PWR_STATUS_WAKE_PEND, F.PWR_STATUS_PHASE,
      F.PWR_STATUS_STATE, F.PWR_WAKE_SRC, F.PWR_WAKE_MERGED, F.PWR_RES, F.PWR_ENTRIES, F.MSIX_PBA],
    parts := [.warp, .skein, .cells, .fio, .treadles, .trig, .loom, .sched, .tandem, .host, .boot, .power, .rings, .sram, .dram, .dlm, .freeCtr] }

def Touches.rxLimit : Touch :=
  { regs := [F.WARP_STATUS_RATE_CLAMPED, F.WARP_STATUS_SLEW_ACTIVE, F.SLEW_NS, F.TR_EVENT_SPAWN_DROP,
      F.SK_STATUS_BURST_FREE_KIB, F.SK_EVENT, F.SKS_SEQ, F.SKS_STATUS_RESIDENT, F.SKS_OVERWRITE, F.CS_STATUS_STATE,
      F.CS_EVENT, F.LOOM_EVENT, F.LOOM_EVT_OVF, F.LOOM_OVF_ROUTE, F.ODO_OUT, F.ODO_OUT_SAT, F.VR_VALUE,
      F.SCHED_STATUS_FREE_SLOTS, F.SCHED_STATUS_INFLIGHT, F.SCHED_EVENT, F.SCHED_DISPATCH_CNT,
      F.SCHED_EVT_UNBOUND_CNT, F.SCHED_TEMPLATE_MISS_CNT, F.PS_USED, F.HQ_DEPTH, F.HQ_MAXDEPTH, F.HQ_PUSH_CNT,
      F.HQ_BUSY_CNT, F.SH_STATUS_STATE, F.SH_STATUS_SLOT, F.SH_LOAD, F.LVL_RDY_DEPTH, F.LVL_WAIT_AVG, F.LVL_HIST,
      F.FLOW_STATE_IN_SERVICE, F.FLOW_STATE_PENDING, F.CP_EVENT, F.RJ_STATE, F.RING_STATUS_BREAK_POS,
      F.RING_STATUS_BROKEN, F.RING_EVENT, F.RING_RX_LAST, F.RING_LOST_CNT, F.RING_BREAK_CNT_COUNT, F.RING_AUTH_CNT,
      F.RING_MBX_STATUS_RSP_LEN, F.RING_MBX_STATUS_STATE, F.RING_MBX_RX, F.RS_ST_STATUS_OK,
      F.RS_ST_STATUS_REVERSE_FED, F.RS_ST_STATUS_MISS_RUN, F.RS_ST_STATUS_LAST_STATUS, F.TD_WITNESS, F.TD_MISS_CNT,
      F.PWR_STATUS_WAKE_PEND, F.PWR_STATUS_PHASE, F.PWR_STATUS_STATE, F.PWR_WAKE_SRC, F.PWR_WAKE_MERGED, F.PWR_RES,
      F.PWR_ENTRIES, F.MSIX_PBA],
    parts := [.warp, .skein, .cells, .fio, .treadles, .trig, .loom, .sched, .tandem, .host, .boot, .power, .rings, .sram, .dram, .dlm, .freeCtr] }

def Touches.mbxGo : Touch :=
  { regs := [F.WARP_STATUS_RATE_CLAMPED, F.WARP_STATUS_SLEW_ACTIVE, F.SLEW_NS, F.RING_EVENT, F.RING_MBX_CTRL_LEN,
      F.RING_MBX_CTRL_STATION, F.RING_MBX_STATUS_STATE, F.TD_EVENT, F.SYS_DISCARD_REASON, F.SYS_DISCARD_OFFSET,
      F.SYS_DISCARD_CNT, F.MBX_STATE_COMP, F.PV_SEQ, F.MSIX_PBA],
    parts := [.warp, .tandem, .host, .answer, .rings, .dram] }

def Touches.mbxTmo : Touch :=
  { regs := [F.WARP_STATUS_RATE_CLAMPED, F.WARP_STATUS_SLEW_ACTIVE, F.SLEW_NS, F.RING_EVENT, F.RING_MBX_STATUS_STATE],
    parts := [.warp, .rings] }

def Touches.reservationWritten : Touch :=
  { regs := [F.WARP_STATUS_RATE_CLAMPED, F.WARP_STATUS_SLEW_ACTIVE, F.SLEW_NS], parts := [.warp, .rings] }

def Touches.safetyCycle : Touch :=
  { regs := [F.WARP_STATUS_RATE_CLAMPED, F.WARP_STATUS_SLEW_ACTIVE, F.SLEW_NS, F.SAF_STATUS_SCLK_FREE, F.WC_STATUS_SEQ,
      F.WC_STATUS_STATE],
    parts := [.warp, .island] }

def Touches.permitWord : Touch :=
  { regs := [F.WARP_STATUS_RATE_CLAMPED, F.WARP_STATUS_SLEW_ACTIVE, F.SLEW_NS, F.SK_STATUS_BURST_FREE_KIB, F.SK_EVENT,
      F.SKS_SEQ, F.SKS_STATUS_RESIDENT, F.SKS_OVERWRITE, F.SAF_STATUS_LINK_OK, F.SAF_STATUS_START_BLOCKED,
      F.SAF_STATUS_PHASE, F.SAF_PHASE_T, F.SAF_OVC_REMAIN_S, F.SAF_SOUT_MATRIX, F.SAF_SOUT_PERMIT,
      F.SAF_SOUT_STATE_ENERGISED, F.PWR_STATUS_WAKE_PEND, F.PWR_STATUS_PHASE, F.PWR_WAKE_SRC, F.PWR_WAKE_MERGED,
      F.MSIX_PBA],
    parts := [.warp, .skein, .island, .host, .power] }

def Touches.linkSilent : Touch :=
  { regs := [F.WARP_STATUS_RATE_CLAMPED, F.WARP_STATUS_SLEW_ACTIVE, F.SLEW_NS, F.SK_STATUS_BURST_FREE_KIB, F.SK_EVENT,
      F.SKS_SEQ, F.SKS_STATUS_RESIDENT, F.SKS_OVERWRITE, F.SAF_STATUS_START_WAIT, F.SAF_STATUS_LINK_OK,
      F.SAF_STATUS_PROG_OK, F.SAF_STATUS_START_BLOCKED, F.SAF_STATUS_OVC_ARMED, F.SAF_STATUS_PHASE, F.SAF_PHASE_T,
      F.SAF_OVC_REMAIN_S, F.SAF_CNT_OVC_ENTRIES, F.SAF_SOUT_MATRIX, F.SAF_SOUT_PERMIT, F.SAF_SOUT_STATE_ENERGISED,
      F.PWR_STATUS_WAKE_PEND, F.PWR_STATUS_PHASE, F.PWR_WAKE_SRC, F.PWR_WAKE_MERGED, F.MSIX_PBA],
    parts := [.warp, .skein, .island, .host, .power] }

def Touches.dieTick : Touch :=
  { regs := [F.WARP_STATUS_RATE_CLAMPED, F.WARP_STATUS_SLEW_ACTIVE, F.SLEW_NS, F.SAF_OVC_REMAIN_S, F.SAF_SOUT_MATRIX,
      F.SAF_SOUT_PERMIT, F.SAF_SOUT_STATE_ENERGISED, F.SAF_TERMS, F.PWR_STATUS_WAKE_PEND, F.PWR_STATUS_PHASE,
      F.PWR_WAKE_SRC, F.PWR_WAKE_MERGED],
    parts := [.warp, .island, .power] }

def Touches.sinChannelChange : Touch :=
  { regs := [F.WARP_STATUS_RATE_CLAMPED, F.WARP_STATUS_SLEW_ACTIVE, F.SLEW_NS, F.SAF_SIN, F.SAF_SIN_FAULT, F.SAF_SIN_A,
      F.SAF_SIN_B, F.SIN_CFG_FAULT_CAUSE],
    parts := [.warp, .island] }

def Touches.discrepancyFault : Touch :=
  { regs := [F.WARP_STATUS_RATE_CLAMPED, F.WARP_STATUS_SLEW_ACTIVE, F.SLEW_NS, F.SK_STATUS_BURST_FREE_KIB, F.SK_EVENT,
      F.SKS_SEQ, F.SKS_STATUS_RESIDENT, F.SKS_OVERWRITE, F.SAF_SIN, F.SAF_SIN_FAULT, F.SIN_CFG_FAULT_CAUSE,
      F.SYS_FAULT, F.SYS_FAULT_LAST, F.SYS_FAULT_T, F.MSIX_PBA],
    parts := [.warp, .skein, .island, .host] }

def Touches.testPulse : Touch :=
  { regs := [F.WARP_STATUS_RATE_CLAMPED, F.WARP_STATUS_SLEW_ACTIVE, F.SLEW_NS, F.SK_STATUS_BURST_FREE_KIB, F.SK_EVENT,
      F.SKS_SEQ, F.SKS_STATUS_RESIDENT, F.SKS_OVERWRITE, F.SAF_STATUS_START_WAIT, F.SAF_SIN, F.SAF_SIN_FAULT,
      F.SIN_CFG_FAULT_CAUSE, F.SYS_FAULT, F.SYS_FAULT_LAST, F.SYS_FAULT_T, F.MSIX_PBA],
    parts := [.warp, .skein, .island, .host] }

def Touches.outputTest : Touch :=
  { regs := [F.WARP_STATUS_RATE_CLAMPED, F.WARP_STATUS_SLEW_ACTIVE, F.SLEW_NS, F.SK_STATUS_BURST_FREE_KIB, F.SK_EVENT,
      F.SKS_SEQ, F.SKS_STATUS_RESIDENT, F.SKS_OVERWRITE, F.SAF_STATUS_START_WAIT, F.SAF_SOUT_MATRIX,
      F.SAF_SOUT_PERMIT, F.SAF_SOUT_STATE_FAULT, F.SAF_SOUT_STATE_ENERGISED, F.SOUT_CFG_FAULT_CAUSE,
      F.PWR_STATUS_WAKE_PEND, F.PWR_STATUS_PHASE, F.PWR_WAKE_SRC, F.PWR_WAKE_MERGED, F.SYS_FAULT, F.SYS_FAULT_LAST,
      F.SYS_FAULT_T, F.MSIX_PBA],
    parts := [.warp, .skein, .island, .host, .power] }

def Touches.termComparison : Touch :=
  { regs := [F.WARP_STATUS_RATE_CLAMPED, F.WARP_STATUS_SLEW_ACTIVE, F.SLEW_NS, F.SK_STATUS_BURST_FREE_KIB, F.SK_EVENT,
      F.SKS_SEQ, F.SKS_STATUS_RESIDENT, F.SKS_OVERWRITE, F.SAF_STATUS_START_WAIT, F.SAF_STATUS_MATRIX_FAULT,
      F.SAF_STATUS_START_BLOCKED, F.SAF_STATUS_OVC_ARMED, F.SAF_STATUS_PHASE, F.SAF_PHASE_T, F.SAF_OVC_REMAIN_S,
      F.SAF_CNT_CMP_MISMATCH, F.SAF_SOUT_MATRIX, F.SAF_SOUT_PERMIT, F.SAF_SOUT_STATE_ENERGISED,
      F.PWR_STATUS_WAKE_PEND, F.PWR_STATUS_PHASE, F.PWR_WAKE_SRC, F.PWR_WAKE_MERGED, F.SYS_FAULT, F.SYS_FAULT_LAST,
      F.SYS_FAULT_T, F.SYS_DEVFAULT, F.MSIX_PBA],
    parts := [.warp, .skein, .island, .tandem, .host, .power] }

def Touches.islandFault : Touch :=
  { regs := [F.WARP_STATUS_RATE_CLAMPED, F.WARP_STATUS_SLEW_ACTIVE, F.SLEW_NS, F.SK_STATUS_BURST_FREE_KIB, F.SK_EVENT,
      F.SKS_SEQ, F.SKS_STATUS_RESIDENT, F.SKS_OVERWRITE, F.SAF_STATUS_START_WAIT, F.SAF_STATUS_PROG_OK,
      F.SAF_STATUS_START_BLOCKED, F.SAF_STATUS_OVC_ARMED, F.SAF_STATUS_PHASE, F.SAF_PHASE_T, F.SAF_OVC_REMAIN_S,
      F.SAF_CNT_OVC_ENTRIES, F.SAF_SOUT_MATRIX, F.SAF_SOUT_PERMIT, F.SAF_SOUT_STATE_ENERGISED,
      F.PWR_STATUS_WAKE_PEND, F.PWR_STATUS_PHASE, F.PWR_WAKE_SRC, F.PWR_WAKE_MERGED, F.SYS_FAULT, F.SYS_FAULT_LAST,
      F.SYS_FAULT_T, F.MSIX_PBA],
    parts := [.warp, .skein, .island, .host, .power] }

def Touches.matrixLoad : Touch :=
  { regs := [F.WARP_STATUS_RATE_CLAMPED, F.WARP_STATUS_SLEW_ACTIVE, F.SLEW_NS, F.SK_STATUS_BURST_FREE_KIB, F.SK_EVENT,
      F.SKS_SEQ, F.SKS_STATUS_RESIDENT, F.SKS_OVERWRITE, F.SAF_STATUS_START_WAIT, F.SAF_STATUS_MATRIX_FAULT,
      F.SAF_STATUS_MATRIX_OK, F.SAF_STATUS_START_BLOCKED, F.SAF_STATUS_OVC_ARMED, F.SAF_STATUS_PHASE,
      F.SAF_PHASE_T, F.SAF_OVC_REMAIN_S, F.SAF_OVC_WINDOW_S, F.SAF_SIN, F.SAF_SIN_FAULT, F.SAF_SOUT_MATRIX,
      F.SAF_SOUT_PERMIT, F.SAF_SOUT_STATE_ENERGISED, F.SAF_TERMS, F.SAF_MATRIX_VER, F.SAF_MATRIX_CRC,
      F.SIN_CFG_FAULT_CAUSE, F.SIN_CFG_TEST, F.SIN_CFG_MODE, F.SIN_CFG_DISC_MS, F.SOUT_CFG_TPW_US, F.SOUT_CFG_TEST,
      F.SOUT_CFG_USED, F.SOUT_CFG_NB, F.PWR_STATUS_WAKE_PEND, F.PWR_STATUS_PHASE, F.PWR_WAKE_SRC,
      F.PWR_WAKE_MERGED, F.SYS_FAULT, F.SYS_FAULT_LAST, F.SYS_FAULT_T, F.SYS_DEVFAULT, F.MSIX_PBA],
    parts := [.warp, .skein, .island, .tandem, .host, .power] }

def Touches.overcastWindowEnd : Touch :=
  { regs := [F.WARP_STATUS_RATE_CLAMPED, F.WARP_STATUS_SLEW_ACTIVE, F.SLEW_NS, F.SK_STATUS_BURST_FREE_KIB, F.SK_EVENT,
      F.SKS_SEQ, F.SKS_STATUS_RESIDENT, F.SKS_OVERWRITE, F.SAF_STATUS_START_WAIT, F.SAF_STATUS_START_BLOCKED,
      F.SAF_STATUS_OVC_ARMED, F.SAF_STATUS_PHASE, F.SAF_PHASE_T, F.SAF_OVC_REMAIN_S, F.SAF_SOUT_MATRIX,
      F.SAF_SOUT_PERMIT, F.SAF_SOUT_STATE_ENERGISED, F.PWR_STATUS_WAKE_PEND, F.PWR_STATUS_PHASE, F.PWR_WAKE_SRC,
      F.PWR_WAKE_MERGED, F.MSIX_PBA],
    parts := [.warp, .skein, .island, .host, .power] }

def Touches.overcastArmed : Touch :=
  { regs := [F.WARP_STATUS_RATE_CLAMPED, F.WARP_STATUS_SLEW_ACTIVE, F.SLEW_NS, F.SAF_STATUS_OVC_ARMED],
    parts := [.warp] }

def Touches.sclkCrosscheck : Touch :=
  { regs := [F.WARP_STATUS_RATE_CLAMPED, F.WARP_STATUS_SLEW_ACTIVE, F.SLEW_NS, F.SK_STATUS_BURST_FREE_KIB, F.SK_EVENT,
      F.SKS_SEQ, F.SKS_STATUS_RESIDENT, F.SKS_OVERWRITE, F.SAF_STATUS_START_WAIT, F.SAF_STATUS_SCLK_FREE,
      F.SAF_STATUS_PROG_OK, F.SAF_STATUS_START_BLOCKED, F.SAF_STATUS_OVC_ARMED, F.SAF_STATUS_PHASE, F.SAF_PHASE_T,
      F.SAF_OVC_REMAIN_S, F.SAF_CNT_OVC_ENTRIES, F.SAF_SOUT_MATRIX, F.SAF_SOUT_PERMIT, F.SAF_SOUT_STATE_ENERGISED,
      F.PWR_STATUS_WAKE_PEND, F.PWR_STATUS_PHASE, F.PWR_WAKE_SRC, F.PWR_WAKE_MERGED, F.SYS_FAULT, F.SYS_FAULT_LAST,
      F.SYS_FAULT_T, F.MSIX_PBA],
    parts := [.warp, .skein, .island, .host, .power] }

def Touches.weftFrame : Touch :=
  { regs := [F.WARP_STATUS_RATE_CLAMPED, F.WARP_STATUS_SLEW_ACTIVE, F.SLEW_NS, F.WC_STATUS_SEQ, F.WC_STATUS_STATE,
      F.WC_ERR_SEQ_ERR, F.WC_ERR_CRC_ERR],
    parts := [.warp, .island] }

def Touches.weftDeadline : Touch :=
  { regs := [F.WARP_STATUS_RATE_CLAMPED, F.WARP_STATUS_SLEW_ACTIVE, F.SLEW_NS, F.SK_STATUS_BURST_FREE_KIB, F.SK_EVENT,
      F.SKS_SEQ, F.SKS_STATUS_RESIDENT, F.SKS_OVERWRITE, F.WC_STATUS_STATE, F.WC_EXP_EXPIRIES],
    parts := [.warp, .skein, .island] }

def Touches.programMatrix : Touch :=
  { regs := [F.WARP_STATUS_RATE_CLAMPED, F.WARP_STATUS_SLEW_ACTIVE, F.SLEW_NS, F.SK_STATUS_BURST_FREE_KIB, F.SK_EVENT,
      F.SKS_SEQ, F.SKS_STATUS_RESIDENT, F.SKS_OVERWRITE, F.SAF_STATUS_START_WAIT, F.SAF_STATUS_MATRIX_FAULT,
      F.SAF_STATUS_PROG_OK, F.SAF_STATUS_MATRIX_OK, F.SAF_STATUS_START_BLOCKED, F.SAF_STATUS_OVC_ARMED,
      F.SAF_STATUS_PHASE, F.SAF_PHASE_T, F.SAF_OVC_REMAIN_S, F.SAF_OVC_WINDOW_S, F.SAF_SIN, F.SAF_SIN_FAULT,
      F.SAF_SOUT_MATRIX, F.SAF_SOUT_PERMIT, F.SAF_SOUT_STATE_ENERGISED, F.SAF_TERMS, F.SAF_MATRIX_VER,
      F.SAF_MATRIX_CRC, F.SAF_MATRIX_WRITES, F.SIN_CFG_FAULT_CAUSE, F.SIN_CFG_TEST, F.SIN_CFG_MODE,
      F.SIN_CFG_DISC_MS, F.SOUT_CFG_TPW_US, F.SOUT_CFG_TEST, F.SOUT_CFG_USED, F.SOUT_CFG_NB, F.TD_EVENT,
      F.PWR_STATUS_WAKE_PEND, F.PWR_STATUS_PHASE, F.PWR_WAKE_SRC, F.PWR_WAKE_MERGED, F.SYS_FAULT, F.SYS_FAULT_LAST,
      F.SYS_FAULT_T, F.SYS_DEVFAULT, F.HOST_EVENT, F.MBX_STATE_COMP, F.PV_SEQ, F.MSIX_PBA],
    parts := [.warp, .skein, .island, .tandem, .host, .answer, .power, .dram] }

def Touches.loadSafety : Touch :=
  { regs := [F.WARP_STATUS_RATE_CLAMPED, F.WARP_STATUS_SLEW_ACTIVE, F.SLEW_NS, F.SK_STATUS_BURST_FREE_KIB, F.SK_EVENT,
      F.SKS_SEQ, F.SKS_STATUS_RESIDENT, F.SKS_OVERWRITE, F.SAF_STATUS_START_WAIT, F.SAF_STATUS_PROG_OK,
      F.SAF_STATUS_START_BLOCKED, F.SAF_STATUS_OVC_ARMED, F.SAF_STATUS_PHASE, F.SAF_PHASE_T, F.SAF_OVC_REMAIN_S,
      F.SAF_SOUT_MATRIX, F.SAF_SOUT_PERMIT, F.SAF_SOUT_STATE_ENERGISED, F.TD_EVENT, F.PWR_STATUS_WAKE_PEND,
      F.PWR_STATUS_PHASE, F.PWR_WAKE_SRC, F.PWR_WAKE_MERGED, F.HOST_EVENT, F.MBX_STATE_COMP, F.PV_SEQ, F.MSIX_PBA],
    parts := [.warp, .skein, .island, .tandem, .host, .answer, .power, .dram] }

def Touches.safetyPhase : Touch :=
  { regs := [F.WARP_STATUS_RATE_CLAMPED, F.WARP_STATUS_SLEW_ACTIVE, F.SLEW_NS, F.TD_EVENT, F.HOST_EVENT, F.MBX_STATE_COMP,
      F.PV_SEQ, F.MSIX_PBA],
    parts := [.warp, .island, .tandem, .host, .answer, .dram] }

def Touches.safetyReset : Touch :=
  { regs := [F.WARP_STATUS_RATE_CLAMPED, F.WARP_STATUS_SLEW_ACTIVE, F.SLEW_NS, F.SAF_SOUT_MATRIX, F.SAF_SOUT_PERMIT,
      F.SAF_SOUT_STATE_FAULT, F.SAF_SOUT_STATE_ENERGISED, F.SOUT_CFG_FAULT_CAUSE, F.TD_EVENT,
      F.PWR_STATUS_WAKE_PEND, F.PWR_STATUS_PHASE, F.PWR_WAKE_SRC, F.PWR_WAKE_MERGED, F.HOST_EVENT,
      F.MBX_STATE_COMP, F.PV_SEQ, F.MSIX_PBA],
    parts := [.warp, .tandem, .host, .answer, .power, .dram] }

def Touches.status : Touch :=
  { regs := [F.WARP_STATUS_RATE_CLAMPED, F.WARP_STATUS_SLEW_ACTIVE, F.SLEW_NS, F.SK_STATUS_BURST_FREE_KIB, F.SK_EVENT,
      F.SKS_SEQ, F.SKS_STATUS_RESIDENT, F.SKS_OVERWRITE, F.RING_CTRL_ROLE, F.RING_STATUS_STATE, F.TD_STATUS_TERM,
      F.TD_STATUS_PARTNER_ROLE, F.TD_STATUS_ROLE, F.TD_STATUS_ARBITRATING, F.TD_STATUS_WARP_SYNC,
      F.TD_STATUS_LINK_UP, F.TD_STATUS_SYNC_PHASE, F.TD_EVENT, F.TD_RESULT, F.TD_LOST_T, F.TD_GUARD_EFF,
      F.LINK_ERR, F.PWR_STATUS_WAKE_PEND, F.PWR_STATUS_PHASE, F.PWR_WAKE_SRC, F.PWR_WAKE_MERGED, F.MSIX_PBA],
    parts := [.warp, .skein, .tandem, .host, .power, .rings, .freeCtr] }

def Touches.renew : Touch :=
  { regs := [F.WARP_STATUS_RATE_CLAMPED, F.WARP_STATUS_SLEW_ACTIVE, F.SLEW_NS, F.TD_STATUS_TERM, F.TD_EXPIRY,
      F.TD_GUARD_EFF, F.LINK_ERR],
    parts := [.warp, .tandem] }

def Touches.renewAck : Touch :=
  { regs := [F.WARP_STATUS_RATE_CLAMPED, F.WARP_STATUS_SLEW_ACTIVE, F.SLEW_NS, F.TD_EXPIRY, F.TD_GUARD_EFF, F.LINK_ERR],
    parts := [.warp, .tandem] }

def Touches.digest : Touch :=
  { regs := [F.WARP_STATUS_RATE_CLAMPED, F.WARP_STATUS_SLEW_ACTIVE, F.SLEW_NS, F.SK_STATUS_BURST_FREE_KIB, F.SK_EVENT,
      F.SKS_SEQ, F.SKS_STATUS_RESIDENT, F.SKS_OVERWRITE, F.RING_CTRL_ROLE, F.RING_STATUS_STATE, F.TD_STATUS_ROLE,
      F.TD_STATUS_ARBITRATING, F.TD_STATUS_SYNC_PHASE, F.TD_EVENT, F.TD_RESULT, F.TD_DIV_CNT, F.TD_DIV_WHERE_RING,
      F.TD_DIV_WHERE_CYCLE, F.LINK_ERR, F.PWR_STATUS_WAKE_PEND, F.PWR_STATUS_PHASE, F.PWR_WAKE_SRC,
      F.PWR_WAKE_MERGED, F.SYS_FAULT, F.SYS_FAULT_LAST, F.SYS_FAULT_T, F.MSIX_PBA],
    parts := [.warp, .skein, .tandem, .host, .power, .rings, .freeCtr] }

def Touches.have_ : Touch :=
  { regs := [F.WARP_STATUS_RATE_CLAMPED, F.WARP_STATUS_SLEW_ACTIVE, F.SLEW_NS, F.LINK_ERR],
    parts := [.warp, .tandem] }

def Touches.inputs : Touch :=
  { regs := [F.WARP_STATUS_RATE_CLAMPED, F.WARP_STATUS_SLEW_ACTIVE, F.SLEW_NS, F.LINK_ERR],
    parts := [.warp, .tandem] }

def Touches.time : Touch :=
  { regs := [F.WARP_STATUS_RATE_CLAMPED, F.WARP_STATUS_SLEW_ACTIVE, F.WARP_STATUS_EPOCH, F.WARP_EVENT_SYNC_LATE,
      F.WARP_EVENT_STEP_REFUSED, F.WARP_EVENT_STEP_DONE, F.RATE_ADJ, F.SLEW_NS, F.STEP_TO, F.STEP_CTRL_RESULT,
      F.SYNC_OUT_CFG_ARM, F.SK_STATUS_BURST_FREE_KIB, F.SK_EVENT, F.SKS_SEQ, F.SKS_STATUS_RESIDENT,
      F.SKS_OVERWRITE, F.RING_CTRL_ROLE, F.RING_STATUS_STATE, F.TD_STATUS_ROLE, F.TD_STATUS_ARBITRATING,
      F.TD_STATUS_WARP_SYNC, F.TD_STATUS_LINK_UP, F.TD_STATUS_SYNC_PHASE, F.TD_EVENT, F.TD_RESULT, F.TD_LOST_T,
      F.TD_GUARD_EFF, F.TD_OFFSET, F.LINK_ERR, F.PWR_STATUS_WAKE_PEND, F.PWR_STATUS_PHASE, F.PWR_WAKE_SRC,
      F.PWR_WAKE_MERGED, F.MSIX_PBA],
    parts := [.warp, .skein, .fio, .tandem, .host, .power, .rings, .freeCtr] }

def Touches.handover : Touch :=
  { regs := [F.WARP_STATUS_RATE_CLAMPED, F.WARP_STATUS_SLEW_ACTIVE, F.SLEW_NS, F.LINK_ERR],
    parts := [.warp, .tandem] }

def Touches.handoverAck : Touch :=
  { regs := [F.WARP_STATUS_RATE_CLAMPED, F.WARP_STATUS_SLEW_ACTIVE, F.SLEW_NS, F.LINK_ERR],
    parts := [.warp, .tandem] }

def Touches.commit : Touch :=
  { regs := [F.WARP_STATUS_RATE_CLAMPED, F.WARP_STATUS_SLEW_ACTIVE, F.SLEW_NS, F.LINK_ERR],
    parts := [.warp, .tandem] }

def Touches.handoverInstant : Touch :=
  { regs := [F.WARP_STATUS_RATE_CLAMPED, F.WARP_STATUS_SLEW_ACTIVE, F.SLEW_NS, F.SK_STATUS_BURST_FREE_KIB, F.SK_EVENT,
      F.SKS_SEQ, F.SKS_STATUS_RESIDENT, F.SKS_OVERWRITE, F.RING_CTRL_ROLE, F.RING_STATUS_STATE, F.TD_STATUS_TERM,
      F.TD_STATUS_ROLE, F.TD_STATUS_SYNC_PHASE, F.TD_EVENT, F.TD_EXPIRY, F.TD_GUARD_EFF, F.TD_LAST_SWITCH,
      F.PWR_STATUS_WAKE_PEND, F.PWR_STATUS_PHASE, F.PWR_WAKE_SRC, F.PWR_WAKE_MERGED, F.MSIX_PBA],
    parts := [.warp, .skein, .island, .tandem, .host, .power, .rings, .freeCtr] }

def Touches.check : Touch :=
  { regs := [F.WARP_STATUS_RATE_CLAMPED, F.WARP_STATUS_SLEW_ACTIVE, F.SLEW_NS, F.SK_STATUS_BURST_FREE_KIB, F.SK_EVENT,
      F.SKS_SEQ, F.SKS_STATUS_RESIDENT, F.SKS_OVERWRITE, F.RING_CTRL_ROLE, F.RING_STATUS_STATE, F.TD_STATUS_ROLE,
      F.TD_STATUS_ARBITRATING, F.TD_STATUS_SYNC_PHASE, F.TD_EVENT, F.LINK_ERR, F.PWR_STATUS_WAKE_PEND,
      F.PWR_STATUS_PHASE, F.PWR_WAKE_SRC, F.PWR_WAKE_MERGED, F.SYS_DEVFAULT, F.MSIX_PBA],
    parts := [.warp, .skein, .tandem, .host, .power, .rings, .freeCtr] }

def Touches.rapidSelfCheckDone : Touch :=
  { regs := [F.WARP_STATUS_RATE_CLAMPED, F.WARP_STATUS_SLEW_ACTIVE, F.SLEW_NS, F.SK_STATUS_BURST_FREE_KIB, F.SK_EVENT,
      F.SKS_SEQ, F.SKS_STATUS_RESIDENT, F.SKS_OVERWRITE, F.RING_CTRL_ROLE, F.RING_STATUS_STATE, F.TD_STATUS_ROLE,
      F.TD_STATUS_ARBITRATING, F.TD_STATUS_SYNC_PHASE, F.TD_EVENT, F.PWR_STATUS_WAKE_PEND, F.PWR_STATUS_PHASE,
      F.PWR_WAKE_SRC, F.PWR_WAKE_MERGED, F.SYS_DEVFAULT, F.MSIX_PBA],
    parts := [.warp, .skein, .tandem, .host, .power, .rings, .freeCtr] }

def Touches.cmd : Touch :=
  { regs := [F.WARP_STATUS_RATE_CLAMPED, F.WARP_STATUS_SLEW_ACTIVE, F.SLEW_NS, F.LINK_ERR],
    parts := [.warp, .tandem] }

def Touches.executionInstant : Touch :=
  { regs := [F.WARP_STATUS_RATE_CLAMPED, F.WARP_STATUS_SLEW_ACTIVE, F.SLEW_NS, F.TD_STATUS_PARTNER_ROLE],
    parts := [.warp, .tandem] }

def Touches.snap : Touch :=
  { regs := [F.WARP_STATUS_RATE_CLAMPED, F.WARP_STATUS_SLEW_ACTIVE, F.SLEW_NS, F.TD_STATUS_SYNC_PHASE, F.LINK_ERR,
      F.TD_SYNC_AVG],
    parts := [.warp, .tandem] }

def Touches.snapAck : Touch :=
  { regs := [F.WARP_STATUS_RATE_CLAMPED, F.WARP_STATUS_SLEW_ACTIVE, F.SLEW_NS, F.LINK_ERR, F.TD_SYNC_AVG],
    parts := [.warp, .tandem] }

def Touches.renewalInstant : Touch :=
  { regs := [F.WARP_STATUS_RATE_CLAMPED, F.WARP_STATUS_SLEW_ACTIVE, F.SLEW_NS, F.TD_EXPIRY, F.TD_GUARD_EFF, F.TD_WITNESS],
    parts := [.warp, .tandem] }

def Touches.linkLost : Touch :=
  { regs := [F.WARP_STATUS_RATE_CLAMPED, F.WARP_STATUS_SLEW_ACTIVE, F.SLEW_NS, F.SK_STATUS_BURST_FREE_KIB, F.SK_EVENT,
      F.SKS_SEQ, F.SKS_STATUS_RESIDENT, F.SKS_OVERWRITE, F.RING_CTRL_ROLE, F.RING_STATUS_STATE, F.TD_STATUS_ROLE,
      F.TD_STATUS_ARBITRATING, F.TD_STATUS_WARP_SYNC, F.TD_STATUS_LINK_UP, F.TD_STATUS_SYNC_PHASE, F.TD_EVENT,
      F.TD_RESULT, F.TD_LOST_T, F.TD_GUARD_EFF, F.PWR_STATUS_WAKE_PEND, F.PWR_STATUS_PHASE, F.PWR_WAKE_SRC,
      F.PWR_WAKE_MERGED, F.MSIX_PBA],
    parts := [.warp, .skein, .tandem, .host, .power, .rings, .freeCtr] }

def Touches.linkUp : Touch :=
  { regs := [F.WARP_STATUS_RATE_CLAMPED, F.WARP_STATUS_SLEW_ACTIVE, F.SLEW_NS, F.SK_STATUS_BURST_FREE_KIB, F.SK_EVENT,
      F.SKS_SEQ, F.SKS_STATUS_RESIDENT, F.SKS_OVERWRITE, F.RING_CTRL_ROLE, F.RING_STATUS_STATE, F.TD_STATUS_ROLE,
      F.TD_STATUS_WARP_SYNC, F.TD_STATUS_LINK_UP, F.TD_STATUS_SYNC_PHASE, F.TD_EVENT, F.TD_RESULT, F.TD_GUARD_EFF,
      F.PWR_STATUS_WAKE_PEND, F.PWR_STATUS_PHASE, F.PWR_WAKE_SRC, F.PWR_WAKE_MERGED, F.MSIX_PBA],
    parts := [.warp, .skein, .tandem, .host, .power, .rings, .freeCtr] }

def Touches.lapse : Touch :=
  { regs := [F.WARP_STATUS_RATE_CLAMPED, F.WARP_STATUS_SLEW_ACTIVE, F.SLEW_NS, F.SK_STATUS_BURST_FREE_KIB, F.SK_EVENT,
      F.SKS_SEQ, F.SKS_STATUS_RESIDENT, F.SKS_OVERWRITE, F.RING_CTRL_ROLE, F.RING_STATUS_STATE, F.TD_STATUS_ROLE,
      F.TD_EVENT, F.PWR_STATUS_WAKE_PEND, F.PWR_STATUS_PHASE, F.PWR_WAKE_SRC, F.PWR_WAKE_MERGED, F.MSIX_PBA],
    parts := [.warp, .skein, .tandem, .host, .power, .rings, .freeCtr] }

def Touches.takeover : Touch :=
  { regs := [F.WARP_STATUS_RATE_CLAMPED, F.WARP_STATUS_SLEW_ACTIVE, F.SLEW_NS, F.SK_STATUS_BURST_FREE_KIB, F.SK_EVENT,
      F.SKS_SEQ, F.SKS_STATUS_RESIDENT, F.SKS_OVERWRITE, F.RING_CTRL_ROLE, F.RING_STATUS_STATE, F.TD_STATUS_TERM,
      F.TD_STATUS_ROLE, F.TD_STATUS_SYNC_PHASE, F.TD_EVENT, F.TD_EXPIRY, F.TD_GUARD_EFF, F.PWR_STATUS_WAKE_PEND,
      F.PWR_STATUS_PHASE, F.PWR_WAKE_SRC, F.PWR_WAKE_MERGED, F.MSIX_PBA],
    parts := [.warp, .skein, .island, .tandem, .host, .power, .rings, .freeCtr] }

def Touches.replayTimeout : Touch :=
  { regs := [F.WARP_STATUS_RATE_CLAMPED, F.WARP_STATUS_SLEW_ACTIVE, F.SLEW_NS, F.SK_STATUS_BURST_FREE_KIB, F.SK_EVENT,
      F.SKS_SEQ, F.SKS_STATUS_RESIDENT, F.SKS_OVERWRITE, F.TD_STATUS_SYNC_PHASE, F.TD_EVENT, F.TD_RESULT, F.MSIX_PBA],
    parts := [.warp, .skein, .tandem, .host] }

def Touches.resyncRetry : Touch :=
  { regs := [F.WARP_STATUS_RATE_CLAMPED, F.WARP_STATUS_SLEW_ACTIVE, F.SLEW_NS, F.SK_STATUS_BURST_FREE_KIB, F.SK_EVENT,
      F.SKS_SEQ, F.SKS_STATUS_RESIDENT, F.SKS_OVERWRITE, F.TD_STATUS_SYNC_PHASE, F.TD_EVENT, F.TD_RESULT, F.MSIX_PBA],
    parts := [.warp, .skein, .tandem, .host] }

def Touches.soloStart : Touch :=
  { regs := [F.WARP_STATUS_RATE_CLAMPED, F.WARP_STATUS_SLEW_ACTIVE, F.SLEW_NS, F.SK_STATUS_BURST_FREE_KIB, F.SK_EVENT,
      F.SKS_SEQ, F.SKS_STATUS_RESIDENT, F.SKS_OVERWRITE, F.RING_CTRL_ROLE, F.RING_STATUS_STATE, F.TD_STATUS_TERM,
      F.TD_STATUS_ROLE, F.TD_EVENT, F.TD_EXPIRY, F.TD_GUARD_EFF, F.PWR_STATUS_WAKE_PEND, F.PWR_STATUS_PHASE,
      F.PWR_WAKE_SRC, F.PWR_WAKE_MERGED, F.MSIX_PBA],
    parts := [.warp, .skein, .island, .tandem, .host, .power, .rings, .freeCtr] }

def Touches.join : Touch :=
  { regs := [F.WARP_STATUS_RATE_CLAMPED, F.WARP_STATUS_SLEW_ACTIVE, F.SLEW_NS, F.SK_STATUS_BURST_FREE_KIB, F.SK_EVENT,
      F.SKS_SEQ, F.SKS_STATUS_RESIDENT, F.SKS_OVERWRITE, F.RING_CTRL_ROLE, F.RING_STATUS_STATE, F.TD_STATUS_ROLE,
      F.TD_EVENT, F.PWR_STATUS_WAKE_PEND, F.PWR_STATUS_PHASE, F.PWR_WAKE_SRC, F.PWR_WAKE_MERGED,
      F.SYS_DISCARD_REASON, F.SYS_DISCARD_OFFSET, F.SYS_DISCARD_CNT, F.MBX_STATE_COMP, F.PV_SEQ, F.MSIX_PBA],
    parts := [.warp, .skein, .tandem, .host, .answer, .power, .rings, .dram, .freeCtr] }

def Touches.leave : Touch :=
  { regs := [F.WARP_STATUS_RATE_CLAMPED, F.WARP_STATUS_SLEW_ACTIVE, F.SLEW_NS, F.SK_STATUS_BURST_FREE_KIB, F.SK_EVENT,
      F.SKS_SEQ, F.SKS_STATUS_RESIDENT, F.SKS_OVERWRITE, F.RING_CTRL_ROLE, F.RING_STATUS_STATE, F.TD_STATUS_ROLE,
      F.TD_STATUS_SYNC_PHASE, F.TD_EVENT, F.PWR_STATUS_WAKE_PEND, F.PWR_STATUS_PHASE, F.PWR_WAKE_SRC,
      F.PWR_WAKE_MERGED, F.SYS_DISCARD_REASON, F.SYS_DISCARD_OFFSET, F.SYS_DISCARD_CNT, F.MBX_STATE_COMP, F.PV_SEQ,
      F.MSIX_PBA],
    parts := [.warp, .skein, .tandem, .host, .answer, .power, .rings, .dram, .freeCtr] }

def Touches.resync : Touch :=
  { regs := [F.WARP_STATUS_RATE_CLAMPED, F.WARP_STATUS_SLEW_ACTIVE, F.SLEW_NS, F.SK_STATUS_BURST_FREE_KIB, F.SK_EVENT,
      F.SKS_SEQ, F.SKS_STATUS_RESIDENT, F.SKS_OVERWRITE, F.RING_CTRL_ROLE, F.RING_STATUS_STATE, F.TD_STATUS_ROLE,
      F.TD_STATUS_SYNC_PHASE, F.TD_EVENT, F.TD_RESULT, F.PWR_STATUS_WAKE_PEND, F.PWR_STATUS_PHASE, F.PWR_WAKE_SRC,
      F.PWR_WAKE_MERGED, F.SYS_DISCARD_REASON, F.SYS_DISCARD_OFFSET, F.SYS_DISCARD_CNT, F.MBX_STATE_COMP, F.PV_SEQ,
      F.MSIX_PBA],
    parts := [.warp, .skein, .tandem, .host, .answer, .power, .rings, .dram, .freeCtr] }

def Touches.switch : Touch :=
  { regs := [F.WARP_STATUS_RATE_CLAMPED, F.WARP_STATUS_SLEW_ACTIVE, F.SLEW_NS, F.TD_EVENT, F.SYS_DISCARD_REASON,
      F.SYS_DISCARD_OFFSET, F.SYS_DISCARD_CNT, F.MBX_STATE_COMP, F.PV_SEQ, F.MSIX_PBA],
    parts := [.warp, .tandem, .host, .answer, .dram] }

def Touches.authority : Touch :=
  { regs := [F.WARP_STATUS_RATE_CLAMPED, F.WARP_STATUS_SLEW_ACTIVE, F.SLEW_NS, F.SK_STATUS_BURST_FREE_KIB, F.SK_EVENT,
      F.SKS_SEQ, F.SKS_STATUS_RESIDENT, F.SKS_OVERWRITE, F.TD_EVENT, F.SEC_STATUS_LIFECYCLE, F.SEC_STATUS_REVOKED,
      F.SEC_STATUS_PROGRAMMED, F.SEC_STATUS_FLOOR_LOST, F.SEC_EVENT, F.SEC_AUTH_RESULT_OP,
      F.SEC_AUTH_RESULT_RESULT, F.SEC_BEAM_FLOOR, F.SEC_MATRIX_FLOOR, F.SEC_SAFEPROG_FLOOR, F.SEC_AUTHOR_KEYS,
      F.SEC_RING_KEYS_PENDING, F.SEC_RECIPE_FLOOR, F.SEC_DRAFT_FLOOR, F.SEC_PROG_FLOOR, F.HOST_EVENT,
      F.MBX_STATE_COMP, F.PV_SEQ, F.MSIX_PBA],
    parts := [.warp, .skein, .tandem, .sec, .host, .answer, .dram] }

def Touches.applyDelta : Touch :=
  { regs := [F.WARP_STATUS_RATE_CLAMPED, F.WARP_STATUS_SLEW_ACTIVE, F.SLEW_NS, F.SK_STATUS_BURST_FREE_KIB, F.SK_EVENT,
      F.SKS_SEQ, F.SKS_STATUS_RESIDENT, F.SKS_OVERWRITE, F.TD_EVENT, F.UPD_STATUS_APPLY_RESULT, F.UPD_STATUS_STATE,
      F.UPD_EVENT, F.UPD_PROGRESS, F.UPD_SLOT_A_FW_SVN, F.UPD_SLOT_A_STATE, F.UPD_SLOT_B_FW_SVN,
      F.UPD_SLOT_B_STATE, F.BUNDLE_VER_A, F.BUNDLE_VER_B, F.HOST_EVENT, F.MBX_STATE_COMP, F.PV_SEQ, F.MSIX_PBA],
    parts := [.warp, .skein, .tandem, .sec, .host, .answer, .dram] }

def Touches.deltaApplyDone : Touch :=
  { regs := [F.WARP_STATUS_RATE_CLAMPED, F.WARP_STATUS_SLEW_ACTIVE, F.SLEW_NS, F.SK_STATUS_BURST_FREE_KIB, F.SK_EVENT,
      F.SKS_SEQ, F.SKS_STATUS_RESIDENT, F.SKS_OVERWRITE, F.UPD_STATUS_APPLY_RESULT, F.UPD_STATUS_STATE,
      F.UPD_EVENT, F.UPD_PROGRESS, F.UPD_APPLY_AVG, F.UPD_SLOT_A_FW_SVN, F.UPD_SLOT_A_STATE, F.UPD_SLOT_B_FW_SVN,
      F.UPD_SLOT_B_STATE, F.BUNDLE_VER_A, F.BUNDLE_VER_B, F.MSIX_PBA],
    parts := [.warp, .skein, .sec, .host] }

def Touches.debugChallenge : Touch :=
  { regs := [F.WARP_STATUS_RATE_CLAMPED, F.WARP_STATUS_SLEW_ACTIVE, F.SLEW_NS, F.TD_EVENT, F.HOST_EVENT, F.MBX_STATE_COMP,
      F.PV_SEQ, F.MSIX_PBA],
    parts := [.warp, .tandem, .sec, .host, .answer, .dram, .freeCtr] }

def Touches.debugOpen : Touch :=
  { regs := [F.WARP_STATUS_RATE_CLAMPED, F.WARP_STATUS_SLEW_ACTIVE, F.SLEW_NS, F.SK_STATUS_BURST_FREE_KIB, F.SK_EVENT,
      F.SKS_SEQ, F.SKS_STATUS_RESIDENT, F.SKS_OVERWRITE, F.TD_EVENT, F.SEC_STATUS_DEBUG_LEVEL, F.SEC_EVENT,
      F.SEC_DEBUG_REMAIN, F.PWR_STATUS_WAKE_PEND, F.PWR_STATUS_PHASE, F.PWR_WAKE_SRC, F.PWR_WAKE_MERGED,
      F.HOST_EVENT, F.MBX_STATE_COMP, F.PV_SEQ, F.MSIX_PBA],
    parts := [.warp, .skein, .trig, .tandem, .sec, .host, .answer, .power, .dram] }

def Touches.debugClose : Touch :=
  { regs := [F.WARP_STATUS_RATE_CLAMPED, F.WARP_STATUS_SLEW_ACTIVE, F.SLEW_NS, F.SK_STATUS_BURST_FREE_KIB, F.SK_EVENT,
      F.SKS_SEQ, F.SKS_STATUS_RESIDENT, F.SKS_OVERWRITE, F.TD_EVENT, F.SEC_STATUS_DEBUG_LEVEL, F.SEC_EVENT,
      F.SEC_DEBUG_REMAIN, F.HOST_EVENT, F.MBX_STATE_COMP, F.PV_SEQ, F.MSIX_PBA],
    parts := [.warp, .skein, .tandem, .host, .answer, .dram] }

def Touches.debugExpiry : Touch :=
  { regs := [F.WARP_STATUS_RATE_CLAMPED, F.WARP_STATUS_SLEW_ACTIVE, F.SLEW_NS, F.SK_STATUS_BURST_FREE_KIB, F.SK_EVENT,
      F.SKS_SEQ, F.SKS_STATUS_RESIDENT, F.SKS_OVERWRITE, F.SEC_STATUS_DEBUG_LEVEL, F.SEC_EVENT, F.SEC_DEBUG_REMAIN],
    parts := [.warp, .skein] }

def Touches.attest : Touch :=
  { regs := [F.WARP_STATUS_RATE_CLAMPED, F.WARP_STATUS_SLEW_ACTIVE, F.SLEW_NS, F.TD_EVENT, F.SEC_EVENT, F.HOST_EVENT,
      F.MBX_STATE_COMP, F.PV_SEQ, F.MSIX_PBA],
    parts := [.warp, .tandem, .host, .answer, .dram] }

def Touches.activate : Touch :=
  { regs := [F.WARP_STATUS_RATE_CLAMPED, F.WARP_STATUS_SLEW_ACTIVE, F.SLEW_NS, F.SK_STATUS_BURST_FREE_KIB, F.SK_EVENT,
      F.SKS_SEQ, F.SKS_STATUS_RESIDENT, F.SKS_OVERWRITE, F.TD_EVENT, F.UPD_STATUS_STATE, F.UPD_EVENT,
      F.SYS_DISCARD_REASON, F.SYS_DISCARD_OFFSET, F.SYS_DISCARD_CNT, F.MBX_STATE_COMP, F.PV_SEQ, F.MSIX_PBA],
    parts := [.warp, .skein, .tandem, .host, .answer, .dram] }

def Touches.updCancel : Touch :=
  { regs := [F.WARP_STATUS_RATE_CLAMPED, F.WARP_STATUS_SLEW_ACTIVE, F.SLEW_NS, F.SK_STATUS_BURST_FREE_KIB, F.SK_EVENT,
      F.SKS_SEQ, F.SKS_STATUS_RESIDENT, F.SKS_OVERWRITE, F.TD_EVENT, F.UPD_STATUS_STATE, F.UPD_EVENT,
      F.SYS_DISCARD_REASON, F.SYS_DISCARD_OFFSET, F.SYS_DISCARD_CNT, F.MBX_STATE_COMP, F.PV_SEQ, F.MSIX_PBA],
    parts := [.warp, .skein, .tandem, .host, .answer, .dram] }

def Touches.confirm : Touch :=
  { regs := [F.WARP_STATUS_RATE_CLAMPED, F.WARP_STATUS_SLEW_ACTIVE, F.SLEW_NS, F.SK_STATUS_BURST_FREE_KIB, F.SK_EVENT,
      F.SKS_SEQ, F.SKS_STATUS_RESIDENT, F.SKS_OVERWRITE, F.TD_EVENT, F.SEC_FW_FLOOR, F.SEC_BEAM_FLOOR,
      F.UPD_STATUS_STATE, F.UPD_EVENT, F.UPD_SLOT_A_FW_SVN, F.UPD_SLOT_A_STATE, F.UPD_SLOT_B_FW_SVN,
      F.UPD_SLOT_B_STATE, F.BUNDLE_VER_A, F.BUNDLE_VER_B, F.SYS_DISCARD_REASON, F.SYS_DISCARD_OFFSET,
      F.SYS_DISCARD_CNT, F.MBX_STATE_COMP, F.PV_SEQ, F.MSIX_PBA],
    parts := [.warp, .skein, .tandem, .sec, .host, .answer, .dram] }

def Touches.activationCheck : Touch :=
  { anyReg := true,
    parts := [.latches, .staged, .warp, .skein, .cells, .fio, .aout, .ain, .conv, .rot, .treadles, .gens, .axes, .groups, .trig, .loom, .sched, .cyc, .island, .tandem, .sec, .host, .boot, .answer, .power, .rings, .sram, .dram, .dlm, .freeCtr] }

def Touches.bar2Access : Touch :=
  { regs := [F.WARP_STATUS_RATE_CLAMPED, F.WARP_STATUS_SLEW_ACTIVE, F.SLEW_NS, F.SEC_EVENT, F.SEC_HOST_REFUSE_CNT,
      F.SYS_DISCARD_REASON, F.SYS_DISCARD_OFFSET, F.SYS_DISCARD_CNT],
    parts := [.warp, .answer, .dram] }

def Touches.backoffEnd : Touch :=
  { regs := [F.WARP_STATUS_RATE_CLAMPED, F.WARP_STATUS_SLEW_ACTIVE, F.SLEW_NS, F.PWR_STATUS_PHASE, F.PWR_STATUS_TARGET,
      F.PWR_STATUS_STATE, F.PWR_RES, F.PWR_ENTRIES],
    parts := [.warp, .power] }

def Touches.wakeHoldEnd : Touch :=
  { regs := [F.WARP_STATUS_RATE_CLAMPED, F.WARP_STATUS_SLEW_ACTIVE, F.SLEW_NS, F.PWR_STATUS_PHASE, F.PWR_STATUS_TARGET,
      F.PWR_STATUS_STATE, F.PWR_RES, F.PWR_ENTRIES],
    parts := [.warp, .power] }

def Touches.pwrTolWrite : Touch :=
  { regs := [F.WARP_STATUS_RATE_CLAMPED, F.WARP_STATUS_SLEW_ACTIVE, F.SLEW_NS, F.SK_STATUS_BURST_FREE_KIB, F.SK_EVENT,
      F.SKS_SEQ, F.SKS_STATUS_RESIDENT, F.SKS_OVERWRITE, F.TD_EVENT, F.PWR_CTRL_MAX_STATE, F.PWR_CTRL_BOOST,
      F.PWR_STATUS_WAKE_PEND, F.PWR_STATUS_PHASE, F.PWR_STATUS_TARGET, F.PWR_STATUS_STATE, F.PWR_EVENT,
      F.PWR_TOL_DEV, F.PWR_REFUSE_CAUSE, F.PWR_REFUSE_TARGET, F.PWR_REFUSE_REFUSER, F.PWR_REFUSE_CNT,
      F.PWR_ABORT_CNT, F.PWR_RES, F.PWR_ENTRIES, F.PWR_PART_TOL, F.SYS_DISCARD_REASON, F.SYS_DISCARD_OFFSET,
      F.SYS_DISCARD_CNT, F.MBX_STATE_COMP, F.PV_SEQ, F.MSIX_PBA],
    parts := [.warp, .skein, .tandem, .host, .answer, .power, .dram] }

def Touches.blockAnswer : Touch :=
  { regs := [F.WARP_STATUS_RATE_CLAMPED, F.WARP_STATUS_SLEW_ACTIVE, F.WARP_STATUS_COARSE, F.SLEW_NS, F.AVS_STATUS_AT_MAX,
      F.AVS_STATUS_CMD_MV, F.SK_STATUS_BURST_FREE_KIB, F.SK_EVENT, F.SKS_SEQ, F.SKS_STATUS_RESIDENT,
      F.SKS_OVERWRITE, F.RING_STATUS_BROKEN, F.RING_STATUS_BYPASSED, F.RING_STATUS_STATE, F.RING_EVENT,
      F.RING_BREAK_CNT_SEL_CNT, F.RS_ST_STATUS_REVERSE_FED, F.SAF_STATUS_START_WAIT, F.SAF_STATUS_PROG_OK,
      F.SAF_STATUS_START_BLOCKED, F.SAF_STATUS_OVC_ARMED, F.SAF_STATUS_PHASE, F.SAF_PHASE_T, F.SAF_OVC_REMAIN_S,
      F.SAF_SOUT_MATRIX, F.SAF_SOUT_PERMIT, F.SAF_SOUT_STATE_ENERGISED, F.TD_WITNESS, F.PWR_STATUS_WAKE_PEND,
      F.PWR_STATUS_LOOM_ON, F.PWR_STATUS_PHASE, F.PWR_STATUS_TARGET, F.PWR_STATUS_STATE, F.PWR_EVENT,
      F.PWR_WAKE_SRC, F.PWR_REFUSE_CAUSE, F.PWR_REFUSE_TARGET, F.PWR_REFUSE_REFUSER, F.PWR_REFUSE_CNT,
      F.PWR_ABORT_CNT, F.PWR_WAKE_MERGED, F.PWR_RES, F.PWR_ENTRIES, F.CKPT_SEQ, F.CKPT_T, F.MSIX_PBA],
    parts := [.warp, .skein, .cyc, .island, .tandem, .host, .boot, .power, .rings, .sram, .dram, .dlm] }

def Touches.entryTimeout : Touch :=
  { regs := [F.WARP_STATUS_RATE_CLAMPED, F.WARP_STATUS_SLEW_ACTIVE, F.SLEW_NS, F.SK_STATUS_BURST_FREE_KIB, F.SK_EVENT,
      F.SKS_SEQ, F.SKS_STATUS_RESIDENT, F.SKS_OVERWRITE, F.PWR_STATUS_WAKE_PEND, F.PWR_STATUS_PHASE,
      F.PWR_STATUS_TARGET, F.PWR_EVENT, F.PWR_REFUSE_CAUSE, F.PWR_REFUSE_TARGET, F.PWR_REFUSE_REFUSER,
      F.PWR_REFUSE_CNT, F.PWR_ABORT_CNT, F.MSIX_PBA],
    parts := [.warp, .skein, .host, .power] }

def Touches.lullFrame : Touch :=
  { regs := [F.WARP_STATUS_RATE_CLAMPED, F.WARP_STATUS_SLEW_ACTIVE, F.SLEW_NS, F.PWR_STATUS_WAKE_PEND, F.PWR_STATUS_PHASE,
      F.PWR_EVENT, F.PWR_WAKE_SRC, F.PWR_WAKE_MERGED, F.LULL_STATUS_LAST_CMD, F.LULL_STATUS_LAST_ADDR,
      F.LULL_CNT_MATCH, F.LULL_CNT_ERR, F.MSIX_PBA],
    parts := [.warp, .host, .power] }

def Touches.wakeN : Touch :=
  { anyReg := true,
    parts := [.latches, .staged, .warp, .skein, .cells, .fio, .aout, .ain, .conv, .rot, .treadles, .gens, .axes, .groups, .trig, .loom, .sched, .cyc, .island, .tandem, .sec, .host, .boot, .answer, .power, .rings, .sram, .dram, .dlm, .freeCtr] }

def Touches.alarm : Touch :=
  { regs := [F.WARP_STATUS_RATE_CLAMPED, F.WARP_STATUS_SLEW_ACTIVE, F.SLEW_NS, F.PWR_STATUS_WAKE_PEND, F.PWR_STATUS_PHASE,
      F.PWR_WAKE_SRC, F.PWR_WAKE_MERGED],
    parts := [.warp, .power] }

def Touches.hostWake : Touch :=
  { regs := [F.WARP_STATUS_RATE_CLAMPED, F.WARP_STATUS_SLEW_ACTIVE, F.SLEW_NS, F.PWR_STATUS_WAKE_PEND, F.PWR_STATUS_PHASE,
      F.PWR_WAKE_SRC, F.PWR_WAKE_MERGED],
    parts := [.warp, .power] }

def Touches.wakeDone : Touch :=
  { regs := [F.WARP_STATUS_RATE_CLAMPED, F.WARP_STATUS_SLEW_ACTIVE, F.WARP_STATUS_COARSE, F.WARP_EVENT_COARSE_USED,
      F.SLEW_NS, F.COARSE_NS, F.AVS_STATUS_AT_MAX, F.AVS_STATUS_CMD_MV, F.TR_EVENT_SPAWN_DROP, F.TR_COND,
      F.SK_STATUS_BURST_FREE_KIB, F.SK_EVENT, F.SKS_SEQ, F.SKS_STATUS_RESIDENT, F.SKS_OVERWRITE, F.CS_STATUS_STATE,
      F.CS_EVENT, F.LOOM_EVENT, F.LOOM_EVT_OVF, F.LOOM_OVF_ROUTE, F.ODO_OUT, F.ODO_OUT_SAT, F.LE_NET,
      F.SCHED_STATUS_FREE_SLOTS, F.SCHED_STATUS_INFLIGHT, F.SCHED_EVENT, F.SCHED_DISPATCH_CNT,
      F.SCHED_EVT_UNBOUND_CNT, F.SCHED_TEMPLATE_MISS_CNT, F.PS_USED, F.HQ_DEPTH, F.HQ_MAXDEPTH, F.HQ_PUSH_CNT,
      F.HQ_BUSY_CNT, F.SH_STATUS_STATE, F.SH_STATUS_SLOT, F.SH_LOAD, F.LVL_RDY_DEPTH, F.LVL_WAIT_AVG, F.LVL_HIST,
      F.FLOW_STATE_IN_SERVICE, F.FLOW_STATE_PENDING, F.RING_STATUS_BROKEN, F.RING_STATUS_BYPASSED,
      F.RING_STATUS_STATE, F.RING_EVENT, F.RING_BREAK_CNT_SEL_CNT, F.RS_ST_STATUS_REVERSE_FED,
      F.SAF_STATUS_START_WAIT, F.SAF_STATUS_PROG_OK, F.SAF_STATUS_START_BLOCKED, F.SAF_STATUS_OVC_ARMED,
      F.SAF_STATUS_PHASE, F.SAF_PHASE_T, F.SAF_OVC_REMAIN_S, F.SAF_SOUT_MATRIX, F.SAF_SOUT_PERMIT,
      F.SAF_SOUT_STATE_ENERGISED, F.SAF_PROG_VER, F.SAF_CYCLE, F.WC_CONN, F.WC_STATUS_ROLE, F.WC_STATUS_STATE,
      F.WC_EXP_DEADLINE_MS, F.TD_WITNESS, F.PWR_STATUS_WAKE_PEND, F.PWR_STATUS_FAULT, F.PWR_STATUS_LOOM_ON,
      F.PWR_STATUS_PHASE, F.PWR_STATUS_TARGET, F.PWR_STATUS_STATE, F.PWR_EVENT, F.PWR_WAKE_SRC, F.PWR_WAKE_MERGED,
      F.PWR_RES, F.PWR_ENTRIES, F.SYS_DEVFAULT, F.MSIX_PBA],
    parts := [.warp, .skein, .fio, .treadles, .trig, .loom, .sched, .island, .tandem, .host, .power, .rings, .sram, .dram, .dlm, .freeCtr] }

def Touches.wakeTimeout : Touch :=
  { regs := [F.WARP_STATUS_RATE_CLAMPED, F.WARP_STATUS_SLEW_ACTIVE, F.WARP_STATUS_COARSE, F.SLEW_NS, F.AVS_STATUS_AT_MAX,
      F.AVS_STATUS_CMD_MV, F.SK_STATUS_BURST_FREE_KIB, F.SK_EVENT, F.SKS_SEQ, F.SKS_STATUS_RESIDENT,
      F.SKS_OVERWRITE, F.SAF_STATUS_START_WAIT, F.SAF_STATUS_PROG_OK, F.SAF_STATUS_START_BLOCKED,
      F.SAF_STATUS_OVC_ARMED, F.SAF_STATUS_PHASE, F.SAF_PHASE_T, F.SAF_OVC_REMAIN_S, F.SAF_SOUT_MATRIX,
      F.SAF_SOUT_PERMIT, F.SAF_SOUT_STATE_ENERGISED, F.PWR_STATUS_WAKE_PEND, F.PWR_STATUS_FAULT,
      F.PWR_STATUS_LOOM_ON, F.PWR_STATUS_PHASE, F.PWR_STATUS_STATE, F.PWR_EVENT, F.PWR_WAKE_SRC,
      F.PWR_WAKE_FAIL_CNT, F.PWR_WAKE_MERGED, F.PWR_RES, F.PWR_ENTRIES, F.SYS_DEVFAULT, F.MSIX_PBA],
    parts := [.warp, .skein, .island, .tandem, .host, .power] }

def Touches.wakeRetry : Touch :=
  { regs := [F.WARP_STATUS_RATE_CLAMPED, F.WARP_STATUS_SLEW_ACTIVE, F.SLEW_NS, F.PWR_STATUS_PHASE],
    parts := [.warp, .power] }

def Touches.quadrantReady : Touch :=
  { regs := [F.WARP_STATUS_RATE_CLAMPED, F.WARP_STATUS_SLEW_ACTIVE, F.SLEW_NS, F.LC_STATUS_SHADOW_VALID,
      F.TR_STATUS_STAGE_STATE, F.TR_STATUS_PAUSE_CAUSE, F.TR_STATUS_DEFERRED, F.TR_STATUS_STATE,
      F.TR_EVENT_SPAWN_DROP, F.TR_EVENT_ABORT_IGNORED, F.TR_EVENT_CANCELLED, F.TR_STEPS_STAGED_STEP, F.TR_NEXT,
      F.TR_DECIDE_END_IDX, F.TR_DECIDE_DECIDED, F.TR_CANCEL_CNT, F.TR_COND, F.PG_STATUS_HELD, F.PG_SHADOW_TARGET,
      F.PG_SHADOW_VMAX, F.PG_SHADOW_WIN_M2, F.PG_SHADOW_WIN_M1, F.SK_STATUS_BURST_FREE_KIB, F.SK_EVENT, F.SKS_SEQ,
      F.SKS_STATUS_RESIDENT, F.SKS_OVERWRITE, F.CS_STATUS_STATE, F.CS_EVENT, F.LOOM_EVENT, F.LOOM_SCAN_ERR,
      F.LOOM_REPAIRS, F.LOOM_EVT_OVF, F.LOOM_OVF_ROUTE, F.LP_STATUS_FRAME_LOST, F.LP_EVENT, F.ODO_OUT,
      F.ODO_OUT_SAT, F.VR_VALUE, F.LE_NET, F.SCHED_STATUS_FREE_SLOTS, F.SCHED_STATUS_INFLIGHT, F.SCHED_EVENT,
      F.SCHED_DISPATCH_CNT, F.SCHED_CANCEL_CNT, F.SCHED_CANCEL_LATE_CNT, F.SCHED_POISON_CNT,
      F.SCHED_EVT_UNBOUND_CNT, F.SCHED_TEMPLATE_MISS_CNT, F.PS_USED, F.PS_HELD, F.HQ_DEPTH, F.HQ_MAXDEPTH,
      F.HQ_PUSH_CNT, F.HQ_BUSY_CNT, F.SH_STATUS_STATE, F.SH_STATUS_SLOT, F.SH_LOAD, F.LVL_RDY_DEPTH,
      F.LVL_WAIT_AVG, F.LVL_HIST, F.FLOW_STATE_HELD, F.FLOW_STATE_IN_SERVICE, F.FLOW_STATE_HELD_CAUSE,
      F.FLOW_STATE_PENDING, F.CP_STATUS_STOP_CAUSE, F.CP_STATUS_STATE, F.CP_EVENT, F.CP_STOP_T,
      F.PWR_STATUS_WAKE_PEND, F.PWR_STATUS_LOOM_ON, F.PWR_STATUS_PHASE, F.PWR_STATUS_TARGET, F.PWR_STATUS_STATE,
      F.PWR_WAKE_SRC, F.PWR_WAKE_MERGED, F.PWR_RES, F.PWR_ENTRIES, F.SYS_FAULT, F.SYS_FAULT_LAST, F.SYS_FAULT_T,
      F.MSIX_PBA],
    parts := [.warp, .skein, .cells, .fio, .treadles, .gens, .trig, .loom, .sched, .cyc, .host, .power, .rings, .sram, .dram, .dlm, .freeCtr] }

def Touches.resetPin : Touch :=
  { anyReg := true,
    parts := [.latches, .staged, .warp, .skein, .cells, .fio, .aout, .ain, .conv, .rot, .treadles, .gens, .axes, .groups, .trig, .loom, .sched, .cyc, .island, .tandem, .sec, .host, .boot, .answer, .power, .rings, .sram, .dram, .dlm, .freeCtr] }

def Touches.deviceReset : Touch :=
  { anyReg := true,
    parts := [.latches, .staged, .warp, .skein, .cells, .fio, .aout, .ain, .conv, .rot, .treadles, .gens, .axes, .groups, .trig, .loom, .sched, .cyc, .island, .tandem, .sec, .host, .boot, .answer, .power, .rings, .sram, .dram, .dlm, .freeCtr] }

def Touches.watchdog : Touch :=
  { anyReg := true,
    parts := [.latches, .staged, .warp, .skein, .cells, .fio, .aout, .ain, .conv, .rot, .treadles, .gens, .axes, .groups, .trig, .loom, .sched, .cyc, .island, .tandem, .sec, .host, .boot, .answer, .power, .rings, .sram, .dram, .dlm, .freeCtr] }

def Touches.powerGoodChange : Touch :=
  { anyReg := true,
    parts := [.latches, .staged, .warp, .skein, .cells, .fio, .aout, .ain, .conv, .rot, .treadles, .gens, .axes, .groups, .trig, .loom, .sched, .cyc, .island, .tandem, .sec, .host, .boot, .answer, .power, .rings, .sram, .dram, .dlm, .freeCtr] }

def Touches.resetRelease : Touch :=
  { anyReg := true,
    parts := [.warp, .skein, .cells, .fio, .conv, .treadles, .gens, .axes, .trig, .loom, .sched, .cyc, .island, .tandem, .sec, .host, .boot, .power, .rings, .sram, .dram, .dlm, .freeCtr] }

def Touches.resumeInstant : Touch :=
  { anyReg := true,
    parts := [.warp, .skein, .cells, .fio, .treadles, .gens, .axes, .trig, .loom, .sched, .cyc, .host, .boot, .power, .sram, .dram, .dlm, .freeCtr] }

def Touches.warmCheckpoint : Touch :=
  { regs := [F.WARP_STATUS_RATE_CLAMPED, F.WARP_STATUS_SLEW_ACTIVE, F.SLEW_NS, F.CKPT_SEQ, F.CKPT_T],
    parts := [.warp, .boot] }

def Touches.partitionReset : Touch :=
  { anyReg := true,
    parts := [.warp, .skein, .cells, .fio, .aout, .treadles, .gens, .axes, .trig, .loom, .sched, .cyc, .tandem, .host, .boot, .answer, .power, .rings, .sram, .dram, .dlm, .freeCtr] }

def Touches.prDone : Touch :=
  { regs := [F.WARP_STATUS_RATE_CLAMPED, F.WARP_STATUS_SLEW_ACTIVE, F.SLEW_NS, F.RST_PART_AVG, F.RST_PART_PR_DONE,
      F.RST_PART_IN_RESET],
    parts := [.warp, .boot] }

def Touches.mbxDb : Touch :=
  { regs := [F.WARP_STATUS_RATE_CLAMPED, F.WARP_STATUS_SLEW_ACTIVE, F.SLEW_NS, F.TD_EVENT, F.PWR_STATUS_WAKE_PEND,
      F.PWR_STATUS_PHASE, F.PWR_WAKE_SRC, F.PWR_WAKE_MERGED, F.SYS_DISCARD_REASON, F.SYS_DISCARD_OFFSET,
      F.SYS_DISCARD_CNT, F.HOST_EVENT, F.MBX_DB, F.MBX_STATE_CONS, F.MBX_STATE_COMP, F.PV_SEQ, F.MSIX_PBA],
    parts := [.warp, .tandem, .host, .answer, .power, .dram] }

def Touches.commandDatagram : Touch :=
  { regs := [F.WARP_STATUS_RATE_CLAMPED, F.WARP_STATUS_SLEW_ACTIVE, F.SLEW_NS, F.PWR_STATUS_WAKE_PEND, F.PWR_STATUS_PHASE,
      F.PWR_WAKE_SRC, F.PWR_WAKE_MERGED, F.HOST_EVENT, F.MBX_STATE_COMP, F.PV_SEQ, F.ETH_RX_DROP, F.MSIX_PBA],
    parts := [.warp, .host, .answer, .power, .dram, .freeCtr] }

def Touches.mwrite : Touch :=
  { regs := [F.WARP_STATUS_RATE_CLAMPED, F.WARP_STATUS_SLEW_ACTIVE, F.SLEW_NS, F.TD_EVENT, F.HOST_EVENT, F.MBX_STATE_COMP,
      F.PV_SEQ, F.MSIX_PBA],
    parts := [.warp, .tandem, .host, .answer, .dram] }

def Touches.view : Touch :=
  { regs := [F.WARP_STATUS_RATE_CLAMPED, F.WARP_STATUS_SLEW_ACTIVE, F.SLEW_NS, F.TD_EVENT, F.HOST_EVENT, F.MBX_STATE_COMP,
      F.PV_STATE_ACTIVE, F.PV_STATE_TREADLE, F.PV_STATE_PROGRAM, F.PV_STEP, F.PV_T, F.PV_SEQ, F.MSIX_PBA],
    parts := [.warp, .tandem, .host, .answer, .dram] }

def Touches.odoClear : Touch :=
  { regs := [F.WARP_STATUS_RATE_CLAMPED, F.WARP_STATUS_SLEW_ACTIVE, F.SLEW_NS, F.LC_ODO, F.AX_ODO_STEPS, F.AX_ODO_MOVES,
      F.SK_STATUS_BURST_FREE_KIB, F.SK_EVENT, F.SKS_SEQ, F.SKS_STATUS_RESIDENT, F.SKS_OVERWRITE, F.ODO_OUT,
      F.ODO_OUT_SAT, F.TD_EVENT, F.HOST_EVENT, F.MBX_STATE_COMP, F.PV_SEQ, F.MSIX_PBA],
    parts := [.warp, .skein, .tandem, .host, .answer, .dram] }

def Touches.pvStateRead : Touch :=
  { regs := [F.WARP_STATUS_RATE_CLAMPED, F.WARP_STATUS_SLEW_ACTIVE, F.SLEW_NS, F.PV_STATE_ACTIVE, F.PV_STATE_TREADLE,
      F.PV_STATE_PROGRAM, F.PV_STEP, F.PV_T],
    parts := [.warp, .host, .answer] }

def Touches.mgmtDiverge : Touch :=
  { regs := [F.WARP_STATUS_RATE_CLAMPED, F.WARP_STATUS_SLEW_ACTIVE, F.SLEW_NS, F.SK_STATUS_BURST_FREE_KIB, F.SK_EVENT,
      F.SKS_SEQ, F.SKS_STATUS_RESIDENT, F.SKS_OVERWRITE, F.SYS_FAULT, F.SYS_FAULT_LAST, F.SYS_FAULT_T,
      F.HOST_EVENT, F.MGMT_DIV_CNT, F.PV_STATE_ACTIVE, F.PV_STATE_TREADLE, F.PV_STATE_PROGRAM, F.PV_STEP, F.PV_T,
      F.MSIX_PBA],
    parts := [.warp, .skein, .host] }

def Touches.ptpEventMessage : Touch :=
  { regs := [F.WARP_STATUS_RATE_CLAMPED, F.WARP_STATUS_SLEW_ACTIVE, F.SLEW_NS, F.PTP_STATUS, F.PTP_OFFSET],
    parts := [.warp, .host] }

def Touches.pmbusPoll : Touch :=
  { regs := [F.WARP_STATUS_RATE_CLAMPED, F.WARP_STATUS_SLEW_ACTIVE, F.SLEW_NS, F.AVS_STATUS_READ_MV, F.TJ_NOW, F.TJ_PEAK,
      F.PMB_ICORE, F.PMB_STATUS],
    parts := [.warp] }

def Touches.pmbAlert : Touch :=
  { regs := [F.WARP_STATUS_RATE_CLAMPED, F.WARP_STATUS_SLEW_ACTIVE, F.SLEW_NS, F.AVS_STATUS_READ_MV, F.TJ_NOW, F.TJ_PEAK,
      F.PMB_ICORE, F.PMB_STATUS],
    parts := [.warp] }

def Touches.lifeUpdate : Touch :=
  { regs := [F.WARP_STATUS_RATE_CLAMPED, F.WARP_STATUS_SLEW_ACTIVE, F.SLEW_NS, F.LIFE_HOURS, F.LIFE_TJ_AVG,
      F.LIFE_VCORE_AVG],
    parts := [.warp] }

def Touches.scrub : Touch :=
  { regs := [F.WARP_STATUS_RATE_CLAMPED, F.WARP_STATUS_SLEW_ACTIVE, F.SLEW_NS, F.LC_STATUS_SHADOW_VALID,
      F.TR_STATUS_STAGE_STATE, F.TR_STATUS_PAUSE_CAUSE, F.TR_STATUS_DEFERRED, F.TR_STATUS_STATE,
      F.TR_EVENT_SPAWN_DROP, F.TR_EVENT_ABORT_IGNORED, F.TR_EVENT_CANCELLED, F.TR_STEPS_STAGED_STEP, F.TR_NEXT,
      F.TR_DECIDE_END_IDX, F.TR_DECIDE_DECIDED, F.TR_CANCEL_CNT, F.PG_STATUS_HELD, F.PG_SHADOW_TARGET,
      F.PG_SHADOW_VMAX, F.PG_SHADOW_WIN_M2, F.PG_SHADOW_WIN_M1, F.SK_STATUS_BURST_FREE_KIB, F.SK_EVENT, F.SKS_SEQ,
      F.SKS_STATUS_RESIDENT, F.SKS_OVERWRITE, F.LOOM_EVENT, F.LOOM_EVT_OVF, F.LOOM_OVF_ROUTE, F.ODO_OUT,
      F.ODO_OUT_SAT, F.VR_VALUE, F.SCHED_STATUS_FREE_SLOTS, F.SCHED_STATUS_INFLIGHT, F.SCHED_EVENT,
      F.SCHED_DISPATCH_CNT, F.SCHED_CANCEL_CNT, F.SCHED_CANCEL_LATE_CNT, F.SCHED_POISON_CNT,
      F.SCHED_EVT_UNBOUND_CNT, F.SCHED_TEMPLATE_MISS_CNT, F.PS_USED, F.PS_HELD, F.HQ_DEPTH, F.HQ_MAXDEPTH,
      F.HQ_PUSH_CNT, F.HQ_BUSY_CNT, F.SH_STATUS_STATE, F.SH_STATUS_SLOT, F.SH_LOAD, F.LVL_RDY_DEPTH,
      F.LVL_WAIT_AVG, F.LVL_HIST, F.FLOW_STATE_HELD, F.FLOW_STATE_IN_SERVICE, F.FLOW_STATE_HELD_CAUSE,
      F.FLOW_STATE_PENDING, F.CP_STATUS_STOP_CAUSE, F.CP_STATUS_STATE, F.CP_EVENT, F.CP_STOP_T,
      F.PWR_STATUS_WAKE_PEND, F.PWR_STATUS_LOOM_ON, F.PWR_STATUS_PHASE, F.PWR_STATUS_TARGET, F.PWR_STATUS_STATE,
      F.PWR_WAKE_SRC, F.PWR_WAKE_MERGED, F.PWR_RES, F.PWR_ENTRIES, F.SYS_FAULT, F.SYS_FAULT_LAST, F.SYS_FAULT_T,
      F.MEM_CE_SRAM, F.MEM_CE_MRAM, F.MEM_CE_DRAM, F.MEM_ECC_UE_CNT_SRAM, F.MEM_ECC_UE_CNT_MRAM,
      F.MEM_ECC_UE_CNT_DRAM, F.MEM_ECC_ADDR, F.MEM_ECC_LAST_MEM, F.MEM_ECC_LAST_UE, F.MSIX_PBA],
    parts := [.warp, .skein, .cells, .fio, .treadles, .gens, .loom, .sched, .cyc, .host, .power, .rings, .sram, .dram, .dlm, .freeCtr] }

def Touches.refclkReturn : Touch :=
  { regs := [F.WARP_STATUS_RATE_CLAMPED, F.WARP_STATUS_SLEW_ACTIVE, F.SLEW_NS], parts := [.warp] }

def Touches.warpCounterMismatch : Touch :=
  { regs := [F.WARP_STATUS_RATE_CLAMPED, F.WARP_STATUS_SLEW_ACTIVE, F.SLEW_NS, F.LC_STATUS_SHADOW_VALID,
      F.TR_STATUS_STAGE_STATE, F.TR_STATUS_PAUSE_CAUSE, F.TR_STATUS_DEFERRED, F.TR_STATUS_STATE,
      F.TR_EVENT_SPAWN_DROP, F.TR_EVENT_ABORT_IGNORED, F.TR_EVENT_CANCELLED, F.TR_STEPS_STAGED_STEP, F.TR_NEXT,
      F.TR_DECIDE_END_IDX, F.TR_DECIDE_DECIDED, F.TR_CANCEL_CNT, F.PG_STATUS_HELD, F.PG_SHADOW_TARGET,
      F.PG_SHADOW_VMAX, F.PG_SHADOW_WIN_M2, F.PG_SHADOW_WIN_M1, F.SK_STATUS_BURST_FREE_KIB, F.SK_EVENT, F.SKS_SEQ,
      F.SKS_STATUS_RESIDENT, F.SKS_OVERWRITE, F.LOOM_EVENT, F.LOOM_EVT_OVF, F.LOOM_OVF_ROUTE, F.ODO_OUT,
      F.ODO_OUT_SAT, F.VR_VALUE, F.SCHED_STATUS_FREE_SLOTS, F.SCHED_STATUS_INFLIGHT, F.SCHED_EVENT,
      F.SCHED_DISPATCH_CNT, F.SCHED_CANCEL_CNT, F.SCHED_CANCEL_LATE_CNT, F.SCHED_POISON_CNT,
      F.SCHED_EVT_UNBOUND_CNT, F.SCHED_TEMPLATE_MISS_CNT, F.PS_USED, F.PS_HELD, F.HQ_DEPTH, F.HQ_MAXDEPTH,
      F.HQ_PUSH_CNT, F.HQ_BUSY_CNT, F.SH_STATUS_STATE, F.SH_STATUS_SLOT, F.SH_LOAD, F.LVL_RDY_DEPTH,
      F.LVL_WAIT_AVG, F.LVL_HIST, F.FLOW_STATE_HELD, F.FLOW_STATE_IN_SERVICE, F.FLOW_STATE_HELD_CAUSE,
      F.FLOW_STATE_PENDING, F.CP_STATUS_STOP_CAUSE, F.CP_STATUS_STATE, F.CP_EVENT, F.CP_STOP_T,
      F.PWR_STATUS_WAKE_PEND, F.PWR_STATUS_LOOM_ON, F.PWR_STATUS_PHASE, F.PWR_STATUS_TARGET, F.PWR_STATUS_STATE,
      F.PWR_WAKE_SRC, F.PWR_WAKE_MERGED, F.PWR_RES, F.PWR_ENTRIES, F.SYS_FAULT, F.SYS_FAULT_LAST, F.SYS_FAULT_T,
      F.SYS_DEVFAULT, F.MSIX_PBA],
    parts := [.warp, .skein, .cells, .fio, .treadles, .gens, .loom, .sched, .cyc, .tandem, .host, .power, .rings, .sram, .dram, .dlm, .freeCtr] }

def Touches.comparatorRelease : Touch :=
  { regs := [F.WARP_STATUS_RATE_CLAMPED, F.WARP_STATUS_SLEW_ACTIVE, F.SLEW_NS], parts := [.warp, .cells] }

def Touches.channelSample : Touch :=
  { regs := [F.WARP_STATUS_RATE_CLAMPED, F.WARP_STATUS_SLEW_ACTIVE, F.SLEW_NS, F.TR_EVENT_SPAWN_DROP,
      F.SK_STATUS_BURST_FREE_KIB, F.SK_EVENT, F.SKS_SEQ, F.SKS_STATUS_RESIDENT, F.SKS_OVERWRITE, F.CS_STATUS_STATE,
      F.CS_EVENT, F.LOOM_EVENT, F.LOOM_EVT_OVF, F.LOOM_OVF_ROUTE, F.SCHED_STATUS_FREE_SLOTS,
      F.SCHED_STATUS_INFLIGHT, F.SCHED_EVENT, F.SCHED_DISPATCH_CNT, F.SCHED_EVT_UNBOUND_CNT,
      F.SCHED_TEMPLATE_MISS_CNT, F.PS_USED, F.HQ_DEPTH, F.HQ_MAXDEPTH, F.HQ_PUSH_CNT, F.HQ_BUSY_CNT,
      F.SH_STATUS_STATE, F.SH_STATUS_SLOT, F.SH_LOAD, F.LVL_RDY_DEPTH, F.LVL_WAIT_AVG, F.LVL_HIST,
      F.FLOW_STATE_IN_SERVICE, F.FLOW_STATE_PENDING, F.PWR_STATUS_WAKE_PEND, F.PWR_STATUS_PHASE,
      F.PWR_STATUS_STATE, F.PWR_WAKE_SRC, F.PWR_WAKE_MERGED, F.PWR_RES, F.PWR_ENTRIES, F.MSIX_PBA],
    parts := [.warp, .skein, .ain, .treadles, .trig, .sched, .host, .power, .sram, .dram, .dlm, .freeCtr] }

def Touches.pwmEdge : Touch :=
  { regs := [F.WARP_STATUS_RATE_CLAMPED, F.WARP_STATUS_SLEW_ACTIVE, F.SLEW_NS, F.ODO_OUT, F.ODO_OUT_SAT],
    parts := [.warp, .fio, .loom] }

def Touches.syncOutFall : Touch :=
  { regs := [F.WARP_STATUS_RATE_CLAMPED, F.WARP_STATUS_SLEW_ACTIVE, F.SLEW_NS], parts := [.warp] }

def Touches.stepPulseFall : Touch :=
  { regs := [F.WARP_STATUS_RATE_CLAMPED, F.WARP_STATUS_SLEW_ACTIVE, F.SLEW_NS, F.ODO_OUT, F.ODO_OUT_SAT],
    parts := [.warp, .fio, .axes, .loom] }

def Touches.lullFrameGap : Touch :=
  { regs := [F.WARP_STATUS_RATE_CLAMPED, F.WARP_STATUS_SLEW_ACTIVE, F.SLEW_NS, F.PWR_EVENT, F.LULL_CNT_ERR, F.MSIX_PBA],
    parts := [.warp, .host] }

def Touches.haveSend : Touch :=
  { regs := [F.WARP_STATUS_RATE_CLAMPED, F.WARP_STATUS_SLEW_ACTIVE, F.SLEW_NS, F.TR_EVENT_SPAWN_DROP,
      F.SK_STATUS_BURST_FREE_KIB, F.SK_EVENT, F.SKS_SEQ, F.SKS_STATUS_RESIDENT, F.SKS_OVERWRITE, F.CS_STATUS_STATE,
      F.CS_EVENT, F.LOOM_EVENT, F.LOOM_EVT_OVF, F.LOOM_OVF_ROUTE, F.ODO_OUT, F.ODO_OUT_SAT, F.VR_VALUE,
      F.SCHED_STATUS_FREE_SLOTS, F.SCHED_STATUS_INFLIGHT, F.SCHED_EVENT, F.SCHED_DISPATCH_CNT,
      F.SCHED_EVT_UNBOUND_CNT, F.SCHED_TEMPLATE_MISS_CNT, F.PS_USED, F.HQ_DEPTH, F.HQ_MAXDEPTH, F.HQ_PUSH_CNT,
      F.HQ_BUSY_CNT, F.SH_STATUS_STATE, F.SH_STATUS_SLOT, F.SH_LOAD, F.LVL_RDY_DEPTH, F.LVL_WAIT_AVG, F.LVL_HIST,
      F.FLOW_STATE_IN_SERVICE, F.FLOW_STATE_PENDING, F.CP_EVENT, F.RJ_STATE, F.RING_STATUS_BREAK_POS, F.RING_EVENT,
      F.RING_RX_LAST, F.RING_AUTH_CNT, F.RING_MBX_STATUS_RSP_LEN, F.RING_MBX_STATUS_STATE, F.RING_MBX_RX,
      F.RS_ST_STATUS_OK, F.RS_ST_STATUS_REVERSE_FED, F.RS_ST_STATUS_MISS_RUN, F.RS_ST_STATUS_LAST_STATUS,
      F.PWR_STATUS_WAKE_PEND, F.PWR_STATUS_PHASE, F.PWR_STATUS_STATE, F.PWR_WAKE_SRC, F.PWR_WAKE_MERGED, F.PWR_RES,
      F.PWR_ENTRIES, F.MSIX_PBA],
    parts := [.warp, .skein, .cells, .fio, .treadles, .trig, .loom, .sched, .tandem, .host, .boot, .power, .rings, .sram, .dram, .dlm, .freeCtr] }

def Touches.statusSend : Touch :=
  { regs := [F.WARP_STATUS_RATE_CLAMPED, F.WARP_STATUS_SLEW_ACTIVE, F.SLEW_NS], parts := [.warp, .tandem] }

def Touches.timeSend : Touch :=
  { regs := [F.WARP_STATUS_RATE_CLAMPED, F.WARP_STATUS_SLEW_ACTIVE, F.SLEW_NS], parts := [.warp, .tandem] }

def Touches.commitDeadline : Touch :=
  { regs := [F.WARP_STATUS_RATE_CLAMPED, F.WARP_STATUS_SLEW_ACTIVE, F.SLEW_NS, F.SK_STATUS_BURST_FREE_KIB, F.SK_EVENT,
      F.SKS_SEQ, F.SKS_STATUS_RESIDENT, F.SKS_OVERWRITE, F.TD_EVENT, F.MSIX_PBA],
    parts := [.warp, .skein, .tandem, .host] }

def Touches.syncInstant : Touch :=
  { regs := [F.WARP_STATUS_RATE_CLAMPED, F.WARP_STATUS_SLEW_ACTIVE, F.SLEW_NS], parts := [.warp, .tandem] }

def Touches.catchUpDone : Touch :=
  { regs := [F.WARP_STATUS_RATE_CLAMPED, F.WARP_STATUS_SLEW_ACTIVE, F.SLEW_NS, F.LC_CTRL_MODE, F.LC_CTRL_ENABLE,
      F.LC_STATUS_EVT_ARMED, F.LC_STATUS_DWELL_WAIT, F.LC_STATUS_ACTIVE_BANK, F.LC_STATUS_SAT_LO,
      F.LC_STATUS_SAT_HI, F.LC_STATUS_LEVEL, F.LC_C_STATE, F.LC_SUP_STATUS_OK_RUN, F.LC_SUP_STATUS_VIOL_RUN,
      F.LC_SUP_STATUS_SUP_STATE, F.TR_STATUS_PAUSE_CAUSE, F.TR_STATUS_STATE, F.TR_STEPS_CUR_STEP, F.TR_COMMIT,
      F.TR_COND, F.PG_CTRL, F.PG_STATUS_RUNNING, F.PG_STATUS_DWELL, F.PG_STATUS_LIMITS_PENDING, F.PG_STATUS_DONE,
      F.PG_TARGET, F.PG_VMAX, F.PG_WIN_M2, F.PG_WIN_M1, F.PG_SHADOW_TARGET, F.PG_SHADOW_VMAX, F.PG_SHADOW_WIN_M2,
      F.PG_SHADOW_WIN_M1, F.PG_SP, F.PG_SP_DOT, F.PG_Q, F.AX_CTRL_ENABLE, F.AX_STATUS_HOMED, F.AX_STATUS_STATE,
      F.AX_POS, F.ODO_OUT, F.ODO_OUT_SAT, F.CP_STATUS_STATE, F.RJ_STATE, F.TD_STATUS_SYNC_PHASE,
      F.PWR_STATUS_LOOM_ON, F.PWR_STATUS_PHASE, F.PWR_STATUS_TARGET, F.PWR_STATUS_STATE, F.PWR_RES, F.PWR_ENTRIES],
    parts := [.warp, .cells, .fio, .treadles, .gens, .axes, .loom, .cyc, .power, .sram, .dram, .dlm] }

def Touches.islandReloadDone : Touch :=
  { regs := [F.WARP_STATUS_RATE_CLAMPED, F.WARP_STATUS_SLEW_ACTIVE, F.SLEW_NS, F.SAF_STATUS_START_WAIT,
      F.SAF_STATUS_PROG_OK, F.SAF_PROG_VER, F.SAF_CYCLE, F.WC_CONN, F.WC_STATUS_ROLE, F.WC_STATUS_STATE,
      F.WC_EXP_DEADLINE_MS],
    parts := [.warp, .island] }

def Touches.serdesLaneReadyChange : Touch :=
  { regs := [F.WARP_STATUS_RATE_CLAMPED, F.WARP_STATUS_SLEW_ACTIVE, F.SLEW_NS, F.RING_STATUS_BROKEN,
      F.RING_STATUS_BYPASSED, F.RING_STATUS_STATE, F.RING_EVENT, F.RING_BREAK_CNT_SEL_CNT,
      F.RS_ST_STATUS_REVERSE_FED, F.TD_WITNESS],
    parts := [.warp, .tandem, .rings] }

/-- What a command may change. -/
def touches (i : Instr) : Touch :=
  match i with
  | .registerWrite .. => Touches.registerWrite
  | .loReadLatch .. => Touches.loReadLatch
  | .hiWriteCommit .. => Touches.hiWriteCommit
  | .rcRead .. => Touches.rcRead
  | .slewNsWrite .. => Touches.slewNsWrite
  | .slewEnd .. => Touches.slewEnd
  | .rateAdjWrite .. => Touches.rateAdjWrite
  | .stepGo .. => Touches.stepGo
  | .refWindowEnd .. => Touches.refWindowEnd
  | .warpWindowEnd .. => Touches.warpWindowEnd
  | .refLost .. => Touches.refLost
  | .holdoverExit .. => Touches.holdoverExit
  | .warpWrap .. => Touches.warpWrap
  | .ppsOutRise .. => Touches.ppsOutRise
  | .ppsOutFall .. => Touches.ppsOutFall
  | .stampInputEdge .. => Touches.stampInputEdge
  | .stampInputQualified .. => Touches.stampInputQualified
  | .syncOutArm .. => Touches.syncOutArm
  | .syncOutPulse .. => Touches.syncOutPulse
  | .slackWindowEnd .. => Touches.slackWindowEnd
  | .avsTimeout .. => Touches.avsTimeout
  | .avsModeWrite .. => Touches.avsModeWrite
  | .lcEnable .. => Touches.lcEnable
  | .lcDisable .. => Touches.lcDisable
  | .swap .. => Touches.swap
  | .copy .. => Touches.copy
  | .bankWindowWrite .. => Touches.bankWindowWrite
  | .cStateWrite .. => Touches.cStateWrite
  | .lcSnapshotRead .. => Touches.lcSnapshotRead
  | .loopStrobe .. => Touches.loopStrobe
  | .loopResultReady .. => Touches.loopResultReady
  | .loopRelease .. => Touches.loopRelease
  | .comparatorTrip .. => Touches.comparatorTrip
  | .eventHoldEnd .. => Touches.eventHoldEnd
  | .conversionDone .. => Touches.conversionDone
  | .loopStall .. => Touches.loopStall
  | .faultClear .. => Touches.faultClear
  | .plausClear .. => Touches.plausClear
  | .rotationSlot .. => Touches.rotationSlot
  | .rotationConversion .. => Touches.rotationConversion
  | .calibrationDone .. => Touches.calibrationDone
  | .calRequest .. => Touches.calRequest
  | .stGo .. => Touches.stGo
  | .selfTestBegin .. => Touches.selfTestBegin
  | .selfTestDone .. => Touches.selfTestDone
  | .stCancel .. => Touches.stCancel
  | .loadTable .. => Touches.loadTable
  | .trStart .. => Touches.trStart
  | .trPause .. => Touches.trPause
  | .trResume .. => Touches.trResume
  | .trAbort .. => Touches.trAbort
  | .trClearFault .. => Touches.trClearFault
  | .treadleTick .. => Touches.treadleTick
  | .timeDecision .. => Touches.timeDecision
  | .stepBoundary .. => Touches.stepBoundary
  | .stagingDone .. => Touches.stagingDone
  | .stepCommit .. => Touches.stepCommit
  | .valveChange .. => Touches.valveChange
  | .treadleFault .. => Touches.treadleFault
  | .pgEnable .. => Touches.pgEnable
  | .pgUpdate .. => Touches.pgUpdate
  | .pgHostWrite .. => Touches.pgHostWrite
  | .axEnable .. => Touches.axEnable
  | .axDisable .. => Touches.axDisable
  | .axGo .. => Touches.axGo
  | .axHalt .. => Touches.axHalt
  | .axHome .. => Touches.axHome
  | .axClear .. => Touches.axClear
  | .loadSegments .. => Touches.loadSegments
  | .axStrobe .. => Touches.axStrobe
  | .axResultReady .. => Touches.axResultReady
  | .axRelease .. => Touches.axRelease
  | .stepPulse .. => Touches.stepPulse
  | .axStall .. => Touches.axStall
  | .axgArm .. => Touches.axgArm
  | .axgCancel .. => Touches.axgCancel
  | .groupStart .. => Touches.groupStart
  | .limitEdge .. => Touches.limitEdge
  | .homeSwitchEdge .. => Touches.homeSwitchEdge
  | .burstQualified .. => Touches.burstQualified
  | .indexEdge .. => Touches.indexEdge
  | .tapSample .. => Touches.tapSample
  | .blockSeal .. => Touches.blockSeal
  | .skeinCheckpoint .. => Touches.skeinCheckpoint
  | .checkpointSigned .. => Touches.checkpointSigned
  | .blockWriteDone .. => Touches.blockWriteDone
  | .exportDone .. => Touches.exportDone
  | .stConsumedWrite .. => Touches.stConsumedWrite
  | .flush .. => Touches.flush
  | .resendBlock .. => Touches.resendBlock
  | .tsArm .. => Touches.tsArm
  | .tsDisarm .. => Touches.tsDisarm
  | .tsSample .. => Touches.tsSample
  | .captureReady .. => Touches.captureReady
  | .force .. => Touches.force
  | .autoFire .. => Touches.autoFire
  | .captureEnd .. => Touches.captureEnd
  | .captureSlotDone .. => Touches.captureSlotDone
  | .csConsumedWrite .. => Touches.csConsumedWrite
  | .chunkAck .. => Touches.chunkAck
  | .loadEnvelope .. => Touches.loadEnvelope
  | .muArm .. => Touches.muArm
  | .muDisarm .. => Touches.muDisarm
  | .pointFetchDone .. => Touches.pointFetchDone
  | .muSample .. => Touches.muSample
  | .fioInputEdge .. => Touches.fioInputEdge
  | .filterTake .. => Touches.filterTake
  | .leInputChange .. => Touches.leInputChange
  | .leTimerExpiry .. => Touches.leTimerExpiry
  | .eventRouteEvent .. => Touches.eventRouteEvent
  | .routeStall .. => Touches.routeStall
  | .configScan .. => Touches.configScan
  | .configFieldWrite .. => Touches.configFieldWrite
  | .editCommit .. => Touches.editCommit
  | .editDiscard .. => Touches.editDiscard
  | .planeFlip .. => Touches.planeFlip
  | .loadDraft .. => Touches.loadDraft
  | .apply .. => Touches.apply
  | .applyStaged .. => Touches.applyStaged
  | .journalWriteDone .. => Touches.journalWriteDone
  | .qsub .. => Touches.qsub
  | .qcan .. => Touches.qcan
  | .qpush .. => Touches.qpush
  | .qpop .. => Touches.qpop
  | .qdone .. => Touches.qdone
  | .qyield .. => Touches.qyield
  | .qrel .. => Touches.qrel
  | .qstat .. => Touches.qstat
  | .taskFault .. => Touches.taskFault
  | .runtimeExpiry .. => Touches.runtimeExpiry
  | .waitTimeout .. => Touches.waitTimeout
  | .selfCheckDone .. => Touches.selfCheckDone
  | .restore .. => Touches.restore
  | .release .. => Touches.release
  | .submitTask .. => Touches.submitTask
  | .cancelTask .. => Touches.cancelTask
  | .hqPush .. => Touches.hqPush
  | .hqPop .. => Touches.hqPop
  | .loadProgram .. => Touches.loadProgram
  | .hostInput .. => Touches.hostInput
  | .scanLatch .. => Touches.scanLatch
  | .scanClose .. => Touches.scanClose
  | .scanRelease .. => Touches.scanRelease
  | .cpStart .. => Touches.cpStart
  | .cpHold .. => Touches.cpHold
  | .cpResume .. => Touches.cpResume
  | .cpStop .. => Touches.cpStop
  | .retainCheckpoint .. => Touches.retainCheckpoint
  | .powerFail .. => Touches.powerFail
  | .retainCommitDone .. => Touches.retainCommitDone
  | .rjStateWrite .. => Touches.rjStateWrite
  | .ringEnWrite .. => Touches.ringEnWrite
  | .insertionLocked .. => Touches.insertionLocked
  | .insertionTimeout .. => Touches.insertionTimeout
  | .discover .. => Touches.discover
  | .enumReturn .. => Touches.enumReturn
  | .delayReturn .. => Touches.delayReturn
  | .discFail .. => Touches.discFail
  | .ringStart .. => Touches.ringStart
  | .ringStop .. => Touches.ringStop
  | .cycleStart .. => Touches.cycleStart
  | .receptionEnd .. => Touches.receptionEnd
  | .rxLimit .. => Touches.rxLimit
  | .mbxGo .. => Touches.mbxGo
  | .mbxTmo .. => Touches.mbxTmo
  | .reservationWritten .. => Touches.reservationWritten
  | .safetyCycle .. => Touches.safetyCycle
  | .permitWord .. => Touches.permitWord
  | .linkSilent .. => Touches.linkSilent
  | .dieTick .. => Touches.dieTick
  | .sinChannelChange .. => Touches.sinChannelChange
  | .discrepancyFault .. => Touches.discrepancyFault
  | .testPulse .. => Touches.testPulse
  | .outputTest .. => Touches.outputTest
  | .termComparison .. => Touches.termComparison
  | .islandFault .. => Touches.islandFault
  | .matrixLoad .. => Touches.matrixLoad
  | .overcastWindowEnd .. => Touches.overcastWindowEnd
  | .overcastArmed .. => Touches.overcastArmed
  | .sclkCrosscheck .. => Touches.sclkCrosscheck
  | .weftFrame .. => Touches.weftFrame
  | .weftDeadline .. => Touches.weftDeadline
  | .programMatrix .. => Touches.programMatrix
  | .loadSafety .. => Touches.loadSafety
  | .safetyPhase .. => Touches.safetyPhase
  | .safetyReset .. => Touches.safetyReset
  | .status .. => Touches.status
  | .renew .. => Touches.renew
  | .renewAck .. => Touches.renewAck
  | .digest .. => Touches.digest
  | .have_ .. => Touches.have_
  | .inputs .. => Touches.inputs
  | .time .. => Touches.time
  | .handover .. => Touches.handover
  | .handoverAck .. => Touches.handoverAck
  | .commit .. => Touches.commit
  | .handoverInstant .. => Touches.handoverInstant
  | .check .. => Touches.check
  | .rapidSelfCheckDone .. => Touches.rapidSelfCheckDone
  | .cmd .. => Touches.cmd
  | .executionInstant .. => Touches.executionInstant
  | .snap .. => Touches.snap
  | .snapAck .. => Touches.snapAck
  | .renewalInstant .. => Touches.renewalInstant
  | .linkLost .. => Touches.linkLost
  | .linkUp .. => Touches.linkUp
  | .lapse .. => Touches.lapse
  | .takeover .. => Touches.takeover
  | .replayTimeout .. => Touches.replayTimeout
  | .resyncRetry .. => Touches.resyncRetry
  | .soloStart .. => Touches.soloStart
  | .join .. => Touches.join
  | .leave .. => Touches.leave
  | .resync .. => Touches.resync
  | .switch .. => Touches.switch
  | .authority .. => Touches.authority
  | .applyDelta .. => Touches.applyDelta
  | .deltaApplyDone .. => Touches.deltaApplyDone
  | .debugChallenge .. => Touches.debugChallenge
  | .debugOpen .. => Touches.debugOpen
  | .debugClose .. => Touches.debugClose
  | .debugExpiry .. => Touches.debugExpiry
  | .attest .. => Touches.attest
  | .activate .. => Touches.activate
  | .updCancel .. => Touches.updCancel
  | .confirm .. => Touches.confirm
  | .activationCheck .. => Touches.activationCheck
  | .bar2Access .. => Touches.bar2Access
  | .backoffEnd .. => Touches.backoffEnd
  | .wakeHoldEnd .. => Touches.wakeHoldEnd
  | .pwrTolWrite .. => Touches.pwrTolWrite
  | .blockAnswer .. => Touches.blockAnswer
  | .entryTimeout .. => Touches.entryTimeout
  | .lullFrame .. => Touches.lullFrame
  | .wakeN .. => Touches.wakeN
  | .alarm .. => Touches.alarm
  | .hostWake .. => Touches.hostWake
  | .wakeDone .. => Touches.wakeDone
  | .wakeTimeout .. => Touches.wakeTimeout
  | .wakeRetry .. => Touches.wakeRetry
  | .quadrantReady .. => Touches.quadrantReady
  | .resetPin .. => Touches.resetPin
  | .deviceReset .. => Touches.deviceReset
  | .watchdog .. => Touches.watchdog
  | .powerGoodChange .. => Touches.powerGoodChange
  | .resetRelease .. => Touches.resetRelease
  | .resumeInstant .. => Touches.resumeInstant
  | .warmCheckpoint .. => Touches.warmCheckpoint
  | .partitionReset .. => Touches.partitionReset
  | .prDone .. => Touches.prDone
  | .mbxDb .. => Touches.mbxDb
  | .commandDatagram .. => Touches.commandDatagram
  | .mwrite .. => Touches.mwrite
  | .view .. => Touches.view
  | .odoClear .. => Touches.odoClear
  | .pvStateRead .. => Touches.pvStateRead
  | .mgmtDiverge .. => Touches.mgmtDiverge
  | .ptpEventMessage .. => Touches.ptpEventMessage
  | .pmbusPoll .. => Touches.pmbusPoll
  | .pmbAlert .. => Touches.pmbAlert
  | .lifeUpdate .. => Touches.lifeUpdate
  | .scrub .. => Touches.scrub
  | .refclkReturn .. => Touches.refclkReturn
  | .warpCounterMismatch .. => Touches.warpCounterMismatch
  | .comparatorRelease .. => Touches.comparatorRelease
  | .channelSample .. => Touches.channelSample
  | .pwmEdge .. => Touches.pwmEdge
  | .syncOutFall .. => Touches.syncOutFall
  | .stepPulseFall .. => Touches.stepPulseFall
  | .lullFrameGap .. => Touches.lullFrameGap
  | .haveSend .. => Touches.haveSend
  | .statusSend .. => Touches.statusSend
  | .timeSend .. => Touches.timeSend
  | .commitDeadline .. => Touches.commitDeadline
  | .syncInstant .. => Touches.syncInstant
  | .catchUpDone .. => Touches.catchUpDone
  | .islandReloadDone .. => Touches.islandReloadDone
  | .serdesLaneReadyChange .. => Touches.serdesLaneReadyChange

end Sys2Proof.Machine
end

