-- ==== Sys2Proof/Safety.lean ====
section
/-! DEFINITION.  What a sound state is, in the terms that statements use. -/

namespace Sys2Proof.Machine

open Sys2Proof

/-- The memories and the register file are in canonical form: addresses, register numbers and
instance numbers rise strictly, and no memory lists a byte that reads as an unlisted one.  States
that hold the same are then equal. -/
def State.canonical (s : State) : Bool :=
  s.sram.wf && s.dram.wf && s.dlm.wf && s.regs.wf && s.regs.entries.all (fun e => e.2.wf)

/-- What a command keeps: the queue `q` of the commands behind it, the canonical form, and every
free value that has been drawn (`n` of them) stays drawn, so that none is drawn twice. -/
def Kept (q : List Instr) (n : Nat) (s : State) : Prop := s.pending = q ∧ n ≤ s.freeCtr ∧ s.canonical = true

/-- A host write at BAR0 offset `off` is admitted and takes effect at once: the device is not booting,
or the register's block takes writes then (18 R431), the register belongs to no covered partition
of a Tandem pair (14 R356), and no accepted command waits for the object of a command register (18 R439). -/
def State.admits (s : State) (off : Nat) : Bool :=
  (!s.on F.HOST_STATUS_BOOTING || bootOpen off) && !(s.regPartition off).any s.covered && (commandObject off).all (fun o => (s.waiting o).isEmpty)

/-- A host command with OPCODE `opcode` and fitting arguments stands at the head of the queue of object `obj`
and may execute now: it was accepted whole, the device is not booting, EXPECT is the state found (18
R440), and no Tandem partner is to be asked (14 R356). -/
def State.mayExecute (s : State) (opcode obj : Nat) (args : HostCmd → Bool) : Bool :=
  match s.waiting obj with
  | [] => false
  | c :: _ => c.write.isNone && c.opcode == opcode && c.status == 0 && args c && (!s.on F.HOST_STATUS_BOOTING || bootCommand opcode) &&
    (c.kind == 0 || s.expected obj c.kind == c.expect) && !(decide (obj < 16) && s.covered obj)

/-- The command behind the head of the queue of object `obj`, if there is one, was accepted whole, so that
the answer given last is the head's: a malformed one would complete at once after it (18 R440). -/
def State.nextFits (s : State) (obj : Nat) : Bool := ((s.waiting obj).drop 1).head?.all (fun c => c.status == 0)

/-- Command `c` executed in `s` answers a next state, of which `P` holds. -/
def Ends (c : Instr) (s : State) (P : State → Prop) : Prop := ∃ u, exec c s = .next u ∧ P u

end Sys2Proof.Machine
end

