-- ==== Sys2Proof/Certificates/Slice0/Obligations.lean ====
section
/-! DEFINITION.  The statements: what the block and its commands do, for every state, operand and command.  `Ends c s P` says
that command `c` executed in `s` answers a next state of which `P` holds. -/

open Sys2Proof Sys2Proof.Machine

/-! ### Register accesses (00, 18) -/

/-- A read where no register and no word of a loop cell's bank lies answers 0; a write there is discarded with REASON 5 and changes nothing else.  An access of
the host or of Steward to the SRAM window, by register access or by the window's own access, is refused: the memory
stays, and the refusal is noted.  Debug reads and writes the SRAM there at level DEVICE, and is refused below it. -/
def Obligations.ReservedOffsetsAndTheSramWindow : Prop :=
  (∀ (t : Instant) (r : Requester) (offset : Fin 268435456) (s : State), findReg offset = none → inSramWindow offset = false →
    inBankWindow offset = false → s.mayReadReg r offset = true → Ends (.loReadLatch t r offset) s (fun u => u.answer.data = leBytes 4 0 ∧
    u.regs = (s.advance t).regs)) ∧
  (∀ (t : Instant) (offset : Fin 268435456) (s : State), findReg offset = none → inSramWindow offset = false → inBankWindow offset = false →
    Ends (.rcRead t offset) s (fun u => u.answer.data = leBytes 4 0 ∧ u.regs = (s.advance t).regs)) ∧
  (∀ (t : Instant) (r : Requester) (offset : Fin 268435456) (value : Word) (s : State), findReg offset = none → inSramWindow offset = false →
    ((s.advance t).rowsAt t offset value).isNone = true → s.mayWrite r = true → offset.val % 4 = 0 →
    Ends (.registerWrite t r offset value 15) s (fun u => u = (s.advance t).discard 5 offset)) ∧
  (∀ (t : Instant) (offset : Fin 268435456) (value : Word) (s : State), inSramWindow offset = true → offset.val % 4 = 0 →
    Ends (.registerWrite t .pcie offset value 15) s (fun u => u.sram = s.sram ∧ bitOf (u.rd F.SEC_EVENT) 4 = true ∧ u.rd F.SYS_DISCARD_REASON = 4 ∧
    u.rd F.SYS_DISCARD_OFFSET = offset)) ∧
  (∀ (t : Instant) (offset : Fin 268435456) (value : Word) (s : State), inSramWindow offset = true → offset.val % 4 = 0 →
    Ends (.registerWrite t .steward offset value 15) s (fun u => u.sram = s.sram ∧ bitOf (u.rd F.SEC_EVENT) 4 = true ∧ u.rd F.SYS_DISCARD_REASON = 4 ∧
    u.rd F.SYS_DISCARD_OFFSET = offset)) ∧
  (∀ (t : Instant) (r : Requester) (offset : Fin 268435456) (s : State), inSramWindow offset = true → r = .pcie ∨ r = .steward →
    s.rd F.HOST_STATUS_BOOTING = 0 → Ends (.loReadLatch t r offset) s (fun u => u.answer.data = List.replicate 4 0xFF ∧
    bitOf (u.rd F.SEC_EVENT) 4 = true ∧ u.sram = s.sram)) ∧
  (∀ (t : Instant) (offset : Fin 1073741824) (len : Nat) (data : Option (List Byte)) (s : State),
    Ends (.bar2Access t true offset len data) s (fun u => u.sram = s.sram ∧ bitOf (u.rd F.SEC_EVENT) 4 = true)) ∧
  (∀ (t : Instant) (offset : Fin 268435456) (value : Word) (s : State), inSramWindow offset = true → offset.val % 4 = 0 →
    s.rd F.SEC_STATUS_DEBUG_LEVEL = 2 →
    Ends (.registerWrite t .debug offset value 15) s (fun u => u.sram.readBytes (offset.val - 0x1000000) 4 = leBytes 4 value.toNat ∧
    u.regs = (s.advance t).regs)) ∧
  (∀ (t : Instant) (offset : Fin 268435456) (s : State), inSramWindow offset = true → s.rd F.SEC_STATUS_DEBUG_LEVEL = 2 →
    s.rd F.HOST_STATUS_BOOTING = 0 → Ends (.loReadLatch t .debug offset) s (fun u => u.answer.data = s.sram.readBytes (offset.val - 0x1000000) 4 ∧
    u.sram = s.sram ∧ u.regs = (s.advance t).regs)) ∧
  (∀ (t : Instant) (offset : Fin 268435456) (value : Word) (s : State), inSramWindow offset = true → offset.val % 4 = 0 →
    s.rd F.SEC_STATUS_DEBUG_LEVEL = 1 → Ends (.registerWrite t .debug offset value 15) s (fun u => u.sram = s.sram ∧
    bitOf (u.rd F.SEC_EVENT) 4 = true))

/-- For every 64-bit register and requester that may read: a read of _LO answers the lower word and latches the upper; a
read of _HI answers the latched half and ends the latch, or with none the half that is current.  A write of _LO stages the
lower half and changes no register; a write of _HI commits both, or with none staged keeps the lower half.  Latches and
staged halves of other requesters and registers stay.  PV_T is served from the view (R445). -/
def Obligations.SixtyFourBitRegistersNeverTear : Prop :=
  (∀ (t : Instant) (r : Requester) (offset : Fin 268435456) (row : RegRow) (i : Nat) (s : State), findReg offset = some (row, i) → row.half = .low →
    inSramWindow offset = false → s.mayReadReg r offset = true → s.rd F.HOST_STATUS_BOOTING = 0 → instOf 0xF01008 0x20 16 offset = none →
    Ends (.loReadLatch t r offset) s (fun u => u.answer.data = leBytes 4 (u.regWord offset) ∧ u.latchOf r offset = some (u.regWord (offset + 4)) ∧
    u.staged = s.staged)) ∧
  (∀ (t : Instant) (r q : Requester) (offset : Fin 268435456) (a : Nat) (s : State), (q, a) ≠ (r, offset.val) → (q, a) ≠ (r, offset.val - 4) →
    Ends (.loReadLatch t r offset) s (fun u => u.latchOf q a = s.latchOf q a ∧ u.staged = s.staged)) ∧
  (∀ (t : Instant) (r : Requester) (offset : Fin 268435456) (row : RegRow) (i v : Nat) (s : State), findReg offset = some (row, i) →
    row.half = .high → inSramWindow offset = false → s.mayReadReg r offset = true → s.rd F.HOST_STATUS_BOOTING = 0 →
    s.latchOf r (offset.val - 4) = some v → Ends (.loReadLatch t r offset) s (fun u => u.answer.data = leBytes 4 v ∧
    u.latchOf r (offset.val - 4) = none)) ∧
  (∀ (t : Instant) (r : Requester) (offset : Fin 268435456) (row : RegRow) (i : Nat) (s : State), findReg offset = some (row, i) → row.half = .high →
    inSramWindow offset = false → s.mayReadReg r offset = true → s.rd F.HOST_STATUS_BOOTING = 0 → s.latchOf r (offset.val - 4) = none →
    Ends (.loReadLatch t r offset) s (fun u => u.answer.data = leBytes 4 (((s.advance t).refreshReg (offset.val - 4)).regWord offset))) ∧
  (∀ (t : Instant) (r : Requester) (offset : Fin 268435456) (value : Word) (row : RegRow) (i : Nat) (s : State), findReg offset = some (row, i) →
    row.half = .low → row.has [.rw, .rwl] = true → ((s.advance t).rowsAt t offset value).isNone = true → inSramWindow offset = false →
    s.mayWrite r = true → offset.val % 4 = 0 → s.admits offset = true →
    Ends (.registerWrite t r offset value 15) s (fun u => u.stagedHalf r offset = some value.toNat ∧ u.regs = (s.advance t).regs ∧
    u.latches = s.latches)) ∧
  (∀ (t : Instant) (r q : Requester) (offset : Fin 268435456) (value : Word) (row : RegRow) (i a : Nat) (s : State), findReg offset = some (row, i) →
    row.half = .low → ((s.advance t).rowsAt t offset value).isNone = true → inSramWindow offset = false → offset.val % 4 = 0 →
    (q, a) ≠ (r, offset.val) → Ends (.registerWrite t r offset value 15) s (fun u => u.stagedHalf q a = s.stagedHalf q a)) ∧
  (∀ (t : Instant) (r : Requester) (offset : Fin 268435456) (value : Word) (row : RegRow) (i : Nat) (b : FieldBits) (s : State), findReg offset = some (row, i) →
    row.half = .high → row.fields = [b] → (b.access = .rw ∨ (b.access = .rwl ∧ s.rwlOpen (s.rwlOwner offset) = true)) →
    (commitRow t offset 0).isNone = true → s.mayWrite r = true → s.admits offset = true →
    s.badRange offset (s.wholeValue r offset value.toNat) = false → s.ownRuleDiscards offset 0 = false →
    Ends (.hiWriteCommit t r offset value) s (fun u => u.rd b.fld i = (value.toNat * 2 ^ 32 + (s.stagedHalf r (offset.val - 4)).getD (s.regWord (offset.val - 4))) % 2 ^ b.fld.width ∧
    u.stagedHalf r (offset.val - 4) = none)) ∧
  (∀ (t : Instant) (r : Requester) (offset : Fin 268435456) (value : Word) (row : RegRow) (i : Nat) (s : State), findReg offset = some (row, i) →
    row.half = .high → ((s.advance t).rowsAt t offset value).isNone = true → inSramWindow offset = false → s.mayWrite r = true → offset.val % 4 = 0 →
    Ends (.registerWrite t r offset value 15) s (fun u => Ends (.hiWriteCommit t r offset value) s (fun v => v = u))) ∧
  (∀ (t : Instant) (r : Requester) (n : Fin 1024) (offset : Fin 268435456) (value : Word) (s : State), offset.val = 0x200050 + 0x100 * n.val →
    s.mayWrite r = true →
    Ends (.hiWriteCommit t r offset value) s (fun u => u = ran (execCStateWrite t n (BitVec.ofNat 48 (s.wholeValue r offset value.toNat))) { s.advance t with staged := s.staged.filter (fun e => !(e.1 == (r, offset.val - 4))) })) ∧
  (∀ (t : Instant) (r : Requester) (k : Fin 17) (offset : Fin 268435456) (value : Word) (s : State), offset.val = 0x501028 + 0x80 * k.val →
    s.mayWrite r = true →
    Ends (.hiWriteCommit t r offset value) s (fun u => u = ran (execStConsumedWrite t k (BitVec.ofNat 64 (s.wholeValue r offset value.toNat))) { s.advance t with staged := s.staged.filter (fun e => !(e.1 == (r, offset.val - 4))) })) ∧
  (∀ (t : Instant) (r : Requester) (n : Fin 32) (offset : Fin 268435456) (value : Word) (s : State), offset.val = 0x610034 + 0x100 * n.val →
    s.mayWrite r = true →
    Ends (.hiWriteCommit t r offset value) s (fun u => u = ran (execCsConsumedWrite t n (BitVec.ofNat 64 (s.wholeValue r offset value.toNat))) { s.advance t with staged := s.staged.filter (fun e => !(e.1 == (r, offset.val - 4))) }))

/-- A write of ST_REGION, CS_REGION or ENV_REGION, or of the size field taken with it, whose range with the value written
does not lie between 0x180000000 and the end of the usable DRAM leaves every register but SEC_EVENT and SYS_DISCARD as it
is, sets ADDR_REFUSED and is reported.  An address is written by its _HI word. -/
def Obligations.DramAddressFieldsStayInTheirArea : Prop :=
  (∀ (t : Instant) (r : Requester) (k : Fin 17) (offset : Fin 268435456) (value : Word) (s : State), offset.val = 0x501008 + 0x80 * k.val →
    s.mayWrite r = true → s.admits offset = true → s.assignable (s.wholeValue r offset value.toNat) (4096 * s.rd F.SKS_REGION_SIZE k) = false →
    Ends (.hiWriteCommit t r offset value) s (fun u => u.rd F.SKS_REGION k = s.rd F.SKS_REGION k ∧ bitOf (u.rd F.SEC_EVENT) 7 = true ∧
    u.rd F.SYS_DISCARD_OFFSET = offset ∧ u.rd F.SKS_REGION_SIZE k = s.rd F.SKS_REGION_SIZE k)) ∧
  (∀ (t : Instant) (r : Requester) (k : Fin 17) (offset : Fin 268435456) (value : Word) (s : State), offset.val = 0x50100C + 0x80 * k.val →
    s.mayWrite r = true → s.admits offset = true → s.assignable (s.rd F.SKS_REGION k) (4096 * (value.toNat % 2 ^ 24)) = false →
    Ends (.registerWrite t r offset value 15) s (fun u => u.rd F.SKS_REGION_SIZE k = s.rd F.SKS_REGION_SIZE k ∧ bitOf (u.rd F.SEC_EVENT) 7 = true ∧
    u.rd F.SYS_DISCARD_OFFSET = offset ∧ u.rd F.SKS_REGION k = s.rd F.SKS_REGION k)) ∧
  (∀ (t : Instant) (r : Requester) (n : Fin 32) (offset : Fin 268435456) (value : Word) (s : State), offset.val = 0x61001C + 0x100 * n.val →
    s.mayWrite r = true → s.admits offset = true →
    s.assignable (s.wholeValue r offset value.toNat) (1024 * s.rd F.CS_SLOT_CFG_SLOTS n * s.rd F.CS_SLOT_CFG_SLOT_KIB n) = false →
    Ends (.hiWriteCommit t r offset value) s (fun u => u.rd F.CS_REGION n = s.rd F.CS_REGION n ∧ bitOf (u.rd F.SEC_EVENT) 7 = true ∧
    u.rd F.SYS_DISCARD_OFFSET = offset)) ∧
  (∀ (t : Instant) (r : Requester) (n : Fin 32) (offset : Fin 268435456) (value : Word) (s : State), offset.val = 0x610020 + 0x100 * n.val →
    s.mayWrite r = true → s.admits offset = true →
    s.assignable (s.rd F.CS_REGION n) (1024 * (value.toNat / 2 ^ 16 % 2 ^ 16) * (value.toNat % 2 ^ 16)) = false →
    Ends (.registerWrite t r offset value 15) s (fun u => u.rd F.CS_SLOT_CFG_SLOTS n = s.rd F.CS_SLOT_CFG_SLOTS n ∧
    u.rd F.CS_SLOT_CFG_SLOT_KIB n = s.rd F.CS_SLOT_CFG_SLOT_KIB n ∧ bitOf (u.rd F.SEC_EVENT) 7 = true ∧ u.rd F.SYS_DISCARD_OFFSET = offset)) ∧
  (∀ (t : Instant) (r : Requester) (value : Word) (s : State), s.mayWrite r = true → s.admits 0x640008 = true →
    s.assignable (s.wholeValue r 0x640008 value.toNat) (2 ^ 20 * s.rd F.ENV_COUNT) = false →
    Ends (.hiWriteCommit t r 0x640008 value) s (fun u => u.rd F.ENV_REGION = s.rd F.ENV_REGION ∧ bitOf (u.rd F.SEC_EVENT) 7 = true ∧
    u.rd F.SYS_DISCARD_OFFSET = 0x640008)) ∧
  (∀ (t : Instant) (r : Requester) (value : Word) (s : State), s.mayWrite r = true → s.admits 0x64000C = true →
    s.assignable (s.rd F.ENV_REGION) (2 ^ 20 * (value.toNat % 2 ^ 9)) = false →
    Ends (.registerWrite t r 0x64000C value 15) s (fun u => u.rd F.ENV_COUNT = s.rd F.ENV_COUNT ∧ bitOf (u.rd F.SEC_EVENT) 7 = true ∧
    u.rd F.SYS_DISCARD_OFFSET = 0x64000C)) ∧
  (∀ (t : Instant) (r : Requester) (value : Word) (s : State), s.mayWrite r = true → s.admits 0x640008 = true →
    s.assignable (s.wholeValue r 0x640008 value.toNat) (2 ^ 20 * s.rd F.ENV_COUNT) = true → (List.range 16).all s.inStop = true →
    Ends (.hiWriteCommit t r 0x640008 value) s (fun u => u.rd F.ENV_REGION = s.wholeValue r 0x640008 value.toNat % 2 ^ 64))

/-- A partial or misaligned write is discarded with REASON 2 and a write of a register that takes none with REASON 1; each
is reported and counted, the count stopping at its greatest value.  In a register without rows of its own an RW field
takes its bits, a W1C field clears those written 1, an RWL field takes its bits while its owner is in STOP and keeps its
value otherwise, where a change is discarded with REASON 3.  A read of RC fields answers and clears them.  A Shuttle, and
debug while it is closed, write nothing.  REASON 1 of a register with RC fields alone is the model's reading (log 50). -/
def Obligations.RegisterWritesFollowTheAccessTypes : Prop :=
  (∀ (t : Instant) (r : Requester) (offset : Fin 268435456) (value : Word) (byteEnables : Fin 16) (s : State), s.mayWrite r = true →
    byteEnables ≠ 15 ∨ offset.val % 4 ≠ 0 → Ends (.registerWrite t r offset value byteEnables) s (fun u => u = (s.advance t).discard 2 offset ∧
    u.rd F.SYS_DISCARD_REASON = 2 ∧ u.rd F.SYS_DISCARD_OFFSET = offset ∧ u.rd F.SYS_DISCARD_CNT = min (s.rd F.SYS_DISCARD_CNT + 1) 0xFFFFFFFF)) ∧
  (∀ (t : Instant) (r : Requester) (offset : Fin 268435456) (value : Word) (byteEnables : Fin 16) (s : State), s.mayWrite r = false →
    Ends (.registerWrite t r offset value byteEnables) s (fun u => u = s.advance t)) ∧
  (∀ (t : Instant) (r : Requester) (offset : Fin 268435456) (value : Word) (row : RegRow) (i : Nat) (s : State), findReg offset = some (row, i) →
    row.half = .word → row.has [.rw, .rwl, .w1c, .w1s, .wo] = false → editMask row = 0 → ((s.advance t).rowsAt t offset value).isNone = true →
    inSramWindow offset = false → s.mayWrite r = true → offset.val % 4 = 0 → s.admits offset = true →
    Ends (.registerWrite t r offset value 15) s (fun u => u = (s.advance t).discard 1 offset)) ∧
  (∀ (t : Instant) (r : Requester) (offset : Fin 268435456) (value : Word) (row : RegRow) (i : Nat) (b : FieldBits) (s : State), findReg offset = some (row, i) →
    row.half = .word → row.fields.contains b = true → b.access = .rw → editMask row = 0 → ((s.advance t).rowsAt t offset value).isNone = true →
    inSramWindow offset = false → s.mayWrite r = true → offset.val % 4 = 0 → s.admits offset = true → s.badRange offset value.toNat = false →
    s.ownRuleDiscards offset value.toNat = false →
    Ends (.registerWrite t r offset value 15) s (fun u => u.rd b.fld i / 2 ^ b.from_ % 2 ^ b.width = value.toNat / 2 ^ b.lo % 2 ^ b.width)) ∧
  (∀ (t : Instant) (r : Requester) (s' : Fin 200) (offset : Fin 268435456) (value : Word) (s : State), offset.val = 0xF03000 + 4 * s'.val →
    s.mayWrite r = true → Ends (.registerWrite t r offset value 15) s (fun u => u.rd F.INT_MAP_EN s' = value.toNat / 2 ^ 31 ∧
    u.rd F.INT_MAP_VECTOR s' = value.toNat % 64 ∧ u.rd F.SYS_DISCARD_CNT = s.rd F.SYS_DISCARD_CNT)) ∧
  (∀ (t : Instant) (r : Requester) (value : Word) (k : Fin 21) (s : State), s.mayWrite r = true →
    Ends (.registerWrite t r 0x10 value 15) s (fun u => bitOf (u.rd F.SYS_FAULT) k = (bitOf (s.rd F.SYS_FAULT) k && !value.getLsbD k) ∧
    u.rd F.SYS_DISCARD_CNT = s.rd F.SYS_DISCARD_CNT)) ∧
  (∀ (t : Instant) (r : Requester) (value : Word) (s : State), s.mayWrite r = true → (List.range 16).all s.inStop = true →
    Ends (.registerWrite t r 0xE00024 value 15) s (fun u => u.rd F.PWR_WAKE_CFG_RET_MV = value.toNat / 2 ^ 16 % 2 ^ 12 ∧
    u.rd F.PWR_WAKE_CFG_WAKE_TMO_MS = value.toNat % 2 ^ 8 ∧ u.rd F.SYS_DISCARD_CNT = s.rd F.SYS_DISCARD_CNT)) ∧
  (∀ (t : Instant) (r : Requester) (value : Word) (p : Fin 16) (s : State), s.mayWrite r = true → s.inStop p = false →
    value.toNat / 2 ^ 16 % 2 ^ 12 ≠ s.rd F.PWR_WAKE_CFG_RET_MV % 2 ^ 12 →
    Ends (.registerWrite t r 0xE00024 value 15) s (fun u => u.rd F.PWR_WAKE_CFG_RET_MV = s.rd F.PWR_WAKE_CFG_RET_MV ∧
    u.rd F.PWR_WAKE_CFG_WAKE_TMO_MS = value.toNat % 2 ^ 8 ∧ u.rd F.SYS_DISCARD_REASON = 3 ∧ u.rd F.SYS_DISCARD_OFFSET = 0xE00024)) ∧
  (∀ (t : Instant) (r : Requester) (p : Fin 16) (offset : Fin 268435456) (value : Word) (s : State), offset.val = 0xE00104 + 8 * p.val →
    s.mayWrite r = true → s.admits offset = true → s.inStop p = true →
    Ends (.registerWrite t r offset value 15) s (fun u => u.rd F.PWR_PART_CFG p = value.toNat % 2 ∧
    u.rd F.SYS_DISCARD_CNT = s.rd F.SYS_DISCARD_CNT)) ∧
  (∀ (t : Instant) (r : Requester) (p : Fin 16) (offset : Fin 268435456) (value : Word) (s : State), offset.val = 0xE00104 + 8 * p.val →
    s.mayWrite r = true → s.admits offset = true → s.inStop p = false →
    Ends (.registerWrite t r offset value 15) s (fun u => u = (s.advance t).discard 3 offset)) ∧
  (∀ (t : Instant) (offset : Fin 268435456) (row : RegRow) (i : Nat) (b : FieldBits) (s : State), findReg offset = some (row, i) → row.fields = [b] →
    b.access = .rc → b.lo = 0 → b.from_ = 0 → inSramWindow offset = false → s.rd F.HOST_STATUS_BOOTING = 0 →
    Ends (.rcRead t offset) s (fun u => u.answer.data = leBytes 4 (s.rd b.fld i % 2 ^ b.width) ∧ u.rd b.fld i = b.fld.reset % 2 ^ b.fld.width))

/-! ### The block as a whole -/

/-- The commands take effect one at a time, in the order in which the queue holds them, each on the state with the rest of
the queue waiting.  With no command waiting a step is one edge of the clock that the Warp counts: that a step without a
command is a clock edge is the model's choice (log 2), not a rule of the spec. -/
def Obligations.AStepRunsTheFrontCommand : Prop :=
  (∀ (c : Instr) (q : List Instr) (s : State), s.pending = c :: q → step s = exec c { s with pending := q }) ∧
  (∀ (s : State), s.pending = [] → step s = .next s.warpEdge)

/-- At reset the memories and the register file are in canonical form and the queue is empty; the device is booting and is
held in reset, every partition is in STOP, every Treadle is IDLE, debug is locked and no SOUT is energised.  That RAM lists
nothing at reset is the model's choice (log 4), and so are the values that log 3 names. -/
def Obligations.ResetIsCanonicalAndStopped : Prop :=
  (State.reset.canonical = true ∧ State.reset.pending = [] ∧ State.reset.rd F.HOST_STATUS_BOOTING = 1 ∧ State.reset.boot.held = true ∧
    State.reset.rd F.SEC_STATUS_DEBUG_LEVEL = 0 ∧ State.reset.rd F.SAF_SOUT_STATE_ENERGISED = 0) ∧
  (∀ (p : Fin 16), State.reset.inStop p = true ∧ State.reset.rd F.TR_STATUS_STATE p = 0 ∧ State.reset.rd F.LP_STATUS_APPLY_STATE p = 0)

/-- From every state in canonical form, reachable or not, a step answers a next state: no command ever faults or is refused.
That state is in canonical form (addresses and register numbers rise strictly, and no memory lists a byte that reads as an
unlisted one), its queue is what stood behind the front command, and no free value that had been drawn is drawn again. -/
def Obligations.EveryStepKeepsTheCanonicalForm : Prop :=
  ∀ (s : State), s.canonical = true → ∃ u, step s = .next u ∧ Kept (s.pending.drop 1) s.freeCtr u

/-- For every command and every state, exec answers a next state in which every register field in every instance, and every
part of the state, is as before except those that `touches` lists for the command; the queue is as before, and where the
list has none of a memory every byte of it reads as before. -/
def Obligations.EveryCommandKeepsItsFrame : Prop :=
  ∀ (c : Instr) (s : State), ∃ u, exec c s = .next u ∧ Frame (touches c) s u ∧ ((touches c).hasPart .sram = false →
    ∀ a, u.sram.read a = s.sram.read a) ∧ ((touches c).hasPart .dram = false → ∀ a, u.dram.read a = s.dram.read a) ∧
    ((touches c).hasPart .dlm = false → ∀ a, u.dlm.read a = s.dlm.read a)

/-- SWAP, COPY, a bank or C_STATE write, FAULT_CLEAR, PLAUS_CLEAR, ST_GO and a result of one loop cell leave every LC register
and all else of every other cell as they are; so do a host write and an update of one profile generator, GO, HALT, a result and
a step pulse of one axis, and the acknowledgements of one capture set, with the others of their kinds. -/
def Obligations.OneInstanceLeavesTheOthers : Prop :=
  (∀ (t : Instant) (n : Fin 1024) (m : Nat) (f : Fld) (s : State), m ≠ n → 65 ≤ f.id → f.id ≤ 154 → Ends (.swap t n) s (fun u => u.rd f m = s.rd f m ∧
    u.cell m = s.cell m)) ∧
  (∀ (t : Instant) (n : Fin 1024) (m : Nat) (f : Fld) (s : State), m ≠ n → 65 ≤ f.id → f.id ≤ 154 → Ends (.copy t n) s (fun u => u.rd f m = s.rd f m ∧
    u.cell m = s.cell m)) ∧
  (∀ (t : Instant) (n : Fin 1024) (k : Fin 24) (value : Word) (m : Nat) (f : Fld) (s : State), m ≠ n → 65 ≤ f.id → f.id ≤ 154 →
    Ends (.bankWindowWrite t n k value) s (fun u => u.rd f m = s.rd f m ∧ u.cell m = s.cell m)) ∧
  (∀ (t : Instant) (n : Fin 1024) (value : BitVec 48) (m : Nat) (f : Fld) (s : State), m ≠ n → 65 ≤ f.id → f.id ≤ 154 →
    Ends (.cStateWrite t n value) s (fun u => u.rd f m = s.rd f m ∧ u.cell m = s.cell m)) ∧
  (∀ (t : Instant) (n : Fin 1024) (m : Nat) (f : Fld) (s : State), m ≠ n → 65 ≤ f.id → f.id ≤ 154 →
    Ends (.faultClear t n) s (fun u => u.rd f m = s.rd f m ∧ u.cell m = s.cell m)) ∧
  (∀ (t : Instant) (n : Fin 1024) (m : Nat) (f : Fld) (s : State), m ≠ n → 65 ≤ f.id → f.id ≤ 154 →
    Ends (.plausClear t n) s (fun u => u.rd f m = s.rd f m ∧ u.cell m = s.cell m)) ∧
  (∀ (t : Instant) (n : Fin 1024) (m : Nat) (f : Fld) (s : State), m ≠ n → 65 ≤ f.id → f.id ≤ 154 → Ends (.stGo t n) s (fun u => u.rd f m = s.rd f m ∧
    u.cell m = s.cell m)) ∧
  (∀ (t : Instant) (n : Fin 1024) (arith parity : Bool) (m : Nat) (f : Fld) (s : State), m ≠ n → 65 ≤ f.id → f.id ≤ 154 →
    Ends (.loopResultReady t n arith parity) s (fun u => u.rd f m = s.rd f m ∧ u.cell m = s.cell m)) ∧
  (∀ (t : Instant) (n : Fin 256) (r : GenReg) (value : Word) (m : Nat) (f : Fld) (s : State), m ≠ n → 206 ≤ f.id → f.id ≤ 228 →
    Ends (.pgHostWrite t n r value) s (fun u => u.rd f m = s.rd f m ∧ u.gen m = s.gen m)) ∧
  (∀ (t : Instant) (n : Fin 256) (m : Nat) (f : Fld) (s : State), m ≠ n → 206 ≤ f.id → f.id ≤ 228 →
    Ends (.pgUpdate t n) s (fun u => u.rd f m = s.rd f m ∧ u.gen m = s.gen m)) ∧
  (∀ (t : Instant) (n : Fin 128) (m : Nat) (f : Fld) (s : State), m ≠ n → 247 ≤ f.id → f.id ≤ 325 → Ends (.axGo t n) s (fun u => u.rd f m = s.rd f m ∧
    u.axis m = s.axis m)) ∧
  (∀ (t : Instant) (n : Fin 128) (m : Nat) (f : Fld) (s : State), m ≠ n → 247 ≤ f.id → f.id ≤ 325 →
    Ends (.axHalt t n) s (fun u => u.rd f m = s.rd f m ∧ u.axis m = s.axis m)) ∧
  (∀ (t : Instant) (n : Fin 128) (arith parity : Bool) (m : Nat) (f : Fld) (s : State), m ≠ n → 247 ≤ f.id → f.id ≤ 325 →
    Ends (.axResultReady t n arith parity) s (fun u => u.rd f m = s.rd f m ∧ u.axis m = s.axis m)) ∧
  (∀ (t : Instant) (n : Fin 128) (m : Nat) (f : Fld) (s : State), m ≠ n → 247 ≤ f.id → f.id ≤ 325 →
    Ends (.stepPulse t n) s (fun u => u.rd f m = s.rd f m ∧ u.axis m = s.axis m)) ∧
  (∀ (t : Instant) (n : Fin 32) (seq : BitVec 64) (m : Nat) (f : Fld) (s : State), m ≠ n → 387 ≤ f.id → f.id ≤ 405 →
    Ends (.csConsumedWrite t n seq) s (fun u => u.rd f m = s.rd f m ∧ u.cset m = s.cset m)) ∧
  (∀ (t : Instant) (n : Fin 32) (count : BitVec 13) (m : Nat) (f : Fld) (s : State), m ≠ n → 387 ≤ f.id → f.id ≤ 405 →
    Ends (.chunkAck t n count) s (fun u => u.rd f m = s.rd f m ∧ u.cset m = s.cset m))

/-- Each of these commands that executes from a mailbox stores a completion of 32 bytes in the slot that the completion
index names, then its returned data from DATA_OFF on; every other byte of DRAM reads as before, and so does all of SRAM but,
for LOAD_TABLE, the partition's step-table region and, for LOAD_SEGMENTS, the places of the records loaded; the index advances
and the command leaves the queue of its object. -/
def Obligations.MailboxCommandsStoreTheirCompletionAlone : Prop :=
  (∀ (t : Instant) (p : Fin 16) (img : StepTable) (room : Bool) (c : HostCmd) (a : Nat) (s : State), s.mayExecute 0x1 p anyArgs = true →
    s.waiting p = [c] → c.eth = false → 0x10000 ≤ c.off →
    Ends (.loadTable t p img room) s (fun u => u.dram.readBytes (windowBase p + 0x1000 + 32 * (s.rd F.MBX_STATE_COMP p % 64)) 32 = completionBytes c u.answer (s.advance t).now ∧
    (a < stepRegion p ∨ stepRegion p + 0x100000 ≤ a → u.sram.read a = s.sram.read a) ∧ u.waiting p = [] ∧
    u.rd F.MBX_STATE_COMP p = (s.rd F.MBX_STATE_COMP p + 1) % 2 ^ F.MBX_STATE_COMP.width ∧
    (a < windowBase p + 0x1000 + 32 * (s.rd F.MBX_STATE_COMP p % 64) ∨ windowBase p + 0x1000 + 32 * (s.rd F.MBX_STATE_COMP p % 64) + 32 ≤ a →
    a < windowBase p + c.off ∨ windowBase p + c.off + u.answer.data.length ≤ a → u.dram.read a = s.dram.read a))) ∧
  (∀ (t : Instant) (p : Fin 16) (img : SegImage) (room : Bool) (c : HostCmd) (a : Nat) (s : State), s.mayExecute 0x2 p anyArgs = true →
    s.waiting p = [c] → c.eth = false → 0x10000 ≤ c.off →
    Ends (.loadSegments t p img room) s (fun u => u.dram.readBytes (windowBase p + 0x1000 + 32 * (s.rd F.MBX_STATE_COMP p % 64)) 32 = completionBytes c u.answer (s.advance t).now ∧
    (a < segRegion img.axis + 12 * img.first ∨ segRegion img.axis + 12 * img.first + 12 * img.records.length ≤ a → u.sram.read a = s.sram.read a) ∧
    u.waiting p = [] ∧ u.rd F.MBX_STATE_COMP p = (s.rd F.MBX_STATE_COMP p + 1) % 2 ^ F.MBX_STATE_COMP.width ∧
    (a < windowBase p + 0x1000 + 32 * (s.rd F.MBX_STATE_COMP p % 64) ∨ windowBase p + 0x1000 + 32 * (s.rd F.MBX_STATE_COMP p % 64) + 32 ≤ a →
    a < windowBase p + c.off ∨ windowBase p + c.off + u.answer.data.length ≤ a → u.dram.read a = s.dram.read a))) ∧
  (∀ (t : Instant) (p : Fin 16) (img : DraftImg) (room : Bool) (c : HostCmd) (a : Nat) (s : State), s.mayExecute 0x5 p anyArgs = true →
    s.waiting p = [c] → c.eth = false → 0x10000 ≤ c.off →
    Ends (.loadDraft t p img room) s (fun u => u.dram.readBytes (windowBase p + 0x1000 + 32 * (s.rd F.MBX_STATE_COMP p % 64)) 32 = completionBytes c u.answer (s.advance t).now ∧
    u.sram = s.sram ∧ u.waiting p = [] ∧ u.rd F.MBX_STATE_COMP p = (s.rd F.MBX_STATE_COMP p + 1) % 2 ^ F.MBX_STATE_COMP.width ∧
    (a < windowBase p + 0x1000 + 32 * (s.rd F.MBX_STATE_COMP p % 64) ∨ windowBase p + 0x1000 + 32 * (s.rd F.MBX_STATE_COMP p % 64) + 32 ≤ a →
    a < windowBase p + c.off ∨ windowBase p + c.off + u.answer.data.length ≤ a → u.dram.read a = s.dram.read a))) ∧
  (∀ (t : Instant) (p : Fin 16) (refresh : Bool) (c : HostCmd) (a : Nat) (s : State), s.mayExecute 0xd p anyArgs = true → s.waiting p = [c] →
    c.eth = false → 0x10000 ≤ c.off →
    Ends (.view t p refresh) s (fun u => u.dram.readBytes (windowBase p + 0x1000 + 32 * (s.rd F.MBX_STATE_COMP p % 64)) 32 = completionBytes c u.answer (s.advance t).now ∧
    u.sram = s.sram ∧ u.waiting p = [] ∧ u.rd F.MBX_STATE_COMP p = (s.rd F.MBX_STATE_COMP p + 1) % 2 ^ F.MBX_STATE_COMP.width ∧
    (a < windowBase p + 0x1000 + 32 * (s.rd F.MBX_STATE_COMP p % 64) ∨ windowBase p + 0x1000 + 32 * (s.rd F.MBX_STATE_COMP p % 64) + 32 ≤ a →
    a < windowBase p + c.off ∨ windowBase p + c.off + u.answer.data.length ≤ a → u.dram.read a = s.dram.read a))) ∧
  (∀ (t : Instant) (p : Fin 16) (kind index : Word) (c : HostCmd) (a : Nat) (s : State), s.mayExecute 0xb p (fun c => c.arg0 == kind.toNat && c.arg1 == index.toNat) = true →
    s.waiting p = [c] → c.eth = false → 0x10000 ≤ c.off →
    Ends (.odoClear t p kind index) s (fun u => u.dram.readBytes (windowBase p + 0x1000 + 32 * (s.rd F.MBX_STATE_COMP p % 64)) 32 = completionBytes c u.answer (s.advance t).now ∧
    u.sram = s.sram ∧ u.waiting p = [] ∧ u.rd F.MBX_STATE_COMP p = (s.rd F.MBX_STATE_COMP p + 1) % 2 ^ F.MBX_STATE_COMP.width ∧
    (a < windowBase p + 0x1000 + 32 * (s.rd F.MBX_STATE_COMP p % 64) ∨ windowBase p + 0x1000 + 32 * (s.rd F.MBX_STATE_COMP p % 64) + 32 ≤ a →
    a < windowBase p + c.off ∨ windowBase p + c.off + u.answer.data.length ≤ a → u.dram.read a = s.dram.read a))) ∧
  (∀ (t : Instant) (m : MatrixCont) (readBack room : Bool) (c : HostCmd) (a : Nat) (s : State), s.mayExecute 0x10 16 anyArgs = true →
    s.waiting 16 = [c] → c.eth = false → 0x10000 ≤ c.off →
    Ends (.programMatrix t m readBack room) s (fun u => u.dram.readBytes (windowBase 16 + 0x1000 + 32 * (s.rd F.MBX_STATE_COMP 16 % 64)) 32 = completionBytes c u.answer (s.advance t).now ∧
    u.sram = s.sram ∧ u.waiting 16 = [] ∧ u.rd F.MBX_STATE_COMP 16 = (s.rd F.MBX_STATE_COMP 16 + 1) % 2 ^ F.MBX_STATE_COMP.width ∧
    (a < windowBase 16 + 0x1000 + 32 * (s.rd F.MBX_STATE_COMP 16 % 64) ∨ windowBase 16 + 0x1000 + 32 * (s.rd F.MBX_STATE_COMP 16 % 64) + 32 ≤ a →
    a < windowBase 16 + c.off ∨ windowBase 16 + c.off + u.answer.data.length ≤ a → u.dram.read a = s.dram.read a))) ∧
  (∀ (t : Instant) (img : SafProg) (readBack room : Bool) (c : HostCmd) (a : Nat) (s : State), s.mayExecute 0x11 16 anyArgs = true →
    s.waiting 16 = [c] → c.eth = false → 0x10000 ≤ c.off →
    Ends (.loadSafety t img readBack room) s (fun u => u.dram.readBytes (windowBase 16 + 0x1000 + 32 * (s.rd F.MBX_STATE_COMP 16 % 64)) 32 = completionBytes c u.answer (s.advance t).now ∧
    u.sram = s.sram ∧ u.waiting 16 = [] ∧ u.rd F.MBX_STATE_COMP 16 = (s.rd F.MBX_STATE_COMP 16 + 1) % 2 ^ F.MBX_STATE_COMP.width ∧
    (a < windowBase 16 + 0x1000 + 32 * (s.rd F.MBX_STATE_COMP 16 % 64) ∨ windowBase 16 + 0x1000 + 32 * (s.rd F.MBX_STATE_COMP 16 % 64) + 32 ≤ a →
    a < windowBase 16 + c.off ∨ windowBase 16 + c.off + u.answer.data.length ≤ a → u.dram.read a = s.dram.read a))) ∧
  (∀ (t : Instant) (phase : Word) (c : HostCmd) (a : Nat) (s : State), s.mayExecute 0x12 16 (fun c => c.arg0 == phase.toNat) = true →
    s.waiting 16 = [c] → c.eth = false → 0x10000 ≤ c.off →
    Ends (.safetyPhase t phase) s (fun u => u.dram.readBytes (windowBase 16 + 0x1000 + 32 * (s.rd F.MBX_STATE_COMP 16 % 64)) 32 = completionBytes c u.answer (s.advance t).now ∧
    u.sram = s.sram ∧ u.waiting 16 = [] ∧ u.rd F.MBX_STATE_COMP 16 = (s.rd F.MBX_STATE_COMP 16 + 1) % 2 ^ F.MBX_STATE_COMP.width ∧
    (a < windowBase 16 + 0x1000 + 32 * (s.rd F.MBX_STATE_COMP 16 % 64) ∨ windowBase 16 + 0x1000 + 32 * (s.rd F.MBX_STATE_COMP 16 % 64) + 32 ≤ a →
    a < windowBase 16 + c.off ∨ windowBase 16 + c.off + u.answer.data.length ≤ a → u.dram.read a = s.dram.read a))) ∧
  (∀ (t : Instant) (mask : BitVec 16) (c : HostCmd) (a : Nat) (s : State), s.mayExecute 0x13 16 (fun c => c.arg0 == mask.toNat) = true →
    s.waiting 16 = [c] → c.eth = false → 0x10000 ≤ c.off →
    Ends (.safetyReset t mask) s (fun u => u.dram.readBytes (windowBase 16 + 0x1000 + 32 * (s.rd F.MBX_STATE_COMP 16 % 64)) 32 = completionBytes c u.answer (s.advance t).now ∧
    u.sram = s.sram ∧ u.waiting 16 = [] ∧ u.rd F.MBX_STATE_COMP 16 = (s.rd F.MBX_STATE_COMP 16 + 1) % 2 ^ F.MBX_STATE_COMP.width ∧
    (a < windowBase 16 + 0x1000 + 32 * (s.rd F.MBX_STATE_COMP 16 % 64) ∨ windowBase 16 + 0x1000 + 32 * (s.rd F.MBX_STATE_COMP 16 % 64) + 32 ≤ a →
    a < windowBase 16 + c.off ∨ windowBase 16 + c.off + u.answer.data.length ≤ a → u.dram.read a = s.dram.read a))) ∧
  (∀ (t : Instant) (r : AuthRec) (readBack : Bool) (c : HostCmd) (a : Nat) (s : State), s.mayExecute 0x20 16 anyArgs = true → s.waiting 16 = [c] →
    c.eth = false → 0x10000 ≤ c.off →
    Ends (.authority t r readBack) s (fun u => u.dram.readBytes (windowBase 16 + 0x1000 + 32 * (s.rd F.MBX_STATE_COMP 16 % 64)) 32 = completionBytes c u.answer (s.advance t).now ∧
    u.sram = s.sram ∧ u.waiting 16 = [] ∧ u.rd F.MBX_STATE_COMP 16 = (s.rd F.MBX_STATE_COMP 16 + 1) % 2 ^ F.MBX_STATE_COMP.width ∧
    (a < windowBase 16 + 0x1000 + 32 * (s.rd F.MBX_STATE_COMP 16 % 64) ∨ windowBase 16 + 0x1000 + 32 * (s.rd F.MBX_STATE_COMP 16 % 64) + 32 ≤ a →
    a < windowBase 16 + c.off ∨ windowBase 16 + c.off + u.answer.data.length ≤ a → u.dram.read a = s.dram.read a))) ∧
  (∀ (t : Instant) (d : Delta) (c : HostCmd) (a : Nat) (s : State), s.mayExecute 0x21 16 anyArgs = true → s.waiting 16 = [c] → c.eth = false →
    0x10000 ≤ c.off →
    Ends (.applyDelta t d) s (fun u => u.dram.readBytes (windowBase 16 + 0x1000 + 32 * (s.rd F.MBX_STATE_COMP 16 % 64)) 32 = completionBytes c u.answer (s.advance t).now ∧
    u.sram = s.sram ∧ u.waiting 16 = [] ∧ u.rd F.MBX_STATE_COMP 16 = (s.rd F.MBX_STATE_COMP 16 + 1) % 2 ^ F.MBX_STATE_COMP.width ∧
    (a < windowBase 16 + 0x1000 + 32 * (s.rd F.MBX_STATE_COMP 16 % 64) ∨ windowBase 16 + 0x1000 + 32 * (s.rd F.MBX_STATE_COMP 16 % 64) + 32 ≤ a →
    a < windowBase 16 + c.off ∨ windowBase 16 + c.off + u.answer.data.length ≤ a → u.dram.read a = s.dram.read a))) ∧
  (∀ (t : Instant) (c : HostCmd) (a : Nat) (s : State), s.mayExecute 0x22 16 anyArgs = true → s.waiting 16 = [c] → c.eth = false → 0x10000 ≤ c.off →
    Ends (.debugChallenge t false) s (fun u => u.dram.readBytes (windowBase 16 + 0x1000 + 32 * (s.rd F.MBX_STATE_COMP 16 % 64)) 32 = completionBytes c u.answer (s.advance t).now ∧
    u.sram = s.sram ∧ u.waiting 16 = [] ∧ u.rd F.MBX_STATE_COMP 16 = (s.rd F.MBX_STATE_COMP 16 + 1) % 2 ^ F.MBX_STATE_COMP.width ∧
    (a < windowBase 16 + 0x1000 + 32 * (s.rd F.MBX_STATE_COMP 16 % 64) ∨ windowBase 16 + 0x1000 + 32 * (s.rd F.MBX_STATE_COMP 16 % 64) + 32 ≤ a →
    a < windowBase 16 + c.off ∨ windowBase 16 + c.off + u.answer.data.length ≤ a → u.dram.read a = s.dram.read a))) ∧
  (∀ (t : Instant) (r : DebugResp) (c : HostCmd) (a : Nat) (s : State), s.mayExecute 0x23 16 anyArgs = true → s.waiting 16 = [c] → c.eth = false →
    0x10000 ≤ c.off →
    Ends (.debugOpen t false r) s (fun u => u.dram.readBytes (windowBase 16 + 0x1000 + 32 * (s.rd F.MBX_STATE_COMP 16 % 64)) 32 = completionBytes c u.answer (s.advance t).now ∧
    u.sram = s.sram ∧ u.waiting 16 = [] ∧ u.rd F.MBX_STATE_COMP 16 = (s.rd F.MBX_STATE_COMP 16 + 1) % 2 ^ F.MBX_STATE_COMP.width ∧
    (a < windowBase 16 + 0x1000 + 32 * (s.rd F.MBX_STATE_COMP 16 % 64) ∨ windowBase 16 + 0x1000 + 32 * (s.rd F.MBX_STATE_COMP 16 % 64) + 32 ≤ a →
    a < windowBase 16 + c.off ∨ windowBase 16 + c.off + u.answer.data.length ≤ a → u.dram.read a = s.dram.read a))) ∧
  (∀ (t : Instant) (c : HostCmd) (a : Nat) (s : State), s.mayExecute 0x24 16 anyArgs = true → s.waiting 16 = [c] → c.eth = false → 0x10000 ≤ c.off →
    Ends (.debugClose t false) s (fun u => u.dram.readBytes (windowBase 16 + 0x1000 + 32 * (s.rd F.MBX_STATE_COMP 16 % 64)) 32 = completionBytes c u.answer (s.advance t).now ∧
    u.sram = s.sram ∧ u.waiting 16 = [] ∧ u.rd F.MBX_STATE_COMP 16 = (s.rd F.MBX_STATE_COMP 16 + 1) % 2 ^ F.MBX_STATE_COMP.width ∧
    (a < windowBase 16 + 0x1000 + 32 * (s.rd F.MBX_STATE_COMP 16 % 64) ∨ windowBase 16 + 0x1000 + 32 * (s.rd F.MBX_STATE_COMP 16 % 64) + 32 ≤ a →
    a < windowBase 16 + c.off ∨ windowBase 16 + c.off + u.answer.data.length ≤ a → u.dram.read a = s.dram.read a))) ∧
  (∀ (t : Instant) (nonce : BitVec 256) (c : HostCmd) (a : Nat) (s : State), s.mayExecute 0x25 16 anyArgs = true → s.waiting 16 = [c] →
    c.eth = false → 0x10000 ≤ c.off →
    Ends (.attest t nonce) s (fun u => u.dram.readBytes (windowBase 16 + 0x1000 + 32 * (s.rd F.MBX_STATE_COMP 16 % 64)) 32 = completionBytes c u.answer (s.advance t).now ∧
    u.sram = s.sram ∧ u.waiting 16 = [] ∧ u.rd F.MBX_STATE_COMP 16 = (s.rd F.MBX_STATE_COMP 16 + 1) % 2 ^ F.MBX_STATE_COMP.width ∧
    (a < windowBase 16 + 0x1000 + 32 * (s.rd F.MBX_STATE_COMP 16 % 64) ∨ windowBase 16 + 0x1000 + 32 * (s.rd F.MBX_STATE_COMP 16 % 64) + 32 ≤ a →
    a < windowBase 16 + c.off ∨ windowBase 16 + c.off + u.answer.data.length ≤ a → u.dram.read a = s.dram.read a)))

/-- A host write of a command register outside the blocks that answer during the boot is discarded with REASON 6 and has no
other effect; a mailbox command that no waiting entry asks for leaves the state at its instant. -/
def Obligations.RequestsNotAdmittedChangeNothing : Prop :=
  (∀ (t : Instant) (rate : Word) (s : State), s.rd F.HOST_STATUS_BOOTING ≠ 0 →
    Ends (.rateAdjWrite t rate) s (fun u => u = (s.advance t).discard 6 0x100010)) ∧
  (∀ (t : Instant) (offset : Word) (s : State), s.rd F.HOST_STATUS_BOOTING ≠ 0 →
    Ends (.slewNsWrite t offset) s (fun u => u = (s.advance t).discard 6 0x100014)) ∧
  (∀ (t : Instant) (value : Word) (s : State), s.rd F.HOST_STATUS_BOOTING ≠ 0 →
    Ends (.stepGo t value) s (fun u => u = (s.advance t).discard 6 0x100028)) ∧
  (∀ (t : Instant) (value : Word) (armFirst : Bool) (s : State), s.rd F.HOST_STATUS_BOOTING ≠ 0 →
    Ends (.syncOutArm t value armFirst) s (fun u => u = (s.advance t).discard 6 0x100068)) ∧
  (∀ (t : Instant) (value : Word) (s : State), s.rd F.HOST_STATUS_BOOTING ≠ 0 →
    Ends (.avsModeWrite t value) s (fun u => u = (s.advance t).discard 6 0x100084)) ∧
  (∀ (t : Instant) (n : Fin 1024) (value : Word) (s : State), s.rd F.HOST_STATUS_BOOTING ≠ 0 →
    Ends (.lcEnable t n value) s (fun u => u = (s.advance t).discard 6 (0x200000 + 0x100 * n.val))) ∧
  (∀ (t : Instant) (n : Fin 1024) (value : Word) (s : State), s.rd F.HOST_STATUS_BOOTING ≠ 0 →
    Ends (.lcDisable t n value) s (fun u => u = (s.advance t).discard 6 (0x200000 + 0x100 * n.val))) ∧
  (∀ (t : Instant) (n : Fin 1024) (s : State), s.rd F.HOST_STATUS_BOOTING ≠ 0 →
    Ends (.swap t n) s (fun u => u = (s.advance t).discard 6 (0x200000 + 0x100 * n.val))) ∧
  (∀ (t : Instant) (n : Fin 1024) (s : State), s.rd F.HOST_STATUS_BOOTING ≠ 0 →
    Ends (.copy t n) s (fun u => u = (s.advance t).discard 6 (0x200000 + 0x100 * n.val))) ∧
  (∀ (t : Instant) (n : Fin 1024) (k : Fin 24) (value : Word) (s : State), s.rd F.HOST_STATUS_BOOTING ≠ 0 →
    Ends (.bankWindowWrite t n k value) s (fun u => u = (s.advance t).discard 6 (0x200000 + 0x100 * n.val + 0xA0 + 4 * k.val))) ∧
  (∀ (t : Instant) (n : Fin 1024) (value : BitVec 48) (s : State), s.rd F.HOST_STATUS_BOOTING ≠ 0 →
    Ends (.cStateWrite t n value) s (fun u => u = (s.advance t).discard 6 (0x200050 + 0x100 * n.val))) ∧
  (∀ (t : Instant) (conv : Fin 25) (s : State), s.rd F.HOST_STATUS_BOOTING ≠ 0 →
    Ends (.calRequest t conv) s (fun u => u = (s.advance t).discard 6 0x240008)) ∧
  (∀ (t : Instant) (n : Fin 1024) (s : State), s.rd F.HOST_STATUS_BOOTING ≠ 0 →
    Ends (.faultClear t n) s (fun u => u = (s.advance t).discard 6 (0x20009C + 0x100 * n.val))) ∧
  (∀ (t : Instant) (n : Fin 1024) (s : State), s.rd F.HOST_STATUS_BOOTING ≠ 0 →
    Ends (.plausClear t n) s (fun u => u = (s.advance t).discard 6 (0x20009C + 0x100 * n.val))) ∧
  (∀ (t : Instant) (n : Fin 1024) (s : State), s.rd F.HOST_STATUS_BOOTING ≠ 0 →
    Ends (.stGo t n) s (fun u => u = (s.advance t).discard 6 (0x20009C + 0x100 * n.val))) ∧
  (∀ (t : Instant) (n : Fin 1024) (s : State), s.rd F.HOST_STATUS_BOOTING ≠ 0 →
    Ends (.stCancel t n) s (fun u => u = (s.advance t).discard 6 (0x20009C + 0x100 * n.val))) ∧
  (∀ (t : Instant) (p : Fin 16) (value : Word) (s : State), s.rd F.HOST_STATUS_BOOTING ≠ 0 →
    Ends (.trStart t p value) s (fun u => u = (s.advance t).discard 6 (0x300000 + 0x100 * p.val))) ∧
  (∀ (t : Instant) (p : Fin 16) (value : Word) (s : State), s.rd F.HOST_STATUS_BOOTING ≠ 0 →
    Ends (.trPause t p value) s (fun u => u = (s.advance t).discard 6 (0x300000 + 0x100 * p.val))) ∧
  (∀ (t : Instant) (p : Fin 16) (value : Word) (s : State), s.rd F.HOST_STATUS_BOOTING ≠ 0 →
    Ends (.trResume t p value) s (fun u => u = (s.advance t).discard 6 (0x300000 + 0x100 * p.val))) ∧
  (∀ (t : Instant) (p : Fin 16) (value : Word) (s : State), s.rd F.HOST_STATUS_BOOTING ≠ 0 →
    Ends (.trAbort t p value) s (fun u => u = (s.advance t).discard 6 (0x300000 + 0x100 * p.val))) ∧
  (∀ (t : Instant) (p : Fin 16) (value : Word) (s : State), s.rd F.HOST_STATUS_BOOTING ≠ 0 →
    Ends (.trClearFault t p value) s (fun u => u = (s.advance t).discard 6 (0x300000 + 0x100 * p.val))) ∧
  (∀ (t : Instant) (n : Fin 256) (value : Word) (s : State), s.rd F.HOST_STATUS_BOOTING ≠ 0 →
    Ends (.pgEnable t n value) s (fun u => u = (s.advance t).discard 6 (0x310000 + 0x40 * n.val))) ∧
  (∀ (t : Instant) (n : Fin 256) (value : Word) (s : State), s.rd F.HOST_STATUS_BOOTING ≠ 0 →
    Ends (.pgHostWrite t n .target value) s (fun u => u = (s.advance t).discard 6 (0x310014 + 0x40 * n.val))) ∧
  (∀ (t : Instant) (n : Fin 128) (value : Word) (s : State), s.rd F.HOST_STATUS_BOOTING ≠ 0 →
    Ends (.axEnable t n value) s (fun u => u = (s.advance t).discard 6 (0x400000 + 0x100 * n.val))) ∧
  (∀ (t : Instant) (n : Fin 128) (value : Word) (s : State), s.rd F.HOST_STATUS_BOOTING ≠ 0 →
    Ends (.axDisable t n value) s (fun u => u = (s.advance t).discard 6 (0x400000 + 0x100 * n.val))) ∧
  (∀ (t : Instant) (n : Fin 128) (s : State), s.rd F.HOST_STATUS_BOOTING ≠ 0 →
    Ends (.axGo t n) s (fun u => u = (s.advance t).discard 6 (0x400000 + 0x100 * n.val))) ∧
  (∀ (t : Instant) (n : Fin 128) (s : State), s.rd F.HOST_STATUS_BOOTING ≠ 0 →
    Ends (.axHalt t n) s (fun u => u = (s.advance t).discard 6 (0x400000 + 0x100 * n.val))) ∧
  (∀ (t : Instant) (n : Fin 128) (s : State), s.rd F.HOST_STATUS_BOOTING ≠ 0 →
    Ends (.axHome t n) s (fun u => u = (s.advance t).discard 6 (0x400000 + 0x100 * n.val))) ∧
  (∀ (t : Instant) (n : Fin 128) (s : State), s.rd F.HOST_STATUS_BOOTING ≠ 0 →
    Ends (.axClear t n) s (fun u => u = (s.advance t).discard 6 (0x400000 + 0x100 * n.val))) ∧
  (∀ (t : Instant) (g : Fin 4) (value : Word) (s : State), s.rd F.HOST_STATUS_BOOTING ≠ 0 →
    Ends (.axgArm t g value) s (fun u => u = (s.advance t).discard 6 (0x410018 + 0x20 * g.val))) ∧
  (∀ (t : Instant) (g : Fin 4) (value : Word) (s : State), s.rd F.HOST_STATUS_BOOTING ≠ 0 →
    Ends (.axgCancel t g value) s (fun u => u = (s.advance t).discard 6 (0x410018 + 0x20 * g.val))) ∧
  (∀ (t : Instant) (k : Fin 17) (s : State), s.rd F.HOST_STATUS_BOOTING ≠ 0 →
    Ends (.flush t k) s (fun u => u = (s.advance t).discard 6 (0x501000 + 0x80 * k.val))) ∧
  (∀ (t : Instant) (k : Fin 17) (seq : BitVec 64) (s : State), s.rd F.HOST_STATUS_BOOTING ≠ 0 →
    Ends (.stConsumedWrite t k seq) s (fun u => u = (s.advance t).discard 6 (0x501028 + 0x80 * k.val))) ∧
  (∀ (t : Instant) (n : Fin 32) (s : State), s.rd F.HOST_STATUS_BOOTING ≠ 0 →
    Ends (.tsArm t n) s (fun u => u = (s.advance t).discard 6 (0x600000 + 0x800 * n.val))) ∧
  (∀ (t : Instant) (n : Fin 32) (s : State), s.rd F.HOST_STATUS_BOOTING ≠ 0 →
    Ends (.tsDisarm t n) s (fun u => u = (s.advance t).discard 6 (0x600000 + 0x800 * n.val))) ∧
  (∀ (t : Instant) (n : Fin 32) (s : State), s.rd F.HOST_STATUS_BOOTING ≠ 0 →
    Ends (.force t n) s (fun u => u = (s.advance t).discard 6 (0x610000 + 0x100 * n.val))) ∧
  (∀ (t : Instant) (n : Fin 32) (seq : BitVec 64) (s : State), s.rd F.HOST_STATUS_BOOTING ≠ 0 →
    Ends (.csConsumedWrite t n seq) s (fun u => u = (s.advance t).discard 6 (0x610034 + 0x100 * n.val))) ∧
  (∀ (t : Instant) (n : Fin 32) (count : BitVec 13) (s : State), s.rd F.HOST_STATUS_BOOTING ≠ 0 →
    Ends (.chunkAck t n count) s (fun u => u = (s.advance t).discard 6 (0x610040 + 0x100 * n.val))) ∧
  (∀ (t : Instant) (n : Fin 64) (s : State), s.rd F.HOST_STATUS_BOOTING ≠ 0 →
    Ends (.muArm t n) s (fun u => u = (s.advance t).discard 6 (0x630000 + 0x40 * n.val))) ∧
  (∀ (t : Instant) (n : Fin 64) (s : State), s.rd F.HOST_STATUS_BOOTING ≠ 0 →
    Ends (.muDisarm t n) s (fun u => u = (s.advance t).discard 6 (0x630000 + 0x40 * n.val))) ∧
  (∀ (t : Instant) (p : Fin 16) (value : Word) (s : State), s.rd F.HOST_STATUS_BOOTING ≠ 0 →
    Ends (.apply t p value) s (fun u => u = (s.advance t).discard 6 (0x701000 + 0x40 * p.val))) ∧
  (∀ (t : Instant) (p : Fin 16) (s : State), s.rd F.HOST_STATUS_BOOTING ≠ 0 →
    Ends (.editCommit t p) s (fun u => u = (s.advance t).discard 6 (0x701000 + 0x40 * p.val))) ∧
  (∀ (t : Instant) (p : Fin 16) (s : State), s.rd F.HOST_STATUS_BOOTING ≠ 0 →
    Ends (.editDiscard t p) s (fun u => u = (s.advance t).discard 6 (0x701000 + 0x40 * p.val))) ∧
  (∀ (t : Instant) (sh : Fin 48) (s : State), s.rd F.HOST_STATUS_BOOTING ≠ 0 →
    Ends (.restore t sh) s (fun u => u = (s.advance t).discard 6 (0x80300C + 0x10 * sh.val))) ∧
  (∀ (t : Instant) (f : Fin 1024) (drop : Bool) (s : State), s.rd F.HOST_STATUS_BOOTING ≠ 0 →
    Ends (.release t f drop) s (fun u => u = (s.advance t).discard 6 (0x806000 + 4 * f.val))) ∧
  (∀ (t : Instant) (p : Fin 16) (value : Word) (s : State), s.rd F.HOST_STATUS_BOOTING ≠ 0 →
    Ends (.cpStart t p value) s (fun u => u = (s.advance t).discard 6 (0x900000 + 0x200 * p.val))) ∧
  (∀ (t : Instant) (p : Fin 16) (value : Word) (s : State), s.rd F.HOST_STATUS_BOOTING ≠ 0 →
    Ends (.cpHold t p value) s (fun u => u = (s.advance t).discard 6 (0x900000 + 0x200 * p.val))) ∧
  (∀ (t : Instant) (p : Fin 16) (value : Word) (s : State), s.rd F.HOST_STATUS_BOOTING ≠ 0 →
    Ends (.cpResume t p value) s (fun u => u = (s.advance t).discard 6 (0x900000 + 0x200 * p.val))) ∧
  (∀ (t : Instant) (p : Fin 16) (value : Word) (s : State), s.rd F.HOST_STATUS_BOOTING ≠ 0 →
    Ends (.cpStop t p value) s (fun u => u = (s.advance t).discard 6 (0x900000 + 0x200 * p.val))) ∧
  (∀ (t : Instant) (p w : Fin 16) (value : Word) (s : State), s.rd F.HOST_STATUS_BOOTING ≠ 0 →
    Ends (.rjStateWrite t p w value) s (fun u => u = (s.advance t).discard 6 (0x920000 + 0x40 * p.val + 4 * w.val))) ∧
  (∀ (t : Instant) (r : Fin 4) (value : Word) (s : State), s.rd F.HOST_STATUS_BOOTING ≠ 0 →
    Ends (.ringEnWrite t r value) s (fun u => u = (s.advance t).discard 6 (0xA00000 + 0x1000 * r.val))) ∧
  (∀ (t : Instant) (r : Fin 4) (s : State), s.rd F.HOST_STATUS_BOOTING ≠ 0 →
    Ends (.ringStart t r) s (fun u => u = (s.advance t).discard 6 (0xA00000 + 0x1000 * r.val))) ∧
  (∀ (t : Instant) (r : Fin 4) (s : State), s.rd F.HOST_STATUS_BOOTING ≠ 0 →
    Ends (.ringStop t r) s (fun u => u = (s.advance t).discard 6 (0xA00000 + 0x1000 * r.val))) ∧
  (∀ (t : Instant) (r : Fin 4) (s : State), s.rd F.HOST_STATUS_BOOTING ≠ 0 →
    Ends (.discover t r) s (fun u => u = (s.advance t).discard 6 (0xA00000 + 0x1000 * r.val))) ∧
  (∀ (t : Instant) (r : Fin 4) (value : Word) (s : State), s.rd F.HOST_STATUS_BOOTING ≠ 0 →
    Ends (.mbxGo t r value) s (fun u => u = (s.advance t).discard 6 (0xA00100 + 0x1000 * r.val))) ∧
  (∀ (t : Instant) (value : Word) (s : State), s.rd F.HOST_STATUS_BOOTING ≠ 0 →
    Ends (.join t value) s (fun u => u = (s.advance t).discard 6 0xC00010)) ∧
  (∀ (t : Instant) (value : Word) (s : State), s.rd F.HOST_STATUS_BOOTING ≠ 0 →
    Ends (.leave t value) s (fun u => u = (s.advance t).discard 6 0xC00010)) ∧
  (∀ (t : Instant) (value : Word) (s : State), s.rd F.HOST_STATUS_BOOTING ≠ 0 →
    Ends (.switch t value) s (fun u => u = (s.advance t).discard 6 0xC00010)) ∧
  (∀ (t : Instant) (value : Word) (same : Bool) (s : State), s.rd F.HOST_STATUS_BOOTING ≠ 0 →
    Ends (.resync t value same) s (fun u => u = (s.advance t).discard 6 0xC00010)) ∧
  (∀ (t : Instant) (p : Fin 16) (img : StepTable) (room : Bool) (s : State), s.waiting p = [] →
    Ends (.loadTable t p img room) s (fun u => u = s.advance t)) ∧
  (∀ (t : Instant) (p : Fin 16) (img : SegImage) (room : Bool) (s : State), s.waiting p = [] →
    Ends (.loadSegments t p img room) s (fun u => u = s.advance t)) ∧
  (∀ (t : Instant) (p : Fin 16) (img : DraftImg) (room : Bool) (s : State), s.waiting p = [] →
    Ends (.loadDraft t p img room) s (fun u => u = s.advance t)) ∧
  (∀ (t : Instant) (p : Fin 16) (refresh : Bool) (s : State), s.waiting p = [] → Ends (.view t p refresh) s (fun u => u = s.advance t)) ∧
  (∀ (t : Instant) (p : Fin 16) (kind index : Word) (s : State), s.waiting p = [] → Ends (.odoClear t p kind index) s (fun u => u = s.advance t)) ∧
  (∀ (t : Instant) (m : MatrixCont) (readBack room : Bool) (s : State), s.waiting 16 = [] →
    Ends (.programMatrix t m readBack room) s (fun u => u = s.advance t)) ∧
  (∀ (t : Instant) (img : SafProg) (readBack room : Bool) (s : State), s.waiting 16 = [] →
    Ends (.loadSafety t img readBack room) s (fun u => u = s.advance t)) ∧
  (∀ (t : Instant) (phase : Word) (s : State), s.waiting 16 = [] → Ends (.safetyPhase t phase) s (fun u => u = s.advance t)) ∧
  (∀ (t : Instant) (mask : BitVec 16) (s : State), s.waiting 16 = [] → Ends (.safetyReset t mask) s (fun u => u = s.advance t)) ∧
  (∀ (t : Instant) (r : AuthRec) (readBack : Bool) (s : State), s.waiting 16 = [] → Ends (.authority t r readBack) s (fun u => u = s.advance t)) ∧
  (∀ (t : Instant) (d : Delta) (s : State), s.waiting 16 = [] → Ends (.applyDelta t d) s (fun u => u = s.advance t)) ∧
  (∀ (t : Instant) (s : State), s.waiting 16 = [] → Ends (.debugChallenge t false) s (fun u => u = s.advance t)) ∧
  (∀ (t : Instant) (r : DebugResp) (s : State), s.waiting 16 = [] → Ends (.debugOpen t false r) s (fun u => u = s.advance t)) ∧
  (∀ (t : Instant) (s : State), s.waiting 16 = [] → Ends (.debugClose t false) s (fun u => u = s.advance t)) ∧
  (∀ (t : Instant) (nonce : BitVec 256) (s : State), s.waiting 16 = [] → Ends (.attest t nonce) s (fun u => u = s.advance t)) ∧
  (∀ (t : Instant) (p : Fin 16) (img : Envelope) (room : Bool) (s : State), s.waiting p = [] →
    Ends (.loadEnvelope t p img room) s (fun u => u = s.advance t)) ∧
  (∀ (t : Instant) (p : Fin 16) (img : Program) (room : Bool) (s : State), s.waiting p = [] →
    Ends (.loadProgram t p img room) s (fun u => u = s.advance t)) ∧
  (∀ (t : Instant) (p : Fin 16) (task : Word) (data : List Byte) (s : State), s.waiting p = [] →
    Ends (.hostInput t p task data) s (fun u => u = s.advance t)) ∧
  (∀ (t : Instant) (p : Fin 16) (d : BitVec 512) (s : State), s.waiting p = [] → Ends (.submitTask t p d) s (fun u => u = s.advance t)) ∧
  (∀ (t : Instant) (p : Fin 16) (handle : Word) (s : State), s.waiting p = [] → Ends (.cancelTask t p handle) s (fun u => u = s.advance t)) ∧
  (∀ (t : Instant) (p : Fin 16) (h : Fin 128) (es : List QEntry) (s : State), s.waiting p = [] →
    Ends (.hqPush t p h es) s (fun u => u = s.advance t)) ∧
  (∀ (t : Instant) (p : Fin 16) (h : Fin 128) (max : Word) (s : State), s.waiting p = [] → Ends (.hqPop t p h max) s (fun u => u = s.advance t)) ∧
  (∀ (t : Instant) (p : Fin 17) (offset : Word) (data : List Byte) (s : State), s.waiting p = [] →
    Ends (.mwrite t p offset data) s (fun u => u = s.advance t))

/-! ### The Warp (02) -/

/-- With an offset left, the slew adds S or −S to RATE_ADJ, S the integer nearest RATE_PPM × 2^40 / 10^6, ties away from
zero (109,951,163 for 100); with none it adds nothing.  It proceeds at what the clamp leaves beside RATE_ADJ.  A write of
SLEW_NS replaces the offset.  SLEW_NS shows the offset in whole nanoseconds rounded away from zero, and reads 0 only when
none is left and SLEW_ACTIVE is 0; as the Warp advances it goes on to show what is left.  A Warp clock edge takes from the
offset, never past zero, what the slew adds at that edge; at the edge that takes the last of it nothing is left. -/
def Obligations.ASlewFollowsItsOffset : Prop :=
  (∀ (s : State), 0 < s.warp.slewLeft → 1 ≤ s.rd F.SLEW_CFG → s.rd F.SLEW_CFG ≤ 500 →
    2 * (1000000 * s.slewRate - (s.rd F.SLEW_CFG : Int) * 2 ^ 40) ≤ 1000000 ∧
    -1000000 < 2 * (1000000 * s.slewRate - (s.rd F.SLEW_CFG : Int) * 2 ^ 40)) ∧
  (∀ (s : State), s.warp.slewLeft < 0 → 1 ≤ s.rd F.SLEW_CFG → s.rd F.SLEW_CFG ≤ 500 →
    2 * (1000000 * (-s.slewRate) - (s.rd F.SLEW_CFG : Int) * 2 ^ 40) ≤ 1000000 ∧
    -1000000 < 2 * (1000000 * (-s.slewRate) - (s.rd F.SLEW_CFG : Int) * 2 ^ 40)) ∧
  (∀ (s : State), s.warp.slewLeft = 0 → s.slewRate = 0) ∧
  (∀ (s : State), 0 < s.warp.slewLeft → s.rd F.SLEW_CFG = 100 → s.slewRate = 109951163) ∧
  (∀ (s : State), s.rate = clampInt (-549755813) 549755813 (s.rdI F.RATE_ADJ + s.slewRate) ∧
    s.slewShare = s.rate - clampInt (-549755813) 549755813 (s.rdI F.RATE_ADJ)) ∧
  (∀ (t : Instant) (offset : Word) (s : State), s.rd F.HOST_STATUS_BOOTING = 0 →
    Ends (.slewNsWrite t offset) s (fun u => u.warp.slewLeft = offset.toInt * (16 * 2 ^ 40) ∧ u.rdI F.SLEW_NS = offset.toInt ∧
    u.rd F.WARP_STATUS_SLEW_ACTIVE = b2n (offset != 0) ∧ u.now = (s.advance t).now)) ∧
  (∀ (left : Int) (s : State), 0 < left → left ≤ (2 ^ 31 - 1) * (16 * 2 ^ 40) → left ≤ 16 * 2 ^ 40 * (s.putSlew left).rdI F.SLEW_NS ∧
    16 * 2 ^ 40 * ((s.putSlew left).rdI F.SLEW_NS - 1) < left ∧ (s.putSlew left).rd F.WARP_STATUS_SLEW_ACTIVE = 1) ∧
  (∀ (left : Int) (s : State), left < 0 → -(2 ^ 31) * (16 * 2 ^ 40) ≤ left → 16 * 2 ^ 40 * (s.putSlew left).rdI F.SLEW_NS ≤ left ∧
    left < 16 * 2 ^ 40 * ((s.putSlew left).rdI F.SLEW_NS + 1) ∧ (s.putSlew left).rd F.WARP_STATUS_SLEW_ACTIVE = 1) ∧
  (∀ (t : Instant) (s : State), s.rdI F.SLEW_NS = slewNs s.warp.slewLeft → s.rd F.WARP_STATUS_SLEW_ACTIVE = b2n (s.warp.slewLeft != 0) →
    (s.advance t).rdI F.SLEW_NS = slewNs (s.advance t).warp.slewLeft ∧
    (s.advance t).rd F.WARP_STATUS_SLEW_ACTIVE = b2n ((s.advance t).warp.slewLeft != 0)) ∧
  (∀ (s : State), s.rd F.WARP_STATUS_COARSE = 0 → (0 ≤ s.warp.slewLeft → s.warpEdge.warp.slewLeft = max 0 (s.warp.slewLeft - 16 * s.slewShare)) ∧
    (s.warp.slewLeft < 0 → s.warpEdge.warp.slewLeft = min 0 (s.warp.slewLeft - 16 * s.slewShare))) ∧
  (∀ (t : Instant) (s : State), absorb (s.advance t).warp.slewLeft (s.advance t).slewShare 1 = 0 → Ends (.slewEnd t) s (fun u => u.warp.slewLeft = 0 ∧
    u.rd F.SLEW_NS = 0 ∧ u.rd F.WARP_STATUS_SLEW_ACTIVE = 0 ∧ u.rd F.RATE_ADJ = s.rd F.RATE_ADJ)) ∧
  (∀ (t : Instant) (s : State), absorb (s.advance t).warp.slewLeft (s.advance t).slewShare 1 ≠ 0 → Ends (.slewEnd t) s (fun u => u = s.advance t))

/-- In every state the effective rate lies within ±549,755,813, and is the sum of RATE_ADJ and the slew where that sum does.
After each write that changes the sum (RATE_ADJ, SLEW_NS, SLEW_CFG) RATE_CLAMPED reads 1 exactly while the clamp acts, and
it stays so as the Warp advances. -/
def Obligations.TheEffectiveRateIsClamped : Prop :=
  (∀ (s : State), -549755813 ≤ s.rate ∧ s.rate ≤ 549755813 ∧ (-549755813 ≤ s.rateSum → s.rateSum ≤ 549755813 → s.rate = s.rateSum)) ∧
  (∀ (t : Instant) (rate : Word) (s : State), s.rd F.HOST_STATUS_BOOTING = 0 → Ends (.rateAdjWrite t rate) s (fun u => u.rdI F.RATE_ADJ = rate.toInt ∧
    u.rate = clampInt (-549755813) 549755813 (rate.toInt + u.slewRate) ∧ u.rd F.WARP_STATUS_RATE_CLAMPED = b2n (rate.toInt + u.slewRate != u.rate))) ∧
  (∀ (t : Instant) (offset : Word) (s : State), s.rd F.HOST_STATUS_BOOTING = 0 →
    Ends (.slewNsWrite t offset) s (fun u => u.rd F.WARP_STATUS_RATE_CLAMPED = b2n (u.rateSum != u.rate))) ∧
  (∀ (t : Instant) (r : Requester) (value : Word) (s : State), s.rd F.HOST_STATUS_BOOTING = 0 → s.mayWrite r = true →
    Ends (.registerWrite t r 0x100018 value 15) s (fun u => u.rd F.SLEW_CFG = value.toNat % 2 ^ 9 ∧
    u.rd F.WARP_STATUS_RATE_CLAMPED = b2n (u.rateSum != u.rate))) ∧
  (∀ (t : Instant) (s : State), s.rd F.WARP_STATUS_RATE_CLAMPED = b2n (s.rateSum != s.rate) →
    (s.advance t).rd F.WARP_STATUS_RATE_CLAMPED = b2n ((s.advance t).rateSum != (s.advance t).rate))

/-- A write of STEP_CTRL with GO, at a moment when no ground of R38 holds, ends with RESULT 0, the Warp at
STEP_TO, the epoch as EPOCH_TAI was written, SYNC_OUT disarmed and STEP_DONE set; when a ground holds,
RESULT is the lowest code that holds, STEP_REFUSED is set, and neither the Warp nor the epoch changes. -/
def Obligations.WarpStepsOrRefuses : Prop :=
  (∀ (t : Instant) (value : Word) (s : State), s.rd F.HOST_STATUS_BOOTING = 0 → value.getLsbD 0 = true → (s.advance t).stepRefusal = 0 →
    Ends (.stepGo t value) s (fun u => u.rd F.STEP_CTRL_RESULT = 0 ∧ u.now = s.rdT F.STEP_TO ∧ u.rd F.WARP_STATUS_EPOCH = b2n (value.getLsbD 1) ∧
    u.rd F.SYNC_OUT_CFG_ARM = 0 ∧ u.rd F.WARP_EVENT_STEP_DONE = 1)) ∧
  (∀ (t : Instant) (value : Word) (s : State), s.rd F.HOST_STATUS_BOOTING = 0 → value.getLsbD 0 = true → (s.advance t).stepRefusal ≠ 0 →
    Ends (.stepGo t value) s (fun u => u.rd F.STEP_CTRL_RESULT = (s.advance t).stepRefusal ∧ u.now = (s.advance t).now ∧
    u.rd F.WARP_STATUS_EPOCH = s.rd F.WARP_STATUS_EPOCH ∧ u.rd F.WARP_EVENT_STEP_REFUSED = 1)) ∧
  (∀ s : State, (s.stepRefusal = 1 ↔ ∃ p ∈ List.range 16, s.rd F.CP_STATUS_STATE p = 1) ∧
    (s.stepRefusal = 2 ↔ (∀ p ∈ List.range 16, s.rd F.CP_STATUS_STATE p ≠ 1) ∧ ∃ p ∈ List.range 16, s.partRunning p = true) ∧
    (s.stepRefusal = 3 ↔ (∀ p ∈ List.range 16, s.rd F.CP_STATUS_STATE p ≠ 1) ∧ (∀ p ∈ List.range 16, s.partRunning p = false) ∧
    s.rd F.TD_STATUS_WARP_SYNC ≠ 0) ∧ (s.stepRefusal = 4 ↔ (∀ p ∈ List.range 16, s.rd F.CP_STATUS_STATE p ≠ 1) ∧
    (∀ p ∈ List.range 16, s.partRunning p = false) ∧ s.rd F.TD_STATUS_WARP_SYNC = 0 ∧ (s.rdT F.STEP_TO).getLsbD 63 ≠ s.now.getLsbD 63))

/-- A reference window publishes 25 × (400,000 − n) as FREQ_ERR, REF_OK as its bound of 2,000 says, and
beyond that bound the PLL is in holdover and unlocked; a lost REFCLK sets REF_LOST and starts holdover; its
return starts the relock interval; holdover ends once REFCLK has been good for RELOCK_MS.  A Warp-clock
window publishes WARP_ERR; in holdover one beyond 5,000, and any mismatch of the duplicated counters, is
recorded as a fault of class 12 and holds FAULT_N asserted.  A wrap of the count changes no register but
what the Warp's movement changes. -/
def Obligations.WarpMonitorsAndHoldover : Prop :=
  (∀ (t : Instant) (n : Word) (s : State), n.toNat < 2 ^ 26 →
    Ends (.refWindowEnd t n) s (fun u => u.rdI F.WARP_REF_MON_FREQ_ERR = toSigned 16 (ofSigned 16 (monitorErr n.toNat)) ∧
    u.rd F.WARP_STATUS_REF_OK = b2n (decide ((monitorErr n.toNat).natAbs ≤ 2000)) ∧ (2000 < (monitorErr n.toNat).natAbs →
    u.rd F.WARP_EVENT_REF_FREQ = 1 ∧ u.on F.WARP_STATUS_HOLDOVER = true ∧ u.warp.relockFrom = some u.now) ∧ ((monitorErr n.toNat).natAbs ≤ 2000 →
    u.rd F.WARP_STATUS_HOLDOVER = s.rd F.WARP_STATUS_HOLDOVER))) ∧
  (∀ (t : Instant) (m : Word) (s : State), (s.rd F.WARP_STATUS_HOLDOVER = 0 ∨ (monitorErr m.toNat).natAbs ≤ 5000) →
    Ends (.warpWindowEnd t m) s (fun u => u = (s.advance t).wrI F.WARP_REF_MON_WARP_ERR (monitorErr m.toNat))) ∧
  (∀ (t : Instant) (m : Word) (s : State), s.rd F.WARP_STATUS_HOLDOVER ≠ 0 → 5000 < (monitorErr m.toNat).natAbs →
    Ends (.warpWindowEnd t m) s (fun u => bitOf (u.rd F.SYS_FAULT) 12 = true ∧ u.rd F.SYS_FAULT_LAST = 12 ∧ bitOf (u.rd F.SYS_DEVFAULT) 2 = true ∧
    u.warp.faultN = true)) ∧
  (∀ (t : Instant) (s : State), Ends (.warpCounterMismatch t) s (fun u => bitOf (u.rd F.SYS_FAULT) 12 = true ∧ u.rd F.SYS_FAULT_LAST = 12 ∧
    bitOf (u.rd F.SYS_DEVFAULT) 1 = true ∧ u.warp.faultN = true)) ∧
  (∀ (t : Instant) (s : State), Ends (.refLost t) s (fun u => u.rd F.WARP_EVENT_REF_LOST = 1 ∧ u.rd F.WARP_STATUS_REF_OK = 0 ∧
    u.on F.WARP_STATUS_HOLDOVER = true ∧ u.warp.relockFrom = none)) ∧
  (∀ (t : Instant) (s : State), s.rd F.WARP_STATUS_HOLDOVER ≠ 0 → s.warp.relockFrom = none →
    Ends (.refclkReturn t) s (fun u => u.warp.relockFrom = some (s.advance t).now)) ∧
  (∀ (t : Instant) (s : State) (since : Instant), s.rd F.WARP_STATUS_HOLDOVER ≠ 0 → s.warp.relockFrom = some since →
    (s.rd F.HOLDOVER_CFG : Int) * 1000000 ≤ sinceNs (s.advance t).now since → Ends (.holdoverExit t) s (fun u => u.rd F.WARP_STATUS_HOLDOVER = 0 ∧
    u.rd F.WARP_STATUS_LOCKED = 1 ∧ u.rd F.WARP_EVENT_HOLDOVER_EXIT = 1 ∧ u.now = (s.advance t).now)) ∧
  (∀ (t : Instant) (s : State), Ends (.warpWrap t) s (fun u => u = s.advance t))

/-- PPS_OUT rises on the displaced grid of whole seconds and falls WIDTH_US later; SYNC_OUT rises once at
SYNC_OUT_AT, ARM then clears, and it falls WIDTH_NS later, and an ARM that comes too late emits no pulse and sets SYNC_LATE;
the active edge of PPS_IN, its rising one, or of SYNC_IN, the one POL names, is held until its level has lasted MIN_NS, and its
instant is then read from PPS_IN or SYNC_IN; the other edge ends the pulse. -/
def Obligations.WarpPinsAndStamps : Prop :=
  (∀ (t : Instant) (s : State), s.rd F.PPS_OUT_CFG_EN ≠ 0 → (s.advance t).now.toNat % 16 = 0 →
    ((nsOf (s.advance t).now : Int) - s.rdI F.PPS_OUT_OFFSET) % 1000000000 = 0 → Ends (.ppsOutRise t) s (fun u => u.warp.ppsOut = true ∧
    u.warp.ppsFall = addNs (s.advance t).now (1000 * s.rd F.PPS_OUT_CFG_WIDTH_US))) ∧
  (∀ (t : Instant) (s : State), s.warp.ppsOut = true → notLater s.warp.ppsFall (s.advance t).now = true →
    Ends (.ppsOutFall t) s (fun u => u.warp.ppsOut = false)) ∧
  (∀ (t : Instant) (rising : Bool) (s : State),
    Ends (.stampInputEdge t .pps rising) s (fun u => u.warp.ppsEdge = (if rising then some ((s.advance t).now, s.on F.WARP_STATUS_COARSE) else none) ∧
    u.warp.syncEdge = s.warp.syncEdge)) ∧
  (∀ (t : Instant) (rising : Bool) (s : State), (rising = true ↔ s.rd F.SYNC_IN_CFG_POL = 0) →
    Ends (.stampInputEdge t .sync rising) s (fun u => u.warp.syncEdge = some ((s.advance t).now, s.on F.WARP_STATUS_COARSE) ∧
    u.warp.ppsEdge = s.warp.ppsEdge)) ∧
  (∀ (t : Instant) (rising : Bool) (s : State), (rising = true ↔ s.rd F.SYNC_IN_CFG_POL ≠ 0) →
    Ends (.stampInputEdge t .sync rising) s (fun u => u.warp.syncEdge = none ∧ u.warp.ppsEdge = s.warp.ppsEdge)) ∧
  (∀ (t e : Instant) (coarse : Bool) (s : State), s.warp.ppsEdge = some (e, coarse) →
    (s.rd F.SYNC_IN_CFG_MIN_NS : Int) ≤ sinceNs (s.advance t).now e → Ends (.stampInputQualified t .pps) s (fun u => u.rdT F.PPS_IN = e ∧
    u.warp.ppsCoarse = coarse ∧ u.warp.ppsEdge = none)) ∧
  (∀ (t e : Instant) (coarse : Bool) (s : State), s.warp.syncEdge = some (e, coarse) →
    (s.rd F.SYNC_IN_CFG_MIN_NS : Int) ≤ sinceNs (s.advance t).now e → Ends (.stampInputQualified t .sync) s (fun u => u.rdT F.SYNC_IN = e ∧
    u.warp.syncCoarse = coarse ∧ u.warp.syncEdge = none)) ∧
  (∀ (t : Instant) (value : Word) (armFirst : Bool) (s : State), s.rd F.HOST_STATUS_BOOTING = 0 → value.getLsbD 0 = true →
    (earlier (s.advance t).now (s.rdT F.SYNC_OUT_AT) = true ∨ ((s.advance t).now = s.rdT F.SYNC_OUT_AT ∧ armFirst = true)) →
    Ends (.syncOutArm t value armFirst) s (fun u => u.rd F.SYNC_OUT_CFG_ARM = 1 ∧ u.rd F.SYNC_OUT_CFG_WIDTH_NS = value.toNat / 65536 ∧
    u.rd F.WARP_EVENT_SYNC_LATE = s.rd F.WARP_EVENT_SYNC_LATE)) ∧
  (∀ (t : Instant) (value : Word) (armFirst : Bool) (s : State), s.rd F.HOST_STATUS_BOOTING = 0 → value.getLsbD 0 = true →
    (earlier (s.rdT F.SYNC_OUT_AT) (s.advance t).now = true ∨ ((s.advance t).now = s.rdT F.SYNC_OUT_AT ∧ armFirst = false)) →
    Ends (.syncOutArm t value armFirst) s (fun u => u.rd F.SYNC_OUT_CFG_ARM = 0 ∧ u.rd F.WARP_EVENT_SYNC_LATE = 1 ∧
    u.warp.syncOut = s.warp.syncOut)) ∧
  (∀ (t : Instant) (s : State), s.rd F.SYNC_OUT_CFG_ARM ≠ 0 → (s.advance t).now = s.rdT F.SYNC_OUT_AT →
    Ends (.syncOutPulse t) s (fun u => u.warp.syncOut = true ∧ u.rd F.SYNC_OUT_CFG_ARM = 0 ∧
    u.warp.syncFall = addNs u.now (s.rd F.SYNC_OUT_CFG_WIDTH_NS))) ∧
  (∀ (t : Instant) (s : State), s.warp.syncOut = true → notLater s.warp.syncFall (s.advance t).now = true →
    Ends (.syncOutFall t) s (fun u => u.warp.syncOut = false))

/-- At the end of a slack window with results SLACK_MIN and SLACK_SRC publish its lowest slack, within the width of SLACK_MIN, and
the source of it; one without leaves VALID 0 and VDD_CORE as it was.  In AUTO mode a slack below TARGET_NS then raises VDD_CORE
by UP_MV, up to VMAX_MV, one above TARGET_NS + HYST_NS lowers it by DOWN_MV, down to VMIN_MV, and one between changes nothing; in
the other modes no window moves it.  The first two times that a transaction is not acknowledged it is retried, and the third time
sets AVS_FAULT and FAULT and enters HOLD.  A write of MODE AUTO or FIXED clears FAULT, and FIXED commands FIXED_MV within the
limits; a write of HOLD leaves FAULT and the voltage. -/
def Obligations.CoreVoltageController : Prop :=
  (∀ (t : Instant) (s : State), (s.advance t).slackDue = true → s.warp.slackLow = none →
    Ends (.slackWindowEnd t) s (fun u => u.rd F.SLACK_SRC_VALID = 0 ∧ u.rd F.AVS_STATUS_CMD_MV = s.rd F.AVS_STATUS_CMD_MV ∧
    u.warp.slackUs = clampNat 100 10000 (s.rd F.SLACK_WINDOW))) ∧
  (∀ (t : Instant) (s : State) (v : Int) (k id : Nat), (s.advance t).slackDue = true → s.warp.slackLow = some (v, k, id) →
    Ends (.slackWindowEnd t) s (fun u => u.rd F.SLACK_SRC_VALID = 1 ∧ u.rdI F.SLACK_MIN = toSigned F.SLACK_MIN.width (ofSigned F.SLACK_MIN.width v) ∧
    u.rd F.SLACK_SRC_KIND = k % 2 ^ F.SLACK_SRC_KIND.width ∧ u.rd F.SLACK_SRC_ID = id % 2 ^ F.SLACK_SRC_ID.width ∧ u.warp.slackLow = none ∧
    u.warp.slackUs = clampNat 100 10000 (s.rd F.SLACK_WINDOW))) ∧
  (∀ (t : Instant) (s : State) (v : Int) (k id : Nat), (s.advance t).slackDue = true → s.warp.slackLow = some (v, k, id) → s.rd F.AVS_CTRL_MODE = 0 →
    v < s.rd F.SLACK_TARGET_TARGET_NS →
    Ends (.slackWindowEnd t) s (fun u => u.rd F.AVS_STATUS_CMD_MV = min (s.rd F.AVS_STATUS_CMD_MV + s.rd F.AVS_CTRL_UP_MV) s.vmax)) ∧
  (∀ (t : Instant) (s : State) (v : Int) (k id : Nat), (s.advance t).slackDue = true → s.warp.slackLow = some (v, k, id) → s.rd F.AVS_CTRL_MODE = 0 →
    (s.rd F.SLACK_TARGET_TARGET_NS : Int) + s.rd F.SLACK_TARGET_HYST_NS < v →
    Ends (.slackWindowEnd t) s (fun u => u.rd F.AVS_STATUS_CMD_MV = max (s.rd F.AVS_STATUS_CMD_MV - s.rd F.AVS_CTRL_DOWN_MV) s.vmin)) ∧
  (∀ (t : Instant) (s : State) (v : Int) (k id : Nat), (s.advance t).slackDue = true → s.warp.slackLow = some (v, k, id) → s.rd F.AVS_CTRL_MODE ≠ 0 ∨
    ((s.rd F.SLACK_TARGET_TARGET_NS : Int) ≤ v ∧ v ≤ (s.rd F.SLACK_TARGET_TARGET_NS : Int) + s.rd F.SLACK_TARGET_HYST_NS) →
    Ends (.slackWindowEnd t) s (fun u => u.rd F.AVS_STATUS_CMD_MV = s.rd F.AVS_STATUS_CMD_MV)) ∧
  (∀ (t : Instant) (s : State), 100000 < sinceNs (s.advance t).now s.warp.avsAt →
    Ends (.avsTimeout t) s (fun u => u.rd F.AVS_CTRL_MODE = s.rd F.AVS_CTRL_MODE ∧ u.rd F.AVS_STATUS_FAULT = s.rd F.AVS_STATUS_FAULT ∧
    u.warp.avsTries = 1 ∧ u.warp.avsAt = (s.advance t).now)) ∧
  (∀ (t : Instant) (s : State), s.warp.avsTries = 1 → sinceNs (s.advance t).now s.warp.avsAt ≤ 100000 →
    Ends (.avsTimeout t) s (fun u => u.rd F.AVS_CTRL_MODE = s.rd F.AVS_CTRL_MODE ∧ u.rd F.AVS_STATUS_FAULT = s.rd F.AVS_STATUS_FAULT ∧
    u.warp.avsTries = 2)) ∧
  (∀ (t : Instant) (s : State), s.warp.avsTries = 2 → sinceNs (s.advance t).now s.warp.avsAt ≤ 100000 →
    Ends (.avsTimeout t) s (fun u => u.rd F.AVS_CTRL_MODE = 2 ∧ u.rd F.AVS_STATUS_FAULT = 1 ∧ u.rd F.WARP_EVENT_AVS_FAULT = 1 ∧
    u.rd F.AVS_STATUS_CMD_MV = s.rd F.AVS_STATUS_CMD_MV)) ∧
  (∀ (t : Instant) (value : Word) (s : State), s.rd F.HOST_STATUS_BOOTING = 0 → value.toNat % 4 < 2 →
    Ends (.avsModeWrite t value) s (fun u => u.rd F.AVS_CTRL_MODE = value.toNat % 4 ∧ u.rd F.AVS_STATUS_FAULT = 0 ∧
    u.rd F.AVS_STATUS_CMD_MV = (if value.toNat % 4 = 1 then clampNat s.vmin s.vmax (s.rd F.AVS_SET_FIXED_MV) else s.rd F.AVS_STATUS_CMD_MV))) ∧
  (∀ (t : Instant) (value : Word) (s : State), s.rd F.HOST_STATUS_BOOTING = 0 → 2 ≤ value.toNat % 4 →
    Ends (.avsModeWrite t value) s (fun u => u.rd F.AVS_CTRL_MODE = value.toNat % 4 ∧ u.rd F.AVS_STATUS_FAULT = s.rd F.AVS_STATUS_FAULT ∧
    u.rd F.AVS_STATUS_CMD_MV = s.rd F.AVS_STATUS_CMD_MV))

/-! ### Loop cells (03, 04) -/

/-- A write of LC_CTRL with ENABLE, on a cell of the Beam that is disabled and whose configuration has no error, enables it,
clears CFG_ERR and, but for a FAULTED cell, which stays FAULTED, begins supervision where SUP_EN is 1; with an error the
enable is refused with the lowest code that applies; on an enabled cell it restarts nothing.  A write with ENABLE 0 stops the
cell and discards its evaluation, and its destination keeps its value. -/
def Obligations.LoopCellsEnableAndDisable : Prop :=
  (∀ (t : Instant) (n : Fin 1024) (value : Word) (s : State), s.admits (lcOff n 0) = true → s.rwlOpen (s.ownerLC n) = true →
    s.placed (loopKey n) = true → s.rd F.LC_CTRL_ENABLE n = 0 → ((s.advance t).lcCtrlFields n value.toNat true).cfgErr n = 0 →
    Ends (.lcEnable t n value) s (fun u => u.rd F.LC_CTRL_ENABLE n = 1 ∧ u.rd F.LC_STATUS_CFG_ERR n = 0 ∧ (s.rd F.LC_SUP_STATUS_SUP_STATE n ≠ 3 →
    u.rd F.LC_SUP_STATUS_SUP_STATE n = b2n (s.on F.LC_SUP_CFG_SUP_EN n)) ∧ (s.rd F.LC_SUP_STATUS_SUP_STATE n = 3 →
    u.rd F.LC_SUP_STATUS_SUP_STATE n = 3))) ∧
  (∀ (t : Instant) (n : Fin 1024) (value : Word) (s : State), s.admits (lcOff n 0) = true → s.rwlOpen (s.ownerLC n) = true →
    s.placed (loopKey n) = true → s.rd F.LC_CTRL_ENABLE n = 0 → ((s.advance t).lcCtrlFields n value.toNat true).cfgErr n ≠ 0 →
    Ends (.lcEnable t n value) s (fun u => u.rd F.LC_CTRL_ENABLE n = 0 ∧
    u.rd F.LC_STATUS_CFG_ERR n = ((s.advance t).lcCtrlFields n value.toNat true).cfgErr n ∧ u.rd F.LC_EVENT_ENABLE_REFUSED n = 1)) ∧
  (∀ (t : Instant) (n : Fin 1024) (value : Word) (s : State), s.admits (lcOff n 0) = true → s.rd F.LC_CTRL_ENABLE n ≠ 0 →
    Ends (.lcEnable t n value) s (fun u => u.rd F.LC_CTRL_ENABLE n = s.rd F.LC_CTRL_ENABLE n ∧
    u.rd F.LC_SUP_STATUS_SUP_STATE n = s.rd F.LC_SUP_STATUS_SUP_STATE n ∧ u.cells = s.cells)) ∧
  (∀ (t : Instant) (n : Fin 1024) (value : Word) (s : State), s.admits (lcOff n 0) = true → s.rwlOpen (s.ownerLC n) = true →
    Ends (.lcDisable t n value) s (fun u => u.rd F.LC_CTRL_ENABLE n = 0 ∧ u.rd F.LC_STATUS_RUNNING n = 0 ∧ (u.cell n).eval = none ∧
    (u.cell n).latched = none ∧ u.rd F.LC_U n = s.rd F.LC_U n ∧ u.fio = s.fio ∧ u.aout = s.aout))

/-- While no Treadle holds the shadow bank: a write of the bank window changes that word of the shadow bank alone;
COPY makes the shadow equal to the active bank; a SWAP of a disabled cell with a valid shadow exchanges the
banks and sets SWAP_DONE, of an enabled one waits for the strobe, and with an invalid shadow is refused.  A write
of C_STATE sets CS, clamped to the active bank. -/
def Obligations.LoopBanks : Prop :=
  (∀ (t : Instant) (n : Fin 1024) (k : Fin 24) (value : Word) (s : State), s.admits (lcOff n (0xA0 + 4 * k)) = true →
    s.treadleBusy (s.ownerLC n) = false → Ends (.bankWindowWrite t n k value) s (fun u => u.shadow n = (s.shadow n).put k value.toNat ∧
    u.active n = s.active n ∧ u.rd F.LC_STATUS_SHADOW_VALID n = b2n ((s.shadow n).put k value.toNat).valid)) ∧
  (∀ (t : Instant) (n : Fin 1024) (s : State), s.admits (lcOff n 0) = true → s.treadleBusy (s.ownerLC n) = false →
    Ends (.copy t n) s (fun u => u.shadow n = s.active n ∧ u.active n = s.active n)) ∧
  (∀ (t : Instant) (n : Fin 1024) (s : State), s.admits (lcOff n 0) = true → s.treadleBusy (s.ownerLC n) = false → s.rd F.LC_CTRL_ENABLE n = 0 →
    s.rd F.LC_STATUS_SHADOW_VALID n ≠ 0 → s.rd F.LC_STATUS_ACTIVE_BANK n < 2 →
    Ends (.swap t n) s (fun u => u.rd F.LC_STATUS_ACTIVE_BANK n = 1 - s.rd F.LC_STATUS_ACTIVE_BANK n ∧ u.active n = s.shadow n ∧
    u.shadow n = s.active n ∧ u.rd F.LC_EVENT_SWAP_DONE n = 1 ∧ u.cs n = (s.shadow n).clampCs (s.cs n))) ∧
  (∀ (t : Instant) (n : Fin 1024) (s : State), s.admits (lcOff n 0) = true → s.treadleBusy (s.ownerLC n) = false → s.rd F.LC_CTRL_ENABLE n ≠ 0 →
    s.rd F.LC_STATUS_SHADOW_VALID n ≠ 0 → Ends (.swap t n) s (fun u => (u.cell n).swapAsked = true ∧
    u.rd F.LC_STATUS_ACTIVE_BANK n = s.rd F.LC_STATUS_ACTIVE_BANK n)) ∧
  (∀ (t : Instant) (n : Fin 1024) (s : State), s.admits (lcOff n 0) = true → s.treadleBusy (s.ownerLC n) = false →
    s.rd F.LC_STATUS_SHADOW_VALID n = 0 → Ends (.swap t n) s (fun u => u.rd F.LC_EVENT_SWAP_REFUSED n = 1 ∧
    u.rd F.LC_STATUS_ACTIVE_BANK n = s.rd F.LC_STATUS_ACTIVE_BANK n ∧ u.active n = s.active n)) ∧
  (∀ (t : Instant) (n : Fin 1024) (value : BitVec 48) (s : State), s.admits (lcOff n 0x50) = true → s.rwlOpen (s.ownerLC n) = true →
    Ends (.cStateWrite t n value) s (fun u => u.cs n = (s.active n).clampCs value.toInt))

/-- A strobe of a running cell starts an evaluation, at once or when its conversion ends; a result that becomes ready is kept
until the release instant of its evaluation; one that is ready there is released: in a cell that is not in event mode U and Y
take its values and the run of lates ends; one that is not ready is late: it is discarded whole and counted, and U and C_STATE
keep their values.  The end of a late evaluation enters the slack window with a negative slack.  A read of SP answers SP and
latches the nine values together. -/
def Obligations.LoopEvaluationsAreReleasedAtTheirInstant : Prop :=
  (∀ (t : Instant) (n : Fin 1024) (s : State), (s.advance t).strobesNow n = true →
    Ends (.loopStrobe t n) s (fun u => (u.cell n).lastStrobe = some (s.advance t).now ∧
    ((u.cell n).eval.any (fun e => e.at_ == u.now && e.due == addNs u.now (s.rd F.LC_LATENCY n) && e.ready == none) || (u.cell n).latched.any (fun l => l.law.at_ == u.now && l.due == addNs u.now (s.rd F.LC_LATENCY n))) = true)) ∧
  (∀ (t : Instant) (n : Fin 1024) (s : State) (ev : Eval), (s.cell n).lates = [] → (s.cell n).eval = some ev →
    Ends (.loopResultReady t n false false) s (fun u => (u.cell n).eval = some { ev with ready := some (ev.ready.getD (s.advance t).now) } ∧
    u.regs = (s.advance t).regs)) ∧
  (∀ (t : Instant) (n : Fin 1024) (arith parity : Bool) (s : State) (r : Instant) (rest : List Instant), (s.cell n).lates = r :: rest →
    Ends (.loopResultReady t n arith parity) s (fun u => (u.cell n).lates = rest ∧ (u.cell n).eval = (s.cell n).eval ∧
    u.warp.slackLow.any (fun l => decide (l.1 ≤ min (-1) (sinceNs r (s.advance t).now))) = true)) ∧
  (∀ (t : Instant) (n : Fin 1024) (s : State) (ev : Eval) (first : Bool), ev.due = (s.advance t).now → (s.cell n).eval = some ev →
    (s.advance t).inTime ev.ready first = true → (s.cell n).faultDue = false → (s.cell n).parityDue = false → ev.causes = 0 → ev.event = false →
    Ends (.loopRelease t n first) s (fun u => u.rd F.LC_U n = ofSigned 32 ev.u ∧ u.rd F.LC_Y n = ofSigned 32 ev.y ∧
    u.rd F.LC_SUP_STATUS_LATE_RUN n = 0 ∧ u.rd F.LC_STATUS_RUNNING n = 1 ∧ (u.cell n).eval = none)) ∧
  (∀ (t : Instant) (n : Fin 1024) (s : State) (ev : Eval) (first : Bool), ev.due = (s.advance t).now → (s.cell n).eval = some ev →
    (s.advance t).inTime ev.ready first = false → (s.cell n).faultDue = false → (s.cell n).parityDue = false →
    s.rd F.LC_SUP_STATUS_LATE_RUN n + 1 < min 15 (s.lateLimit n) → Ends (.loopRelease t n first) s (fun u => u.rd F.LC_SUP_EVENT_LATE n = 1 ∧
    u.rd F.LC_SUP_STATUS_LATE_RUN n = s.rd F.LC_SUP_STATUS_LATE_RUN n + 1 ∧
    u.rd F.LC_DIAG_CNT_LATE_CNT n = min (s.rd F.LC_DIAG_CNT_LATE_CNT n + 1) (2 ^ F.LC_DIAG_CNT_LATE_CNT.width - 1) ∧ u.rd F.LC_U n = s.rd F.LC_U n ∧
    u.rd F.LC_C_STATE n = s.rd F.LC_C_STATE n ∧ (u.cell n).eval = none)) ∧
  (∀ (t : Instant) (n : Fin 1024) (s : State), Ends (.lcSnapshotRead t n) s (fun u => u.answer.data = leBytes 4 (s.rd F.LC_SP n) ∧
    (u.cell n).snapshot = [s.rd F.LC_SP n, s.rd F.LC_SP_DOT n, s.rd F.LC_Y n, s.rd F.LC_E n, s.rd F.LC_C n, s.rd F.LC_W n, s.rd F.LC_U n, s.rd F.LC_YM n, s.rd F.LC_RESID n] ∧
    u.regs = (s.advance t).regs))

/-- A comparator that trips while the cell may move changes its level by one, up or down, at once; while a hold
lasts it stays tripped, and the end of the hold makes the move, the rising one first; its release clears the trip.  A PWM edge
shows on a pin that no OUTPUT record drives to a level of its own the level that its course gives for the instant. -/
def Obligations.LoopEventMode : Prop :=
  (∀ (t : Instant) (ain : Fin 96) (rise : Bool) (s : State) (n : Nat), s.eventCell ain = some n → (s.advance t).mayMove n rise = true →
    Ends (.comparatorTrip t ain rise) s (fun u => (u.cell n).j = (if rise then (s.cell n).j + 1 else (s.cell n).j - 1) ∧
    u.rd F.LC_STATUS_LEVEL n = (u.cell n).j % 2 ^ F.LC_STATUS_LEVEL.width ∧ (u.cell n).lastMove = some ((s.advance t).now, rise))) ∧
  (∀ (t : Instant) (ain : Fin 96) (rise : Bool) (s : State) (n : Nat), s.eventCell ain = some n → (s.advance t).mayMove n rise = false →
    Ends (.comparatorTrip t ain rise) s (fun u => (if rise then (u.cell n).tripRise else (u.cell n).tripFall) = true ∧ (u.cell n).j = (s.cell n).j ∧
    u.rd F.LC_U n = s.rd F.LC_U n)) ∧
  (∀ (t : Instant) (ain : Fin 96) (rise : Bool) (s : State) (n : Nat), s.eventCell ain = some n →
    Ends (.comparatorRelease t ain rise) s (fun u => (if rise then (u.cell n).tripRise else (u.cell n).tripFall) = false ∧
    u.regs = (s.advance t).regs)) ∧
  (∀ (t : Instant) (n : Fin 1024) (s : State), (s.cell n).tripRise = true → (s.advance t).mayMove n true = true →
    Ends (.eventHoldEnd t n) s (fun u => (u.cell n).j = (s.cell n).j + 1 ∧ (u.cell n).lastMove = some ((s.advance t).now, true))) ∧
  (∀ (t : Instant) (n : Fin 1024) (s : State), (s.cell n).tripFall = true → (s.advance t).mayMove n true = false →
    (s.advance t).mayMove n false = true → Ends (.eventHoldEnd t n) s (fun u => (u.cell n).j = (s.cell n).j - 1 ∧
    (u.cell n).lastMove = some ((s.advance t).now, false))) ∧
  (∀ (t : Instant) (pin : Fin 192) (s : State) (r : PwmRun), (s.pin pin).pwm = some r → (s.pin pin).nextPwm = none →
    (∀ e ∈ s.recsOf 4 1, s.cfg e.1 0 4 % 256 = pin → s.cfg e.1 8 1 = 3 ∨ s.cfg e.1 8 1 = 4) →
    Ends (.pwmEdge t pin) s (fun u => (u.pin pin).out = (if sinceNs (s.advance t).now r.start % (r.period : Int) < r.high then r.first else r.rest))) ∧
  (∀ (t : Instant) (pin : Fin 192) (s : State) (r : PwmRun), (s.pin pin).nextPwm = some r → notLater r.start (s.advance t).now = true →
    (∀ e ∈ s.recsOf 4 1, s.cfg e.1 0 4 % 256 = pin → s.cfg e.1 8 1 = 3 ∨ s.cfg e.1 8 1 = 4) →
    Ends (.pwmEdge t pin) s (fun u => (u.pin pin).out = (if sinceNs (s.advance t).now r.start % (r.period : Int) < r.high then r.first else r.rest) ∧
    (u.pin pin).pwm = some r))

/-- The conversion of the input that is next in its group ends with its input's calibrated result, clamped to 16 bits, ready now;
no other input's conversion ends.  With nothing queued a rotation slot, ROT_MS after the last, takes the next group; a pair short
of eight is counted with its comparison against XCHK_LSB, and the eighth, where all agree, gives the group to the spare; a
calibration inside its limits makes the converter the spare with its new coefficients, outside them it retires it and no spare
remains; a request for a converter in service is queued and shows its place. -/
def Obligations.ConvertersAndTheirRotation : Prop :=
  (∀ (t : Instant) (ain : Fin 96) (raw spareRaw : BitVec 16) (s : State), s.nextHeld (ain.val / 4) = some ain.val → (s.ainOf ain).readers = [] →
    Ends (.conversionDone t ain raw spareRaw) s (fun u => (u.ainOf ain).held = none ∧ (u.ainOf ain).ready = (s.advance t).now ∧
    (u.ainOf ain).q = (clampInt 0 65535 (rshr ((raw.toNat : Int) * (s.converter (s.serving (ain.val / 4))).gain) 14 + (s.converter (s.serving (ain.val / 4))).offs)).toNat)) ∧
  (∀ (t : Instant) (ain : Fin 96) (raw spareRaw : BitVec 16) (s : State), s.nextHeld (ain.val / 4) ≠ some ain.val →
    Ends (.conversionDone t ain raw spareRaw) s (fun u => u = s.advance t)) ∧
  (∀ (t : Instant) (s : State), s.rot.slotAt.all (fun b => decide ((s.rotNs : Int) ≤ sinceNs (s.advance t).now b)) = true →
    s.rd F.ANA_ROT_CFG_ROT_EN ≠ 0 → s.rd F.ANA_ROT_STATUS_SPARE_BAD = 0 → s.rot.slot = none → s.rot.calibrating = none → s.rot.queue = [] →
    Ends (.rotationSlot t) s (fun u => u.rot.slot = some (s.rd F.ANA_ROT_STATUS_NEXT_GROUP, 0, true) ∧ u.regs = (s.advance t).regs)) ∧
  (∀ (t : Instant) (raw spareRaw : BitVec 16) (s : State) (g k : Nat) (ok : Bool), s.rot.slot = some (g, k, ok) →
    (s.advance t).mayFreeze (4 * g + s.rot.own % 4) = true → k + 1 < 8 →
    Ends (.rotationConversion t raw spareRaw) s (fun u => u.rot.slot = some (g, k + 1, ok && decide (((calibrate (s.converter (s.serving g)) raw.toNat : Int) - calibrate (s.converter (s.rd F.ANA_ROT_STATUS_SPARE)) spareRaw.toNat).natAbs ≤ s.rd F.ANA_ROT_CFG_XCHK_LSB)))) ∧
  (∀ (t : Instant) (raw spareRaw : BitVec 16) (s : State) (g : Nat), g < 24 → s.rot.slot = some (g, 7, true) →
    (s.advance t).mayFreeze (4 * g + s.rot.own % 4) = true →
    ((calibrate (s.converter (s.serving g)) raw.toNat : Int) - calibrate (s.converter (s.rd F.ANA_ROT_STATUS_SPARE)) spareRaw.toNat).natAbs ≤ s.rd F.ANA_ROT_CFG_XCHK_LSB →
    Ends (.rotationConversion t raw spareRaw) s (fun u => u.serving g = s.rd F.ANA_ROT_STATUS_SPARE ∧ u.rot.calibrating = some (s.serving g) ∧
    u.rot.slot = none)) ∧
  (∀ (t : Instant) (gain offs : BitVec 16) (s : State) (v : Nat), s.rot.calibrating = some v → v < 25 → 14746 ≤ gain.toNat → gain.toNat ≤ 18022 →
    offs.toInt.natAbs ≤ 512 → Ends (.calibrationDone t gain offs) s (fun u => u.rd F.ANA_ROT_STATUS_SPARE = v ∧
    u.converter v = ⟨gain.toNat, offs.toInt, false⟩ ∧ u.rot.calibrating = none)) ∧
  (∀ (t : Instant) (gain offs : BitVec 16) (s : State) (v : Nat), s.rot.calibrating = some v → (gain.toNat < 14746 ∨ 18022 < gain.toNat ∨
    512 < offs.toInt.natAbs) → Ends (.calibrationDone t gain offs) s (fun u => (u.converter v).retired = true ∧ u.rd F.ANA_EVENT_CAL_FAIL = 1 ∧
    u.rd F.ANA_ROT_STATUS_SPARE_BAD = 1 ∧ u.rot.calibrating = none)) ∧
  (∀ (t : Instant) (conv : Fin 25) (s : State), s.admits 0x240008 = true → s.rd F.ANA_ROT_STATUS_SPARE ≠ conv → s.rot.calibrating ≠ some conv.val →
    s.rot.queue.contains conv.val = false → s.rot.queue.length < 25 → Ends (.calRequest t conv) s (fun u => u.rot.queue = s.rot.queue ++ [conv.val] ∧
    u.rd F.ANA_CAL_REQ_CONV = conv ∧ u.rd F.ANA_CAL_REQ_STATE = 1 ∧ u.rd F.ANA_CAL_REQ_POS = s.rot.queue.length))

/-- The stall watchdog of an enabled cell declares a loop fault with cause STALL, and SAFE_U is due at the next
release; FAULT_CLEAR, with the partition in STOP, ends FAULTED and restarts an enabled cell (that LATE_RUN becomes 0 and a
SAFE_U still due is withdrawn is the model's choice, log 78), and is refused otherwise; PLAUS_CLEAR ends a substitution once
OK_RUN is at least NR, and is refused before and once an evaluation that ends it is in flight; a self-test is queued, runs when
it may, shows its result and changes no bank, CS, odometer or SAFE_U, and can be withdrawn while it is queued. -/
def Obligations.LoopFaultsSubstitutionAndSelfTest : Prop :=
  (∀ (t : Instant) (n : Fin 1024) (s : State), s.rd F.LC_CTRL_ENABLE n ≠ 0 → s.rd F.LC_SUP_STATUS_SUP_STATE n ≠ 3 →
    Ends (.loopStall t n) s (fun u => u.rd F.LC_SUP_STATUS_SUP_STATE n = 3 ∧ bitOf (u.rd F.LC_SUP_STATUS_FAULT_CAUSE n) 2 = true ∧
    u.rd F.LC_SUP_EVENT_LOOP_FAULT n = 1 ∧ (u.cell n).faultDue = true)) ∧
  (∀ (t : Instant) (n : Fin 1024) (s : State), s.admits (lcOff n 0x9C) = true → s.rwlOpen (s.ownerLC n) = true →
    s.rd F.LC_SUP_STATUS_SUP_STATE n = 3 → Ends (.faultClear t n) s (fun u => u.rd F.LC_SUP_STATUS_FAULT_CAUSE n = 0 ∧
    u.rd F.LC_SUP_STATUS_LATE_RUN n = 0 ∧
    u.rd F.LC_SUP_STATUS_SUP_STATE n = (if s.on F.LC_CTRL_ENABLE n then b2n (s.on F.LC_SUP_CFG_SUP_EN n) else 0) ∧ (u.cell n).faultDue = false)) ∧
  (∀ (t : Instant) (n : Fin 1024) (s : State), s.admits (lcOff n 0x9C) = true → s.rwlOpen (s.ownerLC n) = false →
    Ends (.faultClear t n) s (fun u => u.rd F.LC_SUP_EVENT_CLEAR_REFUSED n = 1 ∧ u.rd F.LC_SUP_STATUS_SUP_STATE n = s.rd F.LC_SUP_STATUS_SUP_STATE n ∧
    u.rd F.LC_SUP_STATUS_FAULT_CAUSE n = s.rd F.LC_SUP_STATUS_FAULT_CAUSE n)) ∧
  (∀ (t : Instant) (n : Fin 1024) (s : State), s.admits (lcOff n 0x9C) = true → s.rd F.LC_SUP_STATUS_SUP_STATE n = 2 → s.subEnding n = false →
    s.nr n ≤ s.rd F.LC_SUP_STATUS_OK_RUN n → Ends (.plausClear t n) s (fun u => u.rd F.LC_SUP_STATUS_SUP_STATE n = 0 ∧
    u.rd F.LC_SUP_EVENT_SUB_ENDED n = 1)) ∧
  (∀ (t : Instant) (n : Fin 1024) (s : State), s.admits (lcOff n 0x9C) = true → (s.rd F.LC_SUP_STATUS_SUP_STATE n = 3 ∨ s.subEnding n = true ∨
    s.rd F.LC_SUP_STATUS_OK_RUN n < s.nr n) → Ends (.plausClear t n) s (fun u => u.rd F.LC_SUP_EVENT_CLEAR_REFUSED n = 1 ∧
    u.rd F.LC_SUP_STATUS_SUP_STATE n = s.rd F.LC_SUP_STATUS_SUP_STATE n)) ∧
  (∀ (t : Instant) (n : Fin 1024) (s : State), s.admits (lcOff n 0x9C) = true → s.rd F.LC_DIAG_ST_STATE n ≠ 2 →
    Ends (.stGo t n) s (fun u => u.rd F.LC_DIAG_ST_STATE n = 1)) ∧
  (∀ (t : Instant) (n : Fin 1024) (s : State), s.rd F.LC_DIAG_ST_STATE n = 1 → s.selfTestOk n = true →
    Ends (.selfTestBegin t n) s (fun u => u.rd F.LC_DIAG_ST_STATE n = 2)) ∧
  (∀ (t : Instant) (n : Fin 1024) (fail : Fin 5) (s : State), s.rd F.LC_DIAG_ST_STATE n = 2 →
    Ends (.selfTestDone t n fail) s (fun u => u.rd F.LC_DIAG_ST_STATE n = 3 ∧ u.rd F.LC_DIAG_ST_FAIL n = fail ∧ u.rd F.LC_SUP_EVENT_ST_DONE n = 1 ∧
    u.rd F.LC_C_STATE n = s.rd F.LC_C_STATE n ∧ u.rd F.LC_ODO n = s.rd F.LC_ODO n ∧ u.rd F.LC_SAFE_U n = s.rd F.LC_SAFE_U n ∧ u.cells = s.cells)) ∧
  (∀ (t : Instant) (n : Fin 1024) (s : State), s.admits (lcOff n 0x9C) = true → s.rd F.LC_DIAG_ST_STATE n = 1 →
    Ends (.stCancel t n) s (fun u => u.rd F.LC_DIAG_ST_STATE n = 0))

/-! ### Treadles and profile generators (05) -/

/-- LOAD_TABLE executed with an image for which no check of Table 5.8 fails makes it the Treadle's table, with its
version, timing and counts; with a failing check RESULT is the first one and the table stays as it was. -/
def Obligations.TreadleTablesLoadOrAreRefused : Prop :=
  (∀ (t : Instant) (p : Fin 16) (img : StepTable) (s : State), s.mayExecute 1 p anyArgs = true → s.tableResult p img = 0 →
    Ends (.loadTable t p img true) s (fun u => (u.treadle p).table = some img ∧ u.rd F.TR_LOAD_RESULT p = 0 ∧ u.rd F.TR_STATUS_TABLE_OK p = 1 ∧
    u.rd F.TR_EVENT_LOAD_DONE p = 1 ∧ u.rd F.TR_TIMING_TICK_NS p = img.tickNs % 2 ^ F.TR_TIMING_TICK_NS.width ∧
    u.rd F.TR_TABLE_ID p = img.version % 2 ^ 32 ∧ u.rd F.TR_LOAD_STEP_COUNT p = img.stepCount % 2 ^ F.TR_LOAD_STEP_COUNT.width)) ∧
  (∀ (t : Instant) (p : Fin 16) (img : StepTable) (s : State), s.mayExecute 1 p anyArgs = true → s.tableResult p img ≠ 0 →
    Ends (.loadTable t p img true) s (fun u => u.rd F.TR_LOAD_RESULT p = s.tableResult p img ∧ (u.treadle p).table = (s.treadle p).table ∧
    u.rd F.TR_STATUS_TABLE_OK p = s.rd F.TR_STATUS_TABLE_OK p ∧ u.rd F.TR_TABLE_ID p = s.rd F.TR_TABLE_ID p))

/-- A write of TR_CTRL with one command bit and the state it expects: START in IDLE, with TABLE_OK, no FAULT, the program in
RUN, its output frames present, a start instant to come and a step of the table, stages that step and schedules its commit at
TR_START_AT, or where that is 0 at the first tick from BRANCH_NS after now; without one of these it is refused.  PAUSE sets cause
HOST, and a running Treadle that has decided nothing is then PAUSED; one that has decided goes on to its commit.  RESUME clears
HOST, MASK and STEP, and the Treadle runs again when no cause is left.  ABORT makes it ABORTING with the stop step staged and its
commit scheduled; in ABORTING it sets ABORT_IGNORED.  CLEAR_FAULT clears FAULT in IDLE.  Each of the five with another state
expected sets STATE_MISMATCH, and with a second command bit CMD_REFUSED, and nothing of any Treadle changes. -/
def Obligations.TreadleCommandsActOrAreRefused : Prop :=
  (∀ (t : Instant) (p : Fin 16) (value : Word) (s : State), s.admits (0x300000 + 0x100 * p.val) = true → value.toNat % 32 = 1 →
    value.toNat / 2 ^ 8 % 4 = 0 → s.rd F.TR_STATUS_STATE p = 0 → s.rd F.TR_STATUS_TABLE_OK p ≠ 0 → s.rd F.TR_STATUS_FAULT p = 0 →
    s.rd F.CP_STATUS_STATE p = 1 → s.rd F.LP_STATUS_FRAME_LOST p = 0 → (s.rdT F.TR_START_AT p = 0 ∨
    earlier (s.advance t).now (s.rdT F.TR_START_AT p) = true) → (s.treadle p).table ≠ none →
    (if value.toNat / 2 ^ 16 = 0xFFFF then s.rd F.TR_ENTRY_ENTRY_STEP p else value.toNat / 2 ^ 16) < s.rd F.TR_LOAD_STEP_COUNT p →
    Ends (.trStart t p value) s (fun u => u.rd F.TR_STATUS_STATE p = 1 ∧
    (u.treadle p).staging.map (·.step) = some (if value.toNat / 2 ^ 16 = 0xFFFF then s.rd F.TR_ENTRY_ENTRY_STEP p else value.toNat / 2 ^ 16) ∧
    (u.treadle p).due = some (if s.rdT F.TR_START_AT p = 0 then tickFrom (s.tickNs p) (addNs (s.advance t).now (s.rd F.TR_TIMING_BRANCH_NS p)) else s.rdT F.TR_START_AT p, .commit))) ∧
  (∀ (t : Instant) (p : Fin 16) (value : Word) (s : State), s.admits (0x300000 + 0x100 * p.val) = true → value.toNat % 32 = 1 →
    value.toNat / 2 ^ 8 % 4 = s.rd F.TR_STATUS_STATE p → s.rd F.TR_STATUS_STATE p ≠ 0 ∨ s.rd F.TR_STATUS_TABLE_OK p = 0 ∨
    s.rd F.TR_STATUS_FAULT p ≠ 0 ∨ s.rd F.CP_STATUS_STATE p ≠ 1 ∨ s.rd F.LP_STATUS_FRAME_LOST p ≠ 0 ∨ (s.rdT F.TR_START_AT p ≠ 0 ∧
    notLater (s.rdT F.TR_START_AT p) (s.advance t).now = true) ∨
    s.rd F.TR_LOAD_STEP_COUNT p ≤ (if value.toNat / 2 ^ 16 = 0xFFFF then s.rd F.TR_ENTRY_ENTRY_STEP p else value.toNat / 2 ^ 16) →
    Ends (.trStart t p value) s (fun u => u.rd F.TR_EVENT_CMD_REFUSED p = 1 ∧ u.rd F.TR_STATUS_STATE p = s.rd F.TR_STATUS_STATE p ∧
    u.treadles = s.treadles)) ∧
  (∀ (t : Instant) (p : Fin 16) (value : Word) (s : State), s.admits (0x300000 + 0x100 * p.val) = true → value.toNat % 32 = 2 →
    value.toNat / 2 ^ 8 % 4 = 1 → s.rd F.TR_STATUS_STATE p = 1 → (s.treadle p).due = none →
    Ends (.trPause t p value) s (fun u => u.rd F.TR_STATUS_STATE p = 2 ∧ bitOf (u.rd F.TR_STATUS_PAUSE_CAUSE p) 1 = true ∧
    (u.treadle p).pausedAt = some (s.advance t).now)) ∧
  (∀ (t : Instant) (p : Fin 16) (value : Word) (s : State), s.admits (0x300000 + 0x100 * p.val) = true → value.toNat % 32 = 2 →
    value.toNat / 2 ^ 8 % 4 = s.rd F.TR_STATUS_STATE p → (s.rd F.TR_STATUS_STATE p = 2 ∨ (s.rd F.TR_STATUS_STATE p = 1 ∧ (s.treadle p).due ≠ none)) →
    Ends (.trPause t p value) s (fun u => u.rd F.TR_STATUS_STATE p = s.rd F.TR_STATUS_STATE p ∧ bitOf (u.rd F.TR_STATUS_PAUSE_CAUSE p) 1 = true ∧
    u.treadles = s.treadles)) ∧
  (∀ (t : Instant) (p : Fin 16) (value : Word) (s : State), s.admits (0x300000 + 0x100 * p.val) = true → value.toNat % 32 = 4 →
    value.toNat / 2 ^ 8 % 4 = 2 → s.rd F.TR_STATUS_STATE p = 2 → s.rd F.TR_STATUS_PAUSE_CAUSE p % 2 = 0 →
    Ends (.trResume t p value) s (fun u => u.rd F.TR_STATUS_STATE p = 1 ∧ u.rd F.TR_STATUS_PAUSE_CAUSE p = 0 ∧ (u.treadle p).pausedAt = none)) ∧
  (∀ (t : Instant) (p : Fin 16) (value : Word) (s : State), s.admits (0x300000 + 0x100 * p.val) = true → value.toNat % 32 = 4 →
    value.toNat / 2 ^ 8 % 4 = 2 → s.rd F.TR_STATUS_STATE p = 2 → s.rd F.TR_STATUS_PAUSE_CAUSE p % 2 = 1 →
    Ends (.trResume t p value) s (fun u => u.rd F.TR_STATUS_STATE p = 2 ∧ u.rd F.TR_STATUS_PAUSE_CAUSE p = 1 ∧ u.treadles = s.treadles)) ∧
  (∀ (t : Instant) (p : Fin 16) (value : Word) (s : State), s.admits (0x300000 + 0x100 * p.val) = true → value.toNat % 32 = 8 →
    value.toNat / 2 ^ 8 % 4 = s.rd F.TR_STATUS_STATE p → (s.rd F.TR_STATUS_STATE p = 1 ∨ s.rd F.TR_STATUS_STATE p = 2) → (s.treadle p).table ≠ none →
    Ends (.trAbort t p value) s (fun u => u.rd F.TR_STATUS_STATE p = 3 ∧ u.rd F.TR_STATUS_PAUSE_CAUSE p = 0 ∧ u.rd F.TR_DECIDE_DECIDED p = 0 ∧
    (u.treadle p).staging.map (·.step) = some (s.rd F.TR_ENTRY_STOP_STEP p) ∧
    (u.treadle p).due = some (tickFrom (s.tickNs p) (addNs (s.advance t).now (s.rd F.TR_TIMING_BRANCH_NS p)), .commit))) ∧
  (∀ (t : Instant) (p : Fin 16) (value : Word) (s : State), s.admits (0x300000 + 0x100 * p.val) = true → value.toNat % 32 = 8 →
    value.toNat / 2 ^ 8 % 4 = 3 → s.rd F.TR_STATUS_STATE p = 3 → Ends (.trAbort t p value) s (fun u => u.rd F.TR_EVENT_ABORT_IGNORED p = 1 ∧
    u.rd F.TR_STATUS_STATE p = 3 ∧ u.treadles = s.treadles)) ∧
  (∀ (t : Instant) (p : Fin 16) (value : Word) (s : State), s.admits (0x300000 + 0x100 * p.val) = true → value.toNat % 32 = 16 →
    value.toNat / 2 ^ 8 % 4 = 0 → s.rd F.TR_STATUS_STATE p = 0 → s.rd F.TR_STATUS_FAULT p ≠ 0 →
    Ends (.trClearFault t p value) s (fun u => u.rd F.TR_STATUS_FAULT p = 0)) ∧
  (∀ (t : Instant) (p : Fin 16) (value : Word) (s : State), s.admits (0x300000 + 0x100 * p.val) = true → value.toNat % 32 = 1 →
    value.toNat / 2 ^ 8 % 4 ≠ s.rd F.TR_STATUS_STATE p → Ends (.trStart t p value) s (fun u => u.rd F.TR_EVENT_STATE_MISMATCH p = 1 ∧
    u.rd F.TR_STATUS_STATE p = s.rd F.TR_STATUS_STATE p ∧ u.treadles = s.treadles)) ∧
  (∀ (t : Instant) (p : Fin 16) (value : Word) (s : State), s.admits (0x300000 + 0x100 * p.val) = true → bitOf value.toNat 0 = true →
    value.toNat % 32 ≠ 1 → Ends (.trStart t p value) s (fun u => u.rd F.TR_EVENT_CMD_REFUSED p = 1 ∧
    u.rd F.TR_STATUS_STATE p = s.rd F.TR_STATUS_STATE p ∧ u.treadles = s.treadles)) ∧
  (∀ (t : Instant) (p : Fin 16) (value : Word) (s : State), s.admits (0x300000 + 0x100 * p.val) = true → value.toNat % 32 = 2 →
    value.toNat / 2 ^ 8 % 4 ≠ s.rd F.TR_STATUS_STATE p → Ends (.trPause t p value) s (fun u => u.rd F.TR_EVENT_STATE_MISMATCH p = 1 ∧
    u.rd F.TR_STATUS_STATE p = s.rd F.TR_STATUS_STATE p ∧ u.treadles = s.treadles)) ∧
  (∀ (t : Instant) (p : Fin 16) (value : Word) (s : State), s.admits (0x300000 + 0x100 * p.val) = true → bitOf value.toNat 1 = true →
    value.toNat % 32 ≠ 2 → Ends (.trPause t p value) s (fun u => u.rd F.TR_EVENT_CMD_REFUSED p = 1 ∧
    u.rd F.TR_STATUS_STATE p = s.rd F.TR_STATUS_STATE p ∧ u.treadles = s.treadles)) ∧
  (∀ (t : Instant) (p : Fin 16) (value : Word) (s : State), s.admits (0x300000 + 0x100 * p.val) = true → value.toNat % 32 = 4 →
    value.toNat / 2 ^ 8 % 4 ≠ s.rd F.TR_STATUS_STATE p → Ends (.trResume t p value) s (fun u => u.rd F.TR_EVENT_STATE_MISMATCH p = 1 ∧
    u.rd F.TR_STATUS_STATE p = s.rd F.TR_STATUS_STATE p ∧ u.treadles = s.treadles)) ∧
  (∀ (t : Instant) (p : Fin 16) (value : Word) (s : State), s.admits (0x300000 + 0x100 * p.val) = true → bitOf value.toNat 2 = true →
    value.toNat % 32 ≠ 4 → Ends (.trResume t p value) s (fun u => u.rd F.TR_EVENT_CMD_REFUSED p = 1 ∧
    u.rd F.TR_STATUS_STATE p = s.rd F.TR_STATUS_STATE p ∧ u.treadles = s.treadles)) ∧
  (∀ (t : Instant) (p : Fin 16) (value : Word) (s : State), s.admits (0x300000 + 0x100 * p.val) = true → value.toNat % 32 = 8 →
    value.toNat / 2 ^ 8 % 4 ≠ s.rd F.TR_STATUS_STATE p → Ends (.trAbort t p value) s (fun u => u.rd F.TR_EVENT_STATE_MISMATCH p = 1 ∧
    u.rd F.TR_STATUS_STATE p = s.rd F.TR_STATUS_STATE p ∧ u.treadles = s.treadles)) ∧
  (∀ (t : Instant) (p : Fin 16) (value : Word) (s : State), s.admits (0x300000 + 0x100 * p.val) = true → bitOf value.toNat 3 = true →
    value.toNat % 32 ≠ 8 → Ends (.trAbort t p value) s (fun u => u.rd F.TR_EVENT_CMD_REFUSED p = 1 ∧
    u.rd F.TR_STATUS_STATE p = s.rd F.TR_STATUS_STATE p ∧ u.treadles = s.treadles)) ∧
  (∀ (t : Instant) (p : Fin 16) (value : Word) (s : State), s.admits (0x300000 + 0x100 * p.val) = true → value.toNat % 32 = 16 →
    value.toNat / 2 ^ 8 % 4 ≠ s.rd F.TR_STATUS_STATE p → Ends (.trClearFault t p value) s (fun u => u.rd F.TR_EVENT_STATE_MISMATCH p = 1 ∧
    u.rd F.TR_STATUS_STATE p = s.rd F.TR_STATUS_STATE p ∧ u.treadles = s.treadles)) ∧
  (∀ (t : Instant) (p : Fin 16) (value : Word) (s : State), s.admits (0x300000 + 0x100 * p.val) = true → bitOf value.toNat 4 = true →
    value.toNat % 32 ≠ 16 → Ends (.trClearFault t p value) s (fun u => u.rd F.TR_EVENT_CMD_REFUSED p = 1 ∧
    u.rd F.TR_STATUS_STATE p = s.rd F.TR_STATUS_STATE p ∧ u.treadles = s.treadles))

/-- A running Treadle that has decided nothing, with a TIME condition reached, decides at its tick or at the decision
instant: the boundary lies one tick later.  At the boundary END makes it IDLE and STOP makes it ABORTING.  A staging
that ends with every shadow valid is ready; at the commit instant, which is the boundary where the successor was staged, the
finished staging becomes the current step, an unfinished one is a miss that commits nothing, and an invalid one aborts.  Valve
changes due now are commanded and leave the list.  A Treadle fault sets FAULT and TR_FAULT and makes it IDLE. -/
def Obligations.TreadleStepsDecideStageAndCommit : Prop :=
  (∀ (t : Instant) (p : Fin 16) (s : State) (i : Fin 4), s.rd F.TR_STATUS_STATE p = 1 → (s.treadle p).due = none →
    (s.treadle p).lastEval ≠ some (s.advance t).now → onGrid (s.tickNs p) 0 (s.advance t).now = true →
    ((s.curStep p).ends.getD i EndCond.none).kind = 1 → 16 * (((s.curStep p).ends.getD i EndCond.none).arg - s.tickNs p) ≤ (s.advance t).tau p →
    Ends (.treadleTick t p) s (fun u => u.rd F.TR_DECIDE_DECIDED p = 1 ∧ bitOf (u.rd F.TR_DECIDE_TRUE_MASK p) i = true ∧
    (u.treadle p).boundary = addNs (s.advance t).now (s.tickNs p))) ∧
  (∀ (t : Instant) (p : Fin 16) (s : State) (i : Fin 4), s.rd F.TR_STATUS_STATE p = 1 → (s.treadle p).due = none →
    (s.treadle p).lastEval ≠ some (s.advance t).now → ((s.curStep p).ends.getD i EndCond.none).kind = 1 →
    16 * (((s.curStep p).ends.getD i EndCond.none).arg - s.tickNs p) ≤ (s.advance t).tau p →
    Ends (.timeDecision t p) s (fun u => u.rd F.TR_DECIDE_DECIDED p = 1 ∧ bitOf (u.rd F.TR_DECIDE_TRUE_MASK p) i = true ∧
    (u.treadle p).boundary = addNs (s.advance t).now (s.tickNs p))) ∧
  (∀ (t : Instant) (p : Fin 16) (s : State), (s.treadle p).due = some ((s.advance t).now, .finish) → s.rd F.TR_STATUS_STATE p = 1 →
    Ends (.stepBoundary t p) s (fun u => u.rd F.TR_STATUS_STATE p = 0 ∧ u.rd F.TR_EVENT_END_REACHED p = 1 ∧ (u.treadle p).due = none)) ∧
  (∀ (t : Instant) (p : Fin 16) (s : State), (s.treadle p).due = some ((s.advance t).now, .stop) → s.rd F.TR_STATUS_STATE p = 1 →
    Ends (.stepBoundary t p) s (fun u => u.rd F.TR_STATUS_STATE p = 3)) ∧
  (∀ (t : Instant) (p : Fin 16) (s : State) (x : Staging), (s.treadle p).table ≠ none → (s.treadle p).staging = some x → x.finished = true →
    x.invalid = false → (s.treadle p).due = some ((s.advance t).now, .commit) → (s.treadle p).boundary = (s.advance t).now →
    Ends (.stepBoundary t p) s (fun u => u.rd F.TR_STEPS_CUR_STEP p = x.step % 2 ^ F.TR_STEPS_CUR_STEP.width ∧
    u.rdT F.TR_COMMIT p = (s.advance t).now ∧ (u.treadle p).due = none)) ∧
  (∀ (t : Instant) (p : Fin 16) (s : State) (x : Staging), (s.treadle p).table ≠ none → (s.treadle p).staging = some x → x.finished = true →
    x.invalid = true → s.rd F.TR_STATUS_STATE p = 1 → (s.treadle p).due = some ((s.advance t).now, .commit) →
    Ends (.stepCommit t p) s (fun u => u.rd F.TR_EVENT_STAGE_INVALID p = 1 ∧ u.rd F.TR_STATUS_STATE p = 3 ∧
    u.rd F.TR_COMMITS p = s.rd F.TR_COMMITS p)) ∧
  (∀ (t : Instant) (p : Fin 16) (s : State) (x : Staging), (s.treadle p).table ≠ none → (s.treadle p).staging = some x → x.finished = false →
    x.cells.all (fun n => s.on F.LC_STATUS_SHADOW_VALID n) = true →
    Ends (.stagingDone t p) s (fun u => (u.treadle p).staging = some { x with finished := true, invalid := false } ∧
    u.rd F.TR_STATUS_STAGE_STATE p = 2 ∧ u.rd F.TR_STEPS_STAGED_STEP p = x.step % 2 ^ F.TR_STEPS_STAGED_STEP.width)) ∧
  (∀ (t : Instant) (p : Fin 16) (s : State) (x : Staging), (s.treadle p).table ≠ none → (s.treadle p).staging = some x → x.finished = true →
    x.invalid = false → (s.treadle p).due = some ((s.advance t).now, .commit) →
    Ends (.stepCommit t p) s (fun u => u.rd F.TR_STEPS_CUR_STEP p = x.step % 2 ^ F.TR_STEPS_CUR_STEP.width ∧ u.rdT F.TR_COMMIT p = (s.advance t).now ∧
    u.rd F.TR_COMMITS p = (s.rd F.TR_COMMITS p + 1) % 2 ^ F.TR_COMMITS.width ∧ (u.treadle p).due = none)) ∧
  (∀ (t : Instant) (p : Fin 16) (s : State) (x : Staging), (s.treadle p).table ≠ none → (s.treadle p).staging = some x → x.finished = false →
    x.missed = false → (s.treadle p).due = some ((s.advance t).now, .commit) → Ends (.stepCommit t p) s (fun u => u.rd F.TR_EVENT_STAGE_MISS p = 1 ∧
    u.rd F.TR_STEPS_CUR_STEP p = s.rd F.TR_STEPS_CUR_STEP p ∧ u.rd F.TR_COMMITS p = s.rd F.TR_COMMITS p)) ∧
  (∀ (t : Instant) (p : Fin 16) (s : State),
    Ends (.valveChange t p) s (fun u => (u.treadle p).valves = (s.treadle p).valves.filter (fun v => v.at_ != (s.advance t).now) ∧
    ∀ v ∈ (s.treadle p).valves, v.at_ = (s.advance t).now → ((s.treadle p).valves.filter (fun w => w.at_ == v.at_)).length = 1 →
    (s.outIndex v.sel 1).all (fun k => (u.loom.outs.get k ⟨false, false⟩).cmd == v.level) = true)) ∧
  (∀ (t : Instant) (p : Fin 16) (s : State), Ends (.treadleFault t p) s (fun u => u.rd F.TR_STATUS_STATE p = 0 ∧ u.rd F.TR_STATUS_FAULT p = 1 ∧
    u.rd F.TR_EVENT_TR_FAULT p = 1 ∧ bitOf (u.rd F.SYS_FAULT) 5 = true ∧ (u.treadle p).due = none))

/-- A write of PG_CTRL starts an idle generator whose grid is in range and stops one; an update with nothing pending
moves it by one step of its algorithm; a write of PG_TARGET gives the target, or is dropped while the Treadle runs.  A
step of the algorithm moves the inner position by at most VMAX, towards the target and never past it. -/
def Obligations.ProfileGeneratorsFollowTheirTarget : Prop :=
  (∀ (t : Instant) (n : Fin 256) (value : Word) (s : State), s.admits (pgOff n 0) = true → s.rwlOpen (s.ownerPG n) = true → value.toNat % 2 = 1 →
    s.rd F.PG_CTRL n = 0 → 1000 ≤ s.rd F.PG_PERIOD n → s.rd F.PG_PERIOD n ≤ 1000000000 → s.rd F.PG_PHASE n < s.rd F.PG_PERIOD n →
    Ends (.pgEnable t n value) s (fun u => u.rd F.PG_CTRL n = 1 ∧ u.rd F.PG_STATUS_RUNNING n = 1 ∧ (u.gen n).q = s.rdI F.PG_INIT n * 65536)) ∧
  (∀ (t : Instant) (n : Fin 256) (value : Word) (s : State), s.admits (pgOff n 0) = true → s.rwlOpen (s.ownerPG n) = true → value.toNat % 2 = 0 →
    Ends (.pgEnable t n value) s (fun u => u.rd F.PG_CTRL n = 0 ∧ u.rd F.PG_STATUS_RUNNING n = 0 ∧ u.rd F.PG_SP n = s.rd F.PG_SP n)) ∧
  (∀ (t : Instant) (n : Fin 256) (s : State), s.rd F.PG_CTRL n ≠ 0 → s.quadOn (n / 64) = true → s.rd F.WARP_STATUS_COARSE = 0 →
    onGrid (s.rd F.PG_PERIOD n) (s.rd F.PG_PHASE n) (s.advance t).now = true → s.rd F.PG_STATUS_HELD n = 0 → (s.gen n).jump = none →
    (s.gen n).limits = none →
    Ends (.pgUpdate t n) s (fun u => let t' := (s.gen n).nextT.getD (s.gen n).t; let o := genStep { s.gen n with t := t', nextT := none } t' (s.limitsOf n).1 (s.limitsOf n).2.1 (s.limitsOf n).2.2; u.gen n = o.g ∧
    u.rd F.PG_SP n = ofSigned 32 o.sp ∧ u.rd F.PG_STATUS_DONE n = b2n o.done ∧ u.rd F.PG_STATUS_DWELL n = b2n o.dwell)) ∧
  (∀ (t : Instant) (n : Fin 256) (value : Word) (s : State), s.admits (pgOff n 0x14) = true → s.treadleBusy (s.ownerPG n) = false →
    Ends (.pgHostWrite t n .target value) s (fun u => u.rd F.PG_TARGET n = value.toNat ∧ (s.rd F.PG_CTRL n ≠ 0 →
    (u.gen n).nextT = some (value.toInt * 65536)))) ∧
  (∀ (t : Instant) (n : Fin 256) (value : Word) (s : State), s.admits (pgOff n 0x14) = true → s.treadleBusy (s.ownerPG n) = true →
    Ends (.pgHostWrite t n .target value) s (fun u => u.rd F.PG_EVENT_TARGET_DROP n = 1 ∧ u.rd F.PG_TARGET n = s.rd F.PG_TARGET n ∧
    u.gen n = s.gen n)) ∧
  (∀ (g : Gen) (target : Int) (vmax m1 m2 : Nat), let o := genStep g target vmax m1 m2; ((g.q ≤ target ∧ g.q ≤ o.g.q ∧ o.g.q ≤ target ∧
    o.g.q - g.q ≤ vmax) ∨ (target ≤ g.q ∧ target ≤ o.g.q ∧ o.g.q ≤ g.q ∧ g.q - o.g.q ≤ vmax)))

/-! ### Axis engines and groups (06) -/

/-- ENABLE without a configuration error makes the axis IDLE at AX_POS, and with one sets CFG_ERR only; ENABLE = 0
makes it DISABLED.  GO and HALT wait, in their order, for the next strobe; GO is turned away while the partition's
Treadle runs.  HOME of MODE HERE shifts AX_POS by HOME_POS less the held position and sets HOMED; the other modes go
to HOMING.  CLEAR takes a FAULTED axis to IDLE.  LOAD_SEGMENTS writes its records, or gives the failing check. -/
def Obligations.AxisHostCommandsActOnTheEngine : Prop :=
  (∀ (t : Instant) (n : Fin 128) (value : Word) (s : State), s.admits (axOff n) = true → s.rwlOpen (s.ownerAX n) = true →
    s.rd F.AX_CTRL_ENABLE n = 0 → s.axCfgErr n = 0 → Ends (.axEnable t n value) s (fun u => u.rd F.AX_CTRL_ENABLE n = 1 ∧
    u.rd F.AX_STATUS_STATE n = 1 ∧ u.rd F.AX_STATUS_CFG_ERR n = 0 ∧ u.rd F.AX_VEL n = 0 ∧ u.rd F.AX_POS n = s.rd F.AX_POS n ∧
    (u.axis n).hold = s.rdI F.AX_POS n ∧ (u.axis n).traj = [])) ∧
  (∀ (t : Instant) (n : Fin 128) (value : Word) (s : State), s.admits (axOff n) = true → s.rwlOpen (s.ownerAX n) = true →
    s.rd F.AX_CTRL_ENABLE n = 0 → s.axCfgErr n ≠ 0 → Ends (.axEnable t n value) s (fun u => u.rd F.AX_CTRL_ENABLE n = 0 ∧
    u.rd F.AX_STATUS_CFG_ERR n = s.axCfgErr n ∧ u.rd F.AX_STATUS_STATE n = s.rd F.AX_STATUS_STATE n ∧ u.axes = s.axes)) ∧
  (∀ (t : Instant) (n : Fin 128) (value : Word) (s : State), s.admits (axOff n) = true → s.rwlOpen (s.ownerAX n) = true →
    Ends (.axDisable t n value) s (fun u => u.rd F.AX_CTRL_ENABLE n = 0 ∧ u.rd F.AX_STATUS_STATE n = 0 ∧ (u.axis n).eval = none ∧
    (u.axis n).traj = [] ∧ u.rd F.AX_POS n = s.rd F.AX_POS n)) ∧
  (∀ (t : Instant) (n : Fin 128) (s : State), s.admits (axOff n) = true → (s.ownerAX n).any (fun p => s.rd F.TR_STATUS_STATE p != 0) = false →
    s.rd F.AX_CTRL_ENABLE n ≠ 0 → (s.axis n).halted = false → (s.axis n).isStop = false → (s.axis n).traj = [] →
    Ends (.axGo t n) s (fun u => (u.axis n).asks = (s.axis n).asks ++ [true] ∧ u.rd F.AX_POS n = s.rd F.AX_POS n)) ∧
  (∀ (t : Instant) (n : Fin 128) (s : State), s.admits (axOff n) = true → (s.ownerAX n).any (fun p => s.rd F.TR_STATUS_STATE p != 0) = true →
    Ends (.axGo t n) s (fun u => bitOf (u.rd F.AX_EVENT n) 10 = true ∧ (u.axis n).asks = (s.axis n).asks)) ∧
  (∀ (t : Instant) (n : Fin 128) (s : State), s.admits (axOff n) = true → (((s.advance t).axUpdate n).axState n = 2 ∨
    ((s.advance t).axUpdate n).axState n = 4) →
    Ends (.axHalt t n) s (fun u => (u.axis n).asks = (((s.advance t).axUpdate n).axis n).asks ++ [false])) ∧
  (∀ (t : Instant) (n : Fin 128) (s : State), s.admits (axOff n) = true → ((s.advance t).axUpdate n).axState n = 1 →
    (s.ownerAX n).any (fun p => s.rd F.TR_STATUS_STATE p != 0) = false → s.rd F.AX_HOME_CFG_MODE n = 3 →
    Ends (.axHome t n) s (fun u => u.rd F.AX_STATUS_HOMED n = 1 ∧ u.rd F.AX_STATUS_HOME_RESULT n = 2 ∧ u.rd F.AX_STATUS_STATE n = 1 ∧
    bitOf (u.rd F.AX_EVENT n) 6 = true ∧
    u.rd F.AX_POS n = ofSigned 32 (s.rdI F.AX_POS n + (s.rdI F.AX_HOME_POS n - (((s.advance t).axUpdate n).axis n).hold)))) ∧
  (∀ (t : Instant) (n : Fin 128) (s : State), s.admits (axOff n) = true → ((s.advance t).axUpdate n).axState n = 1 →
    (s.ownerAX n).any (fun p => s.rd F.TR_STATUS_STATE p != 0) = false → s.rd F.AX_HOME_CFG_MODE n ≠ 3 → ((s.advance t).axUpdate n).homeOk n = true →
    Ends (.axHome t n) s (fun u => u.rd F.AX_STATUS_HOMED n = 0 ∧ u.rd F.AX_STATUS_HOME_RESULT n = 1 ∧ u.rd F.AX_STATUS_STATE n = 4 ∧
    (u.axis n).homing.isSome = true)) ∧
  (∀ (t : Instant) (n : Fin 128) (s : State), s.admits (axOff n) = true → s.rwlOpen (s.ownerAX n) = true → s.rd F.AX_STATUS_STATE n = 5 →
    Ends (.axClear t n) s (fun u => u.rd F.AX_STATUS_STATE n = 1 ∧ u.rd F.AX_STATUS_FAULT_CAUSE n = 0 ∧ u.rd F.AX_VEL n = 0 ∧
    (u.axis n).hold = s.rdI F.AX_POS n ∧ (u.axis n).halted = false)) ∧
  (∀ (t : Instant) (p : Fin 16) (img : SegImage) (s : State), s.mayExecute 2 p anyArgs = true →
    ((s.advance t).axUpdate img.axis).segResult p img = 0 →
    Ends (.loadSegments t p img true) s (fun u => (u.axis img.axis).segs = putSegs (s.axis img.axis).segs img.first img.records ∧
    u.rd F.AX_SEG_LOAD img.axis = 0 ∧ bitOf (u.rd F.AX_EVENT img.axis) 12 = true)) ∧
  (∀ (t : Instant) (p : Fin 16) (img : SegImage) (s : State), s.mayExecute 2 p anyArgs = true →
    ((s.advance t).axUpdate img.axis).segResult p img ≠ 0 → img.axis < 128 →
    Ends (.loadSegments t p img true) s (fun u => (u.axis img.axis).segs = (s.axis img.axis).segs ∧
    u.rd F.AX_SEG_LOAD img.axis = ((s.advance t).axUpdate img.axis).segResult p img))

/-- At a strobe with no request an IDLE axis that homes nothing puts the evaluation of its held position in flight, due LATENCY
later; a GO served there makes an IDLE axis MOVING on its segment.  A result is ready when its command comes; the end of a late one
enters the slack window with a negative slack.  At the release instant of its evaluation a result in time, which no fault keeps
back, gives AX_POS, AX_VEL, AX_FBPOS and AX_FE to an axis that homes nothing and ends the run of lates; one not ready is late: it is
counted and discarded, and AX_POS keeps its value.  On a pin that no OUTPUT record drives a step pulse rises at its instant, to the
level that STEP_POL makes active, and STEP_WIDTH_NS later it falls.  A stall halts an enabled axis at once, FAULTED with cause
STALL. -/
def Obligations.AxisEvaluationsAndPulses : Prop :=
  (∀ (t : Instant) (n : Fin 128) (runAhead : Bool) (s : State), (s.advance t).axSamples n = true → ((s.advance t).axUpdate n).axState n = 1 →
    (s.axis n).asks = [] → (s.axis n).bad = none → (s.axis n).homing = none →
    Ends (.axStrobe t n runAhead) s (fun u => (u.axis n).eval.any (fun e => e.at_ == (s.advance t).now && e.due == addNs (s.advance t).now (s.rd F.AX_LATENCY n) && e.p == (((s.advance t).axUpdate n).axAt n (s.advance t).now).1 && e.v == (((s.advance t).axUpdate n).axAt n (s.advance t).now).2 && e.ready.isNone) = true ∧
    u.rd F.AX_POS n = s.rd F.AX_POS n)) ∧
  (∀ (t : Instant) (n : Fin 128) (s : State) (r : SegRec), (s.advance t).axSamples n = true → ((s.advance t).axUpdate n).axState n = 1 →
    (s.axis n).asks = [true] → (s.axis n).bad = none → (s.axis n).homing = none → s.rd F.AX_CTRL_VLIM_EN n = 0 → s.rd F.AX_NEXT_SEG_COUNT n = 1 →
    (s.axis n).segs.find (s.rd F.AX_NEXT_SEG_FIRST n) = some r → 1000 ≤ r.dur → r.dur < 2 ^ 32 → s.rd F.AX_NEXT_SEG_FIRST n < 4096 →
    Ends (.axStrobe t n false) s (fun u => u.rd F.AX_STATUS_STATE n = 2 ∧ (u.axis n).asks = [] ∧
    (u.axis n).traj = [⟨(s.advance t).now, r.dur, (((s.advance t).axUpdate n).axis n).hold, 0, r.endPos, r.endVel, false⟩])) ∧
  (∀ (t : Instant) (n : Fin 128) (arith parity : Bool) (s : State) (e : AxEval), (s.axis n).lates = [] → (s.axis n).eval = some e → e.awaits = none →
    e.ready = none →
    Ends (.axResultReady t n arith parity) s (fun u => (u.axis n).eval = some { e with ready := some (s.advance t).now, causes := e.causes ||| (b2n arith + 2 * b2n parity) } ∧
    u.regs = (s.advance t).regs)) ∧
  (∀ (t : Instant) (n : Fin 128) (arith parity : Bool) (s : State) (r : Instant) (rest : List Instant), (s.axis n).lates = r :: rest →
    Ends (.axResultReady t n arith parity) s (fun u => (u.axis n).lates = rest ∧ (u.axis n).eval = (s.axis n).eval ∧
    u.warp.slackLow.any (fun l => decide (l.1 ≤ min (-1) (sinceNs r (s.advance t).now))) = true)) ∧
  (∀ (t : Instant) (n : Fin 128) (resultFirst : Bool) (s : State) (e : AxEval) (r : Instant), (s.axis n).eval = some e → e.due = (s.advance t).now →
    e.ready = some r → (earlier r (s.advance t).now = true ∨ (r = (s.advance t).now ∧ resultFirst = true)) → (s.axis n).homing = none → e.causes = 0 →
    fits32 e.p = true → fits32 e.v = true → s.rateExceeded n (rshr e.p 8 - s.rdI F.AX_STEP_POS n).natAbs = false → (s.rd F.AX_FE_LIMIT n = 0 ∨
    (sat32 (e.p - e.fb)).natAbs ≤ s.rd F.AX_FE_LIMIT n) → Ends (.axRelease t n resultFirst) s (fun u => u.rd F.AX_POS n = ofSigned 32 e.p ∧
    u.rd F.AX_VEL n = ofSigned 32 e.v ∧ u.rd F.AX_FBPOS n = ofSigned 32 e.fb ∧ u.rd F.AX_FE n = ofSigned 32 (sat32 (e.p - e.fb)) ∧
    u.rd F.AX_STEP_POS n = ofSigned 32 (rshr e.p 8) ∧ (u.axis n).eval = none ∧ (u.axis n).lateRun = 0)) ∧
  (∀ (t : Instant) (n : Fin 128) (resultFirst : Bool) (s : State) (e : AxEval), (s.axis n).eval = some e → e.due = (s.advance t).now →
    (e.ready = none ∨ (e.ready = some (s.advance t).now ∧ resultFirst = false)) →
    Ends (.axRelease t n resultFirst) s (fun u => bitOf (u.rd F.AX_EVENT n) 9 = true ∧ (u.axis n).eval = none ∧ u.rd F.AX_POS n = s.rd F.AX_POS n ∧
    u.rd F.AX_DIAG_CNT_LATE_CNT n = min (s.rd F.AX_DIAG_CNT_LATE_CNT n + 1) (2 ^ F.AX_DIAG_CNT_LATE_CNT.width - 1))) ∧
  (∀ (t : Instant) (n : Fin 128) (s : State), (s.axis n).pulses.contains (s.advance t).now = true →
    (∀ e ∈ s.recsOf 4 1, s.cfg e.1 0 4 % 256 = s.rd F.AX_ROUTE_OUT_ID n → s.cfg e.1 8 1 = 3 ∨ s.cfg e.1 8 1 = 4) →
    Ends (.stepPulse t n) s (fun u => (u.axis n).pulses.contains (s.advance t).now = false ∧
    (u.axis n).falls = (s.axis n).falls ++ [addNs (s.advance t).now (s.rd F.AX_STEP_CFG_STEP_WIDTH_NS n)] ∧
    (u.pin (s.rd F.AX_ROUTE_OUT_ID n)).out = decide (s.rd F.AX_STEP_CFG2_STEP_POL n = 0))) ∧
  (∀ (t : Instant) (n : Fin 128) (s : State), (s.axis n).falls.contains (s.advance t).now = true →
    (∀ e ∈ s.recsOf 4 1, s.cfg e.1 0 4 % 256 = s.rd F.AX_ROUTE_OUT_ID n → s.cfg e.1 8 1 = 3 ∨ s.cfg e.1 8 1 = 4) →
    Ends (.stepPulseFall t n) s (fun u => (u.axis n).falls.contains (s.advance t).now = false ∧ (u.axis n).pulses = (s.axis n).pulses ∧
    (u.pin (s.rd F.AX_ROUTE_OUT_ID n)).out = decide (s.rd F.AX_STEP_CFG2_STEP_POL n ≠ 0))) ∧
  (∀ (t : Instant) (n : Fin 128) (s : State), s.rd F.AX_CTRL_ENABLE n ≠ 0 → Ends (.axStall t n) s (fun u => u.rd F.AX_STATUS_STATE n = 5 ∧
    bitOf (u.rd F.AX_STATUS_FAULT_CAUSE n) 2 = true ∧ bitOf (u.rd F.AX_EVENT n) 8 = true ∧ (u.axis n).halted = true ∧ (u.axis n).pulses = [] ∧
    (u.axis n).traj = []))

/-- ARM of a group that may be armed sets STATE armed and takes its members, else RESULT gives the cause; CANCEL disarms it; at the
start instant of a group whose members are IDLE with one segment to run all of them are MOVING, their trajectories begun then.  An edge of a limit switch sets LIMP or LIMN
to its level.  An edge of the home switch sets HOME_SW and begins or continues a burst; a burst that stays quiet for
HOME_DEB_NS is over, and in MODE SWITCH its capture becomes L.  In MODE SWITCH_INDEX the index edge after it gives L. -/
def Obligations.AxisGroupsAndSwitches : Prop :=
  (∀ (t : Instant) (g : Fin 4) (value : Word) (s : State), s.admits (0x410018 + 0x20 * g) = true →
    ((((s.advance t).wr F.AXG_CTRL_KIND (value.toNat / 2) g).each (s.groupMembers g) State.axUpdate).armResult g) = 0 →
    Ends (.axgArm t g value) s (fun u => u.rd F.AXG_CTRL_STATE g = 1 ∧ u.rd F.AXG_CTRL_RESULT g = 0 ∧
    (u.group g).any (fun x => x.members == s.groupMembers g) = true)) ∧
  (∀ (t : Instant) (g : Fin 4) (value : Word) (s : State), s.admits (0x410018 + 0x20 * g) = true →
    ((((s.advance t).wr F.AXG_CTRL_KIND (value.toNat / 2) g).each (s.groupMembers g) State.axUpdate).armResult g) ≠ 0 →
    Ends (.axgArm t g value) s (fun u => u.rd F.AXG_CTRL_STATE g = 3 ∧ u.group g = none ∧
    u.rd F.AXG_CTRL_RESULT g = (((s.advance t).wr F.AXG_CTRL_KIND (value.toNat / 2) g).each (s.groupMembers g) State.axUpdate).armResult g)) ∧
  (∀ (t : Instant) (g : Fin 4) (value : Word) (s : State), s.admits (0x410018 + 0x20 * g) = true → s.rd F.AXG_CTRL_STATE g = 1 →
    Ends (.axgCancel t g value) s (fun u => u.rd F.AXG_CTRL_STATE g = 0 ∧ u.group g = none ∧ u.axes = s.axes)) ∧
  (∀ (t : Instant) (g : Fin 4) (s : State) (m : List Nat) (ignore : Option Instant) (sync : Bool), s.group g = some ⟨m, sync, some (s.advance t).now, ignore⟩ →
    s.rd F.AXG_CTRL_STATE g = 1 → (∀ n ∈ m, ((s.advance t).axUpdate n).axState n = 1 ∧ (s.axis n).asks = [] ∧ (s.axis n).bad = none ∧
    s.rd F.AX_NEXT_SEG_COUNT n = 1 ∧ s.rd F.AX_NEXT_SEG_FIRST n < 4096 ∧
    ((s.axis n).segs.find (s.rd F.AX_NEXT_SEG_FIRST n)).any (fun r => decide (1000 ≤ r.dur) && decide (r.dur < 2 ^ 32)) = true) →
    Ends (.groupStart t g) s (fun u => u.rd F.AXG_CTRL_STATE g = 2 ∧ u.group g = none ∧ (∀ n ∈ m, u.rd F.AX_STATUS_STATE n = 2 ∧
    (u.axis n).traj.map (·.start) = [(s.advance t).now]))) ∧
  (∀ (t : Instant) (n : Fin 128) (s : State) (b : Bool), ((s.advance t).axUpdate n).switchLevel (s.rd F.AX_LIMP_SRC n) = some b →
    Ends (.limitEdge t n true) s (fun u => u.rd F.AX_STATUS_LIMP n = b2n b ∧ u.rd F.AX_STATUS_LIMN n = s.rd F.AX_STATUS_LIMN n ∧
    u.rd F.AX_POS n = s.rd F.AX_POS n)) ∧
  (∀ (t : Instant) (n : Fin 128) (s : State) (b : Bool), ((s.advance t).axUpdate n).switchLevel (s.rd F.AX_LIMN_SRC n) = some b →
    Ends (.limitEdge t n false) s (fun u => u.rd F.AX_STATUS_LIMN n = b2n b ∧ u.rd F.AX_STATUS_LIMP n = s.rd F.AX_STATUS_LIMP n ∧
    u.rd F.AX_POS n = s.rd F.AX_POS n)) ∧
  (∀ (t : Instant) (n : Fin 128) (s : State) (b : Bool), ((s.advance t).axUpdate n).switchLevel (s.rd F.AX_HOME_SRC n) = some b →
    s.rd F.AX_STATUS_HOME_SW n ≠ b2n b → Ends (.homeSwitchEdge t n) s (fun u => u.rd F.AX_STATUS_HOME_SW n = b2n b ∧
    (u.axis n).burst.any (fun x => x.last == (s.advance t).switchEdge (s.rd F.AX_HOME_SRC n)) = true)) ∧
  (∀ (t : Instant) (n : Fin 128) (s : State) (b : Burst) (h : Homing) (l : Int), (s.axis n).bad = none → (s.axis n).burst = some b →
    (s.rd F.AX_HOME_CFG_DEB_NS n : Int) ≤ sinceNs (s.advance t).now b.last → b.latch = some l → s.rd F.AX_STATUS_HOME_SW n ≠ 0 →
    s.rd F.AX_HOME_CFG_MODE n = 0 → (s.axis n).homing = some h → h.result = 1 → h.latch = none →
    Ends (.burstQualified t n) s (fun u => (u.axis n).burst = none ∧ (u.axis n).homing = some { h with latch := some l } ∧
    u.rd F.AX_CHATTER_HOME_CHATTER n = min (b.edges - 1) 0xFFFF)) ∧
  (∀ (t : Instant) (n : Fin 128) (s : State) (h : Homing), (s.axis n).bad = none → s.rd F.AX_HOME_CFG_MODE n = 1 → s.rd F.AX_ROUTE_FB_KIND n = 1 →
    (s.axis n).homing = some h → h.seen = true → h.result = 1 → h.latch = none →
    Ends (.indexEdge t n) s (fun u => (u.axis n).homing = some { h with latch := some (rshr ((s.axis n).countAt (s.pin (s.rd F.AX_FB n + 2)).stamp * s.rdI F.AX_ENC_SCALE n) 8 + (s.axis n).offset) }))

/-! ### The Skein (07) -/

/-- While recording is not suspended and no gap is open, a tap with policy EVERY puts a sample that finds room, at its instant, into a
run of its stream; one that finds none is discarded and counted for the stream and the tap, and opens a gap.  A block that SEAL_MS or FLUSH seals raises SEQ by one and
leaves no run open.  At a whole second every stream that has sealed a block asks for a checkpoint of its state, and
once signed its record enters the stream. -/
def Obligations.SamplesBlocksAndCheckpointsOfTheSkein : Prop :=
  (∀ (t : Instant) (n : Fin 8192) (at_ : Instant) (data : Word) (s : State), (s.advance t).tapDue n at_ = true → s.rd F.TAP_SRC_KIND n ≠ 3 →
    s.rd F.TAP_SRC_KIND n ≠ 4 → s.rd F.TAP_CFG_POLICY n = 1 → s.rd F.TAP_SRC_STREAM n < 17 → s.rd F.HOST_STATUS_BOOTING = 0 →
    (s.stream (s.rd F.TAP_SRC_STREAM n)).gap = none → s.rd F.PWR_STATUS_STATE ≠ 2 →
    (s.advance t).discardCause (s.rd F.TAP_SRC_STREAM n) n at_ (BitVec.ofNat 32 (s.sourceValue (s.rd F.TAP_SRC_KIND n) (s.rd F.TAP_SRC_SIGNAL n) (s.rd F.TAP_SRC_ID n) (s.rd F.TAP_SRC_RING n))) = none →
    Ends (.tapSample t n at_ data) s (fun u => (u.stream (s.rd F.TAP_SRC_STREAM n)).runs.any (fun r => r.tap == n.val && r.lastT == at_ && r.lastV == BitVec.ofNat 32 (s.sourceValue (s.rd F.TAP_SRC_KIND n) (s.rd F.TAP_SRC_SIGNAL n) (s.rd F.TAP_SRC_ID n) (s.rd F.TAP_SRC_RING n))) = true ∧
    u.rd F.TAP_DISCARD n = s.rd F.TAP_DISCARD n)) ∧
  (∀ (t : Instant) (n : Fin 8192) (at_ : Instant) (data : Word) (s : State), (s.advance t).tapDue n at_ = true → s.rd F.TAP_SRC_KIND n = 3 →
    s.rd F.TAP_CFG_POLICY n = 1 → s.rd F.TAP_SRC_STREAM n < 17 → s.rd F.HOST_STATUS_BOOTING = 0 →
    (s.advance t).discardCause (s.rd F.TAP_SRC_STREAM n) n at_ data ≠ none →
    Ends (.tapSample t n at_ data) s (fun u => u.rd F.TAP_DISCARD n = min (s.rd F.TAP_DISCARD n + 1) (2 ^ F.TAP_DISCARD.width - 1) ∧
    (u.stream (s.rd F.TAP_SRC_STREAM n)).discards = (s.stream (s.rd F.TAP_SRC_STREAM n)).discards + 1 ∧
    ((s.stream (s.rd F.TAP_SRC_STREAM n)).gap = none → u.rd F.SKS_STATUS_GAP_OPEN (s.rd F.TAP_SRC_STREAM n) = 1))) ∧
  (∀ (t : Instant) (k : Fin 17) (s : State) (o : Instant), (s.stream k).openAt = some o →
    notLater (addNs o (1000000 * s.sealMs)) (s.advance t).now = true → (s.stream k).recs ++ (s.stream k).runs.map runRec ≠ [] →
    Ends (.blockSeal t k) s (fun u => u.rd F.SKS_SEQ k = (s.rd F.SKS_SEQ k + 1) % 2 ^ F.SKS_SEQ.width ∧ (u.stream k).runs = [] ∧
    (u.stream k).everSealed = true)) ∧
  (∀ (t : Instant) (k : Fin 17) (s : State), s.admits (0x501000 + 0x80 * k) = true → (s.stream k).recs ++ (s.stream k).runs.map runRec ≠ [] →
    Ends (.flush t k) s (fun u => u.rd F.SKS_SEQ k = (s.rd F.SKS_SEQ k + 1) % 2 ^ F.SKS_SEQ.width ∧ (u.stream k).runs = [] ∧
    (u.stream k).everSealed = true)) ∧
  (∀ (t : Instant) (s : State) (k : Fin 17), onGrid 1000000000 0 (s.advance t).now = true → (s.stream k).everSealed = true →
    Ends (.skeinCheckpoint t) s (fun u => u.rd F.SK_STATUS_CKPT_PENDING = 1 ∧ (u.stream k).ckpts.length = (s.stream k).ckpts.length + 1 ∧
    (u.stream k).ckpts.getLast?.any (fun c => c.at_ == (s.advance t).now && c.headHash == (u.stream k).headHash) = true)) ∧
  (∀ (t : Instant) (k : Fin 17) (s : State) (c : Ckpt) (rest : List Ckpt), (s.stream k).ckpts = c :: rest → s.rd F.HOST_STATUS_BOOTING = 0 →
    Ends (.checkpointSigned t k) s (fun u => (u.stream k).ckpts = rest ∧
    (u.stream k).recs.getLast?.any (fun r => r.kind == 8 && r.first == c.at_ && r.body == ckptBody k (s.rd F.SK_EPOCH) c ++ sign sealingKey (ckptBody k (s.rd F.SK_EPOCH) c)) = true))

/-- A block read back good lies byte for byte at its slot of the DRAM region and may be shown; one that failed is
written again and counted, and after three retries a LOST block takes its place.  An export that ends has consumed its
block.  A write of ST_CONSUMED in range is taken and frees the ring entries up to it; one out of range is refused with
an event.  RESEND_BLOCK sends a resident block again, or sets its event. -/
def Obligations.BlocksReachTheRegionAndTheHost : Prop :=
  (∀ (t : Instant) (k : Fin 17) (seq : BitVec 64) (s : State) (e : SkSlot), (s.stream k).region.find? (fun e => e.block.seq == seq.toNat && e.phase == .writing) = some e →
    (s.stream k).burst = [] →
    Ends (.blockWriteDone t k seq true) s (fun u => u.dram = s.dram.writeBytes (s.slotAddr k e.block.seq) (blockBytes k e.block) ∧
    (u.stream k).region.any (fun x => x.block.seq == seq.toNat && x.phase != .writing) = true)) ∧
  (∀ (t : Instant) (k : Fin 17) (seq : BitVec 64) (s : State) (e : SkSlot), (s.stream k).region.find? (fun e => e.block.seq == seq.toNat && e.phase == .writing) = some e →
    (s.stream k).burst = [] → e.retries < 3 → ((s.stream k).region.filter (fun x => x.block.seq == seq.toNat)).length = 1 →
    Ends (.blockWriteDone t k seq false) s (fun u => u.dram = s.dram ∧ u.rd F.SKS_RETRY k = min (s.rd F.SKS_RETRY k + 1) (2 ^ F.SKS_RETRY.width - 1) ∧
    bitOf (u.rd F.SK_EVENT) 2 = true ∧ u.rd F.SKS_STATUS_RETRYING k = 1 ∧
    (u.stream k).region.any (fun x => x.block.seq == seq.toNat && x.phase == .writing && x.retries == e.retries + 1) = true)) ∧
  (∀ (t : Instant) (k : Fin 17) (seq : BitVec 64) (s : State) (e : SkSlot), (s.stream k).region.find? (fun e => e.block.seq == seq.toNat && e.phase == .writing) = some e →
    (s.stream k).burst = [] → 3 ≤ e.retries →
    Ends (.blockWriteDone t k seq false) s (fun u => u.dram = s.dram.writeBytes (s.slotAddr k e.block.seq) (blockBytes k (lostBlock k e.block s.recFlags)) ∧
    bitOf (u.rd F.SK_EVENT) 3 = true)) ∧
  (∀ (t : Instant) (k : Fin 17) (s : State) (e : SkSlot), (s.stream k).region.find? (fun e => e.phase == .exporting) = some e →
    (s.stream k).burst = [] →
    Ends (.exportDone t k) s (fun u => (u.stream k).region.any (fun x => x.block.seq == e.block.seq && x.phase == .consumed) = true ∧
    (u.stream k).outBytes = (s.stream k).outBytes + 4096)) ∧
  (∀ (t : Instant) (k : Fin 17) (seq : BitVec 64) (s : State), s.admits (0x501028 + 0x80 * k) = true → s.rd F.SKS_CONSUMED k ≤ seq.toNat →
    seq.toNat ≤ s.rd F.SKS_VISIBLE k → (s.stream k).shown = true → Ends (.stConsumedWrite t k seq) s (fun u => u.rd F.SKS_CONSUMED k = seq.toNat ∧
    (u.stream k).ring = (s.stream k).ring.filter (fun q => decide (seq.toNat < q)))) ∧
  (∀ (t : Instant) (k : Fin 17) (seq : BitVec 64) (s : State), s.admits (0x501028 + 0x80 * k) = true → (seq.toNat < s.rd F.SKS_CONSUMED k ∨
    s.rd F.SKS_VISIBLE k < seq.toNat) → Ends (.stConsumedWrite t k seq) s (fun u => u.rd F.SKS_CONSUMED k = s.rd F.SKS_CONSUMED k ∧
    bitOf (u.rd F.SK_EVENT) 6 = true ∧ (u.stream k).ring = (s.stream k).ring)) ∧
  (∀ (t : Instant) (k : Fin 17) (seq : BitVec 64) (s : State), s.mayExecute 0xC k (fun c => c.arg0 + 2 ^ 32 * c.arg1 == seq.toNat) = true →
    s.rd F.SKS_CTRL_EXPORT k = 2 → (s.stream k).region.any (fun e => e.block.seq == seq.toNat && e.phase == .consumed) = true →
    Ends (.resendBlock t k seq) s (fun u => (u.stream k).outBytes = (s.stream k).outBytes + 4096 ∧ (u.stream k).region = (s.stream k).region)) ∧
  (∀ (t : Instant) (k : Fin 17) (seq : BitVec 64) (s : State), s.mayExecute 0xC k (fun c => c.arg0 + 2 ^ 32 * c.arg1 == seq.toNat) = true →
    s.rd F.SKS_CTRL_EXPORT k ≠ 2 → Ends (.resendBlock t k seq) s (fun u => bitOf (u.rd F.SK_EVENT) 7 = true ∧
    (u.stream k).outBytes = (s.stream k).outBytes))

/-! ### Sequencers, capture sets and mask units (08) -/

/-- ARM of a sequencer of a partition whose Treadle is IDLE or ABORTING starts it in state 0 and arms its idle set;
while the Treadle runs the ARM is dropped with its event.  DISARM stops it.  A sample at which a condition of the
current state holds enters that condition's next state.  After PRE_NS a filling set is READY; FORCE, and AUTO once its
time is due, fire a READY set at this instant; a FORCE of another set is counted as missed, but for one ordered after a DISARM of
its instant, and so is an AUTO due at the instant of a fire that was ordered before it. -/
def Obligations.SequencersRunAndFireTheirSets : Prop :=
  (∀ (t : Instant) (n : Fin 32) (s : State) (p : Fin 16), s.admits (0x600000 + 0x800 * n) = true → s.ownerTS n = some p.val →
    (s.rd F.TR_STATUS_STATE p = 0 ∨ s.rd F.TR_STATUS_STATE p = 3) → 500 ≤ s.rd F.TS_PERIOD n → s.rd F.TS_PERIOD n ≤ 1000000000 →
    s.rd F.TS_PHASE n < s.rd F.TS_PERIOD n → Ends (.tsArm t n) s (fun u => u.rd F.TS_STATUS_RUNNING n = 1 ∧ u.rd F.TS_STATUS_STATE n = 0 ∧
    (u.seq n).armedAt = (s.advance t).now ∧ (u.seq n).events = [] ∧ (s.capState n = 0 → ((s.advance t).armSetResult n).2 = 0 → u.capState n = 1))) ∧
  (∀ (t : Instant) (n : Fin 32) (s : State) (p : Fin 16), s.admits (0x600000 + 0x800 * n) = true → s.ownerTS n = some p.val →
    s.rd F.TR_STATUS_STATE p ≠ 0 → s.rd F.TR_STATUS_STATE p ≠ 3 → Ends (.tsArm t n) s (fun u => bitOf (u.rd F.TS_EVENT n) 2 = true ∧
    u.rd F.TS_STATUS_RUNNING n = s.rd F.TS_STATUS_RUNNING n ∧ u.trig = s.trig)) ∧
  (∀ (t : Instant) (n : Fin 32) (s : State), s.admits (0x600000 + 0x800 * n) = true →
    (s.ownerTS n).all (fun p => s.rd F.TR_STATUS_STATE p == 0 || s.rd F.TR_STATUS_STATE p == 3) = true →
    Ends (.tsDisarm t n) s (fun u => u.rd F.TS_STATUS_RUNNING n = 0 ∧ (s.capState n ≤ 2 → u.capState n = 0) ∧ (s.capState n = 3 →
    u.capState n = 4))) ∧
  (∀ (t : Instant) (n : Fin 32) (s : State) (e : Nat × Option Instant) (rest : List (Nat × Option Instant)), s.rd F.TS_STATUS_RUNNING n ≠ 0 →
    s.rd F.WARP_STATUS_COARSE = 0 → onGrid (s.rd F.TS_PERIOD n) (s.rd F.TS_PHASE n) (s.advance t).now = true →
    earlier (s.advance t).now (s.seq n).armedAt = false →
    (s.advance t).trueConds n (s.rd F.TS_STATUS_STATE n) (min ((s.seq n).counters.get (s.rd F.TS_STATUS_STATE n) 0 + (s.advance t).countedEvents n (s.rd F.TS_STATUS_STATE n)) (2 ^ 32 - 1)) = e :: rest →
    Ends (.tsSample t n) s (fun u => u.rd F.TS_STATUS_STATE n = s.rd F.TS_COND_CFG_NEXT (4 * (16 * n + s.rd F.TS_STATUS_STATE n) + e.1) % 2 ^ F.TS_STATUS_STATE.width ∧
    (u.seq n).entered = (s.advance t).now)) ∧
  (∀ (t : Instant) (n : Fin 32) (s : State), s.capState n = 1 → notLater (addNs (s.cset n).filling (s.cset n).preNs) (s.advance t).now = true →
    Ends (.captureReady t n) s (fun u => u.capState n = 2 ∧ (u.cset n).ready = addNs (s.cset n).filling (s.cset n).preNs)) ∧
  (∀ (t : Instant) (n : Fin 32) (s : State), s.admits (0x610000 + 0x100 * n) = true → s.capState n = 2 →
    Ends (.force t n) s (fun u => u.capState n = 3 ∧ (u.cset n).trigT = (s.advance t).now ∧ u.rd F.TS_WORD n = 0x3000 ∧
    u.rdT F.TS_TRIG n = (s.advance t).now ∧ bitOf (u.rd F.TS_EVENT n) 0 = true)) ∧
  (∀ (t : Instant) (n : Fin 32) (s : State), s.admits (0x610000 + 0x100 * n) = true → s.capState n ≠ 2 →
    (s.cset n).disarmed ≠ some (s.advance t).now → Ends (.force t n) s (fun u => u.capState n = s.capState n ∧
    u.rd F.TS_MISSED n = min (s.rd F.TS_MISSED n + 1) (2 ^ F.TS_MISSED.width - 1) ∧ bitOf (u.rd F.TS_EVENT n) 1 = true ∧
    (u.cset n).missed = (s.cset n).missed + 1)) ∧
  (∀ (t : Instant) (n : Fin 32) (s : State), s.admits (0x610000 + 0x100 * n) = true → s.capState n ≠ 2 →
    (s.cset n).disarmed = some (s.advance t).now → Ends (.force t n) s (fun u => u.capState n = s.capState n ∧
    u.rd F.TS_MISSED n = s.rd F.TS_MISSED n ∧ u.trig = s.trig)) ∧
  (∀ (t : Instant) (n : Fin 32) (s : State), s.capState n = 2 → s.rd F.CS_AUTO_US n ≠ 0 →
    notLater (addNs (s.cset n).ready (1000 * s.rd F.CS_AUTO_US n)) (s.advance t).now = true → Ends (.autoFire t n) s (fun u => u.capState n = 3 ∧
    (u.cset n).trigT = (s.advance t).now ∧ u.rd F.TS_WORD n = 0x2000)) ∧
  (∀ (t : Instant) (n : Fin 32) (s : State), s.capState n = 3 → (s.cset n).trigT = (s.advance t).now → (s.cset n).word / 2 ^ 12 % 2 ^ 4 ≠ 2 →
    s.rd F.CS_AUTO_US n ≠ 0 → addNs (s.cset n).ready (1000 * s.rd F.CS_AUTO_US n) = (s.advance t).now → (s.cset n).disarmed ≠ some (s.advance t).now →
    Ends (.autoFire t n) s (fun u => u.capState n = 3 ∧ u.rd F.TS_MISSED n = min (s.rd F.TS_MISSED n + 1) (2 ^ F.TS_MISSED.width - 1) ∧
    (u.cset n).missed = (s.cset n).missed + 1))

/-- A sample of a channel on a value route goes into the pre-trigger window of its filling set.  At T + POST_NS the set writes its
slot; when that is complete the slot lies byte for byte in DRAM, CAP_SEQ rises by one, a set without REARM is IDLE, and one with it
fills again, or is DONE and waits for its next slot.  CS_CONSUMED and CS_CHUNK_ACK take values in range, and refuse the others. -/
def Obligations.CapturesEndAndAreConsumed : Prop :=
  (∀ (t : Instant) (n : Fin 256) (s : State) (ch : CapChan), s.rd F.CH_CFG_TIMED n = 0 → s.rd F.CH_SRC_KIND n = 2 → s.rd F.CH_SRC_SET n < 32 →
    onGrid (s.rd F.CH_PERIOD n) 0 (s.advance t).now = true → (s.cset (s.rd F.CH_SRC_SET n)).chans.find n = some ch →
    earlier (s.advance t).now (s.cset (s.rd F.CH_SRC_SET n)).filling = false → s.capState (s.rd F.CH_SRC_SET n) = 1 →
    Ends (.channelSample t n) s (fun u => (u.cset (s.rd F.CH_SRC_SET n)).chans.find n = some { ch with pre := putPre ch.nPre ch.pre ((s.advance t).now, s.chanValue n) })) ∧
  (∀ (t : Instant) (n : Fin 32) (s : State), s.capState n = 3 → notLater (addNs (s.cset n).trigT (s.cset n).postNs) (s.advance t).now = true →
    (s.cset n).items = [] → Ends (.captureEnd t n) s (fun u => u.capState n = 4 ∧ (u.cset n).end_ = addNs (s.cset n).trigT (s.cset n).postNs ∧
    u.dram = s.dram)) ∧
  (∀ (t : Instant) (n : Fin 32) (s : State), s.capState n = 4 → (s.cset n).items = [] → s.rd F.CS_CTRL_REARM n = 0 →
    Ends (.captureSlotDone t n) s (fun u => u.capState n = 0 ∧ u.rd F.CS_CAP_SEQ n = (s.rd F.CS_CAP_SEQ n + 1) % 2 ^ F.CS_CAP_SEQ.width ∧
    bitOf (u.rd F.CS_EVENT n) 0 = true ∧ u.dram = s.dram.writeBytes (s.slotBase n (s.rd F.CS_CAP_SEQ n)) (s.slotHead n (s.capDigest n).toNat))) ∧
  (∀ (t : Instant) (n : Fin 32) (s : State), s.capState n = 4 → (s.cset n).items = [] → s.rd F.CS_CTRL_REARM n ≠ 0 →
    s.rd F.CS_CAP_SEQ n + 1 < 2 ^ 64 → Ends (.captureSlotDone t n) s (fun u => u.rd F.CS_CAP_SEQ n = s.rd F.CS_CAP_SEQ n + 1 ∧
    u.capState n = (if s.rd F.CS_CAP_SEQ n + 1 < s.rd F.CS_SLOT_CFG_SLOTS n ∨
    s.rd F.CS_CAP_SEQ n + 1 - s.rd F.CS_SLOT_CFG_SLOTS n < s.rd F.CS_CONSUMED n then 1 else 5))) ∧
  (∀ (t : Instant) (n : Fin 32) (seq : BitVec 64) (s : State), s.admits (0x610034 + 0x100 * n) = true → s.rd F.CS_CONSUMED n ≤ seq.toNat →
    seq.toNat ≤ s.rd F.CS_CAP_SEQ n → Ends (.csConsumedWrite t n seq) s (fun u => u.rd F.CS_CONSUMED n = seq.toNat ∧ (s.capState n ≠ 5 →
    u.capState n = s.capState n))) ∧
  (∀ (t : Instant) (n : Fin 32) (seq : BitVec 64) (s : State), s.admits (0x610034 + 0x100 * n) = true → (seq.toNat < s.rd F.CS_CONSUMED n ∨
    s.rd F.CS_CAP_SEQ n < seq.toNat) → Ends (.csConsumedWrite t n seq) s (fun u => u.rd F.CS_CONSUMED n = s.rd F.CS_CONSUMED n ∧
    bitOf (u.rd F.CS_EVENT n) 6 = true ∧ u.trig = s.trig)) ∧
  (∀ (t : Instant) (n : Fin 32) (count : BitVec 13) (s : State), s.admits (0x610040 + 0x100 * n) = true →
    (s.cset n).acked + (count.toNat + 8192 - (s.cset n).acked % 8192) % 8192 ≤ (s.cset n).chunk →
    Ends (.chunkAck t n count) s (fun u => u.rd F.CS_CHUNK_ACK n = count.toNat ∧
    (u.cset n).acked = (s.cset n).acked + (count.toNat + 8192 - (s.cset n).acked % 8192) % 8192)) ∧
  (∀ (t : Instant) (n : Fin 32) (count : BitVec 13) (s : State), s.admits (0x610040 + 0x100 * n) = true →
    (s.cset n).chunk < (s.cset n).acked + (count.toNat + 8192 - (s.cset n).acked % 8192) % 8192 →
    Ends (.chunkAck t n count) s (fun u => u.rd F.CS_CHUNK_ACK n = s.rd F.CS_CHUNK_ACK n ∧ u.trig = s.trig))

/-- LOAD_ENVELOPE puts an envelope that passes every check into its DRAM region and gives it to the partition; for
another only RESULT changes.  ARM of a mask unit begins to fetch a loaded envelope's points and, once they have come,
the unit is ARMED from its next grid instant.  DISARM ends it.  A sample without the points it needs is counted
UNTESTED; with them VIOL_RUN counts the samples outside the bounds one after another. -/
def Obligations.MaskUnitsTestTheirEnvelope : Prop :=
  (∀ (t : Instant) (p : Fin 16) (img : Envelope) (s : State), s.mayExecute 3 p anyArgs = true → (s.advance t).envResult p img = 0 →
    Ends (.loadEnvelope t p img true) s (fun u => u.rd F.ENV_LOAD = 0 ∧ u.trig.envs.find img.env = some (p.val, img.count) ∧
    ((s.waiting p).all (fun c => c.eth) = true → u.dram = s.dram.writeBytes (s.pointAddr img.env 0) (img.points.map pointBytes).flatten))) ∧
  (∀ (t : Instant) (p : Fin 16) (img : Envelope) (s : State), s.mayExecute 3 p anyArgs = true → (s.advance t).envResult p img ≠ 0 →
    Ends (.loadEnvelope t p img true) s (fun u => u.rd F.ENV_LOAD = (s.advance t).envResult p img ∧ u.trig = s.trig ∧
    ((s.waiting p).all (fun c => c.eth) = true → u.dram = s.dram))) ∧
  (∀ (t : Instant) (n : Fin 64) (s : State), s.admits (0x630000 + 0x40 * n) = true →
    (s.ownerMU n).all (fun p => s.rd F.TR_STATUS_STATE p == 0 || s.rd F.TR_STATUS_STATE p == 3) = true → s.maskLimits n = true →
    s.envOk n (s.rd F.MU_ENV n) = true → Ends (.muArm t n) s (fun u => (u.maskUnit n).fetching = some (s.rd F.MU_ENV n) ∧
    u.rd F.MU_STATUS_STATE n = s.rd F.MU_STATUS_STATE n)) ∧
  (∀ (t : Instant) (n : Fin 64) (s : State) (env : Nat), (s.maskUnit n).fetching = some env → s.maskLimits n = true → s.envOk n env = true →
    Ends (.pointFetchDone t n) s (fun u => u.rd F.MU_STATUS_STATE n = 1 ∧ u.rd F.MU_STATUS_ENV_NOW n = env % 2 ^ F.MU_STATUS_ENV_NOW.width ∧
    u.rdT F.MU_A n = nextGrid (s.rd F.MU_PERIOD n) (s.rd F.MU_PHASE n) (s.advance t).now ∧ u.rd F.MU_STATUS_VIOL_RUN n = 0)) ∧
  (∀ (t : Instant) (n : Fin 64) (s : State), s.admits (0x630000 + 0x40 * n) = true →
    (s.ownerMU n).all (fun p => s.rd F.TR_STATUS_STATE p == 0 || s.rd F.TR_STATUS_STATE p == 3) = true →
    Ends (.muDisarm t n) s (fun u => u.rd F.MU_STATUS_STATE n = 0 ∧ (u.maskUnit n).fetching = none)) ∧
  (∀ (t : Instant) (n : Fin 64) (s : State), s.rd F.MU_STATUS_STATE n = 1 → s.rd F.WARP_STATUS_COARSE = 0 →
    onGrid (s.rd F.MU_PERIOD n) (s.rd F.MU_PHASE n) (s.advance t).now = true → earlier (s.advance t).now (s.rdT F.MU_A n) = false →
    Ends (.muSample t n 0) s (fun u => u.rd F.MU_UNTESTED n = min (s.rd F.MU_UNTESTED n + 1) (2 ^ F.MU_UNTESTED.width - 1) ∧
    bitOf (u.rd F.MU_EVENT n) 2 = true ∧ u.rd F.MU_STATUS_VIOL_RUN n = 0 ∧ u.rd F.MU_STATUS_STATE n = 1)) ∧
  (∀ (t : Instant) (n : Fin 64) (have_ : Nat) (s : State), s.rd F.MU_STATUS_STATE n = 1 → s.rd F.WARP_STATUS_COARSE = 0 →
    onGrid (s.rd F.MU_PERIOD n) (s.rd F.MU_PHASE n) (s.advance t).now = true → earlier (s.advance t).now (s.rdT F.MU_A n) = false →
    (let count := (s.trig.envs.get (s.rd F.MU_STATUS_ENV_NOW n) (0, 0)).2; s.lastPoint (s.rd F.MU_STATUS_ENV_NOW n) count ((s.advance t).now - s.rdT F.MU_A n).toNat count 0 + 1 < have_) →
    Ends (.muSample t n have_) s (fun u => let env := s.rd F.MU_STATUS_ENV_NOW n; let count := (s.trig.envs.get env (0, 0)).2; let tau := ((s.advance t).now - s.rdT F.MU_A n).toNat; let b := s.bounds env count (s.lastPoint env count tau count 0) tau; let v := s.rdI F.VR_VALUE (s.rd F.MU_SRC n); u.rd F.MU_STATUS_VIOL_RUN n = (if v < b.1 ∨
    b.2 < v then min (s.rd F.MU_STATUS_VIOL_RUN n + 1) 255 else 0) ∧ u.rd F.MU_UNTESTED n = s.rd F.MU_UNTESTED n))

/-! ### The Loom (09) -/

/-- An edge passes a filter of 0 ns at once and otherwise waits; a level that has held for FILTER_NS is taken.  A LUT
element takes its function's value, a TON element starts its timer on a rise and puts out 1 when it expires.  An event
on a route is latched by the running sequencers whose state waits for it.  A stall records its source and takes the
partition to STOP, and so does a configuration frame that a scan finds bad, which is repaired, or lost where the copy
fails too. -/
def Obligations.InputsLogicAndRoutesOfTheLoom : Prop :=
  (∀ (t : Instant) (pin : Fin 192) (level : Bool) (s : State), s.cfg (pinKey pin) 2 2 = 0 →
    Ends (.fioInputEdge t pin level) s (fun u => (u.pin pin).raw = level ∧ (u.pin pin).level = level ∧
    (u.pin pin).stamp = (if (s.pin pin).level = level then (s.pin pin).stamp else (s.advance t).now))) ∧
  (∀ (t : Instant) (pin : Fin 192) (level : Bool) (s : State), s.cfg (pinKey pin) 2 2 ≠ 0 →
    Ends (.fioInputEdge t pin level) s (fun u => (u.pin pin).raw = level ∧ (u.pin pin).level = (s.pin pin).level ∧
    (u.pin pin).edge = some (s.advance t).now ∧ u.regs = (s.advance t).regs)) ∧
  (∀ (t : Instant) (pin : Fin 192) (s : State) (e : Instant), (s.pin pin).edge = some e →
    (s.cfg (pinKey pin) 2 2 : Int) ≤ sinceNs (s.advance t).now e → Ends (.filterTake t pin) s (fun u => (u.pin pin).level = (s.pin pin).raw ∧
    (u.pin pin).edge = none ∧ (u.pin pin).stamp = (if (s.pin pin).level = (s.pin pin).raw then (s.pin pin).stamp else e))) ∧
  (∀ (t : Instant) (n : Fin 16384) (since : Instant) (s : State), s.quadOn (n / 4096) = true → s.cfg (leKey n) 2 1 ≤ 1 →
    Ends (.leInputChange t n since) s (fun u => u.leOut n = s.lutValue n ∧ (u.le n).f = s.lutValue n)) ∧
  (∀ (t : Instant) (n : Fin 16384) (since : Instant) (s : State), s.quadOn (n / 4096) = true → s.cfg (leKey n) 2 1 = 2 → s.lutValue n = true →
    (s.le n).f = false → notLater (addNs since (1000 * s.cfg (leKey n) 4 4)) (s.advance t).now = false →
    Ends (.leInputChange t n since) s (fun u => u.le n = ⟨true, some (addNs since (1000 * s.cfg (leKey n) 4 4))⟩ ∧ u.leOut n = s.leOut n)) ∧
  (∀ (t : Instant) (n : Fin 16384) (s : State) (d : Instant), (s.le n).deadline = some d → notLater d (s.advance t).now = true →
    s.quadOn (n / 4096) = true → Ends (.leTimerExpiry t n) s (fun u => (u.le n).deadline = none ∧ u.leOut n = (if s.cfg (leKey n) 2 1 = 2 ∧
    (s.le n).f = true then true else if (s.cfg (leKey n) 2 1 = 3 ∧ (s.le n).f = false) ∨ s.cfg (leKey n) 2 1 = 4 then false else s.leOut n))) ∧
  (∀ (t : Instant) (er : Fin 8192) (data : Word) (s : State) (n : Fin 32) (i : Fin 4), s.quadOn (er / 2048) = true →
    s.trig.seqs.keys.contains n.val = true → s.rd F.TS_STATUS_RUNNING n ≠ 0 →
    s.rd F.TS_COND_CFG_KIND (4 * (16 * n + s.rd F.TS_STATUS_STATE n) + i) = 2 →
    s.rd F.TS_COND_CFG_SRC (4 * (16 * n + s.rd F.TS_STATUS_STATE n) + i) = er →
    Ends (.eventRouteEvent t er data) s (fun u => (u.seq n).events.contains (er.val, (s.advance t).now) = true)) ∧
  (∀ (t : Instant) (kind : Fin 3) (id : Fin 16384) (s : State), (kind.val = 2 → (s.fifo id).length < 4) →
    Ends (.routeStall t kind id) s (fun u => u.rd F.LOOM_STALL_SRC_KIND = kind ∧ u.rd F.LOOM_STALL_SRC_ID = id ∧ bitOf (u.rd F.LOOM_EVENT) 5 = true ∧
    bitOf (u.rd F.SYS_FAULT) 2 = true ∧ (kind.val = 0 → ∀ p ∈ List.range 16, s.owner (leKey id) = some p → u.inStop p = true))) ∧
  (∀ (t : Instant) (id : Fin 16384) (s : State), 4 ≤ (s.fifo id).length → Ends (.routeStall t 2 id) s (fun u => u = s.advance t)) ∧
  (∀ (t : Instant) (s : State) (faddr : Fin 1610612736) (p : Fin 16), s.owner faddr = some p.val →
    Ends (.configScan t [(faddr.val, false)]) s (fun u => u.rd F.LOOM_SCAN_ERR = faddr ∧
    u.rd F.LOOM_REPAIRS = min (s.rd F.LOOM_REPAIRS + 1) (2 ^ F.LOOM_REPAIRS.width - 1) ∧ bitOf (u.rd F.SYS_FAULT) 4 = true ∧
    bitOf (u.rd F.LP_EVENT p) 5 = true ∧ u.inStop p = true)) ∧
  (∀ (t : Instant) (s : State) (faddr : Fin 1610612736) (p : Fin 16), s.owner faddr = some p.val →
    Ends (.configScan t [(faddr.val, true)]) s (fun u => u.rd F.LOOM_SCAN_ERR = faddr ∧ u.rd F.LOOM_REPAIRS = s.rd F.LOOM_REPAIRS ∧
    u.rd F.LP_STATUS_FRAME_LOST p = 1 ∧ u.inStop p = true))

/-- A host write of an owned configuration record changes its shadow only.  EDIT_COMMIT in STOP sets the flip at the
next whole microsecond, which exchanges the copies of the records edited if the partition is then in STOP; EDIT_DISCARD drops what is pending.  LOAD_DRAFT installs a draft that passes every check.
APPLY in STOP with an idle Treadle and a valid slot begins an application, and is refused with RESULT 1, 2, 3 or 4
otherwise.  Once staged its flip is due; a failed verification restarts phase 1 once.  The flip exchanges the copies
of every record of the application; a good journal record makes the slot ACTIVE and ends the application with RESULT 0,
and a second failed one flips the partition back with RESULT 7. -/
def Obligations.EditsDraftsAndFlipsOfTheLoom : Prop :=
  (∀ (t : Instant) (offset : Fin 268435456) (value : Word) (s : State) (key p : Nat), s.admits offset = true → keyAt offset = some key →
    (findReg offset).isSome = true → (s.recOf key).owner = some p → s.rd F.LP_STATUS_APPLY_STATE p = 0 →
    badTapCfg key ((offset.val - (imageBase key).getD offset) / 4) value.toNat = false →
    Ends (.configFieldWrite t offset value) s (fun u => (u.recOf key).active = (s.recOf key).active ∧ (u.recOf key).edited = true ∧
    u.rd F.LP_STATUS_EDITS_PENDING p = 1)) ∧
  (∀ (t : Instant) (p : Fin 16) (s : State), s.admits (lpOff p) = true → s.inStop p = true → s.rd F.LP_STATUS_APPLY_STATE p = 0 →
    (s.applying p).flip = none → Ends (.editCommit t p) s (fun u => (u.applying p).flip = some (nextMicro (s.advance t).now, .edit) ∧
    u.loom.records = s.loom.records)) ∧
  (∀ (t : Instant) (p : Fin 16) (s : State), s.admits (lpOff p) = true → s.inStop p = false →
    Ends (.editCommit t p) s (fun u => bitOf (u.rd F.LP_EVENT p) 7 = true ∧ u.loom = s.loom)) ∧
  (∀ (t : Instant) (p : Fin 16) (s : State), s.admits (lpOff p) = true → Ends (.editDiscard t p) s (fun u => u.rd F.LP_STATUS_EDITS_PENDING p = 0 ∧
    (∀ key ∈ s.editedKeys p, u.recOf key = { s.recOf key with shadow := (s.recOf key).active, edited := false }))) ∧
  (∀ (t : Instant) (p : Fin 16) (s : State), (s.applying p).flip = some ((s.advance t).now, .edit) → s.inStop p = true → (s.editedKeys p).Nodup →
    Ends (.planeFlip t p) s (fun u => (u.applying p).flip = none ∧
    (∀ key ∈ s.editedKeys p, u.recOf key = { s.recOf key with active := (s.recOf key).shadow, shadow := (s.recOf key).active, edited := false }))) ∧
  (∀ (t : Instant) (p : Fin 16) (s : State), (s.applying p).flip = some ((s.advance t).now, .edit) → s.inStop p = false →
    Ends (.planeFlip t p) s (fun u => u.loom.records = s.loom.records)) ∧
  (∀ (t : Instant) (p : Fin 16) (img : DraftImg) (s : State), s.mayExecute 5 p anyArgs = true → img.partition = p → s.draftResult p img = 0 →
    Ends (.loadDraft t p img true) s (fun u => u.loom.drafts.find (8 * img.partition + img.slot) = some img ∧
    u.rd F.DS_STATE_STATE (8 * img.partition + img.slot) = 2 ∧ u.rd F.DS_STATE_RESULT (8 * img.partition + img.slot) = 0 ∧
    bitOf (u.rd F.LP_LIBRARY_VALID p) img.slot = true)) ∧
  (∀ (t : Instant) (p : Fin 16) (img : DraftImg) (s : State), s.mayExecute 5 p anyArgs = true → img.partition = p → img.slot ≤ 7 →
    s.draftResult p img ≠ 0 → Ends (.loadDraft t p img true) s (fun u => u.loom.drafts = s.loom.drafts ∧
    u.rd F.DS_STATE_RESULT (8 * img.partition + img.slot) = s.draftResult p img)) ∧
  (∀ (t : Instant) (p : Fin 16) (value : Word) (s : State), s.admits (lpOff p) = true → s.rd F.LP_STATUS_APPLY_STATE p = 0 →
    (s.applying p).flip = none → s.inStop p = true → s.rd F.TR_STATUS_STATE p = 0 → (value.toNat / 2 ^ 24 % 16 = 15 ∨
    s.rd F.DS_STATE_STATE (8 * p + value.toNat / 2 ^ 24 % 16) = 2) → value.toNat / 2 ^ 28 = s.rd F.LP_STATUS_ACTIVE p →
    Ends (.apply t p value) s (fun u => u.rd F.LP_STATUS_APPLY_STATE p = 1 ∧ (u.applying p).target = value.toNat / 2 ^ 24 % 16 ∧
    (u.applying p).previous = s.rd F.LP_STATUS_ACTIVE p ∧ u.rd F.LP_STATUS_ACTIVE p = s.rd F.LP_STATUS_ACTIVE p)) ∧
  (∀ (t : Instant) (p : Fin 16) (value : Word) (s : State), s.admits (lpOff p) = true → s.rd F.LP_STATUS_APPLY_STATE p = 0 →
    (s.applying p).flip = none → s.inStop p = false → Ends (.apply t p value) s (fun u => u.rd F.LP_STATUS_RESULT p = 1 ∧
    bitOf (u.rd F.LP_EVENT p) 1 = true ∧ u.rd F.LP_STATUS_APPLY_STATE p = 0 ∧ u.loom = s.loom)) ∧
  (∀ (t : Instant) (p : Fin 16) (value : Word) (s : State), s.admits (lpOff p) = true → s.rd F.LP_STATUS_APPLY_STATE p = 0 →
    (s.applying p).flip = none → s.inStop p = true → s.rd F.TR_STATUS_STATE p = 0 → value.toNat / 2 ^ 24 % 16 ≠ 15 →
    s.rd F.DS_STATE_STATE (8 * p + value.toNat / 2 ^ 24 % 16) ≠ 2 → Ends (.apply t p value) s (fun u => u.rd F.LP_STATUS_RESULT p = 2 ∧
    bitOf (u.rd F.LP_EVENT p) 1 = true ∧ u.rd F.LP_STATUS_APPLY_STATE p = 0 ∧ u.loom = s.loom)) ∧
  (∀ (t : Instant) (p : Fin 16) (value : Word) (s : State), s.admits (lpOff p) = true → s.rd F.LP_STATUS_APPLY_STATE p = 0 →
    (s.applying p).flip = none → s.inStop p = true → s.rd F.TR_STATUS_STATE p = 0 → (value.toNat / 2 ^ 24 % 16 = 15 ∨
    s.rd F.DS_STATE_STATE (8 * p + value.toNat / 2 ^ 24 % 16) = 2) → value.toNat / 2 ^ 28 ≠ s.rd F.LP_STATUS_ACTIVE p →
    Ends (.apply t p value) s (fun u => u.rd F.LP_STATUS_RESULT p = 3 ∧ bitOf (u.rd F.LP_EVENT p) 1 = true ∧ bitOf (u.rd F.LP_EVENT p) 2 = true ∧
    u.rd F.LP_STATUS_APPLY_STATE p = 0 ∧ u.loom = s.loom)) ∧
  (∀ (t : Instant) (p : Fin 16) (value : Word) (s : State), s.admits (lpOff p) = true → s.rd F.LP_STATUS_APPLY_STATE p ≠ 0 →
    Ends (.apply t p value) s (fun u => u.rd F.LP_STATUS_RESULT p = 4 ∧ bitOf (u.rd F.LP_EVENT p) 1 = true ∧
    u.rd F.LP_STATUS_APPLY_STATE p = s.rd F.LP_STATUS_APPLY_STATE p ∧ u.loom = s.loom)) ∧
  (∀ (t : Instant) (p : Fin 16) (s : State), s.rd F.LP_STATUS_APPLY_STATE p = 1 →
    Ends (.applyStaged t p true) s (fun u => u.rd F.LP_STATUS_APPLY_STATE p = 2 ∧ u.loom.records = s.loom.records ∧
    (u.applying p).flip = some (nextMicro (if s.rdT F.LP_AT p = 0 then (s.advance t).now else maxT (s.advance t).now (s.rdT F.LP_AT p)), .apply))) ∧
  (∀ (t : Instant) (p : Fin 16) (s : State), s.rd F.LP_STATUS_APPLY_STATE p = 1 → (s.applying p).verifyFails = 0 →
    Ends (.applyStaged t p false) s (fun u => u.rd F.LP_STATUS_APPLY_STATE p = 1 ∧ u.applying p = { s.applying p with verifyFails := 1 } ∧
    u.loom.records = s.loom.records)) ∧
  (∀ (t : Instant) (p : Fin 16) (s : State), s.rd F.LP_STATUS_APPLY_STATE p = 1 → (s.applying p).verifyFails ≠ 0 →
    Ends (.applyStaged t p false) s (fun u => u.rd F.LP_STATUS_APPLY_STATE p = 0 ∧ u.rd F.LP_STATUS_RESULT p = 5 ∧
    bitOf (u.rd F.LP_EVENT p) 1 = true ∧ (∀ key ∈ (s.applying p).keys, u.recOf key = { s.recOf key with shadow := (s.recOf key).active }))) ∧
  (∀ (t : Instant) (p : Fin 16) (s : State), (s.applying p).flip = some ((s.advance t).now, .apply) → (s.applying p).keys.Nodup →
    Ends (.planeFlip t p) s (fun u => u.rd F.LP_STATUS_APPLY_STATE p = 3 ∧ u.rdT F.LP_FLIP p = (s.advance t).now ∧ (u.applying p).flip = none ∧
    (∀ key ∈ (s.applying p).keys, u.recOf key = { s.recOf key with active := (s.recOf key).shadow, shadow := (s.recOf key).active, edited := false }))) ∧
  (∀ (t : Instant) (p : Fin 16) (s : State), s.rd F.LP_STATUS_APPLY_STATE p = 3 → (s.applying p).superseded = false → (s.applying p).flip = none →
    (s.applying p).target < 16 → Ends (.journalWriteDone t p true) s (fun u => u.rd F.LP_STATUS_ACTIVE p = (s.applying p).target ∧
    u.rd F.LP_STATUS_APPLY_STATE p = 0 ∧ u.rd F.LP_STATUS_RESULT p = 0 ∧ bitOf (u.rd F.LP_EVENT p) 0 = true)) ∧
  (∀ (t : Instant) (p : Fin 16) (s : State), s.rd F.LP_STATUS_APPLY_STATE p = 3 → (s.applying p).superseded = false → (s.applying p).flip = none →
    (s.applying p).journalFails = 0 → Ends (.journalWriteDone t p false) s (fun u => u.applying p = { s.applying p with journalFails := 1 } ∧
    u.rd F.LP_STATUS_APPLY_STATE p = 3)) ∧
  (∀ (t : Instant) (p : Fin 16) (s : State), s.rd F.LP_STATUS_APPLY_STATE p = 3 → (s.applying p).superseded = false → (s.applying p).flip = none →
    (s.applying p).journalFails ≠ 0 →
    Ends (.journalWriteDone t p false) s (fun u => (u.applying p).flip = some (nextGrid 1000 0 (s.advance t).now, .back) ∧ (u.applying p).result = 7 ∧
    u.rd F.LP_STATUS_APPLY_STATE p = 3 ∧ u.rd F.LP_STATUS_ACTIVE p = s.rd F.LP_STATUS_ACTIVE p)) ∧
  (∀ (t : Instant) (p : Fin 16) (s : State), (s.applying p).flip = some ((s.advance t).now, .back) → (s.applying p).keys.Nodup →
    (s.applying p).result ≠ 0 → (s.applying p).result < 16 → Ends (.planeFlip t p) s (fun u => u.rd F.LP_STATUS_APPLY_STATE p = 0 ∧
    u.rd F.LP_STATUS_RESULT p = (s.applying p).result ∧ bitOf (u.rd F.LP_EVENT p) 1 = true ∧ (u.applying p).flip = none ∧
    (∀ key ∈ (s.applying p).keys, u.recOf key = { s.recOf key with active := (s.recOf key).shadow, shadow := (s.recOf key).active, edited := false })))

/-! ### Shuttles, tasks and hardware queues (10) -/

/-- A submission that passes its checks takes a free slot of its partition and answers the task's handle; one that
fails a check is DENIED (-3), and one without a free slot waits, or is BUSY (-1) under NOWAIT or from the host.  A
cancel of a WAITING task, or of a READY one that has not run, wins and is counted; of a task that runs or is parked it
comes too late (1), by a stale handle it answers -4, of another partition's task -3.  A held flow is released by a
SUPERVISOR task or by the host; another release is refused.  QSTAT answers the value that its selector names.  A
misaligned operand is a program fault, which holds the task's flow with cause MISALIGN. -/
def Obligations.TasksSubmitCancelAndQueryBySlot : Prop :=
  (∀ (t : Instant) (sh : Fin 48) (addr : Word) (d : BitVec 512) (nowait : Bool) (qtmo : Word) (s : State) (i : Nat), s.runningOn sh = some i →
    addr.toNat % 64 = 0 → s.windowOk sh addr.toNat 64 0 = true →
    s.submitOk (s.task i).partition (TaskDesc.ofBytes d.toNat) (s.task i).desc.supervisor = true → s.slotFree (s.task i).partition = true →
    Ends (.qsub t sh addr d nowait qtmo) s (fun u => u.rd F.PS_USED (s.task i).partition = (s.rd F.PS_USED (s.task i).partition + 1) % 2 ^ F.PS_USED.width ∧
    u.rd F.SCHED_STATUS_FREE_SLOTS = s.rd F.SCHED_STATUS_FREE_SLOTS - 1 ∧ u.freeCtr = s.freeCtr + 1 ∧
    u.slotOf (u.shuttle sh).result.toNat = some ((u.shuttle sh).result.toNat % 4096) ∧
    (u.task ((u.shuttle sh).result.toNat % 4096)).partition = (s.task i).partition ∧
    (u.task ((u.shuttle sh).result.toNat % 4096)).desc = TaskDesc.ofBytes d.toNat)) ∧
  (∀ (t : Instant) (sh : Fin 48) (addr : Word) (d : BitVec 512) (nowait : Bool) (qtmo : Word) (s : State) (i : Nat), s.runningOn sh = some i →
    addr.toNat % 64 = 0 → s.windowOk sh addr.toNat 64 0 = true →
    s.submitOk (s.task i).partition (TaskDesc.ofBytes d.toNat) (s.task i).desc.supervisor = false →
    Ends (.qsub t sh addr d nowait qtmo) s (fun u => (u.shuttle sh).result = -3 ∧ u.sched.tasks = s.sched.tasks ∧ u.regs = (s.advance t).regs)) ∧
  (∀ (t : Instant) (sh : Fin 48) (addr : Word) (d : BitVec 512) (qtmo : Word) (s : State) (i : Nat), s.runningOn sh = some i → addr.toNat % 64 = 0 →
    s.windowOk sh addr.toNat 64 0 = true → s.submitOk (s.task i).partition (TaskDesc.ofBytes d.toNat) (s.task i).desc.supervisor = true →
    s.slotFree (s.task i).partition = false → Ends (.qsub t sh addr d true qtmo) s (fun u => (u.shuttle sh).result = -1 ∧
    u.sched.tasks = s.sched.tasks ∧
    u.rd F.PS_BUSY_CNT (s.task i).partition = min (s.rd F.PS_BUSY_CNT (s.task i).partition + 1) (2 ^ F.PS_BUSY_CNT.width - 1))) ∧
  (∀ (t : Instant) (sh : Fin 48) (addr : Word) (d : BitVec 512) (qtmo : Word) (s : State) (i : Nat), s.runningOn sh = some i → addr.toNat % 64 = 0 →
    s.windowOk sh addr.toNat 64 0 = true → s.submitOk (s.task i).partition (TaskDesc.ofBytes d.toNat) (s.task i).desc.supervisor = true →
    s.slotFree (s.task i).partition = false → s.sched.ready.contains i = false →
    Ends (.qsub t sh addr d false qtmo) s (fun u => (u.task i).phase = .parked ∧
    u.sched.claims = s.sched.claims ++ [((s.task i).partition, .qsub i)] ∧
    (u.task i).wait = some (.slot (TaskDesc.ofBytes d.toNat), addNs (s.advance t).now (1000 * (if qtmo = 0 then max 1 (s.rd F.PS_WAIT_DEFAULT (s.task i).partition) else qtmo.toNat))))) ∧
  (∀ (t : Instant) (sh : Fin 48) (addr : Word) (d : BitVec 512) (nowait : Bool) (qtmo : Word) (s : State) (i : Nat), s.runningOn sh = some i →
    addr.toNat % 64 ≠ 0 → s.slotUsed i = true → (s.task i).phase ≠ .ended → (s.task i).desc.noflow = false →
    Ends (.qsub t sh addr d nowait qtmo) s (fun u => u.rd F.FLOW_STATE_HELD (64 * (s.task i).partition + (s.task i).desc.flow) = 1 ∧
    u.rd F.FLOW_STATE_HELD_CAUSE (64 * (s.task i).partition + (s.task i).desc.flow) = 4)) ∧
  (∀ (t : Instant) (sh : Fin 48) (handle : Word) (s : State) (i j : Nat), s.runningOn sh = some i → s.slotOf handle.toNat = some j →
    (s.task j).partition = (s.task i).partition → ((s.task j).phase = .waiting ∨ ((s.task j).phase = .ready ∧ (s.task j).inflight = false)) →
    Ends (.qcan t sh handle) s (fun u => (u.shuttle sh).result = 0 ∧
    u.rd F.SCHED_CANCEL_CNT = min (s.rd F.SCHED_CANCEL_CNT + 1) (2 ^ F.SCHED_CANCEL_CNT.width - 1))) ∧
  (∀ (t : Instant) (sh : Fin 48) (handle : Word) (s : State) (i j : Nat), s.runningOn sh = some i → s.slotOf handle.toNat = some j →
    (s.task j).partition = (s.task i).partition → ((s.task j).phase = .running ∨ (s.task j).phase = .parked) →
    Ends (.qcan t sh handle) s (fun u => (u.shuttle sh).result = 1 ∧ (u.task j).cancelLate = true ∧ (u.task j).phase = (s.task j).phase ∧
    u.rd F.SCHED_CANCEL_LATE_CNT = min (s.rd F.SCHED_CANCEL_LATE_CNT + 1) (2 ^ F.SCHED_CANCEL_LATE_CNT.width - 1))) ∧
  (∀ (t : Instant) (sh : Fin 48) (handle : Word) (s : State) (i : Nat), s.runningOn sh = some i → s.slotOf handle.toNat = none →
    Ends (.qcan t sh handle) s (fun u => (u.shuttle sh).result = -4 ∧ u.sched.tasks = s.sched.tasks)) ∧
  (∀ (t : Instant) (sh : Fin 48) (handle : Word) (s : State) (i j : Nat), s.runningOn sh = some i → s.slotOf handle.toNat = some j →
    (s.task j).partition ≠ (s.task i).partition → Ends (.qcan t sh handle) s (fun u => (u.shuttle sh).result = -3 ∧ u.sched.tasks = s.sched.tasks)) ∧
  (∀ (t : Instant) (sh : Fin 48) (flow : Fin 64) (drop : Bool) (s : State) (i : Nat), s.runningOn sh = some i → (s.task i).desc.supervisor = true →
    s.rd F.FLOW_STATE_HELD (64 * (s.task i).partition + flow) ≠ 0 →
    Ends (.qrel t sh flow drop) s (fun u => u.rd F.FLOW_STATE_HELD (64 * (s.task i).partition + flow) = 0 ∧
    u.rd F.FLOW_STATE_HELD_CAUSE (64 * (s.task i).partition + flow) = 0 ∧ (u.shuttle sh).result = 0)) ∧
  (∀ (t : Instant) (sh : Fin 48) (flow : Fin 64) (drop : Bool) (s : State) (i : Nat), s.runningOn sh = some i → ((s.task i).desc.supervisor = false ∨
    s.rd F.FLOW_STATE_HELD (64 * (s.task i).partition + flow) = 0) → Ends (.qrel t sh flow drop) s (fun u => (u.shuttle sh).result = -3 ∧
    u.sched.flows = s.sched.flows)) ∧
  (∀ (t : Instant) (sh : Fin 48) (sel : Word) (s : State) (i : Nat), s.runningOn sh = some i →
    Ends (.qstat t sh sel) s (fun u => (u.shuttle sh).result = s.statValue sh i sel.toNat ∧ u.regs = (s.advance t).regs)) ∧
  (∀ (t : Instant) (p : Fin 16) (d : BitVec 512) (s : State), s.mayExecute 7 p anyArgs = true → s.nextFits p = true →
    s.submitOk p (TaskDesc.ofBytes d.toNat) true = true → s.slotFree p = true →
    Ends (.submitTask t p d) s (fun u => u.rd F.PS_USED p = (s.rd F.PS_USED p + 1) % 2 ^ F.PS_USED.width ∧
    u.rd F.SCHED_STATUS_FREE_SLOTS = s.rd F.SCHED_STATUS_FREE_SLOTS - 1 ∧ u.slotOf u.answer.result.toNat = some (u.answer.result.toNat % 4096) ∧
    (u.task (u.answer.result.toNat % 4096)).partition = p ∧ (u.task (u.answer.result.toNat % 4096)).desc = TaskDesc.ofBytes d.toNat)) ∧
  (∀ (t : Instant) (p : Fin 16) (d : BitVec 512) (s : State), s.mayExecute 7 p anyArgs = true → s.nextFits p = true →
    (s.submitOk p (TaskDesc.ofBytes d.toNat) true = false ∨ s.slotFree p = false) → Ends (.submitTask t p d) s (fun u => u.sched = s.sched ∧
    u.answer.result = (if s.submitOk p (TaskDesc.ofBytes d.toNat) true then -1 else -3))) ∧
  (∀ (t : Instant) (p : Fin 16) (handle : Word) (s : State) (j : Nat), s.mayExecute 8 p (fun c => c.arg0 == handle.toNat) = true →
    s.nextFits p = true → s.slotOf handle.toNat = some j → (s.task j).partition = p → ((s.task j).phase = .waiting ∨ ((s.task j).phase = .ready ∧
    (s.task j).inflight = false)) →
    Ends (.cancelTask t p handle) s (fun u => u.rd F.SCHED_CANCEL_CNT = min (s.rd F.SCHED_CANCEL_CNT + 1) (2 ^ F.SCHED_CANCEL_CNT.width - 1) ∧
    u.answer.result = 0)) ∧
  (∀ (t : Instant) (p : Fin 16) (handle : Word) (s : State), s.mayExecute 8 p (fun c => c.arg0 == handle.toNat) = true → s.nextFits p = true →
    s.slotOf handle.toNat = none → Ends (.cancelTask t p handle) s (fun u => u.sched = s.sched ∧ u.answer.result = -4)) ∧
  (∀ (t : Instant) (f : Fin 1024) (drop : Bool) (s : State), s.admits (0x806000 + 4 * f) = true → s.rd F.FLOW_STATE_HELD f ≠ 0 →
    Ends (.release t f drop) s (fun u => u.rd F.FLOW_STATE_HELD f = 0 ∧ u.rd F.FLOW_STATE_HELD_CAUSE f = 0)) ∧
  (∀ (t : Instant) (f : Fin 1024) (drop : Bool) (s : State), s.admits (0x806000 + 4 * f) = true → s.rd F.FLOW_STATE_HELD f = 0 →
    Ends (.release t f drop) s (fun u => bitOf (u.rd F.SCHED_EVENT) 4 = true ∧ u.sched = s.sched))

/-- A task without flow, successors or completion entry that ends, by QDONE, by a program fault or by its running-time
limit, gives its slot back.  One with a queue for completions puts its entry there; one with a successor that waits for
more lowers that task's count; one with a flow that ends well frees the flow, and one that ends by a program fault holds
it with the cause.  A yielding task is ready again at this instant.  A hardware fault is counted and sends the Shuttle
to its self-check, or OFFLINE at the third within 1 s, and an IDEMPOTENT task with retries left is retried.  A wait that
times out is counted and resumes its task.  A passed self-check returns the Shuttle to service, a failed one makes it
OFFLINE; RESTORE runs it again.  A dispatch mismatch is counted, and a second one sends every partition to STOP. -/
def Obligations.TasksEndRetryAndTimeOut : Prop :=
  (∀ (t : Instant) (sh : Fin 48) (code : Word) (s : State) (i : Nat), s.runningOn sh = some i → s.slotUsed i = true → (s.task i).phase ≠ .ended →
    (s.task i).desc.noflow = true → (s.task i).desc.nsucc = 0 → (s.task i).desc.cqEn = false → s.sched.claims = [] →
    Ends (.qdone t sh code) s (fun u => u.slotUsed i = false ∧ u.rd F.PS_USED (s.task i).partition = s.rd F.PS_USED (s.task i).partition - 1)) ∧
  (∀ (t : Instant) (sh : Fin 48) (code : Word) (s : State) (i : Nat), s.runningOn sh = some i → s.slotUsed i = true → (s.task i).phase ≠ .ended →
    (s.task i).desc.noflow = true → (s.task i).desc.nsucc = 0 → (s.task i).desc.cqEn = true → 0 < s.credits (s.task i).desc.cq →
    (s.queue (s.task i).desc.cq).poppers = [] → (s.queue (s.task i).desc.cq).pushers = [] →
    Ends (.qdone t sh code) s (fun u => (u.queue (s.task i).desc.cq).entries = (s.queue (s.task i).desc.cq).entries ++ [⟨1, b2n (s.task i).cancelLate + 2 * b2n (s.task i).poisoned + 4 * b2n ((s.task i).retries != 0), 257 * b2n (code != 0), s.handleOf i, (s.task i).desc.tag, code.toNat⟩])) ∧
  (∀ (t : Instant) (sh : Fin 48) (code : Word) (s : State) (i j h : Nat), s.runningOn sh = some i → s.slotUsed i = true → (s.task i).phase ≠ .ended →
    (s.task i).desc.nsucc = 1 → (s.task i).desc.succ = [h] → s.slotOf h = some j → i ≠ j → (s.task j).partition = (s.task i).partition →
    (s.task j).phase = .waiting → 1 < (s.task j).count →
    (s.flow (64 * (s.task i).partition + (s.task i).desc.flow)).all (fun k => !(s.task k).cancelled) = true → s.sched.ready.contains j = false →
    (s.flow (64 * (s.task i).partition + (s.task i).desc.flow)).contains j = false → (s.task i).desc.cqEn = false → s.sched.claims = [] →
    Ends (.qdone t sh code) s (fun u => (u.task j).count = (s.task j).count - 1 ∧ (u.task j).phase = .waiting ∧
    (u.task j).poisoned = ((s.task j).poisoned || code != 0))) ∧
  (∀ (t : Instant) (sh : Fin 48) (code : Word) (s : State) (i : Nat), s.runningOn sh = some i → s.slotUsed i = true → (s.task i).phase ≠ .ended →
    (s.task i).desc.noflow = false → (s.task i).inflight = true → (s.task i).desc.nsucc = 0 → (s.task i).desc.cqEn = false → s.sched.claims = [] →
    s.flow (64 * (s.task i).partition + (s.task i).desc.flow) = [] → s.sched.ready = [] → Ends (.qdone t sh code) s (fun u => u.slotUsed i = false ∧
    u.rd F.FLOW_STATE_IN_SERVICE (64 * (s.task i).partition + (s.task i).desc.flow) = 0)) ∧
  (∀ (t : Instant) (sh : Fin 48) (s : State) (i : Nat), s.runningOn sh = some i → s.sched.ready.contains i = false →
    Ends (.qyield t sh) s (fun u => (u.task i).readyAt = (s.advance t).now ∧ ((u.task i).phase = .ready ∨ (u.task i).phase = .running))) ∧
  (∀ (t : Instant) (sh : Fin 48) (cause : TaskCause) (detail : Word) (s : State) (i : Nat), s.runningOn sh = some i → 2 ≤ cause.code →
    cause.code < 16 → s.slotUsed i = true → (s.task i).phase ≠ .ended → (s.task i).desc.noflow = true → (s.task i).desc.nsucc = 0 →
    (s.task i).desc.cqEn = false → s.sched.claims = [] → Ends (.taskFault t sh cause detail) s (fun u => u.slotUsed i = false ∧
    u.rd F.SH_FAULTS_COUNT sh = s.rd F.SH_FAULTS_COUNT sh)) ∧
  (∀ (t : Instant) (sh : Fin 48) (cause : TaskCause) (detail : Word) (s : State) (i : Nat), s.runningOn sh = some i → 2 ≤ cause.code →
    cause.code < 16 → s.slotUsed i = true → (s.task i).phase ≠ .ended → (s.task i).desc.noflow = false →
    Ends (.taskFault t sh cause detail) s (fun u => u.rd F.FLOW_STATE_HELD (64 * (s.task i).partition + (s.task i).desc.flow) = 1 ∧
    u.rd F.FLOW_STATE_HELD_CAUSE (64 * (s.task i).partition + (s.task i).desc.flow) = cause.code ∧ bitOf (u.rd F.SCHED_EVENT) 2 = true)) ∧
  (∀ (t : Instant) (sh : Fin 48) (cause : TaskCause) (detail : Word) (s : State) (i : Nat), s.runningOn sh = some i → 16 ≤ cause.code →
    (s.task i).desc.idempotent = true → (s.task i).retries < (s.task i).desc.retryMax →
    ((s.shuttle sh).faults.filter (fun f => decide (sinceNs (s.advance t).now f ≤ 1000000000))).length < 2 →
    Ends (.taskFault t sh cause detail) s (fun u => u.rd F.SH_STATUS_STATE sh = 2 ∧ u.rd F.SH_FAULTS_LAST_CAUSE sh = cause.code ∧
    (u.task i).retries = (s.task i).retries + 1 ∧ u.rd F.SCHED_RETRY_CNT = min (s.rd F.SCHED_RETRY_CNT + 1) (2 ^ F.SCHED_RETRY_CNT.width - 1))) ∧
  (∀ (t : Instant) (sh : Fin 48) (cause : TaskCause) (detail : Word) (s : State) (i : Nat), s.runningOn sh = some i → 16 ≤ cause.code →
    2 ≤ ((s.shuttle sh).faults.filter (fun f => decide (sinceNs (s.advance t).now f ≤ 1000000000))).length →
    Ends (.taskFault t sh cause detail) s (fun u => u.rd F.SH_STATUS_STATE sh = 3 ∧ u.rd F.SH_FAULTS_LAST_CAUSE sh = cause.code ∧
    bitOf (u.rd F.SCHED_EVENT) 1 = true)) ∧
  (∀ (t : Instant) (sh : Fin 48) (cause : TaskCause) (detail : Word) (s : State) (i : Nat), s.runningOn sh = some i → 16 ≤ cause.code →
    ((s.task i).desc.idempotent = false ∨ (s.task i).desc.retryMax ≤ (s.task i).retries) → s.slotUsed i = true → (s.task i).phase ≠ .ended →
    (s.task i).desc.noflow = true → (s.task i).desc.nsucc = 0 → (s.task i).desc.cqEn = false → s.sched.claims = [] →
    Ends (.taskFault t sh cause detail) s (fun u => u.slotUsed i = false ∧ u.rd F.SH_FAULTS_LAST_CAUSE sh = cause.code ∧
    u.rd F.SCHED_RETRY_CNT = s.rd F.SCHED_RETRY_CNT)) ∧
  (∀ (t : Instant) (sh : Fin 48) (again : Bool) (detail : Word) (s : State),
    Ends (.taskFault t sh (.dispatch again) detail) s (fun u => u.rd F.SCHED_MISMATCH_CNT = min (s.rd F.SCHED_MISMATCH_CNT + 1) (2 ^ F.SCHED_MISMATCH_CNT.width - 1) ∧
    bitOf (u.rd F.SYS_FAULT) 8 = true ∧ bitOf (u.rd F.SCHED_EVENT) 0 = true ∧ (again = true → ∀ p ∈ List.range 16, u.inStop p = true))) ∧
  (∀ (t : Instant) (sh : Fin 48) (s : State) (i : Nat), s.runningOn sh = some i → (s.task i).desc.runMs ≠ 0 →
    16000000 * (s.task i).desc.runMs ≤ (s.task i).ran + ((s.advance t).now - (s.task i).runFrom).toNat → s.slotUsed i = true →
    (s.task i).phase ≠ .ended → (s.task i).desc.noflow = true → (s.task i).desc.nsucc = 0 → (s.task i).desc.cqEn = false → s.sched.claims = [] →
    Ends (.runtimeExpiry t sh) s (fun u => u.slotUsed i = false)) ∧
  (∀ (t : Instant) (sh : Fin 48) (s : State) (i : Nat), s.runningOn sh = some i → (s.task i).desc.runMs ≠ 0 →
    16000000 * (s.task i).desc.runMs ≤ (s.task i).ran + ((s.advance t).now - (s.task i).runFrom).toNat → s.slotUsed i = true →
    (s.task i).phase ≠ .ended → (s.task i).desc.noflow = false →
    Ends (.runtimeExpiry t sh) s (fun u => u.rd F.FLOW_STATE_HELD (64 * (s.task i).partition + (s.task i).desc.flow) = 1 ∧
    u.rd F.FLOW_STATE_HELD_CAUSE (64 * (s.task i).partition + (s.task i).desc.flow) = 5)) ∧
  (∀ (t : Instant) (slot : Fin 4096) (s : State) (w : WaitFor) (d : Instant), (s.task slot).phase = .parked → (s.task slot).wait = some (w, d) →
    s.slotUsed slot = true → notLater d (s.advance t).now = true → Ends (.waitTimeout t slot) s (fun u => (u.task slot).wait = none ∧
    u.rd F.SCHED_TIMEOUT_CNT = min (s.rd F.SCHED_TIMEOUT_CNT + 1) (2 ^ F.SCHED_TIMEOUT_CNT.width - 1) ∧
    (∀ h ∈ List.range 128, (u.queue h).entries = (s.queue h).entries))) ∧
  (∀ (t : Instant) (sh : Fin 48) (s : State), s.rd F.SH_STATUS_STATE sh = 2 →
    Ends (.selfCheckDone t sh true) s (fun u => u.rd F.SH_STATUS_STATE sh = 0 ∨ u.rd F.SH_STATUS_STATE sh = 1)) ∧
  (∀ (t : Instant) (sh : Fin 48) (s : State), s.rd F.SH_STATUS_STATE sh = 2 → s.sched.ready = [] →
    Ends (.selfCheckDone t sh true) s (fun u => u.rd F.SH_STATUS_STATE sh = 0)) ∧
  (∀ (t : Instant) (sh : Fin 48) (s : State), s.rd F.SH_STATUS_STATE sh = 2 →
    Ends (.selfCheckDone t sh false) s (fun u => u.rd F.SH_STATUS_STATE sh = 3 ∧ bitOf (u.rd F.SCHED_EVENT) 1 = true)) ∧
  (∀ (t : Instant) (sh : Fin 48) (s : State), s.admits (0x80300C + 0x10 * sh) = true → s.rd F.SH_STATUS_STATE sh = 3 →
    Ends (.restore t sh) s (fun u => u.rd F.SH_STATUS_STATE sh = 2))

/-- A push of an allowed entry on a queue with a credit puts it after the entries there; a pop takes the first and
stores its 16 bytes at the address given.  Without a credit or an entry NOWAIT answers BUSY (-1), and otherwise the task
waits; a queue of another partition or of the wrong kind, or an entry of a reserved TYPE, answers DENIED (-3) and the
queues keep their entries.  A misaligned operand is a program fault, which holds the task's flow with cause MISALIGN. -/
def Obligations.HardwareQueuesKeepTheirOrder : Prop :=
  (∀ (t : Instant) (sh : Fin 48) (h : Fin 128) (addr : Word) (e : QEntry) (nowait : Bool) (qtmo : Word) (s : State) (i : Nat), s.runningOn sh = some i →
    addr.toNat % 16 = 0 → s.windowOk sh addr.toNat 16 0 = true → s.owner (queueKey h) = some (s.task i).partition → s.rd F.HQ_CFG_KIND h ≠ 2 →
    (e.type = 0 ∨ 0x80 ≤ e.type) → 0 < s.credits h → (s.queue h).poppers = [] → (s.queue h).pushers = [] →
    Ends (.qpush t sh h addr e nowait qtmo) s (fun u => (u.queue h).entries = (s.queue h).entries ++ [e] ∧
    u.rd F.HQ_PUSH_CNT h = (s.rd F.HQ_PUSH_CNT h + 1) % 2 ^ F.HQ_PUSH_CNT.width ∧
    u.rd F.HQ_DEPTH h = ((s.queue h).entries.length + 1) % 2 ^ F.HQ_DEPTH.width ∧ (u.shuttle sh).result = 0)) ∧
  (∀ (t : Instant) (sh : Fin 48) (h : Fin 128) (addr : Word) (e : QEntry) (qtmo : Word) (s : State) (i : Nat), s.runningOn sh = some i →
    addr.toNat % 16 = 0 → s.windowOk sh addr.toNat 16 0 = true → s.owner (queueKey h) = some (s.task i).partition → s.rd F.HQ_CFG_KIND h ≠ 2 →
    (e.type = 0 ∨ 0x80 ≤ e.type) → s.credits h = 0 → Ends (.qpush t sh h addr e true qtmo) s (fun u => (u.shuttle sh).result = -1 ∧
    u.sched.queues = s.sched.queues ∧ u.rd F.HQ_BUSY_CNT h = min (s.rd F.HQ_BUSY_CNT h + 1) (2 ^ F.HQ_BUSY_CNT.width - 1))) ∧
  (∀ (t : Instant) (sh : Fin 48) (h : Fin 128) (addr : Word) (e : QEntry) (qtmo : Word) (s : State) (i : Nat), s.runningOn sh = some i →
    addr.toNat % 16 = 0 → s.windowOk sh addr.toNat 16 0 = true → s.owner (queueKey h) = some (s.task i).partition → s.rd F.HQ_CFG_KIND h ≠ 2 →
    (e.type = 0 ∨ 0x80 ≤ e.type) → s.credits h = 0 → s.sched.ready.contains i = false →
    Ends (.qpush t sh h addr e false qtmo) s (fun u => (u.task i).phase = .parked ∧ (u.queue h).entries = (s.queue h).entries ∧
    (u.queue h).pushers = (s.queue h).pushers ++ [.task i])) ∧
  (∀ (t : Instant) (sh : Fin 48) (h : Fin 128) (addr : Word) (e : QEntry) (nowait : Bool) (qtmo : Word) (s : State) (i : Nat), s.runningOn sh = some i →
    addr.toNat % 16 = 0 → s.windowOk sh addr.toNat 16 0 = true → (s.owner (queueKey h) ≠ some (s.task i).partition ∨ s.rd F.HQ_CFG_KIND h = 2 ∨
    (1 ≤ e.type ∧ e.type ≤ 0x7F)) → Ends (.qpush t sh h addr e nowait qtmo) s (fun u => (u.shuttle sh).result = -3 ∧ u.sched.queues = s.sched.queues ∧
    u.regs = (s.advance t).regs)) ∧
  (∀ (t : Instant) (sh : Fin 48) (h : Fin 128) (addr : Word) (e : QEntry) (nowait : Bool) (qtmo : Word) (s : State) (i : Nat), s.runningOn sh = some i →
    addr.toNat % 16 ≠ 0 → s.slotUsed i = true → (s.task i).phase ≠ .ended → (s.task i).desc.noflow = false →
    Ends (.qpush t sh h addr e nowait qtmo) s (fun u => u.rd F.FLOW_STATE_HELD (64 * (s.task i).partition + (s.task i).desc.flow) = 1 ∧
    u.rd F.FLOW_STATE_HELD_CAUSE (64 * (s.task i).partition + (s.task i).desc.flow) = 4)) ∧
  (∀ (t : Instant) (sh : Fin 48) (h : Fin 128) (addr : Word) (nowait : Bool) (qtmo : Word) (s : State) (i : Nat) (e : QEntry) (rest : List QEntry), s.runningOn sh = some i →
    addr.toNat % 16 = 0 → s.windowOk sh addr.toNat 16 1 = true → s.owner (queueKey h) = some (s.task i).partition → s.rd F.HQ_CFG_KIND h ≠ 1 →
    (s.queue h).entries = e :: rest → (s.queue h).pushers = [] → (s.queue h).poppers = [] →
    Ends (.qpop t sh h addr nowait qtmo) s (fun u => (u.queue h).entries = rest ∧ (u.shuttle sh).result = 0)) ∧
  (∀ (t : Instant) (sh : Fin 48) (h : Fin 128) (addr : Word) (nowait : Bool) (qtmo : Word) (s : State) (i : Nat) (e : QEntry) (rest : List QEntry) (a : Nat × Nat), s.runningOn sh = some i →
    addr.toNat % 16 = 0 → s.windowOk sh addr.toNat 16 1 = true → s.owner (queueKey h) = some (s.task i).partition → s.rd F.HQ_CFG_KIND h ≠ 1 →
    (s.queue h).entries = e :: rest → (s.queue h).pushers = [] → (s.queue h).poppers = [] → shuttlePlace (s.task i).partition sh addr.toNat = some a →
    s.sched.ready = [] → Ends (.qpop t sh h addr nowait qtmo) s (fun u => (a.1 = 2 → u.dlm = s.dlm.writeBytes a.2 e.bytes) ∧ (a.1 = 1 →
    u.dram = s.dram.writeBytes a.2 e.bytes) ∧ (a.1 = 0 → u.sram = s.sram.writeBytes a.2 e.bytes))) ∧
  (∀ (t : Instant) (sh : Fin 48) (h : Fin 128) (addr : Word) (qtmo : Word) (s : State) (i : Nat), s.runningOn sh = some i → addr.toNat % 16 = 0 →
    s.windowOk sh addr.toNat 16 1 = true → s.owner (queueKey h) = some (s.task i).partition → s.rd F.HQ_CFG_KIND h ≠ 1 → (s.queue h).entries = [] →
    Ends (.qpop t sh h addr true qtmo) s (fun u => (u.shuttle sh).result = -1 ∧ u.sched.queues = s.sched.queues)) ∧
  (∀ (t : Instant) (sh : Fin 48) (h : Fin 128) (addr : Word) (qtmo : Word) (s : State) (i : Nat), s.runningOn sh = some i → addr.toNat % 16 = 0 →
    s.windowOk sh addr.toNat 16 1 = true → s.owner (queueKey h) = some (s.task i).partition → s.rd F.HQ_CFG_KIND h ≠ 1 → (s.queue h).entries = [] →
    s.sched.ready.contains i = false → Ends (.qpop t sh h addr false qtmo) s (fun u => (u.task i).phase = .parked ∧ (u.queue h).entries = [] ∧
    (u.queue h).poppers = (s.queue h).poppers ++ [i])) ∧
  (∀ (t : Instant) (sh : Fin 48) (h : Fin 128) (addr : Word) (nowait : Bool) (qtmo : Word) (s : State) (i : Nat), s.runningOn sh = some i →
    addr.toNat % 16 = 0 → s.windowOk sh addr.toNat 16 1 = true → (s.owner (queueKey h) ≠ some (s.task i).partition ∨ s.rd F.HQ_CFG_KIND h = 1) →
    Ends (.qpop t sh h addr nowait qtmo) s (fun u => (u.shuttle sh).result = -3 ∧ u.sched.queues = s.sched.queues ∧ u.regs = (s.advance t).regs)) ∧
  (∀ (t : Instant) (sh : Fin 48) (h : Fin 128) (addr : Word) (nowait : Bool) (qtmo : Word) (s : State) (i : Nat), s.runningOn sh = some i →
    addr.toNat % 16 ≠ 0 → s.slotUsed i = true → (s.task i).phase ≠ .ended → (s.task i).desc.noflow = false →
    Ends (.qpop t sh h addr nowait qtmo) s (fun u => u.rd F.FLOW_STATE_HELD (64 * (s.task i).partition + (s.task i).desc.flow) = 1 ∧
    u.rd F.FLOW_STATE_HELD_CAUSE (64 * (s.task i).partition + (s.task i).desc.flow) = 4)) ∧
  (∀ (t : Instant) (p : Fin 16) (h : Fin 128) (es : List QEntry) (s : State), s.mayExecute 9 p (fun c => c.arg0 == h.val) = true →
    s.nextFits p = true → s.owner (queueKey h) = some p.val → s.rd F.HQ_CFG_KIND h = 2 →
    es.all (fun e => e.type == 0 || decide (0x80 ≤ e.type)) = true → (s.queue h).poppers = [] → (s.queue h).pushers = [] →
    Ends (.hqPush t p h es) s (fun u => (u.queue h).entries = (s.queue h).entries ++ es.take (s.credits h) ∧
    u.answer.result = min es.length (s.credits h))) ∧
  (∀ (t : Instant) (p : Fin 16) (h : Fin 128) (es : List QEntry) (s : State), s.mayExecute 9 p (fun c => c.arg0 == h.val) = true →
    s.nextFits p = true → (s.owner (queueKey h) ≠ some p.val ∨ s.rd F.HQ_CFG_KIND h ≠ 2 ∨
    es.any (fun e => decide (1 ≤ e.type) && decide (e.type ≤ 0x7F)) = true) → Ends (.hqPush t p h es) s (fun u => u.sched = s.sched ∧
    u.answer.result = -3)) ∧
  (∀ (t : Instant) (p : Fin 16) (h : Fin 128) (most : Word) (s : State), s.mayExecute 0xA p (fun c => c.arg0 == h.val && c.arg1 == most.toNat) = true →
    s.nextFits p = true → s.owner (queueKey h) = some p.val → s.rd F.HQ_CFG_KIND h = 1 → (s.queue h).poppers = [] → (s.queue h).pushers = [] →
    Ends (.hqPop t p h most) s (fun u => (u.queue h).entries = (s.queue h).entries.drop most.toNat ∧
    u.answer.result = min most.toNat (s.queue h).entries.length ∧ u.answer.data = (((s.queue h).entries.take most.toNat).map (·.bytes)).flatten)) ∧
  (∀ (t : Instant) (p : Fin 16) (h : Fin 128) (most : Word) (s : State), s.mayExecute 0xA p (fun c => c.arg0 == h.val && c.arg1 == most.toNat) = true →
    s.nextFits p = true → (s.owner (queueKey h) ≠ some p.val ∨ s.rd F.HQ_CFG_KIND h ≠ 1) → Ends (.hqPop t p h most) s (fun u => u.sched = s.sched ∧
    u.answer.result = -3))

/-! ### Cyclic programs (11) -/

/-- LOAD_PROGRAM loads an image that passes every check, and otherwise gives the failing one and keeps the program
loaded.  HOST_INPUT takes a block of the map's length.  A write of CP_CTRL with one command bit and the state it
expects starts a stopped program that may start, holds and resumes it, or stops it; with another state expected it
only sets STATE_MISMATCH, and with a second command bit, in another state than its own, or for a program that may not
start, only CMD_REFUSED.  A block of another length, or for a task that the map has not, is refused with result 1. -/
def Obligations.ProgramsLoadStartAndStop : Prop :=
  (∀ (t : Instant) (p : Fin 16) (img : Program) (s : State), s.mayExecute 4 p anyArgs = true → s.programResult p img = 0 →
    Ends (.loadProgram t p img true) s (fun u => (u.cycPart p).prog = some img ∧ u.rd F.CP_STATUS_LOADED p = 1 ∧ u.rd F.CP_STATUS_LOAD_RESULT p = 0 ∧
    u.rd F.CP_VERSION p = img.version % 2 ^ F.CP_VERSION.width ∧ u.rd F.CP_STATUS_DETERMINISTIC p = b2n img.deterministic)) ∧
  (∀ (t : Instant) (p : Fin 16) (img : Program) (s : State), s.mayExecute 4 p anyArgs = true → s.programResult p img ≠ 0 →
    Ends (.loadProgram t p img true) s (fun u => u.cyc = s.cyc ∧ u.rd F.CP_STATUS_LOAD_RESULT p = s.programResult p img ∧
    u.rd F.CP_STATUS_LOADED p = s.rd F.CP_STATUS_LOADED p)) ∧
  (∀ (t : Instant) (p : Fin 16) (task : Word) (data : List Byte) (s : State) (g : Program), s.mayExecute 6 p (fun c => c.arg0 == task.toNat) = true →
    (s.cycPart p).prog = some g → task.toNat < 8 → data.length = hostBytes g task.toNat →
    Ends (.hostInput t p task data) s (fun u => (u.cycTask (8 * p + task.toNat)).host = data ∧ u.rd F.CP_STATUS_STATE p = s.rd F.CP_STATUS_STATE p)) ∧
  (∀ (t : Instant) (p : Fin 16) (task : Word) (data : List Byte) (s : State), s.mayExecute 6 p (fun c => c.arg0 == task.toNat) = true →
    s.nextFits p = true → (s.cycPart p).prog.all (fun g => decide (8 ≤ task.toNat) || data.length != hostBytes g task.toNat) = true →
    Ends (.hostInput t p task data) s (fun u => u.cyc = s.cyc ∧ u.answer.result = 1)) ∧
  (∀ (t : Instant) (p : Fin 16) (value : Word) (s : State) (g : Program), s.admits (0x900000 + 0x200 * p) = true → cpBits value = [0] →
    value.toNat / 256 % 4 = 0 → s.rd F.CP_STATUS_STATE p = 0 → s.mayStart p = true → (s.cycPart p).prog = some g →
    Ends (.cpStart t p value) s (fun u => u.rd F.CP_STATUS_STATE p = 1 ∧ u.rd F.CP_CTRL_MODE p = value.toNat / 16 % 4 ∧
    (u.cycPart p).exchanged = false)) ∧
  (∀ (t : Instant) (p : Fin 16) (value : Word) (s : State), s.admits (0x900000 + 0x200 * p) = true → cpBits value = [2] → value.toNat / 256 % 4 = 1 →
    s.rd F.CP_STATUS_STATE p = 1 → Ends (.cpHold t p value) s (fun u => u.rd F.CP_STATUS_STATE p = 2)) ∧
  (∀ (t : Instant) (p : Fin 16) (value : Word) (s : State), s.admits (0x900000 + 0x200 * p) = true → cpBits value = [3] → value.toNat / 256 % 4 = 2 →
    s.rd F.CP_STATUS_STATE p = 2 → Ends (.cpResume t p value) s (fun u => u.rd F.CP_STATUS_STATE p = 1)) ∧
  (∀ (t : Instant) (p : Fin 16) (value : Word) (s : State), s.admits (0x900000 + 0x200 * p) = true → cpBits value = [1] →
    value.toNat / 256 % 4 = s.rd F.CP_STATUS_STATE p → (s.rd F.CP_STATUS_STATE p = 1 ∨ s.rd F.CP_STATUS_STATE p = 2) →
    Ends (.cpStop t p value) s (fun u => u.rd F.CP_STATUS_STATE p = 0 ∧ u.rd F.CP_STATUS_STOP_CAUSE p = 1)) ∧
  (∀ (t : Instant) (p : Fin 16) (value : Word) (s : State), s.admits (0x900000 + 0x200 * p) = true → cpBits value = [0] →
    value.toNat / 256 % 4 ≠ s.rd F.CP_STATUS_STATE p → Ends (.cpStart t p value) s (fun u => u.rd F.CP_STATUS_STATE p = s.rd F.CP_STATUS_STATE p ∧
    bitOf (u.rd F.CP_EVENT p) 2 = true ∧ u.cyc = s.cyc)) ∧
  (∀ (t : Instant) (p : Fin 16) (value : Word) (s : State), s.admits (0x900000 + 0x200 * p) = true → cpBits value = [1] →
    value.toNat / 256 % 4 ≠ s.rd F.CP_STATUS_STATE p → Ends (.cpStop t p value) s (fun u => u.rd F.CP_STATUS_STATE p = s.rd F.CP_STATUS_STATE p ∧
    bitOf (u.rd F.CP_EVENT p) 2 = true ∧ u.cyc = s.cyc)) ∧
  (∀ (t : Instant) (p : Fin 16) (value : Word) (s : State), s.admits (0x900000 + 0x200 * p) = true → cpBits value = [2] →
    value.toNat / 256 % 4 ≠ s.rd F.CP_STATUS_STATE p → Ends (.cpHold t p value) s (fun u => u.rd F.CP_STATUS_STATE p = s.rd F.CP_STATUS_STATE p ∧
    bitOf (u.rd F.CP_EVENT p) 2 = true ∧ u.cyc = s.cyc)) ∧
  (∀ (t : Instant) (p : Fin 16) (value : Word) (s : State), s.admits (0x900000 + 0x200 * p) = true → cpBits value = [3] →
    value.toNat / 256 % 4 ≠ s.rd F.CP_STATUS_STATE p → Ends (.cpResume t p value) s (fun u => u.rd F.CP_STATUS_STATE p = s.rd F.CP_STATUS_STATE p ∧
    bitOf (u.rd F.CP_EVENT p) 2 = true ∧ u.cyc = s.cyc)) ∧
  (∀ (t : Instant) (p : Fin 16) (value : Word) (s : State), s.admits (0x900000 + 0x200 * p) = true → (2 ≤ (cpBits value).length ∨
    (cpBits value = [0] ∧ value.toNat / 256 % 4 = s.rd F.CP_STATUS_STATE p ∧ (s.rd F.CP_STATUS_STATE p ≠ 0 ∨ s.mayStart p = false))) →
    Ends (.cpStart t p value) s (fun u => u.rd F.CP_STATUS_STATE p = s.rd F.CP_STATUS_STATE p ∧ bitOf (u.rd F.CP_EVENT p) 3 = true ∧ u.cyc = s.cyc)) ∧
  (∀ (t : Instant) (p : Fin 16) (value : Word) (s : State), s.admits (0x900000 + 0x200 * p) = true → (2 ≤ (cpBits value).length ∨
    (cpBits value = [1] ∧ value.toNat / 256 % 4 = s.rd F.CP_STATUS_STATE p ∧ s.rd F.CP_STATUS_STATE p ≠ 1 ∧ s.rd F.CP_STATUS_STATE p ≠ 2)) →
    Ends (.cpStop t p value) s (fun u => u.rd F.CP_STATUS_STATE p = s.rd F.CP_STATUS_STATE p ∧ bitOf (u.rd F.CP_EVENT p) 3 = true ∧ u.cyc = s.cyc)) ∧
  (∀ (t : Instant) (p : Fin 16) (value : Word) (s : State), s.admits (0x900000 + 0x200 * p) = true → (2 ≤ (cpBits value).length ∨
    (cpBits value = [2] ∧ value.toNat / 256 % 4 = s.rd F.CP_STATUS_STATE p ∧ s.rd F.CP_STATUS_STATE p ≠ 1)) →
    Ends (.cpHold t p value) s (fun u => u.rd F.CP_STATUS_STATE p = s.rd F.CP_STATUS_STATE p ∧ bitOf (u.rd F.CP_EVENT p) 3 = true ∧ u.cyc = s.cyc)) ∧
  (∀ (t : Instant) (p : Fin 16) (value : Word) (s : State), s.admits (0x900000 + 0x200 * p) = true → (2 ≤ (cpBits value).length ∨
    (cpBits value = [3] ∧ value.toNat / 256 % 4 = s.rd F.CP_STATUS_STATE p ∧ s.rd F.CP_STATUS_STATE p ≠ 2)) →
    Ends (.cpResume t p value) s (fun u => u.rd F.CP_STATUS_STATE p = s.rd F.CP_STATUS_STATE p ∧ bitOf (u.rd F.CP_EVENT p) 3 = true ∧ u.cyc = s.cyc))

/-- At a latch instant an enabled task of a running program begins a scan that is to be released REL later; once its
root has ended well the output image is copied and closed, and at the release instant a mapped discrete output takes
its command and a mapped value route its value, or the scan has overrun and the partition is in STOP.  A whole second begins a checkpoint commit of every loaded program and a
falling POWER_FAIL_N a power-fail commit; a good commit puts its image into its bank.  RJ_STATE takes acknowledgements
while the program does not run. -/
def Obligations.ScansLatchCloseAndRelease : Prop :=
  (∀ (t : Instant) (p : Fin 16) (k : Fin 8) (s : State) (g : Program), (s.cycPart p).prog = some g → s.scan (8 * p.val + k.val) = none →
    s.rd F.CP_STATUS_STATE p = 1 → s.rd F.CT_CFG_EN (8 * p.val + k.val) ≠ 0 →
    onGrid (1000 * s.rd F.CT_PERIOD (8 * p.val + k.val)) (1000 * s.rd F.CT_PHASE (8 * p.val + k.val)) (s.advance t).now = true →
    Ends (.scanLatch t p k) s (fun u => u.scan (8 * p.val + k.val) = some ⟨(s.advance t).now, addNs (s.advance t).now (1000 * s.rd F.CT_REL (8 * p.val + k.val)), s.stationBits, false⟩ ∧
    u.rd F.CT_SCAN (8 * p.val + k.val) = (s.rd F.CT_SCAN (8 * p.val + k.val) + 1) % 2 ^ F.CT_SCAN.width)) ∧
  (∀ (t : Instant) (p : Fin 16) (k : Fin 8) (s : State) (g : Program) (c : Scan), (s.cycPart p).prog = some g → s.scan (8 * p.val + k.val) = some c →
    s.sched.rootEnds.find (8 * p.val + k.val) = some 0 → c.closed = false → notLater (s.advance t).now c.release = true →
    Ends (.scanClose t p k) s (fun u => u.scan (8 * p.val + k.val) = some { c with closed := true } ∧
    (u.cycTask (8 * p.val + k.val)).out = s.partRead p (g.task k).outAddr (g.task k).outBytes)) ∧
  (∀ (t : Instant) (p : Fin 16) (k : Fin 8) (s : State) (g : Program) (c : Scan) (e : MapEntry), (s.cycPart p).prog = some g →
    s.scan (8 * p.val + k.val) = some c → c.release = (s.advance t).now → c.closed = true → g.outputs k = [e] → e.kind = 4 →
    Ends (.scanRelease t p k) s (fun u => u.scan (8 * p.val + k.val) = none ∧
    (u.loom.outs.get e.src ⟨false, false⟩).cmd = ((mappedBytes (s.cycTask (8 * p.val + k.val)).out e).headD 0).getLsbD 0)) ∧
  (∀ (t : Instant) (p : Fin 16) (k : Fin 8) (s : State) (g : Program) (c : Scan) (e : MapEntry) (r : BeamRec), (s.cycPart p).prog = some g →
    s.scan (8 * p.val + k.val) = some c → c.release = (s.advance t).now → c.closed = true → g.outputs k = [e] → e.kind = 6 → e.src < 12288 →
    s.loom.records.find (vrKey e.src) = some r → bytesAt r.active 0 4 / 2 ^ 28 = 6 → s.quadOn (keySpace (vrKey e.src)) = true →
    Ends (.scanRelease t p k) s (fun u => u.scan (8 * p.val + k.val) = none ∧
    u.rd F.VR_VALUE e.src = ofLeBytes (mappedBytes (s.cycTask (8 * p.val + k.val)).out e) % 2 ^ 32)) ∧
  (∀ (t : Instant) (p : Fin 16) (k : Fin 8) (s : State) (g : Program) (c : Scan), (s.cycPart p).prog = some g → s.scan (8 * p.val + k.val) = some c →
    c.release = (s.advance t).now → c.closed = false → Ends (.scanRelease t p k) s (fun u => bitOf (u.rd F.CP_EVENT p) 0 = true ∧
    u.rd F.CP_OVERRUN_CNT p = min (s.rd F.CP_OVERRUN_CNT p + 1) (2 ^ F.CP_OVERRUN_CNT.width - 1) ∧ u.inStop p = true)) ∧
  (∀ (t : Instant) (s : State) (p : Fin 16) (g : Program), onGrid 1000000000 0 (s.advance t).now = true → s.rd F.PWR_STATUS_STATE < 3 →
    s.rd F.CP_STATUS_LOADED p ≠ 0 → (s.cycPart p).prog = some g → (s.cycPart p).commit = none →
    Ends (.retainCheckpoint t) s (fun u => (u.cycPart p).commit.any (fun c => !c.powerFail && c.began == (s.advance t).now && c.bank == s.bankToWrite p) = true ∧
    (u.bank p (s.bankToWrite p)).good = false)) ∧
  (∀ (t : Instant) (s : State) (p : Fin 16) (g : Program), s.cyc.powerLow = false → s.rd F.PWR_STATUS_STATE < 3 →
    s.loaded.any (fun q => (s.cycPart q).commit.any (·.powerFail)) = false → s.rd F.CP_STATUS_LOADED p ≠ 0 → (s.cycPart p).prog = some g →
    Ends (.powerFail t true) s (fun u => u.cyc.powerLow = true ∧
    (u.cycPart p).commit.any (fun c => c.powerFail && c.began == (s.advance t).now) = true)) ∧
  (∀ (t : Instant) (s : State), Ends (.powerFail t false) s (fun u => u.cyc.powerLow = false ∧ u.cyc.parts = s.cyc.parts)) ∧
  (∀ (t : Instant) (p : Fin 16) (s : State) (c : RetCommit), (s.cycPart p).commit = some c →
    Ends (.retainCommitDone t p true) s (fun u => (u.cycPart p).commit = none ∧ u.bank p c.bank = c.image ∧
    u.rd F.CP_RETAIN_SEQ p = c.image.seq % 2 ^ F.CP_RETAIN_SEQ.width ∧ u.rd F.CP_STATUS_RETAIN_OK p = 1)) ∧
  (∀ (t : Instant) (p : Fin 16) (w : Fin 16) (value : Word) (s : State) (j : Fin 32), s.admits (0x920000 + 0x40 * p + 4 * w) = true →
    s.rd F.CP_STATUS_STATE p ≠ 1 → value.getLsbD j = true → s.stationOk ((32 * w + j) / 128) ((32 * w + j) % 128) = true →
    (s.stationOwners ((32 * w + j) / 128) ((s.ring ((32 * w + j) / 128)).cfg.stations.getD ((32 * w + j) % 128) ⟨0, 0, 0, 0, 0, 0⟩)).contains p.val = true →
    Ends (.rjStateWrite t p w value) s (fun u => bitOf (u.rd F.RJ_STATE (16 * p + w)) j = true)) ∧
  (∀ (t : Instant) (p : Fin 16) (w : Fin 16) (value : Word) (s : State), s.admits (0x920000 + 0x40 * p + 4 * w) = true →
    s.rd F.CP_STATUS_STATE p = 1 → Ends (.rjStateWrite t p w value) s (fun u => u.rd F.RJ_STATE (16 * p + w) = s.rd F.RJ_STATE (16 * p + w)))

/-! ### Field rings (12) -/

/-- Setting EN with both lanes ready and power in RUN or IDLE, or a lane that becomes ready as the last condition, opens
the pair and begins an insertion; a lane that is no longer ready, or EN cleared outside RUNNING, closes it into BYPASS.
Locked receivers begin the master's discovery, and a listener's LISTENING; none within 10 ms ends in BYPASS with RESULT 1.  DISCOVER acts in READY and ERROR only.  The ENUM frame gives the
descriptors, the DELAY frame the result: READY with RESULT 0, or ERROR with the failing check.  START of a READY ring
is kept for its next cycle start; STOP makes a RUNNING ring READY whose partitions are in STOP; otherwise both only set
CMD_REFUSED. -/
def Obligations.RingsOpenDiscoverAndStart : Prop :=
  (∀ (t : Instant) (r : Fin 4) (value : Word) (s : State), s.admits (ringOff r 0) = true → value.toNat % 2 = 1 → s.rd F.RING_STATUS_STATE r = 0 →
    (s.ring r).failed = false → (s.ring r).laneF = true → (s.ring r).laneR = true → s.rd F.PWR_STATUS_STATE ≤ 1 →
    Ends (.ringEnWrite t r value) s (fun u => u.rd F.RING_CTRL_EN r = 1 ∧ u.rd F.RING_STATUS_STATE r = 1 ∧ u.rd F.RING_STATUS_BYPASSED r = 0 ∧
    (u.ring r).insertAt = (s.advance t).now)) ∧
  (∀ (t : Instant) (r : Fin 4) (value : Word) (s : State), s.admits (ringOff r 0) = true → value.toNat % 2 = 1 → (s.rd F.RING_STATUS_STATE r ≠ 0 ∨
    (s.ring r).failed = true) → (s.ring r).laneF = true → (s.ring r).laneR = true → s.rd F.PWR_STATUS_STATE ≤ 1 →
    Ends (.ringEnWrite t r value) s (fun u => u.rd F.RING_CTRL_EN r = 1 ∧ u.rd F.RING_STATUS_STATE r = s.rd F.RING_STATUS_STATE r ∧
    u.rings = s.rings)) ∧
  (∀ (t : Instant) (r : Fin 4) (value : Word) (s : State), s.admits (ringOff r 0) = true → value.toNat % 2 = 1 → s.rd F.RING_STATUS_STATE r = 0 →
    ((s.ring r).laneF && (s.ring r).laneR) = false → Ends (.ringEnWrite t r value) s (fun u => u.rd F.RING_CTRL_EN r = 1 ∧
    u.rd F.RING_STATUS_STATE r = 0)) ∧
  (∀ (t : Instant) (r : Fin 4) (value : Word) (s : State), s.admits (ringOff r 0) = true → value.toNat % 2 = 0 → s.rd F.RING_STATUS_STATE r ≠ 0 →
    s.rd F.RING_STATUS_STATE r ≠ 4 → Ends (.ringEnWrite t r value) s (fun u => u.rd F.RING_CTRL_EN r = 0 ∧ u.rd F.RING_STATUS_STATE r = 0 ∧
    u.rd F.RING_STATUS_BYPASSED r = 1)) ∧
  (∀ (t : Instant) (r : Fin 4) (value : Word) (s : State), s.admits (ringOff r 0) = true → value.toNat % 2 = 0 → s.rd F.RING_STATUS_STATE r = 4 →
    Ends (.ringEnWrite t r value) s (fun u => u.rd F.RING_CTRL_EN r = s.rd F.RING_CTRL_EN r ∧ u.rd F.RING_STATUS_STATE r = 4 ∧ u.rings = s.rings)) ∧
  (∀ (t : Instant) (r : Fin 4) (laneF : Bool) (s : State), s.rd F.RING_STATUS_STATE r ≠ 0 →
    Ends (.serdesLaneReadyChange t r laneF false) s (fun u => u.rd F.RING_STATUS_STATE r = 0 ∧ u.rd F.RING_STATUS_BYPASSED r = 1 ∧
    (if laneF then (u.ring r).laneF = false else (u.ring r).laneR = false))) ∧
  (∀ (t : Instant) (r : Fin 4) (laneF : Bool) (s : State), s.rd F.RING_STATUS_STATE r = 0 → s.rd F.RING_CTRL_EN r ≠ 0 → s.rd F.PWR_STATUS_STATE ≤ 1 →
    (s.ring r).failed = false → (if laneF then (s.ring r).laneR = true else (s.ring r).laneF = true) →
    Ends (.serdesLaneReadyChange t r laneF true) s (fun u => u.rd F.RING_STATUS_STATE r = 1 ∧ u.rd F.RING_STATUS_BYPASSED r = 0 ∧
    (u.ring r).insertAt = (s.advance t).now)) ∧
  (∀ (t : Instant) (r : Fin 4) (s : State), s.rd F.RING_STATUS_STATE r = 1 → sinceNs (s.advance t).now (s.ring r).insertAt ≤ 10000000 →
    s.rd F.RING_CTRL_ROLE r = 0 → Ends (.insertionLocked t r) s (fun u => u.rd F.RING_STATUS_STATE r = 2 ∧ (u.ring r).discAt = (s.advance t).now ∧
    (u.ring r).enumDone = false)) ∧
  (∀ (t : Instant) (r : Fin 4) (s : State), s.rd F.RING_STATUS_STATE r = 1 → sinceNs (s.advance t).now (s.ring r).insertAt ≤ 10000000 →
    s.rd F.RING_CTRL_ROLE r ≠ 0 → Ends (.insertionLocked t r) s (fun u => u.rd F.RING_STATUS_STATE r = 5)) ∧
  (∀ (t : Instant) (r : Fin 4) (s : State), s.rd F.RING_STATUS_STATE r = 1 → 10000000 ≤ sinceNs (s.advance t).now (s.ring r).insertAt →
    Ends (.insertionTimeout t r) s (fun u => u.rd F.RING_STATUS_STATE r = 0 ∧ u.rd F.RING_RESULT r = 1 ∧ u.rd F.RING_STATUS_BYPASSED r = 1 ∧
    (u.ring r).failed = true)) ∧
  (∀ (t : Instant) (r : Fin 4) (s : State), s.admits (ringOff r 0) = true → (s.rd F.RING_STATUS_STATE r = 3 ∨ s.rd F.RING_STATUS_STATE r = 6) →
    Ends (.discover t r) s (fun u => u.rd F.RING_STATUS_STATE r = 2 ∧ (u.ring r).descs = [])) ∧
  (∀ (t : Instant) (r : Fin 4) (s : State), s.admits (ringOff r 0) = true → s.rd F.RING_STATUS_STATE r ≠ 3 → s.rd F.RING_STATUS_STATE r ≠ 6 →
    Ends (.discover t r) s (fun u => u.rd F.RING_STATUS_STATE r = s.rd F.RING_STATUS_STATE r ∧ bitOf (u.rd F.RING_EVENT r) 11 = true ∧
    u.rings = s.rings)) ∧
  (∀ (t : Instant) (r : Fin 4) (descs : List StationDesc) (s : State), s.rd F.RING_STATUS_STATE r = 2 →
    sinceNs (s.advance t).now (s.ring r).discAt ≤ 10000000 → Ends (.enumReturn t r descs) s (fun u => (u.ring r).descs = descs ∧
    (u.ring r).enumDone = true ∧ u.rd F.RING_STATUS_STATE r = 2)) ∧
  (∀ (t : Instant) (r : Fin 4) (tx rx : Instant) (times : List Instant) (s : State), s.rd F.RING_STATUS_STATE r = 2 → (s.ring r).enumDone = true →
    Ends (.delayReturn t r true tx rx times) s (fun u => let x := s.ring r; let res := s.discoveryResult r x.cfg x.descs (rxWorst x.cfg x.descs (linkDelays x.fwdTx x.fwdRx tx rx x.fwdTimes times x.descs)); u.rd F.RING_RESULT r = res ∧
    u.rd F.RING_STATUS_STATE r = (if res = 0 then 3 else 6))) ∧
  (∀ (t : Instant) (r : Fin 4) (tx rx : Instant) (times : List Instant) (s : State), s.rd F.RING_STATUS_STATE r = 2 → (s.ring r).enumDone = true →
    Ends (.delayReturn t r false tx rx times) s (fun u => (u.ring r).fwdTimes = times ∧ (u.ring r).fwdTx = tx ∧ (u.ring r).fwdRx = rx)) ∧
  (∀ (t : Instant) (r : Fin 4) (s : State), s.rd F.RING_STATUS_STATE r = 2 → (s.ring r).enumDone = false →
    10000000 ≤ sinceNs (s.advance t).now (s.ring r).discAt → Ends (.discFail t r) s (fun u => u.rd F.RING_STATUS_STATE r = 6 ∧
    u.rd F.RING_RESULT r = 1 ∧ bitOf (u.rd F.RING_EVENT r) 6 = true)) ∧
  (∀ (t : Instant) (r : Fin 4) (s : State), s.admits (ringOff r 0) = true → s.rd F.RING_STATUS_STATE r = 3 →
    Ends (.ringStart t r) s (fun u => (u.ring r).startDue = true ∧ u.rd F.RING_STATUS_STATE r = 3)) ∧
  (∀ (t : Instant) (r : Fin 4) (s : State), s.admits (ringOff r 0) = true → s.rd F.RING_STATUS_STATE r ≠ 3 →
    Ends (.ringStart t r) s (fun u => u.rings = s.rings ∧ u.rd F.RING_STATUS_STATE r = s.rd F.RING_STATUS_STATE r ∧
    bitOf (u.rd F.RING_EVENT r) 11 = true)) ∧
  (∀ (t : Instant) (r : Fin 4) (s : State), s.admits (ringOff r 0) = true → (s.rd F.RING_STATUS_STATE r ≠ 4 ∨ s.ringOwnersStopped r = false) →
    Ends (.ringStop t r) s (fun u => u.rings = s.rings ∧ u.rd F.RING_STATUS_STATE r = s.rd F.RING_STATUS_STATE r ∧
    bitOf (u.rd F.RING_EVENT r) 11 = true)) ∧
  (∀ (t : Instant) (r : Fin 4) (s : State), s.admits (ringOff r 0) = true → s.rd F.RING_STATUS_STATE r = 4 → s.ringOwnersStopped r = true →
    Ends (.ringStop t r) s (fun u => u.rd F.RING_STATUS_STATE r = 3 ∧ (u.ring r).cycleAt = none))

/-- Outside a Tandem pair: at a cycle start the master of a running ring sends the next cycle number, or is in ERROR where
the reservation does not cover it; a started ring runs from there with every station OK.  A good frame of the awaited
cycle makes its valid segment's STATUS and input byte visible and notes its reception; a bad one is counted lost.  On a
BROKEN ring the first copy is kept, and a lost copy does not count.  Without a frame by RX_LIMIT_NS the cycle is lost and its stations have
missed it; a lost link makes the ring BROKEN.  A mailbox request waits and ends at its timeout.  A written reservation
takes effect. -/
def Obligations.RingCyclesSendReceiveAndLose : Prop :=
  (∀ (t : Instant) (r : Fin 4) (s : State), s.rd F.RING_STATUS_STATE r = 4 → s.rd F.RING_CTRL_ROLE r = 0 → s.rd F.WARP_STATUS_COARSE = 0 →
    onGrid (s.ring r).cfg.period (s.ring r).cfg.phase (s.advance t).now = true → s.inPair = false → (s.ring r).nextCycle < (s.ring r).reserve →
    Ends (.cycleStart t r) s (fun u => u.rd F.RING_CYCLE r = (s.ring r).nextCycle % 2 ^ F.RING_CYCLE.width ∧
    (u.ring r).nextCycle = (s.ring r).nextCycle + 1 ∧ (u.ring r).cycleAt = some (s.advance t).now ∧ (u.ring r).got = false ∧
    u.rd F.RING_STATUS_STATE r = 4)) ∧
  (∀ (t : Instant) (r : Fin 4) (s : State), s.rd F.RING_STATUS_STATE r = 3 → (s.ring r).startDue = true → s.rd F.RING_CTRL_ROLE r = 0 →
    s.rd F.WARP_STATUS_COARSE = 0 → onGrid (s.ring r).cfg.period (s.ring r).cfg.phase (s.advance t).now = true → s.inPair = false →
    (s.ring r).nextCycle < (s.ring r).reserve → Ends (.cycleStart t r) s (fun u => u.rd F.RING_STATUS_STATE r = 4 ∧ (u.ring r).startDue = false ∧
    u.rd F.RING_CYCLE r = (s.ring r).nextCycle % 2 ^ F.RING_CYCLE.width ∧ (u.ring r).cycleAt = some (s.advance t).now ∧
    (∀ i ∈ List.range (s.ring r).descs.length, u.stationOk r i = true))) ∧
  (∀ (t : Instant) (r : Fin 4) (s : State), s.rd F.RING_STATUS_STATE r = 4 → s.rd F.RING_CTRL_ROLE r = 0 → s.rd F.WARP_STATUS_COARSE = 0 →
    onGrid (s.ring r).cfg.period (s.ring r).cfg.phase (s.advance t).now = true → s.inPair = false → (s.ring r).reserve ≤ (s.ring r).nextCycle →
    Ends (.cycleStart t r) s (fun u => u.rd F.RING_STATUS_STATE r = 6 ∧ (u.ring r).cycleAt = none ∧ u.rd F.RING_CYCLE r = s.rd F.RING_CYCLE r)) ∧
  (∀ (t : Instant) (r : Fin 4) (frame : RxFrame) (s : State) (c : Instant) (g : SegRx) (d : StationCfg) (b : Byte), s.rd F.RING_STATUS_STATE r = 4 →
    frame.crcOk = true → frame.echo = false → frame.masterId = s.rd F.RING_MASTER_ID r → (s.ring r).cycleAt = some c → (s.ring r).got = false →
    sinceNs (s.advance t).now c ≤ ((s.ring r).cfg.rxLimit : Int) → frame.cycle = s.rd F.RING_CYCLE r → s.rd F.RING_STATUS_BROKEN r = 0 →
    s.inPair = false → frame.segs = [g] → g.station < (s.ring r).descs.length → s.segValid r frame.cycle g = true →
    (s.ring r).cfg.stations[g.station]? = some d → d.inLen = 1 → g.input = [b] →
    Ends (.receptionEnd t r false frame) s (fun u => (u.ring r).got = true ∧ (u.ring r).lastGood = (s.advance t).now ∧
    u.rd F.RS_ST_STATUS_LAST_STATUS (128 * r + g.station) = g.status % 2 ^ F.RS_ST_STATUS_LAST_STATUS.width ∧
    (u.ring r).ins.get d.inOff 0 = b.toNat)) ∧
  (∀ (t : Instant) (r : Fin 4) (onF : Bool) (frame : RxFrame) (s : State) (c : Instant), s.rd F.RING_STATUS_STATE r = 4 → frame.crcOk = false →
    frame.echo = false → (s.ring r).cycleAt = some c → (s.ring r).got = false → sinceNs (s.advance t).now c ≤ ((s.ring r).cfg.rxLimit : Int) →
    s.inPair = false → s.rd F.RING_STATUS_BROKEN r = 0 → Ends (.receptionEnd t r onF frame) s (fun u => (u.ring r).lost = true ∧
    (u.ring r).ins = (s.ring r).ins ∧ u.rd F.RING_LOST_CNT r = min (s.rd F.RING_LOST_CNT r + 1) (2 ^ F.RING_LOST_CNT.width - 1) ∧
    bitOf (u.rd F.RING_EVENT r) 0 = true)) ∧
  (∀ (t : Instant) (r : Fin 4) (onF : Bool) (frame : RxFrame) (s : State), s.rd F.RING_STATUS_STATE r = 4 → frame.crcOk = false → s.inPair = false →
    s.rd F.RING_STATUS_BROKEN r ≠ 0 → Ends (.receptionEnd t r onF frame) s (fun u => u.rings = s.rings ∧
    u.rd F.RING_LOST_CNT r = s.rd F.RING_LOST_CNT r)) ∧
  (∀ (t : Instant) (r : Fin 4) (onF : Bool) (frame : RxFrame) (s : State) (c : Instant), s.rd F.RING_STATUS_STATE r = 4 → frame.crcOk = true →
    frame.echo = false → frame.masterId = s.rd F.RING_MASTER_ID r → (s.ring r).cycleAt = some c → (s.ring r).got = false →
    sinceNs (s.advance t).now c ≤ ((s.ring r).cfg.rxLimit : Int) → frame.cycle = s.rd F.RING_CYCLE r → s.rd F.RING_STATUS_BROKEN r ≠ 0 →
    (if frame.reverse then (s.ring r).copyF = none else (s.ring r).copyR = none) →
    Ends (.receptionEnd t r onF frame) s (fun u => (if frame.reverse then (u.ring r).copyR = some frame else (u.ring r).copyF = some frame) ∧
    (u.ring r).got = false ∧ (u.ring r).ins = (s.ring r).ins)) ∧
  (∀ (t : Instant) (r : Fin 4) (s : State) (c : Instant), s.rd F.RING_STATUS_STATE r = 4 → (s.ring r).cycleAt = some c →
    sinceNs (s.advance t).now c = ((s.ring r).cfg.rxLimit : Int) → s.inPair = false → (s.ring r).got = false → (s.ring r).lost = false →
    (s.ring r).looped = false → s.rd F.RING_STATUS_BROKEN r = 0 → Ends (.rxLimit t r false) s (fun u => (u.ring r).cycleAt = none ∧
    u.rd F.RING_LOST_CNT r = min (s.rd F.RING_LOST_CNT r + 1) (2 ^ F.RING_LOST_CNT.width - 1) ∧ ∀ i ∈ List.range 128, i < (s.ring r).descs.length →
    u.rd F.RS_ST_STATUS_MISS_RUN (128 * r + i) = min (s.rd F.RS_ST_STATUS_MISS_RUN (128 * r + i) + 1) (2 ^ F.RS_ST_STATUS_MISS_RUN.width - 1))) ∧
  (∀ (t : Instant) (r : Fin 4) (s : State) (c : Instant), s.rd F.RING_STATUS_STATE r = 4 → (s.ring r).cycleAt = some c →
    sinceNs (s.advance t).now c = ((s.ring r).cfg.rxLimit : Int) → s.inPair = false → s.rd F.RING_STATUS_BROKEN r = 0 →
    Ends (.rxLimit t r true) s (fun u => (u.ring r).cycleAt = none ∧ u.rd F.RING_STATUS_BROKEN r = 1 ∧ bitOf (u.rd F.RING_EVENT r) 1 = true ∧
    u.rd F.RING_BREAK_CNT_COUNT r = min (s.rd F.RING_BREAK_CNT_COUNT r + 1) (2 ^ F.RING_BREAK_CNT_COUNT.width - 1))) ∧
  (∀ (t : Instant) (r : Fin 4) (value : Word) (s : State), s.admits (ringOff r 0x100) = true → (s.ring r).hostAt = none →
    Ends (.mbxGo t r value) s (fun u => (u.ring r).hostAt = some (s.advance t).now ∧ (u.ring r).hostSent = false ∧
    u.rd F.RING_MBX_STATUS_STATE r = 1 ∧ u.rd F.RING_MBX_CTRL_STATION r = value.toNat % 128)) ∧
  (∀ (t : Instant) (r : Fin 4) (value : Word) (s : State), s.admits (ringOff r 0x100) = true → (s.ring r).hostAt ≠ none →
    Ends (.mbxGo t r value) s (fun u => bitOf (u.rd F.RING_EVENT r) 9 = true ∧ u.rings = s.rings ∧
    u.rd F.RING_MBX_CTRL_STATION r = s.rd F.RING_MBX_CTRL_STATION r)) ∧
  (∀ (t : Instant) (r : Fin 4) (s : State) (a : Instant), (s.ring r).hostAt = some a →
    ((1000000 * (max 1 (s.rd F.RING_MBX_TMO r) : Nat) : Nat) : Int) ≤ sinceNs (s.advance t).now a →
    Ends (.mbxTmo t r) s (fun u => (u.ring r).hostAt = none ∧ u.rd F.RING_MBX_STATUS_STATE r = 3 ∧ bitOf (u.rd F.RING_EVENT r) 8 = true)) ∧
  (∀ (t : Instant) (r : Fin 4) (s : State) (i : Nat) (a : Instant), (s.ring r).hostAt = none → (s.ring r).identAt = some (i, a) →
    ((1000000 * (max 1 (s.rd F.RING_MBX_TMO r) : Nat) : Nat) : Int) ≤ sinceNs (s.advance t).now a →
    Ends (.mbxTmo t r) s (fun u => (u.ring r).identAt = none ∧ u.regs = (s.advance t).regs)) ∧
  (∀ (t : Instant) (r : Fin 4) (s : State) (n : Nat), (s.ring r).raising = some n →
    Ends (.reservationWritten t r true) s (fun u => (u.ring r).reserve = n ∧ (u.ring r).raising = none ∧ u.regs = (s.advance t).regs)) ∧
  (∀ (t : Instant) (r : Fin 4) (s : State), Ends (.reservationWritten t r false) s (fun u => (u.ring r).reserve = (s.ring r).reserve ∧
    u.regs = (s.advance t).regs))

/-! ### The safety function (13) -/

/-- At a safety cycle the result of the cycle before becomes the permit word; an accepted word becomes the live permit.
After a tick of the die an output is energised exactly by the rule of Table 13.3.  A silent link restarts the island.  A
channel change is shown; a disagreement that persists, a failed test pulse and a failed switch test latch their fault
with its cause, a passed one is noted. -/
def Obligations.TheDieFollowsInputsTestsAndTheLink : Prop :=
  (∀ (t : Instant) (c : SafCycle) (s : State), s.island.running = true → Ends (.safetyCycle t c) s (fun u => u.island.word = s.island.result ∧
    u.island.result = c.permit % 2 ^ 16 ∧ u.island.live = s.island.live)) ∧
  (∀ (t : Instant) (s : State), s.island.running = true → s.phase ≠ 4 → Ends (.permitWord t true) s (fun u => u.island.live = s.island.word ∧
    u.rd F.SAF_STATUS_LINK_OK = 1 ∧ u.rd F.SAF_SOUT_PERMIT = s.island.word % 2 ^ F.SAF_SOUT_PERMIT.width)) ∧
  (∀ (t : Instant) (s : State), s.island.running = true → s.phase = 4 → Ends (.permitWord t true) s (fun u => u.island.live = s.island.word ∧
    u.rd F.SAF_STATUS_LINK_OK = 1 ∧ u.island.wordAt = (s.advance t).safeNow)) ∧
  (∀ (t : Instant) (s : State), Ends (.permitWord t false) s (fun u => u.island = s.island ∧ u.regs = (s.advance t).regs)) ∧
  (∀ (t : Instant) (s : State), s.rd F.SAF_STATUS_LINK_OK ≠ 0 → (s.advance t).safeSince s.island.wordAt 50 = true →
    Ends (.linkSilent t) s (fun u => u.rd F.SAF_STATUS_LINK_OK = 0 ∧ u.island.running = false ∧ u.island.word = 0 ∧ u.rd F.SAF_STATUS_PROG_OK = 0)) ∧
  (∀ (t : Instant) (s : State), Ends (.dieTick t) s (fun u => u.island.tick = s.island.tick + 1 ∧
    (List.range 16).all (fun o => bitOf (u.rd F.SAF_SOUT_STATE_ENERGISED) o == u.soutRule o) = true ∧ u.phase = s.phase)) ∧
  (∀ (t : Instant) (i : Fin 32) (level : Bool) (s : State), Ends (.sinChannelChange t i false level) s (fun u => bitOf (u.rd F.SAF_SIN_A) i = level ∧
    u.rd F.SAF_SIN_B = s.rd F.SAF_SIN_B)) ∧
  (∀ (t : Instant) (i : Fin 32) (level : Bool) (s : State), Ends (.sinChannelChange t i true level) s (fun u => bitOf (u.rd F.SAF_SIN_B) i = level ∧
    u.rd F.SAF_SIN_A = s.rd F.SAF_SIN_A)) ∧
  (∀ (t : Instant) (i : Fin 32) (s : State) (a : Instant), s.island.apart.find i = some a → s.sinMode i ≠ 0 →
    (s.advance t).safeSince a (1000 * s.rd F.SIN_CFG_DISC_MS i) = true →
    Ends (.discrepancyFault t i) s (fun u => bitOf (u.rd F.SAF_SIN_FAULT) i = true ∧ u.rd F.SIN_CFG_FAULT_CAUSE i = 1 ∧
    bitOf (u.rd F.SAF_SIN) i = false ∧ bitOf (u.rd F.SYS_FAULT) 16 = true)) ∧
  (∀ (t : Instant) (i : Fin 32) (fails : BitVec 32) (s : State) (m : MatrixImg), s.island.matrix = some m → (m.input i).mode ≠ 0 →
    bitOf (m.input i).test 0 = true → bitOf (s.rd F.SAF_SIN_A) i = true → fails.getLsbD i = true →
    Ends (.testPulse t false fails) s (fun u => bitOf (u.rd F.SAF_SIN_FAULT) i = true ∧ u.rd F.SIN_CFG_FAULT_CAUSE i = 2)) ∧
  (∀ (t : Instant) (i : Fin 32) (fails : BitVec 32) (s : State) (m : MatrixImg), s.island.matrix = some m → (m.input i).mode ≠ 0 →
    bitOf (m.input i).test 0 = true → bitOf (s.rd F.SAF_SIN_A) i = true → fails.getLsbD i = false →
    Ends (.testPulse t false fails) s (fun u => bitOf u.island.pulsedA i = true ∧ u.rd F.SIN_CFG_FAULT_CAUSE i = s.rd F.SIN_CFG_FAULT_CAUSE i)) ∧
  (∀ (t : Instant) (o : Fin 16) (s : State), s.rd F.SOUT_CFG_USED o ≠ 0 → Ends (.outputTest t o 0) s (fun u => bitOf u.island.switched o = true ∧
    bitOf u.island.side o = !bitOf s.island.side o ∧ u.rd F.SAF_SOUT_STATE_FAULT = s.rd F.SAF_SOUT_STATE_FAULT)) ∧
  (∀ (t : Instant) (o : Fin 16) (result : Fin 5) (s : State), s.rd F.SOUT_CFG_USED o ≠ 0 → result.val ≠ 0 → result.val ≠ 4 →
    Ends (.outputTest t o result) s (fun u => bitOf (u.rd F.SAF_SOUT_STATE_FAULT) o = true ∧ u.rd F.SOUT_CFG_FAULT_CAUSE o = result ∧
    bitOf (u.rd F.SAF_SOUT_STATE_ENERGISED) o = false ∧ bitOf (u.rd F.SYS_FAULT) 17 = true))

/-- Comparisons that agree hand over to NORMAL where START's conditions hold, from TEST on the program's request, and
from RECOVERY after its second; a hand-over that would change an output waits as START_BLOCKED.  One that differs is
counted, a second one is a matrix fault: START, no output energised.  An island fault goes to OVERCAST from NORMAL or
RECOVERY where armed, else to START.  A good
image is loaded, a bad one leaves none.  Overcast ends in START after its window and is armed after 60 s of NORMAL.
PROGRAM_MATRIX and LOAD_SAFETY act in the open state with a passing container; SAFETY_RESET clears faults that have
passed their tests.  A Weft frame in sequence or with RESTART is accepted, a repeat is ignored, another is
a sequence error; an expired connection resumes as its entry says; one whose deadline passes leaves the safe value. -/
def Obligations.SafetyPhasesLoadsAndWefts : Prop :=
  (∀ (t : Instant) (s : State), s.island.running = true → s.phase = 0 →
    (s.onIsland (fun x => { x with agreed := x.agreed + 1, differed := 0 })).startWait = 0 → s.rd F.SAF_STATUS_MATRIX_FAULT = 0 →
    s.handoverOk = true → Ends (.termComparison t true) s (fun u => u.phase = 1 ∧ u.rdT F.SAF_PHASE_T = (s.advance t).now)) ∧
  (∀ (t : Instant) (s : State), s.island.running = true → s.phase = 0 →
    (s.onIsland (fun x => { x with agreed := x.agreed + 1, differed := 0 })).startWait = 0 → s.rd F.SAF_STATUS_MATRIX_FAULT = 0 →
    s.handoverOk = false → Ends (.termComparison t true) s (fun u => u.phase = 0 ∧ u.rd F.SAF_STATUS_START_BLOCKED = 1 ∧
    u.rd F.SAF_SOUT_STATE_ENERGISED = s.rd F.SAF_SOUT_STATE_ENERGISED)) ∧
  (∀ (t : Instant) (s : State), s.island.running = true → s.phase = 2 → s.island.proposal = 2 → s.handoverOk = true →
    Ends (.termComparison t true) s (fun u => u.phase = 1)) ∧
  (∀ (t : Instant) (s : State), s.island.running = true → s.phase = 3 → (s.advance t).safeSince s.island.agreeFrom 1000000 = true →
    9 ≤ s.island.agreed → s.handoverOk = true → Ends (.termComparison t true) s (fun u => u.phase = 1)) ∧
  (∀ (t : Instant) (s : State), s.island.running = true → s.island.differed = 0 → Ends (.termComparison t false) s (fun u => u.phase = s.phase ∧
    u.island.agreed = 0 ∧ u.island.differed = 1 ∧ u.rd F.SAF_CNT_CMP_MISMATCH = (s.rd F.SAF_CNT_CMP_MISMATCH + 1) % 2 ^ F.SAF_CNT_CMP_MISMATCH.width ∧
    u.rd F.SAF_STATUS_MATRIX_FAULT = s.rd F.SAF_STATUS_MATRIX_FAULT)) ∧
  (∀ (t : Instant) (s : State), s.island.running = true → 1 ≤ s.island.differed → Ends (.termComparison t false) s (fun u => u.phase = 0 ∧
    u.rd F.SAF_STATUS_MATRIX_FAULT = 1 ∧ u.rd F.SAF_SOUT_STATE_ENERGISED = 0 ∧ u.rd F.SAF_SOUT_PERMIT = 0 ∧ bitOf (u.rd F.SYS_FAULT) 15 = true)) ∧
  (∀ (t : Instant) (s : State), (s.phase = 1 ∨ s.phase = 3) → s.rd F.SAF_STATUS_OVC_ARMED ≠ 0 → Ends (.islandFault t) s (fun u => u.phase = 4 ∧
    u.island.running = false ∧ u.rd F.SAF_STATUS_OVC_ARMED = 0 ∧ bitOf (u.rd F.SYS_FAULT) 14 = true)) ∧
  (∀ (t : Instant) (s : State), (s.phase = 0 ∨ s.phase = 2 ∨ ((s.phase = 1 ∨ s.phase = 3) ∧ s.rd F.SAF_STATUS_OVC_ARMED = 0)) →
    Ends (.islandFault t) s (fun u => u.phase = 0 ∧ u.island.running = false ∧ u.rd F.SAF_SOUT_PERMIT = 0 ∧ u.rd F.SAF_SOUT_STATE_ENERGISED = 0)) ∧
  (∀ (t : Instant) (s : State) (m : MatrixImg), s.island.eeprom = some m → m.crcOk = true →
    Ends (.matrixLoad t true) s (fun u => u.island.matrix = some m ∧ u.rd F.SAF_STATUS_MATRIX_OK = 1 ∧
    u.rd F.SAF_MATRIX_VER = m.version % 2 ^ F.SAF_MATRIX_VER.width)) ∧
  (∀ (t : Instant) (s : State), Ends (.matrixLoad t false) s (fun u => u.island.matrix = none ∧ u.rd F.SAF_STATUS_MATRIX_OK = 0 ∧
    u.rd F.SAF_STATUS_MATRIX_FAULT = 1 ∧ u.phase = 0 ∧ u.rd F.SAF_SOUT_STATE_ENERGISED = 0)) ∧
  (∀ (t : Instant) (s : State), s.phase = 4 → (s.advance t).safeSince s.island.phaseAt (960000 * s.rd F.SAF_OVC_WINDOW_S) = true →
    Ends (.overcastWindowEnd t) s (fun u => u.phase = 0 ∧ u.rd F.SAF_SOUT_PERMIT = 0 ∧ u.rd F.SAF_SOUT_STATE_ENERGISED = 0)) ∧
  (∀ (t : Instant) (s : State), s.phase = 1 → (s.advance t).safeSince s.island.phaseAt 60000000 = true →
    Ends (.overcastArmed t) s (fun u => u.rd F.SAF_STATUS_OVC_ARMED = 1 ∧ u.phase = 1)) ∧
  (∀ (t : Instant) (s : State), (s.advance t).sclkFree = false → Ends (.sclkCrosscheck t true) s (fun u => u.rd F.SAF_STATUS_SCLK_FREE = 0 ∧
    u.island.running = false ∧ bitOf (u.rd F.SYS_FAULT) 14 = true)) ∧
  (∀ (t : Instant) (s : State) (bad : Bool), (s.advance t).sclkFree = true →
    Ends (.sclkCrosscheck t bad) s (fun u => u.rd F.SAF_STATUS_SCLK_FREE = 1 ∧ u.island = s.island)) ∧
  (∀ (t : Instant) (n : Fin 256) (f : WeftRx) (s : State) (g : SafProg) (e : WeftEntry) (q : Nat), s.island.prog = some g → g.conns[n.val]? = some e →
    s.island.running = true → e.role = 0 → s.rd F.WC_STATUS_STATE n = 1 → f.crcOk = true → f.conn = e.conn → (s.weft n).seq = some q →
    1 ≤ (f.seq + 65536 - q) % 65536 → (f.seq + 65536 - q) % 65536 ≤ 1000 → f.safe = false →
    Ends (.weftFrame t n f) s (fun u => u.rd F.WC_STATUS_SEQ n = f.seq % 2 ^ F.WC_STATUS_SEQ.width ∧ (u.weft n).seq = some f.seq ∧
    u.weftValue n = f.data ∧ (u.weft n).arrived = (s.advance t).safeNow)) ∧
  (∀ (t : Instant) (n : Fin 256) (f : WeftRx) (s : State) (g : SafProg) (e : WeftEntry), s.island.prog = some g → g.conns[n.val]? = some e →
    s.island.running = true → e.role = 0 → s.rd F.WC_STATUS_STATE n = 1 → f.crcOk = false →
    Ends (.weftFrame t n f) s (fun u => u.rd F.WC_ERR_CRC_ERR n = (s.rd F.WC_ERR_CRC_ERR n + 1) % 2 ^ F.WC_ERR_CRC_ERR.width ∧
    u.weftValue n = s.weftValue n ∧ u.rd F.WC_STATUS_SEQ n = s.rd F.WC_STATUS_SEQ n)) ∧
  (∀ (t : Instant) (n : Fin 256) (f : WeftRx) (s : State) (g : SafProg) (e : WeftEntry), s.island.prog = some g → g.conns[n.val]? = some e →
    s.island.running = true → e.role = 0 → s.rd F.WC_STATUS_STATE n = 1 → f.crcOk = true → f.conn = e.conn → f.restart = true →
    Ends (.weftFrame t n f) s (fun u => (u.weft n).seq = some f.seq ∧ u.weftValue n = (if f.safe then List.replicate e.len 0 else f.data) ∧
    (u.weft n).arrived = (s.advance t).safeNow)) ∧
  (∀ (t : Instant) (n : Fin 256) (f : WeftRx) (s : State) (g : SafProg) (e : WeftEntry) (q : Nat), s.island.prog = some g → g.conns[n.val]? = some e →
    s.island.running = true → e.role = 0 → s.rd F.WC_STATUS_STATE n = 1 → f.crcOk = true → f.conn = e.conn → f.restart = false →
    (s.weft n).seq = some q → 1000 < (f.seq + 65536 - q) % 65536 →
    Ends (.weftFrame t n f) s (fun u => u.rd F.WC_ERR_SEQ_ERR n = (s.rd F.WC_ERR_SEQ_ERR n + 1) % 2 ^ F.WC_ERR_SEQ_ERR.width ∧
    (u.weft n).seq = some q ∧ u.weftValue n = s.weftValue n)) ∧
  (∀ (t : Instant) (n : Fin 256) (f : WeftRx) (s : State) (g : SafProg) (e : WeftEntry) (q : Nat), s.island.prog = some g → g.conns[n.val]? = some e →
    s.island.running = true → e.role = 0 → s.rd F.WC_STATUS_STATE n = 1 → f.crcOk = true → f.conn = e.conn → f.restart = false →
    (s.weft n).seq = some q → (f.seq + 65536 - q) % 65536 = 0 → Ends (.weftFrame t n f) s (fun u => u.island = s.island ∧
    u.regs = (s.advance t).regs)) ∧
  (∀ (t : Instant) (n : Fin 256) (f : WeftRx) (s : State) (g : SafProg) (e : WeftEntry), s.island.prog = some g → g.conns[n.val]? = some e →
    s.island.running = true → e.role = 0 → s.rd F.WC_STATUS_STATE n = 2 → f.crcOk = true → f.conn = e.conn → f.restart = true →
    Ends (.weftFrame t n f) s (fun u => u.rd F.WC_STATUS_STATE n = (if e.auto then (if 2 ≤ (s.weft n).run then 1 else 2) else 3))) ∧
  (∀ (t : Instant) (n : Fin 256) (s : State), s.island.running = true → s.rd F.WC_STATUS_ROLE n = 0 → (s.rd F.WC_STATUS_STATE n = 1 ∨
    s.rd F.WC_STATUS_STATE n = 3) → (s.advance t).safeSince (s.weft n).arrived (1000 * s.rd F.WC_EXP_DEADLINE_MS n) = true →
    Ends (.weftDeadline t n) s (fun u => u.rd F.WC_STATUS_STATE n = 2 ∧ u.weftValue n = List.replicate (s.weft n).data.length 0 ∧
    u.rd F.WC_EXP_EXPIRIES n = (s.rd F.WC_EXP_EXPIRIES n + 1) % 2 ^ F.WC_EXP_EXPIRIES.width)) ∧
  (∀ (t : Instant) (c : MatrixCont) (s : State), s.mayExecute 0x10 16 anyArgs = true → s.safetyOpen = true → s.containerOk c = true →
    c.image.crcOk = true → Ends (.programMatrix t c true true) s (fun u => u.island.eeprom = some c.image ∧ u.island.matrix = some c.image ∧
    u.island.running = false ∧ u.phase = 0)) ∧
  (∀ (t : Instant) (c : MatrixCont) (readBack room : Bool) (s : State), s.mayExecute 0x10 16 anyArgs = true → s.safetyOpen = false →
    Ends (.programMatrix t c readBack room) s (fun u => u.island = s.island)) ∧
  (∀ (t : Instant) (c : MatrixCont) (readBack room : Bool) (s : State), s.mayExecute 0x10 16 anyArgs = true → s.containerOk c = false →
    Ends (.programMatrix t c readBack room) s (fun u => u.island = s.island)) ∧
  (∀ (t : Instant) (img : SafProg) (readBack room : Bool) (s : State), s.mayExecute 0x11 16 anyArgs = true → (s.safetyOpen = false ∨
    s.safProgOk img = false ∨ readBack = false) → Ends (.loadSafety t img readBack room) s (fun u => u.island = s.island ∧
    u.host.items = s.host.items)) ∧
  (∀ (t : Instant) (img : SafProg) (s : State), s.mayExecute 0x11 16 anyArgs = true → s.safetyOpen = true → s.safProgOk img = true →
    Ends (.loadSafety t img true true) s (fun u => u.island.prog = some img ∧ u.island.running = false ∧ u.phase = 0 ∧
    u.rd F.SAF_STATUS_PROG_OK = 0)) ∧
  (∀ (t : Instant) (phase : Word) (s : State), s.mayExecute 0x12 16 (fun c => c.arg0 == phase.toNat) = true →
    Ends (.safetyPhase t phase) s (fun u => u.island.request = phase.toNat ∧ u.phase = s.phase)) ∧
  (∀ (t : Instant) (mask : BitVec 16) (s : State) (o : Fin 16), s.mayExecute 0x13 16 (fun c => c.arg0 == mask.toNat) = true →
    (List.range 16).all (fun o => !mask.getLsbD o || !bitOf (s.rd F.SAF_SOUT_STATE_FAULT) o || decide (10 ≤ s.island.passes.get o 0)) = true →
    mask.getLsbD o = true → Ends (.safetyReset t mask) s (fun u => bitOf (u.rd F.SAF_SOUT_STATE_FAULT) o = false)) ∧
  (∀ (t : Instant) (mask : BitVec 16) (s : State) (o : Fin 16), s.mayExecute 0x13 16 (fun c => c.arg0 == mask.toNat) = true → mask.getLsbD o = true →
    bitOf (s.rd F.SAF_SOUT_STATE_FAULT) o = true → s.island.passes.get o 0 < 10 →
    Ends (.safetyReset t mask) s (fun u => u.rd F.SAF_SOUT_STATE_FAULT = s.rd F.SAF_SOUT_STATE_FAULT ∧ u.island = s.island)) ∧
  (∀ (t : Instant) (s : State) (g : SafProg), s.island.running = false → s.island.prog = some g →
    s.island.eeprom.any (fun m => m.digest == g.matrixDigest) = true → Ends (.islandReloadDone t true) s (fun u => u.island.running = true ∧
    u.rd F.SAF_STATUS_PROG_OK = 1 ∧ u.rd F.SAF_PROG_VER = g.version % 2 ^ F.SAF_PROG_VER.width)) ∧
  (∀ (t : Instant) (s : State) (g : SafProg), s.island.running = false → s.island.prog = some g →
    Ends (.islandReloadDone t false) s (fun u => u.island.running = false ∧ u.rd F.SAF_STATUS_PROG_OK = 0))

/-! ### Tandem pairs (14) -/

/-- A frame whose CRC fails changes nothing of the pair.  STATUS gives the partner's role and ring states; the unit's
own frames raise its SEQ and are kept.  Silence for LINK_TMO_US loses the link, and a STANDBY is then SYNC_LOST.  A link
clear for 100 ms is up.  TIME gives a non-holder the holder's rate and its offset.  HAVE, INPUTS and DIGEST are kept for
their cycle; digests that differ begin an arbitration, whose outcome both self-checks give as Table 14.4 says, a result
that has not come within 10 ms counting as failed.  A covered command waits for
its execution instant. -/
def Obligations.TandemLinkAndCyclesInStep : Prop :=
  (∀ (t : Instant) (c : Contrail) (role : Fin 5) (flags : Word) (term : BitVec 16) (rings : List Nat) (s : State), c.crcOk = true → s.inPair = true →
    Ends (.status t c role flags term rings) s (fun u => u.rd F.TD_STATUS_PARTNER_ROLE = role ∧ u.tandem.partnerRings = rings ∧
    u.tandem.partnerLost = flags.getLsbD 1 ∧ u.tandem.heardAt = some (s.advance t).now)) ∧
  (∀ (t : Instant) (c : Contrail) (role : Fin 5) (flags : Word) (term : BitVec 16) (rings : List Nat) (s : State), c.crcOk = false →
    Ends (.status t c role flags term rings) s (fun u => u.tandem = s.tandem ∧ u.rd F.TD_STATUS_PARTNER_ROLE = s.rd F.TD_STATUS_PARTNER_ROLE)) ∧
  (∀ (t : Instant) (c : Contrail) (role : Fin 5) (flags : Word) (term : BitVec 16) (rings : List Nat) (s : State), c.crcOk = true → s.inPair = true →
    flags.getLsbD 1 = true → s.tandem.partnerLost = false → Ends (.status t c role flags term rings) s (fun u => u.rd F.TD_STATUS_LINK_UP = 0 ∧
    u.tandem.clearFrom = (s.advance t).now)) ∧
  (∀ (t : Instant) (s : State), s.inPair = true → Ends (.statusSend t) s (fun u => u.tandem.txSeq = (s.tandem.txSeq + 1) % 2 ^ 32 ∧
    (u.tandem.sent.find 1).any (fun e => e.1 == s.tandem.txSeq && e.2.1 == (s.advance t).now) = true)) ∧
  (∀ (t : Instant) (s : State), s.inPair = true →
    s.tandem.heardAt.all (fun a => decide (1000 * (s.rd F.TD_LINK_TMO : Int) ≤ sinceNs (s.advance t).now a)) = true → s.rd F.TD_STATUS_LINK_UP ≠ 0 →
    Ends (.linkLost t) s (fun u => u.rd F.TD_STATUS_LINK_UP = 0 ∧ u.rdT F.TD_LOST_T = (s.advance t).now ∧ u.rd F.TD_STATUS_WARP_SYNC = 0 ∧
    (s.role = 1 → u.role = 2))) ∧
  (∀ (t : Instant) (s : State), s.inPair = true → s.rd F.TD_STATUS_LINK_UP = 0 →
    s.tandem.heardAt.any (fun a => decide (sinceNs (s.advance t).now a < 1000 * (s.rd F.TD_LINK_TMO : Int))) = true →
    100000000 ≤ sinceNs (s.advance t).now s.tandem.clearFrom → s.role ≠ 2 → Ends (.linkUp t true) s (fun u => u.rd F.TD_STATUS_LINK_UP = 1)) ∧
  (∀ (t : Instant) (same : Bool) (s : State), s.inPair = true → s.rd F.TD_STATUS_LINK_UP = 0 →
    s.tandem.heardAt.any (fun a => decide (sinceNs (s.advance t).now a < 1000 * (s.rd F.TD_LINK_TMO : Int))) = true →
    100000000 ≤ sinceNs (s.advance t).now s.tandem.clearFrom → s.role = 2 → s.coveredCount ≤ 8 →
    Ends (.linkUp t same) s (fun u => u.rd F.TD_STATUS_LINK_UP = 1 ∧ u.role = 3)) ∧
  (∀ (t : Instant) (s : State), s.inPair = true → s.role ≠ 0 →
    Ends (.timeSend t) s (fun u => (u.tandem.sent.find 7).any (fun e => e.2.1 == (s.advance t).now) = true ∧ u.regs = (s.advance t).regs)) ∧
  (∀ (t : Instant) (c : Contrail) (t1 t2 : Instant) (rate : Word) (s : State), c.crcOk = true → s.inPair = true → s.role ≠ 0 →
    Ends (.time t c t1 t2 rate) s (fun u => u.rd F.RATE_ADJ = rate.toNat ∧
    u.rdI F.TD_OFFSET = toSigned F.TD_OFFSET.width (ofSigned F.TD_OFFSET.width ((sinceS t2 t1 - sinceS (s.advance t).now c.sent) / 2)))) ∧
  (∀ (t : Instant) (c : Contrail) (t1 t2 : Instant) (rate : Word) (s : State), c.crcOk = true → s.inPair = true → s.role = 0 →
    Ends (.time t c t1 t2 rate) s (fun u => (u.tandem.sent.find 7).any (fun e => e.2.2 == leBytes 8 c.sent.toNat ++ leBytes 8 (s.advance t).now.toNat) = true ∧
    u.rd F.RATE_ADJ = s.rd F.RATE_ADJ)) ∧
  (∀ (t : Instant) (r : Fin 4) (s : State) (c : Instant), s.inPair = true → (s.ring r).cycleAt = some c →
    sinceNs (s.advance t).now c + 1000 = ((s.ring r).cfg.rxLimit : Int) → (s.rd F.RING_STATUS_BROKEN r = 0 ∨ ((s.ring r).copyF = none ∧
    (s.ring r).copyR = none) ∨ (s.copyAt r (s.rd F.RING_CYCLE r)).isSome = true) →
    Ends (.haveSend t r) s (fun u => (u.pairRing r).have_ = some (s.rd F.RING_CYCLE r, (s.copyAt r (s.rd F.RING_CYCLE r)).isSome) ∧
    (u.tandem.sent.find 5).isSome = true)) ∧
  (∀ (t : Instant) (c : Contrail) (r : Fin 4) (cycle : Instant) (have_ : Bool) (s : State), c.crcOk = true → s.inPair = true →
    Ends (.have_ t c r cycle have_) s (fun u => (u.pairRing r).theirs = some (cycle.toNat, have_))) ∧
  (∀ (t : Instant) (c : Contrail) (r : Fin 4) (cycle : Instant) (bytes : List Byte) (s : State), c.crcOk = true → s.inPair = true → s.role ≠ 0 →
    Ends (.inputs t c r cycle bytes) s (fun u => (u.pairRing r).copy = some (cycle.toNat, .inputs bytes))) ∧
  (∀ (t : Instant) (c : Contrail) (r : Fin 4) (cycle : Instant) (digest : BitVec 64) (s : State) (d : Nat), c.crcOk = true → s.inPair = true →
    (s.role = 1 ∨ (s.role = 0 ∧ s.rd F.TD_STATUS_PARTNER_ROLE = 1)) → s.rd F.TD_STATUS_ARBITRATING = 0 → s.rd F.TD_STATUS_SYNC_PHASE ≠ 3 →
    (s.pairRing r).digest = some (cycle.toNat, d) → d ≠ digest.toNat →
    Ends (.digest t c r cycle digest) s (fun u => u.rd F.TD_STATUS_ARBITRATING = 1 ∧ u.tandem.arbAt = (s.advance t).now ∧
    u.rd F.TD_DIV_WHERE_RING = r ∧ u.rd F.TD_DIV_WHERE_CYCLE = cycle.toNat % 2 ^ 30 ∧ bitOf (u.rd F.SYS_FAULT) 20 = true)) ∧
  (∀ (t : Instant) (c : Contrail) (r : Fin 4) (cycle : Instant) (digest : BitVec 64) (s : State), c.crcOk = true → s.inPair = true →
    s.rd F.TD_STATUS_SYNC_PHASE ≠ 3 → (s.pairRing r).digest = some (cycle.toNat, digest.toNat) →
    Ends (.digest t c r cycle digest) s (fun u => u.rd F.TD_STATUS_ARBITRATING = s.rd F.TD_STATUS_ARBITRATING ∧
    u.rd F.TD_DIV_CNT = s.rd F.TD_DIV_CNT ∧ (u.pairRing r).theirDigest = none)) ∧
  (∀ (t : Instant) (s : State), s.rd F.TD_STATUS_ARBITRATING ≠ 0 → s.tandem.ownCheck = none → s.tandem.theirCheck = some true →
    sinceNs (s.advance t).now s.tandem.arbAt ≤ 10000000 → s.role = 0 →
    Ends (.rapidSelfCheckDone t true) s (fun u => u.rd F.TD_STATUS_ARBITRATING = 0 ∧ u.tandem.ownCheck = some true ∧
    bitOf (u.rd F.TD_EVENT) 0 = true ∧ u.role = 0)) ∧
  (∀ (t : Instant) (s : State), s.rd F.TD_STATUS_ARBITRATING ≠ 0 → s.tandem.ownCheck = none → s.tandem.theirCheck = some false →
    sinceNs (s.advance t).now s.tandem.arbAt ≤ 10000000 → s.role = 0 →
    Ends (.rapidSelfCheckDone t true) s (fun u => u.rd F.TD_STATUS_ARBITRATING = 0 ∧ u.tandem.ownCheck = some true ∧
    bitOf (u.rd F.TD_EVENT) 8 = true ∧ u.role = 0)) ∧
  (∀ (t : Instant) (s : State), s.rd F.TD_STATUS_ARBITRATING ≠ 0 → s.tandem.ownCheck = none → s.tandem.theirCheck = some true →
    sinceNs (s.advance t).now s.tandem.arbAt ≤ 10000000 → s.role = 0 →
    Ends (.rapidSelfCheckDone t false) s (fun u => u.rd F.TD_STATUS_ARBITRATING = 0 ∧ u.tandem.ownCheck = some false ∧
    u.tandem.handover = some ⟨addNs (s.advance t).now 20000, (s.rd F.TD_STATUS_TERM + 1) % 2 ^ 16, false, true⟩ ∧ u.role = 0)) ∧
  (∀ (t : Instant) (s : State), s.rd F.TD_STATUS_ARBITRATING ≠ 0 → s.tandem.ownCheck = none → s.tandem.theirCheck = some false →
    sinceNs (s.advance t).now s.tandem.arbAt ≤ 10000000 → s.role = 0 →
    Ends (.rapidSelfCheckDone t false) s (fun u => u.rd F.TD_STATUS_ARBITRATING = 0 ∧ u.tandem.ownCheck = some false ∧
    bitOf (u.rd F.SYS_DEVFAULT) 7 = true ∧ u.warp.faultN = true)) ∧
  (∀ (t : Instant) (s : State), s.rd F.TD_STATUS_ARBITRATING ≠ 0 → s.tandem.ownCheck = none → s.tandem.theirCheck = some true →
    sinceNs (s.advance t).now s.tandem.arbAt ≤ 10000000 → s.role = 1 →
    Ends (.rapidSelfCheckDone t true) s (fun u => u.rd F.TD_STATUS_ARBITRATING = 0 ∧ u.tandem.ownCheck = some true ∧
    bitOf (u.rd F.TD_EVENT) 1 = true ∧ (u.role = 2 ∨ u.role = 3))) ∧
  (∀ (t : Instant) (s : State), s.rd F.TD_STATUS_ARBITRATING ≠ 0 → s.tandem.ownCheck = none → s.tandem.theirCheck = some true →
    sinceNs (s.advance t).now s.tandem.arbAt ≤ 10000000 → s.role = 1 →
    Ends (.rapidSelfCheckDone t false) s (fun u => u.rd F.TD_STATUS_ARBITRATING = 0 ∧ u.tandem.ownCheck = some false ∧ u.role = 4 ∧
    bitOf (u.rd F.TD_EVENT) 8 = true)) ∧
  (∀ (t : Instant) (s : State), s.rd F.TD_STATUS_ARBITRATING ≠ 0 → s.tandem.ownCheck = none → s.tandem.theirCheck = some false →
    sinceNs (s.advance t).now s.tandem.arbAt ≤ 10000000 → s.role = 1 →
    Ends (.rapidSelfCheckDone t true) s (fun u => u.rd F.TD_STATUS_ARBITRATING = 0 ∧ u.tandem.ownCheck = some true ∧ u.role = 1)) ∧
  (∀ (t : Instant) (s : State), s.rd F.TD_STATUS_ARBITRATING ≠ 0 → s.tandem.ownCheck = none → s.tandem.theirCheck = some false →
    sinceNs (s.advance t).now s.tandem.arbAt ≤ 10000000 → s.role = 1 →
    Ends (.rapidSelfCheckDone t false) s (fun u => u.rd F.TD_STATUS_ARBITRATING = 0 ∧ u.tandem.ownCheck = some false ∧ u.role = 4)) ∧
  (∀ (t : Instant) (pass : Bool) (s : State), s.rd F.TD_STATUS_ARBITRATING ≠ 0 → s.tandem.ownCheck = none → s.tandem.theirCheck = none →
    Ends (.rapidSelfCheckDone t pass) s (fun u => u.rd F.TD_STATUS_ARBITRATING = s.rd F.TD_STATUS_ARBITRATING ∧
    u.tandem.ownCheck = some (pass && decide (sinceNs (s.advance t).now s.tandem.arbAt ≤ 10000000)) ∧ (u.tandem.sent.find 11).isSome = true)) ∧
  (∀ (t : Instant) (c : Contrail) (s : State), 10000000 ≤ sinceNs (s.advance t).now s.tandem.arbAt → s.rd F.TD_STATUS_ARBITRATING ≠ 0 →
    s.tandem.theirCheck = none → s.tandem.ownCheck = some true → s.role = 0 → Ends (.check t c none) s (fun u => u.tandem.theirCheck = some false ∧
    u.rd F.TD_STATUS_ARBITRATING = 0 ∧ bitOf (u.rd F.TD_EVENT) 8 = true)) ∧
  (∀ (t : Instant) (c : Contrail) (ok : Bool) (s : State), c.crcOk = true → s.inPair = true → s.rd F.TD_STATUS_ARBITRATING ≠ 0 →
    s.tandem.theirCheck = none → s.tandem.ownCheck = none → Ends (.check t c (some ok)) s (fun u => u.tandem.theirCheck = some ok ∧
    u.rd F.TD_STATUS_ARBITRATING = s.rd F.TD_STATUS_ARBITRATING)) ∧
  (∀ (t : Instant) (c : Contrail) (at_ : Instant) (s : State), c.crcOk = true → s.inPair = true → s.role ≠ 0 →
    Ends (.cmd t c at_) s (fun u => u.tandem.admitted = s.tandem.admitted ++ [at_])) ∧
  (∀ (t : Instant) (acked : Bool) (s : State), s.tandem.admitted.contains (s.advance t).now = true →
    Ends (.executionInstant t acked) s (fun u => u.tandem.execAt = some (s.advance t).now ∧
    u.tandem.admitted = s.tandem.admitted.erase (s.advance t).now ∧ (s.holds = true → acked = false → u.rd F.TD_STATUS_PARTNER_ROLE = 2)))

/-- JOIN makes an OFFLINE unit REPAIRED as soon as R365 allows it, LEAVE makes a unit OFFLINE; with another role expected
JOIN, LEAVE and RESYNC only set STATE_MISMATCH, and where they do not apply only CMD_REFUSED.  RESYNC and a due retry
begin a synchronisation that finds the link, the rings and the images right; without the link or a holder it fails with
RESULT 1.  At a sync instant the holder takes its snapshot; every chunk is acknowledged and the last begins catch-up; the
first chunk not acknowledged goes out next.  Replay that has reached the present begins the match, and one that has not
within REPLAY_MS fails with RESULT 5. -/
def Obligations.TandemUnitsJoinAndSynchronise : Prop :=
  (∀ (t : Instant) (value : Word) (s : State), s.admits 0xC00010 = true → value.toNat % 16 = 1 → value.toNat / 2 ^ 8 % 8 = 4 → s.inPair = true →
    s.role = 4 → s.rd F.LOOM_BEAM_STATUS_STATE = 2 → s.rd F.TD_STATUS_LINK_UP ≠ 0 → s.rd F.TD_STATUS_PARTNER_ROLE = 0 →
    Ends (.join t value) s (fun u => u.role = 3 ∧ u.tandem.sync = none)) ∧
  (∀ (t : Instant) (value : Word) (s : State), s.admits 0xC00010 = true → value.toNat % 16 = 1 → value.toNat / 2 ^ 8 % 8 = 4 → s.inPair = true →
    s.role = 4 → (s.rd F.LOOM_BEAM_STATUS_STATE ≠ 2 ∨ s.rd F.TD_STATUS_LINK_UP = 0 ∨ s.rd F.TD_STATUS_PARTNER_ROLE ≠ 0) →
    Ends (.join t value) s (fun u => u.role = 4 ∧ u.tandem.joins = true)) ∧
  (∀ (t : Instant) (value : Word) (s : State), s.admits 0xC00010 = true → value.toNat % 16 ≠ 0 → value.toNat / 2 ^ 8 % 8 ≠ s.role →
    Ends (.join t value) s (fun u => u.role = s.role ∧ bitOf (u.rd F.TD_EVENT) 13 = true ∧ u.tandem = s.tandem)) ∧
  (∀ (t : Instant) (value : Word) (s : State), s.admits 0xC00010 = true → value.toNat % 16 ≠ 0 → value.toNat / 2 ^ 8 % 8 = s.role →
    (value.toNat % 16 ≠ 1 ∨ s.inPair = false ∨ s.role ≠ 4) → Ends (.join t value) s (fun u => u.role = s.role ∧ bitOf (u.rd F.TD_EVENT) 14 = true ∧
    u.tandem = s.tandem)) ∧
  (∀ (t : Instant) (value : Word) (s : State), s.admits 0xC00010 = true → value.toNat % 16 = 8 → value.toNat / 2 ^ 8 % 8 = s.role → s.inPair = true →
    (s.role ≠ 0 ∨ s.rd F.TD_STATUS_PARTNER_ROLE = 1) → Ends (.leave t value) s (fun u => u.role = 4 ∧ u.rd F.TD_STATUS_SYNC_PHASE = 0)) ∧
  (∀ (t : Instant) (value : Word) (s : State), s.admits 0xC00010 = true → value.toNat % 16 ≠ 0 → value.toNat / 2 ^ 8 % 8 ≠ s.role →
    Ends (.leave t value) s (fun u => u.role = s.role ∧ bitOf (u.rd F.TD_EVENT) 13 = true ∧ u.tandem = s.tandem)) ∧
  (∀ (t : Instant) (value : Word) (s : State), s.admits 0xC00010 = true → value.toNat % 16 ≠ 0 → value.toNat / 2 ^ 8 % 8 = s.role →
    (value.toNat % 16 ≠ 8 ∨ s.inPair = false ∨ (s.role = 0 ∧ s.rd F.TD_STATUS_PARTNER_ROLE ≠ 1)) → Ends (.leave t value) s (fun u => u.role = s.role ∧
    bitOf (u.rd F.TD_EVENT) 14 = true ∧ u.tandem = s.tandem)) ∧
  (∀ (t : Instant) (value : Word) (s : State), s.admits 0xC00010 = true → value.toNat % 16 = 4 → value.toNat / 2 ^ 8 % 8 = s.role → s.inPair = true →
    (s.role = 2 ∨ s.role = 3) → s.rd F.TD_STATUS_SYNC_PHASE = 0 → s.rd F.TD_STATUS_LINK_UP ≠ 0 → s.rd F.TD_STATUS_PARTNER_ROLE = 0 →
    s.localIo = false → s.ringsThere = true → Ends (.resync t value true) s (fun u => u.role = 3 ∧ u.rd F.TD_STATUS_SYNC_PHASE = 1)) ∧
  (∀ (t : Instant) (value : Word) (s : State), s.admits 0xC00010 = true → value.toNat % 16 ≠ 0 → value.toNat / 2 ^ 8 % 8 ≠ s.role →
    Ends (.resync t value true) s (fun u => u.role = s.role ∧ bitOf (u.rd F.TD_EVENT) 13 = true ∧ u.tandem = s.tandem)) ∧
  (∀ (t : Instant) (value : Word) (s : State), s.admits 0xC00010 = true → value.toNat % 16 ≠ 0 → value.toNat / 2 ^ 8 % 8 = s.role →
    (value.toNat % 16 ≠ 4 ∨ s.inPair = false ∨ (s.role ≠ 2 ∧ s.role ≠ 3) ∨ s.rd F.TD_STATUS_SYNC_PHASE ≠ 0) →
    Ends (.resync t value true) s (fun u => u.role = s.role ∧ bitOf (u.rd F.TD_EVENT) 14 = true ∧ u.tandem = s.tandem)) ∧
  (∀ (t : Instant) (value : Word) (same : Bool) (s : State), s.admits 0xC00010 = true → value.toNat % 16 = 4 → value.toNat / 2 ^ 8 % 8 = s.role →
    s.inPair = true → (s.role = 2 ∨ s.role = 3) → s.rd F.TD_STATUS_SYNC_PHASE = 0 → (s.rd F.TD_STATUS_LINK_UP = 0 ∨
    s.rd F.TD_STATUS_PARTNER_ROLE ≠ 0) → Ends (.resync t value same) s (fun u => u.role = 3 ∧ u.rd F.TD_STATUS_SYNC_PHASE = 0 ∧ u.rd F.TD_RESULT = 1 ∧
    bitOf (u.rd F.TD_EVENT) 10 = true)) ∧
  (∀ (t : Instant) (s : State) (a : Instant), s.role = 3 → s.rd F.TD_STATUS_SYNC_PHASE = 0 → s.coveredCount ≤ 8 → s.tandem.retryAt = some a →
    notLater a (s.advance t).now = true → s.rd F.TD_STATUS_LINK_UP ≠ 0 → s.rd F.TD_STATUS_PARTNER_ROLE = 0 → s.localIo = false → s.ringsThere = true →
    Ends (.resyncRetry t true) s (fun u => u.role = 3 ∧ u.rd F.TD_STATUS_SYNC_PHASE = 1 ∧ u.tandem.retryAt = none)) ∧
  (∀ (t : Instant) (chunks : Word) (s : State), s.inPair = true → s.rd F.TD_STATUS_LINK_UP ≠ 0 → onGrid 1000000 0 (s.advance t).now = true →
    s.tandem.sync = none → s.role = 0 → s.rd F.TD_STATUS_PARTNER_ROLE = 3 →
    Ends (.syncInstant t chunks) s (fun u => u.tandem.sync = some ⟨(s.advance t).now, some (s.advance t).takeSnapshot, chunks.toNat, []⟩ ∧
    (u.tandem.sent.find 13).isSome = true)) ∧
  (∀ (t : Instant) (chunks : Word) (s : State), s.inPair = true → s.rd F.TD_STATUS_LINK_UP ≠ 0 → onGrid 1000000 0 (s.advance t).now = true →
    s.tandem.sync = none → s.role = 3 → s.rd F.TD_STATUS_SYNC_PHASE = 1 →
    Ends (.syncInstant t chunks) s (fun u => u.tandem.sync = some ⟨(s.advance t).now, none, chunks.toNat, []⟩)) ∧
  (∀ (t : Instant) (c : Contrail) (chunk chunks : Word) (whole : Snapshot) (s : State) (x : Syncing), c.crcOk = true → s.inPair = true →
    s.tandem.sync = some x → s.role = 3 → s.rd F.TD_STATUS_SYNC_PHASE = 1 →
    (List.range chunks.toNat).all (fun i => i == chunk.toNat || x.done.contains i) = true →
    Ends (.snap t c chunk chunks whole) s (fun u => u.rd F.TD_STATUS_SYNC_PHASE = 2 ∧ u.tandem.sync.any (fun y => y.snap == some whole) = true ∧
    (u.tandem.sent.find 14).isSome = true)) ∧
  (∀ (t : Instant) (c : Contrail) (chunk chunks : Word) (whole : Snapshot) (s : State) (x : Syncing), c.crcOk = true → s.inPair = true →
    s.tandem.sync = some x → s.role = 3 → s.rd F.TD_STATUS_SYNC_PHASE = 1 →
    (List.range chunks.toNat).all (fun i => i == chunk.toNat || x.done.contains i) = false →
    Ends (.snap t c chunk chunks whole) s (fun u => u.rd F.TD_STATUS_SYNC_PHASE = 1 ∧
    u.tandem.sync.any (fun y => y.done.contains chunk.toNat) = true ∧ (u.tandem.sent.find 14).isSome = true)) ∧
  (∀ (t : Instant) (c : Contrail) (chunk : Word) (s : State) (x : Syncing), c.crcOk = true → s.inPair = true → s.tandem.sync = some x → s.role = 0 →
    (List.range x.chunks).all (fun i => i == chunk.toNat || x.done.contains i) = false →
    Ends (.snapAck t c chunk) s (fun u => u.tandem.sync.any (fun y => y.done.contains chunk.toNat) = true ∧
    (u.tandem.sent.find 13).any (fun e => e.2.1 == (s.advance t).now) = true)) ∧
  (∀ (t : Instant) (c : Contrail) (chunk : Word) (s : State) (x : Syncing), c.crcOk = true → s.inPair = true → s.tandem.sync = some x → s.role = 0 →
    (List.range x.chunks).all (fun i => i == chunk.toNat || x.done.contains i) = true → Ends (.snapAck t c chunk) s (fun u => u.tandem.sync = none ∧
    u.rd F.TD_SYNC_AVG = ((sinceNs (s.advance t).now x.at_).toNat / 1000000) % 2 ^ F.TD_SYNC_AVG.width)) ∧
  (∀ (t : Instant) (state : Snapshot) (s : State), s.role = 3 → s.rd F.TD_STATUS_SYNC_PHASE = 2 →
    Ends (.catchUpDone t state) s (fun u => u.rd F.TD_STATUS_SYNC_PHASE = 3)) ∧
  (∀ (t : Instant) (s : State) (x : Syncing), s.tandem.sync = some x → s.role = 3 → (s.rd F.TD_STATUS_SYNC_PHASE = 1 ∨
    s.rd F.TD_STATUS_SYNC_PHASE = 2) → 1000000 * (s.rd F.TD_LINK_REPLAY_MS : Int) ≤ sinceNs (s.advance t).now x.at_ →
    Ends (.replayTimeout t) s (fun u => u.rd F.TD_RESULT = 5 ∧ u.rd F.TD_STATUS_SYNC_PHASE = 0 ∧ u.tandem.sync = none ∧
    u.tandem.retryAt = some (addNs (s.advance t).now 1000000000) ∧ bitOf (u.rd F.TD_EVENT) 10 = true))

/-- SWITCH proposes a hand-over; the STANDBY acknowledges it, the holder commits and both are bound; at X the old holder
is STANDBY and the partner ACTIVE with the new TERM.  Without an acknowledgement the holder keeps the token; after a failed
self-check the old holder is OFFLINE.  Renewals
carry the expiry to the partner and back.  With the link lost only a ring witness renews.  A holder at its stop instant is
SYNC_LOST; a STANDBY that has heard nothing at its own instant takes the token, a SYNC_LOST or REPAIRED unit only with
TAKEOVER_STALE, and an OFFLINE unit by SOLO_START. -/
def Obligations.TandemTokenMovesByHandoverAndLease : Prop :=
  (∀ (t : Instant) (value : Word) (s : State), s.admits 0xC00010 = true → value.toNat % 16 = 2 → value.toNat / 2 ^ 8 % 8 = 0 → s.inPair = true →
    s.role = 0 → s.rd F.TD_STATUS_PARTNER_ROLE = 1 → s.rd F.TD_STATUS_ARBITRATING = 0 → s.tandem.handover = none → s.rd F.TD_SWITCH_AT = 0 →
    Ends (.switch t value) s (fun u => u.tandem.handover = some ⟨addNs (s.advance t).now 100000, (s.rd F.TD_STATUS_TERM + 1) % 2 ^ 16, false, false⟩ ∧
    (u.tandem.sent.find 8).isSome = true ∧ u.role = 0)) ∧
  (∀ (t : Instant) (value : Word) (s : State), s.admits 0xC00010 = true → value.toNat % 16 = 2 → value.toNat / 2 ^ 8 % 8 = 0 → s.inPair = true →
    s.role = 0 → s.rd F.TD_STATUS_PARTNER_ROLE = 1 → s.rd F.TD_STATUS_ARBITRATING = 0 → s.tandem.handover = none → s.rdT F.TD_SWITCH_AT ≠ 0 →
    100000 ≤ sinceNs (s.rdT F.TD_SWITCH_AT) (s.advance t).now →
    Ends (.switch t value) s (fun u => u.tandem.handover = some ⟨s.rdT F.TD_SWITCH_AT, (s.rd F.TD_STATUS_TERM + 1) % 2 ^ 16, false, false⟩ ∧
    u.role = 0)) ∧
  (∀ (t : Instant) (value : Word) (s : State), s.admits 0xC00010 = true → value.toNat % 16 ≠ 0 → value.toNat / 2 ^ 8 % 8 ≠ s.role →
    Ends (.switch t value) s (fun u => u.role = s.role ∧ bitOf (u.rd F.TD_EVENT) 13 = true ∧ u.tandem = s.tandem)) ∧
  (∀ (t : Instant) (value : Word) (s : State), s.admits 0xC00010 = true → value.toNat % 16 ≠ 0 → value.toNat / 2 ^ 8 % 8 = s.role →
    (value.toNat % 16 ≠ 2 ∨ s.inPair = false ∨ s.role ≠ 0 ∨ s.rd F.TD_STATUS_PARTNER_ROLE ≠ 1 ∨ s.rd F.TD_STATUS_ARBITRATING ≠ 0 ∨
    s.tandem.handover ≠ none) → Ends (.switch t value) s (fun u => u.role = s.role ∧ bitOf (u.rd F.TD_EVENT) 14 = true ∧ u.tandem = s.tandem)) ∧
  (∀ (t : Instant) (c : Contrail) (term : BitVec 16) (x : Instant) (s : State), c.crcOk = true → s.inPair = true → s.role = 1 →
    Ends (.handover t c term x) s (fun u => u.tandem.offered = some ⟨x, term.toNat, false, false⟩ ∧ (u.tandem.sent.find 9).isSome = true)) ∧
  (∀ (t : Instant) (c : Contrail) (s : State) (h : Handover), c.crcOk = true → s.inPair = true → s.tandem.handover = some h → s.role = 0 →
    h.term < 2 ^ 16 → h.committed = false → 5000 ≤ sinceNs h.x (s.advance t).now →
    Ends (.handoverAck t c (BitVec.ofNat 16 h.term) h.x) s (fun u => u.tandem.handover = some { h with committed := true } ∧
    (u.tandem.sent.find 10).isSome = true)) ∧
  (∀ (t : Instant) (s : State) (h : Handover), s.tandem.handover = some h → h.committed = false → sinceNs h.x (s.advance t).now ≤ 5000 →
    Ends (.commitDeadline t) s (fun u => u.tandem.handover = none ∧ bitOf (u.rd F.TD_EVENT) 7 = true ∧ u.role = s.role)) ∧
  (∀ (t : Instant) (c : Contrail) (s : State) (h : Handover), c.crcOk = true → s.inPair = true → s.tandem.offered = some h → h.term < 2 ^ 16 →
    2000 ≤ sinceNs h.x (s.advance t).now →
    Ends (.commit t c (BitVec.ofNat 16 h.term) h.x) s (fun u => u.tandem.offered = some { h with committed := true })) ∧
  (∀ (t : Instant) (s : State) (h : Handover), s.tandem.handover = some h → h.committed = true → h.x = (s.advance t).now → s.role = 0 →
    h.offline = false → Ends (.handoverInstant t) s (fun u => u.role = 1 ∧ u.rd F.TD_STATUS_TERM = h.term % 2 ^ F.TD_STATUS_TERM.width ∧
    u.rdT F.TD_LAST_SWITCH = h.x ∧ u.tandem.handover = none ∧ u.rd F.RING_CTRL_ROLE = (if s.inPair then 1 else 0))) ∧
  (∀ (t : Instant) (s : State) (h : Handover), s.tandem.handover = some h → h.committed = true → h.x = (s.advance t).now → s.role = 0 →
    h.offline = true → Ends (.handoverInstant t) s (fun u => u.role = 4 ∧ u.rd F.TD_STATUS_TERM = h.term % 2 ^ F.TD_STATUS_TERM.width ∧
    u.rdT F.TD_LAST_SWITCH = h.x ∧ u.tandem.handover = none ∧ bitOf (u.rd F.TD_EVENT) 6 = true)) ∧
  (∀ (t : Instant) (s : State) (h : Handover), s.tandem.handover = none → s.tandem.offered = some h → h.committed = true → h.x = (s.advance t).now →
    s.role ≠ 0 → Ends (.handoverInstant t) s (fun u => u.role = 0 ∧ u.rd F.TD_STATUS_TERM = h.term % 2 ^ F.TD_STATUS_TERM.width ∧
    u.rdT F.TD_LAST_SWITCH = h.x ∧ u.tandem.offered = none ∧ u.rd F.RING_CTRL_ROLE = 0)) ∧
  (∀ (t : Instant) (s : State), s.holds = true → onGrid (s.leaseNs / 4) 0 (s.advance t).now = true → s.rd F.TD_STATUS_LINK_UP ≠ 0 →
    Ends (.renewalInstant t) s (fun u => (u.tandem.sent.find 2).any (fun e => e.2.2 == termPayload (s.rd F.TD_STATUS_TERM) (addNs (s.advance t).now s.leaseNs)) = true ∧
    (u.pairRing 0).whole = false)) ∧
  (∀ (t : Instant) (s : State), s.holds = true → onGrid (s.leaseNs / 4) 0 (s.advance t).now = true → s.rd F.TD_STATUS_LINK_UP = 0 →
    Ends (.renewalInstant t) s (fun u => u.expiry = (if (List.range 4).any s.witness then addNs (s.advance t).now s.leaseNs else s.expiry))) ∧
  (∀ (t : Instant) (c : Contrail) (term : BitVec 16) (e : Instant) (s : State), c.crcOk = true → s.inPair = true → s.role ≠ 0 →
    Ends (.renew t c term e) s (fun u => u.rd F.TD_STATUS_TERM = term.toNat ∧ u.expiry = e ∧
    (u.tandem.sent.find 3).any (fun x => x.2.2 == termPayload term.toNat e) = true)) ∧
  (∀ (t : Instant) (c : Contrail) (term : BitVec 16) (e : Instant) (s : State), c.crcOk = true → s.inPair = true → s.role = 0 →
    term.toNat = s.rd F.TD_STATUS_TERM → Ends (.renewAck t c term e) s (fun u => u.expiry = e ∧ u.role = 0)) ∧
  (∀ (t : Instant) (s : State), s.holds = true → notLater (s.advance t).stopInstant (s.advance t).now = true →
    Ends (.lapse t) s (fun u => u.role = 2 ∧ bitOf (u.rd F.TD_EVENT) 1 = true ∧ bitOf (u.rd F.TD_EVENT) 4 = true ∧ u.rd F.RING_CTRL_ROLE = 1)) ∧
  (∀ (t : Instant) (s : State), s.inPair = true → s.role = 1 → notLater (s.advance t).actInstant (s.advance t).now = true → s.heardSince = false →
    Ends (.takeover t) s (fun u => u.role = 0 ∧ u.rd F.TD_STATUS_TERM = (s.rd F.TD_STATUS_TERM + 1) % 2 ^ 16 ∧
    u.expiry = addNs (s.advance t).now s.leaseNs ∧ bitOf (u.rd F.TD_EVENT) 2 = true)) ∧
  (∀ (t : Instant) (s : State), s.inPair = true → (s.role = 2 ∨ s.role = 3) → s.rd F.TD_CFG_TAKEOVER_STALE ≠ 0 →
    notLater (s.advance t).actInstant (s.advance t).now = true → s.heardSince = false → Ends (.takeover t) s (fun u => u.role = 0 ∧
    u.rd F.TD_STATUS_TERM = (s.rd F.TD_STATUS_TERM + 1) % 2 ^ 16 ∧ u.rd F.TD_STATUS_SYNC_PHASE = 0 ∧ bitOf (u.rd F.TD_EVENT) 3 = true)) ∧
  (∀ (t : Instant) (s : State), s.inPair = true → s.role ≠ 0 → s.role ≠ 1 → (s.role = 4 ∨ s.rd F.TD_CFG_TAKEOVER_STALE = 0) →
    notLater (s.advance t).actInstant (s.advance t).now = true → s.heardSince = false → Ends (.takeover t) s (fun u => u.role = s.role ∧
    u.rd F.TD_STATUS_TERM = s.rd F.TD_STATUS_TERM ∧ bitOf (u.rd F.TD_EVENT) 5 = true)) ∧
  (∀ (t : Instant) (s : State), s.heardSince = true → Ends (.takeover t) s (fun u => u.role = s.role ∧ u.tandem = s.tandem)) ∧
  (∀ (t : Instant) (s : State) (a : Instant), s.inPair = true → s.role = 4 → s.rd F.TD_CFG_SOLO_START ≠ 0 → s.rd F.RING_STATUS_STATE 0 = 5 →
    s.rd F.RING_CTRL_EN 1 = 0 → s.rd F.RING_CTRL_EN 2 = 0 → s.rd F.RING_CTRL_EN 3 = 0 → s.rd F.RING_STATUS_STATE 1 ≠ 5 →
    s.rd F.RING_STATUS_STATE 2 ≠ 5 → s.rd F.RING_STATUS_STATE 3 ≠ 5 → (s.pairRing 0).listenAt = some a → (s.pairRing 0).heard = none →
    ((2 * (s.leaseNs + s.guardNs) : Nat) : Int) ≤ sinceNs (s.advance t).now a → Ends (.soloStart t) s (fun u => u.role = 0 ∧
    u.rd F.TD_STATUS_TERM = (s.rd F.TD_STATUS_TERM + 1) % 2 ^ 16 ∧ u.rd F.RING_STATUS_STATE 0 = 4))

/-! ### Zenith and field updates (15) -/

/-- An authority record is answered with the first check of Table 15.6 that fails, and changes nothing of Zenith; one that
passes has the effect of its OP.  A floor that is not lost never falls; a lost one takes the value given.  A challenge leaves a fresh nonce outstanding; a
response that opens debug sets its level and its end, any other leaves the level; debug closes on command and at its
end.  A report is the body of Table 15.8 with its signature and the certificate.  The drawn nonce and the signature are
free values (log 1). -/
def Obligations.AuthorityDebugAndAttestation : Prop :=
  (∀ (t : Instant) (a : AuthRec) (readBack : Bool) (s : State), s.mayExecute 0x20 16 anyArgs = true → s.nextFits 16 = true →
    s.authResult a readBack ≠ 0 → Ends (.authority t a readBack) s (fun u => u.rd F.SEC_AUTH_RESULT_RESULT = s.authResult a readBack ∧ u.sec = s.sec ∧
    u.answer.result = s.authResult a readBack ∧ bitOf (u.rd F.SEC_EVENT) 1 = true)) ∧
  (∀ (t : Instant) (a : AuthRec) (s : State), s.mayExecute 0x20 16 anyArgs = true → s.nextFits 16 = true → s.authResult a true = 0 → a.op = 1 →
    Ends (.authority t a true) s (fun u => u.sec.rootKey.find a.target = some a.key ∧ bitOf (u.rd F.SEC_STATUS_PROGRAMMED) a.target = true ∧
    u.rd F.SEC_STATUS_LIFECYCLE = 1 ∧ u.answer.result = 0)) ∧
  (∀ (t : Instant) (a : AuthRec) (s : State), s.mayExecute 0x20 16 anyArgs = true → s.nextFits 16 = true → s.authResult a true = 0 → a.op = 2 →
    Ends (.authority t a true) s (fun u => bitOf (u.rd F.SEC_STATUS_REVOKED) a.target = true ∧ u.sec = s.sec ∧ u.answer.result = 0)) ∧
  (∀ (t : Instant) (a : AuthRec) (s : State), s.mayExecute 0x20 16 anyArgs = true → s.nextFits 16 = true → s.authResult a true = 0 → a.op = 3 →
    Ends (.authority t a true) s (fun u => u.sec.authors.find a.target = some (a.key, a.parts) ∧ bitOf (u.rd F.SEC_AUTHOR_KEYS) a.target = true ∧
    u.answer.result = 0)) ∧
  (∀ (t : Instant) (a : AuthRec) (s : State), s.mayExecute 0x20 16 anyArgs = true → s.nextFits 16 = true → s.authResult a true = 0 → a.op = 4 →
    Ends (.authority t a true) s (fun u => u.sec.authors.find a.target = none ∧ bitOf (u.rd F.SEC_AUTHOR_KEYS) a.target = false ∧
    u.answer.result = 0)) ∧
  (∀ (t : Instant) (a : AuthRec) (s : State), s.mayExecute 0x20 16 anyArgs = true → s.authResult a true = 0 → a.op = 5 → a.value < 2 ^ 32 →
    s.sec.lost.contains (a.target, if 3 ≤ a.target then a.parts else 0) = false →
    Ends (.authority t a true) s (fun u => u.rd (floorField a.target) (if 3 ≤ a.target then a.parts else 0) = max a.value (s.rd (floorField a.target) (if 3 ≤ a.target then a.parts else 0)) % 2 ^ (floorField a.target).width ∧
    u.sec = s.sec)) ∧
  (∀ (t : Instant) (a : AuthRec) (s : State), s.mayExecute 0x20 16 anyArgs = true → s.authResult a true = 0 → a.op = 5 →
    s.sec.lost.contains (a.target, if 3 ≤ a.target then a.parts else 0) = true →
    Ends (.authority t a true) s (fun u => u.rd (floorField a.target) (if 3 ≤ a.target then a.parts else 0) = a.value % 2 ^ (floorField a.target).width ∧
    u.sec.lost = s.sec.lost.filter (· != (a.target, if 3 ≤ a.target then a.parts else 0)) ∧
    u.rd F.SEC_STATUS_FLOOR_LOST = b2n (!u.sec.lost.isEmpty))) ∧
  (∀ (t : Instant) (a : AuthRec) (r : Fin 4) (s : State), s.mayExecute 0x20 16 anyArgs = true → s.authResult a true = 0 → a.op = 6 →
    bitOf a.target r = true → Ends (.authority t a true) s (fun u => u.sec.ringPending.find r = some a.ringKey ∧
    bitOf (u.rd F.SEC_RING_KEYS_PENDING) r = true ∧ u.sec.ringKeys = s.sec.ringKeys)) ∧
  (∀ (t : Instant) (jtag : Bool) (s : State), jtag = true ∨ s.mayExecute 0x22 16 anyArgs = true →
    Ends (.debugChallenge t jtag) s (fun u => u.sec.nonce = some (Config.random s.freeCtr, (s.advance t).compensated) ∧ u.freeCtr = s.freeCtr + 1 ∧
    u.rd F.SEC_STATUS_DEBUG_LEVEL = s.rd F.SEC_STATUS_DEBUG_LEVEL)) ∧
  (∀ (t : Instant) (jtag : Bool) (r : DebugResp) (s : State), jtag = true ∨ (s.mayExecute 0x23 16 anyArgs = true ∧ s.nextFits 16 = true) →
    (s.advance t).responseOk r = true → Ends (.debugOpen t jtag r) s (fun u => u.rd F.SEC_STATUS_DEBUG_LEVEL = r.level ∧
    u.rd F.SEC_DEBUG_REMAIN = r.durationS ∧ u.sec.nonce = none ∧ u.sec.debugEnd = addNs (s.advance t).compensated (1000000000 * r.durationS) ∧
    u.answer.result = 0)) ∧
  (∀ (t : Instant) (jtag : Bool) (r : DebugResp) (s : State), jtag = true ∨ (s.mayExecute 0x23 16 anyArgs = true ∧ s.nextFits 16 = true) →
    (s.advance t).responseOk r = false → Ends (.debugOpen t jtag r) s (fun u => u.rd F.SEC_STATUS_DEBUG_LEVEL = s.rd F.SEC_STATUS_DEBUG_LEVEL ∧
    u.sec.debugEnd = s.sec.debugEnd ∧ u.answer.result = 1)) ∧
  (∀ (t : Instant) (jtag : Bool) (s : State), jtag = true ∨ s.mayExecute 0x24 16 anyArgs = true →
    Ends (.debugClose t jtag) s (fun u => u.rd F.SEC_STATUS_DEBUG_LEVEL = 0 ∧ (s.rd F.SEC_STATUS_DEBUG_LEVEL ≠ 0 → u.rd F.SEC_DEBUG_REMAIN = 0) ∧
    u.sec = s.sec)) ∧
  (∀ (t : Instant) (s : State), notLater s.sec.debugEnd (s.advance t).compensated = true →
    Ends (.debugExpiry t) s (fun u => u.rd F.SEC_STATUS_DEBUG_LEVEL = 0 ∧ u.sec = s.sec)) ∧
  (∀ (t : Instant) (s : State), notLater s.sec.debugEnd (s.advance t).compensated = false → Ends (.debugExpiry t) s (fun u => u = s.advance t)) ∧
  (∀ (t : Instant) (nonce : BitVec 256) (s : State), s.mayExecute 0x25 16 anyArgs = true → s.nextFits 16 = true →
    Ends (.attest t nonce) s (fun u => u.answer = ⟨0, 0, (s.advance t).attestBody nonce ++ leBytes 96 (Config.ecdsaSign 1 ((s.advance t).attestBody nonce)).toNat ++ Config.certificate⟩ ∧
    bitOf (u.rd F.SEC_EVENT) 6 = true ∧ u.sec = s.sec))

/-- APPLY_DELTA is refused with the first check of Table 15.13 that fails, or runs into the inactive slot, which reads EMPTY
until the application ends: STAGED with the container as its record, or EMPTY with its result.  ACTIVATE arms 10 ms
ahead or more; CANCEL goes back to STAGED; CONFIRM makes the trial slot active and raises the floors.  A command whose
EXPECT is not the state only sets STATE_MISMATCH, and one in another state than its own, or with a second command bit,
only CMD_REFUSED.  At UPD_AT the unit restarts with cause UPDATE if every partition is in
STOP, else the activation is deferred. -/
def Obligations.FieldUpdatesStageArmAndConfirm : Prop :=
  (∀ (t : Instant) (d : Delta) (s : State), s.mayExecute 0x21 16 anyArgs = true → s.nextFits 16 = true → s.deltaResult d ≠ 0 →
    Ends (.applyDelta t d) s (fun u => u.rd F.UPD_STATUS_APPLY_RESULT = s.deltaResult d ∧ bitOf (u.rd F.UPD_EVENT) 1 = true ∧ u.sec = s.sec ∧
    u.rd F.UPD_STATUS_STATE = s.rd F.UPD_STATUS_STATE ∧ u.answer.result = s.deltaResult d)) ∧
  (∀ (t : Instant) (d : Delta) (s : State), s.mayExecute 0x21 16 anyArgs = true → s.nextFits 16 = true → s.deltaResult d = 0 →
    Ends (.applyDelta t d) s (fun u => u.rd F.UPD_STATUS_STATE = 1 ∧ u.sec.running = some d ∧ u.sec.slots.find s.inactive = none ∧
    u.sec.record = none ∧ u.rd F.UPD_PROGRESS = 0 ∧ u.slotState s.inactive = 0 ∧ u.sec.active = s.sec.active ∧ u.answer.result = 0)) ∧
  (∀ (t : Instant) (d : Delta) (result : Bundle) (kibS : Word) (s : State), s.sec.running = some d →
    Ends (.deltaApplyDone t result 0 kibS) s (fun u => u.rd F.UPD_STATUS_STATE = 2 ∧ u.sec.slots.find s.inactive = some result ∧
    u.sec.record = some (s.inactive, d) ∧ u.sec.running = none ∧ u.slotState s.inactive = 2 ∧ u.rd F.UPD_STATUS_APPLY_RESULT = 0 ∧
    bitOf (u.rd F.UPD_EVENT) 0 = true)) ∧
  (∀ (t : Instant) (d : Delta) (result : Bundle) (code : Fin 8) (kibS : Word) (s : State), s.sec.running = some d → code ≠ 0 →
    Ends (.deltaApplyDone t result code kibS) s (fun u => u.rd F.UPD_STATUS_STATE = 0 ∧ u.sec.slots.find s.inactive = none ∧ u.sec.running = none ∧
    u.slotState s.inactive = 0 ∧ u.rd F.UPD_STATUS_APPLY_RESULT = code ∧ bitOf (u.rd F.UPD_EVENT) 1 = true)) ∧
  (∀ (t : Instant) (value : Word) (s : State), s.admits 0xD00200 = true → value.toNat % 8 = 1 → value.toNat / 256 % 8 = 2 →
    s.rd F.UPD_STATUS_STATE = 2 → 10000000 ≤ sinceNs (s.rdT F.UPD_AT) (s.advance t).now →
    Ends (.activate t value) s (fun u => u.rd F.UPD_STATUS_STATE = 3 ∧ u.sec = s.sec)) ∧
  (∀ (t : Instant) (value : Word) (s : State), s.admits 0xD00200 = true → value.toNat % 8 = 1 → value.toNat / 256 % 8 = 2 →
    s.rd F.UPD_STATUS_STATE = 2 → sinceNs (s.rdT F.UPD_AT) (s.advance t).now < 10000000 →
    Ends (.activate t value) s (fun u => u.rd F.UPD_STATUS_STATE = 2 ∧ bitOf (u.rd F.UPD_EVENT) 7 = true)) ∧
  (∀ (t : Instant) (value : Word) (s : State), s.admits 0xD00200 = true → value.toNat % 8 = 1 → value.toNat / 256 % 8 ≠ s.rd F.UPD_STATUS_STATE →
    Ends (.activate t value) s (fun u => u.rd F.UPD_STATUS_STATE = s.rd F.UPD_STATUS_STATE ∧ bitOf (u.rd F.UPD_EVENT) 6 = true ∧ u.sec = s.sec)) ∧
  (∀ (t : Instant) (value : Word) (s : State), s.admits 0xD00200 = true → value.toNat % 8 = 4 → value.toNat / 256 % 8 = 3 →
    s.rd F.UPD_STATUS_STATE = 3 → Ends (.updCancel t value) s (fun u => u.rd F.UPD_STATUS_STATE = 2 ∧ u.sec = s.sec)) ∧
  (∀ (t : Instant) (value : Word) (s : State), s.admits 0xD00200 = true → value.toNat % 8 = 2 → value.toNat / 256 % 8 = 4 →
    s.rd F.UPD_STATUS_STATE = 4 → Ends (.confirm t value) s (fun u => u.rd F.UPD_STATUS_STATE = 0 ∧ u.sec.active = s.rd F.UPD_STATUS_ACTIVE_SLOT ∧
    u.sec.record = none ∧ u.slotState (s.rd F.UPD_STATUS_ACTIVE_SLOT) = 1 ∧ bitOf (u.rd F.UPD_EVENT) 5 = true)) ∧
  (∀ (t : Instant) (value : Word) (b : Bundle) (s : State), s.admits 0xD00200 = true → value.toNat % 8 = 2 → value.toNat / 256 % 8 = 4 →
    s.rd F.UPD_STATUS_STATE = 4 → s.sec.slots.find (s.rd F.UPD_STATUS_ACTIVE_SLOT) = some b → s.sec.lost.contains (0, 0) = false →
    Ends (.confirm t value) s (fun u => u.rd F.SEC_FW_FLOOR = max (s.rd F.SEC_FW_FLOOR) b.svn % 2 ^ F.SEC_FW_FLOOR.width ∧
    u.rd F.SEC_BEAM_FLOOR = max (s.rd F.SEC_BEAM_FLOOR) b.beamFloor % 2 ^ F.SEC_BEAM_FLOOR.width)) ∧
  (∀ (t : Instant) (value : Word) (s : State), s.admits 0xD00200 = true → value.toNat % 8 ≠ 0 → (value.toNat % 8 ≠ 1 ∨
    (value.toNat / 256 % 8 = s.rd F.UPD_STATUS_STATE ∧ s.rd F.UPD_STATUS_STATE ≠ 2)) →
    Ends (.activate t value) s (fun u => u.rd F.UPD_STATUS_STATE = s.rd F.UPD_STATUS_STATE ∧ bitOf (u.rd F.UPD_EVENT) 7 = true ∧ u.sec = s.sec)) ∧
  (∀ (t : Instant) (value : Word) (s : State), s.admits 0xD00200 = true → value.toNat % 8 = 4 → value.toNat / 256 % 8 ≠ s.rd F.UPD_STATUS_STATE →
    Ends (.updCancel t value) s (fun u => u.rd F.UPD_STATUS_STATE = s.rd F.UPD_STATUS_STATE ∧ bitOf (u.rd F.UPD_EVENT) 6 = true ∧ u.sec = s.sec)) ∧
  (∀ (t : Instant) (value : Word) (s : State), s.admits 0xD00200 = true → value.toNat % 8 ≠ 0 → (value.toNat % 8 ≠ 4 ∨
    (value.toNat / 256 % 8 = s.rd F.UPD_STATUS_STATE ∧ s.rd F.UPD_STATUS_STATE ≠ 3)) →
    Ends (.updCancel t value) s (fun u => u.rd F.UPD_STATUS_STATE = s.rd F.UPD_STATUS_STATE ∧ bitOf (u.rd F.UPD_EVENT) 7 = true ∧ u.sec = s.sec)) ∧
  (∀ (t : Instant) (value : Word) (s : State), s.admits 0xD00200 = true → value.toNat % 8 = 2 → value.toNat / 256 % 8 ≠ s.rd F.UPD_STATUS_STATE →
    Ends (.confirm t value) s (fun u => u.rd F.UPD_STATUS_STATE = s.rd F.UPD_STATUS_STATE ∧ bitOf (u.rd F.UPD_EVENT) 6 = true ∧ u.sec = s.sec)) ∧
  (∀ (t : Instant) (value : Word) (s : State), s.admits 0xD00200 = true → value.toNat % 8 ≠ 0 → (value.toNat % 8 ≠ 2 ∨
    (value.toNat / 256 % 8 = s.rd F.UPD_STATUS_STATE ∧ s.rd F.UPD_STATUS_STATE ≠ 4)) →
    Ends (.confirm t value) s (fun u => u.rd F.UPD_STATUS_STATE = s.rd F.UPD_STATUS_STATE ∧ bitOf (u.rd F.UPD_EVENT) 7 = true ∧ u.sec = s.sec)) ∧
  (∀ (t : Instant) (s : State), s.rd F.UPD_STATUS_STATE = 3 → notLater (s.rdT F.UPD_AT) (s.advance t).now = true →
    (List.range 16).all s.inStop = true → Ends (.activationCheck t) s (fun u => u.rd F.RST_CAUSE_CAUSE = 4 ∧ u.rd F.RST_CAUSE_WARP_KEPT = 1 ∧
    u.sec.tryNext = some s.inactive ∧ u.rdT F.UPD_ACT_T = (s.advance t).now ∧ u.warp.now = (s.advance t).now)) ∧
  (∀ (t : Instant) (p : Fin 16) (s : State), s.rd F.UPD_STATUS_STATE = 3 → notLater (s.rdT F.UPD_AT) (s.advance t).now = true → s.inStop p = false →
    Ends (.activationCheck t) s (fun u => u.rd F.UPD_STATUS_STATE = 2 ∧ bitOf (u.rd F.UPD_EVENT) 2 = true ∧ u.sec = s.sec))

/-! ### Power states (16) -/

/-- The end of a backoff or of WAKE_HOLD_MS, and a write of a tolerance or of PWR_CTRL, select the state again; a target that
no longer fits aborts the entry with refuser TOLERANCE; BOOST biases the logic in RUN and IDLE.  PART begins the retain commits before it grants
DEEP_SLEEP or OFF.  A block that refuses ends the entry, one that delays holds it,
and one that grants passes it to the next block; the last grant enters the state.  A wake that was latched, and an answer
that is overdue, abort the entry. -/
def Obligations.HandshakesAskEveryBlockInOrder : Prop :=
  (∀ (t : Instant) (s : State), s.power.backoff.entries.any (fun e => notLater e.2 (s.advance t).now) = true → s.rd F.PWR_STATUS_STATE ≤ 1 →
    s.rd F.PWR_STATUS_PHASE = 0 →
    ((s.advance t).onPower (fun w => { w with backoff := ⟨w.backoff.entries.filter (fun e => !notLater e.2 (s.advance t).now)⟩ })).chosen ≤ 1 →
    Ends (.backoffEnd t) s (fun u => u.power.backoff.entries.all (fun e => !notLater e.2 (s.advance t).now) = true ∧ u.rd F.PWR_STATUS_PHASE = 0 ∧
    u.rd F.PWR_STATUS_STATE ≤ 1)) ∧
  (∀ (t : Instant) (s : State), s.power.backoff.entries.any (fun e => notLater e.2 (s.advance t).now) = true → s.rd F.PWR_STATUS_STATE ≤ 1 →
    s.rd F.PWR_STATUS_PHASE = 0 →
    2 ≤ ((s.advance t).onPower (fun w => { w with backoff := ⟨w.backoff.entries.filter (fun e => !notLater e.2 (s.advance t).now)⟩ })).chosen →
    Ends (.backoffEnd t) s (fun u => u.power.backoff.entries.all (fun e => !notLater e.2 (s.advance t).now) = true ∧ u.rd F.PWR_STATUS_PHASE = 1 ∧
    u.rd F.PWR_STATUS_STATE = 0 ∧ u.power.granted = 0 ∧
    u.rd F.PWR_STATUS_TARGET = ((s.advance t).onPower (fun w => { w with backoff := ⟨w.backoff.entries.filter (fun e => !notLater e.2 (s.advance t).now)⟩ })).chosen)) ∧
  (∀ (t h : Instant) (s : State), s.power.holdEnd = some h → notLater h (s.advance t).now = true → s.rd F.PWR_STATUS_STATE ≤ 1 →
    s.rd F.PWR_STATUS_PHASE = 0 → 2 ≤ ((s.advance t).onPower (fun w => { w with holdEnd := none })).chosen →
    Ends (.wakeHoldEnd t) s (fun u => u.power.holdEnd = none ∧ u.rd F.PWR_STATUS_PHASE = 1 ∧
    u.rd F.PWR_STATUS_TARGET = ((s.advance t).onPower (fun w => { w with holdEnd := none })).chosen)) ∧
  (∀ (t h : Instant) (s : State), s.power.holdEnd = some h → notLater h (s.advance t).now = true → s.rd F.PWR_STATUS_STATE ≤ 1 →
    s.rd F.PWR_STATUS_PHASE = 0 → ((s.advance t).onPower (fun w => { w with holdEnd := none })).chosen ≤ 1 →
    Ends (.wakeHoldEnd t) s (fun u => u.power.holdEnd = none ∧ u.rd F.PWR_STATUS_PHASE = 0 ∧ u.rd F.PWR_STATUS_STATE ≤ 1)) ∧
  (∀ (t : Instant) (value : Word) (s : State), s.rd F.PWR_STATUS_PHASE ≠ 1 →
    Ends (.pwrTolWrite t .device value) s (fun u => u.rd F.PWR_TOL_DEV = value.toNat % 2 ^ F.PWR_TOL_DEV.width ∧ u.power.backoff = s.power.backoff)) ∧
  (∀ (t : Instant) (p : Fin 16) (value : Word) (s : State), s.admits (0xE00100 + 8 * p.val) = true → s.rd F.PWR_STATUS_PHASE ≠ 1 →
    Ends (.pwrTolWrite t (.part p) value) s (fun u => u.rd F.PWR_PART_TOL p = value.toNat % 2 ^ F.PWR_PART_TOL.width ∧
    u.power.backoff = s.power.backoff)) ∧
  (∀ (t : Instant) (value : Word) (s : State), s.rd F.PWR_STATUS_PHASE ≠ 1 →
    Ends (.pwrTolWrite t .ctrl value) s (fun u => u.rd F.PWR_CTRL_MAX_STATE = value.toNat / 16 % 2 ^ F.PWR_CTRL_MAX_STATE.width ∧
    u.rd F.PWR_CTRL_BOOST = value.toNat / 2 % 2 ^ F.PWR_CTRL_BOOST.width ∧ (s.rd F.PWR_STATUS_STATE ≤ 1 →
    u.power.bias = (if value.getLsbD 1 then 200 else 0)))) ∧
  (∀ (t : Instant) (value : Word) (s : State), s.rd F.PWR_STATUS_PHASE = 1 →
    ((s.advance t).wr F.PWR_TOL_DEV value.toNat).stateFits (s.rd F.PWR_STATUS_TARGET) = false →
    Ends (.pwrTolWrite t .device value) s (fun u => u.rd F.PWR_STATUS_PHASE = 0 ∧ u.rd F.PWR_REFUSE_CAUSE = 2 ∧ u.rd F.PWR_REFUSE_REFUSER = 13 ∧
    u.rd F.PWR_REFUSE_TARGET = s.rd F.PWR_STATUS_TARGET % 2 ^ F.PWR_REFUSE_TARGET.width)) ∧
  (∀ (t : Instant) (busy : Bool) (code : Nat) (s : State), s.rd F.PWR_STATUS_PHASE = 1 → askOrder[s.power.granted]? = some code →
    (s.advance t).blockSays code (s.rd F.PWR_STATUS_TARGET) busy = .refuse → Ends (.blockAnswer t busy) s (fun u => u.rd F.PWR_STATUS_PHASE = 0 ∧
    u.rd F.PWR_REFUSE_CAUSE = 0 ∧ u.rd F.PWR_REFUSE_REFUSER = code ∧
    u.rd F.PWR_REFUSE_CNT = min (s.rd F.PWR_REFUSE_CNT + 1) (2 ^ F.PWR_REFUSE_CNT.width - 1) ∧ bitOf (u.rd F.PWR_EVENT) 0 = true ∧
    u.rd F.PWR_STATUS_STATE = s.rd F.PWR_STATUS_STATE)) ∧
  (∀ (t : Instant) (busy : Bool) (code : Nat) (s : State), s.rd F.PWR_STATUS_PHASE = 1 → askOrder[s.power.granted]? = some code → code ≠ 2 →
    (s.advance t).blockSays code (s.rd F.PWR_STATUS_TARGET) busy = .delay → Ends (.blockAnswer t busy) s (fun u => u = s.advance t)) ∧
  (∀ (t : Instant) (busy : Bool) (p : Nat) (s : State), s.rd F.PWR_STATUS_PHASE = 1 → s.power.granted = 1 →
    (s.advance t).blockSays 2 (s.rd F.PWR_STATUS_TARGET) busy = .delay → s.loaded.contains p = true →
    Ends (.blockAnswer t busy) s (fun u => (u.cycPart p).commit ≠ none ∧ u.rd F.PWR_STATUS_PHASE = 1 ∧ u.power = (s.advance t).power)) ∧
  (∀ (t : Instant) (busy : Bool) (code : Nat) (s : State), s.rd F.PWR_STATUS_PHASE = 1 → askOrder[s.power.granted]? = some code →
    (s.advance t).blockSays code (s.rd F.PWR_STATUS_TARGET) busy = .grant → s.rd F.PWR_STATUS_WAKE_PEND ≠ 0 →
    Ends (.blockAnswer t busy) s (fun u => u.rd F.PWR_STATUS_PHASE = 0 ∧ u.rd F.PWR_REFUSE_CAUSE = 2 ∧ u.rd F.PWR_REFUSE_REFUSER = 0xFE ∧
    u.rd F.PWR_STATUS_WAKE_PEND = 0)) ∧
  (∀ (t : Instant) (busy : Bool) (code : Nat) (s : State), s.rd F.PWR_STATUS_PHASE = 1 → askOrder[s.power.granted]? = some code →
    (s.advance t).blockSays code (s.rd F.PWR_STATUS_TARGET) busy = .grant → s.rd F.PWR_STATUS_WAKE_PEND = 0 → s.power.granted ≠ 10 →
    Ends (.blockAnswer t busy) s (fun u => u.power.granted = s.power.granted + 1 ∧ u.power.askedAt = (s.advance t).now ∧ u.rd F.PWR_STATUS_PHASE = 1 ∧
    u.rd F.PWR_STATUS_TARGET = s.rd F.PWR_STATUS_TARGET)) ∧
  (∀ (t : Instant) (busy : Bool) (s : State), s.rd F.PWR_STATUS_PHASE = 1 → s.power.granted = 10 → (s.advance t).blockSays 11 2 busy = .grant →
    s.rd F.PWR_STATUS_WAKE_PEND = 0 → s.rd F.PWR_STATUS_TARGET = 2 → Ends (.blockAnswer t busy) s (fun u => u.rd F.PWR_STATUS_STATE = 2 ∧
    u.rd F.PWR_STATUS_PHASE = 0 ∧ u.rd F.WARP_STATUS_COARSE = s.rd F.WARP_STATUS_COARSE)) ∧
  (∀ (t : Instant) (busy : Bool) (s : State), s.rd F.PWR_STATUS_PHASE = 1 → s.power.granted = 10 → (s.advance t).blockSays 11 3 busy = .grant →
    s.rd F.PWR_STATUS_WAKE_PEND = 0 → s.rd F.PWR_STATUS_TARGET = 3 → Ends (.blockAnswer t busy) s (fun u => u.rd F.PWR_STATUS_STATE = 3 ∧
    u.rd F.PWR_STATUS_PHASE = 0 ∧ u.rd F.WARP_STATUS_COARSE = 1 ∧ u.warp.coarseStart = (s.advance t).now ∧ u.rd F.PWR_STATUS_LOOM_ON = 0 ∧
    u.island.running = false)) ∧
  (∀ (t : Instant) (busy : Bool) (s : State), s.rd F.PWR_STATUS_PHASE = 1 → s.power.granted = 10 → (s.advance t).blockSays 11 4 busy = .grant →
    s.rd F.PWR_STATUS_WAKE_PEND = 0 → s.rd F.PWR_STATUS_TARGET = 4 → Ends (.blockAnswer t busy) s (fun u => u.rd F.PWR_STATUS_STATE = 4 ∧
    u.rd F.PWR_STATUS_PHASE = 0 ∧ u.island.running = false)) ∧
  (∀ (t : Instant) (code : Nat) (s : State), s.rd F.PWR_STATUS_PHASE = 1 → askOrder[s.power.granted]? = some code →
    1000 * ((max 100 (s.rd F.PWR_ENTRY_CFG_ENTRY_TMO_US) : Nat) : Int) ≤ sinceNs (s.advance t).now s.power.askedAt →
    Ends (.entryTimeout t) s (fun u => u.rd F.PWR_STATUS_PHASE = 0 ∧ u.rd F.PWR_REFUSE_CAUSE = 1 ∧ u.rd F.PWR_REFUSE_REFUSER = code ∧
    u.rd F.PWR_ABORT_CNT = min (s.rd F.PWR_ABORT_CNT + 1) (2 ^ F.PWR_ABORT_CNT.width - 1) ∧ bitOf (u.rd F.PWR_EVENT) 1 = true))

/-- A good Lull frame for this device wakes it or sets its flag and is counted; a bad one counts as an error.  WAKE_N, the
alarm and a host access wake it from the states in which they act, where enabled; a wake while another is pending is
merged.  WAKE_N in OFF resets with cause 5.  A completed exit clears what it served; an attempt that fails is tried
again, and after the third FAULT_N is asserted.  A scanned quadrant is powered. -/
def Obligations.WakesLatchMergeRetryAndEscalate : Prop :=
  (∀ (t : Instant) (frame : BitVec 16) (bothHigh : Bool) (s : State), s.rd F.PWR_STATUS_STATE ≠ 4 → bothHigh = true ∨
    frame.toNat % 16 ≠ lullChk frame →
    Ends (.lullFrame t frame bothHigh) s (fun u => u.rd F.LULL_CNT_ERR = min (s.rd F.LULL_CNT_ERR + 1) (2 ^ F.LULL_CNT_ERR.width - 1) ∧
    bitOf (u.rd F.PWR_EVENT) 6 = true ∧ u.rd F.LULL_STATUS_LAST_ADDR = s.rd F.LULL_STATUS_LAST_ADDR ∧ u.power = s.power)) ∧
  (∀ (t : Instant) (frame : BitVec 16) (s : State), s.rd F.PWR_STATUS_STATE ≠ 4 → frame.toNat % 16 = lullChk frame →
    frame.toNat / 2 ^ 8 ≠ s.rd F.LULL_CFG_ADDR → frame.toNat / 2 ^ 8 ≠ 0xFF ∨ s.rd F.LULL_CFG_BCAST_EN = 0 →
    Ends (.lullFrame t frame false) s (fun u => u.rd F.LULL_STATUS_LAST_ADDR = frame.toNat / 2 ^ 8 % 2 ^ F.LULL_STATUS_LAST_ADDR.width ∧
    u.rd F.LULL_STATUS_LAST_CMD = s.rd F.LULL_STATUS_LAST_CMD ∧ u.rd F.LULL_CNT_MATCH = s.rd F.LULL_CNT_MATCH ∧
    u.rd F.LULL_CNT_ERR = s.rd F.LULL_CNT_ERR ∧ u.rd F.PWR_EVENT = s.rd F.PWR_EVENT ∧ u.power = s.power)) ∧
  (∀ (t : Instant) (frame : BitVec 16) (s : State), s.rd F.PWR_STATUS_STATE ≠ 4 → frame.toNat % 16 = lullChk frame →
    frame.toNat / 2 ^ 8 = s.rd F.LULL_CFG_ADDR ∨ (frame.toNat / 2 ^ 8 = 0xFF ∧ s.rd F.LULL_CFG_BCAST_EN ≠ 0) → frame.toNat / 2 ^ 4 % 16 = 2 →
    Ends (.lullFrame t frame false) s (fun u => bitOf (u.rd F.PWR_EVENT) 5 = true ∧ u.rd F.LULL_STATUS_LAST_CMD = 2 ∧
    u.rd F.LULL_CNT_MATCH = min (s.rd F.LULL_CNT_MATCH + 1) (2 ^ F.LULL_CNT_MATCH.width - 1) ∧
    u.rd F.LULL_STATUS_LAST_ADDR = frame.toNat / 2 ^ 8 % 2 ^ F.LULL_STATUS_LAST_ADDR.width)) ∧
  (∀ (t : Instant) (frame : BitVec 16) (s : State), s.rd F.PWR_STATUS_STATE ≠ 4 → frame.toNat % 16 = lullChk frame →
    frame.toNat / 2 ^ 8 = s.rd F.LULL_CFG_ADDR ∨ (frame.toNat / 2 ^ 8 = 0xFF ∧ s.rd F.LULL_CFG_BCAST_EN ≠ 0) → frame.toNat / 2 ^ 4 % 16 ≠ 1 →
    frame.toNat / 2 ^ 4 % 16 ≠ 2 →
    Ends (.lullFrame t frame false) s (fun u => u.rd F.LULL_CNT_ERR = min (s.rd F.LULL_CNT_ERR + 1) (2 ^ F.LULL_CNT_ERR.width - 1) ∧
    bitOf (u.rd F.PWR_EVENT) 6 = true ∧ u.power = s.power)) ∧
  (∀ (t : Instant) (frame : BitVec 16) (s : State), s.rd F.PWR_STATUS_STATE ≤ 1 → s.rd F.PWR_STATUS_PHASE = 0 → frame.toNat % 16 = lullChk frame →
    frame.toNat / 2 ^ 8 = s.rd F.LULL_CFG_ADDR ∨ (frame.toNat / 2 ^ 8 = 0xFF ∧ s.rd F.LULL_CFG_BCAST_EN ≠ 0) → frame.toNat / 2 ^ 4 % 16 = 1 →
    s.rd F.PWR_HOLD ≠ 0 → Ends (.lullFrame t frame false) s (fun u => u.power.holdEnd = some (addNs (s.advance t).now (1000000 * s.rd F.PWR_HOLD)) ∧
    u.rd F.PWR_STATUS_PHASE = 0 ∧ u.rd F.PWR_STATUS_WAKE_PEND = s.rd F.PWR_STATUS_WAKE_PEND)) ∧
  (∀ (t : Instant) (frame : BitVec 16) (bothHigh : Bool) (s : State), s.rd F.PWR_STATUS_STATE = 4 →
    Ends (.lullFrame t frame bothHigh) s (fun u => u = s.advance t)) ∧
  (∀ (t : Instant) (s : State), s.rd F.PWR_STATUS_PHASE = 1 → 2 ≤ s.rd F.PWR_STATUS_TARGET → s.rd F.PWR_STATUS_TARGET ≤ 3 →
    s.rd F.PWR_STATUS_WAKE_PEND = 0 → s.rd F.PWR_WAKE_EN_WAKE_N ≠ 0 → s.rd F.PWR_STATUS_STATE ≠ 4 →
    Ends (.wakeN t 50 false) s (fun u => u.rd F.PWR_STATUS_WAKE_PEND = 1 ∧ u.rd F.PWR_WAKE_SRC = 2 ∧ u.rd F.PWR_STATUS_PHASE = 1 ∧
    u.rd F.PWR_STATUS_TARGET = s.rd F.PWR_STATUS_TARGET ∧ u.power = s.power)) ∧
  (∀ (t : Instant) (frame : BitVec 16) (s : State), s.rd F.PWR_STATUS_STATE = 2 ∨ s.rd F.PWR_STATUS_STATE = 3 → s.rd F.PWR_STATUS_PHASE = 0 →
    s.rd F.PWR_STATUS_WAKE_PEND = 0 → s.rd F.PWR_WAKE_EN_LULL ≠ 0 → frame.toNat % 16 = lullChk frame → frame.toNat / 2 ^ 8 = s.rd F.LULL_CFG_ADDR ∨
    (frame.toNat / 2 ^ 8 = 0xFF ∧ s.rd F.LULL_CFG_BCAST_EN ≠ 0) → frame.toNat / 2 ^ 4 % 16 = 1 →
    Ends (.lullFrame t frame false) s (fun u => u.rd F.PWR_STATUS_PHASE = 2 ∧ u.rd F.PWR_STATUS_WAKE_PEND = 1 ∧ u.rd F.PWR_WAKE_SRC = 1 ∧
    u.power.wakeAt = (s.advance t).now ∧ u.rd F.LULL_STATUS_LAST_CMD = 1)) ∧
  (∀ (t : Instant) (s : State), s.rd F.PWR_STATUS_STATE ≠ 4 →
    Ends (.lullFrameGap t) s (fun u => u.rd F.LULL_CNT_ERR = min (s.rd F.LULL_CNT_ERR + 1) (2 ^ F.LULL_CNT_ERR.width - 1) ∧
    bitOf (u.rd F.PWR_EVENT) 6 = true ∧ u.power = s.power)) ∧
  (∀ (t : Instant) (lowUs : Nat) (takes : Bool) (s : State), 50 ≤ lowUs ∨ (10 ≤ lowUs ∧ takes = true) → s.rd F.PWR_STATUS_STATE = 2 ∨
    s.rd F.PWR_STATUS_STATE = 3 → s.rd F.PWR_STATUS_PHASE = 0 → s.rd F.PWR_STATUS_WAKE_PEND = 0 → s.rd F.PWR_WAKE_EN_WAKE_N ≠ 0 →
    Ends (.wakeN t lowUs takes) s (fun u => u.rd F.PWR_STATUS_PHASE = 2 ∧ u.rd F.PWR_STATUS_WAKE_PEND = 1 ∧ u.rd F.PWR_WAKE_SRC = 2 ∧
    u.power.wakeAt = (s.advance t).now)) ∧
  (∀ (t : Instant) (lowUs : Nat) (takes : Bool) (s : State), 50 ≤ lowUs ∨ (10 ≤ lowUs ∧ takes = true) → s.rd F.PWR_STATUS_STATE = 4 →
    Ends (.wakeN t lowUs takes) s (fun u => u.boot = ((s.advance t).beginReset 5).boot ∧ u.regs = ((s.advance t).beginReset 5).regs ∧
    u.rd F.RST_CAUSE_CAUSE = 5 ∧ u.rd F.RST_CAUSE_WARP_KEPT = 0 ∧ u.warp = State.reset.warp)) ∧
  (∀ (t : Instant) (lowUs : Nat) (takes : Bool) (s : State), lowUs < 10 → Ends (.wakeN t lowUs takes) s (fun u => u = s.advance t)) ∧
  (∀ (t : Instant) (lowUs : Nat) (s : State), lowUs < 50 → Ends (.wakeN t lowUs false) s (fun u => u = s.advance t)) ∧
  (∀ (t : Instant) (s : State), (s.advance t).now = s.rdT F.PWR_ALARM ∨ (s.rd F.WARP_STATUS_COARSE ≠ 0 ∧
    notLater (s.rdT F.PWR_ALARM) (s.advance t).now = true) → s.rd F.PWR_STATUS_STATE = 2 ∨ s.rd F.PWR_STATUS_STATE = 3 → s.rd F.PWR_STATUS_PHASE = 0 →
    s.rd F.PWR_STATUS_WAKE_PEND = 0 → s.rd F.PWR_WAKE_EN_ALARM ≠ 0 → Ends (.alarm t) s (fun u => u.rd F.PWR_STATUS_PHASE = 2 ∧
    u.rd F.PWR_STATUS_WAKE_PEND = 1 ∧ u.rd F.PWR_WAKE_SRC = 3)) ∧
  (∀ (t : Instant) (s : State), s.rd F.PWR_STATUS_STATE = 2 → s.rd F.PWR_STATUS_PHASE = 0 → s.rd F.PWR_STATUS_WAKE_PEND = 0 →
    s.rd F.PWR_WAKE_EN_HOST ≠ 0 → Ends (.hostWake t) s (fun u => u.rd F.PWR_STATUS_PHASE = 2 ∧ u.rd F.PWR_STATUS_WAKE_PEND = 1 ∧
    u.rd F.PWR_WAKE_SRC = 4)) ∧
  (∀ (t : Instant) (s : State), s.rd F.PWR_STATUS_STATE = 2 → s.rd F.PWR_STATUS_PHASE ≠ 1 → s.rd F.PWR_STATUS_WAKE_PEND ≠ 0 →
    s.power.escalated = false → s.rd F.PWR_WAKE_EN_HOST ≠ 0 →
    Ends (.hostWake t) s (fun u => u.rd F.PWR_WAKE_MERGED = min (s.rd F.PWR_WAKE_MERGED + 1) (2 ^ F.PWR_WAKE_MERGED.width - 1) ∧
    u.rd F.PWR_WAKE_SRC = s.rd F.PWR_WAKE_SRC ∧ u.power = s.power)) ∧
  (∀ (t : Instant) (s : State), s.rd F.PWR_STATUS_STATE = 3 → s.rd F.PWR_STATUS_PHASE ≠ 1 → Ends (.hostWake t) s (fun u => u = s.advance t)) ∧
  (∀ (t : Instant) (s : State), s.rd F.PWR_STATUS_PHASE = 2 → s.rd F.PWR_STATUS_STATE ≤ 3 →
    Ends (.wakeDone t) s (fun u => u.rd F.PWR_STATUS_STATE ≤ 1 ∧ u.rd F.PWR_STATUS_WAKE_PEND = 0 ∧ u.rd F.WARP_STATUS_COARSE = 0 ∧
    u.rd F.PWR_STATUS_FAULT = 0 ∧ u.power.retries = 0 ∧ bitOf (u.rd F.PWR_EVENT) 2 = true)) ∧
  (∀ (t : Instant) (s : State), s.rd F.PWR_STATUS_PHASE = 2 →
    1000000 * ((if s.rd F.PWR_WAKE_CFG_WAKE_TMO_MS = 0 then 20 else s.rd F.PWR_WAKE_CFG_WAKE_TMO_MS : Nat) : Int) ≤ sinceNs (s.advance t).now s.power.wakeAt →
    s.power.retries < 3 → Ends (.wakeTimeout t) s (fun u => u.rd F.PWR_STATUS_PHASE = 0 ∧
    u.power.retryAt = some (addNs (s.advance t).now (1000000 * s.rd F.PWR_WAKE_CFG_WAKE_RETRY_MS)) ∧
    u.rd F.PWR_WAKE_FAIL_CNT = min (s.rd F.PWR_WAKE_FAIL_CNT + 1) (2 ^ F.PWR_WAKE_FAIL_CNT.width - 1) ∧
    u.rd F.PWR_STATUS_STATE = s.rd F.PWR_STATUS_STATE)) ∧
  (∀ (t : Instant) (s : State), s.rd F.PWR_STATUS_PHASE = 2 →
    1000000 * ((if s.rd F.PWR_WAKE_CFG_WAKE_TMO_MS = 0 then 20 else s.rd F.PWR_WAKE_CFG_WAKE_TMO_MS : Nat) : Int) ≤ sinceNs (s.advance t).now s.power.wakeAt →
    3 ≤ s.power.retries → s.rd F.PWR_STATUS_STATE = 2 → Ends (.wakeTimeout t) s (fun u => u.rd F.PWR_STATUS_STATE = 3 ∧ u.rd F.PWR_STATUS_FAULT = 1 ∧
    u.power.escalated = true ∧ bitOf (u.rd F.SYS_DEVFAULT) 4 = true ∧ u.warp.faultN = true)) ∧
  (∀ (t : Instant) (s : State), s.rd F.PWR_STATUS_PHASE = 2 →
    1000000 * ((if s.rd F.PWR_WAKE_CFG_WAKE_TMO_MS = 0 then 20 else s.rd F.PWR_WAKE_CFG_WAKE_TMO_MS : Nat) : Int) ≤ sinceNs (s.advance t).now s.power.wakeAt →
    3 ≤ s.power.retries → s.rd F.PWR_STATUS_STATE = 3 → Ends (.wakeTimeout t) s (fun u => u.rd F.PWR_STATUS_STATE = 3 ∧
    u.rd F.PWR_STATUS_LOOM_ON = 0 ∧ u.rd F.PWR_STATUS_FAULT = 1 ∧ u.power.escalated = true ∧ u.power.retryAt = none ∧
    bitOf (u.rd F.SYS_DEVFAULT) 4 = true ∧ u.warp.faultN = true)) ∧
  (∀ (t r : Instant) (s : State), s.power.retryAt = some r → notLater r (s.advance t).now = true →
    Ends (.wakeRetry t) s (fun u => u.rd F.PWR_STATUS_PHASE = 2 ∧ u.power.retries = s.power.retries + 1 ∧ u.power.wakeAt = (s.advance t).now ∧
    u.power.retryAt = none)) ∧
  (∀ (t : Instant) (q : Fin 4) (bad : List (Nat × Bool)) (s : State), s.power.rising.contains q.val = true →
    Ends (.quadrantReady t q bad) s (fun u => bitOf (u.rd F.PWR_STATUS_LOOM_ON) q = true ∧ u.power.rising.contains q.val = false))

/-! ### Reset, boot and warm restart (17) -/

/-- After each command that begins a device reset no object has a command waiting, the reply is the one of reset, the ring
indices and every SEQ are 0, so that no completion stands; a boot that reaches step 9 changes SK_EPOCH.  A partition
reset leaves every waiting command, and where it waited itself, those behind it.  The premises of each clause are those on which the reset begins, or the boot runs. -/
def Obligations.ADeviceResetDiscardsAcceptedCommands : Prop :=
  (∀ (t : Instant) (lowNs : Nat) (takes : Bool) (m : Fin 17) (s : State), 2400 ≤ lowNs ∨ (1600 ≤ lowNs ∧ takes = true) →
    Ends (.resetPin t lowNs takes) s (fun u => u.waiting m = [] ∧ u.host.seqs.get m 0 = 0 ∧ u.rd F.MBX_STATE_CONS m = 0 ∧
    u.rd F.MBX_STATE_COMP m = 0 ∧ u.rd F.MBX_DB m = 0 ∧ u.host.reply = State.reset.host.reply)) ∧
  (∀ (t : Instant) (value : Word) (m : Fin 17) (s : State), value.toNat / 2 ^ 16 = 0x5253 → value.getLsbD 0 = true →
    Ends (.deviceReset t value) s (fun u => u.waiting m = [] ∧ u.host.seqs.get m 0 = 0 ∧ u.rd F.MBX_STATE_CONS m = 0 ∧ u.rd F.MBX_STATE_COMP m = 0 ∧
    u.rd F.MBX_DB m = 0 ∧ u.host.reply = State.reset.host.reply)) ∧
  (∀ (t : Instant) (m : Fin 17) (s : State), s.rd F.PWR_STATUS_STATE ≤ 1 → 3 ≤ s.rd F.RST_STAGE_STAGE →
    Ends (.watchdog t) s (fun u => u.waiting m = [] ∧ u.host.seqs.get m 0 = 0 ∧ u.rd F.MBX_STATE_CONS m = 0 ∧ u.rd F.MBX_STATE_COMP m = 0 ∧
    u.rd F.MBX_DB m = 0 ∧ u.host.reply = State.reset.host.reply)) ∧
  (∀ (t : Instant) (good lost : Bool) (m : Fin 17) (s : State), s.boot.powered = !good → (good = true ∨ s.rd F.PWR_STATUS_STATE ≠ 4) →
    Ends (.powerGoodChange t good lost) s (fun u => u.waiting m = [] ∧ u.host.seqs.get m 0 = 0 ∧ u.rd F.MBX_STATE_CONS m = 0 ∧
    u.rd F.MBX_STATE_COMP m = 0 ∧ u.rd F.MBX_DB m = 0 ∧ u.host.reply = State.reset.host.reply)) ∧
  (∀ (t : Instant) (lowUs : Nat) (takes : Bool) (m : Fin 17) (s : State), 50 ≤ lowUs ∨ (10 ≤ lowUs ∧ takes = true) → s.rd F.PWR_STATUS_STATE = 4 →
    Ends (.wakeN t lowUs takes) s (fun u => u.waiting m = [] ∧ u.host.seqs.get m 0 = 0 ∧ u.rd F.MBX_STATE_CONS m = 0 ∧ u.rd F.MBX_STATE_COMP m = 0 ∧
    u.rd F.MBX_DB m = 0 ∧ u.host.reply = State.reset.host.reply)) ∧
  (∀ (t : Instant) (m : Fin 17) (s : State), s.rd F.UPD_STATUS_STATE = 3 → notLater (s.rdT F.UPD_AT) (s.advance t).now = true →
    (List.range 16).all s.inStop = true → Ends (.activationCheck t) s (fun u => u.waiting m = [] ∧ u.host.seqs.get m 0 = 0 ∧
    u.rd F.MBX_STATE_CONS m = 0 ∧ u.rd F.MBX_STATE_COMP m = 0 ∧ u.rd F.MBX_DB m = 0 ∧ u.host.reply = State.reset.host.reply)) ∧
  (∀ (t : Instant) (b : BootRec) (s : State), s.boot.held = true → b.ready = true → b.pufOk = true → s.sec.active = 0 → s.sec.tryNext = none →
    s.rd F.UPD_STATUS_STATE ≠ 4 → b.fwOk.1 = true → b.stewardOk = true → b.dramOk = true → s.rd F.SK_EPOCH < 2 ^ F.SK_EPOCH.width →
    Ends (.resetRelease t b) s (fun u => u.rd F.SK_EPOCH = (s.rd F.SK_EPOCH + 1) % 2 ^ F.SK_EPOCH.width ∧ u.rd F.SK_EPOCH ≠ s.rd F.SK_EPOCH)) ∧
  (∀ (t : Instant) (p : Fin 16) (value : Word) (s : State), s.admits (0xE00300 + 8 * p.val) = true → value.getLsbD 0 = true →
    value.toNat / 2 ^ 8 % 4 = s.rd F.CP_STATUS_STATE p → Ends (.partitionReset t p value) s (fun u => u.host.cmds = s.host.cmds ∧
    u.rd F.RST_PART_IN_RESET p = 1)) ∧
  (∀ (t : Instant) (p : Fin 16) (value : Word) (s : State), s.rd F.HOST_STATUS_BOOTING = 0 → s.covered p = false →
    (s.waiting p).head?.any (fun c => c.write == some value.toNat && c.off == 0xE00300 + 8 * p.val) = true → s.nextFits p = true →
    value.getLsbD 0 = true → value.toNat / 2 ^ 8 % 4 = s.rd F.CP_STATUS_STATE p →
    Ends (.partitionReset t p value) s (fun u => u.waiting p = (s.waiting p).tail ∧ u.rd F.RST_PART_IN_RESET p = 1))

/-- A reset has the cause of its source and keeps the Warp count for causes 1 to 4; a short pulse and a write without the
key reset nothing.  A boot that fails ends at its step with FAULT_N where Table 17.5 has it so; one whose steps up to the
Beam pass waits at step 9.  At Q the boot is done, and a partition stays in STOP where there is no checkpoint.  A
checkpoint takes the next slot of 16 while a partition runs. -/
def Obligations.ResetsBootAndResumeFollowTheirSteps : Prop :=
  (∀ (t : Instant) (lowNs : Nat) (takes : Bool) (s : State), 2400 ≤ lowNs → Ends (.resetPin t lowNs takes) s (fun u => u.rd F.RST_CAUSE_CAUSE = 1 ∧
    u.rd F.RST_CAUSE_WARP_KEPT = 1 ∧ u.warp.now = (s.advance t).now ∧ u.rd F.HOST_STATUS_BOOTING = 1 ∧ u.boot.held = true ∧
    u.loom.drafts = s.loom.drafts ∧ u.cyc.banks = s.cyc.banks ∧ u.boot.ckpts = s.boot.ckpts ∧ u.pending = s.pending)) ∧
  (∀ (t : Instant) (lowNs : Nat) (s : State), lowNs < 2400 → Ends (.resetPin t lowNs false) s (fun u => u = s.advance t)) ∧
  (∀ (t : Instant) (lowNs : Nat) (s : State), lowNs < 1600 → Ends (.resetPin t lowNs true) s (fun u => u = s.advance t)) ∧
  (∀ (t : Instant) (value : Word) (s : State), value.toNat / 2 ^ 16 = 0x5253 → value.getLsbD 0 = true →
    Ends (.deviceReset t value) s (fun u => u.rd F.RST_CAUSE_CAUSE = 2 ∧ u.rd F.RST_CAUSE_WARP_KEPT = 1 ∧ u.warp.now = (s.advance t).now)) ∧
  (∀ (t : Instant) (value : Word) (s : State), value.toNat / 2 ^ 16 ≠ 0x5253 ∨ value.getLsbD 0 = false →
    Ends (.deviceReset t value) s (fun u => u = s.advance t)) ∧
  (∀ (t : Instant) (s : State), 1 < s.rd F.PWR_STATUS_STATE ∨ s.rd F.RST_STAGE_STAGE < 3 → Ends (.watchdog t) s (fun u => u = s.advance t)) ∧
  (∀ (t : Instant) (s : State), s.rd F.PWR_STATUS_STATE ≤ 1 → 3 ≤ s.rd F.RST_STAGE_STAGE → Ends (.watchdog t) s (fun u => u.rd F.RST_CAUSE_CAUSE = 3 ∧
    u.rd F.RST_CAUSE_WARP_KEPT = 1 ∧ u.warp.now = (s.advance t).now)) ∧
  (∀ (t : Instant) (lost : Bool) (s : State), s.boot.powered = false → Ends (.powerGoodChange t true lost) s (fun u => u.rd F.RST_CAUSE_CAUSE = 0 ∧
    u.rd F.RST_CAUSE_WARP_KEPT = 0 ∧ u.warp = State.reset.warp ∧ u.boot.powered = true)) ∧
  (∀ (t : Instant) (lost : Bool) (s : State), s.boot.powered = true → s.rd F.PWR_STATUS_STATE ≠ 4 →
    Ends (.powerGoodChange t false lost) s (fun u => u.rd F.RST_CAUSE_CAUSE = 6 ∧ u.rd F.RST_CAUSE_WARP_KEPT = 0 ∧ u.warp = State.reset.warp ∧
    u.boot.powered = !lost)) ∧
  (∀ (t : Instant) (good lost : Bool) (s : State), s.boot.powered = good ∨ (good = false ∧ s.rd F.PWR_STATUS_STATE = 4) →
    Ends (.powerGoodChange t good lost) s (fun u => u = s.advance t)) ∧
  (∀ (t : Instant) (b : BootRec) (s : State), s.boot.held = false → Ends (.resetRelease t b) s (fun u => u = s.advance t)) ∧
  (∀ (t : Instant) (b : BootRec) (s : State), s.boot.held = true → b.ready = false → s.rd F.RST_STAGE_FAIL_STEP = 0 →
    Ends (.resetRelease t b) s (fun u => u.rd F.RST_STAGE_STAGE = 1 ∧ u.rd F.RST_STAGE_FAIL_STEP = 1 ∧ u.boot.held = true ∧
    u.power.retries = s.power.retries + 1)) ∧
  (∀ (t : Instant) (b : BootRec) (s : State), s.boot.held = true → b.ready = true → b.pufOk = false → s.rd F.RST_STAGE_FAIL_STEP = 0 →
    Ends (.resetRelease t b) s (fun u => u.rd F.RST_STAGE_STAGE = 2 ∧ u.rd F.RST_STAGE_FAIL_STEP = 2 ∧ u.boot.waiting = s.boot.waiting ∧
    bitOf (u.rd F.SYS_DEVFAULT) 5 = true ∧ u.warp.faultN = true)) ∧
  (∀ (t : Instant) (b : BootRec) (s : State), s.boot.held = true → b.ready = true → b.pufOk = true → b.fwOk = (false, false) →
    s.rd F.RST_STAGE_FAIL_STEP = 0 → Ends (.resetRelease t b) s (fun u => u.rd F.RST_STAGE_STAGE = 2 ∧ u.rd F.RST_STAGE_FAIL_STEP = 2 ∧
    u.boot.waiting = s.boot.waiting ∧ bitOf (u.rd F.SYS_DEVFAULT) 6 = true ∧ u.warp.faultN = true)) ∧
  (∀ (t : Instant) (b : BootRec) (s : State), s.boot.held = true → s.rd F.RST_STAGE_FAIL_STEP = 0 → b.stewardOk = false →
    (andThen ((s.advance t).released.bootStep1 b) (·.bootStep2 b)).2 = true → Ends (.resetRelease t b) s (fun u => u.rd F.RST_STAGE_STAGE = 3 ∧
    u.rd F.RST_STAGE_FAIL_STEP = 3 ∧ u.boot.waiting = s.boot.waiting ∧ bitOf (u.rd F.SYS_DEVFAULT) 6 = true ∧ u.warp.faultN = true)) ∧
  (∀ (t : Instant) (b : BootRec) (s : State), s.boot.held = true → s.rd F.RST_STAGE_FAIL_STEP = 0 → b.stewardOk = true → b.dramOk = false →
    (andThen ((s.advance t).released.bootStep1 b) (·.bootStep2 b)).2 = true → Ends (.resetRelease t b) s (fun u => u.rd F.RST_STAGE_STAGE = 4 ∧
    u.rd F.RST_STAGE_FAIL_STEP = 4 ∧ u.boot.waiting = s.boot.waiting ∧ bitOf (u.rd F.SYS_DEVFAULT) 6 = true ∧ u.warp.faultN = true)) ∧
  (∀ (t : Instant) (b : BootRec) (s : State), s.boot.held = true → s.rd F.RST_STAGE_FAIL_STEP = 0 → b.stewardOk = true → b.dramOk = true →
    b.beam = none → b.beamAgain = none → (andThen ((s.advance t).released.bootStep1 b) (·.bootStep2 b)).2 = true →
    Ends (.resetRelease t b) s (fun u => u.rd F.RST_STAGE_STAGE = 6 ∧ u.rd F.RST_STAGE_FAIL_STEP = 6 ∧ u.rd F.LOOM_BEAM_STATUS_STATE ≠ 2 ∧
    u.boot.waiting = s.boot.waiting ∧ bitOf (u.rd F.SYS_DEVFAULT) 6 = true ∧ u.warp.faultN = true)) ∧
  (∀ (t : Instant) (b : BootRec) (s : State), s.boot.held = true →
    (andThen (andThen (andThen (andThen (andThen ((s.advance t).released.bootStep1 b) (·.bootStep2 b)) (·.bootStep3 b)) (·.bootStep4 b)) (·.bootStep5 b)) (·.bootStep6 b)).2 = true →
    Ends (.resetRelease t b) s (fun u => u.rd F.RST_STAGE_STAGE = 9 ∧ u.boot.waiting = true ∧ u.boot.held = false ∧
    u.rd F.LOOM_BEAM_STATUS_STATE = 2 ∧ u.rd F.MEM_DRAM_STATUS_TRAINED = 1 ∧ u.rd F.HOST_STATUS_BOOTING = s.rd F.HOST_STATUS_BOOTING)) ∧
  (∀ (t : Instant) (b : BootRec) (s : State), s.boot.held = true → b.ready = true → s.rd F.RST_CAUSE_WARP_KEPT = 0 → b.tai = none →
    Ends (.resetRelease t b) s (fun u => u.warp.now = 0 ∧ u.boot.held = false)) ∧
  (∀ (t : Instant) (s : State), s.boot.waiting = true → onGrid 1000000 0 (s.advance t).now = true →
    (List.range 4).all (fun r => s.rd F.RING_STATUS_STATE r != 1 && s.rd F.RING_STATUS_STATE r != 2) = true →
    Ends (.resumeInstant t) s (fun u => u.rd F.HOST_STATUS_BOOTING = 0 ∧ u.rd F.RST_STAGE_STAGE = 10 ∧ u.boot.waiting = false)) ∧
  (∀ (t : Instant) (p : Fin 16) (s : State), s.boot.waiting = true → onGrid 1000000 0 (s.advance t).now = true →
    (List.range 4).all (fun r => s.rd F.RING_STATUS_STATE r != 1 && s.rd F.RING_STATUS_STATE r != 2) = true → s.boot.selected = none →
    s.rd F.CP_STATUS_STATE p = 0 → Ends (.resumeInstant t) s (fun u => u.rd F.RESUME_CFG_RESUME_RESULT p = 2 ∧ u.rd F.CP_STATUS_STATE p = 0)) ∧
  (∀ (t : Instant) (s : State), onGrid 1000000 0 (s.advance t).now = false → Ends (.resumeInstant t) s (fun u => u = s.advance t)) ∧
  (∀ (t : Instant) (p : Fin 16) (s : State), onGrid 10000000 0 (s.advance t).now = true → s.partRunning p = true →
    Ends (.warmCheckpoint t true) s (fun u => u.rd F.CKPT_SEQ = (s.rd F.CKPT_SEQ + 1) % 2 ^ F.CKPT_SEQ.width ∧ u.rdT F.CKPT_T = (s.advance t).now ∧
    u.boot.ckpts.find s.boot.next = some ((s.advance t).takeCheckpoint (s.rd F.CKPT_SEQ + 1)) ∧ u.boot.next = (s.boot.next + 1) % 16)) ∧
  (∀ (t : Instant) (s : State), Ends (.warmCheckpoint t false) s (fun u => u = s.advance t))

/-- An accepted partition reset leaves the partition in STOP with cause 6, its Treadle IDLE and its cells disabled, from the instant of its admission until it is done.  A write whose EXPECT is not the state
is refused and sets STATE_MISMATCH.  The flags clear where written 1. -/
def Obligations.APartitionResetLeavesStop : Prop :=
  (∀ (t : Instant) (p : Fin 16) (value : Word) (s : State), s.admits (0xE00300 + 8 * p.val) = true → value.getLsbD 0 = true →
    value.toNat / 2 ^ 8 % 4 = s.rd F.CP_STATUS_STATE p → Ends (.partitionReset t p value) s (fun u => u.rd F.CP_STATUS_STATE p = 0 ∧
    u.rd F.CP_STATUS_STOP_CAUSE p = 6 ∧ u.rd F.RST_PART_IN_RESET p = 1 ∧ u.rd F.TR_STATUS_STATE p = 0 ∧
    u.boot.partAt.find p = some (s.advance t).now)) ∧
  (∀ (t : Instant) (p : Fin 16) (n : Fin 1024) (value : Word) (s : State), s.admits (0xE00300 + 8 * p.val) = true → value.getLsbD 0 = true →
    value.toNat / 2 ^ 8 % 4 = s.rd F.CP_STATUS_STATE p → s.ownerLC n = some p.val → (s.owned 0 p).contains n.val = true →
    Ends (.partitionReset t p value) s (fun u => u.rd F.LC_CTRL_ENABLE n = 0 ∧ u.rd F.LC_SUP_STATUS_SUP_STATE n = 0)) ∧
  (∀ (t : Instant) (p : Fin 16) (value : Word) (s : State), s.admits (0xE00300 + 8 * p.val) = true → value.getLsbD 0 = true →
    value.toNat / 2 ^ 8 % 4 ≠ s.rd F.CP_STATUS_STATE p → Ends (.partitionReset t p value) s (fun u => u.rd F.RST_PART_STATE_MISMATCH p = 1 ∧
    u.rd F.CP_STATUS_STATE p = s.rd F.CP_STATUS_STATE p ∧ u.boot = s.boot ∧ u.cyc = s.cyc)) ∧
  (∀ (t : Instant) (p : Fin 16) (value : Word) (s : State), s.admits (0xE00300 + 8 * p.val) = true → value.getLsbD 0 = false →
    Ends (.partitionReset t p value) s (fun u => (value.getLsbD 17 = true → u.rd F.RST_PART_PR_DONE p = 0) ∧ (value.getLsbD 1 = true →
    u.rd F.RST_PART_STATE_MISMATCH p = 0) ∧ u.rd F.CP_STATUS_STATE p = s.rd F.CP_STATUS_STATE p ∧ u.boot = s.boot)) ∧
  (∀ (t at_ : Instant) (p : Fin 16) (s : State), s.boot.partAt.find p = some at_ → Ends (.prDone t p) s (fun u => u.rd F.RST_PART_IN_RESET p = 0 ∧
    u.rd F.RST_PART_PR_DONE p = 1 ∧ u.boot.partAt.find p = none))

/-! ### Mailboxes, datagrams, views and windows (18) -/

/-- A datagram on a port whose MGMT_EN is 0, to another UDP port, or from an address that the port does not list changes
nothing of the host paths, sets ETH_REFUSED and adds 1 to ETH_RX_DROP below its greatest value.  One that passes, with a
well-formed entry for an object with no command waiting, becomes that object's waiting command.  An ALLOW entry of 0
lists nobody. -/
def Obligations.AManagementDatagramNeedsItsPortAndSource : Prop :=
  (∀ (t : Instant) (q : Fin 2) (port : BitVec 16) (src : Word) (entry data : List Byte) (s : State), s.rd F.ETH_CFG_MGMT_EN q = 0 ∨
    port.toNat ≠ s.rd F.ETH_MGMT_PORT q ∨ (List.range 4).all (fun i => s.rd F.ETH_ALLOW (4 * q.val + i) != src.toNat) = true →
    s.rd F.ETH_RX_DROP q < 2 ^ F.ETH_RX_DROP.width - 1 → Ends (.commandDatagram t q port src entry data) s (fun u => u.host = s.host ∧
    bitOf (u.rd F.HOST_EVENT) 3 = true ∧ u.rd F.ETH_RX_DROP q = s.rd F.ETH_RX_DROP q + 1)) ∧
  (∀ (t : Instant) (q : Fin 2) (i : Fin 4) (port : BitVec 16) (src : Word) (entry data : List Byte) (s : State), s.rd F.ETH_CFG_MGMT_EN q ≠ 0 →
    port.toNat = s.rd F.ETH_MGMT_PORT q → s.rd F.ETH_ALLOW (4 * q.val + i.val) = src.toNat → src ≠ 0 → entryField entry 8 1 < 17 →
    s.waiting (entryField entry 8 1) = [] → (s.parseEntry (entryField entry 8 1) true entry data).status = 0 →
    Ends (.commandDatagram t q port src entry data) s (fun u => u.waiting (entryField entry 8 1) = [s.parseEntry (entryField entry 8 1) true entry data] ∧
    u.host.seqs.get (entryField entry 8 1) 0 = s.host.seqs.get (entryField entry 8 1) 0 + 1 ∧ u.rd F.ETH_RX_DROP q = s.rd F.ETH_RX_DROP q))

/-- A command that begins to execute while EXPECT is not the state found now leaves exactly the state in which only
STATE_MISMATCH is set and the command completes with STATUS 1, whatever its effect `f` would be; one whose EXPECT is the
state found executes `f`.  EXPECT_KIND 0 with any opcode but the four makes an entry malformed, on either path. -/
def Obligations.AWrongExpectHasNoEffect : Prop :=
  (∀ (opcode obj : Nat) (args : HostCmd → Bool) (f : State → State) (c : HostCmd) (s : State), s.waiting obj = [c] → c.write = none →
    c.opcode = opcode → c.status = 0 → args c = true → s.rd F.HOST_STATUS_BOOTING = 0 → c.kind ≠ 0 → s.expected obj c.kind ≠ c.expect →
    s.hostCommand opcode obj args f = ((((s.setBit F.HOST_EVENT 0).replyStatus 1).putWaiting obj []).completeCmd obj c ⟨1, 0, []⟩)) ∧
  (∀ (opcode obj : Nat) (args : HostCmd → Bool) (f : State → State) (c : HostCmd) (s : State), s.waiting obj = [c] → c.write = none →
    c.opcode = opcode → c.status = 0 → args c = true → s.rd F.HOST_STATUS_BOOTING = 0 → s.expected obj c.kind = c.expect → 16 ≤ obj ∨
    s.covered obj = false → s.hostCommand opcode obj args f = (((f (s.reply 0)).putWaiting obj []).completeCmd obj c (f (s.reply 0)).answer)) ∧
  (∀ (obj : Nat) (eth : Bool) (e inline : List Byte) (s : State), entryField e 9 1 = 0 → entryField e 0 2 ∉ [0x0D, 0x0C, 0x25, 0x30] →
    (s.parseEntry obj eth e inline).status = 3)

/-- A doorbell takes a well-formed entry of the ring into the object's queue with its SEQ; a refused one completes in the
mailbox at once with its STATUS.  A command write of TR_CTRL, CP_CTRL, LP_CTRL, RST_PART, TD_CTRL or UPD_CTRL behind a waiting
command of its object is accepted and waits, and does nothing else.  A load that finds too little
space completes with STATUS 5 and changes nothing else.  MWRITE stores its data in the window and nothing else.  ODO_CLEAR clears an odometer of
the partition, whichever of the four kinds, and leaves another's.  VIEW answers the view; a read of PV_STATE latches it; a view that differs is
replaced from the data path. -/
def Obligations.MailboxesAndViewsServeTheHost : Prop :=
  (∀ (t : Instant) (m : Fin 17) (value : Word) (s : State), (value.toNat % 128 + 128 - s.rd F.MBX_STATE_CONS m) % 128 = 1 → s.waiting m = [] →
    (s.parseEntry m false (s.dram.readBytes (windowBase m + 64 * (s.rd F.MBX_STATE_CONS m % 64)) 64) []).status = 0 →
    Ends (.mbxDb t m value) s (fun u => u.waiting m = [s.parseEntry m false (s.dram.readBytes (windowBase m + 64 * (s.rd F.MBX_STATE_CONS m % 64)) 64) []] ∧
    u.rd F.MBX_STATE_CONS m = (s.rd F.MBX_STATE_CONS m + 1) % 2 ^ F.MBX_STATE_CONS.width ∧ u.host.seqs.get m 0 = s.host.seqs.get m 0 + 1 ∧
    u.dram = s.dram)) ∧
  (∀ (t : Instant) (m : Fin 17) (value : Word) (s : State), (value.toNat % 128 + 128 - s.rd F.MBX_STATE_CONS m) % 128 = 1 → s.waiting m = [] →
    (s.parseEntry m false (s.dram.readBytes (windowBase m + 64 * (s.rd F.MBX_STATE_CONS m % 64)) 64) []).status ≠ 0 →
    Ends (.mbxDb t m value) s (fun u => u.waiting m = [] ∧ u.rd F.MBX_STATE_COMP m = (s.rd F.MBX_STATE_COMP m + 1) % 2 ^ F.MBX_STATE_COMP.width ∧
    u.dram.readBytes (windowBase m + 0x1000 + 32 * (s.rd F.MBX_STATE_COMP m % 64)) 32 = completionBytes (s.parseEntry m false (s.dram.readBytes (windowBase m + 64 * (s.rd F.MBX_STATE_CONS m % 64)) 64) []) ⟨(s.parseEntry m false (s.dram.readBytes (windowBase m + 64 * (s.rd F.MBX_STATE_CONS m % 64)) 64) []).status, 0, []⟩ (s.advance t).now)) ∧
  (∀ (t : Instant) (m : Fin 17) (value : Word) (s : State), (value.toNat % 128 + 128 - s.rd F.MBX_STATE_CONS m) % 128 ≤ 64 →
    s.rd F.MBX_STATE_CONS m < 2 ^ F.MBX_STATE_CONS.width →
    Ends (.mbxDb t m value) s (fun u => u.rd F.MBX_STATE_CONS m = (s.rd F.MBX_STATE_CONS m + (value.toNat % 128 + 128 - s.rd F.MBX_STATE_CONS m) % 128) % 2 ^ F.MBX_STATE_CONS.width ∧
    u.host.seqs.get m 0 = s.host.seqs.get m 0 + (value.toNat % 128 + 128 - s.rd F.MBX_STATE_CONS m) % 128)) ∧
  (∀ (t : Instant) (m : Fin 17) (value : Word) (s : State), (value.toNat % 128 + 128 - s.rd F.MBX_STATE_CONS m) % 128 = 0 → s.waiting m = [] →
    Ends (.mbxDb t m value) s (fun u => u.rd F.MBX_DB m = value.toNat % 2 ^ F.MBX_DB.width ∧ u.host.cmds = s.host.cmds ∧ u.dram = s.dram)) ∧
  (∀ (t : Instant) (p : Fin 16) (value : Word) (s : State), s.rd F.HOST_STATUS_BOOTING = 0 →
    (s.waiting p).head?.any (fun c => c.write != some value.toNat || c.off != 0x300000 + 0x100 * p.val) = true → value.toNat % 32 ≠ 0 →
    Ends (.trStart t p value) s (fun u => u = (s.advance t).acceptWrite p (0x300000 + 0x100 * p.val) value.toNat ∧ u.regs = (s.advance t).regs ∧
    (u.waiting p).length = (s.waiting p).length + 1)) ∧
  (∀ (t : Instant) (p : Fin 16) (value : Word) (s : State), s.rd F.HOST_STATUS_BOOTING = 0 →
    (s.waiting p).head?.any (fun c => c.write != some value.toNat || c.off != 0x900000 + 0x200 * p.val) = true → cpBits value ≠ [] →
    Ends (.cpStop t p value) s (fun u => u = (s.advance t).acceptWrite p (0x900000 + 0x200 * p.val) value.toNat ∧ u.regs = (s.advance t).regs ∧
    (u.waiting p).length = (s.waiting p).length + 1)) ∧
  (∀ (t : Instant) (p : Fin 16) (value : Word) (s : State), s.rd F.HOST_STATUS_BOOTING = 0 →
    (s.waiting p).head?.any (fun c => c.write != some value.toNat || c.off != 0x701000 + 0x40 * p.val) = true →
    Ends (.apply t p value) s (fun u => u = (s.advance t).acceptWrite p (0x701000 + 0x40 * p.val) value.toNat ∧ u.regs = (s.advance t).regs ∧
    (u.waiting p).length = (s.waiting p).length + 1)) ∧
  (∀ (t : Instant) (p : Fin 16) (value : Word) (s : State), s.rd F.HOST_STATUS_BOOTING = 0 →
    (s.waiting p).head?.any (fun c => c.write != some value.toNat || c.off != 0xE00300 + 8 * p.val) = true → value.getLsbD 0 = true →
    Ends (.partitionReset t p value) s (fun u => u = (s.advance t).acceptWrite p (0xE00300 + 8 * p.val) value.toNat ∧ u.regs = (s.advance t).regs ∧
    (u.waiting p).length = (s.waiting p).length + 1)) ∧
  (∀ (t : Instant) (value : Word) (s : State), s.rd F.HOST_STATUS_BOOTING = 0 →
    (s.waiting 16).head?.any (fun c => c.write != some value.toNat || c.off != 0xC00010) = true → value.toNat % 16 ≠ 0 →
    Ends (.join t value) s (fun u => u = (s.advance t).acceptWrite 16 0xC00010 value.toNat ∧ u.regs = (s.advance t).regs ∧
    (u.waiting 16).length = (s.waiting 16).length + 1)) ∧
  (∀ (t : Instant) (value : Word) (s : State), s.rd F.HOST_STATUS_BOOTING = 0 →
    (s.waiting 16).head?.any (fun c => c.write != some value.toNat || c.off != 0xD00200) = true → value.toNat % 8 ≠ 0 →
    Ends (.activate t value) s (fun u => u = (s.advance t).acceptWrite 16 0xD00200 value.toNat ∧ u.regs = (s.advance t).regs ∧
    (u.waiting 16).length = (s.waiting 16).length + 1)) ∧
  (∀ (t : Instant) (p : Fin 16) (img : StepTable) (c : HostCmd) (s : State), s.mayExecute 1 p anyArgs = true → s.waiting p = [c] →
    Ends (.loadTable t p img false) s (fun u => u = (((s.advance t).replyStatus 5).putWaiting p []).completeCmd p c ⟨5, 0, []⟩)) ∧
  (∀ (t : Instant) (p : Fin 16) (img : SegImage) (c : HostCmd) (s : State), s.mayExecute 2 p anyArgs = true → s.waiting p = [c] →
    Ends (.loadSegments t p img false) s (fun u => u = (((s.advance t).replyStatus 5).putWaiting p []).completeCmd p c ⟨5, 0, []⟩)) ∧
  (∀ (t : Instant) (p : Fin 16) (img : Envelope) (c : HostCmd) (s : State), s.mayExecute 3 p anyArgs = true → s.waiting p = [c] →
    Ends (.loadEnvelope t p img false) s (fun u => u = (((s.advance t).replyStatus 5).putWaiting p []).completeCmd p c ⟨5, 0, []⟩)) ∧
  (∀ (t : Instant) (p : Fin 16) (img : Program) (c : HostCmd) (s : State), s.mayExecute 4 p anyArgs = true → s.waiting p = [c] →
    Ends (.loadProgram t p img false) s (fun u => u = (((s.advance t).replyStatus 5).putWaiting p []).completeCmd p c ⟨5, 0, []⟩)) ∧
  (∀ (t : Instant) (p : Fin 16) (img : DraftImg) (c : HostCmd) (s : State), s.mayExecute 5 p anyArgs = true → s.waiting p = [c] →
    Ends (.loadDraft t p img false) s (fun u => u = (((s.advance t).replyStatus 5).putWaiting p []).completeCmd p c ⟨5, 0, []⟩)) ∧
  (∀ (t : Instant) (img : MatrixCont) (readBack : Bool) (c : HostCmd) (s : State), s.mayExecute 0x10 16 anyArgs = true → s.waiting 16 = [c] →
    Ends (.programMatrix t img readBack false) s (fun u => u = (((s.advance t).replyStatus 5).putWaiting 16 []).completeCmd 16 c ⟨5, 0, []⟩)) ∧
  (∀ (t : Instant) (img : SafProg) (readBack : Bool) (c : HostCmd) (s : State), s.mayExecute 0x11 16 anyArgs = true → s.waiting 16 = [c] →
    Ends (.loadSafety t img readBack false) s (fun u => u = (((s.advance t).replyStatus 5).putWaiting 16 []).completeCmd 16 c ⟨5, 0, []⟩)) ∧
  (∀ (t : Instant) (obj : Fin 17) (offset : Word) (data : List Byte) (a : Nat) (s : State), s.mayExecute 0x30 obj (fun c => c.arg0 == offset.toNat && c.len == data.length) = true →
    (s.waiting obj).all (·.eth) = true →
    Ends (.mwrite t obj offset data) s (fun u => u.dram.readBytes (windowBase obj + offset.toNat) data.length = data ∧
    (a < windowBase obj + offset.toNat ∨ windowBase obj + offset.toNat + data.length ≤ a → u.dram.read a = s.dram.read a) ∧ u.sram = s.sram)) ∧
  (∀ (t : Instant) (p : Fin 16) (kind index : Word) (f : Fld) (s : State), s.mayExecute 0x0B p (fun c => c.arg0 == kind.toNat && c.arg1 == index.toNat) = true →
    s.nextFits p = true → s.odometer kind.toNat index.toNat = some (f, some p.val) →
    Ends (.odoClear t p kind index) s (fun u => u.rd f index.toNat = 0 ∧ u.answer.result = 0 ∧ (kind = 3 → u.rd F.ODO_OUT_SAT index.toNat = 0))) ∧
  (∀ (t : Instant) (p : Fin 16) (kind index : Word) (f : Fld) (s : State), s.mayExecute 0x0B p (fun c => c.arg0 == kind.toNat && c.arg1 == index.toNat) = true →
    s.nextFits p = true → (s.odometer kind.toNat index.toNat).any (fun e => e.2 == some p.val) = false →
    [F.LC_ODO, F.AX_ODO_STEPS, F.AX_ODO_MOVES, F.ODO_OUT, F.ODO_OUT_SAT].contains f = true →
    Ends (.odoClear t p kind index) s (fun u => u.rd f index.toNat = s.rd f index.toNat ∧ u.answer.result = 1)) ∧
  (∀ (t : Instant) (p : Fin 16) (refresh : Bool) (s : State), s.mayExecute 0x0D p anyArgs = true → s.nextFits p = true →
    Ends (.view t p refresh) s (fun u => u.answer = ⟨0, 0, ((((s.advance t).when refresh (·.refreshView p)).viewWords p).map (leBytes 4)).flatten⟩ ∧
    (refresh = true → u.rd F.PV_STATE_PROGRAM p = s.rd F.CP_STATUS_STATE p % 2 ^ F.PV_STATE_PROGRAM.width))) ∧
  (∀ (t : Instant) (r : Requester) (p : Fin 16) (refresh : Bool) (s : State),
    Ends (.pvStateRead t r p refresh) s (fun u => u.host.views.find? (fun e => e.1 == (r, p.val)) = some ((r, p.val), ((s.advance t).when refresh (·.refreshView p)).viewWords p) ∧
    u.answer.data = leBytes 4 (u.regWord (0xF01000 + 0x20 * p.val)))) ∧
  (∀ (t : Instant) (p : Fin 16) (s : State), s.viewDiffers p = true →
    Ends (.mgmtDiverge t p) s (fun u => u.rd F.PV_STATE_PROGRAM p = s.rd F.CP_STATUS_STATE p % 2 ^ F.PV_STATE_PROGRAM.width ∧
    u.rd F.PV_STATE_ACTIVE p = s.rd F.LP_STATUS_ACTIVE p % 2 ^ F.PV_STATE_ACTIVE.width ∧ u.rdT F.PV_T p = (s.advance t).now ∧
    bitOf (u.rd F.HOST_EVENT) 2 = true ∧ u.rd F.MGMT_DIV_CNT = min (s.rd F.MGMT_DIV_CNT + 1) (2 ^ F.MGMT_DIV_CNT.width - 1) ∧
    bitOf (u.rd F.SYS_FAULT) 19 = true)) ∧
  (∀ (t : Instant) (p : Fin 16) (s : State), s.viewDiffers p = false → Ends (.mgmtDiverge t p) s (fun u => u = s.advance t))

/-- An access through BAR2 in a host window acts on DRAM alone; one outside is refused: a write is discarded, a read gives
ones, and both are counted.  An event message is stamped at its medium.  The scrubbers count a corrected error, and
report a double-bit one as a fault of its class.  A poll and an alert leave what the regulator read, and TJ_PEAK the
greatest Tj; the life figures are those of the update. -/
def Obligations.WindowsScrubsAndTelemetry : Prop :=
  (∀ (t : Instant) (offset : Fin 1073741824) (len a : Nat) (bs : List Byte) (s : State), s.hostWindow (0x10000000 * s.rd F.BAR2_BASE + offset.val) bs.length true = true →
    Ends (.bar2Access t false offset len (some bs)) s (fun u => u.dram.readBytes (0x10000000 * s.rd F.BAR2_BASE + offset.val) bs.length = bs ∧
    (a < 0x10000000 * s.rd F.BAR2_BASE + offset.val ∨ 0x10000000 * s.rd F.BAR2_BASE + offset.val + bs.length ≤ a → u.dram.read a = s.dram.read a) ∧
    u.regs = (s.advance t).regs)) ∧
  (∀ (t : Instant) (offset : Fin 1073741824) (len : Nat) (bs : List Byte) (s : State), s.hostWindow (0x10000000 * s.rd F.BAR2_BASE + offset.val) bs.length true = false →
    Ends (.bar2Access t false offset len (some bs)) s (fun u => u.dram = s.dram ∧ bitOf (u.rd F.SEC_EVENT) 4 = true ∧
    u.rd F.SEC_HOST_REFUSE_CNT = min (s.rd F.SEC_HOST_REFUSE_CNT + 1) (2 ^ F.SEC_HOST_REFUSE_CNT.width - 1))) ∧
  (∀ (t : Instant) (offset : Fin 1073741824) (len : Nat) (s : State), s.hostWindow (0x10000000 * s.rd F.BAR2_BASE + offset.val) len false = true →
    Ends (.bar2Access t false offset len none) s (fun u => u.answer.data = s.dram.readBytes (0x10000000 * s.rd F.BAR2_BASE + offset.val) len ∧
    u.regs = (s.advance t).regs ∧ u.dram = s.dram)) ∧
  (∀ (t : Instant) (offset : Fin 1073741824) (len : Nat) (s : State), s.hostWindow (0x10000000 * s.rd F.BAR2_BASE + offset.val) len false = false →
    Ends (.bar2Access t false offset len none) s (fun u => u.answer.data = List.replicate len 0xFF ∧ bitOf (u.rd F.SEC_EVENT) 4 = true ∧
    u.dram = s.dram)) ∧
  (∀ (t : Instant) (offset : Fin 1073741824) (len : Nat) (s : State),
    Ends (.bar2Access t true offset len none) s (fun u => u.answer.data = List.replicate len 0xFF ∧ u.sram = s.sram ∧
    bitOf (u.rd F.SEC_EVENT) 4 = true)) ∧
  (∀ (t : Instant) (offset : Fin 1073741824) (len : Nat) (bs : List Byte) (s : State),
    Ends (.bar2Access t true offset len (some bs)) s (fun u => u.sram = s.sram ∧ bitOf (u.rd F.SEC_EVENT) 4 = true ∧ u.rd F.SYS_DISCARD_REASON = 4 ∧
    u.rd F.SYS_DISCARD_OFFSET = (0x1000000 + offset.val) % 2 ^ F.SYS_DISCARD_OFFSET.width)) ∧
  (∀ (t : Instant) (q : Fin 2) (s : State),
    Ends (.ptpEventMessage t q true none) s (fun u => u.host.stamps.find (2 * q.val) = some (shiftNs (s.advance t).now (-(s.rd F.PTP_LAT_ING_LAT_NS q : Int))) ∧
    u.regs = (s.advance t).regs)) ∧
  (∀ (t : Instant) (q : Fin 2) (st : BitVec 2) (off : Word) (s : State), s.rd F.PTP_CFG_EN q ≠ 0 →
    Ends (.ptpEventMessage t q false (some (st, off))) s (fun u => u.host.stamps.find (2 * q.val + 1) = some (addNs (s.advance t).now (s.rd F.PTP_LAT_EGR_LAT_NS q)) ∧
    u.rd F.PTP_STATUS q = st.toNat % 2 ^ F.PTP_STATUS.width ∧ u.rd F.PTP_OFFSET q = off.toNat)) ∧
  (∀ (t : Instant) (mem : Fin 3) (addr : Nat) (stops : List (Fin 16)) (s : State),
    Ends (.scrub t [⟨mem, addr, false, stops⟩]) s (fun u => u.rd (memFields mem).1 = min (s.rd (memFields mem).1 + 1) (2 ^ (memFields mem).1.width - 1) ∧
    u.rd F.MEM_ECC_ADDR = addr % 2 ^ F.MEM_ECC_ADDR.width ∧ u.rd F.MEM_ECC_LAST_MEM = mem ∧ u.rd F.MEM_ECC_LAST_UE = 0 ∧
    u.rd F.SYS_FAULT = s.rd F.SYS_FAULT)) ∧
  (∀ (t : Instant) (mem : Fin 3) (addr : Nat) (s : State),
    Ends (.scrub t [⟨mem, addr, true, []⟩]) s (fun u => u.rd (memFields mem).2.1 = min (s.rd (memFields mem).2.1 + 1) (2 ^ (memFields mem).2.1.width - 1) ∧
    u.rd F.MEM_ECC_LAST_UE = 1 ∧ bitOf (u.rd F.SYS_FAULT) (9 + mem) = true ∧ u.rd F.SYS_FAULT_LAST = 9 + mem)) ∧
  (∀ (t : Instant) (mem : Fin 3) (addr : Nat) (p : Fin 16) (s : State), s.rd F.CP_STATUS_STATE p ≠ 0 →
    Ends (.scrub t [⟨mem, addr, true, [p]⟩]) s (fun u => u.rd F.CP_STATUS_STATE p = 0 ∧ u.rd F.CP_STATUS_STOP_CAUSE p = 11)) ∧
  (∀ (t : Instant) (x : PmbRead) (s : State), Ends (.pmbusPoll t x) s (fun u => u.rd F.AVS_STATUS_READ_MV = x.mv.toNat ∧
    u.rd F.PMB_ICORE = x.ma.toNat ∧ u.rd F.PMB_STATUS = x.status.toNat ∧ u.rd F.TJ_NOW = x.tj.toNat ∧ x.tj.toInt ≤ toSigned 16 (u.rd F.TJ_PEAK) ∧
    toSigned 16 (s.rd F.TJ_PEAK) ≤ toSigned 16 (u.rd F.TJ_PEAK))) ∧
  (∀ (t : Instant) (x : PmbRead) (s : State), Ends (.pmbAlert t x) s (fun u => u.rd F.AVS_STATUS_READ_MV = x.mv.toNat ∧
    u.rd F.PMB_ICORE = x.ma.toNat ∧ u.rd F.PMB_STATUS = x.status.toNat ∧ u.rd F.TJ_NOW = x.tj.toNat ∧ x.tj.toInt ≤ toSigned 16 (u.rd F.TJ_PEAK) ∧
    toSigned 16 (s.rd F.TJ_PEAK) ≤ toSigned 16 (u.rd F.TJ_PEAK))) ∧
  (∀ (t : Instant) (hour : Bool) (tjAvg : BitVec 16) (mvAvg : BitVec 12) (s : State), s.rd F.LIFE_HOURS < 2 ^ F.LIFE_HOURS.width →
    Ends (.lifeUpdate t hour tjAvg mvAvg) s (fun u => u.rd F.LIFE_TJ_AVG = tjAvg.toNat ∧ u.rd F.LIFE_VCORE_AVG = mvAvg.toNat ∧
    u.rd F.LIFE_HOURS = (s.rd F.LIFE_HOURS + b2n hour) % 2 ^ F.LIFE_HOURS.width))
end

