-- ==== Sys2Proof/Laws/Mem.lean ====
section
/-! SUPPORT.  Memories: reading after a write, and the canonical form that every operation keeps. -/

namespace Sys2Proof.Machine

theorem readCell_putCellAt_same (a : Nat) (b : Byte) (l : List Host.Cell) : readCell a (putCellAt a b l) = b := by
  induction l with
  | nil => simp [putCellAt, readCell]
  | cons e r ih =>
    obtain ⟨k, c⟩ := e
    simp only [putCellAt]
    split
    · simp [readCell]
    · split
      · simp [readCell]
      · rename_i h1 h2
        simp [readCell, Ne.symm h2, ih]

theorem readCell_putCellAt_other {x a : Nat} (h : x ≠ a) (b : Byte) (l : List Host.Cell) :
    readCell x (putCellAt a b l) = readCell x l := by
  induction l with
  | nil => simp [putCellAt, readCell, Ne.symm h]
  | cons e r ih =>
    obtain ⟨k, c⟩ := e
    simp only [putCellAt]
    split
    · simp [readCell, Ne.symm h]
    · split
      · rename_i h1 h2
        subst h2
        simp [readCell, Ne.symm h]
      · simp [readCell, ih]

theorem readCell_dropCell_same (a : Nat) (l : List Host.Cell) : readCell a (dropCell a l) = unlistedByte := by
  induction l with
  | nil => simp [dropCell, readCell]
  | cons e r ih =>
    obtain ⟨k, c⟩ := e
    by_cases h : k = a
    · subst h; simpa [dropCell] using ih
    · simp only [dropCell, List.filter_cons] at ih ⊢
      simp [h, readCell, ih]

theorem readCell_dropCell_other {x a : Nat} (h : x ≠ a) (l : List Host.Cell) : readCell x (dropCell a l) = readCell x l := by
  induction l with
  | nil => simp [dropCell]
  | cons e r ih =>
    obtain ⟨k, c⟩ := e
    simp only [dropCell, List.filter_cons] at ih ⊢
    by_cases hk : k = a
    · subst hk; simp [readCell, Ne.symm h, ih]
    · simp [hk, readCell, ih]

/-- A byte reads as it was written. -/
@[simp] theorem Memory.read_write_same (m : Memory) (a : Nat) (b : Byte) : (m.write a b).read a = b := by
  unfold Memory.write Memory.read
  split
  · rename_i h; simp [readCell_dropCell_same, h]
  · simp [readCell_putCellAt_same]

/-- A write leaves every other byte as it is. -/
theorem Memory.read_write_other (m : Memory) {x a : Nat} (h : x ≠ a) (b : Byte) : (m.write a b).read x = m.read x := by
  unfold Memory.write Memory.read
  split
  · simp [readCell_dropCell_other h]
  · simp [readCell_putCellAt_other h]

/-- A write of several bytes leaves the bytes outside it as they are. -/
theorem Memory.read_writeBytes_outside (m : Memory) (a : Nat) (l : List Byte) {x : Nat} (h : x < a ∨ a + l.length ≤ x) :
    (m.writeBytes a l).read x = m.read x := by
  induction l generalizing m a with
  | nil => rfl
  | cons b r ih =>
    simp only [Memory.writeBytes]
    rw [ih]
    · exact Memory.read_write_other m (by simp at h; omega) b
    · simp at h; omega

/-- A byte of a write of several. -/
theorem Memory.read_writeBytes_inside (m : Memory) (a : Nat) (l : List Byte) {i : Nat} (h : i < l.length) :
    (m.writeBytes a l).read (a + i) = l[i] := by
  induction l generalizing m a i with
  | nil => simp at h
  | cons b r ih =>
    simp only [Memory.writeBytes]
    cases i with
    | zero =>
      rw [Memory.read_writeBytes_outside _ _ _ (.inl (by omega))]
      simp
    | succ j =>
      have := ih (m.write a b) (a + 1) (i := j) (by simpa using h)
      rw [show a + (j + 1) = a + 1 + j by omega, this]
      simp

/-- The addresses of a list of cells lie above a bound and rise. -/
theorem cellsRise_cons (lo : Option Nat) (k : Nat) (b : Byte) (l : List Host.Cell) :
    cellsRise lo ((k, b) :: l) = true ↔ (∀ x ∈ lo, x < k) ∧ cellsRise (some k) l = true := by
  cases lo <;> simp [cellsRise]

theorem cellsRise_weaken {x y : Nat} (h : x ≤ y) (l : List Host.Cell) (hl : cellsRise (some y) l = true) : cellsRise (some x) l = true := by
  cases l with
  | nil => rfl
  | cons e r =>
    obtain ⟨k, b⟩ := e
    rw [cellsRise_cons] at hl ⊢
    refine ⟨?_, hl.2⟩
    intro z hz
    have := hl.1 y (by simp)
    simp at hz
    omega

theorem cellsRise_putCellAt (lo : Option Nat) (a : Nat) (b : Byte) (l : List Host.Cell) (h : cellsRise lo l = true)
    (ha : ∀ x ∈ lo, x < a) : cellsRise lo (putCellAt a b l) = true := by
  induction l generalizing lo with
  | nil => exact (cellsRise_cons _ _ _ _).mpr ⟨ha, rfl⟩
  | cons e r ih =>
    obtain ⟨k, c⟩ := e
    obtain ⟨hk, hr⟩ := (cellsRise_cons _ _ _ _).mp h
    simp only [putCellAt]
    split
    · rename_i h1
      exact (cellsRise_cons _ _ _ _).mpr ⟨ha, (cellsRise_cons _ _ _ _).mpr ⟨by simpa using h1, hr⟩⟩
    · split
      · rename_i h1 h2
        subst h2
        exact (cellsRise_cons _ _ _ _).mpr ⟨hk, hr⟩
      · rename_i h1 h2
        exact (cellsRise_cons _ _ _ _).mpr ⟨hk, ih (some k) hr (by simp; omega)⟩

theorem cellsRise_filter (lo : Option Nat) (p : Host.Cell → Bool) (l : List Host.Cell) (h : cellsRise lo l = true) :
    cellsRise lo (l.filter p) = true := by
  induction l generalizing lo with
  | nil => exact h
  | cons e r ih =>
    obtain ⟨k, c⟩ := e
    obtain ⟨hk, hr⟩ := (cellsRise_cons _ _ _ _).mp h
    simp only [List.filter_cons]
    split
    · exact (cellsRise_cons _ _ _ _).mpr ⟨hk, ih (some k) hr⟩
    · have := ih (some k) hr
      cases lo with
      | none =>
        cases hf : List.filter p r with
        | nil => simp [cellsRise]
        | cons y ys => rw [hf] at this; obtain ⟨j, d⟩ := y; exact (cellsRise_cons _ _ _ _).mpr ⟨by simp, ((cellsRise_cons _ _ _ _).mp this).2⟩
      | some x => exact cellsRise_weaken (Nat.le_of_lt (hk x (by simp))) _ this

theorem cellsRise_dropCell (lo : Option Nat) (a : Nat) (l : List Host.Cell) (h : cellsRise lo l = true) : cellsRise lo (dropCell a l) = true :=
  cellsRise_filter lo _ l h

theorem all_putCellAt (p : Host.Cell → Bool) (a : Nat) (b : Byte) (l : List Host.Cell) (h : l.all p = true) (hp : p (a, b) = true) :
    (putCellAt a b l).all p = true := by
  induction l with
  | nil => simp [putCellAt, hp]
  | cons e r ih =>
    obtain ⟨k, c⟩ := e
    simp only [List.all_cons, Bool.and_eq_true] at h
    simp only [putCellAt]
    split
    · simp [hp, h]
    · split
      · simp [hp, h]
      · simp [h.1, ih h.2]

/-- A write keeps a memory's canonical form. -/
theorem Memory.wf_write (m : Memory) (a : Nat) (b : Byte) (h : m.wf = true) : (m.write a b).wf = true := by
  simp only [Memory.wf, Bool.and_eq_true] at h
  unfold Memory.write
  split
  · simp only [Memory.wf, Bool.and_eq_true]
    refine ⟨cellsRise_dropCell _ _ _ h.1, ?_⟩
    simp only [dropCell, List.all_filter, List.all_eq_true] at *
    intro x hx
    simp [h.2 x hx]
  · rename_i hb
    simp only [Memory.wf, Bool.and_eq_true]
    exact ⟨cellsRise_putCellAt _ _ _ _ h.1 (by simp), all_putCellAt _ _ _ _ h.2 (by simp [hb])⟩

/-- A write of several bytes keeps a memory's canonical form. -/
theorem Memory.wf_writeBytes (m : Memory) (a : Nat) (l : List Byte) (h : m.wf = true) : (m.writeBytes a l).wf = true := by
  induction l generalizing m a with
  | nil => exact h
  | cons b r ih => exact ih _ _ (m.wf_write a b h)

/-- A cleared range keeps a memory's canonical form. -/
theorem Memory.wf_clear (m : Memory) (a n : Nat) (h : m.wf = true) : (m.clear a n).wf = true := by
  simp only [Memory.wf, Memory.clear, Bool.and_eq_true] at h ⊢
  exact ⟨cellsRise_filter _ _ _ h.1, by simp only [List.all_filter, List.all_eq_true] at *; intro x hx; simp [h.2 x hx]⟩

/-- Outside a cleared range every byte reads as before. -/
theorem Memory.read_clear_outside (m : Memory) (a n : Nat) {x : Nat} (h : x < a ∨ a + n ≤ x) : (m.clear a n).read x = m.read x := by
  unfold Memory.clear Memory.read
  induction m.cells with
  | nil => rfl
  | cons e r ih =>
    obtain ⟨k, b⟩ := e
    simp only [List.filter_cons]
    split
    · simp only [readCell]; split
      · rfl
      · exact ih
    · rename_i hk
      have : k ≠ x := by simp at hk; omega
      simpa only [readCell, if_neg this] using ih

end Sys2Proof.Machine
end

