-- ==== Sys2Proof/Laws/Tbl.lean ====
section
/-! SUPPORT.  Sparse tables: reading after a write, and the canonical form. -/

namespace Sys2Proof.Machine

theorem lookupNat_insertNat_same {α : Type} (k : Nat) (a : α) (l : List (Nat × α)) :
    lookupNat k (insertNat k a l) = some a := by
  induction l with
  | nil => simp [insertNat, lookupNat]
  | cons e r ih =>
    obtain ⟨i, b⟩ := e
    simp only [insertNat]
    split
    · simp [lookupNat]
    · split
      · simp [lookupNat]
      · rename_i h1 h2
        simp [lookupNat, Ne.symm h2, ih]

theorem lookupNat_insertNat_other {α : Type} {j k : Nat} (h : j ≠ k) (a : α) (l : List (Nat × α)) :
    lookupNat j (insertNat k a l) = lookupNat j l := by
  induction l with
  | nil => simp [insertNat, lookupNat, Ne.symm h]
  | cons e r ih =>
    obtain ⟨i, b⟩ := e
    simp only [insertNat]
    split
    · simp [lookupNat, Ne.symm h]
    · split
      · rename_i h1 h2
        subst h2
        simp [lookupNat, Ne.symm h]
      · simp [lookupNat, ih]

/-- A table read where it was written. -/
@[simp] theorem Tbl.get_set_same {α : Type} (t : Tbl α) (k : Nat) (a d : α) : (t.set k a).get k d = a := by
  simp [Tbl.get, Tbl.set, lookupNat_insertNat_same]

/-- A table read elsewhere. -/
theorem Tbl.get_set_other {α : Type} (t : Tbl α) {j k : Nat} (h : j ≠ k) (a d : α) : (t.set k a).get j d = t.get j d := by
  simp [Tbl.get, Tbl.set, lookupNat_insertNat_other h]

@[simp] theorem Tbl.find_set_same {α : Type} (t : Tbl α) (k : Nat) (a : α) : (t.set k a).find k = some a := by
  simp [Tbl.find, Tbl.set, lookupNat_insertNat_same]

theorem Tbl.find_set_other {α : Type} (t : Tbl α) {j k : Nat} (h : j ≠ k) (a : α) : (t.set k a).find j = t.find j := by
  simp [Tbl.find, Tbl.set, lookupNat_insertNat_other h]

/-- Whether every number of a list of pairs lies above a bound. -/
def above {α : Type} (n : Nat) (l : List (Nat × α)) : Prop := ∀ e ∈ l, n < e.1

theorem rising_cons {α : Type} (e : Nat × α) (l : List (Nat × α)) :
    rising ((e :: l).map (·.1)) = true ↔ above e.1 l ∧ rising (l.map (·.1)) = true := by
  induction l generalizing e with
  | nil => simp [rising, above]
  | cons x r ih =>
    simp only [List.map_cons, rising, Bool.and_eq_true, decide_eq_true_eq]
    rw [← List.map_cons, ih]
    constructor
    · rintro ⟨h, hx, hr⟩
      refine ⟨?_, hx, hr⟩
      intro y hy
      rcases List.mem_cons.mp hy with rfl | hy
      · exact h
      · exact Nat.lt_trans h (hx y hy)
    · rintro ⟨h, hx, hr⟩
      exact ⟨h x (by simp), hx, hr⟩

theorem mem_insertNat {α : Type} (k : Nat) (a : α) (l : List (Nat × α)) (e : Nat × α) (h : e ∈ insertNat k a l) :
    e = (k, a) ∨ e ∈ l := by
  induction l with
  | nil => simpa [insertNat] using h
  | cons x r ih =>
    obtain ⟨i, b⟩ := x
    simp only [insertNat] at h
    split at h
    · rcases List.mem_cons.mp h with h | h
      · exact .inl h
      · exact .inr h
    · split at h
      · rcases List.mem_cons.mp h with h | h
        · exact .inl h
        · exact .inr (List.mem_cons_of_mem _ h)
      · rcases List.mem_cons.mp h with h | h
        · exact .inr (h ▸ List.mem_cons_self)
        · exact (ih h).imp id (List.mem_cons_of_mem _)

theorem rising_insertNat {α : Type} (k : Nat) (a : α) (l : List (Nat × α)) (h : rising (l.map (·.1)) = true) :
    rising ((insertNat k a l).map (·.1)) = true := by
  induction l with
  | nil => simp [insertNat, rising]
  | cons x r ih =>
    obtain ⟨i, b⟩ := x
    obtain ⟨hi, hr⟩ := (rising_cons _ _).mp h
    simp only [insertNat]
    split
    · rename_i hk
      refine (rising_cons _ _).mpr ⟨?_, h⟩
      intro y hy
      rcases List.mem_cons.mp hy with rfl | hy
      · exact hk
      · exact Nat.lt_trans hk (hi y hy)
    · split
      · rename_i hk
        subst hk
        exact (rising_cons _ _).mpr ⟨hi, hr⟩
      · refine (rising_cons _ _).mpr ⟨?_, ih hr⟩
        intro y hy
        rcases mem_insertNat _ _ _ _ hy with rfl | hy
        · exact Nat.lt_of_le_of_ne (by omega) (by simp_all; omega)
        · exact hi y hy

theorem rising_filter {α : Type} (p : Nat × α → Bool) (l : List (Nat × α)) (h : rising (l.map (·.1)) = true) :
    rising ((l.filter p).map (·.1)) = true := by
  induction l with
  | nil => simp [rising]
  | cons x r ih =>
    obtain ⟨hx, hr⟩ := (rising_cons _ _).mp h
    simp only [List.filter_cons]
    split
    · refine (rising_cons _ _).mpr ⟨fun y hy => hx y (List.mem_filter.mp hy).1, ih hr⟩
    · exact ih hr

/-- A write keeps a table's canonical form. -/
theorem Tbl.wf_set {α : Type} (t : Tbl α) (k : Nat) (a : α) (h : t.wf = true) : (t.set k a).wf = true :=
  rising_insertNat k a t.entries h

/-- An erasure keeps a table's canonical form. -/
theorem Tbl.wf_erase {α : Type} (t : Tbl α) (k : Nat) (h : t.wf = true) : (t.erase k).wf = true :=
  rising_filter _ t.entries h

theorem Tbl.wf_empty {α : Type} : (Tbl.empty : Tbl α).wf = true := rfl

theorem lookupNat_mem {α : Type} {k : Nat} {l : List (Nat × α)} {a : α} (h : lookupNat k l = some a) : (k, a) ∈ l := by
  induction l with
  | nil => simp [lookupNat] at h
  | cons e r ih =>
    obtain ⟨i, b⟩ := e
    simp only [lookupNat] at h
    split at h
    · rename_i hk; subst hk; simp_all
    · exact List.mem_cons_of_mem _ (ih h)

end Sys2Proof.Machine
end

