-- ==== Sys2Proof/Laws/Keeps.lean ====
section
/-! SUPPORT.  What an operation keeps, said once: a property of states that every change within a
touch keeps (`Closed`) is kept by every operation that changes no more.  The files Laws/Keeps/ give
one lemma for each operation of the model; a frame, an invariant or the value of an untouched
register follows from it. -/

namespace Sys2Proof.Machine

open Sys2Proof

/-- The touch of one register field. -/
def Fld.touch (f : Fld) : Touch := { regs := [f] }

/-- A property of states that every change within a touch keeps. -/
structure Closed (I : State → Prop) (t : Touch) : Prop where
  reg : ∀ s id i v, t.has id = true → I s → I (s.putReg id i v)
  draw : ∀ s, t.hasPart .freeCtr = true → I s → I { s with freeCtr := s.freeCtr + 1 }
  sram : ∀ s m, t.hasPart .sram = true → (s.sram.wf = true → m.wf = true) → I s → I { s with sram := m }
  dram : ∀ s m, t.hasPart .dram = true → (s.dram.wf = true → m.wf = true) → I s → I { s with dram := m }
  dlm : ∀ s m, t.hasPart .dlm = true → (s.dlm.wf = true → m.wf = true) → I s → I { s with dlm := m }
  whole : Touch.all.within t = true → ∀ s u, u.pending = s.pending → s.freeCtr ≤ u.freeCtr → (s.canonical = true → u.canonical = true) →
    I s → I u
  latches : ∀ s x, t.hasPart .latches = true → I s → I { s with latches := x }
  staged : ∀ s x, t.hasPart .staged = true → I s → I { s with staged := x }
  warp : ∀ s x, t.hasPart .warp = true → I s → I { s with warp := x }
  skein : ∀ s x, t.hasPart .skein = true → I s → I { s with skein := x }
  cells : ∀ s x, t.hasPart .cells = true → I s → I { s with cells := x }
  fio : ∀ s x, t.hasPart .fio = true → I s → I { s with fio := x }
  aout : ∀ s x, t.hasPart .aout = true → I s → I { s with aout := x }
  ain : ∀ s x, t.hasPart .ain = true → I s → I { s with ain := x }
  conv : ∀ s x, t.hasPart .conv = true → I s → I { s with conv := x }
  rot : ∀ s x, t.hasPart .rot = true → I s → I { s with rot := x }
  treadles : ∀ s x, t.hasPart .treadles = true → I s → I { s with treadles := x }
  gens : ∀ s x, t.hasPart .gens = true → I s → I { s with gens := x }
  axes : ∀ s x, t.hasPart .axes = true → I s → I { s with axes := x }
  groups : ∀ s x, t.hasPart .groups = true → I s → I { s with groups := x }
  trig : ∀ s x, t.hasPart .trig = true → I s → I { s with trig := x }
  loom : ∀ s x, t.hasPart .loom = true → I s → I { s with loom := x }
  sched : ∀ s x, t.hasPart .sched = true → I s → I { s with sched := x }
  cyc : ∀ s x, t.hasPart .cyc = true → I s → I { s with cyc := x }
  island : ∀ s x, t.hasPart .island = true → I s → I { s with island := x }
  tandem : ∀ s x, t.hasPart .tandem = true → I s → I { s with tandem := x }
  sec : ∀ s x, t.hasPart .sec = true → I s → I { s with sec := x }
  host : ∀ s x, t.hasPart .host = true → I s → I { s with host := x }
  boot : ∀ s x, t.hasPart .boot = true → I s → I { s with boot := x }
  answer : ∀ s x, t.hasPart .answer = true → I s → I { s with answer := x }
  power : ∀ s x, t.hasPart .power = true → I s → I { s with power := x }
  rings : ∀ s x, t.hasPart .rings = true → I s → I { s with rings := x }

theorem Touch.within_has {t u : Touch} (h : t.within u = true) {id : Nat} (hi : t.has id = true) : u.has id = true := by
  simp only [Touch.within, Bool.and_eq_true, Bool.or_eq_true, Bool.not_eq_true', List.all_eq_true] at h
  simp only [Touch.has, Bool.or_eq_true, List.any_eq_true, beq_iff_eq] at hi ⊢
  rcases hi with hi | ⟨f, hf, rfl⟩
  · rcases h.1.1 with h1 | h1
    · rw [hi] at h1; cases h1
    · exact .inl h1
  · rcases h.1.2 with h1 | h1
    · exact .inl h1
    · have := h1 f hf
      simpa only [Touch.has, Bool.or_eq_true, List.any_eq_true, beq_iff_eq] using this

theorem Touch.within_part {t u : Touch} (h : t.within u = true) {p : Part} (hp : t.hasPart p = true) : u.hasPart p = true := by
  simp only [Touch.within, Bool.and_eq_true, List.all_eq_true] at h
  exact h.2 p (List.contains_iff_mem.mp hp)

theorem Touch.within_trans {t u w : Touch} (h : t.within u = true) (k : u.within w = true) : t.within w = true := by
  have hr := fun {id} => @Touch.within_has t u h id
  have kr := fun {id} => @Touch.within_has u w k id
  have hp := fun {p} => @Touch.within_part t u h p
  have kp := fun {p} => @Touch.within_part u w k p
  simp only [Touch.within, Bool.and_eq_true, Bool.or_eq_true, Bool.not_eq_true', List.all_eq_true] at h k ⊢
  refine ⟨⟨?_, ?_⟩, fun p hq => kp (hp (List.contains_iff_mem.mpr hq))⟩
  · rcases h.1.1 with a | a
    · exact .inl a
    · rcases k.1.1 with b | b
      · rw [a] at b; cases b
      · exact .inr b
  · refine .inr (fun f hf => kr (hr ?_))
    simp only [Touch.has, Bool.or_eq_true, List.any_eq_true, beq_iff_eq]
    exact .inr ⟨f, hf, rfl⟩

/-- A property closed under a touch is closed under a smaller one. -/
theorem Closed.mono {I : State → Prop} {t u : Touch} (hc : Closed I u) (h : t.within u = true) : Closed I t where
  reg s id i v hi := hc.reg s id i v (Touch.within_has h hi)
  draw s hp := hc.draw s (Touch.within_part h hp)
  sram s m hp := hc.sram s m (Touch.within_part h hp)
  dram s m hp := hc.dram s m (Touch.within_part h hp)
  dlm s m hp := hc.dlm s m (Touch.within_part h hp)
  whole hw := hc.whole (Touch.within_trans hw h)
  latches s x hp := hc.latches s x (Touch.within_part h hp)
  staged s x hp := hc.staged s x (Touch.within_part h hp)
  warp s x hp := hc.warp s x (Touch.within_part h hp)
  skein s x hp := hc.skein s x (Touch.within_part h hp)
  cells s x hp := hc.cells s x (Touch.within_part h hp)
  fio s x hp := hc.fio s x (Touch.within_part h hp)
  aout s x hp := hc.aout s x (Touch.within_part h hp)
  ain s x hp := hc.ain s x (Touch.within_part h hp)
  conv s x hp := hc.conv s x (Touch.within_part h hp)
  rot s x hp := hc.rot s x (Touch.within_part h hp)
  treadles s x hp := hc.treadles s x (Touch.within_part h hp)
  gens s x hp := hc.gens s x (Touch.within_part h hp)
  axes s x hp := hc.axes s x (Touch.within_part h hp)
  groups s x hp := hc.groups s x (Touch.within_part h hp)
  trig s x hp := hc.trig s x (Touch.within_part h hp)
  loom s x hp := hc.loom s x (Touch.within_part h hp)
  sched s x hp := hc.sched s x (Touch.within_part h hp)
  cyc s x hp := hc.cyc s x (Touch.within_part h hp)
  island s x hp := hc.island s x (Touch.within_part h hp)
  tandem s x hp := hc.tandem s x (Touch.within_part h hp)
  sec s x hp := hc.sec s x (Touch.within_part h hp)
  host s x hp := hc.host s x (Touch.within_part h hp)
  boot s x hp := hc.boot s x (Touch.within_part h hp)
  answer s x hp := hc.answer s x (Touch.within_part h hp)
  power s x hp := hc.power s x (Touch.within_part h hp)
  rings s x hp := hc.rings s x (Touch.within_part h hp)

variable {I : State → Prop}

/-- Where every register may change, one may. -/
theorem Closed.anyFld {I : State → Prop} {t : Touch} (hc : Closed I t) (h : t.anyReg = true) (f : Fld) : Closed I f.touch :=
  hc.mono (by simp [Touch.within, Fld.touch, Touch.has, h])

/-- A property holds of a state. -/
def Holds (I : State → Prop) (s : State) : Prop := I s


/-- `I` of a state given by its fields. -/
def IC (I : State → Prop) (regs : Tbl (Tbl Nat)) (latches : List ((Requester × Nat) × Nat)) (staged : List ((Requester × Nat) × Nat)) (warp : Warp) (skein : Skein) (cells : Tbl LoopCell) (fio : Tbl FioPin) (aout : Tbl Nat) (ain : Tbl Ain) (conv : Tbl Converter) (rot : Rotation) (treadles : Tbl Treadle) (gens : Tbl Gen) (axes : Tbl Axis) (groups : Tbl AxGroup) (trig : Trig) (loom : Loom) (sched : Sched) (cyc : Cyclic) (island : Island) (tandem : Tandem) (sec : Security) (host : HostPaths) (boot : BootCtl) (answer : Answer) (power : Power) (rings : Tbl Ring) (sram : Memory) (dram : Memory) (dlm : Memory) (freeCtr : Nat) (pending : List Instr) : Prop := I (State.mk regs latches staged warp skein cells fio aout ain conv rot treadles gens axes groups trig loom sched cyc island tandem sec host boot answer power rings sram dram dlm freeCtr pending)

theorem ic_mk {regs latches staged warp skein cells fio aout ain conv rot treadles gens axes groups trig loom sched cyc island tandem sec host boot answer power rings sram dram dlm freeCtr pending} : Holds I (State.mk regs latches staged warp skein cells fio aout ain conv rot treadles gens axes groups trig loom sched cyc island tandem sec host boot answer power rings sram dram dlm freeCtr pending) ↔ IC I regs latches staged warp skein cells fio aout ain conv rot treadles gens axes groups trig loom sched cyc island tandem sec host boot answer power rings sram dram dlm freeCtr pending := Iff.rfl

theorem ic_fold {s : State} (h : Holds I s) : IC I (State.regs s) (State.latches s) (State.staged s) (State.warp s) (State.skein s) (State.cells s) (State.fio s) (State.aout s) (State.ain s) (State.conv s) (State.rot s) (State.treadles s) (State.gens s) (State.axes s) (State.groups s) (State.trig s) (State.loom s) (State.sched s) (State.cyc s) (State.island s) (State.tandem s) (State.sec s) (State.host s) (State.boot s) (State.answer s) (State.power s) (State.rings s) (State.sram s) (State.dram s) (State.dlm s) (State.freeCtr s) (State.pending s) := h

theorem ic_latches (hc : Closed I { parts := [.latches] }) {regs latches staged warp skein cells fio aout ain conv rot treadles gens axes groups trig loom sched cyc island tandem sec host boot answer power rings sram dram dlm freeCtr pending y} (h : IC I regs y staged warp skein cells fio aout ain conv rot treadles gens axes groups trig loom sched cyc island tandem sec host boot answer power rings sram dram dlm freeCtr pending) : IC I regs latches staged warp skein cells fio aout ain conv rot treadles gens axes groups trig loom sched cyc island tandem sec host boot answer power rings sram dram dlm freeCtr pending :=
  hc.latches _ _ (by decide) h

theorem ic_staged (hc : Closed I { parts := [.staged] }) {regs latches staged warp skein cells fio aout ain conv rot treadles gens axes groups trig loom sched cyc island tandem sec host boot answer power rings sram dram dlm freeCtr pending y} (h : IC I regs latches y warp skein cells fio aout ain conv rot treadles gens axes groups trig loom sched cyc island tandem sec host boot answer power rings sram dram dlm freeCtr pending) : IC I regs latches staged warp skein cells fio aout ain conv rot treadles gens axes groups trig loom sched cyc island tandem sec host boot answer power rings sram dram dlm freeCtr pending :=
  hc.staged _ _ (by decide) h

theorem ic_warp (hc : Closed I { parts := [.warp] }) {regs latches staged warp skein cells fio aout ain conv rot treadles gens axes groups trig loom sched cyc island tandem sec host boot answer power rings sram dram dlm freeCtr pending y} (h : IC I regs latches staged y skein cells fio aout ain conv rot treadles gens axes groups trig loom sched cyc island tandem sec host boot answer power rings sram dram dlm freeCtr pending) : IC I regs latches staged warp skein cells fio aout ain conv rot treadles gens axes groups trig loom sched cyc island tandem sec host boot answer power rings sram dram dlm freeCtr pending :=
  hc.warp _ _ (by decide) h

theorem ic_skein (hc : Closed I { parts := [.skein] }) {regs latches staged warp skein cells fio aout ain conv rot treadles gens axes groups trig loom sched cyc island tandem sec host boot answer power rings sram dram dlm freeCtr pending y} (h : IC I regs latches staged warp y cells fio aout ain conv rot treadles gens axes groups trig loom sched cyc island tandem sec host boot answer power rings sram dram dlm freeCtr pending) : IC I regs latches staged warp skein cells fio aout ain conv rot treadles gens axes groups trig loom sched cyc island tandem sec host boot answer power rings sram dram dlm freeCtr pending :=
  hc.skein _ _ (by decide) h

theorem ic_cells (hc : Closed I { parts := [.cells] }) {regs latches staged warp skein cells fio aout ain conv rot treadles gens axes groups trig loom sched cyc island tandem sec host boot answer power rings sram dram dlm freeCtr pending y} (h : IC I regs latches staged warp skein y fio aout ain conv rot treadles gens axes groups trig loom sched cyc island tandem sec host boot answer power rings sram dram dlm freeCtr pending) : IC I regs latches staged warp skein cells fio aout ain conv rot treadles gens axes groups trig loom sched cyc island tandem sec host boot answer power rings sram dram dlm freeCtr pending :=
  hc.cells _ _ (by decide) h

theorem ic_fio (hc : Closed I { parts := [.fio] }) {regs latches staged warp skein cells fio aout ain conv rot treadles gens axes groups trig loom sched cyc island tandem sec host boot answer power rings sram dram dlm freeCtr pending y} (h : IC I regs latches staged warp skein cells y aout ain conv rot treadles gens axes groups trig loom sched cyc island tandem sec host boot answer power rings sram dram dlm freeCtr pending) : IC I regs latches staged warp skein cells fio aout ain conv rot treadles gens axes groups trig loom sched cyc island tandem sec host boot answer power rings sram dram dlm freeCtr pending :=
  hc.fio _ _ (by decide) h

theorem ic_aout (hc : Closed I { parts := [.aout] }) {regs latches staged warp skein cells fio aout ain conv rot treadles gens axes groups trig loom sched cyc island tandem sec host boot answer power rings sram dram dlm freeCtr pending y} (h : IC I regs latches staged warp skein cells fio y ain conv rot treadles gens axes groups trig loom sched cyc island tandem sec host boot answer power rings sram dram dlm freeCtr pending) : IC I regs latches staged warp skein cells fio aout ain conv rot treadles gens axes groups trig loom sched cyc island tandem sec host boot answer power rings sram dram dlm freeCtr pending :=
  hc.aout _ _ (by decide) h

theorem ic_ain (hc : Closed I { parts := [.ain] }) {regs latches staged warp skein cells fio aout ain conv rot treadles gens axes groups trig loom sched cyc island tandem sec host boot answer power rings sram dram dlm freeCtr pending y} (h : IC I regs latches staged warp skein cells fio aout y conv rot treadles gens axes groups trig loom sched cyc island tandem sec host boot answer power rings sram dram dlm freeCtr pending) : IC I regs latches staged warp skein cells fio aout ain conv rot treadles gens axes groups trig loom sched cyc island tandem sec host boot answer power rings sram dram dlm freeCtr pending :=
  hc.ain _ _ (by decide) h

theorem ic_conv (hc : Closed I { parts := [.conv] }) {regs latches staged warp skein cells fio aout ain conv rot treadles gens axes groups trig loom sched cyc island tandem sec host boot answer power rings sram dram dlm freeCtr pending y} (h : IC I regs latches staged warp skein cells fio aout ain y rot treadles gens axes groups trig loom sched cyc island tandem sec host boot answer power rings sram dram dlm freeCtr pending) : IC I regs latches staged warp skein cells fio aout ain conv rot treadles gens axes groups trig loom sched cyc island tandem sec host boot answer power rings sram dram dlm freeCtr pending :=
  hc.conv _ _ (by decide) h

theorem ic_rot (hc : Closed I { parts := [.rot] }) {regs latches staged warp skein cells fio aout ain conv rot treadles gens axes groups trig loom sched cyc island tandem sec host boot answer power rings sram dram dlm freeCtr pending y} (h : IC I regs latches staged warp skein cells fio aout ain conv y treadles gens axes groups trig loom sched cyc island tandem sec host boot answer power rings sram dram dlm freeCtr pending) : IC I regs latches staged warp skein cells fio aout ain conv rot treadles gens axes groups trig loom sched cyc island tandem sec host boot answer power rings sram dram dlm freeCtr pending :=
  hc.rot _ _ (by decide) h

theorem ic_treadles (hc : Closed I { parts := [.treadles] }) {regs latches staged warp skein cells fio aout ain conv rot treadles gens axes groups trig loom sched cyc island tandem sec host boot answer power rings sram dram dlm freeCtr pending y} (h : IC I regs latches staged warp skein cells fio aout ain conv rot y gens axes groups trig loom sched cyc island tandem sec host boot answer power rings sram dram dlm freeCtr pending) : IC I regs latches staged warp skein cells fio aout ain conv rot treadles gens axes groups trig loom sched cyc island tandem sec host boot answer power rings sram dram dlm freeCtr pending :=
  hc.treadles _ _ (by decide) h

theorem ic_gens (hc : Closed I { parts := [.gens] }) {regs latches staged warp skein cells fio aout ain conv rot treadles gens axes groups trig loom sched cyc island tandem sec host boot answer power rings sram dram dlm freeCtr pending y} (h : IC I regs latches staged warp skein cells fio aout ain conv rot treadles y axes groups trig loom sched cyc island tandem sec host boot answer power rings sram dram dlm freeCtr pending) : IC I regs latches staged warp skein cells fio aout ain conv rot treadles gens axes groups trig loom sched cyc island tandem sec host boot answer power rings sram dram dlm freeCtr pending :=
  hc.gens _ _ (by decide) h

theorem ic_axes (hc : Closed I { parts := [.axes] }) {regs latches staged warp skein cells fio aout ain conv rot treadles gens axes groups trig loom sched cyc island tandem sec host boot answer power rings sram dram dlm freeCtr pending y} (h : IC I regs latches staged warp skein cells fio aout ain conv rot treadles gens y groups trig loom sched cyc island tandem sec host boot answer power rings sram dram dlm freeCtr pending) : IC I regs latches staged warp skein cells fio aout ain conv rot treadles gens axes groups trig loom sched cyc island tandem sec host boot answer power rings sram dram dlm freeCtr pending :=
  hc.axes _ _ (by decide) h

theorem ic_groups (hc : Closed I { parts := [.groups] }) {regs latches staged warp skein cells fio aout ain conv rot treadles gens axes groups trig loom sched cyc island tandem sec host boot answer power rings sram dram dlm freeCtr pending y} (h : IC I regs latches staged warp skein cells fio aout ain conv rot treadles gens axes y trig loom sched cyc island tandem sec host boot answer power rings sram dram dlm freeCtr pending) : IC I regs latches staged warp skein cells fio aout ain conv rot treadles gens axes groups trig loom sched cyc island tandem sec host boot answer power rings sram dram dlm freeCtr pending :=
  hc.groups _ _ (by decide) h

theorem ic_trig (hc : Closed I { parts := [.trig] }) {regs latches staged warp skein cells fio aout ain conv rot treadles gens axes groups trig loom sched cyc island tandem sec host boot answer power rings sram dram dlm freeCtr pending y} (h : IC I regs latches staged warp skein cells fio aout ain conv rot treadles gens axes groups y loom sched cyc island tandem sec host boot answer power rings sram dram dlm freeCtr pending) : IC I regs latches staged warp skein cells fio aout ain conv rot treadles gens axes groups trig loom sched cyc island tandem sec host boot answer power rings sram dram dlm freeCtr pending :=
  hc.trig _ _ (by decide) h

theorem ic_loom (hc : Closed I { parts := [.loom] }) {regs latches staged warp skein cells fio aout ain conv rot treadles gens axes groups trig loom sched cyc island tandem sec host boot answer power rings sram dram dlm freeCtr pending y} (h : IC I regs latches staged warp skein cells fio aout ain conv rot treadles gens axes groups trig y sched cyc island tandem sec host boot answer power rings sram dram dlm freeCtr pending) : IC I regs latches staged warp skein cells fio aout ain conv rot treadles gens axes groups trig loom sched cyc island tandem sec host boot answer power rings sram dram dlm freeCtr pending :=
  hc.loom _ _ (by decide) h

theorem ic_sched (hc : Closed I { parts := [.sched] }) {regs latches staged warp skein cells fio aout ain conv rot treadles gens axes groups trig loom sched cyc island tandem sec host boot answer power rings sram dram dlm freeCtr pending y} (h : IC I regs latches staged warp skein cells fio aout ain conv rot treadles gens axes groups trig loom y cyc island tandem sec host boot answer power rings sram dram dlm freeCtr pending) : IC I regs latches staged warp skein cells fio aout ain conv rot treadles gens axes groups trig loom sched cyc island tandem sec host boot answer power rings sram dram dlm freeCtr pending :=
  hc.sched _ _ (by decide) h

theorem ic_cyc (hc : Closed I { parts := [.cyc] }) {regs latches staged warp skein cells fio aout ain conv rot treadles gens axes groups trig loom sched cyc island tandem sec host boot answer power rings sram dram dlm freeCtr pending y} (h : IC I regs latches staged warp skein cells fio aout ain conv rot treadles gens axes groups trig loom sched y island tandem sec host boot answer power rings sram dram dlm freeCtr pending) : IC I regs latches staged warp skein cells fio aout ain conv rot treadles gens axes groups trig loom sched cyc island tandem sec host boot answer power rings sram dram dlm freeCtr pending :=
  hc.cyc _ _ (by decide) h

theorem ic_island (hc : Closed I { parts := [.island] }) {regs latches staged warp skein cells fio aout ain conv rot treadles gens axes groups trig loom sched cyc island tandem sec host boot answer power rings sram dram dlm freeCtr pending y} (h : IC I regs latches staged warp skein cells fio aout ain conv rot treadles gens axes groups trig loom sched cyc y tandem sec host boot answer power rings sram dram dlm freeCtr pending) : IC I regs latches staged warp skein cells fio aout ain conv rot treadles gens axes groups trig loom sched cyc island tandem sec host boot answer power rings sram dram dlm freeCtr pending :=
  hc.island _ _ (by decide) h

theorem ic_tandem (hc : Closed I { parts := [.tandem] }) {regs latches staged warp skein cells fio aout ain conv rot treadles gens axes groups trig loom sched cyc island tandem sec host boot answer power rings sram dram dlm freeCtr pending y} (h : IC I regs latches staged warp skein cells fio aout ain conv rot treadles gens axes groups trig loom sched cyc island y sec host boot answer power rings sram dram dlm freeCtr pending) : IC I regs latches staged warp skein cells fio aout ain conv rot treadles gens axes groups trig loom sched cyc island tandem sec host boot answer power rings sram dram dlm freeCtr pending :=
  hc.tandem _ _ (by decide) h

theorem ic_sec (hc : Closed I { parts := [.sec] }) {regs latches staged warp skein cells fio aout ain conv rot treadles gens axes groups trig loom sched cyc island tandem sec host boot answer power rings sram dram dlm freeCtr pending y} (h : IC I regs latches staged warp skein cells fio aout ain conv rot treadles gens axes groups trig loom sched cyc island tandem y host boot answer power rings sram dram dlm freeCtr pending) : IC I regs latches staged warp skein cells fio aout ain conv rot treadles gens axes groups trig loom sched cyc island tandem sec host boot answer power rings sram dram dlm freeCtr pending :=
  hc.sec _ _ (by decide) h

theorem ic_host (hc : Closed I { parts := [.host] }) {regs latches staged warp skein cells fio aout ain conv rot treadles gens axes groups trig loom sched cyc island tandem sec host boot answer power rings sram dram dlm freeCtr pending y} (h : IC I regs latches staged warp skein cells fio aout ain conv rot treadles gens axes groups trig loom sched cyc island tandem sec y boot answer power rings sram dram dlm freeCtr pending) : IC I regs latches staged warp skein cells fio aout ain conv rot treadles gens axes groups trig loom sched cyc island tandem sec host boot answer power rings sram dram dlm freeCtr pending :=
  hc.host _ _ (by decide) h

theorem ic_boot (hc : Closed I { parts := [.boot] }) {regs latches staged warp skein cells fio aout ain conv rot treadles gens axes groups trig loom sched cyc island tandem sec host boot answer power rings sram dram dlm freeCtr pending y} (h : IC I regs latches staged warp skein cells fio aout ain conv rot treadles gens axes groups trig loom sched cyc island tandem sec host y answer power rings sram dram dlm freeCtr pending) : IC I regs latches staged warp skein cells fio aout ain conv rot treadles gens axes groups trig loom sched cyc island tandem sec host boot answer power rings sram dram dlm freeCtr pending :=
  hc.boot _ _ (by decide) h

theorem ic_answer (hc : Closed I { parts := [.answer] }) {regs latches staged warp skein cells fio aout ain conv rot treadles gens axes groups trig loom sched cyc island tandem sec host boot answer power rings sram dram dlm freeCtr pending y} (h : IC I regs latches staged warp skein cells fio aout ain conv rot treadles gens axes groups trig loom sched cyc island tandem sec host boot y power rings sram dram dlm freeCtr pending) : IC I regs latches staged warp skein cells fio aout ain conv rot treadles gens axes groups trig loom sched cyc island tandem sec host boot answer power rings sram dram dlm freeCtr pending :=
  hc.answer _ _ (by decide) h

theorem ic_power (hc : Closed I { parts := [.power] }) {regs latches staged warp skein cells fio aout ain conv rot treadles gens axes groups trig loom sched cyc island tandem sec host boot answer power rings sram dram dlm freeCtr pending y} (h : IC I regs latches staged warp skein cells fio aout ain conv rot treadles gens axes groups trig loom sched cyc island tandem sec host boot answer y rings sram dram dlm freeCtr pending) : IC I regs latches staged warp skein cells fio aout ain conv rot treadles gens axes groups trig loom sched cyc island tandem sec host boot answer power rings sram dram dlm freeCtr pending :=
  hc.power _ _ (by decide) h

theorem ic_rings (hc : Closed I { parts := [.rings] }) {regs latches staged warp skein cells fio aout ain conv rot treadles gens axes groups trig loom sched cyc island tandem sec host boot answer power rings sram dram dlm freeCtr pending y} (h : IC I regs latches staged warp skein cells fio aout ain conv rot treadles gens axes groups trig loom sched cyc island tandem sec host boot answer power y sram dram dlm freeCtr pending) : IC I regs latches staged warp skein cells fio aout ain conv rot treadles gens axes groups trig loom sched cyc island tandem sec host boot answer power rings sram dram dlm freeCtr pending :=
  hc.rings _ _ (by decide) h

theorem ic_sram (hc : Closed I { parts := [.sram] }) {regs latches staged warp skein cells fio aout ain conv rot treadles gens axes groups trig loom sched cyc island tandem sec host boot answer power rings sram dram dlm freeCtr pending a l} (h : IC I regs latches staged warp skein cells fio aout ain conv rot treadles gens axes groups trig loom sched cyc island tandem sec host boot answer power rings sram dram dlm freeCtr pending) : IC I regs latches staged warp skein cells fio aout ain conv rot treadles gens axes groups trig loom sched cyc island tandem sec host boot answer power rings (sram.writeBytes a l) dram dlm freeCtr pending :=
  hc.sram _ _ (by decide) (Memory.wf_writeBytes _ _ _) h

theorem ic_dram (hc : Closed I { parts := [.dram] }) {regs latches staged warp skein cells fio aout ain conv rot treadles gens axes groups trig loom sched cyc island tandem sec host boot answer power rings sram dram dlm freeCtr pending a l} (h : IC I regs latches staged warp skein cells fio aout ain conv rot treadles gens axes groups trig loom sched cyc island tandem sec host boot answer power rings sram dram dlm freeCtr pending) : IC I regs latches staged warp skein cells fio aout ain conv rot treadles gens axes groups trig loom sched cyc island tandem sec host boot answer power rings sram (dram.writeBytes a l) dlm freeCtr pending :=
  hc.dram _ _ (by decide) (Memory.wf_writeBytes _ _ _) h

theorem ic_dlm (hc : Closed I { parts := [.dlm] }) {regs latches staged warp skein cells fio aout ain conv rot treadles gens axes groups trig loom sched cyc island tandem sec host boot answer power rings sram dram dlm freeCtr pending a l} (h : IC I regs latches staged warp skein cells fio aout ain conv rot treadles gens axes groups trig loom sched cyc island tandem sec host boot answer power rings sram dram dlm freeCtr pending) : IC I regs latches staged warp skein cells fio aout ain conv rot treadles gens axes groups trig loom sched cyc island tandem sec host boot answer power rings sram dram (dlm.writeBytes a l) freeCtr pending :=
  hc.dlm _ _ (by decide) (Memory.wf_writeBytes _ _ _) h

theorem ic_cleared (hc : Closed I { parts := [.sram, .dram, .dlm] }) {regs latches staged warp skein cells fio aout ain conv rot treadles gens axes groups trig loom sched cyc island tandem sec host boot answer power rings sram dram dlm freeCtr pending} (h : IC I regs latches staged warp skein cells fio aout ain conv rot treadles gens axes groups trig loom sched cyc island tandem sec host boot answer power rings sram dram dlm freeCtr pending) : IC I regs latches staged warp skein cells fio aout ain conv rot treadles gens axes groups trig loom sched cyc island tandem sec host boot answer power rings ⟨[]⟩ ⟨[]⟩ ⟨[]⟩ freeCtr pending :=
  hc.dlm _ ⟨[]⟩ (by decide) (fun _ => rfl) (hc.dram _ ⟨[]⟩ (by decide) (fun _ => rfl) (hc.sram _ ⟨[]⟩ (by decide) (fun _ => rfl) h))

theorem ic_freeCtr (hc : Closed I { parts := [.freeCtr] }) {regs latches staged warp skein cells fio aout ain conv rot treadles gens axes groups trig loom sched cyc island tandem sec host boot answer power rings sram dram dlm freeCtr pending} (h : IC I regs latches staged warp skein cells fio aout ain conv rot treadles gens axes groups trig loom sched cyc island tandem sec host boot answer power rings sram dram dlm freeCtr pending) : IC I regs latches staged warp skein cells fio aout ain conv rot treadles gens axes groups trig loom sched cyc island tandem sec host boot answer power rings sram dram dlm (freeCtr + 1) pending :=
  hc.draw _ (by decide) h

theorem Keeps.ite {c : Prop} [Decidable c] {a b : State} (ha : Holds I a) (hb : Holds I b) : Holds I (if c then a else b) := by
  split
  · exact ha
  · exact hb

/-- A fold over a list, each of whose steps keeps. -/
theorem Keeps.foldl {α : Type} {f : State → α → State} (hf : ∀ s a, Holds I s → Holds I (f s a)) (l : List α) {s : State}
    (hk : Holds I s) : Holds I (l.foldl f s) := by
  induction l generalizing s with
  | nil => exact hk
  | cons a r ih => exact ih (hf s a hk)

/-- A fold that carries a further value. -/
theorem Keeps.foldl₂ {α β : Type} {f : State × β → α → State × β} (hf : ∀ s b a, Holds I s → Holds I (f (s, b) a).1) (l : List α)
    {x : State × β} (hk : Holds I x.1) : Holds I (l.foldl f x).1 := by
  induction l generalizing x with
  | nil => exact hk
  | cons a r ih => exact ih (hf x.1 x.2 a hk)

/-- A fold over a list, each of whose steps keeps for the members of the list. -/
theorem Keeps.foldlMem {α : Type} {f : State → α → State} (l : List α) (hf : ∀ s a, a ∈ l → Holds I s → Holds I (f s a)) {s : State}
    (hk : Holds I s) : Holds I (l.foldl f s) := by
  induction l generalizing s with
  | nil => exact hk
  | cons a r ih => exact ih (fun s x hx => hf s x (List.mem_cons_of_mem _ hx)) (hf s a List.mem_cons_self hk)

theorem Fld.touch_has (f : Fld) : f.touch.has f.id = true := by simp [Fld.touch, Touch.has]

theorem keeps_wr {f : Fld} (hf : Closed I f.touch) {s : State} (hk : Holds I s) (v i : Nat) : Holds I (s.wr f v i) := hf.reg _ _ _ _ f.touch_has hk

theorem keeps_wrI {f : Fld} (hf : Closed I f.touch) {s : State} (hk : Holds I s) (x : Int) (i : Nat) : Holds I (s.wrI f x i) := keeps_wr hf hk _ _

theorem keeps_wrT {f : Fld} (hf : Closed I f.touch) {s : State} (hk : Holds I s) (t : Instant) (i : Nat) : Holds I (s.wrT f t i) := keeps_wr hf hk _ _

theorem keeps_setBit {f : Fld} (hf : Closed I f.touch) {s : State} (hk : Holds I s) (k i : Nat) : Holds I (s.setBit f k i) := keeps_wr hf hk _ _

theorem keeps_bump {f : Fld} (hf : Closed I f.touch) {s : State} (hk : Holds I s) (i n : Nat) : Holds I (s.bump f i n) := keeps_wr hf hk _ _

theorem keeps_roll {f : Fld} (hf : Closed I f.touch) {s : State} (hk : Holds I s) (i n : Nat) : Holds I (s.roll f i n) := keeps_wr hf hk _ _

theorem keeps_putAny {t : Touch} (hc : Closed I t) (h : t.anyReg = true) {s : State} (hk : Holds I s) (id i v : Nat) : Holds I (s.putReg id i v) :=
  hc.reg _ _ _ _ (by simp [Touch.has, h]) hk

/-- The touch of drawing a free value. -/
def Touches.draw : Touch := { parts := [.freeCtr] }

theorem keeps_draw (hc : Closed I Touches.draw) {s : State} (hk : Holds I s) : Holds I s.draw.2 := hc.draw _ (by decide) hk

theorem keeps_when {s : State} (hk : Holds I s) (c : Bool) (f : State → State) (hf : ∀ s, Holds I s → Holds I (f s)) : Holds I (s.when c f) := by
  unfold State.when
  split
  · exact hf s hk
  · exact hk

theorem keeps_each {s : State} (hk : Holds I s) (l : List Nat) (f : State → Nat → State) (hf : ∀ s a, Holds I s → Holds I (f s a)) :
    Holds I (s.each l f) := Keeps.foldl hf l hk

/-! ### Properties that are closed -/

theorem canonical_iff (s : State) : s.canonical = true ↔
    s.sram.wf = true ∧ s.dram.wf = true ∧ s.dlm.wf = true ∧ s.regs.wf = true ∧ ∀ e ∈ s.regs.entries, e.2.wf = true := by
  simp [State.canonical, and_assoc]

/-- A register written keeps the canonical form. -/
theorem canonical_putReg {s : State} (c : s.canonical = true) (id i v : Nat) : (s.putReg id i v).canonical = true := by
  rw [canonical_iff] at *
  obtain ⟨c1, c2, c3, c4, c5⟩ := c
  refine ⟨c1, c2, c3, Tbl.wf_set _ _ _ c4, ?_⟩
  intro e he
  rcases mem_insertNat _ _ _ _ he with rfl | he
  · refine Tbl.wf_set _ _ _ ?_
    simp only [Tbl.get]
    cases hl : lookupNat id s.regs.entries with
    | none => exact Tbl.wf_empty
    | some t => exact c5 _ (lookupNat_mem hl)
  · exact c5 e he

/-- `Kept` is closed under every change. -/
theorem closed_kept (q : List Instr) (n : Nat) : Closed (Kept q n) Touch.all where
  reg _ id i v _ := fun ⟨a, b, c⟩ => ⟨a, b, canonical_putReg c id i v⟩
  draw _ _ := fun ⟨a, b, c⟩ => ⟨a, Nat.le_succ_of_le b, c⟩
  sram s m _ hm := fun ⟨a, b, c⟩ => ⟨a, b, by rw [canonical_iff] at *; exact ⟨hm c.1, c.2⟩⟩
  dram s m _ hm := fun ⟨a, b, c⟩ => ⟨a, b, by rw [canonical_iff] at *; exact ⟨c.1, hm c.2.1, c.2.2⟩⟩
  dlm s m _ hm := fun ⟨a, b, c⟩ => ⟨a, b, by rw [canonical_iff] at *; exact ⟨c.1, c.2.1, hm c.2.2.1, c.2.2.2⟩⟩
  whole _ _ _ hp hn hc := fun ⟨a, b, c⟩ => ⟨hp.trans a, Nat.le_trans b hn, hc c⟩
  latches _ _ _ := id
  staged _ _ _ := id
  warp _ _ _ := id
  skein _ _ _ := id
  cells _ _ _ := id
  fio _ _ _ := id
  aout _ _ _ := id
  ain _ _ _ := id
  conv _ _ _ := id
  rot _ _ _ := id
  treadles _ _ _ := id
  gens _ _ _ := id
  axes _ _ _ := id
  groups _ _ _ := id
  trig _ _ _ := id
  loom _ _ _ := id
  sched _ _ _ := id
  cyc _ _ _ := id
  island _ _ _ := id
  tandem _ _ _ := id
  sec _ _ _ := id
  host _ _ _ := id
  boot _ _ _ := id
  answer _ _ _ := id
  power _ _ _ := id
  rings _ _ _ := id

/-- The frame is closed under the changes that it allows. -/
theorem closed_frame (t : Touch) (r : State) : Closed (Frame t r) t where
  reg s id i v hi := fun ⟨a, b, c⟩ => ⟨fun k hk => by
    have : k ≠ id := by rintro rfl; rw [hi] at hk; cases hk
    exact (Tbl.get_set_other _ this _ _).trans (a k hk), b, c⟩
  draw s hp := fun ⟨a, b, c⟩ => ⟨a, fun p hq => by cases p <;> first | exact b _ hq | (rw [hp] at hq; cases hq), c⟩
  sram s m hp _ := fun ⟨a, b, c⟩ => ⟨a, fun p hq => by cases p <;> first | exact b _ hq | (rw [hp] at hq; cases hq), c⟩
  dram s m hp _ := fun ⟨a, b, c⟩ => ⟨a, fun p hq => by cases p <;> first | exact b _ hq | (rw [hp] at hq; cases hq), c⟩
  dlm s m hp _ := fun ⟨a, b, c⟩ => ⟨a, fun p hq => by cases p <;> first | exact b _ hq | (rw [hp] at hq; cases hq), c⟩
  whole hw s u hp _ _ := fun ⟨_, _, c⟩ => ⟨fun k hk => absurd hk (by
    rw [Touch.within_has hw (by simp [Touch.has, Touch.all])]; decide), fun p hq => absurd hq (by
    rw [Touch.within_part hw (by cases p <;> decide)]; decide), hp.trans c⟩
  latches s x hp := fun ⟨a, b, c⟩ => ⟨a, fun p hq => by cases p <;> first | exact b _ hq | (rw [hp] at hq; cases hq), c⟩
  staged s x hp := fun ⟨a, b, c⟩ => ⟨a, fun p hq => by cases p <;> first | exact b _ hq | (rw [hp] at hq; cases hq), c⟩
  warp s x hp := fun ⟨a, b, c⟩ => ⟨a, fun p hq => by cases p <;> first | exact b _ hq | (rw [hp] at hq; cases hq), c⟩
  skein s x hp := fun ⟨a, b, c⟩ => ⟨a, fun p hq => by cases p <;> first | exact b _ hq | (rw [hp] at hq; cases hq), c⟩
  cells s x hp := fun ⟨a, b, c⟩ => ⟨a, fun p hq => by cases p <;> first | exact b _ hq | (rw [hp] at hq; cases hq), c⟩
  fio s x hp := fun ⟨a, b, c⟩ => ⟨a, fun p hq => by cases p <;> first | exact b _ hq | (rw [hp] at hq; cases hq), c⟩
  aout s x hp := fun ⟨a, b, c⟩ => ⟨a, fun p hq => by cases p <;> first | exact b _ hq | (rw [hp] at hq; cases hq), c⟩
  ain s x hp := fun ⟨a, b, c⟩ => ⟨a, fun p hq => by cases p <;> first | exact b _ hq | (rw [hp] at hq; cases hq), c⟩
  conv s x hp := fun ⟨a, b, c⟩ => ⟨a, fun p hq => by cases p <;> first | exact b _ hq | (rw [hp] at hq; cases hq), c⟩
  rot s x hp := fun ⟨a, b, c⟩ => ⟨a, fun p hq => by cases p <;> first | exact b _ hq | (rw [hp] at hq; cases hq), c⟩
  treadles s x hp := fun ⟨a, b, c⟩ => ⟨a, fun p hq => by cases p <;> first | exact b _ hq | (rw [hp] at hq; cases hq), c⟩
  gens s x hp := fun ⟨a, b, c⟩ => ⟨a, fun p hq => by cases p <;> first | exact b _ hq | (rw [hp] at hq; cases hq), c⟩
  axes s x hp := fun ⟨a, b, c⟩ => ⟨a, fun p hq => by cases p <;> first | exact b _ hq | (rw [hp] at hq; cases hq), c⟩
  groups s x hp := fun ⟨a, b, c⟩ => ⟨a, fun p hq => by cases p <;> first | exact b _ hq | (rw [hp] at hq; cases hq), c⟩
  trig s x hp := fun ⟨a, b, c⟩ => ⟨a, fun p hq => by cases p <;> first | exact b _ hq | (rw [hp] at hq; cases hq), c⟩
  loom s x hp := fun ⟨a, b, c⟩ => ⟨a, fun p hq => by cases p <;> first | exact b _ hq | (rw [hp] at hq; cases hq), c⟩
  sched s x hp := fun ⟨a, b, c⟩ => ⟨a, fun p hq => by cases p <;> first | exact b _ hq | (rw [hp] at hq; cases hq), c⟩
  cyc s x hp := fun ⟨a, b, c⟩ => ⟨a, fun p hq => by cases p <;> first | exact b _ hq | (rw [hp] at hq; cases hq), c⟩
  island s x hp := fun ⟨a, b, c⟩ => ⟨a, fun p hq => by cases p <;> first | exact b _ hq | (rw [hp] at hq; cases hq), c⟩
  tandem s x hp := fun ⟨a, b, c⟩ => ⟨a, fun p hq => by cases p <;> first | exact b _ hq | (rw [hp] at hq; cases hq), c⟩
  sec s x hp := fun ⟨a, b, c⟩ => ⟨a, fun p hq => by cases p <;> first | exact b _ hq | (rw [hp] at hq; cases hq), c⟩
  host s x hp := fun ⟨a, b, c⟩ => ⟨a, fun p hq => by cases p <;> first | exact b _ hq | (rw [hp] at hq; cases hq), c⟩
  boot s x hp := fun ⟨a, b, c⟩ => ⟨a, fun p hq => by cases p <;> first | exact b _ hq | (rw [hp] at hq; cases hq), c⟩
  answer s x hp := fun ⟨a, b, c⟩ => ⟨a, fun p hq => by cases p <;> first | exact b _ hq | (rw [hp] at hq; cases hq), c⟩
  power s x hp := fun ⟨a, b, c⟩ => ⟨a, fun p hq => by cases p <;> first | exact b _ hq | (rw [hp] at hq; cases hq), c⟩
  rings s x hp := fun ⟨a, b, c⟩ => ⟨a, fun p hq => by cases p <;> first | exact b _ hq | (rw [hp] at hq; cases hq), c⟩

/-- What an untouched field reads is closed. -/
theorem closed_rd (f : Fld) (i v : Nat) {t : Touch} (h : t.has f.id = false) : Closed (fun s => s.rd f i = v) t where
  reg s id j w hi := fun a => by
    have : f.id ≠ id := by rintro rfl; rw [hi] at h; cases h
    simpa only [State.rd, State.putReg, Tbl.get_set_other _ this] using a
  draw _ _ := id
  sram _ _ _ _ := id
  dram _ _ _ _ := id
  dlm _ _ _ _ := id
  whole hw := absurd h (by rw [Touch.within_has hw (by simp [Touch.has, Touch.all])]; decide)
  latches _ _ _ := id
  staged _ _ _ := id
  warp _ _ _ := id
  skein _ _ _ := id
  cells _ _ _ := id
  fio _ _ _ := id
  aout _ _ _ := id
  ain _ _ _ := id
  conv _ _ _ := id
  rot _ _ _ := id
  treadles _ _ _ := id
  gens _ _ _ := id
  axes _ _ _ := id
  groups _ _ _ := id
  trig _ _ _ := id
  loom _ _ _ := id
  sched _ _ _ := id
  cyc _ _ _ := id
  island _ _ _ := id
  tandem _ _ _ := id
  sec _ _ _ := id
  host _ _ _ := id
  boot _ _ _ := id
  answer _ _ _ := id
  power _ _ _ := id
  rings _ _ _ := id

theorem Frame.refl (t : Touch) (s : State) : Frame t s s := ⟨fun _ _ => rfl, fun p _ => by cases p <;> rfl, rfl⟩

/-- A field that the frame leaves reads the same, in every instance. -/
theorem Frame.rd {t : Touch} {s u : State} (h : Frame t s u) {f : Fld} (hf : t.has f.id = false) (i : Nat) : u.rd f i = s.rd f i := by
  simp only [State.rd, h.1 _ hf]

end Sys2Proof.Machine
end

