-- ==== Sys2Proof/Laws/Keeps/Ops.lean ====
section
/-! SUPPORT.  What the operations of Machine/Ops.lean touch, and that they keep every property
closed under it. -/

namespace Sys2Proof.Machine

open Sys2Proof

set_option Elab.async false
set_option linter.unusedSimpArgs false
set_option linter.unusedVariables false
set_option linter.unusedTactic false
set_option linter.unreachableTactic false

variable {I : State → Prop}

def Touched.putSlew : Touch :=
  { regs := [F.WARP_STATUS_RATE_CLAMPED, F.WARP_STATUS_SLEW_ACTIVE, F.SLEW_NS], parts := [.warp] }

theorem keeps_putSlew (hc : Closed I Touched.putSlew) {s : State} (hk : Holds I s) (left : Int) : Holds I (State.putSlew s left) := by
  have c_warp : Closed I { parts := [.warp] } := hc.mono (by decide +kernel)
  unfold State.putSlew
  try dsimp only
  repeat' first | (guard_target =ₐ Holds I s; exact hk) | simp only [ic_mk, id_eq] | with_reducible refine ic_warp c_warp (ic_fold ?_) | with_reducible apply keeps_wrI | with_reducible apply keeps_wr | with_reducible apply Keeps.foldl (I := I) | with_reducible apply Keeps.foldl₂ (I := I) | with_reducible apply Keeps.ite (I := I) | exact hc.mono (by decide +kernel) | split | intro s _ _ hk | intro s _ hk | intro s hk | with_reducible exact hk

def Touched.absorbTo : Touch :=
  { regs := [F.WARP_STATUS_RATE_CLAMPED, F.WARP_STATUS_SLEW_ACTIVE, F.SLEW_NS], parts := [.warp] }

theorem keeps_absorbTo (hc : Closed I Touched.absorbTo) {s : State} (hk : Holds I s) (left : Int) : Holds I (State.absorbTo s left) := by
  have c_warp : Closed I { parts := [.warp] } := hc.mono (by decide +kernel)
  have c_putSlew' : Closed I Touched.putSlew := hc.mono (by decide +kernel)
  unfold State.absorbTo
  try dsimp only
  repeat' first | (guard_target =ₐ Holds I s; exact hk) | simp only [ic_mk, id_eq] | with_reducible refine ic_warp c_warp (ic_fold ?_) | with_reducible apply keeps_putSlew c_putSlew' | with_reducible apply Keeps.foldl (I := I) | with_reducible apply Keeps.foldl₂ (I := I) | with_reducible apply Keeps.ite (I := I) | split | intro s _ _ hk | intro s _ hk | intro s hk | with_reducible exact hk

def Touched.windowGrows : Touch :=
  { parts := [.warp] }

theorem keeps_windowGrows (hc : Closed I Touched.windowGrows) {s : State} (hk : Holds I s) (n : Nat) : Holds I (State.windowGrows s n) := by
  have c_warp : Closed I { parts := [.warp] } := hc.mono (by decide +kernel)
  unfold State.windowGrows
  try dsimp only
  repeat' first | (guard_target =ₐ Holds I s; exact hk) | simp only [ic_mk, id_eq] | with_reducible refine ic_warp c_warp (ic_fold ?_) | with_reducible apply Keeps.foldl (I := I) | with_reducible apply Keeps.foldl₂ (I := I) | with_reducible apply Keeps.ite (I := I) | split | intro s _ _ hk | intro s _ hk | intro s hk | with_reducible exact hk

def Touched.advance : Touch :=
  { regs := [F.WARP_STATUS_RATE_CLAMPED, F.WARP_STATUS_SLEW_ACTIVE, F.SLEW_NS], parts := [.warp] }

theorem keeps_advance (hc : Closed I Touched.advance) {s : State} (hk : Holds I s) (t : Instant) : Holds I (State.advance s t) := by
  have c_warp : Closed I { parts := [.warp] } := hc.mono (by decide +kernel)
  have c_windowGrows' : Closed I Touched.windowGrows := hc.mono (by decide +kernel)
  have c_absorbTo' : Closed I Touched.absorbTo := hc.mono (by decide +kernel)
  unfold State.advance
  try dsimp only
  repeat' first | (guard_target =ₐ Holds I s; exact hk) | simp only [ic_mk, id_eq] | with_reducible refine ic_warp c_warp (ic_fold ?_) | with_reducible apply keeps_windowGrows c_windowGrows' | with_reducible apply keeps_absorbTo c_absorbTo' | with_reducible apply Keeps.foldl (I := I) | with_reducible apply Keeps.foldl₂ (I := I) | with_reducible apply Keeps.ite (I := I) | split | intro s _ _ hk | intro s _ hk | intro s hk | with_reducible exact hk

def Touched.coarseEdge : Touch :=
  { parts := [.warp] }

theorem keeps_coarseEdge (hc : Closed I Touched.coarseEdge) {s : State} (hk : Holds I s) : Holds I (State.coarseEdge s) := by
  have c_warp : Closed I { parts := [.warp] } := hc.mono (by decide +kernel)
  unfold State.coarseEdge
  try dsimp only
  repeat' first | (guard_target =ₐ Holds I s; exact hk) | simp only [ic_mk, id_eq] | with_reducible refine ic_warp c_warp (ic_fold ?_) | with_reducible apply Keeps.foldl (I := I) | with_reducible apply Keeps.foldl₂ (I := I) | with_reducible apply Keeps.ite (I := I) | split | intro s _ _ hk | intro s _ hk | intro s hk | with_reducible exact hk

def Touched.discard : Touch :=
  { regs := [F.SYS_DISCARD_REASON, F.SYS_DISCARD_OFFSET, F.SYS_DISCARD_CNT] }

theorem keeps_discard (hc : Closed I Touched.discard) {s : State} (hk : Holds I s) (reason : Nat) (off : Nat) : Holds I (State.discard s reason off) := by
  unfold State.discard
  try dsimp only
  repeat' first | (guard_target =ₐ Holds I s; exact hk) | simp only [id_eq] | with_reducible apply keeps_bump | with_reducible apply keeps_wr | with_reducible apply Keeps.foldl (I := I) | with_reducible apply Keeps.foldl₂ (I := I) | with_reducible apply Keeps.ite (I := I) | exact hc.mono (by decide +kernel) | split | intro s _ _ hk | intro s _ hk | intro s hk | with_reducible exact hk

def Touched.deviceWrite : Touch :=
  { regs := [F.SYS_DISCARD_REASON, F.SYS_DISCARD_OFFSET, F.SYS_DISCARD_CNT] }

theorem keeps_deviceWrite (hc : Closed I Touched.deviceWrite) {s : State} (hk : Holds I s) (off : Nat) (f : State → State) (hf2 : ∀ s, Holds I s → Holds I (f s)) : Holds I (State.deviceWrite s off f) := by
  have c_discard' : Closed I Touched.discard := hc.mono (by decide +kernel)
  unfold State.deviceWrite
  try dsimp only
  repeat' first | (guard_target =ₐ Holds I s; exact hk) | simp only [id_eq] | with_reducible apply keeps_discard c_discard' | with_reducible apply Keeps.foldl (I := I) | with_reducible apply Keeps.foldl₂ (I := I) | with_reducible apply Keeps.ite (I := I) | split | with_reducible apply hf2 | intro s _ _ hk | intro s _ hk | intro s hk | with_reducible exact hk

def Touched.discardOther : Touch :=
  { regs := [F.SYS_DISCARD_REASON, F.SYS_DISCARD_OFFSET, F.SYS_DISCARD_CNT], parts := [.freeCtr] }

theorem keeps_discardOther (hc : Closed I Touched.discardOther) {s : State} (hk : Holds I s) (off : Nat) : Holds I (State.discardOther s off) := by
  have c_discard' : Closed I Touched.discard := hc.mono (by decide +kernel)
  have c_draw' : Closed I Touches.draw := hc.mono (by decide +kernel)
  unfold State.discardOther
  try dsimp only
  repeat' first | (guard_target =ₐ Holds I s; exact hk) | simp only [id_eq] | with_reducible apply keeps_discard c_discard' | with_reducible apply keeps_draw c_draw' | with_reducible apply Keeps.foldl (I := I) | with_reducible apply Keeps.foldl₂ (I := I) | with_reducible apply Keeps.ite (I := I) | split | intro s _ _ hk | intro s _ hk | intro s hk | with_reducible exact hk

def Touched.fineEdge : Touch :=
  { regs := [F.WARP_STATUS_RATE_CLAMPED, F.WARP_STATUS_SLEW_ACTIVE, F.SLEW_NS], parts := [.warp] }

theorem keeps_fineEdge (hc : Closed I Touched.fineEdge) {s : State} (hk : Holds I s) : Holds I (State.fineEdge s) := by
  have c_warp : Closed I { parts := [.warp] } := hc.mono (by decide +kernel)
  have c_windowGrows' : Closed I Touched.windowGrows := hc.mono (by decide +kernel)
  have c_absorbTo' : Closed I Touched.absorbTo := hc.mono (by decide +kernel)
  unfold State.fineEdge
  try dsimp only
  repeat' first | (guard_target =ₐ Holds I s; exact hk) | simp only [ic_mk, id_eq] | with_reducible refine ic_warp c_warp (ic_fold ?_) | with_reducible apply keeps_windowGrows c_windowGrows' | with_reducible apply keeps_absorbTo c_absorbTo' | with_reducible apply Keeps.foldl (I := I) | with_reducible apply Keeps.foldl₂ (I := I) | with_reducible apply Keeps.ite (I := I) | split | intro s _ _ hk | intro s _ hk | intro s hk | with_reducible exact hk

def Touched.interrupt : Touch :=
  { regs := [F.MSIX_PBA], parts := [.host] }

theorem keeps_interrupt (hc : Closed I Touched.interrupt) {s : State} (hk : Holds I s) (n : Nat) : Holds I (State.interrupt s n) := by
  have c_host : Closed I { parts := [.host] } := hc.mono (by decide +kernel)
  unfold State.interrupt
  try dsimp only
  repeat' first | (guard_target =ₐ Holds I s; exact hk) | simp only [ic_mk, id_eq] | with_reducible refine ic_host c_host (ic_fold ?_) | with_reducible apply keeps_wr | with_reducible apply Keeps.foldl (I := I) | with_reducible apply Keeps.foldl₂ (I := I) | with_reducible apply Keeps.ite (I := I) | exact hc.mono (by decide +kernel) | split | intro s _ _ hk | intro s _ hk | intro s hk | with_reducible exact hk

def Touched.warpEdge : Touch :=
  { regs := [F.WARP_STATUS_RATE_CLAMPED, F.WARP_STATUS_SLEW_ACTIVE, F.SLEW_NS], parts := [.warp] }

theorem keeps_warpEdge (hc : Closed I Touched.warpEdge) {s : State} (hk : Holds I s) : Holds I (State.warpEdge s) := by
  have c_coarseEdge' : Closed I Touched.coarseEdge := hc.mono (by decide +kernel)
  have c_fineEdge' : Closed I Touched.fineEdge := hc.mono (by decide +kernel)
  unfold State.warpEdge
  try dsimp only
  repeat' first | (guard_target =ₐ Holds I s; exact hk) | simp only [id_eq] | with_reducible apply keeps_coarseEdge c_coarseEdge' | with_reducible apply keeps_fineEdge c_fineEdge' | with_reducible apply Keeps.foldl (I := I) | with_reducible apply Keeps.foldl₂ (I := I) | with_reducible apply Keeps.ite (I := I) | split | intro s _ _ hk | intro s _ hk | intro s hk | with_reducible exact hk

end Sys2Proof.Machine
end

