-- ==== Sys2Proof/Laws/Keeps/AxisGroups.lean ====
section
/-! SUPPORT.  What the operations of Machine/AxisGroups.lean touch, and that they keep every property
closed under it. -/

namespace Sys2Proof.Machine

open Sys2Proof

set_option Elab.async false
set_option linter.unusedSimpArgs false
set_option linter.unusedVariables false
set_option linter.unusedTactic false
set_option linter.unreachableTactic false

variable {I : State → Prop}

def Touched.putAxis : Touch :=
  { parts := [.axes] }

theorem keeps_putAxis (hc : Closed I Touched.putAxis) {s : State} (hk : Holds I s) (n : Nat) (x : Axis) : Holds I (State.putAxis s n x) := by
  have c_axes : Closed I { parts := [.axes] } := hc.mono (by decide +kernel)
  unfold State.putAxis
  try dsimp only
  repeat' first | (guard_target =ₐ Holds I s; exact hk) | simp only [ic_mk, id_eq] | with_reducible refine ic_axes c_axes (ic_fold ?_) | with_reducible apply Keeps.foldl (I := I) | with_reducible apply Keeps.foldl₂ (I := I) | with_reducible apply Keeps.ite (I := I) | split | intro s _ _ hk | intro s _ hk | intro s hk | with_reducible exact hk

def Touched.onAxis : Touch :=
  { parts := [.axes] }

theorem keeps_onAxis (hc : Closed I Touched.onAxis) {s : State} (hk : Holds I s) (n : Nat) (f : Axis → Axis) : Holds I (State.onAxis s n f) := by
  have c_putAxis' : Closed I Touched.putAxis := hc.mono (by decide +kernel)
  unfold State.onAxis
  try dsimp only
  repeat' first | (guard_target =ₐ Holds I s; exact hk) | simp only [id_eq] | with_reducible apply keeps_putAxis c_putAxis' | with_reducible apply Keeps.foldl (I := I) | with_reducible apply Keeps.foldl₂ (I := I) | with_reducible apply Keeps.ite (I := I) | split | intro s _ _ hk | intro s _ hk | intro s hk | with_reducible exact hk

def Touched.syncGroups : Touch :=
  { parts := [.groups] }

theorem keeps_syncGroups (hc : Closed I Touched.syncGroups) {s : State} (hk : Holds I s) (t : Instant) : Holds I (State.syncGroups s t) := by
  have c_groups : Closed I { parts := [.groups] } := hc.mono (by decide +kernel)
  unfold State.syncGroups
  try dsimp only
  repeat' first | (guard_target =ₐ Holds I s; exact hk) | simp only [ic_mk, id_eq] | with_reducible refine ic_groups c_groups (ic_fold ?_) | with_reducible apply Keeps.foldl (I := I) | with_reducible apply Keeps.foldl₂ (I := I) | with_reducible apply Keeps.ite (I := I) | split | intro s _ _ hk | intro s _ hk | intro s hk | with_reducible exact hk

end Sys2Proof.Machine
end

