-- ==== Sys2Proof/Laws/Keeps/SkeinOps.lean ====
section
/-! SUPPORT.  What the operations of Machine/SkeinOps.lean touch, and that they keep every property
closed under it. -/

namespace Sys2Proof.Machine

open Sys2Proof

set_option Elab.async false
set_option linter.unusedSimpArgs false
set_option linter.unusedVariables false
set_option linter.unusedTactic false
set_option linter.unreachableTactic false

variable {I : State → Prop}

def Touched.putStream : Touch :=
  { parts := [.skein] }

theorem keeps_putStream (hc : Closed I Touched.putStream) {s : State} (hk : Holds I s) (k : Nat) (x : Stream) : Holds I (State.putStream s k x) := by
  have c_skein : Closed I { parts := [.skein] } := hc.mono (by decide +kernel)
  unfold State.putStream
  try dsimp only
  repeat' first | (guard_target =ₐ Holds I s; exact hk) | simp only [ic_mk, id_eq] | with_reducible refine ic_skein c_skein (ic_fold ?_) | with_reducible apply Keeps.foldl (I := I) | with_reducible apply Keeps.foldl₂ (I := I) | with_reducible apply Keeps.ite (I := I) | split | intro s _ _ hk | intro s _ hk | intro s hk | with_reducible exact hk

def Touched.endRun : Touch :=
  { parts := [.skein] }

theorem keeps_endRun (hc : Closed I Touched.endRun) {s : State} (hk : Holds I s) (k : Nat) (tap : Nat) : Holds I (State.endRun s k tap) := by
  have c_putStream' : Closed I Touched.putStream := hc.mono (by decide +kernel)
  unfold State.endRun
  try dsimp only
  repeat' first | (guard_target =ₐ Holds I s; exact hk) | simp only [id_eq] | with_reducible apply keeps_putStream c_putStream' | with_reducible apply Keeps.foldl (I := I) | with_reducible apply Keeps.foldl₂ (I := I) | with_reducible apply Keeps.ite (I := I) | split | intro s _ _ hk | intro s _ hk | intro s hk | with_reducible exact hk

def Touched.placeBlock : Touch :=
  { regs := [F.SK_EVENT, F.SKS_STATUS_RESIDENT, F.SKS_OVERWRITE], parts := [.skein] }

theorem keeps_placeBlock (hc : Closed I Touched.placeBlock) {s : State} (hk : Holds I s) (k : Nat) : Holds I (State.placeBlock s k) := by
  have c_putStream' : Closed I Touched.putStream := hc.mono (by decide +kernel)
  unfold State.placeBlock
  try dsimp only
  repeat' first | (guard_target =ₐ Holds I s; exact hk) | simp only [id_eq] | with_reducible apply keeps_putStream c_putStream' | with_reducible apply keeps_wr | with_reducible apply keeps_setBit | with_reducible apply keeps_bump | with_reducible apply Keeps.foldl (I := I) | with_reducible apply Keeps.foldl₂ (I := I) | with_reducible apply Keeps.ite (I := I) | exact hc.mono (by decide +kernel) | split | intro s _ _ hk | intro s _ hk | intro s hk | with_reducible exact hk

def Touched.showBurst : Touch :=
  { regs := [F.SK_STATUS_BURST_FREE_KIB] }

theorem keeps_showBurst (hc : Closed I Touched.showBurst) {s : State} (hk : Holds I s) : Holds I (State.showBurst s) := by
  unfold State.showBurst
  try dsimp only
  repeat' first | (guard_target =ₐ Holds I s; exact hk) | simp only [id_eq] | with_reducible apply keeps_wr | with_reducible apply Keeps.foldl (I := I) | with_reducible apply Keeps.foldl₂ (I := I) | with_reducible apply Keeps.ite (I := I) | exact hc.mono (by decide +kernel) | split | intro s _ _ hk | intro s _ hk | intro s hk | with_reducible exact hk

def Touched.seal : Touch :=
  { regs := [F.SK_STATUS_BURST_FREE_KIB, F.SK_EVENT, F.SKS_SEQ, F.SKS_STATUS_RESIDENT, F.SKS_OVERWRITE],
    parts := [.skein] }

theorem keeps_seal (hc : Closed I Touched.seal) {s : State} (hk : Holds I s) (k : Nat) : Holds I (State.seal s k) := by
  have c_putStream' : Closed I Touched.putStream := hc.mono (by decide +kernel)
  have c_placeBlock' : Closed I Touched.placeBlock := hc.mono (by decide +kernel)
  have c_showBurst' : Closed I Touched.showBurst := hc.mono (by decide +kernel)
  unfold State.seal
  try dsimp only
  repeat' first | (guard_target =ₐ Holds I s; exact hk) | simp only [id_eq] | with_reducible apply keeps_putStream c_putStream' | with_reducible apply keeps_roll | with_reducible apply keeps_placeBlock c_placeBlock' | with_reducible apply keeps_showBurst c_showBurst' | with_reducible apply Keeps.foldl (I := I) | with_reducible apply Keeps.foldl₂ (I := I) | with_reducible apply Keeps.ite (I := I) | exact hc.mono (by decide +kernel) | split | intro s _ _ hk | intro s _ hk | intro s hk | with_reducible exact hk

def Touched.putRec : Touch :=
  { regs := [F.SK_STATUS_BURST_FREE_KIB, F.SK_EVENT, F.SKS_SEQ, F.SKS_STATUS_RESIDENT, F.SKS_OVERWRITE],
    parts := [.skein] }

theorem keeps_putRec (hc : Closed I Touched.putRec) {s : State} (hk : Holds I s) (k : Nat) (r : SkRec) (a : Nat) : Holds I (State.putRec s k r a) := by
  have c_putStream' : Closed I Touched.putStream := hc.mono (by decide +kernel)
  have c_seal' : Closed I Touched.seal := hc.mono (by decide +kernel)
  induction a generalizing s k r with
  | zero =>
    unfold State.putRec
    try dsimp only
    repeat' first | (guard_target =ₐ Holds I s; exact hk) | simp only [id_eq] | with_reducible apply keeps_putStream c_putStream' | with_reducible apply keeps_seal c_seal' | with_reducible apply Keeps.foldl (I := I) | with_reducible apply Keeps.foldl₂ (I := I) | with_reducible apply Keeps.ite (I := I) | split | intro s _ _ hk | intro s _ hk | intro s hk | with_reducible exact hk
  | succ _ ih =>
    unfold State.putRec
    try dsimp only
    repeat' first | (guard_target =ₐ Holds I s; exact hk) | simp only [id_eq] | with_reducible apply ih | with_reducible apply keeps_putStream c_putStream' | with_reducible apply keeps_seal c_seal' | with_reducible apply Keeps.foldl (I := I) | with_reducible apply Keeps.foldl₂ (I := I) | with_reducible apply Keeps.ite (I := I) | split | intro s _ _ hk | intro s _ hk | intro s hk | with_reducible exact hk | cases ‹_ :: _ = _ :: _›

def Touched.record : Touch :=
  { regs := [F.SK_STATUS_BURST_FREE_KIB, F.SK_EVENT, F.SKS_SEQ, F.SKS_STATUS_RESIDENT, F.SKS_OVERWRITE],
    parts := [.skein] }

theorem keeps_record (hc : Closed I Touched.record) {s : State} (hk : Holds I s) (k : Nat) (r : SkRec) : Holds I (State.record s k r) := by
  have c_putStream' : Closed I Touched.putStream := hc.mono (by decide +kernel)
  have c_putRec' : Closed I Touched.putRec := hc.mono (by decide +kernel)
  unfold State.record
  try dsimp only
  repeat' first | (guard_target =ₐ Holds I s; exact hk) | simp only [id_eq] | with_reducible apply keeps_putStream c_putStream' | with_reducible apply keeps_putRec c_putRec' | with_reducible apply Keeps.foldl (I := I) | with_reducible apply Keeps.foldl₂ (I := I) | with_reducible apply Keeps.ite (I := I) | split | intro s _ _ hk | intro s _ hk | intro s hk | with_reducible exact hk

def Touched.event : Touch :=
  { regs := [F.SK_STATUS_BURST_FREE_KIB, F.SK_EVENT, F.SKS_SEQ, F.SKS_STATUS_RESIDENT, F.SKS_OVERWRITE],
    parts := [.skein] }

theorem keeps_event (hc : Closed I Touched.event) {s : State} (hk : Holds I s) (k : Nat) (kind : Nat) (id : Nat) (bit : Nat) (sel : Nat) (res : Nat) (detail : List Byte) : Holds I (State.event s k kind id bit sel res detail) := by
  have c_record' : Closed I Touched.record := hc.mono (by decide +kernel)
  unfold State.event
  try dsimp only
  repeat' first | (guard_target =ₐ Holds I s; exact hk) | simp only [id_eq] | with_reducible apply keeps_record c_record' | with_reducible apply Keeps.foldl (I := I) | with_reducible apply Keeps.foldl₂ (I := I) | with_reducible apply Keeps.ite (I := I) | split | intro s _ _ hk | intro s _ hk | intro s hk | with_reducible exact hk

def Touched.placeAll : Touch :=
  { regs := [F.SK_EVENT, F.SKS_STATUS_RESIDENT, F.SKS_OVERWRITE], parts := [.skein] }

theorem keeps_placeAll (hc : Closed I Touched.placeAll) {s : State} (hk : Holds I s) (k : Nat) (a : Nat) : Holds I (State.placeAll s k a) := by
  have c_placeBlock' : Closed I Touched.placeBlock := hc.mono (by decide +kernel)
  induction a generalizing s k with
  | zero =>
    unfold State.placeAll
    try dsimp only
    repeat' first | (guard_target =ₐ Holds I s; exact hk) | simp only [id_eq] | with_reducible apply keeps_placeBlock c_placeBlock' | with_reducible apply Keeps.foldl (I := I) | with_reducible apply Keeps.foldl₂ (I := I) | with_reducible apply Keeps.ite (I := I) | split | intro s _ _ hk | intro s _ hk | intro s hk | with_reducible exact hk
  | succ _ ih =>
    unfold State.placeAll
    try dsimp only
    repeat' first | (guard_target =ₐ Holds I s; exact hk) | simp only [id_eq] | with_reducible apply ih | with_reducible apply keeps_placeBlock c_placeBlock' | with_reducible apply Keeps.foldl (I := I) | with_reducible apply Keeps.foldl₂ (I := I) | with_reducible apply Keeps.ite (I := I) | split | intro s _ _ hk | intro s _ hk | intro s hk | with_reducible exact hk | cases ‹_ :: _ = _ :: _›

def Touched.skEvent : Touch :=
  { regs := [F.SK_STATUS_BURST_FREE_KIB, F.SK_EVENT, F.SKS_SEQ, F.SKS_STATUS_RESIDENT, F.SKS_OVERWRITE],
    parts := [.skein] }

theorem keeps_skEvent (hc : Closed I Touched.skEvent) {s : State} (hk : Holds I s) (k : Nat) (bit : Nat) : Holds I (State.skEvent s k bit) := by
  have c_event' : Closed I Touched.event := hc.mono (by decide +kernel)
  unfold State.skEvent
  try dsimp only
  repeat' first | (guard_target =ₐ Holds I s; exact hk) | simp only [id_eq] | with_reducible apply keeps_event c_event' | with_reducible apply keeps_setBit | with_reducible apply Keeps.foldl (I := I) | with_reducible apply Keeps.foldl₂ (I := I) | with_reducible apply Keeps.ite (I := I) | exact hc.mono (by decide +kernel) | split | intro s _ _ hk | intro s _ hk | intro s hk | with_reducible exact hk

def Touched.warpEvent : Touch :=
  { regs := [F.SK_STATUS_BURST_FREE_KIB, F.SK_EVENT, F.SKS_SEQ, F.SKS_STATUS_RESIDENT, F.SKS_OVERWRITE],
    parts := [.skein] }

theorem keeps_warpEvent (hc : Closed I Touched.warpEvent) {s : State} (hk : Holds I s) (f : Fld) (bit : Nat) (res : Nat) (detail : List Byte) (hf1 : Closed I f.touch) : Holds I (State.warpEvent s f bit res detail) := by
  have c_event' : Closed I Touched.event := hc.mono (by decide +kernel)
  unfold State.warpEvent
  try dsimp only
  repeat' first | (guard_target =ₐ Holds I s; exact hk) | simp only [id_eq] | with_reducible apply keeps_event c_event' | with_reducible apply keeps_wr | with_reducible apply Keeps.foldl (I := I) | with_reducible apply Keeps.foldl₂ (I := I) | with_reducible apply Keeps.ite (I := I) | exact hc.mono (by decide +kernel) | split | with_reducible apply hf1 | intro s _ _ hk | intro s _ hk | intro s hk | with_reducible exact hk

end Sys2Proof.Machine
end

