-- ==== Sys2Proof/Laws/Keeps/TandemLink.lean ====
section
/-! SUPPORT.  What the operations of Machine/TandemLink.lean touch, and that they keep every property
closed under it. -/

namespace Sys2Proof.Machine

open Sys2Proof

set_option Elab.async false
set_option linter.unusedSimpArgs false
set_option linter.unusedVariables false
set_option linter.unusedTactic false
set_option linter.unreachableTactic false

variable {I : State → Prop}

def Touched.onTandem : Touch :=
  { parts := [.tandem] }

theorem keeps_onTandem (hc : Closed I Touched.onTandem) {s : State} (hk : Holds I s) (f : Tandem → Tandem) : Holds I (State.onTandem s f) := by
  have c_tandem : Closed I { parts := [.tandem] } := hc.mono (by decide +kernel)
  unfold State.onTandem
  try dsimp only
  repeat' first | (guard_target =ₐ Holds I s; exact hk) | simp only [ic_mk, id_eq] | with_reducible refine ic_tandem c_tandem (ic_fold ?_) | with_reducible apply Keeps.foldl (I := I) | with_reducible apply Keeps.foldl₂ (I := I) | with_reducible apply Keeps.ite (I := I) | split | intro s _ _ hk | intro s _ hk | intro s hk | with_reducible exact hk

def Touched.sendFrame : Touch :=
  { parts := [.tandem] }

theorem keeps_sendFrame (hc : Closed I Touched.sendFrame) {s : State} (hk : Holds I s) (type : Nat) (payload : List Byte) : Holds I (State.sendFrame s type payload) := by
  have c_onTandem' : Closed I Touched.onTandem := hc.mono (by decide +kernel)
  unfold State.sendFrame
  try dsimp only
  repeat' first | (guard_target =ₐ Holds I s; exact hk) | simp only [id_eq] | with_reducible apply keeps_onTandem c_onTandem' | with_reducible apply Keeps.foldl (I := I) | with_reducible apply Keeps.foldl₂ (I := I) | with_reducible apply Keeps.ite (I := I) | split | intro s _ _ hk | intro s _ hk | intro s hk | with_reducible exact hk

def Touched.startHandover : Touch :=
  { parts := [.tandem] }

theorem keeps_startHandover (hc : Closed I Touched.startHandover) {s : State} (hk : Holds I s) (x : Instant) (offline : Bool) : Holds I (State.startHandover s x offline) := by
  have c_sendFrame' : Closed I Touched.sendFrame := hc.mono (by decide +kernel)
  have c_onTandem' : Closed I Touched.onTandem := hc.mono (by decide +kernel)
  unfold State.startHandover
  try dsimp only
  repeat' first | (guard_target =ₐ Holds I s; exact hk) | simp only [id_eq] | with_reducible apply keeps_sendFrame c_sendFrame' | with_reducible apply keeps_onTandem c_onTandem' | with_reducible apply Keeps.foldl (I := I) | with_reducible apply Keeps.foldl₂ (I := I) | with_reducible apply Keeps.ite (I := I) | split | intro s _ _ hk | intro s _ hk | intro s hk | with_reducible exact hk

def Touched.faultHandover : Touch :=
  { parts := [.tandem] }

theorem keeps_faultHandover (hc : Closed I Touched.faultHandover) {s : State} (hk : Holds I s) : Holds I (State.faultHandover s) := by
  have c_startHandover' : Closed I Touched.startHandover := hc.mono (by decide +kernel)
  unfold State.faultHandover
  try dsimp only
  repeat' first | (guard_target =ₐ Holds I s; exact hk) | simp only [id_eq] | with_reducible apply keeps_startHandover c_startHandover' | with_reducible apply Keeps.foldl (I := I) | with_reducible apply Keeps.foldl₂ (I := I) | with_reducible apply Keeps.ite (I := I) | split | intro s _ _ hk | intro s _ hk | intro s hk | with_reducible exact hk

def Touched.putPair : Touch :=
  { parts := [.tandem] }

theorem keeps_putPair (hc : Closed I Touched.putPair) {s : State} (hk : Holds I s) (r : Nat) (x : PairRing) : Holds I (State.putPair s r x) := by
  have c_onTandem' : Closed I Touched.onTandem := hc.mono (by decide +kernel)
  unfold State.putPair
  try dsimp only
  repeat' first | (guard_target =ₐ Holds I s; exact hk) | simp only [id_eq] | with_reducible apply keeps_onTandem c_onTandem' | with_reducible apply Keeps.foldl (I := I) | with_reducible apply Keeps.foldl₂ (I := I) | with_reducible apply Keeps.ite (I := I) | split | intro s _ _ hk | intro s _ hk | intro s hk | with_reducible exact hk

def Touched.lapseWitness : Touch :=
  { regs := [F.TD_WITNESS], parts := [.tandem] }

theorem keeps_lapseWitness (hc : Closed I Touched.lapseWitness) {s : State} (hk : Holds I s) (r : Nat) : Holds I (State.lapseWitness s r) := by
  have c_putPair' : Closed I Touched.putPair := hc.mono (by decide +kernel)
  unfold State.lapseWitness
  try dsimp only
  repeat' first | (guard_target =ₐ Holds I s; exact hk) | simp only [id_eq] | with_reducible apply keeps_putPair c_putPair' | with_reducible apply keeps_wr | with_reducible apply Keeps.foldl (I := I) | with_reducible apply Keeps.foldl₂ (I := I) | with_reducible apply Keeps.ite (I := I) | exact hc.mono (by decide +kernel) | split | intro s _ _ hk | intro s _ hk | intro s hk | with_reducible exact hk

def Touched.showGuard : Touch :=
  { regs := [F.TD_GUARD_EFF] }

theorem keeps_showGuard (hc : Closed I Touched.showGuard) {s : State} (hk : Holds I s) : Holds I (State.showGuard s) := by
  unfold State.showGuard
  try dsimp only
  repeat' first | (guard_target =ₐ Holds I s; exact hk) | simp only [id_eq] | with_reducible apply keeps_wr | with_reducible apply Keeps.foldl (I := I) | with_reducible apply Keeps.foldl₂ (I := I) | with_reducible apply Keeps.ite (I := I) | exact hc.mono (by decide +kernel) | split | intro s _ _ hk | intro s _ hk | intro s hk | with_reducible exact hk

def Touched.putExpiry : Touch :=
  { regs := [F.TD_EXPIRY, F.TD_GUARD_EFF] }

theorem keeps_putExpiry (hc : Closed I Touched.putExpiry) {s : State} (hk : Holds I s) (e : Instant) : Holds I (State.putExpiry s e) := by
  have c_showGuard' : Closed I Touched.showGuard := hc.mono (by decide +kernel)
  unfold State.putExpiry
  try dsimp only
  repeat' first | (guard_target =ₐ Holds I s; exact hk) | simp only [id_eq] | with_reducible apply keeps_showGuard c_showGuard' | with_reducible apply keeps_wrT | with_reducible apply Keeps.foldl (I := I) | with_reducible apply Keeps.foldl₂ (I := I) | with_reducible apply Keeps.ite (I := I) | exact hc.mono (by decide +kernel) | split | intro s _ _ hk | intro s _ hk | intro s hk | with_reducible exact hk

def Touched.tdEvent : Touch :=
  { regs := [F.TD_EVENT, F.MSIX_PBA], parts := [.host] }

theorem keeps_tdEvent (hc : Closed I Touched.tdEvent) {s : State} (hk : Holds I s) (bit : Nat) : Holds I (State.tdEvent s bit) := by
  have c_interrupt' : Closed I Touched.interrupt := hc.mono (by decide +kernel)
  unfold State.tdEvent
  try dsimp only
  repeat' first | (guard_target =ₐ Holds I s; exact hk) | simp only [id_eq] | with_reducible apply keeps_interrupt c_interrupt' | with_reducible apply keeps_setBit | with_reducible apply Keeps.foldl (I := I) | with_reducible apply Keeps.foldl₂ (I := I) | with_reducible apply Keeps.ite (I := I) | exact hc.mono (by decide +kernel) | split | intro s _ _ hk | intro s _ hk | intro s hk | with_reducible exact hk

def Touched.tdRecord : Touch :=
  { regs := [F.SK_STATUS_BURST_FREE_KIB, F.SK_EVENT, F.SKS_SEQ, F.SKS_STATUS_RESIDENT, F.SKS_OVERWRITE],
    parts := [.skein] }

theorem keeps_tdRecord (hc : Closed I Touched.tdRecord) {s : State} (hk : Holds I s) (bit : Nat) (res : Nat) : Holds I (State.tdRecord s bit res) := by
  have c_event' : Closed I Touched.event := hc.mono (by decide +kernel)
  unfold State.tdRecord
  try dsimp only
  repeat' first | (guard_target =ₐ Holds I s; exact hk) | simp only [id_eq] | with_reducible apply keeps_event c_event' | with_reducible apply Keeps.foldl (I := I) | with_reducible apply Keeps.foldl₂ (I := I) | with_reducible apply Keeps.ite (I := I) | split | intro s _ _ hk | intro s _ hk | intro s hk | with_reducible exact hk

def Touched.tdNote : Touch :=
  { regs := [F.SK_STATUS_BURST_FREE_KIB, F.SK_EVENT, F.SKS_SEQ, F.SKS_STATUS_RESIDENT, F.SKS_OVERWRITE, F.TD_EVENT,
      F.MSIX_PBA],
    parts := [.skein, .host] }

theorem keeps_tdNote (hc : Closed I Touched.tdNote) {s : State} (hk : Holds I s) (bit : Nat) (res : Nat) : Holds I (State.tdNote s bit res) := by
  have c_tdRecord' : Closed I Touched.tdRecord := hc.mono (by decide +kernel)
  have c_tdEvent' : Closed I Touched.tdEvent := hc.mono (by decide +kernel)
  unfold State.tdNote
  try dsimp only
  repeat' first | (guard_target =ₐ Holds I s; exact hk) | simp only [id_eq] | with_reducible apply keeps_tdRecord c_tdRecord' | with_reducible apply keeps_tdEvent c_tdEvent' | with_reducible apply Keeps.foldl (I := I) | with_reducible apply Keeps.foldl₂ (I := I) | with_reducible apply Keeps.ite (I := I) | split | intro s _ _ hk | intro s _ hk | intro s hk | with_reducible exact hk

end Sys2Proof.Machine
end

