-- ==== Sys2Proof/Laws/Keeps/Faults.lean ====
section
/-! SUPPORT.  What the operations of Machine/Faults.lean touch, and that they keep every property
closed under it. -/

namespace Sys2Proof.Machine

open Sys2Proof

set_option Elab.async false
set_option linter.unusedSimpArgs false
set_option linter.unusedVariables false
set_option linter.unusedTactic false
set_option linter.unreachableTactic false

variable {I : State → Prop}

def Touched.devFault : Touch :=
  { regs := [F.SK_STATUS_BURST_FREE_KIB, F.SK_EVENT, F.SKS_SEQ, F.SKS_STATUS_RESIDENT, F.SKS_OVERWRITE, F.SYS_DEVFAULT],
    parts := [.warp, .skein, .tandem] }

theorem keeps_devFault (hc : Closed I Touched.devFault) {s : State} (hk : Holds I s) (cause : Nat) : Holds I (State.devFault s cause) := by
  have c_warp : Closed I { parts := [.warp] } := hc.mono (by decide +kernel)
  have c_event' : Closed I Touched.event := hc.mono (by decide +kernel)
  have c_faultHandover' : Closed I Touched.faultHandover := hc.mono (by decide +kernel)
  unfold State.devFault
  try dsimp only
  repeat' first | (guard_target =ₐ Holds I s; exact hk) | simp only [ic_mk, id_eq] | with_reducible refine ic_warp c_warp (ic_fold ?_) | with_reducible apply keeps_setBit | with_reducible apply keeps_event c_event' | with_reducible apply keeps_faultHandover c_faultHandover' | with_reducible apply Keeps.foldl (I := I) | with_reducible apply Keeps.foldl₂ (I := I) | with_reducible apply Keeps.ite (I := I) | exact hc.mono (by decide +kernel) | split | intro s _ _ hk | intro s _ hk | intro s hk | with_reducible exact hk

def Touched.sysFault : Touch :=
  { regs := [F.SK_STATUS_BURST_FREE_KIB, F.SK_EVENT, F.SKS_SEQ, F.SKS_STATUS_RESIDENT, F.SKS_OVERWRITE, F.SYS_FAULT,
      F.SYS_FAULT_LAST, F.SYS_FAULT_T, F.MSIX_PBA],
    parts := [.skein, .host] }

theorem keeps_sysFault (hc : Closed I Touched.sysFault) {s : State} (hk : Holds I s) (cls : Nat) (what : Nat) : Holds I (State.sysFault s cls what) := by
  have c_interrupt' : Closed I Touched.interrupt := hc.mono (by decide +kernel)
  have c_event' : Closed I Touched.event := hc.mono (by decide +kernel)
  unfold State.sysFault
  try dsimp only
  repeat' first | (guard_target =ₐ Holds I s; exact hk) | simp only [id_eq] | with_reducible apply keeps_interrupt c_interrupt' | with_reducible apply keeps_wrT | with_reducible apply keeps_wr | with_reducible apply keeps_setBit | with_reducible apply keeps_event c_event' | with_reducible apply Keeps.foldl (I := I) | with_reducible apply Keeps.foldl₂ (I := I) | with_reducible apply Keeps.ite (I := I) | exact hc.mono (by decide +kernel) | split | intro s _ _ hk | intro s _ hk | intro s hk | with_reducible exact hk

end Sys2Proof.Machine
end

