-- ==== Sys2Proof/Laws/Keeps/Beam.lean ====
section
/-! SUPPORT.  What the operations of Machine/Beam.lean touch, and that they keep every property
closed under it. -/

namespace Sys2Proof.Machine

open Sys2Proof

set_option Elab.async false
set_option linter.unusedSimpArgs false
set_option linter.unusedVariables false
set_option linter.unusedTactic false
set_option linter.unreachableTactic false

variable {I : State → Prop}

def Touched.putOut : Touch :=
  { parts := [.loom] }

theorem keeps_putOut (hc : Closed I Touched.putOut) {s : State} (hk : Holds I s) (k : Nat) (x : OutState) : Holds I (State.putOut s k x) := by
  have c_loom : Closed I { parts := [.loom] } := hc.mono (by decide +kernel)
  unfold State.putOut
  try dsimp only
  repeat' first | (guard_target =ₐ Holds I s; exact hk) | simp only [ic_mk, id_eq] | with_reducible refine ic_loom c_loom (ic_fold ?_) | with_reducible apply Keeps.foldl (I := I) | with_reducible apply Keeps.foldl₂ (I := I) | with_reducible apply Keeps.ite (I := I) | split | intro s _ _ hk | intro s _ hk | intro s hk | with_reducible exact hk

def Touched.countOut : Touch :=
  { regs := [F.ODO_OUT, F.ODO_OUT_SAT] }

theorem keeps_countOut (hc : Closed I Touched.countOut) {s : State} (hk : Holds I s) (k : Nat) : Holds I (State.countOut s k) := by
  unfold State.countOut
  try dsimp only
  repeat' first | (guard_target =ₐ Holds I s; exact hk) | simp only [id_eq] | with_reducible apply keeps_wr | with_reducible apply Keeps.foldl (I := I) | with_reducible apply Keeps.foldl₂ (I := I) | with_reducible apply Keeps.ite (I := I) | exact hc.mono (by decide +kernel) | split | intro s _ _ hk | intro s _ hk | intro s hk | with_reducible exact hk

def Touched.takeLevel : Touch :=
  { regs := [F.ODO_OUT, F.ODO_OUT_SAT], parts := [.loom] }

theorem keeps_takeLevel (hc : Closed I Touched.takeLevel) {s : State} (hk : Holds I s) (k : Nat) (b : Bool) : Holds I (State.takeLevel s k b) := by
  have c_putOut' : Closed I Touched.putOut := hc.mono (by decide +kernel)
  have c_countOut' : Closed I Touched.countOut := hc.mono (by decide +kernel)
  unfold State.takeLevel
  try dsimp only
  repeat' first | (guard_target =ₐ Holds I s; exact hk) | simp only [id_eq] | with_reducible apply keeps_putOut c_putOut' | with_reducible apply keeps_countOut c_countOut' | with_reducible apply Keeps.foldl (I := I) | with_reducible apply Keeps.foldl₂ (I := I) | with_reducible apply Keeps.ite (I := I) | split | intro s _ _ hk | intro s _ hk | intro s hk | with_reducible exact hk

def Touched.settle : Touch :=
  { regs := [F.ODO_OUT, F.ODO_OUT_SAT], parts := [.fio, .loom] }

theorem keeps_settle (hc : Closed I Touched.settle) {s : State} (hk : Holds I s) : Holds I (State.settle s) := by
  have c_fio : Closed I { parts := [.fio] } := hc.mono (by decide +kernel)
  have c_takeLevel' : Closed I Touched.takeLevel := hc.mono (by decide +kernel)
  unfold State.settle
  try dsimp only
  repeat' first | (guard_target =ₐ Holds I s; exact hk) | simp only [ic_mk, id_eq] | with_reducible refine ic_fio c_fio (ic_fold ?_) | with_reducible apply keeps_takeLevel c_takeLevel' | with_reducible apply Keeps.foldl (I := I) | with_reducible apply Keeps.foldl₂ (I := I) | with_reducible apply Keeps.ite (I := I) | split | intro s _ _ hk | intro s _ hk | intro s hk | with_reducible exact hk

def Touched.command : Touch :=
  { regs := [F.ODO_OUT, F.ODO_OUT_SAT], parts := [.fio, .loom] }

theorem keeps_command (hc : Closed I Touched.command) {s : State} (hk : Holds I s) (k : Nat) (b : Bool) : Holds I (State.command s k b) := by
  have c_settle' : Closed I Touched.settle := hc.mono (by decide +kernel)
  have c_putOut' : Closed I Touched.putOut := hc.mono (by decide +kernel)
  unfold State.command
  try dsimp only
  repeat' first | (guard_target =ₐ Holds I s; exact hk) | simp only [id_eq] | with_reducible apply keeps_settle c_settle' | with_reducible apply keeps_putOut c_putOut' | with_reducible apply Keeps.foldl (I := I) | with_reducible apply Keeps.foldl₂ (I := I) | with_reducible apply Keeps.ite (I := I) | split | intro s _ _ hk | intro s _ hk | intro s hk | with_reducible exact hk

def Touched.loomEvent : Touch :=
  { regs := [F.SK_STATUS_BURST_FREE_KIB, F.SK_EVENT, F.SKS_SEQ, F.SKS_STATUS_RESIDENT, F.SKS_OVERWRITE, F.LOOM_EVENT],
    parts := [.skein] }

theorem keeps_loomEvent (hc : Closed I Touched.loomEvent) {s : State} (hk : Holds I s) (stream : Nat) (id : Nat) (bit : Nat) (detail : List Byte) : Holds I (State.loomEvent s stream id bit detail) := by
  have c_event' : Closed I Touched.event := hc.mono (by decide +kernel)
  unfold State.loomEvent
  try dsimp only
  repeat' first | (guard_target =ₐ Holds I s; exact hk) | simp only [id_eq] | with_reducible apply keeps_event c_event' | with_reducible apply keeps_setBit | with_reducible apply Keeps.foldl (I := I) | with_reducible apply Keeps.foldl₂ (I := I) | with_reducible apply Keeps.ite (I := I) | exact hc.mono (by decide +kernel) | split | intro s _ _ hk | intro s _ hk | intro s hk | with_reducible exact hk

def Touched.publish : Touch :=
  { regs := [F.VR_VALUE] }

theorem keeps_publish (hc : Closed I Touched.publish) {s : State} (hk : Holds I s) (kind : Nat) (id : Nat) (v : Nat) : Holds I (State.publish s kind id v) := by
  unfold State.publish
  try dsimp only
  repeat' first | (guard_target =ₐ Holds I s; exact hk) | simp only [id_eq] | with_reducible apply keeps_wr | with_reducible apply Keeps.foldl (I := I) | with_reducible apply Keeps.foldl₂ (I := I) | with_reducible apply Keeps.ite (I := I) | exact hc.mono (by decide +kernel) | split | intro s _ _ hk | intro s _ hk | intro s hk | with_reducible exact hk

def Touched.putCycPart : Touch :=
  { parts := [.cyc] }

theorem keeps_putCycPart (hc : Closed I Touched.putCycPart) {s : State} (hk : Holds I s) (p : Nat) (x : CycPart) : Holds I (State.putCycPart s p x) := by
  have c_cyc : Closed I { parts := [.cyc] } := hc.mono (by decide +kernel)
  unfold State.putCycPart
  try dsimp only
  repeat' first | (guard_target =ₐ Holds I s; exact hk) | simp only [ic_mk, id_eq] | with_reducible refine ic_cyc c_cyc (ic_fold ?_) | with_reducible apply Keeps.foldl (I := I) | with_reducible apply Keeps.foldl₂ (I := I) | with_reducible apply Keeps.ite (I := I) | split | intro s _ _ hk | intro s _ hk | intro s hk | with_reducible exact hk

def Touched.putCycTask : Touch :=
  { parts := [.cyc] }

theorem keeps_putCycTask (hc : Closed I Touched.putCycTask) {s : State} (hk : Holds I s) (k : Nat) (x : CycTask) : Holds I (State.putCycTask s k x) := by
  have c_cyc : Closed I { parts := [.cyc] } := hc.mono (by decide +kernel)
  unfold State.putCycTask
  try dsimp only
  repeat' first | (guard_target =ₐ Holds I s; exact hk) | simp only [ic_mk, id_eq] | with_reducible refine ic_cyc c_cyc (ic_fold ?_) | with_reducible apply Keeps.foldl (I := I) | with_reducible apply Keeps.foldl₂ (I := I) | with_reducible apply Keeps.ite (I := I) | split | intro s _ _ hk | intro s _ hk | intro s hk | with_reducible exact hk

def Touched.putRecord : Touch :=
  { parts := [.loom] }

theorem keeps_putRecord (hc : Closed I Touched.putRecord) {s : State} (hk : Holds I s) (key : Nat) (r : BeamRec) : Holds I (State.putRecord s key r) := by
  have c_loom : Closed I { parts := [.loom] } := hc.mono (by decide +kernel)
  unfold State.putRecord
  try dsimp only
  repeat' first | (guard_target =ₐ Holds I s; exact hk) | simp only [ic_mk, id_eq] | with_reducible refine ic_loom c_loom (ic_fold ?_) | with_reducible apply Keeps.foldl (I := I) | with_reducible apply Keeps.foldl₂ (I := I) | with_reducible apply Keeps.ite (I := I) | split | intro s _ _ hk | intro s _ hk | intro s hk | with_reducible exact hk

def Touched.putRing : Touch :=
  { parts := [.rings] }

theorem keeps_putRing (hc : Closed I Touched.putRing) {s : State} (hk : Holds I s) (r : Nat) (x : Ring) : Holds I (State.putRing s r x) := by
  have c_rings : Closed I { parts := [.rings] } := hc.mono (by decide +kernel)
  unfold State.putRing
  try dsimp only
  repeat' first | (guard_target =ₐ Holds I s; exact hk) | simp only [ic_mk, id_eq] | with_reducible refine ic_rings c_rings (ic_fold ?_) | with_reducible apply Keeps.foldl (I := I) | with_reducible apply Keeps.foldl₂ (I := I) | with_reducible apply Keeps.ite (I := I) | split | intro s _ _ hk | intro s _ hk | intro s hk | with_reducible exact hk

end Sys2Proof.Machine
end

