-- ==== Sys2Proof/Laws/Keeps/PowerOps.lean ====
section
/-! SUPPORT.  What the operations of Machine/PowerOps.lean touch, and that they keep every property
closed under it. -/

namespace Sys2Proof.Machine

open Sys2Proof

set_option Elab.async false
set_option linter.unusedSimpArgs false
set_option linter.unusedVariables false
set_option linter.unusedTactic false
set_option linter.unreachableTactic false

variable {I : State → Prop}

def Touched.onPower : Touch :=
  { parts := [.power] }

theorem keeps_onPower (hc : Closed I Touched.onPower) {s : State} (hk : Holds I s) (f : Power → Power) : Holds I (State.onPower s f) := by
  have c_power : Closed I { parts := [.power] } := hc.mono (by decide +kernel)
  unfold State.onPower
  try dsimp only
  repeat' first | (guard_target =ₐ Holds I s; exact hk) | simp only [ic_mk, id_eq] | with_reducible refine ic_power c_power (ic_fold ?_) | with_reducible apply Keeps.foldl (I := I) | with_reducible apply Keeps.foldl₂ (I := I) | with_reducible apply Keeps.ite (I := I) | split | intro s _ _ hk | intro s _ hk | intro s hk | with_reducible exact hk

def Touched.accrue : Touch :=
  { regs := [F.PWR_RES], parts := [.power] }

theorem keeps_accrue (hc : Closed I Touched.accrue) {s : State} (hk : Holds I s) : Holds I (State.accrue s) := by
  have c_onPower' : Closed I Touched.onPower := hc.mono (by decide +kernel)
  unfold State.accrue
  try dsimp only
  repeat' first | (guard_target =ₐ Holds I s; exact hk) | simp only [id_eq] | with_reducible apply keeps_onPower c_onPower' | with_reducible apply keeps_wr | with_reducible apply Keeps.foldl (I := I) | with_reducible apply Keeps.foldl₂ (I := I) | with_reducible apply Keeps.ite (I := I) | exact hc.mono (by decide +kernel) | split | intro s _ _ hk | intro s _ hk | intro s hk | with_reducible exact hk

def Touched.wakeQuadrant : Touch :=
  { parts := [.power] }

theorem keeps_wakeQuadrant (hc : Closed I Touched.wakeQuadrant) {s : State} (hk : Holds I s) (q : Nat) : Holds I (State.wakeQuadrant s q) := by
  have c_onPower' : Closed I Touched.onPower := hc.mono (by decide +kernel)
  unfold State.wakeQuadrant
  try dsimp only
  repeat' first | (guard_target =ₐ Holds I s; exact hk) | simp only [id_eq] | with_reducible apply keeps_onPower c_onPower' | with_reducible apply Keeps.foldl (I := I) | with_reducible apply Keeps.foldl₂ (I := I) | with_reducible apply Keeps.ite (I := I) | split | intro s _ _ hk | intro s _ hk | intro s hk | with_reducible exact hk

def Touched.beginExit : Touch :=
  { regs := [F.PWR_STATUS_PHASE], parts := [.power] }

theorem keeps_beginExit (hc : Closed I Touched.beginExit) {s : State} (hk : Holds I s) : Holds I (State.beginExit s) := by
  have c_wakeQuadrant' : Closed I Touched.wakeQuadrant := hc.mono (by decide +kernel)
  have c_onPower' : Closed I Touched.onPower := hc.mono (by decide +kernel)
  unfold State.beginExit
  try dsimp only
  repeat' first | (guard_target =ₐ Holds I s; exact hk) | simp only [id_eq] | with_reducible apply keeps_each | with_reducible apply keeps_wakeQuadrant c_wakeQuadrant' | with_reducible apply keeps_wr | with_reducible apply keeps_onPower c_onPower' | with_reducible apply Keeps.foldl (I := I) | with_reducible apply Keeps.foldl₂ (I := I) | with_reducible apply Keeps.ite (I := I) | exact hc.mono (by decide +kernel) | split | intro s _ _ hk | intro s _ hk | intro s hk | with_reducible exact hk

def Touched.beginHold : Touch :=
  { parts := [.power] }

theorem keeps_beginHold (hc : Closed I Touched.beginHold) {s : State} (hk : Holds I s) : Holds I (State.beginHold s) := by
  have c_onPower' : Closed I Touched.onPower := hc.mono (by decide +kernel)
  unfold State.beginHold
  try dsimp only
  repeat' first | (guard_target =ₐ Holds I s; exact hk) | simp only [id_eq] | with_reducible apply keeps_onPower c_onPower' | with_reducible apply Keeps.foldl (I := I) | with_reducible apply Keeps.foldl₂ (I := I) | with_reducible apply Keeps.ite (I := I) | split | intro s _ _ hk | intro s _ hk | intro s hk | with_reducible exact hk

def Touched.pwrFlag : Touch :=
  { regs := [F.PWR_EVENT, F.MSIX_PBA], parts := [.host] }

theorem keeps_pwrFlag (hc : Closed I Touched.pwrFlag) {s : State} (hk : Holds I s) (bit : Nat) : Holds I (State.pwrFlag s bit) := by
  have c_interrupt' : Closed I Touched.interrupt := hc.mono (by decide +kernel)
  unfold State.pwrFlag
  try dsimp only
  repeat' first | (guard_target =ₐ Holds I s; exact hk) | simp only [id_eq] | with_reducible apply keeps_interrupt c_interrupt' | with_reducible apply keeps_setBit | with_reducible apply Keeps.foldl (I := I) | with_reducible apply Keeps.foldl₂ (I := I) | with_reducible apply Keeps.ite (I := I) | exact hc.mono (by decide +kernel) | split | intro s _ _ hk | intro s _ hk | intro s hk | with_reducible exact hk

def Touched.pwrEvent : Touch :=
  { regs := [F.SK_STATUS_BURST_FREE_KIB, F.SK_EVENT, F.SKS_SEQ, F.SKS_STATUS_RESIDENT, F.SKS_OVERWRITE, F.PWR_EVENT,
      F.MSIX_PBA],
    parts := [.skein, .host] }

theorem keeps_pwrEvent (hc : Closed I Touched.pwrEvent) {s : State} (hk : Holds I s) (bit : Nat) : Holds I (State.pwrEvent s bit) := by
  have c_event' : Closed I Touched.event := hc.mono (by decide +kernel)
  have c_pwrFlag' : Closed I Touched.pwrFlag := hc.mono (by decide +kernel)
  unfold State.pwrEvent
  try dsimp only
  repeat' first | (guard_target =ₐ Holds I s; exact hk) | simp only [id_eq] | with_reducible apply keeps_event c_event' | with_reducible apply keeps_pwrFlag c_pwrFlag' | with_reducible apply Keeps.foldl (I := I) | with_reducible apply Keeps.foldl₂ (I := I) | with_reducible apply Keeps.ite (I := I) | split | intro s _ _ hk | intro s _ hk | intro s hk | with_reducible exact hk

def Touched.entryFails : Touch :=
  { regs := [F.SK_STATUS_BURST_FREE_KIB, F.SK_EVENT, F.SKS_SEQ, F.SKS_STATUS_RESIDENT, F.SKS_OVERWRITE,
      F.PWR_STATUS_WAKE_PEND, F.PWR_STATUS_PHASE, F.PWR_STATUS_TARGET, F.PWR_EVENT, F.PWR_REFUSE_CAUSE,
      F.PWR_REFUSE_TARGET, F.PWR_REFUSE_REFUSER, F.PWR_REFUSE_CNT, F.PWR_ABORT_CNT, F.MSIX_PBA],
    parts := [.skein, .host, .power] }

theorem keeps_entryFails (hc : Closed I Touched.entryFails) {s : State} (hk : Holds I s) (code : Nat) (cause : Nat) : Holds I (State.entryFails s code cause) := by
  have c_pwrEvent' : Closed I Touched.pwrEvent := hc.mono (by decide +kernel)
  have c_onPower' : Closed I Touched.onPower := hc.mono (by decide +kernel)
  have c_beginHold' : Closed I Touched.beginHold := hc.mono (by decide +kernel)
  unfold State.entryFails
  try dsimp only
  repeat' first | (guard_target =ₐ Holds I s; exact hk) | simp only [id_eq] | with_reducible apply keeps_bump | with_reducible apply keeps_wr | with_reducible apply keeps_pwrEvent c_pwrEvent' | with_reducible apply keeps_onPower c_onPower' | with_reducible apply keeps_beginHold c_beginHold' | with_reducible apply Keeps.foldl (I := I) | with_reducible apply Keeps.foldl₂ (I := I) | with_reducible apply Keeps.ite (I := I) | exact hc.mono (by decide +kernel) | split | intro s _ _ hk | intro s _ hk | intro s hk | with_reducible exact hk

def Touched.putAssist : Touch :=
  { parts := [.power] }

theorem keeps_putAssist (hc : Closed I Touched.putAssist) {s : State} (hk : Holds I s) (x : Nat) : Holds I (State.putAssist s x) := by
  have c_onPower' : Closed I Touched.onPower := hc.mono (by decide +kernel)
  unfold State.putAssist
  try dsimp only
  repeat' first | (guard_target =ₐ Holds I s; exact hk) | simp only [id_eq] | with_reducible apply keeps_onPower c_onPower' | with_reducible apply Keeps.foldl (I := I) | with_reducible apply Keeps.foldl₂ (I := I) | with_reducible apply Keeps.ite (I := I) | split | intro s _ _ hk | intro s _ hk | intro s hk | with_reducible exact hk

def Touched.putBias : Touch :=
  { parts := [.power] }

theorem keeps_putBias (hc : Closed I Touched.putBias) {s : State} (hk : Holds I s) (x : Nat) : Holds I (State.putBias s x) := by
  have c_onPower' : Closed I Touched.onPower := hc.mono (by decide +kernel)
  unfold State.putBias
  try dsimp only
  repeat' first | (guard_target =ₐ Holds I s; exact hk) | simp only [id_eq] | with_reducible apply keeps_onPower c_onPower' | with_reducible apply Keeps.foldl (I := I) | with_reducible apply Keeps.foldl₂ (I := I) | with_reducible apply Keeps.ite (I := I) | split | intro s _ _ hk | intro s _ hk | intro s hk | with_reducible exact hk

def Touched.putPwrState : Touch :=
  { regs := [F.PWR_STATUS_STATE, F.PWR_RES, F.PWR_ENTRIES], parts := [.power] }

theorem keeps_putPwrState (hc : Closed I Touched.putPwrState) {s : State} (hk : Holds I s) (x : Nat) : Holds I (State.putPwrState s x) := by
  have c_accrue' : Closed I Touched.accrue := hc.mono (by decide +kernel)
  have c_putAssist' : Closed I Touched.putAssist := hc.mono (by decide +kernel)
  have c_putBias' : Closed I Touched.putBias := hc.mono (by decide +kernel)
  unfold State.putPwrState
  try dsimp only
  repeat' first | (guard_target =ₐ Holds I s; exact hk) | simp only [id_eq] | with_reducible apply keeps_accrue c_accrue' | with_reducible apply keeps_putAssist c_putAssist' | with_reducible apply keeps_putBias c_putBias' | with_reducible apply keeps_roll | with_reducible apply keeps_wr | with_reducible apply Keeps.foldl (I := I) | with_reducible apply Keeps.foldl₂ (I := I) | with_reducible apply Keeps.ite (I := I) | exact hc.mono (by decide +kernel) | split | intro s _ _ hk | intro s _ hk | intro s hk | with_reducible exact hk

def Touched.idleCheck : Touch :=
  { regs := [F.PWR_STATUS_STATE, F.PWR_RES, F.PWR_ENTRIES], parts := [.power] }

theorem keeps_idleCheck (hc : Closed I Touched.idleCheck) {s : State} (hk : Holds I s) : Holds I (State.idleCheck s) := by
  have c_putPwrState' : Closed I Touched.putPwrState := hc.mono (by decide +kernel)
  unfold State.idleCheck
  try dsimp only
  repeat' first | (guard_target =ₐ Holds I s; exact hk) | simp only [id_eq] | with_reducible apply keeps_putPwrState c_putPwrState' | with_reducible apply Keeps.foldl (I := I) | with_reducible apply Keeps.foldl₂ (I := I) | with_reducible apply Keeps.ite (I := I) | split | intro s _ _ hk | intro s _ hk | intro s hk | with_reducible exact hk

def Touched.wake : Touch :=
  { regs := [F.PWR_STATUS_WAKE_PEND, F.PWR_STATUS_PHASE, F.PWR_WAKE_SRC, F.PWR_WAKE_MERGED],
    parts := [.power] }

theorem keeps_wake (hc : Closed I Touched.wake) {s : State} (hk : Holds I s) (code : Nat) : Holds I (State.wake s code) := by
  have c_beginExit' : Closed I Touched.beginExit := hc.mono (by decide +kernel)
  have c_onPower' : Closed I Touched.onPower := hc.mono (by decide +kernel)
  unfold State.wake
  try dsimp only
  repeat' first | (guard_target =ₐ Holds I s; exact hk) | simp only [id_eq] | with_reducible apply keeps_bump | with_reducible apply keeps_wr | with_reducible apply keeps_beginExit c_beginExit' | with_reducible apply keeps_onPower c_onPower' | with_reducible apply Keeps.foldl (I := I) | with_reducible apply Keeps.foldl₂ (I := I) | with_reducible apply Keeps.ite (I := I) | exact hc.mono (by decide +kernel) | split | intro s _ _ hk | intro s _ hk | intro s hk | with_reducible exact hk

def Touched.internalWake : Touch :=
  { regs := [F.PWR_STATUS_WAKE_PEND, F.PWR_STATUS_PHASE, F.PWR_WAKE_SRC, F.PWR_WAKE_MERGED],
    parts := [.power] }

theorem keeps_internalWake (hc : Closed I Touched.internalWake) {s : State} (hk : Holds I s) (code : Nat) : Holds I (State.internalWake s code) := by
  have c_wake' : Closed I Touched.wake := hc.mono (by decide +kernel)
  unfold State.internalWake
  try dsimp only
  repeat' first | (guard_target =ₐ Holds I s; exact hk) | simp only [id_eq] | with_reducible apply keeps_bump | with_reducible apply keeps_wake c_wake' | with_reducible apply Keeps.foldl (I := I) | with_reducible apply Keeps.foldl₂ (I := I) | with_reducible apply Keeps.ite (I := I) | exact hc.mono (by decide +kernel) | split | intro s _ _ hk | intro s _ hk | intro s hk | with_reducible exact hk

def Touched.regate : Touch :=
  { regs := [F.PWR_STATUS_LOOM_ON], parts := [.power] }

theorem keeps_regate (hc : Closed I Touched.regate) {s : State} (hk : Holds I s) : Holds I (State.regate s) := by
  have c_wakeQuadrant' : Closed I Touched.wakeQuadrant := hc.mono (by decide +kernel)
  unfold State.regate
  try dsimp only
  repeat' first | (guard_target =ₐ Holds I s; exact hk) | simp only [id_eq] | with_reducible apply keeps_each | with_reducible apply keeps_wakeQuadrant c_wakeQuadrant' | with_reducible apply keeps_wr | with_reducible apply Keeps.foldl (I := I) | with_reducible apply Keeps.foldl₂ (I := I) | with_reducible apply Keeps.ite (I := I) | exact hc.mono (by decide +kernel) | split | intro s _ _ hk | intro s _ hk | intro s hk | with_reducible exact hk

def Touched.select : Touch :=
  { regs := [F.PWR_STATUS_PHASE, F.PWR_STATUS_TARGET, F.PWR_STATUS_STATE, F.PWR_RES, F.PWR_ENTRIES],
    parts := [.power] }

theorem keeps_select (hc : Closed I Touched.select) {s : State} (hk : Holds I s) : Holds I (State.select s) := by
  have c_putPwrState' : Closed I Touched.putPwrState := hc.mono (by decide +kernel)
  have c_onPower' : Closed I Touched.onPower := hc.mono (by decide +kernel)
  unfold State.select
  try dsimp only
  repeat' first | (guard_target =ₐ Holds I s; exact hk) | simp only [id_eq] | with_reducible apply keeps_putPwrState c_putPwrState' | with_reducible apply keeps_wr | with_reducible apply keeps_onPower c_onPower' | with_reducible apply Keeps.foldl (I := I) | with_reducible apply Keeps.foldl₂ (I := I) | with_reducible apply Keeps.ite (I := I) | exact hc.mono (by decide +kernel) | split | intro s _ _ hk | intro s _ hk | intro s hk | with_reducible exact hk

def Touched.runChange : Touch :=
  { regs := [F.PWR_STATUS_LOOM_ON, F.PWR_STATUS_PHASE, F.PWR_STATUS_TARGET, F.PWR_STATUS_STATE, F.PWR_RES, F.PWR_ENTRIES],
    parts := [.power] }

theorem keeps_runChange (hc : Closed I Touched.runChange) {s : State} (hk : Holds I s) : Holds I (State.runChange s) := by
  have c_select' : Closed I Touched.select := hc.mono (by decide +kernel)
  have c_regate' : Closed I Touched.regate := hc.mono (by decide +kernel)
  unfold State.runChange
  try dsimp only
  repeat' first | (guard_target =ₐ Holds I s; exact hk) | simp only [id_eq] | with_reducible apply keeps_select c_select' | with_reducible apply keeps_regate c_regate' | with_reducible apply Keeps.foldl (I := I) | with_reducible apply Keeps.foldl₂ (I := I) | with_reducible apply Keeps.ite (I := I) | split | intro s _ _ hk | intro s _ hk | intro s hk | with_reducible exact hk

def Touched.startWake : Touch :=
  { regs := [F.PWR_STATUS_WAKE_PEND, F.PWR_STATUS_PHASE, F.PWR_WAKE_SRC, F.PWR_WAKE_MERGED],
    parts := [.power] }

theorem keeps_startWake (hc : Closed I Touched.startWake) {s : State} (hk : Holds I s) : Holds I (State.startWake s) := by
  have c_internalWake' : Closed I Touched.internalWake := hc.mono (by decide +kernel)
  unfold State.startWake
  try dsimp only
  repeat' first | (guard_target =ₐ Holds I s; exact hk) | simp only [id_eq] | with_reducible apply keeps_internalWake c_internalWake' | with_reducible apply Keeps.foldl (I := I) | with_reducible apply Keeps.foldl₂ (I := I) | with_reducible apply Keeps.ite (I := I) | split | intro s _ _ hk | intro s _ hk | intro s hk | with_reducible exact hk

end Sys2Proof.Machine
end

