-- ==== Sys2Proof/Laws/Keeps/Banks.lean ====
section
/-! SUPPORT.  What the operations of Machine/Banks.lean touch, and that they keep every property
closed under it. -/

namespace Sys2Proof.Machine

open Sys2Proof

set_option Elab.async false
set_option linter.unusedSimpArgs false
set_option linter.unusedVariables false
set_option linter.unusedTactic false
set_option linter.unreachableTactic false

variable {I : State → Prop}

def Touched.countMove : Touch :=
  { regs := [F.LC_EVENT_ODO_SAT, F.LC_ODO] }

theorem keeps_countMove (hc : Closed I Touched.countMove) {s : State} (hk : Holds I s) (n : Nat) : Holds I (State.countMove s n) := by
  unfold State.countMove
  try dsimp only
  repeat' first | (guard_target =ₐ Holds I s; exact hk) | simp only [id_eq] | with_reducible apply keeps_wr | with_reducible apply Keeps.foldl (I := I) | with_reducible apply Keeps.foldl₂ (I := I) | with_reducible apply Keeps.ite (I := I) | exact hc.mono (by decide +kernel) | split | intro s _ _ hk | intro s _ hk | intro s hk | with_reducible exact hk

def Touched.putCell : Touch :=
  { parts := [.cells] }

theorem keeps_putCell (hc : Closed I Touched.putCell) {s : State} (hk : Holds I s) (n : Nat) (c : LoopCell) : Holds I (State.putCell s n c) := by
  have c_cells : Closed I { parts := [.cells] } := hc.mono (by decide +kernel)
  unfold State.putCell
  try dsimp only
  repeat' first | (guard_target =ₐ Holds I s; exact hk) | simp only [ic_mk, id_eq] | with_reducible refine ic_cells c_cells (ic_fold ?_) | with_reducible apply Keeps.foldl (I := I) | with_reducible apply Keeps.foldl₂ (I := I) | with_reducible apply Keeps.ite (I := I) | split | intro s _ _ hk | intro s _ hk | intro s hk | with_reducible exact hk

def Touched.putCs : Touch :=
  { regs := [F.LC_STATUS_SAT_LO, F.LC_STATUS_SAT_HI, F.LC_C_STATE] }

theorem keeps_putCs (hc : Closed I Touched.putCs) {s : State} (hk : Holds I s) (n : Nat) (cs : Int) : Holds I (State.putCs s n cs) := by
  unfold State.putCs
  try dsimp only
  repeat' first | (guard_target =ₐ Holds I s; exact hk) | simp only [id_eq] | with_reducible apply keeps_wr | with_reducible apply Keeps.foldl (I := I) | with_reducible apply Keeps.foldl₂ (I := I) | with_reducible apply Keeps.ite (I := I) | exact hc.mono (by decide +kernel) | split | intro s _ _ hk | intro s _ hk | intro s hk | with_reducible exact hk

def Touched.swapClamp : Touch :=
  { regs := [F.LC_STATUS_SAT_LO, F.LC_STATUS_SAT_HI, F.LC_STATUS_LEVEL, F.LC_EVENT_ODO_SAT, F.LC_EVENT_LEVEL_CLAMPED,
      F.LC_C_STATE, F.LC_ODO, F.ODO_OUT, F.ODO_OUT_SAT],
    parts := [.cells, .fio, .loom] }

theorem keeps_swapClamp (hc : Closed I Touched.swapClamp) {s : State} (hk : Holds I s) (n : Nat) : Holds I (State.swapClamp s n) := by
  have c_putCs' : Closed I Touched.putCs := hc.mono (by decide +kernel)
  have c_putCell' : Closed I Touched.putCell := hc.mono (by decide +kernel)
  have c_settle' : Closed I Touched.settle := hc.mono (by decide +kernel)
  have c_countMove' : Closed I Touched.countMove := hc.mono (by decide +kernel)
  unfold State.swapClamp
  try dsimp only
  repeat' first | (guard_target =ₐ Holds I s; exact hk) | simp only [id_eq] | with_reducible apply keeps_putCs c_putCs' | with_reducible apply keeps_putCell c_putCell' | with_reducible apply keeps_settle c_settle' | with_reducible apply keeps_countMove c_countMove' | with_reducible apply keeps_wr | with_reducible apply Keeps.foldl (I := I) | with_reducible apply Keeps.foldl₂ (I := I) | with_reducible apply Keeps.ite (I := I) | exact hc.mono (by decide +kernel) | split | intro s _ _ hk | intro s _ hk | intro s hk | with_reducible exact hk

def Touched.doSwap : Touch :=
  { regs := [F.LC_STATUS_SHADOW_VALID, F.LC_STATUS_ACTIVE_BANK, F.LC_STATUS_SAT_LO, F.LC_STATUS_SAT_HI, F.LC_STATUS_LEVEL,
      F.LC_EVENT_ODO_SAT, F.LC_EVENT_LEVEL_CLAMPED, F.LC_EVENT_SWAP_DONE, F.LC_C_STATE, F.LC_ODO, F.ODO_OUT,
      F.ODO_OUT_SAT],
    parts := [.cells, .fio, .loom] }

theorem keeps_doSwap (hc : Closed I Touched.doSwap) {s : State} (hk : Holds I s) (n : Nat) : Holds I (State.doSwap s n) := by
  have c_putCell' : Closed I Touched.putCell := hc.mono (by decide +kernel)
  have c_swapClamp' : Closed I Touched.swapClamp := hc.mono (by decide +kernel)
  unfold State.doSwap
  try dsimp only
  repeat' first | (guard_target =ₐ Holds I s; exact hk) | simp only [id_eq] | with_reducible apply keeps_putCell c_putCell' | with_reducible apply keeps_wr | with_reducible apply keeps_swapClamp c_swapClamp' | with_reducible apply Keeps.foldl (I := I) | with_reducible apply Keeps.foldl₂ (I := I) | with_reducible apply Keeps.ite (I := I) | exact hc.mono (by decide +kernel) | split | intro s _ _ hk | intro s _ hk | intro s hk | with_reducible exact hk

def Touched.putPin : Touch :=
  { parts := [.fio] }

theorem keeps_putPin (hc : Closed I Touched.putPin) {s : State} (hk : Holds I s) (n : Nat) (x : FioPin) : Holds I (State.putPin s n x) := by
  have c_fio : Closed I { parts := [.fio] } := hc.mono (by decide +kernel)
  unfold State.putPin
  try dsimp only
  repeat' first | (guard_target =ₐ Holds I s; exact hk) | simp only [ic_mk, id_eq] | with_reducible refine ic_fio c_fio (ic_fold ?_) | with_reducible apply Keeps.foldl (I := I) | with_reducible apply Keeps.foldl₂ (I := I) | with_reducible apply Keeps.ite (I := I) | split | intro s _ _ hk | intro s _ hk | intro s hk | with_reducible exact hk

def Touched.putShadow : Touch :=
  { regs := [F.LC_STATUS_SHADOW_VALID], parts := [.cells] }

theorem keeps_putShadow (hc : Closed I Touched.putShadow) {s : State} (hk : Holds I s) (n : Nat) (b : Bank) : Holds I (State.putShadow s n b) := by
  have c_putCell' : Closed I Touched.putCell := hc.mono (by decide +kernel)
  unfold State.putShadow
  try dsimp only
  repeat' first | (guard_target =ₐ Holds I s; exact hk) | simp only [id_eq] | with_reducible apply keeps_putCell c_putCell' | with_reducible apply keeps_wr | with_reducible apply Keeps.foldl (I := I) | with_reducible apply Keeps.foldl₂ (I := I) | with_reducible apply Keeps.ite (I := I) | exact hc.mono (by decide +kernel) | split | intro s _ _ hk | intro s _ hk | intro s hk | with_reducible exact hk

def Touched.shadowReset : Touch :=
  { regs := [F.LC_STATUS_SHADOW_VALID], parts := [.cells] }

theorem keeps_shadowReset (hc : Closed I Touched.shadowReset) {s : State} (hk : Holds I s) (n : Nat) : Holds I (State.shadowReset s n) := by
  have c_putShadow' : Closed I Touched.putShadow := hc.mono (by decide +kernel)
  unfold State.shadowReset
  try dsimp only
  repeat' first | (guard_target =ₐ Holds I s; exact hk) | simp only [id_eq] | with_reducible apply keeps_putShadow c_putShadow' | with_reducible apply Keeps.foldl (I := I) | with_reducible apply Keeps.foldl₂ (I := I) | with_reducible apply Keeps.ite (I := I) | split | intro s _ _ hk | intro s _ hk | intro s hk | with_reducible exact hk

def Touched.trySwap : Touch :=
  { regs := [F.LC_STATUS_SHADOW_VALID, F.LC_STATUS_ACTIVE_BANK, F.LC_STATUS_SAT_LO, F.LC_STATUS_SAT_HI, F.LC_STATUS_LEVEL,
      F.LC_EVENT_ODO_SAT, F.LC_EVENT_LEVEL_CLAMPED, F.LC_EVENT_SWAP_REFUSED, F.LC_EVENT_SWAP_DONE, F.LC_C_STATE,
      F.LC_ODO, F.ODO_OUT, F.ODO_OUT_SAT],
    parts := [.cells, .fio, .loom] }

theorem keeps_trySwap (hc : Closed I Touched.trySwap) {s : State} (hk : Holds I s) (n : Nat) : Holds I (State.trySwap s n) := by
  have c_doSwap' : Closed I Touched.doSwap := hc.mono (by decide +kernel)
  have c_putCell' : Closed I Touched.putCell := hc.mono (by decide +kernel)
  unfold State.trySwap
  try dsimp only
  repeat' first | (guard_target =ₐ Holds I s; exact hk) | simp only [id_eq] | with_reducible apply keeps_doSwap c_doSwap' | with_reducible apply keeps_putCell c_putCell' | with_reducible apply keeps_wr | with_reducible apply Keeps.foldl (I := I) | with_reducible apply Keeps.foldl₂ (I := I) | with_reducible apply Keeps.ite (I := I) | exact hc.mono (by decide +kernel) | split | intro s _ _ hk | intro s _ hk | intro s hk | with_reducible exact hk

end Sys2Proof.Machine
end

