-- ==== Sys2Proof/Laws/Keeps/Gens.lean ====
section
/-! SUPPORT.  What the operations of Machine/Gens.lean touch, and that they keep every property
closed under it. -/

namespace Sys2Proof.Machine

open Sys2Proof

set_option Elab.async false
set_option linter.unusedSimpArgs false
set_option linter.unusedVariables false
set_option linter.unusedTactic false
set_option linter.unreachableTactic false

variable {I : State → Prop}

def Touched.putGen : Touch :=
  { parts := [.gens] }

theorem keeps_putGen (hc : Closed I Touched.putGen) {s : State} (hk : Holds I s) (n : Nat) (g : Gen) : Holds I (State.putGen s n g) := by
  have c_gens : Closed I { parts := [.gens] } := hc.mono (by decide +kernel)
  unfold State.putGen
  try dsimp only
  repeat' first | (guard_target =ₐ Holds I s; exact hk) | simp only [ic_mk, id_eq] | with_reducible refine ic_gens c_gens (ic_fold ?_) | with_reducible apply Keeps.foldl (I := I) | with_reducible apply Keeps.foldl₂ (I := I) | with_reducible apply Keeps.ite (I := I) | split | intro s _ _ hk | intro s _ hk | intro s hk | with_reducible exact hk

def Touched.applyLimits : Touch :=
  { regs := [F.PG_STATUS_LIMITS_PENDING, F.PG_VMAX, F.PG_WIN_M2, F.PG_WIN_M1], parts := [.gens] }

theorem keeps_applyLimits (hc : Closed I Touched.applyLimits) {s : State} (hk : Holds I s) (n : Nat) : Holds I (State.applyLimits s n) := by
  have c_putGen' : Closed I Touched.putGen := hc.mono (by decide +kernel)
  unfold State.applyLimits
  try dsimp only
  repeat' first | (guard_target =ₐ Holds I s; exact hk) | simp only [id_eq] | with_reducible apply keeps_wr | with_reducible apply keeps_putGen c_putGen' | with_reducible apply Keeps.foldl (I := I) | with_reducible apply Keeps.foldl₂ (I := I) | with_reducible apply Keeps.ite (I := I) | exact hc.mono (by decide +kernel) | split | intro s _ _ hk | intro s _ hk | intro s hk | with_reducible exact hk

def Touched.giveTarget : Touch :=
  { regs := [F.PG_TARGET], parts := [.gens] }

theorem keeps_giveTarget (hc : Closed I Touched.giveTarget) {s : State} (hk : Holds I s) (n : Nat) (v : Nat) : Holds I (State.giveTarget s n v) := by
  have c_putGen' : Closed I Touched.putGen := hc.mono (by decide +kernel)
  unfold State.giveTarget
  try dsimp only
  repeat' first | (guard_target =ₐ Holds I s; exact hk) | simp only [id_eq] | with_reducible apply keeps_wr | with_reducible apply keeps_putGen c_putGen' | with_reducible apply Keeps.foldl (I := I) | with_reducible apply Keeps.foldl₂ (I := I) | with_reducible apply Keeps.ite (I := I) | exact hc.mono (by decide +kernel) | split | intro s _ _ hk | intro s _ hk | intro s hk | with_reducible exact hk

def Touched.giveLimits : Touch :=
  { regs := [F.PG_STATUS_LIMITS_PENDING, F.PG_VMAX, F.PG_WIN_M2, F.PG_WIN_M1], parts := [.gens] }

theorem keeps_giveLimits (hc : Closed I Touched.giveLimits) {s : State} (hk : Holds I s) (n : Nat) (l : Nat × Nat × Nat) : Holds I (State.giveLimits s n l) := by
  have c_putGen' : Closed I Touched.putGen := hc.mono (by decide +kernel)
  unfold State.giveLimits
  try dsimp only
  repeat' first | (guard_target =ₐ Holds I s; exact hk) | simp only [id_eq] | with_reducible apply keeps_wr | with_reducible apply keeps_putGen c_putGen' | with_reducible apply Keeps.foldl (I := I) | with_reducible apply Keeps.foldl₂ (I := I) | with_reducible apply Keeps.ite (I := I) | exact hc.mono (by decide +kernel) | split | intro s _ _ hk | intro s _ hk | intro s hk | with_reducible exact hk

def Touched.commitGen : Touch :=
  { regs := [F.PG_STATUS_LIMITS_PENDING, F.PG_TARGET, F.PG_VMAX, F.PG_WIN_M2, F.PG_WIN_M1],
    parts := [.gens] }

theorem keeps_commitGen (hc : Closed I Touched.commitGen) {s : State} (hk : Holds I s) (n : Nat) : Holds I (State.commitGen s n) := by
  have c_putGen' : Closed I Touched.putGen := hc.mono (by decide +kernel)
  have c_giveTarget' : Closed I Touched.giveTarget := hc.mono (by decide +kernel)
  have c_giveLimits' : Closed I Touched.giveLimits := hc.mono (by decide +kernel)
  unfold State.commitGen
  try dsimp only
  repeat' first | (guard_target =ₐ Holds I s; exact hk) | simp only [id_eq] | with_reducible apply keeps_putGen c_putGen' | with_reducible apply keeps_giveTarget c_giveTarget' | with_reducible apply keeps_giveLimits c_giveLimits' | with_reducible apply Keeps.foldl (I := I) | with_reducible apply Keeps.foldl₂ (I := I) | with_reducible apply Keeps.ite (I := I) | split | intro s _ _ hk | intro s _ hk | intro s hk | with_reducible exact hk

def Touched.wrShadow : Touch :=
  { regs := [F.PG_SHADOW_TARGET, F.PG_SHADOW_VMAX, F.PG_SHADOW_WIN_M2, F.PG_SHADOW_WIN_M1] }

theorem keeps_wrShadow (hc : Closed I Touched.wrShadow) {s : State} (hk : Holds I s) (n : Nat) (target : Nat) (l : Nat × Nat × Nat) : Holds I (State.wrShadow s n target l) := by
  unfold State.wrShadow
  try dsimp only
  repeat' first | (guard_target =ₐ Holds I s; exact hk) | simp only [id_eq] | with_reducible apply keeps_wr | with_reducible apply Keeps.foldl (I := I) | with_reducible apply Keeps.foldl₂ (I := I) | with_reducible apply Keeps.ite (I := I) | exact hc.mono (by decide +kernel) | split | intro s _ _ hk | intro s _ hk | intro s hk | with_reducible exact hk

def Touched.genShadowReset : Touch :=
  { regs := [F.PG_SHADOW_TARGET, F.PG_SHADOW_VMAX, F.PG_SHADOW_WIN_M2, F.PG_SHADOW_WIN_M1],
    parts := [.gens] }

theorem keeps_genShadowReset (hc : Closed I Touched.genShadowReset) {s : State} (hk : Holds I s) (n : Nat) : Holds I (State.genShadowReset s n) := by
  have c_wrShadow' : Closed I Touched.wrShadow := hc.mono (by decide +kernel)
  have c_putGen' : Closed I Touched.putGen := hc.mono (by decide +kernel)
  unfold State.genShadowReset
  try dsimp only
  repeat' first | (guard_target =ₐ Holds I s; exact hk) | simp only [id_eq] | with_reducible apply keeps_wrShadow c_wrShadow' | with_reducible apply keeps_putGen c_putGen' | with_reducible apply Keeps.foldl (I := I) | with_reducible apply Keeps.foldl₂ (I := I) | with_reducible apply Keeps.ite (I := I) | split | intro s _ _ hk | intro s _ hk | intro s hk | with_reducible exact hk

def Touched.holdGens : Touch :=
  { regs := [F.PG_STATUS_HELD] }

theorem keeps_holdGens (hc : Closed I Touched.holdGens) {s : State} (hk : Holds I s) (p : Nat) (held : Bool) : Holds I (State.holdGens s p held) := by
  unfold State.holdGens
  try dsimp only
  repeat' first | (guard_target =ₐ Holds I s; exact hk) | simp only [id_eq] | with_reducible apply keeps_each | with_reducible apply keeps_wr | with_reducible apply Keeps.foldl (I := I) | with_reducible apply Keeps.foldl₂ (I := I) | with_reducible apply Keeps.ite (I := I) | exact hc.mono (by decide +kernel) | split | intro s _ _ hk | intro s _ hk | intro s hk | with_reducible exact hk

def Touched.shapeGen : Touch :=
  { regs := [F.PG_SP, F.PG_SP_DOT, F.PG_Q] }

theorem keeps_shapeGen (hc : Closed I Touched.shapeGen) {s : State} (hk : Holds I s) (n : Nat) (sp : Int) (spDot : Int) : Holds I (State.shapeGen s n sp spDot) := by
  unfold State.shapeGen
  try dsimp only
  repeat' first | (guard_target =ₐ Holds I s; exact hk) | simp only [id_eq] | with_reducible apply keeps_wrI | with_reducible apply Keeps.foldl (I := I) | with_reducible apply Keeps.foldl₂ (I := I) | with_reducible apply Keeps.ite (I := I) | exact hc.mono (by decide +kernel) | split | intro s _ _ hk | intro s _ hk | intro s hk | with_reducible exact hk

def Touched.showGen : Touch :=
  { regs := [F.PG_SP, F.PG_SP_DOT, F.PG_Q, F.VR_VALUE] }

theorem keeps_showGen (hc : Closed I Touched.showGen) {s : State} (hk : Holds I s) (n : Nat) (sp : Int) (spDot : Int) : Holds I (State.showGen s n sp spDot) := by
  have c_publish' : Closed I Touched.publish := hc.mono (by decide +kernel)
  have c_shapeGen' : Closed I Touched.shapeGen := hc.mono (by decide +kernel)
  unfold State.showGen
  try dsimp only
  repeat' first | (guard_target =ₐ Holds I s; exact hk) | simp only [id_eq] | with_reducible apply keeps_publish c_publish' | with_reducible apply keeps_shapeGen c_shapeGen' | with_reducible apply Keeps.foldl (I := I) | with_reducible apply Keeps.foldl₂ (I := I) | with_reducible apply Keeps.ite (I := I) | split | intro s _ _ hk | intro s _ hk | intro s hk | with_reducible exact hk

def Touched.stageGen : Touch :=
  { regs := [F.PG_SHADOW_TARGET, F.PG_SHADOW_VMAX, F.PG_SHADOW_WIN_M2, F.PG_SHADOW_WIN_M1],
    parts := [.gens] }

theorem keeps_stageGen (hc : Closed I Touched.stageGen) {s : State} (hk : Holds I s) (n : Nat) (op : Nat) (a0 : Nat) (a1 : Nat) (a2 : Nat) : Holds I (State.stageGen s n op a0 a1 a2) := by
  have c_wrShadow' : Closed I Touched.wrShadow := hc.mono (by decide +kernel)
  have c_putGen' : Closed I Touched.putGen := hc.mono (by decide +kernel)
  unfold State.stageGen
  try dsimp only
  repeat' first | (guard_target =ₐ Holds I s; exact hk) | simp only [id_eq] | with_reducible apply keeps_wrShadow c_wrShadow' | with_reducible apply keeps_putGen c_putGen' | with_reducible apply Keeps.foldl (I := I) | with_reducible apply Keeps.foldl₂ (I := I) | with_reducible apply Keeps.ite (I := I) | split | intro s _ _ hk | intro s _ hk | intro s hk | with_reducible exact hk

def Touched.startGen : Touch :=
  { regs := [F.PG_CTRL, F.PG_STATUS_RUNNING, F.PG_STATUS_DWELL, F.PG_STATUS_DONE, F.PG_TARGET, F.PG_SHADOW_TARGET,
      F.PG_SHADOW_VMAX, F.PG_SHADOW_WIN_M2, F.PG_SHADOW_WIN_M1, F.PG_SP, F.PG_SP_DOT, F.PG_Q, F.VR_VALUE],
    parts := [.gens] }

theorem keeps_startGen (hc : Closed I Touched.startGen) {s : State} (hk : Holds I s) (n : Nat) : Holds I (State.startGen s n) := by
  have c_putGen' : Closed I Touched.putGen := hc.mono (by decide +kernel)
  have c_showGen' : Closed I Touched.showGen := hc.mono (by decide +kernel)
  have c_wrShadow' : Closed I Touched.wrShadow := hc.mono (by decide +kernel)
  unfold State.startGen
  try dsimp only
  repeat' first | (guard_target =ₐ Holds I s; exact hk) | simp only [id_eq] | with_reducible apply keeps_putGen c_putGen' | with_reducible apply keeps_wr | with_reducible apply keeps_showGen c_showGen' | with_reducible apply keeps_wrShadow c_wrShadow' | with_reducible apply Keeps.foldl (I := I) | with_reducible apply Keeps.foldl₂ (I := I) | with_reducible apply Keeps.ite (I := I) | exact hc.mono (by decide +kernel) | split | intro s _ _ hk | intro s _ hk | intro s hk | with_reducible exact hk

def Touched.stopGen : Touch :=
  { regs := [F.PG_CTRL, F.PG_STATUS_RUNNING, F.PG_STATUS_DWELL] }

theorem keeps_stopGen (hc : Closed I Touched.stopGen) {s : State} (hk : Holds I s) (n : Nat) : Holds I (State.stopGen s n) := by
  unfold State.stopGen
  try dsimp only
  repeat' first | (guard_target =ₐ Holds I s; exact hk) | simp only [id_eq] | with_reducible apply keeps_wr | with_reducible apply Keeps.foldl (I := I) | with_reducible apply Keeps.foldl₂ (I := I) | with_reducible apply Keeps.ite (I := I) | exact hc.mono (by decide +kernel) | split | intro s _ _ hk | intro s _ hk | intro s hk | with_reducible exact hk

def Touched.updateGen : Touch :=
  { regs := [F.PG_STATUS_DWELL, F.PG_STATUS_LIMITS_PENDING, F.PG_STATUS_DONE, F.PG_EVENT_DONE_EVT, F.PG_VMAX, F.PG_WIN_M2,
      F.PG_WIN_M1, F.PG_SP, F.PG_SP_DOT, F.PG_Q, F.VR_VALUE],
    parts := [.gens] }

theorem keeps_updateGen (hc : Closed I Touched.updateGen) {s : State} (hk : Holds I s) (n : Nat) : Holds I (State.updateGen s n) := by
  have c_applyLimits' : Closed I Touched.applyLimits := hc.mono (by decide +kernel)
  have c_showGen' : Closed I Touched.showGen := hc.mono (by decide +kernel)
  have c_putGen' : Closed I Touched.putGen := hc.mono (by decide +kernel)
  unfold State.updateGen
  try dsimp only
  repeat' first | (guard_target =ₐ Holds I s; exact hk) | simp only [id_eq] | with_reducible apply keeps_applyLimits c_applyLimits' | with_reducible apply keeps_wr | with_reducible apply keeps_showGen c_showGen' | with_reducible apply keeps_putGen c_putGen' | with_reducible apply Keeps.foldl (I := I) | with_reducible apply Keeps.foldl₂ (I := I) | with_reducible apply Keeps.ite (I := I) | exact hc.mono (by decide +kernel) | split | intro s _ _ hk | intro s _ hk | intro s hk | with_reducible exact hk

end Sys2Proof.Machine
end

