-- ==== Sys2Proof/Laws/Keeps/TreadleOps.lean ====
section
/-! SUPPORT.  What the operations of Machine/TreadleOps.lean touch, and that they keep every property
closed under it. -/

namespace Sys2Proof.Machine

open Sys2Proof

set_option Elab.async false
set_option linter.unusedSimpArgs false
set_option linter.unusedVariables false
set_option linter.unusedTactic false
set_option linter.unreachableTactic false

variable {I : State → Prop}

def Touched.putTreadle : Touch :=
  { parts := [.treadles] }

theorem keeps_putTreadle (hc : Closed I Touched.putTreadle) {s : State} (hk : Holds I s) (p : Nat) (x : Treadle) : Holds I (State.putTreadle s p x) := by
  have c_treadles : Closed I { parts := [.treadles] } := hc.mono (by decide +kernel)
  unfold State.putTreadle
  try dsimp only
  repeat' first | (guard_target =ₐ Holds I s; exact hk) | simp only [ic_mk, id_eq] | with_reducible refine ic_treadles c_treadles (ic_fold ?_) | with_reducible apply Keeps.foldl (I := I) | with_reducible apply Keeps.foldl₂ (I := I) | with_reducible apply Keeps.ite (I := I) | split | intro s _ _ hk | intro s _ hk | intro s hk | with_reducible exact hk

def Touched.cancelStaging : Touch :=
  { regs := [F.LC_STATUS_SHADOW_VALID, F.TR_STATUS_STAGE_STATE, F.TR_STATUS_DEFERRED, F.TR_EVENT_CANCELLED,
      F.TR_STEPS_STAGED_STEP, F.TR_CANCEL_CNT, F.PG_SHADOW_TARGET, F.PG_SHADOW_VMAX, F.PG_SHADOW_WIN_M2,
      F.PG_SHADOW_WIN_M1, F.SK_STATUS_BURST_FREE_KIB, F.SK_EVENT, F.SKS_SEQ, F.SKS_STATUS_RESIDENT, F.SKS_OVERWRITE],
    parts := [.skein, .cells, .treadles, .gens] }

theorem keeps_cancelStaging (hc : Closed I Touched.cancelStaging) {s : State} (hk : Holds I s) (p : Nat) (reason : Nat) : Holds I (State.cancelStaging s p reason) := by
  have c_putTreadle' : Closed I Touched.putTreadle := hc.mono (by decide +kernel)
  have c_shadowReset' : Closed I Touched.shadowReset := hc.mono (by decide +kernel)
  have c_genShadowReset' : Closed I Touched.genShadowReset := hc.mono (by decide +kernel)
  have c_record' : Closed I Touched.record := hc.mono (by decide +kernel)
  unfold State.cancelStaging
  try dsimp only
  repeat' first | (guard_target =ₐ Holds I s; exact hk) | simp only [id_eq] | with_reducible apply keeps_putTreadle c_putTreadle' | with_reducible apply keeps_each | with_reducible apply keeps_shadowReset c_shadowReset' | with_reducible apply keeps_genShadowReset c_genShadowReset' | with_reducible apply keeps_wr | with_reducible apply keeps_record c_record' | with_reducible apply keeps_bump | with_reducible apply Keeps.foldl (I := I) | with_reducible apply Keeps.foldl₂ (I := I) | with_reducible apply Keeps.ite (I := I) | exact hc.mono (by decide +kernel) | split | intro s _ _ hk | intro s _ hk | intro s hk | with_reducible exact hk

def Touched.leavePause : Touch :=
  { regs := [F.TR_STATUS_STATE, F.PG_STATUS_HELD, F.ODO_OUT, F.ODO_OUT_SAT],
    parts := [.fio, .treadles, .loom] }

theorem keeps_leavePause (hc : Closed I Touched.leavePause) {s : State} (hk : Holds I s) (p : Nat) : Holds I (State.leavePause s p) := by
  have c_putTreadle' : Closed I Touched.putTreadle := hc.mono (by decide +kernel)
  have c_settle' : Closed I Touched.settle := hc.mono (by decide +kernel)
  have c_holdGens' : Closed I Touched.holdGens := hc.mono (by decide +kernel)
  unfold State.leavePause
  try dsimp only
  repeat' first | (guard_target =ₐ Holds I s; exact hk) | simp only [id_eq] | with_reducible apply keeps_putTreadle c_putTreadle' | with_reducible apply keeps_settle c_settle' | with_reducible apply keeps_holdGens c_holdGens' | with_reducible apply keeps_wr | with_reducible apply Keeps.foldl (I := I) | with_reducible apply Keeps.foldl₂ (I := I) | with_reducible apply Keeps.ite (I := I) | exact hc.mono (by decide +kernel) | split | intro s _ _ hk | intro s _ hk | intro s hk | with_reducible exact hk

def Touched.stageAction : Touch :=
  { regs := [F.LC_STATUS_SHADOW_VALID, F.PG_SHADOW_TARGET, F.PG_SHADOW_VMAX, F.PG_SHADOW_WIN_M2, F.PG_SHADOW_WIN_M1],
    parts := [.cells, .gens] }

theorem keeps_stageAction (hc : Closed I Touched.stageAction) {s : State} (hk : Holds I s) (t : StepTable) (touched : List Nat) (a : PoolEntry) : Holds I (State.stageAction s t touched a) := by
  have c_shadowReset' : Closed I Touched.shadowReset := hc.mono (by decide +kernel)
  have c_putShadow' : Closed I Touched.putShadow := hc.mono (by decide +kernel)
  have c_stageGen' : Closed I Touched.stageGen := hc.mono (by decide +kernel)
  unfold State.stageAction
  try dsimp only
  repeat' first | (guard_target =ₐ Holds I s; exact hk) | simp only [id_eq] | with_reducible apply keeps_shadowReset c_shadowReset' | with_reducible apply keeps_putShadow c_putShadow' | with_reducible apply keeps_stageGen c_stageGen' | with_reducible apply Keeps.foldl (I := I) | with_reducible apply Keeps.foldl₂ (I := I) | with_reducible apply Keeps.ite (I := I) | split | intro s _ _ hk | intro s _ hk | intro s hk | with_reducible exact hk

def Touched.stageActions : Touch :=
  { regs := [F.LC_STATUS_SHADOW_VALID, F.PG_SHADOW_TARGET, F.PG_SHADOW_VMAX, F.PG_SHADOW_WIN_M2, F.PG_SHADOW_WIN_M1],
    parts := [.cells, .gens] }

theorem keeps_stageActions (hc : Closed I Touched.stageActions) {s : State} (hk : Holds I s) (t : StepTable) (touched : List Nat) (a : List PoolEntry) : Holds I (State.stageActions s t touched a) := by
  have c_stageAction' : Closed I Touched.stageAction := hc.mono (by decide +kernel)
  induction a generalizing s t touched with
  | nil =>
    unfold State.stageActions
    try dsimp only
    repeat' first | (guard_target =ₐ Holds I s; exact hk) | simp only [id_eq] | with_reducible apply keeps_stageAction c_stageAction' | with_reducible apply Keeps.foldl (I := I) | with_reducible apply Keeps.foldl₂ (I := I) | with_reducible apply Keeps.ite (I := I) | split | intro s _ _ hk | intro s _ hk | intro s hk | with_reducible exact hk
  | cons _ _ ih =>
    unfold State.stageActions
    try dsimp only
    repeat' first | (guard_target =ₐ Holds I s; exact hk) | simp only [id_eq] | with_reducible apply ih | with_reducible apply keeps_stageAction c_stageAction' | with_reducible apply Keeps.foldl (I := I) | with_reducible apply Keeps.foldl₂ (I := I) | with_reducible apply Keeps.ite (I := I) | split | intro s _ _ hk | intro s _ hk | intro s hk | with_reducible exact hk | cases ‹_ :: _ = _ :: _›

def Touched.stage : Touch :=
  { regs := [F.LC_STATUS_SHADOW_VALID, F.TR_STATUS_STAGE_STATE, F.TR_STEPS_STAGED_STEP, F.PG_SHADOW_TARGET,
      F.PG_SHADOW_VMAX, F.PG_SHADOW_WIN_M2, F.PG_SHADOW_WIN_M1],
    parts := [.cells, .treadles, .gens] }

theorem keeps_stage (hc : Closed I Touched.stage) {s : State} (hk : Holds I s) (p : Nat) (n : Nat) : Holds I (State.stage s p n) := by
  have c_stageActions' : Closed I Touched.stageActions := hc.mono (by decide +kernel)
  have c_putTreadle' : Closed I Touched.putTreadle := hc.mono (by decide +kernel)
  unfold State.stage
  try dsimp only
  repeat' first | (guard_target =ₐ Holds I s; exact hk) | simp only [id_eq] | with_reducible apply keeps_stageActions c_stageActions' | with_reducible apply keeps_putTreadle c_putTreadle' | with_reducible apply keeps_wr | with_reducible apply Keeps.foldl (I := I) | with_reducible apply Keeps.foldl₂ (I := I) | with_reducible apply Keeps.ite (I := I) | exact hc.mono (by decide +kernel) | split | intro s _ _ hk | intro s _ hk | intro s hk | with_reducible exact hk

def Touched.schedule : Touch :=
  { regs := [F.TR_NEXT], parts := [.treadles] }

theorem keeps_schedule (hc : Closed I Touched.schedule) {s : State} (hk : Holds I s) (p : Nat) (d : Option (Instant × DueKind)) : Holds I (State.schedule s p d) := by
  have c_putTreadle' : Closed I Touched.putTreadle := hc.mono (by decide +kernel)
  unfold State.schedule
  try dsimp only
  repeat' first | (guard_target =ₐ Holds I s; exact hk) | simp only [id_eq] | with_reducible apply keeps_putTreadle c_putTreadle' | with_reducible apply keeps_wrT | with_reducible apply Keeps.foldl (I := I) | with_reducible apply Keeps.foldl₂ (I := I) | with_reducible apply Keeps.ite (I := I) | exact hc.mono (by decide +kernel) | split | intro s _ _ hk | intro s _ hk | intro s hk | with_reducible exact hk

def Touched.abortTreadle : Touch :=
  { regs := [F.LC_STATUS_SHADOW_VALID, F.TR_STATUS_STAGE_STATE, F.TR_STATUS_PAUSE_CAUSE, F.TR_STATUS_DEFERRED,
      F.TR_STATUS_STATE, F.TR_EVENT_ABORT_IGNORED, F.TR_EVENT_CANCELLED, F.TR_STEPS_STAGED_STEP, F.TR_NEXT,
      F.TR_DECIDE_END_IDX, F.TR_DECIDE_DECIDED, F.TR_CANCEL_CNT, F.PG_STATUS_HELD, F.PG_SHADOW_TARGET,
      F.PG_SHADOW_VMAX, F.PG_SHADOW_WIN_M2, F.PG_SHADOW_WIN_M1, F.SK_STATUS_BURST_FREE_KIB, F.SK_EVENT, F.SKS_SEQ,
      F.SKS_STATUS_RESIDENT, F.SKS_OVERWRITE, F.ODO_OUT, F.ODO_OUT_SAT, F.PWR_STATUS_LOOM_ON, F.PWR_STATUS_PHASE,
      F.PWR_STATUS_TARGET, F.PWR_STATUS_STATE, F.PWR_RES, F.PWR_ENTRIES],
    parts := [.skein, .cells, .fio, .treadles, .gens, .loom, .power] }

theorem keeps_abortTreadle (hc : Closed I Touched.abortTreadle) {s : State} (hk : Holds I s) (p : Nat) : Holds I (State.abortTreadle s p) := by
  have c_cancelStaging' : Closed I Touched.cancelStaging := hc.mono (by decide +kernel)
  have c_leavePause' : Closed I Touched.leavePause := hc.mono (by decide +kernel)
  have c_stage' : Closed I Touched.stage := hc.mono (by decide +kernel)
  have c_runChange' : Closed I Touched.runChange := hc.mono (by decide +kernel)
  have c_settle' : Closed I Touched.settle := hc.mono (by decide +kernel)
  have c_schedule' : Closed I Touched.schedule := hc.mono (by decide +kernel)
  unfold State.abortTreadle
  try dsimp only
  repeat' first | (guard_target =ₐ Holds I s; exact hk) | simp only [id_eq] | with_reducible apply keeps_wr | with_reducible apply keeps_cancelStaging c_cancelStaging' | with_reducible apply keeps_leavePause c_leavePause' | with_reducible apply keeps_stage c_stage' | with_reducible apply keeps_runChange c_runChange' | with_reducible apply keeps_settle c_settle' | with_reducible apply keeps_schedule c_schedule' | with_reducible apply Keeps.foldl (I := I) | with_reducible apply Keeps.foldl₂ (I := I) | with_reducible apply Keeps.ite (I := I) | exact hc.mono (by decide +kernel) | split | intro s _ _ hk | intro s _ hk | intro s hk | with_reducible exact hk

def Touched.clearPause : Touch :=
  { regs := [F.TR_STATUS_PAUSE_CAUSE, F.TR_STATUS_STATE, F.PG_STATUS_HELD, F.ODO_OUT, F.ODO_OUT_SAT],
    parts := [.fio, .treadles, .loom] }

theorem keeps_clearPause (hc : Closed I Touched.clearPause) {s : State} (hk : Holds I s) (p : Nat) (mask : Nat) : Holds I (State.clearPause s p mask) := by
  have c_leavePause' : Closed I Touched.leavePause := hc.mono (by decide +kernel)
  unfold State.clearPause
  try dsimp only
  repeat' first | (guard_target =ₐ Holds I s; exact hk) | simp only [id_eq] | with_reducible apply keeps_wr | with_reducible apply keeps_leavePause c_leavePause' | with_reducible apply Keeps.foldl (I := I) | with_reducible apply Keeps.foldl₂ (I := I) | with_reducible apply Keeps.ite (I := I) | exact hc.mono (by decide +kernel) | split | intro s _ _ hk | intro s _ hk | intro s hk | with_reducible exact hk

def Touched.copyTable : Touch :=
  { parts := [.sram] }

theorem keeps_copyTable (hc : Closed I Touched.copyTable) {s : State} (hk : Holds I s) (p : Nat) (t : StepTable) : Holds I (State.copyTable s p t) := by
  have c_sram : Closed I { parts := [.sram] } := hc.mono (by decide +kernel)
  unfold State.copyTable
  simp only [ic_mk]
  exact c_sram.sram _ _ (by decide) (fun h => Memory.wf_writeBytes _ _ _ (Memory.wf_writeBytes _ _ _ (Memory.wf_writeBytes _ _ _ (Memory.wf_clear _ _ _ h)))) (ic_fold hk)


def Touched.idleTreadle : Touch :=
  { regs := [F.TR_STATUS_PAUSE_CAUSE, F.TR_STATUS_DEFERRED, F.TR_STATUS_STATE, F.TR_NEXT, F.TR_DECIDE_DECIDED, F.TR_TAU,
      F.PG_STATUS_HELD, F.ODO_OUT, F.ODO_OUT_SAT, F.PWR_STATUS_LOOM_ON, F.PWR_STATUS_PHASE, F.PWR_STATUS_TARGET,
      F.PWR_STATUS_STATE, F.PWR_RES, F.PWR_ENTRIES],
    parts := [.fio, .treadles, .loom, .power] }

theorem keeps_idleTreadle (hc : Closed I Touched.idleTreadle) {s : State} (hk : Holds I s) (p : Nat) : Holds I (State.idleTreadle s p) := by
  have c_leavePause' : Closed I Touched.leavePause := hc.mono (by decide +kernel)
  have c_runChange' : Closed I Touched.runChange := hc.mono (by decide +kernel)
  have c_settle' : Closed I Touched.settle := hc.mono (by decide +kernel)
  have c_schedule' : Closed I Touched.schedule := hc.mono (by decide +kernel)
  unfold State.idleTreadle
  try dsimp only
  repeat' first | (guard_target =ₐ Holds I s; exact hk) | simp only [id_eq] | with_reducible apply keeps_wr | with_reducible apply keeps_leavePause c_leavePause' | with_reducible apply keeps_runChange c_runChange' | with_reducible apply keeps_settle c_settle' | with_reducible apply keeps_schedule c_schedule' | with_reducible apply Keeps.foldl (I := I) | with_reducible apply Keeps.foldl₂ (I := I) | with_reducible apply Keeps.ite (I := I) | exact hc.mono (by decide +kernel) | split | intro s _ _ hk | intro s _ hk | intro s hk | with_reducible exact hk

def Touched.endTreadle : Touch :=
  { regs := [F.LC_STATUS_SHADOW_VALID, F.TR_STATUS_STAGE_STATE, F.TR_STATUS_PAUSE_CAUSE, F.TR_STATUS_DEFERRED,
      F.TR_STATUS_STATE, F.TR_EVENT_CANCELLED, F.TR_EVENT_STOP_DONE, F.TR_EVENT_END_REACHED,
      F.TR_STEPS_STAGED_STEP, F.TR_NEXT, F.TR_DECIDE_DECIDED, F.TR_TAU, F.TR_CANCEL_CNT, F.PG_STATUS_HELD,
      F.PG_SHADOW_TARGET, F.PG_SHADOW_VMAX, F.PG_SHADOW_WIN_M2, F.PG_SHADOW_WIN_M1, F.SK_STATUS_BURST_FREE_KIB,
      F.SK_EVENT, F.SKS_SEQ, F.SKS_STATUS_RESIDENT, F.SKS_OVERWRITE, F.ODO_OUT, F.ODO_OUT_SAT,
      F.PWR_STATUS_LOOM_ON, F.PWR_STATUS_PHASE, F.PWR_STATUS_TARGET, F.PWR_STATUS_STATE, F.PWR_RES, F.PWR_ENTRIES],
    parts := [.skein, .cells, .fio, .treadles, .gens, .loom, .power] }

theorem keeps_endTreadle (hc : Closed I Touched.endTreadle) {s : State} (hk : Holds I s) (p : Nat) : Holds I (State.endTreadle s p) := by
  have c_idleTreadle' : Closed I Touched.idleTreadle := hc.mono (by decide +kernel)
  have c_cancelStaging' : Closed I Touched.cancelStaging := hc.mono (by decide +kernel)
  unfold State.endTreadle
  try dsimp only
  repeat' first | (guard_target =ₐ Holds I s; exact hk) | simp only [id_eq] | with_reducible apply keeps_idleTreadle c_idleTreadle' | with_reducible apply keeps_cancelStaging c_cancelStaging' | with_reducible apply keeps_wr | with_reducible apply Keeps.foldl (I := I) | with_reducible apply Keeps.foldl₂ (I := I) | with_reducible apply Keeps.ite (I := I) | exact hc.mono (by decide +kernel) | split | intro s _ _ hk | intro s _ hk | intro s hk | with_reducible exact hk

def Touched.enterPause : Touch :=
  { regs := [F.TR_STATUS_STATE, F.PG_STATUS_HELD, F.ODO_OUT, F.ODO_OUT_SAT],
    parts := [.fio, .treadles, .loom] }

theorem keeps_enterPause (hc : Closed I Touched.enterPause) {s : State} (hk : Holds I s) (p : Nat) : Holds I (State.enterPause s p) := by
  have c_putTreadle' : Closed I Touched.putTreadle := hc.mono (by decide +kernel)
  have c_settle' : Closed I Touched.settle := hc.mono (by decide +kernel)
  have c_holdGens' : Closed I Touched.holdGens := hc.mono (by decide +kernel)
  unfold State.enterPause
  try dsimp only
  repeat' first | (guard_target =ₐ Holds I s; exact hk) | simp only [id_eq] | with_reducible apply keeps_putTreadle c_putTreadle' | with_reducible apply keeps_settle c_settle' | with_reducible apply keeps_holdGens c_holdGens' | with_reducible apply keeps_wr | with_reducible apply Keeps.foldl (I := I) | with_reducible apply Keeps.foldl₂ (I := I) | with_reducible apply Keeps.ite (I := I) | exact hc.mono (by decide +kernel) | split | intro s _ _ hk | intro s _ hk | intro s hk | with_reducible exact hk

def Touched.latchIn : Touch :=
  { regs := [F.TR_COND] }

theorem keeps_latchIn (hc : Closed I Touched.latchIn) {s : State} (hk : Holds I s) (p : Nat) (srcKind : Nat) (id : Nat) : Holds I (State.latchIn s p srcKind id) := by
  unfold State.latchIn
  try dsimp only
  repeat' first | (guard_target =ₐ Holds I s; exact hk) | simp only [id_eq] | with_reducible apply keeps_each | with_reducible apply keeps_wr | with_reducible apply keeps_bump | with_reducible apply Keeps.foldl (I := I) | with_reducible apply Keeps.foldl₂ (I := I) | with_reducible apply Keeps.ite (I := I) | exact hc.mono (by decide +kernel) | split | intro s _ _ hk | intro s _ hk | intro s hk | with_reducible exact hk

def Touched.latchConds : Touch :=
  { regs := [F.TR_COND] }

theorem keeps_latchConds (hc : Closed I Touched.latchConds) {s : State} (hk : Holds I s) (srcKind : Nat) (id : Nat) : Holds I (State.latchConds s srcKind id) := by
  have c_latchIn' : Closed I Touched.latchIn := hc.mono (by decide +kernel)
  unfold State.latchConds
  try dsimp only
  repeat' first | (guard_target =ₐ Holds I s; exact hk) | simp only [id_eq] | with_reducible apply keeps_each | with_reducible apply keeps_latchIn c_latchIn' | with_reducible apply Keeps.foldl (I := I) | with_reducible apply Keeps.foldl₂ (I := I) | with_reducible apply Keeps.ite (I := I) | split | intro s _ _ hk | intro s _ hk | intro s hk | with_reducible exact hk

def Touched.latchDone : Touch :=
  { regs := [F.TR_COND] }

theorem keeps_latchDone (hc : Closed I Touched.latchDone) {s : State} (hk : Holds I s) (p : Nat) : Holds I (State.latchDone s p) := by
  have c_latchIn' : Closed I Touched.latchIn := hc.mono (by decide +kernel)
  unfold State.latchDone
  try dsimp only
  repeat' first | (guard_target =ₐ Holds I s; exact hk) | simp only [id_eq] | with_reducible apply keeps_latchIn c_latchIn' | with_reducible apply Keeps.foldl (I := I) | with_reducible apply Keeps.foldl₂ (I := I) | with_reducible apply Keeps.ite (I := I) | split | intro s _ _ hk | intro s _ hk | intro s hk | with_reducible exact hk

def Touched.pauseCause : Touch :=
  { regs := [F.TR_STATUS_PAUSE_CAUSE, F.TR_STATUS_STATE, F.PG_STATUS_HELD, F.ODO_OUT, F.ODO_OUT_SAT],
    parts := [.fio, .treadles, .loom] }

theorem keeps_pauseCause (hc : Closed I Touched.pauseCause) {s : State} (hk : Holds I s) (p : Nat) (k : Nat) : Holds I (State.pauseCause s p k) := by
  have c_enterPause' : Closed I Touched.enterPause := hc.mono (by decide +kernel)
  unfold State.pauseCause
  try dsimp only
  repeat' first | (guard_target =ₐ Holds I s; exact hk) | simp only [id_eq] | with_reducible apply keeps_wr | with_reducible apply keeps_enterPause c_enterPause' | with_reducible apply Keeps.foldl (I := I) | with_reducible apply Keeps.foldl₂ (I := I) | with_reducible apply Keeps.ite (I := I) | exact hc.mono (by decide +kernel) | split | intro s _ _ hk | intro s _ hk | intro s hk | with_reducible exact hk

def Touched.resetTreadle : Touch :=
  { regs := [F.LC_STATUS_SHADOW_VALID, F.TR_STATUS_STAGE_STATE, F.TR_STATUS_PAUSE_CAUSE, F.TR_STATUS_DEFERRED,
      F.TR_STATUS_STATE, F.TR_EVENT_CANCELLED, F.TR_STEPS_STAGED_STEP, F.TR_NEXT, F.TR_DECIDE_DECIDED, F.TR_TAU,
      F.TR_CANCEL_CNT, F.PG_STATUS_HELD, F.PG_SHADOW_TARGET, F.PG_SHADOW_VMAX, F.PG_SHADOW_WIN_M2,
      F.PG_SHADOW_WIN_M1, F.SK_STATUS_BURST_FREE_KIB, F.SK_EVENT, F.SKS_SEQ, F.SKS_STATUS_RESIDENT,
      F.SKS_OVERWRITE, F.ODO_OUT, F.ODO_OUT_SAT, F.PWR_STATUS_LOOM_ON, F.PWR_STATUS_PHASE, F.PWR_STATUS_TARGET,
      F.PWR_STATUS_STATE, F.PWR_RES, F.PWR_ENTRIES],
    parts := [.skein, .cells, .fio, .treadles, .gens, .loom, .power] }

theorem keeps_resetTreadle (hc : Closed I Touched.resetTreadle) {s : State} (hk : Holds I s) (p : Nat) : Holds I (State.resetTreadle s p) := by
  have c_idleTreadle' : Closed I Touched.idleTreadle := hc.mono (by decide +kernel)
  have c_cancelStaging' : Closed I Touched.cancelStaging := hc.mono (by decide +kernel)
  have c_putTreadle' : Closed I Touched.putTreadle := hc.mono (by decide +kernel)
  unfold State.resetTreadle
  try dsimp only
  repeat' first | (guard_target =ₐ Holds I s; exact hk) | simp only [id_eq] | with_reducible apply keeps_idleTreadle c_idleTreadle' | with_reducible apply keeps_cancelStaging c_cancelStaging' | with_reducible apply keeps_putTreadle c_putTreadle' | with_reducible apply Keeps.foldl (I := I) | with_reducible apply Keeps.foldl₂ (I := I) | with_reducible apply Keeps.ite (I := I) | split | intro s _ _ hk | intro s _ hk | intro s hk | with_reducible exact hk

def Touched.segmentsDone : Touch :=
  { regs := [F.TR_COND], parts := [.treadles] }

theorem keeps_segmentsDone (hc : Closed I Touched.segmentsDone) {s : State} (hk : Holds I s) (p : Nat) (n : Nat) : Holds I (State.segmentsDone s p n) := by
  have c_latchDone' : Closed I Touched.latchDone := hc.mono (by decide +kernel)
  have c_putTreadle' : Closed I Touched.putTreadle := hc.mono (by decide +kernel)
  unfold State.segmentsDone
  try dsimp only
  repeat' first | (guard_target =ₐ Holds I s; exact hk) | simp only [id_eq] | with_reducible apply keeps_latchDone c_latchDone' | with_reducible apply keeps_putTreadle c_putTreadle' | with_reducible apply Keeps.foldl (I := I) | with_reducible apply Keeps.foldl₂ (I := I) | with_reducible apply Keeps.ite (I := I) | split | intro s _ _ hk | intro s _ hk | intro s hk | with_reducible exact hk

def Touched.treadleEvent : Touch :=
  { regs := [F.SK_STATUS_BURST_FREE_KIB, F.SK_EVENT, F.SKS_SEQ, F.SKS_STATUS_RESIDENT, F.SKS_OVERWRITE],
    parts := [.skein] }

theorem keeps_treadleEvent (hc : Closed I Touched.treadleEvent) {s : State} (hk : Holds I s) (p : Nat) (bit : Nat) (step : Nat) : Holds I (State.treadleEvent s p bit step) := by
  have c_event' : Closed I Touched.event := hc.mono (by decide +kernel)
  unfold State.treadleEvent
  try dsimp only
  repeat' first | (guard_target =ₐ Holds I s; exact hk) | simp only [id_eq] | with_reducible apply keeps_event c_event' | with_reducible apply Keeps.foldl (I := I) | with_reducible apply Keeps.foldl₂ (I := I) | with_reducible apply Keeps.ite (I := I) | split | intro s _ _ hk | intro s _ hk | intro s hk | with_reducible exact hk

end Sys2Proof.Machine
end

