-- ==== Sys2Proof/Laws/Keeps/SchedOps.lean ====
section
/-! SUPPORT.  What the operations of Machine/SchedOps.lean touch, and that they keep every property
closed under it. -/

namespace Sys2Proof.Machine

open Sys2Proof

set_option Elab.async false
set_option linter.unusedSimpArgs false
set_option linter.unusedVariables false
set_option linter.unusedTactic false
set_option linter.unreachableTactic false

variable {I : State → Prop}

def Touched.onSched : Touch :=
  { parts := [.sched] }

theorem keeps_onSched (hc : Closed I Touched.onSched) {s : State} (hk : Holds I s) (f : Sched → Sched) : Holds I (State.onSched s f) := by
  have c_sched : Closed I { parts := [.sched] } := hc.mono (by decide +kernel)
  unfold State.onSched
  try dsimp only
  repeat' first | (guard_target =ₐ Holds I s; exact hk) | simp only [ic_mk, id_eq] | with_reducible refine ic_sched c_sched (ic_fold ?_) | with_reducible apply Keeps.foldl (I := I) | with_reducible apply Keeps.foldl₂ (I := I) | with_reducible apply Keeps.ite (I := I) | split | intro s _ _ hk | intro s _ hk | intro s hk | with_reducible exact hk

def Touched.addClaim : Touch :=
  { parts := [.sched] }

theorem keeps_addClaim (hc : Closed I Touched.addClaim) {s : State} (hk : Holds I s) (p : Nat) (c : Claim) : Holds I (State.addClaim s p c) := by
  have c_onSched' : Closed I Touched.onSched := hc.mono (by decide +kernel)
  unfold State.addClaim
  try dsimp only
  repeat' first | (guard_target =ₐ Holds I s; exact hk) | simp only [id_eq] | with_reducible apply keeps_onSched c_onSched' | with_reducible apply Keeps.foldl (I := I) | with_reducible apply Keeps.foldl₂ (I := I) | with_reducible apply Keeps.ite (I := I) | split | intro s _ _ hk | intro s _ hk | intro s hk | with_reducible exact hk

def Touched.storeEntry : Touch :=
  { parts := [.sram] }

theorem keeps_storeEntry (hc : Closed I Touched.storeEntry) {s : State} (hk : Holds I s) (h : Nat) (e : QEntry) : Holds I (State.storeEntry s h e) := by
  have c_sram : Closed I { parts := [.sram] } := hc.mono (by decide +kernel)
  unfold State.storeEntry
  try dsimp only
  repeat' first | (guard_target =ₐ Holds I s; exact hk) | simp only [ic_mk, id_eq] | with_reducible refine ic_sram c_sram (ic_fold ?_) | with_reducible apply Keeps.foldl (I := I) | with_reducible apply Keeps.foldl₂ (I := I) | with_reducible apply Keeps.ite (I := I) | split | intro s _ _ hk | intro s _ hk | intro s hk | with_reducible exact hk

def Touched.putQueue : Touch :=
  { regs := [F.HQ_DEPTH, F.HQ_MAXDEPTH], parts := [.sched] }

theorem keeps_putQueue (hc : Closed I Touched.putQueue) {s : State} (hk : Holds I s) (h : Nat) (x : HwQueue) : Holds I (State.putQueue s h x) := by
  have c_onSched' : Closed I Touched.onSched := hc.mono (by decide +kernel)
  unfold State.putQueue
  try dsimp only
  repeat' first | (guard_target =ₐ Holds I s; exact hk) | simp only [id_eq] | with_reducible apply keeps_onSched c_onSched' | with_reducible apply keeps_wr | with_reducible apply Keeps.foldl (I := I) | with_reducible apply Keeps.foldl₂ (I := I) | with_reducible apply Keeps.ite (I := I) | exact hc.mono (by decide +kernel) | split | intro s _ _ hk | intro s _ hk | intro s hk | with_reducible exact hk

def Touched.schedEvent : Touch :=
  { regs := [F.SK_STATUS_BURST_FREE_KIB, F.SK_EVENT, F.SKS_SEQ, F.SKS_STATUS_RESIDENT, F.SKS_OVERWRITE, F.SCHED_EVENT],
    parts := [.skein] }

theorem keeps_schedEvent (hc : Closed I Touched.schedEvent) {s : State} (hk : Holds I s) (p : Option Nat) (bit : Nat) : Holds I (State.schedEvent s p bit) := by
  have c_event' : Closed I Touched.event := hc.mono (by decide +kernel)
  unfold State.schedEvent
  try dsimp only
  repeat' first | (guard_target =ₐ Holds I s; exact hk) | simp only [id_eq] | with_reducible apply keeps_event c_event' | with_reducible apply keeps_setBit | with_reducible apply Keeps.foldl (I := I) | with_reducible apply Keeps.foldl₂ (I := I) | with_reducible apply Keeps.ite (I := I) | exact hc.mono (by decide +kernel) | split | intro s _ _ hk | intro s _ hk | intro s hk | with_reducible exact hk

def Touched.putFifo : Touch :=
  { parts := [.sched] }

theorem keeps_putFifo (hc : Closed I Touched.putFifo) {s : State} (hk : Holds I s) (k : Nat) (l : List Nat) : Holds I (State.putFifo s k l) := by
  have c_onSched' : Closed I Touched.onSched := hc.mono (by decide +kernel)
  unfold State.putFifo
  try dsimp only
  repeat' first | (guard_target =ₐ Holds I s; exact hk) | simp only [id_eq] | with_reducible apply keeps_onSched c_onSched' | with_reducible apply Keeps.foldl (I := I) | with_reducible apply Keeps.foldl₂ (I := I) | with_reducible apply Keeps.ite (I := I) | split | intro s _ _ hk | intro s _ hk | intro s hk | with_reducible exact hk

def Touched.enterFifo : Touch :=
  { parts := [.sched] }

theorem keeps_enterFifo (hc : Closed I Touched.enterFifo) {s : State} (hk : Holds I s) (k : Nat) (data : Nat) : Holds I (State.enterFifo s k data) := by
  have c_addClaim' : Closed I Touched.addClaim := hc.mono (by decide +kernel)
  have c_putFifo' : Closed I Touched.putFifo := hc.mono (by decide +kernel)
  unfold State.enterFifo
  try dsimp only
  repeat' first | (guard_target =ₐ Holds I s; exact hk) | simp only [id_eq] | with_reducible apply keeps_addClaim c_addClaim' | with_reducible apply keeps_putFifo c_putFifo' | with_reducible apply Keeps.foldl (I := I) | with_reducible apply Keeps.foldl₂ (I := I) | with_reducible apply Keeps.ite (I := I) | split | intro s _ _ hk | intro s _ hk | intro s hk | with_reducible exact hk

def Touched.putTask : Touch :=
  { parts := [.sched] }

theorem keeps_putTask (hc : Closed I Touched.putTask) {s : State} (hk : Holds I s) (i : Nat) (x : Task) : Holds I (State.putTask s i x) := by
  have c_onSched' : Closed I Touched.onSched := hc.mono (by decide +kernel)
  unfold State.putTask
  try dsimp only
  repeat' first | (guard_target =ₐ Holds I s; exact hk) | simp only [id_eq] | with_reducible apply keeps_onSched c_onSched' | with_reducible apply Keeps.foldl (I := I) | with_reducible apply Keeps.foldl₂ (I := I) | with_reducible apply Keeps.ite (I := I) | split | intro s _ _ hk | intro s _ hk | intro s hk | with_reducible exact hk

def Touched.enlist : Touch :=
  { regs := [F.LVL_RDY_DEPTH], parts := [.sched] }

theorem keeps_enlist (hc : Closed I Touched.enlist) {s : State} (hk : Holds I s) (i : Nat) : Holds I (State.enlist s i) := by
  have c_onSched' : Closed I Touched.onSched := hc.mono (by decide +kernel)
  unfold State.enlist
  try dsimp only
  repeat' first | (guard_target =ₐ Holds I s; exact hk) | simp only [id_eq] | with_reducible apply keeps_roll | with_reducible apply keeps_onSched c_onSched' | with_reducible apply Keeps.foldl (I := I) | with_reducible apply Keeps.foldl₂ (I := I) | with_reducible apply Keeps.ite (I := I) | exact hc.mono (by decide +kernel) | split | intro s _ _ hk | intro s _ hk | intro s hk | with_reducible exact hk

def Touched.offerHead : Touch :=
  { regs := [F.LVL_RDY_DEPTH], parts := [.sched] }

theorem keeps_offerHead (hc : Closed I Touched.offerHead) {s : State} (hk : Holds I s) (f : Nat) : Holds I (State.offerHead s f) := by
  have c_enlist' : Closed I Touched.enlist := hc.mono (by decide +kernel)
  unfold State.offerHead
  try dsimp only
  repeat' first | (guard_target =ₐ Holds I s; exact hk) | simp only [id_eq] | with_reducible apply keeps_enlist c_enlist' | with_reducible apply Keeps.foldl (I := I) | with_reducible apply Keeps.foldl₂ (I := I) | with_reducible apply Keeps.ite (I := I) | split | intro s _ _ hk | intro s _ hk | intro s hk | with_reducible exact hk

def Touched.putFlow : Touch :=
  { regs := [F.FLOW_STATE_PENDING], parts := [.sched] }

theorem keeps_putFlow (hc : Closed I Touched.putFlow) {s : State} (hk : Holds I s) (f : Nat) (l : List Nat) : Holds I (State.putFlow s f l) := by
  have c_onSched' : Closed I Touched.onSched := hc.mono (by decide +kernel)
  unfold State.putFlow
  try dsimp only
  repeat' first | (guard_target =ₐ Holds I s; exact hk) | simp only [id_eq] | with_reducible apply keeps_wr | with_reducible apply keeps_onSched c_onSched' | with_reducible apply Keeps.foldl (I := I) | with_reducible apply Keeps.foldl₂ (I := I) | with_reducible apply Keeps.ite (I := I) | exact hc.mono (by decide +kernel) | split | intro s _ _ hk | intro s _ hk | intro s hk | with_reducible exact hk

def Touched.makeReady : Touch :=
  { regs := [F.LVL_RDY_DEPTH, F.FLOW_STATE_PENDING], parts := [.sched] }

theorem keeps_makeReady (hc : Closed I Touched.makeReady) {s : State} (hk : Holds I s) (i : Nat) : Holds I (State.makeReady s i) := by
  have c_putTask' : Closed I Touched.putTask := hc.mono (by decide +kernel)
  have c_offerHead' : Closed I Touched.offerHead := hc.mono (by decide +kernel)
  have c_putFlow' : Closed I Touched.putFlow := hc.mono (by decide +kernel)
  have c_enlist' : Closed I Touched.enlist := hc.mono (by decide +kernel)
  unfold State.makeReady
  try dsimp only
  repeat' first | (guard_target =ₐ Holds I s; exact hk) | simp only [id_eq] | with_reducible apply keeps_putTask c_putTask' | with_reducible apply keeps_offerHead c_offerHead' | with_reducible apply keeps_putFlow c_putFlow' | with_reducible apply keeps_enlist c_enlist' | with_reducible apply Keeps.foldl (I := I) | with_reducible apply Keeps.foldl₂ (I := I) | with_reducible apply Keeps.ite (I := I) | split | intro s _ _ hk | intro s _ hk | intro s hk | with_reducible exact hk

def Touched.createTask : Touch :=
  { regs := [F.SCHED_STATUS_FREE_SLOTS, F.PS_USED, F.LVL_RDY_DEPTH, F.FLOW_STATE_PENDING],
    parts := [.sched, .freeCtr] }

theorem keeps_createTask (hc : Closed I Touched.createTask) {s : State} (hk : Holds I s) (p : Nat) (d : TaskDesc) (root : Option Nat) (scan : Option Nat) : Holds I (State.createTask s p d root scan).1 := by
  have c_draw' : Closed I Touches.draw := hc.mono (by decide +kernel)
  have c_onSched' : Closed I Touched.onSched := hc.mono (by decide +kernel)
  have c_putTask' : Closed I Touched.putTask := hc.mono (by decide +kernel)
  have c_makeReady' : Closed I Touched.makeReady := hc.mono (by decide +kernel)
  unfold State.createTask
  try dsimp only
  repeat' first | (guard_target =ₐ Holds I s; exact hk) | simp only [id_eq] | with_reducible apply keeps_draw c_draw' | with_reducible apply keeps_onSched c_onSched' | with_reducible apply keeps_putTask c_putTask' | with_reducible apply keeps_wr | with_reducible apply keeps_makeReady c_makeReady' | with_reducible apply Keeps.foldl (I := I) | with_reducible apply Keeps.foldl₂ (I := I) | with_reducible apply Keeps.ite (I := I) | exact hc.mono (by decide +kernel) | split | intro s _ _ hk | intro s _ hk | intro s hk | with_reducible exact hk

def Touched.makeResume : Touch :=
  { regs := [F.LVL_RDY_DEPTH], parts := [.sched] }

theorem keeps_makeResume (hc : Closed I Touched.makeResume) {s : State} (hk : Holds I s) (i : Nat) (r : Int) : Holds I (State.makeResume s i r) := by
  have c_enlist' : Closed I Touched.enlist := hc.mono (by decide +kernel)
  have c_putTask' : Closed I Touched.putTask := hc.mono (by decide +kernel)
  unfold State.makeResume
  try dsimp only
  repeat' first | (guard_target =ₐ Holds I s; exact hk) | simp only [id_eq] | with_reducible apply keeps_enlist c_enlist' | with_reducible apply keeps_putTask c_putTask' | with_reducible apply Keeps.foldl (I := I) | with_reducible apply Keeps.foldl₂ (I := I) | with_reducible apply Keeps.ite (I := I) | split | intro s _ _ hk | intro s _ hk | intro s hk | with_reducible exact hk

def Touched.instantiate : Touch :=
  { regs := [F.SK_STATUS_BURST_FREE_KIB, F.SK_EVENT, F.SKS_SEQ, F.SKS_STATUS_RESIDENT, F.SKS_OVERWRITE,
      F.SCHED_STATUS_FREE_SLOTS, F.SCHED_EVENT, F.SCHED_TEMPLATE_MISS_CNT, F.PS_USED, F.LVL_RDY_DEPTH,
      F.FLOW_STATE_PENDING],
    parts := [.skein, .sched, .freeCtr] }

theorem keeps_instantiate (hc : Closed I Touched.instantiate) {s : State} (hk : Holds I s) (p : Nat) (tpl : Nat) (arg : Nat) (root : Option Nat) : Holds I (State.instantiate s p tpl arg root).1 := by
  have c_createTask' : Closed I Touched.createTask := hc.mono (by decide +kernel)
  have c_schedEvent' : Closed I Touched.schedEvent := hc.mono (by decide +kernel)
  unfold State.instantiate
  try dsimp only
  repeat' first | (guard_target =ₐ Holds I s; exact hk) | simp only [id_eq] | with_reducible apply keeps_createTask c_createTask' | with_reducible apply keeps_bump | with_reducible apply keeps_schedEvent c_schedEvent' | with_reducible apply Keeps.foldl (I := I) | with_reducible apply Keeps.foldl₂ (I := I) | with_reducible apply Keeps.ite (I := I) | exact hc.mono (by decide +kernel) | split | intro s _ _ hk | intro s _ hk | intro s hk | with_reducible exact hk

def Touched.putHeld : Touch :=
  { parts := [.sched] }

theorem keeps_putHeld (hc : Closed I Touched.putHeld) {s : State} (hk : Holds I s) (k : Nat) (l : List Nat) : Holds I (State.putHeld s k l) := by
  have c_onSched' : Closed I Touched.onSched := hc.mono (by decide +kernel)
  unfold State.putHeld
  try dsimp only
  repeat' first | (guard_target =ₐ Holds I s; exact hk) | simp only [id_eq] | with_reducible apply keeps_onSched c_onSched' | with_reducible apply Keeps.foldl (I := I) | with_reducible apply Keeps.foldl₂ (I := I) | with_reducible apply Keeps.ite (I := I) | split | intro s _ _ hk | intro s _ hk | intro s hk | with_reducible exact hk

def Touched.takeEvent : Touch :=
  { regs := [F.SK_STATUS_BURST_FREE_KIB, F.SK_EVENT, F.SKS_SEQ, F.SKS_STATUS_RESIDENT, F.SKS_OVERWRITE,
      F.SCHED_STATUS_FREE_SLOTS, F.SCHED_EVENT, F.SCHED_EVT_UNBOUND_CNT, F.SCHED_TEMPLATE_MISS_CNT, F.PS_USED,
      F.LVL_RDY_DEPTH, F.FLOW_STATE_PENDING],
    parts := [.skein, .sched, .freeCtr] }

theorem keeps_takeEvent (hc : Closed I Touched.takeEvent) {s : State} (hk : Holds I s) (k : Nat) : Holds I (State.takeEvent s k) := by
  have c_putFifo' : Closed I Touched.putFifo := hc.mono (by decide +kernel)
  have c_instantiate' : Closed I Touched.instantiate := hc.mono (by decide +kernel)
  have c_schedEvent' : Closed I Touched.schedEvent := hc.mono (by decide +kernel)
  have c_enterFifo' : Closed I Touched.enterFifo := hc.mono (by decide +kernel)
  have c_putHeld' : Closed I Touched.putHeld := hc.mono (by decide +kernel)
  unfold State.takeEvent
  try dsimp only
  repeat' first | (guard_target =ₐ Holds I s; exact hk) | simp only [id_eq] | with_reducible apply keeps_putFifo c_putFifo' | with_reducible apply keeps_instantiate c_instantiate' | with_reducible apply keeps_bump | with_reducible apply keeps_schedEvent c_schedEvent' | with_reducible apply keeps_enterFifo c_enterFifo' | with_reducible apply keeps_putHeld c_putHeld' | with_reducible apply Keeps.foldl (I := I) | with_reducible apply Keeps.foldl₂ (I := I) | with_reducible apply Keeps.ite (I := I) | exact hc.mono (by decide +kernel) | split | intro s _ _ hk | intro s _ hk | intro s hk | with_reducible exact hk

def Touched.serveClaim : Touch :=
  { regs := [F.TR_EVENT_SPAWN_DROP, F.SK_STATUS_BURST_FREE_KIB, F.SK_EVENT, F.SKS_SEQ, F.SKS_STATUS_RESIDENT,
      F.SKS_OVERWRITE, F.SCHED_STATUS_FREE_SLOTS, F.SCHED_EVENT, F.SCHED_EVT_UNBOUND_CNT,
      F.SCHED_TEMPLATE_MISS_CNT, F.PS_USED, F.LVL_RDY_DEPTH, F.FLOW_STATE_PENDING],
    parts := [.skein, .treadles, .sched, .freeCtr] }

theorem keeps_serveClaim (hc : Closed I Touched.serveClaim) {s : State} (hk : Holds I s) (p : Nat) (a : Claim) : Holds I (State.serveClaim s p a) := by
  have c_createTask' : Closed I Touched.createTask := hc.mono (by decide +kernel)
  have c_makeResume' : Closed I Touched.makeResume := hc.mono (by decide +kernel)
  have c_putTreadle' : Closed I Touched.putTreadle := hc.mono (by decide +kernel)
  have c_instantiate' : Closed I Touched.instantiate := hc.mono (by decide +kernel)
  have c_treadleEvent' : Closed I Touched.treadleEvent := hc.mono (by decide +kernel)
  have c_takeEvent' : Closed I Touched.takeEvent := hc.mono (by decide +kernel)
  unfold State.serveClaim
  try dsimp only
  repeat' first | (guard_target =ₐ Holds I s; exact hk) | simp only [id_eq] | with_reducible apply keeps_createTask c_createTask' | with_reducible apply keeps_makeResume c_makeResume' | with_reducible apply keeps_putTreadle c_putTreadle' | with_reducible apply keeps_instantiate c_instantiate' | with_reducible apply keeps_treadleEvent c_treadleEvent' | with_reducible apply keeps_wr | with_reducible apply keeps_takeEvent c_takeEvent' | with_reducible apply Keeps.foldl (I := I) | with_reducible apply Keeps.foldl₂ (I := I) | with_reducible apply Keeps.ite (I := I) | exact hc.mono (by decide +kernel) | split | intro s _ _ hk | intro s _ hk | intro s hk | with_reducible exact hk

def Touched.serveClaims : Touch :=
  { regs := [F.TR_EVENT_SPAWN_DROP, F.SK_STATUS_BURST_FREE_KIB, F.SK_EVENT, F.SKS_SEQ, F.SKS_STATUS_RESIDENT,
      F.SKS_OVERWRITE, F.SCHED_STATUS_FREE_SLOTS, F.SCHED_EVENT, F.SCHED_EVT_UNBOUND_CNT,
      F.SCHED_TEMPLATE_MISS_CNT, F.PS_USED, F.LVL_RDY_DEPTH, F.FLOW_STATE_PENDING],
    parts := [.skein, .treadles, .sched, .freeCtr] }

theorem keeps_serveClaims (hc : Closed I Touched.serveClaims) {s : State} (hk : Holds I s) (p : Nat) (a : Nat) : Holds I (State.serveClaims s p a) := by
  have c_serveClaim' : Closed I Touched.serveClaim := hc.mono (by decide +kernel)
  have c_onSched' : Closed I Touched.onSched := hc.mono (by decide +kernel)
  induction a generalizing s p with
  | zero =>
    unfold State.serveClaims
    try dsimp only
    repeat' first | (guard_target =ₐ Holds I s; exact hk) | simp only [id_eq] | with_reducible apply keeps_serveClaim c_serveClaim' | with_reducible apply keeps_onSched c_onSched' | with_reducible apply Keeps.foldl (I := I) | with_reducible apply Keeps.foldl₂ (I := I) | with_reducible apply Keeps.ite (I := I) | split | intro s _ _ hk | intro s _ hk | intro s hk | with_reducible exact hk
  | succ _ ih =>
    unfold State.serveClaims
    try dsimp only
    repeat' first | (guard_target =ₐ Holds I s; exact hk) | simp only [id_eq] | with_reducible apply ih | with_reducible apply keeps_serveClaim c_serveClaim' | with_reducible apply keeps_onSched c_onSched' | with_reducible apply Keeps.foldl (I := I) | with_reducible apply Keeps.foldl₂ (I := I) | with_reducible apply Keeps.ite (I := I) | split | intro s _ _ hk | intro s _ hk | intro s hk | with_reducible exact hk | cases ‹_ :: _ = _ :: _›

def Touched.serve : Touch :=
  { regs := [F.TR_EVENT_SPAWN_DROP, F.SK_STATUS_BURST_FREE_KIB, F.SK_EVENT, F.SKS_SEQ, F.SKS_STATUS_RESIDENT,
      F.SKS_OVERWRITE, F.SCHED_STATUS_FREE_SLOTS, F.SCHED_EVENT, F.SCHED_EVT_UNBOUND_CNT,
      F.SCHED_TEMPLATE_MISS_CNT, F.PS_USED, F.LVL_RDY_DEPTH, F.FLOW_STATE_PENDING],
    parts := [.skein, .treadles, .sched, .freeCtr] }

theorem keeps_serve (hc : Closed I Touched.serve) {s : State} (hk : Holds I s) (p : Nat) : Holds I (State.serve s p) := by
  have c_serveClaims' : Closed I Touched.serveClaims := hc.mono (by decide +kernel)
  unfold State.serve
  try dsimp only
  repeat' first | (guard_target =ₐ Holds I s; exact hk) | simp only [id_eq] | with_reducible apply keeps_serveClaims c_serveClaims' | with_reducible apply Keeps.foldl (I := I) | with_reducible apply Keeps.foldl₂ (I := I) | with_reducible apply Keeps.ite (I := I) | split | intro s _ _ hk | intro s _ hk | intro s hk | with_reducible exact hk

def Touched.offerEvent : Touch :=
  { regs := [F.TR_EVENT_SPAWN_DROP, F.SK_STATUS_BURST_FREE_KIB, F.SK_EVENT, F.SKS_SEQ, F.SKS_STATUS_RESIDENT,
      F.SKS_OVERWRITE, F.LOOM_EVENT, F.LOOM_EVT_OVF, F.LOOM_OVF_ROUTE, F.SCHED_STATUS_FREE_SLOTS, F.SCHED_EVENT,
      F.SCHED_EVT_UNBOUND_CNT, F.SCHED_TEMPLATE_MISS_CNT, F.PS_USED, F.LVL_RDY_DEPTH, F.FLOW_STATE_PENDING,
      F.PWR_STATUS_WAKE_PEND, F.PWR_STATUS_PHASE, F.PWR_WAKE_SRC, F.PWR_WAKE_MERGED],
    parts := [.skein, .treadles, .sched, .power, .freeCtr] }

theorem keeps_offerEvent (hc : Closed I Touched.offerEvent) {s : State} (hk : Holds I s) (k : Nat) (data : Nat) (waits : Bool) : Holds I (State.offerEvent s k data waits) := by
  have c_schedEvent' : Closed I Touched.schedEvent := hc.mono (by decide +kernel)
  have c_enterFifo' : Closed I Touched.enterFifo := hc.mono (by decide +kernel)
  have c_serve' : Closed I Touched.serve := hc.mono (by decide +kernel)
  have c_internalWake' : Closed I Touched.internalWake := hc.mono (by decide +kernel)
  have c_putHeld' : Closed I Touched.putHeld := hc.mono (by decide +kernel)
  have c_loomEvent' : Closed I Touched.loomEvent := hc.mono (by decide +kernel)
  unfold State.offerEvent
  try dsimp only
  repeat' first | (guard_target =ₐ Holds I s; exact hk) | simp only [id_eq] | with_reducible apply keeps_bump | with_reducible apply keeps_schedEvent c_schedEvent' | with_reducible apply keeps_enterFifo c_enterFifo' | with_reducible apply keeps_when | with_reducible apply keeps_serve c_serve' | with_reducible apply keeps_internalWake c_internalWake' | with_reducible apply keeps_putHeld c_putHeld' | with_reducible apply keeps_loomEvent c_loomEvent' | with_reducible apply keeps_wr | with_reducible apply Keeps.foldl (I := I) | with_reducible apply Keeps.foldl₂ (I := I) | with_reducible apply Keeps.ite (I := I) | exact hc.mono (by decide +kernel) | split | intro s _ _ hk | intro s _ hk | intro s hk | with_reducible exact hk

def Touched.storeAt : Touch :=
  { parts := [.sram, .dram, .dlm] }

theorem keeps_storeAt (hc : Closed I Touched.storeAt) {s : State} (hk : Holds I s) (place : Nat × Nat) (bs : List Byte) : Holds I (State.storeAt s place bs) := by
  have c_sram : Closed I { parts := [.sram] } := hc.mono (by decide +kernel)
  have c_dram : Closed I { parts := [.dram] } := hc.mono (by decide +kernel)
  have c_dlm : Closed I { parts := [.dlm] } := hc.mono (by decide +kernel)
  have c_mem : Closed I { parts := [.sram, .dram, .dlm] } := hc.mono (by decide +kernel)
  unfold State.storeAt
  try dsimp only
  repeat' first | (guard_target =ₐ Holds I s; exact hk) | simp only [ic_mk, id_eq] | with_reducible refine ic_sram c_sram (ic_fold ?_) | with_reducible refine ic_dram c_dram (ic_fold ?_) | with_reducible refine ic_dlm c_dlm (ic_fold ?_) | with_reducible refine ic_cleared c_mem (ic_fold ?_) | with_reducible apply Keeps.foldl (I := I) | with_reducible apply Keeps.foldl₂ (I := I) | with_reducible apply Keeps.ite (I := I) | split | intro s _ _ hk | intro s _ hk | intro s hk | with_reducible exact hk

def Touched.fillBuffer : Touch :=
  { parts := [.sram, .dram, .dlm] }

theorem keeps_fillBuffer (hc : Closed I Touched.fillBuffer) {s : State} (hk : Holds I s) (p : Nat) (sh : Nat) (a : Nat) (bs : List Byte) : Holds I (State.fillBuffer s p sh a bs) := by
  have c_storeAt' : Closed I Touched.storeAt := hc.mono (by decide +kernel)
  unfold State.fillBuffer
  try dsimp only
  repeat' first | (guard_target =ₐ Holds I s; exact hk) | simp only [id_eq] | with_reducible apply keeps_storeAt c_storeAt' | with_reducible apply Keeps.foldl (I := I) | with_reducible apply Keeps.foldl₂ (I := I) | with_reducible apply Keeps.ite (I := I) | split | intro s _ _ hk | intro s _ hk | intro s hk | with_reducible exact hk

def Touched.deliver : Touch :=
  { parts := [.sched, .sram, .dram, .dlm] }

theorem keeps_deliver (hc : Closed I Touched.deliver) {s : State} (hk : Holds I s) (i : Nat) (a : Nat) (e : QEntry) : Holds I (State.deliver s i a e) := by
  have c_putTask' : Closed I Touched.putTask := hc.mono (by decide +kernel)
  have c_fillBuffer' : Closed I Touched.fillBuffer := hc.mono (by decide +kernel)
  unfold State.deliver
  try dsimp only
  repeat' first | (guard_target =ₐ Holds I s; exact hk) | simp only [id_eq] | with_reducible apply keeps_putTask c_putTask' | with_reducible apply keeps_fillBuffer c_fillBuffer' | with_reducible apply Keeps.foldl (I := I) | with_reducible apply Keeps.foldl₂ (I := I) | with_reducible apply Keeps.ite (I := I) | split | intro s _ _ hk | intro s _ hk | intro s hk | with_reducible exact hk

def Touched.serveQueue : Touch :=
  { regs := [F.HQ_DEPTH, F.HQ_MAXDEPTH, F.HQ_PUSH_CNT, F.LVL_RDY_DEPTH],
    parts := [.sched, .sram, .dram, .dlm] }

theorem keeps_serveQueue (hc : Closed I Touched.serveQueue) {s : State} (hk : Holds I s) (h : Nat) (a : Nat) (x3 : List Nat) : Holds I (State.serveQueue s h a x3).1 := by
  have c_makeResume' : Closed I Touched.makeResume := hc.mono (by decide +kernel)
  have c_putQueue' : Closed I Touched.putQueue := hc.mono (by decide +kernel)
  have c_deliver' : Closed I Touched.deliver := hc.mono (by decide +kernel)
  have c_storeEntry' : Closed I Touched.storeEntry := hc.mono (by decide +kernel)
  induction a generalizing s h x3 with
  | zero =>
    unfold State.serveQueue
    try dsimp only
    repeat' first | (guard_target =ₐ Holds I s; exact hk) | simp only [id_eq] | with_reducible apply keeps_roll | with_reducible apply keeps_makeResume c_makeResume' | with_reducible apply keeps_putQueue c_putQueue' | with_reducible apply keeps_deliver c_deliver' | with_reducible apply keeps_storeEntry c_storeEntry' | with_reducible apply Keeps.foldl (I := I) | with_reducible apply Keeps.foldl₂ (I := I) | with_reducible apply Keeps.ite (I := I) | exact hc.mono (by decide +kernel) | split | intro s _ _ hk | intro s _ hk | intro s hk | with_reducible exact hk
  | succ _ ih =>
    unfold State.serveQueue
    try dsimp only
    repeat' first | (guard_target =ₐ Holds I s; exact hk) | simp only [id_eq] | with_reducible apply ih | with_reducible apply keeps_roll | with_reducible apply keeps_makeResume c_makeResume' | with_reducible apply keeps_putQueue c_putQueue' | with_reducible apply keeps_deliver c_deliver' | with_reducible apply keeps_storeEntry c_storeEntry' | with_reducible apply Keeps.foldl (I := I) | with_reducible apply Keeps.foldl₂ (I := I) | with_reducible apply Keeps.ite (I := I) | exact hc.mono (by decide +kernel) | split | intro s _ _ hk | intro s _ hk | intro s hk | with_reducible exact hk | cases ‹_ :: _ = _ :: _›

def Touched.admitEntry : Touch :=
  { regs := [F.TR_EVENT_SPAWN_DROP, F.SK_STATUS_BURST_FREE_KIB, F.SK_EVENT, F.SKS_SEQ, F.SKS_STATUS_RESIDENT,
      F.SKS_OVERWRITE, F.LOOM_EVENT, F.LOOM_EVT_OVF, F.LOOM_OVF_ROUTE, F.SCHED_STATUS_FREE_SLOTS, F.SCHED_EVENT,
      F.SCHED_EVT_UNBOUND_CNT, F.SCHED_TEMPLATE_MISS_CNT, F.PS_USED, F.HQ_DEPTH, F.HQ_MAXDEPTH, F.HQ_PUSH_CNT,
      F.LVL_RDY_DEPTH, F.FLOW_STATE_PENDING, F.PWR_STATUS_WAKE_PEND, F.PWR_STATUS_PHASE, F.PWR_WAKE_SRC,
      F.PWR_WAKE_MERGED, F.MSIX_PBA],
    parts := [.skein, .treadles, .sched, .host, .power, .sram, .dram, .dlm, .freeCtr] }

theorem keeps_admitEntry (hc : Closed I Touched.admitEntry) {s : State} (hk : Holds I s) (h : Nat) (e : QEntry) : Holds I (State.admitEntry s h e).1 := by
  have c_storeEntry' : Closed I Touched.storeEntry := hc.mono (by decide +kernel)
  have c_putQueue' : Closed I Touched.putQueue := hc.mono (by decide +kernel)
  have c_interrupt' : Closed I Touched.interrupt := hc.mono (by decide +kernel)
  have c_offerEvent' : Closed I Touched.offerEvent := hc.mono (by decide +kernel)
  have c_serveQueue' : Closed I Touched.serveQueue := hc.mono (by decide +kernel)
  unfold State.admitEntry
  try dsimp only
  repeat' first | (guard_target =ₐ Holds I s; exact hk) | simp only [id_eq] | with_reducible apply keeps_roll | with_reducible apply keeps_storeEntry c_storeEntry' | with_reducible apply keeps_putQueue c_putQueue' | with_reducible apply keeps_interrupt c_interrupt' | with_reducible apply keeps_offerEvent c_offerEvent' | with_reducible apply keeps_serveQueue c_serveQueue' | with_reducible apply Keeps.foldl (I := I) | with_reducible apply Keeps.foldl₂ (I := I) | with_reducible apply Keeps.ite (I := I) | exact hc.mono (by decide +kernel) | split | intro s _ _ hk | intro s _ hk | intro s hk | with_reducible exact hk

def Touched.putShuttle : Touch :=
  { parts := [.sched] }

theorem keeps_putShuttle (hc : Closed I Touched.putShuttle) {s : State} (hk : Holds I s) (k : Nat) (x : Shuttle) : Holds I (State.putShuttle s k x) := by
  have c_onSched' : Closed I Touched.onSched := hc.mono (by decide +kernel)
  unfold State.putShuttle
  try dsimp only
  repeat' first | (guard_target =ₐ Holds I s; exact hk) | simp only [id_eq] | with_reducible apply keeps_onSched c_onSched' | with_reducible apply Keeps.foldl (I := I) | with_reducible apply Keeps.foldl₂ (I := I) | with_reducible apply Keeps.ite (I := I) | split | intro s _ _ hk | intro s _ hk | intro s hk | with_reducible exact hk

def Touched.answerShuttle : Touch :=
  { parts := [.sched] }

theorem keeps_answerShuttle (hc : Closed I Touched.answerShuttle) {s : State} (hk : Holds I s) (k : Nat) (r : Int) : Holds I (State.answerShuttle s k r) := by
  have c_putShuttle' : Closed I Touched.putShuttle := hc.mono (by decide +kernel)
  unfold State.answerShuttle
  try dsimp only
  repeat' first | (guard_target =ₐ Holds I s; exact hk) | simp only [id_eq] | with_reducible apply keeps_putShuttle c_putShuttle' | with_reducible apply Keeps.foldl (I := I) | with_reducible apply Keeps.foldl₂ (I := I) | with_reducible apply Keeps.ite (I := I) | split | intro s _ _ hk | intro s _ hk | intro s hk | with_reducible exact hk

def Touched.countLoad : Touch :=
  { regs := [F.SH_LOAD], parts := [.sched] }

theorem keeps_countLoad (hc : Closed I Touched.countLoad) {s : State} (hk : Holds I s) (k : Nat) : Holds I (State.countLoad s k) := by
  have c_putShuttle' : Closed I Touched.putShuttle := hc.mono (by decide +kernel)
  unfold State.countLoad
  try dsimp only
  repeat' first | (guard_target =ₐ Holds I s; exact hk) | simp only [id_eq] | with_reducible apply keeps_putShuttle c_putShuttle' | with_reducible apply keeps_wr | with_reducible apply Keeps.foldl (I := I) | with_reducible apply Keeps.foldl₂ (I := I) | with_reducible apply Keeps.ite (I := I) | exact hc.mono (by decide +kernel) | split | intro s _ _ hk | intro s _ hk | intro s hk | with_reducible exact hk

def Touched.putShState : Touch :=
  { regs := [F.SH_STATUS_STATE, F.SH_STATUS_SLOT, F.SH_LOAD], parts := [.sched] }

theorem keeps_putShState (hc : Closed I Touched.putShState) {s : State} (hk : Holds I s) (k : Nat) (st : Nat) (slot : Nat) : Holds I (State.putShState s k st slot) := by
  have c_countLoad' : Closed I Touched.countLoad := hc.mono (by decide +kernel)
  unfold State.putShState
  try dsimp only
  repeat' first | (guard_target =ₐ Holds I s; exact hk) | simp only [id_eq] | with_reducible apply keeps_wr | with_reducible apply keeps_countLoad c_countLoad' | with_reducible apply Keeps.foldl (I := I) | with_reducible apply Keeps.foldl₂ (I := I) | with_reducible apply Keeps.ite (I := I) | exact hc.mono (by decide +kernel) | split | intro s _ _ hk | intro s _ hk | intro s hk | with_reducible exact hk

def Touched.unlist : Touch :=
  { regs := [F.LVL_RDY_DEPTH], parts := [.sched] }

theorem keeps_unlist (hc : Closed I Touched.unlist) {s : State} (hk : Holds I s) (i : Nat) : Holds I (State.unlist s i) := by
  have c_onSched' : Closed I Touched.onSched := hc.mono (by decide +kernel)
  unfold State.unlist
  try dsimp only
  repeat' first | (guard_target =ₐ Holds I s; exact hk) | simp only [id_eq] | with_reducible apply keeps_wr | with_reducible apply keeps_onSched c_onSched' | with_reducible apply Keeps.foldl (I := I) | with_reducible apply Keeps.foldl₂ (I := I) | with_reducible apply Keeps.ite (I := I) | exact hc.mono (by decide +kernel) | split | intro s _ _ hk | intro s _ hk | intro s hk | with_reducible exact hk

def Touched.noteWait : Touch :=
  { regs := [F.LVL_WAIT_AVG, F.LVL_HIST], parts := [.sched] }

theorem keeps_noteWait (hc : Closed I Touched.noteWait) {s : State} (hk : Holds I s) (l : Nat) (ns : Nat) : Holds I (State.noteWait s l ns) := by
  have c_onSched' : Closed I Touched.onSched := hc.mono (by decide +kernel)
  unfold State.noteWait
  try dsimp only
  repeat' first | (guard_target =ₐ Holds I s; exact hk) | simp only [id_eq] | with_reducible apply keeps_bump | with_reducible apply keeps_onSched c_onSched' | with_reducible apply keeps_wr | with_reducible apply Keeps.foldl (I := I) | with_reducible apply Keeps.foldl₂ (I := I) | with_reducible apply Keeps.ite (I := I) | exact hc.mono (by decide +kernel) | split | intro s _ _ hk | intro s _ hk | intro s hk | with_reducible exact hk

def Touched.startTask : Touch :=
  { regs := [F.SCHED_STATUS_INFLIGHT, F.SCHED_DISPATCH_CNT, F.SH_STATUS_STATE, F.SH_STATUS_SLOT, F.SH_LOAD,
      F.LVL_RDY_DEPTH, F.LVL_WAIT_AVG, F.LVL_HIST, F.FLOW_STATE_IN_SERVICE, F.FLOW_STATE_PENDING],
    parts := [.sched, .sram, .dram, .dlm] }

theorem keeps_startTask (hc : Closed I Touched.startTask) {s : State} (hk : Holds I s) (i : Nat) (k : Nat) : Holds I (State.startTask s i k) := by
  have c_putShState' : Closed I Touched.putShState := hc.mono (by decide +kernel)
  have c_unlist' : Closed I Touched.unlist := hc.mono (by decide +kernel)
  have c_putShuttle' : Closed I Touched.putShuttle := hc.mono (by decide +kernel)
  have c_fillBuffer' : Closed I Touched.fillBuffer := hc.mono (by decide +kernel)
  have c_putTask' : Closed I Touched.putTask := hc.mono (by decide +kernel)
  have c_putFlow' : Closed I Touched.putFlow := hc.mono (by decide +kernel)
  have c_noteWait' : Closed I Touched.noteWait := hc.mono (by decide +kernel)
  unfold State.startTask
  try dsimp only
  repeat' first | (guard_target =ₐ Holds I s; exact hk) | simp only [id_eq] | with_reducible apply keeps_putShState c_putShState' | with_reducible apply keeps_unlist c_unlist' | with_reducible apply keeps_putShuttle c_putShuttle' | with_reducible apply keeps_fillBuffer c_fillBuffer' | with_reducible apply keeps_putTask c_putTask' | with_reducible apply keeps_wr | with_reducible apply keeps_roll | with_reducible apply keeps_putFlow c_putFlow' | with_reducible apply keeps_noteWait c_noteWait' | with_reducible apply Keeps.foldl (I := I) | with_reducible apply Keeps.foldl₂ (I := I) | with_reducible apply Keeps.ite (I := I) | exact hc.mono (by decide +kernel) | split | intro s _ _ hk | intro s _ hk | intro s hk | with_reducible exact hk

def Touched.dispatchLoop : Touch :=
  { regs := [F.SCHED_STATUS_INFLIGHT, F.SCHED_DISPATCH_CNT, F.SH_STATUS_STATE, F.SH_STATUS_SLOT, F.SH_LOAD,
      F.LVL_RDY_DEPTH, F.LVL_WAIT_AVG, F.LVL_HIST, F.FLOW_STATE_IN_SERVICE, F.FLOW_STATE_PENDING],
    parts := [.sched, .sram, .dram, .dlm] }

theorem keeps_dispatchLoop (hc : Closed I Touched.dispatchLoop) {s : State} (hk : Holds I s) (a : Nat) : Holds I (State.dispatchLoop s a) := by
  have c_startTask' : Closed I Touched.startTask := hc.mono (by decide +kernel)
  induction a generalizing s with
  | zero =>
    unfold State.dispatchLoop
    try dsimp only
    repeat' first | (guard_target =ₐ Holds I s; exact hk) | simp only [id_eq] | with_reducible apply keeps_startTask c_startTask' | with_reducible apply Keeps.foldl (I := I) | with_reducible apply Keeps.foldl₂ (I := I) | with_reducible apply Keeps.ite (I := I) | split | intro s _ _ hk | intro s _ hk | intro s hk | with_reducible exact hk
  | succ _ ih =>
    unfold State.dispatchLoop
    try dsimp only
    repeat' first | (guard_target =ₐ Holds I s; exact hk) | simp only [id_eq] | with_reducible apply ih | with_reducible apply keeps_startTask c_startTask' | with_reducible apply Keeps.foldl (I := I) | with_reducible apply Keeps.foldl₂ (I := I) | with_reducible apply Keeps.ite (I := I) | split | intro s _ _ hk | intro s _ hk | intro s hk | with_reducible exact hk | cases ‹_ :: _ = _ :: _›

def Touched.dispatch : Touch :=
  { regs := [F.SCHED_STATUS_INFLIGHT, F.SCHED_DISPATCH_CNT, F.SH_STATUS_STATE, F.SH_STATUS_SLOT, F.SH_LOAD,
      F.LVL_RDY_DEPTH, F.LVL_WAIT_AVG, F.LVL_HIST, F.FLOW_STATE_IN_SERVICE, F.FLOW_STATE_PENDING,
      F.PWR_STATUS_WAKE_PEND, F.PWR_STATUS_PHASE, F.PWR_STATUS_STATE, F.PWR_WAKE_SRC, F.PWR_WAKE_MERGED, F.PWR_RES,
      F.PWR_ENTRIES],
    parts := [.sched, .power, .sram, .dram, .dlm] }

theorem keeps_dispatch (hc : Closed I Touched.dispatch) {s : State} (hk : Holds I s) : Holds I (State.dispatch s) := by
  have c_idleCheck' : Closed I Touched.idleCheck := hc.mono (by decide +kernel)
  have c_internalWake' : Closed I Touched.internalWake := hc.mono (by decide +kernel)
  have c_dispatchLoop' : Closed I Touched.dispatchLoop := hc.mono (by decide +kernel)
  have c_putPwrState' : Closed I Touched.putPwrState := hc.mono (by decide +kernel)
  unfold State.dispatch
  try dsimp only
  repeat' first | (guard_target =ₐ Holds I s; exact hk) | simp only [id_eq] | with_reducible apply keeps_idleCheck c_idleCheck' | with_reducible apply keeps_internalWake c_internalWake' | with_reducible apply keeps_dispatchLoop c_dispatchLoop' | with_reducible apply keeps_putPwrState c_putPwrState' | with_reducible apply Keeps.foldl (I := I) | with_reducible apply Keeps.foldl₂ (I := I) | with_reducible apply Keeps.ite (I := I) | split | intro s _ _ hk | intro s _ hk | intro s hk | with_reducible exact hk

def Touched.landTask : Touch :=
  { regs := [F.SCHED_STATUS_INFLIGHT], parts := [.sched] }

theorem keeps_landTask (hc : Closed I Touched.landTask) {s : State} (hk : Holds I s) (i : Nat) : Holds I (State.landTask s i) := by
  have c_putTask' : Closed I Touched.putTask := hc.mono (by decide +kernel)
  unfold State.landTask
  try dsimp only
  repeat' first | (guard_target =ₐ Holds I s; exact hk) | simp only [id_eq] | with_reducible apply keeps_wr | with_reducible apply keeps_putTask c_putTask' | with_reducible apply Keeps.foldl (I := I) | with_reducible apply Keeps.foldl₂ (I := I) | with_reducible apply Keeps.ite (I := I) | exact hc.mono (by decide +kernel) | split | intro s _ _ hk | intro s _ hk | intro s hk | with_reducible exact hk

def Touched.holdFlow : Touch :=
  { regs := [F.SK_STATUS_BURST_FREE_KIB, F.SK_EVENT, F.SKS_SEQ, F.SKS_STATUS_RESIDENT, F.SKS_OVERWRITE, F.SCHED_EVENT,
      F.PS_HELD, F.FLOW_STATE_HELD, F.FLOW_STATE_HELD_CAUSE],
    parts := [.skein] }

theorem keeps_holdFlow (hc : Closed I Touched.holdFlow) {s : State} (hk : Holds I s) (f : Nat) (cause : Nat) : Holds I (State.holdFlow s f cause) := by
  have c_schedEvent' : Closed I Touched.schedEvent := hc.mono (by decide +kernel)
  unfold State.holdFlow
  try dsimp only
  repeat' first | (guard_target =ₐ Holds I s; exact hk) | simp only [id_eq] | with_reducible apply keeps_schedEvent c_schedEvent' | with_reducible apply keeps_wr | with_reducible apply Keeps.foldl (I := I) | with_reducible apply Keeps.foldl₂ (I := I) | with_reducible apply Keeps.ite (I := I) | exact hc.mono (by decide +kernel) | split | intro s _ _ hk | intro s _ hk | intro s hk | with_reducible exact hk

def Touched.notifyOne : Touch :=
  { regs := [F.SCHED_POISON_CNT, F.LVL_RDY_DEPTH, F.FLOW_STATE_PENDING], parts := [.sched] }

theorem keeps_notifyOne (hc : Closed I Touched.notifyOne) {s : State} (hk : Holds I s) (p : Nat) (h : Nat) (poison : Bool) : Holds I (State.notifyOne s p h poison).1 := by
  have c_putTask' : Closed I Touched.putTask := hc.mono (by decide +kernel)
  have c_makeReady' : Closed I Touched.makeReady := hc.mono (by decide +kernel)
  unfold State.notifyOne
  try dsimp only
  repeat' first | (guard_target =ₐ Holds I s; exact hk) | simp only [id_eq] | with_reducible apply keeps_putTask c_putTask' | with_reducible apply keeps_bump | with_reducible apply keeps_makeReady c_makeReady' | with_reducible apply Keeps.foldl (I := I) | with_reducible apply Keeps.foldl₂ (I := I) | with_reducible apply Keeps.ite (I := I) | exact hc.mono (by decide +kernel) | split | intro s _ _ hk | intro s _ hk | intro s hk | with_reducible exact hk

def Touched.notifyAll : Touch :=
  { regs := [F.SCHED_POISON_CNT, F.LVL_RDY_DEPTH, F.FLOW_STATE_PENDING], parts := [.sched] }

theorem keeps_notifyAll (hc : Closed I Touched.notifyAll) {s : State} (hk : Holds I s) (p : Nat) (poison : Bool) (a : List Nat) : Holds I (State.notifyAll s p poison a).1 := by
  have c_notifyOne' : Closed I Touched.notifyOne := hc.mono (by decide +kernel)
  induction a generalizing s p poison with
  | nil =>
    unfold State.notifyAll
    try dsimp only
    repeat' first | (guard_target =ₐ Holds I s; exact hk) | simp only [id_eq] | with_reducible apply keeps_notifyOne c_notifyOne' | with_reducible apply Keeps.foldl (I := I) | with_reducible apply Keeps.foldl₂ (I := I) | with_reducible apply Keeps.ite (I := I) | split | intro s _ _ hk | intro s _ hk | intro s hk | with_reducible exact hk
  | cons _ _ ih =>
    unfold State.notifyAll
    try dsimp only
    repeat' first | (guard_target =ₐ Holds I s; exact hk) | simp only [id_eq] | with_reducible apply ih | with_reducible apply keeps_notifyOne c_notifyOne' | with_reducible apply Keeps.foldl (I := I) | with_reducible apply Keeps.foldl₂ (I := I) | with_reducible apply Keeps.ite (I := I) | split | intro s _ _ hk | intro s _ hk | intro s hk | with_reducible exact hk | cases ‹_ :: _ = _ :: _›

def Touched.freeTask : Touch :=
  { regs := [F.SCHED_STATUS_FREE_SLOTS, F.SCHED_STATUS_INFLIGHT, F.PS_USED, F.LVL_RDY_DEPTH],
    parts := [.sched] }

theorem keeps_freeTask (hc : Closed I Touched.freeTask) {s : State} (hk : Holds I s) (i : Nat) : Holds I (State.freeTask s i) := by
  have c_landTask' : Closed I Touched.landTask := hc.mono (by decide +kernel)
  have c_unlist' : Closed I Touched.unlist := hc.mono (by decide +kernel)
  have c_onSched' : Closed I Touched.onSched := hc.mono (by decide +kernel)
  unfold State.freeTask
  try dsimp only
  repeat' first | (guard_target =ₐ Holds I s; exact hk) | simp only [id_eq] | with_reducible apply keeps_landTask c_landTask' | with_reducible apply keeps_unlist c_unlist' | with_reducible apply keeps_onSched c_onSched' | with_reducible apply keeps_wr | with_reducible apply Keeps.foldl (I := I) | with_reducible apply Keeps.foldl₂ (I := I) | with_reducible apply Keeps.ite (I := I) | exact hc.mono (by decide +kernel) | split | intro s _ _ hk | intro s _ hk | intro s hk | with_reducible exact hk

def Touched.freeAll : Touch :=
  { regs := [F.TR_EVENT_SPAWN_DROP, F.SK_STATUS_BURST_FREE_KIB, F.SK_EVENT, F.SKS_SEQ, F.SKS_STATUS_RESIDENT,
      F.SKS_OVERWRITE, F.SCHED_STATUS_FREE_SLOTS, F.SCHED_STATUS_INFLIGHT, F.SCHED_EVENT, F.SCHED_EVT_UNBOUND_CNT,
      F.SCHED_TEMPLATE_MISS_CNT, F.PS_USED, F.LVL_RDY_DEPTH, F.FLOW_STATE_PENDING],
    parts := [.skein, .treadles, .sched, .freeCtr] }

theorem keeps_freeAll (hc : Closed I Touched.freeAll) {s : State} (hk : Holds I s) (l : List Nat) : Holds I (State.freeAll s l) := by
  have c_serve' : Closed I Touched.serve := hc.mono (by decide +kernel)
  have c_freeTask' : Closed I Touched.freeTask := hc.mono (by decide +kernel)
  unfold State.freeAll
  try dsimp only
  repeat' first | (guard_target =ₐ Holds I s; exact hk) | simp only [id_eq] | with_reducible apply keeps_each | with_reducible apply keeps_serve c_serve' | with_reducible apply keeps_freeTask c_freeTask' | with_reducible apply Keeps.foldl (I := I) | with_reducible apply Keeps.foldl₂ (I := I) | with_reducible apply Keeps.ite (I := I) | split | intro s _ _ hk | intro s _ hk | intro s hk | with_reducible exact hk

def Touched.endOne : Touch :=
  { regs := [F.TR_EVENT_SPAWN_DROP, F.SK_STATUS_BURST_FREE_KIB, F.SK_EVENT, F.SKS_SEQ, F.SKS_STATUS_RESIDENT,
      F.SKS_OVERWRITE, F.LOOM_EVENT, F.LOOM_EVT_OVF, F.LOOM_OVF_ROUTE, F.SCHED_STATUS_FREE_SLOTS,
      F.SCHED_STATUS_INFLIGHT, F.SCHED_EVENT, F.SCHED_POISON_CNT, F.SCHED_EVT_UNBOUND_CNT,
      F.SCHED_TEMPLATE_MISS_CNT, F.PS_USED, F.PS_HELD, F.HQ_DEPTH, F.HQ_MAXDEPTH, F.HQ_PUSH_CNT, F.HQ_BUSY_CNT,
      F.LVL_RDY_DEPTH, F.FLOW_STATE_HELD, F.FLOW_STATE_IN_SERVICE, F.FLOW_STATE_HELD_CAUSE, F.FLOW_STATE_PENDING,
      F.PWR_STATUS_WAKE_PEND, F.PWR_STATUS_PHASE, F.PWR_WAKE_SRC, F.PWR_WAKE_MERGED, F.MSIX_PBA],
    parts := [.skein, .treadles, .sched, .host, .power, .sram, .dram, .dlm, .freeCtr] }

theorem keeps_endOne (hc : Closed I Touched.endOne) {s : State} (hk : Holds I s) (e : Ending) : Holds I (State.endOne s e).1 := by
  have c_landTask' : Closed I Touched.landTask := hc.mono (by decide +kernel)
  have c_unlist' : Closed I Touched.unlist := hc.mono (by decide +kernel)
  have c_putFlow' : Closed I Touched.putFlow := hc.mono (by decide +kernel)
  have c_holdFlow' : Closed I Touched.holdFlow := hc.mono (by decide +kernel)
  have c_offerHead' : Closed I Touched.offerHead := hc.mono (by decide +kernel)
  have c_notifyAll' : Closed I Touched.notifyAll := hc.mono (by decide +kernel)
  have c_onSched' : Closed I Touched.onSched := hc.mono (by decide +kernel)
  have c_putTask' : Closed I Touched.putTask := hc.mono (by decide +kernel)
  have c_putQueue' : Closed I Touched.putQueue := hc.mono (by decide +kernel)
  have c_serveQueue' : Closed I Touched.serveQueue := hc.mono (by decide +kernel)
  have c_interrupt' : Closed I Touched.interrupt := hc.mono (by decide +kernel)
  have c_offerEvent' : Closed I Touched.offerEvent := hc.mono (by decide +kernel)
  have c_freeAll' : Closed I Touched.freeAll := hc.mono (by decide +kernel)
  unfold State.endOne
  try dsimp only
  repeat' first | (guard_target =ₐ Holds I s; exact hk) | simp only [id_eq] | with_reducible apply keeps_landTask c_landTask' | with_reducible apply keeps_unlist c_unlist' | with_reducible apply keeps_putFlow c_putFlow' | with_reducible apply keeps_wr | with_reducible apply keeps_holdFlow c_holdFlow' | with_reducible apply keeps_offerHead c_offerHead' | with_reducible apply keeps_notifyAll c_notifyAll' | with_reducible apply keeps_onSched c_onSched' | with_reducible apply keeps_putTask c_putTask' | with_reducible apply keeps_bump | with_reducible apply keeps_putQueue c_putQueue' | with_reducible apply keeps_serveQueue c_serveQueue' | with_reducible apply keeps_when | with_reducible apply keeps_interrupt c_interrupt' | with_reducible apply keeps_offerEvent c_offerEvent' | with_reducible apply keeps_freeAll c_freeAll' | with_reducible apply Keeps.foldl (I := I) | with_reducible apply Keeps.foldl₂ (I := I) | with_reducible apply Keeps.ite (I := I) | exact hc.mono (by decide +kernel) | split | intro s _ _ hk | intro s _ hk | intro s hk | with_reducible exact hk

def Touched.endings : Touch :=
  { regs := [F.TR_EVENT_SPAWN_DROP, F.SK_STATUS_BURST_FREE_KIB, F.SK_EVENT, F.SKS_SEQ, F.SKS_STATUS_RESIDENT,
      F.SKS_OVERWRITE, F.LOOM_EVENT, F.LOOM_EVT_OVF, F.LOOM_OVF_ROUTE, F.SCHED_STATUS_FREE_SLOTS,
      F.SCHED_STATUS_INFLIGHT, F.SCHED_EVENT, F.SCHED_POISON_CNT, F.SCHED_EVT_UNBOUND_CNT,
      F.SCHED_TEMPLATE_MISS_CNT, F.PS_USED, F.PS_HELD, F.HQ_DEPTH, F.HQ_MAXDEPTH, F.HQ_PUSH_CNT, F.HQ_BUSY_CNT,
      F.LVL_RDY_DEPTH, F.FLOW_STATE_HELD, F.FLOW_STATE_IN_SERVICE, F.FLOW_STATE_HELD_CAUSE, F.FLOW_STATE_PENDING,
      F.PWR_STATUS_WAKE_PEND, F.PWR_STATUS_PHASE, F.PWR_WAKE_SRC, F.PWR_WAKE_MERGED, F.MSIX_PBA],
    parts := [.skein, .treadles, .sched, .host, .power, .sram, .dram, .dlm, .freeCtr] }

theorem keeps_endings (hc : Closed I Touched.endings) {s : State} (hk : Holds I s) (a : Nat) (x2 : List Ending) : Holds I (State.endings s a x2) := by
  have c1 : Closed I Touched.endOne := hc.mono (by decide +kernel)
  induction a generalizing s x2 with
  | zero => unfold State.endings; exact hk
  | succ n ih =>
    cases x2 with
    | nil => unfold State.endings; exact hk
    | cons e rest =>
      unfold State.endings
      split
      · exact ih (keeps_endOne c1 hk e) _
      · exact ih hk _


def Touched.complete : Touch :=
  { regs := [F.TR_EVENT_SPAWN_DROP, F.SK_STATUS_BURST_FREE_KIB, F.SK_EVENT, F.SKS_SEQ, F.SKS_STATUS_RESIDENT,
      F.SKS_OVERWRITE, F.LOOM_EVENT, F.LOOM_EVT_OVF, F.LOOM_OVF_ROUTE, F.SCHED_STATUS_FREE_SLOTS,
      F.SCHED_STATUS_INFLIGHT, F.SCHED_EVENT, F.SCHED_DISPATCH_CNT, F.SCHED_POISON_CNT, F.SCHED_EVT_UNBOUND_CNT,
      F.SCHED_TEMPLATE_MISS_CNT, F.PS_USED, F.PS_HELD, F.HQ_DEPTH, F.HQ_MAXDEPTH, F.HQ_PUSH_CNT, F.HQ_BUSY_CNT,
      F.SH_STATUS_STATE, F.SH_STATUS_SLOT, F.SH_LOAD, F.LVL_RDY_DEPTH, F.LVL_WAIT_AVG, F.LVL_HIST,
      F.FLOW_STATE_HELD, F.FLOW_STATE_IN_SERVICE, F.FLOW_STATE_HELD_CAUSE, F.FLOW_STATE_PENDING,
      F.PWR_STATUS_WAKE_PEND, F.PWR_STATUS_PHASE, F.PWR_STATUS_STATE, F.PWR_WAKE_SRC, F.PWR_WAKE_MERGED, F.PWR_RES,
      F.PWR_ENTRIES, F.MSIX_PBA],
    parts := [.skein, .treadles, .sched, .host, .power, .sram, .dram, .dlm, .freeCtr] }

theorem keeps_complete (hc : Closed I Touched.complete) {s : State} (hk : Holds I s) (i : Nat) (status : Nat) (cause : Nat) (code : Nat) : Holds I (State.complete s i status cause code) := by
  have c_dispatch' : Closed I Touched.dispatch := hc.mono (by decide +kernel)
  have c_endings' : Closed I Touched.endings := hc.mono (by decide +kernel)
  unfold State.complete
  try dsimp only
  repeat' first | (guard_target =ₐ Holds I s; exact hk) | simp only [id_eq] | with_reducible apply keeps_dispatch c_dispatch' | with_reducible apply keeps_endings c_endings' | with_reducible apply Keeps.foldl (I := I) | with_reducible apply Keeps.foldl₂ (I := I) | with_reducible apply Keeps.ite (I := I) | split | intro s _ _ hk | intro s _ hk | intro s hk | with_reducible exact hk

def Touched.settleFlow : Touch :=
  { regs := [F.TR_EVENT_SPAWN_DROP, F.SK_STATUS_BURST_FREE_KIB, F.SK_EVENT, F.SKS_SEQ, F.SKS_STATUS_RESIDENT,
      F.SKS_OVERWRITE, F.LOOM_EVENT, F.LOOM_EVT_OVF, F.LOOM_OVF_ROUTE, F.SCHED_STATUS_FREE_SLOTS,
      F.SCHED_STATUS_INFLIGHT, F.SCHED_EVENT, F.SCHED_DISPATCH_CNT, F.SCHED_POISON_CNT, F.SCHED_EVT_UNBOUND_CNT,
      F.SCHED_TEMPLATE_MISS_CNT, F.PS_USED, F.PS_HELD, F.HQ_DEPTH, F.HQ_MAXDEPTH, F.HQ_PUSH_CNT, F.HQ_BUSY_CNT,
      F.SH_STATUS_STATE, F.SH_STATUS_SLOT, F.SH_LOAD, F.LVL_RDY_DEPTH, F.LVL_WAIT_AVG, F.LVL_HIST,
      F.FLOW_STATE_HELD, F.FLOW_STATE_IN_SERVICE, F.FLOW_STATE_HELD_CAUSE, F.FLOW_STATE_PENDING,
      F.PWR_STATUS_WAKE_PEND, F.PWR_STATUS_PHASE, F.PWR_STATUS_STATE, F.PWR_WAKE_SRC, F.PWR_WAKE_MERGED, F.PWR_RES,
      F.PWR_ENTRIES, F.MSIX_PBA],
    parts := [.skein, .treadles, .sched, .host, .power, .sram, .dram, .dlm, .freeCtr] }

theorem keeps_settleFlow (hc : Closed I Touched.settleFlow) {s : State} (hk : Holds I s) (f : Nat) : Holds I (State.settleFlow s f) := by
  have c_dispatch' : Closed I Touched.dispatch := hc.mono (by decide +kernel)
  have c_offerHead' : Closed I Touched.offerHead := hc.mono (by decide +kernel)
  have c_endings' : Closed I Touched.endings := hc.mono (by decide +kernel)
  unfold State.settleFlow
  try dsimp only
  repeat' first | (guard_target =ₐ Holds I s; exact hk) | simp only [id_eq] | with_reducible apply keeps_dispatch c_dispatch' | with_reducible apply keeps_offerHead c_offerHead' | with_reducible apply keeps_endings c_endings' | with_reducible apply Keeps.foldl (I := I) | with_reducible apply Keeps.foldl₂ (I := I) | with_reducible apply Keeps.ite (I := I) | split | intro s _ _ hk | intro s _ hk | intro s hk | with_reducible exact hk

def Touched.cancelSlot : Touch :=
  { regs := [F.TR_EVENT_SPAWN_DROP, F.SK_STATUS_BURST_FREE_KIB, F.SK_EVENT, F.SKS_SEQ, F.SKS_STATUS_RESIDENT,
      F.SKS_OVERWRITE, F.LOOM_EVENT, F.LOOM_EVT_OVF, F.LOOM_OVF_ROUTE, F.SCHED_STATUS_FREE_SLOTS,
      F.SCHED_STATUS_INFLIGHT, F.SCHED_EVENT, F.SCHED_DISPATCH_CNT, F.SCHED_CANCEL_CNT, F.SCHED_CANCEL_LATE_CNT,
      F.SCHED_POISON_CNT, F.SCHED_EVT_UNBOUND_CNT, F.SCHED_TEMPLATE_MISS_CNT, F.PS_USED, F.PS_HELD, F.HQ_DEPTH,
      F.HQ_MAXDEPTH, F.HQ_PUSH_CNT, F.HQ_BUSY_CNT, F.SH_STATUS_STATE, F.SH_STATUS_SLOT, F.SH_LOAD, F.LVL_RDY_DEPTH,
      F.LVL_WAIT_AVG, F.LVL_HIST, F.FLOW_STATE_HELD, F.FLOW_STATE_IN_SERVICE, F.FLOW_STATE_HELD_CAUSE,
      F.FLOW_STATE_PENDING, F.PWR_STATUS_WAKE_PEND, F.PWR_STATUS_PHASE, F.PWR_STATUS_STATE, F.PWR_WAKE_SRC,
      F.PWR_WAKE_MERGED, F.PWR_RES, F.PWR_ENTRIES, F.MSIX_PBA],
    parts := [.skein, .treadles, .sched, .host, .power, .sram, .dram, .dlm, .freeCtr] }

theorem keeps_cancelSlot (hc : Closed I Touched.cancelSlot) {s : State} (hk : Holds I s) (i : Nat) : Holds I (State.cancelSlot s i).1 := by
  have c_complete' : Closed I Touched.complete := hc.mono (by decide +kernel)
  have c_unlist' : Closed I Touched.unlist := hc.mono (by decide +kernel)
  have c_settleFlow' : Closed I Touched.settleFlow := hc.mono (by decide +kernel)
  have c_putTask' : Closed I Touched.putTask := hc.mono (by decide +kernel)
  unfold State.cancelSlot
  try dsimp only
  repeat' first | (guard_target =ₐ Holds I s; exact hk) | simp only [id_eq] | with_reducible apply keeps_complete c_complete' | with_reducible apply keeps_bump | with_reducible apply keeps_unlist c_unlist' | with_reducible apply keeps_settleFlow c_settleFlow' | with_reducible apply keeps_putTask c_putTask' | with_reducible apply Keeps.foldl (I := I) | with_reducible apply Keeps.foldl₂ (I := I) | with_reducible apply Keeps.ite (I := I) | exact hc.mono (by decide +kernel) | split | intro s _ _ hk | intro s _ hk | intro s hk | with_reducible exact hk

def Touched.cancelHandle : Touch :=
  { regs := [F.TR_EVENT_SPAWN_DROP, F.SK_STATUS_BURST_FREE_KIB, F.SK_EVENT, F.SKS_SEQ, F.SKS_STATUS_RESIDENT,
      F.SKS_OVERWRITE, F.LOOM_EVENT, F.LOOM_EVT_OVF, F.LOOM_OVF_ROUTE, F.SCHED_STATUS_FREE_SLOTS,
      F.SCHED_STATUS_INFLIGHT, F.SCHED_EVENT, F.SCHED_DISPATCH_CNT, F.SCHED_CANCEL_CNT, F.SCHED_CANCEL_LATE_CNT,
      F.SCHED_POISON_CNT, F.SCHED_EVT_UNBOUND_CNT, F.SCHED_TEMPLATE_MISS_CNT, F.PS_USED, F.PS_HELD, F.HQ_DEPTH,
      F.HQ_MAXDEPTH, F.HQ_PUSH_CNT, F.HQ_BUSY_CNT, F.SH_STATUS_STATE, F.SH_STATUS_SLOT, F.SH_LOAD, F.LVL_RDY_DEPTH,
      F.LVL_WAIT_AVG, F.LVL_HIST, F.FLOW_STATE_HELD, F.FLOW_STATE_IN_SERVICE, F.FLOW_STATE_HELD_CAUSE,
      F.FLOW_STATE_PENDING, F.PWR_STATUS_WAKE_PEND, F.PWR_STATUS_PHASE, F.PWR_STATUS_STATE, F.PWR_WAKE_SRC,
      F.PWR_WAKE_MERGED, F.PWR_RES, F.PWR_ENTRIES, F.MSIX_PBA],
    parts := [.skein, .treadles, .sched, .host, .power, .sram, .dram, .dlm, .freeCtr] }

theorem keeps_cancelHandle (hc : Closed I Touched.cancelHandle) {s : State} (hk : Holds I s) (p : Nat) (h : Nat) : Holds I (State.cancelHandle s p h).1 := by
  have c_cancelSlot' : Closed I Touched.cancelSlot := hc.mono (by decide +kernel)
  unfold State.cancelHandle
  try dsimp only
  repeat' first | (guard_target =ₐ Holds I s; exact hk) | simp only [id_eq] | with_reducible apply keeps_cancelSlot c_cancelSlot' | with_reducible apply Keeps.foldl (I := I) | with_reducible apply Keeps.foldl₂ (I := I) | with_reducible apply Keeps.ite (I := I) | split | intro s _ _ hk | intro s _ hk | intro s hk | with_reducible exact hk

def Touched.emptyFifos : Touch :=
  { regs := [F.LOOM_EVT_OVF], parts := [.sched] }

theorem keeps_emptyFifos (hc : Closed I Touched.emptyFifos) {s : State} (hk : Holds I s) (p : Nat) : Holds I (State.emptyFifos s p) := by
  have c_putHeld' : Closed I Touched.putHeld := hc.mono (by decide +kernel)
  have c_putFifo' : Closed I Touched.putFifo := hc.mono (by decide +kernel)
  unfold State.emptyFifos
  try dsimp only
  repeat' first | (guard_target =ₐ Holds I s; exact hk) | simp only [id_eq] | with_reducible apply keeps_each | with_reducible apply keeps_bump | with_reducible apply keeps_putHeld c_putHeld' | with_reducible apply keeps_putFifo c_putFifo' | with_reducible apply Keeps.foldl (I := I) | with_reducible apply Keeps.foldl₂ (I := I) | with_reducible apply Keeps.ite (I := I) | exact hc.mono (by decide +kernel) | split | intro s _ _ hk | intro s _ hk | intro s hk | with_reducible exact hk

def Touched.emptyQueue : Touch :=
  { regs := [F.HQ_DEPTH, F.HQ_MAXDEPTH, F.HQ_DISCARD], parts := [.sched] }

theorem keeps_emptyQueue (hc : Closed I Touched.emptyQueue) {s : State} (hk : Holds I s) (h : Nat) : Holds I (State.emptyQueue s h) := by
  have c_putQueue' : Closed I Touched.putQueue := hc.mono (by decide +kernel)
  unfold State.emptyQueue
  try dsimp only
  repeat' first | (guard_target =ₐ Holds I s; exact hk) | simp only [id_eq] | with_reducible apply keeps_wr | with_reducible apply keeps_putQueue c_putQueue' | with_reducible apply Keeps.foldl (I := I) | with_reducible apply Keeps.foldl₂ (I := I) | with_reducible apply Keeps.ite (I := I) | exact hc.mono (by decide +kernel) | split | intro s _ _ hk | intro s _ hk | intro s hk | with_reducible exact hk

def Touched.leaveShuttle : Touch :=
  { regs := [F.SH_STATUS_STATE, F.SH_STATUS_SLOT, F.SH_LOAD], parts := [.sched] }

theorem keeps_leaveShuttle (hc : Closed I Touched.leaveShuttle) {s : State} (hk : Holds I s) (k : Nat) (i : Nat) (st : Nat) : Holds I (State.leaveShuttle s k i st) := by
  have c_putTask' : Closed I Touched.putTask := hc.mono (by decide +kernel)
  have c_putShState' : Closed I Touched.putShState := hc.mono (by decide +kernel)
  have c_putShuttle' : Closed I Touched.putShuttle := hc.mono (by decide +kernel)
  unfold State.leaveShuttle
  try dsimp only
  repeat' first | (guard_target =ₐ Holds I s; exact hk) | simp only [id_eq] | with_reducible apply keeps_putTask c_putTask' | with_reducible apply keeps_putShState c_putShState' | with_reducible apply keeps_putShuttle c_putShuttle' | with_reducible apply Keeps.foldl (I := I) | with_reducible apply Keeps.foldl₂ (I := I) | with_reducible apply Keeps.ite (I := I) | split | intro s _ _ hk | intro s _ hk | intro s hk | with_reducible exact hk

def Touched.partStore : Touch :=
  { parts := [.sram, .dram, .dlm] }

theorem keeps_partStore (hc : Closed I Touched.partStore) {s : State} (hk : Holds I s) (p : Nat) (a : Nat) (bs : List Byte) : Holds I (State.partStore s p a bs) := by
  have c_storeAt' : Closed I Touched.storeAt := hc.mono (by decide +kernel)
  unfold State.partStore
  try dsimp only
  repeat' first | (guard_target =ₐ Holds I s; exact hk) | simp only [id_eq] | with_reducible apply keeps_storeAt c_storeAt' | with_reducible apply Keeps.foldl (I := I) | with_reducible apply Keeps.foldl₂ (I := I) | with_reducible apply Keeps.ite (I := I) | split | intro s _ _ hk | intro s _ hk | intro s hk | with_reducible exact hk

def Touched.popEntry : Touch :=
  { regs := [F.TR_EVENT_SPAWN_DROP, F.SK_STATUS_BURST_FREE_KIB, F.SK_EVENT, F.SKS_SEQ, F.SKS_STATUS_RESIDENT,
      F.SKS_OVERWRITE, F.SCHED_STATUS_FREE_SLOTS, F.SCHED_STATUS_INFLIGHT, F.SCHED_EVENT, F.SCHED_EVT_UNBOUND_CNT,
      F.SCHED_TEMPLATE_MISS_CNT, F.PS_USED, F.HQ_DEPTH, F.HQ_MAXDEPTH, F.HQ_PUSH_CNT, F.LVL_RDY_DEPTH,
      F.FLOW_STATE_PENDING],
    parts := [.skein, .treadles, .sched, .sram, .dram, .dlm, .freeCtr] }

theorem keeps_popEntry (hc : Closed I Touched.popEntry) {s : State} (hk : Holds I s) (h : Nat) : Holds I (State.popEntry s h) := by
  have c_serveQueue' : Closed I Touched.serveQueue := hc.mono (by decide +kernel)
  have c_putQueue' : Closed I Touched.putQueue := hc.mono (by decide +kernel)
  have c_freeAll' : Closed I Touched.freeAll := hc.mono (by decide +kernel)
  unfold State.popEntry
  try dsimp only
  repeat' first | (guard_target =ₐ Holds I s; exact hk) | simp only [id_eq] | with_reducible apply keeps_serveQueue c_serveQueue' | with_reducible apply keeps_putQueue c_putQueue' | with_reducible apply keeps_freeAll c_freeAll' | with_reducible apply Keeps.foldl (I := I) | with_reducible apply Keeps.foldl₂ (I := I) | with_reducible apply Keeps.ite (I := I) | split | intro s _ _ hk | intro s _ hk | intro s hk | with_reducible exact hk

def Touched.pushEntry : Touch :=
  { regs := [F.TR_EVENT_SPAWN_DROP, F.SK_STATUS_BURST_FREE_KIB, F.SK_EVENT, F.SKS_SEQ, F.SKS_STATUS_RESIDENT,
      F.SKS_OVERWRITE, F.LOOM_EVENT, F.LOOM_EVT_OVF, F.LOOM_OVF_ROUTE, F.SCHED_STATUS_FREE_SLOTS,
      F.SCHED_STATUS_INFLIGHT, F.SCHED_EVENT, F.SCHED_EVT_UNBOUND_CNT, F.SCHED_TEMPLATE_MISS_CNT, F.PS_USED,
      F.HQ_DEPTH, F.HQ_MAXDEPTH, F.HQ_PUSH_CNT, F.LVL_RDY_DEPTH, F.FLOW_STATE_PENDING, F.PWR_STATUS_WAKE_PEND,
      F.PWR_STATUS_PHASE, F.PWR_WAKE_SRC, F.PWR_WAKE_MERGED, F.MSIX_PBA],
    parts := [.skein, .treadles, .sched, .host, .power, .sram, .dram, .dlm, .freeCtr] }

theorem keeps_pushEntry (hc : Closed I Touched.pushEntry) {s : State} (hk : Holds I s) (h : Nat) (e : QEntry) : Holds I (State.pushEntry s h e) := by
  have c_admitEntry' : Closed I Touched.admitEntry := hc.mono (by decide +kernel)
  have c_freeAll' : Closed I Touched.freeAll := hc.mono (by decide +kernel)
  unfold State.pushEntry
  try dsimp only
  repeat' first | (guard_target =ₐ Holds I s; exact hk) | simp only [id_eq] | with_reducible apply keeps_admitEntry c_admitEntry' | with_reducible apply keeps_freeAll c_freeAll' | with_reducible apply Keeps.foldl (I := I) | with_reducible apply Keeps.foldl₂ (I := I) | with_reducible apply Keeps.ite (I := I) | split | intro s _ _ hk | intro s _ hk | intro s hk | with_reducible exact hk

def Touched.putTemplate : Touch :=
  { parts := [.sched, .sram] }

theorem keeps_putTemplate (hc : Closed I Touched.putTemplate) {s : State} (hk : Holds I s) (k : Nat) (d : Option TaskDesc) : Holds I (State.putTemplate s k d) := by
  have c_sram : Closed I { parts := [.sram] } := hc.mono (by decide +kernel)
  have c_onSched' : Closed I Touched.onSched := hc.mono (by decide +kernel)
  unfold State.putTemplate
  try dsimp only
  repeat' first | (guard_target =ₐ Holds I s; exact hk) | simp only [ic_mk, id_eq] | with_reducible refine ic_sram c_sram (ic_fold ?_) | with_reducible apply keeps_onSched c_onSched' | with_reducible apply Keeps.foldl (I := I) | with_reducible apply Keeps.foldl₂ (I := I) | with_reducible apply Keeps.ite (I := I) | split | intro s _ _ hk | intro s _ hk | intro s hk | with_reducible exact hk

def Touched.releaseFlow : Touch :=
  { regs := [F.TR_EVENT_SPAWN_DROP, F.SK_STATUS_BURST_FREE_KIB, F.SK_EVENT, F.SKS_SEQ, F.SKS_STATUS_RESIDENT,
      F.SKS_OVERWRITE, F.LOOM_EVENT, F.LOOM_EVT_OVF, F.LOOM_OVF_ROUTE, F.SCHED_STATUS_FREE_SLOTS,
      F.SCHED_STATUS_INFLIGHT, F.SCHED_EVENT, F.SCHED_DISPATCH_CNT, F.SCHED_CANCEL_CNT, F.SCHED_POISON_CNT,
      F.SCHED_EVT_UNBOUND_CNT, F.SCHED_TEMPLATE_MISS_CNT, F.PS_USED, F.PS_HELD, F.HQ_DEPTH, F.HQ_MAXDEPTH,
      F.HQ_PUSH_CNT, F.HQ_BUSY_CNT, F.SH_STATUS_STATE, F.SH_STATUS_SLOT, F.SH_LOAD, F.LVL_RDY_DEPTH,
      F.LVL_WAIT_AVG, F.LVL_HIST, F.FLOW_STATE_HELD, F.FLOW_STATE_IN_SERVICE, F.FLOW_STATE_HELD_CAUSE,
      F.FLOW_STATE_PENDING, F.PWR_STATUS_WAKE_PEND, F.PWR_STATUS_PHASE, F.PWR_STATUS_STATE, F.PWR_WAKE_SRC,
      F.PWR_WAKE_MERGED, F.PWR_RES, F.PWR_ENTRIES, F.MSIX_PBA],
    parts := [.skein, .treadles, .sched, .host, .power, .sram, .dram, .dlm, .freeCtr] }

theorem keeps_releaseFlow (hc : Closed I Touched.releaseFlow) {s : State} (hk : Holds I s) (f : Nat) (drop : Bool) : Holds I (State.releaseFlow s f drop) := by
  have c_putTask' : Closed I Touched.putTask := hc.mono (by decide +kernel)
  have c_settleFlow' : Closed I Touched.settleFlow := hc.mono (by decide +kernel)
  unfold State.releaseFlow
  try dsimp only
  repeat' first | (guard_target =ₐ Holds I s; exact hk) | simp only [id_eq] | with_reducible apply keeps_wr | with_reducible apply keeps_each | with_reducible apply keeps_bump | with_reducible apply keeps_putTask c_putTask' | with_reducible apply keeps_settleFlow c_settleFlow' | with_reducible apply Keeps.foldl (I := I) | with_reducible apply Keeps.foldl₂ (I := I) | with_reducible apply Keeps.ite (I := I) | exact hc.mono (by decide +kernel) | split | intro s _ _ hk | intro s _ hk | intro s hk | with_reducible exact hk

def Touched.resetTasks : Touch :=
  { regs := [F.SK_STATUS_BURST_FREE_KIB, F.SK_EVENT, F.SKS_SEQ, F.SKS_STATUS_RESIDENT, F.SKS_OVERWRITE, F.LOOM_EVT_OVF,
      F.SCHED_STATUS_FREE_SLOTS, F.SCHED_STATUS_INFLIGHT, F.SCHED_EVENT, F.SCHED_DISPATCH_CNT, F.PS_USED,
      F.PS_DISCARD_CNT, F.PS_HELD, F.HQ_DEPTH, F.HQ_MAXDEPTH, F.HQ_DISCARD, F.SH_STATUS_STATE, F.SH_STATUS_SLOT,
      F.SH_LOAD, F.LVL_RDY_DEPTH, F.LVL_WAIT_AVG, F.LVL_HIST, F.FLOW_STATE_HELD, F.FLOW_STATE_IN_SERVICE,
      F.FLOW_STATE_HELD_CAUSE, F.FLOW_STATE_PENDING, F.PWR_STATUS_WAKE_PEND, F.PWR_STATUS_PHASE,
      F.PWR_STATUS_STATE, F.PWR_WAKE_SRC, F.PWR_WAKE_MERGED, F.PWR_RES, F.PWR_ENTRIES],
    parts := [.skein, .treadles, .sched, .power, .sram, .dram, .dlm] }

theorem keeps_resetTasks (hc : Closed I Touched.resetTasks) {s : State} (hk : Holds I s) (p : Nat) : Holds I (State.resetTasks s p) := by
  have c_leaveShuttle' : Closed I Touched.leaveShuttle := hc.mono (by decide +kernel)
  have c_freeTask' : Closed I Touched.freeTask := hc.mono (by decide +kernel)
  have c_emptyQueue' : Closed I Touched.emptyQueue := hc.mono (by decide +kernel)
  have c_putTreadle' : Closed I Touched.putTreadle := hc.mono (by decide +kernel)
  have c_onSched' : Closed I Touched.onSched := hc.mono (by decide +kernel)
  have c_emptyFifos' : Closed I Touched.emptyFifos := hc.mono (by decide +kernel)
  have c_putFlow' : Closed I Touched.putFlow := hc.mono (by decide +kernel)
  have c_schedEvent' : Closed I Touched.schedEvent := hc.mono (by decide +kernel)
  have c_dispatch' : Closed I Touched.dispatch := hc.mono (by decide +kernel)
  unfold State.resetTasks
  try dsimp only
  repeat' first | (guard_target =ₐ Holds I s; exact hk) | simp only [id_eq] | with_reducible apply keeps_each | with_reducible apply keeps_leaveShuttle c_leaveShuttle' | with_reducible apply keeps_freeTask c_freeTask' | with_reducible apply keeps_emptyQueue c_emptyQueue' | with_reducible apply keeps_putTreadle c_putTreadle' | with_reducible apply keeps_onSched c_onSched' | with_reducible apply keeps_emptyFifos c_emptyFifos' | with_reducible apply keeps_wr | with_reducible apply keeps_putFlow c_putFlow' | with_reducible apply keeps_schedEvent c_schedEvent' | with_reducible apply keeps_bump | with_reducible apply keeps_dispatch c_dispatch' | with_reducible apply Keeps.foldl (I := I) | with_reducible apply Keeps.foldl₂ (I := I) | with_reducible apply Keeps.ite (I := I) | exact hc.mono (by decide +kernel) | split | intro s _ _ hk | intro s _ hk | intro s hk | with_reducible exact hk

def Touched.schedPut : Touch :=
  { regs := [F.TR_EVENT_SPAWN_DROP, F.SK_STATUS_BURST_FREE_KIB, F.SK_EVENT, F.SKS_SEQ, F.SKS_STATUS_RESIDENT,
      F.SKS_OVERWRITE, F.LOOM_EVENT, F.LOOM_EVT_OVF, F.LOOM_OVF_ROUTE, F.SCHED_STATUS_FREE_SLOTS, F.SCHED_EVENT,
      F.SCHED_EVT_UNBOUND_CNT, F.SCHED_TEMPLATE_MISS_CNT, F.PS_USED, F.LVL_RDY_DEPTH, F.FLOW_STATE_PENDING,
      F.PWR_STATUS_WAKE_PEND, F.PWR_STATUS_PHASE, F.PWR_WAKE_SRC, F.PWR_WAKE_MERGED],
    parts := [.skein, .treadles, .sched, .power, .freeCtr] }

theorem keeps_schedPut (hc : Closed I Touched.schedPut) {s : State} (hk : Holds I s) (er : Nat) (data : Nat) : Holds I (State.schedPut s er data) := by
  have c_offerEvent' : Closed I Touched.offerEvent := hc.mono (by decide +kernel)
  unfold State.schedPut
  try dsimp only
  repeat' first | (guard_target =ₐ Holds I s; exact hk) | simp only [id_eq] | with_reducible apply keeps_offerEvent c_offerEvent' | with_reducible apply Keeps.foldl (I := I) | with_reducible apply Keeps.foldl₂ (I := I) | with_reducible apply Keeps.ite (I := I) | split | intro s _ _ hk | intro s _ hk | intro s hk | with_reducible exact hk

def Touched.spawnTask : Touch :=
  { regs := [F.TR_EVENT_SPAWN_DROP, F.SK_STATUS_BURST_FREE_KIB, F.SK_EVENT, F.SKS_SEQ, F.SKS_STATUS_RESIDENT,
      F.SKS_OVERWRITE, F.SCHED_STATUS_FREE_SLOTS, F.SCHED_STATUS_INFLIGHT, F.SCHED_EVENT, F.SCHED_DISPATCH_CNT,
      F.SCHED_EVT_UNBOUND_CNT, F.SCHED_TEMPLATE_MISS_CNT, F.PS_USED, F.SH_STATUS_STATE, F.SH_STATUS_SLOT,
      F.SH_LOAD, F.LVL_RDY_DEPTH, F.LVL_WAIT_AVG, F.LVL_HIST, F.FLOW_STATE_IN_SERVICE, F.FLOW_STATE_PENDING,
      F.PWR_STATUS_WAKE_PEND, F.PWR_STATUS_PHASE, F.PWR_STATUS_STATE, F.PWR_WAKE_SRC, F.PWR_WAKE_MERGED, F.PWR_RES,
      F.PWR_ENTRIES],
    parts := [.skein, .treadles, .sched, .power, .sram, .dram, .dlm, .freeCtr] }

theorem keeps_spawnTask (hc : Closed I Touched.spawnTask) {s : State} (hk : Holds I s) (p : Nat) (tpl : Nat) (arg : Nat) : Holds I (State.spawnTask s p tpl arg) := by
  have c_treadleEvent' : Closed I Touched.treadleEvent := hc.mono (by decide +kernel)
  have c_dispatch' : Closed I Touched.dispatch := hc.mono (by decide +kernel)
  have c_serve' : Closed I Touched.serve := hc.mono (by decide +kernel)
  have c_addClaim' : Closed I Touched.addClaim := hc.mono (by decide +kernel)
  have c_putTreadle' : Closed I Touched.putTreadle := hc.mono (by decide +kernel)
  unfold State.spawnTask
  try dsimp only
  repeat' first | (guard_target =ₐ Holds I s; exact hk) | simp only [id_eq] | with_reducible apply keeps_treadleEvent c_treadleEvent' | with_reducible apply keeps_wr | with_reducible apply keeps_dispatch c_dispatch' | with_reducible apply keeps_serve c_serve' | with_reducible apply keeps_addClaim c_addClaim' | with_reducible apply keeps_putTreadle c_putTreadle' | with_reducible apply Keeps.foldl (I := I) | with_reducible apply Keeps.foldl₂ (I := I) | with_reducible apply Keeps.ite (I := I) | exact hc.mono (by decide +kernel) | split | intro s _ _ hk | intro s _ hk | intro s hk | with_reducible exact hk

end Sys2Proof.Machine
end

