-- ==== Sys2Proof/Laws/Keeps/RingOps.lean ====
section
/-! SUPPORT.  What the operations of Machine/RingOps.lean touch, and that they keep every property
closed under it. -/

namespace Sys2Proof.Machine

open Sys2Proof

set_option Elab.async false
set_option linter.unusedSimpArgs false
set_option linter.unusedVariables false
set_option linter.unusedTactic false
set_option linter.unreachableTactic false

variable {I : State → Prop}

def Touched.ringEvent : Touch :=
  { regs := [F.RING_EVENT] }

theorem keeps_ringEvent (hc : Closed I Touched.ringEvent) {s : State} (hk : Holds I s) (r : Nat) (bit : Nat) : Holds I (State.ringEvent s r bit) := by
  unfold State.ringEvent
  try dsimp only
  repeat' first | (guard_target =ₐ Holds I s; exact hk) | simp only [id_eq] | with_reducible apply keeps_setBit | with_reducible apply Keeps.foldl (I := I) | with_reducible apply Keeps.foldl₂ (I := I) | with_reducible apply Keeps.ite (I := I) | exact hc.mono (by decide +kernel) | split | intro s _ _ hk | intro s _ hk | intro s hk | with_reducible exact hk

def Touched.switchPair : Touch :=
  { regs := [F.RING_STATUS_BYPASSED, F.RING_EVENT, F.RING_BREAK_CNT_SEL_CNT, F.TD_WITNESS],
    parts := [.tandem] }

theorem keeps_switchPair (hc : Closed I Touched.switchPair) {s : State} (hk : Holds I s) (r : Nat) (closed : Bool) : Holds I (State.switchPair s r closed) := by
  have c_lapseWitness' : Closed I Touched.lapseWitness := hc.mono (by decide +kernel)
  have c_ringEvent' : Closed I Touched.ringEvent := hc.mono (by decide +kernel)
  unfold State.switchPair
  try dsimp only
  repeat' first | (guard_target =ₐ Holds I s; exact hk) | simp only [id_eq] | with_reducible apply keeps_lapseWitness c_lapseWitness' | with_reducible apply keeps_ringEvent c_ringEvent' | with_reducible apply keeps_bump | with_reducible apply keeps_wr | with_reducible apply Keeps.foldl (I := I) | with_reducible apply Keeps.foldl₂ (I := I) | with_reducible apply Keeps.ite (I := I) | exact hc.mono (by decide +kernel) | split | intro s _ _ hk | intro s _ hk | intro s hk | with_reducible exact hk

def Touched.feedReverse : Touch :=
  { regs := [F.RS_ST_STATUS_REVERSE_FED] }

theorem keeps_feedReverse (hc : Closed I Touched.feedReverse) {s : State} (hk : Holds I s) (r : Nat) (hop : Nat) : Holds I (State.feedReverse s r hop) := by
  unfold State.feedReverse
  try dsimp only
  repeat' first | (guard_target =ₐ Holds I s; exact hk) | simp only [id_eq] | with_reducible apply keeps_each | with_reducible apply keeps_wr | with_reducible apply Keeps.foldl (I := I) | with_reducible apply Keeps.foldl₂ (I := I) | with_reducible apply Keeps.ite (I := I) | exact hc.mono (by decide +kernel) | split | intro s _ _ hk | intro s _ hk | intro s hk | with_reducible exact hk

def Touched.bypassRing : Touch :=
  { regs := [F.RING_STATUS_BROKEN, F.RING_STATUS_BYPASSED, F.RING_STATUS_STATE, F.RING_EVENT, F.RING_BREAK_CNT_SEL_CNT,
      F.RS_ST_STATUS_REVERSE_FED, F.TD_WITNESS],
    parts := [.tandem, .rings] }

theorem keeps_bypassRing (hc : Closed I Touched.bypassRing) {s : State} (hk : Holds I s) (r : Nat) : Holds I (State.bypassRing s r) := by
  have c_switchPair' : Closed I Touched.switchPair := hc.mono (by decide +kernel)
  have c_feedReverse' : Closed I Touched.feedReverse := hc.mono (by decide +kernel)
  have c_putRing' : Closed I Touched.putRing := hc.mono (by decide +kernel)
  unfold State.bypassRing
  try dsimp only
  repeat' first | (guard_target =ₐ Holds I s; exact hk) | simp only [id_eq] | with_reducible apply keeps_wr | with_reducible apply keeps_switchPair c_switchPair' | with_reducible apply keeps_feedReverse c_feedReverse' | with_reducible apply keeps_putRing c_putRing' | with_reducible apply Keeps.foldl (I := I) | with_reducible apply Keeps.foldl₂ (I := I) | with_reducible apply Keeps.ite (I := I) | exact hc.mono (by decide +kernel) | split | intro s _ _ hk | intro s _ hk | intro s hk | with_reducible exact hk

def Touched.discovered : Touch :=
  { regs := [F.RING_STATUS_AUTH, F.RING_STATUS_STATE, F.RING_RESULT, F.RS_ST_STATUS_ADMITTED, F.RS_ST_STATUS_AUTH,
      F.RS_ST_DELAY, F.RS_ST_LAT_REV_NS, F.RS_ST_LAT_FWD_NS],
    parts := [.rings] }

theorem keeps_discovered (hc : Closed I Touched.discovered) {s : State} (hk : Holds I s) (r : Nat) (delays : List Int) : Holds I (State.discovered s r delays) := by
  have c_putRing' : Closed I Touched.putRing := hc.mono (by decide +kernel)
  unfold State.discovered
  try dsimp only
  repeat' first | (guard_target =ₐ Holds I s; exact hk) | simp only [id_eq] | with_reducible apply keeps_putRing c_putRing' | with_reducible apply keeps_each | with_reducible apply keeps_wr | with_reducible apply keeps_wrI | with_reducible apply Keeps.foldl (I := I) | with_reducible apply Keeps.foldl₂ (I := I) | with_reducible apply Keeps.ite (I := I) | exact hc.mono (by decide +kernel) | split | intro s _ _ hk | intro s _ hk | intro s hk | with_reducible exact hk

def Touched.ringRecord : Touch :=
  { regs := [F.SK_STATUS_BURST_FREE_KIB, F.SK_EVENT, F.SKS_SEQ, F.SKS_STATUS_RESIDENT, F.SKS_OVERWRITE, F.RING_EVENT],
    parts := [.skein] }

theorem keeps_ringRecord (hc : Closed I Touched.ringRecord) {s : State} (hk : Holds I s) (r : Nat) (bit : Nat) (res : Nat) (detail : List Byte) : Holds I (State.ringRecord s r bit res detail) := by
  have c_event' : Closed I Touched.event := hc.mono (by decide +kernel)
  have c_ringEvent' : Closed I Touched.ringEvent := hc.mono (by decide +kernel)
  unfold State.ringRecord
  try dsimp only
  repeat' first | (guard_target =ₐ Holds I s; exact hk) | simp only [id_eq] | with_reducible apply keeps_event c_event' | with_reducible apply keeps_ringEvent c_ringEvent' | with_reducible apply Keeps.foldl (I := I) | with_reducible apply Keeps.foldl₂ (I := I) | with_reducible apply Keeps.ite (I := I) | split | intro s _ _ hk | intro s _ hk | intro s hk | with_reducible exact hk

def Touched.discoveryFails : Touch :=
  { regs := [F.SK_STATUS_BURST_FREE_KIB, F.SK_EVENT, F.SKS_SEQ, F.SKS_STATUS_RESIDENT, F.SKS_OVERWRITE,
      F.RING_STATUS_STATE, F.RING_EVENT, F.RING_RESULT],
    parts := [.skein] }

theorem keeps_discoveryFails (hc : Closed I Touched.discoveryFails) {s : State} (hk : Holds I s) (r : Nat) (res : Nat) : Holds I (State.discoveryFails s r res) := by
  have c_ringRecord' : Closed I Touched.ringRecord := hc.mono (by decide +kernel)
  unfold State.discoveryFails
  try dsimp only
  repeat' first | (guard_target =ₐ Holds I s; exact hk) | simp only [id_eq] | with_reducible apply keeps_ringRecord c_ringRecord' | with_reducible apply keeps_wr | with_reducible apply Keeps.foldl (I := I) | with_reducible apply Keeps.foldl₂ (I := I) | with_reducible apply Keeps.ite (I := I) | exact hc.mono (by decide +kernel) | split | intro s _ _ hk | intro s _ hk | intro s hk | with_reducible exact hk

def Touched.putRejoin : Touch :=
  { regs := [F.RJ_STATE] }

theorem keeps_putRejoin (hc : Closed I Touched.putRejoin) {s : State} (hk : Holds I s) (p : Nat) (r : Nat) (x : Nat) (b : Bool) : Holds I (State.putRejoin s p r x b) := by
  unfold State.putRejoin
  try dsimp only
  repeat' first | (guard_target =ₐ Holds I s; exact hk) | simp only [id_eq] | with_reducible apply keeps_wr | with_reducible apply Keeps.foldl (I := I) | with_reducible apply Keeps.foldl₂ (I := I) | with_reducible apply Keeps.ite (I := I) | exact hc.mono (by decide +kernel) | split | intro s _ _ hk | intro s _ hk | intro s hk | with_reducible exact hk

def Touched.dropStation : Touch :=
  { regs := [F.SK_STATUS_BURST_FREE_KIB, F.SK_EVENT, F.SKS_SEQ, F.SKS_STATUS_RESIDENT, F.SKS_OVERWRITE, F.CP_EVENT,
      F.RJ_STATE, F.RING_EVENT, F.RS_ST_STATUS_OK],
    parts := [.skein] }

theorem keeps_dropStation (hc : Closed I Touched.dropStation) {s : State} (hk : Holds I s) (r : Nat) (i : Nat) : Holds I (State.dropStation s r i) := by
  have c_putRejoin' : Closed I Touched.putRejoin := hc.mono (by decide +kernel)
  have c_event' : Closed I Touched.event := hc.mono (by decide +kernel)
  have c_ringRecord' : Closed I Touched.ringRecord := hc.mono (by decide +kernel)
  unfold State.dropStation
  try dsimp only
  repeat' first | (guard_target =ₐ Holds I s; exact hk) | simp only [id_eq] | with_reducible apply keeps_wr | with_reducible apply keeps_each | with_reducible apply keeps_putRejoin c_putRejoin' | with_reducible apply keeps_event c_event' | with_reducible apply keeps_setBit | with_reducible apply keeps_ringRecord c_ringRecord' | with_reducible apply Keeps.foldl (I := I) | with_reducible apply Keeps.foldl₂ (I := I) | with_reducible apply Keeps.ite (I := I) | exact hc.mono (by decide +kernel) | split | intro s _ _ hk | intro s _ hk | intro s hk | with_reducible exact hk

def Touched.firstSegment : Touch :=
  { regs := [F.RJ_STATE], parts := [.boot] }

theorem keeps_firstSegment (hc : Closed I Touched.firstSegment) {s : State} (hk : Holds I s) (r : Nat) (i : Nat) (wdog : Bool) : Holds I (State.firstSegment s r i wdog) := by
  have c_boot : Closed I { parts := [.boot] } := hc.mono (by decide +kernel)
  have c_putRejoin' : Closed I Touched.putRejoin := hc.mono (by decide +kernel)
  unfold State.firstSegment
  try dsimp only
  repeat' first | (guard_target =ₐ Holds I s; exact hk) | simp only [ic_mk, id_eq] | with_reducible refine ic_boot c_boot (ic_fold ?_) | with_reducible apply keeps_putRejoin c_putRejoin' | with_reducible apply Keeps.foldl (I := I) | with_reducible apply Keeps.foldl₂ (I := I) | with_reducible apply Keeps.ite (I := I) | split | intro s _ _ hk | intro s _ hk | intro s hk | with_reducible exact hk

def Touched.takeSegment : Touch :=
  { regs := [F.RJ_STATE, F.RS_ST_STATUS_MISS_RUN, F.RS_ST_STATUS_LAST_STATUS], parts := [.boot, .rings] }

theorem keeps_takeSegment (hc : Closed I Touched.takeSegment) {s : State} (hk : Holds I s) (r : Nat) (g : SegRx) : Holds I (State.takeSegment s r g) := by
  have c_putRing' : Closed I Touched.putRing := hc.mono (by decide +kernel)
  have c_firstSegment' : Closed I Touched.firstSegment := hc.mono (by decide +kernel)
  unfold State.takeSegment
  try dsimp only
  repeat' first | (guard_target =ₐ Holds I s; exact hk) | simp only [id_eq] | with_reducible apply keeps_putRing c_putRing' | with_reducible apply keeps_wr | with_reducible apply keeps_firstSegment c_firstSegment' | with_reducible apply Keeps.foldl (I := I) | with_reducible apply Keeps.foldl₂ (I := I) | with_reducible apply Keeps.ite (I := I) | exact hc.mono (by decide +kernel) | split | intro s _ _ hk | intro s _ hk | intro s hk | with_reducible exact hk

def Touched.staleCells : Touch :=
  { parts := [.cells] }

theorem keeps_staleCells (hc : Closed I Touched.staleCells) {s : State} (hk : Holds I s) (r : Nat) (i : Nat) : Holds I (State.staleCells s r i) := by
  have c_cells : Closed I { parts := [.cells] } := hc.mono (by decide +kernel)
  unfold State.staleCells
  try dsimp only
  repeat' first | (guard_target =ₐ Holds I s; exact hk) | simp only [ic_mk, id_eq] | with_reducible refine ic_cells c_cells (ic_fold ?_) | with_reducible apply Keeps.foldl (I := I) | with_reducible apply Keeps.foldl₂ (I := I) | with_reducible apply Keeps.ite (I := I) | split | intro s _ _ hk | intro s _ hk | intro s hk | with_reducible exact hk

def Touched.missStation : Touch :=
  { regs := [F.SK_STATUS_BURST_FREE_KIB, F.SK_EVENT, F.SKS_SEQ, F.SKS_STATUS_RESIDENT, F.SKS_OVERWRITE, F.CP_EVENT,
      F.RJ_STATE, F.RING_EVENT, F.RS_ST_STATUS_OK, F.RS_ST_STATUS_MISS_RUN],
    parts := [.skein, .cells] }

theorem keeps_missStation (hc : Closed I Touched.missStation) {s : State} (hk : Holds I s) (r : Nat) (i : Nat) : Holds I (State.missStation s r i) := by
  have c_staleCells' : Closed I Touched.staleCells := hc.mono (by decide +kernel)
  have c_dropStation' : Closed I Touched.dropStation := hc.mono (by decide +kernel)
  unfold State.missStation
  try dsimp only
  repeat' first | (guard_target =ₐ Holds I s; exact hk) | simp only [id_eq] | with_reducible apply keeps_staleCells c_staleCells' | with_reducible apply keeps_bump | with_reducible apply keeps_dropStation c_dropStation' | with_reducible apply Keeps.foldl (I := I) | with_reducible apply Keeps.foldl₂ (I := I) | with_reducible apply Keeps.ite (I := I) | exact hc.mono (by decide +kernel) | split | intro s _ _ hk | intro s _ hk | intro s hk | with_reducible exact hk

def Touched.ringRoutes : Touch :=
  { regs := [F.VR_VALUE] }

theorem keeps_ringRoutes (hc : Closed I Touched.ringRoutes) {s : State} (hk : Holds I s) (r : Nat) : Holds I (State.ringRoutes s r) := by
  unfold State.ringRoutes
  try dsimp only
  repeat' first | (guard_target =ₐ Holds I s; exact hk) | simp only [id_eq] | with_reducible apply keeps_each | with_reducible apply keeps_wr | with_reducible apply Keeps.foldl (I := I) | with_reducible apply Keeps.foldl₂ (I := I) | with_reducible apply Keeps.ite (I := I) | exact hc.mono (by decide +kernel) | split | intro s _ _ hk | intro s _ hk | intro s hk | with_reducible exact hk

def Touched.takeSegments : Touch :=
  { regs := [F.SK_STATUS_BURST_FREE_KIB, F.SK_EVENT, F.SKS_SEQ, F.SKS_STATUS_RESIDENT, F.SKS_OVERWRITE, F.VR_VALUE,
      F.CP_EVENT, F.RJ_STATE, F.RING_EVENT, F.RING_AUTH_CNT, F.RS_ST_STATUS_OK, F.RS_ST_STATUS_MISS_RUN,
      F.RS_ST_STATUS_LAST_STATUS],
    parts := [.skein, .cells, .boot, .rings] }

theorem keeps_takeSegments (hc : Closed I Touched.takeSegments) {s : State} (hk : Holds I s) (r : Nat) (cycle : Nat) (segs : List SegRx) : Holds I (State.takeSegments s r cycle segs) := by
  have c_ringEvent' : Closed I Touched.ringEvent := hc.mono (by decide +kernel)
  have c_takeSegment' : Closed I Touched.takeSegment := hc.mono (by decide +kernel)
  have c_missStation' : Closed I Touched.missStation := hc.mono (by decide +kernel)
  have c_ringRoutes' : Closed I Touched.ringRoutes := hc.mono (by decide +kernel)
  unfold State.takeSegments
  try dsimp only
  repeat' first | (guard_target =ₐ Holds I s; exact hk) | simp only [id_eq] | with_reducible apply keeps_each | with_reducible apply keeps_ringEvent c_ringEvent' | with_reducible apply keeps_roll | with_reducible apply keeps_takeSegment c_takeSegment' | with_reducible apply keeps_missStation c_missStation' | with_reducible apply keeps_ringRoutes c_ringRoutes' | with_reducible apply Keeps.foldl (I := I) | with_reducible apply Keeps.foldl₂ (I := I) | with_reducible apply Keeps.ite (I := I) | exact hc.mono (by decide +kernel) | split | intro s _ _ hk | intro s _ hk | intro s hk | with_reducible exact hk

def Touched.takeMailbox : Touch :=
  { regs := [F.SK_STATUS_BURST_FREE_KIB, F.SK_EVENT, F.SKS_SEQ, F.SKS_STATUS_RESIDENT, F.SKS_OVERWRITE, F.RING_EVENT,
      F.RING_MBX_STATUS_RSP_LEN, F.RING_MBX_STATUS_STATE, F.RING_MBX_RX, F.RS_ST_STATUS_OK],
    parts := [.skein, .rings] }

theorem keeps_takeMailbox (hc : Closed I Touched.takeMailbox) {s : State} (hk : Holds I s) (r : Nat) (cycle : Nat) (m : MbxSlot) (segs : List SegRx) : Holds I (State.takeMailbox s r cycle m segs) := by
  have c_putRing' : Closed I Touched.putRing := hc.mono (by decide +kernel)
  have c_ringEvent' : Closed I Touched.ringEvent := hc.mono (by decide +kernel)
  have c_ringRecord' : Closed I Touched.ringRecord := hc.mono (by decide +kernel)
  unfold State.takeMailbox
  try dsimp only
  repeat' first | (guard_target =ₐ Holds I s; exact hk) | simp only [id_eq] | with_reducible apply keeps_putRing c_putRing' | with_reducible apply keeps_wr | with_reducible apply keeps_each | with_reducible apply keeps_ringEvent c_ringEvent' | with_reducible apply keeps_ringRecord c_ringRecord' | with_reducible apply Keeps.foldl (I := I) | with_reducible apply Keeps.foldl₂ (I := I) | with_reducible apply Keeps.ite (I := I) | exact hc.mono (by decide +kernel) | split | intro s _ _ hk | intro s _ hk | intro s hk | with_reducible exact hk

def Touched.endCycle : Touch :=
  { regs := [F.SK_STATUS_BURST_FREE_KIB, F.SK_EVENT, F.SKS_SEQ, F.SKS_STATUS_RESIDENT, F.SKS_OVERWRITE, F.ODO_OUT,
      F.ODO_OUT_SAT, F.VR_VALUE, F.CP_EVENT, F.RJ_STATE, F.RING_EVENT, F.RING_RX_LAST, F.RING_AUTH_CNT,
      F.RING_MBX_STATUS_RSP_LEN, F.RING_MBX_STATUS_STATE, F.RING_MBX_RX, F.RS_ST_STATUS_OK,
      F.RS_ST_STATUS_MISS_RUN, F.RS_ST_STATUS_LAST_STATUS],
    parts := [.skein, .cells, .fio, .loom, .boot, .rings] }

theorem keeps_endCycle (hc : Closed I Touched.endCycle) {s : State} (hk : Holds I s) (r : Nat) (c : Instant) (cycle : Nat) (segs : List SegRx) (mbx : List MbxSlot) : Holds I (State.endCycle s r c cycle segs mbx) := by
  have c_takeSegments' : Closed I Touched.takeSegments := hc.mono (by decide +kernel)
  have c_takeMailbox' : Closed I Touched.takeMailbox := hc.mono (by decide +kernel)
  have c_putRing' : Closed I Touched.putRing := hc.mono (by decide +kernel)
  have c_settle' : Closed I Touched.settle := hc.mono (by decide +kernel)
  unfold State.endCycle
  try dsimp only
  repeat' first | (guard_target =ₐ Holds I s; exact hk) | simp only [id_eq] | with_reducible apply keeps_takeSegments c_takeSegments' | with_reducible apply keeps_takeMailbox c_takeMailbox' | with_reducible apply keeps_putRing c_putRing' | with_reducible apply keeps_settle c_settle' | with_reducible apply keeps_wr | with_reducible apply Keeps.foldl (I := I) | with_reducible apply Keeps.foldl₂ (I := I) | with_reducible apply Keeps.ite (I := I) | exact hc.mono (by decide +kernel) | split | intro s _ _ hk | intro s _ hk | intro s hk | with_reducible exact hk

def Touched.loseFrame : Touch :=
  { regs := [F.RING_EVENT, F.RING_LOST_CNT], parts := [.rings] }

theorem keeps_loseFrame (hc : Closed I Touched.loseFrame) {s : State} (hk : Holds I s) (r : Nat) : Holds I (State.loseFrame s r) := by
  have c_putRing' : Closed I Touched.putRing := hc.mono (by decide +kernel)
  have c_ringEvent' : Closed I Touched.ringEvent := hc.mono (by decide +kernel)
  unfold State.loseFrame
  try dsimp only
  repeat' first | (guard_target =ₐ Holds I s; exact hk) | simp only [id_eq] | with_reducible apply keeps_putRing c_putRing' | with_reducible apply keeps_ringEvent c_ringEvent' | with_reducible apply keeps_bump | with_reducible apply Keeps.foldl (I := I) | with_reducible apply Keeps.foldl₂ (I := I) | with_reducible apply Keeps.ite (I := I) | exact hc.mono (by decide +kernel) | split | intro s _ _ hk | intro s _ hk | intro s hk | with_reducible exact hk

def Touched.noteBreak : Touch :=
  { regs := [F.RING_STATUS_BREAK_POS, F.RS_ST_STATUS_REVERSE_FED] }

theorem keeps_noteBreak (hc : Closed I Touched.noteBreak) {s : State} (hk : Holds I s) (r : Nat) (hop : Nat) : Holds I (State.noteBreak s r hop) := by
  have c_feedReverse' : Closed I Touched.feedReverse := hc.mono (by decide +kernel)
  unfold State.noteBreak
  try dsimp only
  repeat' first | (guard_target =ₐ Holds I s; exact hk) | simp only [id_eq] | with_reducible apply keeps_feedReverse c_feedReverse' | with_reducible apply keeps_wr | with_reducible apply Keeps.foldl (I := I) | with_reducible apply Keeps.foldl₂ (I := I) | with_reducible apply Keeps.ite (I := I) | exact hc.mono (by decide +kernel) | split | intro s _ _ hk | intro s _ hk | intro s hk | with_reducible exact hk

def Touched.noteCycle : Touch :=
  { parts := [.rings] }

theorem keeps_noteCycle (hc : Closed I Touched.noteCycle) {s : State} (hk : Holds I s) (r : Nat) (k : Nat) : Holds I (State.noteCycle s r k) := by
  have c_putRing' : Closed I Touched.putRing := hc.mono (by decide +kernel)
  unfold State.noteCycle
  try dsimp only
  repeat' first | (guard_target =ₐ Holds I s; exact hk) | simp only [id_eq] | with_reducible apply keeps_putRing c_putRing' | with_reducible apply Keeps.foldl (I := I) | with_reducible apply Keeps.foldl₂ (I := I) | with_reducible apply Keeps.ite (I := I) | split | intro s _ _ hk | intro s _ hk | intro s hk | with_reducible exact hk

def Touched.ringSend : Touch :=
  { parts := [.rings] }

theorem keeps_ringSend (hc : Closed I Touched.ringSend) {s : State} (hk : Holds I s) (r : Nat) (o : Nat) (a : List Byte) : Holds I (State.ringSend s r o a) := by
  have c_putRing' : Closed I Touched.putRing := hc.mono (by decide +kernel)
  induction a generalizing s r o with
  | nil =>
    unfold State.ringSend
    try dsimp only
    repeat' first | (guard_target =ₐ Holds I s; exact hk) | simp only [id_eq] | with_reducible apply keeps_putRing c_putRing' | with_reducible apply Keeps.foldl (I := I) | with_reducible apply Keeps.foldl₂ (I := I) | with_reducible apply Keeps.ite (I := I) | split | intro s _ _ hk | intro s _ hk | intro s hk | with_reducible exact hk
  | cons _ _ ih =>
    unfold State.ringSend
    try dsimp only
    repeat' first | (guard_target =ₐ Holds I s; exact hk) | simp only [id_eq] | with_reducible apply ih | with_reducible apply keeps_putRing c_putRing' | with_reducible apply Keeps.foldl (I := I) | with_reducible apply Keeps.foldl₂ (I := I) | with_reducible apply Keeps.ite (I := I) | split | intro s _ _ hk | intro s _ hk | intro s hk | with_reducible exact hk | cases ‹_ :: _ = _ :: _›

def Touched.sendStation : Touch :=
  { regs := [F.ODO_OUT, F.ODO_OUT_SAT], parts := [.loom, .rings] }

theorem keeps_sendStation (hc : Closed I Touched.sendStation) {s : State} (hk : Holds I s) (r : Nat) (x : Nat) (c : StationCfg) : Holds I (State.sendStation s r x c) := by
  have c_takeLevel' : Closed I Touched.takeLevel := hc.mono (by decide +kernel)
  have c_putRing' : Closed I Touched.putRing := hc.mono (by decide +kernel)
  unfold State.sendStation
  try dsimp only
  repeat' first | (guard_target =ₐ Holds I s; exact hk) | simp only [id_eq] | with_reducible apply keeps_each | with_reducible apply keeps_takeLevel c_takeLevel' | with_reducible apply keeps_putRing c_putRing' | with_reducible apply Keeps.foldl (I := I) | with_reducible apply Keeps.foldl₂ (I := I) | with_reducible apply Keeps.ite (I := I) | split | intro s _ _ hk | intro s _ hk | intro s hk | with_reducible exact hk

def Touched.takeRingKey : Touch :=
  { regs := [F.SEC_RING_KEYS_PENDING, F.SEC_RING_KEYS_KEYED], parts := [.sec, .rings] }

theorem keeps_takeRingKey (hc : Closed I Touched.takeRingKey) {s : State} (hk : Holds I s) (r : Nat) : Holds I (State.takeRingKey s r) := by
  have c_sec : Closed I { parts := [.sec] } := hc.mono (by decide +kernel)
  have c_putRing' : Closed I Touched.putRing := hc.mono (by decide +kernel)
  unfold State.takeRingKey
  try dsimp only
  repeat' first | (guard_target =ₐ Holds I s; exact hk) | simp only [ic_mk, id_eq] | with_reducible refine ic_sec c_sec (ic_fold ?_) | with_reducible apply keeps_putRing c_putRing' | with_reducible apply keeps_wr | with_reducible apply Keeps.foldl (I := I) | with_reducible apply Keeps.foldl₂ (I := I) | with_reducible apply Keeps.ite (I := I) | exact hc.mono (by decide +kernel) | split | intro s _ _ hk | intro s _ hk | intro s hk | with_reducible exact hk

def Touched.startDiscovery : Touch :=
  { regs := [F.RING_STATUS_STATE, F.SEC_RING_KEYS_PENDING, F.SEC_RING_KEYS_KEYED], parts := [.sec, .rings] }

theorem keeps_startDiscovery (hc : Closed I Touched.startDiscovery) {s : State} (hk : Holds I s) (r : Nat) : Holds I (State.startDiscovery s r) := by
  have c_takeRingKey' : Closed I Touched.takeRingKey := hc.mono (by decide +kernel)
  have c_putRing' : Closed I Touched.putRing := hc.mono (by decide +kernel)
  unfold State.startDiscovery
  try dsimp only
  repeat' first | (guard_target =ₐ Holds I s; exact hk) | simp only [id_eq] | with_reducible apply keeps_takeRingKey c_takeRingKey' | with_reducible apply keeps_putRing c_putRing' | with_reducible apply keeps_wr | with_reducible apply Keeps.foldl (I := I) | with_reducible apply Keeps.foldl₂ (I := I) | with_reducible apply Keeps.ite (I := I) | exact hc.mono (by decide +kernel) | split | intro s _ _ hk | intro s _ hk | intro s hk | with_reducible exact hk

def Touched.syncRing : Touch :=
  { regs := [F.RING_STATUS_BROKEN, F.RING_STATUS_BYPASSED, F.RING_STATUS_STATE, F.RING_EVENT, F.RING_BREAK_CNT_SEL_CNT,
      F.RS_ST_STATUS_REVERSE_FED, F.TD_WITNESS],
    parts := [.tandem, .rings] }

theorem keeps_syncRing (hc : Closed I Touched.syncRing) {s : State} (hk : Holds I s) (r : Nat) : Holds I (State.syncRing s r) := by
  have c_putRing' : Closed I Touched.putRing := hc.mono (by decide +kernel)
  have c_switchPair' : Closed I Touched.switchPair := hc.mono (by decide +kernel)
  have c_bypassRing' : Closed I Touched.bypassRing := hc.mono (by decide +kernel)
  unfold State.syncRing
  try dsimp only
  repeat' first | (guard_target =ₐ Holds I s; exact hk) | simp only [id_eq] | with_reducible apply keeps_putRing c_putRing' | with_reducible apply keeps_wr | with_reducible apply keeps_switchPair c_switchPair' | with_reducible apply keeps_bypassRing c_bypassRing' | with_reducible apply Keeps.foldl (I := I) | with_reducible apply Keeps.foldl₂ (I := I) | with_reducible apply Keeps.ite (I := I) | exact hc.mono (by decide +kernel) | split | intro s _ _ hk | intro s _ hk | intro s hk | with_reducible exact hk

end Sys2Proof.Machine
end

