-- ==== Sys2Proof/Laws/Keeps/TapOps.lean ====
section
/-! SUPPORT.  What the operations of Machine/TapOps.lean touch, and that they keep every property
closed under it. -/

namespace Sys2Proof.Machine

open Sys2Proof

set_option Elab.async false
set_option linter.unusedSimpArgs false
set_option linter.unusedVariables false
set_option linter.unusedTactic false
set_option linter.unreachableTactic false

variable {I : State → Prop}

def Touched.dropSample : Touch :=
  { regs := [F.SK_STATUS_BURST_FREE_KIB, F.SK_EVENT, F.SKS_SEQ, F.SKS_STATUS_RESIDENT, F.SKS_STATUS_GAP_OPEN,
      F.SKS_DISCARD, F.SKS_OVERWRITE, F.TAP_DISCARD],
    parts := [.skein] }

theorem keeps_dropSample (hc : Closed I Touched.dropSample) {s : State} (hk : Holds I s) (k : Nat) (n : Nat) (cause : Nat) (at_ : Instant) : Holds I (State.dropSample s k n cause at_) := by
  have c_endRun' : Closed I Touched.endRun := hc.mono (by decide +kernel)
  have c_skEvent' : Closed I Touched.skEvent := hc.mono (by decide +kernel)
  have c_putStream' : Closed I Touched.putStream := hc.mono (by decide +kernel)
  unfold State.dropSample
  try dsimp only
  repeat' first | (guard_target =ₐ Holds I s; exact hk) | simp only [id_eq] | with_reducible apply keeps_each | with_reducible apply keeps_endRun c_endRun' | with_reducible apply keeps_skEvent c_skEvent' | with_reducible apply keeps_wr | with_reducible apply keeps_putStream c_putStream' | with_reducible apply keeps_when | with_reducible apply keeps_bump | with_reducible apply Keeps.foldl (I := I) | with_reducible apply Keeps.foldl₂ (I := I) | with_reducible apply Keeps.ite (I := I) | exact hc.mono (by decide +kernel) | split | intro s _ _ hk | intro s _ hk | intro s hk | with_reducible exact hk

def Touched.endGap : Touch :=
  { regs := [F.SK_STATUS_BURST_FREE_KIB, F.SK_EVENT, F.SKS_SEQ, F.SKS_STATUS_RESIDENT, F.SKS_STATUS_GAP_OPEN,
      F.SKS_OVERWRITE],
    parts := [.skein] }

theorem keeps_endGap (hc : Closed I Touched.endGap) {s : State} (hk : Holds I s) (k : Nat) (g : Gap) (at_ : Instant) : Holds I (State.endGap s k g at_) := by
  have c_record' : Closed I Touched.record := hc.mono (by decide +kernel)
  have c_putStream' : Closed I Touched.putStream := hc.mono (by decide +kernel)
  unfold State.endGap
  try dsimp only
  repeat' first | (guard_target =ₐ Holds I s; exact hk) | simp only [id_eq] | with_reducible apply keeps_record c_record' | with_reducible apply keeps_wr | with_reducible apply keeps_putStream c_putStream' | with_reducible apply Keeps.foldl (I := I) | with_reducible apply Keeps.foldl₂ (I := I) | with_reducible apply Keeps.ite (I := I) | exact hc.mono (by decide +kernel) | split | intro s _ _ hk | intro s _ hk | intro s hk | with_reducible exact hk

def Touched.putTapMem : Touch :=
  { parts := [.skein] }

theorem keeps_putTapMem (hc : Closed I Touched.putTapMem) {s : State} (hk : Holds I s) (n : Nat) (m : TapMem) : Holds I (State.putTapMem s n m) := by
  have c_skein : Closed I { parts := [.skein] } := hc.mono (by decide +kernel)
  unfold State.putTapMem
  try dsimp only
  repeat' first | (guard_target =ₐ Holds I s; exact hk) | simp only [ic_mk, id_eq] | with_reducible refine ic_skein c_skein (ic_fold ?_) | with_reducible apply Keeps.foldl (I := I) | with_reducible apply Keeps.foldl₂ (I := I) | with_reducible apply Keeps.ite (I := I) | split | intro s _ _ hk | intro s _ hk | intro s hk | with_reducible exact hk

def Touched.lateTap : Touch :=
  { regs := [F.SK_STATUS_BURST_FREE_KIB, F.SK_EVENT, F.SKS_SEQ, F.SKS_STATUS_RESIDENT, F.SKS_OVERWRITE],
    parts := [.skein] }

theorem keeps_lateTap (hc : Closed I Touched.lateTap) {s : State} (hk : Holds I s) (at_ : Instant) (n : Nat) : Holds I (State.lateTap s at_ n) := by
  have c_putTapMem' : Closed I Touched.putTapMem := hc.mono (by decide +kernel)
  have c_record' : Closed I Touched.record := hc.mono (by decide +kernel)
  have c_endRun' : Closed I Touched.endRun := hc.mono (by decide +kernel)
  unfold State.lateTap
  try dsimp only
  repeat' first | (guard_target =ₐ Holds I s; exact hk) | simp only [id_eq] | with_reducible apply keeps_putTapMem c_putTapMem' | with_reducible apply keeps_record c_record' | with_reducible apply keeps_endRun c_endRun' | with_reducible apply Keeps.foldl (I := I) | with_reducible apply Keeps.foldl₂ (I := I) | with_reducible apply Keeps.ite (I := I) | split | intro s _ _ hk | intro s _ hk | intro s hk | with_reducible exact hk

def Touched.lateTaps : Touch :=
  { regs := [F.SK_STATUS_BURST_FREE_KIB, F.SK_EVENT, F.SKS_SEQ, F.SKS_STATUS_RESIDENT, F.SKS_OVERWRITE],
    parts := [.skein] }

theorem keeps_lateTaps (hc : Closed I Touched.lateTaps) {s : State} (hk : Holds I s) (kind : Nat) (id : Nat) (at_ : Instant) : Holds I (State.lateTaps s kind id at_) := by
  have c_lateTap' : Closed I Touched.lateTap := hc.mono (by decide +kernel)
  unfold State.lateTaps
  try dsimp only
  repeat' first | (guard_target =ₐ Holds I s; exact hk) | simp only [id_eq] | with_reducible apply keeps_each | with_reducible apply keeps_lateTap c_lateTap' | with_reducible apply Keeps.foldl (I := I) | with_reducible apply Keeps.foldl₂ (I := I) | with_reducible apply Keeps.ite (I := I) | split | intro s _ _ hk | intro s _ hk | intro s hk | with_reducible exact hk

def Touched.putSample : Touch :=
  { regs := [F.SK_STATUS_BURST_FREE_KIB, F.SK_EVENT, F.SKS_SEQ, F.SKS_STATUS_RESIDENT, F.SKS_OVERWRITE],
    parts := [.skein] }

theorem keeps_putSample (hc : Closed I Touched.putSample) {s : State} (hk : Holds I s) (k : Nat) (n : Nat) (at_ : Instant) (v : Word) (extra : Nat) : Holds I (State.putSample s k n at_ v extra) := by
  have c_skein : Closed I { parts := [.skein] } := hc.mono (by decide +kernel)
  have c_putStream' : Closed I Touched.putStream := hc.mono (by decide +kernel)
  have c_seal' : Closed I Touched.seal := hc.mono (by decide +kernel)
  have c_putTapMem' : Closed I Touched.putTapMem := hc.mono (by decide +kernel)
  unfold State.putSample
  try dsimp only
  repeat' first | (guard_target =ₐ Holds I s; exact hk) | simp only [ic_mk, id_eq] | with_reducible refine ic_skein c_skein (ic_fold ?_) | with_reducible apply keeps_putStream c_putStream' | with_reducible apply keeps_seal c_seal' | with_reducible apply keeps_putTapMem c_putTapMem' | with_reducible apply Keeps.foldl (I := I) | with_reducible apply Keeps.foldl₂ (I := I) | with_reducible apply Keeps.ite (I := I) | split | intro s _ _ hk | intro s _ hk | intro s hk | with_reducible exact hk

def Touched.offerOne : Touch :=
  { regs := [F.SK_STATUS_BURST_FREE_KIB, F.SK_EVENT, F.SKS_SEQ, F.SKS_STATUS_RESIDENT, F.SKS_STATUS_GAP_OPEN,
      F.SKS_DISCARD, F.SKS_OVERWRITE, F.TAP_DISCARD],
    parts := [.skein] }

theorem keeps_offerOne (hc : Closed I Touched.offerOne) {s : State} (hk : Holds I s) (k : Nat) (n : Nat) (at_ : Instant) (v : Word) (extra : Nat) : Holds I (State.offerOne s k n at_ v extra) := by
  have c_dropSample' : Closed I Touched.dropSample := hc.mono (by decide +kernel)
  have c_putSample' : Closed I Touched.putSample := hc.mono (by decide +kernel)
  have c_endGap' : Closed I Touched.endGap := hc.mono (by decide +kernel)
  unfold State.offerOne
  try dsimp only
  repeat' first | (guard_target =ₐ Holds I s; exact hk) | simp only [id_eq] | with_reducible apply keeps_dropSample c_dropSample' | with_reducible apply keeps_putSample c_putSample' | with_reducible apply keeps_endGap c_endGap' | with_reducible apply Keeps.foldl (I := I) | with_reducible apply Keeps.foldl₂ (I := I) | with_reducible apply Keeps.ite (I := I) | split | intro s _ _ hk | intro s _ hk | intro s hk | with_reducible exact hk

def Touched.offerSample : Touch :=
  { regs := [F.SK_STATUS_BURST_FREE_KIB, F.SK_EVENT, F.SKS_SEQ, F.SKS_STATUS_RESIDENT, F.SKS_STATUS_GAP_OPEN,
      F.SKS_DISCARD, F.SKS_OVERWRITE, F.TAP_DISCARD, F.PWR_STATUS_WAKE_PEND, F.PWR_STATUS_PHASE, F.PWR_WAKE_SRC,
      F.PWR_WAKE_MERGED],
    parts := [.skein, .power] }

theorem keeps_offerSample (hc : Closed I Touched.offerSample) {s : State} (hk : Holds I s) (k : Nat) (n : Nat) (at_ : Instant) (v : Word) : Holds I (State.offerSample s k n at_ v) := by
  have c_offerOne' : Closed I Touched.offerOne := hc.mono (by decide +kernel)
  have c_showBurst' : Closed I Touched.showBurst := hc.mono (by decide +kernel)
  have c_internalWake' : Closed I Touched.internalWake := hc.mono (by decide +kernel)
  unfold State.offerSample
  try dsimp only
  repeat' first | (guard_target =ₐ Holds I s; exact hk) | simp only [id_eq] | with_reducible apply keeps_offerOne c_offerOne' | with_reducible apply keeps_when | with_reducible apply keeps_each | with_reducible apply keeps_showBurst c_showBurst' | with_reducible apply keeps_internalWake c_internalWake' | with_reducible apply Keeps.foldl (I := I) | with_reducible apply Keeps.foldl₂ (I := I) | with_reducible apply Keeps.ite (I := I) | split | intro s _ _ hk | intro s _ hk | intro s hk | with_reducible exact hk

def Touched.takeTap : Touch :=
  { regs := [F.SK_STATUS_BURST_FREE_KIB, F.SK_EVENT, F.SKS_SEQ, F.SKS_STATUS_RESIDENT, F.SKS_STATUS_GAP_OPEN,
      F.SKS_DISCARD, F.SKS_OVERWRITE, F.TAP_DISCARD, F.PWR_STATUS_WAKE_PEND, F.PWR_STATUS_PHASE, F.PWR_WAKE_SRC,
      F.PWR_WAKE_MERGED],
    parts := [.skein, .power] }

theorem keeps_takeTap (hc : Closed I Touched.takeTap) {s : State} (hk : Holds I s) (n : Nat) (at_ : Instant) (v : Word) : Holds I (State.takeTap s n at_ v) := by
  have c_offerSample' : Closed I Touched.offerSample := hc.mono (by decide +kernel)
  have c_putTapMem' : Closed I Touched.putTapMem := hc.mono (by decide +kernel)
  unfold State.takeTap
  try dsimp only
  repeat' first | (guard_target =ₐ Holds I s; exact hk) | simp only [id_eq] | with_reducible apply keeps_offerSample c_offerSample' | with_reducible apply keeps_putTapMem c_putTapMem' | with_reducible apply Keeps.foldl (I := I) | with_reducible apply Keeps.foldl₂ (I := I) | with_reducible apply Keeps.ite (I := I) | split | intro s _ _ hk | intro s _ hk | intro s hk | with_reducible exact hk

end Sys2Proof.Machine
end

