-- ==== Sys2Proof/Laws/Keeps/CaptureOps.lean ====
section
/-! SUPPORT.  What the operations of Machine/CaptureOps.lean touch, and that they keep every property
closed under it. -/

namespace Sys2Proof.Machine

open Sys2Proof

set_option Elab.async false
set_option linter.unusedSimpArgs false
set_option linter.unusedVariables false
set_option linter.unusedTactic false
set_option linter.unreachableTactic false

variable {I : State → Prop}

def Touched.muEvent : Touch :=
  { regs := [F.SK_STATUS_BURST_FREE_KIB, F.SK_EVENT, F.SKS_SEQ, F.SKS_STATUS_RESIDENT, F.SKS_OVERWRITE, F.MU_EVENT],
    parts := [.skein] }

theorem keeps_muEvent (hc : Closed I Touched.muEvent) {s : State} (hk : Holds I s) (n : Nat) (bit : Nat) (detail : List Byte) : Holds I (State.muEvent s n bit detail) := by
  have c_event' : Closed I Touched.event := hc.mono (by decide +kernel)
  unfold State.muEvent
  try dsimp only
  repeat' first | (guard_target =ₐ Holds I s; exact hk) | simp only [id_eq] | with_reducible apply keeps_event c_event' | with_reducible apply keeps_setBit | with_reducible apply Keeps.foldl (I := I) | with_reducible apply Keeps.foldl₂ (I := I) | with_reducible apply Keeps.ite (I := I) | exact hc.mono (by decide +kernel) | split | intro s _ _ hk | intro s _ hk | intro s hk | with_reducible exact hk

def Touched.envRefused : Touch :=
  { regs := [F.SK_STATUS_BURST_FREE_KIB, F.SK_EVENT, F.SKS_SEQ, F.SKS_STATUS_RESIDENT, F.SKS_OVERWRITE, F.MU_EVENT],
    parts := [.skein] }

theorem keeps_envRefused (hc : Closed I Touched.envRefused) {s : State} (hk : Holds I s) (n : Nat) (env : Nat) : Holds I (State.envRefused s n env) := by
  have c_muEvent' : Closed I Touched.muEvent := hc.mono (by decide +kernel)
  unfold State.envRefused
  try dsimp only
  repeat' first | (guard_target =ₐ Holds I s; exact hk) | simp only [id_eq] | with_reducible apply keeps_muEvent c_muEvent' | with_reducible apply Keeps.foldl (I := I) | with_reducible apply Keeps.foldl₂ (I := I) | with_reducible apply Keeps.ite (I := I) | split | intro s _ _ hk | intro s _ hk | intro s hk | with_reducible exact hk

def Touched.putMask : Touch :=
  { parts := [.trig] }

theorem keeps_putMask (hc : Closed I Touched.putMask) {s : State} (hk : Holds I s) (n : Nat) (x : MaskUnit) : Holds I (State.putMask s n x) := by
  have c_trig : Closed I { parts := [.trig] } := hc.mono (by decide +kernel)
  unfold State.putMask
  try dsimp only
  repeat' first | (guard_target =ₐ Holds I s; exact hk) | simp only [ic_mk, id_eq] | with_reducible refine ic_trig c_trig (ic_fold ?_) | with_reducible apply Keeps.foldl (I := I) | with_reducible apply Keeps.foldl₂ (I := I) | with_reducible apply Keeps.ite (I := I) | split | intro s _ _ hk | intro s _ hk | intro s hk | with_reducible exact hk

def Touched.armMaskAt : Touch :=
  { regs := [F.SK_STATUS_BURST_FREE_KIB, F.SK_EVENT, F.SKS_SEQ, F.SKS_STATUS_RESIDENT, F.SKS_OVERWRITE,
      F.MU_STATUS_VIOL_RUN, F.MU_STATUS_ENV_NOW, F.MU_STATUS_STATE, F.MU_EVENT, F.MU_A],
    parts := [.skein, .trig] }

theorem keeps_armMaskAt (hc : Closed I Touched.armMaskAt) {s : State} (hk : Holds I s) (n : Nat) (env : Nat) (a : Instant) (byCommit : Bool) : Holds I (State.armMaskAt s n env a byCommit) := by
  have c_envRefused' : Closed I Touched.envRefused := hc.mono (by decide +kernel)
  have c_putMask' : Closed I Touched.putMask := hc.mono (by decide +kernel)
  unfold State.armMaskAt
  try dsimp only
  repeat' first | (guard_target =ₐ Holds I s; exact hk) | simp only [id_eq] | with_reducible apply keeps_envRefused c_envRefused' | with_reducible apply keeps_putMask c_putMask' | with_reducible apply keeps_wr | with_reducible apply keeps_wrT | with_reducible apply Keeps.foldl (I := I) | with_reducible apply Keeps.foldl₂ (I := I) | with_reducible apply Keeps.ite (I := I) | exact hc.mono (by decide +kernel) | split | intro s _ _ hk | intro s _ hk | intro s hk | with_reducible exact hk

def Touched.armMask : Touch :=
  { regs := [F.SK_STATUS_BURST_FREE_KIB, F.SK_EVENT, F.SKS_SEQ, F.SKS_STATUS_RESIDENT, F.SKS_OVERWRITE,
      F.MU_STATUS_VIOL_RUN, F.MU_STATUS_ENV_NOW, F.MU_STATUS_STATE, F.MU_EVENT, F.MU_A],
    parts := [.skein, .trig] }

theorem keeps_armMask (hc : Closed I Touched.armMask) {s : State} (hk : Holds I s) (n : Nat) (env : Nat) : Holds I (State.armMask s n env) := by
  have c_armMaskAt' : Closed I Touched.armMaskAt := hc.mono (by decide +kernel)
  unfold State.armMask
  try dsimp only
  repeat' first | (guard_target =ₐ Holds I s; exact hk) | simp only [id_eq] | with_reducible apply keeps_armMaskAt c_armMaskAt' | with_reducible apply Keeps.foldl (I := I) | with_reducible apply Keeps.foldl₂ (I := I) | with_reducible apply Keeps.ite (I := I) | split | intro s _ _ hk | intro s _ hk | intro s hk | with_reducible exact hk

def Touched.csRecord : Touch :=
  { regs := [F.SK_STATUS_BURST_FREE_KIB, F.SK_EVENT, F.SKS_SEQ, F.SKS_STATUS_RESIDENT, F.SKS_OVERWRITE],
    parts := [.skein] }

theorem keeps_csRecord (hc : Closed I Touched.csRecord) {s : State} (hk : Holds I s) (n : Nat) (bit : Nat) (res : Nat) : Holds I (State.csRecord s n bit res) := by
  have c_event' : Closed I Touched.event := hc.mono (by decide +kernel)
  unfold State.csRecord
  try dsimp only
  repeat' first | (guard_target =ₐ Holds I s; exact hk) | simp only [id_eq] | with_reducible apply keeps_event c_event' | with_reducible apply Keeps.foldl (I := I) | with_reducible apply Keeps.foldl₂ (I := I) | with_reducible apply Keeps.ite (I := I) | split | intro s _ _ hk | intro s _ hk | intro s hk | with_reducible exact hk

def Touched.csEvent : Touch :=
  { regs := [F.SK_STATUS_BURST_FREE_KIB, F.SK_EVENT, F.SKS_SEQ, F.SKS_STATUS_RESIDENT, F.SKS_OVERWRITE, F.CS_EVENT],
    parts := [.skein] }

theorem keeps_csEvent (hc : Closed I Touched.csEvent) {s : State} (hk : Holds I s) (n : Nat) (bit : Nat) (res : Nat) : Holds I (State.csEvent s n bit res) := by
  have c_csRecord' : Closed I Touched.csRecord := hc.mono (by decide +kernel)
  unfold State.csEvent
  try dsimp only
  repeat' first | (guard_target =ₐ Holds I s; exact hk) | simp only [id_eq] | with_reducible apply keeps_csRecord c_csRecord' | with_reducible apply keeps_setBit | with_reducible apply Keeps.foldl (I := I) | with_reducible apply Keeps.foldl₂ (I := I) | with_reducible apply Keeps.ite (I := I) | exact hc.mono (by decide +kernel) | split | intro s _ _ hk | intro s _ hk | intro s hk | with_reducible exact hk

def Touched.putCset : Touch :=
  { parts := [.trig] }

theorem keeps_putCset (hc : Closed I Touched.putCset) {s : State} (hk : Holds I s) (n : Nat) (x : CapSet) : Holds I (State.putCset s n x) := by
  have c_trig : Closed I { parts := [.trig] } := hc.mono (by decide +kernel)
  unfold State.putCset
  try dsimp only
  repeat' first | (guard_target =ₐ Holds I s; exact hk) | simp only [ic_mk, id_eq] | with_reducible refine ic_trig c_trig (ic_fold ?_) | with_reducible apply Keeps.foldl (I := I) | with_reducible apply Keeps.foldl₂ (I := I) | with_reducible apply Keeps.ite (I := I) | split | intro s _ _ hk | intro s _ hk | intro s hk | with_reducible exact hk

def Touched.beginFilling : Touch :=
  { regs := [F.CS_STATUS_STATE], parts := [.trig] }

theorem keeps_beginFilling (hc : Closed I Touched.beginFilling) {s : State} (hk : Holds I s) (n : Nat) : Holds I (State.beginFilling s n) := by
  have c_putCset' : Closed I Touched.putCset := hc.mono (by decide +kernel)
  unfold State.beginFilling
  try dsimp only
  repeat' first | (guard_target =ₐ Holds I s; exact hk) | simp only [id_eq] | with_reducible apply keeps_putCset c_putCset' | with_reducible apply keeps_wr | with_reducible apply Keeps.foldl (I := I) | with_reducible apply Keeps.foldl₂ (I := I) | with_reducible apply Keeps.ite (I := I) | exact hc.mono (by decide +kernel) | split | intro s _ _ hk | intro s _ hk | intro s hk | with_reducible exact hk

def Touched.armSet : Touch :=
  { regs := [F.SK_STATUS_BURST_FREE_KIB, F.SK_EVENT, F.SKS_SEQ, F.SKS_STATUS_RESIDENT, F.SKS_OVERWRITE,
      F.CS_STATUS_ARM_RESULT, F.CS_STATUS_STATE, F.CS_EVENT, F.CS_PRE_BYTES, F.CS_NEED_BYTES, F.POOL_FREE],
    parts := [.skein, .trig] }

theorem keeps_armSet (hc : Closed I Touched.armSet) {s : State} (hk : Holds I s) (n : Nat) : Holds I (State.armSet s n) := by
  have c_csEvent' : Closed I Touched.csEvent := hc.mono (by decide +kernel)
  have c_beginFilling' : Closed I Touched.beginFilling := hc.mono (by decide +kernel)
  have c_putCset' : Closed I Touched.putCset := hc.mono (by decide +kernel)
  unfold State.armSet
  try dsimp only
  repeat' first | (guard_target =ₐ Holds I s; exact hk) | simp only [id_eq] | with_reducible apply keeps_wr | with_reducible apply keeps_csEvent c_csEvent' | with_reducible apply keeps_beginFilling c_beginFilling' | with_reducible apply keeps_putCset c_putCset' | with_reducible apply Keeps.foldl (I := I) | with_reducible apply Keeps.foldl₂ (I := I) | with_reducible apply Keeps.ite (I := I) | exact hc.mono (by decide +kernel) | split | intro s _ _ hk | intro s _ hk | intro s hk | with_reducible exact hk

def Touched.tsEvent : Touch :=
  { regs := [F.SK_STATUS_BURST_FREE_KIB, F.SK_EVENT, F.SKS_SEQ, F.SKS_STATUS_RESIDENT, F.SKS_OVERWRITE, F.TS_EVENT],
    parts := [.skein] }

theorem keeps_tsEvent (hc : Closed I Touched.tsEvent) {s : State} (hk : Holds I s) (n : Nat) (bit : Nat) : Holds I (State.tsEvent s n bit) := by
  have c_event' : Closed I Touched.event := hc.mono (by decide +kernel)
  unfold State.tsEvent
  try dsimp only
  repeat' first | (guard_target =ₐ Holds I s; exact hk) | simp only [id_eq] | with_reducible apply keeps_event c_event' | with_reducible apply keeps_setBit | with_reducible apply Keeps.foldl (I := I) | with_reducible apply Keeps.foldl₂ (I := I) | with_reducible apply Keeps.ite (I := I) | exact hc.mono (by decide +kernel) | split | intro s _ _ hk | intro s _ hk | intro s hk | with_reducible exact hk

def Touched.putSeq : Touch :=
  { parts := [.trig] }

theorem keeps_putSeq (hc : Closed I Touched.putSeq) {s : State} (hk : Holds I s) (n : Nat) (x : TrigSeq) : Holds I (State.putSeq s n x) := by
  have c_trig : Closed I { parts := [.trig] } := hc.mono (by decide +kernel)
  unfold State.putSeq
  try dsimp only
  repeat' first | (guard_target =ₐ Holds I s; exact hk) | simp only [ic_mk, id_eq] | with_reducible refine ic_trig c_trig (ic_fold ?_) | with_reducible apply Keeps.foldl (I := I) | with_reducible apply Keeps.foldl₂ (I := I) | with_reducible apply Keeps.ite (I := I) | split | intro s _ _ hk | intro s _ hk | intro s hk | with_reducible exact hk

def Touched.enterState : Touch :=
  { regs := [F.TS_STATUS_STATE, F.TS_COUNTER, F.TS_TIMER], parts := [.trig] }

theorem keeps_enterState (hc : Closed I Touched.enterState) {s : State} (hk : Holds I s) (n : Nat) (x : Nat) (at_ : Instant) : Holds I (State.enterState s n x at_) := by
  have c_putSeq' : Closed I Touched.putSeq := hc.mono (by decide +kernel)
  unfold State.enterState
  try dsimp only
  repeat' first | (guard_target =ₐ Holds I s; exact hk) | simp only [id_eq] | with_reducible apply keeps_putSeq c_putSeq' | with_reducible apply keeps_wr | with_reducible apply Keeps.foldl (I := I) | with_reducible apply Keeps.foldl₂ (I := I) | with_reducible apply Keeps.ite (I := I) | exact hc.mono (by decide +kernel) | split | intro s _ _ hk | intro s _ hk | intro s hk | with_reducible exact hk

def Touched.armTrig : Touch :=
  { regs := [F.SK_STATUS_BURST_FREE_KIB, F.SK_EVENT, F.SKS_SEQ, F.SKS_STATUS_RESIDENT, F.SKS_OVERWRITE,
      F.TS_STATUS_RUNNING, F.TS_STATUS_STATE, F.TS_EVENT, F.TS_COUNTER, F.TS_TIMER, F.CS_STATUS_ARM_RESULT,
      F.CS_STATUS_STATE, F.CS_EVENT, F.CS_PRE_BYTES, F.CS_NEED_BYTES, F.POOL_FREE],
    parts := [.skein, .trig] }

theorem keeps_armTrig (hc : Closed I Touched.armTrig) {s : State} (hk : Holds I s) (n : Nat) : Holds I (State.armTrig s n) := by
  have c_tsEvent' : Closed I Touched.tsEvent := hc.mono (by decide +kernel)
  have c_putSeq' : Closed I Touched.putSeq := hc.mono (by decide +kernel)
  have c_enterState' : Closed I Touched.enterState := hc.mono (by decide +kernel)
  have c_armSet' : Closed I Touched.armSet := hc.mono (by decide +kernel)
  unfold State.armTrig
  try dsimp only
  repeat' first | (guard_target =ₐ Holds I s; exact hk) | simp only [id_eq] | with_reducible apply keeps_tsEvent c_tsEvent' | with_reducible apply keeps_putSeq c_putSeq' | with_reducible apply keeps_enterState c_enterState' | with_reducible apply keeps_wr | with_reducible apply keeps_armSet c_armSet' | with_reducible apply Keeps.foldl (I := I) | with_reducible apply Keeps.foldl₂ (I := I) | with_reducible apply Keeps.ite (I := I) | exact hc.mono (by decide +kernel) | split | intro s _ _ hk | intro s _ hk | intro s hk | with_reducible exact hk

def Touched.overflow : Touch :=
  { regs := [F.SK_STATUS_BURST_FREE_KIB, F.SK_EVENT, F.SKS_SEQ, F.SKS_STATUS_RESIDENT, F.SKS_OVERWRITE, F.CS_STATUS_STATE,
      F.CS_EVENT],
    parts := [.skein, .trig] }

theorem keeps_overflow (hc : Closed I Touched.overflow) {s : State} (hk : Holds I s) (n : Nat) (c : Nat) (at_ : Instant) : Holds I (State.overflow s n c at_) := by
  have c_csEvent' : Closed I Touched.csEvent := hc.mono (by decide +kernel)
  have c_putCset' : Closed I Touched.putCset := hc.mono (by decide +kernel)
  unfold State.overflow
  try dsimp only
  repeat' first | (guard_target =ₐ Holds I s; exact hk) | simp only [id_eq] | with_reducible apply keeps_wr | with_reducible apply keeps_csEvent c_csEvent' | with_reducible apply keeps_putCset c_putCset' | with_reducible apply Keeps.foldl (I := I) | with_reducible apply Keeps.foldl₂ (I := I) | with_reducible apply Keeps.ite (I := I) | exact hc.mono (by decide +kernel) | split | intro s _ _ hk | intro s _ hk | intro s hk | with_reducible exact hk

def Touched.closeChunk : Touch :=
  { regs := [F.TR_EVENT_SPAWN_DROP, F.SK_STATUS_BURST_FREE_KIB, F.SK_EVENT, F.SKS_SEQ, F.SKS_STATUS_RESIDENT,
      F.SKS_OVERWRITE, F.LOOM_EVENT, F.LOOM_EVT_OVF, F.LOOM_OVF_ROUTE, F.SCHED_STATUS_FREE_SLOTS,
      F.SCHED_STATUS_INFLIGHT, F.SCHED_EVENT, F.SCHED_DISPATCH_CNT, F.SCHED_EVT_UNBOUND_CNT,
      F.SCHED_TEMPLATE_MISS_CNT, F.PS_USED, F.HQ_DEPTH, F.HQ_MAXDEPTH, F.HQ_PUSH_CNT, F.HQ_BUSY_CNT,
      F.SH_STATUS_STATE, F.SH_STATUS_SLOT, F.SH_LOAD, F.LVL_RDY_DEPTH, F.LVL_WAIT_AVG, F.LVL_HIST,
      F.FLOW_STATE_IN_SERVICE, F.FLOW_STATE_PENDING, F.PWR_STATUS_WAKE_PEND, F.PWR_STATUS_PHASE,
      F.PWR_STATUS_STATE, F.PWR_WAKE_SRC, F.PWR_WAKE_MERGED, F.PWR_RES, F.PWR_ENTRIES, F.MSIX_PBA],
    parts := [.skein, .treadles, .trig, .sched, .host, .power, .sram, .dram, .dlm, .freeCtr] }

theorem keeps_closeChunk (hc : Closed I Touched.closeChunk) {s : State} (hk : Holds I s) (n : Nat) : Holds I (State.closeChunk s n).1 := by
  have c_dram : Closed I { parts := [.dram] } := hc.mono (by decide +kernel)
  have c_putCset' : Closed I Touched.putCset := hc.mono (by decide +kernel)
  have c_dispatch' : Closed I Touched.dispatch := hc.mono (by decide +kernel)
  have c_pushEntry' : Closed I Touched.pushEntry := hc.mono (by decide +kernel)
  unfold State.closeChunk
  try dsimp only
  repeat' first | (guard_target =ₐ Holds I s; exact hk) | simp only [ic_mk, id_eq] | with_reducible refine ic_dram c_dram (ic_fold ?_) | with_reducible apply keeps_putCset c_putCset' | with_reducible apply keeps_bump | with_reducible apply keeps_dispatch c_dispatch' | with_reducible apply keeps_pushEntry c_pushEntry' | with_reducible apply Keeps.foldl (I := I) | with_reducible apply Keeps.foldl₂ (I := I) | with_reducible apply Keeps.ite (I := I) | exact hc.mono (by decide +kernel) | split | intro s _ _ hk | intro s _ hk | intro s hk | with_reducible exact hk

def Touched.closeChunks : Touch :=
  { regs := [F.TR_EVENT_SPAWN_DROP, F.SK_STATUS_BURST_FREE_KIB, F.SK_EVENT, F.SKS_SEQ, F.SKS_STATUS_RESIDENT,
      F.SKS_OVERWRITE, F.CS_STATUS_STATE, F.CS_EVENT, F.LOOM_EVENT, F.LOOM_EVT_OVF, F.LOOM_OVF_ROUTE,
      F.SCHED_STATUS_FREE_SLOTS, F.SCHED_STATUS_INFLIGHT, F.SCHED_EVENT, F.SCHED_DISPATCH_CNT,
      F.SCHED_EVT_UNBOUND_CNT, F.SCHED_TEMPLATE_MISS_CNT, F.PS_USED, F.HQ_DEPTH, F.HQ_MAXDEPTH, F.HQ_PUSH_CNT,
      F.HQ_BUSY_CNT, F.SH_STATUS_STATE, F.SH_STATUS_SLOT, F.SH_LOAD, F.LVL_RDY_DEPTH, F.LVL_WAIT_AVG, F.LVL_HIST,
      F.FLOW_STATE_IN_SERVICE, F.FLOW_STATE_PENDING, F.PWR_STATUS_WAKE_PEND, F.PWR_STATUS_PHASE,
      F.PWR_STATUS_STATE, F.PWR_WAKE_SRC, F.PWR_WAKE_MERGED, F.PWR_RES, F.PWR_ENTRIES, F.MSIX_PBA],
    parts := [.skein, .treadles, .trig, .sched, .host, .power, .sram, .dram, .dlm, .freeCtr] }

theorem keeps_closeChunks (hc : Closed I Touched.closeChunks) {s : State} (hk : Holds I s) (n : Nat) (rest : Bool) (a : Nat) : Holds I (State.closeChunks s n rest a) := by
  have c_overflow' : Closed I Touched.overflow := hc.mono (by decide +kernel)
  have c_closeChunk' : Closed I Touched.closeChunk := hc.mono (by decide +kernel)
  have c_putCset' : Closed I Touched.putCset := hc.mono (by decide +kernel)
  have c_csEvent' : Closed I Touched.csEvent := hc.mono (by decide +kernel)
  induction a generalizing s n rest with
  | zero =>
    unfold State.closeChunks
    try dsimp only
    repeat' first | (guard_target =ₐ Holds I s; exact hk) | simp only [id_eq] | with_reducible apply keeps_overflow c_overflow' | with_reducible apply keeps_closeChunk c_closeChunk' | with_reducible apply keeps_putCset c_putCset' | with_reducible apply keeps_csEvent c_csEvent' | with_reducible apply Keeps.foldl (I := I) | with_reducible apply Keeps.foldl₂ (I := I) | with_reducible apply Keeps.ite (I := I) | split | intro s _ _ hk | intro s _ hk | intro s hk | with_reducible exact hk
  | succ _ ih =>
    unfold State.closeChunks
    try dsimp only
    repeat' first | (guard_target =ₐ Holds I s; exact hk) | simp only [id_eq] | with_reducible apply ih | with_reducible apply keeps_overflow c_overflow' | with_reducible apply keeps_closeChunk c_closeChunk' | with_reducible apply keeps_putCset c_putCset' | with_reducible apply keeps_csEvent c_csEvent' | with_reducible apply Keeps.foldl (I := I) | with_reducible apply Keeps.foldl₂ (I := I) | with_reducible apply Keeps.ite (I := I) | split | intro s _ _ hk | intro s _ hk | intro s hk | with_reducible exact hk | cases ‹_ :: _ = _ :: _›

def Touched.streamChunks : Touch :=
  { regs := [F.TR_EVENT_SPAWN_DROP, F.SK_STATUS_BURST_FREE_KIB, F.SK_EVENT, F.SKS_SEQ, F.SKS_STATUS_RESIDENT,
      F.SKS_OVERWRITE, F.CS_STATUS_STATE, F.CS_EVENT, F.LOOM_EVENT, F.LOOM_EVT_OVF, F.LOOM_OVF_ROUTE,
      F.SCHED_STATUS_FREE_SLOTS, F.SCHED_STATUS_INFLIGHT, F.SCHED_EVENT, F.SCHED_DISPATCH_CNT,
      F.SCHED_EVT_UNBOUND_CNT, F.SCHED_TEMPLATE_MISS_CNT, F.PS_USED, F.HQ_DEPTH, F.HQ_MAXDEPTH, F.HQ_PUSH_CNT,
      F.HQ_BUSY_CNT, F.SH_STATUS_STATE, F.SH_STATUS_SLOT, F.SH_LOAD, F.LVL_RDY_DEPTH, F.LVL_WAIT_AVG, F.LVL_HIST,
      F.FLOW_STATE_IN_SERVICE, F.FLOW_STATE_PENDING, F.PWR_STATUS_WAKE_PEND, F.PWR_STATUS_PHASE,
      F.PWR_STATUS_STATE, F.PWR_WAKE_SRC, F.PWR_WAKE_MERGED, F.PWR_RES, F.PWR_ENTRIES, F.MSIX_PBA],
    parts := [.skein, .treadles, .trig, .sched, .host, .power, .sram, .dram, .dlm, .freeCtr] }

theorem keeps_streamChunks (hc : Closed I Touched.streamChunks) {s : State} (hk : Holds I s) (n : Nat) : Holds I (State.streamChunks s n) := by
  have c_closeChunks' : Closed I Touched.closeChunks := hc.mono (by decide +kernel)
  unfold State.streamChunks
  try dsimp only
  repeat' first | (guard_target =ₐ Holds I s; exact hk) | simp only [id_eq] | with_reducible apply keeps_closeChunks c_closeChunks' | with_reducible apply Keeps.foldl (I := I) | with_reducible apply Keeps.foldl₂ (I := I) | with_reducible apply Keeps.ite (I := I) | split | intro s _ _ hk | intro s _ hk | intro s hk | with_reducible exact hk

def Touched.putPost : Touch :=
  { regs := [F.TR_EVENT_SPAWN_DROP, F.SK_STATUS_BURST_FREE_KIB, F.SK_EVENT, F.SKS_SEQ, F.SKS_STATUS_RESIDENT,
      F.SKS_OVERWRITE, F.CS_STATUS_STATE, F.CS_EVENT, F.LOOM_EVENT, F.LOOM_EVT_OVF, F.LOOM_OVF_ROUTE,
      F.SCHED_STATUS_FREE_SLOTS, F.SCHED_STATUS_INFLIGHT, F.SCHED_EVENT, F.SCHED_DISPATCH_CNT,
      F.SCHED_EVT_UNBOUND_CNT, F.SCHED_TEMPLATE_MISS_CNT, F.PS_USED, F.HQ_DEPTH, F.HQ_MAXDEPTH, F.HQ_PUSH_CNT,
      F.HQ_BUSY_CNT, F.SH_STATUS_STATE, F.SH_STATUS_SLOT, F.SH_LOAD, F.LVL_RDY_DEPTH, F.LVL_WAIT_AVG, F.LVL_HIST,
      F.FLOW_STATE_IN_SERVICE, F.FLOW_STATE_PENDING, F.PWR_STATUS_WAKE_PEND, F.PWR_STATUS_PHASE,
      F.PWR_STATUS_STATE, F.PWR_WAKE_SRC, F.PWR_WAKE_MERGED, F.PWR_RES, F.PWR_ENTRIES, F.MSIX_PBA],
    parts := [.skein, .treadles, .trig, .sched, .host, .power, .sram, .dram, .dlm, .freeCtr] }

theorem keeps_putPost (hc : Closed I Touched.putPost) {s : State} (hk : Holds I s) (n : Nat) (c : Nat) (at_ : Instant) (v : Word) : Holds I (State.putPost s n c at_ v) := by
  have c_draw' : Closed I Touches.draw := hc.mono (by decide +kernel)
  have c_overflow' : Closed I Touched.overflow := hc.mono (by decide +kernel)
  have c_putCset' : Closed I Touched.putCset := hc.mono (by decide +kernel)
  have c_streamChunks' : Closed I Touched.streamChunks := hc.mono (by decide +kernel)
  unfold State.putPost
  try dsimp only
  repeat' first | (guard_target =ₐ Holds I s; exact hk) | simp only [id_eq] | with_reducible apply keeps_draw c_draw' | with_reducible apply keeps_overflow c_overflow' | with_reducible apply keeps_putCset c_putCset' | with_reducible apply keeps_streamChunks c_streamChunks' | with_reducible apply Keeps.foldl (I := I) | with_reducible apply Keeps.foldl₂ (I := I) | with_reducible apply Keeps.ite (I := I) | split | intro s _ _ hk | intro s _ hk | intro s hk | with_reducible exact hk

def Touched.capSample : Touch :=
  { regs := [F.TR_EVENT_SPAWN_DROP, F.SK_STATUS_BURST_FREE_KIB, F.SK_EVENT, F.SKS_SEQ, F.SKS_STATUS_RESIDENT,
      F.SKS_OVERWRITE, F.CS_STATUS_STATE, F.CS_EVENT, F.LOOM_EVENT, F.LOOM_EVT_OVF, F.LOOM_OVF_ROUTE,
      F.SCHED_STATUS_FREE_SLOTS, F.SCHED_STATUS_INFLIGHT, F.SCHED_EVENT, F.SCHED_DISPATCH_CNT,
      F.SCHED_EVT_UNBOUND_CNT, F.SCHED_TEMPLATE_MISS_CNT, F.PS_USED, F.HQ_DEPTH, F.HQ_MAXDEPTH, F.HQ_PUSH_CNT,
      F.HQ_BUSY_CNT, F.SH_STATUS_STATE, F.SH_STATUS_SLOT, F.SH_LOAD, F.LVL_RDY_DEPTH, F.LVL_WAIT_AVG, F.LVL_HIST,
      F.FLOW_STATE_IN_SERVICE, F.FLOW_STATE_PENDING, F.PWR_STATUS_WAKE_PEND, F.PWR_STATUS_PHASE,
      F.PWR_STATUS_STATE, F.PWR_WAKE_SRC, F.PWR_WAKE_MERGED, F.PWR_RES, F.PWR_ENTRIES, F.MSIX_PBA],
    parts := [.skein, .treadles, .trig, .sched, .host, .power, .sram, .dram, .dlm, .freeCtr] }

theorem keeps_capSample (hc : Closed I Touched.capSample) {s : State} (hk : Holds I s) (c : Nat) (at_ : Instant) (v : Word) : Holds I (State.capSample s c at_ v) := by
  have c_putCset' : Closed I Touched.putCset := hc.mono (by decide +kernel)
  have c_putPost' : Closed I Touched.putPost := hc.mono (by decide +kernel)
  unfold State.capSample
  try dsimp only
  repeat' first | (guard_target =ₐ Holds I s; exact hk) | simp only [id_eq] | with_reducible apply keeps_putCset c_putCset' | with_reducible apply keeps_putPost c_putPost' | with_reducible apply Keeps.foldl (I := I) | with_reducible apply Keeps.foldl₂ (I := I) | with_reducible apply Keeps.ite (I := I) | split | intro s _ _ hk | intro s _ hk | intro s hk | with_reducible exact hk

def Touched.crossingChans : Touch :=
  { regs := [F.TR_EVENT_SPAWN_DROP, F.SK_STATUS_BURST_FREE_KIB, F.SK_EVENT, F.SKS_SEQ, F.SKS_STATUS_RESIDENT,
      F.SKS_OVERWRITE, F.CS_STATUS_STATE, F.CS_EVENT, F.LOOM_EVENT, F.LOOM_EVT_OVF, F.LOOM_OVF_ROUTE,
      F.SCHED_STATUS_FREE_SLOTS, F.SCHED_STATUS_INFLIGHT, F.SCHED_EVENT, F.SCHED_DISPATCH_CNT,
      F.SCHED_EVT_UNBOUND_CNT, F.SCHED_TEMPLATE_MISS_CNT, F.PS_USED, F.HQ_DEPTH, F.HQ_MAXDEPTH, F.HQ_PUSH_CNT,
      F.HQ_BUSY_CNT, F.SH_STATUS_STATE, F.SH_STATUS_SLOT, F.SH_LOAD, F.LVL_RDY_DEPTH, F.LVL_WAIT_AVG, F.LVL_HIST,
      F.FLOW_STATE_IN_SERVICE, F.FLOW_STATE_PENDING, F.PWR_STATUS_WAKE_PEND, F.PWR_STATUS_PHASE,
      F.PWR_STATUS_STATE, F.PWR_WAKE_SRC, F.PWR_WAKE_MERGED, F.PWR_RES, F.PWR_ENTRIES, F.MSIX_PBA],
    parts := [.skein, .treadles, .trig, .sched, .host, .power, .sram, .dram, .dlm, .freeCtr] }

theorem keeps_crossingChans (hc : Closed I Touched.crossingChans) {s : State} (hk : Holds I s) (id : Nat) : Holds I (State.crossingChans s id) := by
  have c_capSample' : Closed I Touched.capSample := hc.mono (by decide +kernel)
  unfold State.crossingChans
  try dsimp only
  repeat' first | (guard_target =ₐ Holds I s; exact hk) | simp only [id_eq] | with_reducible apply keeps_each | with_reducible apply keeps_capSample c_capSample' | with_reducible apply Keeps.foldl (I := I) | with_reducible apply Keeps.foldl₂ (I := I) | with_reducible apply Keeps.ite (I := I) | split | intro s _ _ hk | intro s _ hk | intro s hk | with_reducible exact hk

def Touched.disarmMask : Touch :=
  { regs := [F.MU_STATUS_STATE], parts := [.trig] }

theorem keeps_disarmMask (hc : Closed I Touched.disarmMask) {s : State} (hk : Holds I s) (n : Nat) : Holds I (State.disarmMask s n) := by
  have c_putMask' : Closed I Touched.putMask := hc.mono (by decide +kernel)
  unfold State.disarmMask
  try dsimp only
  repeat' first | (guard_target =ₐ Holds I s; exact hk) | simp only [id_eq] | with_reducible apply keeps_wr | with_reducible apply keeps_putMask c_putMask' | with_reducible apply Keeps.foldl (I := I) | with_reducible apply Keeps.foldl₂ (I := I) | with_reducible apply Keeps.ite (I := I) | exact hc.mono (by decide +kernel) | split | intro s _ _ hk | intro s _ hk | intro s hk | with_reducible exact hk

def Touched.idleSet : Touch :=
  { regs := [F.CS_STATUS_STATE, F.CS_PRE_BYTES, F.POOL_FREE] }

theorem keeps_idleSet (hc : Closed I Touched.idleSet) {s : State} (hk : Holds I s) (n : Nat) : Holds I (State.idleSet s n) := by
  unfold State.idleSet
  try dsimp only
  repeat' first | (guard_target =ₐ Holds I s; exact hk) | simp only [id_eq] | with_reducible apply keeps_wr | with_reducible apply Keeps.foldl (I := I) | with_reducible apply Keeps.foldl₂ (I := I) | with_reducible apply Keeps.ite (I := I) | exact hc.mono (by decide +kernel) | split | intro s _ _ hk | intro s _ hk | intro s hk | with_reducible exact hk

def Touched.endPost : Touch :=
  { regs := [F.TR_EVENT_SPAWN_DROP, F.SK_STATUS_BURST_FREE_KIB, F.SK_EVENT, F.SKS_SEQ, F.SKS_STATUS_RESIDENT,
      F.SKS_OVERWRITE, F.CS_STATUS_STATE, F.CS_EVENT, F.LOOM_EVENT, F.LOOM_EVT_OVF, F.LOOM_OVF_ROUTE,
      F.SCHED_STATUS_FREE_SLOTS, F.SCHED_STATUS_INFLIGHT, F.SCHED_EVENT, F.SCHED_DISPATCH_CNT,
      F.SCHED_EVT_UNBOUND_CNT, F.SCHED_TEMPLATE_MISS_CNT, F.PS_USED, F.HQ_DEPTH, F.HQ_MAXDEPTH, F.HQ_PUSH_CNT,
      F.HQ_BUSY_CNT, F.SH_STATUS_STATE, F.SH_STATUS_SLOT, F.SH_LOAD, F.LVL_RDY_DEPTH, F.LVL_WAIT_AVG, F.LVL_HIST,
      F.FLOW_STATE_IN_SERVICE, F.FLOW_STATE_PENDING, F.PWR_STATUS_WAKE_PEND, F.PWR_STATUS_PHASE,
      F.PWR_STATUS_STATE, F.PWR_WAKE_SRC, F.PWR_WAKE_MERGED, F.PWR_RES, F.PWR_ENTRIES, F.MSIX_PBA],
    parts := [.skein, .treadles, .trig, .sched, .host, .power, .sram, .dram, .dlm, .freeCtr] }

theorem keeps_endPost (hc : Closed I Touched.endPost) {s : State} (hk : Holds I s) (n : Nat) (end_ : Instant) : Holds I (State.endPost s n end_) := by
  have c_putCset' : Closed I Touched.putCset := hc.mono (by decide +kernel)
  have c_streamChunks' : Closed I Touched.streamChunks := hc.mono (by decide +kernel)
  unfold State.endPost
  try dsimp only
  repeat' first | (guard_target =ₐ Holds I s; exact hk) | simp only [id_eq] | with_reducible apply keeps_putCset c_putCset' | with_reducible apply keeps_streamChunks c_streamChunks' | with_reducible apply keeps_wr | with_reducible apply Keeps.foldl (I := I) | with_reducible apply Keeps.foldl₂ (I := I) | with_reducible apply Keeps.ite (I := I) | exact hc.mono (by decide +kernel) | split | intro s _ _ hk | intro s _ hk | intro s hk | with_reducible exact hk

def Touched.disarmSet : Touch :=
  { regs := [F.TR_EVENT_SPAWN_DROP, F.SK_STATUS_BURST_FREE_KIB, F.SK_EVENT, F.SKS_SEQ, F.SKS_STATUS_RESIDENT,
      F.SKS_OVERWRITE, F.CS_STATUS_STATE, F.CS_EVENT, F.CS_PRE_BYTES, F.POOL_FREE, F.LOOM_EVENT, F.LOOM_EVT_OVF,
      F.LOOM_OVF_ROUTE, F.SCHED_STATUS_FREE_SLOTS, F.SCHED_STATUS_INFLIGHT, F.SCHED_EVENT, F.SCHED_DISPATCH_CNT,
      F.SCHED_EVT_UNBOUND_CNT, F.SCHED_TEMPLATE_MISS_CNT, F.PS_USED, F.HQ_DEPTH, F.HQ_MAXDEPTH, F.HQ_PUSH_CNT,
      F.HQ_BUSY_CNT, F.SH_STATUS_STATE, F.SH_STATUS_SLOT, F.SH_LOAD, F.LVL_RDY_DEPTH, F.LVL_WAIT_AVG, F.LVL_HIST,
      F.FLOW_STATE_IN_SERVICE, F.FLOW_STATE_PENDING, F.PWR_STATUS_WAKE_PEND, F.PWR_STATUS_PHASE,
      F.PWR_STATUS_STATE, F.PWR_WAKE_SRC, F.PWR_WAKE_MERGED, F.PWR_RES, F.PWR_ENTRIES, F.MSIX_PBA],
    parts := [.skein, .treadles, .trig, .sched, .host, .power, .sram, .dram, .dlm, .freeCtr] }

theorem keeps_disarmSet (hc : Closed I Touched.disarmSet) {s : State} (hk : Holds I s) (n : Nat) : Holds I (State.disarmSet s n) := by
  have c_idleSet' : Closed I Touched.idleSet := hc.mono (by decide +kernel)
  have c_putCset' : Closed I Touched.putCset := hc.mono (by decide +kernel)
  have c_endPost' : Closed I Touched.endPost := hc.mono (by decide +kernel)
  have c_csEvent' : Closed I Touched.csEvent := hc.mono (by decide +kernel)
  unfold State.disarmSet
  try dsimp only
  repeat' first | (guard_target =ₐ Holds I s; exact hk) | simp only [id_eq] | with_reducible apply keeps_idleSet c_idleSet' | with_reducible apply keeps_putCset c_putCset' | with_reducible apply keeps_endPost c_endPost' | with_reducible apply keeps_csEvent c_csEvent' | with_reducible apply Keeps.foldl (I := I) | with_reducible apply Keeps.foldl₂ (I := I) | with_reducible apply Keeps.ite (I := I) | split | intro s _ _ hk | intro s _ hk | intro s hk | with_reducible exact hk

def Touched.disarmTrig : Touch :=
  { regs := [F.TR_EVENT_SPAWN_DROP, F.SK_STATUS_BURST_FREE_KIB, F.SK_EVENT, F.SKS_SEQ, F.SKS_STATUS_RESIDENT,
      F.SKS_OVERWRITE, F.TS_STATUS_RUNNING, F.CS_STATUS_STATE, F.CS_EVENT, F.CS_PRE_BYTES, F.POOL_FREE,
      F.LOOM_EVENT, F.LOOM_EVT_OVF, F.LOOM_OVF_ROUTE, F.SCHED_STATUS_FREE_SLOTS, F.SCHED_STATUS_INFLIGHT,
      F.SCHED_EVENT, F.SCHED_DISPATCH_CNT, F.SCHED_EVT_UNBOUND_CNT, F.SCHED_TEMPLATE_MISS_CNT, F.PS_USED,
      F.HQ_DEPTH, F.HQ_MAXDEPTH, F.HQ_PUSH_CNT, F.HQ_BUSY_CNT, F.SH_STATUS_STATE, F.SH_STATUS_SLOT, F.SH_LOAD,
      F.LVL_RDY_DEPTH, F.LVL_WAIT_AVG, F.LVL_HIST, F.FLOW_STATE_IN_SERVICE, F.FLOW_STATE_PENDING,
      F.PWR_STATUS_WAKE_PEND, F.PWR_STATUS_PHASE, F.PWR_STATUS_STATE, F.PWR_WAKE_SRC, F.PWR_WAKE_MERGED, F.PWR_RES,
      F.PWR_ENTRIES, F.MSIX_PBA],
    parts := [.skein, .treadles, .trig, .sched, .host, .power, .sram, .dram, .dlm, .freeCtr] }

theorem keeps_disarmTrig (hc : Closed I Touched.disarmTrig) {s : State} (hk : Holds I s) (n : Nat) : Holds I (State.disarmTrig s n) := by
  have c_disarmSet' : Closed I Touched.disarmSet := hc.mono (by decide +kernel)
  unfold State.disarmTrig
  try dsimp only
  repeat' first | (guard_target =ₐ Holds I s; exact hk) | simp only [id_eq] | with_reducible apply keeps_disarmSet c_disarmSet' | with_reducible apply keeps_wr | with_reducible apply Keeps.foldl (I := I) | with_reducible apply Keeps.foldl₂ (I := I) | with_reducible apply Keeps.ite (I := I) | exact hc.mono (by decide +kernel) | split | intro s _ _ hk | intro s _ hk | intro s hk | with_reducible exact hk

def Touched.edgeChans : Touch :=
  { regs := [F.TR_EVENT_SPAWN_DROP, F.SK_STATUS_BURST_FREE_KIB, F.SK_EVENT, F.SKS_SEQ, F.SKS_STATUS_RESIDENT,
      F.SKS_OVERWRITE, F.CS_STATUS_STATE, F.CS_EVENT, F.LOOM_EVENT, F.LOOM_EVT_OVF, F.LOOM_OVF_ROUTE,
      F.SCHED_STATUS_FREE_SLOTS, F.SCHED_STATUS_INFLIGHT, F.SCHED_EVENT, F.SCHED_DISPATCH_CNT,
      F.SCHED_EVT_UNBOUND_CNT, F.SCHED_TEMPLATE_MISS_CNT, F.PS_USED, F.HQ_DEPTH, F.HQ_MAXDEPTH, F.HQ_PUSH_CNT,
      F.HQ_BUSY_CNT, F.SH_STATUS_STATE, F.SH_STATUS_SLOT, F.SH_LOAD, F.LVL_RDY_DEPTH, F.LVL_WAIT_AVG, F.LVL_HIST,
      F.FLOW_STATE_IN_SERVICE, F.FLOW_STATE_PENDING, F.PWR_STATUS_WAKE_PEND, F.PWR_STATUS_PHASE,
      F.PWR_STATUS_STATE, F.PWR_WAKE_SRC, F.PWR_WAKE_MERGED, F.PWR_RES, F.PWR_ENTRIES, F.MSIX_PBA],
    parts := [.skein, .treadles, .trig, .sched, .host, .power, .sram, .dram, .dlm, .freeCtr] }

theorem keeps_edgeChans (hc : Closed I Touched.edgeChans) {s : State} (hk : Holds I s) (id : Nat) (at_ : Instant) : Holds I (State.edgeChans s id at_) := by
  have c_capSample' : Closed I Touched.capSample := hc.mono (by decide +kernel)
  unfold State.edgeChans
  try dsimp only
  repeat' first | (guard_target =ₐ Holds I s; exact hk) | simp only [id_eq] | with_reducible apply keeps_each | with_reducible apply keeps_capSample c_capSample' | with_reducible apply Keeps.foldl (I := I) | with_reducible apply Keeps.foldl₂ (I := I) | with_reducible apply Keeps.ite (I := I) | split | intro s _ _ hk | intro s _ hk | intro s hk | with_reducible exact hk

def Touched.latchSeqs : Touch :=
  { parts := [.trig] }

theorem keeps_latchSeqs (hc : Closed I Touched.latchSeqs) {s : State} (hk : Holds I s) (er : Nat) (at_ : Instant) : Holds I (State.latchSeqs s er at_) := by
  have c_putSeq' : Closed I Touched.putSeq := hc.mono (by decide +kernel)
  unfold State.latchSeqs
  try dsimp only
  repeat' first | (guard_target =ₐ Holds I s; exact hk) | simp only [id_eq] | with_reducible apply keeps_each | with_reducible apply keeps_putSeq c_putSeq' | with_reducible apply Keeps.foldl (I := I) | with_reducible apply Keeps.foldl₂ (I := I) | with_reducible apply Keeps.ite (I := I) | split | intro s _ _ hk | intro s _ hk | intro s hk | with_reducible exact hk

def Touched.latchStep : Touch :=
  { parts := [.trig] }

theorem keeps_latchStep (hc : Closed I Touched.latchStep) {s : State} (hk : Holds I s) (p : Nat) (step : Nat) : Holds I (State.latchStep s p step) := by
  have c_putSeq' : Closed I Touched.putSeq := hc.mono (by decide +kernel)
  unfold State.latchStep
  try dsimp only
  repeat' first | (guard_target =ₐ Holds I s; exact hk) | simp only [id_eq] | with_reducible apply keeps_each | with_reducible apply keeps_putSeq c_putSeq' | with_reducible apply Keeps.foldl (I := I) | with_reducible apply Keeps.foldl₂ (I := I) | with_reducible apply Keeps.ite (I := I) | split | intro s _ _ hk | intro s _ hk | intro s hk | with_reducible exact hk

def Touched.lateChans : Touch :=
  { regs := [F.TR_EVENT_SPAWN_DROP, F.SK_STATUS_BURST_FREE_KIB, F.SK_EVENT, F.SKS_SEQ, F.SKS_STATUS_RESIDENT,
      F.SKS_OVERWRITE, F.CS_STATUS_STATE, F.CS_EVENT, F.LOOM_EVENT, F.LOOM_EVT_OVF, F.LOOM_OVF_ROUTE,
      F.SCHED_STATUS_FREE_SLOTS, F.SCHED_STATUS_INFLIGHT, F.SCHED_EVENT, F.SCHED_DISPATCH_CNT,
      F.SCHED_EVT_UNBOUND_CNT, F.SCHED_TEMPLATE_MISS_CNT, F.PS_USED, F.HQ_DEPTH, F.HQ_MAXDEPTH, F.HQ_PUSH_CNT,
      F.HQ_BUSY_CNT, F.SH_STATUS_STATE, F.SH_STATUS_SLOT, F.SH_LOAD, F.LVL_RDY_DEPTH, F.LVL_WAIT_AVG, F.LVL_HIST,
      F.FLOW_STATE_IN_SERVICE, F.FLOW_STATE_PENDING, F.PWR_STATUS_WAKE_PEND, F.PWR_STATUS_PHASE,
      F.PWR_STATUS_STATE, F.PWR_WAKE_SRC, F.PWR_WAKE_MERGED, F.PWR_RES, F.PWR_ENTRIES, F.MSIX_PBA],
    parts := [.skein, .treadles, .trig, .sched, .host, .power, .sram, .dram, .dlm, .freeCtr] }

theorem keeps_lateChans (hc : Closed I Touched.lateChans) {s : State} (hk : Holds I s) (kind : Nat) (id : Nat) (at_ : Instant) : Holds I (State.lateChans s kind id at_) := by
  have c_putCset' : Closed I Touched.putCset := hc.mono (by decide +kernel)
  have c_capSample' : Closed I Touched.capSample := hc.mono (by decide +kernel)
  have c_draw' : Closed I Touches.draw := hc.mono (by decide +kernel)
  unfold State.lateChans
  try dsimp only
  repeat' first | (guard_target =ₐ Holds I s; exact hk) | simp only [id_eq] | with_reducible apply keeps_each | with_reducible apply keeps_putCset c_putCset' | with_reducible apply keeps_capSample c_capSample' | with_reducible apply keeps_draw c_draw' | with_reducible apply Keeps.foldl (I := I) | with_reducible apply Keeps.foldl₂ (I := I) | with_reducible apply Keeps.ite (I := I) | split | intro s _ _ hk | intro s _ hk | intro s hk | with_reducible exact hk

def Touched.lateSamples : Touch :=
  { regs := [F.TR_EVENT_SPAWN_DROP, F.SK_STATUS_BURST_FREE_KIB, F.SK_EVENT, F.SKS_SEQ, F.SKS_STATUS_RESIDENT,
      F.SKS_OVERWRITE, F.CS_STATUS_STATE, F.CS_EVENT, F.LOOM_EVENT, F.LOOM_EVT_OVF, F.LOOM_OVF_ROUTE,
      F.SCHED_STATUS_FREE_SLOTS, F.SCHED_STATUS_INFLIGHT, F.SCHED_EVENT, F.SCHED_DISPATCH_CNT,
      F.SCHED_EVT_UNBOUND_CNT, F.SCHED_TEMPLATE_MISS_CNT, F.PS_USED, F.HQ_DEPTH, F.HQ_MAXDEPTH, F.HQ_PUSH_CNT,
      F.HQ_BUSY_CNT, F.SH_STATUS_STATE, F.SH_STATUS_SLOT, F.SH_LOAD, F.LVL_RDY_DEPTH, F.LVL_WAIT_AVG, F.LVL_HIST,
      F.FLOW_STATE_IN_SERVICE, F.FLOW_STATE_PENDING, F.PWR_STATUS_WAKE_PEND, F.PWR_STATUS_PHASE,
      F.PWR_STATUS_STATE, F.PWR_WAKE_SRC, F.PWR_WAKE_MERGED, F.PWR_RES, F.PWR_ENTRIES, F.MSIX_PBA],
    parts := [.skein, .treadles, .trig, .sched, .host, .power, .sram, .dram, .dlm, .freeCtr] }

theorem keeps_lateSamples (hc : Closed I Touched.lateSamples) {s : State} (hk : Holds I s) (kind : Nat) (id : Nat) (at_ : Instant) : Holds I (State.lateSamples s kind id at_) := by
  have c_lateChans' : Closed I Touched.lateChans := hc.mono (by decide +kernel)
  have c_lateTaps' : Closed I Touched.lateTaps := hc.mono (by decide +kernel)
  unfold State.lateSamples
  try dsimp only
  repeat' first | (guard_target =ₐ Holds I s; exact hk) | simp only [id_eq] | with_reducible apply keeps_lateChans c_lateChans' | with_reducible apply keeps_lateTaps c_lateTaps' | with_reducible apply Keeps.foldl (I := I) | with_reducible apply Keeps.foldl₂ (I := I) | with_reducible apply Keeps.ite (I := I) | split | intro s _ _ hk | intro s _ hk | intro s hk | with_reducible exact hk

def Touched.releaseChans : Touch :=
  { regs := [F.TR_EVENT_SPAWN_DROP, F.SK_STATUS_BURST_FREE_KIB, F.SK_EVENT, F.SKS_SEQ, F.SKS_STATUS_RESIDENT,
      F.SKS_OVERWRITE, F.CS_STATUS_STATE, F.CS_EVENT, F.LOOM_EVENT, F.LOOM_EVT_OVF, F.LOOM_OVF_ROUTE,
      F.SCHED_STATUS_FREE_SLOTS, F.SCHED_STATUS_INFLIGHT, F.SCHED_EVENT, F.SCHED_DISPATCH_CNT,
      F.SCHED_EVT_UNBOUND_CNT, F.SCHED_TEMPLATE_MISS_CNT, F.PS_USED, F.HQ_DEPTH, F.HQ_MAXDEPTH, F.HQ_PUSH_CNT,
      F.HQ_BUSY_CNT, F.SH_STATUS_STATE, F.SH_STATUS_SLOT, F.SH_LOAD, F.LVL_RDY_DEPTH, F.LVL_WAIT_AVG, F.LVL_HIST,
      F.FLOW_STATE_IN_SERVICE, F.FLOW_STATE_PENDING, F.PWR_STATUS_WAKE_PEND, F.PWR_STATUS_PHASE,
      F.PWR_STATUS_STATE, F.PWR_WAKE_SRC, F.PWR_WAKE_MERGED, F.PWR_RES, F.PWR_ENTRIES, F.MSIX_PBA],
    parts := [.skein, .treadles, .trig, .sched, .host, .power, .sram, .dram, .dlm, .freeCtr] }

theorem keeps_releaseChans (hc : Closed I Touched.releaseChans) {s : State} (hk : Holds I s) (kind : Nat) (id : Nat) (at_ : Instant) : Holds I (State.releaseChans s kind id at_) := by
  have c_capSample' : Closed I Touched.capSample := hc.mono (by decide +kernel)
  unfold State.releaseChans
  try dsimp only
  repeat' first | (guard_target =ₐ Holds I s; exact hk) | simp only [id_eq] | with_reducible apply keeps_each | with_reducible apply keeps_capSample c_capSample' | with_reducible apply Keeps.foldl (I := I) | with_reducible apply Keeps.foldl₂ (I := I) | with_reducible apply Keeps.ite (I := I) | split | intro s _ _ hk | intro s _ hk | intro s hk | with_reducible exact hk

def Touched.resetTrig : Touch :=
  { regs := [F.TR_EVENT_SPAWN_DROP, F.SK_STATUS_BURST_FREE_KIB, F.SK_EVENT, F.SKS_SEQ, F.SKS_STATUS_RESIDENT,
      F.SKS_OVERWRITE, F.TS_STATUS_RUNNING, F.CS_STATUS_STATE, F.CS_EVENT, F.CS_PRE_BYTES, F.MU_STATUS_STATE,
      F.POOL_FREE, F.LOOM_EVENT, F.LOOM_EVT_OVF, F.LOOM_OVF_ROUTE, F.SCHED_STATUS_FREE_SLOTS,
      F.SCHED_STATUS_INFLIGHT, F.SCHED_EVENT, F.SCHED_DISPATCH_CNT, F.SCHED_EVT_UNBOUND_CNT,
      F.SCHED_TEMPLATE_MISS_CNT, F.PS_USED, F.HQ_DEPTH, F.HQ_MAXDEPTH, F.HQ_PUSH_CNT, F.HQ_BUSY_CNT,
      F.SH_STATUS_STATE, F.SH_STATUS_SLOT, F.SH_LOAD, F.LVL_RDY_DEPTH, F.LVL_WAIT_AVG, F.LVL_HIST,
      F.FLOW_STATE_IN_SERVICE, F.FLOW_STATE_PENDING, F.PWR_STATUS_WAKE_PEND, F.PWR_STATUS_PHASE,
      F.PWR_STATUS_STATE, F.PWR_WAKE_SRC, F.PWR_WAKE_MERGED, F.PWR_RES, F.PWR_ENTRIES, F.MSIX_PBA],
    parts := [.skein, .treadles, .trig, .sched, .host, .power, .sram, .dram, .dlm, .freeCtr] }

theorem keeps_resetTrig (hc : Closed I Touched.resetTrig) {s : State} (hk : Holds I s) (p : Nat) : Holds I (State.resetTrig s p) := by
  have c_disarmTrig' : Closed I Touched.disarmTrig := hc.mono (by decide +kernel)
  have c_disarmMask' : Closed I Touched.disarmMask := hc.mono (by decide +kernel)
  unfold State.resetTrig
  try dsimp only
  repeat' first | (guard_target =ₐ Holds I s; exact hk) | simp only [id_eq] | with_reducible apply keeps_each | with_reducible apply keeps_disarmTrig c_disarmTrig' | with_reducible apply keeps_disarmMask c_disarmMask' | with_reducible apply Keeps.foldl (I := I) | with_reducible apply Keeps.foldl₂ (I := I) | with_reducible apply Keeps.ite (I := I) | split | intro s _ _ hk | intro s _ hk | intro s hk | with_reducible exact hk

def Touched.ringChans : Touch :=
  { regs := [F.TR_EVENT_SPAWN_DROP, F.SK_STATUS_BURST_FREE_KIB, F.SK_EVENT, F.SKS_SEQ, F.SKS_STATUS_RESIDENT,
      F.SKS_OVERWRITE, F.CS_STATUS_STATE, F.CS_EVENT, F.LOOM_EVENT, F.LOOM_EVT_OVF, F.LOOM_OVF_ROUTE,
      F.SCHED_STATUS_FREE_SLOTS, F.SCHED_STATUS_INFLIGHT, F.SCHED_EVENT, F.SCHED_DISPATCH_CNT,
      F.SCHED_EVT_UNBOUND_CNT, F.SCHED_TEMPLATE_MISS_CNT, F.PS_USED, F.HQ_DEPTH, F.HQ_MAXDEPTH, F.HQ_PUSH_CNT,
      F.HQ_BUSY_CNT, F.SH_STATUS_STATE, F.SH_STATUS_SLOT, F.SH_LOAD, F.LVL_RDY_DEPTH, F.LVL_WAIT_AVG, F.LVL_HIST,
      F.FLOW_STATE_IN_SERVICE, F.FLOW_STATE_PENDING, F.PWR_STATUS_WAKE_PEND, F.PWR_STATUS_PHASE,
      F.PWR_STATUS_STATE, F.PWR_WAKE_SRC, F.PWR_WAKE_MERGED, F.PWR_RES, F.PWR_ENTRIES, F.MSIX_PBA],
    parts := [.skein, .treadles, .trig, .sched, .host, .power, .sram, .dram, .dlm, .freeCtr] }

theorem keeps_ringChans (hc : Closed I Touched.ringChans) {s : State} (hk : Holds I s) (r : Nat) (signal : Nat) : Holds I (State.ringChans s r signal) := by
  have c_capSample' : Closed I Touched.capSample := hc.mono (by decide +kernel)
  unfold State.ringChans
  try dsimp only
  repeat' first | (guard_target =ₐ Holds I s; exact hk) | simp only [id_eq] | with_reducible apply keeps_each | with_reducible apply keeps_capSample c_capSample' | with_reducible apply Keeps.foldl (I := I) | with_reducible apply Keeps.foldl₂ (I := I) | with_reducible apply Keeps.ite (I := I) | split | intro s _ _ hk | intro s _ hk | intro s hk | with_reducible exact hk

def Touched.trigEvent : Touch :=
  { regs := [F.TR_EVENT_SPAWN_DROP, F.SK_STATUS_BURST_FREE_KIB, F.SK_EVENT, F.SKS_SEQ, F.SKS_STATUS_RESIDENT,
      F.SKS_OVERWRITE, F.CS_STATUS_STATE, F.CS_EVENT, F.LOOM_EVENT, F.LOOM_EVT_OVF, F.LOOM_OVF_ROUTE,
      F.SCHED_STATUS_FREE_SLOTS, F.SCHED_STATUS_INFLIGHT, F.SCHED_EVENT, F.SCHED_DISPATCH_CNT,
      F.SCHED_EVT_UNBOUND_CNT, F.SCHED_TEMPLATE_MISS_CNT, F.PS_USED, F.HQ_DEPTH, F.HQ_MAXDEPTH, F.HQ_PUSH_CNT,
      F.HQ_BUSY_CNT, F.SH_STATUS_STATE, F.SH_STATUS_SLOT, F.SH_LOAD, F.LVL_RDY_DEPTH, F.LVL_WAIT_AVG, F.LVL_HIST,
      F.FLOW_STATE_IN_SERVICE, F.FLOW_STATE_PENDING, F.PWR_STATUS_WAKE_PEND, F.PWR_STATUS_PHASE,
      F.PWR_STATUS_STATE, F.PWR_WAKE_SRC, F.PWR_WAKE_MERGED, F.PWR_RES, F.PWR_ENTRIES, F.MSIX_PBA],
    parts := [.skein, .treadles, .trig, .sched, .host, .power, .sram, .dram, .dlm, .freeCtr] }

theorem keeps_trigEvent (hc : Closed I Touched.trigEvent) {s : State} (hk : Holds I s) (er : Nat) (data : Nat) (at_ : Instant) : Holds I (State.trigEvent s er data at_) := by
  have c_latchSeqs' : Closed I Touched.latchSeqs := hc.mono (by decide +kernel)
  have c_capSample' : Closed I Touched.capSample := hc.mono (by decide +kernel)
  unfold State.trigEvent
  try dsimp only
  repeat' first | (guard_target =ₐ Holds I s; exact hk) | simp only [id_eq] | with_reducible apply keeps_latchSeqs c_latchSeqs' | with_reducible apply keeps_each | with_reducible apply keeps_capSample c_capSample' | with_reducible apply Keeps.foldl (I := I) | with_reducible apply Keeps.foldl₂ (I := I) | with_reducible apply Keeps.ite (I := I) | split | intro s _ _ hk | intro s _ hk | intro s hk | with_reducible exact hk

def Touched.trigStep : Touch :=
  { regs := [F.MU_STATUS_STATE], parts := [.trig] }

theorem keeps_trigStep (hc : Closed I Touched.trigStep) {s : State} (hk : Holds I s) (p : Nat) (step : Nat) : Holds I (State.trigStep s p step) := by
  have c_latchStep' : Closed I Touched.latchStep := hc.mono (by decide +kernel)
  have c_disarmMask' : Closed I Touched.disarmMask := hc.mono (by decide +kernel)
  unfold State.trigStep
  try dsimp only
  repeat' first | (guard_target =ₐ Holds I s; exact hk) | simp only [id_eq] | with_reducible apply keeps_latchStep c_latchStep' | with_reducible apply keeps_each | with_reducible apply keeps_disarmMask c_disarmMask' | with_reducible apply Keeps.foldl (I := I) | with_reducible apply Keeps.foldl₂ (I := I) | with_reducible apply Keeps.ite (I := I) | split | intro s _ _ hk | intro s _ hk | intro s hk | with_reducible exact hk

end Sys2Proof.Machine
end

