-- ==== Sys2Proof/Laws/Keeps/SecOps.lean ====
section
/-! SUPPORT.  What the operations of Machine/SecOps.lean touch, and that they keep every property
closed under it. -/

namespace Sys2Proof.Machine

open Sys2Proof

set_option Elab.async false
set_option linter.unusedSimpArgs false
set_option linter.unusedVariables false
set_option linter.unusedTactic false
set_option linter.unreachableTactic false

variable {I : State → Prop}

def Touched.onSec : Touch :=
  { parts := [.sec] }

theorem keeps_onSec (hc : Closed I Touched.onSec) {s : State} (hk : Holds I s) (f : Security → Security) : Holds I (State.onSec s f) := by
  have c_sec : Closed I { parts := [.sec] } := hc.mono (by decide +kernel)
  unfold State.onSec
  try dsimp only
  repeat' first | (guard_target =ₐ Holds I s; exact hk) | simp only [ic_mk, id_eq] | with_reducible refine ic_sec c_sec (ic_fold ?_) | with_reducible apply Keeps.foldl (I := I) | with_reducible apply Keeps.foldl₂ (I := I) | with_reducible apply Keeps.ite (I := I) | split | intro s _ _ hk | intro s _ hk | intro s hk | with_reducible exact hk

def Touched.secEvent : Touch :=
  { regs := [F.SEC_EVENT] }

theorem keeps_secEvent (hc : Closed I Touched.secEvent) {s : State} (hk : Holds I s) (bit : Nat) : Holds I (State.secEvent s bit) := by
  unfold State.secEvent
  try dsimp only
  repeat' first | (guard_target =ₐ Holds I s; exact hk) | simp only [id_eq] | with_reducible apply keeps_setBit | with_reducible apply Keeps.foldl (I := I) | with_reducible apply Keeps.foldl₂ (I := I) | with_reducible apply Keeps.ite (I := I) | exact hc.mono (by decide +kernel) | split | intro s _ _ hk | intro s _ hk | intro s hk | with_reducible exact hk

end Sys2Proof.Machine
end

