-- ==== Sys2Proof/Laws/Keeps/StopOps.lean ====
section
/-! SUPPORT.  What the operations of Machine/StopOps.lean touch, and that they keep every property
closed under it. -/

namespace Sys2Proof.Machine

open Sys2Proof

set_option Elab.async false
set_option linter.unusedSimpArgs false
set_option linter.unusedVariables false
set_option linter.unusedTactic false
set_option linter.unreachableTactic false

variable {I : State → Prop}

def Touched.cpEvent : Touch :=
  { regs := [F.CP_EVENT] }

theorem keeps_cpEvent (hc : Closed I Touched.cpEvent) {s : State} (hk : Holds I s) (p : Nat) (bit : Nat) : Holds I (State.cpEvent s p bit) := by
  unfold State.cpEvent
  try dsimp only
  repeat' first | (guard_target =ₐ Holds I s; exact hk) | simp only [id_eq] | with_reducible apply keeps_setBit | with_reducible apply Keeps.foldl (I := I) | with_reducible apply Keeps.foldl₂ (I := I) | with_reducible apply Keeps.ite (I := I) | exact hc.mono (by decide +kernel) | split | intro s _ _ hk | intro s _ hk | intro s hk | with_reducible exact hk

def Touched.dropRoot : Touch :=
  { parts := [.sched] }

theorem keeps_dropRoot (hc : Closed I Touched.dropRoot) {s : State} (hk : Holds I s) (p : Nat) (k : Nat) : Holds I (State.dropRoot s p k) := by
  have c_onSched' : Closed I Touched.onSched := hc.mono (by decide +kernel)
  unfold State.dropRoot
  try dsimp only
  repeat' first | (guard_target =ₐ Holds I s; exact hk) | simp only [id_eq] | with_reducible apply keeps_onSched c_onSched' | with_reducible apply Keeps.foldl (I := I) | with_reducible apply Keeps.foldl₂ (I := I) | with_reducible apply Keeps.ite (I := I) | split | intro s _ _ hk | intro s _ hk | intro s hk | with_reducible exact hk

def Touched.dropScan : Touch :=
  { regs := [F.TR_EVENT_SPAWN_DROP, F.SK_STATUS_BURST_FREE_KIB, F.SK_EVENT, F.SKS_SEQ, F.SKS_STATUS_RESIDENT,
      F.SKS_OVERWRITE, F.LOOM_EVENT, F.LOOM_EVT_OVF, F.LOOM_OVF_ROUTE, F.SCHED_STATUS_FREE_SLOTS,
      F.SCHED_STATUS_INFLIGHT, F.SCHED_EVENT, F.SCHED_DISPATCH_CNT, F.SCHED_CANCEL_CNT, F.SCHED_CANCEL_LATE_CNT,
      F.SCHED_POISON_CNT, F.SCHED_EVT_UNBOUND_CNT, F.SCHED_TEMPLATE_MISS_CNT, F.PS_USED, F.PS_HELD, F.HQ_DEPTH,
      F.HQ_MAXDEPTH, F.HQ_PUSH_CNT, F.HQ_BUSY_CNT, F.SH_STATUS_STATE, F.SH_STATUS_SLOT, F.SH_LOAD, F.LVL_RDY_DEPTH,
      F.LVL_WAIT_AVG, F.LVL_HIST, F.FLOW_STATE_HELD, F.FLOW_STATE_IN_SERVICE, F.FLOW_STATE_HELD_CAUSE,
      F.FLOW_STATE_PENDING, F.PWR_STATUS_WAKE_PEND, F.PWR_STATUS_PHASE, F.PWR_STATUS_STATE, F.PWR_WAKE_SRC,
      F.PWR_WAKE_MERGED, F.PWR_RES, F.PWR_ENTRIES, F.MSIX_PBA],
    parts := [.skein, .treadles, .sched, .cyc, .host, .power, .sram, .dram, .dlm, .freeCtr] }

theorem keeps_dropScan (hc : Closed I Touched.dropScan) {s : State} (hk : Holds I s) (p : Nat) (k : Nat) : Holds I (State.dropScan s p k) := by
  have c_dropRoot' : Closed I Touched.dropRoot := hc.mono (by decide +kernel)
  have c_putCycTask' : Closed I Touched.putCycTask := hc.mono (by decide +kernel)
  have c_putTask' : Closed I Touched.putTask := hc.mono (by decide +kernel)
  have c_cancelSlot' : Closed I Touched.cancelSlot := hc.mono (by decide +kernel)
  have c_onSched' : Closed I Touched.onSched := hc.mono (by decide +kernel)
  unfold State.dropScan
  try dsimp only
  repeat' first | (guard_target =ₐ Holds I s; exact hk) | simp only [id_eq] | with_reducible apply keeps_dropRoot c_dropRoot' | with_reducible apply keeps_putCycTask c_putCycTask' | with_reducible apply keeps_each | with_reducible apply keeps_putTask c_putTask' | with_reducible apply keeps_cancelSlot c_cancelSlot' | with_reducible apply keeps_onSched c_onSched' | with_reducible apply Keeps.foldl (I := I) | with_reducible apply Keeps.foldl₂ (I := I) | with_reducible apply Keeps.ite (I := I) | split | intro s _ _ hk | intro s _ hk | intro s hk | with_reducible exact hk

def Touched.putMapped : Touch :=
  { regs := [F.ODO_OUT, F.ODO_OUT_SAT, F.VR_VALUE], parts := [.fio, .loom, .rings] }

theorem keeps_putMapped (hc : Closed I Touched.putMapped) {s : State} (hk : Holds I s) (e : MapEntry) (bs : List Byte) : Holds I (State.putMapped s e bs) := by
  have c_command' : Closed I Touched.command := hc.mono (by decide +kernel)
  have c_ringSend' : Closed I Touched.ringSend := hc.mono (by decide +kernel)
  have c_publish' : Closed I Touched.publish := hc.mono (by decide +kernel)
  unfold State.putMapped
  try dsimp only
  repeat' first | (guard_target =ₐ Holds I s; exact hk) | simp only [id_eq] | with_reducible apply keeps_command c_command' | with_reducible apply keeps_ringSend c_ringSend' | with_reducible apply keeps_publish c_publish' | with_reducible apply Keeps.foldl (I := I) | with_reducible apply Keeps.foldl₂ (I := I) | with_reducible apply Keeps.ite (I := I) | split | intro s _ _ hk | intro s _ hk | intro s hk | with_reducible exact hk

def Touched.safeMapped : Touch :=
  { regs := [F.ODO_OUT, F.ODO_OUT_SAT, F.VR_VALUE], parts := [.fio, .loom, .rings] }

theorem keeps_safeMapped (hc : Closed I Touched.safeMapped) {s : State} (hk : Holds I s) (e : MapEntry) : Holds I (State.safeMapped s e) := by
  have c_putMapped' : Closed I Touched.putMapped := hc.mono (by decide +kernel)
  unfold State.safeMapped
  try dsimp only
  repeat' first | (guard_target =ₐ Holds I s; exact hk) | simp only [id_eq] | with_reducible apply keeps_putMapped c_putMapped' | with_reducible apply Keeps.foldl (I := I) | with_reducible apply Keeps.foldl₂ (I := I) | with_reducible apply Keeps.ite (I := I) | split | intro s _ _ hk | intro s _ hk | intro s hk | with_reducible exact hk

def Touched.safeOutputs : Touch :=
  { regs := [F.ODO_OUT, F.ODO_OUT_SAT, F.VR_VALUE], parts := [.fio, .loom, .rings] }

theorem keeps_safeOutputs (hc : Closed I Touched.safeOutputs) {s : State} (hk : Holds I s) (p : Nat) : Holds I (State.safeOutputs s p) := by
  have c_safeMapped' : Closed I Touched.safeMapped := hc.mono (by decide +kernel)
  unfold State.safeOutputs
  try dsimp only
  repeat' first | (guard_target =ₐ Holds I s; exact hk) | simp only [id_eq] | with_reducible apply keeps_safeMapped c_safeMapped' | with_reducible apply Keeps.foldl (I := I) | with_reducible apply Keeps.foldl₂ (I := I) | with_reducible apply Keeps.ite (I := I) | split | intro s _ _ hk | intro s _ hk | intro s hk | with_reducible exact hk

def Touched.stopRecord : Touch :=
  { regs := [F.SK_STATUS_BURST_FREE_KIB, F.SK_EVENT, F.SKS_SEQ, F.SKS_STATUS_RESIDENT, F.SKS_OVERWRITE],
    parts := [.skein] }

theorem keeps_stopRecord (hc : Closed I Touched.stopRecord) {s : State} (hk : Holds I s) (p : Nat) (cause : Nat) : Holds I (State.stopRecord s p cause) := by
  have c_event' : Closed I Touched.event := hc.mono (by decide +kernel)
  unfold State.stopRecord
  try dsimp only
  repeat' first | (guard_target =ₐ Holds I s; exact hk) | simp only [id_eq] | with_reducible apply keeps_event c_event' | with_reducible apply Keeps.foldl (I := I) | with_reducible apply Keeps.foldl₂ (I := I) | with_reducible apply Keeps.ite (I := I) | split | intro s _ _ hk | intro s _ hk | intro s hk | with_reducible exact hk

def Touched.enterStop : Touch :=
  { regs := [F.LC_STATUS_SHADOW_VALID, F.TR_STATUS_STAGE_STATE, F.TR_STATUS_PAUSE_CAUSE, F.TR_STATUS_DEFERRED,
      F.TR_STATUS_STATE, F.TR_EVENT_SPAWN_DROP, F.TR_EVENT_ABORT_IGNORED, F.TR_EVENT_CANCELLED,
      F.TR_STEPS_STAGED_STEP, F.TR_NEXT, F.TR_DECIDE_END_IDX, F.TR_DECIDE_DECIDED, F.TR_CANCEL_CNT,
      F.PG_STATUS_HELD, F.PG_SHADOW_TARGET, F.PG_SHADOW_VMAX, F.PG_SHADOW_WIN_M2, F.PG_SHADOW_WIN_M1,
      F.SK_STATUS_BURST_FREE_KIB, F.SK_EVENT, F.SKS_SEQ, F.SKS_STATUS_RESIDENT, F.SKS_OVERWRITE, F.LOOM_EVENT,
      F.LOOM_EVT_OVF, F.LOOM_OVF_ROUTE, F.ODO_OUT, F.ODO_OUT_SAT, F.VR_VALUE, F.SCHED_STATUS_FREE_SLOTS,
      F.SCHED_STATUS_INFLIGHT, F.SCHED_EVENT, F.SCHED_DISPATCH_CNT, F.SCHED_CANCEL_CNT, F.SCHED_CANCEL_LATE_CNT,
      F.SCHED_POISON_CNT, F.SCHED_EVT_UNBOUND_CNT, F.SCHED_TEMPLATE_MISS_CNT, F.PS_USED, F.PS_HELD, F.HQ_DEPTH,
      F.HQ_MAXDEPTH, F.HQ_PUSH_CNT, F.HQ_BUSY_CNT, F.SH_STATUS_STATE, F.SH_STATUS_SLOT, F.SH_LOAD, F.LVL_RDY_DEPTH,
      F.LVL_WAIT_AVG, F.LVL_HIST, F.FLOW_STATE_HELD, F.FLOW_STATE_IN_SERVICE, F.FLOW_STATE_HELD_CAUSE,
      F.FLOW_STATE_PENDING, F.CP_STATUS_STOP_CAUSE, F.CP_STATUS_STATE, F.CP_EVENT, F.CP_STOP_T,
      F.PWR_STATUS_WAKE_PEND, F.PWR_STATUS_LOOM_ON, F.PWR_STATUS_PHASE, F.PWR_STATUS_TARGET, F.PWR_STATUS_STATE,
      F.PWR_WAKE_SRC, F.PWR_WAKE_MERGED, F.PWR_RES, F.PWR_ENTRIES, F.MSIX_PBA],
    parts := [.skein, .cells, .fio, .treadles, .gens, .loom, .sched, .cyc, .host, .power, .rings, .sram, .dram, .dlm, .freeCtr] }

theorem keeps_enterStop (hc : Closed I Touched.enterStop) {s : State} (hk : Holds I s) (p : Nat) (cause : Nat) : Holds I (State.enterStop s p cause) := by
  have c_dropScan' : Closed I Touched.dropScan := hc.mono (by decide +kernel)
  have c_abortTreadle' : Closed I Touched.abortTreadle := hc.mono (by decide +kernel)
  have c_safeOutputs' : Closed I Touched.safeOutputs := hc.mono (by decide +kernel)
  have c_runChange' : Closed I Touched.runChange := hc.mono (by decide +kernel)
  have c_settle' : Closed I Touched.settle := hc.mono (by decide +kernel)
  have c_stopRecord' : Closed I Touched.stopRecord := hc.mono (by decide +kernel)
  have c_cpEvent' : Closed I Touched.cpEvent := hc.mono (by decide +kernel)
  unfold State.enterStop
  try dsimp only
  repeat' first | (guard_target =ₐ Holds I s; exact hk) | simp only [id_eq] | with_reducible apply keeps_wrT | with_reducible apply keeps_wr | with_reducible apply keeps_each | with_reducible apply keeps_dropScan c_dropScan' | with_reducible apply keeps_abortTreadle c_abortTreadle' | with_reducible apply keeps_safeOutputs c_safeOutputs' | with_reducible apply keeps_runChange c_runChange' | with_reducible apply keeps_settle c_settle' | with_reducible apply keeps_stopRecord c_stopRecord' | with_reducible apply keeps_cpEvent c_cpEvent' | with_reducible apply Keeps.foldl (I := I) | with_reducible apply Keeps.foldl₂ (I := I) | with_reducible apply Keeps.ite (I := I) | exact hc.mono (by decide +kernel) | split | intro s _ _ hk | intro s _ hk | intro s hk | with_reducible exact hk

def Touched.partStop : Touch :=
  { regs := [F.LC_STATUS_SHADOW_VALID, F.TR_STATUS_STAGE_STATE, F.TR_STATUS_PAUSE_CAUSE, F.TR_STATUS_DEFERRED,
      F.TR_STATUS_STATE, F.TR_EVENT_SPAWN_DROP, F.TR_EVENT_ABORT_IGNORED, F.TR_EVENT_CANCELLED,
      F.TR_STEPS_STAGED_STEP, F.TR_NEXT, F.TR_DECIDE_END_IDX, F.TR_DECIDE_DECIDED, F.TR_CANCEL_CNT,
      F.PG_STATUS_HELD, F.PG_SHADOW_TARGET, F.PG_SHADOW_VMAX, F.PG_SHADOW_WIN_M2, F.PG_SHADOW_WIN_M1,
      F.SK_STATUS_BURST_FREE_KIB, F.SK_EVENT, F.SKS_SEQ, F.SKS_STATUS_RESIDENT, F.SKS_OVERWRITE, F.LOOM_EVENT,
      F.LOOM_EVT_OVF, F.LOOM_OVF_ROUTE, F.ODO_OUT, F.ODO_OUT_SAT, F.VR_VALUE, F.SCHED_STATUS_FREE_SLOTS,
      F.SCHED_STATUS_INFLIGHT, F.SCHED_EVENT, F.SCHED_DISPATCH_CNT, F.SCHED_CANCEL_CNT, F.SCHED_CANCEL_LATE_CNT,
      F.SCHED_POISON_CNT, F.SCHED_EVT_UNBOUND_CNT, F.SCHED_TEMPLATE_MISS_CNT, F.PS_USED, F.PS_HELD, F.HQ_DEPTH,
      F.HQ_MAXDEPTH, F.HQ_PUSH_CNT, F.HQ_BUSY_CNT, F.SH_STATUS_STATE, F.SH_STATUS_SLOT, F.SH_LOAD, F.LVL_RDY_DEPTH,
      F.LVL_WAIT_AVG, F.LVL_HIST, F.FLOW_STATE_HELD, F.FLOW_STATE_IN_SERVICE, F.FLOW_STATE_HELD_CAUSE,
      F.FLOW_STATE_PENDING, F.CP_STATUS_STOP_CAUSE, F.CP_STATUS_STATE, F.CP_EVENT, F.CP_STOP_T,
      F.PWR_STATUS_WAKE_PEND, F.PWR_STATUS_LOOM_ON, F.PWR_STATUS_PHASE, F.PWR_STATUS_TARGET, F.PWR_STATUS_STATE,
      F.PWR_WAKE_SRC, F.PWR_WAKE_MERGED, F.PWR_RES, F.PWR_ENTRIES, F.MSIX_PBA],
    parts := [.skein, .cells, .fio, .treadles, .gens, .loom, .sched, .cyc, .host, .power, .rings, .sram, .dram, .dlm, .freeCtr] }

theorem keeps_partStop (hc : Closed I Touched.partStop) {s : State} (hk : Holds I s) (p : Nat) (cause : Nat) : Holds I (State.partStop s p cause) := by
  have c_stopRecord' : Closed I Touched.stopRecord := hc.mono (by decide +kernel)
  have c_enterStop' : Closed I Touched.enterStop := hc.mono (by decide +kernel)
  unfold State.partStop
  try dsimp only
  repeat' first | (guard_target =ₐ Holds I s; exact hk) | simp only [id_eq] | with_reducible apply keeps_stopRecord c_stopRecord' | with_reducible apply keeps_enterStop c_enterStop' | with_reducible apply Keeps.foldl (I := I) | with_reducible apply Keeps.foldl₂ (I := I) | with_reducible apply Keeps.ite (I := I) | split | intro s _ _ hk | intro s _ hk | intro s hk | with_reducible exact hk

def Touched.stopAll : Touch :=
  { regs := [F.LC_STATUS_SHADOW_VALID, F.TR_STATUS_STAGE_STATE, F.TR_STATUS_PAUSE_CAUSE, F.TR_STATUS_DEFERRED,
      F.TR_STATUS_STATE, F.TR_EVENT_SPAWN_DROP, F.TR_EVENT_ABORT_IGNORED, F.TR_EVENT_CANCELLED,
      F.TR_STEPS_STAGED_STEP, F.TR_NEXT, F.TR_DECIDE_END_IDX, F.TR_DECIDE_DECIDED, F.TR_CANCEL_CNT,
      F.PG_STATUS_HELD, F.PG_SHADOW_TARGET, F.PG_SHADOW_VMAX, F.PG_SHADOW_WIN_M2, F.PG_SHADOW_WIN_M1,
      F.SK_STATUS_BURST_FREE_KIB, F.SK_EVENT, F.SKS_SEQ, F.SKS_STATUS_RESIDENT, F.SKS_OVERWRITE, F.LOOM_EVENT,
      F.LOOM_EVT_OVF, F.LOOM_OVF_ROUTE, F.ODO_OUT, F.ODO_OUT_SAT, F.VR_VALUE, F.SCHED_STATUS_FREE_SLOTS,
      F.SCHED_STATUS_INFLIGHT, F.SCHED_EVENT, F.SCHED_DISPATCH_CNT, F.SCHED_CANCEL_CNT, F.SCHED_CANCEL_LATE_CNT,
      F.SCHED_POISON_CNT, F.SCHED_EVT_UNBOUND_CNT, F.SCHED_TEMPLATE_MISS_CNT, F.PS_USED, F.PS_HELD, F.HQ_DEPTH,
      F.HQ_MAXDEPTH, F.HQ_PUSH_CNT, F.HQ_BUSY_CNT, F.SH_STATUS_STATE, F.SH_STATUS_SLOT, F.SH_LOAD, F.LVL_RDY_DEPTH,
      F.LVL_WAIT_AVG, F.LVL_HIST, F.FLOW_STATE_HELD, F.FLOW_STATE_IN_SERVICE, F.FLOW_STATE_HELD_CAUSE,
      F.FLOW_STATE_PENDING, F.CP_STATUS_STOP_CAUSE, F.CP_STATUS_STATE, F.CP_EVENT, F.CP_STOP_T,
      F.PWR_STATUS_WAKE_PEND, F.PWR_STATUS_LOOM_ON, F.PWR_STATUS_PHASE, F.PWR_STATUS_TARGET, F.PWR_STATUS_STATE,
      F.PWR_WAKE_SRC, F.PWR_WAKE_MERGED, F.PWR_RES, F.PWR_ENTRIES, F.MSIX_PBA],
    parts := [.skein, .cells, .fio, .treadles, .gens, .loom, .sched, .cyc, .host, .power, .rings, .sram, .dram, .dlm, .freeCtr] }

theorem keeps_stopAll (hc : Closed I Touched.stopAll) {s : State} (hk : Holds I s) (cause : Nat) : Holds I (State.stopAll s cause) := by
  have c_partStop' : Closed I Touched.partStop := hc.mono (by decide +kernel)
  unfold State.stopAll
  try dsimp only
  repeat' first | (guard_target =ₐ Holds I s; exact hk) | simp only [id_eq] | with_reducible apply keeps_each | with_reducible apply keeps_partStop c_partStop' | with_reducible apply Keeps.foldl (I := I) | with_reducible apply Keeps.foldl₂ (I := I) | with_reducible apply Keeps.ite (I := I) | split | intro s _ _ hk | intro s _ hk | intro s hk | with_reducible exact hk

end Sys2Proof.Machine
end

