-- ==== Sys2Proof/Laws/Keeps/LoomOps.lean ====
section
/-! SUPPORT.  What the operations of Machine/LoomOps.lean touch, and that they keep every property
closed under it. -/

namespace Sys2Proof.Machine

open Sys2Proof

set_option Elab.async false
set_option linter.unusedSimpArgs false
set_option linter.unusedVariables false
set_option linter.unusedTactic false
set_option linter.unreachableTactic false

variable {I : State → Prop}

def Touched.tapCfg : Touch :=
  { regs := [F.SK_STATUS_BURST_FREE_KIB, F.SK_EVENT, F.SKS_SEQ, F.SKS_STATUS_RESIDENT, F.SKS_OVERWRITE],
    parts := [.skein] }

theorem keeps_tapCfg (hc : Closed I Touched.tapCfg) {s : State} (hk : Holds I s) (k : Nat) (at_ : Instant) : Holds I (State.tapCfg s k at_) := by
  have c_record' : Closed I Touched.record := hc.mono (by decide +kernel)
  unfold State.tapCfg
  try dsimp only
  repeat' first | (guard_target =ₐ Holds I s; exact hk) | simp only [id_eq] | with_reducible apply keeps_record c_record' | with_reducible apply Keeps.foldl (I := I) | with_reducible apply Keeps.foldl₂ (I := I) | with_reducible apply Keeps.ite (I := I) | split | intro s _ _ hk | intro s _ hk | intro s hk | with_reducible exact hk

def Touched.announceTaps : Touch :=
  { regs := [F.SK_STATUS_BURST_FREE_KIB, F.SK_EVENT, F.SKS_SEQ, F.SKS_STATUS_RESIDENT, F.SKS_OVERWRITE],
    parts := [.skein] }

theorem keeps_announceTaps (hc : Closed I Touched.announceTaps) {s : State} (hk : Holds I s) (k : Nat) : Holds I (State.announceTaps s k) := by
  have c_tapCfg' : Closed I Touched.tapCfg := hc.mono (by decide +kernel)
  have c_endRun' : Closed I Touched.endRun := hc.mono (by decide +kernel)
  unfold State.announceTaps
  try dsimp only
  repeat' first | (guard_target =ₐ Holds I s; exact hk) | simp only [id_eq] | with_reducible apply keeps_tapCfg c_tapCfg' | with_reducible apply keeps_each | with_reducible apply keeps_endRun c_endRun' | with_reducible apply Keeps.foldl (I := I) | with_reducible apply Keeps.foldl₂ (I := I) | with_reducible apply Keeps.ite (I := I) | split | intro s _ _ hk | intro s _ hk | intro s hk | with_reducible exact hk

def Touched.wrPart : Touch :=
  { anyReg := true }

theorem keeps_wrPart (hc : Closed I Touched.wrPart) {s : State} (hk : Holds I s) (b : FieldBits) (i : Nat) (v : Nat) : Holds I (State.wrPart s b i v) := by
  unfold State.wrPart
  try dsimp only
  repeat' first | (guard_target =ₐ Holds I s; exact hk) | simp only [id_eq] | with_reducible apply keeps_wr | with_reducible apply Keeps.foldl (I := I) | with_reducible apply Keeps.foldl₂ (I := I) | with_reducible apply Keeps.ite (I := I) | exact hc.anyFld rfl _ | split | intro s _ _ hk | intro s _ hk | intro s hk | with_reducible exact hk

def Touched.applyWord : Touch :=
  { anyReg := true }

theorem keeps_applyWord (hc : Closed I Touched.applyWord) {s : State} (hk : Holds I s) (ids : List Nat) (addr : Nat) (v : Nat) : Holds I (State.applyWord s ids addr v) := by
  have c_wrPart' : Closed I Touched.wrPart := hc.mono (by decide +kernel)
  unfold State.applyWord
  try dsimp only
  repeat' first | (guard_target =ₐ Holds I s; exact hk) | simp only [id_eq] | with_reducible apply keeps_wrPart c_wrPart' | with_reducible apply Keeps.foldl (I := I) | with_reducible apply Keeps.foldl₂ (I := I) | with_reducible apply Keeps.ite (I := I) | split | intro s _ _ hk | intro s _ hk | intro s hk | with_reducible exact hk

def Touched.applyImage : Touch :=
  { anyReg := true }

theorem keeps_applyImage (hc : Closed I Touched.applyImage) {s : State} (hk : Holds I s) (key : Nat) (ws : List (Nat × Nat)) : Holds I (State.applyImage s key ws) := by
  have c_applyWord' : Closed I Touched.applyWord := hc.mono (by decide +kernel)
  unfold State.applyImage
  try dsimp only
  repeat' first | (guard_target =ₐ Holds I s; exact hk) | simp only [id_eq] | with_reducible apply keeps_applyWord c_applyWord' | with_reducible apply Keeps.foldl (I := I) | with_reducible apply Keeps.foldl₂ (I := I) | with_reducible apply Keeps.ite (I := I) | split | intro s _ _ hk | intro s _ hk | intro s hk | with_reducible exact hk

def Touched.discardEdits : Touch :=
  { regs := [F.LP_STATUS_EDITS_PENDING], parts := [.loom] }

theorem keeps_discardEdits (hc : Closed I Touched.discardEdits) {s : State} (hk : Holds I s) (p : Nat) : Holds I (State.discardEdits s p) := by
  have c_putRecord' : Closed I Touched.putRecord := hc.mono (by decide +kernel)
  unfold State.discardEdits
  try dsimp only
  repeat' first | (guard_target =ₐ Holds I s; exact hk) | simp only [id_eq] | with_reducible apply keeps_putRecord c_putRecord' | with_reducible apply keeps_wr | with_reducible apply Keeps.foldl (I := I) | with_reducible apply Keeps.foldl₂ (I := I) | with_reducible apply Keeps.ite (I := I) | exact hc.mono (by decide +kernel) | split | intro s _ _ hk | intro s _ hk | intro s hk | with_reducible exact hk

def Touched.emit : Touch :=
  { regs := [F.TR_EVENT_SPAWN_DROP, F.TR_COND, F.SK_STATUS_BURST_FREE_KIB, F.SK_EVENT, F.SKS_SEQ, F.SKS_STATUS_RESIDENT,
      F.SKS_OVERWRITE, F.CS_STATUS_STATE, F.CS_EVENT, F.LOOM_EVENT, F.LOOM_EVT_OVF, F.LOOM_OVF_ROUTE,
      F.SCHED_STATUS_FREE_SLOTS, F.SCHED_STATUS_INFLIGHT, F.SCHED_EVENT, F.SCHED_DISPATCH_CNT,
      F.SCHED_EVT_UNBOUND_CNT, F.SCHED_TEMPLATE_MISS_CNT, F.PS_USED, F.HQ_DEPTH, F.HQ_MAXDEPTH, F.HQ_PUSH_CNT,
      F.HQ_BUSY_CNT, F.SH_STATUS_STATE, F.SH_STATUS_SLOT, F.SH_LOAD, F.LVL_RDY_DEPTH, F.LVL_WAIT_AVG, F.LVL_HIST,
      F.FLOW_STATE_IN_SERVICE, F.FLOW_STATE_PENDING, F.PWR_STATUS_WAKE_PEND, F.PWR_STATUS_PHASE,
      F.PWR_STATUS_STATE, F.PWR_WAKE_SRC, F.PWR_WAKE_MERGED, F.PWR_RES, F.PWR_ENTRIES, F.MSIX_PBA],
    parts := [.skein, .treadles, .trig, .sched, .host, .power, .sram, .dram, .dlm, .freeCtr] }

theorem keeps_emit (hc : Closed I Touched.emit) {s : State} (hk : Holds I s) (er : Nat) (data : Nat) (at_ : Instant) : Holds I (State.emit s er data at_) := by
  have c_trigEvent' : Closed I Touched.trigEvent := hc.mono (by decide +kernel)
  have c_latchConds' : Closed I Touched.latchConds := hc.mono (by decide +kernel)
  have c_dispatch' : Closed I Touched.dispatch := hc.mono (by decide +kernel)
  have c_schedPut' : Closed I Touched.schedPut := hc.mono (by decide +kernel)
  unfold State.emit
  try dsimp only
  repeat' first | (guard_target =ₐ Holds I s; exact hk) | simp only [id_eq] | with_reducible apply keeps_trigEvent c_trigEvent' | with_reducible apply keeps_latchConds c_latchConds' | with_reducible apply keeps_dispatch c_dispatch' | with_reducible apply keeps_schedPut c_schedPut' | with_reducible apply Keeps.foldl (I := I) | with_reducible apply Keeps.foldl₂ (I := I) | with_reducible apply Keeps.ite (I := I) | split | intro s _ _ hk | intro s _ hk | intro s hk | with_reducible exact hk

def Touched.emitEdge : Touch :=
  { regs := [F.TR_EVENT_SPAWN_DROP, F.TR_COND, F.SK_STATUS_BURST_FREE_KIB, F.SK_EVENT, F.SKS_SEQ, F.SKS_STATUS_RESIDENT,
      F.SKS_OVERWRITE, F.CS_STATUS_STATE, F.CS_EVENT, F.LOOM_EVENT, F.LOOM_EVT_OVF, F.LOOM_OVF_ROUTE,
      F.SCHED_STATUS_FREE_SLOTS, F.SCHED_STATUS_INFLIGHT, F.SCHED_EVENT, F.SCHED_DISPATCH_CNT,
      F.SCHED_EVT_UNBOUND_CNT, F.SCHED_TEMPLATE_MISS_CNT, F.PS_USED, F.HQ_DEPTH, F.HQ_MAXDEPTH, F.HQ_PUSH_CNT,
      F.HQ_BUSY_CNT, F.SH_STATUS_STATE, F.SH_STATUS_SLOT, F.SH_LOAD, F.LVL_RDY_DEPTH, F.LVL_WAIT_AVG, F.LVL_HIST,
      F.FLOW_STATE_IN_SERVICE, F.FLOW_STATE_PENDING, F.PWR_STATUS_WAKE_PEND, F.PWR_STATUS_PHASE,
      F.PWR_STATUS_STATE, F.PWR_WAKE_SRC, F.PWR_WAKE_MERGED, F.PWR_RES, F.PWR_ENTRIES, F.MSIX_PBA],
    parts := [.skein, .treadles, .trig, .sched, .host, .power, .sram, .dram, .dlm, .freeCtr] }

theorem keeps_emitEdge (hc : Closed I Touched.emitEdge) {s : State} (hk : Holds I s) (kind : Nat) (id : Nat) (rising : Bool) (at_ : Instant) : Holds I (State.emitEdge s kind id rising at_) := by
  have c_emit' : Closed I Touched.emit := hc.mono (by decide +kernel)
  unfold State.emitEdge
  try dsimp only
  repeat' first | (guard_target =ₐ Holds I s; exact hk) | simp only [id_eq] | with_reducible apply keeps_each | with_reducible apply keeps_emit c_emit' | with_reducible apply Keeps.foldl (I := I) | with_reducible apply Keeps.foldl₂ (I := I) | with_reducible apply Keeps.ite (I := I) | split | intro s _ _ hk | intro s _ hk | intro s hk | with_reducible exact hk

def Touched.emitFrom : Touch :=
  { regs := [F.TR_EVENT_SPAWN_DROP, F.TR_COND, F.SK_STATUS_BURST_FREE_KIB, F.SK_EVENT, F.SKS_SEQ, F.SKS_STATUS_RESIDENT,
      F.SKS_OVERWRITE, F.CS_STATUS_STATE, F.CS_EVENT, F.LOOM_EVENT, F.LOOM_EVT_OVF, F.LOOM_OVF_ROUTE,
      F.SCHED_STATUS_FREE_SLOTS, F.SCHED_STATUS_INFLIGHT, F.SCHED_EVENT, F.SCHED_DISPATCH_CNT,
      F.SCHED_EVT_UNBOUND_CNT, F.SCHED_TEMPLATE_MISS_CNT, F.PS_USED, F.HQ_DEPTH, F.HQ_MAXDEPTH, F.HQ_PUSH_CNT,
      F.HQ_BUSY_CNT, F.SH_STATUS_STATE, F.SH_STATUS_SLOT, F.SH_LOAD, F.LVL_RDY_DEPTH, F.LVL_WAIT_AVG, F.LVL_HIST,
      F.FLOW_STATE_IN_SERVICE, F.FLOW_STATE_PENDING, F.PWR_STATUS_WAKE_PEND, F.PWR_STATUS_PHASE,
      F.PWR_STATUS_STATE, F.PWR_WAKE_SRC, F.PWR_WAKE_MERGED, F.PWR_RES, F.PWR_ENTRIES, F.MSIX_PBA],
    parts := [.skein, .treadles, .trig, .sched, .host, .power, .sram, .dram, .dlm, .freeCtr] }

theorem keeps_emitFrom (hc : Closed I Touched.emitFrom) {s : State} (hk : Holds I s) (kind : Nat) (id : Nat) (data : Nat) : Holds I (State.emitFrom s kind id data) := by
  have c_emit' : Closed I Touched.emit := hc.mono (by decide +kernel)
  unfold State.emitFrom
  try dsimp only
  repeat' first | (guard_target =ₐ Holds I s; exact hk) | simp only [id_eq] | with_reducible apply keeps_each | with_reducible apply keeps_emit c_emit' | with_reducible apply Keeps.foldl (I := I) | with_reducible apply Keeps.foldl₂ (I := I) | with_reducible apply Keeps.ite (I := I) | split | intro s _ _ hk | intro s _ hk | intro s hk | with_reducible exact hk

def Touched.putApply : Touch :=
  { parts := [.loom] }

theorem keeps_putApply (hc : Closed I Touched.putApply) {s : State} (hk : Holds I s) (p : Nat) (a : Apply) : Holds I (State.putApply s p a) := by
  have c_loom : Closed I { parts := [.loom] } := hc.mono (by decide +kernel)
  unfold State.putApply
  try dsimp only
  repeat' first | (guard_target =ₐ Holds I s; exact hk) | simp only [ic_mk, id_eq] | with_reducible refine ic_loom c_loom (ic_fold ?_) | with_reducible apply Keeps.foldl (I := I) | with_reducible apply Keeps.foldl₂ (I := I) | with_reducible apply Keeps.ite (I := I) | split | intro s _ _ hk | intro s _ hk | intro s hk | with_reducible exact hk

def Touched.lpEvent : Touch :=
  { regs := [F.LP_EVENT] }

theorem keeps_lpEvent (hc : Closed I Touched.lpEvent) {s : State} (hk : Holds I s) (p : Nat) (bit : Nat) : Holds I (State.lpEvent s p bit) := by
  unfold State.lpEvent
  try dsimp only
  repeat' first | (guard_target =ₐ Holds I s; exact hk) | simp only [id_eq] | with_reducible apply keeps_setBit | with_reducible apply Keeps.foldl (I := I) | with_reducible apply Keeps.foldl₂ (I := I) | with_reducible apply Keeps.ite (I := I) | exact hc.mono (by decide +kernel) | split | intro s _ _ hk | intro s _ hk | intro s hk | with_reducible exact hk

def Touched.endApply : Touch :=
  { regs := [F.SK_STATUS_BURST_FREE_KIB, F.SK_EVENT, F.SKS_SEQ, F.SKS_STATUS_RESIDENT, F.SKS_OVERWRITE,
      F.LP_STATUS_RESULT, F.LP_STATUS_APPLY_STATE, F.LP_EVENT, F.ODO_OUT, F.ODO_OUT_SAT],
    parts := [.skein, .fio, .loom] }

theorem keeps_endApply (hc : Closed I Touched.endApply) {s : State} (hk : Holds I s) (p : Nat) (res : Nat) : Holds I (State.endApply s p res) := by
  have c_putApply' : Closed I Touched.putApply := hc.mono (by decide +kernel)
  have c_settle' : Closed I Touched.settle := hc.mono (by decide +kernel)
  have c_lpEvent' : Closed I Touched.lpEvent := hc.mono (by decide +kernel)
  have c_event' : Closed I Touched.event := hc.mono (by decide +kernel)
  unfold State.endApply
  try dsimp only
  repeat' first | (guard_target =ₐ Holds I s; exact hk) | simp only [id_eq] | with_reducible apply keeps_putApply c_putApply' | with_reducible apply keeps_settle c_settle' | with_reducible apply keeps_wr | with_reducible apply keeps_lpEvent c_lpEvent' | with_reducible apply keeps_event c_event' | with_reducible apply Keeps.foldl (I := I) | with_reducible apply Keeps.foldl₂ (I := I) | with_reducible apply Keeps.ite (I := I) | exact hc.mono (by decide +kernel) | split | intro s _ _ hk | intro s _ hk | intro s hk | with_reducible exact hk

def Touched.putLe : Touch :=
  { parts := [.loom] }

theorem keeps_putLe (hc : Closed I Touched.putLe) {s : State} (hk : Holds I s) (n : Nat) (x : LogicElem) : Holds I (State.putLe s n x) := by
  have c_loom : Closed I { parts := [.loom] } := hc.mono (by decide +kernel)
  unfold State.putLe
  try dsimp only
  repeat' first | (guard_target =ₐ Holds I s; exact hk) | simp only [ic_mk, id_eq] | with_reducible refine ic_loom c_loom (ic_fold ?_) | with_reducible apply Keeps.foldl (I := I) | with_reducible apply Keeps.foldl₂ (I := I) | with_reducible apply Keeps.ite (I := I) | split | intro s _ _ hk | intro s _ hk | intro s hk | with_reducible exact hk

def Touched.setLe : Touch :=
  { regs := [F.TR_EVENT_SPAWN_DROP, F.TR_COND, F.SK_STATUS_BURST_FREE_KIB, F.SK_EVENT, F.SKS_SEQ, F.SKS_STATUS_RESIDENT,
      F.SKS_OVERWRITE, F.CS_STATUS_STATE, F.CS_EVENT, F.LOOM_EVENT, F.LOOM_EVT_OVF, F.LOOM_OVF_ROUTE, F.ODO_OUT,
      F.ODO_OUT_SAT, F.LE_NET, F.SCHED_STATUS_FREE_SLOTS, F.SCHED_STATUS_INFLIGHT, F.SCHED_EVENT,
      F.SCHED_DISPATCH_CNT, F.SCHED_EVT_UNBOUND_CNT, F.SCHED_TEMPLATE_MISS_CNT, F.PS_USED, F.HQ_DEPTH,
      F.HQ_MAXDEPTH, F.HQ_PUSH_CNT, F.HQ_BUSY_CNT, F.SH_STATUS_STATE, F.SH_STATUS_SLOT, F.SH_LOAD, F.LVL_RDY_DEPTH,
      F.LVL_WAIT_AVG, F.LVL_HIST, F.FLOW_STATE_IN_SERVICE, F.FLOW_STATE_PENDING, F.PWR_STATUS_WAKE_PEND,
      F.PWR_STATUS_PHASE, F.PWR_STATUS_STATE, F.PWR_WAKE_SRC, F.PWR_WAKE_MERGED, F.PWR_RES, F.PWR_ENTRIES,
      F.MSIX_PBA],
    parts := [.skein, .fio, .treadles, .trig, .loom, .sched, .host, .power, .sram, .dram, .dlm, .freeCtr] }

theorem keeps_setLe (hc : Closed I Touched.setLe) {s : State} (hk : Holds I s) (n : Nat) (b : Bool) : Holds I (State.setLe s n b) := by
  have c_settle' : Closed I Touched.settle := hc.mono (by decide +kernel)
  have c_emitEdge' : Closed I Touched.emitEdge := hc.mono (by decide +kernel)
  unfold State.setLe
  try dsimp only
  repeat' first | (guard_target =ₐ Holds I s; exact hk) | simp only [id_eq] | with_reducible apply keeps_settle c_settle' | with_reducible apply keeps_emitEdge c_emitEdge' | with_reducible apply keeps_wr | with_reducible apply Keeps.foldl (I := I) | with_reducible apply Keeps.foldl₂ (I := I) | with_reducible apply Keeps.ite (I := I) | exact hc.mono (by decide +kernel) | split | intro s _ _ hk | intro s _ hk | intro s hk | with_reducible exact hk

def Touched.evalLe : Touch :=
  { regs := [F.TR_EVENT_SPAWN_DROP, F.TR_COND, F.SK_STATUS_BURST_FREE_KIB, F.SK_EVENT, F.SKS_SEQ, F.SKS_STATUS_RESIDENT,
      F.SKS_OVERWRITE, F.CS_STATUS_STATE, F.CS_EVENT, F.LOOM_EVENT, F.LOOM_EVT_OVF, F.LOOM_OVF_ROUTE, F.ODO_OUT,
      F.ODO_OUT_SAT, F.LE_NET, F.SCHED_STATUS_FREE_SLOTS, F.SCHED_STATUS_INFLIGHT, F.SCHED_EVENT,
      F.SCHED_DISPATCH_CNT, F.SCHED_EVT_UNBOUND_CNT, F.SCHED_TEMPLATE_MISS_CNT, F.PS_USED, F.HQ_DEPTH,
      F.HQ_MAXDEPTH, F.HQ_PUSH_CNT, F.HQ_BUSY_CNT, F.SH_STATUS_STATE, F.SH_STATUS_SLOT, F.SH_LOAD, F.LVL_RDY_DEPTH,
      F.LVL_WAIT_AVG, F.LVL_HIST, F.FLOW_STATE_IN_SERVICE, F.FLOW_STATE_PENDING, F.PWR_STATUS_WAKE_PEND,
      F.PWR_STATUS_PHASE, F.PWR_STATUS_STATE, F.PWR_WAKE_SRC, F.PWR_WAKE_MERGED, F.PWR_RES, F.PWR_ENTRIES,
      F.MSIX_PBA],
    parts := [.skein, .fio, .treadles, .trig, .loom, .sched, .host, .power, .sram, .dram, .dlm, .freeCtr] }

theorem keeps_evalLe (hc : Closed I Touched.evalLe) {s : State} (hk : Holds I s) (n : Nat) (since : Instant) : Holds I (State.evalLe s n since) := by
  have c_putLe' : Closed I Touched.putLe := hc.mono (by decide +kernel)
  have c_setLe' : Closed I Touched.setLe := hc.mono (by decide +kernel)
  unfold State.evalLe
  try dsimp only
  repeat' first | (guard_target =ₐ Holds I s; exact hk) | simp only [id_eq] | with_reducible apply keeps_putLe c_putLe' | with_reducible apply keeps_setLe c_setLe' | with_reducible apply Keeps.foldl (I := I) | with_reducible apply Keeps.foldl₂ (I := I) | with_reducible apply Keeps.ite (I := I) | split | intro s _ _ hk | intro s _ hk | intro s hk | with_reducible exact hk

def Touched.takeChanged : Touch :=
  { anyReg := true,
    parts := [.skein, .cells, .fio, .treadles, .gens, .trig, .loom, .sched, .host, .power, .sram, .dram, .dlm, .freeCtr] }

theorem keeps_takeChanged (hc : Closed I Touched.takeChanged) {s : State} (hk : Holds I s) (key : Nat) (old : Nat) (new : Nat) : Holds I (State.takeChanged s key old new) := by
  have c_applyImage' : Closed I Touched.applyImage := hc.mono (by decide +kernel)
  have c_putCell' : Closed I Touched.putCell := hc.mono (by decide +kernel)
  have c_swapClamp' : Closed I Touched.swapClamp := hc.mono (by decide +kernel)
  have c_putCs' : Closed I Touched.putCs := hc.mono (by decide +kernel)
  have c_giveTarget' : Closed I Touched.giveTarget := hc.mono (by decide +kernel)
  have c_giveLimits' : Closed I Touched.giveLimits := hc.mono (by decide +kernel)
  have c_evalLe' : Closed I Touched.evalLe := hc.mono (by decide +kernel)
  unfold State.takeChanged
  try dsimp only
  repeat' first | (guard_target =ₐ Holds I s; exact hk) | simp only [id_eq] | with_reducible apply keeps_applyImage c_applyImage' | with_reducible apply keeps_putCell c_putCell' | with_reducible apply keeps_swapClamp c_swapClamp' | with_reducible apply keeps_wr | with_reducible apply keeps_putCs c_putCs' | with_reducible apply keeps_giveTarget c_giveTarget' | with_reducible apply keeps_giveLimits c_giveLimits' | with_reducible apply keeps_evalLe c_evalLe' | with_reducible apply Keeps.foldl (I := I) | with_reducible apply Keeps.foldl₂ (I := I) | with_reducible apply Keeps.ite (I := I) | exact hc.mono (by decide +kernel) | split | intro s _ _ hk | intro s _ hk | intro s hk | with_reducible exact hk

def Touched.flipRecords : Touch :=
  { anyReg := true,
    parts := [.skein, .cells, .fio, .treadles, .gens, .trig, .loom, .sched, .host, .power, .sram, .dram, .dlm, .freeCtr] }

theorem keeps_flipRecords (hc : Closed I Touched.flipRecords) {s : State} (hk : Holds I s) (keys : List Nat) : Holds I (State.flipRecords s keys) := by
  have c_putRecord' : Closed I Touched.putRecord := hc.mono (by decide +kernel)
  have c_takeChanged' : Closed I Touched.takeChanged := hc.mono (by decide +kernel)
  have c_putTapMem' : Closed I Touched.putTapMem := hc.mono (by decide +kernel)
  have c_settle' : Closed I Touched.settle := hc.mono (by decide +kernel)
  have c_announceTaps' : Closed I Touched.announceTaps := hc.mono (by decide +kernel)
  unfold State.flipRecords
  try dsimp only
  repeat' first | (guard_target =ₐ Holds I s; exact hk) | simp only [id_eq] | with_reducible apply keeps_putRecord c_putRecord' | with_reducible apply keeps_takeChanged c_takeChanged' | with_reducible apply keeps_each | with_reducible apply keeps_putTapMem c_putTapMem' | with_reducible apply keeps_settle c_settle' | with_reducible apply keeps_announceTaps c_announceTaps' | with_reducible apply Keeps.foldl (I := I) | with_reducible apply Keeps.foldl₂ (I := I) | with_reducible apply Keeps.ite (I := I) | split | intro s _ _ hk | intro s _ hk | intro s hk | with_reducible exact hk

def Touched.flipEdits : Touch :=
  { anyReg := true,
    parts := [.skein, .cells, .fio, .treadles, .gens, .trig, .loom, .sched, .host, .power, .sram, .dram, .dlm, .freeCtr] }

theorem keeps_flipEdits (hc : Closed I Touched.flipEdits) {s : State} (hk : Holds I s) (p : Nat) : Holds I (State.flipEdits s p) := by
  have c_putApply' : Closed I Touched.putApply := hc.mono (by decide +kernel)
  have c_flipRecords' : Closed I Touched.flipRecords := hc.mono (by decide +kernel)
  unfold State.flipEdits
  try dsimp only
  repeat' first | (guard_target =ₐ Holds I s; exact hk) | simp only [id_eq] | with_reducible apply keeps_putApply c_putApply' | with_reducible apply keeps_wrT | with_reducible apply keeps_wr | with_reducible apply keeps_flipRecords c_flipRecords' | with_reducible apply Keeps.foldl (I := I) | with_reducible apply Keeps.foldl₂ (I := I) | with_reducible apply Keeps.ite (I := I) | exact hc.mono (by decide +kernel) | split | intro s _ _ hk | intro s _ hk | intro s hk | with_reducible exact hk

def Touched.restoreShadows : Touch :=
  { parts := [.loom] }

theorem keeps_restoreShadows (hc : Closed I Touched.restoreShadows) {s : State} (hk : Holds I s) (p : Nat) : Holds I (State.restoreShadows s p) := by
  have c_putRecord' : Closed I Touched.putRecord := hc.mono (by decide +kernel)
  unfold State.restoreShadows
  try dsimp only
  repeat' first | (guard_target =ₐ Holds I s; exact hk) | simp only [id_eq] | with_reducible apply keeps_putRecord c_putRecord' | with_reducible apply Keeps.foldl (I := I) | with_reducible apply Keeps.foldl₂ (I := I) | with_reducible apply Keeps.ite (I := I) | split | intro s _ _ hk | intro s _ hk | intro s hk | with_reducible exact hk

def Touched.resetApply : Touch :=
  { regs := [F.SK_STATUS_BURST_FREE_KIB, F.SK_EVENT, F.SKS_SEQ, F.SKS_STATUS_RESIDENT, F.SKS_OVERWRITE,
      F.LP_STATUS_RESULT, F.LP_STATUS_APPLY_STATE, F.LP_EVENT, F.ODO_OUT, F.ODO_OUT_SAT],
    parts := [.skein, .fio, .loom] }

theorem keeps_resetApply (hc : Closed I Touched.resetApply) {s : State} (hk : Holds I s) (p : Nat) : Holds I (State.resetApply s p) := by
  have c_endApply' : Closed I Touched.endApply := hc.mono (by decide +kernel)
  have c_restoreShadows' : Closed I Touched.restoreShadows := hc.mono (by decide +kernel)
  have c_putApply' : Closed I Touched.putApply := hc.mono (by decide +kernel)
  unfold State.resetApply
  try dsimp only
  repeat' first | (guard_target =ₐ Holds I s; exact hk) | simp only [id_eq] | with_reducible apply keeps_endApply c_endApply' | with_reducible apply keeps_restoreShadows c_restoreShadows' | with_reducible apply keeps_putApply c_putApply' | with_reducible apply Keeps.foldl (I := I) | with_reducible apply Keeps.foldl₂ (I := I) | with_reducible apply Keeps.ite (I := I) | split | intro s _ _ hk | intro s _ hk | intro s hk | with_reducible exact hk

def Touched.takeLoaded : Touch :=
  { anyReg := true, parts := [.cells, .fio, .gens, .loom] }

theorem keeps_takeLoaded (hc : Closed I Touched.takeLoaded) {s : State} (hk : Holds I s) (key : Nat) : Holds I (State.takeLoaded s key) := by
  have c_applyImage' : Closed I Touched.applyImage := hc.mono (by decide +kernel)
  have c_putCell' : Closed I Touched.putCell := hc.mono (by decide +kernel)
  have c_putCs' : Closed I Touched.putCs := hc.mono (by decide +kernel)
  have c_putGen' : Closed I Touched.putGen := hc.mono (by decide +kernel)
  have c_shapeGen' : Closed I Touched.shapeGen := hc.mono (by decide +kernel)
  have c_wrShadow' : Closed I Touched.wrShadow := hc.mono (by decide +kernel)
  have c_putOut' : Closed I Touched.putOut := hc.mono (by decide +kernel)
  have c_putPin' : Closed I Touched.putPin := hc.mono (by decide +kernel)
  unfold State.takeLoaded
  try dsimp only
  repeat' first | (guard_target =ₐ Holds I s; exact hk) | simp only [id_eq] | with_reducible apply keeps_applyImage c_applyImage' | with_reducible apply keeps_putCell c_putCell' | with_reducible apply keeps_wr | with_reducible apply keeps_putCs c_putCs' | with_reducible apply keeps_putGen c_putGen' | with_reducible apply keeps_shapeGen c_shapeGen' | with_reducible apply keeps_wrShadow c_wrShadow' | with_reducible apply keeps_putOut c_putOut' | with_reducible apply keeps_putPin c_putPin' | with_reducible apply Keeps.foldl (I := I) | with_reducible apply Keeps.foldl₂ (I := I) | with_reducible apply Keeps.ite (I := I) | exact hc.mono (by decide +kernel) | split | intro s _ _ hk | intro s _ hk | intro s hk | with_reducible exact hk

end Sys2Proof.Machine
end

