-- ==== Sys2Proof/Laws/Keeps/RegOps.lean ====
section
/-! SUPPORT.  What the operations of Machine/RegOps.lean touch, and that they keep every property
closed under it. -/

namespace Sys2Proof.Machine

open Sys2Proof

set_option Elab.async false
set_option linter.unusedSimpArgs false
set_option linter.unusedVariables false
set_option linter.unusedTactic false
set_option linter.unreachableTactic false

variable {I : State → Prop}

def Touched.onHost : Touch :=
  { parts := [.host] }

theorem keeps_onHost (hc : Closed I Touched.onHost) {s : State} (hk : Holds I s) (f : HostPaths → HostPaths) : Holds I (State.onHost s f) := by
  have c_host : Closed I { parts := [.host] } := hc.mono (by decide +kernel)
  unfold State.onHost
  try dsimp only
  repeat' first | (guard_target =ₐ Holds I s; exact hk) | simp only [ic_mk, id_eq] | with_reducible refine ic_host c_host (ic_fold ?_) | with_reducible apply Keeps.foldl (I := I) | with_reducible apply Keeps.foldl₂ (I := I) | with_reducible apply Keeps.ite (I := I) | split | intro s _ _ hk | intro s _ hk | intro s hk | with_reducible exact hk

def Touched.putWaiting : Touch :=
  { parts := [.host] }

theorem keeps_putWaiting (hc : Closed I Touched.putWaiting) {s : State} (hk : Holds I s) (obj : Nat) (l : List HostCmd) : Holds I (State.putWaiting s obj l) := by
  have c_onHost' : Closed I Touched.onHost := hc.mono (by decide +kernel)
  unfold State.putWaiting
  try dsimp only
  repeat' first | (guard_target =ₐ Holds I s; exact hk) | simp only [id_eq] | with_reducible apply keeps_onHost c_onHost' | with_reducible apply Keeps.foldl (I := I) | with_reducible apply Keeps.foldl₂ (I := I) | with_reducible apply Keeps.ite (I := I) | split | intro s _ _ hk | intro s _ hk | intro s hk | with_reducible exact hk

def Touched.takeSeq : Touch :=
  { parts := [.host] }

theorem keeps_takeSeq (hc : Closed I Touched.takeSeq) {s : State} (hk : Holds I s) (obj : Nat) : Holds I (State.takeSeq s obj) := by
  have c_host : Closed I { parts := [.host] } := hc.mono (by decide +kernel)
  unfold State.takeSeq
  try dsimp only
  repeat' first | (guard_target =ₐ Holds I s; exact hk) | simp only [ic_mk, id_eq] | with_reducible refine ic_host c_host (ic_fold ?_) | with_reducible apply Keeps.foldl (I := I) | with_reducible apply Keeps.foldl₂ (I := I) | with_reducible apply Keeps.ite (I := I) | split | intro s _ _ hk | intro s _ hk | intro s hk | with_reducible exact hk

def Touched.acceptWrite : Touch :=
  { parts := [.host] }

theorem keeps_acceptWrite (hc : Closed I Touched.acceptWrite) {s : State} (hk : Holds I s) (obj : Nat) (off : Nat) (tag : Nat) : Holds I (State.acceptWrite s obj off tag) := by
  have c_putWaiting' : Closed I Touched.putWaiting := hc.mono (by decide +kernel)
  have c_takeSeq' : Closed I Touched.takeSeq := hc.mono (by decide +kernel)
  unfold State.acceptWrite
  try dsimp only
  repeat' first | (guard_target =ₐ Holds I s; exact hk) | simp only [id_eq] | with_reducible apply keeps_putWaiting c_putWaiting' | with_reducible apply keeps_takeSeq c_takeSeq' | with_reducible apply Keeps.foldl (I := I) | with_reducible apply Keeps.foldl₂ (I := I) | with_reducible apply Keeps.ite (I := I) | split | intro s _ _ hk | intro s _ hk | intro s hk | with_reducible exact hk

def Touched.reply : Touch :=
  { parts := [.answer] }

theorem keeps_reply (hc : Closed I Touched.reply) {s : State} (hk : Holds I s) (r : Int) (data : List Byte) : Holds I (State.reply s r data) := by
  have c_answer : Closed I { parts := [.answer] } := hc.mono (by decide +kernel)
  unfold State.reply
  try dsimp only
  repeat' first | (guard_target =ₐ Holds I s; exact hk) | simp only [ic_mk, id_eq] | with_reducible refine ic_answer c_answer (ic_fold ?_) | with_reducible apply Keeps.foldl (I := I) | with_reducible apply Keeps.foldl₂ (I := I) | with_reducible apply Keeps.ite (I := I) | split | intro s _ _ hk | intro s _ hk | intro s hk | with_reducible exact hk

def Touched.answerWord : Touch :=
  { parts := [.answer] }

theorem keeps_answerWord (hc : Closed I Touched.answerWord) {s : State} (hk : Holds I s) (v : Nat) : Holds I (State.answerWord s v) := by
  have c_reply' : Closed I Touched.reply := hc.mono (by decide +kernel)
  unfold State.answerWord
  try dsimp only
  repeat' first | (guard_target =ₐ Holds I s; exact hk) | simp only [id_eq] | with_reducible apply keeps_reply c_reply' | with_reducible apply Keeps.foldl (I := I) | with_reducible apply Keeps.foldl₂ (I := I) | with_reducible apply Keeps.ite (I := I) | split | intro s _ _ hk | intro s _ hk | intro s hk | with_reducible exact hk

def Touched.showSeq : Touch :=
  { regs := [F.PV_SEQ] }

theorem keeps_showSeq (hc : Closed I Touched.showSeq) {s : State} (hk : Holds I s) (obj : Nat) (seq : Nat) : Holds I (State.showSeq s obj seq) := by
  unfold State.showSeq
  try dsimp only
  repeat' first | (guard_target =ₐ Holds I s; exact hk) | simp only [id_eq] | with_reducible apply keeps_wr | with_reducible apply Keeps.foldl (I := I) | with_reducible apply Keeps.foldl₂ (I := I) | with_reducible apply Keeps.ite (I := I) | exact hc.mono (by decide +kernel) | split | intro s _ _ hk | intro s _ hk | intro s hk | with_reducible exact hk

def Touched.completeCmd : Touch :=
  { regs := [F.MBX_STATE_COMP, F.PV_SEQ, F.MSIX_PBA], parts := [.host, .answer, .dram] }

theorem keeps_completeCmd (hc : Closed I Touched.completeCmd) {s : State} (hk : Holds I s) (obj : Nat) (c : HostCmd) (a : Answer) : Holds I (State.completeCmd s obj c a) := by
  have c_dram : Closed I { parts := [.dram] } := hc.mono (by decide +kernel)
  have c_answer : Closed I { parts := [.answer] } := hc.mono (by decide +kernel)
  have c_showSeq' : Closed I Touched.showSeq := hc.mono (by decide +kernel)
  have c_onHost' : Closed I Touched.onHost := hc.mono (by decide +kernel)
  have c_interrupt' : Closed I Touched.interrupt := hc.mono (by decide +kernel)
  unfold State.completeCmd
  try dsimp only
  repeat' first | (guard_target =ₐ Holds I s; exact hk) | simp only [ic_mk, id_eq] | with_reducible refine ic_dram c_dram (ic_dram c_dram (ic_answer c_answer (ic_fold ?_))) | with_reducible refine ic_dram c_dram (ic_answer c_answer (ic_fold ?_)) | with_reducible refine ic_answer c_answer (ic_fold ?_) | with_reducible apply keeps_showSeq c_showSeq' | with_reducible apply keeps_onHost c_onHost' | with_reducible apply keeps_interrupt c_interrupt' | with_reducible apply keeps_wr | with_reducible apply Keeps.foldl (I := I) | with_reducible apply Keeps.foldl₂ (I := I) | with_reducible apply Keeps.ite (I := I) | exact hc.mono (by decide +kernel) | split | intro s _ _ hk | intro s _ hk | intro s hk | with_reducible exact hk

def Touched.coveredGate : Touch :=
  { regs := [F.TD_EVENT, F.MSIX_PBA], parts := [.tandem, .host] }

theorem keeps_coveredGate (hc : Closed I Touched.coveredGate) {s : State} (hk : Holds I s) (p : Option Nat) (refuse : State → State) (f : State → State) (hf2 : ∀ s, Holds I s → Holds I (refuse s)) (hf3 : ∀ s, Holds I s → Holds I (f s)) : Holds I (State.coveredGate s p refuse f) := by
  have c_tdEvent' : Closed I Touched.tdEvent := hc.mono (by decide +kernel)
  have c_sendFrame' : Closed I Touched.sendFrame := hc.mono (by decide +kernel)
  have c_onTandem' : Closed I Touched.onTandem := hc.mono (by decide +kernel)
  unfold State.coveredGate
  try dsimp only
  repeat' first | (guard_target =ₐ Holds I s; exact hk) | simp only [id_eq] | with_reducible apply keeps_tdEvent c_tdEvent' | with_reducible apply keeps_sendFrame c_sendFrame' | with_reducible apply keeps_onTandem c_onTandem' | with_reducible apply Keeps.foldl (I := I) | with_reducible apply Keeps.foldl₂ (I := I) | with_reducible apply Keeps.ite (I := I) | split | with_reducible apply hf2 | with_reducible apply hf3 | intro s _ _ hk | intro s _ hk | intro s hk | with_reducible exact hk

def Touched.drainRefused : Touch :=
  { regs := [F.MBX_STATE_COMP, F.PV_SEQ, F.MSIX_PBA], parts := [.host, .answer, .dram] }

theorem keeps_drainRefused (hc : Closed I Touched.drainRefused) {s : State} (hk : Holds I s) (obj : Nat) (a : Nat) : Holds I (State.drainRefused s obj a) := by
  have c_putWaiting' : Closed I Touched.putWaiting := hc.mono (by decide +kernel)
  have c_completeCmd' : Closed I Touched.completeCmd := hc.mono (by decide +kernel)
  induction a generalizing s obj with
  | zero =>
    unfold State.drainRefused
    try dsimp only
    repeat' first | (guard_target =ₐ Holds I s; exact hk) | simp only [id_eq] | with_reducible apply keeps_putWaiting c_putWaiting' | with_reducible apply keeps_completeCmd c_completeCmd' | with_reducible apply Keeps.foldl (I := I) | with_reducible apply Keeps.foldl₂ (I := I) | with_reducible apply Keeps.ite (I := I) | split | intro s _ _ hk | intro s _ hk | intro s hk | with_reducible exact hk
  | succ _ ih =>
    unfold State.drainRefused
    try dsimp only
    repeat' first | (guard_target =ₐ Holds I s; exact hk) | simp only [id_eq] | with_reducible apply ih | with_reducible apply keeps_putWaiting c_putWaiting' | with_reducible apply keeps_completeCmd c_completeCmd' | with_reducible apply Keeps.foldl (I := I) | with_reducible apply Keeps.foldl₂ (I := I) | with_reducible apply Keeps.ite (I := I) | split | intro s _ _ hk | intro s _ hk | intro s hk | with_reducible exact hk | cases ‹_ :: _ = _ :: _›

def Touched.hostWrite : Touch :=
  { regs := [F.TD_EVENT, F.SYS_DISCARD_REASON, F.SYS_DISCARD_OFFSET, F.SYS_DISCARD_CNT, F.MBX_STATE_COMP, F.PV_SEQ,
      F.MSIX_PBA],
    parts := [.tandem, .host, .answer, .dram] }

theorem keeps_hostWrite (hc : Closed I Touched.hostWrite) {s : State} (hk : Holds I s) (off : Nat) (f : State → State) (tag : Nat) (command : Bool) (hf2 : ∀ s, Holds I s → Holds I (f s)) : Holds I (State.hostWrite s off f tag command) := by
  have c_discard' : Closed I Touched.discard := hc.mono (by decide +kernel)
  have c_coveredGate' : Closed I Touched.coveredGate := hc.mono (by decide +kernel)
  have c_takeSeq' : Closed I Touched.takeSeq := hc.mono (by decide +kernel)
  have c_showSeq' : Closed I Touched.showSeq := hc.mono (by decide +kernel)
  have c_drainRefused' : Closed I Touched.drainRefused := hc.mono (by decide +kernel)
  have c_putWaiting' : Closed I Touched.putWaiting := hc.mono (by decide +kernel)
  have c_acceptWrite' : Closed I Touched.acceptWrite := hc.mono (by decide +kernel)
  unfold State.hostWrite
  try dsimp only
  repeat' first | (guard_target =ₐ Holds I s; exact hk) | simp only [id_eq] | with_reducible apply keeps_discard c_discard' | with_reducible apply keeps_coveredGate c_coveredGate' | with_reducible apply keeps_when | with_reducible apply keeps_takeSeq c_takeSeq' | with_reducible apply keeps_showSeq c_showSeq' | with_reducible apply keeps_drainRefused c_drainRefused' | with_reducible apply keeps_putWaiting c_putWaiting' | with_reducible apply keeps_acceptWrite c_acceptWrite' | with_reducible apply Keeps.foldl (I := I) | with_reducible apply Keeps.foldl₂ (I := I) | with_reducible apply Keeps.ite (I := I) | split | with_reducible apply hf2 | intro s _ _ hk | intro s _ hk | intro s hk | with_reducible exact hk

def Touched.plainWrite : Touch :=
  { regs := [F.TD_EVENT, F.SYS_DISCARD_REASON, F.SYS_DISCARD_OFFSET, F.SYS_DISCARD_CNT, F.MSIX_PBA],
    parts := [.tandem, .host] }

theorem keeps_plainWrite (hc : Closed I Touched.plainWrite) {s : State} (hk : Holds I s) (off : Nat) (f : State → State) (hf2 : ∀ s, Holds I s → Holds I (f s)) : Holds I (State.plainWrite s off f) := by
  have c_discard' : Closed I Touched.discard := hc.mono (by decide +kernel)
  have c_coveredGate' : Closed I Touched.coveredGate := hc.mono (by decide +kernel)
  unfold State.plainWrite
  try dsimp only
  repeat' first | (guard_target =ₐ Holds I s; exact hk) | simp only [id_eq] | with_reducible apply keeps_discard c_discard' | with_reducible apply keeps_coveredGate c_coveredGate' | with_reducible apply Keeps.foldl (I := I) | with_reducible apply Keeps.foldl₂ (I := I) | with_reducible apply Keeps.ite (I := I) | split | with_reducible apply hf2 | intro s _ _ hk | intro s _ hk | intro s hk | with_reducible exact hk

def Touched.replyStatus : Touch :=
  { parts := [.answer] }

theorem keeps_replyStatus (hc : Closed I Touched.replyStatus) {s : State} (hk : Holds I s) (status : Nat) : Holds I (State.replyStatus s status) := by
  have c_answer : Closed I { parts := [.answer] } := hc.mono (by decide +kernel)
  unfold State.replyStatus
  try dsimp only
  repeat' first | (guard_target =ₐ Holds I s; exact hk) | simp only [ic_mk, id_eq] | with_reducible refine ic_answer c_answer (ic_fold ?_) | with_reducible apply Keeps.foldl (I := I) | with_reducible apply Keeps.foldl₂ (I := I) | with_reducible apply Keeps.ite (I := I) | split | intro s _ _ hk | intro s _ hk | intro s hk | with_reducible exact hk

def Touched.rwlWrite : Touch :=
  { regs := [F.TD_EVENT, F.SYS_DISCARD_REASON, F.SYS_DISCARD_OFFSET, F.SYS_DISCARD_CNT, F.MBX_STATE_COMP, F.PV_SEQ,
      F.MSIX_PBA],
    parts := [.tandem, .host, .answer, .dram] }

theorem keeps_rwlWrite (hc : Closed I Touched.rwlWrite) {s : State} (hk : Holds I s) (off : Nat) (owner : Option Nat) (f : State → State) (hf3 : ∀ s, Holds I s → Holds I (f s)) : Holds I (State.rwlWrite s off owner f) := by
  have c_hostWrite' : Closed I Touched.hostWrite := hc.mono (by decide +kernel)
  have c_discard' : Closed I Touched.discard := hc.mono (by decide +kernel)
  unfold State.rwlWrite
  try dsimp only
  repeat' first | (guard_target =ₐ Holds I s; exact hk) | simp only [id_eq] | with_reducible apply keeps_hostWrite c_hostWrite' | with_reducible apply keeps_discard c_discard' | with_reducible apply Keeps.foldl (I := I) | with_reducible apply Keeps.foldl₂ (I := I) | with_reducible apply Keeps.ite (I := I) | split | with_reducible apply hf3 | intro s _ _ hk | intro s _ hk | intro s hk | with_reducible exact hk

end Sys2Proof.Machine
end

