-- ==== Sys2Proof/Laws/Keeps/Warp.lean ====
section
/-! SUPPORT.  What the operations of Machine/Warp.lean touch, and that they keep every property
closed under it. -/

namespace Sys2Proof.Machine

open Sys2Proof

set_option Elab.async false
set_option linter.unusedSimpArgs false
set_option linter.unusedVariables false
set_option linter.unusedTactic false
set_option linter.unreachableTactic false

variable {I : State → Prop}

def Touched.shiftGrids : Touch :=
  { parts := [.warp, .fio, .rings] }

theorem keeps_shiftGrids (hc : Closed I Touched.shiftGrids) {s : State} (hk : Holds I s) (d : BitVec 64) : Holds I (State.shiftGrids s d) := by
  have c_warp : Closed I { parts := [.warp] } := hc.mono (by decide +kernel)
  have c_fio : Closed I { parts := [.fio] } := hc.mono (by decide +kernel)
  have c_putRing' : Closed I Touched.putRing := hc.mono (by decide +kernel)
  unfold State.shiftGrids
  try dsimp only
  repeat' first | (guard_target =ₐ Holds I s; exact hk) | simp only [ic_mk, id_eq] | with_reducible refine ic_fio c_fio (ic_warp c_warp (ic_fold ?_)) | with_reducible apply keeps_each | with_reducible apply keeps_putRing c_putRing' | with_reducible apply Keeps.foldl (I := I) | with_reducible apply Keeps.foldl₂ (I := I) | with_reducible apply Keeps.ite (I := I) | split | intro s _ _ hk | intro s _ hk | intro s hk | with_reducible exact hk

def Touched.stepWarp : Touch :=
  { regs := [F.WARP_STATUS_EPOCH, F.WARP_EVENT_SYNC_LATE, F.WARP_EVENT_STEP_DONE, F.SYNC_OUT_CFG_ARM,
      F.SK_STATUS_BURST_FREE_KIB, F.SK_EVENT, F.SKS_SEQ, F.SKS_STATUS_RESIDENT, F.SKS_OVERWRITE],
    parts := [.warp, .skein, .fio, .rings] }

theorem keeps_stepWarp (hc : Closed I Touched.stepWarp) {s : State} (hk : Holds I s) (new : Instant) (epoch : Nat) : Holds I (State.stepWarp s new epoch) := by
  have c_warp : Closed I { parts := [.warp] } := hc.mono (by decide +kernel)
  have c_shiftGrids' : Closed I Touched.shiftGrids := hc.mono (by decide +kernel)
  have c_warpEvent' : Closed I Touched.warpEvent := hc.mono (by decide +kernel)
  unfold State.stepWarp
  try dsimp only
  repeat' first | (guard_target =ₐ Holds I s; exact hk) | simp only [ic_mk, id_eq] | with_reducible refine ic_warp c_warp (ic_fold ?_) | with_reducible apply keeps_shiftGrids c_shiftGrids' | with_reducible apply keeps_wr | with_reducible apply keeps_warpEvent c_warpEvent' | with_reducible apply Keeps.foldl (I := I) | with_reducible apply Keeps.foldl₂ (I := I) | with_reducible apply Keeps.ite (I := I) | exact hc.mono (by decide +kernel) | split | intro s _ _ hk | intro s _ hk | intro s hk | with_reducible exact hk

def Touched.doStep : Touch :=
  { regs := [F.WARP_STATUS_EPOCH, F.WARP_EVENT_SYNC_LATE, F.WARP_EVENT_STEP_DONE, F.STEP_CTRL_RESULT, F.SYNC_OUT_CFG_ARM,
      F.SK_STATUS_BURST_FREE_KIB, F.SK_EVENT, F.SKS_SEQ, F.SKS_STATUS_RESIDENT, F.SKS_OVERWRITE],
    parts := [.warp, .skein, .fio, .rings] }

theorem keeps_doStep (hc : Closed I Touched.doStep) {s : State} (hk : Holds I s) : Holds I (State.doStep s) := by
  have c_stepWarp' : Closed I Touched.stepWarp := hc.mono (by decide +kernel)
  unfold State.doStep
  try dsimp only
  repeat' first | (guard_target =ₐ Holds I s; exact hk) | simp only [id_eq] | with_reducible apply keeps_stepWarp c_stepWarp' | with_reducible apply keeps_wr | with_reducible apply Keeps.foldl (I := I) | with_reducible apply Keeps.foldl₂ (I := I) | with_reducible apply Keeps.ite (I := I) | exact hc.mono (by decide +kernel) | split | intro s _ _ hk | intro s _ hk | intro s hk | with_reducible exact hk

def Touched.enterHoldover : Touch :=
  { regs := [F.WARP_STATUS_HOLDOVER, F.WARP_STATUS_LOCKED] }

theorem keeps_enterHoldover (hc : Closed I Touched.enterHoldover) {s : State} (hk : Holds I s) : Holds I (State.enterHoldover s) := by
  unfold State.enterHoldover
  try dsimp only
  repeat' first | (guard_target =ₐ Holds I s; exact hk) | simp only [id_eq] | with_reducible apply keeps_wr | with_reducible apply Keeps.foldl (I := I) | with_reducible apply Keeps.foldl₂ (I := I) | with_reducible apply Keeps.ite (I := I) | exact hc.mono (by decide +kernel) | split | intro s _ _ hk | intro s _ hk | intro s hk | with_reducible exact hk

def Touched.setVolt : Touch :=
  { regs := [F.AVS_STATUS_AT_MAX, F.AVS_STATUS_CMD_MV] }

theorem keeps_setVolt (hc : Closed I Touched.setVolt) {s : State} (hk : Holds I s) (mv : Nat) : Holds I (State.setVolt s mv) := by
  unfold State.setVolt
  try dsimp only
  repeat' first | (guard_target =ₐ Holds I s; exact hk) | simp only [id_eq] | with_reducible apply keeps_wr | with_reducible apply Keeps.foldl (I := I) | with_reducible apply Keeps.foldl₂ (I := I) | with_reducible apply Keeps.ite (I := I) | exact hc.mono (by decide +kernel) | split | intro s _ _ hk | intro s _ hk | intro s hk | with_reducible exact hk

def Touched.holdVolt : Touch :=
  { regs := [F.AVS_STATUS_AT_MAX, F.AVS_STATUS_CMD_MV] }

theorem keeps_holdVolt (hc : Closed I Touched.holdVolt) {s : State} (hk : Holds I s) : Holds I (State.holdVolt s) := by
  have c_setVolt' : Closed I Touched.setVolt := hc.mono (by decide +kernel)
  unfold State.holdVolt
  try dsimp only
  repeat' first | (guard_target =ₐ Holds I s; exact hk) | simp only [id_eq] | with_reducible apply keeps_setVolt c_setVolt' | with_reducible apply Keeps.foldl (I := I) | with_reducible apply Keeps.foldl₂ (I := I) | with_reducible apply Keeps.ite (I := I) | split | intro s _ _ hk | intro s _ hk | intro s hk | with_reducible exact hk

def Touched.raiseVolt : Touch :=
  { regs := [F.WARP_EVENT_SLACK_ALARM, F.AVS_STATUS_AT_MAX, F.AVS_STATUS_CMD_MV, F.SK_STATUS_BURST_FREE_KIB, F.SK_EVENT,
      F.SKS_SEQ, F.SKS_STATUS_RESIDENT, F.SKS_OVERWRITE],
    parts := [.skein] }

theorem keeps_raiseVolt (hc : Closed I Touched.raiseVolt) {s : State} (hk : Holds I s) (mv : Nat) : Holds I (State.raiseVolt s mv) := by
  have c_warpEvent' : Closed I Touched.warpEvent := hc.mono (by decide +kernel)
  have c_setVolt' : Closed I Touched.setVolt := hc.mono (by decide +kernel)
  unfold State.raiseVolt
  try dsimp only
  repeat' first | (guard_target =ₐ Holds I s; exact hk) | simp only [id_eq] | with_reducible apply keeps_warpEvent c_warpEvent' | with_reducible apply keeps_setVolt c_setVolt' | with_reducible apply Keeps.foldl (I := I) | with_reducible apply Keeps.foldl₂ (I := I) | with_reducible apply Keeps.ite (I := I) | exact hc.mono (by decide +kernel) | split | intro s _ _ hk | intro s _ hk | intro s hk | with_reducible exact hk

def Touched.lateRaise : Touch :=
  { regs := [F.WARP_EVENT_SLACK_ALARM, F.AVS_STATUS_AT_MAX, F.AVS_STATUS_CMD_MV, F.SK_STATUS_BURST_FREE_KIB, F.SK_EVENT,
      F.SKS_SEQ, F.SKS_STATUS_RESIDENT, F.SKS_OVERWRITE],
    parts := [.skein] }

theorem keeps_lateRaise (hc : Closed I Touched.lateRaise) {s : State} (hk : Holds I s) : Holds I (State.lateRaise s) := by
  have c_raiseVolt' : Closed I Touched.raiseVolt := hc.mono (by decide +kernel)
  unfold State.lateRaise
  try dsimp only
  repeat' first | (guard_target =ₐ Holds I s; exact hk) | simp only [id_eq] | with_reducible apply keeps_raiseVolt c_raiseVolt' | with_reducible apply Keeps.foldl (I := I) | with_reducible apply Keeps.foldl₂ (I := I) | with_reducible apply Keeps.ite (I := I) | split | intro s _ _ hk | intro s _ hk | intro s hk | with_reducible exact hk

def Touched.nextSlackWindow : Touch :=
  { parts := [.warp] }

theorem keeps_nextSlackWindow (hc : Closed I Touched.nextSlackWindow) {s : State} (hk : Holds I s) : Holds I (State.nextSlackWindow s) := by
  have c_warp : Closed I { parts := [.warp] } := hc.mono (by decide +kernel)
  unfold State.nextSlackWindow
  try dsimp only
  repeat' first | (guard_target =ₐ Holds I s; exact hk) | simp only [ic_mk, id_eq] | with_reducible refine ic_warp c_warp (ic_fold ?_) | with_reducible apply Keeps.foldl (I := I) | with_reducible apply Keeps.foldl₂ (I := I) | with_reducible apply Keeps.ite (I := I) | split | intro s _ _ hk | intro s _ hk | intro s hk | with_reducible exact hk

def Touched.noteSlack : Touch :=
  { regs := [F.SLACK_LOW], parts := [.warp] }

theorem keeps_noteSlack (hc : Closed I Touched.noteSlack) {s : State} (hk : Holds I s) (ns : Int) (kind : Nat) (id : Nat) : Holds I (State.noteSlack s ns kind id) := by
  have c_warp : Closed I { parts := [.warp] } := hc.mono (by decide +kernel)
  unfold State.noteSlack
  try dsimp only
  repeat' first | (guard_target =ₐ Holds I s; exact hk) | simp only [ic_mk, id_eq] | with_reducible refine ic_warp c_warp (ic_fold ?_) | with_reducible apply keeps_wrI | with_reducible apply Keeps.foldl (I := I) | with_reducible apply Keeps.foldl₂ (I := I) | with_reducible apply Keeps.ite (I := I) | exact hc.mono (by decide +kernel) | split | intro s _ _ hk | intro s _ hk | intro s hk | with_reducible exact hk

def Touched.startVolt : Touch :=
  { regs := [F.AVS_STATUS_AT_MAX, F.AVS_STATUS_CMD_MV], parts := [.warp] }

theorem keeps_startVolt (hc : Closed I Touched.startVolt) {s : State} (hk : Holds I s) : Holds I (State.startVolt s) := by
  have c_warp : Closed I { parts := [.warp] } := hc.mono (by decide +kernel)
  have c_holdVolt' : Closed I Touched.holdVolt := hc.mono (by decide +kernel)
  have c_setVolt' : Closed I Touched.setVolt := hc.mono (by decide +kernel)
  unfold State.startVolt
  try dsimp only
  repeat' first | (guard_target =ₐ Holds I s; exact hk) | simp only [ic_mk, id_eq] | with_reducible refine ic_warp c_warp (ic_fold ?_) | with_reducible apply keeps_holdVolt c_holdVolt' | with_reducible apply keeps_setVolt c_setVolt' | with_reducible apply Keeps.foldl (I := I) | with_reducible apply Keeps.foldl₂ (I := I) | with_reducible apply Keeps.ite (I := I) | split | intro s _ _ hk | intro s _ hk | intro s hk | with_reducible exact hk

theorem keeps_execAvsModeWrite (hc : Closed I Touches.avsModeWrite) {s : State} (hk : Holds I s) (t : Instant) (value : Word) : ∃ u, execAvsModeWrite t value s = .next u ∧ Holds I u := by
  have c_deviceWrite' : Closed I Touched.deviceWrite := hc.mono (by decide +kernel)
  have c_advance' : Closed I Touched.advance := hc.mono (by decide +kernel)
  have c_holdVolt' : Closed I Touched.holdVolt := hc.mono (by decide +kernel)
  refine ⟨_, rfl, ?_⟩
  try dsimp only
  repeat' first | (guard_target =ₐ Holds I s; exact hk) | simp only [id_eq] | with_reducible apply keeps_deviceWrite c_deviceWrite' | with_reducible apply keeps_advance c_advance' | with_reducible apply keeps_wr | with_reducible apply keeps_holdVolt c_holdVolt' | with_reducible apply Keeps.foldl (I := I) | with_reducible apply Keeps.foldl₂ (I := I) | with_reducible apply Keeps.ite (I := I) | exact hc.mono (by decide +kernel) | split | intro s _ _ hk | intro s _ hk | intro s hk | with_reducible exact hk

theorem keeps_execAvsTimeout (hc : Closed I Touches.avsTimeout) {s : State} (hk : Holds I s) (t : Instant) : ∃ u, execAvsTimeout t s = .next u ∧ Holds I u := by
  have c_warp : Closed I { parts := [.warp] } := hc.mono (by decide +kernel)
  have c_advance' : Closed I Touched.advance := hc.mono (by decide +kernel)
  have c_warpEvent' : Closed I Touched.warpEvent := hc.mono (by decide +kernel)
  refine ⟨_, rfl, ?_⟩
  try dsimp only
  repeat' first | (guard_target =ₐ Holds I s; exact hk) | simp only [ic_mk, id_eq] | with_reducible refine ic_warp c_warp (ic_fold ?_) | with_reducible apply keeps_advance c_advance' | with_reducible apply keeps_wr | with_reducible apply keeps_warpEvent c_warpEvent' | with_reducible apply Keeps.foldl (I := I) | with_reducible apply Keeps.foldl₂ (I := I) | with_reducible apply Keeps.ite (I := I) | exact hc.mono (by decide +kernel) | split | intro s _ _ hk | intro s _ hk | intro s hk | with_reducible exact hk

theorem keeps_execHoldoverExit (hc : Closed I Touches.holdoverExit) {s : State} (hk : Holds I s) (t : Instant) : ∃ u, execHoldoverExit t s = .next u ∧ Holds I u := by
  have c_warp : Closed I { parts := [.warp] } := hc.mono (by decide +kernel)
  have c_advance' : Closed I Touched.advance := hc.mono (by decide +kernel)
  have c_warpEvent' : Closed I Touched.warpEvent := hc.mono (by decide +kernel)
  refine ⟨_, rfl, ?_⟩
  try dsimp only
  repeat' first | (guard_target =ₐ Holds I s; exact hk) | simp only [ic_mk, id_eq] | with_reducible refine ic_warp c_warp (ic_fold ?_) | with_reducible apply keeps_advance c_advance' | with_reducible apply keeps_wr | with_reducible apply keeps_warpEvent c_warpEvent' | with_reducible apply Keeps.foldl (I := I) | with_reducible apply Keeps.foldl₂ (I := I) | with_reducible apply Keeps.ite (I := I) | exact hc.mono (by decide +kernel) | split | intro s _ _ hk | intro s _ hk | intro s hk | with_reducible exact hk

theorem keeps_execPpsOutFall (hc : Closed I Touches.ppsOutFall) {s : State} (hk : Holds I s) (t : Instant) : ∃ u, execPpsOutFall t s = .next u ∧ Holds I u := by
  have c_warp : Closed I { parts := [.warp] } := hc.mono (by decide +kernel)
  have c_advance' : Closed I Touched.advance := hc.mono (by decide +kernel)
  refine ⟨_, rfl, ?_⟩
  try dsimp only
  repeat' first | (guard_target =ₐ Holds I s; exact hk) | simp only [ic_mk, id_eq] | with_reducible refine ic_warp c_warp (ic_fold ?_) | with_reducible apply keeps_advance c_advance' | with_reducible apply Keeps.foldl (I := I) | with_reducible apply Keeps.foldl₂ (I := I) | with_reducible apply Keeps.ite (I := I) | split | intro s _ _ hk | intro s _ hk | intro s hk | with_reducible exact hk

theorem keeps_execPpsOutRise (hc : Closed I Touches.ppsOutRise) {s : State} (hk : Holds I s) (t : Instant) : ∃ u, execPpsOutRise t s = .next u ∧ Holds I u := by
  have c_warp : Closed I { parts := [.warp] } := hc.mono (by decide +kernel)
  have c_advance' : Closed I Touched.advance := hc.mono (by decide +kernel)
  refine ⟨_, rfl, ?_⟩
  try dsimp only
  repeat' first | (guard_target =ₐ Holds I s; exact hk) | simp only [ic_mk, id_eq] | with_reducible refine ic_warp c_warp (ic_fold ?_) | with_reducible apply keeps_advance c_advance' | with_reducible apply Keeps.foldl (I := I) | with_reducible apply Keeps.foldl₂ (I := I) | with_reducible apply Keeps.ite (I := I) | split | intro s _ _ hk | intro s _ hk | intro s hk | with_reducible exact hk

theorem keeps_execRateAdjWrite (hc : Closed I Touches.rateAdjWrite) {s : State} (hk : Holds I s) (t : Instant) (rate : Word) : ∃ u, execRateAdjWrite t rate s = .next u ∧ Holds I u := by
  have c_deviceWrite' : Closed I Touched.deviceWrite := hc.mono (by decide +kernel)
  have c_advance' : Closed I Touched.advance := hc.mono (by decide +kernel)
  refine ⟨_, rfl, ?_⟩
  try dsimp only
  repeat' first | (guard_target =ₐ Holds I s; exact hk) | simp only [id_eq] | with_reducible apply keeps_deviceWrite c_deviceWrite' | with_reducible apply keeps_advance c_advance' | with_reducible apply keeps_wr | with_reducible apply Keeps.foldl (I := I) | with_reducible apply Keeps.foldl₂ (I := I) | with_reducible apply Keeps.ite (I := I) | exact hc.mono (by decide +kernel) | split | intro s _ _ hk | intro s _ hk | intro s hk | with_reducible exact hk

theorem keeps_execRefLost (hc : Closed I Touches.refLost) {s : State} (hk : Holds I s) (t : Instant) : ∃ u, execRefLost t s = .next u ∧ Holds I u := by
  have c_warp : Closed I { parts := [.warp] } := hc.mono (by decide +kernel)
  have c_warpEvent' : Closed I Touched.warpEvent := hc.mono (by decide +kernel)
  have c_advance' : Closed I Touched.advance := hc.mono (by decide +kernel)
  have c_enterHoldover' : Closed I Touched.enterHoldover := hc.mono (by decide +kernel)
  refine ⟨_, rfl, ?_⟩
  try dsimp only
  repeat' first | (guard_target =ₐ Holds I s; exact hk) | simp only [ic_mk, id_eq] | with_reducible refine ic_warp c_warp (ic_fold ?_) | with_reducible apply keeps_warpEvent c_warpEvent' | with_reducible apply keeps_advance c_advance' | with_reducible apply keeps_enterHoldover c_enterHoldover' | with_reducible apply keeps_wr | with_reducible apply Keeps.foldl (I := I) | with_reducible apply Keeps.foldl₂ (I := I) | with_reducible apply Keeps.ite (I := I) | exact hc.mono (by decide +kernel) | split | intro s _ _ hk | intro s _ hk | intro s hk | with_reducible exact hk

theorem keeps_execRefWindowEnd (hc : Closed I Touches.refWindowEnd) {s : State} (hk : Holds I s) (t : Instant) (n : Word) : ∃ u, execRefWindowEnd t n s = .next u ∧ Holds I u := by
  have c_warp : Closed I { parts := [.warp] } := hc.mono (by decide +kernel)
  have c_advance' : Closed I Touched.advance := hc.mono (by decide +kernel)
  have c_enterHoldover' : Closed I Touched.enterHoldover := hc.mono (by decide +kernel)
  have c_sysFault' : Closed I Touched.sysFault := hc.mono (by decide +kernel)
  have c_warpEvent' : Closed I Touched.warpEvent := hc.mono (by decide +kernel)
  refine ⟨_, rfl, ?_⟩
  try dsimp only
  repeat' first | (guard_target =ₐ Holds I s; exact hk) | simp only [ic_mk, id_eq] | with_reducible refine ic_warp c_warp (ic_fold ?_) | with_reducible apply keeps_advance c_advance' | with_reducible apply keeps_wr | with_reducible apply keeps_wrI | with_reducible apply keeps_enterHoldover c_enterHoldover' | with_reducible apply keeps_sysFault c_sysFault' | with_reducible apply keeps_warpEvent c_warpEvent' | with_reducible apply Keeps.foldl (I := I) | with_reducible apply Keeps.foldl₂ (I := I) | with_reducible apply Keeps.ite (I := I) | exact hc.mono (by decide +kernel) | split | intro s _ _ hk | intro s _ hk | intro s hk | with_reducible exact hk

theorem keeps_execRefclkReturn (hc : Closed I Touches.refclkReturn) {s : State} (hk : Holds I s) (t : Instant) : ∃ u, execRefclkReturn t s = .next u ∧ Holds I u := by
  have c_warp : Closed I { parts := [.warp] } := hc.mono (by decide +kernel)
  have c_advance' : Closed I Touched.advance := hc.mono (by decide +kernel)
  refine ⟨_, rfl, ?_⟩
  try dsimp only
  repeat' first | (guard_target =ₐ Holds I s; exact hk) | simp only [ic_mk, id_eq] | with_reducible refine ic_warp c_warp (ic_fold ?_) | with_reducible apply keeps_advance c_advance' | with_reducible apply Keeps.foldl (I := I) | with_reducible apply Keeps.foldl₂ (I := I) | with_reducible apply Keeps.ite (I := I) | split | intro s _ _ hk | intro s _ hk | intro s hk | with_reducible exact hk

theorem keeps_execSlackWindowEnd (hc : Closed I Touches.slackWindowEnd) {s : State} (hk : Holds I s) (t : Instant) : ∃ u, execSlackWindowEnd t s = .next u ∧ Holds I u := by
  have c_advance' : Closed I Touched.advance := hc.mono (by decide +kernel)
  have c_nextSlackWindow' : Closed I Touched.nextSlackWindow := hc.mono (by decide +kernel)
  have c_raiseVolt' : Closed I Touched.raiseVolt := hc.mono (by decide +kernel)
  have c_setVolt' : Closed I Touched.setVolt := hc.mono (by decide +kernel)
  refine ⟨_, rfl, ?_⟩
  try dsimp only
  repeat' first | (guard_target =ₐ Holds I s; exact hk) | simp only [id_eq] | with_reducible apply keeps_advance c_advance' | with_reducible apply keeps_nextSlackWindow c_nextSlackWindow' | with_reducible apply keeps_wr | with_reducible apply keeps_wrI | with_reducible apply keeps_raiseVolt c_raiseVolt' | with_reducible apply keeps_setVolt c_setVolt' | with_reducible apply Keeps.foldl (I := I) | with_reducible apply Keeps.foldl₂ (I := I) | with_reducible apply Keeps.ite (I := I) | exact hc.mono (by decide +kernel) | split | intro s _ _ hk | intro s _ hk | intro s hk | with_reducible exact hk

theorem keeps_execSlewEnd (hc : Closed I Touches.slewEnd) {s : State} (hk : Holds I s) (t : Instant) : ∃ u, execSlewEnd t s = .next u ∧ Holds I u := by
  have c_advance' : Closed I Touched.advance := hc.mono (by decide +kernel)
  have c_absorbTo' : Closed I Touched.absorbTo := hc.mono (by decide +kernel)
  refine ⟨_, rfl, ?_⟩
  try dsimp only
  repeat' first | (guard_target =ₐ Holds I s; exact hk) | simp only [id_eq] | with_reducible apply keeps_advance c_advance' | with_reducible apply keeps_absorbTo c_absorbTo' | with_reducible apply Keeps.foldl (I := I) | with_reducible apply Keeps.foldl₂ (I := I) | with_reducible apply Keeps.ite (I := I) | split | intro s _ _ hk | intro s _ hk | intro s hk | with_reducible exact hk

theorem keeps_execSlewNsWrite (hc : Closed I Touches.slewNsWrite) {s : State} (hk : Holds I s) (t : Instant) (offset : Word) : ∃ u, execSlewNsWrite t offset s = .next u ∧ Holds I u := by
  have c_deviceWrite' : Closed I Touched.deviceWrite := hc.mono (by decide +kernel)
  have c_advance' : Closed I Touched.advance := hc.mono (by decide +kernel)
  have c_putSlew' : Closed I Touched.putSlew := hc.mono (by decide +kernel)
  refine ⟨_, rfl, ?_⟩
  try dsimp only
  repeat' first | (guard_target =ₐ Holds I s; exact hk) | simp only [id_eq] | with_reducible apply keeps_deviceWrite c_deviceWrite' | with_reducible apply keeps_advance c_advance' | with_reducible apply keeps_putSlew c_putSlew' | with_reducible apply Keeps.foldl (I := I) | with_reducible apply Keeps.foldl₂ (I := I) | with_reducible apply Keeps.ite (I := I) | split | intro s _ _ hk | intro s _ hk | intro s hk | with_reducible exact hk

theorem keeps_execStampInputEdge (hc : Closed I Touches.stampInputEdge) {s : State} (hk : Holds I s) (t : Instant) (i : StampInput) (rising : Bool) : ∃ u, execStampInputEdge t i rising s = .next u ∧ Holds I u := by
  have c_warp : Closed I { parts := [.warp] } := hc.mono (by decide +kernel)
  have c_advance' : Closed I Touched.advance := hc.mono (by decide +kernel)
  refine ⟨_, rfl, ?_⟩
  try dsimp only
  repeat' first | (guard_target =ₐ Holds I s; exact hk) | simp only [ic_mk, id_eq] | with_reducible refine ic_warp c_warp (ic_fold ?_) | with_reducible apply keeps_advance c_advance' | with_reducible apply Keeps.foldl (I := I) | with_reducible apply Keeps.foldl₂ (I := I) | with_reducible apply Keeps.ite (I := I) | split | intro s _ _ hk | intro s _ hk | intro s hk | with_reducible exact hk

theorem keeps_execStampInputQualified (hc : Closed I Touches.stampInputQualified) {s : State} (hk : Holds I s) (t : Instant) (i : StampInput) : ∃ u, execStampInputQualified t i s = .next u ∧ Holds I u := by
  have c_warp : Closed I { parts := [.warp] } := hc.mono (by decide +kernel)
  have c_advance' : Closed I Touched.advance := hc.mono (by decide +kernel)
  have c_syncGroups' : Closed I Touched.syncGroups := hc.mono (by decide +kernel)
  refine ⟨_, rfl, ?_⟩
  try dsimp only
  repeat' first | (guard_target =ₐ Holds I s; exact hk) | simp only [ic_mk, id_eq] | with_reducible refine ic_warp c_warp (ic_fold ?_) | with_reducible apply keeps_advance c_advance' | with_reducible apply keeps_wrT | with_reducible apply keeps_syncGroups c_syncGroups' | with_reducible apply Keeps.foldl (I := I) | with_reducible apply Keeps.foldl₂ (I := I) | with_reducible apply Keeps.ite (I := I) | exact hc.mono (by decide +kernel) | split | intro s _ _ hk | intro s _ hk | intro s hk | with_reducible exact hk

theorem keeps_execStepGo (hc : Closed I Touches.stepGo) {s : State} (hk : Holds I s) (t : Instant) (value : Word) : ∃ u, execStepGo t value s = .next u ∧ Holds I u := by
  have c_deviceWrite' : Closed I Touched.deviceWrite := hc.mono (by decide +kernel)
  have c_advance' : Closed I Touched.advance := hc.mono (by decide +kernel)
  have c_doStep' : Closed I Touched.doStep := hc.mono (by decide +kernel)
  have c_warpEvent' : Closed I Touched.warpEvent := hc.mono (by decide +kernel)
  refine ⟨_, rfl, ?_⟩
  try dsimp only
  repeat' first | (guard_target =ₐ Holds I s; exact hk) | simp only [id_eq] | with_reducible apply keeps_deviceWrite c_deviceWrite' | with_reducible apply keeps_advance c_advance' | with_reducible apply keeps_wr | with_reducible apply keeps_doStep c_doStep' | with_reducible apply keeps_warpEvent c_warpEvent' | with_reducible apply Keeps.foldl (I := I) | with_reducible apply Keeps.foldl₂ (I := I) | with_reducible apply Keeps.ite (I := I) | exact hc.mono (by decide +kernel) | split | intro s _ _ hk | intro s _ hk | intro s hk | with_reducible exact hk

theorem keeps_execSyncOutArm (hc : Closed I Touches.syncOutArm) {s : State} (hk : Holds I s) (t : Instant) (value : Word) (armFirst : Bool) : ∃ u, execSyncOutArm t value armFirst s = .next u ∧ Holds I u := by
  have c_deviceWrite' : Closed I Touched.deviceWrite := hc.mono (by decide +kernel)
  have c_advance' : Closed I Touched.advance := hc.mono (by decide +kernel)
  have c_warpEvent' : Closed I Touched.warpEvent := hc.mono (by decide +kernel)
  refine ⟨_, rfl, ?_⟩
  try dsimp only
  repeat' first | (guard_target =ₐ Holds I s; exact hk) | simp only [id_eq] | with_reducible apply keeps_deviceWrite c_deviceWrite' | with_reducible apply keeps_advance c_advance' | with_reducible apply keeps_wr | with_reducible apply keeps_warpEvent c_warpEvent' | with_reducible apply Keeps.foldl (I := I) | with_reducible apply Keeps.foldl₂ (I := I) | with_reducible apply Keeps.ite (I := I) | exact hc.mono (by decide +kernel) | split | intro s _ _ hk | intro s _ hk | intro s hk | with_reducible exact hk

theorem keeps_execSyncOutFall (hc : Closed I Touches.syncOutFall) {s : State} (hk : Holds I s) (t : Instant) : ∃ u, execSyncOutFall t s = .next u ∧ Holds I u := by
  have c_warp : Closed I { parts := [.warp] } := hc.mono (by decide +kernel)
  have c_advance' : Closed I Touched.advance := hc.mono (by decide +kernel)
  refine ⟨_, rfl, ?_⟩
  try dsimp only
  repeat' first | (guard_target =ₐ Holds I s; exact hk) | simp only [ic_mk, id_eq] | with_reducible refine ic_warp c_warp (ic_fold ?_) | with_reducible apply keeps_advance c_advance' | with_reducible apply Keeps.foldl (I := I) | with_reducible apply Keeps.foldl₂ (I := I) | with_reducible apply Keeps.ite (I := I) | split | intro s _ _ hk | intro s _ hk | intro s hk | with_reducible exact hk

theorem keeps_execSyncOutPulse (hc : Closed I Touches.syncOutPulse) {s : State} (hk : Holds I s) (t : Instant) : ∃ u, execSyncOutPulse t s = .next u ∧ Holds I u := by
  have c_warp : Closed I { parts := [.warp] } := hc.mono (by decide +kernel)
  have c_advance' : Closed I Touched.advance := hc.mono (by decide +kernel)
  refine ⟨_, rfl, ?_⟩
  try dsimp only
  repeat' first | (guard_target =ₐ Holds I s; exact hk) | simp only [ic_mk, id_eq] | with_reducible refine ic_warp c_warp (ic_fold ?_) | with_reducible apply keeps_advance c_advance' | with_reducible apply keeps_wr | with_reducible apply Keeps.foldl (I := I) | with_reducible apply Keeps.foldl₂ (I := I) | with_reducible apply Keeps.ite (I := I) | exact hc.mono (by decide +kernel) | split | intro s _ _ hk | intro s _ hk | intro s hk | with_reducible exact hk

theorem keeps_execWarpCounterMismatch (hc : Closed I Touches.warpCounterMismatch) {s : State} (hk : Holds I s) (t : Instant) : ∃ u, execWarpCounterMismatch t s = .next u ∧ Holds I u := by
  have c_stopAll' : Closed I Touched.stopAll := hc.mono (by decide +kernel)
  have c_devFault' : Closed I Touched.devFault := hc.mono (by decide +kernel)
  have c_sysFault' : Closed I Touched.sysFault := hc.mono (by decide +kernel)
  have c_advance' : Closed I Touched.advance := hc.mono (by decide +kernel)
  refine ⟨_, rfl, ?_⟩
  try dsimp only
  repeat' first | (guard_target =ₐ Holds I s; exact hk) | simp only [id_eq] | with_reducible apply keeps_stopAll c_stopAll' | with_reducible apply keeps_devFault c_devFault' | with_reducible apply keeps_sysFault c_sysFault' | with_reducible apply keeps_advance c_advance' | with_reducible apply Keeps.foldl (I := I) | with_reducible apply Keeps.foldl₂ (I := I) | with_reducible apply Keeps.ite (I := I) | split | intro s _ _ hk | intro s _ hk | intro s hk | with_reducible exact hk

theorem keeps_execWarpWindowEnd (hc : Closed I Touches.warpWindowEnd) {s : State} (hk : Holds I s) (t : Instant) (m : Word) : ∃ u, execWarpWindowEnd t m s = .next u ∧ Holds I u := by
  have c_advance' : Closed I Touched.advance := hc.mono (by decide +kernel)
  have c_stopAll' : Closed I Touched.stopAll := hc.mono (by decide +kernel)
  have c_devFault' : Closed I Touched.devFault := hc.mono (by decide +kernel)
  have c_sysFault' : Closed I Touched.sysFault := hc.mono (by decide +kernel)
  refine ⟨_, rfl, ?_⟩
  try dsimp only
  repeat' first | (guard_target =ₐ Holds I s; exact hk) | simp only [id_eq] | with_reducible apply keeps_advance c_advance' | with_reducible apply keeps_wrI | with_reducible apply keeps_stopAll c_stopAll' | with_reducible apply keeps_devFault c_devFault' | with_reducible apply keeps_sysFault c_sysFault' | with_reducible apply Keeps.foldl (I := I) | with_reducible apply Keeps.foldl₂ (I := I) | with_reducible apply Keeps.ite (I := I) | exact hc.mono (by decide +kernel) | split | intro s _ _ hk | intro s _ hk | intro s hk | with_reducible exact hk

theorem keeps_execWarpWrap (hc : Closed I Touches.warpWrap) {s : State} (hk : Holds I s) (t : Instant) : ∃ u, execWarpWrap t s = .next u ∧ Holds I u := by
  have c_advance' : Closed I Touched.advance := hc.mono (by decide +kernel)
  refine ⟨_, rfl, ?_⟩
  try dsimp only
  repeat' first | (guard_target =ₐ Holds I s; exact hk) | simp only [id_eq] | with_reducible apply keeps_advance c_advance' | with_reducible apply Keeps.foldl (I := I) | with_reducible apply Keeps.foldl₂ (I := I) | with_reducible apply Keeps.ite (I := I) | split | intro s _ _ hk | intro s _ hk | intro s hk | with_reducible exact hk

end Sys2Proof.Machine
end

