-- ==== Sys2Proof/Laws/Keeps/LoopOps.lean ====
section
/-! SUPPORT.  What the operations of Machine/LoopOps.lean touch, and that they keep every property
closed under it. -/

namespace Sys2Proof.Machine

open Sys2Proof

set_option Elab.async false
set_option linter.unusedSimpArgs false
set_option linter.unusedVariables false
set_option linter.unusedTactic false
set_option linter.unreachableTactic false

variable {I : State → Prop}

def Touched.applyModel : Touch :=
  { regs := [F.LC_YM, F.LC_RESID, F.LC_SUP_STATUS_OK_RUN, F.LC_SUP_STATUS_VIOL_RUN, F.LC_SUP_STATUS_SUP_STATE],
    parts := [.cells] }

theorem keeps_applyModel (hc : Closed I Touched.applyModel) {s : State} (hk : Holds I s) (n : Nat) (ev : Eval) : Holds I (State.applyModel s n ev) := by
  have c_putCell' : Closed I Touched.putCell := hc.mono (by decide +kernel)
  unfold State.applyModel
  try dsimp only
  repeat' first | (guard_target =ₐ Holds I s; exact hk) | simp only [id_eq] | with_reducible apply keeps_putCell c_putCell' | with_reducible apply keeps_wr | with_reducible apply keeps_wrI | with_reducible apply Keeps.foldl (I := I) | with_reducible apply Keeps.foldl₂ (I := I) | with_reducible apply Keeps.ite (I := I) | exact hc.mono (by decide +kernel) | split | intro s _ _ hk | intro s _ hk | intro s hk | with_reducible exact hk

def Touched.loadCodes : Touch :=
  { regs := [F.LC_EVT_CODES_HI_CODE, F.LC_EVT_CODES_LO_CODE], parts := [.cells] }

theorem keeps_loadCodes (hc : Closed I Touched.loadCodes) {s : State} (hk : Holds I s) (n : Nat) (codes : List (Nat × Nat)) : Holds I (State.loadCodes s n codes) := by
  have c_putCell' : Closed I Touched.putCell := hc.mono (by decide +kernel)
  unfold State.loadCodes
  try dsimp only
  repeat' first | (guard_target =ₐ Holds I s; exact hk) | simp only [id_eq] | with_reducible apply keeps_putCell c_putCell' | with_reducible apply keeps_wr | with_reducible apply Keeps.foldl (I := I) | with_reducible apply Keeps.foldl₂ (I := I) | with_reducible apply Keeps.ite (I := I) | exact hc.mono (by decide +kernel) | split | intro s _ _ hk | intro s _ hk | intro s hk | with_reducible exact hk

def Touched.driveLevel : Touch :=
  { regs := [F.ODO_OUT, F.ODO_OUT_SAT], parts := [.fio, .loom] }

theorem keeps_driveLevel (hc : Closed I Touched.driveLevel) {s : State} (hk : Holds I s) (pin : Nat) (b : Bool) : Holds I (State.driveLevel s pin b) := by
  have c_settle' : Closed I Touched.settle := hc.mono (by decide +kernel)
  have c_putPin' : Closed I Touched.putPin := hc.mono (by decide +kernel)
  unfold State.driveLevel
  try dsimp only
  repeat' first | (guard_target =ₐ Holds I s; exact hk) | simp only [id_eq] | with_reducible apply keeps_settle c_settle' | with_reducible apply keeps_putPin c_putPin' | with_reducible apply Keeps.foldl (I := I) | with_reducible apply Keeps.foldl₂ (I := I) | with_reducible apply Keeps.ite (I := I) | split | intro s _ _ hk | intro s _ hk | intro s hk | with_reducible exact hk

def Touched.drivePwm : Touch :=
  { regs := [F.ODO_OUT, F.ODO_OUT_SAT], parts := [.fio, .loom] }

theorem keeps_drivePwm (hc : Closed I Touched.drivePwm) {s : State} (hk : Holds I s) (pin : Nat) (period : Nat) (high : Nat) : Holds I (State.drivePwm s pin period high) := by
  have c_settle' : Closed I Touched.settle := hc.mono (by decide +kernel)
  have c_putPin' : Closed I Touched.putPin := hc.mono (by decide +kernel)
  unfold State.drivePwm
  try dsimp only
  repeat' first | (guard_target =ₐ Holds I s; exact hk) | simp only [id_eq] | with_reducible apply keeps_settle c_settle' | with_reducible apply keeps_putPin c_putPin' | with_reducible apply Keeps.foldl (I := I) | with_reducible apply Keeps.foldl₂ (I := I) | with_reducible apply Keeps.ite (I := I) | split | intro s _ _ hk | intro s _ hk | intro s hk | with_reducible exact hk

def Touched.driveWith : Touch :=
  { regs := [F.ODO_OUT, F.ODO_OUT_SAT], parts := [.cells, .fio, .aout, .loom, .rings] }

theorem keeps_driveWith (hc : Closed I Touched.driveWith) {s : State} (hk : Holds I s) (n : Nat) (p : Nat) (u : Int) : Holds I (State.driveWith s n p u) := by
  have c_aout : Closed I { parts := [.aout] } := hc.mono (by decide +kernel)
  have c_putCell' : Closed I Touched.putCell := hc.mono (by decide +kernel)
  have c_driveLevel' : Closed I Touched.driveLevel := hc.mono (by decide +kernel)
  have c_drivePwm' : Closed I Touched.drivePwm := hc.mono (by decide +kernel)
  have c_ringSend' : Closed I Touched.ringSend := hc.mono (by decide +kernel)
  unfold State.driveWith
  try dsimp only
  repeat' first | (guard_target =ₐ Holds I s; exact hk) | simp only [ic_mk, id_eq] | with_reducible refine ic_aout c_aout (ic_fold ?_) | with_reducible apply keeps_putCell c_putCell' | with_reducible apply keeps_driveLevel c_driveLevel' | with_reducible apply keeps_drivePwm c_drivePwm' | with_reducible apply keeps_ringSend c_ringSend' | with_reducible apply Keeps.foldl (I := I) | with_reducible apply Keeps.foldl₂ (I := I) | with_reducible apply Keeps.ite (I := I) | split | intro s _ _ hk | intro s _ hk | intro s hk | with_reducible exact hk

def Touched.putUWith : Touch :=
  { regs := [F.LC_U, F.ODO_OUT, F.ODO_OUT_SAT, F.VR_VALUE], parts := [.cells, .fio, .aout, .loom, .rings] }

theorem keeps_putUWith (hc : Closed I Touched.putUWith) {s : State} (hk : Holds I s) (n : Nat) (p : Nat) (u : Int) : Holds I (State.putUWith s n p u) := by
  have c_driveWith' : Closed I Touched.driveWith := hc.mono (by decide +kernel)
  have c_publish' : Closed I Touched.publish := hc.mono (by decide +kernel)
  unfold State.putUWith
  try dsimp only
  repeat' first | (guard_target =ₐ Holds I s; exact hk) | simp only [id_eq] | with_reducible apply keeps_driveWith c_driveWith' | with_reducible apply keeps_publish c_publish' | with_reducible apply keeps_wrI | with_reducible apply Keeps.foldl (I := I) | with_reducible apply Keeps.foldl₂ (I := I) | with_reducible apply Keeps.ite (I := I) | exact hc.mono (by decide +kernel) | split | intro s _ _ hk | intro s _ hk | intro s hk | with_reducible exact hk

def Touched.applyEval : Touch :=
  { regs := [F.LC_STATUS_DWELL_WAIT, F.LC_STATUS_RUNNING, F.LC_STATUS_SAT_LO, F.LC_STATUS_SAT_HI, F.LC_STATUS_LEVEL,
      F.LC_EVENT_ODO_SAT, F.LC_EVT_CODES_HI_CODE, F.LC_EVT_CODES_LO_CODE, F.LC_SP, F.LC_SP_DOT, F.LC_Y, F.LC_E,
      F.LC_C, F.LC_W, F.LC_U, F.LC_C_STATE, F.LC_SAT_CNT, F.LC_SAT_SRC, F.LC_ODO, F.LC_DWELL_BLOCK, F.LC_YM,
      F.LC_RESID, F.LC_SUP_STATUS_OK_RUN, F.LC_SUP_STATUS_VIOL_RUN, F.LC_SUP_STATUS_LATE_RUN,
      F.LC_SUP_STATUS_SUP_STATE, F.ODO_OUT, F.ODO_OUT_SAT, F.VR_VALUE],
    parts := [.cells, .fio, .aout, .loom, .rings] }

theorem keeps_applyEval (hc : Closed I Touched.applyEval) {s : State} (hk : Holds I s) (n : Nat) (ev : Eval) : Holds I (State.applyEval s n ev) := by
  have c_putCell' : Closed I Touched.putCell := hc.mono (by decide +kernel)
  have c_putCs' : Closed I Touched.putCs := hc.mono (by decide +kernel)
  have c_countMove' : Closed I Touched.countMove := hc.mono (by decide +kernel)
  have c_applyModel' : Closed I Touched.applyModel := hc.mono (by decide +kernel)
  have c_loadCodes' : Closed I Touched.loadCodes := hc.mono (by decide +kernel)
  have c_settle' : Closed I Touched.settle := hc.mono (by decide +kernel)
  have c_putUWith' : Closed I Touched.putUWith := hc.mono (by decide +kernel)
  have c_publish' : Closed I Touched.publish := hc.mono (by decide +kernel)
  unfold State.applyEval
  try dsimp only
  repeat' first | (guard_target =ₐ Holds I s; exact hk) | simp only [id_eq] | with_reducible apply keeps_putCell c_putCell' | with_reducible apply keeps_putCs c_putCs' | with_reducible apply keeps_wr | with_reducible apply keeps_countMove c_countMove' | with_reducible apply keeps_when | with_reducible apply keeps_bump | with_reducible apply keeps_applyModel c_applyModel' | with_reducible apply keeps_wrI | with_reducible apply keeps_loadCodes c_loadCodes' | with_reducible apply keeps_settle c_settle' | with_reducible apply keeps_putUWith c_putUWith' | with_reducible apply keeps_publish c_publish' | with_reducible apply Keeps.foldl (I := I) | with_reducible apply Keeps.foldl₂ (I := I) | with_reducible apply Keeps.ite (I := I) | exact hc.mono (by decide +kernel) | split | intro s _ _ hk | intro s _ hk | intro s hk | with_reducible exact hk

def Touched.awaitAin : Touch :=
  { parts := [.ain] }

theorem keeps_awaitAin (hc : Closed I Touched.awaitAin) {s : State} (hk : Holds I s) (a : Nat) (r : Reader) : Holds I (State.awaitAin s a r) := by
  have c_ain : Closed I { parts := [.ain] } := hc.mono (by decide +kernel)
  unfold State.awaitAin
  try dsimp only
  repeat' first | (guard_target =ₐ Holds I s; exact hk) | simp only [ic_mk, id_eq] | with_reducible refine ic_ain c_ain (ic_fold ?_) | with_reducible apply Keeps.foldl (I := I) | with_reducible apply Keeps.foldl₂ (I := I) | with_reducible apply Keeps.ite (I := I) | split | intro s _ _ hk | intro s _ hk | intro s hk | with_reducible exact hk

def Touched.causeClass : Touch :=
  { regs := [F.SK_STATUS_BURST_FREE_KIB, F.SK_EVENT, F.SKS_SEQ, F.SKS_STATUS_RESIDENT, F.SKS_OVERWRITE, F.SYS_FAULT,
      F.SYS_FAULT_LAST, F.SYS_FAULT_T, F.MSIX_PBA],
    parts := [.skein, .host] }

theorem keeps_causeClass (hc : Closed I Touched.causeClass) {s : State} (hk : Holds I s) (n : Nat) (causes : Nat) : Holds I (State.causeClass s n causes) := by
  have c_sysFault' : Closed I Touched.sysFault := hc.mono (by decide +kernel)
  unfold State.causeClass
  try dsimp only
  repeat' first | (guard_target =ₐ Holds I s; exact hk) | simp only [id_eq] | with_reducible apply keeps_when | with_reducible apply keeps_sysFault c_sysFault' | with_reducible apply Keeps.foldl (I := I) | with_reducible apply Keeps.foldl₂ (I := I) | with_reducible apply Keeps.ite (I := I) | split | intro s _ _ hk | intro s _ hk | intro s hk | with_reducible exact hk

def Touched.countLate : Touch :=
  { regs := [F.WARP_EVENT_SLACK_ALARM, F.AVS_STATUS_AT_MAX, F.AVS_STATUS_CMD_MV, F.LC_SUP_STATUS_LATE_RUN,
      F.LC_SUP_EVENT_LATE, F.LC_DIAG_CNT_LATE_CNT, F.SK_STATUS_BURST_FREE_KIB, F.SK_EVENT, F.SKS_SEQ,
      F.SKS_STATUS_RESIDENT, F.SKS_OVERWRITE],
    parts := [.skein] }

theorem keeps_countLate (hc : Closed I Touched.countLate) {s : State} (hk : Holds I s) (n : Nat) : Holds I (State.countLate s n) := by
  have c_lateRaise' : Closed I Touched.lateRaise := hc.mono (by decide +kernel)
  unfold State.countLate
  try dsimp only
  repeat' first | (guard_target =ₐ Holds I s; exact hk) | simp only [id_eq] | with_reducible apply keeps_wr | with_reducible apply keeps_bump | with_reducible apply keeps_lateRaise c_lateRaise' | with_reducible apply Keeps.foldl (I := I) | with_reducible apply Keeps.foldl₂ (I := I) | with_reducible apply Keeps.ite (I := I) | exact hc.mono (by decide +kernel) | split | intro s _ _ hk | intro s _ hk | intro s hk | with_reducible exact hk

def Touched.reportCell : Touch :=
  { regs := [F.TR_EVENT_SPAWN_DROP, F.TR_COND, F.SK_STATUS_BURST_FREE_KIB, F.SK_EVENT, F.SKS_SEQ, F.SKS_STATUS_RESIDENT,
      F.SKS_OVERWRITE, F.CS_STATUS_STATE, F.CS_EVENT, F.LOOM_EVENT, F.LOOM_EVT_OVF, F.LOOM_OVF_ROUTE,
      F.SCHED_STATUS_FREE_SLOTS, F.SCHED_STATUS_INFLIGHT, F.SCHED_EVENT, F.SCHED_DISPATCH_CNT,
      F.SCHED_EVT_UNBOUND_CNT, F.SCHED_TEMPLATE_MISS_CNT, F.PS_USED, F.HQ_DEPTH, F.HQ_MAXDEPTH, F.HQ_PUSH_CNT,
      F.HQ_BUSY_CNT, F.SH_STATUS_STATE, F.SH_STATUS_SLOT, F.SH_LOAD, F.LVL_RDY_DEPTH, F.LVL_WAIT_AVG, F.LVL_HIST,
      F.FLOW_STATE_IN_SERVICE, F.FLOW_STATE_PENDING, F.PWR_STATUS_WAKE_PEND, F.PWR_STATUS_PHASE,
      F.PWR_STATUS_STATE, F.PWR_WAKE_SRC, F.PWR_WAKE_MERGED, F.PWR_RES, F.PWR_ENTRIES, F.MSIX_PBA],
    parts := [.skein, .treadles, .trig, .sched, .island, .host, .power, .sram, .dram, .dlm, .freeCtr] }

theorem keeps_reportCell (hc : Closed I Touched.reportCell) {s : State} (hk : Holds I s) (n : Nat) (bit : Nat) (res : Nat) (y : Int) (ym : Int) (u : Int) : Holds I (State.reportCell s n bit res y ym u) := by
  have c_island : Closed I { parts := [.island] } := hc.mono (by decide +kernel)
  have c_event' : Closed I Touched.event := hc.mono (by decide +kernel)
  have c_emitFrom' : Closed I Touched.emitFrom := hc.mono (by decide +kernel)
  unfold State.reportCell
  try dsimp only
  repeat' first | (guard_target =ₐ Holds I s; exact hk) | simp only [ic_mk, id_eq] | with_reducible refine ic_island c_island (ic_fold ?_) | with_reducible apply keeps_event c_event' | with_reducible apply keeps_emitFrom c_emitFrom' | with_reducible apply Keeps.foldl (I := I) | with_reducible apply Keeps.foldl₂ (I := I) | with_reducible apply Keeps.ite (I := I) | split | intro s _ _ hk | intro s _ hk | intro s hk | with_reducible exact hk

def Touched.putU : Touch :=
  { regs := [F.LC_U, F.ODO_OUT, F.ODO_OUT_SAT, F.VR_VALUE], parts := [.cells, .fio, .aout, .loom, .rings] }

theorem keeps_putU (hc : Closed I Touched.putU) {s : State} (hk : Holds I s) (n : Nat) (u : Int) : Holds I (State.putU s n u) := by
  have c_putUWith' : Closed I Touched.putUWith := hc.mono (by decide +kernel)
  unfold State.putU
  try dsimp only
  repeat' first | (guard_target =ₐ Holds I s; exact hk) | simp only [id_eq] | with_reducible apply keeps_putUWith c_putUWith' | with_reducible apply Keeps.foldl (I := I) | with_reducible apply Keeps.foldl₂ (I := I) | with_reducible apply Keeps.ite (I := I) | split | intro s _ _ hk | intro s _ hk | intro s hk | with_reducible exact hk

def Touched.enterSafe : Touch :=
  { regs := [F.LC_STATUS_EVT_ARMED, F.LC_U, F.ODO_OUT, F.ODO_OUT_SAT, F.VR_VALUE],
    parts := [.cells, .fio, .aout, .loom, .rings] }

theorem keeps_enterSafe (hc : Closed I Touched.enterSafe) {s : State} (hk : Holds I s) (n : Nat) : Holds I (State.enterSafe s n) := by
  have c_putCell' : Closed I Touched.putCell := hc.mono (by decide +kernel)
  have c_putU' : Closed I Touched.putU := hc.mono (by decide +kernel)
  unfold State.enterSafe
  try dsimp only
  repeat' first | (guard_target =ₐ Holds I s; exact hk) | simp only [id_eq] | with_reducible apply keeps_putCell c_putCell' | with_reducible apply keeps_putU c_putU' | with_reducible apply keeps_wr | with_reducible apply Keeps.foldl (I := I) | with_reducible apply Keeps.foldl₂ (I := I) | with_reducible apply Keeps.ite (I := I) | exact hc.mono (by decide +kernel) | split | intro s _ _ hk | intro s _ hk | intro s hk | with_reducible exact hk

def Touched.declareFault : Touch :=
  { regs := [F.LC_STATUS_SHADOW_VALID, F.LC_SUP_STATUS_FAULT_CAUSE, F.LC_SUP_STATUS_SUP_STATE, F.LC_SUP_EVENT_LOOP_FAULT,
      F.TR_STATUS_STAGE_STATE, F.TR_STATUS_PAUSE_CAUSE, F.TR_STATUS_DEFERRED, F.TR_STATUS_STATE,
      F.TR_EVENT_SPAWN_DROP, F.TR_EVENT_ABORT_IGNORED, F.TR_EVENT_CANCELLED, F.TR_STEPS_STAGED_STEP, F.TR_NEXT,
      F.TR_DECIDE_END_IDX, F.TR_DECIDE_DECIDED, F.TR_CANCEL_CNT, F.TR_COND, F.PG_STATUS_HELD, F.PG_SHADOW_TARGET,
      F.PG_SHADOW_VMAX, F.PG_SHADOW_WIN_M2, F.PG_SHADOW_WIN_M1, F.SK_STATUS_BURST_FREE_KIB, F.SK_EVENT, F.SKS_SEQ,
      F.SKS_STATUS_RESIDENT, F.SKS_OVERWRITE, F.CS_STATUS_STATE, F.CS_EVENT, F.LOOM_EVENT, F.LOOM_EVT_OVF,
      F.LOOM_OVF_ROUTE, F.ODO_OUT, F.ODO_OUT_SAT, F.VR_VALUE, F.SCHED_STATUS_FREE_SLOTS, F.SCHED_STATUS_INFLIGHT,
      F.SCHED_EVENT, F.SCHED_DISPATCH_CNT, F.SCHED_CANCEL_CNT, F.SCHED_CANCEL_LATE_CNT, F.SCHED_POISON_CNT,
      F.SCHED_EVT_UNBOUND_CNT, F.SCHED_TEMPLATE_MISS_CNT, F.PS_USED, F.PS_HELD, F.HQ_DEPTH, F.HQ_MAXDEPTH,
      F.HQ_PUSH_CNT, F.HQ_BUSY_CNT, F.SH_STATUS_STATE, F.SH_STATUS_SLOT, F.SH_LOAD, F.LVL_RDY_DEPTH,
      F.LVL_WAIT_AVG, F.LVL_HIST, F.FLOW_STATE_HELD, F.FLOW_STATE_IN_SERVICE, F.FLOW_STATE_HELD_CAUSE,
      F.FLOW_STATE_PENDING, F.CP_STATUS_STOP_CAUSE, F.CP_STATUS_STATE, F.CP_EVENT, F.CP_STOP_T,
      F.PWR_STATUS_WAKE_PEND, F.PWR_STATUS_LOOM_ON, F.PWR_STATUS_PHASE, F.PWR_STATUS_TARGET, F.PWR_STATUS_STATE,
      F.PWR_WAKE_SRC, F.PWR_WAKE_MERGED, F.PWR_RES, F.PWR_ENTRIES, F.SYS_FAULT, F.SYS_FAULT_LAST, F.SYS_FAULT_T,
      F.MSIX_PBA],
    parts := [.skein, .cells, .fio, .treadles, .gens, .trig, .loom, .sched, .cyc, .island, .host, .power, .rings, .sram, .dram, .dlm, .freeCtr] }

theorem keeps_declareFault (hc : Closed I Touched.declareFault) {s : State} (hk : Holds I s) (n : Nat) (causes : Nat) (stop : Bool) (y : Int) (ym : Int) (u : Int) : Holds I (State.declareFault s n causes stop y ym u) := by
  have c_reportCell' : Closed I Touched.reportCell := hc.mono (by decide +kernel)
  have c_causeClass' : Closed I Touched.causeClass := hc.mono (by decide +kernel)
  have c_partStop' : Closed I Touched.partStop := hc.mono (by decide +kernel)
  unfold State.declareFault
  try dsimp only
  repeat' first | (guard_target =ₐ Holds I s; exact hk) | simp only [id_eq] | with_reducible apply keeps_wr | with_reducible apply keeps_reportCell c_reportCell' | with_reducible apply keeps_causeClass c_causeClass' | with_reducible apply keeps_partStop c_partStop' | with_reducible apply Keeps.foldl (I := I) | with_reducible apply Keeps.foldl₂ (I := I) | with_reducible apply Keeps.ite (I := I) | exact hc.mono (by decide +kernel) | split | intro s _ _ hk | intro s _ hk | intro s hk | with_reducible exact hk

def Touched.declareEval : Touch :=
  { regs := [F.LC_STATUS_EVT_ARMED, F.LC_STATUS_SHADOW_VALID, F.LC_U, F.LC_SUP_STATUS_FAULT_CAUSE,
      F.LC_SUP_STATUS_SUP_STATE, F.LC_SUP_EVENT_LOOP_FAULT, F.LC_SUP_EVENT_SUB_ENDED, F.LC_SUP_EVENT_SUB_START,
      F.LC_SUP_EVENT_PLAUS_VIOL, F.TR_STATUS_STAGE_STATE, F.TR_STATUS_PAUSE_CAUSE, F.TR_STATUS_DEFERRED,
      F.TR_STATUS_STATE, F.TR_EVENT_SPAWN_DROP, F.TR_EVENT_ABORT_IGNORED, F.TR_EVENT_CANCELLED,
      F.TR_STEPS_STAGED_STEP, F.TR_NEXT, F.TR_DECIDE_END_IDX, F.TR_DECIDE_DECIDED, F.TR_CANCEL_CNT, F.TR_COND,
      F.PG_STATUS_HELD, F.PG_SHADOW_TARGET, F.PG_SHADOW_VMAX, F.PG_SHADOW_WIN_M2, F.PG_SHADOW_WIN_M1,
      F.SK_STATUS_BURST_FREE_KIB, F.SK_EVENT, F.SKS_SEQ, F.SKS_STATUS_RESIDENT, F.SKS_OVERWRITE, F.CS_STATUS_STATE,
      F.CS_EVENT, F.LOOM_EVENT, F.LOOM_EVT_OVF, F.LOOM_OVF_ROUTE, F.ODO_OUT, F.ODO_OUT_SAT, F.VR_VALUE,
      F.SCHED_STATUS_FREE_SLOTS, F.SCHED_STATUS_INFLIGHT, F.SCHED_EVENT, F.SCHED_DISPATCH_CNT, F.SCHED_CANCEL_CNT,
      F.SCHED_CANCEL_LATE_CNT, F.SCHED_POISON_CNT, F.SCHED_EVT_UNBOUND_CNT, F.SCHED_TEMPLATE_MISS_CNT, F.PS_USED,
      F.PS_HELD, F.HQ_DEPTH, F.HQ_MAXDEPTH, F.HQ_PUSH_CNT, F.HQ_BUSY_CNT, F.SH_STATUS_STATE, F.SH_STATUS_SLOT,
      F.SH_LOAD, F.LVL_RDY_DEPTH, F.LVL_WAIT_AVG, F.LVL_HIST, F.FLOW_STATE_HELD, F.FLOW_STATE_IN_SERVICE,
      F.FLOW_STATE_HELD_CAUSE, F.FLOW_STATE_PENDING, F.CP_STATUS_STOP_CAUSE, F.CP_STATUS_STATE, F.CP_EVENT,
      F.CP_STOP_T, F.PWR_STATUS_WAKE_PEND, F.PWR_STATUS_LOOM_ON, F.PWR_STATUS_PHASE, F.PWR_STATUS_TARGET,
      F.PWR_STATUS_STATE, F.PWR_WAKE_SRC, F.PWR_WAKE_MERGED, F.PWR_RES, F.PWR_ENTRIES, F.SYS_FAULT,
      F.SYS_FAULT_LAST, F.SYS_FAULT_T, F.MSIX_PBA],
    parts := [.skein, .cells, .fio, .aout, .treadles, .gens, .trig, .loom, .sched, .cyc, .island, .host, .power, .rings, .sram, .dram, .dlm, .freeCtr] }

theorem keeps_declareEval (hc : Closed I Touched.declareEval) {s : State} (hk : Holds I s) (n : Nat) (ev : Eval) : Holds I (State.declareEval s n ev) := by
  have c_reportCell' : Closed I Touched.reportCell := hc.mono (by decide +kernel)
  have c_putCell' : Closed I Touched.putCell := hc.mono (by decide +kernel)
  have c_enterSafe' : Closed I Touched.enterSafe := hc.mono (by decide +kernel)
  have c_declareFault' : Closed I Touched.declareFault := hc.mono (by decide +kernel)
  unfold State.declareEval
  try dsimp only
  repeat' first | (guard_target =ₐ Holds I s; exact hk) | simp only [id_eq] | with_reducible apply keeps_reportCell c_reportCell' | with_reducible apply keeps_wr | with_reducible apply keeps_putCell c_putCell' | with_reducible apply keeps_enterSafe c_enterSafe' | with_reducible apply keeps_declareFault c_declareFault' | with_reducible apply Keeps.foldl (I := I) | with_reducible apply Keeps.foldl₂ (I := I) | with_reducible apply Keeps.ite (I := I) | exact hc.mono (by decide +kernel) | split | intro s _ _ hk | intro s _ hk | intro s hk | with_reducible exact hk

def Touched.driveCell : Touch :=
  { regs := [F.ODO_OUT, F.ODO_OUT_SAT], parts := [.cells, .fio, .aout, .loom, .rings] }

theorem keeps_driveCell (hc : Closed I Touched.driveCell) {s : State} (hk : Holds I s) (n : Nat) (u : Int) : Holds I (State.driveCell s n u) := by
  have c_driveWith' : Closed I Touched.driveWith := hc.mono (by decide +kernel)
  unfold State.driveCell
  try dsimp only
  repeat' first | (guard_target =ₐ Holds I s; exact hk) | simp only [id_eq] | with_reducible apply keeps_driveWith c_driveWith' | with_reducible apply Keeps.foldl (I := I) | with_reducible apply Keeps.foldl₂ (I := I) | with_reducible apply Keeps.ite (I := I) | split | intro s _ _ hk | intro s _ hk | intro s hk | with_reducible exact hk

def Touched.eventMove : Touch :=
  { regs := [F.LC_STATUS_DWELL_WAIT, F.LC_STATUS_LEVEL, F.LC_EVENT_ODO_SAT, F.LC_EVT_CODES_HI_CODE,
      F.LC_EVT_CODES_LO_CODE, F.LC_U, F.LC_SAT_CNT, F.LC_SAT_SRC, F.LC_ODO, F.TR_EVENT_SPAWN_DROP,
      F.SK_STATUS_BURST_FREE_KIB, F.SK_EVENT, F.SKS_SEQ, F.SKS_STATUS_RESIDENT, F.SKS_OVERWRITE, F.CS_STATUS_STATE,
      F.CS_EVENT, F.LOOM_EVENT, F.LOOM_EVT_OVF, F.LOOM_OVF_ROUTE, F.ODO_OUT, F.ODO_OUT_SAT, F.VR_VALUE,
      F.SCHED_STATUS_FREE_SLOTS, F.SCHED_STATUS_INFLIGHT, F.SCHED_EVENT, F.SCHED_DISPATCH_CNT,
      F.SCHED_EVT_UNBOUND_CNT, F.SCHED_TEMPLATE_MISS_CNT, F.PS_USED, F.HQ_DEPTH, F.HQ_MAXDEPTH, F.HQ_PUSH_CNT,
      F.HQ_BUSY_CNT, F.SH_STATUS_STATE, F.SH_STATUS_SLOT, F.SH_LOAD, F.LVL_RDY_DEPTH, F.LVL_WAIT_AVG, F.LVL_HIST,
      F.FLOW_STATE_IN_SERVICE, F.FLOW_STATE_PENDING, F.PWR_STATUS_WAKE_PEND, F.PWR_STATUS_PHASE,
      F.PWR_STATUS_STATE, F.PWR_WAKE_SRC, F.PWR_WAKE_MERGED, F.PWR_RES, F.PWR_ENTRIES, F.MSIX_PBA],
    parts := [.skein, .cells, .fio, .aout, .treadles, .trig, .loom, .sched, .host, .power, .rings, .sram, .dram, .dlm, .freeCtr] }

theorem keeps_eventMove (hc : Closed I Touched.eventMove) {s : State} (hk : Holds I s) (n : Nat) (up : Bool) : Holds I (State.eventMove s n up) := by
  have c_putCell' : Closed I Touched.putCell := hc.mono (by decide +kernel)
  have c_countMove' : Closed I Touched.countMove := hc.mono (by decide +kernel)
  have c_crossingChans' : Closed I Touched.crossingChans := hc.mono (by decide +kernel)
  have c_settle' : Closed I Touched.settle := hc.mono (by decide +kernel)
  have c_putU' : Closed I Touched.putU := hc.mono (by decide +kernel)
  have c_loadCodes' : Closed I Touched.loadCodes := hc.mono (by decide +kernel)
  unfold State.eventMove
  try dsimp only
  repeat' first | (guard_target =ₐ Holds I s; exact hk) | simp only [id_eq] | with_reducible apply keeps_putCell c_putCell' | with_reducible apply keeps_wr | with_reducible apply keeps_countMove c_countMove' | with_reducible apply keeps_setBit | with_reducible apply keeps_bump | with_reducible apply keeps_crossingChans c_crossingChans' | with_reducible apply keeps_settle c_settle' | with_reducible apply keeps_putU c_putU' | with_reducible apply keeps_loadCodes c_loadCodes' | with_reducible apply Keeps.foldl (I := I) | with_reducible apply Keeps.foldl₂ (I := I) | with_reducible apply Keeps.ite (I := I) | exact hc.mono (by decide +kernel) | split | intro s _ _ hk | intro s _ hk | intro s hk | with_reducible exact hk

def Touched.faultNow : Touch :=
  { regs := [F.LC_STATUS_EVT_ARMED, F.LC_STATUS_SHADOW_VALID, F.LC_U, F.LC_SUP_STATUS_FAULT_CAUSE,
      F.LC_SUP_STATUS_SUP_STATE, F.LC_SUP_EVENT_LOOP_FAULT, F.TR_STATUS_STAGE_STATE, F.TR_STATUS_PAUSE_CAUSE,
      F.TR_STATUS_DEFERRED, F.TR_STATUS_STATE, F.TR_EVENT_SPAWN_DROP, F.TR_EVENT_ABORT_IGNORED,
      F.TR_EVENT_CANCELLED, F.TR_STEPS_STAGED_STEP, F.TR_NEXT, F.TR_DECIDE_END_IDX, F.TR_DECIDE_DECIDED,
      F.TR_CANCEL_CNT, F.TR_COND, F.PG_STATUS_HELD, F.PG_SHADOW_TARGET, F.PG_SHADOW_VMAX, F.PG_SHADOW_WIN_M2,
      F.PG_SHADOW_WIN_M1, F.SK_STATUS_BURST_FREE_KIB, F.SK_EVENT, F.SKS_SEQ, F.SKS_STATUS_RESIDENT,
      F.SKS_OVERWRITE, F.CS_STATUS_STATE, F.CS_EVENT, F.LOOM_EVENT, F.LOOM_EVT_OVF, F.LOOM_OVF_ROUTE, F.ODO_OUT,
      F.ODO_OUT_SAT, F.VR_VALUE, F.SCHED_STATUS_FREE_SLOTS, F.SCHED_STATUS_INFLIGHT, F.SCHED_EVENT,
      F.SCHED_DISPATCH_CNT, F.SCHED_CANCEL_CNT, F.SCHED_CANCEL_LATE_CNT, F.SCHED_POISON_CNT,
      F.SCHED_EVT_UNBOUND_CNT, F.SCHED_TEMPLATE_MISS_CNT, F.PS_USED, F.PS_HELD, F.HQ_DEPTH, F.HQ_MAXDEPTH,
      F.HQ_PUSH_CNT, F.HQ_BUSY_CNT, F.SH_STATUS_STATE, F.SH_STATUS_SLOT, F.SH_LOAD, F.LVL_RDY_DEPTH,
      F.LVL_WAIT_AVG, F.LVL_HIST, F.FLOW_STATE_HELD, F.FLOW_STATE_IN_SERVICE, F.FLOW_STATE_HELD_CAUSE,
      F.FLOW_STATE_PENDING, F.CP_STATUS_STOP_CAUSE, F.CP_STATUS_STATE, F.CP_EVENT, F.CP_STOP_T,
      F.PWR_STATUS_WAKE_PEND, F.PWR_STATUS_LOOM_ON, F.PWR_STATUS_PHASE, F.PWR_STATUS_TARGET, F.PWR_STATUS_STATE,
      F.PWR_WAKE_SRC, F.PWR_WAKE_MERGED, F.PWR_RES, F.PWR_ENTRIES, F.SYS_FAULT, F.SYS_FAULT_LAST, F.SYS_FAULT_T,
      F.MSIX_PBA],
    parts := [.skein, .cells, .fio, .aout, .treadles, .gens, .trig, .loom, .sched, .cyc, .island, .host, .power, .rings, .sram, .dram, .dlm, .freeCtr] }

theorem keeps_faultNow (hc : Closed I Touched.faultNow) {s : State} (hk : Holds I s) (n : Nat) (causes : Nat) : Holds I (State.faultNow s n causes) := by
  have c_enterSafe' : Closed I Touched.enterSafe := hc.mono (by decide +kernel)
  have c_declareFault' : Closed I Touched.declareFault := hc.mono (by decide +kernel)
  unfold State.faultNow
  try dsimp only
  repeat' first | (guard_target =ₐ Holds I s; exact hk) | simp only [id_eq] | with_reducible apply keeps_enterSafe c_enterSafe' | with_reducible apply keeps_declareFault c_declareFault' | with_reducible apply Keeps.foldl (I := I) | with_reducible apply Keeps.foldl₂ (I := I) | with_reducible apply Keeps.ite (I := I) | split | intro s _ _ hk | intro s _ hk | intro s hk | with_reducible exact hk

def Touched.haltCell : Touch :=
  { regs := [F.LC_CTRL_ENABLE, F.LC_STATUS_EVT_ARMED, F.LC_STATUS_RUNNING, F.PWR_STATUS_LOOM_ON, F.PWR_STATUS_PHASE,
      F.PWR_STATUS_TARGET, F.PWR_STATUS_STATE, F.PWR_RES, F.PWR_ENTRIES],
    parts := [.cells, .power] }

theorem keeps_haltCell (hc : Closed I Touched.haltCell) {s : State} (hk : Holds I s) (n : Nat) : Holds I (State.haltCell s n) := by
  have c_putCell' : Closed I Touched.putCell := hc.mono (by decide +kernel)
  have c_runChange' : Closed I Touched.runChange := hc.mono (by decide +kernel)
  unfold State.haltCell
  try dsimp only
  repeat' first | (guard_target =ₐ Holds I s; exact hk) | simp only [id_eq] | with_reducible apply keeps_putCell c_putCell' | with_reducible apply keeps_runChange c_runChange' | with_reducible apply keeps_wr | with_reducible apply Keeps.foldl (I := I) | with_reducible apply Keeps.foldl₂ (I := I) | with_reducible apply Keeps.ite (I := I) | exact hc.mono (by decide +kernel) | split | intro s _ _ hk | intro s _ hk | intro s hk | with_reducible exact hk

def Touched.lateCell : Touch :=
  { regs := [F.WARP_EVENT_SLACK_ALARM, F.SLACK_LOW, F.AVS_STATUS_AT_MAX, F.AVS_STATUS_CMD_MV, F.LC_STATUS_EVT_ARMED,
      F.LC_STATUS_SHADOW_VALID, F.LC_U, F.LC_SUP_STATUS_FAULT_CAUSE, F.LC_SUP_STATUS_LATE_RUN,
      F.LC_SUP_STATUS_SUP_STATE, F.LC_SUP_EVENT_LATE, F.LC_SUP_EVENT_LOOP_FAULT, F.LC_DIAG_CNT_LATE_CNT,
      F.TR_STATUS_STAGE_STATE, F.TR_STATUS_PAUSE_CAUSE, F.TR_STATUS_DEFERRED, F.TR_STATUS_STATE,
      F.TR_EVENT_SPAWN_DROP, F.TR_EVENT_ABORT_IGNORED, F.TR_EVENT_CANCELLED, F.TR_STEPS_STAGED_STEP, F.TR_NEXT,
      F.TR_DECIDE_END_IDX, F.TR_DECIDE_DECIDED, F.TR_CANCEL_CNT, F.TR_COND, F.PG_STATUS_HELD, F.PG_SHADOW_TARGET,
      F.PG_SHADOW_VMAX, F.PG_SHADOW_WIN_M2, F.PG_SHADOW_WIN_M1, F.SK_STATUS_BURST_FREE_KIB, F.SK_EVENT, F.SKS_SEQ,
      F.SKS_STATUS_RESIDENT, F.SKS_OVERWRITE, F.CS_STATUS_STATE, F.CS_EVENT, F.LOOM_EVENT, F.LOOM_EVT_OVF,
      F.LOOM_OVF_ROUTE, F.ODO_OUT, F.ODO_OUT_SAT, F.VR_VALUE, F.SCHED_STATUS_FREE_SLOTS, F.SCHED_STATUS_INFLIGHT,
      F.SCHED_EVENT, F.SCHED_DISPATCH_CNT, F.SCHED_CANCEL_CNT, F.SCHED_CANCEL_LATE_CNT, F.SCHED_POISON_CNT,
      F.SCHED_EVT_UNBOUND_CNT, F.SCHED_TEMPLATE_MISS_CNT, F.PS_USED, F.PS_HELD, F.HQ_DEPTH, F.HQ_MAXDEPTH,
      F.HQ_PUSH_CNT, F.HQ_BUSY_CNT, F.SH_STATUS_STATE, F.SH_STATUS_SLOT, F.SH_LOAD, F.LVL_RDY_DEPTH,
      F.LVL_WAIT_AVG, F.LVL_HIST, F.FLOW_STATE_HELD, F.FLOW_STATE_IN_SERVICE, F.FLOW_STATE_HELD_CAUSE,
      F.FLOW_STATE_PENDING, F.CP_STATUS_STOP_CAUSE, F.CP_STATUS_STATE, F.CP_EVENT, F.CP_STOP_T,
      F.PWR_STATUS_WAKE_PEND, F.PWR_STATUS_LOOM_ON, F.PWR_STATUS_PHASE, F.PWR_STATUS_TARGET, F.PWR_STATUS_STATE,
      F.PWR_WAKE_SRC, F.PWR_WAKE_MERGED, F.PWR_RES, F.PWR_ENTRIES, F.SYS_FAULT, F.SYS_FAULT_LAST, F.SYS_FAULT_T,
      F.MSIX_PBA],
    parts := [.warp, .skein, .cells, .fio, .aout, .treadles, .gens, .trig, .loom, .sched, .cyc, .island, .host, .power, .rings, .sram, .dram, .dlm, .freeCtr] }

theorem keeps_lateCell (hc : Closed I Touched.lateCell) {s : State} (hk : Holds I s) (n : Nat) (at_ : Instant) (tie : Bool) : Holds I (State.lateCell s n at_ tie) := by
  have c_putCell' : Closed I Touched.putCell := hc.mono (by decide +kernel)
  have c_countLate' : Closed I Touched.countLate := hc.mono (by decide +kernel)
  have c_noteSlack' : Closed I Touched.noteSlack := hc.mono (by decide +kernel)
  have c_lateSamples' : Closed I Touched.lateSamples := hc.mono (by decide +kernel)
  have c_faultNow' : Closed I Touched.faultNow := hc.mono (by decide +kernel)
  unfold State.lateCell
  try dsimp only
  repeat' first | (guard_target =ₐ Holds I s; exact hk) | simp only [id_eq] | with_reducible apply keeps_putCell c_putCell' | with_reducible apply keeps_countLate c_countLate' | with_reducible apply keeps_when | with_reducible apply keeps_noteSlack c_noteSlack' | with_reducible apply keeps_lateSamples c_lateSamples' | with_reducible apply keeps_faultNow c_faultNow' | with_reducible apply Keeps.foldl (I := I) | with_reducible apply Keeps.foldl₂ (I := I) | with_reducible apply Keeps.ite (I := I) | split | intro s _ _ hk | intro s _ hk | intro s hk | with_reducible exact hk

def Touched.launch : Touch :=
  { parts := [.cells] }

theorem keeps_launch (hc : Closed I Touched.launch) {s : State} (hk : Holds I s) (n : Nat) (l : Latched) (y : Int) : Holds I (State.launch s n l y) := by
  have c_putCell' : Closed I Touched.putCell := hc.mono (by decide +kernel)
  unfold State.launch
  try dsimp only
  repeat' first | (guard_target =ₐ Holds I s; exact hk) | simp only [id_eq] | with_reducible apply keeps_putCell c_putCell' | with_reducible apply Keeps.foldl (I := I) | with_reducible apply Keeps.foldl₂ (I := I) | with_reducible apply Keeps.ite (I := I) | split | intro s _ _ hk | intro s _ hk | intro s hk | with_reducible exact hk

def Touched.releaseEval : Touch :=
  { regs := [F.SLACK_LOW, F.LC_STATUS_EVT_ARMED, F.LC_STATUS_DWELL_WAIT, F.LC_STATUS_SHADOW_VALID, F.LC_STATUS_RUNNING,
      F.LC_STATUS_SAT_LO, F.LC_STATUS_SAT_HI, F.LC_STATUS_LEVEL, F.LC_EVENT_ODO_SAT, F.LC_EVENT_LEVEL_CLAMPED,
      F.LC_EVT_CODES_HI_CODE, F.LC_EVT_CODES_LO_CODE, F.LC_SP, F.LC_SP_DOT, F.LC_Y, F.LC_E, F.LC_C, F.LC_W, F.LC_U,
      F.LC_C_STATE, F.LC_SAT_CNT, F.LC_SAT_SRC, F.LC_ODO, F.LC_DWELL_BLOCK, F.LC_YM, F.LC_RESID,
      F.LC_SUP_STATUS_FAULT_CAUSE, F.LC_SUP_STATUS_OK_RUN, F.LC_SUP_STATUS_VIOL_RUN, F.LC_SUP_STATUS_LATE_RUN,
      F.LC_SUP_STATUS_SUP_STATE, F.LC_SUP_EVENT_LOOP_FAULT, F.LC_SUP_EVENT_SUB_ENDED, F.LC_SUP_EVENT_SUB_START,
      F.LC_SUP_EVENT_PLAUS_VIOL, F.TR_STATUS_STAGE_STATE, F.TR_STATUS_PAUSE_CAUSE, F.TR_STATUS_DEFERRED,
      F.TR_STATUS_STATE, F.TR_EVENT_SPAWN_DROP, F.TR_EVENT_ABORT_IGNORED, F.TR_EVENT_CANCELLED,
      F.TR_STEPS_STAGED_STEP, F.TR_NEXT, F.TR_DECIDE_END_IDX, F.TR_DECIDE_DECIDED, F.TR_CANCEL_CNT, F.TR_COND,
      F.PG_STATUS_HELD, F.PG_SHADOW_TARGET, F.PG_SHADOW_VMAX, F.PG_SHADOW_WIN_M2, F.PG_SHADOW_WIN_M1,
      F.SK_STATUS_BURST_FREE_KIB, F.SK_EVENT, F.SKS_SEQ, F.SKS_STATUS_RESIDENT, F.SKS_OVERWRITE, F.CS_STATUS_STATE,
      F.CS_EVENT, F.LOOM_EVENT, F.LOOM_EVT_OVF, F.LOOM_OVF_ROUTE, F.ODO_OUT, F.ODO_OUT_SAT, F.VR_VALUE,
      F.SCHED_STATUS_FREE_SLOTS, F.SCHED_STATUS_INFLIGHT, F.SCHED_EVENT, F.SCHED_DISPATCH_CNT, F.SCHED_CANCEL_CNT,
      F.SCHED_CANCEL_LATE_CNT, F.SCHED_POISON_CNT, F.SCHED_EVT_UNBOUND_CNT, F.SCHED_TEMPLATE_MISS_CNT, F.PS_USED,
      F.PS_HELD, F.HQ_DEPTH, F.HQ_MAXDEPTH, F.HQ_PUSH_CNT, F.HQ_BUSY_CNT, F.SH_STATUS_STATE, F.SH_STATUS_SLOT,
      F.SH_LOAD, F.LVL_RDY_DEPTH, F.LVL_WAIT_AVG, F.LVL_HIST, F.FLOW_STATE_HELD, F.FLOW_STATE_IN_SERVICE,
      F.FLOW_STATE_HELD_CAUSE, F.FLOW_STATE_PENDING, F.CP_STATUS_STOP_CAUSE, F.CP_STATUS_STATE, F.CP_EVENT,
      F.CP_STOP_T, F.PWR_STATUS_WAKE_PEND, F.PWR_STATUS_LOOM_ON, F.PWR_STATUS_PHASE, F.PWR_STATUS_TARGET,
      F.PWR_STATUS_STATE, F.PWR_WAKE_SRC, F.PWR_WAKE_MERGED, F.PWR_RES, F.PWR_ENTRIES, F.SYS_FAULT,
      F.SYS_FAULT_LAST, F.SYS_FAULT_T, F.MSIX_PBA],
    parts := [.warp, .skein, .cells, .fio, .aout, .treadles, .gens, .trig, .loom, .sched, .cyc, .island, .host, .power, .rings, .sram, .dram, .dlm, .freeCtr] }

theorem keeps_releaseEval (hc : Closed I Touched.releaseEval) {s : State} (hk : Holds I s) (n : Nat) (ev : Eval) (ready : Instant) : Holds I (State.releaseEval s n ev ready) := by
  have c_noteSlack' : Closed I Touched.noteSlack := hc.mono (by decide +kernel)
  have c_releaseChans' : Closed I Touched.releaseChans := hc.mono (by decide +kernel)
  have c_applyEval' : Closed I Touched.applyEval := hc.mono (by decide +kernel)
  have c_swapClamp' : Closed I Touched.swapClamp := hc.mono (by decide +kernel)
  have c_declareEval' : Closed I Touched.declareEval := hc.mono (by decide +kernel)
  unfold State.releaseEval
  try dsimp only
  repeat' first | (guard_target =ₐ Holds I s; exact hk) | simp only [id_eq] | with_reducible apply keeps_noteSlack c_noteSlack' | with_reducible apply keeps_releaseChans c_releaseChans' | with_reducible apply keeps_applyEval c_applyEval' | with_reducible apply keeps_when | with_reducible apply keeps_swapClamp c_swapClamp' | with_reducible apply keeps_declareEval c_declareEval' | with_reducible apply Keeps.foldl (I := I) | with_reducible apply Keeps.foldl₂ (I := I) | with_reducible apply Keeps.ite (I := I) | split | intro s _ _ hk | intro s _ hk | intro s hk | with_reducible exact hk

def Touched.safeRelease : Touch :=
  { regs := [F.WARP_EVENT_SLACK_ALARM, F.AVS_STATUS_AT_MAX, F.AVS_STATUS_CMD_MV, F.LC_STATUS_EVT_ARMED, F.LC_U,
      F.LC_SUP_STATUS_FAULT_CAUSE, F.LC_SUP_STATUS_LATE_RUN, F.LC_SUP_EVENT_LATE, F.LC_DIAG_CNT_LATE_CNT,
      F.SK_STATUS_BURST_FREE_KIB, F.SK_EVENT, F.SKS_SEQ, F.SKS_STATUS_RESIDENT, F.SKS_OVERWRITE, F.ODO_OUT,
      F.ODO_OUT_SAT, F.VR_VALUE, F.SYS_FAULT, F.SYS_FAULT_LAST, F.SYS_FAULT_T, F.MSIX_PBA],
    parts := [.skein, .cells, .fio, .aout, .loom, .host, .rings] }

theorem keeps_safeRelease (hc : Closed I Touched.safeRelease) {s : State} (hk : Holds I s) (n : Nat) (late : Bool) : Holds I (State.safeRelease s n late) := by
  have c_countLate' : Closed I Touched.countLate := hc.mono (by decide +kernel)
  have c_causeClass' : Closed I Touched.causeClass := hc.mono (by decide +kernel)
  have c_enterSafe' : Closed I Touched.enterSafe := hc.mono (by decide +kernel)
  unfold State.safeRelease
  try dsimp only
  repeat' first | (guard_target =ₐ Holds I s; exact hk) | simp only [id_eq] | with_reducible apply keeps_countLate c_countLate' | with_reducible apply keeps_causeClass c_causeClass' | with_reducible apply keeps_wr | with_reducible apply keeps_enterSafe c_enterSafe' | with_reducible apply Keeps.foldl (I := I) | with_reducible apply Keeps.foldl₂ (I := I) | with_reducible apply Keeps.ite (I := I) | exact hc.mono (by decide +kernel) | split | intro s _ _ hk | intro s _ hk | intro s hk | with_reducible exact hk

def Touched.startCell : Touch :=
  { regs := [F.LC_STATUS_EVT_ARMED, F.LC_STATUS_DWELL_WAIT, F.LC_STATUS_SAT_LO, F.LC_STATUS_SAT_HI, F.LC_STATUS_LEVEL,
      F.LC_C_STATE, F.LC_SUP_STATUS_OK_RUN, F.LC_SUP_STATUS_VIOL_RUN, F.LC_SUP_STATUS_SUP_STATE, F.ODO_OUT,
      F.ODO_OUT_SAT],
    parts := [.cells, .fio, .loom] }

theorem keeps_startCell (hc : Closed I Touched.startCell) {s : State} (hk : Holds I s) (n : Nat) : Holds I (State.startCell s n) := by
  have c_putCell' : Closed I Touched.putCell := hc.mono (by decide +kernel)
  have c_settle' : Closed I Touched.settle := hc.mono (by decide +kernel)
  have c_putCs' : Closed I Touched.putCs := hc.mono (by decide +kernel)
  unfold State.startCell
  try dsimp only
  repeat' first | (guard_target =ₐ Holds I s; exact hk) | simp only [id_eq] | with_reducible apply keeps_putCell c_putCell' | with_reducible apply keeps_wr | with_reducible apply keeps_settle c_settle' | with_reducible apply keeps_putCs c_putCs' | with_reducible apply Keeps.foldl (I := I) | with_reducible apply Keeps.foldl₂ (I := I) | with_reducible apply Keeps.ite (I := I) | exact hc.mono (by decide +kernel) | split | intro s _ _ hk | intro s _ hk | intro s hk | with_reducible exact hk

def Touched.strobeAin : Touch :=
  { parts := [.ain] }

theorem keeps_strobeAin (hc : Closed I Touched.strobeAin) {s : State} (hk : Holds I s) (a : Nat) : Holds I (State.strobeAin s a).1 := by
  have c_ain : Closed I { parts := [.ain] } := hc.mono (by decide +kernel)
  unfold State.strobeAin
  try dsimp only
  repeat' first | (guard_target =ₐ Holds I s; exact hk) | simp only [ic_mk, id_eq] | with_reducible refine ic_ain c_ain (ic_fold ?_) | with_reducible apply Keeps.foldl (I := I) | with_reducible apply Keeps.foldl₂ (I := I) | with_reducible apply Keeps.ite (I := I) | split | intro s _ _ hk | intro s _ hk | intro s hk | with_reducible exact hk

end Sys2Proof.Machine
end

