-- ==== Sys2Proof/Laws/Keeps/AxisOps.lean ====
section
/-! SUPPORT.  What the operations of Machine/AxisOps.lean touch, and that they keep every property
closed under it. -/

namespace Sys2Proof.Machine

open Sys2Proof

set_option Elab.async false
set_option linter.unusedSimpArgs false
set_option linter.unusedVariables false
set_option linter.unusedTactic false
set_option linter.unreachableTactic false

variable {I : State → Prop}

def Touched.showSeg : Touch :=
  { regs := [F.AX_SEG_NOW_SEG, F.AX_SEG_NOW_LEFT] }

theorem keeps_showSeg (hc : Closed I Touched.showSeg) {s : State} (hk : Holds I s) (n : Nat) : Holds I (State.showSeg s n) := by
  unfold State.showSeg
  try dsimp only
  repeat' first | (guard_target =ₐ Holds I s; exact hk) | simp only [id_eq] | with_reducible apply keeps_wr | with_reducible apply Keeps.foldl (I := I) | with_reducible apply Keeps.foldl₂ (I := I) | with_reducible apply Keeps.ite (I := I) | exact hc.mono (by decide +kernel) | split | intro s _ _ hk | intro s _ hk | intro s hk | with_reducible exact hk

def Touched.putAxState : Touch :=
  { regs := [F.AX_STATUS_STATE] }

theorem keeps_putAxState (hc : Closed I Touched.putAxState) {s : State} (hk : Holds I s) (n : Nat) (k : Nat) : Holds I (State.putAxState s n k) := by
  unfold State.putAxState
  try dsimp only
  repeat' first | (guard_target =ₐ Holds I s; exact hk) | simp only [id_eq] | with_reducible apply keeps_wr | with_reducible apply Keeps.foldl (I := I) | with_reducible apply Keeps.foldl₂ (I := I) | with_reducible apply Keeps.ite (I := I) | exact hc.mono (by decide +kernel) | split | intro s _ _ hk | intro s _ hk | intro s hk | with_reducible exact hk

def Touched.axRest : Touch :=
  { regs := [F.AX_STATUS_STATE], parts := [.axes] }

theorem keeps_axRest (hc : Closed I Touched.axRest) {s : State} (hk : Holds I s) (n : Nat) (p : Int) : Holds I (State.axRest s n p) := by
  have c_onAxis' : Closed I Touched.onAxis := hc.mono (by decide +kernel)
  have c_putAxState' : Closed I Touched.putAxState := hc.mono (by decide +kernel)
  unfold State.axRest
  try dsimp only
  repeat' first | (guard_target =ₐ Holds I s; exact hk) | simp only [id_eq] | with_reducible apply keeps_onAxis c_onAxis' | with_reducible apply keeps_putAxState c_putAxState' | with_reducible apply Keeps.foldl (I := I) | with_reducible apply Keeps.foldl₂ (I := I) | with_reducible apply Keeps.ite (I := I) | split | intro s _ _ hk | intro s _ hk | intro s hk | with_reducible exact hk

def Touched.finishSegs : Touch :=
  { regs := [F.TR_COND], parts := [.treadles] }

theorem keeps_finishSegs (hc : Closed I Touched.finishSegs) {s : State} (hk : Holds I s) (n : Nat) : Holds I (State.finishSegs s n) := by
  have c_segmentsDone' : Closed I Touched.segmentsDone := hc.mono (by decide +kernel)
  unfold State.finishSegs
  try dsimp only
  repeat' first | (guard_target =ₐ Holds I s; exact hk) | simp only [id_eq] | with_reducible apply keeps_when | with_reducible apply keeps_segmentsDone c_segmentsDone' | with_reducible apply Keeps.foldl (I := I) | with_reducible apply Keeps.foldl₂ (I := I) | with_reducible apply Keeps.ite (I := I) | split | intro s _ _ hk | intro s _ hk | intro s hk | with_reducible exact hk

def Touched.axEnded : Touch :=
  { regs := [F.TR_COND, F.AX_STATUS_STATE], parts := [.treadles, .axes] }

theorem keeps_axEnded (hc : Closed I Touched.axEnded) {s : State} (hk : Holds I s) (n : Nat) : Holds I (State.axEnded s n) := by
  have c_axRest' : Closed I Touched.axRest := hc.mono (by decide +kernel)
  have c_finishSegs' : Closed I Touched.finishSegs := hc.mono (by decide +kernel)
  unfold State.axEnded
  try dsimp only
  repeat' first | (guard_target =ₐ Holds I s; exact hk) | simp only [id_eq] | with_reducible apply keeps_axRest c_axRest' | with_reducible apply keeps_when | with_reducible apply keeps_finishSegs c_finishSegs' | with_reducible apply Keeps.foldl (I := I) | with_reducible apply Keeps.foldl₂ (I := I) | with_reducible apply Keeps.ite (I := I) | split | intro s _ _ hk | intro s _ hk | intro s hk | with_reducible exact hk

def Touched.axEvent : Touch :=
  { regs := [F.AX_EVENT] }

theorem keeps_axEvent (hc : Closed I Touched.axEvent) {s : State} (hk : Holds I s) (n : Nat) (bit : Nat) : Holds I (State.axEvent s n bit) := by
  unfold State.axEvent
  try dsimp only
  repeat' first | (guard_target =ₐ Holds I s; exact hk) | simp only [id_eq] | with_reducible apply keeps_setBit | with_reducible apply Keeps.foldl (I := I) | with_reducible apply Keeps.foldl₂ (I := I) | with_reducible apply Keeps.ite (I := I) | exact hc.mono (by decide +kernel) | split | intro s _ _ hk | intro s _ hk | intro s hk | with_reducible exact hk

def Touched.axStop : Touch :=
  { parts := [.axes] }

theorem keeps_axStop (hc : Closed I Touched.axStop) {s : State} (hk : Holds I s) (n : Nat) (p : Int) (v : Int) (at_ : Instant) : Holds I (State.axStop s n p v at_) := by
  have c_onAxis' : Closed I Touched.onAxis := hc.mono (by decide +kernel)
  unfold State.axStop
  try dsimp only
  repeat' first | (guard_target =ₐ Holds I s; exact hk) | simp only [id_eq] | with_reducible apply keeps_onAxis c_onAxis' | with_reducible apply Keeps.foldl (I := I) | with_reducible apply Keeps.foldl₂ (I := I) | with_reducible apply Keeps.ite (I := I) | split | intro s _ _ hk | intro s _ hk | intro s hk | with_reducible exact hk

def Touched.axOpenEnd : Touch :=
  { regs := [F.TR_COND, F.AX_STATUS_STATE, F.AX_EVENT], parts := [.treadles, .axes] }

theorem keeps_axOpenEnd (hc : Closed I Touched.axOpenEnd) {s : State} (hk : Holds I s) (n : Nat) : Holds I (State.axOpenEnd s n) := by
  have c_axEvent' : Closed I Touched.axEvent := hc.mono (by decide +kernel)
  have c_putAxState' : Closed I Touched.putAxState := hc.mono (by decide +kernel)
  have c_axStop' : Closed I Touched.axStop := hc.mono (by decide +kernel)
  have c_finishSegs' : Closed I Touched.finishSegs := hc.mono (by decide +kernel)
  unfold State.axOpenEnd
  try dsimp only
  repeat' first | (guard_target =ₐ Holds I s; exact hk) | simp only [id_eq] | with_reducible apply keeps_axEvent c_axEvent' | with_reducible apply keeps_putAxState c_putAxState' | with_reducible apply keeps_axStop c_axStop' | with_reducible apply keeps_finishSegs c_finishSegs' | with_reducible apply Keeps.foldl (I := I) | with_reducible apply Keeps.foldl₂ (I := I) | with_reducible apply Keeps.ite (I := I) | split | intro s _ _ hk | intro s _ hk | intro s hk | with_reducible exact hk

def Touched.axCatchUp : Touch :=
  { regs := [F.TR_COND, F.AX_STATUS_STATE, F.AX_EVENT, F.AX_SEG_NOW_SEG, F.AX_SEG_NOW_LEFT],
    parts := [.treadles, .axes] }

theorem keeps_axCatchUp (hc : Closed I Touched.axCatchUp) {s : State} (hk : Holds I s) (n : Nat) : Holds I (State.axCatchUp s n) := by
  have c_showSeg' : Closed I Touched.showSeg := hc.mono (by decide +kernel)
  have c_axEnded' : Closed I Touched.axEnded := hc.mono (by decide +kernel)
  have c_axOpenEnd' : Closed I Touched.axOpenEnd := hc.mono (by decide +kernel)
  unfold State.axCatchUp
  try dsimp only
  repeat' first | (guard_target =ₐ Holds I s; exact hk) | simp only [id_eq] | with_reducible apply keeps_showSeg c_showSeg' | with_reducible apply keeps_axEnded c_axEnded' | with_reducible apply keeps_axOpenEnd c_axOpenEnd' | with_reducible apply Keeps.foldl (I := I) | with_reducible apply Keeps.foldl₂ (I := I) | with_reducible apply Keeps.ite (I := I) | split | intro s _ _ hk | intro s _ hk | intro s hk | with_reducible exact hk

def Touched.axConversion : Touch :=
  { parts := [.axes] }

theorem keeps_axConversion (hc : Closed I Touched.axConversion) {s : State} (hk : Holds I s) (a : Nat) (q : Nat) : Holds I (State.axConversion s a q) := by
  have c_onAxis' : Closed I Touched.onAxis := hc.mono (by decide +kernel)
  unfold State.axConversion
  try dsimp only
  repeat' first | (guard_target =ₐ Holds I s; exact hk) | simp only [id_eq] | with_reducible apply keeps_each | with_reducible apply keeps_onAxis c_onAxis' | with_reducible apply Keeps.foldl (I := I) | with_reducible apply Keeps.foldl₂ (I := I) | with_reducible apply Keeps.ite (I := I) | split | intro s _ _ hk | intro s _ hk | intro s hk | with_reducible exact hk

def Touched.axCount : Touch :=
  { regs := [F.AX_EVENT] }

theorem keeps_axCount (hc : Closed I Touched.axCount) {s : State} (hk : Holds I s) (n : Nat) (f : Fld) (k : Nat) (hf2 : Closed I f.touch) : Holds I (State.axCount s n f k) := by
  have c_axEvent' : Closed I Touched.axEvent := hc.mono (by decide +kernel)
  unfold State.axCount
  try dsimp only
  repeat' first | (guard_target =ₐ Holds I s; exact hk) | simp only [id_eq] | with_reducible apply keeps_wr | with_reducible apply keeps_axEvent c_axEvent' | with_reducible apply Keeps.foldl (I := I) | with_reducible apply Keeps.foldl₂ (I := I) | with_reducible apply Keeps.ite (I := I) | exact hc.mono (by decide +kernel) | split | with_reducible apply hf2 | intro s _ _ hk | intro s _ hk | intro s hk | with_reducible exact hk

def Touched.axRecord : Touch :=
  { regs := [F.SK_STATUS_BURST_FREE_KIB, F.SK_EVENT, F.SKS_SEQ, F.SKS_STATUS_RESIDENT, F.SKS_OVERWRITE],
    parts := [.skein] }

theorem keeps_axRecord (hc : Closed I Touched.axRecord) {s : State} (hk : Holds I s) (n : Nat) (bit : Nat) (res : Nat) : Holds I (State.axRecord s n bit res) := by
  have c_event' : Closed I Touched.event := hc.mono (by decide +kernel)
  unfold State.axRecord
  try dsimp only
  repeat' first | (guard_target =ₐ Holds I s; exact hk) | simp only [id_eq] | with_reducible apply keeps_event c_event' | with_reducible apply Keeps.foldl (I := I) | with_reducible apply Keeps.foldl₂ (I := I) | with_reducible apply Keeps.ite (I := I) | split | intro s _ _ hk | intro s _ hk | intro s hk | with_reducible exact hk

def Touched.refuseAsks : Touch :=
  { regs := [F.AX_EVENT, F.SK_STATUS_BURST_FREE_KIB, F.SK_EVENT, F.SKS_SEQ, F.SKS_STATUS_RESIDENT, F.SKS_OVERWRITE],
    parts := [.skein, .axes] }

theorem keeps_refuseAsks (hc : Closed I Touched.refuseAsks) {s : State} (hk : Holds I s) (n : Nat) : Holds I (State.refuseAsks s n) := by
  have c_axRecord' : Closed I Touched.axRecord := hc.mono (by decide +kernel)
  have c_axEvent' : Closed I Touched.axEvent := hc.mono (by decide +kernel)
  have c_onAxis' : Closed I Touched.onAxis := hc.mono (by decide +kernel)
  unfold State.refuseAsks
  try dsimp only
  repeat' first | (guard_target =ₐ Holds I s; exact hk) | simp only [id_eq] | with_reducible apply keeps_axRecord c_axRecord' | with_reducible apply keeps_axEvent c_axEvent' | with_reducible apply keeps_onAxis c_onAxis' | with_reducible apply Keeps.foldl (I := I) | with_reducible apply Keeps.foldl₂ (I := I) | with_reducible apply Keeps.ite (I := I) | split | intro s _ _ hk | intro s _ hk | intro s hk | with_reducible exact hk

def Touched.axDisabled : Touch :=
  { regs := [F.AX_CTRL_ENABLE, F.AX_STATUS_STATE, F.AX_EVENT, F.AX_SEG_NOW_LEFT, F.SK_STATUS_BURST_FREE_KIB, F.SK_EVENT,
      F.SKS_SEQ, F.SKS_STATUS_RESIDENT, F.SKS_OVERWRITE, F.PWR_STATUS_LOOM_ON, F.PWR_STATUS_PHASE,
      F.PWR_STATUS_TARGET, F.PWR_STATUS_STATE, F.PWR_RES, F.PWR_ENTRIES],
    parts := [.skein, .axes, .power] }

theorem keeps_axDisabled (hc : Closed I Touched.axDisabled) {s : State} (hk : Holds I s) (n : Nat) : Holds I (State.axDisabled s n) := by
  have c_onAxis' : Closed I Touched.onAxis := hc.mono (by decide +kernel)
  have c_runChange' : Closed I Touched.runChange := hc.mono (by decide +kernel)
  have c_refuseAsks' : Closed I Touched.refuseAsks := hc.mono (by decide +kernel)
  have c_putAxState' : Closed I Touched.putAxState := hc.mono (by decide +kernel)
  unfold State.axDisabled
  try dsimp only
  repeat' first | (guard_target =ₐ Holds I s; exact hk) | simp only [id_eq] | with_reducible apply keeps_onAxis c_onAxis' | with_reducible apply keeps_runChange c_runChange' | with_reducible apply keeps_refuseAsks c_refuseAsks' | with_reducible apply keeps_wr | with_reducible apply keeps_putAxState c_putAxState' | with_reducible apply Keeps.foldl (I := I) | with_reducible apply Keeps.foldl₂ (I := I) | with_reducible apply Keeps.ite (I := I) | exact hc.mono (by decide +kernel) | split | intro s _ _ hk | intro s _ hk | intro s hk | with_reducible exact hk

def Touched.drivePhase : Touch :=
  { regs := [F.ODO_OUT, F.ODO_OUT_SAT], parts := [.fio, .loom] }

theorem keeps_drivePhase (hc : Closed I Touched.drivePhase) {s : State} (hk : Holds I s) (n : Nat) (pin : Nat) (d : Int) (start : Instant) : Holds I (State.drivePhase s n pin d start) := by
  have c_settle' : Closed I Touched.settle := hc.mono (by decide +kernel)
  have c_putPin' : Closed I Touched.putPin := hc.mono (by decide +kernel)
  unfold State.drivePhase
  try dsimp only
  repeat' first | (guard_target =ₐ Holds I s; exact hk) | simp only [id_eq] | with_reducible apply keeps_settle c_settle' | with_reducible apply keeps_putPin c_putPin' | with_reducible apply Keeps.foldl (I := I) | with_reducible apply Keeps.foldl₂ (I := I) | with_reducible apply Keeps.ite (I := I) | split | intro s _ _ hk | intro s _ hk | intro s hk | with_reducible exact hk

def Touched.axDrive : Touch :=
  { regs := [F.AX_STATUS_DIR, F.ODO_OUT, F.ODO_OUT_SAT], parts := [.fio, .axes, .loom, .rings] }

theorem keeps_axDrive (hc : Closed I Touched.axDrive) {s : State} (hk : Holds I s) (n : Nat) (e : AxEval) (k : Int) : Holds I (State.axDrive s n e k) := by
  have c_driveLevel' : Closed I Touched.driveLevel := hc.mono (by decide +kernel)
  have c_onAxis' : Closed I Touched.onAxis := hc.mono (by decide +kernel)
  have c_drivePhase' : Closed I Touched.drivePhase := hc.mono (by decide +kernel)
  have c_ringSend' : Closed I Touched.ringSend := hc.mono (by decide +kernel)
  unfold State.axDrive
  try dsimp only
  repeat' first | (guard_target =ₐ Holds I s; exact hk) | simp only [id_eq] | with_reducible apply keeps_wr | with_reducible apply keeps_driveLevel c_driveLevel' | with_reducible apply keeps_onAxis c_onAxis' | with_reducible apply keeps_drivePhase c_drivePhase' | with_reducible apply keeps_ringSend c_ringSend' | with_reducible apply Keeps.foldl (I := I) | with_reducible apply Keeps.foldl₂ (I := I) | with_reducible apply Keeps.ite (I := I) | exact hc.mono (by decide +kernel) | split | intro s _ _ hk | intro s _ hk | intro s hk | with_reducible exact hk

def Touched.axEvaluate : Touch :=
  { parts := [.ain, .axes, .freeCtr] }

theorem keeps_axEvaluate (hc : Closed I Touched.axEvaluate) {s : State} (hk : Holds I s) (n : Nat) : Holds I (State.axEvaluate s n) := by
  have c_onAxis' : Closed I Touched.onAxis := hc.mono (by decide +kernel)
  have c_draw' : Closed I Touches.draw := hc.mono (by decide +kernel)
  have c_strobeAin' : Closed I Touched.strobeAin := hc.mono (by decide +kernel)
  unfold State.axEvaluate
  try dsimp only
  repeat' first | (guard_target =ₐ Holds I s; exact hk) | simp only [id_eq] | with_reducible apply keeps_onAxis c_onAxis' | with_reducible apply keeps_draw c_draw' | with_reducible apply keeps_strobeAin c_strobeAin' | with_reducible apply Keeps.foldl (I := I) | with_reducible apply Keeps.foldl₂ (I := I) | with_reducible apply Keeps.ite (I := I) | split | intro s _ _ hk | intro s _ hk | intro s hk | with_reducible exact hk

def Touched.axImmediate : Touch :=
  { regs := [F.ODO_OUT, F.ODO_OUT_SAT], parts := [.fio, .axes, .loom] }

theorem keeps_axImmediate (hc : Closed I Touched.axImmediate) {s : State} (hk : Holds I s) (n : Nat) : Holds I (State.axImmediate s n) := by
  have c_onAxis' : Closed I Touched.onAxis := hc.mono (by decide +kernel)
  have c_driveLevel' : Closed I Touched.driveLevel := hc.mono (by decide +kernel)
  unfold State.axImmediate
  try dsimp only
  repeat' first | (guard_target =ₐ Holds I s; exact hk) | simp only [id_eq] | with_reducible apply keeps_onAxis c_onAxis' | with_reducible apply keeps_when | with_reducible apply keeps_driveLevel c_driveLevel' | with_reducible apply keeps_each | with_reducible apply Keeps.foldl (I := I) | with_reducible apply Keeps.foldl₂ (I := I) | with_reducible apply Keeps.ite (I := I) | split | intro s _ _ hk | intro s _ hk | intro s hk | with_reducible exact hk

def Touched.axFault : Touch :=
  { regs := [F.LC_STATUS_SHADOW_VALID, F.TR_STATUS_STAGE_STATE, F.TR_STATUS_PAUSE_CAUSE, F.TR_STATUS_DEFERRED,
      F.TR_STATUS_STATE, F.TR_EVENT_SPAWN_DROP, F.TR_EVENT_ABORT_IGNORED, F.TR_EVENT_CANCELLED,
      F.TR_STEPS_STAGED_STEP, F.TR_NEXT, F.TR_DECIDE_END_IDX, F.TR_DECIDE_DECIDED, F.TR_CANCEL_CNT, F.TR_COND,
      F.PG_STATUS_HELD, F.PG_SHADOW_TARGET, F.PG_SHADOW_VMAX, F.PG_SHADOW_WIN_M2, F.PG_SHADOW_WIN_M1,
      F.AX_STATUS_FAULT_CAUSE, F.AX_STATUS_STATE, F.AX_EVENT, F.SK_STATUS_BURST_FREE_KIB, F.SK_EVENT, F.SKS_SEQ,
      F.SKS_STATUS_RESIDENT, F.SKS_OVERWRITE, F.CS_STATUS_STATE, F.CS_EVENT, F.LOOM_EVENT, F.LOOM_EVT_OVF,
      F.LOOM_OVF_ROUTE, F.ODO_OUT, F.ODO_OUT_SAT, F.VR_VALUE, F.SCHED_STATUS_FREE_SLOTS, F.SCHED_STATUS_INFLIGHT,
      F.SCHED_EVENT, F.SCHED_DISPATCH_CNT, F.SCHED_CANCEL_CNT, F.SCHED_CANCEL_LATE_CNT, F.SCHED_POISON_CNT,
      F.SCHED_EVT_UNBOUND_CNT, F.SCHED_TEMPLATE_MISS_CNT, F.PS_USED, F.PS_HELD, F.HQ_DEPTH, F.HQ_MAXDEPTH,
      F.HQ_PUSH_CNT, F.HQ_BUSY_CNT, F.SH_STATUS_STATE, F.SH_STATUS_SLOT, F.SH_LOAD, F.LVL_RDY_DEPTH,
      F.LVL_WAIT_AVG, F.LVL_HIST, F.FLOW_STATE_HELD, F.FLOW_STATE_IN_SERVICE, F.FLOW_STATE_HELD_CAUSE,
      F.FLOW_STATE_PENDING, F.CP_STATUS_STOP_CAUSE, F.CP_STATUS_STATE, F.CP_EVENT, F.CP_STOP_T,
      F.PWR_STATUS_WAKE_PEND, F.PWR_STATUS_LOOM_ON, F.PWR_STATUS_PHASE, F.PWR_STATUS_TARGET, F.PWR_STATUS_STATE,
      F.PWR_WAKE_SRC, F.PWR_WAKE_MERGED, F.PWR_RES, F.PWR_ENTRIES, F.SYS_FAULT, F.SYS_FAULT_LAST, F.SYS_FAULT_T,
      F.MSIX_PBA],
    parts := [.skein, .cells, .fio, .treadles, .gens, .axes, .trig, .loom, .sched, .cyc, .host, .power, .rings, .sram, .dram, .dlm, .freeCtr] }

theorem keeps_axFault (hc : Closed I Touched.axFault) {s : State} (hk : Holds I s) (n : Nat) (causes : Nat) : Holds I (State.axFault s n causes) := by
  have c_axEvent' : Closed I Touched.axEvent := hc.mono (by decide +kernel)
  have c_causeClass' : Closed I Touched.causeClass := hc.mono (by decide +kernel)
  have c_axImmediate' : Closed I Touched.axImmediate := hc.mono (by decide +kernel)
  have c_axStop' : Closed I Touched.axStop := hc.mono (by decide +kernel)
  have c_onAxis' : Closed I Touched.onAxis := hc.mono (by decide +kernel)
  have c_axRecord' : Closed I Touched.axRecord := hc.mono (by decide +kernel)
  have c_putAxState' : Closed I Touched.putAxState := hc.mono (by decide +kernel)
  have c_refuseAsks' : Closed I Touched.refuseAsks := hc.mono (by decide +kernel)
  have c_emitFrom' : Closed I Touched.emitFrom := hc.mono (by decide +kernel)
  have c_partStop' : Closed I Touched.partStop := hc.mono (by decide +kernel)
  unfold State.axFault
  try dsimp only
  repeat' first | (guard_target =ₐ Holds I s; exact hk) | simp only [id_eq] | with_reducible apply keeps_wr | with_reducible apply keeps_axEvent c_axEvent' | with_reducible apply keeps_causeClass c_causeClass' | with_reducible apply keeps_axImmediate c_axImmediate' | with_reducible apply keeps_axStop c_axStop' | with_reducible apply keeps_onAxis c_onAxis' | with_reducible apply keeps_axRecord c_axRecord' | with_reducible apply keeps_putAxState c_putAxState' | with_reducible apply keeps_when | with_reducible apply keeps_refuseAsks c_refuseAsks' | with_reducible apply keeps_emitFrom c_emitFrom' | with_reducible apply keeps_partStop c_partStop' | with_reducible apply Keeps.foldl (I := I) | with_reducible apply Keeps.foldl₂ (I := I) | with_reducible apply Keeps.ite (I := I) | exact hc.mono (by decide +kernel) | split | intro s _ _ hk | intro s _ hk | intro s hk | with_reducible exact hk

def Touched.axShift : Touch :=
  { regs := [F.AX_POS, F.AX_FBPOS, F.AX_STEP_POS], parts := [.axes] }

theorem keeps_axShift (hc : Closed I Touched.axShift) {s : State} (hk : Holds I s) (n : Nat) (d : Int) : Holds I (State.axShift s n d) := by
  have c_putAxis' : Closed I Touched.putAxis := hc.mono (by decide +kernel)
  unfold State.axShift
  try dsimp only
  repeat' first | (guard_target =ₐ Holds I s; exact hk) | simp only [id_eq] | with_reducible apply keeps_putAxis c_putAxis' | with_reducible apply keeps_wrI | with_reducible apply Keeps.foldl (I := I) | with_reducible apply Keeps.foldl₂ (I := I) | with_reducible apply Keeps.ite (I := I) | exact hc.mono (by decide +kernel) | split | intro s _ _ hk | intro s _ hk | intro s hk | with_reducible exact hk

def Touched.axHomed : Touch :=
  { regs := [F.AX_STATUS_HOME_RESULT, F.AX_STATUS_HOMED, F.AX_STATUS_STATE, F.AX_EVENT, F.AX_POS, F.AX_FBPOS,
      F.AX_STEP_POS, F.AX_HOME_LATCH],
    parts := [.axes] }

theorem keeps_axHomed (hc : Closed I Touched.axHomed) {s : State} (hk : Holds I s) (n : Nat) (l : Int) : Holds I (State.axHomed s n l) := by
  have c_axShift' : Closed I Touched.axShift := hc.mono (by decide +kernel)
  have c_onAxis' : Closed I Touched.onAxis := hc.mono (by decide +kernel)
  have c_putAxState' : Closed I Touched.putAxState := hc.mono (by decide +kernel)
  have c_axEvent' : Closed I Touched.axEvent := hc.mono (by decide +kernel)
  unfold State.axHomed
  try dsimp only
  repeat' first | (guard_target =ₐ Holds I s; exact hk) | simp only [id_eq] | with_reducible apply keeps_axShift c_axShift' | with_reducible apply keeps_onAxis c_onAxis' | with_reducible apply keeps_wr | with_reducible apply keeps_wrI | with_reducible apply keeps_putAxState c_putAxState' | with_reducible apply keeps_axEvent c_axEvent' | with_reducible apply Keeps.foldl (I := I) | with_reducible apply Keeps.foldl₂ (I := I) | with_reducible apply Keeps.ite (I := I) | exact hc.mono (by decide +kernel) | split | intro s _ _ hk | intro s _ hk | intro s hk | with_reducible exact hk

def Touched.axLate : Touch :=
  { regs := [F.WARP_EVENT_SLACK_ALARM, F.SLACK_LOW, F.AVS_STATUS_AT_MAX, F.AVS_STATUS_CMD_MV, F.LC_STATUS_SHADOW_VALID,
      F.TR_STATUS_STAGE_STATE, F.TR_STATUS_PAUSE_CAUSE, F.TR_STATUS_DEFERRED, F.TR_STATUS_STATE,
      F.TR_EVENT_SPAWN_DROP, F.TR_EVENT_ABORT_IGNORED, F.TR_EVENT_CANCELLED, F.TR_STEPS_STAGED_STEP, F.TR_NEXT,
      F.TR_DECIDE_END_IDX, F.TR_DECIDE_DECIDED, F.TR_CANCEL_CNT, F.TR_COND, F.PG_STATUS_HELD, F.PG_SHADOW_TARGET,
      F.PG_SHADOW_VMAX, F.PG_SHADOW_WIN_M2, F.PG_SHADOW_WIN_M1, F.AX_STATUS_FAULT_CAUSE, F.AX_STATUS_STATE,
      F.AX_EVENT, F.AX_DIAG_CNT_LATE_CNT, F.SK_STATUS_BURST_FREE_KIB, F.SK_EVENT, F.SKS_SEQ, F.SKS_STATUS_RESIDENT,
      F.SKS_OVERWRITE, F.CS_STATUS_STATE, F.CS_EVENT, F.LOOM_EVENT, F.LOOM_EVT_OVF, F.LOOM_OVF_ROUTE, F.ODO_OUT,
      F.ODO_OUT_SAT, F.VR_VALUE, F.SCHED_STATUS_FREE_SLOTS, F.SCHED_STATUS_INFLIGHT, F.SCHED_EVENT,
      F.SCHED_DISPATCH_CNT, F.SCHED_CANCEL_CNT, F.SCHED_CANCEL_LATE_CNT, F.SCHED_POISON_CNT,
      F.SCHED_EVT_UNBOUND_CNT, F.SCHED_TEMPLATE_MISS_CNT, F.PS_USED, F.PS_HELD, F.HQ_DEPTH, F.HQ_MAXDEPTH,
      F.HQ_PUSH_CNT, F.HQ_BUSY_CNT, F.SH_STATUS_STATE, F.SH_STATUS_SLOT, F.SH_LOAD, F.LVL_RDY_DEPTH,
      F.LVL_WAIT_AVG, F.LVL_HIST, F.FLOW_STATE_HELD, F.FLOW_STATE_IN_SERVICE, F.FLOW_STATE_HELD_CAUSE,
      F.FLOW_STATE_PENDING, F.CP_STATUS_STOP_CAUSE, F.CP_STATUS_STATE, F.CP_EVENT, F.CP_STOP_T,
      F.PWR_STATUS_WAKE_PEND, F.PWR_STATUS_LOOM_ON, F.PWR_STATUS_PHASE, F.PWR_STATUS_TARGET, F.PWR_STATUS_STATE,
      F.PWR_WAKE_SRC, F.PWR_WAKE_MERGED, F.PWR_RES, F.PWR_ENTRIES, F.SYS_FAULT, F.SYS_FAULT_LAST, F.SYS_FAULT_T,
      F.MSIX_PBA],
    parts := [.warp, .skein, .cells, .fio, .treadles, .gens, .axes, .trig, .loom, .sched, .cyc, .host, .power, .rings, .sram, .dram, .dlm, .freeCtr] }

theorem keeps_axLate (hc : Closed I Touched.axLate) {s : State} (hk : Holds I s) (n : Nat) (e : AxEval) (tie : Bool) : Holds I (State.axLate s n e tie) := by
  have c_onAxis' : Closed I Touched.onAxis := hc.mono (by decide +kernel)
  have c_noteSlack' : Closed I Touched.noteSlack := hc.mono (by decide +kernel)
  have c_lateRaise' : Closed I Touched.lateRaise := hc.mono (by decide +kernel)
  have c_axEvent' : Closed I Touched.axEvent := hc.mono (by decide +kernel)
  have c_lateSamples' : Closed I Touched.lateSamples := hc.mono (by decide +kernel)
  have c_axFault' : Closed I Touched.axFault := hc.mono (by decide +kernel)
  unfold State.axLate
  try dsimp only
  repeat' first | (guard_target =ₐ Holds I s; exact hk) | simp only [id_eq] | with_reducible apply keeps_onAxis c_onAxis' | with_reducible apply keeps_when | with_reducible apply keeps_noteSlack c_noteSlack' | with_reducible apply keeps_lateRaise c_lateRaise' | with_reducible apply keeps_axEvent c_axEvent' | with_reducible apply keeps_bump | with_reducible apply keeps_lateSamples c_lateSamples' | with_reducible apply keeps_axFault c_axFault' | with_reducible apply Keeps.foldl (I := I) | with_reducible apply Keeps.foldl₂ (I := I) | with_reducible apply Keeps.ite (I := I) | exact hc.mono (by decide +kernel) | split | intro s _ _ hk | intro s _ hk | intro s hk | with_reducible exact hk

def Touched.hardStop : Touch :=
  { parts := [.axes] }

theorem keeps_hardStop (hc : Closed I Touched.hardStop) {s : State} (hk : Holds I s) (n : Nat) (e : AxEval) : Holds I (State.hardStop s n e).1 := by
  have c_putAxis' : Closed I Touched.putAxis := hc.mono (by decide +kernel)
  unfold State.hardStop
  try dsimp only
  repeat' first | (guard_target =ₐ Holds I s; exact hk) | simp only [id_eq] | with_reducible apply keeps_putAxis c_putAxis' | with_reducible apply Keeps.foldl (I := I) | with_reducible apply Keeps.foldl₂ (I := I) | with_reducible apply Keeps.ite (I := I) | split | intro s _ _ hk | intro s _ hk | intro s hk | with_reducible exact hk

def Touched.endHoming : Touch :=
  { regs := [F.AX_STATUS_HOME_RESULT, F.AX_STATUS_HOMED, F.AX_STATUS_STATE, F.AX_EVENT, F.AX_POS, F.AX_FBPOS,
      F.AX_STEP_POS, F.AX_HOME_LATCH],
    parts := [.axes] }

theorem keeps_endHoming (hc : Closed I Touched.endHoming) {s : State} (hk : Holds I s) (n : Nat) : Holds I (State.endHoming s n) := by
  have c_onAxis' : Closed I Touched.onAxis := hc.mono (by decide +kernel)
  have c_axHomed' : Closed I Touched.axHomed := hc.mono (by decide +kernel)
  have c_putAxState' : Closed I Touched.putAxState := hc.mono (by decide +kernel)
  unfold State.endHoming
  try dsimp only
  repeat' first | (guard_target =ₐ Holds I s; exact hk) | simp only [id_eq] | with_reducible apply keeps_onAxis c_onAxis' | with_reducible apply keeps_axHomed c_axHomed' | with_reducible apply keeps_putAxState c_putAxState' | with_reducible apply keeps_wr | with_reducible apply Keeps.foldl (I := I) | with_reducible apply Keeps.foldl₂ (I := I) | with_reducible apply Keeps.ite (I := I) | exact hc.mono (by decide +kernel) | split | intro s _ _ hk | intro s _ hk | intro s hk | with_reducible exact hk

def Touched.followCheck : Touch :=
  { regs := [F.LC_STATUS_SHADOW_VALID, F.TR_STATUS_STAGE_STATE, F.TR_STATUS_PAUSE_CAUSE, F.TR_STATUS_DEFERRED,
      F.TR_STATUS_STATE, F.TR_EVENT_SPAWN_DROP, F.TR_EVENT_ABORT_IGNORED, F.TR_EVENT_CANCELLED,
      F.TR_STEPS_STAGED_STEP, F.TR_NEXT, F.TR_DECIDE_END_IDX, F.TR_DECIDE_DECIDED, F.TR_CANCEL_CNT, F.TR_COND,
      F.PG_STATUS_HELD, F.PG_SHADOW_TARGET, F.PG_SHADOW_VMAX, F.PG_SHADOW_WIN_M2, F.PG_SHADOW_WIN_M1,
      F.AX_STATUS_FAULT_CAUSE, F.AX_STATUS_STATE, F.AX_EVENT, F.SK_STATUS_BURST_FREE_KIB, F.SK_EVENT, F.SKS_SEQ,
      F.SKS_STATUS_RESIDENT, F.SKS_OVERWRITE, F.CS_STATUS_STATE, F.CS_EVENT, F.LOOM_EVENT, F.LOOM_EVT_OVF,
      F.LOOM_OVF_ROUTE, F.ODO_OUT, F.ODO_OUT_SAT, F.VR_VALUE, F.SCHED_STATUS_FREE_SLOTS, F.SCHED_STATUS_INFLIGHT,
      F.SCHED_EVENT, F.SCHED_DISPATCH_CNT, F.SCHED_CANCEL_CNT, F.SCHED_CANCEL_LATE_CNT, F.SCHED_POISON_CNT,
      F.SCHED_EVT_UNBOUND_CNT, F.SCHED_TEMPLATE_MISS_CNT, F.PS_USED, F.PS_HELD, F.HQ_DEPTH, F.HQ_MAXDEPTH,
      F.HQ_PUSH_CNT, F.HQ_BUSY_CNT, F.SH_STATUS_STATE, F.SH_STATUS_SLOT, F.SH_LOAD, F.LVL_RDY_DEPTH,
      F.LVL_WAIT_AVG, F.LVL_HIST, F.FLOW_STATE_HELD, F.FLOW_STATE_IN_SERVICE, F.FLOW_STATE_HELD_CAUSE,
      F.FLOW_STATE_PENDING, F.CP_STATUS_STOP_CAUSE, F.CP_STATUS_STATE, F.CP_EVENT, F.CP_STOP_T,
      F.PWR_STATUS_WAKE_PEND, F.PWR_STATUS_LOOM_ON, F.PWR_STATUS_PHASE, F.PWR_STATUS_TARGET, F.PWR_STATUS_STATE,
      F.PWR_WAKE_SRC, F.PWR_WAKE_MERGED, F.PWR_RES, F.PWR_ENTRIES, F.SYS_FAULT, F.SYS_FAULT_LAST, F.SYS_FAULT_T,
      F.MSIX_PBA],
    parts := [.skein, .cells, .fio, .treadles, .gens, .axes, .trig, .loom, .sched, .cyc, .host, .power, .rings, .sram, .dram, .dlm, .freeCtr] }

theorem keeps_followCheck (hc : Closed I Touched.followCheck) {s : State} (hk : Holds I s) (n : Nat) (fe : Int) : Holds I (State.followCheck s n fe) := by
  have c_onAxis' : Closed I Touched.onAxis := hc.mono (by decide +kernel)
  have c_axFault' : Closed I Touched.axFault := hc.mono (by decide +kernel)
  unfold State.followCheck
  try dsimp only
  repeat' first | (guard_target =ₐ Holds I s; exact hk) | simp only [id_eq] | with_reducible apply keeps_onAxis c_onAxis' | with_reducible apply keeps_axFault c_axFault' | with_reducible apply Keeps.foldl (I := I) | with_reducible apply Keeps.foldl₂ (I := I) | with_reducible apply Keeps.ite (I := I) | split | intro s _ _ hk | intro s _ hk | intro s hk | with_reducible exact hk

def Touched.resumedHomed : Touch :=
  { regs := [F.AX_STATUS_HOMED], parts := [.axes] }

theorem keeps_resumedHomed (hc : Closed I Touched.resumedHomed) {s : State} (hk : Holds I s) (n : Nat) (fe : Int) : Holds I (State.resumedHomed s n fe) := by
  have c_onAxis' : Closed I Touched.onAxis := hc.mono (by decide +kernel)
  unfold State.resumedHomed
  try dsimp only
  repeat' first | (guard_target =ₐ Holds I s; exact hk) | simp only [id_eq] | with_reducible apply keeps_onAxis c_onAxis' | with_reducible apply keeps_wr | with_reducible apply Keeps.foldl (I := I) | with_reducible apply Keeps.foldl₂ (I := I) | with_reducible apply Keeps.ite (I := I) | exact hc.mono (by decide +kernel) | split | intro s _ _ hk | intro s _ hk | intro s hk | with_reducible exact hk

def Touched.axRelease : Touch :=
  { regs := [F.SLACK_LOW, F.LC_STATUS_SHADOW_VALID, F.TR_STATUS_STAGE_STATE, F.TR_STATUS_PAUSE_CAUSE,
      F.TR_STATUS_DEFERRED, F.TR_STATUS_STATE, F.TR_EVENT_SPAWN_DROP, F.TR_EVENT_ABORT_IGNORED,
      F.TR_EVENT_CANCELLED, F.TR_STEPS_STAGED_STEP, F.TR_NEXT, F.TR_DECIDE_END_IDX, F.TR_DECIDE_DECIDED,
      F.TR_CANCEL_CNT, F.TR_COND, F.PG_STATUS_HELD, F.PG_SHADOW_TARGET, F.PG_SHADOW_VMAX, F.PG_SHADOW_WIN_M2,
      F.PG_SHADOW_WIN_M1, F.AX_STATUS_FAULT_CAUSE, F.AX_STATUS_HOME_RESULT, F.AX_STATUS_DIR, F.AX_STATUS_HOMED,
      F.AX_STATUS_STATE, F.AX_EVENT, F.AX_POS, F.AX_VEL, F.AX_FBPOS, F.AX_FE, F.AX_STEP_POS, F.AX_HOME_LATCH,
      F.AX_DIAG_CNT_DUTY_SAT_CNT, F.AX_ODO_STEPS, F.SK_STATUS_BURST_FREE_KIB, F.SK_EVENT, F.SKS_SEQ,
      F.SKS_STATUS_RESIDENT, F.SKS_OVERWRITE, F.CS_STATUS_STATE, F.CS_EVENT, F.LOOM_EVENT, F.LOOM_EVT_OVF,
      F.LOOM_OVF_ROUTE, F.ODO_OUT, F.ODO_OUT_SAT, F.VR_VALUE, F.SCHED_STATUS_FREE_SLOTS, F.SCHED_STATUS_INFLIGHT,
      F.SCHED_EVENT, F.SCHED_DISPATCH_CNT, F.SCHED_CANCEL_CNT, F.SCHED_CANCEL_LATE_CNT, F.SCHED_POISON_CNT,
      F.SCHED_EVT_UNBOUND_CNT, F.SCHED_TEMPLATE_MISS_CNT, F.PS_USED, F.PS_HELD, F.HQ_DEPTH, F.HQ_MAXDEPTH,
      F.HQ_PUSH_CNT, F.HQ_BUSY_CNT, F.SH_STATUS_STATE, F.SH_STATUS_SLOT, F.SH_LOAD, F.LVL_RDY_DEPTH,
      F.LVL_WAIT_AVG, F.LVL_HIST, F.FLOW_STATE_HELD, F.FLOW_STATE_IN_SERVICE, F.FLOW_STATE_HELD_CAUSE,
      F.FLOW_STATE_PENDING, F.CP_STATUS_STOP_CAUSE, F.CP_STATUS_STATE, F.CP_EVENT, F.CP_STOP_T,
      F.PWR_STATUS_WAKE_PEND, F.PWR_STATUS_LOOM_ON, F.PWR_STATUS_PHASE, F.PWR_STATUS_TARGET, F.PWR_STATUS_STATE,
      F.PWR_WAKE_SRC, F.PWR_WAKE_MERGED, F.PWR_RES, F.PWR_ENTRIES, F.SYS_FAULT, F.SYS_FAULT_LAST, F.SYS_FAULT_T,
      F.MSIX_PBA],
    parts := [.warp, .skein, .cells, .fio, .treadles, .gens, .axes, .trig, .loom, .sched, .cyc, .host, .power, .rings, .sram, .dram, .dlm, .freeCtr] }

theorem keeps_axRelease (hc : Closed I Touched.axRelease) {s : State} (hk : Holds I s) (n : Nat) (e : AxEval) (ready : Instant) : Holds I (State.axRelease s n e ready) := by
  have c_noteSlack' : Closed I Touched.noteSlack := hc.mono (by decide +kernel)
  have c_onAxis' : Closed I Touched.onAxis := hc.mono (by decide +kernel)
  have c_axFault' : Closed I Touched.axFault := hc.mono (by decide +kernel)
  have c_hardStop' : Closed I Touched.hardStop := hc.mono (by decide +kernel)
  have c_axDrive' : Closed I Touched.axDrive := hc.mono (by decide +kernel)
  have c_axCount' : Closed I Touched.axCount := hc.mono (by decide +kernel)
  have c_endHoming' : Closed I Touched.endHoming := hc.mono (by decide +kernel)
  have c_followCheck' : Closed I Touched.followCheck := hc.mono (by decide +kernel)
  have c_resumedHomed' : Closed I Touched.resumedHomed := hc.mono (by decide +kernel)
  have c_releaseChans' : Closed I Touched.releaseChans := hc.mono (by decide +kernel)
  have c_publish' : Closed I Touched.publish := hc.mono (by decide +kernel)
  unfold State.axRelease
  try dsimp only
  repeat' first | (guard_target =ₐ Holds I s; exact hk) | simp only [id_eq] | with_reducible apply keeps_noteSlack c_noteSlack' | with_reducible apply keeps_onAxis c_onAxis' | with_reducible apply keeps_wr | with_reducible apply keeps_axFault c_axFault' | with_reducible apply keeps_hardStop c_hardStop' | with_reducible apply keeps_axDrive c_axDrive' | with_reducible apply keeps_wrI | with_reducible apply keeps_bump | with_reducible apply keeps_axCount c_axCount' | with_reducible apply keeps_endHoming c_endHoming' | with_reducible apply keeps_followCheck c_followCheck' | with_reducible apply keeps_resumedHomed c_resumedHomed' | with_reducible apply keeps_releaseChans c_releaseChans' | with_reducible apply keeps_publish c_publish' | with_reducible apply Keeps.foldl (I := I) | with_reducible apply Keeps.foldl₂ (I := I) | with_reducible apply Keeps.ite (I := I) | exact hc.mono (by decide +kernel) | split | intro s _ _ hk | intro s _ hk | intro s hk | with_reducible exact hk

def Touched.axUpdate : Touch :=
  { regs := [F.LC_STATUS_SHADOW_VALID, F.TR_STATUS_STAGE_STATE, F.TR_STATUS_PAUSE_CAUSE, F.TR_STATUS_DEFERRED,
      F.TR_STATUS_STATE, F.TR_EVENT_SPAWN_DROP, F.TR_EVENT_ABORT_IGNORED, F.TR_EVENT_CANCELLED,
      F.TR_STEPS_STAGED_STEP, F.TR_NEXT, F.TR_DECIDE_END_IDX, F.TR_DECIDE_DECIDED, F.TR_CANCEL_CNT, F.TR_COND,
      F.PG_STATUS_HELD, F.PG_SHADOW_TARGET, F.PG_SHADOW_VMAX, F.PG_SHADOW_WIN_M2, F.PG_SHADOW_WIN_M1,
      F.AX_STATUS_FAULT_CAUSE, F.AX_STATUS_STATE, F.AX_EVENT, F.AX_SEG_NOW_SEG, F.AX_SEG_NOW_LEFT,
      F.SK_STATUS_BURST_FREE_KIB, F.SK_EVENT, F.SKS_SEQ, F.SKS_STATUS_RESIDENT, F.SKS_OVERWRITE, F.CS_STATUS_STATE,
      F.CS_EVENT, F.LOOM_EVENT, F.LOOM_EVT_OVF, F.LOOM_OVF_ROUTE, F.ODO_OUT, F.ODO_OUT_SAT, F.VR_VALUE,
      F.SCHED_STATUS_FREE_SLOTS, F.SCHED_STATUS_INFLIGHT, F.SCHED_EVENT, F.SCHED_DISPATCH_CNT, F.SCHED_CANCEL_CNT,
      F.SCHED_CANCEL_LATE_CNT, F.SCHED_POISON_CNT, F.SCHED_EVT_UNBOUND_CNT, F.SCHED_TEMPLATE_MISS_CNT, F.PS_USED,
      F.PS_HELD, F.HQ_DEPTH, F.HQ_MAXDEPTH, F.HQ_PUSH_CNT, F.HQ_BUSY_CNT, F.SH_STATUS_STATE, F.SH_STATUS_SLOT,
      F.SH_LOAD, F.LVL_RDY_DEPTH, F.LVL_WAIT_AVG, F.LVL_HIST, F.FLOW_STATE_HELD, F.FLOW_STATE_IN_SERVICE,
      F.FLOW_STATE_HELD_CAUSE, F.FLOW_STATE_PENDING, F.CP_STATUS_STOP_CAUSE, F.CP_STATUS_STATE, F.CP_EVENT,
      F.CP_STOP_T, F.PWR_STATUS_WAKE_PEND, F.PWR_STATUS_LOOM_ON, F.PWR_STATUS_PHASE, F.PWR_STATUS_TARGET,
      F.PWR_STATUS_STATE, F.PWR_WAKE_SRC, F.PWR_WAKE_MERGED, F.PWR_RES, F.PWR_ENTRIES, F.SYS_FAULT,
      F.SYS_FAULT_LAST, F.SYS_FAULT_T, F.MSIX_PBA],
    parts := [.skein, .cells, .fio, .treadles, .gens, .axes, .trig, .loom, .sched, .cyc, .host, .power, .rings, .sram, .dram, .dlm, .freeCtr] }

theorem keeps_axUpdate (hc : Closed I Touched.axUpdate) {s : State} (hk : Holds I s) (n : Nat) : Holds I (State.axUpdate s n) := by
  have c_axCatchUp' : Closed I Touched.axCatchUp := hc.mono (by decide +kernel)
  have c_axFault' : Closed I Touched.axFault := hc.mono (by decide +kernel)
  unfold State.axUpdate
  try dsimp only
  repeat' first | (guard_target =ₐ Holds I s; exact hk) | simp only [id_eq] | with_reducible apply keeps_axCatchUp c_axCatchUp' | with_reducible apply keeps_axFault c_axFault' | with_reducible apply Keeps.foldl (I := I) | with_reducible apply Keeps.foldl₂ (I := I) | with_reducible apply Keeps.ite (I := I) | split | intro s _ _ hk | intro s _ hk | intro s hk | with_reducible exact hk

def Touched.axStart : Touch :=
  { regs := [F.LC_STATUS_SHADOW_VALID, F.TR_STATUS_STAGE_STATE, F.TR_STATUS_PAUSE_CAUSE, F.TR_STATUS_DEFERRED,
      F.TR_STATUS_STATE, F.TR_EVENT_SPAWN_DROP, F.TR_EVENT_ABORT_IGNORED, F.TR_EVENT_CANCELLED,
      F.TR_STEPS_STAGED_STEP, F.TR_NEXT, F.TR_DECIDE_END_IDX, F.TR_DECIDE_DECIDED, F.TR_CANCEL_CNT, F.TR_COND,
      F.PG_STATUS_HELD, F.PG_SHADOW_TARGET, F.PG_SHADOW_VMAX, F.PG_SHADOW_WIN_M2, F.PG_SHADOW_WIN_M1,
      F.AX_STATUS_FAULT_CAUSE, F.AX_STATUS_STATE, F.AX_EVENT, F.AX_SEG_NOW_SEG, F.AX_SEG_NOW_LEFT, F.AX_ODO_MOVES,
      F.SK_STATUS_BURST_FREE_KIB, F.SK_EVENT, F.SKS_SEQ, F.SKS_STATUS_RESIDENT, F.SKS_OVERWRITE, F.CS_STATUS_STATE,
      F.CS_EVENT, F.LOOM_EVENT, F.LOOM_EVT_OVF, F.LOOM_OVF_ROUTE, F.ODO_OUT, F.ODO_OUT_SAT, F.VR_VALUE,
      F.SCHED_STATUS_FREE_SLOTS, F.SCHED_STATUS_INFLIGHT, F.SCHED_EVENT, F.SCHED_DISPATCH_CNT, F.SCHED_CANCEL_CNT,
      F.SCHED_CANCEL_LATE_CNT, F.SCHED_POISON_CNT, F.SCHED_EVT_UNBOUND_CNT, F.SCHED_TEMPLATE_MISS_CNT, F.PS_USED,
      F.PS_HELD, F.HQ_DEPTH, F.HQ_MAXDEPTH, F.HQ_PUSH_CNT, F.HQ_BUSY_CNT, F.SH_STATUS_STATE, F.SH_STATUS_SLOT,
      F.SH_LOAD, F.LVL_RDY_DEPTH, F.LVL_WAIT_AVG, F.LVL_HIST, F.FLOW_STATE_HELD, F.FLOW_STATE_IN_SERVICE,
      F.FLOW_STATE_HELD_CAUSE, F.FLOW_STATE_PENDING, F.CP_STATUS_STOP_CAUSE, F.CP_STATUS_STATE, F.CP_EVENT,
      F.CP_STOP_T, F.PWR_STATUS_WAKE_PEND, F.PWR_STATUS_LOOM_ON, F.PWR_STATUS_PHASE, F.PWR_STATUS_TARGET,
      F.PWR_STATUS_STATE, F.PWR_WAKE_SRC, F.PWR_WAKE_MERGED, F.PWR_RES, F.PWR_ENTRIES, F.SYS_FAULT,
      F.SYS_FAULT_LAST, F.SYS_FAULT_T, F.MSIX_PBA],
    parts := [.skein, .cells, .fio, .treadles, .gens, .axes, .trig, .loom, .sched, .cyc, .host, .power, .rings, .sram, .dram, .dlm, .freeCtr] }

theorem keeps_axStart (hc : Closed I Touched.axStart) {s : State} (hk : Holds I s) (n : Nat) (first : Nat) (count : Nat) (at_ : Instant) (hold : Option Instant) : Holds I (State.axStart s n first count at_ hold) := by
  have c_axUpdate' : Closed I Touched.axUpdate := hc.mono (by decide +kernel)
  have c_axRecord' : Closed I Touched.axRecord := hc.mono (by decide +kernel)
  have c_axEvent' : Closed I Touched.axEvent := hc.mono (by decide +kernel)
  have c_putAxis' : Closed I Touched.putAxis := hc.mono (by decide +kernel)
  have c_axCount' : Closed I Touched.axCount := hc.mono (by decide +kernel)
  have c_putAxState' : Closed I Touched.putAxState := hc.mono (by decide +kernel)
  unfold State.axStart
  try dsimp only
  repeat' first | (guard_target =ₐ Holds I s; exact hk) | simp only [id_eq] | with_reducible apply keeps_axUpdate c_axUpdate' | with_reducible apply keeps_axRecord c_axRecord' | with_reducible apply keeps_axEvent c_axEvent' | with_reducible apply keeps_putAxis c_putAxis' | with_reducible apply keeps_axCount c_axCount' | with_reducible apply keeps_putAxState c_putAxState' | with_reducible apply Keeps.foldl (I := I) | with_reducible apply Keeps.foldl₂ (I := I) | with_reducible apply Keeps.ite (I := I) | exact hc.mono (by decide +kernel) | split | intro s _ _ hk | intro s _ hk | intro s hk | with_reducible exact hk

def Touched.encoderEdge : Touch :=
  { parts := [.axes] }

theorem keeps_encoderEdge (hc : Closed I Touched.encoderEdge) {s : State} (hk : Holds I s) (pin : Nat) : Holds I (State.encoderEdge s pin) := by
  have c_onAxis' : Closed I Touched.onAxis := hc.mono (by decide +kernel)
  unfold State.encoderEdge
  try dsimp only
  repeat' first | (guard_target =ₐ Holds I s; exact hk) | simp only [id_eq] | with_reducible apply keeps_each | with_reducible apply keeps_onAxis c_onAxis' | with_reducible apply Keeps.foldl (I := I) | with_reducible apply Keeps.foldl₂ (I := I) | with_reducible apply Keeps.ite (I := I) | split | intro s _ _ hk | intro s _ hk | intro s hk | with_reducible exact hk

def Touched.homeSeen : Touch :=
  { parts := [.axes] }

theorem keeps_homeSeen (hc : Closed I Touched.homeSeen) {s : State} (hk : Holds I s) (n : Nat) (l : Int) : Holds I (State.homeSeen s n l) := by
  have c_onAxis' : Closed I Touched.onAxis := hc.mono (by decide +kernel)
  unfold State.homeSeen
  try dsimp only
  repeat' first | (guard_target =ₐ Holds I s; exact hk) | simp only [id_eq] | with_reducible apply keeps_onAxis c_onAxis' | with_reducible apply Keeps.foldl (I := I) | with_reducible apply Keeps.foldl₂ (I := I) | with_reducible apply Keeps.ite (I := I) | split | intro s _ _ hk | intro s _ hk | intro s hk | with_reducible exact hk

def Touched.homeStop : Touch :=
  { regs := [F.AX_STATUS_HOME_RESULT, F.AX_EVENT, F.SK_STATUS_BURST_FREE_KIB, F.SK_EVENT, F.SKS_SEQ,
      F.SKS_STATUS_RESIDENT, F.SKS_OVERWRITE],
    parts := [.skein, .axes] }

theorem keeps_homeStop (hc : Closed I Touched.homeStop) {s : State} (hk : Holds I s) (n : Nat) (result : Nat) (event : Bool) (p : Int) (v : Int) (at_ : Instant) : Holds I (State.homeStop s n result event p v at_) := by
  have c_onAxis' : Closed I Touched.onAxis := hc.mono (by decide +kernel)
  have c_axRecord' : Closed I Touched.axRecord := hc.mono (by decide +kernel)
  have c_axEvent' : Closed I Touched.axEvent := hc.mono (by decide +kernel)
  have c_axStop' : Closed I Touched.axStop := hc.mono (by decide +kernel)
  unfold State.homeStop
  try dsimp only
  repeat' first | (guard_target =ₐ Holds I s; exact hk) | simp only [id_eq] | with_reducible apply keeps_onAxis c_onAxis' | with_reducible apply keeps_wr | with_reducible apply keeps_when | with_reducible apply keeps_axRecord c_axRecord' | with_reducible apply keeps_axEvent c_axEvent' | with_reducible apply keeps_axStop c_axStop' | with_reducible apply Keeps.foldl (I := I) | with_reducible apply Keeps.foldl₂ (I := I) | with_reducible apply Keeps.ite (I := I) | exact hc.mono (by decide +kernel) | split | intro s _ _ hk | intro s _ hk | intro s hk | with_reducible exact hk

def Touched.homingStep : Touch :=
  { regs := [F.AX_STATUS_HOME_RESULT, F.AX_EVENT, F.SK_STATUS_BURST_FREE_KIB, F.SK_EVENT, F.SKS_SEQ,
      F.SKS_STATUS_RESIDENT, F.SKS_OVERWRITE],
    parts := [.skein, .axes] }

theorem keeps_homingStep (hc : Closed I Touched.homingStep) {s : State} (hk : Holds I s) (n : Nat) : Holds I (State.homingStep s n) := by
  have c_homeStop' : Closed I Touched.homeStop := hc.mono (by decide +kernel)
  unfold State.homingStep
  try dsimp only
  repeat' first | (guard_target =ₐ Holds I s; exact hk) | simp only [id_eq] | with_reducible apply keeps_homeStop c_homeStop' | with_reducible apply Keeps.foldl (I := I) | with_reducible apply Keeps.foldl₂ (I := I) | with_reducible apply Keeps.ite (I := I) | split | intro s _ _ hk | intro s _ hk | intro s hk | with_reducible exact hk

def Touched.resetAxes : Touch :=
  { regs := [F.AX_CTRL_ENABLE, F.AX_STATUS_STATE, F.AX_EVENT, F.AX_SEG_NOW_LEFT, F.SK_STATUS_BURST_FREE_KIB, F.SK_EVENT,
      F.SKS_SEQ, F.SKS_STATUS_RESIDENT, F.SKS_OVERWRITE, F.ODO_OUT, F.ODO_OUT_SAT, F.PWR_STATUS_LOOM_ON,
      F.PWR_STATUS_PHASE, F.PWR_STATUS_TARGET, F.PWR_STATUS_STATE, F.PWR_RES, F.PWR_ENTRIES],
    parts := [.skein, .fio, .axes, .loom, .power] }

theorem keeps_resetAxes (hc : Closed I Touched.resetAxes) {s : State} (hk : Holds I s) (p : Nat) : Holds I (State.resetAxes s p) := by
  have c_axDisabled' : Closed I Touched.axDisabled := hc.mono (by decide +kernel)
  have c_axImmediate' : Closed I Touched.axImmediate := hc.mono (by decide +kernel)
  unfold State.resetAxes
  try dsimp only
  repeat' first | (guard_target =ₐ Holds I s; exact hk) | simp only [id_eq] | with_reducible apply keeps_each | with_reducible apply keeps_axDisabled c_axDisabled' | with_reducible apply keeps_axImmediate c_axImmediate' | with_reducible apply Keeps.foldl (I := I) | with_reducible apply Keeps.foldl₂ (I := I) | with_reducible apply Keeps.ite (I := I) | split | intro s _ _ hk | intro s _ hk | intro s hk | with_reducible exact hk

def Touched.runAheadFault : Touch :=
  { parts := [.axes] }

theorem keeps_runAheadFault (hc : Closed I Touched.runAheadFault) {s : State} (hk : Holds I s) (n : Nat) : Holds I (State.runAheadFault s n) := by
  have c_putAxis' : Closed I Touched.putAxis := hc.mono (by decide +kernel)
  unfold State.runAheadFault
  try dsimp only
  repeat' first | (guard_target =ₐ Holds I s; exact hk) | simp only [id_eq] | with_reducible apply keeps_putAxis c_putAxis' | with_reducible apply Keeps.foldl (I := I) | with_reducible apply Keeps.foldl₂ (I := I) | with_reducible apply Keeps.ite (I := I) | split | intro s _ _ hk | intro s _ hk | intro s hk | with_reducible exact hk

def Touched.serveAsks : Touch :=
  { regs := [F.LC_STATUS_SHADOW_VALID, F.TR_STATUS_STAGE_STATE, F.TR_STATUS_PAUSE_CAUSE, F.TR_STATUS_DEFERRED,
      F.TR_STATUS_STATE, F.TR_EVENT_SPAWN_DROP, F.TR_EVENT_ABORT_IGNORED, F.TR_EVENT_CANCELLED,
      F.TR_STEPS_STAGED_STEP, F.TR_NEXT, F.TR_DECIDE_END_IDX, F.TR_DECIDE_DECIDED, F.TR_CANCEL_CNT, F.TR_COND,
      F.PG_STATUS_HELD, F.PG_SHADOW_TARGET, F.PG_SHADOW_VMAX, F.PG_SHADOW_WIN_M2, F.PG_SHADOW_WIN_M1,
      F.AX_STATUS_FAULT_CAUSE, F.AX_STATUS_HOME_RESULT, F.AX_STATUS_STATE, F.AX_EVENT, F.AX_SEG_NOW_SEG,
      F.AX_SEG_NOW_LEFT, F.AX_ODO_MOVES, F.SK_STATUS_BURST_FREE_KIB, F.SK_EVENT, F.SKS_SEQ, F.SKS_STATUS_RESIDENT,
      F.SKS_OVERWRITE, F.CS_STATUS_STATE, F.CS_EVENT, F.LOOM_EVENT, F.LOOM_EVT_OVF, F.LOOM_OVF_ROUTE, F.ODO_OUT,
      F.ODO_OUT_SAT, F.VR_VALUE, F.SCHED_STATUS_FREE_SLOTS, F.SCHED_STATUS_INFLIGHT, F.SCHED_EVENT,
      F.SCHED_DISPATCH_CNT, F.SCHED_CANCEL_CNT, F.SCHED_CANCEL_LATE_CNT, F.SCHED_POISON_CNT,
      F.SCHED_EVT_UNBOUND_CNT, F.SCHED_TEMPLATE_MISS_CNT, F.PS_USED, F.PS_HELD, F.HQ_DEPTH, F.HQ_MAXDEPTH,
      F.HQ_PUSH_CNT, F.HQ_BUSY_CNT, F.SH_STATUS_STATE, F.SH_STATUS_SLOT, F.SH_LOAD, F.LVL_RDY_DEPTH,
      F.LVL_WAIT_AVG, F.LVL_HIST, F.FLOW_STATE_HELD, F.FLOW_STATE_IN_SERVICE, F.FLOW_STATE_HELD_CAUSE,
      F.FLOW_STATE_PENDING, F.CP_STATUS_STOP_CAUSE, F.CP_STATUS_STATE, F.CP_EVENT, F.CP_STOP_T,
      F.PWR_STATUS_WAKE_PEND, F.PWR_STATUS_LOOM_ON, F.PWR_STATUS_PHASE, F.PWR_STATUS_TARGET, F.PWR_STATUS_STATE,
      F.PWR_WAKE_SRC, F.PWR_WAKE_MERGED, F.PWR_RES, F.PWR_ENTRIES, F.SYS_FAULT, F.SYS_FAULT_LAST, F.SYS_FAULT_T,
      F.MSIX_PBA],
    parts := [.skein, .cells, .fio, .treadles, .gens, .axes, .trig, .loom, .sched, .cyc, .host, .power, .rings, .sram, .dram, .dlm, .freeCtr] }

theorem keeps_serveAsks (hc : Closed I Touched.serveAsks) {s : State} (hk : Holds I s) (n : Nat) (a : List Bool) (x3 : Bool) : Holds I (State.serveAsks s n a x3) := by
  have c_axEnded' : Closed I Touched.axEnded := hc.mono (by decide +kernel)
  have c_axStart' : Closed I Touched.axStart := hc.mono (by decide +kernel)
  have c_putAxState' : Closed I Touched.putAxState := hc.mono (by decide +kernel)
  have c_axRecord' : Closed I Touched.axRecord := hc.mono (by decide +kernel)
  have c_axStop' : Closed I Touched.axStop := hc.mono (by decide +kernel)
  have c_axEvent' : Closed I Touched.axEvent := hc.mono (by decide +kernel)
  have c_homeStop' : Closed I Touched.homeStop := hc.mono (by decide +kernel)
  induction a generalizing s n x3 with
  | nil =>
    unfold State.serveAsks
    try dsimp only
    repeat' first | (guard_target =ₐ Holds I s; exact hk) | simp only [id_eq] | with_reducible apply keeps_axEnded c_axEnded' | with_reducible apply keeps_axStart c_axStart' | with_reducible apply keeps_putAxState c_putAxState' | with_reducible apply keeps_axRecord c_axRecord' | with_reducible apply keeps_axStop c_axStop' | with_reducible apply keeps_axEvent c_axEvent' | with_reducible apply keeps_homeStop c_homeStop' | with_reducible apply Keeps.foldl (I := I) | with_reducible apply Keeps.foldl₂ (I := I) | with_reducible apply Keeps.ite (I := I) | split | intro s _ _ hk | intro s _ hk | intro s hk | with_reducible exact hk
  | cons _ _ ih =>
    unfold State.serveAsks
    try dsimp only
    repeat' first | (guard_target =ₐ Holds I s; exact hk) | simp only [id_eq] | with_reducible apply ih | with_reducible apply keeps_axEnded c_axEnded' | with_reducible apply keeps_axStart c_axStart' | with_reducible apply keeps_putAxState c_putAxState' | with_reducible apply keeps_axRecord c_axRecord' | with_reducible apply keeps_axStop c_axStop' | with_reducible apply keeps_axEvent c_axEvent' | with_reducible apply keeps_homeStop c_homeStop' | with_reducible apply Keeps.foldl (I := I) | with_reducible apply Keeps.foldl₂ (I := I) | with_reducible apply Keeps.ite (I := I) | split | intro s _ _ hk | intro s _ hk | intro s hk | with_reducible exact hk | cases ‹_ :: _ = _ :: _›

def Touched.startAxes : Touch :=
  { regs := [F.LC_STATUS_SHADOW_VALID, F.TR_STATUS_STAGE_STATE, F.TR_STATUS_PAUSE_CAUSE, F.TR_STATUS_DEFERRED,
      F.TR_STATUS_STATE, F.TR_EVENT_SPAWN_DROP, F.TR_EVENT_ABORT_IGNORED, F.TR_EVENT_CANCELLED,
      F.TR_STEPS_STAGED_STEP, F.TR_NEXT, F.TR_DECIDE_END_IDX, F.TR_DECIDE_DECIDED, F.TR_CANCEL_CNT, F.TR_COND,
      F.PG_STATUS_HELD, F.PG_SHADOW_TARGET, F.PG_SHADOW_VMAX, F.PG_SHADOW_WIN_M2, F.PG_SHADOW_WIN_M1,
      F.AX_STATUS_FAULT_CAUSE, F.AX_STATUS_STATE, F.AX_EVENT, F.AX_SEG_NOW_SEG, F.AX_SEG_NOW_LEFT, F.AX_ODO_MOVES,
      F.SK_STATUS_BURST_FREE_KIB, F.SK_EVENT, F.SKS_SEQ, F.SKS_STATUS_RESIDENT, F.SKS_OVERWRITE, F.CS_STATUS_STATE,
      F.CS_EVENT, F.LOOM_EVENT, F.LOOM_EVT_OVF, F.LOOM_OVF_ROUTE, F.ODO_OUT, F.ODO_OUT_SAT, F.VR_VALUE,
      F.SCHED_STATUS_FREE_SLOTS, F.SCHED_STATUS_INFLIGHT, F.SCHED_EVENT, F.SCHED_DISPATCH_CNT, F.SCHED_CANCEL_CNT,
      F.SCHED_CANCEL_LATE_CNT, F.SCHED_POISON_CNT, F.SCHED_EVT_UNBOUND_CNT, F.SCHED_TEMPLATE_MISS_CNT, F.PS_USED,
      F.PS_HELD, F.HQ_DEPTH, F.HQ_MAXDEPTH, F.HQ_PUSH_CNT, F.HQ_BUSY_CNT, F.SH_STATUS_STATE, F.SH_STATUS_SLOT,
      F.SH_LOAD, F.LVL_RDY_DEPTH, F.LVL_WAIT_AVG, F.LVL_HIST, F.FLOW_STATE_HELD, F.FLOW_STATE_IN_SERVICE,
      F.FLOW_STATE_HELD_CAUSE, F.FLOW_STATE_PENDING, F.CP_STATUS_STOP_CAUSE, F.CP_STATUS_STATE, F.CP_EVENT,
      F.CP_STOP_T, F.PWR_STATUS_WAKE_PEND, F.PWR_STATUS_LOOM_ON, F.PWR_STATUS_PHASE, F.PWR_STATUS_TARGET,
      F.PWR_STATUS_STATE, F.PWR_WAKE_SRC, F.PWR_WAKE_MERGED, F.PWR_RES, F.PWR_ENTRIES, F.SYS_FAULT,
      F.SYS_FAULT_LAST, F.SYS_FAULT_T, F.MSIX_PBA],
    parts := [.skein, .cells, .fio, .treadles, .gens, .axes, .trig, .loom, .sched, .cyc, .host, .power, .rings, .sram, .dram, .dlm, .freeCtr] }

theorem keeps_startAxes (hc : Closed I Touched.startAxes) {s : State} (hk : Holds I s) (l : List (Nat × Nat × Nat)) : Holds I (State.startAxes s l) := by
  have c_axStart' : Closed I Touched.axStart := hc.mono (by decide +kernel)
  unfold State.startAxes
  try dsimp only
  repeat' first | (guard_target =ₐ Holds I s; exact hk) | simp only [id_eq] | with_reducible apply keeps_axStart c_axStart' | with_reducible apply Keeps.foldl (I := I) | with_reducible apply Keeps.foldl₂ (I := I) | with_reducible apply Keeps.ite (I := I) | split | intro s _ _ hk | intro s _ hk | intro s hk | with_reducible exact hk

def Touched.virtualLimit : Touch :=
  { regs := [F.AX_STATUS_STATE, F.AX_EVENT], parts := [.axes] }

theorem keeps_virtualLimit (hc : Closed I Touched.virtualLimit) {s : State} (hk : Holds I s) (n : Nat) : Holds I (State.virtualLimit s n) := by
  have c_axEvent' : Closed I Touched.axEvent := hc.mono (by decide +kernel)
  have c_putAxState' : Closed I Touched.putAxState := hc.mono (by decide +kernel)
  have c_axStop' : Closed I Touched.axStop := hc.mono (by decide +kernel)
  unfold State.virtualLimit
  try dsimp only
  repeat' first | (guard_target =ₐ Holds I s; exact hk) | simp only [id_eq] | with_reducible apply keeps_when | with_reducible apply keeps_axEvent c_axEvent' | with_reducible apply keeps_putAxState c_putAxState' | with_reducible apply keeps_axStop c_axStop' | with_reducible apply Keeps.foldl (I := I) | with_reducible apply Keeps.foldl₂ (I := I) | with_reducible apply Keeps.ite (I := I) | split | intro s _ _ hk | intro s _ hk | intro s hk | with_reducible exact hk

end Sys2Proof.Machine
end

