-- ==== Sys2Proof/Laws/Keeps/HostOps.lean ====
section
/-! SUPPORT.  What the operations of Machine/HostOps.lean touch, and that they keep every property
closed under it. -/

namespace Sys2Proof.Machine

open Sys2Proof

set_option Elab.async false
set_option linter.unusedSimpArgs false
set_option linter.unusedVariables false
set_option linter.unusedTactic false
set_option linter.unreachableTactic false

variable {I : State → Prop}

def Touched.hostCommand : Touch :=
  { regs := [F.TD_EVENT, F.HOST_EVENT, F.MBX_STATE_COMP, F.PV_SEQ, F.MSIX_PBA],
    parts := [.tandem, .host, .answer, .dram] }

theorem keeps_hostCommand (hc : Closed I Touched.hostCommand) {s : State} (hk : Holds I s) (opcode : Nat) (obj : Nat) (args : HostCmd → Bool) (f : State → State) (hf4 : ∀ s, Holds I s → Holds I (f s)) : Holds I (State.hostCommand s opcode obj args f) := by
  have c_drainRefused' : Closed I Touched.drainRefused := hc.mono (by decide +kernel)
  have c_completeCmd' : Closed I Touched.completeCmd := hc.mono (by decide +kernel)
  have c_putWaiting' : Closed I Touched.putWaiting := hc.mono (by decide +kernel)
  have c_replyStatus' : Closed I Touched.replyStatus := hc.mono (by decide +kernel)
  have c_coveredGate' : Closed I Touched.coveredGate := hc.mono (by decide +kernel)
  have c_reply' : Closed I Touched.reply := hc.mono (by decide +kernel)
  unfold State.hostCommand
  try dsimp only
  repeat' first | (guard_target =ₐ Holds I s; exact hk) | simp only [id_eq] | with_reducible apply keeps_drainRefused c_drainRefused' | with_reducible apply keeps_completeCmd c_completeCmd' | with_reducible apply keeps_putWaiting c_putWaiting' | with_reducible apply keeps_replyStatus c_replyStatus' | with_reducible apply keeps_setBit | with_reducible apply keeps_coveredGate c_coveredGate' | with_reducible apply keeps_reply c_reply' | with_reducible apply Keeps.foldl (I := I) | with_reducible apply Keeps.foldl₂ (I := I) | with_reducible apply Keeps.ite (I := I) | exact hc.mono (by decide +kernel) | split | with_reducible apply hf4 | intro s _ _ hk | intro s _ hk | intro s hk | with_reducible exact hk

def Touched.loading : Touch :=
  { parts := [.answer] }

theorem keeps_loading (hc : Closed I Touched.loading) {s : State} (hk : Holds I s) (room : Bool) (f : State → State) (hf2 : ∀ s, Holds I s → Holds I (f s)) : Holds I (State.loading s room f) := by
  have c_replyStatus' : Closed I Touched.replyStatus := hc.mono (by decide +kernel)
  unfold State.loading
  try dsimp only
  repeat' first | (guard_target =ₐ Holds I s; exact hk) | simp only [id_eq] | with_reducible apply keeps_replyStatus c_replyStatus' | with_reducible apply Keeps.foldl (I := I) | with_reducible apply Keeps.foldl₂ (I := I) | with_reducible apply Keeps.ite (I := I) | split | with_reducible apply hf2 | intro s _ _ hk | intro s _ hk | intro s hk | with_reducible exact hk

def Touched.store : Touch :=
  { parts := [.host] }

theorem keeps_store (hc : Closed I Touched.store) {s : State} (hk : Holds I s) (f : Items → Items) : Holds I (State.store s f) := by
  have c_onHost' : Closed I Touched.onHost := hc.mono (by decide +kernel)
  unfold State.store
  try dsimp only
  repeat' first | (guard_target =ₐ Holds I s; exact hk) | simp only [id_eq] | with_reducible apply keeps_onHost c_onHost' | with_reducible apply Keeps.foldl (I := I) | with_reducible apply Keeps.foldl₂ (I := I) | with_reducible apply Keeps.ite (I := I) | split | intro s _ _ hk | intro s _ hk | intro s hk | with_reducible exact hk

end Sys2Proof.Machine
end

