-- ==== Sys2Proof/Laws/Keeps/Axis.lean ====
section
/-! SUPPORT.  What the operations of Machine/Axis.lean touch, and that they keep every property
closed under it. -/

namespace Sys2Proof.Machine

open Sys2Proof

set_option Elab.async false
set_option linter.unusedSimpArgs false
set_option linter.unusedVariables false
set_option linter.unusedTactic false
set_option linter.unreachableTactic false

variable {I : State → Prop}

def Touched.axCtrlFields : Touch :=
  { regs := [F.AX_CTRL_VLIM_EN, F.AX_CTRL_FAULT_REACT] }

theorem keeps_axCtrlFields (hc : Closed I Touched.axCtrlFields) {s : State} (hk : Holds I s) (n : Nat) (v : Nat) (open_ : Bool) : Holds I (State.axCtrlFields s n v open_) := by
  unfold State.axCtrlFields
  try dsimp only
  repeat' first | (guard_target =ₐ Holds I s; exact hk) | simp only [id_eq] | with_reducible apply keeps_wr | with_reducible apply Keeps.foldl (I := I) | with_reducible apply Keeps.foldl₂ (I := I) | with_reducible apply Keeps.ite (I := I) | exact hc.mono (by decide +kernel) | split | intro s _ _ hk | intro s _ hk | intro s hk | with_reducible exact hk

def Touched.takeSegs : Touch :=
  { regs := [F.AX_EVENT], parts := [.axes, .sram] }

theorem keeps_takeSegs (hc : Closed I Touched.takeSegs) {s : State} (hk : Holds I s) (img : SegImage) : Holds I (State.takeSegs s img) := by
  have c_sram : Closed I { parts := [.sram] } := hc.mono (by decide +kernel)
  have c_axEvent' : Closed I Touched.axEvent := hc.mono (by decide +kernel)
  have c_onAxis' : Closed I Touched.onAxis := hc.mono (by decide +kernel)
  unfold State.takeSegs
  try dsimp only
  repeat' first | (guard_target =ₐ Holds I s; exact hk) | simp only [ic_mk, id_eq] | with_reducible refine ic_sram c_sram (ic_fold ?_) | with_reducible apply keeps_axEvent c_axEvent' | with_reducible apply keeps_onAxis c_onAxis' | with_reducible apply Keeps.foldl (I := I) | with_reducible apply Keeps.foldl₂ (I := I) | with_reducible apply Keeps.ite (I := I) | split | intro s _ _ hk | intro s _ hk | intro s hk | with_reducible exact hk

theorem keeps_execAxClear (hc : Closed I Touches.axClear) {s : State} (hk : Holds I s) (t : Instant) (n : Fin 128) : ∃ u, execAxClear t n s = .next u ∧ Holds I u := by
  have c_advance' : Closed I Touched.advance := hc.mono (by decide +kernel)
  have c_hostWrite' : Closed I Touched.hostWrite := hc.mono (by decide +kernel)
  have c_axEvent' : Closed I Touched.axEvent := hc.mono (by decide +kernel)
  have c_onAxis' : Closed I Touched.onAxis := hc.mono (by decide +kernel)
  have c_putAxState' : Closed I Touched.putAxState := hc.mono (by decide +kernel)
  refine ⟨_, rfl, ?_⟩
  try dsimp only
  repeat' first | (guard_target =ₐ Holds I s; exact hk) | simp only [id_eq] | with_reducible apply keeps_advance c_advance' | with_reducible apply keeps_hostWrite c_hostWrite' | with_reducible apply keeps_axEvent c_axEvent' | with_reducible apply keeps_wr | with_reducible apply keeps_onAxis c_onAxis' | with_reducible apply keeps_putAxState c_putAxState' | with_reducible apply Keeps.foldl (I := I) | with_reducible apply Keeps.foldl₂ (I := I) | with_reducible apply Keeps.ite (I := I) | exact hc.mono (by decide +kernel) | split | intro s _ _ hk | intro s _ hk | intro s hk | with_reducible exact hk

theorem keeps_execAxDisable (hc : Closed I Touches.axDisable) {s : State} (hk : Holds I s) (t : Instant) (n : Fin 128) (value : Word) : ∃ u, execAxDisable t n value s = .next u ∧ Holds I u := by
  have c_advance' : Closed I Touched.advance := hc.mono (by decide +kernel)
  have c_hostWrite' : Closed I Touched.hostWrite := hc.mono (by decide +kernel)
  have c_axCtrlFields' : Closed I Touched.axCtrlFields := hc.mono (by decide +kernel)
  have c_axDisabled' : Closed I Touched.axDisabled := hc.mono (by decide +kernel)
  have c_discard' : Closed I Touched.discard := hc.mono (by decide +kernel)
  refine ⟨_, rfl, ?_⟩
  try dsimp only
  repeat' first | (guard_target =ₐ Holds I s; exact hk) | simp only [id_eq] | with_reducible apply keeps_advance c_advance' | with_reducible apply keeps_hostWrite c_hostWrite' | with_reducible apply keeps_axCtrlFields c_axCtrlFields' | with_reducible apply keeps_axDisabled c_axDisabled' | with_reducible apply keeps_discard c_discard' | with_reducible apply Keeps.foldl (I := I) | with_reducible apply Keeps.foldl₂ (I := I) | with_reducible apply Keeps.ite (I := I) | split | intro s _ _ hk | intro s _ hk | intro s hk | with_reducible exact hk

theorem keeps_execAxEnable (hc : Closed I Touches.axEnable) {s : State} (hk : Holds I s) (t : Instant) (n : Fin 128) (value : Word) : ∃ u, execAxEnable t n value s = .next u ∧ Holds I u := by
  have c_advance' : Closed I Touched.advance := hc.mono (by decide +kernel)
  have c_hostWrite' : Closed I Touched.hostWrite := hc.mono (by decide +kernel)
  have c_axCtrlFields' : Closed I Touched.axCtrlFields := hc.mono (by decide +kernel)
  have c_discard' : Closed I Touched.discard := hc.mono (by decide +kernel)
  have c_onAxis' : Closed I Touched.onAxis := hc.mono (by decide +kernel)
  have c_driveLevel' : Closed I Touched.driveLevel := hc.mono (by decide +kernel)
  have c_runChange' : Closed I Touched.runChange := hc.mono (by decide +kernel)
  have c_wakeQuadrant' : Closed I Touched.wakeQuadrant := hc.mono (by decide +kernel)
  have c_putAxState' : Closed I Touched.putAxState := hc.mono (by decide +kernel)
  refine ⟨_, rfl, ?_⟩
  try dsimp only
  repeat' first | (guard_target =ₐ Holds I s; exact hk) | simp only [id_eq] | with_reducible apply keeps_advance c_advance' | with_reducible apply keeps_hostWrite c_hostWrite' | with_reducible apply keeps_axCtrlFields c_axCtrlFields' | with_reducible apply keeps_discard c_discard' | with_reducible apply keeps_wr | with_reducible apply keeps_onAxis c_onAxis' | with_reducible apply keeps_driveLevel c_driveLevel' | with_reducible apply keeps_runChange c_runChange' | with_reducible apply keeps_wakeQuadrant c_wakeQuadrant' | with_reducible apply keeps_putAxState c_putAxState' | with_reducible apply Keeps.foldl (I := I) | with_reducible apply Keeps.foldl₂ (I := I) | with_reducible apply Keeps.ite (I := I) | exact hc.mono (by decide +kernel) | split | intro s _ _ hk | intro s _ hk | intro s hk | with_reducible exact hk

theorem keeps_execAxGo (hc : Closed I Touches.axGo) {s : State} (hk : Holds I s) (t : Instant) (n : Fin 128) : ∃ u, execAxGo t n s = .next u ∧ Holds I u := by
  have c_advance' : Closed I Touched.advance := hc.mono (by decide +kernel)
  have c_hostWrite' : Closed I Touched.hostWrite := hc.mono (by decide +kernel)
  have c_axUpdate' : Closed I Touched.axUpdate := hc.mono (by decide +kernel)
  have c_axEvent' : Closed I Touched.axEvent := hc.mono (by decide +kernel)
  have c_onAxis' : Closed I Touched.onAxis := hc.mono (by decide +kernel)
  have c_axRecord' : Closed I Touched.axRecord := hc.mono (by decide +kernel)
  refine ⟨_, rfl, ?_⟩
  try dsimp only
  repeat' first | (guard_target =ₐ Holds I s; exact hk) | simp only [id_eq] | with_reducible apply keeps_advance c_advance' | with_reducible apply keeps_hostWrite c_hostWrite' | with_reducible apply keeps_axUpdate c_axUpdate' | with_reducible apply keeps_axEvent c_axEvent' | with_reducible apply keeps_onAxis c_onAxis' | with_reducible apply keeps_axRecord c_axRecord' | with_reducible apply Keeps.foldl (I := I) | with_reducible apply Keeps.foldl₂ (I := I) | with_reducible apply Keeps.ite (I := I) | split | intro s _ _ hk | intro s _ hk | intro s hk | with_reducible exact hk

theorem keeps_execAxHalt (hc : Closed I Touches.axHalt) {s : State} (hk : Holds I s) (t : Instant) (n : Fin 128) : ∃ u, execAxHalt t n s = .next u ∧ Holds I u := by
  have c_advance' : Closed I Touched.advance := hc.mono (by decide +kernel)
  have c_hostWrite' : Closed I Touched.hostWrite := hc.mono (by decide +kernel)
  have c_axUpdate' : Closed I Touched.axUpdate := hc.mono (by decide +kernel)
  have c_onAxis' : Closed I Touched.onAxis := hc.mono (by decide +kernel)
  refine ⟨_, rfl, ?_⟩
  try dsimp only
  repeat' first | (guard_target =ₐ Holds I s; exact hk) | simp only [id_eq] | with_reducible apply keeps_advance c_advance' | with_reducible apply keeps_hostWrite c_hostWrite' | with_reducible apply keeps_axUpdate c_axUpdate' | with_reducible apply keeps_onAxis c_onAxis' | with_reducible apply Keeps.foldl (I := I) | with_reducible apply Keeps.foldl₂ (I := I) | with_reducible apply Keeps.ite (I := I) | split | intro s _ _ hk | intro s _ hk | intro s hk | with_reducible exact hk

theorem keeps_execAxHome (hc : Closed I Touches.axHome) {s : State} (hk : Holds I s) (t : Instant) (n : Fin 128) : ∃ u, execAxHome t n s = .next u ∧ Holds I u := by
  have c_advance' : Closed I Touched.advance := hc.mono (by decide +kernel)
  have c_hostWrite' : Closed I Touched.hostWrite := hc.mono (by decide +kernel)
  have c_axUpdate' : Closed I Touched.axUpdate := hc.mono (by decide +kernel)
  have c_axCount' : Closed I Touched.axCount := hc.mono (by decide +kernel)
  have c_axHomed' : Closed I Touched.axHomed := hc.mono (by decide +kernel)
  have c_putAxState' : Closed I Touched.putAxState := hc.mono (by decide +kernel)
  have c_onAxis' : Closed I Touched.onAxis := hc.mono (by decide +kernel)
  refine ⟨_, rfl, ?_⟩
  try dsimp only
  repeat' first | (guard_target =ₐ Holds I s; exact hk) | simp only [id_eq] | with_reducible apply keeps_advance c_advance' | with_reducible apply keeps_hostWrite c_hostWrite' | with_reducible apply keeps_axUpdate c_axUpdate' | with_reducible apply keeps_wr | with_reducible apply keeps_axCount c_axCount' | with_reducible apply keeps_axHomed c_axHomed' | with_reducible apply keeps_putAxState c_putAxState' | with_reducible apply keeps_onAxis c_onAxis' | with_reducible apply Keeps.foldl (I := I) | with_reducible apply Keeps.foldl₂ (I := I) | with_reducible apply Keeps.ite (I := I) | exact hc.mono (by decide +kernel) | split | intro s _ _ hk | intro s _ hk | intro s hk | with_reducible exact hk

theorem keeps_execAxRelease (hc : Closed I Touches.axRelease) {s : State} (hk : Holds I s) (t : Instant) (n : Fin 128) (resultFirst : Bool) : ∃ u, execAxRelease t n resultFirst s = .next u ∧ Holds I u := by
  have c_advance' : Closed I Touched.advance := hc.mono (by decide +kernel)
  have c_axRelease' : Closed I Touched.axRelease := hc.mono (by decide +kernel)
  have c_axLate' : Closed I Touched.axLate := hc.mono (by decide +kernel)
  refine ⟨_, rfl, ?_⟩
  try dsimp only
  repeat' first | (guard_target =ₐ Holds I s; exact hk) | simp only [id_eq] | with_reducible apply keeps_advance c_advance' | with_reducible apply keeps_axRelease c_axRelease' | with_reducible apply keeps_axLate c_axLate' | with_reducible apply Keeps.foldl (I := I) | with_reducible apply Keeps.foldl₂ (I := I) | with_reducible apply Keeps.ite (I := I) | split | intro s _ _ hk | intro s _ hk | intro s hk | with_reducible exact hk

theorem keeps_execAxResultReady (hc : Closed I Touches.axResultReady) {s : State} (hk : Holds I s) (t : Instant) (n : Fin 128) (arith : Bool) (parity : Bool) : ∃ u, execAxResultReady t n arith parity s = .next u ∧ Holds I u := by
  have c_advance' : Closed I Touched.advance := hc.mono (by decide +kernel)
  have c_noteSlack' : Closed I Touched.noteSlack := hc.mono (by decide +kernel)
  have c_putAxis' : Closed I Touched.putAxis := hc.mono (by decide +kernel)
  refine ⟨_, rfl, ?_⟩
  try dsimp only
  repeat' first | (guard_target =ₐ Holds I s; exact hk) | simp only [id_eq] | with_reducible apply keeps_advance c_advance' | with_reducible apply keeps_noteSlack c_noteSlack' | with_reducible apply keeps_putAxis c_putAxis' | with_reducible apply Keeps.foldl (I := I) | with_reducible apply Keeps.foldl₂ (I := I) | with_reducible apply Keeps.ite (I := I) | split | intro s _ _ hk | intro s _ hk | intro s hk | with_reducible exact hk

theorem keeps_execAxStall (hc : Closed I Touches.axStall) {s : State} (hk : Holds I s) (t : Instant) (n : Fin 128) : ∃ u, execAxStall t n s = .next u ∧ Holds I u := by
  have c_advance' : Closed I Touched.advance := hc.mono (by decide +kernel)
  have c_axFault' : Closed I Touched.axFault := hc.mono (by decide +kernel)
  have c_axUpdate' : Closed I Touched.axUpdate := hc.mono (by decide +kernel)
  refine ⟨_, rfl, ?_⟩
  try dsimp only
  repeat' first | (guard_target =ₐ Holds I s; exact hk) | simp only [id_eq] | with_reducible apply keeps_advance c_advance' | with_reducible apply keeps_axFault c_axFault' | with_reducible apply keeps_axUpdate c_axUpdate' | with_reducible apply Keeps.foldl (I := I) | with_reducible apply Keeps.foldl₂ (I := I) | with_reducible apply Keeps.ite (I := I) | split | intro s _ _ hk | intro s _ hk | intro s hk | with_reducible exact hk

theorem keeps_execAxStrobe (hc : Closed I Touches.axStrobe) {s : State} (hk : Holds I s) (t : Instant) (n : Fin 128) (runAhead : Bool) : ∃ u, execAxStrobe t n runAhead s = .next u ∧ Holds I u := by
  have c_advance' : Closed I Touched.advance := hc.mono (by decide +kernel)
  have c_axUpdate' : Closed I Touched.axUpdate := hc.mono (by decide +kernel)
  have c_serveAsks' : Closed I Touched.serveAsks := hc.mono (by decide +kernel)
  have c_onAxis' : Closed I Touched.onAxis := hc.mono (by decide +kernel)
  have c_runAheadFault' : Closed I Touched.runAheadFault := hc.mono (by decide +kernel)
  have c_axEvaluate' : Closed I Touched.axEvaluate := hc.mono (by decide +kernel)
  have c_virtualLimit' : Closed I Touched.virtualLimit := hc.mono (by decide +kernel)
  have c_endHoming' : Closed I Touched.endHoming := hc.mono (by decide +kernel)
  have c_homingStep' : Closed I Touched.homingStep := hc.mono (by decide +kernel)
  refine ⟨_, rfl, ?_⟩
  try dsimp only
  repeat' first | (guard_target =ₐ Holds I s; exact hk) | simp only [id_eq] | with_reducible apply keeps_advance c_advance' | with_reducible apply keeps_axUpdate c_axUpdate' | with_reducible apply keeps_serveAsks c_serveAsks' | with_reducible apply keeps_onAxis c_onAxis' | with_reducible apply keeps_when | with_reducible apply keeps_runAheadFault c_runAheadFault' | with_reducible apply keeps_axEvaluate c_axEvaluate' | with_reducible apply keeps_virtualLimit c_virtualLimit' | with_reducible apply keeps_endHoming c_endHoming' | with_reducible apply keeps_homingStep c_homingStep' | with_reducible apply Keeps.foldl (I := I) | with_reducible apply Keeps.foldl₂ (I := I) | with_reducible apply Keeps.ite (I := I) | split | intro s _ _ hk | intro s _ hk | intro s hk | with_reducible exact hk

theorem keeps_execAxgArm (hc : Closed I Touches.axgArm) {s : State} (hk : Holds I s) (t : Instant) (g : Fin 4) (value : Word) : ∃ u, execAxgArm t g value s = .next u ∧ Holds I u := by
  have c_groups : Closed I { parts := [.groups] } := hc.mono (by decide +kernel)
  have c_advance' : Closed I Touched.advance := hc.mono (by decide +kernel)
  have c_hostWrite' : Closed I Touched.hostWrite := hc.mono (by decide +kernel)
  have c_axUpdate' : Closed I Touched.axUpdate := hc.mono (by decide +kernel)
  refine ⟨_, rfl, ?_⟩
  try dsimp only
  repeat' first | (guard_target =ₐ Holds I s; exact hk) | simp only [ic_mk, id_eq] | with_reducible refine ic_groups c_groups (ic_fold ?_) | with_reducible apply keeps_advance c_advance' | with_reducible apply keeps_hostWrite c_hostWrite' | with_reducible apply keeps_wr | with_reducible apply keeps_each | with_reducible apply keeps_axUpdate c_axUpdate' | with_reducible apply Keeps.foldl (I := I) | with_reducible apply Keeps.foldl₂ (I := I) | with_reducible apply Keeps.ite (I := I) | exact hc.mono (by decide +kernel) | split | intro s _ _ hk | intro s _ hk | intro s hk | with_reducible exact hk

theorem keeps_execAxgCancel (hc : Closed I Touches.axgCancel) {s : State} (hk : Holds I s) (t : Instant) (g : Fin 4) (value : Word) : ∃ u, execAxgCancel t g value s = .next u ∧ Holds I u := by
  have c_groups : Closed I { parts := [.groups] } := hc.mono (by decide +kernel)
  have c_advance' : Closed I Touched.advance := hc.mono (by decide +kernel)
  have c_hostWrite' : Closed I Touched.hostWrite := hc.mono (by decide +kernel)
  refine ⟨_, rfl, ?_⟩
  try dsimp only
  repeat' first | (guard_target =ₐ Holds I s; exact hk) | simp only [ic_mk, id_eq] | with_reducible refine ic_groups c_groups (ic_fold ?_) | with_reducible apply keeps_advance c_advance' | with_reducible apply keeps_hostWrite c_hostWrite' | with_reducible apply keeps_wr | with_reducible apply Keeps.foldl (I := I) | with_reducible apply Keeps.foldl₂ (I := I) | with_reducible apply Keeps.ite (I := I) | exact hc.mono (by decide +kernel) | split | intro s _ _ hk | intro s _ hk | intro s hk | with_reducible exact hk

theorem keeps_execBurstQualified (hc : Closed I Touches.burstQualified) {s : State} (hk : Holds I s) (t : Instant) (n : Fin 128) : ∃ u, execBurstQualified t n s = .next u ∧ Holds I u := by
  have c_axUpdate' : Closed I Touched.axUpdate := hc.mono (by decide +kernel)
  have c_advance' : Closed I Touched.advance := hc.mono (by decide +kernel)
  have c_onAxis' : Closed I Touched.onAxis := hc.mono (by decide +kernel)
  have c_homeSeen' : Closed I Touched.homeSeen := hc.mono (by decide +kernel)
  refine ⟨_, rfl, ?_⟩
  try dsimp only
  repeat' first | (guard_target =ₐ Holds I s; exact hk) | simp only [id_eq] | with_reducible apply keeps_axUpdate c_axUpdate' | with_reducible apply keeps_advance c_advance' | with_reducible apply keeps_onAxis c_onAxis' | with_reducible apply keeps_wr | with_reducible apply keeps_homeSeen c_homeSeen' | with_reducible apply Keeps.foldl (I := I) | with_reducible apply Keeps.foldl₂ (I := I) | with_reducible apply Keeps.ite (I := I) | exact hc.mono (by decide +kernel) | split | intro s _ _ hk | intro s _ hk | intro s hk | with_reducible exact hk

theorem keeps_execGroupStart (hc : Closed I Touches.groupStart) {s : State} (hk : Holds I s) (t : Instant) (g : Fin 4) : ∃ u, execGroupStart t g s = .next u ∧ Holds I u := by
  have c_groups : Closed I { parts := [.groups] } := hc.mono (by decide +kernel)
  have c_advance' : Closed I Touched.advance := hc.mono (by decide +kernel)
  have c_axStart' : Closed I Touched.axStart := hc.mono (by decide +kernel)
  refine ⟨_, rfl, ?_⟩
  try dsimp only
  repeat' first | (guard_target =ₐ Holds I s; exact hk) | simp only [ic_mk, id_eq] | with_reducible refine ic_groups c_groups (ic_fold ?_) | with_reducible apply keeps_advance c_advance' | with_reducible apply keeps_wr | with_reducible apply keeps_each | with_reducible apply keeps_axStart c_axStart' | with_reducible apply Keeps.foldl (I := I) | with_reducible apply Keeps.foldl₂ (I := I) | with_reducible apply Keeps.ite (I := I) | exact hc.mono (by decide +kernel) | split | intro s _ _ hk | intro s _ hk | intro s hk | with_reducible exact hk

theorem keeps_execHomeSwitchEdge (hc : Closed I Touches.homeSwitchEdge) {s : State} (hk : Holds I s) (t : Instant) (n : Fin 128) : ∃ u, execHomeSwitchEdge t n s = .next u ∧ Holds I u := by
  have c_axUpdate' : Closed I Touched.axUpdate := hc.mono (by decide +kernel)
  have c_advance' : Closed I Touched.advance := hc.mono (by decide +kernel)
  have c_onAxis' : Closed I Touched.onAxis := hc.mono (by decide +kernel)
  refine ⟨_, rfl, ?_⟩
  try dsimp only
  repeat' first | (guard_target =ₐ Holds I s; exact hk) | simp only [id_eq] | with_reducible apply keeps_axUpdate c_axUpdate' | with_reducible apply keeps_advance c_advance' | with_reducible apply keeps_wr | with_reducible apply keeps_onAxis c_onAxis' | with_reducible apply Keeps.foldl (I := I) | with_reducible apply Keeps.foldl₂ (I := I) | with_reducible apply Keeps.ite (I := I) | exact hc.mono (by decide +kernel) | split | intro s _ _ hk | intro s _ hk | intro s hk | with_reducible exact hk

theorem keeps_execIndexEdge (hc : Closed I Touches.indexEdge) {s : State} (hk : Holds I s) (t : Instant) (n : Fin 128) : ∃ u, execIndexEdge t n s = .next u ∧ Holds I u := by
  have c_axUpdate' : Closed I Touched.axUpdate := hc.mono (by decide +kernel)
  have c_advance' : Closed I Touched.advance := hc.mono (by decide +kernel)
  have c_homeSeen' : Closed I Touched.homeSeen := hc.mono (by decide +kernel)
  refine ⟨_, rfl, ?_⟩
  try dsimp only
  repeat' first | (guard_target =ₐ Holds I s; exact hk) | simp only [id_eq] | with_reducible apply keeps_axUpdate c_axUpdate' | with_reducible apply keeps_advance c_advance' | with_reducible apply keeps_homeSeen c_homeSeen' | with_reducible apply Keeps.foldl (I := I) | with_reducible apply Keeps.foldl₂ (I := I) | with_reducible apply Keeps.ite (I := I) | split | intro s _ _ hk | intro s _ hk | intro s hk | with_reducible exact hk

theorem keeps_execLimitEdge (hc : Closed I Touches.limitEdge) {s : State} (hk : Holds I s) (t : Instant) (n : Fin 128) (positive : Bool) : ∃ u, execLimitEdge t n positive s = .next u ∧ Holds I u := by
  have c_axUpdate' : Closed I Touched.axUpdate := hc.mono (by decide +kernel)
  have c_advance' : Closed I Touched.advance := hc.mono (by decide +kernel)
  have c_putAxis' : Closed I Touched.putAxis := hc.mono (by decide +kernel)
  refine ⟨_, rfl, ?_⟩
  try dsimp only
  repeat' first | (guard_target =ₐ Holds I s; exact hk) | simp only [id_eq] | with_reducible apply keeps_axUpdate c_axUpdate' | with_reducible apply keeps_advance c_advance' | with_reducible apply keeps_putAxis c_putAxis' | with_reducible apply keeps_wr | with_reducible apply keeps_when | with_reducible apply keeps_bump | with_reducible apply Keeps.foldl (I := I) | with_reducible apply Keeps.foldl₂ (I := I) | with_reducible apply Keeps.ite (I := I) | exact hc.mono (by decide +kernel) | split | intro s _ _ hk | intro s _ hk | intro s hk | with_reducible exact hk

theorem keeps_execLoadSegments (hc : Closed I Touches.loadSegments) {s : State} (hk : Holds I s) (t : Instant) (p : Fin 16) (img : SegImage) (room : Bool) : ∃ u, execLoadSegments t p img room s = .next u ∧ Holds I u := by
  have c_hostCommand' : Closed I Touched.hostCommand := hc.mono (by decide +kernel)
  have c_advance' : Closed I Touched.advance := hc.mono (by decide +kernel)
  have c_loading' : Closed I Touched.loading := hc.mono (by decide +kernel)
  have c_axUpdate' : Closed I Touched.axUpdate := hc.mono (by decide +kernel)
  have c_reply' : Closed I Touched.reply := hc.mono (by decide +kernel)
  have c_store' : Closed I Touched.store := hc.mono (by decide +kernel)
  have c_takeSegs' : Closed I Touched.takeSegs := hc.mono (by decide +kernel)
  refine ⟨_, rfl, ?_⟩
  try dsimp only
  repeat' first | (guard_target =ₐ Holds I s; exact hk) | simp only [id_eq] | with_reducible apply keeps_hostCommand c_hostCommand' | with_reducible apply keeps_advance c_advance' | with_reducible apply keeps_loading c_loading' | with_reducible apply keeps_axUpdate c_axUpdate' | with_reducible apply keeps_reply c_reply' | with_reducible apply keeps_wr | with_reducible apply keeps_store c_store' | with_reducible apply keeps_takeSegs c_takeSegs' | with_reducible apply Keeps.foldl (I := I) | with_reducible apply Keeps.foldl₂ (I := I) | with_reducible apply Keeps.ite (I := I) | exact hc.mono (by decide +kernel) | split | intro s _ _ hk | intro s _ hk | intro s hk | with_reducible exact hk

theorem keeps_execStepPulse (hc : Closed I Touches.stepPulse) {s : State} (hk : Holds I s) (t : Instant) (n : Fin 128) : ∃ u, execStepPulse t n s = .next u ∧ Holds I u := by
  have c_advance' : Closed I Touched.advance := hc.mono (by decide +kernel)
  have c_putAxis' : Closed I Touched.putAxis := hc.mono (by decide +kernel)
  have c_driveLevel' : Closed I Touched.driveLevel := hc.mono (by decide +kernel)
  refine ⟨_, rfl, ?_⟩
  try dsimp only
  repeat' first | (guard_target =ₐ Holds I s; exact hk) | simp only [id_eq] | with_reducible apply keeps_advance c_advance' | with_reducible apply keeps_putAxis c_putAxis' | with_reducible apply keeps_driveLevel c_driveLevel' | with_reducible apply Keeps.foldl (I := I) | with_reducible apply Keeps.foldl₂ (I := I) | with_reducible apply Keeps.ite (I := I) | split | intro s _ _ hk | intro s _ hk | intro s hk | with_reducible exact hk

theorem keeps_execStepPulseFall (hc : Closed I Touches.stepPulseFall) {s : State} (hk : Holds I s) (t : Instant) (n : Fin 128) : ∃ u, execStepPulseFall t n s = .next u ∧ Holds I u := by
  have c_advance' : Closed I Touched.advance := hc.mono (by decide +kernel)
  have c_putAxis' : Closed I Touched.putAxis := hc.mono (by decide +kernel)
  have c_driveLevel' : Closed I Touched.driveLevel := hc.mono (by decide +kernel)
  refine ⟨_, rfl, ?_⟩
  try dsimp only
  repeat' first | (guard_target =ₐ Holds I s; exact hk) | simp only [id_eq] | with_reducible apply keeps_advance c_advance' | with_reducible apply keeps_putAxis c_putAxis' | with_reducible apply keeps_driveLevel c_driveLevel' | with_reducible apply Keeps.foldl (I := I) | with_reducible apply Keeps.foldl₂ (I := I) | with_reducible apply Keeps.ite (I := I) | split | intro s _ _ hk | intro s _ hk | intro s hk | with_reducible exact hk

end Sys2Proof.Machine
end

