-- ==== Sys2Proof/Laws/Keeps/Sched.lean ====
section
/-! SUPPORT.  What the operations of Machine/Sched.lean touch, and that they keep every property
closed under it. -/

namespace Sys2Proof.Machine

open Sys2Proof

set_option Elab.async false
set_option linter.unusedSimpArgs false
set_option linter.unusedVariables false
set_option linter.unusedTactic false
set_option linter.unreachableTactic false

variable {I : State → Prop}

def Touched.busy : Touch :=
  { regs := [F.PS_BUSY_CNT], parts := [.sched] }

theorem keeps_busy (hc : Closed I Touched.busy) {s : State} (hk : Holds I s) (sh : Nat) (i : Nat) : Holds I (State.busy s sh i) := by
  have c_answerShuttle' : Closed I Touched.answerShuttle := hc.mono (by decide +kernel)
  unfold State.busy
  try dsimp only
  repeat' first | (guard_target =ₐ Holds I s; exact hk) | simp only [id_eq] | with_reducible apply keeps_answerShuttle c_answerShuttle' | with_reducible apply keeps_bump | with_reducible apply Keeps.foldl (I := I) | with_reducible apply Keeps.foldl₂ (I := I) | with_reducible apply Keeps.ite (I := I) | exact hc.mono (by decide +kernel) | split | intro s _ _ hk | intro s _ hk | intro s hk | with_reducible exact hk

def Touched.dispatchMismatch : Touch :=
  { regs := [F.LC_STATUS_SHADOW_VALID, F.TR_STATUS_STAGE_STATE, F.TR_STATUS_PAUSE_CAUSE, F.TR_STATUS_DEFERRED,
      F.TR_STATUS_STATE, F.TR_EVENT_SPAWN_DROP, F.TR_EVENT_ABORT_IGNORED, F.TR_EVENT_CANCELLED,
      F.TR_STEPS_STAGED_STEP, F.TR_NEXT, F.TR_DECIDE_END_IDX, F.TR_DECIDE_DECIDED, F.TR_CANCEL_CNT,
      F.PG_STATUS_HELD, F.PG_SHADOW_TARGET, F.PG_SHADOW_VMAX, F.PG_SHADOW_WIN_M2, F.PG_SHADOW_WIN_M1,
      F.SK_STATUS_BURST_FREE_KIB, F.SK_EVENT, F.SKS_SEQ, F.SKS_STATUS_RESIDENT, F.SKS_OVERWRITE, F.LOOM_EVENT,
      F.LOOM_EVT_OVF, F.LOOM_OVF_ROUTE, F.ODO_OUT, F.ODO_OUT_SAT, F.VR_VALUE, F.SCHED_STATUS_FREE_SLOTS,
      F.SCHED_STATUS_INFLIGHT, F.SCHED_EVENT, F.SCHED_DISPATCH_CNT, F.SCHED_CANCEL_CNT, F.SCHED_CANCEL_LATE_CNT,
      F.SCHED_POISON_CNT, F.SCHED_MISMATCH_CNT, F.SCHED_EVT_UNBOUND_CNT, F.SCHED_TEMPLATE_MISS_CNT, F.PS_USED,
      F.PS_HELD, F.HQ_DEPTH, F.HQ_MAXDEPTH, F.HQ_PUSH_CNT, F.HQ_BUSY_CNT, F.SH_STATUS_STATE, F.SH_STATUS_SLOT,
      F.SH_LOAD, F.LVL_RDY_DEPTH, F.LVL_WAIT_AVG, F.LVL_HIST, F.FLOW_STATE_HELD, F.FLOW_STATE_IN_SERVICE,
      F.FLOW_STATE_HELD_CAUSE, F.FLOW_STATE_PENDING, F.CP_STATUS_STOP_CAUSE, F.CP_STATUS_STATE, F.CP_EVENT,
      F.CP_STOP_T, F.PWR_STATUS_WAKE_PEND, F.PWR_STATUS_LOOM_ON, F.PWR_STATUS_PHASE, F.PWR_STATUS_TARGET,
      F.PWR_STATUS_STATE, F.PWR_WAKE_SRC, F.PWR_WAKE_MERGED, F.PWR_RES, F.PWR_ENTRIES, F.SYS_FAULT,
      F.SYS_FAULT_LAST, F.SYS_FAULT_T, F.SYS_DEVFAULT, F.MSIX_PBA],
    parts := [.warp, .skein, .cells, .fio, .treadles, .gens, .loom, .sched, .cyc, .tandem, .host, .power, .rings, .sram, .dram, .dlm, .freeCtr] }

theorem keeps_dispatchMismatch (hc : Closed I Touched.dispatchMismatch) {s : State} (hk : Holds I s) (again : Bool) : Holds I (State.dispatchMismatch s again) := by
  have c_schedEvent' : Closed I Touched.schedEvent := hc.mono (by decide +kernel)
  have c_sysFault' : Closed I Touched.sysFault := hc.mono (by decide +kernel)
  have c_stopAll' : Closed I Touched.stopAll := hc.mono (by decide +kernel)
  have c_devFault' : Closed I Touched.devFault := hc.mono (by decide +kernel)
  have c_dispatch' : Closed I Touched.dispatch := hc.mono (by decide +kernel)
  unfold State.dispatchMismatch
  try dsimp only
  repeat' first | (guard_target =ₐ Holds I s; exact hk) | simp only [id_eq] | with_reducible apply keeps_schedEvent c_schedEvent' | with_reducible apply keeps_bump | with_reducible apply keeps_sysFault c_sysFault' | with_reducible apply keeps_stopAll c_stopAll' | with_reducible apply keeps_devFault c_devFault' | with_reducible apply keeps_dispatch c_dispatch' | with_reducible apply Keeps.foldl (I := I) | with_reducible apply Keeps.foldl₂ (I := I) | with_reducible apply Keeps.ite (I := I) | exact hc.mono (by decide +kernel) | split | intro s _ _ hk | intro s _ hk | intro s hk | with_reducible exact hk

def Touched.dropWait : Touch :=
  { regs := [F.HQ_DEPTH, F.HQ_MAXDEPTH], parts := [.sched] }

theorem keeps_dropWait (hc : Closed I Touched.dropWait) {s : State} (hk : Holds I s) (i : Nat) : Holds I (State.dropWait s i) := by
  have c_onSched' : Closed I Touched.onSched := hc.mono (by decide +kernel)
  have c_putQueue' : Closed I Touched.putQueue := hc.mono (by decide +kernel)
  unfold State.dropWait
  try dsimp only
  repeat' first | (guard_target =ₐ Holds I s; exact hk) | simp only [id_eq] | with_reducible apply keeps_onSched c_onSched' | with_reducible apply keeps_putQueue c_putQueue' | with_reducible apply Keeps.foldl (I := I) | with_reducible apply Keeps.foldl₂ (I := I) | with_reducible apply Keeps.ite (I := I) | split | intro s _ _ hk | intro s _ hk | intro s hk | with_reducible exact hk

def Touched.hostPop : Touch :=
  { regs := [F.TR_EVENT_SPAWN_DROP, F.SK_STATUS_BURST_FREE_KIB, F.SK_EVENT, F.SKS_SEQ, F.SKS_STATUS_RESIDENT,
      F.SKS_OVERWRITE, F.SCHED_STATUS_FREE_SLOTS, F.SCHED_STATUS_INFLIGHT, F.SCHED_EVENT, F.SCHED_EVT_UNBOUND_CNT,
      F.SCHED_TEMPLATE_MISS_CNT, F.PS_USED, F.HQ_DEPTH, F.HQ_MAXDEPTH, F.HQ_PUSH_CNT, F.LVL_RDY_DEPTH,
      F.FLOW_STATE_PENDING],
    parts := [.skein, .treadles, .sched, .sram, .dram, .dlm, .freeCtr] }

theorem keeps_hostPop (hc : Closed I Touched.hostPop) {s : State} (hk : Holds I s) (h : Nat) (data : List Byte) (a : Nat) : Holds I (State.hostPop s h data a).1 := by
  have c_popEntry' : Closed I Touched.popEntry := hc.mono (by decide +kernel)
  induction a generalizing s h data with
  | zero =>
    unfold State.hostPop
    try dsimp only
    repeat' first | (guard_target =ₐ Holds I s; exact hk) | simp only [id_eq] | with_reducible apply keeps_popEntry c_popEntry' | with_reducible apply Keeps.foldl (I := I) | with_reducible apply Keeps.foldl₂ (I := I) | with_reducible apply Keeps.ite (I := I) | split | intro s _ _ hk | intro s _ hk | intro s hk | with_reducible exact hk
  | succ _ ih =>
    unfold State.hostPop
    try dsimp only
    repeat' first | (guard_target =ₐ Holds I s; exact hk) | simp only [id_eq] | with_reducible apply ih | with_reducible apply keeps_popEntry c_popEntry' | with_reducible apply Keeps.foldl (I := I) | with_reducible apply Keeps.foldl₂ (I := I) | with_reducible apply Keeps.ite (I := I) | split | intro s _ _ hk | intro s _ hk | intro s hk | with_reducible exact hk | cases ‹_ :: _ = _ :: _›

def Touched.hostPush : Touch :=
  { regs := [F.TR_EVENT_SPAWN_DROP, F.SK_STATUS_BURST_FREE_KIB, F.SK_EVENT, F.SKS_SEQ, F.SKS_STATUS_RESIDENT,
      F.SKS_OVERWRITE, F.LOOM_EVENT, F.LOOM_EVT_OVF, F.LOOM_OVF_ROUTE, F.SCHED_STATUS_FREE_SLOTS,
      F.SCHED_STATUS_INFLIGHT, F.SCHED_EVENT, F.SCHED_EVT_UNBOUND_CNT, F.SCHED_TEMPLATE_MISS_CNT, F.PS_USED,
      F.HQ_DEPTH, F.HQ_MAXDEPTH, F.HQ_PUSH_CNT, F.LVL_RDY_DEPTH, F.FLOW_STATE_PENDING, F.PWR_STATUS_WAKE_PEND,
      F.PWR_STATUS_PHASE, F.PWR_WAKE_SRC, F.PWR_WAKE_MERGED, F.MSIX_PBA],
    parts := [.skein, .treadles, .sched, .host, .power, .sram, .dram, .dlm, .freeCtr] }

theorem keeps_hostPush (hc : Closed I Touched.hostPush) {s : State} (hk : Holds I s) (h : Nat) (n : Nat) (a : List QEntry) : Holds I (State.hostPush s h n a).1 := by
  have c_pushEntry' : Closed I Touched.pushEntry := hc.mono (by decide +kernel)
  induction a generalizing s h n with
  | nil =>
    unfold State.hostPush
    try dsimp only
    repeat' first | (guard_target =ₐ Holds I s; exact hk) | simp only [id_eq] | with_reducible apply keeps_pushEntry c_pushEntry' | with_reducible apply Keeps.foldl (I := I) | with_reducible apply Keeps.foldl₂ (I := I) | with_reducible apply Keeps.ite (I := I) | split | intro s _ _ hk | intro s _ hk | intro s hk | with_reducible exact hk
  | cons _ _ ih =>
    unfold State.hostPush
    try dsimp only
    repeat' first | (guard_target =ₐ Holds I s; exact hk) | simp only [id_eq] | with_reducible apply ih | with_reducible apply keeps_pushEntry c_pushEntry' | with_reducible apply Keeps.foldl (I := I) | with_reducible apply Keeps.foldl₂ (I := I) | with_reducible apply Keeps.ite (I := I) | split | intro s _ _ hk | intro s _ hk | intro s hk | with_reducible exact hk | cases ‹_ :: _ = _ :: _›

def Touched.onTask : Touch :=
  {}

theorem keeps_onTask (hc : Closed I Touched.onTask) {s : State} (hk : Holds I s) (sh : Nat) (f : State → Nat → State) (hf2 : ∀ s a, Holds I s → Holds I (f s a)) : Holds I (State.onTask s sh f) := by
  unfold State.onTask
  try dsimp only
  repeat' first | (guard_target =ₐ Holds I s; exact hk) | simp only [id_eq] | with_reducible apply Keeps.foldl (I := I) | with_reducible apply Keeps.foldl₂ (I := I) | with_reducible apply Keeps.ite (I := I) | split | with_reducible apply hf2 | intro s _ _ hk | intro s _ hk | intro s hk | with_reducible exact hk

def Touched.programFault : Touch :=
  { regs := [F.TR_EVENT_SPAWN_DROP, F.SK_STATUS_BURST_FREE_KIB, F.SK_EVENT, F.SKS_SEQ, F.SKS_STATUS_RESIDENT,
      F.SKS_OVERWRITE, F.LOOM_EVENT, F.LOOM_EVT_OVF, F.LOOM_OVF_ROUTE, F.SCHED_STATUS_FREE_SLOTS,
      F.SCHED_STATUS_INFLIGHT, F.SCHED_EVENT, F.SCHED_DISPATCH_CNT, F.SCHED_POISON_CNT, F.SCHED_EVT_UNBOUND_CNT,
      F.SCHED_TEMPLATE_MISS_CNT, F.PS_USED, F.PS_HELD, F.HQ_DEPTH, F.HQ_MAXDEPTH, F.HQ_PUSH_CNT, F.HQ_BUSY_CNT,
      F.SH_STATUS_STATE, F.SH_STATUS_SLOT, F.SH_LOAD, F.LVL_RDY_DEPTH, F.LVL_WAIT_AVG, F.LVL_HIST,
      F.FLOW_STATE_HELD, F.FLOW_STATE_IN_SERVICE, F.FLOW_STATE_HELD_CAUSE, F.FLOW_STATE_PENDING,
      F.PWR_STATUS_WAKE_PEND, F.PWR_STATUS_PHASE, F.PWR_STATUS_STATE, F.PWR_WAKE_SRC, F.PWR_WAKE_MERGED, F.PWR_RES,
      F.PWR_ENTRIES, F.MSIX_PBA],
    parts := [.skein, .treadles, .sched, .host, .power, .sram, .dram, .dlm, .freeCtr] }

theorem keeps_programFault (hc : Closed I Touched.programFault) {s : State} (hk : Holds I s) (sh : Nat) (i : Nat) (cause : Nat) (detail : Nat) : Holds I (State.programFault s sh i cause detail) := by
  have c_complete' : Closed I Touched.complete := hc.mono (by decide +kernel)
  have c_leaveShuttle' : Closed I Touched.leaveShuttle := hc.mono (by decide +kernel)
  unfold State.programFault
  try dsimp only
  repeat' first | (guard_target =ₐ Holds I s; exact hk) | simp only [id_eq] | with_reducible apply keeps_complete c_complete' | with_reducible apply keeps_leaveShuttle c_leaveShuttle' | with_reducible apply Keeps.foldl (I := I) | with_reducible apply Keeps.foldl₂ (I := I) | with_reducible apply Keeps.ite (I := I) | split | intro s _ _ hk | intro s _ hk | intro s hk | with_reducible exact hk

def Touched.operand : Touch :=
  { regs := [F.TR_EVENT_SPAWN_DROP, F.SK_STATUS_BURST_FREE_KIB, F.SK_EVENT, F.SKS_SEQ, F.SKS_STATUS_RESIDENT,
      F.SKS_OVERWRITE, F.LOOM_EVENT, F.LOOM_EVT_OVF, F.LOOM_OVF_ROUTE, F.SCHED_STATUS_FREE_SLOTS,
      F.SCHED_STATUS_INFLIGHT, F.SCHED_EVENT, F.SCHED_DISPATCH_CNT, F.SCHED_POISON_CNT, F.SCHED_EVT_UNBOUND_CNT,
      F.SCHED_TEMPLATE_MISS_CNT, F.PS_USED, F.PS_HELD, F.HQ_DEPTH, F.HQ_MAXDEPTH, F.HQ_PUSH_CNT, F.HQ_BUSY_CNT,
      F.SH_STATUS_STATE, F.SH_STATUS_SLOT, F.SH_LOAD, F.LVL_RDY_DEPTH, F.LVL_WAIT_AVG, F.LVL_HIST,
      F.FLOW_STATE_HELD, F.FLOW_STATE_IN_SERVICE, F.FLOW_STATE_HELD_CAUSE, F.FLOW_STATE_PENDING,
      F.PWR_STATUS_WAKE_PEND, F.PWR_STATUS_PHASE, F.PWR_STATUS_STATE, F.PWR_WAKE_SRC, F.PWR_WAKE_MERGED, F.PWR_RES,
      F.PWR_ENTRIES, F.MSIX_PBA],
    parts := [.skein, .treadles, .sched, .host, .power, .sram, .dram, .dlm, .freeCtr] }

theorem keeps_operand (hc : Closed I Touched.operand) {s : State} (hk : Holds I s) (sh : Nat) (i : Nat) (a : Nat) (n : Nat) (attr : Nat) (f : State → State) (hf6 : ∀ s, Holds I s → Holds I (f s)) : Holds I (State.operand s sh i a n attr f) := by
  have c_programFault' : Closed I Touched.programFault := hc.mono (by decide +kernel)
  unfold State.operand
  try dsimp only
  repeat' first | (guard_target =ₐ Holds I s; exact hk) | simp only [id_eq] | with_reducible apply keeps_programFault c_programFault' | with_reducible apply Keeps.foldl (I := I) | with_reducible apply Keeps.foldl₂ (I := I) | with_reducible apply Keeps.ite (I := I) | split | with_reducible apply hf6 | intro s _ _ hk | intro s _ hk | intro s hk | with_reducible exact hk

def Touched.park : Touch :=
  { regs := [F.SH_STATUS_STATE, F.SH_STATUS_SLOT, F.SH_LOAD], parts := [.sched] }

theorem keeps_park (hc : Closed I Touched.park) {s : State} (hk : Holds I s) (sh : Nat) (i : Nat) (w : WaitFor) (qtmo : Nat) : Holds I (State.park s sh i w qtmo) := by
  have c_putShuttle' : Closed I Touched.putShuttle := hc.mono (by decide +kernel)
  have c_leaveShuttle' : Closed I Touched.leaveShuttle := hc.mono (by decide +kernel)
  have c_putTask' : Closed I Touched.putTask := hc.mono (by decide +kernel)
  unfold State.park
  try dsimp only
  repeat' first | (guard_target =ₐ Holds I s; exact hk) | simp only [id_eq] | with_reducible apply keeps_putShuttle c_putShuttle' | with_reducible apply keeps_leaveShuttle c_leaveShuttle' | with_reducible apply keeps_putTask c_putTask' | with_reducible apply Keeps.foldl (I := I) | with_reducible apply Keeps.foldl₂ (I := I) | with_reducible apply Keeps.ite (I := I) | split | intro s _ _ hk | intro s _ hk | intro s hk | with_reducible exact hk

def Touched.shuttleOff : Touch :=
  { regs := [F.SK_STATUS_BURST_FREE_KIB, F.SK_EVENT, F.SKS_SEQ, F.SKS_STATUS_RESIDENT, F.SKS_OVERWRITE, F.SCHED_EVENT,
      F.SH_STATUS_STATE, F.SH_STATUS_SLOT, F.SH_LOAD],
    parts := [.skein, .sched] }

theorem keeps_shuttleOff (hc : Closed I Touched.shuttleOff) {s : State} (hk : Holds I s) (sh : Nat) : Holds I (State.shuttleOff s sh) := by
  have c_putShState' : Closed I Touched.putShState := hc.mono (by decide +kernel)
  have c_event' : Closed I Touched.event := hc.mono (by decide +kernel)
  unfold State.shuttleOff
  try dsimp only
  repeat' first | (guard_target =ₐ Holds I s; exact hk) | simp only [id_eq] | with_reducible apply keeps_setBit | with_reducible apply keeps_putShState c_putShState' | with_reducible apply keeps_event c_event' | with_reducible apply Keeps.foldl (I := I) | with_reducible apply Keeps.foldl₂ (I := I) | with_reducible apply Keeps.ite (I := I) | exact hc.mono (by decide +kernel) | split | intro s _ _ hk | intro s _ hk | intro s hk | with_reducible exact hk

def Touched.shuttleFault : Touch :=
  { regs := [F.SK_STATUS_BURST_FREE_KIB, F.SK_EVENT, F.SKS_SEQ, F.SKS_STATUS_RESIDENT, F.SKS_OVERWRITE, F.SCHED_EVENT,
      F.SH_STATUS_STATE, F.SH_STATUS_SLOT, F.SH_LOAD, F.SH_FAULTS_LAST_CAUSE, F.SH_FAULTS_COUNT, F.SYS_FAULT,
      F.SYS_FAULT_LAST, F.SYS_FAULT_T, F.MSIX_PBA],
    parts := [.skein, .sched, .host] }

theorem keeps_shuttleFault (hc : Closed I Touched.shuttleFault) {s : State} (hk : Holds I s) (sh : Nat) (cause : Nat) : Holds I (State.shuttleFault s sh cause) := by
  have c_sysFault' : Closed I Touched.sysFault := hc.mono (by decide +kernel)
  have c_putShuttle' : Closed I Touched.putShuttle := hc.mono (by decide +kernel)
  have c_shuttleOff' : Closed I Touched.shuttleOff := hc.mono (by decide +kernel)
  have c_putShState' : Closed I Touched.putShState := hc.mono (by decide +kernel)
  unfold State.shuttleFault
  try dsimp only
  repeat' first | (guard_target =ₐ Holds I s; exact hk) | simp only [id_eq] | with_reducible apply keeps_sysFault c_sysFault' | with_reducible apply keeps_wr | with_reducible apply keeps_bump | with_reducible apply keeps_putShuttle c_putShuttle' | with_reducible apply keeps_shuttleOff c_shuttleOff' | with_reducible apply keeps_putShState c_putShState' | with_reducible apply Keeps.foldl (I := I) | with_reducible apply Keeps.foldl₂ (I := I) | with_reducible apply Keeps.ite (I := I) | exact hc.mono (by decide +kernel) | split | intro s _ _ hk | intro s _ hk | intro s hk | with_reducible exact hk

theorem keeps_execCancelTask (hc : Closed I Touches.cancelTask) {s : State} (hk : Holds I s) (t : Instant) (p : Fin 16) (handle : Word) : ∃ u, execCancelTask t p handle s = .next u ∧ Holds I u := by
  have c_hostCommand' : Closed I Touched.hostCommand := hc.mono (by decide +kernel)
  have c_advance' : Closed I Touched.advance := hc.mono (by decide +kernel)
  have c_cancelHandle' : Closed I Touched.cancelHandle := hc.mono (by decide +kernel)
  have c_reply' : Closed I Touched.reply := hc.mono (by decide +kernel)
  refine ⟨_, rfl, ?_⟩
  try dsimp only
  repeat' first | (guard_target =ₐ Holds I s; exact hk) | simp only [id_eq] | with_reducible apply keeps_hostCommand c_hostCommand' | with_reducible apply keeps_advance c_advance' | with_reducible apply keeps_cancelHandle c_cancelHandle' | with_reducible apply keeps_reply c_reply' | with_reducible apply Keeps.foldl (I := I) | with_reducible apply Keeps.foldl₂ (I := I) | with_reducible apply Keeps.ite (I := I) | split | intro s _ _ hk | intro s _ hk | intro s hk | with_reducible exact hk

theorem keeps_execHqPop (hc : Closed I Touches.hqPop) {s : State} (hk : Holds I s) (t : Instant) (p : Fin 16) (h : Fin 128) (max : Word) : ∃ u, execHqPop t p h max s = .next u ∧ Holds I u := by
  have c_hostCommand' : Closed I Touched.hostCommand := hc.mono (by decide +kernel)
  have c_advance' : Closed I Touched.advance := hc.mono (by decide +kernel)
  have c_reply' : Closed I Touched.reply := hc.mono (by decide +kernel)
  have c_hostPop' : Closed I Touched.hostPop := hc.mono (by decide +kernel)
  have c_dispatch' : Closed I Touched.dispatch := hc.mono (by decide +kernel)
  refine ⟨_, rfl, ?_⟩
  try dsimp only
  repeat' first | (guard_target =ₐ Holds I s; exact hk) | simp only [id_eq] | with_reducible apply keeps_hostCommand c_hostCommand' | with_reducible apply keeps_advance c_advance' | with_reducible apply keeps_reply c_reply' | with_reducible apply keeps_hostPop c_hostPop' | with_reducible apply keeps_dispatch c_dispatch' | with_reducible apply Keeps.foldl (I := I) | with_reducible apply Keeps.foldl₂ (I := I) | with_reducible apply Keeps.ite (I := I) | split | intro s _ _ hk | intro s _ hk | intro s hk | with_reducible exact hk

theorem keeps_execHqPush (hc : Closed I Touches.hqPush) {s : State} (hk : Holds I s) (t : Instant) (p : Fin 16) (h : Fin 128) (es : List QEntry) : ∃ u, execHqPush t p h es s = .next u ∧ Holds I u := by
  have c_hostCommand' : Closed I Touched.hostCommand := hc.mono (by decide +kernel)
  have c_advance' : Closed I Touched.advance := hc.mono (by decide +kernel)
  have c_reply' : Closed I Touched.reply := hc.mono (by decide +kernel)
  have c_hostPush' : Closed I Touched.hostPush := hc.mono (by decide +kernel)
  have c_dispatch' : Closed I Touched.dispatch := hc.mono (by decide +kernel)
  refine ⟨_, rfl, ?_⟩
  try dsimp only
  repeat' first | (guard_target =ₐ Holds I s; exact hk) | simp only [id_eq] | with_reducible apply keeps_hostCommand c_hostCommand' | with_reducible apply keeps_advance c_advance' | with_reducible apply keeps_reply c_reply' | with_reducible apply keeps_hostPush c_hostPush' | with_reducible apply keeps_dispatch c_dispatch' | with_reducible apply Keeps.foldl (I := I) | with_reducible apply Keeps.foldl₂ (I := I) | with_reducible apply Keeps.ite (I := I) | split | intro s _ _ hk | intro s _ hk | intro s hk | with_reducible exact hk

theorem keeps_execQcan (hc : Closed I Touches.qcan) {s : State} (hk : Holds I s) (t : Instant) (sh : Fin 48) (handle : Word) : ∃ u, execQcan t sh handle s = .next u ∧ Holds I u := by
  have c_advance' : Closed I Touched.advance := hc.mono (by decide +kernel)
  have c_onTask' : Closed I Touched.onTask := hc.mono (by decide +kernel)
  have c_cancelHandle' : Closed I Touched.cancelHandle := hc.mono (by decide +kernel)
  have c_answerShuttle' : Closed I Touched.answerShuttle := hc.mono (by decide +kernel)
  refine ⟨_, rfl, ?_⟩
  try dsimp only
  repeat' first | (guard_target =ₐ Holds I s; exact hk) | simp only [id_eq] | with_reducible apply keeps_advance c_advance' | with_reducible apply keeps_onTask c_onTask' | with_reducible apply keeps_cancelHandle c_cancelHandle' | with_reducible apply keeps_answerShuttle c_answerShuttle' | with_reducible apply Keeps.foldl (I := I) | with_reducible apply Keeps.foldl₂ (I := I) | with_reducible apply Keeps.ite (I := I) | split | intro s _ _ hk | intro s _ hk | intro s hk | with_reducible exact hk

theorem keeps_execQdone (hc : Closed I Touches.qdone) {s : State} (hk : Holds I s) (t : Instant) (sh : Fin 48) (code : Word) : ∃ u, execQdone t sh code s = .next u ∧ Holds I u := by
  have c_advance' : Closed I Touched.advance := hc.mono (by decide +kernel)
  have c_onTask' : Closed I Touched.onTask := hc.mono (by decide +kernel)
  have c_complete' : Closed I Touched.complete := hc.mono (by decide +kernel)
  have c_leaveShuttle' : Closed I Touched.leaveShuttle := hc.mono (by decide +kernel)
  refine ⟨_, rfl, ?_⟩
  try dsimp only
  repeat' first | (guard_target =ₐ Holds I s; exact hk) | simp only [id_eq] | with_reducible apply keeps_advance c_advance' | with_reducible apply keeps_onTask c_onTask' | with_reducible apply keeps_complete c_complete' | with_reducible apply keeps_leaveShuttle c_leaveShuttle' | with_reducible apply Keeps.foldl (I := I) | with_reducible apply Keeps.foldl₂ (I := I) | with_reducible apply Keeps.ite (I := I) | split | intro s _ _ hk | intro s _ hk | intro s hk | with_reducible exact hk

theorem keeps_execQpop (hc : Closed I Touches.qpop) {s : State} (hk : Holds I s) (t : Instant) (sh : Fin 48) (h : Fin 128) (addr : Word) (nowait : Bool) (qtmo : Word) : ∃ u, execQpop t sh h addr nowait qtmo s = .next u ∧ Holds I u := by
  have c_advance' : Closed I Touched.advance := hc.mono (by decide +kernel)
  have c_onTask' : Closed I Touched.onTask := hc.mono (by decide +kernel)
  have c_operand' : Closed I Touched.operand := hc.mono (by decide +kernel)
  have c_answerShuttle' : Closed I Touched.answerShuttle := hc.mono (by decide +kernel)
  have c_dispatch' : Closed I Touched.dispatch := hc.mono (by decide +kernel)
  have c_popEntry' : Closed I Touched.popEntry := hc.mono (by decide +kernel)
  have c_fillBuffer' : Closed I Touched.fillBuffer := hc.mono (by decide +kernel)
  have c_busy' : Closed I Touched.busy := hc.mono (by decide +kernel)
  have c_park' : Closed I Touched.park := hc.mono (by decide +kernel)
  have c_putQueue' : Closed I Touched.putQueue := hc.mono (by decide +kernel)
  refine ⟨_, rfl, ?_⟩
  try dsimp only
  repeat' first | (guard_target =ₐ Holds I s; exact hk) | simp only [id_eq] | with_reducible apply keeps_advance c_advance' | with_reducible apply keeps_onTask c_onTask' | with_reducible apply keeps_operand c_operand' | with_reducible apply keeps_answerShuttle c_answerShuttle' | with_reducible apply keeps_dispatch c_dispatch' | with_reducible apply keeps_popEntry c_popEntry' | with_reducible apply keeps_fillBuffer c_fillBuffer' | with_reducible apply keeps_busy c_busy' | with_reducible apply keeps_bump | with_reducible apply keeps_park c_park' | with_reducible apply keeps_putQueue c_putQueue' | with_reducible apply Keeps.foldl (I := I) | with_reducible apply Keeps.foldl₂ (I := I) | with_reducible apply Keeps.ite (I := I) | exact hc.mono (by decide +kernel) | split | intro s _ _ hk | intro s _ hk | intro s hk | with_reducible exact hk

theorem keeps_execQpush (hc : Closed I Touches.qpush) {s : State} (hk : Holds I s) (t : Instant) (sh : Fin 48) (h : Fin 128) (addr : Word) (e : QEntry) (nowait : Bool) (qtmo : Word) : ∃ u, execQpush t sh h addr e nowait qtmo s = .next u ∧ Holds I u := by
  have c_advance' : Closed I Touched.advance := hc.mono (by decide +kernel)
  have c_onTask' : Closed I Touched.onTask := hc.mono (by decide +kernel)
  have c_operand' : Closed I Touched.operand := hc.mono (by decide +kernel)
  have c_answerShuttle' : Closed I Touched.answerShuttle := hc.mono (by decide +kernel)
  have c_dispatch' : Closed I Touched.dispatch := hc.mono (by decide +kernel)
  have c_pushEntry' : Closed I Touched.pushEntry := hc.mono (by decide +kernel)
  have c_busy' : Closed I Touched.busy := hc.mono (by decide +kernel)
  have c_park' : Closed I Touched.park := hc.mono (by decide +kernel)
  have c_putQueue' : Closed I Touched.putQueue := hc.mono (by decide +kernel)
  refine ⟨_, rfl, ?_⟩
  try dsimp only
  repeat' first | (guard_target =ₐ Holds I s; exact hk) | simp only [id_eq] | with_reducible apply keeps_advance c_advance' | with_reducible apply keeps_onTask c_onTask' | with_reducible apply keeps_operand c_operand' | with_reducible apply keeps_answerShuttle c_answerShuttle' | with_reducible apply keeps_dispatch c_dispatch' | with_reducible apply keeps_pushEntry c_pushEntry' | with_reducible apply keeps_busy c_busy' | with_reducible apply keeps_bump | with_reducible apply keeps_park c_park' | with_reducible apply keeps_putQueue c_putQueue' | with_reducible apply Keeps.foldl (I := I) | with_reducible apply Keeps.foldl₂ (I := I) | with_reducible apply Keeps.ite (I := I) | exact hc.mono (by decide +kernel) | split | intro s _ _ hk | intro s _ hk | intro s hk | with_reducible exact hk

theorem keeps_execQrel (hc : Closed I Touches.qrel) {s : State} (hk : Holds I s) (t : Instant) (sh : Fin 48) (flow : Fin 64) (drop : Bool) : ∃ u, execQrel t sh flow drop s = .next u ∧ Holds I u := by
  have c_advance' : Closed I Touched.advance := hc.mono (by decide +kernel)
  have c_onTask' : Closed I Touched.onTask := hc.mono (by decide +kernel)
  have c_answerShuttle' : Closed I Touched.answerShuttle := hc.mono (by decide +kernel)
  have c_releaseFlow' : Closed I Touched.releaseFlow := hc.mono (by decide +kernel)
  refine ⟨_, rfl, ?_⟩
  try dsimp only
  repeat' first | (guard_target =ₐ Holds I s; exact hk) | simp only [id_eq] | with_reducible apply keeps_advance c_advance' | with_reducible apply keeps_onTask c_onTask' | with_reducible apply keeps_answerShuttle c_answerShuttle' | with_reducible apply keeps_releaseFlow c_releaseFlow' | with_reducible apply Keeps.foldl (I := I) | with_reducible apply Keeps.foldl₂ (I := I) | with_reducible apply Keeps.ite (I := I) | split | intro s _ _ hk | intro s _ hk | intro s hk | with_reducible exact hk

theorem keeps_execQstat (hc : Closed I Touches.qstat) {s : State} (hk : Holds I s) (t : Instant) (sh : Fin 48) (sel : Word) : ∃ u, execQstat t sh sel s = .next u ∧ Holds I u := by
  have c_advance' : Closed I Touched.advance := hc.mono (by decide +kernel)
  have c_onTask' : Closed I Touched.onTask := hc.mono (by decide +kernel)
  have c_answerShuttle' : Closed I Touched.answerShuttle := hc.mono (by decide +kernel)
  refine ⟨_, rfl, ?_⟩
  try dsimp only
  repeat' first | (guard_target =ₐ Holds I s; exact hk) | simp only [id_eq] | with_reducible apply keeps_advance c_advance' | with_reducible apply keeps_onTask c_onTask' | with_reducible apply keeps_answerShuttle c_answerShuttle' | with_reducible apply Keeps.foldl (I := I) | with_reducible apply Keeps.foldl₂ (I := I) | with_reducible apply Keeps.ite (I := I) | split | intro s _ _ hk | intro s _ hk | intro s hk | with_reducible exact hk

theorem keeps_execQsub (hc : Closed I Touches.qsub) {s : State} (hk : Holds I s) (t : Instant) (sh : Fin 48) (addr : Word) (desc : BitVec 512) (nowait : Bool) (qtmo : Word) : ∃ u, execQsub t sh addr desc nowait qtmo s = .next u ∧ Holds I u := by
  have c_advance' : Closed I Touched.advance := hc.mono (by decide +kernel)
  have c_onTask' : Closed I Touched.onTask := hc.mono (by decide +kernel)
  have c_operand' : Closed I Touched.operand := hc.mono (by decide +kernel)
  have c_answerShuttle' : Closed I Touched.answerShuttle := hc.mono (by decide +kernel)
  have c_createTask' : Closed I Touched.createTask := hc.mono (by decide +kernel)
  have c_dispatch' : Closed I Touched.dispatch := hc.mono (by decide +kernel)
  have c_busy' : Closed I Touched.busy := hc.mono (by decide +kernel)
  have c_addClaim' : Closed I Touched.addClaim := hc.mono (by decide +kernel)
  have c_park' : Closed I Touched.park := hc.mono (by decide +kernel)
  refine ⟨_, rfl, ?_⟩
  try dsimp only
  repeat' first | (guard_target =ₐ Holds I s; exact hk) | simp only [id_eq] | with_reducible apply keeps_advance c_advance' | with_reducible apply keeps_onTask c_onTask' | with_reducible apply keeps_operand c_operand' | with_reducible apply keeps_answerShuttle c_answerShuttle' | with_reducible apply keeps_createTask c_createTask' | with_reducible apply keeps_dispatch c_dispatch' | with_reducible apply keeps_busy c_busy' | with_reducible apply keeps_addClaim c_addClaim' | with_reducible apply keeps_park c_park' | with_reducible apply Keeps.foldl (I := I) | with_reducible apply Keeps.foldl₂ (I := I) | with_reducible apply Keeps.ite (I := I) | split | intro s _ _ hk | intro s _ hk | intro s hk | with_reducible exact hk

theorem keeps_execQyield (hc : Closed I Touches.qyield) {s : State} (hk : Holds I s) (t : Instant) (sh : Fin 48) : ∃ u, execQyield t sh s = .next u ∧ Holds I u := by
  have c_advance' : Closed I Touched.advance := hc.mono (by decide +kernel)
  have c_onTask' : Closed I Touched.onTask := hc.mono (by decide +kernel)
  have c_dispatch' : Closed I Touched.dispatch := hc.mono (by decide +kernel)
  have c_makeResume' : Closed I Touched.makeResume := hc.mono (by decide +kernel)
  have c_leaveShuttle' : Closed I Touched.leaveShuttle := hc.mono (by decide +kernel)
  refine ⟨_, rfl, ?_⟩
  try dsimp only
  repeat' first | (guard_target =ₐ Holds I s; exact hk) | simp only [id_eq] | with_reducible apply keeps_advance c_advance' | with_reducible apply keeps_onTask c_onTask' | with_reducible apply keeps_dispatch c_dispatch' | with_reducible apply keeps_makeResume c_makeResume' | with_reducible apply keeps_leaveShuttle c_leaveShuttle' | with_reducible apply Keeps.foldl (I := I) | with_reducible apply Keeps.foldl₂ (I := I) | with_reducible apply Keeps.ite (I := I) | split | intro s _ _ hk | intro s _ hk | intro s hk | with_reducible exact hk

theorem keeps_execRelease (hc : Closed I Touches.release) {s : State} (hk : Holds I s) (t : Instant) (f : Fin 1024) (drop : Bool) : ∃ u, execRelease t f drop s = .next u ∧ Holds I u := by
  have c_advance' : Closed I Touched.advance := hc.mono (by decide +kernel)
  have c_hostWrite' : Closed I Touched.hostWrite := hc.mono (by decide +kernel)
  have c_releaseFlow' : Closed I Touched.releaseFlow := hc.mono (by decide +kernel)
  have c_schedEvent' : Closed I Touched.schedEvent := hc.mono (by decide +kernel)
  refine ⟨_, rfl, ?_⟩
  try dsimp only
  repeat' first | (guard_target =ₐ Holds I s; exact hk) | simp only [id_eq] | with_reducible apply keeps_advance c_advance' | with_reducible apply keeps_hostWrite c_hostWrite' | with_reducible apply keeps_releaseFlow c_releaseFlow' | with_reducible apply keeps_schedEvent c_schedEvent' | with_reducible apply Keeps.foldl (I := I) | with_reducible apply Keeps.foldl₂ (I := I) | with_reducible apply Keeps.ite (I := I) | split | intro s _ _ hk | intro s _ hk | intro s hk | with_reducible exact hk

theorem keeps_execRestore (hc : Closed I Touches.restore) {s : State} (hk : Holds I s) (t : Instant) (sh : Fin 48) : ∃ u, execRestore t sh s = .next u ∧ Holds I u := by
  have c_advance' : Closed I Touched.advance := hc.mono (by decide +kernel)
  have c_hostWrite' : Closed I Touched.hostWrite := hc.mono (by decide +kernel)
  have c_putShState' : Closed I Touched.putShState := hc.mono (by decide +kernel)
  refine ⟨_, rfl, ?_⟩
  try dsimp only
  repeat' first | (guard_target =ₐ Holds I s; exact hk) | simp only [id_eq] | with_reducible apply keeps_advance c_advance' | with_reducible apply keeps_hostWrite c_hostWrite' | with_reducible apply keeps_putShState c_putShState' | with_reducible apply Keeps.foldl (I := I) | with_reducible apply Keeps.foldl₂ (I := I) | with_reducible apply Keeps.ite (I := I) | split | intro s _ _ hk | intro s _ hk | intro s hk | with_reducible exact hk

theorem keeps_execRuntimeExpiry (hc : Closed I Touches.runtimeExpiry) {s : State} (hk : Holds I s) (t : Instant) (sh : Fin 48) : ∃ u, execRuntimeExpiry t sh s = .next u ∧ Holds I u := by
  have c_advance' : Closed I Touched.advance := hc.mono (by decide +kernel)
  have c_onTask' : Closed I Touched.onTask := hc.mono (by decide +kernel)
  have c_programFault' : Closed I Touched.programFault := hc.mono (by decide +kernel)
  refine ⟨_, rfl, ?_⟩
  try dsimp only
  repeat' first | (guard_target =ₐ Holds I s; exact hk) | simp only [id_eq] | with_reducible apply keeps_advance c_advance' | with_reducible apply keeps_onTask c_onTask' | with_reducible apply keeps_programFault c_programFault' | with_reducible apply Keeps.foldl (I := I) | with_reducible apply Keeps.foldl₂ (I := I) | with_reducible apply Keeps.ite (I := I) | split | intro s _ _ hk | intro s _ hk | intro s hk | with_reducible exact hk

theorem keeps_execSelfCheckDone (hc : Closed I Touches.selfCheckDone) {s : State} (hk : Holds I s) (t : Instant) (sh : Fin 48) (pass : Bool) : ∃ u, execSelfCheckDone t sh pass s = .next u ∧ Holds I u := by
  have c_advance' : Closed I Touched.advance := hc.mono (by decide +kernel)
  have c_dispatch' : Closed I Touched.dispatch := hc.mono (by decide +kernel)
  have c_putShState' : Closed I Touched.putShState := hc.mono (by decide +kernel)
  have c_shuttleOff' : Closed I Touched.shuttleOff := hc.mono (by decide +kernel)
  refine ⟨_, rfl, ?_⟩
  try dsimp only
  repeat' first | (guard_target =ₐ Holds I s; exact hk) | simp only [id_eq] | with_reducible apply keeps_advance c_advance' | with_reducible apply keeps_dispatch c_dispatch' | with_reducible apply keeps_putShState c_putShState' | with_reducible apply keeps_shuttleOff c_shuttleOff' | with_reducible apply Keeps.foldl (I := I) | with_reducible apply Keeps.foldl₂ (I := I) | with_reducible apply Keeps.ite (I := I) | split | intro s _ _ hk | intro s _ hk | intro s hk | with_reducible exact hk

theorem keeps_execSubmitTask (hc : Closed I Touches.submitTask) {s : State} (hk : Holds I s) (t : Instant) (p : Fin 16) (desc : BitVec 512) : ∃ u, execSubmitTask t p desc s = .next u ∧ Holds I u := by
  have c_hostCommand' : Closed I Touched.hostCommand := hc.mono (by decide +kernel)
  have c_advance' : Closed I Touched.advance := hc.mono (by decide +kernel)
  have c_reply' : Closed I Touched.reply := hc.mono (by decide +kernel)
  have c_createTask' : Closed I Touched.createTask := hc.mono (by decide +kernel)
  have c_dispatch' : Closed I Touched.dispatch := hc.mono (by decide +kernel)
  refine ⟨_, rfl, ?_⟩
  try dsimp only
  repeat' first | (guard_target =ₐ Holds I s; exact hk) | simp only [id_eq] | with_reducible apply keeps_hostCommand c_hostCommand' | with_reducible apply keeps_advance c_advance' | with_reducible apply keeps_reply c_reply' | with_reducible apply keeps_createTask c_createTask' | with_reducible apply keeps_dispatch c_dispatch' | with_reducible apply Keeps.foldl (I := I) | with_reducible apply Keeps.foldl₂ (I := I) | with_reducible apply Keeps.ite (I := I) | split | intro s _ _ hk | intro s _ hk | intro s hk | with_reducible exact hk

theorem keeps_execTaskFault (hc : Closed I Touches.taskFault) {s : State} (hk : Holds I s) (t : Instant) (sh : Fin 48) (cause : TaskCause) (detail : Word) : ∃ u, execTaskFault t sh cause detail s = .next u ∧ Holds I u := by
  have c_advance' : Closed I Touched.advance := hc.mono (by decide +kernel)
  have c_dispatchMismatch' : Closed I Touched.dispatchMismatch := hc.mono (by decide +kernel)
  have c_onTask' : Closed I Touched.onTask := hc.mono (by decide +kernel)
  have c_programFault' : Closed I Touched.programFault := hc.mono (by decide +kernel)
  have c_shuttleFault' : Closed I Touched.shuttleFault := hc.mono (by decide +kernel)
  have c_leaveShuttle' : Closed I Touched.leaveShuttle := hc.mono (by decide +kernel)
  have c_putTask' : Closed I Touched.putTask := hc.mono (by decide +kernel)
  have c_dispatch' : Closed I Touched.dispatch := hc.mono (by decide +kernel)
  have c_enlist' : Closed I Touched.enlist := hc.mono (by decide +kernel)
  have c_complete' : Closed I Touched.complete := hc.mono (by decide +kernel)
  refine ⟨_, rfl, ?_⟩
  try dsimp only
  repeat' first | (guard_target =ₐ Holds I s; exact hk) | simp only [id_eq] | with_reducible apply keeps_advance c_advance' | with_reducible apply keeps_dispatchMismatch c_dispatchMismatch' | with_reducible apply keeps_onTask c_onTask' | with_reducible apply keeps_programFault c_programFault' | with_reducible apply keeps_shuttleFault c_shuttleFault' | with_reducible apply keeps_leaveShuttle c_leaveShuttle' | with_reducible apply keeps_putTask c_putTask' | with_reducible apply keeps_dispatch c_dispatch' | with_reducible apply keeps_enlist c_enlist' | with_reducible apply keeps_bump | with_reducible apply keeps_complete c_complete' | with_reducible apply Keeps.foldl (I := I) | with_reducible apply Keeps.foldl₂ (I := I) | with_reducible apply Keeps.ite (I := I) | exact hc.mono (by decide +kernel) | split | intro s _ _ hk | intro s _ hk | intro s hk | with_reducible exact hk

theorem keeps_execWaitTimeout (hc : Closed I Touches.waitTimeout) {s : State} (hk : Holds I s) (t : Instant) (slot : Fin 4096) : ∃ u, execWaitTimeout t slot s = .next u ∧ Holds I u := by
  have c_advance' : Closed I Touched.advance := hc.mono (by decide +kernel)
  have c_dispatch' : Closed I Touched.dispatch := hc.mono (by decide +kernel)
  have c_makeResume' : Closed I Touched.makeResume := hc.mono (by decide +kernel)
  have c_dropWait' : Closed I Touched.dropWait := hc.mono (by decide +kernel)
  refine ⟨_, rfl, ?_⟩
  try dsimp only
  repeat' first | (guard_target =ₐ Holds I s; exact hk) | simp only [id_eq] | with_reducible apply keeps_advance c_advance' | with_reducible apply keeps_dispatch c_dispatch' | with_reducible apply keeps_makeResume c_makeResume' | with_reducible apply keeps_bump | with_reducible apply keeps_dropWait c_dropWait' | with_reducible apply Keeps.foldl (I := I) | with_reducible apply Keeps.foldl₂ (I := I) | with_reducible apply Keeps.ite (I := I) | exact hc.mono (by decide +kernel) | split | intro s _ _ hk | intro s _ hk | intro s hk | with_reducible exact hk

end Sys2Proof.Machine
end

