-- ==== Sys2Proof/Laws/Keeps/TrigOps.lean ====
section
/-! SUPPORT.  What the operations of Machine/TrigOps.lean touch, and that they keep every property
closed under it. -/

namespace Sys2Proof.Machine

open Sys2Proof

set_option Elab.async false
set_option linter.unusedSimpArgs false
set_option linter.unusedVariables false
set_option linter.unusedTactic false
set_option linter.unreachableTactic false

variable {I : State → Prop}

def Touched.fire : Touch :=
  { regs := [F.TR_EVENT_SPAWN_DROP, F.TR_COND, F.SK_STATUS_BURST_FREE_KIB, F.SK_EVENT, F.SKS_SEQ, F.SKS_STATUS_RESIDENT,
      F.SKS_OVERWRITE, F.TS_EVENT, F.TS_WORD, F.TS_TRIG, F.CS_STATUS_STATE, F.CS_EVENT, F.CS_CHUNK_ACK,
      F.MU_STATUS_VIOL_RUN, F.MU_STATUS_ENV_NOW, F.MU_STATUS_STATE, F.MU_EVENT, F.MU_A, F.LOOM_EVENT,
      F.LOOM_EVT_OVF, F.LOOM_OVF_ROUTE, F.SCHED_STATUS_FREE_SLOTS, F.SCHED_STATUS_INFLIGHT, F.SCHED_EVENT,
      F.SCHED_DISPATCH_CNT, F.SCHED_EVT_UNBOUND_CNT, F.SCHED_TEMPLATE_MISS_CNT, F.PS_USED, F.HQ_DEPTH,
      F.HQ_MAXDEPTH, F.HQ_PUSH_CNT, F.HQ_BUSY_CNT, F.SH_STATUS_STATE, F.SH_STATUS_SLOT, F.SH_LOAD, F.LVL_RDY_DEPTH,
      F.LVL_WAIT_AVG, F.LVL_HIST, F.FLOW_STATE_IN_SERVICE, F.FLOW_STATE_PENDING, F.PWR_STATUS_WAKE_PEND,
      F.PWR_STATUS_PHASE, F.PWR_STATUS_STATE, F.PWR_WAKE_SRC, F.PWR_WAKE_MERGED, F.PWR_RES, F.PWR_ENTRIES,
      F.MSIX_PBA],
    parts := [.skein, .treadles, .trig, .sched, .host, .power, .sram, .dram, .dlm, .freeCtr] }

theorem keeps_fire (hc : Closed I Touched.fire) {s : State} (hk : Holds I s) (n : Nat) (cause : Nat) (word : Nat) (eventT : Instant) : Holds I (State.fire s n cause word eventT) := by
  have c_putCset' : Closed I Touched.putCset := hc.mono (by decide +kernel)
  have c_csEvent' : Closed I Touched.csEvent := hc.mono (by decide +kernel)
  have c_internalWake' : Closed I Touched.internalWake := hc.mono (by decide +kernel)
  have c_tsEvent' : Closed I Touched.tsEvent := hc.mono (by decide +kernel)
  have c_emitFrom' : Closed I Touched.emitFrom := hc.mono (by decide +kernel)
  have c_latchConds' : Closed I Touched.latchConds := hc.mono (by decide +kernel)
  have c_armMaskAt' : Closed I Touched.armMaskAt := hc.mono (by decide +kernel)
  unfold State.fire
  try dsimp only
  repeat' first | (guard_target =ₐ Holds I s; exact hk) | simp only [id_eq] | with_reducible apply keeps_putCset c_putCset' | with_reducible apply keeps_when | with_reducible apply keeps_wr | with_reducible apply keeps_csEvent c_csEvent' | with_reducible apply keeps_internalWake c_internalWake' | with_reducible apply keeps_tsEvent c_tsEvent' | with_reducible apply keeps_wrT | with_reducible apply keeps_emitFrom c_emitFrom' | with_reducible apply keeps_latchConds c_latchConds' | with_reducible apply keeps_each | with_reducible apply keeps_armMaskAt c_armMaskAt' | with_reducible apply Keeps.foldl (I := I) | with_reducible apply Keeps.foldl₂ (I := I) | with_reducible apply Keeps.ite (I := I) | exact hc.mono (by decide +kernel) | split | intro s _ _ hk | intro s _ hk | intro s hk | with_reducible exact hk

def Touched.missFire : Touch :=
  { regs := [F.SK_STATUS_BURST_FREE_KIB, F.SK_EVENT, F.SKS_SEQ, F.SKS_STATUS_RESIDENT, F.SKS_OVERWRITE, F.TS_EVENT,
      F.TS_MISSED],
    parts := [.skein, .trig] }

theorem keeps_missFire (hc : Closed I Touched.missFire) {s : State} (hk : Holds I s) (n : Nat) (cause : Nat) : Holds I (State.missFire s n cause) := by
  have c_putCset' : Closed I Touched.putCset := hc.mono (by decide +kernel)
  have c_tsEvent' : Closed I Touched.tsEvent := hc.mono (by decide +kernel)
  unfold State.missFire
  try dsimp only
  repeat' first | (guard_target =ₐ Holds I s; exact hk) | simp only [id_eq] | with_reducible apply keeps_putCset c_putCset' | with_reducible apply keeps_tsEvent c_tsEvent' | with_reducible apply keeps_bump | with_reducible apply Keeps.foldl (I := I) | with_reducible apply Keeps.foldl₂ (I := I) | with_reducible apply Keeps.ite (I := I) | exact hc.mono (by decide +kernel) | split | intro s _ _ hk | intro s _ hk | intro s hk | with_reducible exact hk

def Touched.fireRequest : Touch :=
  { regs := [F.TR_EVENT_SPAWN_DROP, F.TR_COND, F.SK_STATUS_BURST_FREE_KIB, F.SK_EVENT, F.SKS_SEQ, F.SKS_STATUS_RESIDENT,
      F.SKS_OVERWRITE, F.TS_EVENT, F.TS_WORD, F.TS_MISSED, F.TS_TRIG, F.CS_STATUS_STATE, F.CS_EVENT,
      F.CS_CHUNK_ACK, F.MU_STATUS_VIOL_RUN, F.MU_STATUS_ENV_NOW, F.MU_STATUS_STATE, F.MU_EVENT, F.MU_A,
      F.LOOM_EVENT, F.LOOM_EVT_OVF, F.LOOM_OVF_ROUTE, F.SCHED_STATUS_FREE_SLOTS, F.SCHED_STATUS_INFLIGHT,
      F.SCHED_EVENT, F.SCHED_DISPATCH_CNT, F.SCHED_EVT_UNBOUND_CNT, F.SCHED_TEMPLATE_MISS_CNT, F.PS_USED,
      F.HQ_DEPTH, F.HQ_MAXDEPTH, F.HQ_PUSH_CNT, F.HQ_BUSY_CNT, F.SH_STATUS_STATE, F.SH_STATUS_SLOT, F.SH_LOAD,
      F.LVL_RDY_DEPTH, F.LVL_WAIT_AVG, F.LVL_HIST, F.FLOW_STATE_IN_SERVICE, F.FLOW_STATE_PENDING,
      F.PWR_STATUS_WAKE_PEND, F.PWR_STATUS_PHASE, F.PWR_STATUS_STATE, F.PWR_WAKE_SRC, F.PWR_WAKE_MERGED, F.PWR_RES,
      F.PWR_ENTRIES, F.MSIX_PBA],
    parts := [.skein, .treadles, .trig, .sched, .host, .power, .sram, .dram, .dlm, .freeCtr] }

theorem keeps_fireRequest (hc : Closed I Touched.fireRequest) {s : State} (hk : Holds I s) (n : Nat) (cause : Nat) (word : Nat) (eventT : Instant) : Holds I (State.fireRequest s n cause word eventT) := by
  have c_fire' : Closed I Touched.fire := hc.mono (by decide +kernel)
  have c_missFire' : Closed I Touched.missFire := hc.mono (by decide +kernel)
  unfold State.fireRequest
  try dsimp only
  repeat' first | (guard_target =ₐ Holds I s; exact hk) | simp only [id_eq] | with_reducible apply keeps_fire c_fire' | with_reducible apply keeps_missFire c_missFire' | with_reducible apply Keeps.foldl (I := I) | with_reducible apply Keeps.foldl₂ (I := I) | with_reducible apply Keeps.ite (I := I) | split | intro s _ _ hk | intro s _ hk | intro s hk | with_reducible exact hk

def Touched.sampleSeq : Touch :=
  { regs := [F.TR_EVENT_SPAWN_DROP, F.TR_COND, F.SK_STATUS_BURST_FREE_KIB, F.SK_EVENT, F.SKS_SEQ, F.SKS_STATUS_RESIDENT,
      F.SKS_OVERWRITE, F.TS_STATUS_STATE, F.TS_EVENT, F.TS_COUNTER, F.TS_TIMER, F.TS_WORD, F.TS_MISSED, F.TS_TRIG,
      F.CS_STATUS_STATE, F.CS_EVENT, F.CS_CHUNK_ACK, F.MU_STATUS_VIOL_RUN, F.MU_STATUS_ENV_NOW, F.MU_STATUS_STATE,
      F.MU_EVENT, F.MU_A, F.LOOM_EVENT, F.LOOM_EVT_OVF, F.LOOM_OVF_ROUTE, F.SCHED_STATUS_FREE_SLOTS,
      F.SCHED_STATUS_INFLIGHT, F.SCHED_EVENT, F.SCHED_DISPATCH_CNT, F.SCHED_EVT_UNBOUND_CNT,
      F.SCHED_TEMPLATE_MISS_CNT, F.PS_USED, F.HQ_DEPTH, F.HQ_MAXDEPTH, F.HQ_PUSH_CNT, F.HQ_BUSY_CNT,
      F.SH_STATUS_STATE, F.SH_STATUS_SLOT, F.SH_LOAD, F.LVL_RDY_DEPTH, F.LVL_WAIT_AVG, F.LVL_HIST,
      F.FLOW_STATE_IN_SERVICE, F.FLOW_STATE_PENDING, F.PWR_STATUS_WAKE_PEND, F.PWR_STATUS_PHASE,
      F.PWR_STATUS_STATE, F.PWR_WAKE_SRC, F.PWR_WAKE_MERGED, F.PWR_RES, F.PWR_ENTRIES, F.MSIX_PBA],
    parts := [.skein, .treadles, .trig, .sched, .host, .power, .sram, .dram, .dlm, .freeCtr] }

theorem keeps_sampleSeq (hc : Closed I Touched.sampleSeq) {s : State} (hk : Holds I s) (n : Nat) : Holds I (State.sampleSeq s n) := by
  have c_putSeq' : Closed I Touched.putSeq := hc.mono (by decide +kernel)
  have c_enterState' : Closed I Touched.enterState := hc.mono (by decide +kernel)
  have c_fireRequest' : Closed I Touched.fireRequest := hc.mono (by decide +kernel)
  unfold State.sampleSeq
  try dsimp only
  repeat' first | (guard_target =ₐ Holds I s; exact hk) | simp only [id_eq] | with_reducible apply keeps_putSeq c_putSeq' | with_reducible apply keeps_wr | with_reducible apply keeps_enterState c_enterState' | with_reducible apply keeps_fireRequest c_fireRequest' | with_reducible apply Keeps.foldl (I := I) | with_reducible apply Keeps.foldl₂ (I := I) | with_reducible apply Keeps.ite (I := I) | exact hc.mono (by decide +kernel) | split | intro s _ _ hk | intro s _ hk | intro s hk | with_reducible exact hk

def Touched.violation : Touch :=
  { regs := [F.TR_STATUS_PAUSE_CAUSE, F.TR_STATUS_STATE, F.TR_EVENT_SPAWN_DROP, F.TR_COND, F.PG_STATUS_HELD,
      F.SK_STATUS_BURST_FREE_KIB, F.SK_EVENT, F.SKS_SEQ, F.SKS_STATUS_RESIDENT, F.SKS_OVERWRITE, F.TS_EVENT,
      F.TS_WORD, F.TS_MISSED, F.TS_TRIG, F.CS_STATUS_STATE, F.CS_EVENT, F.CS_CHUNK_ACK, F.MU_STATUS_VIOL_RUN,
      F.MU_STATUS_ENV_NOW, F.MU_STATUS_STATE, F.MU_EVENT, F.MU_A, F.MU_VIOL_CNT, F.MU_LAST_V, F.LOOM_EVENT,
      F.LOOM_EVT_OVF, F.LOOM_OVF_ROUTE, F.ODO_OUT, F.ODO_OUT_SAT, F.SCHED_STATUS_FREE_SLOTS,
      F.SCHED_STATUS_INFLIGHT, F.SCHED_EVENT, F.SCHED_DISPATCH_CNT, F.SCHED_EVT_UNBOUND_CNT,
      F.SCHED_TEMPLATE_MISS_CNT, F.PS_USED, F.HQ_DEPTH, F.HQ_MAXDEPTH, F.HQ_PUSH_CNT, F.HQ_BUSY_CNT,
      F.SH_STATUS_STATE, F.SH_STATUS_SLOT, F.SH_LOAD, F.LVL_RDY_DEPTH, F.LVL_WAIT_AVG, F.LVL_HIST,
      F.FLOW_STATE_IN_SERVICE, F.FLOW_STATE_PENDING, F.PWR_STATUS_WAKE_PEND, F.PWR_STATUS_PHASE,
      F.PWR_STATUS_STATE, F.PWR_WAKE_SRC, F.PWR_WAKE_MERGED, F.PWR_RES, F.PWR_ENTRIES, F.MSIX_PBA],
    parts := [.skein, .fio, .treadles, .trig, .loom, .sched, .host, .power, .sram, .dram, .dlm, .freeCtr] }

theorem keeps_violation (hc : Closed I Touched.violation) {s : State} (hk : Holds I s) (m : Nat) (tau : Nat) (v : Int) (b : Int × Int) : Holds I (State.violation s m tau v b) := by
  have c_muEvent' : Closed I Touched.muEvent := hc.mono (by decide +kernel)
  have c_fireRequest' : Closed I Touched.fireRequest := hc.mono (by decide +kernel)
  have c_emitFrom' : Closed I Touched.emitFrom := hc.mono (by decide +kernel)
  have c_latchConds' : Closed I Touched.latchConds := hc.mono (by decide +kernel)
  have c_pauseCause' : Closed I Touched.pauseCause := hc.mono (by decide +kernel)
  unfold State.violation
  try dsimp only
  repeat' first | (guard_target =ₐ Holds I s; exact hk) | simp only [id_eq] | with_reducible apply keeps_muEvent c_muEvent' | with_reducible apply keeps_wrI | with_reducible apply keeps_bump | with_reducible apply keeps_when | with_reducible apply keeps_fireRequest c_fireRequest' | with_reducible apply keeps_emitFrom c_emitFrom' | with_reducible apply keeps_latchConds c_latchConds' | with_reducible apply keeps_pauseCause c_pauseCause' | with_reducible apply Keeps.foldl (I := I) | with_reducible apply Keeps.foldl₂ (I := I) | with_reducible apply Keeps.ite (I := I) | exact hc.mono (by decide +kernel) | split | intro s _ _ hk | intro s _ hk | intro s hk | with_reducible exact hk

def Touched.testMask : Touch :=
  { regs := [F.TR_STATUS_PAUSE_CAUSE, F.TR_STATUS_STATE, F.TR_EVENT_SPAWN_DROP, F.TR_COND, F.PG_STATUS_HELD,
      F.SK_STATUS_BURST_FREE_KIB, F.SK_EVENT, F.SKS_SEQ, F.SKS_STATUS_RESIDENT, F.SKS_OVERWRITE, F.TS_EVENT,
      F.TS_WORD, F.TS_MISSED, F.TS_TRIG, F.CS_STATUS_STATE, F.CS_EVENT, F.CS_CHUNK_ACK, F.MU_STATUS_VIOL_RUN,
      F.MU_STATUS_ENV_NOW, F.MU_STATUS_STATE, F.MU_EVENT, F.MU_A, F.MU_VIOL_CNT, F.MU_UNTESTED, F.MU_LAST_V,
      F.LOOM_EVENT, F.LOOM_EVT_OVF, F.LOOM_OVF_ROUTE, F.ODO_OUT, F.ODO_OUT_SAT, F.SCHED_STATUS_FREE_SLOTS,
      F.SCHED_STATUS_INFLIGHT, F.SCHED_EVENT, F.SCHED_DISPATCH_CNT, F.SCHED_EVT_UNBOUND_CNT,
      F.SCHED_TEMPLATE_MISS_CNT, F.PS_USED, F.HQ_DEPTH, F.HQ_MAXDEPTH, F.HQ_PUSH_CNT, F.HQ_BUSY_CNT,
      F.SH_STATUS_STATE, F.SH_STATUS_SLOT, F.SH_LOAD, F.LVL_RDY_DEPTH, F.LVL_WAIT_AVG, F.LVL_HIST,
      F.FLOW_STATE_IN_SERVICE, F.FLOW_STATE_PENDING, F.PWR_STATUS_WAKE_PEND, F.PWR_STATUS_PHASE,
      F.PWR_STATUS_STATE, F.PWR_WAKE_SRC, F.PWR_WAKE_MERGED, F.PWR_RES, F.PWR_ENTRIES, F.MSIX_PBA],
    parts := [.skein, .fio, .treadles, .trig, .loom, .sched, .host, .power, .sram, .dram, .dlm, .freeCtr] }

theorem keeps_testMask (hc : Closed I Touched.testMask) {s : State} (hk : Holds I s) (m : Nat) (have_ : Nat) : Holds I (State.testMask s m have_) := by
  have c_muEvent' : Closed I Touched.muEvent := hc.mono (by decide +kernel)
  have c_violation' : Closed I Touched.violation := hc.mono (by decide +kernel)
  have c_putMask' : Closed I Touched.putMask := hc.mono (by decide +kernel)
  unfold State.testMask
  try dsimp only
  repeat' first | (guard_target =ₐ Holds I s; exact hk) | simp only [id_eq] | with_reducible apply keeps_wr | with_reducible apply keeps_muEvent c_muEvent' | with_reducible apply keeps_bump | with_reducible apply keeps_violation c_violation' | with_reducible apply keeps_putMask c_putMask' | with_reducible apply Keeps.foldl (I := I) | with_reducible apply Keeps.foldl₂ (I := I) | with_reducible apply Keeps.ite (I := I) | exact hc.mono (by decide +kernel) | split | intro s _ _ hk | intro s _ hk | intro s hk | with_reducible exact hk

end Sys2Proof.Machine
end

