-- ==== Sys2Proof/Laws/Keeps/Capture.lean ====
section
/-! SUPPORT.  What the operations of Machine/Capture.lean touch, and that they keep every property
closed under it. -/

namespace Sys2Proof.Machine

open Sys2Proof

set_option Elab.async false
set_option linter.unusedSimpArgs false
set_option linter.unusedVariables false
set_option linter.unusedTactic false
set_option linter.unreachableTactic false

variable {I : State → Prop}

def Touched.hostArm : Touch :=
  {}

theorem keeps_hostArm (hc : Closed I Touched.hostArm) {s : State} (hk : Holds I s) (owner : Option Nat) (drop : State → State) (f : State → State) (hf2 : ∀ s, Holds I s → Holds I (drop s)) (hf3 : ∀ s, Holds I s → Holds I (f s)) : Holds I (State.hostArm s owner drop f) := by
  unfold State.hostArm
  try dsimp only
  repeat' first | (guard_target =ₐ Holds I s; exact hk) | simp only [id_eq] | with_reducible apply Keeps.foldl (I := I) | with_reducible apply Keeps.foldl₂ (I := I) | with_reducible apply Keeps.ite (I := I) | split | with_reducible apply hf2 | with_reducible apply hf3 | intro s _ _ hk | intro s _ hk | intro s hk | with_reducible exact hk

def Touched.takeEnvelope : Touch :=
  { parts := [.trig, .dram] }

theorem keeps_takeEnvelope (hc : Closed I Touched.takeEnvelope) {s : State} (hk : Holds I s) (p : Nat) (img : Envelope) : Holds I (State.takeEnvelope s p img) := by
  have c_dram : Closed I { parts := [.dram] } := hc.mono (by decide +kernel)
  have c_trig : Closed I { parts := [.trig] } := hc.mono (by decide +kernel)
  unfold State.takeEnvelope
  try dsimp only
  repeat' first | (guard_target =ₐ Holds I s; exact hk) | simp only [ic_mk, id_eq] | with_reducible refine ic_dram c_dram (ic_trig c_trig (ic_fold ?_)) | with_reducible refine ic_trig c_trig (ic_fold ?_) | with_reducible apply Keeps.foldl (I := I) | with_reducible apply Keeps.foldl₂ (I := I) | with_reducible apply Keeps.ite (I := I) | split | intro s _ _ hk | intro s _ hk | intro s hk | with_reducible exact hk

theorem keeps_execAutoFire (hc : Closed I Touches.autoFire) {s : State} (hk : Holds I s) (t : Instant) (n : Fin 32) : ∃ u, execAutoFire t n s = .next u ∧ Holds I u := by
  have c_advance' : Closed I Touched.advance := hc.mono (by decide +kernel)
  have c_fireRequest' : Closed I Touched.fireRequest := hc.mono (by decide +kernel)
  refine ⟨_, rfl, ?_⟩
  try dsimp only
  repeat' first | (guard_target =ₐ Holds I s; exact hk) | simp only [id_eq] | with_reducible apply keeps_advance c_advance' | with_reducible apply keeps_fireRequest c_fireRequest' | with_reducible apply Keeps.foldl (I := I) | with_reducible apply Keeps.foldl₂ (I := I) | with_reducible apply Keeps.ite (I := I) | split | intro s _ _ hk | intro s _ hk | intro s hk | with_reducible exact hk

theorem keeps_execCaptureEnd (hc : Closed I Touches.captureEnd) {s : State} (hk : Holds I s) (t : Instant) (n : Fin 32) : ∃ u, execCaptureEnd t n s = .next u ∧ Holds I u := by
  have c_advance' : Closed I Touched.advance := hc.mono (by decide +kernel)
  have c_endPost' : Closed I Touched.endPost := hc.mono (by decide +kernel)
  refine ⟨_, rfl, ?_⟩
  try dsimp only
  repeat' first | (guard_target =ₐ Holds I s; exact hk) | simp only [id_eq] | with_reducible apply keeps_advance c_advance' | with_reducible apply keeps_endPost c_endPost' | with_reducible apply Keeps.foldl (I := I) | with_reducible apply Keeps.foldl₂ (I := I) | with_reducible apply Keeps.ite (I := I) | split | intro s _ _ hk | intro s _ hk | intro s hk | with_reducible exact hk

theorem keeps_execCaptureReady (hc : Closed I Touches.captureReady) {s : State} (hk : Holds I s) (t : Instant) (n : Fin 32) : ∃ u, execCaptureReady t n s = .next u ∧ Holds I u := by
  have c_advance' : Closed I Touched.advance := hc.mono (by decide +kernel)
  have c_putCset' : Closed I Touched.putCset := hc.mono (by decide +kernel)
  refine ⟨_, rfl, ?_⟩
  try dsimp only
  repeat' first | (guard_target =ₐ Holds I s; exact hk) | simp only [id_eq] | with_reducible apply keeps_advance c_advance' | with_reducible apply keeps_wr | with_reducible apply keeps_putCset c_putCset' | with_reducible apply Keeps.foldl (I := I) | with_reducible apply Keeps.foldl₂ (I := I) | with_reducible apply Keeps.ite (I := I) | exact hc.mono (by decide +kernel) | split | intro s _ _ hk | intro s _ hk | intro s hk | with_reducible exact hk

theorem keeps_execCaptureSlotDone (hc : Closed I Touches.captureSlotDone) {s : State} (hk : Holds I s) (t : Instant) (n : Fin 32) : ∃ u, execCaptureSlotDone t n s = .next u ∧ Holds I u := by
  have c_dram : Closed I { parts := [.dram] } := hc.mono (by decide +kernel)
  have c_advance' : Closed I Touched.advance := hc.mono (by decide +kernel)
  have c_closeChunks' : Closed I Touched.closeChunks := hc.mono (by decide +kernel)
  have c_interrupt' : Closed I Touched.interrupt := hc.mono (by decide +kernel)
  have c_record' : Closed I Touched.record := hc.mono (by decide +kernel)
  have c_idleSet' : Closed I Touched.idleSet := hc.mono (by decide +kernel)
  have c_beginFilling' : Closed I Touched.beginFilling := hc.mono (by decide +kernel)
  have c_csEvent' : Closed I Touched.csEvent := hc.mono (by decide +kernel)
  refine ⟨_, rfl, ?_⟩
  try dsimp only
  repeat' first | (guard_target =ₐ Holds I s; exact hk) | simp only [ic_mk, id_eq] | with_reducible refine ic_dram c_dram (ic_fold ?_) | with_reducible apply keeps_advance c_advance' | with_reducible apply keeps_when | with_reducible apply keeps_closeChunks c_closeChunks' | with_reducible apply keeps_interrupt c_interrupt' | with_reducible apply keeps_setBit | with_reducible apply keeps_wr | with_reducible apply keeps_record c_record' | with_reducible apply keeps_idleSet c_idleSet' | with_reducible apply keeps_beginFilling c_beginFilling' | with_reducible apply keeps_csEvent c_csEvent' | with_reducible apply Keeps.foldl (I := I) | with_reducible apply Keeps.foldl₂ (I := I) | with_reducible apply Keeps.ite (I := I) | exact hc.mono (by decide +kernel) | split | intro s _ _ hk | intro s _ hk | intro s hk | with_reducible exact hk

theorem keeps_execChannelSample (hc : Closed I Touches.channelSample) {s : State} (hk : Holds I s) (t : Instant) (n : Fin 256) : ∃ u, execChannelSample t n s = .next u ∧ Holds I u := by
  have c_advance' : Closed I Touched.advance := hc.mono (by decide +kernel)
  have c_strobeAin' : Closed I Touched.strobeAin := hc.mono (by decide +kernel)
  have c_capSample' : Closed I Touched.capSample := hc.mono (by decide +kernel)
  have c_awaitAin' : Closed I Touched.awaitAin := hc.mono (by decide +kernel)
  refine ⟨_, rfl, ?_⟩
  try dsimp only
  repeat' first | (guard_target =ₐ Holds I s; exact hk) | simp only [id_eq] | with_reducible apply keeps_advance c_advance' | with_reducible apply keeps_strobeAin c_strobeAin' | with_reducible apply keeps_capSample c_capSample' | with_reducible apply keeps_awaitAin c_awaitAin' | with_reducible apply Keeps.foldl (I := I) | with_reducible apply Keeps.foldl₂ (I := I) | with_reducible apply Keeps.ite (I := I) | split | intro s _ _ hk | intro s _ hk | intro s hk | with_reducible exact hk

theorem keeps_execChunkAck (hc : Closed I Touches.chunkAck) {s : State} (hk : Holds I s) (t : Instant) (n : Fin 32) (count : BitVec 13) : ∃ u, execChunkAck t n count s = .next u ∧ Holds I u := by
  have c_advance' : Closed I Touched.advance := hc.mono (by decide +kernel)
  have c_hostWrite' : Closed I Touched.hostWrite := hc.mono (by decide +kernel)
  have c_putCset' : Closed I Touched.putCset := hc.mono (by decide +kernel)
  refine ⟨_, rfl, ?_⟩
  try dsimp only
  repeat' first | (guard_target =ₐ Holds I s; exact hk) | simp only [id_eq] | with_reducible apply keeps_advance c_advance' | with_reducible apply keeps_hostWrite c_hostWrite' | with_reducible apply keeps_wr | with_reducible apply keeps_putCset c_putCset' | with_reducible apply Keeps.foldl (I := I) | with_reducible apply Keeps.foldl₂ (I := I) | with_reducible apply Keeps.ite (I := I) | exact hc.mono (by decide +kernel) | split | intro s _ _ hk | intro s _ hk | intro s hk | with_reducible exact hk

theorem keeps_execCsConsumedWrite (hc : Closed I Touches.csConsumedWrite) {s : State} (hk : Holds I s) (t : Instant) (n : Fin 32) (seq : BitVec 64) : ∃ u, execCsConsumedWrite t n seq s = .next u ∧ Holds I u := by
  have c_advance' : Closed I Touched.advance := hc.mono (by decide +kernel)
  have c_hostWrite' : Closed I Touched.hostWrite := hc.mono (by decide +kernel)
  have c_discardOther' : Closed I Touched.discardOther := hc.mono (by decide +kernel)
  have c_csEvent' : Closed I Touched.csEvent := hc.mono (by decide +kernel)
  have c_beginFilling' : Closed I Touched.beginFilling := hc.mono (by decide +kernel)
  refine ⟨_, rfl, ?_⟩
  try dsimp only
  repeat' first | (guard_target =ₐ Holds I s; exact hk) | simp only [id_eq] | with_reducible apply keeps_advance c_advance' | with_reducible apply keeps_hostWrite c_hostWrite' | with_reducible apply keeps_discardOther c_discardOther' | with_reducible apply keeps_csEvent c_csEvent' | with_reducible apply keeps_wr | with_reducible apply keeps_beginFilling c_beginFilling' | with_reducible apply Keeps.foldl (I := I) | with_reducible apply Keeps.foldl₂ (I := I) | with_reducible apply Keeps.ite (I := I) | exact hc.mono (by decide +kernel) | split | intro s _ _ hk | intro s _ hk | intro s hk | with_reducible exact hk

theorem keeps_execForce (hc : Closed I Touches.force) {s : State} (hk : Holds I s) (t : Instant) (n : Fin 32) : ∃ u, execForce t n s = .next u ∧ Holds I u := by
  have c_advance' : Closed I Touched.advance := hc.mono (by decide +kernel)
  have c_hostWrite' : Closed I Touched.hostWrite := hc.mono (by decide +kernel)
  have c_fireRequest' : Closed I Touched.fireRequest := hc.mono (by decide +kernel)
  refine ⟨_, rfl, ?_⟩
  try dsimp only
  repeat' first | (guard_target =ₐ Holds I s; exact hk) | simp only [id_eq] | with_reducible apply keeps_advance c_advance' | with_reducible apply keeps_hostWrite c_hostWrite' | with_reducible apply keeps_fireRequest c_fireRequest' | with_reducible apply Keeps.foldl (I := I) | with_reducible apply Keeps.foldl₂ (I := I) | with_reducible apply Keeps.ite (I := I) | split | intro s _ _ hk | intro s _ hk | intro s hk | with_reducible exact hk

theorem keeps_execLoadEnvelope (hc : Closed I Touches.loadEnvelope) {s : State} (hk : Holds I s) (t : Instant) (p : Fin 16) (img : Envelope) (room : Bool) : ∃ u, execLoadEnvelope t p img room s = .next u ∧ Holds I u := by
  have c_hostCommand' : Closed I Touched.hostCommand := hc.mono (by decide +kernel)
  have c_advance' : Closed I Touched.advance := hc.mono (by decide +kernel)
  have c_loading' : Closed I Touched.loading := hc.mono (by decide +kernel)
  have c_reply' : Closed I Touched.reply := hc.mono (by decide +kernel)
  have c_takeEnvelope' : Closed I Touched.takeEnvelope := hc.mono (by decide +kernel)
  have c_store' : Closed I Touched.store := hc.mono (by decide +kernel)
  refine ⟨_, rfl, ?_⟩
  try dsimp only
  repeat' first | (guard_target =ₐ Holds I s; exact hk) | simp only [id_eq] | with_reducible apply keeps_hostCommand c_hostCommand' | with_reducible apply keeps_advance c_advance' | with_reducible apply keeps_loading c_loading' | with_reducible apply keeps_reply c_reply' | with_reducible apply keeps_wr | with_reducible apply keeps_takeEnvelope c_takeEnvelope' | with_reducible apply keeps_store c_store' | with_reducible apply Keeps.foldl (I := I) | with_reducible apply Keeps.foldl₂ (I := I) | with_reducible apply Keeps.ite (I := I) | exact hc.mono (by decide +kernel) | split | intro s _ _ hk | intro s _ hk | intro s hk | with_reducible exact hk

theorem keeps_execMuArm (hc : Closed I Touches.muArm) {s : State} (hk : Holds I s) (t : Instant) (n : Fin 64) : ∃ u, execMuArm t n s = .next u ∧ Holds I u := by
  have c_advance' : Closed I Touched.advance := hc.mono (by decide +kernel)
  have c_hostWrite' : Closed I Touched.hostWrite := hc.mono (by decide +kernel)
  have c_hostArm' : Closed I Touched.hostArm := hc.mono (by decide +kernel)
  have c_muEvent' : Closed I Touched.muEvent := hc.mono (by decide +kernel)
  have c_envRefused' : Closed I Touched.envRefused := hc.mono (by decide +kernel)
  have c_putMask' : Closed I Touched.putMask := hc.mono (by decide +kernel)
  refine ⟨_, rfl, ?_⟩
  try dsimp only
  repeat' first | (guard_target =ₐ Holds I s; exact hk) | simp only [id_eq] | with_reducible apply keeps_advance c_advance' | with_reducible apply keeps_hostWrite c_hostWrite' | with_reducible apply keeps_hostArm c_hostArm' | with_reducible apply keeps_muEvent c_muEvent' | with_reducible apply keeps_envRefused c_envRefused' | with_reducible apply keeps_putMask c_putMask' | with_reducible apply Keeps.foldl (I := I) | with_reducible apply Keeps.foldl₂ (I := I) | with_reducible apply Keeps.ite (I := I) | split | intro s _ _ hk | intro s _ hk | intro s hk | with_reducible exact hk

theorem keeps_execMuDisarm (hc : Closed I Touches.muDisarm) {s : State} (hk : Holds I s) (t : Instant) (n : Fin 64) : ∃ u, execMuDisarm t n s = .next u ∧ Holds I u := by
  have c_advance' : Closed I Touched.advance := hc.mono (by decide +kernel)
  have c_hostWrite' : Closed I Touched.hostWrite := hc.mono (by decide +kernel)
  have c_hostArm' : Closed I Touched.hostArm := hc.mono (by decide +kernel)
  have c_muEvent' : Closed I Touched.muEvent := hc.mono (by decide +kernel)
  have c_disarmMask' : Closed I Touched.disarmMask := hc.mono (by decide +kernel)
  refine ⟨_, rfl, ?_⟩
  try dsimp only
  repeat' first | (guard_target =ₐ Holds I s; exact hk) | simp only [id_eq] | with_reducible apply keeps_advance c_advance' | with_reducible apply keeps_hostWrite c_hostWrite' | with_reducible apply keeps_hostArm c_hostArm' | with_reducible apply keeps_muEvent c_muEvent' | with_reducible apply keeps_disarmMask c_disarmMask' | with_reducible apply Keeps.foldl (I := I) | with_reducible apply Keeps.foldl₂ (I := I) | with_reducible apply Keeps.ite (I := I) | split | intro s _ _ hk | intro s _ hk | intro s hk | with_reducible exact hk

theorem keeps_execMuSample (hc : Closed I Touches.muSample) {s : State} (hk : Holds I s) (t : Instant) (n : Fin 64) (have_ : Nat) : ∃ u, execMuSample t n have_ s = .next u ∧ Holds I u := by
  have c_advance' : Closed I Touched.advance := hc.mono (by decide +kernel)
  have c_testMask' : Closed I Touched.testMask := hc.mono (by decide +kernel)
  refine ⟨_, rfl, ?_⟩
  try dsimp only
  repeat' first | (guard_target =ₐ Holds I s; exact hk) | simp only [id_eq] | with_reducible apply keeps_advance c_advance' | with_reducible apply keeps_testMask c_testMask' | with_reducible apply Keeps.foldl (I := I) | with_reducible apply Keeps.foldl₂ (I := I) | with_reducible apply Keeps.ite (I := I) | split | intro s _ _ hk | intro s _ hk | intro s hk | with_reducible exact hk

theorem keeps_execPointFetchDone (hc : Closed I Touches.pointFetchDone) {s : State} (hk : Holds I s) (t : Instant) (n : Fin 64) : ∃ u, execPointFetchDone t n s = .next u ∧ Holds I u := by
  have c_advance' : Closed I Touched.advance := hc.mono (by decide +kernel)
  have c_armMaskAt' : Closed I Touched.armMaskAt := hc.mono (by decide +kernel)
  refine ⟨_, rfl, ?_⟩
  try dsimp only
  repeat' first | (guard_target =ₐ Holds I s; exact hk) | simp only [id_eq] | with_reducible apply keeps_advance c_advance' | with_reducible apply keeps_armMaskAt c_armMaskAt' | with_reducible apply Keeps.foldl (I := I) | with_reducible apply Keeps.foldl₂ (I := I) | with_reducible apply Keeps.ite (I := I) | split | intro s _ _ hk | intro s _ hk | intro s hk | with_reducible exact hk

theorem keeps_execTsArm (hc : Closed I Touches.tsArm) {s : State} (hk : Holds I s) (t : Instant) (n : Fin 32) : ∃ u, execTsArm t n s = .next u ∧ Holds I u := by
  have c_advance' : Closed I Touched.advance := hc.mono (by decide +kernel)
  have c_hostWrite' : Closed I Touched.hostWrite := hc.mono (by decide +kernel)
  have c_hostArm' : Closed I Touched.hostArm := hc.mono (by decide +kernel)
  have c_tsEvent' : Closed I Touched.tsEvent := hc.mono (by decide +kernel)
  have c_armTrig' : Closed I Touched.armTrig := hc.mono (by decide +kernel)
  refine ⟨_, rfl, ?_⟩
  try dsimp only
  repeat' first | (guard_target =ₐ Holds I s; exact hk) | simp only [id_eq] | with_reducible apply keeps_advance c_advance' | with_reducible apply keeps_hostWrite c_hostWrite' | with_reducible apply keeps_hostArm c_hostArm' | with_reducible apply keeps_tsEvent c_tsEvent' | with_reducible apply keeps_armTrig c_armTrig' | with_reducible apply Keeps.foldl (I := I) | with_reducible apply Keeps.foldl₂ (I := I) | with_reducible apply Keeps.ite (I := I) | split | intro s _ _ hk | intro s _ hk | intro s hk | with_reducible exact hk

theorem keeps_execTsDisarm (hc : Closed I Touches.tsDisarm) {s : State} (hk : Holds I s) (t : Instant) (n : Fin 32) : ∃ u, execTsDisarm t n s = .next u ∧ Holds I u := by
  have c_advance' : Closed I Touched.advance := hc.mono (by decide +kernel)
  have c_hostWrite' : Closed I Touched.hostWrite := hc.mono (by decide +kernel)
  have c_hostArm' : Closed I Touched.hostArm := hc.mono (by decide +kernel)
  have c_tsEvent' : Closed I Touched.tsEvent := hc.mono (by decide +kernel)
  have c_disarmTrig' : Closed I Touched.disarmTrig := hc.mono (by decide +kernel)
  refine ⟨_, rfl, ?_⟩
  try dsimp only
  repeat' first | (guard_target =ₐ Holds I s; exact hk) | simp only [id_eq] | with_reducible apply keeps_advance c_advance' | with_reducible apply keeps_hostWrite c_hostWrite' | with_reducible apply keeps_hostArm c_hostArm' | with_reducible apply keeps_tsEvent c_tsEvent' | with_reducible apply keeps_disarmTrig c_disarmTrig' | with_reducible apply Keeps.foldl (I := I) | with_reducible apply Keeps.foldl₂ (I := I) | with_reducible apply Keeps.ite (I := I) | split | intro s _ _ hk | intro s _ hk | intro s hk | with_reducible exact hk

theorem keeps_execTsSample (hc : Closed I Touches.tsSample) {s : State} (hk : Holds I s) (t : Instant) (n : Fin 32) : ∃ u, execTsSample t n s = .next u ∧ Holds I u := by
  have c_advance' : Closed I Touched.advance := hc.mono (by decide +kernel)
  have c_sampleSeq' : Closed I Touched.sampleSeq := hc.mono (by decide +kernel)
  refine ⟨_, rfl, ?_⟩
  try dsimp only
  repeat' first | (guard_target =ₐ Holds I s; exact hk) | simp only [id_eq] | with_reducible apply keeps_advance c_advance' | with_reducible apply keeps_sampleSeq c_sampleSeq' | with_reducible apply Keeps.foldl (I := I) | with_reducible apply Keeps.foldl₂ (I := I) | with_reducible apply Keeps.ite (I := I) | split | intro s _ _ hk | intro s _ hk | intro s hk | with_reducible exact hk

end Sys2Proof.Machine
end

