-- ==== Sys2Proof/Laws/Keeps/CyclicOps.lean ====
section
/-! SUPPORT.  What the operations of Machine/CyclicOps.lean touch, and that they keep every property
closed under it. -/

namespace Sys2Proof.Machine

open Sys2Proof

set_option Elab.async false
set_option linter.unusedSimpArgs false
set_option linter.unusedVariables false
set_option linter.unusedTactic false
set_option linter.unreachableTactic false

variable {I : State → Prop}

def Touched.putBank : Touch :=
  { parts := [.cyc] }

theorem keeps_putBank (hc : Closed I Touched.putBank) {s : State} (hk : Holds I s) (p : Nat) (b : Nat) (x : RetBank) : Holds I (State.putBank s p b x) := by
  have c_cyc : Closed I { parts := [.cyc] } := hc.mono (by decide +kernel)
  unfold State.putBank
  try dsimp only
  repeat' first | (guard_target =ₐ Holds I s; exact hk) | simp only [ic_mk, id_eq] | with_reducible refine ic_cyc c_cyc (ic_fold ?_) | with_reducible apply Keeps.foldl (I := I) | with_reducible apply Keeps.foldl₂ (I := I) | with_reducible apply Keeps.ite (I := I) | split | intro s _ _ hk | intro s _ hk | intro s hk | with_reducible exact hk

def Touched.beginCommit : Touch :=
  { parts := [.cyc] }

theorem keeps_beginCommit (hc : Closed I Touched.beginCommit) {s : State} (hk : Holds I s) (p : Nat) (powerFail : Bool) : Holds I (State.beginCommit s p powerFail) := by
  have c_putCycPart' : Closed I Touched.putCycPart := hc.mono (by decide +kernel)
  have c_putBank' : Closed I Touched.putBank := hc.mono (by decide +kernel)
  unfold State.beginCommit
  try dsimp only
  repeat' first | (guard_target =ₐ Holds I s; exact hk) | simp only [id_eq] | with_reducible apply keeps_putCycPart c_putCycPart' | with_reducible apply keeps_putBank c_putBank' | with_reducible apply Keeps.foldl (I := I) | with_reducible apply Keeps.foldl₂ (I := I) | with_reducible apply Keeps.ite (I := I) | split | intro s _ _ hk | intro s _ hk | intro s hk | with_reducible exact hk

def Touched.copySection : Touch :=
  { parts := [.sram, .dram, .dlm] }

theorem keeps_copySection (hc : Closed I Touched.copySection) {s : State} (hk : Holds I s) (p : Nat) (g : Program) (type : Nat) (bs : List Byte) : Holds I (State.copySection s p g type bs) := by
  have c_partStore' : Closed I Touched.partStore := hc.mono (by decide +kernel)
  unfold State.copySection
  try dsimp only
  repeat' first | (guard_target =ₐ Holds I s; exact hk) | simp only [id_eq] | with_reducible apply keeps_partStore c_partStore' | with_reducible apply Keeps.foldl (I := I) | with_reducible apply Keeps.foldl₂ (I := I) | with_reducible apply Keeps.ite (I := I) | split | intro s _ _ hk | intro s _ hk | intro s hk | with_reducible exact hk

def Touched.installProgram : Touch :=
  { regs := [F.WIN_BASE_BASE, F.WIN_BASE_ATTR, F.WIN_LIMIT, F.EVT_BIND_EN, F.EVT_BIND_TEMPLATE, F.CT_CFG_EN,
      F.CT_CFG_TEMPLATE, F.CT_PERIOD, F.CT_PHASE, F.CT_REL, F.CT_SCAN],
    parts := [.sched, .cyc, .sram] }

theorem keeps_installProgram (hc : Closed I Touched.installProgram) {s : State} (hk : Holds I s) (p : Nat) (g : Program) : Holds I (State.installProgram s p g) := by
  have c_putTemplate' : Closed I Touched.putTemplate := hc.mono (by decide +kernel)
  have c_putCycTask' : Closed I Touched.putCycTask := hc.mono (by decide +kernel)
  unfold State.installProgram
  try dsimp only
  repeat' first | (guard_target =ₐ Holds I s; exact hk) | simp only [id_eq] | with_reducible apply keeps_each | with_reducible apply keeps_putTemplate c_putTemplate' | with_reducible apply keeps_wr | with_reducible apply keeps_putCycTask c_putCycTask' | with_reducible apply Keeps.foldl (I := I) | with_reducible apply Keeps.foldl₂ (I := I) | with_reducible apply Keeps.ite (I := I) | exact hc.mono (by decide +kernel) | split | intro s _ _ hk | intro s _ hk | intro s hk | with_reducible exact hk

def Touched.mapVars : Touch :=
  { parts := [.sram, .dram, .dlm] }

theorem keeps_mapVars (hc : Closed I Touched.mapVars) {s : State} (hk : Holds I s) (p : Nat) (vars : List VarEntry) (old : VarEntry → Option (List Byte)) : Holds I (State.mapVars s p vars old) := by
  have c_partStore' : Closed I Touched.partStore := hc.mono (by decide +kernel)
  unfold State.mapVars
  try dsimp only
  repeat' first | (guard_target =ₐ Holds I s; exact hk) | simp only [id_eq] | with_reducible apply keeps_partStore c_partStore' | with_reducible apply Keeps.foldl (I := I) | with_reducible apply Keeps.foldl₂ (I := I) | with_reducible apply Keeps.ite (I := I) | split | intro s _ _ hk | intro s _ hk | intro s hk | with_reducible exact hk

def Touched.putInput : Touch :=
  { parts := [.ain, .sram, .dram, .dlm] }

theorem keeps_putInput (hc : Closed I Touched.putInput) {s : State} (hk : Holds I s) (p : Nat) (a : Nat) (host : List Byte) (e : MapEntry) : Holds I (State.putInput s p a host e) := by
  have c_partStore' : Closed I Touched.partStore := hc.mono (by decide +kernel)
  have c_strobeAin' : Closed I Touched.strobeAin := hc.mono (by decide +kernel)
  have c_awaitAin' : Closed I Touched.awaitAin := hc.mono (by decide +kernel)
  unfold State.putInput
  try dsimp only
  repeat' first | (guard_target =ₐ Holds I s; exact hk) | simp only [id_eq] | with_reducible apply keeps_partStore c_partStore' | with_reducible apply keeps_strobeAin c_strobeAin' | with_reducible apply keeps_awaitAin c_awaitAin' | with_reducible apply Keeps.foldl (I := I) | with_reducible apply Keeps.foldl₂ (I := I) | with_reducible apply Keeps.ite (I := I) | split | intro s _ _ hk | intro s _ hk | intro s hk | with_reducible exact hk

def Touched.putInputs : Touch :=
  { parts := [.ain, .sram, .dram, .dlm] }

theorem keeps_putInputs (hc : Closed I Touched.putInputs) {s : State} (hk : Holds I s) (p : Nat) (base : Nat) (host : List Byte) (a : List MapEntry) : Holds I (State.putInputs s p base host a) := by
  have c_putInput' : Closed I Touched.putInput := hc.mono (by decide +kernel)
  induction a generalizing s p base host with
  | nil =>
    unfold State.putInputs
    try dsimp only
    repeat' first | (guard_target =ₐ Holds I s; exact hk) | simp only [id_eq] | with_reducible apply keeps_putInput c_putInput' | with_reducible apply Keeps.foldl (I := I) | with_reducible apply Keeps.foldl₂ (I := I) | with_reducible apply Keeps.ite (I := I) | split | intro s _ _ hk | intro s _ hk | intro s hk | with_reducible exact hk
  | cons _ _ ih =>
    unfold State.putInputs
    try dsimp only
    repeat' first | (guard_target =ₐ Holds I s; exact hk) | simp only [id_eq] | with_reducible apply ih | with_reducible apply keeps_putInput c_putInput' | with_reducible apply Keeps.foldl (I := I) | with_reducible apply Keeps.foldl₂ (I := I) | with_reducible apply Keeps.ite (I := I) | split | intro s _ _ hk | intro s _ hk | intro s hk | with_reducible exact hk | cases ‹_ :: _ = _ :: _›

def Touched.putSections : Touch :=
  { parts := [.sram, .dram, .dlm] }

theorem keeps_putSections (hc : Closed I Touched.putSections) {s : State} (hk : Holds I s) (p : Nat) (g : Program) (x : RetBank) : Holds I (State.putSections s p g x) := by
  have c_partStore' : Closed I Touched.partStore := hc.mono (by decide +kernel)
  unfold State.putSections
  try dsimp only
  repeat' first | (guard_target =ₐ Holds I s; exact hk) | simp only [id_eq] | with_reducible apply keeps_each | with_reducible apply keeps_partStore c_partStore' | with_reducible apply Keeps.foldl (I := I) | with_reducible apply Keeps.foldl₂ (I := I) | with_reducible apply Keeps.ite (I := I) | split | intro s _ _ hk | intro s _ hk | intro s hk | with_reducible exact hk

def Touched.releaseSections : Touch :=
  { parts := [.cyc] }

theorem keeps_releaseSections (hc : Closed I Touched.releaseSections) {s : State} (hk : Holds I s) (p : Nat) (g : Program) : Holds I (State.releaseSections s p g) := by
  have c_putCycTask' : Closed I Touched.putCycTask := hc.mono (by decide +kernel)
  unfold State.releaseSections
  try dsimp only
  repeat' first | (guard_target =ₐ Holds I s; exact hk) | simp only [id_eq] | with_reducible apply keeps_each | with_reducible apply keeps_putCycTask c_putCycTask' | with_reducible apply Keeps.foldl (I := I) | with_reducible apply Keeps.foldl₂ (I := I) | with_reducible apply Keeps.ite (I := I) | split | intro s _ _ hk | intro s _ hk | intro s hk | with_reducible exact hk

def Touched.restoreRetained : Touch :=
  { regs := [F.CP_STATUS_RETAIN_OK, F.CP_EVENT, F.CP_RETAIN_SEQ], parts := [.sram, .dram, .dlm] }

theorem keeps_restoreRetained (hc : Closed I Touched.restoreRetained) {s : State} (hk : Holds I s) (p : Nat) (g : Program) : Holds I (State.restoreRetained s p g) := by
  have c_cpEvent' : Closed I Touched.cpEvent := hc.mono (by decide +kernel)
  have c_putSections' : Closed I Touched.putSections := hc.mono (by decide +kernel)
  have c_mapVars' : Closed I Touched.mapVars := hc.mono (by decide +kernel)
  unfold State.restoreRetained
  try dsimp only
  repeat' first | (guard_target =ₐ Holds I s; exact hk) | simp only [id_eq] | with_reducible apply keeps_cpEvent c_cpEvent' | with_reducible apply keeps_wr | with_reducible apply keeps_putSections c_putSections' | with_reducible apply keeps_mapVars c_mapVars' | with_reducible apply Keeps.foldl (I := I) | with_reducible apply Keeps.foldl₂ (I := I) | with_reducible apply Keeps.ite (I := I) | exact hc.mono (by decide +kernel) | split | intro s _ _ hk | intro s _ hk | intro s hk | with_reducible exact hk

def Touched.saveOdometers : Touch :=
  { parts := [.cyc] }

theorem keeps_saveOdometers (hc : Closed I Touched.saveOdometers) {s : State} (hk : Holds I s) : Holds I (State.saveOdometers s) := by
  have c_cyc : Closed I { parts := [.cyc] } := hc.mono (by decide +kernel)
  unfold State.saveOdometers
  try dsimp only
  repeat' first | (guard_target =ₐ Holds I s; exact hk) | simp only [ic_mk, id_eq] | with_reducible refine ic_cyc c_cyc (ic_fold ?_) | with_reducible apply Keeps.foldl (I := I) | with_reducible apply Keeps.foldl₂ (I := I) | with_reducible apply Keeps.ite (I := I) | split | intro s _ _ hk | intro s _ hk | intro s hk | with_reducible exact hk

def Touched.startVars : Touch :=
  { parts := [.sram, .dram, .dlm] }

theorem keeps_startVars (hc : Closed I Touched.startVars) {s : State} (hk : Holds I s) (p : Nat) (mode : Nat) (g : Program) : Holds I (State.startVars s p mode g) := by
  have c_partStore' : Closed I Touched.partStore := hc.mono (by decide +kernel)
  have c_copySection' : Closed I Touched.copySection := hc.mono (by decide +kernel)
  unfold State.startVars
  try dsimp only
  repeat' first | (guard_target =ₐ Holds I s; exact hk) | simp only [id_eq] | with_reducible apply keeps_partStore c_partStore' | with_reducible apply keeps_copySection c_copySection' | with_reducible apply Keeps.foldl (I := I) | with_reducible apply Keeps.foldl₂ (I := I) | with_reducible apply Keeps.ite (I := I) | split | intro s _ _ hk | intro s _ hk | intro s hk | with_reducible exact hk

def Touched.takeBank : Touch :=
  { regs := [F.CP_STATUS_RETAIN_OK, F.CP_RETAIN_SEQ], parts := [.cyc] }

theorem keeps_takeBank (hc : Closed I Touched.takeBank) {s : State} (hk : Holds I s) (p : Nat) (b : Nat) (x : RetBank) : Holds I (State.takeBank s p b x) := by
  have c_putBank' : Closed I Touched.putBank := hc.mono (by decide +kernel)
  unfold State.takeBank
  try dsimp only
  repeat' first | (guard_target =ₐ Holds I s; exact hk) | simp only [id_eq] | with_reducible apply keeps_wr | with_reducible apply keeps_putBank c_putBank' | with_reducible apply Keeps.foldl (I := I) | with_reducible apply Keeps.foldl₂ (I := I) | with_reducible apply Keeps.ite (I := I) | exact hc.mono (by decide +kernel) | split | intro s _ _ hk | intro s _ hk | intro s hk | with_reducible exact hk

def Touched.takeProgram : Touch :=
  { regs := [F.TR_EVENT_SPAWN_DROP, F.SK_STATUS_BURST_FREE_KIB, F.SK_EVENT, F.SKS_SEQ, F.SKS_STATUS_RESIDENT,
      F.SKS_OVERWRITE, F.SCHED_STATUS_FREE_SLOTS, F.SCHED_STATUS_INFLIGHT, F.SCHED_EVENT, F.SCHED_DISPATCH_CNT,
      F.SCHED_EVT_UNBOUND_CNT, F.SCHED_TEMPLATE_MISS_CNT, F.PS_USED, F.WIN_BASE_BASE, F.WIN_BASE_ATTR, F.WIN_LIMIT,
      F.SH_STATUS_STATE, F.SH_STATUS_SLOT, F.SH_LOAD, F.LVL_RDY_DEPTH, F.LVL_WAIT_AVG, F.LVL_HIST,
      F.FLOW_STATE_IN_SERVICE, F.FLOW_STATE_PENDING, F.EVT_BIND_EN, F.EVT_BIND_TEMPLATE, F.CP_STATUS_RETAIN_OK,
      F.CP_STATUS_DETERMINISTIC, F.CP_STATUS_LOADED, F.CP_EVENT, F.CP_VERSION, F.CP_RETAIN, F.CP_RETAIN_SEQ,
      F.CT_CFG_EN, F.CT_CFG_TEMPLATE, F.CT_PERIOD, F.CT_PHASE, F.CT_REL, F.CT_SCAN, F.PWR_STATUS_WAKE_PEND,
      F.PWR_STATUS_PHASE, F.PWR_STATUS_STATE, F.PWR_WAKE_SRC, F.PWR_WAKE_MERGED, F.PWR_RES, F.PWR_ENTRIES],
    parts := [.skein, .treadles, .sched, .cyc, .power, .sram, .dram, .dlm, .freeCtr] }

theorem keeps_takeProgram (hc : Closed I Touched.takeProgram) {s : State} (hk : Holds I s) (p : Nat) (g : Program) : Holds I (State.takeProgram s p g) := by
  have c_copySection' : Closed I Touched.copySection := hc.mono (by decide +kernel)
  have c_installProgram' : Closed I Touched.installProgram := hc.mono (by decide +kernel)
  have c_mapVars' : Closed I Touched.mapVars := hc.mono (by decide +kernel)
  have c_restoreRetained' : Closed I Touched.restoreRetained := hc.mono (by decide +kernel)
  have c_releaseSections' : Closed I Touched.releaseSections := hc.mono (by decide +kernel)
  have c_putCycPart' : Closed I Touched.putCycPart := hc.mono (by decide +kernel)
  have c_takeBank' : Closed I Touched.takeBank := hc.mono (by decide +kernel)
  have c_dispatch' : Closed I Touched.dispatch := hc.mono (by decide +kernel)
  have c_serve' : Closed I Touched.serve := hc.mono (by decide +kernel)
  have c_cpEvent' : Closed I Touched.cpEvent := hc.mono (by decide +kernel)
  unfold State.takeProgram
  try dsimp only
  repeat' first | (guard_target =ₐ Holds I s; exact hk) | simp only [id_eq] | with_reducible apply keeps_copySection c_copySection' | with_reducible apply keeps_installProgram c_installProgram' | with_reducible apply keeps_mapVars c_mapVars' | with_reducible apply keeps_restoreRetained c_restoreRetained' | with_reducible apply keeps_releaseSections c_releaseSections' | with_reducible apply keeps_putCycPart c_putCycPart' | with_reducible apply keeps_takeBank c_takeBank' | with_reducible apply keeps_wr | with_reducible apply keeps_dispatch c_dispatch' | with_reducible apply keeps_serve c_serve' | with_reducible apply keeps_cpEvent c_cpEvent' | with_reducible apply Keeps.foldl (I := I) | with_reducible apply Keeps.foldl₂ (I := I) | with_reducible apply Keeps.ite (I := I) | exact hc.mono (by decide +kernel) | split | intro s _ _ hk | intro s _ hk | intro s hk | with_reducible exact hk

end Sys2Proof.Machine
end

