-- ==== Sys2Proof/Laws/Keeps/Cyclic.lean ====
section
/-! SUPPORT.  What the operations of Machine/Cyclic.lean touch, and that they keep every property
closed under it. -/

namespace Sys2Proof.Machine

open Sys2Proof

set_option Elab.async false
set_option linter.unusedSimpArgs false
set_option linter.unusedVariables false
set_option linter.unusedTactic false
set_option linter.unreachableTactic false

variable {I : State → Prop}

def Touched.cpCommand : Touch :=
  { regs := [F.CP_CTRL_MODE, F.CP_EVENT, F.TD_EVENT, F.SYS_DISCARD_REASON, F.SYS_DISCARD_OFFSET, F.SYS_DISCARD_CNT,
      F.MBX_STATE_COMP, F.PV_SEQ, F.MSIX_PBA],
    parts := [.tandem, .host, .answer, .dram] }

theorem keeps_cpCommand (hc : Closed I Touched.cpCommand) {s : State} (hk : Holds I s) (p : Fin 16) (value : Word) (bit : Nat) (from_ : List Nat) (f : State → State) (hf5 : ∀ s, Holds I s → Holds I (f s)) : Holds I (State.cpCommand s p value bit from_ f) := by
  have c_hostWrite' : Closed I Touched.hostWrite := hc.mono (by decide +kernel)
  have c_cpEvent' : Closed I Touched.cpEvent := hc.mono (by decide +kernel)
  unfold State.cpCommand
  try dsimp only
  repeat' first | (guard_target =ₐ Holds I s; exact hk) | simp only [id_eq] | with_reducible apply keeps_hostWrite c_hostWrite' | with_reducible apply keeps_wr | with_reducible apply keeps_cpEvent c_cpEvent' | with_reducible apply Keeps.foldl (I := I) | with_reducible apply Keeps.foldl₂ (I := I) | with_reducible apply Keeps.ite (I := I) | exact hc.mono (by decide +kernel) | split | with_reducible apply hf5 | intro s _ _ hk | intro s _ hk | intro s hk | with_reducible exact hk

def Touched.enterRun : Touch :=
  { anyReg := true,
    parts := [.skein, .cells, .fio, .treadles, .gens, .trig, .loom, .sched, .cyc, .host, .power, .sram, .dram, .dlm, .freeCtr] }

theorem keeps_enterRun (hc : Closed I Touched.enterRun) {s : State} (hk : Holds I s) (p : Nat) (flags : Nat) : Holds I (State.enterRun s p flags) := by
  have c_flipEdits' : Closed I Touched.flipEdits := hc.mono (by decide +kernel)
  have c_putCycTask' : Closed I Touched.putCycTask := hc.mono (by decide +kernel)
  have c_putCycPart' : Closed I Touched.putCycPart := hc.mono (by decide +kernel)
  have c_runChange' : Closed I Touched.runChange := hc.mono (by decide +kernel)
  have c_startWake' : Closed I Touched.startWake := hc.mono (by decide +kernel)
  have c_settle' : Closed I Touched.settle := hc.mono (by decide +kernel)
  unfold State.enterRun
  try dsimp only
  repeat' first | (guard_target =ₐ Holds I s; exact hk) | simp only [id_eq] | with_reducible apply keeps_flipEdits c_flipEdits' | with_reducible apply keeps_each | with_reducible apply keeps_putCycTask c_putCycTask' | with_reducible apply keeps_putCycPart c_putCycPart' | with_reducible apply keeps_runChange c_runChange' | with_reducible apply keeps_startWake c_startWake' | with_reducible apply keeps_settle c_settle' | with_reducible apply keeps_wr | with_reducible apply Keeps.foldl (I := I) | with_reducible apply Keeps.foldl₂ (I := I) | with_reducible apply Keeps.ite (I := I) | exact hc.mono (by decide +kernel) | split | intro s _ _ hk | intro s _ hk | intro s hk | with_reducible exact hk

def Touched.takeRejoin : Touch :=
  { regs := [F.RJ_STATE] }

theorem keeps_takeRejoin (hc : Closed I Touched.takeRejoin) {s : State} (hk : Holds I s) (p : Nat) (ok : Nat) (ack : Nat) : Holds I (State.takeRejoin s p ok ack) := by
  have c_putRejoin' : Closed I Touched.putRejoin := hc.mono (by decide +kernel)
  unfold State.takeRejoin
  try dsimp only
  repeat' first | (guard_target =ₐ Holds I s; exact hk) | simp only [id_eq] | with_reducible apply keeps_each | with_reducible apply keeps_putRejoin c_putRejoin' | with_reducible apply Keeps.foldl (I := I) | with_reducible apply Keeps.foldl₂ (I := I) | with_reducible apply Keeps.ite (I := I) | split | intro s _ _ hk | intro s _ hk | intro s hk | with_reducible exact hk

theorem keeps_execCpHold (hc : Closed I Touches.cpHold) {s : State} (hk : Holds I s) (t : Instant) (p : Fin 16) (value : Word) : ∃ u, execCpHold t p value s = .next u ∧ Holds I u := by
  have c_cpCommand' : Closed I Touched.cpCommand := hc.mono (by decide +kernel)
  have c_advance' : Closed I Touched.advance := hc.mono (by decide +kernel)
  have c_runChange' : Closed I Touched.runChange := hc.mono (by decide +kernel)
  have c_pauseCause' : Closed I Touched.pauseCause := hc.mono (by decide +kernel)
  have c_settle' : Closed I Touched.settle := hc.mono (by decide +kernel)
  refine ⟨_, rfl, ?_⟩
  try dsimp only
  repeat' first | (guard_target =ₐ Holds I s; exact hk) | simp only [id_eq] | with_reducible apply keeps_cpCommand c_cpCommand' | with_reducible apply keeps_advance c_advance' | with_reducible apply keeps_runChange c_runChange' | with_reducible apply keeps_pauseCause c_pauseCause' | with_reducible apply keeps_settle c_settle' | with_reducible apply keeps_wr | with_reducible apply Keeps.foldl (I := I) | with_reducible apply Keeps.foldl₂ (I := I) | with_reducible apply Keeps.ite (I := I) | exact hc.mono (by decide +kernel) | split | intro s _ _ hk | intro s _ hk | intro s hk | with_reducible exact hk

theorem keeps_execCpResume (hc : Closed I Touches.cpResume) {s : State} (hk : Holds I s) (t : Instant) (p : Fin 16) (value : Word) : ∃ u, execCpResume t p value s = .next u ∧ Holds I u := by
  have c_cpCommand' : Closed I Touched.cpCommand := hc.mono (by decide +kernel)
  have c_advance' : Closed I Touched.advance := hc.mono (by decide +kernel)
  have c_runChange' : Closed I Touched.runChange := hc.mono (by decide +kernel)
  have c_clearPause' : Closed I Touched.clearPause := hc.mono (by decide +kernel)
  have c_settle' : Closed I Touched.settle := hc.mono (by decide +kernel)
  refine ⟨_, rfl, ?_⟩
  try dsimp only
  repeat' first | (guard_target =ₐ Holds I s; exact hk) | simp only [id_eq] | with_reducible apply keeps_cpCommand c_cpCommand' | with_reducible apply keeps_advance c_advance' | with_reducible apply keeps_runChange c_runChange' | with_reducible apply keeps_clearPause c_clearPause' | with_reducible apply keeps_settle c_settle' | with_reducible apply keeps_wr | with_reducible apply Keeps.foldl (I := I) | with_reducible apply Keeps.foldl₂ (I := I) | with_reducible apply Keeps.ite (I := I) | exact hc.mono (by decide +kernel) | split | intro s _ _ hk | intro s _ hk | intro s hk | with_reducible exact hk

theorem keeps_execCpStart (hc : Closed I Touches.cpStart) {s : State} (hk : Holds I s) (t : Instant) (p : Fin 16) (value : Word) : ∃ u, execCpStart t p value s = .next u ∧ Holds I u := by
  have c_cpCommand' : Closed I Touched.cpCommand := hc.mono (by decide +kernel)
  have c_advance' : Closed I Touched.advance := hc.mono (by decide +kernel)
  have c_enterRun' : Closed I Touched.enterRun := hc.mono (by decide +kernel)
  have c_startVars' : Closed I Touched.startVars := hc.mono (by decide +kernel)
  have c_cpEvent' : Closed I Touched.cpEvent := hc.mono (by decide +kernel)
  have c_lpEvent' : Closed I Touched.lpEvent := hc.mono (by decide +kernel)
  refine ⟨_, rfl, ?_⟩
  try dsimp only
  repeat' first | (guard_target =ₐ Holds I s; exact hk) | simp only [id_eq] | with_reducible apply keeps_cpCommand c_cpCommand' | with_reducible apply keeps_advance c_advance' | with_reducible apply keeps_enterRun c_enterRun' | with_reducible apply keeps_startVars c_startVars' | with_reducible apply keeps_cpEvent c_cpEvent' | with_reducible apply keeps_lpEvent c_lpEvent' | with_reducible apply Keeps.foldl (I := I) | with_reducible apply Keeps.foldl₂ (I := I) | with_reducible apply Keeps.ite (I := I) | split | intro s _ _ hk | intro s _ hk | intro s hk | with_reducible exact hk

theorem keeps_execCpStop (hc : Closed I Touches.cpStop) {s : State} (hk : Holds I s) (t : Instant) (p : Fin 16) (value : Word) : ∃ u, execCpStop t p value s = .next u ∧ Holds I u := by
  have c_cpCommand' : Closed I Touched.cpCommand := hc.mono (by decide +kernel)
  have c_advance' : Closed I Touched.advance := hc.mono (by decide +kernel)
  have c_partStop' : Closed I Touched.partStop := hc.mono (by decide +kernel)
  refine ⟨_, rfl, ?_⟩
  try dsimp only
  repeat' first | (guard_target =ₐ Holds I s; exact hk) | simp only [id_eq] | with_reducible apply keeps_cpCommand c_cpCommand' | with_reducible apply keeps_advance c_advance' | with_reducible apply keeps_partStop c_partStop' | with_reducible apply Keeps.foldl (I := I) | with_reducible apply Keeps.foldl₂ (I := I) | with_reducible apply Keeps.ite (I := I) | split | intro s _ _ hk | intro s _ hk | intro s hk | with_reducible exact hk

theorem keeps_execHostInput (hc : Closed I Touches.hostInput) {s : State} (hk : Holds I s) (t : Instant) (p : Fin 16) (task : Word) (data : List Byte) : ∃ u, execHostInput t p task data s = .next u ∧ Holds I u := by
  have c_hostCommand' : Closed I Touched.hostCommand := hc.mono (by decide +kernel)
  have c_advance' : Closed I Touched.advance := hc.mono (by decide +kernel)
  have c_reply' : Closed I Touched.reply := hc.mono (by decide +kernel)
  have c_putCycTask' : Closed I Touched.putCycTask := hc.mono (by decide +kernel)
  refine ⟨_, rfl, ?_⟩
  try dsimp only
  repeat' first | (guard_target =ₐ Holds I s; exact hk) | simp only [id_eq] | with_reducible apply keeps_hostCommand c_hostCommand' | with_reducible apply keeps_advance c_advance' | with_reducible apply keeps_reply c_reply' | with_reducible apply keeps_putCycTask c_putCycTask' | with_reducible apply Keeps.foldl (I := I) | with_reducible apply Keeps.foldl₂ (I := I) | with_reducible apply Keeps.ite (I := I) | split | intro s _ _ hk | intro s _ hk | intro s hk | with_reducible exact hk

theorem keeps_execLoadProgram (hc : Closed I Touches.loadProgram) {s : State} (hk : Holds I s) (t : Instant) (p : Fin 16) (img : Program) (room : Bool) : ∃ u, execLoadProgram t p img room s = .next u ∧ Holds I u := by
  have c_hostCommand' : Closed I Touched.hostCommand := hc.mono (by decide +kernel)
  have c_advance' : Closed I Touched.advance := hc.mono (by decide +kernel)
  have c_loading' : Closed I Touched.loading := hc.mono (by decide +kernel)
  have c_reply' : Closed I Touched.reply := hc.mono (by decide +kernel)
  have c_dispatch' : Closed I Touched.dispatch := hc.mono (by decide +kernel)
  have c_takeProgram' : Closed I Touched.takeProgram := hc.mono (by decide +kernel)
  have c_store' : Closed I Touched.store := hc.mono (by decide +kernel)
  refine ⟨_, rfl, ?_⟩
  try dsimp only
  repeat' first | (guard_target =ₐ Holds I s; exact hk) | simp only [id_eq] | with_reducible apply keeps_hostCommand c_hostCommand' | with_reducible apply keeps_advance c_advance' | with_reducible apply keeps_loading c_loading' | with_reducible apply keeps_reply c_reply' | with_reducible apply keeps_wr | with_reducible apply keeps_dispatch c_dispatch' | with_reducible apply keeps_takeProgram c_takeProgram' | with_reducible apply keeps_store c_store' | with_reducible apply Keeps.foldl (I := I) | with_reducible apply Keeps.foldl₂ (I := I) | with_reducible apply Keeps.ite (I := I) | exact hc.mono (by decide +kernel) | split | intro s _ _ hk | intro s _ hk | intro s hk | with_reducible exact hk

theorem keeps_execPowerFail (hc : Closed I Touches.powerFail) {s : State} (hk : Holds I s) (t : Instant) (low : Bool) : ∃ u, execPowerFail t low s = .next u ∧ Holds I u := by
  have c_cyc : Closed I { parts := [.cyc] } := hc.mono (by decide +kernel)
  have c_advance' : Closed I Touched.advance := hc.mono (by decide +kernel)
  have c_entryFails' : Closed I Touched.entryFails := hc.mono (by decide +kernel)
  have c_saveOdometers' : Closed I Touched.saveOdometers := hc.mono (by decide +kernel)
  have c_beginCommit' : Closed I Touched.beginCommit := hc.mono (by decide +kernel)
  refine ⟨_, rfl, ?_⟩
  try dsimp only
  repeat' first | (guard_target =ₐ Holds I s; exact hk) | simp only [ic_mk, id_eq] | with_reducible refine ic_cyc c_cyc (ic_fold ?_) | with_reducible apply keeps_advance c_advance' | with_reducible apply keeps_entryFails c_entryFails' | with_reducible apply keeps_each | with_reducible apply keeps_saveOdometers c_saveOdometers' | with_reducible apply keeps_beginCommit c_beginCommit' | with_reducible apply Keeps.foldl (I := I) | with_reducible apply Keeps.foldl₂ (I := I) | with_reducible apply Keeps.ite (I := I) | split | intro s _ _ hk | intro s _ hk | intro s hk | with_reducible exact hk

theorem keeps_execRetainCheckpoint (hc : Closed I Touches.retainCheckpoint) {s : State} (hk : Holds I s) (t : Instant) : ∃ u, execRetainCheckpoint t s = .next u ∧ Holds I u := by
  have c_advance' : Closed I Touched.advance := hc.mono (by decide +kernel)
  have c_beginCommit' : Closed I Touched.beginCommit := hc.mono (by decide +kernel)
  refine ⟨_, rfl, ?_⟩
  try dsimp only
  repeat' first | (guard_target =ₐ Holds I s; exact hk) | simp only [id_eq] | with_reducible apply keeps_advance c_advance' | with_reducible apply keeps_each | with_reducible apply keeps_beginCommit c_beginCommit' | with_reducible apply Keeps.foldl (I := I) | with_reducible apply Keeps.foldl₂ (I := I) | with_reducible apply Keeps.ite (I := I) | split | intro s _ _ hk | intro s _ hk | intro s hk | with_reducible exact hk

theorem keeps_execRetainCommitDone (hc : Closed I Touches.retainCommitDone) {s : State} (hk : Holds I s) (t : Instant) (p : Fin 16) (good : Bool) : ∃ u, execRetainCommitDone t p good s = .next u ∧ Holds I u := by
  have c_advance' : Closed I Touched.advance := hc.mono (by decide +kernel)
  have c_putCycPart' : Closed I Touched.putCycPart := hc.mono (by decide +kernel)
  have c_takeBank' : Closed I Touched.takeBank := hc.mono (by decide +kernel)
  have c_cpEvent' : Closed I Touched.cpEvent := hc.mono (by decide +kernel)
  refine ⟨_, rfl, ?_⟩
  try dsimp only
  repeat' first | (guard_target =ₐ Holds I s; exact hk) | simp only [id_eq] | with_reducible apply keeps_advance c_advance' | with_reducible apply keeps_putCycPart c_putCycPart' | with_reducible apply keeps_takeBank c_takeBank' | with_reducible apply keeps_wr | with_reducible apply keeps_cpEvent c_cpEvent' | with_reducible apply Keeps.foldl (I := I) | with_reducible apply Keeps.foldl₂ (I := I) | with_reducible apply Keeps.ite (I := I) | exact hc.mono (by decide +kernel) | split | intro s _ _ hk | intro s _ hk | intro s hk | with_reducible exact hk

theorem keeps_execRjStateWrite (hc : Closed I Touches.rjStateWrite) {s : State} (hk : Holds I s) (t : Instant) (p : Fin 16) (w : Fin 16) (value : Word) : ∃ u, execRjStateWrite t p w value s = .next u ∧ Holds I u := by
  have c_hostWrite' : Closed I Touched.hostWrite := hc.mono (by decide +kernel)
  have c_advance' : Closed I Touched.advance := hc.mono (by decide +kernel)
  have c_takeRejoin' : Closed I Touched.takeRejoin := hc.mono (by decide +kernel)
  refine ⟨_, rfl, ?_⟩
  try dsimp only
  repeat' first | (guard_target =ₐ Holds I s; exact hk) | simp only [id_eq] | with_reducible apply keeps_hostWrite c_hostWrite' | with_reducible apply keeps_advance c_advance' | with_reducible apply keeps_takeRejoin c_takeRejoin' | with_reducible apply Keeps.foldl (I := I) | with_reducible apply Keeps.foldl₂ (I := I) | with_reducible apply Keeps.ite (I := I) | split | intro s _ _ hk | intro s _ hk | intro s hk | with_reducible exact hk

theorem keeps_execScanClose (hc : Closed I Touches.scanClose) {s : State} (hk : Holds I s) (t : Instant) (p : Fin 16) (k : Fin 8) : ∃ u, execScanClose t p k s = .next u ∧ Holds I u := by
  have c_advance' : Closed I Touched.advance := hc.mono (by decide +kernel)
  have c_onSched' : Closed I Touched.onSched := hc.mono (by decide +kernel)
  have c_putCycTask' : Closed I Touched.putCycTask := hc.mono (by decide +kernel)
  refine ⟨_, rfl, ?_⟩
  try dsimp only
  repeat' first | (guard_target =ₐ Holds I s; exact hk) | simp only [id_eq] | with_reducible apply keeps_advance c_advance' | with_reducible apply keeps_onSched c_onSched' | with_reducible apply keeps_putCycTask c_putCycTask' | with_reducible apply keeps_wr | with_reducible apply Keeps.foldl (I := I) | with_reducible apply Keeps.foldl₂ (I := I) | with_reducible apply Keeps.ite (I := I) | exact hc.mono (by decide +kernel) | split | intro s _ _ hk | intro s _ hk | intro s hk | with_reducible exact hk

theorem keeps_execScanLatch (hc : Closed I Touches.scanLatch) {s : State} (hk : Holds I s) (t : Instant) (p : Fin 16) (k : Fin 8) : ∃ u, execScanLatch t p k s = .next u ∧ Holds I u := by
  have c_advance' : Closed I Touched.advance := hc.mono (by decide +kernel)
  have c_putCycTask' : Closed I Touched.putCycTask := hc.mono (by decide +kernel)
  have c_partStore' : Closed I Touched.partStore := hc.mono (by decide +kernel)
  have c_putInputs' : Closed I Touched.putInputs := hc.mono (by decide +kernel)
  have c_onSched' : Closed I Touched.onSched := hc.mono (by decide +kernel)
  have c_dispatch' : Closed I Touched.dispatch := hc.mono (by decide +kernel)
  have c_serve' : Closed I Touched.serve := hc.mono (by decide +kernel)
  have c_addClaim' : Closed I Touched.addClaim := hc.mono (by decide +kernel)
  refine ⟨_, rfl, ?_⟩
  try dsimp only
  repeat' first | (guard_target =ₐ Holds I s; exact hk) | simp only [id_eq] | with_reducible apply keeps_advance c_advance' | with_reducible apply keeps_roll | with_reducible apply keeps_putCycTask c_putCycTask' | with_reducible apply keeps_partStore c_partStore' | with_reducible apply keeps_putInputs c_putInputs' | with_reducible apply keeps_onSched c_onSched' | with_reducible apply keeps_dispatch c_dispatch' | with_reducible apply keeps_serve c_serve' | with_reducible apply keeps_addClaim c_addClaim' | with_reducible apply Keeps.foldl (I := I) | with_reducible apply Keeps.foldl₂ (I := I) | with_reducible apply Keeps.ite (I := I) | exact hc.mono (by decide +kernel) | split | intro s _ _ hk | intro s _ hk | intro s hk | with_reducible exact hk

theorem keeps_execScanRelease (hc : Closed I Touches.scanRelease) {s : State} (hk : Holds I s) (t : Instant) (p : Fin 16) (k : Fin 8) : ∃ u, execScanRelease t p k s = .next u ∧ Holds I u := by
  have c_advance' : Closed I Touched.advance := hc.mono (by decide +kernel)
  have c_putCycTask' : Closed I Touched.putCycTask := hc.mono (by decide +kernel)
  have c_takeRejoin' : Closed I Touched.takeRejoin := hc.mono (by decide +kernel)
  have c_putMapped' : Closed I Touched.putMapped := hc.mono (by decide +kernel)
  have c_partStop' : Closed I Touched.partStop := hc.mono (by decide +kernel)
  have c_dropRoot' : Closed I Touched.dropRoot := hc.mono (by decide +kernel)
  have c_cpEvent' : Closed I Touched.cpEvent := hc.mono (by decide +kernel)
  refine ⟨_, rfl, ?_⟩
  try dsimp only
  repeat' first | (guard_target =ₐ Holds I s; exact hk) | simp only [id_eq] | with_reducible apply keeps_advance c_advance' | with_reducible apply keeps_putCycTask c_putCycTask' | with_reducible apply keeps_takeRejoin c_takeRejoin' | with_reducible apply keeps_putMapped c_putMapped' | with_reducible apply keeps_partStop c_partStop' | with_reducible apply keeps_dropRoot c_dropRoot' | with_reducible apply keeps_bump | with_reducible apply keeps_cpEvent c_cpEvent' | with_reducible apply Keeps.foldl (I := I) | with_reducible apply Keeps.foldl₂ (I := I) | with_reducible apply Keeps.ite (I := I) | exact hc.mono (by decide +kernel) | split | intro s _ _ hk | intro s _ hk | intro s hk | with_reducible exact hk

end Sys2Proof.Machine
end

