-- ==== Sys2Proof/Laws/Keeps/Host.lean ====
section
/-! SUPPORT.  What the operations of Machine/Host.lean touch, and that they keep every property
closed under it. -/

namespace Sys2Proof.Machine

open Sys2Proof

set_option Elab.async false
set_option linter.unusedSimpArgs false
set_option linter.unusedVariables false
set_option linter.unusedTactic false
set_option linter.unreachableTactic false

variable {I : State → Prop}

def Touched.accept : Touch :=
  { regs := [F.HOST_EVENT], parts := [.host] }

theorem keeps_accept (hc : Closed I Touched.accept) {s : State} (hk : Holds I s) (obj : Nat) (eth : Bool) (e : List Byte) (inline : List Byte) : Holds I (State.accept s obj eth e inline) := by
  have c_putWaiting' : Closed I Touched.putWaiting := hc.mono (by decide +kernel)
  have c_takeSeq' : Closed I Touched.takeSeq := hc.mono (by decide +kernel)
  unfold State.accept
  try dsimp only
  repeat' first | (guard_target =ₐ Holds I s; exact hk) | simp only [id_eq] | with_reducible apply keeps_putWaiting c_putWaiting' | with_reducible apply keeps_takeSeq c_takeSeq' | with_reducible apply keeps_setBit | with_reducible apply Keeps.foldl (I := I) | with_reducible apply Keeps.foldl₂ (I := I) | with_reducible apply Keeps.ite (I := I) | exact hc.mono (by decide +kernel) | split | intro s _ _ hk | intro s _ hk | intro s hk | with_reducible exact hk

def Touched.consume : Touch :=
  { regs := [F.HOST_EVENT, F.MBX_STATE_CONS], parts := [.host] }

theorem keeps_consume (hc : Closed I Touched.consume) {s : State} (hk : Holds I s) (m : Nat) (a : Nat) : Holds I (State.consume s m a) := by
  have c_accept' : Closed I Touched.accept := hc.mono (by decide +kernel)
  induction a generalizing s m with
  | zero =>
    unfold State.consume
    try dsimp only
    repeat' first | (guard_target =ₐ Holds I s; exact hk) | simp only [id_eq] | with_reducible apply keeps_accept c_accept' | with_reducible apply keeps_wr | with_reducible apply Keeps.foldl (I := I) | with_reducible apply Keeps.foldl₂ (I := I) | with_reducible apply Keeps.ite (I := I) | exact hc.mono (by decide +kernel) | split | intro s _ _ hk | intro s _ hk | intro s hk | with_reducible exact hk
  | succ _ ih =>
    unfold State.consume
    try dsimp only
    repeat' first | (guard_target =ₐ Holds I s; exact hk) | simp only [id_eq] | with_reducible apply ih | with_reducible apply keeps_accept c_accept' | with_reducible apply keeps_wr | with_reducible apply Keeps.foldl (I := I) | with_reducible apply Keeps.foldl₂ (I := I) | with_reducible apply Keeps.ite (I := I) | exact hc.mono (by decide +kernel) | split | intro s _ _ hk | intro s _ hk | intro s hk | with_reducible exact hk | cases ‹_ :: _ = _ :: _›

def Touched.eccError : Touch :=
  { regs := [F.LC_STATUS_SHADOW_VALID, F.TR_STATUS_STAGE_STATE, F.TR_STATUS_PAUSE_CAUSE, F.TR_STATUS_DEFERRED,
      F.TR_STATUS_STATE, F.TR_EVENT_SPAWN_DROP, F.TR_EVENT_ABORT_IGNORED, F.TR_EVENT_CANCELLED,
      F.TR_STEPS_STAGED_STEP, F.TR_NEXT, F.TR_DECIDE_END_IDX, F.TR_DECIDE_DECIDED, F.TR_CANCEL_CNT,
      F.PG_STATUS_HELD, F.PG_SHADOW_TARGET, F.PG_SHADOW_VMAX, F.PG_SHADOW_WIN_M2, F.PG_SHADOW_WIN_M1,
      F.SK_STATUS_BURST_FREE_KIB, F.SK_EVENT, F.SKS_SEQ, F.SKS_STATUS_RESIDENT, F.SKS_OVERWRITE, F.LOOM_EVENT,
      F.LOOM_EVT_OVF, F.LOOM_OVF_ROUTE, F.ODO_OUT, F.ODO_OUT_SAT, F.VR_VALUE, F.SCHED_STATUS_FREE_SLOTS,
      F.SCHED_STATUS_INFLIGHT, F.SCHED_EVENT, F.SCHED_DISPATCH_CNT, F.SCHED_CANCEL_CNT, F.SCHED_CANCEL_LATE_CNT,
      F.SCHED_POISON_CNT, F.SCHED_EVT_UNBOUND_CNT, F.SCHED_TEMPLATE_MISS_CNT, F.PS_USED, F.PS_HELD, F.HQ_DEPTH,
      F.HQ_MAXDEPTH, F.HQ_PUSH_CNT, F.HQ_BUSY_CNT, F.SH_STATUS_STATE, F.SH_STATUS_SLOT, F.SH_LOAD, F.LVL_RDY_DEPTH,
      F.LVL_WAIT_AVG, F.LVL_HIST, F.FLOW_STATE_HELD, F.FLOW_STATE_IN_SERVICE, F.FLOW_STATE_HELD_CAUSE,
      F.FLOW_STATE_PENDING, F.CP_STATUS_STOP_CAUSE, F.CP_STATUS_STATE, F.CP_EVENT, F.CP_STOP_T,
      F.PWR_STATUS_WAKE_PEND, F.PWR_STATUS_LOOM_ON, F.PWR_STATUS_PHASE, F.PWR_STATUS_TARGET, F.PWR_STATUS_STATE,
      F.PWR_WAKE_SRC, F.PWR_WAKE_MERGED, F.PWR_RES, F.PWR_ENTRIES, F.SYS_FAULT, F.SYS_FAULT_LAST, F.SYS_FAULT_T,
      F.MEM_CE_SRAM, F.MEM_CE_MRAM, F.MEM_CE_DRAM, F.MEM_ECC_UE_CNT_SRAM, F.MEM_ECC_UE_CNT_MRAM,
      F.MEM_ECC_UE_CNT_DRAM, F.MEM_ECC_ADDR, F.MEM_ECC_LAST_MEM, F.MEM_ECC_LAST_UE, F.MSIX_PBA],
    parts := [.skein, .cells, .fio, .treadles, .gens, .loom, .sched, .cyc, .host, .power, .rings, .sram, .dram, .dlm, .freeCtr] }

theorem keeps_eccError (hc : Closed I Touched.eccError) {s : State} (hk : Holds I s) (h : ScrubHit) : Holds I (State.eccError s h) := by
  have c_sysFault' : Closed I Touched.sysFault := hc.mono (by decide +kernel)
  have c_partStop' : Closed I Touched.partStop := hc.mono (by decide +kernel)
  have h1 : ∀ m, Closed I (memFields m).1.touch := by intro m; unfold memFields; split <;> exact hc.mono (by decide +kernel)
  have h2 : ∀ m, Closed I (memFields m).2.1.touch := by intro m; unfold memFields; split <;> exact hc.mono (by decide +kernel)
  unfold State.eccError
  try dsimp only
  repeat' first | (guard_target =ₐ Holds I s; exact hk) | simp only [id_eq] | with_reducible apply keeps_wr | with_reducible apply keeps_each | with_reducible apply keeps_sysFault c_sysFault' | with_reducible apply keeps_bump | with_reducible apply keeps_partStop c_partStop' | with_reducible apply Keeps.foldl (I := I) | with_reducible apply Keeps.foldl₂ (I := I) | with_reducible apply Keeps.ite (I := I) | exact hc.mono (by decide +kernel) | exact h1 _ | exact h2 _ | split | intro s _ _ hk | intro s _ hk | intro s hk | with_reducible exact hk

def Touched.latchPv : Touch :=
  { parts := [.host, .answer] }

theorem keeps_latchPv (hc : Closed I Touched.latchPv) {s : State} (hk : Holds I s) (r : Requester) (p : Nat) : Holds I (State.latchPv s r p) := by
  have c_answerWord' : Closed I Touched.answerWord := hc.mono (by decide +kernel)
  have c_onHost' : Closed I Touched.onHost := hc.mono (by decide +kernel)
  unfold State.latchPv
  try dsimp only
  repeat' first | (guard_target =ₐ Holds I s; exact hk) | simp only [id_eq] | with_reducible apply keeps_answerWord c_answerWord' | with_reducible apply keeps_onHost c_onHost' | with_reducible apply Keeps.foldl (I := I) | with_reducible apply Keeps.foldl₂ (I := I) | with_reducible apply Keeps.ite (I := I) | split | intro s _ _ hk | intro s _ hk | intro s hk | with_reducible exact hk

def Touched.refreshView : Touch :=
  { regs := [F.PV_STATE_ACTIVE, F.PV_STATE_TREADLE, F.PV_STATE_PROGRAM, F.PV_STEP, F.PV_T] }

theorem keeps_refreshView (hc : Closed I Touched.refreshView) {s : State} (hk : Holds I s) (p : Nat) : Holds I (State.refreshView s p) := by
  unfold State.refreshView
  try dsimp only
  repeat' first | (guard_target =ₐ Holds I s; exact hk) | simp only [id_eq] | with_reducible apply keeps_wr | with_reducible apply keeps_wrT | with_reducible apply Keeps.foldl (I := I) | with_reducible apply Keeps.foldl₂ (I := I) | with_reducible apply Keeps.ite (I := I) | exact hc.mono (by decide +kernel) | split | intro s _ _ hk | intro s _ hk | intro s hk | with_reducible exact hk

def Touched.refuseAccess : Touch :=
  { regs := [F.SEC_EVENT, F.SEC_HOST_REFUSE_CNT], parts := [.answer] }

theorem keeps_refuseAccess (hc : Closed I Touched.refuseAccess) {s : State} (hk : Holds I s) (n : Nat) : Holds I (State.refuseAccess s n) := by
  have c_reply' : Closed I Touched.reply := hc.mono (by decide +kernel)
  have c_secEvent' : Closed I Touched.secEvent := hc.mono (by decide +kernel)
  unfold State.refuseAccess
  try dsimp only
  repeat' first | (guard_target =ₐ Holds I s; exact hk) | simp only [id_eq] | with_reducible apply keeps_reply c_reply' | with_reducible apply keeps_bump | with_reducible apply keeps_secEvent c_secEvent' | with_reducible apply Keeps.foldl (I := I) | with_reducible apply Keeps.foldl₂ (I := I) | with_reducible apply Keeps.ite (I := I) | exact hc.mono (by decide +kernel) | split | intro s _ _ hk | intro s _ hk | intro s hk | with_reducible exact hk

def Touched.takeTelemetry : Touch :=
  { regs := [F.AVS_STATUS_READ_MV, F.TJ_NOW, F.TJ_PEAK, F.PMB_ICORE, F.PMB_STATUS] }

theorem keeps_takeTelemetry (hc : Closed I Touched.takeTelemetry) {s : State} (hk : Holds I s) (x : PmbRead) : Holds I (State.takeTelemetry s x) := by
  unfold State.takeTelemetry
  try dsimp only
  repeat' first | (guard_target =ₐ Holds I s; exact hk) | simp only [id_eq] | with_reducible apply keeps_wr | with_reducible apply Keeps.foldl (I := I) | with_reducible apply Keeps.foldl₂ (I := I) | with_reducible apply Keeps.ite (I := I) | exact hc.mono (by decide +kernel) | split | intro s _ _ hk | intro s _ hk | intro s hk | with_reducible exact hk

theorem keeps_execBar2Access (hc : Closed I Touches.bar2Access) {s : State} (hk : Holds I s) (t : Instant) (sram : Bool) (offset : Fin 1073741824) (len : Nat) (data : Option (List Byte)) : ∃ u, execBar2Access t sram offset len data s = .next u ∧ Holds I u := by
  have c_dram : Closed I { parts := [.dram] } := hc.mono (by decide +kernel)
  have c_advance' : Closed I Touched.advance := hc.mono (by decide +kernel)
  have c_discard' : Closed I Touched.discard := hc.mono (by decide +kernel)
  have c_refuseAccess' : Closed I Touched.refuseAccess := hc.mono (by decide +kernel)
  have c_reply' : Closed I Touched.reply := hc.mono (by decide +kernel)
  refine ⟨_, rfl, ?_⟩
  try dsimp only
  repeat' first | (guard_target =ₐ Holds I s; exact hk) | simp only [ic_mk, id_eq] | with_reducible refine ic_dram c_dram (ic_fold ?_) | with_reducible apply keeps_advance c_advance' | with_reducible apply keeps_discard c_discard' | with_reducible apply keeps_refuseAccess c_refuseAccess' | with_reducible apply keeps_reply c_reply' | with_reducible apply Keeps.foldl (I := I) | with_reducible apply Keeps.foldl₂ (I := I) | with_reducible apply Keeps.ite (I := I) | split | intro s _ _ hk | intro s _ hk | intro s hk | with_reducible exact hk

theorem keeps_execCommandDatagram (hc : Closed I Touches.commandDatagram) {s : State} (hk : Holds I s) (t : Instant) (q : Fin 2) (port : BitVec 16) (src : Word) (entry : List Byte) (data : List Byte) : ∃ u, execCommandDatagram t q port src entry data s = .next u ∧ Holds I u := by
  have c_advance' : Closed I Touched.advance := hc.mono (by decide +kernel)
  have c_accept' : Closed I Touched.accept := hc.mono (by decide +kernel)
  have c_internalWake' : Closed I Touched.internalWake := hc.mono (by decide +kernel)
  have c_drainRefused' : Closed I Touched.drainRefused := hc.mono (by decide +kernel)
  have c_draw' : Closed I Touches.draw := hc.mono (by decide +kernel)
  have c_onHost' : Closed I Touched.onHost := hc.mono (by decide +kernel)
  refine ⟨_, rfl, ?_⟩
  try dsimp only
  repeat' first | (guard_target =ₐ Holds I s; exact hk) | simp only [id_eq] | with_reducible apply keeps_advance c_advance' | with_reducible apply keeps_accept c_accept' | with_reducible apply keeps_internalWake c_internalWake' | with_reducible apply keeps_drainRefused c_drainRefused' | with_reducible apply keeps_draw c_draw' | with_reducible apply keeps_onHost c_onHost' | with_reducible apply keeps_bump | with_reducible apply keeps_setBit | with_reducible apply Keeps.foldl (I := I) | with_reducible apply Keeps.foldl₂ (I := I) | with_reducible apply Keeps.ite (I := I) | exact hc.mono (by decide +kernel) | split | intro s _ _ hk | intro s _ hk | intro s hk | with_reducible exact hk

theorem keeps_execLifeUpdate (hc : Closed I Touches.lifeUpdate) {s : State} (hk : Holds I s) (t : Instant) (hour : Bool) (tjAvg : BitVec 16) (mvAvg : BitVec 12) : ∃ u, execLifeUpdate t hour tjAvg mvAvg s = .next u ∧ Holds I u := by
  have c_advance' : Closed I Touched.advance := hc.mono (by decide +kernel)
  refine ⟨_, rfl, ?_⟩
  try dsimp only
  repeat' first | (guard_target =ₐ Holds I s; exact hk) | simp only [id_eq] | with_reducible apply keeps_when | with_reducible apply keeps_advance c_advance' | with_reducible apply keeps_roll | with_reducible apply keeps_wr | with_reducible apply Keeps.foldl (I := I) | with_reducible apply Keeps.foldl₂ (I := I) | with_reducible apply Keeps.ite (I := I) | exact hc.mono (by decide +kernel) | split | intro s _ _ hk | intro s _ hk | intro s hk | with_reducible exact hk

theorem keeps_execMbxDb (hc : Closed I Touches.mbxDb) {s : State} (hk : Holds I s) (t : Instant) (m : Fin 17) (value : Word) : ∃ u, execMbxDb t m value s = .next u ∧ Holds I u := by
  have c_hostWrite' : Closed I Touched.hostWrite := hc.mono (by decide +kernel)
  have c_advance' : Closed I Touched.advance := hc.mono (by decide +kernel)
  have c_internalWake' : Closed I Touched.internalWake := hc.mono (by decide +kernel)
  have c_consume' : Closed I Touched.consume := hc.mono (by decide +kernel)
  have c_drainRefused' : Closed I Touched.drainRefused := hc.mono (by decide +kernel)
  refine ⟨_, rfl, ?_⟩
  try dsimp only
  repeat' first | (guard_target =ₐ Holds I s; exact hk) | simp only [id_eq] | with_reducible apply keeps_hostWrite c_hostWrite' | with_reducible apply keeps_advance c_advance' | with_reducible apply keeps_internalWake c_internalWake' | with_reducible apply keeps_wr | with_reducible apply keeps_consume c_consume' | with_reducible apply keeps_drainRefused c_drainRefused' | with_reducible apply Keeps.foldl (I := I) | with_reducible apply Keeps.foldl₂ (I := I) | with_reducible apply Keeps.ite (I := I) | exact hc.mono (by decide +kernel) | split | intro s _ _ hk | intro s _ hk | intro s hk | with_reducible exact hk

theorem keeps_execMgmtDiverge (hc : Closed I Touches.mgmtDiverge) {s : State} (hk : Holds I s) (t : Instant) (p : Fin 16) : ∃ u, execMgmtDiverge t p s = .next u ∧ Holds I u := by
  have c_advance' : Closed I Touched.advance := hc.mono (by decide +kernel)
  have c_interrupt' : Closed I Touched.interrupt := hc.mono (by decide +kernel)
  have c_refreshView' : Closed I Touched.refreshView := hc.mono (by decide +kernel)
  have c_sysFault' : Closed I Touched.sysFault := hc.mono (by decide +kernel)
  refine ⟨_, rfl, ?_⟩
  try dsimp only
  repeat' first | (guard_target =ₐ Holds I s; exact hk) | simp only [id_eq] | with_reducible apply keeps_advance c_advance' | with_reducible apply keeps_interrupt c_interrupt' | with_reducible apply keeps_bump | with_reducible apply keeps_setBit | with_reducible apply keeps_refreshView c_refreshView' | with_reducible apply keeps_sysFault c_sysFault' | with_reducible apply Keeps.foldl (I := I) | with_reducible apply Keeps.foldl₂ (I := I) | with_reducible apply Keeps.ite (I := I) | exact hc.mono (by decide +kernel) | split | intro s _ _ hk | intro s _ hk | intro s hk | with_reducible exact hk

theorem keeps_execMwrite (hc : Closed I Touches.mwrite) {s : State} (hk : Holds I s) (t : Instant) (obj : Fin 17) (offset : Word) (data : List Byte) : ∃ u, execMwrite t obj offset data s = .next u ∧ Holds I u := by
  have c_dram : Closed I { parts := [.dram] } := hc.mono (by decide +kernel)
  have c_hostCommand' : Closed I Touched.hostCommand := hc.mono (by decide +kernel)
  have c_advance' : Closed I Touched.advance := hc.mono (by decide +kernel)
  have c_reply' : Closed I Touched.reply := hc.mono (by decide +kernel)
  refine ⟨_, rfl, ?_⟩
  try dsimp only
  repeat' first | (guard_target =ₐ Holds I s; exact hk) | simp only [ic_mk, id_eq] | with_reducible refine ic_dram c_dram (ic_fold ?_) | with_reducible apply keeps_hostCommand c_hostCommand' | with_reducible apply keeps_advance c_advance' | with_reducible apply keeps_reply c_reply' | with_reducible apply Keeps.foldl (I := I) | with_reducible apply Keeps.foldl₂ (I := I) | with_reducible apply Keeps.ite (I := I) | split | intro s _ _ hk | intro s _ hk | intro s hk | with_reducible exact hk

theorem keeps_execOdoClear (hc : Closed I Touches.odoClear) {s : State} (hk : Holds I s) (t : Instant) (p : Fin 16) (kind : Word) (index : Word) : ∃ u, execOdoClear t p kind index s = .next u ∧ Holds I u := by
  have c_hostCommand' : Closed I Touched.hostCommand := hc.mono (by decide +kernel)
  have c_advance' : Closed I Touched.advance := hc.mono (by decide +kernel)
  have c_reply' : Closed I Touched.reply := hc.mono (by decide +kernel)
  have c_event' : Closed I Touched.event := hc.mono (by decide +kernel)
  have hm : ∀ (s : State) (k i : Nat) (f : Fld) (o : Option Nat), s.odometer k i = some (f, o) → Closed I f.touch := by
    intro s k i f o h
    unfold State.odometer at h
    (repeat' split at h) <;> cases h <;> exact hc.mono (by decide +kernel)
  refine ⟨_, rfl, ?_⟩
  try dsimp only
  repeat' first | (guard_target =ₐ Holds I s; exact hk) | simp only [id_eq] | with_reducible apply keeps_hostCommand c_hostCommand' | with_reducible apply keeps_advance c_advance' | with_reducible apply keeps_wr | with_reducible apply keeps_reply c_reply' | with_reducible apply keeps_event c_event' | with_reducible apply Keeps.foldl (I := I) | with_reducible apply Keeps.foldl₂ (I := I) | with_reducible apply Keeps.ite (I := I) | exact hc.mono (by decide +kernel) | exact hm _ _ _ _ _ (by assumption) | split | intro s _ _ hk | intro s _ hk | intro s hk | with_reducible exact hk

theorem keeps_execPmbAlert (hc : Closed I Touches.pmbAlert) {s : State} (hk : Holds I s) (t : Instant) (x : PmbRead) : ∃ u, execPmbAlert t x s = .next u ∧ Holds I u := by
  have c_takeTelemetry' : Closed I Touched.takeTelemetry := hc.mono (by decide +kernel)
  have c_advance' : Closed I Touched.advance := hc.mono (by decide +kernel)
  refine ⟨_, rfl, ?_⟩
  try dsimp only
  repeat' first | (guard_target =ₐ Holds I s; exact hk) | simp only [id_eq] | with_reducible apply keeps_takeTelemetry c_takeTelemetry' | with_reducible apply keeps_advance c_advance' | with_reducible apply Keeps.foldl (I := I) | with_reducible apply Keeps.foldl₂ (I := I) | with_reducible apply Keeps.ite (I := I) | split | intro s _ _ hk | intro s _ hk | intro s hk | with_reducible exact hk

theorem keeps_execPmbusPoll (hc : Closed I Touches.pmbusPoll) {s : State} (hk : Holds I s) (t : Instant) (x : PmbRead) : ∃ u, execPmbusPoll t x s = .next u ∧ Holds I u := by
  have c_takeTelemetry' : Closed I Touched.takeTelemetry := hc.mono (by decide +kernel)
  have c_advance' : Closed I Touched.advance := hc.mono (by decide +kernel)
  refine ⟨_, rfl, ?_⟩
  try dsimp only
  repeat' first | (guard_target =ₐ Holds I s; exact hk) | simp only [id_eq] | with_reducible apply keeps_takeTelemetry c_takeTelemetry' | with_reducible apply keeps_advance c_advance' | with_reducible apply Keeps.foldl (I := I) | with_reducible apply Keeps.foldl₂ (I := I) | with_reducible apply Keeps.ite (I := I) | split | intro s _ _ hk | intro s _ hk | intro s hk | with_reducible exact hk

theorem keeps_execPtpEventMessage (hc : Closed I Touches.ptpEventMessage) {s : State} (hk : Holds I s) (t : Instant) (q : Fin 2) (ingress : Bool) (served : Option (BitVec 2 × Word)) : ∃ u, execPtpEventMessage t q ingress served s = .next u ∧ Holds I u := by
  have c_advance' : Closed I Touched.advance := hc.mono (by decide +kernel)
  have c_onHost' : Closed I Touched.onHost := hc.mono (by decide +kernel)
  refine ⟨_, rfl, ?_⟩
  try dsimp only
  repeat' first | (guard_target =ₐ Holds I s; exact hk) | simp only [id_eq] | with_reducible apply keeps_advance c_advance' | with_reducible apply keeps_onHost c_onHost' | with_reducible apply keeps_wr | with_reducible apply Keeps.foldl (I := I) | with_reducible apply Keeps.foldl₂ (I := I) | with_reducible apply Keeps.ite (I := I) | exact hc.mono (by decide +kernel) | split | intro s _ _ hk | intro s _ hk | intro s hk | with_reducible exact hk

theorem keeps_execPvStateRead (hc : Closed I Touches.pvStateRead) {s : State} (hk : Holds I s) (t : Instant) (r : Requester) (p : Fin 16) (refresh : Bool) : ∃ u, execPvStateRead t r p refresh s = .next u ∧ Holds I u := by
  have c_latchPv' : Closed I Touched.latchPv := hc.mono (by decide +kernel)
  have c_advance' : Closed I Touched.advance := hc.mono (by decide +kernel)
  have c_refreshView' : Closed I Touched.refreshView := hc.mono (by decide +kernel)
  refine ⟨_, rfl, ?_⟩
  try dsimp only
  repeat' first | (guard_target =ₐ Holds I s; exact hk) | simp only [id_eq] | with_reducible apply keeps_latchPv c_latchPv' | with_reducible apply keeps_when | with_reducible apply keeps_advance c_advance' | with_reducible apply keeps_refreshView c_refreshView' | with_reducible apply Keeps.foldl (I := I) | with_reducible apply Keeps.foldl₂ (I := I) | with_reducible apply Keeps.ite (I := I) | split | intro s _ _ hk | intro s _ hk | intro s hk | with_reducible exact hk

theorem keeps_execScrub (hc : Closed I Touches.scrub) {s : State} (hk : Holds I s) (t : Instant) (hits : List ScrubHit) : ∃ u, execScrub t hits s = .next u ∧ Holds I u := by
  have c_eccError' : Closed I Touched.eccError := hc.mono (by decide +kernel)
  have c_advance' : Closed I Touched.advance := hc.mono (by decide +kernel)
  refine ⟨_, rfl, ?_⟩
  try dsimp only
  repeat' first | (guard_target =ₐ Holds I s; exact hk) | simp only [id_eq] | with_reducible apply keeps_eccError c_eccError' | with_reducible apply keeps_advance c_advance' | with_reducible apply Keeps.foldl (I := I) | with_reducible apply Keeps.foldl₂ (I := I) | with_reducible apply Keeps.ite (I := I) | split | intro s _ _ hk | intro s _ hk | intro s hk | with_reducible exact hk

theorem keeps_execView (hc : Closed I Touches.view) {s : State} (hk : Holds I s) (t : Instant) (p : Fin 16) (refresh : Bool) : ∃ u, execView t p refresh s = .next u ∧ Holds I u := by
  have c_hostCommand' : Closed I Touched.hostCommand := hc.mono (by decide +kernel)
  have c_advance' : Closed I Touched.advance := hc.mono (by decide +kernel)
  have c_refreshView' : Closed I Touched.refreshView := hc.mono (by decide +kernel)
  have c_reply' : Closed I Touched.reply := hc.mono (by decide +kernel)
  refine ⟨_, rfl, ?_⟩
  try dsimp only
  repeat' first | (guard_target =ₐ Holds I s; exact hk) | simp only [id_eq] | with_reducible apply keeps_hostCommand c_hostCommand' | with_reducible apply keeps_advance c_advance' | with_reducible apply keeps_when | with_reducible apply keeps_refreshView c_refreshView' | with_reducible apply keeps_reply c_reply' | with_reducible apply Keeps.foldl (I := I) | with_reducible apply Keeps.foldl₂ (I := I) | with_reducible apply Keeps.ite (I := I) | split | intro s _ _ hk | intro s _ hk | intro s hk | with_reducible exact hk

end Sys2Proof.Machine
end

