-- ==== Sys2Proof/Laws/Keeps/IslandOps.lean ====
section
/-! SUPPORT.  What the operations of Machine/IslandOps.lean touch, and that they keep every property
closed under it. -/

namespace Sys2Proof.Machine

open Sys2Proof

set_option Elab.async false
set_option linter.unusedSimpArgs false
set_option linter.unusedVariables false
set_option linter.unusedTactic false
set_option linter.unreachableTactic false

variable {I : State → Prop}

def Touched.drive : Touch :=
  { regs := [F.SAF_SOUT_MATRIX, F.SAF_SOUT_PERMIT, F.SAF_SOUT_STATE_ENERGISED, F.PWR_STATUS_WAKE_PEND, F.PWR_STATUS_PHASE,
      F.PWR_WAKE_SRC, F.PWR_WAKE_MERGED],
    parts := [.power] }

theorem keeps_drive (hc : Closed I Touched.drive) {s : State} (hk : Holds I s) : Holds I (State.drive s) := by
  have c_internalWake' : Closed I Touched.internalWake := hc.mono (by decide +kernel)
  unfold State.drive
  try dsimp only
  repeat' first | (guard_target =ₐ Holds I s; exact hk) | simp only [id_eq] | with_reducible apply keeps_wr | with_reducible apply keeps_internalWake c_internalWake' | with_reducible apply Keeps.foldl (I := I) | with_reducible apply Keeps.foldl₂ (I := I) | with_reducible apply Keeps.ite (I := I) | exact hc.mono (by decide +kernel) | split | intro s _ _ hk | intro s _ hk | intro s hk | with_reducible exact hk

def Touched.onIsland : Touch :=
  { parts := [.island] }

theorem keeps_onIsland (hc : Closed I Touched.onIsland) {s : State} (hk : Holds I s) (f : Island → Island) : Holds I (State.onIsland s f) := by
  have c_island : Closed I { parts := [.island] } := hc.mono (by decide +kernel)
  unfold State.onIsland
  try dsimp only
  repeat' first | (guard_target =ₐ Holds I s; exact hk) | simp only [ic_mk, id_eq] | with_reducible refine ic_island c_island (ic_fold ?_) | with_reducible apply Keeps.foldl (I := I) | with_reducible apply Keeps.foldl₂ (I := I) | with_reducible apply Keeps.ite (I := I) | split | intro s _ _ hk | intro s _ hk | intro s hk | with_reducible exact hk

def Touched.evalTerms : Touch :=
  { regs := [F.SAF_TERMS], parts := [.island] }

theorem keeps_evalTerms (hc : Closed I Touched.evalTerms) {s : State} (hk : Holds I s) : Holds I (State.evalTerms s) := by
  have c_onIsland' : Closed I Touched.onIsland := hc.mono (by decide +kernel)
  unfold State.evalTerms
  try dsimp only
  repeat' first | (guard_target =ₐ Holds I s; exact hk) | simp only [id_eq] | with_reducible apply keeps_each | with_reducible apply keeps_onIsland c_onIsland' | with_reducible apply keeps_wr | with_reducible apply Keeps.foldl (I := I) | with_reducible apply Keeps.foldl₂ (I := I) | with_reducible apply Keeps.ite (I := I) | exact hc.mono (by decide +kernel) | split | intro s _ _ hk | intro s _ hk | intro s hk | with_reducible exact hk

def Touched.putPhase : Touch :=
  { regs := [F.SK_STATUS_BURST_FREE_KIB, F.SK_EVENT, F.SKS_SEQ, F.SKS_STATUS_RESIDENT, F.SKS_OVERWRITE,
      F.SAF_STATUS_START_BLOCKED, F.SAF_STATUS_PHASE, F.SAF_PHASE_T, F.SAF_OVC_REMAIN_S, F.PWR_STATUS_WAKE_PEND,
      F.PWR_STATUS_PHASE, F.PWR_WAKE_SRC, F.PWR_WAKE_MERGED, F.MSIX_PBA],
    parts := [.skein, .island, .host, .power] }

theorem keeps_putPhase (hc : Closed I Touched.putPhase) {s : State} (hk : Holds I s) (ph : Nat) : Holds I (State.putPhase s ph) := by
  have c_interrupt' : Closed I Touched.interrupt := hc.mono (by decide +kernel)
  have c_onIsland' : Closed I Touched.onIsland := hc.mono (by decide +kernel)
  have c_internalWake' : Closed I Touched.internalWake := hc.mono (by decide +kernel)
  have c_event' : Closed I Touched.event := hc.mono (by decide +kernel)
  unfold State.putPhase
  try dsimp only
  repeat' first | (guard_target =ₐ Holds I s; exact hk) | simp only [id_eq] | with_reducible apply keeps_wr | with_reducible apply keeps_wrT | with_reducible apply keeps_interrupt c_interrupt' | with_reducible apply keeps_onIsland c_onIsland' | with_reducible apply keeps_internalWake c_internalWake' | with_reducible apply keeps_event c_event' | with_reducible apply Keeps.foldl (I := I) | with_reducible apply Keeps.foldl₂ (I := I) | with_reducible apply Keeps.ite (I := I) | exact hc.mono (by decide +kernel) | split | intro s _ _ hk | intro s _ hk | intro s hk | with_reducible exact hk

def Touched.handover : Touch :=
  { regs := [F.SK_STATUS_BURST_FREE_KIB, F.SK_EVENT, F.SKS_SEQ, F.SKS_STATUS_RESIDENT, F.SKS_OVERWRITE,
      F.SAF_STATUS_START_BLOCKED, F.SAF_STATUS_PHASE, F.SAF_PHASE_T, F.SAF_OVC_REMAIN_S, F.SAF_SOUT_MATRIX,
      F.SAF_SOUT_PERMIT, F.SAF_SOUT_STATE_ENERGISED, F.PWR_STATUS_WAKE_PEND, F.PWR_STATUS_PHASE, F.PWR_WAKE_SRC,
      F.PWR_WAKE_MERGED, F.MSIX_PBA],
    parts := [.skein, .island, .host, .power] }

theorem keeps_handover (hc : Closed I Touched.handover) {s : State} (hk : Holds I s) : Holds I (State.handover s) := by
  have c_drive' : Closed I Touched.drive := hc.mono (by decide +kernel)
  have c_putPhase' : Closed I Touched.putPhase := hc.mono (by decide +kernel)
  unfold State.handover
  try dsimp only
  repeat' first | (guard_target =ₐ Holds I s; exact hk) | simp only [id_eq] | with_reducible apply keeps_drive c_drive' | with_reducible apply keeps_putPhase c_putPhase' | with_reducible apply keeps_wr | with_reducible apply Keeps.foldl (I := I) | with_reducible apply Keeps.foldl₂ (I := I) | with_reducible apply Keeps.ite (I := I) | exact hc.mono (by decide +kernel) | split | intro s _ _ hk | intro s _ hk | intro s hk | with_reducible exact hk

def Touched.showWait : Touch :=
  { regs := [F.SAF_STATUS_START_WAIT] }

theorem keeps_showWait (hc : Closed I Touched.showWait) {s : State} (hk : Holds I s) : Holds I (State.showWait s) := by
  unfold State.showWait
  try dsimp only
  repeat' first | (guard_target =ₐ Holds I s; exact hk) | simp only [id_eq] | with_reducible apply keeps_wr | with_reducible apply Keeps.foldl (I := I) | with_reducible apply Keeps.foldl₂ (I := I) | with_reducible apply Keeps.ite (I := I) | exact hc.mono (by decide +kernel) | split | intro s _ _ hk | intro s _ hk | intro s hk | with_reducible exact hk

def Touched.restartIsland : Touch :=
  { regs := [F.SAF_STATUS_START_WAIT, F.SAF_STATUS_PROG_OK], parts := [.island] }

theorem keeps_restartIsland (hc : Closed I Touched.restartIsland) {s : State} (hk : Holds I s) : Holds I (State.restartIsland s) := by
  have c_onIsland' : Closed I Touched.onIsland := hc.mono (by decide +kernel)
  have c_showWait' : Closed I Touched.showWait := hc.mono (by decide +kernel)
  unfold State.restartIsland
  try dsimp only
  repeat' first | (guard_target =ₐ Holds I s; exact hk) | simp only [id_eq] | with_reducible apply keeps_onIsland c_onIsland' | with_reducible apply keeps_showWait c_showWait' | with_reducible apply keeps_wr | with_reducible apply Keeps.foldl (I := I) | with_reducible apply Keeps.foldl₂ (I := I) | with_reducible apply Keeps.ite (I := I) | exact hc.mono (by decide +kernel) | split | intro s _ _ hk | intro s _ hk | intro s hk | with_reducible exact hk

def Touched.toStart : Touch :=
  { regs := [F.SK_STATUS_BURST_FREE_KIB, F.SK_EVENT, F.SKS_SEQ, F.SKS_STATUS_RESIDENT, F.SKS_OVERWRITE,
      F.SAF_STATUS_START_WAIT, F.SAF_STATUS_START_BLOCKED, F.SAF_STATUS_OVC_ARMED, F.SAF_STATUS_PHASE,
      F.SAF_PHASE_T, F.SAF_OVC_REMAIN_S, F.SAF_SOUT_MATRIX, F.SAF_SOUT_PERMIT, F.SAF_SOUT_STATE_ENERGISED,
      F.PWR_STATUS_WAKE_PEND, F.PWR_STATUS_PHASE, F.PWR_WAKE_SRC, F.PWR_WAKE_MERGED, F.MSIX_PBA],
    parts := [.skein, .island, .host, .power] }

theorem keeps_toStart (hc : Closed I Touched.toStart) {s : State} (hk : Holds I s) : Holds I (State.toStart s) := by
  have c_onIsland' : Closed I Touched.onIsland := hc.mono (by decide +kernel)
  have c_showWait' : Closed I Touched.showWait := hc.mono (by decide +kernel)
  have c_drive' : Closed I Touched.drive := hc.mono (by decide +kernel)
  have c_putPhase' : Closed I Touched.putPhase := hc.mono (by decide +kernel)
  unfold State.toStart
  try dsimp only
  repeat' first | (guard_target =ₐ Holds I s; exact hk) | simp only [id_eq] | with_reducible apply keeps_onIsland c_onIsland' | with_reducible apply keeps_wr | with_reducible apply keeps_showWait c_showWait' | with_reducible apply keeps_drive c_drive' | with_reducible apply keeps_putPhase c_putPhase' | with_reducible apply Keeps.foldl (I := I) | with_reducible apply Keeps.foldl₂ (I := I) | with_reducible apply Keeps.ite (I := I) | exact hc.mono (by decide +kernel) | split | intro s _ _ hk | intro s _ hk | intro s hk | with_reducible exact hk

def Touched.islandLost : Touch :=
  { regs := [F.SK_STATUS_BURST_FREE_KIB, F.SK_EVENT, F.SKS_SEQ, F.SKS_STATUS_RESIDENT, F.SKS_OVERWRITE,
      F.SAF_STATUS_START_WAIT, F.SAF_STATUS_PROG_OK, F.SAF_STATUS_START_BLOCKED, F.SAF_STATUS_OVC_ARMED,
      F.SAF_STATUS_PHASE, F.SAF_PHASE_T, F.SAF_OVC_REMAIN_S, F.SAF_CNT_OVC_ENTRIES, F.SAF_SOUT_MATRIX,
      F.SAF_SOUT_PERMIT, F.SAF_SOUT_STATE_ENERGISED, F.PWR_STATUS_WAKE_PEND, F.PWR_STATUS_PHASE, F.PWR_WAKE_SRC,
      F.PWR_WAKE_MERGED, F.MSIX_PBA],
    parts := [.skein, .island, .host, .power] }

theorem keeps_islandLost (hc : Closed I Touched.islandLost) {s : State} (hk : Holds I s) : Holds I (State.islandLost s) := by
  have c_restartIsland' : Closed I Touched.restartIsland := hc.mono (by decide +kernel)
  have c_drive' : Closed I Touched.drive := hc.mono (by decide +kernel)
  have c_putPhase' : Closed I Touched.putPhase := hc.mono (by decide +kernel)
  have c_toStart' : Closed I Touched.toStart := hc.mono (by decide +kernel)
  unfold State.islandLost
  try dsimp only
  repeat' first | (guard_target =ₐ Holds I s; exact hk) | simp only [id_eq] | with_reducible apply keeps_restartIsland c_restartIsland' | with_reducible apply keeps_drive c_drive' | with_reducible apply keeps_putPhase c_putPhase' | with_reducible apply keeps_roll | with_reducible apply keeps_wr | with_reducible apply keeps_toStart c_toStart' | with_reducible apply Keeps.foldl (I := I) | with_reducible apply Keeps.foldl₂ (I := I) | with_reducible apply Keeps.ite (I := I) | exact hc.mono (by decide +kernel) | split | intro s _ _ hk | intro s _ hk | intro s hk | with_reducible exact hk

def Touched.showSins : Touch :=
  { regs := [F.SAF_SIN] }

theorem keeps_showSins (hc : Closed I Touched.showSins) {s : State} (hk : Holds I s) : Holds I (State.showSins s) := by
  unfold State.showSins
  try dsimp only
  repeat' first | (guard_target =ₐ Holds I s; exact hk) | simp only [id_eq] | with_reducible apply keeps_wr | with_reducible apply Keeps.foldl (I := I) | with_reducible apply Keeps.foldl₂ (I := I) | with_reducible apply Keeps.ite (I := I) | exact hc.mono (by decide +kernel) | split | intro s _ _ hk | intro s _ hk | intro s hk | with_reducible exact hk

def Touched.latchSin : Touch :=
  { regs := [F.SK_STATUS_BURST_FREE_KIB, F.SK_EVENT, F.SKS_SEQ, F.SKS_STATUS_RESIDENT, F.SKS_OVERWRITE, F.SAF_SIN,
      F.SAF_SIN_FAULT, F.SIN_CFG_FAULT_CAUSE, F.SYS_FAULT, F.SYS_FAULT_LAST, F.SYS_FAULT_T, F.MSIX_PBA],
    parts := [.skein, .island, .host] }

theorem keeps_latchSin (hc : Closed I Touched.latchSin) {s : State} (hk : Holds I s) (i : Nat) (cause : Nat) : Holds I (State.latchSin s i cause) := by
  have c_onIsland' : Closed I Touched.onIsland := hc.mono (by decide +kernel)
  have c_showSins' : Closed I Touched.showSins := hc.mono (by decide +kernel)
  have c_event' : Closed I Touched.event := hc.mono (by decide +kernel)
  have c_sysFault' : Closed I Touched.sysFault := hc.mono (by decide +kernel)
  unfold State.latchSin
  try dsimp only
  repeat' first | (guard_target =ₐ Holds I s; exact hk) | simp only [id_eq] | with_reducible apply keeps_wr | with_reducible apply keeps_setBit | with_reducible apply keeps_onIsland c_onIsland' | with_reducible apply keeps_showSins c_showSins' | with_reducible apply keeps_event c_event' | with_reducible apply keeps_sysFault c_sysFault' | with_reducible apply Keeps.foldl (I := I) | with_reducible apply Keeps.foldl₂ (I := I) | with_reducible apply Keeps.ite (I := I) | exact hc.mono (by decide +kernel) | split | intro s _ _ hk | intro s _ hk | intro s hk | with_reducible exact hk

def Touched.matrixFault : Touch :=
  { regs := [F.SK_STATUS_BURST_FREE_KIB, F.SK_EVENT, F.SKS_SEQ, F.SKS_STATUS_RESIDENT, F.SKS_OVERWRITE,
      F.SAF_STATUS_START_WAIT, F.SAF_STATUS_MATRIX_FAULT, F.SAF_STATUS_START_BLOCKED, F.SAF_STATUS_OVC_ARMED,
      F.SAF_STATUS_PHASE, F.SAF_PHASE_T, F.SAF_OVC_REMAIN_S, F.SAF_SOUT_MATRIX, F.SAF_SOUT_PERMIT,
      F.SAF_SOUT_STATE_ENERGISED, F.PWR_STATUS_WAKE_PEND, F.PWR_STATUS_PHASE, F.PWR_WAKE_SRC, F.PWR_WAKE_MERGED,
      F.SYS_FAULT, F.SYS_FAULT_LAST, F.SYS_FAULT_T, F.SYS_DEVFAULT, F.MSIX_PBA],
    parts := [.warp, .skein, .island, .tandem, .host, .power] }

theorem keeps_matrixFault (hc : Closed I Touched.matrixFault) {s : State} (hk : Holds I s) : Holds I (State.matrixFault s) := by
  have c_sysFault' : Closed I Touched.sysFault := hc.mono (by decide +kernel)
  have c_devFault' : Closed I Touched.devFault := hc.mono (by decide +kernel)
  have c_toStart' : Closed I Touched.toStart := hc.mono (by decide +kernel)
  unfold State.matrixFault
  try dsimp only
  repeat' first | (guard_target =ₐ Holds I s; exact hk) | simp only [id_eq] | with_reducible apply keeps_sysFault c_sysFault' | with_reducible apply keeps_wr | with_reducible apply keeps_devFault c_devFault' | with_reducible apply keeps_toStart c_toStart' | with_reducible apply Keeps.foldl (I := I) | with_reducible apply Keeps.foldl₂ (I := I) | with_reducible apply Keeps.ite (I := I) | exact hc.mono (by decide +kernel) | split | intro s _ _ hk | intro s _ hk | intro s hk | with_reducible exact hk

def Touched.loadMatrix : Touch :=
  { regs := [F.SK_STATUS_BURST_FREE_KIB, F.SK_EVENT, F.SKS_SEQ, F.SKS_STATUS_RESIDENT, F.SKS_OVERWRITE,
      F.SAF_STATUS_START_WAIT, F.SAF_STATUS_MATRIX_FAULT, F.SAF_STATUS_MATRIX_OK, F.SAF_STATUS_START_BLOCKED,
      F.SAF_STATUS_OVC_ARMED, F.SAF_STATUS_PHASE, F.SAF_PHASE_T, F.SAF_OVC_REMAIN_S, F.SAF_OVC_WINDOW_S, F.SAF_SIN,
      F.SAF_SIN_FAULT, F.SAF_SOUT_MATRIX, F.SAF_SOUT_PERMIT, F.SAF_SOUT_STATE_ENERGISED, F.SAF_TERMS,
      F.SAF_MATRIX_VER, F.SAF_MATRIX_CRC, F.SIN_CFG_FAULT_CAUSE, F.SIN_CFG_TEST, F.SIN_CFG_MODE, F.SIN_CFG_DISC_MS,
      F.SOUT_CFG_TPW_US, F.SOUT_CFG_TEST, F.SOUT_CFG_USED, F.SOUT_CFG_NB, F.PWR_STATUS_WAKE_PEND,
      F.PWR_STATUS_PHASE, F.PWR_WAKE_SRC, F.PWR_WAKE_MERGED, F.SYS_FAULT, F.SYS_FAULT_LAST, F.SYS_FAULT_T,
      F.SYS_DEVFAULT, F.MSIX_PBA],
    parts := [.warp, .skein, .island, .tandem, .host, .power] }

theorem keeps_loadMatrix (hc : Closed I Touched.loadMatrix) {s : State} (hk : Holds I s) (good : Bool) : Holds I (State.loadMatrix s good) := by
  have c_onIsland' : Closed I Touched.onIsland := hc.mono (by decide +kernel)
  have c_drive' : Closed I Touched.drive := hc.mono (by decide +kernel)
  have c_evalTerms' : Closed I Touched.evalTerms := hc.mono (by decide +kernel)
  have c_showSins' : Closed I Touched.showSins := hc.mono (by decide +kernel)
  have c_matrixFault' : Closed I Touched.matrixFault := hc.mono (by decide +kernel)
  unfold State.loadMatrix
  try dsimp only
  repeat' first | (guard_target =ₐ Holds I s; exact hk) | simp only [id_eq] | with_reducible apply keeps_onIsland c_onIsland' | with_reducible apply keeps_wr | with_reducible apply keeps_each | with_reducible apply keeps_drive c_drive' | with_reducible apply keeps_evalTerms c_evalTerms' | with_reducible apply keeps_showSins c_showSins' | with_reducible apply keeps_matrixFault c_matrixFault' | with_reducible apply Keeps.foldl (I := I) | with_reducible apply Keeps.foldl₂ (I := I) | with_reducible apply Keeps.ite (I := I) | exact hc.mono (by decide +kernel) | split | intro s _ _ hk | intro s _ hk | intro s hk | with_reducible exact hk

def Touched.noteSin : Touch :=
  { regs := [F.SAF_SIN, F.SAF_SIN_FAULT, F.SIN_CFG_FAULT_CAUSE], parts := [.island] }

theorem keeps_noteSin (hc : Closed I Touched.noteSin) {s : State} (hk : Holds I s) (i : Nat) : Holds I (State.noteSin s i) := by
  have c_onIsland' : Closed I Touched.onIsland := hc.mono (by decide +kernel)
  have c_showSins' : Closed I Touched.showSins := hc.mono (by decide +kernel)
  unfold State.noteSin
  try dsimp only
  repeat' first | (guard_target =ₐ Holds I s; exact hk) | simp only [id_eq] | with_reducible apply keeps_onIsland c_onIsland' | with_reducible apply keeps_showSins c_showSins' | with_reducible apply keeps_wr | with_reducible apply Keeps.foldl (I := I) | with_reducible apply Keeps.foldl₂ (I := I) | with_reducible apply Keeps.ite (I := I) | exact hc.mono (by decide +kernel) | split | intro s _ _ hk | intro s _ hk | intro s hk | with_reducible exact hk

def Touched.putWeft : Touch :=
  { parts := [.island] }

theorem keeps_putWeft (hc : Closed I Touched.putWeft) {s : State} (hk : Holds I s) (n : Nat) (x : WeftConn) : Holds I (State.putWeft s n x) := by
  have c_onIsland' : Closed I Touched.onIsland := hc.mono (by decide +kernel)
  unfold State.putWeft
  try dsimp only
  repeat' first | (guard_target =ₐ Holds I s; exact hk) | simp only [id_eq] | with_reducible apply keeps_onIsland c_onIsland' | with_reducible apply Keeps.foldl (I := I) | with_reducible apply Keeps.foldl₂ (I := I) | with_reducible apply Keeps.ite (I := I) | split | intro s _ _ hk | intro s _ hk | intro s hk | with_reducible exact hk

def Touched.produce : Touch :=
  { regs := [F.WC_STATUS_SEQ], parts := [.island] }

theorem keeps_produce (hc : Closed I Touched.produce) {s : State} (hk : Holds I s) (n : Nat) (safe : Bool) (data : List Byte) : Holds I (State.produce s n safe data) := by
  have c_putWeft' : Closed I Touched.putWeft := hc.mono (by decide +kernel)
  unfold State.produce
  try dsimp only
  repeat' first | (guard_target =ₐ Holds I s; exact hk) | simp only [id_eq] | with_reducible apply keeps_wr | with_reducible apply keeps_putWeft c_putWeft' | with_reducible apply Keeps.foldl (I := I) | with_reducible apply Keeps.foldl₂ (I := I) | with_reducible apply Keeps.ite (I := I) | exact hc.mono (by decide +kernel) | split | intro s _ _ hk | intro s _ hk | intro s hk | with_reducible exact hk

def Touched.startWefts : Touch :=
  { regs := [F.WC_CONN, F.WC_STATUS_ROLE, F.WC_STATUS_STATE, F.WC_EXP_DEADLINE_MS], parts := [.island] }

theorem keeps_startWefts (hc : Closed I Touched.startWefts) {s : State} (hk : Holds I s) (g : SafProg) : Holds I (State.startWefts s g) := by
  have c_putWeft' : Closed I Touched.putWeft := hc.mono (by decide +kernel)
  unfold State.startWefts
  try dsimp only
  repeat' first | (guard_target =ₐ Holds I s; exact hk) | simp only [id_eq] | with_reducible apply keeps_each | with_reducible apply keeps_wr | with_reducible apply keeps_putWeft c_putWeft' | with_reducible apply Keeps.foldl (I := I) | with_reducible apply Keeps.foldl₂ (I := I) | with_reducible apply Keeps.ite (I := I) | exact hc.mono (by decide +kernel) | split | intro s _ _ hk | intro s _ hk | intro s hk | with_reducible exact hk

def Touched.startProgram : Touch :=
  { regs := [F.SAF_STATUS_START_WAIT, F.SAF_STATUS_PROG_OK, F.SAF_PROG_VER, F.SAF_CYCLE, F.WC_CONN, F.WC_STATUS_ROLE,
      F.WC_STATUS_STATE, F.WC_EXP_DEADLINE_MS],
    parts := [.island] }

theorem keeps_startProgram (hc : Closed I Touched.startProgram) {s : State} (hk : Holds I s) (ok : Bool) : Holds I (State.startProgram s ok) := by
  have c_showWait' : Closed I Touched.showWait := hc.mono (by decide +kernel)
  have c_onIsland' : Closed I Touched.onIsland := hc.mono (by decide +kernel)
  have c_startWefts' : Closed I Touched.startWefts := hc.mono (by decide +kernel)
  unfold State.startProgram
  try dsimp only
  repeat' first | (guard_target =ₐ Holds I s; exact hk) | simp only [id_eq] | with_reducible apply keeps_showWait c_showWait' | with_reducible apply keeps_wr | with_reducible apply keeps_onIsland c_onIsland' | with_reducible apply keeps_startWefts c_startWefts' | with_reducible apply Keeps.foldl (I := I) | with_reducible apply Keeps.foldl₂ (I := I) | with_reducible apply Keeps.ite (I := I) | exact hc.mono (by decide +kernel) | split | intro s _ _ hk | intro s _ hk | intro s hk | with_reducible exact hk

def Touched.tryRecover : Touch :=
  { regs := [F.SK_STATUS_BURST_FREE_KIB, F.SK_EVENT, F.SKS_SEQ, F.SKS_STATUS_RESIDENT, F.SKS_OVERWRITE,
      F.SAF_STATUS_START_BLOCKED, F.SAF_STATUS_PHASE, F.SAF_PHASE_T, F.SAF_OVC_REMAIN_S, F.SAF_SOUT_MATRIX,
      F.SAF_SOUT_PERMIT, F.SAF_SOUT_STATE_ENERGISED, F.PWR_STATUS_WAKE_PEND, F.PWR_STATUS_PHASE, F.PWR_WAKE_SRC,
      F.PWR_WAKE_MERGED, F.MSIX_PBA],
    parts := [.skein, .island, .host, .power] }

theorem keeps_tryRecover (hc : Closed I Touched.tryRecover) {s : State} (hk : Holds I s) : Holds I (State.tryRecover s) := by
  have c_drive' : Closed I Touched.drive := hc.mono (by decide +kernel)
  have c_putPhase' : Closed I Touched.putPhase := hc.mono (by decide +kernel)
  unfold State.tryRecover
  try dsimp only
  repeat' first | (guard_target =ₐ Holds I s; exact hk) | simp only [id_eq] | with_reducible apply keeps_drive c_drive' | with_reducible apply keeps_putPhase c_putPhase' | with_reducible apply keeps_wr | with_reducible apply Keeps.foldl (I := I) | with_reducible apply Keeps.foldl₂ (I := I) | with_reducible apply Keeps.ite (I := I) | exact hc.mono (by decide +kernel) | split | intro s _ _ hk | intro s _ hk | intro s hk | with_reducible exact hk

end Sys2Proof.Machine
end

