-- ==== Sys2Proof/Laws/Keeps/Island.lean ====
section
/-! SUPPORT.  What the operations of Machine/Island.lean touch, and that they keep every property
closed under it. -/

namespace Sys2Proof.Machine

open Sys2Proof

set_option Elab.async false
set_option linter.unusedSimpArgs false
set_option linter.unusedVariables false
set_option linter.unusedTactic false
set_option linter.unreachableTactic false

variable {I : State → Prop}

def Touched.acceptWeft : Touch :=
  { regs := [F.WC_STATUS_SEQ, F.WC_STATUS_STATE], parts := [.island] }

theorem keeps_acceptWeft (hc : Closed I Touched.acceptWeft) {s : State} (hk : Holds I s) (n : Nat) (e : WeftEntry) (f : WeftRx) : Holds I (State.acceptWeft s n e f) := by
  have c_putWeft' : Closed I Touched.putWeft := hc.mono (by decide +kernel)
  unfold State.acceptWeft
  try dsimp only
  repeat' first | (guard_target =ₐ Holds I s; exact hk) | simp only [id_eq] | with_reducible apply keeps_wr | with_reducible apply keeps_putWeft c_putWeft' | with_reducible apply Keeps.foldl (I := I) | with_reducible apply Keeps.foldl₂ (I := I) | with_reducible apply Keeps.ite (I := I) | exact hc.mono (by decide +kernel) | split | intro s _ _ hk | intro s _ hk | intro s hk | with_reducible exact hk

theorem keeps_execDieTick (hc : Closed I Touches.dieTick) {s : State} (hk : Holds I s) (t : Instant) : ∃ u, execDieTick t s = .next u ∧ Holds I u := by
  have c_advance' : Closed I Touched.advance := hc.mono (by decide +kernel)
  have c_onIsland' : Closed I Touched.onIsland := hc.mono (by decide +kernel)
  have c_drive' : Closed I Touched.drive := hc.mono (by decide +kernel)
  have c_evalTerms' : Closed I Touched.evalTerms := hc.mono (by decide +kernel)
  refine ⟨_, rfl, ?_⟩
  try dsimp only
  repeat' first | (guard_target =ₐ Holds I s; exact hk) | simp only [id_eq] | with_reducible apply keeps_advance c_advance' | with_reducible apply keeps_onIsland c_onIsland' | with_reducible apply keeps_wr | with_reducible apply keeps_drive c_drive' | with_reducible apply keeps_evalTerms c_evalTerms' | with_reducible apply Keeps.foldl (I := I) | with_reducible apply Keeps.foldl₂ (I := I) | with_reducible apply Keeps.ite (I := I) | exact hc.mono (by decide +kernel) | split | intro s _ _ hk | intro s _ hk | intro s hk | with_reducible exact hk

theorem keeps_execDiscrepancyFault (hc : Closed I Touches.discrepancyFault) {s : State} (hk : Holds I s) (t : Instant) (i : Fin 32) : ∃ u, execDiscrepancyFault t i s = .next u ∧ Holds I u := by
  have c_advance' : Closed I Touched.advance := hc.mono (by decide +kernel)
  have c_onIsland' : Closed I Touched.onIsland := hc.mono (by decide +kernel)
  have c_latchSin' : Closed I Touched.latchSin := hc.mono (by decide +kernel)
  refine ⟨_, rfl, ?_⟩
  try dsimp only
  repeat' first | (guard_target =ₐ Holds I s; exact hk) | simp only [id_eq] | with_reducible apply keeps_advance c_advance' | with_reducible apply keeps_onIsland c_onIsland' | with_reducible apply keeps_latchSin c_latchSin' | with_reducible apply Keeps.foldl (I := I) | with_reducible apply Keeps.foldl₂ (I := I) | with_reducible apply Keeps.ite (I := I) | split | intro s _ _ hk | intro s _ hk | intro s hk | with_reducible exact hk

theorem keeps_execIslandFault (hc : Closed I Touches.islandFault) {s : State} (hk : Holds I s) (t : Instant) : ∃ u, execIslandFault t s = .next u ∧ Holds I u := by
  have c_islandLost' : Closed I Touched.islandLost := hc.mono (by decide +kernel)
  have c_sysFault' : Closed I Touched.sysFault := hc.mono (by decide +kernel)
  have c_advance' : Closed I Touched.advance := hc.mono (by decide +kernel)
  refine ⟨_, rfl, ?_⟩
  try dsimp only
  repeat' first | (guard_target =ₐ Holds I s; exact hk) | simp only [id_eq] | with_reducible apply keeps_islandLost c_islandLost' | with_reducible apply keeps_sysFault c_sysFault' | with_reducible apply keeps_advance c_advance' | with_reducible apply Keeps.foldl (I := I) | with_reducible apply Keeps.foldl₂ (I := I) | with_reducible apply Keeps.ite (I := I) | split | intro s _ _ hk | intro s _ hk | intro s hk | with_reducible exact hk

theorem keeps_execIslandReloadDone (hc : Closed I Touches.islandReloadDone) {s : State} (hk : Holds I s) (t : Instant) (ok : Bool) : ∃ u, execIslandReloadDone t ok s = .next u ∧ Holds I u := by
  have c_advance' : Closed I Touched.advance := hc.mono (by decide +kernel)
  have c_startProgram' : Closed I Touched.startProgram := hc.mono (by decide +kernel)
  refine ⟨_, rfl, ?_⟩
  try dsimp only
  repeat' first | (guard_target =ₐ Holds I s; exact hk) | simp only [id_eq] | with_reducible apply keeps_advance c_advance' | with_reducible apply keeps_startProgram c_startProgram' | with_reducible apply Keeps.foldl (I := I) | with_reducible apply Keeps.foldl₂ (I := I) | with_reducible apply Keeps.ite (I := I) | split | intro s _ _ hk | intro s _ hk | intro s hk | with_reducible exact hk

theorem keeps_execLinkSilent (hc : Closed I Touches.linkSilent) {s : State} (hk : Holds I s) (t : Instant) : ∃ u, execLinkSilent t s = .next u ∧ Holds I u := by
  have c_advance' : Closed I Touched.advance := hc.mono (by decide +kernel)
  have c_islandLost' : Closed I Touched.islandLost := hc.mono (by decide +kernel)
  have c_onIsland' : Closed I Touched.onIsland := hc.mono (by decide +kernel)
  refine ⟨_, rfl, ?_⟩
  try dsimp only
  repeat' first | (guard_target =ₐ Holds I s; exact hk) | simp only [id_eq] | with_reducible apply keeps_advance c_advance' | with_reducible apply keeps_islandLost c_islandLost' | with_reducible apply keeps_onIsland c_onIsland' | with_reducible apply keeps_wr | with_reducible apply Keeps.foldl (I := I) | with_reducible apply Keeps.foldl₂ (I := I) | with_reducible apply Keeps.ite (I := I) | exact hc.mono (by decide +kernel) | split | intro s _ _ hk | intro s _ hk | intro s hk | with_reducible exact hk

theorem keeps_execLoadSafety (hc : Closed I Touches.loadSafety) {s : State} (hk : Holds I s) (t : Instant) (img : SafProg) (readBack : Bool) (room : Bool) : ∃ u, execLoadSafety t img readBack room s = .next u ∧ Holds I u := by
  have c_hostCommand' : Closed I Touched.hostCommand := hc.mono (by decide +kernel)
  have c_advance' : Closed I Touched.advance := hc.mono (by decide +kernel)
  have c_loading' : Closed I Touched.loading := hc.mono (by decide +kernel)
  have c_reply' : Closed I Touched.reply := hc.mono (by decide +kernel)
  have c_toStart' : Closed I Touched.toStart := hc.mono (by decide +kernel)
  have c_restartIsland' : Closed I Touched.restartIsland := hc.mono (by decide +kernel)
  have c_onIsland' : Closed I Touched.onIsland := hc.mono (by decide +kernel)
  have c_store' : Closed I Touched.store := hc.mono (by decide +kernel)
  refine ⟨_, rfl, ?_⟩
  try dsimp only
  repeat' first | (guard_target =ₐ Holds I s; exact hk) | simp only [id_eq] | with_reducible apply keeps_hostCommand c_hostCommand' | with_reducible apply keeps_advance c_advance' | with_reducible apply keeps_loading c_loading' | with_reducible apply keeps_reply c_reply' | with_reducible apply keeps_toStart c_toStart' | with_reducible apply keeps_restartIsland c_restartIsland' | with_reducible apply keeps_onIsland c_onIsland' | with_reducible apply keeps_store c_store' | with_reducible apply Keeps.foldl (I := I) | with_reducible apply Keeps.foldl₂ (I := I) | with_reducible apply Keeps.ite (I := I) | split | intro s _ _ hk | intro s _ hk | intro s hk | with_reducible exact hk

theorem keeps_execMatrixLoad (hc : Closed I Touches.matrixLoad) {s : State} (hk : Holds I s) (t : Instant) (good : Bool) : ∃ u, execMatrixLoad t good s = .next u ∧ Holds I u := by
  have c_showWait' : Closed I Touched.showWait := hc.mono (by decide +kernel)
  have c_loadMatrix' : Closed I Touched.loadMatrix := hc.mono (by decide +kernel)
  have c_advance' : Closed I Touched.advance := hc.mono (by decide +kernel)
  refine ⟨_, rfl, ?_⟩
  try dsimp only
  repeat' first | (guard_target =ₐ Holds I s; exact hk) | simp only [id_eq] | with_reducible apply keeps_showWait c_showWait' | with_reducible apply keeps_loadMatrix c_loadMatrix' | with_reducible apply keeps_advance c_advance' | with_reducible apply Keeps.foldl (I := I) | with_reducible apply Keeps.foldl₂ (I := I) | with_reducible apply Keeps.ite (I := I) | split | intro s _ _ hk | intro s _ hk | intro s hk | with_reducible exact hk

theorem keeps_execOutputTest (hc : Closed I Touches.outputTest) {s : State} (hk : Holds I s) (t : Instant) (o : Fin 16) (result : Fin 5) : ∃ u, execOutputTest t o result s = .next u ∧ Holds I u := by
  have c_advance' : Closed I Touched.advance := hc.mono (by decide +kernel)
  have c_onIsland' : Closed I Touched.onIsland := hc.mono (by decide +kernel)
  have c_showWait' : Closed I Touched.showWait := hc.mono (by decide +kernel)
  have c_drive' : Closed I Touched.drive := hc.mono (by decide +kernel)
  have c_event' : Closed I Touched.event := hc.mono (by decide +kernel)
  have c_sysFault' : Closed I Touched.sysFault := hc.mono (by decide +kernel)
  refine ⟨_, rfl, ?_⟩
  try dsimp only
  repeat' first | (guard_target =ₐ Holds I s; exact hk) | simp only [id_eq] | with_reducible apply keeps_advance c_advance' | with_reducible apply keeps_onIsland c_onIsland' | with_reducible apply keeps_showWait c_showWait' | with_reducible apply keeps_wr | with_reducible apply keeps_setBit | with_reducible apply keeps_drive c_drive' | with_reducible apply keeps_event c_event' | with_reducible apply keeps_sysFault c_sysFault' | with_reducible apply Keeps.foldl (I := I) | with_reducible apply Keeps.foldl₂ (I := I) | with_reducible apply Keeps.ite (I := I) | exact hc.mono (by decide +kernel) | split | intro s _ _ hk | intro s _ hk | intro s hk | with_reducible exact hk

theorem keeps_execOvercastArmed (hc : Closed I Touches.overcastArmed) {s : State} (hk : Holds I s) (t : Instant) : ∃ u, execOvercastArmed t s = .next u ∧ Holds I u := by
  have c_advance' : Closed I Touched.advance := hc.mono (by decide +kernel)
  refine ⟨_, rfl, ?_⟩
  try dsimp only
  repeat' first | (guard_target =ₐ Holds I s; exact hk) | simp only [id_eq] | with_reducible apply keeps_advance c_advance' | with_reducible apply keeps_wr | with_reducible apply Keeps.foldl (I := I) | with_reducible apply Keeps.foldl₂ (I := I) | with_reducible apply Keeps.ite (I := I) | exact hc.mono (by decide +kernel) | split | intro s _ _ hk | intro s _ hk | intro s hk | with_reducible exact hk

theorem keeps_execOvercastWindowEnd (hc : Closed I Touches.overcastWindowEnd) {s : State} (hk : Holds I s) (t : Instant) : ∃ u, execOvercastWindowEnd t s = .next u ∧ Holds I u := by
  have c_advance' : Closed I Touched.advance := hc.mono (by decide +kernel)
  have c_toStart' : Closed I Touched.toStart := hc.mono (by decide +kernel)
  refine ⟨_, rfl, ?_⟩
  try dsimp only
  repeat' first | (guard_target =ₐ Holds I s; exact hk) | simp only [id_eq] | with_reducible apply keeps_advance c_advance' | with_reducible apply keeps_toStart c_toStart' | with_reducible apply Keeps.foldl (I := I) | with_reducible apply Keeps.foldl₂ (I := I) | with_reducible apply Keeps.ite (I := I) | split | intro s _ _ hk | intro s _ hk | intro s hk | with_reducible exact hk

theorem keeps_execPermitWord (hc : Closed I Touches.permitWord) {s : State} (hk : Holds I s) (t : Instant) (valid : Bool) : ∃ u, execPermitWord t valid s = .next u ∧ Holds I u := by
  have c_advance' : Closed I Touched.advance := hc.mono (by decide +kernel)
  have c_onIsland' : Closed I Touched.onIsland := hc.mono (by decide +kernel)
  have c_putPhase' : Closed I Touched.putPhase := hc.mono (by decide +kernel)
  have c_tryRecover' : Closed I Touched.tryRecover := hc.mono (by decide +kernel)
  have c_drive' : Closed I Touched.drive := hc.mono (by decide +kernel)
  refine ⟨_, rfl, ?_⟩
  try dsimp only
  repeat' first | (guard_target =ₐ Holds I s; exact hk) | simp only [id_eq] | with_reducible apply keeps_advance c_advance' | with_reducible apply keeps_onIsland c_onIsland' | with_reducible apply keeps_wr | with_reducible apply keeps_putPhase c_putPhase' | with_reducible apply keeps_tryRecover c_tryRecover' | with_reducible apply keeps_drive c_drive' | with_reducible apply Keeps.foldl (I := I) | with_reducible apply Keeps.foldl₂ (I := I) | with_reducible apply Keeps.ite (I := I) | exact hc.mono (by decide +kernel) | split | intro s _ _ hk | intro s _ hk | intro s hk | with_reducible exact hk

theorem keeps_execProgramMatrix (hc : Closed I Touches.programMatrix) {s : State} (hk : Holds I s) (t : Instant) (c : MatrixCont) (readBack : Bool) (room : Bool) : ∃ u, execProgramMatrix t c readBack room s = .next u ∧ Holds I u := by
  have c_hostCommand' : Closed I Touched.hostCommand := hc.mono (by decide +kernel)
  have c_advance' : Closed I Touched.advance := hc.mono (by decide +kernel)
  have c_loading' : Closed I Touched.loading := hc.mono (by decide +kernel)
  have c_reply' : Closed I Touched.reply := hc.mono (by decide +kernel)
  have c_onIsland' : Closed I Touched.onIsland := hc.mono (by decide +kernel)
  have c_toStart' : Closed I Touched.toStart := hc.mono (by decide +kernel)
  have c_loadMatrix' : Closed I Touched.loadMatrix := hc.mono (by decide +kernel)
  have c_restartIsland' : Closed I Touched.restartIsland := hc.mono (by decide +kernel)
  refine ⟨_, rfl, ?_⟩
  try dsimp only
  repeat' first | (guard_target =ₐ Holds I s; exact hk) | simp only [id_eq] | with_reducible apply keeps_hostCommand c_hostCommand' | with_reducible apply keeps_advance c_advance' | with_reducible apply keeps_loading c_loading' | with_reducible apply keeps_reply c_reply' | with_reducible apply keeps_roll | with_reducible apply keeps_onIsland c_onIsland' | with_reducible apply keeps_toStart c_toStart' | with_reducible apply keeps_loadMatrix c_loadMatrix' | with_reducible apply keeps_restartIsland c_restartIsland' | with_reducible apply Keeps.foldl (I := I) | with_reducible apply Keeps.foldl₂ (I := I) | with_reducible apply Keeps.ite (I := I) | exact hc.mono (by decide +kernel) | split | intro s _ _ hk | intro s _ hk | intro s hk | with_reducible exact hk

theorem keeps_execSafetyCycle (hc : Closed I Touches.safetyCycle) {s : State} (hk : Holds I s) (t : Instant) (c : SafCycle) : ∃ u, execSafetyCycle t c s = .next u ∧ Holds I u := by
  have c_advance' : Closed I Touched.advance := hc.mono (by decide +kernel)
  have c_onIsland' : Closed I Touched.onIsland := hc.mono (by decide +kernel)
  have c_produce' : Closed I Touched.produce := hc.mono (by decide +kernel)
  refine ⟨_, rfl, ?_⟩
  try dsimp only
  repeat' first | (guard_target =ₐ Holds I s; exact hk) | simp only [id_eq] | with_reducible apply keeps_advance c_advance' | with_reducible apply keeps_wr | with_reducible apply keeps_onIsland c_onIsland' | with_reducible apply keeps_each | with_reducible apply keeps_produce c_produce' | with_reducible apply Keeps.foldl (I := I) | with_reducible apply Keeps.foldl₂ (I := I) | with_reducible apply Keeps.ite (I := I) | exact hc.mono (by decide +kernel) | split | intro s _ _ hk | intro s _ hk | intro s hk | with_reducible exact hk

theorem keeps_execSafetyPhase (hc : Closed I Touches.safetyPhase) {s : State} (hk : Holds I s) (t : Instant) (phase : Word) : ∃ u, execSafetyPhase t phase s = .next u ∧ Holds I u := by
  have c_hostCommand' : Closed I Touched.hostCommand := hc.mono (by decide +kernel)
  have c_advance' : Closed I Touched.advance := hc.mono (by decide +kernel)
  have c_reply' : Closed I Touched.reply := hc.mono (by decide +kernel)
  have c_onIsland' : Closed I Touched.onIsland := hc.mono (by decide +kernel)
  refine ⟨_, rfl, ?_⟩
  try dsimp only
  repeat' first | (guard_target =ₐ Holds I s; exact hk) | simp only [id_eq] | with_reducible apply keeps_hostCommand c_hostCommand' | with_reducible apply keeps_advance c_advance' | with_reducible apply keeps_reply c_reply' | with_reducible apply keeps_onIsland c_onIsland' | with_reducible apply Keeps.foldl (I := I) | with_reducible apply Keeps.foldl₂ (I := I) | with_reducible apply Keeps.ite (I := I) | split | intro s _ _ hk | intro s _ hk | intro s hk | with_reducible exact hk

theorem keeps_execSafetyReset (hc : Closed I Touches.safetyReset) {s : State} (hk : Holds I s) (t : Instant) (mask : BitVec 16) : ∃ u, execSafetyReset t mask s = .next u ∧ Holds I u := by
  have c_hostCommand' : Closed I Touched.hostCommand := hc.mono (by decide +kernel)
  have c_advance' : Closed I Touched.advance := hc.mono (by decide +kernel)
  have c_reply' : Closed I Touched.reply := hc.mono (by decide +kernel)
  have c_drive' : Closed I Touched.drive := hc.mono (by decide +kernel)
  refine ⟨_, rfl, ?_⟩
  try dsimp only
  repeat' first | (guard_target =ₐ Holds I s; exact hk) | simp only [id_eq] | with_reducible apply keeps_hostCommand c_hostCommand' | with_reducible apply keeps_advance c_advance' | with_reducible apply keeps_each | with_reducible apply keeps_wr | with_reducible apply keeps_reply c_reply' | with_reducible apply keeps_drive c_drive' | with_reducible apply Keeps.foldl (I := I) | with_reducible apply Keeps.foldl₂ (I := I) | with_reducible apply Keeps.ite (I := I) | exact hc.mono (by decide +kernel) | split | intro s _ _ hk | intro s _ hk | intro s hk | with_reducible exact hk

theorem keeps_execSclkCrosscheck (hc : Closed I Touches.sclkCrosscheck) {s : State} (hk : Holds I s) (t : Instant) (bad : Bool) : ∃ u, execSclkCrosscheck t bad s = .next u ∧ Holds I u := by
  have c_advance' : Closed I Touched.advance := hc.mono (by decide +kernel)
  have c_islandLost' : Closed I Touched.islandLost := hc.mono (by decide +kernel)
  have c_sysFault' : Closed I Touched.sysFault := hc.mono (by decide +kernel)
  refine ⟨_, rfl, ?_⟩
  try dsimp only
  repeat' first | (guard_target =ₐ Holds I s; exact hk) | simp only [id_eq] | with_reducible apply keeps_advance c_advance' | with_reducible apply keeps_wr | with_reducible apply keeps_islandLost c_islandLost' | with_reducible apply keeps_sysFault c_sysFault' | with_reducible apply Keeps.foldl (I := I) | with_reducible apply Keeps.foldl₂ (I := I) | with_reducible apply Keeps.ite (I := I) | exact hc.mono (by decide +kernel) | split | intro s _ _ hk | intro s _ hk | intro s hk | with_reducible exact hk

theorem keeps_execSinChannelChange (hc : Closed I Touches.sinChannelChange) {s : State} (hk : Holds I s) (t : Instant) (i : Fin 32) (chanB : Bool) (level : Bool) : ∃ u, execSinChannelChange t i chanB level s = .next u ∧ Holds I u := by
  have c_advance' : Closed I Touched.advance := hc.mono (by decide +kernel)
  have c_noteSin' : Closed I Touched.noteSin := hc.mono (by decide +kernel)
  refine ⟨_, rfl, ?_⟩
  try dsimp only
  repeat' first | (guard_target =ₐ Holds I s; exact hk) | simp only [id_eq] | with_reducible apply keeps_advance c_advance' | with_reducible apply keeps_noteSin c_noteSin' | with_reducible apply keeps_wr | with_reducible apply Keeps.foldl (I := I) | with_reducible apply Keeps.foldl₂ (I := I) | with_reducible apply Keeps.ite (I := I) | exact hc.mono (by decide +kernel) | split | intro s _ _ hk | intro s _ hk | intro s hk | with_reducible exact hk

theorem keeps_execTermComparison (hc : Closed I Touches.termComparison) {s : State} (hk : Holds I s) (t : Instant) (agree : Bool) : ∃ u, execTermComparison t agree s = .next u ∧ Holds I u := by
  have c_advance' : Closed I Touched.advance := hc.mono (by decide +kernel)
  have c_showWait' : Closed I Touched.showWait := hc.mono (by decide +kernel)
  have c_onIsland' : Closed I Touched.onIsland := hc.mono (by decide +kernel)
  have c_handover' : Closed I Touched.handover := hc.mono (by decide +kernel)
  have c_tryRecover' : Closed I Touched.tryRecover := hc.mono (by decide +kernel)
  have c_matrixFault' : Closed I Touched.matrixFault := hc.mono (by decide +kernel)
  refine ⟨_, rfl, ?_⟩
  try dsimp only
  repeat' first | (guard_target =ₐ Holds I s; exact hk) | simp only [id_eq] | with_reducible apply keeps_advance c_advance' | with_reducible apply keeps_showWait c_showWait' | with_reducible apply keeps_onIsland c_onIsland' | with_reducible apply keeps_handover c_handover' | with_reducible apply keeps_tryRecover c_tryRecover' | with_reducible apply keeps_roll | with_reducible apply keeps_matrixFault c_matrixFault' | with_reducible apply Keeps.foldl (I := I) | with_reducible apply Keeps.foldl₂ (I := I) | with_reducible apply Keeps.ite (I := I) | exact hc.mono (by decide +kernel) | split | intro s _ _ hk | intro s _ hk | intro s hk | with_reducible exact hk

theorem keeps_execTestPulse (hc : Closed I Touches.testPulse) {s : State} (hk : Holds I s) (t : Instant) (chanB : Bool) (fails : BitVec 32) : ∃ u, execTestPulse t chanB fails s = .next u ∧ Holds I u := by
  have c_advance' : Closed I Touched.advance := hc.mono (by decide +kernel)
  have c_showWait' : Closed I Touched.showWait := hc.mono (by decide +kernel)
  have c_latchSin' : Closed I Touched.latchSin := hc.mono (by decide +kernel)
  have c_onIsland' : Closed I Touched.onIsland := hc.mono (by decide +kernel)
  refine ⟨_, rfl, ?_⟩
  try dsimp only
  repeat' first | (guard_target =ₐ Holds I s; exact hk) | simp only [id_eq] | with_reducible apply keeps_advance c_advance' | with_reducible apply keeps_showWait c_showWait' | with_reducible apply keeps_each | with_reducible apply keeps_latchSin c_latchSin' | with_reducible apply keeps_onIsland c_onIsland' | with_reducible apply Keeps.foldl (I := I) | with_reducible apply Keeps.foldl₂ (I := I) | with_reducible apply Keeps.ite (I := I) | split | intro s _ _ hk | intro s _ hk | intro s hk | with_reducible exact hk

theorem keeps_execWeftDeadline (hc : Closed I Touches.weftDeadline) {s : State} (hk : Holds I s) (t : Instant) (n : Fin 256) : ∃ u, execWeftDeadline t n s = .next u ∧ Holds I u := by
  have c_advance' : Closed I Touched.advance := hc.mono (by decide +kernel)
  have c_putWeft' : Closed I Touched.putWeft := hc.mono (by decide +kernel)
  have c_event' : Closed I Touched.event := hc.mono (by decide +kernel)
  refine ⟨_, rfl, ?_⟩
  try dsimp only
  repeat' first | (guard_target =ₐ Holds I s; exact hk) | simp only [id_eq] | with_reducible apply keeps_advance c_advance' | with_reducible apply keeps_putWeft c_putWeft' | with_reducible apply keeps_event c_event' | with_reducible apply keeps_roll | with_reducible apply keeps_wr | with_reducible apply Keeps.foldl (I := I) | with_reducible apply Keeps.foldl₂ (I := I) | with_reducible apply Keeps.ite (I := I) | exact hc.mono (by decide +kernel) | split | intro s _ _ hk | intro s _ hk | intro s hk | with_reducible exact hk

theorem keeps_execWeftFrame (hc : Closed I Touches.weftFrame) {s : State} (hk : Holds I s) (t : Instant) (n : Fin 256) (f : WeftRx) : ∃ u, execWeftFrame t n f s = .next u ∧ Holds I u := by
  have c_advance' : Closed I Touched.advance := hc.mono (by decide +kernel)
  have c_putWeft' : Closed I Touched.putWeft := hc.mono (by decide +kernel)
  have c_acceptWeft' : Closed I Touched.acceptWeft := hc.mono (by decide +kernel)
  refine ⟨_, rfl, ?_⟩
  try dsimp only
  repeat' first | (guard_target =ₐ Holds I s; exact hk) | simp only [id_eq] | with_reducible apply keeps_advance c_advance' | with_reducible apply keeps_roll | with_reducible apply keeps_putWeft c_putWeft' | with_reducible apply keeps_acceptWeft c_acceptWeft' | with_reducible apply Keeps.foldl (I := I) | with_reducible apply Keeps.foldl₂ (I := I) | with_reducible apply Keeps.ite (I := I) | exact hc.mono (by decide +kernel) | split | intro s _ _ hk | intro s _ hk | intro s hk | with_reducible exact hk

end Sys2Proof.Machine
end

