-- ==== Sys2Proof/Laws/Keeps/Loom.lean ====
section
/-! SUPPORT.  What the operations of Machine/Loom.lean touch, and that they keep every property
closed under it. -/

namespace Sys2Proof.Machine

open Sys2Proof

set_option Elab.async false
set_option linter.unusedSimpArgs false
set_option linter.unusedVariables false
set_option linter.unusedTactic false
set_option linter.unreachableTactic false

variable {I : State → Prop}

def Touched.editField : Touch :=
  { anyReg := true, parts := [.loom, .freeCtr] }

theorem keeps_editField (hc : Closed I Touched.editField) {s : State} (hk : Holds I s) (a : Nat) (v : Nat) : Holds I (State.editField s a v) := by
  have c_discardOther' : Closed I Touched.discardOther := hc.mono (by decide +kernel)
  have c_lpEvent' : Closed I Touched.lpEvent := hc.mono (by decide +kernel)
  have c_putRecord' : Closed I Touched.putRecord := hc.mono (by decide +kernel)
  have c_wrPart' : Closed I Touched.wrPart := hc.mono (by decide +kernel)
  have c_discard' : Closed I Touched.discard := hc.mono (by decide +kernel)
  unfold State.editField
  try dsimp only
  repeat' first | (guard_target =ₐ Holds I s; exact hk) | simp only [id_eq] | with_reducible apply keeps_discardOther c_discardOther' | with_reducible apply keeps_lpEvent c_lpEvent' | with_reducible apply keeps_bump | with_reducible apply keeps_wr | with_reducible apply keeps_putRecord c_putRecord' | with_reducible apply keeps_wrPart c_wrPart' | with_reducible apply keeps_discard c_discard' | with_reducible apply Keeps.foldl (I := I) | with_reducible apply Keeps.foldl₂ (I := I) | with_reducible apply Keeps.ite (I := I) | exact hc.mono (by decide +kernel) | split | intro s _ _ hk | intro s _ hk | intro s hk | with_reducible exact hk

def Touched.refuseApply : Touch :=
  { regs := [F.SK_STATUS_BURST_FREE_KIB, F.SK_EVENT, F.SKS_SEQ, F.SKS_STATUS_RESIDENT, F.SKS_OVERWRITE,
      F.LP_STATUS_RESULT, F.LP_EVENT],
    parts := [.skein] }

theorem keeps_refuseApply (hc : Closed I Touched.refuseApply) {s : State} (hk : Holds I s) (p : Nat) (res : Nat) : Holds I (State.refuseApply s p res) := by
  have c_event' : Closed I Touched.event := hc.mono (by decide +kernel)
  have c_lpEvent' : Closed I Touched.lpEvent := hc.mono (by decide +kernel)
  unfold State.refuseApply
  try dsimp only
  repeat' first | (guard_target =ₐ Holds I s; exact hk) | simp only [id_eq] | with_reducible apply keeps_event c_event' | with_reducible apply keeps_lpEvent c_lpEvent' | with_reducible apply keeps_wr | with_reducible apply Keeps.foldl (I := I) | with_reducible apply Keeps.foldl₂ (I := I) | with_reducible apply Keeps.ite (I := I) | exact hc.mono (by decide +kernel) | split | intro s _ _ hk | intro s _ hk | intro s hk | with_reducible exact hk

def Touched.scanError : Touch :=
  { regs := [F.LC_STATUS_SHADOW_VALID, F.TR_STATUS_STAGE_STATE, F.TR_STATUS_PAUSE_CAUSE, F.TR_STATUS_DEFERRED,
      F.TR_STATUS_STATE, F.TR_EVENT_SPAWN_DROP, F.TR_EVENT_ABORT_IGNORED, F.TR_EVENT_CANCELLED,
      F.TR_STEPS_STAGED_STEP, F.TR_NEXT, F.TR_DECIDE_END_IDX, F.TR_DECIDE_DECIDED, F.TR_CANCEL_CNT,
      F.PG_STATUS_HELD, F.PG_SHADOW_TARGET, F.PG_SHADOW_VMAX, F.PG_SHADOW_WIN_M2, F.PG_SHADOW_WIN_M1,
      F.SK_STATUS_BURST_FREE_KIB, F.SK_EVENT, F.SKS_SEQ, F.SKS_STATUS_RESIDENT, F.SKS_OVERWRITE, F.LOOM_EVENT,
      F.LOOM_SCAN_ERR, F.LOOM_REPAIRS, F.LOOM_EVT_OVF, F.LOOM_OVF_ROUTE, F.LP_STATUS_FRAME_LOST, F.LP_EVENT,
      F.ODO_OUT, F.ODO_OUT_SAT, F.VR_VALUE, F.SCHED_STATUS_FREE_SLOTS, F.SCHED_STATUS_INFLIGHT, F.SCHED_EVENT,
      F.SCHED_DISPATCH_CNT, F.SCHED_CANCEL_CNT, F.SCHED_CANCEL_LATE_CNT, F.SCHED_POISON_CNT,
      F.SCHED_EVT_UNBOUND_CNT, F.SCHED_TEMPLATE_MISS_CNT, F.PS_USED, F.PS_HELD, F.HQ_DEPTH, F.HQ_MAXDEPTH,
      F.HQ_PUSH_CNT, F.HQ_BUSY_CNT, F.SH_STATUS_STATE, F.SH_STATUS_SLOT, F.SH_LOAD, F.LVL_RDY_DEPTH,
      F.LVL_WAIT_AVG, F.LVL_HIST, F.FLOW_STATE_HELD, F.FLOW_STATE_IN_SERVICE, F.FLOW_STATE_HELD_CAUSE,
      F.FLOW_STATE_PENDING, F.CP_STATUS_STOP_CAUSE, F.CP_STATUS_STATE, F.CP_EVENT, F.CP_STOP_T,
      F.PWR_STATUS_WAKE_PEND, F.PWR_STATUS_LOOM_ON, F.PWR_STATUS_PHASE, F.PWR_STATUS_TARGET, F.PWR_STATUS_STATE,
      F.PWR_WAKE_SRC, F.PWR_WAKE_MERGED, F.PWR_RES, F.PWR_ENTRIES, F.SYS_FAULT, F.SYS_FAULT_LAST, F.SYS_FAULT_T,
      F.MSIX_PBA],
    parts := [.skein, .cells, .fio, .treadles, .gens, .loom, .sched, .cyc, .host, .power, .rings, .sram, .dram, .dlm, .freeCtr] }

theorem keeps_scanError (hc : Closed I Touched.scanError) {s : State} (hk : Holds I s) (faddr : Nat) (dramBad : Bool) : Holds I (State.scanError s faddr dramBad) := by
  have c_loomEvent' : Closed I Touched.loomEvent := hc.mono (by decide +kernel)
  have c_sysFault' : Closed I Touched.sysFault := hc.mono (by decide +kernel)
  have c_lpEvent' : Closed I Touched.lpEvent := hc.mono (by decide +kernel)
  have c_partStop' : Closed I Touched.partStop := hc.mono (by decide +kernel)
  unfold State.scanError
  try dsimp only
  repeat' first | (guard_target =ₐ Holds I s; exact hk) | simp only [id_eq] | with_reducible apply keeps_loomEvent c_loomEvent' | with_reducible apply keeps_wr | with_reducible apply keeps_sysFault c_sysFault' | with_reducible apply keeps_bump | with_reducible apply keeps_lpEvent c_lpEvent' | with_reducible apply keeps_partStop c_partStop' | with_reducible apply Keeps.foldl (I := I) | with_reducible apply Keeps.foldl₂ (I := I) | with_reducible apply Keeps.ite (I := I) | exact hc.mono (by decide +kernel) | split | intro s _ _ hk | intro s _ hk | intro s hk | with_reducible exact hk

def Touched.showDraft : Touch :=
  { regs := [F.LP_LIBRARY_STAGE_KIB, F.LP_LIBRARY_STALE, F.LP_LIBRARY_VALID, F.DS_STATE_STATE, F.DS_VERSION,
      F.DS_SIZE_FRAMES, F.DS_SIZE_UNITS16, F.DS_NAME] }

theorem keeps_showDraft (hc : Closed I Touched.showDraft) {s : State} (hk : Holds I s) (p : Nat) (d : Nat) (img : DraftImg) (stale : Bool) : Holds I (State.showDraft s p d img stale) := by
  unfold State.showDraft
  try dsimp only
  repeat' first | (guard_target =ₐ Holds I s; exact hk) | simp only [id_eq] | with_reducible apply keeps_wr | with_reducible apply keeps_each | with_reducible apply Keeps.foldl (I := I) | with_reducible apply Keeps.foldl₂ (I := I) | with_reducible apply Keeps.ite (I := I) | exact hc.mono (by decide +kernel) | split | intro s _ _ hk | intro s _ hk | intro s hk | with_reducible exact hk

def Touched.takePin : Touch :=
  { regs := [F.TR_EVENT_SPAWN_DROP, F.TR_COND, F.SK_STATUS_BURST_FREE_KIB, F.SK_EVENT, F.SKS_SEQ, F.SKS_STATUS_RESIDENT,
      F.SKS_OVERWRITE, F.CS_STATUS_STATE, F.CS_EVENT, F.LOOM_EVENT, F.LOOM_EVT_OVF, F.LOOM_OVF_ROUTE, F.ODO_OUT,
      F.ODO_OUT_SAT, F.SCHED_STATUS_FREE_SLOTS, F.SCHED_STATUS_INFLIGHT, F.SCHED_EVENT, F.SCHED_DISPATCH_CNT,
      F.SCHED_EVT_UNBOUND_CNT, F.SCHED_TEMPLATE_MISS_CNT, F.PS_USED, F.HQ_DEPTH, F.HQ_MAXDEPTH, F.HQ_PUSH_CNT,
      F.HQ_BUSY_CNT, F.SH_STATUS_STATE, F.SH_STATUS_SLOT, F.SH_LOAD, F.LVL_RDY_DEPTH, F.LVL_WAIT_AVG, F.LVL_HIST,
      F.FLOW_STATE_IN_SERVICE, F.FLOW_STATE_PENDING, F.PWR_STATUS_WAKE_PEND, F.PWR_STATUS_PHASE,
      F.PWR_STATUS_STATE, F.PWR_WAKE_SRC, F.PWR_WAKE_MERGED, F.PWR_RES, F.PWR_ENTRIES, F.MSIX_PBA],
    parts := [.skein, .fio, .treadles, .axes, .trig, .loom, .sched, .host, .power, .sram, .dram, .dlm, .freeCtr] }

theorem keeps_takePin (hc : Closed I Touched.takePin) {s : State} (hk : Holds I s) (pin : Nat) : Holds I (State.takePin s pin) := by
  have c_putPin' : Closed I Touched.putPin := hc.mono (by decide +kernel)
  have c_settle' : Closed I Touched.settle := hc.mono (by decide +kernel)
  have c_emitEdge' : Closed I Touched.emitEdge := hc.mono (by decide +kernel)
  have c_edgeChans' : Closed I Touched.edgeChans := hc.mono (by decide +kernel)
  have c_encoderEdge' : Closed I Touched.encoderEdge := hc.mono (by decide +kernel)
  unfold State.takePin
  try dsimp only
  repeat' first | (guard_target =ₐ Holds I s; exact hk) | simp only [id_eq] | with_reducible apply keeps_putPin c_putPin' | with_reducible apply keeps_settle c_settle' | with_reducible apply keeps_emitEdge c_emitEdge' | with_reducible apply keeps_edgeChans c_edgeChans' | with_reducible apply keeps_encoderEdge c_encoderEdge' | with_reducible apply Keeps.foldl (I := I) | with_reducible apply Keeps.foldl₂ (I := I) | with_reducible apply Keeps.ite (I := I) | split | intro s _ _ hk | intro s _ hk | intro s hk | with_reducible exact hk

def Touched.writeJournal : Touch :=
  { regs := [F.LP_JSEQ], parts := [.loom] }

theorem keeps_writeJournal (hc : Closed I Touched.writeJournal) {s : State} (hk : Holds I s) (p : Nat) (d : Nat) (f : Instant) : Holds I (State.writeJournal s p d f) := by
  have c_loom : Closed I { parts := [.loom] } := hc.mono (by decide +kernel)
  unfold State.writeJournal
  try dsimp only
  repeat' first | (guard_target =ₐ Holds I s; exact hk) | simp only [ic_mk, id_eq] | with_reducible refine ic_loom c_loom (ic_fold ?_) | with_reducible apply keeps_wr | with_reducible apply Keeps.foldl (I := I) | with_reducible apply Keeps.foldl₂ (I := I) | with_reducible apply Keeps.ite (I := I) | exact hc.mono (by decide +kernel) | split | intro s _ _ hk | intro s _ hk | intro s hk | with_reducible exact hk

theorem keeps_execApply (hc : Closed I Touches.apply) {s : State} (hk : Holds I s) (t : Instant) (p : Fin 16) (value : Word) : ∃ u, execApply t p value s = .next u ∧ Holds I u := by
  have c_advance' : Closed I Touched.advance := hc.mono (by decide +kernel)
  have c_hostWrite' : Closed I Touched.hostWrite := hc.mono (by decide +kernel)
  have c_refuseApply' : Closed I Touched.refuseApply := hc.mono (by decide +kernel)
  have c_lpEvent' : Closed I Touched.lpEvent := hc.mono (by decide +kernel)
  have c_discardEdits' : Closed I Touched.discardEdits := hc.mono (by decide +kernel)
  have c_putRecord' : Closed I Touched.putRecord := hc.mono (by decide +kernel)
  have c_internalWake' : Closed I Touched.internalWake := hc.mono (by decide +kernel)
  have c_settle' : Closed I Touched.settle := hc.mono (by decide +kernel)
  have c_putApply' : Closed I Touched.putApply := hc.mono (by decide +kernel)
  refine ⟨_, rfl, ?_⟩
  try dsimp only
  repeat' first | (guard_target =ₐ Holds I s; exact hk) | simp only [id_eq] | with_reducible apply keeps_advance c_advance' | with_reducible apply keeps_hostWrite c_hostWrite' | with_reducible apply keeps_wr | with_reducible apply keeps_refuseApply c_refuseApply' | with_reducible apply keeps_lpEvent c_lpEvent' | with_reducible apply keeps_bump | with_reducible apply keeps_discardEdits c_discardEdits' | with_reducible apply keeps_putRecord c_putRecord' | with_reducible apply keeps_internalWake c_internalWake' | with_reducible apply keeps_settle c_settle' | with_reducible apply keeps_putApply c_putApply' | with_reducible apply Keeps.foldl (I := I) | with_reducible apply Keeps.foldl₂ (I := I) | with_reducible apply Keeps.ite (I := I) | exact hc.mono (by decide +kernel) | split | intro s _ _ hk | intro s _ hk | intro s hk | with_reducible exact hk

theorem keeps_execApplyStaged (hc : Closed I Touches.applyStaged) {s : State} (hk : Holds I s) (t : Instant) (p : Fin 16) (verified : Bool) : ∃ u, execApplyStaged t p verified s = .next u ∧ Holds I u := by
  have c_advance' : Closed I Touched.advance := hc.mono (by decide +kernel)
  have c_putApply' : Closed I Touched.putApply := hc.mono (by decide +kernel)
  have c_endApply' : Closed I Touched.endApply := hc.mono (by decide +kernel)
  have c_restoreShadows' : Closed I Touched.restoreShadows := hc.mono (by decide +kernel)
  refine ⟨_, rfl, ?_⟩
  try dsimp only
  repeat' first | (guard_target =ₐ Holds I s; exact hk) | simp only [id_eq] | with_reducible apply keeps_advance c_advance' | with_reducible apply keeps_putApply c_putApply' | with_reducible apply keeps_wr | with_reducible apply keeps_endApply c_endApply' | with_reducible apply keeps_restoreShadows c_restoreShadows' | with_reducible apply Keeps.foldl (I := I) | with_reducible apply Keeps.foldl₂ (I := I) | with_reducible apply Keeps.ite (I := I) | exact hc.mono (by decide +kernel) | split | intro s _ _ hk | intro s _ hk | intro s hk | with_reducible exact hk

theorem keeps_execConfigFieldWrite (hc : Closed I Touches.configFieldWrite) {s : State} (hk : Holds I s) (t : Instant) (offset : Fin 268435456) (value : Word) : ∃ u, execConfigFieldWrite t offset value s = .next u ∧ Holds I u := by
  have c_advance' : Closed I Touched.advance := hc.mono (by decide +kernel)
  have c_hostWrite' : Closed I Touched.hostWrite := hc.mono (by decide +kernel)
  have c_editField' : Closed I Touched.editField := hc.mono (by decide +kernel)
  refine ⟨_, rfl, ?_⟩
  try dsimp only
  repeat' first | (guard_target =ₐ Holds I s; exact hk) | simp only [id_eq] | with_reducible apply keeps_advance c_advance' | with_reducible apply keeps_hostWrite c_hostWrite' | with_reducible apply keeps_editField c_editField' | with_reducible apply Keeps.foldl (I := I) | with_reducible apply Keeps.foldl₂ (I := I) | with_reducible apply Keeps.ite (I := I) | split | intro s _ _ hk | intro s _ hk | intro s hk | with_reducible exact hk

theorem keeps_execConfigScan (hc : Closed I Touches.configScan) {s : State} (hk : Holds I s) (t : Instant) (bad : List (Nat × Bool)) : ∃ u, execConfigScan t bad s = .next u ∧ Holds I u := by
  have c_advance' : Closed I Touched.advance := hc.mono (by decide +kernel)
  have c_scanError' : Closed I Touched.scanError := hc.mono (by decide +kernel)
  refine ⟨_, rfl, ?_⟩
  try dsimp only
  repeat' first | (guard_target =ₐ Holds I s; exact hk) | simp only [id_eq] | with_reducible apply keeps_advance c_advance' | with_reducible apply keeps_scanError c_scanError' | with_reducible apply Keeps.foldl (I := I) | with_reducible apply Keeps.foldl₂ (I := I) | with_reducible apply Keeps.ite (I := I) | split | intro s _ _ hk | intro s _ hk | intro s hk | with_reducible exact hk

theorem keeps_execEditCommit (hc : Closed I Touches.editCommit) {s : State} (hk : Holds I s) (t : Instant) (p : Fin 16) : ∃ u, execEditCommit t p s = .next u ∧ Holds I u := by
  have c_advance' : Closed I Touched.advance := hc.mono (by decide +kernel)
  have c_hostWrite' : Closed I Touched.hostWrite := hc.mono (by decide +kernel)
  have c_lpEvent' : Closed I Touched.lpEvent := hc.mono (by decide +kernel)
  have c_putApply' : Closed I Touched.putApply := hc.mono (by decide +kernel)
  refine ⟨_, rfl, ?_⟩
  try dsimp only
  repeat' first | (guard_target =ₐ Holds I s; exact hk) | simp only [id_eq] | with_reducible apply keeps_advance c_advance' | with_reducible apply keeps_hostWrite c_hostWrite' | with_reducible apply keeps_lpEvent c_lpEvent' | with_reducible apply keeps_putApply c_putApply' | with_reducible apply Keeps.foldl (I := I) | with_reducible apply Keeps.foldl₂ (I := I) | with_reducible apply Keeps.ite (I := I) | split | intro s _ _ hk | intro s _ hk | intro s hk | with_reducible exact hk

theorem keeps_execEditDiscard (hc : Closed I Touches.editDiscard) {s : State} (hk : Holds I s) (t : Instant) (p : Fin 16) : ∃ u, execEditDiscard t p s = .next u ∧ Holds I u := by
  have c_advance' : Closed I Touched.advance := hc.mono (by decide +kernel)
  have c_hostWrite' : Closed I Touched.hostWrite := hc.mono (by decide +kernel)
  have c_discardEdits' : Closed I Touched.discardEdits := hc.mono (by decide +kernel)
  refine ⟨_, rfl, ?_⟩
  try dsimp only
  repeat' first | (guard_target =ₐ Holds I s; exact hk) | simp only [id_eq] | with_reducible apply keeps_advance c_advance' | with_reducible apply keeps_hostWrite c_hostWrite' | with_reducible apply keeps_discardEdits c_discardEdits' | with_reducible apply Keeps.foldl (I := I) | with_reducible apply Keeps.foldl₂ (I := I) | with_reducible apply Keeps.ite (I := I) | split | intro s _ _ hk | intro s _ hk | intro s hk | with_reducible exact hk

theorem keeps_execEventRouteEvent (hc : Closed I Touches.eventRouteEvent) {s : State} (hk : Holds I s) (t : Instant) (er : Fin 8192) (data : Word) : ∃ u, execEventRouteEvent t er data s = .next u ∧ Holds I u := by
  have c_advance' : Closed I Touched.advance := hc.mono (by decide +kernel)
  have c_emit' : Closed I Touched.emit := hc.mono (by decide +kernel)
  refine ⟨_, rfl, ?_⟩
  try dsimp only
  repeat' first | (guard_target =ₐ Holds I s; exact hk) | simp only [id_eq] | with_reducible apply keeps_advance c_advance' | with_reducible apply keeps_emit c_emit' | with_reducible apply Keeps.foldl (I := I) | with_reducible apply Keeps.foldl₂ (I := I) | with_reducible apply Keeps.ite (I := I) | split | intro s _ _ hk | intro s _ hk | intro s hk | with_reducible exact hk

theorem keeps_execFilterTake (hc : Closed I Touches.filterTake) {s : State} (hk : Holds I s) (t : Instant) (pin : Fin 192) : ∃ u, execFilterTake t pin s = .next u ∧ Holds I u := by
  have c_advance' : Closed I Touched.advance := hc.mono (by decide +kernel)
  have c_takePin' : Closed I Touched.takePin := hc.mono (by decide +kernel)
  refine ⟨_, rfl, ?_⟩
  try dsimp only
  repeat' first | (guard_target =ₐ Holds I s; exact hk) | simp only [id_eq] | with_reducible apply keeps_advance c_advance' | with_reducible apply keeps_takePin c_takePin' | with_reducible apply Keeps.foldl (I := I) | with_reducible apply Keeps.foldl₂ (I := I) | with_reducible apply Keeps.ite (I := I) | split | intro s _ _ hk | intro s _ hk | intro s hk | with_reducible exact hk

theorem keeps_execFioInputEdge (hc : Closed I Touches.fioInputEdge) {s : State} (hk : Holds I s) (t : Instant) (pin : Fin 192) (level : Bool) : ∃ u, execFioInputEdge t pin level s = .next u ∧ Holds I u := by
  have c_advance' : Closed I Touched.advance := hc.mono (by decide +kernel)
  have c_putPin' : Closed I Touched.putPin := hc.mono (by decide +kernel)
  have c_takePin' : Closed I Touched.takePin := hc.mono (by decide +kernel)
  refine ⟨_, rfl, ?_⟩
  try dsimp only
  repeat' first | (guard_target =ₐ Holds I s; exact hk) | simp only [id_eq] | with_reducible apply keeps_advance c_advance' | with_reducible apply keeps_putPin c_putPin' | with_reducible apply keeps_takePin c_takePin' | with_reducible apply Keeps.foldl (I := I) | with_reducible apply Keeps.foldl₂ (I := I) | with_reducible apply Keeps.ite (I := I) | split | intro s _ _ hk | intro s _ hk | intro s hk | with_reducible exact hk

theorem keeps_execJournalWriteDone (hc : Closed I Touches.journalWriteDone) {s : State} (hk : Holds I s) (t : Instant) (p : Fin 16) (good : Bool) : ∃ u, execJournalWriteDone t p good s = .next u ∧ Holds I u := by
  have c_advance' : Closed I Touched.advance := hc.mono (by decide +kernel)
  have c_writeJournal' : Closed I Touched.writeJournal := hc.mono (by decide +kernel)
  have c_putApply' : Closed I Touched.putApply := hc.mono (by decide +kernel)
  have c_putRecord' : Closed I Touched.putRecord := hc.mono (by decide +kernel)
  have c_endApply' : Closed I Touched.endApply := hc.mono (by decide +kernel)
  refine ⟨_, rfl, ?_⟩
  try dsimp only
  repeat' first | (guard_target =ₐ Holds I s; exact hk) | simp only [id_eq] | with_reducible apply keeps_advance c_advance' | with_reducible apply keeps_writeJournal c_writeJournal' | with_reducible apply keeps_putApply c_putApply' | with_reducible apply keeps_wr | with_reducible apply keeps_putRecord c_putRecord' | with_reducible apply keeps_endApply c_endApply' | with_reducible apply Keeps.foldl (I := I) | with_reducible apply Keeps.foldl₂ (I := I) | with_reducible apply Keeps.ite (I := I) | exact hc.mono (by decide +kernel) | split | intro s _ _ hk | intro s _ hk | intro s hk | with_reducible exact hk

theorem keeps_execLeInputChange (hc : Closed I Touches.leInputChange) {s : State} (hk : Holds I s) (t : Instant) (n : Fin 16384) (since : Instant) : ∃ u, execLeInputChange t n since s = .next u ∧ Holds I u := by
  have c_advance' : Closed I Touched.advance := hc.mono (by decide +kernel)
  have c_evalLe' : Closed I Touched.evalLe := hc.mono (by decide +kernel)
  refine ⟨_, rfl, ?_⟩
  try dsimp only
  repeat' first | (guard_target =ₐ Holds I s; exact hk) | simp only [id_eq] | with_reducible apply keeps_advance c_advance' | with_reducible apply keeps_evalLe c_evalLe' | with_reducible apply Keeps.foldl (I := I) | with_reducible apply Keeps.foldl₂ (I := I) | with_reducible apply Keeps.ite (I := I) | split | intro s _ _ hk | intro s _ hk | intro s hk | with_reducible exact hk

theorem keeps_execLeTimerExpiry (hc : Closed I Touches.leTimerExpiry) {s : State} (hk : Holds I s) (t : Instant) (n : Fin 16384) : ∃ u, execLeTimerExpiry t n s = .next u ∧ Holds I u := by
  have c_advance' : Closed I Touched.advance := hc.mono (by decide +kernel)
  have c_putLe' : Closed I Touched.putLe := hc.mono (by decide +kernel)
  have c_setLe' : Closed I Touched.setLe := hc.mono (by decide +kernel)
  refine ⟨_, rfl, ?_⟩
  try dsimp only
  repeat' first | (guard_target =ₐ Holds I s; exact hk) | simp only [id_eq] | with_reducible apply keeps_advance c_advance' | with_reducible apply keeps_putLe c_putLe' | with_reducible apply keeps_when | with_reducible apply keeps_setLe c_setLe' | with_reducible apply Keeps.foldl (I := I) | with_reducible apply Keeps.foldl₂ (I := I) | with_reducible apply Keeps.ite (I := I) | split | intro s _ _ hk | intro s _ hk | intro s hk | with_reducible exact hk

theorem keeps_execLoadDraft (hc : Closed I Touches.loadDraft) {s : State} (hk : Holds I s) (t : Instant) (p : Fin 16) (img : DraftImg) (room : Bool) : ∃ u, execLoadDraft t p img room s = .next u ∧ Holds I u := by
  have c_loom : Closed I { parts := [.loom] } := hc.mono (by decide +kernel)
  have c_hostCommand' : Closed I Touched.hostCommand := hc.mono (by decide +kernel)
  have c_advance' : Closed I Touched.advance := hc.mono (by decide +kernel)
  have c_loading' : Closed I Touched.loading := hc.mono (by decide +kernel)
  have c_reply' : Closed I Touched.reply := hc.mono (by decide +kernel)
  have c_showDraft' : Closed I Touched.showDraft := hc.mono (by decide +kernel)
  refine ⟨_, rfl, ?_⟩
  try dsimp only
  repeat' first | (guard_target =ₐ Holds I s; exact hk) | simp only [ic_mk, id_eq] | with_reducible refine ic_loom c_loom (ic_fold ?_) | with_reducible apply keeps_hostCommand c_hostCommand' | with_reducible apply keeps_advance c_advance' | with_reducible apply keeps_loading c_loading' | with_reducible apply keeps_reply c_reply' | with_reducible apply keeps_wr | with_reducible apply keeps_showDraft c_showDraft' | with_reducible apply Keeps.foldl (I := I) | with_reducible apply Keeps.foldl₂ (I := I) | with_reducible apply Keeps.ite (I := I) | exact hc.mono (by decide +kernel) | split | intro s _ _ hk | intro s _ hk | intro s hk | with_reducible exact hk

theorem keeps_execPlaneFlip (hc : Closed I Touches.planeFlip) {s : State} (hk : Holds I s) (t : Instant) (p : Fin 16) : ∃ u, execPlaneFlip t p s = .next u ∧ Holds I u := by
  have c_advance' : Closed I Touched.advance := hc.mono (by decide +kernel)
  have c_putApply' : Closed I Touched.putApply := hc.mono (by decide +kernel)
  have c_flipRecords' : Closed I Touched.flipRecords := hc.mono (by decide +kernel)
  have c_flipEdits' : Closed I Touched.flipEdits := hc.mono (by decide +kernel)
  have c_endApply' : Closed I Touched.endApply := hc.mono (by decide +kernel)
  refine ⟨_, rfl, ?_⟩
  try dsimp only
  repeat' first | (guard_target =ₐ Holds I s; exact hk) | simp only [id_eq] | with_reducible apply keeps_advance c_advance' | with_reducible apply keeps_putApply c_putApply' | with_reducible apply keeps_wr | with_reducible apply keeps_wrT | with_reducible apply keeps_flipRecords c_flipRecords' | with_reducible apply keeps_when | with_reducible apply keeps_flipEdits c_flipEdits' | with_reducible apply keeps_endApply c_endApply' | with_reducible apply Keeps.foldl (I := I) | with_reducible apply Keeps.foldl₂ (I := I) | with_reducible apply Keeps.ite (I := I) | exact hc.mono (by decide +kernel) | split | intro s _ _ hk | intro s _ hk | intro s hk | with_reducible exact hk

theorem keeps_execRouteStall (hc : Closed I Touches.routeStall) {s : State} (hk : Holds I s) (t : Instant) (kind : Fin 3) (id : Fin 16384) : ∃ u, execRouteStall t kind id s = .next u ∧ Holds I u := by
  have c_advance' : Closed I Touched.advance := hc.mono (by decide +kernel)
  have c_sysFault' : Closed I Touched.sysFault := hc.mono (by decide +kernel)
  have c_partStop' : Closed I Touched.partStop := hc.mono (by decide +kernel)
  refine ⟨_, rfl, ?_⟩
  try dsimp only
  repeat' first | (guard_target =ₐ Holds I s; exact hk) | simp only [id_eq] | with_reducible apply keeps_advance c_advance' | with_reducible apply keeps_setBit | with_reducible apply keeps_wr | with_reducible apply keeps_sysFault c_sysFault' | with_reducible apply keeps_partStop c_partStop' | with_reducible apply Keeps.foldl (I := I) | with_reducible apply Keeps.foldl₂ (I := I) | with_reducible apply Keeps.ite (I := I) | exact hc.mono (by decide +kernel) | split | intro s _ _ hk | intro s _ hk | intro s hk | with_reducible exact hk

end Sys2Proof.Machine
end

