-- ==== Sys2Proof/Laws/Keeps/Loop.lean ====
section
/-! SUPPORT.  What the operations of Machine/Loop.lean touch, and that they keep every property
closed under it. -/

namespace Sys2Proof.Machine

open Sys2Proof

set_option Elab.async false
set_option linter.unusedSimpArgs false
set_option linter.unusedVariables false
set_option linter.unusedTactic false
set_option linter.unreachableTactic false

variable {I : State → Prop}

def Touched.lcCtrlFields : Touch :=
  { regs := [F.LC_CTRL_INIT_LEVEL, F.LC_CTRL_VIEW, F.LC_CTRL_MODE] }

theorem keeps_lcCtrlFields (hc : Closed I Touched.lcCtrlFields) {s : State} (hk : Holds I s) (n : Nat) (v : Nat) (open_ : Bool) : Holds I (State.lcCtrlFields s n v open_) := by
  unfold State.lcCtrlFields
  try dsimp only
  repeat' first | (guard_target =ₐ Holds I s; exact hk) | simp only [id_eq] | with_reducible apply keeps_wr | with_reducible apply Keeps.foldl (I := I) | with_reducible apply Keeps.foldl₂ (I := I) | with_reducible apply Keeps.ite (I := I) | exact hc.mono (by decide +kernel) | split | intro s _ _ hk | intro s _ hk | intro s hk | with_reducible exact hk

def Touched.noteStale : Touch :=
  { regs := [F.LC_SUP_EVENT_Y_STALE, F.LC_DIAG_CNT_STALE_CNT] }

theorem keeps_noteStale (hc : Closed I Touched.noteStale) {s : State} (hk : Holds I s) (n : Nat) : Holds I (State.noteStale s n) := by
  unfold State.noteStale
  try dsimp only
  repeat' first | (guard_target =ₐ Holds I s; exact hk) | simp only [id_eq] | with_reducible apply keeps_wr | with_reducible apply keeps_bump | with_reducible apply Keeps.foldl (I := I) | with_reducible apply Keeps.foldl₂ (I := I) | with_reducible apply Keeps.ite (I := I) | exact hc.mono (by decide +kernel) | split | intro s _ _ hk | intro s _ hk | intro s hk | with_reducible exact hk

def Touched.takeSnapshotOf : Touch :=
  { parts := [.cells] }

theorem keeps_takeSnapshotOf (hc : Closed I Touched.takeSnapshotOf) {s : State} (hk : Holds I s) (n : Nat) : Holds I (State.takeSnapshotOf s n) := by
  have c_putCell' : Closed I Touched.putCell := hc.mono (by decide +kernel)
  unfold State.takeSnapshotOf
  try dsimp only
  repeat' first | (guard_target =ₐ Holds I s; exact hk) | simp only [id_eq] | with_reducible apply keeps_putCell c_putCell' | with_reducible apply Keeps.foldl (I := I) | with_reducible apply Keeps.foldl₂ (I := I) | with_reducible apply Keeps.ite (I := I) | split | intro s _ _ hk | intro s _ hk | intro s hk | with_reducible exact hk

theorem keeps_execBankWindowWrite (hc : Closed I Touches.bankWindowWrite) {s : State} (hk : Holds I s) (t : Instant) (n : Fin 1024) (k : Fin 24) (value : Word) : ∃ u, execBankWindowWrite t n k value s = .next u ∧ Holds I u := by
  have c_advance' : Closed I Touched.advance := hc.mono (by decide +kernel)
  have c_hostWrite' : Closed I Touched.hostWrite := hc.mono (by decide +kernel)
  have c_discardOther' : Closed I Touched.discardOther := hc.mono (by decide +kernel)
  have c_putShadow' : Closed I Touched.putShadow := hc.mono (by decide +kernel)
  refine ⟨_, rfl, ?_⟩
  try dsimp only
  repeat' first | (guard_target =ₐ Holds I s; exact hk) | simp only [id_eq] | with_reducible apply keeps_advance c_advance' | with_reducible apply keeps_hostWrite c_hostWrite' | with_reducible apply keeps_discardOther c_discardOther' | with_reducible apply keeps_wr | with_reducible apply keeps_putShadow c_putShadow' | with_reducible apply Keeps.foldl (I := I) | with_reducible apply Keeps.foldl₂ (I := I) | with_reducible apply Keeps.ite (I := I) | exact hc.mono (by decide +kernel) | split | intro s _ _ hk | intro s _ hk | intro s hk | with_reducible exact hk

theorem keeps_execCStateWrite (hc : Closed I Touches.cStateWrite) {s : State} (hk : Holds I s) (t : Instant) (n : Fin 1024) (value : BitVec 48) : ∃ u, execCStateWrite t n value s = .next u ∧ Holds I u := by
  have c_advance' : Closed I Touched.advance := hc.mono (by decide +kernel)
  have c_rwlWrite' : Closed I Touched.rwlWrite := hc.mono (by decide +kernel)
  have c_putCs' : Closed I Touched.putCs := hc.mono (by decide +kernel)
  have c_putCell' : Closed I Touched.putCell := hc.mono (by decide +kernel)
  refine ⟨_, rfl, ?_⟩
  try dsimp only
  repeat' first | (guard_target =ₐ Holds I s; exact hk) | simp only [id_eq] | with_reducible apply keeps_advance c_advance' | with_reducible apply keeps_rwlWrite c_rwlWrite' | with_reducible apply keeps_putCs c_putCs' | with_reducible apply keeps_putCell c_putCell' | with_reducible apply Keeps.foldl (I := I) | with_reducible apply Keeps.foldl₂ (I := I) | with_reducible apply Keeps.ite (I := I) | split | intro s _ _ hk | intro s _ hk | intro s hk | with_reducible exact hk

theorem keeps_execComparatorRelease (hc : Closed I Touches.comparatorRelease) {s : State} (hk : Holds I s) (t : Instant) (ain : Fin 96) (rise : Bool) : ∃ u, execComparatorRelease t ain rise s = .next u ∧ Holds I u := by
  have c_advance' : Closed I Touched.advance := hc.mono (by decide +kernel)
  have c_putCell' : Closed I Touched.putCell := hc.mono (by decide +kernel)
  refine ⟨_, rfl, ?_⟩
  try dsimp only
  repeat' first | (guard_target =ₐ Holds I s; exact hk) | simp only [id_eq] | with_reducible apply keeps_advance c_advance' | with_reducible apply keeps_putCell c_putCell' | with_reducible apply Keeps.foldl (I := I) | with_reducible apply Keeps.foldl₂ (I := I) | with_reducible apply Keeps.ite (I := I) | split | intro s _ _ hk | intro s _ hk | intro s hk | with_reducible exact hk

theorem keeps_execComparatorTrip (hc : Closed I Touches.comparatorTrip) {s : State} (hk : Holds I s) (t : Instant) (ain : Fin 96) (rise : Bool) : ∃ u, execComparatorTrip t ain rise s = .next u ∧ Holds I u := by
  have c_advance' : Closed I Touched.advance := hc.mono (by decide +kernel)
  have c_putCell' : Closed I Touched.putCell := hc.mono (by decide +kernel)
  have c_eventMove' : Closed I Touched.eventMove := hc.mono (by decide +kernel)
  refine ⟨_, rfl, ?_⟩
  try dsimp only
  repeat' first | (guard_target =ₐ Holds I s; exact hk) | simp only [id_eq] | with_reducible apply keeps_advance c_advance' | with_reducible apply keeps_putCell c_putCell' | with_reducible apply keeps_eventMove c_eventMove' | with_reducible apply keeps_wr | with_reducible apply Keeps.foldl (I := I) | with_reducible apply Keeps.foldl₂ (I := I) | with_reducible apply Keeps.ite (I := I) | exact hc.mono (by decide +kernel) | split | intro s _ _ hk | intro s _ hk | intro s hk | with_reducible exact hk

theorem keeps_execCopy (hc : Closed I Touches.copy) {s : State} (hk : Holds I s) (t : Instant) (n : Fin 1024) : ∃ u, execCopy t n s = .next u ∧ Holds I u := by
  have c_advance' : Closed I Touched.advance := hc.mono (by decide +kernel)
  have c_hostWrite' : Closed I Touched.hostWrite := hc.mono (by decide +kernel)
  have c_discardOther' : Closed I Touched.discardOther := hc.mono (by decide +kernel)
  have c_putShadow' : Closed I Touched.putShadow := hc.mono (by decide +kernel)
  refine ⟨_, rfl, ?_⟩
  try dsimp only
  repeat' first | (guard_target =ₐ Holds I s; exact hk) | simp only [id_eq] | with_reducible apply keeps_advance c_advance' | with_reducible apply keeps_hostWrite c_hostWrite' | with_reducible apply keeps_discardOther c_discardOther' | with_reducible apply keeps_wr | with_reducible apply keeps_putShadow c_putShadow' | with_reducible apply Keeps.foldl (I := I) | with_reducible apply Keeps.foldl₂ (I := I) | with_reducible apply Keeps.ite (I := I) | exact hc.mono (by decide +kernel) | split | intro s _ _ hk | intro s _ hk | intro s hk | with_reducible exact hk

theorem keeps_execEventHoldEnd (hc : Closed I Touches.eventHoldEnd) {s : State} (hk : Holds I s) (t : Instant) (n : Fin 1024) : ∃ u, execEventHoldEnd t n s = .next u ∧ Holds I u := by
  have c_advance' : Closed I Touched.advance := hc.mono (by decide +kernel)
  have c_eventMove' : Closed I Touched.eventMove := hc.mono (by decide +kernel)
  refine ⟨_, rfl, ?_⟩
  try dsimp only
  repeat' first | (guard_target =ₐ Holds I s; exact hk) | simp only [id_eq] | with_reducible apply keeps_advance c_advance' | with_reducible apply keeps_eventMove c_eventMove' | with_reducible apply Keeps.foldl (I := I) | with_reducible apply Keeps.foldl₂ (I := I) | with_reducible apply Keeps.ite (I := I) | split | intro s _ _ hk | intro s _ hk | intro s hk | with_reducible exact hk

theorem keeps_execLcDisable (hc : Closed I Touches.lcDisable) {s : State} (hk : Holds I s) (t : Instant) (n : Fin 1024) (value : Word) : ∃ u, execLcDisable t n value s = .next u ∧ Holds I u := by
  have c_advance' : Closed I Touched.advance := hc.mono (by decide +kernel)
  have c_hostWrite' : Closed I Touched.hostWrite := hc.mono (by decide +kernel)
  have c_lcCtrlFields' : Closed I Touched.lcCtrlFields := hc.mono (by decide +kernel)
  have c_haltCell' : Closed I Touched.haltCell := hc.mono (by decide +kernel)
  have c_discard' : Closed I Touched.discard := hc.mono (by decide +kernel)
  refine ⟨_, rfl, ?_⟩
  try dsimp only
  repeat' first | (guard_target =ₐ Holds I s; exact hk) | simp only [id_eq] | with_reducible apply keeps_advance c_advance' | with_reducible apply keeps_hostWrite c_hostWrite' | with_reducible apply keeps_lcCtrlFields c_lcCtrlFields' | with_reducible apply keeps_haltCell c_haltCell' | with_reducible apply keeps_discard c_discard' | with_reducible apply Keeps.foldl (I := I) | with_reducible apply Keeps.foldl₂ (I := I) | with_reducible apply Keeps.ite (I := I) | split | intro s _ _ hk | intro s _ hk | intro s hk | with_reducible exact hk

theorem keeps_execLcEnable (hc : Closed I Touches.lcEnable) {s : State} (hk : Holds I s) (t : Instant) (n : Fin 1024) (value : Word) : ∃ u, execLcEnable t n value s = .next u ∧ Holds I u := by
  have c_advance' : Closed I Touched.advance := hc.mono (by decide +kernel)
  have c_hostWrite' : Closed I Touched.hostWrite := hc.mono (by decide +kernel)
  have c_discardOther' : Closed I Touched.discardOther := hc.mono (by decide +kernel)
  have c_lcCtrlFields' : Closed I Touched.lcCtrlFields := hc.mono (by decide +kernel)
  have c_discard' : Closed I Touched.discard := hc.mono (by decide +kernel)
  have c_startCell' : Closed I Touched.startCell := hc.mono (by decide +kernel)
  have c_startWake' : Closed I Touched.startWake := hc.mono (by decide +kernel)
  have c_runChange' : Closed I Touched.runChange := hc.mono (by decide +kernel)
  have c_wakeQuadrant' : Closed I Touched.wakeQuadrant := hc.mono (by decide +kernel)
  refine ⟨_, rfl, ?_⟩
  try dsimp only
  repeat' first | (guard_target =ₐ Holds I s; exact hk) | simp only [id_eq] | with_reducible apply keeps_advance c_advance' | with_reducible apply keeps_hostWrite c_hostWrite' | with_reducible apply keeps_discardOther c_discardOther' | with_reducible apply keeps_lcCtrlFields c_lcCtrlFields' | with_reducible apply keeps_discard c_discard' | with_reducible apply keeps_wr | with_reducible apply keeps_startCell c_startCell' | with_reducible apply keeps_startWake c_startWake' | with_reducible apply keeps_runChange c_runChange' | with_reducible apply keeps_wakeQuadrant c_wakeQuadrant' | with_reducible apply Keeps.foldl (I := I) | with_reducible apply Keeps.foldl₂ (I := I) | with_reducible apply Keeps.ite (I := I) | exact hc.mono (by decide +kernel) | split | intro s _ _ hk | intro s _ hk | intro s hk | with_reducible exact hk

theorem keeps_execLcSnapshotRead (hc : Closed I Touches.lcSnapshotRead) {s : State} (hk : Holds I s) (t : Instant) (n : Fin 1024) : ∃ u, execLcSnapshotRead t n s = .next u ∧ Holds I u := by
  have c_advance' : Closed I Touched.advance := hc.mono (by decide +kernel)
  have c_answerWord' : Closed I Touched.answerWord := hc.mono (by decide +kernel)
  have c_takeSnapshotOf' : Closed I Touched.takeSnapshotOf := hc.mono (by decide +kernel)
  refine ⟨_, rfl, ?_⟩
  try dsimp only
  repeat' first | (guard_target =ₐ Holds I s; exact hk) | simp only [id_eq] | with_reducible apply keeps_advance c_advance' | with_reducible apply keeps_answerWord c_answerWord' | with_reducible apply keeps_takeSnapshotOf c_takeSnapshotOf' | with_reducible apply Keeps.foldl (I := I) | with_reducible apply Keeps.foldl₂ (I := I) | with_reducible apply Keeps.ite (I := I) | split | intro s _ _ hk | intro s _ hk | intro s hk | with_reducible exact hk

theorem keeps_execLoopRelease (hc : Closed I Touches.loopRelease) {s : State} (hk : Holds I s) (t : Instant) (n : Fin 1024) (resultFirst : Bool) : ∃ u, execLoopRelease t n resultFirst s = .next u ∧ Holds I u := by
  have c_advance' : Closed I Touched.advance := hc.mono (by decide +kernel)
  have c_safeRelease' : Closed I Touched.safeRelease := hc.mono (by decide +kernel)
  have c_releaseEval' : Closed I Touched.releaseEval := hc.mono (by decide +kernel)
  have c_putCell' : Closed I Touched.putCell := hc.mono (by decide +kernel)
  have c_lateCell' : Closed I Touched.lateCell := hc.mono (by decide +kernel)
  have c_faultNow' : Closed I Touched.faultNow := hc.mono (by decide +kernel)
  refine ⟨_, rfl, ?_⟩
  try dsimp only
  repeat' first | (guard_target =ₐ Holds I s; exact hk) | simp only [id_eq] | with_reducible apply keeps_advance c_advance' | with_reducible apply keeps_safeRelease c_safeRelease' | with_reducible apply keeps_releaseEval c_releaseEval' | with_reducible apply keeps_putCell c_putCell' | with_reducible apply keeps_lateCell c_lateCell' | with_reducible apply keeps_faultNow c_faultNow' | with_reducible apply Keeps.foldl (I := I) | with_reducible apply Keeps.foldl₂ (I := I) | with_reducible apply Keeps.ite (I := I) | split | intro s _ _ hk | intro s _ hk | intro s hk | with_reducible exact hk

theorem keeps_execLoopResultReady (hc : Closed I Touches.loopResultReady) {s : State} (hk : Holds I s) (t : Instant) (n : Fin 1024) (arith : Bool) (parity : Bool) : ∃ u, execLoopResultReady t n arith parity s = .next u ∧ Holds I u := by
  have c_advance' : Closed I Touched.advance := hc.mono (by decide +kernel)
  have c_putCell' : Closed I Touched.putCell := hc.mono (by decide +kernel)
  have c_noteSlack' : Closed I Touched.noteSlack := hc.mono (by decide +kernel)
  refine ⟨_, rfl, ?_⟩
  try dsimp only
  repeat' first | (guard_target =ₐ Holds I s; exact hk) | simp only [id_eq] | with_reducible apply keeps_advance c_advance' | with_reducible apply keeps_putCell c_putCell' | with_reducible apply keeps_noteSlack c_noteSlack' | with_reducible apply Keeps.foldl (I := I) | with_reducible apply Keeps.foldl₂ (I := I) | with_reducible apply Keeps.ite (I := I) | split | intro s _ _ hk | intro s _ hk | intro s hk | with_reducible exact hk

theorem keeps_execLoopStrobe (hc : Closed I Touches.loopStrobe) {s : State} (hk : Holds I s) (t : Instant) (n : Fin 1024) : ∃ u, execLoopStrobe t n s = .next u ∧ Holds I u := by
  have c_advance' : Closed I Touched.advance := hc.mono (by decide +kernel)
  have c_trySwap' : Closed I Touched.trySwap := hc.mono (by decide +kernel)
  have c_noteStale' : Closed I Touched.noteStale := hc.mono (by decide +kernel)
  have c_putCell' : Closed I Touched.putCell := hc.mono (by decide +kernel)
  have c_strobeAin' : Closed I Touched.strobeAin := hc.mono (by decide +kernel)
  have c_launch' : Closed I Touched.launch := hc.mono (by decide +kernel)
  refine ⟨_, rfl, ?_⟩
  try dsimp only
  repeat' first | (guard_target =ₐ Holds I s; exact hk) | simp only [id_eq] | with_reducible apply keeps_advance c_advance' | with_reducible apply keeps_trySwap c_trySwap' | with_reducible apply keeps_noteStale c_noteStale' | with_reducible apply keeps_putCell c_putCell' | with_reducible apply keeps_strobeAin c_strobeAin' | with_reducible apply keeps_launch c_launch' | with_reducible apply Keeps.foldl (I := I) | with_reducible apply Keeps.foldl₂ (I := I) | with_reducible apply Keeps.ite (I := I) | split | intro s _ _ hk | intro s _ hk | intro s hk | with_reducible exact hk

theorem keeps_execPwmEdge (hc : Closed I Touches.pwmEdge) {s : State} (hk : Holds I s) (t : Instant) (pin : Fin 192) : ∃ u, execPwmEdge t pin s = .next u ∧ Holds I u := by
  have c_advance' : Closed I Touched.advance := hc.mono (by decide +kernel)
  have c_settle' : Closed I Touched.settle := hc.mono (by decide +kernel)
  have c_putPin' : Closed I Touched.putPin := hc.mono (by decide +kernel)
  refine ⟨_, rfl, ?_⟩
  try dsimp only
  repeat' first | (guard_target =ₐ Holds I s; exact hk) | simp only [id_eq] | with_reducible apply keeps_advance c_advance' | with_reducible apply keeps_settle c_settle' | with_reducible apply keeps_putPin c_putPin' | with_reducible apply Keeps.foldl (I := I) | with_reducible apply Keeps.foldl₂ (I := I) | with_reducible apply Keeps.ite (I := I) | split | intro s _ _ hk | intro s _ hk | intro s hk | with_reducible exact hk

theorem keeps_execSwap (hc : Closed I Touches.swap) {s : State} (hk : Holds I s) (t : Instant) (n : Fin 1024) : ∃ u, execSwap t n s = .next u ∧ Holds I u := by
  have c_advance' : Closed I Touched.advance := hc.mono (by decide +kernel)
  have c_hostWrite' : Closed I Touched.hostWrite := hc.mono (by decide +kernel)
  have c_discardOther' : Closed I Touched.discardOther := hc.mono (by decide +kernel)
  have c_putCell' : Closed I Touched.putCell := hc.mono (by decide +kernel)
  have c_trySwap' : Closed I Touched.trySwap := hc.mono (by decide +kernel)
  refine ⟨_, rfl, ?_⟩
  try dsimp only
  repeat' first | (guard_target =ₐ Holds I s; exact hk) | simp only [id_eq] | with_reducible apply keeps_advance c_advance' | with_reducible apply keeps_hostWrite c_hostWrite' | with_reducible apply keeps_discardOther c_discardOther' | with_reducible apply keeps_wr | with_reducible apply keeps_putCell c_putCell' | with_reducible apply keeps_trySwap c_trySwap' | with_reducible apply Keeps.foldl (I := I) | with_reducible apply Keeps.foldl₂ (I := I) | with_reducible apply Keeps.ite (I := I) | exact hc.mono (by decide +kernel) | split | intro s _ _ hk | intro s _ hk | intro s hk | with_reducible exact hk

end Sys2Proof.Machine
end

