-- ==== Sys2Proof/Laws/Keeps/LoopSup.lean ====
section
/-! SUPPORT.  What the operations of Machine/LoopSup.lean touch, and that they keep every property
closed under it. -/

namespace Sys2Proof.Machine

open Sys2Proof

set_option Elab.async false
set_option linter.unusedSimpArgs false
set_option linter.unusedVariables false
set_option linter.unusedTactic false
set_option linter.unreachableTactic false

variable {I : State → Prop}

def Touched.putRot : Touch :=
  { parts := [.rot] }

theorem keeps_putRot (hc : Closed I Touched.putRot) {s : State} (hk : Holds I s) (r : Rotation) : Holds I (State.putRot s r) := by
  have c_rot : Closed I { parts := [.rot] } := hc.mono (by decide +kernel)
  unfold State.putRot
  try dsimp only
  repeat' first | (guard_target =ₐ Holds I s; exact hk) | simp only [ic_mk, id_eq] | with_reducible refine ic_rot c_rot (ic_fold ?_) | with_reducible apply Keeps.foldl (I := I) | with_reducible apply Keeps.foldl₂ (I := I) | with_reducible apply Keeps.ite (I := I) | split | intro s _ _ hk | intro s _ hk | intro s hk | with_reducible exact hk

def Touched.nextGroup : Touch :=
  { regs := [F.ANA_ROT_STATUS_NEXT_GROUP] }

theorem keeps_nextGroup (hc : Closed I Touched.nextGroup) {s : State} (hk : Holds I s) (g : Nat) : Holds I (State.nextGroup s g) := by
  unfold State.nextGroup
  try dsimp only
  repeat' first | (guard_target =ₐ Holds I s; exact hk) | simp only [id_eq] | with_reducible apply keeps_wr | with_reducible apply Keeps.foldl (I := I) | with_reducible apply Keeps.foldl₂ (I := I) | with_reducible apply Keeps.ite (I := I) | exact hc.mono (by decide +kernel) | split | intro s _ _ hk | intro s _ hk | intro s hk | with_reducible exact hk

def Touched.showCal : Touch :=
  { regs := [F.ANA_CAL_REQ_POS, F.ANA_CAL_REQ_STATE] }

theorem keeps_showCal (hc : Closed I Touched.showCal) {s : State} (hk : Holds I s) : Holds I (State.showCal s) := by
  unfold State.showCal
  try dsimp only
  repeat' first | (guard_target =ₐ Holds I s; exact hk) | simp only [id_eq] | with_reducible apply keeps_wr | with_reducible apply Keeps.foldl (I := I) | with_reducible apply Keeps.foldl₂ (I := I) | with_reducible apply Keeps.ite (I := I) | exact hc.mono (by decide +kernel) | split | intro s _ _ hk | intro s _ hk | intro s hk | with_reducible exact hk

def Touched.retire : Touch :=
  { regs := [F.ANA_ROT_STATUS_SPARE_BAD, F.ANA_EVENT_CAL_FAIL], parts := [.conv, .rot] }

theorem keeps_retire (hc : Closed I Touched.retire) {s : State} (hk : Holds I s) (v : Nat) : Holds I (State.retire s v) := by
  have c_conv : Closed I { parts := [.conv] } := hc.mono (by decide +kernel)
  have c_putRot' : Closed I Touched.putRot := hc.mono (by decide +kernel)
  unfold State.retire
  try dsimp only
  repeat' first | (guard_target =ₐ Holds I s; exact hk) | simp only [ic_mk, id_eq] | with_reducible refine ic_conv c_conv (ic_fold ?_) | with_reducible apply keeps_putRot c_putRot' | with_reducible apply keeps_wr | with_reducible apply Keeps.foldl (I := I) | with_reducible apply Keeps.foldl₂ (I := I) | with_reducible apply Keeps.ite (I := I) | exact hc.mono (by decide +kernel) | split | intro s _ _ hk | intro s _ hk | intro s hk | with_reducible exact hk

def Touched.endSlot : Touch :=
  { anyReg := true, parts := [.conv, .rot] }

theorem keeps_endSlot (hc : Closed I Touched.endSlot) {s : State} (hk : Holds I s) (g : Nat) (agree : Bool) : Holds I (State.endSlot s g agree) := by
  have c_putRot' : Closed I Touched.putRot := hc.mono (by decide +kernel)
  have c_nextGroup' : Closed I Touched.nextGroup := hc.mono (by decide +kernel)
  have c_showCal' : Closed I Touched.showCal := hc.mono (by decide +kernel)
  have c_retire' : Closed I Touched.retire := hc.mono (by decide +kernel)
  unfold State.endSlot
  try dsimp only
  repeat' first | (guard_target =ₐ Holds I s; exact hk) | simp only [id_eq] | with_reducible apply keeps_putRot c_putRot' | with_reducible apply keeps_nextGroup c_nextGroup' | with_reducible apply keeps_wr | with_reducible apply keeps_showCal c_showCal' | with_reducible apply keeps_retire c_retire' | with_reducible apply Keeps.foldl (I := I) | with_reducible apply Keeps.foldl₂ (I := I) | with_reducible apply Keeps.ite (I := I) | exact hc.anyFld rfl _ | split | intro s _ _ hk | intro s _ hk | intro s hk | with_reducible exact hk

def Touched.crossCheck : Touch :=
  { anyReg := true, parts := [.conv, .rot] }

theorem keeps_crossCheck (hc : Closed I Touched.crossCheck) {s : State} (hk : Holds I s) (g : Nat) (raw : Nat) (spareRaw : Nat) : Holds I (State.crossCheck s g raw spareRaw) := by
  have c_putRot' : Closed I Touched.putRot := hc.mono (by decide +kernel)
  have c_endSlot' : Closed I Touched.endSlot := hc.mono (by decide +kernel)
  have hm : ∀ g, Closed I (anaMapFld g).touch := by intro g; unfold anaMapFld; split <;> exact hc.mono (by decide +kernel)
  unfold State.crossCheck
  try dsimp only
  repeat' first | (guard_target =ₐ Holds I s; exact hk) | simp only [id_eq] | with_reducible apply keeps_putRot c_putRot' | with_reducible apply keeps_endSlot c_endSlot' | with_reducible apply Keeps.foldl (I := I) | with_reducible apply Keeps.foldl₂ (I := I) | with_reducible apply Keeps.ite (I := I) | exact hm _ | split | intro s _ _ hk | intro s _ hk | intro s hk | with_reducible exact hk

theorem keeps_execCalRequest (hc : Closed I Touches.calRequest) {s : State} (hk : Holds I s) (t : Instant) (conv : Fin 25) : ∃ u, execCalRequest t conv s = .next u ∧ Holds I u := by
  have c_advance' : Closed I Touched.advance := hc.mono (by decide +kernel)
  have c_hostWrite' : Closed I Touched.hostWrite := hc.mono (by decide +kernel)
  have c_putRot' : Closed I Touched.putRot := hc.mono (by decide +kernel)
  have c_showCal' : Closed I Touched.showCal := hc.mono (by decide +kernel)
  refine ⟨_, rfl, ?_⟩
  try dsimp only
  repeat' first | (guard_target =ₐ Holds I s; exact hk) | simp only [id_eq] | with_reducible apply keeps_advance c_advance' | with_reducible apply keeps_hostWrite c_hostWrite' | with_reducible apply keeps_wr | with_reducible apply keeps_putRot c_putRot' | with_reducible apply keeps_showCal c_showCal' | with_reducible apply Keeps.foldl (I := I) | with_reducible apply Keeps.foldl₂ (I := I) | with_reducible apply Keeps.ite (I := I) | exact hc.mono (by decide +kernel) | split | intro s _ _ hk | intro s _ hk | intro s hk | with_reducible exact hk

theorem keeps_execCalibrationDone (hc : Closed I Touches.calibrationDone) {s : State} (hk : Holds I s) (t : Instant) (gain : BitVec 16) (offs : BitVec 16) : ∃ u, execCalibrationDone t gain offs s = .next u ∧ Holds I u := by
  have c_conv : Closed I { parts := [.conv] } := hc.mono (by decide +kernel)
  have c_advance' : Closed I Touched.advance := hc.mono (by decide +kernel)
  have c_retire' : Closed I Touched.retire := hc.mono (by decide +kernel)
  have c_putRot' : Closed I Touched.putRot := hc.mono (by decide +kernel)
  refine ⟨_, rfl, ?_⟩
  try dsimp only
  repeat' first | (guard_target =ₐ Holds I s; exact hk) | simp only [ic_mk, id_eq] | with_reducible refine ic_conv c_conv (ic_fold ?_) | with_reducible apply keeps_advance c_advance' | with_reducible apply keeps_wr | with_reducible apply keeps_retire c_retire' | with_reducible apply keeps_putRot c_putRot' | with_reducible apply Keeps.foldl (I := I) | with_reducible apply Keeps.foldl₂ (I := I) | with_reducible apply Keeps.ite (I := I) | exact hc.mono (by decide +kernel) | split | intro s _ _ hk | intro s _ hk | intro s hk | with_reducible exact hk

theorem keeps_execConversionDone (hc : Closed I Touches.conversionDone) {s : State} (hk : Holds I s) (t : Instant) (ain : Fin 96) (raw : BitVec 16) (spareRaw : BitVec 16) : ∃ u, execConversionDone t ain raw spareRaw s = .next u ∧ Holds I u := by
  have c_ain : Closed I { parts := [.ain] } := hc.mono (by decide +kernel)
  have c_advance' : Closed I Touched.advance := hc.mono (by decide +kernel)
  have c_takeTap' : Closed I Touched.takeTap := hc.mono (by decide +kernel)
  have c_capSample' : Closed I Touched.capSample := hc.mono (by decide +kernel)
  have c_partStore' : Closed I Touched.partStore := hc.mono (by decide +kernel)
  have c_launch' : Closed I Touched.launch := hc.mono (by decide +kernel)
  have c_crossCheck' : Closed I Touched.crossCheck := hc.mono (by decide +kernel)
  have c_publish' : Closed I Touched.publish := hc.mono (by decide +kernel)
  have c_axConversion' : Closed I Touched.axConversion := hc.mono (by decide +kernel)
  refine ⟨_, rfl, ?_⟩
  try dsimp only
  repeat' first | (guard_target =ₐ Holds I s; exact hk) | simp only [ic_mk, id_eq] | with_reducible refine ic_ain c_ain (ic_fold ?_) | with_reducible apply keeps_advance c_advance' | with_reducible apply keeps_takeTap c_takeTap' | with_reducible apply keeps_capSample c_capSample' | with_reducible apply keeps_partStore c_partStore' | with_reducible apply keeps_each | with_reducible apply keeps_launch c_launch' | with_reducible apply keeps_crossCheck c_crossCheck' | with_reducible apply keeps_publish c_publish' | with_reducible apply keeps_axConversion c_axConversion' | with_reducible apply Keeps.foldl (I := I) | with_reducible apply Keeps.foldl₂ (I := I) | with_reducible apply Keeps.ite (I := I) | split | intro s _ _ hk | intro s _ hk | intro s hk | with_reducible exact hk

theorem keeps_execFaultClear (hc : Closed I Touches.faultClear) {s : State} (hk : Holds I s) (t : Instant) (n : Fin 1024) : ∃ u, execFaultClear t n s = .next u ∧ Holds I u := by
  have c_advance' : Closed I Touched.advance := hc.mono (by decide +kernel)
  have c_hostWrite' : Closed I Touched.hostWrite := hc.mono (by decide +kernel)
  have c_putCell' : Closed I Touched.putCell := hc.mono (by decide +kernel)
  have c_startCell' : Closed I Touched.startCell := hc.mono (by decide +kernel)
  refine ⟨_, rfl, ?_⟩
  try dsimp only
  repeat' first | (guard_target =ₐ Holds I s; exact hk) | simp only [id_eq] | with_reducible apply keeps_advance c_advance' | with_reducible apply keeps_hostWrite c_hostWrite' | with_reducible apply keeps_wr | with_reducible apply keeps_putCell c_putCell' | with_reducible apply keeps_startCell c_startCell' | with_reducible apply Keeps.foldl (I := I) | with_reducible apply Keeps.foldl₂ (I := I) | with_reducible apply Keeps.ite (I := I) | exact hc.mono (by decide +kernel) | split | intro s _ _ hk | intro s _ hk | intro s hk | with_reducible exact hk

theorem keeps_execLoopStall (hc : Closed I Touches.loopStall) {s : State} (hk : Holds I s) (t : Instant) (n : Fin 1024) : ∃ u, execLoopStall t n s = .next u ∧ Holds I u := by
  have c_advance' : Closed I Touched.advance := hc.mono (by decide +kernel)
  have c_declareFault' : Closed I Touched.declareFault := hc.mono (by decide +kernel)
  have c_putCell' : Closed I Touched.putCell := hc.mono (by decide +kernel)
  refine ⟨_, rfl, ?_⟩
  try dsimp only
  repeat' first | (guard_target =ₐ Holds I s; exact hk) | simp only [id_eq] | with_reducible apply keeps_advance c_advance' | with_reducible apply keeps_wr | with_reducible apply keeps_declareFault c_declareFault' | with_reducible apply keeps_putCell c_putCell' | with_reducible apply Keeps.foldl (I := I) | with_reducible apply Keeps.foldl₂ (I := I) | with_reducible apply Keeps.ite (I := I) | exact hc.mono (by decide +kernel) | split | intro s _ _ hk | intro s _ hk | intro s hk | with_reducible exact hk

theorem keeps_execPlausClear (hc : Closed I Touches.plausClear) {s : State} (hk : Holds I s) (t : Instant) (n : Fin 1024) : ∃ u, execPlausClear t n s = .next u ∧ Holds I u := by
  have c_advance' : Closed I Touched.advance := hc.mono (by decide +kernel)
  have c_hostWrite' : Closed I Touched.hostWrite := hc.mono (by decide +kernel)
  refine ⟨_, rfl, ?_⟩
  try dsimp only
  repeat' first | (guard_target =ₐ Holds I s; exact hk) | simp only [id_eq] | with_reducible apply keeps_advance c_advance' | with_reducible apply keeps_hostWrite c_hostWrite' | with_reducible apply keeps_wr | with_reducible apply Keeps.foldl (I := I) | with_reducible apply Keeps.foldl₂ (I := I) | with_reducible apply Keeps.ite (I := I) | exact hc.mono (by decide +kernel) | split | intro s _ _ hk | intro s _ hk | intro s hk | with_reducible exact hk

theorem keeps_execRotationConversion (hc : Closed I Touches.rotationConversion) {s : State} (hk : Holds I s) (t : Instant) (raw : BitVec 16) (spareRaw : BitVec 16) : ∃ u, execRotationConversion t raw spareRaw s = .next u ∧ Holds I u := by
  have c_advance' : Closed I Touched.advance := hc.mono (by decide +kernel)
  have c_crossCheck' : Closed I Touched.crossCheck := hc.mono (by decide +kernel)
  have c_putRot' : Closed I Touched.putRot := hc.mono (by decide +kernel)
  refine ⟨_, rfl, ?_⟩
  try dsimp only
  repeat' first | (guard_target =ₐ Holds I s; exact hk) | simp only [id_eq] | with_reducible apply keeps_advance c_advance' | with_reducible apply keeps_crossCheck c_crossCheck' | with_reducible apply keeps_putRot c_putRot' | with_reducible apply Keeps.foldl (I := I) | with_reducible apply Keeps.foldl₂ (I := I) | with_reducible apply Keeps.ite (I := I) | split | intro s _ _ hk | intro s _ hk | intro s hk | with_reducible exact hk

theorem keeps_execRotationSlot (hc : Closed I Touches.rotationSlot) {s : State} (hk : Holds I s) (t : Instant) : ∃ u, execRotationSlot t s = .next u ∧ Holds I u := by
  have c_advance' : Closed I Touched.advance := hc.mono (by decide +kernel)
  have c_putRot' : Closed I Touched.putRot := hc.mono (by decide +kernel)
  refine ⟨_, rfl, ?_⟩
  try dsimp only
  repeat' first | (guard_target =ₐ Holds I s; exact hk) | simp only [id_eq] | with_reducible apply keeps_advance c_advance' | with_reducible apply keeps_putRot c_putRot' | with_reducible apply Keeps.foldl (I := I) | with_reducible apply Keeps.foldl₂ (I := I) | with_reducible apply Keeps.ite (I := I) | split | intro s _ _ hk | intro s _ hk | intro s hk | with_reducible exact hk

theorem keeps_execSelfTestBegin (hc : Closed I Touches.selfTestBegin) {s : State} (hk : Holds I s) (t : Instant) (n : Fin 1024) : ∃ u, execSelfTestBegin t n s = .next u ∧ Holds I u := by
  have c_advance' : Closed I Touched.advance := hc.mono (by decide +kernel)
  refine ⟨_, rfl, ?_⟩
  try dsimp only
  repeat' first | (guard_target =ₐ Holds I s; exact hk) | simp only [id_eq] | with_reducible apply keeps_advance c_advance' | with_reducible apply keeps_wr | with_reducible apply Keeps.foldl (I := I) | with_reducible apply Keeps.foldl₂ (I := I) | with_reducible apply Keeps.ite (I := I) | exact hc.mono (by decide +kernel) | split | intro s _ _ hk | intro s _ hk | intro s hk | with_reducible exact hk

theorem keeps_execSelfTestDone (hc : Closed I Touches.selfTestDone) {s : State} (hk : Holds I s) (t : Instant) (n : Fin 1024) (fail : Fin 5) : ∃ u, execSelfTestDone t n fail s = .next u ∧ Holds I u := by
  have c_advance' : Closed I Touched.advance := hc.mono (by decide +kernel)
  refine ⟨_, rfl, ?_⟩
  try dsimp only
  repeat' first | (guard_target =ₐ Holds I s; exact hk) | simp only [id_eq] | with_reducible apply keeps_advance c_advance' | with_reducible apply keeps_wr | with_reducible apply Keeps.foldl (I := I) | with_reducible apply Keeps.foldl₂ (I := I) | with_reducible apply Keeps.ite (I := I) | exact hc.mono (by decide +kernel) | split | intro s _ _ hk | intro s _ hk | intro s hk | with_reducible exact hk

theorem keeps_execStCancel (hc : Closed I Touches.stCancel) {s : State} (hk : Holds I s) (t : Instant) (n : Fin 1024) : ∃ u, execStCancel t n s = .next u ∧ Holds I u := by
  have c_advance' : Closed I Touched.advance := hc.mono (by decide +kernel)
  have c_hostWrite' : Closed I Touched.hostWrite := hc.mono (by decide +kernel)
  refine ⟨_, rfl, ?_⟩
  try dsimp only
  repeat' first | (guard_target =ₐ Holds I s; exact hk) | simp only [id_eq] | with_reducible apply keeps_advance c_advance' | with_reducible apply keeps_hostWrite c_hostWrite' | with_reducible apply keeps_wr | with_reducible apply Keeps.foldl (I := I) | with_reducible apply Keeps.foldl₂ (I := I) | with_reducible apply Keeps.ite (I := I) | exact hc.mono (by decide +kernel) | split | intro s _ _ hk | intro s _ hk | intro s hk | with_reducible exact hk

theorem keeps_execStGo (hc : Closed I Touches.stGo) {s : State} (hk : Holds I s) (t : Instant) (n : Fin 1024) : ∃ u, execStGo t n s = .next u ∧ Holds I u := by
  have c_advance' : Closed I Touched.advance := hc.mono (by decide +kernel)
  have c_hostWrite' : Closed I Touched.hostWrite := hc.mono (by decide +kernel)
  refine ⟨_, rfl, ?_⟩
  try dsimp only
  repeat' first | (guard_target =ₐ Holds I s; exact hk) | simp only [id_eq] | with_reducible apply keeps_advance c_advance' | with_reducible apply keeps_hostWrite c_hostWrite' | with_reducible apply keeps_wr | with_reducible apply Keeps.foldl (I := I) | with_reducible apply Keeps.foldl₂ (I := I) | with_reducible apply Keeps.ite (I := I) | exact hc.mono (by decide +kernel) | split | intro s _ _ hk | intro s _ hk | intro s hk | with_reducible exact hk

end Sys2Proof.Machine
end

