-- ==== Sys2Proof/Laws/Keeps/CkptOps.lean ====
section
/-! SUPPORT.  What the operations of Machine/CkptOps.lean touch, and that they keep every property
closed under it. -/

namespace Sys2Proof.Machine

open Sys2Proof

set_option Elab.async false
set_option linter.unusedSimpArgs false
set_option linter.unusedVariables false
set_option linter.unusedTactic false
set_option linter.unreachableTactic false

variable {I : State → Prop}

def Touched.restoreAxis : Touch :=
  { regs := [F.AX_CTRL_ENABLE, F.AX_STATUS_HOMED, F.AX_STATUS_STATE, F.AX_POS], parts := [.axes, .power] }

theorem keeps_restoreAxis (hc : Closed I Touched.restoreAxis) {s : State} (hk : Holds I s) (c : CkptAxis) : Holds I (State.restoreAxis s c) := by
  have c_onAxis' : Closed I Touched.onAxis := hc.mono (by decide +kernel)
  have c_wakeQuadrant' : Closed I Touched.wakeQuadrant := hc.mono (by decide +kernel)
  have c_putAxState' : Closed I Touched.putAxState := hc.mono (by decide +kernel)
  unfold State.restoreAxis
  try dsimp only
  repeat' first | (guard_target =ₐ Holds I s; exact hk) | simp only [id_eq] | with_reducible apply keeps_wr | with_reducible apply keeps_wrI | with_reducible apply keeps_onAxis c_onAxis' | with_reducible apply keeps_wakeQuadrant c_wakeQuadrant' | with_reducible apply keeps_putAxState c_putAxState' | with_reducible apply Keeps.foldl (I := I) | with_reducible apply Keeps.foldl₂ (I := I) | with_reducible apply Keeps.ite (I := I) | exact hc.mono (by decide +kernel) | split | intro s _ _ hk | intro s _ hk | intro s hk | with_reducible exact hk

def Touched.restoreCell : Touch :=
  { regs := [F.LC_CTRL_MODE, F.LC_CTRL_ENABLE, F.LC_STATUS_EVT_ARMED, F.LC_STATUS_DWELL_WAIT, F.LC_STATUS_ACTIVE_BANK,
      F.LC_STATUS_SAT_LO, F.LC_STATUS_SAT_HI, F.LC_STATUS_LEVEL, F.LC_C_STATE, F.LC_SUP_STATUS_OK_RUN,
      F.LC_SUP_STATUS_VIOL_RUN, F.LC_SUP_STATUS_SUP_STATE, F.ODO_OUT, F.ODO_OUT_SAT],
    parts := [.cells, .fio, .loom, .power] }

theorem keeps_restoreCell (hc : Closed I Touched.restoreCell) {s : State} (hk : Holds I s) (c : CkptCell) : Holds I (State.restoreCell s c) := by
  have c_wakeQuadrant' : Closed I Touched.wakeQuadrant := hc.mono (by decide +kernel)
  have c_startCell' : Closed I Touched.startCell := hc.mono (by decide +kernel)
  unfold State.restoreCell
  try dsimp only
  repeat' first | (guard_target =ₐ Holds I s; exact hk) | simp only [id_eq] | with_reducible apply keeps_wr | with_reducible apply keeps_wakeQuadrant c_wakeQuadrant' | with_reducible apply keeps_startCell c_startCell' | with_reducible apply Keeps.foldl (I := I) | with_reducible apply Keeps.foldl₂ (I := I) | with_reducible apply Keeps.ite (I := I) | exact hc.mono (by decide +kernel) | split | intro s _ _ hk | intro s _ hk | intro s hk | with_reducible exact hk

def Touched.restoreGen : Touch :=
  { regs := [F.PG_CTRL, F.PG_STATUS_RUNNING, F.PG_STATUS_DWELL, F.PG_STATUS_LIMITS_PENDING, F.PG_STATUS_DONE, F.PG_TARGET,
      F.PG_VMAX, F.PG_WIN_M2, F.PG_WIN_M1, F.PG_SHADOW_TARGET, F.PG_SHADOW_VMAX, F.PG_SHADOW_WIN_M2,
      F.PG_SHADOW_WIN_M1, F.PG_SP, F.PG_SP_DOT, F.PG_Q],
    parts := [.gens] }

theorem keeps_restoreGen (hc : Closed I Touched.restoreGen) {s : State} (hk : Holds I s) (c : CkptGen) : Holds I (State.restoreGen s c) := by
  have c1 : Closed I Touched.putGen := hc.mono (by decide +kernel)
  have c2 : Closed I Touched.genShadowReset := hc.mono (by decide +kernel)
  have h : ∀ f ∈ genFields, f.touch.within Touched.restoreGen = true := by decide +kernel
  unfold State.restoreGen
  refine keeps_genShadowReset c2 (Keeps.foldlMem _ (fun s e he hk => keeps_wr (hc.mono (h _ (List.of_mem_zip he).1)) hk _ _) ?_) _
  exact keeps_wr (hc.mono (by decide +kernel)) (keeps_wr (hc.mono (by decide +kernel)) (keeps_putGen c1 hk _ _) _ _) _ _


def Touched.restoreRejoin : Touch :=
  { regs := [F.RJ_STATE] }

theorem keeps_restoreRejoin (hc : Closed I Touched.restoreRejoin) {s : State} (hk : Holds I s) (c : CkptPart) : Holds I (State.restoreRejoin s c) := by
  unfold State.restoreRejoin
  try dsimp only
  repeat' first | (guard_target =ₐ Holds I s; exact hk) | simp only [id_eq] | with_reducible apply keeps_wr | with_reducible apply Keeps.foldl (I := I) | with_reducible apply Keeps.foldl₂ (I := I) | with_reducible apply Keeps.ite (I := I) | exact hc.mono (by decide +kernel) | split | intro s _ _ hk | intro s _ hk | intro s hk | with_reducible exact hk

def Touched.restoreSnapCell : Touch :=
  { regs := [F.LC_STATUS_SAT_LO, F.LC_STATUS_SAT_HI, F.LC_STATUS_LEVEL, F.LC_C_STATE, F.ODO_OUT, F.ODO_OUT_SAT],
    parts := [.cells, .fio, .loom] }

theorem keeps_restoreSnapCell (hc : Closed I Touched.restoreSnapCell) {s : State} (hk : Holds I s) (c : SnapCell) : Holds I (State.restoreSnapCell s c) := by
  have c_putCell' : Closed I Touched.putCell := hc.mono (by decide +kernel)
  have c_settle' : Closed I Touched.settle := hc.mono (by decide +kernel)
  have c_putCs' : Closed I Touched.putCs := hc.mono (by decide +kernel)
  unfold State.restoreSnapCell
  try dsimp only
  repeat' first | (guard_target =ₐ Holds I s; exact hk) | simp only [id_eq] | with_reducible apply keeps_putCell c_putCell' | with_reducible apply keeps_settle c_settle' | with_reducible apply keeps_wr | with_reducible apply keeps_putCs c_putCs' | with_reducible apply Keeps.foldl (I := I) | with_reducible apply Keeps.foldl₂ (I := I) | with_reducible apply Keeps.ite (I := I) | exact hc.mono (by decide +kernel) | split | intro s _ _ hk | intro s _ hk | intro s hk | with_reducible exact hk

def Touched.restoreStep : Touch :=
  { regs := [F.TR_STATUS_PAUSE_CAUSE, F.TR_STATUS_STATE, F.TR_STEPS_CUR_STEP, F.TR_COMMIT, F.TR_COND],
    parts := [.treadles] }

theorem keeps_restoreStep (hc : Closed I Touched.restoreStep) {s : State} (hk : Holds I s) (p : Nat) (c : CkptTreadle) : Holds I (State.restoreStep s p c) := by
  have c_putTreadle' : Closed I Touched.putTreadle := hc.mono (by decide +kernel)
  unfold State.restoreStep
  try dsimp only
  repeat' first | (guard_target =ₐ Holds I s; exact hk) | simp only [id_eq] | with_reducible apply keeps_wr | with_reducible apply keeps_wrT | with_reducible apply keeps_putTreadle c_putTreadle' | with_reducible apply Keeps.foldl (I := I) | with_reducible apply Keeps.foldl₂ (I := I) | with_reducible apply Keeps.ite (I := I) | exact hc.mono (by decide +kernel) | split | intro s _ _ hk | intro s _ hk | intro s hk | with_reducible exact hk

def Touched.restoreSnapshot : Touch :=
  { regs := [F.LC_CTRL_MODE, F.LC_CTRL_ENABLE, F.LC_STATUS_EVT_ARMED, F.LC_STATUS_DWELL_WAIT, F.LC_STATUS_ACTIVE_BANK,
      F.LC_STATUS_SAT_LO, F.LC_STATUS_SAT_HI, F.LC_STATUS_LEVEL, F.LC_C_STATE, F.LC_SUP_STATUS_OK_RUN,
      F.LC_SUP_STATUS_VIOL_RUN, F.LC_SUP_STATUS_SUP_STATE, F.TR_STATUS_PAUSE_CAUSE, F.TR_STATUS_STATE,
      F.TR_STEPS_CUR_STEP, F.TR_COMMIT, F.TR_COND, F.PG_CTRL, F.PG_STATUS_RUNNING, F.PG_STATUS_DWELL,
      F.PG_STATUS_LIMITS_PENDING, F.PG_STATUS_DONE, F.PG_TARGET, F.PG_VMAX, F.PG_WIN_M2, F.PG_WIN_M1,
      F.PG_SHADOW_TARGET, F.PG_SHADOW_VMAX, F.PG_SHADOW_WIN_M2, F.PG_SHADOW_WIN_M1, F.PG_SP, F.PG_SP_DOT, F.PG_Q,
      F.AX_CTRL_ENABLE, F.AX_STATUS_HOMED, F.AX_STATUS_STATE, F.AX_POS, F.ODO_OUT, F.ODO_OUT_SAT,
      F.CP_STATUS_STATE, F.RJ_STATE, F.PWR_STATUS_LOOM_ON, F.PWR_STATUS_PHASE, F.PWR_STATUS_TARGET,
      F.PWR_STATUS_STATE, F.PWR_RES, F.PWR_ENTRIES],
    parts := [.cells, .fio, .treadles, .gens, .axes, .loom, .cyc, .power, .sram, .dram, .dlm] }

theorem keeps_restoreSnapshot (hc : Closed I Touched.restoreSnapshot) {s : State} (hk : Holds I s) (x : Snapshot) : Holds I (State.restoreSnapshot s x) := by
  have c_restoreRejoin' : Closed I Touched.restoreRejoin := hc.mono (by decide +kernel)
  have c_restoreGen' : Closed I Touched.restoreGen := hc.mono (by decide +kernel)
  have c_restoreStep' : Closed I Touched.restoreStep := hc.mono (by decide +kernel)
  have c_restoreAxis' : Closed I Touched.restoreAxis := hc.mono (by decide +kernel)
  have c_restoreCell' : Closed I Touched.restoreCell := hc.mono (by decide +kernel)
  have c_partStore' : Closed I Touched.partStore := hc.mono (by decide +kernel)
  have c_restoreSnapCell' : Closed I Touched.restoreSnapCell := hc.mono (by decide +kernel)
  have c_runChange' : Closed I Touched.runChange := hc.mono (by decide +kernel)
  have c_settle' : Closed I Touched.settle := hc.mono (by decide +kernel)
  have c_putCycTask' : Closed I Touched.putCycTask := hc.mono (by decide +kernel)
  unfold State.restoreSnapshot
  try dsimp only
  repeat' first | (guard_target =ₐ Holds I s; exact hk) | simp only [id_eq] | with_reducible apply keeps_restoreRejoin c_restoreRejoin' | with_reducible apply keeps_restoreGen c_restoreGen' | with_reducible apply keeps_restoreStep c_restoreStep' | with_reducible apply keeps_restoreAxis c_restoreAxis' | with_reducible apply keeps_restoreCell c_restoreCell' | with_reducible apply keeps_partStore c_partStore' | with_reducible apply keeps_wr | with_reducible apply keeps_restoreSnapCell c_restoreSnapCell' | with_reducible apply keeps_runChange c_runChange' | with_reducible apply keeps_settle c_settle' | with_reducible apply keeps_putCycTask c_putCycTask' | with_reducible apply Keeps.foldl (I := I) | with_reducible apply Keeps.foldl₂ (I := I) | with_reducible apply Keeps.ite (I := I) | exact hc.mono (by decide +kernel) | split | intro s _ _ hk | intro s _ hk | intro s hk | with_reducible exact hk

def Touched.restoreTreadle : Touch :=
  { regs := [F.LC_STATUS_SHADOW_VALID, F.TR_STATUS_STAGE_STATE, F.TR_STATUS_PAUSE_CAUSE, F.TR_STATUS_STATE,
      F.TR_STEPS_STAGED_STEP, F.TR_STEPS_CUR_STEP, F.TR_NEXT, F.PG_SHADOW_TARGET, F.PG_SHADOW_VMAX,
      F.PG_SHADOW_WIN_M2, F.PG_SHADOW_WIN_M1, F.ODO_OUT, F.ODO_OUT_SAT],
    parts := [.cells, .fio, .treadles, .gens, .loom] }

theorem keeps_restoreTreadle (hc : Closed I Touched.restoreTreadle) {s : State} (hk : Holds I s) (p : Nat) (c : CkptTreadle) : Holds I (State.restoreTreadle s p c) := by
  have c_stage' : Closed I Touched.stage := hc.mono (by decide +kernel)
  have c_putTreadle' : Closed I Touched.putTreadle := hc.mono (by decide +kernel)
  have c_settle' : Closed I Touched.settle := hc.mono (by decide +kernel)
  have c_schedule' : Closed I Touched.schedule := hc.mono (by decide +kernel)
  unfold State.restoreTreadle
  try dsimp only
  repeat' first | (guard_target =ₐ Holds I s; exact hk) | simp only [id_eq] | with_reducible apply keeps_wr | with_reducible apply keeps_stage c_stage' | with_reducible apply keeps_putTreadle c_putTreadle' | with_reducible apply keeps_settle c_settle' | with_reducible apply keeps_schedule c_schedule' | with_reducible apply Keeps.foldl (I := I) | with_reducible apply Keeps.foldl₂ (I := I) | with_reducible apply Keeps.ite (I := I) | exact hc.mono (by decide +kernel) | split | intro s _ _ hk | intro s _ hk | intro s hk | with_reducible exact hk

end Sys2Proof.Machine
end

