-- ==== Sys2Proof/Laws/Keeps/ResetOps.lean ====
section
/-! SUPPORT.  What the operations of Machine/ResetOps.lean touch, and that they keep every property
closed under it. -/

namespace Sys2Proof.Machine

open Sys2Proof

set_option Elab.async false
set_option linter.unusedSimpArgs false
set_option linter.unusedVariables false
set_option linter.unusedTactic false
set_option linter.unreachableTactic false

variable {I : State → Prop}

def Touched.restart : Touch :=
  { anyReg := true,
    parts := [.latches, .staged, .warp, .skein, .cells, .fio, .aout, .ain, .conv, .rot, .treadles, .gens, .axes, .groups, .trig, .loom, .sched, .cyc, .island, .tandem, .sec, .host, .boot, .answer, .power, .rings, .sram, .dram, .dlm, .freeCtr] }

theorem keeps_restart (hc : Closed I Touched.restart) {s : State} (hk : Holds I s) (kept : Bool) : Holds I (State.restart s kept) := by
  refine hc.whole (by decide +kernel) s _ rfl (Nat.le_refl _) ?_ hk
  intro c
  rw [canonical_iff] at c ⊢
  refine ⟨rfl, rfl, rfl, ?_⟩
  have base : State.reset.regs.wf = true ∧ ∀ e ∈ State.reset.regs.entries, e.2.wf = true := by
    constructor
    · decide
    · have : State.reset.regs.entries.all (fun e => e.2.wf) = true := by decide
      simpa using this
  have fold : ∀ (l : List (Nat × Tbl Nat)) (t : Tbl (Tbl Nat)), (∀ e ∈ l, e.2.wf = true) →
      (t.wf = true ∧ ∀ e ∈ t.entries, e.2.wf = true) →
      ((l.foldl (fun t e => t.set e.1 e.2) t).wf = true ∧ ∀ e ∈ (l.foldl (fun t e => t.set e.1 e.2) t).entries, e.2.wf = true) := by
    intro l
    induction l with
    | nil => intro t _ ht; exact ht
    | cons x r ih =>
      intro t hl ht
      refine ih _ (fun e he => hl e (List.mem_cons_of_mem _ he)) ⟨Tbl.wf_set _ _ _ ht.1, ?_⟩
      intro e he
      rcases mem_insertNat _ _ _ _ he with rfl | he
      · exact hl x List.mem_cons_self
      · exact ht.2 e he
  exact fold _ _ (fun e he => c.2.2.2.2 e (List.mem_filter.mp he).1) base


def Touched.beginReset : Touch :=
  { anyReg := true,
    parts := [.latches, .staged, .warp, .skein, .cells, .fio, .aout, .ain, .conv, .rot, .treadles, .gens, .axes, .groups, .trig, .loom, .sched, .cyc, .island, .tandem, .sec, .host, .boot, .answer, .power, .rings, .sram, .dram, .dlm, .freeCtr] }

theorem keeps_beginReset (hc : Closed I Touched.beginReset) {s : State} (hk : Holds I s) (cause : Nat) : Holds I (State.beginReset s cause) := by
  have c_restart' : Closed I Touched.restart := hc.mono (by decide +kernel)
  unfold State.beginReset
  try dsimp only
  repeat' first | (guard_target =ₐ Holds I s; exact hk) | simp only [id_eq] | with_reducible apply keeps_wr | with_reducible apply keeps_restart c_restart' | with_reducible apply Keeps.foldl (I := I) | with_reducible apply Keeps.foldl₂ (I := I) | with_reducible apply Keeps.ite (I := I) | exact hc.mono (by decide +kernel) | split | intro s _ _ hk | intro s _ hk | intro s hk | with_reducible exact hk

def Touched.onBoot : Touch :=
  { parts := [.boot] }

theorem keeps_onBoot (hc : Closed I Touched.onBoot) {s : State} (hk : Holds I s) (f : BootCtl → BootCtl) : Holds I (State.onBoot s f) := by
  have c_boot : Closed I { parts := [.boot] } := hc.mono (by decide +kernel)
  unfold State.onBoot
  try dsimp only
  repeat' first | (guard_target =ₐ Holds I s; exact hk) | simp only [ic_mk, id_eq] | with_reducible refine ic_boot c_boot (ic_fold ?_) | with_reducible apply Keeps.foldl (I := I) | with_reducible apply Keeps.foldl₂ (I := I) | with_reducible apply Keeps.ite (I := I) | split | intro s _ _ hk | intro s _ hk | intro s hk | with_reducible exact hk

end Sys2Proof.Machine
end

