-- ==== Sys2Proof/Laws/Keeps/Power.lean ====
section
/-! SUPPORT.  What the operations of Machine/Power.lean touch, and that they keep every property
closed under it. -/

namespace Sys2Proof.Machine

open Sys2Proof

set_option Elab.async false
set_option linter.unusedSimpArgs false
set_option linter.unusedVariables false
set_option linter.unusedTactic false
set_option linter.unreachableTactic false

variable {I : State → Prop}

def Touched.enterDeep : Touch :=
  { regs := [F.WARP_STATUS_COARSE, F.AVS_STATUS_AT_MAX, F.AVS_STATUS_CMD_MV, F.SK_STATUS_BURST_FREE_KIB, F.SK_EVENT,
      F.SKS_SEQ, F.SKS_STATUS_RESIDENT, F.SKS_OVERWRITE, F.SAF_STATUS_START_WAIT, F.SAF_STATUS_PROG_OK,
      F.SAF_STATUS_START_BLOCKED, F.SAF_STATUS_OVC_ARMED, F.SAF_STATUS_PHASE, F.SAF_PHASE_T, F.SAF_OVC_REMAIN_S,
      F.SAF_SOUT_MATRIX, F.SAF_SOUT_PERMIT, F.SAF_SOUT_STATE_ENERGISED, F.PWR_STATUS_WAKE_PEND,
      F.PWR_STATUS_LOOM_ON, F.PWR_STATUS_PHASE, F.PWR_STATUS_STATE, F.PWR_WAKE_SRC, F.PWR_WAKE_MERGED, F.PWR_RES,
      F.PWR_ENTRIES, F.MSIX_PBA],
    parts := [.warp, .skein, .island, .host, .power] }

theorem keeps_enterDeep (hc : Closed I Touched.enterDeep) {s : State} (hk : Holds I s) : Holds I (State.enterDeep s) := by
  have c_warp : Closed I { parts := [.warp] } := hc.mono (by decide +kernel)
  have c_setVolt' : Closed I Touched.setVolt := hc.mono (by decide +kernel)
  have c_putPwrState' : Closed I Touched.putPwrState := hc.mono (by decide +kernel)
  have c_toStart' : Closed I Touched.toStart := hc.mono (by decide +kernel)
  have c_restartIsland' : Closed I Touched.restartIsland := hc.mono (by decide +kernel)
  have c_onPower' : Closed I Touched.onPower := hc.mono (by decide +kernel)
  unfold State.enterDeep
  try dsimp only
  repeat' first | (guard_target =ₐ Holds I s; exact hk) | simp only [ic_mk, id_eq] | with_reducible refine ic_warp c_warp (ic_fold ?_) | with_reducible apply keeps_setVolt c_setVolt' | with_reducible apply keeps_putPwrState c_putPwrState' | with_reducible apply keeps_wr | with_reducible apply keeps_toStart c_toStart' | with_reducible apply keeps_restartIsland c_restartIsland' | with_reducible apply keeps_onPower c_onPower' | with_reducible apply Keeps.foldl (I := I) | with_reducible apply Keeps.foldl₂ (I := I) | with_reducible apply Keeps.ite (I := I) | exact hc.mono (by decide +kernel) | split | intro s _ _ hk | intro s _ hk | intro s hk | with_reducible exact hk

def Touched.commitEntry : Touch :=
  { regs := [F.WARP_STATUS_COARSE, F.AVS_STATUS_AT_MAX, F.AVS_STATUS_CMD_MV, F.SK_STATUS_BURST_FREE_KIB, F.SK_EVENT,
      F.SKS_SEQ, F.SKS_STATUS_RESIDENT, F.SKS_OVERWRITE, F.RING_STATUS_BROKEN, F.RING_STATUS_BYPASSED,
      F.RING_STATUS_STATE, F.RING_EVENT, F.RING_BREAK_CNT_SEL_CNT, F.RS_ST_STATUS_REVERSE_FED,
      F.SAF_STATUS_START_WAIT, F.SAF_STATUS_PROG_OK, F.SAF_STATUS_START_BLOCKED, F.SAF_STATUS_OVC_ARMED,
      F.SAF_STATUS_PHASE, F.SAF_PHASE_T, F.SAF_OVC_REMAIN_S, F.SAF_SOUT_MATRIX, F.SAF_SOUT_PERMIT,
      F.SAF_SOUT_STATE_ENERGISED, F.TD_WITNESS, F.PWR_STATUS_WAKE_PEND, F.PWR_STATUS_LOOM_ON, F.PWR_STATUS_PHASE,
      F.PWR_STATUS_TARGET, F.PWR_STATUS_STATE, F.PWR_WAKE_SRC, F.PWR_WAKE_MERGED, F.PWR_RES, F.PWR_ENTRIES,
      F.MSIX_PBA],
    parts := [.warp, .skein, .island, .tandem, .host, .power, .rings, .sram, .dram, .dlm] }

theorem keeps_commitEntry (hc : Closed I Touched.commitEntry) {s : State} (hk : Holds I s) : Holds I (State.commitEntry s) := by
  have c_sram : Closed I { parts := [.sram] } := hc.mono (by decide +kernel)
  have c_dram : Closed I { parts := [.dram] } := hc.mono (by decide +kernel)
  have c_dlm : Closed I { parts := [.dlm] } := hc.mono (by decide +kernel)
  have c_mem : Closed I { parts := [.sram, .dram, .dlm] } := hc.mono (by decide +kernel)
  have c_putPwrState' : Closed I Touched.putPwrState := hc.mono (by decide +kernel)
  have c_enterDeep' : Closed I Touched.enterDeep := hc.mono (by decide +kernel)
  have c_toStart' : Closed I Touched.toStart := hc.mono (by decide +kernel)
  have c_restartIsland' : Closed I Touched.restartIsland := hc.mono (by decide +kernel)
  have c_syncRing' : Closed I Touched.syncRing := hc.mono (by decide +kernel)
  unfold State.commitEntry
  try dsimp only
  repeat' first | (guard_target =ₐ Holds I s; exact hk) | simp only [ic_mk, id_eq] | with_reducible refine ic_sram c_sram (ic_fold ?_) | with_reducible refine ic_dram c_dram (ic_fold ?_) | with_reducible refine ic_dlm c_dlm (ic_fold ?_) | with_reducible refine ic_cleared c_mem (ic_fold ?_) | with_reducible apply keeps_wr | with_reducible apply keeps_putPwrState c_putPwrState' | with_reducible apply keeps_enterDeep c_enterDeep' | with_reducible apply keeps_toStart c_toStart' | with_reducible apply keeps_restartIsland c_restartIsland' | with_reducible apply keeps_each | with_reducible apply keeps_syncRing c_syncRing' | with_reducible apply Keeps.foldl (I := I) | with_reducible apply Keeps.foldl₂ (I := I) | with_reducible apply Keeps.ite (I := I) | exact hc.mono (by decide +kernel) | split | intro s _ _ hk | intro s _ hk | intro s hk | with_reducible exact hk

def Touched.externalWake : Touch :=
  { regs := [F.PWR_STATUS_WAKE_PEND, F.PWR_STATUS_PHASE, F.PWR_WAKE_SRC, F.PWR_WAKE_MERGED],
    parts := [.power] }

theorem keeps_externalWake (hc : Closed I Touched.externalWake) {s : State} (hk : Holds I s) (code : Nat) (enabled : Bool) (deep : Bool) : Holds I (State.externalWake s code enabled deep) := by
  have c_wake' : Closed I Touched.wake := hc.mono (by decide +kernel)
  unfold State.externalWake
  try dsimp only
  repeat' first | (guard_target =ₐ Holds I s; exact hk) | simp only [id_eq] | with_reducible apply keeps_wake c_wake' | with_reducible apply Keeps.foldl (I := I) | with_reducible apply Keeps.foldl₂ (I := I) | with_reducible apply Keeps.ite (I := I) | split | intro s _ _ hk | intro s _ hk | intro s hk | with_reducible exact hk

def Touched.releaseQuadrant : Touch :=
  { regs := [F.TR_EVENT_SPAWN_DROP, F.TR_COND, F.SK_STATUS_BURST_FREE_KIB, F.SK_EVENT, F.SKS_SEQ, F.SKS_STATUS_RESIDENT,
      F.SKS_OVERWRITE, F.CS_STATUS_STATE, F.CS_EVENT, F.LOOM_EVENT, F.LOOM_EVT_OVF, F.LOOM_OVF_ROUTE, F.ODO_OUT,
      F.ODO_OUT_SAT, F.LE_NET, F.SCHED_STATUS_FREE_SLOTS, F.SCHED_STATUS_INFLIGHT, F.SCHED_EVENT,
      F.SCHED_DISPATCH_CNT, F.SCHED_EVT_UNBOUND_CNT, F.SCHED_TEMPLATE_MISS_CNT, F.PS_USED, F.HQ_DEPTH,
      F.HQ_MAXDEPTH, F.HQ_PUSH_CNT, F.HQ_BUSY_CNT, F.SH_STATUS_STATE, F.SH_STATUS_SLOT, F.SH_LOAD, F.LVL_RDY_DEPTH,
      F.LVL_WAIT_AVG, F.LVL_HIST, F.FLOW_STATE_IN_SERVICE, F.FLOW_STATE_PENDING, F.PWR_STATUS_WAKE_PEND,
      F.PWR_STATUS_LOOM_ON, F.PWR_STATUS_PHASE, F.PWR_STATUS_STATE, F.PWR_WAKE_SRC, F.PWR_WAKE_MERGED, F.PWR_RES,
      F.PWR_ENTRIES, F.MSIX_PBA],
    parts := [.skein, .fio, .treadles, .trig, .loom, .sched, .host, .power, .sram, .dram, .dlm, .freeCtr] }

theorem keeps_releaseQuadrant (hc : Closed I Touched.releaseQuadrant) {s : State} (hk : Holds I s) (q : Nat) : Holds I (State.releaseQuadrant s q) := by
  have c_onPower' : Closed I Touched.onPower := hc.mono (by decide +kernel)
  have c_settle' : Closed I Touched.settle := hc.mono (by decide +kernel)
  have c_evalLe' : Closed I Touched.evalLe := hc.mono (by decide +kernel)
  unfold State.releaseQuadrant
  try dsimp only
  repeat' first | (guard_target =ₐ Holds I s; exact hk) | simp only [id_eq] | with_reducible apply keeps_onPower c_onPower' | with_reducible apply keeps_wr | with_reducible apply keeps_settle c_settle' | with_reducible apply keeps_each | with_reducible apply keeps_evalLe c_evalLe' | with_reducible apply Keeps.foldl (I := I) | with_reducible apply Keeps.foldl₂ (I := I) | with_reducible apply Keeps.ite (I := I) | exact hc.mono (by decide +kernel) | split | intro s _ _ hk | intro s _ hk | intro s hk | with_reducible exact hk

def Touched.leaveDeep : Touch :=
  { regs := [F.WARP_STATUS_COARSE, F.WARP_EVENT_COARSE_USED, F.COARSE_NS, F.AVS_STATUS_AT_MAX, F.AVS_STATUS_CMD_MV,
      F.TR_EVENT_SPAWN_DROP, F.TR_COND, F.SK_STATUS_BURST_FREE_KIB, F.SK_EVENT, F.SKS_SEQ, F.SKS_STATUS_RESIDENT,
      F.SKS_OVERWRITE, F.CS_STATUS_STATE, F.CS_EVENT, F.LOOM_EVENT, F.LOOM_EVT_OVF, F.LOOM_OVF_ROUTE, F.ODO_OUT,
      F.ODO_OUT_SAT, F.LE_NET, F.SCHED_STATUS_FREE_SLOTS, F.SCHED_STATUS_INFLIGHT, F.SCHED_EVENT,
      F.SCHED_DISPATCH_CNT, F.SCHED_EVT_UNBOUND_CNT, F.SCHED_TEMPLATE_MISS_CNT, F.PS_USED, F.HQ_DEPTH,
      F.HQ_MAXDEPTH, F.HQ_PUSH_CNT, F.HQ_BUSY_CNT, F.SH_STATUS_STATE, F.SH_STATUS_SLOT, F.SH_LOAD, F.LVL_RDY_DEPTH,
      F.LVL_WAIT_AVG, F.LVL_HIST, F.FLOW_STATE_IN_SERVICE, F.FLOW_STATE_PENDING, F.SAF_STATUS_START_WAIT,
      F.SAF_STATUS_PROG_OK, F.SAF_STATUS_START_BLOCKED, F.SAF_STATUS_OVC_ARMED, F.SAF_STATUS_PHASE, F.SAF_PHASE_T,
      F.SAF_OVC_REMAIN_S, F.SAF_SOUT_MATRIX, F.SAF_SOUT_PERMIT, F.SAF_SOUT_STATE_ENERGISED, F.SAF_PROG_VER,
      F.SAF_CYCLE, F.WC_CONN, F.WC_STATUS_ROLE, F.WC_STATUS_STATE, F.WC_EXP_DEADLINE_MS, F.PWR_STATUS_WAKE_PEND,
      F.PWR_STATUS_LOOM_ON, F.PWR_STATUS_PHASE, F.PWR_STATUS_STATE, F.PWR_WAKE_SRC, F.PWR_WAKE_MERGED, F.PWR_RES,
      F.PWR_ENTRIES, F.MSIX_PBA],
    parts := [.warp, .skein, .fio, .treadles, .trig, .loom, .sched, .island, .host, .power, .sram, .dram, .dlm, .freeCtr] }

theorem keeps_leaveDeep (hc : Closed I Touched.leaveDeep) {s : State} (hk : Holds I s) : Holds I (State.leaveDeep s) := by
  have c_startVolt' : Closed I Touched.startVolt := hc.mono (by decide +kernel)
  have c_warpEvent' : Closed I Touched.warpEvent := hc.mono (by decide +kernel)
  have c_toStart' : Closed I Touched.toStart := hc.mono (by decide +kernel)
  have c_startProgram' : Closed I Touched.startProgram := hc.mono (by decide +kernel)
  have c_releaseQuadrant' : Closed I Touched.releaseQuadrant := hc.mono (by decide +kernel)
  unfold State.leaveDeep
  try dsimp only
  repeat' first | (guard_target =ₐ Holds I s; exact hk) | simp only [id_eq] | with_reducible apply keeps_wr | with_reducible apply keeps_startVolt c_startVolt' | with_reducible apply keeps_warpEvent c_warpEvent' | with_reducible apply keeps_toStart c_toStart' | with_reducible apply keeps_startProgram c_startProgram' | with_reducible apply keeps_each | with_reducible apply keeps_releaseQuadrant c_releaseQuadrant' | with_reducible apply Keeps.foldl (I := I) | with_reducible apply Keeps.foldl₂ (I := I) | with_reducible apply Keeps.ite (I := I) | exact hc.mono (by decide +kernel) | split | intro s _ _ hk | intro s _ hk | intro s hk | with_reducible exact hk

def Touched.lullError : Touch :=
  { regs := [F.PWR_EVENT, F.LULL_CNT_ERR, F.MSIX_PBA], parts := [.host] }

theorem keeps_lullError (hc : Closed I Touched.lullError) {s : State} (hk : Holds I s) : Holds I (State.lullError s) := by
  have c_pwrFlag' : Closed I Touched.pwrFlag := hc.mono (by decide +kernel)
  unfold State.lullError
  try dsimp only
  repeat' first | (guard_target =ₐ Holds I s; exact hk) | simp only [id_eq] | with_reducible apply keeps_pwrFlag c_pwrFlag' | with_reducible apply keeps_bump | with_reducible apply Keeps.foldl (I := I) | with_reducible apply Keeps.foldl₂ (I := I) | with_reducible apply Keeps.ite (I := I) | exact hc.mono (by decide +kernel) | split | intro s _ _ hk | intro s _ hk | intro s hk | with_reducible exact hk

theorem keeps_execAlarm (hc : Closed I Touches.alarm) {s : State} (hk : Holds I s) (t : Instant) : ∃ u, execAlarm t s = .next u ∧ Holds I u := by
  have c_advance' : Closed I Touched.advance := hc.mono (by decide +kernel)
  have c_externalWake' : Closed I Touched.externalWake := hc.mono (by decide +kernel)
  refine ⟨_, rfl, ?_⟩
  try dsimp only
  repeat' first | (guard_target =ₐ Holds I s; exact hk) | simp only [id_eq] | with_reducible apply keeps_advance c_advance' | with_reducible apply keeps_externalWake c_externalWake' | with_reducible apply Keeps.foldl (I := I) | with_reducible apply Keeps.foldl₂ (I := I) | with_reducible apply Keeps.ite (I := I) | split | intro s _ _ hk | intro s _ hk | intro s hk | with_reducible exact hk

theorem keeps_execBackoffEnd (hc : Closed I Touches.backoffEnd) {s : State} (hk : Holds I s) (t : Instant) : ∃ u, execBackoffEnd t s = .next u ∧ Holds I u := by
  have c_advance' : Closed I Touched.advance := hc.mono (by decide +kernel)
  have c_select' : Closed I Touched.select := hc.mono (by decide +kernel)
  have c_onPower' : Closed I Touched.onPower := hc.mono (by decide +kernel)
  refine ⟨_, rfl, ?_⟩
  try dsimp only
  repeat' first | (guard_target =ₐ Holds I s; exact hk) | simp only [id_eq] | with_reducible apply keeps_advance c_advance' | with_reducible apply keeps_select c_select' | with_reducible apply keeps_onPower c_onPower' | with_reducible apply Keeps.foldl (I := I) | with_reducible apply Keeps.foldl₂ (I := I) | with_reducible apply Keeps.ite (I := I) | split | intro s _ _ hk | intro s _ hk | intro s hk | with_reducible exact hk

theorem keeps_execBlockAnswer (hc : Closed I Touches.blockAnswer) {s : State} (hk : Holds I s) (t : Instant) (busy : Bool) : ∃ u, execBlockAnswer t busy s = .next u ∧ Holds I u := by
  have c_boot : Closed I { parts := [.boot] } := hc.mono (by decide +kernel)
  have c_advance' : Closed I Touched.advance := hc.mono (by decide +kernel)
  have c_entryFails' : Closed I Touched.entryFails := hc.mono (by decide +kernel)
  have c_beginCommit' : Closed I Touched.beginCommit := hc.mono (by decide +kernel)
  have c_saveOdometers' : Closed I Touched.saveOdometers := hc.mono (by decide +kernel)
  have c_onPower' : Closed I Touched.onPower := hc.mono (by decide +kernel)
  have c_commitEntry' : Closed I Touched.commitEntry := hc.mono (by decide +kernel)
  refine ⟨_, rfl, ?_⟩
  try dsimp only
  repeat' first | (guard_target =ₐ Holds I s; exact hk) | simp only [ic_mk, id_eq] | with_reducible refine ic_boot c_boot (ic_fold ?_) | with_reducible apply keeps_advance c_advance' | with_reducible apply keeps_entryFails c_entryFails' | with_reducible apply keeps_each | with_reducible apply keeps_beginCommit c_beginCommit' | with_reducible apply keeps_saveOdometers c_saveOdometers' | with_reducible apply keeps_wrT | with_reducible apply keeps_wr | with_reducible apply keeps_onPower c_onPower' | with_reducible apply keeps_commitEntry c_commitEntry' | with_reducible apply Keeps.foldl (I := I) | with_reducible apply Keeps.foldl₂ (I := I) | with_reducible apply Keeps.ite (I := I) | exact hc.mono (by decide +kernel) | split | intro s _ _ hk | intro s _ hk | intro s hk | with_reducible exact hk

theorem keeps_execEntryTimeout (hc : Closed I Touches.entryTimeout) {s : State} (hk : Holds I s) (t : Instant) : ∃ u, execEntryTimeout t s = .next u ∧ Holds I u := by
  have c_advance' : Closed I Touched.advance := hc.mono (by decide +kernel)
  have c_entryFails' : Closed I Touched.entryFails := hc.mono (by decide +kernel)
  refine ⟨_, rfl, ?_⟩
  try dsimp only
  repeat' first | (guard_target =ₐ Holds I s; exact hk) | simp only [id_eq] | with_reducible apply keeps_advance c_advance' | with_reducible apply keeps_entryFails c_entryFails' | with_reducible apply Keeps.foldl (I := I) | with_reducible apply Keeps.foldl₂ (I := I) | with_reducible apply Keeps.ite (I := I) | split | intro s _ _ hk | intro s _ hk | intro s hk | with_reducible exact hk

theorem keeps_execHostWake (hc : Closed I Touches.hostWake) {s : State} (hk : Holds I s) (t : Instant) : ∃ u, execHostWake t s = .next u ∧ Holds I u := by
  have c_externalWake' : Closed I Touched.externalWake := hc.mono (by decide +kernel)
  have c_advance' : Closed I Touched.advance := hc.mono (by decide +kernel)
  refine ⟨_, rfl, ?_⟩
  try dsimp only
  repeat' first | (guard_target =ₐ Holds I s; exact hk) | simp only [id_eq] | with_reducible apply keeps_externalWake c_externalWake' | with_reducible apply keeps_advance c_advance' | with_reducible apply Keeps.foldl (I := I) | with_reducible apply Keeps.foldl₂ (I := I) | with_reducible apply Keeps.ite (I := I) | split | intro s _ _ hk | intro s _ hk | intro s hk | with_reducible exact hk

theorem keeps_execLullFrame (hc : Closed I Touches.lullFrame) {s : State} (hk : Holds I s) (t : Instant) (frame : BitVec 16) (bothHigh : Bool) : ∃ u, execLullFrame t frame bothHigh s = .next u ∧ Holds I u := by
  have c_advance' : Closed I Touched.advance := hc.mono (by decide +kernel)
  have c_lullError' : Closed I Touched.lullError := hc.mono (by decide +kernel)
  have c_beginHold' : Closed I Touched.beginHold := hc.mono (by decide +kernel)
  have c_externalWake' : Closed I Touched.externalWake := hc.mono (by decide +kernel)
  have c_pwrFlag' : Closed I Touched.pwrFlag := hc.mono (by decide +kernel)
  refine ⟨_, rfl, ?_⟩
  try dsimp only
  repeat' first | (guard_target =ₐ Holds I s; exact hk) | simp only [id_eq] | with_reducible apply keeps_advance c_advance' | with_reducible apply keeps_lullError c_lullError' | with_reducible apply keeps_wr | with_reducible apply keeps_bump | with_reducible apply keeps_beginHold c_beginHold' | with_reducible apply keeps_externalWake c_externalWake' | with_reducible apply keeps_pwrFlag c_pwrFlag' | with_reducible apply Keeps.foldl (I := I) | with_reducible apply Keeps.foldl₂ (I := I) | with_reducible apply Keeps.ite (I := I) | exact hc.mono (by decide +kernel) | split | intro s _ _ hk | intro s _ hk | intro s hk | with_reducible exact hk

theorem keeps_execLullFrameGap (hc : Closed I Touches.lullFrameGap) {s : State} (hk : Holds I s) (t : Instant) : ∃ u, execLullFrameGap t s = .next u ∧ Holds I u := by
  have c_advance' : Closed I Touched.advance := hc.mono (by decide +kernel)
  have c_lullError' : Closed I Touched.lullError := hc.mono (by decide +kernel)
  refine ⟨_, rfl, ?_⟩
  try dsimp only
  repeat' first | (guard_target =ₐ Holds I s; exact hk) | simp only [id_eq] | with_reducible apply keeps_advance c_advance' | with_reducible apply keeps_lullError c_lullError' | with_reducible apply Keeps.foldl (I := I) | with_reducible apply Keeps.foldl₂ (I := I) | with_reducible apply Keeps.ite (I := I) | split | intro s _ _ hk | intro s _ hk | intro s hk | with_reducible exact hk

theorem keeps_execPwrTolWrite (hc : Closed I Touches.pwrTolWrite) {s : State} (hk : Holds I s) (t : Instant) (r : TolReg) (value : Word) : ∃ u, execPwrTolWrite t r value s = .next u ∧ Holds I u := by
  have c_hostWrite' : Closed I Touched.hostWrite := hc.mono (by decide +kernel)
  have c_advance' : Closed I Touched.advance := hc.mono (by decide +kernel)
  have c_putBias' : Closed I Touched.putBias := hc.mono (by decide +kernel)
  have c_entryFails' : Closed I Touched.entryFails := hc.mono (by decide +kernel)
  have c_select' : Closed I Touched.select := hc.mono (by decide +kernel)
  refine ⟨_, rfl, ?_⟩
  try dsimp only
  repeat' first | (guard_target =ₐ Holds I s; exact hk) | simp only [id_eq] | with_reducible apply keeps_hostWrite c_hostWrite' | with_reducible apply keeps_advance c_advance' | with_reducible apply keeps_wr | with_reducible apply keeps_putBias c_putBias' | with_reducible apply keeps_entryFails c_entryFails' | with_reducible apply keeps_select c_select' | with_reducible apply Keeps.foldl (I := I) | with_reducible apply Keeps.foldl₂ (I := I) | with_reducible apply Keeps.ite (I := I) | exact hc.mono (by decide +kernel) | split | intro s _ _ hk | intro s _ hk | intro s hk | with_reducible exact hk

theorem keeps_execQuadrantReady (hc : Closed I Touches.quadrantReady) {s : State} (hk : Holds I s) (t : Instant) (q : Fin 4) (bad : List (Nat × Bool)) : ∃ u, execQuadrantReady t q bad s = .next u ∧ Holds I u := by
  have c_advance' : Closed I Touched.advance := hc.mono (by decide +kernel)
  have c_releaseQuadrant' : Closed I Touched.releaseQuadrant := hc.mono (by decide +kernel)
  have c_scanError' : Closed I Touched.scanError := hc.mono (by decide +kernel)
  refine ⟨_, rfl, ?_⟩
  try dsimp only
  repeat' first | (guard_target =ₐ Holds I s; exact hk) | simp only [id_eq] | with_reducible apply keeps_advance c_advance' | with_reducible apply keeps_releaseQuadrant c_releaseQuadrant' | with_reducible apply keeps_scanError c_scanError' | with_reducible apply Keeps.foldl (I := I) | with_reducible apply Keeps.foldl₂ (I := I) | with_reducible apply Keeps.ite (I := I) | split | intro s _ _ hk | intro s _ hk | intro s hk | with_reducible exact hk

theorem keeps_execWakeDone (hc : Closed I Touches.wakeDone) {s : State} (hk : Holds I s) (t : Instant) : ∃ u, execWakeDone t s = .next u ∧ Holds I u := by
  have c_warp : Closed I { parts := [.warp] } := hc.mono (by decide +kernel)
  have c_advance' : Closed I Touched.advance := hc.mono (by decide +kernel)
  have c_putPwrState' : Closed I Touched.putPwrState := hc.mono (by decide +kernel)
  have c_onPower' : Closed I Touched.onPower := hc.mono (by decide +kernel)
  have c_leaveDeep' : Closed I Touched.leaveDeep := hc.mono (by decide +kernel)
  have c_syncRing' : Closed I Touched.syncRing := hc.mono (by decide +kernel)
  have c_runChange' : Closed I Touched.runChange := hc.mono (by decide +kernel)
  have c_beginHold' : Closed I Touched.beginHold := hc.mono (by decide +kernel)
  have c_pwrFlag' : Closed I Touched.pwrFlag := hc.mono (by decide +kernel)
  refine ⟨_, rfl, ?_⟩
  try dsimp only
  repeat' first | (guard_target =ₐ Holds I s; exact hk) | simp only [ic_mk, id_eq] | with_reducible refine ic_warp c_warp (ic_fold ?_) | with_reducible apply keeps_advance c_advance' | with_reducible apply keeps_wr | with_reducible apply keeps_putPwrState c_putPwrState' | with_reducible apply keeps_onPower c_onPower' | with_reducible apply keeps_each | with_reducible apply keeps_leaveDeep c_leaveDeep' | with_reducible apply keeps_syncRing c_syncRing' | with_reducible apply keeps_runChange c_runChange' | with_reducible apply keeps_beginHold c_beginHold' | with_reducible apply keeps_pwrFlag c_pwrFlag' | with_reducible apply Keeps.foldl (I := I) | with_reducible apply Keeps.foldl₂ (I := I) | with_reducible apply Keeps.ite (I := I) | exact hc.mono (by decide +kernel) | split | intro s _ _ hk | intro s _ hk | intro s hk | with_reducible exact hk

theorem keeps_execWakeHoldEnd (hc : Closed I Touches.wakeHoldEnd) {s : State} (hk : Holds I s) (t : Instant) : ∃ u, execWakeHoldEnd t s = .next u ∧ Holds I u := by
  have c_advance' : Closed I Touched.advance := hc.mono (by decide +kernel)
  have c_select' : Closed I Touched.select := hc.mono (by decide +kernel)
  have c_onPower' : Closed I Touched.onPower := hc.mono (by decide +kernel)
  refine ⟨_, rfl, ?_⟩
  try dsimp only
  repeat' first | (guard_target =ₐ Holds I s; exact hk) | simp only [id_eq] | with_reducible apply keeps_advance c_advance' | with_reducible apply keeps_select c_select' | with_reducible apply keeps_onPower c_onPower' | with_reducible apply Keeps.foldl (I := I) | with_reducible apply Keeps.foldl₂ (I := I) | with_reducible apply Keeps.ite (I := I) | split | intro s _ _ hk | intro s _ hk | intro s hk | with_reducible exact hk

theorem keeps_execWakeN (hc : Closed I Touches.wakeN) {s : State} (hk : Holds I s) (t : Instant) (lowUs : Nat) (takes : Bool) : ∃ u, execWakeN t lowUs takes s = .next u ∧ Holds I u := by
  have c_advance' : Closed I Touched.advance := hc.mono (by decide +kernel)
  have c_onPower' : Closed I Touched.onPower := hc.mono (by decide +kernel)
  have c_beginReset' : Closed I Touched.beginReset := hc.mono (by decide +kernel)
  have c_externalWake' : Closed I Touched.externalWake := hc.mono (by decide +kernel)
  refine ⟨_, rfl, ?_⟩
  try dsimp only
  repeat' first | (guard_target =ₐ Holds I s; exact hk) | simp only [id_eq] | with_reducible apply keeps_advance c_advance' | with_reducible apply keeps_onPower c_onPower' | with_reducible apply keeps_beginReset c_beginReset' | with_reducible apply keeps_externalWake c_externalWake' | with_reducible apply Keeps.foldl (I := I) | with_reducible apply Keeps.foldl₂ (I := I) | with_reducible apply Keeps.ite (I := I) | split | intro s _ _ hk | intro s _ hk | intro s hk | with_reducible exact hk

theorem keeps_execWakeRetry (hc : Closed I Touches.wakeRetry) {s : State} (hk : Holds I s) (t : Instant) : ∃ u, execWakeRetry t s = .next u ∧ Holds I u := by
  have c_advance' : Closed I Touched.advance := hc.mono (by decide +kernel)
  have c_beginExit' : Closed I Touched.beginExit := hc.mono (by decide +kernel)
  have c_onPower' : Closed I Touched.onPower := hc.mono (by decide +kernel)
  refine ⟨_, rfl, ?_⟩
  try dsimp only
  repeat' first | (guard_target =ₐ Holds I s; exact hk) | simp only [id_eq] | with_reducible apply keeps_advance c_advance' | with_reducible apply keeps_beginExit c_beginExit' | with_reducible apply keeps_onPower c_onPower' | with_reducible apply Keeps.foldl (I := I) | with_reducible apply Keeps.foldl₂ (I := I) | with_reducible apply Keeps.ite (I := I) | split | intro s _ _ hk | intro s _ hk | intro s hk | with_reducible exact hk

theorem keeps_execWakeTimeout (hc : Closed I Touches.wakeTimeout) {s : State} (hk : Holds I s) (t : Instant) : ∃ u, execWakeTimeout t s = .next u ∧ Holds I u := by
  have c_advance' : Closed I Touched.advance := hc.mono (by decide +kernel)
  have c_pwrFlag' : Closed I Touched.pwrFlag := hc.mono (by decide +kernel)
  have c_onPower' : Closed I Touched.onPower := hc.mono (by decide +kernel)
  have c_devFault' : Closed I Touched.devFault := hc.mono (by decide +kernel)
  have c_enterDeep' : Closed I Touched.enterDeep := hc.mono (by decide +kernel)
  refine ⟨_, rfl, ?_⟩
  try dsimp only
  repeat' first | (guard_target =ₐ Holds I s; exact hk) | simp only [id_eq] | with_reducible apply keeps_advance c_advance' | with_reducible apply keeps_pwrFlag c_pwrFlag' | with_reducible apply keeps_bump | with_reducible apply keeps_wr | with_reducible apply keeps_onPower c_onPower' | with_reducible apply keeps_devFault c_devFault' | with_reducible apply keeps_enterDeep c_enterDeep' | with_reducible apply Keeps.foldl (I := I) | with_reducible apply Keeps.foldl₂ (I := I) | with_reducible apply Keeps.ite (I := I) | exact hc.mono (by decide +kernel) | split | intro s _ _ hk | intro s _ hk | intro s hk | with_reducible exact hk

end Sys2Proof.Machine
end

