-- ==== Sys2Proof/Laws/Keeps/BeamLoad.lean ====
section
/-! SUPPORT.  What the operations of Machine/BeamLoad.lean touch, and that they keep every property
closed under it. -/

namespace Sys2Proof.Machine

open Sys2Proof

set_option Elab.async false
set_option linter.unusedSimpArgs false
set_option linter.unusedVariables false
set_option linter.unusedTactic false
set_option linter.unreachableTactic false

variable {I : State → Prop}

def Touched.writeFrames : Touch :=
  { parts := [.loom] }

theorem keeps_writeFrames (hc : Closed I Touched.writeFrames) {s : State} (hk : Holds I s) (a : List BeamFrame) : Holds I (State.writeFrames s a) := by
  have c_putRecord' : Closed I Touched.putRecord := hc.mono (by decide +kernel)
  induction a generalizing s with
  | nil =>
    unfold State.writeFrames
    try dsimp only
    repeat' first | (guard_target =ₐ Holds I s; exact hk) | simp only [id_eq] | with_reducible apply keeps_putRecord c_putRecord' | with_reducible apply Keeps.foldl (I := I) | with_reducible apply Keeps.foldl₂ (I := I) | with_reducible apply Keeps.ite (I := I) | split | intro s _ _ hk | intro s _ hk | intro s hk | with_reducible exact hk
  | cons _ _ ih =>
    unfold State.writeFrames
    try dsimp only
    repeat' first | (guard_target =ₐ Holds I s; exact hk) | simp only [id_eq] | with_reducible apply ih | with_reducible apply keeps_putRecord c_putRecord' | with_reducible apply Keeps.foldl (I := I) | with_reducible apply Keeps.foldl₂ (I := I) | with_reducible apply Keeps.ite (I := I) | split | intro s _ _ hk | intro s _ hk | intro s hk | with_reducible exact hk | cases ‹_ :: _ = _ :: _›

def Touched.plane : Touch :=
  { anyReg := true, parts := [.cells, .fio, .gens, .loom] }

theorem keeps_plane (hc : Closed I Touched.plane) {s : State} (hk : Holds I s) (img : BeamImg) : Holds I (State.plane s img) := by
  have c_loom : Closed I { parts := [.loom] } := hc.mono (by decide +kernel)
  have c_writeFrames' : Closed I Touched.writeFrames := hc.mono (by decide +kernel)
  have c_takeLoaded' : Closed I Touched.takeLoaded := hc.mono (by decide +kernel)
  unfold State.plane
  try dsimp only
  repeat' first | (guard_target =ₐ Holds I s; exact hk) | simp only [ic_mk, id_eq] | with_reducible refine ic_loom c_loom (ic_fold ?_) | with_reducible apply keeps_writeFrames c_writeFrames' | with_reducible apply keeps_takeLoaded c_takeLoaded' | with_reducible apply Keeps.foldl (I := I) | with_reducible apply Keeps.foldl₂ (I := I) | with_reducible apply Keeps.ite (I := I) | split | intro s _ _ hk | intro s _ hk | intro s hk | with_reducible exact hk

def Touched.beamLoad : Touch :=
  { anyReg := true, parts := [.skein, .cells, .fio, .gens, .loom, .power] }

theorem keeps_beamLoad (hc : Closed I Touched.beamLoad) {s : State} (hk : Holds I s) (img : Option BeamImg) : Holds I (State.beamLoad s img) := by
  have c_loom : Closed I { parts := [.loom] } := hc.mono (by decide +kernel)
  have c_plane' : Closed I Touched.plane := hc.mono (by decide +kernel)
  have c_regate' : Closed I Touched.regate := hc.mono (by decide +kernel)
  have c_settle' : Closed I Touched.settle := hc.mono (by decide +kernel)
  have c_loomEvent' : Closed I Touched.loomEvent := hc.mono (by decide +kernel)
  unfold State.beamLoad
  try dsimp only
  repeat' first | (guard_target =ₐ Holds I s; exact hk) | simp only [ic_mk, id_eq] | with_reducible refine ic_loom c_loom (ic_fold ?_) | with_reducible apply keeps_plane c_plane' | with_reducible apply keeps_wr | with_reducible apply keeps_each | with_reducible apply keeps_regate c_regate' | with_reducible apply keeps_settle c_settle' | with_reducible apply keeps_loomEvent c_loomEvent' | with_reducible apply Keeps.foldl (I := I) | with_reducible apply Keeps.foldl₂ (I := I) | with_reducible apply Keeps.ite (I := I) | exact hc.mono (by decide +kernel) | split | intro s _ _ hk | intro s _ hk | intro s hk | with_reducible exact hk

def Touched.reloadDraft : Touch :=
  { regs := [F.LP_LIBRARY_STAGE_KIB, F.LP_LIBRARY_STALE, F.LP_LIBRARY_VALID, F.DS_STATE_RESULT, F.DS_STATE_STATE,
      F.DS_VERSION, F.DS_SIZE_FRAMES, F.DS_SIZE_UNITS16, F.DS_NAME] }

theorem keeps_reloadDraft (hc : Closed I Touched.reloadDraft) {s : State} (hk : Holds I s) (k : Nat) (img : DraftImg) : Holds I (State.reloadDraft s k img).1 := by
  have c_showDraft' : Closed I Touched.showDraft := hc.mono (by decide +kernel)
  unfold State.reloadDraft
  try dsimp only
  repeat' first | (guard_target =ₐ Holds I s; exact hk) | simp only [id_eq] | with_reducible apply keeps_showDraft c_showDraft' | with_reducible apply keeps_wr | with_reducible apply Keeps.foldl (I := I) | with_reducible apply Keeps.foldl₂ (I := I) | with_reducible apply Keeps.ite (I := I) | exact hc.mono (by decide +kernel) | split | intro s _ _ hk | intro s _ hk | intro s hk | with_reducible exact hk

def Touched.reloadDrafts : Touch :=
  { regs := [F.LP_STATUS_ACTIVE, F.LP_LIBRARY_STAGE_KIB, F.LP_LIBRARY_STALE, F.LP_LIBRARY_VALID, F.DS_STATE_RESULT,
      F.DS_STATE_STATE, F.DS_VERSION, F.DS_SIZE_FRAMES, F.DS_SIZE_UNITS16, F.DS_NAME] }

theorem keeps_reloadDrafts (hc : Closed I Touched.reloadDrafts) {s : State} (hk : Holds I s) (unread : List Nat) : Holds I (State.reloadDrafts s unread).1 := by
  have c_reloadDraft' : Closed I Touched.reloadDraft := hc.mono (by decide +kernel)
  unfold State.reloadDrafts
  try dsimp only
  repeat' first | (guard_target =ₐ Holds I s; exact hk) | simp only [id_eq] | with_reducible apply keeps_each | with_reducible apply keeps_wr | with_reducible apply keeps_reloadDraft c_reloadDraft' | with_reducible apply Keeps.foldl (I := I) | with_reducible apply Keeps.foldl₂ (I := I) | with_reducible apply Keeps.ite (I := I) | exact hc.mono (by decide +kernel) | split | intro s _ _ hk | intro s _ hk | intro s hk | with_reducible exact hk

def Touched.replayJournal : Touch :=
  { anyReg := true,
    parts := [.skein, .cells, .fio, .treadles, .gens, .trig, .loom, .sched, .host, .power, .sram, .dram, .dlm, .freeCtr] }

theorem keeps_replayJournal (hc : Closed I Touched.replayJournal) {s : State} (hk : Holds I s) (p : Nat) : Holds I (State.replayJournal s p) := by
  have c_lpEvent' : Closed I Touched.lpEvent := hc.mono (by decide +kernel)
  have c_putRecord' : Closed I Touched.putRecord := hc.mono (by decide +kernel)
  have c_flipRecords' : Closed I Touched.flipRecords := hc.mono (by decide +kernel)
  unfold State.replayJournal
  try dsimp only
  repeat' first | (guard_target =ₐ Holds I s; exact hk) | simp only [id_eq] | with_reducible apply keeps_lpEvent c_lpEvent' | with_reducible apply keeps_wr | with_reducible apply keeps_putRecord c_putRecord' | with_reducible apply keeps_wrT | with_reducible apply keeps_flipRecords c_flipRecords' | with_reducible apply Keeps.foldl (I := I) | with_reducible apply Keeps.foldl₂ (I := I) | with_reducible apply Keeps.ite (I := I) | exact hc.mono (by decide +kernel) | split | intro s _ _ hk | intro s _ hk | intro s hk | with_reducible exact hk

def Touched.replayJournals : Touch :=
  { anyReg := true,
    parts := [.skein, .cells, .fio, .treadles, .gens, .trig, .loom, .sched, .host, .power, .sram, .dram, .dlm, .freeCtr] }

theorem keeps_replayJournals (hc : Closed I Touched.replayJournals) {s : State} (hk : Holds I s) : Holds I (State.replayJournals s) := by
  have c_replayJournal' : Closed I Touched.replayJournal := hc.mono (by decide +kernel)
  unfold State.replayJournals
  try dsimp only
  repeat' first | (guard_target =ₐ Holds I s; exact hk) | simp only [id_eq] | with_reducible apply keeps_each | with_reducible apply keeps_replayJournal c_replayJournal' | with_reducible apply Keeps.foldl (I := I) | with_reducible apply Keeps.foldl₂ (I := I) | with_reducible apply Keeps.ite (I := I) | split | intro s _ _ hk | intro s _ hk | intro s hk | with_reducible exact hk

end Sys2Proof.Machine
end

