-- ==== Sys2Proof/Laws/Keeps/Sec.lean ====
section
/-! SUPPORT.  What the operations of Machine/Sec.lean touch, and that they keep every property
closed under it. -/

namespace Sys2Proof.Machine

open Sys2Proof

set_option Elab.async false
set_option linter.unusedSimpArgs false
set_option linter.unusedVariables false
set_option linter.unusedTactic false
set_option linter.unreachableTactic false

variable {I : State → Prop}

def Touched.closeDebug : Touch :=
  { regs := [F.SK_STATUS_BURST_FREE_KIB, F.SK_EVENT, F.SKS_SEQ, F.SKS_STATUS_RESIDENT, F.SKS_OVERWRITE,
      F.SEC_STATUS_DEBUG_LEVEL, F.SEC_EVENT, F.SEC_DEBUG_REMAIN],
    parts := [.skein] }

theorem keeps_closeDebug (hc : Closed I Touched.closeDebug) {s : State} (hk : Holds I s) : Holds I (State.closeDebug s) := by
  have c_event' : Closed I Touched.event := hc.mono (by decide +kernel)
  have c_secEvent' : Closed I Touched.secEvent := hc.mono (by decide +kernel)
  unfold State.closeDebug
  try dsimp only
  repeat' first | (guard_target =ₐ Holds I s; exact hk) | simp only [id_eq] | with_reducible apply keeps_event c_event' | with_reducible apply keeps_secEvent c_secEvent' | with_reducible apply keeps_wr | with_reducible apply Keeps.foldl (I := I) | with_reducible apply Keeps.foldl₂ (I := I) | with_reducible apply Keeps.ite (I := I) | exact hc.mono (by decide +kernel) | split | intro s _ _ hk | intro s _ hk | intro s hk | with_reducible exact hk

def Touched.debugCommand : Touch :=
  { regs := [F.TD_EVENT, F.HOST_EVENT, F.MBX_STATE_COMP, F.PV_SEQ, F.MSIX_PBA],
    parts := [.tandem, .host, .answer, .dram] }

theorem keeps_debugCommand (hc : Closed I Touched.debugCommand) {s : State} (hk : Holds I s) (jtag : Bool) (opcode : Nat) (f : State → State) (hf3 : ∀ s, Holds I s → Holds I (f s)) : Holds I (State.debugCommand s jtag opcode f) := by
  have c_reply' : Closed I Touched.reply := hc.mono (by decide +kernel)
  have c_hostCommand' : Closed I Touched.hostCommand := hc.mono (by decide +kernel)
  unfold State.debugCommand
  try dsimp only
  repeat' first | (guard_target =ₐ Holds I s; exact hk) | simp only [id_eq] | with_reducible apply keeps_reply c_reply' | with_reducible apply keeps_hostCommand c_hostCommand' | with_reducible apply Keeps.foldl (I := I) | with_reducible apply Keeps.foldl₂ (I := I) | with_reducible apply Keeps.ite (I := I) | split | with_reducible apply hf3 | intro s _ _ hk | intro s _ hk | intro s hk | with_reducible exact hk

def Touched.drawRandom : Touch :=
  { parts := [.freeCtr] }

theorem keeps_drawRandom (hc : Closed I Touched.drawRandom) {s : State} (hk : Holds I s) : Holds I (State.drawRandom s).2 := by
  exact keeps_draw (hc.mono (by decide +kernel)) hk


def Touched.showSlot : Touch :=
  { regs := [F.UPD_SLOT_A_FW_SVN, F.UPD_SLOT_A_STATE, F.UPD_SLOT_B_FW_SVN, F.UPD_SLOT_B_STATE, F.BUNDLE_VER_A,
      F.BUNDLE_VER_B] }

theorem keeps_showSlot (hc : Closed I Touched.showSlot) {s : State} (hk : Holds I s) (k : Nat) (st : Nat) : Holds I (State.showSlot s k st) := by
  unfold State.showSlot
  try dsimp only
  repeat' first | (guard_target =ₐ Holds I s; exact hk) | simp only [id_eq] | with_reducible apply keeps_wr | with_reducible apply Keeps.foldl (I := I) | with_reducible apply Keeps.foldl₂ (I := I) | with_reducible apply Keeps.ite (I := I) | exact hc.mono (by decide +kernel) | split | intro s _ _ hk | intro s _ hk | intro s hk | with_reducible exact hk

def Touched.emptySlot : Touch :=
  { regs := [F.UPD_SLOT_A_FW_SVN, F.UPD_SLOT_A_STATE, F.UPD_SLOT_B_FW_SVN, F.UPD_SLOT_B_STATE, F.BUNDLE_VER_A,
      F.BUNDLE_VER_B],
    parts := [.sec] }

theorem keeps_emptySlot (hc : Closed I Touched.emptySlot) {s : State} (hk : Holds I s) (k : Nat) : Holds I (State.emptySlot s k) := by
  have c_showSlot' : Closed I Touched.showSlot := hc.mono (by decide +kernel)
  have c_onSec' : Closed I Touched.onSec := hc.mono (by decide +kernel)
  unfold State.emptySlot
  try dsimp only
  repeat' first | (guard_target =ₐ Holds I s; exact hk) | simp only [id_eq] | with_reducible apply keeps_showSlot c_showSlot' | with_reducible apply keeps_onSec c_onSec' | with_reducible apply Keeps.foldl (I := I) | with_reducible apply Keeps.foldl₂ (I := I) | with_reducible apply Keeps.ite (I := I) | split | intro s _ _ hk | intro s _ hk | intro s hk | with_reducible exact hk

def Touched.setFloor : Touch :=
  { regs := [F.SEC_STATUS_FLOOR_LOST, F.SEC_BEAM_FLOOR, F.SEC_MATRIX_FLOOR, F.SEC_SAFEPROG_FLOOR, F.SEC_RECIPE_FLOOR,
      F.SEC_DRAFT_FLOOR, F.SEC_PROG_FLOOR],
    parts := [.sec] }

theorem keeps_setFloor (hc : Closed I Touched.setFloor) {s : State} (hk : Holds I s) (c : Nat) (p : Nat) (v : Nat) : Holds I (State.setFloor s c p v) := by
  have c_onSec' : Closed I Touched.onSec := hc.mono (by decide +kernel)
  have hm : ∀ c, Closed I (floorField c).touch := by intro c; unfold floorField; split <;> exact hc.mono (by decide +kernel)
  unfold State.setFloor
  try dsimp only
  repeat' first | (guard_target =ₐ Holds I s; exact hk) | simp only [id_eq] | with_reducible apply keeps_onSec c_onSec' | with_reducible apply keeps_wr | with_reducible apply Keeps.foldl (I := I) | with_reducible apply Keeps.foldl₂ (I := I) | with_reducible apply Keeps.ite (I := I) | exact hc.mono (by decide +kernel) | exact hm _ | split | intro s _ _ hk | intro s _ hk | intro s hk | with_reducible exact hk

def Touched.takeAuth : Touch :=
  { regs := [F.SEC_STATUS_LIFECYCLE, F.SEC_STATUS_REVOKED, F.SEC_STATUS_PROGRAMMED, F.SEC_STATUS_FLOOR_LOST,
      F.SEC_BEAM_FLOOR, F.SEC_MATRIX_FLOOR, F.SEC_SAFEPROG_FLOOR, F.SEC_AUTHOR_KEYS, F.SEC_RING_KEYS_PENDING,
      F.SEC_RECIPE_FLOOR, F.SEC_DRAFT_FLOOR, F.SEC_PROG_FLOOR],
    parts := [.sec] }

theorem keeps_takeAuth (hc : Closed I Touched.takeAuth) {s : State} (hk : Holds I s) (a : AuthRec) : Holds I (State.takeAuth s a) := by
  have c_onSec' : Closed I Touched.onSec := hc.mono (by decide +kernel)
  have c_setFloor' : Closed I Touched.setFloor := hc.mono (by decide +kernel)
  unfold State.takeAuth
  try dsimp only
  repeat' first | (guard_target =ₐ Holds I s; exact hk) | simp only [id_eq] | with_reducible apply keeps_onSec c_onSec' | with_reducible apply keeps_wr | with_reducible apply keeps_setFloor c_setFloor' | with_reducible apply keeps_each | with_reducible apply Keeps.foldl (I := I) | with_reducible apply Keeps.foldl₂ (I := I) | with_reducible apply Keeps.ite (I := I) | exact hc.mono (by decide +kernel) | split | intro s _ _ hk | intro s _ hk | intro s hk | with_reducible exact hk

def Touched.updEvent : Touch :=
  { regs := [F.SK_STATUS_BURST_FREE_KIB, F.SK_EVENT, F.SKS_SEQ, F.SKS_STATUS_RESIDENT, F.SKS_OVERWRITE, F.UPD_EVENT,
      F.MSIX_PBA],
    parts := [.skein, .host] }

theorem keeps_updEvent (hc : Closed I Touched.updEvent) {s : State} (hk : Holds I s) (bit : Nat) (res : Nat) : Holds I (State.updEvent s bit res) := by
  have c_interrupt' : Closed I Touched.interrupt := hc.mono (by decide +kernel)
  have c_event' : Closed I Touched.event := hc.mono (by decide +kernel)
  unfold State.updEvent
  try dsimp only
  repeat' first | (guard_target =ₐ Holds I s; exact hk) | simp only [id_eq] | with_reducible apply keeps_interrupt c_interrupt' | with_reducible apply keeps_setBit | with_reducible apply keeps_event c_event' | with_reducible apply Keeps.foldl (I := I) | with_reducible apply Keeps.foldl₂ (I := I) | with_reducible apply Keeps.ite (I := I) | exact hc.mono (by decide +kernel) | split | intro s _ _ hk | intro s _ hk | intro s hk | with_reducible exact hk

def Touched.updCommand : Touch :=
  { regs := [F.SK_STATUS_BURST_FREE_KIB, F.SK_EVENT, F.SKS_SEQ, F.SKS_STATUS_RESIDENT, F.SKS_OVERWRITE, F.TD_EVENT,
      F.UPD_EVENT, F.SYS_DISCARD_REASON, F.SYS_DISCARD_OFFSET, F.SYS_DISCARD_CNT, F.MBX_STATE_COMP, F.PV_SEQ,
      F.MSIX_PBA],
    parts := [.skein, .tandem, .host, .answer, .dram] }

theorem keeps_updCommand (hc : Closed I Touched.updCommand) {s : State} (hk : Holds I s) (bit : Nat) (value : Nat) (from_ : Nat) (f : State → State) (hf4 : ∀ s, Holds I s → Holds I (f s)) : Holds I (State.updCommand s bit value from_ f) := by
  have c_hostWrite' : Closed I Touched.hostWrite := hc.mono (by decide +kernel)
  have c_updEvent' : Closed I Touched.updEvent := hc.mono (by decide +kernel)
  unfold State.updCommand
  try dsimp only
  repeat' first | (guard_target =ₐ Holds I s; exact hk) | simp only [id_eq] | with_reducible apply keeps_hostWrite c_hostWrite' | with_reducible apply keeps_updEvent c_updEvent' | with_reducible apply Keeps.foldl (I := I) | with_reducible apply Keeps.foldl₂ (I := I) | with_reducible apply Keeps.ite (I := I) | split | with_reducible apply hf4 | intro s _ _ hk | intro s _ hk | intro s hk | with_reducible exact hk

theorem keeps_execActivate (hc : Closed I Touches.activate) {s : State} (hk : Holds I s) (t : Instant) (value : Word) : ∃ u, execActivate t value s = .next u ∧ Holds I u := by
  have c_updCommand' : Closed I Touched.updCommand := hc.mono (by decide +kernel)
  have c_advance' : Closed I Touched.advance := hc.mono (by decide +kernel)
  have c_updEvent' : Closed I Touched.updEvent := hc.mono (by decide +kernel)
  refine ⟨_, rfl, ?_⟩
  try dsimp only
  repeat' first | (guard_target =ₐ Holds I s; exact hk) | simp only [id_eq] | with_reducible apply keeps_updCommand c_updCommand' | with_reducible apply keeps_advance c_advance' | with_reducible apply keeps_updEvent c_updEvent' | with_reducible apply keeps_wr | with_reducible apply Keeps.foldl (I := I) | with_reducible apply Keeps.foldl₂ (I := I) | with_reducible apply Keeps.ite (I := I) | exact hc.mono (by decide +kernel) | split | intro s _ _ hk | intro s _ hk | intro s hk | with_reducible exact hk

theorem keeps_execActivationCheck (hc : Closed I Touches.activationCheck) {s : State} (hk : Holds I s) (t : Instant) : ∃ u, execActivationCheck t s = .next u ∧ Holds I u := by
  have c_advance' : Closed I Touched.advance := hc.mono (by decide +kernel)
  have c_beginReset' : Closed I Touched.beginReset := hc.mono (by decide +kernel)
  have c_onSec' : Closed I Touched.onSec := hc.mono (by decide +kernel)
  have c_updEvent' : Closed I Touched.updEvent := hc.mono (by decide +kernel)
  refine ⟨_, rfl, ?_⟩
  try dsimp only
  repeat' first | (guard_target =ₐ Holds I s; exact hk) | simp only [id_eq] | with_reducible apply keeps_advance c_advance' | with_reducible apply keeps_wrT | with_reducible apply keeps_beginReset c_beginReset' | with_reducible apply keeps_onSec c_onSec' | with_reducible apply keeps_updEvent c_updEvent' | with_reducible apply keeps_wr | with_reducible apply Keeps.foldl (I := I) | with_reducible apply Keeps.foldl₂ (I := I) | with_reducible apply Keeps.ite (I := I) | exact hc.mono (by decide +kernel) | split | intro s _ _ hk | intro s _ hk | intro s hk | with_reducible exact hk

theorem keeps_execApplyDelta (hc : Closed I Touches.applyDelta) {s : State} (hk : Holds I s) (t : Instant) (d : Delta) : ∃ u, execApplyDelta t d s = .next u ∧ Holds I u := by
  have c_hostCommand' : Closed I Touched.hostCommand := hc.mono (by decide +kernel)
  have c_advance' : Closed I Touched.advance := hc.mono (by decide +kernel)
  have c_reply' : Closed I Touched.reply := hc.mono (by decide +kernel)
  have c_updEvent' : Closed I Touched.updEvent := hc.mono (by decide +kernel)
  have c_onSec' : Closed I Touched.onSec := hc.mono (by decide +kernel)
  have c_emptySlot' : Closed I Touched.emptySlot := hc.mono (by decide +kernel)
  refine ⟨_, rfl, ?_⟩
  try dsimp only
  repeat' first | (guard_target =ₐ Holds I s; exact hk) | simp only [id_eq] | with_reducible apply keeps_hostCommand c_hostCommand' | with_reducible apply keeps_advance c_advance' | with_reducible apply keeps_reply c_reply' | with_reducible apply keeps_updEvent c_updEvent' | with_reducible apply keeps_wr | with_reducible apply keeps_onSec c_onSec' | with_reducible apply keeps_emptySlot c_emptySlot' | with_reducible apply Keeps.foldl (I := I) | with_reducible apply Keeps.foldl₂ (I := I) | with_reducible apply Keeps.ite (I := I) | exact hc.mono (by decide +kernel) | split | intro s _ _ hk | intro s _ hk | intro s hk | with_reducible exact hk

theorem keeps_execAttest (hc : Closed I Touches.attest) {s : State} (hk : Holds I s) (t : Instant) (nonce : BitVec 256) : ∃ u, execAttest t nonce s = .next u ∧ Holds I u := by
  have c_hostCommand' : Closed I Touched.hostCommand := hc.mono (by decide +kernel)
  have c_advance' : Closed I Touched.advance := hc.mono (by decide +kernel)
  have c_reply' : Closed I Touched.reply := hc.mono (by decide +kernel)
  have c_secEvent' : Closed I Touched.secEvent := hc.mono (by decide +kernel)
  refine ⟨_, rfl, ?_⟩
  try dsimp only
  repeat' first | (guard_target =ₐ Holds I s; exact hk) | simp only [id_eq] | with_reducible apply keeps_hostCommand c_hostCommand' | with_reducible apply keeps_advance c_advance' | with_reducible apply keeps_reply c_reply' | with_reducible apply keeps_secEvent c_secEvent' | with_reducible apply Keeps.foldl (I := I) | with_reducible apply Keeps.foldl₂ (I := I) | with_reducible apply Keeps.ite (I := I) | split | intro s _ _ hk | intro s _ hk | intro s hk | with_reducible exact hk

theorem keeps_execAuthority (hc : Closed I Touches.authority) {s : State} (hk : Holds I s) (t : Instant) (a : AuthRec) (readBack : Bool) : ∃ u, execAuthority t a readBack s = .next u ∧ Holds I u := by
  have c_hostCommand' : Closed I Touched.hostCommand := hc.mono (by decide +kernel)
  have c_advance' : Closed I Touched.advance := hc.mono (by decide +kernel)
  have c_reply' : Closed I Touched.reply := hc.mono (by decide +kernel)
  have c_takeAuth' : Closed I Touched.takeAuth := hc.mono (by decide +kernel)
  have c_event' : Closed I Touched.event := hc.mono (by decide +kernel)
  have c_secEvent' : Closed I Touched.secEvent := hc.mono (by decide +kernel)
  refine ⟨_, rfl, ?_⟩
  try dsimp only
  repeat' first | (guard_target =ₐ Holds I s; exact hk) | simp only [id_eq] | with_reducible apply keeps_hostCommand c_hostCommand' | with_reducible apply keeps_advance c_advance' | with_reducible apply keeps_reply c_reply' | with_reducible apply keeps_wr | with_reducible apply keeps_takeAuth c_takeAuth' | with_reducible apply keeps_event c_event' | with_reducible apply keeps_secEvent c_secEvent' | with_reducible apply Keeps.foldl (I := I) | with_reducible apply Keeps.foldl₂ (I := I) | with_reducible apply Keeps.ite (I := I) | exact hc.mono (by decide +kernel) | split | intro s _ _ hk | intro s _ hk | intro s hk | with_reducible exact hk

theorem keeps_execConfirm (hc : Closed I Touches.confirm) {s : State} (hk : Holds I s) (t : Instant) (value : Word) : ∃ u, execConfirm t value s = .next u ∧ Holds I u := by
  have c_updCommand' : Closed I Touched.updCommand := hc.mono (by decide +kernel)
  have c_advance' : Closed I Touched.advance := hc.mono (by decide +kernel)
  have c_showSlot' : Closed I Touched.showSlot := hc.mono (by decide +kernel)
  have c_onSec' : Closed I Touched.onSec := hc.mono (by decide +kernel)
  have c_updEvent' : Closed I Touched.updEvent := hc.mono (by decide +kernel)
  refine ⟨_, rfl, ?_⟩
  try dsimp only
  repeat' first | (guard_target =ₐ Holds I s; exact hk) | simp only [id_eq] | with_reducible apply keeps_updCommand c_updCommand' | with_reducible apply keeps_advance c_advance' | with_reducible apply keeps_wr | with_reducible apply keeps_showSlot c_showSlot' | with_reducible apply keeps_onSec c_onSec' | with_reducible apply keeps_updEvent c_updEvent' | with_reducible apply Keeps.foldl (I := I) | with_reducible apply Keeps.foldl₂ (I := I) | with_reducible apply Keeps.ite (I := I) | exact hc.mono (by decide +kernel) | split | intro s _ _ hk | intro s _ hk | intro s hk | with_reducible exact hk

theorem keeps_execDebugChallenge (hc : Closed I Touches.debugChallenge) {s : State} (hk : Holds I s) (t : Instant) (jtag : Bool) : ∃ u, execDebugChallenge t jtag s = .next u ∧ Holds I u := by
  have c_debugCommand' : Closed I Touched.debugCommand := hc.mono (by decide +kernel)
  have c_advance' : Closed I Touched.advance := hc.mono (by decide +kernel)
  have c_drawRandom' : Closed I Touched.drawRandom := hc.mono (by decide +kernel)
  have c_reply' : Closed I Touched.reply := hc.mono (by decide +kernel)
  have c_onSec' : Closed I Touched.onSec := hc.mono (by decide +kernel)
  refine ⟨_, rfl, ?_⟩
  try dsimp only
  repeat' first | (guard_target =ₐ Holds I s; exact hk) | simp only [id_eq] | with_reducible apply keeps_debugCommand c_debugCommand' | with_reducible apply keeps_advance c_advance' | with_reducible apply keeps_drawRandom c_drawRandom' | with_reducible apply keeps_reply c_reply' | with_reducible apply keeps_onSec c_onSec' | with_reducible apply Keeps.foldl (I := I) | with_reducible apply Keeps.foldl₂ (I := I) | with_reducible apply Keeps.ite (I := I) | split | intro s _ _ hk | intro s _ hk | intro s hk | with_reducible exact hk

theorem keeps_execDebugClose (hc : Closed I Touches.debugClose) {s : State} (hk : Holds I s) (t : Instant) (jtag : Bool) : ∃ u, execDebugClose t jtag s = .next u ∧ Holds I u := by
  have c_debugCommand' : Closed I Touched.debugCommand := hc.mono (by decide +kernel)
  have c_advance' : Closed I Touched.advance := hc.mono (by decide +kernel)
  have c_reply' : Closed I Touched.reply := hc.mono (by decide +kernel)
  have c_closeDebug' : Closed I Touched.closeDebug := hc.mono (by decide +kernel)
  refine ⟨_, rfl, ?_⟩
  try dsimp only
  repeat' first | (guard_target =ₐ Holds I s; exact hk) | simp only [id_eq] | with_reducible apply keeps_debugCommand c_debugCommand' | with_reducible apply keeps_advance c_advance' | with_reducible apply keeps_reply c_reply' | with_reducible apply keeps_closeDebug c_closeDebug' | with_reducible apply Keeps.foldl (I := I) | with_reducible apply Keeps.foldl₂ (I := I) | with_reducible apply Keeps.ite (I := I) | split | intro s _ _ hk | intro s _ hk | intro s hk | with_reducible exact hk

theorem keeps_execDebugExpiry (hc : Closed I Touches.debugExpiry) {s : State} (hk : Holds I s) (t : Instant) : ∃ u, execDebugExpiry t s = .next u ∧ Holds I u := by
  have c_advance' : Closed I Touched.advance := hc.mono (by decide +kernel)
  have c_closeDebug' : Closed I Touched.closeDebug := hc.mono (by decide +kernel)
  refine ⟨_, rfl, ?_⟩
  try dsimp only
  repeat' first | (guard_target =ₐ Holds I s; exact hk) | simp only [id_eq] | with_reducible apply keeps_advance c_advance' | with_reducible apply keeps_closeDebug c_closeDebug' | with_reducible apply Keeps.foldl (I := I) | with_reducible apply Keeps.foldl₂ (I := I) | with_reducible apply Keeps.ite (I := I) | split | intro s _ _ hk | intro s _ hk | intro s hk | with_reducible exact hk

theorem keeps_execDebugOpen (hc : Closed I Touches.debugOpen) {s : State} (hk : Holds I s) (t : Instant) (jtag : Bool) (r : DebugResp) : ∃ u, execDebugOpen t jtag r s = .next u ∧ Holds I u := by
  have c_debugCommand' : Closed I Touched.debugCommand := hc.mono (by decide +kernel)
  have c_advance' : Closed I Touched.advance := hc.mono (by decide +kernel)
  have c_onSec' : Closed I Touched.onSec := hc.mono (by decide +kernel)
  have c_putCset' : Closed I Touched.putCset := hc.mono (by decide +kernel)
  have c_secEvent' : Closed I Touched.secEvent := hc.mono (by decide +kernel)
  have c_reply' : Closed I Touched.reply := hc.mono (by decide +kernel)
  have c_internalWake' : Closed I Touched.internalWake := hc.mono (by decide +kernel)
  have c_event' : Closed I Touched.event := hc.mono (by decide +kernel)
  refine ⟨_, rfl, ?_⟩
  try dsimp only
  repeat' first | (guard_target =ₐ Holds I s; exact hk) | simp only [id_eq] | with_reducible apply keeps_debugCommand c_debugCommand' | with_reducible apply keeps_advance c_advance' | with_reducible apply keeps_onSec c_onSec' | with_reducible apply keeps_each | with_reducible apply keeps_putCset c_putCset' | with_reducible apply keeps_secEvent c_secEvent' | with_reducible apply keeps_wr | with_reducible apply keeps_reply c_reply' | with_reducible apply keeps_internalWake c_internalWake' | with_reducible apply keeps_event c_event' | with_reducible apply Keeps.foldl (I := I) | with_reducible apply Keeps.foldl₂ (I := I) | with_reducible apply Keeps.ite (I := I) | exact hc.mono (by decide +kernel) | split | intro s _ _ hk | intro s _ hk | intro s hk | with_reducible exact hk

theorem keeps_execDeltaApplyDone (hc : Closed I Touches.deltaApplyDone) {s : State} (hk : Holds I s) (t : Instant) (result : Bundle) (code : Fin 8) (kibS : Word) : ∃ u, execDeltaApplyDone t result code kibS s = .next u ∧ Holds I u := by
  have c_advance' : Closed I Touched.advance := hc.mono (by decide +kernel)
  have c_onSec' : Closed I Touched.onSec := hc.mono (by decide +kernel)
  have c_showSlot' : Closed I Touched.showSlot := hc.mono (by decide +kernel)
  have c_updEvent' : Closed I Touched.updEvent := hc.mono (by decide +kernel)
  have c_emptySlot' : Closed I Touched.emptySlot := hc.mono (by decide +kernel)
  refine ⟨_, rfl, ?_⟩
  try dsimp only
  repeat' first | (guard_target =ₐ Holds I s; exact hk) | simp only [id_eq] | with_reducible apply keeps_advance c_advance' | with_reducible apply keeps_wr | with_reducible apply keeps_onSec c_onSec' | with_reducible apply keeps_showSlot c_showSlot' | with_reducible apply keeps_updEvent c_updEvent' | with_reducible apply keeps_emptySlot c_emptySlot' | with_reducible apply Keeps.foldl (I := I) | with_reducible apply Keeps.foldl₂ (I := I) | with_reducible apply Keeps.ite (I := I) | exact hc.mono (by decide +kernel) | split | intro s _ _ hk | intro s _ hk | intro s hk | with_reducible exact hk

theorem keeps_execUpdCancel (hc : Closed I Touches.updCancel) {s : State} (hk : Holds I s) (t : Instant) (value : Word) : ∃ u, execUpdCancel t value s = .next u ∧ Holds I u := by
  have c_updCommand' : Closed I Touched.updCommand := hc.mono (by decide +kernel)
  have c_advance' : Closed I Touched.advance := hc.mono (by decide +kernel)
  refine ⟨_, rfl, ?_⟩
  try dsimp only
  repeat' first | (guard_target =ₐ Holds I s; exact hk) | simp only [id_eq] | with_reducible apply keeps_updCommand c_updCommand' | with_reducible apply keeps_advance c_advance' | with_reducible apply keeps_wr | with_reducible apply Keeps.foldl (I := I) | with_reducible apply Keeps.foldl₂ (I := I) | with_reducible apply Keeps.ite (I := I) | exact hc.mono (by decide +kernel) | split | intro s _ _ hk | intro s _ hk | intro s hk | with_reducible exact hk

end Sys2Proof.Machine
end

