-- ==== Sys2Proof/Laws/Keeps/Treadle.lean ====
section
/-! SUPPORT.  What the operations of Machine/Treadle.lean touch, and that they keep every property
closed under it. -/

namespace Sys2Proof.Machine

open Sys2Proof

set_option Elab.async false
set_option linter.unusedSimpArgs false
set_option linter.unusedVariables false
set_option linter.unusedTactic false
set_option linter.unreachableTactic false

variable {I : State → Prop}

def Touched.spawn : Touch :=
  { regs := [F.TR_EVENT_SPAWN_DROP, F.SK_STATUS_BURST_FREE_KIB, F.SK_EVENT, F.SKS_SEQ, F.SKS_STATUS_RESIDENT,
      F.SKS_OVERWRITE, F.SCHED_STATUS_FREE_SLOTS, F.SCHED_STATUS_INFLIGHT, F.SCHED_EVENT, F.SCHED_DISPATCH_CNT,
      F.SCHED_EVT_UNBOUND_CNT, F.SCHED_TEMPLATE_MISS_CNT, F.PS_USED, F.SH_STATUS_STATE, F.SH_STATUS_SLOT,
      F.SH_LOAD, F.LVL_RDY_DEPTH, F.LVL_WAIT_AVG, F.LVL_HIST, F.FLOW_STATE_IN_SERVICE, F.FLOW_STATE_PENDING,
      F.PWR_STATUS_WAKE_PEND, F.PWR_STATUS_PHASE, F.PWR_STATUS_STATE, F.PWR_WAKE_SRC, F.PWR_WAKE_MERGED, F.PWR_RES,
      F.PWR_ENTRIES],
    parts := [.skein, .treadles, .sched, .power, .sram, .dram, .dlm, .freeCtr] }

theorem keeps_spawn (hc : Closed I Touched.spawn) {s : State} (hk : Holds I s) (p : Nat) (a : PoolEntry) : Holds I (State.spawn s p a) := by
  have c_spawnTask' : Closed I Touched.spawnTask := hc.mono (by decide +kernel)
  unfold State.spawn
  try dsimp only
  repeat' first | (guard_target =ₐ Holds I s; exact hk) | simp only [id_eq] | with_reducible apply keeps_spawnTask c_spawnTask' | with_reducible apply Keeps.foldl (I := I) | with_reducible apply Keeps.foldl₂ (I := I) | with_reducible apply Keeps.ite (I := I) | split | intro s _ _ hk | intro s _ hk | intro s hk | with_reducible exact hk

def Touched.commitActions : Touch :=
  { regs := [F.LC_STATUS_SHADOW_VALID, F.TR_STATUS_STAGE_STATE, F.TR_STATUS_PAUSE_CAUSE, F.TR_STATUS_DEFERRED,
      F.TR_STATUS_STATE, F.TR_EVENT_SPAWN_DROP, F.TR_EVENT_ABORT_IGNORED, F.TR_EVENT_CANCELLED,
      F.TR_STEPS_STAGED_STEP, F.TR_NEXT, F.TR_DECIDE_END_IDX, F.TR_DECIDE_DECIDED, F.TR_CANCEL_CNT, F.TR_COND,
      F.PG_STATUS_HELD, F.PG_SHADOW_TARGET, F.PG_SHADOW_VMAX, F.PG_SHADOW_WIN_M2, F.PG_SHADOW_WIN_M1,
      F.AX_STATUS_FAULT_CAUSE, F.AX_STATUS_STATE, F.AX_EVENT, F.AX_SEG_NOW_SEG, F.AX_SEG_NOW_LEFT, F.AX_ODO_MOVES,
      F.SK_STATUS_BURST_FREE_KIB, F.SK_EVENT, F.SKS_SEQ, F.SKS_STATUS_RESIDENT, F.SKS_OVERWRITE,
      F.TS_STATUS_RUNNING, F.TS_STATUS_STATE, F.TS_EVENT, F.TS_COUNTER, F.TS_TIMER, F.CS_STATUS_ARM_RESULT,
      F.CS_STATUS_STATE, F.CS_EVENT, F.CS_PRE_BYTES, F.CS_NEED_BYTES, F.MU_STATUS_VIOL_RUN, F.MU_STATUS_ENV_NOW,
      F.MU_STATUS_STATE, F.MU_EVENT, F.MU_A, F.POOL_FREE, F.LOOM_EVENT, F.LOOM_EVT_OVF, F.LOOM_OVF_ROUTE,
      F.ODO_OUT, F.ODO_OUT_SAT, F.VR_VALUE, F.SCHED_STATUS_FREE_SLOTS, F.SCHED_STATUS_INFLIGHT, F.SCHED_EVENT,
      F.SCHED_DISPATCH_CNT, F.SCHED_CANCEL_CNT, F.SCHED_CANCEL_LATE_CNT, F.SCHED_POISON_CNT,
      F.SCHED_EVT_UNBOUND_CNT, F.SCHED_TEMPLATE_MISS_CNT, F.PS_USED, F.PS_HELD, F.HQ_DEPTH, F.HQ_MAXDEPTH,
      F.HQ_PUSH_CNT, F.HQ_BUSY_CNT, F.SH_STATUS_STATE, F.SH_STATUS_SLOT, F.SH_LOAD, F.LVL_RDY_DEPTH,
      F.LVL_WAIT_AVG, F.LVL_HIST, F.FLOW_STATE_HELD, F.FLOW_STATE_IN_SERVICE, F.FLOW_STATE_HELD_CAUSE,
      F.FLOW_STATE_PENDING, F.CP_STATUS_STOP_CAUSE, F.CP_STATUS_STATE, F.CP_EVENT, F.CP_STOP_T,
      F.PWR_STATUS_WAKE_PEND, F.PWR_STATUS_LOOM_ON, F.PWR_STATUS_PHASE, F.PWR_STATUS_TARGET, F.PWR_STATUS_STATE,
      F.PWR_WAKE_SRC, F.PWR_WAKE_MERGED, F.PWR_RES, F.PWR_ENTRIES, F.SYS_FAULT, F.SYS_FAULT_LAST, F.SYS_FAULT_T,
      F.MSIX_PBA],
    parts := [.skein, .cells, .fio, .treadles, .gens, .axes, .trig, .loom, .sched, .cyc, .host, .power, .rings, .sram, .dram, .dlm, .freeCtr] }

theorem keeps_commitActions (hc : Closed I Touched.commitActions) {s : State} (hk : Holds I s) (p : Nat) (acts : List PoolEntry) : Holds I (State.commitActions s p acts) := by
  have c_startAxes' : Closed I Touched.startAxes := hc.mono (by decide +kernel)
  have c_armTrig' : Closed I Touched.armTrig := hc.mono (by decide +kernel)
  have c_armMask' : Closed I Touched.armMask := hc.mono (by decide +kernel)
  have c_spawn' : Closed I Touched.spawn := hc.mono (by decide +kernel)
  unfold State.commitActions
  try dsimp only
  repeat' first | (guard_target =ₐ Holds I s; exact hk) | simp only [id_eq] | with_reducible apply keeps_startAxes c_startAxes' | with_reducible apply keeps_armTrig c_armTrig' | with_reducible apply keeps_armMask c_armMask' | with_reducible apply keeps_spawn c_spawn' | with_reducible apply Keeps.foldl (I := I) | with_reducible apply Keeps.foldl₂ (I := I) | with_reducible apply Keeps.ite (I := I) | split | intro s _ _ hk | intro s _ hk | intro s hk | with_reducible exact hk

def Touched.stagingMiss : Touch :=
  { regs := [F.LC_STATUS_SHADOW_VALID, F.TR_STATUS_STAGE_STATE, F.TR_STATUS_PAUSE_CAUSE, F.TR_STATUS_DEFERRED,
      F.TR_STATUS_STATE, F.TR_EVENT_ABORT_IGNORED, F.TR_EVENT_CANCELLED, F.TR_EVENT_STAGE_MISS,
      F.TR_STEPS_STAGED_STEP, F.TR_NEXT, F.TR_DECIDE_END_IDX, F.TR_DECIDE_DECIDED, F.TR_MISS_CNT, F.TR_CANCEL_CNT,
      F.PG_STATUS_HELD, F.PG_SHADOW_TARGET, F.PG_SHADOW_VMAX, F.PG_SHADOW_WIN_M2, F.PG_SHADOW_WIN_M1,
      F.SK_STATUS_BURST_FREE_KIB, F.SK_EVENT, F.SKS_SEQ, F.SKS_STATUS_RESIDENT, F.SKS_OVERWRITE, F.ODO_OUT,
      F.ODO_OUT_SAT, F.PWR_STATUS_LOOM_ON, F.PWR_STATUS_PHASE, F.PWR_STATUS_TARGET, F.PWR_STATUS_STATE, F.PWR_RES,
      F.PWR_ENTRIES],
    parts := [.skein, .cells, .fio, .treadles, .gens, .loom, .power] }

theorem keeps_stagingMiss (hc : Closed I Touched.stagingMiss) {s : State} (hk : Holds I s) (p : Nat) : Holds I (State.stagingMiss s p) := by
  have c_treadleEvent' : Closed I Touched.treadleEvent := hc.mono (by decide +kernel)
  have c_abortTreadle' : Closed I Touched.abortTreadle := hc.mono (by decide +kernel)
  have c_schedule' : Closed I Touched.schedule := hc.mono (by decide +kernel)
  have c_putTreadle' : Closed I Touched.putTreadle := hc.mono (by decide +kernel)
  unfold State.stagingMiss
  try dsimp only
  repeat' first | (guard_target =ₐ Holds I s; exact hk) | simp only [id_eq] | with_reducible apply keeps_treadleEvent c_treadleEvent' | with_reducible apply keeps_wr | with_reducible apply keeps_bump | with_reducible apply keeps_abortTreadle c_abortTreadle' | with_reducible apply keeps_schedule c_schedule' | with_reducible apply keeps_putTreadle c_putTreadle' | with_reducible apply Keeps.foldl (I := I) | with_reducible apply Keeps.foldl₂ (I := I) | with_reducible apply Keeps.ite (I := I) | exact hc.mono (by decide +kernel) | split | intro s _ _ hk | intro s _ hk | intro s hk | with_reducible exact hk

def Touched.commitValves : Touch :=
  { regs := [F.TR_EVENT_VALVE_REPLACED, F.ODO_OUT, F.ODO_OUT_SAT], parts := [.fio, .treadles, .loom] }

theorem keeps_commitValves (hc : Closed I Touched.commitValves) {s : State} (hk : Holds I s) (p : Nat) (acts : List PoolEntry) : Holds I (State.commitValves s p acts) := by
  have c_putTreadle' : Closed I Touched.putTreadle := hc.mono (by decide +kernel)
  have c_command' : Closed I Touched.command := hc.mono (by decide +kernel)
  unfold State.commitValves
  try dsimp only
  repeat' first | (guard_target =ₐ Holds I s; exact hk) | simp only [id_eq] | with_reducible apply keeps_when | with_reducible apply keeps_wr | with_reducible apply keeps_putTreadle c_putTreadle' | with_reducible apply keeps_command c_command' | with_reducible apply Keeps.foldl (I := I) | with_reducible apply Keeps.foldl₂ (I := I) | with_reducible apply Keeps.ite (I := I) | exact hc.mono (by decide +kernel) | split | intro s _ _ hk | intro s _ hk | intro s hk | with_reducible exact hk

def Touched.commitStep : Touch :=
  { regs := [F.LC_STATUS_SHADOW_VALID, F.LC_STATUS_ACTIVE_BANK, F.LC_STATUS_SAT_LO, F.LC_STATUS_SAT_HI, F.LC_STATUS_LEVEL,
      F.LC_EVENT_ODO_SAT, F.LC_EVENT_LEVEL_CLAMPED, F.LC_EVENT_SWAP_REFUSED, F.LC_EVENT_SWAP_DONE, F.LC_C_STATE,
      F.LC_ODO, F.TR_STATUS_STAGE_STATE, F.TR_STATUS_PAUSE_CAUSE, F.TR_STATUS_DEFERRED, F.TR_STATUS_STATE,
      F.TR_EVENT_SPAWN_DROP, F.TR_EVENT_VALVE_REPLACED, F.TR_EVENT_ABORT_IGNORED, F.TR_EVENT_CANCELLED,
      F.TR_STEPS_STAGED_STEP, F.TR_STEPS_CUR_STEP, F.TR_LABEL, F.TR_COMMIT, F.TR_NEXT, F.TR_DECIDE_END_IDX,
      F.TR_DECIDE_DECIDED, F.TR_COMMITS, F.TR_CANCEL_CNT, F.TR_COND, F.PG_STATUS_LIMITS_PENDING, F.PG_STATUS_HELD,
      F.PG_TARGET, F.PG_VMAX, F.PG_WIN_M2, F.PG_WIN_M1, F.PG_SHADOW_TARGET, F.PG_SHADOW_VMAX, F.PG_SHADOW_WIN_M2,
      F.PG_SHADOW_WIN_M1, F.AX_STATUS_FAULT_CAUSE, F.AX_STATUS_STATE, F.AX_EVENT, F.AX_SEG_NOW_SEG,
      F.AX_SEG_NOW_LEFT, F.AX_ODO_MOVES, F.SK_STATUS_BURST_FREE_KIB, F.SK_EVENT, F.SKS_SEQ, F.SKS_STATUS_RESIDENT,
      F.SKS_OVERWRITE, F.TS_STATUS_RUNNING, F.TS_STATUS_STATE, F.TS_EVENT, F.TS_COUNTER, F.TS_TIMER,
      F.CS_STATUS_ARM_RESULT, F.CS_STATUS_STATE, F.CS_EVENT, F.CS_PRE_BYTES, F.CS_NEED_BYTES, F.MU_STATUS_VIOL_RUN,
      F.MU_STATUS_ENV_NOW, F.MU_STATUS_STATE, F.MU_EVENT, F.MU_A, F.POOL_FREE, F.LOOM_EVENT, F.LOOM_EVT_OVF,
      F.LOOM_OVF_ROUTE, F.ODO_OUT, F.ODO_OUT_SAT, F.VR_VALUE, F.SCHED_STATUS_FREE_SLOTS, F.SCHED_STATUS_INFLIGHT,
      F.SCHED_EVENT, F.SCHED_DISPATCH_CNT, F.SCHED_CANCEL_CNT, F.SCHED_CANCEL_LATE_CNT, F.SCHED_POISON_CNT,
      F.SCHED_EVT_UNBOUND_CNT, F.SCHED_TEMPLATE_MISS_CNT, F.PS_USED, F.PS_HELD, F.HQ_DEPTH, F.HQ_MAXDEPTH,
      F.HQ_PUSH_CNT, F.HQ_BUSY_CNT, F.SH_STATUS_STATE, F.SH_STATUS_SLOT, F.SH_LOAD, F.LVL_RDY_DEPTH,
      F.LVL_WAIT_AVG, F.LVL_HIST, F.FLOW_STATE_HELD, F.FLOW_STATE_IN_SERVICE, F.FLOW_STATE_HELD_CAUSE,
      F.FLOW_STATE_PENDING, F.CP_STATUS_STOP_CAUSE, F.CP_STATUS_STATE, F.CP_EVENT, F.CP_STOP_T,
      F.PWR_STATUS_WAKE_PEND, F.PWR_STATUS_LOOM_ON, F.PWR_STATUS_PHASE, F.PWR_STATUS_TARGET, F.PWR_STATUS_STATE,
      F.PWR_WAKE_SRC, F.PWR_WAKE_MERGED, F.PWR_RES, F.PWR_ENTRIES, F.SYS_FAULT, F.SYS_FAULT_LAST, F.SYS_FAULT_T,
      F.MSIX_PBA],
    parts := [.skein, .cells, .fio, .treadles, .gens, .axes, .trig, .loom, .sched, .cyc, .host, .power, .rings, .sram, .dram, .dlm, .freeCtr] }

theorem keeps_commitStep (hc : Closed I Touched.commitStep) {s : State} (hk : Holds I s) (p : Nat) (t : StepTable) (x : Staging) : Holds I (State.commitStep s p t x) := by
  have c_putTreadle' : Closed I Touched.putTreadle := hc.mono (by decide +kernel)
  have c_trySwap' : Closed I Touched.trySwap := hc.mono (by decide +kernel)
  have c_commitGen' : Closed I Touched.commitGen := hc.mono (by decide +kernel)
  have c_putCell' : Closed I Touched.putCell := hc.mono (by decide +kernel)
  have c_commitValves' : Closed I Touched.commitValves := hc.mono (by decide +kernel)
  have c_trigStep' : Closed I Touched.trigStep := hc.mono (by decide +kernel)
  have c_commitActions' : Closed I Touched.commitActions := hc.mono (by decide +kernel)
  have c_record' : Closed I Touched.record := hc.mono (by decide +kernel)
  have c_latchDone' : Closed I Touched.latchDone := hc.mono (by decide +kernel)
  have c_emitFrom' : Closed I Touched.emitFrom := hc.mono (by decide +kernel)
  have c_enterPause' : Closed I Touched.enterPause := hc.mono (by decide +kernel)
  have c_stage' : Closed I Touched.stage := hc.mono (by decide +kernel)
  unfold State.commitStep
  try dsimp only
  repeat' first | (guard_target =ₐ Holds I s; exact hk) | simp only [id_eq] | with_reducible apply keeps_putTreadle c_putTreadle' | with_reducible apply keeps_wr | with_reducible apply keeps_wrT | with_reducible apply keeps_roll | with_reducible apply keeps_each | with_reducible apply keeps_trySwap c_trySwap' | with_reducible apply keeps_commitGen c_commitGen' | with_reducible apply keeps_putCell c_putCell' | with_reducible apply keeps_commitValves c_commitValves' | with_reducible apply keeps_trigStep c_trigStep' | with_reducible apply keeps_commitActions c_commitActions' | with_reducible apply keeps_record c_record' | with_reducible apply keeps_latchDone c_latchDone' | with_reducible apply keeps_emitFrom c_emitFrom' | with_reducible apply keeps_enterPause c_enterPause' | with_reducible apply keeps_stage c_stage' | with_reducible apply Keeps.foldl (I := I) | with_reducible apply Keeps.foldl₂ (I := I) | with_reducible apply Keeps.ite (I := I) | exact hc.mono (by decide +kernel) | split | intro s _ _ hk | intro s _ hk | intro s hk | with_reducible exact hk

def Touched.commitDue : Touch :=
  { regs := [F.LC_STATUS_SHADOW_VALID, F.LC_STATUS_ACTIVE_BANK, F.LC_STATUS_SAT_LO, F.LC_STATUS_SAT_HI, F.LC_STATUS_LEVEL,
      F.LC_EVENT_ODO_SAT, F.LC_EVENT_LEVEL_CLAMPED, F.LC_EVENT_SWAP_REFUSED, F.LC_EVENT_SWAP_DONE, F.LC_C_STATE,
      F.LC_ODO, F.TR_STATUS_STAGE_STATE, F.TR_STATUS_PAUSE_CAUSE, F.TR_STATUS_DEFERRED, F.TR_STATUS_STATE,
      F.TR_EVENT_SPAWN_DROP, F.TR_EVENT_VALVE_REPLACED, F.TR_EVENT_ABORT_IGNORED, F.TR_EVENT_CANCELLED,
      F.TR_EVENT_STAGE_INVALID, F.TR_EVENT_STAGE_MISS, F.TR_STEPS_STAGED_STEP, F.TR_STEPS_CUR_STEP, F.TR_LABEL,
      F.TR_COMMIT, F.TR_NEXT, F.TR_DECIDE_END_IDX, F.TR_DECIDE_DECIDED, F.TR_COMMITS, F.TR_MISS_CNT,
      F.TR_CANCEL_CNT, F.TR_COND, F.PG_STATUS_LIMITS_PENDING, F.PG_STATUS_HELD, F.PG_TARGET, F.PG_VMAX,
      F.PG_WIN_M2, F.PG_WIN_M1, F.PG_SHADOW_TARGET, F.PG_SHADOW_VMAX, F.PG_SHADOW_WIN_M2, F.PG_SHADOW_WIN_M1,
      F.AX_STATUS_FAULT_CAUSE, F.AX_STATUS_STATE, F.AX_EVENT, F.AX_SEG_NOW_SEG, F.AX_SEG_NOW_LEFT, F.AX_ODO_MOVES,
      F.SK_STATUS_BURST_FREE_KIB, F.SK_EVENT, F.SKS_SEQ, F.SKS_STATUS_RESIDENT, F.SKS_OVERWRITE,
      F.TS_STATUS_RUNNING, F.TS_STATUS_STATE, F.TS_EVENT, F.TS_COUNTER, F.TS_TIMER, F.CS_STATUS_ARM_RESULT,
      F.CS_STATUS_STATE, F.CS_EVENT, F.CS_PRE_BYTES, F.CS_NEED_BYTES, F.MU_STATUS_VIOL_RUN, F.MU_STATUS_ENV_NOW,
      F.MU_STATUS_STATE, F.MU_EVENT, F.MU_A, F.POOL_FREE, F.LOOM_EVENT, F.LOOM_EVT_OVF, F.LOOM_OVF_ROUTE,
      F.ODO_OUT, F.ODO_OUT_SAT, F.VR_VALUE, F.SCHED_STATUS_FREE_SLOTS, F.SCHED_STATUS_INFLIGHT, F.SCHED_EVENT,
      F.SCHED_DISPATCH_CNT, F.SCHED_CANCEL_CNT, F.SCHED_CANCEL_LATE_CNT, F.SCHED_POISON_CNT,
      F.SCHED_EVT_UNBOUND_CNT, F.SCHED_TEMPLATE_MISS_CNT, F.PS_USED, F.PS_HELD, F.HQ_DEPTH, F.HQ_MAXDEPTH,
      F.HQ_PUSH_CNT, F.HQ_BUSY_CNT, F.SH_STATUS_STATE, F.SH_STATUS_SLOT, F.SH_LOAD, F.LVL_RDY_DEPTH,
      F.LVL_WAIT_AVG, F.LVL_HIST, F.FLOW_STATE_HELD, F.FLOW_STATE_IN_SERVICE, F.FLOW_STATE_HELD_CAUSE,
      F.FLOW_STATE_PENDING, F.CP_STATUS_STOP_CAUSE, F.CP_STATUS_STATE, F.CP_EVENT, F.CP_STOP_T,
      F.PWR_STATUS_WAKE_PEND, F.PWR_STATUS_LOOM_ON, F.PWR_STATUS_PHASE, F.PWR_STATUS_TARGET, F.PWR_STATUS_STATE,
      F.PWR_WAKE_SRC, F.PWR_WAKE_MERGED, F.PWR_RES, F.PWR_ENTRIES, F.SYS_FAULT, F.SYS_FAULT_LAST, F.SYS_FAULT_T,
      F.MSIX_PBA],
    parts := [.skein, .cells, .fio, .treadles, .gens, .axes, .trig, .loom, .sched, .cyc, .host, .power, .rings, .sram, .dram, .dlm, .freeCtr] }

theorem keeps_commitDue (hc : Closed I Touched.commitDue) {s : State} (hk : Holds I s) (p : Nat) : Holds I (State.commitDue s p) := by
  have c_stagingMiss' : Closed I Touched.stagingMiss := hc.mono (by decide +kernel)
  have c_commitStep' : Closed I Touched.commitStep := hc.mono (by decide +kernel)
  have c_abortTreadle' : Closed I Touched.abortTreadle := hc.mono (by decide +kernel)
  unfold State.commitDue
  try dsimp only
  repeat' first | (guard_target =ₐ Holds I s; exact hk) | simp only [id_eq] | with_reducible apply keeps_stagingMiss c_stagingMiss' | with_reducible apply keeps_wr | with_reducible apply keeps_commitStep c_commitStep' | with_reducible apply keeps_abortTreadle c_abortTreadle' | with_reducible apply Keeps.foldl (I := I) | with_reducible apply Keeps.foldl₂ (I := I) | with_reducible apply Keeps.ite (I := I) | exact hc.mono (by decide +kernel) | split | intro s _ _ hk | intro s _ hk | intro s hk | with_reducible exact hk

def Touched.evalCond : Touch :=
  { regs := [F.TR_COND] }

theorem keeps_evalCond (hc : Closed I Touched.evalCond) {s : State} (hk : Holds I s) (p : Nat) (i : Nat) : Holds I (State.evalCond s p i).1 := by
  unfold State.evalCond
  try dsimp only
  repeat' first | (guard_target =ₐ Holds I s; exact hk) | simp only [id_eq] | with_reducible apply keeps_bump | with_reducible apply keeps_wr | with_reducible apply Keeps.foldl (I := I) | with_reducible apply Keeps.foldl₂ (I := I) | with_reducible apply Keeps.ite (I := I) | exact hc.mono (by decide +kernel) | split | intro s _ _ hk | intro s _ hk | intro s hk | with_reducible exact hk

def Touched.evalConds : Touch :=
  { regs := [F.TR_COND] }

theorem keeps_evalConds (hc : Closed I Touched.evalConds) {s : State} (hk : Holds I s) (p : Nat) : Holds I (State.evalConds s p).1 := by
  have c_evalCond' : Closed I Touched.evalCond := hc.mono (by decide +kernel)
  unfold State.evalConds
  try dsimp only
  repeat' first | (guard_target =ₐ Holds I s; exact hk) | simp only [id_eq] | with_reducible apply keeps_evalCond c_evalCond' | with_reducible apply Keeps.foldl (I := I) | with_reducible apply Keeps.foldl₂ (I := I) | with_reducible apply Keeps.ite (I := I) | split | intro s _ _ hk | intro s _ hk | intro s hk | with_reducible exact hk

def Touched.takeDecision : Touch :=
  { regs := [F.LC_STATUS_SHADOW_VALID, F.TR_STATUS_STAGE_STATE, F.TR_STATUS_DEFERRED, F.TR_EVENT_CANCELLED,
      F.TR_STEPS_STAGED_STEP, F.TR_NEXT, F.TR_DECIDE_NEXT, F.TR_DECIDE_TRUE_MASK, F.TR_DECIDE_END_IDX,
      F.TR_DECIDE_ON_DEMAND, F.TR_DECIDE_DECIDED, F.TR_CANCEL_CNT, F.PG_SHADOW_TARGET, F.PG_SHADOW_VMAX,
      F.PG_SHADOW_WIN_M2, F.PG_SHADOW_WIN_M1, F.SK_STATUS_BURST_FREE_KIB, F.SK_EVENT, F.SKS_SEQ,
      F.SKS_STATUS_RESIDENT, F.SKS_OVERWRITE],
    parts := [.skein, .cells, .treadles, .gens] }

theorem keeps_takeDecision (hc : Closed I Touched.takeDecision) {s : State} (hk : Holds I s) (p : Nat) (mask : Nat) : Holds I (State.takeDecision s p mask) := by
  have c_putTreadle' : Closed I Touched.putTreadle := hc.mono (by decide +kernel)
  have c_schedule' : Closed I Touched.schedule := hc.mono (by decide +kernel)
  have c_stage' : Closed I Touched.stage := hc.mono (by decide +kernel)
  have c_cancelStaging' : Closed I Touched.cancelStaging := hc.mono (by decide +kernel)
  unfold State.takeDecision
  try dsimp only
  repeat' first | (guard_target =ₐ Holds I s; exact hk) | simp only [id_eq] | with_reducible apply keeps_wr | with_reducible apply keeps_putTreadle c_putTreadle' | with_reducible apply keeps_schedule c_schedule' | with_reducible apply keeps_stage c_stage' | with_reducible apply keeps_cancelStaging c_cancelStaging' | with_reducible apply Keeps.foldl (I := I) | with_reducible apply Keeps.foldl₂ (I := I) | with_reducible apply Keeps.ite (I := I) | exact hc.mono (by decide +kernel) | split | intro s _ _ hk | intro s _ hk | intro s hk | with_reducible exact hk

def Touched.evaluateStep : Touch :=
  { regs := [F.LC_STATUS_SHADOW_VALID, F.TR_STATUS_STAGE_STATE, F.TR_STATUS_PAUSE_CAUSE, F.TR_STATUS_DEFERRED,
      F.TR_STATUS_STATE, F.TR_EVENT_SPAWN_DROP, F.TR_EVENT_ABORT_IGNORED, F.TR_EVENT_CANCELLED,
      F.TR_STEPS_STAGED_STEP, F.TR_NEXT, F.TR_DECIDE_NEXT, F.TR_DECIDE_TRUE_MASK, F.TR_DECIDE_END_IDX,
      F.TR_DECIDE_ON_DEMAND, F.TR_DECIDE_DECIDED, F.TR_CANCEL_CNT, F.TR_COND, F.PG_STATUS_HELD, F.PG_SHADOW_TARGET,
      F.PG_SHADOW_VMAX, F.PG_SHADOW_WIN_M2, F.PG_SHADOW_WIN_M1, F.AX_STATUS_FAULT_CAUSE, F.AX_STATUS_STATE,
      F.AX_EVENT, F.AX_SEG_NOW_SEG, F.AX_SEG_NOW_LEFT, F.SK_STATUS_BURST_FREE_KIB, F.SK_EVENT, F.SKS_SEQ,
      F.SKS_STATUS_RESIDENT, F.SKS_OVERWRITE, F.CS_STATUS_STATE, F.CS_EVENT, F.LOOM_EVENT, F.LOOM_EVT_OVF,
      F.LOOM_OVF_ROUTE, F.ODO_OUT, F.ODO_OUT_SAT, F.VR_VALUE, F.SCHED_STATUS_FREE_SLOTS, F.SCHED_STATUS_INFLIGHT,
      F.SCHED_EVENT, F.SCHED_DISPATCH_CNT, F.SCHED_CANCEL_CNT, F.SCHED_CANCEL_LATE_CNT, F.SCHED_POISON_CNT,
      F.SCHED_EVT_UNBOUND_CNT, F.SCHED_TEMPLATE_MISS_CNT, F.PS_USED, F.PS_HELD, F.HQ_DEPTH, F.HQ_MAXDEPTH,
      F.HQ_PUSH_CNT, F.HQ_BUSY_CNT, F.SH_STATUS_STATE, F.SH_STATUS_SLOT, F.SH_LOAD, F.LVL_RDY_DEPTH,
      F.LVL_WAIT_AVG, F.LVL_HIST, F.FLOW_STATE_HELD, F.FLOW_STATE_IN_SERVICE, F.FLOW_STATE_HELD_CAUSE,
      F.FLOW_STATE_PENDING, F.CP_STATUS_STOP_CAUSE, F.CP_STATUS_STATE, F.CP_EVENT, F.CP_STOP_T,
      F.PWR_STATUS_WAKE_PEND, F.PWR_STATUS_LOOM_ON, F.PWR_STATUS_PHASE, F.PWR_STATUS_TARGET, F.PWR_STATUS_STATE,
      F.PWR_WAKE_SRC, F.PWR_WAKE_MERGED, F.PWR_RES, F.PWR_ENTRIES, F.SYS_FAULT, F.SYS_FAULT_LAST, F.SYS_FAULT_T,
      F.MSIX_PBA],
    parts := [.skein, .cells, .fio, .treadles, .gens, .axes, .trig, .loom, .sched, .cyc, .host, .power, .rings, .sram, .dram, .dlm, .freeCtr] }

theorem keeps_evaluateStep (hc : Closed I Touched.evaluateStep) {s : State} (hk : Holds I s) (p : Nat) : Holds I (State.evaluateStep s p) := by
  have c_latchDone' : Closed I Touched.latchDone := hc.mono (by decide +kernel)
  have c_axUpdate' : Closed I Touched.axUpdate := hc.mono (by decide +kernel)
  have c_evalConds' : Closed I Touched.evalConds := hc.mono (by decide +kernel)
  have c_putTreadle' : Closed I Touched.putTreadle := hc.mono (by decide +kernel)
  have c_takeDecision' : Closed I Touched.takeDecision := hc.mono (by decide +kernel)
  unfold State.evaluateStep
  try dsimp only
  repeat' first | (guard_target =ₐ Holds I s; exact hk) | simp only [id_eq] | with_reducible apply keeps_latchDone c_latchDone' | with_reducible apply keeps_each | with_reducible apply keeps_axUpdate c_axUpdate' | with_reducible apply keeps_evalConds c_evalConds' | with_reducible apply keeps_putTreadle c_putTreadle' | with_reducible apply keeps_takeDecision c_takeDecision' | with_reducible apply Keeps.foldl (I := I) | with_reducible apply Keeps.foldl₂ (I := I) | with_reducible apply Keeps.ite (I := I) | split | intro s _ _ hk | intro s _ hk | intro s hk | with_reducible exact hk

def Touched.takeTable : Touch :=
  { regs := [F.TR_STATUS_TABLE_OK, F.TR_EVENT_LOAD_DONE, F.TR_TIMING_BRANCH_NS, F.TR_TIMING_TICK_NS, F.TR_LOAD_MISS_REACT,
      F.TR_LOAD_STEP_COUNT, F.TR_TABLE_ID, F.TR_ENTRY_STOP_STEP, F.TR_ENTRY_ENTRY_STEP],
    parts := [.treadles, .sram] }

theorem keeps_takeTable (hc : Closed I Touched.takeTable) {s : State} (hk : Holds I s) (p : Nat) (img : StepTable) : Holds I (State.takeTable s p img) := by
  have c_putTreadle' : Closed I Touched.putTreadle := hc.mono (by decide +kernel)
  have c_copyTable' : Closed I Touched.copyTable := hc.mono (by decide +kernel)
  unfold State.takeTable
  try dsimp only
  repeat' first | (guard_target =ₐ Holds I s; exact hk) | simp only [id_eq] | with_reducible apply keeps_putTreadle c_putTreadle' | with_reducible apply keeps_copyTable c_copyTable' | with_reducible apply keeps_wr | with_reducible apply Keeps.foldl (I := I) | with_reducible apply Keeps.foldl₂ (I := I) | with_reducible apply Keeps.ite (I := I) | exact hc.mono (by decide +kernel) | split | intro s _ _ hk | intro s _ hk | intro s hk | with_reducible exact hk

def Touched.trCommand : Touch :=
  { regs := [F.TR_CTRL_START_STEP, F.TR_EVENT_STATE_MISMATCH, F.TR_EVENT_CMD_REFUSED, F.TD_EVENT, F.SYS_DISCARD_REASON,
      F.SYS_DISCARD_OFFSET, F.SYS_DISCARD_CNT, F.MBX_STATE_COMP, F.PV_SEQ, F.MSIX_PBA],
    parts := [.tandem, .host, .answer, .dram] }

theorem keeps_trCommand (hc : Closed I Touched.trCommand) {s : State} (hk : Holds I s) (p : Nat) (bit : Nat) (value : Nat) (f : State → State) (hf4 : ∀ s, Holds I s → Holds I (f s)) : Holds I (State.trCommand s p bit value f) := by
  have c_hostWrite' : Closed I Touched.hostWrite := hc.mono (by decide +kernel)
  unfold State.trCommand
  try dsimp only
  repeat' first | (guard_target =ₐ Holds I s; exact hk) | simp only [id_eq] | with_reducible apply keeps_hostWrite c_hostWrite' | with_reducible apply keeps_wr | with_reducible apply Keeps.foldl (I := I) | with_reducible apply Keeps.foldl₂ (I := I) | with_reducible apply Keeps.ite (I := I) | exact hc.mono (by decide +kernel) | split | with_reducible apply hf4 | intro s _ _ hk | intro s _ hk | intro s hk | with_reducible exact hk

def Touched.trRefuse : Touch :=
  { regs := [F.TR_EVENT_CMD_REFUSED] }

theorem keeps_trRefuse (hc : Closed I Touched.trRefuse) {s : State} (hk : Holds I s) (p : Nat) : Holds I (State.trRefuse s p) := by
  unfold State.trRefuse
  try dsimp only
  repeat' first | (guard_target =ₐ Holds I s; exact hk) | simp only [id_eq] | with_reducible apply keeps_wr | with_reducible apply Keeps.foldl (I := I) | with_reducible apply Keeps.foldl₂ (I := I) | with_reducible apply Keeps.ite (I := I) | exact hc.mono (by decide +kernel) | split | intro s _ _ hk | intro s _ hk | intro s hk | with_reducible exact hk

theorem keeps_execLoadTable (hc : Closed I Touches.loadTable) {s : State} (hk : Holds I s) (t : Instant) (p : Fin 16) (img : StepTable) (room : Bool) : ∃ u, execLoadTable t p img room s = .next u ∧ Holds I u := by
  have c_hostCommand' : Closed I Touched.hostCommand := hc.mono (by decide +kernel)
  have c_advance' : Closed I Touched.advance := hc.mono (by decide +kernel)
  have c_loading' : Closed I Touched.loading := hc.mono (by decide +kernel)
  have c_reply' : Closed I Touched.reply := hc.mono (by decide +kernel)
  have c_takeTable' : Closed I Touched.takeTable := hc.mono (by decide +kernel)
  have c_store' : Closed I Touched.store := hc.mono (by decide +kernel)
  refine ⟨_, rfl, ?_⟩
  try dsimp only
  repeat' first | (guard_target =ₐ Holds I s; exact hk) | simp only [id_eq] | with_reducible apply keeps_hostCommand c_hostCommand' | with_reducible apply keeps_advance c_advance' | with_reducible apply keeps_loading c_loading' | with_reducible apply keeps_reply c_reply' | with_reducible apply keeps_wr | with_reducible apply keeps_takeTable c_takeTable' | with_reducible apply keeps_store c_store' | with_reducible apply Keeps.foldl (I := I) | with_reducible apply Keeps.foldl₂ (I := I) | with_reducible apply Keeps.ite (I := I) | exact hc.mono (by decide +kernel) | split | intro s _ _ hk | intro s _ hk | intro s hk | with_reducible exact hk

theorem keeps_execPgEnable (hc : Closed I Touches.pgEnable) {s : State} (hk : Holds I s) (t : Instant) (n : Fin 256) (value : Word) : ∃ u, execPgEnable t n value s = .next u ∧ Holds I u := by
  have c_advance' : Closed I Touched.advance := hc.mono (by decide +kernel)
  have c_rwlWrite' : Closed I Touched.rwlWrite := hc.mono (by decide +kernel)
  have c_stopGen' : Closed I Touched.stopGen := hc.mono (by decide +kernel)
  have c_runChange' : Closed I Touched.runChange := hc.mono (by decide +kernel)
  have c_wakeQuadrant' : Closed I Touched.wakeQuadrant := hc.mono (by decide +kernel)
  have c_startGen' : Closed I Touched.startGen := hc.mono (by decide +kernel)
  refine ⟨_, rfl, ?_⟩
  try dsimp only
  repeat' first | (guard_target =ₐ Holds I s; exact hk) | simp only [id_eq] | with_reducible apply keeps_advance c_advance' | with_reducible apply keeps_rwlWrite c_rwlWrite' | with_reducible apply keeps_stopGen c_stopGen' | with_reducible apply keeps_wr | with_reducible apply keeps_runChange c_runChange' | with_reducible apply keeps_wakeQuadrant c_wakeQuadrant' | with_reducible apply keeps_startGen c_startGen' | with_reducible apply Keeps.foldl (I := I) | with_reducible apply Keeps.foldl₂ (I := I) | with_reducible apply Keeps.ite (I := I) | exact hc.mono (by decide +kernel) | split | intro s _ _ hk | intro s _ hk | intro s hk | with_reducible exact hk

theorem keeps_execPgHostWrite (hc : Closed I Touches.pgHostWrite) {s : State} (hk : Holds I s) (t : Instant) (n : Fin 256) (r : GenReg) (value : Word) : ∃ u, execPgHostWrite t n r value s = .next u ∧ Holds I u := by
  have c_advance' : Closed I Touched.advance := hc.mono (by decide +kernel)
  have c_hostWrite' : Closed I Touched.hostWrite := hc.mono (by decide +kernel)
  have c_discardOther' : Closed I Touched.discardOther := hc.mono (by decide +kernel)
  have c_giveTarget' : Closed I Touched.giveTarget := hc.mono (by decide +kernel)
  have c_giveLimits' : Closed I Touched.giveLimits := hc.mono (by decide +kernel)
  refine ⟨_, rfl, ?_⟩
  try dsimp only
  repeat' first | (guard_target =ₐ Holds I s; exact hk) | simp only [id_eq] | with_reducible apply keeps_advance c_advance' | with_reducible apply keeps_hostWrite c_hostWrite' | with_reducible apply keeps_discardOther c_discardOther' | with_reducible apply keeps_wr | with_reducible apply keeps_giveTarget c_giveTarget' | with_reducible apply keeps_giveLimits c_giveLimits' | with_reducible apply Keeps.foldl (I := I) | with_reducible apply Keeps.foldl₂ (I := I) | with_reducible apply Keeps.ite (I := I) | exact hc.mono (by decide +kernel) | split | intro s _ _ hk | intro s _ hk | intro s hk | with_reducible exact hk

theorem keeps_execPgUpdate (hc : Closed I Touches.pgUpdate) {s : State} (hk : Holds I s) (t : Instant) (n : Fin 256) : ∃ u, execPgUpdate t n s = .next u ∧ Holds I u := by
  have c_advance' : Closed I Touched.advance := hc.mono (by decide +kernel)
  have c_updateGen' : Closed I Touched.updateGen := hc.mono (by decide +kernel)
  have c_latchDone' : Closed I Touched.latchDone := hc.mono (by decide +kernel)
  refine ⟨_, rfl, ?_⟩
  try dsimp only
  repeat' first | (guard_target =ₐ Holds I s; exact hk) | simp only [id_eq] | with_reducible apply keeps_advance c_advance' | with_reducible apply keeps_updateGen c_updateGen' | with_reducible apply keeps_latchDone c_latchDone' | with_reducible apply Keeps.foldl (I := I) | with_reducible apply Keeps.foldl₂ (I := I) | with_reducible apply Keeps.ite (I := I) | split | intro s _ _ hk | intro s _ hk | intro s hk | with_reducible exact hk

theorem keeps_execStagingDone (hc : Closed I Touches.stagingDone) {s : State} (hk : Holds I s) (t : Instant) (p : Fin 16) : ∃ u, execStagingDone t p s = .next u ∧ Holds I u := by
  have c_advance' : Closed I Touched.advance := hc.mono (by decide +kernel)
  have c_putTreadle' : Closed I Touched.putTreadle := hc.mono (by decide +kernel)
  have c_record' : Closed I Touched.record := hc.mono (by decide +kernel)
  have c_schedule' : Closed I Touched.schedule := hc.mono (by decide +kernel)
  refine ⟨_, rfl, ?_⟩
  try dsimp only
  repeat' first | (guard_target =ₐ Holds I s; exact hk) | simp only [id_eq] | with_reducible apply keeps_advance c_advance' | with_reducible apply keeps_putTreadle c_putTreadle' | with_reducible apply keeps_wr | with_reducible apply keeps_record c_record' | with_reducible apply keeps_schedule c_schedule' | with_reducible apply Keeps.foldl (I := I) | with_reducible apply Keeps.foldl₂ (I := I) | with_reducible apply Keeps.ite (I := I) | exact hc.mono (by decide +kernel) | split | intro s _ _ hk | intro s _ hk | intro s hk | with_reducible exact hk

theorem keeps_execStepBoundary (hc : Closed I Touches.stepBoundary) {s : State} (hk : Holds I s) (t : Instant) (p : Fin 16) : ∃ u, execStepBoundary t p s = .next u ∧ Holds I u := by
  have c_advance' : Closed I Touched.advance := hc.mono (by decide +kernel)
  have c_endTreadle' : Closed I Touched.endTreadle := hc.mono (by decide +kernel)
  have c_abortTreadle' : Closed I Touched.abortTreadle := hc.mono (by decide +kernel)
  have c_schedule' : Closed I Touched.schedule := hc.mono (by decide +kernel)
  have c_commitDue' : Closed I Touched.commitDue := hc.mono (by decide +kernel)
  refine ⟨_, rfl, ?_⟩
  try dsimp only
  repeat' first | (guard_target =ₐ Holds I s; exact hk) | simp only [id_eq] | with_reducible apply keeps_advance c_advance' | with_reducible apply keeps_endTreadle c_endTreadle' | with_reducible apply keeps_abortTreadle c_abortTreadle' | with_reducible apply keeps_schedule c_schedule' | with_reducible apply keeps_commitDue c_commitDue' | with_reducible apply Keeps.foldl (I := I) | with_reducible apply Keeps.foldl₂ (I := I) | with_reducible apply Keeps.ite (I := I) | split | intro s _ _ hk | intro s _ hk | intro s hk | with_reducible exact hk

theorem keeps_execStepCommit (hc : Closed I Touches.stepCommit) {s : State} (hk : Holds I s) (t : Instant) (p : Fin 16) : ∃ u, execStepCommit t p s = .next u ∧ Holds I u := by
  have c_advance' : Closed I Touched.advance := hc.mono (by decide +kernel)
  have c_commitDue' : Closed I Touched.commitDue := hc.mono (by decide +kernel)
  refine ⟨_, rfl, ?_⟩
  try dsimp only
  repeat' first | (guard_target =ₐ Holds I s; exact hk) | simp only [id_eq] | with_reducible apply keeps_advance c_advance' | with_reducible apply keeps_commitDue c_commitDue' | with_reducible apply Keeps.foldl (I := I) | with_reducible apply Keeps.foldl₂ (I := I) | with_reducible apply Keeps.ite (I := I) | split | intro s _ _ hk | intro s _ hk | intro s hk | with_reducible exact hk

theorem keeps_execTimeDecision (hc : Closed I Touches.timeDecision) {s : State} (hk : Holds I s) (t : Instant) (p : Fin 16) : ∃ u, execTimeDecision t p s = .next u ∧ Holds I u := by
  have c_advance' : Closed I Touched.advance := hc.mono (by decide +kernel)
  have c_evaluateStep' : Closed I Touched.evaluateStep := hc.mono (by decide +kernel)
  refine ⟨_, rfl, ?_⟩
  try dsimp only
  repeat' first | (guard_target =ₐ Holds I s; exact hk) | simp only [id_eq] | with_reducible apply keeps_advance c_advance' | with_reducible apply keeps_evaluateStep c_evaluateStep' | with_reducible apply Keeps.foldl (I := I) | with_reducible apply Keeps.foldl₂ (I := I) | with_reducible apply Keeps.ite (I := I) | split | intro s _ _ hk | intro s _ hk | intro s hk | with_reducible exact hk

theorem keeps_execTrAbort (hc : Closed I Touches.trAbort) {s : State} (hk : Holds I s) (t : Instant) (p : Fin 16) (value : Word) : ∃ u, execTrAbort t p value s = .next u ∧ Holds I u := by
  have c_advance' : Closed I Touched.advance := hc.mono (by decide +kernel)
  have c_trCommand' : Closed I Touched.trCommand := hc.mono (by decide +kernel)
  have c_trRefuse' : Closed I Touched.trRefuse := hc.mono (by decide +kernel)
  have c_abortTreadle' : Closed I Touched.abortTreadle := hc.mono (by decide +kernel)
  refine ⟨_, rfl, ?_⟩
  try dsimp only
  repeat' first | (guard_target =ₐ Holds I s; exact hk) | simp only [id_eq] | with_reducible apply keeps_advance c_advance' | with_reducible apply keeps_trCommand c_trCommand' | with_reducible apply keeps_trRefuse c_trRefuse' | with_reducible apply keeps_abortTreadle c_abortTreadle' | with_reducible apply Keeps.foldl (I := I) | with_reducible apply Keeps.foldl₂ (I := I) | with_reducible apply Keeps.ite (I := I) | split | intro s _ _ hk | intro s _ hk | intro s hk | with_reducible exact hk

theorem keeps_execTrClearFault (hc : Closed I Touches.trClearFault) {s : State} (hk : Holds I s) (t : Instant) (p : Fin 16) (value : Word) : ∃ u, execTrClearFault t p value s = .next u ∧ Holds I u := by
  have c_advance' : Closed I Touched.advance := hc.mono (by decide +kernel)
  have c_trCommand' : Closed I Touched.trCommand := hc.mono (by decide +kernel)
  have c_trRefuse' : Closed I Touched.trRefuse := hc.mono (by decide +kernel)
  refine ⟨_, rfl, ?_⟩
  try dsimp only
  repeat' first | (guard_target =ₐ Holds I s; exact hk) | simp only [id_eq] | with_reducible apply keeps_advance c_advance' | with_reducible apply keeps_trCommand c_trCommand' | with_reducible apply keeps_wr | with_reducible apply keeps_trRefuse c_trRefuse' | with_reducible apply Keeps.foldl (I := I) | with_reducible apply Keeps.foldl₂ (I := I) | with_reducible apply Keeps.ite (I := I) | exact hc.mono (by decide +kernel) | split | intro s _ _ hk | intro s _ hk | intro s hk | with_reducible exact hk

theorem keeps_execTrPause (hc : Closed I Touches.trPause) {s : State} (hk : Holds I s) (t : Instant) (p : Fin 16) (value : Word) : ∃ u, execTrPause t p value s = .next u ∧ Holds I u := by
  have c_advance' : Closed I Touched.advance := hc.mono (by decide +kernel)
  have c_trCommand' : Closed I Touched.trCommand := hc.mono (by decide +kernel)
  have c_pauseCause' : Closed I Touched.pauseCause := hc.mono (by decide +kernel)
  have c_trRefuse' : Closed I Touched.trRefuse := hc.mono (by decide +kernel)
  refine ⟨_, rfl, ?_⟩
  try dsimp only
  repeat' first | (guard_target =ₐ Holds I s; exact hk) | simp only [id_eq] | with_reducible apply keeps_advance c_advance' | with_reducible apply keeps_trCommand c_trCommand' | with_reducible apply keeps_pauseCause c_pauseCause' | with_reducible apply keeps_trRefuse c_trRefuse' | with_reducible apply Keeps.foldl (I := I) | with_reducible apply Keeps.foldl₂ (I := I) | with_reducible apply Keeps.ite (I := I) | split | intro s _ _ hk | intro s _ hk | intro s hk | with_reducible exact hk

theorem keeps_execTrResume (hc : Closed I Touches.trResume) {s : State} (hk : Holds I s) (t : Instant) (p : Fin 16) (value : Word) : ∃ u, execTrResume t p value s = .next u ∧ Holds I u := by
  have c_advance' : Closed I Touched.advance := hc.mono (by decide +kernel)
  have c_trCommand' : Closed I Touched.trCommand := hc.mono (by decide +kernel)
  have c_clearPause' : Closed I Touched.clearPause := hc.mono (by decide +kernel)
  have c_trRefuse' : Closed I Touched.trRefuse := hc.mono (by decide +kernel)
  refine ⟨_, rfl, ?_⟩
  try dsimp only
  repeat' first | (guard_target =ₐ Holds I s; exact hk) | simp only [id_eq] | with_reducible apply keeps_advance c_advance' | with_reducible apply keeps_trCommand c_trCommand' | with_reducible apply keeps_clearPause c_clearPause' | with_reducible apply keeps_trRefuse c_trRefuse' | with_reducible apply Keeps.foldl (I := I) | with_reducible apply Keeps.foldl₂ (I := I) | with_reducible apply Keeps.ite (I := I) | split | intro s _ _ hk | intro s _ hk | intro s hk | with_reducible exact hk

theorem keeps_execTrStart (hc : Closed I Touches.trStart) {s : State} (hk : Holds I s) (t : Instant) (p : Fin 16) (value : Word) : ∃ u, execTrStart t p value s = .next u ∧ Holds I u := by
  have c_advance' : Closed I Touched.advance := hc.mono (by decide +kernel)
  have c_trCommand' : Closed I Touched.trCommand := hc.mono (by decide +kernel)
  have c_trRefuse' : Closed I Touched.trRefuse := hc.mono (by decide +kernel)
  have c_runChange' : Closed I Touched.runChange := hc.mono (by decide +kernel)
  have c_schedule' : Closed I Touched.schedule := hc.mono (by decide +kernel)
  have c_stage' : Closed I Touched.stage := hc.mono (by decide +kernel)
  refine ⟨_, rfl, ?_⟩
  try dsimp only
  repeat' first | (guard_target =ₐ Holds I s; exact hk) | simp only [id_eq] | with_reducible apply keeps_advance c_advance' | with_reducible apply keeps_trCommand c_trCommand' | with_reducible apply keeps_trRefuse c_trRefuse' | with_reducible apply keeps_wr | with_reducible apply keeps_runChange c_runChange' | with_reducible apply keeps_schedule c_schedule' | with_reducible apply keeps_stage c_stage' | with_reducible apply Keeps.foldl (I := I) | with_reducible apply Keeps.foldl₂ (I := I) | with_reducible apply Keeps.ite (I := I) | exact hc.mono (by decide +kernel) | split | intro s _ _ hk | intro s _ hk | intro s hk | with_reducible exact hk

theorem keeps_execTreadleFault (hc : Closed I Touches.treadleFault) {s : State} (hk : Holds I s) (t : Instant) (p : Fin 16) : ∃ u, execTreadleFault t p s = .next u ∧ Holds I u := by
  have c_advance' : Closed I Touched.advance := hc.mono (by decide +kernel)
  have c_idleTreadle' : Closed I Touched.idleTreadle := hc.mono (by decide +kernel)
  have c_cancelStaging' : Closed I Touched.cancelStaging := hc.mono (by decide +kernel)
  have c_partStop' : Closed I Touched.partStop := hc.mono (by decide +kernel)
  have c_sysFault' : Closed I Touched.sysFault := hc.mono (by decide +kernel)
  refine ⟨_, rfl, ?_⟩
  try dsimp only
  repeat' first | (guard_target =ₐ Holds I s; exact hk) | simp only [id_eq] | with_reducible apply keeps_advance c_advance' | with_reducible apply keeps_wr | with_reducible apply keeps_idleTreadle c_idleTreadle' | with_reducible apply keeps_cancelStaging c_cancelStaging' | with_reducible apply keeps_partStop c_partStop' | with_reducible apply keeps_sysFault c_sysFault' | with_reducible apply Keeps.foldl (I := I) | with_reducible apply Keeps.foldl₂ (I := I) | with_reducible apply Keeps.ite (I := I) | exact hc.mono (by decide +kernel) | split | intro s _ _ hk | intro s _ hk | intro s hk | with_reducible exact hk

theorem keeps_execTreadleTick (hc : Closed I Touches.treadleTick) {s : State} (hk : Holds I s) (t : Instant) (p : Fin 16) : ∃ u, execTreadleTick t p s = .next u ∧ Holds I u := by
  have c_advance' : Closed I Touched.advance := hc.mono (by decide +kernel)
  have c_evaluateStep' : Closed I Touched.evaluateStep := hc.mono (by decide +kernel)
  refine ⟨_, rfl, ?_⟩
  try dsimp only
  repeat' first | (guard_target =ₐ Holds I s; exact hk) | simp only [id_eq] | with_reducible apply keeps_advance c_advance' | with_reducible apply keeps_evaluateStep c_evaluateStep' | with_reducible apply Keeps.foldl (I := I) | with_reducible apply Keeps.foldl₂ (I := I) | with_reducible apply Keeps.ite (I := I) | split | intro s _ _ hk | intro s _ hk | intro s hk | with_reducible exact hk

theorem keeps_execValveChange (hc : Closed I Touches.valveChange) {s : State} (hk : Holds I s) (t : Instant) (p : Fin 16) : ∃ u, execValveChange t p s = .next u ∧ Holds I u := by
  have c_advance' : Closed I Touched.advance := hc.mono (by decide +kernel)
  have c_putTreadle' : Closed I Touched.putTreadle := hc.mono (by decide +kernel)
  have c_command' : Closed I Touched.command := hc.mono (by decide +kernel)
  refine ⟨_, rfl, ?_⟩
  try dsimp only
  repeat' first | (guard_target =ₐ Holds I s; exact hk) | simp only [id_eq] | with_reducible apply keeps_advance c_advance' | with_reducible apply keeps_putTreadle c_putTreadle' | with_reducible apply keeps_command c_command' | with_reducible apply Keeps.foldl (I := I) | with_reducible apply Keeps.foldl₂ (I := I) | with_reducible apply Keeps.ite (I := I) | split | intro s _ _ hk | intro s _ hk | intro s hk | with_reducible exact hk

end Sys2Proof.Machine
end

