-- ==== Sys2Proof/Laws/Keeps/BootOps.lean ====
section
/-! SUPPORT.  What the operations of Machine/BootOps.lean touch, and that they keep every property
closed under it. -/

namespace Sys2Proof.Machine

open Sys2Proof

set_option Elab.async false
set_option linter.unusedSimpArgs false
set_option linter.unusedVariables false
set_option linter.unusedTactic false
set_option linter.unreachableTactic false

variable {I : State → Prop}

def Touched.bootAt : Touch :=
  { regs := [F.RST_STAGE_STAGE] }

theorem keeps_bootAt (hc : Closed I Touched.bootAt) {s : State} (hk : Holds I s) (n : Nat) : Holds I (State.bootAt s n) := by
  unfold State.bootAt
  try dsimp only
  repeat' first | (guard_target =ₐ Holds I s; exact hk) | simp only [id_eq] | with_reducible apply keeps_wr | with_reducible apply Keeps.foldl (I := I) | with_reducible apply Keeps.foldl₂ (I := I) | with_reducible apply Keeps.ite (I := I) | exact hc.mono (by decide +kernel) | split | intro s _ _ hk | intro s _ hk | intro s hk | with_reducible exact hk

def Touched.bootFails : Touch :=
  { regs := [F.RST_STAGE_FAIL_CODE, F.RST_STAGE_FAIL_STEP], parts := [.freeCtr] }

theorem keeps_bootFails (hc : Closed I Touched.bootFails) {s : State} (hk : Holds I s) (n : Nat) (code : Option Nat) : Holds I (State.bootFails s n code) := by
  have c_draw' : Closed I Touches.draw := hc.mono (by decide +kernel)
  unfold State.bootFails
  try dsimp only
  repeat' first | (guard_target =ₐ Holds I s; exact hk) | simp only [id_eq] | with_reducible apply keeps_draw c_draw' | with_reducible apply keeps_wr | with_reducible apply Keeps.foldl (I := I) | with_reducible apply Keeps.foldl₂ (I := I) | with_reducible apply Keeps.ite (I := I) | exact hc.mono (by decide +kernel) | split | intro s _ _ hk | intro s _ hk | intro s hk | with_reducible exact hk

def Touched.bootHalts : Touch :=
  { regs := [F.SK_STATUS_BURST_FREE_KIB, F.SK_EVENT, F.SKS_SEQ, F.SKS_STATUS_RESIDENT, F.SKS_OVERWRITE,
      F.RST_STAGE_FAIL_CODE, F.RST_STAGE_FAIL_STEP, F.SYS_DEVFAULT],
    parts := [.warp, .skein, .tandem, .freeCtr] }

theorem keeps_bootHalts (hc : Closed I Touched.bootHalts) {s : State} (hk : Holds I s) (n : Nat) (cause : Nat) (code : Option Nat) : Holds I (State.bootHalts s n cause code).1 := by
  have c_devFault' : Closed I Touched.devFault := hc.mono (by decide +kernel)
  have c_bootFails' : Closed I Touched.bootFails := hc.mono (by decide +kernel)
  unfold State.bootHalts
  try dsimp only
  repeat' first | (guard_target =ₐ Holds I s; exact hk) | simp only [id_eq] | with_reducible apply keeps_devFault c_devFault' | with_reducible apply keeps_bootFails c_bootFails' | with_reducible apply Keeps.foldl (I := I) | with_reducible apply Keeps.foldl₂ (I := I) | with_reducible apply Keeps.ite (I := I) | split | intro s _ _ hk | intro s _ hk | intro s hk | with_reducible exact hk

def Touched.bootRing : Touch :=
  { regs := [F.SEC_RING_KEYS_KEYED], parts := [.rings] }

theorem keeps_bootRing (hc : Closed I Touched.bootRing) {s : State} (hk : Holds I s) (b : BootRec) (r : Nat) : Holds I (State.bootRing s b r) := by
  have c_putRing' : Closed I Touched.putRing := hc.mono (by decide +kernel)
  unfold State.bootRing
  try dsimp only
  repeat' first | (guard_target =ₐ Holds I s; exact hk) | simp only [id_eq] | with_reducible apply keeps_putRing c_putRing' | with_reducible apply keeps_wr | with_reducible apply Keeps.foldl (I := I) | with_reducible apply Keeps.foldl₂ (I := I) | with_reducible apply Keeps.ite (I := I) | exact hc.mono (by decide +kernel) | split | intro s _ _ hk | intro s _ hk | intro s hk | with_reducible exact hk

def Touched.bootSelect : Touch :=
  { regs := [F.SK_STATUS_BURST_FREE_KIB, F.SK_EVENT, F.SKS_SEQ, F.SKS_STATUS_RESIDENT, F.SKS_OVERWRITE,
      F.UPD_STATUS_CHECK_RESULT, F.UPD_STATUS_ACTIVE_SLOT, F.UPD_STATUS_STATE, F.UPD_EVENT, F.UPD_SLOT_A_FW_SVN,
      F.UPD_SLOT_A_STATE, F.UPD_SLOT_B_FW_SVN, F.UPD_SLOT_B_STATE, F.BUNDLE_VER_A, F.BUNDLE_VER_B, F.MSIX_PBA],
    parts := [.skein, .sec, .host] }

theorem keeps_bootSelect (hc : Closed I Touched.bootSelect) {s : State} (hk : Holds I s) (b : BootRec) : Holds I (State.bootSelect s b) := by
  have c_onSec' : Closed I Touched.onSec := hc.mono (by decide +kernel)
  have c_showSlot' : Closed I Touched.showSlot := hc.mono (by decide +kernel)
  have c_updEvent' : Closed I Touched.updEvent := hc.mono (by decide +kernel)
  have c_emptySlot' : Closed I Touched.emptySlot := hc.mono (by decide +kernel)
  unfold State.bootSelect
  try dsimp only
  repeat' first | (guard_target =ₐ Holds I s; exact hk) | simp only [id_eq] | with_reducible apply keeps_wr | with_reducible apply keeps_onSec c_onSec' | with_reducible apply keeps_showSlot c_showSlot' | with_reducible apply keeps_updEvent c_updEvent' | with_reducible apply keeps_emptySlot c_emptySlot' | with_reducible apply Keeps.foldl (I := I) | with_reducible apply Keeps.foldl₂ (I := I) | with_reducible apply Keeps.ite (I := I) | exact hc.mono (by decide +kernel) | split | intro s _ _ hk | intro s _ hk | intro s hk | with_reducible exact hk

def Touched.bootStep1 : Touch :=
  { regs := [F.WARP_STATUS_MON_OK, F.WARP_STATUS_LOCKED, F.AVS_STATUS_AT_MAX, F.AVS_STATUS_CMD_MV,
      F.SK_STATUS_BURST_FREE_KIB, F.SK_EVENT, F.SKS_SEQ, F.SKS_STATUS_RESIDENT, F.SKS_OVERWRITE,
      F.PWR_STATUS_FAULT, F.PWR_STATUS_STATE, F.PWR_EVENT, F.PWR_WAKE_FAIL_CNT, F.PWR_RES, F.PWR_ENTRIES,
      F.RST_STAGE_FAIL_CODE, F.RST_STAGE_FAIL_STEP, F.RST_STAGE_STAGE, F.SYS_DEVFAULT, F.MSIX_PBA],
    parts := [.warp, .skein, .tandem, .host, .boot, .power, .freeCtr] }

theorem keeps_bootStep1 (hc : Closed I Touched.bootStep1) {s : State} (hk : Holds I s) (b : BootRec) : Holds I (State.bootStep1 s b).1 := by
  have c_bootAt' : Closed I Touched.bootAt := hc.mono (by decide +kernel)
  have c_onBoot' : Closed I Touched.onBoot := hc.mono (by decide +kernel)
  have c_startVolt' : Closed I Touched.startVolt := hc.mono (by decide +kernel)
  have c_onPower' : Closed I Touched.onPower := hc.mono (by decide +kernel)
  have c_bootFails' : Closed I Touched.bootFails := hc.mono (by decide +kernel)
  have c_pwrFlag' : Closed I Touched.pwrFlag := hc.mono (by decide +kernel)
  have c_putPwrState' : Closed I Touched.putPwrState := hc.mono (by decide +kernel)
  have c_devFault' : Closed I Touched.devFault := hc.mono (by decide +kernel)
  unfold State.bootStep1
  try dsimp only
  repeat' first | (guard_target =ₐ Holds I s; exact hk) | simp only [id_eq] | with_reducible apply keeps_bootAt c_bootAt' | with_reducible apply keeps_onBoot c_onBoot' | with_reducible apply keeps_startVolt c_startVolt' | with_reducible apply keeps_wr | with_reducible apply keeps_onPower c_onPower' | with_reducible apply keeps_bootFails c_bootFails' | with_reducible apply keeps_pwrFlag c_pwrFlag' | with_reducible apply keeps_bump | with_reducible apply keeps_putPwrState c_putPwrState' | with_reducible apply keeps_devFault c_devFault' | with_reducible apply Keeps.foldl (I := I) | with_reducible apply Keeps.foldl₂ (I := I) | with_reducible apply Keeps.ite (I := I) | exact hc.mono (by decide +kernel) | split | intro s _ _ hk | intro s _ hk | intro s hk | with_reducible exact hk

def Touched.bootStep2 : Touch :=
  { regs := [F.SK_STATUS_BURST_FREE_KIB, F.SK_EVENT, F.SKS_SEQ, F.SKS_STATUS_RESIDENT, F.SKS_OVERWRITE,
      F.SEC_STATUS_PUF_OK, F.SEC_STATUS_FLOOR_LOST, F.SEC_STATUS_KEYBLOCK_OK, F.SEC_EVENT, F.SEC_BEAM_FLOOR,
      F.SEC_MATRIX_FLOOR, F.SEC_SAFEPROG_FLOOR, F.SEC_RECIPE_FLOOR, F.SEC_DRAFT_FLOOR, F.SEC_PROG_FLOOR,
      F.UPD_STATUS_CHECK_RESULT, F.UPD_STATUS_ACTIVE_SLOT, F.UPD_STATUS_STATE, F.UPD_EVENT, F.UPD_SLOT_A_FW_SVN,
      F.UPD_SLOT_A_STATE, F.UPD_SLOT_B_FW_SVN, F.UPD_SLOT_B_STATE, F.BUNDLE_VER_A, F.BUNDLE_VER_B,
      F.RST_STAGE_FAIL_CODE, F.RST_STAGE_FAIL_STEP, F.RST_STAGE_STAGE, F.SYS_DEVFAULT, F.MSIX_PBA],
    parts := [.warp, .skein, .tandem, .sec, .host, .freeCtr] }

theorem keeps_bootStep2 (hc : Closed I Touched.bootStep2) {s : State} (hk : Holds I s) (b : BootRec) : Holds I (State.bootStep2 s b).1 := by
  have c_bootAt' : Closed I Touched.bootAt := hc.mono (by decide +kernel)
  have c_bootHalts' : Closed I Touched.bootHalts := hc.mono (by decide +kernel)
  have c_onSec' : Closed I Touched.onSec := hc.mono (by decide +kernel)
  have c_secEvent' : Closed I Touched.secEvent := hc.mono (by decide +kernel)
  have c_bootSelect' : Closed I Touched.bootSelect := hc.mono (by decide +kernel)
  have c_showSlot' : Closed I Touched.showSlot := hc.mono (by decide +kernel)
  have hm : ∀ c, Closed I (floorField c).touch := by intro c; unfold floorField; split <;> exact hc.mono (by decide +kernel)
  unfold State.bootStep2
  try dsimp only
  repeat' first | (guard_target =ₐ Holds I s; exact hk) | simp only [id_eq] | with_reducible apply keeps_bootAt c_bootAt' | with_reducible apply keeps_bootHalts c_bootHalts' | with_reducible apply keeps_wr | with_reducible apply keeps_onSec c_onSec' | with_reducible apply keeps_secEvent c_secEvent' | with_reducible apply keeps_bootSelect c_bootSelect' | with_reducible apply keeps_showSlot c_showSlot' | with_reducible apply Keeps.foldl (I := I) | with_reducible apply Keeps.foldl₂ (I := I) | with_reducible apply Keeps.ite (I := I) | exact hc.mono (by decide +kernel) | exact hm _ | split | intro s _ _ hk | intro s _ hk | intro s hk | with_reducible exact hk

def Touched.bootStep3 : Touch :=
  { regs := [F.SK_STATUS_BURST_FREE_KIB, F.SK_EVENT, F.SKS_SEQ, F.SKS_STATUS_RESIDENT, F.SKS_OVERWRITE,
      F.RST_STAGE_FAIL_CODE, F.RST_STAGE_FAIL_STEP, F.RST_STAGE_STAGE, F.SYS_DEVFAULT],
    parts := [.warp, .skein, .tandem, .freeCtr] }

theorem keeps_bootStep3 (hc : Closed I Touched.bootStep3) {s : State} (hk : Holds I s) (b : BootRec) : Holds I (State.bootStep3 s b).1 := by
  have c_warp : Closed I { parts := [.warp] } := hc.mono (by decide +kernel)
  have c_bootAt' : Closed I Touched.bootAt := hc.mono (by decide +kernel)
  have c_bootHalts' : Closed I Touched.bootHalts := hc.mono (by decide +kernel)
  unfold State.bootStep3
  try dsimp only
  repeat' first | (guard_target =ₐ Holds I s; exact hk) | simp only [ic_mk, id_eq] | with_reducible refine ic_warp c_warp (ic_fold ?_) | with_reducible apply keeps_bootAt c_bootAt' | with_reducible apply keeps_bootHalts c_bootHalts' | with_reducible apply Keeps.foldl (I := I) | with_reducible apply Keeps.foldl₂ (I := I) | with_reducible apply Keeps.ite (I := I) | split | intro s _ _ hk | intro s _ hk | intro s hk | with_reducible exact hk

def Touched.bootStep4 : Touch :=
  { regs := [F.SK_STATUS_BURST_FREE_KIB, F.SK_EVENT, F.SKS_SEQ, F.SKS_STATUS_RESIDENT, F.SKS_OVERWRITE,
      F.RST_STAGE_FAIL_CODE, F.RST_STAGE_FAIL_STEP, F.RST_STAGE_STAGE, F.SYS_DEVFAULT, F.MEM_DRAM_STATUS_RATE,
      F.MEM_DRAM_STATUS_POP_GIB, F.MEM_DRAM_STATUS_TRAINED, F.MEM_DRAM_STATUS_ECC_ON, F.MEM_DRAM_USABLE,
      F.MEM_DRAM_SCRUB],
    parts := [.warp, .skein, .tandem, .freeCtr] }

theorem keeps_bootStep4 (hc : Closed I Touched.bootStep4) {s : State} (hk : Holds I s) (b : BootRec) : Holds I (State.bootStep4 s b).1 := by
  have c_bootAt' : Closed I Touched.bootAt := hc.mono (by decide +kernel)
  have c_bootHalts' : Closed I Touched.bootHalts := hc.mono (by decide +kernel)
  unfold State.bootStep4
  try dsimp only
  repeat' first | (guard_target =ₐ Holds I s; exact hk) | simp only [id_eq] | with_reducible apply keeps_bootAt c_bootAt' | with_reducible apply keeps_wr | with_reducible apply keeps_bootHalts c_bootHalts' | with_reducible apply Keeps.foldl (I := I) | with_reducible apply Keeps.foldl₂ (I := I) | with_reducible apply Keeps.ite (I := I) | exact hc.mono (by decide +kernel) | split | intro s _ _ hk | intro s _ hk | intro s hk | with_reducible exact hk

def Touched.restoreOdometers : Touch :=
  { anyReg := true }

theorem keeps_restoreOdometers (hc : Closed I Touched.restoreOdometers) {s : State} (hk : Holds I s) : Holds I (State.restoreOdometers s) := by
  unfold State.restoreOdometers
  try dsimp only
  repeat' first | (guard_target =ₐ Holds I s; exact hk) | simp only [id_eq] | with_reducible apply Keeps.foldl (I := I) | with_reducible apply Keeps.foldl₂ (I := I) | with_reducible apply Keeps.ite (I := I) | with_reducible refine keeps_putAny hc rfl ?_ _ _ _ | split | intro s _ _ hk | intro s _ hk | intro s hk | with_reducible exact hk

def Touched.bootStep5 : Touch :=
  { anyReg := true, parts := [.boot] }

theorem keeps_bootStep5 (hc : Closed I Touched.bootStep5) {s : State} (hk : Holds I s) (b : BootRec) : Holds I (State.bootStep5 s b).1 := by
  have c_bootAt' : Closed I Touched.bootAt := hc.mono (by decide +kernel)
  have c_onBoot' : Closed I Touched.onBoot := hc.mono (by decide +kernel)
  have c_restoreOdometers' : Closed I Touched.restoreOdometers := hc.mono (by decide +kernel)
  unfold State.bootStep5
  try dsimp only
  repeat' first | (guard_target =ₐ Holds I s; exact hk) | simp only [id_eq] | with_reducible apply keeps_roll | with_reducible apply keeps_bootAt c_bootAt' | with_reducible apply keeps_onBoot c_onBoot' | with_reducible apply keeps_wr | with_reducible apply keeps_wrT | with_reducible apply keeps_restoreOdometers c_restoreOdometers' | with_reducible apply Keeps.foldl (I := I) | with_reducible apply Keeps.foldl₂ (I := I) | with_reducible apply Keeps.ite (I := I) | exact hc.mono (by decide +kernel) | split | intro s _ _ hk | intro s _ hk | intro s hk | with_reducible exact hk

def Touched.bootStep6 : Touch :=
  { anyReg := true, parts := [.warp, .skein, .cells, .fio, .gens, .loom, .tandem, .power, .freeCtr] }

theorem keeps_bootStep6 (hc : Closed I Touched.bootStep6) {s : State} (hk : Holds I s) (b : BootRec) : Holds I (State.bootStep6 s b).1 := by
  have c_beamLoad' : Closed I Touched.beamLoad := hc.mono (by decide +kernel)
  have c_bootAt' : Closed I Touched.bootAt := hc.mono (by decide +kernel)
  have c_bootHalts' : Closed I Touched.bootHalts := hc.mono (by decide +kernel)
  unfold State.bootStep6
  try dsimp only
  repeat' first | (guard_target =ₐ Holds I s; exact hk) | simp only [id_eq] | with_reducible apply keeps_beamLoad c_beamLoad' | with_reducible apply keeps_bootAt c_bootAt' | with_reducible apply keeps_bootHalts c_bootHalts' | with_reducible apply Keeps.foldl (I := I) | with_reducible apply Keeps.foldl₂ (I := I) | with_reducible apply Keeps.ite (I := I) | split | intro s _ _ hk | intro s _ hk | intro s hk | with_reducible exact hk

def Touched.itemFails : Touch :=
  { regs := [F.RST_STAGE_FAIL_CODE, F.RST_STAGE_FAIL_STEP], parts := [.boot, .freeCtr] }

theorem keeps_itemFails (hc : Closed I Touched.itemFails) {s : State} (hk : Holds I s) (p : Nat) (code : Option Nat) : Holds I (State.itemFails s p code) := by
  have c_onBoot' : Closed I Touched.onBoot := hc.mono (by decide +kernel)
  have c_bootFails' : Closed I Touched.bootFails := hc.mono (by decide +kernel)
  unfold State.itemFails
  try dsimp only
  repeat' first | (guard_target =ₐ Holds I s; exact hk) | simp only [id_eq] | with_reducible apply keeps_onBoot c_onBoot' | with_reducible apply keeps_bootFails c_bootFails' | with_reducible apply Keeps.foldl (I := I) | with_reducible apply Keeps.foldl₂ (I := I) | with_reducible apply Keeps.ite (I := I) | split | intro s _ _ hk | intro s _ hk | intro s hk | with_reducible exact hk

def Touched.reloadItems : Touch :=
  { regs := [F.RST_STAGE_FAIL_CODE, F.RST_STAGE_FAIL_STEP], parts := [.boot, .freeCtr] }

theorem keeps_reloadItems (hc : Closed I Touched.reloadItems) {α : Type} {s : State} (hk : Holds I s) (b : BootRec) (kind : Nat) (l : List (Nat × α)) (part : Nat × α → Nat)
    (check : State → Nat × α → Nat) (take : State → Nat × α → State) (ht : ∀ s e, Holds I s → Holds I (take s e)) :
    Holds I (s.reloadItems b kind l part check take) := by
  have c1 : Closed I Touched.itemFails := hc.mono (by decide +kernel)
  refine Keeps.foldl (fun s e hk => ?_) l hk
  split
  · exact keeps_itemFails c1 hk _ _
  · dsimp only
    split
    · exact ht s e hk
    · exact keeps_itemFails c1 hk _ _

def Touched.bootStep7 : Touch :=
  { anyReg := true,
    parts := [.skein, .cells, .fio, .treadles, .gens, .axes, .trig, .loom, .sched, .cyc, .host, .boot, .power, .sram, .dram, .dlm, .freeCtr] }

theorem keeps_bootStep7 (hc : Closed I Touched.bootStep7) {s : State} (hk : Holds I s) (b : BootRec) : Holds I (State.bootStep7 s b).1 := by
  have c_reloadDrafts' : Closed I Touched.reloadDrafts := hc.mono (by decide +kernel)
  have c_bootAt' : Closed I Touched.bootAt := hc.mono (by decide +kernel)
  have c_replayJournals' : Closed I Touched.replayJournals := hc.mono (by decide +kernel)
  have c_itemFails' : Closed I Touched.itemFails := hc.mono (by decide +kernel)
  have c_reloadItems' : Closed I Touched.reloadItems := hc.mono (by decide +kernel)
  have c_takeProgram' : Closed I Touched.takeProgram := hc.mono (by decide +kernel)
  have c_takeTable' : Closed I Touched.takeTable := hc.mono (by decide +kernel)
  have c_takeSegs' : Closed I Touched.takeSegs := hc.mono (by decide +kernel)
  have c_takeEnvelope' : Closed I Touched.takeEnvelope := hc.mono (by decide +kernel)
  unfold State.bootStep7
  try dsimp only
  repeat' first | (guard_target =ₐ Holds I s; exact hk) | simp only [id_eq] | with_reducible apply keeps_reloadDrafts c_reloadDrafts' | with_reducible apply keeps_bootAt c_bootAt' | with_reducible apply keeps_replayJournals c_replayJournals' | with_reducible apply keeps_itemFails c_itemFails' | with_reducible apply keeps_reloadItems c_reloadItems' | with_reducible apply keeps_takeProgram c_takeProgram' | with_reducible apply keeps_takeTable c_takeTable' | with_reducible apply keeps_takeSegs c_takeSegs' | with_reducible apply keeps_takeEnvelope c_takeEnvelope' | with_reducible apply Keeps.foldl (I := I) | with_reducible apply Keeps.foldl₂ (I := I) | with_reducible apply Keeps.ite (I := I) | split | intro s _ _ hk | intro s _ hk | intro s hk | with_reducible exact hk

def Touched.bootStep8 : Touch :=
  { regs := [F.SK_STATUS_BURST_FREE_KIB, F.SK_EVENT, F.SKS_SEQ, F.SKS_STATUS_RESIDENT, F.SKS_OVERWRITE,
      F.SAF_STATUS_START_WAIT, F.SAF_STATUS_MATRIX_FAULT, F.SAF_STATUS_PROG_OK, F.SAF_STATUS_MATRIX_OK,
      F.SAF_STATUS_START_BLOCKED, F.SAF_STATUS_OVC_ARMED, F.SAF_STATUS_PHASE, F.SAF_PHASE_T, F.SAF_OVC_REMAIN_S,
      F.SAF_OVC_WINDOW_S, F.SAF_SIN, F.SAF_SIN_FAULT, F.SAF_SOUT_MATRIX, F.SAF_SOUT_PERMIT,
      F.SAF_SOUT_STATE_ENERGISED, F.SAF_TERMS, F.SAF_MATRIX_VER, F.SAF_MATRIX_CRC, F.SAF_PROG_VER, F.SAF_CYCLE,
      F.SIN_CFG_FAULT_CAUSE, F.SIN_CFG_TEST, F.SIN_CFG_MODE, F.SIN_CFG_DISC_MS, F.SOUT_CFG_TPW_US, F.SOUT_CFG_TEST,
      F.SOUT_CFG_USED, F.SOUT_CFG_NB, F.WC_CONN, F.WC_STATUS_ROLE, F.WC_STATUS_STATE, F.WC_EXP_DEADLINE_MS,
      F.PWR_STATUS_WAKE_PEND, F.PWR_STATUS_PHASE, F.PWR_WAKE_SRC, F.PWR_WAKE_MERGED, F.RST_STAGE_FAIL_CODE,
      F.RST_STAGE_FAIL_STEP, F.RST_STAGE_STAGE, F.SYS_FAULT, F.SYS_FAULT_LAST, F.SYS_FAULT_T, F.SYS_DEVFAULT,
      F.MSIX_PBA],
    parts := [.warp, .skein, .conv, .island, .tandem, .host, .power, .freeCtr] }

theorem keeps_bootStep8 (hc : Closed I Touched.bootStep8) {s : State} (hk : Holds I s) (b : BootRec) : Holds I (State.bootStep8 s b).1 := by
  have c_conv : Closed I { parts := [.conv] } := hc.mono (by decide +kernel)
  have c_loadMatrix' : Closed I Touched.loadMatrix := hc.mono (by decide +kernel)
  have c_bootAt' : Closed I Touched.bootAt := hc.mono (by decide +kernel)
  have c_onIsland' : Closed I Touched.onIsland := hc.mono (by decide +kernel)
  have c_bootFails' : Closed I Touched.bootFails := hc.mono (by decide +kernel)
  have c_toStart' : Closed I Touched.toStart := hc.mono (by decide +kernel)
  have c_startProgram' : Closed I Touched.startProgram := hc.mono (by decide +kernel)
  unfold State.bootStep8
  try dsimp only
  repeat' first | (guard_target =ₐ Holds I s; exact hk) | simp only [ic_mk, id_eq] | with_reducible refine ic_conv c_conv (ic_fold ?_) | with_reducible apply keeps_loadMatrix c_loadMatrix' | with_reducible apply keeps_bootAt c_bootAt' | with_reducible apply keeps_onIsland c_onIsland' | with_reducible apply keeps_bootFails c_bootFails' | with_reducible apply keeps_toStart c_toStart' | with_reducible apply keeps_startProgram c_startProgram' | with_reducible apply Keeps.foldl (I := I) | with_reducible apply Keeps.foldl₂ (I := I) | with_reducible apply Keeps.ite (I := I) | split | intro s _ _ hk | intro s _ hk | intro s hk | with_reducible exact hk

def Touched.bootStep9 : Touch :=
  { regs := [F.WARP_STATUS_EPOCH, F.WARP_EVENT_SYNC_LATE, F.WARP_EVENT_STEP_DONE, F.SYNC_OUT_CFG_ARM,
      F.SK_STATUS_BURST_FREE_KIB, F.SK_EVENT, F.SKS_SEQ, F.SKS_STATUS_RESIDENT, F.SKS_OVERWRITE,
      F.RING_STATUS_BROKEN, F.RING_STATUS_BYPASSED, F.RING_STATUS_STATE, F.RING_EVENT, F.RING_BREAK_CNT_SEL_CNT,
      F.RS_ST_STATUS_REVERSE_FED, F.TD_WITNESS, F.SEC_RING_KEYS_KEYED, F.RST_STAGE_STAGE],
    parts := [.warp, .skein, .fio, .tandem, .boot, .rings] }

theorem keeps_bootStep9 (hc : Closed I Touched.bootStep9) {s : State} (hk : Holds I s) (b : BootRec) : Holds I (State.bootStep9 s b).1 := by
  have c_bootAt' : Closed I Touched.bootAt := hc.mono (by decide +kernel)
  have c_syncRing' : Closed I Touched.syncRing := hc.mono (by decide +kernel)
  have c_bootRing' : Closed I Touched.bootRing := hc.mono (by decide +kernel)
  have c_stepWarp' : Closed I Touched.stepWarp := hc.mono (by decide +kernel)
  have c_onBoot' : Closed I Touched.onBoot := hc.mono (by decide +kernel)
  unfold State.bootStep9
  try dsimp only
  repeat' first | (guard_target =ₐ Holds I s; exact hk) | simp only [id_eq] | with_reducible apply keeps_bootAt c_bootAt' | with_reducible apply keeps_each | with_reducible apply keeps_syncRing c_syncRing' | with_reducible apply keeps_bootRing c_bootRing' | with_reducible apply keeps_stepWarp c_stepWarp' | with_reducible apply keeps_onBoot c_onBoot' | with_reducible apply Keeps.foldl (I := I) | with_reducible apply Keeps.foldl₂ (I := I) | with_reducible apply Keeps.ite (I := I) | split | intro s _ _ hk | intro s _ hk | intro s hk | with_reducible exact hk

def Touched.resumeVars : Touch :=
  { parts := [.sram, .dram, .dlm] }

theorem keeps_resumeVars (hc : Closed I Touched.resumeVars) {s : State} (hk : Holds I s) (c : Checkpoint) (x : CkptPart) : Holds I (State.resumeVars s c x) := by
  have c_partStore' : Closed I Touched.partStore := hc.mono (by decide +kernel)
  unfold State.resumeVars
  try dsimp only
  repeat' first | (guard_target =ₐ Holds I s; exact hk) | simp only [id_eq] | with_reducible apply keeps_partStore c_partStore' | with_reducible apply Keeps.foldl (I := I) | with_reducible apply Keeps.foldl₂ (I := I) | with_reducible apply Keeps.ite (I := I) | split | intro s _ _ hk | intro s _ hk | intro s hk | with_reducible exact hk

def Touched.resumePart : Touch :=
  { anyReg := true,
    parts := [.skein, .cells, .fio, .treadles, .gens, .axes, .trig, .loom, .sched, .cyc, .host, .boot, .power, .sram, .dram, .dlm, .freeCtr] }

theorem keeps_resumePart (hc : Closed I Touched.resumePart) {s : State} (hk : Holds I s) (c : Checkpoint) (x : CkptPart) : Holds I (State.resumePart s c x) := by
  have c_resumeVars' : Closed I Touched.resumeVars := hc.mono (by decide +kernel)
  have c_restoreAxis' : Closed I Touched.restoreAxis := hc.mono (by decide +kernel)
  have c_restoreCell' : Closed I Touched.restoreCell := hc.mono (by decide +kernel)
  have c_restoreGen' : Closed I Touched.restoreGen := hc.mono (by decide +kernel)
  have c_restoreTreadle' : Closed I Touched.restoreTreadle := hc.mono (by decide +kernel)
  have c_restoreRejoin' : Closed I Touched.restoreRejoin := hc.mono (by decide +kernel)
  have c_onBoot' : Closed I Touched.onBoot := hc.mono (by decide +kernel)
  have c_cpEvent' : Closed I Touched.cpEvent := hc.mono (by decide +kernel)
  have c_enterRun' : Closed I Touched.enterRun := hc.mono (by decide +kernel)
  unfold State.resumePart
  try dsimp only
  repeat' first | (guard_target =ₐ Holds I s; exact hk) | simp only [id_eq] | with_reducible apply keeps_resumeVars c_resumeVars' | with_reducible apply keeps_restoreAxis c_restoreAxis' | with_reducible apply keeps_restoreCell c_restoreCell' | with_reducible apply keeps_restoreGen c_restoreGen' | with_reducible apply keeps_restoreTreadle c_restoreTreadle' | with_reducible apply keeps_restoreRejoin c_restoreRejoin' | with_reducible apply keeps_onBoot c_onBoot' | with_reducible apply keeps_cpEvent c_cpEvent' | with_reducible apply keeps_enterRun c_enterRun' | with_reducible apply Keeps.foldl (I := I) | with_reducible apply Keeps.foldl₂ (I := I) | with_reducible apply Keeps.ite (I := I) | split | intro s _ _ hk | intro s _ hk | intro s hk | with_reducible exact hk

def Touched.decideResume : Touch :=
  { anyReg := true,
    parts := [.skein, .cells, .fio, .treadles, .gens, .axes, .trig, .loom, .sched, .cyc, .host, .boot, .power, .sram, .dram, .dlm, .freeCtr] }

theorem keeps_decideResume (hc : Closed I Touched.decideResume) {s : State} (hk : Holds I s) (p : Nat) : Holds I (State.decideResume s p) := by
  have c_draw' : Closed I Touches.draw := hc.mono (by decide +kernel)
  have c_resumePart' : Closed I Touched.resumePart := hc.mono (by decide +kernel)
  unfold State.decideResume
  try dsimp only
  repeat' first | (guard_target =ₐ Holds I s; exact hk) | simp only [id_eq] | with_reducible apply keeps_wr | with_reducible apply keeps_draw c_draw' | with_reducible apply keeps_resumePart c_resumePart' | with_reducible apply Keeps.foldl (I := I) | with_reducible apply Keeps.foldl₂ (I := I) | with_reducible apply Keeps.ite (I := I) | exact hc.mono (by decide +kernel) | split | intro s _ _ hk | intro s _ hk | intro s hk | with_reducible exact hk

def Touched.restartStream : Touch :=
  { regs := [F.SK_STATUS_BURST_FREE_KIB, F.SK_EVENT, F.SKS_SEQ, F.SKS_STATUS_RESIDENT, F.SKS_OVERWRITE],
    parts := [.skein, .freeCtr] }

theorem keeps_restartStream (hc : Closed I Touched.restartStream) {s : State} (hk : Holds I s) (k : Nat) : Holds I (State.restartStream s k) := by
  have c_draw' : Closed I Touches.draw := hc.mono (by decide +kernel)
  have c_putStream' : Closed I Touched.putStream := hc.mono (by decide +kernel)
  have c_tapCfg' : Closed I Touched.tapCfg := hc.mono (by decide +kernel)
  have c_record' : Closed I Touched.record := hc.mono (by decide +kernel)
  have c_putRec' : Closed I Touched.putRec := hc.mono (by decide +kernel)
  unfold State.restartStream
  try dsimp only
  repeat' first | (guard_target =ₐ Holds I s; exact hk) | simp only [id_eq] | with_reducible apply keeps_draw c_draw' | with_reducible apply keeps_putStream c_putStream' | with_reducible apply keeps_tapCfg c_tapCfg' | with_reducible apply keeps_record c_record' | with_reducible apply keeps_putRec c_putRec' | with_reducible apply Keeps.foldl (I := I) | with_reducible apply Keeps.foldl₂ (I := I) | with_reducible apply Keeps.ite (I := I) | split | intro s _ _ hk | intro s _ hk | intro s hk | with_reducible exact hk

def Touched.andThen : Touch :=
  {}

theorem keeps_andThen (hc : Closed I Touched.andThen) {x : State × Bool} (hk : Holds I x.1) (f : State → State × Bool) (hf : ∀ s, Holds I s → Holds I (f s).1) :
    Holds I (andThen x f).1 := by
  unfold andThen
  split
  · exact hf _ hk
  · exact hk

end Sys2Proof.Machine
end

