-- ==== Sys2Proof/Laws/Keeps/Reset.lean ====
section
/-! SUPPORT.  What the operations of Machine/Reset.lean touch, and that they keep every property
closed under it. -/

namespace Sys2Proof.Machine

open Sys2Proof

set_option Elab.async false
set_option linter.unusedSimpArgs false
set_option linter.unusedVariables false
set_option linter.unusedTactic false
set_option linter.unreachableTactic false

variable {I : State → Prop}

def Touched.reconfigure : Touch :=
  { anyReg := true, parts := [.cells, .fio, .gens, .loom] }

theorem keeps_reconfigure (hc : Closed I Touched.reconfigure) {s : State} (hk : Holds I s) (key : Nat) : Holds I (State.reconfigure s key) := by
  have c_takeLoaded' : Closed I Touched.takeLoaded := hc.mono (by decide +kernel)
  have c_putCs' : Closed I Touched.putCs := hc.mono (by decide +kernel)
  unfold State.reconfigure
  try dsimp only
  repeat' first | (guard_target =ₐ Holds I s; exact hk) | simp only [id_eq] | with_reducible apply keeps_takeLoaded c_takeLoaded' | with_reducible apply keeps_putCs c_putCs' | with_reducible apply Keeps.foldl (I := I) | with_reducible apply Keeps.foldl₂ (I := I) | with_reducible apply Keeps.ite (I := I) | split | intro s _ _ hk | intro s _ hk | intro s hk | with_reducible exact hk

def Touched.released : Touch :=
  { parts := [.warp, .boot] }

theorem keeps_released (hc : Closed I Touched.released) {s : State} (hk : Holds I s) : Holds I (State.released s) := by
  have c_warp : Closed I { parts := [.warp] } := hc.mono (by decide +kernel)
  have c_onBoot' : Closed I Touched.onBoot := hc.mono (by decide +kernel)
  unfold State.released
  try dsimp only
  repeat' first | (guard_target =ₐ Holds I s; exact hk) | simp only [ic_mk, id_eq] | with_reducible refine ic_warp c_warp (ic_fold ?_) | with_reducible apply keeps_onBoot c_onBoot' | with_reducible apply Keeps.foldl (I := I) | with_reducible apply Keeps.foldl₂ (I := I) | with_reducible apply Keeps.ite (I := I) | split | intro s _ _ hk | intro s _ hk | intro s hk | with_reducible exact hk

def Touched.resetCell : Touch :=
  { regs := [F.LC_CTRL_ENABLE, F.LC_STATUS_EVT_ARMED, F.LC_STATUS_RUNNING, F.LC_SUP_STATUS_FAULT_CAUSE,
      F.LC_SUP_STATUS_SUP_STATE, F.ODO_OUT, F.ODO_OUT_SAT, F.PWR_STATUS_LOOM_ON, F.PWR_STATUS_PHASE,
      F.PWR_STATUS_TARGET, F.PWR_STATUS_STATE, F.PWR_RES, F.PWR_ENTRIES],
    parts := [.cells, .fio, .aout, .loom, .power, .rings] }

theorem keeps_resetCell (hc : Closed I Touched.resetCell) {s : State} (hk : Holds I s) (n : Nat) : Holds I (State.resetCell s n) := by
  have c_driveCell' : Closed I Touched.driveCell := hc.mono (by decide +kernel)
  have c_haltCell' : Closed I Touched.haltCell := hc.mono (by decide +kernel)
  have c_putCell' : Closed I Touched.putCell := hc.mono (by decide +kernel)
  have c_settle' : Closed I Touched.settle := hc.mono (by decide +kernel)
  unfold State.resetCell
  try dsimp only
  repeat' first | (guard_target =ₐ Holds I s; exact hk) | simp only [id_eq] | with_reducible apply keeps_driveCell c_driveCell' | with_reducible apply keeps_haltCell c_haltCell' | with_reducible apply keeps_putCell c_putCell' | with_reducible apply keeps_wr | with_reducible apply keeps_settle c_settle' | with_reducible apply Keeps.foldl (I := I) | with_reducible apply Keeps.foldl₂ (I := I) | with_reducible apply Keeps.ite (I := I) | exact hc.mono (by decide +kernel) | split | intro s _ _ hk | intro s _ hk | intro s hk | with_reducible exact hk

def Touched.resetPartition : Touch :=
  { anyReg := true,
    parts := [.skein, .cells, .fio, .aout, .treadles, .gens, .axes, .trig, .loom, .sched, .cyc, .host, .boot, .power, .rings, .sram, .dram, .dlm, .freeCtr] }

theorem keeps_resetPartition (hc : Closed I Touched.resetPartition) {s : State} (hk : Holds I s) (p : Nat) : Holds I (State.resetPartition s p) := by
  have c_resetCell' : Closed I Touched.resetCell := hc.mono (by decide +kernel)
  have c_resetAxes' : Closed I Touched.resetAxes := hc.mono (by decide +kernel)
  have c_resetTreadle' : Closed I Touched.resetTreadle := hc.mono (by decide +kernel)
  have c_safeOutputs' : Closed I Touched.safeOutputs := hc.mono (by decide +kernel)
  have c_enterStop' : Closed I Touched.enterStop := hc.mono (by decide +kernel)
  have c_resetTrig' : Closed I Touched.resetTrig := hc.mono (by decide +kernel)
  have c_resetTasks' : Closed I Touched.resetTasks := hc.mono (by decide +kernel)
  have c_resetApply' : Closed I Touched.resetApply := hc.mono (by decide +kernel)
  have c_stopGen' : Closed I Touched.stopGen := hc.mono (by decide +kernel)
  have c_onBoot' : Closed I Touched.onBoot := hc.mono (by decide +kernel)
  have c_reconfigure' : Closed I Touched.reconfigure := hc.mono (by decide +kernel)
  have c_runChange' : Closed I Touched.runChange := hc.mono (by decide +kernel)
  have c_settle' : Closed I Touched.settle := hc.mono (by decide +kernel)
  unfold State.resetPartition
  try dsimp only
  repeat' first | (guard_target =ₐ Holds I s; exact hk) | simp only [id_eq] | with_reducible apply keeps_each | with_reducible apply keeps_resetCell c_resetCell' | with_reducible apply keeps_resetAxes c_resetAxes' | with_reducible apply keeps_resetTreadle c_resetTreadle' | with_reducible apply keeps_wr | with_reducible apply keeps_safeOutputs c_safeOutputs' | with_reducible apply keeps_enterStop c_enterStop' | with_reducible apply keeps_resetTrig c_resetTrig' | with_reducible apply keeps_resetTasks c_resetTasks' | with_reducible apply keeps_resetApply c_resetApply' | with_reducible apply keeps_stopGen c_stopGen' | with_reducible apply keeps_onBoot c_onBoot' | with_reducible apply keeps_reconfigure c_reconfigure' | with_reducible apply keeps_runChange c_runChange' | with_reducible apply keeps_settle c_settle' | with_reducible apply Keeps.foldl (I := I) | with_reducible apply Keeps.foldl₂ (I := I) | with_reducible apply Keeps.ite (I := I) | exact hc.mono (by decide +kernel) | split | intro s _ _ hk | intro s _ hk | intro s hk | with_reducible exact hk

theorem keeps_execDeviceReset (hc : Closed I Touches.deviceReset) {s : State} (hk : Holds I s) (t : Instant) (value : Word) : ∃ u, execDeviceReset t value s = .next u ∧ Holds I u := by
  have c_hostWrite' : Closed I Touched.hostWrite := hc.mono (by decide +kernel)
  have c_advance' : Closed I Touched.advance := hc.mono (by decide +kernel)
  have c_beginReset' : Closed I Touched.beginReset := hc.mono (by decide +kernel)
  refine ⟨_, rfl, ?_⟩
  try dsimp only
  repeat' first | (guard_target =ₐ Holds I s; exact hk) | simp only [id_eq] | with_reducible apply keeps_hostWrite c_hostWrite' | with_reducible apply keeps_advance c_advance' | with_reducible apply keeps_beginReset c_beginReset' | with_reducible apply Keeps.foldl (I := I) | with_reducible apply Keeps.foldl₂ (I := I) | with_reducible apply Keeps.ite (I := I) | split | intro s _ _ hk | intro s _ hk | intro s hk | with_reducible exact hk

theorem keeps_execPartitionReset (hc : Closed I Touches.partitionReset) {s : State} (hk : Holds I s) (t : Instant) (p : Fin 16) (value : Word) : ∃ u, execPartitionReset t p value s = .next u ∧ Holds I u := by
  have c_hostWrite' : Closed I Touched.hostWrite := hc.mono (by decide +kernel)
  have c_advance' : Closed I Touched.advance := hc.mono (by decide +kernel)
  have c_resetPartition' : Closed I Touched.resetPartition := hc.mono (by decide +kernel)
  refine ⟨_, rfl, ?_⟩
  try dsimp only
  repeat' first | (guard_target =ₐ Holds I s; exact hk) | simp only [id_eq] | with_reducible apply keeps_hostWrite c_hostWrite' | with_reducible apply keeps_advance c_advance' | with_reducible apply keeps_wr | with_reducible apply keeps_resetPartition c_resetPartition' | with_reducible apply Keeps.foldl (I := I) | with_reducible apply Keeps.foldl₂ (I := I) | with_reducible apply Keeps.ite (I := I) | exact hc.mono (by decide +kernel) | split | intro s _ _ hk | intro s _ hk | intro s hk | with_reducible exact hk

theorem keeps_execPowerGoodChange (hc : Closed I Touches.powerGoodChange) {s : State} (hk : Holds I s) (t : Instant) (good : Bool) (lost : Bool) : ∃ u, execPowerGoodChange t good lost s = .next u ∧ Holds I u := by
  have c_advance' : Closed I Touched.advance := hc.mono (by decide +kernel)
  have c_beginReset' : Closed I Touched.beginReset := hc.mono (by decide +kernel)
  have c_onBoot' : Closed I Touched.onBoot := hc.mono (by decide +kernel)
  refine ⟨_, rfl, ?_⟩
  try dsimp only
  repeat' first | (guard_target =ₐ Holds I s; exact hk) | simp only [id_eq] | with_reducible apply keeps_advance c_advance' | with_reducible apply keeps_beginReset c_beginReset' | with_reducible apply keeps_onBoot c_onBoot' | with_reducible apply Keeps.foldl (I := I) | with_reducible apply Keeps.foldl₂ (I := I) | with_reducible apply Keeps.ite (I := I) | split | intro s _ _ hk | intro s _ hk | intro s hk | with_reducible exact hk

theorem keeps_execPrDone (hc : Closed I Touches.prDone) {s : State} (hk : Holds I s) (t : Instant) (p : Fin 16) : ∃ u, execPrDone t p s = .next u ∧ Holds I u := by
  have c_advance' : Closed I Touched.advance := hc.mono (by decide +kernel)
  have c_onBoot' : Closed I Touched.onBoot := hc.mono (by decide +kernel)
  refine ⟨_, rfl, ?_⟩
  try dsimp only
  repeat' first | (guard_target =ₐ Holds I s; exact hk) | simp only [id_eq] | with_reducible apply keeps_advance c_advance' | with_reducible apply keeps_onBoot c_onBoot' | with_reducible apply keeps_wr | with_reducible apply Keeps.foldl (I := I) | with_reducible apply Keeps.foldl₂ (I := I) | with_reducible apply Keeps.ite (I := I) | exact hc.mono (by decide +kernel) | split | intro s _ _ hk | intro s _ hk | intro s hk | with_reducible exact hk

theorem keeps_execResetPin (hc : Closed I Touches.resetPin) {s : State} (hk : Holds I s) (t : Instant) (lowNs : Nat) (takes : Bool) : ∃ u, execResetPin t lowNs takes s = .next u ∧ Holds I u := by
  have c_advance' : Closed I Touched.advance := hc.mono (by decide +kernel)
  have c_beginReset' : Closed I Touched.beginReset := hc.mono (by decide +kernel)
  refine ⟨_, rfl, ?_⟩
  try dsimp only
  repeat' first | (guard_target =ₐ Holds I s; exact hk) | simp only [id_eq] | with_reducible apply keeps_advance c_advance' | with_reducible apply keeps_beginReset c_beginReset' | with_reducible apply Keeps.foldl (I := I) | with_reducible apply Keeps.foldl₂ (I := I) | with_reducible apply Keeps.ite (I := I) | split | intro s _ _ hk | intro s _ hk | intro s hk | with_reducible exact hk

theorem keeps_execResetRelease (hc : Closed I Touches.resetRelease) {s : State} (hk : Holds I s) (t : Instant) (b : BootRec) : ∃ u, execResetRelease t b s = .next u ∧ Holds I u := by
  have c_advance' : Closed I Touched.advance := hc.mono (by decide +kernel)
  have c_andThen' : Closed I Touched.andThen := hc.mono (by decide +kernel)
  have c_bootStep1' : Closed I Touched.bootStep1 := hc.mono (by decide +kernel)
  have c_released' : Closed I Touched.released := hc.mono (by decide +kernel)
  have c_bootStep2' : Closed I Touched.bootStep2 := hc.mono (by decide +kernel)
  have c_bootStep3' : Closed I Touched.bootStep3 := hc.mono (by decide +kernel)
  have c_bootStep4' : Closed I Touched.bootStep4 := hc.mono (by decide +kernel)
  have c_bootStep5' : Closed I Touched.bootStep5 := hc.mono (by decide +kernel)
  have c_bootStep6' : Closed I Touched.bootStep6 := hc.mono (by decide +kernel)
  have c_bootStep7' : Closed I Touched.bootStep7 := hc.mono (by decide +kernel)
  have c_bootStep8' : Closed I Touched.bootStep8 := hc.mono (by decide +kernel)
  have c_bootStep9' : Closed I Touched.bootStep9 := hc.mono (by decide +kernel)
  refine ⟨_, rfl, ?_⟩
  try dsimp only
  repeat' first | (guard_target =ₐ Holds I s; exact hk) | simp only [id_eq] | with_reducible apply keeps_advance c_advance' | with_reducible apply keeps_andThen c_andThen' | with_reducible apply keeps_bootStep1 c_bootStep1' | with_reducible apply keeps_released c_released' | with_reducible apply keeps_bootStep2 c_bootStep2' | with_reducible apply keeps_bootStep3 c_bootStep3' | with_reducible apply keeps_bootStep4 c_bootStep4' | with_reducible apply keeps_bootStep5 c_bootStep5' | with_reducible apply keeps_bootStep6 c_bootStep6' | with_reducible apply keeps_bootStep7 c_bootStep7' | with_reducible apply keeps_bootStep8 c_bootStep8' | with_reducible apply keeps_bootStep9 c_bootStep9' | with_reducible apply Keeps.foldl (I := I) | with_reducible apply Keeps.foldl₂ (I := I) | with_reducible apply Keeps.ite (I := I) | split | intro s _ _ hk | intro s _ hk | intro s hk | with_reducible exact hk

theorem keeps_execResumeInstant (hc : Closed I Touches.resumeInstant) {s : State} (hk : Holds I s) (t : Instant) : ∃ u, execResumeInstant t s = .next u ∧ Holds I u := by
  have c_advance' : Closed I Touched.advance := hc.mono (by decide +kernel)
  have c_bootFails' : Closed I Touched.bootFails := hc.mono (by decide +kernel)
  have c_onBoot' : Closed I Touched.onBoot := hc.mono (by decide +kernel)
  have c_restartStream' : Closed I Touched.restartStream := hc.mono (by decide +kernel)
  have c_decideResume' : Closed I Touched.decideResume := hc.mono (by decide +kernel)
  have c_bootAt' : Closed I Touched.bootAt := hc.mono (by decide +kernel)
  have c_runChange' : Closed I Touched.runChange := hc.mono (by decide +kernel)
  have c_settle' : Closed I Touched.settle := hc.mono (by decide +kernel)
  refine ⟨_, rfl, ?_⟩
  try dsimp only
  repeat' first | (guard_target =ₐ Holds I s; exact hk) | simp only [id_eq] | with_reducible apply keeps_advance c_advance' | with_reducible apply keeps_bootFails c_bootFails' | with_reducible apply keeps_wr | with_reducible apply keeps_onBoot c_onBoot' | with_reducible apply keeps_each | with_reducible apply keeps_restartStream c_restartStream' | with_reducible apply keeps_decideResume c_decideResume' | with_reducible apply keeps_bootAt c_bootAt' | with_reducible apply keeps_runChange c_runChange' | with_reducible apply keeps_settle c_settle' | with_reducible apply Keeps.foldl (I := I) | with_reducible apply Keeps.foldl₂ (I := I) | with_reducible apply Keeps.ite (I := I) | exact hc.mono (by decide +kernel) | split | intro s _ _ hk | intro s _ hk | intro s hk | with_reducible exact hk

theorem keeps_execWarmCheckpoint (hc : Closed I Touches.warmCheckpoint) {s : State} (hk : Holds I s) (t : Instant) (completed : Bool) : ∃ u, execWarmCheckpoint t completed s = .next u ∧ Holds I u := by
  have c_advance' : Closed I Touched.advance := hc.mono (by decide +kernel)
  have c_onBoot' : Closed I Touched.onBoot := hc.mono (by decide +kernel)
  refine ⟨_, rfl, ?_⟩
  try dsimp only
  repeat' first | (guard_target =ₐ Holds I s; exact hk) | simp only [id_eq] | with_reducible apply keeps_advance c_advance' | with_reducible apply keeps_onBoot c_onBoot' | with_reducible apply keeps_wrT | with_reducible apply keeps_wr | with_reducible apply Keeps.foldl (I := I) | with_reducible apply Keeps.foldl₂ (I := I) | with_reducible apply Keeps.ite (I := I) | exact hc.mono (by decide +kernel) | split | intro s _ _ hk | intro s _ hk | intro s hk | with_reducible exact hk

theorem keeps_execWatchdog (hc : Closed I Touches.watchdog) {s : State} (hk : Holds I s) (t : Instant) : ∃ u, execWatchdog t s = .next u ∧ Holds I u := by
  have c_advance' : Closed I Touched.advance := hc.mono (by decide +kernel)
  have c_beginReset' : Closed I Touched.beginReset := hc.mono (by decide +kernel)
  refine ⟨_, rfl, ?_⟩
  try dsimp only
  repeat' first | (guard_target =ₐ Holds I s; exact hk) | simp only [id_eq] | with_reducible apply keeps_advance c_advance' | with_reducible apply keeps_beginReset c_beginReset' | with_reducible apply Keeps.foldl (I := I) | with_reducible apply Keeps.foldl₂ (I := I) | with_reducible apply Keeps.ite (I := I) | split | intro s _ _ hk | intro s _ hk | intro s hk | with_reducible exact hk

end Sys2Proof.Machine
end

