-- ==== Sys2Proof/Laws/Keeps/TandemOps.lean ====
section
/-! SUPPORT.  What the operations of Machine/TandemOps.lean touch, and that they keep every property
closed under it. -/

namespace Sys2Proof.Machine

open Sys2Proof

set_option Elab.async false
set_option linter.unusedSimpArgs false
set_option linter.unusedVariables false
set_option linter.unusedTactic false
set_option linter.unreachableTactic false

variable {I : State → Prop}

def Touched.ringListener : Touch :=
  { regs := [F.RING_CTRL_ROLE, F.RING_STATUS_STATE], parts := [.tandem, .rings] }

theorem keeps_ringListener (hc : Closed I Touched.ringListener) {s : State} (hk : Holds I s) (r : Nat) : Holds I (State.ringListener s r) := by
  have c_putRing' : Closed I Touched.putRing := hc.mono (by decide +kernel)
  have c_putPair' : Closed I Touched.putPair := hc.mono (by decide +kernel)
  unfold State.ringListener
  try dsimp only
  repeat' first | (guard_target =ₐ Holds I s; exact hk) | simp only [id_eq] | with_reducible apply keeps_wr | with_reducible apply keeps_putRing c_putRing' | with_reducible apply keeps_putPair c_putPair' | with_reducible apply Keeps.foldl (I := I) | with_reducible apply Keeps.foldl₂ (I := I) | with_reducible apply Keeps.ite (I := I) | exact hc.mono (by decide +kernel) | split | intro s _ _ hk | intro s _ hk | intro s hk | with_reducible exact hk

def Touched.ringMaster : Touch :=
  { regs := [F.RING_CTRL_ROLE, F.RING_STATUS_STATE], parts := [.rings] }

theorem keeps_ringMaster (hc : Closed I Touched.ringMaster) {s : State} (hk : Holds I s) (r : Nat) : Holds I (State.ringMaster s r) := by
  have c_putRing' : Closed I Touched.putRing := hc.mono (by decide +kernel)
  unfold State.ringMaster
  try dsimp only
  repeat' first | (guard_target =ₐ Holds I s; exact hk) | simp only [id_eq] | with_reducible apply keeps_wr | with_reducible apply keeps_putRing c_putRing' | with_reducible apply Keeps.foldl (I := I) | with_reducible apply Keeps.foldl₂ (I := I) | with_reducible apply Keeps.ite (I := I) | exact hc.mono (by decide +kernel) | split | intro s _ _ hk | intro s _ hk | intro s hk | with_reducible exact hk

def Touched.ringRoles : Touch :=
  { regs := [F.RING_CTRL_ROLE, F.RING_STATUS_STATE], parts := [.tandem, .rings] }

theorem keeps_ringRoles (hc : Closed I Touched.ringRoles) {s : State} (hk : Holds I s) : Holds I (State.ringRoles s) := by
  have c_ringListener' : Closed I Touched.ringListener := hc.mono (by decide +kernel)
  have c_ringMaster' : Closed I Touched.ringMaster := hc.mono (by decide +kernel)
  unfold State.ringRoles
  try dsimp only
  repeat' first | (guard_target =ₐ Holds I s; exact hk) | simp only [id_eq] | with_reducible apply keeps_each | with_reducible apply keeps_ringListener c_ringListener' | with_reducible apply keeps_ringMaster c_ringMaster' | with_reducible apply Keeps.foldl (I := I) | with_reducible apply Keeps.foldl₂ (I := I) | with_reducible apply Keeps.ite (I := I) | split | intro s _ _ hk | intro s _ hk | intro s hk | with_reducible exact hk

def Touched.putRole : Touch :=
  { regs := [F.SK_STATUS_BURST_FREE_KIB, F.SK_EVENT, F.SKS_SEQ, F.SKS_STATUS_RESIDENT, F.SKS_OVERWRITE, F.RING_CTRL_ROLE,
      F.RING_STATUS_STATE, F.TD_STATUS_ROLE, F.TD_EVENT, F.PWR_STATUS_WAKE_PEND, F.PWR_STATUS_PHASE,
      F.PWR_WAKE_SRC, F.PWR_WAKE_MERGED, F.MSIX_PBA],
    parts := [.skein, .tandem, .host, .power, .rings, .freeCtr] }

theorem keeps_putRole (hc : Closed I Touched.putRole) {s : State} (hk : Holds I s) (role : Nat) (bit : Option Nat) : Holds I (State.putRole s role bit) := by
  have c_internalWake' : Closed I Touched.internalWake := hc.mono (by decide +kernel)
  have c_ringRoles' : Closed I Touched.ringRoles := hc.mono (by decide +kernel)
  have c_tdNote' : Closed I Touched.tdNote := hc.mono (by decide +kernel)
  have c_tdRecord' : Closed I Touched.tdRecord := hc.mono (by decide +kernel)
  have c_draw' : Closed I Touches.draw := hc.mono (by decide +kernel)
  unfold State.putRole
  try dsimp only
  repeat' first | (guard_target =ₐ Holds I s; exact hk) | simp only [id_eq] | with_reducible apply keeps_internalWake c_internalWake' | with_reducible apply keeps_ringRoles c_ringRoles' | with_reducible apply keeps_wr | with_reducible apply keeps_tdNote c_tdNote' | with_reducible apply keeps_tdRecord c_tdRecord' | with_reducible apply keeps_draw c_draw' | with_reducible apply Keeps.foldl (I := I) | with_reducible apply Keeps.foldl₂ (I := I) | with_reducible apply Keeps.ite (I := I) | exact hc.mono (by decide +kernel) | split | intro s _ _ hk | intro s _ hk | intro s hk | with_reducible exact hk

def Touched.becomeOffline : Touch :=
  { regs := [F.SK_STATUS_BURST_FREE_KIB, F.SK_EVENT, F.SKS_SEQ, F.SKS_STATUS_RESIDENT, F.SKS_OVERWRITE, F.RING_CTRL_ROLE,
      F.RING_STATUS_STATE, F.TD_STATUS_ROLE, F.TD_STATUS_SYNC_PHASE, F.TD_EVENT, F.PWR_STATUS_WAKE_PEND,
      F.PWR_STATUS_PHASE, F.PWR_WAKE_SRC, F.PWR_WAKE_MERGED, F.MSIX_PBA],
    parts := [.skein, .tandem, .host, .power, .rings, .freeCtr] }

theorem keeps_becomeOffline (hc : Closed I Touched.becomeOffline) {s : State} (hk : Holds I s) (bit : Option Nat) : Holds I (State.becomeOffline s bit) := by
  have c_onTandem' : Closed I Touched.onTandem := hc.mono (by decide +kernel)
  have c_putRole' : Closed I Touched.putRole := hc.mono (by decide +kernel)
  unfold State.becomeOffline
  try dsimp only
  repeat' first | (guard_target =ₐ Holds I s; exact hk) | simp only [id_eq] | with_reducible apply keeps_onTandem c_onTandem' | with_reducible apply keeps_putRole c_putRole' | with_reducible apply keeps_wr | with_reducible apply Keeps.foldl (I := I) | with_reducible apply Keeps.foldl₂ (I := I) | with_reducible apply Keeps.ite (I := I) | exact hc.mono (by decide +kernel) | split | intro s _ _ hk | intro s _ hk | intro s hk | with_reducible exact hk

def Touched.becomeRepaired : Touch :=
  { regs := [F.SK_STATUS_BURST_FREE_KIB, F.SK_EVENT, F.SKS_SEQ, F.SKS_STATUS_RESIDENT, F.SKS_OVERWRITE, F.RING_CTRL_ROLE,
      F.RING_STATUS_STATE, F.TD_STATUS_ROLE, F.TD_EVENT, F.PWR_STATUS_WAKE_PEND, F.PWR_STATUS_PHASE,
      F.PWR_WAKE_SRC, F.PWR_WAKE_MERGED, F.MSIX_PBA],
    parts := [.skein, .tandem, .host, .power, .rings, .freeCtr] }

theorem keeps_becomeRepaired (hc : Closed I Touched.becomeRepaired) {s : State} (hk : Holds I s) : Holds I (State.becomeRepaired s) := by
  have c_onTandem' : Closed I Touched.onTandem := hc.mono (by decide +kernel)
  have c_putRole' : Closed I Touched.putRole := hc.mono (by decide +kernel)
  unfold State.becomeRepaired
  try dsimp only
  repeat' first | (guard_target =ₐ Holds I s; exact hk) | simp only [id_eq] | with_reducible apply keeps_onTandem c_onTandem' | with_reducible apply keeps_putRole c_putRole' | with_reducible apply Keeps.foldl (I := I) | with_reducible apply Keeps.foldl₂ (I := I) | with_reducible apply Keeps.ite (I := I) | split | intro s _ _ hk | intro s _ hk | intro s hk | with_reducible exact hk

def Touched.matchCycle : Touch :=
  { regs := [F.SK_STATUS_BURST_FREE_KIB, F.SK_EVENT, F.SKS_SEQ, F.SKS_STATUS_RESIDENT, F.SKS_OVERWRITE, F.RING_CTRL_ROLE,
      F.RING_STATUS_STATE, F.TD_STATUS_ROLE, F.TD_STATUS_SYNC_PHASE, F.TD_EVENT, F.TD_RESULT,
      F.PWR_STATUS_WAKE_PEND, F.PWR_STATUS_PHASE, F.PWR_WAKE_SRC, F.PWR_WAKE_MERGED, F.MSIX_PBA],
    parts := [.skein, .tandem, .host, .power, .rings, .freeCtr] }

theorem keeps_matchCycle (hc : Closed I Touched.matchCycle) {s : State} (hk : Holds I s) (r : Nat) : Holds I (State.matchCycle s r) := by
  have c_putPair' : Closed I Touched.putPair := hc.mono (by decide +kernel)
  have c_onTandem' : Closed I Touched.onTandem := hc.mono (by decide +kernel)
  have c_putRole' : Closed I Touched.putRole := hc.mono (by decide +kernel)
  unfold State.matchCycle
  try dsimp only
  repeat' first | (guard_target =ₐ Holds I s; exact hk) | simp only [id_eq] | with_reducible apply keeps_putPair c_putPair' | with_reducible apply keeps_onTandem c_onTandem' | with_reducible apply keeps_wr | with_reducible apply keeps_putRole c_putRole' | with_reducible apply Keeps.foldl (I := I) | with_reducible apply Keeps.foldl₂ (I := I) | with_reducible apply Keeps.ite (I := I) | exact hc.mono (by decide +kernel) | split | intro s _ _ hk | intro s _ hk | intro s hk | with_reducible exact hk

def Touched.syncFails : Touch :=
  { regs := [F.SK_STATUS_BURST_FREE_KIB, F.SK_EVENT, F.SKS_SEQ, F.SKS_STATUS_RESIDENT, F.SKS_OVERWRITE,
      F.TD_STATUS_SYNC_PHASE, F.TD_EVENT, F.TD_RESULT, F.MSIX_PBA],
    parts := [.skein, .tandem, .host] }

theorem keeps_syncFails (hc : Closed I Touched.syncFails) {s : State} (hk : Holds I s) (res : Nat) : Holds I (State.syncFails s res) := by
  have c_onTandem' : Closed I Touched.onTandem := hc.mono (by decide +kernel)
  have c_tdNote' : Closed I Touched.tdNote := hc.mono (by decide +kernel)
  unfold State.syncFails
  try dsimp only
  repeat' first | (guard_target =ₐ Holds I s; exact hk) | simp only [id_eq] | with_reducible apply keeps_onTandem c_onTandem' | with_reducible apply keeps_wr | with_reducible apply keeps_tdNote c_tdNote' | with_reducible apply Keeps.foldl (I := I) | with_reducible apply Keeps.foldl₂ (I := I) | with_reducible apply Keeps.ite (I := I) | exact hc.mono (by decide +kernel) | split | intro s _ _ hk | intro s _ hk | intro s hk | with_reducible exact hk

def Touched.diverge : Touch :=
  { regs := [F.SK_STATUS_BURST_FREE_KIB, F.SK_EVENT, F.SKS_SEQ, F.SKS_STATUS_RESIDENT, F.SKS_OVERWRITE,
      F.TD_STATUS_ARBITRATING, F.TD_DIV_CNT, F.TD_DIV_WHERE_RING, F.TD_DIV_WHERE_CYCLE, F.SYS_FAULT,
      F.SYS_FAULT_LAST, F.SYS_FAULT_T, F.MSIX_PBA],
    parts := [.skein, .tandem, .host] }

theorem keeps_diverge (hc : Closed I Touched.diverge) {s : State} (hk : Holds I s) (r : Nat) (c : Nat) : Holds I (State.diverge s r c) := by
  have c_onTandem' : Closed I Touched.onTandem := hc.mono (by decide +kernel)
  have c_tdRecord' : Closed I Touched.tdRecord := hc.mono (by decide +kernel)
  have c_sysFault' : Closed I Touched.sysFault := hc.mono (by decide +kernel)
  unfold State.diverge
  try dsimp only
  repeat' first | (guard_target =ₐ Holds I s; exact hk) | simp only [id_eq] | with_reducible apply keeps_wr | with_reducible apply keeps_bump | with_reducible apply keeps_onTandem c_onTandem' | with_reducible apply keeps_tdRecord c_tdRecord' | with_reducible apply keeps_sysFault c_sysFault' | with_reducible apply Keeps.foldl (I := I) | with_reducible apply Keeps.foldl₂ (I := I) | with_reducible apply Keeps.ite (I := I) | exact hc.mono (by decide +kernel) | split | intro s _ _ hk | intro s _ hk | intro s hk | with_reducible exact hk

def Touched.compareDigests : Touch :=
  { regs := [F.SK_STATUS_BURST_FREE_KIB, F.SK_EVENT, F.SKS_SEQ, F.SKS_STATUS_RESIDENT, F.SKS_OVERWRITE, F.RING_CTRL_ROLE,
      F.RING_STATUS_STATE, F.TD_STATUS_ROLE, F.TD_STATUS_ARBITRATING, F.TD_STATUS_SYNC_PHASE, F.TD_EVENT,
      F.TD_RESULT, F.TD_DIV_CNT, F.TD_DIV_WHERE_RING, F.TD_DIV_WHERE_CYCLE, F.PWR_STATUS_WAKE_PEND,
      F.PWR_STATUS_PHASE, F.PWR_WAKE_SRC, F.PWR_WAKE_MERGED, F.SYS_FAULT, F.SYS_FAULT_LAST, F.SYS_FAULT_T,
      F.MSIX_PBA],
    parts := [.skein, .tandem, .host, .power, .rings, .freeCtr] }

theorem keeps_compareDigests (hc : Closed I Touched.compareDigests) {s : State} (hk : Holds I s) (r : Nat) : Holds I (State.compareDigests s r) := by
  have c_putPair' : Closed I Touched.putPair := hc.mono (by decide +kernel)
  have c_matchCycle' : Closed I Touched.matchCycle := hc.mono (by decide +kernel)
  have c_syncFails' : Closed I Touched.syncFails := hc.mono (by decide +kernel)
  have c_diverge' : Closed I Touched.diverge := hc.mono (by decide +kernel)
  unfold State.compareDigests
  try dsimp only
  repeat' first | (guard_target =ₐ Holds I s; exact hk) | simp only [id_eq] | with_reducible apply keeps_putPair c_putPair' | with_reducible apply keeps_matchCycle c_matchCycle' | with_reducible apply keeps_syncFails c_syncFails' | with_reducible apply keeps_diverge c_diverge' | with_reducible apply Keeps.foldl (I := I) | with_reducible apply Keeps.foldl₂ (I := I) | with_reducible apply Keeps.ite (I := I) | split | intro s _ _ hk | intro s _ hk | intro s hk | with_reducible exact hk

def Touched.hearFrame : Touch :=
  { regs := [F.LINK_ERR], parts := [.tandem] }

theorem keeps_hearFrame (hc : Closed I Touched.hearFrame) {s : State} (hk : Holds I s) (c : Contrail) : Holds I (State.hearFrame s c) := by
  have c_onTandem' : Closed I Touched.onTandem := hc.mono (by decide +kernel)
  unfold State.hearFrame
  try dsimp only
  repeat' first | (guard_target =ₐ Holds I s; exact hk) | simp only [id_eq] | with_reducible apply keeps_bump | with_reducible apply keeps_onTandem c_onTandem' | with_reducible apply Keeps.foldl (I := I) | with_reducible apply Keeps.foldl₂ (I := I) | with_reducible apply Keeps.ite (I := I) | exact hc.mono (by decide +kernel) | split | intro s _ _ hk | intro s _ hk | intro s hk | with_reducible exact hk

def Touched.loseSync : Touch :=
  { regs := [F.SK_STATUS_BURST_FREE_KIB, F.SK_EVENT, F.SKS_SEQ, F.SKS_STATUS_RESIDENT, F.SKS_OVERWRITE, F.RING_CTRL_ROLE,
      F.RING_STATUS_STATE, F.TD_STATUS_ROLE, F.TD_EVENT, F.PWR_STATUS_WAKE_PEND, F.PWR_STATUS_PHASE,
      F.PWR_WAKE_SRC, F.PWR_WAKE_MERGED, F.MSIX_PBA],
    parts := [.skein, .tandem, .host, .power, .rings, .freeCtr] }

theorem keeps_loseSync (hc : Closed I Touched.loseSync) {s : State} (hk : Holds I s) (bit : Nat) : Holds I (State.loseSync s bit) := by
  have c_tdEvent' : Closed I Touched.tdEvent := hc.mono (by decide +kernel)
  have c_putRole' : Closed I Touched.putRole := hc.mono (by decide +kernel)
  unfold State.loseSync
  try dsimp only
  repeat' first | (guard_target =ₐ Holds I s; exact hk) | simp only [id_eq] | with_reducible apply keeps_tdEvent c_tdEvent' | with_reducible apply keeps_putRole c_putRole' | with_reducible apply Keeps.foldl (I := I) | with_reducible apply Keeps.foldl₂ (I := I) | with_reducible apply Keeps.ite (I := I) | split | intro s _ _ hk | intro s _ hk | intro s hk | with_reducible exact hk

def Touched.judge : Touch :=
  { regs := [F.SK_STATUS_BURST_FREE_KIB, F.SK_EVENT, F.SKS_SEQ, F.SKS_STATUS_RESIDENT, F.SKS_OVERWRITE, F.RING_CTRL_ROLE,
      F.RING_STATUS_STATE, F.TD_STATUS_ROLE, F.TD_STATUS_ARBITRATING, F.TD_STATUS_SYNC_PHASE, F.TD_EVENT,
      F.PWR_STATUS_WAKE_PEND, F.PWR_STATUS_PHASE, F.PWR_WAKE_SRC, F.PWR_WAKE_MERGED, F.SYS_DEVFAULT, F.MSIX_PBA],
    parts := [.warp, .skein, .tandem, .host, .power, .rings, .freeCtr] }

theorem keeps_judge (hc : Closed I Touched.judge) {s : State} (hk : Holds I s) : Holds I (State.judge s) := by
  have c_tdNote' : Closed I Touched.tdNote := hc.mono (by decide +kernel)
  have c_startHandover' : Closed I Touched.startHandover := hc.mono (by decide +kernel)
  have c_devFault' : Closed I Touched.devFault := hc.mono (by decide +kernel)
  have c_loseSync' : Closed I Touched.loseSync := hc.mono (by decide +kernel)
  have c_becomeRepaired' : Closed I Touched.becomeRepaired := hc.mono (by decide +kernel)
  have c_becomeOffline' : Closed I Touched.becomeOffline := hc.mono (by decide +kernel)
  unfold State.judge
  try dsimp only
  repeat' first | (guard_target =ₐ Holds I s; exact hk) | simp only [id_eq] | with_reducible apply keeps_wr | with_reducible apply keeps_tdNote c_tdNote' | with_reducible apply keeps_startHandover c_startHandover' | with_reducible apply keeps_devFault c_devFault' | with_reducible apply keeps_when | with_reducible apply keeps_loseSync c_loseSync' | with_reducible apply keeps_becomeRepaired c_becomeRepaired' | with_reducible apply keeps_becomeOffline c_becomeOffline' | with_reducible apply Keeps.foldl (I := I) | with_reducible apply Keeps.foldl₂ (I := I) | with_reducible apply Keeps.ite (I := I) | exact hc.mono (by decide +kernel) | split | intro s _ _ hk | intro s _ hk | intro s hk | with_reducible exact hk

def Touched.loseLink : Touch :=
  { regs := [F.SK_STATUS_BURST_FREE_KIB, F.SK_EVENT, F.SKS_SEQ, F.SKS_STATUS_RESIDENT, F.SKS_OVERWRITE, F.RING_CTRL_ROLE,
      F.RING_STATUS_STATE, F.TD_STATUS_ROLE, F.TD_STATUS_ARBITRATING, F.TD_STATUS_WARP_SYNC, F.TD_STATUS_LINK_UP,
      F.TD_STATUS_SYNC_PHASE, F.TD_EVENT, F.TD_RESULT, F.TD_LOST_T, F.TD_GUARD_EFF, F.PWR_STATUS_WAKE_PEND,
      F.PWR_STATUS_PHASE, F.PWR_WAKE_SRC, F.PWR_WAKE_MERGED, F.MSIX_PBA],
    parts := [.skein, .tandem, .host, .power, .rings, .freeCtr] }

theorem keeps_loseLink (hc : Closed I Touched.loseLink) {s : State} (hk : Holds I s) : Holds I (State.loseLink s) := by
  have c_onTandem' : Closed I Touched.onTandem := hc.mono (by decide +kernel)
  have c_showGuard' : Closed I Touched.showGuard := hc.mono (by decide +kernel)
  have c_syncFails' : Closed I Touched.syncFails := hc.mono (by decide +kernel)
  have c_loseSync' : Closed I Touched.loseSync := hc.mono (by decide +kernel)
  unfold State.loseLink
  try dsimp only
  repeat' first | (guard_target =ₐ Holds I s; exact hk) | simp only [id_eq] | with_reducible apply keeps_onTandem c_onTandem' | with_reducible apply keeps_wr | with_reducible apply keeps_wrT | with_reducible apply keeps_showGuard c_showGuard' | with_reducible apply keeps_syncFails c_syncFails' | with_reducible apply keeps_loseSync c_loseSync' | with_reducible apply Keeps.foldl (I := I) | with_reducible apply Keeps.foldl₂ (I := I) | with_reducible apply Keeps.ite (I := I) | exact hc.mono (by decide +kernel) | split | intro s _ _ hk | intro s _ hk | intro s hk | with_reducible exact hk

def Touched.onFrame : Touch :=
  { regs := [F.WARP_STATUS_RATE_CLAMPED, F.WARP_STATUS_SLEW_ACTIVE, F.SLEW_NS, F.LINK_ERR],
    parts := [.warp, .tandem] }

theorem keeps_onFrame (hc : Closed I Touched.onFrame) {s : State} (hk : Holds I s) (t : Instant) (c : Contrail) (f : State → State) (hf3 : ∀ s, Holds I s → Holds I (f s)) : Holds I (State.onFrame s t c f) := by
  have c_advance' : Closed I Touched.advance := hc.mono (by decide +kernel)
  have c_hearFrame' : Closed I Touched.hearFrame := hc.mono (by decide +kernel)
  unfold State.onFrame
  try dsimp only
  repeat' first | (guard_target =ₐ Holds I s; exact hk) | simp only [id_eq] | with_reducible apply keeps_advance c_advance' | with_reducible apply keeps_hearFrame c_hearFrame' | with_reducible apply Keeps.foldl (I := I) | with_reducible apply Keeps.foldl₂ (I := I) | with_reducible apply Keeps.ite (I := I) | split | with_reducible apply hf3 | intro s _ _ hk | intro s _ hk | intro s hk | with_reducible exact hk

def Touched.pairReception : Touch :=
  { regs := [F.TR_EVENT_SPAWN_DROP, F.SK_STATUS_BURST_FREE_KIB, F.SK_EVENT, F.SKS_SEQ, F.SKS_STATUS_RESIDENT,
      F.SKS_OVERWRITE, F.CS_STATUS_STATE, F.CS_EVENT, F.LOOM_EVENT, F.LOOM_EVT_OVF, F.LOOM_OVF_ROUTE, F.ODO_OUT,
      F.ODO_OUT_SAT, F.VR_VALUE, F.SCHED_STATUS_FREE_SLOTS, F.SCHED_STATUS_INFLIGHT, F.SCHED_EVENT,
      F.SCHED_DISPATCH_CNT, F.SCHED_EVT_UNBOUND_CNT, F.SCHED_TEMPLATE_MISS_CNT, F.PS_USED, F.HQ_DEPTH,
      F.HQ_MAXDEPTH, F.HQ_PUSH_CNT, F.HQ_BUSY_CNT, F.SH_STATUS_STATE, F.SH_STATUS_SLOT, F.SH_LOAD, F.LVL_RDY_DEPTH,
      F.LVL_WAIT_AVG, F.LVL_HIST, F.FLOW_STATE_IN_SERVICE, F.FLOW_STATE_PENDING, F.CP_EVENT, F.RJ_STATE,
      F.RING_EVENT, F.RING_RX_LAST, F.RING_LOST_CNT, F.RING_AUTH_CNT, F.RING_MBX_STATUS_RSP_LEN,
      F.RING_MBX_STATUS_STATE, F.RING_MBX_RX, F.RS_ST_STATUS_OK, F.RS_ST_STATUS_MISS_RUN,
      F.RS_ST_STATUS_LAST_STATUS, F.TD_MISS_CNT, F.PWR_STATUS_WAKE_PEND, F.PWR_STATUS_PHASE, F.PWR_STATUS_STATE,
      F.PWR_WAKE_SRC, F.PWR_WAKE_MERGED, F.PWR_RES, F.PWR_ENTRIES, F.MSIX_PBA],
    parts := [.skein, .cells, .fio, .treadles, .trig, .loom, .sched, .host, .boot, .power, .rings, .sram, .dram, .dlm, .freeCtr] }

theorem keeps_pairReception (hc : Closed I Touched.pairReception) {s : State} (hk : Holds I s) (r : Nat) (at_ : Instant) (c : Nat) : Holds I (State.pairReception s r at_ c) := by
  have c_loseFrame' : Closed I Touched.loseFrame := hc.mono (by decide +kernel)
  have c_missStation' : Closed I Touched.missStation := hc.mono (by decide +kernel)
  have c_settle' : Closed I Touched.settle := hc.mono (by decide +kernel)
  have c_ringChans' : Closed I Touched.ringChans := hc.mono (by decide +kernel)
  have c_endCycle' : Closed I Touched.endCycle := hc.mono (by decide +kernel)
  have c_ringRoutes' : Closed I Touched.ringRoutes := hc.mono (by decide +kernel)
  have c_putRing' : Closed I Touched.putRing := hc.mono (by decide +kernel)
  unfold State.pairReception
  try dsimp only
  repeat' first | (guard_target =ₐ Holds I s; exact hk) | simp only [id_eq] | with_reducible apply keeps_bump | with_reducible apply keeps_loseFrame c_loseFrame' | with_reducible apply keeps_each | with_reducible apply keeps_missStation c_missStation' | with_reducible apply keeps_settle c_settle' | with_reducible apply keeps_ringChans c_ringChans' | with_reducible apply keeps_endCycle c_endCycle' | with_reducible apply keeps_ringRoutes c_ringRoutes' | with_reducible apply keeps_putRing c_putRing' | with_reducible apply Keeps.foldl (I := I) | with_reducible apply Keeps.foldl₂ (I := I) | with_reducible apply Keeps.ite (I := I) | exact hc.mono (by decide +kernel) | split | intro s _ _ hk | intro s _ hk | intro s hk | with_reducible exact hk

def Touched.partnerFrame : Touch :=
  { regs := [F.SK_STATUS_BURST_FREE_KIB, F.SK_EVENT, F.SKS_SEQ, F.SKS_STATUS_RESIDENT, F.SKS_OVERWRITE, F.RING_CTRL_ROLE,
      F.RING_STATUS_STATE, F.TD_STATUS_ROLE, F.TD_EVENT, F.TD_EXPIRY, F.TD_GUARD_EFF, F.TD_PARTNER_ID,
      F.PWR_STATUS_WAKE_PEND, F.PWR_STATUS_PHASE, F.PWR_WAKE_SRC, F.PWR_WAKE_MERGED, F.MSIX_PBA],
    parts := [.skein, .tandem, .host, .power, .rings, .freeCtr] }

theorem keeps_partnerFrame (hc : Closed I Touched.partnerFrame) {s : State} (hk : Holds I s) (r : Nat) (f : RxFrame) : Holds I (State.partnerFrame s r f) := by
  have c_putPair' : Closed I Touched.putPair := hc.mono (by decide +kernel)
  have c_putRing' : Closed I Touched.putRing := hc.mono (by decide +kernel)
  have c_loseSync' : Closed I Touched.loseSync := hc.mono (by decide +kernel)
  have c_putExpiry' : Closed I Touched.putExpiry := hc.mono (by decide +kernel)
  unfold State.partnerFrame
  try dsimp only
  repeat' first | (guard_target =ₐ Holds I s; exact hk) | simp only [id_eq] | with_reducible apply keeps_wr | with_reducible apply keeps_putPair c_putPair' | with_reducible apply keeps_putRing c_putRing' | with_reducible apply keeps_loseSync c_loseSync' | with_reducible apply keeps_putExpiry c_putExpiry' | with_reducible apply Keeps.foldl (I := I) | with_reducible apply Keeps.foldl₂ (I := I) | with_reducible apply Keeps.ite (I := I) | exact hc.mono (by decide +kernel) | split | intro s _ _ hk | intro s _ hk | intro s hk | with_reducible exact hk

def Touched.sendDigest : Touch :=
  { regs := [F.SK_STATUS_BURST_FREE_KIB, F.SK_EVENT, F.SKS_SEQ, F.SKS_STATUS_RESIDENT, F.SKS_OVERWRITE, F.RING_CTRL_ROLE,
      F.RING_STATUS_STATE, F.TD_STATUS_ROLE, F.TD_STATUS_ARBITRATING, F.TD_STATUS_SYNC_PHASE, F.TD_EVENT,
      F.TD_RESULT, F.TD_DIV_CNT, F.TD_DIV_WHERE_RING, F.TD_DIV_WHERE_CYCLE, F.PWR_STATUS_WAKE_PEND,
      F.PWR_STATUS_PHASE, F.PWR_WAKE_SRC, F.PWR_WAKE_MERGED, F.SYS_FAULT, F.SYS_FAULT_LAST, F.SYS_FAULT_T,
      F.MSIX_PBA],
    parts := [.skein, .tandem, .host, .power, .rings, .freeCtr] }

theorem keeps_sendDigest (hc : Closed I Touched.sendDigest) {s : State} (hk : Holds I s) (r : Nat) (cycle : Nat) : Holds I (State.sendDigest s r cycle) := by
  have c_sendFrame' : Closed I Touched.sendFrame := hc.mono (by decide +kernel)
  have c_putPair' : Closed I Touched.putPair := hc.mono (by decide +kernel)
  have c_compareDigests' : Closed I Touched.compareDigests := hc.mono (by decide +kernel)
  unfold State.sendDigest
  try dsimp only
  repeat' first | (guard_target =ₐ Holds I s; exact hk) | simp only [id_eq] | with_reducible apply keeps_sendFrame c_sendFrame' | with_reducible apply keeps_putPair c_putPair' | with_reducible apply keeps_compareDigests c_compareDigests' | with_reducible apply Keeps.foldl (I := I) | with_reducible apply Keeps.foldl₂ (I := I) | with_reducible apply Keeps.ite (I := I) | split | intro s _ _ hk | intro s _ hk | intro s hk | with_reducible exact hk

def Touched.showSync : Touch :=
  { regs := [F.TD_STATUS_WARP_SYNC, F.TD_GUARD_EFF], parts := [.tandem] }

theorem keeps_showSync (hc : Closed I Touched.showSync) {s : State} (hk : Holds I s) : Holds I (State.showSync s) := by
  have c_onTandem' : Closed I Touched.onTandem := hc.mono (by decide +kernel)
  have c_showGuard' : Closed I Touched.showGuard := hc.mono (by decide +kernel)
  unfold State.showSync
  try dsimp only
  repeat' first | (guard_target =ₐ Holds I s; exact hk) | simp only [id_eq] | with_reducible apply keeps_onTandem c_onTandem' | with_reducible apply keeps_showGuard c_showGuard' | with_reducible apply keeps_wr | with_reducible apply Keeps.foldl (I := I) | with_reducible apply Keeps.foldl₂ (I := I) | with_reducible apply Keeps.ite (I := I) | exact hc.mono (by decide +kernel) | split | intro s _ _ hk | intro s _ hk | intro s hk | with_reducible exact hk

def Touched.showWitness : Touch :=
  { regs := [F.TD_WITNESS] }

theorem keeps_showWitness (hc : Closed I Touched.showWitness) {s : State} (hk : Holds I s) : Holds I (State.showWitness s) := by
  unfold State.showWitness
  try dsimp only
  repeat' first | (guard_target =ₐ Holds I s; exact hk) | simp only [id_eq] | with_reducible apply keeps_wr | with_reducible apply Keeps.foldl (I := I) | with_reducible apply Keeps.foldl₂ (I := I) | with_reducible apply Keeps.ite (I := I) | exact hc.mono (by decide +kernel) | split | intro s _ _ hk | intro s _ hk | intro s hk | with_reducible exact hk

def Touched.startListening : Touch :=
  { regs := [F.ODO_OUT, F.ODO_OUT_SAT, F.RING_STATUS_STATE, F.RS_ST_STATUS_OK, F.RS_ST_STATUS_ADMITTED,
      F.SEC_RING_KEYS_PENDING, F.SEC_RING_KEYS_KEYED],
    parts := [.fio, .loom, .tandem, .sec, .rings] }

theorem keeps_startListening (hc : Closed I Touched.startListening) {s : State} (hk : Holds I s) (r : Nat) : Holds I (State.startListening s r) := by
  have c_takeRingKey' : Closed I Touched.takeRingKey := hc.mono (by decide +kernel)
  have c_putRing' : Closed I Touched.putRing := hc.mono (by decide +kernel)
  have c_putPair' : Closed I Touched.putPair := hc.mono (by decide +kernel)
  have c_settle' : Closed I Touched.settle := hc.mono (by decide +kernel)
  unfold State.startListening
  try dsimp only
  repeat' first | (guard_target =ₐ Holds I s; exact hk) | simp only [id_eq] | with_reducible apply keeps_takeRingKey c_takeRingKey' | with_reducible apply keeps_putRing c_putRing' | with_reducible apply keeps_each | with_reducible apply keeps_wr | with_reducible apply keeps_putPair c_putPair' | with_reducible apply keeps_settle c_settle' | with_reducible apply Keeps.foldl (I := I) | with_reducible apply Keeps.foldl₂ (I := I) | with_reducible apply Keeps.ite (I := I) | exact hc.mono (by decide +kernel) | split | intro s _ _ hk | intro s _ hk | intro s hk | with_reducible exact hk

def Touched.startSync : Touch :=
  { regs := [F.SK_STATUS_BURST_FREE_KIB, F.SK_EVENT, F.SKS_SEQ, F.SKS_STATUS_RESIDENT, F.SKS_OVERWRITE,
      F.TD_STATUS_SYNC_PHASE, F.TD_EVENT, F.TD_RESULT, F.MSIX_PBA],
    parts := [.skein, .tandem, .host] }

theorem keeps_startSync (hc : Closed I Touched.startSync) {s : State} (hk : Holds I s) (same : Bool) : Holds I (State.startSync s same) := by
  have c_onTandem' : Closed I Touched.onTandem := hc.mono (by decide +kernel)
  have c_syncFails' : Closed I Touched.syncFails := hc.mono (by decide +kernel)
  have c_tdNote' : Closed I Touched.tdNote := hc.mono (by decide +kernel)
  have c_putPair' : Closed I Touched.putPair := hc.mono (by decide +kernel)
  unfold State.startSync
  try dsimp only
  repeat' first | (guard_target =ₐ Holds I s; exact hk) | simp only [id_eq] | with_reducible apply keeps_onTandem c_onTandem' | with_reducible apply keeps_syncFails c_syncFails' | with_reducible apply keeps_tdNote c_tdNote' | with_reducible apply keeps_each | with_reducible apply keeps_wr | with_reducible apply keeps_putPair c_putPair' | with_reducible apply Keeps.foldl (I := I) | with_reducible apply Keeps.foldl₂ (I := I) | with_reducible apply Keeps.ite (I := I) | exact hc.mono (by decide +kernel) | split | intro s _ _ hk | intro s _ hk | intro s hk | with_reducible exact hk

def Touched.takeOffset : Touch :=
  { regs := [F.WARP_STATUS_RATE_CLAMPED, F.WARP_STATUS_SLEW_ACTIVE, F.WARP_STATUS_EPOCH, F.WARP_EVENT_SYNC_LATE,
      F.WARP_EVENT_STEP_REFUSED, F.WARP_EVENT_STEP_DONE, F.SLEW_NS, F.STEP_TO, F.STEP_CTRL_RESULT,
      F.SYNC_OUT_CFG_ARM, F.SK_STATUS_BURST_FREE_KIB, F.SK_EVENT, F.SKS_SEQ, F.SKS_STATUS_RESIDENT,
      F.SKS_OVERWRITE, F.RING_CTRL_ROLE, F.RING_STATUS_STATE, F.TD_STATUS_ROLE, F.TD_STATUS_ARBITRATING,
      F.TD_STATUS_WARP_SYNC, F.TD_STATUS_LINK_UP, F.TD_STATUS_SYNC_PHASE, F.TD_EVENT, F.TD_RESULT, F.TD_LOST_T,
      F.TD_GUARD_EFF, F.TD_OFFSET, F.PWR_STATUS_WAKE_PEND, F.PWR_STATUS_PHASE, F.PWR_WAKE_SRC, F.PWR_WAKE_MERGED,
      F.MSIX_PBA],
    parts := [.warp, .skein, .fio, .tandem, .host, .power, .rings, .freeCtr] }

theorem keeps_takeOffset (hc : Closed I Touched.takeOffset) {s : State} (hk : Holds I s) (d : Int) : Holds I (State.takeOffset s d) := by
  have c_showSync' : Closed I Touched.showSync := hc.mono (by decide +kernel)
  have c_loseLink' : Closed I Touched.loseLink := hc.mono (by decide +kernel)
  have c_putSlew' : Closed I Touched.putSlew := hc.mono (by decide +kernel)
  have c_onTandem' : Closed I Touched.onTandem := hc.mono (by decide +kernel)
  have c_doStep' : Closed I Touched.doStep := hc.mono (by decide +kernel)
  have c_warpEvent' : Closed I Touched.warpEvent := hc.mono (by decide +kernel)
  unfold State.takeOffset
  try dsimp only
  repeat' first | (guard_target =ₐ Holds I s; exact hk) | simp only [id_eq] | with_reducible apply keeps_showSync c_showSync' | with_reducible apply keeps_wrI | with_reducible apply keeps_loseLink c_loseLink' | with_reducible apply keeps_putSlew c_putSlew' | with_reducible apply keeps_wrT | with_reducible apply keeps_onTandem c_onTandem' | with_reducible apply keeps_doStep c_doStep' | with_reducible apply keeps_warpEvent c_warpEvent' | with_reducible apply keeps_wr | with_reducible apply Keeps.foldl (I := I) | with_reducible apply Keeps.foldl₂ (I := I) | with_reducible apply Keeps.ite (I := I) | exact hc.mono (by decide +kernel) | split | intro s _ _ hk | intro s _ hk | intro s hk | with_reducible exact hk

def Touched.takeToken : Touch :=
  { regs := [F.SK_STATUS_BURST_FREE_KIB, F.SK_EVENT, F.SKS_SEQ, F.SKS_STATUS_RESIDENT, F.SKS_OVERWRITE, F.RING_CTRL_ROLE,
      F.RING_STATUS_STATE, F.TD_STATUS_TERM, F.TD_STATUS_ROLE, F.TD_EVENT, F.TD_EXPIRY, F.TD_GUARD_EFF,
      F.PWR_STATUS_WAKE_PEND, F.PWR_STATUS_PHASE, F.PWR_WAKE_SRC, F.PWR_WAKE_MERGED, F.MSIX_PBA],
    parts := [.skein, .island, .tandem, .host, .power, .rings, .freeCtr] }

theorem keeps_takeToken (hc : Closed I Touched.takeToken) {s : State} (hk : Holds I s) (term : Nat) (bit : Option Nat) : Holds I (State.takeToken s term bit) := by
  have c_onTandem' : Closed I Touched.onTandem := hc.mono (by decide +kernel)
  have c_putExpiry' : Closed I Touched.putExpiry := hc.mono (by decide +kernel)
  have c_onIsland' : Closed I Touched.onIsland := hc.mono (by decide +kernel)
  have c_putRole' : Closed I Touched.putRole := hc.mono (by decide +kernel)
  unfold State.takeToken
  try dsimp only
  repeat' first | (guard_target =ₐ Holds I s; exact hk) | simp only [id_eq] | with_reducible apply keeps_onTandem c_onTandem' | with_reducible apply keeps_putExpiry c_putExpiry' | with_reducible apply keeps_wr | with_reducible apply keeps_onIsland c_onIsland' | with_reducible apply keeps_putRole c_putRole' | with_reducible apply Keeps.foldl (I := I) | with_reducible apply Keeps.foldl₂ (I := I) | with_reducible apply Keeps.ite (I := I) | exact hc.mono (by decide +kernel) | split | intro s _ _ hk | intro s _ hk | intro s hk | with_reducible exact hk

def Touched.tryJoin : Touch :=
  { regs := [F.SK_STATUS_BURST_FREE_KIB, F.SK_EVENT, F.SKS_SEQ, F.SKS_STATUS_RESIDENT, F.SKS_OVERWRITE, F.RING_CTRL_ROLE,
      F.RING_STATUS_STATE, F.TD_STATUS_ROLE, F.TD_EVENT, F.PWR_STATUS_WAKE_PEND, F.PWR_STATUS_PHASE,
      F.PWR_WAKE_SRC, F.PWR_WAKE_MERGED, F.MSIX_PBA],
    parts := [.skein, .tandem, .host, .power, .rings, .freeCtr] }

theorem keeps_tryJoin (hc : Closed I Touched.tryJoin) {s : State} (hk : Holds I s) : Holds I (State.tryJoin s) := by
  have c_becomeRepaired' : Closed I Touched.becomeRepaired := hc.mono (by decide +kernel)
  unfold State.tryJoin
  try dsimp only
  repeat' first | (guard_target =ₐ Holds I s; exact hk) | simp only [id_eq] | with_reducible apply keeps_becomeRepaired c_becomeRepaired' | with_reducible apply Keeps.foldl (I := I) | with_reducible apply Keeps.foldl₂ (I := I) | with_reducible apply Keeps.ite (I := I) | split | intro s _ _ hk | intro s _ hk | intro s hk | with_reducible exact hk

end Sys2Proof.Machine
end

