-- ==== Sys2Proof/Laws/Keeps/Rings.lean ====
section
/-! SUPPORT.  What the operations of Machine/Rings.lean touch, and that they keep every property
closed under it. -/

namespace Sys2Proof.Machine

open Sys2Proof

set_option Elab.async false
set_option linter.unusedSimpArgs false
set_option linter.unusedVariables false
set_option linter.unusedTactic false
set_option linter.unreachableTactic false

variable {I : State → Prop}

def Touched.beginCycle : Touch :=
  { regs := [F.TR_EVENT_SPAWN_DROP, F.SK_STATUS_BURST_FREE_KIB, F.SK_EVENT, F.SKS_SEQ, F.SKS_STATUS_RESIDENT,
      F.SKS_OVERWRITE, F.CS_STATUS_STATE, F.CS_EVENT, F.LOOM_EVENT, F.LOOM_EVT_OVF, F.LOOM_OVF_ROUTE,
      F.SCHED_STATUS_FREE_SLOTS, F.SCHED_STATUS_INFLIGHT, F.SCHED_EVENT, F.SCHED_DISPATCH_CNT,
      F.SCHED_EVT_UNBOUND_CNT, F.SCHED_TEMPLATE_MISS_CNT, F.PS_USED, F.HQ_DEPTH, F.HQ_MAXDEPTH, F.HQ_PUSH_CNT,
      F.HQ_BUSY_CNT, F.SH_STATUS_STATE, F.SH_STATUS_SLOT, F.SH_LOAD, F.LVL_RDY_DEPTH, F.LVL_WAIT_AVG, F.LVL_HIST,
      F.FLOW_STATE_IN_SERVICE, F.FLOW_STATE_PENDING, F.RING_CYCLE, F.PWR_STATUS_WAKE_PEND, F.PWR_STATUS_PHASE,
      F.PWR_STATUS_STATE, F.PWR_WAKE_SRC, F.PWR_WAKE_MERGED, F.PWR_RES, F.PWR_ENTRIES, F.MSIX_PBA],
    parts := [.skein, .treadles, .trig, .sched, .host, .power, .rings, .sram, .dram, .dlm, .freeCtr] }

theorem keeps_beginCycle (hc : Closed I Touched.beginCycle) {s : State} (hk : Holds I s) (r : Nat) (k : Nat) : Holds I (State.beginCycle s r k) := by
  have c_ringChans' : Closed I Touched.ringChans := hc.mono (by decide +kernel)
  have c_putRing' : Closed I Touched.putRing := hc.mono (by decide +kernel)
  unfold State.beginCycle
  try dsimp only
  repeat' first | (guard_target =ₐ Holds I s; exact hk) | simp only [id_eq] | with_reducible apply keeps_ringChans c_ringChans' | with_reducible apply keeps_wr | with_reducible apply keeps_putRing c_putRing' | with_reducible apply Keeps.foldl (I := I) | with_reducible apply Keeps.foldl₂ (I := I) | with_reducible apply Keeps.ite (I := I) | exact hc.mono (by decide +kernel) | split | intro s _ _ hk | intro s _ hk | intro s hk | with_reducible exact hk

def Touched.copies : Touch :=
  { regs := [F.RING_STATUS_BREAK_POS, F.RS_ST_STATUS_REVERSE_FED] }

theorem keeps_copies (hc : Closed I Touched.copies) {s : State} (hk : Holds I s) (r : Nat) : Holds I (State.copies s r).1 := by
  have c_noteBreak' : Closed I Touched.noteBreak := hc.mono (by decide +kernel)
  unfold State.copies
  try dsimp only
  repeat' first | (guard_target =ₐ Holds I s; exact hk) | simp only [id_eq] | with_reducible apply keeps_noteBreak c_noteBreak' | with_reducible apply Keeps.foldl (I := I) | with_reducible apply Keeps.foldl₂ (I := I) | with_reducible apply Keeps.ite (I := I) | split | intro s _ _ hk | intro s _ hk | intro s hk | with_reducible exact hk

def Touched.fillFrame : Touch :=
  { regs := [F.ODO_OUT, F.ODO_OUT_SAT], parts := [.loom, .rings] }

theorem keeps_fillFrame (hc : Closed I Touched.fillFrame) {s : State} (hk : Holds I s) (r : Nat) : Holds I (State.fillFrame s r) := by
  have c_sendStation' : Closed I Touched.sendStation := hc.mono (by decide +kernel)
  unfold State.fillFrame
  try dsimp only
  repeat' first | (guard_target =ₐ Holds I s; exact hk) | simp only [id_eq] | with_reducible apply keeps_sendStation c_sendStation' | with_reducible apply Keeps.foldl (I := I) | with_reducible apply Keeps.foldl₂ (I := I) | with_reducible apply Keeps.ite (I := I) | split | intro s _ _ hk | intro s _ hk | intro s hk | with_reducible exact hk

def Touched.fillMailbox : Touch :=
  { regs := [F.RING_MBX_STATUS_SEQ], parts := [.rings] }

theorem keeps_fillMailbox (hc : Closed I Touched.fillMailbox) {s : State} (hk : Holds I s) (r : Nat) : Holds I (State.fillMailbox s r) := by
  have c_putRing' : Closed I Touched.putRing := hc.mono (by decide +kernel)
  unfold State.fillMailbox
  try dsimp only
  repeat' first | (guard_target =ₐ Holds I s; exact hk) | simp only [id_eq] | with_reducible apply keeps_putRing c_putRing' | with_reducible apply keeps_roll | with_reducible apply Keeps.foldl (I := I) | with_reducible apply Keeps.foldl₂ (I := I) | with_reducible apply Keeps.ite (I := I) | exact hc.mono (by decide +kernel) | split | intro s _ _ hk | intro s _ hk | intro s hk | with_reducible exact hk

def Touched.heardFrame : Touch :=
  { parts := [.rings] }

theorem keeps_heardFrame (hc : Closed I Touched.heardFrame) {s : State} (hk : Holds I s) (r : Nat) (f : RxFrame) : Holds I (State.heardFrame s r f) := by
  have c_putRing' : Closed I Touched.putRing := hc.mono (by decide +kernel)
  have c_noteCycle' : Closed I Touched.noteCycle := hc.mono (by decide +kernel)
  unfold State.heardFrame
  try dsimp only
  repeat' first | (guard_target =ₐ Holds I s; exact hk) | simp only [id_eq] | with_reducible apply keeps_putRing c_putRing' | with_reducible apply keeps_noteCycle c_noteCycle' | with_reducible apply Keeps.foldl (I := I) | with_reducible apply Keeps.foldl₂ (I := I) | with_reducible apply Keeps.ite (I := I) | split | intro s _ _ hk | intro s _ hk | intro s hk | with_reducible exact hk

def Touched.listen : Touch :=
  { regs := [F.SK_STATUS_BURST_FREE_KIB, F.SK_EVENT, F.SKS_SEQ, F.SKS_STATUS_RESIDENT, F.SKS_OVERWRITE, F.RING_CTRL_ROLE,
      F.RING_STATUS_STATE, F.TD_STATUS_ROLE, F.TD_EVENT, F.TD_EXPIRY, F.TD_GUARD_EFF, F.TD_PARTNER_ID,
      F.PWR_STATUS_WAKE_PEND, F.PWR_STATUS_PHASE, F.PWR_WAKE_SRC, F.PWR_WAKE_MERGED, F.MSIX_PBA],
    parts := [.skein, .tandem, .host, .power, .rings, .freeCtr] }

theorem keeps_listen (hc : Closed I Touched.listen) {s : State} (hk : Holds I s) (r : Nat) (f : RxFrame) : Holds I (State.listen s r f) := by
  have c_heardFrame' : Closed I Touched.heardFrame := hc.mono (by decide +kernel)
  have c_partnerFrame' : Closed I Touched.partnerFrame := hc.mono (by decide +kernel)
  have c_putPair' : Closed I Touched.putPair := hc.mono (by decide +kernel)
  unfold State.listen
  try dsimp only
  repeat' first | (guard_target =ₐ Holds I s; exact hk) | simp only [id_eq] | with_reducible apply keeps_heardFrame c_heardFrame' | with_reducible apply keeps_partnerFrame c_partnerFrame' | with_reducible apply keeps_putPair c_putPair' | with_reducible apply Keeps.foldl (I := I) | with_reducible apply Keeps.foldl₂ (I := I) | with_reducible apply Keeps.ite (I := I) | split | intro s _ _ hk | intro s _ hk | intro s hk | with_reducible exact hk

def Touched.mergeCopies : Touch :=
  { regs := [F.TR_EVENT_SPAWN_DROP, F.SK_STATUS_BURST_FREE_KIB, F.SK_EVENT, F.SKS_SEQ, F.SKS_STATUS_RESIDENT,
      F.SKS_OVERWRITE, F.CS_STATUS_STATE, F.CS_EVENT, F.LOOM_EVENT, F.LOOM_EVT_OVF, F.LOOM_OVF_ROUTE, F.ODO_OUT,
      F.ODO_OUT_SAT, F.VR_VALUE, F.SCHED_STATUS_FREE_SLOTS, F.SCHED_STATUS_INFLIGHT, F.SCHED_EVENT,
      F.SCHED_DISPATCH_CNT, F.SCHED_EVT_UNBOUND_CNT, F.SCHED_TEMPLATE_MISS_CNT, F.PS_USED, F.HQ_DEPTH,
      F.HQ_MAXDEPTH, F.HQ_PUSH_CNT, F.HQ_BUSY_CNT, F.SH_STATUS_STATE, F.SH_STATUS_SLOT, F.SH_LOAD, F.LVL_RDY_DEPTH,
      F.LVL_WAIT_AVG, F.LVL_HIST, F.FLOW_STATE_IN_SERVICE, F.FLOW_STATE_PENDING, F.CP_EVENT, F.RJ_STATE,
      F.RING_STATUS_BREAK_POS, F.RING_EVENT, F.RING_RX_LAST, F.RING_AUTH_CNT, F.RING_MBX_STATUS_RSP_LEN,
      F.RING_MBX_STATUS_STATE, F.RING_MBX_RX, F.RS_ST_STATUS_OK, F.RS_ST_STATUS_REVERSE_FED,
      F.RS_ST_STATUS_MISS_RUN, F.RS_ST_STATUS_LAST_STATUS, F.PWR_STATUS_WAKE_PEND, F.PWR_STATUS_PHASE,
      F.PWR_STATUS_STATE, F.PWR_WAKE_SRC, F.PWR_WAKE_MERGED, F.PWR_RES, F.PWR_ENTRIES, F.MSIX_PBA],
    parts := [.skein, .cells, .fio, .treadles, .trig, .loom, .sched, .tandem, .host, .boot, .power, .rings, .sram, .dram, .dlm, .freeCtr] }

theorem keeps_mergeCopies (hc : Closed I Touched.mergeCopies) {s : State} (hk : Holds I s) (r : Nat) (c : Instant) : Holds I (State.mergeCopies s r c) := by
  have c_copies' : Closed I Touched.copies := hc.mono (by decide +kernel)
  have c_putPair' : Closed I Touched.putPair := hc.mono (by decide +kernel)
  have c_sendFrame' : Closed I Touched.sendFrame := hc.mono (by decide +kernel)
  have c_ringChans' : Closed I Touched.ringChans := hc.mono (by decide +kernel)
  have c_endCycle' : Closed I Touched.endCycle := hc.mono (by decide +kernel)
  unfold State.mergeCopies
  try dsimp only
  repeat' first | (guard_target =ₐ Holds I s; exact hk) | simp only [id_eq] | with_reducible apply keeps_copies c_copies' | with_reducible apply keeps_putPair c_putPair' | with_reducible apply keeps_sendFrame c_sendFrame' | with_reducible apply keeps_ringChans c_ringChans' | with_reducible apply keeps_endCycle c_endCycle' | with_reducible apply Keeps.foldl (I := I) | with_reducible apply Keeps.foldl₂ (I := I) | with_reducible apply Keeps.ite (I := I) | split | intro s _ _ hk | intro s _ hk | intro s hk | with_reducible exact hk

def Touched.ringRefuse : Touch :=
  { regs := [F.RING_EVENT] }

theorem keeps_ringRefuse (hc : Closed I Touched.ringRefuse) {s : State} (hk : Holds I s) (r : Nat) : Holds I (State.ringRefuse s r) := by
  have c_ringEvent' : Closed I Touched.ringEvent := hc.mono (by decide +kernel)
  unfold State.ringRefuse
  try dsimp only
  repeat' first | (guard_target =ₐ Holds I s; exact hk) | simp only [id_eq] | with_reducible apply keeps_ringEvent c_ringEvent' | with_reducible apply Keeps.foldl (I := I) | with_reducible apply Keeps.foldl₂ (I := I) | with_reducible apply Keeps.ite (I := I) | split | intro s _ _ hk | intro s _ hk | intro s hk | with_reducible exact hk

def Touched.wholeFrame : Touch :=
  { regs := [F.TR_EVENT_SPAWN_DROP, F.SK_STATUS_BURST_FREE_KIB, F.SK_EVENT, F.SKS_SEQ, F.SKS_STATUS_RESIDENT,
      F.SKS_OVERWRITE, F.CS_STATUS_STATE, F.CS_EVENT, F.LOOM_EVENT, F.LOOM_EVT_OVF, F.LOOM_OVF_ROUTE, F.ODO_OUT,
      F.ODO_OUT_SAT, F.VR_VALUE, F.SCHED_STATUS_FREE_SLOTS, F.SCHED_STATUS_INFLIGHT, F.SCHED_EVENT,
      F.SCHED_DISPATCH_CNT, F.SCHED_EVT_UNBOUND_CNT, F.SCHED_TEMPLATE_MISS_CNT, F.PS_USED, F.HQ_DEPTH,
      F.HQ_MAXDEPTH, F.HQ_PUSH_CNT, F.HQ_BUSY_CNT, F.SH_STATUS_STATE, F.SH_STATUS_SLOT, F.SH_LOAD, F.LVL_RDY_DEPTH,
      F.LVL_WAIT_AVG, F.LVL_HIST, F.FLOW_STATE_IN_SERVICE, F.FLOW_STATE_PENDING, F.CP_EVENT, F.RJ_STATE,
      F.RING_EVENT, F.RING_RX_LAST, F.RING_AUTH_CNT, F.RING_MBX_STATUS_RSP_LEN, F.RING_MBX_STATUS_STATE,
      F.RING_MBX_RX, F.RS_ST_STATUS_OK, F.RS_ST_STATUS_MISS_RUN, F.RS_ST_STATUS_LAST_STATUS,
      F.PWR_STATUS_WAKE_PEND, F.PWR_STATUS_PHASE, F.PWR_STATUS_STATE, F.PWR_WAKE_SRC, F.PWR_WAKE_MERGED, F.PWR_RES,
      F.PWR_ENTRIES, F.MSIX_PBA],
    parts := [.skein, .cells, .fio, .treadles, .trig, .loom, .sched, .tandem, .host, .boot, .power, .rings, .sram, .dram, .dlm, .freeCtr] }

theorem keeps_wholeFrame (hc : Closed I Touched.wholeFrame) {s : State} (hk : Holds I s) (r : Nat) (c : Instant) (f : RxFrame) : Holds I (State.wholeFrame s r c f) := by
  have c_putPair' : Closed I Touched.putPair := hc.mono (by decide +kernel)
  have c_putRing' : Closed I Touched.putRing := hc.mono (by decide +kernel)
  have c_ringChans' : Closed I Touched.ringChans := hc.mono (by decide +kernel)
  have c_endCycle' : Closed I Touched.endCycle := hc.mono (by decide +kernel)
  unfold State.wholeFrame
  try dsimp only
  repeat' first | (guard_target =ₐ Holds I s; exact hk) | simp only [id_eq] | with_reducible apply keeps_putPair c_putPair' | with_reducible apply keeps_putRing c_putRing' | with_reducible apply keeps_ringChans c_ringChans' | with_reducible apply keeps_endCycle c_endCycle' | with_reducible apply Keeps.foldl (I := I) | with_reducible apply Keeps.foldl₂ (I := I) | with_reducible apply Keeps.ite (I := I) | split | intro s _ _ hk | intro s _ hk | intro s hk | with_reducible exact hk

theorem keeps_execCycleStart (hc : Closed I Touches.cycleStart) {s : State} (hk : Holds I s) (t : Instant) (r : Fin 4) : ∃ u, execCycleStart t r s = .next u ∧ Holds I u := by
  have c_advance' : Closed I Touched.advance := hc.mono (by decide +kernel)
  have c_settle' : Closed I Touched.settle := hc.mono (by decide +kernel)
  have c_putRing' : Closed I Touched.putRing := hc.mono (by decide +kernel)
  have c_noteCycle' : Closed I Touched.noteCycle := hc.mono (by decide +kernel)
  have c_ringEvent' : Closed I Touched.ringEvent := hc.mono (by decide +kernel)
  have c_feedReverse' : Closed I Touched.feedReverse := hc.mono (by decide +kernel)
  have c_beginCycle' : Closed I Touched.beginCycle := hc.mono (by decide +kernel)
  have c_fillFrame' : Closed I Touched.fillFrame := hc.mono (by decide +kernel)
  have c_fillMailbox' : Closed I Touched.fillMailbox := hc.mono (by decide +kernel)
  have c_sendDigest' : Closed I Touched.sendDigest := hc.mono (by decide +kernel)
  refine ⟨_, rfl, ?_⟩
  try dsimp only
  repeat' first | (guard_target =ₐ Holds I s; exact hk) | simp only [id_eq] | with_reducible apply keeps_advance c_advance' | with_reducible apply keeps_settle c_settle' | with_reducible apply keeps_each | with_reducible apply keeps_wr | with_reducible apply keeps_putRing c_putRing' | with_reducible apply keeps_noteCycle c_noteCycle' | with_reducible apply keeps_ringEvent c_ringEvent' | with_reducible apply keeps_feedReverse c_feedReverse' | with_reducible apply keeps_beginCycle c_beginCycle' | with_reducible apply keeps_fillFrame c_fillFrame' | with_reducible apply keeps_fillMailbox c_fillMailbox' | with_reducible apply keeps_sendDigest c_sendDigest' | with_reducible apply Keeps.foldl (I := I) | with_reducible apply Keeps.foldl₂ (I := I) | with_reducible apply Keeps.ite (I := I) | exact hc.mono (by decide +kernel) | split | intro s _ _ hk | intro s _ hk | intro s hk | with_reducible exact hk

theorem keeps_execDelayReturn (hc : Closed I Touches.delayReturn) {s : State} (hk : Holds I s) (t : Instant) (r : Fin 4) (reverse : Bool) (tx : Instant) (rx : Instant) (times : List Instant) : ∃ u, execDelayReturn t r reverse tx rx times s = .next u ∧ Holds I u := by
  have c_advance' : Closed I Touched.advance := hc.mono (by decide +kernel)
  have c_putRing' : Closed I Touched.putRing := hc.mono (by decide +kernel)
  have c_discovered' : Closed I Touched.discovered := hc.mono (by decide +kernel)
  have c_discoveryFails' : Closed I Touched.discoveryFails := hc.mono (by decide +kernel)
  refine ⟨_, rfl, ?_⟩
  try dsimp only
  repeat' first | (guard_target =ₐ Holds I s; exact hk) | simp only [id_eq] | with_reducible apply keeps_advance c_advance' | with_reducible apply keeps_putRing c_putRing' | with_reducible apply keeps_wr | with_reducible apply keeps_discovered c_discovered' | with_reducible apply keeps_discoveryFails c_discoveryFails' | with_reducible apply Keeps.foldl (I := I) | with_reducible apply Keeps.foldl₂ (I := I) | with_reducible apply Keeps.ite (I := I) | exact hc.mono (by decide +kernel) | split | intro s _ _ hk | intro s _ hk | intro s hk | with_reducible exact hk

theorem keeps_execDiscFail (hc : Closed I Touches.discFail) {s : State} (hk : Holds I s) (t : Instant) (r : Fin 4) : ∃ u, execDiscFail t r s = .next u ∧ Holds I u := by
  have c_advance' : Closed I Touched.advance := hc.mono (by decide +kernel)
  have c_discoveryFails' : Closed I Touched.discoveryFails := hc.mono (by decide +kernel)
  refine ⟨_, rfl, ?_⟩
  try dsimp only
  repeat' first | (guard_target =ₐ Holds I s; exact hk) | simp only [id_eq] | with_reducible apply keeps_advance c_advance' | with_reducible apply keeps_discoveryFails c_discoveryFails' | with_reducible apply Keeps.foldl (I := I) | with_reducible apply Keeps.foldl₂ (I := I) | with_reducible apply Keeps.ite (I := I) | split | intro s _ _ hk | intro s _ hk | intro s hk | with_reducible exact hk

theorem keeps_execDiscover (hc : Closed I Touches.discover) {s : State} (hk : Holds I s) (t : Instant) (r : Fin 4) : ∃ u, execDiscover t r s = .next u ∧ Holds I u := by
  have c_advance' : Closed I Touched.advance := hc.mono (by decide +kernel)
  have c_hostWrite' : Closed I Touched.hostWrite := hc.mono (by decide +kernel)
  have c_startDiscovery' : Closed I Touched.startDiscovery := hc.mono (by decide +kernel)
  have c_ringRefuse' : Closed I Touched.ringRefuse := hc.mono (by decide +kernel)
  refine ⟨_, rfl, ?_⟩
  try dsimp only
  repeat' first | (guard_target =ₐ Holds I s; exact hk) | simp only [id_eq] | with_reducible apply keeps_advance c_advance' | with_reducible apply keeps_hostWrite c_hostWrite' | with_reducible apply keeps_startDiscovery c_startDiscovery' | with_reducible apply keeps_ringRefuse c_ringRefuse' | with_reducible apply Keeps.foldl (I := I) | with_reducible apply Keeps.foldl₂ (I := I) | with_reducible apply Keeps.ite (I := I) | split | intro s _ _ hk | intro s _ hk | intro s hk | with_reducible exact hk

theorem keeps_execEnumReturn (hc : Closed I Touches.enumReturn) {s : State} (hk : Holds I s) (t : Instant) (r : Fin 4) (descs : List StationDesc) : ∃ u, execEnumReturn t r descs s = .next u ∧ Holds I u := by
  have c_advance' : Closed I Touched.advance := hc.mono (by decide +kernel)
  have c_putRing' : Closed I Touched.putRing := hc.mono (by decide +kernel)
  refine ⟨_, rfl, ?_⟩
  try dsimp only
  repeat' first | (guard_target =ₐ Holds I s; exact hk) | simp only [id_eq] | with_reducible apply keeps_advance c_advance' | with_reducible apply keeps_wr | with_reducible apply keeps_putRing c_putRing' | with_reducible apply Keeps.foldl (I := I) | with_reducible apply Keeps.foldl₂ (I := I) | with_reducible apply Keeps.ite (I := I) | exact hc.mono (by decide +kernel) | split | intro s _ _ hk | intro s _ hk | intro s hk | with_reducible exact hk

theorem keeps_execInsertionLocked (hc : Closed I Touches.insertionLocked) {s : State} (hk : Holds I s) (t : Instant) (r : Fin 4) : ∃ u, execInsertionLocked t r s = .next u ∧ Holds I u := by
  have c_advance' : Closed I Touched.advance := hc.mono (by decide +kernel)
  have c_startListening' : Closed I Touched.startListening := hc.mono (by decide +kernel)
  have c_startDiscovery' : Closed I Touched.startDiscovery := hc.mono (by decide +kernel)
  refine ⟨_, rfl, ?_⟩
  try dsimp only
  repeat' first | (guard_target =ₐ Holds I s; exact hk) | simp only [id_eq] | with_reducible apply keeps_advance c_advance' | with_reducible apply keeps_startListening c_startListening' | with_reducible apply keeps_startDiscovery c_startDiscovery' | with_reducible apply Keeps.foldl (I := I) | with_reducible apply Keeps.foldl₂ (I := I) | with_reducible apply Keeps.ite (I := I) | split | intro s _ _ hk | intro s _ hk | intro s hk | with_reducible exact hk

theorem keeps_execInsertionTimeout (hc : Closed I Touches.insertionTimeout) {s : State} (hk : Holds I s) (t : Instant) (r : Fin 4) : ∃ u, execInsertionTimeout t r s = .next u ∧ Holds I u := by
  have c_advance' : Closed I Touched.advance := hc.mono (by decide +kernel)
  have c_bypassRing' : Closed I Touched.bypassRing := hc.mono (by decide +kernel)
  have c_putRing' : Closed I Touched.putRing := hc.mono (by decide +kernel)
  refine ⟨_, rfl, ?_⟩
  try dsimp only
  repeat' first | (guard_target =ₐ Holds I s; exact hk) | simp only [id_eq] | with_reducible apply keeps_advance c_advance' | with_reducible apply keeps_bypassRing c_bypassRing' | with_reducible apply keeps_wr | with_reducible apply keeps_putRing c_putRing' | with_reducible apply Keeps.foldl (I := I) | with_reducible apply Keeps.foldl₂ (I := I) | with_reducible apply Keeps.ite (I := I) | exact hc.mono (by decide +kernel) | split | intro s _ _ hk | intro s _ hk | intro s hk | with_reducible exact hk

theorem keeps_execMbxGo (hc : Closed I Touches.mbxGo) {s : State} (hk : Holds I s) (t : Instant) (r : Fin 4) (value : Word) : ∃ u, execMbxGo t r value s = .next u ∧ Holds I u := by
  have c_advance' : Closed I Touched.advance := hc.mono (by decide +kernel)
  have c_hostWrite' : Closed I Touched.hostWrite := hc.mono (by decide +kernel)
  have c_ringEvent' : Closed I Touched.ringEvent := hc.mono (by decide +kernel)
  have c_putRing' : Closed I Touched.putRing := hc.mono (by decide +kernel)
  refine ⟨_, rfl, ?_⟩
  try dsimp only
  repeat' first | (guard_target =ₐ Holds I s; exact hk) | simp only [id_eq] | with_reducible apply keeps_advance c_advance' | with_reducible apply keeps_hostWrite c_hostWrite' | with_reducible apply keeps_ringEvent c_ringEvent' | with_reducible apply keeps_wr | with_reducible apply keeps_putRing c_putRing' | with_reducible apply Keeps.foldl (I := I) | with_reducible apply Keeps.foldl₂ (I := I) | with_reducible apply Keeps.ite (I := I) | exact hc.mono (by decide +kernel) | split | intro s _ _ hk | intro s _ hk | intro s hk | with_reducible exact hk

theorem keeps_execMbxTmo (hc : Closed I Touches.mbxTmo) {s : State} (hk : Holds I s) (t : Instant) (r : Fin 4) : ∃ u, execMbxTmo t r s = .next u ∧ Holds I u := by
  have c_advance' : Closed I Touched.advance := hc.mono (by decide +kernel)
  have c_putRing' : Closed I Touched.putRing := hc.mono (by decide +kernel)
  have c_ringEvent' : Closed I Touched.ringEvent := hc.mono (by decide +kernel)
  refine ⟨_, rfl, ?_⟩
  try dsimp only
  repeat' first | (guard_target =ₐ Holds I s; exact hk) | simp only [id_eq] | with_reducible apply keeps_advance c_advance' | with_reducible apply keeps_putRing c_putRing' | with_reducible apply keeps_ringEvent c_ringEvent' | with_reducible apply keeps_wr | with_reducible apply Keeps.foldl (I := I) | with_reducible apply Keeps.foldl₂ (I := I) | with_reducible apply Keeps.ite (I := I) | exact hc.mono (by decide +kernel) | split | intro s _ _ hk | intro s _ hk | intro s hk | with_reducible exact hk

theorem keeps_execReceptionEnd (hc : Closed I Touches.receptionEnd) {s : State} (hk : Holds I s) (t : Instant) (r : Fin 4) (onF : Bool) (frame : RxFrame) : ∃ u, execReceptionEnd t r onF frame s = .next u ∧ Holds I u := by
  have c_advance' : Closed I Touched.advance := hc.mono (by decide +kernel)
  have c_listen' : Closed I Touched.listen := hc.mono (by decide +kernel)
  have c_partnerFrame' : Closed I Touched.partnerFrame := hc.mono (by decide +kernel)
  have c_loseFrame' : Closed I Touched.loseFrame := hc.mono (by decide +kernel)
  have c_heardFrame' : Closed I Touched.heardFrame := hc.mono (by decide +kernel)
  have c_putRing' : Closed I Touched.putRing := hc.mono (by decide +kernel)
  have c_mergeCopies' : Closed I Touched.mergeCopies := hc.mono (by decide +kernel)
  have c_wholeFrame' : Closed I Touched.wholeFrame := hc.mono (by decide +kernel)
  refine ⟨_, rfl, ?_⟩
  try dsimp only
  repeat' first | (guard_target =ₐ Holds I s; exact hk) | simp only [id_eq] | with_reducible apply keeps_advance c_advance' | with_reducible apply keeps_listen c_listen' | with_reducible apply keeps_partnerFrame c_partnerFrame' | with_reducible apply keeps_loseFrame c_loseFrame' | with_reducible apply keeps_heardFrame c_heardFrame' | with_reducible apply keeps_putRing c_putRing' | with_reducible apply keeps_mergeCopies c_mergeCopies' | with_reducible apply keeps_wholeFrame c_wholeFrame' | with_reducible apply Keeps.foldl (I := I) | with_reducible apply Keeps.foldl₂ (I := I) | with_reducible apply Keeps.ite (I := I) | split | intro s _ _ hk | intro s _ hk | intro s hk | with_reducible exact hk

theorem keeps_execReservationWritten (hc : Closed I Touches.reservationWritten) {s : State} (hk : Holds I s) (t : Instant) (r : Fin 4) (good : Bool) : ∃ u, execReservationWritten t r good s = .next u ∧ Holds I u := by
  have c_advance' : Closed I Touched.advance := hc.mono (by decide +kernel)
  have c_putRing' : Closed I Touched.putRing := hc.mono (by decide +kernel)
  refine ⟨_, rfl, ?_⟩
  try dsimp only
  repeat' first | (guard_target =ₐ Holds I s; exact hk) | simp only [id_eq] | with_reducible apply keeps_advance c_advance' | with_reducible apply keeps_putRing c_putRing' | with_reducible apply Keeps.foldl (I := I) | with_reducible apply Keeps.foldl₂ (I := I) | with_reducible apply Keeps.ite (I := I) | split | intro s _ _ hk | intro s _ hk | intro s hk | with_reducible exact hk

theorem keeps_execRingEnWrite (hc : Closed I Touches.ringEnWrite) {s : State} (hk : Holds I s) (t : Instant) (r : Fin 4) (value : Word) : ∃ u, execRingEnWrite t r value s = .next u ∧ Holds I u := by
  have c_advance' : Closed I Touched.advance := hc.mono (by decide +kernel)
  have c_hostWrite' : Closed I Touched.hostWrite := hc.mono (by decide +kernel)
  have c_discardOther' : Closed I Touched.discardOther := hc.mono (by decide +kernel)
  have c_syncRing' : Closed I Touched.syncRing := hc.mono (by decide +kernel)
  have c_internalWake' : Closed I Touched.internalWake := hc.mono (by decide +kernel)
  refine ⟨_, rfl, ?_⟩
  try dsimp only
  repeat' first | (guard_target =ₐ Holds I s; exact hk) | simp only [id_eq] | with_reducible apply keeps_advance c_advance' | with_reducible apply keeps_hostWrite c_hostWrite' | with_reducible apply keeps_discardOther c_discardOther' | with_reducible apply keeps_when | with_reducible apply keeps_syncRing c_syncRing' | with_reducible apply keeps_wr | with_reducible apply keeps_internalWake c_internalWake' | with_reducible apply Keeps.foldl (I := I) | with_reducible apply Keeps.foldl₂ (I := I) | with_reducible apply Keeps.ite (I := I) | exact hc.mono (by decide +kernel) | split | intro s _ _ hk | intro s _ hk | intro s hk | with_reducible exact hk

theorem keeps_execRingStart (hc : Closed I Touches.ringStart) {s : State} (hk : Holds I s) (t : Instant) (r : Fin 4) : ∃ u, execRingStart t r s = .next u ∧ Holds I u := by
  have c_advance' : Closed I Touched.advance := hc.mono (by decide +kernel)
  have c_hostWrite' : Closed I Touched.hostWrite := hc.mono (by decide +kernel)
  have c_putRing' : Closed I Touched.putRing := hc.mono (by decide +kernel)
  have c_ringRefuse' : Closed I Touched.ringRefuse := hc.mono (by decide +kernel)
  refine ⟨_, rfl, ?_⟩
  try dsimp only
  repeat' first | (guard_target =ₐ Holds I s; exact hk) | simp only [id_eq] | with_reducible apply keeps_advance c_advance' | with_reducible apply keeps_hostWrite c_hostWrite' | with_reducible apply keeps_putRing c_putRing' | with_reducible apply keeps_ringRefuse c_ringRefuse' | with_reducible apply Keeps.foldl (I := I) | with_reducible apply Keeps.foldl₂ (I := I) | with_reducible apply Keeps.ite (I := I) | split | intro s _ _ hk | intro s _ hk | intro s hk | with_reducible exact hk

theorem keeps_execRingStop (hc : Closed I Touches.ringStop) {s : State} (hk : Holds I s) (t : Instant) (r : Fin 4) : ∃ u, execRingStop t r s = .next u ∧ Holds I u := by
  have c_advance' : Closed I Touched.advance := hc.mono (by decide +kernel)
  have c_hostWrite' : Closed I Touched.hostWrite := hc.mono (by decide +kernel)
  have c_putRing' : Closed I Touched.putRing := hc.mono (by decide +kernel)
  have c_ringRefuse' : Closed I Touched.ringRefuse := hc.mono (by decide +kernel)
  refine ⟨_, rfl, ?_⟩
  try dsimp only
  repeat' first | (guard_target =ₐ Holds I s; exact hk) | simp only [id_eq] | with_reducible apply keeps_advance c_advance' | with_reducible apply keeps_hostWrite c_hostWrite' | with_reducible apply keeps_putRing c_putRing' | with_reducible apply keeps_wr | with_reducible apply keeps_ringRefuse c_ringRefuse' | with_reducible apply Keeps.foldl (I := I) | with_reducible apply Keeps.foldl₂ (I := I) | with_reducible apply Keeps.ite (I := I) | exact hc.mono (by decide +kernel) | split | intro s _ _ hk | intro s _ hk | intro s hk | with_reducible exact hk

theorem keeps_execRxLimit (hc : Closed I Touches.rxLimit) {s : State} (hk : Holds I s) (t : Instant) (r : Fin 4) (linkLost : Bool) : ∃ u, execRxLimit t r linkLost s = .next u ∧ Holds I u := by
  have c_advance' : Closed I Touched.advance := hc.mono (by decide +kernel)
  have c_pairReception' : Closed I Touched.pairReception := hc.mono (by decide +kernel)
  have c_mergeCopies' : Closed I Touched.mergeCopies := hc.mono (by decide +kernel)
  have c_loseFrame' : Closed I Touched.loseFrame := hc.mono (by decide +kernel)
  have c_settle' : Closed I Touched.settle := hc.mono (by decide +kernel)
  have c_missStation' : Closed I Touched.missStation := hc.mono (by decide +kernel)
  have c_putRing' : Closed I Touched.putRing := hc.mono (by decide +kernel)
  have c_noteBreak' : Closed I Touched.noteBreak := hc.mono (by decide +kernel)
  have c_lapseWitness' : Closed I Touched.lapseWitness := hc.mono (by decide +kernel)
  have c_ringEvent' : Closed I Touched.ringEvent := hc.mono (by decide +kernel)
  refine ⟨_, rfl, ?_⟩
  try dsimp only
  repeat' first | (guard_target =ₐ Holds I s; exact hk) | simp only [id_eq] | with_reducible apply keeps_advance c_advance' | with_reducible apply keeps_pairReception c_pairReception' | with_reducible apply keeps_mergeCopies c_mergeCopies' | with_reducible apply keeps_loseFrame c_loseFrame' | with_reducible apply keeps_settle c_settle' | with_reducible apply keeps_each | with_reducible apply keeps_missStation c_missStation' | with_reducible apply keeps_putRing c_putRing' | with_reducible apply keeps_noteBreak c_noteBreak' | with_reducible apply keeps_lapseWitness c_lapseWitness' | with_reducible apply keeps_ringEvent c_ringEvent' | with_reducible apply keeps_bump | with_reducible apply keeps_wr | with_reducible apply Keeps.foldl (I := I) | with_reducible apply Keeps.foldl₂ (I := I) | with_reducible apply Keeps.ite (I := I) | exact hc.mono (by decide +kernel) | split | intro s _ _ hk | intro s _ hk | intro s hk | with_reducible exact hk

theorem keeps_execSerdesLaneReadyChange (hc : Closed I Touches.serdesLaneReadyChange) {s : State} (hk : Holds I s) (t : Instant) (r : Fin 4) (laneF : Bool) (ready : Bool) : ∃ u, execSerdesLaneReadyChange t r laneF ready s = .next u ∧ Holds I u := by
  have c_advance' : Closed I Touched.advance := hc.mono (by decide +kernel)
  have c_syncRing' : Closed I Touched.syncRing := hc.mono (by decide +kernel)
  have c_putRing' : Closed I Touched.putRing := hc.mono (by decide +kernel)
  refine ⟨_, rfl, ?_⟩
  try dsimp only
  repeat' first | (guard_target =ₐ Holds I s; exact hk) | simp only [id_eq] | with_reducible apply keeps_advance c_advance' | with_reducible apply keeps_syncRing c_syncRing' | with_reducible apply keeps_putRing c_putRing' | with_reducible apply Keeps.foldl (I := I) | with_reducible apply Keeps.foldl₂ (I := I) | with_reducible apply Keeps.ite (I := I) | split | intro s _ _ hk | intro s _ hk | intro s hk | with_reducible exact hk

end Sys2Proof.Machine
end

