-- ==== Sys2Proof/Laws/Keeps/Skein.lean ====
section
/-! SUPPORT.  What the operations of Machine/Skein.lean touch, and that they keep every property
closed under it. -/

namespace Sys2Proof.Machine

open Sys2Proof

set_option Elab.async false
set_option linter.unusedSimpArgs false
set_option linter.unusedVariables false
set_option linter.unusedTactic false
set_option linter.unreachableTactic false

variable {I : State → Prop}

def Touched.checkpoint : Touch :=
  { regs := [F.SK_STATUS_BURST_FREE_KIB, F.SK_STATUS_CKPT_PENDING, F.SK_EVENT, F.SKS_SEQ, F.SKS_STATUS_RESIDENT,
      F.SKS_OVERWRITE, F.SKS_OUT_AVG],
    parts := [.skein] }

theorem keeps_checkpoint (hc : Closed I Touched.checkpoint) {s : State} (hk : Holds I s) (k : Nat) : Holds I (State.checkpoint s k) := by
  have c_seal' : Closed I Touched.seal := hc.mono (by decide +kernel)
  have c_putStream' : Closed I Touched.putStream := hc.mono (by decide +kernel)
  have c_skEvent' : Closed I Touched.skEvent := hc.mono (by decide +kernel)
  unfold State.checkpoint
  try dsimp only
  repeat' first | (guard_target =ₐ Holds I s; exact hk) | simp only [id_eq] | with_reducible apply keeps_seal c_seal' | with_reducible apply keeps_wr | with_reducible apply keeps_putStream c_putStream' | with_reducible apply keeps_skEvent c_skEvent' | with_reducible apply Keeps.foldl (I := I) | with_reducible apply Keeps.foldl₂ (I := I) | with_reducible apply Keeps.ite (I := I) | exact hc.mono (by decide +kernel) | split | intro s _ _ hk | intro s _ hk | intro s hk | with_reducible exact hk

def Touched.onSlot : Touch :=
  { parts := [.skein] }

theorem keeps_onSlot (hc : Closed I Touched.onSlot) {s : State} (hk : Holds I s) (k : Nat) (seq : Nat) (f : SkSlot → SkSlot) : Holds I (State.onSlot s k seq f) := by
  have c_putStream' : Closed I Touched.putStream := hc.mono (by decide +kernel)
  unfold State.onSlot
  try dsimp only
  repeat' first | (guard_target =ₐ Holds I s; exact hk) | simp only [id_eq] | with_reducible apply keeps_putStream c_putStream' | with_reducible apply Keeps.foldl (I := I) | with_reducible apply Keeps.foldl₂ (I := I) | with_reducible apply Keeps.ite (I := I) | split | intro s _ _ hk | intro s _ hk | intro s hk | with_reducible exact hk

def Touched.startExport : Touch :=
  { parts := [.skein] }

theorem keeps_startExport (hc : Closed I Touched.startExport) {s : State} (hk : Holds I s) (k : Nat) : Holds I (State.startExport s k) := by
  have c_putStream' : Closed I Touched.putStream := hc.mono (by decide +kernel)
  unfold State.startExport
  try dsimp only
  repeat' first | (guard_target =ₐ Holds I s; exact hk) | simp only [id_eq] | with_reducible apply keeps_putStream c_putStream' | with_reducible apply Keeps.foldl (I := I) | with_reducible apply Keeps.foldl₂ (I := I) | with_reducible apply Keeps.ite (I := I) | split | intro s _ _ hk | intro s _ hk | intro s hk | with_reducible exact hk

def Touched.refreshRegion : Touch :=
  { regs := [F.SK_STATUS_BURST_FREE_KIB, F.SK_EVENT, F.SKS_VISIBLE, F.SKS_STATUS_RESIDENT, F.SKS_OVERWRITE],
    parts := [.skein] }

theorem keeps_refreshRegion (hc : Closed I Touched.refreshRegion) {s : State} (hk : Holds I s) (k : Nat) : Holds I (State.refreshRegion s k) := by
  have c_putStream' : Closed I Touched.putStream := hc.mono (by decide +kernel)
  have c_placeAll' : Closed I Touched.placeAll := hc.mono (by decide +kernel)
  have c_showBurst' : Closed I Touched.showBurst := hc.mono (by decide +kernel)
  have c_startExport' : Closed I Touched.startExport := hc.mono (by decide +kernel)
  unfold State.refreshRegion
  try dsimp only
  repeat' first | (guard_target =ₐ Holds I s; exact hk) | simp only [id_eq] | with_reducible apply keeps_putStream c_putStream' | with_reducible apply keeps_wr | with_reducible apply keeps_placeAll c_placeAll' | with_reducible apply keeps_showBurst c_showBurst' | with_reducible apply keeps_startExport c_startExport' | with_reducible apply Keeps.foldl (I := I) | with_reducible apply Keeps.foldl₂ (I := I) | with_reducible apply Keeps.ite (I := I) | exact hc.mono (by decide +kernel) | split | intro s _ _ hk | intro s _ hk | intro s hk | with_reducible exact hk

def Touched.storeBlock : Touch :=
  { parts := [.dram] }

theorem keeps_storeBlock (hc : Closed I Touched.storeBlock) {s : State} (hk : Holds I s) (k : Nat) (b : SkBlock) : Holds I (State.storeBlock s k b) := by
  have c_dram : Closed I { parts := [.dram] } := hc.mono (by decide +kernel)
  unfold State.storeBlock
  try dsimp only
  repeat' first | (guard_target =ₐ Holds I s; exact hk) | simp only [ic_mk, id_eq] | with_reducible refine ic_dram c_dram (ic_fold ?_) | with_reducible apply Keeps.foldl (I := I) | with_reducible apply Keeps.foldl₂ (I := I) | with_reducible apply Keeps.ite (I := I) | split | intro s _ _ hk | intro s _ hk | intro s hk | with_reducible exact hk

theorem keeps_execBlockSeal (hc : Closed I Touches.blockSeal) {s : State} (hk : Holds I s) (t : Instant) (k : Fin 17) : ∃ u, execBlockSeal t k s = .next u ∧ Holds I u := by
  have c_advance' : Closed I Touched.advance := hc.mono (by decide +kernel)
  have c_seal' : Closed I Touched.seal := hc.mono (by decide +kernel)
  refine ⟨_, rfl, ?_⟩
  try dsimp only
  repeat' first | (guard_target =ₐ Holds I s; exact hk) | simp only [id_eq] | with_reducible apply keeps_advance c_advance' | with_reducible apply keeps_seal c_seal' | with_reducible apply Keeps.foldl (I := I) | with_reducible apply Keeps.foldl₂ (I := I) | with_reducible apply Keeps.ite (I := I) | split | intro s _ _ hk | intro s _ hk | intro s hk | with_reducible exact hk

theorem keeps_execBlockWriteDone (hc : Closed I Touches.blockWriteDone) {s : State} (hk : Holds I s) (t : Instant) (k : Fin 17) (seq : BitVec 64) (good : Bool) : ∃ u, execBlockWriteDone t k seq good s = .next u ∧ Holds I u := by
  have c_advance' : Closed I Touched.advance := hc.mono (by decide +kernel)
  have c_onSlot' : Closed I Touched.onSlot := hc.mono (by decide +kernel)
  have c_storeBlock' : Closed I Touched.storeBlock := hc.mono (by decide +kernel)
  have c_skEvent' : Closed I Touched.skEvent := hc.mono (by decide +kernel)
  have c_interrupt' : Closed I Touched.interrupt := hc.mono (by decide +kernel)
  have c_refreshRegion' : Closed I Touched.refreshRegion := hc.mono (by decide +kernel)
  refine ⟨_, rfl, ?_⟩
  try dsimp only
  repeat' first | (guard_target =ₐ Holds I s; exact hk) | simp only [id_eq] | with_reducible apply keeps_advance c_advance' | with_reducible apply keeps_onSlot c_onSlot' | with_reducible apply keeps_storeBlock c_storeBlock' | with_reducible apply keeps_skEvent c_skEvent' | with_reducible apply keeps_bump | with_reducible apply keeps_interrupt c_interrupt' | with_reducible apply keeps_wr | with_reducible apply keeps_refreshRegion c_refreshRegion' | with_reducible apply Keeps.foldl (I := I) | with_reducible apply Keeps.foldl₂ (I := I) | with_reducible apply Keeps.ite (I := I) | exact hc.mono (by decide +kernel) | split | intro s _ _ hk | intro s _ hk | intro s hk | with_reducible exact hk

theorem keeps_execCheckpointSigned (hc : Closed I Touches.checkpointSigned) {s : State} (hk : Holds I s) (t : Instant) (k : Fin 17) : ∃ u, execCheckpointSigned t k s = .next u ∧ Holds I u := by
  have c_advance' : Closed I Touched.advance := hc.mono (by decide +kernel)
  have c_putStream' : Closed I Touched.putStream := hc.mono (by decide +kernel)
  have c_record' : Closed I Touched.record := hc.mono (by decide +kernel)
  refine ⟨_, rfl, ?_⟩
  try dsimp only
  repeat' first | (guard_target =ₐ Holds I s; exact hk) | simp only [id_eq] | with_reducible apply keeps_advance c_advance' | with_reducible apply keeps_putStream c_putStream' | with_reducible apply keeps_record c_record' | with_reducible apply keeps_wr | with_reducible apply Keeps.foldl (I := I) | with_reducible apply Keeps.foldl₂ (I := I) | with_reducible apply Keeps.ite (I := I) | exact hc.mono (by decide +kernel) | split | intro s _ _ hk | intro s _ hk | intro s hk | with_reducible exact hk

theorem keeps_execExportDone (hc : Closed I Touches.exportDone) {s : State} (hk : Holds I s) (t : Instant) (k : Fin 17) : ∃ u, execExportDone t k s = .next u ∧ Holds I u := by
  have c_advance' : Closed I Touched.advance := hc.mono (by decide +kernel)
  have c_putStream' : Closed I Touched.putStream := hc.mono (by decide +kernel)
  have c_refreshRegion' : Closed I Touched.refreshRegion := hc.mono (by decide +kernel)
  have c_onSlot' : Closed I Touched.onSlot := hc.mono (by decide +kernel)
  refine ⟨_, rfl, ?_⟩
  try dsimp only
  repeat' first | (guard_target =ₐ Holds I s; exact hk) | simp only [id_eq] | with_reducible apply keeps_advance c_advance' | with_reducible apply keeps_putStream c_putStream' | with_reducible apply keeps_refreshRegion c_refreshRegion' | with_reducible apply keeps_onSlot c_onSlot' | with_reducible apply Keeps.foldl (I := I) | with_reducible apply Keeps.foldl₂ (I := I) | with_reducible apply Keeps.ite (I := I) | split | intro s _ _ hk | intro s _ hk | intro s hk | with_reducible exact hk

theorem keeps_execFlush (hc : Closed I Touches.flush) {s : State} (hk : Holds I s) (t : Instant) (k : Fin 17) : ∃ u, execFlush t k s = .next u ∧ Holds I u := by
  have c_advance' : Closed I Touched.advance := hc.mono (by decide +kernel)
  have c_hostWrite' : Closed I Touched.hostWrite := hc.mono (by decide +kernel)
  have c_seal' : Closed I Touched.seal := hc.mono (by decide +kernel)
  refine ⟨_, rfl, ?_⟩
  try dsimp only
  repeat' first | (guard_target =ₐ Holds I s; exact hk) | simp only [id_eq] | with_reducible apply keeps_advance c_advance' | with_reducible apply keeps_hostWrite c_hostWrite' | with_reducible apply keeps_seal c_seal' | with_reducible apply Keeps.foldl (I := I) | with_reducible apply Keeps.foldl₂ (I := I) | with_reducible apply Keeps.ite (I := I) | split | intro s _ _ hk | intro s _ hk | intro s hk | with_reducible exact hk

theorem keeps_execResendBlock (hc : Closed I Touches.resendBlock) {s : State} (hk : Holds I s) (t : Instant) (k : Fin 17) (seq : BitVec 64) : ∃ u, execResendBlock t k seq s = .next u ∧ Holds I u := by
  have c_hostCommand' : Closed I Touched.hostCommand := hc.mono (by decide +kernel)
  have c_advance' : Closed I Touched.advance := hc.mono (by decide +kernel)
  have c_reply' : Closed I Touched.reply := hc.mono (by decide +kernel)
  have c_putStream' : Closed I Touched.putStream := hc.mono (by decide +kernel)
  have c_skEvent' : Closed I Touched.skEvent := hc.mono (by decide +kernel)
  refine ⟨_, rfl, ?_⟩
  try dsimp only
  repeat' first | (guard_target =ₐ Holds I s; exact hk) | simp only [id_eq] | with_reducible apply keeps_hostCommand c_hostCommand' | with_reducible apply keeps_advance c_advance' | with_reducible apply keeps_reply c_reply' | with_reducible apply keeps_putStream c_putStream' | with_reducible apply keeps_skEvent c_skEvent' | with_reducible apply Keeps.foldl (I := I) | with_reducible apply Keeps.foldl₂ (I := I) | with_reducible apply Keeps.ite (I := I) | split | intro s _ _ hk | intro s _ hk | intro s hk | with_reducible exact hk

theorem keeps_execSkeinCheckpoint (hc : Closed I Touches.skeinCheckpoint) {s : State} (hk : Holds I s) (t : Instant) : ∃ u, execSkeinCheckpoint t s = .next u ∧ Holds I u := by
  have c_skein : Closed I { parts := [.skein] } := hc.mono (by decide +kernel)
  have c_advance' : Closed I Touched.advance := hc.mono (by decide +kernel)
  have c_checkpoint' : Closed I Touched.checkpoint := hc.mono (by decide +kernel)
  refine ⟨_, rfl, ?_⟩
  try dsimp only
  repeat' first | (guard_target =ₐ Holds I s; exact hk) | simp only [ic_mk, id_eq] | with_reducible refine ic_skein c_skein (ic_fold ?_) | with_reducible apply keeps_advance c_advance' | with_reducible apply keeps_wr | with_reducible apply keeps_each | with_reducible apply keeps_checkpoint c_checkpoint' | with_reducible apply Keeps.foldl (I := I) | with_reducible apply Keeps.foldl₂ (I := I) | with_reducible apply Keeps.ite (I := I) | exact hc.mono (by decide +kernel) | split | intro s _ _ hk | intro s _ hk | intro s hk | with_reducible exact hk

theorem keeps_execStConsumedWrite (hc : Closed I Touches.stConsumedWrite) {s : State} (hk : Holds I s) (t : Instant) (k : Fin 17) (seq : BitVec 64) : ∃ u, execStConsumedWrite t k seq s = .next u ∧ Holds I u := by
  have c_advance' : Closed I Touched.advance := hc.mono (by decide +kernel)
  have c_hostWrite' : Closed I Touched.hostWrite := hc.mono (by decide +kernel)
  have c_discardOther' : Closed I Touched.discardOther := hc.mono (by decide +kernel)
  have c_skEvent' : Closed I Touched.skEvent := hc.mono (by decide +kernel)
  have c_refreshRegion' : Closed I Touched.refreshRegion := hc.mono (by decide +kernel)
  have c_putStream' : Closed I Touched.putStream := hc.mono (by decide +kernel)
  refine ⟨_, rfl, ?_⟩
  try dsimp only
  repeat' first | (guard_target =ₐ Holds I s; exact hk) | simp only [id_eq] | with_reducible apply keeps_advance c_advance' | with_reducible apply keeps_hostWrite c_hostWrite' | with_reducible apply keeps_discardOther c_discardOther' | with_reducible apply keeps_skEvent c_skEvent' | with_reducible apply keeps_wr | with_reducible apply keeps_refreshRegion c_refreshRegion' | with_reducible apply keeps_putStream c_putStream' | with_reducible apply Keeps.foldl (I := I) | with_reducible apply Keeps.foldl₂ (I := I) | with_reducible apply Keeps.ite (I := I) | exact hc.mono (by decide +kernel) | split | intro s _ _ hk | intro s _ hk | intro s hk | with_reducible exact hk

theorem keeps_execTapSample (hc : Closed I Touches.tapSample) {s : State} (hk : Holds I s) (t : Instant) (n : Fin 8192) (at_ : Instant) (data : Word) : ∃ u, execTapSample t n at_ data s = .next u ∧ Holds I u := by
  have c_advance' : Closed I Touched.advance := hc.mono (by decide +kernel)
  have c_strobeAin' : Closed I Touched.strobeAin := hc.mono (by decide +kernel)
  have c_takeTap' : Closed I Touched.takeTap := hc.mono (by decide +kernel)
  have c_awaitAin' : Closed I Touched.awaitAin := hc.mono (by decide +kernel)
  refine ⟨_, rfl, ?_⟩
  try dsimp only
  repeat' first | (guard_target =ₐ Holds I s; exact hk) | simp only [id_eq] | with_reducible apply keeps_advance c_advance' | with_reducible apply keeps_strobeAin c_strobeAin' | with_reducible apply keeps_takeTap c_takeTap' | with_reducible apply keeps_awaitAin c_awaitAin' | with_reducible apply Keeps.foldl (I := I) | with_reducible apply Keeps.foldl₂ (I := I) | with_reducible apply Keeps.ite (I := I) | split | intro s _ _ hk | intro s _ hk | intro s hk | with_reducible exact hk

end Sys2Proof.Machine
end

