-- ==== Sys2Proof/Laws/Keeps/Tandem.lean ====
section
/-! SUPPORT.  What the operations of Machine/Tandem.lean touch, and that they keep every property
closed under it. -/

namespace Sys2Proof.Machine

open Sys2Proof

set_option Elab.async false
set_option linter.unusedSimpArgs false
set_option linter.unusedVariables false
set_option linter.unusedTactic false
set_option linter.unreachableTactic false

variable {I : State → Prop}

def Touched.tdCommand : Touch :=
  { regs := [F.TD_EVENT, F.SYS_DISCARD_REASON, F.SYS_DISCARD_OFFSET, F.SYS_DISCARD_CNT, F.MBX_STATE_COMP, F.PV_SEQ,
      F.MSIX_PBA],
    parts := [.tandem, .host, .answer, .dram] }

theorem keeps_tdCommand (hc : Closed I Touched.tdCommand) {s : State} (hk : Holds I s) (value : Word) (bit : Nat) (ok : State → Bool) (f : State → State) (hf4 : ∀ s, Holds I s → Holds I (f s)) : Holds I (State.tdCommand s value bit ok f) := by
  have c_hostWrite' : Closed I Touched.hostWrite := hc.mono (by decide +kernel)
  have c_tdEvent' : Closed I Touched.tdEvent := hc.mono (by decide +kernel)
  unfold State.tdCommand
  try dsimp only
  repeat' first | (guard_target =ₐ Holds I s; exact hk) | simp only [id_eq] | with_reducible apply keeps_hostWrite c_hostWrite' | with_reducible apply keeps_tdEvent c_tdEvent' | with_reducible apply Keeps.foldl (I := I) | with_reducible apply Keeps.foldl₂ (I := I) | with_reducible apply Keeps.ite (I := I) | split | with_reducible apply hf4 | intro s _ _ hk | intro s _ hk | intro s hk | with_reducible exact hk

def Touched.transferred : Touch :=
  { regs := [F.TD_SYNC_AVG] }

theorem keeps_transferred (hc : Closed I Touched.transferred) {s : State} (hk : Holds I s) (x : Syncing) : Holds I (State.transferred s x) := by
  unfold State.transferred
  try dsimp only
  repeat' first | (guard_target =ₐ Holds I s; exact hk) | simp only [id_eq] | with_reducible apply keeps_wr | with_reducible apply Keeps.foldl (I := I) | with_reducible apply Keeps.foldl₂ (I := I) | with_reducible apply Keeps.ite (I := I) | exact hc.mono (by decide +kernel) | split | intro s _ _ hk | intro s _ hk | intro s hk | with_reducible exact hk

theorem keeps_execCatchUpDone (hc : Closed I Touches.catchUpDone) {s : State} (hk : Holds I s) (t : Instant) (state : Snapshot) : ∃ u, execCatchUpDone t state s = .next u ∧ Holds I u := by
  have c_advance' : Closed I Touched.advance := hc.mono (by decide +kernel)
  have c_restoreSnapshot' : Closed I Touched.restoreSnapshot := hc.mono (by decide +kernel)
  refine ⟨_, rfl, ?_⟩
  try dsimp only
  repeat' first | (guard_target =ₐ Holds I s; exact hk) | simp only [id_eq] | with_reducible apply keeps_advance c_advance' | with_reducible apply keeps_wr | with_reducible apply keeps_restoreSnapshot c_restoreSnapshot' | with_reducible apply Keeps.foldl (I := I) | with_reducible apply Keeps.foldl₂ (I := I) | with_reducible apply Keeps.ite (I := I) | exact hc.mono (by decide +kernel) | split | intro s _ _ hk | intro s _ hk | intro s hk | with_reducible exact hk

theorem keeps_execCheck (hc : Closed I Touches.check) {s : State} (hk : Holds I s) (t : Instant) (c : Contrail) (report : Option Bool) : ∃ u, execCheck t c report s = .next u ∧ Holds I u := by
  have c_judge' : Closed I Touched.judge := hc.mono (by decide +kernel)
  have c_onTandem' : Closed I Touched.onTandem := hc.mono (by decide +kernel)
  have c_onFrame' : Closed I Touched.onFrame := hc.mono (by decide +kernel)
  have c_advance' : Closed I Touched.advance := hc.mono (by decide +kernel)
  refine ⟨_, rfl, ?_⟩
  try dsimp only
  repeat' first | (guard_target =ₐ Holds I s; exact hk) | simp only [id_eq] | with_reducible apply keeps_judge c_judge' | with_reducible apply keeps_onTandem c_onTandem' | with_reducible apply keeps_onFrame c_onFrame' | with_reducible apply keeps_advance c_advance' | with_reducible apply Keeps.foldl (I := I) | with_reducible apply Keeps.foldl₂ (I := I) | with_reducible apply Keeps.ite (I := I) | split | intro s _ _ hk | intro s _ hk | intro s hk | with_reducible exact hk

theorem keeps_execCmd (hc : Closed I Touches.cmd) {s : State} (hk : Holds I s) (t : Instant) (c : Contrail) (at_ : Instant) : ∃ u, execCmd t c at_ s = .next u ∧ Holds I u := by
  have c_onFrame' : Closed I Touched.onFrame := hc.mono (by decide +kernel)
  have c_onTandem' : Closed I Touched.onTandem := hc.mono (by decide +kernel)
  refine ⟨_, rfl, ?_⟩
  try dsimp only
  repeat' first | (guard_target =ₐ Holds I s; exact hk) | simp only [id_eq] | with_reducible apply keeps_onFrame c_onFrame' | with_reducible apply keeps_onTandem c_onTandem' | with_reducible apply Keeps.foldl (I := I) | with_reducible apply Keeps.foldl₂ (I := I) | with_reducible apply Keeps.ite (I := I) | split | intro s _ _ hk | intro s _ hk | intro s hk | with_reducible exact hk

theorem keeps_execCommit (hc : Closed I Touches.commit) {s : State} (hk : Holds I s) (t : Instant) (c : Contrail) (term : BitVec 16) (x : Instant) : ∃ u, execCommit t c term x s = .next u ∧ Holds I u := by
  have c_onFrame' : Closed I Touched.onFrame := hc.mono (by decide +kernel)
  have c_onTandem' : Closed I Touched.onTandem := hc.mono (by decide +kernel)
  refine ⟨_, rfl, ?_⟩
  try dsimp only
  repeat' first | (guard_target =ₐ Holds I s; exact hk) | simp only [id_eq] | with_reducible apply keeps_onFrame c_onFrame' | with_reducible apply keeps_onTandem c_onTandem' | with_reducible apply Keeps.foldl (I := I) | with_reducible apply Keeps.foldl₂ (I := I) | with_reducible apply Keeps.ite (I := I) | split | intro s _ _ hk | intro s _ hk | intro s hk | with_reducible exact hk

theorem keeps_execCommitDeadline (hc : Closed I Touches.commitDeadline) {s : State} (hk : Holds I s) (t : Instant) : ∃ u, execCommitDeadline t s = .next u ∧ Holds I u := by
  have c_advance' : Closed I Touched.advance := hc.mono (by decide +kernel)
  have c_tdNote' : Closed I Touched.tdNote := hc.mono (by decide +kernel)
  have c_onTandem' : Closed I Touched.onTandem := hc.mono (by decide +kernel)
  refine ⟨_, rfl, ?_⟩
  try dsimp only
  repeat' first | (guard_target =ₐ Holds I s; exact hk) | simp only [id_eq] | with_reducible apply keeps_advance c_advance' | with_reducible apply keeps_tdNote c_tdNote' | with_reducible apply keeps_onTandem c_onTandem' | with_reducible apply Keeps.foldl (I := I) | with_reducible apply Keeps.foldl₂ (I := I) | with_reducible apply Keeps.ite (I := I) | split | intro s _ _ hk | intro s _ hk | intro s hk | with_reducible exact hk

theorem keeps_execDigest (hc : Closed I Touches.digest) {s : State} (hk : Holds I s) (t : Instant) (c : Contrail) (r : Fin 4) (cycle : Instant) (digest : BitVec 64) : ∃ u, execDigest t c r cycle digest s = .next u ∧ Holds I u := by
  have c_onFrame' : Closed I Touched.onFrame := hc.mono (by decide +kernel)
  have c_compareDigests' : Closed I Touched.compareDigests := hc.mono (by decide +kernel)
  have c_putPair' : Closed I Touched.putPair := hc.mono (by decide +kernel)
  refine ⟨_, rfl, ?_⟩
  try dsimp only
  repeat' first | (guard_target =ₐ Holds I s; exact hk) | simp only [id_eq] | with_reducible apply keeps_onFrame c_onFrame' | with_reducible apply keeps_compareDigests c_compareDigests' | with_reducible apply keeps_putPair c_putPair' | with_reducible apply Keeps.foldl (I := I) | with_reducible apply Keeps.foldl₂ (I := I) | with_reducible apply Keeps.ite (I := I) | split | intro s _ _ hk | intro s _ hk | intro s hk | with_reducible exact hk

theorem keeps_execExecutionInstant (hc : Closed I Touches.executionInstant) {s : State} (hk : Holds I s) (t : Instant) (acked : Bool) : ∃ u, execExecutionInstant t acked s = .next u ∧ Holds I u := by
  have c_advance' : Closed I Touched.advance := hc.mono (by decide +kernel)
  have c_onTandem' : Closed I Touched.onTandem := hc.mono (by decide +kernel)
  refine ⟨_, rfl, ?_⟩
  try dsimp only
  repeat' first | (guard_target =ₐ Holds I s; exact hk) | simp only [id_eq] | with_reducible apply keeps_advance c_advance' | with_reducible apply keeps_onTandem c_onTandem' | with_reducible apply keeps_wr | with_reducible apply Keeps.foldl (I := I) | with_reducible apply Keeps.foldl₂ (I := I) | with_reducible apply Keeps.ite (I := I) | exact hc.mono (by decide +kernel) | split | intro s _ _ hk | intro s _ hk | intro s hk | with_reducible exact hk

theorem keeps_execHandover (hc : Closed I Touches.handover) {s : State} (hk : Holds I s) (t : Instant) (c : Contrail) (term : BitVec 16) (x : Instant) : ∃ u, execHandover t c term x s = .next u ∧ Holds I u := by
  have c_onFrame' : Closed I Touched.onFrame := hc.mono (by decide +kernel)
  have c_sendFrame' : Closed I Touched.sendFrame := hc.mono (by decide +kernel)
  have c_onTandem' : Closed I Touched.onTandem := hc.mono (by decide +kernel)
  refine ⟨_, rfl, ?_⟩
  try dsimp only
  repeat' first | (guard_target =ₐ Holds I s; exact hk) | simp only [id_eq] | with_reducible apply keeps_onFrame c_onFrame' | with_reducible apply keeps_sendFrame c_sendFrame' | with_reducible apply keeps_onTandem c_onTandem' | with_reducible apply Keeps.foldl (I := I) | with_reducible apply Keeps.foldl₂ (I := I) | with_reducible apply Keeps.ite (I := I) | split | intro s _ _ hk | intro s _ hk | intro s hk | with_reducible exact hk

theorem keeps_execHandoverAck (hc : Closed I Touches.handoverAck) {s : State} (hk : Holds I s) (t : Instant) (c : Contrail) (term : BitVec 16) (x : Instant) : ∃ u, execHandoverAck t c term x s = .next u ∧ Holds I u := by
  have c_onFrame' : Closed I Touched.onFrame := hc.mono (by decide +kernel)
  have c_sendFrame' : Closed I Touched.sendFrame := hc.mono (by decide +kernel)
  have c_onTandem' : Closed I Touched.onTandem := hc.mono (by decide +kernel)
  refine ⟨_, rfl, ?_⟩
  try dsimp only
  repeat' first | (guard_target =ₐ Holds I s; exact hk) | simp only [id_eq] | with_reducible apply keeps_onFrame c_onFrame' | with_reducible apply keeps_sendFrame c_sendFrame' | with_reducible apply keeps_onTandem c_onTandem' | with_reducible apply Keeps.foldl (I := I) | with_reducible apply Keeps.foldl₂ (I := I) | with_reducible apply Keeps.ite (I := I) | split | intro s _ _ hk | intro s _ hk | intro s hk | with_reducible exact hk

theorem keeps_execHandoverInstant (hc : Closed I Touches.handoverInstant) {s : State} (hk : Holds I s) (t : Instant) : ∃ u, execHandoverInstant t s = .next u ∧ Holds I u := by
  have c_advance' : Closed I Touched.advance := hc.mono (by decide +kernel)
  have c_onTandem' : Closed I Touched.onTandem := hc.mono (by decide +kernel)
  have c_becomeOffline' : Closed I Touched.becomeOffline := hc.mono (by decide +kernel)
  have c_tdNote' : Closed I Touched.tdNote := hc.mono (by decide +kernel)
  have c_putRole' : Closed I Touched.putRole := hc.mono (by decide +kernel)
  have c_takeToken' : Closed I Touched.takeToken := hc.mono (by decide +kernel)
  refine ⟨_, rfl, ?_⟩
  try dsimp only
  repeat' first | (guard_target =ₐ Holds I s; exact hk) | simp only [id_eq] | with_reducible apply keeps_advance c_advance' | with_reducible apply keeps_wrT | with_reducible apply keeps_onTandem c_onTandem' | with_reducible apply keeps_wr | with_reducible apply keeps_becomeOffline c_becomeOffline' | with_reducible apply keeps_tdNote c_tdNote' | with_reducible apply keeps_putRole c_putRole' | with_reducible apply keeps_takeToken c_takeToken' | with_reducible apply Keeps.foldl (I := I) | with_reducible apply Keeps.foldl₂ (I := I) | with_reducible apply Keeps.ite (I := I) | exact hc.mono (by decide +kernel) | split | intro s _ _ hk | intro s _ hk | intro s hk | with_reducible exact hk

theorem keeps_execHaveSend (hc : Closed I Touches.haveSend) {s : State} (hk : Holds I s) (t : Instant) (r : Fin 4) : ∃ u, execHaveSend t r s = .next u ∧ Holds I u := by
  have c_advance' : Closed I Touched.advance := hc.mono (by decide +kernel)
  have c_mergeCopies' : Closed I Touched.mergeCopies := hc.mono (by decide +kernel)
  have c_sendFrame' : Closed I Touched.sendFrame := hc.mono (by decide +kernel)
  have c_putPair' : Closed I Touched.putPair := hc.mono (by decide +kernel)
  refine ⟨_, rfl, ?_⟩
  try dsimp only
  repeat' first | (guard_target =ₐ Holds I s; exact hk) | simp only [id_eq] | with_reducible apply keeps_advance c_advance' | with_reducible apply keeps_mergeCopies c_mergeCopies' | with_reducible apply keeps_sendFrame c_sendFrame' | with_reducible apply keeps_putPair c_putPair' | with_reducible apply Keeps.foldl (I := I) | with_reducible apply Keeps.foldl₂ (I := I) | with_reducible apply Keeps.ite (I := I) | split | intro s _ _ hk | intro s _ hk | intro s hk | with_reducible exact hk

theorem keeps_execHave_ (hc : Closed I Touches.have_) {s : State} (hk : Holds I s) (t : Instant) (c : Contrail) (r : Fin 4) (cycle : Instant) (have_ : Bool) : ∃ u, execHave_ t c r cycle have_ s = .next u ∧ Holds I u := by
  have c_onFrame' : Closed I Touched.onFrame := hc.mono (by decide +kernel)
  have c_putPair' : Closed I Touched.putPair := hc.mono (by decide +kernel)
  refine ⟨_, rfl, ?_⟩
  try dsimp only
  repeat' first | (guard_target =ₐ Holds I s; exact hk) | simp only [id_eq] | with_reducible apply keeps_onFrame c_onFrame' | with_reducible apply keeps_putPair c_putPair' | with_reducible apply Keeps.foldl (I := I) | with_reducible apply Keeps.foldl₂ (I := I) | with_reducible apply Keeps.ite (I := I) | split | intro s _ _ hk | intro s _ hk | intro s hk | with_reducible exact hk

theorem keeps_execInputs (hc : Closed I Touches.inputs) {s : State} (hk : Holds I s) (t : Instant) (c : Contrail) (r : Fin 4) (cycle : Instant) (bytes : List Byte) : ∃ u, execInputs t c r cycle bytes s = .next u ∧ Holds I u := by
  have c_onFrame' : Closed I Touched.onFrame := hc.mono (by decide +kernel)
  have c_putPair' : Closed I Touched.putPair := hc.mono (by decide +kernel)
  refine ⟨_, rfl, ?_⟩
  try dsimp only
  repeat' first | (guard_target =ₐ Holds I s; exact hk) | simp only [id_eq] | with_reducible apply keeps_onFrame c_onFrame' | with_reducible apply keeps_putPair c_putPair' | with_reducible apply Keeps.foldl (I := I) | with_reducible apply Keeps.foldl₂ (I := I) | with_reducible apply Keeps.ite (I := I) | split | intro s _ _ hk | intro s _ hk | intro s hk | with_reducible exact hk

theorem keeps_execJoin (hc : Closed I Touches.join) {s : State} (hk : Holds I s) (t : Instant) (value : Word) : ∃ u, execJoin t value s = .next u ∧ Holds I u := by
  have c_tdCommand' : Closed I Touched.tdCommand := hc.mono (by decide +kernel)
  have c_advance' : Closed I Touched.advance := hc.mono (by decide +kernel)
  have c_tryJoin' : Closed I Touched.tryJoin := hc.mono (by decide +kernel)
  have c_onTandem' : Closed I Touched.onTandem := hc.mono (by decide +kernel)
  refine ⟨_, rfl, ?_⟩
  try dsimp only
  repeat' first | (guard_target =ₐ Holds I s; exact hk) | simp only [id_eq] | with_reducible apply keeps_tdCommand c_tdCommand' | with_reducible apply keeps_advance c_advance' | with_reducible apply keeps_tryJoin c_tryJoin' | with_reducible apply keeps_onTandem c_onTandem' | with_reducible apply Keeps.foldl (I := I) | with_reducible apply Keeps.foldl₂ (I := I) | with_reducible apply Keeps.ite (I := I) | split | intro s _ _ hk | intro s _ hk | intro s hk | with_reducible exact hk

theorem keeps_execLapse (hc : Closed I Touches.lapse) {s : State} (hk : Holds I s) (t : Instant) : ∃ u, execLapse t s = .next u ∧ Holds I u := by
  have c_advance' : Closed I Touched.advance := hc.mono (by decide +kernel)
  have c_loseSync' : Closed I Touched.loseSync := hc.mono (by decide +kernel)
  refine ⟨_, rfl, ?_⟩
  try dsimp only
  repeat' first | (guard_target =ₐ Holds I s; exact hk) | simp only [id_eq] | with_reducible apply keeps_advance c_advance' | with_reducible apply keeps_loseSync c_loseSync' | with_reducible apply Keeps.foldl (I := I) | with_reducible apply Keeps.foldl₂ (I := I) | with_reducible apply Keeps.ite (I := I) | split | intro s _ _ hk | intro s _ hk | intro s hk | with_reducible exact hk

theorem keeps_execLeave (hc : Closed I Touches.leave) {s : State} (hk : Holds I s) (t : Instant) (value : Word) : ∃ u, execLeave t value s = .next u ∧ Holds I u := by
  have c_tdCommand' : Closed I Touched.tdCommand := hc.mono (by decide +kernel)
  have c_advance' : Closed I Touched.advance := hc.mono (by decide +kernel)
  have c_becomeOffline' : Closed I Touched.becomeOffline := hc.mono (by decide +kernel)
  refine ⟨_, rfl, ?_⟩
  try dsimp only
  repeat' first | (guard_target =ₐ Holds I s; exact hk) | simp only [id_eq] | with_reducible apply keeps_tdCommand c_tdCommand' | with_reducible apply keeps_advance c_advance' | with_reducible apply keeps_becomeOffline c_becomeOffline' | with_reducible apply Keeps.foldl (I := I) | with_reducible apply Keeps.foldl₂ (I := I) | with_reducible apply Keeps.ite (I := I) | split | intro s _ _ hk | intro s _ hk | intro s hk | with_reducible exact hk

theorem keeps_execLinkLost (hc : Closed I Touches.linkLost) {s : State} (hk : Holds I s) (t : Instant) : ∃ u, execLinkLost t s = .next u ∧ Holds I u := by
  have c_advance' : Closed I Touched.advance := hc.mono (by decide +kernel)
  have c_loseLink' : Closed I Touched.loseLink := hc.mono (by decide +kernel)
  refine ⟨_, rfl, ?_⟩
  try dsimp only
  repeat' first | (guard_target =ₐ Holds I s; exact hk) | simp only [id_eq] | with_reducible apply keeps_advance c_advance' | with_reducible apply keeps_loseLink c_loseLink' | with_reducible apply Keeps.foldl (I := I) | with_reducible apply Keeps.foldl₂ (I := I) | with_reducible apply Keeps.ite (I := I) | split | intro s _ _ hk | intro s _ hk | intro s hk | with_reducible exact hk

theorem keeps_execLinkUp (hc : Closed I Touches.linkUp) {s : State} (hk : Holds I s) (t : Instant) (same : Bool) : ∃ u, execLinkUp t same s = .next u ∧ Holds I u := by
  have c_advance' : Closed I Touched.advance := hc.mono (by decide +kernel)
  have c_putPair' : Closed I Touched.putPair := hc.mono (by decide +kernel)
  have c_tryJoin' : Closed I Touched.tryJoin := hc.mono (by decide +kernel)
  have c_showSync' : Closed I Touched.showSync := hc.mono (by decide +kernel)
  have c_startSync' : Closed I Touched.startSync := hc.mono (by decide +kernel)
  have c_becomeRepaired' : Closed I Touched.becomeRepaired := hc.mono (by decide +kernel)
  refine ⟨_, rfl, ?_⟩
  try dsimp only
  repeat' first | (guard_target =ₐ Holds I s; exact hk) | simp only [id_eq] | with_reducible apply keeps_advance c_advance' | with_reducible apply keeps_each | with_reducible apply keeps_wr | with_reducible apply keeps_putPair c_putPair' | with_reducible apply keeps_tryJoin c_tryJoin' | with_reducible apply keeps_showSync c_showSync' | with_reducible apply keeps_startSync c_startSync' | with_reducible apply keeps_becomeRepaired c_becomeRepaired' | with_reducible apply Keeps.foldl (I := I) | with_reducible apply Keeps.foldl₂ (I := I) | with_reducible apply Keeps.ite (I := I) | exact hc.mono (by decide +kernel) | split | intro s _ _ hk | intro s _ hk | intro s hk | with_reducible exact hk

theorem keeps_execRapidSelfCheckDone (hc : Closed I Touches.rapidSelfCheckDone) {s : State} (hk : Holds I s) (t : Instant) (pass : Bool) : ∃ u, execRapidSelfCheckDone t pass s = .next u ∧ Holds I u := by
  have c_advance' : Closed I Touched.advance := hc.mono (by decide +kernel)
  have c_onTandem' : Closed I Touched.onTandem := hc.mono (by decide +kernel)
  have c_judge' : Closed I Touched.judge := hc.mono (by decide +kernel)
  have c_sendFrame' : Closed I Touched.sendFrame := hc.mono (by decide +kernel)
  refine ⟨_, rfl, ?_⟩
  try dsimp only
  repeat' first | (guard_target =ₐ Holds I s; exact hk) | simp only [id_eq] | with_reducible apply keeps_advance c_advance' | with_reducible apply keeps_onTandem c_onTandem' | with_reducible apply keeps_judge c_judge' | with_reducible apply keeps_sendFrame c_sendFrame' | with_reducible apply Keeps.foldl (I := I) | with_reducible apply Keeps.foldl₂ (I := I) | with_reducible apply Keeps.ite (I := I) | split | intro s _ _ hk | intro s _ hk | intro s hk | with_reducible exact hk

theorem keeps_execRenew (hc : Closed I Touches.renew) {s : State} (hk : Holds I s) (t : Instant) (c : Contrail) (term : BitVec 16) (e : Instant) : ∃ u, execRenew t c term e s = .next u ∧ Holds I u := by
  have c_onFrame' : Closed I Touched.onFrame := hc.mono (by decide +kernel)
  have c_sendFrame' : Closed I Touched.sendFrame := hc.mono (by decide +kernel)
  have c_putExpiry' : Closed I Touched.putExpiry := hc.mono (by decide +kernel)
  refine ⟨_, rfl, ?_⟩
  try dsimp only
  repeat' first | (guard_target =ₐ Holds I s; exact hk) | simp only [id_eq] | with_reducible apply keeps_onFrame c_onFrame' | with_reducible apply keeps_sendFrame c_sendFrame' | with_reducible apply keeps_putExpiry c_putExpiry' | with_reducible apply keeps_wr | with_reducible apply Keeps.foldl (I := I) | with_reducible apply Keeps.foldl₂ (I := I) | with_reducible apply Keeps.ite (I := I) | exact hc.mono (by decide +kernel) | split | intro s _ _ hk | intro s _ hk | intro s hk | with_reducible exact hk

theorem keeps_execRenewAck (hc : Closed I Touches.renewAck) {s : State} (hk : Holds I s) (t : Instant) (c : Contrail) (term : BitVec 16) (e : Instant) : ∃ u, execRenewAck t c term e s = .next u ∧ Holds I u := by
  have c_onFrame' : Closed I Touched.onFrame := hc.mono (by decide +kernel)
  have c_putExpiry' : Closed I Touched.putExpiry := hc.mono (by decide +kernel)
  refine ⟨_, rfl, ?_⟩
  try dsimp only
  repeat' first | (guard_target =ₐ Holds I s; exact hk) | simp only [id_eq] | with_reducible apply keeps_onFrame c_onFrame' | with_reducible apply keeps_putExpiry c_putExpiry' | with_reducible apply Keeps.foldl (I := I) | with_reducible apply Keeps.foldl₂ (I := I) | with_reducible apply Keeps.ite (I := I) | split | intro s _ _ hk | intro s _ hk | intro s hk | with_reducible exact hk

theorem keeps_execRenewalInstant (hc : Closed I Touches.renewalInstant) {s : State} (hk : Holds I s) (t : Instant) : ∃ u, execRenewalInstant t s = .next u ∧ Holds I u := by
  have c_advance' : Closed I Touched.advance := hc.mono (by decide +kernel)
  have c_showWitness' : Closed I Touched.showWitness := hc.mono (by decide +kernel)
  have c_sendFrame' : Closed I Touched.sendFrame := hc.mono (by decide +kernel)
  have c_putExpiry' : Closed I Touched.putExpiry := hc.mono (by decide +kernel)
  have c_putPair' : Closed I Touched.putPair := hc.mono (by decide +kernel)
  refine ⟨_, rfl, ?_⟩
  try dsimp only
  repeat' first | (guard_target =ₐ Holds I s; exact hk) | simp only [id_eq] | with_reducible apply keeps_advance c_advance' | with_reducible apply keeps_showWitness c_showWitness' | with_reducible apply keeps_sendFrame c_sendFrame' | with_reducible apply keeps_putExpiry c_putExpiry' | with_reducible apply keeps_each | with_reducible apply keeps_putPair c_putPair' | with_reducible apply Keeps.foldl (I := I) | with_reducible apply Keeps.foldl₂ (I := I) | with_reducible apply Keeps.ite (I := I) | split | intro s _ _ hk | intro s _ hk | intro s hk | with_reducible exact hk

theorem keeps_execReplayTimeout (hc : Closed I Touches.replayTimeout) {s : State} (hk : Holds I s) (t : Instant) : ∃ u, execReplayTimeout t s = .next u ∧ Holds I u := by
  have c_advance' : Closed I Touched.advance := hc.mono (by decide +kernel)
  have c_syncFails' : Closed I Touched.syncFails := hc.mono (by decide +kernel)
  refine ⟨_, rfl, ?_⟩
  try dsimp only
  repeat' first | (guard_target =ₐ Holds I s; exact hk) | simp only [id_eq] | with_reducible apply keeps_advance c_advance' | with_reducible apply keeps_syncFails c_syncFails' | with_reducible apply Keeps.foldl (I := I) | with_reducible apply Keeps.foldl₂ (I := I) | with_reducible apply Keeps.ite (I := I) | split | intro s _ _ hk | intro s _ hk | intro s hk | with_reducible exact hk

theorem keeps_execResync (hc : Closed I Touches.resync) {s : State} (hk : Holds I s) (t : Instant) (value : Word) (same : Bool) : ∃ u, execResync t value same s = .next u ∧ Holds I u := by
  have c_tdCommand' : Closed I Touched.tdCommand := hc.mono (by decide +kernel)
  have c_advance' : Closed I Touched.advance := hc.mono (by decide +kernel)
  have c_startSync' : Closed I Touched.startSync := hc.mono (by decide +kernel)
  have c_becomeRepaired' : Closed I Touched.becomeRepaired := hc.mono (by decide +kernel)
  refine ⟨_, rfl, ?_⟩
  try dsimp only
  repeat' first | (guard_target =ₐ Holds I s; exact hk) | simp only [id_eq] | with_reducible apply keeps_tdCommand c_tdCommand' | with_reducible apply keeps_advance c_advance' | with_reducible apply keeps_startSync c_startSync' | with_reducible apply keeps_becomeRepaired c_becomeRepaired' | with_reducible apply Keeps.foldl (I := I) | with_reducible apply Keeps.foldl₂ (I := I) | with_reducible apply Keeps.ite (I := I) | split | intro s _ _ hk | intro s _ hk | intro s hk | with_reducible exact hk

theorem keeps_execResyncRetry (hc : Closed I Touches.resyncRetry) {s : State} (hk : Holds I s) (t : Instant) (same : Bool) : ∃ u, execResyncRetry t same s = .next u ∧ Holds I u := by
  have c_advance' : Closed I Touched.advance := hc.mono (by decide +kernel)
  have c_startSync' : Closed I Touched.startSync := hc.mono (by decide +kernel)
  refine ⟨_, rfl, ?_⟩
  try dsimp only
  repeat' first | (guard_target =ₐ Holds I s; exact hk) | simp only [id_eq] | with_reducible apply keeps_advance c_advance' | with_reducible apply keeps_startSync c_startSync' | with_reducible apply Keeps.foldl (I := I) | with_reducible apply Keeps.foldl₂ (I := I) | with_reducible apply Keeps.ite (I := I) | split | intro s _ _ hk | intro s _ hk | intro s hk | with_reducible exact hk

theorem keeps_execSnap (hc : Closed I Touches.snap) {s : State} (hk : Holds I s) (t : Instant) (c : Contrail) (chunk : Word) (chunks : Word) (whole : Snapshot) : ∃ u, execSnap t c chunk chunks whole s = .next u ∧ Holds I u := by
  have c_onFrame' : Closed I Touched.onFrame := hc.mono (by decide +kernel)
  have c_sendFrame' : Closed I Touched.sendFrame := hc.mono (by decide +kernel)
  have c_onTandem' : Closed I Touched.onTandem := hc.mono (by decide +kernel)
  have c_transferred' : Closed I Touched.transferred := hc.mono (by decide +kernel)
  refine ⟨_, rfl, ?_⟩
  try dsimp only
  repeat' first | (guard_target =ₐ Holds I s; exact hk) | simp only [id_eq] | with_reducible apply keeps_onFrame c_onFrame' | with_reducible apply keeps_sendFrame c_sendFrame' | with_reducible apply keeps_onTandem c_onTandem' | with_reducible apply keeps_wr | with_reducible apply keeps_transferred c_transferred' | with_reducible apply Keeps.foldl (I := I) | with_reducible apply Keeps.foldl₂ (I := I) | with_reducible apply Keeps.ite (I := I) | exact hc.mono (by decide +kernel) | split | intro s _ _ hk | intro s _ hk | intro s hk | with_reducible exact hk

theorem keeps_execSnapAck (hc : Closed I Touches.snapAck) {s : State} (hk : Holds I s) (t : Instant) (c : Contrail) (chunk : Word) : ∃ u, execSnapAck t c chunk s = .next u ∧ Holds I u := by
  have c_onFrame' : Closed I Touched.onFrame := hc.mono (by decide +kernel)
  have c_sendFrame' : Closed I Touched.sendFrame := hc.mono (by decide +kernel)
  have c_onTandem' : Closed I Touched.onTandem := hc.mono (by decide +kernel)
  have c_transferred' : Closed I Touched.transferred := hc.mono (by decide +kernel)
  refine ⟨_, rfl, ?_⟩
  try dsimp only
  repeat' first | (guard_target =ₐ Holds I s; exact hk) | simp only [id_eq] | with_reducible apply keeps_onFrame c_onFrame' | with_reducible apply keeps_sendFrame c_sendFrame' | with_reducible apply keeps_onTandem c_onTandem' | with_reducible apply keeps_transferred c_transferred' | with_reducible apply Keeps.foldl (I := I) | with_reducible apply Keeps.foldl₂ (I := I) | with_reducible apply Keeps.ite (I := I) | split | intro s _ _ hk | intro s _ hk | intro s hk | with_reducible exact hk

theorem keeps_execSoloStart (hc : Closed I Touches.soloStart) {s : State} (hk : Holds I s) (t : Instant) : ∃ u, execSoloStart t s = .next u ∧ Holds I u := by
  have c_advance' : Closed I Touched.advance := hc.mono (by decide +kernel)
  have c_takeToken' : Closed I Touched.takeToken := hc.mono (by decide +kernel)
  refine ⟨_, rfl, ?_⟩
  try dsimp only
  repeat' first | (guard_target =ₐ Holds I s; exact hk) | simp only [id_eq] | with_reducible apply keeps_advance c_advance' | with_reducible apply keeps_takeToken c_takeToken' | with_reducible apply Keeps.foldl (I := I) | with_reducible apply Keeps.foldl₂ (I := I) | with_reducible apply Keeps.ite (I := I) | split | intro s _ _ hk | intro s _ hk | intro s hk | with_reducible exact hk

theorem keeps_execStatus (hc : Closed I Touches.status) {s : State} (hk : Holds I s) (t : Instant) (c : Contrail) (role : Fin 5) (flags : Word) (term : BitVec 16) (rings : List Nat) : ∃ u, execStatus t c role flags term rings s = .next u ∧ Holds I u := by
  have c_onFrame' : Closed I Touched.onFrame := hc.mono (by decide +kernel)
  have c_onTandem' : Closed I Touched.onTandem := hc.mono (by decide +kernel)
  have c_tryJoin' : Closed I Touched.tryJoin := hc.mono (by decide +kernel)
  have c_loseLink' : Closed I Touched.loseLink := hc.mono (by decide +kernel)
  refine ⟨_, rfl, ?_⟩
  try dsimp only
  repeat' first | (guard_target =ₐ Holds I s; exact hk) | simp only [id_eq] | with_reducible apply keeps_onFrame c_onFrame' | with_reducible apply keeps_wr | with_reducible apply keeps_onTandem c_onTandem' | with_reducible apply keeps_tryJoin c_tryJoin' | with_reducible apply keeps_loseLink c_loseLink' | with_reducible apply Keeps.foldl (I := I) | with_reducible apply Keeps.foldl₂ (I := I) | with_reducible apply Keeps.ite (I := I) | exact hc.mono (by decide +kernel) | split | intro s _ _ hk | intro s _ hk | intro s hk | with_reducible exact hk

theorem keeps_execStatusSend (hc : Closed I Touches.statusSend) {s : State} (hk : Holds I s) (t : Instant) : ∃ u, execStatusSend t s = .next u ∧ Holds I u := by
  have c_advance' : Closed I Touched.advance := hc.mono (by decide +kernel)
  have c_sendFrame' : Closed I Touched.sendFrame := hc.mono (by decide +kernel)
  refine ⟨_, rfl, ?_⟩
  try dsimp only
  repeat' first | (guard_target =ₐ Holds I s; exact hk) | simp only [id_eq] | with_reducible apply keeps_advance c_advance' | with_reducible apply keeps_sendFrame c_sendFrame' | with_reducible apply Keeps.foldl (I := I) | with_reducible apply Keeps.foldl₂ (I := I) | with_reducible apply Keeps.ite (I := I) | split | intro s _ _ hk | intro s _ hk | intro s hk | with_reducible exact hk

theorem keeps_execSwitch (hc : Closed I Touches.switch) {s : State} (hk : Holds I s) (t : Instant) (value : Word) : ∃ u, execSwitch t value s = .next u ∧ Holds I u := by
  have c_tdCommand' : Closed I Touched.tdCommand := hc.mono (by decide +kernel)
  have c_advance' : Closed I Touched.advance := hc.mono (by decide +kernel)
  have c_startHandover' : Closed I Touched.startHandover := hc.mono (by decide +kernel)
  refine ⟨_, rfl, ?_⟩
  try dsimp only
  repeat' first | (guard_target =ₐ Holds I s; exact hk) | simp only [id_eq] | with_reducible apply keeps_tdCommand c_tdCommand' | with_reducible apply keeps_advance c_advance' | with_reducible apply keeps_startHandover c_startHandover' | with_reducible apply Keeps.foldl (I := I) | with_reducible apply Keeps.foldl₂ (I := I) | with_reducible apply Keeps.ite (I := I) | split | intro s _ _ hk | intro s _ hk | intro s hk | with_reducible exact hk

theorem keeps_execSyncInstant (hc : Closed I Touches.syncInstant) {s : State} (hk : Holds I s) (t : Instant) (chunks : Word) : ∃ u, execSyncInstant t chunks s = .next u ∧ Holds I u := by
  have c_advance' : Closed I Touched.advance := hc.mono (by decide +kernel)
  have c_sendFrame' : Closed I Touched.sendFrame := hc.mono (by decide +kernel)
  have c_onTandem' : Closed I Touched.onTandem := hc.mono (by decide +kernel)
  refine ⟨_, rfl, ?_⟩
  try dsimp only
  repeat' first | (guard_target =ₐ Holds I s; exact hk) | simp only [id_eq] | with_reducible apply keeps_advance c_advance' | with_reducible apply keeps_sendFrame c_sendFrame' | with_reducible apply keeps_onTandem c_onTandem' | with_reducible apply Keeps.foldl (I := I) | with_reducible apply Keeps.foldl₂ (I := I) | with_reducible apply Keeps.ite (I := I) | split | intro s _ _ hk | intro s _ hk | intro s hk | with_reducible exact hk

theorem keeps_execTakeover (hc : Closed I Touches.takeover) {s : State} (hk : Holds I s) (t : Instant) : ∃ u, execTakeover t s = .next u ∧ Holds I u := by
  have c_advance' : Closed I Touched.advance := hc.mono (by decide +kernel)
  have c_takeToken' : Closed I Touched.takeToken := hc.mono (by decide +kernel)
  have c_onTandem' : Closed I Touched.onTandem := hc.mono (by decide +kernel)
  have c_tdNote' : Closed I Touched.tdNote := hc.mono (by decide +kernel)
  refine ⟨_, rfl, ?_⟩
  try dsimp only
  repeat' first | (guard_target =ₐ Holds I s; exact hk) | simp only [id_eq] | with_reducible apply keeps_advance c_advance' | with_reducible apply keeps_takeToken c_takeToken' | with_reducible apply keeps_onTandem c_onTandem' | with_reducible apply keeps_wr | with_reducible apply keeps_tdNote c_tdNote' | with_reducible apply Keeps.foldl (I := I) | with_reducible apply Keeps.foldl₂ (I := I) | with_reducible apply Keeps.ite (I := I) | exact hc.mono (by decide +kernel) | split | intro s _ _ hk | intro s _ hk | intro s hk | with_reducible exact hk

theorem keeps_execTime (hc : Closed I Touches.time) {s : State} (hk : Holds I s) (t : Instant) (c : Contrail) (t1 : Instant) (t2 : Instant) (rate : Word) : ∃ u, execTime t c t1 t2 rate s = .next u ∧ Holds I u := by
  have c_onFrame' : Closed I Touched.onFrame := hc.mono (by decide +kernel)
  have c_sendFrame' : Closed I Touched.sendFrame := hc.mono (by decide +kernel)
  have c_takeOffset' : Closed I Touched.takeOffset := hc.mono (by decide +kernel)
  refine ⟨_, rfl, ?_⟩
  try dsimp only
  repeat' first | (guard_target =ₐ Holds I s; exact hk) | simp only [id_eq] | with_reducible apply keeps_onFrame c_onFrame' | with_reducible apply keeps_sendFrame c_sendFrame' | with_reducible apply keeps_takeOffset c_takeOffset' | with_reducible apply keeps_wr | with_reducible apply Keeps.foldl (I := I) | with_reducible apply Keeps.foldl₂ (I := I) | with_reducible apply Keeps.ite (I := I) | exact hc.mono (by decide +kernel) | split | intro s _ _ hk | intro s _ hk | intro s hk | with_reducible exact hk

theorem keeps_execTimeSend (hc : Closed I Touches.timeSend) {s : State} (hk : Holds I s) (t : Instant) : ∃ u, execTimeSend t s = .next u ∧ Holds I u := by
  have c_advance' : Closed I Touched.advance := hc.mono (by decide +kernel)
  have c_sendFrame' : Closed I Touched.sendFrame := hc.mono (by decide +kernel)
  refine ⟨_, rfl, ?_⟩
  try dsimp only
  repeat' first | (guard_target =ₐ Holds I s; exact hk) | simp only [id_eq] | with_reducible apply keeps_advance c_advance' | with_reducible apply keeps_sendFrame c_sendFrame' | with_reducible apply Keeps.foldl (I := I) | with_reducible apply Keeps.foldl₂ (I := I) | with_reducible apply Keeps.ite (I := I) | split | intro s _ _ hk | intro s _ hk | intro s hk | with_reducible exact hk

end Sys2Proof.Machine
end

