-- ==== Sys2Proof/Laws/Keeps/WriteRows.lean ====
section
/-! SUPPORT.  The rows that a register write runs keep what every row keeps. -/

namespace Sys2Proof.Machine

open Sys2Proof

set_option linter.unusedTactic false
set_option linter.unreachableTactic false

variable {I : State → Prop}

/-- A meaning that answers a next state and keeps. -/
def Keeps (I : State → Prop) (f : State → Out) : Prop := ∀ s, Holds I s → ∃ u, f s = .next u ∧ Holds I u

theorem keeps_ran {s : State} (hk : Holds I s) (f : State → Out) (hf : Keeps I f) : Holds I (ran f s) := by
  obtain ⟨u, hu, h⟩ := hf s hk
  simpa only [ran, hu] using h

/-- Every row of some rows keeps. -/
def RowsKeep (I : State → Prop) (o : Option Rows) : Prop := ∀ x, o = some x → ∀ f ∈ x.2, Keeps I f

theorem rowsKeep_ite {c : Prop} [Decidable c] {x : Rows} (h : ∀ f ∈ x.2, Keeps I f) : RowsKeep I (if c then some x else none) := by
  intro y hy
  split at hy
  · cases hy; exact h
  · cases hy

theorem rowsKeep_map {o : Option Nat} {g : Nat → Rows} (h : ∀ i, ∀ f ∈ (g i).2, Keeps I f) : RowsKeep I (o.map g) := by
  intro y hy
  cases o with
  | none => cases hy
  | some i => cases hy; exact h i

theorem keeps_picked {v : Word} {l : List (Nat × (State → Out))} (h : ∀ e ∈ l, Keeps I e.2) : ∀ f ∈ picked v l, Keeps I f := by
  intro f hf
  obtain ⟨e, he, rfl⟩ := List.mem_map.mp hf
  exact h e (List.mem_filter.mp he).1

theorem keeps_nil : ∀ f ∈ ([] : List (State → Out)), Keeps I f := by simp

theorem keeps_cons {g : State → Out} {l : List (State → Out)} (hg : Keeps I g) (hl : ∀ f ∈ l, Keeps I f) : ∀ f ∈ g :: l, Keeps I f := by
  intro f hf
  rcases List.mem_cons.mp hf with rfl | hf
  · exact hg
  · exact hl f hf

theorem keeps_append {l m : List (State → Out)} (hl : ∀ f ∈ l, Keeps I f) (hm : ∀ f ∈ m, Keeps I f) : ∀ f ∈ l ++ m, Keeps I f := by
  intro f hf
  rcases List.mem_append.mp hf with hf | hf
  · exact hl f hf
  · exact hm f hf

theorem keeps_ite {c : Prop} [Decidable c] {l m : List (State → Out)} (hl : ∀ f ∈ l, Keeps I f) (hm : ∀ f ∈ m, Keeps I f) :
    ∀ f ∈ (if c then l else m), Keeps I f := by
  split
  · exact hl
  · exact hm

theorem keeps_take {l : List (State → Out)} {n : Nat} (hl : ∀ f ∈ l, Keeps I f) : ∀ f ∈ l.take n, Keeps I f :=
  fun f hf => hl f (List.mem_of_mem_take hf)

theorem pairs_nil : ∀ e ∈ ([] : List (Nat × (State → Out))), Keeps I e.2 := by simp

theorem pairs_cons {k : Nat} {g : State → Out} {l : List (Nat × (State → Out))} (hg : Keeps I g) (hl : ∀ e ∈ l, Keeps I e.2) :
    ∀ e ∈ (k, g) :: l, Keeps I e.2 := by
  intro e he
  rcases List.mem_cons.mp he with rfl | he
  · exact hg
  · exact hl e he

theorem pairs_ite {c : Prop} [Decidable c] {l m : List (Nat × (State → Out))} (hl : ∀ e ∈ l, Keeps I e.2) (hm : ∀ e ∈ m, Keeps I e.2) :
    ∀ e ∈ (if c then l else m), Keeps I e.2 := by
  split
  · exact hl
  · exact hm

theorem options_nil : ∀ o ∈ ([] : List (Option Rows)), RowsKeep I o := by simp

theorem options_cons {p : Option Rows} {l : List (Option Rows)} (hp : RowsKeep I p) (hl : ∀ o ∈ l, RowsKeep I o) :
    ∀ o ∈ p :: l, RowsKeep I o := by
  intro o ho
  rcases List.mem_cons.mp ho with rfl | ho
  · exact hp
  · exact hl o ho

theorem keeps_rows0 (hc : Closed I Touch.all) (s : State) (t : Instant) (off : Nat) (v : Word) : ∀ o ∈ State.rows0 s t off v, RowsKeep I o := by
  unfold State.rows0
  dsimp only [commandRows, oneCommand]
  repeat' first | with_reducible exact options_nil | with_reducible exact keeps_nil | with_reducible exact pairs_nil | with_reducible refine options_cons ?_ ?_ | with_reducible refine rowsKeep_ite ?_ | with_reducible refine rowsKeep_map ?_ | with_reducible refine keeps_take ?_ | with_reducible refine keeps_picked ?_ | with_reducible refine keeps_append ?_ ?_ | with_reducible refine keeps_ite ?_ ?_ | with_reducible refine keeps_cons ?_ ?_ | with_reducible refine pairs_ite ?_ ?_ | with_reducible refine pairs_cons ?_ ?_ | exact fun s hk => by with_reducible apply keeps_execAvsModeWrite (I := I); exact hc.mono (by decide +kernel); exact hk | exact fun s hk => by with_reducible apply keeps_execBankWindowWrite (I := I); exact hc.mono (by decide +kernel); exact hk | exact fun s hk => by with_reducible apply keeps_execCalRequest (I := I); exact hc.mono (by decide +kernel); exact hk | exact fun s hk => by with_reducible apply keeps_execCopy (I := I); exact hc.mono (by decide +kernel); exact hk | exact fun s hk => by with_reducible apply keeps_execFaultClear (I := I); exact hc.mono (by decide +kernel); exact hk | exact fun s hk => by with_reducible apply keeps_execLcDisable (I := I); exact hc.mono (by decide +kernel); exact hk | exact fun s hk => by with_reducible apply keeps_execLcEnable (I := I); exact hc.mono (by decide +kernel); exact hk | exact fun s hk => by with_reducible apply keeps_execPlausClear (I := I); exact hc.mono (by decide +kernel); exact hk | exact fun s hk => by with_reducible apply keeps_execRateAdjWrite (I := I); exact hc.mono (by decide +kernel); exact hk | exact fun s hk => by with_reducible apply keeps_execSlewNsWrite (I := I); exact hc.mono (by decide +kernel); exact hk | exact fun s hk => by with_reducible apply keeps_execStCancel (I := I); exact hc.mono (by decide +kernel); exact hk | exact fun s hk => by with_reducible apply keeps_execStGo (I := I); exact hc.mono (by decide +kernel); exact hk | exact fun s hk => by with_reducible apply keeps_execStepGo (I := I); exact hc.mono (by decide +kernel); exact hk | exact fun s hk => by with_reducible apply keeps_execSwap (I := I); exact hc.mono (by decide +kernel); exact hk | exact fun s hk => by with_reducible apply keeps_execSyncOutArm (I := I); exact hc.mono (by decide +kernel); exact hk | exact fun s hk => by with_reducible apply keeps_execSyncOutArm (I := I); exact hc.mono (by decide +kernel); exact keeps_draw (hc.mono (by decide +kernel)) hk | intro i

theorem keeps_rows1 (hc : Closed I Touch.all) (s : State) (t : Instant) (off : Nat) (v : Word) : ∀ o ∈ State.rows1 s t off v, RowsKeep I o := by
  unfold State.rows1
  dsimp only [commandRows, oneCommand]
  repeat' first | with_reducible exact options_nil | with_reducible exact keeps_nil | with_reducible exact pairs_nil | with_reducible refine options_cons ?_ ?_ | with_reducible refine rowsKeep_ite ?_ | with_reducible refine rowsKeep_map ?_ | with_reducible refine keeps_take ?_ | with_reducible refine keeps_picked ?_ | with_reducible refine keeps_append ?_ ?_ | with_reducible refine keeps_ite ?_ ?_ | with_reducible refine keeps_cons ?_ ?_ | with_reducible refine pairs_ite ?_ ?_ | with_reducible refine pairs_cons ?_ ?_ | exact fun s hk => by with_reducible apply keeps_execAxClear (I := I); exact hc.mono (by decide +kernel); exact hk | exact fun s hk => by with_reducible apply keeps_execAxDisable (I := I); exact hc.mono (by decide +kernel); exact hk | exact fun s hk => by with_reducible apply keeps_execAxEnable (I := I); exact hc.mono (by decide +kernel); exact hk | exact fun s hk => by with_reducible apply keeps_execAxGo (I := I); exact hc.mono (by decide +kernel); exact hk | exact fun s hk => by with_reducible apply keeps_execAxHalt (I := I); exact hc.mono (by decide +kernel); exact hk | exact fun s hk => by with_reducible apply keeps_execAxHome (I := I); exact hc.mono (by decide +kernel); exact hk | exact fun s hk => by with_reducible apply keeps_execAxgArm (I := I); exact hc.mono (by decide +kernel); exact hk | exact fun s hk => by with_reducible apply keeps_execAxgCancel (I := I); exact hc.mono (by decide +kernel); exact hk | exact fun s hk => by with_reducible apply keeps_execFlush (I := I); exact hc.mono (by decide +kernel); exact hk | exact fun s hk => by with_reducible apply keeps_execPgEnable (I := I); exact hc.mono (by decide +kernel); exact hk | exact fun s hk => by with_reducible apply keeps_execPgHostWrite (I := I); exact hc.mono (by decide +kernel); exact hk | exact fun s hk => by with_reducible apply keeps_execTrAbort (I := I); exact hc.mono (by decide +kernel); exact hk | exact fun s hk => by with_reducible apply keeps_execTrClearFault (I := I); exact hc.mono (by decide +kernel); exact hk | exact fun s hk => by with_reducible apply keeps_execTrPause (I := I); exact hc.mono (by decide +kernel); exact hk | exact fun s hk => by with_reducible apply keeps_execTrResume (I := I); exact hc.mono (by decide +kernel); exact hk | exact fun s hk => by with_reducible apply keeps_execTrStart (I := I); exact hc.mono (by decide +kernel); exact hk | intro i

theorem keeps_rows2 (hc : Closed I Touch.all) (t : Instant) (off : Nat) (v : Word) : ∀ o ∈ rows2 t off v, RowsKeep I o := by
  unfold rows2
  dsimp only [commandRows, oneCommand]
  repeat' first | with_reducible exact options_nil | with_reducible exact keeps_nil | with_reducible exact pairs_nil | with_reducible refine options_cons ?_ ?_ | with_reducible refine rowsKeep_ite ?_ | with_reducible refine rowsKeep_map ?_ | with_reducible refine keeps_take ?_ | with_reducible refine keeps_picked ?_ | with_reducible refine keeps_append ?_ ?_ | with_reducible refine keeps_ite ?_ ?_ | with_reducible refine keeps_cons ?_ ?_ | with_reducible refine pairs_ite ?_ ?_ | with_reducible refine pairs_cons ?_ ?_ | exact fun s hk => by with_reducible apply keeps_execApply (I := I); exact hc.mono (by decide +kernel); exact hk | exact fun s hk => by with_reducible apply keeps_execChunkAck (I := I); exact hc.mono (by decide +kernel); exact hk | exact fun s hk => by with_reducible apply keeps_execEditCommit (I := I); exact hc.mono (by decide +kernel); exact hk | exact fun s hk => by with_reducible apply keeps_execEditDiscard (I := I); exact hc.mono (by decide +kernel); exact hk | exact fun s hk => by with_reducible apply keeps_execForce (I := I); exact hc.mono (by decide +kernel); exact hk | exact fun s hk => by with_reducible apply keeps_execMuArm (I := I); exact hc.mono (by decide +kernel); exact hk | exact fun s hk => by with_reducible apply keeps_execMuDisarm (I := I); exact hc.mono (by decide +kernel); exact hk | exact fun s hk => by with_reducible apply keeps_execRelease (I := I); exact hc.mono (by decide +kernel); exact hk | exact fun s hk => by with_reducible apply keeps_execRestore (I := I); exact hc.mono (by decide +kernel); exact hk | exact fun s hk => by with_reducible apply keeps_execTsArm (I := I); exact hc.mono (by decide +kernel); exact hk | exact fun s hk => by with_reducible apply keeps_execTsDisarm (I := I); exact hc.mono (by decide +kernel); exact hk | intro i

theorem keeps_rows3 (hc : Closed I Touch.all) (t : Instant) (off : Nat) (v : Word) : ∀ o ∈ rows3 t off v, RowsKeep I o := by
  unfold rows3
  dsimp only [commandRows, oneCommand]
  repeat' first | with_reducible exact options_nil | with_reducible exact keeps_nil | with_reducible exact pairs_nil | with_reducible refine options_cons ?_ ?_ | with_reducible refine rowsKeep_ite ?_ | with_reducible refine rowsKeep_map ?_ | with_reducible refine keeps_take ?_ | with_reducible refine keeps_picked ?_ | with_reducible refine keeps_append ?_ ?_ | with_reducible refine keeps_ite ?_ ?_ | with_reducible refine keeps_cons ?_ ?_ | with_reducible refine pairs_ite ?_ ?_ | with_reducible refine pairs_cons ?_ ?_ | exact fun s hk => by with_reducible apply keeps_execActivate (I := I); exact hc.mono (by decide +kernel); exact hk | exact fun s hk => by with_reducible apply keeps_execConfirm (I := I); exact hc.mono (by decide +kernel); exact hk | exact fun s hk => by with_reducible apply keeps_execCpHold (I := I); exact hc.mono (by decide +kernel); exact hk | exact fun s hk => by with_reducible apply keeps_execCpResume (I := I); exact hc.mono (by decide +kernel); exact hk | exact fun s hk => by with_reducible apply keeps_execCpStart (I := I); exact hc.mono (by decide +kernel); exact hk | exact fun s hk => by with_reducible apply keeps_execCpStop (I := I); exact hc.mono (by decide +kernel); exact hk | exact fun s hk => by with_reducible apply keeps_execDeviceReset (I := I); exact hc.mono (by decide +kernel); exact hk | exact fun s hk => by with_reducible apply keeps_execDiscover (I := I); exact hc.mono (by decide +kernel); exact hk | exact fun s hk => by with_reducible apply keeps_execJoin (I := I); exact hc.mono (by decide +kernel); exact hk | exact fun s hk => by with_reducible apply keeps_execLeave (I := I); exact hc.mono (by decide +kernel); exact hk | exact fun s hk => by with_reducible apply keeps_execMbxDb (I := I); exact hc.mono (by decide +kernel); exact hk | exact fun s hk => by with_reducible apply keeps_execMbxGo (I := I); exact hc.mono (by decide +kernel); exact hk | exact fun s hk => by with_reducible apply keeps_execPartitionReset (I := I); exact hc.mono (by decide +kernel); exact hk | exact fun s hk => by with_reducible apply keeps_execPwrTolWrite (I := I); exact hc.mono (by decide +kernel); exact hk | exact fun s hk => by with_reducible apply keeps_execResync (I := I); exact hc.mono (by decide +kernel); exact hk | exact fun s hk => by with_reducible apply keeps_execResync (I := I); exact hc.mono (by decide +kernel); exact keeps_draw (hc.mono (by decide +kernel)) hk | exact fun s hk => by with_reducible apply keeps_execRingEnWrite (I := I); exact hc.mono (by decide +kernel); exact hk | exact fun s hk => by with_reducible apply keeps_execRingStart (I := I); exact hc.mono (by decide +kernel); exact hk | exact fun s hk => by with_reducible apply keeps_execRingStop (I := I); exact hc.mono (by decide +kernel); exact hk | exact fun s hk => by with_reducible apply keeps_execRjStateWrite (I := I); exact hc.mono (by decide +kernel); exact hk | exact fun s hk => by with_reducible apply keeps_execSwitch (I := I); exact hc.mono (by decide +kernel); exact hk | exact fun s hk => by with_reducible apply keeps_execUpdCancel (I := I); exact hc.mono (by decide +kernel); exact hk | intro i

theorem keeps_rowsAt (hc : Closed I Touch.all) (s : State) (t : Instant) (off : Nat) (v : Word) {x : Rows} (h : s.rowsAt t off v = some x) : ∀ f ∈ x.2, Keeps I f := by
  unfold State.rowsAt at h
  obtain ⟨o, ho, hx⟩ := List.exists_of_findSome?_eq_some h
  simp only [List.mem_append] at ho
  rcases ho with ((ho | ho) | ho) | ho
  · exact keeps_rows0 hc s t off v o ho x hx
  · exact keeps_rows1 hc s t off v o ho x hx
  · exact keeps_rows2 hc t off v o ho x hx
  · exact keeps_rows3 hc t off v o ho x hx

end Sys2Proof.Machine
end

