-- ==== Sys2Proof/Laws/Keeps/Write.lean ====
section
/-! SUPPORT.  What the operations of Machine/Write.lean touch, and that they keep every property
closed under it. -/

namespace Sys2Proof.Machine

open Sys2Proof

set_option Elab.async false
set_option linter.unusedSimpArgs false
set_option linter.unusedVariables false
set_option linter.unusedTactic false
set_option linter.unreachableTactic false

variable {I : State → Prop}

def Touched.afterWrite : Touch :=
  { regs := [F.WARP_STATUS_RATE_CLAMPED, F.WARP_STATUS_SLEW_ACTIVE, F.SLEW_NS, F.AVS_STATUS_AT_MAX, F.AVS_STATUS_CMD_MV,
      F.TR_EVENT_SPAWN_DROP, F.SK_STATUS_BURST_FREE_KIB, F.SK_EVENT, F.SKS_SEQ, F.SKS_VISIBLE,
      F.SKS_STATUS_RESIDENT, F.SKS_OVERWRITE, F.CS_STATUS_STATE, F.CS_PRE_BYTES, F.POOL_FREE,
      F.SCHED_STATUS_FREE_SLOTS, F.SCHED_STATUS_INFLIGHT, F.SCHED_EVENT, F.SCHED_DISPATCH_CNT,
      F.SCHED_EVT_UNBOUND_CNT, F.SCHED_TEMPLATE_MISS_CNT, F.PS_USED, F.SH_STATUS_STATE, F.SH_STATUS_SLOT,
      F.SH_LOAD, F.LVL_RDY_DEPTH, F.LVL_WAIT_AVG, F.LVL_HIST, F.FLOW_STATE_IN_SERVICE, F.FLOW_STATE_PENDING,
      F.RING_CTRL_ROLE, F.RING_STATUS_STATE, F.PWR_STATUS_WAKE_PEND, F.PWR_STATUS_LOOM_ON, F.PWR_STATUS_PHASE,
      F.PWR_STATUS_STATE, F.PWR_WAKE_SRC, F.PWR_WAKE_MERGED, F.PWR_RES, F.PWR_ENTRIES, F.MSIX_PBA],
    parts := [.warp, .skein, .treadles, .sched, .tandem, .power, .rings, .sram, .dram, .dlm, .freeCtr] }

theorem keeps_afterWrite (hc : Closed I Touched.afterWrite) {s : State} (hk : Holds I s) (off : Nat) : Holds I (State.afterWrite s off) := by
  have c_dispatch' : Closed I Touched.dispatch := hc.mono (by decide +kernel)
  have c_serve' : Closed I Touched.serve := hc.mono (by decide +kernel)
  have c_regate' : Closed I Touched.regate := hc.mono (by decide +kernel)
  have c_refreshRegion' : Closed I Touched.refreshRegion := hc.mono (by decide +kernel)
  have c_idleSet' : Closed I Touched.idleSet := hc.mono (by decide +kernel)
  have c_ringRoles' : Closed I Touched.ringRoles := hc.mono (by decide +kernel)
  have c_internalWake' : Closed I Touched.internalWake := hc.mono (by decide +kernel)
  have c_putSlew' : Closed I Touched.putSlew := hc.mono (by decide +kernel)
  have c_holdVolt' : Closed I Touched.holdVolt := hc.mono (by decide +kernel)
  have c_externalWake' : Closed I Touched.externalWake := hc.mono (by decide +kernel)
  unfold State.afterWrite
  try dsimp only
  repeat' first | (guard_target =ₐ Holds I s; exact hk) | simp only [id_eq] | with_reducible apply keeps_dispatch c_dispatch' | with_reducible apply keeps_serve c_serve' | with_reducible apply keeps_regate c_regate' | with_reducible apply keeps_refreshRegion c_refreshRegion' | with_reducible apply keeps_idleSet c_idleSet' | with_reducible apply keeps_wr | with_reducible apply keeps_when | with_reducible apply keeps_ringRoles c_ringRoles' | with_reducible apply keeps_internalWake c_internalWake' | with_reducible apply keeps_putSlew c_putSlew' | with_reducible apply keeps_holdVolt c_holdVolt' | with_reducible apply keeps_externalWake c_externalWake' | with_reducible apply Keeps.foldl (I := I) | with_reducible apply Keeps.foldl₂ (I := I) | with_reducible apply Keeps.ite (I := I) | exact hc.mono (by decide +kernel) | split | intro s _ _ hk | intro s _ hk | intro s hk | with_reducible exact hk

def Touched.writeField : Touch :=
  { anyReg := true }

theorem keeps_writeField (hc : Closed I Touched.writeField) {s : State} (hk : Holds I s) (b : FieldBits) (i : Nat) (v : Nat) (rwl : Bool) : Holds I (State.writeField s b i v rwl) := by
  have c_wrPart' : Closed I Touched.wrPart := hc.mono (by decide +kernel)
  unfold State.writeField
  try dsimp only
  repeat' first | (guard_target =ₐ Holds I s; exact hk) | simp only [id_eq] | with_reducible apply keeps_wrPart c_wrPart' | with_reducible apply keeps_wr | with_reducible apply Keeps.foldl (I := I) | with_reducible apply Keeps.foldl₂ (I := I) | with_reducible apply Keeps.ite (I := I) | exact hc.anyFld rfl _ | split | intro s _ _ hk | intro s _ hk | intro s hk | with_reducible exact hk

def Touched.writeWord : Touch :=
  { anyReg := true,
    parts := [.warp, .skein, .treadles, .sched, .tandem, .power, .rings, .sram, .dram, .dlm, .freeCtr] }

theorem keeps_writeWord (hc : Closed I Touched.writeWord) {s : State} (hk : Holds I s) (off : Nat) (v : Nat) (r : RegRow) (i : Nat) : Holds I (State.writeWord s off v r i) := by
  have c_discard' : Closed I Touched.discard := hc.mono (by decide +kernel)
  have c_secEvent' : Closed I Touched.secEvent := hc.mono (by decide +kernel)
  have c_discardOther' : Closed I Touched.discardOther := hc.mono (by decide +kernel)
  have c_writeField' : Closed I Touched.writeField := hc.mono (by decide +kernel)
  have c_afterWrite' : Closed I Touched.afterWrite := hc.mono (by decide +kernel)
  unfold State.writeWord
  try dsimp only
  repeat' first | (guard_target =ₐ Holds I s; exact hk) | simp only [id_eq] | with_reducible apply keeps_discard c_discard' | with_reducible apply keeps_secEvent c_secEvent' | with_reducible apply keeps_discardOther c_discardOther' | with_reducible apply keeps_writeField c_writeField' | with_reducible apply keeps_afterWrite c_afterWrite' | with_reducible apply Keeps.foldl (I := I) | with_reducible apply Keeps.foldl₂ (I := I) | with_reducible apply Keeps.ite (I := I) | split | intro s _ _ hk | intro s _ hk | intro s hk | with_reducible exact hk

def Touched.commitHigh : Touch :=
  { anyReg := true,
    parts := [.latches, .staged, .warp, .skein, .cells, .fio, .aout, .ain, .conv, .rot, .treadles, .gens, .axes, .groups, .trig, .loom, .sched, .cyc, .island, .tandem, .sec, .host, .boot, .answer, .power, .rings, .sram, .dram, .dlm, .freeCtr] }

theorem keeps_commitRow (hc : Closed I Touch.all) (t : Instant) (off v : Nat) {f : State → Out} (hf : commitRow t off v = some f) : Keeps I f := by
  unfold commitRow at hf
  split at hf
  · cases hf; exact fun s hk => keeps_execCStateWrite (hc.mono (by decide +kernel)) hk t _ _
  · cases hf; exact fun s hk => keeps_execStConsumedWrite (hc.mono (by decide +kernel)) hk t _ _
  · cases hf; exact fun s hk => keeps_execCsConsumedWrite (hc.mono (by decide +kernel)) hk t _ _
  · cases hf

theorem keeps_commitHigh (hc : Closed I Touched.commitHigh) {s : State} (hk : Holds I s) (t : Instant) (q : Requester) (off : Nat) (hi : Nat) (r : RegRow) (i : Nat) : Holds I (State.commitHigh s t q off hi r i) := by
  have c1 : Closed I Touched.plainWrite := hc.mono (by decide +kernel)
  have c2 : Closed I Touched.writeWord := hc.mono (by decide +kernel)
  have c3 : Closed I { parts := [.staged] } := hc.mono (by decide +kernel)
  have h0 : ∀ x, Holds I { s with staged := x } := fun x => c3.staged s x (by decide) hk
  unfold State.commitHigh
  dsimp only
  split
  · rename_i f hf
    exact keeps_ran (h0 _) f (keeps_commitRow hc t off _ hf)
  · exact keeps_plainWrite c1 (h0 _) off _ (fun s hk => keeps_writeWord c2 hk _ _ _ _)

def Touched.latchView : Touch :=
  { parts := [.cells, .axes] }

theorem keeps_latchView (hc : Closed I Touched.latchView) {s : State} (hk : Holds I s) (off : Nat) : Holds I (State.latchView s off) := by
  have c_takeSnapshotOf' : Closed I Touched.takeSnapshotOf := hc.mono (by decide +kernel)
  have c_putAxis' : Closed I Touched.putAxis := hc.mono (by decide +kernel)
  unfold State.latchView
  try dsimp only
  repeat' first | (guard_target =ₐ Holds I s; exact hk) | simp only [id_eq] | with_reducible apply keeps_takeSnapshotOf c_takeSnapshotOf' | with_reducible apply keeps_putAxis c_putAxis' | with_reducible apply Keeps.foldl (I := I) | with_reducible apply Keeps.foldl₂ (I := I) | with_reducible apply Keeps.ite (I := I) | split | intro s _ _ hk | intro s _ hk | intro s hk | with_reducible exact hk

def Touched.putLatch : Touch :=
  { parts := [.latches] }

theorem keeps_putLatch (hc : Closed I Touched.putLatch) {s : State} (hk : Holds I s) (q : Requester) (off : Nat) (v : Option Nat) : Holds I (State.putLatch s q off v) := by
  have c_latches : Closed I { parts := [.latches] } := hc.mono (by decide +kernel)
  unfold State.putLatch
  try dsimp only
  repeat' first | (guard_target =ₐ Holds I s; exact hk) | simp only [ic_mk, id_eq] | with_reducible refine ic_latches c_latches (ic_fold ?_) | with_reducible apply Keeps.foldl (I := I) | with_reducible apply Keeps.foldl₂ (I := I) | with_reducible apply Keeps.ite (I := I) | split | intro s _ _ hk | intro s _ hk | intro s hk | with_reducible exact hk

def Touched.refreshReg : Touch :=
  { regs := [F.WARP_NOW, F.TR_TAU, F.PWR_RES], parts := [.power] }

theorem keeps_refreshReg (hc : Closed I Touched.refreshReg) {s : State} (hk : Holds I s) (off : Nat) : Holds I (State.refreshReg s off) := by
  have c_accrue' : Closed I Touched.accrue := hc.mono (by decide +kernel)
  unfold State.refreshReg
  try dsimp only
  repeat' first | (guard_target =ₐ Holds I s; exact hk) | simp only [id_eq] | with_reducible apply keeps_wr | with_reducible apply keeps_accrue c_accrue' | with_reducible apply keeps_wrT | with_reducible apply Keeps.foldl (I := I) | with_reducible apply Keeps.foldl₂ (I := I) | with_reducible apply Keeps.ite (I := I) | exact hc.mono (by decide +kernel) | split | intro s _ _ hk | intro s _ hk | intro s hk | with_reducible exact hk

def Touched.refuseRead : Touch :=
  { regs := [F.TR_EVENT_SPAWN_DROP, F.SK_STATUS_BURST_FREE_KIB, F.SK_EVENT, F.SKS_SEQ, F.SKS_STATUS_RESIDENT,
      F.SKS_OVERWRITE, F.LOOM_EVENT, F.LOOM_EVT_OVF, F.LOOM_OVF_ROUTE, F.SCHED_STATUS_FREE_SLOTS,
      F.SCHED_STATUS_INFLIGHT, F.SCHED_EVENT, F.SCHED_DISPATCH_CNT, F.SCHED_POISON_CNT, F.SCHED_EVT_UNBOUND_CNT,
      F.SCHED_TEMPLATE_MISS_CNT, F.PS_USED, F.PS_HELD, F.HQ_DEPTH, F.HQ_MAXDEPTH, F.HQ_PUSH_CNT, F.HQ_BUSY_CNT,
      F.SH_STATUS_STATE, F.SH_STATUS_SLOT, F.SH_LOAD, F.LVL_RDY_DEPTH, F.LVL_WAIT_AVG, F.LVL_HIST,
      F.FLOW_STATE_HELD, F.FLOW_STATE_IN_SERVICE, F.FLOW_STATE_HELD_CAUSE, F.FLOW_STATE_PENDING,
      F.PWR_STATUS_WAKE_PEND, F.PWR_STATUS_PHASE, F.PWR_STATUS_STATE, F.PWR_WAKE_SRC, F.PWR_WAKE_MERGED, F.PWR_RES,
      F.PWR_ENTRIES, F.MSIX_PBA],
    parts := [.skein, .treadles, .sched, .host, .power, .sram, .dram, .dlm, .freeCtr] }

theorem keeps_refuseRead (hc : Closed I Touched.refuseRead) {s : State} (hk : Holds I s) (q : Requester) (off : Nat) : Holds I (State.refuseRead s q off) := by
  have c_programFault' : Closed I Touched.programFault := hc.mono (by decide +kernel)
  unfold State.refuseRead
  try dsimp only
  repeat' first | (guard_target =ₐ Holds I s; exact hk) | simp only [id_eq] | with_reducible apply keeps_programFault c_programFault' | with_reducible apply Keeps.foldl (I := I) | with_reducible apply Keeps.foldl₂ (I := I) | with_reducible apply Keeps.ite (I := I) | split | intro s _ _ hk | intro s _ hk | intro s hk | with_reducible exact hk

def Touched.stageLow : Touch :=
  { parts := [.staged] }

theorem keeps_stageLow (hc : Closed I Touched.stageLow) {s : State} (hk : Holds I s) (q : Requester) (off : Nat) (v : Nat) : Holds I (State.stageLow s q off v) := by
  have c_staged : Closed I { parts := [.staged] } := hc.mono (by decide +kernel)
  unfold State.stageLow
  try dsimp only
  repeat' first | (guard_target =ₐ Holds I s; exact hk) | simp only [ic_mk, id_eq] | with_reducible refine ic_staged c_staged (ic_fold ?_) | with_reducible apply Keeps.foldl (I := I) | with_reducible apply Keeps.foldl₂ (I := I) | with_reducible apply Keeps.ite (I := I) | split | intro s _ _ hk | intro s _ hk | intro s hk | with_reducible exact hk

def Touched.windowRead : Touch :=
  { regs := [F.SEC_EVENT, F.SEC_HOST_REFUSE_CNT], parts := [.answer] }

theorem keeps_windowRead (hc : Closed I Touched.windowRead) {s : State} (hk : Holds I s) (q : Requester) (off : Nat) : Holds I (State.windowRead s q off) := by
  have c_reply' : Closed I Touched.reply := hc.mono (by decide +kernel)
  have c_refuseAccess' : Closed I Touched.refuseAccess := hc.mono (by decide +kernel)
  unfold State.windowRead
  try dsimp only
  repeat' first | (guard_target =ₐ Holds I s; exact hk) | simp only [id_eq] | with_reducible apply keeps_reply c_reply' | with_reducible apply keeps_refuseAccess c_refuseAccess' | with_reducible apply Keeps.foldl (I := I) | with_reducible apply Keeps.foldl₂ (I := I) | with_reducible apply Keeps.ite (I := I) | split | intro s _ _ hk | intro s _ hk | intro s hk | with_reducible exact hk

def Touched.windowWrite : Touch :=
  { regs := [F.SEC_EVENT, F.SEC_HOST_REFUSE_CNT, F.SYS_DISCARD_REASON, F.SYS_DISCARD_OFFSET, F.SYS_DISCARD_CNT],
    parts := [.sram] }

theorem keeps_windowWrite (hc : Closed I Touched.windowWrite) {s : State} (hk : Holds I s) (q : Requester) (off : Nat) (value : Word) : Holds I (State.windowWrite s q off value) := by
  have c_sram : Closed I { parts := [.sram] } := hc.mono (by decide +kernel)
  have c_discard' : Closed I Touched.discard := hc.mono (by decide +kernel)
  have c_secEvent' : Closed I Touched.secEvent := hc.mono (by decide +kernel)
  unfold State.windowWrite
  try dsimp only
  repeat' first | (guard_target =ₐ Holds I s; exact hk) | simp only [ic_mk, id_eq] | with_reducible refine ic_sram c_sram (ic_fold ?_) | with_reducible apply keeps_discard c_discard' | with_reducible apply keeps_bump | with_reducible apply keeps_secEvent c_secEvent' | with_reducible apply Keeps.foldl (I := I) | with_reducible apply Keeps.foldl₂ (I := I) | with_reducible apply Keeps.ite (I := I) | exact hc.mono (by decide +kernel) | split | intro s _ _ hk | intro s _ hk | intro s hk | with_reducible exact hk

def Touched.writeReg : Touch :=
  { anyReg := true,
    parts := [.latches, .staged, .warp, .skein, .cells, .fio, .aout, .ain, .conv, .rot, .treadles, .gens, .axes, .groups, .trig, .loom, .sched, .cyc, .island, .tandem, .sec, .host, .boot, .answer, .power, .rings, .sram, .dram, .dlm, .freeCtr] }

theorem keeps_writeReg (hc : Closed I Touched.writeReg) {s : State} (hk : Holds I s) (t : Instant) (q : Requester) (off : Nat) (value : Word) : Holds I (State.writeReg s t q off value) := by
  have c1 : Closed I Touched.plainWrite := hc.mono (by decide +kernel)
  have c2 : Closed I Touched.writeWord := hc.mono (by decide +kernel)
  have c3 : Closed I Touched.discard := hc.mono (by decide +kernel)
  have c4 : Closed I Touched.stageLow := hc.mono (by decide +kernel)
  have c5 : Closed I Touches.configFieldWrite := hc.mono (by decide +kernel)
  have c6 : Closed I Touched.commitHigh := hc.mono (by decide +kernel)
  unfold State.writeReg
  split
  · rename_i fields rows hr
    refine keeps_plainWrite c1 hk off _ (fun s₁ hk₁ => Keeps.foldlMem _ (fun s₂ f hf hk₂ => keeps_ran hk₂ f (keeps_rowsAt hc s t off value hr f hf)) ?_)
    split
    · split
      · exact keeps_writeWord c2 hk₁ _ _ _ _
      · exact hk₁
    · exact hk₁
  · exact keeps_discard c3 hk _ _
  · split
    · exact keeps_commitHigh c6 hk t q off _ _ _
    · split
      · exact keeps_plainWrite c1 hk off _ (fun s hk => keeps_stageLow c4 hk q off _)
      · exact keeps_discard c3 hk _ _
    · split
      · exact keeps_ran hk _ (fun s hk => keeps_execConfigFieldWrite c5 hk t _ _)
      · exact keeps_plainWrite c1 hk off _ (fun s hk => keeps_writeWord c2 hk off _ _ _)

theorem keeps_execHiWriteCommit (hc : Closed I Touches.hiWriteCommit) {s : State} (hk : Holds I s) (t : Instant) (r : Requester) (offset : Fin 268435456) (value : Word) : ∃ u, execHiWriteCommit t r offset value s = .next u ∧ Holds I u := by
  have c_advance' : Closed I Touched.advance := hc.mono (by decide +kernel)
  have c_commitHigh' : Closed I Touched.commitHigh := hc.mono (by decide +kernel)
  refine ⟨_, rfl, ?_⟩
  try dsimp only
  repeat' first | (guard_target =ₐ Holds I s; exact hk) | simp only [id_eq] | with_reducible apply keeps_advance c_advance' | with_reducible apply keeps_commitHigh c_commitHigh' | with_reducible apply Keeps.foldl (I := I) | with_reducible apply Keeps.foldl₂ (I := I) | with_reducible apply Keeps.ite (I := I) | split | intro s _ _ hk | intro s _ hk | intro s hk | with_reducible exact hk

theorem keeps_execLoReadLatch (hc : Closed I Touches.loReadLatch) {s : State} (hk : Holds I s) (t : Instant) (r : Requester) (offset : Fin 268435456) : ∃ u, execLoReadLatch t r offset s = .next u ∧ Holds I u := by
  have c_advance' : Closed I Touched.advance := hc.mono (by decide +kernel)
  have c_refuseRead' : Closed I Touched.refuseRead := hc.mono (by decide +kernel)
  have c_answerWord' : Closed I Touched.answerWord := hc.mono (by decide +kernel)
  have c_windowRead' : Closed I Touched.windowRead := hc.mono (by decide +kernel)
  have c_refreshReg' : Closed I Touched.refreshReg := hc.mono (by decide +kernel)
  have c_putLatch' : Closed I Touched.putLatch := hc.mono (by decide +kernel)
  have c_latchPv' : Closed I Touched.latchPv := hc.mono (by decide +kernel)
  have c_latchView' : Closed I Touched.latchView := hc.mono (by decide +kernel)
  refine ⟨_, rfl, ?_⟩
  try dsimp only
  repeat' first | (guard_target =ₐ Holds I s; exact hk) | simp only [id_eq] | with_reducible apply keeps_advance c_advance' | with_reducible apply keeps_refuseRead c_refuseRead' | with_reducible apply keeps_answerWord c_answerWord' | with_reducible apply keeps_windowRead c_windowRead' | with_reducible apply keeps_refreshReg c_refreshReg' | with_reducible apply keeps_putLatch c_putLatch' | with_reducible apply keeps_latchPv c_latchPv' | with_reducible apply keeps_latchView c_latchView' | with_reducible apply Keeps.foldl (I := I) | with_reducible apply Keeps.foldl₂ (I := I) | with_reducible apply Keeps.ite (I := I) | split | intro s _ _ hk | intro s _ hk | intro s hk | with_reducible exact hk

theorem keeps_execRcRead (hc : Closed I Touches.rcRead) {s : State} (hk : Holds I s) (t : Instant) (offset : Fin 268435456) : ∃ u, execRcRead t offset s = .next u ∧ Holds I u := by
  have c_advance' : Closed I Touched.advance := hc.mono (by decide +kernel)
  have c_answerWord' : Closed I Touched.answerWord := hc.mono (by decide +kernel)
  have c_refuseAccess' : Closed I Touched.refuseAccess := hc.mono (by decide +kernel)
  refine ⟨_, rfl, ?_⟩
  try dsimp only
  repeat' first | (guard_target =ₐ Holds I s; exact hk) | simp only [id_eq] | with_reducible apply keeps_advance c_advance' | with_reducible apply keeps_answerWord c_answerWord' | with_reducible apply keeps_refuseAccess c_refuseAccess' | with_reducible apply keeps_wr | with_reducible apply Keeps.foldl (I := I) | with_reducible apply Keeps.foldl₂ (I := I) | with_reducible apply Keeps.ite (I := I) | exact hc.anyFld rfl _ | split | intro s _ _ hk | intro s _ hk | intro s hk | with_reducible exact hk

theorem keeps_execRegisterWrite (hc : Closed I Touches.registerWrite) {s : State} (hk : Holds I s) (t : Instant) (r : Requester) (offset : Fin 268435456) (value : Word) (byteEnables : Fin 16) : ∃ u, execRegisterWrite t r offset value byteEnables s = .next u ∧ Holds I u := by
  have c_advance' : Closed I Touched.advance := hc.mono (by decide +kernel)
  have c_discard' : Closed I Touched.discard := hc.mono (by decide +kernel)
  have c_windowWrite' : Closed I Touched.windowWrite := hc.mono (by decide +kernel)
  have c_writeReg' : Closed I Touched.writeReg := hc.mono (by decide +kernel)
  refine ⟨_, rfl, ?_⟩
  try dsimp only
  repeat' first | (guard_target =ₐ Holds I s; exact hk) | simp only [id_eq] | with_reducible apply keeps_advance c_advance' | with_reducible apply keeps_discard c_discard' | with_reducible apply keeps_windowWrite c_windowWrite' | with_reducible apply keeps_writeReg c_writeReg' | with_reducible apply Keeps.foldl (I := I) | with_reducible apply Keeps.foldl₂ (I := I) | with_reducible apply Keeps.ite (I := I) | split | intro s _ _ hk | intro s _ hk | intro s hk | with_reducible exact hk

end Sys2Proof.Machine
end

