-- ==== Sys2Proof/Laws/Exec.lean ====
section
/-! SUPPORT.  What every command keeps, said once over all of them: it answers a next state, and a property that every change
within its touch keeps holds of that state. -/

namespace Sys2Proof.Machine

open Sys2Proof

set_option Elab.async false

/-- A command answers a next state and keeps each property that its touch keeps. -/
theorem exec_keeps {I : State → Prop} (c : Instr) (hc : Closed I (touches c)) {s : State} (hk : I s) : ∃ u, exec c s = .next u ∧ I u := by
  cases c with
  | registerWrite t r offset value byteEnables => exact keeps_execRegisterWrite hc hk t r offset value byteEnables
  | loReadLatch t r offset => exact keeps_execLoReadLatch hc hk t r offset
  | hiWriteCommit t r offset value => exact keeps_execHiWriteCommit hc hk t r offset value
  | rcRead t offset => exact keeps_execRcRead hc hk t offset
  | slewNsWrite t offset => exact keeps_execSlewNsWrite hc hk t offset
  | slewEnd t => exact keeps_execSlewEnd hc hk t
  | rateAdjWrite t rate => exact keeps_execRateAdjWrite hc hk t rate
  | stepGo t value => exact keeps_execStepGo hc hk t value
  | refWindowEnd t n => exact keeps_execRefWindowEnd hc hk t n
  | warpWindowEnd t m => exact keeps_execWarpWindowEnd hc hk t m
  | refLost t => exact keeps_execRefLost hc hk t
  | holdoverExit t => exact keeps_execHoldoverExit hc hk t
  | warpWrap t => exact keeps_execWarpWrap hc hk t
  | ppsOutRise t => exact keeps_execPpsOutRise hc hk t
  | ppsOutFall t => exact keeps_execPpsOutFall hc hk t
  | stampInputEdge t pin rising => exact keeps_execStampInputEdge hc hk t pin rising
  | stampInputQualified t pin => exact keeps_execStampInputQualified hc hk t pin
  | syncOutArm t value armFirst => exact keeps_execSyncOutArm hc hk t value armFirst
  | syncOutPulse t => exact keeps_execSyncOutPulse hc hk t
  | slackWindowEnd t => exact keeps_execSlackWindowEnd hc hk t
  | avsTimeout t => exact keeps_execAvsTimeout hc hk t
  | avsModeWrite t value => exact keeps_execAvsModeWrite hc hk t value
  | lcEnable t n value => exact keeps_execLcEnable hc hk t n value
  | lcDisable t n value => exact keeps_execLcDisable hc hk t n value
  | swap t n => exact keeps_execSwap hc hk t n
  | copy t n => exact keeps_execCopy hc hk t n
  | bankWindowWrite t n k value => exact keeps_execBankWindowWrite hc hk t n k value
  | cStateWrite t n value => exact keeps_execCStateWrite hc hk t n value
  | lcSnapshotRead t n => exact keeps_execLcSnapshotRead hc hk t n
  | loopStrobe t n => exact keeps_execLoopStrobe hc hk t n
  | loopResultReady t n arith parity => exact keeps_execLoopResultReady hc hk t n arith parity
  | loopRelease t n resultFirst => exact keeps_execLoopRelease hc hk t n resultFirst
  | comparatorTrip t ain rise => exact keeps_execComparatorTrip hc hk t ain rise
  | eventHoldEnd t n => exact keeps_execEventHoldEnd hc hk t n
  | conversionDone t ain raw spareRaw => exact keeps_execConversionDone hc hk t ain raw spareRaw
  | loopStall t n => exact keeps_execLoopStall hc hk t n
  | faultClear t n => exact keeps_execFaultClear hc hk t n
  | plausClear t n => exact keeps_execPlausClear hc hk t n
  | rotationSlot t => exact keeps_execRotationSlot hc hk t
  | rotationConversion t raw spareRaw => exact keeps_execRotationConversion hc hk t raw spareRaw
  | calibrationDone t gain offs => exact keeps_execCalibrationDone hc hk t gain offs
  | calRequest t conv => exact keeps_execCalRequest hc hk t conv
  | stGo t n => exact keeps_execStGo hc hk t n
  | selfTestBegin t n => exact keeps_execSelfTestBegin hc hk t n
  | selfTestDone t n fail => exact keeps_execSelfTestDone hc hk t n fail
  | stCancel t n => exact keeps_execStCancel hc hk t n
  | loadTable t p img room => exact keeps_execLoadTable hc hk t p img room
  | trStart t p value => exact keeps_execTrStart hc hk t p value
  | trPause t p value => exact keeps_execTrPause hc hk t p value
  | trResume t p value => exact keeps_execTrResume hc hk t p value
  | trAbort t p value => exact keeps_execTrAbort hc hk t p value
  | trClearFault t p value => exact keeps_execTrClearFault hc hk t p value
  | treadleTick t p => exact keeps_execTreadleTick hc hk t p
  | timeDecision t p => exact keeps_execTimeDecision hc hk t p
  | stepBoundary t p => exact keeps_execStepBoundary hc hk t p
  | stagingDone t p => exact keeps_execStagingDone hc hk t p
  | stepCommit t p => exact keeps_execStepCommit hc hk t p
  | valveChange t p => exact keeps_execValveChange hc hk t p
  | treadleFault t p => exact keeps_execTreadleFault hc hk t p
  | pgEnable t n value => exact keeps_execPgEnable hc hk t n value
  | pgUpdate t n => exact keeps_execPgUpdate hc hk t n
  | pgHostWrite t n r value => exact keeps_execPgHostWrite hc hk t n r value
  | axEnable t n value => exact keeps_execAxEnable hc hk t n value
  | axDisable t n value => exact keeps_execAxDisable hc hk t n value
  | axGo t n => exact keeps_execAxGo hc hk t n
  | axHalt t n => exact keeps_execAxHalt hc hk t n
  | axHome t n => exact keeps_execAxHome hc hk t n
  | axClear t n => exact keeps_execAxClear hc hk t n
  | loadSegments t p img room => exact keeps_execLoadSegments hc hk t p img room
  | axStrobe t n runAhead => exact keeps_execAxStrobe hc hk t n runAhead
  | axResultReady t n arith parity => exact keeps_execAxResultReady hc hk t n arith parity
  | axRelease t n resultFirst => exact keeps_execAxRelease hc hk t n resultFirst
  | stepPulse t n => exact keeps_execStepPulse hc hk t n
  | axStall t n => exact keeps_execAxStall hc hk t n
  | axgArm t g value => exact keeps_execAxgArm hc hk t g value
  | axgCancel t g value => exact keeps_execAxgCancel hc hk t g value
  | groupStart t g => exact keeps_execGroupStart hc hk t g
  | limitEdge t n positive => exact keeps_execLimitEdge hc hk t n positive
  | homeSwitchEdge t n => exact keeps_execHomeSwitchEdge hc hk t n
  | burstQualified t n => exact keeps_execBurstQualified hc hk t n
  | indexEdge t n => exact keeps_execIndexEdge hc hk t n
  | tapSample t n at_ data => exact keeps_execTapSample hc hk t n at_ data
  | blockSeal t k => exact keeps_execBlockSeal hc hk t k
  | skeinCheckpoint t => exact keeps_execSkeinCheckpoint hc hk t
  | checkpointSigned t k => exact keeps_execCheckpointSigned hc hk t k
  | blockWriteDone t k seq good => exact keeps_execBlockWriteDone hc hk t k seq good
  | exportDone t k => exact keeps_execExportDone hc hk t k
  | stConsumedWrite t k seq => exact keeps_execStConsumedWrite hc hk t k seq
  | flush t k => exact keeps_execFlush hc hk t k
  | resendBlock t k seq => exact keeps_execResendBlock hc hk t k seq
  | tsArm t n => exact keeps_execTsArm hc hk t n
  | tsDisarm t n => exact keeps_execTsDisarm hc hk t n
  | tsSample t n => exact keeps_execTsSample hc hk t n
  | captureReady t n => exact keeps_execCaptureReady hc hk t n
  | force t n => exact keeps_execForce hc hk t n
  | autoFire t n => exact keeps_execAutoFire hc hk t n
  | captureEnd t n => exact keeps_execCaptureEnd hc hk t n
  | captureSlotDone t n => exact keeps_execCaptureSlotDone hc hk t n
  | csConsumedWrite t n seq => exact keeps_execCsConsumedWrite hc hk t n seq
  | chunkAck t n count => exact keeps_execChunkAck hc hk t n count
  | loadEnvelope t p img room => exact keeps_execLoadEnvelope hc hk t p img room
  | muArm t n => exact keeps_execMuArm hc hk t n
  | muDisarm t n => exact keeps_execMuDisarm hc hk t n
  | pointFetchDone t n => exact keeps_execPointFetchDone hc hk t n
  | muSample t n have_ => exact keeps_execMuSample hc hk t n have_
  | fioInputEdge t pin level => exact keeps_execFioInputEdge hc hk t pin level
  | filterTake t pin => exact keeps_execFilterTake hc hk t pin
  | leInputChange t n since => exact keeps_execLeInputChange hc hk t n since
  | leTimerExpiry t n => exact keeps_execLeTimerExpiry hc hk t n
  | eventRouteEvent t er data => exact keeps_execEventRouteEvent hc hk t er data
  | routeStall t kind id => exact keeps_execRouteStall hc hk t kind id
  | configScan t bad => exact keeps_execConfigScan hc hk t bad
  | configFieldWrite t offset value => exact keeps_execConfigFieldWrite hc hk t offset value
  | editCommit t p => exact keeps_execEditCommit hc hk t p
  | editDiscard t p => exact keeps_execEditDiscard hc hk t p
  | planeFlip t p => exact keeps_execPlaneFlip hc hk t p
  | loadDraft t p img room => exact keeps_execLoadDraft hc hk t p img room
  | apply t p value => exact keeps_execApply hc hk t p value
  | applyStaged t p verified => exact keeps_execApplyStaged hc hk t p verified
  | journalWriteDone t p good => exact keeps_execJournalWriteDone hc hk t p good
  | qsub t sh addr desc nowait qtmo => exact keeps_execQsub hc hk t sh addr desc nowait qtmo
  | qcan t sh handle => exact keeps_execQcan hc hk t sh handle
  | qpush t sh h addr e nowait qtmo => exact keeps_execQpush hc hk t sh h addr e nowait qtmo
  | qpop t sh h addr nowait qtmo => exact keeps_execQpop hc hk t sh h addr nowait qtmo
  | qdone t sh code => exact keeps_execQdone hc hk t sh code
  | qyield t sh => exact keeps_execQyield hc hk t sh
  | qrel t sh flow drop => exact keeps_execQrel hc hk t sh flow drop
  | qstat t sh sel => exact keeps_execQstat hc hk t sh sel
  | taskFault t sh cause detail => exact keeps_execTaskFault hc hk t sh cause detail
  | runtimeExpiry t sh => exact keeps_execRuntimeExpiry hc hk t sh
  | waitTimeout t slot => exact keeps_execWaitTimeout hc hk t slot
  | selfCheckDone t sh pass => exact keeps_execSelfCheckDone hc hk t sh pass
  | restore t sh => exact keeps_execRestore hc hk t sh
  | release t f drop => exact keeps_execRelease hc hk t f drop
  | submitTask t p desc => exact keeps_execSubmitTask hc hk t p desc
  | cancelTask t p handle => exact keeps_execCancelTask hc hk t p handle
  | hqPush t p h es => exact keeps_execHqPush hc hk t p h es
  | hqPop t p h max => exact keeps_execHqPop hc hk t p h max
  | loadProgram t p img room => exact keeps_execLoadProgram hc hk t p img room
  | hostInput t p task data => exact keeps_execHostInput hc hk t p task data
  | scanLatch t p k => exact keeps_execScanLatch hc hk t p k
  | scanClose t p k => exact keeps_execScanClose hc hk t p k
  | scanRelease t p k => exact keeps_execScanRelease hc hk t p k
  | cpStart t p value => exact keeps_execCpStart hc hk t p value
  | cpHold t p value => exact keeps_execCpHold hc hk t p value
  | cpResume t p value => exact keeps_execCpResume hc hk t p value
  | cpStop t p value => exact keeps_execCpStop hc hk t p value
  | retainCheckpoint t => exact keeps_execRetainCheckpoint hc hk t
  | powerFail t low => exact keeps_execPowerFail hc hk t low
  | retainCommitDone t p good => exact keeps_execRetainCommitDone hc hk t p good
  | rjStateWrite t p w value => exact keeps_execRjStateWrite hc hk t p w value
  | ringEnWrite t r value => exact keeps_execRingEnWrite hc hk t r value
  | insertionLocked t r => exact keeps_execInsertionLocked hc hk t r
  | insertionTimeout t r => exact keeps_execInsertionTimeout hc hk t r
  | discover t r => exact keeps_execDiscover hc hk t r
  | enumReturn t r descs => exact keeps_execEnumReturn hc hk t r descs
  | delayReturn t r reverse tx rx times => exact keeps_execDelayReturn hc hk t r reverse tx rx times
  | discFail t r => exact keeps_execDiscFail hc hk t r
  | ringStart t r => exact keeps_execRingStart hc hk t r
  | ringStop t r => exact keeps_execRingStop hc hk t r
  | cycleStart t r => exact keeps_execCycleStart hc hk t r
  | receptionEnd t r onF frame => exact keeps_execReceptionEnd hc hk t r onF frame
  | rxLimit t r linkLost => exact keeps_execRxLimit hc hk t r linkLost
  | mbxGo t r value => exact keeps_execMbxGo hc hk t r value
  | mbxTmo t r => exact keeps_execMbxTmo hc hk t r
  | reservationWritten t r good => exact keeps_execReservationWritten hc hk t r good
  | safetyCycle t c => exact keeps_execSafetyCycle hc hk t c
  | permitWord t valid => exact keeps_execPermitWord hc hk t valid
  | linkSilent t => exact keeps_execLinkSilent hc hk t
  | dieTick t => exact keeps_execDieTick hc hk t
  | sinChannelChange t pair chanB level => exact keeps_execSinChannelChange hc hk t pair chanB level
  | discrepancyFault t pair => exact keeps_execDiscrepancyFault hc hk t pair
  | testPulse t chanB fails => exact keeps_execTestPulse hc hk t chanB fails
  | outputTest t o result => exact keeps_execOutputTest hc hk t o result
  | termComparison t agree => exact keeps_execTermComparison hc hk t agree
  | islandFault t => exact keeps_execIslandFault hc hk t
  | matrixLoad t good => exact keeps_execMatrixLoad hc hk t good
  | overcastWindowEnd t => exact keeps_execOvercastWindowEnd hc hk t
  | overcastArmed t => exact keeps_execOvercastArmed hc hk t
  | sclkCrosscheck t bad => exact keeps_execSclkCrosscheck hc hk t bad
  | weftFrame t n f => exact keeps_execWeftFrame hc hk t n f
  | weftDeadline t n => exact keeps_execWeftDeadline hc hk t n
  | programMatrix t c readBack room => exact keeps_execProgramMatrix hc hk t c readBack room
  | loadSafety t img readBack room => exact keeps_execLoadSafety hc hk t img readBack room
  | safetyPhase t phase => exact keeps_execSafetyPhase hc hk t phase
  | safetyReset t mask => exact keeps_execSafetyReset hc hk t mask
  | status t c role flags term rings => exact keeps_execStatus hc hk t c role flags term rings
  | renew t c term e => exact keeps_execRenew hc hk t c term e
  | renewAck t c term e => exact keeps_execRenewAck hc hk t c term e
  | digest t c r cycle digest => exact keeps_execDigest hc hk t c r cycle digest
  | have_ t c r cycle have_ => exact keeps_execHave_ hc hk t c r cycle have_
  | inputs t c r cycle bytes => exact keeps_execInputs hc hk t c r cycle bytes
  | time t c t1 t2 rate => exact keeps_execTime hc hk t c t1 t2 rate
  | handover t c term x => exact keeps_execHandover hc hk t c term x
  | handoverAck t c term x => exact keeps_execHandoverAck hc hk t c term x
  | commit t c term x => exact keeps_execCommit hc hk t c term x
  | handoverInstant t => exact keeps_execHandoverInstant hc hk t
  | check t c report => exact keeps_execCheck hc hk t c report
  | rapidSelfCheckDone t pass => exact keeps_execRapidSelfCheckDone hc hk t pass
  | cmd t c at_ => exact keeps_execCmd hc hk t c at_
  | executionInstant t acked => exact keeps_execExecutionInstant hc hk t acked
  | snap t c chunk chunks whole => exact keeps_execSnap hc hk t c chunk chunks whole
  | snapAck t c chunk => exact keeps_execSnapAck hc hk t c chunk
  | renewalInstant t => exact keeps_execRenewalInstant hc hk t
  | linkLost t => exact keeps_execLinkLost hc hk t
  | linkUp t same => exact keeps_execLinkUp hc hk t same
  | lapse t => exact keeps_execLapse hc hk t
  | takeover t => exact keeps_execTakeover hc hk t
  | replayTimeout t => exact keeps_execReplayTimeout hc hk t
  | resyncRetry t same => exact keeps_execResyncRetry hc hk t same
  | soloStart t => exact keeps_execSoloStart hc hk t
  | join t value => exact keeps_execJoin hc hk t value
  | leave t value => exact keeps_execLeave hc hk t value
  | resync t value same => exact keeps_execResync hc hk t value same
  | switch t value => exact keeps_execSwitch hc hk t value
  | authority t a readBack => exact keeps_execAuthority hc hk t a readBack
  | applyDelta t d => exact keeps_execApplyDelta hc hk t d
  | deltaApplyDone t result code kibS => exact keeps_execDeltaApplyDone hc hk t result code kibS
  | debugChallenge t jtag => exact keeps_execDebugChallenge hc hk t jtag
  | debugOpen t jtag r => exact keeps_execDebugOpen hc hk t jtag r
  | debugClose t jtag => exact keeps_execDebugClose hc hk t jtag
  | debugExpiry t => exact keeps_execDebugExpiry hc hk t
  | attest t nonce => exact keeps_execAttest hc hk t nonce
  | activate t value => exact keeps_execActivate hc hk t value
  | updCancel t value => exact keeps_execUpdCancel hc hk t value
  | confirm t value => exact keeps_execConfirm hc hk t value
  | activationCheck t => exact keeps_execActivationCheck hc hk t
  | bar2Access t sram offset len data => exact keeps_execBar2Access hc hk t sram offset len data
  | backoffEnd t => exact keeps_execBackoffEnd hc hk t
  | wakeHoldEnd t => exact keeps_execWakeHoldEnd hc hk t
  | pwrTolWrite t r value => exact keeps_execPwrTolWrite hc hk t r value
  | blockAnswer t busy => exact keeps_execBlockAnswer hc hk t busy
  | entryTimeout t => exact keeps_execEntryTimeout hc hk t
  | lullFrame t frame bothHigh => exact keeps_execLullFrame hc hk t frame bothHigh
  | wakeN t lowUs takes => exact keeps_execWakeN hc hk t lowUs takes
  | alarm t => exact keeps_execAlarm hc hk t
  | hostWake t => exact keeps_execHostWake hc hk t
  | wakeDone t => exact keeps_execWakeDone hc hk t
  | wakeTimeout t => exact keeps_execWakeTimeout hc hk t
  | wakeRetry t => exact keeps_execWakeRetry hc hk t
  | quadrantReady t q bad => exact keeps_execQuadrantReady hc hk t q bad
  | resetPin t lowNs takes => exact keeps_execResetPin hc hk t lowNs takes
  | deviceReset t value => exact keeps_execDeviceReset hc hk t value
  | watchdog t => exact keeps_execWatchdog hc hk t
  | powerGoodChange t good lost => exact keeps_execPowerGoodChange hc hk t good lost
  | resetRelease t b => exact keeps_execResetRelease hc hk t b
  | resumeInstant t => exact keeps_execResumeInstant hc hk t
  | warmCheckpoint t completed => exact keeps_execWarmCheckpoint hc hk t completed
  | partitionReset t p value => exact keeps_execPartitionReset hc hk t p value
  | prDone t p => exact keeps_execPrDone hc hk t p
  | mbxDb t m value => exact keeps_execMbxDb hc hk t m value
  | commandDatagram t q port src entry data => exact keeps_execCommandDatagram hc hk t q port src entry data
  | mwrite t obj offset data => exact keeps_execMwrite hc hk t obj offset data
  | view t p refresh => exact keeps_execView hc hk t p refresh
  | odoClear t p kind index => exact keeps_execOdoClear hc hk t p kind index
  | pvStateRead t r p refresh => exact keeps_execPvStateRead hc hk t r p refresh
  | mgmtDiverge t p => exact keeps_execMgmtDiverge hc hk t p
  | ptpEventMessage t q ingress served => exact keeps_execPtpEventMessage hc hk t q ingress served
  | pmbusPoll t x => exact keeps_execPmbusPoll hc hk t x
  | pmbAlert t x => exact keeps_execPmbAlert hc hk t x
  | lifeUpdate t hour tjAvg mvAvg => exact keeps_execLifeUpdate hc hk t hour tjAvg mvAvg
  | scrub t hits => exact keeps_execScrub hc hk t hits
  | refclkReturn t => exact keeps_execRefclkReturn hc hk t
  | warpCounterMismatch t => exact keeps_execWarpCounterMismatch hc hk t
  | comparatorRelease t ain rise => exact keeps_execComparatorRelease hc hk t ain rise
  | channelSample t n => exact keeps_execChannelSample hc hk t n
  | pwmEdge t pin => exact keeps_execPwmEdge hc hk t pin
  | syncOutFall t => exact keeps_execSyncOutFall hc hk t
  | stepPulseFall t n => exact keeps_execStepPulseFall hc hk t n
  | lullFrameGap t => exact keeps_execLullFrameGap hc hk t
  | haveSend t r => exact keeps_execHaveSend hc hk t r
  | statusSend t => exact keeps_execStatusSend hc hk t
  | timeSend t => exact keeps_execTimeSend hc hk t
  | commitDeadline t => exact keeps_execCommitDeadline hc hk t
  | syncInstant t chunks => exact keeps_execSyncInstant hc hk t chunks
  | catchUpDone t state => exact keeps_execCatchUpDone hc hk t state
  | islandReloadDone t ok => exact keeps_execIslandReloadDone hc hk t ok
  | serdesLaneReadyChange t r laneF ready => exact keeps_execSerdesLaneReadyChange hc hk t r laneF ready

end Sys2Proof.Machine
end

