-- ==== Sys2Proof/Laws/Reads.lean ====
section
/-! SUPPORT.  A register that an operation does not touch reads the same after it. -/

namespace Sys2Proof.Machine

open Sys2Proof

set_option Elab.async false

@[simp] theorem rd_absorbTo (s : State) (left : Int) {fld : Fld} (hf : Touched.absorbTo.has fld.id = false) (inst : Nat) :
    (State.absorbTo s left).rd fld inst = s.rd fld inst :=
  keeps_absorbTo (closed_rd fld inst _ hf) rfl _

@[simp] theorem rd_advance (s : State) (t : Instant) {fld : Fld} (hf : Touched.advance.has fld.id = false) (inst : Nat) :
    (State.advance s t).rd fld inst = s.rd fld inst :=
  keeps_advance (closed_rd fld inst _ hf) rfl _

@[simp] theorem rd_coarseEdge (s : State)  {fld : Fld} (hf : Touched.coarseEdge.has fld.id = false) (inst : Nat) :
    (State.coarseEdge s).rd fld inst = s.rd fld inst :=
  keeps_coarseEdge (closed_rd fld inst _ hf) rfl 

@[simp] theorem rd_discard (s : State) (reason : Nat) (off : Nat) {fld : Fld} (hf : Touched.discard.has fld.id = false) (inst : Nat) :
    (State.discard s reason off).rd fld inst = s.rd fld inst :=
  keeps_discard (closed_rd fld inst _ hf) rfl _ _

@[simp] theorem rd_discardOther (s : State) (off : Nat) {fld : Fld} (hf : Touched.discardOther.has fld.id = false) (inst : Nat) :
    (State.discardOther s off).rd fld inst = s.rd fld inst :=
  keeps_discardOther (closed_rd fld inst _ hf) rfl _

@[simp] theorem rd_fineEdge (s : State)  {fld : Fld} (hf : Touched.fineEdge.has fld.id = false) (inst : Nat) :
    (State.fineEdge s).rd fld inst = s.rd fld inst :=
  keeps_fineEdge (closed_rd fld inst _ hf) rfl 

@[simp] theorem rd_interrupt (s : State) (n : Nat) {fld : Fld} (hf : Touched.interrupt.has fld.id = false) (inst : Nat) :
    (State.interrupt s n).rd fld inst = s.rd fld inst :=
  keeps_interrupt (closed_rd fld inst _ hf) rfl _

@[simp] theorem rd_putSlew (s : State) (left : Int) {fld : Fld} (hf : Touched.putSlew.has fld.id = false) (inst : Nat) :
    (State.putSlew s left).rd fld inst = s.rd fld inst :=
  keeps_putSlew (closed_rd fld inst _ hf) rfl _

@[simp] theorem rd_warpEdge (s : State)  {fld : Fld} (hf : Touched.warpEdge.has fld.id = false) (inst : Nat) :
    (State.warpEdge s).rd fld inst = s.rd fld inst :=
  keeps_warpEdge (closed_rd fld inst _ hf) rfl 

@[simp] theorem rd_windowGrows (s : State) (n : Nat) {fld : Fld} (hf : Touched.windowGrows.has fld.id = false) (inst : Nat) :
    (State.windowGrows s n).rd fld inst = s.rd fld inst :=
  keeps_windowGrows (closed_rd fld inst _ hf) rfl _

@[simp] theorem rd_endRun (s : State) (k : Nat) (tap : Nat) {fld : Fld} (hf : Touched.endRun.has fld.id = false) (inst : Nat) :
    (State.endRun s k tap).rd fld inst = s.rd fld inst :=
  keeps_endRun (closed_rd fld inst _ hf) rfl _ _

@[simp] theorem rd_event (s : State) (k : Nat) (kind : Nat) (id : Nat) (bit : Nat) (sel : Nat) (res : Nat) (detail : List Byte) {fld : Fld} (hf : Touched.event.has fld.id = false) (inst : Nat) :
    (State.event s k kind id bit sel res detail).rd fld inst = s.rd fld inst :=
  keeps_event (closed_rd fld inst _ hf) rfl _ _ _ _ _ _ _

@[simp] theorem rd_placeAll (s : State) (k : Nat) (a : Nat) {fld : Fld} (hf : Touched.placeAll.has fld.id = false) (inst : Nat) :
    (State.placeAll s k a).rd fld inst = s.rd fld inst :=
  keeps_placeAll (closed_rd fld inst _ hf) rfl _ _

@[simp] theorem rd_placeBlock (s : State) (k : Nat) {fld : Fld} (hf : Touched.placeBlock.has fld.id = false) (inst : Nat) :
    (State.placeBlock s k).rd fld inst = s.rd fld inst :=
  keeps_placeBlock (closed_rd fld inst _ hf) rfl _

@[simp] theorem rd_putRec (s : State) (k : Nat) (r : SkRec) (a : Nat) {fld : Fld} (hf : Touched.putRec.has fld.id = false) (inst : Nat) :
    (State.putRec s k r a).rd fld inst = s.rd fld inst :=
  keeps_putRec (closed_rd fld inst _ hf) rfl _ _ _

@[simp] theorem rd_putStream (s : State) (k : Nat) (x : Stream) {fld : Fld} (hf : Touched.putStream.has fld.id = false) (inst : Nat) :
    (State.putStream s k x).rd fld inst = s.rd fld inst :=
  keeps_putStream (closed_rd fld inst _ hf) rfl _ _

@[simp] theorem rd_record (s : State) (k : Nat) (r : SkRec) {fld : Fld} (hf : Touched.record.has fld.id = false) (inst : Nat) :
    (State.record s k r).rd fld inst = s.rd fld inst :=
  keeps_record (closed_rd fld inst _ hf) rfl _ _

@[simp] theorem rd_seal (s : State) (k : Nat) {fld : Fld} (hf : Touched.seal.has fld.id = false) (inst : Nat) :
    (State.seal s k).rd fld inst = s.rd fld inst :=
  keeps_seal (closed_rd fld inst _ hf) rfl _

@[simp] theorem rd_showBurst (s : State)  {fld : Fld} (hf : Touched.showBurst.has fld.id = false) (inst : Nat) :
    (State.showBurst s).rd fld inst = s.rd fld inst :=
  keeps_showBurst (closed_rd fld inst _ hf) rfl 

@[simp] theorem rd_skEvent (s : State) (k : Nat) (bit : Nat) {fld : Fld} (hf : Touched.skEvent.has fld.id = false) (inst : Nat) :
    (State.skEvent s k bit).rd fld inst = s.rd fld inst :=
  keeps_skEvent (closed_rd fld inst _ hf) rfl _ _

@[simp] theorem rd_faultHandover (s : State)  {fld : Fld} (hf : Touched.faultHandover.has fld.id = false) (inst : Nat) :
    (State.faultHandover s).rd fld inst = s.rd fld inst :=
  keeps_faultHandover (closed_rd fld inst _ hf) rfl 

@[simp] theorem rd_lapseWitness (s : State) (r : Nat) {fld : Fld} (hf : Touched.lapseWitness.has fld.id = false) (inst : Nat) :
    (State.lapseWitness s r).rd fld inst = s.rd fld inst :=
  keeps_lapseWitness (closed_rd fld inst _ hf) rfl _

@[simp] theorem rd_onTandem (s : State) (f : Tandem → Tandem) {fld : Fld} (hf : Touched.onTandem.has fld.id = false) (inst : Nat) :
    (State.onTandem s f).rd fld inst = s.rd fld inst :=
  keeps_onTandem (closed_rd fld inst _ hf) rfl _

@[simp] theorem rd_putExpiry (s : State) (e : Instant) {fld : Fld} (hf : Touched.putExpiry.has fld.id = false) (inst : Nat) :
    (State.putExpiry s e).rd fld inst = s.rd fld inst :=
  keeps_putExpiry (closed_rd fld inst _ hf) rfl _

@[simp] theorem rd_putPair (s : State) (r : Nat) (x : PairRing) {fld : Fld} (hf : Touched.putPair.has fld.id = false) (inst : Nat) :
    (State.putPair s r x).rd fld inst = s.rd fld inst :=
  keeps_putPair (closed_rd fld inst _ hf) rfl _ _

@[simp] theorem rd_sendFrame (s : State) (type : Nat) (payload : List Byte) {fld : Fld} (hf : Touched.sendFrame.has fld.id = false) (inst : Nat) :
    (State.sendFrame s type payload).rd fld inst = s.rd fld inst :=
  keeps_sendFrame (closed_rd fld inst _ hf) rfl _ _

@[simp] theorem rd_showGuard (s : State)  {fld : Fld} (hf : Touched.showGuard.has fld.id = false) (inst : Nat) :
    (State.showGuard s).rd fld inst = s.rd fld inst :=
  keeps_showGuard (closed_rd fld inst _ hf) rfl 

@[simp] theorem rd_startHandover (s : State) (x : Instant) (offline : Bool) {fld : Fld} (hf : Touched.startHandover.has fld.id = false) (inst : Nat) :
    (State.startHandover s x offline).rd fld inst = s.rd fld inst :=
  keeps_startHandover (closed_rd fld inst _ hf) rfl _ _

@[simp] theorem rd_tdEvent (s : State) (bit : Nat) {fld : Fld} (hf : Touched.tdEvent.has fld.id = false) (inst : Nat) :
    (State.tdEvent s bit).rd fld inst = s.rd fld inst :=
  keeps_tdEvent (closed_rd fld inst _ hf) rfl _

@[simp] theorem rd_tdNote (s : State) (bit : Nat) (res : Nat) {fld : Fld} (hf : Touched.tdNote.has fld.id = false) (inst : Nat) :
    (State.tdNote s bit res).rd fld inst = s.rd fld inst :=
  keeps_tdNote (closed_rd fld inst _ hf) rfl _ _

@[simp] theorem rd_tdRecord (s : State) (bit : Nat) (res : Nat) {fld : Fld} (hf : Touched.tdRecord.has fld.id = false) (inst : Nat) :
    (State.tdRecord s bit res).rd fld inst = s.rd fld inst :=
  keeps_tdRecord (closed_rd fld inst _ hf) rfl _ _

@[simp] theorem rd_devFault (s : State) (cause : Nat) {fld : Fld} (hf : Touched.devFault.has fld.id = false) (inst : Nat) :
    (State.devFault s cause).rd fld inst = s.rd fld inst :=
  keeps_devFault (closed_rd fld inst _ hf) rfl _

@[simp] theorem rd_sysFault (s : State) (cls : Nat) (what : Nat) {fld : Fld} (hf : Touched.sysFault.has fld.id = false) (inst : Nat) :
    (State.sysFault s cls what).rd fld inst = s.rd fld inst :=
  keeps_sysFault (closed_rd fld inst _ hf) rfl _ _

@[simp] theorem rd_command (s : State) (k : Nat) (b : Bool) {fld : Fld} (hf : Touched.command.has fld.id = false) (inst : Nat) :
    (State.command s k b).rd fld inst = s.rd fld inst :=
  keeps_command (closed_rd fld inst _ hf) rfl _ _

@[simp] theorem rd_countOut (s : State) (k : Nat) {fld : Fld} (hf : Touched.countOut.has fld.id = false) (inst : Nat) :
    (State.countOut s k).rd fld inst = s.rd fld inst :=
  keeps_countOut (closed_rd fld inst _ hf) rfl _

@[simp] theorem rd_loomEvent (s : State) (stream : Nat) (id : Nat) (bit : Nat) (detail : List Byte) {fld : Fld} (hf : Touched.loomEvent.has fld.id = false) (inst : Nat) :
    (State.loomEvent s stream id bit detail).rd fld inst = s.rd fld inst :=
  keeps_loomEvent (closed_rd fld inst _ hf) rfl _ _ _ _

@[simp] theorem rd_publish (s : State) (kind : Nat) (id : Nat) (v : Nat) {fld : Fld} (hf : Touched.publish.has fld.id = false) (inst : Nat) :
    (State.publish s kind id v).rd fld inst = s.rd fld inst :=
  keeps_publish (closed_rd fld inst _ hf) rfl _ _ _

@[simp] theorem rd_putCycPart (s : State) (p : Nat) (x : CycPart) {fld : Fld} (hf : Touched.putCycPart.has fld.id = false) (inst : Nat) :
    (State.putCycPart s p x).rd fld inst = s.rd fld inst :=
  keeps_putCycPart (closed_rd fld inst _ hf) rfl _ _

@[simp] theorem rd_putCycTask (s : State) (k : Nat) (x : CycTask) {fld : Fld} (hf : Touched.putCycTask.has fld.id = false) (inst : Nat) :
    (State.putCycTask s k x).rd fld inst = s.rd fld inst :=
  keeps_putCycTask (closed_rd fld inst _ hf) rfl _ _

@[simp] theorem rd_putOut (s : State) (k : Nat) (x : OutState) {fld : Fld} (hf : Touched.putOut.has fld.id = false) (inst : Nat) :
    (State.putOut s k x).rd fld inst = s.rd fld inst :=
  keeps_putOut (closed_rd fld inst _ hf) rfl _ _

@[simp] theorem rd_putRecord (s : State) (key : Nat) (r : BeamRec) {fld : Fld} (hf : Touched.putRecord.has fld.id = false) (inst : Nat) :
    (State.putRecord s key r).rd fld inst = s.rd fld inst :=
  keeps_putRecord (closed_rd fld inst _ hf) rfl _ _

@[simp] theorem rd_putRing (s : State) (r : Nat) (x : Ring) {fld : Fld} (hf : Touched.putRing.has fld.id = false) (inst : Nat) :
    (State.putRing s r x).rd fld inst = s.rd fld inst :=
  keeps_putRing (closed_rd fld inst _ hf) rfl _ _

@[simp] theorem rd_settle (s : State)  {fld : Fld} (hf : Touched.settle.has fld.id = false) (inst : Nat) :
    (State.settle s).rd fld inst = s.rd fld inst :=
  keeps_settle (closed_rd fld inst _ hf) rfl 

@[simp] theorem rd_takeLevel (s : State) (k : Nat) (b : Bool) {fld : Fld} (hf : Touched.takeLevel.has fld.id = false) (inst : Nat) :
    (State.takeLevel s k b).rd fld inst = s.rd fld inst :=
  keeps_takeLevel (closed_rd fld inst _ hf) rfl _ _

@[simp] theorem rd_accrue (s : State)  {fld : Fld} (hf : Touched.accrue.has fld.id = false) (inst : Nat) :
    (State.accrue s).rd fld inst = s.rd fld inst :=
  keeps_accrue (closed_rd fld inst _ hf) rfl 

@[simp] theorem rd_beginExit (s : State)  {fld : Fld} (hf : Touched.beginExit.has fld.id = false) (inst : Nat) :
    (State.beginExit s).rd fld inst = s.rd fld inst :=
  keeps_beginExit (closed_rd fld inst _ hf) rfl 

@[simp] theorem rd_beginHold (s : State)  {fld : Fld} (hf : Touched.beginHold.has fld.id = false) (inst : Nat) :
    (State.beginHold s).rd fld inst = s.rd fld inst :=
  keeps_beginHold (closed_rd fld inst _ hf) rfl 

@[simp] theorem rd_entryFails (s : State) (code : Nat) (cause : Nat) {fld : Fld} (hf : Touched.entryFails.has fld.id = false) (inst : Nat) :
    (State.entryFails s code cause).rd fld inst = s.rd fld inst :=
  keeps_entryFails (closed_rd fld inst _ hf) rfl _ _

@[simp] theorem rd_idleCheck (s : State)  {fld : Fld} (hf : Touched.idleCheck.has fld.id = false) (inst : Nat) :
    (State.idleCheck s).rd fld inst = s.rd fld inst :=
  keeps_idleCheck (closed_rd fld inst _ hf) rfl 

@[simp] theorem rd_internalWake (s : State) (code : Nat) {fld : Fld} (hf : Touched.internalWake.has fld.id = false) (inst : Nat) :
    (State.internalWake s code).rd fld inst = s.rd fld inst :=
  keeps_internalWake (closed_rd fld inst _ hf) rfl _

@[simp] theorem rd_onPower (s : State) (f : Power → Power) {fld : Fld} (hf : Touched.onPower.has fld.id = false) (inst : Nat) :
    (State.onPower s f).rd fld inst = s.rd fld inst :=
  keeps_onPower (closed_rd fld inst _ hf) rfl _

@[simp] theorem rd_putAssist (s : State) (x : Nat) {fld : Fld} (hf : Touched.putAssist.has fld.id = false) (inst : Nat) :
    (State.putAssist s x).rd fld inst = s.rd fld inst :=
  keeps_putAssist (closed_rd fld inst _ hf) rfl _

@[simp] theorem rd_putBias (s : State) (x : Nat) {fld : Fld} (hf : Touched.putBias.has fld.id = false) (inst : Nat) :
    (State.putBias s x).rd fld inst = s.rd fld inst :=
  keeps_putBias (closed_rd fld inst _ hf) rfl _

@[simp] theorem rd_putPwrState (s : State) (x : Nat) {fld : Fld} (hf : Touched.putPwrState.has fld.id = false) (inst : Nat) :
    (State.putPwrState s x).rd fld inst = s.rd fld inst :=
  keeps_putPwrState (closed_rd fld inst _ hf) rfl _

@[simp] theorem rd_pwrEvent (s : State) (bit : Nat) {fld : Fld} (hf : Touched.pwrEvent.has fld.id = false) (inst : Nat) :
    (State.pwrEvent s bit).rd fld inst = s.rd fld inst :=
  keeps_pwrEvent (closed_rd fld inst _ hf) rfl _

@[simp] theorem rd_pwrFlag (s : State) (bit : Nat) {fld : Fld} (hf : Touched.pwrFlag.has fld.id = false) (inst : Nat) :
    (State.pwrFlag s bit).rd fld inst = s.rd fld inst :=
  keeps_pwrFlag (closed_rd fld inst _ hf) rfl _

@[simp] theorem rd_regate (s : State)  {fld : Fld} (hf : Touched.regate.has fld.id = false) (inst : Nat) :
    (State.regate s).rd fld inst = s.rd fld inst :=
  keeps_regate (closed_rd fld inst _ hf) rfl 

@[simp] theorem rd_runChange (s : State)  {fld : Fld} (hf : Touched.runChange.has fld.id = false) (inst : Nat) :
    (State.runChange s).rd fld inst = s.rd fld inst :=
  keeps_runChange (closed_rd fld inst _ hf) rfl 

@[simp] theorem rd_select (s : State)  {fld : Fld} (hf : Touched.select.has fld.id = false) (inst : Nat) :
    (State.select s).rd fld inst = s.rd fld inst :=
  keeps_select (closed_rd fld inst _ hf) rfl 

@[simp] theorem rd_startWake (s : State)  {fld : Fld} (hf : Touched.startWake.has fld.id = false) (inst : Nat) :
    (State.startWake s).rd fld inst = s.rd fld inst :=
  keeps_startWake (closed_rd fld inst _ hf) rfl 

@[simp] theorem rd_wake (s : State) (code : Nat) {fld : Fld} (hf : Touched.wake.has fld.id = false) (inst : Nat) :
    (State.wake s code).rd fld inst = s.rd fld inst :=
  keeps_wake (closed_rd fld inst _ hf) rfl _

@[simp] theorem rd_wakeQuadrant (s : State) (q : Nat) {fld : Fld} (hf : Touched.wakeQuadrant.has fld.id = false) (inst : Nat) :
    (State.wakeQuadrant s q).rd fld inst = s.rd fld inst :=
  keeps_wakeQuadrant (closed_rd fld inst _ hf) rfl _

@[simp] theorem rd_countMove (s : State) (n : Nat) {fld : Fld} (hf : Touched.countMove.has fld.id = false) (inst : Nat) :
    (State.countMove s n).rd fld inst = s.rd fld inst :=
  keeps_countMove (closed_rd fld inst _ hf) rfl _

@[simp] theorem rd_doSwap (s : State) (n : Nat) {fld : Fld} (hf : Touched.doSwap.has fld.id = false) (inst : Nat) :
    (State.doSwap s n).rd fld inst = s.rd fld inst :=
  keeps_doSwap (closed_rd fld inst _ hf) rfl _

@[simp] theorem rd_putCell (s : State) (n : Nat) (c : LoopCell) {fld : Fld} (hf : Touched.putCell.has fld.id = false) (inst : Nat) :
    (State.putCell s n c).rd fld inst = s.rd fld inst :=
  keeps_putCell (closed_rd fld inst _ hf) rfl _ _

@[simp] theorem rd_putCs (s : State) (n : Nat) (cs : Int) {fld : Fld} (hf : Touched.putCs.has fld.id = false) (inst : Nat) :
    (State.putCs s n cs).rd fld inst = s.rd fld inst :=
  keeps_putCs (closed_rd fld inst _ hf) rfl _ _

@[simp] theorem rd_putPin (s : State) (n : Nat) (x : FioPin) {fld : Fld} (hf : Touched.putPin.has fld.id = false) (inst : Nat) :
    (State.putPin s n x).rd fld inst = s.rd fld inst :=
  keeps_putPin (closed_rd fld inst _ hf) rfl _ _

@[simp] theorem rd_putShadow (s : State) (n : Nat) (b : Bank) {fld : Fld} (hf : Touched.putShadow.has fld.id = false) (inst : Nat) :
    (State.putShadow s n b).rd fld inst = s.rd fld inst :=
  keeps_putShadow (closed_rd fld inst _ hf) rfl _ _

@[simp] theorem rd_shadowReset (s : State) (n : Nat) {fld : Fld} (hf : Touched.shadowReset.has fld.id = false) (inst : Nat) :
    (State.shadowReset s n).rd fld inst = s.rd fld inst :=
  keeps_shadowReset (closed_rd fld inst _ hf) rfl _

@[simp] theorem rd_swapClamp (s : State) (n : Nat) {fld : Fld} (hf : Touched.swapClamp.has fld.id = false) (inst : Nat) :
    (State.swapClamp s n).rd fld inst = s.rd fld inst :=
  keeps_swapClamp (closed_rd fld inst _ hf) rfl _

@[simp] theorem rd_trySwap (s : State) (n : Nat) {fld : Fld} (hf : Touched.trySwap.has fld.id = false) (inst : Nat) :
    (State.trySwap s n).rd fld inst = s.rd fld inst :=
  keeps_trySwap (closed_rd fld inst _ hf) rfl _

@[simp] theorem rd_applyLimits (s : State) (n : Nat) {fld : Fld} (hf : Touched.applyLimits.has fld.id = false) (inst : Nat) :
    (State.applyLimits s n).rd fld inst = s.rd fld inst :=
  keeps_applyLimits (closed_rd fld inst _ hf) rfl _

@[simp] theorem rd_commitGen (s : State) (n : Nat) {fld : Fld} (hf : Touched.commitGen.has fld.id = false) (inst : Nat) :
    (State.commitGen s n).rd fld inst = s.rd fld inst :=
  keeps_commitGen (closed_rd fld inst _ hf) rfl _

@[simp] theorem rd_genShadowReset (s : State) (n : Nat) {fld : Fld} (hf : Touched.genShadowReset.has fld.id = false) (inst : Nat) :
    (State.genShadowReset s n).rd fld inst = s.rd fld inst :=
  keeps_genShadowReset (closed_rd fld inst _ hf) rfl _

@[simp] theorem rd_giveLimits (s : State) (n : Nat) (l : Nat × Nat × Nat) {fld : Fld} (hf : Touched.giveLimits.has fld.id = false) (inst : Nat) :
    (State.giveLimits s n l).rd fld inst = s.rd fld inst :=
  keeps_giveLimits (closed_rd fld inst _ hf) rfl _ _

@[simp] theorem rd_giveTarget (s : State) (n : Nat) (v : Nat) {fld : Fld} (hf : Touched.giveTarget.has fld.id = false) (inst : Nat) :
    (State.giveTarget s n v).rd fld inst = s.rd fld inst :=
  keeps_giveTarget (closed_rd fld inst _ hf) rfl _ _

@[simp] theorem rd_holdGens (s : State) (p : Nat) (held : Bool) {fld : Fld} (hf : Touched.holdGens.has fld.id = false) (inst : Nat) :
    (State.holdGens s p held).rd fld inst = s.rd fld inst :=
  keeps_holdGens (closed_rd fld inst _ hf) rfl _ _

@[simp] theorem rd_putGen (s : State) (n : Nat) (g : Gen) {fld : Fld} (hf : Touched.putGen.has fld.id = false) (inst : Nat) :
    (State.putGen s n g).rd fld inst = s.rd fld inst :=
  keeps_putGen (closed_rd fld inst _ hf) rfl _ _

@[simp] theorem rd_shapeGen (s : State) (n : Nat) (sp : Int) (spDot : Int) {fld : Fld} (hf : Touched.shapeGen.has fld.id = false) (inst : Nat) :
    (State.shapeGen s n sp spDot).rd fld inst = s.rd fld inst :=
  keeps_shapeGen (closed_rd fld inst _ hf) rfl _ _ _

@[simp] theorem rd_showGen (s : State) (n : Nat) (sp : Int) (spDot : Int) {fld : Fld} (hf : Touched.showGen.has fld.id = false) (inst : Nat) :
    (State.showGen s n sp spDot).rd fld inst = s.rd fld inst :=
  keeps_showGen (closed_rd fld inst _ hf) rfl _ _ _

@[simp] theorem rd_stageGen (s : State) (n : Nat) (op : Nat) (a0 : Nat) (a1 : Nat) (a2 : Nat) {fld : Fld} (hf : Touched.stageGen.has fld.id = false) (inst : Nat) :
    (State.stageGen s n op a0 a1 a2).rd fld inst = s.rd fld inst :=
  keeps_stageGen (closed_rd fld inst _ hf) rfl _ _ _ _ _

@[simp] theorem rd_startGen (s : State) (n : Nat) {fld : Fld} (hf : Touched.startGen.has fld.id = false) (inst : Nat) :
    (State.startGen s n).rd fld inst = s.rd fld inst :=
  keeps_startGen (closed_rd fld inst _ hf) rfl _

@[simp] theorem rd_stopGen (s : State) (n : Nat) {fld : Fld} (hf : Touched.stopGen.has fld.id = false) (inst : Nat) :
    (State.stopGen s n).rd fld inst = s.rd fld inst :=
  keeps_stopGen (closed_rd fld inst _ hf) rfl _

@[simp] theorem rd_updateGen (s : State) (n : Nat) {fld : Fld} (hf : Touched.updateGen.has fld.id = false) (inst : Nat) :
    (State.updateGen s n).rd fld inst = s.rd fld inst :=
  keeps_updateGen (closed_rd fld inst _ hf) rfl _

@[simp] theorem rd_wrShadow (s : State) (n : Nat) (target : Nat) (l : Nat × Nat × Nat) {fld : Fld} (hf : Touched.wrShadow.has fld.id = false) (inst : Nat) :
    (State.wrShadow s n target l).rd fld inst = s.rd fld inst :=
  keeps_wrShadow (closed_rd fld inst _ hf) rfl _ _ _

@[simp] theorem rd_onAxis (s : State) (n : Nat) (f : Axis → Axis) {fld : Fld} (hf : Touched.onAxis.has fld.id = false) (inst : Nat) :
    (State.onAxis s n f).rd fld inst = s.rd fld inst :=
  keeps_onAxis (closed_rd fld inst _ hf) rfl _ _

@[simp] theorem rd_putAxis (s : State) (n : Nat) (x : Axis) {fld : Fld} (hf : Touched.putAxis.has fld.id = false) (inst : Nat) :
    (State.putAxis s n x).rd fld inst = s.rd fld inst :=
  keeps_putAxis (closed_rd fld inst _ hf) rfl _ _

@[simp] theorem rd_syncGroups (s : State) (t : Instant) {fld : Fld} (hf : Touched.syncGroups.has fld.id = false) (inst : Nat) :
    (State.syncGroups s t).rd fld inst = s.rd fld inst :=
  keeps_syncGroups (closed_rd fld inst _ hf) rfl _

@[simp] theorem rd_onSec (s : State) (f : Security → Security) {fld : Fld} (hf : Touched.onSec.has fld.id = false) (inst : Nat) :
    (State.onSec s f).rd fld inst = s.rd fld inst :=
  keeps_onSec (closed_rd fld inst _ hf) rfl _

@[simp] theorem rd_secEvent (s : State) (bit : Nat) {fld : Fld} (hf : Touched.secEvent.has fld.id = false) (inst : Nat) :
    (State.secEvent s bit).rd fld inst = s.rd fld inst :=
  keeps_secEvent (closed_rd fld inst _ hf) rfl _

@[simp] theorem rd_abortTreadle (s : State) (p : Nat) {fld : Fld} (hf : Touched.abortTreadle.has fld.id = false) (inst : Nat) :
    (State.abortTreadle s p).rd fld inst = s.rd fld inst :=
  keeps_abortTreadle (closed_rd fld inst _ hf) rfl _

@[simp] theorem rd_cancelStaging (s : State) (p : Nat) (reason : Nat) {fld : Fld} (hf : Touched.cancelStaging.has fld.id = false) (inst : Nat) :
    (State.cancelStaging s p reason).rd fld inst = s.rd fld inst :=
  keeps_cancelStaging (closed_rd fld inst _ hf) rfl _ _

@[simp] theorem rd_clearPause (s : State) (p : Nat) (mask : Nat) {fld : Fld} (hf : Touched.clearPause.has fld.id = false) (inst : Nat) :
    (State.clearPause s p mask).rd fld inst = s.rd fld inst :=
  keeps_clearPause (closed_rd fld inst _ hf) rfl _ _

@[simp] theorem rd_copyTable (s : State) (p : Nat) (t : StepTable) {fld : Fld} (hf : Touched.copyTable.has fld.id = false) (inst : Nat) :
    (State.copyTable s p t).rd fld inst = s.rd fld inst :=
  keeps_copyTable (closed_rd fld inst _ hf) rfl _ _

@[simp] theorem rd_endTreadle (s : State) (p : Nat) {fld : Fld} (hf : Touched.endTreadle.has fld.id = false) (inst : Nat) :
    (State.endTreadle s p).rd fld inst = s.rd fld inst :=
  keeps_endTreadle (closed_rd fld inst _ hf) rfl _

@[simp] theorem rd_enterPause (s : State) (p : Nat) {fld : Fld} (hf : Touched.enterPause.has fld.id = false) (inst : Nat) :
    (State.enterPause s p).rd fld inst = s.rd fld inst :=
  keeps_enterPause (closed_rd fld inst _ hf) rfl _

@[simp] theorem rd_idleTreadle (s : State) (p : Nat) {fld : Fld} (hf : Touched.idleTreadle.has fld.id = false) (inst : Nat) :
    (State.idleTreadle s p).rd fld inst = s.rd fld inst :=
  keeps_idleTreadle (closed_rd fld inst _ hf) rfl _

@[simp] theorem rd_latchConds (s : State) (srcKind : Nat) (id : Nat) {fld : Fld} (hf : Touched.latchConds.has fld.id = false) (inst : Nat) :
    (State.latchConds s srcKind id).rd fld inst = s.rd fld inst :=
  keeps_latchConds (closed_rd fld inst _ hf) rfl _ _

@[simp] theorem rd_latchDone (s : State) (p : Nat) {fld : Fld} (hf : Touched.latchDone.has fld.id = false) (inst : Nat) :
    (State.latchDone s p).rd fld inst = s.rd fld inst :=
  keeps_latchDone (closed_rd fld inst _ hf) rfl _

@[simp] theorem rd_latchIn (s : State) (p : Nat) (srcKind : Nat) (id : Nat) {fld : Fld} (hf : Touched.latchIn.has fld.id = false) (inst : Nat) :
    (State.latchIn s p srcKind id).rd fld inst = s.rd fld inst :=
  keeps_latchIn (closed_rd fld inst _ hf) rfl _ _ _

@[simp] theorem rd_leavePause (s : State) (p : Nat) {fld : Fld} (hf : Touched.leavePause.has fld.id = false) (inst : Nat) :
    (State.leavePause s p).rd fld inst = s.rd fld inst :=
  keeps_leavePause (closed_rd fld inst _ hf) rfl _

@[simp] theorem rd_pauseCause (s : State) (p : Nat) (k : Nat) {fld : Fld} (hf : Touched.pauseCause.has fld.id = false) (inst : Nat) :
    (State.pauseCause s p k).rd fld inst = s.rd fld inst :=
  keeps_pauseCause (closed_rd fld inst _ hf) rfl _ _

@[simp] theorem rd_putTreadle (s : State) (p : Nat) (x : Treadle) {fld : Fld} (hf : Touched.putTreadle.has fld.id = false) (inst : Nat) :
    (State.putTreadle s p x).rd fld inst = s.rd fld inst :=
  keeps_putTreadle (closed_rd fld inst _ hf) rfl _ _

@[simp] theorem rd_resetTreadle (s : State) (p : Nat) {fld : Fld} (hf : Touched.resetTreadle.has fld.id = false) (inst : Nat) :
    (State.resetTreadle s p).rd fld inst = s.rd fld inst :=
  keeps_resetTreadle (closed_rd fld inst _ hf) rfl _

@[simp] theorem rd_schedule (s : State) (p : Nat) (d : Option (Instant × DueKind)) {fld : Fld} (hf : Touched.schedule.has fld.id = false) (inst : Nat) :
    (State.schedule s p d).rd fld inst = s.rd fld inst :=
  keeps_schedule (closed_rd fld inst _ hf) rfl _ _

@[simp] theorem rd_segmentsDone (s : State) (p : Nat) (n : Nat) {fld : Fld} (hf : Touched.segmentsDone.has fld.id = false) (inst : Nat) :
    (State.segmentsDone s p n).rd fld inst = s.rd fld inst :=
  keeps_segmentsDone (closed_rd fld inst _ hf) rfl _ _

@[simp] theorem rd_stage (s : State) (p : Nat) (n : Nat) {fld : Fld} (hf : Touched.stage.has fld.id = false) (inst : Nat) :
    (State.stage s p n).rd fld inst = s.rd fld inst :=
  keeps_stage (closed_rd fld inst _ hf) rfl _ _

@[simp] theorem rd_stageAction (s : State) (t : StepTable) (touched : List Nat) (a : PoolEntry) {fld : Fld} (hf : Touched.stageAction.has fld.id = false) (inst : Nat) :
    (State.stageAction s t touched a).rd fld inst = s.rd fld inst :=
  keeps_stageAction (closed_rd fld inst _ hf) rfl _ _ _

@[simp] theorem rd_stageActions (s : State) (t : StepTable) (touched : List Nat) (a : List PoolEntry) {fld : Fld} (hf : Touched.stageActions.has fld.id = false) (inst : Nat) :
    (State.stageActions s t touched a).rd fld inst = s.rd fld inst :=
  keeps_stageActions (closed_rd fld inst _ hf) rfl _ _ _

@[simp] theorem rd_treadleEvent (s : State) (p : Nat) (bit : Nat) (step : Nat) {fld : Fld} (hf : Touched.treadleEvent.has fld.id = false) (inst : Nat) :
    (State.treadleEvent s p bit step).rd fld inst = s.rd fld inst :=
  keeps_treadleEvent (closed_rd fld inst _ hf) rfl _ _ _

@[simp] theorem rd_addClaim (s : State) (p : Nat) (c : Claim) {fld : Fld} (hf : Touched.addClaim.has fld.id = false) (inst : Nat) :
    (State.addClaim s p c).rd fld inst = s.rd fld inst :=
  keeps_addClaim (closed_rd fld inst _ hf) rfl _ _

@[simp] theorem rd_admitEntry (s : State) (h : Nat) (e : QEntry) {fld : Fld} (hf : Touched.admitEntry.has fld.id = false) (inst : Nat) :
    (State.admitEntry s h e).1.rd fld inst = s.rd fld inst :=
  keeps_admitEntry (closed_rd fld inst _ hf) rfl _ _

@[simp] theorem rd_answerShuttle (s : State) (k : Nat) (r : Int) {fld : Fld} (hf : Touched.answerShuttle.has fld.id = false) (inst : Nat) :
    (State.answerShuttle s k r).rd fld inst = s.rd fld inst :=
  keeps_answerShuttle (closed_rd fld inst _ hf) rfl _ _

@[simp] theorem rd_cancelHandle (s : State) (p : Nat) (h : Nat) {fld : Fld} (hf : Touched.cancelHandle.has fld.id = false) (inst : Nat) :
    (State.cancelHandle s p h).1.rd fld inst = s.rd fld inst :=
  keeps_cancelHandle (closed_rd fld inst _ hf) rfl _ _

@[simp] theorem rd_cancelSlot (s : State) (i : Nat) {fld : Fld} (hf : Touched.cancelSlot.has fld.id = false) (inst : Nat) :
    (State.cancelSlot s i).1.rd fld inst = s.rd fld inst :=
  keeps_cancelSlot (closed_rd fld inst _ hf) rfl _

@[simp] theorem rd_complete (s : State) (i : Nat) (status : Nat) (cause : Nat) (code : Nat) {fld : Fld} (hf : Touched.complete.has fld.id = false) (inst : Nat) :
    (State.complete s i status cause code).rd fld inst = s.rd fld inst :=
  keeps_complete (closed_rd fld inst _ hf) rfl _ _ _ _

@[simp] theorem rd_countLoad (s : State) (k : Nat) {fld : Fld} (hf : Touched.countLoad.has fld.id = false) (inst : Nat) :
    (State.countLoad s k).rd fld inst = s.rd fld inst :=
  keeps_countLoad (closed_rd fld inst _ hf) rfl _

@[simp] theorem rd_createTask (s : State) (p : Nat) (d : TaskDesc) (root : Option Nat) (scan : Option Nat) {fld : Fld} (hf : Touched.createTask.has fld.id = false) (inst : Nat) :
    (State.createTask s p d root scan).1.rd fld inst = s.rd fld inst :=
  keeps_createTask (closed_rd fld inst _ hf) rfl _ _ _ _

@[simp] theorem rd_deliver (s : State) (i : Nat) (a : Nat) (e : QEntry) {fld : Fld} (hf : Touched.deliver.has fld.id = false) (inst : Nat) :
    (State.deliver s i a e).rd fld inst = s.rd fld inst :=
  keeps_deliver (closed_rd fld inst _ hf) rfl _ _ _

@[simp] theorem rd_dispatch (s : State)  {fld : Fld} (hf : Touched.dispatch.has fld.id = false) (inst : Nat) :
    (State.dispatch s).rd fld inst = s.rd fld inst :=
  keeps_dispatch (closed_rd fld inst _ hf) rfl 

@[simp] theorem rd_dispatchLoop (s : State) (a : Nat) {fld : Fld} (hf : Touched.dispatchLoop.has fld.id = false) (inst : Nat) :
    (State.dispatchLoop s a).rd fld inst = s.rd fld inst :=
  keeps_dispatchLoop (closed_rd fld inst _ hf) rfl _

@[simp] theorem rd_emptyFifos (s : State) (p : Nat) {fld : Fld} (hf : Touched.emptyFifos.has fld.id = false) (inst : Nat) :
    (State.emptyFifos s p).rd fld inst = s.rd fld inst :=
  keeps_emptyFifos (closed_rd fld inst _ hf) rfl _

@[simp] theorem rd_emptyQueue (s : State) (h : Nat) {fld : Fld} (hf : Touched.emptyQueue.has fld.id = false) (inst : Nat) :
    (State.emptyQueue s h).rd fld inst = s.rd fld inst :=
  keeps_emptyQueue (closed_rd fld inst _ hf) rfl _

@[simp] theorem rd_endOne (s : State) (e : Ending) {fld : Fld} (hf : Touched.endOne.has fld.id = false) (inst : Nat) :
    (State.endOne s e).1.rd fld inst = s.rd fld inst :=
  keeps_endOne (closed_rd fld inst _ hf) rfl _

@[simp] theorem rd_endings (s : State) (a : Nat) (x2 : List Ending) {fld : Fld} (hf : Touched.endings.has fld.id = false) (inst : Nat) :
    (State.endings s a x2).rd fld inst = s.rd fld inst :=
  keeps_endings (closed_rd fld inst _ hf) rfl _ _

@[simp] theorem rd_enlist (s : State) (i : Nat) {fld : Fld} (hf : Touched.enlist.has fld.id = false) (inst : Nat) :
    (State.enlist s i).rd fld inst = s.rd fld inst :=
  keeps_enlist (closed_rd fld inst _ hf) rfl _

@[simp] theorem rd_enterFifo (s : State) (k : Nat) (data : Nat) {fld : Fld} (hf : Touched.enterFifo.has fld.id = false) (inst : Nat) :
    (State.enterFifo s k data).rd fld inst = s.rd fld inst :=
  keeps_enterFifo (closed_rd fld inst _ hf) rfl _ _

@[simp] theorem rd_fillBuffer (s : State) (p : Nat) (sh : Nat) (a : Nat) (bs : List Byte) {fld : Fld} (hf : Touched.fillBuffer.has fld.id = false) (inst : Nat) :
    (State.fillBuffer s p sh a bs).rd fld inst = s.rd fld inst :=
  keeps_fillBuffer (closed_rd fld inst _ hf) rfl _ _ _ _

@[simp] theorem rd_freeAll (s : State) (l : List Nat) {fld : Fld} (hf : Touched.freeAll.has fld.id = false) (inst : Nat) :
    (State.freeAll s l).rd fld inst = s.rd fld inst :=
  keeps_freeAll (closed_rd fld inst _ hf) rfl _

@[simp] theorem rd_freeTask (s : State) (i : Nat) {fld : Fld} (hf : Touched.freeTask.has fld.id = false) (inst : Nat) :
    (State.freeTask s i).rd fld inst = s.rd fld inst :=
  keeps_freeTask (closed_rd fld inst _ hf) rfl _

@[simp] theorem rd_holdFlow (s : State) (f : Nat) (cause : Nat) {fld : Fld} (hf : Touched.holdFlow.has fld.id = false) (inst : Nat) :
    (State.holdFlow s f cause).rd fld inst = s.rd fld inst :=
  keeps_holdFlow (closed_rd fld inst _ hf) rfl _ _

@[simp] theorem rd_instantiate (s : State) (p : Nat) (tpl : Nat) (arg : Nat) (root : Option Nat) {fld : Fld} (hf : Touched.instantiate.has fld.id = false) (inst : Nat) :
    (State.instantiate s p tpl arg root).1.rd fld inst = s.rd fld inst :=
  keeps_instantiate (closed_rd fld inst _ hf) rfl _ _ _ _

@[simp] theorem rd_landTask (s : State) (i : Nat) {fld : Fld} (hf : Touched.landTask.has fld.id = false) (inst : Nat) :
    (State.landTask s i).rd fld inst = s.rd fld inst :=
  keeps_landTask (closed_rd fld inst _ hf) rfl _

@[simp] theorem rd_leaveShuttle (s : State) (k : Nat) (i : Nat) (st : Nat) {fld : Fld} (hf : Touched.leaveShuttle.has fld.id = false) (inst : Nat) :
    (State.leaveShuttle s k i st).rd fld inst = s.rd fld inst :=
  keeps_leaveShuttle (closed_rd fld inst _ hf) rfl _ _ _

@[simp] theorem rd_makeReady (s : State) (i : Nat) {fld : Fld} (hf : Touched.makeReady.has fld.id = false) (inst : Nat) :
    (State.makeReady s i).rd fld inst = s.rd fld inst :=
  keeps_makeReady (closed_rd fld inst _ hf) rfl _

@[simp] theorem rd_makeResume (s : State) (i : Nat) (r : Int) {fld : Fld} (hf : Touched.makeResume.has fld.id = false) (inst : Nat) :
    (State.makeResume s i r).rd fld inst = s.rd fld inst :=
  keeps_makeResume (closed_rd fld inst _ hf) rfl _ _

@[simp] theorem rd_noteWait (s : State) (l : Nat) (ns : Nat) {fld : Fld} (hf : Touched.noteWait.has fld.id = false) (inst : Nat) :
    (State.noteWait s l ns).rd fld inst = s.rd fld inst :=
  keeps_noteWait (closed_rd fld inst _ hf) rfl _ _

@[simp] theorem rd_notifyAll (s : State) (p : Nat) (poison : Bool) (a : List Nat) {fld : Fld} (hf : Touched.notifyAll.has fld.id = false) (inst : Nat) :
    (State.notifyAll s p poison a).1.rd fld inst = s.rd fld inst :=
  keeps_notifyAll (closed_rd fld inst _ hf) rfl _ _ _

@[simp] theorem rd_notifyOne (s : State) (p : Nat) (h : Nat) (poison : Bool) {fld : Fld} (hf : Touched.notifyOne.has fld.id = false) (inst : Nat) :
    (State.notifyOne s p h poison).1.rd fld inst = s.rd fld inst :=
  keeps_notifyOne (closed_rd fld inst _ hf) rfl _ _ _

@[simp] theorem rd_offerEvent (s : State) (k : Nat) (data : Nat) (waits : Bool) {fld : Fld} (hf : Touched.offerEvent.has fld.id = false) (inst : Nat) :
    (State.offerEvent s k data waits).rd fld inst = s.rd fld inst :=
  keeps_offerEvent (closed_rd fld inst _ hf) rfl _ _ _

@[simp] theorem rd_offerHead (s : State) (f : Nat) {fld : Fld} (hf : Touched.offerHead.has fld.id = false) (inst : Nat) :
    (State.offerHead s f).rd fld inst = s.rd fld inst :=
  keeps_offerHead (closed_rd fld inst _ hf) rfl _

@[simp] theorem rd_onSched (s : State) (f : Sched → Sched) {fld : Fld} (hf : Touched.onSched.has fld.id = false) (inst : Nat) :
    (State.onSched s f).rd fld inst = s.rd fld inst :=
  keeps_onSched (closed_rd fld inst _ hf) rfl _

@[simp] theorem rd_partStore (s : State) (p : Nat) (a : Nat) (bs : List Byte) {fld : Fld} (hf : Touched.partStore.has fld.id = false) (inst : Nat) :
    (State.partStore s p a bs).rd fld inst = s.rd fld inst :=
  keeps_partStore (closed_rd fld inst _ hf) rfl _ _ _

@[simp] theorem rd_popEntry (s : State) (h : Nat) {fld : Fld} (hf : Touched.popEntry.has fld.id = false) (inst : Nat) :
    (State.popEntry s h).rd fld inst = s.rd fld inst :=
  keeps_popEntry (closed_rd fld inst _ hf) rfl _

@[simp] theorem rd_pushEntry (s : State) (h : Nat) (e : QEntry) {fld : Fld} (hf : Touched.pushEntry.has fld.id = false) (inst : Nat) :
    (State.pushEntry s h e).rd fld inst = s.rd fld inst :=
  keeps_pushEntry (closed_rd fld inst _ hf) rfl _ _

@[simp] theorem rd_putFifo (s : State) (k : Nat) (l : List Nat) {fld : Fld} (hf : Touched.putFifo.has fld.id = false) (inst : Nat) :
    (State.putFifo s k l).rd fld inst = s.rd fld inst :=
  keeps_putFifo (closed_rd fld inst _ hf) rfl _ _

@[simp] theorem rd_putFlow (s : State) (f : Nat) (l : List Nat) {fld : Fld} (hf : Touched.putFlow.has fld.id = false) (inst : Nat) :
    (State.putFlow s f l).rd fld inst = s.rd fld inst :=
  keeps_putFlow (closed_rd fld inst _ hf) rfl _ _

@[simp] theorem rd_putHeld (s : State) (k : Nat) (l : List Nat) {fld : Fld} (hf : Touched.putHeld.has fld.id = false) (inst : Nat) :
    (State.putHeld s k l).rd fld inst = s.rd fld inst :=
  keeps_putHeld (closed_rd fld inst _ hf) rfl _ _

@[simp] theorem rd_putQueue (s : State) (h : Nat) (x : HwQueue) {fld : Fld} (hf : Touched.putQueue.has fld.id = false) (inst : Nat) :
    (State.putQueue s h x).rd fld inst = s.rd fld inst :=
  keeps_putQueue (closed_rd fld inst _ hf) rfl _ _

@[simp] theorem rd_putShState (s : State) (k : Nat) (st : Nat) (slot : Nat) {fld : Fld} (hf : Touched.putShState.has fld.id = false) (inst : Nat) :
    (State.putShState s k st slot).rd fld inst = s.rd fld inst :=
  keeps_putShState (closed_rd fld inst _ hf) rfl _ _ _

@[simp] theorem rd_putShuttle (s : State) (k : Nat) (x : Shuttle) {fld : Fld} (hf : Touched.putShuttle.has fld.id = false) (inst : Nat) :
    (State.putShuttle s k x).rd fld inst = s.rd fld inst :=
  keeps_putShuttle (closed_rd fld inst _ hf) rfl _ _

@[simp] theorem rd_putTask (s : State) (i : Nat) (x : Task) {fld : Fld} (hf : Touched.putTask.has fld.id = false) (inst : Nat) :
    (State.putTask s i x).rd fld inst = s.rd fld inst :=
  keeps_putTask (closed_rd fld inst _ hf) rfl _ _

@[simp] theorem rd_putTemplate (s : State) (k : Nat) (d : Option TaskDesc) {fld : Fld} (hf : Touched.putTemplate.has fld.id = false) (inst : Nat) :
    (State.putTemplate s k d).rd fld inst = s.rd fld inst :=
  keeps_putTemplate (closed_rd fld inst _ hf) rfl _ _

@[simp] theorem rd_releaseFlow (s : State) (f : Nat) (drop : Bool) {fld : Fld} (hf : Touched.releaseFlow.has fld.id = false) (inst : Nat) :
    (State.releaseFlow s f drop).rd fld inst = s.rd fld inst :=
  keeps_releaseFlow (closed_rd fld inst _ hf) rfl _ _

@[simp] theorem rd_resetTasks (s : State) (p : Nat) {fld : Fld} (hf : Touched.resetTasks.has fld.id = false) (inst : Nat) :
    (State.resetTasks s p).rd fld inst = s.rd fld inst :=
  keeps_resetTasks (closed_rd fld inst _ hf) rfl _

@[simp] theorem rd_schedEvent (s : State) (p : Option Nat) (bit : Nat) {fld : Fld} (hf : Touched.schedEvent.has fld.id = false) (inst : Nat) :
    (State.schedEvent s p bit).rd fld inst = s.rd fld inst :=
  keeps_schedEvent (closed_rd fld inst _ hf) rfl _ _

@[simp] theorem rd_schedPut (s : State) (er : Nat) (data : Nat) {fld : Fld} (hf : Touched.schedPut.has fld.id = false) (inst : Nat) :
    (State.schedPut s er data).rd fld inst = s.rd fld inst :=
  keeps_schedPut (closed_rd fld inst _ hf) rfl _ _

@[simp] theorem rd_serve (s : State) (p : Nat) {fld : Fld} (hf : Touched.serve.has fld.id = false) (inst : Nat) :
    (State.serve s p).rd fld inst = s.rd fld inst :=
  keeps_serve (closed_rd fld inst _ hf) rfl _

@[simp] theorem rd_serveClaim (s : State) (p : Nat) (a : Claim) {fld : Fld} (hf : Touched.serveClaim.has fld.id = false) (inst : Nat) :
    (State.serveClaim s p a).rd fld inst = s.rd fld inst :=
  keeps_serveClaim (closed_rd fld inst _ hf) rfl _ _

@[simp] theorem rd_serveClaims (s : State) (p : Nat) (a : Nat) {fld : Fld} (hf : Touched.serveClaims.has fld.id = false) (inst : Nat) :
    (State.serveClaims s p a).rd fld inst = s.rd fld inst :=
  keeps_serveClaims (closed_rd fld inst _ hf) rfl _ _

@[simp] theorem rd_serveQueue (s : State) (h : Nat) (a : Nat) (x3 : List Nat) {fld : Fld} (hf : Touched.serveQueue.has fld.id = false) (inst : Nat) :
    (State.serveQueue s h a x3).1.rd fld inst = s.rd fld inst :=
  keeps_serveQueue (closed_rd fld inst _ hf) rfl _ _ _

@[simp] theorem rd_settleFlow (s : State) (f : Nat) {fld : Fld} (hf : Touched.settleFlow.has fld.id = false) (inst : Nat) :
    (State.settleFlow s f).rd fld inst = s.rd fld inst :=
  keeps_settleFlow (closed_rd fld inst _ hf) rfl _

@[simp] theorem rd_spawnTask (s : State) (p : Nat) (tpl : Nat) (arg : Nat) {fld : Fld} (hf : Touched.spawnTask.has fld.id = false) (inst : Nat) :
    (State.spawnTask s p tpl arg).rd fld inst = s.rd fld inst :=
  keeps_spawnTask (closed_rd fld inst _ hf) rfl _ _ _

@[simp] theorem rd_startTask (s : State) (i : Nat) (k : Nat) {fld : Fld} (hf : Touched.startTask.has fld.id = false) (inst : Nat) :
    (State.startTask s i k).rd fld inst = s.rd fld inst :=
  keeps_startTask (closed_rd fld inst _ hf) rfl _ _

@[simp] theorem rd_storeAt (s : State) (place : Nat × Nat) (bs : List Byte) {fld : Fld} (hf : Touched.storeAt.has fld.id = false) (inst : Nat) :
    (State.storeAt s place bs).rd fld inst = s.rd fld inst :=
  keeps_storeAt (closed_rd fld inst _ hf) rfl _ _

@[simp] theorem rd_storeEntry (s : State) (h : Nat) (e : QEntry) {fld : Fld} (hf : Touched.storeEntry.has fld.id = false) (inst : Nat) :
    (State.storeEntry s h e).rd fld inst = s.rd fld inst :=
  keeps_storeEntry (closed_rd fld inst _ hf) rfl _ _

@[simp] theorem rd_takeEvent (s : State) (k : Nat) {fld : Fld} (hf : Touched.takeEvent.has fld.id = false) (inst : Nat) :
    (State.takeEvent s k).rd fld inst = s.rd fld inst :=
  keeps_takeEvent (closed_rd fld inst _ hf) rfl _

@[simp] theorem rd_unlist (s : State) (i : Nat) {fld : Fld} (hf : Touched.unlist.has fld.id = false) (inst : Nat) :
    (State.unlist s i).rd fld inst = s.rd fld inst :=
  keeps_unlist (closed_rd fld inst _ hf) rfl _

@[simp] theorem rd_bypassRing (s : State) (r : Nat) {fld : Fld} (hf : Touched.bypassRing.has fld.id = false) (inst : Nat) :
    (State.bypassRing s r).rd fld inst = s.rd fld inst :=
  keeps_bypassRing (closed_rd fld inst _ hf) rfl _

@[simp] theorem rd_discovered (s : State) (r : Nat) (delays : List Int) {fld : Fld} (hf : Touched.discovered.has fld.id = false) (inst : Nat) :
    (State.discovered s r delays).rd fld inst = s.rd fld inst :=
  keeps_discovered (closed_rd fld inst _ hf) rfl _ _

@[simp] theorem rd_discoveryFails (s : State) (r : Nat) (res : Nat) {fld : Fld} (hf : Touched.discoveryFails.has fld.id = false) (inst : Nat) :
    (State.discoveryFails s r res).rd fld inst = s.rd fld inst :=
  keeps_discoveryFails (closed_rd fld inst _ hf) rfl _ _

@[simp] theorem rd_dropStation (s : State) (r : Nat) (i : Nat) {fld : Fld} (hf : Touched.dropStation.has fld.id = false) (inst : Nat) :
    (State.dropStation s r i).rd fld inst = s.rd fld inst :=
  keeps_dropStation (closed_rd fld inst _ hf) rfl _ _

@[simp] theorem rd_endCycle (s : State) (r : Nat) (c : Instant) (cycle : Nat) (segs : List SegRx) (mbx : List MbxSlot) {fld : Fld} (hf : Touched.endCycle.has fld.id = false) (inst : Nat) :
    (State.endCycle s r c cycle segs mbx).rd fld inst = s.rd fld inst :=
  keeps_endCycle (closed_rd fld inst _ hf) rfl _ _ _ _ _

@[simp] theorem rd_feedReverse (s : State) (r : Nat) (hop : Nat) {fld : Fld} (hf : Touched.feedReverse.has fld.id = false) (inst : Nat) :
    (State.feedReverse s r hop).rd fld inst = s.rd fld inst :=
  keeps_feedReverse (closed_rd fld inst _ hf) rfl _ _

@[simp] theorem rd_firstSegment (s : State) (r : Nat) (i : Nat) (wdog : Bool) {fld : Fld} (hf : Touched.firstSegment.has fld.id = false) (inst : Nat) :
    (State.firstSegment s r i wdog).rd fld inst = s.rd fld inst :=
  keeps_firstSegment (closed_rd fld inst _ hf) rfl _ _ _

@[simp] theorem rd_loseFrame (s : State) (r : Nat) {fld : Fld} (hf : Touched.loseFrame.has fld.id = false) (inst : Nat) :
    (State.loseFrame s r).rd fld inst = s.rd fld inst :=
  keeps_loseFrame (closed_rd fld inst _ hf) rfl _

@[simp] theorem rd_missStation (s : State) (r : Nat) (i : Nat) {fld : Fld} (hf : Touched.missStation.has fld.id = false) (inst : Nat) :
    (State.missStation s r i).rd fld inst = s.rd fld inst :=
  keeps_missStation (closed_rd fld inst _ hf) rfl _ _

@[simp] theorem rd_noteBreak (s : State) (r : Nat) (hop : Nat) {fld : Fld} (hf : Touched.noteBreak.has fld.id = false) (inst : Nat) :
    (State.noteBreak s r hop).rd fld inst = s.rd fld inst :=
  keeps_noteBreak (closed_rd fld inst _ hf) rfl _ _

@[simp] theorem rd_noteCycle (s : State) (r : Nat) (k : Nat) {fld : Fld} (hf : Touched.noteCycle.has fld.id = false) (inst : Nat) :
    (State.noteCycle s r k).rd fld inst = s.rd fld inst :=
  keeps_noteCycle (closed_rd fld inst _ hf) rfl _ _

@[simp] theorem rd_putRejoin (s : State) (p : Nat) (r : Nat) (x : Nat) (b : Bool) {fld : Fld} (hf : Touched.putRejoin.has fld.id = false) (inst : Nat) :
    (State.putRejoin s p r x b).rd fld inst = s.rd fld inst :=
  keeps_putRejoin (closed_rd fld inst _ hf) rfl _ _ _ _

@[simp] theorem rd_ringEvent (s : State) (r : Nat) (bit : Nat) {fld : Fld} (hf : Touched.ringEvent.has fld.id = false) (inst : Nat) :
    (State.ringEvent s r bit).rd fld inst = s.rd fld inst :=
  keeps_ringEvent (closed_rd fld inst _ hf) rfl _ _

@[simp] theorem rd_ringRecord (s : State) (r : Nat) (bit : Nat) (res : Nat) (detail : List Byte) {fld : Fld} (hf : Touched.ringRecord.has fld.id = false) (inst : Nat) :
    (State.ringRecord s r bit res detail).rd fld inst = s.rd fld inst :=
  keeps_ringRecord (closed_rd fld inst _ hf) rfl _ _ _ _

@[simp] theorem rd_ringRoutes (s : State) (r : Nat) {fld : Fld} (hf : Touched.ringRoutes.has fld.id = false) (inst : Nat) :
    (State.ringRoutes s r).rd fld inst = s.rd fld inst :=
  keeps_ringRoutes (closed_rd fld inst _ hf) rfl _

@[simp] theorem rd_ringSend (s : State) (r : Nat) (o : Nat) (a : List Byte) {fld : Fld} (hf : Touched.ringSend.has fld.id = false) (inst : Nat) :
    (State.ringSend s r o a).rd fld inst = s.rd fld inst :=
  keeps_ringSend (closed_rd fld inst _ hf) rfl _ _ _

@[simp] theorem rd_sendStation (s : State) (r : Nat) (x : Nat) (c : StationCfg) {fld : Fld} (hf : Touched.sendStation.has fld.id = false) (inst : Nat) :
    (State.sendStation s r x c).rd fld inst = s.rd fld inst :=
  keeps_sendStation (closed_rd fld inst _ hf) rfl _ _ _

@[simp] theorem rd_staleCells (s : State) (r : Nat) (i : Nat) {fld : Fld} (hf : Touched.staleCells.has fld.id = false) (inst : Nat) :
    (State.staleCells s r i).rd fld inst = s.rd fld inst :=
  keeps_staleCells (closed_rd fld inst _ hf) rfl _ _

@[simp] theorem rd_startDiscovery (s : State) (r : Nat) {fld : Fld} (hf : Touched.startDiscovery.has fld.id = false) (inst : Nat) :
    (State.startDiscovery s r).rd fld inst = s.rd fld inst :=
  keeps_startDiscovery (closed_rd fld inst _ hf) rfl _

@[simp] theorem rd_switchPair (s : State) (r : Nat) (closed : Bool) {fld : Fld} (hf : Touched.switchPair.has fld.id = false) (inst : Nat) :
    (State.switchPair s r closed).rd fld inst = s.rd fld inst :=
  keeps_switchPair (closed_rd fld inst _ hf) rfl _ _

@[simp] theorem rd_syncRing (s : State) (r : Nat) {fld : Fld} (hf : Touched.syncRing.has fld.id = false) (inst : Nat) :
    (State.syncRing s r).rd fld inst = s.rd fld inst :=
  keeps_syncRing (closed_rd fld inst _ hf) rfl _

@[simp] theorem rd_takeMailbox (s : State) (r : Nat) (cycle : Nat) (m : MbxSlot) (segs : List SegRx) {fld : Fld} (hf : Touched.takeMailbox.has fld.id = false) (inst : Nat) :
    (State.takeMailbox s r cycle m segs).rd fld inst = s.rd fld inst :=
  keeps_takeMailbox (closed_rd fld inst _ hf) rfl _ _ _ _

@[simp] theorem rd_takeRingKey (s : State) (r : Nat) {fld : Fld} (hf : Touched.takeRingKey.has fld.id = false) (inst : Nat) :
    (State.takeRingKey s r).rd fld inst = s.rd fld inst :=
  keeps_takeRingKey (closed_rd fld inst _ hf) rfl _

@[simp] theorem rd_takeSegment (s : State) (r : Nat) (g : SegRx) {fld : Fld} (hf : Touched.takeSegment.has fld.id = false) (inst : Nat) :
    (State.takeSegment s r g).rd fld inst = s.rd fld inst :=
  keeps_takeSegment (closed_rd fld inst _ hf) rfl _ _

@[simp] theorem rd_takeSegments (s : State) (r : Nat) (cycle : Nat) (segs : List SegRx) {fld : Fld} (hf : Touched.takeSegments.has fld.id = false) (inst : Nat) :
    (State.takeSegments s r cycle segs).rd fld inst = s.rd fld inst :=
  keeps_takeSegments (closed_rd fld inst _ hf) rfl _ _ _

@[simp] theorem rd_dropSample (s : State) (k : Nat) (n : Nat) (cause : Nat) (at_ : Instant) {fld : Fld} (hf : Touched.dropSample.has fld.id = false) (inst : Nat) :
    (State.dropSample s k n cause at_).rd fld inst = s.rd fld inst :=
  keeps_dropSample (closed_rd fld inst _ hf) rfl _ _ _ _

@[simp] theorem rd_endGap (s : State) (k : Nat) (g : Gap) (at_ : Instant) {fld : Fld} (hf : Touched.endGap.has fld.id = false) (inst : Nat) :
    (State.endGap s k g at_).rd fld inst = s.rd fld inst :=
  keeps_endGap (closed_rd fld inst _ hf) rfl _ _ _

@[simp] theorem rd_lateTap (s : State) (at_ : Instant) (n : Nat) {fld : Fld} (hf : Touched.lateTap.has fld.id = false) (inst : Nat) :
    (State.lateTap s at_ n).rd fld inst = s.rd fld inst :=
  keeps_lateTap (closed_rd fld inst _ hf) rfl _ _

@[simp] theorem rd_lateTaps (s : State) (kind : Nat) (id : Nat) (at_ : Instant) {fld : Fld} (hf : Touched.lateTaps.has fld.id = false) (inst : Nat) :
    (State.lateTaps s kind id at_).rd fld inst = s.rd fld inst :=
  keeps_lateTaps (closed_rd fld inst _ hf) rfl _ _ _

@[simp] theorem rd_offerOne (s : State) (k : Nat) (n : Nat) (at_ : Instant) (v : Word) (extra : Nat) {fld : Fld} (hf : Touched.offerOne.has fld.id = false) (inst : Nat) :
    (State.offerOne s k n at_ v extra).rd fld inst = s.rd fld inst :=
  keeps_offerOne (closed_rd fld inst _ hf) rfl _ _ _ _ _

@[simp] theorem rd_offerSample (s : State) (k : Nat) (n : Nat) (at_ : Instant) (v : Word) {fld : Fld} (hf : Touched.offerSample.has fld.id = false) (inst : Nat) :
    (State.offerSample s k n at_ v).rd fld inst = s.rd fld inst :=
  keeps_offerSample (closed_rd fld inst _ hf) rfl _ _ _ _

@[simp] theorem rd_putSample (s : State) (k : Nat) (n : Nat) (at_ : Instant) (v : Word) (extra : Nat) {fld : Fld} (hf : Touched.putSample.has fld.id = false) (inst : Nat) :
    (State.putSample s k n at_ v extra).rd fld inst = s.rd fld inst :=
  keeps_putSample (closed_rd fld inst _ hf) rfl _ _ _ _ _

@[simp] theorem rd_putTapMem (s : State) (n : Nat) (m : TapMem) {fld : Fld} (hf : Touched.putTapMem.has fld.id = false) (inst : Nat) :
    (State.putTapMem s n m).rd fld inst = s.rd fld inst :=
  keeps_putTapMem (closed_rd fld inst _ hf) rfl _ _

@[simp] theorem rd_takeTap (s : State) (n : Nat) (at_ : Instant) (v : Word) {fld : Fld} (hf : Touched.takeTap.has fld.id = false) (inst : Nat) :
    (State.takeTap s n at_ v).rd fld inst = s.rd fld inst :=
  keeps_takeTap (closed_rd fld inst _ hf) rfl _ _ _

@[simp] theorem rd_armMask (s : State) (n : Nat) (env : Nat) {fld : Fld} (hf : Touched.armMask.has fld.id = false) (inst : Nat) :
    (State.armMask s n env).rd fld inst = s.rd fld inst :=
  keeps_armMask (closed_rd fld inst _ hf) rfl _ _

@[simp] theorem rd_armMaskAt (s : State) (n : Nat) (env : Nat) (a : Instant) (byCommit : Bool) {fld : Fld} (hf : Touched.armMaskAt.has fld.id = false) (inst : Nat) :
    (State.armMaskAt s n env a byCommit).rd fld inst = s.rd fld inst :=
  keeps_armMaskAt (closed_rd fld inst _ hf) rfl _ _ _ _

@[simp] theorem rd_armSet (s : State) (n : Nat) {fld : Fld} (hf : Touched.armSet.has fld.id = false) (inst : Nat) :
    (State.armSet s n).rd fld inst = s.rd fld inst :=
  keeps_armSet (closed_rd fld inst _ hf) rfl _

@[simp] theorem rd_armTrig (s : State) (n : Nat) {fld : Fld} (hf : Touched.armTrig.has fld.id = false) (inst : Nat) :
    (State.armTrig s n).rd fld inst = s.rd fld inst :=
  keeps_armTrig (closed_rd fld inst _ hf) rfl _

@[simp] theorem rd_beginFilling (s : State) (n : Nat) {fld : Fld} (hf : Touched.beginFilling.has fld.id = false) (inst : Nat) :
    (State.beginFilling s n).rd fld inst = s.rd fld inst :=
  keeps_beginFilling (closed_rd fld inst _ hf) rfl _

@[simp] theorem rd_capSample (s : State) (c : Nat) (at_ : Instant) (v : Word) {fld : Fld} (hf : Touched.capSample.has fld.id = false) (inst : Nat) :
    (State.capSample s c at_ v).rd fld inst = s.rd fld inst :=
  keeps_capSample (closed_rd fld inst _ hf) rfl _ _ _

@[simp] theorem rd_closeChunk (s : State) (n : Nat) {fld : Fld} (hf : Touched.closeChunk.has fld.id = false) (inst : Nat) :
    (State.closeChunk s n).1.rd fld inst = s.rd fld inst :=
  keeps_closeChunk (closed_rd fld inst _ hf) rfl _

@[simp] theorem rd_closeChunks (s : State) (n : Nat) (rest : Bool) (a : Nat) {fld : Fld} (hf : Touched.closeChunks.has fld.id = false) (inst : Nat) :
    (State.closeChunks s n rest a).rd fld inst = s.rd fld inst :=
  keeps_closeChunks (closed_rd fld inst _ hf) rfl _ _ _

@[simp] theorem rd_crossingChans (s : State) (id : Nat) {fld : Fld} (hf : Touched.crossingChans.has fld.id = false) (inst : Nat) :
    (State.crossingChans s id).rd fld inst = s.rd fld inst :=
  keeps_crossingChans (closed_rd fld inst _ hf) rfl _

@[simp] theorem rd_csEvent (s : State) (n : Nat) (bit : Nat) (res : Nat) {fld : Fld} (hf : Touched.csEvent.has fld.id = false) (inst : Nat) :
    (State.csEvent s n bit res).rd fld inst = s.rd fld inst :=
  keeps_csEvent (closed_rd fld inst _ hf) rfl _ _ _

@[simp] theorem rd_csRecord (s : State) (n : Nat) (bit : Nat) (res : Nat) {fld : Fld} (hf : Touched.csRecord.has fld.id = false) (inst : Nat) :
    (State.csRecord s n bit res).rd fld inst = s.rd fld inst :=
  keeps_csRecord (closed_rd fld inst _ hf) rfl _ _ _

@[simp] theorem rd_disarmMask (s : State) (n : Nat) {fld : Fld} (hf : Touched.disarmMask.has fld.id = false) (inst : Nat) :
    (State.disarmMask s n).rd fld inst = s.rd fld inst :=
  keeps_disarmMask (closed_rd fld inst _ hf) rfl _

@[simp] theorem rd_disarmSet (s : State) (n : Nat) {fld : Fld} (hf : Touched.disarmSet.has fld.id = false) (inst : Nat) :
    (State.disarmSet s n).rd fld inst = s.rd fld inst :=
  keeps_disarmSet (closed_rd fld inst _ hf) rfl _

@[simp] theorem rd_disarmTrig (s : State) (n : Nat) {fld : Fld} (hf : Touched.disarmTrig.has fld.id = false) (inst : Nat) :
    (State.disarmTrig s n).rd fld inst = s.rd fld inst :=
  keeps_disarmTrig (closed_rd fld inst _ hf) rfl _

@[simp] theorem rd_edgeChans (s : State) (id : Nat) (at_ : Instant) {fld : Fld} (hf : Touched.edgeChans.has fld.id = false) (inst : Nat) :
    (State.edgeChans s id at_).rd fld inst = s.rd fld inst :=
  keeps_edgeChans (closed_rd fld inst _ hf) rfl _ _

@[simp] theorem rd_endPost (s : State) (n : Nat) (end_ : Instant) {fld : Fld} (hf : Touched.endPost.has fld.id = false) (inst : Nat) :
    (State.endPost s n end_).rd fld inst = s.rd fld inst :=
  keeps_endPost (closed_rd fld inst _ hf) rfl _ _

@[simp] theorem rd_enterState (s : State) (n : Nat) (x : Nat) (at_ : Instant) {fld : Fld} (hf : Touched.enterState.has fld.id = false) (inst : Nat) :
    (State.enterState s n x at_).rd fld inst = s.rd fld inst :=
  keeps_enterState (closed_rd fld inst _ hf) rfl _ _ _

@[simp] theorem rd_envRefused (s : State) (n : Nat) (env : Nat) {fld : Fld} (hf : Touched.envRefused.has fld.id = false) (inst : Nat) :
    (State.envRefused s n env).rd fld inst = s.rd fld inst :=
  keeps_envRefused (closed_rd fld inst _ hf) rfl _ _

@[simp] theorem rd_idleSet (s : State) (n : Nat) {fld : Fld} (hf : Touched.idleSet.has fld.id = false) (inst : Nat) :
    (State.idleSet s n).rd fld inst = s.rd fld inst :=
  keeps_idleSet (closed_rd fld inst _ hf) rfl _

@[simp] theorem rd_latchSeqs (s : State) (er : Nat) (at_ : Instant) {fld : Fld} (hf : Touched.latchSeqs.has fld.id = false) (inst : Nat) :
    (State.latchSeqs s er at_).rd fld inst = s.rd fld inst :=
  keeps_latchSeqs (closed_rd fld inst _ hf) rfl _ _

@[simp] theorem rd_latchStep (s : State) (p : Nat) (step : Nat) {fld : Fld} (hf : Touched.latchStep.has fld.id = false) (inst : Nat) :
    (State.latchStep s p step).rd fld inst = s.rd fld inst :=
  keeps_latchStep (closed_rd fld inst _ hf) rfl _ _

@[simp] theorem rd_lateChans (s : State) (kind : Nat) (id : Nat) (at_ : Instant) {fld : Fld} (hf : Touched.lateChans.has fld.id = false) (inst : Nat) :
    (State.lateChans s kind id at_).rd fld inst = s.rd fld inst :=
  keeps_lateChans (closed_rd fld inst _ hf) rfl _ _ _

@[simp] theorem rd_lateSamples (s : State) (kind : Nat) (id : Nat) (at_ : Instant) {fld : Fld} (hf : Touched.lateSamples.has fld.id = false) (inst : Nat) :
    (State.lateSamples s kind id at_).rd fld inst = s.rd fld inst :=
  keeps_lateSamples (closed_rd fld inst _ hf) rfl _ _ _

@[simp] theorem rd_muEvent (s : State) (n : Nat) (bit : Nat) (detail : List Byte) {fld : Fld} (hf : Touched.muEvent.has fld.id = false) (inst : Nat) :
    (State.muEvent s n bit detail).rd fld inst = s.rd fld inst :=
  keeps_muEvent (closed_rd fld inst _ hf) rfl _ _ _

@[simp] theorem rd_overflow (s : State) (n : Nat) (c : Nat) (at_ : Instant) {fld : Fld} (hf : Touched.overflow.has fld.id = false) (inst : Nat) :
    (State.overflow s n c at_).rd fld inst = s.rd fld inst :=
  keeps_overflow (closed_rd fld inst _ hf) rfl _ _ _

@[simp] theorem rd_putCset (s : State) (n : Nat) (x : CapSet) {fld : Fld} (hf : Touched.putCset.has fld.id = false) (inst : Nat) :
    (State.putCset s n x).rd fld inst = s.rd fld inst :=
  keeps_putCset (closed_rd fld inst _ hf) rfl _ _

@[simp] theorem rd_putMask (s : State) (n : Nat) (x : MaskUnit) {fld : Fld} (hf : Touched.putMask.has fld.id = false) (inst : Nat) :
    (State.putMask s n x).rd fld inst = s.rd fld inst :=
  keeps_putMask (closed_rd fld inst _ hf) rfl _ _

@[simp] theorem rd_putPost (s : State) (n : Nat) (c : Nat) (at_ : Instant) (v : Word) {fld : Fld} (hf : Touched.putPost.has fld.id = false) (inst : Nat) :
    (State.putPost s n c at_ v).rd fld inst = s.rd fld inst :=
  keeps_putPost (closed_rd fld inst _ hf) rfl _ _ _ _

@[simp] theorem rd_putSeq (s : State) (n : Nat) (x : TrigSeq) {fld : Fld} (hf : Touched.putSeq.has fld.id = false) (inst : Nat) :
    (State.putSeq s n x).rd fld inst = s.rd fld inst :=
  keeps_putSeq (closed_rd fld inst _ hf) rfl _ _

@[simp] theorem rd_releaseChans (s : State) (kind : Nat) (id : Nat) (at_ : Instant) {fld : Fld} (hf : Touched.releaseChans.has fld.id = false) (inst : Nat) :
    (State.releaseChans s kind id at_).rd fld inst = s.rd fld inst :=
  keeps_releaseChans (closed_rd fld inst _ hf) rfl _ _ _

@[simp] theorem rd_resetTrig (s : State) (p : Nat) {fld : Fld} (hf : Touched.resetTrig.has fld.id = false) (inst : Nat) :
    (State.resetTrig s p).rd fld inst = s.rd fld inst :=
  keeps_resetTrig (closed_rd fld inst _ hf) rfl _

@[simp] theorem rd_ringChans (s : State) (r : Nat) (signal : Nat) {fld : Fld} (hf : Touched.ringChans.has fld.id = false) (inst : Nat) :
    (State.ringChans s r signal).rd fld inst = s.rd fld inst :=
  keeps_ringChans (closed_rd fld inst _ hf) rfl _ _

@[simp] theorem rd_streamChunks (s : State) (n : Nat) {fld : Fld} (hf : Touched.streamChunks.has fld.id = false) (inst : Nat) :
    (State.streamChunks s n).rd fld inst = s.rd fld inst :=
  keeps_streamChunks (closed_rd fld inst _ hf) rfl _

@[simp] theorem rd_trigEvent (s : State) (er : Nat) (data : Nat) (at_ : Instant) {fld : Fld} (hf : Touched.trigEvent.has fld.id = false) (inst : Nat) :
    (State.trigEvent s er data at_).rd fld inst = s.rd fld inst :=
  keeps_trigEvent (closed_rd fld inst _ hf) rfl _ _ _

@[simp] theorem rd_trigStep (s : State) (p : Nat) (step : Nat) {fld : Fld} (hf : Touched.trigStep.has fld.id = false) (inst : Nat) :
    (State.trigStep s p step).rd fld inst = s.rd fld inst :=
  keeps_trigStep (closed_rd fld inst _ hf) rfl _ _

@[simp] theorem rd_tsEvent (s : State) (n : Nat) (bit : Nat) {fld : Fld} (hf : Touched.tsEvent.has fld.id = false) (inst : Nat) :
    (State.tsEvent s n bit).rd fld inst = s.rd fld inst :=
  keeps_tsEvent (closed_rd fld inst _ hf) rfl _ _

@[simp] theorem rd_cpEvent (s : State) (p : Nat) (bit : Nat) {fld : Fld} (hf : Touched.cpEvent.has fld.id = false) (inst : Nat) :
    (State.cpEvent s p bit).rd fld inst = s.rd fld inst :=
  keeps_cpEvent (closed_rd fld inst _ hf) rfl _ _

@[simp] theorem rd_dropRoot (s : State) (p : Nat) (k : Nat) {fld : Fld} (hf : Touched.dropRoot.has fld.id = false) (inst : Nat) :
    (State.dropRoot s p k).rd fld inst = s.rd fld inst :=
  keeps_dropRoot (closed_rd fld inst _ hf) rfl _ _

@[simp] theorem rd_dropScan (s : State) (p : Nat) (k : Nat) {fld : Fld} (hf : Touched.dropScan.has fld.id = false) (inst : Nat) :
    (State.dropScan s p k).rd fld inst = s.rd fld inst :=
  keeps_dropScan (closed_rd fld inst _ hf) rfl _ _

@[simp] theorem rd_enterStop (s : State) (p : Nat) (cause : Nat) {fld : Fld} (hf : Touched.enterStop.has fld.id = false) (inst : Nat) :
    (State.enterStop s p cause).rd fld inst = s.rd fld inst :=
  keeps_enterStop (closed_rd fld inst _ hf) rfl _ _

@[simp] theorem rd_partStop (s : State) (p : Nat) (cause : Nat) {fld : Fld} (hf : Touched.partStop.has fld.id = false) (inst : Nat) :
    (State.partStop s p cause).rd fld inst = s.rd fld inst :=
  keeps_partStop (closed_rd fld inst _ hf) rfl _ _

@[simp] theorem rd_putMapped (s : State) (e : MapEntry) (bs : List Byte) {fld : Fld} (hf : Touched.putMapped.has fld.id = false) (inst : Nat) :
    (State.putMapped s e bs).rd fld inst = s.rd fld inst :=
  keeps_putMapped (closed_rd fld inst _ hf) rfl _ _

@[simp] theorem rd_safeMapped (s : State) (e : MapEntry) {fld : Fld} (hf : Touched.safeMapped.has fld.id = false) (inst : Nat) :
    (State.safeMapped s e).rd fld inst = s.rd fld inst :=
  keeps_safeMapped (closed_rd fld inst _ hf) rfl _

@[simp] theorem rd_safeOutputs (s : State) (p : Nat) {fld : Fld} (hf : Touched.safeOutputs.has fld.id = false) (inst : Nat) :
    (State.safeOutputs s p).rd fld inst = s.rd fld inst :=
  keeps_safeOutputs (closed_rd fld inst _ hf) rfl _

@[simp] theorem rd_stopAll (s : State) (cause : Nat) {fld : Fld} (hf : Touched.stopAll.has fld.id = false) (inst : Nat) :
    (State.stopAll s cause).rd fld inst = s.rd fld inst :=
  keeps_stopAll (closed_rd fld inst _ hf) rfl _

@[simp] theorem rd_stopRecord (s : State) (p : Nat) (cause : Nat) {fld : Fld} (hf : Touched.stopRecord.has fld.id = false) (inst : Nat) :
    (State.stopRecord s p cause).rd fld inst = s.rd fld inst :=
  keeps_stopRecord (closed_rd fld inst _ hf) rfl _ _

@[simp] theorem rd_announceTaps (s : State) (k : Nat) {fld : Fld} (hf : Touched.announceTaps.has fld.id = false) (inst : Nat) :
    (State.announceTaps s k).rd fld inst = s.rd fld inst :=
  keeps_announceTaps (closed_rd fld inst _ hf) rfl _

@[simp] theorem rd_discardEdits (s : State) (p : Nat) {fld : Fld} (hf : Touched.discardEdits.has fld.id = false) (inst : Nat) :
    (State.discardEdits s p).rd fld inst = s.rd fld inst :=
  keeps_discardEdits (closed_rd fld inst _ hf) rfl _

@[simp] theorem rd_emit (s : State) (er : Nat) (data : Nat) (at_ : Instant) {fld : Fld} (hf : Touched.emit.has fld.id = false) (inst : Nat) :
    (State.emit s er data at_).rd fld inst = s.rd fld inst :=
  keeps_emit (closed_rd fld inst _ hf) rfl _ _ _

@[simp] theorem rd_emitEdge (s : State) (kind : Nat) (id : Nat) (rising : Bool) (at_ : Instant) {fld : Fld} (hf : Touched.emitEdge.has fld.id = false) (inst : Nat) :
    (State.emitEdge s kind id rising at_).rd fld inst = s.rd fld inst :=
  keeps_emitEdge (closed_rd fld inst _ hf) rfl _ _ _ _

@[simp] theorem rd_emitFrom (s : State) (kind : Nat) (id : Nat) (data : Nat) {fld : Fld} (hf : Touched.emitFrom.has fld.id = false) (inst : Nat) :
    (State.emitFrom s kind id data).rd fld inst = s.rd fld inst :=
  keeps_emitFrom (closed_rd fld inst _ hf) rfl _ _ _

@[simp] theorem rd_endApply (s : State) (p : Nat) (res : Nat) {fld : Fld} (hf : Touched.endApply.has fld.id = false) (inst : Nat) :
    (State.endApply s p res).rd fld inst = s.rd fld inst :=
  keeps_endApply (closed_rd fld inst _ hf) rfl _ _

@[simp] theorem rd_evalLe (s : State) (n : Nat) (since : Instant) {fld : Fld} (hf : Touched.evalLe.has fld.id = false) (inst : Nat) :
    (State.evalLe s n since).rd fld inst = s.rd fld inst :=
  keeps_evalLe (closed_rd fld inst _ hf) rfl _ _

@[simp] theorem rd_lpEvent (s : State) (p : Nat) (bit : Nat) {fld : Fld} (hf : Touched.lpEvent.has fld.id = false) (inst : Nat) :
    (State.lpEvent s p bit).rd fld inst = s.rd fld inst :=
  keeps_lpEvent (closed_rd fld inst _ hf) rfl _ _

@[simp] theorem rd_putApply (s : State) (p : Nat) (a : Apply) {fld : Fld} (hf : Touched.putApply.has fld.id = false) (inst : Nat) :
    (State.putApply s p a).rd fld inst = s.rd fld inst :=
  keeps_putApply (closed_rd fld inst _ hf) rfl _ _

@[simp] theorem rd_putLe (s : State) (n : Nat) (x : LogicElem) {fld : Fld} (hf : Touched.putLe.has fld.id = false) (inst : Nat) :
    (State.putLe s n x).rd fld inst = s.rd fld inst :=
  keeps_putLe (closed_rd fld inst _ hf) rfl _ _

@[simp] theorem rd_resetApply (s : State) (p : Nat) {fld : Fld} (hf : Touched.resetApply.has fld.id = false) (inst : Nat) :
    (State.resetApply s p).rd fld inst = s.rd fld inst :=
  keeps_resetApply (closed_rd fld inst _ hf) rfl _

@[simp] theorem rd_restoreShadows (s : State) (p : Nat) {fld : Fld} (hf : Touched.restoreShadows.has fld.id = false) (inst : Nat) :
    (State.restoreShadows s p).rd fld inst = s.rd fld inst :=
  keeps_restoreShadows (closed_rd fld inst _ hf) rfl _

@[simp] theorem rd_setLe (s : State) (n : Nat) (b : Bool) {fld : Fld} (hf : Touched.setLe.has fld.id = false) (inst : Nat) :
    (State.setLe s n b).rd fld inst = s.rd fld inst :=
  keeps_setLe (closed_rd fld inst _ hf) rfl _ _

@[simp] theorem rd_tapCfg (s : State) (k : Nat) (at_ : Instant) {fld : Fld} (hf : Touched.tapCfg.has fld.id = false) (inst : Nat) :
    (State.tapCfg s k at_).rd fld inst = s.rd fld inst :=
  keeps_tapCfg (closed_rd fld inst _ hf) rfl _ _

@[simp] theorem rd_acceptWrite (s : State) (obj : Nat) (off : Nat) (tag : Nat) {fld : Fld} (hf : Touched.acceptWrite.has fld.id = false) (inst : Nat) :
    (State.acceptWrite s obj off tag).rd fld inst = s.rd fld inst :=
  keeps_acceptWrite (closed_rd fld inst _ hf) rfl _ _ _

@[simp] theorem rd_answerWord (s : State) (v : Nat) {fld : Fld} (hf : Touched.answerWord.has fld.id = false) (inst : Nat) :
    (State.answerWord s v).rd fld inst = s.rd fld inst :=
  keeps_answerWord (closed_rd fld inst _ hf) rfl _

@[simp] theorem rd_completeCmd (s : State) (obj : Nat) (c : HostCmd) (a : Answer) {fld : Fld} (hf : Touched.completeCmd.has fld.id = false) (inst : Nat) :
    (State.completeCmd s obj c a).rd fld inst = s.rd fld inst :=
  keeps_completeCmd (closed_rd fld inst _ hf) rfl _ _ _

@[simp] theorem rd_drainRefused (s : State) (obj : Nat) (a : Nat) {fld : Fld} (hf : Touched.drainRefused.has fld.id = false) (inst : Nat) :
    (State.drainRefused s obj a).rd fld inst = s.rd fld inst :=
  keeps_drainRefused (closed_rd fld inst _ hf) rfl _ _

@[simp] theorem rd_onHost (s : State) (f : HostPaths → HostPaths) {fld : Fld} (hf : Touched.onHost.has fld.id = false) (inst : Nat) :
    (State.onHost s f).rd fld inst = s.rd fld inst :=
  keeps_onHost (closed_rd fld inst _ hf) rfl _

@[simp] theorem rd_putWaiting (s : State) (obj : Nat) (l : List HostCmd) {fld : Fld} (hf : Touched.putWaiting.has fld.id = false) (inst : Nat) :
    (State.putWaiting s obj l).rd fld inst = s.rd fld inst :=
  keeps_putWaiting (closed_rd fld inst _ hf) rfl _ _

@[simp] theorem rd_reply (s : State) (r : Int) (data : List Byte) {fld : Fld} (hf : Touched.reply.has fld.id = false) (inst : Nat) :
    (State.reply s r data).rd fld inst = s.rd fld inst :=
  keeps_reply (closed_rd fld inst _ hf) rfl _ _

@[simp] theorem rd_replyStatus (s : State) (status : Nat) {fld : Fld} (hf : Touched.replyStatus.has fld.id = false) (inst : Nat) :
    (State.replyStatus s status).rd fld inst = s.rd fld inst :=
  keeps_replyStatus (closed_rd fld inst _ hf) rfl _

@[simp] theorem rd_showSeq (s : State) (obj : Nat) (seq : Nat) {fld : Fld} (hf : Touched.showSeq.has fld.id = false) (inst : Nat) :
    (State.showSeq s obj seq).rd fld inst = s.rd fld inst :=
  keeps_showSeq (closed_rd fld inst _ hf) rfl _ _

@[simp] theorem rd_takeSeq (s : State) (obj : Nat) {fld : Fld} (hf : Touched.takeSeq.has fld.id = false) (inst : Nat) :
    (State.takeSeq s obj).rd fld inst = s.rd fld inst :=
  keeps_takeSeq (closed_rd fld inst _ hf) rfl _

@[simp] theorem rd_doStep (s : State)  {fld : Fld} (hf : Touched.doStep.has fld.id = false) (inst : Nat) :
    (State.doStep s).rd fld inst = s.rd fld inst :=
  keeps_doStep (closed_rd fld inst _ hf) rfl 

@[simp] theorem rd_enterHoldover (s : State)  {fld : Fld} (hf : Touched.enterHoldover.has fld.id = false) (inst : Nat) :
    (State.enterHoldover s).rd fld inst = s.rd fld inst :=
  keeps_enterHoldover (closed_rd fld inst _ hf) rfl 

@[simp] theorem rd_holdVolt (s : State)  {fld : Fld} (hf : Touched.holdVolt.has fld.id = false) (inst : Nat) :
    (State.holdVolt s).rd fld inst = s.rd fld inst :=
  keeps_holdVolt (closed_rd fld inst _ hf) rfl 

@[simp] theorem rd_lateRaise (s : State)  {fld : Fld} (hf : Touched.lateRaise.has fld.id = false) (inst : Nat) :
    (State.lateRaise s).rd fld inst = s.rd fld inst :=
  keeps_lateRaise (closed_rd fld inst _ hf) rfl 

@[simp] theorem rd_nextSlackWindow (s : State)  {fld : Fld} (hf : Touched.nextSlackWindow.has fld.id = false) (inst : Nat) :
    (State.nextSlackWindow s).rd fld inst = s.rd fld inst :=
  keeps_nextSlackWindow (closed_rd fld inst _ hf) rfl 

@[simp] theorem rd_noteSlack (s : State) (ns : Int) (kind : Nat) (id : Nat) {fld : Fld} (hf : Touched.noteSlack.has fld.id = false) (inst : Nat) :
    (State.noteSlack s ns kind id).rd fld inst = s.rd fld inst :=
  keeps_noteSlack (closed_rd fld inst _ hf) rfl _ _ _

@[simp] theorem rd_raiseVolt (s : State) (mv : Nat) {fld : Fld} (hf : Touched.raiseVolt.has fld.id = false) (inst : Nat) :
    (State.raiseVolt s mv).rd fld inst = s.rd fld inst :=
  keeps_raiseVolt (closed_rd fld inst _ hf) rfl _

@[simp] theorem rd_setVolt (s : State) (mv : Nat) {fld : Fld} (hf : Touched.setVolt.has fld.id = false) (inst : Nat) :
    (State.setVolt s mv).rd fld inst = s.rd fld inst :=
  keeps_setVolt (closed_rd fld inst _ hf) rfl _

@[simp] theorem rd_shiftGrids (s : State) (d : BitVec 64) {fld : Fld} (hf : Touched.shiftGrids.has fld.id = false) (inst : Nat) :
    (State.shiftGrids s d).rd fld inst = s.rd fld inst :=
  keeps_shiftGrids (closed_rd fld inst _ hf) rfl _

@[simp] theorem rd_startVolt (s : State)  {fld : Fld} (hf : Touched.startVolt.has fld.id = false) (inst : Nat) :
    (State.startVolt s).rd fld inst = s.rd fld inst :=
  keeps_startVolt (closed_rd fld inst _ hf) rfl 

@[simp] theorem rd_stepWarp (s : State) (new : Instant) (epoch : Nat) {fld : Fld} (hf : Touched.stepWarp.has fld.id = false) (inst : Nat) :
    (State.stepWarp s new epoch).rd fld inst = s.rd fld inst :=
  keeps_stepWarp (closed_rd fld inst _ hf) rfl _ _

@[simp] theorem rd_applyEval (s : State) (n : Nat) (ev : Eval) {fld : Fld} (hf : Touched.applyEval.has fld.id = false) (inst : Nat) :
    (State.applyEval s n ev).rd fld inst = s.rd fld inst :=
  keeps_applyEval (closed_rd fld inst _ hf) rfl _ _

@[simp] theorem rd_applyModel (s : State) (n : Nat) (ev : Eval) {fld : Fld} (hf : Touched.applyModel.has fld.id = false) (inst : Nat) :
    (State.applyModel s n ev).rd fld inst = s.rd fld inst :=
  keeps_applyModel (closed_rd fld inst _ hf) rfl _ _

@[simp] theorem rd_awaitAin (s : State) (a : Nat) (r : Reader) {fld : Fld} (hf : Touched.awaitAin.has fld.id = false) (inst : Nat) :
    (State.awaitAin s a r).rd fld inst = s.rd fld inst :=
  keeps_awaitAin (closed_rd fld inst _ hf) rfl _ _

@[simp] theorem rd_causeClass (s : State) (n : Nat) (causes : Nat) {fld : Fld} (hf : Touched.causeClass.has fld.id = false) (inst : Nat) :
    (State.causeClass s n causes).rd fld inst = s.rd fld inst :=
  keeps_causeClass (closed_rd fld inst _ hf) rfl _ _

@[simp] theorem rd_countLate (s : State) (n : Nat) {fld : Fld} (hf : Touched.countLate.has fld.id = false) (inst : Nat) :
    (State.countLate s n).rd fld inst = s.rd fld inst :=
  keeps_countLate (closed_rd fld inst _ hf) rfl _

@[simp] theorem rd_declareEval (s : State) (n : Nat) (ev : Eval) {fld : Fld} (hf : Touched.declareEval.has fld.id = false) (inst : Nat) :
    (State.declareEval s n ev).rd fld inst = s.rd fld inst :=
  keeps_declareEval (closed_rd fld inst _ hf) rfl _ _

@[simp] theorem rd_declareFault (s : State) (n : Nat) (causes : Nat) (stop : Bool) (y : Int) (ym : Int) (u : Int) {fld : Fld} (hf : Touched.declareFault.has fld.id = false) (inst : Nat) :
    (State.declareFault s n causes stop y ym u).rd fld inst = s.rd fld inst :=
  keeps_declareFault (closed_rd fld inst _ hf) rfl _ _ _ _ _ _

@[simp] theorem rd_driveCell (s : State) (n : Nat) (u : Int) {fld : Fld} (hf : Touched.driveCell.has fld.id = false) (inst : Nat) :
    (State.driveCell s n u).rd fld inst = s.rd fld inst :=
  keeps_driveCell (closed_rd fld inst _ hf) rfl _ _

@[simp] theorem rd_driveLevel (s : State) (pin : Nat) (b : Bool) {fld : Fld} (hf : Touched.driveLevel.has fld.id = false) (inst : Nat) :
    (State.driveLevel s pin b).rd fld inst = s.rd fld inst :=
  keeps_driveLevel (closed_rd fld inst _ hf) rfl _ _

@[simp] theorem rd_drivePwm (s : State) (pin : Nat) (period : Nat) (high : Nat) {fld : Fld} (hf : Touched.drivePwm.has fld.id = false) (inst : Nat) :
    (State.drivePwm s pin period high).rd fld inst = s.rd fld inst :=
  keeps_drivePwm (closed_rd fld inst _ hf) rfl _ _ _

@[simp] theorem rd_driveWith (s : State) (n : Nat) (p : Nat) (u : Int) {fld : Fld} (hf : Touched.driveWith.has fld.id = false) (inst : Nat) :
    (State.driveWith s n p u).rd fld inst = s.rd fld inst :=
  keeps_driveWith (closed_rd fld inst _ hf) rfl _ _ _

@[simp] theorem rd_enterSafe (s : State) (n : Nat) {fld : Fld} (hf : Touched.enterSafe.has fld.id = false) (inst : Nat) :
    (State.enterSafe s n).rd fld inst = s.rd fld inst :=
  keeps_enterSafe (closed_rd fld inst _ hf) rfl _

@[simp] theorem rd_eventMove (s : State) (n : Nat) (up : Bool) {fld : Fld} (hf : Touched.eventMove.has fld.id = false) (inst : Nat) :
    (State.eventMove s n up).rd fld inst = s.rd fld inst :=
  keeps_eventMove (closed_rd fld inst _ hf) rfl _ _

@[simp] theorem rd_faultNow (s : State) (n : Nat) (causes : Nat) {fld : Fld} (hf : Touched.faultNow.has fld.id = false) (inst : Nat) :
    (State.faultNow s n causes).rd fld inst = s.rd fld inst :=
  keeps_faultNow (closed_rd fld inst _ hf) rfl _ _

@[simp] theorem rd_haltCell (s : State) (n : Nat) {fld : Fld} (hf : Touched.haltCell.has fld.id = false) (inst : Nat) :
    (State.haltCell s n).rd fld inst = s.rd fld inst :=
  keeps_haltCell (closed_rd fld inst _ hf) rfl _

@[simp] theorem rd_lateCell (s : State) (n : Nat) (at_ : Instant) (tie : Bool) {fld : Fld} (hf : Touched.lateCell.has fld.id = false) (inst : Nat) :
    (State.lateCell s n at_ tie).rd fld inst = s.rd fld inst :=
  keeps_lateCell (closed_rd fld inst _ hf) rfl _ _ _

@[simp] theorem rd_launch (s : State) (n : Nat) (l : Latched) (y : Int) {fld : Fld} (hf : Touched.launch.has fld.id = false) (inst : Nat) :
    (State.launch s n l y).rd fld inst = s.rd fld inst :=
  keeps_launch (closed_rd fld inst _ hf) rfl _ _ _

@[simp] theorem rd_loadCodes (s : State) (n : Nat) (codes : List (Nat × Nat)) {fld : Fld} (hf : Touched.loadCodes.has fld.id = false) (inst : Nat) :
    (State.loadCodes s n codes).rd fld inst = s.rd fld inst :=
  keeps_loadCodes (closed_rd fld inst _ hf) rfl _ _

@[simp] theorem rd_putU (s : State) (n : Nat) (u : Int) {fld : Fld} (hf : Touched.putU.has fld.id = false) (inst : Nat) :
    (State.putU s n u).rd fld inst = s.rd fld inst :=
  keeps_putU (closed_rd fld inst _ hf) rfl _ _

@[simp] theorem rd_putUWith (s : State) (n : Nat) (p : Nat) (u : Int) {fld : Fld} (hf : Touched.putUWith.has fld.id = false) (inst : Nat) :
    (State.putUWith s n p u).rd fld inst = s.rd fld inst :=
  keeps_putUWith (closed_rd fld inst _ hf) rfl _ _ _

@[simp] theorem rd_releaseEval (s : State) (n : Nat) (ev : Eval) (ready : Instant) {fld : Fld} (hf : Touched.releaseEval.has fld.id = false) (inst : Nat) :
    (State.releaseEval s n ev ready).rd fld inst = s.rd fld inst :=
  keeps_releaseEval (closed_rd fld inst _ hf) rfl _ _ _

@[simp] theorem rd_reportCell (s : State) (n : Nat) (bit : Nat) (res : Nat) (y : Int) (ym : Int) (u : Int) {fld : Fld} (hf : Touched.reportCell.has fld.id = false) (inst : Nat) :
    (State.reportCell s n bit res y ym u).rd fld inst = s.rd fld inst :=
  keeps_reportCell (closed_rd fld inst _ hf) rfl _ _ _ _ _ _

@[simp] theorem rd_safeRelease (s : State) (n : Nat) (late : Bool) {fld : Fld} (hf : Touched.safeRelease.has fld.id = false) (inst : Nat) :
    (State.safeRelease s n late).rd fld inst = s.rd fld inst :=
  keeps_safeRelease (closed_rd fld inst _ hf) rfl _ _

@[simp] theorem rd_startCell (s : State) (n : Nat) {fld : Fld} (hf : Touched.startCell.has fld.id = false) (inst : Nat) :
    (State.startCell s n).rd fld inst = s.rd fld inst :=
  keeps_startCell (closed_rd fld inst _ hf) rfl _

@[simp] theorem rd_strobeAin (s : State) (a : Nat) {fld : Fld} (hf : Touched.strobeAin.has fld.id = false) (inst : Nat) :
    (State.strobeAin s a).1.rd fld inst = s.rd fld inst :=
  keeps_strobeAin (closed_rd fld inst _ hf) rfl _

@[simp] theorem rd_axCatchUp (s : State) (n : Nat) {fld : Fld} (hf : Touched.axCatchUp.has fld.id = false) (inst : Nat) :
    (State.axCatchUp s n).rd fld inst = s.rd fld inst :=
  keeps_axCatchUp (closed_rd fld inst _ hf) rfl _

@[simp] theorem rd_axConversion (s : State) (a : Nat) (q : Nat) {fld : Fld} (hf : Touched.axConversion.has fld.id = false) (inst : Nat) :
    (State.axConversion s a q).rd fld inst = s.rd fld inst :=
  keeps_axConversion (closed_rd fld inst _ hf) rfl _ _

@[simp] theorem rd_axDisabled (s : State) (n : Nat) {fld : Fld} (hf : Touched.axDisabled.has fld.id = false) (inst : Nat) :
    (State.axDisabled s n).rd fld inst = s.rd fld inst :=
  keeps_axDisabled (closed_rd fld inst _ hf) rfl _

@[simp] theorem rd_axDrive (s : State) (n : Nat) (e : AxEval) (k : Int) {fld : Fld} (hf : Touched.axDrive.has fld.id = false) (inst : Nat) :
    (State.axDrive s n e k).rd fld inst = s.rd fld inst :=
  keeps_axDrive (closed_rd fld inst _ hf) rfl _ _ _

@[simp] theorem rd_axEnded (s : State) (n : Nat) {fld : Fld} (hf : Touched.axEnded.has fld.id = false) (inst : Nat) :
    (State.axEnded s n).rd fld inst = s.rd fld inst :=
  keeps_axEnded (closed_rd fld inst _ hf) rfl _

@[simp] theorem rd_axEvaluate (s : State) (n : Nat) {fld : Fld} (hf : Touched.axEvaluate.has fld.id = false) (inst : Nat) :
    (State.axEvaluate s n).rd fld inst = s.rd fld inst :=
  keeps_axEvaluate (closed_rd fld inst _ hf) rfl _

@[simp] theorem rd_axEvent (s : State) (n : Nat) (bit : Nat) {fld : Fld} (hf : Touched.axEvent.has fld.id = false) (inst : Nat) :
    (State.axEvent s n bit).rd fld inst = s.rd fld inst :=
  keeps_axEvent (closed_rd fld inst _ hf) rfl _ _

@[simp] theorem rd_axFault (s : State) (n : Nat) (causes : Nat) {fld : Fld} (hf : Touched.axFault.has fld.id = false) (inst : Nat) :
    (State.axFault s n causes).rd fld inst = s.rd fld inst :=
  keeps_axFault (closed_rd fld inst _ hf) rfl _ _

@[simp] theorem rd_axHomed (s : State) (n : Nat) (l : Int) {fld : Fld} (hf : Touched.axHomed.has fld.id = false) (inst : Nat) :
    (State.axHomed s n l).rd fld inst = s.rd fld inst :=
  keeps_axHomed (closed_rd fld inst _ hf) rfl _ _

@[simp] theorem rd_axImmediate (s : State) (n : Nat) {fld : Fld} (hf : Touched.axImmediate.has fld.id = false) (inst : Nat) :
    (State.axImmediate s n).rd fld inst = s.rd fld inst :=
  keeps_axImmediate (closed_rd fld inst _ hf) rfl _

@[simp] theorem rd_axLate (s : State) (n : Nat) (e : AxEval) (tie : Bool) {fld : Fld} (hf : Touched.axLate.has fld.id = false) (inst : Nat) :
    (State.axLate s n e tie).rd fld inst = s.rd fld inst :=
  keeps_axLate (closed_rd fld inst _ hf) rfl _ _ _

@[simp] theorem rd_axOpenEnd (s : State) (n : Nat) {fld : Fld} (hf : Touched.axOpenEnd.has fld.id = false) (inst : Nat) :
    (State.axOpenEnd s n).rd fld inst = s.rd fld inst :=
  keeps_axOpenEnd (closed_rd fld inst _ hf) rfl _

@[simp] theorem rd_axRecord (s : State) (n : Nat) (bit : Nat) (res : Nat) {fld : Fld} (hf : Touched.axRecord.has fld.id = false) (inst : Nat) :
    (State.axRecord s n bit res).rd fld inst = s.rd fld inst :=
  keeps_axRecord (closed_rd fld inst _ hf) rfl _ _ _

@[simp] theorem rd_axRelease (s : State) (n : Nat) (e : AxEval) (ready : Instant) {fld : Fld} (hf : Touched.axRelease.has fld.id = false) (inst : Nat) :
    (State.axRelease s n e ready).rd fld inst = s.rd fld inst :=
  keeps_axRelease (closed_rd fld inst _ hf) rfl _ _ _

@[simp] theorem rd_axRest (s : State) (n : Nat) (p : Int) {fld : Fld} (hf : Touched.axRest.has fld.id = false) (inst : Nat) :
    (State.axRest s n p).rd fld inst = s.rd fld inst :=
  keeps_axRest (closed_rd fld inst _ hf) rfl _ _

@[simp] theorem rd_axShift (s : State) (n : Nat) (d : Int) {fld : Fld} (hf : Touched.axShift.has fld.id = false) (inst : Nat) :
    (State.axShift s n d).rd fld inst = s.rd fld inst :=
  keeps_axShift (closed_rd fld inst _ hf) rfl _ _

@[simp] theorem rd_axStart (s : State) (n : Nat) (first : Nat) (count : Nat) (at_ : Instant) (hold : Option Instant) {fld : Fld} (hf : Touched.axStart.has fld.id = false) (inst : Nat) :
    (State.axStart s n first count at_ hold).rd fld inst = s.rd fld inst :=
  keeps_axStart (closed_rd fld inst _ hf) rfl _ _ _ _ _

@[simp] theorem rd_axStop (s : State) (n : Nat) (p : Int) (v : Int) (at_ : Instant) {fld : Fld} (hf : Touched.axStop.has fld.id = false) (inst : Nat) :
    (State.axStop s n p v at_).rd fld inst = s.rd fld inst :=
  keeps_axStop (closed_rd fld inst _ hf) rfl _ _ _ _

@[simp] theorem rd_axUpdate (s : State) (n : Nat) {fld : Fld} (hf : Touched.axUpdate.has fld.id = false) (inst : Nat) :
    (State.axUpdate s n).rd fld inst = s.rd fld inst :=
  keeps_axUpdate (closed_rd fld inst _ hf) rfl _

@[simp] theorem rd_drivePhase (s : State) (n : Nat) (pin : Nat) (d : Int) (start : Instant) {fld : Fld} (hf : Touched.drivePhase.has fld.id = false) (inst : Nat) :
    (State.drivePhase s n pin d start).rd fld inst = s.rd fld inst :=
  keeps_drivePhase (closed_rd fld inst _ hf) rfl _ _ _ _

@[simp] theorem rd_encoderEdge (s : State) (pin : Nat) {fld : Fld} (hf : Touched.encoderEdge.has fld.id = false) (inst : Nat) :
    (State.encoderEdge s pin).rd fld inst = s.rd fld inst :=
  keeps_encoderEdge (closed_rd fld inst _ hf) rfl _

@[simp] theorem rd_endHoming (s : State) (n : Nat) {fld : Fld} (hf : Touched.endHoming.has fld.id = false) (inst : Nat) :
    (State.endHoming s n).rd fld inst = s.rd fld inst :=
  keeps_endHoming (closed_rd fld inst _ hf) rfl _

@[simp] theorem rd_finishSegs (s : State) (n : Nat) {fld : Fld} (hf : Touched.finishSegs.has fld.id = false) (inst : Nat) :
    (State.finishSegs s n).rd fld inst = s.rd fld inst :=
  keeps_finishSegs (closed_rd fld inst _ hf) rfl _

@[simp] theorem rd_followCheck (s : State) (n : Nat) (fe : Int) {fld : Fld} (hf : Touched.followCheck.has fld.id = false) (inst : Nat) :
    (State.followCheck s n fe).rd fld inst = s.rd fld inst :=
  keeps_followCheck (closed_rd fld inst _ hf) rfl _ _

@[simp] theorem rd_hardStop (s : State) (n : Nat) (e : AxEval) {fld : Fld} (hf : Touched.hardStop.has fld.id = false) (inst : Nat) :
    (State.hardStop s n e).1.rd fld inst = s.rd fld inst :=
  keeps_hardStop (closed_rd fld inst _ hf) rfl _ _

@[simp] theorem rd_homeSeen (s : State) (n : Nat) (l : Int) {fld : Fld} (hf : Touched.homeSeen.has fld.id = false) (inst : Nat) :
    (State.homeSeen s n l).rd fld inst = s.rd fld inst :=
  keeps_homeSeen (closed_rd fld inst _ hf) rfl _ _

@[simp] theorem rd_homeStop (s : State) (n : Nat) (result : Nat) (event : Bool) (p : Int) (v : Int) (at_ : Instant) {fld : Fld} (hf : Touched.homeStop.has fld.id = false) (inst : Nat) :
    (State.homeStop s n result event p v at_).rd fld inst = s.rd fld inst :=
  keeps_homeStop (closed_rd fld inst _ hf) rfl _ _ _ _ _ _

@[simp] theorem rd_homingStep (s : State) (n : Nat) {fld : Fld} (hf : Touched.homingStep.has fld.id = false) (inst : Nat) :
    (State.homingStep s n).rd fld inst = s.rd fld inst :=
  keeps_homingStep (closed_rd fld inst _ hf) rfl _

@[simp] theorem rd_putAxState (s : State) (n : Nat) (k : Nat) {fld : Fld} (hf : Touched.putAxState.has fld.id = false) (inst : Nat) :
    (State.putAxState s n k).rd fld inst = s.rd fld inst :=
  keeps_putAxState (closed_rd fld inst _ hf) rfl _ _

@[simp] theorem rd_refuseAsks (s : State) (n : Nat) {fld : Fld} (hf : Touched.refuseAsks.has fld.id = false) (inst : Nat) :
    (State.refuseAsks s n).rd fld inst = s.rd fld inst :=
  keeps_refuseAsks (closed_rd fld inst _ hf) rfl _

@[simp] theorem rd_resetAxes (s : State) (p : Nat) {fld : Fld} (hf : Touched.resetAxes.has fld.id = false) (inst : Nat) :
    (State.resetAxes s p).rd fld inst = s.rd fld inst :=
  keeps_resetAxes (closed_rd fld inst _ hf) rfl _

@[simp] theorem rd_resumedHomed (s : State) (n : Nat) (fe : Int) {fld : Fld} (hf : Touched.resumedHomed.has fld.id = false) (inst : Nat) :
    (State.resumedHomed s n fe).rd fld inst = s.rd fld inst :=
  keeps_resumedHomed (closed_rd fld inst _ hf) rfl _ _

@[simp] theorem rd_runAheadFault (s : State) (n : Nat) {fld : Fld} (hf : Touched.runAheadFault.has fld.id = false) (inst : Nat) :
    (State.runAheadFault s n).rd fld inst = s.rd fld inst :=
  keeps_runAheadFault (closed_rd fld inst _ hf) rfl _

@[simp] theorem rd_serveAsks (s : State) (n : Nat) (a : List Bool) (x3 : Bool) {fld : Fld} (hf : Touched.serveAsks.has fld.id = false) (inst : Nat) :
    (State.serveAsks s n a x3).rd fld inst = s.rd fld inst :=
  keeps_serveAsks (closed_rd fld inst _ hf) rfl _ _ _

@[simp] theorem rd_showSeg (s : State) (n : Nat) {fld : Fld} (hf : Touched.showSeg.has fld.id = false) (inst : Nat) :
    (State.showSeg s n).rd fld inst = s.rd fld inst :=
  keeps_showSeg (closed_rd fld inst _ hf) rfl _

@[simp] theorem rd_startAxes (s : State) (l : List (Nat × Nat × Nat)) {fld : Fld} (hf : Touched.startAxes.has fld.id = false) (inst : Nat) :
    (State.startAxes s l).rd fld inst = s.rd fld inst :=
  keeps_startAxes (closed_rd fld inst _ hf) rfl _

@[simp] theorem rd_virtualLimit (s : State) (n : Nat) {fld : Fld} (hf : Touched.virtualLimit.has fld.id = false) (inst : Nat) :
    (State.virtualLimit s n).rd fld inst = s.rd fld inst :=
  keeps_virtualLimit (closed_rd fld inst _ hf) rfl _

@[simp] theorem rd_store (s : State) (f : Items → Items) {fld : Fld} (hf : Touched.store.has fld.id = false) (inst : Nat) :
    (State.store s f).rd fld inst = s.rd fld inst :=
  keeps_store (closed_rd fld inst _ hf) rfl _

@[simp] theorem rd_axCtrlFields (s : State) (n : Nat) (v : Nat) (open_ : Bool) {fld : Fld} (hf : Touched.axCtrlFields.has fld.id = false) (inst : Nat) :
    (State.axCtrlFields s n v open_).rd fld inst = s.rd fld inst :=
  keeps_axCtrlFields (closed_rd fld inst _ hf) rfl _ _ _

@[simp] theorem rd_takeSegs (s : State) (img : SegImage) {fld : Fld} (hf : Touched.takeSegs.has fld.id = false) (inst : Nat) :
    (State.takeSegs s img).rd fld inst = s.rd fld inst :=
  keeps_takeSegs (closed_rd fld inst _ hf) rfl _

@[simp] theorem rd_fire (s : State) (n : Nat) (cause : Nat) (word : Nat) (eventT : Instant) {fld : Fld} (hf : Touched.fire.has fld.id = false) (inst : Nat) :
    (State.fire s n cause word eventT).rd fld inst = s.rd fld inst :=
  keeps_fire (closed_rd fld inst _ hf) rfl _ _ _ _

@[simp] theorem rd_fireRequest (s : State) (n : Nat) (cause : Nat) (word : Nat) (eventT : Instant) {fld : Fld} (hf : Touched.fireRequest.has fld.id = false) (inst : Nat) :
    (State.fireRequest s n cause word eventT).rd fld inst = s.rd fld inst :=
  keeps_fireRequest (closed_rd fld inst _ hf) rfl _ _ _ _

@[simp] theorem rd_missFire (s : State) (n : Nat) (cause : Nat) {fld : Fld} (hf : Touched.missFire.has fld.id = false) (inst : Nat) :
    (State.missFire s n cause).rd fld inst = s.rd fld inst :=
  keeps_missFire (closed_rd fld inst _ hf) rfl _ _

@[simp] theorem rd_sampleSeq (s : State) (n : Nat) {fld : Fld} (hf : Touched.sampleSeq.has fld.id = false) (inst : Nat) :
    (State.sampleSeq s n).rd fld inst = s.rd fld inst :=
  keeps_sampleSeq (closed_rd fld inst _ hf) rfl _

@[simp] theorem rd_testMask (s : State) (m : Nat) (have_ : Nat) {fld : Fld} (hf : Touched.testMask.has fld.id = false) (inst : Nat) :
    (State.testMask s m have_).rd fld inst = s.rd fld inst :=
  keeps_testMask (closed_rd fld inst _ hf) rfl _ _

@[simp] theorem rd_violation (s : State) (m : Nat) (tau : Nat) (v : Int) (b : Int × Int) {fld : Fld} (hf : Touched.violation.has fld.id = false) (inst : Nat) :
    (State.violation s m tau v b).rd fld inst = s.rd fld inst :=
  keeps_violation (closed_rd fld inst _ hf) rfl _ _ _ _

@[simp] theorem rd_busy (s : State) (sh : Nat) (i : Nat) {fld : Fld} (hf : Touched.busy.has fld.id = false) (inst : Nat) :
    (State.busy s sh i).rd fld inst = s.rd fld inst :=
  keeps_busy (closed_rd fld inst _ hf) rfl _ _

@[simp] theorem rd_dispatchMismatch (s : State) (again : Bool) {fld : Fld} (hf : Touched.dispatchMismatch.has fld.id = false) (inst : Nat) :
    (State.dispatchMismatch s again).rd fld inst = s.rd fld inst :=
  keeps_dispatchMismatch (closed_rd fld inst _ hf) rfl _

@[simp] theorem rd_dropWait (s : State) (i : Nat) {fld : Fld} (hf : Touched.dropWait.has fld.id = false) (inst : Nat) :
    (State.dropWait s i).rd fld inst = s.rd fld inst :=
  keeps_dropWait (closed_rd fld inst _ hf) rfl _

@[simp] theorem rd_hostPop (s : State) (h : Nat) (data : List Byte) (a : Nat) {fld : Fld} (hf : Touched.hostPop.has fld.id = false) (inst : Nat) :
    (State.hostPop s h data a).1.rd fld inst = s.rd fld inst :=
  keeps_hostPop (closed_rd fld inst _ hf) rfl _ _ _

@[simp] theorem rd_hostPush (s : State) (h : Nat) (n : Nat) (a : List QEntry) {fld : Fld} (hf : Touched.hostPush.has fld.id = false) (inst : Nat) :
    (State.hostPush s h n a).1.rd fld inst = s.rd fld inst :=
  keeps_hostPush (closed_rd fld inst _ hf) rfl _ _ _

@[simp] theorem rd_park (s : State) (sh : Nat) (i : Nat) (w : WaitFor) (qtmo : Nat) {fld : Fld} (hf : Touched.park.has fld.id = false) (inst : Nat) :
    (State.park s sh i w qtmo).rd fld inst = s.rd fld inst :=
  keeps_park (closed_rd fld inst _ hf) rfl _ _ _ _

@[simp] theorem rd_programFault (s : State) (sh : Nat) (i : Nat) (cause : Nat) (detail : Nat) {fld : Fld} (hf : Touched.programFault.has fld.id = false) (inst : Nat) :
    (State.programFault s sh i cause detail).rd fld inst = s.rd fld inst :=
  keeps_programFault (closed_rd fld inst _ hf) rfl _ _ _ _

@[simp] theorem rd_shuttleFault (s : State) (sh : Nat) (cause : Nat) {fld : Fld} (hf : Touched.shuttleFault.has fld.id = false) (inst : Nat) :
    (State.shuttleFault s sh cause).rd fld inst = s.rd fld inst :=
  keeps_shuttleFault (closed_rd fld inst _ hf) rfl _ _

@[simp] theorem rd_shuttleOff (s : State) (sh : Nat) {fld : Fld} (hf : Touched.shuttleOff.has fld.id = false) (inst : Nat) :
    (State.shuttleOff s sh).rd fld inst = s.rd fld inst :=
  keeps_shuttleOff (closed_rd fld inst _ hf) rfl _

@[simp] theorem rd_takeEnvelope (s : State) (p : Nat) (img : Envelope) {fld : Fld} (hf : Touched.takeEnvelope.has fld.id = false) (inst : Nat) :
    (State.takeEnvelope s p img).rd fld inst = s.rd fld inst :=
  keeps_takeEnvelope (closed_rd fld inst _ hf) rfl _ _

@[simp] theorem rd_beginCommit (s : State) (p : Nat) (powerFail : Bool) {fld : Fld} (hf : Touched.beginCommit.has fld.id = false) (inst : Nat) :
    (State.beginCommit s p powerFail).rd fld inst = s.rd fld inst :=
  keeps_beginCommit (closed_rd fld inst _ hf) rfl _ _

@[simp] theorem rd_copySection (s : State) (p : Nat) (g : Program) (type : Nat) (bs : List Byte) {fld : Fld} (hf : Touched.copySection.has fld.id = false) (inst : Nat) :
    (State.copySection s p g type bs).rd fld inst = s.rd fld inst :=
  keeps_copySection (closed_rd fld inst _ hf) rfl _ _ _ _

@[simp] theorem rd_installProgram (s : State) (p : Nat) (g : Program) {fld : Fld} (hf : Touched.installProgram.has fld.id = false) (inst : Nat) :
    (State.installProgram s p g).rd fld inst = s.rd fld inst :=
  keeps_installProgram (closed_rd fld inst _ hf) rfl _ _

@[simp] theorem rd_mapVars (s : State) (p : Nat) (vars : List VarEntry) (old : VarEntry → Option (List Byte)) {fld : Fld} (hf : Touched.mapVars.has fld.id = false) (inst : Nat) :
    (State.mapVars s p vars old).rd fld inst = s.rd fld inst :=
  keeps_mapVars (closed_rd fld inst _ hf) rfl _ _ _

@[simp] theorem rd_putBank (s : State) (p : Nat) (b : Nat) (x : RetBank) {fld : Fld} (hf : Touched.putBank.has fld.id = false) (inst : Nat) :
    (State.putBank s p b x).rd fld inst = s.rd fld inst :=
  keeps_putBank (closed_rd fld inst _ hf) rfl _ _ _

@[simp] theorem rd_putInput (s : State) (p : Nat) (a : Nat) (host : List Byte) (e : MapEntry) {fld : Fld} (hf : Touched.putInput.has fld.id = false) (inst : Nat) :
    (State.putInput s p a host e).rd fld inst = s.rd fld inst :=
  keeps_putInput (closed_rd fld inst _ hf) rfl _ _ _ _

@[simp] theorem rd_putInputs (s : State) (p : Nat) (base : Nat) (host : List Byte) (a : List MapEntry) {fld : Fld} (hf : Touched.putInputs.has fld.id = false) (inst : Nat) :
    (State.putInputs s p base host a).rd fld inst = s.rd fld inst :=
  keeps_putInputs (closed_rd fld inst _ hf) rfl _ _ _ _

@[simp] theorem rd_putSections (s : State) (p : Nat) (g : Program) (x : RetBank) {fld : Fld} (hf : Touched.putSections.has fld.id = false) (inst : Nat) :
    (State.putSections s p g x).rd fld inst = s.rd fld inst :=
  keeps_putSections (closed_rd fld inst _ hf) rfl _ _ _

@[simp] theorem rd_releaseSections (s : State) (p : Nat) (g : Program) {fld : Fld} (hf : Touched.releaseSections.has fld.id = false) (inst : Nat) :
    (State.releaseSections s p g).rd fld inst = s.rd fld inst :=
  keeps_releaseSections (closed_rd fld inst _ hf) rfl _ _

@[simp] theorem rd_restoreRetained (s : State) (p : Nat) (g : Program) {fld : Fld} (hf : Touched.restoreRetained.has fld.id = false) (inst : Nat) :
    (State.restoreRetained s p g).rd fld inst = s.rd fld inst :=
  keeps_restoreRetained (closed_rd fld inst _ hf) rfl _ _

@[simp] theorem rd_saveOdometers (s : State)  {fld : Fld} (hf : Touched.saveOdometers.has fld.id = false) (inst : Nat) :
    (State.saveOdometers s).rd fld inst = s.rd fld inst :=
  keeps_saveOdometers (closed_rd fld inst _ hf) rfl 

@[simp] theorem rd_startVars (s : State) (p : Nat) (mode : Nat) (g : Program) {fld : Fld} (hf : Touched.startVars.has fld.id = false) (inst : Nat) :
    (State.startVars s p mode g).rd fld inst = s.rd fld inst :=
  keeps_startVars (closed_rd fld inst _ hf) rfl _ _ _

@[simp] theorem rd_takeBank (s : State) (p : Nat) (b : Nat) (x : RetBank) {fld : Fld} (hf : Touched.takeBank.has fld.id = false) (inst : Nat) :
    (State.takeBank s p b x).rd fld inst = s.rd fld inst :=
  keeps_takeBank (closed_rd fld inst _ hf) rfl _ _ _

@[simp] theorem rd_takeProgram (s : State) (p : Nat) (g : Program) {fld : Fld} (hf : Touched.takeProgram.has fld.id = false) (inst : Nat) :
    (State.takeProgram s p g).rd fld inst = s.rd fld inst :=
  keeps_takeProgram (closed_rd fld inst _ hf) rfl _ _

@[simp] theorem rd_takeRejoin (s : State) (p : Nat) (ok : Nat) (ack : Nat) {fld : Fld} (hf : Touched.takeRejoin.has fld.id = false) (inst : Nat) :
    (State.takeRejoin s p ok ack).rd fld inst = s.rd fld inst :=
  keeps_takeRejoin (closed_rd fld inst _ hf) rfl _ _ _

@[simp] theorem rd_accept (s : State) (obj : Nat) (eth : Bool) (e : List Byte) (inline : List Byte) {fld : Fld} (hf : Touched.accept.has fld.id = false) (inst : Nat) :
    (State.accept s obj eth e inline).rd fld inst = s.rd fld inst :=
  keeps_accept (closed_rd fld inst _ hf) rfl _ _ _ _

@[simp] theorem rd_consume (s : State) (m : Nat) (a : Nat) {fld : Fld} (hf : Touched.consume.has fld.id = false) (inst : Nat) :
    (State.consume s m a).rd fld inst = s.rd fld inst :=
  keeps_consume (closed_rd fld inst _ hf) rfl _ _

@[simp] theorem rd_eccError (s : State) (h : ScrubHit) {fld : Fld} (hf : Touched.eccError.has fld.id = false) (inst : Nat) :
    (State.eccError s h).rd fld inst = s.rd fld inst :=
  keeps_eccError (closed_rd fld inst _ hf) rfl _

@[simp] theorem rd_latchPv (s : State) (r : Requester) (p : Nat) {fld : Fld} (hf : Touched.latchPv.has fld.id = false) (inst : Nat) :
    (State.latchPv s r p).rd fld inst = s.rd fld inst :=
  keeps_latchPv (closed_rd fld inst _ hf) rfl _ _

@[simp] theorem rd_refreshView (s : State) (p : Nat) {fld : Fld} (hf : Touched.refreshView.has fld.id = false) (inst : Nat) :
    (State.refreshView s p).rd fld inst = s.rd fld inst :=
  keeps_refreshView (closed_rd fld inst _ hf) rfl _

@[simp] theorem rd_refuseAccess (s : State) (n : Nat) {fld : Fld} (hf : Touched.refuseAccess.has fld.id = false) (inst : Nat) :
    (State.refuseAccess s n).rd fld inst = s.rd fld inst :=
  keeps_refuseAccess (closed_rd fld inst _ hf) rfl _

@[simp] theorem rd_takeTelemetry (s : State) (x : PmbRead) {fld : Fld} (hf : Touched.takeTelemetry.has fld.id = false) (inst : Nat) :
    (State.takeTelemetry s x).rd fld inst = s.rd fld inst :=
  keeps_takeTelemetry (closed_rd fld inst _ hf) rfl _

@[simp] theorem rd_drive (s : State)  {fld : Fld} (hf : Touched.drive.has fld.id = false) (inst : Nat) :
    (State.drive s).rd fld inst = s.rd fld inst :=
  keeps_drive (closed_rd fld inst _ hf) rfl 

@[simp] theorem rd_evalTerms (s : State)  {fld : Fld} (hf : Touched.evalTerms.has fld.id = false) (inst : Nat) :
    (State.evalTerms s).rd fld inst = s.rd fld inst :=
  keeps_evalTerms (closed_rd fld inst _ hf) rfl 

@[simp] theorem rd_handover (s : State)  {fld : Fld} (hf : Touched.handover.has fld.id = false) (inst : Nat) :
    (State.handover s).rd fld inst = s.rd fld inst :=
  keeps_handover (closed_rd fld inst _ hf) rfl 

@[simp] theorem rd_islandLost (s : State)  {fld : Fld} (hf : Touched.islandLost.has fld.id = false) (inst : Nat) :
    (State.islandLost s).rd fld inst = s.rd fld inst :=
  keeps_islandLost (closed_rd fld inst _ hf) rfl 

@[simp] theorem rd_latchSin (s : State) (i : Nat) (cause : Nat) {fld : Fld} (hf : Touched.latchSin.has fld.id = false) (inst : Nat) :
    (State.latchSin s i cause).rd fld inst = s.rd fld inst :=
  keeps_latchSin (closed_rd fld inst _ hf) rfl _ _

@[simp] theorem rd_loadMatrix (s : State) (good : Bool) {fld : Fld} (hf : Touched.loadMatrix.has fld.id = false) (inst : Nat) :
    (State.loadMatrix s good).rd fld inst = s.rd fld inst :=
  keeps_loadMatrix (closed_rd fld inst _ hf) rfl _

@[simp] theorem rd_matrixFault (s : State)  {fld : Fld} (hf : Touched.matrixFault.has fld.id = false) (inst : Nat) :
    (State.matrixFault s).rd fld inst = s.rd fld inst :=
  keeps_matrixFault (closed_rd fld inst _ hf) rfl 

@[simp] theorem rd_noteSin (s : State) (i : Nat) {fld : Fld} (hf : Touched.noteSin.has fld.id = false) (inst : Nat) :
    (State.noteSin s i).rd fld inst = s.rd fld inst :=
  keeps_noteSin (closed_rd fld inst _ hf) rfl _

@[simp] theorem rd_onIsland (s : State) (f : Island → Island) {fld : Fld} (hf : Touched.onIsland.has fld.id = false) (inst : Nat) :
    (State.onIsland s f).rd fld inst = s.rd fld inst :=
  keeps_onIsland (closed_rd fld inst _ hf) rfl _

@[simp] theorem rd_produce (s : State) (n : Nat) (safe : Bool) (data : List Byte) {fld : Fld} (hf : Touched.produce.has fld.id = false) (inst : Nat) :
    (State.produce s n safe data).rd fld inst = s.rd fld inst :=
  keeps_produce (closed_rd fld inst _ hf) rfl _ _ _

@[simp] theorem rd_putPhase (s : State) (ph : Nat) {fld : Fld} (hf : Touched.putPhase.has fld.id = false) (inst : Nat) :
    (State.putPhase s ph).rd fld inst = s.rd fld inst :=
  keeps_putPhase (closed_rd fld inst _ hf) rfl _

@[simp] theorem rd_putWeft (s : State) (n : Nat) (x : WeftConn) {fld : Fld} (hf : Touched.putWeft.has fld.id = false) (inst : Nat) :
    (State.putWeft s n x).rd fld inst = s.rd fld inst :=
  keeps_putWeft (closed_rd fld inst _ hf) rfl _ _

@[simp] theorem rd_restartIsland (s : State)  {fld : Fld} (hf : Touched.restartIsland.has fld.id = false) (inst : Nat) :
    (State.restartIsland s).rd fld inst = s.rd fld inst :=
  keeps_restartIsland (closed_rd fld inst _ hf) rfl 

@[simp] theorem rd_showSins (s : State)  {fld : Fld} (hf : Touched.showSins.has fld.id = false) (inst : Nat) :
    (State.showSins s).rd fld inst = s.rd fld inst :=
  keeps_showSins (closed_rd fld inst _ hf) rfl 

@[simp] theorem rd_showWait (s : State)  {fld : Fld} (hf : Touched.showWait.has fld.id = false) (inst : Nat) :
    (State.showWait s).rd fld inst = s.rd fld inst :=
  keeps_showWait (closed_rd fld inst _ hf) rfl 

@[simp] theorem rd_startProgram (s : State) (ok : Bool) {fld : Fld} (hf : Touched.startProgram.has fld.id = false) (inst : Nat) :
    (State.startProgram s ok).rd fld inst = s.rd fld inst :=
  keeps_startProgram (closed_rd fld inst _ hf) rfl _

@[simp] theorem rd_startWefts (s : State) (g : SafProg) {fld : Fld} (hf : Touched.startWefts.has fld.id = false) (inst : Nat) :
    (State.startWefts s g).rd fld inst = s.rd fld inst :=
  keeps_startWefts (closed_rd fld inst _ hf) rfl _

@[simp] theorem rd_toStart (s : State)  {fld : Fld} (hf : Touched.toStart.has fld.id = false) (inst : Nat) :
    (State.toStart s).rd fld inst = s.rd fld inst :=
  keeps_toStart (closed_rd fld inst _ hf) rfl 

@[simp] theorem rd_tryRecover (s : State)  {fld : Fld} (hf : Touched.tryRecover.has fld.id = false) (inst : Nat) :
    (State.tryRecover s).rd fld inst = s.rd fld inst :=
  keeps_tryRecover (closed_rd fld inst _ hf) rfl 

@[simp] theorem rd_acceptWeft (s : State) (n : Nat) (e : WeftEntry) (f : WeftRx) {fld : Fld} (hf : Touched.acceptWeft.has fld.id = false) (inst : Nat) :
    (State.acceptWeft s n e f).rd fld inst = s.rd fld inst :=
  keeps_acceptWeft (closed_rd fld inst _ hf) rfl _ _ _

@[simp] theorem rd_refuseApply (s : State) (p : Nat) (res : Nat) {fld : Fld} (hf : Touched.refuseApply.has fld.id = false) (inst : Nat) :
    (State.refuseApply s p res).rd fld inst = s.rd fld inst :=
  keeps_refuseApply (closed_rd fld inst _ hf) rfl _ _

@[simp] theorem rd_scanError (s : State) (faddr : Nat) (dramBad : Bool) {fld : Fld} (hf : Touched.scanError.has fld.id = false) (inst : Nat) :
    (State.scanError s faddr dramBad).rd fld inst = s.rd fld inst :=
  keeps_scanError (closed_rd fld inst _ hf) rfl _ _

@[simp] theorem rd_showDraft (s : State) (p : Nat) (d : Nat) (img : DraftImg) (stale : Bool) {fld : Fld} (hf : Touched.showDraft.has fld.id = false) (inst : Nat) :
    (State.showDraft s p d img stale).rd fld inst = s.rd fld inst :=
  keeps_showDraft (closed_rd fld inst _ hf) rfl _ _ _ _

@[simp] theorem rd_takePin (s : State) (pin : Nat) {fld : Fld} (hf : Touched.takePin.has fld.id = false) (inst : Nat) :
    (State.takePin s pin).rd fld inst = s.rd fld inst :=
  keeps_takePin (closed_rd fld inst _ hf) rfl _

@[simp] theorem rd_writeJournal (s : State) (p : Nat) (d : Nat) (f : Instant) {fld : Fld} (hf : Touched.writeJournal.has fld.id = false) (inst : Nat) :
    (State.writeJournal s p d f).rd fld inst = s.rd fld inst :=
  keeps_writeJournal (closed_rd fld inst _ hf) rfl _ _ _

@[simp] theorem rd_lcCtrlFields (s : State) (n : Nat) (v : Nat) (open_ : Bool) {fld : Fld} (hf : Touched.lcCtrlFields.has fld.id = false) (inst : Nat) :
    (State.lcCtrlFields s n v open_).rd fld inst = s.rd fld inst :=
  keeps_lcCtrlFields (closed_rd fld inst _ hf) rfl _ _ _

@[simp] theorem rd_noteStale (s : State) (n : Nat) {fld : Fld} (hf : Touched.noteStale.has fld.id = false) (inst : Nat) :
    (State.noteStale s n).rd fld inst = s.rd fld inst :=
  keeps_noteStale (closed_rd fld inst _ hf) rfl _

@[simp] theorem rd_takeSnapshotOf (s : State) (n : Nat) {fld : Fld} (hf : Touched.takeSnapshotOf.has fld.id = false) (inst : Nat) :
    (State.takeSnapshotOf s n).rd fld inst = s.rd fld inst :=
  keeps_takeSnapshotOf (closed_rd fld inst _ hf) rfl _

@[simp] theorem rd_nextGroup (s : State) (g : Nat) {fld : Fld} (hf : Touched.nextGroup.has fld.id = false) (inst : Nat) :
    (State.nextGroup s g).rd fld inst = s.rd fld inst :=
  keeps_nextGroup (closed_rd fld inst _ hf) rfl _

@[simp] theorem rd_putRot (s : State) (r : Rotation) {fld : Fld} (hf : Touched.putRot.has fld.id = false) (inst : Nat) :
    (State.putRot s r).rd fld inst = s.rd fld inst :=
  keeps_putRot (closed_rd fld inst _ hf) rfl _

@[simp] theorem rd_retire (s : State) (v : Nat) {fld : Fld} (hf : Touched.retire.has fld.id = false) (inst : Nat) :
    (State.retire s v).rd fld inst = s.rd fld inst :=
  keeps_retire (closed_rd fld inst _ hf) rfl _

@[simp] theorem rd_showCal (s : State)  {fld : Fld} (hf : Touched.showCal.has fld.id = false) (inst : Nat) :
    (State.showCal s).rd fld inst = s.rd fld inst :=
  keeps_showCal (closed_rd fld inst _ hf) rfl 

@[simp] theorem rd_onBoot (s : State) (f : BootCtl → BootCtl) {fld : Fld} (hf : Touched.onBoot.has fld.id = false) (inst : Nat) :
    (State.onBoot s f).rd fld inst = s.rd fld inst :=
  keeps_onBoot (closed_rd fld inst _ hf) rfl _

@[simp] theorem rd_restoreAxis (s : State) (c : CkptAxis) {fld : Fld} (hf : Touched.restoreAxis.has fld.id = false) (inst : Nat) :
    (State.restoreAxis s c).rd fld inst = s.rd fld inst :=
  keeps_restoreAxis (closed_rd fld inst _ hf) rfl _

@[simp] theorem rd_restoreCell (s : State) (c : CkptCell) {fld : Fld} (hf : Touched.restoreCell.has fld.id = false) (inst : Nat) :
    (State.restoreCell s c).rd fld inst = s.rd fld inst :=
  keeps_restoreCell (closed_rd fld inst _ hf) rfl _

@[simp] theorem rd_restoreGen (s : State) (c : CkptGen) {fld : Fld} (hf : Touched.restoreGen.has fld.id = false) (inst : Nat) :
    (State.restoreGen s c).rd fld inst = s.rd fld inst :=
  keeps_restoreGen (closed_rd fld inst _ hf) rfl _

@[simp] theorem rd_restoreRejoin (s : State) (c : CkptPart) {fld : Fld} (hf : Touched.restoreRejoin.has fld.id = false) (inst : Nat) :
    (State.restoreRejoin s c).rd fld inst = s.rd fld inst :=
  keeps_restoreRejoin (closed_rd fld inst _ hf) rfl _

@[simp] theorem rd_restoreSnapCell (s : State) (c : SnapCell) {fld : Fld} (hf : Touched.restoreSnapCell.has fld.id = false) (inst : Nat) :
    (State.restoreSnapCell s c).rd fld inst = s.rd fld inst :=
  keeps_restoreSnapCell (closed_rd fld inst _ hf) rfl _

@[simp] theorem rd_restoreSnapshot (s : State) (x : Snapshot) {fld : Fld} (hf : Touched.restoreSnapshot.has fld.id = false) (inst : Nat) :
    (State.restoreSnapshot s x).rd fld inst = s.rd fld inst :=
  keeps_restoreSnapshot (closed_rd fld inst _ hf) rfl _

@[simp] theorem rd_restoreStep (s : State) (p : Nat) (c : CkptTreadle) {fld : Fld} (hf : Touched.restoreStep.has fld.id = false) (inst : Nat) :
    (State.restoreStep s p c).rd fld inst = s.rd fld inst :=
  keeps_restoreStep (closed_rd fld inst _ hf) rfl _ _

@[simp] theorem rd_restoreTreadle (s : State) (p : Nat) (c : CkptTreadle) {fld : Fld} (hf : Touched.restoreTreadle.has fld.id = false) (inst : Nat) :
    (State.restoreTreadle s p c).rd fld inst = s.rd fld inst :=
  keeps_restoreTreadle (closed_rd fld inst _ hf) rfl _ _

@[simp] theorem rd_commitEntry (s : State)  {fld : Fld} (hf : Touched.commitEntry.has fld.id = false) (inst : Nat) :
    (State.commitEntry s).rd fld inst = s.rd fld inst :=
  keeps_commitEntry (closed_rd fld inst _ hf) rfl 

@[simp] theorem rd_enterDeep (s : State)  {fld : Fld} (hf : Touched.enterDeep.has fld.id = false) (inst : Nat) :
    (State.enterDeep s).rd fld inst = s.rd fld inst :=
  keeps_enterDeep (closed_rd fld inst _ hf) rfl 

@[simp] theorem rd_externalWake (s : State) (code : Nat) (enabled : Bool) (deep : Bool) {fld : Fld} (hf : Touched.externalWake.has fld.id = false) (inst : Nat) :
    (State.externalWake s code enabled deep).rd fld inst = s.rd fld inst :=
  keeps_externalWake (closed_rd fld inst _ hf) rfl _ _ _

@[simp] theorem rd_leaveDeep (s : State)  {fld : Fld} (hf : Touched.leaveDeep.has fld.id = false) (inst : Nat) :
    (State.leaveDeep s).rd fld inst = s.rd fld inst :=
  keeps_leaveDeep (closed_rd fld inst _ hf) rfl 

@[simp] theorem rd_lullError (s : State)  {fld : Fld} (hf : Touched.lullError.has fld.id = false) (inst : Nat) :
    (State.lullError s).rd fld inst = s.rd fld inst :=
  keeps_lullError (closed_rd fld inst _ hf) rfl 

@[simp] theorem rd_releaseQuadrant (s : State) (q : Nat) {fld : Fld} (hf : Touched.releaseQuadrant.has fld.id = false) (inst : Nat) :
    (State.releaseQuadrant s q).rd fld inst = s.rd fld inst :=
  keeps_releaseQuadrant (closed_rd fld inst _ hf) rfl _

@[simp] theorem rd_reloadDraft (s : State) (k : Nat) (img : DraftImg) {fld : Fld} (hf : Touched.reloadDraft.has fld.id = false) (inst : Nat) :
    (State.reloadDraft s k img).1.rd fld inst = s.rd fld inst :=
  keeps_reloadDraft (closed_rd fld inst _ hf) rfl _ _

@[simp] theorem rd_reloadDrafts (s : State) (unread : List Nat) {fld : Fld} (hf : Touched.reloadDrafts.has fld.id = false) (inst : Nat) :
    (State.reloadDrafts s unread).1.rd fld inst = s.rd fld inst :=
  keeps_reloadDrafts (closed_rd fld inst _ hf) rfl _

@[simp] theorem rd_writeFrames (s : State) (a : List BeamFrame) {fld : Fld} (hf : Touched.writeFrames.has fld.id = false) (inst : Nat) :
    (State.writeFrames s a).rd fld inst = s.rd fld inst :=
  keeps_writeFrames (closed_rd fld inst _ hf) rfl _

@[simp] theorem rd_commitActions (s : State) (p : Nat) (acts : List PoolEntry) {fld : Fld} (hf : Touched.commitActions.has fld.id = false) (inst : Nat) :
    (State.commitActions s p acts).rd fld inst = s.rd fld inst :=
  keeps_commitActions (closed_rd fld inst _ hf) rfl _ _

@[simp] theorem rd_commitDue (s : State) (p : Nat) {fld : Fld} (hf : Touched.commitDue.has fld.id = false) (inst : Nat) :
    (State.commitDue s p).rd fld inst = s.rd fld inst :=
  keeps_commitDue (closed_rd fld inst _ hf) rfl _

@[simp] theorem rd_commitStep (s : State) (p : Nat) (t : StepTable) (x : Staging) {fld : Fld} (hf : Touched.commitStep.has fld.id = false) (inst : Nat) :
    (State.commitStep s p t x).rd fld inst = s.rd fld inst :=
  keeps_commitStep (closed_rd fld inst _ hf) rfl _ _ _

@[simp] theorem rd_commitValves (s : State) (p : Nat) (acts : List PoolEntry) {fld : Fld} (hf : Touched.commitValves.has fld.id = false) (inst : Nat) :
    (State.commitValves s p acts).rd fld inst = s.rd fld inst :=
  keeps_commitValves (closed_rd fld inst _ hf) rfl _ _

@[simp] theorem rd_evalCond (s : State) (p : Nat) (i : Nat) {fld : Fld} (hf : Touched.evalCond.has fld.id = false) (inst : Nat) :
    (State.evalCond s p i).1.rd fld inst = s.rd fld inst :=
  keeps_evalCond (closed_rd fld inst _ hf) rfl _ _

@[simp] theorem rd_evalConds (s : State) (p : Nat) {fld : Fld} (hf : Touched.evalConds.has fld.id = false) (inst : Nat) :
    (State.evalConds s p).1.rd fld inst = s.rd fld inst :=
  keeps_evalConds (closed_rd fld inst _ hf) rfl _

@[simp] theorem rd_evaluateStep (s : State) (p : Nat) {fld : Fld} (hf : Touched.evaluateStep.has fld.id = false) (inst : Nat) :
    (State.evaluateStep s p).rd fld inst = s.rd fld inst :=
  keeps_evaluateStep (closed_rd fld inst _ hf) rfl _

@[simp] theorem rd_spawn (s : State) (p : Nat) (a : PoolEntry) {fld : Fld} (hf : Touched.spawn.has fld.id = false) (inst : Nat) :
    (State.spawn s p a).rd fld inst = s.rd fld inst :=
  keeps_spawn (closed_rd fld inst _ hf) rfl _ _

@[simp] theorem rd_stagingMiss (s : State) (p : Nat) {fld : Fld} (hf : Touched.stagingMiss.has fld.id = false) (inst : Nat) :
    (State.stagingMiss s p).rd fld inst = s.rd fld inst :=
  keeps_stagingMiss (closed_rd fld inst _ hf) rfl _

@[simp] theorem rd_takeDecision (s : State) (p : Nat) (mask : Nat) {fld : Fld} (hf : Touched.takeDecision.has fld.id = false) (inst : Nat) :
    (State.takeDecision s p mask).rd fld inst = s.rd fld inst :=
  keeps_takeDecision (closed_rd fld inst _ hf) rfl _ _

@[simp] theorem rd_takeTable (s : State) (p : Nat) (img : StepTable) {fld : Fld} (hf : Touched.takeTable.has fld.id = false) (inst : Nat) :
    (State.takeTable s p img).rd fld inst = s.rd fld inst :=
  keeps_takeTable (closed_rd fld inst _ hf) rfl _ _

@[simp] theorem rd_trRefuse (s : State) (p : Nat) {fld : Fld} (hf : Touched.trRefuse.has fld.id = false) (inst : Nat) :
    (State.trRefuse s p).rd fld inst = s.rd fld inst :=
  keeps_trRefuse (closed_rd fld inst _ hf) rfl _

@[simp] theorem rd_closeDebug (s : State)  {fld : Fld} (hf : Touched.closeDebug.has fld.id = false) (inst : Nat) :
    (State.closeDebug s).rd fld inst = s.rd fld inst :=
  keeps_closeDebug (closed_rd fld inst _ hf) rfl 

@[simp] theorem rd_drawRandom (s : State)  {fld : Fld} (hf : Touched.drawRandom.has fld.id = false) (inst : Nat) :
    (State.drawRandom s).2.rd fld inst = s.rd fld inst :=
  keeps_drawRandom (closed_rd fld inst _ hf) rfl 

@[simp] theorem rd_emptySlot (s : State) (k : Nat) {fld : Fld} (hf : Touched.emptySlot.has fld.id = false) (inst : Nat) :
    (State.emptySlot s k).rd fld inst = s.rd fld inst :=
  keeps_emptySlot (closed_rd fld inst _ hf) rfl _

@[simp] theorem rd_setFloor (s : State) (c : Nat) (p : Nat) (v : Nat) {fld : Fld} (hf : Touched.setFloor.has fld.id = false) (inst : Nat) :
    (State.setFloor s c p v).rd fld inst = s.rd fld inst :=
  keeps_setFloor (closed_rd fld inst _ hf) rfl _ _ _

@[simp] theorem rd_showSlot (s : State) (k : Nat) (st : Nat) {fld : Fld} (hf : Touched.showSlot.has fld.id = false) (inst : Nat) :
    (State.showSlot s k st).rd fld inst = s.rd fld inst :=
  keeps_showSlot (closed_rd fld inst _ hf) rfl _ _

@[simp] theorem rd_takeAuth (s : State) (a : AuthRec) {fld : Fld} (hf : Touched.takeAuth.has fld.id = false) (inst : Nat) :
    (State.takeAuth s a).rd fld inst = s.rd fld inst :=
  keeps_takeAuth (closed_rd fld inst _ hf) rfl _

@[simp] theorem rd_updEvent (s : State) (bit : Nat) (res : Nat) {fld : Fld} (hf : Touched.updEvent.has fld.id = false) (inst : Nat) :
    (State.updEvent s bit res).rd fld inst = s.rd fld inst :=
  keeps_updEvent (closed_rd fld inst _ hf) rfl _ _

@[simp] theorem rd_bootAt (s : State) (n : Nat) {fld : Fld} (hf : Touched.bootAt.has fld.id = false) (inst : Nat) :
    (State.bootAt s n).rd fld inst = s.rd fld inst :=
  keeps_bootAt (closed_rd fld inst _ hf) rfl _

@[simp] theorem rd_bootFails (s : State) (n : Nat) (code : Option Nat) {fld : Fld} (hf : Touched.bootFails.has fld.id = false) (inst : Nat) :
    (State.bootFails s n code).rd fld inst = s.rd fld inst :=
  keeps_bootFails (closed_rd fld inst _ hf) rfl _ _

@[simp] theorem rd_bootHalts (s : State) (n : Nat) (cause : Nat) (code : Option Nat) {fld : Fld} (hf : Touched.bootHalts.has fld.id = false) (inst : Nat) :
    (State.bootHalts s n cause code).1.rd fld inst = s.rd fld inst :=
  keeps_bootHalts (closed_rd fld inst _ hf) rfl _ _ _

@[simp] theorem rd_bootRing (s : State) (b : BootRec) (r : Nat) {fld : Fld} (hf : Touched.bootRing.has fld.id = false) (inst : Nat) :
    (State.bootRing s b r).rd fld inst = s.rd fld inst :=
  keeps_bootRing (closed_rd fld inst _ hf) rfl _ _

@[simp] theorem rd_bootSelect (s : State) (b : BootRec) {fld : Fld} (hf : Touched.bootSelect.has fld.id = false) (inst : Nat) :
    (State.bootSelect s b).rd fld inst = s.rd fld inst :=
  keeps_bootSelect (closed_rd fld inst _ hf) rfl _

@[simp] theorem rd_bootStep1 (s : State) (b : BootRec) {fld : Fld} (hf : Touched.bootStep1.has fld.id = false) (inst : Nat) :
    (State.bootStep1 s b).1.rd fld inst = s.rd fld inst :=
  keeps_bootStep1 (closed_rd fld inst _ hf) rfl _

@[simp] theorem rd_bootStep2 (s : State) (b : BootRec) {fld : Fld} (hf : Touched.bootStep2.has fld.id = false) (inst : Nat) :
    (State.bootStep2 s b).1.rd fld inst = s.rd fld inst :=
  keeps_bootStep2 (closed_rd fld inst _ hf) rfl _

@[simp] theorem rd_bootStep3 (s : State) (b : BootRec) {fld : Fld} (hf : Touched.bootStep3.has fld.id = false) (inst : Nat) :
    (State.bootStep3 s b).1.rd fld inst = s.rd fld inst :=
  keeps_bootStep3 (closed_rd fld inst _ hf) rfl _

@[simp] theorem rd_bootStep4 (s : State) (b : BootRec) {fld : Fld} (hf : Touched.bootStep4.has fld.id = false) (inst : Nat) :
    (State.bootStep4 s b).1.rd fld inst = s.rd fld inst :=
  keeps_bootStep4 (closed_rd fld inst _ hf) rfl _

@[simp] theorem rd_bootStep8 (s : State) (b : BootRec) {fld : Fld} (hf : Touched.bootStep8.has fld.id = false) (inst : Nat) :
    (State.bootStep8 s b).1.rd fld inst = s.rd fld inst :=
  keeps_bootStep8 (closed_rd fld inst _ hf) rfl _

@[simp] theorem rd_bootStep9 (s : State) (b : BootRec) {fld : Fld} (hf : Touched.bootStep9.has fld.id = false) (inst : Nat) :
    (State.bootStep9 s b).1.rd fld inst = s.rd fld inst :=
  keeps_bootStep9 (closed_rd fld inst _ hf) rfl _

@[simp] theorem rd_itemFails (s : State) (p : Nat) (code : Option Nat) {fld : Fld} (hf : Touched.itemFails.has fld.id = false) (inst : Nat) :
    (State.itemFails s p code).rd fld inst = s.rd fld inst :=
  keeps_itemFails (closed_rd fld inst _ hf) rfl _ _

@[simp] theorem rd_restartStream (s : State) (k : Nat) {fld : Fld} (hf : Touched.restartStream.has fld.id = false) (inst : Nat) :
    (State.restartStream s k).rd fld inst = s.rd fld inst :=
  keeps_restartStream (closed_rd fld inst _ hf) rfl _

@[simp] theorem rd_resumeVars (s : State) (c : Checkpoint) (x : CkptPart) {fld : Fld} (hf : Touched.resumeVars.has fld.id = false) (inst : Nat) :
    (State.resumeVars s c x).rd fld inst = s.rd fld inst :=
  keeps_resumeVars (closed_rd fld inst _ hf) rfl _ _

@[simp] theorem rd_released (s : State)  {fld : Fld} (hf : Touched.released.has fld.id = false) (inst : Nat) :
    (State.released s).rd fld inst = s.rd fld inst :=
  keeps_released (closed_rd fld inst _ hf) rfl 

@[simp] theorem rd_resetCell (s : State) (n : Nat) {fld : Fld} (hf : Touched.resetCell.has fld.id = false) (inst : Nat) :
    (State.resetCell s n).rd fld inst = s.rd fld inst :=
  keeps_resetCell (closed_rd fld inst _ hf) rfl _

@[simp] theorem rd_becomeOffline (s : State) (bit : Option Nat) {fld : Fld} (hf : Touched.becomeOffline.has fld.id = false) (inst : Nat) :
    (State.becomeOffline s bit).rd fld inst = s.rd fld inst :=
  keeps_becomeOffline (closed_rd fld inst _ hf) rfl _

@[simp] theorem rd_becomeRepaired (s : State)  {fld : Fld} (hf : Touched.becomeRepaired.has fld.id = false) (inst : Nat) :
    (State.becomeRepaired s).rd fld inst = s.rd fld inst :=
  keeps_becomeRepaired (closed_rd fld inst _ hf) rfl 

@[simp] theorem rd_compareDigests (s : State) (r : Nat) {fld : Fld} (hf : Touched.compareDigests.has fld.id = false) (inst : Nat) :
    (State.compareDigests s r).rd fld inst = s.rd fld inst :=
  keeps_compareDigests (closed_rd fld inst _ hf) rfl _

@[simp] theorem rd_diverge (s : State) (r : Nat) (c : Nat) {fld : Fld} (hf : Touched.diverge.has fld.id = false) (inst : Nat) :
    (State.diverge s r c).rd fld inst = s.rd fld inst :=
  keeps_diverge (closed_rd fld inst _ hf) rfl _ _

@[simp] theorem rd_hearFrame (s : State) (c : Contrail) {fld : Fld} (hf : Touched.hearFrame.has fld.id = false) (inst : Nat) :
    (State.hearFrame s c).rd fld inst = s.rd fld inst :=
  keeps_hearFrame (closed_rd fld inst _ hf) rfl _

@[simp] theorem rd_judge (s : State)  {fld : Fld} (hf : Touched.judge.has fld.id = false) (inst : Nat) :
    (State.judge s).rd fld inst = s.rd fld inst :=
  keeps_judge (closed_rd fld inst _ hf) rfl 

@[simp] theorem rd_loseLink (s : State)  {fld : Fld} (hf : Touched.loseLink.has fld.id = false) (inst : Nat) :
    (State.loseLink s).rd fld inst = s.rd fld inst :=
  keeps_loseLink (closed_rd fld inst _ hf) rfl 

@[simp] theorem rd_loseSync (s : State) (bit : Nat) {fld : Fld} (hf : Touched.loseSync.has fld.id = false) (inst : Nat) :
    (State.loseSync s bit).rd fld inst = s.rd fld inst :=
  keeps_loseSync (closed_rd fld inst _ hf) rfl _

@[simp] theorem rd_matchCycle (s : State) (r : Nat) {fld : Fld} (hf : Touched.matchCycle.has fld.id = false) (inst : Nat) :
    (State.matchCycle s r).rd fld inst = s.rd fld inst :=
  keeps_matchCycle (closed_rd fld inst _ hf) rfl _

@[simp] theorem rd_pairReception (s : State) (r : Nat) (at_ : Instant) (c : Nat) {fld : Fld} (hf : Touched.pairReception.has fld.id = false) (inst : Nat) :
    (State.pairReception s r at_ c).rd fld inst = s.rd fld inst :=
  keeps_pairReception (closed_rd fld inst _ hf) rfl _ _ _

@[simp] theorem rd_partnerFrame (s : State) (r : Nat) (f : RxFrame) {fld : Fld} (hf : Touched.partnerFrame.has fld.id = false) (inst : Nat) :
    (State.partnerFrame s r f).rd fld inst = s.rd fld inst :=
  keeps_partnerFrame (closed_rd fld inst _ hf) rfl _ _

@[simp] theorem rd_putRole (s : State) (role : Nat) (bit : Option Nat) {fld : Fld} (hf : Touched.putRole.has fld.id = false) (inst : Nat) :
    (State.putRole s role bit).rd fld inst = s.rd fld inst :=
  keeps_putRole (closed_rd fld inst _ hf) rfl _ _

@[simp] theorem rd_ringListener (s : State) (r : Nat) {fld : Fld} (hf : Touched.ringListener.has fld.id = false) (inst : Nat) :
    (State.ringListener s r).rd fld inst = s.rd fld inst :=
  keeps_ringListener (closed_rd fld inst _ hf) rfl _

@[simp] theorem rd_ringMaster (s : State) (r : Nat) {fld : Fld} (hf : Touched.ringMaster.has fld.id = false) (inst : Nat) :
    (State.ringMaster s r).rd fld inst = s.rd fld inst :=
  keeps_ringMaster (closed_rd fld inst _ hf) rfl _

@[simp] theorem rd_ringRoles (s : State)  {fld : Fld} (hf : Touched.ringRoles.has fld.id = false) (inst : Nat) :
    (State.ringRoles s).rd fld inst = s.rd fld inst :=
  keeps_ringRoles (closed_rd fld inst _ hf) rfl 

@[simp] theorem rd_sendDigest (s : State) (r : Nat) (cycle : Nat) {fld : Fld} (hf : Touched.sendDigest.has fld.id = false) (inst : Nat) :
    (State.sendDigest s r cycle).rd fld inst = s.rd fld inst :=
  keeps_sendDigest (closed_rd fld inst _ hf) rfl _ _

@[simp] theorem rd_showSync (s : State)  {fld : Fld} (hf : Touched.showSync.has fld.id = false) (inst : Nat) :
    (State.showSync s).rd fld inst = s.rd fld inst :=
  keeps_showSync (closed_rd fld inst _ hf) rfl 

@[simp] theorem rd_showWitness (s : State)  {fld : Fld} (hf : Touched.showWitness.has fld.id = false) (inst : Nat) :
    (State.showWitness s).rd fld inst = s.rd fld inst :=
  keeps_showWitness (closed_rd fld inst _ hf) rfl 

@[simp] theorem rd_startListening (s : State) (r : Nat) {fld : Fld} (hf : Touched.startListening.has fld.id = false) (inst : Nat) :
    (State.startListening s r).rd fld inst = s.rd fld inst :=
  keeps_startListening (closed_rd fld inst _ hf) rfl _

@[simp] theorem rd_startSync (s : State) (same : Bool) {fld : Fld} (hf : Touched.startSync.has fld.id = false) (inst : Nat) :
    (State.startSync s same).rd fld inst = s.rd fld inst :=
  keeps_startSync (closed_rd fld inst _ hf) rfl _

@[simp] theorem rd_syncFails (s : State) (res : Nat) {fld : Fld} (hf : Touched.syncFails.has fld.id = false) (inst : Nat) :
    (State.syncFails s res).rd fld inst = s.rd fld inst :=
  keeps_syncFails (closed_rd fld inst _ hf) rfl _

@[simp] theorem rd_takeOffset (s : State) (d : Int) {fld : Fld} (hf : Touched.takeOffset.has fld.id = false) (inst : Nat) :
    (State.takeOffset s d).rd fld inst = s.rd fld inst :=
  keeps_takeOffset (closed_rd fld inst _ hf) rfl _

@[simp] theorem rd_takeToken (s : State) (term : Nat) (bit : Option Nat) {fld : Fld} (hf : Touched.takeToken.has fld.id = false) (inst : Nat) :
    (State.takeToken s term bit).rd fld inst = s.rd fld inst :=
  keeps_takeToken (closed_rd fld inst _ hf) rfl _ _

@[simp] theorem rd_tryJoin (s : State)  {fld : Fld} (hf : Touched.tryJoin.has fld.id = false) (inst : Nat) :
    (State.tryJoin s).rd fld inst = s.rd fld inst :=
  keeps_tryJoin (closed_rd fld inst _ hf) rfl 

@[simp] theorem rd_beginCycle (s : State) (r : Nat) (k : Nat) {fld : Fld} (hf : Touched.beginCycle.has fld.id = false) (inst : Nat) :
    (State.beginCycle s r k).rd fld inst = s.rd fld inst :=
  keeps_beginCycle (closed_rd fld inst _ hf) rfl _ _

@[simp] theorem rd_copies (s : State) (r : Nat) {fld : Fld} (hf : Touched.copies.has fld.id = false) (inst : Nat) :
    (State.copies s r).1.rd fld inst = s.rd fld inst :=
  keeps_copies (closed_rd fld inst _ hf) rfl _

@[simp] theorem rd_fillFrame (s : State) (r : Nat) {fld : Fld} (hf : Touched.fillFrame.has fld.id = false) (inst : Nat) :
    (State.fillFrame s r).rd fld inst = s.rd fld inst :=
  keeps_fillFrame (closed_rd fld inst _ hf) rfl _

@[simp] theorem rd_fillMailbox (s : State) (r : Nat) {fld : Fld} (hf : Touched.fillMailbox.has fld.id = false) (inst : Nat) :
    (State.fillMailbox s r).rd fld inst = s.rd fld inst :=
  keeps_fillMailbox (closed_rd fld inst _ hf) rfl _

@[simp] theorem rd_heardFrame (s : State) (r : Nat) (f : RxFrame) {fld : Fld} (hf : Touched.heardFrame.has fld.id = false) (inst : Nat) :
    (State.heardFrame s r f).rd fld inst = s.rd fld inst :=
  keeps_heardFrame (closed_rd fld inst _ hf) rfl _ _

@[simp] theorem rd_listen (s : State) (r : Nat) (f : RxFrame) {fld : Fld} (hf : Touched.listen.has fld.id = false) (inst : Nat) :
    (State.listen s r f).rd fld inst = s.rd fld inst :=
  keeps_listen (closed_rd fld inst _ hf) rfl _ _

@[simp] theorem rd_mergeCopies (s : State) (r : Nat) (c : Instant) {fld : Fld} (hf : Touched.mergeCopies.has fld.id = false) (inst : Nat) :
    (State.mergeCopies s r c).rd fld inst = s.rd fld inst :=
  keeps_mergeCopies (closed_rd fld inst _ hf) rfl _ _

@[simp] theorem rd_ringRefuse (s : State) (r : Nat) {fld : Fld} (hf : Touched.ringRefuse.has fld.id = false) (inst : Nat) :
    (State.ringRefuse s r).rd fld inst = s.rd fld inst :=
  keeps_ringRefuse (closed_rd fld inst _ hf) rfl _

@[simp] theorem rd_wholeFrame (s : State) (r : Nat) (c : Instant) (f : RxFrame) {fld : Fld} (hf : Touched.wholeFrame.has fld.id = false) (inst : Nat) :
    (State.wholeFrame s r c f).rd fld inst = s.rd fld inst :=
  keeps_wholeFrame (closed_rd fld inst _ hf) rfl _ _ _

@[simp] theorem rd_checkpoint (s : State) (k : Nat) {fld : Fld} (hf : Touched.checkpoint.has fld.id = false) (inst : Nat) :
    (State.checkpoint s k).rd fld inst = s.rd fld inst :=
  keeps_checkpoint (closed_rd fld inst _ hf) rfl _

@[simp] theorem rd_onSlot (s : State) (k : Nat) (seq : Nat) (f : SkSlot → SkSlot) {fld : Fld} (hf : Touched.onSlot.has fld.id = false) (inst : Nat) :
    (State.onSlot s k seq f).rd fld inst = s.rd fld inst :=
  keeps_onSlot (closed_rd fld inst _ hf) rfl _ _ _

@[simp] theorem rd_refreshRegion (s : State) (k : Nat) {fld : Fld} (hf : Touched.refreshRegion.has fld.id = false) (inst : Nat) :
    (State.refreshRegion s k).rd fld inst = s.rd fld inst :=
  keeps_refreshRegion (closed_rd fld inst _ hf) rfl _

@[simp] theorem rd_startExport (s : State) (k : Nat) {fld : Fld} (hf : Touched.startExport.has fld.id = false) (inst : Nat) :
    (State.startExport s k).rd fld inst = s.rd fld inst :=
  keeps_startExport (closed_rd fld inst _ hf) rfl _

@[simp] theorem rd_storeBlock (s : State) (k : Nat) (b : SkBlock) {fld : Fld} (hf : Touched.storeBlock.has fld.id = false) (inst : Nat) :
    (State.storeBlock s k b).rd fld inst = s.rd fld inst :=
  keeps_storeBlock (closed_rd fld inst _ hf) rfl _ _

@[simp] theorem rd_transferred (s : State) (x : Syncing) {fld : Fld} (hf : Touched.transferred.has fld.id = false) (inst : Nat) :
    (State.transferred s x).rd fld inst = s.rd fld inst :=
  keeps_transferred (closed_rd fld inst _ hf) rfl _

@[simp] theorem rd_afterWrite (s : State) (off : Nat) {fld : Fld} (hf : Touched.afterWrite.has fld.id = false) (inst : Nat) :
    (State.afterWrite s off).rd fld inst = s.rd fld inst :=
  keeps_afterWrite (closed_rd fld inst _ hf) rfl _

@[simp] theorem rd_latchView (s : State) (off : Nat) {fld : Fld} (hf : Touched.latchView.has fld.id = false) (inst : Nat) :
    (State.latchView s off).rd fld inst = s.rd fld inst :=
  keeps_latchView (closed_rd fld inst _ hf) rfl _

@[simp] theorem rd_putLatch (s : State) (q : Requester) (off : Nat) (v : Option Nat) {fld : Fld} (hf : Touched.putLatch.has fld.id = false) (inst : Nat) :
    (State.putLatch s q off v).rd fld inst = s.rd fld inst :=
  keeps_putLatch (closed_rd fld inst _ hf) rfl _ _ _

@[simp] theorem rd_refreshReg (s : State) (off : Nat) {fld : Fld} (hf : Touched.refreshReg.has fld.id = false) (inst : Nat) :
    (State.refreshReg s off).rd fld inst = s.rd fld inst :=
  keeps_refreshReg (closed_rd fld inst _ hf) rfl _

@[simp] theorem rd_refuseRead (s : State) (q : Requester) (off : Nat) {fld : Fld} (hf : Touched.refuseRead.has fld.id = false) (inst : Nat) :
    (State.refuseRead s q off).rd fld inst = s.rd fld inst :=
  keeps_refuseRead (closed_rd fld inst _ hf) rfl _ _

@[simp] theorem rd_stageLow (s : State) (q : Requester) (off : Nat) (v : Nat) {fld : Fld} (hf : Touched.stageLow.has fld.id = false) (inst : Nat) :
    (State.stageLow s q off v).rd fld inst = s.rd fld inst :=
  keeps_stageLow (closed_rd fld inst _ hf) rfl _ _ _

@[simp] theorem rd_windowRead (s : State) (q : Requester) (off : Nat) {fld : Fld} (hf : Touched.windowRead.has fld.id = false) (inst : Nat) :
    (State.windowRead s q off).rd fld inst = s.rd fld inst :=
  keeps_windowRead (closed_rd fld inst _ hf) rfl _ _

@[simp] theorem rd_windowWrite (s : State) (q : Requester) (off : Nat) (value : Word) {fld : Fld} (hf : Touched.windowWrite.has fld.id = false) (inst : Nat) :
    (State.windowWrite s q off value).rd fld inst = s.rd fld inst :=
  keeps_windowWrite (closed_rd fld inst _ hf) rfl _ _ _

end Sys2Proof.Machine
end

