-- ==== Sys2Proof/Laws/State.lean ====
section
/-! SUPPORT.  Updates of the state: what each leaves, field by field, and what a register reads after
a write. -/

namespace Sys2Proof.Machine

open Sys2Proof

@[simp] theorem State.putReg_latches (s : State) (id i v : Nat) : (s.putReg id i v).latches = s.latches := rfl
@[simp] theorem State.putReg_staged (s : State) (id i v : Nat) : (s.putReg id i v).staged = s.staged := rfl
@[simp] theorem State.putReg_warp (s : State) (id i v : Nat) : (s.putReg id i v).warp = s.warp := rfl
@[simp] theorem State.putReg_skein (s : State) (id i v : Nat) : (s.putReg id i v).skein = s.skein := rfl
@[simp] theorem State.putReg_cells (s : State) (id i v : Nat) : (s.putReg id i v).cells = s.cells := rfl
@[simp] theorem State.putReg_fio (s : State) (id i v : Nat) : (s.putReg id i v).fio = s.fio := rfl
@[simp] theorem State.putReg_aout (s : State) (id i v : Nat) : (s.putReg id i v).aout = s.aout := rfl
@[simp] theorem State.putReg_ain (s : State) (id i v : Nat) : (s.putReg id i v).ain = s.ain := rfl
@[simp] theorem State.putReg_conv (s : State) (id i v : Nat) : (s.putReg id i v).conv = s.conv := rfl
@[simp] theorem State.putReg_rot (s : State) (id i v : Nat) : (s.putReg id i v).rot = s.rot := rfl
@[simp] theorem State.putReg_treadles (s : State) (id i v : Nat) : (s.putReg id i v).treadles = s.treadles := rfl
@[simp] theorem State.putReg_gens (s : State) (id i v : Nat) : (s.putReg id i v).gens = s.gens := rfl
@[simp] theorem State.putReg_axes (s : State) (id i v : Nat) : (s.putReg id i v).axes = s.axes := rfl
@[simp] theorem State.putReg_groups (s : State) (id i v : Nat) : (s.putReg id i v).groups = s.groups := rfl
@[simp] theorem State.putReg_trig (s : State) (id i v : Nat) : (s.putReg id i v).trig = s.trig := rfl
@[simp] theorem State.putReg_loom (s : State) (id i v : Nat) : (s.putReg id i v).loom = s.loom := rfl
@[simp] theorem State.putReg_sched (s : State) (id i v : Nat) : (s.putReg id i v).sched = s.sched := rfl
@[simp] theorem State.putReg_cyc (s : State) (id i v : Nat) : (s.putReg id i v).cyc = s.cyc := rfl
@[simp] theorem State.putReg_island (s : State) (id i v : Nat) : (s.putReg id i v).island = s.island := rfl
@[simp] theorem State.putReg_tandem (s : State) (id i v : Nat) : (s.putReg id i v).tandem = s.tandem := rfl
@[simp] theorem State.putReg_sec (s : State) (id i v : Nat) : (s.putReg id i v).sec = s.sec := rfl
@[simp] theorem State.putReg_host (s : State) (id i v : Nat) : (s.putReg id i v).host = s.host := rfl
@[simp] theorem State.putReg_boot (s : State) (id i v : Nat) : (s.putReg id i v).boot = s.boot := rfl
@[simp] theorem State.putReg_answer (s : State) (id i v : Nat) : (s.putReg id i v).answer = s.answer := rfl
@[simp] theorem State.putReg_power (s : State) (id i v : Nat) : (s.putReg id i v).power = s.power := rfl
@[simp] theorem State.putReg_rings (s : State) (id i v : Nat) : (s.putReg id i v).rings = s.rings := rfl
@[simp] theorem State.putReg_sram (s : State) (id i v : Nat) : (s.putReg id i v).sram = s.sram := rfl
@[simp] theorem State.putReg_dram (s : State) (id i v : Nat) : (s.putReg id i v).dram = s.dram := rfl
@[simp] theorem State.putReg_dlm (s : State) (id i v : Nat) : (s.putReg id i v).dlm = s.dlm := rfl
@[simp] theorem State.putReg_freeCtr (s : State) (id i v : Nat) : (s.putReg id i v).freeCtr = s.freeCtr := rfl
@[simp] theorem State.putReg_pending (s : State) (id i v : Nat) : (s.putReg id i v).pending = s.pending := rfl

@[simp] theorem State.wr_latches (s : State) (f : Fld) (v i : Nat) : (s.wr f v i).latches = s.latches := rfl
@[simp] theorem State.wr_staged (s : State) (f : Fld) (v i : Nat) : (s.wr f v i).staged = s.staged := rfl
@[simp] theorem State.wr_warp (s : State) (f : Fld) (v i : Nat) : (s.wr f v i).warp = s.warp := rfl
@[simp] theorem State.wr_skein (s : State) (f : Fld) (v i : Nat) : (s.wr f v i).skein = s.skein := rfl
@[simp] theorem State.wr_cells (s : State) (f : Fld) (v i : Nat) : (s.wr f v i).cells = s.cells := rfl
@[simp] theorem State.wr_fio (s : State) (f : Fld) (v i : Nat) : (s.wr f v i).fio = s.fio := rfl
@[simp] theorem State.wr_aout (s : State) (f : Fld) (v i : Nat) : (s.wr f v i).aout = s.aout := rfl
@[simp] theorem State.wr_ain (s : State) (f : Fld) (v i : Nat) : (s.wr f v i).ain = s.ain := rfl
@[simp] theorem State.wr_conv (s : State) (f : Fld) (v i : Nat) : (s.wr f v i).conv = s.conv := rfl
@[simp] theorem State.wr_rot (s : State) (f : Fld) (v i : Nat) : (s.wr f v i).rot = s.rot := rfl
@[simp] theorem State.wr_treadles (s : State) (f : Fld) (v i : Nat) : (s.wr f v i).treadles = s.treadles := rfl
@[simp] theorem State.wr_gens (s : State) (f : Fld) (v i : Nat) : (s.wr f v i).gens = s.gens := rfl
@[simp] theorem State.wr_axes (s : State) (f : Fld) (v i : Nat) : (s.wr f v i).axes = s.axes := rfl
@[simp] theorem State.wr_groups (s : State) (f : Fld) (v i : Nat) : (s.wr f v i).groups = s.groups := rfl
@[simp] theorem State.wr_trig (s : State) (f : Fld) (v i : Nat) : (s.wr f v i).trig = s.trig := rfl
@[simp] theorem State.wr_loom (s : State) (f : Fld) (v i : Nat) : (s.wr f v i).loom = s.loom := rfl
@[simp] theorem State.wr_sched (s : State) (f : Fld) (v i : Nat) : (s.wr f v i).sched = s.sched := rfl
@[simp] theorem State.wr_cyc (s : State) (f : Fld) (v i : Nat) : (s.wr f v i).cyc = s.cyc := rfl
@[simp] theorem State.wr_island (s : State) (f : Fld) (v i : Nat) : (s.wr f v i).island = s.island := rfl
@[simp] theorem State.wr_tandem (s : State) (f : Fld) (v i : Nat) : (s.wr f v i).tandem = s.tandem := rfl
@[simp] theorem State.wr_sec (s : State) (f : Fld) (v i : Nat) : (s.wr f v i).sec = s.sec := rfl
@[simp] theorem State.wr_host (s : State) (f : Fld) (v i : Nat) : (s.wr f v i).host = s.host := rfl
@[simp] theorem State.wr_boot (s : State) (f : Fld) (v i : Nat) : (s.wr f v i).boot = s.boot := rfl
@[simp] theorem State.wr_answer (s : State) (f : Fld) (v i : Nat) : (s.wr f v i).answer = s.answer := rfl
@[simp] theorem State.wr_power (s : State) (f : Fld) (v i : Nat) : (s.wr f v i).power = s.power := rfl
@[simp] theorem State.wr_rings (s : State) (f : Fld) (v i : Nat) : (s.wr f v i).rings = s.rings := rfl
@[simp] theorem State.wr_sram (s : State) (f : Fld) (v i : Nat) : (s.wr f v i).sram = s.sram := rfl
@[simp] theorem State.wr_dram (s : State) (f : Fld) (v i : Nat) : (s.wr f v i).dram = s.dram := rfl
@[simp] theorem State.wr_dlm (s : State) (f : Fld) (v i : Nat) : (s.wr f v i).dlm = s.dlm := rfl
@[simp] theorem State.wr_freeCtr (s : State) (f : Fld) (v i : Nat) : (s.wr f v i).freeCtr = s.freeCtr := rfl
@[simp] theorem State.wr_pending (s : State) (f : Fld) (v i : Nat) : (s.wr f v i).pending = s.pending := rfl

@[simp] theorem State.wrI_latches (s : State) (f : Fld) (x : Int) (i : Nat) : (s.wrI f x i).latches = s.latches := rfl
@[simp] theorem State.wrI_staged (s : State) (f : Fld) (x : Int) (i : Nat) : (s.wrI f x i).staged = s.staged := rfl
@[simp] theorem State.wrI_warp (s : State) (f : Fld) (x : Int) (i : Nat) : (s.wrI f x i).warp = s.warp := rfl
@[simp] theorem State.wrI_skein (s : State) (f : Fld) (x : Int) (i : Nat) : (s.wrI f x i).skein = s.skein := rfl
@[simp] theorem State.wrI_cells (s : State) (f : Fld) (x : Int) (i : Nat) : (s.wrI f x i).cells = s.cells := rfl
@[simp] theorem State.wrI_fio (s : State) (f : Fld) (x : Int) (i : Nat) : (s.wrI f x i).fio = s.fio := rfl
@[simp] theorem State.wrI_aout (s : State) (f : Fld) (x : Int) (i : Nat) : (s.wrI f x i).aout = s.aout := rfl
@[simp] theorem State.wrI_ain (s : State) (f : Fld) (x : Int) (i : Nat) : (s.wrI f x i).ain = s.ain := rfl
@[simp] theorem State.wrI_conv (s : State) (f : Fld) (x : Int) (i : Nat) : (s.wrI f x i).conv = s.conv := rfl
@[simp] theorem State.wrI_rot (s : State) (f : Fld) (x : Int) (i : Nat) : (s.wrI f x i).rot = s.rot := rfl
@[simp] theorem State.wrI_treadles (s : State) (f : Fld) (x : Int) (i : Nat) : (s.wrI f x i).treadles = s.treadles := rfl
@[simp] theorem State.wrI_gens (s : State) (f : Fld) (x : Int) (i : Nat) : (s.wrI f x i).gens = s.gens := rfl
@[simp] theorem State.wrI_axes (s : State) (f : Fld) (x : Int) (i : Nat) : (s.wrI f x i).axes = s.axes := rfl
@[simp] theorem State.wrI_groups (s : State) (f : Fld) (x : Int) (i : Nat) : (s.wrI f x i).groups = s.groups := rfl
@[simp] theorem State.wrI_trig (s : State) (f : Fld) (x : Int) (i : Nat) : (s.wrI f x i).trig = s.trig := rfl
@[simp] theorem State.wrI_loom (s : State) (f : Fld) (x : Int) (i : Nat) : (s.wrI f x i).loom = s.loom := rfl
@[simp] theorem State.wrI_sched (s : State) (f : Fld) (x : Int) (i : Nat) : (s.wrI f x i).sched = s.sched := rfl
@[simp] theorem State.wrI_cyc (s : State) (f : Fld) (x : Int) (i : Nat) : (s.wrI f x i).cyc = s.cyc := rfl
@[simp] theorem State.wrI_island (s : State) (f : Fld) (x : Int) (i : Nat) : (s.wrI f x i).island = s.island := rfl
@[simp] theorem State.wrI_tandem (s : State) (f : Fld) (x : Int) (i : Nat) : (s.wrI f x i).tandem = s.tandem := rfl
@[simp] theorem State.wrI_sec (s : State) (f : Fld) (x : Int) (i : Nat) : (s.wrI f x i).sec = s.sec := rfl
@[simp] theorem State.wrI_host (s : State) (f : Fld) (x : Int) (i : Nat) : (s.wrI f x i).host = s.host := rfl
@[simp] theorem State.wrI_boot (s : State) (f : Fld) (x : Int) (i : Nat) : (s.wrI f x i).boot = s.boot := rfl
@[simp] theorem State.wrI_answer (s : State) (f : Fld) (x : Int) (i : Nat) : (s.wrI f x i).answer = s.answer := rfl
@[simp] theorem State.wrI_power (s : State) (f : Fld) (x : Int) (i : Nat) : (s.wrI f x i).power = s.power := rfl
@[simp] theorem State.wrI_rings (s : State) (f : Fld) (x : Int) (i : Nat) : (s.wrI f x i).rings = s.rings := rfl
@[simp] theorem State.wrI_sram (s : State) (f : Fld) (x : Int) (i : Nat) : (s.wrI f x i).sram = s.sram := rfl
@[simp] theorem State.wrI_dram (s : State) (f : Fld) (x : Int) (i : Nat) : (s.wrI f x i).dram = s.dram := rfl
@[simp] theorem State.wrI_dlm (s : State) (f : Fld) (x : Int) (i : Nat) : (s.wrI f x i).dlm = s.dlm := rfl
@[simp] theorem State.wrI_freeCtr (s : State) (f : Fld) (x : Int) (i : Nat) : (s.wrI f x i).freeCtr = s.freeCtr := rfl
@[simp] theorem State.wrI_pending (s : State) (f : Fld) (x : Int) (i : Nat) : (s.wrI f x i).pending = s.pending := rfl

@[simp] theorem State.wrT_latches (s : State) (f : Fld) (t : Instant) (i : Nat) : (s.wrT f t i).latches = s.latches := rfl
@[simp] theorem State.wrT_staged (s : State) (f : Fld) (t : Instant) (i : Nat) : (s.wrT f t i).staged = s.staged := rfl
@[simp] theorem State.wrT_warp (s : State) (f : Fld) (t : Instant) (i : Nat) : (s.wrT f t i).warp = s.warp := rfl
@[simp] theorem State.wrT_skein (s : State) (f : Fld) (t : Instant) (i : Nat) : (s.wrT f t i).skein = s.skein := rfl
@[simp] theorem State.wrT_cells (s : State) (f : Fld) (t : Instant) (i : Nat) : (s.wrT f t i).cells = s.cells := rfl
@[simp] theorem State.wrT_fio (s : State) (f : Fld) (t : Instant) (i : Nat) : (s.wrT f t i).fio = s.fio := rfl
@[simp] theorem State.wrT_aout (s : State) (f : Fld) (t : Instant) (i : Nat) : (s.wrT f t i).aout = s.aout := rfl
@[simp] theorem State.wrT_ain (s : State) (f : Fld) (t : Instant) (i : Nat) : (s.wrT f t i).ain = s.ain := rfl
@[simp] theorem State.wrT_conv (s : State) (f : Fld) (t : Instant) (i : Nat) : (s.wrT f t i).conv = s.conv := rfl
@[simp] theorem State.wrT_rot (s : State) (f : Fld) (t : Instant) (i : Nat) : (s.wrT f t i).rot = s.rot := rfl
@[simp] theorem State.wrT_treadles (s : State) (f : Fld) (t : Instant) (i : Nat) : (s.wrT f t i).treadles = s.treadles := rfl
@[simp] theorem State.wrT_gens (s : State) (f : Fld) (t : Instant) (i : Nat) : (s.wrT f t i).gens = s.gens := rfl
@[simp] theorem State.wrT_axes (s : State) (f : Fld) (t : Instant) (i : Nat) : (s.wrT f t i).axes = s.axes := rfl
@[simp] theorem State.wrT_groups (s : State) (f : Fld) (t : Instant) (i : Nat) : (s.wrT f t i).groups = s.groups := rfl
@[simp] theorem State.wrT_trig (s : State) (f : Fld) (t : Instant) (i : Nat) : (s.wrT f t i).trig = s.trig := rfl
@[simp] theorem State.wrT_loom (s : State) (f : Fld) (t : Instant) (i : Nat) : (s.wrT f t i).loom = s.loom := rfl
@[simp] theorem State.wrT_sched (s : State) (f : Fld) (t : Instant) (i : Nat) : (s.wrT f t i).sched = s.sched := rfl
@[simp] theorem State.wrT_cyc (s : State) (f : Fld) (t : Instant) (i : Nat) : (s.wrT f t i).cyc = s.cyc := rfl
@[simp] theorem State.wrT_island (s : State) (f : Fld) (t : Instant) (i : Nat) : (s.wrT f t i).island = s.island := rfl
@[simp] theorem State.wrT_tandem (s : State) (f : Fld) (t : Instant) (i : Nat) : (s.wrT f t i).tandem = s.tandem := rfl
@[simp] theorem State.wrT_sec (s : State) (f : Fld) (t : Instant) (i : Nat) : (s.wrT f t i).sec = s.sec := rfl
@[simp] theorem State.wrT_host (s : State) (f : Fld) (t : Instant) (i : Nat) : (s.wrT f t i).host = s.host := rfl
@[simp] theorem State.wrT_boot (s : State) (f : Fld) (t : Instant) (i : Nat) : (s.wrT f t i).boot = s.boot := rfl
@[simp] theorem State.wrT_answer (s : State) (f : Fld) (t : Instant) (i : Nat) : (s.wrT f t i).answer = s.answer := rfl
@[simp] theorem State.wrT_power (s : State) (f : Fld) (t : Instant) (i : Nat) : (s.wrT f t i).power = s.power := rfl
@[simp] theorem State.wrT_rings (s : State) (f : Fld) (t : Instant) (i : Nat) : (s.wrT f t i).rings = s.rings := rfl
@[simp] theorem State.wrT_sram (s : State) (f : Fld) (t : Instant) (i : Nat) : (s.wrT f t i).sram = s.sram := rfl
@[simp] theorem State.wrT_dram (s : State) (f : Fld) (t : Instant) (i : Nat) : (s.wrT f t i).dram = s.dram := rfl
@[simp] theorem State.wrT_dlm (s : State) (f : Fld) (t : Instant) (i : Nat) : (s.wrT f t i).dlm = s.dlm := rfl
@[simp] theorem State.wrT_freeCtr (s : State) (f : Fld) (t : Instant) (i : Nat) : (s.wrT f t i).freeCtr = s.freeCtr := rfl
@[simp] theorem State.wrT_pending (s : State) (f : Fld) (t : Instant) (i : Nat) : (s.wrT f t i).pending = s.pending := rfl

@[simp] theorem State.setBit_latches (s : State) (f : Fld) (k i : Nat) : (s.setBit f k i).latches = s.latches := rfl
@[simp] theorem State.setBit_staged (s : State) (f : Fld) (k i : Nat) : (s.setBit f k i).staged = s.staged := rfl
@[simp] theorem State.setBit_warp (s : State) (f : Fld) (k i : Nat) : (s.setBit f k i).warp = s.warp := rfl
@[simp] theorem State.setBit_skein (s : State) (f : Fld) (k i : Nat) : (s.setBit f k i).skein = s.skein := rfl
@[simp] theorem State.setBit_cells (s : State) (f : Fld) (k i : Nat) : (s.setBit f k i).cells = s.cells := rfl
@[simp] theorem State.setBit_fio (s : State) (f : Fld) (k i : Nat) : (s.setBit f k i).fio = s.fio := rfl
@[simp] theorem State.setBit_aout (s : State) (f : Fld) (k i : Nat) : (s.setBit f k i).aout = s.aout := rfl
@[simp] theorem State.setBit_ain (s : State) (f : Fld) (k i : Nat) : (s.setBit f k i).ain = s.ain := rfl
@[simp] theorem State.setBit_conv (s : State) (f : Fld) (k i : Nat) : (s.setBit f k i).conv = s.conv := rfl
@[simp] theorem State.setBit_rot (s : State) (f : Fld) (k i : Nat) : (s.setBit f k i).rot = s.rot := rfl
@[simp] theorem State.setBit_treadles (s : State) (f : Fld) (k i : Nat) : (s.setBit f k i).treadles = s.treadles := rfl
@[simp] theorem State.setBit_gens (s : State) (f : Fld) (k i : Nat) : (s.setBit f k i).gens = s.gens := rfl
@[simp] theorem State.setBit_axes (s : State) (f : Fld) (k i : Nat) : (s.setBit f k i).axes = s.axes := rfl
@[simp] theorem State.setBit_groups (s : State) (f : Fld) (k i : Nat) : (s.setBit f k i).groups = s.groups := rfl
@[simp] theorem State.setBit_trig (s : State) (f : Fld) (k i : Nat) : (s.setBit f k i).trig = s.trig := rfl
@[simp] theorem State.setBit_loom (s : State) (f : Fld) (k i : Nat) : (s.setBit f k i).loom = s.loom := rfl
@[simp] theorem State.setBit_sched (s : State) (f : Fld) (k i : Nat) : (s.setBit f k i).sched = s.sched := rfl
@[simp] theorem State.setBit_cyc (s : State) (f : Fld) (k i : Nat) : (s.setBit f k i).cyc = s.cyc := rfl
@[simp] theorem State.setBit_island (s : State) (f : Fld) (k i : Nat) : (s.setBit f k i).island = s.island := rfl
@[simp] theorem State.setBit_tandem (s : State) (f : Fld) (k i : Nat) : (s.setBit f k i).tandem = s.tandem := rfl
@[simp] theorem State.setBit_sec (s : State) (f : Fld) (k i : Nat) : (s.setBit f k i).sec = s.sec := rfl
@[simp] theorem State.setBit_host (s : State) (f : Fld) (k i : Nat) : (s.setBit f k i).host = s.host := rfl
@[simp] theorem State.setBit_boot (s : State) (f : Fld) (k i : Nat) : (s.setBit f k i).boot = s.boot := rfl
@[simp] theorem State.setBit_answer (s : State) (f : Fld) (k i : Nat) : (s.setBit f k i).answer = s.answer := rfl
@[simp] theorem State.setBit_power (s : State) (f : Fld) (k i : Nat) : (s.setBit f k i).power = s.power := rfl
@[simp] theorem State.setBit_rings (s : State) (f : Fld) (k i : Nat) : (s.setBit f k i).rings = s.rings := rfl
@[simp] theorem State.setBit_sram (s : State) (f : Fld) (k i : Nat) : (s.setBit f k i).sram = s.sram := rfl
@[simp] theorem State.setBit_dram (s : State) (f : Fld) (k i : Nat) : (s.setBit f k i).dram = s.dram := rfl
@[simp] theorem State.setBit_dlm (s : State) (f : Fld) (k i : Nat) : (s.setBit f k i).dlm = s.dlm := rfl
@[simp] theorem State.setBit_freeCtr (s : State) (f : Fld) (k i : Nat) : (s.setBit f k i).freeCtr = s.freeCtr := rfl
@[simp] theorem State.setBit_pending (s : State) (f : Fld) (k i : Nat) : (s.setBit f k i).pending = s.pending := rfl

@[simp] theorem State.bump_latches (s : State) (f : Fld) (i n : Nat) : (s.bump f i n).latches = s.latches := rfl
@[simp] theorem State.bump_staged (s : State) (f : Fld) (i n : Nat) : (s.bump f i n).staged = s.staged := rfl
@[simp] theorem State.bump_warp (s : State) (f : Fld) (i n : Nat) : (s.bump f i n).warp = s.warp := rfl
@[simp] theorem State.bump_skein (s : State) (f : Fld) (i n : Nat) : (s.bump f i n).skein = s.skein := rfl
@[simp] theorem State.bump_cells (s : State) (f : Fld) (i n : Nat) : (s.bump f i n).cells = s.cells := rfl
@[simp] theorem State.bump_fio (s : State) (f : Fld) (i n : Nat) : (s.bump f i n).fio = s.fio := rfl
@[simp] theorem State.bump_aout (s : State) (f : Fld) (i n : Nat) : (s.bump f i n).aout = s.aout := rfl
@[simp] theorem State.bump_ain (s : State) (f : Fld) (i n : Nat) : (s.bump f i n).ain = s.ain := rfl
@[simp] theorem State.bump_conv (s : State) (f : Fld) (i n : Nat) : (s.bump f i n).conv = s.conv := rfl
@[simp] theorem State.bump_rot (s : State) (f : Fld) (i n : Nat) : (s.bump f i n).rot = s.rot := rfl
@[simp] theorem State.bump_treadles (s : State) (f : Fld) (i n : Nat) : (s.bump f i n).treadles = s.treadles := rfl
@[simp] theorem State.bump_gens (s : State) (f : Fld) (i n : Nat) : (s.bump f i n).gens = s.gens := rfl
@[simp] theorem State.bump_axes (s : State) (f : Fld) (i n : Nat) : (s.bump f i n).axes = s.axes := rfl
@[simp] theorem State.bump_groups (s : State) (f : Fld) (i n : Nat) : (s.bump f i n).groups = s.groups := rfl
@[simp] theorem State.bump_trig (s : State) (f : Fld) (i n : Nat) : (s.bump f i n).trig = s.trig := rfl
@[simp] theorem State.bump_loom (s : State) (f : Fld) (i n : Nat) : (s.bump f i n).loom = s.loom := rfl
@[simp] theorem State.bump_sched (s : State) (f : Fld) (i n : Nat) : (s.bump f i n).sched = s.sched := rfl
@[simp] theorem State.bump_cyc (s : State) (f : Fld) (i n : Nat) : (s.bump f i n).cyc = s.cyc := rfl
@[simp] theorem State.bump_island (s : State) (f : Fld) (i n : Nat) : (s.bump f i n).island = s.island := rfl
@[simp] theorem State.bump_tandem (s : State) (f : Fld) (i n : Nat) : (s.bump f i n).tandem = s.tandem := rfl
@[simp] theorem State.bump_sec (s : State) (f : Fld) (i n : Nat) : (s.bump f i n).sec = s.sec := rfl
@[simp] theorem State.bump_host (s : State) (f : Fld) (i n : Nat) : (s.bump f i n).host = s.host := rfl
@[simp] theorem State.bump_boot (s : State) (f : Fld) (i n : Nat) : (s.bump f i n).boot = s.boot := rfl
@[simp] theorem State.bump_answer (s : State) (f : Fld) (i n : Nat) : (s.bump f i n).answer = s.answer := rfl
@[simp] theorem State.bump_power (s : State) (f : Fld) (i n : Nat) : (s.bump f i n).power = s.power := rfl
@[simp] theorem State.bump_rings (s : State) (f : Fld) (i n : Nat) : (s.bump f i n).rings = s.rings := rfl
@[simp] theorem State.bump_sram (s : State) (f : Fld) (i n : Nat) : (s.bump f i n).sram = s.sram := rfl
@[simp] theorem State.bump_dram (s : State) (f : Fld) (i n : Nat) : (s.bump f i n).dram = s.dram := rfl
@[simp] theorem State.bump_dlm (s : State) (f : Fld) (i n : Nat) : (s.bump f i n).dlm = s.dlm := rfl
@[simp] theorem State.bump_freeCtr (s : State) (f : Fld) (i n : Nat) : (s.bump f i n).freeCtr = s.freeCtr := rfl
@[simp] theorem State.bump_pending (s : State) (f : Fld) (i n : Nat) : (s.bump f i n).pending = s.pending := rfl

@[simp] theorem State.roll_latches (s : State) (f : Fld) (i n : Nat) : (s.roll f i n).latches = s.latches := rfl
@[simp] theorem State.roll_staged (s : State) (f : Fld) (i n : Nat) : (s.roll f i n).staged = s.staged := rfl
@[simp] theorem State.roll_warp (s : State) (f : Fld) (i n : Nat) : (s.roll f i n).warp = s.warp := rfl
@[simp] theorem State.roll_skein (s : State) (f : Fld) (i n : Nat) : (s.roll f i n).skein = s.skein := rfl
@[simp] theorem State.roll_cells (s : State) (f : Fld) (i n : Nat) : (s.roll f i n).cells = s.cells := rfl
@[simp] theorem State.roll_fio (s : State) (f : Fld) (i n : Nat) : (s.roll f i n).fio = s.fio := rfl
@[simp] theorem State.roll_aout (s : State) (f : Fld) (i n : Nat) : (s.roll f i n).aout = s.aout := rfl
@[simp] theorem State.roll_ain (s : State) (f : Fld) (i n : Nat) : (s.roll f i n).ain = s.ain := rfl
@[simp] theorem State.roll_conv (s : State) (f : Fld) (i n : Nat) : (s.roll f i n).conv = s.conv := rfl
@[simp] theorem State.roll_rot (s : State) (f : Fld) (i n : Nat) : (s.roll f i n).rot = s.rot := rfl
@[simp] theorem State.roll_treadles (s : State) (f : Fld) (i n : Nat) : (s.roll f i n).treadles = s.treadles := rfl
@[simp] theorem State.roll_gens (s : State) (f : Fld) (i n : Nat) : (s.roll f i n).gens = s.gens := rfl
@[simp] theorem State.roll_axes (s : State) (f : Fld) (i n : Nat) : (s.roll f i n).axes = s.axes := rfl
@[simp] theorem State.roll_groups (s : State) (f : Fld) (i n : Nat) : (s.roll f i n).groups = s.groups := rfl
@[simp] theorem State.roll_trig (s : State) (f : Fld) (i n : Nat) : (s.roll f i n).trig = s.trig := rfl
@[simp] theorem State.roll_loom (s : State) (f : Fld) (i n : Nat) : (s.roll f i n).loom = s.loom := rfl
@[simp] theorem State.roll_sched (s : State) (f : Fld) (i n : Nat) : (s.roll f i n).sched = s.sched := rfl
@[simp] theorem State.roll_cyc (s : State) (f : Fld) (i n : Nat) : (s.roll f i n).cyc = s.cyc := rfl
@[simp] theorem State.roll_island (s : State) (f : Fld) (i n : Nat) : (s.roll f i n).island = s.island := rfl
@[simp] theorem State.roll_tandem (s : State) (f : Fld) (i n : Nat) : (s.roll f i n).tandem = s.tandem := rfl
@[simp] theorem State.roll_sec (s : State) (f : Fld) (i n : Nat) : (s.roll f i n).sec = s.sec := rfl
@[simp] theorem State.roll_host (s : State) (f : Fld) (i n : Nat) : (s.roll f i n).host = s.host := rfl
@[simp] theorem State.roll_boot (s : State) (f : Fld) (i n : Nat) : (s.roll f i n).boot = s.boot := rfl
@[simp] theorem State.roll_answer (s : State) (f : Fld) (i n : Nat) : (s.roll f i n).answer = s.answer := rfl
@[simp] theorem State.roll_power (s : State) (f : Fld) (i n : Nat) : (s.roll f i n).power = s.power := rfl
@[simp] theorem State.roll_rings (s : State) (f : Fld) (i n : Nat) : (s.roll f i n).rings = s.rings := rfl
@[simp] theorem State.roll_sram (s : State) (f : Fld) (i n : Nat) : (s.roll f i n).sram = s.sram := rfl
@[simp] theorem State.roll_dram (s : State) (f : Fld) (i n : Nat) : (s.roll f i n).dram = s.dram := rfl
@[simp] theorem State.roll_dlm (s : State) (f : Fld) (i n : Nat) : (s.roll f i n).dlm = s.dlm := rfl
@[simp] theorem State.roll_freeCtr (s : State) (f : Fld) (i n : Nat) : (s.roll f i n).freeCtr = s.freeCtr := rfl
@[simp] theorem State.roll_pending (s : State) (f : Fld) (i n : Nat) : (s.roll f i n).pending = s.pending := rfl

@[simp] theorem State.draw_regs (s : State) : s.draw.2.regs = s.regs := rfl
@[simp] theorem State.draw_latches (s : State) : s.draw.2.latches = s.latches := rfl
@[simp] theorem State.draw_staged (s : State) : s.draw.2.staged = s.staged := rfl
@[simp] theorem State.draw_warp (s : State) : s.draw.2.warp = s.warp := rfl
@[simp] theorem State.draw_skein (s : State) : s.draw.2.skein = s.skein := rfl
@[simp] theorem State.draw_cells (s : State) : s.draw.2.cells = s.cells := rfl
@[simp] theorem State.draw_fio (s : State) : s.draw.2.fio = s.fio := rfl
@[simp] theorem State.draw_aout (s : State) : s.draw.2.aout = s.aout := rfl
@[simp] theorem State.draw_ain (s : State) : s.draw.2.ain = s.ain := rfl
@[simp] theorem State.draw_conv (s : State) : s.draw.2.conv = s.conv := rfl
@[simp] theorem State.draw_rot (s : State) : s.draw.2.rot = s.rot := rfl
@[simp] theorem State.draw_treadles (s : State) : s.draw.2.treadles = s.treadles := rfl
@[simp] theorem State.draw_gens (s : State) : s.draw.2.gens = s.gens := rfl
@[simp] theorem State.draw_axes (s : State) : s.draw.2.axes = s.axes := rfl
@[simp] theorem State.draw_groups (s : State) : s.draw.2.groups = s.groups := rfl
@[simp] theorem State.draw_trig (s : State) : s.draw.2.trig = s.trig := rfl
@[simp] theorem State.draw_loom (s : State) : s.draw.2.loom = s.loom := rfl
@[simp] theorem State.draw_sched (s : State) : s.draw.2.sched = s.sched := rfl
@[simp] theorem State.draw_cyc (s : State) : s.draw.2.cyc = s.cyc := rfl
@[simp] theorem State.draw_island (s : State) : s.draw.2.island = s.island := rfl
@[simp] theorem State.draw_tandem (s : State) : s.draw.2.tandem = s.tandem := rfl
@[simp] theorem State.draw_sec (s : State) : s.draw.2.sec = s.sec := rfl
@[simp] theorem State.draw_host (s : State) : s.draw.2.host = s.host := rfl
@[simp] theorem State.draw_boot (s : State) : s.draw.2.boot = s.boot := rfl
@[simp] theorem State.draw_answer (s : State) : s.draw.2.answer = s.answer := rfl
@[simp] theorem State.draw_power (s : State) : s.draw.2.power = s.power := rfl
@[simp] theorem State.draw_rings (s : State) : s.draw.2.rings = s.rings := rfl
@[simp] theorem State.draw_sram (s : State) : s.draw.2.sram = s.sram := rfl
@[simp] theorem State.draw_dram (s : State) : s.draw.2.dram = s.dram := rfl
@[simp] theorem State.draw_dlm (s : State) : s.draw.2.dlm = s.dlm := rfl
@[simp] theorem State.draw_pending (s : State) : s.draw.2.pending = s.pending := rfl
@[simp] theorem State.draw_freeCtr (s : State) : s.draw.2.freeCtr = s.freeCtr + 1 := rfl

theorem State.when_true (s : State) (f : State → State) : s.when true f = f s := rfl

theorem State.when_false (s : State) (f : State → State) : s.when false f = s := rfl

/-! ### Reading after a write -/

/-- The field written, cut to its width. -/
@[simp] theorem State.rd_wr_same (s : State) (f : Fld) (v i : Nat) : (s.wr f v i).rd f i = v % 2 ^ f.width := by
  simp [State.wr, State.putReg, State.rd]

/-- Another instance of the field. -/
theorem State.rd_wr_instance (s : State) (f : Fld) (v : Nat) {i j : Nat} (h : j ≠ i) : (s.wr f v i).rd f j = s.rd f j := by
  simp [State.wr, State.putReg, State.rd, Tbl.get_set_other _ h]

/-- Another field. -/
@[simp] theorem State.rd_wr_field (s : State) {f g : Fld} (h : (g.id == f.id) = false) (v i j : Nat) : (s.wr f v i).rd g j = s.rd g j := by
  have : g.id ≠ f.id := by simpa using h
  simp [State.wr, State.putReg, State.rd, Tbl.get_set_other _ this]

theorem State.rd_wr (s : State) (f : Fld) (v i j : Nat) : (s.wr f v i).rd f j = if j = i then v % 2 ^ f.width else s.rd f j := by
  split
  · rename_i h; rw [h, State.rd_wr_same]
  · rename_i h; exact State.rd_wr_instance s f v h

/-- A register read is not changed by what is not the register file. -/
theorem State.rd_congr {s u : State} (h : u.regs = s.regs) (f : Fld) (i : Nat) : u.rd f i = s.rd f i := by
  simp only [State.rd, h]

@[simp] theorem State.rd_wrI_same (s : State) (f : Fld) (x : Int) (i : Nat) : (s.wrI f x i).rd f i = (ofSigned f.width x) % 2 ^ f.width := State.rd_wr_same s f _ i

@[simp] theorem State.rd_wrI_field (s : State) {g : Fld} (f : Fld) (x : Int) (i : Nat) (h : (g.id == f.id) = false) (j : Nat) : (s.wrI f x i).rd g j = s.rd g j := State.rd_wr_field s h _ i j

@[simp] theorem State.rd_wrT_same (s : State) (f : Fld) (t : Instant) (i : Nat) : (s.wrT f t i).rd f i = (t.toNat) % 2 ^ f.width := State.rd_wr_same s f _ i

@[simp] theorem State.rd_wrT_field (s : State) {g : Fld} (f : Fld) (t : Instant) (i : Nat) (h : (g.id == f.id) = false) (j : Nat) : (s.wrT f t i).rd g j = s.rd g j := State.rd_wr_field s h _ i j

@[simp] theorem State.rd_setBit_same (s : State) (f : Fld) (k i : Nat) : (s.setBit f k i).rd f i = (withBit (s.rd f i) k) % 2 ^ f.width := State.rd_wr_same s f _ i

@[simp] theorem State.rd_setBit_field (s : State) {g : Fld} (f : Fld) (k i : Nat) (h : (g.id == f.id) = false) (j : Nat) : (s.setBit f k i).rd g j = s.rd g j := State.rd_wr_field s h _ i j

@[simp] theorem State.rd_bump_same (s : State) (f : Fld) (i n : Nat) : (s.bump f i n).rd f i = (min (s.rd f i + n) (2 ^ f.width - 1)) % 2 ^ f.width := State.rd_wr_same s f _ i

@[simp] theorem State.rd_bump_field (s : State) {g : Fld} (f : Fld) (i n : Nat) (h : (g.id == f.id) = false) (j : Nat) : (s.bump f i n).rd g j = s.rd g j := State.rd_wr_field s h _ i j

@[simp] theorem State.rd_roll_same (s : State) (f : Fld) (i n : Nat) : (s.roll f i n).rd f i = (s.rd f i + n) % 2 ^ f.width := State.rd_wr_same s f _ i

@[simp] theorem State.rd_roll_field (s : State) {g : Fld} (f : Fld) (i n : Nat) (h : (g.id == f.id) = false) (j : Nat) : (s.roll f i n).rd g j = s.rd g j := State.rd_wr_field s h _ i j

end Sys2Proof.Machine
end

