-- ==== Sys2Proof/WellFormed.lean ====
section
/-! DEFINITION.  What the operands of a command must satisfy beyond their types: the widths of the
fields of a payload and the lengths that its format allows. -/

namespace Sys2Proof

/-- Every value of a list below its bound. -/
def below (l : List (Nat × Nat)) : Bool := l.all (fun e => decide (e.1 < e.2))

/-- Widths of an end condition (05 Table 5.4). -/
def EndCond.wf (e : EndCond) : Bool := below [(e.kind, 2 ^ 8), (e.op, 2 ^ 8), (e.next, 2 ^ 16), (e.src, 2 ^ 32), (e.arg, 2 ^ 64)]

/-- Widths of a step record (05 Table 5.3), which holds four end conditions. -/
def StepRec.wf (r : StepRec) : Bool :=
  below [(r.step, 2 ^ 16), (r.flags, 2 ^ 16), (r.actFirst, 2 ^ 16), (r.actCount, 2 ^ 16), (r.label, 2 ^ 32)] && decide (r.ends.length ≤ 4) && r.ends.all EndCond.wf

/-- Widths of an action (05 Table 5.5). -/
def PoolEntry.wf (e : PoolEntry) : Bool := below [(e.opcode, 2 ^ 8), (e.flags, 2 ^ 8), (e.target, 2 ^ 16), (e.arg0, 2 ^ 32), (e.arg1, 2 ^ 32), (e.arg2, 2 ^ 32)]

/-- A step-table image (05 Tables 5.1, 5.2): at most 4,096 steps and 32,512 actions. -/
def StepTable.wf (x : StepTable) : Bool :=
  below [(x.magic, 2 ^ 32), (x.format, 2 ^ 16), (x.partition, 2 ^ 8), (x.stepCount, 2 ^ 16), (x.entryStep, 2 ^ 16), (x.stopStep, 2 ^ 16), (x.version, 2 ^ 32), (x.keyId, 2 ^ 32)] &&
  below [(x.missReact, 2 ^ 8), (x.poolCount, 2 ^ 32), (x.tickNs, 2 ^ 32), (x.branchNs, 2 ^ 32), (x.steps.length, 4097), (x.pool.length, 32513)] &&
  below [(x.built, 2 ^ 64), (x.name, 2 ^ 256), (x.signature, 2 ^ 768)] && x.steps.all StepRec.wf && x.pool.all PoolEntry.wf

/-- A segment container (06 Table 6.3). -/
def SegImage.wf (x : SegImage) : Bool :=
  below [(x.magic, 2 ^ 32), (x.format, 2 ^ 16), (x.axis, 2 ^ 8), (x.partition, 2 ^ 8), (x.first, 2 ^ 16), (x.count, 2 ^ 16), (x.version, 2 ^ 32), (x.keyId, 2 ^ 32)] && x.records.all (fun r => decide (r.dur < 2 ^ 32))

/-- An envelope container (08 Table 8.7). -/
def Envelope.wf (x : Envelope) : Bool :=
  below [(x.magic, 2 ^ 32), (x.format, 2 ^ 16), (x.env, 2 ^ 8), (x.partition, 2 ^ 8), (x.count, 2 ^ 32), (x.version, 2 ^ 32), (x.keyId, 2 ^ 32)] &&
  x.points.all (fun e => decide (e.1 < 2 ^ 64))

/-- A frame of a Beam or draft (09 Table 9.7): its payload fits its LEN bytes. -/
def BeamFrame.wf (f : BeamFrame) : Bool := below [(f.space, 2 ^ 4), (f.kind, 2 ^ 4), (f.index, 2 ^ 24), (f.len, 2 ^ 16), (f.ftype, 2 ^ 8), (f.owner, 2 ^ 8), (f.payload, 2 ^ (8 * f.len))]

/-- A draft container (09 Table 9.14). -/
def DraftImg.wf (x : DraftImg) : Bool :=
  below [(x.magic, 2 ^ 32), (x.format, 2 ^ 16), (x.partition, 2 ^ 8), (x.slot, 2 ^ 8), (x.version, 2 ^ 32), (x.keyId, 2 ^ 32)] && x.frames.all BeamFrame.wf

/-- A task descriptor (10 Table 10.1): eight successor places. -/
def TaskDesc.wf (d : TaskDesc) : Bool :=
  below [(d.entry, 2 ^ 32), (d.arg0, 2 ^ 32), (d.arg1, 2 ^ 32), (d.prio, 2 ^ 8), (d.flags, 2 ^ 8), (d.flow, 2 ^ 8), (d.dep, 2 ^ 8), (d.cq, 2 ^ 8), (d.retryMax, 2 ^ 8), (d.runMs, 2 ^ 16), (d.nsucc, 2 ^ 8), (d.tag, 2 ^ 32), (d.succ.length, 9)] && d.succ.all (fun h => decide (h < 2 ^ 32))

/-- A queue entry (10 Table 10.5). -/
def QEntry.wf (e : QEntry) : Bool := below [(e.type, 2 ^ 8), (e.flags, 2 ^ 8), (e.src, 2 ^ 16), (e.w0, 2 ^ 32), (e.w1, 2 ^ 32), (e.w2, 2 ^ 32)]

/-- A program image (11 R270): a partition, a key and versions of their widths, at most eight
cyclic tasks and 64 templates. -/
def Program.wf (x : Program) : Bool :=
  below [(x.partition, 2 ^ 16), (x.version, 2 ^ 32), (x.keyId, 2 ^ 32)] && decide (x.tasks.length ≤ 8) && decide (x.templates.length ≤ 64) && x.templates.all TaskDesc.wf

/-- A station's descriptor (12 Table 12.6). -/
def StationDesc.wf (d : StationDesc) : Bool := below [(d.vendor, 2 ^ 16), (d.product, 2 ^ 16), (d.caps, 2 ^ 16), (d.outLen, 2 ^ 16), (d.inLen, 2 ^ 16), (d.fwdNs, 2 ^ 16), (d.revNs, 2 ^ 16)]

/-- A frame as it is received (12 R297): its segments are those of at most 128 stations. -/
def RxFrame.wf (f : RxFrame) : Bool :=
  below [(f.hop, 2 ^ 8), (f.cycle, 2 ^ 64), (f.lease, 2 ^ 64)] && decide (f.segs.length ≤ 128) && f.segs.all (fun g => below [(g.station, 128), (g.status, 2 ^ 32)] && decide (g.input.length ≤ 2048))

/-- A matrix container (13 Tables 13.2, 13.3): 32 inputs, 16 terms and 16 outputs. -/
def MatrixCont.wf (c : MatrixCont) : Bool :=
  below [(c.version, 2 ^ 32), (c.keyId, 2 ^ 32)] && decide (c.image.inputs.length ≤ 32) && decide (c.image.outputs.length ≤ 16)

/-- An interlock program (13 Table 13.1): at most 256 connections. -/
def SafProg.wf (x : SafProg) : Bool := below [(x.version, 2 ^ 32), (x.keyId, 2 ^ 32), (x.cycleUs, 2 ^ 32)] && decide (x.conns.length ≤ 256)

/-- An authority record (15 Table 15.4): a payload of 160 bytes. -/
def AuthRec.wf (a : AuthRec) : Bool :=
  below [(a.op, 2 ^ 8), (a.target, 2 ^ 8), (a.parts, 2 ^ 16), (a.value, 2 ^ 32), (a.keyId, 2 ^ 32), (a.device, 2 ^ 64)] && decide (a.key.length ≤ 160)

/-- A delta container (15 Table 15.12). -/
def Delta.wf (d : Delta) : Bool := below [(d.kind, 2 ^ 8), (d.version, 2 ^ 32), (d.keyId, 2 ^ 32)] && d.ops.all (fun o => below [(o.op, 2 ^ 8), (o.len, 2 ^ 32)])

/-- A command whose operands satisfy their formats. -/
def Instr.wf : Instr → Bool
  | .registerWrite _ _ offset _ _ => offset.val % 4 == 0
  | .loReadLatch _ _ offset => offset.val % 4 == 0
  | .hiWriteCommit _ _ offset _ => offset.val % 4 == 0
  | .rcRead _ offset => offset.val % 4 == 0
  | .slewNsWrite .. => true
  | .slewEnd .. => true
  | .rateAdjWrite .. => true
  | .stepGo .. => true
  | .refWindowEnd .. => true
  | .warpWindowEnd .. => true
  | .refLost .. => true
  | .holdoverExit .. => true
  | .warpWrap .. => true
  | .ppsOutRise .. => true
  | .ppsOutFall .. => true
  | .stampInputEdge .. => true
  | .stampInputQualified .. => true
  | .syncOutArm .. => true
  | .syncOutPulse .. => true
  | .slackWindowEnd .. => true
  | .avsTimeout .. => true
  | .avsModeWrite .. => true
  | .lcEnable .. => true
  | .lcDisable .. => true
  | .swap .. => true
  | .copy .. => true
  | .bankWindowWrite .. => true
  | .cStateWrite .. => true
  | .lcSnapshotRead .. => true
  | .loopStrobe .. => true
  | .loopResultReady .. => true
  | .loopRelease .. => true
  | .comparatorTrip .. => true
  | .eventHoldEnd .. => true
  | .conversionDone .. => true
  | .loopStall .. => true
  | .faultClear .. => true
  | .plausClear .. => true
  | .rotationSlot .. => true
  | .rotationConversion .. => true
  | .calibrationDone .. => true
  | .calRequest .. => true
  | .stGo .. => true
  | .selfTestBegin .. => true
  | .selfTestDone .. => true
  | .stCancel .. => true
  | .loadTable _ _ img _ => img.wf
  | .trStart .. => true
  | .trPause .. => true
  | .trResume .. => true
  | .trAbort .. => true
  | .trClearFault .. => true
  | .treadleTick .. => true
  | .timeDecision .. => true
  | .stepBoundary .. => true
  | .stagingDone .. => true
  | .stepCommit .. => true
  | .valveChange .. => true
  | .treadleFault .. => true
  | .pgEnable .. => true
  | .pgUpdate .. => true
  | .pgHostWrite .. => true
  | .axEnable .. => true
  | .axDisable .. => true
  | .axGo .. => true
  | .axHalt .. => true
  | .axHome .. => true
  | .axClear .. => true
  | .loadSegments _ _ img _ => img.wf
  | .axStrobe .. => true
  | .axResultReady .. => true
  | .axRelease .. => true
  | .stepPulse .. => true
  | .axStall .. => true
  | .axgArm .. => true
  | .axgCancel .. => true
  | .groupStart .. => true
  | .limitEdge .. => true
  | .homeSwitchEdge .. => true
  | .burstQualified .. => true
  | .indexEdge .. => true
  | .tapSample .. => true
  | .blockSeal .. => true
  | .skeinCheckpoint .. => true
  | .checkpointSigned .. => true
  | .blockWriteDone .. => true
  | .exportDone .. => true
  | .stConsumedWrite .. => true
  | .flush .. => true
  | .resendBlock .. => true
  | .tsArm .. => true
  | .tsDisarm .. => true
  | .tsSample .. => true
  | .captureReady .. => true
  | .force .. => true
  | .autoFire .. => true
  | .captureEnd .. => true
  | .captureSlotDone .. => true
  | .csConsumedWrite .. => true
  | .chunkAck .. => true
  | .loadEnvelope _ _ img _ => img.wf
  | .muArm .. => true
  | .muDisarm .. => true
  | .pointFetchDone .. => true
  | .muSample .. => true
  | .fioInputEdge .. => true
  | .filterTake .. => true
  | .leInputChange .. => true
  | .leTimerExpiry .. => true
  | .eventRouteEvent .. => true
  | .routeStall _ kind id => [16384, 16384, 8192].getD kind.val 0 > id.val
  | .configScan _ bad => bad.all (fun e => decide (e.1 < 2 ^ 32))
  | .configFieldWrite _ offset _ => offset.val % 4 == 0
  | .editCommit .. => true
  | .editDiscard .. => true
  | .planeFlip .. => true
  | .loadDraft _ _ img _ => img.wf
  | .apply .. => true
  | .applyStaged .. => true
  | .journalWriteDone .. => true
  | .qsub .. => true
  | .qcan .. => true
  | .qpush _ _ _ _ e _ _ => e.wf
  | .qpop .. => true
  | .qdone .. => true
  | .qyield .. => true
  | .qrel .. => true
  | .qstat .. => true
  | .taskFault .. => true
  | .runtimeExpiry .. => true
  | .waitTimeout .. => true
  | .selfCheckDone .. => true
  | .restore .. => true
  | .release .. => true
  | .submitTask .. => true
  | .cancelTask .. => true
  | .hqPush _ _ _ es => es.all QEntry.wf
  | .hqPop .. => true
  | .loadProgram _ _ img _ => img.wf
  | .hostInput _ _ _ data => decide (data.length ≤ 16384)
  | .scanLatch .. => true
  | .scanClose .. => true
  | .scanRelease .. => true
  | .cpStart .. => true
  | .cpHold .. => true
  | .cpResume .. => true
  | .cpStop .. => true
  | .retainCheckpoint .. => true
  | .powerFail .. => true
  | .retainCommitDone .. => true
  | .rjStateWrite .. => true
  | .ringEnWrite .. => true
  | .insertionLocked .. => true
  | .insertionTimeout .. => true
  | .discover .. => true
  | .enumReturn _ _ descs => decide (descs.length ≤ 128) && descs.all StationDesc.wf
  | .delayReturn _ _ _ _ _ times => decide (times.length ≤ 128)
  | .discFail .. => true
  | .ringStart .. => true
  | .ringStop .. => true
  | .cycleStart .. => true
  | .receptionEnd _ _ _ f => f.wf
  | .rxLimit .. => true
  | .mbxGo .. => true
  | .mbxTmo .. => true
  | .reservationWritten .. => true
  | .safetyCycle _ c => decide (c.permit < 2 ^ 16) && decide (c.request < 3)
  | .permitWord .. => true
  | .linkSilent .. => true
  | .dieTick .. => true
  | .sinChannelChange .. => true
  | .discrepancyFault .. => true
  | .testPulse .. => true
  | .outputTest .. => true
  | .termComparison .. => true
  | .islandFault .. => true
  | .matrixLoad .. => true
  | .overcastWindowEnd .. => true
  | .overcastArmed .. => true
  | .sclkCrosscheck .. => true
  | .weftFrame _ _ f => below [(f.conn, 2 ^ 32), (f.seq, 2 ^ 16), (f.data.length, 17)]
  | .weftDeadline .. => true
  | .programMatrix _ c _ _ => c.wf
  | .loadSafety _ img _ _ => img.wf
  | .safetyPhase .. => true
  | .safetyReset .. => true
  | .status _ _ _ _ _ rings => decide (rings.length ≤ 4)
  | .renew .. => true
  | .renewAck .. => true
  | .digest .. => true
  | .have_ .. => true
  | .inputs .. => true
  | .time .. => true
  | .handover .. => true
  | .handoverAck .. => true
  | .commit .. => true
  | .handoverInstant .. => true
  | .check .. => true
  | .rapidSelfCheckDone .. => true
  | .cmd .. => true
  | .executionInstant .. => true
  | .snap .. => true
  | .snapAck .. => true
  | .renewalInstant .. => true
  | .linkLost .. => true
  | .linkUp .. => true
  | .lapse .. => true
  | .takeover .. => true
  | .replayTimeout .. => true
  | .resyncRetry .. => true
  | .soloStart .. => true
  | .join .. => true
  | .leave .. => true
  | .resync .. => true
  | .switch .. => true
  | .authority _ a _ => a.wf
  | .applyDelta _ d => d.wf
  | .deltaApplyDone .. => true
  | .debugChallenge .. => true
  | .debugOpen _ _ r => decide (r.level < 256) && decide (r.durationS < 2 ^ 32) && decide (r.keyId < 2 ^ 32)
  | .debugClose .. => true
  | .debugExpiry .. => true
  | .attest .. => true
  | .activate .. => true
  | .updCancel .. => true
  | .confirm .. => true
  | .activationCheck .. => true
  | .bar2Access _ _ _ len data => decide (0 < len) && data.all (fun d => d.length == len)
  | .backoffEnd .. => true
  | .wakeHoldEnd .. => true
  | .pwrTolWrite .. => true
  | .blockAnswer .. => true
  | .entryTimeout .. => true
  | .lullFrame .. => true
  | .wakeN .. => true
  | .alarm .. => true
  | .hostWake .. => true
  | .wakeDone .. => true
  | .wakeTimeout .. => true
  | .wakeRetry .. => true
  | .quadrantReady _ _ bad => bad.all (fun e => decide (e.1 < 2 ^ 32))
  | .resetPin .. => true
  | .deviceReset .. => true
  | .watchdog .. => true
  | .powerGoodChange .. => true
  | .resetRelease .. => true
  | .resumeInstant .. => true
  | .warmCheckpoint .. => true
  | .partitionReset .. => true
  | .prDone .. => true
  | .mbxDb .. => true
  | .commandDatagram _ _ _ _ entry data => entry.length == 64 && decide (data.length ≤ 8192)
  | .mwrite _ _ _ data => decide (data.length ≤ 0x4000000)
  | .view .. => true
  | .odoClear .. => true
  | .pvStateRead .. => true
  | .mgmtDiverge .. => true
  | .ptpEventMessage .. => true
  | .pmbusPoll .. => true
  | .pmbAlert .. => true
  | .lifeUpdate .. => true
  | .scrub _ hits => hits.all (fun h => decide (h.addr < 2 ^ 40))
  | .refclkReturn .. => true
  | .warpCounterMismatch .. => true
  | .comparatorRelease .. => true
  | .channelSample .. => true
  | .pwmEdge .. => true
  | .syncOutFall .. => true
  | .stepPulseFall .. => true
  | .lullFrameGap .. => true
  | .haveSend .. => true
  | .statusSend .. => true
  | .timeSend .. => true
  | .commitDeadline .. => true
  | .syncInstant .. => true
  | .catchUpDone .. => true
  | .islandReloadDone .. => true
  | .serdesLaneReadyChange .. => true

end Sys2Proof
end

