-- ==== Sys2Proof/Tests/Slice0.lean ====
section
/-! SUPPORT.  Tests.  Small states; for each statement one theorem that shows, clause by clause, states and operands that
meet all its premises; ill-formed commands refused; and a few single steps whose expected results are the spec's. -/

namespace Sys2Proof.Machine

open Sys2Proof

set_option Elab.async false
set_option linter.unusedVariables false

/-! ### States -/

/-- A device that has booted. -/
def up : State := State.reset.wr F.HOST_STATUS_BOOTING 0

/-- Registers written, one after another. -/
def State.wrs (s : State) (l : List (Fld × Nat × Nat)) : State := l.foldl (fun s e => s.wr e.1 e.2.2 e.2.1) s

/-- A valid bank of two levels. -/
def goodBank : Bank := ⟨⟨[(4, 0x02000000), (7, 100), (9, 100), (11, 100)]⟩⟩

/-- A booted device whose loop cell 3 has a valid bank, a period of 1 ms and a latency of 0.1 ms. -/
def loopUp : State :=
  (up.putCell 3 { LoopCell.init with bankA := goodBank, bankB := goodBank }).wrs
    [(F.LC_PERIOD, 3, 1000000), (F.LC_LATENCY, 3, 100000), (F.LC_ROUTE_Y_KIND, 3, 2), (F.LC_ROUTE_DEST_KIND, 3, 2)]

/-- The same device, its cell 3 assigned to partition 2. -/
def placedUp : State := { loopUp with loom := { loopUp.loom with records := loopUp.loom.records.set (loopKey 3) { owner := some 2, beam := 0, mask := 0, active := 0, shadow := 0, edited := false } } }

/-- An evaluation of cell 3 that waits for its release. -/
def someEval : Eval := { (loopUp.latch 3 0 0).evaluate 0 with ready := some 32, causes := 0 }

/-- A host command at the head of the queue of object `obj`. -/
def State.sent (s : State) (obj opcode arg0 arg1 : Nat) : State := s.putWaiting obj [⟨opcode, 7, 0, 0, arg0, arg1, 0x11000, 0, 1, false, 0, none⟩]

/-- A table of one step that ends after 1 ms. -/
def oneStep : StepTable :=
  { magic := 0x4C445254, format := 1, partition := 2, missReact := 0, stepCount := 1, poolCount := 0, entryStep := 0, stopStep := 0, tickNs := 1000, branchNs := 0,
    version := 5, keyId := 0x100, beamDigest := 0, bodyDigest := 0, bodyHash := 0, sigOk := true, reserved := 0, built := 0, name := 0, signature := 0, steps := [⟨0, 0, 0, 0, [⟨1, 0, nextEnd, 0, 1000000⟩], 9, 0⟩], pool := [] }

/-- A booted device whose partition 2 runs its program and holds the one-step table. -/
def stepUp : State :=
  (up.putTreadle 2 { Treadle.init with table := some oneStep }).wrs
    [(F.CP_STATUS_STATE, 2, 1), (F.TR_STATUS_TABLE_OK, 2, 1), (F.TR_LOAD_STEP_COUNT, 2, 1), (F.TR_TIMING_TICK_NS, 2, 1000), (F.TR_STEPS_CUR_STEP, 2, 0)]

/-- A staging of step 0 that has finished. -/
def staged0 : Staging := ⟨0, 0, true, false, [], [], false⟩

/-- A record at `key` that belongs to partition `p` and holds `v`. -/
def ownRec (s : State) (key p v : Nat) : State :=
  { s with loom := { s.loom with records := s.loom.records.set key { owner := some p, beam := v, mask := 0, active := v, shadow := v, edited := false } } }

/-- A booted device on which key 0x100 may sign for every partition, with a LOAD_TABLE of partition 2 waiting. -/
def tableUp : State := (({ up with sec := { up.sec with authors := up.sec.authors.set 0 ([], 0xFFFF) } }).putTreadle 2 (stepUp.treadle 2)).sent 2 1 0 0

/-- A booted device whose axis 5 is enabled and IDLE, with a period of 0.1 ms. -/
def axisUp : State :=
  up.wrs [(F.AX_CTRL_ENABLE, 5, 1), (F.AX_STATUS_STATE, 5, 1), (F.AX_PERIOD, 5, 100000), (F.AX_LATENCY, 5, 50000), (F.AX_STEP_CFG_STEP_MIN_NS, 5, 1000),
    (F.AX_STEP_CFG_STEP_WIDTH_NS, 5, 200), (F.AX_ROUTE_OUT_KIND, 5, 3), (F.PWR_STATUS_LOOM_ON, 0, 15), (F.WARP_STATUS_COARSE, 0, 0)]

/-- The image of one segment record of axis 5 for partition 2. -/
def oneSegment : SegImage :=
  { magic := 0x54474553, format := 1, axis := 5, partition := 2, first := 7, count := 1, version := 3, keyId := 0x100, beamDigest := 0, bodyDigest := 0, bodyHash := 0,
    sigOk := true, reserved := 0, records := [⟨1000, 256, 0⟩] }

/-- An evaluation of axis 5 whose result waits for its release. -/
def axisEval : AxEval := ⟨0, 800000, some 32, 256, 0, 256, none, 0, 0, 0, 0, 0, 0⟩

/-- A homing that has seen its switch. -/
def seenHoming : Homing := ⟨0, true, none, 1, 0, 0⟩

/-- A block of one record. -/
def oneBlock : SkBlock := ⟨4, 0, 0, 0, 0, [], 0, 0⟩

/-- A booted device whose stream 2 holds a record in its open block, and block 4 in its region. -/
def skeinUp (phase : SlotPhase) (retries : Nat) : State :=
  (up.wrs [(F.SKS_REGION, 2, 0x100000), (F.SKS_REGION_SIZE, 2, 16), (F.SKS_SEQ, 2, 5), (F.SKS_VISIBLE, 2, 4), (F.SKS_BURST, 2, 64), (F.WARP_STATUS_COARSE, 0, 0)]).putStream 2
    { Stream.init with openAt := some 0, recs := [⟨9, 0, [], 0, 0, []⟩], everSealed := true, shown := true, region := [⟨oneBlock, phase, retries⟩] }

/-- A booted device whose sequencer 3 and capture set 3, mask unit 5 and channel 9 belong to partition 2. -/
def capUp : State :=
  (ownRec (ownRec (ownRec up (recKey 4 5 9) 2 0) (tseqKey 3) 2 0) (maskKey 5) 2 0).wrs
    [(F.TS_PERIOD, 3, 1000), (F.CH_SRC_SET, 9, 3), (F.CH_SRC_KIND, 9, 2), (F.CH_PERIOD, 9, 1000), (F.CS_PRE_NS, 3, 1000), (F.CS_POST_NS, 3, 1000), (F.CS_SLOT_CFG_SLOTS, 3, 4),
     (F.CS_REGION, 3, 0x1000), (F.CS_SLOT_CFG_SLOT_KIB, 3, 4), (F.MU_PERIOD, 5, 1000), (F.MU_ENV, 5, 1), (F.ENV_COUNT, 0, 8), (F.ENV_REGION, 0, 0x200000), (F.WARP_STATUS_COARSE, 0, 0)]

/-- Its envelope 1, of two points. -/
def oneEnvelope : Envelope :=
  { magic := 0x4C564E45, format := 1, env := 1, partition := 2, count := 2, version := 3, keyId := 0x100, beamDigest := 0, bodyDigest := 0, bodyHash := 0,
    sigOk := true, reserved := 0, points := [(0, -5, 5), (1000, -9, 9)] }

/-- The device with envelope 1 loaded, and mask unit 5 armed with it at instant 0. -/
def maskUp : State :=
  ({ capUp with trig := { capUp.trig with envs := capUp.trig.envs.set 1 (2, 2) }, dram := capUp.dram.writeBytes 0x300000 ([(0, -5, 5), (1000, -9, 9)].map pointBytes).flatten }).wrs
    [(F.MU_STATUS_STATE, 5, 1), (F.MU_STATUS_ENV_NOW, 5, 1)]

/-- The device with channel 9 in capture set 3's windows. -/
def chanUp : State := capUp.putCset 3 { CapSet.init with chans := Tbl.empty.set 9 ⟨false, 1000, 1, 1, [], [], false⟩, preNs := 1000, postNs := 1000 }

/-- A host command at the head of the queue of object `obj` that came by Ethernet. -/
def State.sentEth (s : State) (obj opcode arg0 arg1 : Nat) : State := s.putWaiting obj [⟨opcode, 7, 0, 0, arg0, arg1, 0x11000, 0, 1, true, 0, none⟩]

/-- A booted device with every quadrant powered and the record at `key`, of partition 2, holding `v`. -/
def loomUp (key v : Nat) : State := (ownRec up key 2 v).wrs [(F.PWR_STATUS_LOOM_ON, 0, 15), (F.WARP_STATUS_COARSE, 0, 0)]

/-- An application of slot 15 to partition 2 that has written the record at `key`. -/
def applyUp (key v : Nat) : State := (loomUp key v).putApply 2 { Apply.init with keys := [key] }

/-- A draft of partition 2 for slot 1, with no frame. -/
def emptyDraft : DraftImg :=
  { magic := 0x54465244, format := 1, reserved := 0, partition := 2, slot := 1, version := 3, keyId := 2, name := [], beamDigest := 0, bodyDigest := 0, bodyHash := 0,
    sigOk := true, bytes := 0, frames := [] }

/-- The device with every root key present. -/
def rootUp (s : State) : State := { s.wr F.SEC_STATUS_PROGRAMMED 15 with sec := { s.sec with absent := [] } }

/-- A descriptor that every check passes: no flow, no successor, no completion entry. -/
def plainTask : TaskDesc := { TaskDesc.none with flags := 8, dep := 1 }

/-- The 64 bytes of a descriptor, as QSUB reads them. -/
def descBits (d : TaskDesc) : BitVec 512 := BitVec.ofNat 512 (d.prio * 2 ^ 96 + d.flags * 2 ^ 104 + d.flow * 2 ^ 112 + d.dep * 2 ^ 120)

/-- A task of partition 2 that runs on Shuttle 4. -/
def runTask : Task := { Task.none with partition := 2, desc := plainTask, phase := .running, shuttle := some 4, inflight := true }

/-- A booted device on whose Shuttle 4 the task in slot 9 runs; queue 6 belongs to partition 2. -/
def taskUp : State :=
  (((ownRec up (queueKey 6) 2 0).putTask 9 runTask).onSched (fun c => { c with gens := c.gens.set 9 3 })).wrs
    [(F.SH_STATUS_STATE, 4, 1), (F.SH_STATUS_SLOT, 4, 9), (F.PS_QUOTA, 2, 10), (F.PS_USED, 2, 1), (F.SCHED_STATUS_FREE_SLOTS, 0, 4000), (F.HQ_CFG_DEPTH_LOG2, 6, 4), (F.HQ_CFG_EVENT, 6, 0xFFFF)]

/-- The same device with a waiting task in slot 11. -/
def waitUp : State := (taskUp.putTask 11 { runTask with phase := .waiting, count := 1, shuttle := none, inflight := false }).onSched (fun c => { c with gens := c.gens.set 11 0 })

/-- A queue entry. -/
def oneEntry : QEntry := ⟨0x80, 0, 0, 1, 2, 3⟩

/-- A program of one cyclic task that writes output 5. -/
def oneProgram : Program :=
  { headOk := true, sigOk := true, bodyOk := true, partition := 2, flags := 0, version := 3, keyId := 2, retainKib := 1, imageBytes := 4, beamDigest := 0, sections := [⟨1, 0, 4, 0⟩],
    code := [1, 2, 3, 4], data := [], vars := [], tasks := [⟨1000, 0, 500, 0, 0x1000, 0x2000, 96, 128, 0, 0⟩], map := [⟨0, 1, 4, 0, 5, 0, 1⟩], templates := [{ TaskDesc.none with flags := 8 }],
    windows := [(0, 3, 0x5F)], binds := [], digest := 0 }

/-- A booted device whose partition 2 owns output 5 and has loaded that program. -/
def progUp : State :=
  ((rootUp (ownRec up (outKey 5) 2 (2 * 2 ^ 64))).putCycPart 2 { CycPart.init with prog := some oneProgram }).wrs
    [(F.CP_STATUS_LOADED, 2, 1), (F.LOOM_BEAM_STATUS_STATE, 0, 2), (F.CT_CFG_EN, 16, 1), (F.CT_PERIOD, 16, 1000), (F.CT_REL, 16, 500)]

/-- The scan of its task that closed. -/
def closedScan : Scan := ⟨0, 8000000, 0, true⟩

/-- A program of one cyclic task that writes value route 7. -/
def routeProgram : Program := { oneProgram with map := [⟨0, 1, 6, 0, 7, 4, 1⟩] }

/-- A booted device whose partition 2 has loaded it, its scan closed. -/
def routeUp : State :=
  (((ownRec (progUp.wr F.PWR_STATUS_LOOM_ON 15) (vrKey 7) 2 (6 * 2 ^ 28 + 9)).putCycPart 2 { CycPart.init with prog := some routeProgram }).putCycTask 16
    { CycTask.init with scan := some closedScan, out := List.replicate 64 0 ++ [1, 2, 3, 4] })

/-- A ring whose one station takes one output byte of partition 2. -/
def stationUp : State :=
  ((ownRec progUp (recKey 4 10 0) 2 1).putRing 0 { Ring.init with cfg := { Ring.init.cfg with stations := [⟨0, 0, 0, 1, 0, 0⟩] } }).wr F.RS_ST_STATUS_OK 1 0

/-- A booted device whose ring 1 is enabled, ready on both lanes, in state `st`, with one station discovered. -/
def ringUp (st : Nat) : State :=
  ((up.putRing 1 { Ring.init with laneF := true, laneR := true, descs := [⟨7, 8, 0, 1, 1, 0, 0⟩], cfg := { Ring.init.cfg with stations := [⟨7, 8, 0, 1, 0, 1⟩] }, reserve := 2 ^ 40 })).wrs
    [(F.RING_CTRL_EN, 1, 1), (F.RING_STATUS_STATE, 1, st), (F.WARP_STATUS_COARSE, 0, 0), (F.RING_MASTER_ID, 1, 9), (F.RING_STATUS_BYPASSED, 1, 0), (F.RS_ST_STATUS_OK, 128, 1)]

/-- A change of its ring 1 beyond the registers. -/
def State.onRing (s : State) (f : Ring → Ring) : State := s.putRing 1 (f (s.ring 1))

/-- A good frame of cycle 0 with a valid segment of station 0. -/
def goodFrame : RxFrame := { crcOk := true, echo := false, tandem := false, reverse := false, hop := 0, masterId := 9, cycle := 0, lease := 0, segs := [⟨0, 1, true, [5]⟩], mailbox := ⟨0, 0, 0, [], none⟩ }

/-- A matrix image of one input pair, one term and one output. -/
def oneMatrix : MatrixImg :=
  { version := 4, ovcS := 60, filterUs := 100, inputs := [⟨20, 1, 1⟩], terms := [⟨1, 0, 0⟩], outputs := [⟨1, 0xFF, true, false, 500⟩], crc := 9, crcOk := true, digest := 5 }

/-- An interlock program for it with one consumer connection. -/
def safProg : SafProg := { headOk := true, sigOk := true, bodyOk := true, cycleUs := 1000, version := 3, keyId := 2, matrixDigest := 5, digest := 0, conns := [⟨7, 0, 4, 0, 100, 2, false⟩] }

/-- A booted device whose island runs its program and whose die has loaded that image, in phase `ph`. -/
def safUp (ph : Nat) : State :=
  (rootUp ({ up with island := { Island.init with prog := some safProg, eeprom := some oneMatrix, matrix := some oneMatrix, running := true, word := 1, result := 1, pulsedA := 1, switched := 1, agreed := 10 } })).wrs
    [(F.SAF_STATUS_PHASE, 0, ph), (F.SAF_STATUS_PROG_OK, 0, 1), (F.SAF_STATUS_MATRIX_OK, 0, 1), (F.SAF_STATUS_LINK_OK, 0, 1), (F.SAF_STATUS_MATRIX_FAULT, 0, 0), (F.SIN_CFG_DISC_MS, 0, 20), (F.SAF_SIN_A, 0, 1),
     (F.SOUT_CFG_USED, 0, 1), (F.WARP_STATUS_HOLDOVER, 0, 0), (F.SAF_OVC_WINDOW_S, 0, 60), (F.WC_STATUS_STATE, 0, 1), (F.WC_STATUS_ROLE, 0, 0), (F.WC_EXP_DEADLINE_MS, 0, 100)]

/-- A change of its safety function beyond the registers. -/
def State.onSaf (s : State) (f : Island → Island) : State := s.onIsland f

/-- A matrix container with that image. -/
def oneContainer : MatrixCont := { headOk := true, frameCount := 1, beamZero := true, version := 4, keyId := 2, sigOk := true, bodyOk := true, image := oneMatrix }

/-- A unit of a Tandem pair in role `role`, its link up and its partner in role `partner`. -/
def pairUp (role partner : Nat) : State :=
  ({ up with tandem := { Tandem.init with heardAt := some 0, theirCheck := none } }).wrs
    [(F.TD_CFG_EN, 0, 1), (F.TD_STATUS_ROLE, 0, role), (F.TD_STATUS_PARTNER_ROLE, 0, partner), (F.TD_STATUS_LINK_UP, 0, 1), (F.TD_LINK_TMO, 0, 100), (F.TD_LEASE_LEASE_US, 0, 1000), (F.TD_LEASE_GUARD_US, 0, 100),
     (F.TD_STATUS_TERM, 0, 5), (F.LOOM_BEAM_STATUS_STATE, 0, 2), (F.WARP_STATUS_COARSE, 0, 0), (F.TD_STATUS_WARP_SYNC, 0, 1)]

/-- A good Contrail frame. -/
def goodContrail : Contrail := ⟨true, 0, 0⟩

/-- A snapshot of nothing. -/
def noSnapshot : Snapshot := ⟨[], [], []⟩

/-- A booted device with every root key, which waits for command `opcode` of Zenith. -/
def secUp (opcode : Nat) : State := (rootUp up).sent 16 opcode 0 0

/-- An authority record of OP `op` on `target`, signed by the tool builder. -/
def oneAuth (op target parts value : Nat) : AuthRec := ⟨true, op, target, parts, value, 2, 0, true, [4, 5], true, 0⟩

/-- A response to nonce 7 that opens debug at level 1 for a minute. -/
def oneResponse : DebugResp := ⟨true, 1, 60, 2, 0, 7, true⟩

/-- A bundle. -/
def oneBundle : Bundle := ⟨5, 3, 2, 9, 64, []⟩

/-- A container for the bundle in slot A. -/
def oneDelta : Delta := ⟨true, 0, 10, 0, true, [⟨2, 100, 0⟩], 100, 5, 6, true⟩

/-- A booted device with that bundle in slot A, whose update is in state `st`. -/
def updUp (st : Nat) : State :=
  ({ rootUp up with sec := { (rootUp up).sec with slots := Tbl.empty.set 0 oneBundle } }).wrs [(F.UPD_STATUS_STATE, 0, st), (F.UPD_SLOT_A_STATE, 0, 1), (F.UPD_STATUS_ACTIVE_SLOT, 0, 0)]

/-- A booted device in power state `st`, phase `ph` of a handshake or exit with target `x`, which every external wake source may wake. -/
def pwrUp (st ph x : Nat) : State :=
  up.wrs [(F.PWR_STATUS_STATE, 0, st), (F.PWR_STATUS_PHASE, 0, ph), (F.PWR_STATUS_TARGET, 0, x), (F.PWR_WAKE_EN_LULL, 0, 1), (F.PWR_WAKE_EN_WAKE_N, 0, 1), (F.PWR_WAKE_EN_ALARM, 0, 1), (F.PWR_WAKE_EN_HOST, 0, 1),
    (F.PWR_CTRL_MAX_STATE, 0, 4), (F.PWR_STATUS_WAKE_PEND, 0, 0), (F.LULL_CFG_ADDR, 0, 3), (F.WARP_STATUS_COARSE, 0, 0)]

/-- A change of its power controller beyond the registers. -/
def State.onPwr (s : State) (f : Power → Power) : State := s.onPower f

/-- What a cold boot meets that goes well with an empty Beam. -/
def goodBoot : BootRec :=
  { ready := true, pufOk := true, absent := [], lost := [], fwOk := (true, false), gcmOk := true, compsOk := true, stewardOk := true, dramOk := true, rate := 6400, gib := 64, badCkpts := [], badRings := [],
    beam := some ⟨0x4D414542, 1, 0, 1, 2, 0, 5, 7, 7, true, true, []⟩, beamAgain := none, unread := [], safeprog := none, islandOk := true, matrixOk := true, cals := [], tai := none }

/-- A device held in reset, its root keys programmed. -/
def coldUp : State := State.reset.wr F.SEC_STATUS_PROGRAMMED 7

/-- A device whose boot has come to step 9. -/
def bootUp : State := { State.reset with boot := { State.reset.boot with held := false, waiting := true } }

/-- A booted device that runs the program of partition 2. -/
def runFree : State := (progUp.wr F.CP_STATUS_STATE 1 2).putTreadle 2 (stepUp.treadle 2)

/-- The same device with a host command of partition 2 accepted and waiting. -/
def runUp : State := runFree.sent 2 0x0D 0 0

/-- The Warp at count `n`. -/
def State.onWarp (s : State) (n : Instant) : State := { s with warp := { s.warp with now := n } }

/-- A write of the command register at `off` that waits behind accepted commands. -/
def writeCmd (off tag : Nat) : HostCmd := ⟨0, 0, 0, 0, 0, 0, off, 0, 1, false, 0, some tag⟩

/-- A change of its boot controller beyond the registers. -/
def State.onRst (s : State) (f : BootCtl → BootCtl) : State := s.onBoot f

/-- A command entry of 64 bytes: OPCODE, FLAGS, TAG, TARGET, EXPECT_KIND, EXPECT, ARG0, ARG1, DATA_OFF, DATA_LEN. -/
def entryBytes (op flags target kind expect arg0 arg1 off len : Nat) : List Byte :=
  leBytes 2 op ++ leBytes 2 flags ++ leBytes 4 7 ++ leBytes 1 target ++ leBytes 1 kind ++ leBytes 2 expect ++ leBytes 4 arg0 ++ leBytes 4 arg1 ++ leBytes 4 off ++ leBytes 4 len ++ List.replicate 36 0

/-- A booted device with the first entry of mailbox 2's ring written. -/
def mailUp (e : List Byte) : State := { up with dram := up.dram.writeBytes (windowBase 2) e }

/-- A booted device whose port 1 takes management datagrams from address 9 on UDP port 77. -/
def portUp : State := up.wrs [(F.ETH_CFG_MGMT_EN, 1, 1), (F.ETH_MGMT_PORT, 1, 77), (F.ETH_ALLOW, 6, 9)]

/-- What a poll of the regulator reads. -/
def onePoll : PmbRead := ⟨801, 1200, 33, 0, 640⟩

/-- The row of the register at `off`. -/
def rowAt (off : Nat) : RegRow := ((findReg off).map (·.1)).getD ⟨"", 0, [], .word, []⟩

/-- A booted device with debug open at level `l`. -/
def debugUp (l : Nat) : State := (up.wr F.SEC_STATUS_DEBUG_LEVEL l).wr F.MEM_DRAM_USABLE 16384

/-! ### Witnesses for the premises of the statements -/

theorem witness_ReservedOffsetsAndTheSramWindow :
    (∃ (t : Instant) (r : Requester) (offset : Fin 268435456) (s : State), findReg offset = none ∧ inSramWindow offset = false ∧
      inBankWindow offset = false ∧ s.mayReadReg r offset = true) ∧
    (∃ (t : Instant) (offset : Fin 268435456) (s : State), findReg offset = none ∧ inSramWindow offset = false ∧ inBankWindow offset = false) ∧
    (∃ (t : Instant) (r : Requester) (offset : Fin 268435456) (value : Word) (s : State), findReg offset = none ∧ inSramWindow offset = false ∧
      ((s.advance t).rowsAt t offset value).isNone = true ∧ s.mayWrite r = true ∧ offset.val % 4 = 0) ∧
    (∃ (t : Instant) (offset : Fin 268435456) (value : Word) (s : State), inSramWindow offset = true ∧ offset.val % 4 = 0) ∧
    (∃ (t : Instant) (offset : Fin 268435456) (value : Word) (s : State), inSramWindow offset = true ∧ offset.val % 4 = 0) ∧
    (∃ (t : Instant) (r : Requester) (offset : Fin 268435456) (s : State), inSramWindow offset = true ∧ (r = .pcie ∨ r = .steward) ∧
      s.rd F.HOST_STATUS_BOOTING = 0) ∧
    (∃ (t : Instant) (offset : Fin 268435456) (value : Word) (s : State), inSramWindow offset = true ∧ offset.val % 4 = 0 ∧
      s.rd F.SEC_STATUS_DEBUG_LEVEL = 2) ∧
    (∃ (t : Instant) (offset : Fin 268435456) (s : State), inSramWindow offset = true ∧ s.rd F.SEC_STATUS_DEBUG_LEVEL = 2 ∧
      s.rd F.HOST_STATUS_BOOTING = 0) ∧
    (∃ (t : Instant) (offset : Fin 268435456) (value : Word) (s : State), inSramWindow offset = true ∧ offset.val % 4 = 0 ∧
      s.rd F.SEC_STATUS_DEBUG_LEVEL = 1) :=
  ⟨⟨5, .pcie, 0x000FFC, up, by decide +kernel⟩,
   ⟨5, 0x000FFC, up, by decide +kernel⟩,
   ⟨5, .pcie, 0x000FFC, 9, up, by decide +kernel⟩,
   ⟨5, 0x4FFFFFC, 9, up, by decide +kernel⟩,
   ⟨5, 0x1000000, 9, up, by decide +kernel⟩,
   ⟨5, .pcie, 0x1000000, up, by decide +kernel⟩,
   ⟨5, 0x1000004, 9, debugUp 2, by decide +kernel⟩,
   ⟨5, 0x1000004, debugUp 2, by decide +kernel⟩,
   ⟨5, 0x1000004, 9, debugUp 1, by decide +kernel⟩⟩

theorem witness_SixtyFourBitRegistersNeverTear :
    (∃ (t : Instant) (r : Requester) (offset : Fin 268435456) (row : RegRow) (i : Nat) (s : State), findReg offset = some (row, i) ∧ row.half = .low ∧
      inSramWindow offset = false ∧ s.mayReadReg r offset = true ∧ s.rd F.HOST_STATUS_BOOTING = 0 ∧ instOf 0xF01008 0x20 16 offset = none) ∧
    (∃ (t : Instant) (r : Requester) (q : Requester) (offset : Fin 268435456) (a : Nat) (s : State), (q, a) ≠ (r, offset.val) ∧
      (q, a) ≠ (r, offset.val - 4)) ∧
    (∃ (t : Instant) (r : Requester) (offset : Fin 268435456) (row : RegRow) (i : Nat) (v : Nat) (s : State), findReg offset = some (row, i) ∧
      row.half = .high ∧ inSramWindow offset = false ∧ s.mayReadReg r offset = true ∧ s.rd F.HOST_STATUS_BOOTING = 0 ∧
      s.latchOf r (offset.val - 4) = some v) ∧
    (∃ (t : Instant) (r : Requester) (offset : Fin 268435456) (row : RegRow) (i : Nat) (s : State), findReg offset = some (row, i) ∧
      row.half = .high ∧ inSramWindow offset = false ∧ s.mayReadReg r offset = true ∧ s.rd F.HOST_STATUS_BOOTING = 0 ∧
      s.latchOf r (offset.val - 4) = none) ∧
    (∃ (t : Instant) (r : Requester) (offset : Fin 268435456) (value : Word) (row : RegRow) (i : Nat) (s : State), findReg offset = some (row, i) ∧
      row.half = .low ∧ row.has [.rw, .rwl] = true ∧ ((s.advance t).rowsAt t offset value).isNone = true ∧ inSramWindow offset = false ∧
      s.mayWrite r = true ∧ offset.val % 4 = 0 ∧ s.admits offset = true) ∧
    (∃ (t : Instant) (r : Requester) (q : Requester) (offset : Fin 268435456) (value : Word) (row : RegRow) (i : Nat) (a : Nat) (s : State), findReg offset = some (row, i) ∧
      row.half = .low ∧ ((s.advance t).rowsAt t offset value).isNone = true ∧ inSramWindow offset = false ∧ offset.val % 4 = 0 ∧
      (q, a) ≠ (r, offset.val)) ∧
    (∃ (t : Instant) (r : Requester) (offset : Fin 268435456) (value : Word) (row : RegRow) (i : Nat) (b : FieldBits) (s : State), findReg offset = some (row, i) ∧
      row.half = .high ∧ row.fields = [b] ∧ ((b.access = .rw ∨ (b.access = .rwl ∧ s.rwlOpen (s.rwlOwner offset) = true))) ∧
      (commitRow t offset 0).isNone = true ∧ s.mayWrite r = true ∧ s.admits offset = true ∧
      s.badRange offset (s.wholeValue r offset value.toNat) = false ∧ s.ownRuleDiscards offset 0 = false) ∧
    (∃ (t : Instant) (r : Requester) (offset : Fin 268435456) (value : Word) (row : RegRow) (i : Nat) (b : FieldBits) (s : State), findReg offset = some (row, i) ∧
      row.half = .high ∧ row.fields = [b] ∧ ((b.access = .rw ∨ (b.access = .rwl ∧ s.rwlOpen (s.rwlOwner offset) = true))) ∧
      (commitRow t offset 0).isNone = true ∧ s.mayWrite r = true ∧ s.admits offset = true ∧
      s.badRange offset (s.wholeValue r offset value.toNat) = false ∧ s.ownRuleDiscards offset 0 = false) ∧
    (∃ (t : Instant) (r : Requester) (offset : Fin 268435456) (value : Word) (row : RegRow) (i : Nat) (s : State), findReg offset = some (row, i) ∧
      row.half = .high ∧ ((s.advance t).rowsAt t offset value).isNone = true ∧ inSramWindow offset = false ∧ s.mayWrite r = true ∧ offset.val % 4 = 0) ∧
    (∃ (t : Instant) (r : Requester) (n : Fin 1024) (offset : Fin 268435456) (value : Word) (s : State), offset.val = 0x200050 + 0x100 * n.val ∧
      s.mayWrite r = true) ∧
    (∃ (t : Instant) (r : Requester) (k : Fin 17) (offset : Fin 268435456) (value : Word) (s : State), offset.val = 0x501028 + 0x80 * k.val ∧
      s.mayWrite r = true) ∧
    (∃ (t : Instant) (r : Requester) (n : Fin 32) (offset : Fin 268435456) (value : Word) (s : State), offset.val = 0x610034 + 0x100 * n.val ∧
      s.mayWrite r = true) :=
  ⟨⟨1600, .steward, 0x100000, rowAt 0x100000, 0, up, by decide +kernel⟩,
   ⟨1600, .steward, .pcie, 0x100000, 0x100000, { up with latches := [((.pcie, 0x100000), 7)] }, by decide +kernel⟩,
   ⟨1600, .pcie, 0x100004, rowAt 0x100004, 0, 7, { up with latches := [((.pcie, 0x100000), 7)] }, by decide +kernel⟩,
   ⟨1600, .pcie, 0x100004, rowAt 0x100004, 0, up, by decide +kernel⟩,
   ⟨5, .pcie, 0xD0020C, 9, rowAt 0xD0020C, 0, up, by decide +kernel⟩,
   ⟨5, .pcie, .steward, 0xD0020C, 9, rowAt 0xD0020C, 0, 0xD0020C, { up with staged := [((.steward, 0xD0020C), 7)] }, by decide +kernel⟩,
   ⟨5, .pcie, 0xD00210, 9, rowAt 0xD00210, 0, ⟨F.UPD_AT, 0, 32, 32, .rw⟩, { up with staged := [((.pcie, 0xD0020C), 7)] }, by decide +kernel⟩,
   ⟨5, .pcie, 0xD00210, 9, rowAt 0xD00210, 0, ⟨F.UPD_AT, 0, 32, 32, .rw⟩, up.wr F.UPD_AT 5, by decide +kernel⟩,
   ⟨5, .pcie, 0xD00210, 9, rowAt 0xD00210, 0, { up with staged := [((.pcie, 0xD0020C), 7)] }, by decide +kernel⟩,
   ⟨5, .pcie, 3, 0x200350, 9, { loopUp with staged := [((.pcie, 0x20034C), 7)] }, by decide +kernel⟩,
   ⟨5, .pcie, 3, 0x5011A8, 0, { up with staged := [((.pcie, 0x5011A4), 7)] }, by decide +kernel⟩,
   ⟨5, .pcie, 3, 0x610334, 0, { up with staged := [((.pcie, 0x610330), 7)] }, by decide +kernel⟩⟩

theorem witness_DramAddressFieldsStayInTheirArea :
    (∃ (t : Instant) (r : Requester) (k : Fin 17) (offset : Fin 268435456) (value : Word) (s : State), offset.val = 0x501008 + 0x80 * k.val ∧
      s.mayWrite r = true ∧ s.admits offset = true ∧ s.assignable (s.wholeValue r offset value.toNat) (4096 * s.rd F.SKS_REGION_SIZE k) = false) ∧
    (∃ (t : Instant) (r : Requester) (k : Fin 17) (offset : Fin 268435456) (value : Word) (s : State), offset.val = 0x50100C + 0x80 * k.val ∧
      s.mayWrite r = true ∧ s.admits offset = true ∧ s.assignable (s.rd F.SKS_REGION k) (4096 * (value.toNat % 2 ^ 24)) = false) ∧
    (∃ (t : Instant) (r : Requester) (n : Fin 32) (offset : Fin 268435456) (value : Word) (s : State), offset.val = 0x61001C + 0x100 * n.val ∧
      s.mayWrite r = true ∧ s.admits offset = true ∧
      s.assignable (s.wholeValue r offset value.toNat) (1024 * s.rd F.CS_SLOT_CFG_SLOTS n * s.rd F.CS_SLOT_CFG_SLOT_KIB n) = false) ∧
    (∃ (t : Instant) (r : Requester) (n : Fin 32) (offset : Fin 268435456) (value : Word) (s : State), offset.val = 0x610020 + 0x100 * n.val ∧
      s.mayWrite r = true ∧ s.admits offset = true ∧
      s.assignable (s.rd F.CS_REGION n) (1024 * (value.toNat / 2 ^ 16 % 2 ^ 16) * (value.toNat % 2 ^ 16)) = false) ∧
    (∃ (t : Instant) (r : Requester) (value : Word) (s : State), s.mayWrite r = true ∧ s.admits 0x640008 = true ∧
      s.assignable (s.wholeValue r 0x640008 value.toNat) (2 ^ 20 * s.rd F.ENV_COUNT) = false) ∧
    (∃ (t : Instant) (r : Requester) (value : Word) (s : State), s.mayWrite r = true ∧ s.admits 0x64000C = true ∧
      s.assignable (s.rd F.ENV_REGION) (2 ^ 20 * (value.toNat % 2 ^ 9)) = false) ∧
    (∃ (t : Instant) (r : Requester) (value : Word) (s : State), s.mayWrite r = true ∧ s.admits 0x640008 = true ∧
      s.assignable (s.wholeValue r 0x640008 value.toNat) (2 ^ 20 * s.rd F.ENV_COUNT) = true ∧ (List.range 16).all s.inStop = true) :=
  ⟨⟨5, .pcie, 2, 0x501108, 1, debugUp 0, by decide +kernel⟩,
   ⟨5, .pcie, 2, 0x50110C, 1, debugUp 0, by decide +kernel⟩,
   ⟨5, .pcie, 2, 0x61021C, 1, debugUp 0, by decide +kernel⟩,
   ⟨5, .pcie, 2, 0x610220, 0x10001, debugUp 0, by decide +kernel⟩,
   ⟨5, .pcie, 1, debugUp 0, by decide +kernel⟩,
   ⟨5, .pcie, 1, debugUp 0, by decide +kernel⟩,
   ⟨5, .pcie, 2, debugUp 0, by decide +kernel⟩⟩

theorem witness_RegisterWritesFollowTheAccessTypes :
    (∃ (t : Instant) (r : Requester) (offset : Fin 268435456) (value : Word) (byteEnables : Fin 16) (s : State), s.mayWrite r = true ∧
      (byteEnables ≠ 15 ∨ offset.val % 4 ≠ 0)) ∧
    (∃ (t : Instant) (r : Requester) (offset : Fin 268435456) (value : Word) (byteEnables : Fin 16) (s : State), s.mayWrite r = true ∧
      (byteEnables ≠ 15 ∨ offset.val % 4 ≠ 0)) ∧
    (∃ (t : Instant) (r : Requester) (offset : Fin 268435456) (value : Word) (byteEnables : Fin 16) (s : State), s.mayWrite r = false) ∧
    (∃ (t : Instant) (r : Requester) (offset : Fin 268435456) (value : Word) (row : RegRow) (i : Nat) (s : State), findReg offset = some (row, i) ∧
      row.half = .word ∧ row.has [.rw, .rwl, .w1c, .w1s, .wo] = false ∧ editMask row = 0 ∧ ((s.advance t).rowsAt t offset value).isNone = true ∧
      inSramWindow offset = false ∧ s.mayWrite r = true ∧ offset.val % 4 = 0 ∧ s.admits offset = true) ∧
    (∃ (t : Instant) (r : Requester) (offset : Fin 268435456) (value : Word) (row : RegRow) (i : Nat) (b : FieldBits) (s : State), findReg offset = some (row, i) ∧
      row.half = .word ∧ row.fields.contains b = true ∧ b.access = .rw ∧ editMask row = 0 ∧ ((s.advance t).rowsAt t offset value).isNone = true ∧
      inSramWindow offset = false ∧ s.mayWrite r = true ∧ offset.val % 4 = 0 ∧ s.admits offset = true ∧ s.badRange offset value.toNat = false ∧
      s.ownRuleDiscards offset value.toNat = false) ∧
    (∃ (t : Instant) (r : Requester) (s' : Fin 200) (offset : Fin 268435456) (value : Word) (s : State), offset.val = 0xF03000 + 4 * s'.val ∧
      s.mayWrite r = true) ∧
    (∃ (t : Instant) (r : Requester) (value : Word) (k : Fin 21) (s : State), s.mayWrite r = true) ∧
    (∃ (t : Instant) (r : Requester) (value : Word) (s : State), s.mayWrite r = true ∧ (List.range 16).all s.inStop = true) ∧
    (∃ (t : Instant) (r : Requester) (value : Word) (p : Fin 16) (s : State), s.mayWrite r = true ∧ s.inStop p = false ∧
      value.toNat / 2 ^ 16 % 2 ^ 12 ≠ s.rd F.PWR_WAKE_CFG_RET_MV % 2 ^ 12) ∧
    (∃ (t : Instant) (r : Requester) (p : Fin 16) (offset : Fin 268435456) (value : Word) (s : State), offset.val = 0xE00104 + 8 * p.val ∧
      s.mayWrite r = true ∧ s.admits offset = true ∧ s.inStop p = true) ∧
    (∃ (t : Instant) (r : Requester) (p : Fin 16) (offset : Fin 268435456) (value : Word) (s : State), offset.val = 0xE00104 + 8 * p.val ∧
      s.mayWrite r = true ∧ s.admits offset = true ∧ s.inStop p = false) ∧
    (∃ (t : Instant) (offset : Fin 268435456) (row : RegRow) (i : Nat) (b : FieldBits) (s : State), findReg offset = some (row, i) ∧
      row.fields = [b] ∧ b.access = .rc ∧ b.lo = 0 ∧ b.from_ = 0 ∧ inSramWindow offset = false ∧ s.rd F.HOST_STATUS_BOOTING = 0) :=
  ⟨⟨5, .pcie, 0xF03000, 9, 14, up, by decide +kernel⟩,
   ⟨5, .pcie, 0xF03002, 9, 15, up, by decide +kernel⟩,
   ⟨5, .shuttle 4, 0xF03000, 9, 15, up, by decide +kernel⟩,
   ⟨5, .pcie, 0x000000, 9, rowAt 0, 0, up, by decide +kernel⟩,
   ⟨5, .pcie, 0xF00008, 9, rowAt 0xF00008, 0, ⟨F.BAR2_BASE, 0, 8, 0, .rw⟩, up, by decide +kernel⟩,
   ⟨5, .pcie, 199, 0xF0331C, 0x8000003F, up, by decide +kernel⟩,
   ⟨5, .pcie, 3, 1, up.wr F.SYS_FAULT 7, by decide +kernel⟩,
   ⟨5, .pcie, 0x02580014, up, by decide +kernel⟩,
   ⟨5, .pcie, 0x02600014, 2, runUp, by decide +kernel⟩,
   ⟨5, .pcie, 15, 0xE0017C, 1, up, by decide +kernel⟩,
   ⟨5, .pcie, 2, 0xE00114, 1, runUp, by decide +kernel⟩,
   ⟨5, 0x28, rowAt 0x28, 0, ⟨F.SYS_DISCARD_CNT, 0, 32, 0, .rc⟩, up.wr F.SYS_DISCARD_CNT 7, by decide +kernel⟩⟩

theorem witness_AStepRunsTheFrontCommand :
    (∃ (c : Instr) (q : List Instr) (s : State), s.pending = c :: q) ∧
    (∃ (s : State), s.pending = []) :=
  ⟨⟨.watchdog 5, [.slewEnd 6], { up with pending := [.watchdog 5, .slewEnd 6] }, by decide +kernel⟩,
   ⟨up, by decide +kernel⟩⟩

theorem witness_EveryStepKeepsTheCanonicalForm :
    (∃ (s : State), s.canonical = true) :=
  ⟨{ runUp with pending := [.watchdog 5, .slewEnd 6] }, by decide +kernel⟩

theorem witness_OneInstanceLeavesTheOthers :
    (∃ (t : Instant) (n : Fin 1024) (m : Nat) (f : Fld) (s : State), m ≠ n ∧ 65 ≤ f.id ∧ f.id ≤ 154) ∧
    (∃ (t : Instant) (n : Fin 1024) (m : Nat) (f : Fld) (s : State), m ≠ n ∧ 65 ≤ f.id ∧ f.id ≤ 154) ∧
    (∃ (t : Instant) (n : Fin 1024) (k : Fin 24) (value : Word) (m : Nat) (f : Fld) (s : State), m ≠ n ∧ 65 ≤ f.id ∧ f.id ≤ 154) ∧
    (∃ (t : Instant) (n : Fin 1024) (value : BitVec 48) (m : Nat) (f : Fld) (s : State), m ≠ n ∧ 65 ≤ f.id ∧ f.id ≤ 154) ∧
    (∃ (t : Instant) (n : Fin 1024) (m : Nat) (f : Fld) (s : State), m ≠ n ∧ 65 ≤ f.id ∧ f.id ≤ 154) ∧
    (∃ (t : Instant) (n : Fin 1024) (m : Nat) (f : Fld) (s : State), m ≠ n ∧ 65 ≤ f.id ∧ f.id ≤ 154) ∧
    (∃ (t : Instant) (n : Fin 1024) (m : Nat) (f : Fld) (s : State), m ≠ n ∧ 65 ≤ f.id ∧ f.id ≤ 154) ∧
    (∃ (t : Instant) (n : Fin 1024) (arith : Bool) (parity : Bool) (m : Nat) (f : Fld) (s : State), m ≠ n ∧ 65 ≤ f.id ∧ f.id ≤ 154) ∧
    (∃ (t : Instant) (n : Fin 256) (r : GenReg) (value : Word) (m : Nat) (f : Fld) (s : State), m ≠ n ∧ 206 ≤ f.id ∧ f.id ≤ 228) ∧
    (∃ (t : Instant) (n : Fin 256) (m : Nat) (f : Fld) (s : State), m ≠ n ∧ 206 ≤ f.id ∧ f.id ≤ 228) ∧
    (∃ (t : Instant) (n : Fin 128) (m : Nat) (f : Fld) (s : State), m ≠ n ∧ 247 ≤ f.id ∧ f.id ≤ 325) ∧
    (∃ (t : Instant) (n : Fin 128) (m : Nat) (f : Fld) (s : State), m ≠ n ∧ 247 ≤ f.id ∧ f.id ≤ 325) ∧
    (∃ (t : Instant) (n : Fin 128) (arith : Bool) (parity : Bool) (m : Nat) (f : Fld) (s : State), m ≠ n ∧ 247 ≤ f.id ∧ f.id ≤ 325) ∧
    (∃ (t : Instant) (n : Fin 128) (m : Nat) (f : Fld) (s : State), m ≠ n ∧ 247 ≤ f.id ∧ f.id ≤ 325) ∧
    (∃ (t : Instant) (n : Fin 32) (seq : BitVec 64) (m : Nat) (f : Fld) (s : State), m ≠ n ∧ 387 ≤ f.id ∧ f.id ≤ 405) ∧
    (∃ (t : Instant) (n : Fin 32) (count : BitVec 13) (m : Nat) (f : Fld) (s : State), m ≠ n ∧ 387 ≤ f.id ∧ f.id ≤ 405) :=
  ⟨⟨5, 3, 4, F.LC_PERIOD, loopUp, by decide +kernel⟩,
   ⟨5, 3, 4, F.LC_PERIOD, loopUp, by decide +kernel⟩,
   ⟨5, 3, 7, 9, 4, F.LC_PERIOD, loopUp, by decide +kernel⟩,
   ⟨5, 3, 9, 4, F.LC_PERIOD, loopUp, by decide +kernel⟩,
   ⟨5, 3, 4, F.LC_PERIOD, loopUp, by decide +kernel⟩,
   ⟨5, 3, 4, F.LC_PERIOD, loopUp, by decide +kernel⟩,
   ⟨5, 3, 4, F.LC_PERIOD, loopUp, by decide +kernel⟩,
   ⟨5, 3, false, true, 4, F.LC_PERIOD, loopUp, by decide +kernel⟩,
   ⟨5, 3, .target, 9, 4, F.PG_TARGET, up, by decide +kernel⟩,
   ⟨5, 3, 4, F.PG_TARGET, up, by decide +kernel⟩,
   ⟨5, 5, 4, F.AX_POS, axisUp, by decide +kernel⟩,
   ⟨5, 5, 4, F.AX_POS, axisUp, by decide +kernel⟩,
   ⟨5, 5, false, true, 4, F.AX_POS, axisUp, by decide +kernel⟩,
   ⟨5, 5, 4, F.AX_POS, axisUp, by decide +kernel⟩,
   ⟨5, 3, 0, 4, F.CS_PRE_NS, capUp, by decide +kernel⟩,
   ⟨5, 3, 1, 4, F.CS_PRE_NS, capUp, by decide +kernel⟩⟩

theorem witness_MailboxCommandsStoreTheirCompletionAlone :
    (∃ (t : Instant) (p : Fin 16) (img : StepTable) (room : Bool) (c : HostCmd) (a : Nat) (s : State), s.mayExecute 0x1 p anyArgs = true ∧
      s.waiting p = [c] ∧ c.eth = false ∧ 0x10000 ≤ c.off) ∧
    (∃ (t : Instant) (p : Fin 16) (img : StepTable) (room : Bool) (c : HostCmd) (a : Nat) (s : State), s.mayExecute 0x1 p anyArgs = true ∧
      s.waiting p = [c] ∧ c.eth = false ∧ 0x10000 ≤ c.off) ∧
    (∃ (t : Instant) (p : Fin 16) (img : SegImage) (room : Bool) (c : HostCmd) (a : Nat) (s : State), s.mayExecute 0x2 p anyArgs = true ∧
      s.waiting p = [c] ∧ c.eth = false ∧ 0x10000 ≤ c.off) ∧
    (∃ (t : Instant) (p : Fin 16) (img : SegImage) (room : Bool) (c : HostCmd) (a : Nat) (s : State), s.mayExecute 0x2 p anyArgs = true ∧
      s.waiting p = [c] ∧ c.eth = false ∧ 0x10000 ≤ c.off) ∧
    (∃ (t : Instant) (p : Fin 16) (img : DraftImg) (room : Bool) (c : HostCmd) (a : Nat) (s : State), s.mayExecute 0x5 p anyArgs = true ∧
      s.waiting p = [c] ∧ c.eth = false ∧ 0x10000 ≤ c.off) ∧
    (∃ (t : Instant) (p : Fin 16) (img : DraftImg) (room : Bool) (c : HostCmd) (a : Nat) (s : State), s.mayExecute 0x5 p anyArgs = true ∧
      s.waiting p = [c] ∧ c.eth = false ∧ 0x10000 ≤ c.off) ∧
    (∃ (t : Instant) (p : Fin 16) (refresh : Bool) (c : HostCmd) (a : Nat) (s : State), s.mayExecute 0xd p anyArgs = true ∧ s.waiting p = [c] ∧
      c.eth = false ∧ 0x10000 ≤ c.off) ∧
    (∃ (t : Instant) (p : Fin 16) (refresh : Bool) (c : HostCmd) (a : Nat) (s : State), s.mayExecute 0xd p anyArgs = true ∧ s.waiting p = [c] ∧
      c.eth = false ∧ 0x10000 ≤ c.off) ∧
    (∃ (t : Instant) (p : Fin 16) (kind : Word) (index : Word) (c : HostCmd) (a : Nat) (s : State), s.mayExecute 0xb p (fun c => c.arg0 == kind.toNat && c.arg1 == index.toNat) = true ∧
      s.waiting p = [c] ∧ c.eth = false ∧ 0x10000 ≤ c.off) ∧
    (∃ (t : Instant) (p : Fin 16) (kind : Word) (index : Word) (c : HostCmd) (a : Nat) (s : State), s.mayExecute 0xb p (fun c => c.arg0 == kind.toNat && c.arg1 == index.toNat) = true ∧
      s.waiting p = [c] ∧ c.eth = false ∧ 0x10000 ≤ c.off) ∧
    (∃ (t : Instant) (m : MatrixCont) (readBack : Bool) (room : Bool) (c : HostCmd) (a : Nat) (s : State), s.mayExecute 0x10 16 anyArgs = true ∧
      s.waiting 16 = [c] ∧ c.eth = false ∧ 0x10000 ≤ c.off) ∧
    (∃ (t : Instant) (m : MatrixCont) (readBack : Bool) (room : Bool) (c : HostCmd) (a : Nat) (s : State), s.mayExecute 0x10 16 anyArgs = true ∧
      s.waiting 16 = [c] ∧ c.eth = false ∧ 0x10000 ≤ c.off) ∧
    (∃ (t : Instant) (img : SafProg) (readBack : Bool) (room : Bool) (c : HostCmd) (a : Nat) (s : State), s.mayExecute 0x11 16 anyArgs = true ∧
      s.waiting 16 = [c] ∧ c.eth = false ∧ 0x10000 ≤ c.off) ∧
    (∃ (t : Instant) (img : SafProg) (readBack : Bool) (room : Bool) (c : HostCmd) (a : Nat) (s : State), s.mayExecute 0x11 16 anyArgs = true ∧
      s.waiting 16 = [c] ∧ c.eth = false ∧ 0x10000 ≤ c.off) ∧
    (∃ (t : Instant) (phase : Word) (c : HostCmd) (a : Nat) (s : State), s.mayExecute 0x12 16 (fun c => c.arg0 == phase.toNat) = true ∧
      s.waiting 16 = [c] ∧ c.eth = false ∧ 0x10000 ≤ c.off) ∧
    (∃ (t : Instant) (phase : Word) (c : HostCmd) (a : Nat) (s : State), s.mayExecute 0x12 16 (fun c => c.arg0 == phase.toNat) = true ∧
      s.waiting 16 = [c] ∧ c.eth = false ∧ 0x10000 ≤ c.off) ∧
    (∃ (t : Instant) (mask : BitVec 16) (c : HostCmd) (a : Nat) (s : State), s.mayExecute 0x13 16 (fun c => c.arg0 == mask.toNat) = true ∧
      s.waiting 16 = [c] ∧ c.eth = false ∧ 0x10000 ≤ c.off) ∧
    (∃ (t : Instant) (mask : BitVec 16) (c : HostCmd) (a : Nat) (s : State), s.mayExecute 0x13 16 (fun c => c.arg0 == mask.toNat) = true ∧
      s.waiting 16 = [c] ∧ c.eth = false ∧ 0x10000 ≤ c.off) ∧
    (∃ (t : Instant) (r : AuthRec) (readBack : Bool) (c : HostCmd) (a : Nat) (s : State), s.mayExecute 0x20 16 anyArgs = true ∧ s.waiting 16 = [c] ∧
      c.eth = false ∧ 0x10000 ≤ c.off) ∧
    (∃ (t : Instant) (r : AuthRec) (readBack : Bool) (c : HostCmd) (a : Nat) (s : State), s.mayExecute 0x20 16 anyArgs = true ∧ s.waiting 16 = [c] ∧
      c.eth = false ∧ 0x10000 ≤ c.off) ∧
    (∃ (t : Instant) (d : Delta) (c : HostCmd) (a : Nat) (s : State), s.mayExecute 0x21 16 anyArgs = true ∧ s.waiting 16 = [c] ∧ c.eth = false ∧
      0x10000 ≤ c.off) ∧
    (∃ (t : Instant) (d : Delta) (c : HostCmd) (a : Nat) (s : State), s.mayExecute 0x21 16 anyArgs = true ∧ s.waiting 16 = [c] ∧ c.eth = false ∧
      0x10000 ≤ c.off) ∧
    (∃ (t : Instant) (c : HostCmd) (a : Nat) (s : State), s.mayExecute 0x22 16 anyArgs = true ∧ s.waiting 16 = [c] ∧ c.eth = false ∧ 0x10000 ≤ c.off) ∧
    (∃ (t : Instant) (c : HostCmd) (a : Nat) (s : State), s.mayExecute 0x22 16 anyArgs = true ∧ s.waiting 16 = [c] ∧ c.eth = false ∧ 0x10000 ≤ c.off) ∧
    (∃ (t : Instant) (r : DebugResp) (c : HostCmd) (a : Nat) (s : State), s.mayExecute 0x23 16 anyArgs = true ∧ s.waiting 16 = [c] ∧ c.eth = false ∧
      0x10000 ≤ c.off) ∧
    (∃ (t : Instant) (r : DebugResp) (c : HostCmd) (a : Nat) (s : State), s.mayExecute 0x23 16 anyArgs = true ∧ s.waiting 16 = [c] ∧ c.eth = false ∧
      0x10000 ≤ c.off) ∧
    (∃ (t : Instant) (c : HostCmd) (a : Nat) (s : State), s.mayExecute 0x24 16 anyArgs = true ∧ s.waiting 16 = [c] ∧ c.eth = false ∧ 0x10000 ≤ c.off) ∧
    (∃ (t : Instant) (c : HostCmd) (a : Nat) (s : State), s.mayExecute 0x24 16 anyArgs = true ∧ s.waiting 16 = [c] ∧ c.eth = false ∧ 0x10000 ≤ c.off) ∧
    (∃ (t : Instant) (nonce : BitVec 256) (c : HostCmd) (a : Nat) (s : State), s.mayExecute 0x25 16 anyArgs = true ∧ s.waiting 16 = [c] ∧
      c.eth = false ∧ 0x10000 ≤ c.off) ∧
    (∃ (t : Instant) (nonce : BitVec 256) (c : HostCmd) (a : Nat) (s : State), s.mayExecute 0x25 16 anyArgs = true ∧ s.waiting 16 = [c] ∧
      c.eth = false ∧ 0x10000 ≤ c.off) :=
  ⟨⟨5, 2, oneStep, true, ⟨1, 7, 0, 0, 0, 0, 0x11000, 0, 1, false, 0, none⟩, 671092736, (up).sent 2 1 0 0, by decide +kernel⟩,
   ⟨5, 2, oneStep, true, ⟨1, 7, 0, 0, 0, 0, 0x11000, 0, 1, false, 0, none⟩, 671092768, (up).sent 2 1 0 0, by decide +kernel⟩,
   ⟨5, 2, oneSegment, true, ⟨2, 7, 0, 0, 0, 0, 0x11000, 0, 1, false, 0, none⟩, 671092736, (axisUp).sent 2 2 0 0, by decide +kernel⟩,
   ⟨5, 2, oneSegment, true, ⟨2, 7, 0, 0, 0, 0, 0x11000, 0, 1, false, 0, none⟩, 671092768, (axisUp).sent 2 2 0 0, by decide +kernel⟩,
   ⟨5, 2, emptyDraft, true, ⟨5, 7, 0, 0, 0, 0, 0x11000, 0, 1, false, 0, none⟩, 671092736, (up).sent 2 5 0 0, by decide +kernel⟩,
   ⟨5, 2, emptyDraft, true, ⟨5, 7, 0, 0, 0, 0, 0x11000, 0, 1, false, 0, none⟩, 671092768, (up).sent 2 5 0 0, by decide +kernel⟩,
   ⟨5, 2, true, ⟨13, 7, 0, 0, 0, 0, 0x11000, 0, 1, false, 0, none⟩, 671092736, (up).sent 2 13 0 0, by decide +kernel⟩,
   ⟨5, 2, true, ⟨13, 7, 0, 0, 0, 0, 0x11000, 0, 1, false, 0, none⟩, 671092768, (up).sent 2 13 0 0, by decide +kernel⟩,
   ⟨5, 2, 0, 0, ⟨11, 7, 0, 0, 0, 0, 0x11000, 0, 1, false, 0, none⟩, 671092736, (up).sent 2 11 0 0, by decide +kernel⟩,
   ⟨5, 2, 0, 0, ⟨11, 7, 0, 0, 0, 0, 0x11000, 0, 1, false, 0, none⟩, 671092768, (up).sent 2 11 0 0, by decide +kernel⟩,
   ⟨5, oneContainer, true, true, ⟨16, 7, 0, 0, 0, 0, 0x11000, 0, 1, false, 0, none⟩, 1610616832, (safUp 0).sent 16 16 0 0, by decide +kernel⟩,
   ⟨5, oneContainer, true, true, ⟨16, 7, 0, 0, 0, 0, 0x11000, 0, 1, false, 0, none⟩, 1610616864, (safUp 0).sent 16 16 0 0, by decide +kernel⟩,
   ⟨5, safProg, true, true, ⟨17, 7, 0, 0, 0, 0, 0x11000, 0, 1, false, 0, none⟩, 1610616832, (safUp 0).sent 16 17 0 0, by decide +kernel⟩,
   ⟨5, safProg, true, true, ⟨17, 7, 0, 0, 0, 0, 0x11000, 0, 1, false, 0, none⟩, 1610616864, (safUp 0).sent 16 17 0 0, by decide +kernel⟩,
   ⟨5, 0, ⟨18, 7, 0, 0, 0, 0, 0x11000, 0, 1, false, 0, none⟩, 1610616832, (safUp 0).sent 16 18 0 0, by decide +kernel⟩,
   ⟨5, 0, ⟨18, 7, 0, 0, 0, 0, 0x11000, 0, 1, false, 0, none⟩, 1610616864, (safUp 0).sent 16 18 0 0, by decide +kernel⟩,
   ⟨5, 0, ⟨19, 7, 0, 0, 0, 0, 0x11000, 0, 1, false, 0, none⟩, 1610616832, (safUp 0).sent 16 19 0 0, by decide +kernel⟩,
   ⟨5, 0, ⟨19, 7, 0, 0, 0, 0, 0x11000, 0, 1, false, 0, none⟩, 1610616864, (safUp 0).sent 16 19 0 0, by decide +kernel⟩,
   ⟨5, oneAuth 4 3 0 0, true, ⟨32, 7, 0, 0, 0, 0, 0x11000, 0, 1, false, 0, none⟩, 1610616832, (rootUp up).sent 16 32 0 0, by decide +kernel⟩,
   ⟨5, oneAuth 4 3 0 0, true, ⟨32, 7, 0, 0, 0, 0, 0x11000, 0, 1, false, 0, none⟩, 1610616864, (rootUp up).sent 16 32 0 0, by decide +kernel⟩,
   ⟨5, oneDelta, ⟨33, 7, 0, 0, 0, 0, 0x11000, 0, 1, false, 0, none⟩, 1610616832, (updUp 0).sent 16 33 0 0, by decide +kernel⟩,
   ⟨5, oneDelta, ⟨33, 7, 0, 0, 0, 0, 0x11000, 0, 1, false, 0, none⟩, 1610616864, (updUp 0).sent 16 33 0 0, by decide +kernel⟩,
   ⟨5, ⟨34, 7, 0, 0, 0, 0, 0x11000, 0, 1, false, 0, none⟩, 1610616832, (rootUp up).sent 16 34 0 0, by decide +kernel⟩,
   ⟨5, ⟨34, 7, 0, 0, 0, 0, 0x11000, 0, 1, false, 0, none⟩, 1610616864, (rootUp up).sent 16 34 0 0, by decide +kernel⟩,
   ⟨5, oneResponse, ⟨35, 7, 0, 0, 0, 0, 0x11000, 0, 1, false, 0, none⟩, 1610616832, (rootUp up).sent 16 35 0 0, by decide +kernel⟩,
   ⟨5, oneResponse, ⟨35, 7, 0, 0, 0, 0, 0x11000, 0, 1, false, 0, none⟩, 1610616864, (rootUp up).sent 16 35 0 0, by decide +kernel⟩,
   ⟨5, ⟨36, 7, 0, 0, 0, 0, 0x11000, 0, 1, false, 0, none⟩, 1610616832, (rootUp up).sent 16 36 0 0, by decide +kernel⟩,
   ⟨5, ⟨36, 7, 0, 0, 0, 0, 0x11000, 0, 1, false, 0, none⟩, 1610616864, (rootUp up).sent 16 36 0 0, by decide +kernel⟩,
   ⟨5, 9, ⟨37, 7, 0, 0, 0, 0, 0x11000, 0, 1, false, 0, none⟩, 1610616832, (rootUp up).sent 16 37 0 0, by decide +kernel⟩,
   ⟨5, 9, ⟨37, 7, 0, 0, 0, 0, 0x11000, 0, 1, false, 0, none⟩, 1610616864, (rootUp up).sent 16 37 0 0, by decide +kernel⟩⟩

theorem witness_RequestsNotAdmittedChangeNothing :
    (∃ (t : Instant) (rate : Word) (s : State), s.rd F.HOST_STATUS_BOOTING ≠ 0) ∧
    (∃ (t : Instant) (offset : Word) (s : State), s.rd F.HOST_STATUS_BOOTING ≠ 0) ∧
    (∃ (t : Instant) (value : Word) (s : State), s.rd F.HOST_STATUS_BOOTING ≠ 0) ∧
    (∃ (t : Instant) (value : Word) (armFirst : Bool) (s : State), s.rd F.HOST_STATUS_BOOTING ≠ 0) ∧
    (∃ (t : Instant) (value : Word) (s : State), s.rd F.HOST_STATUS_BOOTING ≠ 0) ∧
    (∃ (t : Instant) (n : Fin 1024) (value : Word) (s : State), s.rd F.HOST_STATUS_BOOTING ≠ 0) ∧
    (∃ (t : Instant) (n : Fin 1024) (value : Word) (s : State), s.rd F.HOST_STATUS_BOOTING ≠ 0) ∧
    (∃ (t : Instant) (n : Fin 1024) (s : State), s.rd F.HOST_STATUS_BOOTING ≠ 0) ∧
    (∃ (t : Instant) (n : Fin 1024) (s : State), s.rd F.HOST_STATUS_BOOTING ≠ 0) ∧
    (∃ (t : Instant) (n : Fin 1024) (k : Fin 24) (value : Word) (s : State), s.rd F.HOST_STATUS_BOOTING ≠ 0) ∧
    (∃ (t : Instant) (n : Fin 1024) (value : BitVec 48) (s : State), s.rd F.HOST_STATUS_BOOTING ≠ 0) ∧
    (∃ (t : Instant) (conv : Fin 25) (s : State), s.rd F.HOST_STATUS_BOOTING ≠ 0) ∧
    (∃ (t : Instant) (n : Fin 1024) (s : State), s.rd F.HOST_STATUS_BOOTING ≠ 0) ∧
    (∃ (t : Instant) (n : Fin 1024) (s : State), s.rd F.HOST_STATUS_BOOTING ≠ 0) ∧
    (∃ (t : Instant) (n : Fin 1024) (s : State), s.rd F.HOST_STATUS_BOOTING ≠ 0) ∧
    (∃ (t : Instant) (n : Fin 1024) (s : State), s.rd F.HOST_STATUS_BOOTING ≠ 0) ∧
    (∃ (t : Instant) (p : Fin 16) (value : Word) (s : State), s.rd F.HOST_STATUS_BOOTING ≠ 0) ∧
    (∃ (t : Instant) (p : Fin 16) (value : Word) (s : State), s.rd F.HOST_STATUS_BOOTING ≠ 0) ∧
    (∃ (t : Instant) (p : Fin 16) (value : Word) (s : State), s.rd F.HOST_STATUS_BOOTING ≠ 0) ∧
    (∃ (t : Instant) (p : Fin 16) (value : Word) (s : State), s.rd F.HOST_STATUS_BOOTING ≠ 0) ∧
    (∃ (t : Instant) (p : Fin 16) (value : Word) (s : State), s.rd F.HOST_STATUS_BOOTING ≠ 0) ∧
    (∃ (t : Instant) (n : Fin 256) (value : Word) (s : State), s.rd F.HOST_STATUS_BOOTING ≠ 0) ∧
    (∃ (t : Instant) (n : Fin 256) (value : Word) (s : State), s.rd F.HOST_STATUS_BOOTING ≠ 0) ∧
    (∃ (t : Instant) (n : Fin 128) (value : Word) (s : State), s.rd F.HOST_STATUS_BOOTING ≠ 0) ∧
    (∃ (t : Instant) (n : Fin 128) (value : Word) (s : State), s.rd F.HOST_STATUS_BOOTING ≠ 0) ∧
    (∃ (t : Instant) (n : Fin 128) (s : State), s.rd F.HOST_STATUS_BOOTING ≠ 0) ∧
    (∃ (t : Instant) (n : Fin 128) (s : State), s.rd F.HOST_STATUS_BOOTING ≠ 0) ∧
    (∃ (t : Instant) (n : Fin 128) (s : State), s.rd F.HOST_STATUS_BOOTING ≠ 0) ∧
    (∃ (t : Instant) (n : Fin 128) (s : State), s.rd F.HOST_STATUS_BOOTING ≠ 0) ∧
    (∃ (t : Instant) (g : Fin 4) (value : Word) (s : State), s.rd F.HOST_STATUS_BOOTING ≠ 0) ∧
    (∃ (t : Instant) (g : Fin 4) (value : Word) (s : State), s.rd F.HOST_STATUS_BOOTING ≠ 0) ∧
    (∃ (t : Instant) (k : Fin 17) (s : State), s.rd F.HOST_STATUS_BOOTING ≠ 0) ∧
    (∃ (t : Instant) (k : Fin 17) (seq : BitVec 64) (s : State), s.rd F.HOST_STATUS_BOOTING ≠ 0) ∧
    (∃ (t : Instant) (n : Fin 32) (s : State), s.rd F.HOST_STATUS_BOOTING ≠ 0) ∧
    (∃ (t : Instant) (n : Fin 32) (s : State), s.rd F.HOST_STATUS_BOOTING ≠ 0) ∧
    (∃ (t : Instant) (n : Fin 32) (s : State), s.rd F.HOST_STATUS_BOOTING ≠ 0) ∧
    (∃ (t : Instant) (n : Fin 32) (seq : BitVec 64) (s : State), s.rd F.HOST_STATUS_BOOTING ≠ 0) ∧
    (∃ (t : Instant) (n : Fin 32) (count : BitVec 13) (s : State), s.rd F.HOST_STATUS_BOOTING ≠ 0) ∧
    (∃ (t : Instant) (n : Fin 64) (s : State), s.rd F.HOST_STATUS_BOOTING ≠ 0) ∧
    (∃ (t : Instant) (n : Fin 64) (s : State), s.rd F.HOST_STATUS_BOOTING ≠ 0) ∧
    (∃ (t : Instant) (p : Fin 16) (value : Word) (s : State), s.rd F.HOST_STATUS_BOOTING ≠ 0) ∧
    (∃ (t : Instant) (p : Fin 16) (s : State), s.rd F.HOST_STATUS_BOOTING ≠ 0) ∧
    (∃ (t : Instant) (p : Fin 16) (s : State), s.rd F.HOST_STATUS_BOOTING ≠ 0) ∧
    (∃ (t : Instant) (sh : Fin 48) (s : State), s.rd F.HOST_STATUS_BOOTING ≠ 0) ∧
    (∃ (t : Instant) (f : Fin 1024) (drop : Bool) (s : State), s.rd F.HOST_STATUS_BOOTING ≠ 0) ∧
    (∃ (t : Instant) (p : Fin 16) (value : Word) (s : State), s.rd F.HOST_STATUS_BOOTING ≠ 0) ∧
    (∃ (t : Instant) (p : Fin 16) (value : Word) (s : State), s.rd F.HOST_STATUS_BOOTING ≠ 0) ∧
    (∃ (t : Instant) (p : Fin 16) (value : Word) (s : State), s.rd F.HOST_STATUS_BOOTING ≠ 0) ∧
    (∃ (t : Instant) (p : Fin 16) (value : Word) (s : State), s.rd F.HOST_STATUS_BOOTING ≠ 0) ∧
    (∃ (t : Instant) (p : Fin 16) (w : Fin 16) (value : Word) (s : State), s.rd F.HOST_STATUS_BOOTING ≠ 0) ∧
    (∃ (t : Instant) (r : Fin 4) (value : Word) (s : State), s.rd F.HOST_STATUS_BOOTING ≠ 0) ∧
    (∃ (t : Instant) (r : Fin 4) (s : State), s.rd F.HOST_STATUS_BOOTING ≠ 0) ∧
    (∃ (t : Instant) (r : Fin 4) (s : State), s.rd F.HOST_STATUS_BOOTING ≠ 0) ∧
    (∃ (t : Instant) (r : Fin 4) (s : State), s.rd F.HOST_STATUS_BOOTING ≠ 0) ∧
    (∃ (t : Instant) (r : Fin 4) (value : Word) (s : State), s.rd F.HOST_STATUS_BOOTING ≠ 0) ∧
    (∃ (t : Instant) (value : Word) (s : State), s.rd F.HOST_STATUS_BOOTING ≠ 0) ∧
    (∃ (t : Instant) (value : Word) (s : State), s.rd F.HOST_STATUS_BOOTING ≠ 0) ∧
    (∃ (t : Instant) (value : Word) (s : State), s.rd F.HOST_STATUS_BOOTING ≠ 0) ∧
    (∃ (t : Instant) (value : Word) (same : Bool) (s : State), s.rd F.HOST_STATUS_BOOTING ≠ 0) ∧
    (∃ (t : Instant) (p : Fin 16) (img : StepTable) (room : Bool) (s : State), s.waiting p = []) ∧
    (∃ (t : Instant) (p : Fin 16) (img : SegImage) (room : Bool) (s : State), s.waiting p = []) ∧
    (∃ (t : Instant) (p : Fin 16) (img : DraftImg) (room : Bool) (s : State), s.waiting p = []) ∧
    (∃ (t : Instant) (p : Fin 16) (refresh : Bool) (s : State), s.waiting p = []) ∧
    (∃ (t : Instant) (p : Fin 16) (kind : Word) (index : Word) (s : State), s.waiting p = []) ∧
    (∃ (t : Instant) (m : MatrixCont) (readBack : Bool) (room : Bool) (s : State), s.waiting 16 = []) ∧
    (∃ (t : Instant) (img : SafProg) (readBack : Bool) (room : Bool) (s : State), s.waiting 16 = []) ∧
    (∃ (t : Instant) (phase : Word) (s : State), s.waiting 16 = []) ∧
    (∃ (t : Instant) (mask : BitVec 16) (s : State), s.waiting 16 = []) ∧
    (∃ (t : Instant) (r : AuthRec) (readBack : Bool) (s : State), s.waiting 16 = []) ∧
    (∃ (t : Instant) (d : Delta) (s : State), s.waiting 16 = []) ∧
    (∃ (t : Instant) (s : State), s.waiting 16 = []) ∧
    (∃ (t : Instant) (r : DebugResp) (s : State), s.waiting 16 = []) ∧
    (∃ (t : Instant) (s : State), s.waiting 16 = []) ∧
    (∃ (t : Instant) (nonce : BitVec 256) (s : State), s.waiting 16 = []) ∧
    (∃ (t : Instant) (p : Fin 16) (img : Envelope) (room : Bool) (s : State), s.waiting p = []) ∧
    (∃ (t : Instant) (p : Fin 16) (img : Program) (room : Bool) (s : State), s.waiting p = []) ∧
    (∃ (t : Instant) (p : Fin 16) (task : Word) (data : List Byte) (s : State), s.waiting p = []) ∧
    (∃ (t : Instant) (p : Fin 16) (d : BitVec 512) (s : State), s.waiting p = []) ∧
    (∃ (t : Instant) (p : Fin 16) (handle : Word) (s : State), s.waiting p = []) ∧
    (∃ (t : Instant) (p : Fin 16) (h : Fin 128) (es : List QEntry) (s : State), s.waiting p = []) ∧
    (∃ (t : Instant) (p : Fin 16) (h : Fin 128) (max : Word) (s : State), s.waiting p = []) ∧
    (∃ (t : Instant) (p : Fin 17) (offset : Word) (data : List Byte) (s : State), s.waiting p = []) :=
  ⟨⟨5, 9, State.reset, by decide +kernel⟩,
   ⟨5, 9, State.reset, by decide +kernel⟩,
   ⟨5, 1, State.reset, by decide +kernel⟩,
   ⟨5, 1, true, State.reset, by decide +kernel⟩,
   ⟨5, 1, State.reset, by decide +kernel⟩,
   ⟨5, 3, 1, State.reset, by decide +kernel⟩,
   ⟨5, 3, 0, State.reset, by decide +kernel⟩,
   ⟨5, 3, State.reset, by decide +kernel⟩,
   ⟨5, 3, State.reset, by decide +kernel⟩,
   ⟨5, 3, 4, 9, State.reset, by decide +kernel⟩,
   ⟨5, 3, 9, State.reset, by decide +kernel⟩,
   ⟨5, 3, State.reset, by decide +kernel⟩,
   ⟨5, 3, State.reset, by decide +kernel⟩,
   ⟨5, 3, State.reset, by decide +kernel⟩,
   ⟨5, 3, State.reset, by decide +kernel⟩,
   ⟨5, 3, State.reset, by decide +kernel⟩,
   ⟨5, 3, 1, State.reset, by decide +kernel⟩,
   ⟨5, 3, 1, State.reset, by decide +kernel⟩,
   ⟨5, 3, 1, State.reset, by decide +kernel⟩,
   ⟨5, 3, 1, State.reset, by decide +kernel⟩,
   ⟨5, 3, 1, State.reset, by decide +kernel⟩,
   ⟨5, 3, 1, State.reset, by decide +kernel⟩,
   ⟨5, 3, 1, State.reset, by decide +kernel⟩,
   ⟨5, 3, 1, State.reset, by decide +kernel⟩,
   ⟨5, 3, 0, State.reset, by decide +kernel⟩,
   ⟨5, 3, State.reset, by decide +kernel⟩,
   ⟨5, 3, State.reset, by decide +kernel⟩,
   ⟨5, 3, State.reset, by decide +kernel⟩,
   ⟨5, 3, State.reset, by decide +kernel⟩,
   ⟨5, 3, 1, State.reset, by decide +kernel⟩,
   ⟨5, 3, 4, State.reset, by decide +kernel⟩,
   ⟨5, 3, State.reset, by decide +kernel⟩,
   ⟨5, 3, 0, State.reset, by decide +kernel⟩,
   ⟨5, 3, State.reset, by decide +kernel⟩,
   ⟨5, 3, State.reset, by decide +kernel⟩,
   ⟨5, 3, State.reset, by decide +kernel⟩,
   ⟨5, 3, 0, State.reset, by decide +kernel⟩,
   ⟨5, 3, 0, State.reset, by decide +kernel⟩,
   ⟨5, 3, State.reset, by decide +kernel⟩,
   ⟨5, 3, State.reset, by decide +kernel⟩,
   ⟨5, 3, 1, State.reset, by decide +kernel⟩,
   ⟨5, 3, State.reset, by decide +kernel⟩,
   ⟨5, 3, State.reset, by decide +kernel⟩,
   ⟨5, 3, State.reset, by decide +kernel⟩,
   ⟨5, 3, true, State.reset, by decide +kernel⟩,
   ⟨5, 3, 1, State.reset, by decide +kernel⟩,
   ⟨5, 3, 1, State.reset, by decide +kernel⟩,
   ⟨5, 3, 1, State.reset, by decide +kernel⟩,
   ⟨5, 3, 1, State.reset, by decide +kernel⟩,
   ⟨5, 3, 4, 1, State.reset, by decide +kernel⟩,
   ⟨5, 3, 1, State.reset, by decide +kernel⟩,
   ⟨5, 3, State.reset, by decide +kernel⟩,
   ⟨5, 3, State.reset, by decide +kernel⟩,
   ⟨5, 3, State.reset, by decide +kernel⟩,
   ⟨5, 3, 1, State.reset, by decide +kernel⟩,
   ⟨5, 1, State.reset, by decide +kernel⟩,
   ⟨5, 1, State.reset, by decide +kernel⟩,
   ⟨5, 1, State.reset, by decide +kernel⟩,
   ⟨5, 1, true, State.reset, by decide +kernel⟩,
   ⟨5, 2, oneStep, true, up, by decide +kernel⟩,
   ⟨5, 2, oneSegment, true, axisUp, by decide +kernel⟩,
   ⟨5, 2, emptyDraft, true, up, by decide +kernel⟩,
   ⟨5, 2, true, up, by decide +kernel⟩,
   ⟨5, 2, 0, 0, up, by decide +kernel⟩,
   ⟨5, oneContainer, true, true, safUp 0, by decide +kernel⟩,
   ⟨5, safProg, true, true, safUp 0, by decide +kernel⟩,
   ⟨5, 0, safUp 0, by decide +kernel⟩,
   ⟨5, 0, safUp 0, by decide +kernel⟩,
   ⟨5, oneAuth 4 3 0 0, true, rootUp up, by decide +kernel⟩,
   ⟨5, oneDelta, updUp 0, by decide +kernel⟩,
   ⟨5, rootUp up, by decide +kernel⟩,
   ⟨5, oneResponse, rootUp up, by decide +kernel⟩,
   ⟨5, rootUp up, by decide +kernel⟩,
   ⟨5, 9, rootUp up, by decide +kernel⟩,
   ⟨5, 2, oneEnvelope, true, up, by decide +kernel⟩,
   ⟨5, 2, oneProgram, true, up, by decide +kernel⟩,
   ⟨5, 2, 0, [], up, by decide +kernel⟩,
   ⟨5, 2, 0x401, up, by decide +kernel⟩,
   ⟨5, 2, 0, up, by decide +kernel⟩,
   ⟨5, 2, 3, [], up, by decide +kernel⟩,
   ⟨5, 2, 3, 1, up, by decide +kernel⟩,
   ⟨5, 2, 0x10000, [1], up, by decide +kernel⟩⟩

theorem witness_ASlewFollowsItsOffset :
    (∃ (s : State), 0 < s.warp.slewLeft ∧ 1 ≤ s.rd F.SLEW_CFG ∧ s.rd F.SLEW_CFG ≤ 500) ∧
    (∃ (s : State), s.warp.slewLeft < 0 ∧ 1 ≤ s.rd F.SLEW_CFG ∧ s.rd F.SLEW_CFG ≤ 500) ∧
    (∃ (s : State), s.warp.slewLeft = 0) ∧
    (∃ (s : State), 0 < s.warp.slewLeft ∧ s.rd F.SLEW_CFG = 100) ∧
    (∃ (t : Instant) (offset : Word) (s : State), s.rd F.HOST_STATUS_BOOTING = 0) ∧
    (∃ (left : Int) (s : State), 0 < left ∧ left ≤ (2 ^ 31 - 1) * (16 * 2 ^ 40)) ∧
    (∃ (left : Int) (s : State), left < 0 ∧ -(2 ^ 31) * (16 * 2 ^ 40) ≤ left) ∧
    (∃ (t : Instant) (s : State), s.rdI F.SLEW_NS = slewNs s.warp.slewLeft ∧ s.rd F.WARP_STATUS_SLEW_ACTIVE = b2n (s.warp.slewLeft != 0)) ∧
    (∃ (t : Instant) (s : State), s.rdI F.SLEW_NS = slewNs s.warp.slewLeft ∧ s.rd F.WARP_STATUS_SLEW_ACTIVE = b2n (s.warp.slewLeft != 0)) ∧
    (∃ (s : State), s.rd F.WARP_STATUS_COARSE = 0) ∧
    (∃ (s : State), s.rd F.WARP_STATUS_COARSE = 0) ∧
    (∃ (t : Instant) (s : State), absorb (s.advance t).warp.slewLeft (s.advance t).slewShare 1 = 0) ∧
    (∃ (t : Instant) (s : State), absorb (s.advance t).warp.slewLeft (s.advance t).slewShare 1 ≠ 0) :=
  ⟨⟨up.putSlew 17592186044416000, by decide +kernel⟩,
   ⟨up.putSlew (-17592186044416000), by decide +kernel⟩,
   ⟨up, by decide +kernel⟩,
   ⟨up.putSlew 5, by decide +kernel⟩,
   ⟨5, 7, up, by decide +kernel⟩,
   ⟨1, up, by decide +kernel⟩,
   ⟨-1, up, by decide +kernel⟩,
   ⟨16000000000, up.putSlew 1759218604441600000, by decide +kernel⟩,
   ⟨16000000000, up.putSlew (-5), by decide +kernel⟩,
   ⟨(up.putSlew 5).wr F.WARP_STATUS_COARSE 0, by decide +kernel⟩,
   ⟨(up.putSlew (-17592186044416000)).wr F.WARP_STATUS_COARSE 0, by decide +kernel⟩,
   ⟨5, up.putSlew 5, by decide +kernel⟩,
   ⟨5, up.putSlew 1759218604441600000, by decide +kernel⟩⟩

theorem witness_TheEffectiveRateIsClamped :
    (∃ (t : Instant) (rate : Word) (s : State), s.rd F.HOST_STATUS_BOOTING = 0) ∧
    (∃ (t : Instant) (offset : Word) (s : State), s.rd F.HOST_STATUS_BOOTING = 0) ∧
    (∃ (t : Instant) (r : Requester) (value : Word) (s : State), s.rd F.HOST_STATUS_BOOTING = 0 ∧ s.mayWrite r = true) ∧
    (∃ (t : Instant) (s : State), s.rd F.WARP_STATUS_RATE_CLAMPED = b2n (s.rateSum != s.rate)) :=
  ⟨⟨5, 600000000, up, by decide +kernel⟩,
   ⟨5, 7, up.wr F.RATE_ADJ 549755800, by decide +kernel⟩,
   ⟨5, .pcie, 500, (up.wr F.RATE_ADJ 449755800).putSlew 17592186044416000, by decide +kernel⟩,
   ⟨16000000000, (up.wr F.RATE_ADJ 549755800).putSlew 17592186044416000, by decide +kernel⟩⟩

theorem witness_WarpStepsOrRefuses :
    (∃ (t : Instant) (value : Word) (s : State), s.rd F.HOST_STATUS_BOOTING = 0 ∧ value.getLsbD 0 = true ∧ (s.advance t).stepRefusal = 0) ∧
    (∃ (t : Instant) (value : Word) (s : State), s.rd F.HOST_STATUS_BOOTING = 0 ∧ value.getLsbD 0 = true ∧ (s.advance t).stepRefusal ≠ 0) :=
  ⟨⟨5, 3, up.wr F.STEP_TO 64, by decide +kernel⟩,
   ⟨5, 3, up.wr F.CP_STATUS_STATE 1 3, by decide +kernel⟩⟩

theorem witness_WarpMonitorsAndHoldover :
    (∃ (t : Instant) (n : Word) (s : State), n.toNat < 2 ^ 26) ∧
    (∃ (t : Instant) (m : Word) (s : State), ((s.rd F.WARP_STATUS_HOLDOVER = 0 ∨ (monitorErr m.toNat).natAbs ≤ 5000))) ∧
    (∃ (t : Instant) (m : Word) (s : State), s.rd F.WARP_STATUS_HOLDOVER ≠ 0 ∧ 5000 < (monitorErr m.toNat).natAbs) ∧
    (∃ (t : Instant) (s : State), s.rd F.WARP_STATUS_HOLDOVER ≠ 0 ∧ s.warp.relockFrom = none) ∧
    (∃ (t : Instant) (s : State) (since : Instant), s.rd F.WARP_STATUS_HOLDOVER ≠ 0 ∧ s.warp.relockFrom = some since ∧
      (s.rd F.HOLDOVER_CFG : Int) * 1000000 ≤ sinceNs (s.advance t).now since) :=
  ⟨⟨5, 300000, up, by decide +kernel⟩,
   ⟨5, 400000, up, by decide +kernel⟩,
   ⟨5, 300000, up.wr F.WARP_STATUS_HOLDOVER 1, by decide +kernel⟩,
   ⟨5, up.wr F.WARP_STATUS_HOLDOVER 1, by decide +kernel⟩,
   ⟨16000000000, { up.wr F.WARP_STATUS_HOLDOVER 1 with warp := { up.warp with relockFrom := some 0 } }, 0, by decide +kernel⟩⟩

theorem witness_WarpPinsAndStamps :
    (∃ (t : Instant) (s : State), s.rd F.PPS_OUT_CFG_EN ≠ 0 ∧ (s.advance t).now.toNat % 16 = 0 ∧
      ((nsOf (s.advance t).now : Int) - s.rdI F.PPS_OUT_OFFSET) % 1000000000 = 0) ∧
    (∃ (t : Instant) (s : State), s.warp.ppsOut = true ∧ notLater s.warp.ppsFall (s.advance t).now = true) ∧
    (∃ (t : Instant) (rising : Bool) (s : State), (rising = true ↔ s.rd F.SYNC_IN_CFG_POL = 0)) ∧
    (∃ (t : Instant) (rising : Bool) (s : State), (rising = true ↔ s.rd F.SYNC_IN_CFG_POL ≠ 0)) ∧
    (∃ (t : Instant) (e : Instant) (coarse : Bool) (s : State), s.warp.ppsEdge = some (e, coarse) ∧
      (s.rd F.SYNC_IN_CFG_MIN_NS : Int) ≤ sinceNs (s.advance t).now e) ∧
    (∃ (t : Instant) (e : Instant) (coarse : Bool) (s : State), s.warp.syncEdge = some (e, coarse) ∧
      (s.rd F.SYNC_IN_CFG_MIN_NS : Int) ≤ sinceNs (s.advance t).now e) ∧
    (∃ (t : Instant) (value : Word) (armFirst : Bool) (s : State), s.rd F.HOST_STATUS_BOOTING = 0 ∧ value.getLsbD 0 = true ∧
      ((earlier (s.advance t).now (s.rdT F.SYNC_OUT_AT) = true ∨ ((s.advance t).now = s.rdT F.SYNC_OUT_AT ∧ armFirst = true)))) ∧
    (∃ (t : Instant) (value : Word) (armFirst : Bool) (s : State), s.rd F.HOST_STATUS_BOOTING = 0 ∧ value.getLsbD 0 = true ∧
      ((earlier (s.rdT F.SYNC_OUT_AT) (s.advance t).now = true ∨ ((s.advance t).now = s.rdT F.SYNC_OUT_AT ∧ armFirst = false)))) ∧
    (∃ (t : Instant) (s : State), s.rd F.SYNC_OUT_CFG_ARM ≠ 0 ∧ (s.advance t).now = s.rdT F.SYNC_OUT_AT) ∧
    (∃ (t : Instant) (s : State), s.warp.syncOut = true ∧ notLater s.warp.syncFall (s.advance t).now = true) :=
  ⟨⟨16000000000, up.wr F.PPS_OUT_CFG_EN 1, by decide +kernel⟩,
   ⟨16, { up with warp := { up.warp with ppsOut := true } }, by decide +kernel⟩,
   ⟨5, true, up, by decide +kernel⟩,
   ⟨5, false, up, by decide +kernel⟩,
   ⟨16000, 0, false, { up with warp := { up.warp with ppsEdge := some (0, false) } }, by decide +kernel⟩,
   ⟨16000, 0, true, { up with warp := { up.warp with syncEdge := some (0, true) } }, by decide +kernel⟩,
   ⟨16, 1, true, up.wr F.SYNC_OUT_AT 16, by decide +kernel⟩,
   ⟨16, 1, false, up.wr F.SYNC_OUT_AT 16, by decide +kernel⟩,
   ⟨16, (up.wr F.SYNC_OUT_AT 16).wr F.SYNC_OUT_CFG_ARM 1, by decide +kernel⟩,
   ⟨16, { up with warp := { up.warp with syncOut := true } }, by decide +kernel⟩⟩

theorem witness_CoreVoltageController :
    (∃ (t : Instant) (s : State), (s.advance t).slackDue = true ∧ s.warp.slackLow = none) ∧
    (∃ (t : Instant) (s : State) (v : Int) (k : Nat) (id : Nat), (s.advance t).slackDue = true ∧ s.warp.slackLow = some (v, k, id)) ∧
    (∃ (t : Instant) (s : State) (v : Int) (k : Nat) (id : Nat), (s.advance t).slackDue = true ∧ s.warp.slackLow = some (v, k, id) ∧
      s.rd F.AVS_CTRL_MODE = 0 ∧ v < s.rd F.SLACK_TARGET_TARGET_NS) ∧
    (∃ (t : Instant) (s : State) (v : Int) (k : Nat) (id : Nat), (s.advance t).slackDue = true ∧ s.warp.slackLow = some (v, k, id) ∧
      s.rd F.AVS_CTRL_MODE = 0 ∧ (s.rd F.SLACK_TARGET_TARGET_NS : Int) + s.rd F.SLACK_TARGET_HYST_NS < v) ∧
    (∃ (t : Instant) (s : State) (v : Int) (k : Nat) (id : Nat), (s.advance t).slackDue = true ∧ s.warp.slackLow = some (v, k, id) ∧
      (s.rd F.AVS_CTRL_MODE ≠ 0 ∨ ((s.rd F.SLACK_TARGET_TARGET_NS : Int) ≤ v ∧
      v ≤ (s.rd F.SLACK_TARGET_TARGET_NS : Int) + s.rd F.SLACK_TARGET_HYST_NS))) ∧
    (∃ (t : Instant) (s : State) (v : Int) (k : Nat) (id : Nat), (s.advance t).slackDue = true ∧ s.warp.slackLow = some (v, k, id) ∧
      (s.rd F.AVS_CTRL_MODE ≠ 0 ∨ ((s.rd F.SLACK_TARGET_TARGET_NS : Int) ≤ v ∧
      v ≤ (s.rd F.SLACK_TARGET_TARGET_NS : Int) + s.rd F.SLACK_TARGET_HYST_NS))) ∧
    (∃ (t : Instant) (s : State), 100000 < sinceNs (s.advance t).now s.warp.avsAt) ∧
    (∃ (t : Instant) (s : State), s.warp.avsTries = 1 ∧ sinceNs (s.advance t).now s.warp.avsAt ≤ 100000) ∧
    (∃ (t : Instant) (s : State), s.warp.avsTries = 2 ∧ sinceNs (s.advance t).now s.warp.avsAt ≤ 100000) ∧
    (∃ (t : Instant) (value : Word) (s : State), s.rd F.HOST_STATUS_BOOTING = 0 ∧ value.toNat % 4 < 2) ∧
    (∃ (t : Instant) (value : Word) (s : State), s.rd F.HOST_STATUS_BOOTING = 0 ∧ value.toNat % 4 < 2) ∧
    (∃ (t : Instant) (value : Word) (s : State), s.rd F.HOST_STATUS_BOOTING = 0 ∧ 2 ≤ value.toNat % 4) :=
  ⟨⟨5, { up with warp := { up.warp with slackUs := 0 } }, by decide +kernel⟩,
   ⟨5, { up with warp := { up.warp with slackUs := 0, slackLow := some (3, 1, 2) } }, 3, 1, 2, by decide +kernel⟩,
   ⟨5, { up with warp := { up.warp with slackUs := 0, slackLow := some (3, 1, 2) } }, 3, 1, 2, by decide +kernel⟩,
   ⟨5, { up with warp := { up.warp with slackUs := 0, slackLow := some (501, 1, 2) } }, 501, 1, 2, by decide +kernel⟩,
   ⟨5, { up with warp := { up.warp with slackUs := 0, slackLow := some (500, 1, 2) } }, 500, 1, 2, by decide +kernel⟩,
   ⟨5, { up.wr F.AVS_CTRL_MODE 2 with warp := { up.warp with slackUs := 0, slackLow := some (3, 1, 2) } }, 3, 1, 2, by decide +kernel⟩,
   ⟨1600025, { up with warp := { up.warp with avsTries := 2, avsAt := 4 } }, by decide +kernel⟩,
   ⟨5, { up with warp := { up.warp with avsTries := 1 } }, by decide +kernel⟩,
   ⟨5, { up with warp := { up.warp with avsTries := 2 } }, by decide +kernel⟩,
   ⟨5, 1, up, by decide +kernel⟩,
   ⟨5, 0, up, by decide +kernel⟩,
   ⟨5, 2, up, by decide +kernel⟩⟩

theorem witness_LoopCellsEnableAndDisable :
    (∃ (t : Instant) (n : Fin 1024) (value : Word) (s : State), s.admits (lcOff n 0) = true ∧ s.rwlOpen (s.ownerLC n) = true ∧
      s.placed (loopKey n) = true ∧ s.rd F.LC_CTRL_ENABLE n = 0 ∧ ((s.advance t).lcCtrlFields n value.toNat true).cfgErr n = 0) ∧
    (∃ (t : Instant) (n : Fin 1024) (value : Word) (s : State), s.admits (lcOff n 0) = true ∧ s.rwlOpen (s.ownerLC n) = true ∧
      s.placed (loopKey n) = true ∧ s.rd F.LC_CTRL_ENABLE n = 0 ∧ ((s.advance t).lcCtrlFields n value.toNat true).cfgErr n ≠ 0) ∧
    (∃ (t : Instant) (n : Fin 1024) (value : Word) (s : State), s.admits (lcOff n 0) = true ∧ s.rd F.LC_CTRL_ENABLE n ≠ 0) ∧
    (∃ (t : Instant) (n : Fin 1024) (value : Word) (s : State), s.admits (lcOff n 0) = true ∧ s.rwlOpen (s.ownerLC n) = true) :=
  ⟨⟨5, 3, 1, placedUp, by decide +kernel⟩,
   ⟨5, 3, 1, placedUp.wr F.LC_PERIOD 0 3, by decide +kernel⟩,
   ⟨5, 3, 1, placedUp.wr F.LC_CTRL_ENABLE 1 3, by decide +kernel⟩,
   ⟨5, 3, 0, loopUp.wr F.LC_CTRL_ENABLE 1 3, by decide +kernel⟩⟩

theorem witness_LoopBanks :
    (∃ (t : Instant) (n : Fin 1024) (k : Fin 24) (value : Word) (s : State), s.admits (lcOff n (0xA0 + 4 * k)) = true ∧
      s.treadleBusy (s.ownerLC n) = false) ∧
    (∃ (t : Instant) (n : Fin 1024) (s : State), s.admits (lcOff n 0) = true ∧ s.treadleBusy (s.ownerLC n) = false) ∧
    (∃ (t : Instant) (n : Fin 1024) (s : State), s.admits (lcOff n 0) = true ∧ s.treadleBusy (s.ownerLC n) = false ∧ s.rd F.LC_CTRL_ENABLE n = 0 ∧
      s.rd F.LC_STATUS_SHADOW_VALID n ≠ 0 ∧ s.rd F.LC_STATUS_ACTIVE_BANK n < 2) ∧
    (∃ (t : Instant) (n : Fin 1024) (s : State), s.admits (lcOff n 0) = true ∧ s.treadleBusy (s.ownerLC n) = false ∧ s.rd F.LC_CTRL_ENABLE n ≠ 0 ∧
      s.rd F.LC_STATUS_SHADOW_VALID n ≠ 0) ∧
    (∃ (t : Instant) (n : Fin 1024) (s : State), s.admits (lcOff n 0) = true ∧ s.treadleBusy (s.ownerLC n) = false ∧
      s.rd F.LC_STATUS_SHADOW_VALID n = 0) ∧
    (∃ (t : Instant) (n : Fin 1024) (value : BitVec 48) (s : State), s.admits (lcOff n 0x50) = true ∧ s.rwlOpen (s.ownerLC n) = true) :=
  ⟨⟨5, 3, 4, 0x03000000, loopUp, by decide +kernel⟩,
   ⟨5, 3, loopUp, by decide +kernel⟩,
   ⟨5, 3, loopUp.wr F.LC_STATUS_SHADOW_VALID 1 3, by decide +kernel⟩,
   ⟨5, 3, (loopUp.wr F.LC_STATUS_SHADOW_VALID 1 3).wr F.LC_CTRL_ENABLE 1 3, by decide +kernel⟩,
   ⟨5, 3, loopUp, by decide +kernel⟩,
   ⟨5, 3, 77, loopUp, by decide +kernel⟩⟩

theorem witness_LoopEvaluationsAreReleasedAtTheirInstant :
    (∃ (t : Instant) (n : Fin 1024) (s : State), (s.advance t).strobesNow n = true) ∧
    (∃ (t : Instant) (n : Fin 1024) (s : State) (ev : Eval), (s.cell n).lates = [] ∧ (s.cell n).eval = some ev) ∧
    (∃ (t : Instant) (n : Fin 1024) (arith : Bool) (parity : Bool) (s : State) (r : Instant) (rest : List Instant), (s.cell n).lates = r :: rest) ∧
    (∃ (t : Instant) (n : Fin 1024) (s : State) (ev : Eval) (first : Bool), ev.due = (s.advance t).now ∧ (s.cell n).eval = some ev ∧
      (s.advance t).inTime ev.ready first = true ∧ (s.cell n).faultDue = false ∧ (s.cell n).parityDue = false ∧ ev.causes = 0 ∧ ev.event = false) ∧
    (∃ (t : Instant) (n : Fin 1024) (s : State) (ev : Eval) (first : Bool), ev.due = (s.advance t).now ∧ (s.cell n).eval = some ev ∧
      (s.advance t).inTime ev.ready first = true ∧ (s.cell n).faultDue = false ∧ (s.cell n).parityDue = false ∧ ev.causes = 0 ∧ ev.event = false) ∧
    (∃ (t : Instant) (n : Fin 1024) (s : State) (ev : Eval) (first : Bool), ev.due = (s.advance t).now ∧ (s.cell n).eval = some ev ∧
      (s.advance t).inTime ev.ready first = false ∧ (s.cell n).faultDue = false ∧ (s.cell n).parityDue = false ∧
      s.rd F.LC_SUP_STATUS_LATE_RUN n + 1 < min 15 (s.lateLimit n)) ∧
    (∃ (t : Instant) (n : Fin 1024) (s : State) (ev : Eval) (first : Bool), ev.due = (s.advance t).now ∧ (s.cell n).eval = some ev ∧
      (s.advance t).inTime ev.ready first = false ∧ (s.cell n).faultDue = false ∧ (s.cell n).parityDue = false ∧
      s.rd F.LC_SUP_STATUS_LATE_RUN n + 1 < min 15 (s.lateLimit n)) :=
  ⟨⟨16000000, 3, (loopUp.wr F.LC_CTRL_ENABLE 1 3).wrs [(F.PWR_STATUS_LOOM_ON, 0, 15), (F.WARP_STATUS_COARSE, 0, 0)], by decide +kernel⟩,
   ⟨5, 3, loopUp.putCell 3 { loopUp.cell 3 with eval := some someEval }, someEval, by decide +kernel⟩,
   ⟨500, 3, false, false, loopUp.putCell 3 { loopUp.cell 3 with lates := [16, 32] }, 16, [32], by decide +kernel⟩,
   ⟨1600000, 3, loopUp.putCell 3 { loopUp.cell 3 with eval := some someEval }, someEval, false, by decide +kernel⟩,
   ⟨1600000, 3, loopUp.putCell 3 { loopUp.cell 3 with eval := some { someEval with ready := some 1600000 } }, { someEval with ready := some 1600000 }, true, by decide +kernel⟩,
   ⟨1600000, 3, (loopUp.putCell 3 { loopUp.cell 3 with eval := some { someEval with ready := none } }).wr F.LC_SUP_CFG_LATE_LIMIT 4 3, { someEval with ready := none }, false, by decide +kernel⟩,
   ⟨1600000, 3, (loopUp.putCell 3 { loopUp.cell 3 with eval := some { someEval with ready := some 1600000 } }).wr F.LC_SUP_CFG_LATE_LIMIT 4 3, { someEval with ready := some 1600000 }, false, by decide +kernel⟩⟩

theorem witness_LoopEventMode :
    (∃ (t : Instant) (ain : Fin 96) (rise : Bool) (s : State) (n : Nat), s.eventCell ain = some n ∧ (s.advance t).mayMove n rise = true) ∧
    (∃ (t : Instant) (ain : Fin 96) (rise : Bool) (s : State) (n : Nat), s.eventCell ain = some n ∧ (s.advance t).mayMove n rise = false) ∧
    (∃ (t : Instant) (ain : Fin 96) (rise : Bool) (s : State) (n : Nat), s.eventCell ain = some n) ∧
    (∃ (t : Instant) (n : Fin 1024) (s : State), (s.cell n).tripRise = true ∧ (s.advance t).mayMove n true = true) ∧
    (∃ (t : Instant) (n : Fin 1024) (s : State), (s.cell n).tripFall = true ∧ (s.advance t).mayMove n true = false ∧
      (s.advance t).mayMove n false = true) ∧
    (∃ (t : Instant) (pin : Fin 192) (s : State) (r : PwmRun), (s.pin pin).pwm = some r ∧ (s.pin pin).nextPwm = none ∧
      ((∀ e ∈ s.recsOf 4 1, s.cfg e.1 0 4 % 256 = pin → s.cfg e.1 8 1 = 3 ∨ s.cfg e.1 8 1 = 4))) ∧
    (∃ (t : Instant) (pin : Fin 192) (s : State) (r : PwmRun), (s.pin pin).nextPwm = some r ∧ notLater r.start (s.advance t).now = true ∧
      ((∀ e ∈ s.recsOf 4 1, s.cfg e.1 0 4 % 256 = pin → s.cfg e.1 8 1 = 3 ∨ s.cfg e.1 8 1 = 4))) :=
  ⟨⟨5, 7, true, ((loopUp.wrs [(F.LC_STATUS_EVT_ARMED, 3, 1), (F.LC_SRC_Y_ID, 3, 7)]).putCell 3 { loopUp.cell 3 with codes := [(0, 0), (0, 0)] }), 3, by decide +kernel⟩,
   ⟨5, 7, true, (loopUp.wrs [(F.LC_STATUS_EVT_ARMED, 3, 1), (F.LC_SRC_Y_ID, 3, 7)]), 3, by decide +kernel⟩,
   ⟨5, 7, true, (loopUp.wrs [(F.LC_STATUS_EVT_ARMED, 3, 1), (F.LC_SRC_Y_ID, 3, 7)]), 3, by decide +kernel⟩,
   ⟨5, 3, ((loopUp.wrs [(F.LC_STATUS_EVT_ARMED, 3, 1), (F.LC_SRC_Y_ID, 3, 7)]).putCell 3 { loopUp.cell 3 with codes := [(0, 0), (0, 0)], tripRise := true }), by decide +kernel⟩,
   ⟨5, 3, ((loopUp.wrs [(F.LC_STATUS_EVT_ARMED, 3, 1), (F.LC_SRC_Y_ID, 3, 7)]).putCell 3 { loopUp.cell 3 with j := 1, codes := [(0, 0), (0, 0)], tripFall := true }), by decide +kernel⟩,
   ⟨1600, 9, up.putPin 9 { FioPin.init with pwm := some ⟨0, 1000, 500, true, false⟩ }, ⟨0, 1000, 500, true, false⟩, by decide +kernel⟩,
   ⟨1600, 9, up.putPin 9 { FioPin.init with nextPwm := some ⟨0, 1000, 500, true, false⟩ }, ⟨0, 1000, 500, true, false⟩, by decide +kernel⟩⟩

theorem witness_ConvertersAndTheirRotation :
    (∃ (t : Instant) (ain : Fin 96) (raw : BitVec 16) (spareRaw : BitVec 16) (s : State), s.nextHeld (ain.val / 4) = some ain.val ∧
      (s.ainOf ain).readers = []) ∧
    (∃ (t : Instant) (ain : Fin 96) (raw : BitVec 16) (spareRaw : BitVec 16) (s : State), s.nextHeld (ain.val / 4) ≠ some ain.val) ∧
    (∃ (t : Instant) (s : State), s.rot.slotAt.all (fun b => decide ((s.rotNs : Int) ≤ sinceNs (s.advance t).now b)) = true ∧
      s.rd F.ANA_ROT_CFG_ROT_EN ≠ 0 ∧ s.rd F.ANA_ROT_STATUS_SPARE_BAD = 0 ∧ s.rot.slot = none ∧ s.rot.calibrating = none ∧ s.rot.queue = []) ∧
    (∃ (t : Instant) (raw : BitVec 16) (spareRaw : BitVec 16) (s : State) (g : Nat) (k : Nat) (ok : Bool), s.rot.slot = some (g, k, ok) ∧
      (s.advance t).mayFreeze (4 * g + s.rot.own % 4) = true ∧ k + 1 < 8) ∧
    (∃ (t : Instant) (raw : BitVec 16) (spareRaw : BitVec 16) (s : State) (g : Nat), g < 24 ∧ s.rot.slot = some (g, 7, true) ∧
      (s.advance t).mayFreeze (4 * g + s.rot.own % 4) = true ∧
      ((calibrate (s.converter (s.serving g)) raw.toNat : Int) - calibrate (s.converter (s.rd F.ANA_ROT_STATUS_SPARE)) spareRaw.toNat).natAbs ≤ s.rd F.ANA_ROT_CFG_XCHK_LSB) ∧
    (∃ (t : Instant) (gain : BitVec 16) (offs : BitVec 16) (s : State) (v : Nat), s.rot.calibrating = some v ∧ v < 25 ∧ 14746 ≤ gain.toNat ∧
      gain.toNat ≤ 18022 ∧ offs.toInt.natAbs ≤ 512) ∧
    (∃ (t : Instant) (gain : BitVec 16) (offs : BitVec 16) (s : State) (v : Nat), s.rot.calibrating = some v ∧ ((gain.toNat < 14746 ∨
      18022 < gain.toNat ∨ 512 < offs.toInt.natAbs))) ∧
    (∃ (t : Instant) (conv : Fin 25) (s : State), s.admits 0x240008 = true ∧ s.rd F.ANA_ROT_STATUS_SPARE ≠ conv ∧ s.rot.calibrating ≠ some conv.val ∧
      s.rot.queue.contains conv.val = false ∧ s.rot.queue.length < 25) :=
  ⟨⟨1600, 9, 500, 600, { up with ain := up.ain.set 9 { Ain.init with held := some 0 } }, by decide +kernel⟩,
   ⟨1600, 9, 500, 600, { up with ain := (up.ain.set 9 { Ain.init with held := some 16 }).set 8 { Ain.init with held := some 16 } }, by decide +kernel⟩,
   ⟨5, (up.wr F.ANA_ROT_CFG_ROT_EN 1).wr F.ANA_ROT_STATUS_SPARE_BAD 0, by decide +kernel⟩,
   ⟨5, 500, 500, { up with rot := { up.rot with slot := some (2, 0, true) } }, 2, 0, true, by decide +kernel⟩,
   ⟨5, 500, 500, { up with rot := { up.rot with slot := some (2, 7, true) } }, 2, by decide +kernel⟩,
   ⟨5, 16384, 3, { up with rot := { up.rot with calibrating := some 24 } }, 24, by decide +kernel⟩,
   ⟨5, 1, 3, { up with rot := { up.rot with calibrating := some 24 } }, 24, by decide +kernel⟩,
   ⟨5, 2, up.wr F.ANA_ROT_STATUS_SPARE 24, by decide +kernel⟩⟩

theorem witness_LoopFaultsSubstitutionAndSelfTest :
    (∃ (t : Instant) (n : Fin 1024) (s : State), s.rd F.LC_CTRL_ENABLE n ≠ 0 ∧ s.rd F.LC_SUP_STATUS_SUP_STATE n ≠ 3) ∧
    (∃ (t : Instant) (n : Fin 1024) (s : State), s.admits (lcOff n 0x9C) = true ∧ s.rwlOpen (s.ownerLC n) = true ∧
      s.rd F.LC_SUP_STATUS_SUP_STATE n = 3) ∧
    (∃ (t : Instant) (n : Fin 1024) (s : State), s.admits (lcOff n 0x9C) = true ∧ s.rwlOpen (s.ownerLC n) = false) ∧
    (∃ (t : Instant) (n : Fin 1024) (s : State), s.admits (lcOff n 0x9C) = true ∧ s.rd F.LC_SUP_STATUS_SUP_STATE n = 2 ∧ s.subEnding n = false ∧
      s.nr n ≤ s.rd F.LC_SUP_STATUS_OK_RUN n) ∧
    (∃ (t : Instant) (n : Fin 1024) (s : State), s.admits (lcOff n 0x9C) = true ∧ ((s.rd F.LC_SUP_STATUS_SUP_STATE n = 3 ∨ s.subEnding n = true ∨
      s.rd F.LC_SUP_STATUS_OK_RUN n < s.nr n))) ∧
    (∃ (t : Instant) (n : Fin 1024) (s : State), s.admits (lcOff n 0x9C) = true ∧ s.rd F.LC_DIAG_ST_STATE n ≠ 2) ∧
    (∃ (t : Instant) (n : Fin 1024) (s : State), s.rd F.LC_DIAG_ST_STATE n = 1 ∧ s.selfTestOk n = true) ∧
    (∃ (t : Instant) (n : Fin 1024) (fail : Fin 5) (s : State), s.rd F.LC_DIAG_ST_STATE n = 2) ∧
    (∃ (t : Instant) (n : Fin 1024) (s : State), s.admits (lcOff n 0x9C) = true ∧ s.rd F.LC_DIAG_ST_STATE n = 1) :=
  ⟨⟨5, 3, loopUp.wr F.LC_CTRL_ENABLE 1 3, by decide +kernel⟩,
   ⟨5, 3, loopUp.wr F.LC_SUP_STATUS_SUP_STATE 3 3, by decide +kernel⟩,
   ⟨5, 3, loopUp.wr F.CP_STATUS_STATE 1 2, by decide +kernel⟩,
   ⟨5, 3, (loopUp.wr F.LC_SUP_STATUS_SUP_STATE 2 3).wr F.LC_SUP_STATUS_OK_RUN 200 3, by decide +kernel⟩,
   ⟨5, 3, loopUp, by decide +kernel⟩,
   ⟨5, 3, loopUp, by decide +kernel⟩,
   ⟨5, 3, loopUp.wr F.LC_DIAG_ST_STATE 1 3, by decide +kernel⟩,
   ⟨5, 3, 4, loopUp.wr F.LC_DIAG_ST_STATE 2 3, by decide +kernel⟩,
   ⟨5, 3, loopUp.wr F.LC_DIAG_ST_STATE 1 3, by decide +kernel⟩⟩

theorem witness_TreadleTablesLoadOrAreRefused :
    (∃ (t : Instant) (p : Fin 16) (img : StepTable) (s : State), s.mayExecute 1 p anyArgs = true ∧ s.tableResult p img = 0) ∧
    (∃ (t : Instant) (p : Fin 16) (img : StepTable) (s : State), s.mayExecute 1 p anyArgs = true ∧ s.tableResult p img ≠ 0) :=
  ⟨⟨5, 2, oneStep, tableUp, by decide +kernel⟩,
   ⟨5, 3, oneStep, up.sent 3 1 0 0, by decide +kernel⟩⟩

theorem witness_TreadleCommandsActOrAreRefused :
    (∃ (t : Instant) (p : Fin 16) (value : Word) (s : State), s.admits (0x300000 + 0x100 * p.val) = true ∧ value.toNat % 32 = 1 ∧
      value.toNat / 2 ^ 8 % 4 = 0 ∧ s.rd F.TR_STATUS_STATE p = 0 ∧ s.rd F.TR_STATUS_TABLE_OK p ≠ 0 ∧ s.rd F.TR_STATUS_FAULT p = 0 ∧
      s.rd F.CP_STATUS_STATE p = 1 ∧ s.rd F.LP_STATUS_FRAME_LOST p = 0 ∧ ((s.rdT F.TR_START_AT p = 0 ∨
      earlier (s.advance t).now (s.rdT F.TR_START_AT p) = true)) ∧ (s.treadle p).table ≠ none ∧
      (if value.toNat / 2 ^ 16 = 0xFFFF then s.rd F.TR_ENTRY_ENTRY_STEP p else value.toNat / 2 ^ 16) < s.rd F.TR_LOAD_STEP_COUNT p) ∧
    (∃ (t : Instant) (p : Fin 16) (value : Word) (s : State), s.admits (0x300000 + 0x100 * p.val) = true ∧ value.toNat % 32 = 1 ∧
      value.toNat / 2 ^ 8 % 4 = 0 ∧ s.rd F.TR_STATUS_STATE p = 0 ∧ s.rd F.TR_STATUS_TABLE_OK p ≠ 0 ∧ s.rd F.TR_STATUS_FAULT p = 0 ∧
      s.rd F.CP_STATUS_STATE p = 1 ∧ s.rd F.LP_STATUS_FRAME_LOST p = 0 ∧ ((s.rdT F.TR_START_AT p = 0 ∨
      earlier (s.advance t).now (s.rdT F.TR_START_AT p) = true)) ∧ (s.treadle p).table ≠ none ∧
      (if value.toNat / 2 ^ 16 = 0xFFFF then s.rd F.TR_ENTRY_ENTRY_STEP p else value.toNat / 2 ^ 16) < s.rd F.TR_LOAD_STEP_COUNT p) ∧
    (∃ (t : Instant) (p : Fin 16) (value : Word) (s : State), s.admits (0x300000 + 0x100 * p.val) = true ∧ value.toNat % 32 = 1 ∧
      value.toNat / 2 ^ 8 % 4 = s.rd F.TR_STATUS_STATE p ∧ (s.rd F.TR_STATUS_STATE p ≠ 0 ∨ s.rd F.TR_STATUS_TABLE_OK p = 0 ∨
      s.rd F.TR_STATUS_FAULT p ≠ 0 ∨ s.rd F.CP_STATUS_STATE p ≠ 1 ∨ s.rd F.LP_STATUS_FRAME_LOST p ≠ 0 ∨
      (s.rdT F.TR_START_AT p ≠ 0 ∧
      notLater (s.rdT F.TR_START_AT p) (s.advance t).now = true) ∨
      s.rd F.TR_LOAD_STEP_COUNT p ≤ (if value.toNat / 2 ^ 16 = 0xFFFF then s.rd F.TR_ENTRY_ENTRY_STEP p else value.toNat / 2 ^ 16))) ∧
    (∃ (t : Instant) (p : Fin 16) (value : Word) (s : State), s.admits (0x300000 + 0x100 * p.val) = true ∧ value.toNat % 32 = 1 ∧
      value.toNat / 2 ^ 8 % 4 = s.rd F.TR_STATUS_STATE p ∧ (s.rd F.TR_STATUS_STATE p ≠ 0 ∨ s.rd F.TR_STATUS_TABLE_OK p = 0 ∨
      s.rd F.TR_STATUS_FAULT p ≠ 0 ∨ s.rd F.CP_STATUS_STATE p ≠ 1 ∨ s.rd F.LP_STATUS_FRAME_LOST p ≠ 0 ∨
      (s.rdT F.TR_START_AT p ≠ 0 ∧
      notLater (s.rdT F.TR_START_AT p) (s.advance t).now = true) ∨
      s.rd F.TR_LOAD_STEP_COUNT p ≤ (if value.toNat / 2 ^ 16 = 0xFFFF then s.rd F.TR_ENTRY_ENTRY_STEP p else value.toNat / 2 ^ 16))) ∧
    (∃ (t : Instant) (p : Fin 16) (value : Word) (s : State), s.admits (0x300000 + 0x100 * p.val) = true ∧ value.toNat % 32 = 1 ∧
      value.toNat / 2 ^ 8 % 4 = s.rd F.TR_STATUS_STATE p ∧ (s.rd F.TR_STATUS_STATE p ≠ 0 ∨ s.rd F.TR_STATUS_TABLE_OK p = 0 ∨
      s.rd F.TR_STATUS_FAULT p ≠ 0 ∨ s.rd F.CP_STATUS_STATE p ≠ 1 ∨ s.rd F.LP_STATUS_FRAME_LOST p ≠ 0 ∨
      (s.rdT F.TR_START_AT p ≠ 0 ∧
      notLater (s.rdT F.TR_START_AT p) (s.advance t).now = true) ∨
      s.rd F.TR_LOAD_STEP_COUNT p ≤ (if value.toNat / 2 ^ 16 = 0xFFFF then s.rd F.TR_ENTRY_ENTRY_STEP p else value.toNat / 2 ^ 16))) ∧
    (∃ (t : Instant) (p : Fin 16) (value : Word) (s : State), s.admits (0x300000 + 0x100 * p.val) = true ∧ value.toNat % 32 = 2 ∧
      value.toNat / 2 ^ 8 % 4 = 1 ∧ s.rd F.TR_STATUS_STATE p = 1 ∧ (s.treadle p).due = none) ∧
    (∃ (t : Instant) (p : Fin 16) (value : Word) (s : State), s.admits (0x300000 + 0x100 * p.val) = true ∧ value.toNat % 32 = 2 ∧
      value.toNat / 2 ^ 8 % 4 = s.rd F.TR_STATUS_STATE p ∧ ((s.rd F.TR_STATUS_STATE p = 2 ∨ (s.rd F.TR_STATUS_STATE p = 1 ∧
      (s.treadle p).due ≠ none)))) ∧
    (∃ (t : Instant) (p : Fin 16) (value : Word) (s : State), s.admits (0x300000 + 0x100 * p.val) = true ∧ value.toNat % 32 = 2 ∧
      value.toNat / 2 ^ 8 % 4 = s.rd F.TR_STATUS_STATE p ∧ ((s.rd F.TR_STATUS_STATE p = 2 ∨ (s.rd F.TR_STATUS_STATE p = 1 ∧
      (s.treadle p).due ≠ none)))) ∧
    (∃ (t : Instant) (p : Fin 16) (value : Word) (s : State), s.admits (0x300000 + 0x100 * p.val) = true ∧ value.toNat % 32 = 4 ∧
      value.toNat / 2 ^ 8 % 4 = 2 ∧ s.rd F.TR_STATUS_STATE p = 2 ∧ s.rd F.TR_STATUS_PAUSE_CAUSE p % 2 = 0) ∧
    (∃ (t : Instant) (p : Fin 16) (value : Word) (s : State), s.admits (0x300000 + 0x100 * p.val) = true ∧ value.toNat % 32 = 4 ∧
      value.toNat / 2 ^ 8 % 4 = 2 ∧ s.rd F.TR_STATUS_STATE p = 2 ∧ s.rd F.TR_STATUS_PAUSE_CAUSE p % 2 = 1) ∧
    (∃ (t : Instant) (p : Fin 16) (value : Word) (s : State), s.admits (0x300000 + 0x100 * p.val) = true ∧ value.toNat % 32 = 8 ∧
      value.toNat / 2 ^ 8 % 4 = s.rd F.TR_STATUS_STATE p ∧ ((s.rd F.TR_STATUS_STATE p = 1 ∨ s.rd F.TR_STATUS_STATE p = 2)) ∧
      (s.treadle p).table ≠ none) ∧
    (∃ (t : Instant) (p : Fin 16) (value : Word) (s : State), s.admits (0x300000 + 0x100 * p.val) = true ∧ value.toNat % 32 = 8 ∧
      value.toNat / 2 ^ 8 % 4 = s.rd F.TR_STATUS_STATE p ∧ ((s.rd F.TR_STATUS_STATE p = 1 ∨ s.rd F.TR_STATUS_STATE p = 2)) ∧
      (s.treadle p).table ≠ none) ∧
    (∃ (t : Instant) (p : Fin 16) (value : Word) (s : State), s.admits (0x300000 + 0x100 * p.val) = true ∧ value.toNat % 32 = 8 ∧
      value.toNat / 2 ^ 8 % 4 = 3 ∧ s.rd F.TR_STATUS_STATE p = 3) ∧
    (∃ (t : Instant) (p : Fin 16) (value : Word) (s : State), s.admits (0x300000 + 0x100 * p.val) = true ∧ value.toNat % 32 = 16 ∧
      value.toNat / 2 ^ 8 % 4 = 0 ∧ s.rd F.TR_STATUS_STATE p = 0 ∧ s.rd F.TR_STATUS_FAULT p ≠ 0) ∧
    (∃ (t : Instant) (p : Fin 16) (value : Word) (s : State), s.admits (0x300000 + 0x100 * p.val) = true ∧ value.toNat % 32 = 1 ∧
      value.toNat / 2 ^ 8 % 4 ≠ s.rd F.TR_STATUS_STATE p) ∧
    (∃ (t : Instant) (p : Fin 16) (value : Word) (s : State), s.admits (0x300000 + 0x100 * p.val) = true ∧ bitOf value.toNat 0 = true ∧
      value.toNat % 32 ≠ 1) ∧
    (∃ (t : Instant) (p : Fin 16) (value : Word) (s : State), s.admits (0x300000 + 0x100 * p.val) = true ∧ value.toNat % 32 = 2 ∧
      value.toNat / 2 ^ 8 % 4 ≠ s.rd F.TR_STATUS_STATE p) ∧
    (∃ (t : Instant) (p : Fin 16) (value : Word) (s : State), s.admits (0x300000 + 0x100 * p.val) = true ∧ bitOf value.toNat 1 = true ∧
      value.toNat % 32 ≠ 2) ∧
    (∃ (t : Instant) (p : Fin 16) (value : Word) (s : State), s.admits (0x300000 + 0x100 * p.val) = true ∧ value.toNat % 32 = 4 ∧
      value.toNat / 2 ^ 8 % 4 ≠ s.rd F.TR_STATUS_STATE p) ∧
    (∃ (t : Instant) (p : Fin 16) (value : Word) (s : State), s.admits (0x300000 + 0x100 * p.val) = true ∧ bitOf value.toNat 2 = true ∧
      value.toNat % 32 ≠ 4) ∧
    (∃ (t : Instant) (p : Fin 16) (value : Word) (s : State), s.admits (0x300000 + 0x100 * p.val) = true ∧ value.toNat % 32 = 8 ∧
      value.toNat / 2 ^ 8 % 4 ≠ s.rd F.TR_STATUS_STATE p) ∧
    (∃ (t : Instant) (p : Fin 16) (value : Word) (s : State), s.admits (0x300000 + 0x100 * p.val) = true ∧ bitOf value.toNat 3 = true ∧
      value.toNat % 32 ≠ 8) ∧
    (∃ (t : Instant) (p : Fin 16) (value : Word) (s : State), s.admits (0x300000 + 0x100 * p.val) = true ∧ value.toNat % 32 = 16 ∧
      value.toNat / 2 ^ 8 % 4 ≠ s.rd F.TR_STATUS_STATE p) ∧
    (∃ (t : Instant) (p : Fin 16) (value : Word) (s : State), s.admits (0x300000 + 0x100 * p.val) = true ∧ bitOf value.toNat 4 = true ∧
      value.toNat % 32 ≠ 16) :=
  ⟨⟨5, 2, 1, stepUp.wr F.TR_START_AT 3200 2, by decide +kernel⟩,
   ⟨5, 2, 0xFFFF0001, stepUp, by decide +kernel⟩,
   ⟨5, 2, 0x101, stepUp.wr F.TR_STATUS_STATE 1 2, by decide +kernel⟩,
   ⟨5, 2, 1, stepUp.wr F.TR_START_AT 5 2, by decide +kernel⟩,
   ⟨5, 2, 0x10001, stepUp, by decide +kernel⟩,
   ⟨5, 2, 0x102, stepUp.wr F.TR_STATUS_STATE 1 2, by decide +kernel⟩,
   ⟨5, 2, 0x202, stepUp.wr F.TR_STATUS_STATE 2 2, by decide +kernel⟩,
   ⟨5, 2, 0x102, (stepUp.wr F.TR_STATUS_STATE 1 2).putTreadle 2 { stepUp.treadle 2 with due := some (1600, .commit) }, by decide +kernel⟩,
   ⟨5, 2, 0x204, (stepUp.wr F.TR_STATUS_STATE 2 2).wr F.TR_STATUS_PAUSE_CAUSE 2 2, by decide +kernel⟩,
   ⟨5, 2, 0x204, (stepUp.wr F.TR_STATUS_STATE 2 2).wr F.TR_STATUS_PAUSE_CAUSE 3 2, by decide +kernel⟩,
   ⟨5, 2, 0x108, stepUp.wr F.TR_STATUS_STATE 1 2, by decide +kernel⟩,
   ⟨5, 2, 0x208, stepUp.wr F.TR_STATUS_STATE 2 2, by decide +kernel⟩,
   ⟨5, 2, 0x308, stepUp.wr F.TR_STATUS_STATE 3 2, by decide +kernel⟩,
   ⟨5, 2, 16, stepUp.wr F.TR_STATUS_FAULT 1 2, by decide +kernel⟩,
   ⟨5, 2, 1, stepUp.wr F.TR_STATUS_STATE 1 2, by decide +kernel⟩,
   ⟨5, 2, 31, stepUp, by decide +kernel⟩,
   ⟨5, 2, 2, stepUp.wr F.TR_STATUS_STATE 1 2, by decide +kernel⟩,
   ⟨5, 2, 31, stepUp, by decide +kernel⟩,
   ⟨5, 2, 4, stepUp.wr F.TR_STATUS_STATE 1 2, by decide +kernel⟩,
   ⟨5, 2, 31, stepUp, by decide +kernel⟩,
   ⟨5, 2, 8, stepUp.wr F.TR_STATUS_STATE 1 2, by decide +kernel⟩,
   ⟨5, 2, 31, stepUp, by decide +kernel⟩,
   ⟨5, 2, 16, stepUp.wr F.TR_STATUS_STATE 1 2, by decide +kernel⟩,
   ⟨5, 2, 31, stepUp, by decide +kernel⟩⟩

theorem witness_TreadleStepsDecideStageAndCommit :
    (∃ (t : Instant) (p : Fin 16) (s : State) (i : Fin 4), s.rd F.TR_STATUS_STATE p = 1 ∧ (s.treadle p).due = none ∧
      (s.treadle p).lastEval ≠ some (s.advance t).now ∧ onGrid (s.tickNs p) 0 (s.advance t).now = true ∧
      ((s.curStep p).ends.getD i EndCond.none).kind = 1 ∧ 16 * (((s.curStep p).ends.getD i EndCond.none).arg - s.tickNs p) ≤ (s.advance t).tau p) ∧
    (∃ (t : Instant) (p : Fin 16) (s : State) (i : Fin 4), s.rd F.TR_STATUS_STATE p = 1 ∧ (s.treadle p).due = none ∧
      (s.treadle p).lastEval ≠ some (s.advance t).now ∧ ((s.curStep p).ends.getD i EndCond.none).kind = 1 ∧
      16 * (((s.curStep p).ends.getD i EndCond.none).arg - s.tickNs p) ≤ (s.advance t).tau p) ∧
    (∃ (t : Instant) (p : Fin 16) (s : State), (s.treadle p).due = some ((s.advance t).now, .finish) ∧ s.rd F.TR_STATUS_STATE p = 1) ∧
    (∃ (t : Instant) (p : Fin 16) (s : State), (s.treadle p).due = some ((s.advance t).now, .stop) ∧ s.rd F.TR_STATUS_STATE p = 1) ∧
    (∃ (t : Instant) (p : Fin 16) (s : State) (x : Staging), (s.treadle p).table ≠ none ∧ (s.treadle p).staging = some x ∧ x.finished = true ∧
      x.invalid = false ∧ (s.treadle p).due = some ((s.advance t).now, .commit) ∧ (s.treadle p).boundary = (s.advance t).now) ∧
    (∃ (t : Instant) (p : Fin 16) (s : State) (x : Staging), (s.treadle p).table ≠ none ∧ (s.treadle p).staging = some x ∧ x.finished = true ∧
      x.invalid = true ∧ s.rd F.TR_STATUS_STATE p = 1 ∧ (s.treadle p).due = some ((s.advance t).now, .commit)) ∧
    (∃ (t : Instant) (p : Fin 16) (s : State) (x : Staging), (s.treadle p).table ≠ none ∧ (s.treadle p).staging = some x ∧ x.finished = false ∧
      x.cells.all (fun n => s.on F.LC_STATUS_SHADOW_VALID n) = true) ∧
    (∃ (t : Instant) (p : Fin 16) (s : State) (x : Staging), (s.treadle p).table ≠ none ∧ (s.treadle p).staging = some x ∧ x.finished = true ∧
      x.invalid = false ∧ (s.treadle p).due = some ((s.advance t).now, .commit)) ∧
    (∃ (t : Instant) (p : Fin 16) (s : State) (x : Staging), (s.treadle p).table ≠ none ∧ (s.treadle p).staging = some x ∧ x.finished = false ∧
      x.missed = false ∧ (s.treadle p).due = some ((s.advance t).now, .commit)) :=
  ⟨⟨16000000, 2, stepUp.wr F.TR_STATUS_STATE 1 2, 0, by decide +kernel⟩,
   ⟨16000001, 2, stepUp.wr F.TR_STATUS_STATE 1 2, 0, by decide +kernel⟩,
   ⟨1600, 2, (stepUp.wr F.TR_STATUS_STATE 1 2).putTreadle 2 { stepUp.treadle 2 with due := some (1600, .finish) }, by decide +kernel⟩,
   ⟨1600, 2, (stepUp.wr F.TR_STATUS_STATE 1 2).putTreadle 2 { stepUp.treadle 2 with due := some (1600, .stop) }, by decide +kernel⟩,
   ⟨1600, 2, (stepUp.wr F.TR_STATUS_STATE 1 2).putTreadle 2 { stepUp.treadle 2 with due := some (1600, .commit), boundary := 1600, staging := some staged0 }, staged0, by decide +kernel⟩,
   ⟨1600, 2, (stepUp.wr F.TR_STATUS_STATE 1 2).putTreadle 2 { stepUp.treadle 2 with due := some (1600, .commit), staging := some { staged0 with invalid := true } }, { staged0 with invalid := true }, by decide +kernel⟩,
   ⟨1600, 2, stepUp.putTreadle 2 { stepUp.treadle 2 with staging := some { staged0 with finished := false } }, { staged0 with finished := false }, by decide +kernel⟩,
   ⟨1600, 2, (stepUp.wr F.TR_STATUS_STATE 1 2).putTreadle 2 { stepUp.treadle 2 with due := some (1600, .commit), staging := some staged0 }, staged0, by decide +kernel⟩,
   ⟨1600, 2, (stepUp.wr F.TR_STATUS_STATE 1 2).putTreadle 2 { stepUp.treadle 2 with due := some (1600, .commit), staging := some { staged0 with finished := false } }, { staged0 with finished := false }, by decide +kernel⟩⟩

theorem witness_ProfileGeneratorsFollowTheirTarget :
    (∃ (t : Instant) (n : Fin 256) (value : Word) (s : State), s.admits (pgOff n 0) = true ∧ s.rwlOpen (s.ownerPG n) = true ∧ value.toNat % 2 = 1 ∧
      s.rd F.PG_CTRL n = 0 ∧ 1000 ≤ s.rd F.PG_PERIOD n ∧ s.rd F.PG_PERIOD n ≤ 1000000000 ∧ s.rd F.PG_PHASE n < s.rd F.PG_PERIOD n) ∧
    (∃ (t : Instant) (n : Fin 256) (value : Word) (s : State), s.admits (pgOff n 0) = true ∧ s.rwlOpen (s.ownerPG n) = true ∧ value.toNat % 2 = 0) ∧
    (∃ (t : Instant) (n : Fin 256) (s : State), s.rd F.PG_CTRL n ≠ 0 ∧ s.quadOn (n / 64) = true ∧ s.rd F.WARP_STATUS_COARSE = 0 ∧
      onGrid (s.rd F.PG_PERIOD n) (s.rd F.PG_PHASE n) (s.advance t).now = true ∧ s.rd F.PG_STATUS_HELD n = 0 ∧ (s.gen n).jump = none ∧
      (s.gen n).limits = none) ∧
    (∃ (t : Instant) (n : Fin 256) (value : Word) (s : State), s.admits (pgOff n 0x14) = true ∧ s.treadleBusy (s.ownerPG n) = false) ∧
    (∃ (t : Instant) (n : Fin 256) (value : Word) (s : State), s.admits (pgOff n 0x14) = true ∧ s.treadleBusy (s.ownerPG n) = true) :=
  ⟨⟨5, 6, 1, up.wr F.PG_PERIOD 1000 6, by decide +kernel⟩,
   ⟨5, 6, 0, up.wr F.PG_CTRL 1 6, by decide +kernel⟩,
   ⟨16000, 6, up.wrs [(F.PG_PERIOD, 6, 1000), (F.PG_CTRL, 6, 1), (F.PWR_STATUS_LOOM_ON, 0, 15), (F.WARP_STATUS_COARSE, 0, 0)], by decide +kernel⟩,
   ⟨5, 6, 77, up, by decide +kernel⟩,
   ⟨5, 0, 77, (ownRec up (genKey 0) 2 0).wr F.TR_STATUS_STATE 1 2, by decide +kernel⟩⟩

theorem witness_AxisHostCommandsActOnTheEngine :
    (∃ (t : Instant) (n : Fin 128) (value : Word) (s : State), s.admits (axOff n) = true ∧ s.rwlOpen (s.ownerAX n) = true ∧
      s.rd F.AX_CTRL_ENABLE n = 0 ∧ s.axCfgErr n = 0) ∧
    (∃ (t : Instant) (n : Fin 128) (value : Word) (s : State), s.admits (axOff n) = true ∧ s.rwlOpen (s.ownerAX n) = true ∧
      s.rd F.AX_CTRL_ENABLE n = 0 ∧ s.axCfgErr n ≠ 0) ∧
    (∃ (t : Instant) (n : Fin 128) (value : Word) (s : State), s.admits (axOff n) = true ∧ s.rwlOpen (s.ownerAX n) = true) ∧
    (∃ (t : Instant) (n : Fin 128) (s : State), s.admits (axOff n) = true ∧ (s.ownerAX n).any (fun p => s.rd F.TR_STATUS_STATE p != 0) = false ∧
      s.rd F.AX_CTRL_ENABLE n ≠ 0 ∧ (s.axis n).halted = false ∧ (s.axis n).isStop = false ∧ (s.axis n).traj = []) ∧
    (∃ (t : Instant) (n : Fin 128) (s : State), s.admits (axOff n) = true ∧ (s.ownerAX n).any (fun p => s.rd F.TR_STATUS_STATE p != 0) = true) ∧
    (∃ (t : Instant) (n : Fin 128) (s : State), s.admits (axOff n) = true ∧ ((((s.advance t).axUpdate n).axState n = 2 ∨
      ((s.advance t).axUpdate n).axState n = 4))) ∧
    (∃ (t : Instant) (n : Fin 128) (s : State), s.admits (axOff n) = true ∧ ((s.advance t).axUpdate n).axState n = 1 ∧
      (s.ownerAX n).any (fun p => s.rd F.TR_STATUS_STATE p != 0) = false ∧ s.rd F.AX_HOME_CFG_MODE n = 3) ∧
    (∃ (t : Instant) (n : Fin 128) (s : State), s.admits (axOff n) = true ∧ ((s.advance t).axUpdate n).axState n = 1 ∧
      (s.ownerAX n).any (fun p => s.rd F.TR_STATUS_STATE p != 0) = false ∧ s.rd F.AX_HOME_CFG_MODE n ≠ 3 ∧ ((s.advance t).axUpdate n).homeOk n = true) ∧
    (∃ (t : Instant) (n : Fin 128) (s : State), s.admits (axOff n) = true ∧ s.rwlOpen (s.ownerAX n) = true ∧ s.rd F.AX_STATUS_STATE n = 5) ∧
    (∃ (t : Instant) (p : Fin 16) (img : SegImage) (s : State), s.mayExecute 2 p anyArgs = true ∧
      ((s.advance t).axUpdate img.axis).segResult p img = 0) ∧
    (∃ (t : Instant) (p : Fin 16) (img : SegImage) (s : State), s.mayExecute 2 p anyArgs = true ∧
      ((s.advance t).axUpdate img.axis).segResult p img ≠ 0 ∧ img.axis < 128) :=
  ⟨⟨5, 5, 1, (axisUp.wr F.AX_CTRL_ENABLE 0 5), by decide +kernel⟩,
   ⟨5, 5, 1, up, by decide +kernel⟩,
   ⟨5, 5, 0, axisUp, by decide +kernel⟩,
   ⟨5, 5, axisUp, by decide +kernel⟩,
   ⟨5, 5, ((ownRec axisUp (axisKey 5) 2 0).wr F.TR_STATUS_STATE 1 2), by decide +kernel⟩,
   ⟨5, 5, (axisUp.wr F.AX_STATUS_STATE 2 5), by decide +kernel⟩,
   ⟨5, 5, axisUp.wrs [(F.AX_HOME_CFG_MODE, 5, 3), (F.AX_HOME_POS, 5, 512)], by decide +kernel⟩,
   ⟨5, 5, axisUp.wrs [(F.AX_HOME_CFG_MODE, 5, 2), (F.AX_ROUTE_FB_KIND, 5, 1)], by decide +kernel⟩,
   ⟨5, 5, axisUp.wrs [(F.AX_STATUS_STATE, 5, 5), (F.AX_STATUS_FAULT_CAUSE, 5, 4)], by decide +kernel⟩,
   ⟨5, 2, oneSegment, (ownRec { axisUp with sec := { axisUp.sec with authors := axisUp.sec.authors.set 0 ([], 0xFFFF) } } (axisKey 5) 2 0).sent 2 2 0 0, by decide +kernel⟩,
   ⟨5, 2, oneSegment, axisUp.sent 2 2 0 0, by decide +kernel⟩⟩

theorem witness_AxisEvaluationsAndPulses :
    (∃ (t : Instant) (n : Fin 128) (runAhead : Bool) (s : State), (s.advance t).axSamples n = true ∧ ((s.advance t).axUpdate n).axState n = 1 ∧
      (s.axis n).asks = [] ∧ (s.axis n).bad = none ∧ (s.axis n).homing = none) ∧
    (∃ (t : Instant) (n : Fin 128) (s : State) (r : SegRec), (s.advance t).axSamples n = true ∧ ((s.advance t).axUpdate n).axState n = 1 ∧
      (s.axis n).asks = [true] ∧ (s.axis n).bad = none ∧ (s.axis n).homing = none ∧ s.rd F.AX_CTRL_VLIM_EN n = 0 ∧ s.rd F.AX_NEXT_SEG_COUNT n = 1 ∧
      (s.axis n).segs.find (s.rd F.AX_NEXT_SEG_FIRST n) = some r ∧ 1000 ≤ r.dur ∧ r.dur < 2 ^ 32 ∧ s.rd F.AX_NEXT_SEG_FIRST n < 4096) ∧
    (∃ (t : Instant) (n : Fin 128) (arith : Bool) (parity : Bool) (s : State) (e : AxEval), (s.axis n).lates = [] ∧ (s.axis n).eval = some e ∧
      e.awaits = none ∧ e.ready = none) ∧
    (∃ (t : Instant) (n : Fin 128) (arith : Bool) (parity : Bool) (s : State) (r : Instant) (rest : List Instant), (s.axis n).lates = r :: rest) ∧
    (∃ (t : Instant) (n : Fin 128) (resultFirst : Bool) (s : State) (e : AxEval) (r : Instant), (s.axis n).eval = some e ∧ e.due = (s.advance t).now ∧
      e.ready = some r ∧ ((earlier r (s.advance t).now = true ∨ (r = (s.advance t).now ∧ resultFirst = true))) ∧ (s.axis n).homing = none ∧
      e.causes = 0 ∧ fits32 e.p = true ∧ fits32 e.v = true ∧ s.rateExceeded n (rshr e.p 8 - s.rdI F.AX_STEP_POS n).natAbs = false ∧
      ((s.rd F.AX_FE_LIMIT n = 0 ∨ (sat32 (e.p - e.fb)).natAbs ≤ s.rd F.AX_FE_LIMIT n))) ∧
    (∃ (t : Instant) (n : Fin 128) (resultFirst : Bool) (s : State) (e : AxEval) (r : Instant), (s.axis n).eval = some e ∧ e.due = (s.advance t).now ∧
      e.ready = some r ∧ ((earlier r (s.advance t).now = true ∨ (r = (s.advance t).now ∧ resultFirst = true))) ∧ (s.axis n).homing = none ∧
      e.causes = 0 ∧ fits32 e.p = true ∧ fits32 e.v = true ∧ s.rateExceeded n (rshr e.p 8 - s.rdI F.AX_STEP_POS n).natAbs = false ∧
      ((s.rd F.AX_FE_LIMIT n = 0 ∨ (sat32 (e.p - e.fb)).natAbs ≤ s.rd F.AX_FE_LIMIT n))) ∧
    (∃ (t : Instant) (n : Fin 128) (resultFirst : Bool) (s : State) (e : AxEval), (s.axis n).eval = some e ∧ e.due = (s.advance t).now ∧
      ((e.ready = none ∨ (e.ready = some (s.advance t).now ∧ resultFirst = false)))) ∧
    (∃ (t : Instant) (n : Fin 128) (resultFirst : Bool) (s : State) (e : AxEval), (s.axis n).eval = some e ∧ e.due = (s.advance t).now ∧
      ((e.ready = none ∨ (e.ready = some (s.advance t).now ∧ resultFirst = false)))) ∧
    (∃ (t : Instant) (n : Fin 128) (s : State), (s.axis n).pulses.contains (s.advance t).now = true ∧
      ((∀ e ∈ s.recsOf 4 1, s.cfg e.1 0 4 % 256 = s.rd F.AX_ROUTE_OUT_ID n → s.cfg e.1 8 1 = 3 ∨ s.cfg e.1 8 1 = 4))) ∧
    (∃ (t : Instant) (n : Fin 128) (s : State), (s.axis n).falls.contains (s.advance t).now = true ∧
      ((∀ e ∈ s.recsOf 4 1, s.cfg e.1 0 4 % 256 = s.rd F.AX_ROUTE_OUT_ID n → s.cfg e.1 8 1 = 3 ∨ s.cfg e.1 8 1 = 4))) ∧
    (∃ (t : Instant) (n : Fin 128) (s : State), s.rd F.AX_CTRL_ENABLE n ≠ 0) ∧
    (∃ (t : Instant) (n : Fin 128) (s : State), s.rd F.AX_CTRL_ENABLE n ≠ 0) :=
  ⟨⟨1600000, 5, true, axisUp, by decide +kernel⟩,
   ⟨1600000, 5, (axisUp.wrs [(F.AX_NEXT_SEG_FIRST, 5, 7), (F.AX_NEXT_SEG_COUNT, 5, 1)]).putAxis 5 { Axis.init with asks := [true], segs := (Tbl.empty).set 7 ⟨1000, 256, 0⟩ }, ⟨1000, 256, 0⟩, by decide +kernel⟩,
   ⟨40, 5, false, false, axisUp.putAxis 5 { Axis.init with eval := some { axisEval with ready := none } }, { axisEval with ready := none }, by decide +kernel⟩,
   ⟨500, 5, false, false, axisUp.putAxis 5 { Axis.init with lates := [16, 32] }, 16, [32], by decide +kernel⟩,
   ⟨800000, 5, false, axisUp.putAxis 5 { Axis.init with eval := some axisEval }, axisEval, 32, by decide +kernel⟩,
   ⟨800000, 5, true, axisUp.putAxis 5 { Axis.init with eval := some { axisEval with ready := some 800000 } }, { axisEval with ready := some 800000 }, 800000, by decide +kernel⟩,
   ⟨800000, 5, true, axisUp.putAxis 5 { Axis.init with eval := some { axisEval with ready := none } }, { axisEval with ready := none }, by decide +kernel⟩,
   ⟨800000, 5, false, axisUp.putAxis 5 { Axis.init with eval := some { axisEval with ready := some 800000 } }, { axisEval with ready := some 800000 }, by decide +kernel⟩,
   ⟨1600, 5, axisUp.putAxis 5 { Axis.init with pulses := [1600, 3200] }, by decide +kernel⟩,
   ⟨1600, 5, axisUp.putAxis 5 { Axis.init with falls := [1600, 3200] }, by decide +kernel⟩,
   ⟨1600, 5, axisUp, by decide +kernel⟩,
   ⟨1600, 5, (ownRec axisUp (axisKey 5) 2 0).wr F.CP_STATUS_STATE 1 2, by decide +kernel⟩⟩

theorem witness_AxisGroupsAndSwitches :
    (∃ (t : Instant) (g : Fin 4) (value : Word) (s : State), s.admits (0x410018 + 0x20 * g) = true ∧
      ((((s.advance t).wr F.AXG_CTRL_KIND (value.toNat / 2) g).each (s.groupMembers g) State.axUpdate).armResult g) = 0) ∧
    (∃ (t : Instant) (g : Fin 4) (value : Word) (s : State), s.admits (0x410018 + 0x20 * g) = true ∧
      ((((s.advance t).wr F.AXG_CTRL_KIND (value.toNat / 2) g).each (s.groupMembers g) State.axUpdate).armResult g) ≠ 0) ∧
    (∃ (t : Instant) (g : Fin 4) (value : Word) (s : State), s.admits (0x410018 + 0x20 * g) = true ∧ s.rd F.AXG_CTRL_STATE g = 1) ∧
    (∃ (t : Instant) (g : Fin 4) (s : State) (m : List Nat) (ignore : Option Instant) (sync : Bool), s.group g = some ⟨m, sync, some (s.advance t).now, ignore⟩ ∧
      s.rd F.AXG_CTRL_STATE g = 1 ∧ ((∀ n ∈ m, ((s.advance t).axUpdate n).axState n = 1 ∧ (s.axis n).asks = [] ∧ (s.axis n).bad = none ∧
      s.rd F.AX_NEXT_SEG_COUNT n = 1 ∧
      s.rd F.AX_NEXT_SEG_FIRST n < 4096 ∧
      ((s.axis n).segs.find (s.rd F.AX_NEXT_SEG_FIRST n)).any (fun r => decide (1000 ≤ r.dur) && decide (r.dur < 2 ^ 32)) = true))) ∧
    (∃ (t : Instant) (n : Fin 128) (s : State) (b : Bool), ((s.advance t).axUpdate n).switchLevel (s.rd F.AX_LIMP_SRC n) = some b) ∧
    (∃ (t : Instant) (n : Fin 128) (s : State) (b : Bool), ((s.advance t).axUpdate n).switchLevel (s.rd F.AX_LIMN_SRC n) = some b) ∧
    (∃ (t : Instant) (n : Fin 128) (s : State) (b : Bool), ((s.advance t).axUpdate n).switchLevel (s.rd F.AX_HOME_SRC n) = some b ∧
      s.rd F.AX_STATUS_HOME_SW n ≠ b2n b) ∧
    (∃ (t : Instant) (n : Fin 128) (s : State) (b : Burst) (h : Homing) (l : Int), (s.axis n).bad = none ∧ (s.axis n).burst = some b ∧
      (s.rd F.AX_HOME_CFG_DEB_NS n : Int) ≤ sinceNs (s.advance t).now b.last ∧ b.latch = some l ∧ s.rd F.AX_STATUS_HOME_SW n ≠ 0 ∧
      s.rd F.AX_HOME_CFG_MODE n = 0 ∧ (s.axis n).homing = some h ∧ h.result = 1 ∧ h.latch = none) ∧
    (∃ (t : Instant) (n : Fin 128) (s : State) (h : Homing), (s.axis n).bad = none ∧ s.rd F.AX_HOME_CFG_MODE n = 1 ∧ s.rd F.AX_ROUTE_FB_KIND n = 1 ∧
      (s.axis n).homing = some h ∧ h.seen = true ∧ h.result = 1 ∧ h.latch = none) :=
  ⟨⟨5, 1, 0, (ownRec (axisUp.wrs [(F.AXG_MASK, 4, 32), (F.AXG_AT, 1, 3200)]) (axisKey 5) 2 0), by decide +kernel⟩,
   ⟨5, 1, 0, (axisUp.wrs [(F.AXG_MASK, 4, 32)]), by decide +kernel⟩,
   ⟨5, 1, 0, ({ axisUp.wr F.AXG_CTRL_STATE 1 1 with groups := axisUp.groups.set 1 ⟨[5], false, some 3200, none⟩ }), by decide +kernel⟩,
   ⟨3200, 1, ({ (axisUp.wrs [(F.AX_NEXT_SEG_FIRST, 5, 7), (F.AX_NEXT_SEG_COUNT, 5, 1), (F.AX_STATUS_STATE, 6, 1), (F.AX_NEXT_SEG_COUNT, 6, 1), (F.AXG_CTRL_STATE, 1, 1)]).putAxis 5 { Axis.init with segs := (Tbl.empty).set 7 ⟨1000, 256, 0⟩ } |>.putAxis 6 { Axis.init with segs := (Tbl.empty).set 0 ⟨2000, 256, 0⟩ } with groups := axisUp.groups.set 1 ⟨[5, 6], false, some 3200, none⟩ }), [5, 6], none, false, by decide +kernel⟩,
   ⟨5, 5, axisUp.wr F.AX_LIMP_SRC 0x100 5, true, by decide +kernel⟩,
   ⟨5, 5, axisUp.wr F.AX_LIMN_SRC 0x100 5, true, by decide +kernel⟩,
   ⟨5, 5, axisUp.wr F.AX_HOME_SRC 0x100 5, true, by decide +kernel⟩,
   ⟨1600, 5, (axisUp.wrs [(F.AX_STATUS_HOME_SW, 5, 1), (F.AX_HOME_CFG_DEB_NS, 5, 50), (F.AX_STATUS_STATE, 5, 4)]).putAxis 5 { Axis.init with burst := some ⟨0, 3, some 77⟩, homing := some { seenHoming with seen := false } }, ⟨0, 3, some 77⟩, { seenHoming with seen := false }, 77, by decide +kernel⟩,
   ⟨1600, 5, (axisUp.wrs [(F.AX_HOME_CFG_MODE, 5, 1), (F.AX_ROUTE_FB_KIND, 5, 1), (F.AX_STATUS_STATE, 5, 4)]).putAxis 5 { Axis.init with homing := some seenHoming }, seenHoming, by decide +kernel⟩⟩

theorem witness_SamplesBlocksAndCheckpointsOfTheSkein :
    (∃ (t : Instant) (n : Fin 8192) (at_ : Instant) (data : Word) (s : State), (s.advance t).tapDue n at_ = true ∧ s.rd F.TAP_SRC_KIND n ≠ 3 ∧
      s.rd F.TAP_SRC_KIND n ≠ 4 ∧ s.rd F.TAP_CFG_POLICY n = 1 ∧ s.rd F.TAP_SRC_STREAM n < 17 ∧ s.rd F.HOST_STATUS_BOOTING = 0 ∧
      (s.stream (s.rd F.TAP_SRC_STREAM n)).gap = none ∧ s.rd F.PWR_STATUS_STATE ≠ 2 ∧
      (s.advance t).discardCause (s.rd F.TAP_SRC_STREAM n) n at_ (BitVec.ofNat 32 (s.sourceValue (s.rd F.TAP_SRC_KIND n) (s.rd F.TAP_SRC_SIGNAL n) (s.rd F.TAP_SRC_ID n) (s.rd F.TAP_SRC_RING n))) = none) ∧
    (∃ (t : Instant) (n : Fin 8192) (at_ : Instant) (data : Word) (s : State), (s.advance t).tapDue n at_ = true ∧ s.rd F.TAP_SRC_KIND n = 3 ∧
      s.rd F.TAP_CFG_POLICY n = 1 ∧ s.rd F.TAP_SRC_STREAM n < 17 ∧ s.rd F.HOST_STATUS_BOOTING = 0 ∧
      (s.advance t).discardCause (s.rd F.TAP_SRC_STREAM n) n at_ data ≠ none) ∧
    (∃ (t : Instant) (k : Fin 17) (s : State) (o : Instant), (s.stream k).openAt = some o ∧
      notLater (addNs o (1000000 * s.sealMs)) (s.advance t).now = true ∧ (s.stream k).recs ++ (s.stream k).runs.map runRec ≠ []) ∧
    (∃ (t : Instant) (k : Fin 17) (s : State), s.admits (0x501000 + 0x80 * k) = true ∧ (s.stream k).recs ++ (s.stream k).runs.map runRec ≠ []) ∧
    (∃ (t : Instant) (s : State) (k : Fin 17), onGrid 1000000000 0 (s.advance t).now = true ∧ (s.stream k).everSealed = true) ∧
    (∃ (t : Instant) (k : Fin 17) (s : State) (c : Ckpt) (rest : List Ckpt), (s.stream k).ckpts = c :: rest ∧ s.rd F.HOST_STATUS_BOOTING = 0) :=
  ⟨⟨16000, 7, 16000, 0, (skeinUp .visible 0).wrs [(F.TAP_SRC_KIND, 7, 2), (F.TAP_SRC_STREAM, 7, 2), (F.TAP_CFG_POLICY, 7, 1), (F.TAP_PERIOD, 7, 1000), (F.VR_VALUE, 0, 5)], by decide +kernel⟩,
   ⟨16000, 7, 16000, 9, ({ (skeinUp .visible 0).wrs [(F.TAP_SRC_KIND, 7, 3), (F.TAP_SRC_STREAM, 7, 2), (F.TAP_CFG_POLICY, 7, 1)] with skein := { (skeinUp .visible 0).skein with rateMs := 0, rateCount := 400000 } }).wr F.SKS_STATUS_GAP_OPEN 0 2, by decide +kernel⟩,
   ⟨160000000, 2, skeinUp .visible 0, 0, by decide +kernel⟩,
   ⟨5, 2, skeinUp .visible 0, by decide +kernel⟩,
   ⟨16000000000, skeinUp .visible 0, 2, by decide +kernel⟩,
   ⟨5, 2, (skeinUp .visible 0).putStream 2 { Stream.init with ckpts := [⟨0, 4, 0, 0⟩] }, ⟨0, 4, 0, 0⟩, [], by decide +kernel⟩⟩

theorem witness_BlocksReachTheRegionAndTheHost :
    (∃ (t : Instant) (k : Fin 17) (seq : BitVec 64) (s : State) (e : SkSlot), (s.stream k).region.find? (fun e => e.block.seq == seq.toNat && e.phase == .writing) = some e ∧
      (s.stream k).burst = []) ∧
    (∃ (t : Instant) (k : Fin 17) (seq : BitVec 64) (s : State) (e : SkSlot), (s.stream k).region.find? (fun e => e.block.seq == seq.toNat && e.phase == .writing) = some e ∧
      (s.stream k).burst = [] ∧ e.retries < 3 ∧ ((s.stream k).region.filter (fun x => x.block.seq == seq.toNat)).length = 1) ∧
    (∃ (t : Instant) (k : Fin 17) (seq : BitVec 64) (s : State) (e : SkSlot), (s.stream k).region.find? (fun e => e.block.seq == seq.toNat && e.phase == .writing) = some e ∧
      (s.stream k).burst = [] ∧ 3 ≤ e.retries) ∧
    (∃ (t : Instant) (k : Fin 17) (s : State) (e : SkSlot), (s.stream k).region.find? (fun e => e.phase == .exporting) = some e ∧
      (s.stream k).burst = []) ∧
    (∃ (t : Instant) (k : Fin 17) (seq : BitVec 64) (s : State), s.admits (0x501028 + 0x80 * k) = true ∧ s.rd F.SKS_CONSUMED k ≤ seq.toNat ∧
      seq.toNat ≤ s.rd F.SKS_VISIBLE k ∧ (s.stream k).shown = true) ∧
    (∃ (t : Instant) (k : Fin 17) (seq : BitVec 64) (s : State), s.admits (0x501028 + 0x80 * k) = true ∧ ((seq.toNat < s.rd F.SKS_CONSUMED k ∨
      s.rd F.SKS_VISIBLE k < seq.toNat))) ∧
    (∃ (t : Instant) (k : Fin 17) (seq : BitVec 64) (s : State), s.mayExecute 0xC k (fun c => c.arg0 + 2 ^ 32 * c.arg1 == seq.toNat) = true ∧
      s.rd F.SKS_CTRL_EXPORT k = 2 ∧ (s.stream k).region.any (fun e => e.block.seq == seq.toNat && e.phase == .consumed) = true) ∧
    (∃ (t : Instant) (k : Fin 17) (seq : BitVec 64) (s : State), s.mayExecute 0xC k (fun c => c.arg0 + 2 ^ 32 * c.arg1 == seq.toNat) = true ∧
      s.rd F.SKS_CTRL_EXPORT k ≠ 2) :=
  ⟨⟨5, 2, 4, skeinUp .writing 0, ⟨oneBlock, .writing, 0⟩, by decide +kernel⟩,
   ⟨5, 2, 4, skeinUp .writing 0, ⟨oneBlock, .writing, 0⟩, by decide +kernel⟩,
   ⟨5, 2, 4, skeinUp .writing 3, ⟨oneBlock, .writing, 3⟩, by decide +kernel⟩,
   ⟨5, 2, skeinUp .exporting 0, ⟨oneBlock, .exporting, 0⟩, by decide +kernel⟩,
   ⟨5, 2, 4, skeinUp .visible 0, by decide +kernel⟩,
   ⟨5, 2, 5, skeinUp .visible 0, by decide +kernel⟩,
   ⟨5, 2, 4, ((skeinUp .consumed 0).wr F.SKS_CTRL_EXPORT 2 2).sent 2 0xC 4 0, by decide +kernel⟩,
   ⟨5, 2, 4, (skeinUp .consumed 0).sent 2 0xC 4 0, by decide +kernel⟩⟩

theorem witness_SequencersRunAndFireTheirSets :
    (∃ (t : Instant) (n : Fin 32) (s : State) (p : Fin 16), s.admits (0x600000 + 0x800 * n) = true ∧ s.ownerTS n = some p.val ∧
      ((s.rd F.TR_STATUS_STATE p = 0 ∨ s.rd F.TR_STATUS_STATE p = 3)) ∧ 500 ≤ s.rd F.TS_PERIOD n ∧ s.rd F.TS_PERIOD n ≤ 1000000000 ∧
      s.rd F.TS_PHASE n < s.rd F.TS_PERIOD n) ∧
    (∃ (t : Instant) (n : Fin 32) (s : State) (p : Fin 16), s.admits (0x600000 + 0x800 * n) = true ∧ s.ownerTS n = some p.val ∧
      s.rd F.TR_STATUS_STATE p ≠ 0 ∧ s.rd F.TR_STATUS_STATE p ≠ 3) ∧
    (∃ (t : Instant) (n : Fin 32) (s : State), s.admits (0x600000 + 0x800 * n) = true ∧
      (s.ownerTS n).all (fun p => s.rd F.TR_STATUS_STATE p == 0 || s.rd F.TR_STATUS_STATE p == 3) = true) ∧
    (∃ (t : Instant) (n : Fin 32) (s : State) (e : Nat × Option Instant) (rest : List (Nat × Option Instant)), s.rd F.TS_STATUS_RUNNING n ≠ 0 ∧
      s.rd F.WARP_STATUS_COARSE = 0 ∧ onGrid (s.rd F.TS_PERIOD n) (s.rd F.TS_PHASE n) (s.advance t).now = true ∧
      earlier (s.advance t).now (s.seq n).armedAt = false ∧
      (s.advance t).trueConds n (s.rd F.TS_STATUS_STATE n) (min ((s.seq n).counters.get (s.rd F.TS_STATUS_STATE n) 0 + (s.advance t).countedEvents n (s.rd F.TS_STATUS_STATE n)) (2 ^ 32 - 1)) = e :: rest) ∧
    (∃ (t : Instant) (n : Fin 32) (s : State), s.capState n = 1 ∧ notLater (addNs (s.cset n).filling (s.cset n).preNs) (s.advance t).now = true) ∧
    (∃ (t : Instant) (n : Fin 32) (s : State), s.admits (0x610000 + 0x100 * n) = true ∧ s.capState n = 2) ∧
    (∃ (t : Instant) (n : Fin 32) (s : State), s.admits (0x610000 + 0x100 * n) = true ∧ s.capState n ≠ 2 ∧
      (s.cset n).disarmed ≠ some (s.advance t).now) ∧
    (∃ (t : Instant) (n : Fin 32) (s : State), s.admits (0x610000 + 0x100 * n) = true ∧ s.capState n ≠ 2 ∧
      (s.cset n).disarmed = some (s.advance t).now) ∧
    (∃ (t : Instant) (n : Fin 32) (s : State), s.capState n = 2 ∧ s.rd F.CS_AUTO_US n ≠ 0 ∧
      notLater (addNs (s.cset n).ready (1000 * s.rd F.CS_AUTO_US n)) (s.advance t).now = true) ∧
    (∃ (t : Instant) (n : Fin 32) (s : State), s.capState n = 3 ∧ (s.cset n).trigT = (s.advance t).now ∧ (s.cset n).word / 2 ^ 12 % 2 ^ 4 ≠ 2 ∧
      s.rd F.CS_AUTO_US n ≠ 0 ∧ addNs (s.cset n).ready (1000 * s.rd F.CS_AUTO_US n) = (s.advance t).now ∧
      (s.cset n).disarmed ≠ some (s.advance t).now) :=
  ⟨⟨5, 3, capUp, 2, by decide +kernel⟩,
   ⟨5, 3, capUp.wr F.TR_STATUS_STATE 1 2, 2, by decide +kernel⟩,
   ⟨5, 3, (capUp.wr F.TS_STATUS_RUNNING 1 3).wr F.CS_STATUS_STATE 2 3, by decide +kernel⟩,
   ⟨16000, 3, capUp.wrs [(F.TS_STATUS_RUNNING, 3, 1), (F.TS_COND_CFG_KIND, 192, 4), (F.TS_COND_CFG_NEXT, 192, 2)], (0, none), [], by decide +kernel⟩,
   ⟨16000, 3, chanUp.wr F.CS_STATUS_STATE 1 3, by decide +kernel⟩,
   ⟨16000, 3, chanUp.wr F.CS_STATUS_STATE 2 3, by decide +kernel⟩,
   ⟨16000, 3, chanUp, by decide +kernel⟩,
   ⟨16000, 3, chanUp.putCset 3 { chanUp.cset 3 with disarmed := some 16000 }, by decide +kernel⟩,
   ⟨16000, 3, chanUp.wrs [(F.CS_STATUS_STATE, 3, 2), (F.CS_AUTO_US, 3, 1)], by decide +kernel⟩,
   ⟨16000, 3, (chanUp.wrs [(F.CS_STATUS_STATE, 3, 3), (F.CS_AUTO_US, 3, 1)]).putCset 3 { chanUp.cset 3 with trigT := 16000, word := 0x3000, ready := 0 }, by decide +kernel⟩⟩

theorem witness_CapturesEndAndAreConsumed :
    (∃ (t : Instant) (n : Fin 256) (s : State) (ch : CapChan), s.rd F.CH_CFG_TIMED n = 0 ∧ s.rd F.CH_SRC_KIND n = 2 ∧ s.rd F.CH_SRC_SET n < 32 ∧
      onGrid (s.rd F.CH_PERIOD n) 0 (s.advance t).now = true ∧ (s.cset (s.rd F.CH_SRC_SET n)).chans.find n = some ch ∧
      earlier (s.advance t).now (s.cset (s.rd F.CH_SRC_SET n)).filling = false ∧ s.capState (s.rd F.CH_SRC_SET n) = 1) ∧
    (∃ (t : Instant) (n : Fin 32) (s : State), s.capState n = 3 ∧ notLater (addNs (s.cset n).trigT (s.cset n).postNs) (s.advance t).now = true ∧
      (s.cset n).items = []) ∧
    (∃ (t : Instant) (n : Fin 32) (s : State), s.capState n = 4 ∧ (s.cset n).items = [] ∧ s.rd F.CS_CTRL_REARM n = 0) ∧
    (∃ (t : Instant) (n : Fin 32) (s : State), s.capState n = 4 ∧ (s.cset n).items = [] ∧ s.rd F.CS_CTRL_REARM n ≠ 0 ∧
      s.rd F.CS_CAP_SEQ n + 1 < 2 ^ 64) ∧
    (∃ (t : Instant) (n : Fin 32) (s : State), s.capState n = 4 ∧ (s.cset n).items = [] ∧ s.rd F.CS_CTRL_REARM n ≠ 0 ∧
      s.rd F.CS_CAP_SEQ n + 1 < 2 ^ 64) ∧
    (∃ (t : Instant) (n : Fin 32) (seq : BitVec 64) (s : State), s.admits (0x610034 + 0x100 * n) = true ∧ s.rd F.CS_CONSUMED n ≤ seq.toNat ∧
      seq.toNat ≤ s.rd F.CS_CAP_SEQ n) ∧
    (∃ (t : Instant) (n : Fin 32) (seq : BitVec 64) (s : State), s.admits (0x610034 + 0x100 * n) = true ∧ ((seq.toNat < s.rd F.CS_CONSUMED n ∨
      s.rd F.CS_CAP_SEQ n < seq.toNat))) ∧
    (∃ (t : Instant) (n : Fin 32) (count : BitVec 13) (s : State), s.admits (0x610040 + 0x100 * n) = true ∧
      (s.cset n).acked + (count.toNat + 8192 - (s.cset n).acked % 8192) % 8192 ≤ (s.cset n).chunk) ∧
    (∃ (t : Instant) (n : Fin 32) (count : BitVec 13) (s : State), s.admits (0x610040 + 0x100 * n) = true ∧
      (s.cset n).chunk < (s.cset n).acked + (count.toNat + 8192 - (s.cset n).acked % 8192) % 8192) :=
  ⟨⟨16000, 9, chanUp.wr F.CS_STATUS_STATE 1 3, ⟨false, 1000, 1, 1, [], [], false⟩, by decide +kernel⟩,
   ⟨16000, 3, chanUp.wr F.CS_STATUS_STATE 3 3, by decide +kernel⟩,
   ⟨16000, 3, chanUp.wr F.CS_STATUS_STATE 4 3, by decide +kernel⟩,
   ⟨16000, 3, (chanUp.wr F.CS_STATUS_STATE 4 3).wr F.CS_CTRL_REARM 1 3, by decide +kernel⟩,
   ⟨16000, 3, ((chanUp.wr F.CS_STATUS_STATE 4 3).wr F.CS_CTRL_REARM 1 3).wr F.CS_CAP_SEQ 9 3, by decide +kernel⟩,
   ⟨16000, 3, 1, chanUp.wr F.CS_CAP_SEQ 1 3, by decide +kernel⟩,
   ⟨16000, 3, 2, chanUp.wr F.CS_CAP_SEQ 1 3, by decide +kernel⟩,
   ⟨16000, 3, 2, chanUp.putCset 3 { CapSet.init with chunk := 5 }, by decide +kernel⟩,
   ⟨16000, 3, 6, chanUp.putCset 3 { CapSet.init with chunk := 5 }, by decide +kernel⟩⟩

theorem witness_MaskUnitsTestTheirEnvelope :
    (∃ (t : Instant) (p : Fin 16) (img : Envelope) (s : State), s.mayExecute 3 p anyArgs = true ∧ (s.advance t).envResult p img = 0) ∧
    (∃ (t : Instant) (p : Fin 16) (img : Envelope) (s : State), s.mayExecute 3 p anyArgs = true ∧ (s.advance t).envResult p img ≠ 0) ∧
    (∃ (t : Instant) (n : Fin 64) (s : State), s.admits (0x630000 + 0x40 * n) = true ∧
      (s.ownerMU n).all (fun p => s.rd F.TR_STATUS_STATE p == 0 || s.rd F.TR_STATUS_STATE p == 3) = true ∧ s.maskLimits n = true ∧
      s.envOk n (s.rd F.MU_ENV n) = true) ∧
    (∃ (t : Instant) (n : Fin 64) (s : State) (env : Nat), (s.maskUnit n).fetching = some env ∧ s.maskLimits n = true ∧ s.envOk n env = true) ∧
    (∃ (t : Instant) (n : Fin 64) (s : State), s.admits (0x630000 + 0x40 * n) = true ∧
      (s.ownerMU n).all (fun p => s.rd F.TR_STATUS_STATE p == 0 || s.rd F.TR_STATUS_STATE p == 3) = true) ∧
    (∃ (t : Instant) (n : Fin 64) (s : State), s.rd F.MU_STATUS_STATE n = 1 ∧ s.rd F.WARP_STATUS_COARSE = 0 ∧
      onGrid (s.rd F.MU_PERIOD n) (s.rd F.MU_PHASE n) (s.advance t).now = true ∧ earlier (s.advance t).now (s.rdT F.MU_A n) = false) ∧
    (∃ (t : Instant) (n : Fin 64) (have_ : Nat) (s : State), s.rd F.MU_STATUS_STATE n = 1 ∧ s.rd F.WARP_STATUS_COARSE = 0 ∧
      onGrid (s.rd F.MU_PERIOD n) (s.rd F.MU_PHASE n) (s.advance t).now = true ∧ earlier (s.advance t).now (s.rdT F.MU_A n) = false ∧
      (let count := (s.trig.envs.get (s.rd F.MU_STATUS_ENV_NOW n) (0, 0)).2
     s.lastPoint (s.rd F.MU_STATUS_ENV_NOW n) count ((s.advance t).now - s.rdT F.MU_A n).toNat count 0 + 1 < have_)) ∧
    (∃ (t : Instant) (n : Fin 64) (have_ : Nat) (s : State), s.rd F.MU_STATUS_STATE n = 1 ∧ s.rd F.WARP_STATUS_COARSE = 0 ∧
      onGrid (s.rd F.MU_PERIOD n) (s.rd F.MU_PHASE n) (s.advance t).now = true ∧ earlier (s.advance t).now (s.rdT F.MU_A n) = false ∧
      (let count := (s.trig.envs.get (s.rd F.MU_STATUS_ENV_NOW n) (0, 0)).2
     s.lastPoint (s.rd F.MU_STATUS_ENV_NOW n) count ((s.advance t).now - s.rdT F.MU_A n).toNat count 0 + 1 < have_)) :=
  ⟨⟨5, 2, oneEnvelope, { capUp with sec := { capUp.sec with authors := capUp.sec.authors.set 0 ([], 0xFFFF) } }.sentEth 2 3 0 0, by decide +kernel⟩,
   ⟨5, 2, oneEnvelope, capUp.sentEth 2 3 0 0, by decide +kernel⟩,
   ⟨5, 5, maskUp, by decide +kernel⟩,
   ⟨5, 5, maskUp.putMask 5 ⟨false, some 1⟩, 1, by decide +kernel⟩,
   ⟨5, 5, maskUp, by decide +kernel⟩,
   ⟨16000, 5, maskUp, by decide +kernel⟩,
   ⟨16000, 5, 3, maskUp.wr F.VR_VALUE 77 0, by decide +kernel⟩,
   ⟨16000, 5, 3, maskUp, by decide +kernel⟩⟩

theorem witness_InputsLogicAndRoutesOfTheLoom :
    (∃ (t : Instant) (pin : Fin 192) (level : Bool) (s : State), s.cfg (pinKey pin) 2 2 = 0) ∧
    (∃ (t : Instant) (pin : Fin 192) (level : Bool) (s : State), s.cfg (pinKey pin) 2 2 ≠ 0) ∧
    (∃ (t : Instant) (pin : Fin 192) (s : State) (e : Instant), (s.pin pin).edge = some e ∧
      (s.cfg (pinKey pin) 2 2 : Int) ≤ sinceNs (s.advance t).now e) ∧
    (∃ (t : Instant) (n : Fin 16384) (since : Instant) (s : State), s.quadOn (n / 4096) = true ∧ s.cfg (leKey n) 2 1 ≤ 1) ∧
    (∃ (t : Instant) (n : Fin 16384) (since : Instant) (s : State), s.quadOn (n / 4096) = true ∧ s.cfg (leKey n) 2 1 = 2 ∧ s.lutValue n = true ∧
      (s.le n).f = false ∧ notLater (addNs since (1000 * s.cfg (leKey n) 4 4)) (s.advance t).now = false) ∧
    (∃ (t : Instant) (n : Fin 16384) (s : State) (d : Instant), (s.le n).deadline = some d ∧ notLater d (s.advance t).now = true ∧
      s.quadOn (n / 4096) = true) ∧
    (∃ (t : Instant) (er : Fin 8192) (data : Word) (s : State) (n : Fin 32) (i : Fin 4), s.quadOn (er / 2048) = true ∧
      s.trig.seqs.keys.contains n.val = true ∧ s.rd F.TS_STATUS_RUNNING n ≠ 0 ∧
      s.rd F.TS_COND_CFG_KIND (4 * (16 * n + s.rd F.TS_STATUS_STATE n) + i) = 2 ∧
      s.rd F.TS_COND_CFG_SRC (4 * (16 * n + s.rd F.TS_STATUS_STATE n) + i) = er) ∧
    (∃ (t : Instant) (kind : Fin 3) (id : Fin 16384) (s : State), ((kind.val = 2 → (s.fifo id).length < 4))) ∧
    (∃ (t : Instant) (id : Fin 16384) (s : State), 4 ≤ (s.fifo id).length) ∧
    (∃ (t : Instant) (s : State) (faddr : Fin 1610612736) (p : Fin 16), s.owner faddr = some p.val) ∧
    (∃ (t : Instant) (s : State) (faddr : Fin 1610612736) (p : Fin 16), s.owner faddr = some p.val) :=
  ⟨⟨1600, 3, true, loomUp (leKey 7) 0xFFFF, by decide +kernel⟩,
   ⟨1600, 3, true, loomUp (pinKey 3) 0x50000, by decide +kernel⟩,
   ⟨1600, 3, (loomUp (pinKey 3) 0x50000).putPin 3 { FioPin.init with raw := true, edge := some 0 }, 0, by decide +kernel⟩,
   ⟨1600, 7, 0, loomUp (leKey 7) 0xFFFF, by decide +kernel⟩,
   ⟨1600, 7, 0, loomUp (leKey 7) 0x50002FFFF, by decide +kernel⟩,
   ⟨160000, 7, (loomUp (leKey 7) 0x50002FFFF).putLe 7 ⟨true, some 1600⟩, 1600, by decide +kernel⟩,
   ⟨160000, 9, 5, ((loomUp (tseqKey 3) 0).putSeq 3 TrigSeq.init).wrs [(F.TS_STATUS_RUNNING, 3, 1), (F.TS_COND_CFG_KIND, 193, 2), (F.TS_COND_CFG_SRC, 193, 9)], 3, 1, by decide +kernel⟩,
   ⟨160000, 0, 7, (loomUp (leKey 7) 0).wr F.CP_STATUS_STATE 1 2, by decide +kernel⟩,
   ⟨160000, 7, (loomUp (leKey 7) 0).onSched (fun c => { c with fifos := c.fifos.set 7 [1, 2, 3, 4] }), by decide +kernel⟩,
   ⟨160000, (loomUp (leKey 7) 0).wr F.CP_STATUS_STATE 1 2, 0x03000007, 2, by decide +kernel⟩,
   ⟨160000, (loomUp (leKey 7) 0).wr F.CP_STATUS_STATE 1 2, 0x03000007, 2, by decide +kernel⟩⟩

theorem witness_EditsDraftsAndFlipsOfTheLoom :
    (∃ (t : Instant) (offset : Fin 268435456) (value : Word) (s : State) (key : Nat) (p : Nat), s.admits offset = true ∧ keyAt offset = some key ∧
      (findReg offset).isSome = true ∧ (s.recOf key).owner = some p ∧ s.rd F.LP_STATUS_APPLY_STATE p = 0 ∧
      badTapCfg key ((offset.val - (imageBase key).getD offset) / 4) value.toNat = false) ∧
    (∃ (t : Instant) (p : Fin 16) (s : State), s.admits (lpOff p) = true ∧ s.inStop p = true ∧ s.rd F.LP_STATUS_APPLY_STATE p = 0 ∧
      (s.applying p).flip = none) ∧
    (∃ (t : Instant) (p : Fin 16) (s : State), s.admits (lpOff p) = true ∧ s.inStop p = false) ∧
    (∃ (t : Instant) (p : Fin 16) (s : State), s.admits (lpOff p) = true) ∧
    (∃ (t : Instant) (p : Fin 16) (s : State), (s.applying p).flip = some ((s.advance t).now, .edit) ∧ s.inStop p = true ∧ (s.editedKeys p).Nodup) ∧
    (∃ (t : Instant) (p : Fin 16) (s : State), (s.applying p).flip = some ((s.advance t).now, .edit) ∧ s.inStop p = false) ∧
    (∃ (t : Instant) (p : Fin 16) (img : DraftImg) (s : State), s.mayExecute 5 p anyArgs = true ∧ img.partition = p ∧ s.draftResult p img = 0) ∧
    (∃ (t : Instant) (p : Fin 16) (img : DraftImg) (s : State), s.mayExecute 5 p anyArgs = true ∧ img.partition = p ∧ img.slot ≤ 7 ∧
      s.draftResult p img ≠ 0) ∧
    (∃ (t : Instant) (p : Fin 16) (value : Word) (s : State), s.admits (lpOff p) = true ∧ s.rd F.LP_STATUS_APPLY_STATE p = 0 ∧
      (s.applying p).flip = none ∧ s.inStop p = true ∧ s.rd F.TR_STATUS_STATE p = 0 ∧ ((value.toNat / 2 ^ 24 % 16 = 15 ∨
      s.rd F.DS_STATE_STATE (8 * p + value.toNat / 2 ^ 24 % 16) = 2)) ∧ value.toNat / 2 ^ 28 = s.rd F.LP_STATUS_ACTIVE p) ∧
    (∃ (t : Instant) (p : Fin 16) (value : Word) (s : State), s.admits (lpOff p) = true ∧ s.rd F.LP_STATUS_APPLY_STATE p = 0 ∧
      (s.applying p).flip = none ∧ s.inStop p = false) ∧
    (∃ (t : Instant) (p : Fin 16) (value : Word) (s : State), s.admits (lpOff p) = true ∧ s.rd F.LP_STATUS_APPLY_STATE p = 0 ∧
      (s.applying p).flip = none ∧ s.inStop p = true ∧ s.rd F.TR_STATUS_STATE p = 0 ∧ value.toNat / 2 ^ 24 % 16 ≠ 15 ∧
      s.rd F.DS_STATE_STATE (8 * p + value.toNat / 2 ^ 24 % 16) ≠ 2) ∧
    (∃ (t : Instant) (p : Fin 16) (value : Word) (s : State), s.admits (lpOff p) = true ∧ s.rd F.LP_STATUS_APPLY_STATE p = 0 ∧
      (s.applying p).flip = none ∧ s.inStop p = true ∧ s.rd F.TR_STATUS_STATE p = 0 ∧ ((value.toNat / 2 ^ 24 % 16 = 15 ∨
      s.rd F.DS_STATE_STATE (8 * p + value.toNat / 2 ^ 24 % 16) = 2)) ∧ value.toNat / 2 ^ 28 ≠ s.rd F.LP_STATUS_ACTIVE p) ∧
    (∃ (t : Instant) (p : Fin 16) (value : Word) (s : State), s.admits (lpOff p) = true ∧ s.rd F.LP_STATUS_APPLY_STATE p ≠ 0) ∧
    (∃ (t : Instant) (p : Fin 16) (s : State), s.rd F.LP_STATUS_APPLY_STATE p = 1) ∧
    (∃ (t : Instant) (p : Fin 16) (s : State), s.rd F.LP_STATUS_APPLY_STATE p = 1 ∧ (s.applying p).verifyFails = 0) ∧
    (∃ (t : Instant) (p : Fin 16) (s : State), s.rd F.LP_STATUS_APPLY_STATE p = 1 ∧ (s.applying p).verifyFails ≠ 0) ∧
    (∃ (t : Instant) (p : Fin 16) (s : State), (s.applying p).flip = some ((s.advance t).now, .apply) ∧ (s.applying p).keys.Nodup) ∧
    (∃ (t : Instant) (p : Fin 16) (s : State), s.rd F.LP_STATUS_APPLY_STATE p = 3 ∧ (s.applying p).superseded = false ∧ (s.applying p).flip = none ∧
      (s.applying p).target < 16) ∧
    (∃ (t : Instant) (p : Fin 16) (s : State), s.rd F.LP_STATUS_APPLY_STATE p = 3 ∧ (s.applying p).superseded = false ∧ (s.applying p).flip = none ∧
      (s.applying p).journalFails = 0) ∧
    (∃ (t : Instant) (p : Fin 16) (s : State), s.rd F.LP_STATUS_APPLY_STATE p = 3 ∧ (s.applying p).superseded = false ∧ (s.applying p).flip = none ∧
      (s.applying p).journalFails ≠ 0) ∧
    (∃ (t : Instant) (p : Fin 16) (s : State), (s.applying p).flip = some ((s.advance t).now, .back) ∧ (s.applying p).keys.Nodup ∧
      (s.applying p).result ≠ 0 ∧ (s.applying p).result < 16) :=
  ⟨⟨5, 0x400014, 7, loomUp (axisKey 0) 0, 0x02000000, 2, by decide +kernel⟩,
   ⟨5, 2, loomUp (axisKey 0) 0, by decide +kernel⟩,
   ⟨5, 2, (loomUp (axisKey 0) 0).wr F.CP_STATUS_STATE 1 2, by decide +kernel⟩,
   ⟨5, 2, (loomUp (axisKey 0) 0).putRecord (axisKey 0) ⟨some 2, 0, 0, 0, 5, true⟩, by decide +kernel⟩,
   ⟨16000, 2, ((loomUp (axisKey 0) 0).putRecord (axisKey 0) ⟨some 2, 0, 0, 0, 5, true⟩).putApply 2 { Apply.init with flip := some (16000, .edit) }, by decide +kernel⟩,
   ⟨16000, 2, (((loomUp (axisKey 0) 0).putRecord (axisKey 0) ⟨some 2, 0, 0, 0, 5, true⟩).putApply 2 { Apply.init with flip := some (16000, .edit) }).wr F.CP_STATUS_STATE 1 2, by decide +kernel⟩,
   ⟨5, 2, emptyDraft, (rootUp (loomUp (axisKey 0) 0)).sent 2 5 0 0, by decide +kernel⟩,
   ⟨5, 2, emptyDraft, ((loomUp (axisKey 0) 0)).sent 2 5 0 0, by decide +kernel⟩,
   ⟨5, 2, 0xFF000000, (loomUp (axisKey 0) 0).wr F.LP_STATUS_ACTIVE 15 2, by decide +kernel⟩,
   ⟨5, 2, 0xFF000000, (loomUp (axisKey 0) 0).wr F.CP_STATUS_STATE 1 2, by decide +kernel⟩,
   ⟨5, 2, 0xF1000000, loomUp (axisKey 0) 0, by decide +kernel⟩,
   ⟨5, 2, 0x1F000000, loomUp (axisKey 0) 0, by decide +kernel⟩,
   ⟨5, 2, 0xFF000000, (loomUp (axisKey 0) 0).wr F.LP_STATUS_APPLY_STATE 2 2, by decide +kernel⟩,
   ⟨5, 2, (applyUp (axisKey 0) 0).wr F.LP_STATUS_APPLY_STATE 1 2, by decide +kernel⟩,
   ⟨5, 2, (applyUp (axisKey 0) 0).wr F.LP_STATUS_APPLY_STATE 1 2, by decide +kernel⟩,
   ⟨5, 2, ((applyUp (axisKey 0) 0).wr F.LP_STATUS_APPLY_STATE 1 2).putApply 2 { Apply.init with keys := [axisKey 0], verifyFails := 1 }, by decide +kernel⟩,
   ⟨16000, 2, (applyUp (axisKey 0) 0).putApply 2 { Apply.init with keys := [axisKey 0], flip := some (16000, .apply) }, by decide +kernel⟩,
   ⟨16000, 2, (applyUp (axisKey 0) 0).wr F.LP_STATUS_APPLY_STATE 3 2, by decide +kernel⟩,
   ⟨16000, 2, (applyUp (axisKey 0) 0).wr F.LP_STATUS_APPLY_STATE 3 2, by decide +kernel⟩,
   ⟨16000, 2, ((applyUp (axisKey 0) 0).wr F.LP_STATUS_APPLY_STATE 3 2).putApply 2 { Apply.init with journalFails := 1 }, by decide +kernel⟩,
   ⟨16000, 2, (applyUp (axisKey 0) 0).putApply 2 { Apply.init with keys := [axisKey 0], flip := some (16000, .back), result := 7 }, by decide +kernel⟩⟩

theorem witness_TasksSubmitCancelAndQueryBySlot :
    (∃ (t : Instant) (sh : Fin 48) (addr : Word) (d : BitVec 512) (nowait : Bool) (qtmo : Word) (s : State) (i : Nat), s.runningOn sh = some i ∧
      addr.toNat % 64 = 0 ∧ s.windowOk sh addr.toNat 64 0 = true ∧
      s.submitOk (s.task i).partition (TaskDesc.ofBytes d.toNat) (s.task i).desc.supervisor = true ∧ s.slotFree (s.task i).partition = true) ∧
    (∃ (t : Instant) (sh : Fin 48) (addr : Word) (d : BitVec 512) (nowait : Bool) (qtmo : Word) (s : State) (i : Nat), s.runningOn sh = some i ∧
      addr.toNat % 64 = 0 ∧ s.windowOk sh addr.toNat 64 0 = true ∧
      s.submitOk (s.task i).partition (TaskDesc.ofBytes d.toNat) (s.task i).desc.supervisor = false) ∧
    (∃ (t : Instant) (sh : Fin 48) (addr : Word) (d : BitVec 512) (qtmo : Word) (s : State) (i : Nat), s.runningOn sh = some i ∧ addr.toNat % 64 = 0 ∧
      s.windowOk sh addr.toNat 64 0 = true ∧ s.submitOk (s.task i).partition (TaskDesc.ofBytes d.toNat) (s.task i).desc.supervisor = true ∧
      s.slotFree (s.task i).partition = false) ∧
    (∃ (t : Instant) (sh : Fin 48) (addr : Word) (d : BitVec 512) (qtmo : Word) (s : State) (i : Nat), s.runningOn sh = some i ∧ addr.toNat % 64 = 0 ∧
      s.windowOk sh addr.toNat 64 0 = true ∧ s.submitOk (s.task i).partition (TaskDesc.ofBytes d.toNat) (s.task i).desc.supervisor = true ∧
      s.slotFree (s.task i).partition = false ∧ s.sched.ready.contains i = false) ∧
    (∃ (t : Instant) (sh : Fin 48) (addr : Word) (d : BitVec 512) (nowait : Bool) (qtmo : Word) (s : State) (i : Nat), s.runningOn sh = some i ∧
      addr.toNat % 64 ≠ 0 ∧ s.slotUsed i = true ∧ (s.task i).phase ≠ .ended ∧ (s.task i).desc.noflow = false) ∧
    (∃ (t : Instant) (sh : Fin 48) (handle : Word) (s : State) (i : Nat) (j : Nat), s.runningOn sh = some i ∧ s.slotOf handle.toNat = some j ∧
      (s.task j).partition = (s.task i).partition ∧ (((s.task j).phase = .waiting ∨ ((s.task j).phase = .ready ∧ (s.task j).inflight = false)))) ∧
    (∃ (t : Instant) (sh : Fin 48) (handle : Word) (s : State) (i : Nat) (j : Nat), s.runningOn sh = some i ∧ s.slotOf handle.toNat = some j ∧
      (s.task j).partition = (s.task i).partition ∧ (((s.task j).phase = .running ∨ (s.task j).phase = .parked))) ∧
    (∃ (t : Instant) (sh : Fin 48) (handle : Word) (s : State) (i : Nat), s.runningOn sh = some i ∧ s.slotOf handle.toNat = none) ∧
    (∃ (t : Instant) (sh : Fin 48) (handle : Word) (s : State) (i : Nat) (j : Nat), s.runningOn sh = some i ∧ s.slotOf handle.toNat = some j ∧
      (s.task j).partition ≠ (s.task i).partition) ∧
    (∃ (t : Instant) (sh : Fin 48) (flow : Fin 64) (drop : Bool) (s : State) (i : Nat), s.runningOn sh = some i ∧ (s.task i).desc.supervisor = true ∧
      s.rd F.FLOW_STATE_HELD (64 * (s.task i).partition + flow) ≠ 0) ∧
    (∃ (t : Instant) (sh : Fin 48) (flow : Fin 64) (drop : Bool) (s : State) (i : Nat), s.runningOn sh = some i ∧
      (((s.task i).desc.supervisor = false ∨ s.rd F.FLOW_STATE_HELD (64 * (s.task i).partition + flow) = 0))) ∧
    (∃ (t : Instant) (sh : Fin 48) (sel : Word) (s : State) (i : Nat), s.runningOn sh = some i) ∧
    (∃ (t : Instant) (p : Fin 16) (d : BitVec 512) (s : State), s.mayExecute 7 p anyArgs = true ∧ s.nextFits p = true ∧
      s.submitOk p (TaskDesc.ofBytes d.toNat) true = true ∧ s.slotFree p = true) ∧
    (∃ (t : Instant) (p : Fin 16) (d : BitVec 512) (s : State), s.mayExecute 7 p anyArgs = true ∧ s.nextFits p = true ∧
      ((s.submitOk p (TaskDesc.ofBytes d.toNat) true = false ∨ s.slotFree p = false))) ∧
    (∃ (t : Instant) (p : Fin 16) (handle : Word) (s : State) (j : Nat), s.mayExecute 8 p (fun c => c.arg0 == handle.toNat) = true ∧
      s.nextFits p = true ∧ s.slotOf handle.toNat = some j ∧ (s.task j).partition = p ∧ (((s.task j).phase = .waiting ∨ ((s.task j).phase = .ready ∧
      (s.task j).inflight = false)))) ∧
    (∃ (t : Instant) (p : Fin 16) (handle : Word) (s : State), s.mayExecute 8 p (fun c => c.arg0 == handle.toNat) = true ∧ s.nextFits p = true ∧
      s.slotOf handle.toNat = none) ∧
    (∃ (t : Instant) (f : Fin 1024) (drop : Bool) (s : State), s.admits (0x806000 + 4 * f) = true ∧ s.rd F.FLOW_STATE_HELD f ≠ 0) ∧
    (∃ (t : Instant) (f : Fin 1024) (drop : Bool) (s : State), s.admits (0x806000 + 4 * f) = true ∧ s.rd F.FLOW_STATE_HELD f = 0) :=
  ⟨⟨5, 4, 0xF0000000, descBits plainTask, false, 0, taskUp, 9, by decide +kernel⟩,
   ⟨5, 4, 0xF0000000, descBits { plainTask with prio := 64 }, false, 0, taskUp, 9, by decide +kernel⟩,
   ⟨5, 4, 0xF0000000, descBits plainTask, 0, taskUp.wr F.PS_QUOTA 1 2, 9, by decide +kernel⟩,
   ⟨5, 4, 0xF0000000, descBits plainTask, 0, taskUp.wr F.PS_QUOTA 1 2, 9, by decide +kernel⟩,
   ⟨5, 4, 0xF0000001, 0, false, 0, taskUp.putTask 9 { runTask with desc := { plainTask with flags := 0, flow := 3 } }, 9, by decide +kernel⟩,
   ⟨5, 4, 11, waitUp, 9, 11, by decide +kernel⟩,
   ⟨5, 4, 0x3009, taskUp, 9, 9, by decide +kernel⟩,
   ⟨5, 4, 0x2009, taskUp, 9, by decide +kernel⟩,
   ⟨5, 4, 11, waitUp.putTask 11 { runTask with partition := 3, phase := .waiting, count := 1, shuttle := none, inflight := false }, 9, 11, by decide +kernel⟩,
   ⟨5, 4, 3, true, (taskUp.putTask 9 { runTask with desc := { plainTask with flags := 12 } }).wr F.FLOW_STATE_HELD 1 131, 9, by decide +kernel⟩,
   ⟨5, 4, 3, false, taskUp, 9, by decide +kernel⟩,
   ⟨5, 4, 0x202, taskUp, 9, by decide +kernel⟩,
   ⟨5, 2, descBits plainTask, taskUp.sent 2 7 0 0, by decide +kernel⟩,
   ⟨5, 2, descBits { plainTask with prio := 64 }, taskUp.sent 2 7 0 0, by decide +kernel⟩,
   ⟨5, 2, 11, waitUp.sent 2 8 11 0, 11, by decide +kernel⟩,
   ⟨5, 2, 12, waitUp.sent 2 8 12 0, by decide +kernel⟩,
   ⟨5, 131, true, taskUp.wr F.FLOW_STATE_HELD 1 131, by decide +kernel⟩,
   ⟨5, 131, true, taskUp, by decide +kernel⟩⟩

theorem witness_TasksEndRetryAndTimeOut :
    (∃ (t : Instant) (sh : Fin 48) (code : Word) (s : State) (i : Nat), s.runningOn sh = some i ∧ s.slotUsed i = true ∧ (s.task i).phase ≠ .ended ∧
      (s.task i).desc.noflow = true ∧ (s.task i).desc.nsucc = 0 ∧ (s.task i).desc.cqEn = false ∧ s.sched.claims = []) ∧
    (∃ (t : Instant) (sh : Fin 48) (code : Word) (s : State) (i : Nat), s.runningOn sh = some i ∧ s.slotUsed i = true ∧ (s.task i).phase ≠ .ended ∧
      (s.task i).desc.noflow = true ∧ (s.task i).desc.nsucc = 0 ∧ (s.task i).desc.cqEn = true ∧ 0 < s.credits (s.task i).desc.cq ∧
      (s.queue (s.task i).desc.cq).poppers = [] ∧ (s.queue (s.task i).desc.cq).pushers = []) ∧
    (∃ (t : Instant) (sh : Fin 48) (code : Word) (s : State) (i : Nat) (j : Nat) (h : Nat), s.runningOn sh = some i ∧ s.slotUsed i = true ∧
      (s.task i).phase ≠ .ended ∧ (s.task i).desc.nsucc = 1 ∧ (s.task i).desc.succ = [h] ∧ s.slotOf h = some j ∧ i ≠ j ∧
      (s.task j).partition = (s.task i).partition ∧ (s.task j).phase = .waiting ∧ 1 < (s.task j).count ∧
      (s.flow (64 * (s.task i).partition + (s.task i).desc.flow)).all (fun k => !(s.task k).cancelled) = true ∧ s.sched.ready.contains j = false ∧
      (s.flow (64 * (s.task i).partition + (s.task i).desc.flow)).contains j = false ∧ (s.task i).desc.cqEn = false ∧ s.sched.claims = []) ∧
    (∃ (t : Instant) (sh : Fin 48) (code : Word) (s : State) (i : Nat), s.runningOn sh = some i ∧ s.slotUsed i = true ∧ (s.task i).phase ≠ .ended ∧
      (s.task i).desc.noflow = false ∧ (s.task i).inflight = true ∧ (s.task i).desc.nsucc = 0 ∧ (s.task i).desc.cqEn = false ∧ s.sched.claims = [] ∧
      s.flow (64 * (s.task i).partition + (s.task i).desc.flow) = [] ∧ s.sched.ready = []) ∧
    (∃ (t : Instant) (sh : Fin 48) (s : State) (i : Nat), s.runningOn sh = some i ∧ s.sched.ready.contains i = false) ∧
    (∃ (t : Instant) (sh : Fin 48) (cause : TaskCause) (detail : Word) (s : State) (i : Nat), s.runningOn sh = some i ∧ 2 ≤ cause.code ∧
      cause.code < 16 ∧ s.slotUsed i = true ∧ (s.task i).phase ≠ .ended ∧ (s.task i).desc.noflow = true ∧ (s.task i).desc.nsucc = 0 ∧
      (s.task i).desc.cqEn = false ∧ s.sched.claims = []) ∧
    (∃ (t : Instant) (sh : Fin 48) (cause : TaskCause) (detail : Word) (s : State) (i : Nat), s.runningOn sh = some i ∧ 2 ≤ cause.code ∧
      cause.code < 16 ∧ s.slotUsed i = true ∧ (s.task i).phase ≠ .ended ∧ (s.task i).desc.noflow = false) ∧
    (∃ (t : Instant) (sh : Fin 48) (cause : TaskCause) (detail : Word) (s : State) (i : Nat), s.runningOn sh = some i ∧ 16 ≤ cause.code ∧
      (s.task i).desc.idempotent = true ∧ (s.task i).retries < (s.task i).desc.retryMax ∧
      ((s.shuttle sh).faults.filter (fun f => decide (sinceNs (s.advance t).now f ≤ 1000000000))).length < 2) ∧
    (∃ (t : Instant) (sh : Fin 48) (cause : TaskCause) (detail : Word) (s : State) (i : Nat), s.runningOn sh = some i ∧ 16 ≤ cause.code ∧
      2 ≤ ((s.shuttle sh).faults.filter (fun f => decide (sinceNs (s.advance t).now f ≤ 1000000000))).length) ∧
    (∃ (t : Instant) (sh : Fin 48) (cause : TaskCause) (detail : Word) (s : State) (i : Nat), s.runningOn sh = some i ∧ 16 ≤ cause.code ∧
      (((s.task i).desc.idempotent = false ∨ (s.task i).desc.retryMax ≤ (s.task i).retries)) ∧ s.slotUsed i = true ∧ (s.task i).phase ≠ .ended ∧
      (s.task i).desc.noflow = true ∧ (s.task i).desc.nsucc = 0 ∧ (s.task i).desc.cqEn = false ∧ s.sched.claims = []) ∧
    (∃ (t : Instant) (sh : Fin 48) (s : State) (i : Nat), s.runningOn sh = some i ∧ (s.task i).desc.runMs ≠ 0 ∧
      16000000 * (s.task i).desc.runMs ≤ (s.task i).ran + ((s.advance t).now - (s.task i).runFrom).toNat ∧ s.slotUsed i = true ∧
      (s.task i).phase ≠ .ended ∧ (s.task i).desc.noflow = true ∧ (s.task i).desc.nsucc = 0 ∧ (s.task i).desc.cqEn = false ∧ s.sched.claims = []) ∧
    (∃ (t : Instant) (sh : Fin 48) (s : State) (i : Nat), s.runningOn sh = some i ∧ (s.task i).desc.runMs ≠ 0 ∧
      16000000 * (s.task i).desc.runMs ≤ (s.task i).ran + ((s.advance t).now - (s.task i).runFrom).toNat ∧ s.slotUsed i = true ∧
      (s.task i).phase ≠ .ended ∧ (s.task i).desc.noflow = false) ∧
    (∃ (t : Instant) (slot : Fin 4096) (s : State) (w : WaitFor) (d : Instant), (s.task slot).phase = .parked ∧ (s.task slot).wait = some (w, d) ∧
      s.slotUsed slot = true ∧ notLater d (s.advance t).now = true) ∧
    (∃ (t : Instant) (sh : Fin 48) (s : State), s.rd F.SH_STATUS_STATE sh = 2) ∧
    (∃ (t : Instant) (sh : Fin 48) (s : State), s.rd F.SH_STATUS_STATE sh = 2 ∧ s.sched.ready = []) ∧
    (∃ (t : Instant) (sh : Fin 48) (s : State), s.rd F.SH_STATUS_STATE sh = 2) ∧
    (∃ (t : Instant) (sh : Fin 48) (s : State), s.admits (0x80300C + 0x10 * sh) = true ∧ s.rd F.SH_STATUS_STATE sh = 3) :=
  ⟨⟨5, 4, 0, taskUp, 9, by decide +kernel⟩,
   ⟨5, 4, 3, taskUp.putTask 9 { runTask with desc := { plainTask with flags := 24, cq := 6, tag := 77 } }, 9, by decide +kernel⟩,
   ⟨5, 4, 3, (waitUp.putTask 11 { runTask with phase := .waiting, count := 2, shuttle := none, inflight := false }).putTask 9 { runTask with desc := { plainTask with nsucc := 1, succ := [11] } }, 9, 11, 11, by decide +kernel⟩,
   ⟨5, 4, 3, taskUp.putTask 9 { runTask with desc := { plainTask with flags := 0, flow := 3 } }, 9, by decide +kernel⟩,
   ⟨1600, 4, taskUp, 9, by decide +kernel⟩,
   ⟨5, 4, .illegal, 0, taskUp, 9, by decide +kernel⟩,
   ⟨5, 4, .prot, 0, taskUp.putTask 9 { runTask with desc := { plainTask with flags := 0, flow := 3 } }, 9, by decide +kernel⟩,
   ⟨5, 4, .parity, 0, taskUp.putTask 9 { runTask with desc := { plainTask with flags := 9, retryMax := 2 } }, 9, by decide +kernel⟩,
   ⟨5, 4, .ecc, 0, taskUp.putShuttle 4 { Shuttle.init with faults := [0, 3] }, 9, by decide +kernel⟩,
   ⟨5, 4, .ecc, 0, taskUp, 9, by decide +kernel⟩,
   ⟨16000000, 4, taskUp.putTask 9 { runTask with desc := { plainTask with runMs := 1 } }, 9, by decide +kernel⟩,
   ⟨16000000, 4, taskUp.putTask 9 { runTask with desc := { plainTask with flags := 0, flow := 3, runMs := 1 } }, 9, by decide +kernel⟩,
   ⟨1600, 11, waitUp.putTask 11 { runTask with phase := .parked, wait := some (.credit 6 oneEntry, 160) }, .credit 6 oneEntry, 160, by decide +kernel⟩,
   ⟨1600, 4, taskUp.wr F.SH_STATUS_STATE 2 4, by decide +kernel⟩,
   ⟨1600, 4, taskUp.wr F.SH_STATUS_STATE 2 4, by decide +kernel⟩,
   ⟨1600, 4, taskUp.wr F.SH_STATUS_STATE 2 4, by decide +kernel⟩,
   ⟨1600, 4, taskUp.wr F.SH_STATUS_STATE 3 4, by decide +kernel⟩⟩

theorem witness_HardwareQueuesKeepTheirOrder :
    (∃ (t : Instant) (sh : Fin 48) (h : Fin 128) (addr : Word) (e : QEntry) (nowait : Bool) (qtmo : Word) (s : State) (i : Nat), s.runningOn sh = some i ∧
      addr.toNat % 16 = 0 ∧ s.windowOk sh addr.toNat 16 0 = true ∧ s.owner (queueKey h) = some (s.task i).partition ∧ s.rd F.HQ_CFG_KIND h ≠ 2 ∧
      ((e.type = 0 ∨ 0x80 ≤ e.type)) ∧ 0 < s.credits h ∧ (s.queue h).poppers = [] ∧ (s.queue h).pushers = []) ∧
    (∃ (t : Instant) (sh : Fin 48) (h : Fin 128) (addr : Word) (e : QEntry) (qtmo : Word) (s : State) (i : Nat), s.runningOn sh = some i ∧
      addr.toNat % 16 = 0 ∧ s.windowOk sh addr.toNat 16 0 = true ∧ s.owner (queueKey h) = some (s.task i).partition ∧ s.rd F.HQ_CFG_KIND h ≠ 2 ∧
      ((e.type = 0 ∨ 0x80 ≤ e.type)) ∧ s.credits h = 0) ∧
    (∃ (t : Instant) (sh : Fin 48) (h : Fin 128) (addr : Word) (e : QEntry) (qtmo : Word) (s : State) (i : Nat), s.runningOn sh = some i ∧
      addr.toNat % 16 = 0 ∧ s.windowOk sh addr.toNat 16 0 = true ∧ s.owner (queueKey h) = some (s.task i).partition ∧ s.rd F.HQ_CFG_KIND h ≠ 2 ∧
      ((e.type = 0 ∨ 0x80 ≤ e.type)) ∧ s.credits h = 0 ∧ s.sched.ready.contains i = false) ∧
    (∃ (t : Instant) (sh : Fin 48) (h : Fin 128) (addr : Word) (e : QEntry) (nowait : Bool) (qtmo : Word) (s : State) (i : Nat), s.runningOn sh = some i ∧
      addr.toNat % 16 = 0 ∧ s.windowOk sh addr.toNat 16 0 = true ∧ ((s.owner (queueKey h) ≠ some (s.task i).partition ∨ s.rd F.HQ_CFG_KIND h = 2 ∨
      (1 ≤ e.type ∧ e.type ≤ 0x7F)))) ∧
    (∃ (t : Instant) (sh : Fin 48) (h : Fin 128) (addr : Word) (e : QEntry) (nowait : Bool) (qtmo : Word) (s : State) (i : Nat), s.runningOn sh = some i ∧
      addr.toNat % 16 ≠ 0 ∧ s.slotUsed i = true ∧ (s.task i).phase ≠ .ended ∧ (s.task i).desc.noflow = false) ∧
    (∃ (t : Instant) (sh : Fin 48) (h : Fin 128) (addr : Word) (nowait : Bool) (qtmo : Word) (s : State) (i : Nat) (e : QEntry) (rest : List QEntry), s.runningOn sh = some i ∧
      addr.toNat % 16 = 0 ∧ s.windowOk sh addr.toNat 16 1 = true ∧ s.owner (queueKey h) = some (s.task i).partition ∧ s.rd F.HQ_CFG_KIND h ≠ 1 ∧
      (s.queue h).entries = e :: rest ∧ (s.queue h).pushers = [] ∧ (s.queue h).poppers = []) ∧
    (∃ (t : Instant) (sh : Fin 48) (h : Fin 128) (addr : Word) (nowait : Bool) (qtmo : Word) (s : State) (i : Nat) (e : QEntry) (rest : List QEntry) (a : Nat × Nat), s.runningOn sh = some i ∧
      addr.toNat % 16 = 0 ∧ s.windowOk sh addr.toNat 16 1 = true ∧ s.owner (queueKey h) = some (s.task i).partition ∧ s.rd F.HQ_CFG_KIND h ≠ 1 ∧
      (s.queue h).entries = e :: rest ∧ (s.queue h).pushers = [] ∧ (s.queue h).poppers = [] ∧
      shuttlePlace (s.task i).partition sh addr.toNat = some a ∧ s.sched.ready = []) ∧
    (∃ (t : Instant) (sh : Fin 48) (h : Fin 128) (addr : Word) (qtmo : Word) (s : State) (i : Nat), s.runningOn sh = some i ∧ addr.toNat % 16 = 0 ∧
      s.windowOk sh addr.toNat 16 1 = true ∧ s.owner (queueKey h) = some (s.task i).partition ∧ s.rd F.HQ_CFG_KIND h ≠ 1 ∧ (s.queue h).entries = []) ∧
    (∃ (t : Instant) (sh : Fin 48) (h : Fin 128) (addr : Word) (qtmo : Word) (s : State) (i : Nat), s.runningOn sh = some i ∧ addr.toNat % 16 = 0 ∧
      s.windowOk sh addr.toNat 16 1 = true ∧ s.owner (queueKey h) = some (s.task i).partition ∧ s.rd F.HQ_CFG_KIND h ≠ 1 ∧ (s.queue h).entries = [] ∧
      s.sched.ready.contains i = false) ∧
    (∃ (t : Instant) (sh : Fin 48) (h : Fin 128) (addr : Word) (nowait : Bool) (qtmo : Word) (s : State) (i : Nat), s.runningOn sh = some i ∧
      addr.toNat % 16 = 0 ∧ s.windowOk sh addr.toNat 16 1 = true ∧ ((s.owner (queueKey h) ≠ some (s.task i).partition ∨ s.rd F.HQ_CFG_KIND h = 1))) ∧
    (∃ (t : Instant) (sh : Fin 48) (h : Fin 128) (addr : Word) (nowait : Bool) (qtmo : Word) (s : State) (i : Nat), s.runningOn sh = some i ∧
      addr.toNat % 16 ≠ 0 ∧ s.slotUsed i = true ∧ (s.task i).phase ≠ .ended ∧ (s.task i).desc.noflow = false) ∧
    (∃ (t : Instant) (p : Fin 16) (h : Fin 128) (es : List QEntry) (s : State), s.mayExecute 9 p (fun c => c.arg0 == h.val) = true ∧
      s.nextFits p = true ∧ s.owner (queueKey h) = some p.val ∧ s.rd F.HQ_CFG_KIND h = 2 ∧
      es.all (fun e => e.type == 0 || decide (0x80 ≤ e.type)) = true ∧ (s.queue h).poppers = [] ∧ (s.queue h).pushers = []) ∧
    (∃ (t : Instant) (p : Fin 16) (h : Fin 128) (es : List QEntry) (s : State), s.mayExecute 9 p (fun c => c.arg0 == h.val) = true ∧
      s.nextFits p = true ∧ ((s.owner (queueKey h) ≠ some p.val ∨ s.rd F.HQ_CFG_KIND h ≠ 2 ∨
      es.any (fun e => decide (1 ≤ e.type) && decide (e.type ≤ 0x7F)) = true))) ∧
    (∃ (t : Instant) (p : Fin 16) (h : Fin 128) (most : Word) (s : State), s.mayExecute 0xA p (fun c => c.arg0 == h.val && c.arg1 == most.toNat) = true ∧
      s.nextFits p = true ∧ s.owner (queueKey h) = some p.val ∧ s.rd F.HQ_CFG_KIND h = 1 ∧ (s.queue h).poppers = [] ∧ (s.queue h).pushers = []) ∧
    (∃ (t : Instant) (p : Fin 16) (h : Fin 128) (most : Word) (s : State), s.mayExecute 0xA p (fun c => c.arg0 == h.val && c.arg1 == most.toNat) = true ∧
      s.nextFits p = true ∧ ((s.owner (queueKey h) ≠ some p.val ∨ s.rd F.HQ_CFG_KIND h ≠ 1))) :=
  ⟨⟨5, 4, 6, 0xF0000000, oneEntry, false, 0, taskUp, 9, by decide +kernel⟩,
   ⟨5, 4, 6, 0xF0000000, oneEntry, 0, (taskUp.wr F.HQ_CFG_DEPTH_LOG2 0 6).putQueue 6 ⟨[oneEntry], [], []⟩, 9, by decide +kernel⟩,
   ⟨5, 4, 6, 0xF0000000, oneEntry, 0, (taskUp.wr F.HQ_CFG_DEPTH_LOG2 0 6).putQueue 6 ⟨[oneEntry], [], []⟩, 9, by decide +kernel⟩,
   ⟨5, 4, 5, 0xF0000000, oneEntry, false, 0, taskUp, 9, by decide +kernel⟩,
   ⟨5, 4, 6, 0xF0000008, oneEntry, false, 0, taskUp.putTask 9 { runTask with desc := { plainTask with flags := 0, flow := 3 } }, 9, by decide +kernel⟩,
   ⟨5, 4, 6, 0xF0000000, false, 0, taskUp.putQueue 6 ⟨[oneEntry], [], []⟩, 9, oneEntry, [], by decide +kernel⟩,
   ⟨5, 4, 6, 0xF0000000, false, 0, taskUp.putQueue 6 ⟨[oneEntry], [], []⟩, 9, oneEntry, [], (2, 0x20000), by decide +kernel⟩,
   ⟨5, 4, 6, 0xF0000000, 0, taskUp, 9, by decide +kernel⟩,
   ⟨5, 4, 6, 0xF0000000, 0, taskUp, 9, by decide +kernel⟩,
   ⟨5, 4, 5, 0xF0000000, false, 0, taskUp, 9, by decide +kernel⟩,
   ⟨5, 4, 6, 0xF0000008, false, 0, taskUp.putTask 9 { runTask with desc := { plainTask with flags := 0, flow := 3 } }, 9, by decide +kernel⟩,
   ⟨5, 2, 6, [oneEntry, oneEntry], (taskUp.wr F.HQ_CFG_KIND 2 6).sent 2 9 6 0, by decide +kernel⟩,
   ⟨5, 2, 6, [oneEntry], taskUp.sent 2 9 6 0, by decide +kernel⟩,
   ⟨5, 2, 6, 1, (((taskUp.wr F.HQ_CFG_KIND 1 6).putQueue 6 ⟨[oneEntry], [], []⟩).sent 2 0xA 6 1), by decide +kernel⟩,
   ⟨5, 2, 6, 1, taskUp.sent 2 0xA 6 1, by decide +kernel⟩⟩

theorem witness_ProgramsLoadStartAndStop :
    (∃ (t : Instant) (p : Fin 16) (img : Program) (s : State), s.mayExecute 4 p anyArgs = true ∧ s.programResult p img = 0) ∧
    (∃ (t : Instant) (p : Fin 16) (img : Program) (s : State), s.mayExecute 4 p anyArgs = true ∧ s.programResult p img ≠ 0) ∧
    (∃ (t : Instant) (p : Fin 16) (task : Word) (data : List Byte) (s : State) (g : Program), s.mayExecute 6 p (fun c => c.arg0 == task.toNat) = true ∧
      (s.cycPart p).prog = some g ∧ task.toNat < 8 ∧ data.length = hostBytes g task.toNat) ∧
    (∃ (t : Instant) (p : Fin 16) (task : Word) (data : List Byte) (s : State), s.mayExecute 6 p (fun c => c.arg0 == task.toNat) = true ∧
      s.nextFits p = true ∧ (s.cycPart p).prog.all (fun g => decide (8 ≤ task.toNat) || data.length != hostBytes g task.toNat) = true) ∧
    (∃ (t : Instant) (p : Fin 16) (value : Word) (s : State) (g : Program), s.admits (0x900000 + 0x200 * p) = true ∧ cpBits value = [0] ∧
      value.toNat / 256 % 4 = 0 ∧ s.rd F.CP_STATUS_STATE p = 0 ∧ s.mayStart p = true ∧ (s.cycPart p).prog = some g) ∧
    (∃ (t : Instant) (p : Fin 16) (value : Word) (s : State), s.admits (0x900000 + 0x200 * p) = true ∧ cpBits value = [2] ∧
      value.toNat / 256 % 4 = 1 ∧ s.rd F.CP_STATUS_STATE p = 1) ∧
    (∃ (t : Instant) (p : Fin 16) (value : Word) (s : State), s.admits (0x900000 + 0x200 * p) = true ∧ cpBits value = [3] ∧
      value.toNat / 256 % 4 = 2 ∧ s.rd F.CP_STATUS_STATE p = 2) ∧
    (∃ (t : Instant) (p : Fin 16) (value : Word) (s : State), s.admits (0x900000 + 0x200 * p) = true ∧ cpBits value = [1] ∧
      value.toNat / 256 % 4 = s.rd F.CP_STATUS_STATE p ∧ ((s.rd F.CP_STATUS_STATE p = 1 ∨ s.rd F.CP_STATUS_STATE p = 2))) ∧
    (∃ (t : Instant) (p : Fin 16) (value : Word) (s : State), s.admits (0x900000 + 0x200 * p) = true ∧ cpBits value = [0] ∧
      value.toNat / 256 % 4 ≠ s.rd F.CP_STATUS_STATE p) ∧
    (∃ (t : Instant) (p : Fin 16) (value : Word) (s : State), s.admits (0x900000 + 0x200 * p) = true ∧ cpBits value = [1] ∧
      value.toNat / 256 % 4 ≠ s.rd F.CP_STATUS_STATE p) ∧
    (∃ (t : Instant) (p : Fin 16) (value : Word) (s : State), s.admits (0x900000 + 0x200 * p) = true ∧ cpBits value = [2] ∧
      value.toNat / 256 % 4 ≠ s.rd F.CP_STATUS_STATE p) ∧
    (∃ (t : Instant) (p : Fin 16) (value : Word) (s : State), s.admits (0x900000 + 0x200 * p) = true ∧ cpBits value = [3] ∧
      value.toNat / 256 % 4 ≠ s.rd F.CP_STATUS_STATE p) ∧
    (∃ (t : Instant) (p : Fin 16) (value : Word) (s : State), s.admits (0x900000 + 0x200 * p) = true ∧ ((2 ≤ (cpBits value).length ∨
      (cpBits value = [0] ∧ value.toNat / 256 % 4 = s.rd F.CP_STATUS_STATE p ∧ (s.rd F.CP_STATUS_STATE p ≠ 0 ∨ s.mayStart p = false))))) ∧
    (∃ (t : Instant) (p : Fin 16) (value : Word) (s : State), s.admits (0x900000 + 0x200 * p) = true ∧ ((2 ≤ (cpBits value).length ∨
      (cpBits value = [1] ∧ value.toNat / 256 % 4 = s.rd F.CP_STATUS_STATE p ∧ s.rd F.CP_STATUS_STATE p ≠ 1 ∧ s.rd F.CP_STATUS_STATE p ≠ 2)))) ∧
    (∃ (t : Instant) (p : Fin 16) (value : Word) (s : State), s.admits (0x900000 + 0x200 * p) = true ∧ ((2 ≤ (cpBits value).length ∨
      (cpBits value = [2] ∧ value.toNat / 256 % 4 = s.rd F.CP_STATUS_STATE p ∧ s.rd F.CP_STATUS_STATE p ≠ 1)))) ∧
    (∃ (t : Instant) (p : Fin 16) (value : Word) (s : State), s.admits (0x900000 + 0x200 * p) = true ∧ ((2 ≤ (cpBits value).length ∨
      (cpBits value = [3] ∧ value.toNat / 256 % 4 = s.rd F.CP_STATUS_STATE p ∧ s.rd F.CP_STATUS_STATE p ≠ 2)))) :=
  ⟨⟨5, 2, oneProgram, (rootUp (ownRec up (outKey 5) 2 (2 * 2 ^ 64))).sent 2 4 0 0, by decide +kernel⟩,
   ⟨5, 2, oneProgram, up.sent 2 4 0 0, by decide +kernel⟩,
   ⟨5, 2, 0, [], progUp.sent 2 6 0 0, oneProgram, by decide +kernel⟩,
   ⟨5, 2, 0, [7], progUp.sent 2 6 0 0, by decide +kernel⟩,
   ⟨5, 2, 1, progUp, oneProgram, by decide +kernel⟩,
   ⟨5, 2, 0x104, progUp.wr F.CP_STATUS_STATE 1 2, by decide +kernel⟩,
   ⟨5, 2, 0x208, progUp.wr F.CP_STATUS_STATE 2 2, by decide +kernel⟩,
   ⟨5, 2, 0x102, progUp.wr F.CP_STATUS_STATE 1 2, by decide +kernel⟩,
   ⟨5, 2, 1, progUp.wr F.CP_STATUS_STATE 1 2, by decide +kernel⟩,
   ⟨5, 2, 2, progUp.wr F.CP_STATUS_STATE 1 2, by decide +kernel⟩,
   ⟨5, 2, 4, progUp.wr F.CP_STATUS_STATE 1 2, by decide +kernel⟩,
   ⟨5, 2, 8, progUp.wr F.CP_STATUS_STATE 1 2, by decide +kernel⟩,
   ⟨5, 2, 3, progUp.wr F.CP_STATUS_STATE 1 2, by decide +kernel⟩,
   ⟨5, 2, 7, progUp.wr F.CP_STATUS_STATE 1 2, by decide +kernel⟩,
   ⟨5, 2, 0xC, progUp.wr F.CP_STATUS_STATE 1 2, by decide +kernel⟩,
   ⟨5, 2, 9, progUp.wr F.CP_STATUS_STATE 1 2, by decide +kernel⟩⟩

theorem witness_ScansLatchCloseAndRelease :
    (∃ (t : Instant) (p : Fin 16) (k : Fin 8) (s : State) (g : Program), (s.cycPart p).prog = some g ∧ s.scan (8 * p.val + k.val) = none ∧
      s.rd F.CP_STATUS_STATE p = 1 ∧ s.rd F.CT_CFG_EN (8 * p.val + k.val) ≠ 0 ∧
      onGrid (1000 * s.rd F.CT_PERIOD (8 * p.val + k.val)) (1000 * s.rd F.CT_PHASE (8 * p.val + k.val)) (s.advance t).now = true) ∧
    (∃ (t : Instant) (p : Fin 16) (k : Fin 8) (s : State) (g : Program) (c : Scan), (s.cycPart p).prog = some g ∧
      s.scan (8 * p.val + k.val) = some c ∧ s.sched.rootEnds.find (8 * p.val + k.val) = some 0 ∧ c.closed = false ∧
      notLater (s.advance t).now c.release = true) ∧
    (∃ (t : Instant) (p : Fin 16) (k : Fin 8) (s : State) (g : Program) (c : Scan) (e : MapEntry), (s.cycPart p).prog = some g ∧
      s.scan (8 * p.val + k.val) = some c ∧ c.release = (s.advance t).now ∧ c.closed = true ∧ g.outputs k = [e] ∧ e.kind = 4) ∧
    (∃ (t : Instant) (p : Fin 16) (k : Fin 8) (s : State) (g : Program) (c : Scan) (e : MapEntry) (r : BeamRec), (s.cycPart p).prog = some g ∧
      s.scan (8 * p.val + k.val) = some c ∧ c.release = (s.advance t).now ∧ c.closed = true ∧ g.outputs k = [e] ∧ e.kind = 6 ∧ e.src < 12288 ∧
      s.loom.records.find (vrKey e.src) = some r ∧ bytesAt r.active 0 4 / 2 ^ 28 = 6 ∧ s.quadOn (keySpace (vrKey e.src)) = true) ∧
    (∃ (t : Instant) (p : Fin 16) (k : Fin 8) (s : State) (g : Program) (c : Scan), (s.cycPart p).prog = some g ∧
      s.scan (8 * p.val + k.val) = some c ∧ c.release = (s.advance t).now ∧ c.closed = false) ∧
    (∃ (t : Instant) (s : State) (p : Fin 16) (g : Program), onGrid 1000000000 0 (s.advance t).now = true ∧ s.rd F.PWR_STATUS_STATE < 3 ∧
      s.rd F.CP_STATUS_LOADED p ≠ 0 ∧ (s.cycPart p).prog = some g ∧ (s.cycPart p).commit = none) ∧
    (∃ (t : Instant) (s : State) (p : Fin 16) (g : Program), s.cyc.powerLow = false ∧ s.rd F.PWR_STATUS_STATE < 3 ∧
      s.loaded.any (fun q => (s.cycPart q).commit.any (·.powerFail)) = false ∧ s.rd F.CP_STATUS_LOADED p ≠ 0 ∧ (s.cycPart p).prog = some g) ∧
    (∃ (t : Instant) (p : Fin 16) (s : State) (c : RetCommit), (s.cycPart p).commit = some c) ∧
    (∃ (t : Instant) (p : Fin 16) (w : Fin 16) (value : Word) (s : State) (j : Fin 32), s.admits (0x920000 + 0x40 * p + 4 * w) = true ∧
      s.rd F.CP_STATUS_STATE p ≠ 1 ∧ value.getLsbD j = true ∧ s.stationOk ((32 * w + j) / 128) ((32 * w + j) % 128) = true ∧
      (s.stationOwners ((32 * w + j) / 128) ((s.ring ((32 * w + j) / 128)).cfg.stations.getD ((32 * w + j) % 128) ⟨0, 0, 0, 0, 0, 0⟩)).contains p.val = true) ∧
    (∃ (t : Instant) (p : Fin 16) (w : Fin 16) (value : Word) (s : State), s.admits (0x920000 + 0x40 * p + 4 * w) = true ∧
      s.rd F.CP_STATUS_STATE p = 1) :=
  ⟨⟨16000000, 2, 0, progUp.wr F.CP_STATUS_STATE 1 2, oneProgram, by decide +kernel⟩,
   ⟨1600000, 2, 0, (progUp.putCycTask 16 { CycTask.init with scan := some { closedScan with closed := false } }).onSched (fun c => { c with rootEnds := c.rootEnds.set 16 0 }), oneProgram, { closedScan with closed := false }, by decide +kernel⟩,
   ⟨8000000, 2, 0, progUp.putCycTask 16 { CycTask.init with scan := some closedScan, out := List.replicate 64 0 ++ [1] }, oneProgram, closedScan, ⟨0, 1, 4, 0, 5, 0, 1⟩, by decide +kernel⟩,
   ⟨8000000, 2, 0, routeUp, routeProgram, closedScan, ⟨0, 1, 6, 0, 7, 4, 1⟩, ⟨some 2, 6 * 2 ^ 28 + 9, 0, 6 * 2 ^ 28 + 9, 6 * 2 ^ 28 + 9, false⟩, by decide +kernel⟩,
   ⟨8000000, 2, 0, (progUp.wr F.CP_STATUS_STATE 1 2).putCycTask 16 { CycTask.init with scan := some { closedScan with closed := false } }, oneProgram, { closedScan with closed := false }, by decide +kernel⟩,
   ⟨16000000000, progUp, 2, oneProgram, by decide +kernel⟩,
   ⟨160, progUp, 2, oneProgram, by decide +kernel⟩,
   ⟨160, 2, progUp.putCycPart 2 { CycPart.init with prog := some oneProgram, commit := some ⟨0, RetBank.init, true, 0⟩ }, ⟨0, RetBank.init, true, 0⟩, by decide +kernel⟩,
   ⟨160, 2, 0, 1, stationUp, 0, by decide +kernel⟩,
   ⟨160, 2, 0, 1, stationUp.wr F.CP_STATUS_STATE 1 2, by decide +kernel⟩⟩

theorem witness_RingsOpenDiscoverAndStart :
    (∃ (t : Instant) (r : Fin 4) (value : Word) (s : State), s.admits (ringOff r 0) = true ∧ value.toNat % 2 = 1 ∧ s.rd F.RING_STATUS_STATE r = 0 ∧
      (s.ring r).failed = false ∧ (s.ring r).laneF = true ∧ (s.ring r).laneR = true ∧ s.rd F.PWR_STATUS_STATE ≤ 1) ∧
    (∃ (t : Instant) (r : Fin 4) (value : Word) (s : State), s.admits (ringOff r 0) = true ∧ value.toNat % 2 = 1 ∧ ((s.rd F.RING_STATUS_STATE r ≠ 0 ∨
      (s.ring r).failed = true)) ∧ (s.ring r).laneF = true ∧ (s.ring r).laneR = true ∧ s.rd F.PWR_STATUS_STATE ≤ 1) ∧
    (∃ (t : Instant) (r : Fin 4) (value : Word) (s : State), s.admits (ringOff r 0) = true ∧ value.toNat % 2 = 1 ∧ s.rd F.RING_STATUS_STATE r = 0 ∧
      ((s.ring r).laneF && (s.ring r).laneR) = false) ∧
    (∃ (t : Instant) (r : Fin 4) (value : Word) (s : State), s.admits (ringOff r 0) = true ∧ value.toNat % 2 = 0 ∧ s.rd F.RING_STATUS_STATE r ≠ 0 ∧
      s.rd F.RING_STATUS_STATE r ≠ 4) ∧
    (∃ (t : Instant) (r : Fin 4) (value : Word) (s : State), s.admits (ringOff r 0) = true ∧ value.toNat % 2 = 0 ∧ s.rd F.RING_STATUS_STATE r = 4) ∧
    (∃ (t : Instant) (r : Fin 4) (laneF : Bool) (s : State), s.rd F.RING_STATUS_STATE r ≠ 0) ∧
    (∃ (t : Instant) (r : Fin 4) (laneF : Bool) (s : State), s.rd F.RING_STATUS_STATE r = 0 ∧ s.rd F.RING_CTRL_EN r ≠ 0 ∧
      s.rd F.PWR_STATUS_STATE ≤ 1 ∧ (s.ring r).failed = false ∧ (if laneF then (s.ring r).laneR = true else (s.ring r).laneF = true)) ∧
    (∃ (t : Instant) (r : Fin 4) (s : State), s.rd F.RING_STATUS_STATE r = 1 ∧ sinceNs (s.advance t).now (s.ring r).insertAt ≤ 10000000 ∧
      s.rd F.RING_CTRL_ROLE r = 0) ∧
    (∃ (t : Instant) (r : Fin 4) (s : State), s.rd F.RING_STATUS_STATE r = 1 ∧ sinceNs (s.advance t).now (s.ring r).insertAt ≤ 10000000 ∧
      s.rd F.RING_CTRL_ROLE r ≠ 0) ∧
    (∃ (t : Instant) (r : Fin 4) (s : State), s.rd F.RING_STATUS_STATE r = 1 ∧ 10000000 ≤ sinceNs (s.advance t).now (s.ring r).insertAt) ∧
    (∃ (t : Instant) (r : Fin 4) (s : State), s.admits (ringOff r 0) = true ∧ ((s.rd F.RING_STATUS_STATE r = 3 ∨ s.rd F.RING_STATUS_STATE r = 6))) ∧
    (∃ (t : Instant) (r : Fin 4) (s : State), s.admits (ringOff r 0) = true ∧ s.rd F.RING_STATUS_STATE r ≠ 3 ∧ s.rd F.RING_STATUS_STATE r ≠ 6) ∧
    (∃ (t : Instant) (r : Fin 4) (descs : List StationDesc) (s : State), s.rd F.RING_STATUS_STATE r = 2 ∧
      sinceNs (s.advance t).now (s.ring r).discAt ≤ 10000000) ∧
    (∃ (t : Instant) (r : Fin 4) (tx : Instant) (rx : Instant) (times : List Instant) (s : State), s.rd F.RING_STATUS_STATE r = 2 ∧
      (s.ring r).enumDone = true) ∧
    (∃ (t : Instant) (r : Fin 4) (tx : Instant) (rx : Instant) (times : List Instant) (s : State), s.rd F.RING_STATUS_STATE r = 2 ∧
      (s.ring r).enumDone = true) ∧
    (∃ (t : Instant) (r : Fin 4) (s : State), s.rd F.RING_STATUS_STATE r = 2 ∧ (s.ring r).enumDone = false ∧
      10000000 ≤ sinceNs (s.advance t).now (s.ring r).discAt) ∧
    (∃ (t : Instant) (r : Fin 4) (s : State), s.admits (ringOff r 0) = true ∧ s.rd F.RING_STATUS_STATE r = 3) ∧
    (∃ (t : Instant) (r : Fin 4) (s : State), s.admits (ringOff r 0) = true ∧ s.rd F.RING_STATUS_STATE r ≠ 3) ∧
    (∃ (t : Instant) (r : Fin 4) (s : State), s.admits (ringOff r 0) = true ∧ ((s.rd F.RING_STATUS_STATE r ≠ 4 ∨ s.ringOwnersStopped r = false))) ∧
    (∃ (t : Instant) (r : Fin 4) (s : State), s.admits (ringOff r 0) = true ∧ s.rd F.RING_STATUS_STATE r = 4 ∧ s.ringOwnersStopped r = true) :=
  ⟨⟨5, 1, 1, (ringUp 0).wr F.RING_STATUS_BYPASSED 1 1, by decide +kernel⟩,
   ⟨5, 1, 1, ringUp 4, by decide +kernel⟩,
   ⟨5, 1, 1, (ringUp 0).onRing (fun x => { x with laneR := false }), by decide +kernel⟩,
   ⟨5, 1, 0, ringUp 3, by decide +kernel⟩,
   ⟨5, 1, 0, ringUp 4, by decide +kernel⟩,
   ⟨5, 1, true, ringUp 4, by decide +kernel⟩,
   ⟨5, 1, false, (ringUp 0).onRing (fun x => { x with laneR := false }), by decide +kernel⟩,
   ⟨5, 1, ringUp 1, by decide +kernel⟩,
   ⟨5, 1, (ringUp 1).wr F.RING_CTRL_ROLE 1 1, by decide +kernel⟩,
   ⟨160000000, 1, ringUp 1, by decide +kernel⟩,
   ⟨5, 1, ringUp 6, by decide +kernel⟩,
   ⟨5, 1, ringUp 4, by decide +kernel⟩,
   ⟨5, 1, [], ringUp 2, by decide +kernel⟩,
   ⟨5, 1, 0, 0, [0], (ringUp 2).onRing (fun x => { x with enumDone := true }), by decide +kernel⟩,
   ⟨5, 1, 0, 0, [0], (ringUp 2).onRing (fun x => { x with enumDone := true }), by decide +kernel⟩,
   ⟨160000000, 1, ringUp 2, by decide +kernel⟩,
   ⟨5, 1, ringUp 3, by decide +kernel⟩,
   ⟨5, 1, ringUp 4, by decide +kernel⟩,
   ⟨5, 1, ringUp 3, by decide +kernel⟩,
   ⟨5, 1, ringUp 4, by decide +kernel⟩⟩

theorem witness_RingCyclesSendReceiveAndLose :
    (∃ (t : Instant) (r : Fin 4) (s : State), s.rd F.RING_STATUS_STATE r = 4 ∧ s.rd F.RING_CTRL_ROLE r = 0 ∧ s.rd F.WARP_STATUS_COARSE = 0 ∧
      onGrid (s.ring r).cfg.period (s.ring r).cfg.phase (s.advance t).now = true ∧ s.inPair = false ∧ (s.ring r).nextCycle < (s.ring r).reserve) ∧
    (∃ (t : Instant) (r : Fin 4) (s : State), s.rd F.RING_STATUS_STATE r = 3 ∧ (s.ring r).startDue = true ∧ s.rd F.RING_CTRL_ROLE r = 0 ∧
      s.rd F.WARP_STATUS_COARSE = 0 ∧ onGrid (s.ring r).cfg.period (s.ring r).cfg.phase (s.advance t).now = true ∧ s.inPair = false ∧
      (s.ring r).nextCycle < (s.ring r).reserve) ∧
    (∃ (t : Instant) (r : Fin 4) (s : State), s.rd F.RING_STATUS_STATE r = 4 ∧ s.rd F.RING_CTRL_ROLE r = 0 ∧ s.rd F.WARP_STATUS_COARSE = 0 ∧
      onGrid (s.ring r).cfg.period (s.ring r).cfg.phase (s.advance t).now = true ∧ s.inPair = false ∧ (s.ring r).reserve ≤ (s.ring r).nextCycle) ∧
    (∃ (t : Instant) (r : Fin 4) (frame : RxFrame) (s : State) (c : Instant) (g : SegRx) (d : StationCfg) (b : Byte), s.rd F.RING_STATUS_STATE r = 4 ∧
      frame.crcOk = true ∧ frame.echo = false ∧ frame.masterId = s.rd F.RING_MASTER_ID r ∧ (s.ring r).cycleAt = some c ∧ (s.ring r).got = false ∧
      sinceNs (s.advance t).now c ≤ ((s.ring r).cfg.rxLimit : Int) ∧ frame.cycle = s.rd F.RING_CYCLE r ∧ s.rd F.RING_STATUS_BROKEN r = 0 ∧
      s.inPair = false ∧ frame.segs = [g] ∧ g.station < (s.ring r).descs.length ∧ s.segValid r frame.cycle g = true ∧
      (s.ring r).cfg.stations[g.station]? = some d ∧ d.inLen = 1 ∧ g.input = [b]) ∧
    (∃ (t : Instant) (r : Fin 4) (onF : Bool) (frame : RxFrame) (s : State) (c : Instant), s.rd F.RING_STATUS_STATE r = 4 ∧ frame.crcOk = false ∧
      frame.echo = false ∧ (s.ring r).cycleAt = some c ∧ (s.ring r).got = false ∧ sinceNs (s.advance t).now c ≤ ((s.ring r).cfg.rxLimit : Int) ∧
      s.inPair = false ∧ s.rd F.RING_STATUS_BROKEN r = 0) ∧
    (∃ (t : Instant) (r : Fin 4) (onF : Bool) (frame : RxFrame) (s : State), s.rd F.RING_STATUS_STATE r = 4 ∧ frame.crcOk = false ∧ s.inPair = false ∧
      s.rd F.RING_STATUS_BROKEN r ≠ 0) ∧
    (∃ (t : Instant) (r : Fin 4) (onF : Bool) (frame : RxFrame) (s : State) (c : Instant), s.rd F.RING_STATUS_STATE r = 4 ∧ frame.crcOk = true ∧
      frame.echo = false ∧ frame.masterId = s.rd F.RING_MASTER_ID r ∧ (s.ring r).cycleAt = some c ∧ (s.ring r).got = false ∧
      sinceNs (s.advance t).now c ≤ ((s.ring r).cfg.rxLimit : Int) ∧ frame.cycle = s.rd F.RING_CYCLE r ∧ s.rd F.RING_STATUS_BROKEN r ≠ 0 ∧
      (if frame.reverse then (s.ring r).copyF = none else (s.ring r).copyR = none)) ∧
    (∃ (t : Instant) (r : Fin 4) (s : State) (c : Instant), s.rd F.RING_STATUS_STATE r = 4 ∧ (s.ring r).cycleAt = some c ∧
      sinceNs (s.advance t).now c = ((s.ring r).cfg.rxLimit : Int) ∧ s.inPair = false ∧ (s.ring r).got = false ∧ (s.ring r).lost = false ∧
      (s.ring r).looped = false ∧ s.rd F.RING_STATUS_BROKEN r = 0) ∧
    (∃ (t : Instant) (r : Fin 4) (s : State) (c : Instant), s.rd F.RING_STATUS_STATE r = 4 ∧ (s.ring r).cycleAt = some c ∧
      sinceNs (s.advance t).now c = ((s.ring r).cfg.rxLimit : Int) ∧ s.inPair = false ∧ s.rd F.RING_STATUS_BROKEN r = 0) ∧
    (∃ (t : Instant) (r : Fin 4) (value : Word) (s : State), s.admits (ringOff r 0x100) = true ∧ (s.ring r).hostAt = none) ∧
    (∃ (t : Instant) (r : Fin 4) (value : Word) (s : State), s.admits (ringOff r 0x100) = true ∧ (s.ring r).hostAt ≠ none) ∧
    (∃ (t : Instant) (r : Fin 4) (s : State) (a : Instant), (s.ring r).hostAt = some a ∧
      ((1000000 * (max 1 (s.rd F.RING_MBX_TMO r) : Nat) : Nat) : Int) ≤ sinceNs (s.advance t).now a) ∧
    (∃ (t : Instant) (r : Fin 4) (s : State) (i : Nat) (a : Instant), (s.ring r).hostAt = none ∧ (s.ring r).identAt = some (i, a) ∧
      ((1000000 * (max 1 (s.rd F.RING_MBX_TMO r) : Nat) : Nat) : Int) ≤ sinceNs (s.advance t).now a) ∧
    (∃ (t : Instant) (r : Fin 4) (s : State) (n : Nat), (s.ring r).raising = some n) :=
  ⟨⟨16000000, 1, ringUp 4, by decide +kernel⟩,
   ⟨16000000, 1, (ringUp 3).onRing (fun x => { x with startDue := true }), by decide +kernel⟩,
   ⟨16000000, 1, (ringUp 4).onRing (fun x => { x with reserve := 0 }), by decide +kernel⟩,
   ⟨160, 1, goodFrame, (ringUp 4).onRing (fun x => { x with cycleAt := some 0 }), 0, ⟨0, 1, true, [5]⟩, ⟨7, 8, 0, 1, 0, 1⟩, 5, by decide +kernel⟩,
   ⟨160, 1, true, { goodFrame with crcOk := false }, (ringUp 4).onRing (fun x => { x with cycleAt := some 0 }), 0, by decide +kernel⟩,
   ⟨160, 1, true, { goodFrame with crcOk := false }, ((ringUp 4).onRing (fun x => { x with cycleAt := some 0 })).wr F.RING_STATUS_BROKEN 1 1, by decide +kernel⟩,
   ⟨160, 1, true, goodFrame, ((ringUp 4).onRing (fun x => { x with cycleAt := some 0 })).wr F.RING_STATUS_BROKEN 1 1, 0, by decide +kernel⟩,
   ⟨320000, 1, (ringUp 4).onRing (fun x => { x with cycleAt := some 0 }), 0, by decide +kernel⟩,
   ⟨320000, 1, (ringUp 4).onRing (fun x => { x with cycleAt := some 0 }), 0, by decide +kernel⟩,
   ⟨160, 1, 5, ringUp 4, by decide +kernel⟩,
   ⟨160, 1, 5, (ringUp 4).onRing (fun x => { x with hostAt := some 0 }), by decide +kernel⟩,
   ⟨16000000000, 1, (ringUp 4).onRing (fun x => { x with hostAt := some 0 }), 0, by decide +kernel⟩,
   ⟨16000000000, 1, (ringUp 4).onRing (fun x => { x with identAt := some (0, 0) }), 0, 0, by decide +kernel⟩,
   ⟨16000000000, 1, (ringUp 4).onRing (fun x => { x with raising := some 7 }), 7, by decide +kernel⟩⟩

theorem witness_TheDieFollowsInputsTestsAndTheLink :
    (∃ (t : Instant) (c : SafCycle) (s : State), s.island.running = true) ∧
    (∃ (t : Instant) (s : State), s.island.running = true ∧ s.phase ≠ 4) ∧
    (∃ (t : Instant) (s : State), s.island.running = true ∧ s.phase = 4) ∧
    (∃ (t : Instant) (s : State), s.rd F.SAF_STATUS_LINK_OK ≠ 0 ∧ (s.advance t).safeSince s.island.wordAt 50 = true) ∧
    (∃ (t : Instant) (i : Fin 32) (s : State) (a : Instant), s.island.apart.find i = some a ∧ s.sinMode i ≠ 0 ∧
      (s.advance t).safeSince a (1000 * s.rd F.SIN_CFG_DISC_MS i) = true) ∧
    (∃ (t : Instant) (i : Fin 32) (fails : BitVec 32) (s : State) (m : MatrixImg), s.island.matrix = some m ∧ (m.input i).mode ≠ 0 ∧
      bitOf (m.input i).test 0 = true ∧ bitOf (s.rd F.SAF_SIN_A) i = true ∧ fails.getLsbD i = true) ∧
    (∃ (t : Instant) (i : Fin 32) (fails : BitVec 32) (s : State) (m : MatrixImg), s.island.matrix = some m ∧ (m.input i).mode ≠ 0 ∧
      bitOf (m.input i).test 0 = true ∧ bitOf (s.rd F.SAF_SIN_A) i = true ∧ fails.getLsbD i = false) ∧
    (∃ (t : Instant) (o : Fin 16) (s : State), s.rd F.SOUT_CFG_USED o ≠ 0) ∧
    (∃ (t : Instant) (o : Fin 16) (result : Fin 5) (s : State), s.rd F.SOUT_CFG_USED o ≠ 0 ∧ result.val ≠ 0 ∧ result.val ≠ 4) :=
  ⟨⟨5, ⟨3, 0, [], []⟩, safUp 1, by decide +kernel⟩,
   ⟨5, safUp 1, by decide +kernel⟩,
   ⟨5, safUp 4, by decide +kernel⟩,
   ⟨1600000, safUp 1, by decide +kernel⟩,
   ⟨1600000000, 0, (safUp 1).onSaf (fun x => { x with apart := x.apart.set 0 0 }), 0, by decide +kernel⟩,
   ⟨5, 0, 1, safUp 1, oneMatrix, by decide +kernel⟩,
   ⟨5, 0, 0, safUp 1, oneMatrix, by decide +kernel⟩,
   ⟨5, 0, safUp 1, by decide +kernel⟩,
   ⟨5, 0, 2, safUp 1, by decide +kernel⟩⟩

theorem witness_SafetyPhasesLoadsAndWefts :
    (∃ (t : Instant) (s : State), s.island.running = true ∧ s.phase = 0 ∧
      (s.onIsland (fun x => { x with agreed := x.agreed + 1, differed := 0 })).startWait = 0 ∧ s.rd F.SAF_STATUS_MATRIX_FAULT = 0 ∧
      s.handoverOk = true) ∧
    (∃ (t : Instant) (s : State), s.island.running = true ∧ s.phase = 0 ∧
      (s.onIsland (fun x => { x with agreed := x.agreed + 1, differed := 0 })).startWait = 0 ∧ s.rd F.SAF_STATUS_MATRIX_FAULT = 0 ∧
      s.handoverOk = false) ∧
    (∃ (t : Instant) (s : State), s.island.running = true ∧ s.phase = 2 ∧ s.island.proposal = 2 ∧ s.handoverOk = true) ∧
    (∃ (t : Instant) (s : State), s.island.running = true ∧ s.phase = 3 ∧ (s.advance t).safeSince s.island.agreeFrom 1000000 = true ∧
      9 ≤ s.island.agreed ∧ s.handoverOk = true) ∧
    (∃ (t : Instant) (s : State), s.island.running = true ∧ s.island.differed = 0) ∧
    (∃ (t : Instant) (s : State), s.island.running = true ∧ 1 ≤ s.island.differed) ∧
    (∃ (t : Instant) (s : State), ((s.phase = 1 ∨ s.phase = 3)) ∧ s.rd F.SAF_STATUS_OVC_ARMED ≠ 0) ∧
    (∃ (t : Instant) (s : State), ((s.phase = 0 ∨ s.phase = 2 ∨ ((s.phase = 1 ∨ s.phase = 3) ∧ s.rd F.SAF_STATUS_OVC_ARMED = 0)))) ∧
    (∃ (t : Instant) (s : State) (m : MatrixImg), s.island.eeprom = some m ∧ m.crcOk = true) ∧
    (∃ (t : Instant) (s : State), s.phase = 4 ∧ (s.advance t).safeSince s.island.phaseAt (960000 * s.rd F.SAF_OVC_WINDOW_S) = true) ∧
    (∃ (t : Instant) (s : State), s.phase = 1 ∧ (s.advance t).safeSince s.island.phaseAt 60000000 = true) ∧
    (∃ (t : Instant) (s : State), (s.advance t).sclkFree = false) ∧
    (∃ (t : Instant) (s : State) (bad : Bool), (s.advance t).sclkFree = true) ∧
    (∃ (t : Instant) (n : Fin 256) (f : WeftRx) (s : State) (g : SafProg) (e : WeftEntry) (q : Nat), s.island.prog = some g ∧
      g.conns[n.val]? = some e ∧ s.island.running = true ∧ e.role = 0 ∧ s.rd F.WC_STATUS_STATE n = 1 ∧ f.crcOk = true ∧ f.conn = e.conn ∧
      (s.weft n).seq = some q ∧ 1 ≤ (f.seq + 65536 - q) % 65536 ∧ (f.seq + 65536 - q) % 65536 ≤ 1000 ∧ f.safe = false) ∧
    (∃ (t : Instant) (n : Fin 256) (f : WeftRx) (s : State) (g : SafProg) (e : WeftEntry), s.island.prog = some g ∧ g.conns[n.val]? = some e ∧
      s.island.running = true ∧ e.role = 0 ∧ s.rd F.WC_STATUS_STATE n = 1 ∧ f.crcOk = false) ∧
    (∃ (t : Instant) (n : Fin 256) (f : WeftRx) (s : State) (g : SafProg) (e : WeftEntry), s.island.prog = some g ∧ g.conns[n.val]? = some e ∧
      s.island.running = true ∧ e.role = 0 ∧ s.rd F.WC_STATUS_STATE n = 1 ∧ f.crcOk = true ∧ f.conn = e.conn ∧ f.restart = true) ∧
    (∃ (t : Instant) (n : Fin 256) (f : WeftRx) (s : State) (g : SafProg) (e : WeftEntry) (q : Nat), s.island.prog = some g ∧
      g.conns[n.val]? = some e ∧ s.island.running = true ∧ e.role = 0 ∧ s.rd F.WC_STATUS_STATE n = 1 ∧ f.crcOk = true ∧ f.conn = e.conn ∧
      f.restart = false ∧ (s.weft n).seq = some q ∧ 1000 < (f.seq + 65536 - q) % 65536) ∧
    (∃ (t : Instant) (n : Fin 256) (f : WeftRx) (s : State) (g : SafProg) (e : WeftEntry) (q : Nat), s.island.prog = some g ∧
      g.conns[n.val]? = some e ∧ s.island.running = true ∧ e.role = 0 ∧ s.rd F.WC_STATUS_STATE n = 1 ∧ f.crcOk = true ∧ f.conn = e.conn ∧
      f.restart = false ∧ (s.weft n).seq = some q ∧ (f.seq + 65536 - q) % 65536 = 0) ∧
    (∃ (t : Instant) (n : Fin 256) (f : WeftRx) (s : State) (g : SafProg) (e : WeftEntry), s.island.prog = some g ∧ g.conns[n.val]? = some e ∧
      s.island.running = true ∧ e.role = 0 ∧ s.rd F.WC_STATUS_STATE n = 2 ∧ f.crcOk = true ∧ f.conn = e.conn ∧ f.restart = true) ∧
    (∃ (t : Instant) (n : Fin 256) (s : State), s.island.running = true ∧ s.rd F.WC_STATUS_ROLE n = 0 ∧ ((s.rd F.WC_STATUS_STATE n = 1 ∨
      s.rd F.WC_STATUS_STATE n = 3)) ∧ (s.advance t).safeSince (s.weft n).arrived (1000 * s.rd F.WC_EXP_DEADLINE_MS n) = true) ∧
    (∃ (t : Instant) (c : MatrixCont) (s : State), s.mayExecute 0x10 16 anyArgs = true ∧ s.safetyOpen = true ∧ s.containerOk c = true ∧
      c.image.crcOk = true) ∧
    (∃ (t : Instant) (c : MatrixCont) (readBack : Bool) (room : Bool) (s : State), s.mayExecute 0x10 16 anyArgs = true ∧ s.safetyOpen = false) ∧
    (∃ (t : Instant) (c : MatrixCont) (readBack : Bool) (room : Bool) (s : State), s.mayExecute 0x10 16 anyArgs = true ∧ s.containerOk c = false) ∧
    (∃ (t : Instant) (img : SafProg) (readBack : Bool) (room : Bool) (s : State), s.mayExecute 0x11 16 anyArgs = true ∧ ((s.safetyOpen = false ∨
      s.safProgOk img = false ∨ readBack = false))) ∧
    (∃ (t : Instant) (img : SafProg) (s : State), s.mayExecute 0x11 16 anyArgs = true ∧ s.safetyOpen = true ∧ s.safProgOk img = true) ∧
    (∃ (t : Instant) (phase : Word) (s : State), s.mayExecute 0x12 16 (fun c => c.arg0 == phase.toNat) = true) ∧
    (∃ (t : Instant) (mask : BitVec 16) (s : State) (o : Fin 16), s.mayExecute 0x13 16 (fun c => c.arg0 == mask.toNat) = true ∧
      (List.range 16).all (fun o => !mask.getLsbD o || !bitOf (s.rd F.SAF_SOUT_STATE_FAULT) o || decide (10 ≤ s.island.passes.get o 0)) = true ∧
      mask.getLsbD o = true) ∧
    (∃ (t : Instant) (mask : BitVec 16) (s : State) (o : Fin 16), s.mayExecute 0x13 16 (fun c => c.arg0 == mask.toNat) = true ∧
      mask.getLsbD o = true ∧ bitOf (s.rd F.SAF_SOUT_STATE_FAULT) o = true ∧ s.island.passes.get o 0 < 10) ∧
    (∃ (t : Instant) (s : State) (g : SafProg), s.island.running = false ∧ s.island.prog = some g ∧
      s.island.eeprom.any (fun m => m.digest == g.matrixDigest) = true) ∧
    (∃ (t : Instant) (s : State) (g : SafProg), s.island.running = false ∧ s.island.prog = some g) :=
  ⟨⟨5, safUp 0, by decide +kernel⟩,
   ⟨5, (safUp 0).wr F.SAF_SOUT_STATE_ENERGISED 1, by decide +kernel⟩,
   ⟨5, (safUp 2).onSaf (fun x => { x with proposal := 2 }), by decide +kernel⟩,
   ⟨17600000000, safUp 3, by decide +kernel⟩,
   ⟨5, safUp 1, by decide +kernel⟩,
   ⟨5, (safUp 1).onSaf (fun x => { x with differed := 1 }), by decide +kernel⟩,
   ⟨5, (safUp 1).wr F.SAF_STATUS_OVC_ARMED 1, by decide +kernel⟩,
   ⟨5, safUp 1, by decide +kernel⟩,
   ⟨5, safUp 0, oneMatrix, by decide +kernel⟩,
   ⟨1600000000000, safUp 4, by decide +kernel⟩,
   ⟨1600000000000, safUp 1, by decide +kernel⟩,
   ⟨160, safUp 1, by decide +kernel⟩,
   ⟨160, (safUp 1).wr F.WARP_STATUS_HOLDOVER 1, true, by decide +kernel⟩,
   ⟨160, 0, ⟨true, 7, 6, false, false, [1, 2]⟩, (safUp 1).putWeft 0 { WeftConn.init with seq := some 5 }, safProg, ⟨7, 0, 4, 0, 100, 2, false⟩, 5, by decide +kernel⟩,
   ⟨160, 0, ⟨false, 7, 6, false, false, [1, 2]⟩, (safUp 1).putWeft 0 { WeftConn.init with seq := some 5 }, safProg, ⟨7, 0, 4, 0, 100, 2, false⟩, by decide +kernel⟩,
   ⟨160, 0, ⟨true, 7, 6, true, true, [1, 2]⟩, (safUp 1).putWeft 0 { WeftConn.init with seq := some 5 }, safProg, ⟨7, 0, 4, 0, 100, 2, false⟩, by decide +kernel⟩,
   ⟨160, 0, ⟨true, 7, 4, false, false, [1, 2]⟩, (safUp 1).putWeft 0 { WeftConn.init with seq := some 5 }, safProg, ⟨7, 0, 4, 0, 100, 2, false⟩, 5, by decide +kernel⟩,
   ⟨160, 0, ⟨true, 7, 5, false, false, [1, 2]⟩, (safUp 1).putWeft 0 { WeftConn.init with seq := some 5 }, safProg, ⟨7, 0, 4, 0, 100, 2, false⟩, 5, by decide +kernel⟩,
   ⟨160, 0, ⟨true, 7, 6, false, true, [1, 2]⟩, ((safUp 1).putWeft 0 { WeftConn.init with seq := some 5 }).wr F.WC_STATUS_STATE 2 0, safProg, ⟨7, 0, 4, 0, 100, 2, false⟩, by decide +kernel⟩,
   ⟨16000000000, 0, (safUp 1).putWeft 0 { WeftConn.init with seq := some 5, data := [1, 2] }, by decide +kernel⟩,
   ⟨160, oneContainer, (safUp 0).sent 16 0x10 0 0, by decide +kernel⟩,
   ⟨160, oneContainer, true, true, (safUp 1).sent 16 0x10 0 0, by decide +kernel⟩,
   ⟨160, { oneContainer with sigOk := false }, true, true, (safUp 0).sent 16 0x10 0 0, by decide +kernel⟩,
   ⟨160, safProg, true, true, (safUp 1).sent 16 0x11 0 0, by decide +kernel⟩,
   ⟨160, safProg, (safUp 0).sent 16 0x11 0 0, by decide +kernel⟩,
   ⟨160, 1, (safUp 0).sent 16 0x12 1 0, by decide +kernel⟩,
   ⟨160, 1, (((safUp 0).wr F.SAF_SOUT_STATE_FAULT 1).onSaf (fun x => { x with passes := x.passes.set 0 10 })).sent 16 0x13 1 0, 0, by decide +kernel⟩,
   ⟨160, 1, ((safUp 0).wr F.SAF_SOUT_STATE_FAULT 1).sent 16 0x13 1 0, 0, by decide +kernel⟩,
   ⟨160, (safUp 0).onSaf (fun x => { x with running := false }), safProg, by decide +kernel⟩,
   ⟨160, (safUp 0).onSaf (fun x => { x with running := false }), safProg, by decide +kernel⟩⟩

theorem witness_TandemLinkAndCyclesInStep :
    (∃ (t : Instant) (c : Contrail) (role : Fin 5) (flags : Word) (term : BitVec 16) (rings : List Nat) (s : State), c.crcOk = true ∧ s.inPair = true) ∧
    (∃ (t : Instant) (c : Contrail) (role : Fin 5) (flags : Word) (term : BitVec 16) (rings : List Nat) (s : State), c.crcOk = false) ∧
    (∃ (t : Instant) (c : Contrail) (role : Fin 5) (flags : Word) (term : BitVec 16) (rings : List Nat) (s : State), c.crcOk = true ∧
      s.inPair = true ∧ flags.getLsbD 1 = true ∧ s.tandem.partnerLost = false) ∧
    (∃ (t : Instant) (s : State), s.inPair = true) ∧
    (∃ (t : Instant) (s : State), s.inPair = true ∧
      s.tandem.heardAt.all (fun a => decide (1000 * (s.rd F.TD_LINK_TMO : Int) ≤ sinceNs (s.advance t).now a)) = true ∧ s.rd F.TD_STATUS_LINK_UP ≠ 0) ∧
    (∃ (t : Instant) (s : State), s.inPair = true ∧ s.rd F.TD_STATUS_LINK_UP = 0 ∧
      s.tandem.heardAt.any (fun a => decide (sinceNs (s.advance t).now a < 1000 * (s.rd F.TD_LINK_TMO : Int))) = true ∧
      100000000 ≤ sinceNs (s.advance t).now s.tandem.clearFrom ∧ s.role ≠ 2) ∧
    (∃ (t : Instant) (same : Bool) (s : State), s.inPair = true ∧ s.rd F.TD_STATUS_LINK_UP = 0 ∧
      s.tandem.heardAt.any (fun a => decide (sinceNs (s.advance t).now a < 1000 * (s.rd F.TD_LINK_TMO : Int))) = true ∧
      100000000 ≤ sinceNs (s.advance t).now s.tandem.clearFrom ∧ s.role = 2 ∧ s.coveredCount ≤ 8) ∧
    (∃ (t : Instant) (s : State), s.inPair = true ∧ s.role ≠ 0) ∧
    (∃ (t : Instant) (c : Contrail) (t1 : Instant) (t2 : Instant) (rate : Word) (s : State), c.crcOk = true ∧ s.inPair = true ∧ s.role ≠ 0) ∧
    (∃ (t : Instant) (c : Contrail) (t1 : Instant) (t2 : Instant) (rate : Word) (s : State), c.crcOk = true ∧ s.inPair = true ∧ s.role = 0) ∧
    (∃ (t : Instant) (r : Fin 4) (s : State) (c : Instant), s.inPair = true ∧ (s.ring r).cycleAt = some c ∧
      sinceNs (s.advance t).now c + 1000 = ((s.ring r).cfg.rxLimit : Int) ∧ ((s.rd F.RING_STATUS_BROKEN r = 0 ∨ ((s.ring r).copyF = none ∧
      (s.ring r).copyR = none) ∨ (s.copyAt r (s.rd F.RING_CYCLE r)).isSome = true))) ∧
    (∃ (t : Instant) (c : Contrail) (r : Fin 4) (cycle : Instant) (have_ : Bool) (s : State), c.crcOk = true ∧ s.inPair = true) ∧
    (∃ (t : Instant) (c : Contrail) (r : Fin 4) (cycle : Instant) (bytes : List Byte) (s : State), c.crcOk = true ∧ s.inPair = true ∧ s.role ≠ 0) ∧
    (∃ (t : Instant) (c : Contrail) (r : Fin 4) (cycle : Instant) (digest : BitVec 64) (s : State) (d : Nat), c.crcOk = true ∧ s.inPair = true ∧
      ((s.role = 1 ∨ (s.role = 0 ∧ s.rd F.TD_STATUS_PARTNER_ROLE = 1))) ∧ s.rd F.TD_STATUS_ARBITRATING = 0 ∧ s.rd F.TD_STATUS_SYNC_PHASE ≠ 3 ∧
      (s.pairRing r).digest = some (cycle.toNat, d) ∧ d ≠ digest.toNat) ∧
    (∃ (t : Instant) (c : Contrail) (r : Fin 4) (cycle : Instant) (digest : BitVec 64) (s : State), c.crcOk = true ∧ s.inPair = true ∧
      s.rd F.TD_STATUS_SYNC_PHASE ≠ 3 ∧ (s.pairRing r).digest = some (cycle.toNat, digest.toNat)) ∧
    (∃ (t : Instant) (s : State), s.rd F.TD_STATUS_ARBITRATING ≠ 0 ∧ s.tandem.ownCheck = none ∧ s.tandem.theirCheck = some true ∧
      sinceNs (s.advance t).now s.tandem.arbAt ≤ 10000000 ∧ s.role = 0) ∧
    (∃ (t : Instant) (s : State), s.rd F.TD_STATUS_ARBITRATING ≠ 0 ∧ s.tandem.ownCheck = none ∧ s.tandem.theirCheck = some false ∧
      sinceNs (s.advance t).now s.tandem.arbAt ≤ 10000000 ∧ s.role = 0) ∧
    (∃ (t : Instant) (s : State), s.rd F.TD_STATUS_ARBITRATING ≠ 0 ∧ s.tandem.ownCheck = none ∧ s.tandem.theirCheck = some true ∧
      sinceNs (s.advance t).now s.tandem.arbAt ≤ 10000000 ∧ s.role = 0) ∧
    (∃ (t : Instant) (s : State), s.rd F.TD_STATUS_ARBITRATING ≠ 0 ∧ s.tandem.ownCheck = none ∧ s.tandem.theirCheck = some false ∧
      sinceNs (s.advance t).now s.tandem.arbAt ≤ 10000000 ∧ s.role = 0) ∧
    (∃ (t : Instant) (s : State), s.rd F.TD_STATUS_ARBITRATING ≠ 0 ∧ s.tandem.ownCheck = none ∧ s.tandem.theirCheck = some true ∧
      sinceNs (s.advance t).now s.tandem.arbAt ≤ 10000000 ∧ s.role = 1) ∧
    (∃ (t : Instant) (s : State), s.rd F.TD_STATUS_ARBITRATING ≠ 0 ∧ s.tandem.ownCheck = none ∧ s.tandem.theirCheck = some true ∧
      sinceNs (s.advance t).now s.tandem.arbAt ≤ 10000000 ∧ s.role = 1) ∧
    (∃ (t : Instant) (s : State), s.rd F.TD_STATUS_ARBITRATING ≠ 0 ∧ s.tandem.ownCheck = none ∧ s.tandem.theirCheck = some false ∧
      sinceNs (s.advance t).now s.tandem.arbAt ≤ 10000000 ∧ s.role = 1) ∧
    (∃ (t : Instant) (s : State), s.rd F.TD_STATUS_ARBITRATING ≠ 0 ∧ s.tandem.ownCheck = none ∧ s.tandem.theirCheck = some false ∧
      sinceNs (s.advance t).now s.tandem.arbAt ≤ 10000000 ∧ s.role = 1) ∧
    (∃ (t : Instant) (pass : Bool) (s : State), s.rd F.TD_STATUS_ARBITRATING ≠ 0 ∧ s.tandem.ownCheck = none ∧ s.tandem.theirCheck = none) ∧
    (∃ (t : Instant) (c : Contrail) (s : State), 10000000 ≤ sinceNs (s.advance t).now s.tandem.arbAt ∧ s.rd F.TD_STATUS_ARBITRATING ≠ 0 ∧
      s.tandem.theirCheck = none ∧ s.tandem.ownCheck = some true ∧ s.role = 0) ∧
    (∃ (t : Instant) (c : Contrail) (ok : Bool) (s : State), c.crcOk = true ∧ s.inPair = true ∧ s.rd F.TD_STATUS_ARBITRATING ≠ 0 ∧
      s.tandem.theirCheck = none ∧ s.tandem.ownCheck = none) ∧
    (∃ (t : Instant) (c : Contrail) (at_ : Instant) (s : State), c.crcOk = true ∧ s.inPair = true ∧ s.role ≠ 0) ∧
    (∃ (t : Instant) (acked : Bool) (s : State), s.tandem.admitted.contains (s.advance t).now = true) :=
  ⟨⟨160, goodContrail, 0, 1, 7, [4, 4, 4, 4], pairUp 1 4, by decide +kernel⟩,
   ⟨160, { goodContrail with crcOk := false }, 0, 1, 7, [4, 4, 4, 4], pairUp 1 4, by decide +kernel⟩,
   ⟨160, goodContrail, 0, 2, 7, [4, 4, 4, 4], pairUp 1 4, by decide +kernel⟩,
   ⟨160, pairUp 0 1, by decide +kernel⟩,
   ⟨1600000, pairUp 1 0, by decide +kernel⟩,
   ⟨1600000000, ({ pairUp 0 1 with tandem := { (pairUp 0 1).tandem with heardAt := some 1600000000 } }).wr F.TD_STATUS_LINK_UP 0, by decide +kernel⟩,
   ⟨1600000000, true, ({ pairUp 2 0 with tandem := { (pairUp 2 0).tandem with heardAt := some 1600000000 } }).wr F.TD_STATUS_LINK_UP 0, by decide +kernel⟩,
   ⟨160, pairUp 1 0, by decide +kernel⟩,
   ⟨160, goodContrail, 80, 80, 7, pairUp 1 0, by decide +kernel⟩,
   ⟨160, goodContrail, 80, 80, 7, pairUp 0 1, by decide +kernel⟩,
   ⟨304000, 1, (pairUp 1 0).putRing 1 { Ring.init with cycleAt := some 0 }, 0, by decide +kernel⟩,
   ⟨160, goodContrail, 1, 7, true, pairUp 1 0, by decide +kernel⟩,
   ⟨160, goodContrail, 1, 7, [1], pairUp 1 0, by decide +kernel⟩,
   ⟨160, goodContrail, 1, 7, 9, (pairUp 1 0).putPair 1 { PairRing.init with digest := some (7, 8) }, 8, by decide +kernel⟩,
   ⟨160, goodContrail, 1, 7, 9, (pairUp 1 0).putPair 1 { PairRing.init with digest := some (7, 9) }, by decide +kernel⟩,
   ⟨160, ({ pairUp 0 1 with tandem := { (pairUp 0 1).tandem with theirCheck := some true } }).wr F.TD_STATUS_ARBITRATING 1, by decide +kernel⟩,
   ⟨160, ({ pairUp 0 1 with tandem := { (pairUp 0 1).tandem with theirCheck := some false } }).wr F.TD_STATUS_ARBITRATING 1, by decide +kernel⟩,
   ⟨160, ({ pairUp 0 1 with tandem := { (pairUp 0 1).tandem with theirCheck := some true } }).wr F.TD_STATUS_ARBITRATING 1, by decide +kernel⟩,
   ⟨160, ({ pairUp 0 1 with tandem := { (pairUp 0 1).tandem with theirCheck := some false } }).wr F.TD_STATUS_ARBITRATING 1, by decide +kernel⟩,
   ⟨160, ({ pairUp 1 0 with tandem := { (pairUp 1 0).tandem with theirCheck := some true } }).wr F.TD_STATUS_ARBITRATING 1, by decide +kernel⟩,
   ⟨160, ({ pairUp 1 0 with tandem := { (pairUp 1 0).tandem with theirCheck := some true } }).wr F.TD_STATUS_ARBITRATING 1, by decide +kernel⟩,
   ⟨160, ({ pairUp 1 0 with tandem := { (pairUp 1 0).tandem with theirCheck := some false } }).wr F.TD_STATUS_ARBITRATING 1, by decide +kernel⟩,
   ⟨160, ({ pairUp 1 0 with tandem := { (pairUp 1 0).tandem with theirCheck := some false } }).wr F.TD_STATUS_ARBITRATING 1, by decide +kernel⟩,
   ⟨160, true, ({ pairUp 0 1 with tandem := { (pairUp 0 1).tandem with theirCheck := none } }).wr F.TD_STATUS_ARBITRATING 1, by decide +kernel⟩,
   ⟨160000000, goodContrail, ({ pairUp 0 1 with tandem := { (pairUp 0 1).tandem with ownCheck := some true } }).wr F.TD_STATUS_ARBITRATING 1, by decide +kernel⟩,
   ⟨160, goodContrail, false, (pairUp 0 1).wr F.TD_STATUS_ARBITRATING 1, by decide +kernel⟩,
   ⟨160, goodContrail, 1600, pairUp 1 0, by decide +kernel⟩,
   ⟨160, false, { pairUp 0 1 with tandem := { (pairUp 0 1).tandem with admitted := [160] } }, by decide +kernel⟩⟩

theorem witness_TandemUnitsJoinAndSynchronise :
    (∃ (t : Instant) (value : Word) (s : State), s.admits 0xC00010 = true ∧ value.toNat % 16 = 1 ∧ value.toNat / 2 ^ 8 % 8 = 4 ∧ s.inPair = true ∧
      s.role = 4 ∧ s.rd F.LOOM_BEAM_STATUS_STATE = 2 ∧ s.rd F.TD_STATUS_LINK_UP ≠ 0 ∧ s.rd F.TD_STATUS_PARTNER_ROLE = 0) ∧
    (∃ (t : Instant) (value : Word) (s : State), s.admits 0xC00010 = true ∧ value.toNat % 16 = 1 ∧ value.toNat / 2 ^ 8 % 8 = 4 ∧ s.inPair = true ∧
      s.role = 4 ∧ ((s.rd F.LOOM_BEAM_STATUS_STATE ≠ 2 ∨ s.rd F.TD_STATUS_LINK_UP = 0 ∨ s.rd F.TD_STATUS_PARTNER_ROLE ≠ 0))) ∧
    (∃ (t : Instant) (value : Word) (s : State), s.admits 0xC00010 = true ∧ value.toNat % 16 ≠ 0 ∧ value.toNat / 2 ^ 8 % 8 ≠ s.role) ∧
    (∃ (t : Instant) (value : Word) (s : State), s.admits 0xC00010 = true ∧ value.toNat % 16 ≠ 0 ∧ value.toNat / 2 ^ 8 % 8 = s.role ∧
      ((value.toNat % 16 ≠ 1 ∨ s.inPair = false ∨ s.role ≠ 4))) ∧
    (∃ (t : Instant) (value : Word) (s : State), s.admits 0xC00010 = true ∧ value.toNat % 16 = 8 ∧ value.toNat / 2 ^ 8 % 8 = s.role ∧
      s.inPair = true ∧ ((s.role ≠ 0 ∨ s.rd F.TD_STATUS_PARTNER_ROLE = 1))) ∧
    (∃ (t : Instant) (value : Word) (s : State), s.admits 0xC00010 = true ∧ value.toNat % 16 ≠ 0 ∧ value.toNat / 2 ^ 8 % 8 ≠ s.role) ∧
    (∃ (t : Instant) (value : Word) (s : State), s.admits 0xC00010 = true ∧ value.toNat % 16 ≠ 0 ∧ value.toNat / 2 ^ 8 % 8 = s.role ∧
      ((value.toNat % 16 ≠ 8 ∨ s.inPair = false ∨ (s.role = 0 ∧ s.rd F.TD_STATUS_PARTNER_ROLE ≠ 1)))) ∧
    (∃ (t : Instant) (value : Word) (s : State), s.admits 0xC00010 = true ∧ value.toNat % 16 = 4 ∧ value.toNat / 2 ^ 8 % 8 = s.role ∧
      s.inPair = true ∧ ((s.role = 2 ∨ s.role = 3)) ∧ s.rd F.TD_STATUS_SYNC_PHASE = 0 ∧ s.rd F.TD_STATUS_LINK_UP ≠ 0 ∧
      s.rd F.TD_STATUS_PARTNER_ROLE = 0 ∧ s.localIo = false ∧ s.ringsThere = true) ∧
    (∃ (t : Instant) (value : Word) (s : State), s.admits 0xC00010 = true ∧ value.toNat % 16 ≠ 0 ∧ value.toNat / 2 ^ 8 % 8 ≠ s.role) ∧
    (∃ (t : Instant) (value : Word) (s : State), s.admits 0xC00010 = true ∧ value.toNat % 16 ≠ 0 ∧ value.toNat / 2 ^ 8 % 8 = s.role ∧
      ((value.toNat % 16 ≠ 4 ∨ s.inPair = false ∨ (s.role ≠ 2 ∧ s.role ≠ 3) ∨ s.rd F.TD_STATUS_SYNC_PHASE ≠ 0))) ∧
    (∃ (t : Instant) (value : Word) (same : Bool) (s : State), s.admits 0xC00010 = true ∧ value.toNat % 16 = 4 ∧ value.toNat / 2 ^ 8 % 8 = s.role ∧
      s.inPair = true ∧ ((s.role = 2 ∨ s.role = 3)) ∧ s.rd F.TD_STATUS_SYNC_PHASE = 0 ∧ ((s.rd F.TD_STATUS_LINK_UP = 0 ∨
      s.rd F.TD_STATUS_PARTNER_ROLE ≠ 0))) ∧
    (∃ (t : Instant) (s : State) (a : Instant), s.role = 3 ∧ s.rd F.TD_STATUS_SYNC_PHASE = 0 ∧ s.coveredCount ≤ 8 ∧ s.tandem.retryAt = some a ∧
      notLater a (s.advance t).now = true ∧ s.rd F.TD_STATUS_LINK_UP ≠ 0 ∧ s.rd F.TD_STATUS_PARTNER_ROLE = 0 ∧ s.localIo = false ∧
      s.ringsThere = true) ∧
    (∃ (t : Instant) (chunks : Word) (s : State), s.inPair = true ∧ s.rd F.TD_STATUS_LINK_UP ≠ 0 ∧ onGrid 1000000 0 (s.advance t).now = true ∧
      s.tandem.sync = none ∧ s.role = 0 ∧ s.rd F.TD_STATUS_PARTNER_ROLE = 3) ∧
    (∃ (t : Instant) (chunks : Word) (s : State), s.inPair = true ∧ s.rd F.TD_STATUS_LINK_UP ≠ 0 ∧ onGrid 1000000 0 (s.advance t).now = true ∧
      s.tandem.sync = none ∧ s.role = 3 ∧ s.rd F.TD_STATUS_SYNC_PHASE = 1) ∧
    (∃ (t : Instant) (c : Contrail) (chunk : Word) (chunks : Word) (whole : Snapshot) (s : State) (x : Syncing), c.crcOk = true ∧ s.inPair = true ∧
      s.tandem.sync = some x ∧ s.role = 3 ∧ s.rd F.TD_STATUS_SYNC_PHASE = 1 ∧
      (List.range chunks.toNat).all (fun i => i == chunk.toNat || x.done.contains i) = true) ∧
    (∃ (t : Instant) (c : Contrail) (chunk : Word) (chunks : Word) (whole : Snapshot) (s : State) (x : Syncing), c.crcOk = true ∧ s.inPair = true ∧
      s.tandem.sync = some x ∧ s.role = 3 ∧ s.rd F.TD_STATUS_SYNC_PHASE = 1 ∧
      (List.range chunks.toNat).all (fun i => i == chunk.toNat || x.done.contains i) = false) ∧
    (∃ (t : Instant) (c : Contrail) (chunk : Word) (s : State) (x : Syncing), c.crcOk = true ∧ s.inPair = true ∧ s.tandem.sync = some x ∧ s.role = 0 ∧
      (List.range x.chunks).all (fun i => i == chunk.toNat || x.done.contains i) = false) ∧
    (∃ (t : Instant) (c : Contrail) (chunk : Word) (s : State) (x : Syncing), c.crcOk = true ∧ s.inPair = true ∧ s.tandem.sync = some x ∧ s.role = 0 ∧
      (List.range x.chunks).all (fun i => i == chunk.toNat || x.done.contains i) = true) ∧
    (∃ (t : Instant) (state : Snapshot) (s : State), s.role = 3 ∧ s.rd F.TD_STATUS_SYNC_PHASE = 2) ∧
    (∃ (t : Instant) (s : State) (x : Syncing), s.tandem.sync = some x ∧ s.role = 3 ∧ ((s.rd F.TD_STATUS_SYNC_PHASE = 1 ∨
      s.rd F.TD_STATUS_SYNC_PHASE = 2)) ∧ 1000000 * (s.rd F.TD_LINK_REPLAY_MS : Int) ≤ sinceNs (s.advance t).now x.at_) :=
  ⟨⟨160, 0x401, pairUp 4 0, by decide +kernel⟩,
   ⟨160, 0x401, pairUp 4 1, by decide +kernel⟩,
   ⟨160, 1, pairUp 4 0, by decide +kernel⟩,
   ⟨160, 1, pairUp 0 1, by decide +kernel⟩,
   ⟨160, 0x108, pairUp 1 0, by decide +kernel⟩,
   ⟨160, 0x108, pairUp 0 1, by decide +kernel⟩,
   ⟨160, 8, pairUp 0 4, by decide +kernel⟩,
   ⟨160, 0x304, pairUp 3 0, by decide +kernel⟩,
   ⟨160, 0x304, pairUp 0 1, by decide +kernel⟩,
   ⟨160, 4, pairUp 0 1, by decide +kernel⟩,
   ⟨160, 0x304, true, pairUp 3 1, by decide +kernel⟩,
   ⟨160, { pairUp 3 0 with tandem := { (pairUp 3 0).tandem with retryAt := some 0 } }, 0, by decide +kernel⟩,
   ⟨16000000, 2, pairUp 0 3, by decide +kernel⟩,
   ⟨16000000, 2, (pairUp 3 0).wr F.TD_STATUS_SYNC_PHASE 1, by decide +kernel⟩,
   ⟨160, goodContrail, 1, 2, noSnapshot, { (pairUp 3 0).wr F.TD_STATUS_SYNC_PHASE 1 with tandem := { (pairUp 3 0).tandem with sync := some ⟨0, none, 2, [0]⟩ } }, ⟨0, none, 2, [0]⟩, by decide +kernel⟩,
   ⟨160, goodContrail, 1, 3, noSnapshot, { (pairUp 3 0).wr F.TD_STATUS_SYNC_PHASE 1 with tandem := { (pairUp 3 0).tandem with sync := some ⟨0, none, 3, [0]⟩ } }, ⟨0, none, 3, [0]⟩, by decide +kernel⟩,
   ⟨160, goodContrail, 0, { pairUp 0 3 with tandem := { (pairUp 0 3).tandem with sync := some ⟨0, none, 2, []⟩ } }, ⟨0, none, 2, []⟩, by decide +kernel⟩,
   ⟨160, goodContrail, 1, { pairUp 0 3 with tandem := { (pairUp 0 3).tandem with sync := some ⟨0, none, 2, [0]⟩ } }, ⟨0, none, 2, [0]⟩, by decide +kernel⟩,
   ⟨160, noSnapshot, (pairUp 3 0).wr F.TD_STATUS_SYNC_PHASE 2, by decide +kernel⟩,
   ⟨16000000000, { ((pairUp 3 0).wr F.TD_LINK_REPLAY_MS 1).wr F.TD_STATUS_SYNC_PHASE 1 with tandem := { (pairUp 3 0).tandem with sync := some ⟨0, none, 2, []⟩ } }, ⟨0, none, 2, []⟩, by decide +kernel⟩⟩

theorem witness_TandemTokenMovesByHandoverAndLease :
    (∃ (t : Instant) (value : Word) (s : State), s.admits 0xC00010 = true ∧ value.toNat % 16 = 2 ∧ value.toNat / 2 ^ 8 % 8 = 0 ∧ s.inPair = true ∧
      s.role = 0 ∧ s.rd F.TD_STATUS_PARTNER_ROLE = 1 ∧ s.rd F.TD_STATUS_ARBITRATING = 0 ∧ s.tandem.handover = none ∧ s.rd F.TD_SWITCH_AT = 0) ∧
    (∃ (t : Instant) (value : Word) (s : State), s.admits 0xC00010 = true ∧ value.toNat % 16 = 2 ∧ value.toNat / 2 ^ 8 % 8 = 0 ∧ s.inPair = true ∧
      s.role = 0 ∧ s.rd F.TD_STATUS_PARTNER_ROLE = 1 ∧ s.rd F.TD_STATUS_ARBITRATING = 0 ∧ s.tandem.handover = none ∧ s.rdT F.TD_SWITCH_AT ≠ 0 ∧
      100000 ≤ sinceNs (s.rdT F.TD_SWITCH_AT) (s.advance t).now) ∧
    (∃ (t : Instant) (value : Word) (s : State), s.admits 0xC00010 = true ∧ value.toNat % 16 ≠ 0 ∧ value.toNat / 2 ^ 8 % 8 ≠ s.role) ∧
    (∃ (t : Instant) (value : Word) (s : State), s.admits 0xC00010 = true ∧ value.toNat % 16 ≠ 0 ∧ value.toNat / 2 ^ 8 % 8 = s.role ∧
      ((value.toNat % 16 ≠ 2 ∨ s.inPair = false ∨ s.role ≠ 0 ∨ s.rd F.TD_STATUS_PARTNER_ROLE ≠ 1 ∨ s.rd F.TD_STATUS_ARBITRATING ≠ 0 ∨
      s.tandem.handover ≠ none))) ∧
    (∃ (t : Instant) (c : Contrail) (term : BitVec 16) (x : Instant) (s : State), c.crcOk = true ∧ s.inPair = true ∧ s.role = 1) ∧
    (∃ (t : Instant) (c : Contrail) (s : State) (h : Handover), c.crcOk = true ∧ s.inPair = true ∧ s.tandem.handover = some h ∧ s.role = 0 ∧
      h.term < 2 ^ 16 ∧ h.committed = false ∧ 5000 ≤ sinceNs h.x (s.advance t).now) ∧
    (∃ (t : Instant) (s : State) (h : Handover), s.tandem.handover = some h ∧ h.committed = false ∧ sinceNs h.x (s.advance t).now ≤ 5000) ∧
    (∃ (t : Instant) (c : Contrail) (s : State) (h : Handover), c.crcOk = true ∧ s.inPair = true ∧ s.tandem.offered = some h ∧ h.term < 2 ^ 16 ∧
      2000 ≤ sinceNs h.x (s.advance t).now) ∧
    (∃ (t : Instant) (s : State) (h : Handover), s.tandem.handover = some h ∧ h.committed = true ∧ h.x = (s.advance t).now ∧ s.role = 0 ∧
      h.offline = false) ∧
    (∃ (t : Instant) (s : State) (h : Handover), s.tandem.handover = some h ∧ h.committed = true ∧ h.x = (s.advance t).now ∧ s.role = 0 ∧
      h.offline = true) ∧
    (∃ (t : Instant) (s : State) (h : Handover), s.tandem.handover = none ∧ s.tandem.offered = some h ∧ h.committed = true ∧ h.x = (s.advance t).now ∧
      s.role ≠ 0) ∧
    (∃ (t : Instant) (s : State), s.holds = true ∧ onGrid (s.leaseNs / 4) 0 (s.advance t).now = true ∧ s.rd F.TD_STATUS_LINK_UP ≠ 0) ∧
    (∃ (t : Instant) (s : State), s.holds = true ∧ onGrid (s.leaseNs / 4) 0 (s.advance t).now = true ∧ s.rd F.TD_STATUS_LINK_UP = 0) ∧
    (∃ (t : Instant) (c : Contrail) (term : BitVec 16) (e : Instant) (s : State), c.crcOk = true ∧ s.inPair = true ∧ s.role ≠ 0) ∧
    (∃ (t : Instant) (c : Contrail) (term : BitVec 16) (e : Instant) (s : State), c.crcOk = true ∧ s.inPair = true ∧ s.role = 0 ∧
      term.toNat = s.rd F.TD_STATUS_TERM) ∧
    (∃ (t : Instant) (s : State), s.holds = true ∧ notLater (s.advance t).stopInstant (s.advance t).now = true) ∧
    (∃ (t : Instant) (s : State), s.inPair = true ∧ s.role = 1 ∧ notLater (s.advance t).actInstant (s.advance t).now = true ∧ s.heardSince = false) ∧
    (∃ (t : Instant) (s : State), s.inPair = true ∧ ((s.role = 2 ∨ s.role = 3)) ∧ s.rd F.TD_CFG_TAKEOVER_STALE ≠ 0 ∧
      notLater (s.advance t).actInstant (s.advance t).now = true ∧ s.heardSince = false) ∧
    (∃ (t : Instant) (s : State), s.inPair = true ∧ s.role ≠ 0 ∧ s.role ≠ 1 ∧ ((s.role = 4 ∨ s.rd F.TD_CFG_TAKEOVER_STALE = 0)) ∧
      notLater (s.advance t).actInstant (s.advance t).now = true ∧ s.heardSince = false) ∧
    (∃ (t : Instant) (s : State), s.heardSince = true) ∧
    (∃ (t : Instant) (s : State) (a : Instant), s.inPair = true ∧ s.role = 4 ∧ s.rd F.TD_CFG_SOLO_START ≠ 0 ∧ s.rd F.RING_STATUS_STATE 0 = 5 ∧
      s.rd F.RING_CTRL_EN 1 = 0 ∧ s.rd F.RING_CTRL_EN 2 = 0 ∧ s.rd F.RING_CTRL_EN 3 = 0 ∧ s.rd F.RING_STATUS_STATE 1 ≠ 5 ∧
      s.rd F.RING_STATUS_STATE 2 ≠ 5 ∧ s.rd F.RING_STATUS_STATE 3 ≠ 5 ∧ (s.pairRing 0).listenAt = some a ∧ (s.pairRing 0).heard = none ∧
      ((2 * (s.leaseNs + s.guardNs) : Nat) : Int) ≤ sinceNs (s.advance t).now a) :=
  ⟨⟨160, 2, pairUp 0 1, by decide +kernel⟩,
   ⟨160, 2, (pairUp 0 1).wr F.TD_SWITCH_AT 16000000, by decide +kernel⟩,
   ⟨160, 2, pairUp 1 0, by decide +kernel⟩,
   ⟨160, 2, pairUp 0 2, by decide +kernel⟩,
   ⟨160, goodContrail, 6, 1600, pairUp 1 0, by decide +kernel⟩,
   ⟨160, goodContrail, { pairUp 0 1 with tandem := { (pairUp 0 1).tandem with handover := some ⟨160000, 6, false, false⟩ } }, ⟨160000, 6, false, false⟩, by decide +kernel⟩,
   ⟨159000, { pairUp 0 1 with tandem := { (pairUp 0 1).tandem with handover := some ⟨160000, 6, false, false⟩ } }, ⟨160000, 6, false, false⟩, by decide +kernel⟩,
   ⟨160, goodContrail, { pairUp 1 0 with tandem := { (pairUp 1 0).tandem with offered := some ⟨160000, 6, false, false⟩ } }, ⟨160000, 6, false, false⟩, by decide +kernel⟩,
   ⟨160000, { pairUp 0 1 with tandem := { (pairUp 0 1).tandem with handover := some ⟨160000, 6, true, false⟩ } }, ⟨160000, 6, true, false⟩, by decide +kernel⟩,
   ⟨160000, { pairUp 0 1 with tandem := { (pairUp 0 1).tandem with handover := some ⟨160000, 6, true, true⟩ } }, ⟨160000, 6, true, true⟩, by decide +kernel⟩,
   ⟨160000, { pairUp 1 0 with tandem := { (pairUp 1 0).tandem with offered := some ⟨160000, 6, true, false⟩ } }, ⟨160000, 6, true, false⟩, by decide +kernel⟩,
   ⟨4000000, pairUp 0 1, by decide +kernel⟩,
   ⟨4000000, ((pairUp 0 1).wr F.TD_STATUS_LINK_UP 0).putPair 1 { PairRing.init with whole := true }, by decide +kernel⟩,
   ⟨160, goodContrail, 6, 1600000, pairUp 1 0, by decide +kernel⟩,
   ⟨160, goodContrail, 5, 1600000, pairUp 0 1, by decide +kernel⟩,
   ⟨1600000, pairUp 0 1, by decide +kernel⟩,
   ⟨16000000, pairUp 1 0, by decide +kernel⟩,
   ⟨16000000, (pairUp 2 0).wr F.TD_CFG_TAKEOVER_STALE 1, by decide +kernel⟩,
   ⟨16000000, pairUp 2 0, by decide +kernel⟩,
   ⟨16000000, (pairUp 1 0).putPair 1 { PairRing.init with heard := some 16000000 }, by decide +kernel⟩,
   ⟨160000000, ((pairUp 4 0).wrs [(F.TD_CFG_SOLO_START, 0, 1), (F.RING_STATUS_STATE, 0, 5)]).putPair 0 { PairRing.init with listenAt := some 0 }, 0, by decide +kernel⟩⟩

theorem witness_AuthorityDebugAndAttestation :
    (∃ (t : Instant) (a : AuthRec) (readBack : Bool) (s : State), s.mayExecute 0x20 16 anyArgs = true ∧ s.nextFits 16 = true ∧
      s.authResult a readBack ≠ 0) ∧
    (∃ (t : Instant) (a : AuthRec) (readBack : Bool) (s : State), s.mayExecute 0x20 16 anyArgs = true ∧ s.nextFits 16 = true ∧
      s.authResult a readBack ≠ 0) ∧
    (∃ (t : Instant) (a : AuthRec) (s : State), s.mayExecute 0x20 16 anyArgs = true ∧ s.nextFits 16 = true ∧ s.authResult a true = 0 ∧ a.op = 1) ∧
    (∃ (t : Instant) (a : AuthRec) (s : State), s.mayExecute 0x20 16 anyArgs = true ∧ s.nextFits 16 = true ∧ s.authResult a true = 0 ∧ a.op = 2) ∧
    (∃ (t : Instant) (a : AuthRec) (s : State), s.mayExecute 0x20 16 anyArgs = true ∧ s.nextFits 16 = true ∧ s.authResult a true = 0 ∧ a.op = 3) ∧
    (∃ (t : Instant) (a : AuthRec) (s : State), s.mayExecute 0x20 16 anyArgs = true ∧ s.nextFits 16 = true ∧ s.authResult a true = 0 ∧ a.op = 4) ∧
    (∃ (t : Instant) (a : AuthRec) (s : State), s.mayExecute 0x20 16 anyArgs = true ∧ s.authResult a true = 0 ∧ a.op = 5 ∧ a.value < 2 ^ 32 ∧
      s.sec.lost.contains (a.target, if 3 ≤ a.target then a.parts else 0) = false) ∧
    (∃ (t : Instant) (a : AuthRec) (s : State), s.mayExecute 0x20 16 anyArgs = true ∧ s.authResult a true = 0 ∧ a.op = 5 ∧ a.value < 2 ^ 32 ∧
      s.sec.lost.contains (a.target, if 3 ≤ a.target then a.parts else 0) = false) ∧
    (∃ (t : Instant) (a : AuthRec) (s : State), s.mayExecute 0x20 16 anyArgs = true ∧ s.authResult a true = 0 ∧ a.op = 5 ∧
      s.sec.lost.contains (a.target, if 3 ≤ a.target then a.parts else 0) = true) ∧
    (∃ (t : Instant) (a : AuthRec) (r : Fin 4) (s : State), s.mayExecute 0x20 16 anyArgs = true ∧ s.authResult a true = 0 ∧ a.op = 6 ∧
      bitOf a.target r = true) ∧
    (∃ (t : Instant) (jtag : Bool) (s : State), (jtag = true ∨ s.mayExecute 0x22 16 anyArgs = true)) ∧
    (∃ (t : Instant) (jtag : Bool) (s : State), (jtag = true ∨ s.mayExecute 0x22 16 anyArgs = true)) ∧
    (∃ (t : Instant) (jtag : Bool) (r : DebugResp) (s : State), (jtag = true ∨ (s.mayExecute 0x23 16 anyArgs = true ∧ s.nextFits 16 = true)) ∧
      (s.advance t).responseOk r = true) ∧
    (∃ (t : Instant) (jtag : Bool) (r : DebugResp) (s : State), (jtag = true ∨ (s.mayExecute 0x23 16 anyArgs = true ∧ s.nextFits 16 = true)) ∧
      (s.advance t).responseOk r = true) ∧
    (∃ (t : Instant) (jtag : Bool) (r : DebugResp) (s : State), (jtag = true ∨ (s.mayExecute 0x23 16 anyArgs = true ∧ s.nextFits 16 = true)) ∧
      (s.advance t).responseOk r = false) ∧
    (∃ (t : Instant) (jtag : Bool) (s : State), (jtag = true ∨ s.mayExecute 0x24 16 anyArgs = true)) ∧
    (∃ (t : Instant) (jtag : Bool) (s : State), (jtag = true ∨ s.mayExecute 0x24 16 anyArgs = true)) ∧
    (∃ (t : Instant) (s : State), notLater s.sec.debugEnd (s.advance t).compensated = true) ∧
    (∃ (t : Instant) (s : State), notLater s.sec.debugEnd (s.advance t).compensated = false) ∧
    (∃ (t : Instant) (nonce : BitVec 256) (s : State), s.mayExecute 0x25 16 anyArgs = true ∧ s.nextFits 16 = true) :=
  ⟨⟨5, oneAuth 7 0 0 0, true, secUp 0x20, by decide +kernel⟩,
   ⟨5, oneAuth 4 3 0 0, false, secUp 0x20, by decide +kernel⟩,
   ⟨5, { oneAuth 1 3 0 0 with device := 9 }, ((secUp 0x20).wr F.SEC_STATUS_PROGRAMMED 7).wr F.SEC_SERIAL 9, by decide +kernel⟩,
   ⟨5, oneAuth 2 3 0 0, secUp 0x20, by decide +kernel⟩,
   ⟨5, oneAuth 3 63 5 0, secUp 0x20, by decide +kernel⟩,
   ⟨5, oneAuth 4 3 0 0, secUp 0x20, by decide +kernel⟩,
   ⟨5, oneAuth 5 0 0 77, secUp 0x20, by decide +kernel⟩,
   ⟨5, oneAuth 5 5 15 77, secUp 0x20, by decide +kernel⟩,
   ⟨5, oneAuth 5 0 0 77, { secUp 0x20 with sec := { (secUp 0x20).sec with lost := [(0, 0)] } }, by decide +kernel⟩,
   ⟨5, { oneAuth 6 8 0 0 with device := 9 }, 3, (secUp 0x20).wr F.SEC_SERIAL 9, by decide +kernel⟩,
   ⟨5, false, secUp 0x22, by decide +kernel⟩,
   ⟨5, true, up, by decide +kernel⟩,
   ⟨5, false, oneResponse, { (secUp 0x23).wr F.SEC_SERIAL 0 with sec := { (secUp 0x23).sec with nonce := some (7, 0) } }, by decide +kernel⟩,
   ⟨5, true, oneResponse, { (secUp 0x23).wr F.SEC_SERIAL 0 with sec := { (secUp 0x23).sec with nonce := some (7, 0) } }, by decide +kernel⟩,
   ⟨5, false, oneResponse, (secUp 0x23).wr F.SEC_SERIAL 0, by decide +kernel⟩,
   ⟨5, false, (secUp 0x24).wr F.SEC_STATUS_DEBUG_LEVEL 2, by decide +kernel⟩,
   ⟨5, true, up.wr F.SEC_STATUS_DEBUG_LEVEL 1, by decide +kernel⟩,
   ⟨5, up.wr F.SEC_STATUS_DEBUG_LEVEL 1, by decide +kernel⟩,
   ⟨5, { up with sec := { up.sec with debugEnd := 1000 } }, by decide +kernel⟩,
   ⟨5, 9, secUp 0x25, by decide +kernel⟩⟩

theorem witness_FieldUpdatesStageArmAndConfirm :
    (∃ (t : Instant) (d : Delta) (s : State), s.mayExecute 0x21 16 anyArgs = true ∧ s.nextFits 16 = true ∧ s.deltaResult d ≠ 0) ∧
    (∃ (t : Instant) (d : Delta) (s : State), s.mayExecute 0x21 16 anyArgs = true ∧ s.nextFits 16 = true ∧ s.deltaResult d = 0) ∧
    (∃ (t : Instant) (d : Delta) (result : Bundle) (kibS : Word) (s : State), s.sec.running = some d) ∧
    (∃ (t : Instant) (d : Delta) (result : Bundle) (code : Fin 8) (kibS : Word) (s : State), s.sec.running = some d ∧ code ≠ 0) ∧
    (∃ (t : Instant) (value : Word) (s : State), s.admits 0xD00200 = true ∧ value.toNat % 8 = 1 ∧ value.toNat / 256 % 8 = 2 ∧
      s.rd F.UPD_STATUS_STATE = 2 ∧ 10000000 ≤ sinceNs (s.rdT F.UPD_AT) (s.advance t).now) ∧
    (∃ (t : Instant) (value : Word) (s : State), s.admits 0xD00200 = true ∧ value.toNat % 8 = 1 ∧ value.toNat / 256 % 8 = 2 ∧
      s.rd F.UPD_STATUS_STATE = 2 ∧ sinceNs (s.rdT F.UPD_AT) (s.advance t).now < 10000000) ∧
    (∃ (t : Instant) (value : Word) (s : State), s.admits 0xD00200 = true ∧ value.toNat % 8 = 1 ∧ value.toNat / 256 % 8 ≠ s.rd F.UPD_STATUS_STATE) ∧
    (∃ (t : Instant) (value : Word) (s : State), s.admits 0xD00200 = true ∧ value.toNat % 8 = 4 ∧ value.toNat / 256 % 8 = 3 ∧
      s.rd F.UPD_STATUS_STATE = 3) ∧
    (∃ (t : Instant) (value : Word) (s : State), s.admits 0xD00200 = true ∧ value.toNat % 8 = 2 ∧ value.toNat / 256 % 8 = 4 ∧
      s.rd F.UPD_STATUS_STATE = 4) ∧
    (∃ (t : Instant) (value : Word) (b : Bundle) (s : State), s.admits 0xD00200 = true ∧ value.toNat % 8 = 2 ∧ value.toNat / 256 % 8 = 4 ∧
      s.rd F.UPD_STATUS_STATE = 4 ∧ s.sec.slots.find (s.rd F.UPD_STATUS_ACTIVE_SLOT) = some b ∧ s.sec.lost.contains (0, 0) = false) ∧
    (∃ (t : Instant) (value : Word) (s : State), s.admits 0xD00200 = true ∧ value.toNat % 8 ≠ 0 ∧ ((value.toNat % 8 ≠ 1 ∨
      (value.toNat / 256 % 8 = s.rd F.UPD_STATUS_STATE ∧ s.rd F.UPD_STATUS_STATE ≠ 2)))) ∧
    (∃ (t : Instant) (value : Word) (s : State), s.admits 0xD00200 = true ∧ value.toNat % 8 ≠ 0 ∧ ((value.toNat % 8 ≠ 1 ∨
      (value.toNat / 256 % 8 = s.rd F.UPD_STATUS_STATE ∧ s.rd F.UPD_STATUS_STATE ≠ 2)))) ∧
    (∃ (t : Instant) (value : Word) (s : State), s.admits 0xD00200 = true ∧ value.toNat % 8 = 4 ∧ value.toNat / 256 % 8 ≠ s.rd F.UPD_STATUS_STATE) ∧
    (∃ (t : Instant) (value : Word) (s : State), s.admits 0xD00200 = true ∧ value.toNat % 8 ≠ 0 ∧ ((value.toNat % 8 ≠ 4 ∨
      (value.toNat / 256 % 8 = s.rd F.UPD_STATUS_STATE ∧ s.rd F.UPD_STATUS_STATE ≠ 3)))) ∧
    (∃ (t : Instant) (value : Word) (s : State), s.admits 0xD00200 = true ∧ value.toNat % 8 ≠ 0 ∧ ((value.toNat % 8 ≠ 4 ∨
      (value.toNat / 256 % 8 = s.rd F.UPD_STATUS_STATE ∧ s.rd F.UPD_STATUS_STATE ≠ 3)))) ∧
    (∃ (t : Instant) (value : Word) (s : State), s.admits 0xD00200 = true ∧ value.toNat % 8 = 2 ∧ value.toNat / 256 % 8 ≠ s.rd F.UPD_STATUS_STATE) ∧
    (∃ (t : Instant) (value : Word) (s : State), s.admits 0xD00200 = true ∧ value.toNat % 8 ≠ 0 ∧ ((value.toNat % 8 ≠ 2 ∨
      (value.toNat / 256 % 8 = s.rd F.UPD_STATUS_STATE ∧ s.rd F.UPD_STATUS_STATE ≠ 4)))) ∧
    (∃ (t : Instant) (value : Word) (s : State), s.admits 0xD00200 = true ∧ value.toNat % 8 ≠ 0 ∧ ((value.toNat % 8 ≠ 2 ∨
      (value.toNat / 256 % 8 = s.rd F.UPD_STATUS_STATE ∧ s.rd F.UPD_STATUS_STATE ≠ 4)))) ∧
    (∃ (t : Instant) (s : State), s.rd F.UPD_STATUS_STATE = 3 ∧ notLater (s.rdT F.UPD_AT) (s.advance t).now = true ∧
      (List.range 16).all s.inStop = true) ∧
    (∃ (t : Instant) (p : Fin 16) (s : State), s.rd F.UPD_STATUS_STATE = 3 ∧ notLater (s.rdT F.UPD_AT) (s.advance t).now = true ∧ s.inStop p = false) :=
  ⟨⟨5, { oneDelta with base := 8 }, (updUp 0).sent 16 0x21 0 0, by decide +kernel⟩,
   ⟨5, oneDelta, (updUp 0).sent 16 0x21 0 0, by decide +kernel⟩,
   ⟨5, oneDelta, { oneBundle with digest := 6 }, 900, { updUp 1 with sec := { (updUp 1).sec with running := some oneDelta } }, by decide +kernel⟩,
   ⟨5, oneDelta, oneBundle, 6, 900, { updUp 1 with sec := { (updUp 1).sec with running := some oneDelta } }, by decide +kernel⟩,
   ⟨5, 0x201, (updUp 2).wr F.UPD_AT 1600000000, by decide +kernel⟩,
   ⟨5, 0x201, (updUp 2).wr F.UPD_AT 1600, by decide +kernel⟩,
   ⟨5, 0x201, updUp 3, by decide +kernel⟩,
   ⟨5, 0x304, updUp 3, by decide +kernel⟩,
   ⟨5, 0x402, updUp 4, by decide +kernel⟩,
   ⟨5, 0x402, oneBundle, updUp 4, by decide +kernel⟩,
   ⟨5, 0x001, updUp 0, by decide +kernel⟩,
   ⟨5, 3, updUp 2, by decide +kernel⟩,
   ⟨5, 0x204, updUp 0, by decide +kernel⟩,
   ⟨5, 0x004, updUp 0, by decide +kernel⟩,
   ⟨5, 3, updUp 3, by decide +kernel⟩,
   ⟨5, 0x202, updUp 0, by decide +kernel⟩,
   ⟨5, 0x002, updUp 0, by decide +kernel⟩,
   ⟨5, 3, updUp 4, by decide +kernel⟩,
   ⟨16000, (updUp 3).wr F.UPD_AT 1600, by decide +kernel⟩,
   ⟨16000, 15, ((updUp 3).wr F.UPD_AT 1600).wr F.CP_STATUS_STATE 1 15, by decide +kernel⟩⟩

theorem witness_HandshakesAskEveryBlockInOrder :
    (∃ (t : Instant) (s : State), s.power.backoff.entries.any (fun e => notLater e.2 (s.advance t).now) = true ∧ s.rd F.PWR_STATUS_STATE ≤ 1 ∧
      s.rd F.PWR_STATUS_PHASE = 0 ∧
      ((s.advance t).onPower (fun w => { w with backoff := ⟨w.backoff.entries.filter (fun e => !notLater e.2 (s.advance t).now)⟩ })).chosen ≤ 1) ∧
    (∃ (t : Instant) (s : State), s.power.backoff.entries.any (fun e => notLater e.2 (s.advance t).now) = true ∧ s.rd F.PWR_STATUS_STATE ≤ 1 ∧
      s.rd F.PWR_STATUS_PHASE = 0 ∧
      2 ≤ ((s.advance t).onPower (fun w => { w with backoff := ⟨w.backoff.entries.filter (fun e => !notLater e.2 (s.advance t).now)⟩ })).chosen) ∧
    (∃ (t : Instant) (h : Instant) (s : State), s.power.holdEnd = some h ∧ notLater h (s.advance t).now = true ∧ s.rd F.PWR_STATUS_STATE ≤ 1 ∧
      s.rd F.PWR_STATUS_PHASE = 0 ∧ 2 ≤ ((s.advance t).onPower (fun w => { w with holdEnd := none })).chosen) ∧
    (∃ (t : Instant) (h : Instant) (s : State), s.power.holdEnd = some h ∧ notLater h (s.advance t).now = true ∧ s.rd F.PWR_STATUS_STATE ≤ 1 ∧
      s.rd F.PWR_STATUS_PHASE = 0 ∧ ((s.advance t).onPower (fun w => { w with holdEnd := none })).chosen ≤ 1) ∧
    (∃ (t : Instant) (value : Word) (s : State), s.rd F.PWR_STATUS_PHASE ≠ 1) ∧
    (∃ (t : Instant) (p : Fin 16) (value : Word) (s : State), s.admits (0xE00100 + 8 * p.val) = true ∧ s.rd F.PWR_STATUS_PHASE ≠ 1) ∧
    (∃ (t : Instant) (value : Word) (s : State), s.rd F.PWR_STATUS_PHASE ≠ 1) ∧
    (∃ (t : Instant) (value : Word) (s : State), s.rd F.PWR_STATUS_PHASE = 1 ∧
      ((s.advance t).wr F.PWR_TOL_DEV value.toNat).stateFits (s.rd F.PWR_STATUS_TARGET) = false) ∧
    (∃ (t : Instant) (busy : Bool) (code : Nat) (s : State), s.rd F.PWR_STATUS_PHASE = 1 ∧ askOrder[s.power.granted]? = some code ∧
      (s.advance t).blockSays code (s.rd F.PWR_STATUS_TARGET) busy = .refuse) ∧
    (∃ (t : Instant) (busy : Bool) (code : Nat) (s : State), s.rd F.PWR_STATUS_PHASE = 1 ∧ askOrder[s.power.granted]? = some code ∧ code ≠ 2 ∧
      (s.advance t).blockSays code (s.rd F.PWR_STATUS_TARGET) busy = .delay) ∧
    (∃ (t : Instant) (busy : Bool) (p : Nat) (s : State), s.rd F.PWR_STATUS_PHASE = 1 ∧ s.power.granted = 1 ∧
      (s.advance t).blockSays 2 (s.rd F.PWR_STATUS_TARGET) busy = .delay ∧ s.loaded.contains p = true) ∧
    (∃ (t : Instant) (busy : Bool) (code : Nat) (s : State), s.rd F.PWR_STATUS_PHASE = 1 ∧ askOrder[s.power.granted]? = some code ∧
      (s.advance t).blockSays code (s.rd F.PWR_STATUS_TARGET) busy = .grant ∧ s.rd F.PWR_STATUS_WAKE_PEND ≠ 0) ∧
    (∃ (t : Instant) (busy : Bool) (code : Nat) (s : State), s.rd F.PWR_STATUS_PHASE = 1 ∧ askOrder[s.power.granted]? = some code ∧
      (s.advance t).blockSays code (s.rd F.PWR_STATUS_TARGET) busy = .grant ∧ s.rd F.PWR_STATUS_WAKE_PEND = 0 ∧ s.power.granted ≠ 10) ∧
    (∃ (t : Instant) (busy : Bool) (code : Nat) (s : State), s.rd F.PWR_STATUS_PHASE = 1 ∧ askOrder[s.power.granted]? = some code ∧
      (s.advance t).blockSays code (s.rd F.PWR_STATUS_TARGET) busy = .grant ∧ s.rd F.PWR_STATUS_WAKE_PEND = 0 ∧ s.power.granted ≠ 10) ∧
    (∃ (t : Instant) (busy : Bool) (s : State), s.rd F.PWR_STATUS_PHASE = 1 ∧ s.power.granted = 10 ∧ (s.advance t).blockSays 11 2 busy = .grant ∧
      s.rd F.PWR_STATUS_WAKE_PEND = 0 ∧ s.rd F.PWR_STATUS_TARGET = 2) ∧
    (∃ (t : Instant) (busy : Bool) (s : State), s.rd F.PWR_STATUS_PHASE = 1 ∧ s.power.granted = 10 ∧ (s.advance t).blockSays 11 3 busy = .grant ∧
      s.rd F.PWR_STATUS_WAKE_PEND = 0 ∧ s.rd F.PWR_STATUS_TARGET = 3) ∧
    (∃ (t : Instant) (busy : Bool) (s : State), s.rd F.PWR_STATUS_PHASE = 1 ∧ s.power.granted = 10 ∧ (s.advance t).blockSays 11 4 busy = .grant ∧
      s.rd F.PWR_STATUS_WAKE_PEND = 0 ∧ s.rd F.PWR_STATUS_TARGET = 4) ∧
    (∃ (t : Instant) (code : Nat) (s : State), s.rd F.PWR_STATUS_PHASE = 1 ∧ askOrder[s.power.granted]? = some code ∧
      1000 * ((max 100 (s.rd F.PWR_ENTRY_CFG_ENTRY_TMO_US) : Nat) : Int) ≤ sinceNs (s.advance t).now s.power.askedAt) :=
  ⟨⟨1600, (pwrUp 0 0 0).onPwr (fun w => { w with backoff := (w.backoff.set 2 160).set 3 3200 }), by decide +kernel⟩,
   ⟨1600, ((pwrUp 0 0 0).wr F.PWR_TOL_DEV 200).onPwr (fun w => { w with backoff := (w.backoff.set 2 160).set 3 3200 }), by decide +kernel⟩,
   ⟨1600, 160, ((pwrUp 0 0 0).wr F.PWR_TOL_DEV 200).onPwr (fun w => { w with holdEnd := some 160 }), by decide +kernel⟩,
   ⟨1600, 160, ((pwrUp 0 0 0).wr F.PWR_TOL_DEV 1).onPwr (fun w => { w with holdEnd := some 160 }), by decide +kernel⟩,
   ⟨5, 200, pwrUp 0 0 0, by decide +kernel⟩,
   ⟨5, 15, 200, pwrUp 0 0 0, by decide +kernel⟩,
   ⟨5, 0x32, pwrUp 0 0 0, by decide +kernel⟩,
   ⟨5, 100, pwrUp 0 1 2, by decide +kernel⟩,
   ⟨5, true, 2, (pwrUp 0 1 2).onPwr (fun w => { w with granted := 1 }), by decide +kernel⟩,
   ⟨5, true, 10, (pwrUp 0 1 2).onPwr (fun w => { w with granted := 9 }), by decide +kernel⟩,
   ⟨5, false, 2, (progUp.wrs [(F.CP_STATUS_STATE, 2, 0), (F.PWR_STATUS_PHASE, 0, 1), (F.PWR_STATUS_TARGET, 0, 3)]).onPwr (fun w => { w with granted := 1 }), by decide +kernel⟩,
   ⟨5, false, 1, (pwrUp 0 1 2).wr F.PWR_STATUS_WAKE_PEND 1, by decide +kernel⟩,
   ⟨5, false, 2, (pwrUp 0 1 3).onPwr (fun w => { w with granted := 1 }), by decide +kernel⟩,
   ⟨5, false, 1, pwrUp 0 1 2, by decide +kernel⟩,
   ⟨5, true, (pwrUp 0 1 2).onPwr (fun w => { w with granted := 10 }), by decide +kernel⟩,
   ⟨5, false, (pwrUp 0 1 3).onPwr (fun w => { w with granted := 10 }), by decide +kernel⟩,
   ⟨5, false, (pwrUp 0 1 4).onPwr (fun w => { w with granted := 10 }), by decide +kernel⟩,
   ⟨16000000000, 1, pwrUp 0 1 2, by decide +kernel⟩⟩

theorem witness_WakesLatchMergeRetryAndEscalate :
    (∃ (t : Instant) (frame : BitVec 16) (bothHigh : Bool) (s : State), s.rd F.PWR_STATUS_STATE ≠ 4 ∧ (bothHigh = true ∨
      frame.toNat % 16 ≠ lullChk frame)) ∧
    (∃ (t : Instant) (frame : BitVec 16) (bothHigh : Bool) (s : State), s.rd F.PWR_STATUS_STATE ≠ 4 ∧ (bothHigh = true ∨
      frame.toNat % 16 ≠ lullChk frame)) ∧
    (∃ (t : Instant) (frame : BitVec 16) (s : State), s.rd F.PWR_STATUS_STATE ≠ 4 ∧ frame.toNat % 16 = lullChk frame ∧
      frame.toNat / 2 ^ 8 ≠ s.rd F.LULL_CFG_ADDR ∧ (frame.toNat / 2 ^ 8 ≠ 0xFF ∨ s.rd F.LULL_CFG_BCAST_EN = 0)) ∧
    (∃ (t : Instant) (frame : BitVec 16) (s : State), s.rd F.PWR_STATUS_STATE ≠ 4 ∧ frame.toNat % 16 = lullChk frame ∧
      frame.toNat / 2 ^ 8 ≠ s.rd F.LULL_CFG_ADDR ∧ (frame.toNat / 2 ^ 8 ≠ 0xFF ∨ s.rd F.LULL_CFG_BCAST_EN = 0)) ∧
    (∃ (t : Instant) (frame : BitVec 16) (s : State), s.rd F.PWR_STATUS_STATE ≠ 4 ∧ frame.toNat % 16 = lullChk frame ∧
      (frame.toNat / 2 ^ 8 = s.rd F.LULL_CFG_ADDR ∨ (frame.toNat / 2 ^ 8 = 0xFF ∧ s.rd F.LULL_CFG_BCAST_EN ≠ 0)) ∧ frame.toNat / 2 ^ 4 % 16 = 2) ∧
    (∃ (t : Instant) (frame : BitVec 16) (s : State), s.rd F.PWR_STATUS_STATE ≠ 4 ∧ frame.toNat % 16 = lullChk frame ∧
      (frame.toNat / 2 ^ 8 = s.rd F.LULL_CFG_ADDR ∨ (frame.toNat / 2 ^ 8 = 0xFF ∧ s.rd F.LULL_CFG_BCAST_EN ≠ 0)) ∧ frame.toNat / 2 ^ 4 % 16 = 2) ∧
    (∃ (t : Instant) (frame : BitVec 16) (s : State), s.rd F.PWR_STATUS_STATE ≠ 4 ∧ frame.toNat % 16 = lullChk frame ∧
      (frame.toNat / 2 ^ 8 = s.rd F.LULL_CFG_ADDR ∨ (frame.toNat / 2 ^ 8 = 0xFF ∧ s.rd F.LULL_CFG_BCAST_EN ≠ 0)) ∧ frame.toNat / 2 ^ 4 % 16 ≠ 1 ∧
      frame.toNat / 2 ^ 4 % 16 ≠ 2) ∧
    (∃ (t : Instant) (frame : BitVec 16) (s : State), s.rd F.PWR_STATUS_STATE ≤ 1 ∧ s.rd F.PWR_STATUS_PHASE = 0 ∧ frame.toNat % 16 = lullChk frame ∧
      (frame.toNat / 2 ^ 8 = s.rd F.LULL_CFG_ADDR ∨ (frame.toNat / 2 ^ 8 = 0xFF ∧ s.rd F.LULL_CFG_BCAST_EN ≠ 0)) ∧ frame.toNat / 2 ^ 4 % 16 = 1 ∧
      s.rd F.PWR_HOLD ≠ 0) ∧
    (∃ (t : Instant) (frame : BitVec 16) (bothHigh : Bool) (s : State), s.rd F.PWR_STATUS_STATE = 4) ∧
    (∃ (t : Instant) (s : State), s.rd F.PWR_STATUS_PHASE = 1 ∧ 2 ≤ s.rd F.PWR_STATUS_TARGET ∧ s.rd F.PWR_STATUS_TARGET ≤ 3 ∧
      s.rd F.PWR_STATUS_WAKE_PEND = 0 ∧ s.rd F.PWR_WAKE_EN_WAKE_N ≠ 0 ∧ s.rd F.PWR_STATUS_STATE ≠ 4) ∧
    (∃ (t : Instant) (frame : BitVec 16) (s : State), (s.rd F.PWR_STATUS_STATE = 2 ∨ s.rd F.PWR_STATUS_STATE = 3) ∧ s.rd F.PWR_STATUS_PHASE = 0 ∧
      s.rd F.PWR_STATUS_WAKE_PEND = 0 ∧ s.rd F.PWR_WAKE_EN_LULL ≠ 0 ∧ frame.toNat % 16 = lullChk frame ∧ (frame.toNat / 2 ^ 8 = s.rd F.LULL_CFG_ADDR ∨
      (frame.toNat / 2 ^ 8 = 0xFF ∧ s.rd F.LULL_CFG_BCAST_EN ≠ 0)) ∧ frame.toNat / 2 ^ 4 % 16 = 1) ∧
    (∃ (t : Instant) (s : State), s.rd F.PWR_STATUS_STATE ≠ 4) ∧
    (∃ (t : Instant) (lowUs : Nat) (takes : Bool) (s : State), (50 ≤ lowUs ∨ (10 ≤ lowUs ∧ takes = true)) ∧ (s.rd F.PWR_STATUS_STATE = 2 ∨
      s.rd F.PWR_STATUS_STATE = 3) ∧ s.rd F.PWR_STATUS_PHASE = 0 ∧ s.rd F.PWR_STATUS_WAKE_PEND = 0 ∧ s.rd F.PWR_WAKE_EN_WAKE_N ≠ 0) ∧
    (∃ (t : Instant) (lowUs : Nat) (takes : Bool) (s : State), (50 ≤ lowUs ∨ (10 ≤ lowUs ∧ takes = true)) ∧ (s.rd F.PWR_STATUS_STATE = 2 ∨
      s.rd F.PWR_STATUS_STATE = 3) ∧ s.rd F.PWR_STATUS_PHASE = 0 ∧ s.rd F.PWR_STATUS_WAKE_PEND = 0 ∧ s.rd F.PWR_WAKE_EN_WAKE_N ≠ 0) ∧
    (∃ (t : Instant) (lowUs : Nat) (takes : Bool) (s : State), (50 ≤ lowUs ∨ (10 ≤ lowUs ∧ takes = true)) ∧ s.rd F.PWR_STATUS_STATE = 4) ∧
    (∃ (t : Instant) (lowUs : Nat) (takes : Bool) (s : State), lowUs < 10) ∧
    (∃ (t : Instant) (lowUs : Nat) (s : State), lowUs < 50) ∧
    (∃ (t : Instant) (s : State), ((s.advance t).now = s.rdT F.PWR_ALARM ∨ (s.rd F.WARP_STATUS_COARSE ≠ 0 ∧
      notLater (s.rdT F.PWR_ALARM) (s.advance t).now = true)) ∧ (s.rd F.PWR_STATUS_STATE = 2 ∨ s.rd F.PWR_STATUS_STATE = 3) ∧
      s.rd F.PWR_STATUS_PHASE = 0 ∧ s.rd F.PWR_STATUS_WAKE_PEND = 0 ∧ s.rd F.PWR_WAKE_EN_ALARM ≠ 0) ∧
    (∃ (t : Instant) (s : State), ((s.advance t).now = s.rdT F.PWR_ALARM ∨ (s.rd F.WARP_STATUS_COARSE ≠ 0 ∧
      notLater (s.rdT F.PWR_ALARM) (s.advance t).now = true)) ∧ (s.rd F.PWR_STATUS_STATE = 2 ∨ s.rd F.PWR_STATUS_STATE = 3) ∧
      s.rd F.PWR_STATUS_PHASE = 0 ∧ s.rd F.PWR_STATUS_WAKE_PEND = 0 ∧ s.rd F.PWR_WAKE_EN_ALARM ≠ 0) ∧
    (∃ (t : Instant) (s : State), s.rd F.PWR_STATUS_STATE = 2 ∧ s.rd F.PWR_STATUS_PHASE = 0 ∧ s.rd F.PWR_STATUS_WAKE_PEND = 0 ∧
      s.rd F.PWR_WAKE_EN_HOST ≠ 0) ∧
    (∃ (t : Instant) (s : State), s.rd F.PWR_STATUS_STATE = 2 ∧ s.rd F.PWR_STATUS_PHASE ≠ 1 ∧ s.rd F.PWR_STATUS_WAKE_PEND ≠ 0 ∧
      s.power.escalated = false ∧ s.rd F.PWR_WAKE_EN_HOST ≠ 0) ∧
    (∃ (t : Instant) (s : State), s.rd F.PWR_STATUS_STATE = 3 ∧ s.rd F.PWR_STATUS_PHASE ≠ 1) ∧
    (∃ (t : Instant) (s : State), s.rd F.PWR_STATUS_PHASE = 2 ∧ s.rd F.PWR_STATUS_STATE ≤ 3) ∧
    (∃ (t : Instant) (s : State), s.rd F.PWR_STATUS_PHASE = 2 ∧ s.rd F.PWR_STATUS_STATE ≤ 3) ∧
    (∃ (t : Instant) (s : State), s.rd F.PWR_STATUS_PHASE = 2 ∧
      1000000 * ((if s.rd F.PWR_WAKE_CFG_WAKE_TMO_MS = 0 then 20 else s.rd F.PWR_WAKE_CFG_WAKE_TMO_MS : Nat) : Int) ≤ sinceNs (s.advance t).now s.power.wakeAt ∧
      s.power.retries < 3) ∧
    (∃ (t : Instant) (s : State), s.rd F.PWR_STATUS_PHASE = 2 ∧
      1000000 * ((if s.rd F.PWR_WAKE_CFG_WAKE_TMO_MS = 0 then 20 else s.rd F.PWR_WAKE_CFG_WAKE_TMO_MS : Nat) : Int) ≤ sinceNs (s.advance t).now s.power.wakeAt ∧
      3 ≤ s.power.retries ∧ s.rd F.PWR_STATUS_STATE = 2) ∧
    (∃ (t : Instant) (s : State), s.rd F.PWR_STATUS_PHASE = 2 ∧
      1000000 * ((if s.rd F.PWR_WAKE_CFG_WAKE_TMO_MS = 0 then 20 else s.rd F.PWR_WAKE_CFG_WAKE_TMO_MS : Nat) : Int) ≤ sinceNs (s.advance t).now s.power.wakeAt ∧
      3 ≤ s.power.retries ∧ s.rd F.PWR_STATUS_STATE = 3) ∧
    (∃ (t : Instant) (r : Instant) (s : State), s.power.retryAt = some r ∧ notLater r (s.advance t).now = true) ∧
    (∃ (t : Instant) (q : Fin 4) (bad : List (Nat × Bool)) (s : State), s.power.rising.contains q.val = true) ∧
    (∃ (t : Instant) (q : Fin 4) (bad : List (Nat × Bool)) (s : State), s.power.rising.contains q.val = true) :=
  ⟨⟨5, 0x0310, false, pwrUp 2 0 0, by decide +kernel⟩,
   ⟨5, 0x0312, true, pwrUp 2 0 0, by decide +kernel⟩,
   ⟨5, 0x0415, (pwrUp 2 0 0).wr F.LULL_CFG_BCAST_EN 1, by decide +kernel⟩,
   ⟨5, 0xFF11, (pwrUp 2 0 0).wr F.LULL_CFG_BCAST_EN 0, by decide +kernel⟩,
   ⟨5, 0x0321, pwrUp 2 0 0, by decide +kernel⟩,
   ⟨5, 0xFF22, (pwrUp 2 0 0).wr F.LULL_CFG_BCAST_EN 1, by decide +kernel⟩,
   ⟨5, 0x0330, pwrUp 2 0 0, by decide +kernel⟩,
   ⟨5, 0x0312, (pwrUp 0 0 0).wr F.PWR_HOLD 4, by decide +kernel⟩,
   ⟨5, 0x0312, false, pwrUp 4 0 0, by decide +kernel⟩,
   ⟨5, pwrUp 0 1 3, by decide +kernel⟩,
   ⟨5, 0x0312, pwrUp 2 0 0, by decide +kernel⟩,
   ⟨5, pwrUp 0 0 0, by decide +kernel⟩,
   ⟨5, 50, false, pwrUp 3 0 0, by decide +kernel⟩,
   ⟨5, 10, true, pwrUp 2 0 0, by decide +kernel⟩,
   ⟨5, 50, false, pwrUp 4 0 0, by decide +kernel⟩,
   ⟨5, 9, true, pwrUp 4 0 0, by decide +kernel⟩,
   ⟨5, 49, pwrUp 4 0 0, by decide +kernel⟩,
   ⟨1600, (pwrUp 2 0 0).wr F.PWR_ALARM 1600, by decide +kernel⟩,
   ⟨1600, ((pwrUp 3 0 0).wr F.PWR_ALARM 160).wr F.WARP_STATUS_COARSE 1, by decide +kernel⟩,
   ⟨1600, pwrUp 2 0 0, by decide +kernel⟩,
   ⟨1600, (pwrUp 2 2 0).wr F.PWR_STATUS_WAKE_PEND 1, by decide +kernel⟩,
   ⟨1600, pwrUp 3 0 0, by decide +kernel⟩,
   ⟨1600, pwrUp 2 2 0, by decide +kernel⟩,
   ⟨1600, (pwrUp 3 2 0).wr F.WARP_STATUS_COARSE 1, by decide +kernel⟩,
   ⟨160000000000, pwrUp 2 2 0, by decide +kernel⟩,
   ⟨160000000000, (pwrUp 2 2 0).onPwr (fun w => { w with retries := 3 }), by decide +kernel⟩,
   ⟨160000000000, (pwrUp 3 2 0).onPwr (fun w => { w with retries := 3 }), by decide +kernel⟩,
   ⟨1600, 160, (pwrUp 2 0 0).onPwr (fun w => { w with retryAt := some 160 }), by decide +kernel⟩,
   ⟨1600, 2, [], (pwrUp 0 0 0).onPwr (fun w => { w with rising := [2] }), by decide +kernel⟩,
   ⟨1600, 2, [(0x2000005, true)], (pwrUp 0 0 0).onPwr (fun w => { w with rising := [2] }), by decide +kernel⟩⟩

theorem witness_ADeviceResetDiscardsAcceptedCommands :
    (∃ (t : Instant) (lowNs : Nat) (takes : Bool) (m : Fin 17) (s : State), (2400 ≤ lowNs ∨ (1600 ≤ lowNs ∧ takes = true))) ∧
    (∃ (t : Instant) (value : Word) (m : Fin 17) (s : State), value.toNat / 2 ^ 16 = 0x5253 ∧ value.getLsbD 0 = true) ∧
    (∃ (t : Instant) (m : Fin 17) (s : State), s.rd F.PWR_STATUS_STATE ≤ 1 ∧ 3 ≤ s.rd F.RST_STAGE_STAGE) ∧
    (∃ (t : Instant) (good : Bool) (lost : Bool) (m : Fin 17) (s : State), s.boot.powered = !good ∧ ((good = true ∨ s.rd F.PWR_STATUS_STATE ≠ 4))) ∧
    (∃ (t : Instant) (good : Bool) (lost : Bool) (m : Fin 17) (s : State), s.boot.powered = !good ∧ ((good = true ∨ s.rd F.PWR_STATUS_STATE ≠ 4))) ∧
    (∃ (t : Instant) (lowUs : Nat) (takes : Bool) (m : Fin 17) (s : State), (50 ≤ lowUs ∨ (10 ≤ lowUs ∧ takes = true)) ∧ s.rd F.PWR_STATUS_STATE = 4) ∧
    (∃ (t : Instant) (m : Fin 17) (s : State), s.rd F.UPD_STATUS_STATE = 3 ∧ notLater (s.rdT F.UPD_AT) (s.advance t).now = true ∧
      (List.range 16).all s.inStop = true) ∧
    (∃ (t : Instant) (b : BootRec) (s : State), s.boot.held = true ∧ b.ready = true ∧ b.pufOk = true ∧ s.sec.active = 0 ∧ s.sec.tryNext = none ∧
      s.rd F.UPD_STATUS_STATE ≠ 4 ∧ b.fwOk.1 = true ∧ b.stewardOk = true ∧ b.dramOk = true ∧ s.rd F.SK_EPOCH < 2 ^ F.SK_EPOCH.width) ∧
    (∃ (t : Instant) (p : Fin 16) (value : Word) (s : State), s.admits (0xE00300 + 8 * p.val) = true ∧ value.getLsbD 0 = true ∧
      value.toNat / 2 ^ 8 % 4 = s.rd F.CP_STATUS_STATE p) ∧
    (∃ (t : Instant) (p : Fin 16) (value : Word) (s : State), s.rd F.HOST_STATUS_BOOTING = 0 ∧ s.covered p = false ∧
      (s.waiting p).head?.any (fun c => c.write == some value.toNat && c.off == 0xE00300 + 8 * p.val) = true ∧ s.nextFits p = true ∧
      value.getLsbD 0 = true ∧ value.toNat / 2 ^ 8 % 4 = s.rd F.CP_STATUS_STATE p) :=
  ⟨⟨5, 3000, false, 2, runUp, by decide +kernel⟩,
   ⟨5, 0x52530001, 2, runUp, by decide +kernel⟩,
   ⟨5, 2, runUp.wr F.RST_STAGE_STAGE 10, by decide +kernel⟩,
   ⟨5, false, true, 2, runUp.onRst (fun b => { b with powered := true }), by decide +kernel⟩,
   ⟨5, true, true, 2, runUp.onRst (fun b => { b with powered := false }), by decide +kernel⟩,
   ⟨5, 50, false, 2, runUp.wr F.PWR_STATUS_STATE 4, by decide +kernel⟩,
   ⟨16000, 2, (updUp 3).sent 2 0x0D 0 0, by decide +kernel⟩,
   ⟨5, goodBoot, coldUp, by decide +kernel⟩,
   ⟨5, 2, 0x101, runFree.sent 3 0x0D 0 0, by decide +kernel⟩,
   ⟨5, 2, 0x101, runFree.putWaiting 2 [writeCmd 0xE00310 0x101, ⟨0x0D, 7, 0, 0, 0, 0, 0x11000, 0, 2, false, 0, none⟩], by decide +kernel⟩⟩

theorem witness_ResetsBootAndResumeFollowTheirSteps :
    (∃ (t : Instant) (lowNs : Nat) (takes : Bool) (s : State), 2400 ≤ lowNs) ∧
    (∃ (t : Instant) (lowNs : Nat) (s : State), lowNs < 2400) ∧
    (∃ (t : Instant) (lowNs : Nat) (s : State), lowNs < 1600) ∧
    (∃ (t : Instant) (value : Word) (s : State), value.toNat / 2 ^ 16 = 0x5253 ∧ value.getLsbD 0 = true) ∧
    (∃ (t : Instant) (value : Word) (s : State), (value.toNat / 2 ^ 16 ≠ 0x5253 ∨ value.getLsbD 0 = false)) ∧
    (∃ (t : Instant) (value : Word) (s : State), (value.toNat / 2 ^ 16 ≠ 0x5253 ∨ value.getLsbD 0 = false)) ∧
    (∃ (t : Instant) (s : State), (1 < s.rd F.PWR_STATUS_STATE ∨ s.rd F.RST_STAGE_STAGE < 3)) ∧
    (∃ (t : Instant) (s : State), (1 < s.rd F.PWR_STATUS_STATE ∨ s.rd F.RST_STAGE_STAGE < 3)) ∧
    (∃ (t : Instant) (s : State), s.rd F.PWR_STATUS_STATE ≤ 1 ∧ 3 ≤ s.rd F.RST_STAGE_STAGE) ∧
    (∃ (t : Instant) (lost : Bool) (s : State), s.boot.powered = false) ∧
    (∃ (t : Instant) (lost : Bool) (s : State), s.boot.powered = true ∧ s.rd F.PWR_STATUS_STATE ≠ 4) ∧
    (∃ (t : Instant) (good : Bool) (lost : Bool) (s : State), (s.boot.powered = good ∨ (good = false ∧ s.rd F.PWR_STATUS_STATE = 4))) ∧
    (∃ (t : Instant) (good : Bool) (lost : Bool) (s : State), (s.boot.powered = good ∨ (good = false ∧ s.rd F.PWR_STATUS_STATE = 4))) ∧
    (∃ (t : Instant) (b : BootRec) (s : State), s.boot.held = false) ∧
    (∃ (t : Instant) (b : BootRec) (s : State), s.boot.held = true ∧ b.ready = false ∧ s.rd F.RST_STAGE_FAIL_STEP = 0) ∧
    (∃ (t : Instant) (b : BootRec) (s : State), s.boot.held = true ∧ b.ready = true ∧ b.pufOk = false ∧ s.rd F.RST_STAGE_FAIL_STEP = 0) ∧
    (∃ (t : Instant) (b : BootRec) (s : State), s.boot.held = true ∧ b.ready = true ∧ b.pufOk = true ∧ b.fwOk = (false, false) ∧
      s.rd F.RST_STAGE_FAIL_STEP = 0) ∧
    (∃ (t : Instant) (b : BootRec) (s : State), s.boot.held = true ∧ s.rd F.RST_STAGE_FAIL_STEP = 0 ∧ b.stewardOk = false ∧
      (andThen ((s.advance t).released.bootStep1 b) (·.bootStep2 b)).2 = true) ∧
    (∃ (t : Instant) (b : BootRec) (s : State), s.boot.held = true ∧ s.rd F.RST_STAGE_FAIL_STEP = 0 ∧ b.stewardOk = true ∧ b.dramOk = false ∧
      (andThen ((s.advance t).released.bootStep1 b) (·.bootStep2 b)).2 = true) ∧
    (∃ (t : Instant) (b : BootRec) (s : State), s.boot.held = true ∧ s.rd F.RST_STAGE_FAIL_STEP = 0 ∧ b.stewardOk = true ∧ b.dramOk = true ∧
      b.beam = none ∧ b.beamAgain = none ∧ (andThen ((s.advance t).released.bootStep1 b) (·.bootStep2 b)).2 = true) ∧
    (∃ (t : Instant) (b : BootRec) (s : State), s.boot.held = true ∧
      (andThen (andThen (andThen (andThen (andThen ((s.advance t).released.bootStep1 b) (·.bootStep2 b)) (·.bootStep3 b)) (·.bootStep4 b)) (·.bootStep5 b)) (·.bootStep6 b)).2 = true) ∧
    (∃ (t : Instant) (b : BootRec) (s : State), s.boot.held = true ∧ b.ready = true ∧ s.rd F.RST_CAUSE_WARP_KEPT = 0 ∧ b.tai = none) ∧
    (∃ (t : Instant) (s : State), s.boot.waiting = true ∧ onGrid 1000000 0 (s.advance t).now = true ∧
      (List.range 4).all (fun r => s.rd F.RING_STATUS_STATE r != 1 && s.rd F.RING_STATUS_STATE r != 2) = true) ∧
    (∃ (t : Instant) (p : Fin 16) (s : State), s.boot.waiting = true ∧ onGrid 1000000 0 (s.advance t).now = true ∧
      (List.range 4).all (fun r => s.rd F.RING_STATUS_STATE r != 1 && s.rd F.RING_STATUS_STATE r != 2) = true ∧ s.boot.selected = none ∧
      s.rd F.CP_STATUS_STATE p = 0) ∧
    (∃ (t : Instant) (s : State), onGrid 1000000 0 (s.advance t).now = false) ∧
    (∃ (t : Instant) (p : Fin 16) (s : State), onGrid 10000000 0 (s.advance t).now = true ∧ s.partRunning p = true) :=
  ⟨⟨5, 2400, false, runUp, by decide +kernel⟩,
   ⟨5, 2399, runUp, by decide +kernel⟩,
   ⟨5, 1599, runUp, by decide +kernel⟩,
   ⟨5, 0x52530001, runUp, by decide +kernel⟩,
   ⟨5, 0x52520001, runUp, by decide +kernel⟩,
   ⟨5, 0x52530002, runUp, by decide +kernel⟩,
   ⟨5, runUp.wr F.RST_STAGE_STAGE 2, by decide +kernel⟩,
   ⟨5, (runUp.wr F.RST_STAGE_STAGE 10).wr F.PWR_STATUS_STATE 2, by decide +kernel⟩,
   ⟨5, runUp.wr F.RST_STAGE_STAGE 10, by decide +kernel⟩,
   ⟨5, false, runUp.onRst (fun b => { b with powered := false }), by decide +kernel⟩,
   ⟨5, true, runUp.onRst (fun b => { b with powered := true }), by decide +kernel⟩,
   ⟨5, true, false, runUp.onRst (fun b => { b with powered := true }), by decide +kernel⟩,
   ⟨5, false, false, (runUp.onRst (fun b => { b with powered := true })).wr F.PWR_STATUS_STATE 4, by decide +kernel⟩,
   ⟨5, goodBoot, runUp.onRst (fun b => { b with held := false }), by decide +kernel⟩,
   ⟨5, { goodBoot with ready := false }, coldUp, by decide +kernel⟩,
   ⟨5, { goodBoot with pufOk := false }, coldUp, by decide +kernel⟩,
   ⟨5, { goodBoot with fwOk := (false, false) }, coldUp, by decide +kernel⟩,
   ⟨5, { goodBoot with stewardOk := false }, coldUp, by decide +kernel⟩,
   ⟨5, { goodBoot with dramOk := false }, coldUp, by decide +kernel⟩,
   ⟨5, { goodBoot with beam := none }, coldUp, by decide +kernel⟩,
   ⟨5, goodBoot, coldUp, by decide +kernel⟩,
   ⟨5, goodBoot, coldUp.onWarp 77, by decide +kernel⟩,
   ⟨16000000, bootUp, by decide +kernel⟩,
   ⟨16000000, 15, bootUp, by decide +kernel⟩,
   ⟨16000016, bootUp, by decide +kernel⟩,
   ⟨160000000, 2, runUp, by decide +kernel⟩⟩

theorem witness_APartitionResetLeavesStop :
    (∃ (t : Instant) (p : Fin 16) (value : Word) (s : State), s.admits (0xE00300 + 8 * p.val) = true ∧ value.getLsbD 0 = true ∧
      value.toNat / 2 ^ 8 % 4 = s.rd F.CP_STATUS_STATE p) ∧
    (∃ (t : Instant) (p : Fin 16) (value : Word) (s : State), s.admits (0xE00300 + 8 * p.val) = true ∧ value.getLsbD 0 = true ∧
      value.toNat / 2 ^ 8 % 4 = s.rd F.CP_STATUS_STATE p) ∧
    (∃ (t : Instant) (p : Fin 16) (n : Fin 1024) (value : Word) (s : State), s.admits (0xE00300 + 8 * p.val) = true ∧ value.getLsbD 0 = true ∧
      value.toNat / 2 ^ 8 % 4 = s.rd F.CP_STATUS_STATE p ∧ s.ownerLC n = some p.val ∧ (s.owned 0 p).contains n.val = true) ∧
    (∃ (t : Instant) (p : Fin 16) (value : Word) (s : State), s.admits (0xE00300 + 8 * p.val) = true ∧ value.getLsbD 0 = true ∧
      value.toNat / 2 ^ 8 % 4 ≠ s.rd F.CP_STATUS_STATE p) ∧
    (∃ (t : Instant) (p : Fin 16) (value : Word) (s : State), s.admits (0xE00300 + 8 * p.val) = true ∧ value.getLsbD 0 = false) ∧
    (∃ (t : Instant) (at_ : Instant) (p : Fin 16) (s : State), s.boot.partAt.find p = some at_) :=
  ⟨⟨5, 2, 0x101, runFree, by decide +kernel⟩,
   ⟨5, 2, 1, progUp, by decide +kernel⟩,
   ⟨5, 2, 3, 0x001, (ownRec loopUp (loopKey 3) 2 0).wr F.LC_CTRL_ENABLE 1 3, by decide +kernel⟩,
   ⟨5, 2, 0x001, runFree, by decide +kernel⟩,
   ⟨5, 2, 0x20002, runFree.wr F.RST_PART_PR_DONE 1 2, by decide +kernel⟩,
   ⟨1600, 16, 2, runUp.onRst (fun b => { b with partAt := b.partAt.set 2 16 }), by decide +kernel⟩⟩

theorem witness_AManagementDatagramNeedsItsPortAndSource :
    (∃ (t : Instant) (q : Fin 2) (port : BitVec 16) (src : Word) (entry : List Byte) (data : List Byte) (s : State), (s.rd F.ETH_CFG_MGMT_EN q = 0 ∨
      port.toNat ≠ s.rd F.ETH_MGMT_PORT q ∨ (List.range 4).all (fun i => s.rd F.ETH_ALLOW (4 * q.val + i) != src.toNat) = true) ∧
      s.rd F.ETH_RX_DROP q < 2 ^ F.ETH_RX_DROP.width - 1) ∧
    (∃ (t : Instant) (q : Fin 2) (port : BitVec 16) (src : Word) (entry : List Byte) (data : List Byte) (s : State), (s.rd F.ETH_CFG_MGMT_EN q = 0 ∨
      port.toNat ≠ s.rd F.ETH_MGMT_PORT q ∨ (List.range 4).all (fun i => s.rd F.ETH_ALLOW (4 * q.val + i) != src.toNat) = true) ∧
      s.rd F.ETH_RX_DROP q < 2 ^ F.ETH_RX_DROP.width - 1) ∧
    (∃ (t : Instant) (q : Fin 2) (port : BitVec 16) (src : Word) (entry : List Byte) (data : List Byte) (s : State), (s.rd F.ETH_CFG_MGMT_EN q = 0 ∨
      port.toNat ≠ s.rd F.ETH_MGMT_PORT q ∨ (List.range 4).all (fun i => s.rd F.ETH_ALLOW (4 * q.val + i) != src.toNat) = true) ∧
      s.rd F.ETH_RX_DROP q < 2 ^ F.ETH_RX_DROP.width - 1) ∧
    (∃ (t : Instant) (q : Fin 2) (i : Fin 4) (port : BitVec 16) (src : Word) (entry : List Byte) (data : List Byte) (s : State), s.rd F.ETH_CFG_MGMT_EN q ≠ 0 ∧
      port.toNat = s.rd F.ETH_MGMT_PORT q ∧ s.rd F.ETH_ALLOW (4 * q.val + i.val) = src.toNat ∧ src ≠ 0 ∧ entryField entry 8 1 < 17 ∧
      s.waiting (entryField entry 8 1) = [] ∧ (s.parseEntry (entryField entry 8 1) true entry data).status = 0) :=
  ⟨⟨5, 1, 77, 9, [], [], portUp.wr F.ETH_CFG_MGMT_EN 0 1, by decide +kernel⟩,
   ⟨5, 1, 78, 9, [], [], portUp, by decide +kernel⟩,
   ⟨5, 1, 77, 8, [], [], portUp, by decide +kernel⟩,
   ⟨5, 1, 2, 77, 9, entryBytes 0x0D 0 2 0 0 0 0 0 0, [], portUp, by decide +kernel⟩⟩

theorem witness_AWrongExpectHasNoEffect :
    (∃ (opcode : Nat) (obj : Nat) (args : HostCmd → Bool) (f : State → State) (c : HostCmd) (s : State), s.waiting obj = [c] ∧ c.write = none ∧
      c.opcode = opcode ∧ c.status = 0 ∧ args c = true ∧ s.rd F.HOST_STATUS_BOOTING = 0 ∧ c.kind ≠ 0 ∧ s.expected obj c.kind ≠ c.expect) ∧
    (∃ (opcode : Nat) (obj : Nat) (args : HostCmd → Bool) (f : State → State) (c : HostCmd) (s : State), s.waiting obj = [c] ∧ c.write = none ∧
      c.opcode = opcode ∧ c.status = 0 ∧ args c = true ∧ s.rd F.HOST_STATUS_BOOTING = 0 ∧ s.expected obj c.kind = c.expect ∧ (16 ≤ obj ∨
      s.covered obj = false)) ∧
    (∃ (opcode : Nat) (obj : Nat) (args : HostCmd → Bool) (f : State → State) (c : HostCmd) (s : State), s.waiting obj = [c] ∧ c.write = none ∧
      c.opcode = opcode ∧ c.status = 0 ∧ args c = true ∧ s.rd F.HOST_STATUS_BOOTING = 0 ∧ s.expected obj c.kind = c.expect ∧ (16 ≤ obj ∨
      s.covered obj = false)) ∧
    (∃ (obj : Nat) (eth : Bool) (e : List Byte) (inline : List Byte) (s : State), entryField e 9 1 = 0 ∧ entryField e 0 2 ∉ [0x0D, 0x0C, 0x25, 0x30]) :=
  ⟨⟨3, 2, anyArgs, (fun s => s.reply 0), ⟨3, 7, 2, 1, 0, 0, 0x11000, 0, 1, false, 0, none⟩, up.putWaiting 2 [⟨3, 7, 2, 1, 0, 0, 0x11000, 0, 1, false, 0, none⟩], by decide +kernel⟩,
   ⟨3, 16, anyArgs, (fun s => s.reply 0), ⟨3, 7, 4, 0, 0, 0, 0x11000, 0, 1, false, 0, none⟩, up.putWaiting 16 [⟨3, 7, 4, 0, 0, 0, 0x11000, 0, 1, false, 0, none⟩], by decide +kernel⟩,
   ⟨3, 2, anyArgs, (fun s => s.reply 7), ⟨3, 7, 2, 0, 0, 0, 0x11000, 0, 1, false, 0, none⟩, up.putWaiting 2 [⟨3, 7, 2, 0, 0, 0, 0x11000, 0, 1, false, 0, none⟩], by decide +kernel⟩,
   ⟨2, false, entryBytes 3 0 2 0 0 0 0 0 0, [], up, by decide +kernel⟩⟩

theorem witness_MailboxesAndViewsServeTheHost :
    (∃ (t : Instant) (m : Fin 17) (value : Word) (s : State), (value.toNat % 128 + 128 - s.rd F.MBX_STATE_CONS m) % 128 = 1 ∧ s.waiting m = [] ∧
      (s.parseEntry m false (s.dram.readBytes (windowBase m + 64 * (s.rd F.MBX_STATE_CONS m % 64)) 64) []).status = 0) ∧
    (∃ (t : Instant) (m : Fin 17) (value : Word) (s : State), (value.toNat % 128 + 128 - s.rd F.MBX_STATE_CONS m) % 128 = 1 ∧ s.waiting m = [] ∧
      (s.parseEntry m false (s.dram.readBytes (windowBase m + 64 * (s.rd F.MBX_STATE_CONS m % 64)) 64) []).status ≠ 0) ∧
    (∃ (t : Instant) (m : Fin 17) (value : Word) (s : State), (value.toNat % 128 + 128 - s.rd F.MBX_STATE_CONS m) % 128 ≤ 64 ∧
      s.rd F.MBX_STATE_CONS m < 2 ^ F.MBX_STATE_CONS.width) ∧
    (∃ (t : Instant) (m : Fin 17) (value : Word) (s : State), (value.toNat % 128 + 128 - s.rd F.MBX_STATE_CONS m) % 128 = 0 ∧ s.waiting m = []) ∧
    (∃ (t : Instant) (p : Fin 16) (value : Word) (s : State), s.rd F.HOST_STATUS_BOOTING = 0 ∧
      (s.waiting p).head?.any (fun c => c.write != some value.toNat || c.off != 0x300000 + 0x100 * p.val) = true ∧ value.toNat % 32 ≠ 0) ∧
    (∃ (t : Instant) (p : Fin 16) (value : Word) (s : State), s.rd F.HOST_STATUS_BOOTING = 0 ∧
      (s.waiting p).head?.any (fun c => c.write != some value.toNat || c.off != 0x900000 + 0x200 * p.val) = true ∧ cpBits value ≠ []) ∧
    (∃ (t : Instant) (p : Fin 16) (value : Word) (s : State), s.rd F.HOST_STATUS_BOOTING = 0 ∧
      (s.waiting p).head?.any (fun c => c.write != some value.toNat || c.off != 0x701000 + 0x40 * p.val) = true) ∧
    (∃ (t : Instant) (p : Fin 16) (value : Word) (s : State), s.rd F.HOST_STATUS_BOOTING = 0 ∧
      (s.waiting p).head?.any (fun c => c.write != some value.toNat || c.off != 0xE00300 + 8 * p.val) = true ∧ value.getLsbD 0 = true) ∧
    (∃ (t : Instant) (value : Word) (s : State), s.rd F.HOST_STATUS_BOOTING = 0 ∧
      (s.waiting 16).head?.any (fun c => c.write != some value.toNat || c.off != 0xC00010) = true ∧ value.toNat % 16 ≠ 0) ∧
    (∃ (t : Instant) (value : Word) (s : State), s.rd F.HOST_STATUS_BOOTING = 0 ∧
      (s.waiting 16).head?.any (fun c => c.write != some value.toNat || c.off != 0xD00200) = true ∧ value.toNat % 8 ≠ 0) ∧
    (∃ (t : Instant) (p : Fin 16) (img : StepTable) (c : HostCmd) (s : State), s.mayExecute 1 p anyArgs = true ∧ s.waiting p = [c]) ∧
    (∃ (t : Instant) (p : Fin 16) (img : SegImage) (c : HostCmd) (s : State), s.mayExecute 2 p anyArgs = true ∧ s.waiting p = [c]) ∧
    (∃ (t : Instant) (p : Fin 16) (img : Envelope) (c : HostCmd) (s : State), s.mayExecute 3 p anyArgs = true ∧ s.waiting p = [c]) ∧
    (∃ (t : Instant) (p : Fin 16) (img : Program) (c : HostCmd) (s : State), s.mayExecute 4 p anyArgs = true ∧ s.waiting p = [c]) ∧
    (∃ (t : Instant) (p : Fin 16) (img : DraftImg) (c : HostCmd) (s : State), s.mayExecute 5 p anyArgs = true ∧ s.waiting p = [c]) ∧
    (∃ (t : Instant) (img : MatrixCont) (readBack : Bool) (c : HostCmd) (s : State), s.mayExecute 0x10 16 anyArgs = true ∧ s.waiting 16 = [c]) ∧
    (∃ (t : Instant) (img : SafProg) (readBack : Bool) (c : HostCmd) (s : State), s.mayExecute 0x11 16 anyArgs = true ∧ s.waiting 16 = [c]) ∧
    (∃ (t : Instant) (obj : Fin 17) (offset : Word) (data : List Byte) (a : Nat) (s : State), s.mayExecute 0x30 obj (fun c => c.arg0 == offset.toNat && c.len == data.length) = true ∧
      (s.waiting obj).all (·.eth) = true) ∧
    (∃ (t : Instant) (p : Fin 16) (kind : Word) (index : Word) (f : Fld) (s : State), s.mayExecute 0x0B p (fun c => c.arg0 == kind.toNat && c.arg1 == index.toNat) = true ∧
      s.nextFits p = true ∧ s.odometer kind.toNat index.toNat = some (f, some p.val)) ∧
    (∃ (t : Instant) (p : Fin 16) (kind : Word) (index : Word) (f : Fld) (s : State), s.mayExecute 0x0B p (fun c => c.arg0 == kind.toNat && c.arg1 == index.toNat) = true ∧
      s.nextFits p = true ∧ s.odometer kind.toNat index.toNat = some (f, some p.val)) ∧
    (∃ (t : Instant) (p : Fin 16) (kind : Word) (index : Word) (f : Fld) (s : State), s.mayExecute 0x0B p (fun c => c.arg0 == kind.toNat && c.arg1 == index.toNat) = true ∧
      s.nextFits p = true ∧ (s.odometer kind.toNat index.toNat).any (fun e => e.2 == some p.val) = false ∧
      [F.LC_ODO, F.AX_ODO_STEPS, F.AX_ODO_MOVES, F.ODO_OUT, F.ODO_OUT_SAT].contains f = true) ∧
    (∃ (t : Instant) (p : Fin 16) (kind : Word) (index : Word) (f : Fld) (s : State), s.mayExecute 0x0B p (fun c => c.arg0 == kind.toNat && c.arg1 == index.toNat) = true ∧
      s.nextFits p = true ∧ (s.odometer kind.toNat index.toNat).any (fun e => e.2 == some p.val) = false ∧
      [F.LC_ODO, F.AX_ODO_STEPS, F.AX_ODO_MOVES, F.ODO_OUT, F.ODO_OUT_SAT].contains f = true) ∧
    (∃ (t : Instant) (p : Fin 16) (refresh : Bool) (s : State), s.mayExecute 0x0D p anyArgs = true ∧ s.nextFits p = true) ∧
    (∃ (t : Instant) (p : Fin 16) (s : State), s.viewDiffers p = true) ∧
    (∃ (t : Instant) (p : Fin 16) (s : State), s.viewDiffers p = false) :=
  ⟨⟨5, 2, 1, mailUp (entryBytes 3 0 2 2 0 0 0 0 0), by decide +kernel⟩,
   ⟨5, 2, 1, mailUp (entryBytes 3 0 2 0 0 0 0 0 0), by decide +kernel⟩,
   ⟨5, 2, 3, mailUp (entryBytes 3 0 2 2 0 0 0 0 0), by decide +kernel⟩,
   ⟨5, 2, 128, mailUp [], by decide +kernel⟩,
   ⟨5, 2, 1, runUp, by decide +kernel⟩,
   ⟨5, 2, 0x102, runUp, by decide +kernel⟩,
   ⟨5, 2, 1, runUp, by decide +kernel⟩,
   ⟨5, 2, 0x101, runUp, by decide +kernel⟩,
   ⟨5, 0x401, runUp.sent 16 0x0D 0 0, by decide +kernel⟩,
   ⟨5, 0x201, runUp.sent 16 0x0D 0 0, by decide +kernel⟩,
   ⟨5, 2, oneStep, ⟨1, 7, 0, 0, 0, 0, 0x11000, 0, 1, false, 0, none⟩, up.sent 2 1 0 0, by decide +kernel⟩,
   ⟨5, 2, oneSegment, ⟨2, 7, 0, 0, 0, 0, 0x11000, 0, 1, false, 0, none⟩, up.sent 2 2 0 0, by decide +kernel⟩,
   ⟨5, 2, oneEnvelope, ⟨3, 7, 0, 0, 0, 0, 0x11000, 0, 1, false, 0, none⟩, up.sent 2 3 0 0, by decide +kernel⟩,
   ⟨5, 2, oneProgram, ⟨4, 7, 0, 0, 0, 0, 0x11000, 0, 1, false, 0, none⟩, up.sent 2 4 0 0, by decide +kernel⟩,
   ⟨5, 2, emptyDraft, ⟨5, 7, 0, 0, 0, 0, 0x11000, 0, 1, false, 0, none⟩, up.sent 2 5 0 0, by decide +kernel⟩,
   ⟨5, oneContainer, true, ⟨0x10, 7, 0, 0, 0, 0, 0x11000, 0, 1, false, 0, none⟩, up.sent 16 0x10 0 0, by decide +kernel⟩,
   ⟨5, safProg, true, ⟨0x11, 7, 0, 0, 0, 0, 0x11000, 0, 1, false, 0, none⟩, up.sent 16 0x11 0 0, by decide +kernel⟩,
   ⟨5, 16, 0x10020, [1, 0, 2], 0x20000005, up.putWaiting 16 [⟨0x30, 7, 0, 0, 0x10020, 0, 0, 3, 1, true, 0, none⟩], by decide +kernel⟩,
   ⟨5, 2, 0, 3, F.LC_ODO, ((ownRec loopUp (loopKey 3) 2 0).wr F.LC_ODO 9 3).sent 2 0x0B 0 3, by decide +kernel⟩,
   ⟨5, 2, 3, 3, F.ODO_OUT, ((ownRec up (outKey 3) 2 0).wr F.ODO_OUT 9 3).sent 2 0x0B 3 3, by decide +kernel⟩,
   ⟨5, 4, 0, 3, F.LC_ODO, ((ownRec loopUp (loopKey 3) 2 0).wr F.LC_ODO 9 3).sent 4 0x0B 0 3, by decide +kernel⟩,
   ⟨5, 4, 9, 3, F.LC_ODO, loopUp.sent 4 0x0B 9 3, by decide +kernel⟩,
   ⟨5, 2, true, runUp, by decide +kernel⟩,
   ⟨5, 2, runUp, by decide +kernel⟩,
   ⟨5, 2, runUp.refreshView 2, by decide +kernel⟩⟩

theorem witness_WindowsScrubsAndTelemetry :
    (∃ (t : Instant) (offset : Fin 1073741824) (len : Nat) (a : Nat) (bs : List Byte) (s : State), s.hostWindow (0x10000000 * s.rd F.BAR2_BASE + offset.val) bs.length true = true) ∧
    (∃ (t : Instant) (offset : Fin 1073741824) (len : Nat) (bs : List Byte) (s : State), s.hostWindow (0x10000000 * s.rd F.BAR2_BASE + offset.val) bs.length true = false) ∧
    (∃ (t : Instant) (offset : Fin 1073741824) (len : Nat) (s : State), s.hostWindow (0x10000000 * s.rd F.BAR2_BASE + offset.val) len false = true) ∧
    (∃ (t : Instant) (offset : Fin 1073741824) (len : Nat) (s : State), s.hostWindow (0x10000000 * s.rd F.BAR2_BASE + offset.val) len false = false) ∧
    (∃ (t : Instant) (q : Fin 2) (st : BitVec 2) (off : Word) (s : State), s.rd F.PTP_CFG_EN q ≠ 0) ∧
    (∃ (t : Instant) (mem : Fin 3) (addr : Nat) (p : Fin 16) (s : State), s.rd F.CP_STATUS_STATE p ≠ 0) ∧
    (∃ (t : Instant) (hour : Bool) (tjAvg : BitVec 16) (mvAvg : BitVec 12) (s : State), s.rd F.LIFE_HOURS < 2 ^ F.LIFE_HOURS.width) :=
  ⟨⟨5, 0x10, 0, 0x20000013, [1, 2], up.wr F.BAR2_BASE 2, by decide +kernel⟩,
   ⟨5, 0x10, 0, [1, 2], up.wr F.BAR2_BASE 7, by decide +kernel⟩,
   ⟨5, 0x10, 8, up.wr F.BAR2_BASE 2, by decide +kernel⟩,
   ⟨5, 0x10, 8, up.wr F.BAR2_BASE 7, by decide +kernel⟩,
   ⟨5, 1, 2, 9, up.wr F.PTP_CFG_EN 1 1, by decide +kernel⟩,
   ⟨5, 0, 77, 2, runUp, by decide +kernel⟩,
   ⟨5, true, 640, 800, up, by decide +kernel⟩⟩
/-! ### Ill-formed operands are refused -/

/-- One ill-formed term for each check on a value of type EndCond; the value they are made from passes. -/
theorem test_wf_EndCond : (⟨1, 0, 0, 0, 0⟩ : EndCond).wf = true ∧
    [{ (⟨1, 0, 0, 0, 0⟩ : EndCond) with kind := 2 ^ 8 },
     { (⟨1, 0, 0, 0, 0⟩ : EndCond) with op := 2 ^ 8 },
     { (⟨1, 0, 0, 0, 0⟩ : EndCond) with next := 2 ^ 16 },
     { (⟨1, 0, 0, 0, 0⟩ : EndCond) with src := 2 ^ 32 },
     { (⟨1, 0, 0, 0, 0⟩ : EndCond) with arg := 2 ^ 64 }].all (fun x => !x.wf) = true := by decide +kernel

/-- One ill-formed term for each check on a value of type StepRec; the value they are made from passes. -/
theorem test_wf_StepRec : (⟨0, 0, 0, 0, [], 9, 0⟩ : StepRec).wf = true ∧
    [{ (⟨0, 0, 0, 0, [], 9, 0⟩ : StepRec) with step := 2 ^ 16 },
     { (⟨0, 0, 0, 0, [], 9, 0⟩ : StepRec) with flags := 2 ^ 16 },
     { (⟨0, 0, 0, 0, [], 9, 0⟩ : StepRec) with actFirst := 2 ^ 16 },
     { (⟨0, 0, 0, 0, [], 9, 0⟩ : StepRec) with actCount := 2 ^ 16 },
     { (⟨0, 0, 0, 0, [], 9, 0⟩ : StepRec) with label := 2 ^ 32 },
     { (⟨0, 0, 0, 0, [], 9, 0⟩ : StepRec) with ends := List.replicate 5 ⟨1, 0, 0, 0, 0⟩ },
     { (⟨0, 0, 0, 0, [], 9, 0⟩ : StepRec) with ends := [⟨256, 0, 0, 0, 0⟩] }].all (fun x => !x.wf) = true := by decide +kernel

/-- One ill-formed term for each check on a value of type PoolEntry; the value they are made from passes. -/
theorem test_wf_PoolEntry : (⟨1, 0, 0, 0, 0, 0⟩ : PoolEntry).wf = true ∧
    [{ (⟨1, 0, 0, 0, 0, 0⟩ : PoolEntry) with opcode := 2 ^ 8 },
     { (⟨1, 0, 0, 0, 0, 0⟩ : PoolEntry) with flags := 2 ^ 8 },
     { (⟨1, 0, 0, 0, 0, 0⟩ : PoolEntry) with target := 2 ^ 16 },
     { (⟨1, 0, 0, 0, 0, 0⟩ : PoolEntry) with arg0 := 2 ^ 32 },
     { (⟨1, 0, 0, 0, 0, 0⟩ : PoolEntry) with arg1 := 2 ^ 32 },
     { (⟨1, 0, 0, 0, 0, 0⟩ : PoolEntry) with arg2 := 2 ^ 32 }].all (fun x => !x.wf) = true := by decide +kernel

/-- One ill-formed term for each check on a value of type StepTable; the value they are made from passes. -/
theorem test_wf_StepTable : oneStep.wf = true ∧
    [{ oneStep with magic := 2 ^ 32 },
     { oneStep with format := 2 ^ 16 },
     { oneStep with partition := 2 ^ 8 },
     { oneStep with stepCount := 2 ^ 16 },
     { oneStep with entryStep := 2 ^ 16 },
     { oneStep with stopStep := 2 ^ 16 },
     { oneStep with version := 2 ^ 32 },
     { oneStep with keyId := 2 ^ 32 },
     { oneStep with missReact := 2 ^ 8 },
     { oneStep with poolCount := 2 ^ 32 },
     { oneStep with tickNs := 2 ^ 32 },
     { oneStep with branchNs := 2 ^ 32 },
     { oneStep with built := 2 ^ 64 },
     { oneStep with name := 2 ^ 256 },
     { oneStep with signature := 2 ^ 256 * 2 ^ 256 * 2 ^ 256 },
     { oneStep with steps := [⟨2 ^ 16, 0, 0, 0, [], 9, 0⟩] },
     { oneStep with pool := [⟨256, 0, 0, 0, 0, 0⟩] }].all (fun x => !x.wf) = true := by decide +kernel

/-- One ill-formed term for each check on a value of type SegImage; the value they are made from passes. -/
theorem test_wf_SegImage : oneSegment.wf = true ∧
    [{ oneSegment with magic := 2 ^ 32 },
     { oneSegment with format := 2 ^ 16 },
     { oneSegment with axis := 2 ^ 8 },
     { oneSegment with partition := 2 ^ 8 },
     { oneSegment with first := 2 ^ 16 },
     { oneSegment with count := 2 ^ 16 },
     { oneSegment with version := 2 ^ 32 },
     { oneSegment with keyId := 2 ^ 32 },
     { oneSegment with records := [⟨2 ^ 32, 0, 0⟩] }].all (fun x => !x.wf) = true := by decide +kernel

/-- One ill-formed term for each check on a value of type Envelope; the value they are made from passes. -/
theorem test_wf_Envelope : oneEnvelope.wf = true ∧
    [{ oneEnvelope with magic := 2 ^ 32 },
     { oneEnvelope with format := 2 ^ 16 },
     { oneEnvelope with env := 2 ^ 8 },
     { oneEnvelope with partition := 2 ^ 8 },
     { oneEnvelope with count := 2 ^ 32 },
     { oneEnvelope with version := 2 ^ 32 },
     { oneEnvelope with keyId := 2 ^ 32 },
     { oneEnvelope with points := [(2 ^ 64, 0, 0)] }].all (fun x => !x.wf) = true := by decide +kernel

/-- One ill-formed term for each check on a value of type BeamFrame; the value they are made from passes. -/
theorem test_wf_BeamFrame : ({ space := 1, kind := 4, index := 5, len := 4, ftype := 1, owner := 2, crcOk := true, payload := 7 } : BeamFrame).wf = true ∧
    [{ ({ space := 1, kind := 4, index := 5, len := 4, ftype := 1, owner := 2, crcOk := true, payload := 7 } : BeamFrame) with space := 2 ^ 4 },
     { ({ space := 1, kind := 4, index := 5, len := 4, ftype := 1, owner := 2, crcOk := true, payload := 7 } : BeamFrame) with kind := 2 ^ 4 },
     { ({ space := 1, kind := 4, index := 5, len := 4, ftype := 1, owner := 2, crcOk := true, payload := 7 } : BeamFrame) with index := 2 ^ 24 },
     { ({ space := 1, kind := 4, index := 5, len := 4, ftype := 1, owner := 2, crcOk := true, payload := 7 } : BeamFrame) with len := 2 ^ 16 },
     { ({ space := 1, kind := 4, index := 5, len := 4, ftype := 1, owner := 2, crcOk := true, payload := 7 } : BeamFrame) with ftype := 2 ^ 8 },
     { ({ space := 1, kind := 4, index := 5, len := 4, ftype := 1, owner := 2, crcOk := true, payload := 7 } : BeamFrame) with owner := 2 ^ 8 },
     { ({ space := 1, kind := 4, index := 5, len := 4, ftype := 1, owner := 2, crcOk := true, payload := 7 } : BeamFrame) with payload := 2 ^ 32 }].all (fun x => !x.wf) = true := by decide +kernel

/-- One ill-formed term for each check on a value of type DraftImg; the value they are made from passes. -/
theorem test_wf_DraftImg : emptyDraft.wf = true ∧
    [{ emptyDraft with magic := 2 ^ 32 },
     { emptyDraft with format := 2 ^ 16 },
     { emptyDraft with partition := 2 ^ 8 },
     { emptyDraft with slot := 2 ^ 8 },
     { emptyDraft with version := 2 ^ 32 },
     { emptyDraft with keyId := 2 ^ 32 },
     { emptyDraft with frames := [⟨16, 4, 5, 4, 1, 2, true, 7⟩] }].all (fun x => !x.wf) = true := by decide +kernel

/-- One ill-formed term for each check on a value of type TaskDesc; the value they are made from passes. -/
theorem test_wf_TaskDesc : plainTask.wf = true ∧
    [{ plainTask with entry := 2 ^ 32 },
     { plainTask with arg0 := 2 ^ 32 },
     { plainTask with arg1 := 2 ^ 32 },
     { plainTask with prio := 2 ^ 8 },
     { plainTask with flags := 2 ^ 8 },
     { plainTask with flow := 2 ^ 8 },
     { plainTask with dep := 2 ^ 8 },
     { plainTask with cq := 2 ^ 8 },
     { plainTask with retryMax := 2 ^ 8 },
     { plainTask with runMs := 2 ^ 16 },
     { plainTask with nsucc := 2 ^ 8 },
     { plainTask with tag := 2 ^ 32 },
     { plainTask with succ := List.replicate 9 0 },
     { plainTask with succ := [2 ^ 32] }].all (fun x => !x.wf) = true := by decide +kernel

/-- One ill-formed term for each check on a value of type QEntry; the value they are made from passes. -/
theorem test_wf_QEntry : oneEntry.wf = true ∧
    [{ oneEntry with type := 2 ^ 8 },
     { oneEntry with flags := 2 ^ 8 },
     { oneEntry with src := 2 ^ 16 },
     { oneEntry with w0 := 2 ^ 32 },
     { oneEntry with w1 := 2 ^ 32 },
     { oneEntry with w2 := 2 ^ 32 }].all (fun x => !x.wf) = true := by decide +kernel

/-- One ill-formed term for each check on a value of type Program; the value they are made from passes. -/
theorem test_wf_Program : oneProgram.wf = true ∧
    [{ oneProgram with partition := 2 ^ 16 },
     { oneProgram with version := 2 ^ 32 },
     { oneProgram with keyId := 2 ^ 32 },
     { oneProgram with tasks := List.replicate 9 ⟨1000, 0, 500, 0, 0, 0, 96, 128, 0, 0⟩ },
     { oneProgram with templates := List.replicate 65 plainTask },
     { oneProgram with templates := [{ plainTask with prio := 256 }] }].all (fun x => !x.wf) = true := by decide +kernel

/-- One ill-formed term for each check on a value of type StationDesc; the value they are made from passes. -/
theorem test_wf_StationDesc : (⟨1, 2, 0, 16, 24, 300, 300⟩ : StationDesc).wf = true ∧
    [{ (⟨1, 2, 0, 16, 24, 300, 300⟩ : StationDesc) with vendor := 2 ^ 16 },
     { (⟨1, 2, 0, 16, 24, 300, 300⟩ : StationDesc) with product := 2 ^ 16 },
     { (⟨1, 2, 0, 16, 24, 300, 300⟩ : StationDesc) with caps := 2 ^ 16 },
     { (⟨1, 2, 0, 16, 24, 300, 300⟩ : StationDesc) with outLen := 2 ^ 16 },
     { (⟨1, 2, 0, 16, 24, 300, 300⟩ : StationDesc) with inLen := 2 ^ 16 },
     { (⟨1, 2, 0, 16, 24, 300, 300⟩ : StationDesc) with fwdNs := 2 ^ 16 },
     { (⟨1, 2, 0, 16, 24, 300, 300⟩ : StationDesc) with revNs := 2 ^ 16 }].all (fun x => !x.wf) = true := by decide +kernel

/-- One ill-formed term for each check on a value of type RxFrame; the value they are made from passes. -/
theorem test_wf_RxFrame : goodFrame.wf = true ∧
    [{ goodFrame with hop := 2 ^ 8 },
     { goodFrame with cycle := 2 ^ 64 },
     { goodFrame with lease := 2 ^ 64 },
     { goodFrame with segs := List.replicate 129 ⟨0, 1, true, [5]⟩ },
     { goodFrame with segs := [⟨128, 1, true, [5]⟩] },
     { goodFrame with segs := [⟨0, 2 ^ 32, true, [5]⟩] }].all (fun x => !x.wf) = true := by decide +kernel

/-- One ill-formed term for each check on a value of type MatrixCont; the value they are made from passes. -/
theorem test_wf_MatrixCont : oneContainer.wf = true ∧
    [{ oneContainer with version := 2 ^ 32 },
     { oneContainer with keyId := 2 ^ 32 },
     { oneContainer with image := { oneMatrix with inputs := List.replicate 33 ⟨20, 1, 1⟩ } },
     { oneContainer with image := { oneMatrix with outputs := List.replicate 17 ⟨1, 0xFF, true, false, 500⟩ } }].all (fun x => !x.wf) = true := by decide +kernel

/-- One ill-formed term for each check on a value of type SafProg; the value they are made from passes. -/
theorem test_wf_SafProg : safProg.wf = true ∧
    [{ safProg with version := 2 ^ 32 },
     { safProg with keyId := 2 ^ 32 },
     { safProg with cycleUs := 2 ^ 32 },
     { safProg with conns := List.replicate 257 ⟨7, 0, 4, 0, 100, 2, false⟩ }].all (fun x => !x.wf) = true := by decide +kernel

/-- One ill-formed term for each check on a value of type AuthRec; the value they are made from passes. -/
theorem test_wf_AuthRec : (oneAuth 1 0 0 0).wf = true ∧
    [{ (oneAuth 1 0 0 0) with op := 2 ^ 8 },
     { (oneAuth 1 0 0 0) with target := 2 ^ 8 },
     { (oneAuth 1 0 0 0) with parts := 2 ^ 16 },
     { (oneAuth 1 0 0 0) with value := 2 ^ 32 },
     { (oneAuth 1 0 0 0) with keyId := 2 ^ 32 },
     { (oneAuth 1 0 0 0) with device := 2 ^ 64 },
     { (oneAuth 1 0 0 0) with key := List.replicate 161 0 }].all (fun x => !x.wf) = true := by decide +kernel

/-- One ill-formed term for each check on a value of type Delta; the value they are made from passes. -/
theorem test_wf_Delta : oneDelta.wf = true ∧
    [{ oneDelta with kind := 2 ^ 8 },
     { oneDelta with version := 2 ^ 32 },
     { oneDelta with keyId := 2 ^ 32 },
     { oneDelta with ops := [⟨256, 100, 0⟩] },
     { oneDelta with ops := [⟨2, 2 ^ 32, 0⟩] }].all (fun x => !x.wf) = true := by decide +kernel

/-- One ill-formed command for each check that stands on a command's own operands. -/
theorem test_wf_Instr :
    [Instr.registerWrite 5 .pcie 2 0 15, .loReadLatch 5 .pcie 2, .hiWriteCommit 5 .pcie 2 0, .rcRead 5 2, .configFieldWrite 5 2 0,
     .loadTable 5 2 { oneStep with tickNs := 2 ^ 32 } true, .loadSegments 5 2 { oneSegment with axis := 256 } true, .loadEnvelope 5 2 { oneEnvelope with env := 256 } true,
     .routeStall 5 2 8192, .configScan 5 [(2 ^ 32, true)], .quadrantReady 5 1 [(2 ^ 32, true)], .loadDraft 5 2 { emptyDraft with slot := 256 } true,
     .qpush 5 4 6 0 { oneEntry with type := 256 } true 0,
     .hqPush 5 2 6 [{ oneEntry with type := 256 }], .loadProgram 5 2 { oneProgram with keyId := 2 ^ 32 } true,
     .enumReturn 5 1 (List.replicate 129 ⟨1, 2, 0, 16, 24, 300, 300⟩), .enumReturn 5 1 [⟨2 ^ 16, 2, 0, 16, 24, 300, 300⟩], .delayReturn 5 1 false 0 0 (List.replicate 129 0),
     .receptionEnd 5 1 true { goodFrame with hop := 256 }, .safetyCycle 5 ⟨2 ^ 16, 0, [], []⟩, .safetyCycle 5 ⟨0, 3, [], []⟩,
     .weftFrame 5 0 ⟨true, 2 ^ 32, 0, true, false, []⟩, .weftFrame 5 0 ⟨true, 7, 2 ^ 16, true, false, []⟩, .weftFrame 5 0 ⟨true, 7, 0, true, false, List.replicate 17 0⟩,
     .programMatrix 5 { oneContainer with keyId := 2 ^ 32 } true true, .loadSafety 5 { safProg with keyId := 2 ^ 32 } true true,
     .status 5 goodContrail 0 0 0 [0, 0, 0, 0, 0], .authority 5 (oneAuth 256 0 0 0) true, .applyDelta 5 { oneDelta with kind := 256 },
     .debugOpen 5 false { oneResponse with level := 256 }, .debugOpen 5 false { oneResponse with durationS := 2 ^ 32 }, .debugOpen 5 false { oneResponse with keyId := 2 ^ 32 },
     .bar2Access 5 true 0 0 none, .bar2Access 5 true 0 2 (some [1]), .commandDatagram 5 0 0 0 [] [],
     .scrub 5 [⟨0, 2 ^ 40, false, []⟩]].all (fun c => !c.wf) = true := by decide +kernel

/-- Payloads that are too long. -/
theorem test_wf_long (bs : List Byte) (h : 0x4000000 < bs.length) :
    (Instr.mwrite 5 16 0 bs).wf = false ∧ (Instr.hostInput 5 2 0 bs).wf = false ∧ (Instr.commandDatagram 5 0 0 0 (List.replicate 64 0) bs).wf = false ∧
    ({ goodFrame with segs := [⟨0, 1, true, bs⟩] } : RxFrame).wf = false := by
  refine ⟨?_, ?_, ?_, ?_⟩ <;> simp [Instr.wf, RxFrame.wf, below] <;> omega

/-- A step table of too many steps, and one of too many actions. -/
theorem test_wf_longTable (ss : List StepRec) (ps : List PoolEntry) (hs : 4096 < ss.length) (hp : 32512 < ps.length) :
    ({ oneStep with steps := ss } : StepTable).wf = false ∧ ({ oneStep with pool := ps } : StepTable).wf = false := by
  refine ⟨?_, ?_⟩ <;> simp [StepTable.wf, below] <;> omega

/-! ### Single operations and steps of the manual's worked examples -/

/-- The state after a command; the state itself where it does not answer a next state. -/
def after (c : Instr) (s : State) : State := match exec c s with | .next u => u | _ => s

/-- 03, Notation: mulsh(3, −5, 1) = −8 and mulsh(3, 5, 1) = 8. -/
theorem test_mulsh : mulsh 3 (-5) 1 = -8 ∧ mulsh 3 5 1 = 8 := by decide +kernel

/-- 03 R84: a threshold of −19,088,743 has the code 2,030. -/
theorem test_codeOf : codeOf (-19088743) = 2030 := by decide +kernel

/-- The active bank of 03 Table 3.2. -/
def heaterBank : Bank :=
  ⟨⟨[(0, 1), (4, 0x03000008), (5, 32768), (6, 16384), (7, 655360), (8, 0xFFF60000), (9, 655360), (11, 0x7FFFFFFF), (14, 0x60000000), (20, 50000 * 65536)]⟩⟩

/-- LC260 of 03 Table 3.2 at its evaluation. -/
def heater : State :=
  ((up.putCell 260 { LoopCell.init with bankA := heaterBank, j := 1, lastMove := some (atNs 100000, false) }).wrs
    [(F.LC_PERIOD, 260, 100000), (F.LC_LATENCY, 260, 10000), (F.LC_C_STATE, 260, 655360000), (F.LC_STATUS_LEVEL, 260, 1), (F.WARP_STATUS_COARSE, 0, 0)]).advance (atNs 1200100000)

/-- The heater with its evaluation ready. -/
def heaterReady : State :=
  heater.putCell 260 { heater.cell 260 with eval := some { (heater.latch 260 22937600 0).evaluate 22885171 with ready := some (atNs 1200101000) } }

/-- 03 Table 3.2's evaluation: c = 9,795, level 2, u = 0x6000_0000, CS = 641,938,176. -/
theorem test_heater_evaluation :
    let e := (heater.latch 260 22937600 0).evaluate 22885171
    e.e = 52429 ∧ e.cs = 641938176 ∧ e.c = 9795 ∧ e.w = 32768 ∧ e.j = 2 ∧ e.u = 0x60000000 ∧ e.sats = 0 := by decide +kernel

/-- After its release LEVEL reads 2, C 0x2643, U 0x6000_0000 and the odometer is one more. -/
theorem test_heater_release :
    let u := after (.loopRelease (atNs 1200110000) 260 true) heaterReady
    u.rd F.LC_STATUS_LEVEL 260 = 2 ∧ u.rd F.LC_C 260 = 0x2643 ∧ u.rd F.LC_U 260 = 0x60000000 ∧ u.rd F.LC_ODO 260 = 1 := by decide +kernel

/-- 03 Table 3.6, step 5: bank B takes CS from its limit to 8,201,108 in units of c. -/
theorem test_swapped_bank :
    let b : Bank := ⟨⟨[(0, 6), (4, 0x02000005), (8, 0xFE000000), (9, 0x00800000), (11, 0x7FFFFFFF)]⟩⟩
    b.clampCs (16777216 * 2 ^ 16) = 549755813888 ∧
    (law { bank := b, sp := 1000000, spDot := 0, y := 0, cs := 549755813888, j := 0, lastMove := none, at_ := 0, event := false }).cs = 537467813888 ∧
    (law { bank := b, sp := 1000000, spDot := 0, y := 0, cs := 549755813888, j := 0, lastMove := none, at_ := 0, event := false }).c = 8201108 := by decide +kernel

/-- 06, the worked example of R153: p and v at 10,000,000 ns and 10,050,000 ns of the segment. -/
theorem test_segment :
    (⟨0, 20000000, 0, 0, 102400, 0, false⟩ : AxSeg).at16 (16 * 10000000) = (51200, 1966080) ∧
    (⟨0, 20000000, 0, 0, 102400, 0, false⟩ : AxSeg).at16 (16 * 10050000) = (51584, 1966029) := by decide +kernel

/-- 06 R156's example: ia, ib, da and db. -/
theorem test_coil_duty : coilDuty ⟨1500, 1200, 3000, 900, 24000, 32767⟩ 0 131072 = (1500, 0, 2458, 21759, 0) := by decide +kernel

/-- 02 R37: at 100 ppm a slew adds 109,951,163 to the rate, and −3,000 ns end after 30 ms of 1 ns edges. -/
theorem test_slew :
    let s := (up.wrs [(F.SLEW_CFG, 0, 100)]).putSlew (-3000 * 16 * 2 ^ 40)
    s.slewRate = -109951163 ∧ absorb s.warp.slewLeft s.slewShare 30000000 = 0 ∧ absorb s.warp.slewLeft s.slewShare 29999999 ≠ 0 := by decide +kernel

/-- 01 R14: a write that does not enable all four bytes is discarded with reason 2. -/
theorem test_partial_write :
    let u := after (.registerWrite 5 .pcie 0x100018 100 7) up
    u.rd F.SLEW_CFG = up.rd F.SLEW_CFG ∧ u.rd F.SYS_DISCARD_CNT = 1 ∧ u.rd F.SYS_DISCARD_REASON = 2 ∧ u.rd F.SYS_DISCARD_OFFSET = 0x100018 := by decide +kernel

/-- Nothing waits: a step is one edge of the Warp's clock and changes no register but the Warp's. -/
theorem test_idle_step : ∃ u, step up = .next u ∧ u.pending = [] ∧ u.rd F.HOST_STATUS_BOOTING = 0 := ⟨_, rfl, by decide +kernel, by decide +kernel⟩

end Sys2Proof.Machine
end

section
/-! PROOFS.  The block as a whole: what every command and every step keeps. -/

namespace Sys2Proof.Machine

open Sys2Proof

/-- Every touch lies within the touch of everything. -/
theorem Touch.within_all (t : Touch) : t.within Touch.all = true := by
  have hp : ∀ p : Part, Touch.all.hasPart p = true := fun p => by cases p <;> rfl
  simp [Touch.within, hp, show Touch.all.anyReg = true from rfl]

/-- Every command answers a next state and keeps what `Kept` names. -/
theorem exec_kept (c : Instr) {q : List Instr} {n : Nat} {s : State} (hs : Kept q n s) :
    ∃ u, exec c s = .next u ∧ Kept q n u :=
  exec_keeps c ((closed_kept q n).mono (Touch.within_all _)) hs

/-- An edge of the Warp's clock keeps what `Kept` names. -/
theorem warpEdge_kept {q : List Instr} {n : Nat} {s : State} (hs : Kept q n s) : Kept q n s.warpEdge :=
  keeps_warpEdge ((closed_kept q n).mono (Touch.within_all _)) hs

/-- With commands waiting a step executes the front one. -/
theorem step_of_pending_cons {s : State} {c : Instr} {q : List Instr} (h : s.pending = c :: q) :
    step s = exec c { s with pending := q } := by
  simp only [step, h]

/-- With none waiting a step is one edge of the Warp's clock. -/
theorem step_of_pending_nil {s : State} (h : s.pending = []) : step s = .next s.warpEdge := by
  simp only [step, h]

/-- Settles O5. -/
theorem aStepRunsTheFrontCommand : Obligations.AStepRunsTheFrontCommand :=
  ⟨fun _ _ _ => step_of_pending_cons, fun _ => step_of_pending_nil⟩

/-- Settles O7: the state that the front command starts from is `Kept` with the rest of the queue. -/
theorem everyStepKeepsTheCanonicalForm : Obligations.EveryStepKeepsTheCanonicalForm := by
  intro s hs
  cases hq : s.pending with
  | nil => exact ⟨_, step_of_pending_nil hq, warpEdge_kept ⟨hq, Nat.le_refl _, hs⟩⟩
  | cons c q =>
    rw [step_of_pending_cons hq]
    exact exec_kept c ⟨rfl, Nat.le_refl _, hs⟩

/-- A part outside the touch is as before. -/
theorem Frame.part {t : Touch} {s u : State} (h : Frame t s u) {p : Part} (hp : t.hasPart p = false) : p.same s u := h.2.1 p hp

/-- Every command leaves what its touch does not list. -/
theorem exec_frame (c : Instr) (s : State) : ∃ u, exec c s = .next u ∧ Frame (touches c) s u :=
  exec_keeps c (closed_frame (touches c) s) (Frame.refl _ s)

/-- Settles O8: the frame of `touches`, and a memory that is a part outside it reads the same at each address. -/
theorem everyCommandKeepsItsFrame : Obligations.EveryCommandKeepsItsFrame := by
  intro c s
  obtain ⟨u, hu, hf⟩ := exec_frame c s
  refine ⟨u, hu, hf, fun h a => ?_, fun h a => ?_, fun h a => ?_⟩
  · rw [show u.sram = s.sram from hf.part h]
  · rw [show u.dram = s.dram from hf.part h]
  · rw [show u.dlm = s.dlm from hf.part h]

end Sys2Proof.Machine
end

section
/-! PROOFS.  Registers by their offset: where the registers of a row lie, and the register that lies at a place of an array. -/

namespace Sys2Proof.Machine

open Sys2Proof

/-! ### Where the registers of a row lie -/

/-- The greatest distance of a register of a row from the first, by the strides and counts of the dimensions. -/
def extentOf (dims : List (Nat × Nat)) : Nat := (dims.map (fun d => d.1 * (d.2 - 1))).sum

theorem instanceAt_le_extentOf {dims : List (Nat × Nat)} {x i : Nat} (h : instanceAt dims x = some i) : x ≤ extentOf dims := by
  induction dims generalizing x i with
  | nil =>
    simp only [instanceAt] at h
    split at h
    · omega
    · cases h
  | cons d rest ih =>
    obtain ⟨stride, count⟩ := d
    simp only [instanceAt] at h
    split at h
    · rename_i j hj
      have hrest := ih hj
      have hfirst : min (x / stride) (count - 1) * stride ≤ stride * (count - 1) := by
        rw [Nat.mul_comm]
        exact Nat.mul_le_mul_left _ (Nat.min_le_right _ _)
      simp only [extentOf, List.map_cons, List.sum_cons] at hrest ⊢
      omega
    · cases h

theorem instanceAt_dvd {dims : List (Nat × Nat)} {x i g : Nat} (h : instanceAt dims x = some i) (hg : ∀ d ∈ dims, g ∣ d.1) : g ∣ x := by
  induction dims generalizing x i with
  | nil =>
    simp only [instanceAt] at h
    split at h
    · rename_i hx; exact hx ▸ Nat.dvd_zero g
    · cases h
  | cons d rest ih =>
    obtain ⟨stride, count⟩ := d
    simp only [instanceAt] at h
    split at h
    · rename_i j hj
      have hrest := ih hj (fun d hd => hg d (List.mem_cons_of_mem _ hd))
      have hfirst : g ∣ min (x / stride) (count - 1) * stride := (hg _ List.mem_cons_self).mul_left _
      have hle : min (x / stride) (count - 1) * stride ≤ x :=
        (Nat.mul_le_mul_right _ (Nat.min_le_left _ _)).trans (Nat.div_mul_le_self _ _)
      exact (Nat.dvd_sub_iff_left hle hfirst).mp hrest
    · cases h

/-- In one dimension the number counts the strides. -/
theorem instanceAt_singleton {stride count n : Nat} (hs : 0 < stride) (hn : n < count) :
    instanceAt [(stride, count)] (stride * n) = some n := by
  simp [instanceAt, Nat.mul_div_cancel_left n hs, Nat.min_eq_left (show n ≤ count - 1 by omega), Nat.mul_comm]

/-- Register number `i` of row `r` lies at offset `off`. -/
def RegRow.liesAt (r : RegRow) (off i : Nat) : Prop := r.addr ≤ off ∧ instanceAt r.dims (off - r.addr) = some i

theorem RegRow.liesAt.le {r : RegRow} {off i : Nat} (h : r.liesAt off i) : r.addr ≤ off ∧ off ≤ r.addr + extentOf r.dims := by
  have := instanceAt_le_extentOf h.2
  exact ⟨h.1, by omega⟩

/-- Where every stride is a multiple of `g`, the registers lie alike in steps of `g`. -/
theorem RegRow.liesAt.mod_eq {r : RegRow} {off i g : Nat} (h : r.liesAt off i) (hg : ∀ d ∈ r.dims, g ∣ d.1) : off % g = r.addr % g := by
  obtain ⟨hle, hi⟩ := h
  exact ((Nat.modEq_iff_dvd' hle).mpr (instanceAt_dvd hi hg)).symm

theorem findRow_some {off i : Nat} {r : RegRow} {l : List RegRow} (h : findRow off l = some (r, i)) : r ∈ l ∧ r.liesAt off i := by
  induction l with
  | nil => cases h
  | cons x rest ih =>
    have later : findRow off rest = some (r, i) → r ∈ x :: rest ∧ r.liesAt off i := fun h =>
      ⟨List.mem_cons_of_mem _ (ih h).1, (ih h).2⟩
    simp only [findRow] at h
    split at h
    · rename_i hle
      split at h
      · rename_i j hj
        cases h
        exact ⟨List.mem_cons_self, hle, hj⟩
      · exact later h
    · exact later h

theorem findRow_isSome {off i : Nat} {r : RegRow} {l : List RegRow} (hr : r ∈ l) (h : r.liesAt off i) : (findRow off l).isSome = true := by
  induction l with
  | nil => cases hr
  | cons x rest ih =>
    simp only [findRow]
    rcases List.mem_cons.mp hr with rfl | hr
    · simp [h.1, h.2]
    · split
      · split
        · rfl
        · exact ih hr
      · exact ih hr

/-- The register found at an offset is one of the map's, and lies there. -/
theorem findReg_some {off i : Nat} {r : RegRow} (h : findReg off = some (r, i)) : r ∈ regMap ∧ r.liesAt off i := findRow_some h

/-! ### Arrays of places -/

/-- The places of an array, by `instOf`. -/
theorem instOf_eq_some_iff {base stride count off n : Nat} (hs : 0 < stride) :
    instOf base stride count off = some n ↔ n < count ∧ off = base + stride * n := by
  unfold instOf
  split
  · rename_i h
    obtain ⟨h1, h2, h3⟩ := h
    have hoff : stride * ((off - base) / stride) = off - base := Nat.mul_div_cancel' (Nat.dvd_of_mod_eq_zero h3)
    have hlt : (off - base) / stride < count := Nat.div_lt_of_lt_mul (by omega)
    constructor
    · rintro h
      cases h
      exact ⟨hlt, by omega⟩
    · rintro ⟨hn, rfl⟩
      simp [Nat.mul_div_cancel_left n hs]
  · rename_i h
    constructor
    · rintro ⟨⟩
    · rintro ⟨hn, rfl⟩
      refine absurd ⟨Nat.le_add_right _ _, Nat.add_lt_add_left (Nat.mul_lt_mul_of_pos_left hn hs) _, ?_⟩ h
      simp

theorem instOf_place {base stride count n : Nat} (hs : 0 < stride) (hn : n < count) : instOf base stride count (base + stride * n) = some n :=
  (instOf_eq_some_iff hs).mpr ⟨hn, rfl⟩

/-- No register of row `r` lies in the array: the row ends before it or begins behind it, or lies otherwise in its stride. -/
def RegRow.avoids (r : RegRow) (base stride count : Nat) : Bool :=
  decide (r.addr + extentOf r.dims < base) || decide (base + stride * (count - 1) < r.addr) ||
    (r.dims.all (fun d => decide (stride ∣ d.1)) && decide (r.addr % stride ≠ base % stride))

theorem RegRow.instOf_eq_none_of_avoids {r : RegRow} {base stride count off i : Nat} (h : r.avoids base stride count = true) (hr : r.liesAt off i) :
    instOf base stride count off = none := by
  have hle := hr.le
  unfold instOf
  refine if_neg fun ⟨h1, h2, h3⟩ => ?_
  simp only [RegRow.avoids, Bool.or_eq_true, Bool.and_eq_true, decide_eq_true_eq, List.all_eq_true] at h
  have hlast : off - base ≤ stride * (count - 1) := by
    rw [← Nat.mul_div_cancel' (Nat.dvd_of_mod_eq_zero h3)]
    have : (off - base) / stride < count := Nat.div_lt_of_lt_mul (by omega)
    exact Nat.mul_le_mul_left _ (by omega)
  rcases h with (h | h) | ⟨hd, hm⟩
  · omega
  · omega
  · refine hm ?_
    rw [← hr.mod_eq hd]
    exact ((Nat.modEq_iff_dvd' h1).mpr (Nat.dvd_of_mod_eq_zero h3)).symm

/-- At each place of an array that one row fills and that the other rows avoid lies that row's register. -/
theorem findReg_place {base stride count n : Nat} {P : RegRow → Prop} (hs : 0 < stride) (hn : n < count)
    (hrow : ∃ r ∈ regMap, r.addr = base ∧ r.dims = [(stride, count)])
    (hall : ∀ r ∈ regMap, r.avoids base stride count = true ∨ (r.addr = base ∧ r.dims = [(stride, count)] ∧ P r)) :
    ∃ r, findReg (base + stride * n) = some (r, n) ∧ P r := by
  have liesAt_n : ∀ r : RegRow, r.addr = base → r.dims = [(stride, count)] → r.liesAt (base + stride * n) n := by
    intro r ha hd
    refine ⟨by omega, ?_⟩
    rw [hd, ha, Nat.add_sub_cancel_left]
    exact instanceAt_singleton hs hn
  obtain ⟨r₀, hr₀, ha₀, hd₀⟩ := hrow
  obtain ⟨⟨r, i⟩, hf⟩ := Option.isSome_iff_exists.mp (findRow_isSome hr₀ (liesAt_n r₀ ha₀ hd₀))
  obtain ⟨hr, hl⟩ := findReg_some hf
  rcases hall r hr with h | ⟨ha, hd, hp⟩
  · have := RegRow.instOf_eq_none_of_avoids h hl
    rw [instOf_place hs hn] at this
    cases this
  · have hi : i = n := Option.some.inj (hl.2.symm.trans (liesAt_n r ha hd).2)
    exact ⟨r, hi ▸ hf, hp⟩

end Sys2Proof.Machine
end

section
/-! PROOFS.  Register accesses: what the Warp's movement leaves of what an access reads, and one rule for each operation of an access. -/

namespace Sys2Proof.Machine

open Sys2Proof

/-! ### The Warp's movement -/

/-- The Warp's movement changes the Warp and the fields that show its slew. -/
theorem frame_advance (s : State) (t : Instant) : Frame Touched.advance s (s.advance t) :=
  keeps_advance (closed_frame _ s) (Frame.refl _ s) t

@[simp] theorem State.advance_latches (s : State) (t : Instant) : (s.advance t).latches = s.latches := (frame_advance s t).part (p := .latches) rfl
@[simp] theorem State.advance_staged (s : State) (t : Instant) : (s.advance t).staged = s.staged := (frame_advance s t).part (p := .staged) rfl
@[simp] theorem State.advance_loom (s : State) (t : Instant) : (s.advance t).loom = s.loom := (frame_advance s t).part (p := .loom) rfl
@[simp] theorem State.advance_sched (s : State) (t : Instant) : (s.advance t).sched = s.sched := (frame_advance s t).part (p := .sched) rfl
@[simp] theorem State.advance_host (s : State) (t : Instant) : (s.advance t).host = s.host := (frame_advance s t).part (p := .host) rfl

/-- A field beside those that show the slew reads the same after the Warp's movement. -/
theorem State.on_advance (s : State) (t : Instant) {f : Fld} (hf : Touched.advance.has f.id = false) (i : Nat) : (s.advance t).on f i = s.on f i := by
  simp only [State.on, rd_advance s t hf]

@[simp] theorem State.inStop_advance (s : State) (t : Instant) (p : Nat) : (s.advance t).inStop p = s.inStop p := by
  simp only [State.inStop, rd_advance s t (fld := F.CP_STATUS_STATE) (by decide)]

@[simp] theorem State.rwlOpen_advance (s : State) (t : Instant) (o : Option Nat) : (s.advance t).rwlOpen o = s.rwlOpen o := by
  cases o <;> simp only [State.rwlOpen, State.inStop_advance, show (s.advance t).inStop = s.inStop from funext (s.inStop_advance t)]

@[simp] theorem State.covered_advance (s : State) (t : Instant) (p : Nat) : (s.advance t).covered p = s.covered p := by
  simp only [State.covered, State.inPair, s.on_advance t (f := F.TD_CFG_EN) (by decide), rd_advance s t (fld := F.TD_PARTS) (by decide)]

@[simp] theorem State.recOf_advance (s : State) (t : Instant) (key : Nat) : (s.advance t).recOf key = s.recOf key := by
  simp only [State.recOf, State.advance_loom]

@[simp] theorem State.recsOf_advance (s : State) (t : Instant) (space kind : Nat) : (s.advance t).recsOf space kind = s.recsOf space kind := by
  simp only [State.recsOf, State.advance_loom]

@[simp] theorem State.owner_advance (s : State) (t : Instant) (key : Nat) : (s.advance t).owner key = s.owner key := by
  simp only [State.owner, State.recOf_advance]

@[simp] theorem State.regPartition_advance (s : State) (t : Instant) (off : Nat) : (s.advance t).regPartition off = s.regPartition off := by
  simp only [State.regPartition, State.owner_advance]

@[simp] theorem State.rwlOwner_advance (s : State) (t : Instant) (off : Nat) : (s.advance t).rwlOwner off = s.rwlOwner off := by
  simp only [State.rwlOwner, State.recsOf_advance, State.regPartition_advance, State.inputOf, State.cfg, State.recOf_advance]

@[simp] theorem State.waiting_advance (s : State) (t : Instant) (obj : Nat) : (s.advance t).waiting obj = s.waiting obj := by
  simp only [State.waiting, State.advance_host]

@[simp] theorem State.admits_advance (s : State) (t : Instant) (off : Nat) : (s.advance t).admits off = s.admits off := by
  simp only [State.admits, s.on_advance t (f := F.HOST_STATUS_BOOTING) (by decide), State.regPartition_advance, State.waiting_advance,
    show (s.advance t).covered = s.covered from funext (s.covered_advance t)]

@[simp] theorem State.mayWrite_advance (s : State) (t : Instant) (q : Requester) : (s.advance t).mayWrite q = s.mayWrite q := by
  cases q <;> simp only [State.mayWrite, s.on_advance t (f := F.SEC_STATUS_DEBUG_LEVEL) (by decide)]

@[simp] theorem State.mayReadReg_advance (s : State) (t : Instant) (q : Requester) (off : Nat) : (s.advance t).mayReadReg q off = s.mayReadReg q off := by
  cases q with
  | shuttle n =>
    simp only [State.mayReadReg, State.shuttleReads, State.runningOn, State.task, State.windowOk, State.shuttle, State.mayRead, State.exported,
      State.advance_sched, State.owner_advance, State.recsOf_advance, State.regPartition_advance,
      rd_advance s t (fld := F.SH_STATUS_STATE) (by decide), rd_advance s t (fld := F.SH_STATUS_SLOT) (by decide)]
  | debug => exact s.on_advance t (by decide) 0
  | _ => rfl

@[simp] theorem State.assignable_advance (s : State) (t : Instant) (a n : Nat) : (s.advance t).assignable a n = s.assignable a n := by
  simp only [State.assignable, rd_advance s t (fld := F.MEM_DRAM_USABLE) (by decide)]

@[simp] theorem State.badRange_advance (s : State) (t : Instant) (off v : Nat) : (s.advance t).badRange off v = s.badRange off v := by
  simp only [State.badRange, State.assignable_advance, rd_advance s t (fld := F.SKS_REGION_SIZE) (by decide), rd_advance s t (fld := F.SKS_REGION) (by decide),
    rd_advance s t (fld := F.CS_SLOT_CFG_SLOTS) (by decide), rd_advance s t (fld := F.CS_SLOT_CFG_SLOT_KIB) (by decide), rd_advance s t (fld := F.CS_REGION) (by decide),
    rd_advance s t (fld := F.ENV_COUNT) (by decide), rd_advance s t (fld := F.ENV_REGION) (by decide)]

@[simp] theorem State.ownRuleDiscards_advance (s : State) (t : Instant) (off v : Nat) : (s.advance t).ownRuleDiscards off v = s.ownRuleDiscards off v := by
  simp only [State.ownRuleDiscards, State.rwlOwner_advance, s.on_advance t (f := F.SKS_STATUS_RESIDENT) (by decide),
    rd_advance s t (fld := F.PS_QUOTA) (by decide)]

/-! ### Words of registers -/

/-- A register's word is the same where its fields are. -/
theorem State.regWord_congr {s u : State} {off : Nat} (h : ∀ r i, findReg off = some (r, i) → ∀ b ∈ r.fields, u.rd b.fld i = s.rd b.fld i) :
    u.regWord off = s.regWord off := by
  unfold State.regWord
  cases hf : findReg off with
  | none => rfl
  | some x =>
    obtain ⟨r, i⟩ := x
    exact List.foldl_ext _ _ _ fun v b hb => by rw [h r i hf b hb]

/-- A register whose fields do not show the slew: its word is the same after the Warp's movement. -/
theorem State.regWord_advance (s : State) (t : Instant) {off : Nat}
    (h : ∀ r i, findReg off = some (r, i) → ∀ b ∈ r.fields, Touched.advance.has b.fld.id = false) : (s.advance t).regWord off = s.regWord off :=
  State.regWord_congr fun r i hr b hb => rd_advance s t (h r i hr b hb) i

/-- The registers that show the slew stand alone, and no _HI word lies behind one. -/
theorem slewRegs_single : ∀ r ∈ regMap, (∃ b ∈ r.fields, Touched.advance.has b.fld.id = true) →
    r.dims = [] ∧ 0 < r.addr ∧ (findReg (r.addr + 4)).all (fun x => decide (x.1.half ≠ .high)) = true := by
  decide +kernel

/-- The word below a _HI word is the same after the Warp's movement. -/
theorem State.regWord_advance_low (s : State) (t : Instant) {off i : Nat} {r : RegRow} (hf : findReg off = some (r, i)) (hr : r.half = .high) :
    (s.advance t).regWord (off - 4) = s.regWord (off - 4) := by
  refine s.regWord_advance t fun q j hq b hb => ?_
  cases hb' : Touched.advance.has b.fld.id with
  | false => rfl
  | true =>
    obtain ⟨hq, hl⟩ := findReg_some hq
    obtain ⟨hd, hpos, hnext⟩ := slewRegs_single q hq ⟨b, hb, hb'⟩
    have hle := hl.le
    simp only [hd, extentOf, List.map_nil, List.sum_nil] at hle
    rw [show q.addr + 4 = off by omega, hf] at hnext
    simp [hr] at hnext

theorem State.wholeValue_advance (s : State) (t : Instant) (q : Requester) {off i : Nat} (hi : Nat) {r : RegRow} (hf : findReg off = some (r, i)) (hr : r.half = .high) :
    (s.advance t).wholeValue q off hi = s.wholeValue q off hi := by
  simp only [State.wholeValue, State.stagedHalf, State.advance_staged, s.regWord_advance_low t hf hr]

/-! ### Latches and staged halves (R15) -/

/-- Entries of other keys are found past a filter on one key. -/
theorem find?_filter_key_other {α β : Type} [BEq α] [LawfulBEq α] {k j : α} (h : j ≠ k) (l : List (α × β)) :
    (l.filter (fun e => !(e.1 == k))).find? (fun e => e.1 == j) = l.find? (fun e => e.1 == j) := by
  rw [List.find?_filter]
  congr 1
  funext e
  by_cases he : e.1 = j
  · simp [he, h]
  · simp [he]

/-- No entry of a key is found past the filter on it. -/
theorem find?_filter_key_same {α β : Type} [BEq α] [LawfulBEq α] (k : α) (l : List (α × β)) :
    (l.filter (fun e => !(e.1 == k))).find? (fun e => e.1 == k) = none := by
  simp

@[simp] theorem State.latchOf_putLatch_some (s : State) (q : Requester) (off v : Nat) : (s.putLatch q off (some v)).latchOf q off = some v := by
  simp only [State.putLatch, State.latchOf, List.find?_append, find?_filter_key_same]
  simp

@[simp] theorem State.latchOf_putLatch_none (s : State) (q : Requester) (off : Nat) : (s.putLatch q off none).latchOf q off = none := by
  simp only [State.putLatch, State.latchOf, find?_filter_key_same, Option.map_none]

theorem State.latchOf_putLatch_other (s : State) {q r : Requester} {off a : Nat} (h : (q, a) ≠ (r, off)) (v : Option Nat) :
    (s.putLatch r off v).latchOf q a = s.latchOf q a := by
  cases v with
  | none => simp only [State.putLatch, State.latchOf, find?_filter_key_other h]
  | some v =>
    have hne : ((r, off) == (q, a)) = false := beq_false_of_ne h.symm
    simp only [State.putLatch, State.latchOf, List.find?_append, find?_filter_key_other h]
    simp [hne]

theorem State.latchOf_congr {s u : State} (h : u.latches = s.latches) (q : Requester) (a : Nat) : u.latchOf q a = s.latchOf q a := by
  simp only [State.latchOf, h]

@[simp] theorem State.stagedHalf_stageLow_same (s : State) (q : Requester) (off v : Nat) : (s.stageLow q off v).stagedHalf q off = some v := by
  simp only [State.stageLow, State.stagedHalf, List.find?_append, find?_filter_key_same]
  simp

theorem State.stagedHalf_stageLow_other (s : State) {q r : Requester} {off a : Nat} (h : (q, a) ≠ (r, off)) (v : Nat) :
    (s.stageLow r off v).stagedHalf q a = s.stagedHalf q a := by
  have hne : ((r, off) == (q, a)) = false := beq_false_of_ne h.symm
  simp only [State.stageLow, State.stagedHalf, List.find?_append, find?_filter_key_other h]
  simp [hne]

theorem State.stagedHalf_congr {s u : State} (h : u.staged = s.staged) (q : Requester) (a : Nat) : u.stagedHalf q a = s.stagedHalf q a := by
  simp only [State.stagedHalf, h]

/-! ### Writes -/

/-- A write that is admitted takes effect. -/
theorem State.plainWrite_of_admits {s : State} {off : Nat} (h : s.admits off = true) (f : State → State) : s.plainWrite off f = f s := by
  simp only [State.admits, Bool.and_eq_true, Bool.or_eq_true, Bool.not_eq_true'] at h
  obtain ⟨⟨hb, hc⟩, -⟩ := h
  have hb' : (s.on F.HOST_STATUS_BOOTING && !bootOpen off) = false := by rcases hb with h | h <;> simp [h]
  simp [State.plainWrite, State.coveredGate, hb', hc]

/-- A write of a block that takes writes during the boot, of a register that no partition owns, takes effect. -/
theorem State.plainWrite_of_bootOpen {s : State} {off : Nat} (hb : bootOpen off = true) (hp : s.regPartition off = none) (f : State → State) :
    s.plainWrite off f = f s := by
  simp [State.plainWrite, State.coveredGate, hb, hp]

/-- A write either takes effect or changes no more than `Touched.plainWrite`. -/
theorem State.plainWrite_cases (s : State) (off : Nat) (f : State → State) :
    s.plainWrite off f = f s ∨ Frame Touched.plainWrite s (s.plainWrite off f) := by
  have hc : Closed (Frame Touched.plainWrite s) Touched.plainWrite := closed_frame _ s
  have hs : Holds (Frame Touched.plainWrite s) s := Frame.refl _ s
  simp only [State.plainWrite]
  split
  · exact .inr (keeps_discard (hc.mono (by decide +kernel)) hs _ _)
  · simp only [State.coveredGate]
    split
    · split
      · exact .inr (keeps_tdEvent (hc.mono (by decide +kernel)) hs _)
      · split
        · exact .inr (keeps_sendFrame (hc.mono (by decide +kernel)) (keeps_onTandem (hc.mono (by decide +kernel)) hs _) _ _)
        · exact .inl rfl
    · exact .inl rfl

end Sys2Proof.Machine
end

section
/-! PROOFS.  Fields of a register written by their access types (Table 0.4), and what a write of the register does to them. -/

namespace Sys2Proof.Machine

open Sys2Proof

/-! ### Bits -/

/-- A power of two that stands in a number taken away clears its bit alone. -/
theorem testBit_sub_two_pow {x k : Nat} (h : x.testBit k = true) (j : Nat) : (x - 2 ^ k).testBit j = (x.testBit j && decide (j ≠ k)) := by
  induction k generalizing x j with
  | zero =>
    have hx : x % 2 = 1 := by simpa using h
    cases j with
    | zero => simp; omega
    | succ j => rw [Nat.testBit_succ, Nat.testBit_succ, show (x - 2 ^ 0) / 2 = x / 2 by omega]; simp
  | succ k ih =>
    rw [Nat.testBit_succ] at h
    have hk : 2 ^ k ≤ x / 2 := Nat.ge_two_pow_of_testBit h
    cases j with
    | zero => simp only [Nat.testBit_zero, Nat.pow_succ]; simp; omega
    | succ j => rw [Nat.testBit_succ, Nat.testBit_succ, show (x - 2 ^ (k + 1)) / 2 = x / 2 - 2 ^ k by rw [Nat.pow_succ]; omega, ih h]; simp

theorem bitOf_putBit_false (x k j : Nat) : bitOf (putBit x k false) j = (bitOf x j && decide (j ≠ k)) := by
  simp only [bitOf, putBit, Bool.false_eq_true, if_false]
  split
  · rename_i h; exact testBit_sub_two_pow h j
  · rename_i h
    by_cases hj : j = k
    · subst hj; simpa using h
    · simp [hj]

/-- The bits of a W1C field that a word writes with 1 are cleared. -/
theorem bitOf_foldl_w1c (v lo at_ : Nat) (l : List Nat) (x j : Nat) :
    bitOf (l.foldl (fun x k => if bitOf v (lo + k) then putBit x (at_ + k) false else x) x) j =
      (bitOf x j && !l.any (fun k => bitOf v (lo + k) && decide (j = at_ + k))) := by
  induction l generalizing x with
  | nil => simp
  | cons k l ih =>
    rw [List.foldl_cons, ih]
    cases hk : bitOf v (lo + k) with
    | false => simp [hk]
    | true =>
      simp only [if_true, bitOf_putBit_false]
      by_cases hj : j = at_ + k <;> simp [hj, hk]

/-- The bits of a field's place replaced: what stands in the place is what was put there. -/
theorem replaced_bits (old x a w n : Nat) (hx : x < 2 ^ w) (hn : a + w ≤ n) :
    (old - old / 2 ^ a % 2 ^ w * 2 ^ a + x * 2 ^ a) % 2 ^ n / 2 ^ a % 2 ^ w = x := by
  obtain ⟨m, rfl⟩ := Nat.exists_eq_add_of_le hn
  have hold : old = old / 2 ^ a / 2 ^ w * 2 ^ w * 2 ^ a + old / 2 ^ a % 2 ^ w * 2 ^ a + old % 2 ^ a := by
    rw [← Nat.add_mul, Nat.div_add_mod', Nat.div_add_mod']
  have hcut : old - old / 2 ^ a % 2 ^ w * 2 ^ a = old / 2 ^ a / 2 ^ w * 2 ^ w * 2 ^ a + old % 2 ^ a := by omega
  have hnew : old - old / 2 ^ a % 2 ^ w * 2 ^ a + x * 2 ^ a = old % 2 ^ a + 2 ^ a * (old / 2 ^ a / 2 ^ w * 2 ^ w + x) := by
    rw [hcut]
    ring
  rw [hnew, Nat.pow_add, Nat.pow_add, Nat.mul_assoc, Nat.mod_mul_right_div_self, Nat.add_mul_div_left _ _ (Nat.two_pow_pos a),
    Nat.div_eq_of_lt (Nat.mod_lt _ (Nat.two_pow_pos a)), Nat.zero_add, Nat.mod_mul_right_mod, Nat.mul_comm, Nat.mul_add_mod, Nat.mod_eq_of_lt hx]

/-! ### One field -/

/-- The part of an RW field that a register shows, read after the write. -/
theorem State.rd_wrPart (s : State) {b : FieldBits} (h : b.from_ + b.width ≤ b.fld.width) (i v : Nat) :
    (s.wrPart b i v).rd b.fld i / 2 ^ b.from_ % 2 ^ b.width = v / 2 ^ b.lo % 2 ^ b.width := by
  rw [State.wrPart, State.rd_wr_same]
  exact replaced_bits _ _ _ _ _ (Nat.mod_lt _ (Nat.two_pow_pos _)) h

/-- A field that a register shows whole. -/
theorem State.rd_wrPart_whole (s : State) {b : FieldBits} (h0 : b.from_ = 0) (hw : b.width = b.fld.width) (i v : Nat) :
    (s.wrPart b i v).rd b.fld i = v / 2 ^ b.lo % 2 ^ b.width := by
  have h := s.rd_wrPart (b := b) (by omega) i v
  rw [h0, Nat.pow_zero, Nat.div_one] at h
  rw [← h, State.wrPart, State.rd_wr_same, hw, Nat.mod_mod]

/-- A field's write leaves every other field. -/
theorem State.rd_writeField_other (s : State) (b : FieldBits) (i v : Nat) (rwl : Bool) {f : Fld} (h : f.id ≠ b.fld.id) (j : Nat) :
    (s.writeField b i v rwl).rd f j = s.rd f j := by
  have hw : ∀ x, (s.wr b.fld x i).rd f j = s.rd f j := fun x => State.rd_wr_field s (by simpa using h) _ _ _
  unfold State.writeField State.wrPart
  cases b.access with
  | rw | w1c | w1s => exact hw _
  | rwl => cases rwl with
    | true => exact hw _
    | false => rfl
  | ro | wo | rc => rfl

/-- What a field's write makes of the field depends on the field alone. -/
theorem State.rd_writeField_congr {s u : State} {b : FieldBits} {i : Nat} (h : u.rd b.fld i = s.rd b.fld i) (v : Nat) (rwl : Bool) :
    (u.writeField b i v rwl).rd b.fld i = (s.writeField b i v rwl).rd b.fld i := by
  unfold State.writeField State.wrPart
  cases b.access with
  | rw | w1c | w1s => simp only [State.rd_wr_same, h]
  | rwl => cases rwl with
    | true => simp only [if_true, State.rd_wr_same, h]
    | false => simpa using h
  | ro | wo | rc => exact h

/-- A closed RWL field is not written. -/
theorem State.writeField_closed (s : State) {b : FieldBits} (h : b.access = .rwl) (i v : Nat) : s.writeField b i v false = s := by
  simp [State.writeField, h]

/-! ### The fields of a register -/

/-- Fields of a register written one after another with the register's word. -/
def State.writeFields (s : State) (l : List FieldBits) (i v : Nat) (rwl : Bool) : State := l.foldl (fun s b => s.writeField b i v rwl) s

/-- A field that is not among them keeps its value. -/
theorem State.rd_writeFields_other (s : State) (l : List FieldBits) (i v : Nat) (rwl : Bool) {f : Fld} (h : ∀ b ∈ l, f.id ≠ b.fld.id) (j : Nat) :
    (s.writeFields l i v rwl).rd f j = s.rd f j := by
  induction l generalizing s with
  | nil => rfl
  | cons b l ih =>
    exact (ih (s.writeField b i v rwl) (fun c hc => h c (List.mem_cons_of_mem _ hc))).trans (s.rd_writeField_other b i v rwl (h b List.mem_cons_self) j)

/-- Where the fields are distinct, each is written as if it were alone. -/
theorem State.rd_writeFields_mem (s : State) {l : List FieldBits} (i v : Nat) (rwl : Bool) (hd : (l.map (·.fld.id)).Nodup) {b : FieldBits} (hb : b ∈ l) :
    (s.writeFields l i v rwl).rd b.fld i = (s.writeField b i v rwl).rd b.fld i := by
  induction l generalizing s with
  | nil => cases hb
  | cons c l ih =>
    obtain ⟨hc, hl⟩ := List.nodup_cons.mp hd
    have hne : ∀ x ∈ l, c.fld.id ≠ x.fld.id := fun x hx he => hc (List.mem_map.mpr ⟨x, hx, he.symm⟩)
    rcases List.mem_cons.mp hb with rfl | hb
    · exact State.rd_writeFields_other (s.writeField b i v rwl) l i v rwl hne i
    · exact (ih (s.writeField c i v rwl) hl hb).trans (State.rd_writeField_congr (s.rd_writeField_other c i v rwl (hne b hb).symm i) v rwl)

/-! ### The register -/

/-- A register that takes no write discards it. -/
theorem State.writeWord_readOnly (s : State) (off v : Nat) {r : RegRow} (h : r.has [.rw, .rwl, .w1c, .w1s, .wo] = false) (i : Nat) :
    s.writeWord off v r i = s.discard 1 off := by
  simp [State.writeWord, h]

/-- A write that no rule of the register discards: the fields are written; where the write would change RWL fields that are
closed, or finds no other field to write, it is reported (reason 3). -/
theorem State.writeWord_taken (s : State) {off v i : Nat} {r : RegRow} (h : r.has [.rw, .rwl, .w1c, .w1s, .wo] = true) (hb : s.badRange off v = false)
    (ho : s.ownRuleDiscards off v = false) :
    s.writeWord off v r i =
      if !s.rwlOpen (s.rwlOwner off) && r.has [.rwl] && (s.rwlChanges r i v || !r.has [.rw, .w1c, .w1s, .wo])
      then (s.writeFields r.fields i v (s.rwlOpen (s.rwlOwner off))).discard 3 off
      else (s.writeFields r.fields i v (s.rwlOpen (s.rwlOwner off))).afterWrite off := by
  simp only [State.writeWord, h, hb, ho]
  rfl

/-- With its RWL fields open, or with none, the register takes the whole word. -/
theorem State.writeWord_open (s : State) {off v i : Nat} {r : RegRow} (h : r.has [.rw, .rwl, .w1c, .w1s, .wo] = true) (hb : s.badRange off v = false)
    (ho : s.ownRuleDiscards off v = false) (hl : s.rwlOpen (s.rwlOwner off) = true ∨ r.has [.rwl] = false) :
    s.writeWord off v r i = (s.writeFields r.fields i v (s.rwlOpen (s.rwlOwner off))).afterWrite off := by
  rw [s.writeWord_taken h hb ho, if_neg]
  rcases hl with hl | hl <;> simp [hl]

/-- With its RWL fields closed a register keeps them, and a write that would change one is reported (reason 3). -/
theorem State.writeWord_closed (s : State) {off v i : Nat} {r : RegRow} (hr : r.has [.rwl] = true) (hb : s.badRange off v = false)
    (ho : s.ownRuleDiscards off v = false) (hl : s.rwlOpen (s.rwlOwner off) = false)
    (hc : s.rwlChanges r i v = true ∨ r.has [.rw, .w1c, .w1s, .wo] = false) :
    s.writeWord off v r i = (s.writeFields r.fields i v false).discard 3 off := by
  have h : r.has [.rw, .rwl, .w1c, .w1s, .wo] = true := by
    simp only [RegRow.has, List.any_eq_true, List.contains_eq_mem, decide_eq_true_eq] at hr ⊢
    obtain ⟨b, hb, hm⟩ := hr
    exact ⟨b, hb, by simp at hm; simp [hm]⟩
  rw [s.writeWord_taken h hb ho, if_pos, hl]
  rcases hc with hc | hc <;> simp [hl, hr, hc]

/-- A field that neither the write's report nor what follows the write touches reads as the fields' write leaves it. -/
theorem State.rd_writeWord (s : State) {off v i : Nat} {r : RegRow} (h : r.has [.rw, .rwl, .w1c, .w1s, .wo] = true) (hb : s.badRange off v = false)
    (ho : s.ownRuleDiscards off v = false) {f : Fld} (ha : Touched.afterWrite.has f.id = false) (hd : Touched.discard.has f.id = false) (j : Nat) :
    (s.writeWord off v r i).rd f j = (s.writeFields r.fields i v (s.rwlOpen (s.rwlOwner off))).rd f j := by
  rw [s.writeWord_taken h hb ho]
  split
  · exact rd_discard _ _ _ hd j
  · exact rd_afterWrite _ _ ha j

end Sys2Proof.Machine
end

section
/-! PROOFS.  A 64-bit register is read and written as a whole (R15). -/

namespace Sys2Proof.Machine

open Sys2Proof

/-! ### What a read shows -/

/-- The registers of the row and the words behind them lie outside `[lo, hi)`. -/
def RegRow.outside (r : RegRow) (lo hi : Nat) : Bool := decide (r.addr + extentOf r.dims + 4 < lo) || decide (hi ≤ r.addr)

/-- No register of the row, and no word behind one, is read by way of a view: not in a loop cell's bank window or snapshot
(03 R68, R78), not in an axis's (06 R146). -/
def RegRow.unviewed (r : RegRow) : Bool :=
  let k := r.addr % 0x100
  let aligned := r.dims.all (fun d => decide (0x100 ∣ d.1))
  (r.outside 0x200000 0x240000 || (aligned && (decide (0x4C ≤ k ∧ k + 4 < 0x88) || decide (0x90 ≤ k ∧ k + 4 < 0xA0)))) &&
    (r.outside 0x400000 0x408000 || (aligned && decide (0x94 ≤ k ∧ k + 4 < 0x100)))

theorem shownWord_of_unviewed (s : State) {r : RegRow} {off i d : Nat} (h : r.unviewed = true) (hl : r.liesAt off i) (hd : d = 0 ∨ d = 4) :
    s.shownWord (off + d) = s.regWord (off + d) := by
  have hle := hl.le
  have hmod : r.dims.all (fun d => decide (0x100 ∣ d.1)) = true → off % 0x100 = r.addr % 0x100 := fun ha =>
    hl.mod_eq (by simpa using ha)
  simp only [RegRow.unviewed, RegRow.outside, Bool.and_eq_true, Bool.or_eq_true, decide_eq_true_eq] at h
  obtain ⟨hc, hx⟩ := h
  have hcell : (off + d) / 0x40000 = 8 → (0x4C ≤ (off + d) % 0x100 ∧ (off + d) % 0x100 < 0x88) ∨ (0x90 ≤ (off + d) % 0x100 ∧ (off + d) % 0x100 < 0xA0) := by
    intro h8
    rcases hc with hc | ⟨ha, hk⟩
    · omega
    · have := hmod ha
      omega
  have haxis : (off + d) / 0x8000 = 0x80 → 0x94 ≤ (off + d) % 0x100 := by
    intro h8
    rcases hx with hx | ⟨ha, hk⟩
    · omega
    · have := hmod ha
      omega
  have hbank : inBankWindow (off + d) = false := by
    simp only [inBankWindow, Bool.and_eq_false_iff, beq_eq_false_iff_ne, decide_eq_false_iff_not]
    omega
  simp only [State.shownWord, hbank, Bool.false_eq_true, if_false]
  split
  · rename_i h8
    rw [if_neg (by omega), if_neg (by omega)]
  · rw [if_neg (by omega)]

/-- Beside PV_STATE's registers a read answers what any requester reads. -/
theorem viewWord_of_outside (s : State) (q : Requester) {off : Nat} (h : ¬(0xF01000 ≤ off ∧ off < 0xF01200)) : s.viewWord q off = s.shownWord off := by
  simp [State.viewWord, h]

/-- A _LO word that is not PV_T's lies outside every view. -/
theorem lowRows_unviewed : ∀ r ∈ regMap, r.half = .low → r.unviewed = true ∧
    (r.outside 0xF01000 0xF01200 = true ∨ (r.addr = 0xF01008 ∧ r.dims = [(0x20, 16)])) := by
  decide +kernel

/-- A _LO word other than PV_T's, and its _HI word, are read as the register holds them. -/
theorem viewWord_low (s : State) (q : Requester) {off i d : Nat} {r : RegRow} (hf : findReg off = some (r, i)) (hr : r.half = .low)
    (hv : instOf 0xF01008 0x20 16 off = none) (hd : d = 0 ∨ d = 4) : s.viewWord q (off + d) = s.regWord (off + d) := by
  obtain ⟨hm, hl⟩ := findReg_some hf
  obtain ⟨hu, hp⟩ := lowRows_unviewed r hm hr
  have hle := hl.le
  rw [viewWord_of_outside, shownWord_of_unviewed s hu hl hd]
  rcases hp with hp | ⟨ha, hdims⟩
  · simp only [RegRow.outside, Bool.or_eq_true, decide_eq_true_eq] at hp
    omega
  · have hmod := hl.mod_eq (g := 0x20) (by simp [hdims])
    simp only [instOf, ite_eq_right_iff, reduceCtorEq, imp_false] at hv
    simp only [hdims, extentOf, List.map_cons, List.map_nil, List.sum_cons, List.sum_nil] at hle
    omega

/-! ### Reads -/

theorem execLoReadLatch_low {t : Instant} {q : Requester} {off : Fin 268435456} {r : RegRow} {i : Nat} {s : State} (hf : findReg off = some (r, i))
    (hr : r.half = .low) (hw : inSramWindow off = false) (hm : s.mayReadReg q off = true) (hb : s.rd F.HOST_STATUS_BOOTING = 0) :
    execLoReadLatch t q off s = .next ((((s.advance t).refreshReg off).putLatch q off (some (((s.advance t).refreshReg off).viewWord q (off + 4)))).answerWord
      (((s.advance t).refreshReg off).viewWord q off)) := by
  have hb' : (s.advance t).on F.HOST_STATUS_BOOTING = false := by rw [s.on_advance t (by decide)]; simp [State.on, hb]
  simp [execLoReadLatch, hm, hb', hw, hf, hr]

theorem execLoReadLatch_high {t : Instant} {q : Requester} {off : Fin 268435456} {r : RegRow} {i : Nat} {s : State} (hf : findReg off = some (r, i))
    (hr : r.half = .high) (hw : inSramWindow off = false) (hm : s.mayReadReg q off = true) (hb : s.rd F.HOST_STATUS_BOOTING = 0) :
    execLoReadLatch t q off s = .next (((s.advance t).putLatch q (off - 4) none).answerWord
      ((s.latchOf q (off - 4)).getD (((s.advance t).refreshReg (off - 4)).regWord off))) := by
  have hb' : (s.advance t).on F.HOST_STATUS_BOOTING = false := by rw [s.on_advance t (by decide)]; simp [State.on, hb]
  simp [execLoReadLatch, hm, hb', hw, hf, hr, State.latchOf_congr (s.advance_latches t)]

theorem State.latchOf_answerWord (s : State) (v : Nat) (q : Requester) (a : Nat) : (s.answerWord v).latchOf q a = s.latchOf q a := rfl

theorem latches_refuseRead (s : State) (q : Requester) (off : Nat) : (s.refuseRead q off).latches = s.latches :=
  Frame.part (p := .latches) (keeps_refuseRead (closed_frame Touched.refuseRead s) (Frame.refl _ s) q off) rfl

theorem latches_windowRead (s : State) (q : Requester) (off : Nat) : (s.windowRead q off).latches = s.latches :=
  Frame.part (p := .latches) (keeps_windowRead (closed_frame Touched.windowRead s) (Frame.refl _ s) q off) rfl

theorem latches_refreshReg (s : State) (off : Nat) : (s.refreshReg off).latches = s.latches :=
  Frame.part (p := .latches) (keeps_refreshReg (closed_frame Touched.refreshReg s) (Frame.refl _ s) off) rfl

theorem staged_refreshReg (s : State) (off : Nat) : (s.refreshReg off).staged = s.staged :=
  Frame.part (p := .staged) (keeps_refreshReg (closed_frame Touched.refreshReg s) (Frame.refl _ s) off) rfl

theorem latches_latchView (s : State) (off : Nat) : (s.latchView off).latches = s.latches :=
  Frame.part (p := .latches) (keeps_latchView (closed_frame Touched.latchView s) (Frame.refl _ s) off) rfl

theorem latches_latchPv (s : State) (q : Requester) (p : Nat) : (s.latchPv q p).latches = s.latches :=
  Frame.part (p := .latches) (keeps_latchPv (closed_frame Touched.latchPv s) (Frame.refl _ s) q p) rfl

/-- A read changes no latch but the reader's, of the register that it reads. -/
theorem latchOf_execLoReadLatch_other {t : Instant} {r q : Requester} {off : Fin 268435456} {a : Nat} {s u : State} (hlo : (q, a) ≠ (r, off.val))
    (hhi : (q, a) ≠ (r, off.val - 4)) (hu : execLoReadLatch t r off s = .next u) : u.latchOf q a = s.latchOf q a := by
  simp only [execLoReadLatch, Host.Outcome.next.injEq] at hu
  have hadv : (s.advance t).latchOf q a = s.latchOf q a := State.latchOf_congr (s.advance_latches t) q a
  rw [← hadv, ← hu]
  split
  · exact State.latchOf_congr (latches_refuseRead _ r off) q a
  · split
    · exact State.latchOf_answerWord _ _ q a
    · split
      · exact State.latchOf_congr (latches_windowRead _ r off) q a
      · split
        · exact State.latchOf_answerWord _ _ q a
        · split
          case h_1 => rw [State.latchOf_answerWord, State.latchOf_putLatch_other _ hlo, State.latchOf_congr (latches_refreshReg _ off)]
          case h_2 => rw [State.latchOf_answerWord, State.latchOf_putLatch_other _ hhi]
          case h_3 =>
            split
            · exact State.latchOf_congr (latches_latchPv _ r _) q a
            · rw [State.latchOf_answerWord, State.latchOf_congr (latches_latchView _ off)]

/-! ### Writes -/

/-- A full-word write outside the SRAM window, by a requester that may write. -/
theorem execRegisterWrite_word {t : Instant} {q : Requester} {off : Fin 268435456} {value : Word} {s : State} (hm : s.mayWrite q = true)
    (ha : off.val % 4 = 0) (hw : inSramWindow off = false) :
    execRegisterWrite t q off value 15 s = .next ((s.advance t).writeReg t q off value) := by
  simp [execRegisterWrite, hm, ha, hw]

/-- A write by a requester that may not write. -/
theorem execRegisterWrite_denied {t : Instant} {q : Requester} {off : Fin 268435456} {value : Word} {be : Fin 16} {s : State} (hm : s.mayWrite q = false) :
    execRegisterWrite t q off value be s = .next (s.advance t) := by
  simp [execRegisterWrite, hm]

/-- A write of a _LO word that has no rows of its own. -/
theorem State.writeReg_low {s : State} {t : Instant} {q : Requester} {off : Nat} {value : Word} {r : RegRow} {i : Nat} (hrows : (s.rowsAt t off value).isNone = true)
    (hf : findReg off = some (r, i)) (hr : r.half = .low) :
    s.writeReg t q off value =
      if r.has [.rw, .rwl] then s.plainWrite off (fun u => u.stageLow q off value.toNat) else s.discard 1 off := by
  simp only [State.writeReg, Option.isNone_iff_eq_none.mp hrows, hf, hr]

/-- A write of a _HI word that has no rows of its own. -/
theorem State.writeReg_high {s : State} {t : Instant} {q : Requester} {off : Nat} {value : Word} {r : RegRow} {i : Nat} (hrows : (s.rowsAt t off value).isNone = true)
    (hf : findReg off = some (r, i)) (hr : r.half = .high) : s.writeReg t q off value = s.commitHigh t q off value.toNat r i := by
  simp only [State.writeReg, Option.isNone_iff_eq_none.mp hrows, hf, hr]

/-- A write of a word register that has no rows of its own and that no edit reaches. -/
theorem State.writeReg_word {s : State} {t : Instant} {q : Requester} {off : Nat} {value : Word} {r : RegRow} {i : Nat} (hrows : (s.rowsAt t off value).isNone = true)
    (hf : findReg off = some (r, i)) (hr : r.half = .word) (he : editMask r = 0) :
    s.writeReg t q off value = s.plainWrite off (fun u => u.writeWord off value.toNat r i) := by
  simp [State.writeReg, Option.isNone_iff_eq_none.mp hrows, hf, hr, he]

/-- A write of a _LO word stages it, or leaves every staged half. -/
theorem stagedHalf_writeReg_low_other {s : State} {t : Instant} {r q : Requester} {off a : Nat} {value : Word} {row : RegRow} {i : Nat}
    (hrows : (s.rowsAt t off value).isNone = true) (hf : findReg off = some (row, i)) (hr : row.half = .low) (hne : (q, a) ≠ (r, off)) :
    (s.writeReg t r off value).stagedHalf q a = s.stagedHalf q a := by
  rw [State.writeReg_low hrows hf hr]
  split
  · rcases s.plainWrite_cases off (fun u => u.stageLow r off value.toNat) with h | h
    · rw [h]
      exact s.stagedHalf_stageLow_other hne _
    · exact State.stagedHalf_congr (h.part (p := .staged) rfl) q a
  · rfl

theorem execHiWriteCommit_high {t : Instant} {q : Requester} {off : Fin 268435456} {value : Word} {r : RegRow} {i : Nat} {s : State} (hf : findReg off = some (r, i))
    (hr : r.half = .high) (hm : s.mayWrite q = true) :
    execHiWriteCommit t q off value s = .next ((s.advance t).commitHigh t q off value.toNat r i) := by
  simp [execHiWriteCommit, hf, hr, hm]

/-- The register that a _HI word belongs to, its fields shown whole. -/
def RegRow.whole (r : RegRow) : RegRow := { r with fields := r.fields.map (fun b => { b with lo := 0, width := b.fld.width, from_ := 0 }) }

/-- The commit takes the staged half away. -/
def State.unstage (s : State) (q : Requester) (off : Nat) : State := { s with staged := s.staged.filter (fun e => !(e.1 == (q, off))) }

/-- The commit of a register with a row of its own. -/
theorem State.commitHigh_row {s : State} {t : Instant} {q : Requester} {off hi : Nat} {r : RegRow} {i : Nat} {f : State → Out}
    (h : commitRow t off (s.wholeValue q off hi) = some f) : s.commitHigh t q off hi r i = ran f (s.unstage q (off - 4)) := by
  simp only [State.commitHigh, h, State.unstage]

/-- The commit of a register without one. -/
theorem State.commitHigh_plain {s : State} {t : Instant} {q : Requester} {off hi : Nat} {r : RegRow} {i : Nat}
    (h : commitRow t off (s.wholeValue q off hi) = none) :
    s.commitHigh t q off hi r i = (s.unstage q (off - 4)).plainWrite off (fun u => u.writeWord off (s.wholeValue q off hi) r.whole i) := by
  simp only [State.commitHigh, h, State.unstage, RegRow.whole]

/-- Which registers commit by a row does not depend on the value. -/
theorem commitRow_eq_none {t : Instant} {off : Nat} (v : Nat) (h : (commitRow t off 0).isNone = true) : commitRow t off v = none := by
  unfold commitRow at h ⊢
  split at h
  · cases h
  · cases h
  · cases h
  · simp_all

/-- No _HI word is a quota or a binding, and nothing that follows or reports a write changes a field that a _HI word commits. -/
theorem highRows_plain : ∀ r ∈ regMap, r.half = .high → r.avoids 0x801000 0x40 16 = true ∧ r.avoids 0x808000 4 2048 = true ∧
    ∀ b ∈ r.fields, b.access = .rw ∨ b.access = .rwl → Touched.afterWrite.has b.fld.id = false ∧ Touched.discard.has b.fld.id = false := by
  decide +kernel

theorem ownRuleDiscards_high {s : State} {off i : Nat} {r : RegRow} (hf : findReg off = some (r, i)) (hr : r.half = .high) (v w : Nat) :
    s.ownRuleDiscards off v = s.ownRuleDiscards off w := by
  obtain ⟨hm, hl⟩ := findReg_some hf
  obtain ⟨h1, h2, -⟩ := highRows_plain r hm hr
  simp only [State.ownRuleDiscards, RegRow.instOf_eq_none_of_avoids h1 hl, RegRow.instOf_eq_none_of_avoids h2 hl]
  cases (instOf 0x501008 0x80 17 off).or (instOf 0x50100C 0x80 17 off) <;> rfl

theorem staged_writeWord (s : State) (off v : Nat) (r : RegRow) (i : Nat) : (s.writeWord off v r i).staged = s.staged :=
  Frame.part (p := .staged) (keeps_writeWord (closed_frame Touched.writeWord s) (Frame.refl _ s) off v r i) rfl

/-- An admitted commit of a 64-bit field writes it whole and ends the staging. -/
theorem State.rd_commitHigh {s : State} {t : Instant} {q : Requester} {off hi : Nat} {r : RegRow} {i : Nat} {b : FieldBits} (hf : findReg off = some (r, i))
    (hr : r.half = .high) (hfields : r.fields = [b]) (hacc : b.access = .rw ∨ (b.access = .rwl ∧ s.rwlOpen (s.rwlOwner off) = true))
    (hrow : (commitRow t off 0).isNone = true) (ha : s.admits off = true) (hb : s.badRange off (s.wholeValue q off hi) = false)
    (ho : s.ownRuleDiscards off 0 = false) :
    (s.commitHigh t q off hi r i).rd b.fld i = s.wholeValue q off hi % 2 ^ b.fld.width ∧ (s.commitHigh t q off hi r i).stagedHalf q (off - 4) = none := by
  obtain ⟨-, -, hquiet⟩ := highRows_plain r (findReg_some hf).1 hr
  obtain ⟨hafter, hreport⟩ := hquiet b (by simp [hfields]) (hacc.imp_right And.left)
  have hwhole : r.whole.fields = [{ b with lo := 0, width := b.fld.width, from_ := 0 }] := by simp [RegRow.whole, hfields]
  have hhas : r.whole.has [.rw, .rwl, .w1c, .w1s, .wo] = true := by
    rcases hacc with h | ⟨h, -⟩ <;> simp [RegRow.has, hwhole, h]
  rw [State.commitHigh_plain (commitRow_eq_none _ hrow), State.plainWrite_of_admits (s := s.unstage q (off - 4)) ha]
  constructor
  · rw [State.rd_writeWord (s.unstage q (off - 4)) hhas hb ((ownRuleDiscards_high hf hr _ 0).trans ho) hafter hreport, State.writeFields, hwhole]
    have hopen : (s.unstage q (off - 4)).rwlOpen ((s.unstage q (off - 4)).rwlOwner off) = s.rwlOpen (s.rwlOwner off) := rfl
    have hwritten := State.rd_wrPart_whole (s.unstage q (off - 4)) (b := { b with lo := 0, width := b.fld.width, from_ := 0 }) rfl rfl i (s.wholeValue q off hi)
    simp only [Nat.pow_zero, Nat.div_one] at hwritten
    rcases hacc with h | ⟨h, hl⟩
    · simpa [State.writeField, h] using hwritten
    · simpa [State.writeField, h, hopen, hl] using hwritten
  · rw [State.stagedHalf_congr (staged_writeWord _ _ _ _ _)]
    simp only [State.unstage, State.stagedHalf, find?_filter_key_same, Option.map_none]

theorem findReg_cState {n : Nat} (h : n < 1024) : ∃ r, findReg (0x200050 + 0x100 * n) = some (r, n) ∧ r.half = .high :=
  findReg_place (by decide) h (by decide +kernel) (by decide +kernel)

theorem findReg_stConsumed {k : Nat} (h : k < 17) : ∃ r, findReg (0x501028 + 0x80 * k) = some (r, k) ∧ r.half = .high :=
  findReg_place (by decide) h (by decide +kernel) (by decide +kernel)

theorem findReg_csConsumed {n : Nat} (h : n < 32) : ∃ r, findReg (0x610034 + 0x100 * n) = some (r, n) ∧ r.half = .high :=
  findReg_place (by decide) h (by decide +kernel) (by decide +kernel)

theorem commitRow_cState (t : Instant) (n : Fin 1024) (v : Nat) : commitRow t (0x200050 + 0x100 * n.val) v = some (execCStateWrite t n (BitVec.ofNat 48 v)) := by
  simp [commitRow, instOf_place (base := 0x200050) (stride := 0x100) (by decide) n.isLt]

theorem commitRow_stConsumed (t : Instant) (k : Fin 17) (v : Nat) : commitRow t (0x501028 + 0x80 * k.val) v = some (execStConsumedWrite t k (BitVec.ofNat 64 v)) := by
  have hcell : instOf 0x200050 0x100 1024 (0x501028 + 0x80 * k.val) = none := if_neg (by omega)
  simp [commitRow, hcell, instOf_place (base := 0x501028) (stride := 0x80) (by decide) k.isLt]

theorem commitRow_csConsumed (t : Instant) (n : Fin 32) (v : Nat) : commitRow t (0x610034 + 0x100 * n.val) v = some (execCsConsumedWrite t n (BitVec.ofNat 64 v)) := by
  have hcell : instOf 0x200050 0x100 1024 (0x610034 + 0x100 * n.val) = none := if_neg (by omega)
  have hstream : instOf 0x501028 0x80 17 (0x610034 + 0x100 * n.val) = none := if_neg (by omega)
  simp [commitRow, hcell, hstream, instOf_place (base := 0x610034) (stride := 0x100) (by decide) n.isLt]

/-- The commit of a _HI word with a row of its own runs that row with the whole value. -/
theorem execHiWriteCommit_row {t : Instant} {q : Requester} {off : Fin 268435456} {value : Word} {r : RegRow} {i : Nat} {s : State} {f : Nat → State → Out}
    (hf : findReg off = some (r, i)) (hr : r.half = .high) (hm : s.mayWrite q = true) (hrow : ∀ v, commitRow t off v = some (f v)) :
    execHiWriteCommit t q off value s = .next (ran (f (s.wholeValue q off value.toNat)) ((s.advance t).unstage q (off - 4))) := by
  rw [execHiWriteCommit_high hf hr hm, State.commitHigh_row (hrow _), s.wholeValue_advance t q _ hf hr]

/-- Settles O2, clause by clause: what a read of either half answers and latches, what a write of either half stages and
commits, and the three registers that commit by a row of their own. -/
theorem sixtyFourBitRegistersNeverTear : Obligations.SixtyFourBitRegistersNeverTear := by
  refine ⟨?readLow, ?readOthers, ?readHighLatched, ?readHighCurrent, ?writeLow, ?writeLowOthers, ?writeHigh, ?writeHighIsCommit, ?cState, ?stConsumed, ?csConsumed⟩
  case readLow =>
    intro t r off row i s hf hr hw hm hb hv
    refine ⟨_, execLoReadLatch_low hf hr hw hm hb, ?_, ?_, ?_⟩
    · exact congrArg (leBytes 4) (viewWord_low _ r hf hr hv (.inl rfl))
    · rw [State.latchOf_answerWord, State.latchOf_putLatch_some]
      exact congrArg some (viewWord_low _ r hf hr hv (.inr rfl))
    · exact (staged_refreshReg _ _).trans (s.advance_staged t)
  case readOthers =>
    intro t r q off a s hlo hhi
    obtain ⟨u, hu, hframe⟩ := exec_frame (.loReadLatch t r off) s
    exact ⟨u, hu, latchOf_execLoReadLatch_other hlo hhi hu, hframe.part (p := .staged) rfl⟩
  case readHighLatched =>
    intro t r off row i v s hf hr hw hm hb hl
    refine ⟨_, execLoReadLatch_high hf hr hw hm hb, ?_, ?_⟩
    · rw [hl]; rfl
    · exact State.latchOf_putLatch_none _ _ _
  case readHighCurrent =>
    intro t r off row i s hf hr hw hm hb hl
    refine ⟨_, execLoReadLatch_high hf hr hw hm hb, ?_⟩
    rw [hl]; rfl
  case writeLow =>
    intro t r off value row i s hf hr hh hrows hw hm ha hadm
    refine ⟨_, execRegisterWrite_word hm ha hw, ?_⟩
    rw [State.writeReg_low hrows hf hr, if_pos hh, State.plainWrite_of_admits (by rwa [State.admits_advance])]
    exact ⟨State.stagedHalf_stageLow_same _ _ _ _, rfl, s.advance_latches t⟩
  case writeLowOthers =>
    intro t r q off value row i a s hf hr hrows hw ha hne
    cases hm : s.mayWrite r with
    | false => exact ⟨_, execRegisterWrite_denied hm, State.stagedHalf_congr (s.advance_staged t) q a⟩
    | true =>
      refine ⟨_, execRegisterWrite_word hm ha hw, ?_⟩
      exact (stagedHalf_writeReg_low_other hrows hf hr hne).trans (State.stagedHalf_congr (s.advance_staged t) q a)
  case writeHigh =>
    intro t r off value row i b s hf hr hfields hacc hrow hm hadm hb ho
    refine ⟨_, execHiWriteCommit_high hf hr hm, ?_⟩
    have hv := s.wholeValue_advance t r value.toNat hf hr
    have hcommit := State.rd_commitHigh (s := s.advance t) (t := t) (q := r) (hi := value.toNat) hf hr hfields (by simpa using hacc) hrow (by simpa using hadm)
      (by simpa [hv] using hb) (by simpa using ho)
    rwa [hv] at hcommit
  case writeHighIsCommit =>
    intro t r off value row i s hf hr hrows hw hm ha
    refine ⟨_, execRegisterWrite_word hm ha hw, _, execHiWriteCommit_high hf hr hm, ?_⟩
    rw [State.writeReg_high hrows hf hr]
  case cState =>
    intro t r n off value s hoff hm
    obtain ⟨row, hf, hr⟩ := findReg_cState n.isLt
    rw [← hoff] at hf
    refine ⟨_, execHiWriteCommit_row hf hr hm (fun v => hoff ▸ commitRow_cState t n v), ?_⟩
    rw [State.unstage, s.advance_staged]
  case stConsumed =>
    intro t r k off value s hoff hm
    obtain ⟨row, hf, hr⟩ := findReg_stConsumed k.isLt
    rw [← hoff] at hf
    refine ⟨_, execHiWriteCommit_row hf hr hm (fun v => hoff ▸ commitRow_stConsumed t k v), ?_⟩
    rw [State.unstage, s.advance_staged]
  case csConsumed =>
    intro t r n off value s hoff hm
    obtain ⟨row, hf, hr⟩ := findReg_csConsumed n.isLt
    rw [← hoff] at hf
    refine ⟨_, execHiWriteCommit_row hf hr hm (fun v => hoff ▸ commitRow_csConsumed t n v), ?_⟩
    rw [State.unstage, s.advance_staged]

end Sys2Proof.Machine
end

section
/-! PROOFS.  Register writes by the access types of Table 0.4 (R14, R16, R17), and reads of RC fields. -/

namespace Sys2Proof.Machine

open Sys2Proof

/-! ### The report of a discarded write (18 R427) -/

@[simp] theorem State.rd_discard_reason (s : State) (reason off : Nat) : (s.discard reason off).rd F.SYS_DISCARD_REASON = reason % 2 ^ F.SYS_DISCARD_REASON.width := by
  simp [State.discard, show (F.SYS_DISCARD_REASON.id == F.SYS_DISCARD_OFFSET.id) = false from rfl, show (F.SYS_DISCARD_REASON.id == F.SYS_DISCARD_CNT.id) = false from rfl]

@[simp] theorem State.rd_discard_offset (s : State) (reason off : Nat) : (s.discard reason off).rd F.SYS_DISCARD_OFFSET = off % 2 ^ F.SYS_DISCARD_OFFSET.width := by
  simp [State.discard, show (F.SYS_DISCARD_OFFSET.id == F.SYS_DISCARD_CNT.id) = false from rfl]

@[simp] theorem State.rd_discard_cnt (s : State) (reason off : Nat) :
    (s.discard reason off).rd F.SYS_DISCARD_CNT = min (s.rd F.SYS_DISCARD_CNT + 1) (2 ^ F.SYS_DISCARD_CNT.width - 1) := by
  rw [State.discard, State.rd_bump_same, Nat.mod_eq_of_lt]
  · simp [show (F.SYS_DISCARD_CNT.id == F.SYS_DISCARD_OFFSET.id) = false from rfl, show (F.SYS_DISCARD_CNT.id == F.SYS_DISCARD_REASON.id) = false from rfl]
  · exact Nat.lt_of_le_of_lt (Nat.min_le_right _ _) (Nat.sub_lt (Nat.two_pow_pos _) Nat.one_pos)

/-- The report of a write names an offset of BAR0 whole. -/
theorem offset_mod (off : Fin 268435456) : off.val % 2 ^ F.SYS_DISCARD_OFFSET.width = off.val :=
  Nat.mod_eq_of_lt (Nat.lt_of_lt_of_le off.isLt (by decide))

/-- A partial or misaligned write. -/
theorem execRegisterWrite_partial {t : Instant} {q : Requester} {off : Fin 268435456} {value : Word} {be : Fin 16} {s : State} (hm : s.mayWrite q = true)
    (h : be ≠ 15 ∨ off.val % 4 ≠ 0) : execRegisterWrite t q off value be s = .next ((s.advance t).discard 2 off) := by
  have h' : be.val ≠ 15 ∨ off.val % 4 ≠ 0 := h.imp_left fun hb he => hb (Fin.ext he)
  simp only [execRegisterWrite, State.mayWrite_advance, hm, Bool.not_true, Bool.false_eq_true, if_false, if_pos h']

/-! ### Registers without rows, owners and rules of their own -/

theorem instOf_eq_none {base stride count off : Nat} (h : ¬(base ≤ off ∧ off < base + stride * count ∧ (off - base) % stride = 0)) :
    instOf base stride count off = none := if_neg h

/-- Registers of the SYS and HOST blocks, PWR_WAKE_CFG and PWR_PART_CFG have no rows of their own. -/
theorem State.rowsAt_isNone (s : State) (t : Instant) {off : Nat} (v : Word)
    (h : off < 0x100000 ∨ off = 0xE00024 ∨ (0xE00104 ≤ off ∧ off < 0xE00184 ∧ off % 8 = 4) ∨ 0xF00200 ≤ off) : (s.rowsAt t off v).isNone = true := by
  simp (disch := omega) only [State.rowsAt, State.rows0, State.rows1, rows2, rows3, instOf_eq_none, if_neg, Option.map_none, List.cons_append, List.nil_append,
    List.findSome?_cons, List.findSome?_nil, id_eq, Option.isNone_none]

/-- No rule of a chapter judges a write of a register outside the blocks from SKEIN to SCHED. -/
theorem State.no_rule (s : State) {off : Nat} (v : Nat) (h : off < 0x501000 ∨ 0x80A000 ≤ off) :
    s.badRange off v = false ∧ s.ownRuleDiscards off v = false := by
  constructor
  · simp (disch := omega) only [State.badRange, instOf_eq_none, if_neg]
  · simp (disch := omega) only [State.ownRuleDiscards, instOf_eq_none, Option.or_none]

/-- Registers of the SYS and HOST blocks and PWR_WAKE_CFG belong to no partition. -/
theorem State.regPartition_none (s : State) {off : Nat} (h : off < 0x200000 ∨ (0x902000 ≤ off ∧ off < 0xE00100) ∨ 0xE00380 ≤ off) :
    s.regPartition off = none := by
  simp (disch := omega) only [State.regPartition, if_neg, List.findSome?_cons, List.findSome?_nil, id_eq]

/-- PWR_PART_CFG of partition `p` belongs to it. -/
theorem State.regPartition_powerCfg (s : State) (p : Fin 16) : s.regPartition (0xE00104 + 8 * p.val) = some p.val := by
  have hp : (0xE00104 + 8 * p.val - 0xE00100) / 8 = p.val := by omega
  simp (disch := omega) only [State.regPartition, if_neg, if_pos, List.findSome?_cons, id_eq, hp]

theorem State.rwlOwner_of_noInput (s : State) {off : Nat} (h : off < 0x808000 ∨ 0x80A000 ≤ off) : s.rwlOwner off = s.regPartition off := by
  simp (disch := omega) only [State.rwlOwner, instOf_eq_none]

/-! ### A full-word write of a register without rows of its own -/

/-- A word register that no edit reaches, found at an offset. -/
def WordAt (off : Nat) (fields : List FieldBits) (i : Nat) : Prop :=
  ∃ r, findReg off = some (r, i) ∧ r.half = .word ∧ editMask r = 0 ∧ r.fields = fields

/-- The check of one offset by computation. -/
theorem wordAt_of_any {off i : Nat} {fields : List FieldBits}
    (h : (findReg off).any (fun x => decide (x.2 = i ∧ x.1.half = .word ∧ editMask x.1 = 0 ∧ x.1.fields = fields)) = true) : WordAt off fields i := by
  obtain ⟨⟨r, j⟩, hf, hx⟩ := (Option.any_eq_true _ _).mp h
  obtain ⟨rfl, hr⟩ := of_decide_eq_true hx
  exact ⟨r, hf, hr⟩

theorem wordAt_sysFault : WordAt 0x10 [⟨F.SYS_FAULT, 0, 21, 0, .w1c⟩] 0 := wordAt_of_any (by decide +kernel)

theorem wordAt_wakeCfg :
    WordAt 0xE00024 [⟨F.PWR_WAKE_CFG_RET_MV, 16, 12, 0, .rwl⟩, ⟨F.PWR_WAKE_CFG_WAKE_RETRY_MS, 8, 8, 0, .rw⟩, ⟨F.PWR_WAKE_CFG_WAKE_TMO_MS, 0, 8, 0, .rw⟩] 0 :=
  wordAt_of_any (by decide +kernel)

theorem wordAt_intMap {n : Nat} (h : n < 200) : WordAt (0xF03000 + 4 * n) [⟨F.INT_MAP_EN, 31, 1, 0, .rw⟩, ⟨F.INT_MAP_VECTOR, 0, 6, 0, .rw⟩] n :=
  findReg_place (by decide) h (by decide +kernel) (by decide +kernel)

theorem wordAt_powerCfg {p : Nat} (h : p < 16) : WordAt (0xE00104 + 8 * p) [⟨F.PWR_PART_CFG, 0, 1, 0, .rwl⟩] p :=
  findReg_place (by decide) h (by decide +kernel) (by decide +kernel)

/-- A write of a word register without rows of its own that takes effect at once. -/
theorem execRegisterWrite_writeWord {t : Instant} {q : Requester} {off : Fin 268435456} {value : Word} {r : RegRow} {i : Nat} {s : State}
    (hf : findReg off = some (r, i)) (hr : r.half = .word) (he : editMask r = 0) (hrows : ((s.advance t).rowsAt t off value).isNone = true)
    (hw : inSramWindow off = false) (hm : s.mayWrite q = true) (ha : off.val % 4 = 0)
    (hplain : ∀ f, (s.advance t).plainWrite off f = f (s.advance t)) :
    execRegisterWrite t q off value 15 s = .next ((s.advance t).writeWord off value.toNat r i) := by
  rw [execRegisterWrite_word hm ha hw, State.writeReg_word hrows hf hr he, hplain]

/-- The fields of a word register are distinct; an RW field lies within its width, is none that a report writes, and is none that
what follows a write changes, but for SLEW_NS. -/
theorem wordRows_plain : ∀ r ∈ regMap, r.half = .word → (r.fields.map (·.fld.id)).Nodup ∧
    ∀ b ∈ r.fields, b.access = .rw → b.from_ + b.width ≤ b.fld.width ∧ Touched.discard.has b.fld.id = false ∧
      (Touched.afterWrite.has b.fld.id = false ∨ (r.addr = 0x100014 ∧ r.dims = [])) := by
  decide +kernel

/-- SLEW_NS is written by its own row. -/
theorem State.rowsAt_slewNs (s : State) (t : Instant) (v : Word) : (s.rowsAt t 0x100014 v).isNone = false := by
  simp [State.rowsAt, State.rows0]

/-- An RW field takes its bits of the word. -/
theorem State.rd_writeWord_rw (s : State) {t : Instant} {off i : Nat} {value : Word} {r : RegRow} {b : FieldBits} (hf : findReg off = some (r, i))
    (hr : r.half = .word) (hmem : b ∈ r.fields) (hb : b.access = .rw) (hrows : (s.rowsAt t off value).isNone = true)
    (hrange : s.badRange off value.toNat = false) (hown : s.ownRuleDiscards off value.toNat = false) :
    (s.writeWord off value.toNat r i).rd b.fld i / 2 ^ b.from_ % 2 ^ b.width = value.toNat / 2 ^ b.lo % 2 ^ b.width := by
  obtain ⟨hreg, hlies⟩ := findReg_some hf
  obtain ⟨hnodup, hfields⟩ := wordRows_plain r hreg hr
  obtain ⟨hwidth, hreport, hquiet⟩ := hfields b hmem hb
  have hafter : Touched.afterWrite.has b.fld.id = false := by
    rcases hquiet with h | ⟨haddr, hdims⟩
    · exact h
    · have hle := hlies.le
      simp only [haddr, hdims, extentOf, List.map_nil, List.sum_nil] at hle
      rw [show off = 0x100014 by omega, s.rowsAt_slewNs] at hrows
      cases hrows
  have hhas : r.has [.rw, .rwl, .w1c, .w1s, .wo] = true := List.any_eq_true.mpr ⟨b, hmem, by simp [hb]⟩
  rw [s.rd_writeWord hhas hrange hown hafter hreport, s.rd_writeFields_mem i _ _ hnodup hmem]
  simp only [State.writeField, hb]
  exact s.rd_wrPart hwidth i _

/-! ### Writes in the SYS and HOST blocks, of PWR_WAKE_CFG and of PWR_PART_CFG -/

/-- An offset of the SYS or HOST block, of PWR_WAKE_CFG or of PWR_PART_CFG. -/
def PlainPlace (off : Nat) : Prop :=
  off % 4 = 0 ∧ off < 0x1000000 ∧ (off < 0x100000 ∨ off = 0xE00024 ∨ (0xE00104 ≤ off ∧ off < 0xE00184 ∧ off % 8 = 4) ∨ 0xF00200 ≤ off)

theorem plainPlace_sysFault : PlainPlace 0x10 := ⟨by decide, by decide, .inl (by decide)⟩

theorem plainPlace_wakeCfg : PlainPlace 0xE00024 := ⟨by decide, by decide, .inr (.inl rfl)⟩

theorem plainPlace_intMap {n : Nat} (h : n < 200) : PlainPlace (0xF03000 + 4 * n) := ⟨by omega, by omega, .inr (.inr (.inr (by omega)))⟩

theorem plainPlace_powerCfg {p : Nat} (h : p < 16) : PlainPlace (0xE00104 + 8 * p) := ⟨by omega, by omega, .inr (.inr (.inl (by omega)))⟩

/-- A write there runs no row, and no chapter's rule discards it. -/
theorem execRegisterWrite_plainPlace {t : Instant} {q : Requester} {off : Fin 268435456} {n : Nat} {value : Word} {r : RegRow} {i : Nat} {s : State}
    (hf : findReg n = some (r, i)) (hr : r.half = .word) (he : editMask r = 0) (hp : PlainPlace n) (hoff : off.val = n) (hm : s.mayWrite q = true)
    (hplain : ∀ f, (s.advance t).plainWrite n f = f (s.advance t)) :
    execRegisterWrite t q off value 15 s = .next ((s.advance t).writeWord n value.toNat r i) ∧
      (s.advance t).badRange n value.toNat = false ∧ (s.advance t).ownRuleDiscards n value.toNat = false := by
  subst hoff
  obtain ⟨haligned, hwindow, hplace⟩ := hp
  refine ⟨execRegisterWrite_writeWord hf hr he (State.rowsAt_isNone _ t value hplace) ?_ hm haligned hplain, State.no_rule _ _ (by omega)⟩
  simp only [inSramWindow, Bool.and_eq_false_iff, decide_eq_false_iff_not]
  omega

/-- With its RWL fields open, or with none, a register there takes the word. -/
theorem execRegisterWrite_open {t : Instant} {q : Requester} {off : Fin 268435456} {n : Nat} {value : Word} {fields : List FieldBits} {i : Nat} {s : State}
    (hat : WordAt n fields i) (hp : PlainPlace n) (hoff : off.val = n) (hm : s.mayWrite q = true)
    (hplain : ∀ f, (s.advance t).plainWrite n f = f (s.advance t))
    (hw : fields.any (fun b => [Access.rw, .rwl, .w1c, .w1s, .wo].contains b.access) = true)
    (hl : s.rwlOpen (s.rwlOwner n) = true ∨ fields.any (fun b => [Access.rwl].contains b.access) = false) :
    execRegisterWrite t q off value 15 s = .next (((s.advance t).writeFields fields i value.toNat (s.rwlOpen (s.rwlOwner n))).afterWrite n) := by
  obtain ⟨r, hf, hr, he, rfl⟩ := hat
  obtain ⟨hu, hrange, hown⟩ := execRegisterWrite_plainPlace (value := value) hf hr he hp hoff hm hplain
  rw [hu, State.writeWord_open _ hw hrange hown (hl.imp (fun h => by simpa using h) id)]
  simp

/-- With its RWL fields closed a register there keeps them, and a write that would change one, or finds no other field, is
reported (reason 3). -/
theorem execRegisterWrite_closed {t : Instant} {q : Requester} {off : Fin 268435456} {n : Nat} {value : Word} {fields : List FieldBits} {i : Nat} {s : State}
    (hat : WordAt n fields i) (hp : PlainPlace n) (hoff : off.val = n) (hm : s.mayWrite q = true)
    (hplain : ∀ f, (s.advance t).plainWrite n f = f (s.advance t)) (hrwl : fields.any (fun b => [Access.rwl].contains b.access) = true)
    (hl : s.rwlOpen (s.rwlOwner n) = false)
    (hc : (∃ b ∈ fields, b.access = .rwl ∧ (s.advance t).rd b.fld i / 2 ^ b.from_ % 2 ^ b.width ≠ value.toNat / 2 ^ b.lo % 2 ^ b.width) ∨
      fields.any (fun b => [Access.rw, .w1c, .w1s, .wo].contains b.access) = false) :
    execRegisterWrite t q off value 15 s = .next (((s.advance t).writeFields fields i value.toNat false).discard 3 n) := by
  obtain ⟨r, hf, hr, he, rfl⟩ := hat
  obtain ⟨hu, hrange, hown⟩ := execRegisterWrite_plainPlace (value := value) hf hr he hp hoff hm hplain
  have hchanges : (s.advance t).rwlChanges r i value.toNat = true ∨ r.has [.rw, .w1c, .w1s, .wo] = false := by
    refine hc.imp_left fun ⟨b, hb, hacc, hne⟩ => List.any_eq_true.mpr ⟨b, hb, ?_⟩
    simpa [hacc] using hne
  rw [hu, State.writeWord_closed _ hrwl hrange hown (by simpa using hl) hchanges]

/-- A field that its register shows whole takes its bits where it is RW, or RWL and open. -/
theorem State.rd_writeFields_whole (s : State) {l : List FieldBits} {b : FieldBits} (hb : b ∈ l) (hd : (l.map (·.fld.id)).Nodup) (i v : Nat) {rwl : Bool}
    (hacc : b.access = .rw ∨ (b.access = .rwl ∧ rwl = true)) (h0 : b.from_ = 0) (hw : b.width = b.fld.width) :
    (s.writeFields l i v rwl).rd b.fld i = v / 2 ^ b.lo % 2 ^ b.width := by
  rw [s.rd_writeFields_mem i v rwl hd hb]
  rcases hacc with h | ⟨h, rfl⟩
  · simpa only [State.writeField, h] using s.rd_wrPart_whole h0 hw i v
  · simpa only [State.writeField, h, if_true] using s.rd_wrPart_whole h0 hw i v

theorem bootOpen_host {off : Nat} (h : 0xF00000 ≤ off ∧ off < 0x1000000) : bootOpen off = true := by
  have hblock : off / 2 ^ 20 = 0x0F := by omega
  unfold bootOpen
  rw [hblock]
  rfl

/-- A write of INT_MAP. -/
theorem execRegisterWrite_intMap (t : Instant) {q : Requester} {n : Fin 200} {off : Fin 268435456} (value : Word) {s : State} (hoff : off.val = 0xF03000 + 4 * n.val)
    (hm : s.mayWrite q = true) : ∃ u, execRegisterWrite t q off value 15 s = .next u ∧ u.rd F.INT_MAP_EN n = value.toNat / 2 ^ 31 ∧
      u.rd F.INT_MAP_VECTOR n = value.toNat % 64 ∧ u.rd F.SYS_DISCARD_CNT = s.rd F.SYS_DISCARD_CNT := by
  refine ⟨_, execRegisterWrite_open (wordAt_intMap n.isLt) (plainPlace_intMap n.isLt) hoff hm
    (State.plainWrite_of_bootOpen (bootOpen_host (by omega)) (State.regPartition_none _ (by omega))) rfl (.inr rfl), ?_, ?_, ?_⟩
  · rw [rd_afterWrite _ _ (by decide)]
    refine (State.rd_writeFields_whole _ (b := ⟨F.INT_MAP_EN, 31, 1, 0, .rw⟩) (by simp) (by decide) n _ (.inl rfl) rfl rfl).trans ?_
    exact Nat.mod_eq_of_lt (Nat.div_lt_of_lt_mul value.isLt)
  · rw [rd_afterWrite _ _ (by decide)]
    refine (State.rd_writeFields_whole _ (b := ⟨F.INT_MAP_VECTOR, 0, 6, 0, .rw⟩) (by simp) (by decide) n _ (.inl rfl) rfl rfl).trans ?_
    simp
  · rw [rd_afterWrite _ _ (by decide), State.rd_writeFields_other _ _ _ _ _ (by decide), rd_advance s t (by decide)]

/-- A W1C field that a register shows from its bit 0 loses the bits written with 1. -/
theorem State.bitOf_writeField_w1c (s : State) {b : FieldBits} (hb : b.access = .w1c) (hlo : b.lo = 0) (h0 : b.from_ = 0) (hw : b.width = b.fld.width) (i v : Nat) (rwl : Bool)
    {k : Nat} (hk : k < b.width) : bitOf ((s.writeField b i v rwl).rd b.fld i) k = (bitOf (s.rd b.fld i) k && !bitOf v k) := by
  have hany : (List.range b.width).any (fun j => bitOf v (b.lo + j) && decide (k = b.from_ + j)) = bitOf v k := by
    rw [hlo, h0]
    simp only [Nat.zero_add]
    cases hv : bitOf v k with
    | false => exact List.any_eq_false.mpr fun j _ hj => by simp at hj; simp [← hj.2, hv] at hj
    | true => exact List.any_eq_true.mpr ⟨k, by simpa using hk, by simp [hv]⟩
  have hcut : ∀ x, bitOf (x % 2 ^ b.fld.width) k = bitOf x k := fun x => by simp [bitOf, Nat.testBit_mod_two_pow, ← hw, hk]
  simp only [State.writeField, hb]
  rw [State.rd_wr_same, hcut, bitOf_foldl_w1c, hany]

/-- A write of SYS_FAULT clears the bits written 1. -/
theorem execRegisterWrite_sysFault (t : Instant) {q : Requester} (value : Word) {s : State} (hm : s.mayWrite q = true) {k : Nat} (hk : k < 21) :
    ∃ u, execRegisterWrite t q 0x10 value 15 s = .next u ∧ bitOf (u.rd F.SYS_FAULT) k = (bitOf (s.rd F.SYS_FAULT) k && !bitOf value.toNat k) ∧
      u.rd F.SYS_DISCARD_CNT = s.rd F.SYS_DISCARD_CNT := by
  refine ⟨_, execRegisterWrite_open wordAt_sysFault plainPlace_sysFault rfl hm
    (State.plainWrite_of_bootOpen (by decide) (State.regPartition_none _ (.inl (by decide)))) rfl (.inr rfl), ?_, ?_⟩
  · rw [rd_afterWrite _ _ (by decide)]
    refine (State.bitOf_writeField_w1c _ (b := ⟨F.SYS_FAULT, 0, 21, 0, .w1c⟩) rfl rfl rfl rfl 0 _ (s.rwlOpen (s.rwlOwner 0x10)) hk).trans ?_
    rw [rd_advance s t (by decide)]
  · rw [rd_afterWrite _ _ (by decide), State.rd_writeFields_other _ _ _ _ _ (by decide), rd_advance s t (by decide)]

/-- PWR_WAKE_CFG has no owner: its RWL field is open while every partition is in STOP. -/
theorem State.rwlOpen_wakeCfg (s : State) : s.rwlOpen (s.rwlOwner 0xE00024) = (List.range 16).all s.inStop := by
  rw [State.rwlOwner_of_noInput _ (.inr (by decide)), State.regPartition_none _ (.inr (.inl (by decide)))]
  rfl

theorem State.plainWrite_wakeCfg (s : State) (f : State → State) : s.plainWrite 0xE00024 f = f s :=
  State.plainWrite_of_bootOpen (by decide) (State.regPartition_none _ (.inr (.inl (by decide)))) f

/-- A write of PWR_WAKE_CFG with every partition in STOP. -/
theorem execRegisterWrite_wakeCfg_open (t : Instant) {q : Requester} (value : Word) {s : State} (hm : s.mayWrite q = true) (hstop : (List.range 16).all s.inStop = true) :
    ∃ u, execRegisterWrite t q 0xE00024 value 15 s = .next u ∧ u.rd F.PWR_WAKE_CFG_RET_MV = value.toNat / 2 ^ 16 % 2 ^ 12 ∧
      u.rd F.PWR_WAKE_CFG_WAKE_TMO_MS = value.toNat % 2 ^ 8 ∧ u.rd F.SYS_DISCARD_CNT = s.rd F.SYS_DISCARD_CNT := by
  have hopen : s.rwlOpen (s.rwlOwner 0xE00024) = true := s.rwlOpen_wakeCfg.trans hstop
  refine ⟨_, execRegisterWrite_open wordAt_wakeCfg plainPlace_wakeCfg rfl hm (State.plainWrite_wakeCfg _) rfl (.inl hopen), ?_, ?_, ?_⟩
  · rw [rd_afterWrite _ _ (by decide)]
    exact State.rd_writeFields_whole _ (b := ⟨F.PWR_WAKE_CFG_RET_MV, 16, 12, 0, .rwl⟩) (by simp) (by decide) 0 _ (.inr ⟨rfl, hopen⟩) rfl rfl
  · rw [rd_afterWrite _ _ (by decide)]
    refine (State.rd_writeFields_whole _ (b := ⟨F.PWR_WAKE_CFG_WAKE_TMO_MS, 0, 8, 0, .rw⟩) (by simp) (by decide) 0 _ (.inl rfl) rfl rfl).trans ?_
    simp
  · rw [rd_afterWrite _ _ (by decide), State.rd_writeFields_other _ _ _ _ _ (by decide), rd_advance s t (by decide)]

/-- A write of PWR_WAKE_CFG that would change RET_MV while a partition is not in STOP. -/
theorem execRegisterWrite_wakeCfg_closed (t : Instant) {q : Requester} {value : Word} {s : State} {p : Fin 16} (hm : s.mayWrite q = true) (hrun : s.inStop p = false)
    (hne : value.toNat / 2 ^ 16 % 2 ^ 12 ≠ s.rd F.PWR_WAKE_CFG_RET_MV % 2 ^ 12) :
    ∃ u, execRegisterWrite t q 0xE00024 value 15 s = .next u ∧ u.rd F.PWR_WAKE_CFG_RET_MV = s.rd F.PWR_WAKE_CFG_RET_MV ∧
      u.rd F.PWR_WAKE_CFG_WAKE_TMO_MS = value.toNat % 2 ^ 8 ∧ u.rd F.SYS_DISCARD_REASON = 3 ∧ u.rd F.SYS_DISCARD_OFFSET = 0xE00024 := by
  have hclosed : s.rwlOpen (s.rwlOwner 0xE00024) = false :=
    s.rwlOpen_wakeCfg.trans (List.all_eq_false.mpr ⟨p, by simp, by simp [hrun]⟩)
  have hchanges : (s.advance t).rd F.PWR_WAKE_CFG_RET_MV / 2 ^ 0 % 2 ^ 12 ≠ value.toNat / 2 ^ 16 % 2 ^ 12 := by
    rw [rd_advance s t (by decide), Nat.pow_zero, Nat.div_one]
    exact hne.symm
  refine ⟨_, execRegisterWrite_closed wordAt_wakeCfg plainPlace_wakeCfg rfl hm (State.plainWrite_wakeCfg _) rfl hclosed
    (.inl ⟨⟨F.PWR_WAKE_CFG_RET_MV, 16, 12, 0, .rwl⟩, by simp, rfl, hchanges⟩), ?_, ?_, ?_, ?_⟩
  · rw [rd_discard _ _ _ (by decide)]
    refine (State.rd_writeFields_mem _ (b := ⟨F.PWR_WAKE_CFG_RET_MV, 16, 12, 0, .rwl⟩) 0 _ false (by decide) (by simp)).trans ?_
    rw [State.writeField_closed _ rfl, rd_advance s t (by decide)]
  · rw [rd_discard _ _ _ (by decide)]
    refine (State.rd_writeFields_whole _ (b := ⟨F.PWR_WAKE_CFG_WAKE_TMO_MS, 0, 8, 0, .rw⟩) (by simp) (by decide) 0 _ (.inl rfl) rfl rfl).trans ?_
    simp
  · rw [State.rd_discard_reason]; rfl
  · rw [State.rd_discard_offset]; rfl

/-- PWR_PART_CFG is open while its partition is in STOP. -/
theorem State.rwlOpen_powerCfg (s : State) (p : Fin 16) : s.rwlOpen (s.rwlOwner (0xE00104 + 8 * p.val)) = s.inStop p := by
  rw [State.rwlOwner_of_noInput _ (.inr (by omega)), State.regPartition_powerCfg]
  rfl

/-- A write of PWR_PART_CFG with the partition in STOP. -/
theorem execRegisterWrite_powerCfg_open (t : Instant) {q : Requester} {p : Fin 16} {off : Fin 268435456} (value : Word) {s : State}
    (hoff : off.val = 0xE00104 + 8 * p.val) (hm : s.mayWrite q = true) (ha : s.admits off = true) (hstop : s.inStop p = true) :
    ∃ u, execRegisterWrite t q off value 15 s = .next u ∧ u.rd F.PWR_PART_CFG p = value.toNat % 2 ∧
      u.rd F.SYS_DISCARD_CNT = s.rd F.SYS_DISCARD_CNT := by
  have hopen := (s.rwlOpen_powerCfg p).trans hstop
  refine ⟨_, execRegisterWrite_open (wordAt_powerCfg p.isLt) (plainPlace_powerCfg p.isLt) hoff hm
    (State.plainWrite_of_admits (by rwa [State.admits_advance, ← hoff])) rfl (.inl hopen), ?_, ?_⟩
  · rw [rd_afterWrite _ _ (by decide)]
    refine (State.rd_writeFields_whole _ (b := ⟨F.PWR_PART_CFG, 0, 1, 0, .rwl⟩) (by simp) (by decide) p _ (.inr ⟨rfl, hopen⟩) rfl rfl).trans ?_
    simp
  · rw [rd_afterWrite _ _ (by decide), State.rd_writeFields_other _ _ _ _ _ (by decide), rd_advance s t (by decide)]

/-- A write of PWR_PART_CFG with the partition not in STOP finds no field that it may write. -/
theorem execRegisterWrite_powerCfg_closed (t : Instant) {q : Requester} {p : Fin 16} {off : Fin 268435456} (value : Word) {s : State}
    (hoff : off.val = 0xE00104 + 8 * p.val) (hm : s.mayWrite q = true) (ha : s.admits off = true) (hrun : s.inStop p = false) :
    execRegisterWrite t q off value 15 s = .next ((s.advance t).discard 3 off) := by
  rw [execRegisterWrite_closed (wordAt_powerCfg p.isLt) (plainPlace_powerCfg p.isLt) hoff hm
    (State.plainWrite_of_admits (by rwa [State.admits_advance, ← hoff])) rfl ((s.rwlOpen_powerCfg p).trans hrun) (.inr rfl), hoff]
  rfl

/-! ### Reads of RC fields -/

/-- RC fields lie outside every view and do not show the slew. -/
theorem rcRows_plain : ∀ r ∈ regMap, ∀ b ∈ r.fields, b.access = .rc → r.unviewed = true ∧ Touched.advance.has b.fld.id = false := by
  decide +kernel

theorem execRcRead_reg {t : Instant} {off : Fin 268435456} {r : RegRow} {i : Nat} {s : State} (hf : findReg off = some (r, i)) (hw : inSramWindow off = false)
    (hb : s.rd F.HOST_STATUS_BOOTING = 0) :
    execRcRead t off s = .next ((r.fields.foldl (fun u b => if b.access = .rc then u.wr b.fld b.fld.reset i else u) (s.advance t)).answerWord
      ((s.advance t).shownWord off)) := by
  have hb' : (s.advance t).on F.HOST_STATUS_BOOTING = false := by rw [s.on_advance t (by decide)]; simp [State.on, hb]
  simp [execRcRead, hb', hw, hf]

/-- The word of a register of one RC field that stands at bit 0. -/
theorem shownWord_rc (s : State) (t : Instant) {off i : Nat} {r : RegRow} {b : FieldBits} (hf : findReg off = some (r, i)) (hfields : r.fields = [b])
    (hb : b.access = .rc) (hlo : b.lo = 0) (hfrom : b.from_ = 0) : (s.advance t).shownWord off = s.rd b.fld i % 2 ^ b.width := by
  obtain ⟨hreg, hlies⟩ := findReg_some hf
  obtain ⟨hview, hslew⟩ := rcRows_plain r hreg b (by simp [hfields]) hb
  have hshown := shownWord_of_unviewed (s.advance t) hview hlies (.inl rfl)
  rw [Nat.add_zero] at hshown
  simp [hshown, State.regWord, hf, hfields, hlo, hfrom, rd_advance s t hslew]

/-- Settles O4, clause by clause: writes that are discarded, writes by access type, and the read of RC fields. -/
theorem registerWritesFollowTheAccessTypes : Obligations.RegisterWritesFollowTheAccessTypes := by
  refine ⟨?partialWrite, ?denied, ?readOnly, ?rw, ?intMap, ?w1c, ?rwlOpen, ?rwlClosed, ?partOpen, ?partClosed, ?rc⟩
  case partialWrite =>
    intro t r off value be s hm h
    refine ⟨_, execRegisterWrite_partial hm h, rfl, ?_, ?_, ?_⟩
    · rw [State.rd_discard_reason]; rfl
    · rw [State.rd_discard_offset, offset_mod]
    · rw [State.rd_discard_cnt, rd_advance s t (by decide)]; rfl
  case denied =>
    intro t r off value be s hm
    exact ⟨_, execRegisterWrite_denied hm, rfl⟩
  case readOnly =>
    intro t r off value row i s hf hr hhas he hrows hw hm ha hadm
    refine ⟨_, execRegisterWrite_writeWord hf hr he hrows hw hm ha (State.plainWrite_of_admits (by simpa using hadm)), ?_⟩
    exact State.writeWord_readOnly _ _ _ hhas _
  case rw =>
    intro t r off value row i b s hf hr hmem hb he hrows hw hm ha hadm hrange hown
    refine ⟨_, execRegisterWrite_writeWord hf hr he hrows hw hm ha (State.plainWrite_of_admits (by simpa using hadm)), ?_⟩
    exact State.rd_writeWord_rw _ hf hr (by simpa using hmem) hb hrows (by simpa using hrange) (by simpa using hown)
  case rc =>
    intro t off row i b s hf hfields hb hlo hfrom hw hboot
    refine ⟨_, execRcRead_reg hf hw hboot, ?_, ?_⟩
    · rw [shownWord_rc s t hf hfields hb hlo hfrom]; rfl
    · rw [rd_answerWord _ _ rfl]
      simp [hfields, hb]
  case intMap => exact fun t _ _ _ value _ hoff hm => execRegisterWrite_intMap t value hoff hm
  case w1c => exact fun t _ value k _ hm => execRegisterWrite_sysFault t value hm k.isLt
  case rwlOpen => exact fun t _ value _ hm hstop => execRegisterWrite_wakeCfg_open t value hm hstop
  case rwlClosed => exact fun t _ _ _ _ hm hrun hne => execRegisterWrite_wakeCfg_closed t hm hrun hne
  case partOpen => exact fun t _ _ _ value _ hoff hm hadm hstop => execRegisterWrite_powerCfg_open t value hoff hm hadm hstop
  case partClosed => exact fun t _ _ _ value _ hoff hm hadm hrun => ⟨_, execRegisterWrite_powerCfg_closed t value hoff hm hadm hrun, rfl⟩

end Sys2Proof.Machine
end

section
/-! PROOFS.  Host accesses to DRAM and to the SRAM window (15 R378, 18 R425, R429), and the event messages of IEEE 1588 (18 R434). -/

namespace Sys2Proof.Machine

open Sys2Proof

/-! ### Events and counters -/

/-- A bit that lies within the field reads 1 after it is set. -/
theorem bitOf_rd_setBit (s : State) (f : Fld) {k : Nat} (hk : k < f.width) (i : Nat) : bitOf ((s.setBit f k i).rd f i) k = true := by
  rw [State.rd_setBit_same]
  simp [bitOf, withBit, Nat.testBit_mod_two_pow, hk]

/-- A counter that stops at its greatest value lies within its width. -/
theorem State.rd_bump_saturates (s : State) (f : Fld) (i n : Nat) : (s.bump f i n).rd f i = min (s.rd f i + n) (2 ^ f.width - 1) := by
  rw [State.rd_bump_same, Nat.mod_eq_of_lt]
  exact Nat.lt_of_le_of_lt (Nat.min_le_right _ _) (Nat.sub_lt (Nat.two_pow_pos _) Nat.one_pos)

/-! ### Memories and the windows of the host -/

/-- Bytes read where they were written. -/
theorem Memory.readBytes_writeBytes_same (m : Memory) (a : Nat) (l : List Byte) : (m.writeBytes a l).readBytes a l.length = l := by
  refine List.ext_getElem (by simp [Memory.readBytes]) fun i hi hl => ?_
  simpa [Memory.readBytes] using Memory.read_writeBytes_inside m a l hl

@[simp] theorem State.advance_sram (s : State) (t : Instant) : (s.advance t).sram = s.sram := (frame_advance s t).part (p := .sram) rfl
@[simp] theorem State.advance_dram (s : State) (t : Instant) : (s.advance t).dram = s.dram := (frame_advance s t).part (p := .dram) rfl

@[simp] theorem State.hostWindow_advance (s : State) (t : Instant) (a n : Nat) (write : Bool) : (s.advance t).hostWindow a n write = s.hostWindow a n write := by
  simp only [State.hostWindow, rd_advance s t (fld := F.SKS_CTRL_EXPORT) (by decide), rd_advance s t (fld := F.SKS_REGION) (by decide),
    rd_advance s t (fld := F.SKS_REGION_SIZE) (by decide), rd_advance s t (fld := F.CS_REGION) (by decide),
    rd_advance s t (fld := F.CS_SLOT_CFG_SLOTS) (by decide), rd_advance s t (fld := F.CS_SLOT_CFG_SLOT_KIB) (by decide)]

/-! ### The refusal of an access (R378) -/

/-- A refused read gives ones. -/
@[simp] theorem State.refuseAccess_data (s : State) (n : Nat) : (s.refuseAccess n).answer.data = List.replicate n 0xFF := rfl

/-- A refusal is an event of the SEC block. -/
theorem State.bitOf_secEvent_refuseAccess (s : State) (n : Nat) : bitOf ((s.refuseAccess n).rd F.SEC_EVENT) 4 = true := by
  rw [State.refuseAccess, rd_reply _ _ _ rfl, State.rd_bump_field _ _ _ _ (by decide)]
  exact bitOf_rd_setBit s F.SEC_EVENT (by decide) 0

/-- A refusal is counted. -/
theorem State.rd_refuseCnt_refuseAccess (s : State) (n : Nat) :
    (s.refuseAccess n).rd F.SEC_HOST_REFUSE_CNT = min (s.rd F.SEC_HOST_REFUSE_CNT + 1) (2 ^ F.SEC_HOST_REFUSE_CNT.width - 1) := by
  rw [State.refuseAccess, rd_reply _ _ _ rfl, State.rd_bump_saturates, rd_secEvent _ _ (by decide)]

/-! ### Accesses through BAR2 and the SRAM window -/

/-- The DRAM address that an offset in BAR2 names. -/
def State.bar2Address (s : State) (offset : Fin 1073741824) : Nat := 0x10000000 * s.rd F.BAR2_BASE + offset.val

section
variable (t : Instant) (offset : Fin 1073741824) (len : Nat) (bs : List Byte) (s : State)

@[simp] theorem State.bar2Address_advance : (s.advance t).bar2Address offset = s.bar2Address offset := by
  simp only [State.bar2Address, rd_advance s t (fld := F.BAR2_BASE) (by decide)]

/-- A write through BAR2 stores its bytes in a window and is refused elsewhere. -/
theorem execBar2Access_write : execBar2Access t false offset len (some bs) s =
    .next (if s.hostWindow (s.bar2Address offset) bs.length true then
      { s.advance t with dram := s.dram.writeBytes (s.bar2Address offset) bs }.reply 0 else (s.advance t).refuseAccess 0) := by
  rw [← s.hostWindow_advance t, ← s.bar2Address_advance t, ← s.advance_dram t]
  rfl

/-- A read through BAR2 answers the bytes of a window and is refused elsewhere. -/
theorem execBar2Access_read : execBar2Access t false offset len none s =
    .next (if s.hostWindow (s.bar2Address offset) len false then
      (s.advance t).reply 0 (s.dram.readBytes (s.bar2Address offset) len) else (s.advance t).refuseAccess len) := by
  rw [← s.hostWindow_advance t, ← s.bar2Address_advance t, ← s.advance_dram t]
  rfl

/-- A write through the SRAM window is refused, and reported with reason 4. -/
theorem execBar2Access_sramWrite : execBar2Access t true offset len (some bs) s =
    .next (((s.advance t).refuseAccess 0).discard 4 (0x1000000 + offset.val)) := rfl

/-- A read through the SRAM window is refused. -/
theorem execBar2Access_sramRead : execBar2Access t true offset len none s = .next ((s.advance t).refuseAccess len) := rfl

end

/-! ### Event messages (R434) -/

/-- The stamp of an event message stored: number 2q for those that port `q` receives, 2q + 1 for those it sends. -/
def State.stampEvent (s : State) (k : Nat) (stamp : Instant) : State := s.onHost (fun h => { h with stamps := h.stamps.set k stamp })

theorem State.find_stampEvent (s : State) (k : Nat) (stamp : Instant) : (s.stampEvent k stamp).host.stamps.find k = some stamp :=
  Tbl.find_set_same _ _ _

section
variable (t : Instant) (q : Fin 2) (s : State)

/-- A received event message is stamped as it passed the medium: earlier by the ingress latency. -/
theorem execPtpEventMessage_ingress : execPtpEventMessage t q true none s =
    .next ((s.advance t).stampEvent (2 * q.val) (shiftNs (s.advance t).now (-(s.rd F.PTP_LAT_ING_LAT_NS q : Int)))) := by
  rw [← rd_advance s t (fld := F.PTP_LAT_ING_LAT_NS) (by decide)]
  rfl

/-- A sent event message is stamped as it will pass the medium, and shows the port's state and offset. -/
theorem execPtpEventMessage_egress (st : BitVec 2) (off : Word) (hen : s.rd F.PTP_CFG_EN q ≠ 0) : execPtpEventMessage t q false (some (st, off)) s =
    .next ((((s.advance t).stampEvent (2 * q.val + 1) (addNs (s.advance t).now (s.rd F.PTP_LAT_EGR_LAT_NS q))).wr F.PTP_STATUS st.toNat q).wr
      F.PTP_OFFSET off.toNat q) := by
  have hon : (s.advance t).on F.PTP_CFG_EN q = true := by rw [s.on_advance t (by decide)]; simp [State.on, hen]
  rw [← rd_advance s t (fld := F.PTP_LAT_EGR_LAT_NS) (by decide)]
  exact congrArg Host.Outcome.next (if_pos hon)

end

end Sys2Proof.Machine
end

section
/-! PROOFS.  The scrubbers (01 R27, Table 1.4), the telemetry and the life figures (19 R460, R471, R473). -/

namespace Sys2Proof.Machine

open Sys2Proof

/-! ### Faults and entry to STOP -/

/-- A fault is latched under its class. -/
theorem State.bitOf_sysFault (s : State) {cls : Nat} (hcls : cls < F.SYS_FAULT.width) (what : Nat) : bitOf ((s.sysFault cls what).rd F.SYS_FAULT) cls = true := by
  rw [State.sysFault, rd_event _ _ _ _ _ _ _ _ (by decide), rd_interrupt _ _ (by decide), State.rd_wrT_field _ _ _ _ (by decide),
    State.rd_wr_field _ (by decide)]
  exact bitOf_rd_setBit s F.SYS_FAULT hcls 0

/-- The class of the latest fault. -/
theorem State.rd_sysFault_last (s : State) (cls what : Nat) : (s.sysFault cls what).rd F.SYS_FAULT_LAST = cls % 2 ^ F.SYS_FAULT_LAST.width := by
  rw [State.sysFault, rd_event _ _ _ _ _ _ _ _ (by decide), rd_interrupt _ _ (by decide), State.rd_wrT_field _ _ _ _ (by decide), State.rd_wr_same]

/-- A field that no application changes is kept by `State.each`. -/
theorem State.rd_each_of_kept (s : State) {g : State → Nat → State} {f : Fld} {i : Nat} (h : ∀ u a, (g u a).rd f i = u.rd f i) (l : List Nat) :
    (s.each l g).rd f i = s.rd f i :=
  keeps_each (I := fun u => u.rd f i = s.rd f i) rfl l g fun u a hu => (h u a).trans hu

/-- What follows the entry to STOP changes neither the state nor the cause that the entry wrote. -/
theorem State.rd_enterStop_entry (s : State) (p cause : Nat) {f : Fld} (hf : ∀ t ∈ [Touched.dropScan, Touched.safeOutputs, Touched.abortTreadle,
      Touched.cpEvent, Touched.stopRecord, Touched.settle, Touched.runChange], t.has f.id = false) (i : Nat) :
    (s.enterStop p cause).rd f i = (((s.wr F.CP_STATUS_STATE 0 p).wr F.CP_STATUS_STOP_CAUSE cause p).wrT F.CP_STOP_T s.now p).rd f i := by
  simp only [List.forall_mem_cons] at hf
  obtain ⟨hscan, hout, htreadle, hevent, hrecord, hsettle, hrun, -⟩ := hf
  rw [State.enterStop, rd_runChange _ hrun, rd_settle _ hsettle, rd_stopRecord _ _ _ hrecord, rd_cpEvent _ _ _ hevent, rd_abortTreadle _ _ htreadle,
    rd_safeOutputs _ _ hout, State.rd_each_of_kept _ fun u k => rd_dropScan u p k hscan i]

/-- A partition not in STOP enters it. -/
theorem State.rd_partStop_state (s : State) {p : Nat} (cause : Nat) (h : s.rd F.CP_STATUS_STATE p ≠ 0) :
    (s.partStop p cause).rd F.CP_STATUS_STATE p = 0 := by
  rw [State.partStop, if_neg h, s.rd_enterStop_entry p cause (by decide), State.rd_wrT_field _ _ _ _ (by decide), State.rd_wr_field _ (by decide),
    State.rd_wr_same, Nat.zero_mod]

/-- A partition not in STOP shows the cause of its entry. -/
theorem State.rd_partStop_cause (s : State) {p : Nat} (cause : Nat) (h : s.rd F.CP_STATUS_STATE p ≠ 0) :
    (s.partStop p cause).rd F.CP_STATUS_STOP_CAUSE p = cause % 2 ^ F.CP_STATUS_STOP_CAUSE.width := by
  rw [State.partStop, if_neg h, s.rd_enterStop_entry p cause (by decide), State.rd_wrT_field _ _ _ _ (by decide), State.rd_wr_same]

/-! ### An error noted -/

/-- An error's place and kind noted: what `State.eccError` does for both kinds. -/
def State.noteEcc (s : State) (h : ScrubHit) : State :=
  ((s.wr F.MEM_ECC_ADDR h.addr).wr F.MEM_ECC_LAST_MEM h.mem.val).wr F.MEM_ECC_LAST_UE (b2n h.double)

/-- The fields that note an error. -/
def eccNotes : List Fld := [F.MEM_ECC_ADDR, F.MEM_ECC_LAST_MEM, F.MEM_ECC_LAST_UE]

theorem State.rd_noteEcc_addr (s : State) (h : ScrubHit) : (s.noteEcc h).rd F.MEM_ECC_ADDR = h.addr % 2 ^ F.MEM_ECC_ADDR.width := by
  rw [State.noteEcc, State.rd_wr_field _ (by decide), State.rd_wr_field _ (by decide), State.rd_wr_same]

theorem State.rd_noteEcc_mem (s : State) (h : ScrubHit) : (s.noteEcc h).rd F.MEM_ECC_LAST_MEM = h.mem := by
  rw [State.noteEcc, State.rd_wr_field _ (by decide), State.rd_wr_same]
  exact Nat.mod_eq_of_lt (Nat.lt_trans h.mem.isLt (by decide))

theorem State.rd_noteEcc_double (s : State) (h : ScrubHit) : (s.noteEcc h).rd F.MEM_ECC_LAST_UE = b2n h.double := by
  rw [State.noteEcc, State.rd_wr_same]
  exact Nat.mod_eq_of_lt (by cases h.double <;> decide)

theorem State.rd_noteEcc_other (s : State) (h : ScrubHit) {f : Fld} (hf : ∀ g ∈ eccNotes, (f.id == g.id) = false) (i : Nat) :
    (s.noteEcc h).rd f i = s.rd f i := by
  simp only [eccNotes, List.forall_mem_cons] at hf
  obtain ⟨haddr, hmem, hdouble, -⟩ := hf
  rw [State.noteEcc, State.rd_wr_field _ hdouble, State.rd_wr_field _ hmem, State.rd_wr_field _ haddr]

/-! ### The counters of a memory -/

/-- The counter of corrected errors is no field that notes an error, nor SYS_FAULT. -/
theorem memFields_corrected_apart (mem : Fin 3) : Touched.advance.has (memFields mem).1.id = false ∧
    ∀ g ∈ F.SYS_FAULT :: eccNotes, ((memFields mem).1.id == g.id) = false := by
  revert mem
  decide

/-- The counter of double-bit errors is no field that notes an error or a fault, nor a partition's state. -/
theorem memFields_double_apart (mem : Fin 3) : Touched.advance.has (memFields mem).2.1.id = false ∧ Touched.sysFault.has (memFields mem).2.1.id = false ∧
    ∀ g ∈ F.CP_STATUS_STATE :: eccNotes, ((memFields mem).2.1.id == g.id) = false := by
  revert mem
  decide

/-- The fault classes of the memories are rows 9 to 11 of Table 1.4. -/
theorem memFields_class (mem : Fin 3) : (memFields mem).2.2 = 9 + mem.val := by
  revert mem
  decide

/-! ### What an error does -/

/-- A single-bit error noted and counted. -/
def State.correct (s : State) (h : ScrubHit) : State := (s.noteEcc h).bump (memFields h.mem).1

/-- A single-bit error is noted and counted, whatever partitions the hit names. -/
theorem execScrub_single (t : Instant) (mem : Fin 3) (addr : Nat) (stops : List (Fin 16)) (s : State) :
    execScrub t [⟨mem, addr, false, stops⟩] s = .next ((s.advance t).correct ⟨mem, addr, false, stops⟩) := rfl

/-- A field that is not the counter reads after a single-bit error as the note left it. -/
theorem State.rd_correct (s : State) (h : ScrubHit) {g : Fld} (hg : g ∈ F.SYS_FAULT :: eccNotes) (i : Nat) :
    (s.correct h).rd g i = (s.noteEcc h).rd g i := by
  rw [State.correct, State.rd_bump_field _ _ _ _ (BEq.comm.trans ((memFields_corrected_apart h.mem).2 g hg))]

/-- A single-bit error is counted. -/
theorem State.rd_correctedCnt_correct (s : State) (h : ScrubHit) :
    (s.correct h).rd (memFields h.mem).1 = min (s.rd (memFields h.mem).1 + 1) (2 ^ (memFields h.mem).1.width - 1) := by
  rw [State.correct, State.rd_bump_saturates, State.rd_noteEcc_other _ _ fun g hg => (memFields_corrected_apart h.mem).2 g (List.mem_cons_of_mem _ hg)]

/-- A double-bit error noted, counted and reported as a fault of its memory's class. -/
def State.reportDouble (s : State) (h : ScrubHit) : State := ((s.noteEcc h).bump (memFields h.mem).2.1).sysFault (9 + h.mem.val) h.addr

/-- A double-bit error is reported, and stops the partitions that the hit names. -/
theorem execScrub_double (t : Instant) (mem : Fin 3) (addr : Nat) (stops : List (Fin 16)) (s : State) :
    execScrub t [⟨mem, addr, true, stops⟩] s =
      .next (((s.advance t).reportDouble ⟨mem, addr, true, stops⟩).each (stops.map (·.val)) (fun s p => s.partStop p 11)) := by
  rw [State.reportDouble, ← memFields_class]
  rfl

/-- With no partition named a double-bit error is reported alone. -/
theorem execScrub_double_nil (t : Instant) (mem : Fin 3) (addr : Nat) (s : State) :
    execScrub t [⟨mem, addr, true, []⟩] s = .next ((s.advance t).reportDouble ⟨mem, addr, true, []⟩) := by
  rw [execScrub_double, State.each, List.map_nil, List.foldl_nil]

/-- With one partition named that one is stopped with cause 11. -/
theorem execScrub_double_singleton (t : Instant) (mem : Fin 3) (addr : Nat) (p : Fin 16) (s : State) :
    execScrub t [⟨mem, addr, true, [p]⟩] s = .next (((s.advance t).reportDouble ⟨mem, addr, true, [p]⟩).partStop p 11) := by
  rw [execScrub_double, State.each, List.map_singleton, List.foldl_cons, List.foldl_nil]

theorem State.bitOf_sysFault_reportDouble (s : State) (h : ScrubHit) : bitOf ((s.reportDouble h).rd F.SYS_FAULT) (9 + h.mem.val) = true :=
  State.bitOf_sysFault _ (Nat.lt_of_lt_of_le (Nat.add_lt_add_left h.mem.isLt 9) (by decide)) h.addr

theorem State.rd_sysFaultLast_reportDouble (s : State) (h : ScrubHit) : (s.reportDouble h).rd F.SYS_FAULT_LAST = 9 + h.mem.val :=
  (State.rd_sysFault_last _ _ _).trans (Nat.mod_eq_of_lt (Nat.lt_of_lt_of_le (Nat.add_lt_add_left h.mem.isLt 9) (by decide)))

/-- A field that is neither the counter nor a fault's reads after the report as the note left it. -/
theorem State.rd_reportDouble (s : State) (h : ScrubHit) {g : Fld} (hg : g ∈ F.CP_STATUS_STATE :: eccNotes) (hfault : Touched.sysFault.has g.id = false)
    (i : Nat) : (s.reportDouble h).rd g i = (s.noteEcc h).rd g i := by
  rw [State.reportDouble, rd_sysFault _ _ _ hfault, State.rd_bump_field _ _ _ _ (BEq.comm.trans ((memFields_double_apart h.mem).2.2 g hg))]

/-- A double-bit error is counted. -/
theorem State.rd_doubleCnt_reportDouble (s : State) (h : ScrubHit) :
    (s.reportDouble h).rd (memFields h.mem).2.1 = min (s.rd (memFields h.mem).2.1 + 1) (2 ^ (memFields h.mem).2.1.width - 1) := by
  obtain ⟨-, hfault, hapart⟩ := memFields_double_apart h.mem
  rw [State.reportDouble, rd_sysFault _ _ _ hfault, State.rd_bump_saturates, State.rd_noteEcc_other _ _ fun g hg => hapart g (List.mem_cons_of_mem _ hg)]

/-- The report leaves the partitions' states. -/
theorem State.rd_cpState_reportDouble (s : State) (h : ScrubHit) (p : Nat) : (s.reportDouble h).rd F.CP_STATUS_STATE p = s.rd F.CP_STATUS_STATE p := by
  rw [s.rd_reportDouble h (by simp) (by decide), s.rd_noteEcc_other h (by decide)]

/-! ### Telemetry -/

/-- Two's complement read as a number is the word's signed value. -/
theorem toSigned_toNat {w : Nat} (b : BitVec w) (hw : 0 < w) : toSigned w b.toNat = b.toInt := by
  have hhalf : 2 ^ w = 2 * 2 ^ (w - 1) := by rw [← Nat.pow_succ', Nat.succ_eq_add_one, Nat.sub_one_add_one hw.ne']
  have hiff : b.toNat < 2 ^ (w - 1) ↔ 2 * b.toNat < 2 ^ w := by omega
  simp only [toSigned, BitVec.toInt_eq_toNat_cond, Nat.mod_eq_of_lt b.isLt, hiff]

/-- A word of at most a field's width is read as it was written. -/
theorem State.rd_wr_word (s : State) {w : Nat} (b : BitVec w) {f : Fld} (hw : w ≤ f.width) (i : Nat) : (s.wr f b.toNat i).rd f i = b.toNat := by
  rw [State.rd_wr_same]
  exact Nat.mod_eq_of_lt (Nat.lt_of_lt_of_le b.isLt (Nat.pow_le_pow_right (by decide) hw))

/-- What the regulator and the sensors gave, shown: `State.takeTelemetry` but for TJ_PEAK. -/
def State.showRead (s : State) (x : PmbRead) : State :=
  (((s.wr F.AVS_STATUS_READ_MV x.mv.toNat).wr F.PMB_ICORE x.ma.toNat).wr F.PMB_STATUS x.status.toNat).wr F.TJ_NOW x.tj.toNat

theorem State.takeTelemetry_eq (s : State) (x : PmbRead) : s.takeTelemetry x =
    if toSigned 16 ((s.showRead x).rd F.TJ_PEAK) < x.tj.toInt then (s.showRead x).wr F.TJ_PEAK x.tj.toNat else s.showRead x := rfl

theorem State.rd_takeTelemetry (s : State) (x : PmbRead) {f : Fld} (hf : (f.id == F.TJ_PEAK.id) = false) (i : Nat) :
    (s.takeTelemetry x).rd f i = (s.showRead x).rd f i := by
  rw [State.takeTelemetry_eq]
  split
  · exact State.rd_wr_field _ hf _ _ _
  · rfl

theorem State.rd_showRead_mv (s : State) (x : PmbRead) : (s.showRead x).rd F.AVS_STATUS_READ_MV = x.mv.toNat := by
  rw [State.showRead, State.rd_wr_field _ (by decide), State.rd_wr_field _ (by decide), State.rd_wr_field _ (by decide), State.rd_wr_word _ _ (by decide)]

theorem State.rd_showRead_ma (s : State) (x : PmbRead) : (s.showRead x).rd F.PMB_ICORE = x.ma.toNat := by
  rw [State.showRead, State.rd_wr_field _ (by decide), State.rd_wr_field _ (by decide), State.rd_wr_word _ _ (by decide)]

theorem State.rd_showRead_status (s : State) (x : PmbRead) : (s.showRead x).rd F.PMB_STATUS = x.status.toNat := by
  rw [State.showRead, State.rd_wr_field _ (by decide), State.rd_wr_word _ _ (by decide)]

theorem State.rd_showRead_tj (s : State) (x : PmbRead) : (s.showRead x).rd F.TJ_NOW = x.tj.toNat := State.rd_wr_word _ _ (by decide) 0

theorem State.rd_showRead_peak (s : State) (x : PmbRead) : (s.showRead x).rd F.TJ_PEAK = s.rd F.TJ_PEAK := by
  rw [State.showRead, State.rd_wr_field _ (by decide), State.rd_wr_field _ (by decide), State.rd_wr_field _ (by decide), State.rd_wr_field _ (by decide)]

/-- TJ_PEAK holds the greater of what it held and the Tj read, as signed numbers (R471). -/
theorem State.toSigned_peak_takeTelemetry (s : State) (x : PmbRead) :
    toSigned 16 ((s.takeTelemetry x).rd F.TJ_PEAK) = max (toSigned 16 (s.rd F.TJ_PEAK)) x.tj.toInt := by
  rw [State.takeTelemetry_eq, s.rd_showRead_peak]
  split
  · rename_i h
    rw [State.rd_wr_word _ _ (by decide), toSigned_toNat _ (by decide), max_eq_right h.le]
  · rename_i h
    rw [s.rd_showRead_peak, max_eq_left (not_lt.mp h)]

/-- A read of the regulator shows its values and Tj, and TJ_PEAK is at least what it was and at least that Tj. -/
theorem State.takeTelemetry_shows (s : State) (t : Instant) (x : PmbRead) :
    ((s.advance t).takeTelemetry x).rd F.AVS_STATUS_READ_MV = x.mv.toNat ∧ ((s.advance t).takeTelemetry x).rd F.PMB_ICORE = x.ma.toNat ∧
    ((s.advance t).takeTelemetry x).rd F.PMB_STATUS = x.status.toNat ∧ ((s.advance t).takeTelemetry x).rd F.TJ_NOW = x.tj.toNat ∧
    x.tj.toInt ≤ toSigned 16 (((s.advance t).takeTelemetry x).rd F.TJ_PEAK) ∧
    toSigned 16 (s.rd F.TJ_PEAK) ≤ toSigned 16 (((s.advance t).takeTelemetry x).rd F.TJ_PEAK) := by
  have hpeak := (s.advance t).toSigned_peak_takeTelemetry x
  rw [rd_advance s t (fld := F.TJ_PEAK) (by decide)] at hpeak
  refine ⟨?mv, ?ma, ?status, ?tj, hpeak ▸ le_max_right _ _, hpeak ▸ le_max_left _ _⟩
  case mv => rw [State.rd_takeTelemetry _ _ (by decide), State.rd_showRead_mv]
  case ma => rw [State.rd_takeTelemetry _ _ (by decide), State.rd_showRead_ma]
  case status => rw [State.rd_takeTelemetry _ _ (by decide), State.rd_showRead_status]
  case tj => rw [State.rd_takeTelemetry _ _ (by decide), State.rd_showRead_tj]

/-! ### Life figures -/

/-- The hours of life advance by one at an hour's end. -/
theorem State.rd_lifeHours_when (s : State) (t : Instant) (hour : Bool) (h : s.rd F.LIFE_HOURS < 2 ^ F.LIFE_HOURS.width) :
    ((s.advance t).when hour (·.roll F.LIFE_HOURS)).rd F.LIFE_HOURS = (s.rd F.LIFE_HOURS + b2n hour) % 2 ^ F.LIFE_HOURS.width := by
  cases hour with
  | true => rw [State.when_true, State.rd_roll_same, rd_advance s t (by decide)]; rfl
  | false => rw [State.when_false, rd_advance s t (by decide)]; exact (Nat.mod_eq_of_lt h).symm

/-- Settles O60, clause by clause: accesses in and outside the windows of the host, event messages, the scrubbers, and the telemetry. -/
theorem windowsScrubsAndTelemetry : Obligations.WindowsScrubsAndTelemetry := by
  refine ⟨?windowWrite, ?refusedWrite, ?windowRead, ?refusedRead, ?sramRead, ?sramWrite, ?ingress, ?egress, ?corrected, ?double, ?doubleStops, ?poll, ?alert, ?life⟩
  case windowWrite =>
    intro t offset len a bs s hw
    refine ⟨_, (execBar2Access_write t offset len bs s).trans (congrArg _ (if_pos hw)), ?_, fun ha => ?_, rfl⟩
    · exact Memory.readBytes_writeBytes_same s.dram _ bs
    · exact Memory.read_writeBytes_outside s.dram _ bs ha
  case refusedWrite =>
    intro t offset len bs s hw
    refine ⟨_, (execBar2Access_write t offset len bs s).trans (congrArg _ (if_neg (Bool.eq_false_iff.mp hw))), s.advance_dram t, State.bitOf_secEvent_refuseAccess _ 0, ?_⟩
    rw [State.rd_refuseCnt_refuseAccess, rd_advance s t (by decide)]
  case windowRead =>
    intro t offset len s hw
    exact ⟨_, (execBar2Access_read t offset len s).trans (congrArg _ (if_pos hw)), rfl, rfl, s.advance_dram t⟩
  case refusedRead =>
    intro t offset len s hw
    exact ⟨_, (execBar2Access_read t offset len s).trans (congrArg _ (if_neg (Bool.eq_false_iff.mp hw))), State.refuseAccess_data _ len,
      State.bitOf_secEvent_refuseAccess _ len, s.advance_dram t⟩
  case sramRead =>
    intro t offset len s
    exact ⟨_, execBar2Access_sramRead t offset len s, State.refuseAccess_data _ len, s.advance_sram t, State.bitOf_secEvent_refuseAccess _ len⟩
  case sramWrite =>
    intro t offset len bs s
    refine ⟨_, execBar2Access_sramWrite t offset len bs s, s.advance_sram t, ?_, ?_, State.rd_discard_offset _ 4 _⟩
    · rw [rd_discard _ _ _ (by decide)]
      exact State.bitOf_secEvent_refuseAccess _ 0
    · rw [State.rd_discard_reason]; rfl
  case ingress =>
    intro t q s
    exact ⟨_, execPtpEventMessage_ingress t q s, State.find_stampEvent _ _ _, rfl⟩
  case egress =>
    intro t q st off s hen
    refine ⟨_, execPtpEventMessage_egress t q s st off hen, State.find_stampEvent _ _ _, ?_, State.rd_wr_word _ off (by decide) q⟩
    rw [State.rd_wr_field _ (by decide), State.rd_wr_same]
  case corrected =>
    intro t mem addr stops s
    refine ⟨_, execScrub_single t mem addr stops s, ?_, ?_, ?_, ?_, ?_⟩
    · rw [State.rd_correctedCnt_correct, rd_advance s t (memFields_corrected_apart mem).1]
    · rw [State.rd_correct _ _ (by simp [eccNotes]), State.rd_noteEcc_addr]
    · rw [State.rd_correct _ _ (by simp [eccNotes]), State.rd_noteEcc_mem]
    · rw [State.rd_correct _ _ (by simp [eccNotes]), State.rd_noteEcc_double]; rfl
    · rw [State.rd_correct _ _ (by simp), State.rd_noteEcc_other _ _ (by decide), rd_advance s t (by decide)]
  case double =>
    intro t mem addr s
    refine ⟨_, execScrub_double_nil t mem addr s, ?_, ?_, State.bitOf_sysFault_reportDouble _ _,
      State.rd_sysFaultLast_reportDouble _ _⟩
    · rw [State.rd_doubleCnt_reportDouble, rd_advance s t (memFields_double_apart mem).1]
    · rw [State.rd_reportDouble _ _ (by simp [eccNotes]) (by decide), State.rd_noteEcc_double]; rfl
  case doubleStops =>
    intro t mem addr p s hrun
    have hrun' : ((s.advance t).reportDouble ⟨mem, addr, true, [p]⟩).rd F.CP_STATUS_STATE p ≠ 0 := by
      rwa [State.rd_cpState_reportDouble, rd_advance s t (by decide)]
    exact ⟨_, execScrub_double_singleton t mem addr p s, State.rd_partStop_state _ 11 hrun', State.rd_partStop_cause _ 11 hrun'⟩
  case poll => exact fun t x s => ⟨_, rfl, s.takeTelemetry_shows t x⟩
  case alert => exact fun t x s => ⟨_, rfl, s.takeTelemetry_shows t x⟩
  case life =>
    intro t hour tjAvg mvAvg s h
    refine ⟨_, rfl, ?_, State.rd_wr_word _ mvAvg (by decide) 0, ?_⟩
    · rw [State.rd_wr_field _ (by decide), State.rd_wr_word _ _ (by decide)]
    · rw [State.rd_wr_field _ (by decide), State.rd_wr_field _ (by decide), s.rd_lifeHours_when t hour h]

end Sys2Proof.Machine
end

section
/-! PROOFS.  The rate of the Warp and its slew (02 R34, R35, R37): the clamp, what the slew adds, and how the Warp's movement absorbs the offset. -/

namespace Sys2Proof.Machine

open Sys2Proof

/-! ### Numbers -/

/-- An integer that fits the width is read back from its two's complement. -/
theorem toSigned_ofSigned {w : Nat} {x : Int} (hw : 0 < w) (hlo : -2 ^ (w - 1) ≤ x) (hhi : x < 2 ^ (w - 1)) : toSigned w (ofSigned w x) = x := by
  obtain ⟨k, rfl⟩ : ∃ k, w = k + 1 := ⟨w - 1, by omega⟩
  have hpow : ((2 ^ (k + 1) : Nat) : Int) = 2 * 2 ^ k := by push_cast; ring
  have hpow' : (2 ^ (k + 1) : Nat) = 2 * 2 ^ k := by ring
  have hcast : ((2 ^ k : Nat) : Int) = 2 ^ k := by push_cast; rfl
  simp only [toSigned, ofSigned, Nat.add_sub_cancel] at *
  rw [hpow, hpow']
  rw [← hcast] at *
  generalize (2 ^ k : Nat) = m at *
  have hmod : x % (2 * (m : Int)) = if 0 ≤ x then x else x + 2 * m := by
    split
    · exact Int.emod_eq_of_lt (by omega) (by omega)
    · rw [← Int.add_emod_right]; exact Int.emod_eq_of_lt (by omega) (by omega)
  rw [hmod, Nat.mod_eq_of_lt (by split <;> omega)]
  split <;> split <;> omega

theorem ofSigned_lt (w : Nat) (x : Int) : ofSigned w x < 2 ^ w := by
  have hpos : (0 : Int) < (2 ^ w : Nat) := by exact_mod_cast Nat.two_pow_pos w
  have h0 := Int.emod_nonneg x hpos.ne'
  have h1 := Int.emod_lt_of_pos x hpos
  simp only [ofSigned]
  omega

/-- A number of 32 bits of two's complement. -/
theorem toSigned_32_range (v : Nat) : -2 ^ 31 ≤ toSigned 32 v ∧ toSigned 32 v < 2 ^ 31 := by
  simp only [toSigned]
  split <;> omega

/-- A field that an integer was written to reads as that integer where it fits. -/
theorem State.rdI_wrI_same (s : State) {f : Fld} {x : Int} (hw : 0 < f.width) (hlo : -2 ^ (f.width - 1) ≤ x) (hhi : x < 2 ^ (f.width - 1)) (i : Nat) :
    (s.wrI f x i).rdI f i = x := by
  rw [State.rdI, State.rd_wrI_same, Nat.mod_eq_of_lt (ofSigned_lt _ _), toSigned_ofSigned hw hlo hhi]

theorem State.rdI_congr {s u : State} {f : Fld} {i : Nat} (h : u.rd f i = s.rd f i) : u.rdI f i = s.rdI f i := congrArg (toSigned f.width) h

theorem clampInt_eq {lo hi : Int} (h : lo ≤ hi) (x : Int) : clampInt lo hi x = max lo (min hi x) := by
  simp only [clampInt]
  split
  · omega
  · split <;> omega

theorem clampInt_mono {lo hi x y : Int} (hl : lo ≤ hi) (h : x ≤ y) : clampInt lo hi x ≤ clampInt lo hi y := by
  rw [clampInt_eq hl, clampInt_eq hl]
  omega

@[simp] theorem b2n_mod_two_pow {w : Nat} (hw : 0 < w) (b : Bool) : b2n b % 2 ^ w = b2n b := by
  refine Nat.mod_eq_of_lt (lt_of_lt_of_le ?_ (Nat.pow_le_pow_right (by decide) hw))
  cases b <;> decide

/-! ### Writes of registers that no partition owns (18 R431) -/

/-- Once the device has booted such a write takes effect. -/
theorem State.deviceWrite_of_booted {s : State} (h : s.rd F.HOST_STATUS_BOOTING = 0) (t : Instant) (off : Nat) (f : State → State) :
    (s.advance t).deviceWrite off f = f (s.advance t) := by
  have : (s.advance t).on F.HOST_STATUS_BOOTING = false := by rw [s.on_advance t (by decide)]; simp [State.on, h]
  simp [State.deviceWrite, this]

/-! ### What the slew adds to the rate -/

theorem State.slewRate_congr {s u : State} (hcfg : u.rd F.SLEW_CFG = s.rd F.SLEW_CFG) (hleft : u.warp.slewLeft = s.warp.slewLeft) :
    u.slewRate = s.slewRate := by
  simp only [State.slewRate, hcfg, hleft]

theorem State.slewRate_of_none {s : State} (h : s.warp.slewLeft = 0) : s.slewRate = 0 := by
  simp [State.slewRate, h]

theorem State.slewRate_of_pos {s : State} (h : 0 < s.warp.slewLeft) (h₁ : 1 ≤ s.rd F.SLEW_CFG) (h₅ : s.rd F.SLEW_CFG ≤ 500) :
    s.slewRate = (2 * (s.rd F.SLEW_CFG : Int) * 2 ^ 40 + 1000000) / 2000000 := by
  simp only [State.slewRate]
  rw [if_neg (show ¬(_ ∨ _) by omega), if_neg (by omega), if_neg (by omega)]

theorem State.slewRate_of_neg {s : State} (h : s.warp.slewLeft < 0) (h₁ : 1 ≤ s.rd F.SLEW_CFG) (h₅ : s.rd F.SLEW_CFG ≤ 500) :
    s.slewRate = -((2 * (s.rd F.SLEW_CFG : Int) * 2 ^ 40 + 1000000) / 2000000) := by
  simp only [State.slewRate]
  rw [if_neg (show ¬(_ ∨ _) by omega), if_neg (by omega), if_pos h]

/-- The sign of the slew is that of the offset left. -/
theorem State.slewRate_nonneg {s : State} (h : 0 ≤ s.warp.slewLeft) : 0 ≤ s.slewRate := by
  simp only [State.slewRate]
  split
  · omega
  · rw [if_neg (by omega)]; positivity

theorem State.slewRate_nonpos {s : State} (h : s.warp.slewLeft ≤ 0) : s.slewRate ≤ 0 := by
  simp only [State.slewRate]
  split
  · omega
  · rw [if_pos (by omega), neg_nonpos]; positivity

/-- S is the integer nearest RATE_PPM × 2^40 / 10^6, a tie rounded up. -/
theorem slewMagnitude_nearest (c : Int) :
    2 * (1000000 * ((2 * c * 2 ^ 40 + 1000000) / 2000000) - c * 2 ^ 40) ≤ 1000000 ∧
    -1000000 < 2 * (1000000 * ((2 * c * 2 ^ 40 + 1000000) / 2000000) - c * 2 ^ 40) := by
  omega

/-! ### The effective rate (R34) -/

theorem State.rateSum_congr {s u : State} (hcfg : u.rd F.SLEW_CFG = s.rd F.SLEW_CFG) (hleft : u.warp.slewLeft = s.warp.slewLeft)
    (hadj : u.rd F.RATE_ADJ = s.rd F.RATE_ADJ) : u.rateSum = s.rateSum := by
  simp only [State.rateSum, State.slewRate_congr hcfg hleft, State.rdI_congr hadj]

theorem State.rate_congr {s u : State} (h : u.rateSum = s.rateSum) : u.rate = s.rate := by
  simp only [State.rate, h]

/-- RATE_CLAMPED reads 1 exactly while the clamp acts. -/
def State.clampShown (s : State) : Prop := s.rd F.WARP_STATUS_RATE_CLAMPED = b2n (s.rateSum != s.rate)

/-- The clamp is shown where the flag, the rate and the slew are as in a state that shows it. -/
theorem State.clampShown_congr {s u : State} (hshown : s.clampShown) (hflag : u.rd F.WARP_STATUS_RATE_CLAMPED = s.rd F.WARP_STATUS_RATE_CLAMPED)
    (hcfg : u.rd F.SLEW_CFG = s.rd F.SLEW_CFG) (hleft : u.warp.slewLeft = s.warp.slewLeft) (hadj : u.rd F.RATE_ADJ = s.rd F.RATE_ADJ) : u.clampShown := by
  have hsum := State.rateSum_congr hcfg hleft hadj
  rwa [State.clampShown, hflag, State.rate_congr hsum, hsum]

/-- A write of RATE_CLAMPED with what the clamp does shows it. -/
theorem State.clampShown_wr (s : State) : (s.wr F.WARP_STATUS_RATE_CLAMPED (b2n (s.rateSum != s.rate))).clampShown := by
  have hsum : (s.wr F.WARP_STATUS_RATE_CLAMPED (b2n (s.rateSum != s.rate))).rateSum = s.rateSum :=
    State.rateSum_congr (s.rd_wr_field (by decide) _ _ _) rfl (s.rd_wr_field (by decide) _ _ _)
  rw [State.clampShown, State.rate_congr hsum, hsum, State.rd_wr_same, b2n_mod_two_pow (by decide)]

/-- The slew's part of the rate has the sign of the offset left. -/
theorem State.slewShare_nonneg {s : State} (h : 0 ≤ s.warp.slewLeft) : 0 ≤ s.slewShare := by
  have := clampInt_mono (lo := -rateLimit) (hi := rateLimit) (by decide) (show s.rdI F.RATE_ADJ ≤ s.rateSum by
    have := State.slewRate_nonneg h; simp only [State.rateSum]; omega)
  simp only [State.slewShare, State.rate]
  omega

theorem State.slewShare_nonpos {s : State} (h : s.warp.slewLeft ≤ 0) : s.slewShare ≤ 0 := by
  have := clampInt_mono (lo := -rateLimit) (hi := rateLimit) (by decide) (show s.rateSum ≤ s.rdI F.RATE_ADJ by
    have := State.slewRate_nonpos h; simp only [State.rateSum]; omega)
  simp only [State.slewShare, State.rate]
  omega

/-! ### The offset and the fields that show it (R37) -/

theorem slewNs_mono {a b : Int} (h : a ≤ b) : slewNs a ≤ slewNs b := by
  simp only [slewNs]
  split <;> split <;> omega

@[simp] theorem State.putSlew_slewLeft (s : State) (left : Int) : (s.putSlew left).warp.slewLeft = left := rfl

@[simp] theorem State.putSlew_now (s : State) (left : Int) : (s.putSlew left).now = s.now := rfl

theorem State.rdI_slewNs_putSlew (s : State) {left : Int} (hlo : -2 ^ 31 ≤ slewNs left) (hhi : slewNs left < 2 ^ 31) :
    (s.putSlew left).rdI F.SLEW_NS = slewNs left := by
  rw [← State.rdI_wrI_same { s with warp := { s.warp with slewLeft := left } } (f := F.SLEW_NS) (by decide) hlo hhi 0]
  refine State.rdI_congr ?_
  simp only [State.putSlew]
  rw [State.rd_wr_field _ (by decide), State.rd_wr_field _ (by decide)]

theorem State.rd_slewActive_putSlew (s : State) (left : Int) : (s.putSlew left).rd F.WARP_STATUS_SLEW_ACTIVE = b2n (left != 0) := by
  simp only [State.putSlew]
  rw [State.rd_wr_field _ (by decide), State.rd_wr_same, b2n_mod_two_pow (by decide)]

theorem State.clampShown_putSlew (s : State) (left : Int) : (s.putSlew left).clampShown := State.clampShown_wr _

/-- SLEW_NS and SLEW_ACTIVE show the offset that is left. -/
def State.slewShown (s : State) : Prop :=
  s.rdI F.SLEW_NS = slewNs s.warp.slewLeft ∧ s.rd F.WARP_STATUS_SLEW_ACTIVE = b2n (s.warp.slewLeft != 0)

theorem State.slewShown_putSlew (s : State) {left : Int} (hlo : -2 ^ 31 ≤ slewNs left) (hhi : slewNs left < 2 ^ 31) : (s.putSlew left).slewShown :=
  ⟨s.rdI_slewNs_putSlew hlo hhi, s.rd_slewActive_putSlew left⟩

/-! ### Absorption -/

theorem absorb_of_nonneg {left : Int} (h : 0 ≤ left) (share : Int) (edges : Nat) : absorb left share edges = max 0 (left - 16 * share * edges) := by
  simp only [absorb]
  rw [if_neg (by omega)]

theorem absorb_of_neg {left : Int} (h : left < 0) (share : Int) (edges : Nat) : absorb left share edges = min 0 (left - 16 * share * edges) := by
  simp only [absorb]
  rw [if_pos h]

/-- What the Warp absorbs of an offset leaves one between none and the offset, which its fields can show where they show the offset. -/
theorem State.slewNs_absorb_fits {s : State} (h : s.rdI F.SLEW_NS = slewNs s.warp.slewLeft) (edges : Nat) :
    -2 ^ 31 ≤ slewNs (absorb s.warp.slewLeft s.slewShare edges) ∧ slewNs (absorb s.warp.slewLeft s.slewShare edges) < 2 ^ 31 := by
  obtain ⟨hlo, hhi⟩ : -2 ^ 31 ≤ s.rdI F.SLEW_NS ∧ s.rdI F.SLEW_NS < 2 ^ 31 := toSigned_32_range _
  rw [h] at hlo hhi
  rcases lt_or_ge s.warp.slewLeft 0 with hneg | hpos
  · have hused : 16 * s.slewShare * edges ≤ 0 := mul_nonpos_of_nonpos_of_nonneg (by have := State.slewShare_nonpos hneg.le; omega) (by positivity)
    rw [absorb_of_neg hneg]
    have h₁ := slewNs_mono (show s.warp.slewLeft ≤ min 0 (s.warp.slewLeft - 16 * s.slewShare * edges) by omega)
    have h₂ : slewNs (min 0 (s.warp.slewLeft - 16 * s.slewShare * edges)) ≤ 0 := slewNs_mono (min_le_left _ _)
    omega
  · have hused : 0 ≤ 16 * s.slewShare * edges := mul_nonneg (by have := State.slewShare_nonneg hpos; omega) (by positivity)
    rw [absorb_of_nonneg hpos]
    have h₁ := slewNs_mono (show max 0 (s.warp.slewLeft - 16 * s.slewShare * edges) ≤ s.warp.slewLeft by omega)
    have h₂ : 0 ≤ slewNs (max 0 (s.warp.slewLeft - 16 * s.slewShare * edges)) := slewNs_mono (a := 0) (le_max_left _ _)
    omega

/-- The Warp's movement either leaves the registers and the offset or stores what it absorbs of the offset. -/
theorem State.advance_cases (s : State) (t : Instant) :
    ((s.advance t).regs = s.regs ∧ (s.advance t).warp.slewLeft = s.warp.slewLeft) ∨
    ∃ (u : State) (edges : Nat), s.advance t = u.putSlew (absorb s.warp.slewLeft s.slewShare edges) := by
  unfold State.advance
  split
  · dsimp only
    split
    · exact .inl ⟨rfl, rfl⟩
    · split
      · exact .inl ⟨rfl, rfl⟩
      · exact .inr ⟨_, _, rfl⟩
  · exact .inl ⟨rfl, rfl⟩

theorem State.slewShown_advance {s : State} (h : s.slewShown) (t : Instant) : (s.advance t).slewShown := by
  obtain ⟨hns, hactive⟩ := h
  rcases s.advance_cases t with ⟨hregs, hleft⟩ | ⟨u, edges, hu⟩
  · exact ⟨by rw [hleft, State.rdI_congr (State.rd_congr hregs _ _), hns], by rw [hleft, State.rd_congr hregs, hactive]⟩
  · obtain ⟨hlo, hhi⟩ := State.slewNs_absorb_fits hns edges
    rw [hu]
    exact u.slewShown_putSlew hlo hhi

theorem State.clampShown_advance {s : State} (h : s.clampShown) (t : Instant) : (s.advance t).clampShown := by
  rcases s.advance_cases t with ⟨hregs, hleft⟩ | ⟨u, edges, hu⟩
  · exact State.clampShown_congr h (State.rd_congr hregs _ _) (State.rd_congr hregs _ _) hleft (State.rd_congr hregs _ _)
  · rw [hu]
    exact u.clampShown_putSlew _

/-- A fine edge of the Warp clock takes from the offset what the slew adds at it. -/
theorem State.slewLeft_warpEdge {s : State} (h : s.rd F.WARP_STATUS_COARSE = 0) :
    s.warpEdge.warp.slewLeft = absorb s.warp.slewLeft s.slewShare 1 := by
  have hfine : s.on F.WARP_STATUS_COARSE = false := by simp [State.on, h]
  simp only [State.warpEdge, hfine, Bool.false_eq_true, if_false, State.fineEdge]
  split
  · rename_i hnone
    have hzero : s.warp.slewLeft = 0 := hnone
    have hshare : s.slewShare = 0 := le_antisymm (State.slewShare_nonpos hzero.le) (State.slewShare_nonneg hzero.ge)
    simp [absorb, hzero, hshare, State.windowGrows]
  · rfl

/-! ### SLEW_NS in whole nanoseconds -/

/-- An offset of whole nanoseconds shows as itself. -/
theorem slewNs_whole (n : Int) : slewNs (n * (16 * 2 ^ 40)) = n := by
  simp only [slewNs]
  split <;> omega

theorem slewNs_of_pos {left : Int} (h : 0 < left) : left ≤ 16 * 2 ^ 40 * slewNs left ∧ 16 * 2 ^ 40 * (slewNs left - 1) < left := by
  simp only [slewNs]
  rw [if_neg (by omega)]
  omega

theorem slewNs_of_neg {left : Int} (h : left < 0) : 16 * 2 ^ 40 * slewNs left ≤ left ∧ left < 16 * 2 ^ 40 * (slewNs left + 1) := by
  simp only [slewNs]
  rw [if_pos h]
  omega

/-- An offset within the whole nanoseconds of 32 bits shows. -/
theorem slewNs_fits {left : Int} (hlo : -2 ^ 31 * (16 * 2 ^ 40) ≤ left) (hhi : left ≤ (2 ^ 31 - 1) * (16 * 2 ^ 40)) :
    -2 ^ 31 ≤ slewNs left ∧ slewNs left < 2 ^ 31 := by
  have h₁ := slewNs_mono hlo
  have h₂ := slewNs_mono hhi
  rw [slewNs_whole] at h₁ h₂
  omega

/-- What a write of SLEW_NS leaves. -/
theorem execSlewNsWrite_booted (t : Instant) (offset : Word) {s : State} (h : s.rd F.HOST_STATUS_BOOTING = 0) :
    execSlewNsWrite t offset s = .next ((s.advance t).putSlew (offset.toInt * (16 * 2 ^ 40))) := by
  rw [execSlewNsWrite, State.deviceWrite_of_booted h]

/-- The offset written shows, and is active unless it is 0. -/
theorem State.slewShown_written (s : State) (offset : Word) :
    (s.putSlew (offset.toInt * (16 * 2 ^ 40))).rdI F.SLEW_NS = offset.toInt ∧
    (s.putSlew (offset.toInt * (16 * 2 ^ 40))).rd F.WARP_STATUS_SLEW_ACTIVE = b2n (offset != 0) := by
  have hlo : -2 ^ 31 ≤ offset.toInt := offset.le_toInt
  have hhi : offset.toInt < 2 ^ 31 := offset.toInt_lt
  constructor
  · have hns := slewNs_whole offset.toInt
    rw [s.rdI_slewNs_putSlew (by rwa [hns]) (by rwa [hns]), hns]
  · have hzero : offset.toInt * (16 * 2 ^ 40) ≠ 0 ↔ offset ≠ 0 := by
      rw [Ne, Ne, ← BitVec.toInt_inj, show (0 : Word).toInt = 0 from rfl]
      omega
    rw [s.rd_slewActive_putSlew, Bool.eq_iff_iff.mpr (bne_iff_ne.trans (hzero.trans bne_iff_ne.symm))]

/-- The slew ends at the edge that absorbs what is left. -/
theorem execSlewEnd_absorbed {t : Instant} {s : State} (h : absorb (s.advance t).warp.slewLeft (s.advance t).slewShare 1 = 0) :
    execSlewEnd t s = .next ((s.advance t).absorbTo 0) := by
  simp only [execSlewEnd, h, if_true]

/-- An offset that no one edge absorbs goes on. -/
theorem execSlewEnd_left {t : Instant} {s : State} (h : absorb (s.advance t).warp.slewLeft (s.advance t).slewShare 1 ≠ 0) :
    execSlewEnd t s = .next (s.advance t) := by
  simp only [execSlewEnd, h, if_false]

theorem State.rd_slewNs_absorbTo_none (s : State) : (s.absorbTo 0).rd F.SLEW_NS = 0 := by
  simp only [State.absorbTo, State.putSlew]
  rw [State.rd_wr_field _ (by decide), State.rd_wr_field _ (by decide), State.rd_wrI_same]
  rfl

/-- Settles O12. -/
theorem aSlewFollowsItsOffset : Obligations.ASlewFollowsItsOffset := by
  unfold Obligations.ASlewFollowsItsOffset
  refine ⟨?pos, ?neg, fun s => State.slewRate_of_none, ?hundred, fun s => ⟨rfl, rfl⟩, ?write, ?shownPos, ?shownNeg, ?advance, ?edge, ?ends, ?goesOn⟩
  case pos =>
    intro s h h₁ h₅
    rw [State.slewRate_of_pos h h₁ h₅]
    exact slewMagnitude_nearest _
  case neg =>
    intro s h h₁ h₅
    rw [State.slewRate_of_neg h h₁ h₅, neg_neg]
    exact slewMagnitude_nearest _
  case hundred =>
    intro s h h₁₀₀
    rw [State.slewRate_of_pos h (by omega) (by omega), h₁₀₀]
    rfl
  case write =>
    intro t offset s h
    exact ⟨_, execSlewNsWrite_booted t offset h, rfl, (s.advance t).slewShown_written offset |>.1, (s.advance t).slewShown_written offset |>.2, rfl⟩
  case shownPos =>
    intro left s hpos hhi
    obtain ⟨hfloor, hceil⟩ := slewNs_fits (show -2 ^ 31 * (16 * 2 ^ 40) ≤ left by omega) hhi
    obtain ⟨hge, hlt⟩ := slewNs_of_pos hpos
    rw [s.rdI_slewNs_putSlew hfloor hceil, s.rd_slewActive_putSlew, bne_iff_ne.mpr hpos.ne']
    exact ⟨hge, hlt, rfl⟩
  case shownNeg =>
    intro left s hneg hlo
    obtain ⟨hfloor, hceil⟩ := slewNs_fits (by omega) (show left ≤ (2 ^ 31 - 1) * (16 * 2 ^ 40) by omega)
    obtain ⟨hle, hgt⟩ := slewNs_of_neg hneg
    rw [s.rdI_slewNs_putSlew hfloor hceil, s.rd_slewActive_putSlew, bne_iff_ne.mpr hneg.ne]
    exact ⟨hle, hgt, rfl⟩
  case advance => exact fun t s hns hactive => State.slewShown_advance ⟨hns, hactive⟩ t
  case edge =>
    intro s h
    rw [State.slewLeft_warpEdge h]
    exact ⟨fun hpos => by simpa using absorb_of_nonneg hpos s.slewShare 1, fun hneg => by simpa using absorb_of_neg hneg s.slewShare 1⟩
  case ends =>
    intro t s h
    exact ⟨_, execSlewEnd_absorbed h, rfl, State.rd_slewNs_absorbTo_none _, State.rd_slewActive_putSlew _ 0,
      (rd_absorbTo _ _ (by decide) 0).trans (rd_advance s t (by decide) 0)⟩
  case goesOn => exact fun t s h => ⟨_, execSlewEnd_left h, rfl⟩

end Sys2Proof.Machine
end

section
/-! PROOFS.  Writes that change the effective rate (02 R34). -/

namespace Sys2Proof.Machine

open Sys2Proof

/-- A word register of the WARP block without rows. -/
theorem wordAt_slewCfg : WordAt 0x100018 [⟨F.SLEW_CFG, 0, 9, 0, .rw⟩] 0 := wordAt_of_any (by decide +kernel)

theorem State.rowsAt_slewCfg (s : State) (t : Instant) (v : Word) : (s.rowsAt t 0x100018 v).isNone = true := by
  simp (disch := omega) only [State.rowsAt, State.rows0, State.rows1, rows2, rows3, instOf_eq_none, if_neg, Option.map_none, List.cons_append, List.nil_append,
    List.findSome?_cons, List.findSome?_nil, id_eq, Option.isNone_none]

/-- After a write of SLEW_CFG the offset is shown again, with what the clamp does. -/
theorem State.afterWrite_slewCfg (s : State) : s.afterWrite 0x100018 = s.putSlew s.warp.slewLeft := by
  simp (disch := omega) only [State.afterWrite, instOf_eq_none, if_neg, if_true]

/-- A write of SLEW_CFG takes the rate, and shows what the clamp then does. -/
theorem execRegisterWrite_slewCfg (t : Instant) {q : Requester} (value : Word) {s : State} (h : s.rd F.HOST_STATUS_BOOTING = 0) (hm : s.mayWrite q = true) :
    ∃ w : State, execRegisterWrite t q 0x100018 value 15 s = .next (w.putSlew w.warp.slewLeft) ∧ w.rd F.SLEW_CFG = value.toNat % 2 ^ 9 := by
  obtain ⟨r, hf, hr, he, hfields⟩ := wordAt_slewCfg
  have hbooted : (s.advance t).on F.HOST_STATUS_BOOTING = false := by rw [s.on_advance t (by decide)]; simp [State.on, h]
  have hplain (f : State → State) : (s.advance t).plainWrite 0x100018 f = f (s.advance t) := by
    simp [State.plainWrite, State.coveredGate, hbooted, State.regPartition_none _ (.inl (by decide : 0x100018 < 0x200000))]
  obtain ⟨hrange, hown⟩ := State.no_rule (s.advance t) (off := 0x100018) value.toNat (.inl (by decide))
  refine ⟨(s.advance t).writeFields r.fields 0 value.toNat ((s.advance t).rwlOpen ((s.advance t).rwlOwner 0x100018)), ?_, ?_⟩
  · rw [execRegisterWrite_writeWord (off := 0x100018) hf hr he (State.rowsAt_slewCfg _ t value) rfl hm rfl hplain, ← State.afterWrite_slewCfg]
    exact congrArg _ (State.writeWord_open _ (by rw [RegRow.has, hfields]; rfl) hrange hown (.inr (by rw [RegRow.has, hfields]; rfl)))
  · rw [hfields, State.rd_writeFields_whole _ (b := ⟨F.SLEW_CFG, 0, 9, 0, .rw⟩) (by simp) (by decide) 0 _ (.inl rfl) rfl rfl, Nat.pow_zero, Nat.div_one]

/-- What a write of RATE_ADJ leaves. -/
theorem execRateAdjWrite_booted (t : Instant) (rate : Word) {s : State} (h : s.rd F.HOST_STATUS_BOOTING = 0) :
    ∃ w : State, execRateAdjWrite t rate s = .next (w.wr F.WARP_STATUS_RATE_CLAMPED (b2n (w.rateSum != w.rate))) ∧ w.rdI F.RATE_ADJ = rate.toInt := by
  refine ⟨(s.advance t).wr F.RATE_ADJ rate.toNat, ?_, ?_⟩
  · rw [execRateAdjWrite, State.deviceWrite_of_booted h]
  · rw [State.rdI, State.rd_wr_word _ rate (by decide)]
    exact toSigned_toNat rate (by decide)

/-- Settles O13. -/
theorem theEffectiveRateIsClamped : Obligations.TheEffectiveRateIsClamped := by
  unfold Obligations.TheEffectiveRateIsClamped
  refine ⟨?bounds, ?rateAdj, ?slewNs, ?slewCfg, fun t s h => State.clampShown_advance h t⟩
  case bounds =>
    intro s
    have hrate : s.rate = max (-549755813) (min 549755813 s.rateSum) := clampInt_eq (by decide) _
    omega
  case rateAdj =>
    intro t rate s h
    obtain ⟨w, hu, hadj⟩ := execRateAdjWrite_booted t rate h
    have hadj' : (w.wr F.WARP_STATUS_RATE_CLAMPED (b2n (w.rateSum != w.rate))).rdI F.RATE_ADJ = rate.toInt :=
      (State.rdI_congr (w.rd_wr_field (by decide) _ _ _)).trans hadj
    have hshown := w.clampShown_wr
    refine ⟨_, hu, hadj', ?_, ?_⟩
    · rw [← hadj']; rfl
    · rw [← hadj']; exact hshown
  case slewNs =>
    intro t offset s h
    exact ⟨_, execSlewNsWrite_booted t offset h, State.clampShown_putSlew _ _⟩
  case slewCfg =>
    intro t q value s h hm
    obtain ⟨w, hu, hcfg⟩ := execRegisterWrite_slewCfg t value h hm
    exact ⟨_, hu, (rd_putSlew w _ (by decide) 0).trans hcfg, w.clampShown_putSlew _⟩

end Sys2Proof.Machine
end

section
/-! PROOFS.  Events of the Warp, and its steps (02 R38 to R40). -/

namespace Sys2Proof.Machine

open Sys2Proof

/-! ### Events -/

@[simp] theorem State.event_warp (s : State) (k kind id bit sel res : Nat) (detail : List Byte) : (s.event k kind id bit sel res detail).warp = s.warp :=
  (keeps_event (closed_frame _ s) (Frame.refl _ s) k kind id bit sel res detail).part (p := .warp) rfl

@[simp] theorem State.warpEvent_warp (s : State) (f : Fld) (bit res : Nat) (detail : List Byte) : (s.warpEvent f bit res detail).warp = s.warp :=
  State.event_warp _ _ _ _ _ _ _ _

/-- The event is latched. -/
theorem State.rd_warpEvent_same (s : State) {f : Fld} (hw : 0 < f.width) (hf : Touched.event.has f.id = false) (bit res : Nat) (detail : List Byte) :
    (s.warpEvent f bit res detail).rd f = 1 := by
  rw [State.warpEvent, rd_event _ _ _ _ _ _ _ _ hf, State.rd_wr_same, Nat.mod_eq_of_lt (Nat.one_lt_two_pow hw.ne')]

/-- Nothing beside the event and what its record touches changes. -/
theorem State.rd_warpEvent_other (s : State) {f g : Fld} (hg : (g.id == f.id) = false) (he : Touched.event.has g.id = false) (bit res : Nat) (detail : List Byte) (i : Nat) :
    (s.warpEvent f bit res detail).rd g i = s.rd g i := by
  rw [State.warpEvent, rd_event _ _ _ _ _ _ _ _ he, State.rd_wr_field _ hg]

/-! ### The grounds of a refusal (R38) -/

/-- The write of EPOCH_TAI that comes with GO is no ground of its own. -/
theorem State.stepRefusal_wr_epochTai (s : State) (v : Nat) : (s.wr F.STEP_CTRL_EPOCH_TAI v).stepRefusal = s.stepRefusal := by
  have hrd {f : Fld} (hf : (f.id == F.STEP_CTRL_EPOCH_TAI.id) = false) (i : Nat) : (s.wr F.STEP_CTRL_EPOCH_TAI v).rd f i = s.rd f i := s.rd_wr_field hf v 0 i
  have hrun : (s.wr F.STEP_CTRL_EPOCH_TAI v).partRunning = s.partRunning := by
    funext p
    simp only [State.partRunning, State.owned, State.quadRecs, State.wr_loom, State.on, hrd (f := F.CP_STATUS_STATE) (by decide),
      hrd (f := F.TR_STATUS_STATE) (by decide), hrd (f := F.LC_CTRL_ENABLE) (by decide), hrd (f := F.AX_CTRL_ENABLE) (by decide)]
  simp only [State.stepRefusal, hrun, State.on, State.rdT, State.now, State.wr_warp, hrd (f := F.CP_STATUS_STATE) (by decide),
    hrd (f := F.TD_STATUS_WARP_SYNC) (by decide), hrd (f := F.STEP_TO) (by decide)]
  rfl

/-- RESULT of a refused step is one of R38's codes. -/
theorem State.stepRefusal_le (s : State) : s.stepRefusal ≤ 4 := by
  simp only [State.stepRefusal]
  split_ifs <;> omega

/-- Each code is that of its ground, where no earlier one holds. -/
theorem State.stepRefusal_iff (s : State) :
    (s.stepRefusal = 1 ↔ ∃ p ∈ List.range 16, s.rd F.CP_STATUS_STATE p = 1) ∧
    (s.stepRefusal = 2 ↔ (∀ p ∈ List.range 16, s.rd F.CP_STATUS_STATE p ≠ 1) ∧ ∃ p ∈ List.range 16, s.partRunning p = true) ∧
    (s.stepRefusal = 3 ↔ (∀ p ∈ List.range 16, s.rd F.CP_STATUS_STATE p ≠ 1) ∧ (∀ p ∈ List.range 16, s.partRunning p = false) ∧
      s.rd F.TD_STATUS_WARP_SYNC ≠ 0) ∧
    (s.stepRefusal = 4 ↔ (∀ p ∈ List.range 16, s.rd F.CP_STATUS_STATE p ≠ 1) ∧ (∀ p ∈ List.range 16, s.partRunning p = false) ∧
      s.rd F.TD_STATUS_WARP_SYNC = 0 ∧ (s.rdT F.STEP_TO).getLsbD 63 ≠ s.now.getLsbD 63) := by
  have hstate : (∀ p ∈ List.range 16, s.rd F.CP_STATUS_STATE p ≠ 1) ↔ ¬∃ p ∈ List.range 16, s.rd F.CP_STATUS_STATE p = 1 := by simp only [not_exists, not_and, Ne]
  have hrunning : (∀ p ∈ List.range 16, s.partRunning p = false) ↔ ¬∃ p ∈ List.range 16, s.partRunning p = true := by
    simp only [not_exists, not_and, Bool.not_eq_true]
  simp only [State.stepRefusal, List.any_eq_true, beq_iff_eq, State.on, bne_iff_ne, hstate, hrunning]
  split_ifs <;> simp_all

/-! ### An accepted step (R40) -/

/-- `State.each` keeps the instant where every application does. -/
theorem State.now_each_of_kept (s : State) {g : State → Nat → State} (h : ∀ u a, (g u a).now = u.now) (l : List Nat) : (s.each l g).now = s.now :=
  keeps_each (I := fun u => u.now = s.now) rfl l g fun u a hu => (h u a).trans hu

/-- The instants of the pins and of the rings move with the count; the count itself has moved before. -/
@[simp] theorem State.shiftGrids_now (s : State) (d : BitVec 64) : (s.shiftGrids d).now = s.now := by
  simp only [State.shiftGrids]
  rw [State.now_each_of_kept]
  · rfl
  · exact fun _ _ => rfl

/-- An armed SYNC_OUT is cancelled. -/
def State.cancelSyncOut (s : State) : State :=
  if s.on F.SYNC_OUT_CFG_ARM then (s.wr F.SYNC_OUT_CFG_ARM 0).warpEvent F.WARP_EVENT_SYNC_LATE 5 else s

@[simp] theorem State.cancelSyncOut_now (s : State) : s.cancelSyncOut.now = s.now := by
  unfold State.cancelSyncOut
  split
  · simp [State.now]
  · rfl

theorem State.rd_arm_cancelSyncOut (s : State) : s.cancelSyncOut.rd F.SYNC_OUT_CFG_ARM = 0 := by
  unfold State.cancelSyncOut
  split
  · rw [State.rd_warpEvent_other _ (by decide) (by decide), State.rd_wr_same, Nat.zero_mod]
  · rename_i h
    simpa [State.on] using h

theorem State.rd_epoch_cancelSyncOut (s : State) : s.cancelSyncOut.rd F.WARP_STATUS_EPOCH = s.rd F.WARP_STATUS_EPOCH := by
  unfold State.cancelSyncOut
  split
  · rw [State.rd_warpEvent_other _ (by decide) (by decide), State.rd_wr_field _ (by decide)]
  · rfl

/-- A step loads the count and the epoch, cancels SYNC_OUT and is recorded. -/
theorem State.stepWarp_eq (s : State) (new : Instant) (epoch : Nat) : ∃ (u : State) (detail : List Byte), u.now = new ∧
    s.stepWarp new epoch = (((u.wr F.WARP_STATUS_EPOCH epoch).shiftGrids (new - s.now)).cancelSyncOut).warpEvent F.WARP_EVENT_STEP_DONE 3 0 detail :=
  ⟨{ s with warp := { s.warp with now := new, removed := s.warp.removed + sinceS new s.now * 2 ^ 40 } }, _, rfl, rfl⟩

theorem State.stepWarp_now (s : State) (new : Instant) (epoch : Nat) : (s.stepWarp new epoch).now = new := by
  obtain ⟨u, detail, hnow, hu⟩ := s.stepWarp_eq new epoch
  rw [hu, State.now, State.warpEvent_warp, ← State.now, State.cancelSyncOut_now, State.shiftGrids_now]
  exact hnow

theorem State.rd_epoch_stepWarp (s : State) (new : Instant) (epoch : Nat) : (s.stepWarp new epoch).rd F.WARP_STATUS_EPOCH = epoch % 2 := by
  obtain ⟨u, detail, -, hu⟩ := s.stepWarp_eq new epoch
  rw [hu, State.rd_warpEvent_other _ (by decide) (by decide), State.rd_epoch_cancelSyncOut, rd_shiftGrids _ _ (by decide), State.rd_wr_same]
  rfl

theorem State.rd_arm_stepWarp (s : State) (new : Instant) (epoch : Nat) : (s.stepWarp new epoch).rd F.SYNC_OUT_CFG_ARM = 0 := by
  obtain ⟨u, detail, -, hu⟩ := s.stepWarp_eq new epoch
  rw [hu, State.rd_warpEvent_other _ (by decide) (by decide), State.rd_arm_cancelSyncOut]

theorem State.rd_stepDone_stepWarp (s : State) (new : Instant) (epoch : Nat) : (s.stepWarp new epoch).rd F.WARP_EVENT_STEP_DONE = 1 := by
  obtain ⟨u, detail, -, hu⟩ := s.stepWarp_eq new epoch
  rw [hu, State.rd_warpEvent_same _ (by decide) (by decide)]

/-! ### A write of STEP_CTRL with GO -/

/-- What such a write does: the step, or its refusal, after EPOCH_TAI took its bit. -/
theorem execStepGo_go (t : Instant) {value : Word} {s : State} (h : s.rd F.HOST_STATUS_BOOTING = 0) (hgo : value.getLsbD 0 = true) :
    execStepGo t value s = .next (if (s.advance t).stepRefusal = 0 then ((s.advance t).wr F.STEP_CTRL_EPOCH_TAI (b2n (value.getLsbD 1))).doStep
      else (((s.advance t).wr F.STEP_CTRL_EPOCH_TAI (b2n (value.getLsbD 1))).wr F.STEP_CTRL_RESULT (s.advance t).stepRefusal).warpEvent
        F.WARP_EVENT_STEP_REFUSED 4 (s.advance t).stepRefusal) := by
  rw [execStepGo, State.deviceWrite_of_booted h]
  simp only [hgo, if_true, State.stepRefusal_wr_epochTai]

/-- Settles O14. -/
theorem warpStepsOrRefuses : Obligations.WarpStepsOrRefuses := by
  unfold Obligations.WarpStepsOrRefuses
  refine ⟨?accepted, ?refused, State.stepRefusal_iff⟩
  case accepted =>
    intro t value s h hgo hnone
    refine ⟨_, (execStepGo_go t h hgo).trans (congrArg _ (if_pos hnone)), ?_, ?_, ?_, State.rd_arm_stepWarp _ _ _, State.rd_stepDone_stepWarp _ _ _⟩
    · rw [State.doStep, rd_stepWarp _ _ _ (by decide), State.rd_wr_same, Nat.zero_mod]
    · rw [State.doStep, State.stepWarp_now, State.rdT, State.rdT, State.rd_wr_field _ (by decide), rd_advance s t (by decide)]
    · rw [State.doStep, State.rd_epoch_stepWarp, State.rd_wr_same]
      cases value.getLsbD 1 <;> rfl
  case refused =>
    intro t value s h hgo hground
    refine ⟨_, (execStepGo_go t h hgo).trans (congrArg _ (if_neg hground)), ?_, by simp [State.now], ?_,
      State.rd_warpEvent_same _ (by decide) (by decide) _ _ _⟩
    · rw [State.rd_warpEvent_other _ (by decide) (by decide), State.rd_wr_same, Nat.mod_eq_of_lt (lt_of_le_of_lt (State.stepRefusal_le _) (by decide))]
    · rw [State.rd_warpEvent_other _ (by decide) (by decide), State.rd_wr_field _ (by decide), State.rd_wr_field _ (by decide), rd_advance s t (by decide)]

end Sys2Proof.Machine
end

section
/-! PROOFS.  Monitors, holdover and faults of the Warp (02 R41 to R44; 01 R26). -/

namespace Sys2Proof.Machine

open Sys2Proof

/-! ### Faults that hold FAULT_N asserted -/

@[simp] theorem State.sysFault_warp (s : State) (cls what : Nat) : (s.sysFault cls what).warp = s.warp :=
  (keeps_sysFault (closed_frame _ s) (Frame.refl _ s) cls what).part (p := .warp) rfl

@[simp] theorem State.stopAll_warp (s : State) (cause : Nat) : (s.stopAll cause).warp = s.warp :=
  (keeps_stopAll (closed_frame _ s) (Frame.refl _ s) cause).part (p := .warp) rfl

@[simp] theorem State.faultHandover_warp (s : State) : s.faultHandover.warp = s.warp :=
  (keeps_faultHandover (closed_frame _ s) (Frame.refl _ s)).part (p := .warp) rfl

theorem State.devFault_faultN (s : State) (cause : Nat) : (s.devFault cause).warp.faultN = true := by
  simp only [State.devFault]
  split
  · rw [State.event_warp]
  · rw [State.faultHandover_warp, State.event_warp]

/-- A device fault is latched under its cause. -/
theorem State.bitOf_devFault (s : State) {cause : Nat} (h : cause < F.SYS_DEVFAULT.width) : bitOf ((s.devFault cause).rd F.SYS_DEVFAULT) cause = true := by
  have hevent (u : State) : (u.event sysStream 0 0 cause 1).rd F.SYS_DEVFAULT = u.rd F.SYS_DEVFAULT := rd_event _ _ _ _ _ _ _ _ (by decide) 0
  simp only [State.devFault]
  split
  · rw [hevent]
    exact bitOf_rd_setBit s _ h 0
  · rw [rd_faultHandover _ (by decide), hevent]
    exact bitOf_rd_setBit s _ h 0

/-- A fault of the Warp (class 12): latched with its cause, FAULT_N asserted; that every partition stops leaves that so. -/
theorem State.warpFault_shown (s : State) {cause : Nat} (h : cause < F.SYS_DEVFAULT.width) :
    bitOf ((((s.sysFault 12).devFault cause).stopAll 7).rd F.SYS_FAULT) 12 = true ∧
    (((s.sysFault 12).devFault cause).stopAll 7).rd F.SYS_FAULT_LAST = 12 ∧
    bitOf ((((s.sysFault 12).devFault cause).stopAll 7).rd F.SYS_DEVFAULT) cause = true ∧
    (((s.sysFault 12).devFault cause).stopAll 7).warp.faultN = true := by
  refine ⟨?_, ?_, ?_, ?_⟩
  · rw [rd_stopAll _ _ (by decide), rd_devFault _ _ (by decide)]
    exact State.bitOf_sysFault s (by decide) 0
  · rw [rd_stopAll _ _ (by decide), rd_devFault _ _ (by decide), State.rd_sysFault_last]
    rfl
  · rw [rd_stopAll _ _ (by decide)]
    exact State.bitOf_devFault _ h
  · rw [State.stopAll_warp]
    exact State.devFault_faultN _ _

/-! ### Holdover -/

@[simp] theorem State.enterHoldover_warp (s : State) : s.enterHoldover.warp = s.warp :=
  (keeps_enterHoldover (closed_frame _ s) (Frame.refl _ s)).part (p := .warp) rfl

theorem State.on_enterHoldover (s : State) : s.enterHoldover.on F.WARP_STATUS_HOLDOVER = true := by
  unfold State.enterHoldover
  split
  · assumption
  · rw [State.on, State.rd_wr_field _ (by decide), State.rd_wr_same]
    rfl

/-- The Warp's movement goes on with the relock interval. -/
@[simp] theorem State.advance_relockFrom (s : State) (t : Instant) : (s.advance t).warp.relockFrom = s.warp.relockFrom := by
  unfold State.advance
  split
  · dsimp only
    split
    · rfl
    · split <;> rfl
  · rfl

/-- The relock interval set. -/
def State.setRelock (s : State) (since : Option Instant) : State := { s with warp := { s.warp with relockFrom := since } }

@[simp] theorem State.rd_setRelock (s : State) (since : Option Instant) (f : Fld) (i : Nat) : (s.setRelock since).rd f i = s.rd f i := State.rd_congr rfl f i

/-! ### The reference window (R41) -/

/-- What the end of a reference window does beyond 2,000: the event, a fault of class 13 and holdover. -/
def State.judgeRef (s : State) (e : Int) : State :=
  if 2000 < e.natAbs then ((s.warpEvent F.WARP_EVENT_REF_FREQ 1).sysFault 13).enterHoldover else s

/-- In holdover a window beyond 1,600 restarts the relock interval. -/
def State.restartRelock (s : State) (e : Int) : State :=
  if s.on F.WARP_STATUS_HOLDOVER && decide (1600 < e.natAbs) then s.setRelock (some s.now) else s

/-- What the end of a reference window publishes. -/
def State.publishRef (s : State) (e : Int) : State := (s.wrI F.WARP_REF_MON_FREQ_ERR e).wr F.WARP_STATUS_REF_OK (b2n (e.natAbs ≤ 2000))

theorem execRefWindowEnd_eq (t : Instant) (n : Word) (s : State) :
    execRefWindowEnd t n s =
      .next ((((s.advance t).publishRef (monitorErr n.toNat)).judgeRef (monitorErr n.toNat)).restartRelock (monitorErr n.toNat)) := rfl

@[simp] theorem State.restartRelock_regs (s : State) (e : Int) : (s.restartRelock e).regs = s.regs := by
  unfold State.restartRelock
  split <;> rfl

/-- A field that neither a fault nor holdover touches reads the same after the judgement. -/
theorem State.rd_judgeRef_other (s : State) (e : Int) {g : Fld} (hg : (g.id == F.WARP_EVENT_REF_FREQ.id) = false) (hevent : Touched.event.has g.id = false)
    (hfault : Touched.sysFault.has g.id = false) (hhold : Touched.enterHoldover.has g.id = false) (i : Nat) : (s.judgeRef e).rd g i = s.rd g i := by
  unfold State.judgeRef
  split
  · rw [rd_enterHoldover _ hhold, rd_sysFault _ _ _ hfault, State.rd_warpEvent_other _ hg hevent]
  · rfl

theorem State.rd_refFreq_judgeRef (s : State) {e : Int} (h : 2000 < e.natAbs) : (s.judgeRef e).rd F.WARP_EVENT_REF_FREQ = 1 := by
  rw [State.judgeRef, if_pos h, rd_enterHoldover _ (by decide), rd_sysFault _ _ _ (by decide), State.rd_warpEvent_same _ (by decide) (by decide)]

theorem State.on_holdover_judgeRef (s : State) {e : Int} (h : 2000 < e.natAbs) : (s.judgeRef e).on F.WARP_STATUS_HOLDOVER = true := by
  rw [State.judgeRef, if_pos h, State.on_enterHoldover]

theorem State.judgeRef_within (s : State) {e : Int} (h : e.natAbs ≤ 2000) : s.judgeRef e = s := by
  rw [State.judgeRef, if_neg (by omega)]

theorem State.restartRelock_beyond {s : State} {e : Int} (hon : s.on F.WARP_STATUS_HOLDOVER = true) (h : 1600 < e.natAbs) :
    (s.restartRelock e).warp.relockFrom = some (s.restartRelock e).now := by
  rw [State.restartRelock, if_pos (by simp [hon, h])]
  rfl

theorem State.rdI_freqErr_publishRef (s : State) (e : Int) : (s.publishRef e).rdI F.WARP_REF_MON_FREQ_ERR = toSigned 16 (ofSigned 16 e) := by
  rw [State.rdI, State.publishRef, State.rd_wr_field _ (by decide), State.rd_wrI_same, Nat.mod_eq_of_lt (ofSigned_lt _ _)]
  rfl

theorem State.rd_refOk_publishRef (s : State) (e : Int) : (s.publishRef e).rd F.WARP_STATUS_REF_OK = b2n (decide (e.natAbs ≤ 2000)) := by
  rw [State.publishRef, State.rd_wr_same, b2n_mod_two_pow (by decide)]

theorem State.rd_holdover_publishRef (s : State) (e : Int) : (s.publishRef e).rd F.WARP_STATUS_HOLDOVER = s.rd F.WARP_STATUS_HOLDOVER := by
  rw [State.publishRef, State.rd_wr_field _ (by decide), State.rd_wrI_field _ _ _ _ (by decide)]

/-! ### The Warp-clock window (R41, R44) -/

/-- Whether a Warp-clock window is judged a fault is what HOLDOVER read before it. -/
theorem State.on_holdover_warpErr (s : State) (t : Instant) (e : Int) :
    ((s.advance t).wrI F.WARP_REF_MON_WARP_ERR e).on F.WARP_STATUS_HOLDOVER = s.on F.WARP_STATUS_HOLDOVER := by
  rw [State.on, State.rd_wrI_field _ _ _ _ (by decide), rd_advance s t (by decide), State.on]

theorem execWarpWindowEnd_within {t : Instant} {m : Word} {s : State} (h : s.rd F.WARP_STATUS_HOLDOVER = 0 ∨ (monitorErr m.toNat).natAbs ≤ 5000) :
    execWarpWindowEnd t m s = .next ((s.advance t).wrI F.WARP_REF_MON_WARP_ERR (monitorErr m.toNat)) := by
  have : (s.on F.WARP_STATUS_HOLDOVER && decide (5000 < (monitorErr m.toNat).natAbs)) = false := by
    rcases h with h | h
    · simp [State.on, h]
    · simp [h]
  simp only [execWarpWindowEnd, State.on_holdover_warpErr, this, Bool.false_eq_true, if_false]

theorem execWarpWindowEnd_beyond {t : Instant} {m : Word} {s : State} (hon : s.rd F.WARP_STATUS_HOLDOVER ≠ 0) (h : 5000 < (monitorErr m.toNat).natAbs) :
    execWarpWindowEnd t m s = .next (((((s.advance t).wrI F.WARP_REF_MON_WARP_ERR (monitorErr m.toNat)).sysFault 12).devFault 2).stopAll 7) := by
  have : (s.on F.WARP_STATUS_HOLDOVER && decide (5000 < (monitorErr m.toNat).natAbs)) = true := by simp [State.on, hon, h]
  simp only [execWarpWindowEnd, State.on_holdover_warpErr, this, if_true]

/-! ### REFCLK (R41 to R43) -/

/-- A loss sets its event and starts holdover, in which no relock interval runs. -/
theorem execRefLost_eq (t : Instant) (s : State) :
    execRefLost t s = .next (((((s.advance t).warpEvent F.WARP_EVENT_REF_LOST 0).wr F.WARP_STATUS_REF_OK 0).enterHoldover).setRelock none) := rfl

theorem execRefclkReturn_lost {t : Instant} {s : State} (hon : s.rd F.WARP_STATUS_HOLDOVER ≠ 0) (h : s.warp.relockFrom = none) :
    execRefclkReturn t s = .next ((s.advance t).setRelock (some (s.advance t).now)) := by
  have : (s.advance t).on F.WARP_STATUS_HOLDOVER = true := by rw [s.on_advance t (by decide)]; simpa [State.on] using hon
  simp [execRefclkReturn, State.setRelock, this, h]

/-- Holdover ended. -/
def State.leaveHoldover (s : State) : State :=
  ((s.setRelock none |>.wr F.WARP_STATUS_HOLDOVER 0).wr F.WARP_STATUS_LOCKED 1).warpEvent F.WARP_EVENT_HOLDOVER_EXIT 2

theorem execHoldoverExit_relocked {t since : Instant} {s : State} (hon : s.rd F.WARP_STATUS_HOLDOVER ≠ 0) (h : s.warp.relockFrom = some since)
    (hgood : (s.rd F.HOLDOVER_CFG : Int) * 1000000 ≤ sinceNs (s.advance t).now since) : execHoldoverExit t s = .next (s.advance t).leaveHoldover := by
  have : (s.advance t).on F.WARP_STATUS_HOLDOVER = true := by rw [s.on_advance t (by decide)]; simpa [State.on] using hon
  simp only [execHoldoverExit, State.advance_relockFrom, h, this, rd_advance s t (fld := F.HOLDOVER_CFG) (by decide), hgood, decide_true, Bool.and_self, if_true]
  rfl

theorem State.leaveHoldover_shown (s : State) : s.leaveHoldover.rd F.WARP_STATUS_HOLDOVER = 0 ∧ s.leaveHoldover.rd F.WARP_STATUS_LOCKED = 1 ∧
    s.leaveHoldover.rd F.WARP_EVENT_HOLDOVER_EXIT = 1 ∧ s.leaveHoldover.now = s.now := by
  unfold State.leaveHoldover
  refine ⟨?_, ?_, State.rd_warpEvent_same _ (by decide) (by decide) _ _ _, by simp [State.now, State.setRelock]⟩
  · rw [State.rd_warpEvent_other _ (by decide) (by decide), State.rd_wr_field _ (by decide), State.rd_wr_same, Nat.zero_mod]
  · rw [State.rd_warpEvent_other _ (by decide) (by decide), State.rd_wr_same]
    rfl

/-- Settles O15. -/
theorem warpMonitorsAndHoldover : Obligations.WarpMonitorsAndHoldover := by
  unfold Obligations.WarpMonitorsAndHoldover
  refine ⟨?refWindow, fun t m s h => ⟨_, execWarpWindowEnd_within h, rfl⟩, fun t m s hon h => ⟨_, execWarpWindowEnd_beyond hon h, State.warpFault_shown _ (by decide)⟩,
    fun t s => ⟨_, rfl, State.warpFault_shown _ (by decide)⟩, ?refLost, fun t s hon h => ⟨_, execRefclkReturn_lost hon h, rfl⟩,
    fun t s since hon h hgood => ⟨_, execHoldoverExit_relocked hon h hgood, State.leaveHoldover_shown _⟩, fun t s => ⟨_, rfl, rfl⟩⟩
  case refWindow =>
    intro t n s _
    refine ⟨_, execRefWindowEnd_eq t n s, ?_, ?_, fun h => ⟨?_, ?_, State.restartRelock_beyond (State.on_holdover_judgeRef _ h) (by omega)⟩, fun h => ?_⟩
    · rw [State.rdI_congr (State.rd_congr (State.restartRelock_regs _ _) _ _), State.rdI_congr (State.rd_judgeRef_other _ _ (by decide) (by decide) (by decide) (by decide) _),
        State.rdI_freqErr_publishRef]
    · rw [State.rd_congr (State.restartRelock_regs _ _), State.rd_judgeRef_other _ _ (by decide) (by decide) (by decide) (by decide), State.rd_refOk_publishRef]
    · rw [State.rd_congr (State.restartRelock_regs _ _), State.rd_refFreq_judgeRef _ h]
    · rw [State.on, State.rd_congr (State.restartRelock_regs _ _)]
      exact State.on_holdover_judgeRef _ h
    · rw [State.rd_congr (State.restartRelock_regs _ _), State.judgeRef_within _ h, State.rd_holdover_publishRef, rd_advance s t (by decide)]
  case refLost =>
    intro t s
    refine ⟨_, execRefLost_eq t s, ?_, ?_, ?_, rfl⟩
    · rw [State.rd_setRelock, rd_enterHoldover _ (by decide), State.rd_wr_field _ (by decide), State.rd_warpEvent_same _ (by decide) (by decide)]
    · rw [State.rd_setRelock, rd_enterHoldover _ (by decide), State.rd_wr_same, Nat.zero_mod]
    · rw [State.on, State.rd_setRelock]
      exact State.on_enterHoldover _

end Sys2Proof.Machine
end

section
/-! PROOFS.  SYNC_OUT and the core voltage (02 R52, R57): two statements that fail, each at the edge of what it quantifies over. -/

namespace Sys2Proof.Machine

open Sys2Proof

/-! ### An ARM of SYNC_OUT -/

/-- An ARM at an instant later than SYNC_OUT_AT emits no pulse. -/
theorem execSyncOutArm_late (t : Instant) {value : Word} (armFirst : Bool) {s : State} (h : s.rd F.HOST_STATUS_BOOTING = 0) (harm : value.getLsbD 0 = true)
    (hlate : earlier (s.rdT F.SYNC_OUT_AT) (s.advance t).now = true) :
    ∃ u, execSyncOutArm t value armFirst s = .next u ∧ u.rd F.SYNC_OUT_CFG_ARM = 0 := by
  have hat (w p : Nat) : (((s.advance t).wr F.SYNC_OUT_CFG_WIDTH_NS w).wr F.SYNC_OUT_CFG_POL p).rdT F.SYNC_OUT_AT = s.rdT F.SYNC_OUT_AT := by
    rw [State.rdT, State.rd_wr_field _ (by decide), State.rd_wr_field _ (by decide), rd_advance s t (by decide), State.rdT]
  have hnow (w p : Nat) : (((s.advance t).wr F.SYNC_OUT_CFG_WIDTH_NS w).wr F.SYNC_OUT_CFG_POL p).now = (s.advance t).now := rfl
  rw [execSyncOutArm, State.deviceWrite_of_booted h]
  simp only [harm, hat, hnow, hlate, Bool.true_or, if_true]
  exact ⟨_, rfl, by rw [State.rd_warpEvent_other _ (by decide) (by decide), State.rd_wr_same, Nat.zero_mod]⟩

/-- A booted device whose SYNC_OUT_AT lies half of the count's range from now: by the signed difference of 00 R12 each of the two
instants is earlier than the other. -/
def halfRangeUp : State := up.wr F.SYNC_OUT_AT (2 ^ 63)

/-- Refutes O16: where SYNC_OUT_AT is 2^63 sixteenths from now, now is earlier than it, and it is earlier than now; the model takes the
ARM for late, and the clause of an ARM in time asks for ARM = 1. -/
theorem not_warpPinsAndStamps : ¬ Obligations.WarpPinsAndStamps := by
  unfold Obligations.WarpPinsAndStamps
  rintro ⟨-, -, -, -, -, -, -, hInTime, -⟩
  have hboot : halfRangeUp.rd F.HOST_STATUS_BOOTING = 0 := by decide +kernel
  have hearly : earlier (halfRangeUp.advance 0).now (halfRangeUp.rdT F.SYNC_OUT_AT) = true := by decide +kernel
  have hlate : earlier (halfRangeUp.rdT F.SYNC_OUT_AT) (halfRangeUp.advance 0).now = true := by decide +kernel
  obtain ⟨u, hu, harm, -⟩ := hInTime 0 1 false halfRangeUp hboot rfl (.inl hearly)
  obtain ⟨w, hw, hzero⟩ := execSyncOutArm_late 0 (value := 1) false hboot rfl hlate
  obtain rfl : u = w := Host.Outcome.next.inj (hu.symm.trans hw)
  exact absurd (hzero.symm.trans harm) (by decide)

/-! ### A write of MODE AUTO -/

/-- VDD_CORE commanded is held in the width of CMD_MV. -/
theorem State.rd_cmdMv_setVolt (s : State) (mv : Nat) : (s.setVolt mv).rd F.AVS_STATUS_CMD_MV = mv % 2 ^ F.AVS_STATUS_CMD_MV.width := by
  rw [State.setVolt, State.rd_wr_field _ (by decide), State.rd_wr_same]

/-- A write of MODE AUTO commands the voltage that CMD_MV shows once more, within the width of CMD_MV. -/
theorem execAvsModeWrite_auto (t : Instant) {s : State} (h : s.rd F.HOST_STATUS_BOOTING = 0) :
    ∃ u, execAvsModeWrite t 0 s = .next u ∧ u.rd F.AVS_STATUS_CMD_MV = s.rd F.AVS_STATUS_CMD_MV % 2 ^ F.AVS_STATUS_CMD_MV.width := by
  rw [execAvsModeWrite, State.deviceWrite_of_booted h]
  refine ⟨_, rfl, ?_⟩
  rw [if_pos (by decide), State.holdVolt, State.rd_cmdMv_setVolt, if_neg, State.rd_wr_field _ (by decide), State.rd_wr_field _ (by decide),
    State.rd_wr_field _ (by decide), State.rd_wr_field _ (by decide), State.rd_wr_field _ (by decide), rd_advance s t (by decide)]
  rw [State.rd_wr_field _ (by decide), State.rd_wr_same]
  decide

/-- A booted device in whose register file CMD_MV, a field of 12 bits, holds 5000. -/
def wideVoltUp : State := up.putReg F.AVS_STATUS_CMD_MV.id 0 5000

/-- Refutes O17: the statement speaks of every state, and in one whose CMD_MV holds 5000, more than its 12 bits, a write of MODE AUTO
leaves 5000 mod 4096 there, where the clause asks for the value before. -/
theorem not_coreVoltageController : ¬ Obligations.CoreVoltageController := by
  unfold Obligations.CoreVoltageController
  rintro ⟨-, -, -, -, -, -, -, -, hMode, -⟩
  have hboot : wideVoltUp.rd F.HOST_STATUS_BOOTING = 0 := by decide +kernel
  have hcmd : wideVoltUp.rd F.AVS_STATUS_CMD_MV = 5000 := by decide +kernel
  obtain ⟨u, hu, -, -, hkept⟩ := hMode 0 0 wideVoltUp hboot (by decide)
  obtain ⟨w, hw, hcut⟩ := execAvsModeWrite_auto 0 hboot
  obtain rfl : u = w := Host.Outcome.next.inj (hu.symm.trans hw)
  rw [if_neg (by decide), hcut, hcmd] at hkept
  exact absurd hkept (by decide)

end Sys2Proof.Machine
end

section
/-! PROOFS.  Strobe, result, release and lates of a loop cell (02 R53; 03 R64, R68; 04 R95, R97). -/

namespace Sys2Proof.Machine

open Sys2Proof

/-! ### Loop cells and what leaves them -/

@[simp] theorem State.cell_putCell_same (s : State) (n : Nat) (c : LoopCell) : (s.putCell n c).cell n = c := Tbl.get_set_same _ _ _ _

theorem State.cell_congr {s u : State} (h : u.cells = s.cells) (n : Nat) : u.cell n = s.cell n := by
  simp only [State.cell, h]

@[simp] theorem State.cell_advance (s : State) (t : Instant) (n : Nat) : (s.advance t).cell n = s.cell n :=
  State.cell_congr ((frame_advance s t).part (p := .cells) rfl) n

@[simp] theorem State.noteStale_cells (s : State) (n : Nat) : (s.noteStale n).cells = s.cells :=
  (keeps_noteStale (closed_frame _ s) (Frame.refl _ s) n).part (p := .cells) rfl

@[simp] theorem State.noteStale_warp (s : State) (n : Nat) : (s.noteStale n).warp = s.warp :=
  (keeps_noteStale (closed_frame _ s) (Frame.refl _ s) n).part (p := .warp) rfl

@[simp] theorem State.trySwap_warp (s : State) (n : Nat) : (s.trySwap n).warp = s.warp :=
  (keeps_trySwap (closed_frame _ s) (Frame.refl _ s) n).part (p := .warp) rfl

@[simp] theorem State.noteSlack_cells (s : State) (ns : Int) (kind id : Nat) : (s.noteSlack ns kind id).cells = s.cells :=
  (keeps_noteSlack (closed_frame _ s) (Frame.refl _ s) ns kind id).part (p := .cells) rfl

@[simp] theorem State.releaseChans_cells (s : State) (kind id : Nat) (at_ : Instant) : (s.releaseChans kind id at_).cells = s.cells :=
  (keeps_releaseChans (closed_frame _ s) (Frame.refl _ s) kind id at_).part (p := .cells) rfl

@[simp] theorem State.lateSamples_cells (s : State) (kind id : Nat) (at_ : Instant) : (s.lateSamples kind id at_).cells = s.cells :=
  (keeps_lateSamples (closed_frame _ s) (Frame.refl _ s) kind id at_).part (p := .cells) rfl

@[simp] theorem State.countLate_cells (s : State) (n : Nat) : (s.countLate n).cells = s.cells :=
  (keeps_countLate (closed_frame _ s) (Frame.refl _ s) n).part (p := .cells) rfl

@[simp] theorem State.reportCell_cells (s : State) (n bit res : Nat) (y ym u : Int) : (s.reportCell n bit res y ym u).cells = s.cells :=
  (keeps_reportCell (closed_frame _ s) (Frame.refl _ s) n bit res y ym u).part (p := .cells) rfl

@[simp] theorem State.publish_cells (s : State) (kind id v : Nat) : (s.publish kind id v).cells = s.cells :=
  (keeps_publish (closed_frame _ s) (Frame.refl _ s) kind id v).part (p := .cells) rfl

@[simp] theorem State.settle_cells (s : State) : s.settle.cells = s.cells :=
  (keeps_settle (closed_frame _ s) (Frame.refl _ s)).part (p := .cells) rfl

@[simp] theorem State.countMove_cells (s : State) (n : Nat) : (s.countMove n).cells = s.cells :=
  (keeps_countMove (closed_frame _ s) (Frame.refl _ s) n).part (p := .cells) rfl

@[simp] theorem State.driveLevel_cells (s : State) (pin : Nat) (b : Bool) : (s.driveLevel pin b).cells = s.cells :=
  (keeps_driveLevel (closed_frame _ s) (Frame.refl _ s) pin b).part (p := .cells) rfl

@[simp] theorem State.drivePwm_cells (s : State) (pin period high : Nat) : (s.drivePwm pin period high).cells = s.cells :=
  (keeps_drivePwm (closed_frame _ s) (Frame.refl _ s) pin period high).part (p := .cells) rfl

@[simp] theorem State.ringSend_cells (s : State) (r o : Nat) (bs : List Byte) : (s.ringSend r o bs).cells = s.cells :=
  (keeps_ringSend (closed_frame _ s) (Frame.refl _ s) r o bs).part (p := .cells) rfl

@[simp] theorem State.putCs_cells (s : State) (n : Nat) (cs : Int) : (s.putCs n cs).cells = s.cells := rfl

/-! ### A strobe (R64) -/

/-- The evaluation `l` of cell `n` begun: in flight at once, or latched until its conversion ends. -/
def State.beginEval (s : State) (n : Nat) (l : Latched) : State :=
  match s.rd F.LC_ROUTE_Y_KIND n with
  | 0 =>
    match (s.strobeAin (s.rd F.LC_SRC_Y_ID n)).2 with
    | some q => (s.strobeAin (s.rd F.LC_SRC_Y_ID n)).1.launch n l (ainY q.1)
    | none => (s.strobeAin (s.rd F.LC_SRC_Y_ID n)).1.putCell n { (s.strobeAin (s.rd F.LC_SRC_Y_ID n)).1.cell n with latched := some l, eval := none }
  | 1 => s.launch n l (s.ringY n)
  | _ => s.launch n l (s.rdI F.VR_VALUE (s.rd F.LC_SRC_Y_ID n))

theorem State.strobeAin_cell (s : State) (a n : Nat) : (s.strobeAin a).1.cell n = s.cell n := by
  simp only [State.strobeAin]
  split
  · rfl
  · split <;> rfl

theorem State.strobeAin_now (s : State) (a : Nat) : (s.strobeAin a).1.now = s.now := by
  simp only [State.strobeAin]
  split
  · rfl
  · split <;> rfl

/-- The cell holds the evaluation, evaluated on some input or latched, and the strobe that it was of. -/
theorem State.beginEval_spec (s : State) (n : Nat) (l : Latched) : (s.beginEval n l).now = s.now ∧
    ((s.beginEval n l).cell n).lastStrobe = (s.cell n).lastStrobe ∧
    ((∃ y, ((s.beginEval n l).cell n).eval = some (l.evaluate y)) ∨ ((s.beginEval n l).cell n).latched = some l) := by
  have hlaunch (u : State) (y : Int) : (u.launch n l y).now = u.now ∧ ((u.launch n l y).cell n).lastStrobe = (u.cell n).lastStrobe ∧
      ((u.launch n l y).cell n).eval = some (l.evaluate y) := by
    refine ⟨rfl, ?_, ?_⟩ <;> rw [State.launch, State.cell_putCell_same]
  unfold State.beginEval
  split
  · split
    · obtain ⟨hnow, hstrobe, heval⟩ := hlaunch (s.strobeAin (s.rd F.LC_SRC_Y_ID n)).1 (ainY (‹Nat × Instant›).1)
      exact ⟨hnow.trans (s.strobeAin_now _), by rw [hstrobe, s.strobeAin_cell], .inl ⟨_, heval⟩⟩
    · exact ⟨s.strobeAin_now _, by rw [State.cell_putCell_same, s.strobeAin_cell], .inr (by rw [State.cell_putCell_same])⟩
  · obtain ⟨hnow, hstrobe, heval⟩ := hlaunch s (s.ringY n)
    exact ⟨hnow, hstrobe, .inl ⟨_, heval⟩⟩
  · obtain ⟨hnow, hstrobe, heval⟩ := hlaunch s (s.rdI F.VR_VALUE (s.rd F.LC_SRC_Y_ID n))
    exact ⟨hnow, hstrobe, .inl ⟨_, heval⟩⟩

/-- What precedes the latch of a strobe: a host SWAP that waits, and the staleness of the ring input. -/
def State.beforeLatch (s : State) (n : Nat) : State := (if (s.cell n).swapAsked then s.trySwap n else s).noteStale n

theorem State.beforeLatch_now (s : State) (n : Nat) : (s.beforeLatch n).now = s.now := by
  rw [State.beforeLatch, State.now, State.noteStale_warp]
  split
  · rw [State.trySwap_warp, State.now]
  · rfl

theorem State.rd_latency_beforeLatch (s : State) (n : Nat) : (s.beforeLatch n).rd F.LC_LATENCY n = s.rd F.LC_LATENCY n := by
  rw [State.beforeLatch, rd_noteStale _ _ (by decide)]
  split
  · exact rd_trySwap _ _ (by decide) n
  · rfl

/-- The cell as the strobe now leaves it before its evaluation begins. -/
def State.strobeCell (s : State) (n : Nat) : State :=
  s.putCell n { s.cell n with prevSp := some (s.setPoint n).1, lastStrobe := some s.now, stale := false, uHist := ((s.cell n).inForce :: (s.cell n).uHist).take 64 }

theorem State.strobeCell_now (s : State) (n : Nat) : (s.strobeCell n).now = s.now := rfl

theorem State.rd_strobeCell (s : State) (n : Nat) (f : Fld) (i : Nat) : (s.strobeCell n).rd f i = s.rd f i := State.rd_congr rfl f i

theorem State.lastStrobe_strobeCell (s : State) (n : Nat) : ((s.strobeCell n).cell n).lastStrobe = some s.now := by
  rw [State.strobeCell, State.cell_putCell_same]

/-- An evaluation latched now is of now, and falls due LATENCY later. -/
theorem State.latch_at (s : State) (n : Nat) (sp spDot : Int) : (s.latch n sp spDot).law.at_ = s.now := rfl
theorem State.latch_due (s : State) (n : Nat) (sp spDot : Int) : (s.latch n sp spDot).due = addNs s.now (s.rd F.LC_LATENCY n) := rfl

theorem execLoopStrobe_strobes {t : Instant} {n : Fin 1024} {s : State} (h : (s.advance t).strobesNow n = true) :
    execLoopStrobe t n s = .next ((((s.advance t).beforeLatch n).strobeCell n).beginEval n
      ((((s.advance t).beforeLatch n).strobeCell n).latch n (((s.advance t).beforeLatch n).setPoint n).1 (((s.advance t).beforeLatch n).setPoint n).2)) := by
  simp only [execLoopStrobe, h, if_true]
  rfl

@[simp] theorem Latched.evaluate_at (l : Latched) (y : Int) : (l.evaluate y).at_ = l.law.at_ := rfl
@[simp] theorem Latched.evaluate_due (l : Latched) (y : Int) : (l.evaluate y).due = l.due := rfl
@[simp] theorem Latched.evaluate_ready (l : Latched) (y : Int) : (l.evaluate y).ready = none := rfl

/-- The evaluation of a strobe is of that instant, falls due LATENCY later, and is not ready where it is in flight. -/
theorem execLoopStrobe_begins (t : Instant) (n : Fin 1024) {s : State} (h : (s.advance t).strobesNow n = true) :
    Ends (.loopStrobe t n) s (fun u => (u.cell n).lastStrobe = some (s.advance t).now ∧
      ((u.cell n).eval.any (fun e => e.at_ == u.now && e.due == addNs u.now (s.rd F.LC_LATENCY n) && e.ready == none) ||
        (u.cell n).latched.any (fun l => l.law.at_ == u.now && l.due == addNs u.now (s.rd F.LC_LATENCY n))) = true) := by
  refine ⟨_, execLoopStrobe_strobes h, ?_⟩
  generalize hl : State.latch _ _ _ _ = l
  generalize hx : ((s.advance t).beforeLatch n).strobeCell n = x at hl ⊢
  have hstrobe : (x.cell n).lastStrobe = some (s.advance t).now := by rw [← hx, State.lastStrobe_strobeCell, State.beforeLatch_now]
  have hlatency : x.rd F.LC_LATENCY n = s.rd F.LC_LATENCY n := by
    rw [← hx, State.rd_strobeCell, State.rd_latency_beforeLatch, rd_advance s t (by decide)]
  have hat : l.law.at_ = x.now := by rw [← hl, State.latch_at]
  have hdue : l.due = addNs x.now (s.rd F.LC_LATENCY n) := by rw [← hl, State.latch_due, hlatency]
  obtain ⟨hkept, hlast, hbegun⟩ := x.beginEval_spec n l
  refine ⟨hlast.trans hstrobe, ?_⟩
  rw [hkept]
  rcases hbegun with ⟨y, heval⟩ | hlatched
  · rw [heval, Option.any_some, Latched.evaluate_at, Latched.evaluate_due, Latched.evaluate_ready, hat, hdue]
    simp
  · rw [hlatched, Option.any_some, hat, hdue]
    simp

/-! ### A result (02 R53, R54) -/

/-- A result of an evaluation in flight is kept with the instant at which it became ready. -/
theorem execLoopResultReady_kept (t : Instant) (n : Fin 1024) {s : State} {ev : Eval} (hl : (s.cell n).lates = []) (he : (s.cell n).eval = some ev) :
    ∃ u, execLoopResultReady t n false false s = .next u ∧ (u.cell n).eval = some { ev with ready := some (ev.ready.getD (s.advance t).now) } ∧
      u.regs = (s.advance t).regs := by
  simp only [execLoopResultReady, State.cell_putCell_same, State.cell_advance, hl, he]
  refine ⟨_, rfl, ?_, rfl⟩
  rw [State.cell_putCell_same]
  simp only [b2n, Bool.false_eq_true, if_false, Nat.or_zero, Bool.false_and, Bool.or_false]
  rfl

/-- A slack enters the window: the window's lowest is at most that. -/
theorem State.noteSlack_low (s : State) (ns : Int) (kind id : Nat) : (s.noteSlack ns kind id).warp.slackLow.any (fun l => decide (l.1 ≤ ns)) = true := by
  have hlow (u : State) (b : Prop) [Decidable b] : (if b then u.wrI F.SLACK_LOW ns else u).warp = u.warp := by split <;> rfl
  simp only [State.noteSlack, hlow]
  split
  · rename_i v k i hv
    split
    · simp
    · simp only [hv, Option.any_some, decide_eq_true_eq]
      omega
  · simp

/-- The end of a late evaluation, the oldest, enters its slack, at most -1 ns. -/
theorem execLoopResultReady_late (t : Instant) (n : Fin 1024) (arith parity : Bool) {s : State} {r : Instant} {rest : List Instant}
    (hl : (s.cell n).lates = r :: rest) :
    ∃ u, execLoopResultReady t n arith parity s = .next u ∧ (u.cell n).lates = rest ∧ (u.cell n).eval = (s.cell n).eval ∧
      u.warp.slackLow.any (fun l => decide (l.1 ≤ min (-1) (sinceNs r (s.advance t).now))) = true := by
  simp only [execLoopResultReady, State.cell_putCell_same, State.cell_advance, hl]
  refine ⟨_, rfl, ?_, ?_, State.noteSlack_low _ _ _ _⟩
  · rw [State.cell_congr (State.noteSlack_cells _ _ _ _), State.cell_putCell_same]
  · rw [State.cell_congr (State.noteSlack_cells _ _ _ _), State.cell_putCell_same]

/-! ### A late sample (04 R95, R97) -/

/-- An evaluation that is not ready at its release: discarded whole, with the lates counted. -/
def State.discardLate (s : State) (n : Nat) (at_ : Instant) (tie : Bool) : State :=
  (((s.putCell n { s.cell n with latched := none, eval := none, reclamp := false, keepCs := false, parityDue := false, lates := if tie then (s.cell n).lates else (s.cell n).lates ++ [s.now] }).when
    tie (·.noteSlack (-1) 0 n)).countLate n).lateSamples 0 n at_

theorem State.rd_when_noteSlack (s : State) (b : Bool) (ns : Int) (kind id : Nat) {f : Fld} (hf : Touched.noteSlack.has f.id = false) (i : Nat) :
    (s.when b (·.noteSlack ns kind id)).rd f i = s.rd f i := by
  cases b with
  | false => rfl
  | true => exact rd_noteSlack _ _ _ _ hf i

/-- A field that the counting of a late does not touch keeps its value. -/
theorem State.rd_discardLate_other (s : State) (n : Nat) (at_ : Instant) (tie : Bool) {f : Fld} (hsamples : Touched.lateSamples.has f.id = false)
    (hcount : Touched.countLate.has f.id = false) (hslack : Touched.noteSlack.has f.id = false) (i : Nat) : (s.discardLate n at_ tie).rd f i = s.rd f i := by
  rw [State.discardLate, rd_lateSamples _ _ _ _ hsamples, rd_countLate _ _ hcount, State.rd_when_noteSlack _ _ _ _ _ hslack]
  exact State.rd_congr rfl f i

theorem State.rd_late_countLate (s : State) (n : Nat) : (s.countLate n).rd F.LC_SUP_EVENT_LATE n = 1 := by
  rw [State.countLate, rd_lateRaise _ (by decide), State.rd_bump_field _ _ _ _ (by decide), State.rd_wr_same]
  rfl

theorem State.rd_lateRun_countLate (s : State) (n : Nat) :
    (s.countLate n).rd F.LC_SUP_STATUS_LATE_RUN n = min (s.rd F.LC_SUP_STATUS_LATE_RUN n + 1) (2 ^ F.LC_SUP_STATUS_LATE_RUN.width - 1) := by
  rw [State.countLate, rd_lateRaise _ (by decide), State.rd_bump_saturates, State.rd_wr_field _ (by decide), State.rd_bump_field _ _ _ _ (by decide)]

theorem State.rd_lateCnt_countLate (s : State) (n : Nat) :
    (s.countLate n).rd F.LC_DIAG_CNT_LATE_CNT n = min (s.rd F.LC_DIAG_CNT_LATE_CNT n + 1) (2 ^ F.LC_DIAG_CNT_LATE_CNT.width - 1) := by
  rw [State.countLate, rd_lateRaise _ (by decide), State.rd_bump_field _ _ _ _ (by decide), State.rd_wr_field _ (by decide), State.rd_bump_saturates]

/-- A field of the counting reads as the counting leaves it. -/
theorem State.rd_discardLate_counted (s : State) (n : Nat) (at_ : Instant) (tie : Bool) {f : Fld} (hsamples : Touched.lateSamples.has f.id = false) {g : Nat → Nat}
    (hslack : Touched.noteSlack.has f.id = false) (h : ∀ u : State, (u.countLate n).rd f n = g (u.rd f n)) : (s.discardLate n at_ tie).rd f n = g (s.rd f n) := by
  rw [State.discardLate, rd_lateSamples _ _ _ _ hsamples, h, State.rd_when_noteSlack _ _ _ _ _ hslack]
  exact congrArg g (State.rd_congr rfl f n)

theorem State.discardLate_eval (s : State) (n : Nat) (at_ : Instant) (tie : Bool) : ((s.discardLate n at_ tie).cell n).eval = none := by
  rw [State.discardLate, State.cell_congr (State.lateSamples_cells _ _ _ _), State.cell_congr (State.countLate_cells _ _)]
  cases tie with
  | false => rw [State.when_false, State.cell_putCell_same]
  | true => rw [State.when_true, State.cell_congr (State.noteSlack_cells _ _ _ _), State.cell_putCell_same]

theorem State.lateLimit_discardLate (s : State) (n : Nat) (at_ : Instant) (tie : Bool) : (s.discardLate n at_ tie).lateLimit n = s.lateLimit n := by
  rw [State.lateLimit, State.rd_discardLate_other _ _ _ _ (by decide) (by decide) (by decide), State.lateLimit]

/-- A late sample is discarded and counted, and a loop fault where a parity error was read or LATE_LIMIT is reached. -/
theorem State.lateCell_eq (s : State) (n : Nat) (at_ : Instant) (tie : Bool) : s.lateCell n at_ tie =
    if 2 * b2n (s.cell n).parityDue + 8 * b2n ((s.discardLate n at_ tie).rd F.LC_SUP_STATUS_LATE_RUN n == (s.discardLate n at_ tie).lateLimit n) ≠ 0 then
      (s.discardLate n at_ tie).faultNow n
        (2 * b2n (s.cell n).parityDue + 8 * b2n ((s.discardLate n at_ tie).rd F.LC_SUP_STATUS_LATE_RUN n == (s.discardLate n at_ tie).lateLimit n))
    else s.discardLate n at_ tie := rfl

/-- Without a parity error and below LATE_LIMIT it is no more than discarded and counted. -/
theorem State.lateCell_belowLimit {s : State} {n : Nat} (at_ : Instant) (tie : Bool) (hparity : (s.cell n).parityDue = false)
    (hlimit : (s.discardLate n at_ tie).rd F.LC_SUP_STATUS_LATE_RUN n ≠ s.lateLimit n) : s.lateCell n at_ tie = s.discardLate n at_ tie := by
  have hbelow : ((s.discardLate n at_ tie).rd F.LC_SUP_STATUS_LATE_RUN n == (s.discardLate n at_ tie).lateLimit n) = false := by
    rw [State.lateLimit_discardLate]
    exact beq_false_of_ne hlimit
  rw [State.lateCell_eq, hparity, hbelow, if_neg]
  decide

end Sys2Proof.Machine
end

section
/-! PROOFS.  The release of an evaluation that is ready (03 R68), and the statement of the loop cells' instants. -/

namespace Sys2Proof.Machine

open Sys2Proof

/-! ### The steps of a release outside event mode -/

/-- The cell that an evaluation has left. -/
def LoopCell.ended (c : LoopCell) (ev : Eval) : LoopCell :=
  { c with eval := none, j := ev.j, lastMove := match ev.moved with | some up => some (ev.at_, up) | none => c.lastMove, ff := ev.ff, keepCs := false, reclamp := false }

/-- CS, level, transitions, dwell and saturations of a released evaluation. -/
def State.countEval (s : State) (n : Nat) (ev : Eval) (keepCs : Bool) (sats : Nat) : State :=
  let s := (if keepCs then s else s.putCs n ev.cs).wr F.LC_STATUS_LEVEL ev.j n
  let s := if ev.moved.isSome then s.countMove n else s
  let s := ((s.wr F.LC_STATUS_DWELL_WAIT (b2n ev.blocked) n).when ev.blocked (·.bump F.LC_DWELL_BLOCK n)).bump F.LC_SAT_CNT n (popcount sats 7)
  s.wr F.LC_SAT_SRC (s.rd F.LC_SAT_SRC n ||| sats) n

/-- The registers that a released evaluation shows, but for those of its output. -/
def State.showEval (s : State) (n : Nat) (ev : Eval) : State :=
  (((((((s.wr F.LC_SUP_STATUS_LATE_RUN 0 n).applyModel n ev).wrI F.LC_SP ev.sp n).wrI F.LC_SP_DOT ev.spDot n).wrI F.LC_Y ev.y n).wrI F.LC_E ev.e n).wrI
    F.LC_C ev.c n).wrI F.LC_W ev.w n |>.wr F.LC_STATUS_RUNNING 1 n

/-- The output of a released evaluation, delivered to its routes and its destination. -/
def State.deliverEval (s : State) (n : Nat) (ev : Eval) : State := ((s.publish 1 n (ofSigned 32 ev.y)).putUWith n ev.pwm ev.u).settle

theorem State.applyEval_eq (s : State) (n : Nat) {ev : Eval} (h : ev.event = false) : s.applyEval n ev =
    (((s.putCell n ((s.cell n).ended ev)).countEval n ev (s.cell n).keepCs (ev.stages (ev.u != outRaw ev.bank ev.j ev.ff))).showEval n ev).deliverEval n ev := by
  simp only [State.applyEval, h, Bool.false_eq_true, if_false]
  rfl

/-! ### No step begins an evaluation -/

/-- Where the cells are as a write of cell `n` leaves them, that cell has the evaluation written. -/
theorem State.eval_of_putCell {s u : State} {n : Nat} {c : LoopCell} (h : u.cells = (s.putCell n c).cells) : (u.cell n).eval = c.eval := by
  rw [State.cell_congr h, State.cell_putCell_same]

theorem State.countEval_cells (s : State) (n : Nat) (ev : Eval) (keepCs : Bool) (sats : Nat) : (s.countEval n ev keepCs sats).cells = s.cells := by
  have hblocked (u : State) : (u.when ev.blocked (·.bump F.LC_DWELL_BLOCK n)).cells = u.cells := by cases ev.blocked <;> rfl
  simp only [State.countEval, State.wr_cells, State.bump_cells, hblocked]
  cases keepCs <;> cases ev.moved.isSome <;> simp

theorem State.applyModel_eval (s : State) (n : Nat) (ev : Eval) : ((s.applyModel n ev).cell n).eval = (s.cell n).eval := by
  have hsup (u : State) (b : Prop) [Decidable b] (v : Nat) : (if b then u.wr F.LC_SUP_STATUS_SUP_STATE v n else u).cells = u.cells := by split <;> rfl
  unfold State.applyModel
  split
  · refine State.eval_of_putCell (s := s) (c := { s.cell n with yms := ev.yms, warmupLeft := ev.warmupLeft }) ?_
    simp only [State.wrI_cells, hsup, State.wr_cells]
  · rfl

theorem State.driveWith_eval (s : State) (n p : Nat) (u : Int) : ((s.driveWith n p u).cell n).eval = (s.cell n).eval := by
  refine State.eval_of_putCell (s := s) (c := { s.cell n with inForce := u }) ?_
  unfold State.driveWith
  dsimp only
  split
  · split <;> simp
  · rfl
  · split <;> simp
  · rfl

theorem State.applyEval_eval (s : State) (n : Nat) {ev : Eval} (h : ev.event = false) : ((s.applyEval n ev).cell n).eval = none := by
  rw [State.applyEval_eq s n h, State.deliverEval, State.cell_congr (State.settle_cells _), State.putUWith, State.driveWith_eval,
    State.cell_congr (State.publish_cells _ _ _ _), State.cell_congr (State.wrI_cells _ _ _ _), State.cell_congr (State.publish_cells _ _ _ _)]
  generalize hw : State.countEval _ _ _ _ _ = w
  have hshow : ((w.showEval n ev).cell n).eval = (w.cell n).eval := State.applyModel_eval (w.wr F.LC_SUP_STATUS_LATE_RUN 0 n) n ev
  rw [hshow, ← hw, State.cell_congr (State.countEval_cells _ _ _ _ _), State.cell_putCell_same]
  rfl

theorem State.swapClamp_eval (s : State) (n : Nat) : ((s.swapClamp n).cell n).eval = (s.cell n).eval := by
  simp only [State.swapClamp]
  split
  · rw [State.cell_congr (State.settle_cells _), State.cell_congr (State.countMove_cells _ _), State.cell_congr (State.wr_cells _ _ _ _),
      State.cell_congr (State.wr_cells _ _ _ _), State.cell_putCell_same]
    rfl
  · rfl

/-! ### What is declared without a cause -/

/-- The declarations of an evaluation that is no loop fault. -/
def State.declareQuiet (s : State) (n : Nat) (ev : Eval) : State :=
  let s := if ev.violated then (s.wr F.LC_SUP_EVENT_PLAUS_VIOL 1 n).reportCell n 0 0 ev.y ev.ym ev.u else s
  let s := if ev.subEnd then s.wr F.LC_SUP_EVENT_SUB_ENDED 1 n else s
  if ev.subStart then
    let s' := s.putCell n { s.cell n with subDeadline := addNs ev.at_ (clampNat 1 60000 (s.rd F.LC_SUP_TIME_SUB_TIME_MS n) * 1000000), subFrom := ev.at_ }
    (s'.wr F.LC_SUP_STATUS_SUP_STATE 2 n).wr F.LC_SUP_EVENT_SUB_START 1 n
  else s

theorem State.declareEval_eq (s : State) (n : Nat) {ev : Eval} (h : ev.causes = 0) : s.declareEval n ev = s.declareQuiet n ev := by
  simp only [State.declareEval, h, beq_self_eq_true, Bool.and_true, ne_eq, not_true_eq_false, if_false]
  rfl

/-- The fields that such declarations write. -/
def declaredFields : List Fld := [F.LC_SUP_EVENT_PLAUS_VIOL, F.LC_SUP_EVENT_SUB_ENDED, F.LC_SUP_STATUS_SUP_STATE, F.LC_SUP_EVENT_SUB_START]

theorem State.rd_declareQuiet (s : State) (n : Nat) (ev : Eval) {f : Fld} (hf : ∀ g ∈ declaredFields, (f.id == g.id) = false)
    (hreport : Touched.reportCell.has f.id = false) (i : Nat) : (s.declareQuiet n ev).rd f i = s.rd f i := by
  simp only [declaredFields, List.forall_mem_cons] at hf
  obtain ⟨hviol, hended, hstate, hstart, -⟩ := hf
  have h₁ (u : State) : (if ev.violated then (u.wr F.LC_SUP_EVENT_PLAUS_VIOL 1 n).reportCell n 0 0 ev.y ev.ym ev.u else u).rd f i = u.rd f i := by
    split
    · rw [rd_reportCell _ _ _ _ _ _ _ hreport, State.rd_wr_field _ hviol]
    · rfl
  have h₂ (u : State) : (if ev.subEnd then u.wr F.LC_SUP_EVENT_SUB_ENDED 1 n else u).rd f i = u.rd f i := by
    split
    · exact u.rd_wr_field hended _ _ _
    · rfl
  simp only [State.declareQuiet]
  split
  · rw [State.rd_wr_field _ hstart, State.rd_wr_field _ hstate, rd_putCell _ _ _ rfl, h₂, h₁]
  · rw [h₂, h₁]

theorem State.declareQuiet_eval (s : State) (n : Nat) (ev : Eval) : ((s.declareQuiet n ev).cell n).eval = (s.cell n).eval := by
  have h₁ (u : State) : (if ev.violated then (u.wr F.LC_SUP_EVENT_PLAUS_VIOL 1 n).reportCell n 0 0 ev.y ev.ym ev.u else u).cells = u.cells := by
    split
    · rw [State.reportCell_cells, State.wr_cells]
    · rfl
  have h₂ (u : State) : (if ev.subEnd then u.wr F.LC_SUP_EVENT_SUB_ENDED 1 n else u).cells = u.cells := by split <;> rfl
  simp only [State.declareQuiet]
  split
  · rw [State.cell_congr (State.wr_cells _ _ _ _), State.cell_congr (State.wr_cells _ _ _ _), State.cell_putCell_same, State.cell_congr (h₂ _), State.cell_congr (h₁ _)]
  · rw [State.cell_congr (h₂ _), State.cell_congr (h₁ _)]

/-! ### The release (R68, R82) -/

/-- A swap's clamp that waited for the release. -/
def State.reclampIf (s : State) (n : Nat) (b : Bool) : State := s.when b (·.swapClamp n)

theorem State.rd_reclampIf (s : State) (n : Nat) (b : Bool) {f : Fld} (hf : Touched.swapClamp.has f.id = false) (i : Nat) : (s.reclampIf n b).rd f i = s.rd f i := by
  cases b with
  | false => rfl
  | true => exact rd_swapClamp _ _ hf i

theorem State.reclampIf_eval (s : State) (n : Nat) (b : Bool) : ((s.reclampIf n b).cell n).eval = (s.cell n).eval := by
  cases b with
  | false => rfl
  | true => exact s.swapClamp_eval n

/-- The release of an evaluation without a cause. -/
theorem State.releaseEval_eq (s : State) (n : Nat) {ev : Eval} (ready : Instant) (h : ev.causes = 0) : s.releaseEval n ev ready =
    (((((s.noteSlack (sinceNs s.now ready) 0 n).applyEval n ev).releaseChans 0 n ev.at_).reclampIf n (s.cell n).reclamp).declareQuiet n ev) := by
  have hnone : bitOf ev.causes 0 = false := by rw [h]; rfl
  simp only [State.releaseEval, hnone, Bool.false_eq_true, if_false]
  exact State.declareEval_eq _ n h

theorem State.releaseEval_eval (s : State) (n : Nat) {ev : Eval} (ready : Instant) (h : ev.causes = 0) (he : ev.event = false) :
    ((s.releaseEval n ev ready).cell n).eval = none := by
  rw [s.releaseEval_eq n ready h, State.declareQuiet_eval, State.reclampIf_eval, State.cell_congr (State.releaseChans_cells _ _ _ _), State.applyEval_eval _ n he]

/-- A field that nothing behind the application of the evaluation touches reads as that leaves it. -/
theorem State.rd_releaseEval (s : State) (n : Nat) {ev : Eval} (ready : Instant) (h : ev.causes = 0) {f : Fld} (hdecl : ∀ g ∈ declaredFields, (f.id == g.id) = false)
    (hreport : Touched.reportCell.has f.id = false) (hclamp : Touched.swapClamp.has f.id = false) (hchans : Touched.releaseChans.has f.id = false) (i : Nat) :
    (s.releaseEval n ev ready).rd f i = ((s.noteSlack (sinceNs s.now ready) 0 n).applyEval n ev).rd f i := by
  rw [s.releaseEval_eq n ready h, State.rd_declareQuiet _ _ _ hdecl hreport, State.rd_reclampIf _ _ _ hclamp, rd_releaseChans _ _ _ _ hchans]

/-- The output and the registers of a released evaluation. -/
theorem State.rd_u_deliverEval (s : State) (n : Nat) (ev : Eval) : (s.deliverEval n ev).rd F.LC_U n = ofSigned 32 ev.u := by
  rw [State.deliverEval, rd_settle _ (by decide), State.putUWith, rd_driveWith _ _ _ _ (by decide), rd_publish _ _ _ _ (by decide), State.rd_wrI_same,
    Nat.mod_eq_of_lt (ofSigned_lt _ _)]
  rfl

theorem State.rd_deliverEval (s : State) (n : Nat) (ev : Eval) {f : Fld} (hu : Touched.putUWith.has f.id = false) (hs : Touched.settle.has f.id = false)
    (hp : Touched.publish.has f.id = false) (i : Nat) : (s.deliverEval n ev).rd f i = s.rd f i := by
  rw [State.deliverEval, rd_settle _ hs, rd_putUWith _ _ _ _ hu, rd_publish _ _ _ _ hp]

theorem State.rd_showEval (s : State) (n : Nat) (ev : Eval) : (s.showEval n ev).rd F.LC_Y n = ofSigned 32 ev.y ∧
    (s.showEval n ev).rd F.LC_SUP_STATUS_LATE_RUN n = 0 ∧ (s.showEval n ev).rd F.LC_STATUS_RUNNING n = 1 := by
  refine ⟨?_, ?_, State.rd_wr_same _ _ _ _⟩
  · rw [State.showEval, State.rd_wr_field _ (by decide), State.rd_wrI_field _ _ _ _ (by decide), State.rd_wrI_field _ _ _ _ (by decide),
      State.rd_wrI_field _ _ _ _ (by decide), State.rd_wrI_same, Nat.mod_eq_of_lt (ofSigned_lt _ _)]
    rfl
  · rw [State.showEval, State.rd_wr_field _ (by decide), State.rd_wrI_field _ _ _ _ (by decide), State.rd_wrI_field _ _ _ _ (by decide),
      State.rd_wrI_field _ _ _ _ (by decide), State.rd_wrI_field _ _ _ _ (by decide), State.rd_wrI_field _ _ _ _ (by decide), State.rd_wrI_field _ _ _ _ (by decide),
      rd_applyModel _ _ _ (by decide), State.rd_wr_same, Nat.zero_mod]

/-- An evaluation released without a cause outside event mode: U and Y take its values, the run of lates ends, and the cell runs. -/
theorem State.releaseEval_shown (s : State) (n : Nat) {ev : Eval} (ready : Instant) (h : ev.causes = 0) (he : ev.event = false) :
    (s.releaseEval n ev ready).rd F.LC_U n = ofSigned 32 ev.u ∧ (s.releaseEval n ev ready).rd F.LC_Y n = ofSigned 32 ev.y ∧
    (s.releaseEval n ev ready).rd F.LC_SUP_STATUS_LATE_RUN n = 0 ∧ (s.releaseEval n ev ready).rd F.LC_STATUS_RUNNING n = 1 ∧
    ((s.releaseEval n ev ready).cell n).eval = none := by
  have hrd {f : Fld} (hdecl : ∀ g ∈ declaredFields, (f.id == g.id) = false) (hreport : Touched.reportCell.has f.id = false) (hclamp : Touched.swapClamp.has f.id = false)
      (hchans : Touched.releaseChans.has f.id = false) := (s.rd_releaseEval n ready h hdecl hreport hclamp hchans n).trans
        (congrArg (State.rd · f n) (State.applyEval_eq _ n he))
  obtain ⟨hy, hrun, hrunning⟩ := State.rd_showEval (((s.noteSlack (sinceNs s.now ready) 0 n).putCell n (((s.noteSlack (sinceNs s.now ready) 0 n).cell n).ended ev)).countEval n ev
    ((s.noteSlack (sinceNs s.now ready) 0 n).cell n).keepCs (ev.stages (ev.u != outRaw ev.bank ev.j ev.ff))) n ev
  refine ⟨?_, ?_, ?_, ?_, s.releaseEval_eval n ready h he⟩
  · exact (hrd (by decide) (by decide) (by decide) (by decide)).trans (State.rd_u_deliverEval _ n ev)
  · exact ((hrd (by decide) (by decide) (by decide) (by decide)).trans (State.rd_deliverEval _ n ev (by decide) (by decide) (by decide) n)).trans hy
  · exact ((hrd (by decide) (by decide) (by decide) (by decide)).trans (State.rd_deliverEval _ n ev (by decide) (by decide) (by decide) n)).trans hrun
  · exact ((hrd (by decide) (by decide) (by decide) (by decide)).trans (State.rd_deliverEval _ n ev (by decide) (by decide) (by decide) n)).trans hrunning

/-! ### The command -/

section
variable {t : Instant} {n : Fin 1024} {first : Bool} {s : State} {ev : Eval}

/-- The release instant of an evaluation in flight. -/
theorem State.releasesNow_of_due (hdue : ev.due = (s.advance t).now) (he : (s.cell n).eval = some ev) : (s.advance t).releasesNow n = true := by
  simp [State.releasesNow, he, hdue]

theorem execLoopRelease_inTime (hdue : ev.due = (s.advance t).now) (he : (s.cell n).eval = some ev) (hready : (s.advance t).inTime ev.ready first = true)
    (hfault : (s.cell n).faultDue = false) (hparity : (s.cell n).parityDue = false) : ∃ r : Instant,
    execLoopRelease t n first s = .next (((s.advance t).putCell n { s.cell n with parityDue := false }).releaseEval n ev r) := by
  obtain ⟨r, hr⟩ : ∃ r, ev.ready = some r := by
    cases hev : ev.ready with
    | none => rw [hev] at hready; cases hready
    | some r => exact ⟨r, rfl⟩
  refine ⟨r, ?_⟩
  rw [hr] at hready
  have hwith : (s.advance t).withParity n ev = ev := by simp [State.withParity, hparity]
  simp only [execLoopRelease, State.releasesNow_of_due hdue he, if_true, State.cell_advance, hfault, Bool.false_eq_true, if_false, he, hr, hready, hwith]

theorem execLoopRelease_late (hdue : ev.due = (s.advance t).now) (he : (s.cell n).eval = some ev) (hready : (s.advance t).inTime ev.ready first = false)
    (hfault : (s.cell n).faultDue = false) : execLoopRelease t n first s = .next ((s.advance t).lateCell n ev.at_ (ev.ready == some (s.advance t).now)) := by
  simp only [execLoopRelease, State.releasesNow_of_due hdue he, if_true, State.cell_advance, hfault, Bool.false_eq_true, if_false, he, hready]

end

/-- A read of SP latches the nine values. -/
theorem State.snapshot_takeSnapshotOf (s : State) (n : Nat) : ((s.takeSnapshotOf n).cell n).snapshot = snapshotFields.map (fun f => s.rd f n) := by
  rw [State.takeSnapshotOf, State.cell_putCell_same]

/-- The Warp's movement changes none of them. -/
theorem snapshotFields_advance (s : State) (t : Instant) (n : Nat) : snapshotFields.map (fun f => (s.advance t).rd f n) = snapshotFields.map (fun f => s.rd f n) :=
  List.map_congr_left fun f hf => rd_advance s t ((by decide : ∀ f ∈ snapshotFields, Touched.advance.has f.id = false) f hf) n

/-- Settles O20. -/
theorem loopEvaluationsAreReleasedAtTheirInstant : Obligations.LoopEvaluationsAreReleasedAtTheirInstant := by
  unfold Obligations.LoopEvaluationsAreReleasedAtTheirInstant
  refine ⟨fun t n s => execLoopStrobe_begins t n, fun t n s ev => execLoopResultReady_kept t n, fun t n arith parity s r rest => execLoopResultReady_late t n arith parity,
    ?released, ?late, ?snapshot⟩
  case released =>
    intro t n s ev first hdue he hready hfault hparity hcauses hevent
    obtain ⟨r, hu⟩ := execLoopRelease_inTime hdue he hready hfault hparity
    exact ⟨_, hu, State.releaseEval_shown _ n r hcauses hevent⟩
  case late =>
    intro t n s ev first hdue he hready hfault hparity hbelow
    have hrun (tie : Bool) : ((s.advance t).discardLate n ev.at_ tie).rd F.LC_SUP_STATUS_LATE_RUN n = s.rd F.LC_SUP_STATUS_LATE_RUN n + 1 := by
      rw [State.rd_discardLate_counted _ _ _ _ (by decide) (by decide) (State.rd_lateRun_countLate · n) (g := fun x => min (x + 1) (2 ^ F.LC_SUP_STATUS_LATE_RUN.width - 1)), rd_advance s t (by decide)]
      exact Nat.min_eq_left (by have : 2 ^ F.LC_SUP_STATUS_LATE_RUN.width - 1 = 15 := rfl; omega)
    have hlimit : (s.advance t).lateLimit n = s.lateLimit n := by rw [State.lateLimit, rd_advance s t (by decide), State.lateLimit]
    have hlate := execLoopRelease_late hdue he hready hfault
    rw [State.lateCell_belowLimit _ _ (by rwa [State.cell_advance]) (by rw [hrun, hlimit]; omega)] at hlate
    refine ⟨_, hlate, ?_, hrun _, ?_, ?_, ?_, State.discardLate_eval _ _ _ _⟩
    · exact State.rd_discardLate_counted _ _ _ _ (by decide) (by decide) (State.rd_late_countLate · n) (g := fun _ => 1)
    · rw [State.rd_discardLate_counted _ _ _ _ (by decide) (by decide) (State.rd_lateCnt_countLate · n) (g := fun x => min (x + 1) (2 ^ F.LC_DIAG_CNT_LATE_CNT.width - 1)), rd_advance s t (by decide)]
    · rw [State.rd_discardLate_other _ _ _ _ (by decide) (by decide) (by decide), rd_advance s t (by decide)]
    · rw [State.rd_discardLate_other _ _ _ _ (by decide) (by decide) (by decide), rd_advance s t (by decide)]
  case snapshot =>
    intro t n s
    refine ⟨_, rfl, ?_, (State.snapshot_takeSnapshotOf _ n).trans (snapshotFields_advance s t n), rfl⟩
    rw [← rd_advance s t (fld := F.LC_SP) (by decide) n]
    rfl

end Sys2Proof.Machine
end

section
/-! PROOFS.  An operation on one member of a kind leaves the others: the registers and the table of its kind change in that member alone.  The loop cells
(03 R78, R79, R82; 04 R101, R113). -/

namespace Sys2Proof.Machine

open Sys2Proof

/-! ### Changes of one member -/

/-- A property that every frame within a touch carries over is closed under the touch. -/
theorem closed_of_frame {I : State → Prop} {t : Touch} (h : ∀ s u, Frame t s u → I s → I u) : Closed I t where
  reg s id i v ht := h _ _ ((closed_frame t s).reg s id i v ht (.refl t s))
  draw s ht := h _ _ ((closed_frame t s).draw s ht (.refl t s))
  sram s m ht hm := h _ _ ((closed_frame t s).sram s m ht hm (.refl t s))
  dram s m ht hm := h _ _ ((closed_frame t s).dram s m ht hm (.refl t s))
  dlm s m ht hm := h _ _ ((closed_frame t s).dlm s m ht hm (.refl t s))
  whole ht s u hp hn hc := h _ _ ((closed_frame t s).whole ht s u hp hn hc (.refl t s))
  latches s x ht := h _ _ ((closed_frame t s).latches s x ht (.refl t s))
  staged s x ht := h _ _ ((closed_frame t s).staged s x ht (.refl t s))
  warp s x ht := h _ _ ((closed_frame t s).warp s x ht (.refl t s))
  skein s x ht := h _ _ ((closed_frame t s).skein s x ht (.refl t s))
  cells s x ht := h _ _ ((closed_frame t s).cells s x ht (.refl t s))
  fio s x ht := h _ _ ((closed_frame t s).fio s x ht (.refl t s))
  aout s x ht := h _ _ ((closed_frame t s).aout s x ht (.refl t s))
  ain s x ht := h _ _ ((closed_frame t s).ain s x ht (.refl t s))
  conv s x ht := h _ _ ((closed_frame t s).conv s x ht (.refl t s))
  rot s x ht := h _ _ ((closed_frame t s).rot s x ht (.refl t s))
  treadles s x ht := h _ _ ((closed_frame t s).treadles s x ht (.refl t s))
  gens s x ht := h _ _ ((closed_frame t s).gens s x ht (.refl t s))
  axes s x ht := h _ _ ((closed_frame t s).axes s x ht (.refl t s))
  groups s x ht := h _ _ ((closed_frame t s).groups s x ht (.refl t s))
  trig s x ht := h _ _ ((closed_frame t s).trig s x ht (.refl t s))
  loom s x ht := h _ _ ((closed_frame t s).loom s x ht (.refl t s))
  sched s x ht := h _ _ ((closed_frame t s).sched s x ht (.refl t s))
  cyc s x ht := h _ _ ((closed_frame t s).cyc s x ht (.refl t s))
  island s x ht := h _ _ ((closed_frame t s).island s x ht (.refl t s))
  tandem s x ht := h _ _ ((closed_frame t s).tandem s x ht (.refl t s))
  sec s x ht := h _ _ ((closed_frame t s).sec s x ht (.refl t s))
  host s x ht := h _ _ ((closed_frame t s).host s x ht (.refl t s))
  boot s x ht := h _ _ ((closed_frame t s).boot s x ht (.refl t s))
  answer s x ht := h _ _ ((closed_frame t s).answer s x ht (.refl t s))
  power s x ht := h _ _ ((closed_frame t s).power s x ht (.refl t s))
  rings s x ht := h _ _ ((closed_frame t s).rings s x ht (.refl t s))

/-- No field numbered `lo` to `hi` may change. -/
def Touch.avoids (t : Touch) (lo hi : Nat) : Bool := !t.anyReg && t.regs.all (fun f => decide (f.id < lo) || decide (hi < f.id))

theorem Touch.has_of_avoids {t : Touch} {lo hi id : Nat} (h : t.avoids lo hi = true) (hlo : lo ≤ id) (hhi : id ≤ hi) : t.has id = false := by
  simp only [Touch.avoids, Bool.and_eq_true, Bool.not_eq_true', List.all_eq_true, Bool.or_eq_true, decide_eq_true_eq] at h
  obtain ⟨hany, hregs⟩ := h
  simp only [Touch.has, hany, Bool.false_or, List.any_eq_false, beq_iff_eq]
  rintro f hf rfl
  have := hregs f hf
  omega

/-- From `r` to `s` the registers numbered `lo` to `hi` and the table `part` have changed in member `n` alone. -/
structure OnlyAt (lo hi : Nat) {α : Type} (part : State → Tbl α) (n : Nat) (r s : State) : Prop where
  regs : ∀ m, m ≠ n → ∀ f : Fld, lo ≤ f.id → f.id ≤ hi → s.rd f m = r.rd f m
  insts : ∀ m, m ≠ n → ∀ d, (part s).get m d = (part r).get m d

namespace OnlyAt

variable {lo hi n : Nat} {α : Type} {part : State → Tbl α} {r s u : State}

theorem refl (s : State) : OnlyAt lo hi part n s s := ⟨fun _ _ _ _ _ => rfl, fun _ _ _ => rfl⟩

/-- A register of the member. -/
theorem wr (h : OnlyAt lo hi part n r s) (f : Fld) (v : Nat) (hp : part (s.wr f v n) = part s) : OnlyAt lo hi part n r (s.wr f v n) where
  regs m hm g hlo hhi := by
    refine Eq.trans ?_ (h.regs m hm g hlo hhi)
    by_cases hg : g.id = f.id
    · simp only [State.wr, State.putReg, State.rd, hg, Tbl.get_set_same, Tbl.get_set_other _ hm]
    · exact s.rd_wr_field (beq_false_of_ne hg) _ _ _
  insts m hm d := by rw [hp, h.insts m hm d]

/-- The member in its table. -/
theorem put (h : OnlyAt lo hi part n r s) (x : α) (hregs : u.regs = s.regs) (hp : part u = (part s).set n x) : OnlyAt lo hi part n r u where
  regs m hm f hlo hhi := by rw [State.rd_congr hregs, h.regs m hm f hlo hhi]
  insts m hm d := by rw [hp, Tbl.get_set_other _ hm, h.insts m hm d]

/-- What touches neither those registers nor the table. -/
theorem closed {t : Touch} (ht : t.avoids lo hi = true) (hp : ∀ s u, Frame t s u → part u = part s) : Closed (OnlyAt lo hi part n r) t :=
  closed_of_frame fun s u hf h =>
    ⟨fun m hm f hlo hhi => (hf.rd (Touch.has_of_avoids ht hlo hhi) m).trans (h.regs m hm f hlo hhi), fun m hm d => by rw [hp s u hf, h.insts m hm d]⟩

/-- A command whose next state differs from the state in one member alone leaves the others. -/
theorem ends {c : Instr} (h : Ends c s (OnlyAt lo hi part n s)) {m : Nat} (hm : m ≠ n) {f : Fld} (hlo : lo ≤ f.id) (hhi : f.id ≤ hi) (d : α) :
    Ends c s (fun u => u.rd f m = s.rd f m ∧ (part u).get m d = (part s).get m d) := by
  obtain ⟨u, hu, hk⟩ := h
  exact ⟨u, hu, hk.regs m hm f hlo hhi, hk.insts m hm d⟩

end OnlyAt

/-! ### Loop cells (03 R78 to R82; 04 R101, R104, R113) -/

/-- Of the loop cells, only cell `n` has changed. -/
def CellOnly (n : Nat) (r s : State) : Prop := OnlyAt 65 154 State.cells n r s

namespace CellOnly

variable {n : Nat} {r s : State}

theorem closed {t : Touch} (h : (t.avoids 65 154 && !t.hasPart .cells) = true) : Closed (CellOnly n r) t := by
  rw [Bool.and_eq_true, Bool.not_eq_true'] at h
  exact OnlyAt.closed h.1 fun _ _ hf => hf.part (p := .cells) h.2

theorem wr (h : CellOnly n r s) (f : Fld) (v : Nat) : CellOnly n r (s.wr f v n) := OnlyAt.wr h f v rfl

theorem putCell (h : CellOnly n r s) (c : LoopCell) : CellOnly n r (s.putCell n c) := OnlyAt.put h c rfl rfl

theorem advance (s : State) (t : Instant) : CellOnly n s (s.advance t) := keeps_advance (closed (by decide +kernel)) (OnlyAt.refl s) t

theorem settle (h : CellOnly n r s) : CellOnly n r s.settle := keeps_settle (closed (by decide +kernel)) h

theorem noteSlack (h : CellOnly n r s) (ns : Int) (kind id : Nat) : CellOnly n r (s.noteSlack ns kind id) :=
  keeps_noteSlack (closed (by decide +kernel)) h ns kind id

theorem discard (h : CellOnly n r s) (reason off : Nat) : CellOnly n r (s.discard reason off) := keeps_discard (closed (by decide +kernel)) h reason off

theorem discardOther (h : CellOnly n r s) (off : Nat) : CellOnly n r (s.discardOther off) := keeps_discardOther (closed (by decide +kernel)) h off

/-- A host write, whose effect keeps to the cell. -/
theorem hostWrite (t : Instant) (off : Nat) {f : State → State} (hf : ∀ u, CellOnly n s u → CellOnly n s (f u)) :
    CellOnly n s ((s.advance t).hostWrite off f) :=
  keeps_hostWrite (closed (by decide +kernel)) (advance s t) off f 0 true hf

theorem putCs (h : CellOnly n r s) (cs : Int) : CellOnly n r (s.putCs n cs) := ((h.wr _ _).wr _ _).wr _ _

theorem countMove (h : CellOnly n r s) : CellOnly n r (s.countMove n) := by
  unfold State.countMove
  split
  · exact h.wr _ _
  · exact (h.wr _ _).wr _ _

theorem swapClamp (h : CellOnly n r s) : CellOnly n r (s.swapClamp n) := by
  simp only [State.swapClamp]
  split
  · exact (countMove ((((h.putCs _).putCell _).wr _ _).wr _ _)).settle
  · exact h.putCs _

theorem doSwap (h : CellOnly n r s) : CellOnly n r (s.doSwap n) := (swapClamp (((h.putCell _).wr _ _).wr _ _)).wr _ _

theorem trySwap (h : CellOnly n r s) : CellOnly n r (s.trySwap n) := by
  unfold State.trySwap
  split
  · exact h.doSwap
  · exact (h.putCell _).wr _ _

theorem putShadow (h : CellOnly n r s) (b : Bank) : CellOnly n r (s.putShadow n b) := (h.putCell _).wr _ _

theorem startCell (h : CellOnly n r s) : CellOnly n r (s.startCell n) :=
  ((((((((h.putCell _).wr _ _).wr _ _).wr _ _).wr _ _).wr _ _).wr _ _).putCs _).settle

end CellOnly

/-- A command of a loop cell whose next state differs in that cell alone. -/
theorem Ends.otherCells {c : Instr} {s : State} {n m : Nat} {f : Fld} (h : Ends c s (CellOnly n s)) (hm : m ≠ n) (hlo : 65 ≤ f.id) (hhi : f.id ≤ 154) :
    Ends c s (fun u => u.rd f m = s.rd f m ∧ u.cell m = s.cell m) := OnlyAt.ends h hm hlo hhi _

theorem cellOnly_swap (t : Instant) (n : Fin 1024) (s : State) : Ends (.swap t n) s (CellOnly n s) := by
  refine ⟨_, rfl, CellOnly.hostWrite t _ fun u h => ?_⟩
  split
  · exact (h.wr _ _).discardOther _
  · split
    · split
      · exact h.putCell _
      · exact h.wr _ _
    · exact h.trySwap

theorem cellOnly_copy (t : Instant) (n : Fin 1024) (s : State) : Ends (.copy t n) s (CellOnly n s) := by
  refine ⟨_, rfl, CellOnly.hostWrite t _ fun u h => ?_⟩
  split
  · exact (h.wr _ _).discardOther _
  · exact h.putShadow _

theorem cellOnly_bankWindowWrite (t : Instant) (n : Fin 1024) (k : Fin 24) (value : Word) (s : State) : Ends (.bankWindowWrite t n k value) s (CellOnly n s) := by
  refine ⟨_, rfl, CellOnly.hostWrite t _ fun u h => ?_⟩
  split
  · exact (h.wr _ _).discardOther _
  · exact h.putShadow _

theorem cellOnly_cStateWrite (t : Instant) (n : Fin 1024) (value : BitVec 48) (s : State) : Ends (.cStateWrite t n value) s (CellOnly n s) := by
  refine ⟨_, rfl, CellOnly.hostWrite t _ fun u h => ?_⟩
  split
  · exact (h.putCs _).putCell _
  · exact h.discard _ _

theorem cellOnly_faultClear (t : Instant) (n : Fin 1024) (s : State) : Ends (.faultClear t n) s (CellOnly n s) := by
  refine ⟨_, rfl, CellOnly.hostWrite t _ fun u h => ?_⟩
  split
  · split
    · have hc : ∀ c, CellOnly n s ((((u.wr F.LC_SUP_STATUS_FAULT_CAUSE 0 n).wr F.LC_SUP_STATUS_SUP_STATE 0 n).wr F.LC_SUP_STATUS_LATE_RUN 0 n).putCell n c) :=
        (((h.wr _ _).wr _ _).wr _ _).putCell
      dsimp only
      split
      · exact (hc _).startCell
      · exact hc _
    · exact h.wr _ _
  · exact h.wr _ _

theorem cellOnly_plausClear (t : Instant) (n : Fin 1024) (s : State) : Ends (.plausClear t n) s (CellOnly n s) := by
  refine ⟨_, rfl, CellOnly.hostWrite t _ fun u h => ?_⟩
  split
  · exact h.wr _ _
  · split
    · exact (h.wr _ _).wr _ _
    · exact h

theorem cellOnly_stGo (t : Instant) (n : Fin 1024) (s : State) : Ends (.stGo t n) s (CellOnly n s) := by
  refine ⟨_, rfl, CellOnly.hostWrite t _ fun u h => ?_⟩
  split
  · exact h
  · exact h.wr _ _

theorem cellOnly_loopResultReady (t : Instant) (n : Fin 1024) (arith parity : Bool) (s : State) : Ends (.loopResultReady t n arith parity) s (CellOnly n s) := by
  refine ⟨_, rfl, ?_⟩
  have h := CellOnly.advance (n := n) s t
  dsimp only
  split
  · exact ((h.putCell _).putCell _).noteSlack _ _ _
  · exact (h.putCell _).putCell _
  · exact h.putCell _

end Sys2Proof.Machine
end

section
/-! PROOFS.  One profile generator, one axis and one capture set leave the others of their kinds (05 R144; 06 R151; 08 R205). -/

namespace Sys2Proof.Machine

open Sys2Proof

/-! ### Profile generators (05 R140 to R144) -/

/-- Of the generators, only generator `n` has changed. -/
def GenOnly (n : Nat) (r s : State) : Prop := OnlyAt 206 228 State.gens n r s

namespace GenOnly

variable {n : Nat} {r s : State}

theorem closed {t : Touch} (h : (t.avoids 206 228 && !t.hasPart .gens) = true) : Closed (GenOnly n r) t := by
  rw [Bool.and_eq_true, Bool.not_eq_true'] at h
  exact OnlyAt.closed h.1 fun _ _ hf => hf.part (p := .gens) h.2

theorem wr (h : GenOnly n r s) (f : Fld) (v : Nat) : GenOnly n r (s.wr f v n) := OnlyAt.wr h f v rfl

theorem putGen (h : GenOnly n r s) (g : Gen) : GenOnly n r (s.putGen n g) := OnlyAt.put h g rfl rfl

theorem advance (s : State) (t : Instant) : GenOnly n s (s.advance t) := keeps_advance (closed (by decide +kernel)) (OnlyAt.refl s) t

theorem giveTarget (h : GenOnly n r s) (v : Nat) : GenOnly n r (s.giveTarget n v) := by
  simp only [State.giveTarget]
  split
  · exact (h.wr _ _).putGen _
  · exact h.wr _ _

theorem giveLimits (h : GenOnly n r s) (l : Nat × Nat × Nat) : GenOnly n r (s.giveLimits n l) := by
  simp only [State.giveLimits]
  split
  · exact (h.putGen _).wr _ _
  · exact ((((h.wr _ _).wr _ _).wr _ _).putGen _).wr _ _

theorem applyLimits (h : GenOnly n r s) : GenOnly n r (s.applyLimits n) := by
  unfold State.applyLimits
  split
  · split
    · exact ((((h.wr _ _).wr _ _).wr _ _).putGen _).wr _ _
    · exact h
  · exact h

theorem showGen (h : GenOnly n r s) (sp spDot : Int) : GenOnly n r (s.showGen n sp spDot) :=
  keeps_publish (closed (by decide +kernel)) (((h.wr _ _).wr _ _).wr _ _) _ _ _

theorem updateGen (h : GenOnly n r s) : GenOnly n r (s.updateGen n) := by
  have hdone (b : Prop) [Decidable b] : GenOnly n r (if b then (s.applyLimits n).wr F.PG_EVENT_DONE_EVT 1 n else s.applyLimits n) := by
    split
    · exact h.applyLimits.wr _ _
    · exact h.applyLimits
  exact ((((hdone _).wr _ _).wr _ _).putGen _).showGen _ _

end GenOnly

/-- A command of a generator whose next state differs in that generator alone. -/
theorem Ends.otherGens {c : Instr} {s : State} {n m : Nat} {f : Fld} (h : Ends c s (GenOnly n s)) (hm : m ≠ n) (hlo : 206 ≤ f.id) (hhi : f.id ≤ 228) :
    Ends c s (fun u => u.rd f m = s.rd f m ∧ u.gen m = s.gen m) := OnlyAt.ends h hm hlo hhi _

theorem genOnly_pgHostWrite (t : Instant) (n : Fin 256) (r : GenReg) (value : Word) (s : State) : Ends (.pgHostWrite t n r value) s (GenOnly n s) := by
  refine ⟨_, rfl, keeps_hostWrite (GenOnly.closed (by decide +kernel)) (GenOnly.advance s t) _ _ _ _ fun u h => ?_⟩
  split
  · exact keeps_discardOther (GenOnly.closed (by decide +kernel)) (GenOnly.wr h _ _) _
  · cases r with
    | target => exact GenOnly.giveTarget h _
    | vmax => exact GenOnly.giveLimits h _
    | win => exact GenOnly.giveLimits h _

theorem genOnly_pgUpdate (t : Instant) (n : Fin 256) (s : State) : Ends (.pgUpdate t n) s (GenOnly n s) := by
  have h := GenOnly.advance (n := n) s t
  refine ⟨_, rfl, ?_⟩
  dsimp only
  split
  · split
    · exact keeps_latchDone (GenOnly.closed (by decide +kernel)) h.updateGen _
    · exact h.updateGen
  · exact h

/-! ### Axes (06 R151, R153, R154, R158, R166) -/

/-- Of the axes, only axis `n` has changed. -/
def AxisOnly (n : Nat) (r s : State) : Prop := OnlyAt 247 325 State.axes n r s

namespace AxisOnly

variable {n : Nat} {r s : State}

theorem closed {t : Touch} (h : (t.avoids 247 325 && !t.hasPart .axes) = true) : Closed (AxisOnly n r) t := by
  rw [Bool.and_eq_true, Bool.not_eq_true'] at h
  exact OnlyAt.closed h.1 fun _ _ hf => hf.part (p := .axes) h.2

theorem wr (h : AxisOnly n r s) (f : Fld) (v : Nat) : AxisOnly n r (s.wr f v n) := OnlyAt.wr h f v rfl

theorem putAxis (h : AxisOnly n r s) (x : Axis) : AxisOnly n r (s.putAxis n x) := OnlyAt.put h x rfl rfl

theorem onAxis (h : AxisOnly n r s) (f : Axis → Axis) : AxisOnly n r (s.onAxis n f) := h.putAxis _

theorem axEvent (h : AxisOnly n r s) (bit : Nat) : AxisOnly n r (s.axEvent n bit) := h.wr _ _

theorem putAxState (h : AxisOnly n r s) (k : Nat) : AxisOnly n r (s.putAxState n k) := h.wr _ _

theorem advance (s : State) (t : Instant) : AxisOnly n s (s.advance t) := keeps_advance (closed (by decide +kernel)) (OnlyAt.refl s) t

theorem axRecord (h : AxisOnly n r s) (bit res : Nat) : AxisOnly n r (s.axRecord n bit res) := keeps_axRecord (closed (by decide +kernel)) h n bit res

theorem driveLevel (h : AxisOnly n r s) (pin : Nat) (b : Bool) : AxisOnly n r (s.driveLevel pin b) := keeps_driveLevel (closed (by decide +kernel)) h pin b

theorem finishSegs (h : AxisOnly n r s) : AxisOnly n r (s.finishSegs n) := keeps_finishSegs (closed (by decide +kernel)) h n

theorem axStop (h : AxisOnly n r s) (p v : Int) (at_ : Instant) : AxisOnly n r (s.axStop n p v at_) := by
  unfold State.axStop
  exact h.onAxis _

theorem showSeg (h : AxisOnly n r s) : AxisOnly n r (s.showSeg n) := by
  simp only [State.showSeg]
  split
  · split
    · exact h.wr _ _
    · exact (h.wr _ _).wr _ _
  · exact h.wr _ _

theorem axRest (h : AxisOnly n r s) (p : Int) : AxisOnly n r (s.axRest n p) := by
  simp only [State.axRest]
  split
  · exact (h.onAxis _).putAxState _
  · exact h.onAxis _

theorem axOpenEnd (h : AxisOnly n r s) : AxisOnly n r (s.axOpenEnd n) := by
  simp only [State.axOpenEnd]
  split
  · split
    · exact ((h.finishSegs.axStop _ _ _).putAxState _).axEvent _
    · exact h
  · exact h

theorem axEnded (h : AxisOnly n r s) : AxisOnly n r (s.axEnded n) := by
  simp only [State.axEnded]
  split
  · exact h
  · split
    · split
      · exact axRest (keeps_when h _ _ fun _ => finishSegs) _
      · exact h
    · split
      · exact h.axRest _
      · exact h

theorem axCatchUp (h : AxisOnly n r s) : AxisOnly n r (s.axCatchUp n) := h.axOpenEnd.axEnded.showSeg

theorem refuseAsks (h : AxisOnly n r s) : AxisOnly n r (s.refuseAsks n) :=
  Keeps.foldl (I := AxisOnly n r) (fun _ _ hu => (axEvent hu _).axRecord _ _) _ (h.onAxis _)

theorem axImmediate (h : AxisOnly n r s) : AxisOnly n r (s.axImmediate n) := by
  simp only [State.axImmediate]
  split
  · exact keeps_when (h.onAxis _) _ _ fun _ hu => driveLevel hu _ _
  · exact keeps_each (h.onAxis _) _ _ fun _ _ hu => driveLevel hu _ _
  · exact h.onAxis _

theorem axFault (h : AxisOnly n r s) (causes : Nat) : AxisOnly n r (s.axFault n causes) := by
  unfold State.axFault
  extract_lets caused declared x stopped held reported refused routed
  have hdeclared : AxisOnly n r declared := axEvent (keeps_causeClass (closed (by decide +kernel)) (h.wr _ _) n causes) 8
  have hstopped : AxisOnly n r stopped := Keeps.ite hdeclared.axImmediate (Keeps.ite hdeclared (hdeclared.axStop _ _ _))
  have hreported : AxisOnly n r reported := ((hstopped.onAxis _).putAxState 5).axRecord 8 _
  have hrefused : AxisOnly n r refused := keeps_when hreported _ _ fun _ => refuseAsks
  have hrouted : AxisOnly n r routed := keeps_emitFrom (closed (by decide +kernel)) hrefused 3 n 0
  split
  · exact Keeps.ite (keeps_partStop (closed (by decide +kernel)) hrouted _ _) hrouted
  · exact hrouted

theorem axUpdate (h : AxisOnly n r s) : AxisOnly n r (s.axUpdate n) := by
  simp only [State.axUpdate]
  split
  · exact (h.axCatchUp.axFault _).axCatchUp
  · exact h.axCatchUp

end AxisOnly

/-- A command of an axis whose next state differs in that axis alone. -/
theorem Ends.otherAxes {c : Instr} {s : State} {n m : Nat} {f : Fld} (h : Ends c s (AxisOnly n s)) (hm : m ≠ n) (hlo : 247 ≤ f.id) (hhi : f.id ≤ 325) :
    Ends c s (fun u => u.rd f m = s.rd f m ∧ u.axis m = s.axis m) := OnlyAt.ends h hm hlo hhi _

theorem axisOnly_axGo (t : Instant) (n : Fin 128) (s : State) : Ends (.axGo t n) s (AxisOnly n s) := by
  refine ⟨_, rfl, keeps_hostWrite (AxisOnly.closed (by decide +kernel)) (AxisOnly.advance s t) _ _ _ _ fun u h => ?_⟩
  have hu : AxisOnly n s (u.axUpdate n) := AxisOnly.axUpdate h
  dsimp only
  split
  · exact hu.axEvent _
  · split
    · exact hu.onAxis _
    · exact (hu.axEvent _).axRecord _ _

theorem axisOnly_axHalt (t : Instant) (n : Fin 128) (s : State) : Ends (.axHalt t n) s (AxisOnly n s) := by
  refine ⟨_, rfl, keeps_hostWrite (AxisOnly.closed (by decide +kernel)) (AxisOnly.advance s t) _ _ _ _ fun u h => ?_⟩
  have hu : AxisOnly n s (u.axUpdate n) := AxisOnly.axUpdate h
  dsimp only
  split
  · exact hu.onAxis _
  · exact hu

theorem axisOnly_axResultReady (t : Instant) (n : Fin 128) (arith parity : Bool) (s : State) : Ends (.axResultReady t n arith parity) s (AxisOnly n s) := by
  have h := AxisOnly.advance (n := n) s t
  refine ⟨_, rfl, ?_⟩
  dsimp only
  split
  · exact keeps_noteSlack (AxisOnly.closed (by decide +kernel)) (h.putAxis _) _ _ _
  · split
    · split
      · exact h
      · exact h.putAxis _
    · exact h

theorem axisOnly_stepPulse (t : Instant) (n : Fin 128) (s : State) : Ends (.stepPulse t n) s (AxisOnly n s) := by
  have h := AxisOnly.advance (n := n) s t
  refine ⟨_, rfl, ?_⟩
  dsimp only
  split
  · exact (h.putAxis _).driveLevel _ _
  · exact h

/-! ### Capture sets (08 R201, R205) -/

/-- Of the capture sets, only set `n` has changed. -/
def SetOnly (n : Nat) (r s : State) : Prop := OnlyAt 387 405 (fun s => s.trig.sets) n r s

namespace SetOnly

variable {n : Nat} {r s : State}

theorem closed {t : Touch} (h : (t.avoids 387 405 && !t.hasPart .trig) = true) : Closed (SetOnly n r) t := by
  rw [Bool.and_eq_true, Bool.not_eq_true'] at h
  exact OnlyAt.closed h.1 fun _ _ hf => congrArg Trig.sets (hf.part (p := .trig) h.2)

theorem wr (h : SetOnly n r s) (f : Fld) (v : Nat) : SetOnly n r (s.wr f v n) := OnlyAt.wr h f v rfl

theorem putCset (h : SetOnly n r s) (x : CapSet) : SetOnly n r (s.putCset n x) := OnlyAt.put h x rfl rfl

theorem advance (s : State) (t : Instant) : SetOnly n s (s.advance t) := keeps_advance (closed (by decide +kernel)) (OnlyAt.refl s) t

theorem csEvent (h : SetOnly n r s) (bit res : Nat) : SetOnly n r (s.csEvent n bit res) := keeps_csRecord (closed (by decide +kernel)) (h.wr _ _) n bit res

theorem beginFilling (h : SetOnly n r s) : SetOnly n r (s.beginFilling n) := (h.putCset _).wr _ _

end SetOnly

/-- A command of a capture set whose next state differs in that set alone. -/
theorem Ends.otherSets {c : Instr} {s : State} {n m : Nat} {f : Fld} (h : Ends c s (SetOnly n s)) (hm : m ≠ n) (hlo : 387 ≤ f.id) (hhi : f.id ≤ 405) :
    Ends c s (fun u => u.rd f m = s.rd f m ∧ u.cset m = s.cset m) := OnlyAt.ends h hm hlo hhi _

theorem setOnly_csConsumedWrite (t : Instant) (n : Fin 32) (seq : BitVec 64) (s : State) : Ends (.csConsumedWrite t n seq) s (SetOnly n s) := by
  refine ⟨_, rfl, keeps_hostWrite (SetOnly.closed (by decide +kernel)) (SetOnly.advance s t) _ _ _ _ fun u h => ?_⟩
  dsimp only
  split
  · exact keeps_discardOther (SetOnly.closed (by decide +kernel)) (SetOnly.csEvent h _ _) _
  · split
    · exact (SetOnly.wr h _ _).beginFilling
    · exact SetOnly.wr h _ _

theorem setOnly_chunkAck (t : Instant) (n : Fin 32) (count : BitVec 13) (s : State) : Ends (.chunkAck t n count) s (SetOnly n s) := by
  refine ⟨_, rfl, keeps_hostWrite (SetOnly.closed (by decide +kernel)) (SetOnly.advance s t) _ _ _ _ fun u h => ?_⟩
  dsimp only
  split
  · exact (SetOnly.putCset h _).wr _ _
  · exact h

/-- Settles O9: each of the sixteen commands changes its own member alone. -/
theorem oneInstanceLeavesTheOthers : Obligations.OneInstanceLeavesTheOthers := by
  unfold Obligations.OneInstanceLeavesTheOthers
  exact ⟨fun t n _ _ s => (cellOnly_swap t n s).otherCells, fun t n _ _ s => (cellOnly_copy t n s).otherCells,
    fun t n k value _ _ s => (cellOnly_bankWindowWrite t n k value s).otherCells, fun t n value _ _ s => (cellOnly_cStateWrite t n value s).otherCells,
    fun t n _ _ s => (cellOnly_faultClear t n s).otherCells, fun t n _ _ s => (cellOnly_plausClear t n s).otherCells,
    fun t n _ _ s => (cellOnly_stGo t n s).otherCells, fun t n arith parity _ _ s => (cellOnly_loopResultReady t n arith parity s).otherCells,
    fun t n r value _ _ s => (genOnly_pgHostWrite t n r value s).otherGens, fun t n _ _ s => (genOnly_pgUpdate t n s).otherGens,
    fun t n _ _ s => (axisOnly_axGo t n s).otherAxes, fun t n _ _ s => (axisOnly_axHalt t n s).otherAxes,
    fun t n arith parity _ _ s => (axisOnly_axResultReady t n arith parity s).otherAxes, fun t n _ _ s => (axisOnly_stepPulse t n s).otherAxes,
    fun t n seq _ _ s => (setOnly_csConsumedWrite t n seq s).otherSets, fun t n count _ _ s => (setOnly_chunkAck t n count s).otherSets⟩

end Sys2Proof.Machine
end

section
/-! PROOFS.  Enabling and disabling a loop cell (03 R66, R75, R83; 04 R89, R101). -/

namespace Sys2Proof.Machine

open Sys2Proof

/-! ### Host writes of a loop cell's registers -/

/-- A host write that is admitted, of a register without EXPECT, takes effect. -/
theorem State.hostWrite_of_admits {s : State} {off : Nat} (h : s.admits off = true) (hc : commandObject off = none) (f : State → State) (tag : Nat) (command : Bool) :
    s.hostWrite off f tag command = f s := by
  simp only [State.admits, Bool.and_eq_true, Bool.or_eq_true, Bool.not_eq_true'] at h
  obtain ⟨⟨hb, hcov⟩, -⟩ := h
  have hb' : (s.on F.HOST_STATUS_BOOTING && !bootOpen off) = false := by rcases hb with h | h <;> simp [h]
  simp [State.hostWrite, State.coveredGate, hb', hcov, hc]

/-- The registers that carry EXPECT lie above the loop cells. -/
theorem commandObject_of_lt {off : Nat} (h : off < 0x300000) : commandObject off = none := by
  have habove : ∀ base, 0x300000 ≤ base → ¬ base ≤ off := fun base hb => by omega
  have htandem : off ≠ 0xC00010 := by omega
  have hupdate : off ≠ 0xD00200 := by omega
  simp [commandObject, habove, htandem, hupdate]

/-- An admitted host write of a register of a loop cell takes effect once the Warp has moved. -/
theorem State.hostWrite_lcOff {s : State} (t : Instant) {n : Fin 1024} {x : Nat} (hx : x < 0x100) (h : s.admits (lcOff n x) = true) (f : State → State) :
    (s.advance t).hostWrite (lcOff n x) f = f (s.advance t) :=
  State.hostWrite_of_admits (by rwa [State.admits_advance]) (commandObject_of_lt (by simp only [lcOff]; omega)) f 0 true

@[simp] theorem State.ownerLC_advance (s : State) (t : Instant) (n : Nat) : (s.advance t).ownerLC n = s.ownerLC n := s.owner_advance t _

@[simp] theorem State.placed_advance (s : State) (t : Instant) (key : Nat) : (s.advance t).placed key = s.placed key := by
  rw [State.placed, State.advance_loom, State.placed]

/-! ### The enable -/

/-- An enable without a configuration error: the cell enabled and, unless it is FAULTED, started. -/
def State.enableCell (s : State) (n : Nat) : State :=
  let s := (s.wr F.LC_STATUS_CFG_ERR 0 n).wr F.LC_CTRL_ENABLE 1 n
  (((if s.rd F.LC_SUP_STATUS_SUP_STATE n = 3 then s else s.startCell n).wakeQuadrant (n / 256)).runChange).startWake

theorem State.rd_supState_startCell (s : State) (n : Nat) : (s.startCell n).rd F.LC_SUP_STATUS_SUP_STATE n = b2n (s.on F.LC_SUP_CFG_SUP_EN n) := by
  rw [State.startCell, rd_settle _ (by decide), rd_putCs _ _ _ (by decide), State.rd_wr_field _ (by decide), State.rd_wr_same]
  cases s.on F.LC_SUP_CFG_SUP_EN n <;> rfl

/-- A field that the start of a cell and of what follows it does not touch. -/
theorem State.rd_enableCell (s : State) (n : Nat) {f : Fld} (hstart : Touched.startCell.has f.id = false) (hquad : Touched.wakeQuadrant.has f.id = false)
    (hrun : Touched.runChange.has f.id = false) (hwake : Touched.startWake.has f.id = false) (i : Nat) :
    (s.enableCell n).rd f i = ((s.wr F.LC_STATUS_CFG_ERR 0 n).wr F.LC_CTRL_ENABLE 1 n).rd f i := by
  simp only [State.enableCell]
  rw [rd_startWake _ hwake, rd_runChange _ hrun, rd_wakeQuadrant _ _ hquad]
  split
  · rfl
  · exact rd_startCell _ _ hstart i

theorem State.rd_supState_enableCell (s : State) (n : Nat) : (s.enableCell n).rd F.LC_SUP_STATUS_SUP_STATE n =
    if s.rd F.LC_SUP_STATUS_SUP_STATE n = 3 then 3 else b2n (s.on F.LC_SUP_CFG_SUP_EN n) := by
  have hkept {f : Fld} (herr : (f.id == F.LC_STATUS_CFG_ERR.id) = false) (hen : (f.id == F.LC_CTRL_ENABLE.id) = false) :
      ((s.wr F.LC_STATUS_CFG_ERR 0 n).wr F.LC_CTRL_ENABLE 1 n).rd f n = s.rd f n := by
    rw [State.rd_wr_field _ hen, State.rd_wr_field _ herr]
  simp only [State.enableCell]
  rw [rd_startWake _ (by decide), rd_runChange _ (by decide), rd_wakeQuadrant _ _ (by decide), hkept (f := F.LC_SUP_STATUS_SUP_STATE) (by decide) (by decide)]
  split
  · rwa [hkept (by decide) (by decide)]
  · rw [State.rd_supState_startCell, State.on, hkept (by decide) (by decide), State.on]

/-- What a write of LC_CTRL may change beside ENABLE. -/
def Touched.lcCtrlWrite : Touch :=
  { regs := Touched.advance.regs ++ Touched.lcCtrlFields.regs ++ Touched.discardOther.regs, parts := Touched.advance.parts ++ Touched.discardOther.parts }

/-- The codes of CFG_ERR end at 7. -/
theorem State.cfgErr_le (s : State) (n : Nat) : s.cfgErr n ≤ 7 := by
  simp only [State.cfgErr]
  split_ifs <;> decide

section
variable {t : Instant} {n : Fin 1024} {value : Word} {s : State}

theorem State.on_enable_lcCtrlFields (op : Bool) : ((s.advance t).lcCtrlFields n value.toNat op).on F.LC_CTRL_ENABLE n = s.on F.LC_CTRL_ENABLE n := by
  rw [State.on, rd_lcCtrlFields _ _ _ _ (by decide), rd_advance s t (by decide), State.on]

/-- A write with ENABLE of a cell of the Beam that is disabled, while its partition is in STOP. -/
theorem execLcEnable_disabled (hadm : s.admits (lcOff n 0) = true) (hopen : s.rwlOpen (s.ownerLC n) = true) (hplaced : s.placed (loopKey n) = true)
    (hoff : s.rd F.LC_CTRL_ENABLE n = 0) : execLcEnable t n value s = .next
      (if ((s.advance t).lcCtrlFields n value.toNat true).cfgErr n ≠ 0 then
        (((s.advance t).lcCtrlFields n value.toNat true).wr F.LC_STATUS_CFG_ERR (((s.advance t).lcCtrlFields n value.toNat true).cfgErr n) n).wr F.LC_EVENT_ENABLE_REFUSED 1 n
      else ((s.advance t).lcCtrlFields n value.toNat true).enableCell n) := by
  have hdis : ((s.advance t).lcCtrlFields n value.toNat true).on F.LC_CTRL_ENABLE n = false := by
    rw [State.on_enable_lcCtrlFields, State.on, hoff]
    rfl
  simp only [execLcEnable, State.hostWrite_lcOff t (by decide) hadm, State.placed_advance, State.rwlOpen_advance, State.ownerLC_advance, hplaced, hopen, Bool.not_true,
    Bool.false_eq_true, if_false, hdis]
  rfl

/-- A write with ENABLE of a cell that is enabled writes no more than MODE, INIT_LEVEL and VIEW, or is discarded. -/
theorem execLcEnable_enabled (hadm : s.admits (lcOff n 0) = true) (hon : s.rd F.LC_CTRL_ENABLE n ≠ 0) :
    ∃ u, execLcEnable t n value s = .next u ∧ Frame Touched.lcCtrlWrite s u := by
  have hen (op : Bool) : ((s.advance t).lcCtrlFields n value.toNat op).on F.LC_CTRL_ENABLE n = true := by
    rw [State.on_enable_lcCtrlFields, State.on, bne_iff_ne]
    exact hon
  have hc : Closed (Frame Touched.lcCtrlWrite s) Touched.lcCtrlWrite := closed_frame _ s
  have hadv : Frame Touched.lcCtrlWrite s (s.advance t) := keeps_advance (hc.mono (by decide)) (Frame.refl _ s) t
  have hfields (op : Bool) : Frame Touched.lcCtrlWrite s ((s.advance t).lcCtrlFields n value.toNat op) := keeps_lcCtrlFields (hc.mono (by decide)) hadv _ _ _
  refine ⟨_, rfl, ?_⟩
  rw [State.hostWrite_lcOff t (by decide) hadm]
  simp only [hen, if_true]
  exact Keeps.ite (keeps_discardOther (hc.mono (by decide)) hadv _) (Keeps.ite (keeps_discard (hc.mono (by decide)) (hfields _) _ _) (hfields _))

end

/-! ### The disable -/

theorem execLcDisable_open {t : Instant} {n : Fin 1024} {value : Word} {s : State} (hadm : s.admits (lcOff n 0) = true) (hopen : s.rwlOpen (s.ownerLC n) = true) :
    execLcDisable t n value s = .next (((s.advance t).lcCtrlFields n value.toNat true).haltCell n) := by
  simp only [execLcDisable, State.hostWrite_lcOff t (by decide) hadm, State.rwlOpen_advance, State.ownerLC_advance, hopen, if_true]

theorem State.cell_haltCell (s : State) (n : Nat) : (s.haltCell n).cell n = { s.cell n with latched := none, eval := none, lates := [], parityDue := false } := by
  rw [State.haltCell, State.cell_congr ((keeps_runChange (closed_frame _ _) (Frame.refl _ _)).part (p := .cells) rfl), State.cell_congr (State.wr_cells _ _ _ _),
    State.cell_congr (State.wr_cells _ _ _ _), State.cell_congr (State.wr_cells _ _ _ _), State.cell_putCell_same]

theorem State.frame_haltCell (s : State) (n : Nat) : Frame Touched.haltCell s (s.haltCell n) := keeps_haltCell (closed_frame _ s) (Frame.refl _ s) n

theorem State.rd_enable_haltCell (s : State) (n : Nat) : (s.haltCell n).rd F.LC_CTRL_ENABLE n = 0 := by
  rw [State.haltCell, rd_runChange _ (by decide), State.rd_wr_field _ (by decide), State.rd_wr_field _ (by decide), State.rd_wr_same, Nat.zero_mod]

theorem State.rd_running_haltCell (s : State) (n : Nat) : (s.haltCell n).rd F.LC_STATUS_RUNNING n = 0 := by
  rw [State.haltCell, rd_runChange _ (by decide), State.rd_wr_field _ (by decide), State.rd_wr_same, Nat.zero_mod]

/-- Settles O18. -/
theorem loopCellsEnableAndDisable : Obligations.LoopCellsEnableAndDisable := by
  unfold Obligations.LoopCellsEnableAndDisable
  refine ⟨?accepted, ?refused, ?enabled, ?disable⟩
  case accepted =>
    intro t n value s hadm hopen hplaced hoff herr
    refine ⟨_, (execLcEnable_disabled hadm hopen hplaced hoff).trans (by rw [if_neg (not_not_intro herr)]), ?_, ?_, ?_, ?_⟩
    · rw [State.rd_enableCell _ _ (by decide) (by decide) (by decide) (by decide), State.rd_wr_same]
      rfl
    · rw [State.rd_enableCell _ _ (by decide) (by decide) (by decide) (by decide), State.rd_wr_field _ (by decide), State.rd_wr_same, Nat.zero_mod]
    all_goals
      intro h
      rw [State.rd_supState_enableCell, rd_lcCtrlFields _ _ _ _ (by decide), rd_advance s t (by decide)]
    · rw [if_neg h, State.on, rd_lcCtrlFields _ _ _ _ (by decide), rd_advance s t (by decide), State.on]
    · rw [if_pos h]
  case refused =>
    intro t n value s hadm hopen hplaced hoff herr
    refine ⟨_, (execLcEnable_disabled hadm hopen hplaced hoff).trans (by rw [if_pos herr]), ?_, ?_, State.rd_wr_same _ _ _ _⟩
    · rw [State.rd_wr_field _ (by decide), State.rd_wr_field _ (by decide), rd_lcCtrlFields _ _ _ _ (by decide), rd_advance s t (by decide), hoff]
    · rw [State.rd_wr_field _ (by decide), State.rd_wr_same]
      exact Nat.mod_eq_of_lt (lt_of_le_of_lt (State.cfgErr_le _ _) (by decide))
  case enabled =>
    intro t n value s hadm hon
    obtain ⟨u, hu, hf⟩ := execLcEnable_enabled hadm hon
    exact ⟨u, hu, hf.rd (by decide) n, hf.rd (by decide) n, hf.part (p := .cells) rfl⟩
  case disable =>
    intro t n value s hadm hopen
    have hf := ((s.advance t).lcCtrlFields n value.toNat true).frame_haltCell n
    refine ⟨_, execLcDisable_open hadm hopen, State.rd_enable_haltCell _ n, State.rd_running_haltCell _ n, ?_, ?_, ?_, ?_, ?_⟩
    · rw [State.cell_haltCell]
    · rw [State.cell_haltCell]
    · rw [rd_haltCell _ _ (by decide), rd_lcCtrlFields _ _ _ _ (by decide), rd_advance s t (by decide)]
    · exact (hf.part (p := .fio) rfl).trans ((frame_advance s t).part (p := .fio) rfl)
    · exact (hf.part (p := .aout) rfl).trans ((frame_advance s t).part (p := .aout) rfl)

end Sys2Proof.Machine
end

section
/-! PROOFS.  The coefficient banks of a loop cell: window, COPY, SWAP and C_STATE (03 R63, R78 to R82). -/

namespace Sys2Proof.Machine

open Sys2Proof

/-! ### The two banks (R78) -/

/-- The banks of a cell are those of its two bank fields and ACTIVE_BANK. -/
theorem State.banks_congr {s u : State} {n : Nat} (ha : u.rd F.LC_STATUS_ACTIVE_BANK n = s.rd F.LC_STATUS_ACTIVE_BANK n)
    (hA : (u.cell n).bankA = (s.cell n).bankA) (hB : (u.cell n).bankB = (s.cell n).bankB) : u.active n = s.active n ∧ u.shadow n = s.shadow n := by
  have hon : u.on F.LC_STATUS_ACTIVE_BANK n = s.on F.LC_STATUS_ACTIVE_BANK n := congrArg (· != 0) ha
  simp only [State.active, State.shadow, hon, hA, hB, and_self]

theorem State.banks_advance (s : State) (t : Instant) (n : Nat) : (s.advance t).active n = s.active n ∧ (s.advance t).shadow n = s.shadow n :=
  State.banks_congr (rd_advance s t (by decide) n) (by rw [State.cell_advance]) (by rw [State.cell_advance])

@[simp] theorem State.active_advance (s : State) (t : Instant) (n : Nat) : (s.advance t).active n = s.active n := (s.banks_advance t n).1

@[simp] theorem State.shadow_advance (s : State) (t : Instant) (n : Nat) : (s.advance t).shadow n = s.shadow n := (s.banks_advance t n).2

@[simp] theorem State.treadleBusy_advance (s : State) (t : Instant) (o : Option Nat) : (s.advance t).treadleBusy o = s.treadleBusy o := by
  cases o <;> simp only [State.treadleBusy, rd_advance s t (fld := F.TR_STATUS_STATE) (by decide)]

/-! ### The shadow bank written (R78, R79) -/

theorem State.rd_shadowValid_putShadow (s : State) (n : Nat) (b : Bank) : (s.putShadow n b).rd F.LC_STATUS_SHADOW_VALID n = b2n b.valid := by
  rw [State.putShadow, State.rd_wr_same, b2n_mod_two_pow (by decide)]

theorem State.on_activeBank_putShadow (s : State) (n : Nat) (b : Bank) : (s.putShadow n b).on F.LC_STATUS_ACTIVE_BANK n = s.on F.LC_STATUS_ACTIVE_BANK n := by
  rw [State.on, rd_putShadow _ _ _ (by decide), State.on]

theorem State.cell_putShadow (s : State) (n : Nat) (b : Bank) :
    (s.putShadow n b).cell n = if s.on F.LC_STATUS_ACTIVE_BANK n then { s.cell n with bankA := b } else { s.cell n with bankB := b } := by
  rw [State.putShadow, State.cell_congr (State.wr_cells _ _ _ _), State.cell_putCell_same]

@[simp] theorem State.shadow_putShadow (s : State) (n : Nat) (b : Bank) : (s.putShadow n b).shadow n = b := by
  rw [State.shadow, State.on_activeBank_putShadow, State.cell_putShadow]
  cases s.on F.LC_STATUS_ACTIVE_BANK n <;> rfl

@[simp] theorem State.active_putShadow (s : State) (n : Nat) (b : Bank) : (s.putShadow n b).active n = s.active n := by
  rw [State.active, State.on_activeBank_putShadow, State.cell_putShadow, State.active]
  cases s.on F.LC_STATUS_ACTIVE_BANK n <;> rfl

/-! ### CS (R63) -/

theorem clampInt_cases (lo hi x : Int) : clampInt lo hi x = lo ∨ clampInt lo hi x = hi ∨ clampInt lo hi x = x := by
  unfold clampInt
  split_ifs <;> simp

/-- CS clamped to a bank fits its 48 bits where what is clamped does. -/
theorem Bank.clampCs_range (b : Bank) {cs : Int} (hlo : -2 ^ 47 ≤ cs) (hhi : cs < 2 ^ 47) : -2 ^ 47 ≤ b.clampCs cs ∧ b.clampCs cs < 2 ^ 47 := by
  have hmin := toSigned_32_range (b.word 8)
  have hmax := toSigned_32_range (b.word 9)
  unfold Bank.clampCs Bank.cmin Bank.cmax Bank.int
  rcases clampInt_cases (toSigned 32 (b.word 8) * 2 ^ 16) (toSigned 32 (b.word 9) * 2 ^ 16) cs with h | h | h <;> rw [h] <;> omega

/-- CS as it stands fits its 48 bits. -/
theorem State.cs_range (s : State) (n : Nat) : -2 ^ 47 ≤ s.cs n ∧ s.cs n < 2 ^ 47 := by
  simp only [State.cs, toSigned]
  split <;> omega

theorem State.cs_congr {s u : State} {n : Nat} (h : u.rd F.LC_C_STATE n = s.rd F.LC_C_STATE n) : u.cs n = s.cs n := congrArg (toSigned 48) h

theorem State.cs_putCs (s : State) (n : Nat) {cs : Int} (hlo : -2 ^ 47 ≤ cs) (hhi : cs < 2 ^ 47) : (s.putCs n cs).cs n = (s.active n).clampCs cs := by
  obtain ⟨hl, hh⟩ := (s.active n).clampCs_range hlo hhi
  rw [State.cs, State.putCs, State.rd_wr_field _ (by decide), State.rd_wr_field _ (by decide), State.rd_wr_same]
  exact (congrArg (toSigned 48) (Nat.mod_eq_of_lt (ofSigned_lt 48 _))).trans (toSigned_ofSigned (by decide) hl hh)

/-! ### A swap (R80, R81) -/

/-- A cell whose banks are exchanged, before CS and the level are clamped to the new active bank. -/
def State.exchangeBanks (s : State) (n : Nat) : State :=
  let c := s.cell n
  let s := s.putCell n { c with reclamp := c.eval.isSome || c.latched.isSome || c.reclamp, swapAsked := false }
  let s := s.wr F.LC_STATUS_ACTIVE_BANK (1 - s.rd F.LC_STATUS_ACTIVE_BANK n) n
  s.wr F.LC_STATUS_SHADOW_VALID (b2n (s.shadow n).valid) n

theorem State.doSwap_eq (s : State) (n : Nat) : s.doSwap n = ((s.exchangeBanks n).swapClamp n).wr F.LC_EVENT_SWAP_DONE 1 n := rfl

section
variable {s : State} {n : Nat}

theorem State.rd_activeBank_exchangeBanks (h : s.rd F.LC_STATUS_ACTIVE_BANK n < 2) :
    (s.exchangeBanks n).rd F.LC_STATUS_ACTIVE_BANK n = 1 - s.rd F.LC_STATUS_ACTIVE_BANK n := by
  rw [State.exchangeBanks, State.rd_wr_field _ (by decide), State.rd_wr_same]
  exact Nat.mod_eq_of_lt (show 1 - s.rd F.LC_STATUS_ACTIVE_BANK n < 2 by omega)

theorem State.cell_exchangeBanks (s : State) (n : Nat) : (s.exchangeBanks n).cell n =
    { s.cell n with reclamp := (s.cell n).eval.isSome || (s.cell n).latched.isSome || (s.cell n).reclamp, swapAsked := false } := by
  rw [State.exchangeBanks, State.cell_congr (State.wr_cells _ _ _ _), State.cell_congr (State.wr_cells _ _ _ _), State.cell_putCell_same]

theorem State.banks_exchangeBanks (h : s.rd F.LC_STATUS_ACTIVE_BANK n < 2) :
    (s.exchangeBanks n).active n = s.shadow n ∧ (s.exchangeBanks n).shadow n = s.active n := by
  have hon : (s.exchangeBanks n).on F.LC_STATUS_ACTIVE_BANK n = !s.on F.LC_STATUS_ACTIVE_BANK n := by
    have hcases : s.rd F.LC_STATUS_ACTIVE_BANK n = 0 ∨ s.rd F.LC_STATUS_ACTIVE_BANK n = 1 := by omega
    rw [State.on, State.rd_activeBank_exchangeBanks h, State.on]
    rcases hcases with hb | hb <;> rw [hb] <;> rfl
  simp only [State.active, State.shadow, hon, State.cell_exchangeBanks]
  cases s.on F.LC_STATUS_ACTIVE_BANK n <;> exact ⟨rfl, rfl⟩

end

/-- The clamps of a swap leave the banks. -/
theorem State.banks_swapClamp (s : State) (n : Nat) : (s.swapClamp n).active n = s.active n ∧ (s.swapClamp n).shadow n = s.shadow n := by
  have hcell : ((s.swapClamp n).cell n).bankA = (s.cell n).bankA ∧ ((s.swapClamp n).cell n).bankB = (s.cell n).bankB := by
    simp only [State.swapClamp]
    split
    · rw [State.cell_congr (State.settle_cells _), State.cell_congr (State.countMove_cells _ _), State.cell_congr (State.wr_cells _ _ _ _),
        State.cell_congr (State.wr_cells _ _ _ _), State.cell_putCell_same]
      exact ⟨rfl, rfl⟩
    · exact ⟨rfl, rfl⟩
  exact State.banks_congr (rd_swapClamp _ _ (by decide) n) hcell.1 hcell.2

/-- They clamp CS to the active bank. -/
theorem State.cs_swapClamp (s : State) (n : Nat) : (s.swapClamp n).cs n = (s.active n).clampCs (s.cs n) := by
  obtain ⟨hlo, hhi⟩ := s.cs_range n
  rw [← s.cs_putCs n hlo hhi]
  refine State.cs_congr ?_
  simp only [State.swapClamp]
  split
  · rw [rd_settle _ (by decide), rd_countMove _ _ (by decide), State.rd_wr_field _ (by decide), State.rd_wr_field _ (by decide), rd_putCell _ _ _ (by decide)]
  · rfl

/-- A swap exchanges the banks, clamps CS to the one now active and sets SWAP_DONE. -/
theorem State.doSwap_spec {s : State} {n : Nat} (h : s.rd F.LC_STATUS_ACTIVE_BANK n < 2) :
    (s.doSwap n).rd F.LC_STATUS_ACTIVE_BANK n = 1 - s.rd F.LC_STATUS_ACTIVE_BANK n ∧ (s.doSwap n).active n = s.shadow n ∧
    (s.doSwap n).shadow n = s.active n ∧ (s.doSwap n).rd F.LC_EVENT_SWAP_DONE n = 1 ∧ (s.doSwap n).cs n = (s.shadow n).clampCs (s.cs n) := by
  obtain ⟨hactive, hshadow⟩ := State.banks_exchangeBanks h
  obtain ⟨hactive', hshadow'⟩ := (s.exchangeBanks n).banks_swapClamp n
  have hbanks := State.banks_congr (s := (s.exchangeBanks n).swapClamp n) (u := s.doSwap n) (n := n) (State.rd_wr_field _ (by decide) _ _ _) rfl rfl
  have hcs : (s.exchangeBanks n).cs n = s.cs n := State.cs_congr (by
    rw [State.exchangeBanks, State.rd_wr_field _ (by decide), State.rd_wr_field _ (by decide), rd_putCell _ _ _ (by decide)])
  refine ⟨?_, hbanks.1.trans (hactive'.trans hactive), hbanks.2.trans (hshadow'.trans hshadow), State.rd_wr_same _ _ _ _, ?_⟩
  · rw [State.doSwap_eq, State.rd_wr_field _ (by decide), rd_swapClamp _ _ (by decide), State.rd_activeBank_exchangeBanks h]
  · rw [State.doSwap_eq, State.cs_congr (State.rd_wr_field _ (by decide) _ _ _), State.cs_swapClamp, hactive, hcs]

/-! ### The commands -/

section
variable {t : Instant} {n : Fin 1024} {s : State}

theorem execBankWindowWrite_free {k : Fin 24} {value : Word} (hadm : s.admits (lcOff n (0xA0 + 4 * k)) = true) (hfree : s.treadleBusy (s.ownerLC n) = false) :
    execBankWindowWrite t n k value s = .next ((s.advance t).putShadow n ((s.shadow n).put k value.toNat)) := by
  simp only [execBankWindowWrite, State.hostWrite_lcOff t (by omega) hadm, State.treadleBusy_advance, State.ownerLC_advance, hfree, Bool.false_eq_true, if_false,
    State.shadow_advance]

theorem execCopy_free (hadm : s.admits (lcOff n 0) = true) (hfree : s.treadleBusy (s.ownerLC n) = false) :
    execCopy t n s = .next ((s.advance t).putShadow n (s.active n)) := by
  simp only [execCopy, State.hostWrite_lcOff t (by decide) hadm, State.treadleBusy_advance, State.ownerLC_advance, hfree, Bool.false_eq_true, if_false, State.active_advance]

theorem execSwap_free (hadm : s.admits (lcOff n 0) = true) (hfree : s.treadleBusy (s.ownerLC n) = false) : execSwap t n s = .next
    (if s.on F.LC_CTRL_ENABLE n then
      if s.on F.LC_STATUS_SHADOW_VALID n then (s.advance t).putCell n { s.cell n with swapAsked := true } else (s.advance t).wr F.LC_EVENT_SWAP_REFUSED 1 n
    else (s.advance t).trySwap n) := by
  simp only [execSwap, State.hostWrite_lcOff t (by decide) hadm, State.treadleBusy_advance, State.ownerLC_advance, hfree, Bool.false_eq_true, if_false,
    s.on_advance t (f := F.LC_CTRL_ENABLE) (by decide), s.on_advance t (f := F.LC_STATUS_SHADOW_VALID) (by decide), State.cell_advance]

/-- Refused for an invalid shadow, a SWAP sets SWAP_REFUSED and leaves the banks; on a disabled cell it is asked no more. -/
theorem execSwap_invalid (hadm : s.admits (lcOff n 0) = true) (hfree : s.treadleBusy (s.ownerLC n) = false) (hinvalid : s.rd F.LC_STATUS_SHADOW_VALID n = 0) :
    ∃ x : State, execSwap t n s = .next (x.wr F.LC_EVENT_SWAP_REFUSED 1 n) ∧ x.regs = (s.advance t).regs ∧ (x.cell n).bankA = (s.cell n).bankA ∧
      (x.cell n).bankB = (s.cell n).bankB := by
  have hoff : s.on F.LC_STATUS_SHADOW_VALID n = false := congrArg (· != 0) hinvalid
  have hoff' : (s.advance t).on F.LC_STATUS_SHADOW_VALID n = false := by rw [s.on_advance t (by decide), hoff]
  rw [execSwap_free hadm hfree, hoff, State.trySwap, hoff']
  cases s.on F.LC_CTRL_ENABLE n with
  | false => exact ⟨_, rfl, rfl, by rw [State.cell_putCell_same, State.cell_advance], by rw [State.cell_putCell_same, State.cell_advance]⟩
  | true => exact ⟨_, rfl, rfl, by rw [State.cell_advance], by rw [State.cell_advance]⟩

theorem execCStateWrite_open {value : BitVec 48} (hadm : s.admits (lcOff n 0x50) = true) (hopen : s.rwlOpen (s.ownerLC n) = true) :
    ∃ c, execCStateWrite t n value s = .next (((s.advance t).putCs n value.toInt).putCell n c) := by
  simp only [execCStateWrite, State.rwlWrite, State.hostWrite_lcOff t (by decide) hadm, State.rwlOpen_advance, State.ownerLC_advance, hopen, if_true]
  exact ⟨_, rfl⟩

end

/-- Settles O19. -/
theorem loopBanks : Obligations.LoopBanks := by
  unfold Obligations.LoopBanks
  refine ⟨?window, ?copy, ?disabled, ?enabled, ?invalid, ?cState⟩
  case window =>
    intro t n k value s hadm hfree
    exact ⟨_, execBankWindowWrite_free hadm hfree, State.shadow_putShadow _ _ _, by rw [State.active_putShadow, State.active_advance], State.rd_shadowValid_putShadow _ _ _⟩
  case copy =>
    intro t n s hadm hfree
    exact ⟨_, execCopy_free hadm hfree, State.shadow_putShadow _ _ _, by rw [State.active_putShadow, State.active_advance]⟩
  case disabled =>
    intro t n s hadm hfree hoff hvalid hbank
    have hbank' := rd_advance s t (fld := F.LC_STATUS_ACTIVE_BANK) (by decide) n
    have hspec := State.doSwap_spec (s := s.advance t) (n := n) (by rwa [hbank'])
    rw [hbank', State.shadow_advance, State.active_advance, State.cs_congr (rd_advance s t (by decide) n)] at hspec
    have hon : (s.advance t).on F.LC_STATUS_SHADOW_VALID n = true := by
      rw [s.on_advance t (by decide), State.on, bne_iff_ne]
      exact hvalid
    refine ⟨_, (execSwap_free hadm hfree).trans ?_, hspec⟩
    rw [State.trySwap, if_pos hon, State.on, hoff]
    rfl
  case enabled =>
    intro t n s hadm hfree hen hvalid
    have hon {f : Fld} (h : s.rd f n ≠ 0) : s.on f n = true := bne_iff_ne.mpr h
    refine ⟨_, (execSwap_free hadm hfree).trans (by rw [if_pos (hon hen), if_pos (hon hvalid)]), by rw [State.cell_putCell_same], ?_⟩
    rw [rd_putCell _ _ _ (by decide), rd_advance s t (by decide)]
  case invalid =>
    intro t n s hadm hfree hinvalid
    obtain ⟨x, hu, hregs, hA, hB⟩ := execSwap_invalid (t := t) hadm hfree hinvalid
    have hbank : (x.wr F.LC_EVENT_SWAP_REFUSED 1 n).rd F.LC_STATUS_ACTIVE_BANK n = s.rd F.LC_STATUS_ACTIVE_BANK n := by
      rw [State.rd_wr_field _ (by decide), State.rd_congr hregs, rd_advance s t (by decide)]
    exact ⟨_, hu, State.rd_wr_same _ _ _ _, hbank, (State.banks_congr hbank hA hB).1⟩
  case cState =>
    intro t n value s hadm hopen
    obtain ⟨c, hu⟩ := execCStateWrite_open (t := t) (value := value) hadm hopen
    refine ⟨_, hu, (State.cs_congr (rd_putCell _ _ _ (by decide) _)).trans ?_⟩
    rw [State.cs_putCs _ _ (BitVec.le_toInt value) BitVec.toInt_lt, State.active_advance]

end Sys2Proof.Machine
end

section
/-! PROOFS.  The comparators of an event-mode cell (03 R84 to R87, R475) and the PWM of a pin (03 R73). -/

namespace Sys2Proof.Machine

open Sys2Proof

/-! ### What a transition leaves in the cell (R86) -/

theorem State.driveWith_cells (s : State) (n p : Nat) (u : Int) : (s.driveWith n p u).cells = (s.putCell n { s.cell n with inForce := u }).cells := by
  unfold State.driveWith
  dsimp only
  split
  · split <;> simp
  · rfl
  · split <;> simp
  · rfl

/-- The output delivered is the value in force; nothing else of the cell changes. -/
theorem State.cell_putU (s : State) (n : Nat) (u : Int) : (s.putU n u).cell n = { s.cell n with inForce := u } := by
  have hcells : ((s.wrI F.LC_U u n).publish 0 n (ofSigned 32 u)).cells = s.cells := by rw [State.publish_cells, State.wrI_cells]
  rw [State.putU, State.putUWith, State.cell_congr (State.driveWith_cells _ _ _ _), State.cell_putCell_same, State.cell_congr hcells]

theorem State.move_loadCodes (s : State) (n : Nat) (codes : List (Nat × Nat)) : ((s.loadCodes n codes).cell n).j = (s.cell n).j ∧
    ((s.loadCodes n codes).cell n).lastMove = (s.cell n).lastMove := by
  simp only [State.loadCodes, State.cell_congr (State.wr_cells _ _ _ _), State.cell_putCell_same, and_self]

/-- The level of a transition, up or down. -/
def levelAfter (j : Nat) (up : Bool) : Nat := if up then j + 1 else j - 1

/-- A transition of cell `n` before its codes and its output: the level, the dwell memory, the odometer and the saturation of u. -/
def State.moveLevel (s : State) (n : Nat) (up : Bool) (clamped : Bool) : State :=
  let c := s.cell n
  let j := levelAfter c.j up
  let s' := s.putCell n { c with j := j, lastMove := some (s.now, up), blankEnd := addNs s.now (min 1000 (s.rd F.LC_EVT_CFG n)) }
  let s' := ((s'.wr F.LC_STATUS_LEVEL j n).countMove n).wr F.LC_STATUS_DWELL_WAIT 0 n
  s'.when clamped (fun s => (s.bump F.LC_SAT_CNT n).setBit F.LC_SAT_SRC 6 n)

theorem State.eventMove_eq (s : State) (n : Nat) (up : Bool) : ∃ (clamped : Bool) (u : Int),
    s.eventMove n up = (((s.moveLevel n up clamped).loadCodes n (s.cell n).codes).putU n u).settle.crossingChans n := by
  unfold State.eventMove
  extract_lets c b j raw u blank placed counted clamped
  have hclamped : clamped = counted.when (u != raw) (fun s => (s.bump F.LC_SAT_CNT n).setBit F.LC_SAT_SRC 6 n) := by
    by_cases h : u = raw
    · simp only [clamped, h, if_true, bne_self_eq_false, State.when_false]
    · simp only [clamped, h, if_false, bne_iff_ne.mpr h, State.when_true]
  exact ⟨u != raw, u, by rw [hclamped]; rfl⟩

theorem State.cell_moveLevel (s : State) (n : Nat) (up clamped : Bool) : ((s.moveLevel n up clamped).cell n).j = levelAfter (s.cell n).j up ∧
    ((s.moveLevel n up clamped).cell n).lastMove = some (s.now, up) := by
  have hcells (u : State) : (u.when clamped (fun s => (s.bump F.LC_SAT_CNT n).setBit F.LC_SAT_SRC 6 n)).cells = u.cells := by cases clamped <;> rfl
  simp only [State.moveLevel, State.cell_congr (hcells _), State.cell_congr (State.wr_cells _ _ _ _), State.cell_congr (State.countMove_cells _ _),
    State.cell_putCell_same, and_self]

theorem State.rd_level_moveLevel (s : State) (n : Nat) (up clamped : Bool) :
    (s.moveLevel n up clamped).rd F.LC_STATUS_LEVEL n = levelAfter (s.cell n).j up % 2 ^ F.LC_STATUS_LEVEL.width := by
  have hclamp (u : State) : (u.when clamped (fun s => (s.bump F.LC_SAT_CNT n).setBit F.LC_SAT_SRC 6 n)).rd F.LC_STATUS_LEVEL n = u.rd F.LC_STATUS_LEVEL n := by
    cases clamped with
    | false => rfl
    | true => rw [State.when_true, State.rd_setBit_field _ _ _ _ (by decide), State.rd_bump_field _ _ _ _ (by decide)]
  simp only [State.moveLevel]
  rw [hclamp, State.rd_wr_field _ (by decide), rd_countMove _ _ (by decide), State.rd_wr_same]

/-- A transition changes the level by one, and is the last move, made now. -/
theorem State.eventMove_spec (s : State) (n : Nat) (up : Bool) : ((s.eventMove n up).cell n).j = levelAfter (s.cell n).j up ∧
    (s.eventMove n up).rd F.LC_STATUS_LEVEL n = levelAfter (s.cell n).j up % 2 ^ F.LC_STATUS_LEVEL.width ∧
    ((s.eventMove n up).cell n).lastMove = some (s.now, up) := by
  obtain ⟨clamped, u, hmove⟩ := s.eventMove_eq n up
  obtain ⟨hj, hlast⟩ := s.cell_moveLevel n up clamped
  obtain ⟨hj', hlast'⟩ := (s.moveLevel n up clamped).move_loadCodes n (s.cell n).codes
  have hcell : ((((s.moveLevel n up clamped).loadCodes n (s.cell n).codes).putU n u).settle.crossingChans n).cell n =
      { ((s.moveLevel n up clamped).loadCodes n (s.cell n).codes).cell n with inForce := u } := by
    rw [State.cell_congr ((keeps_crossingChans (closed_frame _ _) (Frame.refl _ _) n).part (p := .cells) rfl), State.cell_congr (State.settle_cells _), State.cell_putU]
  rw [hmove, hcell]
  refine ⟨hj'.trans hj, ?_, hlast'.trans hlast⟩
  rw [rd_crossingChans _ _ (by decide), rd_settle _ (by decide), rd_putU _ _ _ (by decide), rd_loadCodes _ _ _ (by decide), State.rd_level_moveLevel]

/-! ### Trips (R87, R475) -/

/-- The cell with one of its comparators tripped or released. -/
def LoopCell.withTrip (c : LoopCell) (rise tripped : Bool) : LoopCell := if rise then { c with tripRise := tripped } else { c with tripFall := tripped }

theorem LoopCell.withTrip_spec (c : LoopCell) (rise tripped : Bool) :
    (if rise then (c.withTrip rise tripped).tripRise else (c.withTrip rise tripped).tripFall) = tripped ∧ (c.withTrip rise tripped).j = c.j := by
  cases rise <;> exact ⟨rfl, rfl⟩

/-- Whether a comparator's decision may act does not depend on what is tripped. -/
theorem State.mayMove_withTrip (s : State) (n : Nat) (rise tripped up : Bool) : (s.putCell n ((s.cell n).withTrip rise tripped)).mayMove n up = s.mayMove n up := by
  have hactive : (s.putCell n ((s.cell n).withTrip rise tripped)).active n = s.active n := by
    refine (State.banks_congr (rd_putCell s n _ (by decide) n) ?_ ?_).1 <;> rw [State.cell_putCell_same] <;> cases rise <;> rfl
  simp only [State.mayMove, hactive, State.cell_putCell_same]
  cases rise <;> rfl

theorem State.eventCell_advance (s : State) (t : Instant) (a : Nat) : (s.advance t).eventCell a = s.eventCell a := by
  have hkeys : (s.advance t).keysOf F.LC_STATUS_EVT_ARMED = s.keysOf F.LC_STATUS_EVT_ARMED := congrArg Tbl.keys ((frame_advance s t).1 _ rfl)
  simp only [State.eventCell, hkeys, s.on_advance t (f := F.LC_STATUS_EVT_ARMED) (by decide), rd_advance s t (fld := F.LC_SRC_Y_ID) (by decide)]

section
variable {t : Instant} {ain : Fin 96} {rise : Bool} {s : State} {n : Nat}

theorem execComparatorTrip_moves (hcell : s.eventCell ain = some n) (hmay : (s.advance t).mayMove n rise = true) :
    execComparatorTrip t ain rise s = .next (((s.advance t).putCell n ((s.cell n).withTrip rise true)).eventMove n rise) := by
  have hmay' := ((s.advance t).mayMove_withTrip n rise true rise).trans hmay
  rw [State.cell_advance] at hmay'
  simp only [execComparatorTrip, State.eventCell_advance, hcell, State.cell_advance]
  exact congrArg _ (if_pos hmay')

theorem execComparatorTrip_held (hcell : s.eventCell ain = some n) (hmay : (s.advance t).mayMove n rise = false) :
    ∃ wait, execComparatorTrip t ain rise s = .next (((s.advance t).putCell n ((s.cell n).withTrip rise true)).wr F.LC_STATUS_DWELL_WAIT wait n) := by
  have hmay' := ((s.advance t).mayMove_withTrip n rise true rise).trans hmay
  rw [State.cell_advance] at hmay'
  simp only [execComparatorTrip, State.eventCell_advance, hcell, State.cell_advance]
  exact ⟨_, congrArg _ (if_neg (Bool.not_eq_true _ ▸ hmay'))⟩

theorem execComparatorRelease_cell (hcell : s.eventCell ain = some n) :
    execComparatorRelease t ain rise s = .next ((s.advance t).putCell n ((s.cell n).withTrip rise false)) := by
  simp only [execComparatorRelease, State.eventCell_advance, hcell, State.cell_advance]
  rfl

end

section
variable {t : Instant} {n : Fin 1024} {s : State}

theorem execEventHoldEnd_rises (htrip : (s.cell n).tripRise = true) (hmay : (s.advance t).mayMove n true = true) :
    execEventHoldEnd t n s = .next ((s.advance t).eventMove n true) := by
  simp only [execEventHoldEnd, State.cell_advance, htrip, hmay, Bool.and_true, if_true]

theorem execEventHoldEnd_falls (htrip : (s.cell n).tripFall = true) (hrise : (s.advance t).mayMove n true = false) (hmay : (s.advance t).mayMove n false = true) :
    execEventHoldEnd t n s = .next ((s.advance t).eventMove n false) := by
  simp only [execEventHoldEnd, State.cell_advance, htrip, hrise, hmay, Bool.and_true, Bool.and_false, Bool.false_eq_true, if_false, if_true]

end

/-! ### PWM edges (R73) -/

/-- No OUTPUT record drives the pin to a level of its own: those on it have a loop cell or an axis as their writer (09 R222). -/
def State.freePin (s : State) (pin : Nat) : Prop := ∀ e ∈ s.recsOf 4 1, s.cfg e.1 0 4 % 256 = pin → s.cfg e.1 8 1 = 3 ∨ s.cfg e.1 8 1 = 4

theorem State.cfg_congr {s u : State} (h : u.loom.records = s.loom.records) (key off size : Nat) : u.cfg key off size = s.cfg key off size := by
  simp only [State.cfg, State.recOf, h]

theorem State.freePin.congr {s u : State} {pin : Nat} (hf : s.freePin pin) (h : u.loom.records = s.loom.records) : u.freePin pin := by
  simp only [State.freePin, State.recsOf, State.cfg_congr h, h]
  exact hf

theorem State.pin_congr {s u : State} (h : u.fio = s.fio) (pin : Nat) : u.pin pin = s.pin pin := by
  simp only [State.pin, h]

theorem State.takeLevel_records (s : State) (k : Nat) (b : Bool) : (s.takeLevel k b).loom.records = s.loom.records := by
  have hcount (u : State) : (u.countOut k).loom = u.loom := (keeps_countOut (closed_frame _ u) (Frame.refl _ u) k).part (p := .loom) rfl
  simp only [State.takeLevel]
  split
  · rfl
  · split
    · rw [hcount]
      rfl
    · rfl

theorem State.takeLevel_pin (s : State) (k : Nat) (b : Bool) (pin : Nat) : (s.takeLevel k b).pin pin = s.pin pin :=
  State.pin_congr ((keeps_takeLevel (closed_frame _ s) (Frame.refl _ s) k b).part (p := .fio) rfl) pin

/-- Settling the outputs leaves such a pin. -/
theorem State.pin_settle {s : State} {pin : Nat} (h : s.freePin pin) : s.settle.pin pin = s.pin pin := by
  unfold State.settle
  suffices hfold : Holds (fun u => u.loom.records = s.loom.records ∧ u.pin pin = s.pin pin) _ from hfold.2
  refine Keeps.foldlMem _ (fun u e he hu => ?_) ⟨rfl, rfl⟩
  obtain ⟨hrec, hpin⟩ := hu
  have hcfg := State.cfg_congr hrec
  dsimp only
  split
  · rename_i hdriven
    obtain ⟨-, hcell, haxis⟩ := hdriven
    have hother : pin ≠ u.cfg e.1 0 4 % 256 := fun heq => by
      rw [hcfg] at heq hcell haxis
      exact (h e he heq.symm).elim hcell haxis
    refine ⟨(State.takeLevel_records _ _ _).trans ?_, (State.takeLevel_pin _ _ _ _).trans ?_⟩
    · split <;> exact hrec
    · split
      · exact hpin
      · exact (Tbl.get_set_other _ hother _ _).trans hpin
  · exact ⟨hrec, hpin⟩

@[simp] theorem State.pin_putPin_same (s : State) (pin : Nat) (x : FioPin) : (s.putPin pin x).pin pin = x := Tbl.get_set_same _ _ _ _

@[simp] theorem State.pin_advance (s : State) (t : Instant) (pin : Nat) : (s.advance t).pin pin = s.pin pin :=
  State.pin_congr ((frame_advance s t).part (p := .fio) rfl) pin

/-- A free pin after an edge is as the edge puts it. -/
theorem State.pin_edge {s : State} {pin : Nat} (h : s.freePin pin) (t : Instant) (x : FioPin) : (((s.advance t).putPin pin x).settle).pin pin = x := by
  have hfree : ((s.advance t).putPin pin x).freePin pin := h.congr (congrArg Loom.records (s.advance_loom t))
  rw [State.pin_settle hfree, State.pin_putPin_same]

/-- The level that a PWM course gives for an instant: the one for the high time of each period, the other for its rest. -/
def PwmRun.levelAt (r : PwmRun) (t : Instant) : Bool := if sinceNs t r.start % (r.period : Int) < r.high then r.first else r.rest

section
variable {t : Instant} {pin : Fin 192} {s : State} {r : PwmRun}

theorem execPwmEdge_course (hpwm : (s.pin pin).pwm = some r) (hnext : (s.pin pin).nextPwm = none) :
    execPwmEdge t pin s = .next ((s.advance t).putPin pin { s.pin pin with out := r.levelAt (s.advance t).now }).settle := by
  simp only [execPwmEdge, State.pin_advance, hnext, hpwm]
  rfl

theorem execPwmEdge_takeover (hnext : (s.pin pin).nextPwm = some r) (hbegun : notLater r.start (s.advance t).now = true) :
    execPwmEdge t pin s = .next ((s.advance t).putPin pin { s.pin pin with pwm := some r, nextPwm := none, out := r.levelAt (s.advance t).now }).settle := by
  simp only [execPwmEdge, State.pin_advance, hnext, hbegun, if_true]
  rfl

end

/-- Settles O21. -/
theorem loopEventMode : Obligations.LoopEventMode := by
  unfold Obligations.LoopEventMode
  refine ⟨?moves, ?held, ?release, ?holdRise, ?holdFall, ?edge, ?next⟩
  case moves =>
    intro t ain rise s n hcell hmay
    obtain ⟨hj, hlevel, hlast⟩ := ((s.advance t).putCell n ((s.cell n).withTrip rise true)).eventMove_spec n rise
    rw [State.cell_putCell_same, (LoopCell.withTrip_spec _ _ _).2] at hj hlevel
    exact ⟨_, execComparatorTrip_moves hcell hmay, hj, by rw [hlevel, hj], hlast⟩
  case held =>
    intro t ain rise s n hcell hmay
    obtain ⟨wait, hu⟩ := execComparatorTrip_held hcell hmay
    have hc : (((s.advance t).putCell n ((s.cell n).withTrip rise true)).wr F.LC_STATUS_DWELL_WAIT wait n).cell n = (s.cell n).withTrip rise true := by
      rw [State.cell_congr (State.wr_cells _ _ _ _), State.cell_putCell_same]
    refine ⟨_, hu, ?_, ?_, ?_⟩
    · rw [hc, (LoopCell.withTrip_spec _ _ _).1]
    · rw [hc, (LoopCell.withTrip_spec _ _ _).2]
    · rw [State.rd_wr_field _ (by decide), rd_putCell _ _ _ (by decide), rd_advance s t (by decide)]
  case release =>
    intro t ain rise s n hcell
    exact ⟨_, execComparatorRelease_cell hcell, by rw [State.cell_putCell_same, (LoopCell.withTrip_spec _ _ _).1], rfl⟩
  case holdRise =>
    intro t n s htrip hmay
    obtain ⟨hj, -, hlast⟩ := (s.advance t).eventMove_spec n true
    rw [State.cell_advance] at hj
    exact ⟨_, execEventHoldEnd_rises htrip hmay, hj, hlast⟩
  case holdFall =>
    intro t n s htrip hrise hmay
    obtain ⟨hj, -, hlast⟩ := (s.advance t).eventMove_spec n false
    rw [State.cell_advance] at hj
    exact ⟨_, execEventHoldEnd_falls htrip hrise hmay, hj, hlast⟩
  case edge =>
    intro t pin s r hpwm hnext hfree
    exact ⟨_, execPwmEdge_course hpwm hnext, congrArg FioPin.out (State.pin_edge hfree t _)⟩
  case next =>
    intro t pin s r hnext hbegun hfree
    exact ⟨_, execPwmEdge_takeover hnext hbegun, congrArg FioPin.out (State.pin_edge hfree t _), congrArg FioPin.pwm (State.pin_edge hfree t _)⟩

end Sys2Proof.Machine
end

section
/-! PROOFS.  The last pair of a rotation slot (04 R110): a statement that fails where the register file holds a spare beyond the 5 bits of SPARE. -/

namespace Sys2Proof.Machine

open Sys2Proof

@[simp] theorem State.advance_rot (s : State) (t : Instant) : (s.advance t).rot = s.rot := (frame_advance s t).part (p := .rot) rfl

/-- A field of ANA_MAP has 5 bits, and neither the Warp's movement nor what follows the hand-over of a group writes it. -/
theorem anaMapFld_spec (g : Nat) : (anaMapFld g).width = 5 ∧ Touched.advance.has (anaMapFld g).id = false ∧ Touched.nextGroup.has (anaMapFld g).id = false ∧
    Touched.showCal.has (anaMapFld g).id = false ∧ ((anaMapFld g).id == F.ANA_CAL_REQ_STATE.id) = false := by
  unfold anaMapFld
  split <;> decide

@[simp] theorem State.serving_advance (s : State) (t : Instant) (g : Nat) : (s.advance t).serving g = s.serving g := by
  obtain ⟨-, hadvance, -⟩ := anaMapFld_spec g
  exact rd_advance s t hadvance _

@[simp] theorem State.converter_advance (s : State) (t : Instant) (v : Nat) : (s.advance t).converter v = s.converter v :=
  congrArg (Tbl.get · v Converter.init) ((frame_advance s t).part (p := .conv) rfl)

/-- A group that passes to the spare is served by the converter that its 5 bits of ANA_MAP show. -/
theorem State.serving_endSlot (s : State) (g : Nat) : (s.endSlot g true).serving g = s.rd F.ANA_ROT_STATUS_SPARE % 2 ^ 5 := by
  obtain ⟨hwidth, -, hnext, hshow, hstate⟩ := anaMapFld_spec g
  have hmark (u : State) (b : Prop) [Decidable b] : (if b then u.wr F.ANA_CAL_REQ_STATE 2 else u).rd (anaMapFld g) (g / 6) = u.rd (anaMapFld g) (g / 6) := by
    split
    · exact u.rd_wr_field hstate _ _ _
    · rfl
  change (s.endSlot g true).rd (anaMapFld g) (g / 6) = _
  simp only [State.endSlot, if_true]
  rw [rd_showCal _ hshow, hmark, rd_nextGroup _ _ hnext, State.rd_wr_same, hwidth]

/-- How far the calibrated results of a pair lie apart: that of the converter of group `g` and that of the spare. -/
def State.pairGap (s : State) (g raw spareRaw : Nat) : Nat :=
  ((calibrate (s.converter (s.serving g)) raw : Int) - calibrate (s.converter (s.rd F.ANA_ROT_STATUS_SPARE)) spareRaw).natAbs

theorem State.pairGap_advance (s : State) (t : Instant) (g raw spareRaw : Nat) : (s.advance t).pairGap g raw spareRaw = s.pairGap g raw spareRaw := by
  simp only [State.pairGap, State.serving_advance, State.converter_advance, rd_advance s t (fld := F.ANA_ROT_STATUS_SPARE) (by decide)]

/-- The eighth pair, where it agrees as the seven before did, ends the slot. -/
theorem State.crossCheck_eighth {s : State} {g raw spareRaw : Nat} (hslot : s.rot.slot = some (g, 7, true))
    (hagree : s.pairGap g raw spareRaw ≤ s.rd F.ANA_ROT_CFG_XCHK_LSB) : s.crossCheck g raw spareRaw = s.endSlot g true := by
  have hdecide := decide_eq_true hagree
  unfold State.pairGap at hdecide
  simp only [State.crossCheck, hslot, hdecide, Bool.and_self, ne_eq, not_true_eq_false, if_false]
  exact if_neg (by decide)

/-- The eighth pair of a conversion of the rotation's own, where all agree, gives the group to the spare. -/
theorem execRotationConversion_eighth {t : Instant} {raw spareRaw : BitVec 16} {s : State} {g : Nat} (hslot : s.rot.slot = some (g, 7, true))
    (hfreeze : (s.advance t).mayFreeze (4 * g + s.rot.own % 4) = true) (hagree : s.pairGap g raw.toNat spareRaw.toNat ≤ s.rd F.ANA_ROT_CFG_XCHK_LSB) :
    ∃ u, execRotationConversion t raw spareRaw s = .next u ∧ u.serving g = s.rd F.ANA_ROT_STATUS_SPARE % 2 ^ 5 := by
  have hagree' : ((s.advance t).putRot { s.rot with own := s.rot.own + 1 }).pairGap g raw.toNat spareRaw.toNat ≤
      ((s.advance t).putRot { s.rot with own := s.rot.own + 1 }).rd F.ANA_ROT_CFG_XCHK_LSB := by
    rw [rd_putRot _ _ (by decide), rd_advance s t (by decide)]
    exact (s.pairGap_advance t g _ _).trans_le hagree
  refine ⟨((s.advance t).putRot { s.rot with own := s.rot.own + 1 }).endSlot g true, ?_, ?_⟩
  · simp only [execRotationConversion, State.advance_rot, hslot, hfreeze, if_true]
    rw [← hslot]
    exact congrArg _ (State.crossCheck_eighth hslot hagree')
  · rw [State.serving_endSlot, rd_putRot _ _ (by decide), rd_advance s t (by decide)]

/-- A booted device in whose register file SPARE, a field of 5 bits, holds 56; group 2 is in its slot and seven pairs have agreed. -/
def wideSpareUp : State := { up with rot := { up.rot with slot := some (2, 7, true) } }.putReg F.ANA_ROT_STATUS_SPARE.id 0 56

/-- Refutes O22: the statement speaks of every state, and in one whose SPARE holds 56, more than its 5 bits, the eighth agreeing pair gives
the group to the converter 56 mod 32, where the clause asks for 56. -/
theorem not_convertersAndTheirRotation : ¬ Obligations.ConvertersAndTheirRotation := by
  unfold Obligations.ConvertersAndTheirRotation
  rintro ⟨-, -, -, -, hEighth, -⟩
  have hslot : wideSpareUp.rot.slot = some (2, 7, true) := rfl
  have hfreeze : (wideSpareUp.advance 5).mayFreeze (4 * 2 + wideSpareUp.rot.own % 4) = true := by decide +kernel
  have hagree : wideSpareUp.pairGap 2 500 500 ≤ wideSpareUp.rd F.ANA_ROT_CFG_XCHK_LSB := by decide +kernel
  have hspare : wideSpareUp.rd F.ANA_ROT_STATUS_SPARE = 56 := by decide +kernel
  obtain ⟨u, hu, hserved, -⟩ := hEighth 5 500 500 wideSpareUp 2 (by decide) hslot hfreeze hagree
  obtain ⟨w, hw, hcut⟩ := execRotationConversion_eighth (raw := 500) (spareRaw := 500) hslot hfreeze hagree
  obtain rfl : u = w := Host.Outcome.next.inj (hu.symm.trans hw)
  rw [hserved, hspare] at hcut
  exact absurd hcut (by decide)

end Sys2Proof.Machine
end

section
/-! PROOFS.  Stall, FAULT_CLEAR, PLAUS_CLEAR and the self-test of a loop cell (04 R99, R101, R104, R108, R113). -/

namespace Sys2Proof.Machine

open Sys2Proof

/-! ### A loop fault declared (R99) -/

/-- What a declaration writes of the cell itself: its causes, FAULTED and the event. -/
def State.markFault (s : State) (n causes : Nat) : State :=
  ((s.wr F.LC_SUP_STATUS_FAULT_CAUSE (s.rd F.LC_SUP_STATUS_FAULT_CAUSE n ||| causes) n).wr F.LC_SUP_STATUS_SUP_STATE 3 n).wr F.LC_SUP_EVENT_LOOP_FAULT 1 n

/-- A field that neither the report, the fault class nor the STOP touches reads as the marking leaves it. -/
theorem State.rd_declareFault_marked (s : State) (n causes : Nat) (stop : Bool) (y ym u : Int) {f : Fld} (hreport : Touched.reportCell.has f.id = false)
    (hclass : Touched.causeClass.has f.id = false) (hstop : Touched.partStop.has f.id = false) (i : Nat) :
    (s.declareFault n causes stop y ym u).rd f i = (s.markFault n causes).rd f i := by
  have hmarked (all : Nat) : (((s.markFault n causes).reportCell n 3 all y ym u).causeClass n causes).rd f i = (s.markFault n causes).rd f i := by
    rw [rd_causeClass _ _ _ hclass, rd_reportCell _ _ _ _ _ _ _ hreport]
  simp only [State.declareFault]
  split
  · split
    · rw [rd_partStop _ _ _ hstop]
      exact hmarked _
    · exact hmarked _
  · exact hmarked _

/-- A declared fault shows in the cell's status and event, each of its causes with those before. -/
theorem State.declareFault_shown (s : State) (n causes : Nat) (stop : Bool) (y ym u : Int) :
    (s.declareFault n causes stop y ym u).rd F.LC_SUP_STATUS_SUP_STATE n = 3 ∧
    (s.declareFault n causes stop y ym u).rd F.LC_SUP_STATUS_FAULT_CAUSE n = (s.rd F.LC_SUP_STATUS_FAULT_CAUSE n ||| causes) % 2 ^ F.LC_SUP_STATUS_FAULT_CAUSE.width ∧
    (s.declareFault n causes stop y ym u).rd F.LC_SUP_EVENT_LOOP_FAULT n = 1 := by
  refine ⟨?state, ?cause, ?event⟩ <;> rw [s.rd_declareFault_marked n causes stop y ym u (by decide) (by decide) (by decide), State.markFault]
  case state =>
    rw [State.rd_wr_field _ (by decide), State.rd_wr_same]
    rfl
  case cause => rw [State.rd_wr_field _ (by decide), State.rd_wr_field _ (by decide), State.rd_wr_same]
  case event =>
    rw [State.rd_wr_same]
    rfl

/-! ### FAULT_CLEAR (R101) -/

/-- A fault taken away: no cause, no run of lates, and no SAFE_U still to come. -/
def State.clearFault (s : State) (n : Nat) : State :=
  (((s.wr F.LC_SUP_STATUS_FAULT_CAUSE 0 n).wr F.LC_SUP_STATUS_SUP_STATE 0 n).wr F.LC_SUP_STATUS_LATE_RUN 0 n).putCell n { s.cell n with faultDue := false }

theorem State.rd_clearFault_other (s : State) (n : Nat) {f : Fld} (hcause : (f.id == F.LC_SUP_STATUS_FAULT_CAUSE.id) = false)
    (hstate : (f.id == F.LC_SUP_STATUS_SUP_STATE.id) = false) (hrun : (f.id == F.LC_SUP_STATUS_LATE_RUN.id) = false) (i : Nat) : (s.clearFault n).rd f i = s.rd f i := by
  rw [State.clearFault, rd_putCell _ _ _ rfl, State.rd_wr_field _ hrun, State.rd_wr_field _ hstate, State.rd_wr_field _ hcause]

theorem State.clearFault_cleared (s : State) (n : Nat) : (s.clearFault n).rd F.LC_SUP_STATUS_FAULT_CAUSE n = 0 ∧
    (s.clearFault n).rd F.LC_SUP_STATUS_LATE_RUN n = 0 ∧ (s.clearFault n).rd F.LC_SUP_STATUS_SUP_STATE n = 0 ∧ ((s.clearFault n).cell n).faultDue = false := by
  refine ⟨?cause, ?run, ?state, ?due⟩ <;> rw [State.clearFault]
  case cause => rw [rd_putCell _ _ _ rfl, State.rd_wr_field _ (by decide), State.rd_wr_field _ (by decide), State.rd_wr_same, Nat.zero_mod]
  case run => rw [rd_putCell _ _ _ rfl, State.rd_wr_same, Nat.zero_mod]
  case state => rw [rd_putCell _ _ _ rfl, State.rd_wr_field _ (by decide), State.rd_wr_same, Nat.zero_mod]
  case due => rw [State.cell_putCell_same]

/-- A cell that starts has no SAFE_U to come. -/
theorem State.faultDue_startCell (s : State) (n : Nat) : ((s.startCell n).cell n).faultDue = false := by
  rw [State.startCell, State.cell_congr (State.settle_cells _), State.cell_congr (State.putCs_cells _ _ _)]
  simp only [State.cell_congr (State.wr_cells _ _ _ _), State.cell_putCell_same]

/-! ### What the Warp's movement leaves -/

@[simp] theorem State.subEnding_advance (s : State) (t : Instant) (n : Nat) : (s.advance t).subEnding n = s.subEnding n := by
  simp only [State.subEnding, State.cell_advance]

@[simp] theorem State.nr_advance (s : State) (t : Instant) (n : Nat) : (s.advance t).nr n = s.nr n := by
  simp only [State.nr, rd_advance s t (fld := F.LC_SUP_CFG_NR) (by decide)]

@[simp] theorem State.selfTestOk_advance (s : State) (t : Instant) (n : Nat) : (s.advance t).selfTestOk n = s.selfTestOk n := by
  simp only [State.selfTestOk, State.ownerLC_advance, s.on_advance t (f := F.LC_CTRL_ENABLE) (by decide), State.inStop_advance]

/-! ### The commands -/

section
variable {t : Instant} {n : Fin 1024} {s : State}

theorem execLoopStall_faults (hen : s.rd F.LC_CTRL_ENABLE n ≠ 0) (hstate : s.rd F.LC_SUP_STATUS_SUP_STATE n ≠ 3) : ∃ (stop : Bool) (y ym u : Int) (c : LoopCell),
    execLoopStall t n s = .next (((s.advance t).declareFault n 4 stop y ym u).putCell n { c with faultDue := true }) := by
  have hon : (s.advance t).on F.LC_CTRL_ENABLE n = true := (s.on_advance t (by decide) n).trans (bne_iff_ne.mpr hen)
  have hstate' : (s.advance t).rd F.LC_SUP_STATUS_SUP_STATE n ≠ 3 := by rwa [rd_advance s t (by decide)]
  simp only [execLoopStall, hon, if_true, if_neg hstate']
  exact ⟨_, _, _, _, _, rfl⟩

theorem execFaultClear_open (hadm : s.admits (lcOff n 0x9C) = true) (hopen : s.rwlOpen (s.ownerLC n) = true) (hstate : s.rd F.LC_SUP_STATUS_SUP_STATE n = 3) :
    execFaultClear t n s = .next (if s.on F.LC_CTRL_ENABLE n then ((s.advance t).clearFault n).startCell n else (s.advance t).clearFault n) := by
  have hstate' : (s.advance t).rd F.LC_SUP_STATUS_SUP_STATE n = 3 := by rwa [rd_advance s t (by decide)]
  have hon : ((s.advance t).clearFault n).on F.LC_CTRL_ENABLE n = s.on F.LC_CTRL_ENABLE n := by
    rw [State.on, State.rd_clearFault_other _ _ (by decide) (by decide) (by decide), rd_advance s t (by decide), State.on]
  simp only [execFaultClear, State.hostWrite_lcOff t (by decide) hadm, State.rwlOpen_advance, State.ownerLC_advance, hopen, hstate', if_true]
  rw [← hon]
  rfl

theorem execFaultClear_closed (hadm : s.admits (lcOff n 0x9C) = true) (hclosed : s.rwlOpen (s.ownerLC n) = false) :
    execFaultClear t n s = .next ((s.advance t).wr F.LC_SUP_EVENT_CLEAR_REFUSED 1 n) := by
  simp only [execFaultClear, State.hostWrite_lcOff t (by decide) hadm, State.rwlOpen_advance, State.ownerLC_advance, hclosed, Bool.false_eq_true, if_false]

/-- PLAUS_CLEAR, by what it finds of the substitution. -/
theorem execPlausClear_admitted (hadm : s.admits (lcOff n 0x9C) = true) : execPlausClear t n s = .next
    (if s.rd F.LC_SUP_STATUS_SUP_STATE n = 3 ∨ s.subEnding n = true ∨ s.rd F.LC_SUP_STATUS_OK_RUN n < s.nr n then (s.advance t).wr F.LC_SUP_EVENT_CLEAR_REFUSED 1 n
    else if s.rd F.LC_SUP_STATUS_SUP_STATE n = 2 then ((s.advance t).wr F.LC_SUP_STATUS_SUP_STATE 0 n).wr F.LC_SUP_EVENT_SUB_ENDED 1 n
    else s.advance t) := by
  simp only [execPlausClear, State.hostWrite_lcOff t (by decide) hadm, rd_advance s t (fld := F.LC_SUP_STATUS_SUP_STATE) (by decide),
    rd_advance s t (fld := F.LC_SUP_STATUS_OK_RUN) (by decide), State.subEnding_advance, State.nr_advance]

theorem execStGo_queues (hadm : s.admits (lcOff n 0x9C) = true) (hrest : s.rd F.LC_DIAG_ST_STATE n ≠ 2) :
    execStGo t n s = .next ((s.advance t).wr F.LC_DIAG_ST_STATE 1 n) := by
  simp only [execStGo, State.hostWrite_lcOff t (by decide) hadm, rd_advance s t (fld := F.LC_DIAG_ST_STATE) (by decide), if_neg hrest]

theorem execSelfTestBegin_runs (hqueued : s.rd F.LC_DIAG_ST_STATE n = 1) (hok : s.selfTestOk n = true) :
    execSelfTestBegin t n s = .next ((s.advance t).wr F.LC_DIAG_ST_STATE 2 n) := by
  simp only [execSelfTestBegin, rd_advance s t (fld := F.LC_DIAG_ST_STATE) (by decide), hqueued, State.selfTestOk_advance, hok, and_self, if_true]

theorem execSelfTestDone_running {fail : Fin 5} (hrunning : s.rd F.LC_DIAG_ST_STATE n = 2) : execSelfTestDone t n fail s =
    .next ((((s.advance t).wr F.LC_DIAG_ST_STATE 3 n).wr F.LC_DIAG_ST_FAIL fail n).wr F.LC_SUP_EVENT_ST_DONE 1 n) := by
  simp only [execSelfTestDone, rd_advance s t (fld := F.LC_DIAG_ST_STATE) (by decide), hrunning, if_true]

theorem execStCancel_queued (hadm : s.admits (lcOff n 0x9C) = true) (hqueued : s.rd F.LC_DIAG_ST_STATE n = 1) :
    execStCancel t n s = .next ((s.advance t).wr F.LC_DIAG_ST_STATE 0 n) := by
  simp only [execStCancel, State.hostWrite_lcOff t (by decide) hadm, rd_advance s t (fld := F.LC_DIAG_ST_STATE) (by decide), hqueued, if_true]

end

/-- Settles O23. -/
theorem loopFaultsSubstitutionAndSelfTest : Obligations.LoopFaultsSubstitutionAndSelfTest := by
  unfold Obligations.LoopFaultsSubstitutionAndSelfTest
  refine ⟨?stall, ?cleared, ?closed, ?ended, ?refused, ?queued, ?begun, ?done, ?cancelled⟩
  case stall =>
    intro t n s hen hstate
    obtain ⟨stop, y, ym, v, c, hu⟩ := execLoopStall_faults (t := t) hen hstate
    obtain ⟨hfaulted, hcause, hevent⟩ := (s.advance t).declareFault_shown n 4 stop y ym v
    refine ⟨_, hu, ?_, ?_, ?_, by rw [State.cell_putCell_same]⟩
    · rw [rd_putCell _ _ _ (by decide), hfaulted]
    · rw [rd_putCell _ _ _ (by decide), hcause, bitOf, Nat.testBit_mod_two_pow, Nat.testBit_or]
      simp [F.LC_SUP_STATUS_FAULT_CAUSE, Nat.testBit]
    · rw [rd_putCell _ _ _ (by decide), hevent]
  case cleared =>
    intro t n s hadm hopen hstate
    obtain ⟨hcause, hrun, hsup, hdue⟩ := (s.advance t).clearFault_cleared n
    refine ⟨_, execFaultClear_open hadm hopen hstate, ?_⟩
    cases s.on F.LC_CTRL_ENABLE n with
    | false => exact ⟨hcause, hrun, hsup, hdue⟩
    | true =>
      refine ⟨(rd_startCell _ _ (by decide) _).trans hcause, (rd_startCell _ _ (by decide) _).trans hrun, (State.rd_supState_startCell _ _).trans ?_,
        State.faultDue_startCell _ _⟩
      rw [State.on, State.rd_clearFault_other _ _ (by decide) (by decide) (by decide), rd_advance s t (by decide)]
      rfl
  case closed =>
    intro t n s hadm hclosed
    refine ⟨_, execFaultClear_closed hadm hclosed, State.rd_wr_same _ _ _ _, ?_, ?_⟩ <;> rw [State.rd_wr_field _ (by decide), rd_advance s t (by decide)]
  case ended =>
    intro t n s hadm hstate hending hrun
    have hdue : ¬ (s.rd F.LC_SUP_STATUS_SUP_STATE n = 3 ∨ s.subEnding n = true ∨ s.rd F.LC_SUP_STATUS_OK_RUN n < s.nr n) := by
      simp [hstate, hending, hrun]
    refine ⟨_, (execPlausClear_admitted hadm).trans (by rw [if_neg hdue, if_pos hstate]), ?_, State.rd_wr_same _ _ _ _⟩
    rw [State.rd_wr_field _ (by decide), State.rd_wr_same, Nat.zero_mod]
  case refused =>
    intro t n s hadm hearly
    refine ⟨_, (execPlausClear_admitted hadm).trans (by rw [if_pos hearly]), State.rd_wr_same _ _ _ _, ?_⟩
    rw [State.rd_wr_field _ (by decide), rd_advance s t (by decide)]
  case queued =>
    intro t n s hadm hrest
    exact ⟨_, execStGo_queues hadm hrest, State.rd_wr_same _ _ _ _⟩
  case begun =>
    intro t n s hqueued hok
    exact ⟨_, execSelfTestBegin_runs hqueued hok, State.rd_wr_same _ _ _ _⟩
  case done =>
    intro t n fail s hrunning
    have hkept {f : Fld} (hst : (f.id == F.LC_DIAG_ST_STATE.id) = false) (hfail : (f.id == F.LC_DIAG_ST_FAIL.id) = false)
        (hdone : (f.id == F.LC_SUP_EVENT_ST_DONE.id) = false) (hadvance : Touched.advance.has f.id = false) :
        ((((s.advance t).wr F.LC_DIAG_ST_STATE 3 n).wr F.LC_DIAG_ST_FAIL fail n).wr F.LC_SUP_EVENT_ST_DONE 1 n).rd f n = s.rd f n := by
      rw [State.rd_wr_field _ hdone, State.rd_wr_field _ hfail, State.rd_wr_field _ hst, rd_advance s t hadvance]
    refine ⟨_, execSelfTestDone_running hrunning, ?_, ?_, State.rd_wr_same _ _ _ _, hkept (by decide) (by decide) (by decide) (by decide),
      hkept (by decide) (by decide) (by decide) (by decide), hkept (by decide) (by decide) (by decide) (by decide), (frame_advance s t).part (p := .cells) rfl⟩
    · rw [State.rd_wr_field _ (by decide), State.rd_wr_field _ (by decide), State.rd_wr_same]
      rfl
    · rw [State.rd_wr_field _ (by decide), State.rd_wr_same]
      exact Nat.mod_eq_of_lt (fail.isLt.trans (by decide))
  case cancelled =>
    intro t n s hadm hqueued
    exact ⟨_, execStCancel_queued hadm hqueued, (State.rd_wr_same _ _ _ _).trans (Nat.zero_mod _)⟩

end Sys2Proof.Machine
end

section
/-! PROOFS.  Host commands that execute (18 R439 to R441), and LOAD_TABLE (05 R114 to R120). -/

namespace Sys2Proof.Machine

open Sys2Proof

set_option Elab.async false

/-! ### A host command that may execute -/

@[simp] theorem State.expected_advance (s : State) (t : Instant) (obj kind : Nat) : (s.advance t).expected obj kind = s.expected obj kind := by
  unfold State.expected
  split <;> exact rd_advance s t (by decide) _

@[simp] theorem State.mayExecute_advance (s : State) (t : Instant) (opcode obj : Nat) (args : HostCmd → Bool) :
    (s.advance t).mayExecute opcode obj args = s.mayExecute opcode obj args := by
  simp only [State.mayExecute, State.waiting_advance, s.on_advance t (f := F.HOST_STATUS_BOOTING) (by decide), State.expected_advance, State.covered_advance]

/-- A command at the head of its queue that may execute is executed; its completion and the refusals behind it touch only what any host command does. -/
theorem State.hostCommand_frame {s : State} {opcode obj : Nat} {args : HostCmd → Bool} (h : s.mayExecute opcode obj args = true) (f : State → State) :
    Frame Touched.hostCommand (f (s.reply 0)) (s.hostCommand opcode obj args f) := by
  obtain ⟨c, rest, hw⟩ : ∃ c rest, s.waiting obj = c :: rest := by
    cases hw : s.waiting obj with
    | nil => simp only [State.mayExecute, hw, Bool.false_eq_true] at h
    | cons c rest => exact ⟨c, rest, rfl⟩
  simp only [State.mayExecute, hw, Bool.and_eq_true, Bool.or_eq_true, Bool.not_eq_true', Option.isNone_iff_eq_none, beq_iff_eq] at h
  obtain ⟨⟨⟨⟨⟨⟨hwrite, hopcode⟩, hstatus⟩, hargs⟩, hboot⟩, hexpect⟩, hcovered⟩ := h
  have hfits : ¬ (c.write.isSome ∨ c.opcode ≠ opcode ∨ c.status ≠ 0 ∨ !args c ∨ (s.on F.HOST_STATUS_BOOTING && !bootCommand opcode) = true) := by
    rcases hboot with hboot | hboot <;> simp [hwrite, hopcode, hstatus, hargs, hboot]
  have hfound : ¬ (c.kind ≠ 0 ∧ s.expected obj c.kind ≠ c.expect) := fun ⟨hkind, hother⟩ => hexpect.elim hkind hother
  have halone : (if obj < 16 then some obj else none).any s.covered = false := by
    split
    · rename_i hobj
      simpa [hobj] using hcovered
    · rfl
  simp only [State.hostCommand, hw, if_neg hfits, if_neg hfound, State.coveredGate, halone, Bool.false_and, Bool.false_eq_true, if_false]
  have hclosed := closed_frame Touched.hostCommand (f (s.reply 0))
  exact keeps_drainRefused (hclosed.mono (by decide +kernel)) (keeps_completeCmd (hclosed.mono (by decide +kernel))
    (keeps_putWaiting (hclosed.mono (by decide +kernel)) (Frame.refl _ _) _ _) _ _ _) _ _

/-! ### The checks of Table 5.8 -/

section
variable {s u : State} (hloom : u.loom = s.loom)
include hloom

theorem State.owner_congr (key : Nat) : u.owner key = s.owner key := by
  simp only [State.owner, State.recOf, hloom]

theorem State.recsOf_congr (space kind : Nat) : u.recsOf space kind = s.recsOf space kind := by
  simp only [State.recsOf, hloom]

theorem State.sourceOk_congr (p : Nat) (c : EndCond) : u.sourceOk p c = s.sourceOk p c := by
  simp only [State.sourceOk, State.mayRead, State.exported, State.ownerLC, State.owner_congr hloom, State.recsOf_congr hloom]

theorem State.actionOk_congr (p : Nat) (img : StepTable) (a : PoolEntry) : u.actionOk p img a = s.actionOk p img a := by
  simp only [State.actionOk, State.outIndex, State.ownerLC, State.ownerPG, State.owner_congr hloom, State.recsOf_congr hloom]

/-- The checks read the Treadle's state, the recipe floor, the Beam and the enrolled keys. -/
theorem State.tableResult_congr (hsec : u.sec = s.sec) {p : Nat} (hstate : u.rd F.TR_STATUS_STATE p = s.rd F.TR_STATUS_STATE p)
    (hfloor : u.rd F.SEC_RECIPE_FLOOR p = s.rd F.SEC_RECIPE_FLOOR p) (img : StepTable) : u.tableResult p img = s.tableResult p img := by
  have hsource : u.sourceOk p = s.sourceOk p := funext (State.sourceOk_congr hloom p)
  have haction : u.actionOk p img = s.actionOk p img := funext (State.actionOk_congr hloom p img)
  simp only [State.tableResult, State.recipeKeyOk, State.belowFloor, floorField, hstate, hfloor, hloom, hsec, hsource, haction]

end

theorem State.tableResult_le (s : State) (p : Nat) (img : StepTable) : s.tableResult p img ≤ 11 := by
  have hite {c : Prop} [Decidable c] {k r : Nat} (hk : k ≤ 11) (hr : r ≤ 11) : (if c then k else r) ≤ 11 := by
    split <;> assumption
  unfold State.tableResult
  repeat refine hite (by decide) ?_
  decide

/-! ### LOAD_TABLE -/

/-- What LOAD_TABLE does with an image that finds room. -/
def State.loadImage (s : State) (p : Nat) (img : StepTable) : State :=
  let r := s.tableResult p img
  let s := (s.wr F.TR_LOAD_RESULT r p).reply r
  if r ≠ 0 then s else (s.store (fun x => { x with tables := x.tables.set p img })).takeTable p img

theorem State.loadImage_accepted {s : State} {p : Nat} {img : StepTable} (h : s.tableResult p img = 0) :
    s.loadImage p img = (((s.wr F.TR_LOAD_RESULT 0 p).reply 0).store (fun x => { x with tables := x.tables.set p img })).takeTable p img := by
  simp only [State.loadImage, h, ne_eq, not_true, if_false]
  rfl

theorem State.loadImage_refused {s : State} {p : Nat} {img : StepTable} (h : s.tableResult p img ≠ 0) :
    s.loadImage p img = (s.wr F.TR_LOAD_RESULT (s.tableResult p img) p).reply (s.tableResult p img) := by
  simp only [State.loadImage, ne_eq, h, not_false_eq_true, if_true]

@[simp] theorem State.treadle_putTreadle_same (s : State) (p : Nat) (x : Treadle) : (s.putTreadle p x).treadle p = x := Tbl.get_set_same _ _ _ _

theorem State.treadle_congr {s u : State} (h : u.treadles = s.treadles) (p : Nat) : u.treadle p = s.treadle p := by
  simp only [State.treadle, h]

theorem State.table_takeTable (s : State) (p : Nat) (img : StepTable) : ((s.takeTable p img).treadle p).table = some img := by
  simp only [State.takeTable, State.treadle_congr (State.wr_treadles _ _ _ _), State.treadle_putTreadle_same]

/-- The registers that show the accepted table. -/
theorem State.rd_takeTable_shown (s : State) (p : Nat) (img : StepTable) :
    (s.takeTable p img).rd F.TR_STATUS_TABLE_OK p = 1 ∧ (s.takeTable p img).rd F.TR_EVENT_LOAD_DONE p = 1 ∧
    (s.takeTable p img).rd F.TR_TIMING_TICK_NS p = img.tickNs % 2 ^ F.TR_TIMING_TICK_NS.width ∧
    (s.takeTable p img).rd F.TR_TABLE_ID p = img.version % 2 ^ 32 ∧
    (s.takeTable p img).rd F.TR_LOAD_STEP_COUNT p = img.stepCount % 2 ^ F.TR_LOAD_STEP_COUNT.width := by
  refine ⟨?_, ?_, ?_, ?_, ?_⟩ <;> simp (disch := decide) only [State.takeTable, State.rd_wr_field, State.rd_wr_same] <;> rfl

/-- LOAD_TABLE leaves what the image gives, but for what the completion of the command touches. -/
theorem execLoadTable_frame {t : Instant} {p : Fin 16} {img : StepTable} {s : State} (h : s.mayExecute 1 p anyArgs = true) :
    ∃ u, execLoadTable t p img true s = .next u ∧ Frame Touched.hostCommand (((s.advance t).reply 0).loadImage p img) u :=
  ⟨_, rfl, State.hostCommand_frame (by rwa [State.mayExecute_advance]) _⟩

theorem State.tableResult_reply_advance (s : State) (t : Instant) (p : Nat) (img : StepTable) : ((s.advance t).reply 0).tableResult p img = s.tableResult p img := by
  refine State.tableResult_congr (s.advance_loom t) ((frame_advance s t).part (p := .sec) rfl) ?_ ?_ img <;>
    exact rd_advance s t (by decide) p

/-- Settles O24. -/
theorem treadleTablesLoadOrAreRefused : Obligations.TreadleTablesLoadOrAreRefused := by
  unfold Obligations.TreadleTablesLoadOrAreRefused
  refine ⟨?accepted, ?refused⟩
  case accepted =>
    intro t p img s hmay hok
    obtain ⟨u, hu, hframe⟩ := execLoadTable_frame (t := t) (img := img) hmay
    rw [State.loadImage_accepted (by rwa [State.tableResult_reply_advance])] at hframe
    generalize hx : (((s.advance t).reply 0).wr F.TR_LOAD_RESULT 0 p).reply 0 = x at hframe
    obtain ⟨hshown, hdone, htick, hid, hcount⟩ := (x.store (fun x => { x with tables := x.tables.set p img })).rd_takeTable_shown p img
    refine ⟨u, hu, ?_, ?_, (hframe.rd (by decide) p).trans hshown, (hframe.rd (by decide) p).trans hdone, (hframe.rd (by decide) p).trans htick,
      (hframe.rd (by decide) p).trans hid, (hframe.rd (by decide) p).trans hcount⟩
    · rw [State.treadle_congr (hframe.part (p := .treadles) rfl), State.table_takeTable]
    · rw [hframe.rd (by decide), rd_takeTable _ _ _ (by decide), rd_store _ _ (by decide), ← hx, rd_reply _ _ _ (by decide), State.rd_wr_same, Nat.zero_mod]
  case refused =>
    intro t p img s hmay hbad
    obtain ⟨u, hu, hframe⟩ := execLoadTable_frame (t := t) (img := img) hmay
    have hresult := s.tableResult_reply_advance t p img
    rw [State.loadImage_refused (by rwa [hresult]), hresult] at hframe
    have hkept {f : Fld} (hcmd : Touched.hostCommand.has f.id = false) (hreply : Touched.reply.has f.id = false) (hres : (f.id == F.TR_LOAD_RESULT.id) = false)
        (hadv : Touched.advance.has f.id = false) : u.rd f p = s.rd f p := by
      rw [hframe.rd hcmd, rd_reply _ _ _ hreply, State.rd_wr_field _ hres, rd_reply _ _ _ hreply, rd_advance s t hadv]
    refine ⟨u, hu, ?_, ?_, hkept (by decide) (by decide) (by decide) (by decide), hkept (by decide) (by decide) (by decide) (by decide)⟩
    · rw [hframe.rd (by decide), rd_reply _ _ _ (by decide), State.rd_wr_same]
      exact Nat.mod_eq_of_lt (Nat.lt_of_le_of_lt (s.tableResult_le p img) (by decide))
    · rw [State.treadle_congr (hframe.part (p := .treadles) rfl)]
      exact congrArg Treadle.table (State.treadle_congr ((frame_advance s t).part (p := .treadles) rfl) p)

end Sys2Proof.Machine
end

section
/-! PROOFS.  START of a Treadle (05 R134): a statement that fails half of the count's range ahead.  The commit of a step (05 R130): a statement
that fails where an axis of the step faults at the commit. -/

namespace Sys2Proof.Machine

open Sys2Proof

set_option Elab.async false

/-! ### START at half of the range -/

/-- Partition 2 ready to START, its TR_START_AT half of the count's range from now: by the signed difference of 00 R12 each of the two instants is
earlier than the other. -/
def halfRangeStart : State := stepUp.wr F.TR_START_AT (2 ^ 63) 2

/-- The model takes that instant for one that has passed: START leaves the Treadle IDLE. -/
theorem execTrStart_halfRange : ∃ u, execTrStart 0 2 1 halfRangeStart = .next u ∧ u.rd F.TR_STATUS_STATE 2 = 0 :=
  ⟨_, rfl, by decide +kernel⟩

/-- Refutes O25: where TR_START_AT is 2^63 sixteenths from now, now is earlier than it, so the first clause asks for RUNNING, and it is not later
than now, so that the model refuses the START, as the second clause asks. -/
theorem not_treadleCommandsActOrAreRefused : ¬ Obligations.TreadleCommandsActOrAreRefused := by
  unfold Obligations.TreadleCommandsActOrAreRefused
  rintro ⟨hStart, -⟩
  have hearly : earlier (halfRangeStart.advance 0).now (halfRangeStart.rdT F.TR_START_AT 2) = true := by decide +kernel
  obtain ⟨u, hu, hrunning, -⟩ := hStart 0 2 1 halfRangeStart (by decide +kernel) rfl rfl (by decide +kernel) (by decide +kernel) (by decide +kernel)
    (by decide +kernel) (by decide +kernel) (.inr hearly) (by decide +kernel) (by decide +kernel)
  obtain ⟨w, hw, hidle⟩ := execTrStart_halfRange
  obtain rfl : u = w := Host.Outcome.next.inj (hu.symm.trans hw)
  exact absurd (hidle.symm.trans hrunning) (by decide)

/-! ### A commit that starts an axis without segments -/

/-- A table of one step that starts axis 5 on its segment 0. -/
def axisStep : StepTable :=
  { oneStep with poolCount := 1, steps := [⟨0, 0, 0, 1, [⟨1, 0, nextEnd, 0, 1000000⟩], 9, 0⟩], pool := [⟨7, 0, 5, 0, 1, 0⟩] }

/-- Partition 2 in RUN, its Treadle about to commit that step; axis 5 of it is IDLE, holds no segment, and stops the partition when it faults. -/
def axisStepUp : State :=
  ((ownRec stepUp (axisKey 5) 2 0).putTreadle 2 { Treadle.init with table := some axisStep, due := some (1600, .commit), staging := some staged0 }).wrs
    [(F.TR_STATUS_STATE, 2, 1), (F.AX_STATUS_STATE, 5, 1), (F.AX_CTRL_FAULT_REACT, 5, 1)]

/-- The axis faults at the commit (06 R151, cause SEG), which stops the partition (06 R166) and aborts its Treadle (05 R137): the commit of the stop
step is then due. -/
theorem execStepCommit_axisFault : ∃ u, execStepCommit 1600 2 axisStepUp = .next u ∧ u.rd F.AX_STATUS_STATE 5 = 5 ∧ u.rd F.CP_STATUS_STATE 2 = 0 ∧
    u.rd F.TR_STATUS_STATE 2 = 3 ∧ (u.treadle 2).due ≠ none :=
  ⟨_, rfl, by decide +kernel⟩

/-- Refutes O26: a commit whose axis has no segment to run ends with the stop step's commit due, where the clause of the commit asks for
nothing due. -/
theorem not_treadleStepsDecideStageAndCommit : ¬ Obligations.TreadleStepsDecideStageAndCommit := by
  unfold Obligations.TreadleStepsDecideStageAndCommit
  rintro ⟨-, -, -, -, -, -, -, hCommit, -⟩
  obtain ⟨u, hu, -, -, -, hnone⟩ := hCommit 1600 2 axisStepUp staged0 (by decide +kernel) (by decide +kernel) rfl rfl (by decide +kernel)
  obtain ⟨w, hw, -, -, -, hdue⟩ := execStepCommit_axisFault
  obtain rfl : u = w := Host.Outcome.next.inj (hu.symm.trans hw)
  exact hdue hnone

end Sys2Proof.Machine
end

section
/-! PROOFS.  Profile generators: their enable, an update, and the host's write of a target (05 R140, R141, R144, R145). -/

namespace Sys2Proof.Machine

open Sys2Proof

set_option Elab.async false

/-! ### The inner position (05 R140) -/

/-- An update adds to the inner position what is left to the target within VMAX, or nothing in the reversal dwell. -/
theorem genStep_q (g : Gen) (target : Int) (vmax m1 m2 : Nat) :
    (genStep g target vmax m1 m2).g.q = g.q ∨ (genStep g target vmax m1 m2).g.q = g.q + clampInt (-vmax) vmax (target - g.q) := by
  simp only [genStep]
  split
  · exact .inl (add_zero _)
  · exact .inr rfl

/-- It moves towards the target, by at most VMAX and never past it. -/
theorem genStep_bounded (g : Gen) (target : Int) (vmax m1 m2 : Nat) :
    (g.q ≤ target ∧ g.q ≤ (genStep g target vmax m1 m2).g.q ∧ (genStep g target vmax m1 m2).g.q ≤ target ∧ (genStep g target vmax m1 m2).g.q - g.q ≤ vmax) ∨
    (target ≤ g.q ∧ target ≤ (genStep g target vmax m1 m2).g.q ∧ (genStep g target vmax m1 m2).g.q ≤ g.q ∧ g.q - (genStep g target vmax m1 m2).g.q ≤ vmax) := by
  have hq := genStep_q g target vmax m1 m2
  rw [clampInt_eq (by omega)] at hq
  omega

/-! ### What operations leave of a generator -/

@[simp] theorem State.gen_putGen_same (s : State) (n : Nat) (g : Gen) : (s.putGen n g).gen n = g := Tbl.get_set_same _ _ _ _

theorem State.gen_congr {s u : State} (h : u.gens = s.gens) (n : Nat) : u.gen n = s.gen n := by
  simp only [State.gen, h]

@[simp] theorem State.gen_advance (s : State) (t : Instant) (n : Nat) : (s.advance t).gen n = s.gen n :=
  State.gen_congr ((frame_advance s t).part (p := .gens) rfl) n

@[simp] theorem State.showGen_gens (s : State) (n : Nat) (sp spDot : Int) : (s.showGen n sp spDot).gens = s.gens :=
  (keeps_showGen (closed_frame _ s) (Frame.refl _ s) n sp spDot).part (p := .gens) rfl

@[simp] theorem State.wakeQuadrant_gens (s : State) (q : Nat) : (s.wakeQuadrant q).gens = s.gens :=
  (keeps_wakeQuadrant (closed_frame _ s) (Frame.refl _ s) q).part (p := .gens) rfl

@[simp] theorem State.runChange_gens (s : State) : s.runChange.gens = s.gens :=
  (keeps_runChange (closed_frame _ s) (Frame.refl _ s)).part (p := .gens) rfl

@[simp] theorem State.discardOther_gens (s : State) (off : Nat) : (s.discardOther off).gens = s.gens :=
  (keeps_discardOther (closed_frame _ s) (Frame.refl _ s) off).part (p := .gens) rfl

@[simp] theorem State.wrShadow_gens (s : State) (n target : Nat) (l : Nat × Nat × Nat) : (s.wrShadow n target l).gens = s.gens := rfl

@[simp] theorem State.ownerPG_advance (s : State) (t : Instant) (n : Nat) : (s.advance t).ownerPG n = s.ownerPG n := s.owner_advance t _

@[simp] theorem State.limitsOf_advance (s : State) (t : Instant) (n : Nat) : (s.advance t).limitsOf n = s.limitsOf n := by
  simp only [State.limitsOf, rd_advance s t (fld := F.PG_VMAX) (by decide), rd_advance s t (fld := F.PG_WIN_M1) (by decide),
    rd_advance s t (fld := F.PG_WIN_M2) (by decide)]

@[simp] theorem State.quadOn_advance (s : State) (t : Instant) (q : Nat) : (s.advance t).quadOn q = s.quadOn q := by
  simp only [State.quadOn, rd_advance s t (fld := F.PWR_STATUS_LOOM_ON) (by decide)]

/-- The registers of the generators carry no EXPECT. -/
theorem commandObject_pgOff (n : Fin 256) {x : Nat} (hx : x < 0x40) : commandObject (pgOff n x) = none := by
  have hlo : 0x310000 ≤ pgOff n x := by simp only [pgOff]; omega
  have hhi : pgOff n x < 0x314000 := by simp only [pgOff]; omega
  have htreadle : ¬ pgOff n x < 0x301000 := by omega
  have hprogram : ¬ 0x900000 ≤ pgOff n x := by omega
  have hloom : ¬ 0x701000 ≤ pgOff n x := by omega
  have hreset : ¬ 0xE00300 ≤ pgOff n x := by omega
  have htandem : pgOff n x ≠ 0xC00010 := by omega
  have hupdate : pgOff n x ≠ 0xD00200 := by omega
  simp [commandObject, htreadle, hprogram, hloom, hreset, htandem, hupdate]

/-- An admitted host write of a register of a generator takes effect once the Warp has moved. -/
theorem State.hostWrite_pgOff {s : State} (t : Instant) {n : Fin 256} {x : Nat} (hx : x < 0x40) (h : s.admits (pgOff n x) = true) (f : State → State) :
    (s.advance t).hostWrite (pgOff n x) f = f (s.advance t) :=
  State.hostWrite_of_admits (by rwa [State.admits_advance]) (commandObject_pgOff n hx) f 0 true

/-! ### The enable (05 R140, R145) -/

/-- The registers of a start, but those of the shadow and of the output. -/
theorem State.rd_startGen (s : State) (n : Nat) {f : Fld} (hshow : Touched.showGen.has f.id = false) (hshadow : Touched.wrShadow.has f.id = false) (i : Nat) :
    (s.startGen n).rd f i =
      (((((s.wr F.PG_TARGET (s.rd F.PG_INIT n) n).wr F.PG_CTRL 1 n).wr F.PG_STATUS_RUNNING 1 n).wr F.PG_STATUS_DONE 0 n).wr F.PG_STATUS_DWELL 0 n).rd f i := by
  simp only [State.startGen]
  rw [rd_showGen _ _ _ _ hshow]
  split
  · rfl
  · exact rd_wrShadow _ _ _ _ hshadow i

theorem State.rd_startGen_enabled (s : State) (n : Nat) : (s.startGen n).rd F.PG_CTRL n = 1 ∧ (s.startGen n).rd F.PG_STATUS_RUNNING n = 1 := by
  constructor <;> rw [State.rd_startGen _ _ (by decide) (by decide), State.rd_wr_field _ (by decide), State.rd_wr_field _ (by decide)]
  · rw [State.rd_wr_field _ (by decide), State.rd_wr_same]
    rfl
  · rw [State.rd_wr_same]
    rfl

theorem State.q_startGen (s : State) (n : Nat) : ((s.startGen n).gen n).q = s.rdI F.PG_INIT n * 65536 := by
  have hshadow (u : State) (c : Prop) [Decidable c] (target : Nat) (l : Nat × Nat × Nat) : (if c then u else u.wrShadow n target l).gens = u.gens := by
    split <;> rfl
  rw [State.startGen, State.gen_congr (State.showGen_gens _ _ _ _), State.gen_congr (hshadow _ _ _ _)]
  simp only [State.gen_congr (State.wr_gens _ _ _ _), State.gen_putGen_same]
  rfl

section
variable {t : Instant} {n : Fin 256} {value : Word} {s : State}

theorem execPgEnable_starts (hadm : s.admits (pgOff n 0) = true) (hopen : s.rwlOpen (s.ownerPG n) = true) (hset : value.toNat % 2 = 1) (hidle : s.rd F.PG_CTRL n = 0)
    (hlo : 1000 ≤ s.rd F.PG_PERIOD n) (hhi : s.rd F.PG_PERIOD n ≤ 1000000000) (hphase : s.rd F.PG_PHASE n < s.rd F.PG_PERIOD n) :
    execPgEnable t n value s = .next ((((s.advance t).startGen n).wakeQuadrant (n / 64)).runChange) := by
  have hset' : value.toNat % 2 ≠ 0 := by omega
  have hoff : s.on F.PG_CTRL n = false := by simp [State.on, hidle]
  have hgrid : ¬ (s.rd F.PG_PERIOD n < 1000 ∨ 1000000000 < s.rd F.PG_PERIOD n ∨ s.rd F.PG_PERIOD n ≤ s.rd F.PG_PHASE n) := by omega
  simp only [execPgEnable, State.rwlWrite, State.hostWrite_pgOff t (by decide) hadm, State.rwlOpen_advance, State.ownerPG_advance, hopen, if_true, if_neg hset',
    s.on_advance t (f := F.PG_CTRL) (by decide), hoff, rd_advance s t (fld := F.PG_PERIOD) (by decide), rd_advance s t (fld := F.PG_PHASE) (by decide), if_neg hgrid,
    Bool.false_eq_true, if_false]

theorem execPgEnable_stops (hadm : s.admits (pgOff n 0) = true) (hopen : s.rwlOpen (s.ownerPG n) = true) (hclear : value.toNat % 2 = 0) :
    execPgEnable t n value s = .next ((s.advance t).stopGen n) := by
  simp only [execPgEnable, State.rwlWrite, State.hostWrite_pgOff t (by decide) hadm, State.rwlOpen_advance, State.ownerPG_advance, hopen, if_true, hclear]

/-! ### An update (05 R140) -/

/-- What the next update of generator `n` computes where no jump is due and its position is not held: a target that waits comes into force first. -/
def State.nextUpdate (s : State) (n : Nat) : GenOut :=
  let t' := (s.gen n).nextT.getD (s.gen n).t
  genStep { s.gen n with t := t', nextT := none } t' (s.limitsOf n).1 (s.limitsOf n).2.1 (s.limitsOf n).2.2

theorem State.nextUpdate_advance (s : State) (t : Instant) (n : Nat) : (s.advance t).nextUpdate n = s.nextUpdate n := by
  simp only [State.nextUpdate, State.gen_advance, State.limitsOf_advance]

/-- The state that a computed update leaves: DONE_EVT where DONE is reached, the flags, the generator and its output. -/
def State.takeUpdate (s : State) (n : Nat) (o : GenOut) : State :=
  let s := if o.done && !s.on F.PG_STATUS_DONE n then s.wr F.PG_EVENT_DONE_EVT 1 n else s
  (((s.wr F.PG_STATUS_DONE (b2n o.done) n).wr F.PG_STATUS_DWELL (b2n o.dwell) n).putGen n o.g).showGen n o.sp o.spDot

theorem State.updateGen_free {s : State} {n : Nat} (hheld : s.rd F.PG_STATUS_HELD n = 0) (hjump : (s.gen n).jump = none) (hlimits : (s.gen n).limits = none) :
    s.updateGen n = s.takeUpdate n (s.nextUpdate n) := by
  have hfree : s.applyLimits n = s := by simp only [State.applyLimits, hlimits]
  have hrun : s.on F.PG_STATUS_HELD n = false := by simp [State.on, hheld]
  simp only [State.updateGen, State.takeUpdate, State.nextUpdate, hfree, hjump, hrun, Bool.false_eq_true, if_false]

theorem State.gen_takeUpdate (s : State) (n : Nat) (o : GenOut) : (s.takeUpdate n o).gen n = o.g := by
  rw [State.takeUpdate, State.gen_congr (State.showGen_gens _ _ _ _), State.gen_putGen_same]

theorem State.rd_takeUpdate_sp (s : State) (n : Nat) (o : GenOut) : (s.takeUpdate n o).rd F.PG_SP n = ofSigned 32 o.sp := by
  rw [State.takeUpdate, State.showGen, rd_publish _ _ _ _ (by decide), State.shapeGen, State.rd_wrI_field _ _ _ _ (by decide), State.rd_wrI_same]
  exact Nat.mod_eq_of_lt (ofSigned_lt 32 _)

theorem State.rd_takeUpdate_flags (s : State) (n : Nat) (o : GenOut) :
    (s.takeUpdate n o).rd F.PG_STATUS_DONE n = b2n o.done ∧ (s.takeUpdate n o).rd F.PG_STATUS_DWELL n = b2n o.dwell := by
  constructor <;> rw [State.takeUpdate, rd_showGen _ _ _ _ (by decide), rd_putGen _ _ _ (by decide)]
  · rw [State.rd_wr_field _ (by decide), State.rd_wr_same, b2n_mod_two_pow (by decide)]
  · rw [State.rd_wr_same, b2n_mod_two_pow (by decide)]

/-- An update on the generator's grid, and what its owner's Treadle latches of it. -/
theorem execPgUpdate_updates (hen : s.rd F.PG_CTRL n ≠ 0) (hquad : s.quadOn (n / 64) = true) (hfine : s.rd F.WARP_STATUS_COARSE = 0)
    (hgrid : onGrid (s.rd F.PG_PERIOD n) (s.rd F.PG_PHASE n) (s.advance t).now = true) :
    ∃ u, execPgUpdate t n s = .next u ∧ Frame Touched.latchDone ((s.advance t).updateGen n) u := by
  have hen' : s.on F.PG_CTRL n = true := bne_iff_ne.mpr hen
  have hfine' : s.on F.WARP_STATUS_COARSE = false := by simp [State.on, hfine]
  simp only [execPgUpdate, s.on_advance t (f := F.PG_CTRL) (by decide), hen', State.quadOn_advance, hquad, s.on_advance t (f := F.WARP_STATUS_COARSE) (by decide), hfine',
    rd_advance s t (fld := F.PG_PERIOD) (by decide), rd_advance s t (fld := F.PG_PHASE) (by decide), hgrid, Bool.not_false, Bool.and_self, if_true]
  refine ⟨_, rfl, ?_⟩
  split
  · exact keeps_latchDone (closed_frame _ _) (Frame.refl _ _) _
  · exact Frame.refl _ _

/-! ### A host write of PG_TARGET (05 R141, R144) -/

theorem execPgHostWrite_gives (hadm : s.admits (pgOff n 0x14) = true) (hfree : s.treadleBusy (s.ownerPG n) = false) :
    execPgHostWrite t n .target value s = .next ((s.advance t).giveTarget n value.toNat) := by
  simp only [execPgHostWrite, GenReg.offset, State.hostWrite_pgOff t (by decide) hadm, State.treadleBusy_advance, State.ownerPG_advance, hfree, Bool.false_eq_true, if_false]

theorem execPgHostWrite_drops (hadm : s.admits (pgOff n 0x14) = true) (hbusy : s.treadleBusy (s.ownerPG n) = true) :
    execPgHostWrite t n .target value s = .next (((s.advance t).wr F.PG_EVENT_TARGET_DROP 1 n).discardOther (pgOff n 0x14)) := by
  simp only [execPgHostWrite, GenReg.offset, State.hostWrite_pgOff t (by decide) hadm, State.treadleBusy_advance, State.ownerPG_advance, hbusy, if_true]

theorem State.rd_giveTarget (s : State) (n : Nat) (v : Nat) : (s.giveTarget n v).rd F.PG_TARGET n = v % 2 ^ 32 := by
  simp only [State.giveTarget]
  split
  · rw [rd_putGen _ _ _ (by decide), State.rd_wr_same]; rfl
  · rw [State.rd_wr_same]; rfl

/-- An enabled generator holds the target for its next update. -/
theorem State.nextT_giveTarget {s : State} {n : Nat} (hen : s.on F.PG_CTRL n = true) (v : Nat) :
    ((s.giveTarget n v).gen n).nextT = some (toSigned 32 v * 65536) := by
  have hen' : (s.wr F.PG_TARGET v n).on F.PG_CTRL n = true := by rw [State.on, State.rd_wr_field _ (by decide)]; exact hen
  simp only [State.giveTarget, hen', if_true, State.gen_putGen_same]

end

/-- Settles O27. -/
theorem profileGeneratorsFollowTheirTarget : Obligations.ProfileGeneratorsFollowTheirTarget := by
  unfold Obligations.ProfileGeneratorsFollowTheirTarget
  refine ⟨?starts, ?stops, ?updates, ?gives, ?drops, genStep_bounded⟩
  case starts =>
    intro t n value s hadm hopen hset hidle hlo hhi hphase
    obtain ⟨hctrl, hrunning⟩ := (s.advance t).rd_startGen_enabled n
    refine ⟨_, execPgEnable_starts hadm hopen hset hidle hlo hhi hphase, ?_, ?_, ?_⟩
    · rw [rd_runChange _ (by decide), rd_wakeQuadrant _ _ (by decide), hctrl]
    · rw [rd_runChange _ (by decide), rd_wakeQuadrant _ _ (by decide), hrunning]
    · rw [State.gen_congr (State.runChange_gens _), State.gen_congr (State.wakeQuadrant_gens _ _), State.q_startGen,
        State.rdI_congr (rd_advance s t (by decide) n)]
  case stops =>
    intro t n value s hadm hopen hclear
    refine ⟨_, execPgEnable_stops hadm hopen hclear, ?_, ?_, ?_⟩ <;> rw [State.stopGen, State.rd_wr_field _ (by decide)]
    · rw [State.rd_wr_field _ (by decide), State.rd_wr_same, Nat.zero_mod]
    · rw [State.rd_wr_same, Nat.zero_mod]
    · rw [State.rd_wr_field _ (by decide), State.rd_wr_field _ (by decide), rd_advance s t (by decide)]
  case updates =>
    intro t n s hen hquad hfine hgrid hheld hjump hlimits
    obtain ⟨u, hu, hframe⟩ := execPgUpdate_updates hen hquad hfine hgrid
    have hupdate : (s.advance t).updateGen n = (s.advance t).takeUpdate n (s.nextUpdate n) := by
      rw [State.updateGen_free (by rwa [rd_advance s t (by decide)]) (by rwa [State.gen_advance]) (by rwa [State.gen_advance]), State.nextUpdate_advance]
    rw [hupdate] at hframe
    obtain ⟨hdone, hdwell⟩ := (s.advance t).rd_takeUpdate_flags n (s.nextUpdate n)
    exact ⟨u, hu, (State.gen_congr (hframe.part (p := .gens) rfl) n).trans (State.gen_takeUpdate _ _ _),
      (hframe.rd (by decide) n).trans (State.rd_takeUpdate_sp _ _ _), (hframe.rd (by decide) n).trans hdone, (hframe.rd (by decide) n).trans hdwell⟩
  case gives =>
    intro t n value s hadm hfree
    refine ⟨_, execPgHostWrite_gives hadm hfree, (State.rd_giveTarget _ _ _).trans (Nat.mod_eq_of_lt value.isLt), fun hen => ?_⟩
    have hen' : (s.advance t).on F.PG_CTRL n = true := (s.on_advance t (by decide) n).trans (bne_iff_ne.mpr hen)
    rw [State.nextT_giveTarget hen', toSigned_toNat value (by decide)]
  case drops =>
    intro t n value s hadm hbusy
    refine ⟨_, execPgHostWrite_drops hadm hbusy, ?_, ?_, ?_⟩
    · rw [rd_discardOther _ _ (by decide), State.rd_wr_same]
      rfl
    · rw [rd_discardOther _ _ (by decide), State.rd_wr_field _ (by decide), rd_advance s t (by decide)]
    · rw [State.gen_congr (State.discardOther_gens _ _), State.gen_congr (State.wr_gens _ _ _ _), State.gen_advance]

end Sys2Proof.Machine
end

section
/-! PROOFS.  A GO of an axis (06 R151): a statement that fails where a segment's fault has come due on an axis that stops for a fault. -/

namespace Sys2Proof.Machine

open Sys2Proof

/-- Axis 5 enabled and IDLE, without a trajectory, in a state that the engine itself does not enter: the start instant of a segment that cannot be
run has passed, and the axis stops for a fault already. -/
def lateFaultUp : State := axisUp.putAxis 5 { Axis.init with bad := some 0, faultStop := true }

/-- A GO brings the axis up to its instant first: the segment's fault is declared, which halts an axis that stops for a fault at once (R166), and a
halted axis keeps no request. -/
theorem execAxGo_lateFault : ∃ u, execAxGo 5 5 lateFaultUp = .next u ∧ (u.axis 5).asks = [] := ⟨_, rfl, by decide +kernel⟩

/-- Refutes O28: the statement speaks of every state; where a GO finds the fault of a segment come due on an axis that stops for a fault, the GO is
refused, and the clause of GO asks for it to wait. -/
theorem not_axisHostCommandsActOnTheEngine : ¬ Obligations.AxisHostCommandsActOnTheEngine := by
  unfold Obligations.AxisHostCommandsActOnTheEngine
  rintro ⟨-, -, -, hGo, -⟩
  obtain ⟨u, hu, hasks, -⟩ := hGo 5 5 lateFaultUp (by decide +kernel) (by decide +kernel) (by decide +kernel) rfl rfl rfl
  obtain ⟨w, hw, hnone⟩ := execAxGo_lateFault
  obtain rfl : u = w := Host.Outcome.next.inj (hu.symm.trans hw)
  exact absurd (hnone.symm.trans hasks) (by decide)

end Sys2Proof.Machine
end

section
/-! PROOFS.  An axis brought up to its instant (06 R151, R153): its trajectory and its STATE afterwards, as functions of the axis, what a stop takes
from the registers, and the instant. -/

namespace Sys2Proof.Machine

open Sys2Proof

/-! ### Reading an axis -/

theorem State.axis_congr {s u : State} (h : u.axes = s.axes) (n : Nat) : u.axis n = s.axis n := by simp only [State.axis, h]

theorem Frame.axis {t : Touch} {s u : State} (h : Frame t s u) (ht : t.hasPart .axes = false) (n : Nat) : u.axis n = s.axis n :=
  State.axis_congr (h.part (p := .axes) ht) n

theorem Frame.now {t : Touch} {s u : State} (h : Frame t s u) (ht : t.hasPart .warp = false) : u.now = s.now := congrArg Warp.now (h.part (p := .warp) ht)

@[simp] theorem State.axis_putAxis_same (s : State) (n : Nat) (x : Axis) : (s.putAxis n x).axis n = x := Tbl.get_set_same _ _ _ _

@[simp] theorem State.axis_onAxis_same (s : State) (n : Nat) (f : Axis → Axis) : (s.onAxis n f).axis n = f (s.axis n) := Tbl.get_set_same _ _ _ _

@[simp] theorem State.axis_wr (s : State) (f : Fld) (v i n : Nat) : (s.wr f v i).axis n = s.axis n := rfl

@[simp] theorem State.axis_bump (s : State) (f : Fld) (i k n : Nat) : (s.bump f i k).axis n = s.axis n := rfl

@[simp] theorem State.axis_axEvent (s : State) (m bit n : Nat) : (s.axEvent m bit).axis n = s.axis n := rfl

@[simp] theorem State.axis_putAxState (s : State) (m k n : Nat) : (s.putAxState m k).axis n = s.axis n := rfl

@[simp] theorem State.axis_advance (s : State) (t : Instant) (n : Nat) : (s.advance t).axis n = s.axis n := (frame_advance s t).axis rfl n

theorem State.frame_finishSegs (s : State) (n : Nat) : Frame Touched.finishSegs s (s.finishSegs n) := keeps_finishSegs (closed_frame _ s) (Frame.refl _ s) n

theorem State.frame_showSeg (s : State) (n : Nat) : Frame Touched.showSeg s (s.showSeg n) := keeps_showSeg (closed_frame _ s) (Frame.refl _ s) n

@[simp] theorem State.axis_finishSegs (s : State) (m n : Nat) : (s.finishSegs m).axis n = s.axis n := (s.frame_finishSegs m).axis rfl n

@[simp] theorem State.axis_showSeg (s : State) (m n : Nat) : (s.showSeg m).axis n = s.axis n := (s.frame_showSeg m).axis rfl n

/-- The STATE of an axis after it is set; the field has three bits. -/
theorem State.axState_putAxState (s : State) (n : Nat) {k : Nat} (hk : k < 8) : (s.putAxState n k).axState n = k :=
  (s.rd_wr_same _ _ _).trans (Nat.mod_eq_of_lt hk)

/-- What does not touch STATE leaves it. -/
theorem Frame.axState {t : Touch} {s u : State} (h : Frame t s u) (ht : t.has F.AX_STATUS_STATE.id = false) (n : Nat) : u.axState n = s.axState n := h.rd ht n

/-! ### The end of a trajectory (R153, R158) -/

/-- The last segment of a start, where it has ended with a velocity. -/
def Axis.openEnd (x : Axis) (now : Instant) : Option AxSeg :=
  x.traj.getLast?.filter (fun g => !x.isStop && x.homing.isNone && x.bad.isNone && g.v1 != 0 && notLater g.ends now)

/-- A stop `g` from position `p` in the place of the trajectory. -/
def Axis.stopped (x : Axis) (g : AxSeg) (p : Int) : Axis :=
  { x with traj := if g.dur = 0 then [] else [g], hold := p, isStop := true, bad := none, holdUntil := none }

/-- The position at which the trajectory has come to rest. -/
def Axis.restAt (x : Axis) (now : Instant) : Option Int :=
  if x.homing.isSome then none
  else
    match x.traj.getLast? with
    | some g => if (x.isStop || (g.v1 == 0 && x.bad.isNone)) && notLater g.ends now then some g.p1 else none
    | none => if x.isStop then some x.hold else none

/-- The axis at rest at `p`. -/
def Axis.rested (x : Axis) (p : Int) : Axis :=
  { x with traj := [], hold := p, isStop := false, holdUntil := none, faultStop := false, hitP := none, hitN := none }

/-- An open end stops. -/
def Axis.closed (x : Axis) (period decel : Nat) (now : Instant) : Axis :=
  match x.openEnd now with
  | some g => x.stopped (stopSeg period decel g.p1 g.v1 g.ends) g.p1
  | none => x

/-- What has come to rest is held. -/
def Axis.held (x : Axis) (now : Instant) : Axis :=
  match x.restAt now with
  | some p => x.rested p
  | none => x

/-- The axis brought up to `now`. -/
def Axis.caughtUp (x : Axis) (period decel : Nat) (now : Instant) : Axis := (x.closed period decel now).held now

/-- STATE of an axis brought up to `now`, from STATE `k` (Table 6.1). -/
def Axis.stateUp (x : Axis) (period decel : Nat) (now : Instant) (k : Nat) : Nat :=
  let k := if (x.openEnd now).isSome then 3 else k
  if ((x.closed period decel now).restAt now).isSome ∧ (k = 2 ∨ k = 3) then 1 else k

/-- An open end becomes a stop, and without one nothing changes. -/
theorem State.axOpenEnd_cases (s : State) (n : Nat) : ((s.axis n).openEnd s.now = none ∧ s.axOpenEnd n = s) ∨
    ∃ g, (s.axis n).openEnd s.now = some g ∧ s.axOpenEnd n = (((s.finishSegs n).axStop n g.p1 g.v1 g.ends).putAxState n 3).axEvent n 2 := by
  simp only [State.axOpenEnd, Axis.openEnd]
  cases (s.axis n).traj.getLast? with
  | none => exact .inl ⟨rfl, rfl⟩
  | some g =>
    simp only [Option.filter_some]
    split
    · exact .inr ⟨g, rfl, rfl⟩
    · exact .inl ⟨rfl, rfl⟩

/-- A trajectory that has come to rest is held, and otherwise nothing changes. -/
theorem State.axEnded_cases (s : State) (n : Nat) : ((s.axis n).restAt s.now = none ∧ s.axEnded n = s) ∨
    ∃ p b, (s.axis n).restAt s.now = some p ∧ s.axEnded n = (s.when b (·.finishSegs n)).axRest n p := by
  simp only [State.axEnded, Axis.restAt]
  split
  · exact .inl ⟨rfl, rfl⟩
  · cases (s.axis n).traj.getLast? with
    | none =>
      dsimp only
      split
      · exact .inr ⟨_, false, rfl, rfl⟩
      · exact .inl ⟨rfl, rfl⟩
    | some g =>
      dsimp only
      split
      · exact .inr ⟨_, _, rfl, rfl⟩
      · exact .inl ⟨rfl, rfl⟩

theorem State.axis_axOpenEnd (s : State) (n : Nat) :
    (s.axOpenEnd n).axis n = (s.axis n).closed (s.rd F.AX_PERIOD n) (s.rd F.AX_STOP_DECEL n) s.now := by
  rcases s.axOpenEnd_cases n with ⟨hnone, heq⟩ | ⟨g, hsome, heq⟩
  · simp only [heq, Axis.closed, hnone]
  · simp only [heq, Axis.closed, hsome, State.axis_axEvent, State.axis_putAxState, State.axStop, State.axis_onAxis_same, State.axis_finishSegs,
      rd_finishSegs s n (fld := F.AX_PERIOD) (by decide), rd_finishSegs s n (fld := F.AX_STOP_DECEL) (by decide), Axis.stopped]

theorem State.axState_axOpenEnd (s : State) (n : Nat) : (s.axOpenEnd n).axState n = if ((s.axis n).openEnd s.now).isSome then 3 else s.axState n := by
  rcases s.axOpenEnd_cases n with ⟨hnone, heq⟩ | ⟨g, hsome, heq⟩
  · simp only [heq, hnone, Option.isSome_none, Bool.false_eq_true, if_false]
  · rw [heq, hsome, Option.isSome_some, if_pos rfl, State.axState, rd_axEvent _ _ _ (by decide)]
    exact State.axState_putAxState _ n (by decide)

@[simp] theorem State.axis_when_finishSegs (s : State) (b : Bool) (n : Nat) : (s.when b (·.finishSegs n)).axis n = s.axis n := by
  cases b with
  | false => rfl
  | true => exact s.axis_finishSegs n n

theorem State.axis_axRest (s : State) (n : Nat) (p : Int) : (s.axRest n p).axis n = (s.axis n).rested p := by
  simp only [State.axRest]
  split <;> simp [Axis.rested]

theorem State.axState_axRest (s : State) (n : Nat) (p : Int) : (s.axRest n p).axState n = if s.axState n = 2 ∨ s.axState n = 3 then 1 else s.axState n := by
  have hstate (f : Axis → Axis) : (s.onAxis n f).axState n = s.axState n := rfl
  simp only [State.axRest, hstate]
  split
  · exact State.axState_putAxState _ n (by decide)
  · rfl

theorem State.axis_axEnded (s : State) (n : Nat) : (s.axEnded n).axis n = (s.axis n).held s.now := by
  rcases s.axEnded_cases n with ⟨hnone, heq⟩ | ⟨p, b, hsome, heq⟩
  · simp only [heq, Axis.held, hnone]
  · simp only [heq, Axis.held, hsome, State.axis_axRest, State.axis_when_finishSegs]

theorem State.axState_axEnded (s : State) (n : Nat) :
    (s.axEnded n).axState n = if ((s.axis n).restAt s.now).isSome ∧ (s.axState n = 2 ∨ s.axState n = 3) then 1 else s.axState n := by
  rcases s.axEnded_cases n with ⟨hnone, heq⟩ | ⟨p, b, hsome, heq⟩
  · simp [heq, hnone]
  · have hwhen : (s.when b (·.finishSegs n)).axState n = s.axState n := by
      cases b with
      | false => rfl
      | true => exact (s.frame_finishSegs n).axState rfl n
    simp only [heq, State.axState_axRest, hwhen, hsome, Option.isSome_some, true_and]

theorem State.frame_axOpenEnd (s : State) (n : Nat) : Frame Touched.axOpenEnd s (s.axOpenEnd n) := keeps_axOpenEnd (closed_frame _ s) (Frame.refl _ s) n

theorem State.frame_axUpdate (s : State) (n : Nat) : Frame Touched.axUpdate s (s.axUpdate n) := keeps_axUpdate (closed_frame _ s) (Frame.refl _ s) n

@[simp] theorem State.now_axUpdate (s : State) (n : Nat) : (s.axUpdate n).now = s.now := (s.frame_axUpdate n).now rfl

theorem State.axis_axCatchUp (s : State) (n : Nat) :
    (s.axCatchUp n).axis n = (s.axis n).caughtUp (s.rd F.AX_PERIOD n) (s.rd F.AX_STOP_DECEL n) s.now := by
  rw [State.axCatchUp, State.axis_showSeg, State.axis_axEnded, State.axis_axOpenEnd, (s.frame_axOpenEnd n).now rfl, Axis.caughtUp]

theorem State.axState_axCatchUp (s : State) (n : Nat) :
    (s.axCatchUp n).axState n = (s.axis n).stateUp (s.rd F.AX_PERIOD n) (s.rd F.AX_STOP_DECEL n) s.now (s.axState n) := by
  rw [State.axCatchUp, (State.frame_showSeg _ n).axState rfl, State.axState_axEnded, State.axState_axOpenEnd, State.axis_axOpenEnd, (s.frame_axOpenEnd n).now rfl, Axis.stateUp]

/-! ### What the catching up leaves of an axis -/

theorem Axis.bad_caughtUp {x : Axis} (h : x.bad = none) (period decel : Nat) (now : Instant) : (x.caughtUp period decel now).bad = none := by
  unfold Axis.caughtUp Axis.held Axis.closed
  split <;> split <;> simp [Axis.rested, Axis.stopped, h]

/-- What the catching up of an axis leaves: all but its trajectory, its fault's stop and the edges of its limits. -/
def Axis.kept (x : Axis) : Axis :=
  { x with traj := [], hold := 0, isStop := false, holdUntil := none, bad := none, faultStop := false, hitP := none, hitN := none }

theorem Axis.kept_stopped (x : Axis) (g : AxSeg) (p : Int) : (x.stopped g p).kept = x.kept := rfl

theorem Axis.kept_rested (x : Axis) (p : Int) : (x.rested p).kept = x.kept := rfl

theorem Axis.kept_closed (x : Axis) (period decel : Nat) (now : Instant) : (x.closed period decel now).kept = x.kept := by
  unfold Axis.closed
  split
  · exact Axis.kept_stopped x _ _
  · rfl

theorem Axis.kept_held (x : Axis) (now : Instant) : (x.held now).kept = x.kept := by
  unfold Axis.held
  split
  · exact Axis.kept_rested x _
  · rfl

theorem Axis.kept_caughtUp (x : Axis) (period decel : Nat) (now : Instant) : (x.caughtUp period decel now).kept = x.kept :=
  (Axis.kept_held _ now).trans (x.kept_closed period decel now)

/-- An axis that is IDLE once brought up stands: nothing is left to come to its end. -/
theorem Axis.caughtUp_stands {x : Axis} {period decel k : Nat} {now : Instant} (h : x.stateUp period decel now k = 1) :
    (x.caughtUp period decel now).openEnd now = none ∧ (x.caughtUp period decel now).restAt now = none := by
  unfold Axis.caughtUp Axis.held
  split
  · simp [Axis.rested, Axis.openEnd, Axis.restAt]
  · rename_i hrest
    refine ⟨?_, hrest⟩
    unfold Axis.closed
    split
    · rename_i g hopen
      simp [Axis.stateUp, hopen, hrest] at h
    · assumption

theorem Axis.caughtUp_of_stands {x : Axis} {now : Instant} (hopen : x.openEnd now = none) (hrest : x.restAt now = none) (period decel : Nat) :
    x.caughtUp period decel now = x := by
  simp only [Axis.caughtUp, Axis.held, Axis.closed, hopen, hrest]

/-! ### The axis brought up, where no segment's fault waits -/

theorem State.axUpdate_of_sound {s : State} {n : Nat} (h : (s.axis n).bad = none) : s.axUpdate n = s.axCatchUp n := by
  have hbad : ((s.axCatchUp n).axis n).bad = none := by rw [State.axis_axCatchUp, Axis.bad_caughtUp h]
  simp only [State.axUpdate, hbad, Option.any_none, Bool.false_eq_true, if_false]

theorem State.axis_axUpdate {s : State} {n : Nat} (h : (s.axis n).bad = none) :
    (s.axUpdate n).axis n = (s.axis n).caughtUp (s.rd F.AX_PERIOD n) (s.rd F.AX_STOP_DECEL n) s.now := by
  rw [State.axUpdate_of_sound h, State.axis_axCatchUp]

theorem State.axState_axUpdate {s : State} {n : Nat} (h : (s.axis n).bad = none) :
    (s.axUpdate n).axState n = (s.axis n).stateUp (s.rd F.AX_PERIOD n) (s.rd F.AX_STOP_DECEL n) s.now (s.axState n) := by
  rw [State.axUpdate_of_sound h, State.axState_axCatchUp]

end Sys2Proof.Machine
end

section
/-! PROOFS.  A fault of an axis (06 R166): its declaration, the axis' reaction, and what the report leaves. -/

namespace Sys2Proof.Machine

open Sys2Proof

/-! ### The steps of a fault -/

/-- The cause and the event of a fault, and its SYS fault class. -/
def State.declareAxFault (s : State) (n causes : Nat) : State :=
  ((s.wr F.AX_STATUS_FAULT_CAUSE (s.rd F.AX_STATUS_FAULT_CAUSE n ||| causes) n).causeClass n causes).axEvent n 8

/-- The axis halts at once, goes on with the stop in progress, or stops from its last released state. -/
def State.reactToFault (s : State) (n causes : Nat) : State :=
  if bitOf causes 2 || (s.axis n).faultStop then s.axImmediate n
  else if (s.axis n).isStop && !(s.axis n).traj.isEmpty then s
  else s.axStop n (s.rdI F.AX_POS n) (s.rdI F.AX_VEL n) (s.axis n).relAt

/-- What a fault notes of the axis. -/
def Axis.faulted (x : Axis) : Axis := { x with faultStop := true, homing := none, lateRun := 0, feRun := 0 }

/-- The record of a fault that shows `shown`, its route, and the STOP of the partition. -/
def State.reportAxFault (s : State) (n causes shown : Nat) : State :=
  let s := s.axRecord n 8 shown
  let s := (s.when (s.axis n).halted (·.refuseAsks n)).emitFrom 3 n 0
  match s.ownerAX n with
  | some p => if bitOf causes 2 || s.on F.AX_CTRL_FAULT_REACT n then s.partStop p 4 else s
  | none => s

/-- The state of an axis that a fault has halted or stops, before the report. -/
def State.enterFaulted (s : State) (n causes : Nat) : State := (((s.declareAxFault n causes).reactToFault n causes).onAxis n Axis.faulted).putAxState n 5

theorem State.axFault_eq (s : State) (n causes : Nat) : ∃ shown, s.axFault n causes = (s.enterFaulted n causes).reportAxFault n causes shown := by
  refine ⟨(((s.declareAxFault n causes).reactToFault n causes).onAxis n Axis.faulted).rd F.AX_STATUS_FAULT_CAUSE n, ?_⟩
  simp only [State.axFault, State.reportAxFault, State.enterFaulted, State.reactToFault, State.declareAxFault]
  rfl

/-! ### What the report leaves -/

/-- A property that each step of the report keeps. -/
theorem keeps_reportAxFault {I : State → Prop} {n : Nat} (hrecord : Closed I Touched.axRecord) (hemit : Closed I Touched.emitFrom)
    (hrefuse : ∀ u, Holds I u → Holds I (u.refuseAsks n)) (hstop : ∀ u p, Holds I u → Holds I (u.partStop p 4)) {s : State} (hs : Holds I s)
    (causes shown : Nat) : Holds I (s.reportAxFault n causes shown) := by
  have hrouted := keeps_emitFrom hemit (keeps_when (keeps_axRecord hrecord hs n 8 shown) ((s.axRecord n 8 shown).axis n).halted (·.refuseAsks n) hrefuse) 3 n 0
  simp only [State.reportAxFault]
  split
  · exact Keeps.ite (hstop _ _ hrouted) hrouted
  · exact hrouted

theorem State.rd_reportAxFault (s : State) (n causes shown : Nat) {f : Fld}
    (hf : ∀ t ∈ [Touched.axRecord, Touched.refuseAsks, Touched.emitFrom, Touched.partStop], t.has f.id = false) (i : Nat) :
    (s.reportAxFault n causes shown).rd f i = s.rd f i := by
  simp only [List.forall_mem_cons] at hf
  obtain ⟨hrecord, hrefuse, hemit, hstop, -⟩ := hf
  exact keeps_reportAxFault (I := fun u => u.rd f i = s.rd f i) (closed_rd f i _ hrecord) (closed_rd f i _ hemit)
    (fun u hu => (rd_refuseAsks u n hrefuse i).trans hu) (fun u p hu => (rd_partStop u p 4 hstop i).trans hu) rfl causes shown

/-- An event bit of an axis that stays set. -/
def EventSet (n k : Nat) (s : State) : Prop := bitOf (s.rd F.AX_EVENT n) k = true

theorem closed_eventSet {n k : Nat} {t : Touch} (h : t.has F.AX_EVENT.id = false) : Closed (EventSet n k) t :=
  closed_of_frame fun _ _ hf hs => (congrArg (bitOf · k) (hf.rd h n)).trans hs

theorem EventSet.of_axEvent {k : Nat} (hk : k < 16) (s : State) (n : Nat) : EventSet n k (s.axEvent n k) := bitOf_rd_setBit s F.AX_EVENT hk n

theorem EventSet.axEvent {n k : Nat} {s : State} (h : EventSet n k s) (hk : k < 16) (bit : Nat) : EventSet n k (s.axEvent n bit) := by
  have h' : (s.rd F.AX_EVENT n).testBit k = true := h
  rw [EventSet, State.axEvent, State.rd_setBit_same, bitOf, Nat.testBit_mod_two_pow]
  simp [withBit, h', show k < F.AX_EVENT.width from hk]

theorem EventSet.refuseAsks {n k : Nat} {s : State} (h : EventSet n k s) (hk : k < 16) : EventSet n k (s.refuseAsks n) :=
  Keeps.foldl (I := EventSet n k) (fun _ _ hu => keeps_axRecord (closed_eventSet (by decide)) (EventSet.axEvent hu hk 0) _ _ _) _
    (keeps_onAxis (closed_eventSet (by decide)) h _ _)

theorem EventSet.reportAxFault {n k : Nat} {s : State} (h : EventSet n k s) (hk : k < 16) (causes shown : Nat) : EventSet n k (s.reportAxFault n causes shown) :=
  keeps_reportAxFault (closed_eventSet (by decide)) (closed_eventSet (by decide)) (fun _ hu => EventSet.refuseAsks hu hk)
    (fun _ _ hu => keeps_partStop (closed_eventSet (by decide)) hu _ _) h _ _

theorem EventSet.reactToFault {n k : Nat} {s : State} (h : EventSet n k s) (causes : Nat) : EventSet n k (s.reactToFault n causes) :=
  Keeps.ite (keeps_axImmediate (closed_eventSet (by decide)) h n) (Keeps.ite h (keeps_axStop (closed_eventSet (by decide)) h _ _ _ _))

theorem EventSet.enterFaulted {n k : Nat} {s : State} {causes : Nat} (h : EventSet n k (s.declareAxFault n causes)) : EventSet n k (s.enterFaulted n causes) :=
  keeps_putAxState (closed_eventSet (by decide)) (keeps_onAxis (closed_eventSet (by decide)) (h.reactToFault causes) n _) n 5

/-- A fault sets AX_FAULT. -/
theorem State.event_axFault (s : State) (n causes : Nat) : EventSet n 8 (s.axFault n causes) := by
  obtain ⟨shown, heq⟩ := s.axFault_eq n causes
  rw [heq]
  exact (EventSet.enterFaulted (EventSet.of_axEvent (by decide) _ _)).reportAxFault (by decide) _ _

/-- It clears none. -/
theorem EventSet.axFault {n k : Nat} {s : State} (h : EventSet n k s) (hk : k < 16) (causes : Nat) : EventSet n k (s.axFault n causes) := by
  obtain ⟨shown, heq⟩ := s.axFault_eq n causes
  have hdeclared : EventSet n k (s.declareAxFault n causes) :=
    EventSet.axEvent (keeps_causeClass (closed_eventSet (by decide)) (keeps_wr (closed_eventSet (by decide)) h _ _) n causes) hk 8
  rw [heq]
  exact hdeclared.enterFaulted.reportAxFault hk _ _

/-! ### The registers of a fault -/

theorem State.axState_axFault (s : State) (n causes : Nat) : (s.axFault n causes).axState n = 5 := by
  obtain ⟨shown, heq⟩ := s.axFault_eq n causes
  rw [heq, State.axState, State.rd_reportAxFault _ _ _ _ (by decide)]
  exact State.axState_putAxState _ n (by decide)

theorem State.rd_reactToFault (s : State) (n causes : Nat) {f : Fld} (hhalt : Touched.axImmediate.has f.id = false) (hstop : Touched.axStop.has f.id = false) (i : Nat) :
    (s.reactToFault n causes).rd f i = s.rd f i := by
  unfold State.reactToFault
  split
  · exact rd_axImmediate s n hhalt i
  · split
    · rfl
    · exact rd_axStop s n _ _ _ hstop i

/-- A cause of a fault stands in FAULT_CAUSE. -/
theorem State.cause_axFault (s : State) (n : Nat) {causes k : Nat} (hk : k < F.AX_STATUS_FAULT_CAUSE.width) (hcause : bitOf causes k = true) :
    bitOf ((s.axFault n causes).rd F.AX_STATUS_FAULT_CAUSE n) k = true := by
  obtain ⟨shown, heq⟩ := s.axFault_eq n causes
  rw [heq, State.rd_reportAxFault _ _ _ _ (by decide), State.enterFaulted, rd_putAxState _ _ _ (by decide), rd_onAxis _ _ _ (by decide),
    State.rd_reactToFault _ _ _ (by decide) (by decide), State.declareAxFault, rd_axEvent _ _ _ (by decide), rd_causeClass _ _ _ (by decide),
    State.rd_wr_same, bitOf, Nat.testBit_mod_two_pow, Nat.testBit_or, show causes.testBit k = true from hcause]
  simp [hk]

/-! ### The axis of a fault -/

@[simp] theorem State.axis_causeClass (s : State) (m causes n : Nat) : (s.causeClass m causes).axis n = s.axis n :=
  (keeps_causeClass (closed_frame _ s) (Frame.refl _ s) m causes).axis rfl n

@[simp] theorem State.axis_driveLevel (s : State) (pin : Nat) (b : Bool) (n : Nat) : (s.driveLevel pin b).axis n = s.axis n :=
  (keeps_driveLevel (closed_frame _ s) (Frame.refl _ s) pin b).axis rfl n

/-- A property of an axis that only changes of axes could change. -/
theorem closed_axis (P : Axis → Prop) (n : Nat) {t : Touch} (h : t.hasPart .axes = false) : Closed (fun u => P (u.axis n)) t :=
  closed_of_frame fun _ _ hf hs => (hf.axis h n).symm ▸ hs

theorem State.axis_refuseAsks (s : State) (n : Nat) : (s.refuseAsks n).axis n = { s.axis n with asks := [] } :=
  Keeps.foldl (I := fun u => u.axis n = { s.axis n with asks := [] })
    (fun u _ hu => keeps_axRecord (closed_axis (· = _) n (by decide)) (show (u.axEvent n 0).axis n = _ from hu) _ _ _) _ (State.axis_onAxis_same _ _ _)

/-- The axis with other requests. -/
def Axis.withAsks (x : Axis) (asks : List Bool) : Axis := { x with asks := asks }

/-- An axis that differs from `y` in its requests alone. -/
def Axis.SameButAsks (y x : Axis) : Prop := ∃ asks, x = y.withAsks asks

/-- The report changes nothing of the axis but its requests. -/
theorem State.axis_reportAxFault (s : State) (n causes shown : Nat) : (s.axis n).SameButAsks ((s.reportAxFault n causes shown).axis n) := by
  have hclosed {t : Touch} (ht : t.hasPart .axes = false) := closed_axis (s.axis n).SameButAsks n ht
  refine keeps_reportAxFault (I := fun u => (s.axis n).SameButAsks (u.axis n)) (hclosed (by decide)) (hclosed (by decide)) (fun u hu => ?_)
    (fun u p hu => keeps_partStop (hclosed (by decide)) hu p 4) ⟨_, rfl⟩ causes shown
  obtain ⟨_, hu⟩ := hu
  refine ⟨[], ?_⟩
  rw [u.axis_refuseAsks n, hu]
  rfl

theorem State.axis_axImmediate (s : State) (n : Nat) : (s.axImmediate n).axis n =
    { s.axis n with traj := [], hold := s.rdI F.AX_POS n, isStop := false, bad := none, holdUntil := none, eval := none, lates := [], pulses := [], falls := [], halted := true } := by
  have hwhen (u : State) (b : Bool) (f : State → State) (hf : ∀ w, (f w).axis n = w.axis n) : (u.when b f).axis n = u.axis n := by
    cases b with
    | false => rfl
    | true => exact hf u
  simp only [State.axImmediate]
  split
  · rw [hwhen _ _ _ (fun w => w.axis_driveLevel _ _ n), State.axis_onAxis_same]
  · refine keeps_each (I := fun u => u.axis n = _) (State.axis_onAxis_same _ _ _) _ _ fun u k hu => ?_
    exact (u.axis_driveLevel k false n).trans hu
  · exact State.axis_onAxis_same _ _ _

theorem State.axis_declareAxFault (s : State) (n causes : Nat) : (s.declareAxFault n causes).axis n = s.axis n := by
  rw [State.declareAxFault, State.axis_axEvent, State.axis_causeClass, State.axis_wr]

/-- A fault of cause STALL halts the axis at once. -/
theorem State.axis_axFault_stall (s : State) (n : Nat) {causes : Nat} (hstall : bitOf causes 2 = true) :
    ((s.axFault n causes).axis n).halted = true ∧ ((s.axFault n causes).axis n).pulses = [] ∧ ((s.axFault n causes).axis n).traj = [] := by
  obtain ⟨shown, heq⟩ := s.axFault_eq n causes
  obtain ⟨asks, hreport⟩ := (s.enterFaulted n causes).axis_reportAxFault n causes shown
  have hreact : (s.declareAxFault n causes).reactToFault n causes = (s.declareAxFault n causes).axImmediate n := by
    rw [State.reactToFault, hstall, Bool.true_or, if_pos rfl]
  rw [heq, hreport, State.enterFaulted, State.axis_putAxState, State.axis_onAxis_same, hreact, State.axis_axImmediate]
  exact ⟨rfl, rfl, rfl⟩

theorem State.eval_reactToFault {s : State} {n : Nat} (h : (s.axis n).eval = none) (causes : Nat) : ((s.reactToFault n causes).axis n).eval = none := by
  unfold State.reactToFault
  split
  · rw [State.axis_axImmediate]
  · split
    · exact h
    · rw [State.axStop, State.axis_onAxis_same]
      exact h

/-- No fault puts an evaluation in flight. -/
theorem State.eval_axFault {s : State} {n : Nat} (h : (s.axis n).eval = none) (causes : Nat) : ((s.axFault n causes).axis n).eval = none := by
  have hreact := State.eval_reactToFault ((congrArg Axis.eval (s.axis_declareAxFault n causes)).trans h) causes
  obtain ⟨shown, heq⟩ := s.axFault_eq n causes
  obtain ⟨asks, hreport⟩ := (s.enterFaulted n causes).axis_reportAxFault n causes shown
  rw [heq, hreport, State.enterFaulted, State.axis_putAxState, State.axis_onAxis_same]
  exact hreact

end Sys2Proof.Machine
end

section
/-! PROOFS.  A start of an axis and its evaluation at a strobe (06 R146, R151, R153). -/

namespace Sys2Proof.Machine

open Sys2Proof

/-! ### An axis that stands or runs -/

/-- Bringing up an axis with nothing at its end changes neither the axis nor STATE. -/
theorem State.axUpdate_of_stands {s : State} {n : Nat} (hbad : (s.axis n).bad = none) (hopen : (s.axis n).openEnd s.now = none)
    (hrest : (s.axis n).restAt s.now = none) : (s.axUpdate n).axis n = s.axis n ∧ (s.axUpdate n).axState n = s.axState n := by
  refine ⟨(State.axis_axUpdate hbad).trans (Axis.caughtUp_of_stands hopen hrest _ _), ?_⟩
  simp [State.axState_axUpdate hbad, Axis.stateUp, Axis.closed, hopen, hrest]

/-- An axis that is IDLE once brought up stands. -/
theorem State.stands_of_idle {s : State} {n : Nat} (hbad : (s.axis n).bad = none) (hidle : (s.axUpdate n).axState n = 1) :
    ((s.axUpdate n).axis n).bad = none ∧ ((s.axUpdate n).axis n).openEnd s.now = none ∧ ((s.axUpdate n).axis n).restAt s.now = none := by
  rw [State.axState_axUpdate hbad] at hidle
  rw [State.axis_axUpdate hbad]
  exact ⟨Axis.bad_caughtUp hbad _ _ _, Axis.caughtUp_stands hidle⟩

/-- An instant that lies ahead by less than half of the count's range has not come. -/
theorem notLater_addNs_self (now : Instant) {dur : Nat} (hpos : 0 < dur) (hlt : dur < 2 ^ 32) : notLater (addNs now dur) now = false := by
  have hsince : sinceS (addNs now dur) now = 16 * dur := by
    rw [sinceS, addNs, add_sub_cancel_left, BitVec.toInt_ofNat', Int.bmod_eq_of_le] <;> omega
  rw [notLater, hsince]
  exact decide_eq_false (by omega)

/-- An axis with a segment that has not ended stands or runs: nothing comes to its end. -/
theorem Axis.stands_of_running {x : Axis} {g : AxSeg} {now : Instant} (htraj : x.traj = [g]) (hends : notLater g.ends now = false) :
    x.openEnd now = none ∧ x.restAt now = none := by
  simp [Axis.openEnd, Axis.restAt, htraj, hends]

/-! ### A start of one segment (R151) -/

/-- The axis on the one segment `g` of a start. -/
def Axis.started (x : Axis) (g : AxSeg) (first : Nat) (hold : Option Instant) : Axis :=
  { x with traj := [g], bad := none, hold := g.p0, isStop := false, first := first, holdUntil := hold }

theorem Axis.same_started (x : Axis) (g : AxSeg) (first : Nat) (hold : Option Instant) : (x.started g first hold).traj = [g] ∧ (x.started g first hold).asks = x.asks ∧
    (x.started g first hold).halted = x.halted ∧ (x.started g first hold).homing = x.homing ∧ (x.started g first hold).segs = x.segs := ⟨rfl, rfl, rfl, rfl, rfl⟩

/-- The one segment of a start of axis `n` at an instant, from where the axis then is. -/
def State.firstSeg (s : State) (n : Nat) (r : SegRec) (at_ : Instant) : AxSeg :=
  let from_ := if s.axState n = 2 then s.axAt n at_ else ((s.axis n).hold, 0)
  ⟨at_, r.dur, from_.1, from_.2, r.endPos, r.endVel, false⟩

theorem State.firstSeg_of_idle {s : State} {n : Nat} (h : s.axState n = 1) (r : SegRec) (at_ : Instant) :
    s.firstSeg n r at_ = ⟨at_, r.dur, (s.axis n).hold, 0, r.endPos, r.endVel, false⟩ := by
  simp [State.firstSeg, h]

/-- The start put in force. -/
def State.placeStart (s : State) (n : Nat) (g : AxSeg) (first : Nat) (hold : Option Instant) : State :=
  (((if s.axState n = 2 then s.axEvent n 1 else s).putAxis n ((s.axis n).started g first hold)).putAxState n 2).axCount n F.AX_ODO_MOVES 1

theorem planSegs_one {segs : Tbl SegRec} {first : Nat} {r : SegRec} (h : segs.find first = some r) (p v : Int) (t : Instant) :
    planSegs segs 1 first p v t = ([⟨t, r.dur, p, v, r.endPos, r.endVel, false⟩], none) := by
  simp only [planSegs, h]

/-- What counting a start may change. -/
def Touched.countStart : Touch := { regs := [F.AX_ODO_MOVES, F.AX_EVENT] }

theorem State.frame_countStart (s : State) (n k : Nat) : Frame Touched.countStart s (s.axCount n F.AX_ODO_MOVES k) :=
  keeps_axCount ((closed_frame _ s).mono (by decide)) (Frame.refl _ s) n F.AX_ODO_MOVES k ((closed_frame _ s).mono (by decide))

theorem State.axis_placeStart (s : State) (n : Nat) (g : AxSeg) (first : Nat) (hold : Option Instant) :
    (s.placeStart n g first hold).axis n = (s.axis n).started g first hold := by
  rw [State.placeStart, (State.frame_countStart _ n 1).axis rfl, State.axis_putAxState, State.axis_putAxis_same]

theorem State.axState_placeStart (s : State) (n : Nat) (g : AxSeg) (first : Nat) (hold : Option Instant) : (s.placeStart n g first hold).axState n = 2 := by
  rw [State.placeStart, (State.frame_countStart _ n 1).axState rfl]
  exact State.axState_putAxState _ n (by decide)

theorem State.now_placeStart (s : State) (n : Nat) (g : AxSeg) (first : Nat) (hold : Option Instant) : (s.placeStart n g first hold).now = s.now := by
  have hreplaced (b : Prop) [Decidable b] : (if b then s.axEvent n 1 else s).now = s.now := by split <;> rfl
  exact ((State.frame_countStart _ n 1).now rfl).trans (hreplaced _)

section
variable {s : State} {n first : Nat} {r : SegRec} (hold : Option Instant) (hbad : (s.axis n).bad = none)
  (hstate : (s.axUpdate n).axState n = 1 ∨ (s.axUpdate n).axState n = 2) (hasks : (s.axis n).asks = []) (hfirst : first < 4096)
  (hseg : (s.axis n).segs.find first = some r)
include hbad hstate hasks hfirst hseg

/-- A start that nothing refuses. -/
theorem State.axStart_performed (at_ : Instant) :
    s.axStart n first 1 at_ hold = ((s.axUpdate n).placeStart n ((s.axUpdate n).firstSeg n r at_) first hold).axUpdate n := by
  have hkept : ((s.axUpdate n).axis n).kept = (s.axis n).kept := by rw [State.axis_axUpdate hbad, Axis.kept_caughtUp]
  have hseg' : ((s.axUpdate n).axis n).segs.find first = some r := (congrArg (fun x => x.segs.find first) hkept).trans hseg
  have hgo : ¬ (((s.axUpdate n).axState n ≠ 1 ∧ (s.axUpdate n).axState n ≠ 2) ∨ ((s.axUpdate n).axis n).asks.contains false = true ∨ 1 = 0 ∨ 4096 < first + 1) := by
    rw [show ((s.axUpdate n).axis n).asks = [] from (congrArg Axis.asks hkept).trans hasks]
    rintro (⟨hidle, hmoving⟩ | hhalt | hcount | hlast)
    · exact hstate.elim hidle hmoving
    · cases hhalt
    · cases hcount
    · omega
  simp only [State.axStart, if_neg hgo, planSegs_one hseg']
  rfl

/-- Afterwards the axis is MOVING on the segment. -/
theorem State.axStart_moving (hpos : 0 < r.dur) (hlt : r.dur < 2 ^ 32) :
    (s.axStart n first 1 s.now hold).axis n = ((s.axUpdate n).axis n).started ((s.axUpdate n).firstSeg n r s.now) first hold ∧
    (s.axStart n first 1 s.now hold).axState n = 2 := by
  generalize hg : (s.axUpdate n).firstSeg n r s.now = g
  have hends : notLater g.ends s.now = false := by
    rw [← hg]
    exact notLater_addNs_self s.now hpos hlt
  have hnow : ((s.axUpdate n).placeStart n g first hold).now = s.now := (State.now_placeStart _ _ _ _ _).trans (s.now_axUpdate n)
  have haxis := (s.axUpdate n).axis_placeStart n g first hold
  obtain ⟨hopen, hrest⟩ := Axis.stands_of_running (x := ((s.axUpdate n).axis n).started g first hold) rfl hends
  obtain ⟨hsame, hstateSame⟩ := State.axUpdate_of_stands (s := (s.axUpdate n).placeStart n g first hold) (n := n) (by rw [haxis]; rfl) (by rw [haxis, hnow, hopen])
    (by rw [haxis, hnow, hrest])
  rw [State.axStart_performed hold hbad hstate hasks hfirst hseg, hg]
  exact ⟨hsame.trans haxis, hstateSame.trans (State.axState_placeStart _ _ _ _ _)⟩

/-- On it nothing comes to its end. -/
theorem State.axStart_runs (hpos : 0 < r.dur) (hlt : r.dur < 2 ^ 32) :
    ((s.axStart n first 1 s.now hold).axis n).bad = none ∧ ((s.axStart n first 1 s.now hold).axis n).openEnd s.now = none ∧
    ((s.axStart n first 1 s.now hold).axis n).restAt s.now = none := by
  rw [(State.axStart_moving hold hbad hstate hasks hfirst hseg hpos hlt).1]
  exact ⟨rfl, Axis.stands_of_running rfl (notLater_addNs_self s.now hpos hlt)⟩

end

theorem State.frame_axStart (s : State) (n first count : Nat) (at_ : Instant) (hold : Option Instant) :
    Frame Touched.axStart s (s.axStart n first count at_ hold) := keeps_axStart (closed_frame _ s) (Frame.refl _ s) n first count at_ hold

/-! ### An evaluation (R146, R153) -/

theorem State.homingStep_of_none {s : State} {n : Nat} (h : (s.axis n).homing = none) : s.homingStep n = s := by
  simp only [State.homingStep, h]

theorem State.endHoming_of_none {s : State} {n : Nat} (h : (s.axis n).homing = none) : s.endHoming n = s := by
  simp only [State.endHoming, h]

theorem State.virtualLimit_of_off {s : State} {n : Nat} (h : ¬ (s.axState n = 2 ∧ s.on F.AX_CTRL_VLIM_EN n = true)) : s.virtualLimit n = s :=
  if_neg fun ⟨hmoving, hon, _⟩ => h ⟨hmoving, hon⟩

/-- The state that a trajectory gives depends on the axis alone. -/
theorem State.axAt_congr {s u : State} {n : Nat} (h : u.axis n = s.axis n) (t : Instant) : u.axAt n t = s.axAt n t := by
  simp only [State.axAt, h]

/-- The axis with an evaluation in flight. -/
def Axis.evaluating (x : Axis) (moved : Option Instant) (e : AxEval) : Axis := { x with moved := moved, eval := some e }

theorem Axis.asks_evaluating (x : Axis) (moved : Option Instant) (e : AxEval) : (x.evaluating moved e).asks = x.asks := rfl

theorem Axis.traj_evaluating (x : Axis) (moved : Option Instant) (e : AxEval) : (x.evaluating moved e).traj = x.traj := rfl

/-- What an evaluation of the state `c` at `now` puts in flight. -/
def AxEval.of (e : AxEval) (now : Instant) (latency : Nat) (c : Int × Int) : Prop :=
  e.at_ = now ∧ e.due = addNs now latency ∧ e.p = c.1 ∧ e.v = c.2 ∧ e.ready = none

/-- Its duties leave that. -/
theorem AxEval.of.withDuty {e : AxEval} {now : Instant} {latency : Nat} {c : Int × Int} (h : e.of now latency c) (s : State) (n q : Nat) :
    (s.withDuty n e q).of now latency c := by
  simp only [State.withDuty]
  split <;> exact h

theorem State.axis_axEvaluate (s : State) (n : Nat) : ∃ moved e, (s.axEvaluate n).axis n = (s.axis n).evaluating moved e ∧
    e.of s.now (s.rd F.AX_LATENCY n) (s.axAt n s.now) := by
  unfold State.axEvaluate
  extract_lets c hits noted free known fb drawn e put
  obtain ⟨moved, hmoved⟩ : ∃ moved, noted.axis n = { s.axis n with moved := moved } := by
    by_cases hv : c.2 = 0
    · exact ⟨(s.axis n).moved, by simp only [noted, if_pos hv]⟩
    · exact ⟨some s.now, by simp only [noted, if_neg hv, State.axis_onAxis_same]⟩
  have hnoted : noted.regs = s.regs ∧ noted.warp = s.warp := by simp only [noted]; split <;> exact ⟨rfl, rfl⟩
  have hdrawn : drawn.regs = s.regs ∧ drawn.warp = s.warp ∧ drawn.axis n = noted.axis n := by
    simp only [drawn]
    split <;> exact ⟨hnoted.1, hnoted.2, rfl⟩
  obtain ⟨hregs, hwarp, haxis⟩ := hdrawn
  have he : e.of s.now (s.rd F.AX_LATENCY n) c :=
    ⟨congrArg Warp.now hwarp, by rw [← State.rd_congr hregs, ← show drawn.now = s.now from congrArg Warp.now hwarp], rfl, rfl, rfl⟩
  have hput (u : State) (hu : u.axis n = drawn.axis n) (e' : AxEval) (he' : e'.of s.now (s.rd F.AX_LATENCY n) c) :
      ∃ moved e, (put u e').axis n = (s.axis n).evaluating moved e ∧ e.of s.now (s.rd F.AX_LATENCY n) c :=
    ⟨moved, e', by rw [State.axis_onAxis_same, hu, haxis, hmoved]; rfl, he'⟩
  split
  · split
    · exact hput _ rfl _ (he.withDuty _ n _)
    · have hain : (drawn.strobeAin (drawn.rd F.AX_COIL_V_VBUS_AIN n)).1.axis n = drawn.axis n :=
        (keeps_strobeAin (closed_frame _ drawn) (Frame.refl _ drawn) _).axis rfl n
      split
      · exact hput _ hain _ (he.withDuty _ n _)
      · exact hput _ hain _ he
  · exact hput _ rfl _ he

end Sys2Proof.Machine
end

section
/-! PROOFS.  The release of an evaluation of an axis, in time and late (06 R147, R154, R157). -/

namespace Sys2Proof.Machine

open Sys2Proof

/-! ### The steps of a release in time -/

/-- The axis whose evaluation is released: a limit's edge behind the evaluation stays, and so does every one of a stop (06 R160). -/
def Axis.acted (x : Axis) (stops : Bool) (e : AxEval) : Axis :=
  { x with eval := none, lateRun := 0, hitP := x.hitP.filter (fun i => stops || earlier e.at_ i), hitN := x.hitN.filter (fun i => stops || earlier e.at_ i) }

/-- A result taken from the axis, with its slack. -/
def State.takeResult (s : State) (n : Nat) (e : AxEval) (ready : Instant) : State :=
  (s.noteSlack (sinceNs s.now ready) 1 n).onAxis n (·.acted ((s.noteSlack (sinceNs s.now ready) 1 n).axis n).isStop e)

/-- The pulses that the position of an evaluation is away from STEP_POS. -/
def State.stepsTo (s : State) (n : Nat) (e : AxEval) : Int := rshr e.p 8 - s.rdI F.AX_STEP_POS n

/-- The faults that keep a result back. -/
def State.releaseCauses (s : State) (n : Nat) (e : AxEval) : Nat :=
  e.causes ||| (if fits32 e.p && fits32 e.v then if s.rateExceeded n (s.stepsTo n e).natAbs then 64 else 0 else 128)

/-- The registers that show a released evaluation. -/
def State.showAxis (s : State) (n : Nat) (e : AxEval) (fe : Int) : State :=
  ((((s.wrI F.AX_POS e.p n).wrI F.AX_VEL e.v n).wrI F.AX_FBPOS e.fb n).wrI F.AX_FE fe n).wrI F.AX_STEP_POS (rshr e.p 8) n

/-- What a released evaluation leaves beside its output and its registers. -/
def State.finishRelease (s : State) (n : Nat) (e : AxEval) (steps fe : Int) : State :=
  let s := (s.onAxis n (fun x => { x with relAt := e.at_, coil := [e.ia, e.ib, e.da, e.db] })).bump F.AX_DIAG_CNT_DUTY_SAT_CNT n e.sats
  let s := if steps = 0 then s else s.axCount n F.AX_ODO_STEPS steps.natAbs
  ((s.publish 3 n (ofSigned 32 e.p)).releaseChans 1 n e.at_).resumedHomed n fe

/-- An evaluation delivered: its output driven, its registers shown. -/
def State.deliverAxis (s : State) (n : Nat) (e : AxEval) (fe : Int) : State :=
  ((s.axDrive n e (s.stepsTo n e)).showAxis n e fe).finishRelease n e (s.stepsTo n e) fe

theorem State.hardStop_of_none {s : State} {n : Nat} (h : (s.axis n).homing = none) (e : AxEval) : s.hardStop n e = (s, e) := by
  simp only [State.hardStop, h]

/-- An evaluation that no fault keeps back is delivered. -/
theorem State.axRelease_delivers {s : State} {n : Nat} {e : AxEval} {ready : Instant} (hhoming : ((s.takeResult n e ready).axis n).homing = none)
    (hcauses : (s.takeResult n e ready).releaseCauses n e = 0) : s.axRelease n e ready =
    (((s.takeResult n e ready).deliverAxis n e (sat32 (e.p - e.fb))).followCheck n (sat32 (e.p - e.fb))).endHoming n := by
  unfold State.axRelease
  extract_lets noted acted taken fit steps causes kept fe r
  have htaken : taken = s.takeResult n e ready := rfl
  have hquiet : causes = 0 := hcauses
  rw [← htaken] at hhoming ⊢
  have hr : r = (taken, e) := State.hardStop_of_none hhoming e
  clear_value taken r
  subst hr
  rw [hquiet, if_neg (by decide)]
  exact rfl

/-- A following error within FE_LIMIT, or without one. -/
theorem State.followCheck_within {s : State} {n : Nat} {fe : Int} (h : s.rd F.AX_FE_LIMIT n = 0 ∨ fe.natAbs ≤ s.rd F.AX_FE_LIMIT n) :
    s.followCheck n fe = s.onAxis n (fun x => { x with feRun := 0 }) := by
  have hrun (off : Bool) : ¬ (s.rd F.AX_FE_LIMIT n ≠ 0 ∧ s.rd F.AX_FE_LIMIT n < fe.natAbs ∧ off = true) := by
    rintro ⟨hon, hbeyond, -⟩
    omega
  simp only [State.followCheck, if_neg (hrun _), ne_eq, not_true_eq_false, false_and, if_false]

@[simp] theorem State.axis_noteSlack (s : State) (ns : Int) (kind id n : Nat) : (s.noteSlack ns kind id).axis n = s.axis n :=
  (keeps_noteSlack (closed_frame _ s) (Frame.refl _ s) ns kind id).axis rfl n

/-! ### A released axis -/

/-- An axis whose evaluation is released, that homes nothing: nothing is in flight, and its run of lates has ended. -/
def Axis.Released (x : Axis) : Prop := x.eval = none ∧ x.lateRun = 0 ∧ x.homing = none

theorem Axis.Released.takeResult {s : State} {n : Nat} (h : (s.axis n).homing = none) (e : AxEval) (ready : Instant) : ((s.takeResult n e ready).axis n).Released := by
  rw [State.takeResult, State.axis_onAxis_same, State.axis_noteSlack]
  exact ⟨rfl, rfl, h⟩

section
variable {s : State} {n : Nat} (h : (s.axis n).Released)
include h

theorem Axis.Released.axDrive (e : AxEval) (k : Int) : ((s.axDrive n e k).axis n).Released := by
  have hring (r c : Nat) (bytes : List Byte) : ((s.ringSend r c bytes).axis n).Released := keeps_ringSend (closed_axis Axis.Released n (by decide)) h r c bytes
  simp only [State.axDrive]
  split
  · split
    · exact h
    · rw [State.axis_onAxis_same, State.axis_wr, State.axis_driveLevel]
      exact h
  · exact keeps_drivePhase (closed_axis Axis.Released n (by decide)) (keeps_drivePhase (closed_axis Axis.Released n (by decide)) h n _ _ _) n _ _ _
  · split
    · exact hring _ _ _
    · exact hring _ _ _
    · exact hring _ _ _
    · exact h

theorem Axis.Released.finishRelease (e : AxEval) (steps fe : Int) : ((s.finishRelease n e steps fe).axis n).Released := by
  have hnoted : (((s.onAxis n (fun x => { x with relAt := e.at_, coil := [e.ia, e.ib, e.da, e.db] })).bump F.AX_DIAG_CNT_DUTY_SAT_CNT n e.sats).axis n).Released := by
    rw [State.axis_bump, State.axis_onAxis_same]
    exact h
  have hresumed (u : State) (hu : (u.axis n).Released) : ((u.resumedHomed n fe).axis n).Released := by
    have hchecked : ((u.onAxis n (fun x => { x with checkHomed := false })).axis n).Released := by
      rw [State.axis_onAxis_same]
      exact hu
    simp only [State.resumedHomed]
    split
    · split
      · exact hchecked
      · exact hchecked
    · exact hu
  refine hresumed _ (keeps_releaseChans (closed_axis Axis.Released n (by decide)) (keeps_publish (closed_axis Axis.Released n (by decide)) ?_ _ _ _) _ _ _)
  split
  · exact hnoted
  · exact keeps_axCount (closed_axis Axis.Released n (by decide)) hnoted n _ _ (closed_axis Axis.Released n (by decide))

theorem Axis.Released.deliverAxis (e : AxEval) (fe : Int) : ((s.deliverAxis n e fe).axis n).Released :=
  Axis.Released.finishRelease (show ((((s.axDrive n e (s.stepsTo n e)).showAxis n e fe).axis n).Released) from h.axDrive e _) e _ fe

end

/-! ### The registers of a release in time -/

theorem State.rd_takeResult (s : State) (n : Nat) (e : AxEval) (ready : Instant) {f : Fld} (hslack : Touched.noteSlack.has f.id = false) (i : Nat) :
    (s.takeResult n e ready).rd f i = s.rd f i :=
  (State.rd_congr rfl f i).trans (rd_noteSlack s _ _ _ hslack i)

theorem State.rd_finishRelease (s : State) (n : Nat) (e : AxEval) (steps fe : Int) {f : Fld}
    (hf : ∀ t ∈ [Touched.onAxis, Touched.axCount, Touched.publish, Touched.releaseChans, Touched.resumedHomed, F.AX_DIAG_CNT_DUTY_SAT_CNT.touch, F.AX_ODO_STEPS.touch],
      t.has f.id = false) (i : Nat) : (s.finishRelease n e steps fe).rd f i = s.rd f i := by
  simp only [List.forall_mem_cons] at hf
  obtain ⟨haxis, hcount, hpublish, hchans, hresumed, hsat, hodo, -⟩ := hf
  have hnoted (x : Axis → Axis) : ((s.onAxis n x).bump F.AX_DIAG_CNT_DUTY_SAT_CNT n e.sats).rd f i = s.rd f i :=
    keeps_bump (closed_rd f i _ hsat) (rd_onAxis _ _ _ haxis i) _ _
  rw [State.finishRelease, rd_resumedHomed _ _ _ hresumed, rd_releaseChans _ _ _ _ hchans, rd_publish _ _ _ _ hpublish]
  split
  · exact hnoted _
  · exact keeps_axCount (closed_rd f i _ hcount) (hnoted _) _ _ _ (closed_rd f i _ hodo)

/-- The registers that show an evaluation. -/
def State.Shows (s : State) (n : Nat) (e : AxEval) (fe : Int) : Prop :=
  s.rd F.AX_POS n = ofSigned 32 e.p ∧ s.rd F.AX_VEL n = ofSigned 32 e.v ∧ s.rd F.AX_FBPOS n = ofSigned 32 e.fb ∧ s.rd F.AX_FE n = ofSigned 32 fe ∧
    s.rd F.AX_STEP_POS n = ofSigned 32 (rshr e.p 8)

theorem State.shows_showAxis (s : State) (n : Nat) (e : AxEval) (fe : Int) : (s.showAxis n e fe).Shows n e fe := by
  have hshown (u : State) {f : Fld} (hf : f.width = 32) (x : Int) : (u.wrI f x n).rd f n = ofSigned 32 x := by
    rw [State.rd_wrI_same, hf, Nat.mod_eq_of_lt (ofSigned_lt _ _)]
  simp (disch := decide) only [State.Shows, State.showAxis, State.rd_wrI_field]
  exact ⟨hshown _ rfl _, hshown _ rfl _, hshown _ rfl _, hshown _ rfl _, hshown _ rfl _⟩

theorem State.Shows.congr {s u : State} {n : Nat} {e : AxEval} {fe : Int} (h : s.Shows n e fe)
    (hrd : ∀ f ∈ [F.AX_POS, F.AX_VEL, F.AX_FBPOS, F.AX_FE, F.AX_STEP_POS], u.rd f n = s.rd f n) : u.Shows n e fe := by
  simp only [List.forall_mem_cons] at hrd
  obtain ⟨hpos, hvel, hfb, hfe, hstep, -⟩ := hrd
  simp only [State.Shows, hpos, hvel, hfb, hfe, hstep]
  exact h

theorem State.shows_deliverAxis (s : State) (n : Nat) (e : AxEval) (fe : Int) : (s.deliverAxis n e fe).Shows n e fe :=
  (State.shows_showAxis (s.axDrive n e (s.stepsTo n e)) n e fe).congr (by
    simp only [List.forall_mem_cons, List.not_mem_nil, false_implies, implies_true, and_true, State.deliverAxis]
    refine ⟨?_, ?_, ?_, ?_, ?_⟩ <;> exact State.rd_finishRelease _ _ _ _ _ (by decide) _)

/-- A result that fits, within the rate, without a fault of its own, is not kept back. -/
theorem State.releaseCauses_of_fits {s : State} {n : Nat} {e : AxEval} (hcauses : e.causes = 0) (hp : fits32 e.p = true) (hv : fits32 e.v = true)
    (hrate : s.rateExceeded n (s.stepsTo n e).natAbs = false) : s.releaseCauses n e = 0 := by
  simp [State.releaseCauses, hcauses, hp, hv, hrate]

section
variable {t : Instant} {n : Fin 128} {resultFirst : Bool} {s : State} {e : AxEval}

theorem execAxRelease_inTime {r : Instant} (heval : (s.axis n).eval = some e) (hdue : e.due = (s.advance t).now) (hready : e.ready = some r)
    (hin : earlier r (s.advance t).now = true ∨ (r = (s.advance t).now ∧ resultFirst = true)) :
    execAxRelease t n resultFirst s = .next ((s.advance t).axRelease n e r) := by
  have hfirst : (earlier r (s.advance t).now || (r == (s.advance t).now && resultFirst)) = true := by simpa using hin
  simp only [execAxRelease, State.axis_advance, heval, hdue, hready, hfirst, if_true]

theorem execAxRelease_late (heval : (s.axis n).eval = some e) (hdue : e.due = (s.advance t).now)
    (hlate : e.ready = none ∨ (e.ready = some (s.advance t).now ∧ resultFirst = false)) : ∃ tie, execAxRelease t n resultFirst s = .next ((s.advance t).axLate n e tie) := by
  rcases hlate with hnone | ⟨hready, hsecond⟩
  · exact ⟨false, by simp only [execAxRelease, State.axis_advance, heval, hdue, hnone, if_true]⟩
  · refine ⟨true, ?_⟩
    have hself : earlier (s.advance t).now (s.advance t).now = false := by simp [earlier, sinceS]
    simp only [execAxRelease, State.axis_advance, heval, hdue, hready, hsecond, hself, if_true, beq_self_eq_true, Bool.and_false, Bool.or_false, Bool.false_eq_true, if_false]

/-- What a released evaluation in time leaves. -/
theorem State.axRelease_shows {s : State} {n : Nat} {e : AxEval} (ready : Instant) (hhoming : (s.axis n).homing = none) (hcauses : e.causes = 0)
    (hp : fits32 e.p = true) (hv : fits32 e.v = true) (hrate : s.rateExceeded n (s.stepsTo n e).natAbs = false)
    (hfe : s.rd F.AX_FE_LIMIT n = 0 ∨ (sat32 (e.p - e.fb)).natAbs ≤ s.rd F.AX_FE_LIMIT n) :
    (s.axRelease n e ready).Shows n e (sat32 (e.p - e.fb)) ∧ ((s.axRelease n e ready).axis n).Released := by
  have htaken := Axis.Released.takeResult hhoming e ready
  have hrate' : (s.takeResult n e ready).rateExceeded n ((s.takeResult n e ready).stepsTo n e).natAbs = false := by
    simp (disch := decide) only [State.rateExceeded, State.stepsTo, State.rdI, State.rd_takeResult]
    exact hrate
  generalize hd : (s.takeResult n e ready).deliverAxis n e (sat32 (e.p - e.fb)) = d
  have hreleased : (d.axis n).Released := hd ▸ htaken.deliverAxis e _
  have hshows : d.Shows n e (sat32 (e.p - e.fb)) := hd ▸ State.shows_deliverAxis _ n e _
  have hlimit : d.rd F.AX_FE_LIMIT n = s.rd F.AX_FE_LIMIT n := by
    rw [← hd, State.deliverAxis, State.rd_finishRelease _ _ _ _ _ (by decide)]
    simp (disch := decide) only [State.showAxis, State.rd_wrI_field, rd_axDrive, State.rd_takeResult]
  obtain ⟨heval, hrun, hnone⟩ := hreleased
  have hchecked : ((d.onAxis n (fun x => { x with feRun := 0 })).axis n).Released := by
    rw [State.axis_onAxis_same]
    exact ⟨heval, hrun, hnone⟩
  obtain ⟨-, -, hend⟩ := id hchecked
  obtain ⟨-, -, hhomes⟩ := id htaken
  rw [State.axRelease_delivers hhomes (State.releaseCauses_of_fits hcauses hp hv hrate'), hd, State.followCheck_within (by rwa [hlimit]), State.endHoming_of_none hend]
  exact ⟨hshows.congr fun _ _ => State.rd_congr rfl _ _, hchecked⟩

end

/-! ### A late result -/

/-- A late evaluation of an axis discarded and counted. -/
def State.dropLate (s : State) (n : Nat) (e : AxEval) (tie : Bool) : State :=
  (((((s.onAxis n (fun x => { x with eval := none, lates := if tie then x.lates else x.lates ++ [s.now], lateRun := x.lateRun + 1 })).when tie (·.noteSlack (-1) 1 n)).bump
    F.AX_DIAG_CNT_LATE_CNT n).axEvent n 9).lateRaise).lateSamples 1 n e.at_

theorem State.axLate_cases (s : State) (n : Nat) (e : AxEval) (tie : Bool) : s.axLate n e tie = s.dropLate n e tie ∨ s.axLate n e tie = (s.dropLate n e tie).axFault n 8 := by
  have heq : s.axLate n e tie = if ((s.dropLate n e tie).axis n).lateRun = max 1 ((s.dropLate n e tie).rd F.AX_FE_CFG_LATE_LIMIT n) then (s.dropLate n e tie).axFault n 8
      else s.dropLate n e tie := rfl
  rw [heq]
  split
  · exact .inr rfl
  · exact .inl rfl

theorem State.eval_dropLate (s : State) (n : Nat) (e : AxEval) (tie : Bool) : ((s.dropLate n e tie).axis n).eval = none := by
  have hclosed {t : Touch} (ht : t.hasPart .axes = false) : Closed (fun u => (u.axis n).eval = none) t := closed_axis (·.eval = none) n ht
  refine keeps_lateSamples (hclosed (by decide)) (keeps_lateRaise (hclosed (by decide)) (keeps_axEvent (hclosed (by decide)) (keeps_bump (hclosed (by decide))
    (keeps_when ?_ _ _ fun _ hu => keeps_noteSlack (hclosed (by decide)) hu _ _ _) _ _) _ _)) _ _ _
  rw [Holds, State.axis_onAxis_same]

theorem State.event_dropLate (s : State) (n : Nat) (e : AxEval) (tie : Bool) : EventSet n 9 (s.dropLate n e tie) :=
  keeps_lateSamples (closed_eventSet (by decide)) (keeps_lateRaise (closed_eventSet (by decide)) (EventSet.of_axEvent (by decide) _ n)) _ _ _

theorem State.rd_dropLate (s : State) (n : Nat) (e : AxEval) (tie : Bool) {f : Fld}
    (hf : ∀ t ∈ [Touched.onAxis, Touched.noteSlack, F.AX_DIAG_CNT_LATE_CNT.touch, Touched.axEvent, Touched.lateRaise, Touched.lateSamples], t.has f.id = false) (i : Nat) :
    (s.dropLate n e tie).rd f i = s.rd f i := by
  simp only [List.forall_mem_cons] at hf
  obtain ⟨haxis, hslack, hcount, hevent, hraise, hsamples, -⟩ := hf
  rw [State.dropLate, rd_lateSamples _ _ _ _ hsamples, rd_lateRaise _ hraise, rd_axEvent _ _ _ hevent]
  exact keeps_bump (closed_rd f i _ hcount) ((State.rd_when_noteSlack _ _ _ _ _ hslack _).trans (rd_onAxis _ _ _ haxis _)) _ _

theorem State.lateCnt_dropLate (s : State) (n : Nat) (e : AxEval) (tie : Bool) : (s.dropLate n e tie).rd F.AX_DIAG_CNT_LATE_CNT n =
    min (s.rd F.AX_DIAG_CNT_LATE_CNT n + 1) (2 ^ F.AX_DIAG_CNT_LATE_CNT.width - 1) := by
  rw [State.dropLate, rd_lateSamples _ _ _ _ (by decide), rd_lateRaise _ (by decide), rd_axEvent _ _ _ (by decide), State.rd_bump_saturates,
    State.rd_when_noteSlack _ _ _ _ _ (by decide), rd_onAxis _ _ _ (by decide)]

/-- What a late evaluation leaves. -/
theorem State.axLate_counts (s : State) (n : Nat) (e : AxEval) (tie : Bool) : EventSet n 9 (s.axLate n e tie) ∧ ((s.axLate n e tie).axis n).eval = none ∧
    (s.axLate n e tie).rd F.AX_POS n = s.rd F.AX_POS n ∧
    (s.axLate n e tie).rd F.AX_DIAG_CNT_LATE_CNT n = min (s.rd F.AX_DIAG_CNT_LATE_CNT n + 1) (2 ^ F.AX_DIAG_CNT_LATE_CNT.width - 1) := by
  have hevent := s.event_dropLate n e tie
  have heval := s.eval_dropLate n e tie
  have hpos := s.rd_dropLate n e tie (f := F.AX_POS) (by decide) n
  have hcount := s.lateCnt_dropLate n e tie
  rcases s.axLate_cases n e tie with heq | heq
  · rw [heq]
    exact ⟨hevent, heval, hpos, hcount⟩
  · rw [heq]
    exact ⟨hevent.axFault (by decide) _, State.eval_axFault heval _, (rd_axFault _ _ _ (by decide) _).trans hpos, (rd_axFault _ _ _ (by decide) _).trans hcount⟩

end Sys2Proof.Machine
end

section
/-! PROOFS.  The strobe of an axis (06 R146, R151, R153), and the statement of its evaluations and step pulses. -/

namespace Sys2Proof.Machine

open Sys2Proof

/-! ### A strobe -/

/-- The axis brought up at its strobe, its requests taken from it. -/
def State.atStrobe (s : State) (n : Nat) : State := (s.axUpdate n).onAxis n (·.withAsks [])

/-- The requests of axis `n` served at its strobe. -/
def State.serveStrobe (s : State) (n : Nat) : State := (s.atStrobe n).serveAsks n ((s.axUpdate n).axis n).asks false

theorem State.halted_of_axSamples {s : State} {n : Nat} (h : s.axSamples n = true) : (s.axis n).halted = false := by
  simp only [State.axSamples, Bool.and_eq_true, Bool.not_eq_true'] at h
  exact h.1.1.1.2

theorem State.kept_axUpdate {s : State} {n : Nat} (hbad : (s.axis n).bad = none) : ((s.axUpdate n).axis n).kept = (s.axis n).kept := by
  rw [State.axis_axUpdate hbad, Axis.kept_caughtUp]

/-- What an axis brought up has of its own. -/
theorem Axis.same_of_kept {x y : Axis} (h : x.kept = y.kept) : x.asks = y.asks ∧ x.halted = y.halted ∧ x.homing = y.homing ∧ x.segs = y.segs :=
  ⟨(congrArg Axis.asks h :), (congrArg Axis.halted h :), (congrArg Axis.homing h :), (congrArg Axis.segs h :)⟩

theorem Axis.withAsks_of_kept {x y : Axis} (h : x.kept = y.kept) (asks : List Bool) : (x.withAsks asks).asks = asks ∧ (x.withAsks asks).halted = y.halted ∧
    (x.withAsks asks).homing = y.homing ∧ (x.withAsks asks).segs = y.segs := by
  obtain ⟨-, hhalted, hhoming, hsegs⟩ := Axis.same_of_kept h
  exact ⟨rfl, hhalted, hhoming, hsegs⟩

theorem Axis.hold_withAsks (x : Axis) (asks : List Bool) : (x.withAsks asks).hold = x.hold := rfl

theorem State.frame_onAxis (s : State) (n : Nat) (f : Axis → Axis) : Frame Touched.onAxis s (s.onAxis n f) := keeps_onAxis (closed_frame _ s) (Frame.refl _ s) n f

theorem State.axis_atStrobe (s : State) (n : Nat) : (s.atStrobe n).axis n = ((s.axUpdate n).axis n).withAsks [] := State.axis_onAxis_same _ _ _

theorem State.now_atStrobe (s : State) (n : Nat) : (s.atStrobe n).now = s.now := ((s.axUpdate n).frame_onAxis n _).now rfl |>.trans (s.now_axUpdate n)

theorem State.rd_atStrobe (s : State) (n : Nat) {f : Fld} (hf : Touched.axUpdate.has f.id = false) (i : Nat) : (s.atStrobe n).rd f i = s.rd f i :=
  ((s.axUpdate n).frame_onAxis n _).rd rfl i |>.trans (rd_axUpdate s n hf i)

theorem State.axState_atStrobe (s : State) (n : Nat) : (s.atStrobe n).axState n = (s.axUpdate n).axState n := ((s.axUpdate n).frame_onAxis n _).axState rfl n

theorem State.axAt_atStrobe (s : State) (n : Nat) (t : Instant) : (s.atStrobe n).axAt n t = (s.axUpdate n).axAt n t := by
  rw [State.axAt, State.axis_atStrobe]
  rfl

theorem Axis.stands_withAsks {x : Axis} {now : Instant} (hbad : x.bad = none) (hopen : x.openEnd now = none) (hrest : x.restAt now = none) (asks : List Bool) :
    (x.withAsks asks).bad = none ∧ (x.withAsks asks).openEnd now = none ∧ (x.withAsks asks).restAt now = none := ⟨hbad, hopen, hrest⟩

/-- An axis that is IDLE at its strobe stands, whatever it is asked. -/
theorem State.stands_atStrobe {s : State} {n : Nat} (hbad : (s.axis n).bad = none) (hidle : (s.axUpdate n).axState n = 1) : ((s.atStrobe n).axis n).bad = none ∧
    ((s.atStrobe n).axis n).openEnd (s.atStrobe n).now = none ∧ ((s.atStrobe n).axis n).restAt (s.atStrobe n).now = none := by
  obtain ⟨hsound, hopen, hrest⟩ := State.stands_of_idle hbad hidle
  rw [State.axis_atStrobe, State.now_atStrobe]
  exact Axis.stands_withAsks hsound hopen hrest []

/-- What it has of its own but its requests. -/
theorem State.same_atStrobe {s : State} {n : Nat} (hbad : (s.axis n).bad = none) : ((s.atStrobe n).axis n).asks = [] ∧
    ((s.atStrobe n).axis n).halted = (s.axis n).halted ∧ ((s.atStrobe n).axis n).homing = (s.axis n).homing ∧ ((s.atStrobe n).axis n).segs = (s.axis n).segs := by
  rw [State.axis_atStrobe]
  exact Axis.withAsks_of_kept (State.kept_axUpdate hbad) []

theorem State.serveStrobe_of_asks {s : State} {n : Nat} (hbad : (s.axis n).bad = none) : s.serveStrobe n = (s.atStrobe n).serveAsks n (s.axis n).asks false := by
  obtain ⟨hasks, -⟩ := Axis.same_of_kept (State.kept_axUpdate hbad)
  rw [State.serveStrobe, hasks]

section
variable {s : State} {n : Nat} {r : SegRec} (hbad : (s.axis n).bad = none) (hidle : (s.axUpdate n).axState n = 1) (hasks : (s.axis n).asks = [true])
  (hcount : s.rd F.AX_NEXT_SEG_COUNT n = 1) (hseg : (s.axis n).segs.find (s.rd F.AX_NEXT_SEG_FIRST n) = some r) (hfirst : s.rd F.AX_NEXT_SEG_FIRST n < 4096)
include hbad hidle hasks hcount hseg hfirst

/-- A GO served on an IDLE axis starts its one segment. -/
theorem State.serveStrobe_go (hpos : 0 < r.dur) (hlt : r.dur < 2 ^ 32) : Frame Touched.axStart (s.atStrobe n) (s.serveStrobe n) ∧
    (((s.serveStrobe n).axis n).bad = none ∧ ((s.serveStrobe n).axis n).openEnd (s.serveStrobe n).now = none ∧
      ((s.serveStrobe n).axis n).restAt (s.serveStrobe n).now = none) ∧
    (((s.serveStrobe n).axis n).traj = [⟨s.now, r.dur, ((s.axUpdate n).axis n).hold, 0, r.endPos, r.endVel, false⟩] ∧ ((s.serveStrobe n).axis n).asks = [] ∧
      ((s.serveStrobe n).axis n).halted = (s.axis n).halted ∧ ((s.serveStrobe n).axis n).homing = (s.axis n).homing) ∧ (s.serveStrobe n).axState n = 2 := by
  obtain ⟨hsound, hopen, hrest⟩ := State.stands_atStrobe hbad hidle
  obtain ⟨hnone, hsameHalted, hsameHoming, hsameSegs⟩ := State.same_atStrobe hbad
  obtain ⟨hstands, hstandsState⟩ := State.axUpdate_of_stands hsound hopen hrest
  rw [State.axState_atStrobe, hidle] at hstandsState
  rw [← hsameSegs] at hseg
  have hserved : s.serveStrobe n = (s.atStrobe n).axStart n (s.rd F.AX_NEXT_SEG_FIRST n) 1 (s.atStrobe n).now := by
    rw [State.serveStrobe_of_asks hbad, hasks, State.serveAsks, State.serveAsks, if_neg (by decide), State.rd_atStrobe _ _ (by decide),
      State.rd_atStrobe _ _ (by decide), hcount]
  obtain ⟨haxis, hmoving⟩ := State.axStart_moving none hsound (.inl hstandsState) hnone hfirst hseg hpos hlt
  obtain ⟨hbadStarted, hopenStarted, hrestStarted⟩ := State.axStart_runs none hsound (.inl hstandsState) hnone hfirst hseg hpos hlt
  have hframe := (s.atStrobe n).frame_axStart n (s.rd F.AX_NEXT_SEG_FIRST n) 1 (s.atStrobe n).now none
  rw [← hserved] at haxis hmoving hbadStarted hopenStarted hrestStarted hframe
  obtain ⟨htraj, hsame, hrun, hhome, -⟩ := Axis.same_started (((s.atStrobe n).axUpdate n).axis n) (((s.atStrobe n).axUpdate n).firstSeg n r (s.atStrobe n).now)
    (s.rd F.AX_NEXT_SEG_FIRST n) none
  rw [← haxis] at htraj hsame hrun hhome
  rw [State.firstSeg_of_idle hstandsState, hstands, State.axis_atStrobe, Axis.hold_withAsks, State.now_atStrobe] at htraj
  rw [hstands] at hsame hrun hhome
  rw [← hframe.now rfl] at hopenStarted hrestStarted
  exact ⟨hframe, ⟨hbadStarted, hopenStarted, hrestStarted⟩, ⟨htraj, hsame.trans hnone, hrun.trans hsameHalted, hhome.trans hsameHoming⟩, hmoving⟩

end

section
variable {t : Instant} {n : Fin 128} {runAhead : Bool} {s : State}

/-- A strobe after whose requests the axis stands or runs, homes nothing and meets no virtual limit: the evaluation is put in flight. -/
theorem execAxStrobe_evaluates (hsamples : (s.advance t).axSamples n = true) {w : State} (hserved : (s.advance t).serveStrobe n = w)
    (hahead : (runAhead && w.axState n == 2) = false) (hbad : (w.axis n).bad = none) (hopen : (w.axis n).openEnd w.now = none)
    (hrest : (w.axis n).restAt w.now = none) (hrun : (w.axis n).halted = false) (hhoming : (w.axis n).homing = none)
    (hfree : ¬ (w.axState n = 2 ∧ w.on F.AX_CTRL_VLIM_EN n = true)) : ∃ moved e,
    execAxStrobe t n runAhead s = .next ((w.axUpdate n).axEvaluate n) ∧ ((w.axUpdate n).axEvaluate n).axis n = (w.axis n).evaluating moved e ∧
    e.of w.now (w.rd F.AX_LATENCY n) (w.axAt n w.now) ∧ ((w.axUpdate n).axEvaluate n).axState n = w.axState n := by
  obtain ⟨hsame, hstate⟩ := State.axUpdate_of_stands hbad hopen hrest
  have hfree' : ¬ ((w.axUpdate n).axState n = 2 ∧ (w.axUpdate n).on F.AX_CTRL_VLIM_EN n = true) := by
    rwa [hstate, State.on, rd_axUpdate w n (by decide)]
  obtain ⟨moved, e, haxis, he⟩ := (w.axUpdate n).axis_axEvaluate n
  rw [w.now_axUpdate n, rd_axUpdate w n (by decide), State.axAt_congr hsame] at he
  refine ⟨moved, e, ?_, haxis.trans (by rw [hsame]), he, (rd_axEvaluate _ _ (by decide) _).trans hstate⟩
  have hexec : execAxStrobe t n runAhead s = .next (let u := ((w.when (runAhead && w.axState n == 2) (·.runAheadFault n)).axUpdate n)
      if (u.axis n).halted then u else (((u.homingStep n).endHoming n).virtualLimit n).axEvaluate n) := by
    rw [← hserved, execAxStrobe, if_pos hsamples]
    rfl
  rw [hexec, hahead, State.when_false]
  simp only [hsame, hrun, Bool.false_eq_true, if_false, State.homingStep_of_none (hsame ▸ hhoming), State.endHoming_of_none (hsame ▸ hhoming),
    State.virtualLimit_of_off hfree']

end

/-! ### The statement's clauses of a strobe -/

section
variable {t : Instant} {n : Fin 128} {s : State} (hsamples : (s.advance t).axSamples n = true) (hidle : ((s.advance t).axUpdate n).axState n = 1)
  (hbad : (s.axis n).bad = none) (hhoming : (s.axis n).homing = none)
include hsamples hidle hbad hhoming

theorem axStrobe_idle (runAhead : Bool) (hasks : (s.axis n).asks = []) : Ends (.axStrobe t n runAhead) s (fun u =>
    (u.axis n).eval.any (fun e => e.at_ == (s.advance t).now && e.due == addNs (s.advance t).now (s.rd F.AX_LATENCY n) &&
      e.p == (((s.advance t).axUpdate n).axAt n (s.advance t).now).1 && e.v == (((s.advance t).axUpdate n).axAt n (s.advance t).now).2 && e.ready.isNone) = true ∧
    u.rd F.AX_POS n = s.rd F.AX_POS n) := by
  rw [← s.axis_advance t n] at hbad hhoming hasks
  obtain ⟨hsound, hopen, hrest⟩ := State.stands_atStrobe hbad hidle
  obtain ⟨-, hsameHalted, hsameHoming, -⟩ := State.same_atStrobe hbad
  have hstate : ((s.advance t).atStrobe n).axState n = 1 := (State.axState_atStrobe _ _).trans hidle
  obtain ⟨moved, e, hexec, haxis, ⟨hat, hdue, hp, hv, hready⟩, -⟩ := execAxStrobe_evaluates (runAhead := runAhead) hsamples
    ((State.serveStrobe_of_asks hbad).trans (by rw [hasks, State.serveAsks])) (by rw [hstate, Bool.and_eq_false_iff]; exact .inr rfl) hsound hopen hrest
    (hsameHalted.trans (State.halted_of_axSamples hsamples)) (hsameHoming.trans hhoming) (by rw [hstate]; exact fun h => nomatch h.1)
  rw [State.axAt_atStrobe, State.now_atStrobe] at hp hv
  rw [State.now_atStrobe] at hat hdue
  rw [State.rd_atStrobe _ _ (by decide), rd_advance _ _ (by decide)] at hdue
  refine ⟨_, hexec, ?_, ?_⟩
  · rw [haxis]
    simp [Axis.evaluating, hat, hdue, hp, hv, hready]
  · rw [rd_axEvaluate _ _ (by decide), rd_axUpdate _ _ (by decide), State.rd_atStrobe _ _ (by decide), rd_advance _ _ (by decide)]

theorem axStrobe_go {r : SegRec} (hasks : (s.axis n).asks = [true]) (hvlim : s.rd F.AX_CTRL_VLIM_EN n = 0) (hcount : s.rd F.AX_NEXT_SEG_COUNT n = 1)
    (hseg : (s.axis n).segs.find (s.rd F.AX_NEXT_SEG_FIRST n) = some r) (hlong : 1000 ≤ r.dur) (hlt : r.dur < 2 ^ 32) (hfirst : s.rd F.AX_NEXT_SEG_FIRST n < 4096) :
    Ends (.axStrobe t n false) s (fun u => u.rd F.AX_STATUS_STATE n = 2 ∧ (u.axis n).asks = [] ∧
      (u.axis n).traj = [⟨(s.advance t).now, r.dur, (((s.advance t).axUpdate n).axis n).hold, 0, r.endPos, r.endVel, false⟩]) := by
  rw [← s.axis_advance t n] at hbad hhoming hasks hseg
  rw [← rd_advance s t (fld := F.AX_NEXT_SEG_COUNT) (by decide)] at hcount
  rw [← rd_advance s t (fld := F.AX_NEXT_SEG_FIRST) (by decide)] at hseg hfirst
  obtain ⟨hframe, ⟨hsound, hopen, hrest⟩, ⟨htraj, hsame, hrun, hhome⟩, hmoving⟩ := State.serveStrobe_go hbad hidle hasks hcount hseg hfirst (by omega) hlt
  have hvlimOff : ((s.advance t).serveStrobe n).on F.AX_CTRL_VLIM_EN n = false := by
    rw [State.on, hframe.rd (by decide), State.rd_atStrobe _ _ (by decide), rd_advance _ _ (by decide), hvlim]
    rfl
  obtain ⟨moved, e, hexec, haxis, -, hstate⟩ := execAxStrobe_evaluates (runAhead := false) hsamples rfl (Bool.false_and _) hsound hopen hrest
    (hrun.trans (State.halted_of_axSamples hsamples)) (hhome.trans hhoming) (by rw [hvlimOff]; exact fun h => nomatch h.2)
  refine ⟨_, hexec, hstate.trans hmoving, ?_, ?_⟩
  · rw [haxis, Axis.asks_evaluating, hsame]
  · rw [haxis, Axis.traj_evaluating, htraj]

end

/-! ### A result, and the step pulses -/

section
variable {t : Instant} {n : Fin 128} {s : State}

theorem axResultReady_waiting (arith parity : Bool) {e : AxEval} (hlates : (s.axis n).lates = []) (heval : (s.axis n).eval = some e) (hawaits : e.awaits = none)
    (hready : e.ready = none) : Ends (.axResultReady t n arith parity) s (fun u =>
      (u.axis n).eval = some { e with ready := some (s.advance t).now, causes := e.causes ||| (b2n arith + 2 * b2n parity) } ∧ u.regs = (s.advance t).regs) := by
  have hexec : execAxResultReady t n arith parity s = .next ((s.advance t).putAxis n
      { s.axis n with eval := some { e with ready := some (s.advance t).now, causes := e.causes ||| (b2n arith + 2 * b2n parity) } }) := by
    simp only [execAxResultReady, State.axis_advance, hlates, heval, hawaits, hready, Option.isSome_none, Bool.false_eq_true, or_self, if_false]
  exact ⟨_, hexec, congrArg Axis.eval (State.axis_putAxis_same _ _ _), rfl⟩

theorem axResultReady_late (arith parity : Bool) {r : Instant} {rest : List Instant} (hlates : (s.axis n).lates = r :: rest) :
    Ends (.axResultReady t n arith parity) s (fun u => (u.axis n).lates = rest ∧ (u.axis n).eval = (s.axis n).eval ∧
      u.warp.slackLow.any (fun l => decide (l.1 ≤ min (-1) (sinceNs r (s.advance t).now))) = true) := by
  have hexec : execAxResultReady t n arith parity s =
      .next (((s.advance t).putAxis n { s.axis n with lates := rest }).noteSlack (min (-1) (sinceNs r (s.advance t).now)) 1 n) := by
    simp only [execAxResultReady, State.axis_advance, hlates]
  refine ⟨_, hexec, ?_, ?_, State.noteSlack_low _ _ _ _⟩
  · rw [State.axis_noteSlack, State.axis_putAxis_same]
  · rw [State.axis_noteSlack, State.axis_putAxis_same]

/-- A level on a pin that no OUTPUT record drives. -/
theorem State.pin_driveLevel {s : State} {pin : Nat} (h : s.freePin pin) (b : Bool) : ((s.driveLevel pin b).pin pin).out = b := by
  have hfree (x : FioPin) : (s.putPin pin x).freePin pin := h.congr rfl
  simp only [State.driveLevel, State.pin_settle (hfree _), State.pin_putPin_same]

theorem not_mem_filter_ne (l : List Instant) (i : Instant) : (l.filter (· != i)).contains i = false := by
  simp [List.contains_eq_mem]

theorem stepPulse_rises (hdue : (s.axis n).pulses.contains (s.advance t).now = true) (hfree : s.freePin (s.rd F.AX_ROUTE_OUT_ID n)) :
    Ends (.stepPulse t n) s (fun u => (u.axis n).pulses.contains (s.advance t).now = false ∧
      (u.axis n).falls = (s.axis n).falls ++ [addNs (s.advance t).now (s.rd F.AX_STEP_CFG_STEP_WIDTH_NS n)] ∧
      (u.pin (s.rd F.AX_ROUTE_OUT_ID n)).out = decide (s.rd F.AX_STEP_CFG2_STEP_POL n = 0)) := by
  have hexec : execStepPulse t n s = .next (((s.advance t).putAxis n { s.axis n with
      pulses := (s.axis n).pulses.filter (· != (s.advance t).now), falls := (s.axis n).falls ++ [addNs (s.advance t).now (s.rd F.AX_STEP_CFG_STEP_WIDTH_NS n)] }).driveLevel
      (s.rd F.AX_ROUTE_OUT_ID n) (decide (s.rd F.AX_STEP_CFG2_STEP_POL n = 0))) := by
    have hlevel (x : Nat) : (!(x != 0)) = decide (x = 0) := by by_cases hx : x = 0 <;> simp [hx]
    simp (disch := decide) only [execStepPulse, State.axis_advance, hdue, if_true, State.on, rd_putAxis, rd_advance, hlevel]
  refine ⟨_, hexec, ?_, ?_, State.pin_driveLevel (hfree.congr ?_) _⟩
  · rw [State.axis_driveLevel, State.axis_putAxis_same]
    exact not_mem_filter_ne _ _
  · rw [State.axis_driveLevel, State.axis_putAxis_same]
  · exact congrArg Loom.records (s.advance_loom t)

theorem stepPulseFall_falls (hdue : (s.axis n).falls.contains (s.advance t).now = true) (hfree : s.freePin (s.rd F.AX_ROUTE_OUT_ID n)) :
    Ends (.stepPulseFall t n) s (fun u => (u.axis n).falls.contains (s.advance t).now = false ∧ (u.axis n).pulses = (s.axis n).pulses ∧
      (u.pin (s.rd F.AX_ROUTE_OUT_ID n)).out = decide (s.rd F.AX_STEP_CFG2_STEP_POL n ≠ 0)) := by
  have hexec : execStepPulseFall t n s = .next (((s.advance t).putAxis n { s.axis n with falls := (s.axis n).falls.filter (· != (s.advance t).now) }).driveLevel
      (s.rd F.AX_ROUTE_OUT_ID n) (decide (s.rd F.AX_STEP_CFG2_STEP_POL n ≠ 0))) := by
    have hlevel (x : Nat) : (x != 0) = decide (x ≠ 0) := by by_cases hx : x = 0 <;> simp [hx]
    simp (disch := decide) only [execStepPulseFall, State.axis_advance, hdue, if_true, State.on, rd_putAxis, rd_advance, hlevel]
  refine ⟨_, hexec, ?_, ?_, State.pin_driveLevel (hfree.congr ?_) _⟩
  · rw [State.axis_driveLevel, State.axis_putAxis_same]
    exact not_mem_filter_ne _ _
  · rw [State.axis_driveLevel, State.axis_putAxis_same]
  · exact congrArg Loom.records (s.advance_loom t)

end

/-- The stall watchdog halts an enabled axis. -/
theorem axStall_halts (t : Instant) (n : Fin 128) (s : State) (hon : s.rd F.AX_CTRL_ENABLE n ≠ 0) : Ends (.axStall t n) s (fun u => u.rd F.AX_STATUS_STATE n = 5 ∧
    bitOf (u.rd F.AX_STATUS_FAULT_CAUSE n) 2 = true ∧ bitOf (u.rd F.AX_EVENT n) 8 = true ∧ (u.axis n).halted = true ∧ (u.axis n).pulses = [] ∧
    (u.axis n).traj = []) := by
  have hon' : (s.advance t).on F.AX_CTRL_ENABLE n = true := by rw [State.on, rd_advance _ _ (by decide), bne_iff_ne]; exact hon
  have hexec : execAxStall t n s = .next (((s.advance t).axUpdate n).axFault n 4) := by simp only [execAxStall, hon', if_true]
  generalize (s.advance t).axUpdate n = u at hexec
  exact ⟨_, hexec, State.axState_axFault _ _ _, State.cause_axFault _ _ (k := 2) (by decide) (by decide), State.event_axFault _ _ _,
    State.axis_axFault_stall _ _ (by decide)⟩

/-! ### The statement -/

/-- Settles O29: the strobe's requests leave an axis that stands or runs, a released evaluation shows itself unless a fault keeps it back, a late one
is dropped whatever fault its count brings, and a fault by a stall takes the immediate halt. -/
theorem axisEvaluationsAndPulses : Obligations.AxisEvaluationsAndPulses := by
  unfold Obligations.AxisEvaluationsAndPulses
  refine ⟨?strobe, ?go, ?ready, ?lateEnd, ?inTime, ?late, ?rise, ?fall, axStall_halts⟩
  case strobe =>
    intro t n runAhead s hsamples hidle hasks hbad hhoming
    exact axStrobe_idle hsamples hidle hbad hhoming runAhead hasks
  case go =>
    intro t n s r hsamples hidle hasks hbad hhoming hvlim hcount hseg hlong hlt hfirst
    exact axStrobe_go hsamples hidle hbad hhoming hasks hvlim hcount hseg hlong hlt hfirst
  case ready =>
    intro t n arith parity s e hlates heval hawaits hready
    exact axResultReady_waiting arith parity hlates heval hawaits hready
  case lateEnd =>
    intro t n arith parity s r rest hlates
    exact axResultReady_late arith parity hlates
  case inTime =>
    intro t n resultFirst s e r heval hdue hready hin hhoming hcauses hp hv hrate hfe
    have hhoming' : ((s.advance t).axis n).homing = none := by rw [State.axis_advance, hhoming]
    have hrate' : (s.advance t).rateExceeded n ((s.advance t).stepsTo n e).natAbs = false := by
      simp (disch := decide) only [State.rateExceeded, State.stepsTo, State.rdI, rd_advance]
      exact hrate
    obtain ⟨⟨hpos, hvel, hfb, hfollow, hstep⟩, hnone, hrun, -⟩ := State.axRelease_shows r hhoming' hcauses hp hv hrate' (by rw [rd_advance _ _ (by decide)]; exact hfe)
    exact ⟨_, execAxRelease_inTime heval hdue hready hin, hpos, hvel, hfb, hfollow, hstep, hnone, hrun⟩
  case late =>
    intro t n resultFirst s e heval hdue hlate
    obtain ⟨tie, hexec⟩ := execAxRelease_late heval hdue hlate
    obtain ⟨hevent, hnone, hpos, hcount⟩ := (s.advance t).axLate_counts n e tie
    rw [rd_advance _ _ (by decide)] at hpos hcount
    exact ⟨_, hexec, hevent, hnone, hpos, hcount⟩
  case rise =>
    intro t n s hdue hfree
    exact stepPulse_rises hdue hfree
  case fall =>
    intro t n s hdue hfree
    exact stepPulseFall_falls hdue hfree

end Sys2Proof.Machine
end

section
/-! PROOFS.  Groups of axes (06 R152): ARM, CANCEL and the start of the members. -/

namespace Sys2Proof.Machine

open Sys2Proof

/-! ### ARM and CANCEL -/

theorem Tbl.find_erase_same {α : Type} (t : Tbl α) (k : Nat) : (t.erase k).find k = none := by
  cases hfind : (t.erase k).find k with
  | none => rfl
  | some a =>
    have hmem : (k, a) ∈ t.entries.filter (fun e => e.1 ≠ k) := lookupNat_mem hfind
    simp at hmem

/-- The registers of the groups carry no EXPECT. -/
theorem commandObject_axgCtrl (g : Fin 4) : commandObject (0x410018 + 0x20 * g) = none := by
  revert g
  decide

theorem State.groupMembers_congr {s u : State} (h : ∀ i, u.rd F.AXG_MASK i = s.rd F.AXG_MASK i) (g : Nat) : u.groupMembers g = s.groupMembers g := by
  simp only [State.groupMembers, h]

/-- The state in which an ARM of group `g` is judged: its members brought up. -/
def State.armJudged (s : State) (g : Nat) (value : Word) : State :=
  (s.wr F.AXG_CTRL_KIND (value.toNat / 2) g).each ((s.wr F.AXG_CTRL_KIND (value.toNat / 2) g).groupMembers g) State.axUpdate

/-- The state with other groups. -/
def State.withGroups (s : State) (groups : Tbl AxGroup) : State := { s with groups := groups }

/-- RESULT and STATE after an ARM. -/
def State.answerArm (s : State) (g : Nat) : State := (s.wr F.AXG_CTRL_RESULT (s.armResult g) g).wr F.AXG_CTRL_STATE (if s.armResult g = 0 then 1 else 3) g

/-- The group as an accepted ARM takes it. -/
def State.armedGroup (s : State) (g : Nat) : AxGroup :=
  ⟨s.groupMembers g, s.on F.AXG_CTRL_KIND g, if s.on F.AXG_CTRL_KIND g then none else some (s.rdT F.AXG_AT g), s.warp.syncEdge.map (·.1)⟩

theorem State.groupMembers_wrKind (s : State) (g v : Nat) : (s.wr F.AXG_CTRL_KIND v g).groupMembers g = s.groupMembers g :=
  State.groupMembers_congr (fun _ => State.rd_wr_field _ (by decide) _ _ _) g

theorem State.groupMembers_advance (s : State) (t : Instant) (g : Nat) : (s.advance t).groupMembers g = s.groupMembers g :=
  State.groupMembers_congr (rd_advance s t (by decide)) g

theorem State.armJudged_advance (s : State) (t : Instant) (g : Nat) (value : Word) :
    (s.advance t).armJudged g value = ((s.advance t).wr F.AXG_CTRL_KIND (value.toNat / 2) g).each (s.groupMembers g) State.axUpdate := by
  rw [State.armJudged, State.groupMembers_wrKind, State.groupMembers_advance]

/-- An ARM's members are those that AXG_MASK named before. -/
theorem State.groupMembers_answerArm (s : State) (t : Instant) (g : Nat) (value : Word) :
    (((s.advance t).armJudged g value).answerArm g).groupMembers g = s.groupMembers g := by
  refine State.groupMembers_congr (fun i => ?_) g
  rw [State.answerArm, State.rd_wr_field _ (by decide), State.rd_wr_field _ (by decide), State.armJudged,
    State.rd_each_of_kept _ (fun _ _ => rd_axUpdate _ _ (by decide) i), State.rd_wr_field _ (by decide), rd_advance _ _ (by decide)]

theorem State.armResult_le (s : State) (g : Nat) : s.armResult g ≤ 4 := by
  simp only [State.armResult]
  repeat' split
  all_goals decide

theorem State.rd_answerArm (s : State) (g : Nat) : (s.answerArm g).rd F.AXG_CTRL_STATE g = (if s.armResult g = 0 then 1 else 3) ∧
    (s.answerArm g).rd F.AXG_CTRL_RESULT g = s.armResult g := by
  have hle := s.armResult_le g
  refine ⟨(State.rd_wr_same _ _ _ _).trans ?_, ?_⟩
  · split <;> rfl
  · rw [State.answerArm, State.rd_wr_field _ (by decide), State.rd_wr_same]
    exact Nat.mod_eq_of_lt (lt_of_le_of_lt hle (by decide))

section
variable {t : Instant} {g : Fin 4} {value : Word} {s : State} (hadm : s.admits (0x410018 + 0x20 * g) = true)
include hadm

theorem execAxgArm_admitted : execAxgArm t g value s = .next (if ((s.advance t).armJudged g value).armResult g ≠ 0
    then (((s.advance t).armJudged g value).answerArm g).withGroups ((((s.advance t).armJudged g value).answerArm g).groups.erase g)
    else (((s.advance t).armJudged g value).answerArm g).withGroups
      ((((s.advance t).armJudged g value).answerArm g).groups.set g ((((s.advance t).armJudged g value).answerArm g).armedGroup g))) := by
  rw [execAxgArm, State.hostWrite_of_admits (by rwa [State.admits_advance]) (commandObject_axgCtrl g)]
  rfl

theorem axgArm_accepted (hok : ((s.advance t).armJudged g value).armResult g = 0) : Ends (.axgArm t g value) s (fun u =>
    u.rd F.AXG_CTRL_STATE g = 1 ∧ u.rd F.AXG_CTRL_RESULT g = 0 ∧ (u.group g).any (fun x => x.members == s.groupMembers g) = true) := by
  have hmembers := s.groupMembers_answerArm t g value
  obtain ⟨hstate, hresult⟩ := State.rd_answerArm ((s.advance t).armJudged g value) g
  rw [hok] at hstate hresult
  refine ⟨_, (execAxgArm_admitted hadm).trans (congrArg _ (if_neg (not_not_intro hok))), hstate, hresult, ?_⟩
  rw [State.withGroups, State.group, Tbl.find_set_same, Option.any_some, State.armedGroup, hmembers]
  exact beq_self_eq_true _

theorem axgArm_refused (hno : ((s.advance t).armJudged g value).armResult g ≠ 0) : Ends (.axgArm t g value) s (fun u =>
    u.rd F.AXG_CTRL_STATE g = 3 ∧ u.group g = none ∧ u.rd F.AXG_CTRL_RESULT g = ((s.advance t).armJudged g value).armResult g) := by
  obtain ⟨hstate, hresult⟩ := State.rd_answerArm ((s.advance t).armJudged g value) g
  rw [if_neg hno] at hstate
  exact ⟨_, (execAxgArm_admitted hadm).trans (congrArg _ (if_pos hno)), hstate, Tbl.find_erase_same _ _, hresult⟩

theorem axgCancel_disarms (harmed : s.rd F.AXG_CTRL_STATE g = 1) : Ends (.axgCancel t g value) s (fun u =>
    u.rd F.AXG_CTRL_STATE g = 0 ∧ u.group g = none ∧ u.axes = s.axes) := by
  have hexec : execAxgCancel t g value s = .next ((((s.advance t).wr F.AXG_CTRL_KIND (value.toNat / 2) g).wr F.AXG_CTRL_STATE 0 g).withGroups ((s.advance t).groups.erase g)) := by
    have harmed' : ((s.advance t).wr F.AXG_CTRL_KIND (value.toNat / 2) g).rd F.AXG_CTRL_STATE g = 1 := by
      rw [State.rd_wr_field _ (by decide), rd_advance _ _ (by decide), harmed]
    rw [execAxgCancel, State.hostWrite_of_admits (by rwa [State.admits_advance]) (commandObject_axgCtrl g)]
    exact congrArg _ (if_pos harmed')
  refine ⟨_, hexec, ?_, Tbl.find_erase_same _ _, (frame_advance s t).part (p := .axes) rfl⟩
  exact (State.rd_wr_same ((s.advance t).wr F.AXG_CTRL_KIND (value.toNat / 2) g) F.AXG_CTRL_STATE 0 g).trans (Nat.zero_mod _)

end

/-! ### The start of the members -/

theorem AxisOnly.axCount {n : Nat} {r s : State} (h : AxisOnly n r s) (f : Fld) (k : Nat) : AxisOnly n r (s.axCount n f k) := by
  rw [State.axCount]
  split
  · exact h.wr _ _
  · exact (h.wr _ _).axEvent _

theorem AxisOnly.axStart {n : Nat} {r s : State} (h : AxisOnly n r s) (first count : Nat) (at_ : Instant) (hold : Option Instant) :
    AxisOnly n r (s.axStart n first count at_ hold) := by
  simp only [State.axStart]
  split
  · exact (h.axUpdate.axEvent _).axRecord _ _
  · refine ((AxisOnly.putAxState (AxisOnly.putAxis ?_ _) _).axCount _ _).axUpdate
    split
    · exact h.axUpdate.axEvent _
    · exact h.axUpdate

/-- Axis `n` may be started on its one segment at the instant `now`: it stands IDLE, or runs MOVING. -/
structure State.MayStart (s : State) (now : Instant) (n : Nat) : Prop where
  atNow : s.now = now
  sound : (s.axis n).bad = none
  unasked : (s.axis n).asks = []
  ready : (s.axUpdate n).axState n = 1 ∨ (s.axUpdate n).axState n = 2
  one : s.rd F.AX_NEXT_SEG_COUNT n = 1
  first : s.rd F.AX_NEXT_SEG_FIRST n < 4096
  seg : ∃ r, (s.axis n).segs.find (s.rd F.AX_NEXT_SEG_FIRST n) = some r ∧ 1000 ≤ r.dur ∧ r.dur < 2 ^ 32

/-- It has been started at `now`. -/
structure State.StartedAt (s : State) (now : Instant) (n : Nat) : Prop extends s.MayStart now n where
  moving : s.axState n = 2
  begun : (s.axis n).traj.map (·.start) = [now]

/-- The start of a member. -/
def State.startMember (s : State) (now : Instant) (hold : Option Instant) (n : Nat) : State :=
  s.axStart n (s.rd F.AX_NEXT_SEG_FIRST n) (s.rd F.AX_NEXT_SEG_COUNT n) now hold

theorem State.frame_startMember (s : State) (now : Instant) (hold : Option Instant) (n : Nat) : Frame Touched.axStart s (s.startMember now hold n) :=
  s.frame_axStart n _ _ _ _

theorem State.MayStart.start {s : State} {now : Instant} {n : Nat} (h : s.MayStart now n) (hold : Option Instant) : (s.startMember now hold n).StartedAt now n := by
  obtain ⟨rfl, hsound, hasks, hready, hone, hfirst, r, hseg, hlong, hlt⟩ := h
  have hframe := s.frame_startMember s.now hold n
  obtain ⟨hsameAsks, -, -, hsameSegs⟩ := Axis.same_of_kept (State.kept_axUpdate hsound)
  have heq : s.startMember s.now hold n = s.axStart n (s.rd F.AX_NEXT_SEG_FIRST n) 1 s.now hold := by rw [State.startMember, hone]
  obtain ⟨haxis, hmoving⟩ := State.axStart_moving hold hsound hready hasks hfirst hseg (by omega) hlt
  obtain ⟨hbad, hopen, hrest⟩ := State.axStart_runs hold hsound hready hasks hfirst hseg (by omega) hlt
  obtain ⟨htraj, hstartedAsks, -, -, hstartedSegs⟩ := Axis.same_started ((s.axUpdate n).axis n) ((s.axUpdate n).firstSeg n r s.now) (s.rd F.AX_NEXT_SEG_FIRST n) hold
  rw [← haxis] at htraj hstartedAsks hstartedSegs
  rw [← heq] at htraj hstartedAsks hstartedSegs hbad hopen hrest hmoving
  have hnow := hframe.now rfl
  obtain ⟨-, hstate⟩ := State.axUpdate_of_stands hbad (by rw [hnow]; exact hopen) (by rw [hnow]; exact hrest)
  refine ⟨⟨hnow, hbad, hstartedAsks.trans (hsameAsks.trans hasks), .inr (hstate.trans hmoving), (hframe.rd (by decide) n).trans hone, ?_, r, ?_, hlong, hlt⟩, hmoving, ?_⟩
  · rw [hframe.rd (by decide)]
    exact hfirst
  · rw [hframe.rd (by decide), hstartedSegs, hsameSegs]
    exact hseg
  · rw [htraj]
    rfl

/-- What the start of an axis depends on. -/
theorem State.MayStart.congr {s u : State} {now : Instant} {n : Nat} (h : s.MayStart now n) (hnow : u.now = s.now) (haxis : u.axis n = s.axis n)
    (hrd : ∀ f ∈ [F.AX_STATUS_STATE, F.AX_PERIOD, F.AX_STOP_DECEL, F.AX_NEXT_SEG_COUNT, F.AX_NEXT_SEG_FIRST], u.rd f n = s.rd f n) : u.MayStart now n := by
  obtain ⟨rfl, hsound, hasks, hready, hone, hfirst, hseg⟩ := h
  simp only [List.forall_mem_cons] at hrd
  obtain ⟨hstate, hperiod, hdecel, hcount, hnext, -⟩ := hrd
  have hsame : (u.axUpdate n).axState n = (s.axUpdate n).axState n := by
    rw [State.axState_axUpdate hsound, State.axState_axUpdate (by rw [haxis]; exact hsound), haxis, hperiod, hdecel, hnow, State.axState, hstate]
    rfl
  exact ⟨hnow, by rw [haxis]; exact hsound, by rw [haxis]; exact hasks, by rw [hsame]; exact hready, hcount.trans hone, by rw [hnext]; exact hfirst, by rw [hnext, haxis]; exact hseg⟩

section
variable {s : State} {now : Instant} {m n : Nat} (hne : m ≠ n) (hold : Option Instant)
include hne

/-- The start of another member changes nothing of it. -/
theorem State.startMember_other : (s.startMember now hold n).axis m = s.axis m ∧ ∀ f : Fld, 247 ≤ f.id → f.id ≤ 325 → (s.startMember now hold n).rd f m = s.rd f m := by
  have honly : AxisOnly n s (s.startMember now hold n) := AxisOnly.axStart (OnlyAt.refl s) _ _ _ _
  exact ⟨honly.insts m hne _, fun f hlo hhi => honly.regs m hne f hlo hhi⟩

theorem State.MayStart.other (h : s.MayStart now m) : (s.startMember now hold n).MayStart now m := by
  obtain ⟨haxis, hrd⟩ := State.startMember_other (s := s) (now := now) hne hold
  refine h.congr ((s.frame_startMember now hold n).now rfl) haxis fun f hf => hrd f ?_ ?_
  · revert f
    decide
  · revert f
    decide

theorem State.StartedAt.other (h : s.StartedAt now m) : (s.startMember now hold n).StartedAt now m := by
  obtain ⟨hmay, hmoving, hbegun⟩ := h
  obtain ⟨haxis, hrd⟩ := State.startMember_other (s := s) (now := now) hne hold
  exact ⟨hmay.other hne hold, (hrd F.AX_STATUS_STATE (by decide) (by decide)).trans hmoving, by rw [haxis]; exact hbegun⟩

end

/-- What has been started stays so through the start of every member. -/
theorem State.StartedAt.each {s : State} {now : Instant} {n : Nat} (h : s.StartedAt now n) (hold : Option Instant) (l : List Nat) :
    (s.each l (State.startMember · now hold)).StartedAt now n :=
  keeps_each (I := fun u => u.StartedAt now n) h _ _ fun u m hu => by
    by_cases hne : n = m
    · subst hne
      exact State.MayStart.start (State.StartedAt.toMayStart hu) hold
    · exact State.StartedAt.other hne hold hu

/-- The members of a group that may be started are started, all of them. -/
theorem State.startedAt_each {now : Instant} (hold : Option Instant) (l : List Nat) {s : State} (h : ∀ n ∈ l, s.MayStart now n) :
    ∀ n ∈ l, (s.each l (State.startMember · now hold)).StartedAt now n := by
  induction l generalizing s with
  | nil => exact fun n hn => nomatch hn
  | cons m r ih =>
    intro n hn
    obtain ⟨hm, hr⟩ := List.forall_mem_cons.mp h
    rcases List.mem_cons.mp hn with rfl | hmem
    · exact (hm.start hold).each hold r
    · refine ih (fun k hk => ?_) n hmem
      by_cases hne : k = m
      · subst hne
        exact (hm.start hold).toMayStart
      · exact (hr k hk).other hne hold

/-- The group at its start: no longer armed. -/
def State.beginGroup (s : State) (g : Nat) : State := (s.wr F.AXG_CTRL_STATE 2 g).withGroups (s.groups.erase g)

theorem State.MayStart.beginGroup {s : State} {now : Instant} {n : Nat} (h : s.MayStart now n) (g : Nat) : (s.beginGroup g).MayStart now n := by
  refine h.congr rfl rfl fun f hf => State.rd_wr_field s ?_ 2 g n
  revert f
  decide

/-- The start of the members leaves the group disarmed. -/
theorem State.group_each_startMember (s : State) (now : Instant) (hold : Option Instant) (l : List Nat) (g : Nat) :
    ((s.beginGroup g).each l (State.startMember · now hold)).rd F.AXG_CTRL_STATE g = 2 ∧ ((s.beginGroup g).each l (State.startMember · now hold)).group g = none := by
  have hbegun : (s.beginGroup g).rd F.AXG_CTRL_STATE g = 2 ∧ (s.beginGroup g).group g = none := ⟨State.rd_wr_same s _ _ _, Tbl.find_erase_same s.groups g⟩
  refine keeps_each (I := fun u => u.rd F.AXG_CTRL_STATE g = 2 ∧ u.group g = none) hbegun _ _ fun u n hu => ?_
  obtain ⟨hstate, hgroup⟩ := hu
  have hframe := u.frame_startMember now hold n
  exact ⟨(hframe.rd (by decide) g).trans hstate, (congrArg (Tbl.find · g) (hframe.part (p := .groups) rfl)).trans hgroup⟩

theorem groupStart_starts {t : Instant} {g : Fin 4} {s : State} {m : List Nat} {ignore : Option Instant} {sync : Bool}
    (hgroup : s.group g = some ⟨m, sync, some (s.advance t).now, ignore⟩) (harmed : s.rd F.AXG_CTRL_STATE g = 1)
    (hmay : ∀ n ∈ m, (s.advance t).MayStart (s.advance t).now n) : Ends (.groupStart t g) s (fun u => u.rd F.AXG_CTRL_STATE g = 2 ∧ u.group g = none ∧
      (∀ n ∈ m, u.rd F.AX_STATUS_STATE n = 2 ∧ (u.axis n).traj.map (·.start) = [(s.advance t).now])) := by
  have hgroup' : (s.advance t).group g = some ⟨m, sync, some (s.advance t).now, ignore⟩ :=
    (congrArg (Tbl.find · g) ((frame_advance s t).part (p := .groups) rfl)).trans hgroup
  have hexec : ∃ hold, execGroupStart t g s = .next (((s.advance t).beginGroup g).each m (State.startMember · (s.advance t).now hold)) := by
    refine ⟨if sync then some (addNs (s.advance t).now 1000) else none, ?_⟩
    simp only [execGroupStart, hgroup', rd_advance s t (fld := F.AXG_CTRL_STATE) (by decide), harmed, true_and, true_or, if_true]
    rfl
  obtain ⟨hold, hexec⟩ := hexec
  obtain ⟨hstate, hnone⟩ := (s.advance t).group_each_startMember (s.advance t).now hold m g
  refine ⟨_, hexec, hstate, hnone, fun n hn => ?_⟩
  obtain ⟨-, hmoving, hbegun⟩ := State.startedAt_each hold m (fun k hk => (hmay k hk).beginGroup g) n hn
  exact ⟨hmoving, hbegun⟩

end Sys2Proof.Machine
end

section
/-! PROOFS.  The stamps of the pins (01 R31): no output, no STOP and no fault of an axis changes them. -/

namespace Sys2Proof.Machine

open Sys2Proof

/-- The pins have the stamps `v`. -/
def Stamped (v : Nat → Instant) (s : State) : Prop := ∀ k, (s.pin k).stamp = v k

theorem closed_stamped (v : Nat → Instant) {t : Touch} (h : t.hasPart .fio = false) : Closed (Stamped v) t :=
  closed_of_frame fun _ _ hf hs k => (congrArg FioPin.stamp (State.pin_congr (hf.part (p := .fio) h) k)).trans (hs k)

namespace Stamped

variable {v : Nat → Instant} {s : State}

theorem ite {c : Prop} [Decidable c] {a b : State} (ha : Stamped v a) (hb : Stamped v b) : Stamped v (if c then a else b) := Keeps.ite (I := Stamped v) ha hb

/-- A pin put with its stamp. -/
theorem putPin (h : Stamped v s) {k : Nat} {x : FioPin} (hx : x.stamp = (s.pin k).stamp) : Stamped v (s.putPin k x) := fun j => by
  by_cases hj : j = k
  · subst hj
    rw [State.pin_putPin_same, hx, h]
  · exact (congrArg FioPin.stamp (Tbl.get_set_other _ hj _ _)).trans (h j)

theorem settle (h : Stamped v s) : Stamped v s.settle := by
  refine Keeps.foldl (I := Stamped v) (fun u e hu => ?_) _ h
  dsimp only
  split
  · refine keeps_takeLevel (closed_stamped v (by decide)) (Keeps.ite hu ?_) _ _
    exact putPin hu rfl
  · exact hu

theorem driveLevel (h : Stamped v s) (pin : Nat) (b : Bool) : Stamped v (s.driveLevel pin b) := settle (putPin h (Eq.refl (s.pin pin).stamp))

theorem command (h : Stamped v s) (k : Nat) (b : Bool) : Stamped v (s.command k b) := settle (keeps_putOut (closed_stamped v (by decide)) h _ _)

theorem putMapped (h : Stamped v s) (e : MapEntry) (bs : List Byte) : Stamped v (s.putMapped e bs) := by
  rw [State.putMapped]
  split
  · exact h.command _ _
  · exact keeps_ringSend (closed_stamped v (by decide)) h _ _ _
  · exact keeps_publish (closed_stamped v (by decide)) h _ _ _

theorem safeMapped (h : Stamped v s) (e : MapEntry) : Stamped v (s.safeMapped e) := ite h (h.putMapped _ _)

theorem safeOutputs (h : Stamped v s) (p : Nat) : Stamped v (s.safeOutputs p) := by
  rw [State.safeOutputs]
  split
  · exact Keeps.foldl (I := Stamped v) (fun _ e hu => safeMapped hu e) _ h
  · exact h

theorem leavePause (h : Stamped v s) (p : Nat) : Stamped v (s.leavePause p) :=
  settle (keeps_holdGens (closed_stamped v (by decide)) (keeps_wr (closed_stamped v (by decide)) (keeps_putTreadle (closed_stamped v (by decide)) h _ _) _ _) _ _)

theorem abortTreadle (h : Stamped v s) (p : Nat) : Stamped v (s.abortTreadle p) := by
  have hcancelled : Stamped v (s.cancelStaging p 1) := keeps_cancelStaging (closed_stamped v (by decide)) h _ _
  have hleft : Stamped v (if (s.cancelStaging p 1).rd F.TR_STATUS_STATE p = 2 then (s.cancelStaging p 1).leavePause p else s.cancelStaging p 1) :=
    ite (hcancelled.leavePause p) hcancelled
  refine Keeps.ite (keeps_wr (closed_stamped v (by decide)) h _ _) (Keeps.ite h ?_)
  refine keeps_runChange (closed_stamped v (by decide)) (settle (keeps_schedule (closed_stamped v (by decide)) (keeps_stage (closed_stamped v (by decide)) ?_ _ _) _ _))
  exact hleft

theorem enterStop (h : Stamped v s) (p cause : Nat) : Stamped v (s.enterStop p cause) := by
  have hentered : Stamped v (((s.wr F.CP_STATUS_STATE 0 p).wr F.CP_STATUS_STOP_CAUSE cause p).wrT F.CP_STOP_T s.now p) := h
  have hdropped := keeps_each (I := Stamped v) hentered (cycTasks p) (fun s k => s.dropScan p k) fun u k hu => keeps_dropScan (closed_stamped v (by decide)) hu _ _
  have haborted := (safeOutputs hdropped p).abortTreadle p
  exact keeps_runChange (closed_stamped v (by decide)) (settle (keeps_stopRecord (closed_stamped v (by decide)) (keeps_cpEvent (closed_stamped v (by decide)) haborted _ _) _ _))

theorem partStop (h : Stamped v s) (p cause : Nat) : Stamped v (s.partStop p cause) :=
  Keeps.ite (Keeps.ite (keeps_stopRecord (closed_stamped v (by decide)) h _ _) h) (h.enterStop p cause)

theorem axImmediate (h : Stamped v s) (n : Nat) : Stamped v (s.axImmediate n) := by
  simp only [State.axImmediate]
  split
  · exact keeps_when (keeps_onAxis (closed_stamped v (by decide)) h _ _) _ _ fun _ hu => driveLevel hu _ _
  · exact keeps_each (keeps_onAxis (closed_stamped v (by decide)) h _ _) _ _ fun _ _ hu => driveLevel hu _ _
  · exact keeps_onAxis (closed_stamped v (by decide)) h _ _

theorem axFault (h : Stamped v s) (n causes : Nat) : Stamped v (s.axFault n causes) := by
  obtain ⟨shown, heq⟩ := s.axFault_eq n causes
  have hdeclared : Stamped v (s.declareAxFault n causes) :=
    keeps_axEvent (closed_stamped v (by decide)) (keeps_causeClass (closed_stamped v (by decide)) (keeps_wr (closed_stamped v (by decide)) h _ _) _ _) _ _
  have hreacted : Stamped v ((s.declareAxFault n causes).reactToFault n causes) :=
    ite (hdeclared.axImmediate n) (ite hdeclared (keeps_axStop (closed_stamped v (by decide)) hdeclared _ _ _ _))
  have hentered : Stamped v (s.enterFaulted n causes) := hreacted
  rw [heq]
  exact keeps_reportAxFault (closed_stamped v (by decide)) (closed_stamped v (by decide)) (fun _ hu => keeps_refuseAsks (closed_stamped v (by decide)) hu _)
    (fun _ _ hu => partStop hu _ _) hentered _ _

theorem axUpdate (h : Stamped v s) (n : Nat) : Stamped v (s.axUpdate n) := by
  have hcatch (u : State) (hu : Stamped v u) : Stamped v (u.axCatchUp n) := keeps_axCatchUp (closed_stamped v (by decide)) hu n
  simp only [State.axUpdate]
  split
  · exact hcatch _ ((hcatch s h).axFault n _)
  · exact hcatch s h

end Stamped

end Sys2Proof.Machine
end

section
/-! PROOFS.  The switches of an axis (06 R160, R162, R163), and the statement of its groups and switches. -/

namespace Sys2Proof.Machine

open Sys2Proof

/-! ### What bringing an axis up leaves -/

theorem State.rd_broughtUp (s : State) (t : Instant) (n : Nat) {f : Fld} (hup : Touched.axUpdate.has f.id = false) (hadv : Touched.advance.has f.id = false) (i : Nat) :
    ((s.advance t).axUpdate n).rd f i = s.rd f i :=
  (rd_axUpdate _ _ hup i).trans (rd_advance s t hadv i)

theorem State.stamp_broughtUp (s : State) (t : Instant) (n k : Nat) : (((s.advance t).axUpdate n).pin k).stamp = (s.pin k).stamp :=
  Stamped.axUpdate (v := fun k => (s.pin k).stamp) (fun k => congrArg FioPin.stamp (s.pin_advance t k)) n k

/-- On an axis that homes nothing comes to its end. -/
theorem Axis.stands_of_homing {x : Axis} {h : Homing} (hx : x.homing = some h) (now : Instant) : x.openEnd now = none ∧ x.restAt now = none := by
  simp [Axis.openEnd, Axis.restAt, hx]

/-- An axis that homes is left as it is. -/
theorem State.axis_broughtUp_homing {s : State} (t : Instant) {n : Nat} {h : Homing} (hbad : (s.axis n).bad = none) (hhoming : (s.axis n).homing = some h) :
    ((s.advance t).axUpdate n).axis n = s.axis n := by
  rw [← s.axis_advance t n] at hbad hhoming
  obtain ⟨hopen, hrest⟩ := Axis.stands_of_homing hhoming (s.advance t).now
  obtain ⟨hsame, -⟩ := State.axUpdate_of_stands hbad hopen hrest
  rw [hsame, State.axis_advance]

/-! ### The limits -/

/-- The level that a limit's field shows, and the edge kept. -/
def State.followLimit (s : State) (n : Nat) (f : Fld) (b : Bool) (x : Axis) (chatters : Bool) : State :=
  ((s.wr f (b2n b) n).putAxis n x).when chatters (·.bump F.AX_CHATTER_LIM_CHATTER n)

theorem State.rd_followLimit_same (s : State) (n : Nat) {f : Fld} (hf : (f.id == F.AX_CHATTER_LIM_CHATTER.id) = false) (hw : 0 < f.width) (b : Bool) (x : Axis) (chatters : Bool) :
    (s.followLimit n f b x chatters).rd f n = b2n b := by
  cases chatters with
  | false => exact (s.rd_wr_same f _ n).trans (b2n_mod_two_pow hw b)
  | true => exact ((State.rd_bump_field _ _ _ _ hf n).trans (s.rd_wr_same f _ n)).trans (b2n_mod_two_pow hw b)

theorem State.rd_followLimit_other (s : State) (n : Nat) {f g : Fld} (hg : (g.id == F.AX_CHATTER_LIM_CHATTER.id) = false) (hne : (g.id == f.id) = false) (b : Bool) (x : Axis)
    (chatters : Bool) : (s.followLimit n f b x chatters).rd g n = s.rd g n := by
  cases chatters with
  | false => exact s.rd_wr_field hne _ n n
  | true => exact (State.rd_bump_field _ _ _ _ hg n).trans (s.rd_wr_field hne _ n n)

section
variable {t : Instant} {n : Fin 128} {s : State} {b : Bool}

/-- An edge of a limit: its field already shows the level, or follows it. -/
theorem execLimitEdge_follows (positive : Bool)
    (hlevel : ((s.advance t).axUpdate n).switchLevel (s.rd (if positive then F.AX_LIMP_SRC else F.AX_LIMN_SRC) n) = some b) :
    (s.rd (if positive then F.AX_STATUS_LIMP else F.AX_STATUS_LIMN) n = b2n b ∧ execLimitEdge t n positive s = .next ((s.advance t).axUpdate n)) ∨
    ∃ x chatters, execLimitEdge t n positive s =
      .next (((s.advance t).axUpdate n).followLimit n (if positive then F.AX_STATUS_LIMP else F.AX_STATUS_LIMN) b x chatters) := by
  have hsource : ((s.advance t).axUpdate n).rd (if positive then F.AX_LIMP_SRC else F.AX_LIMN_SRC) n = s.rd (if positive then F.AX_LIMP_SRC else F.AX_LIMN_SRC) n :=
    State.rd_broughtUp s t n (by cases positive <;> decide) (by cases positive <;> decide) n
  have hshown : ((s.advance t).axUpdate n).rd (if positive then F.AX_STATUS_LIMP else F.AX_STATUS_LIMN) n = s.rd (if positive then F.AX_STATUS_LIMP else F.AX_STATUS_LIMN) n :=
    State.rd_broughtUp s t n (by cases positive <;> decide) (by cases positive <;> decide) n
  simp only [execLimitEdge, hsource, hlevel, hshown]
  by_cases hsame : s.rd (if positive then F.AX_STATUS_LIMP else F.AX_STATUS_LIMN) n = b2n b
  · exact .inl ⟨hsame, congrArg _ (if_pos hsame)⟩
  · exact .inr ⟨_, _, congrArg _ (if_neg hsame)⟩

theorem limitEdge_positive (hlevel : ((s.advance t).axUpdate n).switchLevel (s.rd F.AX_LIMP_SRC n) = some b) : Ends (.limitEdge t n true) s (fun u =>
    u.rd F.AX_STATUS_LIMP n = b2n b ∧ u.rd F.AX_STATUS_LIMN n = s.rd F.AX_STATUS_LIMN n ∧ u.rd F.AX_POS n = s.rd F.AX_POS n) := by
  have hother := State.rd_broughtUp s t n (f := F.AX_STATUS_LIMN) (by decide) (by decide) n
  have hpos := State.rd_broughtUp s t n (f := F.AX_POS) (by decide) (by decide) n
  rcases execLimitEdge_follows true hlevel with ⟨heq, hexec⟩ | ⟨x, chatters, hexec⟩
  · exact ⟨_, hexec, (State.rd_broughtUp s t n (by decide) (by decide) n).trans heq, hother, hpos⟩
  · exact ⟨_, hexec, State.rd_followLimit_same _ n (by decide) (by decide) _ _ _, (State.rd_followLimit_other _ n (by decide) (by decide) _ _ _).trans hother,
      (State.rd_followLimit_other _ n (by decide) (by decide) _ _ _).trans hpos⟩

theorem limitEdge_negative (hlevel : ((s.advance t).axUpdate n).switchLevel (s.rd F.AX_LIMN_SRC n) = some b) : Ends (.limitEdge t n false) s (fun u =>
    u.rd F.AX_STATUS_LIMN n = b2n b ∧ u.rd F.AX_STATUS_LIMP n = s.rd F.AX_STATUS_LIMP n ∧ u.rd F.AX_POS n = s.rd F.AX_POS n) := by
  have hother := State.rd_broughtUp s t n (f := F.AX_STATUS_LIMP) (by decide) (by decide) n
  have hpos := State.rd_broughtUp s t n (f := F.AX_POS) (by decide) (by decide) n
  rcases execLimitEdge_follows false hlevel with ⟨heq, hexec⟩ | ⟨x, chatters, hexec⟩
  · exact ⟨_, hexec, (State.rd_broughtUp s t n (by decide) (by decide) n).trans heq, hother, hpos⟩
  · exact ⟨_, hexec, State.rd_followLimit_same _ n (by decide) (by decide) _ _ _, (State.rd_followLimit_other _ n (by decide) (by decide) _ _ _).trans hother,
      (State.rd_followLimit_other _ n (by decide) (by decide) _ _ _).trans hpos⟩

end

/-! ### The home switch -/

/-- The axis with an edge of its home switch at an instant, in the burst before it or in one of its own. -/
def Axis.withEdge (x : Axis) (at_ : Instant) (quiet : Nat) (here : Option Int) : Axis :=
  match x.burst with
  | some u => if sinceS at_ u.last < quiet then { x with burst := some ⟨at_, u.edges + 1, u.latch.orElse (fun _ => here)⟩ } else { x with burst := some ⟨at_, 1, here⟩ }
  | none => { x with burst := some ⟨at_, 1, here⟩ }

theorem Axis.last_withEdge (x : Axis) (at_ : Instant) (quiet : Nat) (here : Option Int) : (x.withEdge at_ quiet here).burst.any (fun u => u.last == at_) = true := by
  unfold Axis.withEdge
  split
  · split <;> exact beq_self_eq_true at_
  · exact beq_self_eq_true at_

theorem State.switchEdge_broughtUp (s : State) (t : Instant) (n sel : Nat) : ((s.advance t).axUpdate n).switchEdge sel = (s.advance t).switchEdge sel := by
  rw [State.switchEdge, State.switchEdge, State.stamp_broughtUp, State.now_axUpdate, State.pin_advance]

theorem homeSwitchEdge_bursts {t : Instant} {n : Fin 128} {s : State} {b : Bool} (hlevel : ((s.advance t).axUpdate n).switchLevel (s.rd F.AX_HOME_SRC n) = some b)
    (hnew : s.rd F.AX_STATUS_HOME_SW n ≠ b2n b) : Ends (.homeSwitchEdge t n) s (fun u => u.rd F.AX_STATUS_HOME_SW n = b2n b ∧
      (u.axis n).burst.any (fun x => x.last == (s.advance t).switchEdge (s.rd F.AX_HOME_SRC n)) = true) := by
  have hexec : ∃ quiet here, execHomeSwitchEdge t n s = .next ((((s.advance t).axUpdate n).wr F.AX_STATUS_HOME_SW (b2n b) n).onAxis n
      (·.withEdge ((s.advance t).switchEdge (s.rd F.AX_HOME_SRC n)) quiet here)) := by
    simp only [execHomeSwitchEdge, State.rd_broughtUp s t n (f := F.AX_HOME_SRC) (by decide) (by decide), hlevel,
      State.rd_broughtUp s t n (f := F.AX_STATUS_HOME_SW) (by decide) (by decide), if_neg hnew, State.switchEdge_broughtUp]
    exact ⟨_, _, rfl⟩
  obtain ⟨quiet, here, hexec⟩ := hexec
  refine ⟨_, hexec, ?_, ?_⟩
  · rw [rd_onAxis _ _ _ (by decide), State.rd_wr_same, b2n_mod_two_pow (by decide)]
  · rw [State.axis_onAxis_same]
    exact Axis.last_withEdge _ _ _ _

/-! ### The latch of a homing -/

/-- The axis with L in its homing. -/
def Axis.latched (x : Axis) (h : Homing) (l : Int) : Axis := { x with homing := some { h with latch := some l } }

theorem Axis.homing_latched (x : Axis) (h : Homing) (l : Int) : (x.latched h l).homing = some { h with latch := some l } := rfl

theorem Axis.burst_latched (x : Axis) (h : Homing) (l : Int) : (x.latched h l).burst = x.burst := rfl

/-- The axis with no burst of its home switch in progress. -/
def Axis.quiet (x : Axis) : Axis := { x with burst := none }

theorem Axis.burst_quiet (x : Axis) : x.quiet.burst = none := rfl

theorem Axis.homing_quiet {x : Axis} {h : Homing} (hx : x.homing = some h) : x.quiet.homing = some h := hx

theorem State.axis_homeSeen {s : State} {n : Nat} {x : Axis} {h : Homing} (hx : s.axis n = x) (hhomes : x.homing = some h) (hseeks : h.result = 1) (hopen : h.latch = none)
    (l : Int) : (s.homeSeen n l).axis n = x.latched h l := by
  rw [State.homeSeen, State.axis_onAxis_same, hx]
  simp [Axis.latched, hhomes, hseeks, hopen]

section
variable {t : Instant} {n : Fin 128} {s : State} {h : Homing} (hbad : (s.axis n).bad = none) (hhoming : (s.axis n).homing = some h) (hseeks : h.result = 1) (hopen : h.latch = none)
include hbad hhoming hseeks hopen

theorem burstQualified_latches {b : Burst} {l : Int} (hburst : (s.axis n).burst = some b) (hquiet : (s.rd F.AX_HOME_CFG_DEB_NS n : Int) ≤ sinceNs (s.advance t).now b.last)
    (hlatch : b.latch = some l) (hactive : s.rd F.AX_STATUS_HOME_SW n ≠ 0) (hmode : s.rd F.AX_HOME_CFG_MODE n = 0) : Ends (.burstQualified t n) s (fun u =>
      (u.axis n).burst = none ∧ (u.axis n).homing = some { h with latch := some l } ∧ u.rd F.AX_CHATTER_HOME_CHATTER n = min (b.edges - 1) 0xFFFF) := by
  have hsame := State.axis_broughtUp_homing t hbad hhoming
  have hexec : execBurstQualified t n s = .next (((((s.advance t).axUpdate n).onAxis n Axis.quiet).wr F.AX_CHATTER_HOME_CHATTER
      (min (b.edges - 1) 0xFFFF) n).homeSeen n l) := by
    have hrd {f : Fld} (hup : Touched.axUpdate.has f.id = false) (hadv : Touched.advance.has f.id = false) := State.rd_broughtUp s t n hup hadv n
    have hon : (s.rd F.AX_STATUS_HOME_SW n != 0) = true := bne_iff_ne.mpr hactive
    simp (disch := decide) only [execBurstQualified, hsame, hburst, hlatch, hrd, State.now_axUpdate, if_pos hquiet, State.on, rd_onAxis, hon, State.rd_wr_field, hmode,
      Bool.not_true, Bool.false_eq_true, if_false, if_true]
    rfl
  have haxis := State.axis_onAxis_same ((s.advance t).axUpdate n) n Axis.quiet
  rw [hsame] at haxis
  have hlatched := State.axis_homeSeen (s := (((s.advance t).axUpdate n).onAxis n Axis.quiet).wr F.AX_CHATTER_HOME_CHATTER
      (min (b.edges - 1) 0xFFFF) n) ((State.axis_wr _ _ _ _ _).trans haxis) (Axis.homing_quiet hhoming) hseeks hopen l
  refine ⟨_, hexec, (congrArg Axis.burst hlatched).trans ((Axis.burst_latched _ _ _).trans (Axis.burst_quiet _)), (congrArg Axis.homing hlatched).trans (Axis.homing_latched _ _ _), ?_⟩
  rw [State.homeSeen, rd_onAxis _ _ _ (by decide), State.rd_wr_same]
  exact Nat.mod_eq_of_lt (lt_of_le_of_lt (Nat.min_le_right _ _) (by decide))

theorem indexEdge_latches (hmode : s.rd F.AX_HOME_CFG_MODE n = 1) (hkind : s.rd F.AX_ROUTE_FB_KIND n = 1) (hseen : h.seen = true) : Ends (.indexEdge t n) s (fun u =>
    (u.axis n).homing = some { h with latch := some (rshr ((s.axis n).countAt (s.pin (s.rd F.AX_FB n + 2)).stamp * s.rdI F.AX_ENC_SCALE n) 8 + (s.axis n).offset) }) := by
  have hsame := State.axis_broughtUp_homing t hbad hhoming
  have hexec : execIndexEdge t n s = .next (((s.advance t).axUpdate n).homeSeen n
      (rshr ((s.axis n).countAt (s.pin (s.rd F.AX_FB n + 2)).stamp * s.rdI F.AX_ENC_SCALE n) 8 + (s.axis n).offset)) := by
    simp (disch := decide) only [execIndexEdge, State.edgePosition, hsame, hhoming, State.rd_broughtUp, State.rdI, hmode, hkind, hseen, State.stamp_broughtUp,
      Option.any_some, and_self, if_true]
  exact ⟨_, hexec, (congrArg Axis.homing (State.axis_homeSeen hsame hhoming hseeks hopen _)).trans (Axis.homing_latched _ _ _)⟩

end

/-! ### The statement -/

/-- Settles O30: the members of a group start one after the other, and the start of one leaves the others; bringing an axis up keeps the stamps of the
pins, and leaves an axis that homes as it is. -/
theorem axisGroupsAndSwitches : Obligations.AxisGroupsAndSwitches := by
  unfold Obligations.AxisGroupsAndSwitches
  refine ⟨?accepted, ?refused, ?cancel, ?start, ?positive, ?negative, ?home, ?burst, ?index⟩
  case accepted =>
    intro t g value s hadm hok
    rw [← State.armJudged_advance] at hok
    exact axgArm_accepted hadm hok
  case refused =>
    intro t g value s hadm hno
    rw [← State.armJudged_advance] at hno ⊢
    exact axgArm_refused hadm hno
  case cancel =>
    intro t g value s hadm harmed
    exact axgCancel_disarms hadm harmed
  case start =>
    intro t g s m ignore sync hgroup harmed hmembers
    refine groupStart_starts hgroup harmed fun n hn => ?_
    obtain ⟨hidle, hasks, hbad, hone, hfirst, hseg⟩ := hmembers n hn
    obtain ⟨r, hfind, hdur⟩ := (Option.any_eq_true _ _).mp hseg
    simp only [Bool.and_eq_true, decide_eq_true_eq] at hdur
    rw [← s.axis_advance t n] at hasks hbad hfind
    rw [← rd_advance s t (fld := F.AX_NEXT_SEG_COUNT) (by decide)] at hone
    rw [← rd_advance s t (fld := F.AX_NEXT_SEG_FIRST) (by decide)] at hfirst hfind
    exact ⟨rfl, hbad, hasks, .inl hidle, hone, hfirst, r, hfind, hdur⟩
  case positive =>
    intro t n s b hlevel
    exact limitEdge_positive hlevel
  case negative =>
    intro t n s b hlevel
    exact limitEdge_negative hlevel
  case home =>
    intro t n s b hlevel hnew
    exact homeSwitchEdge_bursts hlevel hnew
  case burst =>
    intro t n s b h l hbad hburst hquiet hlatch hactive hmode hhoming hseeks hopen
    exact burstQualified_latches hbad hhoming hseeks hopen hburst hquiet hlatch hactive hmode
  case index =>
    intro t n s h hbad hmode hkind hhoming hseen hseeks hopen
    exact indexEdge_latches hbad hhoming hseeks hopen hmode hkind hseen

end Sys2Proof.Machine
end

section
/-! PROOFS.  Streams of the Skein (07 R169, R175, R180, R185, R186): how a stream reads, and what the move of a block, a seal and a short record make of it. -/

namespace Sys2Proof.Machine

open Sys2Proof

set_option Elab.async false

/-! ### Reading a stream -/

theorem Frame.stream {t : Touch} {s u : State} (h : Frame t s u) (ht : t.hasPart .skein = false) (k : Nat) : u.stream k = s.stream k :=
  congrArg (fun x : Skein => x.streams.get k Stream.init) (h.part (p := .skein) ht)

@[simp] theorem State.stream_putStream_same (s : State) (k : Nat) (x : Stream) : (s.putStream k x).stream k = x := Tbl.get_set_same _ _ _ _

@[simp] theorem State.stream_wr (s : State) (f : Fld) (v i k : Nat) : (s.wr f v i).stream k = s.stream k := rfl

@[simp] theorem State.stream_bump (s : State) (f : Fld) (i n k : Nat) : (s.bump f i n).stream k = s.stream k := rfl

@[simp] theorem State.stream_roll (s : State) (f : Fld) (i n k : Nat) : (s.roll f i n).stream k = s.stream k := rfl

@[simp] theorem State.stream_showBurst (s : State) (k : Nat) : s.showBurst.stream k = s.stream k := rfl

@[simp] theorem State.stream_advance (s : State) (t : Instant) (k : Nat) : (s.advance t).stream k = s.stream k := (frame_advance s t).stream rfl k

/-! ### Host writes of the registers of a stream -/

/-- The registers of the streams carry no EXPECT. -/
theorem commandObject_stream {off : Nat} (hlo : 0x501000 ≤ off) (hhi : off < 0x502000) : commandObject off = none := by
  have htreadle : ¬ off < 0x301000 := by omega
  have hprogram : ¬ 0x900000 ≤ off := by omega
  have hloom : ¬ 0x701000 ≤ off := by omega
  have hreset : ¬ 0xE00300 ≤ off := by omega
  have htandem : off ≠ 0xC00010 := by omega
  have hupdate : off ≠ 0xD00200 := by omega
  simp [commandObject, htreadle, hprogram, hloom, hreset, htandem, hupdate]

/-- An admitted host write of a register of a stream takes effect once the Warp has moved. -/
theorem State.hostWrite_stream {s : State} (t : Instant) {off : Nat} (hlo : 0x501000 ≤ off) (hhi : off < 0x502000) (h : s.admits off = true) (f : State → State) :
    (s.advance t).hostWrite off f = f (s.advance t) :=
  State.hostWrite_of_admits (by rwa [State.admits_advance]) (commandObject_stream hlo hhi) f 0 true

/-! ### Blocks moved into the region (R185) -/

/-- Region `m` comes of region `l` by blocks moved into it: what is being written stays, and what is new is being written. -/
structure RegionGrows (l m : List SkSlot) : Prop where
  stays : ∀ e ∈ l, e.phase = .writing → e ∈ m
  new : ∀ e ∈ m, e ∈ l ∨ e.phase = .writing

theorem RegionGrows.refl (l : List SkSlot) : RegionGrows l l := ⟨fun _ he _ => he, fun _ he => .inl he⟩

theorem RegionGrows.trans {l m r : List SkSlot} (h : RegionGrows l m) (h' : RegionGrows m r) : RegionGrows l r where
  stays e he hw := h'.stays e (h.stays e he hw) hw
  new e he := (h'.new e he).elim (h.new e) .inr

/-- A block moved in behind the slots that stay. -/
theorem RegionGrows.append {l m : List SkSlot} (hstays : ∀ e ∈ l, e.phase = .writing → e ∈ m) (hsub : ∀ e ∈ m, e ∈ l) (b : SkBlock) :
    RegionGrows l (m ++ [⟨b, .writing, 0⟩]) where
  stays e he hw := List.mem_append_left _ (hstays e he hw)
  new e he := (List.mem_append.mp he).imp (hsub e) fun h => by rw [List.mem_singleton.mp h]

/-- The overwritten slot is none that is being written, and the others stay. -/
theorem dropOldest_some {l left : List SkSlot} {o : SkBlock} (h : dropOldest l = some (o, left)) :
    (∀ e ∈ l, e.phase = .writing → e ∈ left) ∧ ∀ e ∈ left, e ∈ l := by
  induction l generalizing left with
  | nil => simp [dropOldest] at h
  | cons e r ih =>
    have hrest (hp : e.phase ≠ .writing) : ∀ f ∈ e :: r, f.phase = .writing → f ∈ r := fun f hf hw =>
      (List.mem_cons.mp hf).elim (fun h => absurd (h ▸ hw) hp) id
    cases hp : e.phase <;> simp only [dropOldest, hp] at h
    case writing => cases h
    case exporting => cases h
    case written => cases h; exact ⟨hrest (by simp [hp]), fun _ => List.mem_cons_of_mem _⟩
    case visible => cases h; exact ⟨hrest (by simp [hp]), fun _ => List.mem_cons_of_mem _⟩
    case consumed =>
      obtain ⟨⟨o', left'⟩, hr, heq⟩ := Option.map_eq_some_iff.mp h
      cases heq
      obtain ⟨hstays, hsub⟩ := ih hr
      exact ⟨fun f hf hw => List.mem_cons_of_mem _ (hstays f (hrest (by simp [hp]) f hf hw) hw), fun f hf =>
        (List.mem_cons.mp hf).elim (fun h => h ▸ List.mem_cons_self) fun h => List.mem_cons_of_mem _ (hsub f h)⟩

/-- A stream with other blocks in its burst buffer and in its region. -/
def Stream.moved (x : Stream) (burst : List SkBlock) (region : List SkSlot) (overwritten : Option (Nat × Nat × Instant × Instant)) : Stream :=
  { x with burst := burst, region := region, overwritten := overwritten }

theorem State.stream_placeBlock (s : State) (k : Nat) : ∃ burst region overwritten,
    (s.placeBlock k).stream k = (s.stream k).moved burst region overwritten ∧ RegionGrows (s.stream k).region region := by
  have hsame : ∃ burst region overwritten, s.stream k = (s.stream k).moved burst region overwritten ∧ RegionGrows (s.stream k).region region :=
    ⟨_, _, _, rfl, .refl _⟩
  simp only [State.placeBlock]
  split
  · exact hsame
  · rename_i b rest _
    split
    · refine ⟨rest, _, (s.stream k).overwritten, State.stream_putStream_same _ _ _, .append (fun e he hw => ?_) (fun e he => ?_) b⟩
      · exact List.mem_append_right _ (List.mem_filter.mpr ⟨he, by simp [hw]⟩)
      · exact (List.mem_append.mp he).elim (fun h => (List.mem_filter.mp (List.mem_of_mem_drop h)).1) fun h => (List.mem_filter.mp h).1
    · split
      · split
        · exact hsame
        · rename_i o left hdrop
          obtain ⟨hstays, hsub⟩ := dropOldest_some hdrop
          exact ⟨rest, _, _, State.stream_putStream_same _ _ _, .append hstays hsub b⟩
      · exact hsame

theorem State.stream_placeAll (s : State) (k n : Nat) : ∃ burst region overwritten,
    (s.placeAll k n).stream k = (s.stream k).moved burst region overwritten ∧ RegionGrows (s.stream k).region region := by
  induction n generalizing s with
  | zero => exact ⟨_, _, _, rfl, .refl _⟩
  | succ n ih =>
    obtain ⟨burst, region, overwritten, hone, hgrows⟩ := s.stream_placeBlock k
    obtain ⟨burst', region', overwritten', hrest, hgrows'⟩ := ih (s.placeBlock k)
    refine ⟨burst', region', overwritten', ?_, hgrows.trans ?_⟩
    · rw [State.placeAll, hrest, hone]; rfl
    · rwa [hone] at hgrows'

/-! ### A seal (R180) -/

/-- The records of the open block, with those that its runs give. -/
def Stream.content (x : Stream) : List SkRec := x.recs ++ x.runs.map runRec

/-- A stream whose open block has become block `b`. -/
def Stream.shut (x : Stream) (b : SkBlock) : Stream :=
  { x with openAt := none, recs := [], runs := [], headHash := b.digest, everSealed := true, burst := x.burst ++ [b] }

/-- What a seal overwrote recorded in the next block (R185, R477). -/
def State.noteOverwritten (s : State) (k : Nat) : State :=
  match (s.stream k).overwritten with
  | none => s
  | some o =>
    s.putStream k { s.stream k with overwritten := none, openAt := some s.now, recs := [overwriteRec o s.recFlags, { eventRec s.now 15 k 1 0 0 [] with flags := s.recFlags }] }

theorem State.seal_of_empty {s : State} {k : Nat} (h : (s.stream k).content = []) : s.seal k = s := by
  rw [Stream.content] at h
  simp only [State.seal, h]

/-- The block that a seal makes of the records `r :: l` of the open block of stream `k` (R179). -/
def State.sealedBlock (s : State) (k : Nat) (r : SkRec) (l : List SkRec) : SkBlock :=
  let b : SkBlock :=
    { seq := s.rd F.SKS_SEQ k, flags := blockFlags (r :: l), first := (r :: l).foldl (fun t r => minT t r.first) r.first
      last := (r :: l).foldl (fun t r => maxT t r.last) r.last, prevHash := (s.stream k).headHash, records := r :: l, epoch := s.rd F.SK_EPOCH, digest := 0 }
  { b with digest := Config.sha384 (blockBytes k b) }

theorem State.seal_of_content {s : State} {k : Nat} (h : (s.stream k).content ≠ []) : ∃ b,
    s.seal k = ((((s.putStream k ((s.stream k).shut b)).roll F.SKS_SEQ k).placeBlock k).noteOverwritten k).showBurst := by
  rw [Stream.content] at h
  obtain ⟨r, l, hr⟩ := List.exists_cons_of_ne_nil h
  refine ⟨s.sealedBlock k r l, ?_⟩
  simp only [State.seal, hr]
  rfl

/-- The bytes of the records that a seal can leave in the next block: those of an OVERWRITE record and of its event. -/
def overwriteBytes : Nat := 56

theorem length_leBytes (n v : Nat) : (leBytes n v).length = n := by
  induction n generalizing v with
  | zero => rfl
  | succ n ih => simp [leBytes, ih]

theorem recLen_overwriteRec (o : Nat × Nat × Instant × Instant) (flags : Nat) : recLen (overwriteRec o flags) = 36 := by
  simp [recLen, overwriteRec, length_leBytes]

theorem recLen_eventRec (t : Instant) (kind id bit sel res : Nat) (detail : List Byte) : recLen (eventRec t kind id bit sel res detail) = 20 + detail.length := by
  simp [recLen, eventRec, length_leBytes]
  omega

/-- What stands beside the blocks of a stream: its gap, what it discarded, the checkpoints that wait and whether it exports. -/
structure StreamAccount where
  gap : Option Gap
  discards : Nat
  ckpts : List Ckpt
  shown : Bool
  ring : List Nat
  outBytes : Nat

def Stream.account (x : Stream) : StreamAccount := ⟨x.gap, x.discards, x.ckpts, x.shown, x.ring, x.outBytes⟩

/-- Stream `y` comes of stream `x` by seals and records. -/
structure Stream.Follows (x y : Stream) : Prop where
  account : y.account = x.account
  grows : RegionGrows x.region y.region

theorem Stream.Follows.refl (x : Stream) : x.Follows x := ⟨rfl, .refl _⟩

theorem Stream.Follows.trans {x y z : Stream} (h : x.Follows y) (h' : y.Follows z) : x.Follows z := ⟨h'.account.trans h.account, h.grows.trans h'.grows⟩

theorem Stream.Follows.discards {x y : Stream} (h : x.Follows y) : y.discards = x.discards := congrArg StreamAccount.discards h.account

theorem Stream.Follows.ckpts {x y : Stream} (h : x.Follows y) : y.ckpts = x.ckpts := congrArg StreamAccount.ckpts h.account

theorem Stream.Follows.ring {x y : Stream} (h : x.Follows y) : y.ring = x.ring := congrArg StreamAccount.ring h.account

theorem Stream.Follows.outBytes {x y : Stream} (h : x.Follows y) : y.outBytes = x.outBytes := congrArg StreamAccount.outBytes h.account

/-- Stream `y` is stream `x` whose open block was sealed. -/
structure Stream.SealedTo (x y : Stream) : Prop extends Stream.Follows x y where
  runs : y.runs = []
  everSealed : y.everSealed = true
  used : y.used ≤ overwriteBytes

theorem State.sealedTo_seal {s : State} {k : Nat} (h : (s.stream k).content ≠ []) : (s.stream k).SealedTo ((s.seal k).stream k) := by
  obtain ⟨b, hb⟩ := State.seal_of_content h
  obtain ⟨burst, region, overwritten, hplaced, hgrows⟩ := ((s.putStream k ((s.stream k).shut b)).roll F.SKS_SEQ k).stream_placeBlock k
  rw [State.stream_roll, State.stream_putStream_same] at hplaced hgrows
  rw [hb, State.stream_showBurst, State.noteOverwritten, hplaced]
  cases overwritten with
  | none =>
    dsimp only [Stream.moved]
    rw [hplaced]
    exact { account := rfl, grows := hgrows, runs := rfl, everSealed := rfl, used := Nat.zero_le _ }
  | some o =>
    dsimp only [Stream.moved]
    rw [State.stream_putStream_same]
    have hused : [recLen (overwriteRec o s.recFlags), recLen (eventRec s.now 15 k 1 0 0 [])].sum ≤ overwriteBytes := by
      rw [recLen_overwriteRec, recLen_eventRec]
      decide
    exact { account := rfl, grows := hgrows, runs := rfl, everSealed := rfl, used := hused }

theorem State.follows_seal (s : State) (k : Nat) : (s.stream k).Follows ((s.seal k).stream k) := by
  by_cases h : (s.stream k).content = []
  · rw [State.seal_of_empty h]
    exact .refl _
  · exact (State.sealedTo_seal h).toFollows

/-- An open block with nothing in it takes no bytes. -/
theorem Stream.used_of_content {x : Stream} (h : x.content = []) : x.used = 0 := by
  obtain ⟨hrecs, hruns⟩ := List.append_eq_nil_iff.mp h
  simp [Stream.used, hrecs, List.map_eq_nil_iff.mp hruns]

/-- After a seal the open block holds no more than what records what it overwrote. -/
theorem State.used_seal (s : State) (k : Nat) : ((s.seal k).stream k).used ≤ overwriteBytes := by
  by_cases h : (s.stream k).content = []
  · rw [State.seal_of_empty h, Stream.used_of_content h]
    exact Nat.zero_le _
  · exact (State.sealedTo_seal h).used

theorem State.rd_seq_seal {s : State} {k : Nat} (h : (s.stream k).content ≠ []) :
    (s.seal k).rd F.SKS_SEQ k = (s.rd F.SKS_SEQ k + 1) % 2 ^ F.SKS_SEQ.width := by
  obtain ⟨b, hb⟩ := State.seal_of_content h
  have hnoted (u : State) : (u.noteOverwritten k).rd F.SKS_SEQ k = u.rd F.SKS_SEQ k := by
    simp only [State.noteOverwritten]
    split <;> rfl
  rw [hb, rd_showBurst _ (by decide), hnoted, rd_placeBlock _ _ (by decide), State.rd_roll_same]
  rfl

/-! ### A short record (R175, R184) -/

/-- A record appended to the open block. -/
def State.appendRec (s : State) (k : Nat) (r : SkRec) : State :=
  s.putStream k { s.stream k with recs := (s.stream k).recs ++ [r], openAt := some ((s.stream k).openAt.getD s.now) }

theorem State.putRec_fits {s : State} {k : Nat} {r : SkRec} (h : (s.stream k).used + recLen r ≤ payloadMax) (fuel : Nat) :
    s.putRec k r (fuel + 1) = s.appendRec k r := by
  have hroom : recLen r ≤ payloadMax - (s.stream k).used := by omega
  simp only [State.putRec, if_neg (fun hbig : payloadMax < (s.stream k).used + recLen r ∧ (s.stream k).used ≠ 0 => absurd hbig.1 (by omega)), if_pos hroom]
  rfl

/-- A record that fits any block just opened enters the open block, or the one that a seal opens for it. -/
theorem State.putRec_short {s : State} {k : Nat} {r : SkRec} (h : recLen r + overwriteBytes ≤ payloadMax) (fuel : Nat) :
    s.putRec k r (fuel + 1) = s.appendRec k r ∨ s.putRec k r (fuel + 1) = (s.seal k).appendRec k r := by
  by_cases hfits : (s.stream k).used + recLen r ≤ payloadMax
  · exact .inl (State.putRec_fits hfits fuel)
  · have hused : (s.stream k).used ≠ 0 := by omega
    have hfits' : ((s.seal k).stream k).used + recLen r ≤ payloadMax := by have := s.used_seal k; omega
    rw [← State.putRec_fits hfits' fuel]
    have hroom : recLen r ≤ payloadMax - ((s.seal k).stream k).used := by omega
    refine .inr ?_
    simp only [State.putRec, if_pos (show payloadMax < (s.stream k).used + recLen r ∧ (s.stream k).used ≠ 0 from ⟨by omega, hused⟩),
      if_neg (fun hbig : payloadMax < ((s.seal k).stream k).used + recLen r ∧ ((s.seal k).stream k).used ≠ 0 => absurd hbig.1 (by omega))]

/-- A record with the flags that it takes from the machine. -/
def State.flagged (s : State) (r : SkRec) : SkRec := { r with flags := r.flags ||| s.recFlags }

theorem recLen_flagged (s : State) (r : SkRec) : recLen (s.flagged r) = recLen r := rfl

/-- A record put behind the RESTART record to come (R189). -/
def State.keepEarly (s : State) (k : Nat) (r : SkRec) : State := s.putStream k { s.stream k with early := (s.stream k).early ++ [r] }

theorem State.record_booting {s : State} (h : s.on F.HOST_STATUS_BOOTING = true) (k : Nat) (r : SkRec) : s.record k r = s.keepEarly k (s.flagged r) :=
  if_pos h

theorem State.record_booted {s : State} (h : s.on F.HOST_STATUS_BOOTING = false) (k : Nat) (r : SkRec) : s.record k r = s.putRec k (s.flagged r) 128 :=
  if_neg (by simp [h])

theorem State.record_booted_short {s : State} {k : Nat} {r : SkRec} (hbooted : s.on F.HOST_STATUS_BOOTING = false) (h : recLen r + overwriteBytes ≤ payloadMax) :
    ∃ u, (u = s ∨ u = s.seal k) ∧ s.record k r = u.appendRec k (s.flagged r) := by
  rw [State.record_booted hbooted]
  rcases State.putRec_short (s := s) (k := k) (r := s.flagged r) h 127 with heq | heq
  · exact ⟨s, .inl rfl, heq⟩
  · exact ⟨s.seal k, .inr rfl, heq⟩

theorem State.follows_appendRec (s : State) (k : Nat) (r : SkRec) : (s.stream k).Follows ((s.appendRec k r).stream k) := by
  rw [State.appendRec, State.stream_putStream_same]
  exact ⟨rfl, .refl _⟩

theorem State.follows_record (s : State) (k : Nat) {r : SkRec} (h : recLen r + overwriteBytes ≤ payloadMax) : (s.stream k).Follows ((s.record k r).stream k) := by
  cases hboot : s.on F.HOST_STATUS_BOOTING with
  | true =>
    rw [State.record_booting hboot, State.keepEarly, State.stream_putStream_same]
    exact ⟨rfl, .refl _⟩
  | false =>
    obtain ⟨u, rfl | rfl, heq⟩ := State.record_booted_short hboot h
    · exact heq ▸ u.follows_appendRec k _
    · exact heq ▸ (s.follows_seal k).trans ((s.seal k).follows_appendRec k _)

/-- A record that fits the open block seals nothing. -/
theorem State.headHash_record {s : State} {k : Nat} {r : SkRec} (h : (s.stream k).used + recLen r ≤ payloadMax) :
    ((s.record k r).stream k).headHash = (s.stream k).headHash := by
  cases hboot : s.on F.HOST_STATUS_BOOTING with
  | true => rw [State.record_booting hboot, State.keepEarly, State.stream_putStream_same]
  | false => rw [State.record_booted hboot, State.putRec_fits (by rwa [recLen_flagged]), State.appendRec, State.stream_putStream_same]

/-- The record of an event of the Skein is short. -/
theorem recLen_skEvent (t : Instant) (k bit : Nat) : recLen (eventRec t 15 k bit 0 0 []) = 20 := recLen_eventRec _ _ _ _ _ _ _

theorem State.follows_skEvent (s : State) (k bit : Nat) : (s.stream k).Follows ((s.skEvent k bit).stream k) :=
  (s.setBit F.SK_EVENT bit).follows_record k (by rw [recLen_skEvent]; decide)

/-- An event whose record fits the open block seals nothing. -/
theorem State.headHash_skEvent {s : State} {k : Nat} (h : (s.stream k).used + 20 ≤ payloadMax) (bit : Nat) :
    ((s.skEvent k bit).stream k).headHash = (s.stream k).headHash :=
  State.headHash_record (s := s.setBit F.SK_EVENT bit) (by rwa [recLen_skEvent])

/-! ### What every seal and record keeps -/

/-- A property that the elementary changes which seals, records and moves of stream `k` consist of keep. -/
structure StreamClosed (k : Nat) (I : State → Prop) : Prop where
  put : ∀ s x, I s → I (s.putStream k x)
  reg : ∀ s f v, f ∈ [F.SKS_SEQ, F.SKS_STATUS_RESIDENT, F.SKS_OVERWRITE, F.SKS_VISIBLE] → I s → I (s.wr f v k)
  burst : ∀ s, I s → I s.showBurst
  event : ∀ s bit, I s → I (s.setBit F.SK_EVENT bit)

namespace StreamClosed

variable {k : Nat} {I : State → Prop} {s : State} (hc : StreamClosed k I)
include hc

theorem placeBlock (h : I s) : I (s.placeBlock k) := by
  simp only [State.placeBlock]
  split
  · exact h
  · split
    · exact hc.reg _ _ _ (by simp) (hc.put _ _ h)
    · split
      · split
        · exact h
        · exact hc.event _ _ (hc.reg _ _ _ (by simp) (hc.put _ _ h))
      · exact h

theorem placeAll (h : I s) (n : Nat) : I (s.placeAll k n) := by
  induction n generalizing s with
  | zero => exact h
  | succ n ih => exact ih (hc.placeBlock h)

theorem noteOverwritten (h : I s) : I (s.noteOverwritten k) := by
  simp only [State.noteOverwritten]
  split
  · exact h
  · exact hc.put _ _ h

theorem sealed (h : I s) : I (s.seal k) := by
  by_cases hempty : (s.stream k).content = []
  · rwa [State.seal_of_empty hempty]
  · obtain ⟨b, hb⟩ := State.seal_of_content hempty
    rw [hb]
    exact hc.burst _ (hc.noteOverwritten (hc.placeBlock (hc.reg _ _ _ (by simp) (hc.put _ _ h))))

theorem putRec (h : I s) (r : SkRec) (fuel : Nat) : I (s.putRec k r fuel) := by
  induction fuel generalizing s r with
  | zero => exact h
  | succ fuel ih =>
    have hsealed : I (if payloadMax < (s.stream k).used + recLen r ∧ (s.stream k).used ≠ 0 then s.seal k else s) := by
      split
      · exact hc.sealed h
      · exact h
    simp only [State.putRec]
    generalize (if payloadMax < (s.stream k).used + recLen r ∧ (s.stream k).used ≠ 0 then s.seal k else s) = u at hsealed ⊢
    split
    · exact hc.put _ _ hsealed
    · exact ih (hc.put _ _ hsealed) _

theorem record (h : I s) (r : SkRec) : I (s.record k r) := by
  simp only [State.record]
  split
  · exact hc.put _ _ h
  · exact hc.putRec h _ _

theorem skEvent (h : I s) (bit : Nat) : I (s.skEvent k bit) := hc.record (hc.event _ _ h) _

end StreamClosed

/-- Event `bit` of the Skein is set. -/
def SkEventSet (bit : Nat) (s : State) : Prop := bitOf (s.rd F.SK_EVENT) bit = true

theorem closed_skEventSet {bit : Nat} {t : Touch} (h : t.has F.SK_EVENT.id = false) : Closed (SkEventSet bit) t :=
  closed_of_frame fun _ _ hf hs => (congrArg (bitOf · bit) (hf.rd h 0)).trans hs

/-- No seal and no record clears an event. -/
theorem streamClosed_skEventSet {bit : Nat} (hbit : bit < 8) (k : Nat) : StreamClosed k (SkEventSet bit) where
  put _ _ h := h
  reg s f v hf h := by
    have hother : (F.SK_EVENT.id == f.id) = false := by revert f; decide
    exact (congrArg (bitOf · bit) (s.rd_wr_field hother v k 0)).trans h
  burst _ h := keeps_showBurst (closed_skEventSet (by decide)) h
  event s b h := by
    have hset : (s.rd F.SK_EVENT).testBit bit = true := h
    have hwidth : bit < F.SK_EVENT.width := hbit
    rw [SkEventSet, State.rd_setBit_same, bitOf, Nat.testBit_mod_two_pow, withBit, Nat.testBit_or, hset, decide_eq_true hwidth]
    rfl

theorem State.skEventSet_skEvent (s : State) (k : Nat) {bit : Nat} (hbit : bit < 8) : SkEventSet bit (s.skEvent k bit) :=
  (streamClosed_skEventSet hbit k).record (bitOf_rd_setBit s F.SK_EVENT hbit 0) _

/-- Of the streams, only stream `k` has changed. -/
def StreamOnly (k : Nat) (r s : State) : Prop := OnlyAt 339 356 (fun s => s.skein.streams) k r s

theorem StreamOnly.stream {k j : Nat} {r s : State} (h : StreamOnly k r s) (hj : j ≠ k) : s.stream j = r.stream j := h.insts j hj _

theorem StreamOnly.closed {k : Nat} {r : State} {t : Touch} (h : (t.avoids 339 356 && !t.hasPart .skein) = true) : Closed (StreamOnly k r) t := by
  rw [Bool.and_eq_true, Bool.not_eq_true'] at h
  exact OnlyAt.closed h.1 fun _ _ hf => congrArg Skein.streams (hf.part (p := .skein) h.2)

theorem streamClosed_streamOnly (k : Nat) (r : State) : StreamClosed k (StreamOnly k r) where
  put _ x h := OnlyAt.put h x rfl rfl
  reg _ f v _ h := OnlyAt.wr h f v rfl
  burst _ h := keeps_showBurst (StreamOnly.closed (by decide +kernel)) h
  event _ _ h := keeps_setBit (StreamOnly.closed (by decide +kernel)) h _ _

end Sys2Proof.Machine
end

section
/-! PROOFS.  Samples, seals and checkpoints of the Skein (07 R172, R180, R182, R184). -/

namespace Sys2Proof.Machine

open Sys2Proof

set_option Elab.async false

/-! ### The value of a source (Table 7.1) -/

section
variable (s : State) (t : Instant)

@[simp] theorem State.advance_rings : (s.advance t).rings = s.rings := (frame_advance s t).part (p := .rings) rfl

@[simp] theorem State.advance_fio : (s.advance t).fio = s.fio := (frame_advance s t).part (p := .fio) rfl

@[simp] theorem State.ainOf_advance (n : Nat) : (s.advance t).ainOf n = s.ainOf n :=
  congrArg (fun x : Tbl Ain => x.get n Ain.init) ((frame_advance s t).part (p := .ain) rfl)

@[simp] theorem State.ring_advance (r : Nat) : (s.advance t).ring r = s.ring r := by
  simp only [State.ring, State.advance_rings]

@[simp] theorem State.ringIn_advance (r o : Nat) : (s.advance t).ringIn r o = s.ringIn r o := by
  simp only [State.ringIn, State.ring_advance]

@[simp] theorem State.cfg_advance (key off n : Nat) : (s.advance t).cfg key off n = s.cfg key off n := by
  simp only [State.cfg, State.recOf_advance]

@[simp] theorem State.outCmd_advance (k : Nat) : (s.advance t).outCmd k = s.outCmd k := by
  simp only [State.outCmd, State.cfg_advance, State.advance_fio, State.advance_loom]

@[simp] theorem State.statusNet_advance (p b : Nat) : (s.advance t).statusNet p b = s.statusNet p b := by
  simp only [State.statusNet, rd_advance s t (fld := F.CP_STATUS_STATE) (by decide), rd_advance s t (fld := F.TR_STATUS_STATE) (by decide),
    rd_advance s t (fld := F.LP_STATUS_APPLY_STATE) (by decide)]

@[simp] theorem State.netGated_advance (sel : Nat) : (s.advance t).netGated sel = s.netGated sel := by
  simp only [State.netGated, State.quadOn_advance]

@[simp] theorem State.net_advance (sel : Nat) : (s.advance t).net sel = s.net sel := by
  simp only [State.net, State.leOut, State.stationOk, State.ringIn_advance, State.outCmd_advance, State.statusNet_advance, State.advance_fio,
    rd_advance s t (fld := F.LE_NET) (by decide), s.on_advance t (f := F.RS_ST_STATUS_OK) (by decide), rd_advance s t (fld := F.LC_STATUS_LEVEL) (by decide)]

@[simp] theorem State.outLevel_advance (k : Nat) : (s.advance t).outLevel k = s.outLevel k := by
  simp only [State.outLevel, State.cfg_advance, State.netGated_advance, State.net_advance, State.outCmd_advance, State.advance_loom]

@[simp] theorem State.releasedByte_advance (r o : Nat) : (s.advance t).releasedByte r o = s.releasedByte r o := by
  simp only [State.releasedByte, State.ringBits, State.recsOf_advance, State.outLevel_advance, State.ring_advance]

/-- A field of a list whose fields are none of those that show the slew. -/
theorem State.rd_getD_advance {l : List Fld} (hl : ∀ f ∈ l, Touched.advance.has f.id = false) {d : Fld} (hd : Touched.advance.has d.id = false) (j i : Nat) :
    (s.advance t).rd (l.getD j d) i = s.rd (l.getD j d) i := by
  refine rd_advance s t ?_ i
  rw [List.getD_eq_getElem?_getD]
  cases hj : l[j]? with
  | none => exact hd
  | some f => exact hl f (List.mem_of_getElem? hj)

/-- No value that a tap can record moves with the Warp. -/
@[simp] theorem State.sourceValue_advance (kind signal id ring : Nat) : (s.advance t).sourceValue kind signal id ring = s.sourceValue kind signal id ring := by
  simp only [State.sourceValue, State.ainOf_advance, State.axis_advance, State.advance_fio, State.ringIn_advance, State.releasedByte_advance,
    rd_advance s t (fld := F.LC_STATUS_LEVEL) (by decide), rd_advance s t (fld := F.VR_VALUE) (by decide)]
  rw [s.rd_getD_advance t (by decide) (by decide), s.rd_getD_advance t (by decide) (by decide)]

end

/-! ### A sample of a tap (R172) -/

section
variable {t : Instant} {n : Fin 8192} {at_ : Instant} {data : Word} {s : State}

/-- A sample instant of a tap whose source shows its value. -/
theorem execTapSample_shown (hdue : (s.advance t).tapDue n at_ = true) (hstamped : s.rd F.TAP_SRC_KIND n ≠ 3) (hain : s.rd F.TAP_SRC_KIND n ≠ 4) :
    execTapSample t n at_ data s = .next ((s.advance t).takeTap n at_ (s.tapValue n)) := by
  rw [← rd_advance s t (fld := F.TAP_SRC_KIND) (by decide)] at hstamped hain
  have hvalue : (s.advance t).tapValue n = s.tapValue n := by
    simp only [State.tapValue, State.sourceValue_advance, rd_advance s t (fld := F.TAP_SRC_KIND) (by decide), rd_advance s t (fld := F.TAP_SRC_SIGNAL) (by decide),
      rd_advance s t (fld := F.TAP_SRC_ID) (by decide), rd_advance s t (fld := F.TAP_SRC_RING) (by decide)]
  rw [← hvalue]
  simp only [execTapSample, hdue, Bool.not_true, Bool.false_eq_true, if_false, if_neg hstamped, if_neg hain]
  rfl

/-- A sample that comes with its event. -/
theorem execTapSample_stamped (hdue : (s.advance t).tapDue n at_ = true) (hstamped : s.rd F.TAP_SRC_KIND n = 3) :
    execTapSample t n at_ data s = .next ((s.advance t).takeTap n at_ data) := by
  rw [← rd_advance s t (fld := F.TAP_SRC_KIND) (by decide)] at hstamped
  simp only [execTapSample, hdue, Bool.not_true, Bool.false_eq_true, if_false, hstamped, if_true, show ¬ (3 = 4) by decide]

end

/-- Under EVERY each sample is offered. -/
theorem State.takeTap_every {s : State} {n : Nat} (hpolicy : s.rd F.TAP_CFG_POLICY n = 1) (hstream : s.rd F.TAP_SRC_STREAM n < 17)
    (hbooted : s.rd F.HOST_STATUS_BOOTING = 0) (at_ : Instant) (v : Word) : s.takeTap n at_ v = s.offerSample (s.rd F.TAP_SRC_STREAM n) n at_ v := by
  have hopen : ¬ (17 ≤ s.rd F.TAP_SRC_STREAM n ∨ s.on F.HOST_STATUS_BOOTING = true) := by
    simp only [State.on, hbooted]
    simp
    omega
  simp only [State.takeTap, if_neg hopen, hpolicy]

/-- In SLEEP a burst buffer half full wakes the device (16 R403). -/
def State.wakeHalfFull (s : State) (k : Nat) : State := if s.rd F.PWR_STATUS_STATE = 2 ∧ s.quota k ≤ 2 * (s.stream k).held then s.internalWake 3 else s

theorem State.frame_wakeHalfFull (s : State) (k : Nat) : Frame Touched.internalWake s (s.wakeHalfFull k) := by
  unfold State.wakeHalfFull
  split
  · exact keeps_internalWake (closed_frame _ s) (Frame.refl _ s) 3
  · exact Frame.refl _ s

theorem State.offerSample_accepted {s : State} {k n : Nat} {at_ : Instant} {v : Word} (hgap : (s.stream k).gap = none) (hroom : s.discardCause k n at_ v = none) :
    s.offerSample k n at_ v = (s.putSample k n at_ v 0).showBurst.wakeHalfFull k := by
  simp only [State.offerSample, State.offerOne, hgap, hroom]
  rfl

theorem State.offerSample_discarded {s : State} {k n cause : Nat} {at_ : Instant} {v : Word} (hcause : s.discardCause k n at_ v = some cause) :
    s.offerSample k n at_ v = (s.dropSample k n cause at_).showBurst.wakeHalfFull k := by
  simp only [State.offerSample, State.offerOne, hcause, Option.isNone_some, Bool.and_false]
  rfl

/-! ### A sample recorded (R177) -/

/-- The last sample of some run is that of tap `n` at an instant. -/
def Stream.records (x : Stream) (n : Nat) (at_ : Instant) (v : Word) : Prop := x.runs.any (fun r => r.tap == n && r.lastT == at_ && r.lastV == v) = true

theorem Stream.records_iff (x : Stream) (n : Nat) (at_ : Instant) (v : Word) : x.records n at_ v ↔ ∃ r ∈ x.runs, r.tap = n ∧ r.lastT = at_ ∧ r.lastV = v := by
  simp [Stream.records, and_assoc]

theorem Stream.records_withSample (x : Stream) (now : Instant) (n : Nat) (timed : Bool) (step flags : Nat) (at_ : Instant) (v : Word) :
    (x.withSample now n timed step flags at_ v).records n at_ v := by
  rw [Stream.records_iff]
  simp only [Stream.withSample]
  split
  · rename_i r hfind
    have hr : r ∈ x.runs := List.mem_of_find?_eq_some hfind
    have htap : r.tap = n := by simpa using List.find?_some hfind
    split
    · exact ⟨r.add at_ v, List.mem_map.mpr ⟨r, hr, if_pos htap⟩, htap, rfl, rfl⟩
    · exact ⟨_, List.mem_append_right _ (List.mem_singleton_self _), rfl, rfl, rfl⟩
  · exact ⟨_, List.mem_append_right _ (List.mem_singleton_self _), rfl, rfl, rfl⟩

/-- A sample enters the open block, or the one that a seal opens for it. -/
theorem State.records_putSample (s : State) (k n : Nat) (at_ : Instant) (v : Word) (extra : Nat) : ((s.putSample k n at_ v extra).stream k).records n at_ v := by
  have hstream : ∃ x : Stream, (s.putSample k n at_ v extra).stream k = x.withSample s.now n (s.tapTimed n) (s.tapStep n) (s.sampleFlags n extra) at_ v := by
    simp only [State.putSample]
    split
    · exact ⟨_, s.stream_putStream_same k _⟩
    · exact ⟨_, (s.seal k).stream_putStream_same k _⟩
  obtain ⟨x, hx⟩ := hstream
  rw [hx]
  exact x.records_withSample _ _ _ _ _ _ _

/-! ### A sample discarded (R184) -/

/-- The gap that the first discarded sample begins. -/
def State.beginGap (s : State) (k cause : Nat) (at_ : Instant) : State :=
  match (s.stream k).gap with
  | some _ => s
  | none =>
    let u := s.each (s.tapsOf k) (fun s m => s.endRun k m)
    ((u.putStream k { u.stream k with gap := some ⟨at_, cause, []⟩ }).wr F.SKS_STATUS_GAP_OPEN 1 k).skEvent k 0

/-- The event of the first sample beyond the rate. -/
def State.noteRate (s : State) (k cause : Nat) : State := s.when (cause == 2 && !bitOf (s.rd F.SK_EVENT) 4) (·.skEvent k 4)

/-- A discarded sample counted for its stream. -/
def Stream.countDiscard (x : Stream) (n : Nat) : Stream := { x with gap := x.gap.map (fun g => { g with counts := countTap n g.counts }), discards := x.discards + 1 }

theorem State.dropSample_eq (s : State) (k n cause : Nat) (at_ : Instant) {u : State} (hu : (s.beginGap k cause at_).noteRate k cause = u) :
    s.dropSample k n cause at_ = ((u.putStream k ((u.stream k).countDiscard n)).bump F.SKS_DISCARD k).bump F.TAP_DISCARD n := by
  subst hu
  rfl

theorem State.discards_endRun (s : State) (k m : Nat) : ((s.endRun k m).stream k).discards = (s.stream k).discards := by
  rw [State.endRun, State.stream_putStream_same]

theorem State.discards_each_endRun (s : State) (k : Nat) (l : List Nat) : ((s.each l (fun s m => s.endRun k m)).stream k).discards = (s.stream k).discards :=
  Keeps.foldl (I := fun u => (u.stream k).discards = (s.stream k).discards) (fun u m hu => (u.discards_endRun k m).trans hu) l rfl

theorem State.discards_beginGap (s : State) (k cause : Nat) (at_ : Instant) : ((s.beginGap k cause at_).stream k).discards = (s.stream k).discards := by
  simp only [State.beginGap]
  split
  · rfl
  · rw [(State.follows_skEvent _ k 0).discards, State.stream_wr, State.stream_putStream_same]
    exact s.discards_each_endRun k _

theorem State.rd_beginGap (s : State) (k cause : Nat) (at_ : Instant) {f : Fld} (hf : Touched.skEvent.has f.id = false) (hgap : (f.id == F.SKS_STATUS_GAP_OPEN.id) = false)
    (i : Nat) : (s.beginGap k cause at_).rd f i = s.rd f i := by
  simp only [State.beginGap]
  split
  · rfl
  · rw [rd_skEvent _ _ _ hf, State.rd_wr_field _ hgap, rd_putStream _ _ _ rfl]
    exact State.rd_each_of_kept s (fun u m => rd_endRun u k m rfl i) _

theorem State.rd_gapOpen_beginGap {s : State} {k : Nat} (h : (s.stream k).gap = none) (cause : Nat) (at_ : Instant) :
    (s.beginGap k cause at_).rd F.SKS_STATUS_GAP_OPEN k = 1 := by
  simp only [State.beginGap, h]
  rw [rd_skEvent _ _ _ (by decide), State.rd_wr_same]
  rfl

theorem State.rd_noteRate (s : State) (k cause : Nat) {f : Fld} (hf : Touched.skEvent.has f.id = false) (i : Nat) : (s.noteRate k cause).rd f i = s.rd f i :=
  keeps_when (I := fun u => u.rd f i = s.rd f i) rfl _ _ fun u hu => (rd_skEvent u k 4 hf i).trans hu

theorem State.discards_noteRate (s : State) (k cause : Nat) : ((s.noteRate k cause).stream k).discards = (s.stream k).discards :=
  keeps_when (I := fun u => (u.stream k).discards = (s.stream k).discards) rfl _ _ fun u hu => (u.follows_skEvent k 4).discards.trans hu

/-- A discarded sample is counted for its stream and its tap, and the gap that it begins is shown. -/
theorem State.dropSample_counts (s : State) (k n cause : Nat) (at_ : Instant) :
    (s.dropSample k n cause at_).rd F.TAP_DISCARD n = min (s.rd F.TAP_DISCARD n + 1) (2 ^ F.TAP_DISCARD.width - 1) ∧
    ((s.dropSample k n cause at_).stream k).discards = (s.stream k).discards + 1 ∧
    ((s.stream k).gap = none → (s.dropSample k n cause at_).rd F.SKS_STATUS_GAP_OPEN k = 1) := by
  obtain ⟨u, hu⟩ : ∃ u, (s.beginGap k cause at_).noteRate k cause = u := ⟨_, rfl⟩
  rw [s.dropSample_eq k n cause at_ hu]
  refine ⟨?_, ?_, fun hgap => ?_⟩
  · rw [State.rd_bump_saturates, State.rd_bump_field _ _ _ _ (by decide), rd_putStream _ _ _ rfl, ← hu, State.rd_noteRate _ _ _ (by decide),
      State.rd_beginGap _ _ _ _ (by decide) (by decide)]
  · rw [State.stream_bump, State.stream_bump, State.stream_putStream_same, Stream.countDiscard, ← hu, State.discards_noteRate, State.discards_beginGap]
  · rw [State.rd_bump_field _ _ _ _ (by decide), State.rd_bump_field _ _ _ _ (by decide), rd_putStream _ _ _ rfl, ← hu, State.rd_noteRate _ _ _ (by decide),
      State.rd_gapOpen_beginGap hgap]

/-! ### A sample under EVERY -/

section
variable {s : State} {n k : Nat} {at_ : Instant} {v : Word} (hpolicy : s.rd F.TAP_CFG_POLICY n = 1) (hstream : s.rd F.TAP_SRC_STREAM n = k) (hk : k < 17)
  (hbooted : s.rd F.HOST_STATUS_BOOTING = 0)
include hpolicy hstream hk hbooted

theorem State.takeTap_records (hgap : (s.stream k).gap = none) (hroom : s.discardCause k n at_ v = none) :
    ((s.takeTap n at_ v).stream k).records n at_ v ∧ (s.takeTap n at_ v).rd F.TAP_DISCARD n = s.rd F.TAP_DISCARD n := by
  subst hstream
  have hframe := (s.putSample (s.rd F.TAP_SRC_STREAM n) n at_ v 0).showBurst.frame_wakeHalfFull (s.rd F.TAP_SRC_STREAM n)
  rw [State.takeTap_every hpolicy hk hbooted, State.offerSample_accepted hgap hroom, hframe.stream rfl, hframe.rd (by decide), State.stream_showBurst,
    rd_showBurst _ (by decide), rd_putSample _ _ _ _ _ _ (by decide)]
  exact ⟨s.records_putSample _ n at_ v 0, rfl⟩

theorem State.takeTap_discards (hnone : s.discardCause k n at_ v ≠ none) :
    (s.takeTap n at_ v).rd F.TAP_DISCARD n = min (s.rd F.TAP_DISCARD n + 1) (2 ^ F.TAP_DISCARD.width - 1) ∧
    ((s.takeTap n at_ v).stream k).discards = (s.stream k).discards + 1 ∧
    ((s.stream k).gap = none → (s.takeTap n at_ v).rd F.SKS_STATUS_GAP_OPEN k = 1) := by
  subst hstream
  obtain ⟨cause, hcause⟩ := Option.ne_none_iff_exists'.mp hnone
  have hframe := (s.dropSample (s.rd F.TAP_SRC_STREAM n) n cause at_).showBurst.frame_wakeHalfFull (s.rd F.TAP_SRC_STREAM n)
  rw [State.takeTap_every hpolicy hk hbooted, State.offerSample_discarded hcause, hframe.rd (by decide), hframe.rd (by decide), hframe.stream rfl,
    State.stream_showBurst, rd_showBurst _ (by decide), rd_showBurst _ (by decide)]
  exact s.dropSample_counts _ n cause at_

end

/-! ### Seals by age and by FLUSH (R180) -/

@[simp] theorem State.sealMs_advance (s : State) (t : Instant) : (s.advance t).sealMs = s.sealMs := by
  simp only [State.sealMs, rd_advance s t (fld := F.SK_CTRL) (by decide)]

theorem execBlockSeal_due {t : Instant} {k : Fin 17} {s : State} {o : Instant} (hopen : (s.stream k).openAt = some o)
    (hdue : notLater (addNs o (1000000 * s.sealMs)) (s.advance t).now = true) : execBlockSeal t k s = .next ((s.advance t).seal k) := by
  simp only [execBlockSeal, State.stream_advance, hopen, State.sealMs_advance, hdue, if_true]

theorem execFlush_admitted {t : Instant} {k : Fin 17} {s : State} (h : s.admits (0x501000 + 0x80 * k) = true) : execFlush t k s = .next ((s.advance t).seal k) :=
  congrArg Host.Outcome.next (State.hostWrite_stream t (by omega) (by omega) h _)

/-- A seal raises SEQ and leaves no run open, once the Warp has moved. -/
theorem State.seal_advance_shows {s : State} (t : Instant) {k : Nat} (h : (s.stream k).content ≠ []) :
    ((s.advance t).seal k).rd F.SKS_SEQ k = (s.rd F.SKS_SEQ k + 1) % 2 ^ F.SKS_SEQ.width ∧ (((s.advance t).seal k).stream k).runs = [] ∧
    (((s.advance t).seal k).stream k).everSealed = true := by
  rw [← s.stream_advance t] at h
  have hsealed := State.sealedTo_seal h
  refine ⟨?_, hsealed.runs, hsealed.everSealed⟩
  rw [State.rd_seq_seal h, rd_advance s t (by decide)]

/-! ### Checkpoints asked for (R182) -/

/-- The stream sealed, its bytes exported in the second shown and counted anew. -/
def State.checkpointBase (s : State) (k : Nat) : State :=
  ((s.seal k).wr F.SKS_OUT_AVG (((s.seal k).stream k).outBytes / 1024) k).putStream k { (s.seal k).stream k with outBytes := 0 }

/-- The event of a checkpoint that still waits. -/
def State.checkpointLate (s : State) (k : Nat) : State :=
  if ((s.seal k).stream k).ckpts.isEmpty then s.checkpointBase k else (s.checkpointBase k).skEvent k 5

/-- The checkpoint that is to be signed. -/
def State.newCkpt (s : State) (k : Nat) : Ckpt :=
  ⟨(s.checkpointLate k).now, (s.checkpointLate k).rd F.SKS_SEQ k - 1, ((s.seal k).stream k).headHash, ((s.seal k).stream k).discards⟩

/-- Checkpoints that wait for their signatures. -/
def State.queueCkpts (s : State) (k : Nat) (l : List Ckpt) : State := (s.putStream k { s.stream k with ckpts := l }).wr F.SK_STATUS_CKPT_PENDING 1

theorem State.checkpoint_eq (s : State) (k : Nat) : s.checkpoint k =
    if !((s.seal k).stream k).everSealed then s.checkpointBase k else (s.checkpointLate k).queueCkpts k (((s.seal k).stream k).ckpts ++ [s.newCkpt k]) := rfl

theorem State.frame_checkpointLate (s : State) (k : Nat) : Frame Touched.checkpoint s (s.checkpointLate k) := by
  have hclosed := closed_frame Touched.checkpoint s
  have hbase : Frame Touched.checkpoint s (s.checkpointBase k) :=
    keeps_putStream (hclosed.mono (by decide +kernel)) (keeps_wr (hclosed.mono (by decide +kernel)) (keeps_seal (hclosed.mono (by decide +kernel)) (Frame.refl _ s) k) _ _) k _
  unfold State.checkpointLate
  split
  · exact hbase
  · exact keeps_skEvent (hclosed.mono (by decide +kernel)) hbase k 5

theorem State.at_newCkpt (s : State) (k : Nat) : (s.newCkpt k).at_ = s.now := (s.frame_checkpointLate k).now rfl

/-- The event of a late checkpoint fits the block just opened, so the head stays. -/
theorem State.headHash_checkpointLate (s : State) (k : Nat) : ((s.checkpointLate k).stream k).headHash = ((s.seal k).stream k).headHash := by
  have hbase : (s.checkpointBase k).stream k = { (s.seal k).stream k with outBytes := 0 } := State.stream_putStream_same _ _ _
  unfold State.checkpointLate
  split
  · rw [hbase]
  · have hused : ((s.checkpointBase k).stream k).used ≤ overwriteBytes := by
      rw [hbase]
      exact s.used_seal k
    rw [State.headHash_skEvent (Nat.le_trans (Nat.add_le_add_right hused 20) (by decide)), hbase]

theorem State.streamOnly_checkpoint (s : State) (k : Nat) : StreamOnly k s (s.checkpoint k) := by
  have hc := streamClosed_streamOnly k s
  have hsealed : StreamOnly k s (s.seal k) := hc.sealed (OnlyAt.refl s)
  have hbase : StreamOnly k s (s.checkpointBase k) := hc.put _ _ (OnlyAt.wr hsealed _ _ rfl)
  have hlate : StreamOnly k s (s.checkpointLate k) := by
    unfold State.checkpointLate
    split
    · exact hbase
    · exact hc.skEvent hbase 5
  rw [State.checkpoint_eq]
  split
  · exact hbase
  · exact keeps_wr (StreamOnly.closed (by decide +kernel)) (hc.put _ _ hlate) _ _

/-- A checkpoint of stream `k` at instant `t` has been asked for behind those of stream `x`. -/
structure State.Asks (s : State) (k : Nat) (x : Stream) (t : Instant) : Prop where
  pending : s.rd F.SK_STATUS_CKPT_PENDING = 1
  queued : ∃ c, (s.stream k).ckpts = x.ckpts ++ [c] ∧ c.at_ = t ∧ c.headHash = (s.stream k).headHash

theorem State.everSealed_seal {s : State} {k : Nat} (h : (s.stream k).everSealed = true) : ((s.seal k).stream k).everSealed = true := by
  by_cases hempty : (s.stream k).content = []
  · rwa [State.seal_of_empty hempty]
  · exact (State.sealedTo_seal hempty).everSealed

theorem State.asks_checkpoint {s : State} {k : Nat} (h : (s.stream k).everSealed = true) : (s.checkpoint k).Asks k (s.stream k) s.now := by
  rw [State.checkpoint_eq, if_neg (by simp [State.everSealed_seal h]), State.queueCkpts]
  refine ⟨State.rd_wr_same _ _ _ _, s.newCkpt k, ?_, s.at_newCkpt k, ?_⟩
  · rw [State.stream_wr, State.stream_putStream_same, (s.follows_seal k).ckpts]
  · rw [State.stream_wr, State.stream_putStream_same, State.headHash_checkpointLate]
    rfl

theorem State.pending_checkpoint {s : State} (h : s.rd F.SK_STATUS_CKPT_PENDING = 1) (k : Nat) : (s.checkpoint k).rd F.SK_STATUS_CKPT_PENDING = 1 := by
  rw [State.checkpoint_eq]
  split
  · rw [State.checkpointBase, rd_putStream _ _ _ rfl, State.rd_wr_field _ (by decide), rd_seal _ _ (by decide), h]
  · exact State.rd_wr_same _ _ _ _

theorem State.Asks.checkpoint_other {s : State} {k j : Nat} {x : Stream} {t : Instant} (h : s.Asks k x t) (hj : j ≠ k) : (s.checkpoint j).Asks k x t := by
  refine ⟨State.pending_checkpoint h.pending j, ?_⟩
  rw [(s.streamOnly_checkpoint j).stream hj.symm]
  exact h.queued

theorem State.now_checkpoint (s : State) (k : Nat) : (s.checkpoint k).now = s.now :=
  (keeps_checkpoint (closed_frame _ s) (Frame.refl _ s) k).now rfl

theorem State.Asks.each_checkpoint {s : State} {k : Nat} {x : Stream} {t : Instant} (h : s.Asks k x t) {l : List Nat} (hl : k ∉ l) :
    (s.each l State.checkpoint).Asks k x t :=
  Keeps.foldlMem (I := fun u => u.Asks k x t) l (fun _ _ hj hu => State.Asks.checkpoint_other hu (ne_of_mem_of_not_mem hj hl)) h

/-- Of the streams of a list each asks for one checkpoint. -/
theorem State.asks_each_checkpoint {l : List Nat} (hnodup : l.Nodup) {k : Nat} (hk : k ∈ l) {s : State} (h : (s.stream k).everSealed = true) :
    (s.each l State.checkpoint).Asks k (s.stream k) s.now := by
  induction l generalizing s with
  | nil => cases hk
  | cons j l ih =>
    obtain ⟨hj, hl⟩ := List.nodup_cons.mp hnodup
    by_cases hjk : j = k
    · subst hjk
      exact (State.asks_checkpoint h).each_checkpoint hj
    · have hsame : (s.checkpoint j).stream k = s.stream k := (s.streamOnly_checkpoint j).stream (Ne.symm hjk)
      have hrest := ih hl ((List.mem_cons.mp hk).resolve_left (Ne.symm hjk)) (s := s.checkpoint j) (by rwa [hsame])
      rwa [hsame, State.now_checkpoint] at hrest

/-- The samples of the second shown and counted anew. -/
def State.restartRate (s : State) : State := { s.wr F.SK_RATE_AVG s.skein.rateSecond with skein := { s.skein with rateSecond := 0 } }

theorem execSkeinCheckpoint_whole {t : Instant} {s : State} (h : onGrid 1000000000 0 (s.advance t).now = true) :
    execSkeinCheckpoint t s = .next ((s.advance t).restartRate.each (List.range 17) State.checkpoint) := by
  simp only [execSkeinCheckpoint, h, if_true]
  rfl

/-! ### A signed checkpoint (R182) -/

/-- The CHECKPOINT record of a stream. -/
def ckptRec (k epoch : Nat) (c : Ckpt) : SkRec :=
  { kind := 8, flags := 0, body := ckptBody k epoch c ++ sign sealingKey (ckptBody k epoch c), first := c.at_, last := c.at_, samples := [] }

theorem recLen_ckptRec (k epoch : Nat) (c : Ckpt) : recLen (ckptRec k epoch c) = 180 := by
  simp [recLen, ckptRec, ckptBody, sign, length_leBytes]

/-- A checkpoint that its signature ends, its record in the stream. -/
def State.recordCkpt (s : State) (k : Nat) (c : Ckpt) (rest : List Ckpt) : State :=
  (s.putStream k { s.stream k with ckpts := rest }).record k (ckptRec k (s.rd F.SK_EPOCH) c)

theorem execCheckpointSigned_waiting {t : Instant} {k : Fin 17} {s : State} {c : Ckpt} {rest : List Ckpt} (h : (s.stream k).ckpts = c :: rest) :
    ∃ u, execCheckpointSigned t k s = .next u ∧ ∀ j, u.stream j = ((s.advance t).recordCkpt k c rest).stream j := by
  rw [← s.stream_advance t] at h
  simp only [execCheckpointSigned, h]
  refine ⟨_, rfl, fun j => ?_⟩
  split <;> rfl

theorem State.stream_recordCkpt {s : State} {k : Nat} {c : Ckpt} {rest : List Ckpt} (hbooted : s.on F.HOST_STATUS_BOOTING = false) :
    ((s.recordCkpt k c rest).stream k).ckpts = rest ∧ ∃ r, ((s.recordCkpt k c rest).stream k).recs.getLast? = some r ∧ r.kind = 8 ∧ r.first = c.at_ ∧
    r.body = ckptBody k (s.rd F.SK_EPOCH) c ++ sign sealingKey (ckptBody k (s.rd F.SK_EPOCH) c) := by
  have hlen : recLen (ckptRec k (s.rd F.SK_EPOCH) c) + overwriteBytes ≤ payloadMax := by rw [recLen_ckptRec]; decide
  have hfollows := (s.putStream k { s.stream k with ckpts := rest }).follows_record k hlen
  obtain ⟨u, -, hu⟩ := State.record_booted_short (s := s.putStream k { s.stream k with ckpts := rest }) (k := k) hbooted hlen
  refine ⟨hfollows.ckpts.trans (congrArg Stream.ckpts (State.stream_putStream_same _ _ _)),
    (s.putStream k { s.stream k with ckpts := rest }).flagged (ckptRec k (s.rd F.SK_EPOCH) c), ?_, rfl, rfl, rfl⟩
  rw [State.recordCkpt, hu, State.appendRec, State.stream_putStream_same]
  exact List.getLast?_concat

/-! ### The statement -/

/-- Settles O31. -/
theorem samplesBlocksAndCheckpointsOfTheSkein : Obligations.SamplesBlocksAndCheckpointsOfTheSkein := by
  unfold Obligations.SamplesBlocksAndCheckpointsOfTheSkein
  refine ⟨?recorded, ?discarded, ?age, ?flush, ?asked, ?signed⟩
  case recorded =>
    intro t n at_ data s hdue hstamped hain hpolicy hstream hbooted hgap _ hroom
    rw [← rd_advance s t (by decide)] at hpolicy hbooted
    rw [← s.stream_advance t] at hgap
    obtain ⟨hrecords, hcount⟩ := State.takeTap_records hpolicy (rd_advance s t (by decide) n) hstream hbooted hgap hroom
    exact ⟨_, execTapSample_shown hdue hstamped hain, hrecords, hcount.trans (rd_advance s t (by decide) n)⟩
  case discarded =>
    intro t n at_ data s hdue hstamped hpolicy hstream hbooted hcause
    rw [← rd_advance s t (by decide)] at hpolicy hbooted
    have hcounts := State.takeTap_discards hpolicy (rd_advance s t (by decide) n) hstream hbooted hcause
    rw [rd_advance s t (by decide), s.stream_advance t] at hcounts
    exact ⟨_, execTapSample_stamped hdue hstamped, hcounts⟩
  case age =>
    intro t k s o hopen hdue hcontent
    exact ⟨_, execBlockSeal_due hopen hdue, State.seal_advance_shows t hcontent⟩
  case flush =>
    intro t k s hadm hcontent
    exact ⟨_, execFlush_admitted hadm, State.seal_advance_shows t hcontent⟩
  case asked =>
    intro t s k hwhole hever
    have hsame : (s.advance t).restartRate.stream k = s.stream k := s.stream_advance t k
    obtain ⟨hpending, c, hckpts, hat, hhash⟩ := State.asks_each_checkpoint List.nodup_range (List.mem_range.mpr k.isLt) (s := (s.advance t).restartRate) (by rwa [hsame])
    refine ⟨_, execSkeinCheckpoint_whole hwhole, hpending, ?_, ?_⟩
    · rw [hckpts, hsame, List.length_append]
      rfl
    · rw [hckpts, List.getLast?_concat, Option.any_some, hat, hhash]
      simp [State.restartRate, State.now]
  case signed =>
    intro t k s c rest hckpts hbooted
    obtain ⟨u, hu, hstream⟩ := execCheckpointSigned_waiting (t := t) hckpts
    obtain ⟨hrest, r, hlast, hkind, hfirst, hbody⟩ := State.stream_recordCkpt (s := s.advance t) (k := k) (c := c) (rest := rest)
      (by rw [s.on_advance t (by decide)]; simp [State.on, hbooted])
    rw [rd_advance s t (by decide)] at hbody
    refine ⟨u, hu, (congrArg Stream.ckpts (hstream k)).trans hrest, ?_⟩
    rw [hstream, hlast, Option.any_some, hkind, hfirst, hbody]
    simp

end Sys2Proof.Machine
end

section
/-! PROOFS.  The region of a stream, what it exports and what is consumed of it (07 R181, R186 to R188). -/

namespace Sys2Proof.Machine

open Sys2Proof

set_option Elab.async false

/-! ### Slots made visible (R186) -/

theorem mem_showBlocks_of_ne_written {l : List SkSlot} {e : SkSlot} (he : e ∈ l) (hp : e.phase ≠ .written) : e ∈ showBlocks l := by
  induction l with
  | nil => cases he
  | cons a l ih =>
    simp only [showBlocks]
    split
    · exact he
    · rcases List.mem_cons.mp he with rfl | he
      · rw [if_neg hp]
        exact List.mem_cons_self
      · exact List.mem_cons_of_mem _ (ih he)

/-- A slot that is shown stood there, or has just become visible. -/
theorem of_mem_showBlocks {l : List SkSlot} {f : SkSlot} (hf : f ∈ showBlocks l) :
    f ∈ l ∨ f.phase = .visible ∧ ∃ e ∈ l, e.block.seq = f.block.seq ∧ e.phase = .written := by
  induction l with
  | nil => cases hf
  | cons a l ih =>
    simp only [showBlocks] at hf
    split at hf
    · exact .inl hf
    · rcases List.mem_cons.mp hf with rfl | hf
      · split
        · rename_i hp
          exact .inr ⟨rfl, a, List.mem_cons_self, rfl, hp⟩
        · exact .inl List.mem_cons_self
      · exact (ih hf).imp (List.mem_cons_of_mem _) fun ⟨hv, e, he, hrest⟩ => ⟨hv, e, List.mem_cons_of_mem _ he, hrest⟩

/-- A slot that is not being written is not being written after others have become visible. -/
theorem exists_mem_showBlocks {l : List SkSlot} {e : SkSlot} (he : e ∈ l) (hp : e.phase ≠ .writing) :
    ∃ f ∈ showBlocks l, f.block.seq = e.block.seq ∧ f.phase ≠ .writing := by
  induction l with
  | nil => cases he
  | cons a l ih =>
    simp only [showBlocks]
    split
    · exact ⟨e, he, rfl, hp⟩
    · rcases List.mem_cons.mp he with rfl | he
      · refine ⟨_, List.mem_cons_self, ?_⟩
        split
        · exact ⟨rfl, by simp⟩
        · exact ⟨rfl, hp⟩
      · obtain ⟨f, hf, hrest⟩ := ih he
        exact ⟨f, List.mem_cons_of_mem _ hf, hrest⟩

/-! ### Exporting begun (R187) -/

/-- A slot after the exporting of block `seq` has begun. -/
def SkSlot.exported (seq : Nat) (e : SkSlot) : SkSlot := if e.block.seq = seq then { e with phase := .exporting } else e

theorem SkSlot.exported_cases (seq : Nat) (e : SkSlot) : (e.exported seq).block.seq = e.block.seq ∧ ((e.exported seq).phase = e.phase ∨ (e.exported seq).phase = .exporting) := by
  unfold SkSlot.exported
  split
  · exact ⟨rfl, .inr rfl⟩
  · exact ⟨rfl, .inl rfl⟩

/-- Region `m` is region `l`, or the exporting of a visible block has begun in it. -/
def Exports (l m : List SkSlot) : Prop := m = l ∨ ∃ v ∈ l, v.phase = .visible ∧ m = l.map (SkSlot.exported v.block.seq)

/-- A slot whose SEQ no visible block has stays. -/
theorem Exports.mem {l m : List SkSlot} (h : Exports l m) {e : SkSlot} (he : e ∈ l) (hnone : ∀ v ∈ l, v.phase = .visible → e.block.seq ≠ v.block.seq) : e ∈ m := by
  rcases h with rfl | ⟨v, hv, hvisible, rfl⟩
  · exact he
  · exact List.mem_map.mpr ⟨e, he, if_neg (hnone v hv hvisible)⟩

theorem Exports.exists_mem {l m : List SkSlot} (h : Exports l m) {e : SkSlot} (he : e ∈ l) (hp : e.phase ≠ .writing) :
    ∃ f ∈ m, f.block.seq = e.block.seq ∧ f.phase ≠ .writing := by
  rcases h with rfl | ⟨v, -, -, rfl⟩
  · exact ⟨e, he, rfl, hp⟩
  · obtain ⟨hseq, hphase⟩ := e.exported_cases v.block.seq
    refine ⟨_, List.mem_map_of_mem he, hseq, ?_⟩
    rcases hphase with hphase | hphase <;> rw [hphase]
    · exact hp
    · decide

theorem State.stream_startExport (s : State) (k : Nat) : ∃ region, (s.startExport k).stream k = { s.stream k with region := region } ∧ Exports (s.stream k).region region := by
  simp only [State.startExport]
  split
  · exact ⟨_, rfl, .inl rfl⟩
  · split
    · rename_i v hfind
      exact ⟨_, State.stream_putStream_same _ _ _, .inr ⟨v, List.mem_of_find?_eq_some hfind, by simpa using List.find?_some hfind, rfl⟩⟩
    · exact ⟨_, rfl, .inl rfl⟩

/-! ### What follows a change of a region -/

/-- The blocks made visible, and the SEQ of the last one shown. -/
def State.showRegion (s : State) (k : Nat) : State :=
  let x := s.stream k
  let seen := (showBlocks x.region).takeWhile (fun e => e.phase != .writing)
  let u := s.putStream k { x with region := showBlocks x.region, shown := x.shown || !seen.isEmpty }
  match seen.getLast? with
  | some e => u.wr F.SKS_VISIBLE (max (u.rd F.SKS_VISIBLE k) e.block.seq) k
  | none => u

/-- Waiting blocks moved into the region. -/
def State.fillRegion (s : State) (k n : Nat) : State := (s.placeAll k n).wr F.SKS_STATUS_RESIDENT (((s.placeAll k n).stream k).resident) k

theorem State.refreshRegion_eq (s : State) (k : Nat) :
    s.refreshRegion k = (((s.showRegion k).fillRegion k (s.stream k).burst.length).startExport k).showBurst := rfl

theorem State.stream_showRegion (s : State) (k : Nat) : ∃ shown, (s.showRegion k).stream k = { s.stream k with region := showBlocks (s.stream k).region, shown := shown } := by
  simp only [State.showRegion]
  split
  · exact ⟨_, State.stream_putStream_same _ _ _⟩
  · exact ⟨_, State.stream_putStream_same _ _ _⟩

/-- Stream `y` is stream `x` after what follows a change of its region. -/
structure Stream.Refreshed (x y : Stream) : Prop where
  region : ∃ placed, RegionGrows (showBlocks x.region) placed ∧ (x.burst = [] → placed = showBlocks x.region) ∧ Exports placed y.region
  ring : y.ring = x.ring
  outBytes : y.outBytes = x.outBytes

theorem State.refreshed_refreshRegion (s : State) (k : Nat) : (s.stream k).Refreshed ((s.refreshRegion k).stream k) := by
  obtain ⟨shown, hshown⟩ := s.stream_showRegion k
  obtain ⟨burst, placed, overwritten, hplaced, hgrows⟩ := (s.showRegion k).stream_placeAll k (s.stream k).burst.length
  obtain ⟨region, hregion, hexports⟩ := ((s.showRegion k).fillRegion k (s.stream k).burst.length).stream_startExport k
  have hfilled : ((s.showRegion k).fillRegion k (s.stream k).burst.length).stream k = ((s.showRegion k).stream k).moved burst placed overwritten := hplaced
  rw [hfilled, hshown] at hregion hexports
  rw [hshown] at hgrows
  rw [State.refreshRegion_eq, State.stream_showBurst, hregion]
  refine ⟨⟨placed, hgrows, fun hburst => ?_, hexports⟩, rfl, rfl⟩
  rw [hburst, List.length_nil, State.placeAll, hshown] at hplaced
  exact (congrArg Stream.region hplaced).symm

/-- A slot that is being written, or a consumed one while no block waits, stays where its SEQ is in no other phase. -/
theorem Stream.Refreshed.mem {x y : Stream} (h : x.Refreshed y) {e : SkSlot} (he : e ∈ x.region) (hp : e.phase = .writing ∨ e.phase = .consumed ∧ x.burst = [])
    (hall : ∀ f ∈ x.region, f.block.seq = e.block.seq → f.phase = e.phase) : e ∈ y.region := by
  obtain ⟨placed, hgrows, hstill, hexports⟩ := h.region
  have hshown : e.phase ≠ .written ∧ e.phase ≠ .visible := by rcases hp with hp | ⟨hp, -⟩ <;> simp [hp]
  have hmem : e ∈ showBlocks x.region := mem_showBlocks_of_ne_written he hshown.1
  have hplaced : e ∈ placed := by
    rcases hp with hp | ⟨-, hburst⟩
    · exact hgrows.stays e hmem hp
    · rwa [hstill hburst]
  refine hexports.mem hplaced fun v hv hvisible hseq => ?_
  have hold : v ∈ showBlocks x.region := (hgrows.new v hv).resolve_right (by simp [hvisible])
  rcases of_mem_showBlocks hold with hv | ⟨-, f, hf, hfseq, hfphase⟩
  · exact hshown.2 ((hall v hv hseq.symm).symm.trans hvisible)
  · exact hshown.1 ((hall f hf (hfseq.trans hseq.symm)).symm.trans hfphase)

/-- A slot that is not being written is none after the region has been refreshed, while no block waits. -/
theorem Stream.Refreshed.exists_mem {x y : Stream} (h : x.Refreshed y) (hburst : x.burst = []) {e : SkSlot} (he : e ∈ x.region) (hp : e.phase ≠ .writing) :
    ∃ f ∈ y.region, f.block.seq = e.block.seq ∧ f.phase ≠ .writing := by
  obtain ⟨placed, -, hstill, hexports⟩ := h.region
  obtain ⟨f, hf, hseq, hphase⟩ := exists_mem_showBlocks he hp
  rw [← hstill hburst] at hf
  obtain ⟨g, hg, hgseq, hgphase⟩ := hexports.exists_mem hf hphase
  exact ⟨g, hg, hgseq.trans hseq, hgphase⟩

theorem StreamClosed.refreshRegion {k : Nat} {I : State → Prop} {s : State} (hc : StreamClosed k I) (h : I s) : I (s.refreshRegion k) := by
  have hshown : I (s.showRegion k) := by
    simp only [State.showRegion]
    split
    · exact hc.reg _ _ _ (by simp) (hc.put _ _ h)
    · exact hc.put _ _ h
  have hfilled : I ((s.showRegion k).fillRegion k (s.stream k).burst.length) := hc.reg _ _ _ (by simp) (hc.placeAll hshown _)
  rw [State.refreshRegion_eq]
  refine hc.burst _ ?_
  simp only [State.startExport]
  split
  · exact hfilled
  · split
    · exact hc.put _ _ hfilled
    · exact hfilled

/-! ### A block read back (R186) -/

/-- The interrupt of a block that is written, and whether a block is being retried. -/
def State.noteSlot (s : State) (k seq : Nat) : State :=
  let u := if ((s.stream k).region.find? (fun e => e.block.seq == seq && e.phase == .written)).isSome then s.interrupt (17 + k) else s
  u.wr F.SKS_STATUS_RETRYING (b2n ((u.stream k).region.any (fun e => e.phase == .writing && e.retries != 0))) k

def Touched.noteSlot : Touch := { regs := [F.MSIX_PBA, F.SKS_STATUS_RETRYING], parts := [.host] }

theorem State.frame_noteSlot (s : State) (k seq : Nat) : Frame Touched.noteSlot s (s.noteSlot k seq) := by
  have hclosed := closed_frame Touched.noteSlot s
  refine keeps_wr (hclosed.mono (by decide +kernel)) ?_ _ _
  exact Keeps.ite (keeps_interrupt (hclosed.mono (by decide +kernel)) (Frame.refl _ s) _) (Frame.refl _ s)

theorem State.rd_retrying_noteSlot (s : State) (k seq : Nat) :
    (s.noteSlot k seq).rd F.SKS_STATUS_RETRYING k = b2n ((s.stream k).region.any (fun e => e.phase == .writing && e.retries != 0)) := by
  have hstream (c : Prop) [Decidable c] : (if c then s.interrupt (17 + k) else s).stream k = s.stream k := by
    split
    · exact (keeps_interrupt (closed_frame _ s) (Frame.refl _ s) _).stream rfl k
    · rfl
  simp only [State.noteSlot, State.rd_wr_same, hstream]
  exact b2n_mod_two_pow (by decide) _

/-- What follows the end of a block's write. -/
def State.settleSlot (s : State) (k seq : Nat) : State := (s.noteSlot k seq).refreshRegion k

theorem State.refreshed_settleSlot (s : State) (k seq : Nat) : (s.stream k).Refreshed ((s.settleSlot k seq).stream k) := by
  rw [← (s.frame_noteSlot k seq).stream rfl k]
  exact (s.noteSlot k seq).refreshed_refreshRegion k

theorem State.dram_settleSlot (s : State) (k seq : Nat) : (s.settleSlot k seq).dram = s.dram :=
  Eq.trans ((keeps_refreshRegion (closed_frame _ _) (Frame.refl _ _) k).part (p := .dram) rfl) ((s.frame_noteSlot k seq).part (p := .dram) rfl)

theorem State.rd_settleSlot (s : State) (k seq : Nat) {f : Fld} (hn : Touched.noteSlot.has f.id = false) (hr : Touched.refreshRegion.has f.id = false) (i : Nat) :
    (s.settleSlot k seq).rd f i = s.rd f i := (rd_refreshRegion _ k hr i).trans ((s.frame_noteSlot k seq).rd hn i)

theorem State.skEventSet_settleSlot {s : State} {bit : Nat} (hbit : bit < 8) (h : SkEventSet bit s) (k seq : Nat) : SkEventSet bit (s.settleSlot k seq) :=
  (streamClosed_skEventSet hbit k).refreshRegion (Eq.trans (congrArg (bitOf · bit) ((s.frame_noteSlot k seq).rd (by decide) 0)) h)

theorem State.dram_skEvent (s : State) (k bit : Nat) : (s.skEvent k bit).dram = s.dram :=
  (keeps_skEvent (closed_frame _ s) (Frame.refl _ s) k bit).part (p := .dram) rfl

@[simp] theorem State.slotAddr_advance (s : State) (t : Instant) (k seq : Nat) : (s.advance t).slotAddr k seq = s.slotAddr k seq := by
  simp only [State.slotAddr, rd_advance s t (fld := F.SKS_REGION) (by decide), rd_advance s t (fld := F.SKS_REGION_SIZE) (by decide)]

theorem State.stream_storeBlock (s : State) (k : Nat) (b : SkBlock) (j : Nat) : (s.storeBlock k b).stream j = s.stream j :=
  (keeps_storeBlock (closed_frame _ s) (Frame.refl _ s) k b).stream rfl j

theorem State.stream_reply (s : State) (r : Int) (j : Nat) : (s.reply r).stream j = s.stream j :=
  (keeps_reply (closed_frame _ s) (Frame.refl _ s) r []).stream rfl j

theorem State.dram_storeBlock_advance (s : State) (t : Instant) (k : Nat) (b : SkBlock) :
    ((s.advance t).storeBlock k b).dram = s.dram.writeBytes (s.slotAddr k b.seq) (blockBytes k b) := by
  rw [State.storeBlock, State.slotAddr_advance, State.advance_dram]

theorem State.recFlags_advance (s : State) (t : Instant) : (s.advance t).recFlags = s.recFlags := by
  simp only [State.recFlags, s.on_advance t (f := F.SEC_STATUS_DEBUG_LEVEL) (by decide), rd_advance s t (fld := F.WARP_STATUS_COARSE) (by decide)]

/-- A slot of a region whose slots with a SEQ are changed by `f`. -/
theorem State.mem_onSlot {s : State} {k seq : Nat} {f : SkSlot → SkSlot} {e : SkSlot} (he : e ∈ (s.stream k).region) (hseq : e.block.seq = seq) :
    f e ∈ ((s.onSlot k seq f).stream k).region := by
  rw [State.onSlot, State.stream_putStream_same]
  exact List.mem_map.mpr ⟨e, he, if_pos hseq⟩

theorem State.of_mem_onSlot {s : State} {k seq : Nat} {f : SkSlot → SkSlot} {g : SkSlot}
    (hg : g ∈ ((s.onSlot k seq f).stream k).region) (hseq : g.block.seq = seq) : ∃ e ∈ (s.stream k).region, e.block.seq = seq ∧ g = f e := by
  rw [State.onSlot, State.stream_putStream_same] at hg
  obtain ⟨e, he, rfl⟩ := List.mem_map.mp hg
  by_cases h : e.block.seq = seq
  · exact ⟨e, he, h, if_pos h⟩
  · rw [if_neg h] at hseq
    exact absurd hseq h

theorem State.dram_onSlot (s : State) (k seq : Nat) (f : SkSlot → SkSlot) : (s.onSlot k seq f).dram = s.dram := rfl

/-- Blocks that wait are not moved by a change of a slot. -/
theorem State.burst_onSlot (s : State) (k seq : Nat) (f : SkSlot → SkSlot) : ((s.onSlot k seq f).stream k).burst = (s.stream k).burst := by
  rw [State.onSlot, State.stream_putStream_same]

/-- The slot of a block that is written, one that is written again, the slot of a LOST block, and one that is consumed. -/
def SkSlot.written (e : SkSlot) : SkSlot := { e with phase := .written }

def SkSlot.retried (e : SkSlot) : SkSlot := { e with retries := e.retries + 1 }

def SkSlot.lost (b : SkBlock) (e : SkSlot) : SkSlot := { e with block := b, phase := .written }

def SkSlot.consumed (e : SkSlot) : SkSlot := { e with phase := .consumed }

section
variable {t : Instant} {k : Fin 17} {seq : BitVec 64} {s : State} {e : SkSlot}
  (hfind : (s.stream k).region.find? (fun e => e.block.seq == seq.toNat && e.phase == .writing) = some e)
include hfind

theorem slot_of_find : e ∈ (s.stream k).region ∧ e.block.seq = seq.toNat ∧ e.phase = .writing := by
  have hp := List.find?_some hfind
  simp only [Bool.and_eq_true, beq_iff_eq] at hp
  exact ⟨List.mem_of_find?_eq_some hfind, hp⟩

/-- The slot whose block has been read back good. -/
theorem execBlockWriteDone_good : execBlockWriteDone t k seq true s =
    .next ((((s.advance t).storeBlock k e.block).onSlot k seq.toNat SkSlot.written).settleSlot k seq.toNat) := by
  rw [← s.stream_advance t] at hfind
  simp only [execBlockWriteDone, hfind, if_true]
  rfl

theorem execBlockWriteDone_retry (hretries : e.retries < 3) : execBlockWriteDone t k seq false s =
    .next (((((s.advance t).onSlot k seq.toNat SkSlot.retried).bump F.SKS_RETRY k).skEvent k 2).settleSlot k seq.toNat) := by
  rw [← s.stream_advance t] at hfind
  simp only [execBlockWriteDone, hfind, Bool.false_eq_true, if_false, hretries, if_true]
  rfl

theorem execBlockWriteDone_lost (hretries : 3 ≤ e.retries) : execBlockWriteDone t k seq false s =
    .next (((((s.advance t).storeBlock k (lostBlock k e.block s.recFlags)).onSlot k seq.toNat
      (SkSlot.lost (lostBlock k e.block s.recFlags))).skEvent k 3).settleSlot k seq.toNat) := by
  rw [← s.stream_advance t] at hfind
  rw [← s.recFlags_advance t]
  simp only [execBlockWriteDone, hfind, Bool.false_eq_true, if_false, if_neg (Nat.not_lt.mpr hretries)]
  rfl

/-- A block read back good lies in its slot, and its slot is being written no more. -/
theorem blockWriteDone_good (hburst : (s.stream k).burst = []) :
    Ends (.blockWriteDone t k seq true) s (fun u => u.dram = s.dram.writeBytes (s.slotAddr k e.block.seq) (blockBytes k e.block) ∧
    (u.stream k).region.any (fun x => x.block.seq == seq.toNat && x.phase != .writing) = true) := by
  obtain ⟨hmem, hseq, -⟩ := slot_of_find hfind
  refine ⟨_, execBlockWriteDone_good (t := t) hfind, ?_⟩
  constructor
  · rw [State.dram_settleSlot, State.dram_onSlot, State.dram_storeBlock_advance]
  · have hstored : ((s.advance t).storeBlock k e.block).stream k = s.stream k := by rw [State.stream_storeBlock, s.stream_advance t]
    rw [← hstored] at hmem hburst
    generalize (s.advance t).storeBlock k e.block = v at hmem hburst
    have hwritten := State.mem_onSlot (f := SkSlot.written) hmem hseq
    obtain ⟨f, hf, hfseq, hphase⟩ := ((v.onSlot k seq.toNat SkSlot.written).refreshed_settleSlot k seq.toNat).exists_mem ((v.burst_onSlot k seq.toNat SkSlot.written).trans hburst) hwritten (by simp [SkSlot.written])
    rw [show e.written.block.seq = e.block.seq from rfl] at hfseq
    exact List.any_eq_true.mpr ⟨f, hf, by simp [hfseq, hseq, hphase]⟩

end

section
variable {s : State} {k seq : Nat} {e : SkSlot} (hmem : e ∈ (s.stream k).region) (hseq : e.block.seq = seq) (hphase : e.phase = .writing)
  (hone : ((s.stream k).region.filter (fun x => x.block.seq == seq)).length = 1)
include hmem hseq hphase hone

/-- The one slot of a SEQ, written again, is being written, and so is each slot of that SEQ that the record of the retry brings. -/
theorem State.retried_mem (bit : Nat) : let u := ((s.onSlot k seq SkSlot.retried).bump F.SKS_RETRY k).skEvent k bit
    e.retried ∈ (u.stream k).region ∧ ∀ f ∈ (u.stream k).region, f.block.seq = seq → f.phase = .writing := by
  have hgrows := (((s.onSlot k seq SkSlot.retried).bump F.SKS_RETRY k).follows_skEvent k bit).grows
  rw [State.stream_bump] at hgrows
  refine ⟨hgrows.stays _ (State.mem_onSlot hmem hseq) hphase, fun f hf hfseq => ?_⟩
  refine (hgrows.new f hf).elim (fun hold => ?_) id
  obtain ⟨x, hx, hxseq, rfl⟩ := State.of_mem_onSlot hold hfseq
  obtain ⟨a, ha⟩ := List.length_eq_one_iff.mp hone
  have hxa : x ∈ [a] := ha ▸ List.mem_filter.mpr ⟨hx, by simp [hxseq]⟩
  have hea : e ∈ [a] := ha ▸ List.mem_filter.mpr ⟨hmem, by simp [hseq]⟩
  rw [(List.mem_singleton.mp hxa).trans (List.mem_singleton.mp hea).symm]
  exact hphase

end

section
variable {t : Instant} {k : Fin 17} {seq : BitVec 64} {s : State} {e : SkSlot}
  (hfind : (s.stream k).region.find? (fun e => e.block.seq == seq.toNat && e.phase == .writing) = some e)
include hfind

/-- A block that failed is written again, and the retry is counted and shown. -/
theorem blockWriteDone_retry (hretries : e.retries < 3) (hone : ((s.stream k).region.filter (fun x => x.block.seq == seq.toNat)).length = 1) :
    Ends (.blockWriteDone t k seq false) s (fun u => u.dram = s.dram ∧ u.rd F.SKS_RETRY k = min (s.rd F.SKS_RETRY k + 1) (2 ^ F.SKS_RETRY.width - 1) ∧
    bitOf (u.rd F.SK_EVENT) 2 = true ∧ u.rd F.SKS_STATUS_RETRYING k = 1 ∧
    (u.stream k).region.any (fun x => x.block.seq == seq.toNat && x.phase == .writing && x.retries == e.retries + 1) = true) := by
  obtain ⟨hmem, hseq, hphase⟩ := slot_of_find hfind
  refine ⟨_, execBlockWriteDone_retry (t := t) hfind hretries, ?_⟩
  rw [← s.stream_advance t] at hmem hone
  have hmarked := State.retried_mem hmem hseq hphase hone 2
  have hset := ((((s.advance t).onSlot k seq.toNat SkSlot.retried).bump F.SKS_RETRY k)).skEventSet_skEvent k (bit := 2) (by decide)
  have hdram := ((((s.advance t).onSlot k seq.toNat SkSlot.retried).bump F.SKS_RETRY k)).dram_skEvent k 2
  have hcount : (((((s.advance t).onSlot k seq.toNat SkSlot.retried).bump F.SKS_RETRY k)).skEvent k 2).rd F.SKS_RETRY k =
      min (s.rd F.SKS_RETRY k + 1) (2 ^ F.SKS_RETRY.width - 1) := by
    rw [rd_skEvent _ _ _ (by decide), State.rd_bump_saturates, rd_onSlot _ _ _ _ rfl, rd_advance s t (by decide)]
  change let u := ((((s.advance t).onSlot k seq.toNat SkSlot.retried).bump F.SKS_RETRY k).skEvent k 2).settleSlot k seq.toNat; _
  generalize (((s.advance t).onSlot k seq.toNat SkSlot.retried).bump F.SKS_RETRY k).skEvent k 2 = v at hmarked hset hdram hcount
  obtain ⟨hretried, hall⟩ := hmarked
  refine ⟨?_, ?_, State.skEventSet_settleSlot (by decide) hset k _, ?_, ?_⟩
  · rw [State.dram_settleSlot, hdram]
    exact s.advance_dram t
  · rw [State.rd_settleSlot _ _ _ (by decide) (by decide), hcount]
  · rw [State.settleSlot, rd_refreshRegion _ _ (by decide), State.rd_retrying_noteSlot]
    exact congrArg b2n (List.any_eq_true.mpr ⟨_, hretried, by simp [SkSlot.retried, hphase]⟩)
  · have hstays := (v.refreshed_settleSlot k seq.toNat).mem hretried (.inl hphase) fun f hf hfseq => (hall f hf (hfseq.trans hseq)).trans hphase.symm
    exact List.any_eq_true.mpr ⟨_, hstays, by simp [SkSlot.retried, hphase, hseq]⟩

/-- After three retries a LOST block lies in the slot. -/
theorem blockWriteDone_lost (hretries : 3 ≤ e.retries) :
    Ends (.blockWriteDone t k seq false) s (fun u => u.dram = s.dram.writeBytes (s.slotAddr k e.block.seq) (blockBytes k (lostBlock k e.block s.recFlags)) ∧
    bitOf (u.rd F.SK_EVENT) 3 = true) := by
  refine ⟨_, execBlockWriteDone_lost (t := t) hfind hretries, ?_, State.skEventSet_settleSlot (by decide) (State.skEventSet_skEvent _ k (by decide)) k _⟩
  rw [State.dram_settleSlot, State.dram_skEvent, State.dram_onSlot, State.dram_storeBlock_advance]
  rfl

end

/-! ### Exporting and consumption (R187, R188) -/

section
variable {t : Instant} {k : Fin 17} {seq : BitVec 64} {s : State}

/-- The ring of a stream that exports by DMA takes its SEQ. -/
def State.countExport (s : State) (k : Nat) (e : SkSlot) : State :=
  s.putStream k { s.stream k with
    ring := if s.rd F.SKS_CTRL_EXPORT k = 1 then (s.stream k).ring ++ [e.block.seq] else (s.stream k).ring, outBytes := (s.stream k).outBytes + 4096 }

theorem execExportDone_found {e : SkSlot} (hfind : (s.stream k).region.find? (fun e => e.phase == .exporting) = some e) : execExportDone t k s =
    .next ((((s.advance t).countExport k e).onSlot k e.block.seq SkSlot.consumed).refreshRegion k) := by
  rw [← s.stream_advance t] at hfind
  simp only [execExportDone, hfind]
  rfl

/-- The block whose exporting ends is consumed, and its bytes are counted. -/
theorem exportDone_consumes {e : SkSlot} (hfind : (s.stream k).region.find? (fun e => e.phase == .exporting) = some e) (hburst : (s.stream k).burst = []) :
    Ends (.exportDone t k) s (fun u => (u.stream k).region.any (fun x => x.block.seq == e.block.seq && x.phase == .consumed) = true ∧
    (u.stream k).outBytes = (s.stream k).outBytes + 4096) := by
  refine ⟨_, execExportDone_found (t := t) hfind, ?_⟩
  have hcounted : ((s.advance t).countExport k e).stream k = { s.stream k with
      ring := if s.rd F.SKS_CTRL_EXPORT k = 1 then (s.stream k).ring ++ [e.block.seq] else (s.stream k).ring, outBytes := (s.stream k).outBytes + 4096 } := by
    rw [State.countExport, State.stream_putStream_same, s.stream_advance t, rd_advance s t (by decide)]
  have hmem : e ∈ (((s.advance t).countExport k e).stream k).region := by
    rw [hcounted]
    exact List.mem_of_find?_eq_some hfind
  generalize (s.advance t).countExport k e = v at hcounted hmem
  have hconsumed := State.mem_onSlot (f := SkSlot.consumed) hmem rfl
  have hrefreshed := (v.onSlot k e.block.seq SkSlot.consumed).refreshed_refreshRegion k
  constructor
  · refine List.any_eq_true.mpr ⟨_, hrefreshed.mem hconsumed (.inr ⟨rfl, ?_⟩) fun f hf hfseq => ?_, by simp [SkSlot.consumed]⟩
    · rw [State.burst_onSlot, hcounted, hburst]
    · obtain ⟨x, -, -, rfl⟩ := State.of_mem_onSlot hf hfseq
      rfl
  · rw [hrefreshed.outBytes, State.onSlot, State.stream_putStream_same, hcounted]

/-- CONSUMED set to `v`: the ring entries up to it are free, and the blocks up to it consumed in the mode in which it reads them itself. -/
def State.consumeUpTo (s : State) (k v : Nat) : State :=
  let u := s.wr F.SKS_CONSUMED v k
  let pull := u.rd F.SKS_CTRL_EXPORT k != 1 && u.rd F.SKS_CTRL_EXPORT k != 2
  u.putStream k { s.stream k with
    region := if pull then (s.stream k).region.map (fun e => if e.block.seq ≤ v ∧ e.phase = .visible then { e with phase := .consumed } else e) else (s.stream k).region
    ring := (s.stream k).ring.filter (fun q => decide (v < q)) }

/-- A write of ST_CONSUMED in range. -/
theorem stConsumedWrite_taken (hadm : s.admits (0x501028 + 0x80 * k) = true) (hlo : s.rd F.SKS_CONSUMED k ≤ seq.toNat) (hhi : seq.toNat ≤ s.rd F.SKS_VISIBLE k)
    (hshown : (s.stream k).shown = true) : Ends (.stConsumedWrite t k seq) s (fun u => u.rd F.SKS_CONSUMED k = seq.toNat ∧
    (u.stream k).ring = (s.stream k).ring.filter (fun q => decide (seq.toNat < q))) := by
  have hexec : execStConsumedWrite t k seq s =
      .next (((s.advance t).consumeUpTo k seq.toNat).refreshRegion k) := by
    rw [← rd_advance s t (fld := F.SKS_CONSUMED) (by decide)] at hlo
    rw [← rd_advance s t (fld := F.SKS_VISIBLE) (by decide)] at hhi
    rw [← s.stream_advance t] at hshown
    have hin : ¬ (seq.toNat < (s.advance t).rd F.SKS_CONSUMED k ∨ (s.advance t).rd F.SKS_VISIBLE k < seq.toNat ∨ ((s.advance t).stream k).shown = false) :=
      not_or.mpr ⟨Nat.not_lt.mpr hlo, not_or.mpr ⟨Nat.not_lt.mpr hhi, Bool.not_eq_false _ ▸ hshown⟩⟩
    simp only [execStConsumedWrite, State.hostWrite_stream t (show 0x501000 ≤ 0x501028 + 0x80 * k.val by omega) (by omega) hadm, if_neg hin]
    rfl
  refine ⟨_, hexec, ?_, ?_⟩
  · rw [rd_refreshRegion _ _ (by decide), State.consumeUpTo, rd_putStream _ _ _ rfl, State.rd_wr_same]
    exact Nat.mod_eq_of_lt seq.isLt
  · rw [(State.refreshed_refreshRegion _ k).ring, State.consumeUpTo, State.stream_putStream_same, s.stream_advance t]

/-- A write of ST_CONSUMED out of range. -/
theorem stConsumedWrite_refused (hadm : s.admits (0x501028 + 0x80 * k) = true) (hout : seq.toNat < s.rd F.SKS_CONSUMED k ∨ s.rd F.SKS_VISIBLE k < seq.toNat) :
    Ends (.stConsumedWrite t k seq) s (fun u => u.rd F.SKS_CONSUMED k = s.rd F.SKS_CONSUMED k ∧ bitOf (u.rd F.SK_EVENT) 6 = true ∧
    (u.stream k).ring = (s.stream k).ring) := by
  have hexec : execStConsumedWrite t k seq s = .next (((s.advance t).skEvent k 6).discardOther (0x501028 + 0x80 * k)) := by
    rw [← rd_advance s t (fld := F.SKS_CONSUMED) (by decide), ← rd_advance s t (fld := F.SKS_VISIBLE) (by decide)] at hout
    simp only [execStConsumedWrite, State.hostWrite_stream t (show 0x501000 ≤ 0x501028 + 0x80 * k.val by omega) (by omega) hadm]
    rw [if_pos (hout.imp_right .inl)]
  have hdiscarded := keeps_discardOther (closed_frame _ ((s.advance t).skEvent k 6)) (Frame.refl _ _) (0x501028 + 0x80 * k)
  refine ⟨_, hexec, ?_, ?_, ?_⟩
  · rw [hdiscarded.rd (by decide), rd_skEvent _ _ _ (by decide), rd_advance s t (by decide)]
  · rw [hdiscarded.rd (by decide)]
    exact (s.advance t).skEventSet_skEvent k (by decide)
  · rw [hdiscarded.stream rfl, ((s.advance t).follows_skEvent k 6).ring, s.stream_advance t]

/-- The object and the argument of a RESEND_BLOCK. -/
def resendArgs (seq : BitVec 64) (c : HostCmd) : Bool := c.arg0 + 2 ^ 32 * c.arg1 == seq.toNat

/-- A RESEND_BLOCK that may execute leaves what its judgement gives, but for what the completion of the command touches. -/
theorem execResendBlock_frame (hmay : s.mayExecute 0xC k (resendArgs seq) = true) : ∃ u, execResendBlock t k seq s = .next u ∧
    Frame Touched.hostCommand (if s.rd F.SKS_CTRL_EXPORT k = 2 ∧ (s.stream k).region.any (fun e => e.block.seq == seq.toNat && e.phase == .consumed) = true then
      (((s.advance t).reply 0).putStream k { s.stream k with outBytes := (s.stream k).outBytes + 4096 }).reply 0
      else (((s.advance t).reply 0).reply 1).skEvent k 7) u := by
  refine ⟨_, rfl, ?_⟩
  rw [← s.mayExecute_advance t] at hmay
  rw [← s.stream_advance t, ← rd_advance s t (by decide)]
  exact State.hostCommand_frame hmay _

end

/-! ### The statement -/

/-- Settles O32. -/
theorem blocksReachTheRegionAndTheHost : Obligations.BlocksReachTheRegionAndTheHost := by
  unfold Obligations.BlocksReachTheRegionAndTheHost
  refine ⟨?good, ?retry, ?lost, ?exported, ?consumed, ?refused, ?resent, ?notResent⟩
  case good =>
    intro t k seq s e hfind hburst
    exact blockWriteDone_good hfind hburst
  case retry =>
    intro t k seq s e hfind _ hretries hone
    exact blockWriteDone_retry hfind hretries hone
  case lost =>
    intro t k seq s e hfind _ hretries
    exact blockWriteDone_lost hfind hretries
  case exported =>
    intro t k s e hfind hburst
    exact exportDone_consumes hfind hburst
  case consumed =>
    intro t k seq s hadm hlo hhi hshown
    exact stConsumedWrite_taken hadm hlo hhi hshown
  case refused =>
    intro t k seq s hadm hout
    exact stConsumedWrite_refused hadm hout
  case resent =>
    intro t k seq s hmay hmode hresident
    obtain ⟨u, hu, hframe⟩ := execResendBlock_frame (t := t) hmay
    rw [if_pos ⟨hmode, hresident⟩] at hframe
    have hstream : u.stream k = { s.stream k with outBytes := (s.stream k).outBytes + 4096 } := by
      rw [hframe.stream rfl, State.stream_reply, State.stream_putStream_same]
    exact ⟨u, hu, by rw [hstream], by rw [hstream]⟩
  case notResent =>
    intro t k seq s hmay hmode
    obtain ⟨u, hu, hframe⟩ := execResendBlock_frame (t := t) hmay
    rw [if_neg (fun h => hmode h.1)] at hframe
    have hset := (((s.advance t).reply 0).reply 1).skEventSet_skEvent k (bit := 7) (by decide)
    refine ⟨u, hu, (congrArg (bitOf · 7) (hframe.rd (by decide) 0)).trans hset, ?_⟩
    rw [hframe.stream rfl, ((((s.advance t).reply 0).reply 1).follows_skEvent k 7).outBytes, State.stream_reply, State.stream_reply, s.stream_advance t]

end Sys2Proof.Machine
end

section
/-! PROOFS.  Capture sets: their samples, the end of a window, the slot that is written and what the host acknowledges (08 R198, R200, R201, R205, R206). -/

namespace Sys2Proof.Machine

open Sys2Proof

set_option Elab.async false

/-! ### Reading a capture set -/

theorem Frame.trig {t : Touch} {s u : State} (h : Frame t s u) (ht : t.hasPart .trig = false) : u.trig = s.trig := h.part (p := .trig) ht

theorem State.cset_congr {s u : State} (h : u.trig = s.trig) (n : Nat) : u.cset n = s.cset n := congrArg (fun x : Trig => x.sets.get n CapSet.init) h

@[simp] theorem State.advance_trig (s : State) (t : Instant) : (s.advance t).trig = s.trig := (frame_advance s t).trig rfl

@[simp] theorem State.cset_advance (s : State) (t : Instant) (n : Nat) : (s.advance t).cset n = s.cset n := State.cset_congr (s.advance_trig t) n

@[simp] theorem State.capState_advance (s : State) (t : Instant) (n : Nat) : (s.advance t).capState n = s.capState n := rd_advance s t (by decide) n

@[simp] theorem State.cset_putCset_same (s : State) (n : Nat) (x : CapSet) : (s.putCset n x).cset n = x := Tbl.get_set_same _ _ _ _

@[simp] theorem State.cset_wr (s : State) (f : Fld) (v i n : Nat) : (s.wr f v i).cset n = s.cset n := rfl

@[simp] theorem State.ownerTS_advance (s : State) (t : Instant) (n : Nat) : (s.advance t).ownerTS n = s.ownerTS n := s.owner_advance t _

theorem State.frame_csEvent (s : State) (n bit res : Nat) : Frame Touched.csEvent s (s.csEvent n bit res) := keeps_csEvent (closed_frame _ s) (Frame.refl _ s) n bit res

/-- An event of a capture set shows itself. -/
theorem State.bitOf_csEvent (s : State) (n : Nat) {bit : Nat} (hbit : bit < F.CS_EVENT.width) (res : Nat) : bitOf ((s.csEvent n bit res).rd F.CS_EVENT n) bit = true := by
  rw [State.csEvent, rd_csRecord _ _ _ _ (by decide)]
  exact bitOf_rd_setBit s F.CS_EVENT hbit n

/-! ### Host writes of the registers of sequencers, capture sets and mask units -/

/-- The registers of this block carry no EXPECT. -/
theorem commandObject_capture {off : Nat} (hlo : 0x600000 ≤ off) (hhi : off < 0x640000) : commandObject off = none := by
  have htreadle : ¬ off < 0x301000 := by omega
  have hprogram : ¬ 0x900000 ≤ off := by omega
  have hloom : ¬ 0x701000 ≤ off := by omega
  have hreset : ¬ 0xE00300 ≤ off := by omega
  have htandem : off ≠ 0xC00010 := by omega
  have hupdate : off ≠ 0xD00200 := by omega
  simp [commandObject, htreadle, hprogram, hloom, hreset, htandem, hupdate]

/-- An admitted host write of a register of this block takes effect once the Warp has moved. -/
theorem State.hostWrite_capture {s : State} (t : Instant) {off : Nat} (hlo : 0x600000 ≤ off) (hhi : off < 0x640000) (h : s.admits off = true) (f : State → State) :
    (s.advance t).hostWrite off f = f (s.advance t) :=
  State.hostWrite_of_admits (by rwa [State.admits_advance]) (commandObject_capture hlo hhi) f 0 true

/-! ### A sample of a channel (R198) -/

@[simp] theorem State.chanValue_advance (s : State) (t : Instant) (c : Nat) : (s.advance t).chanValue c = s.chanValue c := by
  simp only [State.chanValue, State.sourceValue_advance, rd_advance s t (fld := F.CH_SRC_KIND) (by decide), rd_advance s t (fld := F.CH_SRC_SIGNAL) (by decide),
    rd_advance s t (fld := F.CH_SRC_ID) (by decide), rd_advance s t (fld := F.CH_SRC_RING) (by decide)]

/-- A sample instant of a periodic channel on a value route. -/
theorem execChannelSample_valueRoute {t : Instant} {n : Fin 256} {s : State} (hperiodic : s.rd F.CH_CFG_TIMED n = 0) (hkind : s.rd F.CH_SRC_KIND n = 2)
    (hset : s.rd F.CH_SRC_SET n < 32) (hgrid : onGrid (s.rd F.CH_PERIOD n) 0 (s.advance t).now = true) :
    execChannelSample t n s = .next ((s.advance t).capSample n (s.advance t).now (s.chanValue n)) := by
  have hon : s.on F.CH_CFG_TIMED n = false := by simp [State.on, hperiodic]
  simp only [execChannelSample, s.on_advance t (f := F.CH_CFG_TIMED) (by decide), rd_advance s t (fld := F.CH_SRC_KIND) (by decide),
    rd_advance s t (fld := F.CH_SRC_SET) (by decide), rd_advance s t (fld := F.CH_PERIOD) (by decide), State.chanValue_advance, hon, hkind, hgrid]
  simp [Nat.not_le.mpr hset]

/-- A sample that comes while its set fills goes into the pre-trigger window. -/
theorem State.capSample_filling {s : State} {c : Nat} {at_ : Instant} {ch : CapChan} (hfind : (s.cset (s.rd F.CH_SRC_SET c)).chans.find c = some ch)
    (hsince : earlier at_ (s.cset (s.rd F.CH_SRC_SET c)).filling = false) (hfilling : s.capState (s.rd F.CH_SRC_SET c) = 1) (v : Word) :
    s.capSample c at_ v = s.putCset (s.rd F.CH_SRC_SET c)
      { s.cset (s.rd F.CH_SRC_SET c) with chans := (s.cset (s.rd F.CH_SRC_SET c)).chans.set c { ch with pre := putPre ch.nPre ch.pre (at_, v) } } := by
  simp [State.capSample, hfind, hsince, hfilling]

/-! ### The end of the post-trigger window (R200) -/

/-- Without items there is no chunk to enqueue. -/
theorem State.closeChunks_nil {s : State} {n : Nat} (h : (s.cset n).items = []) (rest : Bool) (fuel : Nat) : s.closeChunks n rest fuel = s := by
  cases fuel with
  | zero => rfl
  | succ fuel => simp [State.closeChunks, h]

theorem State.streamChunks_nil {s : State} {n : Nat} (h : (s.cset n).items = []) : s.streamChunks n = s := by
  simp only [State.streamChunks, State.closeChunks_nil h, ite_self]

/-- A window that ends without items to enqueue. -/
theorem State.endPost_nil {s : State} {n : Nat} (h : (s.cset n).items = []) (end_ : Instant) :
    s.endPost n end_ = (s.putCset n { (s.cset n).cut end_ with missed := 0 }).wr F.CS_STATUS_STATE 4 n := by
  have hcut : (((s.putCset n { (s.cset n).cut end_ with missed := 0 }).wr F.CS_STATUS_STATE 4 n).cset n).items = [] := by
    rw [State.cset_wr, State.cset_putCset_same]
    simp [CapSet.cut, h]
  exact State.streamChunks_nil hcut

theorem execCaptureEnd_due {t : Instant} {n : Fin 32} {s : State} (hpost : s.capState n = 3)
    (hdue : notLater (addNs (s.cset n).trigT (s.cset n).postNs) (s.advance t).now = true) :
    execCaptureEnd t n s = .next ((s.advance t).endPost n (addNs (s.cset n).trigT (s.cset n).postNs)) := by
  simp [execCaptureEnd, hpost, hdue]

/-! ### The bytes of a slot (R201, R206) -/

section
variable (s : State) (t : Instant)

@[simp] theorem State.slotBase_advance (n seq : Nat) : (s.advance t).slotBase n seq = s.slotBase n seq := by
  simp only [State.slotBase, rd_advance s t (fld := F.CS_REGION) (by decide), rd_advance s t (fld := F.CS_SLOT_CFG_SLOTS) (by decide),
    rd_advance s t (fld := F.CS_SLOT_CFG_SLOT_KIB) (by decide)]

@[simp] theorem State.descriptor_advance (c : Nat) (ch : CapChan) (off : Nat) : (s.advance t).descriptor c ch off = s.descriptor c ch off := by
  simp only [State.descriptor, rd_advance s t (fld := F.CH_SRC_ID) (by decide), rd_advance s t (fld := F.CH_SRC_RING) (by decide),
    rd_advance s t (fld := F.CH_SRC_KIND) (by decide), rd_advance s t (fld := F.CH_SRC_SIGNAL) (by decide)]

@[simp] theorem State.slotParts_advance (streamed : Bool) (off : Nat) (l : List (Nat × CapChan)) : (s.advance t).slotParts streamed off l = s.slotParts streamed off l := by
  induction l generalizing off with
  | nil => rfl
  | cons e rest ih => simp only [State.slotParts, ih, State.descriptor_advance]

@[simp] theorem State.capHeader_advance (n digest : Nat) : (s.advance t).capHeader n digest = s.capHeader n digest := by
  unfold State.capHeader
  rw [State.cset_advance, State.ownerTS_advance, rd_advance s t (fld := F.CS_CAP_SEQ) (by decide), rd_advance s t (fld := F.SK_EPOCH) (by decide)]

@[simp] theorem State.slotHead_advance (n digest : Nat) : (s.advance t).slotHead n digest = s.slotHead n digest := by
  simp only [State.slotHead, State.cset_advance, State.capHeader_advance, State.slotParts_advance]

@[simp] theorem State.capDigest_advance (n : Nat) : (s.advance t).capDigest n = s.capDigest n := by
  simp only [State.capDigest, State.slotHead_advance, State.cset_advance, State.slotBase_advance, State.advance_dram, rd_advance s t (fld := F.CS_CAP_SEQ) (by decide)]

end

/-! ### A slot complete (R200, R201) -/

/-- The bytes of set `n`'s slot in DRAM. -/
def State.storeSlot (s : State) (n : Nat) : State :=
  { s with dram := s.dram.writeBytes (s.slotBase n (s.rd F.CS_CAP_SEQ n)) (s.slotHead n (s.capDigest n).toNat) }

/-- Set `n` DONE with its slot written, before the interrupt and the record. -/
def State.slotWritten (s : State) (n : Nat) : State := ((s.storeSlot n).wr F.CS_STATUS_STATE 5 n).setBit F.CS_EVENT 0 n

/-- Set `n` DONE, its slot written and recorded, and its capture counted. -/
def State.slotDone (s : State) (n : Nat) : State :=
  let u := (s.slotWritten n).interrupt (34 + n)
  let u := u.record (streamOf (u.ownerTS n)) (eventRec (u.cset n).trigT 4 n (s.rd F.CS_CAP_SEQ n % 2 ^ 32) 0 0 (leBytes 48 (s.capDigest n).toNat))
  u.wr F.CS_CAP_SEQ (s.rd F.CS_CAP_SEQ n + 1) n

/-- What the interrupt and the record of a slot may change. -/
def Touched.slotNotice : Touch :=
  { regs := [F.MSIX_PBA, F.SK_STATUS_BURST_FREE_KIB, F.SK_EVENT, F.SKS_SEQ, F.SKS_STATUS_RESIDENT, F.SKS_OVERWRITE], parts := [.host, .skein] }

theorem State.rd_storeSlot (s : State) (n : Nat) (f : Fld) (i : Nat) : (s.storeSlot n).rd f i = s.rd f i := State.rd_congr (by rw [State.storeSlot]) f i

theorem State.slotDone_frame (s : State) (n : Nat) : ∃ v, s.slotDone n = v.wr F.CS_CAP_SEQ (s.rd F.CS_CAP_SEQ n + 1) n ∧ Frame Touched.slotNotice (s.slotWritten n) v := by
  have hclosed := closed_frame Touched.slotNotice (s.slotWritten n)
  exact ⟨_, rfl, keeps_record (hclosed.mono (by decide +kernel)) (keeps_interrupt (hclosed.mono (by decide +kernel)) (Frame.refl _ _) _) _ _⟩

section
variable (s : State) (n : Nat)

theorem State.rd_capSeq_slotDone : (s.slotDone n).rd F.CS_CAP_SEQ n = (s.rd F.CS_CAP_SEQ n + 1) % 2 ^ F.CS_CAP_SEQ.width := by
  obtain ⟨v, hv, -⟩ := s.slotDone_frame n
  rw [hv, State.rd_wr_same]

theorem State.capState_slotDone : (s.slotDone n).capState n = 5 := by
  obtain ⟨v, hv, hframe⟩ := s.slotDone_frame n
  rw [hv, State.capState, State.rd_wr_field _ (by decide), hframe.rd (by decide), State.slotWritten, State.setBit, State.rd_wr_field _ (by decide), State.rd_wr_same]
  rfl

theorem State.bitOf_csEvent_slotDone : bitOf ((s.slotDone n).rd F.CS_EVENT n) 0 = true := by
  obtain ⟨v, hv, hframe⟩ := s.slotDone_frame n
  rw [hv, State.rd_wr_field _ (by decide), hframe.rd (by decide)]
  exact bitOf_rd_setBit _ F.CS_EVENT (by decide) n

theorem State.dram_slotDone : (s.slotDone n).dram = s.dram.writeBytes (s.slotBase n (s.rd F.CS_CAP_SEQ n)) (s.slotHead n (s.capDigest n).toNat) := by
  obtain ⟨v, hv, hframe⟩ := s.slotDone_frame n
  rw [hv, State.wr_dram, show v.dram = (s.slotWritten n).dram from hframe.part (p := .dram) rfl, State.slotWritten, State.setBit_dram, State.wr_dram,
    State.storeSlot]

/-- The settings of a set stay. -/
theorem State.rd_slotDone {f : Fld} (hstate : (f.id == F.CS_STATUS_STATE.id) = false) (hevent : (f.id == F.CS_EVENT.id) = false) (hseq : (f.id == F.CS_CAP_SEQ.id) = false)
    (hf : Touched.slotNotice.has f.id = false) (i : Nat) : (s.slotDone n).rd f i = s.rd f i := by
  obtain ⟨v, hv, hframe⟩ := s.slotDone_frame n
  rw [hv, State.rd_wr_field _ hseq, hframe.rd hf, State.slotWritten, State.setBit, State.rd_wr_field _ hevent, State.rd_wr_field _ hstate,
    State.rd_storeSlot]

end

/-- What a set does whose slot is complete: IDLE, FILLING, or DONE until its next slot is free. -/
def State.afterSlot (s : State) (n : Nat) : State :=
  if !s.on F.CS_CTRL_REARM n then s.idleSet n else if s.slotReady n then s.beginFilling n else s.csEvent n 5

theorem execCaptureSlotDone_nil {t : Instant} {n : Fin 32} {s : State} (hwriting : s.capState n = 4) (hitems : (s.cset n).items = []) :
    execCaptureSlotDone t n s = .next (((s.advance t).slotDone n).afterSlot n) := by
  rw [← s.capState_advance t] at hwriting
  rw [← s.cset_advance t] at hitems
  simp only [execCaptureSlotDone, State.when, State.closeChunks_nil hitems, ite_self, if_neg (not_not.mpr hwriting)]
  rfl

section
variable {s : State} {n : Nat}

theorem State.afterSlot_once (h : s.rd F.CS_CTRL_REARM n = 0) : s.afterSlot n = s.idleSet n := by
  simp [State.afterSlot, State.on, h]

theorem State.dram_idleSet (s : State) (n : Nat) : (s.idleSet n).dram = s.dram := rfl

/-- A set that rearms counts its captures on. -/
theorem State.rd_capSeq_afterSlot (h : s.rd F.CS_CTRL_REARM n ≠ 0) : (s.afterSlot n).rd F.CS_CAP_SEQ n = s.rd F.CS_CAP_SEQ n := by
  simp only [State.afterSlot, State.on, bne_iff_ne.mpr h, Bool.not_true, Bool.false_eq_true, if_false]
  split
  · exact rd_beginFilling s n (by decide) n
  · exact rd_csEvent s n 5 0 (by decide) n

/-- A set that rearms fills again, or stays as it is while its next slot is not free. -/
theorem State.capState_afterSlot (h : s.rd F.CS_CTRL_REARM n ≠ 0) : (s.afterSlot n).capState n = if s.slotReady n = true then 1 else s.capState n := by
  simp only [State.afterSlot, State.on, bne_iff_ne.mpr h, Bool.not_true, Bool.false_eq_true, if_false]
  split
  · exact State.rd_wr_same _ F.CS_STATUS_STATE 1 n
  · exact rd_csEvent s n 5 0 (by decide) n

theorem State.slotReady_iff : s.slotReady n = true ↔ s.rd F.CS_CAP_SEQ n < s.rd F.CS_SLOT_CFG_SLOTS n ∨ s.rd F.CS_CAP_SEQ n - s.rd F.CS_SLOT_CFG_SLOTS n < s.rd F.CS_CONSUMED n := by
  simp [State.slotReady]

end

/-- The slot of a set without REARM is written, and the set is IDLE. -/
theorem captureSlotDone_once (t : Instant) {n : Fin 32} {s : State} (hwriting : s.capState n = 4) (hitems : (s.cset n).items = []) (hrearm : s.rd F.CS_CTRL_REARM n = 0) :
    Ends (.captureSlotDone t n) s (fun u => u.capState n = 0 ∧ u.rd F.CS_CAP_SEQ n = (s.rd F.CS_CAP_SEQ n + 1) % 2 ^ F.CS_CAP_SEQ.width ∧
    bitOf (u.rd F.CS_EVENT n) 0 = true ∧ u.dram = s.dram.writeBytes (s.slotBase n (s.rd F.CS_CAP_SEQ n)) (s.slotHead n (s.capDigest n).toNat)) := by
  have hseq : (s.advance t).rd F.CS_CAP_SEQ n = s.rd F.CS_CAP_SEQ n := rd_advance s t (by decide) n
  have hoff : ((s.advance t).slotDone n).rd F.CS_CTRL_REARM n = 0 := by rw [State.rd_slotDone _ _ (by decide) (by decide) (by decide) (by decide), rd_advance s t (by decide), hrearm]
  refine ⟨_, execCaptureSlotDone_nil (t := t) hwriting hitems, ?_⟩
  rw [State.afterSlot_once hoff]
  refine ⟨State.rd_wr_same _ F.CS_STATUS_STATE 0 n, ?_, ?_, ?_⟩
  · rw [rd_idleSet _ _ (by decide), State.rd_capSeq_slotDone, hseq]
  · rw [rd_idleSet _ _ (by decide)]
    exact State.bitOf_csEvent_slotDone _ n
  · rw [State.dram_idleSet, State.dram_slotDone, State.advance_dram, State.slotBase_advance, State.slotHead_advance, State.capDigest_advance, hseq]

/-- The slot of a set with REARM is counted, and the set fills again or waits for its next slot. -/
theorem captureSlotDone_rearms (t : Instant) {n : Fin 32} {s : State} (hwriting : s.capState n = 4) (hitems : (s.cset n).items = []) (hrearm : s.rd F.CS_CTRL_REARM n ≠ 0)
    (hfits : s.rd F.CS_CAP_SEQ n + 1 < 2 ^ 64) : Ends (.captureSlotDone t n) s (fun u => u.rd F.CS_CAP_SEQ n = s.rd F.CS_CAP_SEQ n + 1 ∧
    u.capState n = (if s.rd F.CS_CAP_SEQ n + 1 < s.rd F.CS_SLOT_CFG_SLOTS n ∨ s.rd F.CS_CAP_SEQ n + 1 - s.rd F.CS_SLOT_CFG_SLOTS n < s.rd F.CS_CONSUMED n then 1 else 5)) := by
  have hseq : ((s.advance t).slotDone n).rd F.CS_CAP_SEQ n = s.rd F.CS_CAP_SEQ n + 1 := by
    rw [State.rd_capSeq_slotDone, rd_advance s t (by decide)]
    exact Nat.mod_eq_of_lt hfits
  have hon : ((s.advance t).slotDone n).rd F.CS_CTRL_REARM n ≠ 0 := by rwa [State.rd_slotDone _ _ (by decide) (by decide) (by decide) (by decide), rd_advance s t (by decide)]
  refine ⟨_, execCaptureSlotDone_nil (t := t) hwriting hitems, ?_, ?_⟩
  · rw [State.rd_capSeq_afterSlot hon, hseq]
  · simp only [State.capState_afterSlot hon, State.slotReady_iff, hseq, State.rd_slotDone _ _ (f := F.CS_SLOT_CFG_SLOTS) (by decide) (by decide) (by decide) (by decide),
      State.rd_slotDone _ _ (f := F.CS_CONSUMED) (by decide) (by decide) (by decide) (by decide), rd_advance s t (fld := F.CS_SLOT_CFG_SLOTS) (by decide),
      rd_advance s t (fld := F.CS_CONSUMED) (by decide), State.capState_slotDone]

/-! ### What the host acknowledges (R201, R205) -/

section
variable {t : Instant} {n : Fin 32} {s : State}

/-- CS_CONSUMED taken: a set that waits for the slot it frees fills from now. -/
def State.consumeSlots (s : State) (n seq : Nat) : State :=
  let u := s.wr F.CS_CONSUMED seq n
  if u.capState n = 5 ∧ u.on F.CS_CTRL_REARM n ∧ u.slotReady n then u.beginFilling n else u

theorem State.rd_consumed_consumeSlots (s : State) (n seq : Nat) : (s.consumeSlots n seq).rd F.CS_CONSUMED n = seq % 2 ^ F.CS_CONSUMED.width := by
  simp only [State.consumeSlots]
  split
  · rw [rd_beginFilling _ _ (by decide), State.rd_wr_same]
  · exact State.rd_wr_same _ _ _ _

theorem State.capState_consumeSlots {s : State} {n : Nat} (h : s.capState n ≠ 5) (seq : Nat) : (s.consumeSlots n seq).capState n = s.capState n := by
  have hstate : (s.wr F.CS_CONSUMED seq n).capState n = s.capState n := State.rd_wr_field _ (by decide) _ _ _
  rw [State.consumeSlots, if_neg (fun hwaits => h (hstate.symm.trans hwaits.1)), hstate]

/-- A write of CS_CONSUMED in range is taken; only a set that is DONE may change its state. -/
theorem csConsumedWrite_taken {seq : BitVec 64} (hadm : s.admits (0x610034 + 0x100 * n) = true) (hlo : s.rd F.CS_CONSUMED n ≤ seq.toNat)
    (hhi : seq.toNat ≤ s.rd F.CS_CAP_SEQ n) : Ends (.csConsumedWrite t n seq) s (fun u => u.rd F.CS_CONSUMED n = seq.toNat ∧
    (s.capState n ≠ 5 → u.capState n = s.capState n)) := by
  have hexec : execCsConsumedWrite t n seq s = .next ((s.advance t).consumeSlots n seq.toNat) := by
    rw [← rd_advance s t (fld := F.CS_CONSUMED) (by decide)] at hlo
    rw [← rd_advance s t (fld := F.CS_CAP_SEQ) (by decide)] at hhi
    simp only [execCsConsumedWrite, State.hostWrite_capture t (show 0x600000 ≤ 0x610034 + 0x100 * n.val by omega) (by omega) hadm,
      if_neg (not_or.mpr ⟨Nat.not_lt.mpr hlo, Nat.not_lt.mpr hhi⟩)]
    rfl
  refine ⟨_, hexec, ?_, fun hnotDone => ?_⟩
  · rw [State.rd_consumed_consumeSlots]
    exact Nat.mod_eq_of_lt seq.isLt
  · rw [← s.capState_advance t] at hnotDone
    rw [State.capState_consumeSlots hnotDone, State.capState_advance]

/-- A write of CS_CONSUMED out of range is discarded with its event. -/
theorem csConsumedWrite_refused {seq : BitVec 64} (hadm : s.admits (0x610034 + 0x100 * n) = true)
    (hout : seq.toNat < s.rd F.CS_CONSUMED n ∨ s.rd F.CS_CAP_SEQ n < seq.toNat) : Ends (.csConsumedWrite t n seq) s (fun u =>
    u.rd F.CS_CONSUMED n = s.rd F.CS_CONSUMED n ∧ bitOf (u.rd F.CS_EVENT n) 6 = true ∧ u.trig = s.trig) := by
  have hexec : execCsConsumedWrite t n seq s = .next (((s.advance t).csEvent n 6).discardOther (0x610034 + 0x100 * n)) := by
    rw [← rd_advance s t (fld := F.CS_CONSUMED) (by decide), ← rd_advance s t (fld := F.CS_CAP_SEQ) (by decide)] at hout
    simp only [execCsConsumedWrite, State.hostWrite_capture t (show 0x600000 ≤ 0x610034 + 0x100 * n.val by omega) (by omega) hadm, if_pos hout]
  have hdiscarded := keeps_discardOther (closed_frame _ ((s.advance t).csEvent n 6)) (Frame.refl _ _) (0x610034 + 0x100 * n)
  refine ⟨_, hexec, ?_, ?_, ?_⟩
  · rw [hdiscarded.rd (by decide), rd_csEvent _ _ _ _ (by decide), rd_advance s t (by decide)]
  · rw [hdiscarded.rd (by decide)]
    exact State.bitOf_csEvent _ n (by decide) 0
  · rw [hdiscarded.trig rfl, (State.frame_csEvent _ _ _ _).trig rfl, State.advance_trig]

/-- The chunks that a write of CS_CHUNK_ACK returns beyond those returned already. -/
def CapSet.returned (x : CapSet) (count : Nat) : Nat := (count + 8192 - x.acked % 8192) % 8192

theorem execChunkAck_admitted {count : BitVec 13} (hadm : s.admits (0x610040 + 0x100 * n) = true) : execChunkAck t n count s =
    .next (if (s.cset n).acked + (s.cset n).returned count.toNat ≤ (s.cset n).chunk then
      ((s.advance t).putCset n { s.cset n with acked := (s.cset n).acked + (s.cset n).returned count.toNat }).wr F.CS_CHUNK_ACK count.toNat n else s.advance t) := by
  simp only [execChunkAck, State.hostWrite_capture t (show 0x600000 ≤ 0x610040 + 0x100 * n.val by omega) (by omega) hadm, State.cset_advance]
  rfl

end

/-! ### The statement -/

/-- Settles O34. -/
theorem capturesEndAndAreConsumed : Obligations.CapturesEndAndAreConsumed := by
  unfold Obligations.CapturesEndAndAreConsumed
  refine ⟨?sampled, ?ended, ?once, ?rearmed, ?consumed, ?refused, ?returned, ?notReturned⟩
  case sampled =>
    intro t n s ch hperiodic hkind hset hgrid hfind hsince hfilling
    have hin : (s.advance t).rd F.CH_SRC_SET n = s.rd F.CH_SRC_SET n := rd_advance s t (by decide) n
    refine ⟨_, execChannelSample_valueRoute hperiodic hkind hset hgrid, ?_⟩
    rw [State.capSample_filling (by rwa [hin, State.cset_advance]) (by rwa [hin, State.cset_advance]) (by rwa [hin, State.capState_advance]), hin]
    exact (congrArg (fun x : CapSet => x.chans.find n) (State.cset_putCset_same _ _ _)).trans (Tbl.find_set_same _ _ _)
  case ended =>
    intro t n s hpost hdue hitems
    refine ⟨_, execCaptureEnd_due hpost hdue, ?_⟩
    rw [State.endPost_nil ((congrArg CapSet.items (s.cset_advance t n)).trans hitems)]
    refine ⟨State.rd_wr_same _ F.CS_STATUS_STATE 4 n, ?_, s.advance_dram t⟩
    rw [State.cset_wr, State.cset_putCset_same]
    rfl
  case once =>
    intro t n s hwriting hitems hrearm
    exact captureSlotDone_once t hwriting hitems hrearm
  case rearmed =>
    intro t n s hwriting hitems hrearm hfits
    exact captureSlotDone_rearms t hwriting hitems hrearm hfits
  case consumed =>
    intro t n seq s hadm hlo hhi
    exact csConsumedWrite_taken hadm hlo hhi
  case refused =>
    intro t n seq s hadm hout
    exact csConsumedWrite_refused hadm hout
  case returned =>
    intro t n count s hadm hin
    refine ⟨_, (execChunkAck_admitted hadm).trans (congrArg _ (if_pos hin)), State.rd_wr_word _ count (by decide) n, ?_⟩
    rw [State.cset_wr, State.cset_putCset_same]
    rfl
  case notReturned =>
    intro t n count s hadm hout
    refine ⟨_, (execChunkAck_admitted hadm).trans (congrArg _ (if_neg (Nat.not_le.mpr hout))), rd_advance s t (by decide) n, s.advance_trig t⟩

end Sys2Proof.Machine
end

section
/-! PROOFS.  FORCE of a capture set (08 R202, R204) and the test of a mask unit (08 R209 to R211): two statements that fail, each where the fire comes
back to the unit itself. -/

namespace Sys2Proof.Machine

open Sys2Proof

set_option Elab.async false

/-! ### A FORCE whose own event overflows the capture -/

/-- Capture set 3 READY at instant 0.  Its fire is the source of event route 0, and its channel 9 is timed, on that route, with an EDGE_MAX of 1; an
event of this very instant is in the channel's pre-trigger window. -/
def crowdedSet : State :=
  (ownRec (capUp.wrs [(F.CS_STATUS_STATE, 3, 2), (F.CH_SRC_KIND, 9, 3), (F.CH_CFG_TIMED, 9, 1), (F.CH_CFG_EDGE_MAX, 9, 1), (F.PWR_STATUS_LOOM_ON, 0, 15)])
    (erKey 0) 2 (6 * 2 ^ 28 + 3)).putCset 3
    { CapSet.init with chans := Tbl.empty.set 9 ⟨true, 0, 1, 1, [(0, 7)], [], false⟩, preNs := 1000, postNs := 1000 }

/-- The event of this instant is the one post-trigger sample that the channel has room for; the event of the fire itself is the next, an overflow at T
(R204), and the set is WRITING at once. -/
theorem execForce_overflows : ∃ u, execForce 0 3 crowdedSet = .next u ∧ u.capState 3 = 4 ∧ (u.cset 3).ovf = some (9, 0) := ⟨_, rfl, by decide +kernel⟩

/-- Refutes O33: a FORCE of a READY set whose fire emits an event that its own full timed channel samples ends in WRITING, where the clause of FORCE
asks for POST. -/
theorem not_sequencersRunAndFireTheirSets : ¬ Obligations.SequencersRunAndFireTheirSets := by
  unfold Obligations.SequencersRunAndFireTheirSets
  rintro ⟨-, -, -, -, -, hForce, -⟩
  obtain ⟨u, hu, hpost, -⟩ := hForce 0 3 crowdedSet (by decide +kernel) (by decide +kernel)
  obtain ⟨w, hw, hwriting, -⟩ := execForce_overflows
  obtain rfl : u = w := Host.Outcome.next.inj (hu.symm.trans hw)
  exact absurd (hwriting.symm.trans hpost) (by decide)

/-! ### A violation that arms its own unit again -/

/-- Mask unit 5 ARMED since instant 0, its source outside the bounds; a violation freezes capture set 3, which is READY, and a fire of that set arms
the unit (ALIGN_TRIG). -/
def realignedMask : State :=
  maskUp.wrs [(F.VR_VALUE, 0, 77), (F.CS_STATUS_STATE, 3, 2), (F.MU_CFG_ACT, 5, 1), (F.MU_CFG_FREEZE_SET, 5, 3), (F.MU_CFG_ALIGN_TRIG, 5, 1), (F.MU_CFG_ALIGN_TS, 5, 3)]

/-- The violation fires set 3, the fire arms the unit with T for A, and an arming sets VIOL_RUN to 0 (R209). -/
theorem execMuSample_realigned : ∃ u, execMuSample 16000 5 3 realignedMask = .next u ∧ u.rd F.MU_STATUS_VIOL_RUN 5 = 0 ∧ u.capState 3 = 3 ∧ u.rdT F.MU_A 5 = 16000 :=
  ⟨_, rfl, by decide +kernel⟩

/-- Refutes O35: a sample outside the bounds whose violation arms the unit again leaves VIOL_RUN 0, where the clause of a tested sample asks for 1. -/
theorem not_maskUnitsTestTheirEnvelope : ¬ Obligations.MaskUnitsTestTheirEnvelope := by
  unfold Obligations.MaskUnitsTestTheirEnvelope
  rintro ⟨-, -, -, -, -, -, hTested⟩
  obtain ⟨u, hu, hrun, -⟩ := hTested 16000 5 3 realignedMask (by decide +kernel) (by decide +kernel) (by decide +kernel) (by decide +kernel) (by decide +kernel)
  obtain ⟨w, hw, hzero, -⟩ := execMuSample_realigned
  obtain rfl : u = w := Host.Outcome.next.inj (hu.symm.trans hw)
  exact absurd (hzero.symm.trans hrun) (by decide +kernel)

end Sys2Proof.Machine
end

section
/-! PROOFS.  The inputs of the pins (09 R476) and the logic elements (09 R218, R219). -/

namespace Sys2Proof.Machine

open Sys2Proof

set_option Elab.async false

/-! ### What settling the outputs leaves -/

/-- The Loom is `l` but for the states of the outputs. -/
def OutsOnly (l : Loom) (s : State) : Prop := ∃ outs, s.loom = { l with outs := outs }

theorem closed_outsOnly (l : Loom) {t : Touch} (h : t.hasPart .loom = false) : Closed (OutsOnly l) t :=
  closed_of_frame fun _ _ hf hs => hs.imp fun _ houts => (hf.part (p := .loom) h).trans houts

theorem OutsOnly.putOut {l : Loom} {s : State} (h : OutsOnly l s) (k : Nat) (x : OutState) : OutsOnly l (s.putOut k x) := by
  obtain ⟨outs, houts⟩ := h
  exact ⟨_, congrArg (fun y : Loom => { y with outs := s.loom.outs.set k x }) houts⟩

theorem OutsOnly.takeLevel {l : Loom} {s : State} (h : OutsOnly l s) (k : Nat) (b : Bool) : OutsOnly l (s.takeLevel k b) :=
  Keeps.ite (I := OutsOnly l) h (Keeps.ite (keeps_countOut (closed_outsOnly l (by decide)) (h.putOut k _) k) (h.putOut k _))

/-- Settling changes nothing of the Loom but the states of the outputs. -/
theorem OutsOnly.settle {l : Loom} {s : State} (h : OutsOnly l s) : OutsOnly l s.settle := by
  refine Keeps.foldl (I := OutsOnly l) (fun u e hu => ?_) _ h
  dsimp only
  split
  · refine OutsOnly.takeLevel ?_ _ _
    exact Keeps.ite (I := OutsOnly l) hu hu
  · exact hu

/-- What a pin has of its input: the raw level, the filtered level, the edge that waits and the stamp. -/
def FioPin.input (x : FioPin) : Bool × Bool × Option Instant × Instant := (x.raw, x.level, x.edge, x.stamp)

/-- Settling drives pins; their inputs stay. -/
theorem State.input_settle (s : State) (k : Nat) : (s.settle.pin k).input = (s.pin k).input := by
  refine Keeps.foldl (I := fun u => (u.pin k).input = (s.pin k).input) (fun u e hu => ?_) _ rfl
  dsimp only
  split
  · refine (congrArg FioPin.input (State.takeLevel_pin _ _ _ k)).trans ?_
    split
    · exact hu
    · refine Eq.trans ?_ hu
      by_cases hk : k = u.cfg e.1 0 4 % 256
      · subst hk
        exact (congrArg FioPin.input (u.pin_putPin_same _ _)).trans rfl
      · exact congrArg FioPin.input (Tbl.get_set_other _ hk _ _)
  · exact hu

/-! ### A filtered level taken (R476) -/

/-- The edge of a pin reaches encoders, capture channels and event routes, none of which changes a pin. -/
theorem State.pin_edgeSinks (s : State) (pin : Nat) (b : Bool) (at_ : Instant) (k : Nat) :
    ((((s.encoderEdge pin).edgeChans pin at_).emitEdge 0 pin b at_).pin k) = s.pin k := by
  have hcounted := keeps_encoderEdge (closed_frame _ s) (Frame.refl _ s) pin
  have hsampled := keeps_edgeChans (closed_frame _ (s.encoderEdge pin)) (Frame.refl _ _) pin at_
  have hrouted := keeps_emitEdge (closed_frame _ ((s.encoderEdge pin).edgeChans pin at_)) (Frame.refl _ _) 0 pin b at_
  rw [State.pin_congr (hrouted.part (p := .fio) rfl), State.pin_congr (hsampled.part (p := .fio) rfl), State.pin_congr (hcounted.part (p := .fio) rfl)]

/-- The level taken is the raw one, no edge waits, and only a change is stamped: with the edge that waited. -/
theorem State.input_takePin (s : State) (pin : Nat) : ((s.takePin pin).pin pin).input =
    ((s.pin pin).raw, (s.pin pin).raw, none, if (s.pin pin).level = (s.pin pin).raw then (s.pin pin).stamp else (s.pin pin).edge.getD s.now) := by
  simp only [State.takePin]
  split
  · rename_i hsame
    rw [State.pin_putPin_same, FioPin.input, hsame]
  · rw [State.input_settle, State.pin_edgeSinks, State.pin_putPin_same, FioPin.input]

/-- A raw edge that begins its wait. -/
def State.noteEdge (s : State) (pin : Nat) (level : Bool) : State := s.putPin pin { s.pin pin with raw := level, edge := some s.now }

theorem State.pin_noteEdge (s : State) (pin : Nat) (level : Bool) :
    (s.noteEdge pin level).pin pin = { s.pin pin with raw := level, edge := some s.now } := s.pin_putPin_same _ _

theorem execFioInputEdge_eq (t : Instant) (pin : Fin 192) (level : Bool) (s : State) : execFioInputEdge t pin level s =
    .next (if s.cfg (pinKey pin) 2 2 = 0 then ((s.advance t).noteEdge pin level).takePin pin else (s.advance t).noteEdge pin level) := by
  rw [← s.cfg_advance t]
  rfl

/-- With FILTER_NS 0 the edge passes at once. -/
theorem fioInputEdge_passes (t : Instant) {pin : Fin 192} (level : Bool) {s : State} (hfilter : s.cfg (pinKey pin) 2 2 = 0) :
    Ends (.fioInputEdge t pin level) s (fun u => (u.pin pin).raw = level ∧ (u.pin pin).level = level ∧
    (u.pin pin).stamp = (if (s.pin pin).level = level then (s.pin pin).stamp else (s.advance t).now)) := by
  have htaken := ((s.advance t).noteEdge pin level).input_takePin pin
  simp only [State.pin_noteEdge, State.pin_advance, FioPin.input, Prod.mk.injEq, Option.getD_some] at htaken
  obtain ⟨hraw, hlevel, -, hstamp⟩ := htaken
  exact ⟨_, (execFioInputEdge_eq t pin level s).trans (congrArg _ (if_pos hfilter)), hraw, hlevel, hstamp⟩

/-- Otherwise it waits. -/
theorem fioInputEdge_waits (t : Instant) {pin : Fin 192} (level : Bool) {s : State} (hfilter : s.cfg (pinKey pin) 2 2 ≠ 0) :
    Ends (.fioInputEdge t pin level) s (fun u => (u.pin pin).raw = level ∧ (u.pin pin).level = (s.pin pin).level ∧
    (u.pin pin).edge = some (s.advance t).now ∧ u.regs = (s.advance t).regs) := by
  refine ⟨_, (execFioInputEdge_eq t pin level s).trans (congrArg _ (if_neg hfilter)), ?_⟩
  simp only [State.pin_noteEdge, State.pin_advance, true_and]
  rfl

/-- A level that has held for FILTER_NS is taken, stamped with its edge. -/
theorem filterTake_taken {t : Instant} {pin : Fin 192} {s : State} {e : Instant} (hedge : (s.pin pin).edge = some e)
    (hheld : (s.cfg (pinKey pin) 2 2 : Int) ≤ sinceNs (s.advance t).now e) :
    Ends (.filterTake t pin) s (fun u => (u.pin pin).level = (s.pin pin).raw ∧ (u.pin pin).edge = none ∧
    (u.pin pin).stamp = (if (s.pin pin).level = (s.pin pin).raw then (s.pin pin).stamp else e)) := by
  have hexec : execFilterTake t pin s = .next ((s.advance t).takePin pin) := by
    simp only [execFilterTake, State.pin_advance, hedge, State.cfg_advance, if_pos hheld]
  have htaken := (s.advance t).input_takePin pin
  simp only [State.pin_advance, hedge, FioPin.input, Prod.mk.injEq, Option.getD_some] at htaken
  obtain ⟨-, hlevel, hwaits, hstamp⟩ := htaken
  exact ⟨_, hexec, hlevel, hwaits, hstamp⟩

/-! ### A logic element's state and output -/

theorem State.le_congr {s u : State} (h : u.loom.les = s.loom.les) (n : Nat) : u.le n = s.le n := by
  simp only [State.le, h]

@[simp] theorem State.le_advance (s : State) (t : Instant) (n : Nat) : (s.advance t).le n = s.le n := State.le_congr (congrArg Loom.les (s.advance_loom t)) n

@[simp] theorem State.le_putLe_same (s : State) (n : Nat) (x : LogicElem) : (s.putLe n x).le n = x := Tbl.get_set_same _ _ _ _

@[simp] theorem State.leOut_putLe (s : State) (n m : Nat) (x : LogicElem) : (s.putLe n x).leOut m = s.leOut m := rfl

@[simp] theorem State.leOut_advance (s : State) (t : Instant) (n : Nat) : (s.advance t).leOut n = s.leOut n := by
  simp only [State.leOut, rd_advance s t (fld := F.LE_NET) (by decide)]

@[simp] theorem State.lutValue_advance (s : State) (t : Instant) (n : Nat) : (s.advance t).lutValue n = s.lutValue n := by
  simp only [State.lutValue, State.cfg_advance, State.net_advance, State.leOut_advance]

/-- A bit put reads as it was put. -/
theorem bitOf_putBit_same (x k : Nat) (b : Bool) : bitOf (putBit x k b) k = b := by
  cases b with
  | false => simp [bitOf_putBit_false]
  | true => simp [bitOf, putBit]

/-- An output set reads as it was set. -/
theorem State.leOut_setLe (s : State) (n : Nat) (b : Bool) : (s.setLe n b).leOut n = b := by
  rw [State.setLe]
  split
  · assumption
  · rw [State.leOut, rd_settle _ (by decide), rd_emitEdge _ _ _ _ _ (by decide), State.rd_wr_same]
    have hbit : n % 32 < F.LE_NET.width := Nat.mod_lt _ (by decide)
    have hput := bitOf_putBit_same (s.rd F.LE_NET (n / 32)) (n % 32) b
    rw [bitOf] at hput
    simp only [bitOf, Nat.testBit_mod_two_pow, hbit, hput, decide_true, Bool.true_and]

/-- Setting an output changes no element's state. -/
theorem State.le_setLe (s : State) (n : Nat) (b : Bool) (m : Nat) : (s.setLe n b).le m = s.le m := by
  rw [State.setLe]
  split
  · rfl
  · have hwritten : OutsOnly s.loom (s.wr F.LE_NET (putBit (s.rd F.LE_NET (n / 32)) (n % 32) b) (n / 32)) := ⟨s.loom.outs, rfl⟩
    have hrouted : OutsOnly s.loom ((s.wr F.LE_NET (putBit (s.rd F.LE_NET (n / 32)) (n % 32) b) (n / 32)).emitEdge 1 n b s.now) :=
      keeps_emitEdge (closed_outsOnly s.loom (by decide)) hwritten 1 n b s.now
    obtain ⟨outs, hsettled⟩ := hrouted.settle
    refine State.le_congr ?_ m
    rw [hsettled]

/-! ### An input change (R219) -/

/-- COMB and LATCH put out the value of the function. -/
theorem State.evalLe_plain {s : State} {n : Nat} (hmode : s.cfg (leKey n) 2 1 ≤ 1) (since : Instant) :
    s.evalLe n since = (s.putLe n { s.le n with f := s.lutValue n }).setLe n (s.lutValue n) := by
  have hcfg : (s.putLe n { s.le n with f := s.lutValue n }).cfg (leKey n) 2 1 = s.cfg (leKey n) 2 1 := rfl
  obtain hcomb | hlatch : s.cfg (leKey n) 2 1 = 0 ∨ s.cfg (leKey n) 2 1 = 1 := by omega
  · simp only [State.evalLe, hcfg, hcomb]
  · simp only [State.evalLe, hcfg, hlatch]

/-- A rise at a TON starts its timer, unless it has run out already. -/
theorem State.evalLe_tonRise {s : State} {n : Nat} {since : Instant} (hmode : s.cfg (leKey n) 2 1 = 2) (hrise : s.lutValue n = true) (hlow : (s.le n).f = false)
    (hfuture : notLater (addNs since (1000 * s.cfg (leKey n) 4 4)) s.now = false) :
    s.evalLe n since = (s.putLe n { s.le n with f := true }).putLe n ⟨true, some (addNs since (1000 * s.cfg (leKey n) 4 4))⟩ := by
  have hcfg : (s.putLe n { s.le n with f := true }).cfg (leKey n) 2 1 = 2 := hmode
  have hnow : (s.putLe n { s.le n with f := true }).now = s.now := rfl
  simp [State.evalLe, hrise, hcfg, hlow, hnow, hfuture]

section
variable {t : Instant} {n : Fin 16384} {s : State} (hquad : s.quadOn (n / 4096) = true)
include hquad

theorem execLeInputChange_powered (since : Instant) : execLeInputChange t n since s = .next ((s.advance t).evalLe n since) := by
  simp only [execLeInputChange, State.quadOn_advance, if_pos hquad]

theorem leInputChange_plain (since : Instant) (hmode : s.cfg (leKey n) 2 1 ≤ 1) :
    Ends (.leInputChange t n since) s (fun u => u.leOut n = s.lutValue n ∧ (u.le n).f = s.lutValue n) := by
  refine ⟨_, execLeInputChange_powered hquad since, ?_⟩
  rw [State.evalLe_plain ((s.cfg_advance t _ _ _).trans_le hmode), State.lutValue_advance]
  exact ⟨State.leOut_setLe _ _ _, congrArg LogicElem.f ((State.le_setLe _ _ _ _).trans (State.le_putLe_same _ _ _))⟩

theorem leInputChange_tonRise {since : Instant} (hmode : s.cfg (leKey n) 2 1 = 2) (hrise : s.lutValue n = true) (hlow : (s.le n).f = false)
    (hfuture : notLater (addNs since (1000 * s.cfg (leKey n) 4 4)) (s.advance t).now = false) : Ends (.leInputChange t n since) s (fun u =>
    u.le n = ⟨true, some (addNs since (1000 * s.cfg (leKey n) 4 4))⟩ ∧ u.leOut n = s.leOut n) := by
  refine ⟨_, execLeInputChange_powered hquad since, ?_⟩
  rw [State.evalLe_tonRise ((s.cfg_advance t _ _ _).trans hmode) ((s.lutValue_advance t _).trans hrise) ((congrArg LogicElem.f (s.le_advance t _)).trans hlow)
    (by rwa [State.cfg_advance]), State.cfg_advance]
  exact ⟨State.le_putLe_same _ _ _, s.leOut_advance t n⟩

/-! ### A timer that runs out (R219) -/

/-- What the end of a timer puts out: TON rises, TOF and TP fall, other modes have no timer. -/
def State.timeOut (s : State) (n : Nat) (f : Bool) : State :=
  match s.cfg (leKey n) 2 1 with
  | 2 => s.when f (·.setLe n true)
  | 3 => s.when (!f) (·.setLe n false)
  | 4 => s.setLe n false
  | _ => s

theorem execLeTimerExpiry_due {d : Instant} (hdeadline : (s.le n).deadline = some d) (hdue : notLater d (s.advance t).now = true) :
    execLeTimerExpiry t n s = .next (((s.advance t).putLe n { s.le n with deadline := none }).timeOut n (s.le n).f) := by
  simp only [execLeTimerExpiry, State.le_advance, hdeadline, hdue, State.quadOn_advance, hquad, Bool.and_self, if_true]
  rfl

omit hquad in
/-- The end of a timer changes no element's state. -/
theorem State.le_timeOut (s : State) (n : Nat) (f : Bool) (m : Nat) : (s.timeOut n f).le m = s.le m := by
  have hset (b c : Bool) : (s.when c (·.setLe n b)).le m = s.le m := by
    cases c with
    | false => rfl
    | true => exact s.le_setLe n b m
  rw [State.timeOut]
  split
  · exact hset true f
  · exact hset false !f
  · exact s.le_setLe n false m
  · rfl

omit hquad in
/-- The output after the end of a timer, by the mode. -/
theorem State.leOut_timeOut (s : State) (n : Nat) (f : Bool) : (s.timeOut n f).leOut n =
    (if s.cfg (leKey n) 2 1 = 2 ∧ f = true then true else if (s.cfg (leKey n) 2 1 = 3 ∧ f = false) ∨ s.cfg (leKey n) 2 1 = 4 then false else s.leOut n) := by
  rw [State.timeOut]
  split
  · rename_i hton
    cases f <;> simp [hton, State.when, State.leOut_setLe]
  · rename_i htof
    cases f <;> simp [htof, State.when, State.leOut_setLe]
  · rename_i htp
    simp [htp, State.leOut_setLe]
  · rename_i hton htof htp
    rw [if_neg fun h => hton h.1, if_neg fun h => h.elim (fun h => htof h.1) htp]

theorem leTimerExpiry_due {d : Instant} (hdeadline : (s.le n).deadline = some d) (hdue : notLater d (s.advance t).now = true) :
    Ends (.leTimerExpiry t n) s (fun u => (u.le n).deadline = none ∧ u.leOut n = (if s.cfg (leKey n) 2 1 = 2 ∧
    (s.le n).f = true then true else if (s.cfg (leKey n) 2 1 = 3 ∧ (s.le n).f = false) ∨ s.cfg (leKey n) 2 1 = 4 then false else s.leOut n)) := by
  refine ⟨_, execLeTimerExpiry_due hquad hdeadline hdue, ?_, ?_⟩
  · rw [State.le_timeOut, State.le_putLe_same]
  · have hcfg : ((s.advance t).putLe n { s.le n with deadline := none }).cfg (leKey n) 2 1 = s.cfg (leKey n) 2 1 := s.cfg_advance t _ _ _
    rw [State.leOut_timeOut, hcfg, State.leOut_putLe, State.leOut_advance]

end

end Sys2Proof.Machine
end

section
/-! PROOFS.  An event on a route latched by the sequencers (09 R217; 08 R193, R194). -/

namespace Sys2Proof.Machine

open Sys2Proof

set_option Elab.async false

/-! ### What capturing leaves of the sequencers -/

/-- The sequencers beyond their registers are `v`. -/
def SameSeqs (v : Tbl TrigSeq) (s : State) : Prop := s.trig.seqs = v

theorem closed_sameSeqs (v : Tbl TrigSeq) {t : Touch} (h : t.hasPart .trig = false) : Closed (SameSeqs v) t :=
  closed_of_frame fun _ _ hf hs => (congrArg Trig.seqs (hf.trig h)).trans hs

namespace SameSeqs

variable {v : Tbl TrigSeq} {s : State}

theorem ite {c : Prop} [Decidable c] {a b : State} (ha : SameSeqs v a) (hb : SameSeqs v b) : SameSeqs v (if c then a else b) := Keeps.ite (I := SameSeqs v) ha hb

theorem wr (h : SameSeqs v s) (f : Fld) (x i : Nat) : SameSeqs v (s.wr f x i) := h

theorem putCset (h : SameSeqs v s) (n : Nat) (x : CapSet) : SameSeqs v (s.putCset n x) := h

theorem csEvent (h : SameSeqs v s) (n bit res : Nat) : SameSeqs v (s.csEvent n bit res) := keeps_csEvent (closed_sameSeqs v (by decide)) h _ _ _

theorem overflow (h : SameSeqs v s) (n c : Nat) (at_ : Instant) : SameSeqs v (s.overflow n c at_) :=
  ((h.putCset n _).csEvent n 2 0).wr _ _ _

theorem closeChunk (h : SameSeqs v s) (n : Nat) : SameSeqs v (s.closeChunk n).1 := by
  simp only [State.closeChunk]
  split
  · exact h
  · refine keeps_dispatch (I := SameSeqs v) (closed_sameSeqs v (by decide)) (keeps_pushEntry (closed_sameSeqs v (by decide)) ?_ _ _)
    exact h

theorem closeChunks (h : SameSeqs v s) (n : Nat) (rest : Bool) (fuel : Nat) : SameSeqs v (s.closeChunks n rest fuel) := by
  induction fuel generalizing s with
  | zero => exact h
  | succ fuel ih =>
    have hclosed := h.closeChunk n
    simp only [State.closeChunks]
    split
    · exact h
    · refine ite h (ite (ih hclosed) (ite (ite hclosed ?_) (hclosed.overflow n _ _)))
      exact (hclosed.putCset n _).csEvent n 2 0

theorem streamChunks (h : SameSeqs v s) (n : Nat) : SameSeqs v (s.streamChunks n) := ite (h.closeChunks n _ _) h

theorem putPost (h : SameSeqs v s) (n c : Nat) (at_ : Instant) (w : Word) : SameSeqs v (s.putPost n c at_ w) := by
  have hdrawn (c : Prop) [Decidable c] : SameSeqs v (if c then s.draw.2 else s) := ite h h
  simp only [State.putPost]
  split
  · exact h
  · refine ite h (ite ((hdrawn _).overflow n c at_) ?_)
    split
    · exact (((hdrawn _).putCset n _).overflow n c _).streamChunks n
    · exact ((hdrawn _).putCset n _).streamChunks n

theorem capSample (h : SameSeqs v s) (c : Nat) (at_ : Instant) (w : Word) : SameSeqs v (s.capSample c at_ w) := by
  simp only [State.capSample]
  split
  · exact h
  · refine ite h ?_
    split
    · exact h
    · exact h
    · exact ite h (ite (h.putPost _ c at_ w) h)
    · exact ite h (ite (h.putPost _ c at_ w) h)
    · exact h

end SameSeqs

/-! ### The events that a sequencer latches (R193) -/

/-- Sequencer `n` uses events of route `er` in its present state: it counts them, or one of its conditions waits for them. -/
def State.usesEvent (s : State) (n er : Nat) : Bool :=
  let x := 16 * n + s.rd F.TS_STATUS_STATE n
  (s.rd F.TS_ST_CFG_CNT_KIND x == 1 && s.rd F.TS_ST_CFG_CNT_SRC x == er) ||
    (List.range 4).any (fun i => s.rd F.TS_COND_CFG_KIND (4 * x + i) == 2 && s.rd F.TS_COND_CFG_SRC (4 * x + i) == er)

/-- The fields that say which events a sequencer uses. -/
def eventUseFields : List Fld := [F.TS_STATUS_STATE, F.TS_ST_CFG_CNT_KIND, F.TS_ST_CFG_CNT_SRC, F.TS_COND_CFG_KIND, F.TS_COND_CFG_SRC]

theorem State.usesEvent_congr {s u : State} (h : ∀ f ∈ eventUseFields, ∀ i, u.rd f i = s.rd f i) (n er : Nat) : u.usesEvent n er = s.usesEvent n er := by
  simp only [eventUseFields, List.forall_mem_cons] at h
  obtain ⟨hstate, hcountKind, hcountSrc, hkind, hsrc, -⟩ := h
  simp only [State.usesEvent, hstate, hcountKind, hcountSrc, hkind, hsrc]

/-- A condition on the route makes the sequencer use its events. -/
theorem State.usesEvent_of_cond {s : State} {n er i : Nat} (hi : i < 4) (hkind : s.rd F.TS_COND_CFG_KIND (4 * (16 * n + s.rd F.TS_STATUS_STATE n) + i) = 2)
    (hsrc : s.rd F.TS_COND_CFG_SRC (4 * (16 * n + s.rd F.TS_STATUS_STATE n) + i) = er) : s.usesEvent n er = true := by
  refine Bool.or_eq_true _ _ |>.mpr (.inr (List.any_eq_true.mpr ⟨i, List.mem_range.mpr hi, ?_⟩))
  simp only [hkind, hsrc, beq_self_eq_true, Bool.and_self]

/-- One sequencer's part in the latching of an event. -/
def State.latchSeq (s : State) (er : Nat) (at_ : Instant) (n : Nat) : State :=
  if s.usesEvent n er then s.putSeq n { s.seq n with events := (s.seq n).events ++ [(er, at_)] } else s

theorem State.latchSeqs_eq (s : State) (er : Nat) (at_ : Instant) :
    s.latchSeqs er at_ = s.each (s.trig.seqs.keys.filter (fun n => s.on F.TS_STATUS_RUNNING n)) (fun s n => s.latchSeq er at_ n) := rfl

theorem State.usesEvent_latchSeq (s : State) (er : Nat) (at_ : Instant) (m n : Nat) : (s.latchSeq er at_ m).usesEvent n er = s.usesEvent n er := by
  rw [State.latchSeq]
  split <;> rfl

@[simp] theorem State.seq_putSeq_same (s : State) (n : Nat) (x : TrigSeq) : (s.putSeq n x).seq n = x := Tbl.get_set_same _ _ _ _

theorem State.mem_events_latchSeq_same {s : State} {er n : Nat} (h : s.usesEvent n er = true) (at_ : Instant) : (er, at_) ∈ ((s.latchSeq er at_ n).seq n).events := by
  rw [State.latchSeq, if_pos h, State.seq_putSeq_same]
  exact List.mem_append_right _ (List.mem_singleton.mpr rfl)

/-- An event latched before stays. -/
theorem State.mem_events_latchSeq_of_mem {s : State} {n : Nat} {e : Nat × Instant} (h : e ∈ (s.seq n).events) (er : Nat) (at_ : Instant) (m : Nat) :
    e ∈ ((s.latchSeq er at_ m).seq n).events := by
  rw [State.latchSeq]
  split
  · by_cases hn : n = m
    · subst hn
      rw [State.seq_putSeq_same]
      exact List.mem_append_left _ h
    · rwa [show (s.putSeq m { s.seq m with events := (s.seq m).events ++ [(er, at_)] }).seq n = s.seq n from Tbl.get_set_other _ hn _ _]
  · exact h

theorem State.mem_events_each_latchSeq {s : State} {er n : Nat} (at_ : Instant) {l : List Nat} (hn : n ∈ l) (huses : s.usesEvent n er = true) :
    (er, at_) ∈ ((s.each l (fun s m => s.latchSeq er at_ m)).seq n).events := by
  induction l generalizing s with
  | nil => exact absurd hn List.not_mem_nil
  | cons m l ih =>
    obtain rfl | hn := List.mem_cons.mp hn
    · exact Keeps.foldl (I := fun u => (er, at_) ∈ (u.seq n).events) (fun _ _ hu => State.mem_events_latchSeq_of_mem hu _ _ _) l
        (State.mem_events_latchSeq_same huses at_)
    · exact ih hn ((s.usesEvent_latchSeq er at_ m n).trans huses)

/-- A running sequencer that uses the event latches it. -/
theorem State.mem_events_latchSeqs {s : State} {er n : Nat} (at_ : Instant) (hkey : n ∈ s.trig.seqs.keys) (hrun : s.on F.TS_STATUS_RUNNING n = true)
    (huses : s.usesEvent n er = true) : (er, at_) ∈ ((s.latchSeqs er at_).seq n).events := by
  rw [State.latchSeqs_eq]
  exact State.mem_events_each_latchSeq at_ (List.mem_filter.mpr ⟨hkey, hrun⟩) huses

/-! ### An event emitted (R217) -/

/-- Beyond the latching, an event changes no sequencer. -/
theorem State.seqs_emit (s : State) (er data : Nat) (at_ : Instant) : (s.emit er data at_).trig.seqs = ((s.latchConds 0 er).latchSeqs er at_).trig.seqs := by
  have hsampled : SameSeqs ((s.latchConds 0 er).latchSeqs er at_).trig.seqs ((s.latchConds 0 er).trigEvent er data at_) :=
    keeps_each (I := SameSeqs _) (Eq.refl ((s.latchConds 0 er).latchSeqs er at_).trig.seqs) _ _ fun _ _ hu => hu.capSample _ _ _
  exact SameSeqs.ite hsampled (keeps_dispatch (closed_sameSeqs _ (by decide)) (keeps_schedPut (closed_sameSeqs _ (by decide)) hsampled er data))

theorem State.mem_events_emit {s : State} {er n : Nat} (data : Nat) (at_ : Instant) (hkey : n ∈ s.trig.seqs.keys) (hrun : s.on F.TS_STATUS_RUNNING n = true)
    (huses : s.usesEvent n er = true) : (er, at_) ∈ ((s.emit er data at_).seq n).events := by
  have hconds := keeps_latchConds (closed_frame _ s) (Frame.refl _ s) 0 er
  have hlatched : (er, at_) ∈ (((s.latchConds 0 er).latchSeqs er at_).seq n).events := by
    refine State.mem_events_latchSeqs at_ ?_ ?_ ?_
    · rwa [hconds.trig rfl]
    · rwa [State.on, rd_latchConds _ _ _ (by decide)]
    · rwa [State.usesEvent_congr fun f hf i => hconds.rd (by revert f; decide) i]
  rwa [State.seq, State.seqs_emit]

/-- A running sequencer that waits for the route's events latches the event, at its instant. -/
theorem eventRouteEvent_latched {t : Instant} {er : Fin 8192} {data : Word} {s : State} {n : Fin 32} {i : Fin 4} (hquad : s.quadOn (er / 2048) = true)
    (hkey : s.trig.seqs.keys.contains n.val = true) (hrun : s.rd F.TS_STATUS_RUNNING n ≠ 0)
    (hkind : s.rd F.TS_COND_CFG_KIND (4 * (16 * n + s.rd F.TS_STATUS_STATE n) + i) = 2)
    (hsrc : s.rd F.TS_COND_CFG_SRC (4 * (16 * n + s.rd F.TS_STATUS_STATE n) + i) = er) :
    Ends (.eventRouteEvent t er data) s (fun u => (u.seq n).events.contains (er.val, (s.advance t).now) = true) := by
  have hexec : execEventRouteEvent t er data s = .next ((s.advance t).emit er data.toNat (s.advance t).now) := by
    simp only [execEventRouteEvent, State.quadOn_advance, if_pos hquad]
  have huses : (s.advance t).usesEvent n er = true :=
    (State.usesEvent_congr (fun f hf i => rd_advance s t (by revert f; decide) i) n er).trans (State.usesEvent_of_cond i.isLt hkind hsrc)
  refine ⟨_, hexec, List.contains_iff_mem.mpr (State.mem_events_emit _ _ ?_ ?_ huses)⟩
  · rw [State.advance_trig]
    exact List.contains_iff_mem.mp hkey
  · rw [s.on_advance t (by decide)]
    exact bne_iff_ne.mpr hrun

end Sys2Proof.Machine
end

section
/-! PROOFS.  The events of the Loom stay set while a partition enters STOP (09 R215, R233; 10 R253, R260; 11 R278). -/

namespace Sys2Proof.Machine

open Sys2Proof

set_option Elab.async false

/-- Event `bit` of the Loom is set. -/
def LoomEventSet (bit : Nat) (s : State) : Prop := bitOf (s.rd F.LOOM_EVENT) bit = true

theorem closed_loomEventSet {bit : Nat} {t : Touch} (h : t.has F.LOOM_EVENT.id = false) : Closed (LoomEventSet bit) t :=
  closed_of_frame fun _ _ hf hs => (congrArg (bitOf · bit) (hf.rd h 0)).trans hs

namespace LoomEventSet

variable {bit : Nat} {s : State}

theorem ite {c : Prop} [Decidable c] {a b : State} (ha : LoomEventSet bit a) (hb : LoomEventSet bit b) : LoomEventSet bit (if c then a else b) :=
  Keeps.ite (I := LoomEventSet bit) ha hb

theorem when (h : LoomEventSet bit s) (c : Bool) {f : State → State} (hf : ∀ u, LoomEventSet bit u → LoomEventSet bit (f u)) : LoomEventSet bit (s.when c f) :=
  keeps_when (I := LoomEventSet bit) h c f hf

theorem each (h : LoomEventSet bit s) (l : List Nat) {f : State → Nat → State} (hf : ∀ u i, LoomEventSet bit u → LoomEventSet bit (f u i)) :
    LoomEventSet bit (s.each l f) := keeps_each (I := LoomEventSet bit) h l f hf

theorem wr (h : LoomEventSet bit s) (f : Fld) (hf : (F.LOOM_EVENT.id == f.id) = false) (v i : Nat) : LoomEventSet bit (s.wr f v i) :=
  (congrArg (bitOf · bit) (s.rd_wr_field hf v i 0)).trans h

/-- A further event leaves it set. -/
theorem loomEvent (h : LoomEventSet bit s) (hbit : bit < 6) (stream id b : Nat) (detail : List Byte) : LoomEventSet bit (s.loomEvent stream id b detail) := by
  have hset : (s.rd F.LOOM_EVENT).testBit bit = true := h
  have hwidth : bit < F.LOOM_EVENT.width := hbit
  rw [LoomEventSet, State.loomEvent, rd_event _ _ _ _ _ _ _ _ (by decide), State.rd_setBit_same, bitOf, Nat.testBit_mod_two_pow, withBit, Nat.testBit_or, hset,
    decide_eq_true hwidth]
  rfl

/-- An event offered to the scheduler reports its loss at most (R217). -/
theorem offerEvent (h : LoomEventSet bit s) (hbit : bit < 6) (k data : Nat) (waits : Bool) : LoomEventSet bit (s.offerEvent k data waits) := by
  unfold State.offerEvent
  extract_lets input entered served
  have hentered : LoomEventSet bit entered := keeps_enterFifo (closed_loomEventSet (by decide)) h k data
  have hserved : LoomEventSet bit served := hentered.when _ fun _ hu => keeps_serve (closed_loomEventSet (by decide)) hu _
  have hunbound : LoomEventSet bit ((s.schedEvent (some (s.inputPart input)) 5).bump F.SCHED_EVT_UNBOUND_CNT) :=
    wr (keeps_schedEvent (closed_loomEventSet (by decide)) h _ 5) _ (by decide) _ 0
  have hcounted : LoomEventSet bit ((s.bump F.LOOM_EVT_OVF).wr F.LOOM_OVF_ROUTE k) :=
    (h.wr _ (by decide) _ 0).wr _ (by decide) k 0
  exact ite hunbound (ite (ite hserved (keeps_internalWake (closed_loomEventSet (by decide)) hserved 1))
    (ite (keeps_putHeld (closed_loomEventSet (by decide)) h k _) (hcounted.loomEvent hbit _ k 4 [])))

/-- A completion offers the event of its queue at most (10 R253, R262). -/
theorem endOne (h : LoomEventSet bit s) (hbit : bit < 6) (e : Ending) : LoomEventSet bit (s.endOne e).1 := by
  unfold State.endOne
  extract_lets i x landed left next told rooted task ended cq queue counted was queued served first raised offered freed
  have hlanded : LoomEventSet bit landed := keeps_landTask (closed_loomEventSet (by decide)) (keeps_unlist (closed_loomEventSet (by decide)) h i) i
  have hleft : LoomEventSet bit left := by
    simp only [left]
    split
    · rename_i f _
      have hout : LoomEventSet bit (landed.putFlow f ((landed.flow f).filter (· != i))) := keeps_putFlow (closed_loomEventSet (by decide)) hlanded f _
      have hidle := ite (c := x.inflight = true) (hout.wr F.FLOW_STATE_IN_SERVICE (by decide) 0 f) hout
      exact ite (keeps_holdFlow (closed_loomEventSet (by decide)) hidle f _) (keeps_offerHead (closed_loomEventSet (by decide)) hidle f)
    · exact hlanded
  have htold : LoomEventSet bit told.1 := keeps_notifyAll (closed_loomEventSet (by decide)) hleft _ _ _
  have hrooted : LoomEventSet bit rooted := by
    simp only [rooted]
    split
    · exact keeps_onSched (closed_loomEventSet (by decide)) htold _
    · exact htold
  have hended : LoomEventSet bit ended := keeps_putTask (closed_loomEventSet (by decide)) hrooted i _
  have hcounted : LoomEventSet bit counted := ite (hended.wr _ (by decide) _ cq) hended
  have hserved : LoomEventSet bit served.1 :=
    keeps_serveQueue (closed_loomEventSet (by decide)) (keeps_putQueue (closed_loomEventSet (by decide)) hcounted cq _) cq _ _
  have hraised : LoomEventSet bit raised := hserved.when _ fun _ hu => keeps_interrupt (closed_loomEventSet (by decide)) hu _
  have hoffered : LoomEventSet bit offered := by
    simp only [offered]
    split
    · exact hraised.when _ fun _ hu => offerEvent hu hbit _ 0 true
    · exact hraised
  exact ite (keeps_freeAll (closed_loomEventSet (by decide)) hoffered _) (keeps_freeAll (closed_loomEventSet (by decide)) hended _)

theorem endings (h : LoomEventSet bit s) (hbit : bit < 6) (fuel : Nat) (l : List Ending) : LoomEventSet bit (s.endings fuel l) := by
  induction fuel generalizing s l with
  | zero => exact h
  | succ fuel ih =>
    cases l with
    | nil => exact h
    | cons e rest => exact ite (ih (h.endOne hbit e) _) (ih h _)

theorem complete (h : LoomEventSet bit s) (hbit : bit < 6) (i status cause code : Nat) : LoomEventSet bit (s.complete i status cause code) :=
  keeps_dispatch (closed_loomEventSet (by decide)) (h.endings hbit _ _)

theorem settleFlow (h : LoomEventSet bit s) (hbit : bit < 6) (f : Nat) : LoomEventSet bit (s.settleFlow f) :=
  keeps_dispatch (closed_loomEventSet (by decide)) (keeps_offerHead (closed_loomEventSet (by decide)) (h.endings hbit _ _) f)

/-- A cancel completes its task at most (10 R260). -/
theorem cancelSlot (h : LoomEventSet bit s) (hbit : bit < 6) (i : Nat) : LoomEventSet bit (s.cancelSlot i).1 := by
  have hcounted : LoomEventSet bit (s.bump F.SCHED_CANCEL_CNT) := h.wr _ (by decide) _ 0
  have hoff : LoomEventSet bit ((s.bump F.SCHED_CANCEL_CNT).unlist i) := keeps_unlist (closed_loomEventSet (by decide)) hcounted i
  simp only [State.cancelSlot]
  split
  · exact hcounted.complete hbit i 2 32 0
  · split
    · split
      · exact settleFlow (keeps_putTask (closed_loomEventSet (by decide)) hoff i _) hbit _
      · exact hoff.complete hbit i 2 32 0
    · split
      · exact h
      · exact wr (keeps_putTask (closed_loomEventSet (by decide)) h i _) _ (by decide) _ 0

theorem dropScan (h : LoomEventSet bit s) (hbit : bit < 6) (p k : Nat) : LoomEventSet bit (s.dropScan p k) := by
  unfold State.dropScan
  split
  · exact h
  · extract_lets task dropped mine unscanned cancelled
    have hdropped : LoomEventSet bit dropped := keeps_dropRoot (closed_loomEventSet (by decide)) (keeps_putCycTask (closed_loomEventSet (by decide)) h k _) p k
    have hunscanned : LoomEventSet bit unscanned := hdropped.each mine fun _ _ hu => keeps_putTask (closed_loomEventSet (by decide)) hu _ _
    have hcancelled : LoomEventSet bit cancelled := hunscanned.each mine fun _ i hu => ite (cancelSlot hu hbit i) hu
    exact keeps_onSched (closed_loomEventSet (by decide)) hcancelled _

theorem enterStop (h : LoomEventSet bit s) (hbit : bit < 6) (p cause : Nat) : LoomEventSet bit (s.enterStop p cause) := by
  unfold State.enterStop
  extract_lets entered dropped aborted
  have hentered : LoomEventSet bit entered := ((h.wr _ (by decide) 0 p).wr _ (by decide) cause p).wr _ (by decide) _ p
  have hdropped : LoomEventSet bit dropped := hentered.each (cycTasks p) fun _ k hu => dropScan hu hbit p k
  have haborted : LoomEventSet bit aborted :=
    keeps_abortTreadle (closed_loomEventSet (by decide)) (keeps_safeOutputs (closed_loomEventSet (by decide)) hdropped p) p
  exact keeps_runChange (closed_loomEventSet (by decide)) (keeps_settle (closed_loomEventSet (by decide))
    (keeps_stopRecord (closed_loomEventSet (by decide)) (keeps_cpEvent (closed_loomEventSet (by decide)) haborted p 1) p cause))

/-- A STOP clears no event of the Loom. -/
theorem partStop (h : LoomEventSet bit s) (hbit : bit < 6) (p cause : Nat) : LoomEventSet bit (s.partStop p cause) :=
  ite (ite (keeps_stopRecord (closed_loomEventSet (by decide)) h p cause) h) (enterStop h hbit p cause)

end LoomEventSet

end Sys2Proof.Machine
end

section
/-! PROOFS.  Stalls and configuration scans (09 R215, R217, R233), and the statement of the Loom's inputs, logic and routes. -/

namespace Sys2Proof.Machine

open Sys2Proof

set_option Elab.async false

/-! ### The STOP of an owner -/

/-- After a stop cause a partition is in STOP. -/
theorem State.inStop_partStop (s : State) (p cause : Nat) : (s.partStop p cause).inStop p = true := by
  refine beq_iff_eq.mpr ?_
  by_cases hstop : s.rd F.CP_STATUS_STATE p = 0
  · rw [State.partStop, if_pos hstop]
    split
    · rwa [rd_stopRecord _ _ _ (by decide)]
    · exact hstop
  · exact s.rd_partStop_state cause hstop

/-- A stop cause for the owner of a resource, if it has one. -/
def State.stopOwner (s : State) (o : Option Nat) (cause : Nat) : State :=
  match o with
  | some p => s.partStop p cause
  | none => s

theorem State.rd_stopOwner (s : State) (o : Option Nat) (cause : Nat) {f : Fld} (hf : Touched.partStop.has f.id = false) (i : Nat) :
    (s.stopOwner o cause).rd f i = s.rd f i := by
  cases o with
  | none => rfl
  | some p => exact rd_partStop s p cause hf i

theorem LoomEventSet.stopOwner {bit : Nat} {s : State} (h : LoomEventSet bit s) (hbit : bit < 6) (o : Option Nat) (cause : Nat) :
    LoomEventSet bit (s.stopOwner o cause) := by
  cases o with
  | none => exact h
  | some p => exact h.partStop hbit p cause

/-! ### Stalls (R215) -/

/-- The record of a stalled resource: a logic element, a value route or an event route. -/
def stallKey (kind : Fin 3) (id : Fin 16384) : Nat :=
  match kind.val with
  | 0 => leKey id
  | 1 => vrKey id
  | _ => erKey id

/-- A stall reported. -/
def State.noteStall (s : State) (kind id : Nat) : State :=
  (((s.wr F.LOOM_STALL_SRC_KIND kind).wr F.LOOM_STALL_SRC_ID id).setBit F.LOOM_EVENT 5).sysFault 2 id

theorem State.noteStall_eq (s : State) (kind id : Nat) : s.noteStall kind id =
    (((s.wr F.LOOM_STALL_SRC_KIND kind).wr F.LOOM_STALL_SRC_ID id).setBit F.LOOM_EVENT 5).sysFault 2 id := rfl

theorem State.owner_noteStall (s : State) (kind id key : Nat) : (s.noteStall kind id).owner key = s.owner key :=
  State.owner_congr ((keeps_sysFault (closed_frame _ (((s.wr F.LOOM_STALL_SRC_KIND kind).wr F.LOOM_STALL_SRC_ID id).setBit F.LOOM_EVENT 5))
    (Frame.refl _ _) 2 id).part (p := .loom) rfl) key

theorem State.rd_noteStall_kind (s : State) (kind : Fin 3) (id : Nat) : (s.noteStall kind id).rd F.LOOM_STALL_SRC_KIND = kind := by
  rw [State.noteStall, rd_sysFault _ _ _ (by decide), State.rd_setBit_field _ _ _ _ (by decide), State.rd_wr_field _ (by decide), State.rd_wr_same]
  exact Nat.mod_eq_of_lt (Nat.lt_trans kind.isLt (by decide))

theorem State.rd_noteStall_id (s : State) (kind : Nat) (id : Fin 16384) : (s.noteStall kind id).rd F.LOOM_STALL_SRC_ID = id := by
  rw [State.noteStall, rd_sysFault _ _ _ (by decide), State.rd_setBit_field _ _ _ _ (by decide), State.rd_wr_same]
  exact Nat.mod_eq_of_lt (Nat.lt_of_lt_of_le id.isLt (by decide))

theorem loomEventSet_noteStall (s : State) (kind id : Nat) : LoomEventSet 5 (s.noteStall kind id) :=
  keeps_sysFault (closed_loomEventSet (by decide)) (bitOf_rd_setBit ((s.wr F.LOOM_STALL_SRC_KIND kind).wr F.LOOM_STALL_SRC_ID id) F.LOOM_EVENT (by decide) 0) 2 id

/-- A stall is reported and stops the owner. -/
theorem execRouteStall_stalls (t : Instant) {kind : Fin 3} {id : Fin 16384} {s : State} (h : kind.val = 2 → (s.fifo id).length < 4) :
    execRouteStall t kind id s = .next (((s.advance t).noteStall kind id).stopOwner (s.owner (stallKey kind id)) 10) := by
  have hroom : ¬(kind.val = 2 ∧ 4 ≤ ((s.advance t).fifo id).length) := by
    rw [State.fifo, State.advance_sched]
    exact fun hfull => Nat.not_le.mpr (h hfull.1) hfull.2
  rw [← s.owner_advance t, ← State.owner_noteStall _ kind id]
  simp only [execRouteStall, if_neg hroom, ← State.noteStall_eq]
  generalize (s.advance t).noteStall kind id = v
  rfl

theorem routeStall_stalls (t : Instant) {kind : Fin 3} {id : Fin 16384} {s : State} (h : kind.val = 2 → (s.fifo id).length < 4) :
    Ends (.routeStall t kind id) s (fun u => u.rd F.LOOM_STALL_SRC_KIND = kind ∧ u.rd F.LOOM_STALL_SRC_ID = id ∧ bitOf (u.rd F.LOOM_EVENT) 5 = true ∧
    bitOf (u.rd F.SYS_FAULT) 2 = true ∧ (kind.val = 0 → ∀ p ∈ List.range 16, s.owner (leKey id) = some p → u.inStop p = true)) := by
  have hexec := execRouteStall_stalls t h
  refine ⟨_, hexec, ?_, ?_, (loomEventSet_noteStall _ _ _).stopOwner (by decide) _ _, ?_, fun hlogic p _ howner => ?_⟩
  · rw [State.rd_stopOwner _ _ _ (by decide), State.rd_noteStall_kind]
  · rw [State.rd_stopOwner _ _ _ (by decide), State.rd_noteStall_id]
  · rw [State.rd_stopOwner _ _ _ (by decide)]
    exact State.bitOf_sysFault _ (by decide) id
  · rw [show stallKey kind id = leKey id by simp only [stallKey, hlogic], howner]
    exact State.inStop_partStop _ p 10

/-- An event route with a full FIFO does not stall (R217). -/
theorem routeStall_full (t : Instant) {id : Fin 16384} {s : State} (hfull : 4 ≤ (s.fifo id).length) : Ends (.routeStall t 2 id) s (fun u => u = s.advance t) := by
  have hfull' : 4 ≤ ((s.advance t).fifo id).length := by rwa [State.fifo, State.advance_sched]
  exact ⟨_, congrArg Host.Outcome.next (if_pos ⟨rfl, hfull'⟩), rfl⟩

/-! ### Scans (R233) -/

/-- A bad frame reported. -/
def State.noteBadFrame (s : State) (faddr : Nat) : State := ((s.wr F.LOOM_SCAN_ERR faddr).loomEvent sysStream 0 2 (leBytes 4 faddr)).sysFault 4 faddr

/-- The bad frame of an owner repaired from the copy. -/
theorem State.scanError_repaired {s : State} {faddr p : Nat} (howner : s.owner faddr = some p) :
    s.scanError faddr false = (((s.noteBadFrame faddr).bump F.LOOM_REPAIRS).lpEvent p 5).partStop p 9 := by
  simp only [State.scanError, howner, State.noteBadFrame, Bool.false_and, Bool.false_eq_true, if_false]

/-- The bad frame of an owner lost: the copy is bad too. -/
def State.loseFrameOf (s : State) (faddr p : Nat) : State := ((s.noteBadFrame faddr).loomEvent sysStream 0 3 (leBytes 4 faddr)).wr F.LP_STATUS_FRAME_LOST 1 p

/-- An owner that is in STOP already shows the cause; another enters STOP. -/
theorem State.scanError_lost {s : State} {faddr p : Nat} (howner : s.owner faddr = some p) : s.scanError faddr true =
    if (s.loseFrameOf faddr p).inStop p then (s.loseFrameOf faddr p).wr F.CP_STATUS_STOP_CAUSE 9 p else (s.loseFrameOf faddr p).partStop p 9 := by
  simp only [State.scanError, howner]
  rfl

/-- What the second STOP of a lost frame leaves. -/
theorem State.rd_scanError_lost {s : State} {faddr p : Nat} (howner : s.owner faddr = some p) {f : Fld} (hstop : Touched.partStop.has f.id = false)
    (hcause : (f.id == F.CP_STATUS_STOP_CAUSE.id) = false) (i : Nat) : (s.scanError faddr true).rd f i = (s.loseFrameOf faddr p).rd f i := by
  rw [State.scanError_lost howner]
  split
  · exact State.rd_wr_field _ hcause _ _ _
  · exact rd_partStop _ _ _ hstop _

theorem State.inStop_scanError_lost {s : State} {faddr p : Nat} (howner : s.owner faddr = some p) : (s.scanError faddr true).inStop p = true := by
  rw [State.scanError_lost howner]
  split
  · rename_i hstop
    rwa [State.inStop, State.rd_wr_field _ (by decide)]
  · exact State.inStop_partStop _ p 9

theorem State.rd_noteBadFrame_addr (s : State) (faddr : Fin 1610612736) : (s.noteBadFrame faddr).rd F.LOOM_SCAN_ERR = faddr := by
  rw [State.noteBadFrame, rd_sysFault _ _ _ (by decide), rd_loomEvent _ _ _ _ _ (by decide), State.rd_wr_same]
  exact Nat.mod_eq_of_lt (Nat.lt_trans faddr.isLt (by decide))

theorem State.rd_noteBadFrame_repairs (s : State) (faddr : Nat) : (s.noteBadFrame faddr).rd F.LOOM_REPAIRS = s.rd F.LOOM_REPAIRS := by
  rw [State.noteBadFrame, rd_sysFault _ _ _ (by decide), rd_loomEvent _ _ _ _ _ (by decide), State.rd_wr_field _ (by decide)]

/-- A scan with one bad frame. -/
theorem execConfigScan_singleton (t : Instant) (faddr : Nat) (dramBad : Bool) (s : State) :
    execConfigScan t [(faddr, dramBad)] s = .next ((s.advance t).scanError faddr dramBad) := rfl

theorem configScan_repaired (t : Instant) {s : State} {faddr : Fin 1610612736} {p : Fin 16} (howner : s.owner faddr = some p.val) :
    Ends (.configScan t [(faddr.val, false)]) s (fun u => u.rd F.LOOM_SCAN_ERR = faddr ∧
    u.rd F.LOOM_REPAIRS = min (s.rd F.LOOM_REPAIRS + 1) (2 ^ F.LOOM_REPAIRS.width - 1) ∧ bitOf (u.rd F.SYS_FAULT) 4 = true ∧
    bitOf (u.rd F.LP_EVENT p) 5 = true ∧ u.inStop p = true) := by
  refine ⟨_, execConfigScan_singleton t faddr false s, ?_⟩
  rw [State.scanError_repaired ((s.owner_advance t _).trans howner)]
  refine ⟨?_, ?_, ?_, ?_, State.inStop_partStop _ p 9⟩
  · rw [rd_partStop _ _ _ (by decide), rd_lpEvent _ _ _ (by decide), State.rd_bump_field _ _ _ _ (by decide), State.rd_noteBadFrame_addr]
  · rw [rd_partStop _ _ _ (by decide), rd_lpEvent _ _ _ (by decide), State.rd_bump_saturates, State.rd_noteBadFrame_repairs, rd_advance s t (by decide)]
  · rw [rd_partStop _ _ _ (by decide), rd_lpEvent _ _ _ (by decide), State.rd_bump_field _ _ _ _ (by decide)]
    exact State.bitOf_sysFault _ (by decide) faddr
  · rw [rd_partStop _ _ _ (by decide)]
    exact bitOf_rd_setBit _ F.LP_EVENT (by decide) p

theorem configScan_lost (t : Instant) {s : State} {faddr : Fin 1610612736} {p : Fin 16} (howner : s.owner faddr = some p.val) :
    Ends (.configScan t [(faddr.val, true)]) s (fun u => u.rd F.LOOM_SCAN_ERR = faddr ∧ u.rd F.LOOM_REPAIRS = s.rd F.LOOM_REPAIRS ∧
    u.rd F.LP_STATUS_FRAME_LOST p = 1 ∧ u.inStop p = true) := by
  have howner' : (s.advance t).owner faddr = some p.val := (s.owner_advance t _).trans howner
  refine ⟨_, execConfigScan_singleton t faddr true s, ?_, ?_, ?_, State.inStop_scanError_lost howner'⟩
  · rw [State.rd_scanError_lost howner' (by decide) (by decide), State.loseFrameOf, State.rd_wr_field _ (by decide), rd_loomEvent _ _ _ _ _ (by decide),
      State.rd_noteBadFrame_addr]
  · rw [State.rd_scanError_lost howner' (by decide) (by decide), State.loseFrameOf, State.rd_wr_field _ (by decide), rd_loomEvent _ _ _ _ _ (by decide),
      State.rd_noteBadFrame_repairs, rd_advance s t (by decide)]
  · rw [State.rd_scanError_lost howner' (by decide) (by decide)]
    exact State.rd_wr_same _ _ _ _

/-! ### The statement -/

/-- Settles O36, a clause for each theorem about its command. -/
theorem inputsLogicAndRoutesOfTheLoom : Obligations.InputsLogicAndRoutesOfTheLoom := by
  unfold Obligations.InputsLogicAndRoutesOfTheLoom
  exact ⟨fun t _ level _ hfilter => fioInputEdge_passes t level hfilter, fun t _ level _ hfilter => fioInputEdge_waits t level hfilter,
    fun _ _ _ _ hedge hheld => filterTake_taken hedge hheld,
    fun _ _ since _ hquad hmode => leInputChange_plain hquad since hmode,
    fun _ _ _ _ hquad hmode hrise hlow hfuture => leInputChange_tonRise hquad hmode hrise hlow hfuture,
    fun _ _ _ _ hdeadline hdue hquad => leTimerExpiry_due hquad hdeadline hdue,
    fun _ _ _ _ _ _ hquad hkey hrun hkind hsrc => eventRouteEvent_latched hquad hkey hrun hkind hsrc,
    fun t _ _ _ hroom => routeStall_stalls t hroom, fun t _ _ hfull => routeStall_full t hfull,
    fun t _ _ _ howner => configScan_repaired t howner, fun t _ _ _ howner => configScan_lost t howner⟩

end Sys2Proof.Machine
end

section
/-! PROOFS.  The scheduler: what the Warp's movement and dispatching leave of queues, Shuttles and tasks (10 R250 to R257). -/

namespace Sys2Proof.Machine

open Sys2Proof

set_option Elab.async false

/-! ### The Warp's movement -/

@[simp] theorem State.task_advance (s : State) (t : Instant) (i : Nat) : (s.advance t).task i = s.task i := by
  simp only [State.task, State.advance_sched]

@[simp] theorem State.queue_advance (s : State) (t : Instant) (h : Nat) : (s.advance t).queue h = s.queue h := by
  simp only [State.queue, State.advance_sched]

@[simp] theorem State.runningOn_advance (s : State) (t : Instant) (k : Nat) : (s.advance t).runningOn k = s.runningOn k := by
  simp only [State.runningOn, rd_advance s t (fld := F.SH_STATUS_STATE) (by decide), rd_advance s t (fld := F.SH_STATUS_SLOT) (by decide)]

@[simp] theorem State.windowOk_advance (s : State) (t : Instant) (k a n attr : Nat) : (s.advance t).windowOk k a n attr = s.windowOk k a n attr := by
  simp only [State.windowOk, State.shuttle, State.advance_sched]

@[simp] theorem State.credits_advance (s : State) (t : Instant) (h : Nat) : (s.advance t).credits h = s.credits h := by
  simp only [State.credits, State.advance_loom, State.queue_advance, rd_advance s t (fld := F.HQ_CFG_DEPTH_LOG2) (by decide)]

/-- A Shuttle that runs a task is not idle. -/
theorem State.state_of_runningOn {s : State} {k i : Nat} (h : s.runningOn k = some i) : s.rd F.SH_STATUS_STATE k = 1 := by
  unfold State.runningOn at h
  split at h
  · assumption
  · cases h

/-! ### Tasks, queues and Shuttles read where they were written -/

@[simp] theorem State.task_putTask_same (s : State) (i : Nat) (x : Task) : (s.putTask i x).task i = x := Tbl.get_set_same _ _ _ _

theorem State.task_putTask_other (s : State) {i j : Nat} (h : j ≠ i) (x : Task) : (s.putTask i x).task j = s.task j := Tbl.get_set_other _ h _ _

@[simp] theorem State.queue_putQueue_same (s : State) (h : Nat) (q : HwQueue) : (s.putQueue h q).queue h = q := Tbl.get_set_same _ _ _ _

@[simp] theorem State.shuttle_putShuttle_same (s : State) (k : Nat) (x : Shuttle) : (s.putShuttle k x).shuttle k = x := Tbl.get_set_same _ _ _ _

theorem State.shuttle_putShuttle_other (s : State) {j k : Nat} (h : j ≠ k) (x : Shuttle) : (s.putShuttle k x).shuttle j = s.shuttle j :=
  Tbl.get_set_other _ h _ _

@[simp] theorem State.result_answerShuttle (s : State) (k : Nat) (r : Int) : ((s.answerShuttle k r).shuttle k).result = r :=
  congrArg Shuttle.result (s.shuttle_putShuttle_same k _)

/-! ### Dispatching (R256, R257) -/

/-- What dispatching leaves: the queues; a Shuttle that is not idle, with its result; and a task that is not in the ready list, which it does
not enter. -/
structure Dispatched (r s : State) : Prop where
  queues : s.sched.queues = r.sched.queues
  state : ∀ k, r.rd F.SH_STATUS_STATE k ≠ 0 → s.rd F.SH_STATUS_STATE k = r.rd F.SH_STATUS_STATE k
  result : ∀ k, r.rd F.SH_STATUS_STATE k ≠ 0 → (s.shuttle k).result = (r.shuttle k).result
  ready : ∀ i, i ∈ s.sched.ready → i ∈ r.sched.ready
  task : ∀ i, i ∉ r.sched.ready → s.task i = r.task i

theorem closed_dispatched (r : State) {t : Touch} (hpart : t.hasPart .sched = false) (hfield : t.has F.SH_STATUS_STATE.id = false) :
    Closed (Dispatched r) t :=
  closed_of_frame fun s u hf h => by
    have hsched : u.sched = s.sched := hf.part (p := .sched) hpart
    refine ⟨?_, fun k hk => ?_, fun k hk => ?_, fun i hi => h.ready i ?_, fun i hi => ?_⟩
    · rw [hsched, h.queues]
    · rw [hf.rd hfield, h.state k hk]
    · rw [State.shuttle, hsched, ← h.result k hk, State.shuttle]
    · rwa [← hsched]
    · rw [State.task, hsched, ← h.task i hi, State.task]

namespace Dispatched

variable {r s u : State} {i k : Nat}

theorem refl (s : State) : Dispatched s s := ⟨rfl, fun _ _ => rfl, fun _ _ => rfl, fun _ hi => hi, fun _ _ => rfl⟩

theorem trans (h : Dispatched r s) (h' : Dispatched s u) : Dispatched r u where
  queues := h'.queues.trans h.queues
  state k hk := (h'.state k (by rwa [h.state k hk])).trans (h.state k hk)
  result k hk := (h'.result k (by rwa [h.state k hk])).trans (h.result k hk)
  ready i hi := h.ready i (h'.ready i hi)
  task i hi := (h'.task i fun hs => hi (h.ready i hs)).trans (h.task i hi)

theorem ite {c : Prop} [Decidable c] {a b : State} (ha : Dispatched r a) (hb : Dispatched r b) : Dispatched r (if c then a else b) :=
  Keeps.ite (I := Dispatched r) ha hb

theorem wr (h : Dispatched r s) (f : Fld) (hf : (F.SH_STATUS_STATE.id == f.id) = false) (v j : Nat) : Dispatched r (s.wr f v j) :=
  ⟨h.queues, fun k hk => (s.rd_wr_field hf v j k).trans (h.state k hk), h.result, h.ready, h.task⟩

/-- The scheduler changed in nothing of these. -/
theorem onSched (h : Dispatched r s) (f : Sched → Sched) (hqueues : (f s.sched).queues = s.sched.queues) (hshuttles : (f s.sched).shuttles = s.sched.shuttles)
    (hready : ∀ j ∈ (f s.sched).ready, j ∈ s.sched.ready) (htasks : (f s.sched).tasks = s.sched.tasks) : Dispatched r (s.onSched f) where
  queues := hqueues.trans h.queues
  state := h.state
  result k hk := (congrArg (fun c : Tbl Shuttle => (c.get k Shuttle.init).result) hshuttles).trans (h.result k hk)
  ready j hj := h.ready j (hready j hj)
  task j hj := (congrArg (fun c : Tbl Task => c.get j Task.none) htasks).trans (h.task j hj)

/-- A Shuttle that is not idle is another than an idle one. -/
theorem ne_of_busy {j : Nat} (hj : r.rd F.SH_STATUS_STATE j ≠ 0) (hk : r.rd F.SH_STATUS_STATE k = 0) : j ≠ k := by
  rintro rfl
  exact hj hk

/-- An idle Shuttle. -/
theorem putShuttle (h : Dispatched r s) (hk : r.rd F.SH_STATUS_STATE k = 0) (x : Shuttle) : Dispatched r (s.putShuttle k x) where
  queues := h.queues
  state := h.state
  result j hj := by rw [State.shuttle_putShuttle_other _ (ne_of_busy hj hk), h.result j hj]
  ready := h.ready
  task := h.task

theorem putShState (h : Dispatched r s) (hk : r.rd F.SH_STATUS_STATE k = 0) (st slot : Nat) : Dispatched r (s.putShState k st slot) := by
  have hcount : Dispatched r (s.countLoad k) := by
    simp only [State.countLoad]
    exact ite (h.putShuttle hk _) ((h.putShuttle hk _).wr _ (by decide) _ k)
  have hstate : Dispatched r ((s.countLoad k).wr F.SH_STATUS_STATE st k) :=
    ⟨hcount.queues, fun j hj => (State.rd_wr_instance _ _ _ (ne_of_busy hj hk)).trans (hcount.state j hj), hcount.result, hcount.ready, hcount.task⟩
  exact hstate.wr _ (by decide) slot k

/-- A ready task. -/
theorem putTask (h : Dispatched r s) (hi : i ∈ r.sched.ready) (x : Task) : Dispatched r (s.putTask i x) where
  queues := h.queues
  state := h.state
  result := h.result
  ready := h.ready
  task j hj := (State.task_putTask_other _ (ne_of_mem_of_not_mem hi hj).symm x).trans (h.task j hj)

theorem unlist (h : Dispatched r s) (i : Nat) : Dispatched r (s.unlist i) :=
  ite (wr (h.onSched _ rfl rfl (fun _ hj => (List.mem_filter.mp hj).1) rfl) _ (by decide) _ _) h

theorem putFlow (h : Dispatched r s) (f : Nat) (l : List Nat) : Dispatched r (s.putFlow f l) :=
  wr (h.onSched _ rfl rfl (fun _ hj => hj) rfl) _ (by decide) _ f

theorem noteWait (h : Dispatched r s) (l ns : Nat) : Dispatched r (s.noteWait l ns) :=
  wr (onSched (h.wr _ (by decide) _ _) _ rfl rfl (fun _ hj => hj) rfl) _ (by decide) _ l

/-- A ready task started on an idle Shuttle. -/
theorem startTask (h : Dispatched r s) (hi : i ∈ r.sched.ready) (hk : r.rd F.SH_STATUS_STATE k = 0) : Dispatched r (s.startTask i k) := by
  unfold State.startTask
  extract_lets x taken flags ctx shuttle loaded filled running counted started
  have htaken : Dispatched r taken := (h.unlist i).putShState hk 1 i
  have hloaded : Dispatched r loaded := htaken.putShuttle hk _
  have hfilled : Dispatched r filled := by
    simp only [filled]
    split
    · exact keeps_fillBuffer (closed_dispatched r (by decide) (by decide)) hloaded _ _ _ _
    · exact hloaded
  have hrunning : Dispatched r running := hfilled.putTask hi _
  have hcounted : Dispatched r counted := wr (hrunning.wr _ (by decide) _ 0) _ (by decide) _ 0
  have hstarted : Dispatched r started := by
    simp only [started]
    split
    · exact wr (hcounted.putFlow _ _) _ (by decide) 1 _
    · exact hcounted
  exact ite hrunning (hstarted.noteWait _ _)

end Dispatched

theorem mem_insertReady {s : State} {i j : Nat} {l : List Nat} (h : j ∈ insertReady s i l) : j = i ∨ j ∈ l := by
  induction l with
  | nil => exact .inl (List.mem_singleton.mp h)
  | cons m l ih =>
    rw [insertReady] at h
    split at h
    · exact List.mem_cons.mp h
    · obtain rfl | h := List.mem_cons.mp h
      · exact .inr List.mem_cons_self
      · exact (ih h).imp id (List.mem_cons_of_mem m)

/-- Sorting adds no slot. -/
theorem mem_foldl_insertReady {s : State} {j : Nat} {l acc : List Nat} (h : j ∈ l.foldl (fun acc i => insertReady s i acc) acc) : j ∈ l ∨ j ∈ acc := by
  induction l generalizing acc with
  | nil => exact .inr h
  | cons i l ih =>
    obtain h | h := ih h
    · exact .inl (List.mem_cons_of_mem i h)
    · exact (mem_insertReady h).imp (fun hj => by rw [hj]; exact List.mem_cons_self) id

theorem State.mem_ready_of_levelList {s : State} {l i : Nat} (h : i ∈ s.levelList l) : i ∈ s.sched.ready := by
  obtain h | h := mem_foldl_insertReady h
  · exact (List.mem_filter.mp h).1
  · exact absurd h List.not_mem_nil

/-- The Shuttle that a ready task would take is idle. -/
theorem State.idle_of_placeFor {s : State} {i k : Nat} (h : s.placeFor i = some k) : s.rd F.SH_STATUS_STATE k = 0 := by
  unfold State.placeFor at h
  extract_lets x all idle at h
  split at h
  · cases h
  · have hidle (l : List Nat) (hl : l.find? idle = some k) : s.rd F.SH_STATUS_STATE k = 0 := beq_iff_eq.mp (List.find?_some (p := idle) hl)
    split at h <;> exact hidle _ h

theorem State.nextPair_spec {s : State} {i k : Nat} (h : s.nextPair = some (i, k)) : i ∈ s.sched.ready ∧ s.rd F.SH_STATUS_STATE k = 0 := by
  obtain ⟨j, hj, hplace⟩ := List.exists_of_findSome?_eq_some h
  obtain ⟨m, hm, heq⟩ := Option.map_eq_some_iff.mp hplace
  obtain ⟨rfl, rfl⟩ := Prod.mk.inj heq
  obtain ⟨l, -, hlevel⟩ := List.mem_flatMap.mp hj
  exact ⟨State.mem_ready_of_levelList hlevel, State.idle_of_placeFor hm⟩

theorem dispatched_dispatchLoop (s : State) (fuel : Nat) : Dispatched s (s.dispatchLoop fuel) := by
  induction fuel generalizing s with
  | zero => exact .refl s
  | succ fuel ih =>
    rw [State.dispatchLoop]
    split
    · rename_i i k hpair
      obtain ⟨hready, hidle⟩ := State.nextPair_spec hpair
      exact ((Dispatched.refl s).startTask hready hidle).trans (ih _)
    · exact .refl s

theorem dispatched_dispatch (s : State) : Dispatched s s.dispatch := by
  have hidle : Dispatched s s.idleCheck := keeps_idleCheck (closed_dispatched s (by decide) (by decide)) (.refl s)
  have hwake : Dispatched s (s.internalWake 1) := keeps_internalWake (closed_dispatched s (by decide) (by decide)) (.refl s) 1
  have hrun : Dispatched s ((s.putPwrState 0).internalWake 1) :=
    keeps_internalWake (closed_dispatched s (by decide) (by decide)) (keeps_putPwrState (closed_dispatched s (by decide) (by decide)) (.refl s) 0) 1
  exact .ite hidle (.ite hwake (hrun.trans (dispatched_dispatchLoop _ 49)))

@[simp] theorem State.queue_dispatch (s : State) (h : Nat) : s.dispatch.queue h = s.queue h := by
  rw [State.queue, (dispatched_dispatch s).queues, State.queue]

/-- Without a ready task nothing is dispatched: the device may enter IDLE. -/
theorem State.dispatch_of_ready_nil {s : State} (h : s.sched.ready = []) : s.dispatch = s.idleCheck := by
  rw [State.dispatch, h]
  rfl

end Sys2Proof.Machine
end

section
/-! PROOFS.  Events, claimants and completions leave the hardware queues and the Shuttles as they are; an entry put into a queue and one taken from it
(10 R251, R252, R258, R262). -/

namespace Sys2Proof.Machine

open Sys2Proof

set_option Elab.async false

/-! ### Events and claimants (R251, R252) -/

/-- The queues and the Shuttles beyond their registers are those of `r`. -/
structure SameQueues (r s : State) : Prop where
  queues : s.sched.queues = r.sched.queues
  shuttles : s.sched.shuttles = r.sched.shuttles

theorem closed_sameQueues (r : State) {t : Touch} (h : t.hasPart .sched = false) : Closed (SameQueues r) t :=
  closed_of_frame fun s u hf hs => by
    have hsched : u.sched = s.sched := hf.part (p := .sched) h
    exact ⟨by rw [hsched, hs.queues], by rw [hsched, hs.shuttles]⟩

namespace SameQueues

variable {r s : State}

theorem refl (s : State) : SameQueues s s := ⟨rfl, rfl⟩

theorem ite {c : Prop} [Decidable c] {a b : State} (ha : SameQueues r a) (hb : SameQueues r b) : SameQueues r (if c then a else b) :=
  Keeps.ite (I := SameQueues r) ha hb

theorem wr (h : SameQueues r s) (f : Fld) (v i : Nat) : SameQueues r (s.wr f v i) := ⟨h.queues, h.shuttles⟩

/-- The scheduler changed beside them. -/
theorem onSched (h : SameQueues r s) (f : Sched → Sched) (hqueues : (f s.sched).queues = s.sched.queues) (hshuttles : (f s.sched).shuttles = s.sched.shuttles) :
    SameQueues r (s.onSched f) := ⟨hqueues.trans h.queues, hshuttles.trans h.shuttles⟩

theorem putTask (h : SameQueues r s) (i : Nat) (x : Task) : SameQueues r (s.putTask i x) := h.onSched _ rfl rfl

theorem putFifo (h : SameQueues r s) (k : Nat) (l : List Nat) : SameQueues r (s.putFifo k l) := h.onSched _ rfl rfl

theorem putHeld (h : SameQueues r s) (k : Nat) (l : List Nat) : SameQueues r (s.putHeld k l) := h.onSched _ rfl rfl

theorem addClaim (h : SameQueues r s) (p : Nat) (c : Claim) : SameQueues r (s.addClaim p c) := h.onSched _ rfl rfl

theorem enterFifo (h : SameQueues r s) (k data : Nat) : SameQueues r (s.enterFifo k data) := (h.putFifo k _).addClaim _ _

theorem enlist (h : SameQueues r s) (i : Nat) : SameQueues r (s.enlist i) := ite h (wr (h.onSched _ rfl rfl) _ _ _)

theorem offerHead (h : SameQueues r s) (f : Nat) : SameQueues r (s.offerHead f) := by
  unfold State.offerHead
  split
  · exact h
  · exact ite h (h.enlist _)

theorem makeReady (h : SameQueues r s) (i : Nat) : SameQueues r (s.makeReady i) := by
  unfold State.makeReady
  extract_lets old ready
  have hready : SameQueues r ready := h.putTask i _
  split
  · exact (wr (hready.onSched _ rfl rfl) _ _ _).offerHead _
  · exact hready.enlist i

theorem makeResume (h : SameQueues r s) (i : Nat) (res : Int) : SameQueues r (s.makeResume i res) := (h.putTask i _).enlist i

theorem createTask (h : SameQueues r s) (p : Nat) (d : TaskDesc) (root scan : Option Nat) : SameQueues r (s.createTask p d root scan).1 := by
  unfold State.createTask
  extract_lets v drawn i g named blank placed counted
  have hdrawn : SameQueues r drawn := ⟨h.queues, h.shuttles⟩
  have hnamed : SameQueues r named := hdrawn.onSched _ rfl rfl
  have hcounted : SameQueues r counted := ((hnamed.putTask i _).wr _ _ _).wr _ _ _
  exact ite (hcounted.makeReady i) hcounted

theorem schedEvent (h : SameQueues r s) (p : Option Nat) (bit : Nat) : SameQueues r (s.schedEvent p bit) :=
  keeps_schedEvent (closed_sameQueues r (by decide)) h p bit

theorem instantiate (h : SameQueues r s) (p tpl arg : Nat) (root : Option Nat) : SameQueues r (s.instantiate p tpl arg root).1 := by
  unfold State.instantiate
  split
  · exact h.createTask p _ root root
  · exact (h.schedEvent _ 6).wr _ _ _

theorem takeEvent (h : SameQueues r s) (k : Nat) : SameQueues r (s.takeEvent k) := by
  unfold State.takeEvent
  split
  · exact h
  · extract_lets e taken served
    have htaken : SameQueues r taken := h.putFifo k _
    have hserved : SameQueues r served := ite (htaken.instantiate _ _ _ none) ((htaken.schedEvent _ 5).wr _ _ _)
    split
    · exact hserved
    · exact (hserved.putHeld k _).enterFifo k _

theorem serveClaim (h : SameQueues r s) (p : Nat) (c : Claim) : SameQueues r (s.serveClaim p c) := by
  cases c with
  | qsub i =>
    simp only [State.serveClaim]
    split
    · exact ite ((h.createTask p _ none _).makeResume i _) (h.makeResume i _)
    · exact h
  | spawn =>
    simp only [State.serveClaim]
    split
    · exact h
    · have hput (x : Treadle) : SameQueues r (s.putTreadle p x) := ⟨h.queues, h.shuttles⟩
      exact ite ((hput _).instantiate p _ _ none) (keeps_treadleEvent (closed_sameQueues r (by decide)) (((hput _).instantiate p _ _ none).wr _ _ _) _ _ _)
  | root k => exact h.instantiate p _ _ _
  | event k => exact h.takeEvent k

theorem serveClaims (h : SameQueues r s) (p fuel : Nat) : SameQueues r (s.serveClaims p fuel) := by
  induction fuel generalizing s with
  | zero => exact h
  | succ fuel ih =>
    rw [State.serveClaims]
    refine ite ?_ h
    split
    · exact h
    · exact ih ((h.onSched _ rfl rfl).serveClaim p _)

theorem serve (h : SameQueues r s) (p : Nat) : SameQueues r (s.serve p) := h.serveClaims p _

theorem offerEvent (h : SameQueues r s) (k data : Nat) (waits : Bool) : SameQueues r (s.offerEvent k data waits) := by
  unfold State.offerEvent
  extract_lets input entered served
  have hserved : SameQueues r served := keeps_when (I := SameQueues r) (h.enterFifo k data) _ _ fun _ hu => hu.serve _
  refine ite ((h.schedEvent _ 5).wr _ _ _) (ite (ite hserved ?_) (ite (h.putHeld k _) ?_))
  · exact keeps_internalWake (closed_sameQueues r (by decide)) hserved 1
  · exact keeps_loomEvent (closed_sameQueues r (by decide)) ((h.wr _ _ _).wr _ _ _) _ _ _ _

theorem queue (h : SameQueues r s) (k : Nat) : s.queue k = r.queue k := by rw [State.queue, h.queues, State.queue]

theorem shuttle (h : SameQueues r s) (k : Nat) : s.shuttle k = r.shuttle k := by rw [State.shuttle, h.shuttles, State.shuttle]

end SameQueues

/-! ### Entries of a queue that nobody waits at (R258, R262) -/

/-- Nobody waits at queue `h`: neither a consumer nor a producer. -/
def State.unattended (s : State) (h : Nat) : Prop := (s.queue h).poppers = [] ∧ (s.queue h).pushers = []

/-- A queue that nobody waits at serves nobody. -/
theorem State.serveQueue_unattended {s : State} {h : Nat} (hun : s.unattended h) (fuel : Nat) (done : List Nat) : s.serveQueue h fuel done = (s, done) := by
  obtain ⟨hpop, hpush⟩ := hun
  cases fuel with
  | zero => rfl
  | succ fuel =>
    simp only [State.serveQueue, hpop, hpush]
    cases (s.queue h).entries <;> exact ite_self _

/-- An entry behind those of queue `h`, in the queue and in its ring, counted. -/
def State.appendEntry (s : State) (h : Nat) (e : QEntry) : State :=
  ((s.putQueue h { s.queue h with entries := (s.queue h).entries ++ [e] }).storeEntry h e).roll F.HQ_PUSH_CNT h

theorem State.queue_appendEntry (s : State) (h : Nat) (e : QEntry) :
    (s.appendEntry h e).queue h = { s.queue h with entries := (s.queue h).entries ++ [e] } := State.queue_putQueue_same s h _

/-- What queue `h` signals for an entry behind those before it, of which there are none: the host's interrupt and its event. -/
def State.signalEntry (s : State) (h : Nat) (before : List QEntry) : State :=
  let s := if before.isEmpty && s.rd F.HQ_CFG_KIND h == 1 then s.interrupt (66 + h) else s
  match before, s.queueEvent h with
  | [], some input => s.offerEvent (8192 + input) 0 true
  | _, _ => s

theorem sameQueues_signalEntry (s : State) (h : Nat) (before : List QEntry) : SameQueues s (s.signalEntry h before) := by
  unfold State.signalEntry
  extract_lets raised
  have hraised : SameQueues s raised := .ite (keeps_interrupt (closed_sameQueues s (by decide)) (.refl s) _) (.refl s)
  split
  · exact hraised.offerEvent _ 0 true
  · exact hraised

/-- A signal touches what an interrupt and an event do. -/
theorem keeps_signalEntry {I : State → Prop} (hinterrupt : Closed I Touched.interrupt) (hevent : Closed I Touched.offerEvent) {s : State} (hs : I s)
    (h : Nat) (before : List QEntry) : I (s.signalEntry h before) := by
  unfold State.signalEntry
  extract_lets raised
  have hraised : I raised := Keeps.ite (I := I) (keeps_interrupt hinterrupt hs _) hs
  split
  · exact keeps_offerEvent hevent hraised _ 0 true
  · exact hraised

theorem State.admitEntry_eq (s : State) (h : Nat) (e : QEntry) : s.admitEntry h e =
    ((s.appendEntry h e).signalEntry h (s.queue h).entries).serveQueue h ((s.queue h).pushers.length + (s.queue h).poppers.length + 2) [] := rfl

/-- An entry pushed on a queue that nobody waits at stays there. -/
theorem State.pushEntry_unattended {s : State} {h : Nat} (hun : s.unattended h) (e : QEntry) :
    s.pushEntry h e = (s.appendEntry h e).signalEntry h (s.queue h).entries := by
  have hafter : ((s.appendEntry h e).signalEntry h (s.queue h).entries).unattended h := by
    rw [State.unattended, (sameQueues_signalEntry _ h _).queue, State.queue_appendEntry]
    exact hun
  rw [State.pushEntry, State.admitEntry_eq, State.serveQueue_unattended hafter]
  rfl

section
variable {s : State} {h : Nat} (hun : s.unattended h) (e : QEntry)
include hun

theorem State.queue_pushEntry : (s.pushEntry h e).queue h = { s.queue h with entries := (s.queue h).entries ++ [e] } := by
  rw [State.pushEntry_unattended hun, (sameQueues_signalEntry _ h _).queue, State.queue_appendEntry]

theorem State.unattended_pushEntry : (s.pushEntry h e).unattended h := by
  rw [State.unattended, State.queue_pushEntry hun]
  exact hun

/-- The Shuttles are as before. -/
theorem State.shuttle_pushEntry (k : Nat) : (s.pushEntry h e).shuttle k = s.shuttle k := by
  rw [State.pushEntry_unattended hun, (sameQueues_signalEntry _ h _).shuttle]
  rfl

/-- A field that neither an interrupt nor an event changes. -/
theorem State.rd_pushEntry {f : Fld} (hinterrupt : Touched.interrupt.has f.id = false) (hevent : Touched.offerEvent.has f.id = false) (i : Nat) :
    (s.pushEntry h e).rd f i = (s.appendEntry h e).rd f i := by
  rw [State.pushEntry_unattended hun]
  exact keeps_signalEntry (I := fun u => u.rd f i = _) (closed_rd f i _ hinterrupt) (closed_rd f i _ hevent) rfl h _

theorem State.loom_pushEntry : (s.pushEntry h e).loom = s.loom := by
  have hframe {t : Touch} (ht : t.hasPart .loom = false) : Closed (fun u => u.loom = s.loom) t :=
    closed_of_frame fun _ _ hf hs => (hf.part (p := .loom) ht).trans hs
  rw [State.pushEntry_unattended hun]
  exact keeps_signalEntry (I := fun u => u.loom = s.loom) (hframe (by decide)) (hframe (by decide)) (Eq.refl (s.appendEntry h e).loom) h _

/-- An entry takes one credit. -/
theorem State.credits_pushEntry : (s.pushEntry h e).credits h = s.credits h - 1 := by
  have hdepth : (s.appendEntry h e).rd F.HQ_CFG_DEPTH_LOG2 h = s.rd F.HQ_CFG_DEPTH_LOG2 h := by
    rw [State.appendEntry, State.rd_roll_field _ _ _ _ (by decide), rd_storeEntry _ _ _ (by decide), rd_putQueue _ _ _ (by decide)]
  simp only [State.credits, State.loom_pushEntry hun, State.queue_pushEntry hun, State.rd_pushEntry hun e (f := F.HQ_CFG_DEPTH_LOG2) (by decide) (by decide),
    hdepth, List.length_append, List.length_singleton]
  split
  · rfl
  · exact Nat.sub_add_eq _ _ 1

theorem State.rd_pushEntry_count : (s.pushEntry h e).rd F.HQ_PUSH_CNT h = (s.rd F.HQ_PUSH_CNT h + 1) % 2 ^ F.HQ_PUSH_CNT.width := by
  rw [State.rd_pushEntry hun e (by decide) (by decide), State.appendEntry, State.rd_roll_same, rd_storeEntry _ _ _ (by decide), rd_putQueue _ _ _ (by decide)]

theorem State.rd_pushEntry_depth : (s.pushEntry h e).rd F.HQ_DEPTH h = ((s.queue h).entries.length + 1) % 2 ^ F.HQ_DEPTH.width := by
  rw [State.rd_pushEntry hun e (by decide) (by decide), State.appendEntry, State.rd_roll_field _ _ _ _ (by decide), rd_storeEntry _ _ _ (by decide), State.putQueue,
    State.rd_wr_field _ (by decide), State.rd_wr_same, List.length_append, List.length_singleton]

/-- An entry taken from a queue that nobody waits at gives its credit to nobody. -/
theorem State.popEntry_unattended : s.popEntry h = s.putQueue h { s.queue h with entries := (s.queue h).entries.drop 1 } := by
  have hafter : (s.putQueue h { s.queue h with entries := (s.queue h).entries.drop 1 }).unattended h := by
    rw [State.unattended, State.queue_putQueue_same]
    exact hun
  rw [State.popEntry, State.serveQueue_unattended hafter]
  rfl

theorem State.queue_popEntry : (s.popEntry h).queue h = { s.queue h with entries := (s.queue h).entries.drop 1 } := by
  rw [State.popEntry_unattended hun, State.queue_putQueue_same]

theorem State.unattended_popEntry : (s.popEntry h).unattended h := by
  rw [State.unattended, State.queue_popEntry hun]
  exact hun

end

end Sys2Proof.Machine
end

section
/-! PROOFS.  A program fault holds the flow of its task (10 R263, R264, Table 10.7); a task that parks (10 R258). -/

namespace Sys2Proof.Machine

open Sys2Proof

set_option Elab.async false

/-! ### A task off its Shuttle -/

/-- The load of a Shuttle counted changes its Shuttles alone in the scheduler. -/
theorem State.sched_countLoad (s : State) (k : Nat) : ∃ x, (s.countLoad k).sched = { s.sched with shuttles := x } := by
  simp only [State.countLoad]
  split <;> exact ⟨_, rfl⟩

theorem State.sched_putShState (s : State) (k st slot : Nat) : ∃ x, (s.putShState k st slot).sched = { s.sched with shuttles := x } := s.sched_countLoad k

/-- The task that leaves its Shuttle: its running time counted, its registers kept. -/
def State.offShuttle (s : State) (k i : Nat) : Task :=
  { s.task i with ran := (s.task i).ran + (s.now - (s.task i).runFrom).toNat, context := some ((s.shuttle k).pc, (s.shuttle k).x) }

theorem State.sched_leaveShuttle (s : State) (k i st : Nat) :
    ∃ x, (s.leaveShuttle k i st).sched = { s.sched with tasks := s.sched.tasks.set i (s.offShuttle k i), shuttles := x } := by
  obtain ⟨x, hx⟩ := State.sched_putShState
    ((s.putTask i (s.offShuttle k i)).putShuttle k { s.shuttle k with machine := true, windows := [] }) k st 0
  exact ⟨x, hx⟩

theorem State.task_leaveShuttle_same (s : State) (k i st : Nat) : (s.leaveShuttle k i st).task i = s.offShuttle k i := by
  obtain ⟨x, hx⟩ := s.sched_leaveShuttle k i st
  rw [State.task, hx]
  exact Tbl.get_set_same _ _ _ _

theorem State.slotUsed_leaveShuttle_same (s : State) (k i st : Nat) : (s.leaveShuttle k i st).slotUsed i = true := by
  obtain ⟨x, hx⟩ := s.sched_leaveShuttle k i st
  rw [State.slotUsed, hx]
  exact congrArg Option.isSome (Tbl.find_set_same _ _ _)

@[simp] theorem State.queue_leaveShuttle (s : State) (k i st h : Nat) : (s.leaveShuttle k i st).queue h = s.queue h := by
  obtain ⟨x, hx⟩ := s.sched_leaveShuttle k i st
  rw [State.queue, hx, State.queue]

theorem State.ready_leaveShuttle (s : State) (k i st : Nat) : (s.leaveShuttle k i st).sched.ready = s.sched.ready := by
  obtain ⟨x, hx⟩ := s.sched_leaveShuttle k i st
  rw [hx]

/-! ### The flow of a completion (R253, R264) -/

/-- What a completion does to the flow of its task: the task leaves the FIFO and its service, and the flow is held or its head offered. -/
def State.closeFlow (s : State) (e : Ending) : State :=
  let landed := (s.unlist e.1).landTask e.1
  match (s.task e.1).flow with
  | some f =>
    let left := landed.putFlow f ((landed.flow f).filter (· != e.1))
    let idle := if (s.task e.1).inflight then left.wr F.FLOW_STATE_IN_SERVICE 0 f else left
    if e.2.1 = 1 ∧ holdsFlow e.2.2.1 then idle.holdFlow f e.2.2.1 else idle.offerHead f
  | none => landed

/-- The fields that say whether a flow is held, and why. -/
def flowHoldFields : List Fld := [F.FLOW_STATE_HELD, F.FLOW_STATE_HELD_CAUSE]

/-- A completion holds or releases no flow but its own. -/
theorem State.rd_endOne_held (s : State) (e : Ending) {f : Fld} (hf : f ∈ flowHoldFields) (j : Nat) : (s.endOne e).1.rd f j = (s.closeFlow e).rd f j := by
  have hbusy : (f.id == F.HQ_BUSY_CNT.id) = false := by
    revert f
    decide
  have hclosed {t : Touch} (ht : ∀ g ∈ flowHoldFields, t.has g.id = false) : Closed (fun u => u.rd f j = (s.closeFlow e).rd f j) t := closed_rd f j _ (ht f hf)
  unfold State.endOne
  extract_lets i x landed left next told rooted task ended cq queue counted was queued served first raised offered freed
  have htold : told.1.rd f j = (s.closeFlow e).rd f j := keeps_notifyAll (hclosed (by decide)) (Eq.refl (left.rd f j)) _ _ _
  have hrooted : rooted.rd f j = (s.closeFlow e).rd f j := by
    simp only [rooted]
    split <;> exact htold
  have hended : ended.rd f j = (s.closeFlow e).rd f j := hrooted
  have hcounted : counted.rd f j = (s.closeFlow e).rd f j :=
    Keeps.ite (I := fun u => u.rd f j = (s.closeFlow e).rd f j) ((ended.rd_bump_field _ _ _ hbusy j).trans hended) hended
  have hserved : served.1.rd f j = (s.closeFlow e).rd f j :=
    keeps_serveQueue (hclosed (by decide)) (keeps_putQueue (hclosed (by decide)) hcounted cq _) cq _ _
  have hraised : raised.rd f j = (s.closeFlow e).rd f j :=
    keeps_when (I := fun u => u.rd f j = (s.closeFlow e).rd f j) hserved _ _ fun _ hu => keeps_interrupt (hclosed (by decide)) hu _
  have hoffered : offered.rd f j = (s.closeFlow e).rd f j := by
    simp only [offered]
    split
    · exact keeps_when (I := fun u => u.rd f j = (s.closeFlow e).rd f j) hraised _ _ fun _ hu => keeps_offerEvent (hclosed (by decide)) hu _ 0 true
    · exact hraised
  exact Keeps.ite (I := fun u => u.rd f j = (s.closeFlow e).rd f j) (keeps_freeAll (hclosed (by decide)) hoffered _)
    (keeps_freeAll (hclosed (by decide)) hended _)

/-- A completion without an error holds no flow. -/
theorem State.rd_closeFlow_held {s : State} {e : Ending} (he : e.2.1 ≠ 1) {f : Fld} (hf : f ∈ flowHoldFields) (j : Nat) : (s.closeFlow e).rd f j = s.rd f j := by
  have hservice : (f.id == F.FLOW_STATE_IN_SERVICE.id) = false := by
    revert f
    decide
  have hclosed {t : Touch} (ht : ∀ g ∈ flowHoldFields, t.has g.id = false) : Closed (fun u => u.rd f j = s.rd f j) t := closed_rd f j _ (ht f hf)
  unfold State.closeFlow
  extract_lets landed
  have hlanded : landed.rd f j = s.rd f j := keeps_landTask (hclosed (by decide)) (keeps_unlist (hclosed (by decide)) (Eq.refl (s.rd f j)) _) _
  split
  · rename_i g _
    extract_lets left idle
    have hleft : left.rd f j = s.rd f j := keeps_putFlow (hclosed (by decide)) hlanded g _
    have hidle : idle.rd f j = s.rd f j := Keeps.ite (I := fun u => u.rd f j = s.rd f j) ((left.rd_wr_field hservice _ _ _).trans hleft) hleft
    rw [if_neg fun h => he h.1]
    exact keeps_offerHead (hclosed (by decide)) hidle g
  · exact hlanded

/-- A held flow shows the cause. -/
theorem State.rd_holdFlow (s : State) (f cause : Nat) : (s.holdFlow f cause).rd F.FLOW_STATE_HELD f = 1 ∧
    (s.holdFlow f cause).rd F.FLOW_STATE_HELD_CAUSE f = cause % 2 ^ F.FLOW_STATE_HELD_CAUSE.width := by
  constructor
  · rw [State.holdFlow, State.rd_wr_field _ (by decide), rd_schedEvent _ _ _ (by decide), State.rd_wr_field _ (by decide), State.rd_wr_same]
    rfl
  · rw [State.holdFlow, State.rd_wr_field _ (by decide), rd_schedEvent _ _ _ (by decide), State.rd_wr_same]

/-- An error whose cause holds flows (Table 10.7) holds the flow of its task. -/
theorem State.rd_closeFlow_error {s : State} {e : Ending} {f : Nat} (hflow : (s.task e.1).flow = some f) (he : e.2.1 = 1) (hcause : holdsFlow e.2.2.1 = true) :
    (s.closeFlow e).rd F.FLOW_STATE_HELD f = 1 ∧
    (s.closeFlow e).rd F.FLOW_STATE_HELD_CAUSE f = e.2.2.1 % 2 ^ F.FLOW_STATE_HELD_CAUSE.width := by
  simp only [State.closeFlow, hflow, he, hcause, true_and, if_true]
  exact State.rd_holdFlow _ f _

/-! ### What follows from a completion (R253, R261) -/

theorem State.status_notifyOne (s : State) (p h : Nat) (poison : Bool) : ∀ e ∈ (s.notifyOne p h poison).2, e.2.1 = 2 := by
  unfold State.notifyOne
  split
  · extract_lets y counted put
    split
    · split
      · exact List.forall_mem_nil _
      · split
        · exact List.forall_mem_singleton.mpr rfl
        · exact List.forall_mem_nil _
    · exact List.forall_mem_nil _
  · exact List.forall_mem_nil _

theorem State.status_notifyAll (s : State) (p : Nat) (poison : Bool) (l : List Nat) : ∀ e ∈ (s.notifyAll p poison l).2, e.2.1 = 2 := by
  induction l generalizing s with
  | nil => exact List.forall_mem_nil _
  | cons h rest ih => exact List.forall_mem_append.mpr ⟨s.status_notifyOne p h poison, ih _⟩

theorem State.status_cancelledHead (s : State) (f : Nat) : ∀ e ∈ s.cancelledHead f, e.2.1 = 2 := by
  unfold State.cancelledHead
  split
  · split
    · exact List.forall_mem_singleton.mpr rfl
    · exact List.forall_mem_nil _
  · exact List.forall_mem_nil _

/-- What follows from a completion is cancelled. -/
theorem State.status_endOne (s : State) (e : Ending) : ∀ e' ∈ (s.endOne e).2, e'.2.1 = 2 := by
  refine List.forall_mem_append.mpr ⟨State.status_notifyAll _ _ _ _, ?_⟩
  split
  · exact State.status_cancelledHead _ _
  · exact List.forall_mem_nil _

/-- Cancelled tasks hold no flow. -/
theorem State.rd_endings_cancelled (s : State) (fuel : Nat) {l : List Ending} (hl : ∀ e ∈ l, e.2.1 = 2) {f : Fld} (hf : f ∈ flowHoldFields) (j : Nat) :
    (s.endings fuel l).rd f j = s.rd f j := by
  induction fuel generalizing s l with
  | zero => rfl
  | succ fuel ih =>
    cases l with
    | nil => rfl
    | cons e rest =>
      obtain ⟨he, hrest⟩ := List.forall_mem_cons.mp hl
      rw [State.endings]
      split
      · rw [ih _ (List.forall_mem_append.mpr ⟨hrest, s.status_endOne e⟩), s.rd_endOne_held e hf, State.rd_closeFlow_held (by rw [he]; decide) hf]
      · exact ih s hrest

/-- The completion of a task, as far as flows are held. -/
theorem State.rd_complete_held {s : State} {i : Nat} (hused : s.slotUsed i = true) (hphase : (s.task i).phase ≠ .ended) (status cause code : Nat) {f : Fld}
    (hf : f ∈ flowHoldFields) (j : Nat) : (s.complete i status cause code).rd f j = (s.closeFlow (i, status, cause, code)).rd f j := by
  have hgo : (s.slotUsed i && (s.task i).phase != .ended) = true := by
    rw [hused, Bool.true_and]
    exact bne_iff_ne.mpr hphase
  have hdispatch : ∀ g ∈ flowHoldFields, Touched.dispatch.has g.id = false := by decide
  rw [State.complete, rd_dispatch _ (hdispatch f hf), State.endings]
  simp only [hgo, if_true, List.nil_append]
  rw [State.rd_endings_cancelled _ _ (s.status_endOne _) hf, State.rd_endOne_held _ _ hf]

/-- A program fault holds the flow of its task with its cause (R263, R264). -/
theorem State.rd_programFault_held {s : State} {i : Nat} (hphase : (s.task i).phase ≠ .ended) (hflow : (s.task i).desc.noflow = false) (k : Nat)
    {cause : Nat} (hcause : holdsFlow cause = true) (detail : Nat) :
    (s.programFault k i cause detail).rd F.FLOW_STATE_HELD (64 * (s.task i).partition + (s.task i).desc.flow) = 1 ∧
    (s.programFault k i cause detail).rd F.FLOW_STATE_HELD_CAUSE (64 * (s.task i).partition + (s.task i).desc.flow) =
      cause % 2 ^ F.FLOW_STATE_HELD_CAUSE.width := by
  have hused := s.slotUsed_leaveShuttle_same k i 0
  have htask := s.task_leaveShuttle_same k i 0
  have hphase' : ((s.leaveShuttle k i).task i).phase ≠ .ended := by rwa [htask]
  have hflow' : ((s.leaveShuttle k i).task i).flow = some (64 * (s.task i).partition + (s.task i).desc.flow) := by
    rw [htask, Task.flow]
    exact if_neg (Bool.not_eq_true _ ▸ hflow)
  rw [State.programFault, State.rd_complete_held hused hphase' _ _ _ (by decide), State.rd_complete_held hused hphase' _ _ _ (by decide)]
  exact State.rd_closeFlow_error (e := (i, 1, cause, detail)) hflow' rfl hcause

/-! ### A task that parks (R258) -/

theorem State.ready_park (s : State) (k i : Nat) (w : WaitFor) (qtmo : Nat) : (s.park k i w qtmo).sched.ready = s.sched.ready :=
  State.ready_leaveShuttle _ k i 0

@[simp] theorem State.queue_park (s : State) (k i : Nat) (w : WaitFor) (qtmo h : Nat) : (s.park k i w qtmo).queue h = s.queue h :=
  State.queue_leaveShuttle _ k i 0 h

theorem State.phase_park (s : State) (k i : Nat) (w : WaitFor) (qtmo : Nat) : ((s.park k i w qtmo).task i).phase = .parked :=
  congrArg Task.phase (State.task_putTask_same _ i _)

/-- A task that parks at queue `h`, whose waiting tasks then are those of `q`. -/
def State.parkAt (s : State) (k i : Nat) (w : WaitFor) (qtmo h : Nat) (q : HwQueue) : State := ((s.park k i w qtmo).putQueue h q).dispatch

section
variable {s : State} {i : Nat} (k : Nat) (w : WaitFor) (qtmo h : Nat) (q : HwQueue)

theorem State.queue_parkAt : (s.parkAt k i w qtmo h q).queue h = q := by
  rw [State.parkAt, State.queue_dispatch, State.queue_putQueue_same]

/-- It stays parked: it is not in the ready list. -/
theorem State.phase_parkAt (hready : s.sched.ready.contains i = false) : ((s.parkAt k i w qtmo h q).task i).phase = .parked := by
  have hout : i ∉ ((s.park k i w qtmo).putQueue h q).sched.ready := by
    rw [show ((s.park k i w qtmo).putQueue h q).sched.ready = s.sched.ready from s.ready_park k i w qtmo]
    exact fun hmem => Bool.false_ne_true (hready.symm.trans (List.contains_iff_mem.mpr hmem))
  rw [State.parkAt, (dispatched_dispatch _).task i hout]
  exact s.phase_park k i w qtmo

end

end Sys2Proof.Machine
end

section
/-! PROOFS.  QPUSH and QPOP of a Shuttle (10 R258, R259, R262, R268). -/

namespace Sys2Proof.Machine

open Sys2Proof

set_option Elab.async false

/-! ### A queue instruction of a running task -/

section
variable {s : State} (t : Instant) {k i : Nat}

theorem State.onTask_of_running (hrun : s.runningOn k = some i) (f : State → Nat → State) : (s.advance t).onTask k f = f (s.advance t) i := by
  rw [State.onTask, State.runningOn_advance, hrun]

/-- An aligned operand within the windows. -/
theorem State.operand_within {a n attr : Nat} (halign : a % n = 0) (hwin : s.windowOk k a n attr = true) (f : State → State) :
    (s.advance t).operand k i a n attr f = f (s.advance t) := by
  rw [State.operand, if_neg (not_not.mpr halign), State.windowOk_advance, hwin]
  rfl

/-- A misaligned operand holds the flow of the task with cause MISALIGN (R268, Table 10.7). -/
theorem State.rd_operand_misaligned {a n : Nat} (halign : a % n ≠ 0) (hphase : (s.task i).phase ≠ .ended) (hflow : (s.task i).desc.noflow = false)
    (attr : Nat) (f : State → State) :
    ((s.advance t).operand k i a n attr f).rd F.FLOW_STATE_HELD (64 * (s.task i).partition + (s.task i).desc.flow) = 1 ∧
    ((s.advance t).operand k i a n attr f).rd F.FLOW_STATE_HELD_CAUSE (64 * (s.task i).partition + (s.task i).desc.flow) = 4 := by
  have hheld := State.rd_programFault_held (s := s.advance t) (i := i) (by rwa [s.task_advance]) (by rwa [s.task_advance]) k (cause := 4) (by decide) a
  rw [s.task_advance] at hheld
  rw [State.operand, if_pos halign]
  exact hheld

/-- The Shuttle of a running task keeps its result through what leaves its state, and through the dispatcher. -/
theorem State.result_dispatch_of_running (hrun : s.runningOn k = some i) {u : State} (hstate : u.rd F.SH_STATUS_STATE k = s.rd F.SH_STATUS_STATE k) :
    (u.dispatch.shuttle k).result = (u.shuttle k).result := by
  refine (dispatched_dispatch u).result k ?_
  rw [hstate, State.state_of_runningOn hrun]
  exact Nat.one_ne_zero

theorem State.queues_answerShuttle (s : State) (k : Nat) (r : Int) : (s.answerShuttle k r).sched.queues = s.sched.queues := rfl

theorem State.queue_answerShuttle (s : State) (k : Nat) (r : Int) (h : Nat) : (s.answerShuttle k r).queue h = s.queue h := rfl

/-- BUSY leaves the queues and counts. -/
theorem State.busy_counted (s : State) (k i h : Nat) : (((s.bump F.HQ_BUSY_CNT h).busy k i).shuttle k).result = -1 ∧
    ((s.bump F.HQ_BUSY_CNT h).busy k i).sched.queues = s.sched.queues ∧
    ((s.bump F.HQ_BUSY_CNT h).busy k i).rd F.HQ_BUSY_CNT h = min (s.rd F.HQ_BUSY_CNT h + 1) (2 ^ F.HQ_BUSY_CNT.width - 1) := by
  refine ⟨State.result_answerShuttle _ k (-1), rfl, ?_⟩
  rw [State.busy, State.answerShuttle, rd_putShuttle _ _ _ (by decide), State.rd_bump_field _ _ _ _ (by decide), State.rd_bump_saturates]

end

/-! ### QPUSH -/

/-- What QPUSH does with an operand in order. -/
def State.askPush (s : State) (k i h : Nat) (e : QEntry) (nowait : Bool) (qtmo : Nat) : State :=
  if s.owner (queueKey h) ≠ some (s.task i).partition ∨ s.rd F.HQ_CFG_KIND h = 2 ∨ (1 ≤ e.type ∧ e.type ≤ 0x7F) then s.answerShuttle k (-3)
  else if 0 < s.credits h then ((s.answerShuttle k 0).pushEntry h e).dispatch
  else if nowait then (s.bump F.HQ_BUSY_CNT h).busy k i
  else s.parkAt k i (.credit h e) qtmo h
    { (s.park k i (.credit h e) qtmo).queue h with pushers := ((s.park k i (.credit h e) qtmo).queue h).pushers ++ [.task i] }

section
variable {t : Instant} {sh : Fin 48} {h : Fin 128} {addr : Word} {e : QEntry} {nowait : Bool} {qtmo : Word} {s : State} {i : Nat}

theorem execQpush_operand (hrun : s.runningOn sh = some i) : execQpush t sh h addr e nowait qtmo s =
    .next ((s.advance t).operand sh i addr.toNat 16 0 (fun u => u.askPush sh i h e nowait qtmo.toNat)) :=
  congrArg Host.Outcome.next (State.onTask_of_running t hrun _)

theorem qpush_misaligned (hrun : s.runningOn sh = some i) (halign : addr.toNat % 16 ≠ 0) (hphase : (s.task i).phase ≠ .ended)
    (hflow : (s.task i).desc.noflow = false) : Ends (.qpush t sh h addr e nowait qtmo) s (fun u =>
    u.rd F.FLOW_STATE_HELD (64 * (s.task i).partition + (s.task i).desc.flow) = 1 ∧
    u.rd F.FLOW_STATE_HELD_CAUSE (64 * (s.task i).partition + (s.task i).desc.flow) = 4) :=
  ⟨_, execQpush_operand hrun, State.rd_operand_misaligned t halign hphase hflow 0 _⟩

variable (hrun : s.runningOn sh = some i) (halign : addr.toNat % 16 = 0) (hwin : s.windowOk sh addr.toNat 16 0 = true)
include hrun halign hwin

theorem execQpush_asked : execQpush t sh h addr e nowait qtmo s = .next ((s.advance t).askPush sh i h e nowait qtmo.toNat) := by
  rw [execQpush_operand hrun, State.operand_within t halign hwin]

theorem qpush_denied (hdeny : s.owner (queueKey h) ≠ some (s.task i).partition ∨ s.rd F.HQ_CFG_KIND h = 2 ∨ (1 ≤ e.type ∧ e.type ≤ 0x7F)) :
    Ends (.qpush t sh h addr e nowait qtmo) s (fun u => (u.shuttle sh).result = -3 ∧ u.sched.queues = s.sched.queues ∧ u.regs = (s.advance t).regs) := by
  rw [← s.owner_advance t, ← s.task_advance t, ← rd_advance s t (fld := F.HQ_CFG_KIND) (by decide)] at hdeny
  refine ⟨_, execQpush_asked hrun halign hwin, ?_⟩
  rw [State.askPush, if_pos hdeny]
  exact ⟨State.result_answerShuttle _ sh (-3), (State.queues_answerShuttle _ sh (-3)).trans (congrArg Sched.queues (s.advance_sched t)), rfl⟩

variable (howner : s.owner (queueKey h) = some (s.task i).partition) (hkind : s.rd F.HQ_CFG_KIND h ≠ 2) (htype : e.type = 0 ∨ 0x80 ≤ e.type)
include howner hkind htype

theorem execQpush_allowed : execQpush t sh h addr e nowait qtmo s =
    .next (if 0 < s.credits h then (((s.advance t).answerShuttle sh 0).pushEntry h e).dispatch
    else if nowait then ((s.advance t).bump F.HQ_BUSY_CNT h).busy sh i
    else (s.advance t).parkAt sh i (.credit h e) qtmo.toNat h { s.queue h with pushers := (s.queue h).pushers ++ [.task i] }) := by
  have hallow : ¬((s.advance t).owner (queueKey h) ≠ some ((s.advance t).task i).partition ∨ (s.advance t).rd F.HQ_CFG_KIND h = 2 ∨
      (1 ≤ e.type ∧ e.type ≤ 0x7F)) := by
    rw [s.owner_advance t, s.task_advance t, rd_advance s t (by decide)]
    rintro (hother | hfrom | ⟨hlow, hhigh⟩)
    · exact hother howner
    · exact hkind hfrom
    · omega
  rw [execQpush_asked hrun halign hwin]
  simp only [State.askPush, if_neg hallow, State.credits_advance, State.queue_park, State.queue_advance]

theorem qpush_admitted (hcredit : 0 < s.credits h) (hpop : (s.queue h).poppers = []) (hpush : (s.queue h).pushers = []) :
    Ends (.qpush t sh h addr e nowait qtmo) s (fun u => (u.queue h).entries = (s.queue h).entries ++ [e] ∧
    u.rd F.HQ_PUSH_CNT h = (s.rd F.HQ_PUSH_CNT h + 1) % 2 ^ F.HQ_PUSH_CNT.width ∧
    u.rd F.HQ_DEPTH h = ((s.queue h).entries.length + 1) % 2 ^ F.HQ_DEPTH.width ∧ (u.shuttle sh).result = 0) := by
  have hqueue : ((s.advance t).answerShuttle sh 0).queue h = s.queue h := s.queue_advance t h
  have hun : ((s.advance t).answerShuttle sh 0).unattended h := by
    rw [State.unattended, hqueue]
    exact ⟨hpop, hpush⟩
  refine ⟨_, execQpush_allowed hrun halign hwin howner hkind htype, ?_⟩
  rw [if_pos hcredit]
  refine ⟨?_, ?_, ?_, ?_⟩
  · rw [State.queue_dispatch, State.queue_pushEntry hun, hqueue]
  · rw [rd_dispatch _ (by decide), State.rd_pushEntry_count hun, State.answerShuttle, rd_putShuttle _ _ _ (by decide), rd_advance s t (by decide)]
  · rw [rd_dispatch _ (by decide), State.rd_pushEntry_depth hun, hqueue]
  · rw [State.result_dispatch_of_running hrun, State.shuttle_pushEntry hun, State.result_answerShuttle]
    rw [State.rd_pushEntry hun e (by decide) (by decide), State.appendEntry, State.rd_roll_field _ _ _ _ (by decide), rd_storeEntry _ _ _ (by decide),
      rd_putQueue _ _ _ (by decide), State.answerShuttle, rd_putShuttle _ _ _ (by decide), rd_advance s t (by decide)]

theorem qpush_busy (hcredit : s.credits h = 0) : Ends (.qpush t sh h addr e true qtmo) s (fun u => (u.shuttle sh).result = -1 ∧
    u.sched.queues = s.sched.queues ∧ u.rd F.HQ_BUSY_CNT h = min (s.rd F.HQ_BUSY_CNT h + 1) (2 ^ F.HQ_BUSY_CNT.width - 1)) := by
  refine ⟨_, execQpush_allowed hrun halign hwin howner hkind htype, ?_⟩
  rw [if_neg (Nat.not_lt.mpr hcredit.le), if_pos rfl, ← rd_advance s t (fld := F.HQ_BUSY_CNT) (by decide), ← s.advance_sched t]
  exact State.busy_counted _ sh i h

theorem qpush_waits (hcredit : s.credits h = 0) (hready : s.sched.ready.contains i = false) :
    Ends (.qpush t sh h addr e false qtmo) s (fun u => (u.task i).phase = .parked ∧ (u.queue h).entries = (s.queue h).entries ∧
    (u.queue h).pushers = (s.queue h).pushers ++ [.task i]) := by
  refine ⟨_, execQpush_allowed hrun halign hwin howner hkind htype, ?_⟩
  rw [if_neg (Nat.not_lt.mpr hcredit.le), if_neg Bool.false_ne_true]
  refine ⟨State.phase_parkAt _ _ _ _ _ (by rwa [s.advance_sched t]), ?_, ?_⟩ <;> rw [State.queue_parkAt]

end

/-! ### QPOP -/

/-- What QPOP does with an operand in order. -/
def State.askPop (s : State) (k i h a : Nat) (nowait : Bool) (qtmo : Nat) : State :=
  if s.owner (queueKey h) ≠ some (s.task i).partition ∨ s.rd F.HQ_CFG_KIND h = 1 then s.answerShuttle k (-3)
  else
    match (s.queue h).entries with
    | e :: _ => (((s.fillBuffer (s.task i).partition k a e.bytes).answerShuttle k 0).popEntry h).dispatch
    | [] =>
      if nowait then (s.bump F.HQ_BUSY_CNT h).busy k i
      else s.parkAt k i (.entry h a) qtmo h
        { (s.park k i (.entry h a) qtmo).queue h with poppers := ((s.park k i (.entry h a) qtmo).queue h).poppers ++ [i] }

theorem State.sched_fillBuffer (s : State) (p k a : Nat) (bs : List Byte) : (s.fillBuffer p k a bs).sched = s.sched :=
  (keeps_fillBuffer (closed_frame _ s) (Frame.refl _ s) p k a bs).part (p := .sched) rfl

/-- Bytes stored at a place lie in the memory that the place names. -/
theorem State.storeAt_memory (s : State) (place : Nat × Nat) (bs : List Byte) :
    (place.1 = 2 → (s.storeAt place bs).dlm = s.dlm.writeBytes place.2 bs) ∧ (place.1 = 1 → (s.storeAt place bs).dram = s.dram.writeBytes place.2 bs) ∧
    (place.1 = 0 → (s.storeAt place bs).sram = s.sram.writeBytes place.2 bs) := by
  obtain ⟨memory, a⟩ := place
  refine ⟨?_, ?_, ?_⟩ <;>
  · rintro rfl
    rfl

section
variable {t : Instant} {sh : Fin 48} {h : Fin 128} {addr : Word} {nowait : Bool} {qtmo : Word} {s : State} {i : Nat}

theorem execQpop_operand (hrun : s.runningOn sh = some i) : execQpop t sh h addr nowait qtmo s =
    .next ((s.advance t).operand sh i addr.toNat 16 1 (fun u => u.askPop sh i h addr.toNat nowait qtmo.toNat)) :=
  congrArg Host.Outcome.next (State.onTask_of_running t hrun _)

theorem qpop_misaligned (hrun : s.runningOn sh = some i) (halign : addr.toNat % 16 ≠ 0) (hphase : (s.task i).phase ≠ .ended)
    (hflow : (s.task i).desc.noflow = false) : Ends (.qpop t sh h addr nowait qtmo) s (fun u =>
    u.rd F.FLOW_STATE_HELD (64 * (s.task i).partition + (s.task i).desc.flow) = 1 ∧
    u.rd F.FLOW_STATE_HELD_CAUSE (64 * (s.task i).partition + (s.task i).desc.flow) = 4) :=
  ⟨_, execQpop_operand hrun, State.rd_operand_misaligned t halign hphase hflow 1 _⟩

variable (hrun : s.runningOn sh = some i) (halign : addr.toNat % 16 = 0) (hwin : s.windowOk sh addr.toNat 16 1 = true)
include hrun halign hwin

theorem execQpop_asked : execQpop t sh h addr nowait qtmo s = .next ((s.advance t).askPop sh i h addr.toNat nowait qtmo.toNat) := by
  rw [execQpop_operand hrun, State.operand_within t halign hwin]

theorem qpop_denied (hdeny : s.owner (queueKey h) ≠ some (s.task i).partition ∨ s.rd F.HQ_CFG_KIND h = 1) :
    Ends (.qpop t sh h addr nowait qtmo) s (fun u => (u.shuttle sh).result = -3 ∧ u.sched.queues = s.sched.queues ∧ u.regs = (s.advance t).regs) := by
  rw [← s.owner_advance t, ← s.task_advance t, ← rd_advance s t (fld := F.HQ_CFG_KIND) (by decide)] at hdeny
  refine ⟨_, execQpop_asked hrun halign hwin, ?_⟩
  rw [State.askPop, if_pos hdeny]
  exact ⟨State.result_answerShuttle _ sh (-3), (State.queues_answerShuttle _ sh (-3)).trans (congrArg Sched.queues (s.advance_sched t)), rfl⟩

variable (howner : s.owner (queueKey h) = some (s.task i).partition) (hkind : s.rd F.HQ_CFG_KIND h ≠ 1)
include howner hkind

omit hrun halign hwin in
theorem State.popAllowed_advance : ¬((s.advance t).owner (queueKey h) ≠ some ((s.advance t).task i).partition ∨ (s.advance t).rd F.HQ_CFG_KIND h = 1) := by
  rw [s.owner_advance t, s.task_advance t, rd_advance s t (by decide)]
  rintro (hother | hto)
  · exact hother howner
  · exact hkind hto

/-- The oldest entry of a queue that nobody waits at is copied to the task's buffer and taken. -/
theorem execQpop_taken {e : QEntry} {rest : List QEntry} (hentries : (s.queue h).entries = e :: rest) : execQpop t sh h addr nowait qtmo s =
    .next (((((s.advance t).fillBuffer (s.task i).partition sh addr.toNat e.bytes).answerShuttle sh 0).popEntry h).dispatch) := by
  rw [execQpop_asked hrun halign hwin, State.askPop, if_neg (State.popAllowed_advance howner hkind), s.queue_advance t, hentries, s.task_advance t]

/-- A queue without an entry. -/
theorem execQpop_empty (hentries : (s.queue h).entries = []) : execQpop t sh h addr nowait qtmo s =
    .next (if nowait then ((s.advance t).bump F.HQ_BUSY_CNT h).busy sh i
    else (s.advance t).parkAt sh i (.entry h addr.toNat) qtmo.toNat h { s.queue h with poppers := (s.queue h).poppers ++ [i] }) := by
  rw [execQpop_asked hrun halign hwin, State.askPop, if_neg (State.popAllowed_advance howner hkind), State.queue_park, s.queue_advance t, hentries]

theorem qpop_busy (hentries : (s.queue h).entries = []) : Ends (.qpop t sh h addr true qtmo) s (fun u => (u.shuttle sh).result = -1 ∧
    u.sched.queues = s.sched.queues) := by
  obtain ⟨hresult, hqueues, -⟩ := (s.advance t).busy_counted sh i h
  exact ⟨_, execQpop_empty hrun halign hwin howner hkind hentries, hresult, hqueues.trans (congrArg Sched.queues (s.advance_sched t))⟩

theorem qpop_waits (hentries : (s.queue h).entries = []) (hready : s.sched.ready.contains i = false) :
    Ends (.qpop t sh h addr false qtmo) s (fun u => (u.task i).phase = .parked ∧ (u.queue h).entries = [] ∧
    (u.queue h).poppers = (s.queue h).poppers ++ [i]) := by
  refine ⟨_, execQpop_empty hrun halign hwin howner hkind hentries, ?_⟩
  rw [if_neg Bool.false_ne_true]
  exact ⟨State.phase_parkAt _ _ _ _ _ (by rwa [s.advance_sched t]), (congrArg HwQueue.entries (State.queue_parkAt _ _ _ _ _)).trans hentries,
    congrArg HwQueue.poppers (State.queue_parkAt _ _ _ _ _)⟩

variable {e : QEntry} {rest : List QEntry} (hentries : (s.queue h).entries = e :: rest) (hpush : (s.queue h).pushers = []) (hpop : (s.queue h).poppers = [])
include hentries hpush hpop

omit hrun halign hwin howner hkind hentries in
theorem State.unattended_filled : (((s.advance t).fillBuffer (s.task i).partition sh addr.toNat e.bytes).answerShuttle sh 0).unattended h ∧
    (((s.advance t).fillBuffer (s.task i).partition sh addr.toNat e.bytes).answerShuttle sh 0).queue h = s.queue h := by
  have hqueue : (((s.advance t).fillBuffer (s.task i).partition sh addr.toNat e.bytes).answerShuttle sh 0).queue h = s.queue h := by
    rw [State.queue_answerShuttle, State.queue, State.sched_fillBuffer]
    exact s.queue_advance t h
  refine ⟨?_, hqueue⟩
  rw [State.unattended, hqueue]
  exact ⟨hpop, hpush⟩

theorem qpop_taken : Ends (.qpop t sh h addr nowait qtmo) s (fun u => (u.queue h).entries = rest ∧ (u.shuttle sh).result = 0) := by
  obtain ⟨hun, hqueue⟩ := State.unattended_filled (t := t) (sh := sh) (addr := addr) (i := i) (e := e) hpush hpop
  refine ⟨_, execQpop_taken hrun halign hwin howner hkind hentries, ?_, ?_⟩
  · rw [State.queue_dispatch, State.queue_popEntry hun, hqueue, hentries]
    rfl
  · rw [State.result_dispatch_of_running hrun, State.popEntry_unattended hun]
    · exact State.result_answerShuttle _ sh 0
    · rw [State.popEntry_unattended hun, rd_putQueue _ _ _ (by decide), State.answerShuttle, rd_putShuttle _ _ _ (by decide), rd_fillBuffer _ _ _ _ _ (by decide),
        rd_advance s t (by decide)]

/-- With no task ready the memories change in those 16 bytes alone. -/
theorem qpop_stored {a : Nat × Nat} (hplace : shuttlePlace (s.task i).partition sh addr.toNat = some a) (hready : s.sched.ready = []) :
    Ends (.qpop t sh h addr nowait qtmo) s (fun u => (a.1 = 2 → u.dlm = s.dlm.writeBytes a.2 e.bytes) ∧
    (a.1 = 1 → u.dram = s.dram.writeBytes a.2 e.bytes) ∧ (a.1 = 0 → u.sram = s.sram.writeBytes a.2 e.bytes)) := by
  obtain ⟨hun, -⟩ := State.unattended_filled (t := t) (sh := sh) (addr := addr) (i := i) (e := e) hpush hpop
  have hdlm : (s.advance t).dlm = s.dlm := (frame_advance s t).part (p := .dlm) rfl
  have hfill : (s.advance t).fillBuffer (s.task i).partition sh addr.toNat e.bytes = (s.advance t).storeAt a e.bytes := by
    rw [State.fillBuffer, hplace]
  refine ⟨_, execQpop_taken hrun halign hwin howner hkind hentries, ?_⟩
  rw [hfill] at hun ⊢
  have hnone : (((s.advance t).storeAt a e.bytes).answerShuttle sh 0 |>.popEntry h).sched.ready = [] := by
    rw [State.popEntry_unattended hun, ← hready, ← s.advance_sched t, ← State.sched_fillBuffer (s.advance t) (s.task i).partition sh addr.toNat e.bytes, hfill]
    rfl
  have hidle := keeps_idleCheck (closed_frame _ (((s.advance t).storeAt a e.bytes).answerShuttle sh 0 |>.popEntry h)) (Frame.refl _ _)
  rw [State.dispatch_of_ready_nil hnone, hidle.part (p := .dlm) rfl, hidle.part (p := .dram) rfl, hidle.part (p := .sram) rfl, State.popEntry_unattended hun,
    ← hdlm, ← s.advance_dram t, ← s.advance_sram t]
  exact (s.advance t).storeAt_memory a e.bytes

end

end Sys2Proof.Machine
end

section
/-! PROOFS.  HQ_PUSH and HQ_POP of the host (18 R443; 10 R262), and the statement of the hardware queues. -/

namespace Sys2Proof.Machine

open Sys2Proof

set_option Elab.async false

/-! ### The answer of a host command -/

/-- With a command accepted whole at the head of an object's queue, none completes without execution. -/
theorem State.drainRefused_of_fits {s : State} {obj : Nat} (h : (s.waiting obj).head?.all (fun c => c.status == 0) = true) (n : Nat) :
    s.drainRefused obj n = s := by
  cases n with
  | zero => rfl
  | succ n =>
    unfold State.drainRefused
    cases hw : s.waiting obj with
    | nil => rfl
    | cons c rest =>
      rw [hw] at h
      exact if_pos (beq_iff_eq.mp h)

@[simp] theorem State.waiting_interrupt (s : State) (n obj : Nat) : (s.interrupt n).waiting obj = s.waiting obj := by
  simp only [State.interrupt]
  split
  · split <;> rfl
  · rfl

@[simp] theorem State.waiting_completeCmd (s : State) (k : Nat) (c : HostCmd) (a : Answer) (obj : Nat) : (s.completeCmd k c a).waiting obj = s.waiting obj := by
  have hseq : (s.showSeq k c.seq).waiting obj = s.waiting obj := by
    unfold State.showSeq
    split <;> rfl
  simp only [State.completeCmd]
  split
  · exact hseq
  · rw [State.waiting_interrupt]
    exact hseq

theorem State.answer_completeCmd (s : State) (k : Nat) (c : HostCmd) (a : Answer) : (s.completeCmd k c a).answer = a := by
  have hinterrupt (u : State) (n : Nat) : (u.interrupt n).answer = u.answer :=
    (keeps_interrupt (closed_frame _ u) (Frame.refl _ u) n).part (p := .answer) rfl
  simp only [State.completeCmd]
  split
  · rfl
  · exact hinterrupt _ _

/-- A host command that executes leaves its queue and completes; the refused commands behind it complete after it. -/
theorem State.hostCommand_completes {s : State} {opcode obj : Nat} {args : HostCmd → Bool} (h : s.mayExecute opcode obj args = true) (f : State → State) :
    ∃ c rest, s.waiting obj = c :: rest ∧ s.hostCommand opcode obj args f =
      (((f (s.reply 0)).putWaiting obj rest).completeCmd obj c (f (s.reply 0)).answer).drainRefused obj (rest.length + 1) := by
  unfold State.mayExecute at h
  cases hw : s.waiting obj with
  | nil => simp [hw] at h
  | cons c rest =>
    simp only [hw, Bool.and_eq_true, Bool.or_eq_true, Bool.not_eq_true', Option.isNone_iff_eq_none, beq_iff_eq] at h
    obtain ⟨⟨⟨⟨⟨⟨hwrite, hopcode⟩, hstatus⟩, hargs⟩, hboot⟩, hexpect⟩, hcovered⟩ := h
    have hfits : ¬(c.write.isSome ∨ c.opcode ≠ opcode ∨ c.status ≠ 0 ∨ !args c ∨ (s.on F.HOST_STATUS_BOOTING && !bootCommand opcode) = true) := by
      rcases hboot with hboot | hboot <;> simp [hwrite, hopcode, hstatus, hargs, hboot]
    have hfound : ¬(c.kind ≠ 0 ∧ s.expected obj c.kind ≠ c.expect) := fun ⟨hkind, hother⟩ => hexpect.elim hkind hother
    have halone : (if obj < 16 then some obj else none).any s.covered = false := by
      split
      · rename_i hobj
        simpa [hobj] using hcovered
      · rfl
    refine ⟨c, rest, rfl, ?_⟩
    simp only [State.hostCommand, hw, if_neg hfits, if_neg hfound, State.coveredGate, halone, Bool.false_and, Bool.false_eq_true, if_false]

/-- A host command that executes answers what its execution replies, if the command behind it was accepted whole. -/
theorem State.answer_hostCommand {s : State} {opcode obj : Nat} {args : HostCmd → Bool} (h : s.mayExecute opcode obj args = true)
    (hnext : s.nextFits obj = true) (f : State → State) : (s.hostCommand opcode obj args f).answer = (f (s.reply 0)).answer := by
  obtain ⟨c, rest, hw, hcommand⟩ := State.hostCommand_completes h f
  have hrest : ((f (s.reply 0)).putWaiting obj rest).waiting obj = rest := Tbl.get_set_same _ _ _ _
  rw [State.nextFits, hw] at hnext
  rw [hcommand, State.drainRefused_of_fits, State.answer_completeCmd]
  rw [State.waiting_completeCmd, hrest]
  exact hnext

theorem State.sched_hostCommand {s : State} {opcode obj : Nat} {args : HostCmd → Bool} (h : s.mayExecute opcode obj args = true) (f : State → State) :
    (s.hostCommand opcode obj args f).sched = (f (s.reply 0)).sched := (State.hostCommand_frame h f).part (p := .sched) rfl

/-- A command that only replies is answered, and the scheduler stays as it is. -/
theorem State.hostCommand_replies {s : State} {opcode obj : Nat} {args : HostCmd → Bool} (h : s.mayExecute opcode obj args = true)
    (hnext : s.nextFits obj = true) {f : State → State} {r : Int} (hf : f (s.reply 0) = (s.reply 0).reply r) :
    (s.hostCommand opcode obj args f).sched = s.sched ∧ (s.hostCommand opcode obj args f).answer.result = r := by
  rw [State.sched_hostCommand h, State.answer_hostCommand h hnext, hf]
  exact ⟨rfl, rfl⟩

/-- A command that changes the scheduler, replies and lets the dispatcher run leaves the queues so changed and answers its reply. -/
theorem State.hostCommand_dispatches {s u : State} {opcode obj : Nat} {args : HostCmd → Bool} (h : s.mayExecute opcode obj args = true)
    (hnext : s.nextFits obj = true) {f : State → State} {r : Int} {data : List Byte} (hf : f (s.reply 0) = (u.reply r data).dispatch) (q : Nat) :
    (s.hostCommand opcode obj args f).queue q = u.queue q ∧ (s.hostCommand opcode obj args f).answer = ⟨0, r, data⟩ := by
  constructor
  · rw [State.queue, State.sched_hostCommand h, hf]
    exact State.queue_dispatch (u.reply r data) q
  · rw [State.answer_hostCommand h hnext, hf]
    exact (keeps_dispatch (closed_frame _ (u.reply r data)) (Frame.refl _ _)).part (p := .answer) rfl

@[simp] theorem State.nextFits_advance (s : State) (t : Instant) (obj : Nat) : (s.advance t).nextFits obj = s.nextFits obj := by
  simp only [State.nextFits, State.waiting_advance]

/-! ### Several entries -/

/-- The host's entries enter in order until the credits run out. -/
theorem State.hostPush_spec {s : State} {h : Nat} (hun : s.unattended h) (n : Nat) (es : List QEntry) :
    ((s.hostPush h n es).1.queue h).entries = (s.queue h).entries ++ es.take (s.credits h) ∧
    (s.hostPush h n es).2 = n + min es.length (s.credits h) := by
  induction es generalizing s n with
  | nil => simp [State.hostPush]
  | cons e rest ih =>
    rw [State.hostPush]
    split
    · rename_i hnone
      simp [hnone]
    · rename_i hcredit
      obtain ⟨m, hm⟩ := Nat.exists_eq_succ_of_ne_zero hcredit
      obtain ⟨hentries, hcount⟩ := ih (State.unattended_pushEntry hun e) (n + 1)
      rw [hentries, hcount, State.queue_pushEntry hun, State.credits_pushEntry hun, hm]
      simp
      omega

theorem QEntry.length_bytes (e : QEntry) : e.bytes.length = 16 := by
  simp [QEntry.bytes, length_leBytes]

/-- The bytes of entries, one behind the other. -/
def bytesOfEntries (l : List QEntry) : List Byte := (l.map (·.bytes)).flatten

theorem length_bytesOfEntries (l : List QEntry) : (bytesOfEntries l).length = 16 * l.length := by
  induction l with
  | nil => rfl
  | cons e rest ih =>
    rw [bytesOfEntries, List.map_cons, List.flatten_cons, List.length_append, QEntry.length_bytes, List.length_cons, Nat.mul_succ, Nat.add_comm]
    exact congrArg (· + 16) ih

/-- The host takes the oldest entries, in order. -/
theorem State.hostPop_spec {s : State} {h : Nat} (hun : s.unattended h) (data : List Byte) {n : Nat} (hn : n ≤ (s.queue h).entries.length) :
    ((s.hostPop h data n).1.queue h).entries = (s.queue h).entries.drop n ∧
    (s.hostPop h data n).2 = data ++ bytesOfEntries ((s.queue h).entries.take n) := by
  induction n generalizing s data with
  | zero => simp [State.hostPop, bytesOfEntries]
  | succ n ih =>
    cases hentries : (s.queue h).entries with
    | nil => simp [hentries] at hn
    | cons e rest =>
      have hpopped : ((s.popEntry h).queue h).entries = rest := by
        rw [State.queue_popEntry hun, hentries]
        rfl
      rw [hentries, List.length_cons] at hn
      obtain ⟨hleft, hdata⟩ := ih (State.unattended_popEntry hun) (data ++ e.bytes) (by rw [hpopped]; omega)
      rw [hpopped] at hleft hdata
      simp only [State.hostPop, hentries, hleft, hdata, bytesOfEntries, List.drop_succ_cons, List.take_succ_cons, List.map_cons, List.flatten_cons,
        List.append_assoc, and_self]

/-! ### HQ_PUSH and HQ_POP -/

/-- What HQ_PUSH does when it executes. -/
def State.askHostPush (s : State) (p h : Nat) (es : List QEntry) : State :=
  if s.owner (queueKey h) ≠ some p ∨ s.rd F.HQ_CFG_KIND h ≠ 2 ∨ es.any (fun e => decide (1 ≤ e.type) && decide (e.type ≤ 0x7F)) = true then s.reply (-3)
  else ((s.hostPush h 0 es).1.reply (s.hostPush h 0 es).2).dispatch

/-- What HQ_POP does when it executes. -/
def State.askHostPop (s : State) (p h most : Nat) : State :=
  if s.owner (queueKey h) ≠ some p ∨ s.rd F.HQ_CFG_KIND h ≠ 1 then s.reply (-3)
  else
    let r := s.hostPop h [] (min most (s.queue h).entries.length)
    (r.1.reply (r.2.length / 16) r.2).dispatch

section
variable (t : Instant) {p : Fin 16} {h : Fin 128} {s : State}

theorem execHqPush_asked (es : List QEntry) : execHqPush t p h es s =
    .next ((s.advance t).hostCommand 9 p (fun c => c.arg0 == h.val) (fun u => u.askHostPush p h es)) := rfl

theorem execHqPop_asked (most : Word) : execHqPop t p h most s =
    .next ((s.advance t).hostCommand 0xA p (fun c => c.arg0 == h.val && c.arg1 == most.toNat) (fun u => u.askHostPop p h most.toNat)) := rfl

/-- A host command that waits for its execution still does after the Warp's movement. -/
theorem State.executes_advance {opcode : Nat} {args : HostCmd → Bool} (hmay : s.mayExecute opcode p args = true) (hnext : s.nextFits p = true) :
    (s.advance t).mayExecute opcode p args = true ∧ (s.advance t).nextFits p = true := by
  rw [State.mayExecute_advance, State.nextFits_advance]
  exact ⟨hmay, hnext⟩

section
variable {es : List QEntry} (hmay : s.mayExecute 9 p (fun c => c.arg0 == h.val) = true) (hnext : s.nextFits p = true)
include hmay hnext

theorem hqPush_admitted (howner : s.owner (queueKey h) = some p.val) (hkind : s.rd F.HQ_CFG_KIND h = 2)
    (htypes : es.all (fun e => e.type == 0 || decide (0x80 ≤ e.type)) = true) (hpop : (s.queue h).poppers = []) (hpush : (s.queue h).pushers = []) :
    Ends (.hqPush t p h es) s (fun u => (u.queue h).entries = (s.queue h).entries ++ es.take (s.credits h) ∧
    u.answer.result = min es.length (s.credits h)) := by
  have hallow : es.any (fun e => decide (1 ≤ e.type) && decide (e.type ≤ 0x7F)) = false := by
    simp only [List.all_eq_true, Bool.or_eq_true, beq_iff_eq, decide_eq_true_eq] at htypes
    simp only [List.any_eq_false, Bool.and_eq_true, decide_eq_true_eq]
    intro e he hreserved
    have := htypes e he
    omega
  have hgo : ¬(((s.advance t).reply 0).owner (queueKey h) ≠ some p.val ∨ ((s.advance t).reply 0).rd F.HQ_CFG_KIND h ≠ 2 ∨
      es.any (fun e => decide (1 ≤ e.type) && decide (e.type ≤ 0x7F)) = true) := by
    have howner' : ((s.advance t).reply 0).owner (queueKey h) = some p.val := (s.owner_advance t _).trans howner
    have hkind' : ((s.advance t).reply 0).rd F.HQ_CFG_KIND h = 2 := (rd_advance s t (by decide) h).trans hkind
    simp [howner', hkind', hallow]
  have hqueue : ((s.advance t).reply 0).queue h = s.queue h := s.queue_advance t h
  have hcredits : ((s.advance t).reply 0).credits h = s.credits h := s.credits_advance t h
  have hun : ((s.advance t).reply 0).unattended h := by
    rw [State.unattended, hqueue]
    exact ⟨hpop, hpush⟩
  obtain ⟨hentries, hcount⟩ := State.hostPush_spec hun 0 es
  obtain ⟨hmay', hnext'⟩ := State.executes_advance t hmay hnext
  obtain ⟨hafter, hanswer⟩ := State.hostCommand_dispatches hmay' hnext' (f := fun u => u.askHostPush p h es) (if_neg hgo) h
  refine ⟨_, execHqPush_asked t es, ?_, ?_⟩
  · rw [hafter, hentries, hqueue, hcredits]
  · rw [hanswer, hcount, hcredits, Nat.zero_add]

theorem hqPush_denied (hdeny : s.owner (queueKey h) ≠ some p.val ∨ s.rd F.HQ_CFG_KIND h ≠ 2 ∨
    es.any (fun e => decide (1 ≤ e.type) && decide (e.type ≤ 0x7F)) = true) :
    Ends (.hqPush t p h es) s (fun u => u.sched = s.sched ∧ u.answer.result = -3) := by
  rw [← s.owner_advance t, ← rd_advance s t (fld := F.HQ_CFG_KIND) (by decide)] at hdeny
  obtain ⟨hmay', hnext'⟩ := State.executes_advance t hmay hnext
  refine ⟨_, execHqPush_asked t es, ?_⟩
  rw [← s.advance_sched t]
  exact State.hostCommand_replies hmay' hnext' (if_pos hdeny)

end

section
variable {most : Word} (hmay : s.mayExecute 0xA p (fun c => c.arg0 == h.val && c.arg1 == most.toNat) = true) (hnext : s.nextFits p = true)
include hmay hnext

theorem hqPop_taken (howner : s.owner (queueKey h) = some p.val) (hkind : s.rd F.HQ_CFG_KIND h = 1) (hpop : (s.queue h).poppers = [])
    (hpush : (s.queue h).pushers = []) : Ends (.hqPop t p h most) s (fun u => (u.queue h).entries = (s.queue h).entries.drop most.toNat ∧
    u.answer.result = min most.toNat (s.queue h).entries.length ∧
    u.answer.data = (((s.queue h).entries.take most.toNat).map (·.bytes)).flatten) := by
  have hgo : ¬(((s.advance t).reply 0).owner (queueKey h) ≠ some p.val ∨ ((s.advance t).reply 0).rd F.HQ_CFG_KIND h ≠ 1) := by
    have howner' : ((s.advance t).reply 0).owner (queueKey h) = some p.val := (s.owner_advance t _).trans howner
    have hkind' : ((s.advance t).reply 0).rd F.HQ_CFG_KIND h = 1 := (rd_advance s t (by decide) h).trans hkind
    simp [howner', hkind']
  have hqueue : ((s.advance t).reply 0).queue h = s.queue h := s.queue_advance t h
  have hun : ((s.advance t).reply 0).unattended h := by
    rw [State.unattended, hqueue]
    exact ⟨hpop, hpush⟩
  obtain ⟨hentries, hdata⟩ := State.hostPop_spec hun [] (Nat.min_le_right most.toNat (((s.advance t).reply 0).queue h).entries.length)
  obtain ⟨hmay', hnext'⟩ := State.executes_advance t hmay hnext
  obtain ⟨hafter, hanswer⟩ := State.hostCommand_dispatches hmay' hnext' (f := fun u => u.askHostPop p h most.toNat) (if_neg hgo) h
  rw [hqueue] at hentries hdata
  rw [← List.drop_eq_drop_min] at hentries
  rw [← List.take_eq_take_min, List.nil_append] at hdata
  rw [hqueue] at hafter
  rw [hqueue, hdata] at hanswer
  refine ⟨_, execHqPop_asked t most, ?_, ?_, ?_⟩
  · rw [hafter, hentries]
  · rw [hanswer, length_bytesOfEntries, List.length_take]
    dsimp only
    omega
  · rw [hanswer]
    rfl

theorem hqPop_denied (hdeny : s.owner (queueKey h) ≠ some p.val ∨ s.rd F.HQ_CFG_KIND h ≠ 1) :
    Ends (.hqPop t p h most) s (fun u => u.sched = s.sched ∧ u.answer.result = -3) := by
  rw [← s.owner_advance t, ← rd_advance s t (fld := F.HQ_CFG_KIND) (by decide)] at hdeny
  obtain ⟨hmay', hnext'⟩ := State.executes_advance t hmay hnext
  refine ⟨_, execHqPop_asked t most, ?_⟩
  rw [← s.advance_sched t]
  exact State.hostCommand_replies hmay' hnext' (if_pos hdeny)

end

end

/-! ### The statement -/

/-- Settles O40, a clause for each theorem about its command. -/
theorem hardwareQueuesKeepTheirOrder : Obligations.HardwareQueuesKeepTheirOrder := by
  unfold Obligations.HardwareQueuesKeepTheirOrder
  exact ⟨fun _ _ _ _ _ _ _ _ _ hrun halign hwin howner hkind htype => qpush_admitted hrun halign hwin howner hkind htype,
    fun _ _ _ _ _ _ _ _ hrun halign hwin howner hkind htype => qpush_busy hrun halign hwin howner hkind htype,
    fun _ _ _ _ _ _ _ _ hrun halign hwin howner hkind htype => qpush_waits hrun halign hwin howner hkind htype,
    fun _ _ _ _ _ _ _ _ _ hrun halign hwin => qpush_denied hrun halign hwin,
    fun _ _ _ _ _ _ _ _ _ hrun halign _ => qpush_misaligned hrun halign,
    fun _ _ _ _ _ _ _ _ _ _ hrun halign hwin howner hkind => qpop_taken hrun halign hwin howner hkind,
    fun _ _ _ _ _ _ _ _ _ _ _ hrun halign hwin howner hkind hentries hpush hpop hplace =>
      qpop_stored hrun halign hwin howner hkind hentries hpush hpop hplace,
    fun _ _ _ _ _ _ _ hrun halign hwin howner hkind => qpop_busy hrun halign hwin howner hkind,
    fun _ _ _ _ _ _ _ hrun halign hwin howner hkind => qpop_waits hrun halign hwin howner hkind,
    fun _ _ _ _ _ _ _ _ hrun halign hwin => qpop_denied hrun halign hwin,
    fun _ _ _ _ _ _ _ _ hrun halign _ => qpop_misaligned hrun halign,
    fun t _ _ _ _ hmay hnext => hqPush_admitted t hmay hnext, fun t _ _ _ _ hmay hnext => hqPush_denied t hmay hnext,
    fun t _ _ _ _ hmay hnext => hqPop_taken t hmay hnext, fun t _ _ _ _ hmay hnext => hqPop_denied t hmay hnext⟩

end Sys2Proof.Machine
end

section
/-! PROOFS.  Submission and completion of tasks (10 R248, R250, R252): two statements that fail where the register file holds a count of slots beyond
the width of its field. -/

namespace Sys2Proof.Machine

open Sys2Proof

set_option Elab.async false

/-! ### The free slots after a submission -/

/-- A new task takes one slot of those that FREE_SLOTS counts, within its width. -/
theorem State.rd_createTask_freeSlots (s : State) (p : Nat) (d : TaskDesc) (root scan : Option Nat) :
    (s.createTask p d root scan).1.rd F.SCHED_STATUS_FREE_SLOTS = (s.rd F.SCHED_STATUS_FREE_SLOTS - 1) % 2 ^ F.SCHED_STATUS_FREE_SLOTS.width := by
  unfold State.createTask
  extract_lets v drawn i g named blank placed counted
  have hplaced : placed.rd F.SCHED_STATUS_FREE_SLOTS = s.rd F.SCHED_STATUS_FREE_SLOTS := rfl
  have hcounted : counted.rd F.SCHED_STATUS_FREE_SLOTS = (s.rd F.SCHED_STATUS_FREE_SLOTS - 1) % 2 ^ F.SCHED_STATUS_FREE_SLOTS.width := by
    rw [State.rd_wr_same, hplaced]
  exact Keeps.ite (I := fun u => u.rd F.SCHED_STATUS_FREE_SLOTS = _) ((rd_makeReady counted i (by decide) 0).trans hcounted) hcounted

/-- A submission that is accepted counts so. -/
theorem execQsub_accepted {t : Instant} {sh : Fin 48} {addr : Word} {d : BitVec 512} {nowait : Bool} {qtmo : Word} {s : State} {i : Nat}
    (hrun : s.runningOn sh = some i) (halign : addr.toNat % 64 = 0) (hwin : s.windowOk sh addr.toNat 64 0 = true)
    (hok : (s.advance t).submitOk (s.task i).partition (TaskDesc.ofBytes d.toNat) (s.task i).desc.supervisor = true)
    (hfree : (s.advance t).slotFree (s.task i).partition = true) : ∃ u, execQsub t sh addr d nowait qtmo s = .next u ∧
    u.rd F.SCHED_STATUS_FREE_SLOTS = (s.rd F.SCHED_STATUS_FREE_SLOTS - 1) % 2 ^ F.SCHED_STATUS_FREE_SLOTS.width := by
  refine ⟨_, congrArg Host.Outcome.next (State.onTask_of_running t hrun _), ?_⟩
  rw [State.operand_within t halign hwin]
  simp only [State.task_advance, hok, hfree, Bool.not_true, Bool.false_eq_true, if_false, if_true]
  rw [rd_dispatch _ (by decide), State.answerShuttle, rd_putShuttle _ _ _ (by decide), State.rd_createTask_freeSlots, rd_advance s t (by decide)]

/-- A task running on Shuttle 4, in whose register file FREE_SLOTS, a field of 13 bits, holds 8193. -/
def wideFreeUp : State := taskUp.putReg F.SCHED_STATUS_FREE_SLOTS.id 0 8193

/-- Refutes O38: the statement speaks of every state, and in one whose FREE_SLOTS holds 8193, more than its 13 bits, an accepted submission leaves
8192 mod 8192 there, where the first clause asks for 8192. -/
theorem not_tasksSubmitCancelAndQueryBySlot : ¬ Obligations.TasksSubmitCancelAndQueryBySlot := by
  unfold Obligations.TasksSubmitCancelAndQueryBySlot
  rintro ⟨hSubmit, -⟩
  have hrun : wideFreeUp.runningOn 4 = some 9 := by decide +kernel
  have hwin : wideFreeUp.windowOk 4 0xF0000000 64 0 = true := by decide +kernel
  have hslots : wideFreeUp.rd F.SCHED_STATUS_FREE_SLOTS = 8193 := by decide +kernel
  obtain ⟨u, hu, -, hfree, -⟩ := hSubmit 5 4 0xF0000000 (descBits plainTask) false 0 wideFreeUp 9 hrun rfl hwin (by decide +kernel) (by decide +kernel)
  obtain ⟨w, hw, hcut⟩ := execQsub_accepted (t := 5) (sh := 4) (addr := 0xF0000000) (d := descBits plainTask) (nowait := false) (qtmo := 0) hrun rfl hwin
    (by decide +kernel) (by decide +kernel)
  obtain rfl : u = w := Host.Outcome.next.inj (hu.symm.trans hw)
  rw [hcut, hslots] at hfree
  exact absurd hfree (by decide)

/-! ### The slots in use after a completion -/

/-- A task of partition 2 running on Shuttle 4, in whose register file USED of the partition, a field of 13 bits, holds 8193. -/
def wideUsedUp : State := taskUp.putReg F.PS_USED.id 2 8193

/-- Its QDONE gives its slot back, and leaves 8192 mod 8192 in USED. -/
theorem execQdone_wideUsed : ∃ u, execQdone 5 4 0 wideUsedUp = .next u ∧ u.rd F.PS_USED 2 = 0 := ⟨_, rfl, by decide +kernel⟩

/-- Refutes O39: the statement speaks of every state, and in one whose USED holds 8193, more than its 13 bits, a QDONE leaves 0 there, where the first
clause asks for 8192. -/
theorem not_tasksEndRetryAndTimeOut : ¬ Obligations.TasksEndRetryAndTimeOut := by
  unfold Obligations.TasksEndRetryAndTimeOut
  rintro ⟨hDone, -⟩
  obtain ⟨u, hu, -, hused⟩ := hDone 5 4 0 wideUsedUp 9 (by decide +kernel) (by decide +kernel) (by decide +kernel) (by decide +kernel) (by decide +kernel)
    (by decide +kernel) (by decide +kernel)
  obtain ⟨w, hw, hzero⟩ := execQdone_wideUsed
  obtain rfl : u = w := Host.Outcome.next.inj (hu.symm.trans hw)
  exact absurd (hzero.symm.trans hused) (by decide +kernel)

end Sys2Proof.Machine
end
